-- ==== Sys2Proof/Word.lean ====
section
/-!
DEFINITION. Sys2Proof/Word.lean: the machine's plain words, as the manual counts them.
Bytes, 16-, 32- and 64-bit words are bit vectors because the manual masks and packs them (00 R13, R14);
handles, ticks, addresses and counts are natural numbers wherever the manual only compares and counts them.
-/
namespace Sys2Proof

/-- One byte. -/
abbrev Byte := BitVec 8

/-- A 16-bit word. -/
abbrev W16 := BitVec 16

/-- A 32-bit word: a status register, a completion word, an FP32 value. -/
abbrev W32 := BitVec 32

/-- A 64-bit word: a descriptor word, a host address. -/
abbrev W64 := BitVec 64

/-- A symbol code of the 8,512-symbol alphabet (07 R245): a 16-bit code. -/
abbrev Sym := Nat

/-- A time in ticks of 10 ns (00 R15). -/
abbrev Tick := Nat

end Sys2Proof
end

