-- ==== Sys2Proof/Syntax.lean ====
section
/-!
DEFINITION. Sys2Proof/Syntax.lean: the commands of the block, one constructor per row of spec/opcode_table.json, with the row's operands.
An operand is what the sender of the command supplies: a ring, a register offset, fetched bytes, a measured value or an outcome of the
analogue or external world; everything else comes from the state.
-/
namespace Sys2Proof

/-- An error in the exact datapath of a cell: what it adds to one block value, as diff · 2^exp, at a position of the tile and an output column
(03 R112). -/
structure BlockError where
  cell : Nat
  pos : Nat
  lane : Nat
  diff : Int
  exp : Int
deriving DecidableEq, Repr

/-- What the parameter page of one NAND channel of a coffer tells: dies, data and spare bytes of a page, pages of a block, blocks of a die, and the program time of
a pseudo-SLC page in microseconds, none where there is no such mode (09 R352). -/
structure ChannelGeom where
  dies : Nat
  pageBytes : Nat
  spareBytes : Nat
  pages : Nat
  blocks : Nat
  slcUs : Option Nat
  /-- blocks that the factory marks bad, as (die, block) -/
  bad : List (Nat × Nat) := []
deriving DecidableEq, Repr

/-- The commands of the block (spec/opcode_table.json). -/
inductive Instr where
  /-- NOP (R581): Command that does nothing and completes ST_OK with zero result words. -/
  | nop (id : Nat)
  /-- FENCE (R576): Command that stops fetching from its submission ring until every earlier command of that ring has completed. -/
  | fence (id : Nat)
  /-- FENCE_DONE (R576): The last earlier command of the ring completes, so FENCE completes and fetching from the ring resumes. -/
  | fenceDone (id : Nat)
  /-- LOAD_PARURE (R150): Tenant-0 command that runs checks 1 to 5 of Table 4-11, reserves T1 space and starts copying a parure image. -/
  | loadParure (id : Nat) (header : List Byte)
  /-- PARURE_COPY_DONE (R150): The image copy of a load ends; checks 6 to 11 run, and the load completes with T_adm or releases everything under R152. -/
  | parureCopyDone (slot : Nat) (image : List Byte)
  /-- UNLOAD_PARURE (R160): Tenant-0 command that frees a parure with no user, or stops a load in progress. -/
  | unloadParure (id : Nat)
  /-- FACET_LOAD (R159): Command that binds an immutable facet image of the tenant to one LOADED parure. -/
  | facetLoad (id : Nat) (image : List Byte)
  /-- FACET_DROP (R323): Command that frees a facet handle unless a live locket still needs its only copy. -/
  | facetDrop (id : Nat)
  /-- SESSION_OPEN (R293): Command that checks Table 8-6 and builds a new OPEN locket, copying the charm's local ring when a charm is named. -/
  | sessionOpen (id : Nat)
  /-- SESSION_CLOSE (R295): Command that ends any open stream or pending join and then frees the whole locket. -/
  | sessionClose (id : Nat)
  /-- INGEST (R289): Command that appends input symbols to a session's thread at acceptance, or holds them as pending input during a step. -/
  | ingest (id : Nat) (data : List Byte)
  /-- GENERATE (R275): Command that opens a stream on an idle session, or updates an open stream at the next boundary under R277. -/
  | generate (id : Nat)
  /-- CANCEL (R274): Command that is ordered against the seals and ends a session's open stream or completes ST_ALREADY_DONE. -/
  | cancel (id : Nat)
  /-- PARK (R298): Command that checks its operands and starts demoting a locket to T2 or T3. -/
  | park (id : Nat)
  /-- REVIVE (R304): Command that pins a parked locket, enters PROMOTING and starts reading its extent back into T1. -/
  | revive (id : Nat)
  /-- CHARM_CREATE (R314): Command that creates an immutable shared prefix from a source session, or adds a name to an existing charm with the same digest. -/
  | charmCreate (id : Nat)
  /-- CHARM_DROP (R317): Command that removes one name of a charm. -/
  | charmDrop (id : Nat)
  /-- BATCH_DEFINE (R389): Tenant-0 command that checks Table 10-6 and defines a batch context on a parure. -/
  | batchDefine (id : Nat)
  /-- BATCH_RELEASE (R390): BATCH_DEFINE with RELEASE, which frees an idle, empty batch context and its spill reservation. -/
  | batchRelease (id : Nat)
  /-- BATCH_JOIN (R392): Command that requests that a session join a batch context at a later boundary. -/
  | batchJoin (id : Nat)
  /-- BATCH_LEAVE (R392): Command that requests a session's leave at the next boundary, or withdraws its pending join. -/
  | batchLeave (id : Nat)
  /-- EPHEMERIS_LOAD (R383): Tenant-0 command that checks a schedule table image and installs it as the shadow table. -/
  | ephemerisLoad (id : Nat) (image : List Byte)
  /-- EPHEMERIS_SWITCH (R385): Tenant-0 command that makes a switch to the shadow table pending at a chosen meridian. -/
  | ephemerisSwitch (id : Nat)
  /-- SEARCH (R460): Command that fixes a horizon, holds a generation, fetches the query block and queues the Sieve walks. -/
  | search (id : Nat) (query : List Byte) (poison : List Nat)
  /-- ITEM_INSERT (R449): Command that commits a new item under the next CSN and appends it to the side list. -/
  | itemInsert (id : Nat) (block : List Byte) (poison : List Nat)
  /-- ITEM_DELETE (R451): Command that marks an item deleted under the next CSN. -/
  | itemDelete (id : Nat)
  /-- COLLECTION_MERGE (R454): Command that makes a merge of a collection pending. -/
  | collectionMerge (id : Nat)
  /-- COLLECTION_CREATE (R444): Command that reserves all pages of a new collection and makes it READY at generation 0. -/
  | collectionCreate (id : Nat)
  /-- COLLECTION_DESTROY (R446): COLLECTION_CREATE with DESTROY, which frees a collection that no SEARCH holds. -/
  | collectionDestroy (id : Nat)
  /-- SELECT (R470): Command that takes staging pages and starts fetching the rows for a top-k selection. -/
  | select (id : Nat)
  /-- SNAPSHOT (R545): Tenant-0 command that completes when the next cut, and with COFFER its coffer copy, completes. -/
  | snapshot (id : Nat)
  /-- RESTORE (R547): Tenant-0 command that checks Table 14-8 and rebuilds selected lockets and their charms from a checkpoint store. -/
  | restore (id : Nat) (params : List Byte) (select resume replay : List Byte) (peer : List (Nat × Nat × List Byte × List Nat))
  /-- MANIFEST_READ (R546): Command that writes unit 0 of a manifest slot to host memory and reports whether it is valid. -/
  | manifestRead (id : Nat)
  /-- QUERY (R585): Command that writes a 256-byte status record of an object to host memory without touching it. -/
  | query (id : Nat)
  /-- ACCOUNT_READ (R414): Command that writes tenant accounting records to host memory, and zeroes them when CLEAR is set. -/
  | accountRead (id : Nat)
  /-- DESCRIPTOR_FETCH (R574): The host interface fetches a descriptor, writes the head shadow and hands the command on for policing. -/
  | descriptorFetch (ring : Nat) (desc : List Byte)
  /-- TOKEN_REFILL (R428): Each tick adds RATE to every policed tenant's bucket level, up to its depth. -/
  | tokenRefill
  /-- SQ_TAIL (R572): Doorbell write that gives a submission ring's new tail. -/
  | sqTail (ring value : Nat)
  /-- CQ_HEAD (R572): Doorbell write that releases consumed slots of a completion ring. -/
  | cqHead (ring value : Nat)
  /-- ACK (R591): 16-byte doorbell write that acknowledges a session's packets and frees their retention. -/
  | ack (ring : Nat) (data : List Byte)
  /-- SLOT_SEL (R573): Write of the session handle that the doorbell page's slot aperture maps. -/
  | slotSel (ring off : Nat) (data : List Byte)
  /-- SLOT_APERTURE_WRITE (R573): Host write through the slot aperture into the draft slot or stop slot of the selected session. -/
  | slotApertureWrite (ring off : Nat) (data : List Byte)
  /-- BAR2_WRITE (R568): Host write to BAR2, performed only inside a control page's draft or stop slot and otherwise discarded. -/
  | bar2Write (addr : Nat) (data : List Byte)
  /-- BAR2_READ (R569): Host read of BAR2, which returns T1 or T2 data, poisoned data for tarnish, or Unsupported Request. -/
  | bar2Read (addr len : Nat)
  /-- BAR4_ACCESS (R615): Host access to a forwarding window, which the head forwards over the Strand to the device at that chain position. -/
  | bar4Access (addr len : Nat) (data : Option (List Byte))
  /-- COMPLETION_POST (R579): A completion is written to its completion ring once room exists and the command's host writes have been issued. -/
  | completionPost (ring : Nat)
  /-- COAL_TIME_EXPIRY (R580): 16 × COAL_TIME ticks pass after the first unsignalled completion, so the vector is signalled. -/
  | coalTimeExpiry (ring : Nat)
  /-- DELIVERY_WRITE (R588): An eligible stream packet is written to its delivery ring, followed by the producer count and the optional vector. -/
  | deliveryWrite
  /-- KEY_INSTALL (R592): Key window operation that installs a 64-byte key into a tenant key slot. -/
  | keyInstall (slot tenant : Nat)
  /-- KEY_SELECT (R592): Key window operation that makes a key slot the tenant's current slot. -/
  | keySelect (slot tenant : Nat)
  /-- KEY_DESELECT (R592): Key window operation that leaves the tenant without a current slot. -/
  | keyDeselect (slot tenant : Nat)
  /-- CUT_KEY (R592): Key window operation that installs the cut key and updates CUT_KEY_FP. -/
  | cutKey (slot tenant : Nat)
  /-- REGISTER_WRITE (R724): Write to a register field that has no row of its own, subject to access codes and range checks. -/
  | registerWrite (fw : Bool) (off : Nat) (data : List Byte)
  /-- PERST_N_ASSERT (R676): PERST_N is asserted or the host link goes down, which starts a WARM reset. -/
  | perstNAssert (down : Bool)
  /-- LINK_TRAINING (R560): PERST_N is deasserted, so the host link trains. -/
  | linkTraining (width speed cxl : Nat) (flit : Bool)
  /-- D3HOT_TO_D0 (R676): The function moves from D3hot to D0, which is a DEVICE reset. -/
  | d3hotToD0
  /-- COLD_RESET (R676): A COLD reset resets all powered logic and returns the device to BOOT. -/
  | coldReset
  /-- WARM_RESET (R676): A WARM reset resets all powered logic except the timebase and returns the device to BOOT. -/
  | warmReset
  /-- DEVICE_RESET (R678): A DEVICE reset stops issue, resets the units and class-V state, restarts the firmware and closes the open streams. -/
  | deviceReset
  /-- CONTEXT_RESET (R680): Lantern entry write that applies a CONTEXT reset to one tenant's commands, streams, lockets and collections. -/
  | contextReset
  /-- RESET_REQ_DEVICE (R656): RESET_REQ 0x5A: a DEVICE reset begins 1,000 ticks after the response. -/
  | resetReqDevice
  /-- RESET_REQ_WARM (R656): RESET_REQ 0xA5: a WARM reset begins 1,000 ticks after the response. -/
  | resetReqWarm
  /-- RESET_REQ_COLD (R656): RESET_REQ 0xC3: a COLD reset begins 1,000 ticks after the response, or in NIGHT, power-up starts. -/
  | resetReqCold
  /-- POWER_ON (R664): The always-on rails rise with REFCLK present, and the power-up sequence of Table 18-3 runs. -/
  | powerOn (head : Bool)
  /-- RAILS_PG_CHECK (R703): At tick 220,000, a low RAILS_PG holds the core domain in reset. -/
  | railsPgCheck (level : Bool)
  /-- RAILS_PG_FALL (R704): RAILS_PG falls while the core domain runs, which forces an immediate COLD reset. -/
  | railsPgFall
  /-- DUSK_ENTRY (R681): After 100,000 idle ticks with no table running, the Orrery and cell clocks are gated. -/
  | duskEntry
  /-- DUSK_EXIT (R681): A ready job, a table switch or a POWER_REQ write ungates the clocks within 5,000 ticks. -/
  | duskExit
  /-- TWILIGHT_ENTRY (R683): POWER_REQ 2 stops fetch and the Ephemeris, ends commands and puts the memories into self-refresh. -/
  | twilightEntry
  /-- TWILIGHT_EXIT (R684): POWER_REQ 0 in TWILIGHT brings the memories out of self-refresh and resumes work. -/
  | twilightExit
  /-- NIGHT_ENTRY (R685): POWER_REQ 3 ends all commands, detaches the coffers and switches off every rail but the always-on rails. -/
  | nightEntry
  /-- NIGHT_EXIT (R682): POWER_REQ 0 in NIGHT restarts power-up from tick 20,000 into BOOT. -/
  | nightExit
  /-- SUPPLY_LOW (R688): VCORE falls below WARN_MV or PWR_WARN_N is asserted, so issue freezes and the tiles in flight are discarded. -/
  | supplyLow (vcore : Nat) (pwrWarn : Bool)
  /-- SUPPLY_RECOVER (R689): The supply recovers within 20,000 ticks, so the discarded tiles are replayed and issue resumes. -/
  | supplyRecover (vcore : Nat)
  /-- CONTROLLED_STOP (R690): The supply is still low after 20,000 ticks, so steps stop, commands are fenced and the coffers write map images. -/
  | controlledStop
  /-- STOP_RECOVERY (R690): VCORE has held at or above WARN_MV for 100,000 ticks after a controlled stop, so a COLD reset follows. -/
  | stopRecovery (vcore : Nat)
  /-- VCORE_RESET_LEVEL (R691): VCORE reaches RESET_MV, which forces an immediate COLD reset. -/
  | vcoreResetLevel (vcore : Nat)
  /-- THERMAL_SAMPLE (R692): Every 1,000 ticks Lantern reads all sensors and updates TEMP_MAX. -/
  | thermalSample (readings : List Int)
  /-- THERMAL_TRIP (R693): Three consecutive readings at TRIP_LIMIT assert THERMTRIP_N, protect the coffers and switch VCORE off. -/
  | thermalTrip
  /-- ANALOG_THERMTRIP (R694): A sensor's 125 °C comparator asserts THERMTRIP_N directly. -/
  | analogThermtrip (sensor : Nat)
  /-- TRIPPED_CLEAR (R693): Writing 0 to TRIPPED after cooling releases THERMTRIP_N. -/
  | trippedClear
  /-- AVS_POLL (R706): Every 1,000 ticks Lantern reads VCORE and its current over AVSBus. -/
  | avsPoll (ok : Bool) (vcore amps : Nat)
  /-- VCORE_SET (R706): Permitted write of the VCORE setpoint, which is sent to the regulator over AVSBus. -/
  | vcoreSet (sent : Bool := true)
  /-- REFCLK_LOSS (R39): No REFCLK edge for 100 ns, so issue stops and the event is logged in the crash log. -/
  | refclkLoss
  /-- REFCLK_RETURN (R39): REFCLK returns after a loss, and a COLD reset is applied with the always-on rails held. -/
  | refclkReturn
  /-- WDT_KICK (R657): Write that restarts the watchdog period. -/
  | wdtKick (fw : Bool)
  /-- WDT_PERIOD (R657): Write of the watchdog period, which also restarts it. -/
  | wdtPeriod
  /-- WDT_EXPIRY (R657): The watchdog period passes without a kick, so WDT_EXPIRIES increases and WDT_ACTION is applied. -/
  | wdtExpiry
  /-- SIDEBAND_FRAME_RECEIVE (R633): Lantern accepts or discards a received sideband frame by address and EtherType and queues its request. -/
  | sidebandFrameReceive (dst src etherType : Nat) (fcsOk : Bool) (pdu : List Byte)
  /-- READ (R638): Almanac READ that returns part of an entry's value, taking or using a per-requester snapshot. -/
  | read
  /-- WRITE (R639): Almanac WRITE of an entry that has no row of its own, replacing the whole value at one tick. -/
  | write
  /-- DESCRIBE (R643): Almanac request that returns the 16-byte description of an entry. -/
  | describe
  /-- DISCOVER (R640): Broadcast or addressed request that returns the device's identity summary. -/
  | discover
  /-- EVENT (R641): Lantern sends an unsolicited EVENT frame to EVENT_DEST when a watched entry changes. -/
  | event
  /-- READ_SNAPSHOT_EXPIRY (R638): A requester's read snapshot is discarded 100,000,000 ticks after it was taken. -/
  | readSnapshotExpiry (index : Nat)
  /-- HOME_F_TIMEOUT (R637): The control complex does not answer a home-F request within 100,000 ticks, so it is answered UNAVAILABLE. -/
  | homeFTimeout
  /-- GO (R659): Write of LAN_MBOX_CTL.GO, which submits the mailbox PDU to Lantern's request order. -/
  | go
  /-- NODE_ID (R654): Write of the PLCA node ID, which takes effect at the next PLCA cycle. -/
  | nodeId
  /-- CONFIG_COMMIT (R651): Writing 0xA5 checks the staged RWL values, commits them, lays out T1 and T2 and locks the configuration. -/
  | configCommit
  /-- CRASH_CLEAR (R515): Writing 0xA5 zeroes CRASH_LOG and keeps CRASH_COUNT. -/
  | crashClear
  /-- RETIRED_CLEAR (R502): Writing 0xA5 clears the retired-cell list, with effect from the next self test. -/
  | retiredClear
  /-- HIST_CLEAR (R436): Writing 1 zeroes every queue histogram entry at one tick. -/
  | histClear
  /-- ACCOUNT_CLEAR (R414): Almanac CLEAR entry that zeroes a tenant's accounting record and sets SINCE. -/
  | accountClear
  /-- REJOIN (R622): Writing 0xA5 over the sideband frees a quarantined device's objects and returns it to ENUM. -/
  | rejoin
  /-- FORM_DOMAIN (R620): Writing 0xA5 on the head in JOINING starts the membership change to epoch 1. -/
  | formDomain
  /-- MEMBER_REQ (R620): Write of a member set, which starts a two-phase membership change with this device as coordinator. -/
  | memberReq
  /-- CHAIN_ONLY (R612): Writing 0 commits the routing table as a whole; writing 1 returns routing to the chain rule. -/
  | chainOnly
  /-- PORT_FENCE (R627): Write that makes Lantern hold a Strand port in electrical idle, or releases it to retrain. -/
  | portFence
  /-- IMAGE_START (R673): IMAGE_CONTROL START clears the staging area and zeroes IMAGE_OFFSET. -/
  | imageStart
  /-- IMAGE_DATA (R673): Write of a 1,024-byte Setting piece into staging at IMAGE_OFFSET. -/
  | imageData
  /-- IMAGE_VERIFY (R669): IMAGE_CONTROL VERIFY starts the checks of Table 18-5 on the staged image. -/
  | imageVerify
  /-- VERIFY_DONE (R669): Verification ends, and IMAGE_OFFSET reports a pass or the failing code. -/
  | verifyDone
  /-- IMAGE_RUN (R671): IMAGE_CONTROL RUN commits the SVN fuses if asked and starts the verified image at ENTRY. -/
  | imageRun
  /-- SETTING_START_DONE (R671): The image's start completes, or fails with a code, and POWER_STATE becomes ACTIVE on success. -/
  | settingStartDone (hbmOk : List Bool) (t2Fail : List (Option Nat)) (sramOk : Bool)
  /-- SETTING_START_TIMEOUT (R669): The start is not complete 60,000,000 ticks after RUN, so it fails with code 0x13. -/
  | settingStartTimeout
  /-- IMAGE_REPLICATE (R675): IMAGE_CONTROL REPLICATE on the head sends its running image to every member in BOOT. -/
  | imageReplicate (booting : Nat)
  /-- IMAGE_TRANSFER_RECEIVE (R675): A member in BOOT receives a replicated image into staging, verifies it and runs it. -/
  | imageTransferReceive (peer num : Nat)
  /-- PORT_TRAINED (R609): A Strand port completes training and exchanges IDENT, and comes up or reports a miswire. -/
  | portTrained (port lanes partner partnerPort : Nat)
  /-- PORT_DOWN (R614): A Strand port leaves UP, so its flits in flight are lost and routes fall back. -/
  | portDown (port : Nat)
  /-- FLIT_RECEIVE (R599): A flit is corrected and CRC-checked, then acknowledged or NAKed, and passed on in sequence. -/
  | flitReceive (port : Nat) (flit : List Byte)
  /-- FLIT_FORWARD (R613): A flit for another position leaves on its routed port once a credit and the egress scheduler allow. -/
  | flitForward (port : Nat)
  /-- TRANSFER_TIMEOUT (R605): A transfer is unfinished 100,000 ticks after its last flit, so it ends with TARGET_FAILED. -/
  | transferTimeout (peer num : Nat)
  /-- XFER_SETUP (R605): Routed message that announces a transfer to the receiver. -/
  | xferSetup
  /-- XFER_DONE (R605): Routed message that reports a transfer's outcome and digest, completing its Courier descriptor. -/
  | xferDone
  /-- FWD_READ (R615): Forwarded host read of this device's BAR0, answered with FWD_CPL. -/
  | fwdRead
  /-- FWD_WRITE (R615): Forwarded host write of this device's BAR0. -/
  | fwdWrite
  /-- FWD_CPL (R615): Completion of a forwarded read, which the head returns to the host. -/
  | fwdCpl
  /-- HOST_READ (R615): A member's host-memory read, issued by the head on its own link. -/
  | hostRead (data : List Byte)
  /-- HOST_WRITE (R615): A member's host-memory write, issued by the head in arrival order. -/
  | hostWrite
  /-- HOST_MSIX (R615): A member's MSI-X message, sent by the head to the host. -/
  | hostMsix
  /-- CHAIN_COUNT (R610): Chain message carrying the device count, recorded and passed on toward the head. -/
  | chainCount
  /-- TAIL_TIMEOUT (R610): Port 1 is not UP 5,000,000 ticks after the position is adopted, so the device is the tail and sends CHAIN_COUNT. -/
  | tailTimeout
  /-- DELAY_MEASURE (R619): At training and every 100,000,000 ticks, a port starts a delay measurement with DELAY_REQ. -/
  | delayMeasure (port stamp : Nat)
  /-- DELAY_REQ (R619): Chain message that a partner stamps and answers with DELAY_RESP. -/
  | delayReq (arrive leave : Nat)
  /-- DELAY_RESP (R619): Chain message whose stamps set the port's measured delay. -/
  | delayResp (arrive : Nat)
  /-- BEACON_SEND (R616): The timing master emits a beacon every 10,000 ticks. -/
  | beaconSend
  /-- BEACON (R617): A received beacon is passed on with its correction updated, and sets the offset and frame number when from TIME_PORT. -/
  | beacon (arrive residence : Nat)
  /-- TIME_PORT_LOST (R618): TIME_PORT brings no beacon for 100,000 ticks, so time is taken from the lowest port that brings beacons. -/
  | timePortLost
  /-- ISOLATION_TIMEOUT (R508): 500,000 ticks pass without a beacon of the current epoch, so the device becomes ISOLATED. -/
  | isolationTimeout
  /-- PREPARE (R622): Membership message that, when it names the device, is acknowledged and makes the device PREPARED. -/
  | prepare
  /-- MEMBER_ACK (R621): Acknowledgement that a coordinator collects; the last one floods COMMIT and adopts the new epoch. -/
  | memberAck
  /-- COMMIT (R622): Membership message that makes a prepared device adopt the new epoch, or quarantines a device left out. -/
  | commit
  /-- ABORT (R622): Membership message that makes a prepared device discard its prepared epoch. -/
  | abort
  /-- STALE (R622): Notice of a newer epoch, which is adopted when prepared and otherwise causes quarantine. -/
  | stale
  /-- MEMBER_ACK_TIMEOUT (R621): The coordinator lacks an ACK after 100,000 ticks, so it floods ABORT and reports FAILED. -/
  | memberAckTimeout
  /-- PREPARE_TIMEOUT (R622): 200,000 ticks pass without COMMIT, so the prepared epoch is discarded. -/
  | prepareTimeout
  /-- ENUM_WORD_RECEIVE (R608): A valid ENUM word on ENUM_IN is counted, and the position is adopted or replaced after two identical words. -/
  | enumWordReceive (word : Nat)
  /-- ENUM_WORD_SEND (R607): A device that has a position sends its ENUM word every 10,000 ticks. -/
  | enumWordSend
  /-- MERIDIAN (R410): A frame begins: the last slot's end is aligned, EPH_FRAME is updated and the new frame starts. -/
  | meridian (newest : Option Nat)
  /-- SWITCH_ATTEMPT (R386): A pending table switch is tried at its meridian or timer under the cover rule, and the outcome is reported. -/
  | switchAttempt (newest : Option Nat)
  /-- SLOT_START (R379): A slot begins: the strobe reaches the issue unit and the control complex, and the spill registers are loaded. -/
  | slotStart
  /-- LEAD_POINT (R398): LEAD ticks before a slot's end, no job starts, the holder is pre-empted and unsealed admitted steps become OVERRUN. -/
  | leadPoint
  /-- JOB_READY (R404): A recompute pass, scoring, SELECT or merge job becomes ready on its server. -/
  | jobReady (cls : Nat) (target : Nat)
  /-- JOB_DISPATCH (R407): A free Orrery takes the next work in the order of Table 10-8, resuming suspended work first. -/
  | jobDispatch
  /-- JOB_END (R406): A job's last tile commits, and its command or pass finishes. -/
  | jobEnd
  /-- URGENT_ALLOWANCE (R402): An urgent job's charge reaches its allowance, so it is pre-empted and continues as non-urgent. -/
  | urgentAllowance
  /-- BUDGET_RETURN (R405): An urgent charge is returned to its server's budget FRAME_TICKS after it ended. -/
  | budgetReturn
  /-- TILE_ISSUE (R86): The issue unit issues the next tile in lockstep, or holds when its window half or gather is not resident. -/
  | tileIssue
  /-- TILE_COMMIT (R110): A tile passes ABFT and the twin, so its accumulator bank and scratch writes take effect. -/
  | tileCommit (sweep lane : Nat) (scratch window : List (Nat × Nat))
  /-- TILE_FAULT (R111): A tile fails ABFT, the twin or the accumulator parity, so it and later tiles are discarded and the repeat test decides what follows. -/
  | tileFault (sweep lane : Nat) (errs : List BlockError) (twins : List (Nat × W32 × W32)) (parity : List Nat)
  /-- MAP_EPOCH_COMMIT (R503): After the fence acknowledgements and the copy and refetch, the new map epoch is committed and broadcast. -/
  | mapEpochCommit (lost : List Nat := [])
  /-- PLANNED_SUBSTITUTION (R501): A cell at its transient limit is substituted at the next tick at which the Orrery holds no job. -/
  | plannedSubstitution
  /-- MESH_MESSAGE_RECEIVE (R504): A cell-originated message is accepted only under the current map epoch and is otherwise discarded. -/
  | meshMessageReceive (cell epoch : Nat)
  /-- WINDOW_FILL_DONE (R93): The rail finishes filling a window half and tags it. -/
  | windowFillDone (half : Nat) (errors : List (Nat × Nat) := [])
  /-- PREEMPT_REQUEST (R102): ORY_PREEMPT.REQ is set, so the issue unit proceeds to the next cheap point to release the Orrery. -/
  | preemptRequest
  /-- SPILL_DONE (R103): The spill completes, and the pre-emptor's first tile may issue once its window half is tagged. -/
  | spillDone
  /-- SPILL_RESTORE_DONE (R104): A resumed job's spill image is restored and the named halves are refetched before its next tile. -/
  | spillRestoreDone
  /-- BIST_START (R114): LPE_CTL.BIST_START starts the self test of all cells. -/
  | bistStart
  /-- BIST_DONE (R114): The self test ends, and the Loupe builds and commits the map at epoch 1 or reports EXHAUSTED. -/
  | bistDone (results : List (Bool × Bool × Bool))
  /-- SPARE_RETEST (R116): At least once a second, each SPARE cell is retested, and one that fails becomes FAILED. -/
  | spareRetest (pass : List Bool)
  /-- PATHS_FIXED (R234): The last logit row arrives, and the sampler walks every member's tree to fix its accepted path. -/
  | pathsFixed
  /-- DRAFT_RUN_DONE (R229): A draft-parure run ends, and the children of the next depth level receive their symbols and masks. -/
  | draftRunDone (context : Nat)
  /-- STEP_SEAL (R273): The stream unit seals all members at one tick, numbering packets and updating threads and state. -/
  | stepSeal
  /-- STEP_BOUNDARY (R202): After the commit copies end, leaves are returned, reserves refilled, joins processed and the next step started. -/
  | stepBoundary
  /-- TLB_INVALIDATE (R181): AST_INV invalidates all TLB entries or the entries of one table id. -/
  | tlbInvalidate (table : Option Nat)
  /-- RECOMPUTE_PASS_DONE (R207): A recompute pass ends, and the next pass is readied or DROPPED is cleared. -/
  | recomputePassDone (handle : Nat)
  /-- STACK_MOVE_DONE (R176): A T1-to-T1 move of a joining session completes, so its old pages are freed and the join can take effect. -/
  | stackMoveDone (handle : Nat)
  /-- REPLICA_PROMOTE_DONE (R318): A charm replica's copy completes, so it becomes PRESENT and the joins waiting on it may proceed. -/
  | replicaPromoteDone (charm stack : Nat)
  /-- REPLICA_EVICT_START (R318): A replica unpinned for T1_TTL seconds starts EVICTING, and its TLB entries are invalidated. -/
  | replicaEvictStart (charm stack : Nat)
  /-- REPLICA_EVICT_COMMIT (R319): The eviction commits within 64 ticks, so the replica becomes ABSENT and its frames are freed. -/
  | replicaEvictCommit (charm stack : Nat)
  /-- TTL_EXPIRY (R302): A locket's idle time reaches its tier's time to live, so it demotes to the next tier or becomes EXPIRED. -/
  | ttlExpiry (handle : Nat)
  /-- DEMOTE_RETRY (R303): A demotion blocked for lack of room is retried every 100,000,000 ticks. -/
  | demoteRetry (handle : Nat)
  /-- DEMOTION_COMMIT (R299): The new extent is sealed, so the directory switches to the lower copy and the upper copy is freed. -/
  | demotionCommit (handle : Nat)
  /-- PROMOTION_COMMIT (R304): The T1 copy is verified, so the locket becomes OPEN and the lower extent is freed. -/
  | promotionCommit (handle : Nat)
  /-- CHARM_TTL_EXPIRY (R317): A charm whose reference count has stayed 0 for TTL seconds loses its names and is freed. -/
  | charmTtlExpiry (charm : Nat)
  /-- COURIER_PACKET_SELECT (R344): At each packet boundary, weighted fair queueing chooses which channel sends the next 4 KiB packet. -/
  | courierPacketSelect (errors : List (Nat × Nat) := [])
  /-- COURIER_COMPLETE (R350): A Courier descriptor ends and writes its completion record. -/
  | courierComplete (cookie status : Nat)
  /-- COURIER_ABANDON (R349): The control complex abandons an ABANDONABLE descriptor, which stops at the next packet boundary and is undone. -/
  | courierAbandon (cookie : Nat)
  /-- INSTACK_COPY_DONE (R331): The base-die copy engine completes a frame-to-spare-slot copy, so the frame's PIN is cleared. -/
  | instackCopyDone (stack : Nat)
  /-- HBM_SCRUB (R330): The HBC patrol reads, corrects and writes back the lines of its usable region. -/
  | hbmScrub (stack first : Nat) (errors : List (Nat × Nat))
  /-- BAY_POWER_ON (R371): COFn_PRSNT_N has been asserted for 100 ms, so Lantern powers the bay. -/
  | bayPowerOn (bay : Nat) (ident : List Byte) (extents : List (Nat × List Byte × List Nat))
  /-- BAY_IDENT (R371): 50 ms after power-on, Lantern reads the identity memory, then rejects the coffer or starts training it. -/
  | bayIdent (bay : Nat) (trained : Bool) (channels : List ChannelGeom := [])
  /-- MOUNT_DONE (R360): Journal replay and row closing complete, so the bay is MOUNTED or READ_ONLY. -/
  | mountDone (bay : Nat)
  /-- COFFER_REMOVAL (R374): COFn_PRSNT_N is released without a cooperative detach, so transfers fail and lockets and masters are handled. -/
  | cofferRemoval (bay : Nat)
  /-- COOPERATIVE_DETACH (R372): A detach request from the entry, CFC_CTL or COFn_ATTN_N starts the orderly detach of a bay. -/
  | cooperativeDetach (bay : Nat) (source : Nat)
  /-- DETACH_RETRY (R372): A blocked charm promotion in a detach is retried every 100,000,000 ticks. -/
  | detachRetry (bay : Nat)
  /-- DETACH_DONE (R372): The detach steps end, so the counters are written, DIRTY is cleared and power is released. -/
  | detachDone (bay : Nat)
  /-- FORCED_DETACH (R373): DETACH 0xA5 makes Lantern write-protect the coffer, wait for hold-up and release power. -/
  | forcedDetach
  /-- EXTENT_SEAL (R357): The coffer acknowledges the issue of the last units and the SEAL record, so the T3 extent is sealed. -/
  | extentSeal (bay ext : Nat)
  /-- PROGRAM_FAIL (R358): A NAND program fails, so its row is rewritten from the write buffer and the block becomes bad. -/
  | programFail (bay channel die block : Nat)
  /-- BLOCK_ERASE_DONE (R368): A block erase ends, and the erase counts and LIFE are recomputed. -/
  | blockEraseDone (bay : Nat) (ok : Bool)
  /-- GARBAGE_COLLECTION (R362): Below 8 free superblocks, the valid units of the emptiest superblock are relocated and it is erased. -/
  | garbageCollection (bay : Nat)
  /-- WEAR_LEVEL (R363): An erase-count spread above RATED_PE/20 relocates the lowest-count closed superblock. -/
  | wearLevel (bay : Nat)
  /-- PATROL_READ (R364): The patrol reads a page of each closed superblock and marks superblocks for refresh. -/
  | patrolRead (bay sb symbols : Nat) (page : Nat := 0) (rebuilt : Bool := true)
  /-- JOURNAL_CHECKPOINT (R359): After 65,536 journal records, the CFC writes a map image into the journal ring. -/
  | journalCheckpoint (bay : Nat)
  /-- COFFER_COUNTER_WRITE (R368): At least every 600 s, firmware writes the coffer counters and LIFE through Lantern. -/
  | cofferCounterWrite (bay : Nat)
  /-- WALK_START (R462): A queued SEARCH walk takes a free Sieve unit. -/
  | walkStart (unit : Nat)
  /-- WALK_DONE (R461): A Sieve walk returns its survivors; the last walk readies scoring or the HAMMING merge. -/
  | walkDone (unit : Nat)
  /-- MERGE_START (R454): A pending merge starts once the collection is READY and no older generation is held, fixing M. -/
  | mergeStart (coll : Nat)
  /-- MERGE_PUBLISH (R455): The last merge step ends, so the new generation becomes current and COLLECTION_MERGE completes. -/
  | mergePublish (coll : Nat)
  /-- SELECT_FETCH_DONE (R470): The rows of a SELECT are in staging, so its job becomes ready. -/
  | selectFetchDone (id : Nat) (data : List Byte) (poison : List Nat)
  /-- DRAIN_START (R529): A cut's pieces, shard records, index units and manifest begin to be sent to the buddy on reserved channels. -/
  | drainStart
  /-- CUT_COMPLETE (R533): The manifest seals on the buddy, so LAST_CUT is updated and the old manifest in the slot is freed. -/
  | cutComplete (copied : Bool)
  /-- CUT_ABANDON (R534): A drain failure, a buddy change, a refused copy or a reset abandons a cut and restores the dirty state. -/
  | cutAbandon (reason : Nat)
  /-- QUEUE_SAMPLE (R435): Every 1,000 ticks the sampler samples every queue into the histograms and the watch ring. -/
  | queueSample
  /-- KV_GATHER_DONE (R191): The KV entries that the Astrolabe gathered for an ATTN sweep become resident in scratch, so the held ATTN tile may issue. -/
  | kvGatherDone (sweep : Nat)
  /-- PROGRAM_STATUS_PASS (R358): An issued NAND program's status passes, so its data leaves the bay's 64 MiB write buffer and the waits for all programs to pass can end. -/
  | programStatusPass (bay : Nat)
  /-- TRANSMIT_OPPORTUNITY (R632): The device's own PLCA transmit opportunity opens on the sideband, and Lantern sends its next queued response or EVENT frame. -/
  | transmitOpportunity (collision : Bool)
  /-- ALWAYS_ON_RAIL_FAILURE (R705): The always-on rails fail, so all on-die state is lost, RAIL_EN falls through the board pull-down and only coffer contents survive on their hold-up. -/
  | alwaysOnRailFailure
deriving DecidableEq, Repr

end Sys2Proof
end

