-- ==== Sys2Proof/Machine/Bits.lean ====
section
/-!
DEFINITION. Sys2Proof/Machine/Bits.lean: bit fields, little-endian byte lists, and arithmetic on ticks, all mendable.
-/
namespace Sys2Proof.Machine

/-- Bits [hi:lo] of a number (00 R14: bit 0 is the least significant, both ends included). -/
def bits (x hi lo : Nat) : Nat := (x >>> lo) % 2 ^ (hi + 1 - lo)

/-- Bit i of a number. -/
def bitAt (x i : Nat) : Bool := (x >>> i) % 2 == 1

/-- The number 1 for true and 0 for false. -/
def boolNat (b : Bool) : Nat := if b then 1 else 0

/-- The little-endian value of a byte list (00 R13). -/
def leNat : List Byte → Nat
  | [] => 0
  | b :: bs => b.toNat + 256 * leNat bs

/-- The n little-endian bytes of a number (00 R13). -/
def natLe : Nat → Nat → List Byte
  | 0, _ => []
  | n + 1, x => BitVec.ofNat 8 x :: natLe n (x / 256)

/-- The big-endian value of a byte list (hashes and signatures). -/
def beNat (bs : List Byte) : Nat := leNat bs.reverse

/-- The n big-endian bytes of a number. -/
def natBe (n x : Nat) : List Byte := (natLe n x).reverse

/-- The little-endian field of n bytes at an offset; a missing byte reads 0. -/
def fieldAt (bs : List Byte) (off n : Nat) : Nat := leNat ((bs.drop off).take n)

/-- The n bytes at an offset, filled with zero bytes where the list ends. -/
def bytesAt (bs : List Byte) (off n : Nat) : List Byte :=
  let t := (bs.drop off).take n
  t ++ List.replicate (n - t.length) 0#8

/-- True when every byte of a range is 0 (reserved fields, 00 R20). -/
def zeroAt (bs : List Byte) (off n : Nat) : Bool := ((bs.drop off).take n).all (· == 0#8)

/-- A list of zero bytes. -/
def zeros (n : Nat) : List Byte := List.replicate n 0#8

/-- A byte list cut or zero-filled to a length. -/
def padTo (n : Nat) (bs : List Byte) : List Byte := bytesAt bs 0 n

/-- The ceiling of a quotient. -/
def ceilDiv (a b : Nat) : Nat := (a + b - 1) / b

/-- Saturating increment at a maximum. -/
def satInc (x max : Nat) : Nat := if x < max then x + 1 else x

/-- Increment of a w-bit counter that wraps. -/
def wrapInc (w x : Nat) : Nat := (x + 1) % 2 ^ w

/-- The two's-complement reading of a w-bit number. -/
def sNat (w x : Nat) : Int := if 2 ^ (w - 1) ≤ x % 2 ^ w then (x % 2 ^ w : Int) - 2 ^ w else (x % 2 ^ w : Int)

/-- The w-bit two's-complement code of an integer. -/
def sEnc (w : Nat) (x : Int) : Nat := (x % (2 ^ w : Int)).toNat

/-- The number of one bits in the low n bits. -/
def popCount : Nat → Nat → Nat
  | 0, _ => 0
  | n + 1, x => x % 2 + popCount n (x / 2)

/-- The number whose bit i is the i-th Boolean. -/
def maskOf : List Bool → Nat
  | [] => 0
  | b :: bs => boolNat b + 2 * maskOf bs

/-- The Booleans of bits 0 to n − 1. -/
def bitsOf (n x : Nat) : List Bool := (List.range n).map (bitAt x)

/-- A list with entry i replaced by f of it. -/
def modAt {α : Type} (xs : List α) (i : Nat) (f : α → α) : List α := xs.modify i f

/-- A list with entry i replaced. -/
def setAt {α : Type} (xs : List α) (i : Nat) (a : α) : List α := xs.set i a

/-- The entry i of a list, or a default. -/
def getAt {α : Type} (xs : List α) (i : Nat) (d : α) : α := xs.getD i d

/-- The lowest index at which a predicate holds. -/
def firstIdx {α : Type} (p : α → Bool) (xs : List α) : Option Nat := xs.findIdx? p

/-- Inserts into a list sorted by a relation, before the first entry that the new one precedes. -/
def insertBy {α : Type} (le : α → α → Bool) (a : α) : List α → List α
  | [] => [a]
  | b :: bs => if le a b then a :: b :: bs else b :: insertBy le a bs

/-- A list sorted by a relation (stable insertion sort). -/
def sortBy {α : Type} (le : α → α → Bool) : List α → List α
  | [] => []
  | a :: as => insertBy le a (sortBy le as)

/-- Floor square root of a number below 4 ^ n, one result bit per step. -/
def isqrtGo : Nat → Nat → Nat → Nat
  | 0, _, r => r
  | n + 1, x, r =>
    let c := r + 2 ^ n
    isqrtGo n x (if c * c ≤ x then c else r)

/-- Floor square root. -/
def isqrt (x : Nat) : Nat := isqrtGo (x.log2 / 2 + 1) x 0

/-- Floor cube root of a number below 8 ^ n, one result bit per step. -/
def icbrtGo : Nat → Nat → Nat → Nat
  | 0, _, r => r
  | n + 1, x, r =>
    let c := r + 2 ^ n
    icbrtGo n x (if c * c * c ≤ x then c else r)

/-- Floor cube root. -/
def icbrt (x : Nat) : Nat := icbrtGo (x.log2 / 3 + 1) x 0

end Sys2Proof.Machine
end

