-- ==== Sys2Proof/Machine/Tab.lean ====
section
/-!
DEFINITION. Sys2Proof/Machine/Tab.lean: the two sparse containers of the state. A Mem is a list of (address, byte) pairs with
rising addresses and no zero byte (an unlisted byte reads 0, log 5). A Tab is a list of (key, entry) pairs with rising keys.
-/
namespace Sys2Proof.Machine

/-- Sparse byte memory in canonical form: strictly rising addresses, no entry equal to the unlisted value. -/
abbrev Mem := List Host.Cell

/-- What an unlisted address reads as (DESIGN CHOICE, log 5, unsafe): zero. -/
def memDefault : Byte := 0#8

/-- Reads one byte. -/
def Mem.read : Mem → Nat → Byte
  | [], _ => memDefault
  | (k, b) :: m, a => if k = a then b else if a < k then memDefault else Mem.read m a

/-- Writes one byte and keeps the canonical form. -/
def Mem.write : Mem → Nat → Byte → Mem
  | [], a, v => if v = memDefault then [] else [(a, v)]
  | (k, b) :: m, a, v =>
    if a < k then (if v = memDefault then (k, b) :: m else (a, v) :: (k, b) :: m)
    else if a = k then (if v = memDefault then m else (k, v) :: m)
    else (k, b) :: Mem.write m a v

/-- Reads a run of bytes. -/
def Mem.readN (m : Mem) : Nat → Nat → List Byte
  | _, 0 => []
  | a, n + 1 => Mem.read m a :: Mem.readN m (a + 1) n

/-- Writes a run of bytes at rising addresses. -/
def Mem.writeN (m : Mem) : Nat → List Byte → Mem
  | _, [] => m
  | a, b :: bs => Mem.writeN (Mem.write m a b) (a + 1) bs

/-- Drops every listed byte of an address range: the range reads as unlisted. -/
def Mem.clear (m : Mem) (lo hi : Nat) : Mem := m.filter (fun c => c.1 < lo || hi ≤ c.1)

/-- Copies n bytes from one address to another of the same memory. -/
def Mem.copy (m : Mem) (src dst n : Nat) : Mem := Mem.writeN m dst (Mem.readN m src n)

/-- Copies n bytes from an address of one memory to an address of another. -/
def Mem.copyFrom (m src : Mem) (a b n : Nat) : Mem :=
  (src.filter (fun c => a ≤ c.1 && c.1 < a + n)).foldl (fun m c => m.write (b + (c.1 - a)) c.2) (m.clear b (b + n))

/-- The canonical form of a memory above an address bound. -/
def Mem.wfFrom : Nat → Mem → Bool
  | _, [] => true
  | lo, (k, b) :: m => decide (lo ≤ k) && decide (b ≠ memDefault) && Mem.wfFrom (k + 1) m

/-- The canonical form of a memory. -/
def Mem.wf (m : Mem) : Bool := Mem.wfFrom 0 m

/-- Sparse table with rising keys. -/
abbrev Tab (α : Type) := List (Nat × α)

/-- The entry at a key. -/
def Tab.get? {α : Type} : Tab α → Nat → Option α
  | [], _ => none
  | (k, v) :: t, i => if k = i then some v else Tab.get? t i

/-- The entry at a key, or a default. -/
def Tab.getD {α : Type} (t : Tab α) (i : Nat) (d : α) : α := (Tab.get? t i).getD d

/-- Sets the entry at a key. -/
def Tab.set {α : Type} : Tab α → Nat → α → Tab α
  | [], i, v => [(i, v)]
  | (k, w) :: t, i, v =>
    if i < k then (i, v) :: (k, w) :: t else if i = k then (k, v) :: t else (k, w) :: Tab.set t i v

/-- Removes the entry at a key. -/
def Tab.erase {α : Type} (t : Tab α) (i : Nat) : Tab α := t.filter (fun e => e.1 != i)

/-- Changes the entry at a key where there is one. -/
def Tab.upd {α : Type} (t : Tab α) (i : Nat) (f : α → α) : Tab α :=
  t.map (fun e => if e.1 = i then (e.1, f e.2) else e)

/-- True when the key has an entry. -/
def Tab.has {α : Type} (t : Tab α) (i : Nat) : Bool := (Tab.get? t i).isSome

/-- The entries without their keys. -/
def Tab.vals {α : Type} (t : Tab α) : List α := t.map (·.2)

/-- The keys. -/
def Tab.keys {α : Type} (t : Tab α) : List Nat := t.map (·.1)

/-- The least key from a bound up, below a limit of n tries, that has no entry. -/
def Tab.freshFrom {α : Type} (t : Tab α) : Nat → Nat → Option Nat
  | 0, _ => none
  | n + 1, i => if Tab.has t i then Tab.freshFrom t n (i + 1) else some i

/-! ## Marks of codewords -/

/-- Codewords that a run of bytes touches. -/
def wordsOf (a n : Nat) : List Nat := if n = 0 then [] else (List.range ((a + n - 1) / 16 + 1 - a / 16)).map (· + a / 16)

/-- Marks of codewords, in ascending order and without repeats. -/
def addMarks (ts ws : List Nat) : List Nat := ws.foldl (fun t c => if t.contains c then t else insertBy (fun a b => a ≤ b) c t) ts

/-- Marks less those of the codewords that a run covers whole. -/
def dropMarks (ts : List Nat) (a n : Nat) : List Nat := ts.filter (fun c => !(a ≤ 16 * c && 16 * c + 16 ≤ a + n))

end Sys2Proof.Machine
end

