-- ==== Sys2Proof/Machine/Parts.lean ====
section
/-!
DEFINITION. Sys2Proof/Machine/Parts.lean: the parts of the state, one structure per unit of the block, each field with the
width, the register or rule that names it and its reset value; the default value of a field is its reset value.
-/
namespace Sys2Proof.Machine

/-! ## The Orrery, its cells and the Loupe (chapter 03) -/

/-- Issue-unit states of ORY_STATUS.STATE (03 Table 3-10). -/
inductive OryMode where
  | idle | run | windowHold | toCheapPoint | spill | restore | replayWait | halted | fault
deriving DecidableEq, Repr

/-- Cell states (03 R113, Table 3-6). -/
inductive CellState where
  | active | spare | suspect | retired | failed
deriving DecidableEq, Repr

/-- Loupe states (03 Table 3-20). -/
inductive LpeMode where
  | idle | bist | ready | substituting | exhausted
deriving DecidableEq, Repr

/-- The three kinds of tile the issue unit issues: a k-chunk, a piece of a combine level, an epilogue (03 R86, R89). -/
inductive TileKind where
  | compute (kc : Nat) | combine (level piece : Nat) | epilogue
deriving DecidableEq, Repr

/-- One tile in flight: its sweep, position chunk, owned-chunk index, kind and compute ordinal (03 R86). -/
structure TileRef where
  sweep : Nat
  mc : Nat
  jj : Nat
  kind : TileKind
  ord : Nat
deriving DecidableEq, Repr

/-- The tag of a window half: layer group and fill sequence number (03 R92). -/
structure HalfTag where
  group : Nat
  seq : Nat
deriving DecidableEq, Repr

/-- Where a program stands: the step program of one job on the issue unit (03 R86, R102). -/
structure Progress where
  /-- load slot of the parure whose program runs -/
  slot : Nat := 0
  /-- program kind: 1 STEP, 2 DRAFT, 3 RECOMPUTE (04 Table 4-4); 4 a built-in scoring, SELECT or merge sweep -/
  kind : Nat := 1
  /-- next tile to issue -/
  next : TileRef := { sweep := 0, mc := 0, jj := 0, kind := .compute 0, ord := 0 }
  /-- every tile of the program has been issued -/
  issuedAll : Bool := false
  /-- tiles issued and not yet committed, oldest first -/
  inFlight : List TileRef := []
  /-- tiles discarded by a fault or a supply event, to be replayed, oldest first -/
  discarded : List TileRef := []
  /-- halves filled since step start (03 R92) -/
  fillSeq : Nat := 0
  /-- last committed compute tile as (sweep, ordinal); none at program start -/
  lastDone : Option (Nat × Nat) := none
  /-- sweeps whose KV gather is resident (05 R191) -/
  gathered : List Nat := []
  /-- refetches still owed after a resume or substitution: halves A (0) and B (1) (03 R96) -/
  refetch : List Nat := []
deriving DecidableEq, Repr

/-- State of the issue unit and its registers (03 Tables 3-7 to 3-15). -/
structure Ory where
  /-- [1] ORY_CTL.HALT; 03 Table 3-9; reset 1, V -/
  halt : Bool := true
  /-- [1] ORY_CTL.ABFT_EN; 03 Table 3-9; reset 1, D; locked at configuration commit -/
  abftEn : Bool := true
  /-- [1] ORY_CTL.ENABLE; 03 Table 3-9; reset 0, V -/
  enable : Bool := false
  /-- [4] ORY_STATUS.CTX; 03 Table 3-10; reset 0, V -/
  ctx : Nat := 0
  /-- [15] ORY_STATUS.SWEEP; 03 Table 3-10; reset 0, V -/
  sweep : Nat := 0
  /-- [1] ORY_STATUS.CHECK_OFF; 03 Table 3-10; reset 0, D -/
  checkOff : Bool := false
  /-- [4] ORY_STATUS.STATE; 03 Table 3-10; reset 0x0 IDLE, V -/
  mode : OryMode := .idle
  /-- [32] ORY_TILE.ORDINAL; 03 Table 3-11; reset 0, V -/
  tile : Nat := 0
  /-- [39] ORY_SPILL_BASE_HI and _LO, a multiple of 4096; 03 Table 3-12; reset 0, V -/
  spillBase : Nat := 0
  /-- [20] ORY_SPILL_LIMIT.LIMIT in 4 KiB units; 03 Table 3-12; reset 0, V -/
  spillLimit : Nat := 0
  /-- [1] ORY_PREEMPT.REQ pending request; 03 Table 3-13, R102; reset 0, V -/
  preempt : Bool := false
  /-- [64] ORY_WAIT; 03 Table 3-14; reset 0, V -/
  wait : Nat := 0
  /-- [32] ORY_WAIT_HI latch taken when LO is read; 03 Table 3-14; reset 0, V -/
  waitLatch : Nat := 0
  /-- [8] ORY_FAULT.CELL; 03 Table 3-15; reset 0xFF, V -/
  faultCell : Nat := 0xFF
  /-- [16] ORY_FAULT.EPOCH; 03 Table 3-15; reset 0, V -/
  faultEpoch : Nat := 0
  /-- [1] ORY_FAULT.TWIN; 03 Table 3-15; reset 0, V -/
  faultTwin : Bool := false
  /-- [1] ORY_FAULT.COL; 03 Table 3-15; reset 0, V -/
  faultCol : Bool := false
  /-- [1] ORY_FAULT.ROW; 03 Table 3-15; reset 0, V -/
  faultRow : Bool := false
  /-- [1] ORY_FAULT.SPILL_OVER; 03 Table 3-15, R105; reset 0, V -/
  spillOver : Bool := false
  /-- window half A tag; 03 R92; reset: no half filled (DEDUCED: R92 counts halves since step start) -/
  halfA : Option HalfTag := none
  /-- window half B tag; 03 R92; reset: no half filled (DEDUCED: R92 counts halves since step start) -/
  halfB : Option HalfTag := none
  /-- window slice bytes of the logical cells, key cell · 1 MiB + half · 512 KiB + offset; lane i of a rail delivers to logical row i, whose physical
  cell the map names; 03 Table 3-1, 01 R26; reset: DESIGN CHOICE zero, log 5 -/
  window : Mem := []
  /-- tarnished codewords of the window slices, by key / 16; 13 Table 13-2; reset: none -/
  winTarn : List Nat := []
  /-- progress of the program on the issue unit; 03 R86; reset: none -/
  prog : Option Progress := none
  /-- the program, as load slot and kind, whose window halves the rails fill while the program before it spills; 03 R103; reset: none -/
  prefill : Option (Nat × Nat) := none
  /-- current accumulator bank, key ((cell · 4096 + position) · 128 + column); 03 R110, R53; reset: every accumulator +0 -/
  acc : Tab W32 := []
  /-- T0 scratch bytes, key cell · 2 MiB + offset; 03 R78, Table 3-1; reset: DESIGN CHOICE zero, log 5 -/
  scratch : Mem := []
  /-- tarnished codewords of the scratch, by key / 16; 13 Table 13-2; reset: none -/
  scrTarn : List Nat := []
  /-- partial sums that the combine lane works on, by chunk, each keyed like acc; 03 R84, R86; reset: none -/
  sums : Tab (Tab W32) := []
  /-- tainted positions of the chunks in progress, as position-list indices, by chunk; 13 R490; reset: none -/
  taint : Tab (List Nat) := []
  /-- sorted list that the last SELECT sweep gave each position: index and value; 03 Table 3-4, 02 R63; reset: none -/
  selected : Tab (List (Nat × W32)) := []
  /-- the tile whose checks failed and whose replay has not committed yet; 03 R111; reset: none -/
  failing : Option TileRef := none
  /-- the compute lane holds for a window half or a gather; 03 R95, 05 R191; reset 0, V -/
  hold : Bool := false
deriving DecidableEq, Repr

/-- One physical cell and its CEL_ registers (03 Tables 3-16 to 3-18). -/
structure Cell where
  /-- [3] CEL_MAP.STATE; 03 Table 3-17; reset —, D: DESIGN CHOICE SPARE, log 6 -/
  state : CellState := .spare
  /-- [16] CEL_MAP.EPOCH; 03 Table 3-17; reset —, D: DESIGN CHOICE 0, log 6 -/
  epoch : Nat := 0
  /-- [4] CEL_MAP.ROW; 03 Table 3-17; reset —, D: DESIGN CHOICE 0, log 6 -/
  row : Nat := 0
  /-- [1] CEL_BIST.SRAM; 03 Table 3-18; reset —, D: DESIGN CHOICE 0, log 6 -/
  bistSram : Bool := false
  /-- [1] CEL_BIST.LATTICE; 03 Table 3-18; reset —, D: DESIGN CHOICE 0, log 6 -/
  bistLattice : Bool := false
  /-- [1] CEL_BIST.TWIN; 03 Table 3-18; reset —, D: DESIGN CHOICE 0, log 6 -/
  bistTwin : Bool := false
  /-- [1] CEL_BIST.DONE; 03 Table 3-18; reset 0, D -/
  bistDone : Bool := false
  /-- [16] CEL_ABFT.TWIN_CNT, saturating; 03 Table 3-18; reset 0, D -/
  twinCnt : Nat := 0
  /-- [16] CEL_ABFT.ABFT_CNT, saturating; 03 Table 3-18; reset 0, D -/
  abftCnt : Nat := 0
  /-- [1] CEL_POWER.GATED; 03 Table 3-18; reset 0, D -/
  gated : Bool := false
  /-- ticks of the cell's recent transient faults; 13 R500; reset: none -/
  transients : List Tick := []
deriving DecidableEq, Repr

/-- The Loupe and its LPE_ registers (03 Tables 3-19, 3-20). -/
structure Lpe where
  /-- [1] LPE_CTL.PATROL_EN; 03 Table 3-20; reset 1, D; locked at configuration commit -/
  patrolEn : Bool := true
  /-- [4] LPE_STATUS.LAST_COL; 03 Table 3-20; reset 0, D -/
  lastCol : Nat := 0
  /-- [4] LPE_STATUS.STATE; 03 Table 3-20; reset 0x0 IDLE, D -/
  mode : LpeMode := .idle
  /-- [16] LPE_EPOCH.EPOCH; 03 Table 3-20, R117; reset 0, D -/
  epoch : Nat := 0
  /-- [144] retired-cell list as the Loupe holds it from board identity memory; 03 R122, 13 R502; reset: from board identity memory, N -/
  retired : Nat := 0
  /-- [8 each] LPE_MAP0–127: physical cell of logical cell L; 03 Table 3-20; reset —, D: DESIGN CHOICE 0, log 6 -/
  map : List Nat := List.replicate 128 0
  /-- tick of the last spare retest; 03 R116; reset 0 -/
  lastPatrol : Tick := 0
  /-- tick the self test was started; 03 R114; reset 0 -/
  bistSince : Tick := 0
deriving DecidableEq, Repr

/-! ## Parures (chapter 04) -/

/-- Load-slot states (04 R154, Table 4-12). -/
inductive ParureState where
  | loading | loaded
deriving DecidableEq, Repr

/-- One load slot that is not FREE (04 R154). The control sections in T1 are held as the image itself. -/
structure Parure where
  /-- [64] parure handle; 04 Table 4-11 -/
  handle : Nat := 0
  /-- LOADING or LOADED; 04 Table 4-12 -/
  state : ParureState := .loading
  /-- the command that loads it; 04 R150 -/
  cmd : Nat := 0
  /-- [8] WIDTH_CAP of the load; 04 R149 -/
  widthCap : Nat := 1
  /-- [8] CONTEXTS of the load; 04 R149 -/
  contexts : Nat := 1
  /-- image length in bytes; 04 R150 -/
  length : Nat := 0
  /-- header bytes read at check 4; 04 R125 -/
  header : List Byte := []
  /-- verified image bytes; 04 Image layout; empty while LOADING -/
  image : List Byte := []
  /-- [256] parure hash; 04 R127 -/
  hash : Nat := 0
  /-- [32] admitted step time; 04 R157 -/
  tAdm : Nat := 0
  /-- weight base in each stack; 04 R134 -/
  weightBase : List Nat := []
  /-- first T1 address of the control and spill space reserved at check 5; 04 Table 4-11 -/
  controlBase : Nat := 0
  /-- bytes of that space -/
  controlLen : Nat := 0
  /-- peer chain position the load copies from; 04 R153; none for host memory -/
  peer : Option Nat := none
  /-- [64] the peer's parure handle; 04 R153; 15 Table 15-8 -/
  peerHandle : Nat := 0
  /-- [16] membership epoch expected of the peer; 04 R153 -/
  peerEpoch : Nat := 0
  /-- [64] host address of SOURCE; 04 R150 -/
  source : Nat := 0
  /-- the header of a peer's parure is still to come; 04 R153 -/
  headerDue : Bool := false
  /-- bytes that a peer's transfer brought; 04 R153 -/
  received : List Byte := []
deriving DecidableEq, Repr

/-! ## The attention cache and the Astrolabe (chapter 05) -/

/-- Conditions of a KV pool frame that is not free (05 R200). -/
inductive FrameUse where
  | reserve (id : Nat) | step (id : Nat) | inUse (id : Nat) | replica (id : Nat) | cut (cutId : Nat) | collection (id : Nat)
  | staging (cmd : Nat)
deriving DecidableEq, Repr

/-- Page states of a PTE (05 Table 5-4). -/
inductive PteState where
  | absent | present | dropped
deriving DecidableEq, Repr

/-- One page-table entry (05 R178). -/
structure Pte where
  /-- [2] STATE; 05 Table 5-4 -/
  state : PteState := .absent
  /-- [1] PIN; 05 Table 5-4 -/
  pin : Bool := false
  /-- [3] STACK; 05 Table 5-4 -/
  stack : Nat := 0
  /-- [20] FRAME; 05 Table 5-4 -/
  frame : Nat := 0
deriving DecidableEq, Repr

/-- A TLB entry: tag and the cached PTE (05 R179); lists keep most recently used first. -/
structure TlbEntry where
  /-- [27] table id -/
  id : Nat
  /-- [18] virtual page number -/
  vpn : Nat
  /-- cached PTE -/
  pte : Pte
deriving DecidableEq, Repr

/-- The Astrolabe, its pools and its AST_ registers (05 Tables 5-11, 5-12). -/
structure Ast where
  /-- [1] AST_CTL.DROP_EN; 05 Table 5-12; reset 1, D; locked at configuration commit -/
  dropEn : Bool := true
  /-- [1] AST_CTL.ENABLE; 05 Table 5-12; reset 0, V -/
  enable : Bool := false
  /-- [16] AST_STATUS.WALKS; 05 Table 5-12; reset 0, V -/
  walks : Nat := 0
  /-- [1] AST_EVENT.HELD; 05 Table 5-12; reset 0, V -/
  evHeld : Bool := false
  /-- [1] AST_EVENT.LOWATER; 05 Table 5-12; reset 0, V -/
  evLowater : Bool := false
  /-- [1] AST_EVENT.WALK_TARNISH; 05 Table 5-12; reset 0, V -/
  evWalkTarnish : Bool := false
  /-- [1] AST_EVENT.TABLE_FAULT; 05 Table 5-12; reset 0, V -/
  evTableFault : Bool := false
  /-- [20 each] AST_POOL0–7.PAGES; 05 Table 5-12; reset 0, D; locked at configuration commit -/
  pool : List Nat := List.replicate 8 0
  /-- conditions of the frames that are not free, key stack · 2^20 + frame; 05 R200; reset: every frame free -/
  frames : Tab FrameUse := []
  /-- [24] AST_LOWATER.PAGES; 05 Table 5-12; reset 0, D -/
  lowater : Nat := 0
  /-- free and droppable pages stand below AST_LOWATER; 05 R209; reset: no -/
  low : Bool := false
  /-- TLB: 512 sets, at most 8 ways each, most recently used first; 05 R179; reset: empty -/
  tlb : Tab (List TlbEntry) := []
  /-- [64] AST_TLB_HIT; 05 Table 5-12; reset 0, V -/
  tlbHit : Nat := 0
  /-- [32] AST_TLB_HIT_HI latch; 05 Table 5-12; reset 0, V -/
  tlbHitLatch : Nat := 0
  /-- [64] AST_TLB_MISS; 05 Table 5-12; reset 0, V -/
  tlbMiss : Nat := 0
  /-- [32] AST_TLB_MISS_HI latch; 05 Table 5-12; reset 0, V -/
  tlbMissLatch : Nat := 0
  /-- [32] AST_DROPS; 05 Table 5-12; reset 0, D; wraps -/
  drops : Nat := 0
  /-- [32] AST_REDIRECTS; 05 Table 5-12; reset 0, D; wraps -/
  redirects : Nat := 0
  /-- sessions being moved between stacks, with their new home: 05 R176; reset: none -/
  moves : Tab Nat := []
deriving DecidableEq, Repr

/-! ## Sampler, Filigree and stream unit (chapters 06 and 07) -/

/-- Sampler state of a session (06 R216, Table 6-3). -/
structure SamplerState where
  /-- [64] STEP_INDEX; 06 Table 6-3, 02 R74; after SESSION_OPEN 0 -/
  stepIndex : Nat := 0
  /-- [16] ACC_AVG; 06 Table 6-3; after SESSION_OPEN 0x0200 -/
  accAvg : Nat := 0x200
  /-- [8] W_MIN; 06 Table 6-3; after SESSION_OPEN 2 -/
  wMin : Nat := 2
  /-- [8] W_MAX; 06 Table 6-3; after SESSION_OPEN min(8, WIDTH_CAP) -/
  wMax : Nat := 8
  /-- [8] DRAFT_SRC; 06 Table 6-3; after SESSION_OPEN 3 -/
  draftSrc : Nat := 3
  /-- [8] DRAFT_MODE; 06 Table 6-3; after SESSION_OPEN 0 -/
  draftMode : Nat := 0
  /-- [16] TOP_K; 06 Table 6-3; after SESSION_OPEN 0 -/
  topK : Nat := 0
  /-- [32] TEMP; 06 Table 6-3; after SESSION_OPEN 1.0 -/
  temp : W32 := 0x3F800000#32
  /-- [32] TOP_P; 06 Table 6-3; after SESSION_OPEN 1.0 -/
  topP : W32 := 0x3F800000#32
  /-- [64] LOOKAHEAD; 06 Table 6-3; after SESSION_OPEN 0 -/
  lookahead : Nat := 0
  /-- [64] DRAFTED; 06 Table 6-3; after SESSION_OPEN 0 -/
  drafted : Nat := 0
  /-- [64] ACCEPTED; 06 Table 6-3; after SESSION_OPEN 0 -/
  accepted : Nat := 0
  /-- [64] GEN_STEPS; 06 Table 6-3; after SESSION_OPEN 0 -/
  genSteps : Nat := 0
deriving DecidableEq, Repr

/-- Stream state of a session (07 R265, Table 7-10). -/
structure StreamState where
  /-- [64] NEXT_SEQ; 07 Table 7-10; after SESSION_OPEN 0 -/
  nextSeq : Nat := 0
  /-- [32] GEN_TAG; 07 Table 7-10; after SESSION_OPEN 0 -/
  genTag : Nat := 0
  /-- [32] EMITTED: length of E; 07 Table 7-10; after SESSION_OPEN 0 -/
  emitted : Nat := 0
  /-- [32] DELIVERED; 07 Table 7-10; after SESSION_OPEN 0 -/
  delivered : Nat := 0
  /-- [32] MAX_SYMBOLS; 07 Table 7-10; after SESSION_OPEN 0 -/
  maxSymbols : Nat := 0
  /-- [16] GRAMMAR; 07 Table 7-10; after SESSION_OPEN 0xFFFF -/
  grammar : Nat := 0xFFFF
  /-- [16] GSTATE; 07 Table 7-10; after SESSION_OPEN 0 -/
  gstate : Nat := 0
  /-- HOLD: the held symbols, oldest first; HELD is their number; 07 Table 7-10; after SESSION_OPEN none -/
  hold : List Sym := []
  /-- [1] GENERATING; 07 Table 7-10; after SESSION_OPEN 0 -/
  generating : Bool := false
  /-- [1] INCLUDE_STOP; 07 Table 7-10; after SESSION_OPEN 0 -/
  includeStop : Bool := false
  /-- [1] UTF8_HOLD; 07 Table 7-10; after SESSION_OPEN 1 (FLAGS 0x04) -/
  utf8Hold : Bool := true
  /-- [8] STOP_COUNT; 07 Table 7-10; after SESSION_OPEN 0 -/
  stopCount : Nat := 0
  /-- [8] LAST_STATUS; 07 Table 7-10; after SESSION_OPEN 0 -/
  lastStatus : Nat := 0
  /-- STOPS: the stop slot's copy, 256 bytes; 07 Table 7-10; after SESSION_OPEN zero -/
  stops : List Byte := List.replicate 256 0#8
deriving DecidableEq, Repr

/-- A GENERATE waiting on an open stream for the next step boundary (07 R277): its command and operand bytes. -/
structure GenUpdate where
  cmd : Nat
  desc : List Byte
deriving DecidableEq, Repr

/-- A stream packet (07 R267): its sequence number, its 64-byte header and its payload. -/
structure Packet where
  session : Nat
  tenant : Nat
  seq : Nat
  bytes : List Byte
  /-- written to the delivery ring -/
  written : Bool := false
  /-- tick at which it was handed to the host interface -/
  since : Tick := 0
deriving DecidableEq, Repr

/-- SMP_ registers (06 Tables 6-8, 6-9). -/
structure Smp where
  /-- [1] SMP_CTL.LOOKAHEAD_EN; 06 Table 6-9; reset 1, D -/
  lookaheadEn : Bool := true
  /-- [1] SMP_CTL.HOST_DRAFT_EN; 06 Table 6-9; reset 1, D -/
  hostDraftEn : Bool := true
  /-- [1] SMP_CTL.ENABLE; 06 Table 6-9; reset 0, V -/
  enable : Bool := false
  /-- [4] SMP_STATUS.CTX; 06 Table 6-9; reset 0, V -/
  ctx : Nat := 0
  /-- [8] SMP_STATUS.MEMBER; 06 Table 6-9; reset 0, V -/
  member : Nat := 0
  /-- [1] SMP_EVENT.NO_DRAFT_PARURE; 06 Table 6-9; reset 0, V -/
  evNoDraft : Bool := false
  /-- [1] SMP_EVENT.HOST_IGNORED; 06 Table 6-9; reset 0, V -/
  evHostIgnored : Bool := false
  /-- [1] SMP_EVENT.DEGENERATE; 06 Table 6-9; reset 0, V -/
  evDegenerate : Bool := false
  /-- [1] SMP_EVENT.ROW_TARNISH; 06 Table 6-9; reset 0, V -/
  evRowTarnish : Bool := false
  /-- [64] SMP_ROWS; 06 Table 6-9; reset 0, V -/
  rows : Nat := 0
  /-- [32] SMP_ROWS_HI latch; 06 Table 6-9; reset 0, V -/
  rowsLatch : Nat := 0
  /-- [64] SMP_DRAFTED; 06 Table 6-9; reset 0, V -/
  drafted : Nat := 0
  /-- [32] SMP_DRAFTED_HI latch; 06 Table 6-9; reset 0, V -/
  draftedLatch : Nat := 0
  /-- [64] SMP_ACCEPTED; 06 Table 6-9; reset 0, V -/
  accepted : Nat := 0
  /-- [32] SMP_ACCEPTED_HI latch; 06 Table 6-9; reset 0, V -/
  acceptedLatch : Nat := 0
  /-- [32] SMP_ROOT_ONLY; 06 Table 6-9; reset 0, D; wraps -/
  rootOnly : Nat := 0
  /-- [32] SMP_DEGENERATE; 06 Table 6-9; reset 0, D; wraps -/
  degenerate : Nat := 0
  /-- [32] SMP_HOST_IGNORED; 06 Table 6-9; reset 0, D; wraps -/
  hostIgnored : Nat := 0
  /-- [16] SMP_LAST_FIX.TICKS; 06 Table 6-9; reset 0, V -/
  lastFix : Nat := 0
deriving DecidableEq, Repr

/-- FIL_ registers (07 Tables 7-14, 7-15). -/
structure Fil where
  /-- [1] FIL_CTL.ENABLE; 07 Table 7-15; reset 0, V -/
  enable : Bool := false
  /-- [4] FIL_STATUS.CTX; 07 Table 7-15; reset 0, V -/
  ctx : Nat := 0
  /-- [1] FIL_EVENT.MASK_TARNISH; 07 Table 7-15; reset 0, V -/
  evMaskTarnish : Bool := false
  /-- [1] FIL_EVENT.EMPTY; 07 Table 7-15; reset 0, V -/
  evEmpty : Bool := false
  /-- [64] FIL_MASKS; 07 Table 7-15; reset 0, V -/
  masks : Nat := 0
  /-- [32] FIL_MASKS_HI latch; 07 Table 7-15; reset 0, V -/
  masksLatch : Nat := 0
  /-- [32] FIL_EMPTY; 07 Table 7-15; reset 0, D; wraps -/
  empty : Nat := 0
  /-- [32] FIL_DEAD; 07 Table 7-15; reset 0, D; wraps -/
  dead : Nat := 0
deriving DecidableEq, Repr

/-- STM_ registers (07 Tables 7-14, 7-16). -/
structure Stm where
  /-- [1] STM_CTL.ENABLE; 07 Table 7-16; reset 0, V -/
  enable : Bool := false
  /-- [4] STM_STATUS.CTX; 07 Table 7-16; reset 0, V -/
  ctx : Nat := 0
  /-- [1] STM_EVENT.STATE_TARNISH; 07 Table 7-16; reset 0, V -/
  evStateTarnish : Bool := false
  /-- [1] STM_EVENT.LATE; 07 Table 7-16; reset 0, V -/
  evLate : Bool := false
  /-- [1] STM_EVENT.CANCEL_AFTER; 07 Table 7-16; reset 0, V -/
  evCancelAfter : Bool := false
  /-- [1] STM_EVENT.CANCEL_BEFORE; 07 Table 7-16; reset 0, V -/
  evCancelBefore : Bool := false
  /-- [64] STM_PACKETS; 07 Table 7-16; reset 0, V -/
  packets : Nat := 0
  /-- [32] STM_PACKETS_HI latch; 07 Table 7-16; reset 0, V -/
  packetsLatch : Nat := 0
  /-- [32] STM_LATE; 07 Table 7-16; reset 0, D; wraps -/
  late : Nat := 0
  /-- [32] STM_STOPS; 07 Table 7-16; reset 0, D; wraps -/
  stops : Nat := 0
  /-- [32] STM_CANCEL_BEFORE; 07 Table 7-16; reset 0, D; wraps -/
  cancelBefore : Nat := 0
  /-- [32] STM_CANCEL_AFTER; 07 Table 7-16; reset 0, D; wraps -/
  cancelAfter : Nat := 0
  /-- [64] STM_SEAL; 07 Table 7-16; reset 0, V -/
  sealTick : Nat := 0
  /-- [32] STM_SEAL_HI latch; 07 Table 7-16; reset 0, V -/
  sealLatch : Nat := 0
deriving DecidableEq, Repr

/-! ## Lockets, charms and facets (chapter 08) -/

/-- Locket states of Table 8-4; FREE is the absence of a directory entry. -/
inductive LocketState where
  | opened | bound | demoting | parkedT2 | parkedT3 | promoting | expired
deriving DecidableEq, Repr

/-- What a transfer of a locket between tiers holds while it runs (08 R299, R304). -/
structure TierMove where
  /-- tier the locket comes from -/
  src : Nat := 1
  /-- extent being written, or 0 -/
  extent : Nat := 0
  /-- command that waits on it (PARK or REVIVE); none when a time to live started it -/
  cmd : Option Nat := none
  /-- key slot and fingerprint the new extent is written under; none when clear -/
  keySlot : Option Nat := none
  /-- home stack and frames reserved for a promotion -/
  home : Nat := 0
  frames : List Nat := []
  /-- 4 KiB arena address of the control page being built -/
  page : Nat := 0
  /-- extent bytes read so far (promotion) -/
  bytes : List Byte := []
deriving DecidableEq, Repr

/-- One locket: directory entry, control page, thread and page table (08 R285, R286). Every field is D-class (08 R324). -/
structure Locket where
  /-- [64] SESSION; 08 Table 8-1 -/
  session : Nat := 0
  /-- [10] TENANT; 08 Table 8-1 -/
  tenant : Nat := 0
  /-- [4] STATE; 08 Table 8-4 -/
  state : LocketState := .opened
  /-- [1] ENCRYPTED; 08 Table 8-1 -/
  encrypted : Bool := false
  /-- [1] DEMOTE_BLOCKED; 08 Table 8-1 -/
  demoteBlocked : Bool := false
  /-- [1] ADOPTED; 08 Table 8-1 -/
  adopted : Bool := false
  /-- [1] KV_ABSENT; 08 Table 8-1 -/
  kvAbsent : Bool := false
  /-- LOCATION: extent identifier of the lower copy; 08 Table 8-1 -/
  extent : Nat := 0
  /-- T1 address of the control page; 08 Table 8-1 -/
  page : Nat := 0
  /-- [64] LAST_TOUCH; 08 Table 8-1 -/
  lastTouch : Tick := 0
  /-- [32] TTL_T1; 08 Table 8-1 -/
  ttl1 : Nat := 0xFFFFFFFF
  /-- [32] TTL_T2; 08 Table 8-1 -/
  ttl2 : Nat := 0xFFFFFFFF
  /-- [32] TTL_T3; 08 Table 8-1 -/
  ttl3 : Nat := 0xFFFFFFFF
  /-- [8] DST; 08 Table 8-1 -/
  dst : Nat := 0
  /-- [8] BAY; 08 Table 8-1 -/
  bay : Nat := 0xFF
  /-- PINS: the commands that hold a pin; 08 R297 -/
  pins : List Nat := []
  /-- [64] UNITS; 08 Table 8-1 -/
  units : Nat := 0
  /-- transfer in progress while DEMOTING or PROMOTING; 08 R299, R304 -/
  move : Option TierMove := none
  /-- tick of the next retry of a blocked demotion; 08 R303 -/
  retryAt : Tick := 0
  /-- [64] SESSION_KEY; 08 Table 8-3 -/
  key : Nat := 0
  /-- [256] PARURE_HASH; 08 Table 8-3 -/
  parureHash : Nat := 0
  /-- [256] FACET_HASH; 08 Table 8-3 -/
  facetHash : Nat := 0
  /-- [256] CHARM_DIGEST; 08 Table 8-3 -/
  charmDigest : Nat := 0
  /-- thread symbols; THREAD_LEN is its length; 08 R289 -/
  thread : List Sym := []
  /-- T1 address of the thread; 08 Table 8-3 -/
  threadAddr : Nat := 0
  /-- pending input, oldest first, with the command that brought each symbol run; 08 R289 -/
  pending : List Sym := []
  /-- symbol runs appended or pending since the last freeze, as (INGEST command or 0 for a BARGE, symbols), oldest first; 15 R582 -/
  pendingCmds : List (Nat × Nat) := []
  /-- [8] load slot of the parure; 05 Table 5-3 -/
  slot : Nat := 0
  /-- [3] HOME; 05 Table 5-3 -/
  home : Nat := 0
  /-- [1] HELD; 05 Table 5-3 -/
  held : Bool := false
  /-- [1] DROPPED; 05 Table 5-3 -/
  dropped : Bool := false
  /-- [1] RECOMPUTING; 05 Table 5-3 -/
  recomputing : Bool := false
  /-- [8] CONTEXT, 0xFF when not BOUND; 05 Table 5-3 -/
  context : Nat := 0xFF
  /-- [8] member index in the context -/
  member : Nat := 0
  /-- [32] BASE; 05 Table 5-3 -/
  base : Nat := 0
  /-- [32] GBASE; 05 Table 5-3 -/
  gbase : Nat := 0
  /-- [32] CHARM_LEN; 05 Table 5-3 -/
  charmLen : Nat := 0
  /-- [32] CHARM_GLEN; 05 Table 5-3 -/
  charmGlen : Nat := 0
  /-- [27] CHARM_TABLE; 05 Table 5-3 -/
  charmTable : Nat := 0
  /-- page-table entries that are not ABSENT, key VPN; 05 R178 -/
  ptes : Tab Pte := []
  /-- reserve frames; RESERVE is its length; 05 Table 5-3, R201 -/
  reserve : List Nat := []
  /-- step-area frames; AREA is its length; 05 Table 5-3, R201 -/
  area : List Nat := []
  /-- frames reserved for a recompute of the session; 05 R207 -/
  recFrames : List Nat := []
  /-- next position a recompute pass starts at; 05 R207 -/
  recNext : Nat := 0
  /-- symbols of the patch that is open at that position; 04 R140 -/
  recRun : Nat := 0
  /-- patch-closing positions below that position; 05 R188 -/
  recGpos : Nat := 0
  /-- the ring copy that precedes the first pass is still to be submitted; 05 R207 -/
  ringDue : Bool := false
  /-- a join, not a REVIVE, started the recompute; 05 R203, R207 -/
  recJoin : Bool := false
  /-- a pass has ended and is not yet followed up; 05 R207 -/
  passDone : Bool := false
  /-- acceptance of the command that waits for the recompute; 10 Table 10-11 -/
  recSince : Tick := 0
  /-- [64] LAST_SEAL; 05 Table 5-3 -/
  lastSeal : Tick := 0
  /-- position after the last one that closed a patch; none where it must be found from the thread; 04 R140 -/
  lastClose : Option Nat := none
  /-- bytes of the session's arena footprint F; 08 R288 -/
  footprint : Nat := 0
  /-- sampler state; 06 Table 6-3 -/
  smp : SamplerState := {}
  /-- stream state; 07 Table 7-10 -/
  stm : StreamState := {}
  /-- the GENERATE command of the open stream; 07 R275 -/
  genCmd : Option Nat := none
  /-- command step of that GENERATE once it is known; 15 Table 15-11 -/
  genStep : Option Nat := none
  /-- GENERATEs waiting for the next boundary; 07 R277, 06 R218 -/
  genWait : List GenUpdate := []
  /-- host draft slot, 64 bytes; 06 Table 6-5 -/
  draft : List Byte := List.replicate 64 0#8
  /-- stop slot, 256 bytes; 07 Table 7-8 -/
  stopSlot : List Byte := List.replicate 256 0#8
  /-- packets kept until acknowledged, oldest first; 15 R591, 14 R553 -/
  packets : List Packet := []
  /-- [64] first unacknowledged sequence number; 15 R591 -/
  acked : Nat := 0
  /-- SESSION_CLOSE that waits for the session's last packets to be written; 08 R295, 15 R579 -/
  closing : Option Nat := none
  /-- the session was paused for lack of acknowledgements at the last freeze; 15 R590 -/
  paused : Bool := false
  /-- the session ended ST_TARNISHED and is unusable until closed or restored; 13 R492 -/
  unusable : Bool := false
  /-- the session is in REPLAY after a RESTORE; 14 R555 -/
  replay : Bool := false
  /-- last sequence number the host already holds, for resumption; 14 R554 -/
  resumeSeq : Nat := 0
  /-- charm replica promotion or stack move a pending join waits on; 05 R174, R176 -/
  joinWait : Bool := false
  /-- tarnished positions or pages that need a rebuild; 13 R493 -/
  tarnished : Bool := false
  /-- KV units changed since the last capture (VPN · 16 + unit): the dirty map as this locket's pages meet it; 14 R523 -/
  dirty : List Nat := []
  /-- changed since the last cut in its control page or thread; 14 R522 -/
  dirtyControl : Bool := true
  /-- captured length of the thread at the last cut; 14 R524 -/
  captured : Nat := 0
  /-- arrived in T1 since its last capture; 14 R525 -/
  arrived : Bool := true
deriving DecidableEq, Repr

/-- Replica states of Table 8-13. -/
inductive ReplicaState where
  | absent | promoting | present | evicting
deriving DecidableEq, Repr

/-- One replica of a charm in one stack (08 R318). -/
structure Replica where
  state : ReplicaState := .absent
  /-- frames in VPN order -/
  frames : List Nat := []
  /-- pins: locket handles and commands that hold it -/
  pins : List Nat := []
  /-- tick its last pin was released -/
  idleSince : Tick := 0
  /-- tick it entered EVICTING -/
  evictSince : Tick := 0
deriving DecidableEq, Repr

/-- One charm (08 R313 to R318). -/
structure Charm where
  tenant : Nat := 0
  /-- client handles, at most 16; 08 R317 -/
  names : List Nat := []
  digest : Nat := 0
  parureHash : Nat := 0
  facetHash : Nat := 0
  /-- the L symbols -/
  symbols : List Sym := []
  /-- global positions G -/
  glen : Nat := 0
  /-- position after the last one that closed a patch; none where it must be found from the symbols; 04 R140 -/
  lastClose : Option Nat := none
  /-- master tier: 0 none, 2 or 3 -/
  master : Nat := 0
  /-- extent identifier of the master -/
  extent : Nat := 0
  bay : Nat := 0xFF
  ttl : Nat := 0xFFFFFFFF
  t1Ttl : Nat := 0xFFFFFFFF
  /-- tick the reference count last became 0 -/
  zeroSince : Tick := 0
  /-- anchor stack; 08 R315 -/
  anchor : Nat := 0
  /-- arena bytes of the symbols and the index -/
  arena : Nat := 0
  /-- arena address of the symbols -/
  addr : Nat := 0
  /-- one replica per stack -/
  replicas : List Replica := List.replicate 8 {}
  /-- orphaned: its master left with a removed coffer; 09 R374, 13 R495 -/
  orphaned : Bool := false
  /-- CHARM_CREATE command that still waits for the master -/
  cmd : Option Nat := none
deriving DecidableEq, Repr

/-- One facet (04 R159, 08 R320). -/
structure Facet where
  tenant : Nat := 0
  /-- facet handle; 0 once dropped, while a step in progress still reads it; 08 R323 -/
  handle : Nat := 0
  /-- load slot of its parure -/
  slot : Nat := 0
  hash : Nat := 0
  image : List Byte := []
  /-- T1 address of the image; 09 Table 9-1 -/
  addr : Nat := 0
  /-- a tarnished line of it was read; 13 R496, 15 Table 15-10 -/
  failed : Bool := false
deriving DecidableEq, Repr

/-- A tenant's encryption keys (08 R309). -/
structure TenantKeys where
  /-- slot 0 key, 64 bytes, or none -/
  key0 : Option (List Byte) := none
  /-- slot 1 key -/
  key1 : Option (List Byte) := none
  /-- current slot -/
  current : Option Nat := none
deriving DecidableEq, Repr

/-! ## Memory tiers, the Courier and coffers (chapter 09) -/

/-- States of HBC_STATUS and LPC_STATUS (09 Table 9-13). -/
inductive MemMode where
  | reset | training | ready | selfRefresh | failed
deriving DecidableEq, Repr

/-- One in-stack copy request (09 R331): frame number, spare slot and the owner cut, locket and VPN. -/
structure CopyReq where
  frame : Nat
  slot : Nat
  cut : Nat
  owner : Nat
  vpn : Nat
deriving DecidableEq, Repr

/-- One HBM stack controller (09 Table 9-13). -/
structure Hbc where
  /-- [1] HBC_CTL.COPY_EN; 09 Table 9-13; reset 1, D; locked at configuration commit -/
  copyEn : Bool := true
  /-- [1] HBC_CTL.ENABLE; 09 Table 9-13; reset 0, V -/
  enable : Bool := false
  /-- [4] HBC_STATUS.STATE; 09 Table 9-13; reset 0x0 RESET, V -/
  mode : MemMode := .reset
  /-- [1] HBC_EVENT.COPY_REFUSED; 09 Table 9-13; reset 0, V -/
  evCopyRefused : Bool := false
  /-- [1] HBC_EVENT.UNCORR; 09 Table 9-13; reset 0, V -/
  evUncorr : Bool := false
  /-- [1] HBC_EVENT.TRAIN_FAIL; 09 Table 9-13; reset 0, V -/
  evTrainFail : Bool := false
  /-- [32] HBC_CORR; 09 Table 9-13; reset 0, D; wraps -/
  corr : Nat := 0
  /-- [32] HBC_UNCORR; 09 Table 9-13; reset 0, D; wraps -/
  uncorr : Nat := 0
  /-- occupied spare slots with their owner cut; HBC_SPARE_FREE = 65,536 − count; 09 R331; reset 0x1_0000 free, D -/
  spare : Tab Nat := []
  /-- in-stack copy requests queued, oldest first; 09 R331, HBC_COPY_PEND; reset 0, V -/
  copyQ : List CopyReq := []
  /-- tick of the last completed scrub of the usable region; 09 R330; reset 0 -/
  lastScrub : Tick := 0
deriving DecidableEq, Repr

/-- One LPDDR controller (09 Table 9-13). -/
structure Lpc where
  /-- [4] LPC_CFG.GEN; 09 Table 9-13; reset 0, D; locked at configuration commit -/
  gen : Nat := 0
  /-- [6] LPC_CFG.GIB; 09 Table 9-13; reset 0, D; locked at configuration commit -/
  gib : Nat := 0
  /-- [16] LPC_CFG.MTS; 09 Table 9-13; reset 0, D; locked at configuration commit -/
  mts : Nat := 0
  /-- [8] LPC_STATUS.CHANNEL; 09 Table 9-13; reset 0xFF, V -/
  channel : Nat := 0xFF
  /-- [4] LPC_STATUS.STATE; 09 Table 9-13; reset 0x0, V -/
  mode : MemMode := .reset
  /-- [1] LPC_EVENT.GUARD; 09 Table 9-13; reset 0, V -/
  evGuard : Bool := false
  /-- [1] LPC_EVENT.UNCORR; 09 Table 9-13; reset 0, V -/
  evUncorr : Bool := false
  /-- [1] LPC_EVENT.TRAIN_FAIL; 09 Table 9-13; reset 0, V -/
  evTrainFail : Bool := false
  /-- [32] LPC_CORR; 09 Table 9-13; reset 0, D; wraps -/
  corr : Nat := 0
  /-- [32] LPC_UNCORR; 09 Table 9-13; reset 0, D; wraps -/
  uncorr : Nat := 0
  /-- [32] LPC_GUARD; 09 Table 9-13; reset 0, D; wraps -/
  guard : Nat := 0
deriving DecidableEq, Repr

/-- Kinds of extent (08 Table 8-9, 14 R529). -/
inductive ExtentKind where
  | locket | charm | piece | shard | index | manifest
deriving DecidableEq, Repr

/-- One T2 or T3 extent (09 R339). -/
structure Extent where
  tier : Nat := 2
  bay : Nat := 0xFF
  kind : ExtentKind := .locket
  /-- session handle or charm index -/
  owner : Nat := 0
  tenant : Nat := 0
  /-- SEALED; otherwise WRITING -/
  sealed : Bool := false
  units : Nat := 0
  /-- T2 runs (first unit, units); 09 R340 -/
  runs : List (Nat × Nat) := []
  /-- stored bytes, unit 0 first -/
  data : List Byte := []
  /-- tarnished codewords (16-byte index) -/
  tarnish : List Nat := []
  /-- cookies of reads in progress; 09 Table 9-3 -/
  readers : List Nat := []
  /-- FREE_EXTENT waits for the readers -/
  freeing : Bool := false
  /-- lies in the checkpoint partition, or is a coffer's copy of such an extent; 09 R338, 14 R536. Its owner is then its cut frame. -/
  ckpt : Bool := false
  /-- units received so far of an extent that a peer sends; 14 R529 -/
  got : Nat := 0
deriving DecidableEq, Repr

/-- What a Courier descriptor is for: whom its completion concerns. -/
inductive Purpose where
  | demote (id : Nat) | promote (id : Nat) | charmMaster (ci : Nat) | replica (ci : Nat) (stack : Nat) | ring (id : Nat)
  | move (id : Nat) (stack : Nat) | parure (slot : Nat) | facet (cmd : Nat) | put (cmd : Nat) | select (cmd : Nat) | freeExt (ext : Nat)
  | cut (id : Nat) | coffer (id : Nat) | restore (cmd : Nat) | peer (pos : Nat) | peerExt (pos : Nat) (ext : Nat)
deriving DecidableEq, Repr

/-- One Courier descriptor (09 R346, Table 9-5) with its progress. -/
structure Desc where
  cookie : Nat
  op : Nat := 1
  tenant : Nat := 0
  tier : Nat := 1
  bay : Nat := 0xFF
  /-- KEY_SLOT, with ENCRYPT; none otherwise -/
  keySlot : Option Nat := none
  /-- FLAGS bit 1 -/
  digest : Bool := false
  units : Nat := 1
  /-- SRC; with SRC_LIST the list's T1 address -/
  src : Nat := 0
  /-- DST; with DST_LIST the list's T1 address -/
  dst : Nat := 0
  /-- the entries of the unit list that SRC names; 09 R347; none without SRC_LIST -/
  srcList : List Nat := []
  /-- the entries of the unit list that DST names; 09 R347; none without DST_LIST -/
  dstList : List Nat := []
  extent : Nat := 0
  /-- T1 address of the digest -/
  digestAddr : Nat := 0
  peer : Nat := 0
  epoch : Nat := 0
  reservedCh : Bool := false
  abandonable : Bool := false
  purpose : Purpose
  /-- packets sent -/
  sent : Nat := 0
  /-- tick of submission -/
  since : Tick := 0
  /-- the control complex has abandoned it (09 R349) -/
  abandoned : Bool := false
  /-- a unit that it moved carried tarnish (09 R342) -/
  tarnished : Bool := false
  /-- its next packet's target can accept it (11 R421) -/
  eligible : Bool := true
  /-- STATUS of the peer's XFER_DONE (16 Table 16-4) -/
  peerStatus : Option Nat := none
deriving DecidableEq, Repr

/-- A completion record that the control complex has not yet taken (09 R350). -/
structure DescDone where
  cookie : Nat
  purpose : Purpose
  status : Nat
  unitsDone : Nat
  tick : Tick
deriving DecidableEq, Repr

/-- A result that a PUT descriptor writes to host memory when it ends, with the completion that follows it (09 Table 9-6, 15 R579). -/
structure PutBuf where
  cmd : Nat
  addr : Nat
  data : List Byte
  status : Nat := 0
  r0 : Nat := 0
  r1 : Nat := 0
deriving DecidableEq, Repr

/-- The Courier and CUR_ registers (09 Table 9-14). -/
structure Cur where
  /-- [1] CUR_CTL.ENABLE; 09 Table 9-14; reset 0, V -/
  enable : Bool := false
  /-- descriptors on channels 0–31; CUR_BUSY; 09 R344; reset 0, V -/
  channels : Tab Desc := []
  /-- descriptors that wait for a channel, oldest first; 09 R344; reset: none, V -/
  waiting : List Desc := []
  /-- completion records not yet taken; 09 R350; reset: none -/
  done : List DescDone := []
  /-- completion records written to T1, newest last, at most 1,024; 09 R350; reset: none, V -/
  records : List DescDone := []
  /-- results that PUT descriptors carry; 09 Table 9-6; reset: none, V -/
  puts : List PutBuf := []
  /-- next cookie: the model's own counter; reset 1 -/
  nextCookie : Nat := 1
  /-- last channel that sent for a flow, key tenant or 0x400; 11 R419; reset: none -/
  lastCh : Tab Nat := []
  /-- [1] CUR_EVENT.TARNISH; 09 Table 9-14; reset 0, V -/
  evTarnish : Bool := false
  /-- [1] CUR_EVENT.DIGEST; 09 Table 9-14; reset 0, V -/
  evDigest : Bool := false
  /-- [1] CUR_EVENT.ABANDON; 09 Table 9-14; reset 0, V -/
  evAbandon : Bool := false
  /-- [32] CUR_T2_SIZE, units of the extent partition; 09 Table 9-14; reset 0, D -/
  t2Size : Nat := 0
  /-- units of the checkpoint partition; 09 R338; reset 0, D -/
  ckptSize : Nat := 0
  /-- [64] CUR_UNITS; 09 Table 9-14; reset 0, V -/
  units : Nat := 0
  /-- [32] CUR_UNITS_HI latch; 09 Table 9-14; reset 0, V -/
  unitsLatch : Nat := 0
  /-- [32] CUR_ABANDONED; 09 Table 9-14; reset 0, D; wraps -/
  abandoned : Nat := 0
  /-- [32] CUR_DIGEST_FAIL; 09 Table 9-14; reset 0, D; wraps -/
  digestFail : Nat := 0
deriving DecidableEq, Repr

/-- Superblock states of a bay (09 R353, R354). -/
inductive SbState where
  | free | openWrite | openReloc | journal | closed | retired
deriving DecidableEq, Repr

/-- One superblock (09 R353): its counters and its places in row order. -/
structure Superblock where
  state : SbState := .free
  erase : Nat := 0
  reads : Nat := 0
  marked : Bool := false
  /-- rows programmed -/
  rows : Nat := 0
  /-- places in order of arrival as (extent, first unit, units); void places name no extent -/
  pieces : List (Nat × Nat × Nat) := []
deriving DecidableEq, Repr

/-- Bay states of Table 9-11. -/
inductive BayMode where
  | empty | powering | ident | mounting | mounted | readOnly | detaching | detached | failed
deriving DecidableEq, Repr

/-- Journal record types of Table 9-9 with their contents. -/
inductive JRec where
  | openSb (sb : Nat) (stream : SbState) (erase : Nat)
  | sealExt (ext : Nat)
  | freeExt (ext : Nat)
  | reloc (ext : Nat) (first : Nat) (count : Nat) (sb : Nat)
  | erase (sb : Nat) (count : Nat)
  | bad (channel : Nat) (die : Nat) (block : Nat) (replacement : Nat)
  | checkpoint
deriving DecidableEq, Repr

/-- The coffer in a bay: what travels with it (09 R366, R367). Identity memory, extents and journal survive every reset. -/
structure Coffer where
  /-- identity memory, two copies of 512 bytes; 09 R367 -/
  ident : List Byte := []
  /-- superblocks by number; 09 R353 -/
  sbs : Tab Superblock := []
  /-- journal records, oldest first; 09 R359 -/
  journal : List JRec := []
  /-- sequence number of the next record -/
  jSeq : Nat := 0
  /-- superblock of the JOURNAL ring, 0–3, that takes the next record; 09 R354 -/
  jAt : Nat := 0
  /-- records that each superblock of the ring holds; 09 R354 -/
  jCounts : List Nat := [0, 0, 0, 0]
  /-- bad blocks as (channel, die, block, replacement); 09 R365 -/
  bads : List (Nat × Nat × Nat × Nat) := []
  /-- extents sealed on the coffer; 09 R357 -/
  extents : Tab Extent := []
  /-- write protect asserted by the identity controller; 09 R366 -/
  wp : Bool := false
deriving DecidableEq, Repr

/-- One bay and its CFC_ registers (09 Tables 9-11, 9-14), with Lantern's side of it (09 R366). -/
structure Bay where
  /-- [1] CFC_CTL.PATROL_EN; 09 Table 9-14; reset 1, D; locked at configuration commit -/
  patrolEn : Bool := true
  /-- [1] CFC_CTL.ENABLE; 09 Table 9-14; reset 0, V -/
  enable : Bool := false
  /-- [8] CFC_STATUS.LIFE; 09 Table 9-14; reset from identity, N -/
  life : Nat := 0
  /-- [8] CFC_STATUS.MTS_CODE; 09 Table 9-14; reset 0, V -/
  mtsCode : Nat := 0
  /-- [2] CFC_STATUS.MODE; 09 Table 9-14; reset 0, V -/
  iface : Nat := 0
  /-- [1] CFC_STATUS.BLOCKED; 09 Table 9-14; reset 0, V -/
  blocked : Bool := false
  /-- [4] CFC_STATUS.STATE; 09 Table 9-14; reset 0x0 EMPTY, V -/
  mode : BayMode := .empty
  /-- [8] CFC_EVENT bits 7:0; 09 Table 9-14; reset 0, V -/
  event : Nat := 0
  /-- [32] CFC_FREE_HI latch; 09 Table 9-14; reset 0, V -/
  freeLatch : Nat := 0
  /-- [32] CFC_ERASE_MAX; 09 Table 9-14; reset from identity, N -/
  eraseMax : Nat := 0
  /-- [32] CFC_RELOC; 09 Table 9-14; reset 0, V; wraps -/
  reloc : Nat := 0
  /-- the coffer in the bay; 09 R366; reset: DESIGN CHOICE none, log 7 -/
  coffer : Option Coffer := none
  /-- COFn_PRSNT_N asserted since this tick; 09 Table 9-11; reset: not asserted -/
  present : Option Tick := none
  /-- COFn_PWREN asserted; 09 Table 9-11; reset 0 -/
  pwren : Bool := false
  /-- tick the bay's present state was entered -/
  since : Tick := 0
  /-- COFn_LED: 0 off, 1 blinking, 2 steady; 19 Table 19-5; reset 0 -/
  led : Nat := 0
  /-- programs issued whose status has not passed, newest last; 09 R358 -/
  programs : List (Nat × Nat) := []
  /-- tick of the next retry of a blocked charm promotion; 09 R372 -/
  retryAt : Tick := 0
  /-- erase of a block in progress: superblock; 09 R368 -/
  erasing : Option Nat := none
  /-- journal records since the last checkpoint; 09 R359 -/
  sinceCkpt : Nat := 0
  /-- tick of the last counter write; 09 R368 -/
  lastCounters : Tick := 0
  /-- tick of the last patrol pass; 09 R364 -/
  lastPatrol : Tick := 0
  /-- class-W copy of the counters that Lantern keeps: SPARE_USED, ERASES_TOTAL, ERASE_MAX, LIFE; 09 R368 -/
  mirror : List Nat := [0, 0, 0, 0]
deriving DecidableEq, Repr

/-! ## The Ephemeris, contexts and jobs (chapter 10) -/

/-- Slot entry (10 Table 10-3). -/
structure EphSlot where
  kind : Nat := 0
  target : Nat := 0
  steps : Nat := 0
  urgentMax : Nat := 0
  start : Nat := 0
  length : Nat := 0
  urgentTicks : Nat := 0
deriving DecidableEq, Repr

/-- Server entry (10 Table 10-4). -/
structure EphServer where
  classes : Nat := 0
  urgent : Bool := false
  priority : Nat := 0
  budget : Nat := 0
deriving DecidableEq, Repr

/-- Schedule table (10 R380). -/
structure EphTable where
  generation : Nat := 0
  frameTicks : Nat := 0
  spillCap : Nat := 0
  slots : List EphSlot := []
  servers : List EphServer := []
deriving DecidableEq, Repr

/-- Length-table row (05 R183). -/
structure LenRow where
  member : Nat
  active : Bool
  gen : Bool
  held : Bool
  nIn : Nat
  width : Nat
  base : Nat
  gbase : Nat
  handle : Nat
deriving DecidableEq, Repr

/-- Position-list entry (05 R187). -/
structure PosEntry where
  member : Nat
  node : Bool
  closes : Bool
  slot : Nat
  nodeNum : Nat
  pos : Nat
  gpos : Nat
deriving DecidableEq, Repr

/-- Tree entry of one member (06 R213) with the state Filigree gave each node (07 R252; none is DEAD). -/
structure Tree where
  /-- ancestor masks -/
  masks : List Nat := []
  /-- parents; the root's is 0 -/
  parents : List Nat := []
  /-- node symbols -/
  symbols : List Sym := []
  /-- grammar states; none is DEAD -/
  states : List (Option Nat) := []
  /-- nodes whose symbol is still to be drafted (06 R229) -/
  open_ : List Nat := []
  /-- nodes removed while drafting, renumbered away after the last draft run (06 R726) -/
  gone : List Nat := []
deriving DecidableEq, Repr

/-- Outcome of the walk for one member (06 R234, R240). -/
structure Path where
  nodes : List Nat := []
  out : List Sym := []
  /-- draft nodes accepted: d -/
  accepted : Nat := 0
  /-- draft nodes tested -/
  tested : Nat := 0
  /-- the walk drew a symbol -/
  drew : Bool := false
  /-- the walk ended at a node without a distribution (06 R236) -/
  noDist : Bool := false
deriving DecidableEq, Repr

/-- A frozen step of a batch context (01 R40). -/
structure StepRec where
  /-- index j of the step in its slot; 10 R394 -/
  index : Nat := 0
  /-- deadline D_j; 10 R394 -/
  deadline : Tick := 0
  /-- tick of the start -/
  start : Tick := 0
  rows : List LenRow := []
  positions : List PosEntry := []
  /-- trees by member index -/
  trees : Tab Tree := []
  /-- position-list indices at which BOUNDARY_SWEEP's value is greater than +0; 05 R188 -/
  models : List Nat := []
  /-- next draft level to run, while draft levels remain; 06 R229 -/
  draftLevel : Option Nat := none
  /-- logit rows by position-list index; 06 R234 -/
  logits : Tab (List W32) := []
  /-- position-list indices whose logit row is tarnished; 06 R244 -/
  tarnRows : List Nat := []
  /-- final rows have all arrived at this tick -/
  rowsAt : Option Tick := none
  /-- fixed paths by member index; none before PATHS_FIXED -/
  paths : Option (Tab Path) := none
  /-- members removed from the seal; 07 R276 -/
  removed : List Nat := []
  /-- sealed at this tick -/
  sealedAt : Option Tick := none
  /-- committed nodes by member index; 05 R194 -/
  committed : Tab Nat := []
deriving DecidableEq, Repr

/-- A pending BATCH_JOIN (10 R392). -/
structure Join where
  id : Nat
  cmd : Nat
  since : Tick
  /-- pages are reserved and a move, promotion or recompute is in progress -/
  started : Bool := false
deriving DecidableEq, Repr

/-- A pending BATCH_LEAVE (10 R392). -/
structure Leave where
  id : Nat
  cmd : Nat
deriving DecidableEq, Repr

/-- Batch context states of Table 10-7; FREE is the absence of the context. -/
inductive CtxState where
  | idle | stepping | overrun
deriving DecidableEq, Repr

/-- A suspended step or job: its progress, its accumulators and where its spill image stands (03 R101). -/
structure Suspended where
  prog : Progress
  acc : Tab W32 := []
  /-- cheap-point index of the image -/
  cheap : Nat := 0
  base : Nat := 0
  size : Nat := 0
deriving DecidableEq, Repr

/-- One batch context (10 R389, R391). -/
structure Ctx where
  state : CtxState := .idle
  /-- load slot of the parure -/
  slot : Nat := 0
  /-- T1 address of the spill reservation; 10 R379 -/
  spillBase : Nat := 0
  /-- locket handle by member index -/
  members : Tab Nat := []
  joins : List Join := []
  leaves : List Leave := []
  step : Option StepRec := none
  suspended : Option Suspended := none
  /-- steps the present slot has started; 10 R395 -/
  started : Nat := 0
  /-- [64] seals since definition; 15 Table 15-10 -/
  seals : Nat := 0
deriving DecidableEq, Repr

/-- Job classes of Table 10-9. -/
inductive JobClass where
  | recompute | search | select | merge
deriving DecidableEq, Repr

/-- One ready, running or suspended job (10 R404). -/
structure Job where
  id : Nat
  cls : JobClass
  tenant : Nat := 0
  /-- the locket, search, select command or collection it works on -/
  target : Nat := 0
  /-- load slot of the parure, for a recompute -/
  slot : Nat := 0
  wJob : Nat := 1
  ready : Tick := 0
  /-- acceptance order of its command -/
  seq : Nat := 0
  /-- urgent charge so far; 10 R402 -/
  charge : Nat := 0
  /-- urgent pre-emption in force -/
  urgent : Bool := false
  suspended : Option Suspended := none
  /-- positions of a recompute pass at which BOUNDARY_SWEEP's value is greater than +0; 05 R188 -/
  models : List Nat := []
  /-- the wait has been counted; 10 R412 -/
  counted : Bool := false
deriving DecidableEq, Repr

/-- Who holds the Orrery (10 R398). -/
inductive Holder where
  | none | step (ctx : Nat) | job (id : Nat)
deriving DecidableEq, Repr

/-- A pending EPHEMERIS_SWITCH (10 R385); the command is lost by a DEVICE reset (10 R417). -/
structure Switch where
  atFrame : Nat
  accepted : Tick
  cmd : Option Nat
deriving DecidableEq, Repr

/-- A charge to be returned to a server's budget (10 R405). -/
structure Charge where
  server : Nat
  ticks : Nat
  due : Tick
deriving DecidableEq, Repr

/-- Accounting record of one tenant (10 Table 10-12). -/
structure Account where
  since : Tick := 0
  jobs : Nat := 0
  waitSum : Nat := 0
  waitMax : Nat := 0
  hist : List Nat := List.replicate 16 0
  preempted : Nat := 0
  latePackets : Nat := 0
  urgentCharge : Nat := 0
deriving DecidableEq, Repr

/-- The Ephemeris and its EPH_ registers (10 Tables 10-13, 10-14). -/
structure Eph where
  /-- [1] EPH_CTL.ALIGN_EN; 10 Table 10-14; reset 1, D; locked at configuration commit -/
  alignEn : Bool := true
  /-- [1] EPH_CTL.ENABLE; 10 Table 10-14; reset 0, V -/
  enable : Bool := false
  /-- active table; EPH_GEN.ACTIVE and EPH_FRAME_TICKS; 10 R380; reset: none, D -/
  active : Option EphTable := none
  /-- shadow table; EPH_GEN.SHADOW; 10 R383; reset: none, D -/
  shadow : Option EphTable := none
  /-- pending switch; 10 R385; reset: none, D -/
  switch : Option Switch := none
  /-- [8] EPH_STATUS.SLOT; 10 Table 10-14; reset 0, V -/
  slot : Nat := 0
  /-- [1] EPH_STATUS.STATE is UNALIGNED; 10 Table 10-14; reset 0, V -/
  unaligned : Bool := false
  /-- the active table runs frames; 10 R417; reset 0, V -/
  running : Bool := false
  /-- [6] EPH_EVENT bits 5:0; 10 Table 10-14; reset 0, V -/
  event : Nat := 0
  /-- [64] EPH_FRAME; 10 Table 10-14; reset 0, W -/
  frame : Nat := 0
  /-- [32] EPH_FRAME_HI latch; 10 Table 10-14; reset 0, V -/
  frameLatch : Nat := 0
  /-- [64] EPH_MERIDIAN; 10 Table 10-14; reset 0, V -/
  meridian : Nat := 0
  /-- [32] EPH_MERIDIAN_HI latch; 10 Table 10-14; reset 0, V -/
  meridianLatch : Nat := 0
  /-- tick of the next meridian with the correction of R410; 10 R410; reset 0, V -/
  nextMeridian : Tick := 0
  /-- tick the present slot started; 10 R394; reset 0, V -/
  slotStart : Tick := 0
  /-- a meridian has passed and slot 0 of its frame has not yet started; 10 R377; reset 0, V -/
  slotDue : Bool := false
  /-- the start boundary of the present slot has been passed; 10 R393; reset 0, V -/
  begun : Bool := false
  /-- the lead point of the present slot has passed; 10 R398; reset 0, V -/
  leadPassed : Bool := false
  /-- urgent pre-emptions started in the present slot and frame; 10 R401; reset 0, V -/
  urgentCount : Nat := 0
  /-- urgent ticks charged in the present slot and frame; 10 R401; reset 0, V -/
  urgentUsed : Nat := 0
  /-- [32] EPH_LATE_STEPS; 10 Table 10-14; reset 0, D; wraps -/
  lateSteps : Nat := 0
  /-- [32] EPH_OVERRUNS; 10 Table 10-14; reset 0, D; wraps -/
  overruns : Nat := 0
  /-- [32] EPH_PREEMPTS; 10 Table 10-14; reset 0, D; wraps -/
  preempts : Nat := 0
  /-- [32] EPH_URGENT; 10 Table 10-14; reset 0, D; wraps -/
  urgent : Nat := 0
  /-- [16] EPH_ADJ, two's complement; 10 Table 10-14; reset 0, V -/
  adj : Int := 0
  /-- [32] EPH_SLACK, two's complement; 10 Table 10-14; reset 0, V -/
  slack : Int := 0
  /-- batch contexts that are not FREE, key 0–7; 10 R389; reset: none, D -/
  ctxs : Tab Ctx := []
  /-- jobs ready, running or suspended; 10 R404; reset: none, V -/
  jobs : List Job := []
  /-- id of the next job: the model's own counter; reset 1 -/
  nextJob : Nat := 1
  /-- who holds the Orrery; 10 R398; reset: none, V -/
  holder : Holder := .none
  /-- tick the holder's urgent charge began; 10 R402; reset 0, V -/
  chargeFrom : Option Tick := none
  /-- urgent candidate for which a pre-emption was requested; 10 R401; reset: none, V -/
  candidate : Option Nat := none
  /-- charges not yet returned to their server's budget; 10 R405; reset: none, V -/
  charges : List Charge := []
  /-- accounting records that differ from zero, key tenant; 10 R414; reset: every record 0, D -/
  accounts : Tab Account := []
  /-- bytes of each of the nine spill areas; 10 R384; reset 0, D -/
  spillArea : Nat := 0
deriving DecidableEq, Repr

/-! ## Traffic (chapter 11) -/

/-- Tags of one flow or class (11 R424). -/
structure Tags where
  start : Nat := 0
  finish : Nat := 0
  busy : Bool := false
  /-- quantum in force since the flow last became backlogged (11 R422) -/
  quantum : Nat := 0
  /-- class in force since the flow last became backlogged (11 R422) -/
  cls : Nat := 0
deriving DecidableEq, Repr

/-- One weighted fair queueing scheduler (11 R418, R424). Classes: 0 R, 1 A, 2 B, 3 C. -/
structure Wfq where
  /-- [128] class-level V; 11 R424; reset 0 -/
  vClass : Nat := 0
  /-- class-level tags, one per class; 11 R424; reset 0 -/
  classes : List Tags := List.replicate 4 {}
  /-- [128 each] tenant-level V of each class; 11 R424; reset 0 -/
  vFlow : List Nat := List.replicate 4 0
  /-- flow tags, key tenant or 0x400; 11 R424; reset 0 -/
  flows : Tab Tags := []
deriving DecidableEq, Repr

/-- Traffic settings and bucket of one tenant (11 Table 11-6). -/
structure TenantTraffic where
  /-- [8] CLASS; 11 Table 11-6; reset 1, D -/
  cls : Nat := 1
  /-- [16] WEIGHT; 11 Table 11-6; reset 16, D -/
  weight : Nat := 16
  /-- [32] RATE; 11 Table 11-6; reset 0xFFFF_FFFF, D -/
  rate : Nat := 0xFFFFFFFF
  /-- [16] DEPTH; 11 Table 11-6; reset 65,535, D -/
  depth : Nat := 65535
  /-- [64] LEVEL; 11 Table 11-6; reset DEPTH × 10^8, V -/
  level : Nat := 6553500000000
  /-- [32] QUOTA_REFUSED; 11 Table 11-6; reset 0, D; saturating -/
  refused : Nat := 0
deriving DecidableEq, Repr

/-- Queue histogram entry (11 Table 11-4). -/
structure QHist where
  maxDepth : Nat := 0
  maxDelay : Nat := 0
  depthHist : List Nat := List.replicate 16 0
  delayHist : List Nat := List.replicate 16 0
  sentTotal : Nat := 0
deriving DecidableEq, Repr

/-- Traffic state of the device (11 Table 11-6). -/
structure Traffic where
  /-- the 18 schedulers; 11 Table 11-1; reset empty, V -/
  wfq : List Wfq := List.replicate 18 {}
  /-- [16 each] CLASS_W_R, A, B, C; 11 Table 11-6; reset 4, 8, 4, 1, D -/
  classW : List Nat := [4, 8, 4, 1]
  /-- tenant settings that differ from the defaults, key tenant; 11 Table 11-6; reset defaults, D -/
  tenants : Tab TenantTraffic := []
  /-- histogram entries that are not zero, key QID; 11 Table 11-4; reset 0 -/
  hist : Tab QHist := []
  /-- every queue has this many samples (entries not listed hold only samples); 11 R436; reset 0 -/
  samples : Nat := 0
  /-- items sent since the previous sample, key QID; 11 R435; reset 0, V -/
  sent : Tab Nat := []
  /-- [8] SAMPLE_EN; 11 Table 11-6; reset 0, D -/
  sampleEn : Nat := 0
  /-- [64] RING_BASE; 11 Table 11-6; reset 0, D -/
  ringBase : Nat := 0
  /-- [8] RING_LOG2; 11 Table 11-6; reset 10, D -/
  ringLog2 : Nat := 10
  /-- [64] PRODUCER_ADDR; 11 Table 11-6; reset 0, D -/
  producer : Nat := 0
  /-- [8] WATCH_COUNT; 11 Table 11-6; reset 0, D -/
  watchCount : Nat := 0
  /-- [16 each] WATCH[0..63]; 11 Table 11-6; reset 0, D -/
  watch : List Nat := List.replicate 64 0
  /-- [64] HIST_OFFSET; 11 Table 11-6; reset 0 before commit, D -/
  histOffset : Nat := 0
  /-- record count n of the ring's life; 11 R437; reset 0 -/
  ringCount : Nat := 0
  /-- tick up to which the buckets have been refilled; 11 R428; reset 0 -/
  lastRefill : Tick := 0
  /-- tick of the last sample; 11 R435; reset: none -/
  lastSample : Option Tick := none
deriving DecidableEq, Repr

/-! ## Search and selection (chapter 12) -/

/-- Collection states of Table 12-4. -/
inductive CollState where
  | ready | merging | broken
deriving DecidableEq, Repr

/-- One item of a collection (12 R445): record, delete table, sketch and vector. -/
structure Item where
  insCsn : Nat
  key : Nat
  tags : Nat
  norm : W32
  /-- all ones while not deleted -/
  delCsn : Nat := 0xFFFFFFFFFFFFFFFF
  sketch : List Byte
  vector : List Byte
deriving DecidableEq, Repr

/-- One generation of a collection's graph (12 R453). -/
structure Gen where
  number : Nat := 0
  /-- neighbour lists by node -/
  lists : Tab (List Nat) := []
  /-- ENTRY[0..7]; 0xFFFF_FFFF for none -/
  entry : List Nat := List.replicate 8 0xFFFFFFFF
  /-- SIDE_START as a count of positions since creation -/
  sideStart : Nat := 0
  /-- commands whose SEARCH was accepted on it; they hold it until they complete -/
  holders : List Nat := []
  /-- indices it omitted, released with it; 12 R458 -/
  omitted : List Nat := []
deriving DecidableEq, Repr

/-- A merge pending or running (12 R454). -/
structure Merge where
  cmd : Option Nat := none
  /-- tick it became pending -/
  since : Tick := 0
  /-- merge horizon M, fixed at the start; none while pending -/
  horizon : Option Nat := none
  /-- one past the last merged position -/
  upTo : Nat := 0
  /-- merge steps still to run -/
  stepsLeft : Nat := 0
  /-- Sieve unit held by the running merge job -/
  unit : Option Nat := none
deriving DecidableEq, Repr

/-- One collection (12 R441, R442). -/
structure Coll where
  tenant : Nat := 0
  handle : Nat := 0
  state : CollState := .ready
  metric : Nat := 0
  vecFmt : Nat := 0
  dim : Nat := 0
  sketchBits : Nat := 256
  degree : Nat := 8
  capacity : Nat := 1
  sideMax : Nat := 64
  mergeAt : Nat := 0
  efBuild : Nat := 8
  /-- frames in page order -/
  frames : List Nat := []
  lastCsn : Nat := 0
  items : Tab Item := []
  /-- side list: item index by position counted since creation -/
  side : List Nat := []
  gens : List Gen := [{}]
  merge : Option Merge := none
deriving DecidableEq, Repr

/-- What a walk returned (12 R461). -/
structure WalkResult where
  survivors : List Nat := []
  visits : Nat := 0
  budget : Bool := false
deriving DecidableEq, Repr

/-- A SEARCH in progress (12 R460). -/
structure Search where
  cmd : Nat
  coll : Nat
  tenant : Nat := 0
  k : Nat := 1
  ef : Nat := 1
  rerank : Nat := 1
  spread : Nat := 1
  visitMax : Nat := 1
  filter : Bool := false
  resultAddr : Nat := 0
  horizon : Nat := 0
  gen : Nat := 0
  tail : Nat := 0
  query : List Byte := []
  /-- walks not yet on a unit -/
  queued : List Nat := []
  /-- results by walk -/
  results : Tab WalkResult := []
  /-- unit of walk 0 -/
  unit0 : Nat := 0
  /-- tick at which the last walk returned -/
  walkedAt : Option Tick := none
  /-- acceptance order -/
  seq : Nat := 0
deriving DecidableEq, Repr

/-- A SELECT in progress (12 R470). -/
structure Select where
  cmd : Nat
  tenant : Nat := 0
  rows : Nat := 1
  n : Nat := 1
  k : Nat := 1
  fmt : Nat := 9
  resultAddr : Nat := 0
  /-- staging frames in page order, as stack · 2^20 + frame; 12 R470 -/
  frames : List Nat := []
  data : List Byte := []
  /-- tick at which the fetch of the rows ended -/
  fetchedAt : Option Tick := none
  /-- tarnished rows; 12 R475 -/
  tarnRows : List Nat := []
  seq : Nat := 0
deriving DecidableEq, Repr

/-- What a Sieve unit works on. -/
inductive SivUse where
  | walk (cmd : Nat) (p : Nat) (since : Tick) | merge (coll : Nat)
deriving DecidableEq, Repr

/-- One Sieve unit (12 Tables 12-11, 12-12). -/
structure Siv where
  /-- [1] SIV_CTL.ENABLE; 12 Table 12-12; reset 0, V -/
  enable : Bool := false
  /-- [8] SIV_STATUS.COLL; 12 Table 12-12; reset 0, V -/
  coll : Nat := 0
  /-- [4] SIV_STATUS.STATE; 12 Table 12-12; reset 0x0, V -/
  mode : Nat := 0
  /-- [4] SIV_EVENT; 12 Table 12-12; reset 0, V -/
  event : Nat := 0
  /-- [64] SIV_COMPARES; 12 Table 12-12; reset 0, V -/
  compares : Nat := 0
  /-- [32] SIV_COMPARES_HI latch; 12 Table 12-12; reset 0, V -/
  comparesLatch : Nat := 0
  /-- [32] SIV_WALKS; 12 Table 12-12; reset 0, D; wraps -/
  walks : Nat := 0
  /-- [32] SIV_BUDGET_HITS; 12 Table 12-12; reset 0, D; wraps -/
  budgetHits : Nat := 0
  /-- [32] SIV_PARTIAL; 12 Table 12-12; reset 0, D; wraps -/
  partials : Nat := 0
  /-- [32] SIV_LAST_WALK; 12 Table 12-12; reset 0, V -/
  lastWalk : Nat := 0
  /-- what the unit holds; 12 R456, R462; reset: free, V -/
  use_ : Option SivUse := none
deriving DecidableEq, Repr

/-! ## Integrity (chapter 13) -/

/-- INT_STATUS.STATE (13 Table 13-10). -/
inductive IntMode where
  | normal | replay | fence | isolated | quarantined | deviceFault
deriving DecidableEq, Repr

/-- Repeat-test states of Table 13-4. -/
inductive Repeat where
  | clean | retry (l : Nat) | spare (l : Nat)
deriving DecidableEq, Repr

/-- What a map change in the fence does (13 R503, 03 R118). -/
inductive MapChange where
  | substitute (l : Nat) | planned (l : Nat) | reverse (l : Nat)
deriving DecidableEq, Repr

/-- A fault record (13 R514). -/
structure FaultRec where
  tick : Tick := 0
  kind : Nat := 0
  station : Nat := 0
  cell : Nat := 0xFF
  attempt : Nat := 0
  mapEpoch : Nat := 0
  memberEpoch : Nat := 0
  object : Nat := 0
  detail : Nat := 0
  seq : Nat := 0
deriving DecidableEq, Repr

/-- The integrity unit and INT_ registers (13 Tables 13-9 to 13-11). -/
structure Integ where
  /-- [1] INT_CTL.PLANNED_EN; 13 Table 13-10; reset 1, D; locked at configuration commit -/
  plannedEn : Bool := true
  /-- [1] INT_CTL.ISOLATE_EN; 13 Table 13-10; reset 1, D; locked at configuration commit -/
  isolateEn : Bool := true
  /-- [8] INT_STATUS.CELL; 13 Table 13-10; reset 0xFF, V -/
  cell : Nat := 0xFF
  /-- [8] INT_STATUS.ATTEMPT; 13 Table 13-10; reset 0, V -/
  attempt : Nat := 0
  /-- [4] INT_STATUS.STATE; 13 Table 13-10; reset 0x0, V -/
  mode : IntMode := .normal
  /-- [11] INT_EVENT; 13 Table 13-10; reset 0, V -/
  event : Nat := 0
  /-- [32] INT_TRANSIENT; 13 Table 13-10; reset 0, D; wraps -/
  transient : Nat := 0
  /-- [32] INT_PERMANENT; 13 Table 13-10; reset 0, D; wraps -/
  permanent : Nat := 0
  /-- [32] INT_TARNISH_MADE; 13 Table 13-10; reset 0, D; wraps -/
  tarnishMade : Nat := 0
  /-- [32] INT_TARNISH_CONSUMED; 13 Table 13-10; reset 0, D; wraps -/
  tarnishConsumed : Nat := 0
  /-- [32] INT_SESSIONS_ENDED; 13 Table 13-10; reset 0, D; wraps -/
  sessionsEnded : Nat := 0
  /-- [32] INT_SRAM_CORR; 13 Table 13-10; reset 0, D; wraps -/
  sramCorr : Nat := 0
  /-- [32] INT_MESH_CORR; 13 Table 13-10; reset 0, D; wraps -/
  meshCorr : Nat := 0
  /-- [32] INT_STALE_MAP; 13 Table 13-10; reset 0, D; wraps -/
  staleMap : Nat := 0
  /-- [32] INT_STALE_MEMBER; 13 Table 13-10; reset 0, D; wraps -/
  staleMember : Nat := 0
  /-- [64] INT_LOG_BASE; 13 Table 13-10; reset 0 before commit, D -/
  logBase : Nat := 0
  /-- [32] INT_LOG_BASE_HI latch; 13 Table 13-10; reset 0, V -/
  logBaseLatch : Nat := 0
  /-- [64] INT_LOG_COUNT; 13 Table 13-10; reset 0, D -/
  logCount : Nat := 0
  /-- [32] INT_LOG_COUNT_HI latch; 13 Table 13-10; reset 0, V -/
  logCountLatch : Nat := 0
  /-- fault log ring: the last 1,024 records, newest last; 13 R515; reset: none, D -/
  log : List FaultRec := []
  /-- [32] INT_INTERRUPT_MAX; 13 Table 13-10; reset 0, D -/
  interruptMax : Nat := 0
  /-- repeat test state; 13 Table 13-4; reset CLEAN, V -/
  rep : Repeat := .clean
  /-- tick of the failing tile's first fault report; 13 R511 -/
  firstFault : Tick := 0
  /-- map change in the fence; 13 R503; reset: none, V -/
  change : Option MapChange := none
  /-- physical cell awaiting judgement of a spare-mapping replay: outgoing and spare; 13 R498 -/
  trial : Option (Nat × Nat) := none
  /-- [8] TRANSIENT_LIMIT; 13 Table 13-11; reset 8, D -/
  limit : Nat := 8
  /-- [32] TRANSIENT_WINDOW; 13 Table 13-11; reset 100, D -/
  window : Nat := 100
  /-- physical cell waiting for a planned substitution; 13 R501; reset: none, V -/
  planned : Option Nat := none
  /-- DEVICE_FAULT detail of Table 13-8 -/
  faultDetail : Nat := 0
  /-- [144-bit codewords] addresses of tarnished codewords in T1, in units of 16 bytes, rising; 13 R485; reset: none -/
  tarnishT1 : List Nat := []
deriving DecidableEq, Repr

/-! ## Checkpoints (chapter 14) -/

/-- One piece of a cut (14 R538): kind, charm, index, its bytes, the tarnished codewords among them, and the tenant whose key it is sent under. -/
structure Piece where
  kind : Nat
  charm : Nat := 0
  index : Nat := 0
  data : List Byte := []
  tarn : List Nat := []
  tenant : Option Nat := none
  /-- stack and spare slot that hold its page, for a piece read from the spare region; 09 R331, 14 R529 -/
  slot : Option (Nat × Nat) := none
deriving DecidableEq, Repr

/-- The capture of one locket, or of the control state (handle none), in a cut (14 R524). -/
structure Capture where
  handle : Option Nat := none
  session : Nat := 0
  tenant : Nat := 0
  home : Nat := 0
  full : Bool := true
  kvAbsent : Bool := false
  ttls : List Nat := []
  state : Nat := 0
  context : Nat := 0xFF
  member : Nat := 0xFFFF
  acked : Nat := 0
  tick : Tick := 0
  /-- records behind this one, and the frame of the full one -/
  depth : Nat := 0
  fullCut : Nat := 0
  /-- pieces copied so far -/
  pieces : List Piece := []
  /-- KV units whose dirty bits the capture cleared (VPN · 16 + unit); they become pieces as their pages are copied -/
  cleared : List Nat := []
  /-- captured length of the thread, arrival mark and captured charms before the capture; 14 R534 -/
  prevLen : Nat := 0
  prevArrived : Bool := false
  prevCharms : List Nat := []
deriving DecidableEq, Repr

/-- One entry of the directory as a cut finds it (14 R540): 1 shard, 2 T2 copy, 3 T3 reference. -/
structure DirEnt where
  handle : Nat
  kind : Nat
  state : Nat
  tenant : Nat
  session : Nat
  extent : Nat := 0
  bay : Nat := 0
  units : Nat := 0
  digest : Nat := 0
deriving DecidableEq, Repr

/-- Record of a locket's captures in the current store (14 R525, R539). -/
structure LastCapture where
  cut : Nat := 0
  offset : Nat := 0
  units : Nat := 0
  depth : Nat := 0
  digest : Nat := 0
  fullCut : Nat := 0
  state : Nat := 0
  session : Nat := 0
deriving DecidableEq, Repr

/-- A PARKED_T2 extent that a cut carries as stored (14 R521, R530). -/
structure CarriedExt where
  extent : Nat
  tenant : Nat := 0
  data : List Byte := []
  tarn : List Nat := []
deriving DecidableEq, Repr

/-- A cut in flight (14 R520). -/
structure Cut where
  frame : Nat
  tick : Tick
  epoch : Nat := 0
  /-- buddy position at the meridian -/
  buddy : Nat := 0
  captures : List Capture := []
  /-- lockets whose capture waits for their commit copy; 14 R522 -/
  deferred : List Nat := []
  /-- the directory at the meridian; 14 R540 -/
  dir : List DirEnt := []
  /-- PARKED_T2 extents it carries -/
  extents : List CarriedExt := []
  /-- 0 not drained; 1 pieces, 2 shard records, 3 index units, 4 manifest being sent; 5 manifest sealed on the buddy; 14 R529 -/
  phase : Nat := 0
  /-- identifiers of the cut extent and of the manifest extent -/
  extentId : Nat := 0
  manifestId : Nat := 0
  /-- the cut extent and the manifest as sent, with the extent's tarnished codewords; 14 R529 -/
  extentBytes : List Byte := []
  tarn : List Nat := []
  manifest : List Byte := []
  /-- first unit of the shard records and of the index units within the cut extent -/
  recordsAt : Nat := 0
  indexAt : Nat := 0
  /-- records and extents that become current when the cut completes -/
  newLast : Tab LastCapture := []
  newExt : Tab (Nat × Nat) := []
  /-- counted as late; 14 R533 -/
  late : Bool := false
  /-- all captures are full because the store lags; 14 R537 -/
  allFull : Bool := false
  /-- an in-stack copy that it requested was refused; 09 R333, 14 R534 -/
  refused : Bool := false
deriving DecidableEq, Repr

/-- A SNAPSHOT that waits (14 R545). -/
structure Snapshot where
  cmd : Nat
  coffer : Bool := false
  /-- frame of the cut it waits for once taken -/
  cut : Option Nat := none
deriving DecidableEq, Repr

/-- Replay log entry (14 R556). -/
structure ReplayEntry where
  kind : Nat
  beforeSeal : Bool
  atStep : Nat
  data : List Byte
deriving DecidableEq, Repr

/-- What a RESTORE reads: the store's extents, the manifest, and its operands (14 R543, 15 Table 15-9). -/
structure RestoreReq where
  view : Tab Extent
  man : List Byte
  select : List Nat
  selectAll : Bool
  partK : Nat
  partN : Nat
  resume : List (Nat × Nat)
  log : List (Nat × ReplayEntry)
deriving DecidableEq, Repr

/-- A RESTORE whose units the Courier is moving: its command, its source, the address of its report, and what it reads (14 R547 to R551). -/
structure RestoreRun where
  cmd : Nat
  source : Nat
  report : Nat
  req : RestoreReq
deriving DecidableEq, Repr

/-- Checkpoint state of the device (14 Table 14-11). -/
structure Ckpt where
  /-- [8] CKPT_EN; 14 Table 14-11; reset 0, D -/
  en : Nat := 0
  /-- [16] CAPTURE_BUF; 14 Table 14-11; reset 256, D; locked at configuration commit -/
  captureBuf : Nat := 256
  /-- [32] REFRESH_FRAMES; 14 Table 14-11; reset 3,000, D -/
  refresh : Nat := 3000
  /-- [8] COFFER_BAY; 14 Table 14-11; reset 0xFF, D -/
  cofferBay : Nat := 0xFF
  /-- cut key, 32 bytes; CUT_KEY_FP is its fingerprint; 14 R542; reset none, W -/
  cutKey : Option (List Byte) := none
  /-- [64] LAST_CUT; 14 Table 14-11; reset 0, D -/
  lastCut : Nat := 0
  /-- [32] CUTS_DONE; 14 Table 14-11; reset 0, D; saturating -/
  done : Nat := 0
  /-- [32] CUTS_SKIPPED; 14 Table 14-11; reset 0, D; saturating -/
  skipped : Nat := 0
  /-- [32] CUTS_LATE; 14 Table 14-11; reset 0, D; saturating -/
  late : Nat := 0
  /-- [32] CUTS_ABANDONED; 14 Table 14-11; reset 0, D; saturating -/
  abandoned : Nat := 0
  /-- [32] LAST_CUT_UNITS; 14 Table 14-11; reset 0, D -/
  lastUnits : Nat := 0
  /-- cuts in flight, at most two, oldest first; 14 R520; reset: none -/
  cuts : List Cut := []
  /-- last captures in the current store, key locket handle (2^26 for the control state); 14 R521; reset: none -/
  last : Tab LastCapture := []
  /-- the device control state changed since its capture; 14 R521; reset 1 -/
  controlDirty : Bool := true
  /-- charms whose pieces the control record's chain holds; 14 R521; reset: none -/
  heldCharms : List Nat := []
  /-- control-record units that the chain holds; 14 R539; reset 0 -/
  heldRecs : Nat := 0
  /-- PARKED_T2 extents the store already holds, with cut and offset; 14 R521; reset: none -/
  heldExt : Tab (Nat × Nat) := []
  /-- SNAPSHOTs that wait; 14 R545; reset: none -/
  snapshots : List Snapshot := []
  /-- replay logs by locket handle; 14 R556; reset: none -/
  replay : Tab (List ReplayEntry) := []
  /-- RESTOREs whose units are being moved; 01 R31, 14 R548; reset: none, V -/
  restores : List RestoreRun := []
deriving DecidableEq, Repr

/-! ## Host interface (chapter 15) -/

/-- One ring pair and its HIF_ ring group (15 Table 15-16). -/
structure Ring where
  /-- [64] HIF_SQ_BASE_LOr and _HIr, a multiple of 4096; 15 Table 15-16; reset 0, D -/
  sqBase : Nat := 0
  /-- [1] HIF_SQ_CFGr.ENABLE; 15 Table 15-16; reset 0, V -/
  sqEn : Bool := false
  /-- [5] HIF_SQ_CFGr.LOG2; 15 Table 15-16; reset 6, D -/
  sqLog2 : Nat := 6
  /-- [10] HIF_SQ_CFGr.TENANT, always 0 for ring 0; 15 Table 15-16; reset 0, D -/
  tenant : Nat := 0
  /-- [64] HIF_SQ_SHADOW_LOr and _HIr; 15 Table 15-16; reset 0, D -/
  shadow : Nat := 0
  /-- [64] HIF_CQ_BASE_LOr and _HIr; 15 Table 15-16; reset 0, D -/
  cqBase : Nat := 0
  /-- [1] HIF_CQ_CFGr.ENABLE; 15 Table 15-16; reset 0, V -/
  cqEn : Bool := false
  /-- [1] HIF_CQ_CFGr.IRQ_EN; 15 Table 15-16; reset 0, D -/
  irqEn : Bool := false
  /-- [5] HIF_CQ_CFGr.LOG2; 15 Table 15-16; reset 6, D -/
  cqLog2 : Nat := 6
  /-- [11] HIF_CQ_CFGr.VECTOR; 15 Table 15-16; reset 0, D -/
  vector : Nat := 0
  /-- [6] HIF_CQ_CFGr.COAL_COUNT; 15 Table 15-16; reset 0, D -/
  coalCount : Nat := 0
  /-- [8] HIF_CQ_CFGr.COAL_TIME; 15 Table 15-16; reset 0, D -/
  coalTime : Nat := 0
  /-- [16] head: index of the next descriptor to fetch; 15 R574; reset 0, V -/
  head : Nat := 0
  /-- [16] SQ_TAIL doorbell; 15 R572; reset 0, V -/
  tail : Nat := 0
  /-- completions written to the completion ring since the ring restarted; 15 R578; reset 0, V -/
  posted : Nat := 0
  /-- [16] CQ_HEAD doorbell; 15 R572; reset 0, V -/
  cqHead : Nat := 0
  /-- completions of the ring's life that the host has consumed; 15 R572, R579; reset 0, V -/
  consumed : Nat := 0
  /-- completions posted since the last signal that count; 15 R580; reset 0, V -/
  unsignalled : Nat := 0
  /-- tick of the first of them; 15 R580; reset 0, V -/
  firstUnsignalled : Tick := 0
  /-- outstanding FENCE of the ring; 15 R576; reset: none, V -/
  fence : Option Nat := none
  /-- [64] SLOT_SEL of doorbell page r; 15 R573; reset 0, V -/
  slotSel : Nat := 0
deriving DecidableEq, Repr

/-- Tenant group of the HIF_ block (15 Table 15-16). -/
structure DlvGroup where
  /-- [64] HIF_DLV_BASE_LOt and _HIt; 15 Table 15-16; reset 0, D -/
  base : Nat := 0
  /-- [1] HIF_DLV_CFGt.IRQ_EN; 15 Table 15-16; reset 0, D -/
  irqEn : Bool := false
  /-- [11] HIF_DLV_CFGt.VECTOR; 15 Table 15-16; reset 0, D -/
  vector : Nat := 0
  /-- [5] HIF_DLV_CFGt.BITS; 15 Table 15-16; reset 16, D -/
  ringBits : Nat := 16
  /-- [3] HIF_DLV_CFGt.LOG2; 15 Table 15-16; reset 3, D -/
  log2 : Nat := 3
  /-- [64] HIF_DLV_PROD_LOt and _HIt; 15 Table 15-16; reset 0, D -/
  prod : Nat := 0
  /-- [12] HIF_OUTMAXt.LIMIT; 15 Table 15-16; reset 0xF00, D -/
  outMax : Nat := 0xF00
  /-- [64] packets written for the tenant; 15 R588; reset 0 -/
  written : Nat := 0
deriving DecidableEq, Repr

/-- One command that the host interface has fetched (15 R575, Table 15-5). -/
structure HCmd where
  /-- model's identifier of the command, in order of fetching -/
  id : Nat
  /-- submission ring -/
  ring : Nat := 0
  /-- [32] TAG -/
  tag : Nat := 0
  /-- tenant of the ring -/
  tenant : Nat := 0
  /-- [8] OPCODE -/
  opcode : Nat := 0
  /-- the 64 bytes of the descriptor -/
  desc : List Byte := []
  /-- ACCEPT_TICK -/
  accept : Tick := 0
  /-- its own command row has run -/
  started : Bool := false
  /-- it counts in the general pool of R575 -/
  general : Bool := false
  /-- it counts as outstanding -/
  counted : Bool := true
deriving DecidableEq, Repr

/-- A completion that waits to be posted (15 R578). -/
structure Cpl where
  /-- the command -/
  id : Nat
  ring : Nat := 0
  tag : Nat := 0
  status : Nat := 0
  /-- command step (15 R586) -/
  step : Nat := 0
  accept : Tick := 0
  done : Tick := 0
  r0 : Nat := 0
  r1 : Nat := 0
  /-- NO_IRQ of the descriptor -/
  noIrq : Bool := false
deriving DecidableEq, Repr

/-- HIF_STATUS.STATE (15 Table 15-16). -/
inductive HifMode where
  | down | training | up
deriving DecidableEq, Repr

/-- The host interface (15 Table 15-16). -/
structure Hif where
  /-- [1] HIF_CTL.FETCH_EN; 15 Table 15-16; reset 0, V -/
  fetchEn : Bool := false
  /-- [4] HIF_STATUS.STATE; 15 Table 15-16; it reads FENCED while the device is quarantined (13 R507); reset 0x0 DOWN, V -/
  mode : HifMode := .down
  /-- [9] HIF_EVENT bits 8:0; 15 Table 15-16; reset 0, V -/
  event : Nat := 0
  /-- [8] HIF_LINK.WIDTH; 15 Table 15-16; reset 0, V -/
  linkWidth : Nat := 0
  /-- [8] HIF_LINK.SPEED; 15 Table 15-16; reset 0, V -/
  linkSpeed : Nat := 0
  /-- [2] HIF_LINK.CXL; 15 Table 15-16; reset 0, V -/
  linkCxl : Nat := 0
  /-- [1] HIF_LINK.FLIT; 15 Table 15-16; reset 0, V -/
  linkFlit : Bool := false
  /-- [1] HIF_LINK.UP; 15 Table 15-16; reset 0, V -/
  linkUp : Bool := false
  /-- [32] HIF_DROPPED; 15 Table 15-16; reset 0, D; wraps -/
  dropped : Nat := 0
  /-- [32] HIF_PAUSED; 15 Table 15-16; reset 0, D; wraps -/
  paused : Nat := 0
  /-- [1] HIF_EVENT_VECTOR.EN; 15 Table 15-16; reset 0, D -/
  evEn : Bool := false
  /-- [11] HIF_EVENT_VECTOR.VECTOR; 15 Table 15-16; reset 0, D -/
  evVector : Nat := 0
  /-- [6 each] HIF_T2_WIN0–7.BASE; 15 Table 15-16; reset 0, D -/
  t2win : List Nat := List.replicate 8 0
  /-- [32 each] HIF_KEY_DATA0–15; 15 Table 15-16; reset 0, V -/
  keyData : List Nat := List.replicate 16 0
  /-- [2] HIF_KEY_STATUS.RESULT; 15 Table 15-16; reset 0, V -/
  keyStatus : Nat := 0
  /-- ring pairs that differ from the reset ring, key ring number; 15 Table 15-16; reset: every ring at its reset values -/
  rings : Tab Ring := []
  /-- tenant groups that differ from the reset group, key tenant; 15 Table 15-16; reset: every group at its reset values -/
  dlv : Tab DlvGroup := []
  /-- fetched commands whose completion is not posted, in order of acceptance; 15 R575; reset: none -/
  cmds : List HCmd := []
  /-- completions that wait to be posted, in order of completion; 15 R579; reset: none -/
  done : List Cpl := []
  /-- identifier of the next fetched command: the model's own counter; reset 1 -/
  nextId : Nat := 1
  /-- ring whose turn it is, and descriptors taken in this turn; 15 R574; reset 0, V -/
  turn : Nat := 0
  /-- descriptors taken from that ring in this turn; 15 R574; reset 0, V -/
  taken : Nat := 0
  /-- locket handle of the session last served by delivery, key tenant; 11 R419; reset: none, V -/
  lastServed : Tab Nat := []
  /-- MSI-X vectors held while ISOLATED, oldest first; 13 R508; reset: none, V -/
  msixHeld : List Nat := []
  /-- MSI-X vectors signalled and not yet sent on by the link, oldest first; 15 R580; reset: none -/
  msix : List Nat := []
  /-- [128 each] MSI-X table entries written by the host; 15 Table 15-3; reset: DESIGN CHOICE 0, log 8 -/
  msixTable : Mem := []
deriving DecidableEq, Repr

/-! ## Strand (chapter 16) -/

/-- STD_STATUS.STATE (16 Table 16-21). -/
inductive StdMode where
  | enum | joining | prepared | member | quarantined
deriving DecidableEq, Repr

/-- Port states (16 Table 16-21). -/
inductive PortMode where
  | down | training | up | fenced | miswired
deriving DecidableEq, Repr

/-- One flit as its header and payload give it (16 Tables 16-2, 16-3). -/
structure Flit where
  /-- [4] KIND: 1 MSG, 2 UNIT -/
  kind : Nat := 1
  /-- [6] DEST -/
  dest : Nat := 0
  /-- [6] SRC -/
  src : Nat := 0
  /-- [16] EPOCH -/
  epoch : Nat := 0
  /-- [10] TENANT -/
  tenant : Nat := 0
  /-- [3] INDEX -/
  index : Nat := 0
  /-- [1] LAST -/
  last : Bool := true
  /-- [6] HOPS -/
  hops : Nat := 0
  /-- [12] XFER -/
  xfer : Nat := 0
  /-- PAYLOAD: 512 bytes; messages of 64 bytes for MSG -/
  payload : List Byte := []
  /-- [32] TARNISH -/
  tarnish : Nat := 0
  /-- it belongs to the reserve flow: a unit that a reserved Courier channel of this device sends; 11 R434 -/
  reserve : Bool := false
  /-- tick at which it joined its egress queue; 11 R435 -/
  queued : Tick := 0
deriving DecidableEq, Repr

/-- One Strand port and its STD_PORT registers (16 Table 16-10). -/
structure Port where
  /-- [4] STD_PORTn_STATUS.STATE; 16 Table 16-10; reset 0x0 DOWN, V -/
  mode : PortMode := .down
  /-- [4] STD_PORTn_STATUS.LANES; 16 Table 16-10; reset 0, V -/
  lanes : Nat := 0
  /-- [6] STD_PORTn_PARTNER.POSITION; 16 Table 16-10; reset 0, V -/
  partner : Nat := 0
  /-- [3] STD_PORTn_PARTNER.PORT; 16 Table 16-10; reset 0, V -/
  partnerPort : Nat := 0
  /-- [1] STD_PORTn_PARTNER.VALID; 16 Table 16-10; reset 0, V -/
  partnerValid : Bool := false
  /-- [32] STD_PORTn_CRC; 16 Table 16-10; reset 0, D; wraps -/
  crc : Nat := 0
  /-- [32] STD_PORTn_REPLAY; 16 Table 16-10; reset 0, D; wraps -/
  replays : Nat := 0
  /-- [32] STD_PORTn_DELAY; 16 Table 16-10; reset 0, V -/
  delay : Nat := 0
  /-- [8] SEQ of the next flit sent; 16 Table 16-2; reset 0, V -/
  txSeq : Nat := 0
  /-- [8] SEQ of the next flit expected; 16 R599; reset 0, V -/
  rxSeq : Nat := 0
  /-- a NAK is to be sent; 16 R599; reset 0, V -/
  nak : Bool := false
  /-- replay buffer: flits sent and not acknowledged, oldest first; 16 R599; reset: none, V -/
  replay : List Flit := []
  /-- flits of the replay buffer, its newest ones, that a NAK asks to be sent again; 16 R599; reset 0, V -/
  resend : Nat := 0
  /-- credits held for virtual channel 0; 16 R600; reset 64, V -/
  credit0 : Nat := 64
  /-- credits held for virtual channel 1; 16 R600; reset 1,024, V -/
  credit1 : Nat := 1024
  /-- buffers of virtual channel 0 freed here and not yet returned in CREDIT; 16 R600; reset 0, V -/
  owed0 : Nat := 0
  /-- buffers of virtual channel 1 freed here and not yet returned in CREDIT; 16 R600; reset 0, V -/
  owed1 : Nat := 0
  /-- bytes 0 to 531 of the last flit sent; 16 Table 16-2; reset: none, V -/
  sent : List Byte := []
  /-- unit whose flits are leaving, as (SRC, XFER); 16 R601; reset: none, V -/
  unit : Option (Nat × Nat) := none
  /-- flits that wait for the port, oldest first; 16 R601; reset: none, V -/
  queue : List Flit := []
  /-- tick at which the alternate use of the port last held a flit, by destination; 16 R614; reset: none, V -/
  altUse : Tab Tick := []
  /-- T1 of a delay measurement in progress, in 1/65,536 tick; 16 R619; reset: none, V -/
  delayReq : Option Nat := none
  /-- tick of the last delay measurement since training; 16 R619; reset: none, V -/
  lastDelay : Option Tick := none
  /-- tick of the last beacon received on the port; 16 R618; reset: none, V -/
  lastBeacon : Option Tick := none
  /-- [8] PORT_FENCE; 16 Table 16-8; reset 0, W -/
  fence : Nat := 0
  /-- tick the port last started training; 16 Table 16-1; reset 0, V -/
  since : Tick := 0
deriving DecidableEq, Repr

/-- A transfer to or from another device that is not finished (16 R602 to R605). -/
structure Xfer where
  /-- the other device's position -/
  peer : Nat
  /-- [12] transfer number -/
  num : Nat
  /-- OP of XFER_SETUP; 0x100 for a HOST_WRITE, 0x101 for a HOST_READ, 0x102 for an image -/
  op : Nat := 0
  /-- target address -/
  target : Nat := 0
  extent : Nat := 0
  /-- TOTAL_BYTES or BYTES -/
  total : Nat := 0
  cookie : Nat := 0
  /-- bytes of the finished units -/
  data : List Byte := []
  /-- tarnished blocks of 16 bytes -/
  tarnish : List Nat := []
  /-- next INDEX within the unit in progress -/
  nextIndex : Nat := 0
  /-- tick of its last flit -/
  last : Tick := 0
deriving DecidableEq, Repr

/-- A message that has arrived for this device and is not yet taken (16 Table 16-4). -/
structure Msg where
  /-- arrival port -/
  port : Nat := 0
  /-- SRC and EPOCH of its flit -/
  src : Nat := 0
  epoch : Nat := 0
  /-- the 64 bytes -/
  body : List Byte := []
deriving DecidableEq, Repr

/-- A membership change that this device coordinates (16 R621). -/
structure MemberChange where
  /-- [16] the new epoch -/
  epoch : Nat
  /-- [64] the new set -/
  set : Nat
  /-- [64] positions whose ACK has arrived -/
  acks : Nat := 0
  since : Tick := 0
deriving DecidableEq, Repr

/-- The prepared epoch of a device in PREPARED (16 Table 16-6). -/
structure Prepared where
  /-- [16] e′ -/
  epoch : Nat
  /-- [64] set held -/
  set : Nat
  /-- [6] coordinator -/
  coord : Nat
  /-- the former state was MEMBER (otherwise JOINING) -/
  wasMember : Bool
  since : Tick := 0
deriving DecidableEq, Repr

/-- The Strand block, its registers and entries (16 Tables 16-8 to 16-10). -/
structure Std where
  /-- [1] STD_CTL.ROUTE_EN; 16 Table 16-10; reset 0, V -/
  routeEn : Bool := false
  /-- [1] STD_STATUS.TAIL; 16 Table 16-10; reset 0, D -/
  tail : Bool := false
  /-- [4] STD_STATUS.STATE and STRAND_STATE; 16 Table 16-10; reset 0x1 ENUM, D -/
  mode : StdMode := .enum
  /-- [7] STD_EVENT bits 6:0; 16 Table 16-10; reset 0, V -/
  event : Nat := 0
  /-- [7] STD_POS.COUNT and COUNT entry; 16 Table 16-10; reset 0, D -/
  count : Nat := 0
  /-- STD_POS.VALID and POSITION, held by the chain logic; 16 R608; reset: none, W -/
  position : Option Nat := none
  /-- ENUM_IN held at logic 0: the device is the head; 16 R607; reset: DESIGN CHOICE 0, log 9 -/
  enumLow : Bool := false
  /-- [32] last valid ENUM word; 16 R608; reset: none, W -/
  lastWord : Option Nat := none
  /-- tick the position was adopted; 16 R610; reset 0 -/
  adoptedAt : Tick := 0
  /-- tick of the last ENUM word sent; 16 R607; reset 0 -/
  lastEnum : Tick := 0
  /-- ENUM words sent on ENUM_OUT, newest last; 16 R607; reset: none -/
  enumOut : List Nat := []
  /-- the tail's or a relay's CHAIN_COUNT has been sent; 16 R610; reset 0 -/
  countSent : Bool := false
  /-- [16] STD_EPOCH.CURRENT; 16 Table 16-10; reset 0, D -/
  epoch : Nat := 0
  /-- STD_EPOCH.PREPARED with its set and coordinator; 16 Table 16-6; reset: none, D -/
  prepared : Option Prepared := none
  /-- [64] STD_MEMBERS; 16 Table 16-10; reset 0, D -/
  members : Nat := 0
  /-- [32] STD_MEMBERS_HI latch; 16 Table 16-10; reset 0, V -/
  membersLatch : Nat := 0
  /-- STD_BUDDY.VALID and POSITION; 16 Table 16-10; reset: none, D -/
  buddy : Option Nat := none
  /-- [64] STD_DEVID and DEVICE_ID; 16 Table 16-8; reset fused, N: DESIGN CHOICE 0, log 10 -/
  deviceId : Nat := 0
  /-- [32] STD_DEVID_HI latch; 16 Table 16-10; reset 0, V -/
  devidLatch : Nat := 0
  /-- [8] HOST_MODE entry; 16 Table 16-8; reset 0, N -/
  hostMode : Nat := 0
  /-- HIF_CTL.MODE: host mode in force since bring-up; 16 R563; reset from HOST_MODE, N -/
  modeInForce : Nat := 0
  /-- [64] STD_OFFSET, two's complement, in 1/65,536 tick; 16 Table 16-10; reset 0, D -/
  offset : Int := 0
  /-- [32] STD_OFFSET_HI latch; 16 Table 16-10; reset 0, V -/
  offsetLatch : Nat := 0
  /-- tick of the last beacon of the current epoch, from which STD_BEACON_AGE is read; 16 Table 16-10; reset 0, V -/
  lastBeacon : Tick := 0
  /-- [32] SEQ of the last beacon passed on; 16 R617; reset: none, V -/
  seenSeq : Option Nat := none
  /-- [32] SEQ of the next beacon a master sends; 16 R616; reset 0, V -/
  nextSeq : Nat := 0
  /-- tick of the last beacon sent as master; 16 R616; reset 0, V -/
  lastSent : Tick := 0
  /-- [64] FRAME of the last beacon with a nonzero FRAME from which time was taken; 16 R618; reset 0, V -/
  beaconFrame : Nat := 0
  /-- [64] MERIDIAN of that beacon; 16 R616; reset 0, V -/
  beaconMeridian : Nat := 0
  /-- tick of that beacon's arrival; 10 R411; reset: none, V -/
  frameAt : Option Tick := none
  /-- port that time is taken from since TIME_PORT was lost; 16 R618; reset: none, V -/
  timeFrom : Option Nat := none
  /-- [32] STD_UNROUTABLE; 16 Table 16-10; reset 0, D; wraps -/
  unroutable : Nat := 0
  /-- [32] STD_STALE_SENT; 16 Table 16-10; reset 0, D; wraps -/
  staleSent : Nat := 0
  /-- tick of the last STALE notice by sender; 13 R506; reset: none, V -/
  staleAt : Tab Tick := []
  /-- [8] MEMBER_RESULT; 16 Table 16-8; reset 0, V -/
  result : Nat := 0
  /-- [64] MEMBER_MISSING; 16 Table 16-8; reset 0, V -/
  missing : Nat := 0
  /-- membership change coordinated here; 16 R621; reset: none, V -/
  change : Option MemberChange := none
  /-- PREPARE, COMMIT, ABORT already passed on, as kind · 2^24 + epoch · 2^8 + coordinator; 16 R621; reset: none, V -/
  passedOn : List Nat := []
  /-- [8] BUDDY_OVERRIDE; 16 Table 16-8; reset 0xFF, D -/
  buddyOverride : Nat := 0xFF
  /-- [8] TIME_PORT; 16 Table 16-8; reset 0, D -/
  timePort : Nat := 0
  /-- [8] CHAIN_ONLY; 16 Table 16-8; reset 1, D -/
  chainOnly : Nat := 1
  /-- [32 each] ROUTE[0..63] as written; 16 Table 16-8; reset 0x0000_00FF, D -/
  route : List Nat := List.replicate 64 0xFF
  /-- [32 each] routing table in effect since CHAIN_ONLY was last written with 0; 16 R612; reset 0x0000_00FF, D -/
  routeActive : List Nat := List.replicate 64 0xFF
  /-- the eight ports; 16 R596; reset: DOWN -/
  ports : List Port := List.replicate 8 {}
  /-- messages that have arrived and are not yet taken, oldest first; 16 R603; reset: none, V -/
  inbox : List Msg := []
  /-- transfers received here and not finished; 16 R605; reset: none, V -/
  inXfers : List Xfer := []
  /-- transfers sent from here and not finished; 16 R605; reset: none, V -/
  outXfers : List Xfer := []
  /-- [12] next transfer number by destination; 16 R604; reset 0, V -/
  nextXfer : Tab Nat := []
  /-- forwarded host reads awaiting FWD_CPL, as (tag, position, width); 16 R615; reset: none, V -/
  fwdReads : List (Nat × Nat × Nat) := []
  /-- [16] next forward tag; 16 Table 16-4; reset 0, V -/
  nextTag : Nat := 0
  /-- flits of units whose announcing message has arrived and is not yet taken; 16 R605; reset: none, V -/
  early : List Flit := []
deriving DecidableEq, Repr

/-! ## Lantern, power and bring-up (chapters 17 and 18) -/

/-- POWER_STATE values (17 Table 17-12). -/
inductive Power where
  | active | dusk | twilight | night | boot
deriving DecidableEq, Repr

/-- Who asked for an Almanac request (17 R633, R636). -/
inductive Requester where
  | sideband (mac : Nat) | mailbox | firmware
deriving DecidableEq, Repr

/-- One Almanac request that waits or executes (17 R634, Table 17-2). -/
structure Req where
  /-- requester -/
  from_ : Requester
  /-- sent to the broadcast address -/
  broadcast : Bool := false
  /-- PDU header and data -/
  pdu : List Byte := []
  /-- tick it reached Lantern -/
  since : Tick := 0
deriving DecidableEq, Repr

/-- A read snapshot (17 R638). -/
structure Snap where
  /-- requester -/
  from_ : Requester
  /-- index · 256 + subindex -/
  entry : Nat
  value : List Byte
  /-- tick it was taken -/
  tick : Tick
deriving DecidableEq, Repr

/-- A frame that waits for the sideband: destination and PDU (17 R632). -/
structure TxFrame where
  dest : Nat
  pdu : List Byte
  /-- what its leaving sets off: 0 nothing, 1 NODE_ID (17 R654), 2 RESET_REQ (17 R656) -/
  act : Nat := 0
deriving DecidableEq, Repr

/-- Reset classes of Table 18-7 that a request names. -/
inductive ResetKind where
  | device | warm | cold
deriving DecidableEq, Repr

/-- Progress of a Setting image (18 R669, R671). -/
inductive ImagePhase where
  | none | verifying (offset : Nat) (run : Bool) | verified | starting (since : Tick) | running
deriving DecidableEq, Repr

/-- Staged values of the RWL entries (17 Table 17-9, 17-10, 14 Table 14-11). -/
structure Staged where
  /-- [32] LOCKET_MAX; 17 Table 17-9; reset 4,194,304, D -/
  locketMax : Nat := 4194304
  /-- [32] CHARM_MAX; 17 Table 17-9; reset 65,536, D -/
  charmMax : Nat := 65536
  /-- [8 each] the ten switches 0x2100:01–0A; 17 Table 17-9; reset 1, D -/
  switches : List Nat := List.replicate 10 1
  /-- [32 each] ARENA_MIB of stacks 0–7; 17 Table 17-9; reset 1,024, D -/
  arenaMib : List Nat := List.replicate 8 1024
  /-- [32 each] POOL_PAGES of stacks 0–7; 17 Table 17-9; reset 262,144, D -/
  poolPages : List Nat := List.replicate 8 262144
  /-- [8] CKPT_PERCENT; 17 Table 17-10; reset 25, D -/
  ckptPercent : Nat := 25
  /-- [16] CAPTURE_BUF; 14 Table 14-11; reset 256, D -/
  captureBuf : Nat := 256
deriving DecidableEq, Repr

/-- Lantern: entries, supervision, Setting image and resets (chapters 17 and 18). -/
structure Lan where
  /-- always-on rails within limits; 18 Table 18-3; reset 1 -/
  alwaysOn : Bool := true
  /-- REFCLK present; 01 R39; reset 1 -/
  refclk : Bool := true
  /-- the core domain is out of reset; 18 Table 18-3, 19 R703; reset 0: held until RAILS_PG is checked -/
  coreUp : Bool := false
  /-- tick at which RAILS_PG is checked; none once checked; 18 Table 18-3, 19 R703; reset 220,000 -/
  pgAt : Option Tick := some 220000
  /-- RAIL_EN output and the VCORE power mode; 19 R702, R706; reset 1, log 46 -/
  railEn : Bool := true
  /-- RAILS_PG input as last seen; 19 R703; reset: DESIGN CHOICE 1, log 11 -/
  railsPg : Bool := true
  /-- PERST_N input asserted; 18 Table 18-7; reset: DESIGN CHOICE asserted, log 11 -/
  perst : Bool := true
  /-- tick of the last power-up start (tick 0 of Table 18-3); 18 R664; reset 0 -/
  powerUpAt : Tick := 0
  /-- [8] POWER_STATE; 17 Table 17-12; reset 4 BOOT, V -/
  power : Power := .boot
  /-- [8] LAST_RESET; 17 Table 17-12; reset 0, W -/
  lastReset : Nat := 0
  /-- [32] RESET_COUNT; 17 Table 17-12; reset 0, W; wraps -/
  resetCount : Nat := 0
  /-- reset asked for by RESET_REQ, and the tick it begins once its response has left; 17 R656; reset: none -/
  resetDue : Option (ResetKind × Option Tick) := none
  /-- [16] WDT_PERIOD; 17 Table 17-12; reset 0, W -/
  wdtPeriod : Nat := 0
  /-- [8] WDT_ACTION; 17 Table 17-12; reset 1, W -/
  wdtAction : Nat := 1
  /-- [32] WDT_EXPIRIES; 17 Table 17-12; reset 0, W; wraps -/
  wdtExpiries : Nat := 0
  /-- tick of the last kick while the watchdog runs; none while it is stopped; 17 R657; reset: stopped -/
  wdtKick : Option Tick := none
  /-- [32] TEMP_MAX in 1/16 °C, two's complement; 18 Table 18-1; reset measured, W: DESIGN CHOICE 0, log 12 -/
  tempMax : Int := 0
  /-- [8] TEMP_SENSOR; 18 Table 18-1; reset measured, W: DESIGN CHOICE 0, log 12 -/
  tempSensor : Nat := 0
  /-- the 24 sensor readings; 18 R692; reset measured: DESIGN CHOICE 0, log 12 -/
  sensors : List Int := List.replicate 24 0
  /-- consecutive readings of each sensor at or above TRIP_LIMIT; 18 R693; reset 0 -/
  tripRun : List Nat := List.replicate 24 0
  /-- [32] WARN_LIMIT; 18 Table 18-1; reset 1,600, W -/
  warnLimit : Nat := 1600
  /-- [32] TRIP_LIMIT; 18 Table 18-1; reset 1,840, W -/
  tripLimit : Nat := 1840
  /-- [8] TRIPPED; 18 Table 18-1; reset 0, W -/
  tripped : Bool := false
  /-- [32] TRIP_COUNT; 18 Table 18-1; reset 0, W; wraps -/
  tripCount : Nat := 0
  /-- [32] WARN_COUNT; 18 Table 18-1; reset 0, W; wraps -/
  warnCount : Nat := 0
  /-- THERMTRIP_N asserted; 18 R693, R694; reset 0 -/
  thermtrip : Bool := false
  /-- tick of the last sensor reading; 18 R692; reset 0 -/
  lastTemp : Tick := 0
  /-- [16] VCORE_SET in mV; 18 Table 18-1; reset 780, W -/
  vcoreSet : Nat := 780
  /-- VCORE setpoint last sent to the regulator, in mV; 19 R706; reset 780 -/
  vcoreSent : Nat := 780
  /-- [16] VCORE_READ; 18 Table 18-1; reset measured, W: DESIGN CHOICE 0, log 12 -/
  vcoreRead : Nat := 0
  /-- [16] IOUT_READ; 18 Table 18-1; reset measured, W: DESIGN CHOICE 0, log 12 -/
  ioutRead : Nat := 0
  /-- tick of the last AVSBus poll; 19 R706; reset 0 -/
  lastAvs : Tick := 0
  /-- tick the supply became low; none while it is not low; 18 R687; reset: not low -/
  lowSince : Option Tick := none
  /-- tick since which VCORE has held at or above WARN_MV after a controlled stop; 18 R690; reset: none -/
  goodSince : Option Tick := none
  /-- a controlled stop holds the device; 18 R690; reset 0 -/
  stopped : Bool := false
  /-- [32] FREEZES; 18 Table 18-1; reset 0, W; wraps -/
  freezes : Nat := 0
  /-- [32] STOPS; 18 Table 18-1; reset 0, W; wraps -/
  stops : Nat := 0
  /-- [8] POWER_REQ; 18 Table 18-1; reset 0, W -/
  powerReq : Nat := 0
  /-- tick since which the conditions of R681 have held; 18 R681; reset: none -/
  idleSince : Option Tick := none
  /-- tick of a POWER_REQ write whose transition is in progress; 18 R682; reset: none -/
  transition : Option Tick := none
  /-- [8] DIE_REV; 17 Table 17-8; reset fused, N: DESIGN CHOICE 0, log 10 -/
  dieRev : Nat := 0
  /-- [256] TRAY_SERIAL; 17 Table 17-8; reset board identity, N: DESIGN CHOICE zero bytes, log 10 -/
  traySerial : List Byte := List.replicate 32 0#8
  /-- [8] TRAY_SLOT; 17 Table 17-8; reset board identity, N: DESIGN CHOICE 0, log 10 -/
  traySlot : Nat := 0
  /-- [32] SETTING_SVN; 17 Table 17-8; reset 0, D -/
  settingSvn : Nat := 0
  /-- [32] FUSED_SVN; 17 Table 17-8; reset fused, N: DESIGN CHOICE 0, log 10 -/
  fusedSvn : Nat := 0
  /-- [384] fused key hash; 18 R667; reset fused, N: DESIGN CHOICE 0, log 10 -/
  fusedKeyHash : Nat := 0
  /-- [8] NODE_ID; 17 Table 17-8; reset board identity, else 0xFF, N -/
  nodeId : Nat := 0xFF
  /-- [8] LAN_STATUS.NODE_ID in force; 17 Table 17-15; reset from NODE_ID, N -/
  nodeInForce : Nat := 0xFF
  /-- [48] EVENT_DEST; 17 Table 17-8; reset 0, W -/
  eventDest : Nat := 0
  /-- [32] SB_FRAMES; 17 Table 17-8; reset 0, W; wraps -/
  sbFrames : Nat := 0
  /-- [32] SB_ERRORS; 17 Table 17-8; reset 0, W; wraps -/
  sbErrors : Nat := 0
  /-- [32] SB_COLLISIONS; 17 Table 17-8; reset 0, W; wraps -/
  sbCollisions : Nat := 0
  /-- [8] CXL_EN; 17 Table 17-8; reset 0, N -/
  cxlEn : Nat := 0
  /-- [16] SEQ of the next EVENT frame; 17 R641; reset 0 -/
  eventSeq : Nat := 0
  /-- watched entries that have changed and whose EVENT frame is not yet formed: (entry, value); 17 R641; reset: none -/
  events : List (Nat × List Byte) := []
  /-- requests waiting, at most 16, oldest first; 17 R636; reset: none -/
  queue : List Req := []
  /-- a NODE_ID written and not yet in force: whether its response has left; 17 R654; reset: none -/
  nodeDue : Option Bool := none
  /-- read snapshots, one per requester; 17 R638; reset: none -/
  snaps : List Snap := []
  /-- frames that wait for a transmit opportunity, oldest first; 17 R632; reset: none -/
  tx : List TxFrame := []
  /-- frames sent on the sideband, newest last; 17 R632; reset: none -/
  sent : List TxFrame := []
  /-- [1048 bytes] LAN_MBOX0–261; 17 Table 17-15; reset 0, V -/
  mbox : List Byte := List.replicate 1048 0#8
  /-- [1] LAN_MBOX_CTL.BUSY; 17 Table 17-15; reset 0, V -/
  mboxBusy : Bool := false
  /-- [1] LAN_MBOX_CTL.DONE; 17 Table 17-15; reset 0, V -/
  mboxDone : Bool := false
  /-- [32] IMAGE_OFFSET; 17 Table 17-8; reset 0, V -/
  imageOffset : Nat := 0
  /-- staging area of control SRAM, 3 MiB; 18 R673; reset: cleared by the boot ROM -/
  staging : Mem := []
  /-- what the Setting image is doing; 18 R669, R671; reset: none -/
  phase : ImagePhase := .none
  /-- running image as downloaded; 18 R675; reset: none, D -/
  image : List Byte := []
  /-- parure trust list of the running image, entries below TRUST_COUNT as (X, Y); 18 R668; reset: none, D -/
  trust : List (Nat × Nat) := []
  /-- [24] boot nonce of this start; 08 R312; reset 0, D -/
  bootNonce : Nat := 0
  /-- [24] last nonce; 08 R312; reset 0, W -/
  lastNonce : Nat := 0
  /-- [40] extent counter; 08 R312; reset 0, D -/
  extentCount : Nat := 0
  /-- how many entropy values have been drawn: the model's own counter, log 3; reset 0 (DESIGN CHOICE) -/
  entropyUsed : Nat := 0
  /-- crash-log records of Table 13-7, at most 64, oldest first; 13 R515; reset: none, W -/
  crashLog : List FaultRec := []
  /-- [32] CRASH_COUNT; 17 Table 17-11; reset 0, W; wraps -/
  crashCount : Nat := 0
  /-- [144] RETIRED; 17 Table 17-11; reset board identity, N: DESIGN CHOICE 0, log 10 -/
  retired : Nat := 0
  /-- quarantine mark; 13 R507; reset 0, N -/
  quarantine : Bool := false
  /-- serial numbers of the coffers mounted since a REJOIN; none where there was none; 13 R509; reset: none, N -/
  remounted : Option (List Nat) := none
  /-- [8] CONFIG_STATE; 17 Table 17-9; reset 0 OPEN, D -/
  committed : Bool := false
  /-- [32] CONFIG_ERROR; 17 Table 17-9; reset 0, V -/
  configError : Nat := 0
  /-- staged RWL values; 17 Table 17-9 -/
  staged : Staged := {}
  /-- committed RWL values; 17 R651; reset: the defaults, D -/
  config : Staged := {}
  /-- [32] T2_UNITS; 17 Table 17-10; reset 0, D -/
  t2Units : Nat := 0
  /-- LPDDR fitted on the board: GEN, GIB, MTS of its board identity; 09 R335; reset: DESIGN CHOICE none, log 10 -/
  boardT2 : Nat × Nat × Nat := (0, 0, 0)
  /-- PWR_WARN_N input asserted; 18 R687; reset 0 -/
  pwrWarn : Bool := false
deriving DecidableEq, Repr

end Sys2Proof.Machine
end

