-- ==== Sys2Proof/Machine/State.lean ====
section
/-!
DEFINITION. Sys2Proof/Machine/State.lean: the state of the block as plain data, the reasons a step can stop, and the state after reset.
-/
namespace Sys2Proof.Machine

/-- The answer to one host read of the device: its data, with a poisoned or an unsupported outcome (15 R569). -/
structure Reply where
  /-- completed with Unsupported Request -/
  ur : Bool := false
  /-- data carried poison (13 R488) -/
  poison : Bool := false
  data : List Byte := []
deriving DecidableEq, Repr

/-- The state of the block: the queue of waiting commands and every unit's state. -/
structure State where
  /-- commands that wait, first in, first out: the model's own queue; reset: empty -/
  pending : List Instr := []
  /-- [64] timebase; 00 R15, R16; reset 0 at power-on, kept over every other reset -/
  now : Tick := 0
  /-- issue unit and Orrery; 03 -/
  ory : Ory := {}
  /-- the 144 physical cells; 03 R76 -/
  cells : List Cell := List.replicate 144 {}
  /-- Loupe; 03 R113 -/
  lpe : Lpe := {}
  /-- load slots that are not FREE, key 0–15; 04 R154; reset: every slot FREE -/
  parures : Tab Parure := []
  /-- Astrolabe; 05 -/
  ast : Ast := {}
  /-- sampler; 06 -/
  smp : Smp := {}
  /-- Filigree; 07 -/
  fil : Fil := {}
  /-- stream unit; 07 -/
  stm : Stm := {}
  /-- locket directory, key locket handle; 08 R285; reset: empty -/
  lockets : Tab Locket := []
  /-- charm table, key charm index; 08 R314; reset: empty -/
  charms : Tab Charm := []
  /-- facets; 04 R159; reset: none -/
  facets : List Facet := []
  /-- tenant keys, key tenant; 08 R309; reset: none, D -/
  keys : Tab TenantKeys := []
  /-- T1 bytes by T1 address; 09 R327; reset: DESIGN CHOICE zero, log 5 -/
  t1 : Mem := []
  /-- T2 and T3 extents that this device knows, key extent identifier; 09 R339; reset: none -/
  extents : Tab Extent := []
  /-- HBM stack controllers 0–7; 09 Table 9-13 -/
  hbc : List Hbc := List.replicate 8 {}
  /-- LPDDR controllers 0–3; 09 R375, Table 9-13 -/
  lpc : List Lpc := List.replicate 4 {}
  /-- Courier; 09 -/
  cur : Cur := {}
  /-- coffer bays 0–3; 09 -/
  bays : List Bay := List.replicate 4 {}
  /-- Ephemeris, contexts and jobs; 10 -/
  eph : Eph := {}
  /-- schedulers, buckets and sampling; 11 -/
  traffic : Traffic := {}
  /-- collections, key 0–255; 12 R441; reset: none, D -/
  colls : Tab Coll := []
  /-- SEARCH commands in progress; 12 R460; reset: none, V -/
  searches : List Search := []
  /-- SELECT commands in progress; 12 R470; reset: none, V -/
  selects : List Select := []
  /-- Sieve units 0–7; 12 -/
  sieves : List Siv := List.replicate 8 {}
  /-- integrity unit; 13 -/
  integ : Integ := {}
  /-- checkpoints; 14 -/
  ckpt : Ckpt := {}
  /-- host interface; 15 -/
  hif : Hif := {}
  /-- Strand; 16 -/
  std : Std := {}
  /-- Lantern; 17, 18 -/
  lan : Lan := {}
  /-- host memory as this device has written it; 15 R561; reset: DESIGN CHOICE zero, log 8 -/
  hostMem : Mem := []
  /-- answers to host reads, newest last; 15 R569; reset: none -/
  replies : List Reply := []
deriving DecidableEq, Repr

/-- Reasons a command can stop the block. -/
inductive Fault where
  /-- An operand names a port, bay, stack, unit or ring that does not exist, or has a length that no sender can form (WellFormed.lean).
  Raised by the meanings of the commands whose operands WellFormed.lean bounds. Safe: no such event exists. -/
  | illFormed
deriving DecidableEq, Repr

/-- Reasons a command has no meaning. -/
inductive Refusal where
  /-- The command of this mnemonic is not modelled. Raised by an arm of exec only. Safe. -/
  | notModelled (mnemonic : String)
deriving DecidableEq, Repr

/-- The outcome of a command. -/
abbrev Out := Host.Outcome State Fault Refusal

/-- The block right after power-on and reset, in BOOT, as 17 Table 17-6 and the Reset columns give it; every other field is its default. -/
def State.reset : State := {}

end Sys2Proof.Machine
end

