-- ==== Sys2Proof/Machine/Clock.lean ====
section
/-!
DEFINITION. Sys2Proof/Machine/Clock.lean: the timebase (00 R15, R16).
-/
namespace Sys2Proof.Machine

/-- The conditions under which DUSK is entered once they have held for 100,000 ticks (18 R681). -/
def restful (s : State) : Bool := s.lan.power == .active && (s.eph.active.isNone || !s.eph.enable) && s.eph.jobs.isEmpty

/-- One tick: the 64-bit timebase counts while REFCLK is present and the always-on rails are up, and ORY_WAIT counts it while the issue unit holds
(00 R16, 01 R39, 03 R95, 18 R681; log 1). -/
def tick (s : State) : State :=
  if s.lan.alwaysOn && s.lan.refclk then
    { s with now := (s.now + 1) % 2 ^ 64, ory := { s.ory with wait := if s.ory.hold then (s.ory.wait + 1) % 2 ^ 64 else s.ory.wait }
             lan := { s.lan with idleSince := if restful s then some (s.lan.idleSince.getD s.now) else none } }
  else s

end Sys2Proof.Machine
end

