-- ==== Sys2Proof/Machine/Code.lean ====
section
/-!
DEFINITION. Sys2Proof/Machine/Code.lean: the (144,128) code of chapter 13 (R478 to R483): the field GF(16), the code columns, the syndrome, the writer's
check symbols and the reader's classification. A codeword is the number of its 144 bits.
-/
namespace Sys2Proof.Machine

/-- Addition in GF(16) (13 R480). -/
def gf16Add (a b : Nat) : Nat := a ^^^ b

/-- Multiplication by x in GF(16) on the polynomial x⁴ + x + 1 (13 R479). -/
def gf16Double (a : Nat) : Nat := if 8 ≤ a % 16 then (2 * a % 16) ^^^ 3 else 2 * a % 16

/-- Multiplication in GF(16): bit i of a symbol is the coefficient of xⁱ (13 R479). -/
def gf16Mul (a b : Nat) : Nat :=
  let t1 := gf16Double a
  let t2 := gf16Double t1
  let t3 := gf16Double t2
  (if bitAt b 0 then a % 16 else 0) ^^^ (if bitAt b 1 then t1 else 0) ^^^ (if bitAt b 2 then t2 else 0) ^^^ (if bitAt b 3 then t3 else 0)

/-- The inverse of a nonzero element: its fourteenth power. -/
def gf16Inv (a : Nat) : Nat :=
  let a2 := gf16Mul a a
  let a4 := gf16Mul a2 a2
  let a8 := gf16Mul a4 a4
  gf16Mul a8 (gf16Mul a4 a2)

/-- Division in GF(16). -/
def gf16Div (a b : Nat) : Nat := gf16Mul a (gf16Inv b)

/-- Four field elements: a code column or a syndrome. -/
abbrev Gf4 := Nat × Nat × Nat × Nat

/-- Sum of two vectors. -/
def gf4Add (u v : Gf4) : Gf4 := (u.1 ^^^ v.1, u.2.1 ^^^ v.2.1, u.2.2.1 ^^^ v.2.2.1, u.2.2.2 ^^^ v.2.2.2)

/-- A vector times an element. -/
def gf4Scale (k : Nat) (v : Gf4) : Gf4 := (gf16Mul k v.1, gf16Mul k v.2.1, gf16Mul k v.2.2.1, gf16Mul k v.2.2.2)

/-- The form a·a + a·b + λ·b·b with λ = 0x8 (13 Table 13-1). -/
def quadric (a b : Nat) : Nat := gf16Mul a a ^^^ gf16Mul a b ^^^ gf16Mul 8 (gf16Mul b b)

/-- The pair (a, b) of a symbol's column; none for check symbol 35 (13 Table 13-1). -/
def columnPair (s : Nat) : Option (Nat × Nat) :=
  if s < 16 then some (s, 2) else if s < 32 then some (s - 16, 3) else if s = 32 then some (0, 0) else if s = 33 then some (1, 0)
  else if s = 34 then some (0, 1) else none

/-- The column h_s of a symbol (13 Table 13-1). -/
def column (s : Nat) : Gf4 := match columnPair s with | some (a, b) => (1, a, b, quadric a b) | none => (0, 0, 0, 1)

/-- Symbol s of a word: bits [4s+3:4s] (13 R478). -/
def symbolOf (v s : Nat) : Nat := v / 16 ^ s % 16

/-- Σ v_s · h_s over the symbols below n. -/
def columnSum (v : Nat) : Nat → Gf4
  | 0 => (0, 0, 0, 0)
  | n + 1 => gf4Add (columnSum v n) (gf4Scale (symbolOf v n) (column n))

/-- The syndrome of a 144-bit word (13 R479). -/
def syndrome (v : Nat) : Gf4 := columnSum v 36

/-- The codeword of 128 data bits with the check symbols that a writer forms (13 R480). -/
def encode (data : Nat) : Nat :=
  let d := columnSum (data % 2 ^ 128) 32
  let v33 := d.2.1
  let v34 := d.2.2.1
  let v32 := d.1 ^^^ d.2.1 ^^^ d.2.2.1
  let v35 := d.2.2.2 ^^^ d.2.1 ^^^ gf16Mul 8 d.2.2.1
  data % 2 ^ 128 + (v32 + 16 * v33 + 256 * v34 + 4096 * v35) * 2 ^ 128

/-- What a reader makes of a word (13 R481). -/
inductive Reading where
  | clean | corrected (word : Nat) | tarnish | uncorrectable
deriving DecidableEq, Repr

/-- A word with symbol s changed by an error value. -/
def fixSymbol (v s e : Nat) : Nat := v ^^^ (e * 16 ^ s)

/-- The reader's classification of a word (13 R481). -/
def classify (v : Nat) : Reading :=
  let t := syndrome v
  if t = (0, 0, 0, 0) then .clean
  else if t.1 = 0 then (if t.2.1 = 0 && t.2.2.1 = 0 then .corrected (fixSymbol v 35 t.2.2.2) else .uncorrectable)
  else
    let a := gf16Div t.2.1 t.1
    let b := gf16Div t.2.2.1 t.1
    if gf16Div t.2.2.2 t.1 ≠ quadric a b then .uncorrectable
    else if a = 0 && b = 4 then .tarnish
    else match (List.range 35).find? (fun s => columnPair s == some (a, b)) with
      | none => .uncorrectable
      | some s => .corrected (fixSymbol v s t.1)

/-- The canonical tarnish codeword: data bits 0, check bits 0xD405 (13 R482). -/
def tarnishWord : Nat := 0xD405 * 2 ^ 128

end Sys2Proof.Machine
end

