-- ==== Sys2Proof/Config.lean ====
section
/-!
DEFINITION. Sys2Proof/Config.lean: the open values of the manual. Each is an opaque constant without a body, so no
proof can see a value of it; the assumption log names each.
-/
namespace Sys2Proof

/-- OPEN VALUE (log 3, DESIGN CHOICE, safe). The 24-bit boot nonce that 08 R312 takes from an entropy source: the n-th value drawn. -/
opaque Config.entropy : Nat → BitVec 24

/-- OPEN VALUE (log 4, DESIGN CHOICE, safe). The sign of the minimum (false) or maximum (true) of two zeros of different sign on the vector path, given the
signs of the operands: 02 R64 does not state it. True is negative. -/
opaque Config.zeroSign : Bool → Bool → Bool → Bool

/-- OPEN VALUE (log 51, DESIGN CHOICE, safe). A byte of the activations that the first sweep of a program reads for a position: how symbols become
activations is the compiler's and the spec does not give it. The value depends on what 02 R56 lists and on nothing else: the parure hash, the
sweep, the session's symbols up to the position, the facet hash, and the number of the byte in the row. -/
opaque Config.inputByte : Nat → Nat → List Sym → Nat → Nat → Byte

/-- OPEN VALUE (log 30, DESIGN CHOICE, safe). What an epilogue op reads from a vector register that no op of its tile has written. By 02 R56 it
may depend on the parure, the sweep, the symbols up to the position and the facet, besides the chunk, the register and the lane (the number). -/
opaque Config.freeLane : Nat → Nat → List Sym → Nat → Nat → W32

/-- OPEN VALUE (log 38, DESIGN CHOICE, safe). The header unit of a cut extent, whose layout the spec does not give (14 R529, Timing and sizing). -/
opaque Config.cutHeader : Nat → List Byte

/-- OPEN VALUE (log 67, DESIGN CHOICE, safe). The check bytes of the CFC's own error-correcting code over a frame: 09 R356 leaves the code to the CFC. -/
opaque Config.frameCode : List Byte → List Byte

end Sys2Proof
end

