-- ==== Sys2Proof/Machine/Net.lean ====
section
/-!
DEFINITION. Sys2Proof/Machine/Net.lean: unit-wise updates of the state, and sending over the Strand: routing, messages and transfers
(16 R602 to R604, R612 to R615).
-/
namespace Sys2Proof.Machine

/-- The state with the host interface changed. -/
def State.hifM (s : State) (f : Hif → Hif) : State := { s with hif := f s.hif }

/-- The state with the Strand block changed. -/
def State.stdM (s : State) (f : Std → Std) : State := { s with std := f s.std }

/-- The state with Lantern changed. -/
def State.lanM (s : State) (f : Lan → Lan) : State := { s with lan := f s.lan }

/-- The state with the integrity unit changed. -/
def State.integM (s : State) (f : Integ → Integ) : State := { s with integ := f s.integ }

/-- The state with the Courier changed. -/
def State.curM (s : State) (f : Cur → Cur) : State := { s with cur := f s.cur }

/-- The state with the Ephemeris changed. -/
def State.ephM (s : State) (f : Eph → Eph) : State := { s with eph := f s.eph }

/-- The state with the issue unit changed. -/
def State.oryM (s : State) (f : Ory → Ory) : State := { s with ory := f s.ory }

/-- The state with the Astrolabe changed. -/
def State.astM (s : State) (f : Ast → Ast) : State := { s with ast := f s.ast }

/-- The state with the checkpoint unit changed. -/
def State.ckptM (s : State) (f : Ckpt → Ckpt) : State := { s with ckpt := f s.ckpt }

/-- The state with the traffic state changed. -/
def State.trafM (s : State) (f : Traffic → Traffic) : State := { s with traffic := f s.traffic }

/-- The state with one locket changed. -/
def State.locketM (s : State) (h : Nat) (f : Locket → Locket) : State := { s with lockets := s.lockets.upd h f }

/-- The state with one charm changed. -/
def State.charmM (s : State) (ci : Nat) (f : Charm → Charm) : State := { s with charms := s.charms.upd ci f }

/-- The state with one bay changed. -/
def State.bayM (s : State) (n : Nat) (f : Bay → Bay) : State := { s with bays := s.bays.modify n f }

/-- The state with one batch context changed. -/
def State.ctxM (s : State) (c : Nat) (f : Ctx → Ctx) : State := s.ephM fun e => { e with ctxs := e.ctxs.upd c f }

/-- The state with one Strand port changed. -/
def State.portM (s : State) (n : Nat) (f : Port → Port) : State := s.stdM fun d => { d with ports := d.ports.modify n f }

/-- One Strand port. -/
def State.port (s : State) (n : Nat) : Port := s.std.ports.getD n {}

/-- One bay. -/
def State.bay (s : State) (n : Nat) : Bay := s.bays.getD n {}

/-- The device's chain position, 0 before adoption. -/
def ownPos (s : State) : Nat := s.std.position.getD 0

/-- The port is UP. -/
def portUp (s : State) (n : Nat) : Bool := s.lan.refclk && decide (n < 8) && (s.port n).mode == .up

/-- A Strand event bit is set (16 Table 16-10). -/
def stdEvent (s : State) (b : Nat) : State := s.stdM fun d => { d with event := d.event ||| 2 ^ b }

/-- The egress on the alternate port has held no flit for destination d for 100 ticks (16 R614). -/
def altIdle (s : State) (al d : Nat) : Bool :=
  let p := s.port al
  !(p.queue.any (fun f => f.dest == d)) && match p.altUse.get? d with
    | none => true
    | some t => decide (t + 100 ≤ s.now)

/-- The port of the chain rule (16 R613). -/
def chainPort (s : State) (d : Nat) : Nat := if ownPos s < d then 1 else 0

/-- The egress port for destination d, or none where the flit is discarded (16 R613, R614). -/
def routePort (s : State) (d : Nat) : Option Nat :=
  let e := s.std.routeActive.getD d 0xFF
  let pr := bits e 3 0
  let al := bits e 7 4
  if s.std.chainOnly = 1 || (pr == 0xF && al == 0xF) then
    (if portUp s (chainPort s d) then some (chainPort s d) else none)
  else if portUp s pr && (!portUp s al || altIdle s al d) then some pr
  else if portUp s al then some al
  else none

/-- A flit is discarded as unroutable (16 R602, R613). -/
def unroutable (s : State) : State := stdEvent (s.stdM fun d => { d with unroutable := wrapInc 32 d.unroutable }) 3

/-- A flit joins the queue of its egress port; HOPS increases at the egress, and a flit that would leave with HOPS above 63 is discarded
(16 R602, R613). -/
def sendFlit (s : State) (f : Flit) : State :=
  match routePort s f.dest with
  | none => unroutable s
  | some p => if f.hops + 1 > 63 then unroutable s else s.portM p fun q => { q with queue := q.queue ++ [{ f with hops := f.hops + 1, queued := s.now }] }

/-- The flit of one message from this device (16 R603). -/
def msgFlit (s : State) (dest : Nat) (body : List Byte) : Flit :=
  { kind := 1, dest := dest, src := ownPos s, epoch := s.std.epoch, payload := padTo 512 body }

/-- Sends one routed message. -/
def sendMsg (s : State) (dest : Nat) (body : List Byte) : State := sendFlit s (msgFlit s dest body)

/-- Sends one message out of a given port: chain messages, and floods to each UP port (16 R609, R617, R621). -/
def sendPort (s : State) (p : Nat) (body : List Byte) : State :=
  s.portM p fun q => { q with queue := q.queue ++ [{ msgFlit s q.partner body with hops := 1, queued := s.now }] }

/-- Floods one message on every UP port but one (16 R617). -/
def flood (s : State) (except : Nat) (body : List Byte) : State :=
  (List.range 8).foldl (fun s p => if p != except && portUp s p then sendPort s p body else s) s

/-- A message of a type with fields at byte offsets (16 R603, Table 16-4). -/
def mkMsg (ty : Nat) (fields : List (Nat × Nat × Nat)) : List Byte :=
  fields.foldl (fun m f => m.take f.1 ++ natLe f.2.1 f.2.2 ++ m.drop (f.1 + f.2.1)) (BitVec.ofNat 8 ty :: zeros 63)

/-- The flits of the bytes of one transfer, INDEX counting within each 4 KiB unit, LAST at the end of a unit (16 R602). -/
def xferFlits (dest src epoch tenant num : Nat) (data : List Byte) : List Flit :=
  let n := ceilDiv data.length 512
  (List.range n).map fun i =>
    { kind := 2, dest := dest, src := src, epoch := epoch, tenant := tenant, index := i % 8, last := i % 8 == 7 || i + 1 == n
      xfer := num, payload := bytesAt data (512 * i) 512 }

/-- The next free transfer number to a destination, ascending modulo 4,096 (16 R604). -/
def freeXfer (s : State) (dest : Nat) : Nat :=
  let start := s.std.nextXfer.getD dest 0
  let busy := fun k => s.std.outXfers.any (fun x => x.peer == dest && x.num == k)
  ((List.range 4096).find? (fun i => !busy ((start + i) % 4096))).elim start (fun i => (start + i) % 4096)

/-- Starts a transfer: its announcing message, then its units on the same path (16 R604, R605). `announce` forms the message from the number. -/
def startXfer (s : State) (dest op target extent cookie tenant : Nat) (announce : Nat → List Byte) (data : List Byte) : State :=
  let k := freeXfer s dest
  let s := s.stdM fun d =>
    { d with nextXfer := d.nextXfer.set dest ((k + 1) % 4096)
             outXfers := d.outXfers ++ [{ peer := dest, num := k, op := op, target := target, extent := extent, total := data.length
                                          cookie := cookie, last := s.now }] }
  let s := sendMsg s dest (announce k)
  (xferFlits dest (ownPos s) s.std.epoch tenant k data).foldl sendFlit s

/-- Target of a transfer that carries a Setting image to the staging area (18 R675). -/
def imageTarget : Nat := 0xFFFFFFFFFFFF0000

/-- The XFER_SETUP message (16 Table 16-4). -/
def xferSetup (op units target extent total cookie num : Nat) : List Byte :=
  mkMsg 0x30 [(8, 2, num), (10, 1, op), (12, 4, units), (16, 8, target), (24, 8, extent), (32, 8, total), (40, 8, cookie)]

/-- In head mode a device other than the head reaches the host through the head (15 R563, R564). -/
def viaHead (s : State) : Bool := s.std.modeInForce == 0 && (match s.std.position with | some 0 => false | some _ => true | none => false)

/-- Bytes written to host memory: posted on the device's own link, or sent to the head as HOST_WRITE with its units (15 R561, 16 R615). -/
def hostWrite (s : State) (addr : Nat) (data : List Byte) : State :=
  if viaHead s then
    startXfer s 0 0x100 addr 0 0 0 (fun k => mkMsg 0x44 [(8, 2, k), (16, 8, addr), (24, 4, data.length)]) data
  else { s with hostMem := s.hostMem.writeN addr data }

/-- A read of host memory: on the device's own link, or by a member in head mode as HOST_READ, whose units the head returns under its number
(15 R561, R564; 16 R615). The bytes read are the operand of the command that reads them (log 45). -/
def hostFetch (s : State) (addr n : Nat) : State :=
  if !viaHead s || n = 0 then s else
  let k := freeXfer s 0
  let x : Xfer := { peer := 0, num := k, op := 0x101, target := addr, total := n, last := s.now }
  sendMsg (s.stdM fun d => { d with nextXfer := d.nextXfer.set 0 ((k + 1) % 4096), outXfers := d.outXfers ++ [x], inXfers := d.inXfers ++ [x] }) 0
    (mkMsg 0x43 [(8, 2, k), (16, 8, addr), (24, 4, n)])

/-- An MSI-X message for a vector: held while ISOLATED, sent to the head as HOST_MSIX by a member in head mode, otherwise signalled on the own
link (15 R580, 16 R615, 13 R508). -/
def signal (s : State) (v : Nat) : State :=
  if s.integ.mode == .isolated then s.hifM fun h => { h with msixHeld := h.msixHeld ++ [v] }
  else if viaHead s then
    sendMsg s 0 (mkMsg 0x45 [(16, 8, leNat (s.hif.msixTable.readN (16 * v) 8)), (24, 4, leNat (s.hif.msixTable.readN (16 * v + 8) 4))])
  else s.hifM fun h => { h with msix := h.msix ++ [v] }

/-- Sets a HIF_EVENT bit; when HIF_EVENT_VECTOR.EN is 1 and the bit was clear, its vector is signalled (15 Table 15-16). -/
def hifEvent (s : State) (b : Nat) : State :=
  let fresh := !bitAt s.hif.event b
  let s := s.hifM fun h => { h with event := h.event ||| 2 ^ b }
  if fresh && s.hif.evEn then signal s s.hif.evVector else s

/-- Releases what ISOLATED held (13 R508). -/
def releaseHeld (s : State) : State :=
  let held := s.hif.msixHeld
  held.foldl signal (s.hifM fun h => { h with msixHeld := [] })

end Sys2Proof.Machine
end

