-- ==== Sys2Proof/Machine/Sha2.lean ====
section
/-!
DEFINITION. Sys2Proof/Machine/Sha2.lean: SHA-256 and SHA-384 (FIPS 180-4) and HMAC-SHA-256 (FIPS 198-1), which the spec names
for parure and facet hashes, digests, fingerprints and manifests (04 R127, 08 R308, 14 R541), with CRC-8 and CRC-32. The round constants
are computed as FIPS 180-4 defines them: fractional bits of cube and square roots of the first primes.
-/
namespace Sys2Proof.Machine

/-- Trial division by 2 … d + 1 finds no divisor. -/
def noDivisor (n : Nat) : Nat → Bool
  | 0 => true
  | d + 1 => (d + 2 ≥ n || n % (d + 2) != 0) && noDivisor n d

/-- The primes among the first n numbers from 2 up. -/
def primesTo (n : Nat) : List Nat := ((List.range n).map (· + 2)).filter (fun p => noDivisor p (isqrt p + 1))

/-- The first n primes (n ≤ 80: the 80th prime is 409). -/
def firstPrimes (n : Nat) : List Nat := (primesTo 420).take n

/-- The first w fractional bits of the cube root of p. -/
def cbrtFrac (w p : Nat) : Nat := icbrt (p * 2 ^ (3 * w)) % 2 ^ w

/-- The first w fractional bits of the square root of p. -/
def sqrtFrac (w p : Nat) : Nat := isqrt (p * 2 ^ (2 * w)) % 2 ^ w

/-- Parameters of one SHA-2 function: word width, rotation amounts, round constants, initial value. -/
structure ShaKind where
  w : Nat
  bs0 : Nat × Nat × Nat
  bs1 : Nat × Nat × Nat
  ss0 : Nat × Nat × Nat
  ss1 : Nat × Nat × Nat
  k : List Nat
  h0 : List Nat
deriving DecidableEq, Repr

/-- SHA-256. -/
def sha256Kind : ShaKind :=
  { w := 32, bs0 := (2, 13, 22), bs1 := (6, 11, 25), ss0 := (7, 18, 3), ss1 := (17, 19, 10)
    k := (firstPrimes 64).map (cbrtFrac 32), h0 := (firstPrimes 8).map (sqrtFrac 32) }

/-- SHA-384: the 512-bit function started from the ninth to sixteenth primes. -/
def sha384Kind : ShaKind :=
  { w := 64, bs0 := (28, 34, 39), bs1 := (14, 18, 41), ss0 := (1, 8, 7), ss1 := (19, 61, 6)
    k := (firstPrimes 80).map (cbrtFrac 64), h0 := ((firstPrimes 16).drop 8).map (sqrtFrac 64) }

/-- Rotation right within w bits. -/
def rotr (w n x : Nat) : Nat := (x >>> n) ||| ((x <<< (w - n)) % 2 ^ w)

/-- Big sigma: three rotations. -/
def sigmaB (w : Nat) (r : Nat × Nat × Nat) (x : Nat) : Nat := rotr w r.1 x ^^^ rotr w r.2.1 x ^^^ rotr w r.2.2 x

/-- Small sigma: two rotations and a shift. -/
def sigmaS (w : Nat) (r : Nat × Nat × Nat) (x : Nat) : Nat := rotr w r.1 x ^^^ rotr w r.2.1 x ^^^ (x >>> r.2.2)

/-- The working variables. -/
structure ShaVars where
  a : Nat
  b : Nat
  c : Nat
  d : Nat
  e : Nat
  f : Nat
  g : Nat
  h : Nat
deriving DecidableEq, Repr

/-- One round with constant and schedule word. -/
def shaRound (q : ShaKind) (v : ShaVars) (k wt : Nat) : ShaVars :=
  let m := 2 ^ q.w
  let ch := (v.e &&& v.f) ^^^ ((m - 1 - v.e) &&& v.g)
  let t1 := (v.h + sigmaB q.w q.bs1 v.e + ch + k + wt) % m
  let mj := (v.a &&& v.b) ^^^ (v.a &&& v.c) ^^^ (v.b &&& v.c)
  let t2 := (sigmaB q.w q.bs0 v.a + mj) % m
  { a := (t1 + t2) % m, b := v.a, c := v.b, d := v.c, e := (v.d + t1) % m, f := v.e, g := v.f, h := v.g }

/-- The rounds over the constants, with the sixteen-word sliding schedule. -/
def shaGo (q : ShaKind) : List Nat → List Nat → ShaVars → ShaVars
  | [], _, v => v
  | k :: ks, ws, v =>
    let wt := ws.getD 0 0
    let nw := (sigmaS q.w q.ss1 (ws.getD 14 0) + ws.getD 9 0 + sigmaS q.w q.ss0 (ws.getD 1 0) + wt) % 2 ^ q.w
    shaGo q ks (ws.drop 1 ++ [nw]) (shaRound q v k wt)

/-- Big-endian words of a block. -/
def shaWords (n : Nat) : Nat → List Byte → List Nat
  | 0, _ => []
  | k + 1, bs => beNat (bs.take n) :: shaWords n k (bs.drop n)

/-- One block. -/
def shaBlock (q : ShaKind) (hs : List Nat) (blk : List Byte) : List Nat :=
  let v := shaGo q q.k (shaWords (q.w / 8) 16 blk)
    { a := hs.getD 0 0, b := hs.getD 1 0, c := hs.getD 2 0, d := hs.getD 3 0, e := hs.getD 4 0, f := hs.getD 5 0, g := hs.getD 6 0, h := hs.getD 7 0 }
  (hs.zip [v.a, v.b, v.c, v.d, v.e, v.f, v.g, v.h]).map (fun p => (p.1 + p.2) % 2 ^ q.w)

/-- The blocks of a padded message. -/
def shaBlocks (q : ShaKind) : Nat → List Nat → List Byte → List Nat
  | 0, hs, _ => hs
  | n + 1, hs, bs => shaBlocks q n (shaBlock q hs (bs.take (2 * q.w))) (bs.drop (2 * q.w))

/-- The padded message. -/
def shaPad (q : ShaKind) (m : List Byte) : List Byte :=
  let blk := 2 * q.w
  let lenB := q.w / 4
  let tot := ceilDiv (m.length + 1 + lenB) blk * blk
  m ++ [0x80#8] ++ zeros (tot - m.length - 1 - lenB) ++ natBe lenB (8 * m.length)

/-- The digest words. -/
def shaDigest (q : ShaKind) (m : List Byte) : List Nat :=
  let p := shaPad q m
  shaBlocks q (p.length / (2 * q.w)) q.h0 p

/-- SHA-256 digest bytes. -/
def sha256 (m : List Byte) : List Byte := ((shaDigest sha256Kind m).map (natBe 4)).flatten

/-- SHA-384 digest bytes. -/
def sha384 (m : List Byte) : List Byte := (((shaDigest sha384Kind m).take 6).map (natBe 8)).flatten

/-- HMAC with SHA-256. -/
def hmac256 (key m : List Byte) : List Byte :=
  let k := padTo 64 (if key.length > 64 then sha256 key else key)
  sha256 (k.map (· ^^^ 0x5C#8) ++ sha256 (k.map (· ^^^ 0x36#8) ++ m))

/-- One bit-serial CRC step of width w, most significant bit first. -/
def crcBit (w poly : Nat) (c : Nat) (b : Bool) : Nat :=
  let top := bitAt c (w - 1) != b
  let c' := (c * 2) % 2 ^ w
  if top then c' ^^^ poly else c'

/-- CRC over bits given most significant first. -/
def crcBits (w poly init : Nat) (bs : List Bool) : Nat := bs.foldl (crcBit w poly) init

/-- CRC-8 of the ENUM word's bits 31 to 8 (16 Table 16-5): polynomial x^8 + x^2 + x + 1, initial value 0, msb first. -/
def crc8 (x24 : Nat) : Nat := crcBits 8 0x07 0 ((bitsOf 24 x24).reverse)

/-- One byte of a CRC that takes each byte's least significant bit first (reflected form, polynomial 0xEDB88320). -/
def crc32Byte (c : Nat) (b : Byte) : Nat :=
  (List.range 8).foldl (fun c _ => if c % 2 = 1 then (c / 2) ^^^ 0xEDB88320 else c / 2) (c ^^^ b.toNat)

/-- CRC-32 of IEEE 802.3. -/
def crc32 (bs : List Byte) : Nat := (bs.foldl crc32Byte 0xFFFFFFFF) ^^^ 0xFFFFFFFF

end Sys2Proof.Machine
end

