-- ==== Sys2Proof/Machine/Ops.lean ====
section
/-!
DEFINITION. Sys2Proof/Machine/Ops.lean: operations that every family shares: fault records and logs (13 R514, R515), watched entries
(17 R641), commands and completions (15 R574 to R581), policing (11 R428 to R431), token buckets, and the admission checks of a command.
-/
namespace Sys2Proof.Machine

/-- Time has come: a tick stands at or after another. -/
def due (s : State) (t : Tick) : Bool := s.lan.refclk && decide (t ≤ s.now)

/-- POWER_STATE as its entry codes it (17 Table 17-12). -/
def powerCode : Power → Nat
  | .active => 0 | .dusk => 1 | .twilight => 2 | .night => 3 | .boot => 4

/-- STRAND_STATE as its entry codes it (16 Table 16-8). -/
def stdCode : StdMode → Nat
  | .enum => 1 | .joining => 2 | .member => 3 | .prepared => 4 | .quarantined => 5

/-- A watched entry has changed: while EVENT_DEST is nonzero an EVENT frame is due (17 R641). -/
def watch (s : State) (index sub : Nat) (value : List Byte) : State :=
  if s.lan.eventDest = 0 then s else s.lanM fun l => { l with events := l.events ++ [(index * 256 + sub, value)] }

/-- POWER_STATE changes (17 R641). -/
def setPower (s : State) (p : Power) : State :=
  if s.lan.power = p then s else watch (s.lanM fun l => { l with power := p }) 0x6000 1 (natLe 1 (powerCode p))

/-- The Strand state changes (16 Table 16-6, 17 R641). -/
def setStd (s : State) (m : StdMode) : State :=
  if s.std.mode = m then s else watch (s.stdM fun d => { d with mode := m }) 0x1100 6 (natLe 1 (stdCode m))

/-- Fault kinds that the crash log keeps (13 Table 13-8). -/
def crashKind (k : Nat) : Bool := k == 0x05 || k == 0x06 || k == 0x07 || k == 0x08 || (0x0A ≤ k && k ≤ 0x0F)

/-- A record enters the crash log, which keeps the last 64 (13 R515, 17 Table 17-11). -/
def crashRecord (s : State) (r : FaultRec) : State :=
  let n := wrapInc 32 s.lan.crashCount
  let l := s.lan.crashLog ++ [r]
  watch (s.lanM fun a => { a with crashLog := l.drop (l.length - 64), crashCount := n }) 0x5300 2 (natLe 4 n)

/-- The record of an event at this tick (13 Table 13-7). -/
def faultRec (s : State) (kind station cell attempt object detail : Nat) : FaultRec :=
  { tick := s.now, kind := kind, station := station, cell := cell, attempt := attempt, mapEpoch := s.lpe.epoch
    memberEpoch := s.std.epoch, object := object, detail := detail % 2 ^ 32, seq := s.integ.logCount % 2 ^ 32 }

/-- Writes a fault record to the fault log ring of 1,024 and, for the kinds so marked, to the crash log (13 R514, R515). -/
def logFault (s : State) (kind station cell attempt object detail : Nat) : State :=
  let r := faultRec s kind station cell attempt object detail
  let l := s.integ.log ++ [r]
  let s := s.integM fun i => { i with log := l.drop (l.length - 1024), logCount := (i.logCount + 1) % 2 ^ 64 }
  if crashKind kind then crashRecord s r else s

/-- A record that the clock monitor or Lantern writes into the crash log directly (13 R515). -/
def crashDirect (s : State) (kind detail : Nat) : State := crashRecord s (faultRec s kind 0xC3 0xFF 0 0 detail)

/-- Sets an INT_EVENT bit. -/
def intEvent (s : State) (b : Nat) : State := s.integM fun i => { i with event := i.event ||| 2 ^ b }

/-- Sets an EPH_EVENT bit. -/
def ephEvent (s : State) (b : Nat) : State := s.ephM fun e => { e with event := e.event ||| 2 ^ b }

/-- Sets a CFC_EVENT bit of a bay. -/
def cfcEvent (s : State) (n b : Nat) : State := s.bayM n fun y => { y with event := y.event ||| 2 ^ b }

/-! ## Status codes (15 Table 15-14) -/

/-- ST_OK. -/
def stOk : Nat := 0x00
/-- ST_PENDING. -/
def stPending : Nat := 0x01
/-- ST_NO_ROOM. -/
def stNoRoom : Nat := 0x02
/-- ST_NO_TIME. -/
def stNoTime : Nat := 0x03
/-- ST_BAD_PARURE. -/
def stBadParure : Nat := 0x04
/-- ST_SIGNATURE. -/
def stSignature : Nat := 0x05
/-- ST_UNKNOWN_HANDLE. -/
def stUnknown : Nat := 0x06
/-- ST_STALE_EPOCH. -/
def stStale : Nat := 0x07
/-- ST_CANCELLED. -/
def stCancelled : Nat := 0x08
/-- ST_ALREADY_DONE. -/
def stAlready : Nat := 0x09
/-- ST_GRAMMAR_EMPTY. -/
def stGrammarEmpty : Nat := 0x0A
/-- ST_TARNISHED. -/
def stTarnished : Nat := 0x0B
/-- ST_LATE. -/
def stLate : Nat := 0x0C
/-- ST_PARTIAL. -/
def stPartial : Nat := 0x0D
/-- ST_EXPIRED. -/
def stExpired : Nat := 0x0E
/-- ST_FENCED. -/
def stFenced : Nat := 0x0F
/-- ST_COFFER_WORN. -/
def stWorn : Nat := 0x10
/-- ST_QUOTA. -/
def stQuota : Nat := 0x11
/-- ST_INVALID. -/
def stInvalid : Nat := 0x12
/-- ST_BUSY. -/
def stBusy : Nat := 0x13

/-! ## Commands and completions -/

/-- One ring pair; a ring not listed is as after reset. -/
def State.ring (s : State) (r : Nat) : Ring := s.hif.rings.getD r {}

/-- The state with one ring pair changed. -/
def State.ringM (s : State) (r : Nat) (f : Ring → Ring) : State :=
  s.hifM fun h => { h with rings := h.rings.set r (f (h.rings.getD r {})) }

/-- One tenant group; a group not listed is as after reset. -/
def State.dlv (s : State) (t : Nat) : DlvGroup := s.hif.dlv.getD t {}

/-- The state with one tenant group changed. -/
def State.dlvM (s : State) (t : Nat) (f : DlvGroup → DlvGroup) : State :=
  s.hifM fun h => { h with dlv := h.dlv.set t (f (h.dlv.getD t {})) }

/-- Traffic settings of a tenant; a tenant not listed has the defaults. -/
def State.tenant (s : State) (t : Nat) : TenantTraffic := s.traffic.tenants.getD t {}

/-- The state with one tenant's traffic settings changed. -/
def State.tenantM (s : State) (t : Nat) (f : TenantTraffic → TenantTraffic) : State :=
  s.trafM fun a => { a with tenants := a.tenants.set t (f (a.tenants.getD t {})) }

/-- The outstanding command of an identifier. -/
def findCmd (s : State) (id : Nat) : Option HCmd := s.hif.cmds.find? (fun c => c.id == id)

/-- Operand bytes of a descriptor as a number. -/
def HCmd.fld (c : HCmd) (off n : Nat) : Nat := fieldAt c.desc off n

/-- HANDLE of a descriptor. -/
def HCmd.handle (c : HCmd) : Nat := c.fld 8 8

/-- A flag bit of a descriptor (15 Table 15-6). -/
def HCmd.flag (c : HCmd) (b : Nat) : Bool := bitAt (c.fld 1 1) b

/-- The command has a completion that waits to be posted. -/
def completed (s : State) (id : Nat) : Bool := s.hif.done.any (fun d => d.id == id)

/-- Adds the completion of a command with its result words and command step (15 R578, R586). -/
def complete (s : State) (c : HCmd) (status r0 r1 step : Nat) : State :=
  if completed s c.id then s else
  s.hifM fun h =>
    { h with done := h.done ++ [{ id := c.id, ring := c.ring, tag := c.tag, status := status, step := step % 2 ^ 16, accept := c.accept
                                  done := s.now, r0 := r0 % 2 ^ 32, r1 := r1 % 2 ^ 32, noIrq := c.flag 0 }] }

/-- Completes the command of an identifier where it is still outstanding. -/
def completeId (s : State) (id status r0 r1 step : Nat) : State :=
  match findCmd s id with
  | some c => complete s c status r0 r1 step
  | none => s

/-- Completes several commands with one status. -/
def completeAll (s : State) (ids : List Nat) (status : Nat) : State := ids.foldl (fun s i => completeId s i status 0 0 0) s

/-- The outstanding commands that have no completion yet. -/
def liveCmds (s : State) : List HCmd := s.hif.cmds.filter (fun c => !completed s c.id)

/-- Command cost in tokens (11 Table 11-3). -/
def cmdCost (op : Nat) : Nat :=
  if op == 0x24 || op == 0x21 || op == 0x02 || op == 0x32 || op == 0x28 || op == 0x13 then 0
  else if op == 0x40 || op == 0x48 then 2
  else if op == 0x20 || op == 0x25 || op == 0x26 then 4
  else if op == 0x27 || op == 0x12 || op == 0x44 || op == 0x43 then 16
  else 1

/-- The opcodes of the command table (15 Table 15-8). -/
def opcodes : List Nat :=
  [0x01, 0x02, 0x10, 0x11, 0x12, 0x13, 0x20, 0x21, 0x22, 0x23, 0x24, 0x25, 0x26, 0x27, 0x28, 0x30, 0x31, 0x32, 0x38, 0x39, 0x40, 0x41, 0x42,
   0x43, 0x44, 0x48, 0x50, 0x51, 0x52, 0x60, 0x61]

/-- Flag bits that an opcode names beside NO_IRQ (15 Table 15-6). -/
def opFlags (op : Nat) : Nat :=
  if op == 0x10 || op == 0x24 || op == 0x25 || op == 0x22 || op == 0x30 || op == 0x51 || op == 0x44 || op == 0x50 || op == 0x61 then 0x11
  else if op == 0x23 then 0x71
  else 0x01

/-- Operand bytes that an opcode lists, as (offset, length) (15 Table 15-8). -/
def opUsed (c : HCmd) : List (Nat × Nat) :=
  let op := c.opcode
  if op == 0x10 then [(16, 8), (24, 8), (32, 1), (33, 1), (34, 1), (36, 2), (40, 8)]
  else if op == 0x12 then [(16, 8), (24, 8), (32, 4)]
  else if op == 0x20 then [(16, 44)]
  else if op == 0x22 then (if c.flag 4 then [(16, 2), (24, 2 * min (c.fld 16 2) 20)] else [(16, 2), (24, 8)])
  else if op == 0x23 then [(16, 7), (24, 24)]
  else if op == 0x25 then (if c.flag 4 then [(16, 2), (20, 12)] else [(16, 2)])
  else if op == 0x27 then [(16, 8), (24, 5), (32, 8)]
  else if op == 0x30 then [(16, 1)]
  else if op == 0x31 then [(16, 2)]
  else if op == 0x32 then [(16, 1)]
  else if op == 0x38 then [(16, 12)]
  else if op == 0x39 then [(16, 8)]
  else if op == 0x40 then [(16, 12), (32, 16)]
  else if op == 0x41 then [(16, 8)]
  else if op == 0x42 then [(16, 4)]
  else if op == 0x44 then [(16, 7), (24, 14)]
  else if op == 0x48 then [(16, 17), (40, 8)]
  else if op == 0x51 then [(16, 10)]
  else if op == 0x52 then [(16, 5), (24, 8)]
  else if op == 0x60 then [(16, 1), (24, 8)]
  else if op == 0x61 then [(16, 4), (24, 8)]
  else []

/-- Commands whose HANDLE is 0 because the table gives none (15 Table 15-5, Table 15-8). -/
def noHandle (c : HCmd) : Bool :=
  let op := c.opcode
  op == 0x01 || op == 0x02 || op == 0x38 || op == 0x39 || op == 0x48 || op == 0x50 || op == 0x61 || (op == 0x30 && c.flag 4)

/-- Every reserved field of the descriptor is 0 (00 R20, 15 R577). -/
def reservedOk (c : HCmd) : Bool :=
  (c.fld 1 1 &&& (0xFF - opFlags c.opcode)) == 0 && bits (c.fld 2 2) 15 10 == 0 && (!noHandle c || c.handle == 0) &&
  (List.range 48).all (fun i => (opUsed c).any (fun r => r.1 ≤ 16 + i && 16 + i < r.1 + r.2) || fieldAt c.desc (16 + i) 1 == 0)

/-- Commands of tenant 0 alone (15 R431, Table 11-3; their chapters). -/
def tenant0Only (op : Nat) : Bool := op == 0x11 || op == 0x30 || op == 0x39 || op == 0x50 || op == 0x51

/-- The Orrery cannot serve: it has stopped for good on EXHAUSTED or DEVICE_FAULT, until a DEVICE or stronger reset (03 R121, 13 R725; log 48). -/
def orreryLost (s : State) : Bool := s.ory.mode == .fault || s.integ.mode == .deviceFault

/-- The commands that need the Orrery (13 R725). -/
def needsOrrery (s : State) (c : HCmd) : Bool :=
  let l := s.lockets.vals.find? (fun l => l.session == c.handle && l.tenant == c.tenant)
  let k := s.colls.vals.find? (fun k => k.handle == c.handle && k.tenant == c.tenant)
  c.opcode == 0x23 || c.opcode == 0x31 || c.opcode == 0x32 || c.opcode == 0x48 || c.opcode == 0x43 ||
  (c.opcode == 0x22 && (l.map (·.state == .bound)).getD false) || (c.opcode == 0x26 && (l.map (·.kvAbsent)).getD false) ||
  (c.opcode == 0x40 && (k.map (·.metric != 0)).getD false)

/-- Admission of a command when its own row runs: a status that ends it at once, or none.
18 R672 (configuration not committed), 13 R507 (quarantine), 00 R20 (reserved fields), tenant rights. -/
def gate (s : State) (c : HCmd) : Option Nat :=
  if s.integ.mode == .quarantined then some stFenced
  else if s.lan.stopped || (orreryLost s && needsOrrery s c) then some stFenced
  else if !s.lan.committed && !(c.opcode == 0x01 || c.opcode == 0x02 || (c.opcode == 0x60 && c.fld 16 1 == 7)) then some stInvalid
  else if !reservedOk c then some stInvalid
  else if tenant0Only c.opcode && c.tenant != 0 then some stInvalid
  else none

/-- An earlier accepted command on the same handle of the same kind of object has not started (15 R575). -/
def blockedBy (s : State) (c : HCmd) : Bool :=
  (s.hif.cmds.takeWhile (fun d => d.id != c.id)).any
    (fun d => !d.started && d.handle == c.handle && d.handle != 0 && d.opcode / 16 == c.opcode / 16 && d.tenant == c.tenant)

/-- The control complex serves commands: it has its clock, a Setting image runs and the device is ACTIVE or in DUSK (01 R35; 18 R665, R683). -/
def serving (s : State) : Bool := s.lan.refclk && (s.lan.power == .active || s.lan.power == .dusk)

/-- Takes an outstanding command of an opcode that has not started, in acceptance order of its object, and marks it started. -/
def takeCmd (s : State) (id op : Nat) : Option (State × HCmd) :=
  match findCmd s id with
  | none => none
  | some c =>
    if serving s && c.opcode == op && !c.started && !completed s id && !blockedBy s c then
      some (s.hifM fun h => { h with cmds := h.cmds.map (fun d => if d.id == id then { d with started := true } else d) }, c)
    else none

/-- The operand bytes in host memory that a command reads when it starts, as (address, length) (15 Table 15-8). -/
def operandAt (c : HCmd) : Nat × Nat :=
  if c.opcode == 0x10 && !c.flag 4 then (c.fld 16 8, 256)
  else if c.opcode == 0x12 then (c.fld 24 8, c.fld 32 4)
  else if c.opcode == 0x22 && !c.flag 4 then (c.fld 24 8, 2 * c.fld 16 2)
  else if c.opcode == 0x38 then (c.fld 16 8, c.fld 24 4)
  else if c.opcode == 0x51 then (c.fld 16 8, 128)
  else (0, 0)

/-- The frame of every host command: the command is taken, ended at once where admission refuses it, and otherwise performed. -/
def hostCmd (s : State) (id op : Nat) (k : State → HCmd → State) : Out :=
  match takeCmd s id op with
  | none => .next s
  | some (s', c) => .next (match gate s' c with
    | some st => complete s' c st 0 0 0
    | none => k (hostFetch s' (operandAt c).1 (operandAt c).2) c)

/-- An event whose condition does not hold does not happen (log 2). -/
def when (ok : Bool) (s : State) (t : State) : Out := if ok then .next t else .next s

/-- A command that no sender can form stops the block (WellFormed.lean); otherwise it is performed. -/
def formed (ok : Bool) (o : Out) : Out := if ok then o else .fault .illFormed

/-- Every unit is clocked from REFCLK: while it is absent nothing that a unit would do happens (01 R35). -/
def clocked (s : State) (o : Out) : Out := if s.lan.refclk then o else .next s

/-! ## Policing -/

/-- The level that a depth allows (11 R428). -/
def fullLevel (depth : Nat) : Nat := depth * 10 ^ 8

/-- A bucket after a number of ticks (11 R428). -/
def refillBucket (n : Nat) (t : TenantTraffic) : TenantTraffic := { t with level := min (t.level + n * t.rate) (fullLevel t.depth) }

/-- Refills every bucket up to the present tick (11 R428, R430). -/
def refill (s : State) : State :=
  s.trafM fun a =>
    { a with tenants := a.tenants.map (fun e => (e.1, refillBucket (s.now - a.lastRefill) e.2)), lastRefill := s.now }

/-- Policing of a command of cost c for a tenant: none when accepted, with the tokens taken, or the result words of ST_QUOTA (11 R429 to R431). -/
def police (s : State) (t c : Nat) : State × Option (Nat × Nat) :=
  let b := s.tenant t
  if t = 0 || b.rate = 0xFFFFFFFF then (s, none)
  else if c * 10 ^ 8 ≤ b.level then (s.tenantM t fun b => { b with level := b.level - c * 10 ^ 8 }, none)
  else
    let wait := if b.rate = 0 then 0xFFFFFFFF else ceilDiv (c * 10 ^ 8 - b.level) b.rate
    (s.tenantM t fun b => { b with refused := satInc b.refused (2 ^ 32 - 1) }, some (wait, c))

/-- Delay bin: the bins of HIST (10 Table 10-12). -/
def delayBin (w : Nat) : Nat := if w < 64 then 0 else min 15 (w.log2 - 5)

/-- Greatest 32-bit count. -/
def max32 : Nat := 2 ^ 32 - 1

/-- A wait is counted for a tenant (10 R412, Table 10-12). -/
def countWait (s : State) (t w : Nat) : State :=
  s.ephM fun e => { e with accounts := e.accounts.set t (let a := e.accounts.getD t {}
                                                         { a with jobs := (a.jobs + 1) % 2 ^ 64, waitSum := (a.waitSum + w) % 2 ^ 64, waitMax := max a.waitMax w
                                                                  hist := a.hist.modify (delayBin w) (fun x => satInc x max32) }) }

/-- Issue may proceed: no halt, freeze, isolation, fault or stop. -/
def issueOk (s : State) : Bool :=
  s.lan.power == .active && s.ory.enable && !s.ory.halt && s.lan.lowSince.isNone && s.lan.refclk && !s.lan.stopped && !orreryLost s &&
  s.integ.mode != .quarantined

end Sys2Proof.Machine
end

