-- ==== Sys2Proof/Machine/Wfq.lean ====
section
/-!
DEFINITION. Sys2Proof/Machine/Wfq.lean: the weighted fair queueing schedulers (11 R418 to R425) and the queue sampler's view of the queues
(11 R434, R435). A flow's backlog is read from the queued objects themselves; its tags are brought up to date right before each selection (log 13).
-/
namespace Sys2Proof.Machine

/-- Flow number of the reserve flow (11 R434). -/
def reserveFlow : Nat := 0x400

/-- Class of a flow: 0 R, 1 A, 2 B, 3 C (11 R422, R424). -/
def flowClass (a : Traffic) (f : Nat) : Nat := if f = reserveFlow then 0 else min 3 ((a.tenants.getD f {}).cls + 1)

/-- Quantum of a class (11 R423). -/
def classQuantum (a : Traffic) (k : Nat) : Nat := 2 ^ 24 / max 1 (a.classW.getD k 1)

/-- Quantum of a flow (11 R423); the reserve flow is its class's only flow. -/
def flowQuantum (a : Traffic) (f : Nat) : Nat := if f = reserveFlow then 2 ^ 24 else 2 ^ 24 / max 1 (a.tenants.getD f {}).weight

/-- A flow becomes backlogged from idle (11 R424). -/
def joinFlow (a : Traffic) (w : Wfq) (f : Nat) : Wfq :=
  let t := w.flows.getD f {}
  if t.busy then w else
  let k := flowClass a f
  let t' := { t with start := max (w.vFlow.getD k 0) t.finish, busy := true, quantum := flowQuantum a f, cls := k }
  let c := w.classes.getD k {}
  let c' := if c.busy then c else { c with start := max w.vClass c.finish, busy := true, quantum := classQuantum a k, cls := k }
  { w with flows := w.flows.set f t', classes := w.classes.set k c' }

/-- A class is backlogged when any of its flows is (11 R423). -/
def settleClasses (w : Wfq) : Wfq :=
  { w with classes := (List.range 4).map (fun k =>
      let c := w.classes.getD k {}
      if w.flows.any (fun e => e.2.busy && e.2.cls == k) then c else { c with busy := false }) }

/-- Tags brought up to date with the flows that are backlogged now. -/
def wfqSync (a : Traffic) (w : Wfq) (backlog : List Nat) : Wfq :=
  let w := settleClasses { w with flows := w.flows.map (fun e => (e.1, if backlog.contains e.1 then e.2 else { e.2 with busy := false })) }
  backlog.foldl (joinFlow a) w

/-- The entry of least start tag among busy entries, ties to the earlier (11 R424). -/
def leastStart : List (Nat × Tags) → Option Nat
  | [] => none
  | (k, t) :: rest =>
    match leastStart rest with
    | none => if t.busy then some k else none
    | some j => if t.busy && t.start ≤ ((rest.find? (fun e => e.1 == j)).map (·.2.start)).getD 0 then some k else some j

/-- The flow a scheduler selects: class R first when asked for, otherwise the two levels of 11 R423. -/
def wfqPick (w : Wfq) (rFirst : Bool) : Option Nat :=
  let inClass := fun k => leastStart (w.flows.filter (fun e => e.2.cls == k))
  if rFirst && (w.classes.getD 0 {}).busy then inClass 0
  else match leastStart ((List.range 4).zip w.classes) with
    | none => none
    | some k => inClass k

/-- One level's tag after a selection of cost c (11 R424). -/
def spend (t : Tags) (c : Nat) (still : Bool) : Tags :=
  let f := t.start + c * t.quantum
  { t with finish := f, start := if still then f else t.start, busy := still }

/-- The tags after the selected flow has sent an item of cost c; `still` tells whether the flow is still backlogged. -/
def wfqSent (w : Wfq) (f c : Nat) (still rFirst : Bool) : Wfq :=
  let t := w.flows.getD f {}
  let k := t.cls
  let w1 := { w with vFlow := w.vFlow.set k t.start, flows := w.flows.set f (spend t c still) }
  let w2 := if rFirst && k == 0 then w1 else
    let ct := w.classes.getD k {}
    let any := w1.flows.any (fun e => e.2.busy && e.2.cls == k)
    { w1 with vClass := ct.start, classes := w1.classes.set k (spend ct c any) }
  settleClasses w2

/-- Selection in a scheduler over the flows backlogged now: the tags brought up to date and the flow chosen. -/
def wfqSelect (s : State) (sched : Nat) (backlog : List Nat) (rFirst : Bool) : State × Option Nat :=
  let w := wfqSync s.traffic (s.traffic.wfq.getD sched {}) backlog
  (s.trafM fun a => { a with wfq := a.wfq.set sched w }, wfqPick w rFirst)

/-- The chosen flow has sent an item of cost c; it counts for the sampler (11 R435). -/
def wfqCharge (s : State) (sched f c : Nat) (still rFirst : Bool) : State :=
  s.trafM fun a =>
    { a with wfq := a.wfq.modify sched (fun w => wfqSent w f c still rFirst)
             sent := a.sent.set (sched * 2048 + f) (a.sent.getD (sched * 2048 + f) 0 + 1) }

/-- Every scheduler empty with V, S and F 0 (11 R440). -/
def wfqReset (s : State) : State := s.trafM fun a => { a with wfq := List.replicate 18 {} }

/-- A queue as the sampler sees it: identifier, items and the tick its head was queued (11 R435). -/
structure QView where
  qid : Nat
  depth : Nat
  head : Tick
deriving DecidableEq, Repr

/-- Adds one item of a queue to the views. -/
def addItem (v : Tab (Nat × Tick)) (qid n : Nat) (t : Tick) : Tab (Nat × Tick) :=
  match v.get? qid with
  | none => v.set qid (n, t)
  | some (d, h) => v.set qid (d + n, min h t)

/-- Flow of a Courier descriptor (11 R418). -/
def descFlow (d : Desc) : Nat := if d.reservedCh then reserveFlow else d.tenant

/-- Flow of a Strand unit's flit (11 R418). -/
def flitFlow (f : Flit) : Nat := if f.reserve then reserveFlow else f.tenant

/-- The server whose CLASSES names a class (10 R404). -/
def serverOf (s : State) (c : JobClass) : Option Nat :=
  let b := match c with | .recompute => 0 | .search => 1 | .select => 2 | .merge => 3
  s.eph.active.bind (fun t => t.servers.findIdx? (fun v => bitAt v.classes b))

/-- The queues of the Courier, of delivery, of the Strand ports and of the servers that hold items (11 R418). -/
def queueViews (s : State) : Tab (Nat × Tick) :=
  let v := (s.cur.channels.vals ++ s.cur.waiting).foldl (fun v d => addItem v (descFlow d) (d.units - d.sent) d.since) []
  let v := s.lockets.vals.foldl (fun v l => (l.packets.filter (fun p => !p.written)).foldl (fun v p => addItem v (2048 + p.tenant) 1 p.since) v) v
  let v := (List.range 8).foldl (fun v n => ((s.port n).queue.filter (fun f => f.kind == 2 && f.last)).foldl
    (fun v f => addItem v ((2 + n) * 2048 + flitFlow f) 1 f.queued) v) v
  (s.eph.jobs.filter (fun j => j.suspended.isNone && s.eph.holder != .job j.id)).foldl (fun v j =>
    match serverOf s j.cls with
    | some k => addItem v ((10 + k) * 2048 + j.tenant) 1 j.ready
    | none => v) v


end Sys2Proof.Machine
end

