-- ==== Sys2Proof/Machine/Entries.lean ====
section
/-!
DEFINITION. Sys2Proof/Machine/Entries.lean: the Almanac's entries: type, access, class, home, default, value, range and the plain writes
(17 R637 to R654, Tables 17-5 to 17-13; 16 Table 16-8; 11 Table 11-6; 13 Table 13-11; 14 Table 14-11; 18 Table 18-1).
-/
namespace Sys2Proof.Machine

/-- What DESCRIBE says of an entry (17 R643): type code, length, access (0 RO, 1 RW, 2 WO, 3 RWL), class (0 V, 1 D, 2 W, 3 N), home (0 L, 1 F),
default. -/
structure EntrySpec where
  ty : Nat
  len : Nat
  acc : Nat
  cls : Nat
  home : Nat
  dflt : Nat := 0
deriving DecidableEq, Repr

/-- An entry of a number type. -/
def ent (ty acc cls home dflt : Nat) : Option EntrySpec :=
  some { ty := ty, len := if ty = 1 then 1 else if ty = 2 then 2 else if ty = 4 then 8 else 4, acc := acc, cls := cls, home := home, dflt := dflt }

/-- The bytes of an ASCII text. -/
def ascii (t : String) : List Byte := t.toList.map (fun c => BitVec.ofNat 8 c.toNat)

/-- Identity and communication entries (17 Table 17-8). -/
def entId (i j : Nat) : Option EntrySpec :=
  if i == 0x1000 then
    (if j == 1 then some { ty := 7, len := 16, acc := 0, cls := 3, home := 0, dflt := leNat ((ascii "Acesk").take 8) }
     else if j == 2 then some { ty := 7, len := 16, acc := 0, cls := 3, home := 0, dflt := leNat ((ascii "CLT-9120").take 8) }
     else if j == 3 then ent 1 0 3 0 0 else if j == 4 then some { ty := 7, len := 32, acc := 0, cls := 3, home := 0 }
     else if j == 5 then ent 1 0 3 0 0 else if j == 6 then ent 3 0 1 0 0 else if j == 7 then ent 3 0 3 0 0
     else if j == 8 then ent 1 0 3 0 1 else none)
  else if i == 0x1010 then
    (if j == 1 then ent 1 1 3 0 0xFF else if j == 2 then ent 4 0 3 0 0 else if j == 3 then ent 4 1 2 0 0
     else if 4 ≤ j && j ≤ 6 then ent 3 0 2 0 0 else none)
  else if i == 0x1020 then (if j == 1 then ent 1 1 3 0 0 else none)
  else if i == 0x1F00 then
    (if j == 1 then ent 3 1 0 0 0 else if j == 2 then some { ty := 8, len := 1024, acc := 2, cls := 0, home := 0 }
     else if j == 3 then ent 1 2 0 0 0 else none)
  else none

/-- Strand entries (16 Table 16-8). -/
def entStd (i j : Nat) : Option EntrySpec :=
  if i == 0x1100 then
    (if j == 1 then ent 1 0 2 0 0xFF else if j == 2 then ent 1 0 1 1 0 else if j == 3 then ent 2 0 1 1 0 else if j == 4 then ent 4 0 1 1 0
     else if j == 5 then ent 1 0 1 1 0xFF else if j == 6 then ent 1 0 1 0 1 else if j == 7 then ent 4 0 3 0 0
     else if j == 8 then ent 1 1 3 0 0 else none)
  else if i == 0x1101 then
    (if j == 1 then ent 4 2 0 1 0 else if j == 2 then ent 1 2 0 1 0 else if j == 3 then ent 1 0 0 1 0 else if j == 4 then ent 4 0 0 1 0
     else if j == 5 then ent 1 2 0 1 0 else if j == 6 then ent 1 1 1 1 0xFF else if j == 7 then ent 1 1 1 1 0
     else if j == 8 then ent 1 1 1 1 1 else none)
  else if i == 0x1102 then (if 1 ≤ j && j ≤ 8 then ent 1 1 2 0 0 else none)
  else if i == 0x1200 then (if 1 ≤ j && j ≤ 64 then ent 3 1 1 1 0xFF else none)
  else none

/-- Configuration, tier and checkpoint entries (17 Tables 17-9, 17-10, 14 Table 14-11). -/
def entCfg (i j : Nat) : Option EntrySpec :=
  if i == 0x2000 then (if j == 1 then ent 1 2 0 1 0 else if j == 2 then ent 1 0 1 1 0 else if j == 3 then ent 3 0 0 1 0 else none)
  else if i == 0x2001 then (if j == 1 then ent 3 3 1 1 4194304 else if j == 2 then ent 3 3 1 1 65536 else none)
  else if i == 0x2100 then (if 1 ≤ j && j ≤ 10 then ent 1 3 1 1 1 else none)
  else if 0x2200 ≤ i && i ≤ 0x2207 then (if j == 1 then ent 3 3 1 1 1024 else if j == 2 then ent 3 3 1 1 262144 else none)
  else if i == 0x3000 then (if j == 1 then ent 1 3 1 1 25 else if j == 2 then ent 3 0 1 1 0 else none)
  else if 0x3100 ≤ i && i ≤ 0x3103 then
    (if j == 1 then ent 1 0 0 0 0 else if j == 2 then ent 1 2 0 0 0
     else if j == 3 then some { ty := 8, len := 512, acc := 0, cls := 3, home := 0 }
     else if j == 4 then ent 1 0 2 0 0 else if j == 5 || j == 6 then ent 3 0 2 0 0 else if j == 7 then ent 4 0 2 0 0 else none)
  else if i == 0x3800 then
    (if j == 1 then ent 1 1 1 1 0 else if j == 2 then ent 2 3 1 1 256 else if j == 3 then ent 3 1 1 1 3000 else if j == 4 then ent 1 1 1 1 0xFF
     else if j == 5 then ent 3 0 2 0 0 else none)
  else if i == 0x3801 then (if j == 1 then ent 4 0 1 1 0 else if 2 ≤ j && j ≤ 6 then ent 3 0 1 1 0 else none)
  else none

/-- Traffic, integrity, power and accounting entries (11 Table 11-6, 13 Table 13-11, 17 Tables 17-11 to 17-13, 18 Table 18-1). -/
def entRun (i j : Nat) : Option EntrySpec :=
  if i == 0x4100 then (if j == 1 then ent 2 1 1 1 8 else if j == 2 then ent 2 1 1 1 4 else if j == 3 then ent 2 1 1 1 1 else if j == 4 then ent 2 1 1 1 4 else none)
  else if i == 0x4200 then
    (if j == 1 then ent 1 1 1 1 0 else if j == 2 then ent 4 1 1 1 0 else if j == 3 then ent 1 1 1 1 10 else if j == 4 then ent 4 1 1 1 0
     else if j == 5 then ent 1 1 1 1 0 else if j == 6 then ent 4 0 1 1 0 else if j == 7 then ent 1 2 0 1 0 else none)
  else if i == 0x4201 then (if 1 ≤ j && j ≤ 64 then ent 2 1 1 1 0 else none)
  else if 0x4400 ≤ i && i ≤ 0x47FF then
    (if j == 1 then ent 1 1 1 1 1 else if j == 2 then ent 2 1 1 1 16 else if j == 3 then ent 3 1 1 1 0xFFFFFFFF else if j == 4 then ent 2 1 1 1 65535
     else if j == 5 then ent 4 0 0 1 6553500000000 else none)
  else if i == 0x5000 then (if j == 1 then ent 1 1 1 1 8 else if j == 2 then ent 3 1 1 1 100 else if j == 3 then ent 1 2 0 1 0 else none)
  else if i == 0x5001 then (if 1 ≤ j && j ≤ 10 then ent 3 0 1 1 0 else none)
  else if i == 0x5100 then (if j == 1 then some { ty := 8, len := 18, acc := 0, cls := 3, home := 0 } else none)
  else if i == 0x5200 || i == 0x5201 then (if 1 ≤ j && j ≤ 0x90 then ent 2 0 1 1 0 else none)
  else if i == 0x5300 then
    (if j == 1 then some { ty := 8, len := 2048, acc := 0, cls := 2, home := 0 } else if j == 2 then ent 3 0 2 0 0 else if j == 3 then ent 1 2 0 0 0 else none)
  else if i == 0x6000 then (if j == 1 then ent 1 0 0 0 4 else if j == 2 then ent 1 0 2 0 0 else if j == 3 then ent 3 0 2 0 0 else none)
  else if i == 0x6100 then (if j == 1 then ent 1 2 0 0 0 else none)
  else if i == 0x6200 then
    (if j == 1 then ent 2 1 2 0 0 else if j == 2 then ent 1 1 2 0 1 else if j == 3 then ent 1 2 0 0 0 else if j == 4 then ent 3 0 2 0 0 else none)
  else if i == 0x6300 then
    (if j == 1 then ent 5 0 2 0 0 else if j == 2 then ent 1 0 2 0 0 else if j == 3 then ent 5 1 2 0 1600 else if j == 4 then ent 5 1 2 0 1840
     else if j == 5 then ent 1 1 2 0 0 else if j == 6 || j == 7 then ent 3 0 2 0 0 else none)
  else if i == 0x6400 then
    (if j == 1 then ent 2 1 2 0 780 else if j == 2 || j == 3 then ent 2 0 2 0 0 else if j == 4 then ent 2 0 2 0 733 else if j == 5 then ent 2 0 2 0 702
     else if j == 6 || j == 7 then ent 3 0 2 0 0 else if j == 8 then ent 1 1 2 0 0 else if j == 9 then ent 2 2 0 1 0 else none)
  else if 0x7000 ≤ i && i ≤ 0x73FF then
    (if j == 1 then some { ty := 8, len := 128, acc := 0, cls := 1, home := 1, dflt := i - 0x7000 } else if j == 2 then ent 1 2 0 1 0 else none)
  else if 0x7400 ≤ i && i ≤ 0x77FF then (if j == 1 then ent 3 0 1 1 0 else none)
  else none

/-- The entry at an index and a nonzero subindex. -/
def entAt (i j : Nat) : Option EntrySpec :=
  if j == 0 then none else (((entId i j).or (entStd i j)).or (entCfg i j)).or (entRun i j)

/-- Highest subindex of an index; 0 when the index does not exist (17 R642). -/
def maxSub (i : Nat) : Nat := ((List.range 0x91).filter (fun j => (entAt i j).isSome)).foldl max 0

/-- The description of an entry, subindex 0 included (17 R642, R643). -/
def entrySpec (i j : Nat) : Option EntrySpec :=
  if j == 0 then (entAt i 1).map (fun e => { ty := 1, len := 1, acc := 0, cls := e.cls, home := e.home, dflt := maxSub i }) else entAt i j

/-- The accounting record of a tenant as bytes (10 Table 10-12). -/
def accountBytes (s : State) (t : Nat) : List Byte :=
  let a := s.eph.accounts.getD t {}
  natLe 2 t ++ zeros 6 ++ natLe 8 a.since ++ natLe 8 a.jobs ++ natLe 8 a.waitSum ++ natLe 8 a.waitMax ++ (a.hist.map (natLe 4)).flatten ++
  natLe 4 a.preempted ++ natLe 4 a.latePackets ++ natLe 8 a.urgentCharge ++ zeros 8

/-- A fault record as 32 bytes (13 Table 13-7). -/
def faultBytes (r : FaultRec) : List Byte :=
  natLe 8 r.tick ++ natLe 1 r.kind ++ natLe 1 r.station ++ natLe 1 r.cell ++ natLe 1 r.attempt ++ natLe 2 r.mapEpoch ++ natLe 2 r.memberEpoch ++
  natLe 8 r.object ++ natLe 4 r.detail ++ natLe 4 r.seq

/-- Bay state as CFC_STATUS.STATE codes it (09 Table 9-14). -/
def bayCode : BayMode → Nat
  | .empty => 0 | .powering => 1 | .ident => 2 | .mounting => 3 | .mounted => 4 | .readOnly => 5 | .detaching => 6 | .detached => 7 | .failed => 8

/-- Whether a copy of coffer identity memory is intact: MAGIC, FORMAT and CRC (09 R367, Table 9-10). -/
def identOk (c : List Byte) : Bool :=
  c.take 8 == ascii "CL9COFER" && fieldAt c 8 2 == 1 && fieldAt c 12 4 == crc32 ((c.drop 16).take 496)

/-- The copy of the identity memory in use: the intact copy with the newer SEQ (09 R367). -/
def identCopy (ident : List Byte) : Option (List Byte) :=
  let a := padTo 512 (ident.take 512)
  let b := padTo 512 (ident.drop 512)
  if identOk a && identOk b then some (if (fieldAt b 10 2 + 2 ^ 16 - fieldAt a 10 2) % 2 ^ 16 < 2 ^ 15 then b else a)
  else if identOk a then some a else if identOk b then some b else none

/-- Fingerprint of the cut key: the first four bytes of its SHA-256, 0 when none (14 Table 14-11; 08 R309). -/
def keyFp (k : List Byte) : Nat := leNat ((sha256 k).take 4)

/-- LAN_STATUS.STATE: OFF until 20,000 ticks after power-on, then PLCA, or CSMA with NODE_ID 0xFF (17 Table 17-15, 18 Table 18-3). -/
def sbCode (s : State) : Nat := if s.now < s.lan.powerUpAt + 20000 then 0 else if s.lan.nodeInForce = 0xFF then 2 else 1

/-- The value of an entry (its table's meaning); an entry without a value reads as zero bytes. -/
def entryValue (s : State) (i j : Nat) : List Byte :=
  let len := ((entrySpec i j).map (·.len)).getD 0
  let num := fun n => natLe len n
  let l := s.lan
  if j == 0 then num (maxSub i)
  else if i == 0x1000 then
    (if j == 1 then padTo 16 (ascii "Acesk") else if j == 2 then padTo 16 (ascii "CLT-9120") else if j == 3 then num l.dieRev
     else if j == 4 then padTo 32 l.traySerial else if j == 5 then num l.traySlot else if j == 6 then num l.settingSvn
     else if j == 7 then num l.fusedSvn else num 1)
  else if i == 0x1010 then
    (if j == 1 then num l.nodeId else if j == 2 then num (2 * 2 ^ 40 + s.std.deviceId % 2 ^ 40) else if j == 3 then num l.eventDest
     else if j == 4 then num l.sbFrames else if j == 5 then num l.sbErrors else num l.sbCollisions)
  else if i == 0x1020 then num l.cxlEn
  else if i == 0x1F00 then (if j == 1 then num l.imageOffset else num 0)
  else if i == 0x1100 then
    (if j == 1 then num (s.std.position.getD 0xFF) else if j == 2 then num s.std.count else if j == 3 then num s.std.epoch
     else if j == 4 then num s.std.members else if j == 5 then num (s.std.buddy.getD 0xFF) else if j == 6 then num (stdCode s.std.mode)
     else if j == 7 then num s.std.deviceId else num s.std.hostMode)
  else if i == 0x1101 then
    (if j == 3 then num s.std.result else if j == 4 then num s.std.missing else if j == 6 then num s.std.buddyOverride
     else if j == 7 then num s.std.timePort else if j == 8 then num s.std.chainOnly else num 0)
  else if i == 0x1102 then num (s.port (j - 1)).fence
  else if i == 0x1200 then num (s.std.route.getD (j - 1) 0xFF)
  else if i == 0x2000 then (if j == 2 then num (boolNat l.committed) else if j == 3 then num l.configError else num 0)
  else if i == 0x2001 then (if j == 1 then num l.staged.locketMax else num l.staged.charmMax)
  else if i == 0x2100 then num (l.staged.switches.getD (j - 1) 0)
  else if 0x2200 ≤ i && i ≤ 0x2207 then (if j == 1 then num (l.staged.arenaMib.getD (i - 0x2200) 0) else num (l.staged.poolPages.getD (i - 0x2200) 0))
  else if i == 0x3000 then (if j == 1 then num l.staged.ckptPercent else num l.t2Units)
  else if 0x3100 ≤ i && i ≤ 0x3103 then
    let b := s.bay (i - 0x3100)
    (if j == 1 then num (bayCode b.mode)
     else if j == 3 then (if b.mode == .empty then zeros 512 else padTo 512 (((b.coffer.map (·.ident)).bind identCopy).getD []))
     else if j == 4 then num (b.mirror.getD 3 0) else if j == 5 then num (b.mirror.getD 0 0) else if j == 6 then num (b.mirror.getD 2 0)
     else if j == 7 then num (b.mirror.getD 1 0) else num 0)
  else if i == 0x3800 then
    (if j == 1 then num s.ckpt.en else if j == 2 then num l.staged.captureBuf else if j == 3 then num s.ckpt.refresh else if j == 4 then num s.ckpt.cofferBay
     else num ((s.ckpt.cutKey.map keyFp).getD 0))
  else if i == 0x3801 then
    (if j == 1 then num s.ckpt.lastCut else if j == 2 then num s.ckpt.done else if j == 3 then num s.ckpt.skipped else if j == 4 then num s.ckpt.late
     else if j == 5 then num s.ckpt.abandoned else num s.ckpt.lastUnits)
  else if i == 0x4100 then num (s.traffic.classW.getD (if j == 4 then 0 else j) 0)
  else if i == 0x4200 then
    (if j == 1 then num s.traffic.sampleEn else if j == 2 then num s.traffic.ringBase else if j == 3 then num s.traffic.ringLog2
     else if j == 4 then num s.traffic.producer else if j == 5 then num s.traffic.watchCount else if j == 6 then num s.traffic.histOffset else num 0)
  else if i == 0x4201 then num (s.traffic.watch.getD (j - 1) 0)
  else if 0x4400 ≤ i && i ≤ 0x47FF then
    let t := s.tenant (i - 0x4400)
    (if j == 1 then num t.cls else if j == 2 then num t.weight else if j == 3 then num t.rate else if j == 4 then num t.depth
     else num (refillBucket (s.now - s.traffic.lastRefill) t).level)
  else if i == 0x5000 then (if j == 1 then num s.integ.limit else if j == 2 then num s.integ.window else num 0)
  else if i == 0x5001 then
    num ([s.integ.transient, s.integ.permanent, s.integ.tarnishMade, s.integ.tarnishConsumed, s.integ.sessionsEnded, s.integ.sramCorr,
          s.integ.meshCorr, s.integ.staleMap, s.integ.staleMember, s.integ.interruptMax].getD (j - 1) 0)
  else if i == 0x5100 then natLe 18 l.retired
  else if i == 0x5200 then num (s.cells.getD (j - 1) {}).abftCnt
  else if i == 0x5201 then num (s.cells.getD (j - 1) {}).twinCnt
  else if i == 0x5300 then (if j == 1 then padTo 2048 (l.crashLog.map faultBytes).flatten else if j == 2 then num l.crashCount else num 0)
  else if i == 0x6000 then (if j == 1 then num (powerCode l.power) else if j == 2 then num l.lastReset else num l.resetCount)
  else if i == 0x6200 then (if j == 1 then num l.wdtPeriod else if j == 2 then num l.wdtAction else if j == 4 then num l.wdtExpiries else num 0)
  else if i == 0x6300 then
    (if j == 1 then num (sEnc 32 l.tempMax) else if j == 2 then num l.tempSensor else if j == 3 then num l.warnLimit else if j == 4 then num l.tripLimit
     else if j == 5 then num (boolNat l.tripped) else if j == 6 then num l.tripCount else num l.warnCount)
  else if i == 0x6400 then
    (if j == 1 then num l.vcoreSet else if j == 2 then num l.vcoreRead else if j == 3 then num l.ioutRead else if j == 4 then num (l.vcoreSet * 94 / 100)
     else if j == 5 then num (l.vcoreSet * 90 / 100) else if j == 6 then num l.freezes else if j == 7 then num l.stops else if j == 8 then num l.powerReq else num 0)
  else if 0x7000 ≤ i && i ≤ 0x73FF then (if j == 1 then accountBytes s (i - 0x7000) else num 0)
  else if 0x7400 ≤ i && i ≤ 0x77FF then num (s.tenant (i - 0x7400)).refused
  else zeros len

/-- The value lies in the range the entry's table states (17 R644). -/
def entryRange (s : State) (i j v : Nat) : Bool :=
  if i == 0x1010 then (if j == 1 then v != 0 else v < 2 ^ 48)
  else if i == 0x1020 || i == 0x1102 || (i == 0x1100 && j == 8) then v ≤ 1
  else if i == 0x1101 then (if j == 2 || j == 5 then v == 0xA5 else if j == 7 then v ≤ 7 else if j == 8 then v ≤ 1 else true)
  else if i == 0x1200 then v < 256 && (bits v 3 0 ≤ 7 || bits v 3 0 == 0xF) && (bits v 7 4 ≤ 7 || bits v 7 4 == 0xF)
  else if i == 0x1F00 && j == 3 then v == 1 || v == 2 || v == 3 || v == 0x10
  else if i == 0x2000 || (i == 0x5300 && j == 3) || (0x7000 ≤ i && i ≤ 0x73FF) || (i == 0x5000 && j == 3) then v == 0xA5
  else if i == 0x2001 then (if j == 1 then 1024 ≤ v && v ≤ 67108864 else v ≤ 8388608)
  else if 0x2200 ≤ i && i ≤ 0x2207 then (if j == 1 then 64 ≤ v && v ≤ 16384 else v ≤ 720896)
  else if i == 0x3000 then v ≤ 90
  else if 0x3100 ≤ i && i ≤ 0x3103 then v == 1 || v == 0xA5
  else if i == 0x3800 then (if j == 1 then v ≤ 1 else if j == 3 then 64 ≤ v && v ≤ 2 ^ 31 else if j == 4 then v ≤ 3 || v == 0xFF else true)
  else if i == 0x4100 then 1 ≤ v
  else if i == 0x4200 then
    (if j == 1 then v ≤ 1 else if j == 2 then v % 4096 == 0 else if j == 3 then 10 ≤ v && v ≤ 20 else if j == 4 then v % 8 == 0
     else if j == 5 then v ≤ 64 else if j == 7 then v == 1 else true)
  else if 0x4400 ≤ i && i ≤ 0x47FF then (if j == 1 then v ≤ 2 else if j == 2 || j == 4 then 1 ≤ v else true)
  else if i == 0x5000 && j == 2 then 1 ≤ v && v ≤ 86400
  else if i == 0x6100 then v == 0x5A || v == 0xA5 || v == 0xC3
  else if i == 0x6200 then (if j == 1 then v ≤ 60000 else if j == 2 then v ≤ 2 else true)
  else if i == 0x6300 then (if j == 3 then 960 ≤ v && v ≤ 1680 else if j == 4 then 1680 ≤ v && v ≤ 1920 && s.lan.warnLimit < v else true)
  else if i == 0x6400 then (if j == 1 then 700 ≤ v && v ≤ 900 else if j == 8 then v == 0 || v == 2 || v == 3 else if j == 9 then v ≤ 1023 else true)
  else true

/-- Entries whose WRITE has a row of its own in the opcode table. -/
def ownRow (i j : Nat) : Bool :=
  (i == 0x6100 && j == 1) || (i == 0x6400 && (j == 9 || j == 1)) || (i == 0x6300 && j == 5) || (i == 0x6200 && (j == 1 || j == 3)) ||
  (i == 0x1010 && j == 1) || (i == 0x2000 && j == 1) || (i == 0x5300 && j == 3) || (i == 0x5000 && j == 3) || (i == 0x4200 && j == 7) ||
  (0x7000 ≤ i && i ≤ 0x73FF && j == 2) || (i == 0x1101 && (j == 5 || j == 2 || j == 1 || j == 8)) || i == 0x1102 ||
  (i == 0x1F00 && (j == 2 || j == 3)) || (0x3100 ≤ i && i ≤ 0x3103 && j == 2)

/-- The effect of a plain WRITE: the entry takes the value at one tick (17 R639). RWL values are staged (17 R651). -/
def entryWrite (s : State) (i j v : Nat) : State :=
  if i == 0x1010 then s.lanM fun l => { l with eventDest := v }
  else if i == 0x1020 then s.lanM fun l => { l with cxlEn := v }
  else if i == 0x1F00 then s.lanM fun l => { l with imageOffset := v, phase := match l.phase with | .running => .running | .starting t => .starting t | _ => .none }
  else if i == 0x1100 then s.stdM fun d => { d with hostMode := v }
  else if i == 0x1101 then (if j == 6 then s.stdM fun d => { d with buddyOverride := v } else s.stdM fun d => { d with timePort := v, timeFrom := none })
  else if i == 0x1200 then s.stdM fun d => { d with route := d.route.set (j - 1) v }
  else if i == 0x2001 then
    (if j == 1 then s.lanM fun l => { l with staged := { l.staged with locketMax := v } } else s.lanM fun l => { l with staged := { l.staged with charmMax := v } })
  else if i == 0x2100 then s.lanM fun l => { l with staged := { l.staged with switches := l.staged.switches.set (j - 1) v } }
  else if 0x2200 ≤ i && i ≤ 0x2207 then
    (if j == 1 then s.lanM fun l => { l with staged := { l.staged with arenaMib := l.staged.arenaMib.set (i - 0x2200) v } }
     else s.lanM fun l => { l with staged := { l.staged with poolPages := l.staged.poolPages.set (i - 0x2200) v } })
  else if i == 0x3000 then s.lanM fun l => { l with staged := { l.staged with ckptPercent := v } }
  else if i == 0x3800 then
    (if j == 1 then s.ckptM fun c => { c with en := v } else if j == 2 then s.lanM fun l => { l with staged := { l.staged with captureBuf := v } }
     else if j == 3 then s.ckptM fun c => { c with refresh := v } else s.ckptM fun c => { c with cofferBay := v })
  else if i == 0x4100 then s.trafM fun a => { a with classW := a.classW.set (if j == 4 then 0 else j) v }
  else if i == 0x4200 then
    (if j == 1 then s.trafM fun a => { a with sampleEn := v } else if j == 2 then s.trafM fun a => { a with ringBase := v, ringCount := 0 }
     else if j == 3 then s.trafM fun a => { a with ringLog2 := v, ringCount := 0 } else if j == 4 then s.trafM fun a => { a with producer := v, ringCount := 0 }
     else s.trafM fun a => { a with watchCount := v })
  else if i == 0x4201 then s.trafM fun a => { a with watch := a.watch.set (j - 1) v }
  else if 0x4400 ≤ i && i ≤ 0x47FF then
    let t := i - 0x4400
    let s := refill s
    (if j == 1 then s.tenantM t fun b => { b with cls := v } else if j == 2 then s.tenantM t fun b => { b with weight := v }
     else if j == 3 then s.tenantM t fun b =>
       { b with rate := v, level := if b.rate = 0xFFFFFFFF && v != 0xFFFFFFFF then fullLevel b.depth else b.level }
     else s.tenantM t fun b => { b with depth := v, level := min b.level (fullLevel v) })
  else if i == 0x5000 then (if j == 1 then s.integM fun g => { g with limit := v } else s.integM fun g => { g with window := v })
  else if i == 0x6200 then s.lanM fun l => { l with wdtAction := v }
  else if i == 0x6300 then (if j == 3 then s.lanM fun l => { l with warnLimit := v } else s.lanM fun l => { l with tripLimit := v })
  else s

/-! ## Requests and responses (17 R634, Table 17-2) -/

/-- A field of a request's PDU. -/
def Req.fld (r : Req) (off n : Nat) : Nat := fieldAt r.pdu off n

/-- The response PDU to a request; a result other than OK carries no data (17 R635). -/
def respPdu (r : Req) (result ty : Nat) (last : Bool) (total : Nat) (data : List Byte) : List Byte :=
  let ok := result == 0
  let d := if ok then data else []
  natLe 1 1 ++ natLe 1 (r.fld 1 1 ||| 0x80) ++ natLe 2 (r.fld 2 2) ++ natLe 2 (r.fld 4 2) ++ natLe 1 (r.fld 6 1) ++ natLe 1 (if ok then ty else 0) ++
  natLe 1 result ++ natLe 1 (boolNat (ok && last)) ++ natLe 2 d.length ++ natLe 4 (r.fld 12 4) ++ natLe 4 (if ok then total else 0) ++ natLe 4 0 ++ d

/-- A response goes to its requester: a frame that waits for the sideband, padded to 46 bytes, or the mailbox, whose BUSY clears and DONE sets
(17 R634, R659). -/
def reply (s : State) (r : Req) (act : Nat) (pdu : List Byte) : State :=
  match r.from_ with
  | .sideband mac => s.lanM fun l => { l with tx := l.tx ++ [{ dest := mac, pdu := if pdu.length < 46 then padTo 46 pdu else pdu, act := act }] }
  | .mailbox => s.lanM fun l => { l with mbox := pdu ++ l.mbox.drop pdu.length, mboxBusy := false, mboxDone := true }
  | .firmware => s

/-- A response without data. -/
def respond (s : State) (r : Req) (result : Nat) : State := 
  let e := (entrySpec (r.fld 4 2) (r.fld 6 1)).getD { ty := 0, len := 0, acc := 0, cls := 0, home := 0 }
  reply s r 0 (respPdu r result e.ty false e.len [])

/-- A request joins the order of requests; one that finds 16 waiting is answered BUSY (17 R636). -/
def enqueueReq (s : State) (r : Req) : State :=
  if 16 ≤ s.lan.queue.length then respond s r 7 else s.lanM fun l => { l with queue := l.queue ++ [r] }

/-- LAN_MBOX_CTL.GO: the mailbox's PDU joins the requests, unless one is in execution or its LENGTH exceeds 1,024 (17 R659). -/
def mboxGo (s : State) : State :=
  if s.lan.mboxBusy || 1024 < fieldAt s.lan.mbox 10 2 then s
  else enqueueReq (s.lanM fun l => { l with mboxBusy := true }) { from_ := .mailbox, pdu := s.lan.mbox, since := s.now }

end Sys2Proof.Machine
end

