-- ==== Sys2Proof/Machine/Extents.lean ====
section
/-!
DEFINITION. Sys2Proof/Machine/Extents.lean: extents in T2 and T3, the T2 run allocator, the flash write streams of a bay, and Courier
descriptors (09 R339 to R365).
-/
namespace Sys2Proof.Machine

/-! ## T2 -/

/-- Runs of T2 units in use, in ascending address (09 R340). -/
def usedRuns (s : State) : List (Nat × Nat) :=
  sortBy (fun a b => a.1 ≤ b.1) ((s.extents.vals.map (·.runs)).flatten)

/-- The free runs of a partition between two unit numbers, given the used runs in ascending address. -/
def gaps (hi : Nat) : Nat → List (Nat × Nat) → List (Nat × Nat)
  | lo, [] => if lo < hi then [(lo, hi - lo)] else []
  | lo, (a, n) :: rest => (if lo < min a hi then [(lo, min a hi - lo)] else []) ++ gaps hi (max lo (a + n)) rest

/-- Takes units from free runs in the order given. -/
def takeRuns : Nat → List (Nat × Nat) → List (Nat × Nat) × Nat
  | need, [] => ([], need)
  | need, (a, n) :: rest =>
    if need = 0 then ([], 0) else
    let k := min need n
    let r := takeRuns (need - k) rest
    ((a, k) :: r.1, r.2)

/-- First unit and length of a T2 partition: extents from unit 0 on, checkpoints after them (09 R338; log 14). -/
def partition (s : State) (ckpt : Bool) : Nat × Nat := if ckpt then (s.cur.t2Size, s.cur.ckptSize) else (0, s.cur.t2Size)

/-- Free units of a partition. -/
def t2Free (s : State) (ckpt : Bool) : Nat :=
  let p := partition s ckpt
  (gaps (p.1 + p.2) p.1 ((usedRuns s).filter (fun r => p.1 ≤ r.1 && r.1 < p.1 + p.2))).foldl (fun a r => a + r.2) 0

/-- Runs for a number of units: free runs in descending size, then ascending address, at most 64; none when they do not suffice (09 R340). -/
def allocRuns (s : State) (ckpt : Bool) (units : Nat) : Option (List (Nat × Nat)) :=
  let p := partition s ckpt
  let free := sortBy (fun a b => b.2 < a.2 || (a.2 == b.2 && a.1 ≤ b.1))
    (gaps (p.1 + p.2) p.1 ((usedRuns s).filter (fun r => p.1 ≤ r.1 && r.1 < p.1 + p.2)))
  let r := takeRuns units free
  if r.2 = 0 && r.1.length ≤ 64 then some r.1 else none

/-- The T2 unit that holds a unit of an extent, by the extent's runs. -/
def runUnit : List (Nat × Nat) → Nat → Nat
  | [], i => i
  | (a, n) :: rest, i => if i < n then a + i else runUnit rest (i - n)

/-- The lockstep group that holds a T2 unit, and the unit within it (09 R336). -/
def lockstep (u : Nat) : Nat × Nat := (u % 8, u / 8)

/-- The LPC that drives a lockstep group: each drives two (09 R334). -/
def lpcOf (u : Nat) : Nat := (lockstep u).1 / 2

/-- The LPC of a T2 unit drops a write to it and counts it (09 R337). -/
def guardWrite (s : State) (u : Nat) : State :=
  { s with lpc := s.lpc.modify (lpcOf u) fun l => { l with evGuard := true, guard := wrapInc 32 l.guard } }

/-- T2 is fitted: parts are named and no LPC has failed (09 R335). -/
def t2Fitted (s : State) : Bool := s.lan.t2Units != 0 && s.lpc.all (fun l => l.mode != .failed)

/-! ## Coffers and their flash -/

/-- A field of the identity memory in use of the coffer in a bay. -/
def identFld (s : State) (n off len : Nat) : Nat :=
  fieldAt ((((s.bay n).coffer.map (·.ident)).bind identCopy).getD []) off len

/-- HOLDUP_US in ticks (09 Table 9-10). -/
def holdup (s : State) (n : Nat) : Nat := min (identFld s n 60 4 * 100) 5000000

/-- Spare blocks of one die on one channel (09 R365). -/
def sparesPerDie (s : State) (n : Nat) : Nat := identFld s n 80 4 / max 1 (16 * identFld s n 33 1)

/-- Numbers d × BLOCKS_PER_DIE + b of the superblocks outside the spare blocks, which are the last blocks of each die (09 R353, R365; log 14). -/
def sbNums (s : State) (n : Nat) : List Nat :=
  let bpd := identFld s n 44 4
  ((List.range (identFld s n 33 1)).map (fun d => (List.range (bpd - sparesPerDie s n)).map (· + d * bpd))).flatten

/-- A superblock by number; one not listed is free with no erase. -/
def sbAt (c : Coffer) (k : Nat) : Superblock := c.sbs.getD k {}

/-- Numbers of the free superblocks of a bay. The first four form the JOURNAL ring (09 R354; log 14). -/
def freeSbs (s : State) (n : Nat) : List Nat :=
  match (s.bay n).coffer with
  | none => []
  | some c => ((sbNums s n).drop 4).filter (fun k => (sbAt c k).state == .free)

/-- Units of the extents that stand on a bay's coffer. -/
def usedUnits (c : Coffer) : Nat := c.extents.vals.foldl (fun a e => a + e.units) 0

/-- Free user units of a bay; the capacity of a superblock that was retired has left them (09 R365, Table 9-14). -/
def bayFree (s : State) (n : Nat) : Nat :=
  match (s.bay n).coffer with
  | none => 0
  | some c => identFld s n 64 8 / 4096 - 60 * identFld s n 40 4 * (c.bads.filter (fun b => b.2.2.2 == 0xFFFFFFFF)).length - usedUnits c

/-- The bay accepts extent writes: MOUNTED (09 R369, R723). -/
def writable (s : State) (n : Nat) : Bool := (s.bay n).mode == .mounted

/-- T3 is fitted (09 R723). -/
def t3Fitted (s : State) : Bool := (List.range 4).any (writable s)

/-- The writable bay with the most free space, ties to the lower (08 R298). -/
def bestBay (s : State) : Option Nat :=
  (List.range 4).foldl (fun b n => if writable s n && (match b with | none => true | some m => bayFree s m < bayFree s n) then some n else b) none

/-- The state with the coffer of a bay changed. -/
def cofferM (s : State) (n : Nat) (f : Coffer → Coffer) : State := s.bayM n fun b => { b with coffer := b.coffer.map f }

/-- Records that one superblock of the JOURNAL ring holds: pages of 256 records on the 15 data channels of each row (09 R353, R354, R359; log 65). -/
def ringCap (s : State) (n : Nat) : Nat := 256 * 15 * max 1 (identFld s n 40 4)

/-- A record joins the JOURNAL ring: in the superblock that takes records, or, where that is full, in the next one, which is erased first (09 R354). -/
def ringAdd (cap next : Nat) (r : JRec) (c : Coffer) : Coffer :=
  if c.jCounts.getD c.jAt 0 < cap then
    { c with journal := c.journal ++ [r], jSeq := wrapInc 32 c.jSeq, jCounts := c.jCounts.modify c.jAt (· + 1) }
  else
    { c with journal := c.journal.drop (c.jCounts.getD ((c.jAt + 1) % 4) 0) ++ [r], jSeq := wrapInc 32 c.jSeq, jAt := (c.jAt + 1) % 4
             jCounts := c.jCounts.set ((c.jAt + 1) % 4) 1, sbs := c.sbs.set next { state := .journal, erase := (sbAt c next).erase + 1 } }

/-- Writes one journal record; an erase in the ring counts with the others (09 R354, R359, R368). -/
def journal (s : State) (n : Nat) (r : JRec) : State :=
  let next := fun (c : Coffer) => (sbNums s n).getD ((c.jAt + 1) % 4) 0
  let erased := ((s.bay n).coffer.map (fun c => if c.jCounts.getD c.jAt 0 < ringCap s n then 0 else (sbAt c (next c)).erase + 1)).getD 0
  (cofferM s n fun c => ringAdd (ringCap s n) (next c) r c).bayM n fun b =>
    { b with sinceCkpt := b.sinceCkpt + 1
             mirror := if erased = 0 then b.mirror else [b.mirror.getD 0 0, b.mirror.getD 1 0 + 16, max erased (b.mirror.getD 2 0), b.mirror.getD 3 0] }

/-- The CFC writes a complete map image: a CHECKPOINT record (09 R359). -/
def mapImage (s : State) (n : Nat) : State := (journal s n .checkpoint).bayM n fun b => { b with sinceCkpt := 0 }

/-- The free superblock a stream opens next: of lowest erase count for WRITE, of highest for RELOC (09 R363). -/
def nextSb (c : Coffer) (free : List Nat) (reloc : Bool) : Option Nat :=
  free.foldl (fun b k => match b with
    | none => some k
    | some j => if (if reloc then (sbAt c j).erase < (sbAt c k).erase else (sbAt c k).erase < (sbAt c j).erase) then some k else some j) none

/-- Marks a piece that holds no valid unit any more; no EXTENT_ID reaches it (08 R312). -/
def voidExt : Nat := 2 ^ 64

/-- Places of a superblock that hold units or are void. -/
def placesUsed (b : Superblock) : Nat := b.pieces.foldl (fun a p => a + p.2.2) 0

/-- Units at the places that follow those in use; units that follow the last piece's lengthen it. -/
def addPiece (ps : List (Nat × Nat × Nat)) (ext first n : Nat) : List (Nat × Nat × Nat) :=
  match ps.getLast? with
  | some (e, f, k) => if e == ext && f + k == first then ps.dropLast ++ [(e, f, k + n)] else ps ++ [(ext, first, n)]
  | none => [(ext, first, n)]

/-- State of the open superblock of a stream (09 R354). -/
def streamState (reloc : Bool) : SbState := if reloc then .openReloc else .openWrite

/-- Units are appended to the WRITE or RELOC stream in order of arrival, a row's pages, parity included, being programmed when it is full; the stream
continues into the superblock opened for it next (09 R353, R354, R363); false when none is free. -/
def putUnits (s : State) (n ext : Nat) (reloc : Bool) : Nat → Nat → Nat → State × Bool
  | 0, _, _ => (s, true)
  | fuel + 1, first, count =>
    if count = 0 then (s, true) else
    match (s.bay n).coffer with
    | none => (s, false)
    | some c =>
      let st := streamState reloc
      let places := 60 * identFld s n 40 4
      match c.sbs.find? (fun e => e.2.state == st && placesUsed e.2 < places) with
      | some (k, b) =>
        let used := placesUsed b
        let fit := min count (places - used)
        let rows := (used + fit) / 60
        let b' := { b with rows := rows, pieces := addPiece b.pieces ext first fit, state := if used + fit < places then b.state else .closed }
        let s := cofferM s n fun c => { c with sbs := c.sbs.set k b' }
        let s := s.bayM n fun y => { y with programs := y.programs ++ (List.range (rows - used / 60)).map (fun i => (k, used / 60 + i)) }
        let s := if reloc && ext != voidExt then journal s n (.reloc ext first fit k) else s
        putUnits s n ext reloc fuel (first + fit) (count - fit)
      | none =>
        match nextSb c (freeSbs s n) reloc with
        | none => (s, false)
        | some k =>
          let e := (sbAt c k).erase
          let s := cofferM s n fun c => { c with sbs := c.sbs.set k { state := st, erase := e } }
          putUnits (journal s n (.openSb k st e)) n ext reloc fuel first count

/-- The open row of a stream is closed: its remaining places become void units, and it is programmed with its parity page (09 R355). -/
def closeRow (s : State) (n : Nat) (reloc : Bool) : State :=
  match ((s.bay n).coffer.bind (fun c => c.sbs.find? (fun e => e.2.state == streamState reloc && placesUsed e.2 % 60 != 0))) with
  | some (_, b) => (putUnits s n voidExt reloc 1 0 (60 - placesUsed b % 60)).1
  | none => s

/-- A relocated piece of an extent, or a row written again, is appended from a row boundary on and its last row is closed (09 R354, R355, R358). -/
def appendUnits (s : State) (n ext : Nat) (reloc : Bool) (fuel first count : Nat) : State × Bool :=
  let r := putUnits (closeRow s n reloc) n ext reloc fuel first count
  (closeRow r.1 n reloc, r.2)

/-- The pieces of an extent become void in every superblock of a coffer. -/
def dropPieces (c : Coffer) (ext : Nat) : Coffer :=
  { c with sbs := c.sbs.map (fun e => (e.1, { e.2 with pieces := e.2.pieces.map (fun p => if p.1 = ext then (voidExt, p.2) else p) })) }

/-- The next extent identifier: boot nonce in bits [63:40] and the counter (08 R312). -/
def newExtentId (s : State) : State × Nat :=
  (s.lanM fun l => { l with extentCount := (l.extentCount + 1) % 2 ^ 40 }, s.lan.bootNonce * 2 ^ 40 + s.lan.extentCount)

/-- An extent enters WRITING: T2 runs are taken, or room for it is found on the bay, whose WRITE stream its units join as they arrive (09 R339, R354, R362);
none when there is no room. -/
def openExtent (s : State) (e : Extent) : Option (State × Nat) :=
  let (s1, id) := newExtentId s
  if e.tier = 2 then
    match allocRuns s e.ckpt e.units with
    | none => none
    | some runs => some ({ s1 with extents := s1.extents.set id { e with runs := runs } }, id)
  else if writable s e.bay && e.units ≤ bayFree s e.bay && 2 ≤ (freeSbs s e.bay).length then
    some (cofferM { s1 with extents := s1.extents.set id e } e.bay fun c => { c with extents := c.extents.set id e }, id)
  else none

/-- Bytes with one 4 KiB unit replaced. -/
def setUnit (data : List Byte) (u : Nat) (b : List Byte) : List Byte := padTo (4096 * u) (data.take (4096 * u)) ++ padTo 4096 b ++ data.drop (4096 * u + 4096)

/-- An extent with one unit written: its bytes and the tarnished codewords among them. -/
def Extent.withUnit (e : Extent) (u : Nat) (b : List Byte) (tarn : List Nat) : Extent :=
  { e with data := setUnit e.data u b, tarnish := e.tarnish.filter (fun t => t / 256 != u) ++ tarn.map (· + 256 * u), got := e.got + 1 }

/-- A unit of an extent that stands on a coffer takes the next place of the bay's WRITE stream; the extent's first starts a row (09 R354). -/
def streamUnit (s : State) (n id u : Nat) (e : Extent) : State :=
  cofferM (putUnits (if e.got ≤ 1 then closeRow s n false else s) n id false 3 u 1).1 n fun c => { c with extents := c.extents.set id e }

/-- The Courier sends one unit to an extent: WRITING takes it, and after SEALED it is dropped, in T2 by the unit's LPC, which counts it (09 R337, R339). -/
def writeUnit (s : State) (id u : Nat) (b : List Byte) (tarn : List Nat) : State :=
  match s.extents.get? id with
  | none => s
  | some e =>
    if e.sealed then (if e.tier = 2 then guardWrite s (runUnit e.runs u) else s) else
    let e := e.withUnit u b tarn
    let s := { s with extents := s.extents.set id e }
    if e.tier = 2 then s else streamUnit s e.bay id u e

/-- Frees an extent at once: T2 runs return, T3 gets a FREE record when it was sealed (09 R339). -/
def dropExtent (s : State) (id : Nat) : State :=
  match s.extents.get? id with
  | none => s
  | some e =>
    let s := { s with extents := s.extents.erase id }
    if e.tier = 2 then s else
    let s := if e.sealed then journal s e.bay (.freeExt id) else s
    cofferM s e.bay fun c => dropPieces { c with extents := c.extents.erase id } id

/-- FREE_EXTENT: at once, or when the reads in progress end (09 R339). -/
def freeExtent (s : State) (id : Nat) : State :=
  match s.extents.get? id with
  | none => s
  | some e => if e.readers.isEmpty then dropExtent s id else { s with extents := s.extents.upd id fun e => { e with freeing := true } }

/-- The open row of a bay's WRITE stream is closed and the SEAL record of an extent is issued (09 R355, R357). -/
def sealOn (s : State) (n id : Nat) (e : Extent) : State :=
  cofferM (journal (closeRow s n false) n (.sealExt id)) n fun c => { c with extents := c.extents.set id { e with sealed := true } }

/-- An extent is sealed: on T3 its last row is closed and its SEAL record is issued (09 R339, R355, R357). -/
def sealExtent (s : State) (id : Nat) : State :=
  match s.extents.get? id with
  | none => s
  | some e =>
    let s := { s with extents := s.extents.set id { e with sealed := true } }
    if e.tier = 2 then s else sealOn s e.bay id e

/-! ## The Courier -/

/-- Channels of a group: 0 to 7 reserved, 8 to 31 for every other descriptor (09 R344). -/
def channelGroup (reserved : Bool) : List Nat := if reserved then List.range 8 else (List.range 24).map (· + 8)

/-- A descriptor takes the lowest free channel of its group, or waits (09 R344). -/
def place (c : Cur) (d : Desc) : Cur :=
  match (channelGroup d.reservedCh).find? (fun k => !(c.channels.has k)) with
  | some k => if c.enable then { c with channels := c.channels.set k d } else { c with waiting := c.waiting ++ [d] }
  | none => { c with waiting := c.waiting ++ [d] }

/-- Waiting descriptors take free channels in submission order (09 R344). -/
def settle (c : Cur) : Cur := c.waiting.foldl place { c with waiting := [] }

/-- Unit-list entry of a unit that is read as zero bytes and never written (09 R347). -/
def zeroUnit : Nat := 2 ^ 63

/-- The entry of a unit: bits [38:12] of its T1 address (09 R347). -/
def unitEntry (a : Nat) : Nat := a / 4096 % 2 ^ 27 * 4096

/-- An entry's reserved bits are 0 (09 R347). -/
def entryOk (e : Nat) : Bool := e % 2 ^ 63 == unitEntry e && e < 2 ^ 64

/-- T1 address of the unit list of a descriptor's side, in the control area of stack 0 (09 Table 9-1; log 66). -/
def listAddr (cookie side : Nat) : Nat := 2 ^ 25 + cookie % 16 * 2 ^ 21 + side * 2 ^ 20

/-- Descriptors that the control complex may have to abandon: all but frees and answers to a peer (09 R349). -/
def mayAbandon (p : Purpose) : Bool :=
  match p with
  | .freeExt _ | .peer _ | .peerExt _ _ => false
  | _ => true

/-- The descriptor that firmware writes for a transfer (09 R346). -/
def prepare (k now : Nat) (d : Desc) : Desc :=
  { d with cookie := k, since := now, units := max 1 d.units, abandonable := mayAbandon d.purpose
           src := if d.srcList.isEmpty then d.src else listAddr k 0, dst := if d.dstList.isEmpty then d.dst else listAddr k 1 }

/-- FLAGS (09 Table 9-5). -/
def descFlags (d : Desc) : Nat := maskOf [d.keySlot.isSome, d.digest, !d.srcList.isEmpty, !d.dstList.isEmpty, d.reservedCh, d.abandonable]

/-- A descriptor as its 64 bytes (09 Table 9-5). -/
def courierBytes (d : Desc) : List Byte :=
  natLe 1 d.op ++ natLe 1 (descFlags d) ++ natLe 2 d.tenant ++ natLe 1 d.tier ++ natLe 1 d.bay ++ natLe 1 (d.keySlot.getD 0xFF) ++ zeros 1 ++ natLe 8 d.units ++ natLe 8 d.src ++
  natLe 8 d.dst ++ natLe 8 d.extent ++ natLe 8 d.digestAddr ++ natLe 1 d.peer ++ zeros 1 ++ natLe 2 d.epoch ++ zeros 4 ++ natLe 8 d.cookie

/-- The descriptor meets the layout: Table 9-5's ranges and Table 9-6's combinations (09 R346, R347). -/
def descOk (d : Desc) : Bool :=
  let ext := d.op == 2 || d.op == 3 || d.op == 4
  1 ≤ d.op && d.op ≤ 7 && d.tenant < 1024 && (if ext then d.tier == 2 || d.tier == 3 else d.tier == 1) && (if d.tier = 3 then d.bay < 4 else d.bay == 0xFF) &&
  (match d.keySlot with | some k => k < 2 | none => true) && 1 ≤ d.units && d.peer < 64 && d.epoch < 65536 &&
  (d.srcList.isEmpty || d.srcList.length == d.units) && (d.dstList.isEmpty || d.dstList.length == d.units) && (d.srcList ++ d.dstList).all entryOk

/-- Submits a descriptor; its cookie is the model's count (09 R345, R346). -/
def submit (s : State) (d : Desc) : State :=
  let k := s.cur.nextCookie
  let s := s.curM fun c => place { c with nextCookie := k + 1 } (prepare k s.now d)
  if d.op = 3 || d.op = 5 then { s with extents := s.extents.upd d.extent fun e => { e with readers := e.readers ++ [k] } } else s

/-- Every descriptor that the Courier holds. -/
def allDescs (s : State) : List Desc := s.cur.channels.vals ++ s.cur.waiting

/-- The channel that holds the descriptor of a cookie. -/
def channelOf (s : State) (cookie : Nat) : Option (Nat × Desc) := s.cur.channels.find? (fun e => e.2.cookie == cookie)

/-- A read of an extent ends; a FREE_EXTENT that waited takes effect (09 R339). -/
def endRead (s : State) (d : Desc) : State :=
  if d.op = 3 || d.op = 5 then
    let s := { s with extents := s.extents.upd d.extent fun e => { e with readers := e.readers.filter (· != d.cookie) } }
    match s.extents.get? d.extent with
    | some e => if e.freeing && e.readers.isEmpty then dropExtent s d.extent else s
    | none => s
  else s

/-- Takes a descriptor away from its channel or from the waiting list. -/
def removeDesc (s : State) (d : Desc) : State :=
  endRead (s.curM fun c => settle
    { c with channels := c.channels.filter (fun e => e.2.cookie != d.cookie), waiting := c.waiting.filter (fun w => w.cookie != d.cookie) }) d

/-- The completion record of a descriptor (09 Table 9-7). -/
def doneRec (s : State) (d : Desc) (status : Nat) : DescDone := { cookie := d.cookie, purpose := d.purpose, status := status, unitsDone := d.sent, tick := s.now }

/-- The Courier writes a descriptor's completion record; the ring holds the last 1,024 (09 R350; log 66). -/
def writeRecord (s : State) (d : Desc) (status : Nat) : State :=
  s.curM fun c => { c with records := (c.records ++ [doneRec s d status]).drop (c.records.length - 1023) }

/-- A completion record as its 32 bytes (09 Table 9-7). -/
def doneBytes (r : DescDone) : List Byte := natLe 8 r.cookie ++ natLe 1 r.status ++ zeros 3 ++ natLe 4 r.unitsDone ++ natLe 8 r.tick ++ zeros 8

/-- What an unfinished WRITE_EXTENT left is undone: T2 runs are freed, T3 units stay without a SEAL record (09 Table 9-3). -/
def undoWrite (s : State) (d : Desc) : State :=
  if d.op != 2 then s else
  match d.purpose with
  | .coffer _ => cofferM s d.bay fun c => if ((c.extents.get? d.extent).map (·.sealed)).getD true then c else dropPieces { c with extents := c.extents.erase d.extent } d.extent
  | _ => dropExtent s d.extent

/-- A descriptor with ABANDONABLE set is abandoned: it leaves the Courier, its partial effects are undone, and it completes ABANDONED; one without it runs to
its end (09 R349, Table 9-3). -/
def abandonDesc (s : State) (d : Desc) : State :=
  if !d.abandonable then s else
  let s := writeRecord (removeDesc s d) d 1
  undoWrite (s.curM fun c => { c with evAbandon := true, abandoned := wrapInc 32 c.abandoned }) d

/-- Abandons every descriptor of a purpose and forgets its completion records. -/
def abandonFor (s : State) (p : Purpose → Bool) : State :=
  let s := ((allDescs s).filter (fun d => p d.purpose)).foldl abandonDesc s
  s.curM fun c => { c with done := c.done.filter (fun r => !p r.purpose) }

/-- A completion record not yet taken, for a purpose (09 R350). -/
def doneFor (s : State) (p : Purpose) : Option DescDone := s.cur.done.find? (fun r => r.purpose == p)

/-- The control complex takes a completion record. -/
def takeDone (s : State) (r : DescDone) : State := s.curM fun c => { c with done := c.done.filter (fun q => q.cookie != r.cookie) }

/-- The first untaken completion record of a purpose is taken: its status. -/
def consume (s : State) (p : Purpose) : Option (State × Nat) :=
  if s.lan.refclk then (doneFor s p).map (fun r => (takeDone s r, r.status)) else none

end Sys2Proof.Machine
end

