-- ==== Sys2Proof/Machine/Nand.lean ====
section
/-!
DEFINITION. Sys2Proof/Machine/Nand.lean: what the flash of a coffer holds: the places of units, frames with their spare bytes, and the pages and parity of a row
(09 R353 to R356, R361).
-/
namespace Sys2Proof.Machine

/-- The unit at a place of a superblock: its extent and index; void places name no extent. -/
def placeUnit : List (Nat × Nat × Nat) → Nat → Nat × Nat
  | [], _ => (voidExt, 0)
  | (e, first, n) :: rest, i => if i < n then (e, first + i) else placeUnit rest (i - n)

/-- The place of a unit of an extent in a superblock. -/
def unitPlace (ext u : Nat) : List (Nat × Nat × Nat) → Nat → Option Nat
  | [], _ => none
  | (e, first, n) :: rest, i => if e == ext && first ≤ u && u < first + n then some (i + (u - first)) else unitPlace ext u rest (i + n)

/-- The superblock and place that hold a unit of an extent. -/
def findUnit (c : Coffer) (ext u : Nat) : Option (Nat × Nat) := c.sbs.findSome? (fun e => (unitPlace ext u e.2.pieces 0).map (fun i => (e.1, i)))

/-- The frame of a unit: 4,096 data bytes, then EXTENT_ID, unit index, flags VOID and UNIT0, the tarnish map, the CRC-32 of all of these, and the CFC's own
code (09 R356). -/
def frameBytes (ext u : Nat) (data : List Byte) (tarn : List Nat) : List Byte :=
  let void := ext == voidExt
  let b := padTo 4096 data ++ natLe 8 (if void then 0 else ext) ++ natLe 4 (if void then 0 else u) ++ natLe 1 (maskOf [void, !void && u == 0]) ++ zeros 3 ++
    natLe 32 (tarn.foldl (fun m c => m ||| 2 ^ c) 0)
  let f := b ++ natLe 4 (crc32 b) ++ zeros 12
  f ++ padTo 448 (Config.frameCode f)

/-- The frame at a place of a superblock. -/
def frameAt (c : Coffer) (k i : Nat) : List Byte :=
  let u := placeUnit (sbAt c k).pieces i
  match c.extents.get? u.1 with
  | some e => frameBytes u.1 u.2 (bytesAt e.data (4096 * u.2) 4096) ((e.tarnish.filter (fun t => t / 256 == u.2)).map (· % 256))
  | none => frameBytes voidExt 0 [] []

/-- The channel of the i-th data page of a row: every channel but the parity page's, p mod 16, in ascending order (09 R353). -/
def dataChannel (row i : Nat) : Nat := if i < row % 16 then i else i + 1

/-- A data page of a row: four frames (09 R352, R353, R356). -/
def dataPage (c : Coffer) (k row i : Nat) : List Byte := ((List.range 4).map (fun j => frameAt c k (60 * row + 4 * i + j))).flatten

/-- The XOR of two byte lists of one length. -/
def xorBytes (a b : List Byte) : List Byte := (a.zip b).map (fun e => e.1 ^^^ e.2)

/-- The page of a channel in a row of a superblock: on channel p mod 16 the XOR of the other 15, spare bytes included (09 R353). -/
def pageAt (c : Coffer) (k row ch : Nat) : List Byte :=
  if ch = row % 16 then (List.range 15).foldl (fun a i => xorBytes a (dataPage c k row i)) (zeros 18432)
  else dataPage c k row (if ch < row % 16 then ch else ch - 1)

/-- The frame of a place as the page of its channel holds it. -/
def readFrame (c : Coffer) (k i : Nat) : List Byte :=
  let row := i / 60
  bytesAt (pageAt c k row (dataChannel row (i % 60 / 4))) (4608 * (i % 4)) 4608

/-- A unit of an extent on a coffer as its frame delivers it: the data bytes, and the marked codewords as tarnish; a unit that no place holds is delivered as
tarnish (09 R342, R361). -/
def coffUnit (c : Coffer) (ext u : Nat) : List Byte × List Nat :=
  match findUnit c ext u with
  | some (k, i) => let f := readFrame c k i; (f.take 4096, (List.range 256).filter (bitAt (fieldAt f 4112 32)))
  | none => (zeros 4096, List.range 256)

/-- A unit of an extent as a read delivers it: from T2, or from its frame on the coffer (09 R339, R342, R361). -/
def extentUnit (s : State) (id : Nat) (e : Extent) (u : Nat) : List Byte × List Nat :=
  if e.tier = 2 then (padTo 4096 (bytesAt e.data (4096 * u) 4096), (e.tarnish.filter (fun t => t / 256 == u)).map (· % 256))
  else match (s.bay e.bay).coffer with
    | some c => coffUnit c id u
    | none => (zeros 4096, List.range 256)

end Sys2Proof.Machine
end

