-- ==== Sys2Proof/Machine/Aes.lean ====
section
/-!
DEFINITION. Sys2Proof/Machine/Aes.lean: AES-256 (FIPS 197) and XTS-AES-256 (IEEE 1619), which 08 R308 to R311 name for tenant extents.
The S-box is computed as FIPS 197 defines it: inversion in GF(2^8) and an affine map.
-/
namespace Sys2Proof.Machine

/-- Doubling in GF(2^8) with x^8 + x^4 + x^3 + x + 1. -/
def gfDouble (x : Nat) : Nat := if x < 128 then 2 * x else (2 * x - 256) ^^^ 0x1B

/-- Product in GF(2^8), one bit of the second factor per step. -/
def gfMulGo : Nat → Nat → Nat → Nat
  | 0, _, _ => 0
  | n + 1, x, y => (if y % 2 = 1 then x else 0) ^^^ gfMulGo n (gfDouble x) (y / 2)

/-- Product in GF(2^8). -/
def gfMul (x y : Nat) : Nat := gfMulGo 8 x y

/-- x to the power 2^k. -/
def gfSquares : Nat → Nat → Nat
  | 0, x => x
  | k + 1, x => gfSquares k (gfMul x x)

/-- Inverse in GF(2^8): x^254, and 0 for 0. -/
def gfInv (x : Nat) : Nat :=
  (List.range 7).foldl (fun acc k => gfMul acc (gfSquares (k + 1) x)) 1 |> fun r => if x = 0 then 0 else r

/-- Rotation left of a byte. -/
def rotl8 (n x : Nat) : Nat := ((x <<< n) ||| (x >>> (8 - n))) % 256

/-- One S-box entry. -/
def sboxOf (x : Nat) : Nat :=
  let b := gfInv x
  b ^^^ rotl8 1 b ^^^ rotl8 2 b ^^^ rotl8 3 b ^^^ rotl8 4 b ^^^ 0x63

/-- The S-box. -/
def sboxTable : List Nat := (List.range 256).map sboxOf

/-- The inverse S-box. -/
def invSboxTable : List Nat := (List.range 256).map (fun y => (sboxTable.findIdx? (· == y)).getD 0)

/-- S-box of a byte. -/
def sub (x : Nat) : Nat := sboxTable.getD x 0

/-- Inverse S-box of a byte. -/
def invSub (x : Nat) : Nat := invSboxTable.getD x 0

/-- Byte-wise exclusive or. -/
def xorL (a b : List Nat) : List Nat := (a.zip b).map (fun p => p.1 ^^^ p.2)

/-- Key expansion of a 32-byte key: words are lists of four bytes; `n` further words are made. -/
def expandGo : Nat → Nat → Nat → List (List Nat) → List (List Nat)
  | 0, _, _, ws => ws
  | n + 1, i, rcon, ws =>
    let prev := ws.getD (i - 1) []
    let t := if i % 8 = 0 then xorL ((prev.drop 1 ++ prev.take 1).map sub) [rcon, 0, 0, 0]
      else if i % 8 = 4 then prev.map sub else prev
    expandGo n (i + 1) (if i % 8 = 0 then gfDouble rcon else rcon) (ws ++ [xorL (ws.getD (i - 8) []) t])

/-- A key cut into words of four bytes. -/
def keyWords : Nat → List Nat → List (List Nat)
  | 0, _ => []
  | n + 1, k => k.take 4 :: keyWords n (k.drop 4)

/-- The 15 round keys of AES-256, each 16 bytes. -/
def roundKeys (key : List Nat) : List (List Nat) :=
  let ws := expandGo 52 8 1 (keyWords 8 key)
  (List.range 15).map (fun r => ((ws.drop (4 * r)).take 4).flatten)

/-- ShiftRows as a reading order of the column-major state. -/
def shiftRows (st : List Nat) : List Nat := (List.range 16).map (fun i => st.getD ((i + 4 * (i % 4)) % 16) 0)

/-- Inverse of ShiftRows. -/
def invShiftRows (st : List Nat) : List Nat := (List.range 16).map (fun i => st.getD ((i + 16 - 4 * (i % 4)) % 16) 0)

/-- One column times a circulant row of factors. -/
def mixCol (f : Nat × Nat × Nat × Nat) (c : List Nat) : List Nat :=
  (List.range 4).map (fun i =>
    gfMul (c.getD i 0) f.1 ^^^ gfMul (c.getD ((i + 1) % 4) 0) f.2.1 ^^^ gfMul (c.getD ((i + 2) % 4) 0) f.2.2.1 ^^^ gfMul (c.getD ((i + 3) % 4) 0) f.2.2.2)

/-- All four columns. -/
def mixCols (f : Nat × Nat × Nat × Nat) (st : List Nat) : List Nat :=
  ((List.range 4).map (fun i => mixCol f ((st.drop (4 * i)).take 4))).flatten

/-- The inner rounds of encryption. -/
def encRounds : List (List Nat) → List Nat → List Nat
  | [], st => st
  | [k], st => xorL (shiftRows (st.map sub)) k
  | k :: ks, st => encRounds ks (xorL (mixCols (2, 3, 1, 1) (shiftRows (st.map sub))) k)

/-- AES-256 encryption of one block under expanded round keys. -/
def aesEnc (rk : List (List Nat)) (blk : List Nat) : List Nat := encRounds (rk.drop 1) (xorL blk (rk.getD 0 []))

/-- The inner rounds of decryption, keys in reverse order after the last. -/
def decRounds : List (List Nat) → List Nat → List Nat
  | [], st => st
  | [k], st => xorL ((invShiftRows st).map invSub) k
  | k :: ks, st => decRounds ks (mixCols (14, 11, 13, 9) (xorL ((invShiftRows st).map invSub) k))

/-- AES-256 decryption of one block under expanded round keys. -/
def aesDec (rk : List (List Nat)) (blk : List Nat) : List Nat :=
  let r := rk.reverse
  decRounds (r.drop 1) (xorL blk (r.getD 0 []))

/-- Multiplication of an XTS tweak by x, as a little-endian 128-bit number. -/
def tweakDouble (t : Nat) : Nat := if t < 2 ^ 127 then 2 * t else (2 * t - 2 ^ 128) ^^^ 0x87

/-- The tweak of each of n blocks of a data unit. -/
def tweaks : Nat → Nat → List Nat
  | 0, _ => []
  | n + 1, t => t :: tweaks n (tweakDouble t)

/-- The bytes of a list as numbers. -/
def toNats (bs : List Byte) : List Nat := bs.map (·.toNat)

/-- One XTS block. -/
def xtsBlock (enc : Bool) (rk : List (List Nat)) (t : Nat) (blk : List Byte) : List Byte :=
  let tb := toNats (natLe 16 t)
  let x := xorL (toNats blk) tb
  (xorL (if enc then aesEnc rk x else aesDec rk x) tb).map (BitVec.ofNat 8)

/-- XTS-AES-256 over whole 16-byte blocks of one data unit. The key's first 32 bytes encrypt data and its last 32 the tweak. -/
def xtsUnit (enc : Bool) (key : List Byte) (tweak : Nat) (unit : List Byte) : List Byte :=
  let rk1 := roundKeys (toNats (key.take 32))
  let rk2 := roundKeys (toNats (key.drop 32))
  let t0 := leNat ((aesEnc rk2 (toNats (natLe 16 tweak))).map (BitVec.ofNat 8))
  let n := unit.length / 16
  (((List.range n).zip (tweaks n t0)).map (fun p => xtsBlock enc rk1 p.2 ((unit.drop (16 * p.1)).take 16))).flatten

end Sys2Proof.Machine
end

