-- ==== Sys2Proof/Machine/F32.lean ====
section
/-!
DEFINITION. Sys2Proof/Machine/F32.lean: the element formats, exact products, the one rounding mode, the vector path
and the comparison order of chapter 02. Every finite value is an exact dyadic; rounding is done once, at the end.
-/
namespace Sys2Proof.Machine

/-- A number as arithmetic sees it: NaN, an infinity, or the exact dyadic (−1)^neg · m · 2^e. -/
inductive FV where
  | nan
  | inf (neg : Bool)
  | fin (neg : Bool) (m : Nat) (e : Int)
deriving DecidableEq, Repr

/-- An exact dyadic m · 2^e with a signed mantissa: block values before their one rounding (R51). -/
structure Dyadic where
  m : Int
  e : Int
deriving DecidableEq, Repr

/-- The storage and operand formats of Table 2-1. -/
inductive Fmt where
  | e4m3 | e5m2 | e3m2 | e2m3 | e2m1 | int8 | ternary | bf16 | fp32
deriving DecidableEq, Repr

/-- A power of two by an integer exponent that is not negative. -/
def pow2 (e : Int) : Nat := 2 ^ e.toNat

/-- The exact sum of two dyadics. -/
def dyAdd (a b : Dyadic) : Dyadic :=
  let e := min a.e b.e
  { m := a.m * pow2 (a.e - e) + b.m * pow2 (b.e - e), e := e }

/-- The exact product of two dyadics. -/
def dyMul (a b : Dyadic) : Dyadic := { m := a.m * b.m, e := a.e + b.e }

/-- The signed dyadic of a finite value. -/
def dyOf (neg : Bool) (m : Nat) (e : Int) : Dyadic := { m := if neg then -(m : Int) else m, e := e }

/-- Canonical NaN of FP32 (R68). -/
def nan32 : W32 := 0x7FC00000#32

/-- The two infinities of FP32. -/
def inf32 (neg : Bool) : W32 := if neg then 0xFF800000#32 else 0x7F800000#32

/-- The two zeros of FP32. -/
def zero32 (neg : Bool) : W32 := if neg then 0x80000000#32 else 0#32

/-- The value of an FP32 word. -/
def dec32 (w : W32) : FV :=
  let x := w.toNat
  let neg := bitAt x 31
  let ex := bits x 30 23
  let f := bits x 22 0
  if ex = 255 then (if f = 0 then .inf neg else .nan)
  else if ex = 0 then .fin neg f (-149)
  else .fin neg (f + 2 ^ 23) ((ex : Int) - 150)

/-- Rounds a magnitude m · 2^e (a little more when sticky) to p significant bits with least exponent qmin,
to nearest, ties to even (R53, R55): the mantissa and its exponent. A sticky m must hold at least p + 2 bits. -/
def rneMag (p : Nat) (qmin : Int) (m : Nat) (e : Int) (sticky : Bool) : Nat × Int :=
  let q := max (e + (m.log2 : Int) + 1 - p) qmin
  if q ≤ e then (m * pow2 (e - q), q)
  else
    let sh := (q - e).toNat
    let hi := m >>> sh
    let rem := m % 2 ^ sh
    let half := 2 ^ (sh - 1)
    let up := rem > half || (rem == half && (sticky || hi % 2 == 1))
    (if up then hi + 1 else hi, q)

/-- The FP32 word nearest to (−1)^neg · m · 2^e, overflow to infinity (Table 2-3). -/
def enc32 (neg : Bool) (m : Nat) (e : Int) (sticky : Bool) : W32 :=
  if m = 0 then zero32 neg
  else
    let r := rneMag 24 (-149) m e sticky
    let r := if r.1 ≥ 2 ^ 24 then (r.1 / 2, r.2 + 1) else r
    if r.2 + 23 > 127 then inf32 neg
    else
      let body := if r.1 < 2 ^ 23 then r.1 else (r.2 + 149).toNat * 2 ^ 23 + r.1
      BitVec.ofNat 32 (body + boolNat neg * 2 ^ 31)

/-- The FP32 word nearest to a signed dyadic; an exact zero is +0 (R54). -/
def encDy (d : Dyadic) : W32 := enc32 (decide (d.m < 0)) d.m.natAbs d.e false

/-- The FP32 word of a value already known to fit or to need the one rounding. -/
def encFV : FV → W32
  | .nan => nan32
  | .inf n => inf32 n
  | .fin n m e => enc32 n m e false

/-- FP32 addition, one rounding; x + (−x) is +0 and −0 + −0 is −0 (R53, R64). -/
def fadd (a b : W32) : W32 :=
  match dec32 a, dec32 b with
  | .nan, _ => nan32
  | _, .nan => nan32
  | .inf n, .inf k => if n = k then inf32 n else nan32
  | .inf n, .fin _ _ _ => inf32 n
  | .fin _ _ _, .inf k => inf32 k
  | .fin n m e, .fin k l f =>
    if m = 0 && l = 0 then zero32 (n && k)
    else encDy (dyAdd (dyOf n m e) (dyOf k l f))

/-- FP32 negation of a word's sign bit. -/
def fneg (a : W32) : W32 := if a = nan32 then a else a ^^^ 0x80000000#32

/-- FP32 subtraction. -/
def fsub (a b : W32) : W32 := fadd a (fneg b)

/-- The exact product of two values under IEEE 754's rules for special values. -/
def fvMul (a b : FV) : FV :=
  match a, b with
  | .nan, _ => .nan
  | _, .nan => .nan
  | .inf n, .inf k => .inf (n != k)
  | .inf n, .fin k m _ => if m = 0 then .nan else .inf (n != k)
  | .fin n m _, .inf k => if m = 0 then .nan else .inf (n != k)
  | .fin n m e, .fin k l f => .fin (n != k) (m * l) (e + f)

/-- FP32 multiplication, one rounding. -/
def fmul (a b : W32) : W32 := encFV (fvMul (dec32 a) (dec32 b))

/-- FP32 fused multiply-add a · b + c, one rounding (R64, R66). -/
def ffma (a b c : W32) : W32 :=
  match fvMul (dec32 a) (dec32 b), dec32 c with
  | .nan, _ => nan32
  | _, .nan => nan32
  | .inf n, .inf k => if n = k then inf32 n else nan32
  | .inf n, .fin _ _ _ => inf32 n
  | .fin _ _ _, .inf k => inf32 k
  | .fin n m e, .fin k l f =>
    if m = 0 && l = 0 then zero32 (n && k)
    else encDy (dyAdd (dyOf n m e) (dyOf k l f))

/-- The rank key of a value in the comparison order (R70): NaN below −∞, −0 equal to +0. -/
def rankKey (w : W32) : Int :=
  match dec32 w with
  | .nan => -(2 ^ 33)
  | .inf n => if n then -(2 ^ 32) else 2 ^ 32
  | .fin n _ _ => if n then -((w.toNat % 2 ^ 31 : Nat) : Int) else ((w.toNat % 2 ^ 31 : Nat) : Int)

/-- a ranks below b (R70). -/
def rankLt (a b : W32) : Bool := rankKey a < rankKey b

/-- a is a number greater than −∞ (used where no permitted logit is one, R239). -/
def isNumber (a : W32) : Bool := rankKey a > -(2 ^ 32)

/-- True of a NaN word. -/
def isNan (a : W32) : Bool := dec32 a == .nan

/-- FP32 minimum; NaN propagates; of two zeros of different sign the result is a zero of open sign (R64 is silent; log 4). -/
def fmin (a b : W32) : W32 :=
  if isNan a || isNan b then nan32
  else if rankLt a b then a else if rankLt b a then b
  else if a = b then a else zero32 (Config.zeroSign false (bitAt a.toNat 31) (bitAt b.toNat 31))

/-- FP32 maximum; NaN propagates; of two zeros of different sign the result is a zero of open sign (R64 is silent; log 4). -/
def fmax (a b : W32) : W32 :=
  if isNan a || isNan b then nan32
  else if rankLt a b then b else if rankLt b a then a
  else if a = b then a else zero32 (Config.zeroSign true (bitAt a.toNat 31) (bitAt b.toNat 31))

/-- Correctly rounded reciprocal (R65, Table 2-3). -/
def frecip (a : W32) : W32 :=
  match dec32 a with
  | .nan => nan32
  | .inf n => zero32 n
  | .fin n m e =>
    if m = 0 then inf32 n
    else
      let k := m.log2 + 64
      let q := 2 ^ k / m
      enc32 n q (-(k : Int) - e) (2 ^ k % m != 0)

/-- Correctly rounded square root (R65, Table 2-3). -/
def fsqrt (a : W32) : W32 :=
  match dec32 a with
  | .nan => nan32
  | .inf n => if n then nan32 else inf32 false
  | .fin n m e =>
    if m = 0 then zero32 n
    else if n then nan32
    else
      let odd := e % 2 != 0
      let e2 := if odd then e - 1 else e
      let x := (if odd then 2 * m else m) * 2 ^ 128
      let r := isqrt x
      enc32 false r (e2 / 2 - 64) (r * r != x)

/-- Correctly rounded reciprocal square root (R65, Table 2-3). -/
def frsqrt (a : W32) : W32 :=
  match dec32 a with
  | .nan => nan32
  | .inf n => if n then nan32 else zero32 false
  | .fin n m e =>
    if m = 0 then inf32 n
    else if n then nan32
    else
      let odd := e % 2 != 0
      let e2 := if odd then e - 1 else e
      let x := if odd then 2 * m else m
      let r := isqrt (2 ^ 192 / x)
      enc32 false r (-96 - e2 / 2) (r * r * x != 2 ^ 192)

/-- Fraction bits of the fixed-point series below. -/
def fixN : Nat := 192

/-- Sum of 1 / ((2k + 1) · 3^(2k + 1)) by falling k, in fixed point: half of ln 2. -/
def ln2Go : Nat → Nat
  | 0 => 2 ^ fixN / 3
  | k + 1 => ln2Go k + 2 ^ fixN / ((2 * (k + 1) + 1) * 3 ^ (2 * (k + 1) + 1))

/-- ln 2 in fixed point. -/
def ln2Fix : Nat := 2 * ln2Go 64

/-- Taylor sum of exp z in fixed point, n terms from term k with value t. -/
def expGo : Nat → Nat → Nat → Nat → Nat
  | 0, _, _, _ => 0
  | n + 1, k, t, z => t + expGo n (k + 1) (t * z / (2 ^ fixN * (k + 1))) z

/-- 2^f in fixed point for a fixed-point fraction f in [0, 1). -/
def exp2Fix (f : Nat) : Nat := expGo 60 0 (2 ^ fixN) (f * ln2Fix / 2 ^ fixN)

/-- Correctly rounded 2^x (R65, Table 2-3). A non-integer power is irrational, so the fixed-point value is always sticky. -/
def fexp2 (a : W32) : W32 :=
  match dec32 a with
  | .nan => nan32
  | .inf n => if n then zero32 false else inf32 false
  | .fin n m e =>
    if m = 0 then 0x3F800000#32
    else if e + m.log2 > 8 then (if n then zero32 false else inf32 false)
    else
      let up := m * pow2 (e + fixN)
      let mag := if e + fixN ≥ 0 then up else m / pow2 (-(e + fixN))
      let x : Int := if n then -(mag : Int) else mag
      let i := x / (2 ^ fixN : Nat)
      let f := (x % (2 ^ fixN : Nat)).toNat
      if f = 0 && e ≥ -(fixN : Int) then enc32 false 1 i false
      else enc32 false (exp2Fix f) (i - fixN) true

/-- Sum of z^(2k + 1) / (2k + 1) in fixed point, n terms. -/
def atanhGo : Nat → Nat → Nat → Nat → Nat
  | 0, _, _, _ => 0
  | n + 1, k, t, z2 => t / (2 * k + 1) + atanhGo n (k + 1) (t * z2 / 2 ^ fixN) z2

/-- Correctly rounded log2 (R65, Table 2-3); of either zero it is −infinity, the limit of the exact function, which no rule states (log 50). -/
def flog2 (a : W32) : W32 :=
  match dec32 a with
  | .nan => nan32
  | .inf n => if n then nan32 else inf32 false
  | .fin n m e =>
    if m = 0 then inf32 true
    else if n then nan32
    else
      let l := m.log2
      let i : Int := e + l
      if m = 2 ^ l then encDy { m := i, e := 0 }
      else
        let x := m * 2 ^ fixN / 2 ^ l
        let z := (x - 2 ^ fixN) * 2 ^ fixN / (x + 2 ^ fixN)
        let ln := 2 * atanhGo 70 0 z (z * z / 2 ^ fixN)
        let v : Int := i * (2 ^ fixN : Nat) + (ln * 2 ^ fixN / ln2Fix : Nat)
        enc32 (decide (v < 0)) v.natAbs (-(fixN : Int)) true

/-- FP32 word of an unsigned integer, rounded once. -/
def f32OfNat (n : Nat) : W32 := enc32 false n 0 false

/-- FP32 to BF16: rounds under R53, overflow to infinity, NaN to 0x7FC0. -/
def toBf16 (a : W32) : Nat :=
  match dec32 a with
  | .nan => 0x7FC0
  | .inf n => if n then 0xFF80 else 0x7F80
  | .fin n m e =>
    if m = 0 then boolNat n * 2 ^ 15
    else
      let r := rneMag 8 (-133) m e false
      let r := if r.1 ≥ 2 ^ 8 then (r.1 / 2, r.2 + 1) else r
      let body := if r.2 + 7 > 127 then 0x7F80
        else if r.1 < 2 ^ 7 then r.1 else (r.2 + 133).toNat * 2 ^ 7 + r.1
      body + boolNat n * 2 ^ 15

/-- The value of a BF16 code. -/
def decBf16 (x : Nat) : FV := dec32 (BitVec.ofNat 32 (x % 2 ^ 16 * 2 ^ 16))

/-- A minifloat with eb exponent bits, mb mantissa bits and a bias, without infinities. -/
def decMini (eb mb : Nat) (bias : Int) (x : Nat) : FV :=
  let neg := bitAt x (eb + mb)
  let ex := bits x (eb + mb - 1) mb
  let f := bits x (mb - 1) 0
  if ex = 0 then .fin neg f (1 - bias - mb)
  else .fin neg (f + 2 ^ mb) ((ex : Int) - bias - mb)

/-- The decoded value of one element code (Table 2-1); ternary codes are digits 0 to 2 (R46). -/
def decElem (f : Fmt) (x : Nat) : FV :=
  match f with
  | .e4m3 => if x % 128 = 127 then .nan else decMini 4 3 7 x
  | .e5m2 =>
    if bits x 6 2 = 31 then (if x % 4 = 0 then .inf (bitAt x 7) else .nan) else decMini 5 2 15 x
  | .e3m2 => decMini 3 2 3 x
  | .e2m3 => decMini 2 3 1 x
  | .e2m1 => decMini 2 1 1 x
  | .int8 => let v := sNat 8 x; .fin (decide (v < 0)) v.natAbs (-6)
  | .ternary => let v : Int := (x : Int) - 1; .fin (decide (v < 0)) v.natAbs 0
  | .bf16 => decBf16 x
  | .fp32 => dec32 (BitVec.ofNat 32 x)

/-- Bits per stored element; ternary is five digits to a byte and is unpacked apart (R45, R46). -/
def elemBits : Fmt → Nat
  | .e4m3 => 8 | .e5m2 => 8 | .e3m2 => 6 | .e2m3 => 6 | .e2m1 => 4 | .int8 => 8 | .ternary => 8 | .bf16 => 16 | .fp32 => 32

/-- Element i of a packed run of bytes (R45). -/
def elemAt (f : Fmt) (bs : List Byte) (i : Nat) : Nat :=
  match f with
  | .e3m2 => bits (fieldAt bs (i / 4 * 3) 3) (6 * (i % 4) + 5) (6 * (i % 4))
  | .e2m3 => bits (fieldAt bs (i / 4 * 3) 3) (6 * (i % 4) + 5) (6 * (i % 4))
  | .e2m1 => bits (fieldAt bs (i / 2) 1) (4 * (i % 2) + 3) (4 * (i % 2))
  | .ternary => fieldAt bs (i / 5) 1 / 3 ^ (i % 5) % 3
  | .bf16 => fieldAt bs (2 * i) 2
  | .fp32 => fieldAt bs (4 * i) 4
  | _ => fieldAt bs i 1

/-- A packed-ternary byte is valid up to 0xF2 (R48). -/
def ternaryByteOk (b : Byte) : Bool := b.toNat < 0xF3

/-- A 13-byte ternary group is valid: every byte valid and the padding digit 1 (R47, R48). -/
def ternaryGroupOk (g : List Byte) : Bool :=
  g.all ternaryByteOk && fieldAt g 12 1 / 81 == 1

/-- The E8M0 scale 2^(e − 127), or NaN for 0xFF (R44). -/
def decScale (e : Nat) : FV := if e % 256 = 255 then .nan else .fin false 1 ((e : Int) - 127)

/-- The exact sum of two values under the special-value rules of Table 2-3. -/
def fvAdd (a b : FV) : FV :=
  match a, b with
  | .nan, _ => .nan
  | _, .nan => .nan
  | .inf n, .inf k => if n = k then .inf n else .nan
  | .inf n, .fin _ _ _ => .inf n
  | .fin _ _ _, .inf k => .inf k
  | .fin n m e, .fin k l f =>
    let d := dyAdd (dyOf n m e) (dyOf k l f)
    .fin (decide (d.m < 0)) d.m.natAbs d.e

/-- The exact block value of element pairs and the two scales (R51, R54, R67). -/
def blockValue (ws as : List FV) (wScale aScale : FV) : FV :=
  let sum := (List.zipWith fvMul ws as).foldl fvAdd (.fin false 0 0)
  match wScale, aScale with
  | .nan, _ => .nan
  | _, .nan => .nan
  | _, _ =>
    match fvMul sum (fvMul wScale aScale) with
    | .fin n m e => if m = 0 then .fin false 0 0 else .fin n m e
    | v => v

/-- Adds one block value to an accumulator with one rounding (R53). -/
def accAdd (acc : W32) (v : FV) : W32 :=
  match dec32 acc, v with
  | .nan, _ => nan32
  | _, .nan => nan32
  | .inf n, .inf k => if n = k then inf32 n else nan32
  | .inf n, .fin _ _ _ => inf32 n
  | .fin _ _ _, .inf k => inf32 k
  | .fin n m e, .fin k l f =>
    if m = 0 && l = 0 then zero32 (n && k)
    else encDy (dyAdd (dyOf n m e) (dyOf k l f))

/-- One level of the pairwise combine (R58). -/
def combineLevel : List W32 → List W32
  | a :: b :: rest => fadd a b :: combineLevel rest
  | [a] => [a]
  | [] => []

/-- The combine of segment partials: at most 16 segments need four levels (R58). -/
def combine (ps : List W32) : W32 :=
  (combineLevel (combineLevel (combineLevel (combineLevel ps)))).headD 0#32

/-- The operand pairs of Table 2-2, as the number of quarter products per MAC per cycle; none where unsupported (R49). -/
def pairRate (w a : Fmt) : Option Nat :=
  let f6 (f : Fmt) := f == .e3m2 || f == .e2m3
  let f8 (f : Fmt) := f == .e4m3 || f == .e5m2
  if w == .e2m1 && a == .e2m1 then some 8
  else if (w == .e2m1 || f6 w || f8 w) && (f6 a || f8 a) then some 4
  else if (f6 w || f8 w) && a == .e2m1 then some 4
  else if w == .int8 && a == .int8 then some 4
  else if w == .ternary && a == .int8 then some 16
  else if w == .bf16 && a == .bf16 then some 1
  else none

/-- emax of Table 2-4. -/
def emaxOf : Fmt → Int
  | .e4m3 => 8 | .e5m2 => 15 | .e3m2 => 4 | .e2m3 => 2 | .e2m1 => 2 | _ => 0

/-- Shape of a minifloat format: precision, least exponent, largest finite mantissa and exponent, mantissa bits. -/
def miniShape : Fmt → Nat × Int × Nat × Int
  | .e4m3 => (4, -9, 14, 5)
  | .e5m2 => (3, -16, 7, 13)
  | .e3m2 => (3, -4, 7, 2)
  | .e2m3 => (4, -3, 15, -1)
  | .e2m1 => (2, -1, 3, 1)
  | _ => (1, 0, 1, 0)

/-- The element code of v / 2^X in a minifloat format, saturating (R69 steps 4 and 5). -/
def encMini (f : Fmt) (eb : Nat) (mb : Nat) (bias : Int) (neg : Bool) (m : Nat) (e : Int) : Nat :=
  let sg := boolNat neg * 2 ^ (eb + mb)
  if m = 0 then sg
  else
    let (p, qmin, mm, mq) := miniShape f
    let r := rneMag p qmin m e false
    let r := if r.1 ≥ 2 ^ p then (r.1 / 2, r.2 + 1) else r
    let above : Bool := r.2 > mq || (r.2 == mq && r.1 > mm)
    let r := if above then (mm, mq) else r
    let body := if r.1 < 2 ^ mb then r.1 else (r.2 + mb + bias).toNat * 2 ^ mb + (r.1 - 2 ^ mb)
    sg + body

/-- The element code of one value under a shared exponent (R69). -/
def encElem (f : Fmt) (x : Int) (v : W32) : Nat :=
  match dec32 v with
  | .fin n m e =>
    match f with
    | .e4m3 => encMini f 4 3 7 n m (e - x)
    | .e5m2 => encMini f 5 2 15 n m (e - x)
    | .e3m2 => encMini f 3 2 3 n m (e - x)
    | .e2m3 => encMini f 2 3 1 n m (e - x)
    | .e2m1 => encMini f 2 1 1 n m (e - x)
    | .int8 =>
      if m = 0 then 0
      else
        let r := rneMag 64 0 m (e - x + 6) false
        let k := min (r.1 * pow2 r.2) 127
        sEnc 8 (if n then -(k : Int) else k)
    | _ => 0
  | _ => 0

/-- ⌊log2 a⌋ of the largest magnitude of finite values; none when all are ±0. -/
def maxLog2 (vs : List W32) : Option Int :=
  vs.foldl (fun acc v =>
    match dec32 v with
    | .fin _ m e => if m = 0 then acc else
        let l := e + m.log2
        match acc with
        | none => some l
        | some k => some (max k l)
    | _ => acc) none

/-- Conversion of 32 FP32 values to one MX block: the scale byte and the 32 element codes (R69). -/
def toMx (f : Fmt) (vs : List W32) : Nat × List Nat :=
  if vs.any (fun v => match dec32 v with | .fin _ _ _ => false | _ => true) then (255, vs.map fun _ => 0)
  else
    match maxLog2 vs with
    | none => (0, vs.map fun _ => 0)
    | some l =>
      let x := min 127 (max (-127) (l - emaxOf f))
      ((x + 127).toNat, vs.map (encElem f x))

/-- Philox4x32 multipliers and key increments of the published definition. -/
def philoxM0 : Nat := 0xD2511F53
/-- Second multiplier. -/
def philoxM1 : Nat := 0xCD9E8D57

/-- The ten rounds of Philox4x32-10 on a counter and a key. -/
def philoxGo : Nat → Nat × Nat × Nat × Nat → Nat → Nat → Nat × Nat × Nat × Nat
  | 0, c, _, _ => c
  | n + 1, (c0, c1, c2, c3), k0, k1 =>
    let p0 := philoxM0 * c0
    let p1 := philoxM1 * c2
    let hi0 := p0 / 2 ^ 32
    let lo0 := p0 % 2 ^ 32
    let hi1 := p1 / 2 ^ 32
    let lo1 := p1 % 2 ^ 32
    philoxGo n (((hi1 ^^^ c1) ^^^ k0, lo1, (hi0 ^^^ c3) ^^^ k1, lo0))
      ((k0 + 0x9E3779B9) % 2 ^ 32) ((k1 + 0xBB67AE85) % 2 ^ 32)

/-- Philox4x32-10 (R71, R72): key words k0, k1 and counter words. -/
def philox (key : Nat) (c0 c1 c2 c3 : Nat) : List Nat :=
  let (x0, x1, x2, x3) := philoxGo 10 (c0, c1, c2, c3) (key % 2 ^ 32) (key / 2 ^ 32 % 2 ^ 32)
  [x0, x1, x2, x3]

/-- Word i of the stream of one (step, purpose, node): call i / 4, word i mod 4 (Table 2-5, R75). -/
def drawWord (key step purpose node i : Nat) : Nat :=
  (philox key (step % 2 ^ 32) (purpose * 2 ^ 24 + node % 16 * 2 ^ 16 + step / 2 ^ 32 % 2 ^ 16) (i / 4) 0).getD (i % 4) 0

/-- The uniform variate ⌊x / 256⌋ · 2^−24 of a word (R75), exact in FP32. -/
def uniformOf (x : Nat) : W32 := enc32 false (x / 256) (-24) false

/-- Prefix sums of weights in order, one rounding per addition (R76). -/
def prefixSums : W32 → List W32 → List W32
  | _, [] => []
  | acc, w :: ws => let a := fadd acc w; a :: prefixSums a ws

/-- The categorical draw of R76 over (symbol, weight) pairs in ascending symbol order and a variate u. -/
def categorical (ws : List (Sym × W32)) (u : W32) : Option Sym :=
  let ps := prefixSums 0#32 (ws.map (·.2))
  let total := ps.getLastD 0#32
  let t := fmul u total
  if ws.all (fun p => rankKey p.2 == 0) then none
  else
    match (ws.zip ps).find? (fun p => rankLt t p.2) with
    | some p => some p.1.1
    | none => ((ws.filter (fun p => rankKey p.2 != 0)).getLast?).map (·.1)

end Sys2Proof.Machine
end

