-- ==== Sys2Proof/Machine/P384.lean ====
section
/-!
DEFINITION. Sys2Proof/Machine/P384.lean: verification of ECDSA signatures over P-384 with SHA-384 (FIPS 186-5), which 04 R126 and 18 R667 name.
-/
namespace Sys2Proof.Machine

/-- The field prime of P-384. -/
def p384 : Nat := 2 ^ 384 - 2 ^ 128 - 2 ^ 96 + 2 ^ 32 - 1

/-- The group order of P-384. -/
def n384 : Nat := 0xFFFFFFFFFFFFFFFFFFFFFFFFFFFFFFFFFFFFFFFFFFFFFFFFC7634D81F4372DDF581A0DB248B0A77AECEC196ACCC52973

/-- The curve coefficient b of P-384. -/
def b384 : Nat := 0xB3312FA7E23EE7E4988E056BE3F82D19181D9C6EFE8141120314088F5013875AC656398D8A2ED19D2A85C8EDD3EC2AEF

/-- The base point of P-384. -/
def g384 : Nat × Nat :=
  (0xAA87CA22BE8B05378EB1C71EF320AD746E1D3B628BA79B9859F741E082542A385502F25DBF55296C3A545E3872760AB7,
   0x3617DE4A96262C6F5D9E98BF9292DC29F8F41DBD289A147CE9DA3113B5F0B8C00A60B1CE1D7E819D7A431D7C90EA0E5F)

/-- Difference modulo m. -/
def subM (m a b : Nat) : Nat := (a + m - b % m) % m

/-- Power modulo m, one exponent bit per step. -/
def powMGo (m : Nat) : Nat → Nat → Nat → Nat → Nat
  | 0, _, _, acc => acc
  | n + 1, b, e, acc => powMGo m n (b * b % m) (e / 2) (if e % 2 = 1 then acc * b % m else acc)

/-- Inverse modulo an odd prime below 2^384. -/
def invM (m a : Nat) : Nat := powMGo m 384 (a % m) (m - 2) 1

/-- The point (X, Y) lies on the curve with coordinates below p. -/
def onCurve (x y : Nat) : Bool :=
  decide (x < p384) && decide (y < p384) && (y * y % p384 == subM p384 (x * x * x + b384) (3 * x))

/-- A point in Jacobian coordinates; z = 0 is the point at infinity. -/
structure JPoint where
  x : Nat
  y : Nat
  z : Nat
deriving DecidableEq, Repr

/-- Doubling. -/
def jDouble (p : JPoint) : JPoint :=
  let m := p384
  let yy := p.y * p.y % m
  let s := 4 * p.x * yy % m
  let z2 := p.z * p.z % m
  let w := 3 * subM m p.x z2 * (p.x + z2) % m
  let x3 := subM m (w * w) (2 * s)
  { x := x3, y := subM m (w * subM m s x3) (8 * yy * yy), z := 2 * p.y * p.z % m }

/-- Addition. -/
def jAdd (p q : JPoint) : JPoint :=
  if p.z = 0 then q else if q.z = 0 then p else
  let m := p384
  let z1 := p.z * p.z % m
  let z2 := q.z * q.z % m
  let u1 := p.x * z2 % m
  let u2 := q.x * z1 % m
  let s1 := p.y * z2 % m * q.z % m
  let s2 := q.y * z1 % m * p.z % m
  if u1 = u2 then (if s1 = s2 then jDouble p else { x := 1, y := 1, z := 0 }) else
  let h := subM m u2 u1
  let r := subM m s2 s1
  let hh := h * h % m
  let hhh := h * hh % m
  let v := u1 * hh % m
  let x3 := subM m (r * r) (hhh + 2 * v)
  { x := x3, y := subM m (r * subM m v x3) (s1 * hhh), z := h * p.z % m * q.z % m }

/-- Scalar multiple, one bit per step from the least significant. -/
def jMulGo : Nat → Nat → JPoint → JPoint → JPoint
  | 0, _, _, acc => acc
  | n + 1, k, p, acc => jMulGo n (k / 2) (jDouble p) (if k % 2 = 1 then jAdd acc p else acc)

/-- Scalar multiple of an affine point. -/
def jMul (k : Nat) (p : Nat × Nat) : JPoint := jMulGo 384 k { x := p.1, y := p.2, z := 1 } { x := 1, y := 1, z := 0 }

/-- The ECDSA signature (r, s) over the 384-bit digest e verifies against the public key. -/
def ecdsaVerify (key : Nat × Nat) (e r s : Nat) : Bool :=
  if onCurve key.1 key.2 && decide (0 < r) && decide (r < n384) && decide (0 < s) && decide (s < n384) then
    let w := invM n384 s
    let p := jAdd (jMul (e * w % n384) g384) (jMul (r * w % n384) key)
    if p.z = 0 then false
    else
      let zi := invM p384 p.z
      (p.x * zi % p384 * zi % p384) % n384 == r
  else false

end Sys2Proof.Machine
end

