-- ==== Sys2Proof/Machine/Image.lean ====
section
/-!
DEFINITION. Sys2Proof/Machine/Image.lean: parure images as bytes (04): header, sections, programs, sweep descriptors, epilogues, cheap points,
declarations, KV geometry (05 R162 to R169), grammars (07 R247 to R252), and the static load checks 4 and 8 to 10 of 04 Table 4-11.
-/
namespace Sys2Proof.Machine

/-- One section of the directory (04 Table 4-2). -/
structure Sect where
  ty : Nat
  count : Nat
  off : Nat
  len : Nat
deriving DecidableEq, Repr

/-- Sweep descriptor (03 Table 3-2). -/
structure Sweep where
  kind : Nat
  flags : Nat
  wfmt : Nat
  afmt : Nat
  ofmt : Nat
  nseg : Nat
  group : Nat
  n : Nat
  k : Nat
  mFixed : Nat
  tileM : Nat
  tileK : Nat
  winSrc : Nat
  winBytes : Nat
  scrIn : Nat
  scrOut : Nat
  scrAux : Nat
  cpFirst : Nat
  cpCount : Nat
  epi : Nat
  wcet : Nat
  rsv : Nat
deriving DecidableEq, Repr

/-- Cheap-point entry (03 Table 3-5). -/
structure CheapPt where
  sweep : Nat
  tile : Nat
  lrFirst : Nat
  lrCount : Nat
  flags : Nat
  rsv : Nat
deriving DecidableEq, Repr

/-- Epilogue op (04 Table 4-6). -/
structure EpiOp where
  op : Nat
  dst : Nat
  a : Nat
  b : Nat
  c : Nat
  mode : Nat
  arg : Nat
deriving DecidableEq, Repr

/-- Program entry (04 Table 4-4). -/
structure Prog where
  kind : Nat
  first : Nat
  count : Nat
deriving DecidableEq, Repr

/-! ## Header (04 Table 4-1) -/

/-- TWO_RATE. -/
def imgTwoRate (h : List Byte) : Bool := bitAt (fieldAt h 12 4) 0
/-- DRAFT. -/
def imgDraft (h : List Byte) : Bool := bitAt (fieldAt h 12 4) 1
/-- IMAGE_BYTES. -/
def imgBytes (h : List Byte) : Nat := fieldAt h 16 8
/-- DIR_COUNT. -/
def imgDirCount (h : List Byte) : Nat := fieldAt h 28 2
/-- KEY_SLOT. -/
def imgKeySlot (h : List Byte) : Nat := fieldAt h 30 1
/-- MAX_WIDTH. -/
def imgMaxWidth (h : List Byte) : Nat := fieldAt h 31 1
/-- SPILL_MAX. -/
def imgSpillMax (h : List Byte) : Nat := fieldAt h 36 4
/-- COLUMN_BYTES. -/
def imgColBytes (h : List Byte) : Nat := fieldAt h 40 8
/-- CONTROL_BYTES. -/
def imgCtlBytes (h : List Byte) : Nat := fieldAt h 48 8
/-- DRAFT_HASH. -/
def imgDraftHash (h : List Byte) : Nat := beNat (bytesAt h 64 32)

/-- Check 4 but for WIDTH_CAP (04 Table 4-11). -/
def headerOk (h : List Byte) (length : Nat) : Bool :=
  h.take 8 == (("CL9PARUR".toList).map (fun c => BitVec.ofNat 8 c.toNat)) && fieldAt h 8 2 == 1 && fieldAt h 10 2 == 256 && fieldAt h 24 4 == 256 &&
  imgBytes h == length && fieldAt h 12 4 < 4 && zeroAt h 112 144

/-! ## Directory and sections (04 R128, R129) -/

/-- The directory entries. -/
def dirEntries (img : List Byte) : List Sect :=
  (List.range (imgDirCount img)).map fun i =>
    let b := 256 + 32 * i
    { ty := fieldAt img b 2, count := fieldAt img (b + 4) 4, off := fieldAt img (b + 8) 8, len := fieldAt img (b + 16) 8 }

/-- A section by type; an absent section has no entries. -/
def sect (img : List Byte) (t : Nat) : Sect := ((dirEntries img).find? (fun e => e.ty == t)).getD { ty := t, count := 0, off := 0, len := 0 }

/-- The image has a section of a type. -/
def hasSect (img : List Byte) (t : Nat) : Bool := (dirEntries img).any (fun e => e.ty == t)

/-- A field of a section. -/
def sectFld (img : List Byte) (t off n : Nat) : Nat := fieldAt img ((sect img t).off + off) n

/-- The bytes of a section. -/
def sectBytes (img : List Byte) (t : Nat) : List Byte := bytesAt img (sect img t).off (sect img t).len

/-- A section length agrees with its COUNT (04 Table 4-3). -/
def sectLenOk (col : Nat) (e : Sect) : Bool :=
  if e.ty == 1 || e.ty == 4 then e.len == 16 * e.count
  else if e.ty == 2 then e.len == 64 * e.count
  else if e.ty == 3 then 16 * e.count ≤ e.len && e.len % 8 == 0
  else if e.ty == 5 then e.len == 8 * e.count
  else if e.ty == 6 then e.count == 8 && e.len == 8 * col
  else if e.ty == 7 || e.ty == 8 then e.count == 1 && e.len == 64
  else if e.ty == 9 then e.count == 1 && e.len == 128
  else if e.ty == 10 then e.len == 16 + 8 * e.count
  else 32 * e.count ≤ e.len

/-- Two sections do not overlap. -/
def apart (a b : Sect) : Bool := a.off + a.len ≤ b.off || b.off + b.len ≤ a.off

/-- Every pair of a list is related. -/
def pairwise {α : Type} (r : α → α → Bool) : List α → Bool
  | [] => true
  | a :: as => as.all (r a) && pairwise r as

/-- A program entry by number (04 Table 4-4). -/
def progAt (img : List Byte) (i : Nat) : Prog :=
  { kind := sectFld img 1 (16 * i) 1, first := sectFld img 1 (16 * i + 4) 4, count := sectFld img 1 (16 * i + 8) 4 }

/-- The program entries. -/
def progs (img : List Byte) : List Prog := (List.range (sect img 1).count).map (progAt img)

/-- The program of a kind: 1 STEP, 2 DRAFT, 3 RECOMPUTE. -/
def progOf (img : List Byte) (kind : Nat) : Option Prog := (progs img).find? (fun p => p.kind == kind)

/-- Check 8 (04 Table 4-11). -/
def check8 (img : List Byte) : Bool :=
  let d := dirEntries img
  let size := imgBytes img
  let endDir := 256 + 32 * imgDirCount img
  let ps := progs img
  let kindCount := fun k => (ps.filter (fun p => p.kind == k)).length
  9 ≤ imgDirCount img && imgDirCount img ≤ 11 && endDir + 128 ≤ size &&
  (List.range (imgDirCount img)).all (fun i => zeroAt img (256 + 32 * i + 2) 2 && zeroAt img (256 + 32 * i + 24) 8) &&
  d.all (fun e => 1 ≤ e.ty && e.ty ≤ 11 && e.off % (if e.ty = 6 then 65536 else 64) == 0 && endDir ≤ e.off && e.off + e.len + 128 ≤ size &&
    sectLenOk (imgColBytes img) e) &&
  pairwise (fun a b => a.ty != b.ty && apart a b) d && (List.range 9).all (fun t => hasSect img (t + 1)) &&
  sectFld img 8 4 4 == imgSpillMax img && sectFld img 8 8 8 == imgColBytes img && imgColBytes img % 65536 == 0 &&
  imgCtlBytes img == (d.filter (fun e => e.ty != 6)).foldl (fun a e => a + ceilDiv e.len 65536 * 65536) 0 &&
  (List.range (sect img 1).count).all (fun i => zeroAt img ((sect img 1).off + 16 * i + 1) 3 && zeroAt img ((sect img 1).off + 16 * i + 12) 4) &&
  ps.all (fun p => 1 ≤ p.kind && p.kind ≤ 3 && 1 ≤ p.count && p.first + p.count ≤ (sect img 2).count) &&
  (if imgDraft img then ps.length == 1 && kindCount 2 == 1 && !hasSect img 10 else kindCount 1 == 1 && kindCount 3 ≤ 1 && kindCount 2 == 0) &&
  zeroAt img (size - 32) 32

/-! ## Sweeps, epilogues, cheap points -/

/-- The sweep descriptor of an index (03 Table 3-2). -/
def sweepAt (img : List Byte) (i : Nat) : Sweep :=
  let b := bytesAt img ((sect img 2).off + 64 * i) 64
  { kind := fieldAt b 0 1, flags := fieldAt b 1 1, wfmt := fieldAt b 2 1, afmt := fieldAt b 3 1, ofmt := fieldAt b 4 1, nseg := fieldAt b 5 1
    group := fieldAt b 6 2, n := fieldAt b 8 4, k := fieldAt b 12 4, mFixed := fieldAt b 16 4, tileM := fieldAt b 20 2, tileK := fieldAt b 22 2
    winSrc := fieldAt b 24 8, winBytes := fieldAt b 32 4, scrIn := fieldAt b 36 4, scrOut := fieldAt b 40 4, scrAux := fieldAt b 44 4
    cpFirst := fieldAt b 48 2, cpCount := fieldAt b 50 2, epi := fieldAt b 52 4, wcet := fieldAt b 56 4, rsv := fieldAt b 60 4 }

/-- GROUP_FIRST. -/
def Sweep.groupFirst (s : Sweep) : Bool := bitAt s.flags 0
/-- LOGITS. -/
def Sweep.logits (s : Sweep) : Bool := bitAt s.flags 1
/-- RAGGED. -/
def Sweep.ragged (s : Sweep) : Bool := bitAt s.flags 2
/-- FACET. -/
def Sweep.facet (s : Sweep) : Bool := bitAt s.flags 3
/-- PATCH. -/
def Sweep.patch (s : Sweep) : Bool := bitAt s.flags 4

/-- The cheap-point entry of an index (03 Table 3-5). -/
def cheapAt (img : List Byte) (i : Nat) : CheapPt :=
  let b := bytesAt img ((sect img 4).off + 16 * i) 16
  { sweep := fieldAt b 0 4, tile := fieldAt b 4 4, lrFirst := fieldAt b 8 4, lrCount := fieldAt b 12 2, flags := fieldAt b 14 1, rsv := fieldAt b 15 1 }

/-- ACC_LIVE. -/
def CheapPt.accLive (c : CheapPt) : Bool := bitAt c.flags 0

/-- The live range of an index: offset and length (03 R98). -/
def liveAt (img : List Byte) (i : Nat) : Nat × Nat := (sectFld img 5 (8 * i) 4, sectFld img 5 (8 * i + 4) 4)

/-- The live ranges of a cheap point. -/
def liveOf (img : List Byte) (c : CheapPt) : List (Nat × Nat) := (List.range c.lrCount).map (fun i => liveAt img (c.lrFirst + i))

/-- Spill size S of a cheap point (03 R99). -/
def spillSize (img : List Byte) (c : CheapPt) : Nat :=
  ceilDiv ((liveOf img c).foldl (fun a r => a + r.2) 0 + (if c.accLive then 65536 else 0)) 4096 * 4096

/-- Epilogue entry: OP_OFFSET, OP_COUNT, CYCLES (04 Table 4-5). -/
def epiAt (img : List Byte) (j : Nat) : Nat × Nat × Nat := (sectFld img 3 (16 * j) 4, sectFld img 3 (16 * j + 4) 2, sectFld img 3 (16 * j + 8) 4)

/-- Ops of an epilogue (04 Table 4-6). -/
def epiOps (img : List Byte) (j : Nat) : List EpiOp :=
  let e := epiAt img j
  (List.range e.2.1).map fun i =>
    let b := bytesAt img ((sect img 3).off + e.1 + 8 * i) 8
    { op := fieldAt b 0 1, dst := fieldAt b 1 1, a := fieldAt b 2 1, b := fieldAt b 3 1, c := fieldAt b 4 1, mode := fieldAt b 5 1, arg := fieldAt b 6 2 }

/-- Ops of a sweep's epilogue; none without one. -/
def sweepOps (img : List Byte) (s : Sweep) : List EpiOp := if s.epi = 0xFFFFFFFF then [] else epiOps img s.epi

/-- CYCLES of a sweep's epilogue. -/
def sweepEpiCycles (img : List Byte) (s : Sweep) : Nat := if s.epi = 0xFFFFFFFF then 0 else (epiAt img s.epi).2.2

/-- The format of a Table 3-3 code. -/
def fmtOf (c : Nat) : Option Fmt :=
  if c == 1 then some .e4m3 else if c == 2 then some .e5m2 else if c == 3 then some .e3m2 else if c == 4 then some .e2m3 else if c == 5 then some .e2m1
  else if c == 6 then some .int8 else if c == 7 then some .ternary else if c == 8 then some .bf16 else if c == 9 then some .fp32 else none

/-- Quarter products per MAC and cycle of two format codes (02 Table 2-2). -/
def codeRate (w a : Nat) : Option Nat :=
  match fmtOf w, fmtOf a with
  | some f, some g => pairRate f g
  | _, _ => none

/-- LOCAL_KV_FMT or GLOBAL_KV_FMT, as the STACK op of an ATTN epilogue names (03 R720). -/
def attnFmt (img : List Byte) (s : Sweep) : Nat := if ((sweepOps img s).head?.map (·.mode)).getD 0 = 1 then sectFld img 7 14 1 else sectFld img 7 15 1

/-- Quarter rate of a sweep: its weight pair, or for ATTN the KV format with AFMT (03 R720). -/
def sweepRate (img : List Byte) (s : Sweep) : Option Nat :=
  if s.kind = 1 then codeRate s.wfmt s.afmt else if s.kind = 2 then codeRate (attnFmt img s) s.afmt else none

/-- Lattice passes of a compute tile: TILE_K / (128 · ρ) (03 R88). -/
def passes (rate : Nat) (s : Sweep) : Nat := s.tileK / (32 * rate)

/-- Bytes of a tile block (04 R136). -/
def tileBlock (s : Sweep) : Nat :=
  if s.wfmt = 7 then 128 * (s.tileK / 64) * 15
  else if s.wfmt = 8 then 128 * s.tileK * 2
  else 128 * (s.tileK / 32) * (1 + 4 * ((fmtOf s.wfmt).map elemBits).getD 0)

/-- Chunks of 128 output columns that one logical column owns: at most this many (03 R82). -/
def ownedChunks (s : Sweep) : Nat := if s.kind = 1 then ceilDiv (ceilDiv s.n 128) 8 else 1

/-- Combine levels: s of NSEG = 2^s (03 R84). -/
def combLevels (s : Sweep) : Nat := s.nseg.log2

/-- Programs that hold a sweep. -/
def progsOf (img : List Byte) (i : Nat) : List Prog := (progs img).filter (fun p => p.first ≤ i && i < p.first + p.count)

/-- Longest position list of a program (03 R90). -/
def mMax (img : List Byte) (kind : Nat) : Nat :=
  if kind = 1 then fieldAt img 34 2 * imgMaxWidth img else if kind = 3 then 1024 else fieldAt img 34 2 * sectFld img 8 16 4

/-- Positions of a sweep at the most. -/
def sweepMMax (img : List Byte) (i : Nat) (s : Sweep) : Nat :=
  if s.ragged then ((progsOf img i).map (fun p => mMax img p.kind)).foldl max 0 else s.mFixed

/-- Core cycles of a compute tile of m positions (03 R88); 0 for a sweep without lattice work. -/
def tileCycles (img : List Byte) (s : Sweep) (m : Nat) : Nat :=
  match sweepRate img s with
  | none => 0
  | some r => passes r s * m + 96

/-- Core cycles of the combine and epilogue of one chunk (03 R89). -/
def chunkCycles (img : List Byte) (s : Sweep) (m : Nat) : Nat :=
  (if s.kind ≤ 2 then combLevels s * (4 * m + 64 * ceilDiv m 768) else 0) + sweepEpiCycles img s

/-- Compute tiles of one chunk (03 R86); a REDUCE or SELECT sweep has none and one chunk, whose epilogue tile does its work (log 57). -/
def tilesPerChunk (s : Sweep) : Nat := if s.kind ≤ 2 then s.k / max 1 (s.nseg * s.tileK) else 0

/-- Chunks of a sweep over all position chunks, at the most. -/
def chunkCount (img : List Byte) (i : Nat) (s : Sweep) : Nat := ceilDiv (sweepMMax img i s) (max 1 s.tileM) * ownedChunks s

/-- The cycle at which the combine lane has ended the first c chunks: chunk i starts when its compute tiles and the chunk before it are done
(03 R86). -/
def combEnd (perChunk comb : Nat) : Nat → Nat
  | 0 => 0
  | c + 1 => max ((c + 1) * perChunk) (combEnd perChunk comb c) + comb

/-- The cycle, from the sweep's start, of a cheap point after tile t: its commit, and the end of every chunk's combine begun before (03 R100; log 17). -/
def drainAt (cyc nk comb chunks t : Nat) : Nat :=
  let commit := (t + 1) * cyc + 48
  (List.range chunks).foldl (fun a i => if max ((i + 1) * (nk * cyc)) (combEnd (nk * cyc) comb i) < commit then max a (combEnd (nk * cyc) comb (i + 1)) else a)
    commit

/-- The cycles of a whole sweep by the schedule of 03 R100. -/
def sweepCycles (img : List Byte) (i : Nat) (s : Sweep) : Nat :=
  let m := min s.tileM (sweepMMax img i s)
  let cyc := tileCycles img s m
  let c := chunkCount img i s
  let nk := tilesPerChunk s
  max (if c * nk = 0 then 0 else c * nk * cyc + 48) (combEnd (nk * cyc) (chunkCycles img s m) c)

/-- The cycle of a cheap point from its sweep's start (03 R100). -/
def cheapCycle (img : List Byte) (i : Nat) (s : Sweep) (c : CheapPt) : Nat :=
  if c.tile = 0xFFFFFFFF || tilesPerChunk s = 0 then 0 else
  let m := min s.tileM (sweepMMax img i s)
  drainAt (tileCycles img s m) (tilesPerChunk s) (chunkCycles img s m) (chunkCount img i s) c.tile

/-- Cheap points of a program in order: their cycle from step start, and index. -/
def cheapTimes (img : List Byte) : Nat → Nat → Nat → List (Nat × Nat)
  | 0, _, _ => []
  | n + 1, i, t =>
    let s := sweepAt img i
    ((List.range s.cpCount).map fun k => (t + cheapCycle img i s (cheapAt img (s.cpFirst + k)), s.cpFirst + k)) ++ cheapTimes img n (i + 1) (t + s.wcet)

/-- Consecutive cheap points stand at most 400 ticks apart (03 R100); consecutive in the order of the tables, and a point earlier than the one before it makes no
gap (log 59). -/
def gapsOk : Nat → List Nat → Bool
  | _, [] => true
  | last, t :: ts => ceilDiv (t - last) 16 ≤ 400 && gapsOk t ts

/-- An epilogue entry and its ops keep 04 R132 (checks that need no sweep). A register byte that an op does not use is held to 15 as well, and an LDS names no
packed-ternary operand (log 63). -/
def epiOk (img : List Byte) (j : Nat) : Bool :=
  let e := epiAt img j
  let b := (sect img 3).off + 16 * j
  let two := imgTwoRate img
  zeroAt img (b + 6) 2 && zeroAt img (b + 12) 4 && e.1 % 8 == 0 && 16 * (sect img 3).count ≤ e.1 && 1 ≤ e.2.1 && e.2.1 ≤ 256 &&
  e.1 + 8 * e.2.1 ≤ (sect img 3).len && e.2.2 ≤ 3200 &&
  (epiOps img j).all (fun o =>
    ((1 ≤ o.op && o.op ≤ 0x0B) || (0x10 ≤ o.op && o.op ≤ 0x14) || o.op == 0x18 || o.op == 0x19 || o.op == 0x20) &&
    o.dst ≤ 15 && o.a ≤ 15 && o.b ≤ 15 && o.c ≤ 15 &&
    (o.op != 0x11 || (o.mode < 32 && 1 ≤ o.mode % 16 && o.mode % 16 ≤ 9 && o.mode % 16 != 7)) &&
    (o.op != 0x20 || (o.mode ≤ 2 && (o.mode == 0 || two))))

/-- The ops of a sweep's epilogue suit the sweep (04 R132, R133). DELIVER's ARG is an index in the SWEEPS section, as BOUNDARY_SWEEP is (log 61). -/
def opsSuit (img : List Byte) (i : Nat) (s : Sweep) : Bool :=
  let ops := sweepOps img s
  (ops.zipIdx).all (fun e =>
    let o := e.1
    ((o.op != 0x12 && o.op != 0x13) || s.facet) &&
    (o.op != 0x20 || (s.kind == 2 && e.2 == 0 && o.arg < (if o.mode = 1 then sectFld img 7 4 2 else sectFld img 7 6 2))) &&
    (o.op != 0x19 || (progsOf img i).all (fun p => i < o.arg && o.arg < p.first + p.count))) &&
  (s.kind != 2 || ((ops.head?.map (·.op)).getD 0 == 0x20))

/-- The ternary bytes of a sweep's per-cell images are valid (02 R47, R48, 04 R135, R136): all WIN_BYTES of all 128 cells, whether or not a tile reads them
(log 55). -/
def ternaryOk (img : List Byte) (s : Sweep) : Bool :=
  s.wfmt != 7 || (List.range 128).all (fun l =>
    let base := (sect img 6).off + (l / 16) * imgColBytes img + s.winSrc + (l % 16) * s.winBytes
    (List.range (s.winBytes / 15)).all (fun g => ternaryGroupOk (bytesAt img (base + 15 * g + 2) 13)))

/-- One sweep descriptor keeps 03 R81, R90, R94, R720, 04 R135 and 02 R49. N, and K and TILE_K where tiles read them, are not 0, and WIN_BYTES may be any that
COLUMN_BYTES holds (log 56). -/
def sweepOk (img : List Byte) (i : Nat) : Bool :=
  let s := sweepAt img i
  let m := min s.tileM (sweepMMax img i s)
  s.rsv == 0 && 1 ≤ s.kind && s.kind ≤ 4 && s.flags < 32 && s.wfmt ≤ 8 && s.afmt ≤ 8 && s.afmt != 7 && s.ofmt ≤ 9 && s.ofmt != 7 &&
  ((s.ofmt == 0) == (s.logits || s.kind == 4)) && (s.nseg == 1 || s.nseg == 2 || s.nseg == 4 || s.nseg == 8 || s.nseg == 16) &&
  1 ≤ s.tileM && s.tileM ≤ 3104 && (!s.ragged || s.mFixed == 0) &&
  [s.scrIn, s.scrOut, s.scrAux].all (fun x => x ≤ 0x1FFFFF && x % 64 == 0) &&
  (if s.kind = 2 then s.n % 2 ^ 16 != 0 && s.n / 2 ^ 16 != 0 else s.n % 128 == 0 && s.n != 0) &&
  (s.kind != 3 || s.k == 0) && (s.kind != 4 || (1 ≤ s.k && s.k ≤ 1024)) &&
  (if s.wfmt = 0 then s.kind != 1 && s.winSrc == 0 && s.winBytes == 0
   else s.kind == 1 && s.winSrc % 65536 == 0 && s.winSrc + 16 * s.winBytes ≤ imgColBytes img && tileBlock s ≤ 524288) &&
  s.cpFirst + s.cpCount ≤ (sect img 4).count && (List.range s.cpCount).all (fun k => (cheapAt img (s.cpFirst + k)).sweep == i) &&
  (s.epi == 0xFFFFFFFF || s.epi < (sect img 3).count) && opsSuit img i s &&
  (2 < s.kind || (match sweepRate img s with
    | none => false
    | some r => 0 < s.tileK && s.tileK % (32 * r) == 0 && (s.wfmt != 7 || s.tileK % 64 == 0) && 0 < s.k && s.k % (s.nseg * s.tileK) == 0 &&
        tileCycles img s m ≤ 3200)) &&
  sweepCycles img i s ≤ s.wcet && ternaryOk img s

/-- A live range keeps 03 R98 and R78. -/
def liveOk (r : Nat × Nat) : Bool := r.1 < 2 ^ 21 && r.1 % 64 == 0 && 64 ≤ r.2 && r.2 ≤ 2097152 && r.2 % 64 == 0 && r.1 + r.2 ≤ 0x200000

/-- Live ranges in ascending OFFSET that do not overlap (03 R98). -/
def rising : List (Nat × Nat) → Bool
  | a :: b :: rest => a.1 + a.2 ≤ b.1 && rising (b :: rest)
  | _ => true

/-- A cheap point keeps 03 R97 to R99 and S ≤ SPILL_MAX. In a sweep without compute tiles TILE may be any value (log 58). -/
def cheapOk (img : List Byte) (k : Nat) : Bool :=
  let c := cheapAt img k
  let s := sweepAt img c.sweep
  c.sweep < (sect img 2).count && c.rsv == 0 && c.flags < 8 && c.lrCount ≤ 4096 && c.lrFirst + c.lrCount ≤ (sect img 5).count &&
  (c.tile == 0xFFFFFFFF || tilesPerChunk s == 0 || c.tile < chunkCount img c.sweep s * tilesPerChunk s) &&
  rising (liveOf img c) && spillSize img c ≤ imgSpillMax img

/-- GROUP fields of a program keep 03 R721. -/
def groupsOk (img : List Byte) : Nat → Nat → Nat → Bool
  | 0, _, _ => true
  | n + 1, i, g =>
    let s := sweepAt img i
    let g' := g + boolNat s.groupFirst
    1 ≤ g' && s.group + 1 == g' && groupsOk img n (i + 1) g'

/-- Check 9 (04 Table 4-11). -/
def check9 (img : List Byte) : Bool :=
  (List.range (sect img 3).count).all (epiOk img) && (List.range (sect img 2).count).all (sweepOk img) &&
  (progs img).all (fun p => groupsOk img p.count p.first 0) &&
  (List.range (sect img 5).count).all (fun k => liveOk (liveAt img k)) && (List.range (sect img 4).count).all (cheapOk img) &&
  (progs img).all (fun p => gapsOk 0 ((cheapTimes img p.count p.first 0).map (·.1)))

/-! ## Rates, resources, times and KV geometry -/

/-- MAX_SESSION_BYTES. -/
def imgMaxThread (img : List Byte) : Nat := sectFld img 8 16 4
/-- MAX_GLOBAL_POS. -/
def imgMaxGlobal (img : List Byte) : Nat := sectFld img 8 20 4
/-- SESSION_PAGES. -/
def imgSessionPages (img : List Byte) : Nat := sectFld img 8 24 4
/-- STEP_PAGES. -/
def imgStepPages (img : List Byte) : Nat := sectFld img 8 28 4
/-- LOCAL_WINDOW. -/
def imgWindow (img : List Byte) : Nat := sectFld img 7 8 4
/-- STEP_TICKS[w]. -/
def imgStepTicks (img : List Byte) (w : Nat) : Nat := if 1 ≤ w && w ≤ 16 then sectFld img 9 (4 * (w - 1)) 4 else 0
/-- RECOMPUTE_TICKS. -/
def imgRecTicks (img : List Byte) : Nat := sectFld img 9 64 4

/-- Entry size e of a KV format and width (05 Table 5-1); none for a format not in the table. -/
def kvEntry (fmt w : Nat) : Option Nat :=
  if fmt == 1 || fmt == 2 || fmt == 6 then some (w / 32 * 33) else if fmt == 3 || fmt == 4 then some (w / 32 * 25)
  else if fmt == 5 then some (w / 32 * 17) else if fmt == 8 then some (2 * w) else none

/-- Geometry of one stack (05 R164, R168, R169). -/
structure StackGeom where
  /-- entry size -/
  e : Nat := 0
  /-- layers -/
  n : Nat := 0
  /-- slots -/
  slots : Nat := 0
  /-- layer stride D -/
  stride : Nat := 0
  /-- step-area stride D′ -/
  stage : Nat := 0
deriving DecidableEq, Repr

/-- The stacks of a parure: local false is ONE or GLOBAL, local true is LOCAL (05 R163, R164, R168). -/
def geom (img : List Byte) (loc : Bool) : StackGeom :=
  let mw := imgMaxWidth img
  let mk := fun (e n s : Nat) => ({ e := e, n := n, slots := s, stride := ceilDiv (s * e) 64 * 64, stage := ceilDiv (mw * e) 64 * 64 } : StackGeom)
  if loc then
    (if imgTwoRate img then mk ((kvEntry (sectFld img 7 14 1) (sectFld img 7 12 2)).getD 0) (sectFld img 7 4 2) (imgWindow img) else {})
  else mk ((kvEntry (sectFld img 7 15 1) (sectFld img 7 16 2)).getD 0) (sectFld img 7 6 2) (if imgTwoRate img then imgMaxGlobal img else imgMaxThread img)

/-- Region pages of a stack (05 R164, R167). -/
def StackGeom.pages (g : StackGeom) : Nat := ceilDiv (g.n * g.stride) 65536
/-- Step-area pages of a stack (05 R168). -/
def StackGeom.area (g : StackGeom) : Nat := ceilDiv (g.n * g.stage) 65536
/-- t of 05 R169. -/
def StackGeom.touch (g : StackGeom) (mw : Nat) : Nat := ceilDiv (mw * g.e) 65536 + 1

/-- Step-area pages A (05 R168). -/
def areaPages (img : List Byte) : Nat := (geom img false).area + (geom img true).area

/-- Pages held by a member's reserve: STEP_PAGES − A (05 R201). -/
def reservePages (img : List Byte) : Nat := imgStepPages img - areaPages img

/-- The declarations of rates (04 R139, Table 4-7; 05 R163). BOUNDARY_SWEEP is an index in the SWEEPS section (log 62), and in a two-rate parure every sweep with
the PATCH flag comes after it. -/
def ratesOk (img : List Byte) : Bool :=
  let two := imgTwoRate img
  let bnd := sectFld img 7 1 1
  let bs := sectFld img 7 18 2
  let pm := sectFld img 7 2 2
  let p := (progOf img 1).getD { kind := 1, first := 0, count := 0 }
  zeroAt img ((sect img 7).off + 52) 12 && sectFld img 7 0 1 == (if two then 2 else 1) &&
  (if two then 1 ≤ bnd && bnd ≤ 3 && 1 ≤ pm && pm ≤ 64 && 1 ≤ sectFld img 7 4 2 && 1 ≤ imgWindow img
   else bnd == 0 && pm == 0 && sectFld img 7 4 2 == 0) && 1 ≤ sectFld img 7 6 2 &&
  (if two && bnd == 3 then
     p.first ≤ bs && bs < p.first + p.count && (sweepAt img bs).kind == 3
   else bs == 0) &&
  (!two || (List.range (sect img 2).count).all (fun i => !(sweepAt img i).patch || bs < i)) &&
  (bnd == 2 || sectFld img 7 20 32 == 0) &&
  sectFld img 7 16 2 % 32 == 0 && (kvEntry (sectFld img 7 15 1) 32).isSome &&
  (!two || (sectFld img 7 12 2 % 32 == 0 && (kvEntry (sectFld img 7 14 1) 32).isSome))

/-- The ends that SCRATCH_PEAK is compared with (04 R142). -/
def scratchEnds (img : List Byte) : List Nat :=
  ((List.range (sect img 5).count).map (fun k => (liveAt img k).1 + (liveAt img k).2)) ++
  ((List.range (sect img 2).count).map (fun i =>
    let s := sweepAt img i
    [s.scrIn + 64, s.scrOut + 64, s.scrAux + 64] ++ ((sweepOps img s).filter (fun o => o.op == 0x11)).map (fun o => s.scrAux + 64 * o.arg + 64))).flatten

/-- Resource declaration (04 R142, 05 R169). -/
def resourcesOk (img : List Byte) : Bool :=
  let peak := sectFld img 8 0 4
  let g := geom img false
  let l := geom img true
  let mw := imgMaxWidth img
  zeroAt img ((sect img 8).off + 32) 32 && peak ≤ 2097152 && (scratchEnds img).all (· ≤ peak) &&
  (imgTwoRate img || imgMaxGlobal img == imgMaxThread img) &&
  imgSessionPages img == g.pages + l.pages && areaPages img + g.n * g.touch mw + l.n * (l.touch mw + 1) ≤ imgStepPages img &&
  g.pages ≤ 131072 && l.pages ≤ 65536 && areaPages img ≤ 256

/-- Time declaration (04 R143, R145). -/
def timesOk (img : List Byte) : Bool :=
  let mw := imgMaxWidth img
  let p := (progOf img 1).getD { kind := 1, first := 0, count := 0 }
  zeroAt img ((sect img 9).off + 68) 60 && (List.range 16).all (fun w => w + 1 ≤ mw || imgStepTicks img (w + 1) == 0) &&
  (if imgDraft img then sectFld img 7 0 1 == 1 && 17 ≤ imgMaxThread img && imgMaxThread img ≤ 272
   else (List.range mw).all (fun w => imgStepTicks img (w + 1) != 0 && (w == 0 || imgStepTicks img w ≤ imgStepTicks img (w + 1))) &&
     ceilDiv (imgColBytes img) 16384 ≤ imgStepTicks img mw &&
     ceilDiv ((List.range p.count).foldl (fun a i => a + (sweepAt img (p.first + i)).wcet) 0) 16 ≤ imgStepTicks img mw)

/-! ## Facet layout (04 R146, R147) -/

/-- FACET_BYTES. -/
def facetBytes (img : List Byte) : Nat := sectFld img 10 4 4

/-- A layer entry of the facet layout: LAYER, STEER_WIDTH, SCALE_WIDTH (04 Table 4-10). -/
def facetLayer (img : List Byte) (k : Nat) : Nat × Nat × Nat := (sectFld img 10 (16 + 8 * k) 2, sectFld img 10 (18 + 8 * k) 2, sectFld img 10 (20 + 8 * k) 2)

/-- The layers of the facet layout. -/
def facetLayers (img : List Byte) : List (Nat × Nat × Nat) := (List.range (sectFld img 10 0 2)).map (facetLayer img)

/-- Padded length of a facet layer. -/
def layerBytes (l : Nat × Nat × Nat) : Nat := ceilDiv (2 * (l.2.1 + l.2.2)) 64 * 64

/-- Layer indices ascend. -/
def ascends : List Nat → Bool
  | a :: b :: rest => a < b && ascends (b :: rest)
  | _ => true

/-- The FACET_LAYOUT section keeps Table 4-10 and R147. -/
def facetOk (img : List Byte) : Bool :=
  !hasSect img 10 || (
    let b := (sect img 10).off
    let ls := facetLayers img
    zeroAt img (b + 2) 2 && zeroAt img (b + 8) 8 && 1 ≤ ls.length && ls.length ≤ 256 && ls.length == (sect img 10).count &&
    (List.range ls.length).all (fun k => zeroAt img (b + 16 + 8 * k + 6) 2) && ascends (ls.map (·.1)) &&
    ls.all (fun l => l.1 < sectFld img 7 6 2 && 2 * (l.2.1 + l.2.2) ≤ 16384) && facetBytes img == ls.foldl (fun a l => a + layerBytes l) 0)

/-- Padding bytes of a facet image are zero: each layer from an offset on (04 R146, R159). -/
def facetPadOk (image : List Byte) : Nat → List (Nat × Nat × Nat) → Bool
  | _, [] => true
  | o, l :: ls => zeroAt image (o + 2 * (l.2.1 + l.2.2)) (layerBytes l - 2 * (l.2.1 + l.2.2)) && facetPadOk image (o + layerBytes l) ls

/-! ## Grammars (07 R247 to R252) -/

/-- A field of grammar entry g (07 Table 7-3). -/
def gramFld (img : List Byte) (g off n : Nat) : Nat := sectFld img 11 (32 * g + off) n

/-- State entry: TRANS_FIRST, TRANS_N, MASK (07 Table 7-4). -/
def gramState (img : List Byte) (g st : Nat) : Nat × Nat × Nat :=
  let b := gramFld img g 8 4 + 8 * st
  (sectFld img 11 b 4, sectFld img 11 (b + 4) 2, sectFld img 11 (b + 6) 2)

/-- Transition entry: LO, HI, NEXT (07 Table 7-5). -/
def gramTrans (img : List Byte) (g t : Nat) : Nat × Nat × Nat :=
  let b := gramFld img g 16 4 + 8 * t
  (sectFld img 11 b 2, sectFld img 11 (b + 2) 2, sectFld img 11 (b + 4) 2)

/-- The transitions of a state. -/
def gramRanges (img : List Byte) (g st : Nat) : List (Nat × Nat × Nat) :=
  let e := gramState img g st
  (List.range e.2.1).map (fun i => gramTrans img g (e.1 + i))

/-- The mask of a state as a number of 8,512 bits (07 R247). -/
def gramMask (img : List Byte) (g st : Nat) : Nat := sectFld img 11 (gramFld img g 12 4 + 1088 * (gramState img g st).2.2) 1064

/-- The state entered after a symbol, none when DEAD (07 R252). -/
def gramNext (img : List Byte) (g st sym : Nat) : Option Nat :=
  ((gramRanges img g st).find? (fun r => r.1 ≤ sym && sym ≤ r.2.1)).map (·.2.2)

/-- Ranges in ascending LO order and disjoint. -/
def rangesRise : List (Nat × Nat × Nat) → Bool
  | a :: b :: rest => a.2.1 < b.1 && rangesRise (b :: rest)
  | _ => true

/-- One grammar keeps Tables 7-3 to 7-5 (07 R249). -/
def gramOk (img : List Byte) (g : Nat) : Bool :=
  let len := (sect img 11).len
  let ns := gramFld img g 0 2
  let nm := gramFld img g 4 4
  let nt := gramFld img g 20 4
  1 ≤ ns && gramFld img g 2 2 < ns && 1 ≤ nm && nm ≤ 65535 && gramFld img g 8 4 % 8 == 0 && gramFld img g 12 4 % 64 == 0 && gramFld img g 16 4 % 8 == 0 &&
  gramFld img g 24 8 == 0 && gramFld img g 8 4 + 8 * ns ≤ len && gramFld img g 12 4 + 1088 * nm ≤ len && gramFld img g 16 4 + 8 * nt ≤ len &&
  (List.range nm).all (fun m => zeroAt img ((sect img 11).off + gramFld img g 12 4 + 1088 * m + 1064) 24) &&
  (List.range nt).all (fun t => let r := gramTrans img g t
    r.1 ≤ r.2.1 && r.2.1 ≤ 0x213F && r.2.2 < ns && sectFld img 11 (gramFld img g 16 4 + 8 * t + 6) 2 == 0) &&
  (List.range ns).all (fun st =>
    let e := gramState img g st
    let rs := gramRanges img g st
    e.2.1 ≤ 8512 && e.1 + e.2.1 ≤ nt && e.2.2 < nm && rangesRise rs &&
    rs.foldl (fun a r => a + (2 ^ (r.2.1 + 1) - 2 ^ r.1)) 0 == gramMask img g st)

/-- Bytes from an offset on that no area covers are zero; the areas in ascending offset. -/
def gapsZero (img : List Byte) (base hi : Nat) : Nat → List (Nat × Nat) → Bool
  | lo, [] => zeroAt img (base + lo) (hi - lo)
  | lo, a :: as => zeroAt img (base + lo) (min a.1 hi - lo) && gapsZero img base hi (max lo (a.1 + a.2)) as

/-- Every byte of the GRAMMARS section outside its entries and areas is zero (07 R248, R249). -/
def gramPadOk (img : List Byte) : Bool :=
  let n := (sect img 11).count
  let areas := ((List.range n).map (fun g =>
    [(gramFld img g 8 4, 8 * gramFld img g 0 2), (gramFld img g 12 4, 1088 * gramFld img g 4 4), (gramFld img g 16 4, 8 * gramFld img g 20 4)])).flatten
  gapsZero img (sect img 11).off (sect img 11).len (32 * n) (sortBy (fun a b => a.1 ≤ b.1) areas)

/-- Number of grammars of an image. -/
def gramCount (img : List Byte) : Nat := if hasSect img 11 then (sect img 11).count else 0

/-- Check 10 (04 Table 4-11). -/
def check10 (img : List Byte) : Bool :=
  fieldAt img 32 2 == 8512 && fieldAt img 34 2 == 256 && 1 ≤ imgMaxWidth img && imgMaxWidth img ≤ 16 &&
  (List.range (sect img 2).count).all (fun i => !(sweepAt img i).logits || (sweepAt img i).n == 8576) &&
  ratesOk img && resourcesOk img && timesOk img && facetOk img && gramCount img ≤ 256 && (List.range (gramCount img)).all (gramOk img) && (!hasSect img 11 || gramPadOk img)

/-- The first failing check of 8, 9 and 10, or none. -/
def staticCheck (img : List Byte) : Option Nat :=
  if !check8 img then some 8 else if !check9 img then some 9 else if !check10 img then some 10 else none

/-- The parure hash (04 R127). -/
def parureHash (img : List Byte) : Nat := beNat (sha256 (img.take (imgBytes img - 128)))

/-- The signature verifies under a key (04 R126, R127). -/
def parureSigned (img : List Byte) (key : Nat × Nat) : Bool :=
  let b := img.drop (imgBytes img - 128)
  ecdsaVerify key (parureHash img) (beNat (bytesAt b 0 48)) (beNat (bytesAt b 48 48))

/-- Admitted step time (04 R157); SPILL_MAX / 32 is rounded up (log 60). -/
def tAdmOf (img : List Byte) (widthCap : Nat) : Nat :=
  let t := imgStepTicks img widthCap
  t + ceilDiv t 64 + 1227 + (ceilDiv (imgSpillMax img) 32 + 1024)

/-- Whether the position of a symbol closes a patch; run counts the symbols of the patch including it (04 R140). A one-rate parure has every
position in its only stack. -/
def closesPatch (img : List Byte) (sym run : Nat) (model : Bool) : Bool :=
  let bnd := sectFld img 7 1 1
  !imgTwoRate img || 0x100 ≤ sym || sectFld img 7 2 2 ≤ run || (bnd == 2 && bitAt (sectFld img 7 20 32) sym) || (bnd == 3 && model)

end Sys2Proof.Machine
end

