-- ==== Sys2Proof/Machine/Frames.lean ====
section
/-!
DEFINITION. Sys2Proof/Machine/Frames.lean: the areas of T1 (09 Table 9-1) and their allocation, KV pool frames, page tables, the TLB, drops
(05 R162 to R211).
-/
namespace Sys2Proof.Machine

/-! ## Areas of a stack (09 R327, R328) -/

/-- Bytes of a stack's usable region: 44 GiB. -/
def usable : Nat := 44 * 2 ^ 30

/-- Size of the control area of a stack (09 Table 9-1). -/
def ctlSize (s : State) (st : Nat) : Nat := 2 ^ 30 + (if st = 0 then s.lan.config.locketMax * 64 else 0)

/-- Size of the session arena of a stack. -/
def arenaSize (s : State) (st : Nat) : Nat := s.lan.config.arenaMib.getD st 0 * 2 ^ 20

/-- Offset of the KV pool of a stack. -/
def poolBase (s : State) (st : Nat) : Nat := ctlSize s st + arenaSize s st

/-- Offset of the parure area of a stack. -/
def parBase (s : State) (st : Nat) : Nat := poolBase s st + s.ast.pool.getD st 0 * 65536

/-- T1 address of a stack's offset. -/
def t1Addr (st off : Nat) : Nat := st * 2 ^ 36 + off

/-- First free place of a size and alignment between two offsets, the used places given in ascending order (log 18). -/
def firstFit (align hi lo need : Nat) (used : List (Nat × Nat)) : Option Nat :=
  ((gaps hi lo used).map (fun g => (ceilDiv g.1 align * align, g.1 + g.2))).findSome? (fun g => if g.1 + need ≤ g.2 then some g.1 else none)

/-- The places of a list that lie in a stack, as offsets in ascending order. -/
def placesIn (st : Nat) (l : List (Nat × Nat)) : List (Nat × Nat) :=
  sortBy (fun a b => a.1 ≤ b.1) ((l.filter (fun p => p.1 / 2 ^ 36 == st && p.2 != 0)).map (fun p => (p.1 % 2 ^ 36, p.2)))

/-- Places in use in the parure areas: column images, control space and facets. -/
def parPlaces (s : State) : List (Nat × Nat) :=
  (s.parures.vals.map (fun p => (p.controlBase, p.controlLen) :: p.weightBase.map (fun a => (a, imgColBytes p.header)))).flatten ++
  s.facets.map (fun f => (f.addr, f.image.length))

/-- A place in the parure area of a stack. -/
def parFit (s : State) (st need : Nat) : Option Nat := (firstFit 65536 usable (parBase s st) need (placesIn st (parPlaces s))).map (t1Addr st)

/-- A place in the parure area of any stack, the lowest that has one (log 18). -/
def parFitAny (s : State) (need : Nat) : Option Nat := (List.range 8).findSome? (fun st => parFit s st need)

/-- Places in use in the session arenas: footprints, footprints reserved by moves, and charms' symbols and indices. -/
def arenaPlaces (s : State) : List (Nat × Nat) :=
  (s.lockets.vals.map (fun l =>
    (if l.page = 0 then [] else [(l.page, l.footprint)]) ++
    (match l.move with | some m => (if m.page = 0 then [] else [(m.page, l.footprint)]) | none => []))).flatten ++
  s.charms.vals.map (fun c => (c.addr, c.arena))

/-- A place in the session arena of a stack; control pages stand at multiples of 8 KiB (08 R294). -/
def arenaFit (s : State) (st need : Nat) : Option Nat :=
  (firstFit 8192 (poolBase s st) (ctlSize s st) need (placesIn st (arenaPlaces s))).map (t1Addr st)

/-- Tables of a session: N_T (08 R288). -/
def tableCount (img : List Byte) : Nat := ceilDiv (geom img false).pages 512 + ceilDiv (geom img true).pages 512 + 1

/-- Place of the table of a VPN among a session's tables: the ONE or GLOBAL region's, the LOCAL region's, the step area's (05 Table 5-2, R178). -/
def tableIndex (img : List Byte) (vpn : Nat) : Nat :=
  let one := ceilDiv (geom img false).pages 512
  if vpn < 0x20000 then vpn / 512
  else if vpn < 0x30000 then one + (vpn - 0x20000) / 512
  else one + ceilDiv (geom img true).pages 512

/-- T1 address of the directory of a control page (log 15). -/
def dirAddr (page : Nat) : Nat := page + 4096

/-- T1 addresses of the directory entry and of the PTE that a walk reads (05 R178, R180; log 15). -/
def walkAddrs (img : List Byte) (page vpn : Nat) : Nat × Nat := (dirAddr page + 8 * (vpn / 512), page + 4096 * (2 + tableIndex img vpn) + 8 * (vpn % 512))

/-- VPN of the first entry of a session's table. -/
def tableVpn (img : List Byte) (i : Nat) : Nat :=
  let one := ceilDiv (geom img false).pages 512
  let loc := ceilDiv (geom img true).pages 512
  if i < one then 512 * i else if i < one + loc then 0x20000 + 512 * (i - one) else 0x30000

/-- T1 address of the directory of a charm replica, whose tables follow it: in the control area of its stack (05 R178; log 15). -/
def replicaDir (ci st : Nat) : Nat := t1Addr st (2 ^ 26 + ci % 1024 * 65536)

/-- T1 address of the reserve list of a BOUND session: in the control area of its home stack (05 Table 5-3; log 52). -/
def reserveAddr (l : Locket) : Nat := if l.context < 8 then t1Addr l.home (2 ^ 27 + (l.context * 256 + l.member) * 16384) else 0

/-- Session arena footprint F (08 R288). -/
def footprintOf (img : List Byte) : Nat := 4096 * (2 + tableCount img + ceilDiv (2 * imgMaxThread img) 4096)

/-- T1 address of the thread of a control page (08 R288). -/
def threadPlace (img : List Byte) (page : Nat) : Nat := page + 4096 * (2 + tableCount img)

/-! ## Parures in use -/

/-- The LOADED parure of a load slot. -/
def loadedSlot (s : State) (slot : Nat) : Option Parure := (s.parures.get? slot).bind (fun p => if p.state == .loaded then some p else none)

/-- The load slot and parure LOADED with a hash. -/
def loadedHash (s : State) (hash : Nat) : Option (Nat × Parure) := s.parures.find? (fun e => e.2.state == .loaded && e.2.hash == hash)

/-- The load slot and parure of a handle. -/
def parureHandle (s : State) (h : Nat) : Option (Nat × Parure) := s.parures.find? (fun e => e.2.handle == h)

/-- The image of a locket's parure; empty where none is loaded. -/
def locketImg (s : State) (l : Locket) : List Byte := ((loadedSlot s l.slot).map (·.image)).getD []

/-! ## Frames of the KV pools (05 R200) -/

/-- The key of a frame of a stack. -/
def frameKey (st f : Nat) : Nat := st * 2 ^ 20 + f

/-- T1 address of a frame. -/
def frameAddr (s : State) (st f : Nat) : Nat := t1Addr st (poolBase s st + f * 65536)

/-- Free pages of a stack's KV pool (05 Table 5-12). -/
def freePages (s : State) (k : Nat) : Nat := s.ast.pool.getD k 0 - (s.ast.frames.filter (fun e => e.1 / 2 ^ 20 == k)).length

/-- The first free frames of a stack, in ascending number (log 18). -/
def freeFrames (s : State) (st n : Nat) : List Nat :=
  let used := (s.ast.frames.filter (fun e => e.1 / 2 ^ 20 == st)).map (fun e => (e.1 % 2 ^ 20, 1))
  ((takeRuns n (gaps (s.ast.pool.getD st 0) 0 used)).1.map (fun r => (List.range r.2).map (· + r.1))).flatten

/-- Gives frames of a stack a use. -/
def useFrames (s : State) (st : Nat) (fs : List Nat) (u : FrameUse) : State :=
  s.astM fun a => { a with frames := fs.foldl (fun t f => t.set (frameKey st f) u) a.frames }

/-- Frames of a stack return to the free list. -/
def releaseFrames (s : State) (st : Nat) (fs : List Nat) : State :=
  s.astM fun a => { a with frames := fs.foldl (fun t f => t.erase (frameKey st f)) a.frames }

/-- Pages in reserves and step areas, all stacks (05 Table 5-12). -/
def reservedPages (s : State) : Nat :=
  (s.ast.frames.filter (fun e => match e.2 with | .reserve _ => true | .step _ => true | _ => false)).length

/-- Own-region PTEs that are PRESENT (05 Table 5-3): VPNs below the step area. -/
def presentOwn (l : Locket) : Tab Pte := l.ptes.filter (fun e => decide (e.1 < 0x30000) && e.2.state == .present)

/-- A BATCH_JOIN of the session is pending (05 R205). -/
def joinPending (s : State) (id : Nat) : Bool := s.eph.ctxs.any (fun c => c.2.joins.any (fun j => j.id == id))

/-- The session is droppable in a stack (05 R205): the source of a charm whose first copy is in progress is not. -/
def droppable (s : State) (st id : Nat) (l : Locket) : Bool :=
  l.state == .opened && l.home == st && !(presentOwn l).isEmpty && l.move.isNone && !l.recomputing && !joinPending s id && !s.ast.moves.has id &&
  !s.charms.any (fun c => c.2.cmd.isSome && c.2.tenant == l.tenant && l.pins.any (some · == c.2.cmd))

/-- Pages that a drop could free in a stack (05 Table 5-12). -/
def droppableIn (s : State) (st : Nat) : Nat :=
  (s.lockets.filter (fun e => droppable s st e.1 e.2)).foldl (fun a e => a + (presentOwn e.2).length) 0

/-- Pages that R205 could drop, all stacks (05 Table 5-12). -/
def droppablePages (s : State) : Nat := (List.range 8).foldl (fun a st => a + droppableIn s st) 0

/-! ## TLB (05 R179, R181) -/

/-- Set of an entry (05 R179). -/
def tlbSet (id vpn : Nat) : Nat := (vpn % 512) ^^^ (id % 512)

/-- A lookup of one page: a hit moves its entry to the front; a miss walks and, where the PTE is PRESENT, caches it in place of the least recently
used entry (05 R179, R180). -/
def tlbLook (a : Ast) (id vpn : Nat) (pte : Pte) : Ast :=
  let k := tlbSet id vpn
  let ways := a.tlb.getD k []
  let rest := ways.filter (fun e => !(e.id == id && e.vpn == vpn))
  if rest.length < ways.length then { a with tlb := a.tlb.set k ({ id := id, vpn := vpn, pte := pte } :: rest), tlbHit := (a.tlbHit + 1) % 2 ^ 64 }
  else
    let a := { a with tlbMiss := (a.tlbMiss + 1) % 2 ^ 64 }
    if pte.state == .present then { a with tlb := a.tlb.set k (({ id := id, vpn := vpn, pte := pte } :: rest).take 8) } else a

/-- Drops every TLB entry that a predicate names (05 Table 5-5). -/
def tlbDrop (a : Ast) (p : TlbEntry → Bool) : Ast :=
  { a with tlb := (a.tlb.map (fun e => (e.1, e.2.filter (fun t => !p t)))).filter (fun e => !e.2.isEmpty) }

/-- Invalidates every entry of a table id. -/
def tlbDropId (s : State) (id : Nat) : State := s.astM fun a => tlbDrop a (fun t => t.id == id)

/-- Invalidates one entry. -/
def tlbDropPage (s : State) (id vpn : Nat) : State := s.astM fun a => tlbDrop a (fun t => t.id == id && t.vpn == vpn)

/-- Table id of a charm replica (08 R318). -/
def replicaId (ci st : Nat) : Nat := 2 ^ 26 + 8 * ci + st

/-! ## Page changes (05 Table 5-9) -/

/-- The cut whose copy of a pinned frame is still queued; the oldest cut where none names it. -/
def pinCut (s : State) (st f : Nat) : Nat :=
  (((s.hbc.getD st {}).copyQ.find? (fun q => q.frame == f)).map (·.cut)).getD ((s.ckpt.cuts.head?.map (·.frame)).getD 0)

/-- A frame leaves its page: a pinned frame passes to the cut, any other is freed (05 R197, Table 5-9). -/
def vacate (s : State) (p : Pte) : State :=
  if p.pin then useFrames s p.stack [p.frame] (.cut (pinCut s p.stack p.frame)) else releaseFrames s p.stack [p.frame]

/-- Every own-region frame of a locket leaves (05 Table 5-9: closed, parked below T1 or moved). -/
def vacateAll (s : State) (id : Nat) : State :=
  match s.lockets.get? id with
  | none => s
  | some l =>
    let s := (presentOwn l).foldl (fun s e => vacate s e.2) (tlbDropId s id)
    s.locketM id fun l => { l with ptes := [] }

/-- The own-region pages of a session are dropped: each frame leaves, and its PTE is DROPPED (05 Table 5-9). -/
def dropPages (s : State) (id : Nat) : State :=
  match s.lockets.get? id with
  | none => s
  | some l =>
    let s := (presentOwn l).foldl (fun s e => vacate (tlbDropPage s id e.1) e.2) s
    s.locketM id fun l => { l with ptes := l.ptes.map (fun e => (e.1, if e.2.state == .present then { state := .dropped } else e.2)), dropped := true,
                                   dirtyControl := true, dirty := [] }

/-- A drop of one session (05 R205). -/
def dropSession (s : State) (id : Nat) : State := (dropPages s id).astM fun a => { a with drops := wrapInc 32 a.drops }

/-- The session that a drop takes next: ascending LAST_SEAL, ties to the lower table id (05 R205). -/
def nextDrop (s : State) (st : Nat) : Option Nat :=
  ((s.lockets.filter (fun e => droppable s st e.1 e.2)).foldl (fun b e => match b with
    | none => some e
    | some c => if e.2.lastSeal < c.2.lastSeal then some e else some c) (none : Option (Nat × Locket))).map (·.1)

/-- Drops until a stack has n free pages or nothing is droppable (05 R203). -/
def dropUntil (st n : Nat) : Nat → State → State
  | 0, s => s
  | fuel + 1, s =>
    if n ≤ freePages s st || !s.ast.dropEn then s else
    match nextDrop s st with
    | none => s
    | some id => dropUntil st n fuel (dropSession s id)

/-- Free pages of all stacks together, plus the droppable pages (05 R209). -/
def sparePages (s : State) : Nat := (List.range 8).foldl (fun a st => a + freePages s st) 0 + droppablePages s

/-- LOWATER is set when free and droppable pages fall below the threshold (05 R209). -/
def lowater (s : State) : State :=
  let low := s.ast.lowater != 0 && decide (sparePages s < s.ast.lowater)
  s.astM fun a => { a with evLowater := a.evLowater || (low && !a.low), low := low }

/-- Takes n free frames of a stack for a use, without drops (05 R209). -/
def takeFree (s : State) (st n : Nat) (u : FrameUse) : State × Option (List Nat) :=
  if n ≤ freePages s st then
    let fs := freeFrames s st n
    (lowater (useFrames s st fs u), some fs)
  else (s, none)

/-- Takes n frames of a stack for a use, after drops; none when they do not suffice, and then only the drops stand (05 R203). -/
def takeFrames (s : State) (st n : Nat) (u : FrameUse) : State × Option (List Nat) :=
  let q := takeFree (dropUntil st n s.lockets.length s) st n u
  if q.2.isSome then q else (lowater q.1, none)

/-! ## KV addresses (05 R164 to R168) -/

/-- Page and byte of a region offset of the ONE or GLOBAL, or the LOCAL region, as a KV address (VPN · 65,536 + byte) (05 R167). -/
def regionAddr (loc : Bool) (x : Nat) : Nat := (if loc then 0x20000 else 0) * 65536 + x

/-- KV address of the entry of layer l at slot q (05 R164). -/
def entryAddr (g : StackGeom) (loc : Bool) (layer q : Nat) : Nat := regionAddr loc (layer * g.stride + q * g.e)

/-- Slot of a position in a session's ONE or GLOBAL region: the positions of its charm take none (05 R165). -/
def ownSlot (img : List Byte) (l : Locket) (g : Nat) : Nat := g - (if imgTwoRate img then l.charmGlen else l.charmLen)

/-- First VPN of a step area (05 Table 5-2, R168). -/
def areaVpn : Nat := 0x30000

/-- KV address in the step area of the entry of layer l at stage slot q: the ONE or GLOBAL part from VPN 0x3_0000, the LOCAL part at the next page boundary
(05 R168). -/
def stageOff (img : List Byte) (loc : Bool) (layer q : Nat) : Nat :=
  let g := geom img loc
  areaVpn * 65536 + (if loc then (geom img false).area * 65536 else 0) + layer * g.stage + q * g.e

/-- The page-table entry of a VPN of a locket: the step area's pages are PRESENT in its step-area frames, in order (05 R168, R178, R201). -/
def pteAt (l : Locket) (vpn : Nat) : Pte :=
  if vpn < areaVpn then l.ptes.getD vpn {} else
  match l.area[vpn - areaVpn]? with
  | some f => { state := .present, stack := l.home, frame := f }
  | none => {}

/-- A page-table entry as its 8 bytes (05 Table 5-4). -/
def pteBytes (p : Pte) : List Byte :=
  natLe 8 ((match p.state with | .absent => 0 | .present => 1 | .dropped => 2) * 2 ^ 62 + boolNat p.pin * 2 ^ 61 +
    (if p.state == .present then p.stack * 2 ^ 20 + p.frame else 0))

/-- A directory entry as its 8 bytes: the T1 address of its table, or none (05 Table 5-4). -/
def dirBytes (table : Option Nat) : List Byte := natLe 8 (match table with | some a => 2 ^ 63 + a | none => 0)

/-- Pages that a run of KV addresses touches. -/
def pagesOf (x n : Nat) : List Nat := if n = 0 then [] else (List.range ((x + n - 1) / 65536 + 1 - x / 65536)).map (· + x / 65536)

/-- T1 address of a KV address of a locket: its own regions and its step area. -/
def kvPlace (s : State) (l : Locket) (x : Nat) : Option Nat :=
  let p := pteAt l (x / 65536)
  if p.state == .present then some (frameAddr s p.stack p.frame + x % 65536) else none

/-- Copies one T1 byte, with the tarnish of its codeword (13 R485). -/
def copyByte (s : State) (src dst : Nat) : State :=
  let s := { s with t1 := s.t1.write dst (s.t1.read src) }
  if s.integ.tarnishT1.contains (src / 16) && !s.integ.tarnishT1.contains (dst / 16) then
    s.integM fun i => { i with tarnishT1 := insertBy (fun a b => a ≤ b) (dst / 16) i.tarnishT1 }
  else s

/-- Copies a run of T1 bytes. -/
def copyRun (s : State) (src dst : Nat) : Nat → State
  | 0 => s
  | n + 1 => copyRun (copyByte s src dst) (src + 1) (dst + 1) n

/-- Writes bytes to T1; a line written whole loses its tarnish (13 R485). -/
def t1Write (s : State) (a : Nat) (data : List Byte) : State :=
  let s := { s with t1 := s.t1.writeN a data }
  s.integM fun i => { i with tarnishT1 := i.tarnishT1.filter (fun c => !(a ≤ 16 * c && 16 * c + 16 ≤ a + data.length)) }

/-- Tarnished codewords of a unit of T1, counted within it. -/
def unitTarn (s : State) (a : Nat) : List Nat := (s.integ.tarnishT1.filter (fun c => a ≤ 16 * c && 16 * c < a + 4096)).map (fun c => c - a / 16)

/-- Bytes with the codewords of a list of tarnished ones read as zero (13 R489). -/
def blankTarnish (first : Nat) (tarn : List Nat) (b : List Byte) : List Byte :=
  tarn.foldl (fun b c => if first ≤ c && 16 * (c - first) + 16 ≤ b.length then b.take (16 * (c - first)) ++ zeros 16 ++ b.drop (16 * (c - first) + 16) else b) b

/-- A unit is written to the place of a unit-list entry, tarnish as canonical tarnish; an entry with ZERO is never written (09 R342, R347; 13 R482, R485). -/
def unitPut (s : State) (e : Nat) (b : List Byte) (tarn : List Nat) : State :=
  if bitAt e 63 then s else
  let a := unitEntry e
  (t1Write s a (padTo 4096 (blankTarnish 0 tarn b))).integM fun i => { i with tarnishT1 := addMarks i.tarnishT1 (tarn.map (· + a / 16)) }

/-- Unit-list entries of n units from a T1 address on (09 R347). -/
def unitRun (a n : Nat) : List Nat := (List.range n).map (fun i => unitEntry (a + 4096 * i))

/-- Unit-list entries of the pages of a stack's frames. -/
def frameUnits (s : State) (st : Nat) (fs : List Nat) : List Nat := (fs.map (fun f => unitRun (frameAddr s st f) 16)).flatten

/-- A unit list of n entries: those given, and ZERO for the rest. -/
def fillList (n : Nat) (l : List Nat) : List Nat := (l ++ List.replicate (n - l.length) zeroUnit).take n

/-- The charm a session is attached to: the tenant's charm of its digest (08 R313, R316). -/
def attachedCharm (s : State) (l : Locket) : Option (Nat × Charm) :=
  if l.charmDigest = 0 then none else s.charms.find? (fun e => e.2.tenant == l.tenant && e.2.digest == l.charmDigest)

/-- KV units become dirty (14 R523). -/
def markDirty (l : Locket) (us : List Nat) : Locket :=
  { l with dirty := us.foldl (fun d u => if d.contains u then d else insertBy (fun a b => a ≤ b) u d) l.dirty }

/-- A fresh frame for a page of a locket from its reserve, or from a recompute's reservation (05 R198, R207). -/
def freshPage (s : State) (id vpn : Nat) (rec : Bool) : State :=
  match s.lockets.get? id with
  | none => s
  | some l =>
    match (if rec then l.recFrames else l.reserve) with
    | [] => s
    | f :: rest =>
      let s := useFrames s l.home [f] (.inUse id)
      let s := { s with t1 := s.t1.clear (frameAddr s l.home f) (frameAddr s l.home f + 65536) }
      let s := tlbDropPage s id vpn
      s.locketM id fun l =>
        { markDirty l ((List.range 16).map (· + 16 * vpn)) with
                 ptes := l.ptes.set vpn { state := .present, stack := l.home, frame := f }
                 reserve := if rec then l.reserve else rest, recFrames := if rec then rest else l.recFrames }

/-- A pinned page is redirected: fresh frame, 64 KiB copied, the pinned frame passed to the cut (05 R197). -/
def redirect (s : State) (id vpn : Nat) (p : Pte) : State :=
  let s := useFrames s p.stack [p.frame] (.cut (pinCut s p.stack p.frame))
  let s := freshPage s id vpn false
  match (s.lockets.get? id).bind (fun l => l.ptes.get? vpn) with
  | none => s
  | some q => (copyRun s (frameAddr s p.stack p.frame) (frameAddr s q.stack q.frame) 65536).astM fun a => { a with redirects := wrapInc 32 a.redirects }

/-- A page of a locket is made ready for a canonical write (05 Table 5-9). -/
def readyPage (s : State) (id : Nat) (rec : Bool) (vpn : Nat) : State :=
  match s.lockets.get? id with
  | none => s
  | some l =>
    match l.ptes.get? vpn with
    | none => freshPage s id vpn rec
    | some p => if p.state != .present then freshPage s id vpn rec else if p.pin then redirect s id vpn p else s

/-- Writes bytes at a KV address of a locket, byte by byte. -/
def kvWriteGo (id : Nat) : Nat → List Byte → State → State
  | _, [], s => s
  | x, b :: bs, s =>
    match (s.lockets.get? id).bind (fun l => kvPlace s l x) with
    | none => kvWriteGo id (x + 1) bs s
    | some a => kvWriteGo id (x + 1) bs { s with t1 := s.t1.write a b }

/-- A canonical write at a KV address of a locket (05 R197 to R199). -/
def kvWrite (s : State) (id : Nat) (rec : Bool) (x : Nat) (data : List Byte) : State :=
  let s := (pagesOf x data.length).foldl (fun s v => readyPage s id rec v) s
  let us := if data.isEmpty then [] else (List.range ((x + data.length - 1) / 4096 + 1 - x / 4096)).map (· + x / 4096)
  kvWriteGo id x data (s.locketM id fun l => markDirty l us)

/-- Bytes at a KV address of a locket. -/
def kvRead (s : State) (l : Locket) : Nat → Nat → List Byte
  | _, 0 => []
  | x, n + 1 => ((kvPlace s l x).map s.t1.read).getD 0#8 :: kvRead s l (x + 1) n

/-- A tarnished codeword lies in a run of T1 bytes. -/
def tarnishedRun (s : State) (a n : Nat) : Bool := s.integ.tarnishT1.any (fun c => a < 16 * c + 16 && 16 * c < a + n)

/-- A walk of a page of a session reads a tarnished directory or table line (05 R182). -/
def walkTarnished (s : State) (img : List Byte) (l : Locket) (vpn : Nat) : Bool :=
  let w := walkAddrs img l.page vpn
  tarnishedRun s w.1 8 || tarnishedRun s w.2 8

/-- A walk of a page of a charm replica's ONE or GLOBAL region reads a tarnished directory or table line (05 R182). -/
def replicaWalkTarnished (s : State) (ci st vpn : Nat) : Bool :=
  let a := replicaDir ci st
  tarnishedRun s (a + 8 * (vpn / 512)) 8 || tarnishedRun s (a + 4096 * (1 + vpn / 512) + 8 * (vpn % 512)) 8

/-- A page is in the TLB (05 R179). -/
def tlbHas (s : State) (id vpn : Nat) : Bool := (s.ast.tlb.getD (tlbSet id vpn) []).any (fun t => t.id == id && t.vpn == vpn)

/-- A lookup of a page of a session, with the walk that a miss makes, and whether the walk met tarnish (05 R179, R180, R182). -/
def ownLook (img : List Byte) (h : Nat) (l : Locket) (s : State) (vpn : Nat) : State × Bool :=
  let bad := !tlbHas s h vpn && walkTarnished s img l vpn
  (s.astM fun a => { tlbLook a h vpn (pteAt l vpn) with evWalkTarnish := a.evWalkTarnish || bad }, bad)

/-- A lookup of a page of a charm replica, likewise. -/
def replicaLook (ci st : Nat) (m : Charm) (s : State) (vpn : Nat) : State × Bool :=
  let id := replicaId ci st
  let bad := !tlbHas s id vpn && replicaWalkTarnished s ci st vpn
  (s.astM fun a => { tlbLook a id vpn { state := .present, stack := st, frame := (m.replicas.getD st {}).frames.getD vpn 0 } with
                       evWalkTarnish := a.evWalkTarnish || bad }, bad)

/-- Lookups in order; whether any met tarnish. -/
def looks {α : Type} (f : State → α → State × Bool) (s : State) (xs : List α) : State × Bool :=
  xs.foldl (fun q x => let r := f q.1 x; (r.1, q.2 || r.2)) (s, false)

/-- A KV entry of a locket is tarnished where any byte of it stands in a tarnished codeword. -/
def kvTarnished (s : State) (l : Locket) (x n : Nat) : Bool :=
  (pagesOf x n).any (fun v =>
    match kvPlace s l (max x (v * 65536)) with
    | some a => tarnishedRun s a (min (x + n) (v * 65536 + 65536) - max x (v * 65536))
    | none => false)

/-! ## Geometry of a charm (05 R170, R171; 08 R315) -/

/-- Local entries a charm keeps: its last min(L, LOCAL_WINDOW − 1) positions (05 R171). -/
def charmLocal (img : List Byte) (len : Nat) : Nat := if imgTwoRate img then min len (imgWindow img - 1) else 0

/-- Geometry of a charm's region: S is the charm's length, or its global positions (05 R170). -/
def charmGeom (img : List Byte) (loc : Bool) (len glen : Nat) : StackGeom :=
  let g := geom img loc
  let n := if loc then charmLocal img len else if imgTwoRate img then glen else len
  { g with slots := n, stride := ceilDiv (n * g.e) 64 * 64 }

/-- Pages of a charm replica. -/
def charmPages (img : List Byte) (len glen : Nat) : Nat := (charmGeom img false len glen).pages + (charmGeom img true len glen).pages

/-- T1 address of a byte of a replica's region: the ONE or GLOBAL pages come first, the LOCAL pages after them. -/
def replicaPlace (s : State) (img : List Byte) (c : Charm) (st : Nat) (loc : Bool) (x : Nat) : Option Nat :=
  let first := if loc then (charmGeom img false c.symbols.length c.glen).pages else 0
  ((c.replicas.getD st {}).frames[first + x / 65536]?).map (fun f => frameAddr s st f + x % 65536)

/-- Bytes of a replica's region. -/
def replicaRead (s : State) (img : List Byte) (c : Charm) (st : Nat) (loc : Bool) : Nat → Nat → List Byte
  | _, 0 => []
  | x, n + 1 => ((replicaPlace s img c st loc x).map s.t1.read).getD 0#8 :: replicaRead s img c st loc (x + 1) n

/-- Positions whose local entries a charm keeps, in ascending order. -/
def charmLocalPos (img : List Byte) (len : Nat) : List Nat := (List.range (charmLocal img len)).map (· + (len - charmLocal img len))

/-- The page-table entry of a VPN of a charm replica: the ONE or GLOBAL pages in order, then the LOCAL pages (05 R170, R178). -/
def replicaPte (img : List Byte) (m : Charm) (st vpn : Nat) : Pte :=
  let one := (charmGeom img false m.symbols.length m.glen).pages
  let i := if vpn < 0x20000 then (if vpn < one then some vpn else none) else some (one + (vpn - 0x20000))
  match i.bind (fun k => (m.replicas.getD st {}).frames[k]?) with
  | some f => { state := .present, stack := st, frame := f }
  | none => {}

/-- Pages of a session's ring that the charm's local entries take (05 R171, 08 Table 8-6). -/
def ringPages (img : List Byte) (len : Nat) : List Nat :=
  let g := geom img true
  ((List.range g.n).map (fun layer =>
    ((charmLocalPos img len).map (fun p => pagesOf (entryAddr g true layer (p % max 1 (imgWindow img))) g.e)).flatten)).flatten.eraseDups

/-- Bytes that the ring copy moves: B of 08 R294. -/
def ringBytes (img : List Byte) (len : Nat) : Nat := charmLocal img len * (geom img true).n * (geom img true).e

end Sys2Proof.Machine
end

