-- ==== Sys2Proof/Machine/Colls.lean ====
section
/-!
DEFINITION. Sys2Proof/Machine/Colls.lean: the sizes and the T1 arrays of a collection (12 R442 to R445): where each array stands, what a byte of a
collection's pages holds, and which of its bytes are tarnished.
-/
namespace Sys2Proof.Machine

/-- SB, bytes of a sketch (12 R443). -/
def sketchBytes (k : Coll) : Nat := k.sketchBits / 8

/-- VB, bytes of a vector (12 R443). -/
def vecBytes (k : Coll) : Nat :=
  if k.metric = 0 then 0
  else if k.vecFmt = 8 then 2 * k.dim
  else if k.vecFmt = 5 then 17 * k.dim / 32
  else 33 * k.dim / 32

/-- VB′, bytes of a vector with its padding (12 R443). -/
def vecPad (k : Coll) : Nat := ceilDiv (vecBytes k) 64 * 64

/-- Bytes of a collection per item (12 R443). -/
def itemBytes (k : Coll) : Nat := 40 + sketchBytes k + vecPad k + 8 * k.degree

/-- Pages of the arrays indexed by item. -/
def itemPages (k : Coll) : Nat := ceilDiv (k.capacity * itemBytes k) 65536

/-- P_c, pages of a collection (12 R443). -/
def collPages (k : Coll) : Nat := itemPages k + ceilDiv (4 * k.sideMax) 65536 + 1

/-- Offsets of the arrays in the collection's pages, in the order of 12 Table 12-3 (log 27): the record of an item. -/
def recOff (_k : Coll) (i : Nat) : Nat := 32 * i
/-- The delete-table entry of an item. -/
def delOff (k : Coll) (i : Nat) : Nat := 32 * k.capacity + 8 * i
/-- The sketch of an item. -/
def sketchOff (k : Coll) (i : Nat) : Nat := 40 * k.capacity + sketchBytes k * i
/-- The vector of an item. -/
def vecOff (k : Coll) (i : Nat) : Nat := (40 + sketchBytes k) * k.capacity + vecPad k * i
/-- The list of an item in adjacency area A (0) or B (1). -/
def adjOff (k : Coll) (area i : Nat) : Nat := (40 + sketchBytes k + vecPad k) * k.capacity + (area * k.capacity + i) * 4 * k.degree
/-- The side-list entry of a position counted since creation, in its ring of SIDE_MAX positions. -/
def sideOff (k : Coll) (p : Nat) : Nat := itemPages k * 65536 + 4 * (p % max 1 k.sideMax)
/-- The collection descriptor. -/
def descOff (k : Coll) : Nat := (collPages k - 1) * 65536

/-- Frame key of page j of pages that lie in stack j mod 8 (12 R444). -/
def pageAddr (s : State) (frames : List Nat) (j : Nat) : Option Nat := (frames[j]?).map (fun f => frameAddr s (j % 8) f)

/-- Frames of n pages, page j in stack j mod 8, for a use; none where a stack lacks them, and then nothing is taken but drops (12 R444, R470). -/
def takeSpread (s : State) (n : Nat) (u : FrameUse) : State × Option (List Nat) :=
  let go := (List.range 8).foldl (fun (a : State × Bool × List (List Nat)) st =>
    if a.2.1 then
      match takeFrames a.1 st ((n + 7 - st) / 8) u with
      | (s, some fs) => (s, true, a.2.2 ++ [fs])
      | (s, none) => (s, false, a.2.2)
    else a) (s, true, [])
  if go.2.1 then (go.1, some ((List.range n).map (fun j => (go.2.2.getD (j % 8) []).getD (j / 8) 0)))
  else (go.2.2.zipIdx.foldl (fun s e => releaseFrames s e.2 e.1) go.1, none)

/-- Drops until all stacks together have n free pages or nothing is droppable, in ascending stack (12 R470). -/
def dropAny (n : Nat) : Nat → State → State
  | 0, s => s
  | fuel + 1, s =>
    if n ≤ (List.range 8).foldl (fun a st => a + freePages s st) 0 || !s.ast.dropEn then s else
    match (List.range 8).findSome? (nextDrop s) with
    | none => s
    | some id => dropAny n fuel (dropSession s id)

/-- Keys of n frames from the free lists of any stacks, in ascending stack, for a use, after drops; none where all stacks together lack them (05 R200,
12 R470; log 18). -/
def takeAny (s : State) (n : Nat) (u : FrameUse) : State × Option (List Nat) :=
  let s1 := dropAny n s.lockets.length s
  if n ≤ (List.range 8).foldl (fun a st => a + freePages s1 st) 0 then
    let q := (List.range 8).foldl (fun (q : State × List Nat) st =>
      let fs := freeFrames q.1 st (min (n - q.2.length) (freePages q.1 st))
      (useFrames q.1 st fs u, q.2 ++ fs.map (frameKey st))) (s1, [])
    (lowater q.1, some q.2)
  else (lowater s1, none)

/-- T1 address of page j of pages held by frame keys. -/
def keyAddr (s : State) (keys : List Nat) (j : Nat) : Option Nat := (keys[j]?).map (fun k => frameAddr s (k / 2 ^ 20) (k % 2 ^ 20))

/-- Frames given by their keys return to the free lists. -/
def returnKeys (s : State) (keys : List Nat) : State := keys.foldl (fun s k => releaseFrames s (k / 2 ^ 20) [k % 2 ^ 20]) s

/-- Frames of pages that lie in stack j mod 8 return to the free lists. -/
def returnSpread (s : State) (frames : List Nat) : State := frames.zipIdx.foldl (fun s e => releaseFrames s (e.2 % 8) [e.1]) s

/-- A run of a collection's pages holds a tarnished codeword. -/
def collTarnished (s : State) (k : Coll) (o n : Nat) : Bool :=
  (pagesOf o n).any (fun v =>
    match pageAddr s k.frames v with
    | some a => tarnishedRun s (a + (max o (v * 65536) - v * 65536)) (min (o + n) (v * 65536 + 65536) - max o (v * 65536))
    | none => false)

/-- The record, sketch or vector of an item holds a tarnished line (12 R475). -/
def itemTarnished (s : State) (k : Coll) (i : Nat) (vector : Bool) : Bool :=
  collTarnished s k (recOff k i) 32 || collTarnished s k (delOff k i) 8 || collTarnished s k (sketchOff k i) (sketchBytes k) ||
  (vector && collTarnished s k (vecOff k i) (vecPad k))

/-- The current generation of a collection. -/
def curGen (k : Coll) : Gen := k.gens.headD {}

/-- The area that a generation uses: generations alternate (12 Table 12-3). -/
def genArea (g : Gen) : Nat := g.number % 2

/-- A byte of the record of an item (12 Table 12-3). -/
def recordBytes (i : Item) : List Byte := natLe 8 i.insCsn ++ natLe 8 i.key ++ natLe 8 i.tags ++ natLe 4 i.norm.toNat ++ zeros 4

/-- A byte of a collection's pages as the state holds it (12 Table 12-3). -/
def collByte (k : Coll) (o : Nat) : Byte :=
  let c := k.capacity
  let sb := sketchBytes k
  let vb := vecPad k
  let item := fun i => k.items.get? i
  if o < 32 * c then ((item (o / 32)).map (fun x => (recordBytes x).getD (o % 32) 0#8)).getD 0#8
  else if o < 40 * c then
    ((item ((o - 32 * c) / 8)).map (fun x => (natLe 8 x.delCsn).getD ((o - 32 * c) % 8) 0#8)).getD 0xFF#8
  else if o < (40 + sb) * c then ((item ((o - 40 * c) / sb)).map (fun x => x.sketch.getD ((o - 40 * c) % sb) 0#8)).getD 0#8
  else if o < (40 + sb + vb) * c then ((item ((o - (40 + sb) * c) / vb)).map (fun x => x.vector.getD ((o - (40 + sb) * c) % vb) 0#8)).getD 0#8
  else if o < itemBytes k * c then
    let e := (o - (40 + sb + vb) * c) / 4
    let node := e / k.degree % c
    let l := ((k.gens.find? (fun g => genArea g == e / k.degree / c)).map (fun g => g.lists.getD node [])).getD []
    (natLe 4 (l.getD (e % k.degree) 0xFFFFFFFF)).getD ((o - (40 + sb + vb) * c) % 4) 0#8
  else if itemPages k * 65536 ≤ o && o < itemPages k * 65536 + 4 * k.sideMax then
    let r := (o - itemPages k * 65536) / 4
    let last := k.side.length - 1
    let p := last - (last + k.sideMax - r) % k.sideMax
    if p < k.side.length && p % k.sideMax = r then (natLe 4 (k.side.getD p 0)).getD (o % 4) 0#8 else 0#8
  else 0#8

/-- The collection page that holds a T1 address, and the offset in the collection. -/
def collAt (s : State) (a : Nat) : Option (Coll × Nat) :=
  let st := a / 2 ^ 36
  if a % 2 ^ 36 < poolBase s st then none else
  let f := (a % 2 ^ 36 - poolBase s st) / 65536
  match s.ast.frames.get? (frameKey st f) with
  | some (.collection id) =>
    (s.colls.get? id).bind (fun k =>
      ((k.frames.zipIdx).find? (fun e => e.1 == f && e.2 % 8 == st)).map (fun e => (k, e.2 * 65536 + (a % 2 ^ 36 - poolBase s st) % 65536)))
  | _ => none

end Sys2Proof.Machine
end

