-- ==== Sys2Proof/Machine/Regs.lean ====
section
/-!
DEFINITION. Sys2Proof/Machine/Regs.lean: the registers behind BAR0 as they read (15 Tables 15-3, 15-15, 15-16; 03 Tables 3-7 to 3-20; 05 Table 5-12;
06 Table 6-9; 07 Tables 7-15, 7-16; 09 Tables 9-12 to 9-14; 10 Table 10-14; 12 Table 12-12; 13 Table 13-10; 16 Table 16-10; 17 Table 17-15).
-/
namespace Sys2Proof.Machine

/-- Bits [31:0] of a 64-bit count. -/
def lo32 (x : Nat) : Nat := x % 2 ^ 32

/-- Bits [63:32] of a 64-bit count. -/
def hi32 (x : Nat) : Nat := x / 2 ^ 32 % 2 ^ 32

/-- ORY_STATUS.STATE code (03 Table 3-10). -/
def oryCode : OryMode → Nat
  | .idle => 0 | .run => 1 | .windowHold => 2 | .toCheapPoint => 3 | .spill => 4 | .restore => 5 | .replayWait => 6 | .halted => 7 | .fault => 8

/-- CEL_MAP.STATE code (03 Table 3-17). -/
def celCode : CellState → Nat
  | .active => 0 | .spare => 1 | .suspect => 2 | .retired => 3 | .failed => 4

/-- LPE_STATUS.STATE code (03 Table 3-20). -/
def lpeCode : LpeMode → Nat
  | .idle => 0 | .bist => 1 | .ready => 2 | .substituting => 3 | .exhausted => 4

/-- Some context's step is at the stage. -/
def stageOf (s : State) (p : StepRec → Bool) : Bool := s.eph.ctxs.any (fun e => (e.2.step.map p).getD false)

/-- AST_STATUS.STATE as it reads (05 Table 5-12; log 49): RECOMPUTE while a recompute job holds the Orrery; after a step's seal COMMIT until its program has
ended, then BOUNDARY; GATHER while a step's program runs. No rule gives FAULT a condition. -/
def astCode (s : State) : Nat :=
  let recompute : Bool := match s.eph.holder with
    | .job id => s.eph.jobs.any (fun j => j.id == id && j.cls == .recompute)
    | _ => false
  let gather : Bool := match s.eph.holder with
    | .step _ => s.ory.prog.isSome
    | _ => false
  if recompute then 4
  else if stageOf s (·.sealedAt.isSome) then
    (if (s.ory.prog.map (fun p => p.issuedAll && p.inFlight.isEmpty && p.discarded.isEmpty)).getD true then 3 else 2)
  else if gather then 1 else 0

/-- SMP_STATUS.STATE as it reads (06 Table 6-9; log 49): DRAFT while draft levels remain, SHAPE while logit rows arrive, VERIFY between the last one and
PATHS_FIXED, HANDOFF from then to the seal. No rule gives FAULT a condition. -/
def smpCode (s : State) : Nat :=
  if stageOf s (·.draftLevel.isSome) then 1 else if stageOf s (fun st => !st.logits.isEmpty && st.rowsAt.isNone) then 2
  else if stageOf s (fun st => st.rowsAt.isSome && st.paths.isNone) then 3
  else if stageOf s (fun st => st.paths.isSome && st.sealedAt.isNone) then 4 else 0

/-- FIL_STATUS.STATE as it reads (07 Table 7-15; log 49): LEVEL while draft levels remain. -/
def filCode (s : State) : Nat := if stageOf s (·.draftLevel.isSome) then 2 else 0

/-- STM_STATUS.STATE as it reads (07 Table 7-16; log 49): SCAN from PATHS_FIXED to the seal, HANDOFF from the seal to the step's boundary. -/
def stmCode (s : State) : Nat :=
  if stageOf s (fun st => st.paths.isSome && st.sealedAt.isNone) then 1 else if stageOf s (·.sealedAt.isSome) then 3 else 0

/-- HBC_STATUS.STATE code (09 Table 9-13). -/
def memCode : MemMode → Nat
  | .reset => 0 | .training => 1 | .ready => 2 | .selfRefresh => 3 | .failed => 4

/-- INT_STATUS.STATE code (13 Table 13-10). -/
def intCode : IntMode → Nat
  | .normal => 0 | .replay => 1 | .fence => 2 | .isolated => 3 | .quarantined => 4 | .deviceFault => 5

/-- HIF_STATUS.STATE code (15 Table 15-16). -/
def hifCode : HifMode → Nat
  | .down => 0 | .training => 1 | .up => 2

/-- STD_PORTn_STATUS.STATE code (16 Table 16-10). -/
def portCode : PortMode → Nat
  | .down => 0 | .training => 1 | .up => 2 | .fenced => 3 | .miswired => 4

/-- SPARE cells left in a physical column (03 Table 3-20). -/
def sparesIn (s : State) (c : Nat) : Nat := ((List.range 18).filter (fun i => (s.cells.getD (18 * c + i) {}).state == .spare)).length

/-- Event bits as a word, bit 0 first. -/
def evs (l : List Bool) : Nat := maskOf l

/-- ORY_ block. -/
def readOry (s : State) (o : Nat) : State × Nat :=
  let y := s.ory
  (if o == 0x020 then s.oryM fun y => { y with waitLatch := hi32 y.wait } else s,
   if o == 0x000 then 0x01908010
   else if o == 0x004 then boolNat y.halt * 4 + boolNat y.abftEn * 2 + boolNat y.enable
   else if o == 0x008 then y.ctx * 2 ^ 20 + y.sweep * 32 + boolNat y.checkOff * 16 + oryCode y.mode
   else if o == 0x00C then y.tile % 2 ^ 32
   else if o == 0x010 then lo32 y.spillBase else if o == 0x014 then y.spillBase / 2 ^ 32 % 128
   else if o == 0x018 then y.spillLimit * 4096 % 2 ^ 32
   else if o == 0x020 then lo32 y.wait else if o == 0x024 then y.waitLatch
   else if o == 0x028 then y.faultCell * 2 ^ 24 + y.faultEpoch * 256 + evs [y.spillOver, y.faultRow, y.faultCol, y.faultTwin] else 0)

/-- CEL_ block. -/
def readCel (s : State) (o : Nat) : Nat :=
  let p := o / 0x40
  let c := s.cells.getD p {}
  let r := o % 0x40
  if 144 ≤ p then 0
  else if r == 0x00 then c.epoch * 2 ^ 16 + celCode c.state * 256 + c.row * 8 + p / 18
  else if r == 0x04 then evs [c.bistDone, c.bistTwin, c.bistLattice, c.bistSram]
  else if r == 0x08 then c.twinCnt * 2 ^ 16 + c.abftCnt
  else if r == 0x0C then boolNat c.gated else 0

/-- LPE_ block. -/
def readLpe (s : State) (o : Nat) : Nat :=
  let l := s.lpe
  if o == 0x000 then boolNat l.patrolEn * 2
  else if o == 0x004 then l.lastCol * 16 + lpeCode l.mode
  else if o == 0x008 then l.epoch
  else if o == 0x00C then (List.range 8).foldl (fun a c => a + sparesIn s c * 4 ^ c) 0
  else if 0x010 ≤ o && o ≤ 0x020 then l.retired / 2 ^ (8 * (o - 0x010)) % 2 ^ 32
  else if 0x100 ≤ o && o ≤ 0x2FC then l.map.getD ((o - 0x100) / 4) 0 else 0

/-- AST_ block. -/
def readAst (s : State) (o : Nat) : State × Nat :=
  let a := s.ast
  (if o == 0x060 then s.astM fun a => { a with tlbHitLatch := hi32 a.tlbHit }
   else if o == 0x068 then s.astM fun a => { a with tlbMissLatch := hi32 a.tlbMiss } else s,
   if o == 0x000 then 0x01100080
   else if o == 0x004 then boolNat a.dropEn * 2 + boolNat a.enable
   else if o == 0x008 then a.walks % 2 ^ 16 * 2 ^ 16 + astCode s
   else if o == 0x00C then evs [a.evTableFault, a.evWalkTarnish, a.evLowater, a.evHeld]
   else if 0x010 ≤ o && o ≤ 0x02C then a.pool.getD ((o - 0x010) / 4) 0
   else if 0x030 ≤ o && o ≤ 0x04C then freePages s ((o - 0x030) / 4)
   else if o == 0x050 then reservedPages s else if o == 0x054 then droppablePages s else if o == 0x058 then a.lowater
   else if o == 0x060 then lo32 a.tlbHit else if o == 0x064 then a.tlbHitLatch
   else if o == 0x068 then lo32 a.tlbMiss else if o == 0x06C then a.tlbMissLatch
   else if o == 0x070 then a.drops else if o == 0x074 then a.redirects
   else if o == 0x078 then (s.lockets.filter (fun e => e.2.held && e.2.state == .bound)).length else 0)

/-- SMP_ block. -/
def readSmp (s : State) (o : Nat) : State × Nat :=
  let m := s.smp
  (if o == 0x010 then { s with smp := { m with rowsLatch := hi32 m.rows } }
   else if o == 0x018 then { s with smp := { m with draftedLatch := hi32 m.drafted } }
   else if o == 0x020 then { s with smp := { m with acceptedLatch := hi32 m.accepted } } else s,
   if o == 0x000 then 0x01218010
   else if o == 0x004 then evs [m.enable, m.hostDraftEn, m.lookaheadEn]
   else if o == 0x008 then m.ctx * 2 ^ 20 + m.member * 2 ^ 12 + smpCode s
   else if o == 0x00C then evs [m.evRowTarnish, m.evDegenerate, m.evHostIgnored, m.evNoDraft]
   else if o == 0x010 then lo32 m.rows else if o == 0x014 then m.rowsLatch
   else if o == 0x018 then lo32 m.drafted else if o == 0x01C then m.draftedLatch
   else if o == 0x020 then lo32 m.accepted else if o == 0x024 then m.acceptedLatch
   else if o == 0x028 then m.rootOnly else if o == 0x02C then m.degenerate else if o == 0x030 then m.hostIgnored
   else if o == 0x034 then m.lastFix else 0)

/-- FIL_ block. -/
def readFil (s : State) (o : Nat) : State × Nat :=
  let f := s.fil
  (if o == 0x010 then { s with fil := { f with masksLatch := hi32 f.masks } } else s,
   if o == 0x000 then 0x01042800 else if o == 0x004 then boolNat f.enable
   else if o == 0x008 then f.ctx * 2 ^ 20 + filCode s else if o == 0x00C then evs [f.evEmpty, f.evMaskTarnish]
   else if o == 0x010 then lo32 f.masks else if o == 0x014 then f.masksLatch
   else if o == 0x018 then f.empty else if o == 0x01C then f.dead else 0)

/-- STM_ block. -/
def readStm (s : State) (o : Nat) : State × Nat :=
  let m := s.stm
  (if o == 0x010 then { s with stm := { m with packetsLatch := hi32 m.packets } }
   else if o == 0x028 then { s with stm := { m with sealLatch := hi32 m.sealTick } } else s,
   if o == 0x000 then 0x0101C01F else if o == 0x004 then boolNat m.enable
   else if o == 0x008 then m.ctx * 2 ^ 20 + stmCode s
   else if o == 0x00C then evs [m.evCancelBefore, m.evCancelAfter, m.evLate, m.evStateTarnish]
   else if o == 0x010 then lo32 m.packets else if o == 0x014 then m.packetsLatch
   else if o == 0x018 then m.late else if o == 0x01C then m.stops else if o == 0x020 then m.cancelBefore
   else if o == 0x024 then m.cancelAfter else if o == 0x028 then lo32 m.sealTick else if o == 0x02C then m.sealLatch else 0)

/-- CUR_ block. -/
def readCur (s : State) (o : Nat) : State × Nat :=
  let c := s.cur
  (if o == 0x18 then s.curM fun c => { c with unitsLatch := hi32 c.units } else s,
   if o == 0x00 then 0x01200800 else if o == 0x04 then boolNat c.enable
   else if o == 0x08 then c.channels.keys.foldl (fun a k => a + 2 ^ k) 0
   else if o == 0x0C then evs [c.evAbandon, c.evDigest, c.evTarnish]
   else if o == 0x10 then t2Free s false else if o == 0x14 then c.t2Size
   else if o == 0x18 then lo32 c.units else if o == 0x1C then c.unitsLatch
   else if o == 0x20 then c.abandoned else if o == 0x24 then c.digestFail else 0)

/-- HBC_ block. -/
def readHbc (s : State) (o : Nat) : Nat :=
  let i := o / 0x100
  let h := s.hbc.getD i {}
  let r := o % 0x100
  if 8 ≤ i then 0
  else if r == 0x00 then 0x01001030 + i * 2 ^ 16
  else if r == 0x04 then boolNat h.copyEn * 2 + boolNat h.enable
  else if r == 0x08 then memCode h.mode
  else if r == 0x0C then evs [h.evTrainFail, h.evUncorr, h.evCopyRefused]
  else if r == 0x10 then h.corr else if r == 0x14 then h.uncorr
  else if r == 0x18 then 65536 - h.spare.length else if r == 0x1C then h.copyQ.length else 0

/-- LPC_ block. -/
def readLpc (s : State) (o : Nat) : Nat :=
  let i := o / 0x100
  let l := s.lpc.getD i {}
  let r := o % 0x100
  if 4 ≤ i then 0
  else if r == 0x00 then 0x01121000
  else if r == 0x04 then l.gen * 2 ^ 28 + l.gib * 2 ^ 16 + l.mts
  else if r == 0x08 then l.channel * 16 + memCode l.mode
  else if r == 0x0C then evs [l.evTrainFail, l.evUncorr, l.evGuard]
  else if r == 0x10 then l.corr else if r == 0x14 then l.uncorr else if r == 0x18 then l.guard else 0

/-- CFC_ block. -/
def readCfc (s : State) (o : Nat) : State × Nat :=
  let i := o / 0x100
  let b := s.bay i
  let r := o % 0x100
  if 4 ≤ i then (s, 0) else
  (if r == 0x14 then s.bayM i fun b => { b with freeLatch := hi32 (bayFree s i) } else s,
   if r == 0x00 then 0x01100000
   else if r == 0x04 then boolNat b.patrolEn * 4 + boolNat b.enable
   else if r == 0x08 then b.life * 2 ^ 24 + b.mtsCode * 2 ^ 16 + b.iface * 2 ^ 14 + boolNat b.blocked * 16 + bayCode b.mode
   else if r == 0x0C then b.event
   else if r == 0x10 then (freeSbs s i).length else if r == 0x14 then lo32 (bayFree s i) else if r == 0x18 then b.freeLatch
   else if r == 0x1C then b.eraseMax else if r == 0x20 then b.reloc else 0)

/-- SIV_ block. -/
def readSiv (s : State) (o : Nat) : State × Nat :=
  let i := o / 0x100
  let u := s.sieves.getD i {}
  let r := o % 0x100
  if 8 ≤ i then (s, 0) else
  (if r == 0x10 then { s with sieves := s.sieves.set i { u with comparesLatch := hi32 u.compares } } else s,
   if r == 0x00 then 0x01001000 + i * 2 ^ 16
   else if r == 0x04 then boolNat u.enable else if r == 0x08 then u.coll * 2 ^ 16 + u.mode else if r == 0x0C then u.event
   else if r == 0x10 then lo32 u.compares else if r == 0x14 then u.comparesLatch
   else if r == 0x18 then u.walks else if r == 0x1C then u.budgetHits else if r == 0x20 then u.partials else if r == 0x24 then u.lastWalk else 0)

/-- EPH_ block. -/
def readEph (s : State) (o : Nat) : State × Nat :=
  let e := s.eph
  let slot := (e.active.bind (fun t => t.slots[e.slot]?)).getD {}
  let st := if e.active.isNone then 0 else if e.unaligned then 3 else if e.switch.isSome then 2 else 1
  (if o == 0x010 then s.ephM fun e => { e with frameLatch := hi32 e.frame }
   else if o == 0x018 then s.ephM fun e => { e with meridianLatch := hi32 e.meridian } else s,
   if o == 0x000 then 0x01800800
   else if o == 0x004 then boolNat e.alignEn * 2 + boolNat e.enable
   else if o == 0x008 then e.slot * 2 ^ 16 + slot.target * 2 ^ 12 + slot.kind * 2 ^ 8 + st
   else if o == 0x00C then e.event
   else if o == 0x010 then lo32 e.frame else if o == 0x014 then e.frameLatch
   else if o == 0x018 then lo32 e.meridian else if o == 0x01C then e.meridianLatch
   else if o == 0x020 then ((e.active.map (·.generation)).getD 0) * 2 ^ 16 + (e.shadow.map (·.generation)).getD 0
   else if o == 0x024 then (e.active.map (·.frameTicks)).getD 0
   else if o == 0x028 then e.lateSteps else if o == 0x02C then e.overruns else if o == 0x030 then e.preempts else if o == 0x034 then e.urgent
   else if o == 0x038 then sEnc 16 e.adj else if o == 0x03C then sEnc 32 e.slack else 0)

/-- INT_ block. -/
def readInt (s : State) (o : Nat) : State × Nat :=
  let g := s.integ
  (if o == 0x034 then s.integM fun g => { g with logBaseLatch := hi32 g.logBase }
   else if o == 0x03C then s.integM fun g => { g with logCountLatch := hi32 g.logCount } else s,
   if o == 0x000 then 0x01041010
   else if o == 0x004 then boolNat g.plannedEn * 2 + boolNat g.isolateEn
   else if o == 0x008 then g.cell * 2 ^ 16 + g.attempt * 256 + boolNat s.lan.quarantine * 16 + intCode g.mode
   else if o == 0x00C then g.event
   else if 0x010 ≤ o && o ≤ 0x030 then
     [g.transient, g.permanent, g.tarnishMade, g.tarnishConsumed, g.sessionsEnded, g.sramCorr, g.meshCorr, g.staleMap, g.staleMember].getD ((o - 0x010) / 4) 0
   else if o == 0x034 then lo32 g.logBase else if o == 0x038 then g.logBaseLatch
   else if o == 0x03C then lo32 g.logCount else if o == 0x040 then g.logCountLatch
   else if o == 0x044 then g.interruptMax else 0)

/-- The timing master is the member of lowest position (16 R616). -/
def lowestMember (s : State) : Option Nat := (List.range 64).find? (bitAt s.std.members)

/-- This device is the timing master. -/
def isMaster (s : State) : Bool :=
  (s.std.mode == .member || s.std.mode == .prepared) && s.std.epoch != 0 && s.std.position.isSome && lowestMember s == s.std.position

/-- STD_ block. -/
def readStd (s : State) (o : Nat) : State × Nat :=
  let d := s.std
  let p := s.port ((o - 0x100) / 0x20)
  let r := o % 0x20
  (if o == 0x018 then s.stdM fun d => { d with membersLatch := hi32 d.members }
   else if o == 0x024 then s.stdM fun d => { d with devidLatch := hi32 d.deviceId }
   else if o == 0x02C then s.stdM fun d => { d with offsetLatch := hi32 (sEnc 64 d.offset) } else s,
   if 0x200 ≤ o then 0
   else if 0x100 ≤ o then
     (if r == 0x00 then p.lanes * 256 + portCode p.mode
      else if r == 0x04 then p.partnerPort * 256 + boolNat p.partnerValid * 128 + p.partner
      else if r == 0x08 then p.crc else if r == 0x0C then p.replays else if r == 0x10 then p.delay % 2 ^ 32 else 0)
   else if o == 0x000 then 0x01080800
   else if o == 0x004 then boolNat d.routeEn
   else if o == 0x008 then boolNat d.tail * 32 + boolNat (isMaster s) * 16 + stdCode d.mode
   else if o == 0x00C then d.event
   else if o == 0x010 then d.count * 2 ^ 16 + boolNat d.position.isSome * 256 + d.position.getD 0
   else if o == 0x014 then ((d.prepared.map (·.epoch)).getD 0) * 2 ^ 16 + d.epoch
   else if o == 0x018 then lo32 d.members else if o == 0x01C then d.membersLatch
   else if o == 0x020 then boolNat d.buddy.isSome * 64 + d.buddy.getD 0
   else if o == 0x024 then lo32 d.deviceId else if o == 0x028 then d.devidLatch
   else if o == 0x02C then lo32 (sEnc 64 d.offset) else if o == 0x030 then d.offsetLatch
   else if o == 0x034 then min (s.now - d.lastBeacon) (2 ^ 32 - 1)
   else if o == 0x038 then d.unroutable else if o == 0x03C then d.staleSent else 0)

/-- LAN_ block. -/
def readLan (s : State) (o : Nat) : Nat :=
  if o == 0x000 then 0x01100418
  else if o == 0x004 then s.lan.nodeInForce * 256 + sbCode s
  else if o == 0x008 then boolNat s.lan.mboxDone * 4 + boolNat s.lan.mboxBusy * 2
  else if 0x400 ≤ o && o ≤ 0x814 then fieldAt s.lan.mbox (o - 0x400) 4 else 0

/-- Ring group fields of the HIF_ block. -/
def readRing (s : State) (r o : Nat) : Nat :=
  let g := s.ring r
  if o == 0x00 then lo32 g.sqBase else if o == 0x04 then hi32 g.sqBase
  else if o == 0x08 then boolNat g.sqEn * 2 ^ 31 + g.sqLog2 * 2 ^ 16 + (if r = 0 then 0 else g.tenant)
  else if o == 0x0C then lo32 g.shadow else if o == 0x10 then hi32 g.shadow
  else if o == 0x14 then lo32 g.cqBase else if o == 0x18 then hi32 g.cqBase
  else if o == 0x1C then boolNat g.cqEn * 2 ^ 31 + boolNat g.irqEn * 2 ^ 30 + g.cqLog2 * 2 ^ 25 + g.vector * 2 ^ 14 + g.coalCount * 256 + g.coalTime
  else 0

/-- Tenant group fields of the HIF_ block. -/
def readDlv (s : State) (t o : Nat) : Nat :=
  let g := s.dlv t
  if o == 0x00 then lo32 g.base else if o == 0x04 then hi32 g.base
  else if o == 0x08 then boolNat g.irqEn * 2 ^ 30 + g.vector * 2 ^ 14 + g.ringBits * 256 + g.log2
  else if o == 0x0C then lo32 g.prod else if o == 0x10 then hi32 g.prod
  else if o == 0x14 then g.outMax else 0

/-- HIF_ block. -/
def readHif (s : State) (o : Nat) : Nat :=
  let h := s.hif
  if 0x10000 ≤ o then (if o < 0x18000 then readDlv s ((o - 0x10000) / 0x20) (o % 0x20) else 0)
  else if 0x8000 ≤ o then readRing s ((o - 0x8000) / 0x20) (o % 0x20)
  else if o == 0x000 then 0x01400800
  else if o == 0x004 then s.std.modeInForce % 2 * 2 + boolNat h.fetchEn
  else if o == 0x008 then (if s.integ.mode == .quarantined && h.mode == .up then 3 else hifCode h.mode)
  else if o == 0x00C then h.event
  else if o == 0x010 then h.linkWidth * 2 ^ 16 + h.linkSpeed * 256 + h.linkCxl * 4 + boolNat h.linkFlit * 2 + boolNat h.linkUp
  else if o == 0x014 then (h.cmds.filter (fun c => c.counted && !c.general)).length * 2 ^ 16 + (h.cmds.filter (fun c => c.counted && c.general)).length
  else if o == 0x018 then h.dropped else if o == 0x01C then h.paused
  else if o == 0x020 then boolNat h.evEn * 2 ^ 31 + h.evVector
  else if 0x040 ≤ o && o ≤ 0x05C then h.t2win.getD ((o - 0x040) / 4) 0
  else if o == 0x844 then h.keyStatus else 0

/-- One 32-bit register of BAR0, with the latch that reading a LO register sets (15 Table 15-3). -/
def read32 (s : State) (off : Nat) : State × Nat :=
  let o := off % 0x10000
  let blk := off / 0x10000
  if off < 0x20000 then (s, readHif s off)
  else if blk == 0x02 then readOry s o else if blk == 0x03 then (s, readCel s o) else if blk == 0x04 then (s, readLpe s o)
  else if blk == 0x05 then readAst s o else if blk == 0x06 then readSmp s o else if blk == 0x07 then readFil s o
  else if blk == 0x08 then readStm s o else if blk == 0x09 then readCur s o else if blk == 0x0A then (s, readHbc s o)
  else if blk == 0x0B then (s, readLpc s o) else if blk == 0x0C then readCfc s o else if blk == 0x0D then readSiv s o
  else if blk == 0x0E then readEph s o else if blk == 0x0F then readInt s o else if blk == 0x10 then readStd s o
  else if blk == 0x11 then (s, readLan s o)
  else (s, 0)

end Sys2Proof.Machine
end

