-- ==== Sys2Proof/Machine/Pages.lean ====
section
/-!
DEFINITION. Sys2Proof/Machine/Pages.lean: the control page of a locket as bytes and back (08 Tables 8-2, 8-3; 05 Table 5-3; 06 Table 6-3;
07 Table 7-10), and the bytes that a host read of T1 or T2 meets (15 R567 to R569).
-/
namespace Sys2Proof.Machine

/-- The governing copy of the locket is in T1 (08 Table 8-4). -/
def inT1 (l : Locket) : Bool :=
  match l.state with
  | .opened | .bound => true
  | .demoting => (l.move.map (·.src)).getD 1 == 1
  | _ => false

/-- Table 8-4 code of a locket state. -/
def locketCode : LocketState → Nat
  | .opened => 1 | .bound => 2 | .demoting => 3 | .parkedT2 => 4 | .parkedT3 => 5 | .promoting => 6 | .expired => 7

/-- Own-region pages that are PRESENT (05 Table 5-3): VPNs below the step area. -/
def ownPages (l : Locket) : Tab Pte := l.ptes.filter (fun e => decide (e.1 < 0x30000) && e.2.state == .present)

/-- Identity block (08 Table 8-3). -/
def identityBlock (l : Locket) : List Byte :=
  natLe 8 l.session ++ natLe 8 l.key ++ natBe 32 l.parureHash ++ natBe 32 l.facetHash ++ natBe 32 l.charmDigest ++ natLe 4 l.thread.length ++
  natLe 2 l.tenant ++ zeros 2 ++ natLe 8 l.threadAddr

/-- Page-table root (05 Table 5-3). The directory stands in the page after the control page (log 15). -/
def rootBlock (h : Nat) (l : Locket) : List Byte :=
  natLe 4 h ++
  natLe 1 (maskOf [l.state == .bound, l.held, l.dropped, l.recomputing, l.charmLen != 0]) ++
  natLe 1 l.home ++ natLe 1 l.slot ++ natLe 1 (if l.state == .bound then l.context else 0xFF) ++ natLe 4 l.base ++ natLe 4 l.gbase ++
  natLe 4 l.charmLen ++ natLe 4 l.charmGlen ++ natLe 4 l.charmTable ++ zeros 4 ++ natLe 4 (ownPages l).length ++ natLe 4 l.reserve.length ++
  natLe 4 l.area.length ++ zeros 4 ++ natLe 8 (dirAddr l.page) ++ natLe 8 (reserveAddr l) ++ natLe 8 l.lastSeal ++ zeros 56

/-- Sampler state (06 Table 6-3). -/
def samplerBlock (m : SamplerState) : List Byte :=
  natLe 8 m.stepIndex ++ natLe 2 m.accAvg ++ natLe 1 m.wMin ++ natLe 1 m.wMax ++ natLe 1 m.draftSrc ++ natLe 1 m.draftMode ++ natLe 2 m.topK ++
  natLe 4 m.temp.toNat ++ natLe 4 m.topP.toNat ++ natLe 8 m.lookahead ++ natLe 8 m.drafted ++ natLe 8 m.accepted ++ natLe 8 m.genSteps ++ zeros 8

/-- Stream state (07 Table 7-10). -/
def streamBlock (m : StreamState) : List Byte :=
  natLe 8 m.nextSeq ++ natLe 4 m.genTag ++ natLe 4 m.emitted ++ natLe 4 m.delivered ++ natLe 4 m.maxSymbols ++ natLe 2 m.grammar ++ natLe 2 m.gstate ++
  natLe 1 m.hold.length ++ natLe 1 (maskOf [m.generating, m.includeStop, m.utf8Hold]) ++ natLe 1 m.stopCount ++ zeros 1 ++ natLe 4 m.lastStatus ++
  zeros 28 ++ padTo 32 (m.hold.map (BitVec.ofNat 8)) ++ zeros 32 ++ padTo 256 m.stops

/-- Control page (08 Table 8-2). -/
def controlPage (h : Nat) (l : Locket) : List Byte :=
  padTo 4096 (identityBlock l ++ rootBlock h l ++ samplerBlock l.smp ++ padTo 64 l.draft ++ streamBlock l.stm ++ padTo 256 l.stopSlot)

/-- Sampler state read from its block. -/
def readSampler (b : List Byte) : SamplerState :=
  { stepIndex := fieldAt b 0 8, accAvg := fieldAt b 8 2, wMin := fieldAt b 10 1, wMax := fieldAt b 11 1, draftSrc := fieldAt b 12 1
    draftMode := fieldAt b 13 1, topK := fieldAt b 14 2, temp := BitVec.ofNat 32 (fieldAt b 16 4), topP := BitVec.ofNat 32 (fieldAt b 20 4)
    lookahead := fieldAt b 24 8, drafted := fieldAt b 32 8, accepted := fieldAt b 40 8, genSteps := fieldAt b 48 8 }

/-- Stream state read from its block. -/
def readStream (b : List Byte) : StreamState :=
  { nextSeq := fieldAt b 0 8, genTag := fieldAt b 8 4, emitted := fieldAt b 12 4, delivered := fieldAt b 16 4, maxSymbols := fieldAt b 20 4
    grammar := fieldAt b 24 2, gstate := fieldAt b 26 2, hold := (bytesAt b 64 (min 32 (fieldAt b 28 1))).map (·.toNat)
    generating := bitAt (fieldAt b 29 1) 0, includeStop := bitAt (fieldAt b 29 1) 1, utf8Hold := bitAt (fieldAt b 29 1) 2
    stopCount := fieldAt b 30 1, lastStatus := fieldAt b 32 4, stops := bytesAt b 128 256 }

/-- Symbols as 16-bit little-endian codes (08 R289). -/
def symBytes (l : List Sym) : List Byte := (l.map (natLe 2)).flatten

/-- 16-bit little-endian codes as symbols. -/
def symsGo : Nat → List Byte → List Sym
  | 0, _ => []
  | n + 1, b => fieldAt b 0 2 :: symsGo n (b.drop 2)

/-- The first n symbols of a byte list. -/
def readSyms (n : Nat) (b : List Byte) : List Sym := symsGo n b

/-- Padding to whole 4 KiB units. -/
def padUnits (b : List Byte) : List Byte := padTo (ceilDiv b.length 4096 * 4096) b

/-- Bin counts of a histogram entry as bytes; every queue has had all samples (11 Table 11-4). -/
def histBytes (s : State) (qid : Nat) : List Byte :=
  let h := s.traffic.hist.getD qid {}
  let rest := (h.depthHist.drop 1).foldl (· + ·) 0
  natLe 8 s.traffic.samples ++ natLe 4 h.maxDepth ++ natLe 4 h.maxDelay ++ natLe 4 (min (s.traffic.samples - rest) (2 ^ 32 - 1)) ++
  ((h.depthHist.drop 1).map (natLe 4)).flatten ++ (h.delayHist.map (natLe 4)).flatten ++ natLe 8 h.sentTotal ++ zeros 40

/-- A directory entry of the locket directory (08 Table 8-1). -/
def directoryEntry (h : Nat) (l : Locket) : List Byte :=
  let low := !inT1 l
  natLe 8 l.session ++ natLe 2 l.tenant ++ natLe 1 (locketCode l.state) ++ natLe 1 (maskOf [l.encrypted, l.demoteBlocked, l.adopted, l.kvAbsent]) ++ natLe 4 h ++
  natLe 8 (if low then l.extent else l.page) ++ natLe 8 l.lastTouch ++ natLe 4 l.ttl1 ++ natLe 4 l.ttl2 ++ natLe 4 l.ttl3 ++ natLe 1 l.dst ++ natLe 1 l.bay ++
  natLe 2 l.pins.length ++ natLe 8 (if low then l.units else 0) ++ zeros 8

/-- Offset of the locket directory in stack 0's control area (08 R285, 09 Table 9-1; log 15). -/
def directoryBase : Nat := 2 ^ 30

/-- A byte of a locket's arena area: control page, directory, page tables, thread (05 R178, 08 R288). -/
def footprintByte (s : State) (h : Nat) (l : Locket) (o : Nat) : Byte :=
  let img := locketImg s l
  if o < 4096 then (controlPage h l).getD o 0#8
  else if o < 8192 then
    let i := (o - 4096) / 8
    let vpn := 512 * i
    let there := if vpn < 0x20000 then decide (vpn < (geom img false).pages) else if vpn < 0x30000 then decide (vpn - 0x20000 < (geom img true).pages)
      else decide (vpn = 0x30000)
    (dirBytes (if there then some (l.page + 4096 * (2 + tableIndex img vpn)) else none)).getD (o % 8) 0#8
  else if o < 4096 * (2 + tableCount img) then
    (pteBytes (pteAt l (tableVpn img ((o - 8192) / 4096) + o % 4096 / 8))).getD (o % 8) 0#8
  else (natLe 2 (l.thread.getD ((o - 4096 * (2 + tableCount img)) / 2) 0)).getD (o % 2) 0#8

/-- Bytes of a locket's arena area that the state forms. -/
def footprintFormed (s : State) (l : Locket) : Nat := 4096 * (2 + tableCount (locketImg s l)) + 2 * l.thread.length

/-- A byte of a charm replica's directory and tables. -/
def replicaTableByte (img : List Byte) (ci st : Nat) (m : Charm) (o : Nat) : Byte :=
  let one := (charmGeom img false m.symbols.length m.glen).pages
  let loc := (charmGeom img true m.symbols.length m.glen).pages
  let n := ceilDiv one 512
  if o < 4096 then
    let vpn := 512 * (o / 8)
    let t := if vpn < 0x20000 then (if vpn < one then some (vpn / 512) else none) else if vpn - 0x20000 < loc then some (n + (vpn - 0x20000) / 512) else none
    (dirBytes (t.map (fun k => replicaDir ci st + 4096 * (1 + k)))).getD (o % 8) 0#8
  else
    let k := o / 4096 - 1
    (pteBytes (replicaPte img m st ((if k < n then 512 * k else 0x20000 + 512 * (k - n)) + o % 4096 / 8))).getD (o % 8) 0#8

/-- A byte of what the Courier keeps in stack 0's control area: descriptors, completion records and unit lists (09 R346, R347, R350, Table 9-1; log 66). -/
def courierByte (s : State) (o : Nat) : Option Byte :=
  let at_ := fun (n : Nat) (f : Desc → List Byte) (i : Nat) (p : Desc → Bool) => ((allDescs s).find? p).map (fun d => (f d).getD (i % n) 0#8)
  if 2 ^ 23 ≤ o && o < 2 ^ 23 + 65536 then at_ 64 courierBytes (o - 2 ^ 23) (fun d => d.cookie % 1024 == (o - 2 ^ 23) / 64)
  else if 2 ^ 24 ≤ o && o < 2 ^ 24 + 2 ^ 20 then
    (s.cur.records.find? (fun r => r.cookie % 32768 == (o - 2 ^ 24) / 32)).map (fun r => (doneBytes r).getD ((o - 2 ^ 24) % 32) 0#8)
  else if 2 ^ 25 ≤ o && o < 2 ^ 26 then
    at_ (2 ^ 20) (fun d => ((if (o / 2 ^ 20) % 2 = 0 then d.srcList else d.dstList).map (natLe 8)).flatten) o (fun d => d.cookie % 16 == (o - 2 ^ 25) / 2 ^ 21)
  else none

/-- A byte of the control areas' tables: the Courier's, the locket directory, reserve lists, and the directories and tables of charm replicas (08 R285; 05 R177, R178). -/
def controlByte (s : State) (a : Nat) : Option Byte :=
  let st := a / 2 ^ 36
  let o := a % 2 ^ 36
  if st = 0 && directoryBase ≤ o && o < directoryBase + 64 * s.lan.config.locketMax then
    let h := (o - directoryBase) / 64
    some (match s.lockets.get? h with | some l => (directoryEntry h l).getD (o % 64) 0#8 | none => 0#8)
  else if st = 0 && o < 2 ^ 26 then courierByte s o
  else if 2 ^ 26 ≤ o && o < 2 ^ 27 then
    (s.charms.find? (fun e => e.1 % 1024 == (o - 2 ^ 26) / 65536 && (e.2.replicas.getD st {}).state != .absent)).map (fun e =>
      replicaTableByte (((loadedHash s e.2.parureHash).map (·.2.image)).getD []) e.1 st e.2 (o % 65536))
  else
    (s.lockets.vals.find? (fun l => l.context < 8 && reserveAddr l ≤ a && a < reserveAddr l + 4 * l.reserve.length)).map (fun l =>
      (natLe 4 (l.reserve.getD ((a - reserveAddr l) / 4) 0)).getD (a % 4) 0#8)

/-- A byte of a SELECT's staging pages (12 R470). -/
def stagedAt (s : State) (a : Nat) : Option Byte :=
  let st := a / 2 ^ 36
  let f := (a % 2 ^ 36 - poolBase s st) / 65536
  match (if poolBase s st ≤ a % 2 ^ 36 then s.ast.frames.get? (frameKey st f) else none) with
  | some (.staging c) =>
    (s.selects.find? (fun q => q.cmd == c && q.fetchedAt.isSome)).bind (fun q =>
      (q.frames.findIdx? (· == frameKey st f)).map (fun j => q.data.getD (j * 65536 + (a % 2 ^ 36 - poolBase s st) % 65536) 0#8))
  | _ => none

/-- A byte of T1 as a host read meets it: control pages, page tables and threads, the symbols of charms, the tables of the control areas, the fault log, the
queue histograms, collections and staging are formed from the state, every other byte is memory's (15 R567; 08 R285, R315; 05 R178; 13 R515; 11 R436;
12 R445, R470). -/
def t1Byte (s : State) (a : Nat) : Byte :=
  match s.lockets.find? (fun e => inT1 e.2 && e.2.page ≤ a && a < e.2.page + footprintFormed s e.2) with
  | some (h, l) => footprintByte s h l (a - l.page)
  | none =>
    match s.charms.vals.find? (fun m => m.addr ≤ a && a < m.addr + 2 * m.symbols.length) with
    | some m => (natLe 2 (m.symbols.getD ((a - m.addr) / 2) 0)).getD ((a - m.addr) % 2) 0#8
    | none =>
      if let some b := (controlByte s a).or (stagedAt s a) then b
      else if s.lan.committed && s.integ.logBase ≤ a && a < s.integ.logBase + 32768 then
        let i := (a - s.integ.logBase) / 32
        match s.integ.log.find? (fun r => r.seq % 1024 == i) with
        | some r => (faultBytes r).getD ((a - s.integ.logBase) % 32) 0#8
        | none => 0#8
      else if s.lan.committed && s.traffic.histOffset ≤ a && a < s.traffic.histOffset + 192 * 36864 then
        (histBytes s ((a - s.traffic.histOffset) / 192)).getD ((a - s.traffic.histOffset) % 192) 0#8
      else match collAt s a with
        | some (k, o) => collByte k o
        | none => s.t1.read a

/-- A run of T1 bytes as a host read meets them. -/
def t1Bytes (s : State) (a : Nat) : Nat → List Byte
  | 0 => []
  | n + 1 => t1Byte s a :: t1Bytes s (a + 1) n

/-- Position of a T2 unit within its extent: the extent and the unit's index. -/
def unitIn (u : Nat) : Nat → List (Nat × Nat) → Option Nat
  | _, [] => none
  | k, (a, n) :: rest => if a ≤ u && u < a + n then some (k + (u - a)) else unitIn u (k + n) rest

/-- The 144 bits that T2 stores of a codeword of an extent: 128 data bits on the eight data channels of the unit's lockstep group and 16 check bits on its check
channel; a tarnished one as it stands (09 R334, R342; 13 R478, R480, R482). -/
def t2Word (e : Extent) (c : Nat) : Nat := if e.tarnish.contains c then tarnishWord else encode (leNat (bytesAt e.data (16 * c) 16))

/-- A byte of the T2 data space: a data byte of the codeword that its unit's lockstep group holds (09 R334, R336). -/
def t2Byte (s : State) (b : Nat) : Byte :=
  (s.extents.vals.findSome? (fun e => if e.tier = 2 then
      (unitIn (b / 4096) 0 e.runs).map (fun k => BitVec.ofNat 8 (t2Word e (k * 256 + b % 4096 / 16) / 2 ^ (8 * (b % 16))))
    else none)).getD 0#8

/-- A run of T2 bytes. -/
def t2Bytes (s : State) (a : Nat) : Nat → List Byte
  | 0 => []
  | n + 1 => t2Byte s a :: t2Bytes s (a + 1) n

/-- A run of n bytes of the T2 data space touches a tarnished codeword (09 R334, R342). -/
def t2Tarnished (s : State) (a n : Nat) : Bool :=
  s.extents.vals.any (fun e => e.tier == 2 && e.tarnish.any (fun t => let b := 4096 * runUnit e.runs (t / 256) + 16 * (t % 256); b < a + n && a < b + 16))

/-- The T2 data space byte that a BAR2 offset of the T2 window names (15 Table 15-4). -/
def t2Addr (s : State) (x : Nat) : Nat := bits x 33 0 + 2 ^ 34 * s.hif.t2win.getD (bits x 38 36) 0

/-- A host read of BAR2 (15 R567 to R569, 13 R488). -/
def bar2Read (s : State) (x n : Nat) : State × Reply :=
  let o := bits x 35 0
  let miss := (hifEvent s 2, ({ ur := true } : Reply))
  if 2 ^ 39 ≤ x then miss
  else if o < 0xB00000000 then
    (s, { data := t1Bytes s x n, poison := s.integ.tarnishT1.any (fun c => x / 16 ≤ c && c ≤ (x + n - 1) / 16) })
  else if 0xC00000000 ≤ o && t2Addr s x + n ≤ s.lan.t2Units * 4096 && t2Fitted s then (s, { data := t2Bytes s (t2Addr s x) n, poison := t2Tarnished s (t2Addr s x) n })
  else miss

/-- The locket with a slot byte changed (08 R287): the host draft slot at 320 to 383, the stop slot at 768 to 1,023. -/
def slotWrite (l : Locket) (o : Nat) (data : List Byte) : Locket :=
  if 768 ≤ o then { l with stopSlot := l.stopSlot.take (o - 768) ++ data ++ l.stopSlot.drop (o - 768 + data.length), dirtyControl := true }
  else { l with draft := l.draft.take (o - 320) ++ data ++ l.draft.drop (o - 320 + data.length), dirtyControl := true }

/-- The byte range lies wholly within the host draft slot or the stop slot of a control page (15 R568). -/
def slotRange (o n : Nat) : Bool := (320 ≤ o && o + n ≤ 384) || (768 ≤ o && o + n ≤ 1024)

/-- A host write that is discarded (15 R568). -/
def dropWrite (s : State) : State := hifEvent (s.hifM fun h => { h with dropped := wrapInc 32 h.dropped }) 1

/-- A host write to BAR2 (15 R568). -/
def bar2Write (s : State) (x : Nat) (data : List Byte) : State :=
  match s.lockets.find? (fun e => inT1 e.2 && e.2.page ≤ x && x < e.2.page + 4096) with
  | some (h, l) => if slotRange (x - l.page) data.length then s.locketM h fun l => slotWrite l (x - l.page) data else dropWrite s
  | none => dropWrite s

/-- The locket that the slot aperture of a ring maps (15 R573). -/
def apertureLocket (s : State) (r : Nat) : Option (Nat × Locket) :=
  let g := s.ring r
  let t := if r = 0 then 0 else g.tenant
  s.lockets.find? (fun e => inT1 e.2 && e.2.session == g.slotSel && e.2.tenant == t && g.slotSel != 0)

/-- Control-page byte that an aperture offset maps (15 R573). -/
def apertureByte (off : Nat) : Option Nat :=
  if 0x100 ≤ off && off < 0x140 then some (320 + off - 0x100)
  else if 0x200 ≤ off && off < 0x300 then some (768 + off - 0x200) else none

/-- A host write through the slot aperture (15 R573). -/
def apertureWrite (s : State) (r off : Nat) (data : List Byte) : State :=
  match apertureLocket s r, apertureByte off with
  | some (h, _), some o => if slotRange o data.length then s.locketM h fun l => slotWrite l o data else dropWrite s
  | _, _ => dropWrite s

/-- A host read of BAR0 of n bytes (15 R565, R566, R573; 18 R665 in BOOT and R683 in TWILIGHT). -/
def bar0Read (s : State) (off n : Nat) : State × Reply :=
  let lanOnly := !serving s
  if 0x1000000 ≤ off && off < 0x1400000 && !lanOnly then
    let r := (off - 0x1000000) / 0x1000
    let o := off % 0x1000
    if 0x020 ≤ o && o < 0x028 then (s, { data := bytesAt (natLe 8 (s.ring r).slotSel) (o - 0x020) n })
    else match apertureLocket s r, apertureByte o with
      | some (h, l), some b => (s, { data := bytesAt (controlPage h l) b n })
      | _, _ => (s, { data := zeros n })
  else if 0x1400000 ≤ off && off < 0x1408000 && !lanOnly then (s, { data := s.hif.msixTable.readN (off - 0x1400000) n })
  else if lanOnly && !(0x110000 ≤ off && off < 0x120000) then (s, { data := zeros n })
  else if n = 8 then
    let (s1, a) := read32 s off
    let (s2, b) := read32 s1 (off + 4)
    (s2, { data := natLe 4 a ++ natLe 4 b })
  else if n = 4 then
    let (s1, a) := read32 s off
    (s1, { data := natLe 4 a })
  else (s, { data := zeros n })

/-- An answer to the host joins the answers. -/
def answer (r : State × Reply) : State := { r.1 with replies := r.1.replies ++ [r.2] }

end Sys2Proof.Machine
end

