-- ==== Sys2Proof/Machine/HostIf.lean ====
section
/-!
DEFINITION. Sys2Proof/Machine/HostIf.lean: the host interface: doorbells, fetching, policing and acceptance, completions, delivery rings, the key
window, and host reads and writes of the device (15; 11 R428 to R433).
-/
namespace Sys2Proof.Machine

/-- The host link carries transactions of this device: its own link is up, or it reaches the host through the head (15 R563, R564). -/
def hostReach (s : State) : Bool := s.hif.mode == .up || viaHead s

/-- The host interface may post: it is not ISOLATED (13 R508), and where it posts through the head a transfer number is free (16 R604). -/
def mayPost (s : State) : Bool :=
  hostReach s && s.integ.mode != .isolated && (!viaHead s || (s.std.outXfers.filter (fun x => x.peer == 0)).length + 4 ≤ 4096)

/-! ## Fetching (15 R574 to R576) -/

/-- A FENCE of the ring has not completed, so no later descriptor is fetched (15 R576). -/
def fenced (s : State) (r : Nat) : Bool :=
  match (s.ring r).fence with
  | none => false
  | some id => (findCmd s id).isSome && !completed s id

/-- Slot of the completion ring that the next completion takes. -/
def cqSlot (g : Ring) : Nat := g.posted % 2 ^ g.cqLog2

/-- The completion ring is full: it holds 2^LOG2 completions that the host has not consumed (15 R571, R578, R579). -/
def cqFull (g : Ring) : Bool := g.consumed + 2 ^ g.cqLog2 ≤ g.posted

/-- A completion ring with the index of the slot after the last completion that the host has consumed; the index of a full ring's oldest completion says that
every one is consumed (15 R572; log 70). -/
def cqConsume (g : Ring) (v : Nat) : Ring :=
  let n := (v + 2 ^ g.cqLog2 - g.cqHead) % 2 ^ g.cqLog2
  { g with cqHead := v, consumed := min g.posted (g.consumed + if n = 0 && cqFull g then 2 ^ g.cqLog2 else n) }

/-- A descriptor of the ring can be fetched now (15 R574, R576, R579). -/
def fetchable (s : State) (r : Nat) : Bool :=
  let g := s.ring r
  g.sqEn && g.head != g.tail && !fenced s r && !cqFull g

/-- The fetchable rings in ascending number. -/
def fetchRings (s : State) : List Nat := s.hif.rings.keys.filter (fetchable s)

/-- The ring whose turn it is: up to 8 descriptors from each ring in turn, in ascending ring number (15 R574). -/
def nextRing (s : State) : Option Nat :=
  if s.hif.taken < 8 && fetchable s s.hif.turn then some s.hif.turn
  else match (fetchRings s).find? (fun r => s.hif.turn < r) with
    | some r => some r
    | none => (fetchRings s).head?

/-- The tenant of a ring: ring 0 always belongs to tenant 0 (15 R571). -/
def ringTenant (s : State) (r : Nat) : Nat := if r = 0 then 0 else (s.ring r).tenant

/-- Adds a command that ends at once, without effect and without counting as outstanding (15 R575, 11 R431). -/
def refuseCmd (s : State) (c : HCmd) (status r0 r1 : Nat) : State :=
  complete (s.hifM fun h => { h with cmds := h.cmds ++ [{ c with started := true, counted := false }] }) c status r0 r1 0

/-- Outstanding commands of one pool (15 R575). -/
def poolCount (s : State) (general : Bool) : Nat := (s.hif.cmds.filter (fun c => c.counted && c.general == general)).length

/-- Outstanding commands of a tenant that its limit counts (15 R575; log 16). -/
def tenantCount (s : State) (t : Nat) : Nat := (s.hif.cmds.filter (fun c => c.counted && c.general && c.tenant == t)).length

/-! ## Pins (08 R297, R318) -/

/-- Pin of a locket on a replica (08 R318). -/
def pinLocket (h : Nat) : Nat := 2 * h

/-- Pin of a command on a replica (08 R318). -/
def pinCmd (id : Nat) : Nat := 2 * id + 1

/-- A pin on every replica is released; a replica that loses its last pin is idle from now (08 R318). -/
def unpinReplicas (s : State) (pin : Nat) : State :=
  { s with charms := s.charms.map (fun e => (e.1, { e.2 with replicas := e.2.replicas.map (fun r =>
      if r.pins.contains pin then
        let left := r.pins.filter (· != pin)
        { r with pins := left, idleSince := if left.isEmpty then s.now else r.idleSince }
      else r) })) }

/-- The state with one replica of a charm changed. -/
def State.replicaM (s : State) (ci st : Nat) (f : Replica → Replica) : State := s.charmM ci fun c => { c with replicas := c.replicas.modify st f }

/-- A pin is taken on a replica; it ends an eviction (08 Table 8-13, R319). -/
def pinReplica (s : State) (ci st pin : Nat) : State :=
  s.replicaM ci st fun r =>
    { r with pins := if r.pins.contains pin then r.pins else r.pins ++ [pin], state := if r.state == .evicting then .present else r.state }

/-- The session that a command names: its object handle, or the source of a CHARM_CREATE (08 R296, R297). -/
def namedSession (c : HCmd) : Option Nat :=
  if [0x21, 0x22, 0x23, 0x24, 0x25, 0x26, 0x31, 0x32].contains c.opcode then some c.handle
  else if c.opcode = 0x27 then some (c.fld 16 8) else none

/-- A command that needs the locket's T1 copy (08 R297). -/
def pinsLocket (op : Nat) : Bool := [0x22, 0x23, 0x26, 0x27, 0x31].contains op

/-- An accepted command touches the locket that it names, and pins it where it needs its T1 copy; a BATCH_JOIN also pins the charm's replica in the home
stack (08 R296, R297, R318). -/
def noteAccept (s : State) (c : HCmd) : State :=
  match (namedSession c).bind (fun x => s.lockets.find? (fun e => e.2.session == x && e.2.tenant == c.tenant)) with
  | none => s
  | some (h, l) =>
    let s := s.locketM h fun l =>
      { l with lastTouch := s.now, dirtyControl := true, pins := if pinsLocket c.opcode && !l.pins.contains c.id then l.pins ++ [c.id] else l.pins }
    match (if c.opcode = 0x31 then attachedCharm s l else none) with
    | some (ci, _) => pinReplica s ci l.home (pinCmd c.id)
    | none => s

/-- A fetched command meets policing, then the tenant check, then the pools, and is accepted (15 R574, R575, R577, 11 R430). -/
def accept (s : State) (r : Nat) (desc : List Byte) : State :=
  let t := ringTenant s r
  let c : HCmd := { id := s.hif.nextId, ring := r, tag := fieldAt desc 4 4, tenant := t, opcode := fieldAt desc 0 1, desc := desc, accept := s.now
                    general := cmdCost (fieldAt desc 0 1) != 0 }
  let s := s.hifM fun h => { h with nextId := h.nextId + 1 }
  match police (refill s) t (cmdCost c.opcode) with
  | (s, some (wait, cost)) => refuseCmd s c stQuota wait cost
  | (s, none) =>
    if bits (c.fld 2 2) 9 0 != t then refuseCmd (hifEvent s 6) c stInvalid 0 0
    else if !opcodes.contains c.opcode then refuseCmd s c stInvalid 0 0
    else if (if c.general then 3840 ≤ poolCount s true || (s.dlv t).outMax ≤ tenantCount s t else 256 ≤ poolCount s false) then refuseCmd s c stBusy 0 0
    else
      let s := noteAccept (s.hifM fun h => { h with cmds := h.cmds ++ [c] }) c
      if orreryLost s && needsOrrery s c then complete s c stFenced 0 0 0
      else if c.opcode = 2 then s.ringM r fun g => { g with fence := some c.id } else s

/-- DESCRIPTOR_FETCH (15 R574). -/
def execDescriptorFetch (ring : Nat) (desc : List Byte) (s : State) : Out :=
  formed (decide (ring < 1024) && decide (desc.length = 64)) (
  when (serving s && s.hif.fetchEn && hostReach s && nextRing s == some ring) s (
    let s := s.hifM fun h => { h with taken := if h.turn == ring && h.taken < 8 then h.taken + 1 else 1, turn := ring }
    let s := hostFetch s ((s.ring ring).sqBase + 64 * (s.ring ring).head) 64
    let s := s.ringM ring fun g => { g with head := (g.head + 1) % 2 ^ g.sqLog2 }
    let s := hostWrite s (s.ring ring).shadow (natLe 4 (s.ring ring).head)
    accept s ring desc))

/-- NOP (15 R581). -/
def execNop (id : Nat) (s : State) : Out := hostCmd s id 0x01 fun s c => complete s c stOk 0 0 0

/-- FENCE (15 R576): fetching of the ring has stopped at its fetch; it waits for FENCE_DONE. -/
def execFence (id : Nat) (s : State) : Out := hostCmd s id 0x02 fun s _ => s

/-- FENCE_DONE (15 R576): every command accepted earlier from the ring has completed. -/
def execFenceDone (id : Nat) (s : State) : Out :=
  clocked s (
  match findCmd s id with
  | none => .next s
  | some c =>
    when (c.opcode == 2 && c.started && !completed s id &&
      (s.hif.cmds.takeWhile (fun d => d.id != id)).all (fun d => d.ring != c.ring || completed s d.id)) s (complete s c stOk 0 0 0))

/-! ## Doorbells and the slot aperture (15 R572, R573, R591) -/

/-- Doorbell pages answer while the control complex runs (18 R665, R683). -/
def doorbells (s : State) : Bool := serving s

/-- A write of the SQ_TAIL doorbell: a value at or above the ring size is ignored and sets DB_RANGE (15 R572). -/
def sqTailWrite (s : State) (ring value : Nat) : State :=
  if value < 2 ^ (s.ring ring).sqLog2 then s.ringM ring fun g => { g with tail := value } else hifEvent s 0

/-- A write of the CQ_HEAD doorbell (15 R572). -/
def cqHeadWrite (s : State) (ring value : Nat) : State :=
  if value < 2 ^ (s.ring ring).cqLog2 then s.ringM ring fun g => cqConsume g value else hifEvent s 0

/-- SQ_TAIL doorbell (15 R572). -/
def execSqTail (ring value : Nat) (s : State) : Out :=
  formed (decide (ring < 1024)) (when (doorbells s) s (sqTailWrite s ring value))

/-- CQ_HEAD doorbell (15 R572). -/
def execCqHead (ring value : Nat) (s : State) : Out :=
  formed (decide (ring < 1024)) (when (doorbells s) s (cqHeadWrite s ring value))

/-- The packets of a session that have been written to its delivery ring (15 R591). -/
def writtenCount (l : Locket) : Nat := l.acked + (l.packets.filter (·.written)).length

/-- Acknowledges a locket's packets below A (15 R591). -/
def ackTo (l : Locket) (a : Nat) : Locket := { l with acked := a, packets := l.packets.filter (fun p => a ≤ p.seq), dirtyControl := true }

/-- A write of the ACK doorbell (15 R591, Table 15-12). -/
def ackWrite (s : State) (ring : Nat) (data : List Byte) : State :=
  let a := fieldAt data 8 8
  match s.lockets.find? (fun e => e.2.session == fieldAt data 0 8 && e.2.tenant == ringTenant s ring) with
  | none => hifEvent s 3
  | some (h, l) =>
    if data.length != 16 then hifEvent s 3
    else if a ≤ l.acked then s
    else if a ≤ writtenCount l then s.locketM h fun l => ackTo l a
    else hifEvent s 3

/-- ACK doorbell (15 R591). -/
def execAck (ring : Nat) (data : List Byte) (s : State) : Out :=
  formed (decide (ring < 1024)) (when (doorbells s) s (ackWrite s ring data))

/-- A write of SLOT_SEL, 4 or 8 bytes wide and naturally aligned; any other is ignored (15 R573, R566). -/
def slotSelWrite (s : State) (ring off : Nat) (data : List Byte) : State :=
  if (data.length = 8 && off = 0x020) || (data.length = 4 && (off = 0x020 || off = 0x024)) then
    s.ringM ring fun g => { g with slotSel := leNat (let b := natLe 8 g.slotSel; b.take (off - 0x020) ++ data ++ b.drop (off - 0x020 + data.length)) }
  else s

/-- SLOT_SEL (15 R573). -/
def execSlotSel (ring off : Nat) (data : List Byte) (s : State) : Out :=
  formed (decide (ring < 1024)) (when (doorbells s) s (slotSelWrite s ring off data))

/-- SLOT_APERTURE_WRITE, 4 or 8 bytes wide and naturally aligned (15 R573). -/
def execSlotApertureWrite (ring off : Nat) (data : List Byte) (s : State) : Out :=
  formed (decide (ring < 1024)) (
  when (doorbells s && (data.length == 4 || data.length == 8) && off % data.length == 0) s (apertureWrite s ring off data))

/-- A write to doorbell page r (15 R572, R573). -/
def pageWrite (s : State) (ring off : Nat) (data : List Byte) : State :=
  if off == 0x000 then sqTailWrite s ring (leNat data)
  else if off == 0x008 then cqHeadWrite s ring (leNat data)
  else if off == 0x010 then ackWrite s ring data
  else if off == 0x020 || off == 0x024 then slotSelWrite s ring off data
  else if (apertureByte off).isSome then apertureWrite s ring off data
  else s

/-! ## BAR2 and BAR4 (15 R568 to R570, R615) -/

/-- BAR2_WRITE (15 R568). -/
def execBar2Write (addr : Nat) (data : List Byte) (s : State) : Out :=
  when (s.hif.linkUp && serving s) s (bar2Write s addr data)

/-- BAR2_READ (15 R567 to R569). -/
def execBar2Read (addr len : Nat) (s : State) : Out :=
  when (s.hif.linkUp && serving s) s (answer (bar2Read s addr len))

/-- A read or a write that the head forwards to a member (16 R615, Table 16-4). -/
def bar4Forward (s : State) (k off len : Nat) (data : Option (List Byte)) : State :=
  let tag := s.std.nextTag
  let s := s.stdM fun d => { d with nextTag := (d.nextTag + 1) % 2 ^ 16 }
  match data with
  | none => sendMsg (s.stdM fun d => { d with fwdReads := d.fwdReads ++ [(tag, k, len)] }) k (mkMsg 0x40 [(8, 2, tag), (16, 4, off), (20, 1, len)])
  | some b => sendMsg s k (mkMsg 0x41 [(16, 4, off), (20, 1, len), (24, 8, leNat b)])

/-! ## The key window (15 R592) -/

/-- A key operation has ended: its result, and the key data cleared (15 R592). -/
def keyDone (s : State) (ok : Bool) : State :=
  let s := s.hifM fun h => { h with keyStatus := if ok then 1 else 2, keyData := List.replicate 16 0 }
  if ok then s else hifEvent s 5

/-- The 64 bytes of the key data registers. -/
def keyBytes (s : State) : List Byte := (s.hif.keyData.map (natLe 4)).flatten

/-- The state with a tenant's keys changed. -/
def keysM (s : State) (t : Nat) (f : TenantKeys → TenantKeys) : State := { s with keys := s.keys.set t (f (s.keys.getD t {})) }

/-- A tenant's key in a slot. -/
def TenantKeys.slot (k : TenantKeys) (n : Nat) : Option (List Byte) := if n = 0 then k.key0 else k.key1

/-- INSTALL: the 64 bytes become a key slot of a tenant (15 Table 15-13, 08 R309). -/
def installKey (s : State) (slot tenant : Nat) : State :=
  let k := keyBytes s
  if k.take 32 == k.drop 32 || (s.keys.getD tenant {}).current == some slot then keyDone s false
  else keyDone (keysM s tenant fun t => if slot = 0 then { t with key0 := some k } else { t with key1 := some k }) true

/-- SELECT: a slot that holds a key becomes the tenant's current slot (15 Table 15-13). -/
def selectKey (s : State) (slot tenant : Nat) : State :=
  if ((s.keys.getD tenant {}).slot slot).isNone then keyDone s false
  else keyDone (keysM s tenant fun t => { t with current := some slot }) true

/-- DESELECT: the tenant has no current slot (15 Table 15-13). -/
def deselectKey (s : State) (tenant : Nat) : State := keyDone (keysM s tenant fun t => { t with current := none }) true

/-- CUT_KEY: bytes 0 to 31 become the cut key (15 Table 15-13, 14 R542). -/
def setCutKey (s : State) : State :=
  let k := (keyBytes s).take 32
  if k.all (· == 0#8) then keyDone s false else keyDone (s.ckptM fun c => { c with cutKey := some k }) true

/-- A write of HIF_KEY_CMD performs its OP; a value of OP that Table 15-13 does not list names no operation (15 Table 15-16). -/
def keyCmd (s : State) (v : Nat) : State :=
  let op := bits v 30 28
  if op == 1 then installKey s (bits v 16 16) (bits v 9 0)
  else if op == 2 then selectKey s (bits v 16 16) (bits v 9 0)
  else if op == 3 then deselectKey s (bits v 9 0)
  else if op == 4 then setCutKey s
  else s

/-- KEY_INSTALL (15 Table 15-13). -/
def execKeyInstall (slot tenant : Nat) (s : State) : Out :=
  formed (decide (slot < 2) && decide (tenant < 1024)) (when (serving s) s (installKey s slot tenant))

/-- KEY_SELECT (15 Table 15-13). -/
def execKeySelect (slot tenant : Nat) (s : State) : Out :=
  formed (decide (slot < 2) && decide (tenant < 1024)) (when (serving s) s (selectKey s slot tenant))

/-- KEY_DESELECT (15 Table 15-13). -/
def execKeyDeselect (_slot tenant : Nat) (s : State) : Out :=
  formed (decide (tenant < 1024)) (when (serving s) s (deselectKey s tenant))

/-- CUT_KEY (15 Table 15-13, 14 R542). -/
def execCutKey (_slot _tenant : Nat) (s : State) : Out := when (serving s) s (setCutKey s)

/-! ## Register writes (15 R565, R566, R571, R724; the blocks' Access columns) -/

/-- Bits of a 32-bit write placed into a 64-bit LO/HI pair. -/
def setLo (x v : Nat) : Nat := x / 2 ^ 32 * 2 ^ 32 + v
/-- Bits of a 32-bit write placed into the HI half. -/
def setHi (x v : Nat) : Nat := x % 2 ^ 32 + v * 2 ^ 32

/-- A refused configuration write (15 R571, R587, R724). -/
def cfgRefused (s : State) : State := hifEvent s 8

/-- A ring register takes its fields where the ring pair is disabled; otherwise a changed field is refused (15 R571). -/
def ringSet (s : State) (r : Nat) (f : Ring → Ring) : State :=
  let g := s.ring r
  if !g.sqEn && !g.cqEn then s.ringM r f else if f g == g then s else cfgRefused s

/-- A write to a register of ring group r (15 R571, R724, Table 15-16). -/
def writeRing (s : State) (r o v : Nat) : State :=
  if o == 0x00 then ringSet s r fun g => { g with sqBase := setLo g.sqBase (v / 4096 * 4096) }
  else if o == 0x04 then ringSet s r fun g => { g with sqBase := setHi g.sqBase v }
  else if o == 0x08 then
    if 6 ≤ bits v 20 16 && bits v 20 16 ≤ 16 then
      (ringSet s r fun g => { g with sqLog2 := bits v 20 16, tenant := if r = 0 then 0 else bits v 9 0 }).ringM r fun g => { g with sqEn := bitAt v 31 }
    else cfgRefused s
  else if o == 0x0C then (if v % 4 = 0 then ringSet s r fun g => { g with shadow := setLo g.shadow v } else cfgRefused s)
  else if o == 0x10 then ringSet s r fun g => { g with shadow := setHi g.shadow v }
  else if o == 0x14 then ringSet s r fun g => { g with cqBase := setLo g.cqBase (v / 4096 * 4096) }
  else if o == 0x18 then ringSet s r fun g => { g with cqBase := setHi g.cqBase v }
  else if o == 0x1C then
    if 6 ≤ bits v 29 25 && bits v 29 25 ≤ 16 then
      (ringSet s r fun g => { g with irqEn := bitAt v 30, cqLog2 := bits v 29 25, vector := bits v 24 14, coalCount := bits v 13 8, coalTime := bits v 7 0 }).ringM
        r fun g => { g with cqEn := bitAt v 31 }
    else cfgRefused s
  else s

/-- Tenant t has a locket in T1 (15 R587). -/
def tenantInT1 (s : State) (t : Nat) : Bool := s.lockets.any (fun e => e.2.tenant == t && inT1 e.2)

/-- A write to a register of tenant group t (15 R587, R724, Table 15-16). -/
def writeDlv (s : State) (t o v : Nat) : State :=
  if o == 0x00 then (if tenantInT1 s t then cfgRefused s else s.dlvM t fun g => { g with base := setLo g.base (v / 4096 * 4096) })
  else if o == 0x04 then (if tenantInT1 s t then cfgRefused s else s.dlvM t fun g => { g with base := setHi g.base v })
  else if o == 0x08 then
    if tenantInT1 s t || bits v 12 8 < 1 || 24 < bits v 12 8 || bits v 2 0 < 1 || 6 < bits v 2 0 then cfgRefused s
    else s.dlvM t fun g => { g with irqEn := bitAt v 30, vector := bits v 24 14, ringBits := bits v 12 8, log2 := bits v 2 0 }
  else if o == 0x0C then (if v % 8 = 0 then s.dlvM t fun g => { g with prod := setLo g.prod v } else cfgRefused s)
  else if o == 0x10 then s.dlvM t fun g => { g with prod := setHi g.prod v }
  else if o == 0x14 then (if 1 ≤ bits v 11 0 && bits v 11 0 ≤ 3840 then s.dlvM t fun g => { g with outMax := bits v 11 0 } else cfgRefused s)
  else s

/-- A host write to a register of the HIF_ block (15 Table 15-16). -/
def writeHif (s : State) (o v : Nat) : State :=
  if 0x10000 ≤ o then (if o < 0x18000 then writeDlv s ((o - 0x10000) / 0x20) (o % 0x20) v else s)
  else if 0x8000 ≤ o then writeRing s ((o - 0x8000) / 0x20) (o % 0x20) v
  else if o == 0x004 then s.hifM fun h => { h with fetchEn := bitAt v 0 }
  else if o == 0x00C then s.hifM fun h => { h with event := h.event - (h.event &&& v) }
  else if o == 0x020 then s.hifM fun h => { h with evEn := bitAt v 31, evVector := bits v 10 0 }
  else if 0x040 ≤ o && o ≤ 0x05C then s.hifM fun h => { h with t2win := h.t2win.set ((o - 0x040) / 4) (bits v 5 0) }
  else if 0x800 ≤ o && o ≤ 0x83C then s.hifM fun h => { h with keyData := h.keyData.set ((o - 0x800) / 4) v }
  else if o == 0x840 then keyCmd s v
  else s

/-- A host or firmware write to a LAN_ register (17 Table 17-15). -/
def writeLan (s : State) (o v : Nat) : State :=
  if o == 0x008 then
    let s := if bitAt v 2 then s.lanM fun l => { l with mboxDone := false } else s
    if bitAt v 0 then mboxGo s else s
  else if 0x400 ≤ o && o ≤ 0x814 && !s.lan.mboxBusy then
    s.lanM fun l => { l with mbox := l.mbox.take (o - 0x400) ++ natLe 4 v ++ l.mbox.drop (o - 0x400 + 4) }
  else s

/-- W1C of one flag. -/
def w1c (b : Bool) (v i : Nat) : Bool := b && !bitAt v i

/-- A locked field keeps its value once the configuration is committed (00 Table 0-4, RWL). -/
def rwl {α : Type} (s : State) (old new : α) : α := if s.lan.committed then old else new

/-- Control-complex writes to the ORY_, LPE_ and AST_ blocks (03 Tables 3-9 to 3-20, 05 Table 5-12). -/
def fwCore (s : State) (blk o v : Nat) : State :=
  if blk == 0x02 then
    (if o == 0x004 then s.oryM fun y =>
        { y with halt := bitAt v 2, abftEn := rwl s y.abftEn (bitAt v 1), enable := bitAt v 0
                 mode := if bitAt v 2 && y.prog.isNone && y.mode == .idle then .halted
                         else if !bitAt v 2 && y.mode == .halted then (if y.prog.isSome then .run else .idle) else y.mode }
     else if o == 0x010 then s.oryM fun y => { y with spillBase := setLo y.spillBase (v / 4096 * 4096) }
     else if o == 0x014 then s.oryM fun y => { y with spillBase := setHi y.spillBase (v % 128) }
     else if o == 0x018 then s.oryM fun y => { y with spillLimit := v / 4096 }
     else if o == 0x028 then s.oryM fun y =>
        { y with faultTwin := w1c y.faultTwin v 3, faultCol := w1c y.faultCol v 2, faultRow := w1c y.faultRow v 1, spillOver := w1c y.spillOver v 0 }
     else s)
  else if blk == 0x04 then (if o == 0x000 then { s with lpe := { s.lpe with patrolEn := rwl s s.lpe.patrolEn (bitAt v 1) } } else s)
  else if blk == 0x05 then
    (if o == 0x004 then s.astM fun a => { a with dropEn := rwl s a.dropEn (bitAt v 1), enable := bitAt v 0 }
     else if o == 0x00C then s.astM fun a =>
        { a with evHeld := w1c a.evHeld v 3, evLowater := w1c a.evLowater v 2, evWalkTarnish := w1c a.evWalkTarnish v 1, evTableFault := w1c a.evTableFault v 0 }
     else if 0x010 ≤ o && o ≤ 0x02C then s.astM fun a => { a with pool := rwl s a.pool (a.pool.set ((o - 0x010) / 4) (v % 2 ^ 20)) }
     else if o == 0x058 then lowater (s.astM fun a => { a with lowater := v % 2 ^ 24 })
     else s)
  else s

/-- Control-complex writes to the SMP_, FIL_, STM_ and CUR_ blocks (06 Table 6-9, 07 Tables 7-15, 7-16, 09 Table 9-14). -/
def fwText (s : State) (blk o v : Nat) : State :=
  if blk == 0x06 then
    (if o == 0x004 then { s with smp := { s.smp with lookaheadEn := rwl s s.smp.lookaheadEn (bitAt v 2), hostDraftEn := rwl s s.smp.hostDraftEn (bitAt v 1)
                                                     enable := bitAt v 0 } }
     else if o == 0x00C then { s with smp := { s.smp with evNoDraft := w1c s.smp.evNoDraft v 3, evHostIgnored := w1c s.smp.evHostIgnored v 2
                                                          evDegenerate := w1c s.smp.evDegenerate v 1, evRowTarnish := w1c s.smp.evRowTarnish v 0 } }
     else s)
  else if blk == 0x07 then
    (if o == 0x004 then { s with fil := { s.fil with enable := bitAt v 0 } }
     else if o == 0x00C then { s with fil := { s.fil with evMaskTarnish := w1c s.fil.evMaskTarnish v 1, evEmpty := w1c s.fil.evEmpty v 0 } } else s)
  else if blk == 0x08 then
    (if o == 0x004 then { s with stm := { s.stm with enable := bitAt v 0 } }
     else if o == 0x00C then { s with stm := { s.stm with evStateTarnish := w1c s.stm.evStateTarnish v 3, evLate := w1c s.stm.evLate v 2
                                                          evCancelAfter := w1c s.stm.evCancelAfter v 1, evCancelBefore := w1c s.stm.evCancelBefore v 0 } }
     else s)
  else if blk == 0x09 then
    (if o == 0x04 then s.curM fun c => settle { c with enable := bitAt v 0 }
     else if o == 0x0C then s.curM fun c => { c with evTarnish := w1c c.evTarnish v 2, evDigest := w1c c.evDigest v 1, evAbandon := w1c c.evAbandon v 0 } else s)
  else s

/-- Control-complex writes to the HBC_, LPC_ and CFC_ blocks (09 Tables 9-13, 9-14). -/
def fwMem (s : State) (blk o v : Nat) : State :=
  let i := o / 0x100
  let r := o % 0x100
  if blk == 0x0A then
    { s with hbc := s.hbc.modify i fun h =>
        if r == 0x04 then { h with copyEn := rwl s h.copyEn (bitAt v 1), enable := bitAt v 0 }
        else if r == 0x0C then { h with evCopyRefused := w1c h.evCopyRefused v 2, evUncorr := w1c h.evUncorr v 1, evTrainFail := w1c h.evTrainFail v 0 }
        else h }
  else if blk == 0x0B then
    { s with lpc := s.lpc.modify i fun l =>
        if r == 0x04 then (if s.lan.committed then l else { l with gen := bits v 31 28, gib := bits v 21 16, mts := bits v 15 0 })
        else if r == 0x0C then { l with evGuard := w1c l.evGuard v 2, evUncorr := w1c l.evUncorr v 1, evTrainFail := w1c l.evTrainFail v 0 }
        else l }
  else if blk == 0x0C then
    s.bayM i fun b =>
      if r == 0x04 then { b with patrolEn := rwl s b.patrolEn (bitAt v 2), enable := bitAt v 0 }
      else if r == 0x0C then { b with event := b.event - (b.event &&& v) } else b
  else s

/-- Control-complex writes to the SIV_, EPH_, INT_ and STD_ blocks (12 Table 12-12, 10 Table 10-14, 13 Table 13-10, 16 Table 16-10). -/
def fwRest (s : State) (blk o v : Nat) : State :=
  if blk == 0x0D then
    { s with sieves := s.sieves.modify (o / 0x100) fun u =>
        if o % 0x100 == 0x04 then { u with enable := bitAt v 0 } else if o % 0x100 == 0x0C then { u with event := u.event - (u.event &&& v) } else u }
  else if blk == 0x0E then
    (if o == 0x004 then s.ephM fun e => { e with alignEn := rwl s e.alignEn (bitAt v 1), enable := bitAt v 0 }
     else if o == 0x00C then s.ephM fun e => { e with event := e.event - (e.event &&& v) } else s)
  else if blk == 0x0F then
    (if o == 0x004 then s.integM fun g => { g with plannedEn := rwl s g.plannedEn (bitAt v 1), isolateEn := rwl s g.isolateEn (bitAt v 0) }
     else if o == 0x00C then s.integM fun g => { g with event := g.event - (g.event &&& v) } else s)
  else if blk == 0x10 then
    (if o == 0x004 then s.stdM fun d => { d with routeEn := bitAt v 0 }
     else if o == 0x00C then s.stdM fun d => { d with event := d.event - (d.event &&& v) } else s)
  else if blk == 0x11 then writeLan s o v
  else s

/-- A control-complex write to a register. -/
def fwWrite (s : State) (off v : Nat) : State :=
  let blk := off / 0x10000
  let o := off % 0x10000
  fwRest (fwMem (fwText (fwCore s blk o v) blk o v) blk o v) blk o v

/-- The control complex runs firmware: a Setting image starts or runs (18 R671). -/
def fwRuns (s : State) : Bool :=
  match s.lan.phase with
  | .starting _ => true
  | .running => serving s
  | _ => false

/-- A 32-bit host write to BAR0 (15 Table 15-3); other blocks ignore host writes. -/
def hostReg (s : State) (off v : Nat) : State :=
  if 0x110000 ≤ off && off < 0x120000 then writeLan s (off - 0x110000) v
  else if !serving s then s
  else if off < 0x20000 then writeHif s off v
  else if 0x1400000 ≤ off && off < 0x1408000 then s.hifM fun h => { h with msixTable := h.msixTable.writeN (off - 0x1400000) (natLe 4 v) }
  else s

/-- A register write of 4 or 8 bytes, naturally aligned; any other is ignored (15 R566). -/
def regWrite (s : State) (fw : Bool) (off : Nat) (data : List Byte) : State :=
  let one := if fw then fwWrite else hostReg
  if data.length = 4 && off % 4 = 0 then one s off (leNat data)
  else if data.length = 8 && off % 8 = 0 then one (one s off (leNat (data.take 4))) (off + 4) (leNat (data.drop 4))
  else s

/-- A host write to BAR0 of 4 or 8 bytes, naturally aligned: a doorbell page, which answers while the control complex runs, or a register
(15 Table 15-3, R566, R572, R573). -/
def bar0Write (s : State) (off : Nat) (data : List Byte) : State :=
  if 0x1000000 ≤ off && off < 0x1400000 then
    if doorbells s && (data.length == 4 || data.length == 8) && off % data.length == 0 then
      pageWrite s ((off - 0x1000000) / 0x1000) (off % 0x1000) data
    else s
  else regWrite s false off data

/-- REGISTER_WRITE (15 R724; 03 R123, 05 R210, 09 R375, 10 R416, 17 R661). -/
def execRegisterWrite (fw : Bool) (off : Nat) (data : List Byte) (s : State) : Out :=
  when (if fw then fwRuns s else s.lan.coreUp) s (if fw then regWrite s true off data else bar0Write s off data)

/-- BAR4_ACCESS (15 R570, 16 R615): window 0 is the head's own BAR0. -/
def execBar4Access (addr len : Nat) (data : Option (List Byte)) (s : State) : Out :=
  when s.hif.linkUp s (
    let k := addr / 2 ^ 26
    let off := addr % 2 ^ 26
    let n := match data with | some b => b.length | none => len
    if 64 ≤ k || s.std.modeInForce = 1 || s.std.count ≤ k || !(n = 4 || n = 8) then
      match data with
      | none => answer (s, { ur := true })
      | some _ => dropWrite s
    else if k = 0 then
      match data with
      | none => answer (bar0Read s off n)
      | some b => bar0Write s off b
    else bar4Forward s k off n data)

/-! ## Completions (15 R578 to R580) -/

/-- The 32 bytes of a completion (15 Table 15-7). -/
def cplBytes (d : Cpl) (phase : Bool) : List Byte :=
  natLe 4 d.tag ++ natLe 1 d.status ++ natLe 1 (boolNat phase) ++ natLe 2 d.step ++ natLe 8 d.accept ++ natLe 8 d.done ++ natLe 4 d.r0 ++ natLe 4 d.r1

/-- Every delivery packet of the command's session that stood at its end has been written (15 R579). -/
def packetsOut (s : State) (d : Cpl) : Bool :=
  match findCmd s d.id with
  | none => true
  | some c => c.opcode / 16 != 2 ||
    s.lockets.all (fun e => e.2.session != c.handle || e.2.packets.all (fun p => p.written || d.done < p.since || d.status == stFenced))

/-- A ring's vector condition of count is met after a posted completion (15 R580). -/
def coalesce (s : State) (r : Nat) (noIrq : Bool) : State :=
  let g := s.ring r
  if noIrq then s else
  let n := g.unsignalled + 1
  let s := s.ringM r fun g => { g with unsignalled := n, firstUnsignalled := if g.unsignalled = 0 then s.now else g.firstUnsignalled }
  if g.irqEn && g.coalCount + 1 ≤ n then signal (s.ringM r fun g => { g with unsignalled := 0 }) g.vector else s

/-- A command has left: its pins and its place in the pools are released (08 R297, 15 R575). -/
def leaveCmd (s : State) (id : Nat) : State :=
  let s := s.hifM fun h => { h with cmds := h.cmds.filter (fun c => c.id != id), done := h.done.filter (fun d => d.id != id) }
  unpinReplicas { s with lockets := s.lockets.map (fun e => (e.1, { e.2 with pins := e.2.pins.filter (· != id) })) } (pinCmd id)

/-- A completion of the ring waits and may be posted where the completion ring has room (15 R578, R579). -/
def postable (s : State) (ring : Nat) : Bool :=
  match s.hif.done.find? (fun d => d.ring == ring) with
  | some d => (s.ring ring).cqEn && mayPost s && packetsOut s d
  | none => false

/-- The next completion of a ring is posted; none where it cannot be. -/
def postNext (s : State) (ring : Nat) : Option State :=
  match s.hif.done.find? (fun d => d.ring == ring) with
  | none => none
  | some d =>
    let g := s.ring ring
    if !postable s ring || cqFull g then none else
    let phase := g.posted / 2 ^ g.cqLog2 % 2 == 0
    let s := hostWrite s (g.cqBase + 32 * cqSlot g) (cplBytes d phase)
    let s := leaveCmd s d.id
    let s := s.ringM ring fun g => { g with posted := g.posted + 1 }
    some (coalesce s ring d.noIrq)

/-- COMPLETION_POST (15 R578 to R580). -/
def execCompletionPost (ring : Nat) (s : State) : Out :=
  formed (decide (ring < 1024)) (clocked s (
  .next ((postNext s ring).getD (if postable s ring && cqFull (s.ring ring) then hifEvent s 4 else s))))

/-- COAL_TIME_EXPIRY (15 R580). -/
def execCoalTimeExpiry (ring : Nat) (s : State) : Out :=
  formed (decide (ring < 1024)) (
  let g := s.ring ring
  when (g.irqEn && g.unsignalled != 0 && due s (g.firstUnsignalled + 16 * g.coalTime)) s
    (signal (s.ringM ring fun g => { g with unsignalled := 0 }) g.vector))

/-! ## Delivery rings (15 R587 to R589) -/

/-- Reference count of a charm: the lockets, not EXPIRED, whose CHARM_DIGEST is the charm's (08 R317). -/
def charmRefs (s : State) (c : Charm) : Nat := (s.lockets.filter (fun e => e.2.state != .expired && e.2.charmDigest == c.digest)).length

/-- A charm is freed: every replica, the symbols, the index and the master (08 R317, Table 8-13). -/
def freeCharm (s : State) (ci : Nat) : State :=
  match s.charms.get? ci with
  | none => s
  | some c =>
    let s := abandonFor s (fun p => match p with | .replica k _ => k == ci | .charmMaster k => k == ci | _ => false)
    let s := (c.replicas.zipIdx).foldl (fun s e => tlbDropId (releaseFrames s e.2 e.1.frames) (replicaId ci e.2)) s
    let s := if c.extent = 0 then s else freeExtent s c.extent
    { s with charms := s.charms.erase ci, ckpt := { s.ckpt with controlDirty := true } }

/-- A locket has given up its reference to a charm: the idle clock of a charm without references starts, and one without a name is freed (08 R317). -/
def releaseCharmRef (s : State) (digest : Nat) : State :=
  if digest = 0 then s else
  (s.charms.filter (fun e => e.2.digest == digest && charmRefs s e.2 == 0)).foldl
    (fun s e => if e.2.names.isEmpty && e.2.cmd.isNone then freeCharm s e.1 else s.charmM e.1 fun c => { c with zeroSince := s.now }) s

/-- Every page, extent and arena byte of a locket is freed, with its directory entry (08 R295). -/
def dropLocket (s : State) (h : Nat) : State :=
  match s.lockets.get? h with
  | none => s
  | some l =>
    let s := abandonFor s (fun p => p == .ring h)
    let s := s.ephM fun e => { e with jobs := e.jobs.filter (fun j => !(j.cls == .recompute && j.target == h)) }
    let s := vacateAll s h
    let s := releaseFrames s l.home (l.reserve ++ l.area ++ l.recFrames)
    let s := match l.move with
      | some m => releaseFrames s m.home m.frames
      | none => s
    let s := if l.extent = 0 then s else freeExtent s l.extent
    let s := unpinReplicas s (pinLocket h)
    releaseCharmRef
      { s with lockets := s.lockets.erase h, ckpt := { s.ckpt with replay := s.ckpt.replay.erase h }, ast := { s.ast with moves := s.ast.moves.erase h } }
      l.charmDigest

/-- A SESSION_CLOSE frees its locket once the session's packets are written, and completes (08 R295, 15 R579). -/
def finishClose (s : State) (h : Nat) : State :=
  match s.lockets.get? h with
  | none => s
  | some l =>
    match l.closing with
    | none => s
    | some id => if l.packets.all (·.written) then completeId (dropLocket s h) id stOk 0 0 0 else s

/-- D of a tenant: slots of a delivery ring. -/
def dlvDepth (s : State) (t : Nat) : Nat := 2 ^ (s.dlv t).log2

/-- Host address of packet n of a session (15 R587). -/
def slotAddr (s : State) (t session n : Nat) : Nat :=
  let g := s.dlv t
  let d := 2 ^ g.log2
  g.base + (session % 2 ^ g.ringBits) * d * 512 + (n % d) * 512

/-- The next packet of a locket that may be written (15 R588, R589). -/
def nextPacket (s : State) (l : Locket) : Option Packet :=
  match l.packets.find? (fun p => !p.written) with
  | some p => if p.seq < l.acked + dlvDepth s l.tenant then some p else none
  | none => none

/-- Two sessions' next packets are of one seal: members of one batch context, handed over at one tick (15 R588). -/
def oneSeal (s : State) (a b : Locket) : Bool :=
  a.state == .bound && b.state == .bound && a.context == b.context && (nextPacket s a).map (·.since) == (nextPacket s b).map (·.since)

/-- The session of a tenant served next: sessions take turns in ascending locket handle (11 R419), and the packets of one seal leave in ascending member index
(15 R588; log 71). -/
def nextSession (s : State) (t : Nat) : Option (Nat × Locket) :=
  let c : List (Nat × Locket) := s.lockets.filter (fun e => e.2.tenant == t && (nextPacket s e.2).isSome)
  let turn : Option (Nat × Locket) := match s.hif.lastServed.get? t with
    | none => c.head?
    | some h => (c.find? (fun e => h < e.1)).or c.head?
  turn.map (fun (e : Nat × Locket) => c.foldl (fun (a b : Nat × Locket) => if oneSeal s e.2 b.2 && b.2.member < a.2.member then b else a) e)

/-- Tenants with an eligible packet. -/
def dlvBacklog (s : State) : List Nat :=
  ((s.lockets.filter (fun e => (nextPacket s e.2).isSome)).map (fun e => e.2.tenant)).eraseDups

/-- Another written packet of the same seal is still to come for the tenant: a packet handed over at the same tick (15 R588). -/
def sameSeal (s : State) (t : Nat) (since : Tick) : Bool :=
  s.lockets.any (fun e => e.2.tenant == t && e.2.packets.any (fun p => !p.written && p.since == since))

/-- The packet that scheduler 1 selects is written, payload before header; none where there is none to write (15 R588, 11 R418, R419). -/
def writeNext (s : State) : Option State :=
  match wfqSelect s 1 (dlvBacklog s) false with
  | (_, none) => none
  | (s1, some t) =>
    match nextSession s1 t with
    | none => none
    | some (h, l) =>
      match nextPacket s1 l with
      | none => none
      | some p =>
        if !mayPost s || s.integ.mode == .quarantined || s.lan.power == .boot then none else
        let a := slotAddr s1 t l.session p.seq
        let s2 := hostWrite s1 (a + 64) (p.bytes.drop 64)
        let s2 := hostWrite s2 a (p.bytes.take 64)
        let s2 := s2.locketM h fun l => { l with packets := l.packets.map (fun q => if q.seq == p.seq then { q with written := true } else q) }
        let s2 := s2.dlvM t fun g => { g with written := (g.written + 1) % 2 ^ 64 }
        let s2 := s2.hifM fun i => { i with lastServed := i.lastServed.set t h }
        let s2 := wfqCharge s2 1 t 1 ((dlvBacklog s2).contains t) false
        let s2 :=
          if sameSeal s2 t p.since then s2
          else
            let s3 := hostWrite s2 (s2.dlv t).prod (natLe 8 (s2.dlv t).written)
            if (s3.dlv t).irqEn then signal s3 (s3.dlv t).vector else s3
        some (finishClose s2 h)

/-- DELIVERY_WRITE (15 R588). -/
def execDeliveryWrite (s : State) : Out :=
  clocked s (
  .next ((writeNext s).getD s))

/-- Packets and completions are written as long as any can be (15 R579, R588). -/
def flushHost : Nat → State → State
  | 0, s => s
  | fuel + 1, s =>
    match (writeNext s).or (s.hif.rings.keys.findSome? (postNext s)) with
    | some t => flushHost fuel t
    | none => s

/-! ## QUERY (15 R585) and results by PUT (09 Table 9-6) -/

/-- A result that a PUT descriptor writes; the command completes when it ends (15 R579, R585). -/
def submitPut (s : State) (c : HCmd) (addr : Nat) (data : List Byte) (status r0 r1 : Nat) : State :=
  let s := s.curM fun u => { u with puts := u.puts ++ [{ cmd := c.id, addr := addr, data := data, status := status, r0 := r0, r1 := r1 }] }
  submit s { cookie := 0, op := 7, tenant := c.tenant, units := ceilDiv data.length 4096, dst := addr, purpose := .put c.id }

/-- The bytes that a unit of a PUT writes to host memory (09 Table 9-6). -/
def putPacket (s : State) (d : Desc) (id : Nat) : State :=
  match s.cur.puts.find? (fun p => p.cmd == id) with
  | none => s
  | some p => hostWrite s (p.addr + 4096 * d.sent) ((p.data.drop (4096 * d.sent)).take 4096)

/-- A PUT has ended: its bytes have reached host memory and its command completes. -/
def finishPut (s : State) (id : Nat) : State :=
  match s.cur.puts.find? (fun p => p.cmd == id) with
  | none => s
  | some p =>
    let s := s.curM fun u => { u with puts := u.puts.filter (fun q => q.cmd != id) }
    completeId s id p.status p.r0 p.r1 0

/-- A descriptor's address operand is a multiple of 64 (15 R581). -/
def addrOk (a : Nat) : Bool := a % 64 == 0

/-- The record of a session (15 Table 15-10, KIND 1). -/
def querySession (h : Nat) (l : Locket) : List Byte :=
  natLe 8 l.session ++ natLe 4 h ++ natLe 1 (locketCode l.state) ++
  natLe 1 (maskOf [l.dropped, l.recomputing, l.held, l.unusable, l.paused, l.replay]) ++ natLe 1 (boolNat l.stm.generating) ++ natLe 1 l.home ++
  natLe 4 l.thread.length ++ natLe 4 l.base ++ natLe 8 l.smp.stepIndex ++ natLe 8 l.stm.nextSeq ++ natLe 8 l.acked ++ natLe 8 l.lastTouch ++
  natLe 4 l.stm.lastStatus ++ natLe 4 l.stm.emitted ++ natLe 4 l.stm.delivered ++ natLe 2 l.stm.grammar ++ natLe 2 l.stm.gstate ++
  natLe 1 (if l.state == .bound then l.context else 0xFF) ++ zeros 1 ++ natLe 2 (if l.state == .bound then l.member else 0xFFFF) ++
  natLe 2 l.pins.length ++ zeros 2 ++ natBe 32 l.parureHash

/-- The charm record (08 Table 8-12). -/
def charmRecord (c : Charm) : List Byte :=
  natBe 32 c.digest ++ natBe 32 c.parureHash ++ natBe 32 c.facetHash ++ natLe 4 c.symbols.length ++ natLe 4 c.glen ++ natLe 2 c.tenant ++ zeros 22

/-- The object record of QUERY, or the status that refuses it (15 R585, Table 15-10). -/
def queryRecord (s : State) (c : HCmd) : Nat × List Byte :=
  let kind := c.fld 16 1
  let hd := c.handle
  if (kind == 6 || kind == 7) && c.tenant != 0 then (stInvalid, [])
  else if kind == 1 then
    match s.lockets.find? (fun e => e.2.session == hd && e.2.tenant == c.tenant) with
    | some (h, l) => (stOk, querySession h l)
    | none => (stUnknown, [])
  else if kind == 2 then
    match s.charms.vals.find? (fun m => m.names.contains hd && m.tenant == c.tenant) with
    | some m => (stOk, padTo 128 (charmRecord m) ++ natLe 4 (charmRefs s m) ++ natLe 1 (maskOf (m.replicas.map (fun r => r.state == .present))) ++
        natLe 1 m.anchor ++ natLe 1 m.master ++ natLe 1 (if m.master = 3 then m.bay else 0xFF))
    | none => (stUnknown, [])
  else if kind == 3 then
    match s.facets.find? (fun f => f.handle != 0 && f.handle == hd && f.tenant == c.tenant) with
    | some f => (stOk, natBe 32 f.hash ++ natBe 32 ((s.parures.getD f.slot {}).hash) ++ natLe 4 (boolNat f.failed) ++ natLe 4 f.image.length)
    | none => (stUnknown, [])
  else if kind == 4 then
    match s.colls.vals.find? (fun k => k.handle == hd && k.tenant == c.tenant) with
    | some k =>
      (stOk, natLe 8 k.lastCsn ++ natLe 8 ((k.gens.head?.map (·.number)).getD 0) ++
        natLe 1 (match k.state with | .ready => 1 | .merging => 2 | .broken => 3) ++ natLe 1 k.metric ++ natLe 1 k.vecFmt ++
        natLe 1 (boolNat ((k.merge.map (fun m => m.horizon.isNone)).getD false)) ++
        natLe 4 (k.side.length - (k.gens.head?.map (·.sideStart)).getD 0) ++ natLe 4 k.capacity ++
        natLe 4 (k.items.vals.filter (fun i => i.insCsn ≤ k.lastCsn && k.lastCsn < i.delCsn)).length)
    | none => (stUnknown, [])
  else if kind == 5 then
    match s.parures.find? (fun e => e.2.handle == hd) with
    | some (n, p) => (stOk, padTo 128 p.header ++ natLe 1 (match p.state with | .loading => 1 | .loaded => 2) ++ natLe 1 p.widthCap ++ natLe 1 p.contexts ++
        natLe 1 n ++ natLe 4 p.tAdm ++ natBe 32 p.hash)
    | none => (stUnknown, [])
  else if kind == 6 then
    if 8 ≤ hd then (stUnknown, []) else
    match s.eph.ctxs.get? hd with
    | some x => (stOk, natLe 1 (match x.state with | .idle => 1 | .stepping => 2 | .overrun => 3) ++ zeros 7 ++ natLe 8 ((s.parures.getD x.slot {}).handle) ++
        natLe 2 x.members.length ++ natLe 2 x.joins.length ++ zeros 4 ++ natLe 8 x.seals)
    | none => (stOk, [])
  else if kind == 7 then
    if hd != 0 then (stUnknown, []) else
    (stOk, natLe 1 (ownPos s) ++ natLe 1 s.std.modeInForce ++ natLe 2 s.std.epoch ++ zeros 4 ++ natLe 8 s.eph.frame ++ natLe 8 s.ckpt.lastCut ++
      natLe 4 (s.lockets.filter (fun e => inT1 e.2)).length ++ natLe 4 (s.lockets.filter (fun e => !inT1 e.2 && e.2.state != .expired)).length)
  else (stInvalid, [])

/-- QUERY (15 R585). -/
def execQuery (id : Nat) (s : State) : Out :=
  hostCmd s id 0x60 fun s c =>
    if !addrOk (c.fld 24 8) then complete s c stInvalid 0 0 0 else
    match queryRecord s c with
    | (0, rec) => submitPut s c (c.fld 24 8) (padTo 256 rec) stOk 256 0
    | (st, _) => complete s c st 0 0 0

/-! ## Policing and sampling (11 R428, R435 to R439) -/

/-- TOKEN_REFILL (11 R428). -/
def execTokenRefill (s : State) : Out := .next (refill s)

/-- Depth bin (11 Table 11-4). -/
def depthBin (d : Nat) : Nat := if d = 0 then 0 else min 15 (d.log2 + 1)

/-- One sample of a queue added to its histogram entry (11 R436); the sample count and depth bin 0 follow from the count of all samples. -/
def sampleHist (h : QHist) (depth delay sent : Nat) : QHist :=
  { h with maxDepth := min max32 (max h.maxDepth depth), maxDelay := min max32 (max h.maxDelay delay)
           depthHist := if depth = 0 then h.depthHist else h.depthHist.modify (depthBin depth) (fun x => satInc x max32)
           delayHist := if depth = 0 then h.delayHist else h.delayHist.modify (delayBin delay) (fun x => satInc x max32)
           sentTotal := h.sentTotal + sent }

/-- DEPTH and DELAY of a queue at this tick (11 R435). -/
def queueNow (s : State) (v : Tab (Nat × Tick)) (qid : Nat) : Nat × Nat :=
  match v.get? qid with
  | none => (0, 0)
  | some (d, t) => (d, s.now - t)

/-- The 32-byte ring record of a queue (11 Table 11-5). -/
def sampleRecord (s : State) (v : Tab (Nat × Tick)) (qid n : Nat) : List Byte :=
  let q := queueNow s v qid
  natLe 8 s.now ++ natLe 2 qid ++ zeros 2 ++ natLe 4 (min max32 q.1) ++ natLe 4 (min max32 q.2) ++ natLe 4 (s.traffic.sent.getD qid 0) ++ natLe 4 (n % 2 ^ 32) ++
  zeros 4

/-- The ring takes records (11 R439). -/
def ringOn (a : Traffic) : Bool := a.sampleEn = 1 && a.ringBase != 0 && a.producer != 0 && a.watchCount != 0

/-- The records of one sample and the producer count (11 R437). -/
def writeSamples (s : State) (v : Tab (Nat × Tick)) : State :=
  if !ringOn s.traffic then s else
  let n0 := s.traffic.ringCount
  let s := ((s.traffic.watch.take s.traffic.watchCount).zipIdx).foldl
    (fun s e => hostWrite s (s.traffic.ringBase + 32 * ((n0 + e.2) % 2 ^ s.traffic.ringLog2)) (sampleRecord s v e.1 (n0 + e.2))) s
  let s := s.trafM fun a => { a with ringCount := (n0 + a.watchCount) % 2 ^ 64 }
  hostWrite s s.traffic.producer (natLe 8 s.traffic.ringCount)

/-- QUEUE_SAMPLE (11 R435 to R437): at a tick that is a multiple of 1,000, once. -/
def execQueueSample (s : State) : Out :=
  when (serving s && s.now % 1000 == 0 && s.traffic.lastSample != some s.now) s (
    let v := queueViews s
    let ids := (v.keys ++ s.traffic.sent.keys).eraseDups
    let s1 := writeSamples s v
    s1.trafM fun a =>
      { a with hist := ids.foldl (fun t q => let n := queueNow s v q; t.set q (sampleHist (t.getD q {}) n.1 n.2 (a.sent.getD q 0))) a.hist
               samples := a.samples + 1, sent := [], lastSample := some s.now })

end Sys2Proof.Machine
end

