-- ==== Sys2Proof/Machine/Parure.lean ====
section
/-!
DEFINITION. Sys2Proof/Machine/Parure.lean: loading and unloading of parures and facets (04 R148 to R161, 08 R320 to R323).
-/
namespace Sys2Proof.Machine

/-- The lowest free load slot of the sixteen (04 R154). -/
def freeSlot (s : State) : Nat := ((List.range 16).find? (fun k => !s.parures.has k)).getD 0

/-- Check 4 of LOAD_PARURE on the header that SOURCE gave (04 Table 4-11). -/
def headerCheck (len w : Nat) (header : List Byte) : Option (Nat × Nat) :=
  if !headerOk header len then some (stBadParure, 4) else if imgMaxWidth header < w then some (stInvalid, 4) else none

/-- Checks 1 to 4 of LOAD_PARURE: the status and number of the first that fails (04 Table 4-11, R153). Of a peer, check 4 judges the epoch and the position
before it reads the header. -/
def loadCheck (s : State) (c : HCmd) (header : List Byte) : Option (Nat × Nat) :=
  let len := c.fld 24 8
  let w := c.fld 32 1
  let peer := c.flag 4
  let pos := c.fld 34 1
  if !(c.tenant == 0 && c.handle != 0 && (parureHandle s c.handle).isNone && 1 ≤ w && w ≤ 16 && 1 ≤ c.fld 33 1 && c.fld 33 1 ≤ 8 && 512 ≤ len &&
      len % 64 == 0 && pos < 64 && c.fld 16 8 % 64 == 0 && (!peer || (c.fld 16 8 == 0 && pos != ownPos s))) then some (stInvalid, 1)
  else if s.ory.checkOff then some (stInvalid, 2)
  else if 16 ≤ s.parures.length then some (stNoRoom, 3)
  else if peer then (if c.fld 36 2 != s.std.epoch then some (stStale, 4) else if !bitAt s.std.members pos then some (stUnknown, 4) else none)
  else headerCheck len w header

/-- Control and spill bytes of a load (04 Table 4-11, check 5). -/
def controlNeed (header : List Byte) (contexts : Nat) : Nat :=
  imgCtlBytes header + contexts * (ceilDiv (128 * imgSpillMax header) 65536 * 65536)

/-- The load slot LOADING, with the operands of its command (04 R154). -/
def newLoad (c : HCmd) : Parure :=
  { handle := c.handle, cmd := c.id, widthCap := c.fld 32 1, contexts := c.fld 33 1, length := c.fld 24 8
    peer := if c.flag 4 then some (c.fld 34 1) else none, peerHandle := c.fld 40 8, peerEpoch := c.fld 36 2, source := c.fld 16 8 }

/-- Check 5: the T1 space of a load whose header has been read, or none where T1 has no room (04 Table 4-11; log 18). -/
def reserveLoad (s : State) (slot : Nat) (p : Parure) (header : List Byte) : Option State :=
  let bases := (List.range 8).map (fun st => parFit s st (imgColBytes header))
  let q : Parure := { p with header := header.take 256, headerDue := false, received := [], weightBase := bases.map (·.getD 0) }
  if bases.any (·.isNone) then none else
  let s1 := { s with parures := s.parures.set slot q }
  (parFitAny s1 (controlNeed header p.contexts)).map fun a =>
    { s with parures := s.parures.set slot { q with controlBase := a, controlLen := controlNeed header p.contexts } }

/-- The Courier's FETCH of a load: the header of a peer's parure, or the whole image (04 R150, R153). -/
def fetchLoad (s : State) (slot : Nat) (p : Parure) (units : Nat) : State :=
  submit s { cookie := 0, op := 6, tenant := 0, units := units, src := if p.peer.isSome then p.peerHandle else p.source, dst := p.controlBase, peer := p.peer.getD 0
             epoch := p.peerEpoch, purpose := .parure slot }

/-- A load ends with a status and a check number: the slot and everything reserved for it are free (04 R150, R152). -/
def endBadLoad (s : State) (slot : Nat) (p : Parure) (st n : Nat) : State := completeId { s with parures := s.parures.erase slot } p.cmd st 0 n 0

/-- A load whose header has been read goes on to its copy (04 R150, checks 4 to 6). -/
def startLoadCopy (s : State) (slot : Nat) (p : Parure) (header : List Byte) : State :=
  match reserveLoad s slot p header with
  | none => endBadLoad s slot p stNoRoom 5
  | some s1 => fetchLoad s1 slot (s1.parures.getD slot p) (ceilDiv p.length 4096)

/-- LOAD_PARURE up to the start of the copy; a peer's header comes over the Strand first (04 R150, R153). -/
def loadStart (header : List Byte) (s : State) (c : HCmd) : State :=
  match loadCheck s c header with
  | some (st, n) => complete s c st 0 n 0
  | none =>
    let slot := freeSlot s
    let p := newLoad c
    if p.peer.isSome then fetchLoad { s with parures := s.parures.set slot { p with headerDue := true } } slot p 1
    else startLoadCopy { s with parures := s.parures.set slot p } slot p header

/-- LOAD_PARURE (04 R148 to R153). -/
def execLoadParure (id : Nat) (header : List Byte) (s : State) : Out :=
  formed (header.length == 256 || header.isEmpty) (hostCmd s id 0x10 (loadStart header))

/-- Checks 6 to 11 on the copied image: the status and number of the first that fails (04 Table 4-11, R155). The header that check 4 read and check 5 reserved
for is the copied image's own, so the copy stays within the reservation (04 Table 4-1; log 64). -/
def copyCheck (s : State) (p : Parure) (status : Nat) (img : List Byte) : Option (Nat × Nat) :=
  if status != 0 then some (if p.peer.isSome then stUnknown else stSignature, 6)
  else match s.lan.trust[imgKeySlot img]? with
    | none => some (stSignature, 6)
    | some key =>
      if !parureSigned img key then some (stSignature, 6)
      else if (loadedHash s (parureHash img)).isSome then some (stInvalid, 7)
      else if img.take 256 != p.header then some (stBadParure, 8)
      else match staticCheck img with
        | some n => some (stBadParure, n)
        | none =>
          let frame := (s.eph.active.map (·.frameTicks)).getD 2000000
          if !imgDraft img && frame < tAdmOf img p.widthCap then some (stNoTime, 11) else none

/-- The sections other than WEIGHTS are laid into the control space in directory order, each from a multiple of 65,536 (04 Table 4-11, check 8). -/
def placeControl (img : List Byte) : Nat → List Sect → State → State
  | _, [], s => s
  | a, e :: es, s =>
    if e.ty = 6 then placeControl img a es s
    else placeControl img (a + ceilDiv e.len 65536 * 65536) es (t1Write s a (bytesAt img e.off e.len))

/-- The image in T1: the eight column images at their bases, and the control sections (04 R134, R150). -/
def placeImage (s : State) (p : Parure) (img : List Byte) : State :=
  let col := imgColBytes img
  let s := (p.weightBase.zipIdx).foldl (fun s e => t1Write s e.1 (bytesAt img ((sect img 6).off + e.2 * col) col)) s
  placeControl img p.controlBase (dirEntries img) s

/-- The end of a load's copy (04 R150, R152, R154). -/
def endLoad (s : State) (slot : Nat) (p : Parure) (status : Nat) (img : List Byte) : State :=
  match copyCheck s p status img with
  | some (st, n) => completeId { s with parures := s.parures.erase slot } p.cmd st 0 n 0
  | none =>
    let t := tAdmOf img p.widthCap
    let q := { p with state := .loaded, image := img, header := img.take 256, hash := parureHash img, tAdm := t }
    completeId (placeImage { s with parures := s.parures.set slot q } q img) p.cmd stOk t 0 0

/-- A peer's header has been read, or its transfer has failed (04 R153). -/
def endHeader (s : State) (slot : Nat) (p : Parure) (status : Nat) : State :=
  if status != 0 then endBadLoad s slot p stUnknown 4
  else match headerCheck p.length p.widthCap p.received with
    | some (st, n) => endBadLoad s slot p st n
    | none => startLoadCopy s slot p p.received

/-- PARURE_COPY_DONE (04 R150, R153): the descriptor of a load has ended with its completion record. The bytes of a copy from host memory are the operand; those
of a peer are the units that came over the Strand. -/
def execParureCopyDone (slot : Nat) (image : List Byte) (s : State) : Out :=
  formed (decide (slot < 16)) (
  match s.parures.get? slot, consume s (.parure slot) with
  | some p, some (s1, st) =>
    when (p.state == .loading) s (
      if p.headerDue then endHeader s1 slot p st else endLoad s1 slot p st (padTo p.length (if p.peer.isSome then p.received else image)))
  | _, _ => .next s)

/-- A LOADED parure has a user (04 R160). -/
def parureUsed (s : State) (slot : Nat) (p : Parure) : Bool :=
  s.eph.ctxs.any (fun e => e.2.slot == slot) ||
  s.lockets.any (fun e => e.2.parureHash == p.hash && (inT1 e.2 || e.2.state == .promoting)) ||
  s.facets.any (fun f => f.slot == slot) ||
  (imgDraft p.header && s.parures.any (fun e => e.2.state == .loaded && imgDraftHash e.2.header == p.hash &&
    s.eph.ctxs.any (fun x => x.2.slot == e.1)))

/-- UNLOAD_PARURE (04 R148, R154, R160). -/
def execUnloadParure (id : Nat) (s : State) : Out :=
  hostCmd s id 0x11 fun s c =>
    match parureHandle s c.handle with
    | none => complete s c stUnknown 0 0 0
    | some (slot, p) =>
      if p.state == .loading then
        let s := abandonFor s (fun q => q == .parure slot)
        complete (completeId { s with parures := s.parures.erase slot } p.cmd stCancelled 0 0 0) c stOk 0 0 0
      else if parureUsed s slot p then complete s c stBusy 0 0 0
      else complete { s with parures := s.parures.erase slot } c stOk 0 0 0

/-- FACET_LOAD (04 R159, 08 R320, R321). -/
def facetStart (image : List Byte) (s : State) (c : HCmd) : State :=
  let len := c.fld 32 4
  let img := padTo len image
  if c.handle == 0 || !addrOk (c.fld 24 8) || s.facets.any (fun f => f.handle == c.handle && f.tenant == c.tenant) then complete s c stInvalid 0 0 0 else
  match parureHandle s (c.fld 16 8) with
  | none => complete s c stUnknown 0 0 0
  | some (slot, p) =>
    if p.state != .loaded then complete s c stUnknown 0 0 0
    else if !hasSect p.image 10 || len != facetBytes p.image || !facetPadOk img 0 (facetLayers p.image) then complete s c stInvalid 0 0 0
    else if 65536 ≤ s.facets.length then complete s c stNoRoom 0 0 0
    else match parFitAny s len with
      | none => complete s c stNoRoom 0 0 0
      | some a =>
        let f : Facet := { tenant := c.tenant, handle := c.handle, slot := slot, hash := beNat (sha256 img), image := img, addr := a }
        complete (t1Write { s with facets := s.facets ++ [f], ckpt := { s.ckpt with controlDirty := true } } a img) c stOk 0 0 0

/-- FACET_LOAD (04 R159). -/
def execFacetLoad (id : Nat) (image : List Byte) (s : State) : Out := hostCmd s id 0x12 (facetStart image)

/-- A step in progress reads a facet's image (08 R323). -/
def facetRead (s : State) (f : Facet) : Bool :=
  s.eph.ctxs.any (fun x => (x.2.step.map (fun st => st.rows.any (fun r => r.active && ((s.lockets.get? r.handle).map (fun l =>
    l.tenant == f.tenant && l.facetHash == f.hash && l.slot == f.slot)).getD false))).getD false)

/-- The T1 space of dropped facets is freed once no step in progress reads it (08 R323). -/
def sweepFacets (s : State) : State := { s with facets := s.facets.filter (fun f => f.handle != 0 || facetRead s f) }

/-- FACET_DROP (08 R323). -/
def execFacetDrop (id : Nat) (s : State) : Out :=
  hostCmd s id 0x13 fun s c =>
    let own := fun (f : Facet) => f.handle != 0 && f.handle == c.handle && f.tenant == c.tenant
    match s.facets.find? own with
    | none => complete s c stUnknown 0 0 0
    | some f =>
      let named := s.lockets.any (fun e => e.2.tenant == c.tenant && e.2.facetHash == f.hash &&
        (e.2.state == .opened || e.2.state == .bound || e.2.state == .demoting || e.2.state == .promoting))
      let other := s.facets.any (fun g => !own g && g.tenant == c.tenant && g.hash == f.hash && g.slot == f.slot)
      if named && !other then complete s c stBusy 0 0 0
      else
        let fs := s.facets.map (fun g => if own g then { g with handle := 0 } else g)
        complete (sweepFacets { s with facets := fs, ckpt := { s.ckpt with controlDirty := true } }) c stOk 0 0 0

end Sys2Proof.Machine
end

