-- ==== Sys2Proof/Machine/Sampler.lean ====
section
/-!
DEFINITION. Sys2Proof/Machine/Sampler.lean: trees, draft sources, shaping of weights, the walk that fixes a path (06), and the grammar states that
Filigree assigns (07 R250 to R254).
-/
namespace Sys2Proof.Machine

/-! ## Trees (06 R213, R214) -/

/-- The parents of nodes 0 to 15 of the draft-parure shape; node 0's place holds 0 (06 Table 6-6). -/
def shapeParents : List Nat := [0, 0, 0, 1, 3, 1, 2, 4, 7, 0, 3, 8, 5, 11, 4, 13]

/-- Masks from parents, in ascending node number (06 Table 6-2). -/
def masksGo : Nat → List Nat → List Nat → List Nat
  | _, [], ms => ms
  | n, p :: ps, ms => masksGo (n + 1) ps (ms ++ [if n = 0 then 1 else ms.getD p 0 ||| 2 ^ n])

/-- Masks of a tree. -/
def masksOf (parents : List Nat) : List Nat := masksGo 0 parents []

/-- Depth of a node: popcount of its mask, less one (06 Table 6-2). -/
def nodeDepth (t : Tree) (n : Nat) : Nat := popCount 16 (t.masks.getD n 1) - 1

/-- Children of a node, in ascending number. -/
def children (t : Tree) (v : Nat) : List Nat := (List.range t.parents.length).filter (fun n => n != 0 && t.parents.getD n 0 == v)

/-- The first w nodes of a tree (06 R222). -/
def cutTree (w : Nat) (t : Tree) : Tree :=
  { masks := t.masks.take w, parents := t.parents.take w, symbols := t.symbols.take w, states := t.states.take w, open_ := t.open_.filter (· < w) }

/-- The tree with a node and its descendants removed, the nodes after them renumbered (06 R230). -/
def dropNode (t : Tree) (n : Nat) : Tree :=
  let keep := (List.range t.parents.length).filter (fun k => !bitAt (t.masks.getD k 0) n)
  let parents := keep.map (fun k => (keep.findIdx? (· == t.parents.getD k 0)).getD 0)
  { masks := masksOf parents, parents := parents, symbols := keep.map (fun k => t.symbols.getD k 0), states := keep.map (fun k => t.states.getD k none)
    open_ := (t.open_.filter keep.contains).map (fun k => (keep.findIdx? (· == k)).getD 0) }

/-! ## Target width and draft sources (06 R220 to R231) -/

/-- Target width (06 R220). -/
def targetWidth (m : SamplerState) : Nat := min m.wMax (max m.wMin (2 + 3 * m.accAvg / 256))

/-- A host draft record is valid for node 0 at a position (06 R225). -/
def draftValid (r : List Byte) (pos : Nat) : Bool :=
  let c := fieldAt r 8 1
  let pars := fieldAt r 16 8
  fieldAt r 9 1 == 1 && fieldAt r 0 8 == pos && 1 ≤ c && c ≤ 16 && zeroAt r 10 6 && zeroAt r 56 8 && fieldAt r 24 2 == 0 && pars % 16 == 0 &&
  (List.range 16).all (fun n => if n = 0 then true else
    if n < c then bits pars (4 * n + 3) (4 * n) < n && fieldAt r (24 + 2 * n) 2 < 0x2140
    else bits pars (4 * n + 3) (4 * n) == 0 && fieldAt r (24 + 2 * n) 2 == 0)

/-- The tree of a host draft record, node 0's symbol from the thread (06 R226). -/
def draftTree (r : List Byte) (root : Sym) : Tree :=
  let c := fieldAt r 8 1
  let parents := (List.range c).map (fun n => if n = 0 then 0 else bits (fieldAt r 16 8) (4 * n + 3) (4 * n))
  { masks := masksOf parents, parents := parents, symbols := (List.range c).map (fun n => if n = 0 then root else fieldAt r (24 + 2 * n) 2) }

/-- The lookahead charm of a session: the charm that LOOKAHEAD names, or its attached charm (06 R227). -/
def lookCharm (s : State) (l : Locket) : Option Charm :=
  if l.smp.lookahead = 0 then (if l.charmDigest = 0 then none else s.charms.vals.find? (fun c => c.tenant == l.tenant && c.digest == l.charmDigest))
  else s.charms.vals.find? (fun c => c.tenant == l.tenant && c.names.contains l.smp.lookahead)

/-- The highest index of a charm at which its last four symbols equal g: 3 ≤ i ≤ L − 2 (06 R227). -/
def lookMatch (syms g : List Sym) : Option Nat :=
  ((List.range (syms.length - 1)).filter (fun i => 3 ≤ i && (syms.drop (i - 3)).take 4 == g)).getLast?

/-- The chain of symbols that the lookahead rule supplies to a member whose node 0 stands at a position (06 R227). -/
def lookChain (s : State) (l : Locket) (pos : Nat) : Option (List Sym) :=
  if !s.smp.lookaheadEn || pos < 3 then none else
  match lookCharm s l with
  | none => none
  | some c => (lookMatch c.symbols ((l.thread.drop (pos - 3)).take 4)).map (fun i => (c.symbols.drop (i + 1)).take (targetWidth l.smp - 1))

/-- A tree that is a chain below its root. -/
def chainTree (root : Sym) (syms : List Sym) : Tree :=
  let parents := (List.range (syms.length + 1)).map (· - 1)
  { masks := masksOf parents, parents := parents, symbols := root :: syms }

/-- The draft parure in use for a parure: the LOADED parure that its DRAFT_HASH names (04 R156, 06 R223). -/
def draftParure (s : State) (img : List Byte) : Option (Nat × Parure) :=
  if imgDraftHash img = 0 then none else
  s.parures.find? (fun e => e.2.state == .loaded && e.2.hash == imgDraftHash img && imgDraft e.2.header)

/-- The draft-parure shape cut to w nodes, its symbols still open (06 R231). -/
def shapeTree (root : Sym) (w : Nat) : Tree :=
  let parents := shapeParents.take w
  { masks := masksOf parents, parents := parents, symbols := (List.range parents.length).map (fun n => if n = 0 then root else 0)
    open_ := (List.range parents.length).drop 1 }

/-- The tree supplied to a member at a freeze, with the events of the choice: (tree, host record used, host record ignored, no draft parure)
(06 Table 6-4). -/
def chooseTree (s : State) (l : Locket) (img : List Byte) (pos : Nat) (draft : List Byte) : Tree × Bool × Bool × Bool :=
  let root := l.thread.getD pos 0
  let w := targetWidth l.smp
  let present := s.smp.hostDraftEn && fieldAt draft 9 1 != 0
  if present && draftValid draft pos then (cutTree w (draftTree draft root), true, false, false) else
  match (if l.smp.draftSrc = 2 || l.smp.draftSrc = 3 then lookChain s l pos else none) with
  | some syms => (cutTree w (chainTree root syms), false, present, false)
  | none =>
    if l.smp.draftSrc = 1 || l.smp.draftSrc = 3 then
      (match draftParure s img with
       | some _ => (shapeTree root w, false, present, false)
       | none => (chainTree root [], false, present, true))
    else (chainTree root [], false, present, false)

/-! ## Grammar states and masks (07 R247 to R254) -/

/-- Grammar state of each node; DEAD below a symbol that no range covers (07 R252). A session without a grammar has state 0 everywhere. -/
def statesGo (img : List Byte) (g : Nat) (root : Nat) (t : Tree) : Nat → List (Option Nat) → List (Option Nat)
  | 0, acc => acc
  | k + 1, acc =>
    let n := acc.length
    let st := if n = 0 then some root
      else if g = 0xFFFF then some 0
      else (acc.getD (t.parents.getD n 0) none).bind (fun p => gramNext img g p (t.symbols.getD n 0))
    statesGo img g root t k (acc ++ [st])

/-- Grammar states of a tree's nodes. -/
def treeStates (img : List Byte) (l : Locket) (t : Tree) : List (Option Nat) := statesGo img l.stm.grammar l.stm.gstate t t.parents.length []

/-- The mask of a state as a number of 8,512 bits; without a grammar every symbol is permitted, and DEAD permits none (07 R250, R252). -/
def maskNum (img : List Byte) (g : Nat) (st : Option Nat) : Nat :=
  if g = 0xFFFF then 2 ^ 8512 - 1 else match st with
    | none => 0
    | some q => gramMask img g q

/-- T1 address of a control section of a loaded parure (04 R134; Table 4-11, check 8). -/
def sectAddr (p : Parure) (ty : Nat) : Nat :=
  p.controlBase + (((dirEntries p.image).takeWhile (fun e => e.ty != ty)).filter (fun e => e.ty != 6)).foldl (fun a e => a + ceilDiv e.len 65536 * 65536) 0

/-- A line of a grammar that a node in a state uses is tarnished: its state entry, transitions or mask (13 Table 13-3). -/
def gramTarnished (s : State) (p : Parure) (g : Nat) (st : Option Nat) : Bool :=
  if g = 0xFFFF then false else match st with
  | none => false
  | some q =>
    let b := sectAddr p 11
    let e := gramState p.image g q
    tarnishedRun s (b + 32 * g) 32 || tarnishedRun s (b + gramFld p.image g 8 4 + 8 * q) 8 ||
    tarnishedRun s (b + gramFld p.image g 16 4 + 8 * e.1) (8 * e.2.1) || tarnishedRun s (b + gramFld p.image g 12 4 + 1088 * e.2.2) 1064

/-! ## Shaping (06 Table 6-7) -/

/-- FP32 one. -/
def one32 : W32 := 0x3F800000#32

/-- Orders symbols by descending logit, ties to the lower code (02 R70). -/
def rankBefore (a b : Sym × W32) : Bool := rankLt b.2 a.2 || (!rankLt a.2 b.2 && a.1 ≤ b.1)

/-- Symbols of a row in rank order. -/
def ranked (zs : List (Sym × W32)) : List (Sym × W32) := sortBy rankBefore zs

/-- Symbols of a mask, in ascending code. -/
def permitted (mask : Nat) : List Sym := (List.range 8512).filter (bitAt mask)

/-- The number of symbols that TOP_P keeps: the least j with S_j ≥ T (06 Table 6-7, step 6). -/
def topPKeep (topP : W32) (ws : List W32) : Nat :=
  let ps := prefixSums 0#32 ws
  let t := fmul topP (ps.getLastD 0#32)
  ((ps.findIdx? (fun x => !rankLt x t)).getD (ps.length - 1)) + 1

/-- Shaped weights of a node, in ascending code, with whether step 2 of Table 6-7 occurred; none when the mask permits no symbol (06 R232, R236). -/
def shape (temp topP : W32) (topK : Nat) (row : List W32) (mask : Nat) : Option (List (Sym × W32) × Bool) :=
  match permitted mask with
  | [] => none
  | low :: rest =>
    let az := ((low :: rest).map (fun x => (x, row.getD x nan32))).filter (fun p => isNumber p.2)
    match ranked az with
    | [] => some ([(low, one32)], true)
    | best :: others =>
      if temp = 0#32 then some ([(best.1, one32)], false)
      else
        let r := best :: others
        let k := if topK != 0 then r.take topK else if rankLt topP one32 then r.take 1024 else r
        let ws :=
          if best.2 = inf32 false then (k.filter (fun p => p.2 = inf32 false)).map (fun p => (p.1, one32))
          else
            let c := fmul 0x3FB8AA3B#32 (frecip temp)
            let w := k.map (fun p => (p.1, fexp2 (fmul (fsub p.2 best.2) c)))
            if rankLt topP one32 then w.take (topPKeep topP (w.map (·.2))) else w
        some (sortBy (fun a b => a.1 ≤ b.1) (ws.filter (fun p => rankLt 0#32 p.2)), false)

/-! ## The walk (06 R234) -/

/-- What the walk of one member found: its path, rows shaped, degenerate nodes, and whether it read a tarnished row (06 R244). -/
structure Walk where
  path : Path := { nodes := [0] }
  shaped : Nat := 0
  degenerate : Nat := 0
  tarnished : Bool := false
deriving DecidableEq, Repr

/-- What a walk reads of a member: key, step index, sampler fields, tree, masks by node, logit rows by node and the nodes with a tarnished row. -/
structure WalkIn where
  key : Nat
  step : Nat
  temp : W32
  topP : W32
  topK : Nat
  tree : Tree
  masks : List Nat
  rows : List (List W32)
  bad : List Nat
deriving DecidableEq, Repr

/-- Weight of a symbol. -/
def weightOf (w : List (Sym × W32)) (x : Sym) : W32 := ((w.find? (fun p => p.1 == x)).map (·.2)).getD 0#32

/-- accept(n, w, x) of 06 R234. -/
def acceptNode (i : WalkIn) (w : List (Sym × W32)) (n : Nat) (x : Sym) : Bool :=
  let total := (prefixSums 0#32 (w.map (·.2))).getLastD 0#32
  rankLt (fmul (uniformOf (drawWord i.key i.step 0x01 n 0)) total) (weightOf w x)

/-- The children of a node tested in order: the accepted child if any, the residual weights and the number of tests (06 R234, R242). -/
def testChildren (i : WalkIn) : List Nat → List (Sym × W32) → Nat → Option Nat × List (Sym × W32) × Nat
  | [], w, k => (none, w, k)
  | n :: ns, w, k =>
    let x := i.tree.symbols.getD n 0
    let some_ := rankLt 0#32 (weightOf w x)
    if some_ && acceptNode i w n x then (some n, w, k + 1)
    else testChildren i ns (w.filter (fun p => p.1 != x)) (if some_ then k + 1 else k)

/-- draw(w, purpose 0x02, node v) with the rule for an empty residual (06 R234). -/
def drawAt (i : WalkIn) (full w : List (Sym × W32)) (v : Nat) : Sym :=
  match categorical w (uniformOf (drawWord i.key i.step 0x02 v 0)) with
  | some x => x
  | none => ((full.map (·.1)).getLast?).getD 0

/-- The walk from a node (06 R234, R244). -/
def walkFrom (i : WalkIn) : Nat → Nat → Walk → Walk
  | 0, _, r => r
  | fuel + 1, v, r =>
    if i.masks.getD v 0 = 0 then { r with path := { r.path with noDist := true } }
    else if i.bad.contains v then { r with tarnished := true }
    else match shape i.temp i.topP i.topK (i.rows.getD v []) (i.masks.getD v 0) with
    | none => { r with path := { r.path with noDist := true } }
    | some (full, deg) =>
      let r := { r with shaped := r.shaped + 1, degenerate := r.degenerate + boolNat deg }
      let t := testChildren i ((children i.tree v).filter (fun n => !i.tree.gone.contains n)) full 0
      let r := { r with path := { r.path with tested := r.path.tested + t.2.2 } }
      match t.1 with
      | some n =>
        walkFrom i fuel n { r with path := { r.path with nodes := r.path.nodes ++ [n], out := r.path.out ++ [i.tree.symbols.getD n 0]
                                                         accepted := r.path.accepted + 1 } }
      | none => { r with path := { r.path with out := r.path.out ++ [drawAt i full t.2.1 v], drew := true } }

/-- The walk of a member. -/
def walk (i : WalkIn) : Walk := walkFrom i 16 0 {}

/-- What the walk reads of a member of a step. -/
def walkIn (img : List Byte) (l : Locket) (st : StepRec) (m : Nat) : WalkIn :=
  let t := st.trees.getD m {}
  let idx := fun (n : Nat) => (st.positions.findIdx? (fun p => p.member == m && p.node && p.nodeNum == n)).getD st.positions.length
  let ns := List.range t.parents.length
  { key := l.key, step := l.smp.stepIndex, temp := l.smp.temp, topP := l.smp.topP, topK := l.smp.topK, tree := t
    masks := t.states.map (maskNum img l.stm.grammar), rows := ns.map (fun n => st.logits.getD (idx n) []), bad := ns.filter (fun n => st.tarnRows.contains (idx n)) }

/-! ## Draft levels (06 R229, R230) -/

/-- The draft weights at a node: shaped with the session's TEMP and TOP_K and no TOP_P, with whether step 2 of Table 6-7 occurred (06 R229 item 4). -/
def draftShape (l : Locket) (mask : Nat) (row : List W32) : Option (List (Sym × W32) × Bool) := shape l.smp.temp one32 l.smp.topK row mask

/-- The symbols that the children of a node take from its draft row: as many as the row gives, in TOP or SAMPLED mode (06 R229). -/
def draftSyms (l : Locket) (mask : Nat) (row : List W32) (kids : List Nat) : List Sym :=
  match draftShape l mask row with
  | none => []
  | some (w, _) =>
    if l.smp.draftMode = 0 || l.smp.temp = 0#32 then ((ranked w).take kids.length).map (·.1)
    else
      (kids.foldl (fun (acc : List Sym × List (Sym × W32)) n =>
        match categorical acc.2 (uniformOf (drawWord l.key l.smp.stepIndex 0x03 n 0)) with
        | some x => (acc.1 ++ [x], acc.2.filter (fun p => p.1 != x))
        | none => acc) (([] : List Sym), w)).1

/-- A node and its descendants (06 Table 6-2). -/
def withBelow (t : Tree) (n : Nat) : List Nat := (List.range t.parents.length).filter (fun k => bitAt (t.masks.getD k 0) n)

/-- The children of one node fixed from its draft row; a child without a symbol is gone with its descendants, which keep their numbers until the last
draft run has ended (06 R229, R230, R726). -/
def fixChildren (img : List Byte) (l : Locket) (v : Nat) (row : List W32) (t : Tree) : Tree :=
  let kids := (children t v).filter (fun n => !t.gone.contains n)
  let syms := draftSyms l (maskNum img l.stm.grammar (t.states.getD v none)) row kids
  let t := (kids.zip syms).foldl (fun t e => { t with symbols := t.symbols.set e.1 e.2, open_ := t.open_.filter (· != e.1) }) t
  let lost := ((kids.drop syms.length).map (withBelow t)).flatten
  let t := { t with gone := t.gone ++ lost.filter (fun n => !t.gone.contains n), open_ := t.open_.filter (fun n => !lost.contains n) }
  { t with states := treeStates img l t }

/-- The tree after the last draft run: the nodes that are gone are taken away and the others renumbered in order (06 R726). -/
def settleTree (t : Tree) : Tree := (sortBy (fun a b => b ≤ a) t.gone).foldl dropNode t

end Sys2Proof.Machine
end

