-- ==== Sys2Proof/Machine/Stream.lean ====
section
/-!
DEFINITION. Sys2Proof/Machine/Stream.lean: stream packets, stop strings, holdback, the ends of a stream, the seal, and the commands INGEST, GENERATE and
CANCEL (07 R255 to R279, 08 R289 to R300, 13 R492).
-/
namespace Sys2Proof.Machine

/-! ## The step a session takes part in -/

/-- The frozen step of a session's batch context (08 R289). -/
def stepOf (s : State) (l : Locket) : Option StepRec :=
  if l.state == .bound then (s.eph.ctxs.get? l.context).bind (·.step) else none

/-- An unsealed step includes the session (07 Table 7-13). -/
def unsealedStep (s : State) (h : Nat) (l : Locket) : Option StepRec :=
  (stepOf s l).bind (fun st =>
    if st.sealedAt.isNone && !st.removed.contains l.member && st.rows.any (fun r => r.handle == h && r.active) then some st else none)

/-- The state with the step of a context changed. -/
def State.stepM (s : State) (c : Nat) (f : StepRec → StepRec) : State := s.ctxM c fun x => { x with step := x.step.map f }

/-- A member is removed from the seal of its step (07 R276). -/
def removeFromSeal (s : State) (h : Nat) : State :=
  match s.lockets.get? h with
  | none => s
  | some l => if (unsealedStep s h l).isSome then s.stepM l.context fun st => { st with removed := st.removed ++ [l.member] } else s

/-- The locket is touched (08 R296). -/
def touch (s : State) (h : Nat) : State := s.locketM h fun l => { l with lastTouch := s.now, dirtyControl := true }

/-! ## Packets (07 R267 to R272) -/

/-- A packet's 64-byte header and payload (07 Table 7-12). -/
def packetBytes (l : Locket) (flags status stepIdx now offset held stop : Nat) (payload : List Sym) : List Byte :=
  natLe 8 l.session ++ natLe 8 l.stm.nextSeq ++ natLe 2 (2 * payload.length) ++ natLe 1 flags ++ natLe 1 status ++ natLe 4 l.stm.genTag ++ natLe 8 stepIdx ++
  natLe 8 now ++ natLe 4 offset ++ natLe 4 l.thread.length ++ natLe 1 held ++ natLe 1 stop ++
  natLe 2 (if l.stm.grammar = 0xFFFF then 0xFFFF else l.stm.gstate) ++ zeros 12 ++ symBytes payload

/-- A packet is numbered and handed to the host interface; in REPLAY, packets that the host already holds are numbered only (07 R270, 14 R555). -/
def handPacket (s : State) (h : Nat) (bytes : List Byte) : State :=
  match s.lockets.get? h with
  | none => s
  | some l =>
    let seq := l.stm.nextSeq
    let s := { s with stm := { s.stm with packets := (s.stm.packets + 1) % 2 ^ 64 } }
    let old := l.replay && decide (seq < l.resumeSeq)
    s.locketM h fun l =>
      { l with stm := { l.stm with nextSeq := (seq + 1) % 2 ^ 64 }
               packets := if old then l.packets else l.packets ++ [{ session := l.session, tenant := l.tenant, seq := seq, bytes := bytes, since := s.now }]
               acked := if old then max l.acked (seq + 1) else l.acked
               replay := l.replay && decide (seq + 1 < l.resumeSeq), dirtyControl := true }

/-! ## Ends of a stream (07 R275 to R278, 13 R492) -/

/-- The open stream has ended: its GENERATE completes with EMITTED and DELIVERED, and a GENERATE that waits for a boundary completes ST_CANCELLED
(07 R277, R278). -/
def closeStream (s : State) (h status : Nat) : State :=
  match s.lockets.get? h with
  | none => s
  | some l =>
    let late := l.genWait.filter (fun g => some g.cmd != l.genCmd)
    let s := match l.genCmd with
      | some id => completeId s id status l.stm.emitted l.stm.delivered (l.genStep.getD l.smp.stepIndex)
      | none => s
    let s := late.foldl (fun s g => completeId s g.cmd stCancelled 0 0 l.smp.stepIndex) s
    (touch s h).locketM h fun l =>
      { l with stm := { l.stm with generating := false, lastStatus := status, hold := [] }, genWait := []
               genCmd := none, genStep := none, dirtyControl := true }

/-- An open stream ends outside a seal: one closing packet with the held bytes, none of them when the status is ST_TARNISHED (07 R278, 13 R492). -/
def endStream (s : State) (h status : Nat) : State :=
  match s.lockets.get? h with
  | none => s
  | some l =>
    if !l.stm.generating then s else
    let tarn := status == stTarnished
    let pay := if tarn then [] else l.stm.hold
    let s := handPacket s h (packetBytes l (if tarn then 0x0D else 0x09) status (2 ^ 64 - 1) s.now l.stm.delivered 0 0xFF pay)
    let s := s.locketM h fun l => { l with stm := { l.stm with delivered := l.stm.delivered + pay.length, hold := [] } }
    closeStream s h status

/-- The session of a locket is the consumer of tarnish: it leaves an unsealed step's seal, its stream ends, and the end is counted (13 R492). -/
def tarnishSession (s : State) (h station row : Nat) : State :=
  match s.lockets.get? h with
  | none => s
  | some l =>
    let s := endStream (removeFromSeal s h) h stTarnished
    let s := s.integM fun i => { i with sessionsEnded := wrapInc 32 i.sessionsEnded, tarnishConsumed := wrapInc 32 i.tarnishConsumed }
    logFault (intEvent s 3) 0x03 station 0xFF 0 l.session row

/-! ## Stop strings and holdback (07 R257 to R264) -/

/-- The stop slot keeps Table 7-8 and is valid. -/
def stopSlotOk (b : List Byte) : Bool :=
  let c := fieldAt b 0 1
  let lens := (List.range 8).map (fun i => fieldAt b (8 + i) 1)
  let sum := lens.foldl (· + ·) 0
  fieldAt b 2 1 == 1 && c ≤ 8 && fieldAt b 1 1 ≤ 1 && zeroAt b 3 5 &&
  (List.range 8).all (fun i => if i < c then 1 ≤ lens.getD i 0 && lens.getD i 0 ≤ 32 else lens.getD i 0 == 0) && sum ≤ 240 && zeroAt b (16 + sum) (240 - sum)

/-- The stop strings of a stream's copy of the slot, as symbols in index order. -/
def stopStrings (m : StreamState) : List (List Sym) :=
  ((List.range m.stopCount).foldl (fun (acc : List (List Sym) × Nat) i =>
    let n := fieldAt m.stops (8 + i) 1
    (acc.1 ++ [(bytesAt m.stops acc.2 n).map (·.toNat)], acc.2 + n)) (([] : List (List Sym)), 16)).1

/-- The last n symbols of a list. -/
def lastN (n : Nat) (xs : List Sym) : List Sym := xs.drop (xs.length - n)

/-- The stop string that completes at the end of E: the longest, ties to the lower index (07 R260). -/
def stopAt (stops : List (List Sym)) (e : List Sym) : Option (Nat × Nat) :=
  (stops.zipIdx).foldl (fun b x =>
    if x.1.length ≤ e.length && lastN x.1.length e == x.1 then
      (match b with
       | some (n, _) => if n < x.1.length then some (x.1.length, x.2) else b
       | none => some (x.1.length, x.2))
    else b) none

/-- The longest suffix of E that is a proper prefix of a stop string (07 R262). -/
def holdStop (stops : List (List Sym)) (e : List Sym) : Nat :=
  ((List.range 32).filter (fun n => n ≤ e.length && stops.any (fun x => n < x.length && x.take n == lastN n e))).foldl max 0

/-- A symbol lies in a range. -/
def symIn (x lo hi : Nat) : Bool := lo ≤ x && x ≤ hi

/-- The second byte of a UTF-8 sequence may follow the first (07 Table 7-9). -/
def utf8Second (a b : Sym) : Bool :=
  if symIn a 0xC2 0xDF then symIn b 0x80 0xBF else if a == 0xE0 then symIn b 0xA0 0xBF else if a == 0xED then symIn b 0x80 0x9F
  else if symIn a 0xE1 0xEF then symIn b 0x80 0xBF else if a == 0xF0 then symIn b 0x90 0xBF else if symIn a 0xF1 0xF3 then symIn b 0x80 0xBF
  else a == 0xF4 && symIn b 0x80 0x8F

/-- A list is a proper prefix of a well-formed UTF-8 sequence (07 R262, Table 7-9). -/
def utf8Prefix : List Sym → Bool
  | [a] => symIn a 0xC2 0xF4
  | [a, b] => symIn a 0xE0 0xF4 && utf8Second a b
  | [a, b, c] => symIn a 0xF0 0xF4 && utf8Second a b && symIn c 0x80 0xBF
  | _ => false

/-- The longest suffix of E that begins a UTF-8 sequence not yet finished (07 R262). -/
def holdUtf8 (e : List Sym) : Nat := ([1, 2, 3].filter (fun n => n ≤ e.length && utf8Prefix (lastN n e))).foldl max 0

/-- A scan of out (07 R255): kept symbols, the end of E from the hold on, and the event that ended it as (status, stop length, stop index). -/
structure Scan where
  kept : List Sym := []
  tail : List Sym := []
  emitted : Nat := 0
  ended : Option (Nat × Nat × Nat) := none
deriving DecidableEq, Repr

/-- The scan of out under Table 7-6 (07 R255). -/
def scanOut (stops : List (List Sym)) (maxSyms : Nat) : List Sym → Scan → Scan
  | [], r => r
  | x :: xs, r =>
    let r := { r with kept := r.kept ++ [x], tail := r.tail ++ [x], emitted := r.emitted + 1 }
    if x = 0x2101 then { r with ended := some (stOk, 0, 0xFF) }
    else match stopAt stops r.tail with
      | some (n, i) => { r with ended := some (stOk, n, i) }
      | none => if maxSyms != 0 && maxSyms ≤ r.emitted then { r with ended := some (stOk, 0, 0xFF) } else scanOut stops maxSyms xs r

/-! ## Sealing (07 R273, 06 R242) -/

/-- Grammar state after the kept symbols (07 R254). -/
def grammarAfter (img : List Byte) (m : StreamState) (kept : List Sym) : Nat :=
  if m.grammar = 0xFFFF then m.gstate else kept.foldl (fun q x => (gramNext img m.grammar q x).getD q) m.gstate

/-- The sampler state after a seal with a path (06 R221, R242). -/
def samplerAfter (m : SamplerState) (width : Nat) (p : Path) : SamplerState :=
  { m with stepIndex := (m.stepIndex + 1) % 2 ^ 64
           accAvg := if 2 ≤ width then m.accAvg - m.accAvg / 8 + 32 * p.accepted else m.accAvg
           drafted := m.drafted + p.tested, accepted := m.accepted + p.accepted, genSteps := m.genSteps + boolNat p.drew }

/-- The device counters of a sealed path (06 R242). -/
def countSeal (s : State) (width : Nat) (p : Path) : State :=
  { s with smp := { s.smp with drafted := (s.smp.drafted + p.tested) % 2 ^ 64, accepted := (s.smp.accepted + p.accepted) % 2 ^ 64
                               rootOnly := if 2 ≤ width && p.accepted = 0 then wrapInc 32 s.smp.rootOnly else s.smp.rootOnly } }

/-- Late-packet accounting of a tenant (10 Table 10-12). -/
def countLate (s : State) (t : Nat) : State :=
  let s := s.ephM fun e => { e with accounts := e.accounts.set t (let a := e.accounts.getD t {}; { a with latePackets := satInc a.latePackets (2 ^ 32 - 1) }) }
  { s with stm := { s.stm with evLate := true, late := wrapInc 32 s.stm.late } }

/-- The seal of one generating member (07 R255 to R272, 06 R242). -/
def sealMember (s : State) (c : Nat) (st : StepRec) (row : LenRow) (p : Path) : State :=
  match s.lockets.get? row.handle with
  | none => s
  | some l =>
    let img := locketImg s l
    let stops := stopStrings l.stm
    let r := scanOut stops l.stm.maxSymbols p.out { tail := l.stm.hold, emitted := l.stm.emitted }
    let ended := r.ended.or (if p.noDist then some (stGrammarEmpty, 0, 0xFF) else none)
    let cut := match ended with | some (_, n, _) => if l.stm.includeStop then 0 else n | none => 0
    let held := match ended with
      | some _ => 0
      | none => max (holdStop stops r.tail) (if l.stm.utf8Hold then holdUtf8 r.tail else 0)
    let pay := r.tail.take (r.tail.length - cut - held)
    let late := decide (st.deadline < s.now)
    let q := grammarAfter img l.stm r.kept
    let l1 := { l with thread := l.thread ++ r.kept, smp := samplerAfter l.smp row.width p, lastTouch := s.now, lastSeal := s.now
                       stm := { l.stm with emitted := r.emitted, gstate := q, hold := lastN held r.tail }, dirtyControl := true }
    let status := match ended with | some (x, _, _) => x | none => if late then stLate else stOk
    let flags := maskOf [ended.isSome, late]
    let stop := match ended with | some (_, _, i) => i | none => 0xFF
    let bytes := packetBytes l1 flags status l.smp.stepIndex s.now l.stm.delivered held stop pay
    let s := countSeal (s.locketM row.handle fun _ => l1) row.width p
    let s := handPacket s row.handle bytes
    let s := s.locketM row.handle fun l => { l with stm := { l.stm with delivered := l.stm.delivered + pay.length } }
    let s := s.stepM c fun st => { st with committed := st.committed.set row.member r.kept.length }
    let s := if late then countLate s l.tenant else s
    let s := if p.noDist && status == stGrammarEmpty then { s with fil := { s.fil with evEmpty := true, empty := wrapInc 32 s.fil.empty } } else s
    let s := if stop != 0xFF then { s with stm := { s.stm with stops := wrapInc 32 s.stm.stops } } else s
    if ended.isSome then closeStream s row.handle status else s

/-- A member that takes part in the seal without generating: its step index advances and it is touched (02 R74, 06 R242, 08 R296). -/
def sealListener (s : State) (row : LenRow) : State :=
  s.locketM row.handle fun l => { l with smp := { l.smp with stepIndex := (l.smp.stepIndex + 1) % 2 ^ 64 }, lastTouch := s.now, lastSeal := s.now, dirtyControl := true }

/-- The seal of one row of the length table (07 R273). -/
def sealRow (c : Nat) (s : State) (row : LenRow) : State :=
  match (s.eph.ctxs.get? c).bind (·.step) with
  | none => s
  | some st =>
    if !row.active || st.removed.contains row.member then s
    else match (if row.gen && row.width != 0 then (st.paths.getD []).get? row.member else none) with
      | some p => sealMember s c st row p
      | none => sealListener s row

/-- The BARGE or INGEST symbols of a session wait while a step is in progress, and enter the thread at once otherwise (08 R289). -/
def appendInput (s : State) (h : Nat) (cmd : Nat) (syms : List Sym) : State :=
  s.locketM h fun l =>
    { l with thread := if (stepOf s l).isSome then l.thread else l.thread ++ syms
             pending := if (stepOf s l).isSome then l.pending ++ syms else l.pending
             pendingCmds := if l.state == .bound then l.pendingCmds ++ [(cmd, syms.length)] else l.pendingCmds, dirtyControl := true }

/-- A BARGE is appended unless the thread with its pending input is full; whether it was (07 R279). -/
def bargeIn (s : State) (h : Nat) : State × Bool :=
  match s.lockets.get? h with
  | none => (s, false)
  | some l =>
    if imgMaxThread (locketImg s l) ≤ l.thread.length + l.pending.length then (s, false) else (appendInput s h 0 [0x2102], true)

/-- The outcome of a CANCEL on a locket: its result words' parts (status, DISCARDED, BARGE_APPLIED) (07 Table 7-13, R279). -/
def cancelOn (s : State) (h : Nat) (barge : Bool) : State × Nat × Bool × Bool :=
  match s.lockets.get? h with
  | none => (s, stUnknown, false, false)
  | some l =>
    let gen := l.stm.generating
    let disc := gen && (unsealedStep s h l).isSome
    let s := if disc then removeFromSeal s h else s
    let s := if gen then endStream s h stCancelled else s
    let s := { s with stm :=
      { s.stm with evCancelBefore := s.stm.evCancelBefore || disc, cancelBefore := if disc then wrapInc 32 s.stm.cancelBefore else s.stm.cancelBefore } }
    let b := if barge then bargeIn s h else (s, false)
    (b.1, if gen then stCancelled else stAlready, disc, b.2)

/-- Replay-log CANCELs that act before the seal of the member's step (14 R555). -/
def replayCancels (s : State) (h : Nat) : State :=
  match s.lockets.get? h with
  | none => s
  | some l =>
    if !l.replay then s else
    let mine := (s.ckpt.replay.getD h []).filter (fun e => e.kind == 3 && e.beforeSeal && e.atStep == l.smp.stepIndex)
    let s := mine.foldl (fun s e => (cancelOn s h (bitAt (fieldAt e.data 1 1) 4)).1) s
    s.ckptM fun k => { k with replay := k.replay.upd h (fun es => es.filter (fun e => !mine.contains e)) }

/-- The seal of a context's step at this tick (07 R273, 01 R42). -/
def sealStep (s : State) (c : Nat) (st : StepRec) : State :=
  let s := st.rows.foldl (fun s r => if r.active then replayCancels s r.handle else s) s
  let s := st.rows.foldl (sealRow c) s
  let s := { s with stm := { s.stm with sealTick := s.now, ctx := c } }
  let s := s.ephM fun e => { e with slack := (st.deadline : Int) - s.now }
  let s := s.stepM c fun st => { st with sealedAt := some s.now }
  let s := if st.deadline < s.now then ephEvent (s.ephM fun e => { e with lateSteps := wrapInc 32 e.lateSteps }) 0 else s
  s.ctxM c fun x => { x with seals := (x.seals + 1) % 2 ^ 64 }

/-- The lowest context whose step has its paths fixed and is not sealed. -/
def sealable (s : State) : Option (Nat × StepRec) :=
  s.eph.ctxs.findSome? (fun e => e.2.step.bind (fun st => if st.paths.isSome && st.sealedAt.isNone then some (e.1, st) else none))

/-- STEP_SEAL (07 R273). -/
def execStepSeal (s : State) : Out :=
  match sealable s with
  | none => .next s
  | some (c, st) => when (s.stm.enable && serving s && s.lan.refclk && !s.lan.stopped && !orreryLost s && s.integ.mode != .quarantined) s (sealStep s c st)

/-! ## PATHS_FIXED and draft runs (06 R229, R234, R244) -/

/-- A step whose logit rows have all arrived and whose paths are not fixed. -/
def walkable (s : State) : Option (Nat × StepRec) :=
  s.eph.ctxs.findSome? (fun e => e.2.step.bind (fun st => if st.rowsAt.isSome && st.paths.isNone then some (e.1, st) else none))

/-- The walk of one member, its counters and, where it read a tarnished row, the session's end (06 R234, R244); a member whose node 0 is gone takes its
input positions alone, and its GENERATE completes ST_NO_ROOM (05 R186). -/
def walkMember (c : Nat) (st : StepRec) (s : State) (row : LenRow) : State :=
  if !(row.active && row.gen && row.width != 0) || st.removed.contains row.member then s else
  match s.lockets.get? row.handle with
  | none => s
  | some l =>
    let w := walk (walkIn (locketImg s l) l st row.member)
    let s := { s with smp := { s.smp with ctx := c, member := row.member, rows := (s.smp.rows + w.shaped) % 2 ^ 64, evDegenerate := s.smp.evDegenerate || w.degenerate != 0
                                          degenerate := (s.smp.degenerate + w.degenerate) % 2 ^ 32, evRowTarnish := s.smp.evRowTarnish || w.tarnished } }
    if (st.trees.getD row.member {}).gone.contains 0 then endStream s row.handle stNoRoom
    else if w.tarnished then tarnishSession s row.handle 0xB2 3
    else s.stepM c fun st => { st with paths := st.paths.map (fun t => t.set row.member w.path) }

/-- PATHS_FIXED (06 R234 to R244). -/
def execPathsFixed (s : State) : Out :=
  clocked s (
  match walkable s with
  | none => .next s
  | some (c, st) =>
    when s.smp.enable s (
      let s := s.stepM c fun st => { st with paths := some [] }
      let s := st.rows.foldl (walkMember c st) s
      { s with smp := { s.smp with lastFix := (s.now - st.rowsAt.getD s.now) % 2 ^ 16 } }))

/-- Nodes of a draft level that have children: (member, node), in ascending member and node (06 R229). -/
def levelNodes (st : StepRec) (d : Nat) : List (Nat × Nat) :=
  (st.trees.map (fun e => ((List.range e.2.parents.length).filter (fun n =>
    nodeDepth e.2 n == d && !e.2.gone.contains n && (children e.2 n).any e.2.open_.contains)).map (fun n => (e.1, n)))).flatten

/-- A step that waits for a draft run. -/
def drafting (s : State) : Option (Nat × StepRec × Nat) :=
  s.eph.ctxs.findSome? (fun e => e.2.step.bind (fun st => st.draftLevel.map (fun d => (e.1, st, d))))

/-- The rows of a draft run fix the children of its level (06 R229, R230). -/
def fixLevel (s : State) (st : StepRec) (rows : List ((Nat × Nat) × List W32)) : Tab Tree :=
  rows.foldl (fun ts r =>
    match (st.rows.find? (fun x => x.member == r.1.1)).bind (fun x => s.lockets.get? x.handle) with
    | none => ts
    | some l => ts.upd r.1.1 (fixChildren (locketImg s l) l r.1.2 r.2)) st.trees

/-- Draft rows of a level that the sampler shapes, and those among them that step 2 of Table 6-7 shapes (06 R229, R232). -/
def levelShapes (s : State) (st : StepRec) (rows : List ((Nat × Nat) × List W32)) : Nat × Nat :=
  let marks := rows.filterMap (fun r =>
    ((st.rows.find? (fun x => x.member == r.1.1)).bind (fun x => s.lockets.get? x.handle)).bind (fun l =>
      (draftShape l (maskNum (locketImg s l) l.stm.grammar ((st.trees.getD r.1.1 {}).states.getD r.1.2 none)) r.2).map (·.2)))
  (marks.length, (marks.filter id).length)

/-- The rows of the length table and the position list follow the trees' widths (06 R222, R230). -/
def rowWidths (st : StepRec) (trees : Tab Tree) : List LenRow :=
  st.rows.map (fun r => match trees.get? r.member with | some t => { r with width := t.parents.length } | none => r)

end Sys2Proof.Machine
end

