-- ==== Sys2Proof/Machine/Parked.lean ====
section
/-!
DEFINITION. Sys2Proof/Machine/Parked.lean: the extents of lockets and charms as bytes and back: header, control page or charm record, thread, bitmap
and pages, digest and encryption (08 R308 to R312).
-/
namespace Sys2Proof.Machine

/-- The 4 KiB units of a byte list. -/
def unitsGo : Nat → List Byte → List (List Byte)
  | 0, _ => []
  | n + 1, b => padTo 4096 b :: unitsGo n (b.drop 4096)

/-- A byte list cut into 4 KiB units. -/
def unitsOf (b : List Byte) : List (List Byte) := unitsGo (ceilDiv b.length 4096) b

/-- Units 1 onward encrypted or decrypted, each with the tweak of its place (08 R311). -/
def cryptUnits (enc : Bool) (key : List Byte) (ext : Nat) (plain : List Byte) : List Byte :=
  (((unitsOf plain).zipIdx).map (fun u => xtsUnit enc key (ext * 2 ^ 64 + u.2 + 1) u.1)).flatten

/-- A header's fields (08 Table 8-9). -/
structure ExtHead where
  charm : Bool := false
  kv : Bool := true
  keySlot : Option Nat := none
  tenant : Nat := 0
  fp : Nat := 0
  threadUnits : Nat := 0
  id : Nat := 0
  units : Nat := 0
  pages : Nat := 0
  ttl3 : Nat := 0
  session : Nat := 0
  digest : List Byte := []
deriving DecidableEq, Repr

/-- Unit 0 of an extent (08 Table 8-9). -/
def headBytes (h : ExtHead) : List Byte :=
  padTo 4096 (ascii (if h.charm then "CL9CHARM" else "CL9LOCKT") ++ natLe 2 1 ++ natLe 1 (maskOf [h.keySlot.isSome, h.kv]) ++ natLe 1 (h.keySlot.getD 0xFF) ++
    natLe 2 h.tenant ++ zeros 2 ++ natLe 4 h.fp ++ natLe 4 h.threadUnits ++ natLe 8 h.id ++ natLe 8 h.units ++ natLe 4 h.pages ++ natLe 4 h.ttl3 ++
    natLe 8 h.session ++ zeros 8 ++ padTo 32 h.digest)

/-- A header read from unit 0; none when it is not well-formed of its kind (08 Table 8-9, Table 8-7 code 0x16). -/
def readHead (charm : Bool) (u : List Byte) : Option ExtHead :=
  let enc := bitAt (fieldAt u 10 1) 0
  let slot := fieldAt u 11 1
  if u.take 8 == ascii (if charm then "CL9CHARM" else "CL9LOCKT") && fieldAt u 8 2 == 1 && fieldAt u 10 1 < 4 && fieldAt u 12 2 < 1024 &&
      zeroAt u 14 2 && zeroAt u 56 8 && zeroAt u 96 4000 && (if enc then slot < 2 else slot == 0xFF) then
    some { charm := charm, kv := bitAt (fieldAt u 10 1) 1, keySlot := if enc then some slot else none, tenant := fieldAt u 12 2, fp := fieldAt u 16 4
           threadUnits := fieldAt u 20 4, id := fieldAt u 24 8, units := fieldAt u 32 8, pages := fieldAt u 40 4, ttl3 := fieldAt u 44 4
           session := fieldAt u 48 8, digest := bytesAt u 64 32 }
  else none

/-- The tenant's key that an extent's header names: none when the slot does not hold it (08 Table 8-7 code 0x10). -/
def headKey (s : State) (h : ExtHead) : Option (List Byte) :=
  match h.keySlot with
  | none => none
  | some n => ((s.keys.getD h.tenant {}).slot n).bind (fun k => if keyFp k == h.fp then some k else none)

/-- The plaintext of units 1 onward; none when its key is missing. -/
def plainOf (s : State) (h : ExtHead) (data : List Byte) : Option (List Byte) :=
  let body := data.drop 4096
  match h.keySlot with
  | none => some body
  | some _ => (headKey s h).map (fun k => cryptUnits false k h.id body)

/-- The digest over the plaintext of units 1 onward, a tarnished codeword counted as 16 zero bytes (08 R308, 13 R489). -/
def bodyDigest (tarn : List Nat) (plain : List Byte) : List Byte := sha256 (blankTarnish 256 tarn plain)

/-- The presence bitmap and the pages of a set of VPNs (08 Table 8-10). -/
def kvUnits (pages : List (Nat × List Byte)) : List Byte :=
  natLe 24576 (pages.foldl (fun a p => a + 2 ^ p.1) 0) ++ (pages.map (fun p => padTo 65536 p.2)).flatten

/-- Units of an extent with a thread of n symbols and a number of pages (08 Table 8-10). -/
def extUnits (n pages : Nat) (kv : Bool) : Nat := 2 + ceilDiv (2 * n) 4096 + (if kv then 6 + 16 * pages else 0)

/-- The key of a header's slot, where the tenant holds one. -/
def slotKey (s : State) (h : ExtHead) : Option (List Byte) := h.keySlot.bind (fun n => (s.keys.getD h.tenant {}).slot n)

/-- A unit from 1 on as it is stored: on T3 its tarnished codewords give zero bytes, and under a key it is encrypted with its tweak (08 R311; 09 R342). -/
def storedBody (s : State) (h : ExtHead) (tier u : Nat) (b : List Byte) (tarn : List Nat) : List Byte :=
  let b := if tier = 3 then blankTarnish 0 tarn b else b
  match slotKey s h with
  | some k => xtsUnit true k (h.id * 2 ^ 64 + u) b
  | none => b

/-- Unit 0 as it is stored, after the others: with the digest over their plaintext (08 R308, R309; 09 R341). -/
def storedHead (s : State) (h : ExtHead) (e : Extent) : List Byte :=
  let body := e.data.drop 4096
  let plain := match slotKey s h with | some k => cryptUnits false k h.id body | none => body
  headBytes { h with digest := bodyDigest e.tarnish plain, fp := ((slotKey s h).map keyFp).getD 0, units := e.units }

/-- The VPNs that a bitmap marks, ascending. -/
def bitmapVpns (plain : List Byte) (off : Nat) : List Nat :=
  let m := fieldAt plain off 24576
  (List.range 196608).filter (bitAt m)

/-- The pages of an extent's plaintext, by VPN. -/
def pagesIn (h : ExtHead) (plain : List Byte) : List (Nat × List Byte) :=
  if !h.kv then [] else
  let o := 4096 * (1 + h.threadUnits)
  ((bitmapVpns plain o).zipIdx).map (fun e => (e.1, bytesAt plain (o + 24576 + 65536 * e.2) 65536))

/-- Tarnished codewords of an extent that a run of T1 bytes gives, when it is stored from a byte of the extent on. -/
def carryTarnish (s : State) (a n at_ : Nat) : List Nat :=
  (s.integ.tarnishT1.filter (fun c => a ≤ 16 * c && 16 * c + 16 ≤ a + n)).map (fun c => (16 * c - a + at_) / 16)

/-- The own-region pages of a locket as stored: VPN, bytes, and T1 address. -/
def lockPages (s : State) (l : Locket) : List (Nat × List Byte × Nat) :=
  (presentOwn l).map (fun e => let a := frameAddr s e.2.stack e.2.frame; (e.1, s.t1.readN a 65536, a))

/-- A locket in T1 as the plaintext of its extent, with the tarnish it carries (08 R286, R298). -/
def lockPlain (s : State) (h : Nat) (l : Locket) : List Byte × List Nat :=
  let kv := !l.dropped
  let pages := if kv then lockPages s l else []
  let thr := padUnits (symBytes l.thread)
  let base := 8192 + thr.length + 24576
  (padTo 4096 (controlPage h l) ++ thr ++ (if kv then kvUnits (pages.map (fun p => (p.1, p.2.1))) else []),
   ((pages.zipIdx).map (fun e => carryTarnish s e.1.2.2 65536 (base + 65536 * e.2))).flatten)

/-- A locket's parts read from the plaintext of its extent (08 Tables 8-2, 8-3, 5-3, 6-3, 7-10). -/
def warmFrom (l : Locket) (h : ExtHead) (plain : List Byte) : Locket :=
  let p := plain.take 4096
  let st := readStream (bytesAt p 384 384)
  { l with key := fieldAt p 8 8, parureHash := beNat (bytesAt p 16 32), facetHash := beNat (bytesAt p 48 32), charmDigest := beNat (bytesAt p 80 32)
           base := fieldAt p 136 4, gbase := fieldAt p 140 4, charmLen := fieldAt p 144 4, charmGlen := fieldAt p 148 4
           smp := readSampler (bytesAt p 256 64), draft := bytesAt p 320 64, stm := { st with generating := false }, stopSlot := bytesAt p 768 256
           thread := readSyms (fieldAt p 112 4) (bytesAt plain 4096 (4096 * h.threadUnits)), acked := st.nextSeq, dropped := !h.kv }

/-- A locket as its directory entry alone, with the names of its parure, facet and charm (08 R286). -/
def coldLocket (l : Locket) : Locket :=
  { session := l.session, tenant := l.tenant, state := l.state, encrypted := l.encrypted, demoteBlocked := l.demoteBlocked, adopted := l.adopted
    kvAbsent := l.kvAbsent, extent := l.extent, lastTouch := l.lastTouch, ttl1 := l.ttl1, ttl2 := l.ttl2, ttl3 := l.ttl3, bay := l.bay, pins := l.pins
    units := l.units, lastClose := l.lastClose, parureHash := l.parureHash, facetHash := l.facetHash, charmDigest := l.charmDigest, closing := l.closing, dirtyControl := true }

/-- The plaintext and tarnish of the extent that a locket stands in; none when its key is missing or its header is not well-formed. -/
def sourcePlain (s : State) (l : Locket) : Option (ExtHead × List Byte × List Nat) :=
  (s.extents.get? l.extent).bind (fun e =>
    (readHead false (e.data.take 4096)).bind (fun h => (plainOf s h e.data).map (fun p => (h, p, e.tarnish))))

/-- The header of a demotion's new extent, the plaintext of its units from 1 on and the tarnish among them: from T1, or from the T2 extent (08 R299, R308,
R310). -/
def demotionPlain (s : State) (h : Nat) (l : Locket) (m : TierMove) : Option (ExtHead × List Byte × List Nat) :=
  let head : ExtHead := { keySlot := m.keySlot, tenant := l.tenant, id := m.extent, ttl3 := l.ttl3, session := l.session }
  if m.src = 1 then
    let p := lockPlain s h l
    some ({ head with kv := !l.dropped, threadUnits := ceilDiv (2 * l.thread.length) 4096, pages := if l.dropped then 0 else (presentOwn l).length }, p)
  else (sourcePlain s l).map (fun x => ({ head with kv := x.1.kv, threadUnits := x.1.threadUnits, pages := x.1.pages }, x.2))

end Sys2Proof.Machine
end

