-- ==== Sys2Proof/Machine/Lockets.lean ====
section
/-!
DEFINITION. Sys2Proof/Machine/Lockets.lean: sessions: opening and closing, INGEST, GENERATE and CANCEL, parking and revival, and times to live
(08 R282 to R312, 07 R266 to R279).
-/
namespace Sys2Proof.Machine

/-! ## The frame of a session command -/

/-- The locket that a session handle names for a tenant (08 R282, R284). -/
def findSession (s : State) (t session : Nat) : Option (Nat × Locket) := s.lockets.find? (fun e => e.2.session == session && e.2.tenant == t)

/-- A SESSION_OPEN still copies the charm's ring: the locket is not yet OPEN (08 R294). -/
def opening (l : Locket) : Bool := match l.move with | some m => l.state == .opened && m.src == 0 | none => false

/-- A command event that the locket's state does not list (08 R290, R291). -/
def stateRefuse (s : State) (c : HCmd) (l : Locket) : State :=
  match l.state with
  | .demoting | .promoting | .bound => complete s c stBusy 0 (locketCode l.state) 0
  | .expired => complete s c stExpired 0 0 0
  | _ => complete s c stInvalid 0 (locketCode l.state) 0

/-- A command that names a session: the handle, an unusable or replaying session, and the touch (08 R284, R296; 13 R494; 14 R555). -/
def sessionCmd (s : State) (id op : Nat) (k : State → HCmd → Nat → Locket → State) : Out :=
  match findCmd s id with
  | none => .next s
  | some c0 =>
    if ((findSession s c0.tenant c0.handle).map (fun e => opening e.2)).getD false then .next s else
    hostCmd s id op fun s c =>
      match findSession s c.tenant c.handle with
      | none => complete s c stUnknown 0 0 0
      | some (h, l) =>
        let s := s.locketM h fun l => { l with lastTouch := max l.lastTouch c.accept, dirtyControl := true }
        if l.unusable && op != 0x21 then complete s c stTarnished 0 0 0
        else if (l.replay && !(op == 0x31 || op == 0x32 || op == 0x21)) || l.closing.isSome then complete s c stBusy 0 0 0
        else k s c h { l with lastTouch := max l.lastTouch c.accept, dirtyControl := true }

/-- A demotion that has not committed is abandoned: the source copy governs again, the locket is touched as it enters its source state, and a PARK completes
ST_CANCELLED (08 R296, R300). -/
def abandonDemotion (s : State) (h status : Nat) : State :=
  match s.lockets.get? h with
  | none => s
  | some l =>
    match (if l.state == .demoting then l.move else none) with
    | none => s
    | some m =>
      let s := abandonFor s (fun p => p == .demote h)
      let s := dropExtent s m.extent
      let s := s.locketM h fun l => { l with state := if m.src = 1 then .opened else .parkedT2, dst := 0, move := none
                                             bay := 0xFF, lastTouch := s.now, dirtyControl := true }
      match m.cmd with
      | some id => completeId s id status 0 0 0
      | none => s

/-- A pin is taken on a locket; it ends a demotion (08 R297, R300). -/
def takePin (s : State) (h id : Nat) : State :=
  (abandonDemotion s h stCancelled).locketM h fun l => { l with pins := if l.pins.contains id then l.pins else l.pins ++ [id] }

/-! ## Opening (08 R293, R294) -/

/-- The stack with the most free pool pages, ties to the lower (05 R175). -/
def homeStack (s : State) : Nat := (List.range 8).foldl (fun b k => if freePages s b < freePages s k then k else b) 0

/-- Arena bytes of a locket: the footprint and the retention area of D + 1 packets (08 R288, 15 R589). -/
def locketArena (s : State) (t : Nat) (img : List Byte) : Nat := footprintOf img + (dlvDepth s t + 1) * 512

/-- The charm of a tenant that a handle names; an orphaned charm cannot be attached (08 R313, 09 R374). -/
def charmNamed (s : State) (t name : Nat) : Option (Nat × Charm) := s.charms.find? (fun e => e.2.tenant == t && e.2.names.contains name)

/-- What SESSION_OPEN has found: parure slot and parure, facet hash, charm. -/
structure OpenPlan where
  slot : Nat
  parure : Parure
  facet : Nat := 0
  charm : Option (Nat × Charm) := none
deriving DecidableEq, Repr

/-- Checks 1 to 7 of SESSION_OPEN (08 Table 8-6). -/
def openCheck (s : State) (c : HCmd) : Nat ⊕ OpenPlan :=
  if c.handle = 0 || s.lockets.any (fun e => e.2.session == c.handle) then .inl stInvalid else
  match parureHandle s (c.fld 16 8) with
  | none => .inl stUnknown
  | some (slot, p) =>
    if p.state != .loaded then .inl stUnknown
    else if imgDraft p.header then .inl stInvalid
    else
      let fh := c.fld 32 8
      match (if fh = 0 then some 0 else (s.facets.find? (fun f => f.handle == fh && f.tenant == c.tenant && f.slot == slot)).map (·.hash)) with
      | none => .inl stUnknown
      | some facet =>
        let ch := c.fld 40 8
        match (if ch = 0 then some none else (charmNamed s c.tenant ch).bind (fun e => if e.2.orphaned || e.2.cmd.isSome then none else some (some e))) with
        | none => .inl stUnknown
        | some charm =>
          if (match charm with
              | some (_, m) => m.parureHash != p.hash || m.facetHash != facet || imgMaxThread p.image ≤ m.symbols.length
              | none => false) then .inl stInvalid
          else if s.lan.config.locketMax ≤ s.lockets.length then .inl stNoRoom
          else .inr { slot := slot, parure := p, facet := facet, charm := charm }

/-- A new OPEN locket; a charm's open patch stands as at the charm's end (04 R140; 08 R294; Tables 6-3, 7-10). -/
def freshLocket (s : State) (c : HCmd) (o : OpenPlan) (home page : Nat) : Locket :=
  let img := o.parure.image
  let cl := match o.charm with | some (_, m) => m.symbols.length | none => 0
  let cg := match o.charm with | some (_, m) => if imgTwoRate img then m.glen else m.symbols.length | none => 0
  { session := c.handle, tenant := c.tenant, state := .opened, page := page, lastTouch := s.now, ttl1 := c.fld 48 4, ttl2 := c.fld 52 4, ttl3 := c.fld 56 4
    key := c.fld 24 8, parureHash := o.parure.hash, facetHash := o.facet, charmDigest := (o.charm.map (·.2.digest)).getD 0
    thread := (o.charm.map (·.2.symbols)).getD [], threadAddr := threadPlace img page, slot := o.slot, home := home, base := cl, gbase := cg, charmLen := cl
    charmGlen := cg, charmTable := (o.charm.map (fun e => replicaId e.1 home)).getD 0, lastSeal := s.now, footprint := locketArena s c.tenant img
    lastClose := (o.charm.map (·.2.lastClose)).getD (some 0), smp := { wMax := min 8 o.parure.widthCap } }

/-- Pages become PRESENT in fresh, cleared frames of the home stack. -/
def presentPages (s : State) (h home : Nat) (vpns fs : List Nat) : State :=
  let s := { s with t1 := fs.foldl (fun m f => m.clear (frameAddr s home f) (frameAddr s home f + 65536)) s.t1 }
  s.locketM h fun l =>
    { l with ptes := (vpns.zip fs).foldl (fun t e => t.set e.1 { state := .present, stack := home, frame := e.2 }) l.ptes }

/-- The completion of SESSION_OPEN (08 R294). -/
def opened (s : State) (h id : Nat) : State :=
  match s.lockets.get? h with
  | none => s
  | some l =>
    let s := s.locketM h fun l => { l with move := none, lastTouch := s.now, lastSeal := s.now, dirtyControl := true }
    completeId s id stOk h (l.page / 4096) 0

/-- The stack whose replica a local-ring copy reads: the home stack's when PRESENT, otherwise the anchor's when the charm has no master (08 R294). -/
def ringSource (m : Charm) (home : Nat) : Option Nat :=
  let st := fun k => (m.replicas.getD k {}).state
  if st home == .present || st home == .evicting then some home else if m.master = 0 then some m.anchor else none

/-- SESSION_OPEN (08 R293, R294). -/
def openStart (s : State) (c : HCmd) : State :=
  match openCheck s c with
  | .inl st => complete s c st 0 0 0
  | .inr o =>
    let img := o.parure.image
    let home := homeStack s
    let vp := match o.charm with | some (_, m) => ringPages img m.symbols.length | none => []
    let h := (s.lockets.freshFrom (s.lockets.length + 1) 0).getD 0
    match arenaFit s home (locketArena s c.tenant img) with
    | none => complete s c stNoRoom 0 0 0
    | some page =>
      match takeFrames s home vp.length (.inUse h) with
      | (s, none) => complete s c stNoRoom 0 0 0
      | (s, some fs) =>
        let s := { s with lockets := s.lockets.set h (freshLocket s c o home page) }
        let s := presentPages s h home vp fs
        match o.charm with
        | none => opened s h c.id
        | some (ci, m) =>
          if ringBytes img m.symbols.length = 0 then opened s h c.id else
          let s := match ringSource m home with | some st => pinReplica s ci st (pinCmd c.id) | none => s
          let s := s.locketM h fun l => { l with move := some { src := 0, cmd := some c.id } }
          submit s { cookie := 0, op := 1, tenant := c.tenant, units := ceilDiv (ringBytes img m.symbols.length) 4096
                     dstList := List.replicate (max 1 (ceilDiv (ringBytes img m.symbols.length) 4096)) zeroUnit, purpose := .ring h }

/-- SESSION_OPEN. -/
def execSessionOpen (id : Nat) (s : State) : Out := hostCmd s id 0x20 openStart

/-- The pages of a charm's master extent, by VPN (08 Table 8-10). -/
def masterPages (s : State) (m : Charm) : List (Nat × List Byte) :=
  ((s.extents.get? m.extent).bind (fun e =>
    (readHead true (e.data.take 4096)).bind (fun h => (plainOf s h e.data).map (fun p => pagesIn h p)))).getD []

/-- Bytes of a charm's region, from the replica of a stack or from the master. -/
def charmBytes (s : State) (img : List Byte) (m : Charm) (src : Option Nat) (loc : Bool) (x n : Nat) : List Byte :=
  match src with
  | some st => replicaRead s img m st loc x n
  | none =>
    let pg := masterPages s m
    (List.range n).map (fun i => (((pg.find? (fun p => p.1 == (if loc then 0x20000 else 0) + (x + i) / 65536)).map (·.2)).getD []).getD ((x + i) % 65536) 0#8)

/-- The charm's local entries are copied into the session's ring at slots p mod LOCAL_WINDOW (05 R171). -/
def copyRing (s : State) (h : Nat) : State :=
  match s.lockets.get? h with
  | none => s
  | some l =>
    match s.charms.vals.find? (fun m => m.tenant == l.tenant && m.digest == l.charmDigest) with
    | none => s
    | some m =>
      let img := locketImg s l
      let g := geom img true
      let cg := charmGeom img true m.symbols.length m.glen
      let src := ringSource m l.home
      (List.range g.n).foldl (fun s layer =>
        ((charmLocalPos img m.symbols.length).zipIdx).foldl (fun s p =>
          kvWrite s h l.recomputing (entryAddr g true layer (p.1 % max 1 (imgWindow img))) (charmBytes s img m src true (layer * cg.stride + p.2 * cg.e) cg.e)) s) s

/-! ## Closing (08 R295) -/

/-- A repeat test whose tile goes with its work is cut short; a cell left SUSPECT stays so (13 R502). -/
def cutTest (s : State) : State :=
  if s.ory.failing.isNone then s else
  (s.oryM fun y => { y with failing := none }).integM fun i =>
    { i with rep := .clean, trial := none, cell := 0xFF, attempt := 0, mode := if i.mode == .replay then .normal else i.mode }

/-- A running or waiting job is removed; where it held the Orrery, the Orrery is free (10 R407). -/
def dropJobs (s : State) (p : Job → Bool) : State :=
  let gone := (s.eph.jobs.filter p).map (·.id)
  let held := match s.eph.holder with | .job id => gone.contains id | _ => false
  let s := s.ephM fun e => { e with jobs := e.jobs.filter (fun j => !p j), holder := if held then .none else e.holder
                                    chargeFrom := if held then none else e.chargeFrom
                                    candidate := e.candidate.bind (fun i => if gone.contains i then none else some i) }
  if held then (cutTest s).oryM fun y => { y with prog := none, mode := if y.mode == .fault then .fault else if y.halt then .halted else .idle, sums := [], taint := [], hold := false, preempt := false } else s

/-- A recompute of a session is abandoned: its job and its ring copy end, the pages reserved for it return, and the pages written so far are DROPPED again
(05 R207, Table 5-9; 08 R295). -/
def abandonRecompute (s : State) (h : Nat) : State :=
  match s.lockets.get? h with
  | none => s
  | some l =>
    if !l.recomputing then s else
    let s := dropJobs (abandonFor s (fun p => p == .ring h)) (fun j => j.cls == .recompute && j.target == h)
    let s := releaseFrames (dropPages s h) l.home l.recFrames
    s.locketM h fun l => { l with recomputing := false, recFrames := [], recNext := 0, ringDue := false, passDone := false, recJoin := false }

/-- A stack move of a session is abandoned: its pages in the target stack return (05 R176). -/
def abandonMove (s : State) (h : Nat) : State :=
  match s.lockets.get? h with
  | none => s
  | some l =>
    match (if l.state == .opened then l.move else none) with
    | none => s
    | some m =>
      let s := abandonFor s (fun p => match p with | .move k _ => k == h | _ => false)
      let s := releaseFrames s m.home m.frames
      (s.locketM h fun l => { l with move := none }).astM fun a => { a with moves := a.moves.erase h }

/-- Everything a started join holds is returned; a recompute that a REVIVE started goes on, with its replica (05 R176, R203, R207; 08 R295; 10 R392). -/
def returnJoin (s : State) (h : Nat) : State :=
  let s := abandonMove s h
  let s := if ((s.lockets.get? h).map (·.recJoin)).getD false then abandonRecompute s h else s
  match s.lockets.get? h with
  | none => s
  | some l =>
    let s := releaseFrames s l.home (l.reserve ++ l.area)
    let s := s.locketM h fun l => { l with reserve := [], area := [], joinWait := false, held := false }
    if l.recomputing then s else unpinReplicas s (pinLocket h)

/-- A pending BATCH_JOIN of a session is withdrawn: it completes with a status (10 R392, 08 R295). -/
def withdrawJoin (s : State) (h status : Nat) : State :=
  let js := ((s.eph.ctxs.vals.map (·.joins)).flatten).filter (fun j => j.id == h)
  if js.isEmpty then s else
  let s := s.ephM fun e => { e with ctxs := e.ctxs.map (fun x => (x.1, { x.2 with joins := x.2.joins.filter (fun j => j.id != h) })) }
  let s := js.foldl (fun s j => s.locketM h fun l => { l with pins := l.pins.filter (· != j.cmd) }) (returnJoin s h)
  js.foldl (fun s j => completeId s j.cmd status 0 0 0) s

/-- SESSION_CLOSE (08 R295, Table 8-5). -/
def closeSession (s : State) (c : HCmd) (h : Nat) (l : Locket) : State :=
  match l.state with
  | .bound | .promoting => complete s c stBusy 0 (locketCode l.state) 0
  | _ =>
    let s := abandonDemotion s h stCancelled
    let s := if l.state == .opened then abandonRecompute (withdrawJoin (endStream s h stCancelled) h stCancelled) h else s
    finishClose (s.locketM h fun l => { l with closing := some c.id }) h

/-- SESSION_CLOSE. -/
def execSessionClose (id : Nat) (s : State) : Out := sessionCmd s id 0x21 closeSession

/-! ## INGEST, GENERATE and CANCEL -/

/-- The symbols of an INGEST: in the descriptor or fetched (15 Table 15-8). -/
def ingestSyms (c : HCmd) (data : List Byte) : List Sym :=
  if c.flag 4 then readSyms (c.fld 16 2) (bytesAt c.desc 24 40) else readSyms (c.fld 16 2) (padTo (2 * c.fld 16 2) data)

/-- The operands of an INGEST keep Table 15-8. -/
def ingestOk (c : HCmd) : Bool :=
  1 ≤ c.fld 16 2 && (if c.flag 4 then c.fld 16 2 ≤ 20 else c.fld 16 2 ≤ 4096 && c.fld 24 8 % 2 == 0)

/-- The width of a session's row in a step in progress (08 R289). -/
def rowWidth (s : State) (h : Nat) (l : Locket) : Nat :=
  (((stepOf s l).bind (fun st => st.rows.find? (fun r => r.handle == h))).map (·.width)).getD 0

/-- INGEST (08 R289, 15 R582). -/
def ingestStart (data : List Byte) (s : State) (c : HCmd) (h : Nat) (_l : Locket) : State :=
  let s := takePin s h c.id
  match s.lockets.get? h with
  | none => s
  | some l =>
    let syms := ingestSyms c data
    if !(l.state == .opened || l.state == .bound) then stateRefuse s c l
    else if !ingestOk c || syms.any (0x2140 ≤ ·) then complete s c stInvalid 0 0 0
    else if imgMaxThread (locketImg s l) < l.thread.length + l.pending.length + rowWidth s h l + syms.length then complete s c stNoRoom 0 0 0
    else
      let s := appendInput s h c.id syms
      if l.state == .opened then complete s c stOk (l.thread.length + syms.length) 0 l.smp.stepIndex else s

/-- INGEST. -/
def execIngest (id : Nat) (data : List Byte) (s : State) : Out := sessionCmd s id 0x22 (ingestStart data)

/-- The sampler fields of a GENERATE keep Table 6-3 (06 R217). -/
def samplerOk (c : HCmd) (widthCap : Nat) : Bool :=
  let t := c.fld 24 4
  let p := c.fld 28 4
  1 ≤ c.fld 16 1 && c.fld 16 1 ≤ c.fld 17 1 && c.fld 17 1 ≤ widthCap && c.fld 18 1 ≤ 3 && c.fld 19 1 ≤ 1 && c.fld 20 2 ≤ 1024 &&
  (t == 0 || (0x3B800000 ≤ t && t ≤ 0x41800000)) && 1 ≤ p && p ≤ 0x3F800000

/-- The grammar operands of a GENERATE keep Table 7-11. -/
def grammarOk (c : HCmd) (img : List Byte) : Bool :=
  let g := c.fld 40 2
  let st := c.fld 42 2
  c.fld 22 1 ≤ 2 && (if c.fld 22 1 = 1 then g < gramCount img && (st == 0xFFFF || st < gramFld img g 0 2) else g == 0 && st == 0)

/-- The sampler fields of a GENERATE take effect (06 R218). -/
def applySampler (l : Locket) (d : List Byte) : Locket :=
  let f := fieldAt d
  { l with smp := { l.smp with wMin := f 16 1, wMax := f 17 1, draftSrc := f 18 1, draftMode := f 19 1, topK := f 20 2, temp := BitVec.ofNat 32 (f 24 4)
                               topP := BitVec.ofNat 32 (f 28 4), lookahead := f 32 8 }, dirtyControl := true }

/-- The grammar and MAX_SYMBOLS of a GENERATE take effect (07 Table 7-11). -/
def applyText (img : List Byte) (l : Locket) (d : List Byte) : Locket :=
  let f := fieldAt d
  let m := { l.stm with maxSymbols := f 44 4 }
  { l with stm := if f 22 1 = 1 then { m with grammar := f 40 2, gstate := if f 42 2 = 0xFFFF then gramFld img (f 40 2) 2 2 else f 42 2 }
                  else if f 22 1 = 2 then { m with grammar := 0xFFFF } else m
           dirtyControl := true }

/-- The stop strings of a GENERATE take effect, and a loaded slot becomes empty (07 R258, Table 7-11). -/
def applyStops (l : Locket) (load clear noHold : Bool) : Locket :=
  let m := { l.stm with utf8Hold := !noHold }
  let m := if clear then { m with stopCount := 0 } else m
  if load then
    { l with stm := { m with stopCount := fieldAt l.stopSlot 0 1, includeStop := bitAt (fieldAt l.stopSlot 1 1) 0, stops := l.stopSlot.set 2 0#8 }
             stopSlot := l.stopSlot.set 2 0#8 }
  else { l with stm := m }

/-- GENERATE on an IDLE stream opens one (07 Table 7-13, R275). -/
def openStream (s : State) (c : HCmd) (h : Nat) (l : Locket) : State :=
  let img := locketImg s l
  let l1 := applyStops (applyText img { l with stm := { l.stm with emitted := 0, delivered := 0, hold := [], generating := true, genTag := c.tag } } c.desc)
    (c.flag 4) (c.flag 5) (c.flag 6)
  let now := (stepOf s l).isNone
  let l2 := if now then applySampler l1 c.desc else { l1 with genWait := l1.genWait ++ [{ cmd := c.id, desc := c.desc }] }
  s.locketM h fun _ => { l2 with genCmd := some c.id, genStep := if l.state == .opened then some l.smp.stepIndex else none, dirtyControl := true }

/-- GENERATE (06 R217, 07 R258, R266, R275, R277). -/
def generateStart (s : State) (c : HCmd) (h : Nat) (_l : Locket) : State :=
  let s := takePin s h c.id
  match s.lockets.get? h with
  | none => s
  | some l =>
    if !(l.state == .opened || l.state == .bound) then stateRefuse s c l
    else if !samplerOk c (((loadedSlot s l.slot).map (·.widthCap)).getD 1) || !grammarOk c (locketImg s l) || l.thread.isEmpty || (c.flag 4 && c.flag 5) then
      complete s c stInvalid 0 0 0
    else if l.stm.generating then
      if c.flag 4 || c.flag 5 || c.flag 6 then complete s c stInvalid 0 0 0
      else s.locketM h fun l => { l with genWait := l.genWait ++ [{ cmd := c.id, desc := c.desc }] }
    else if c.flag 4 && !stopSlotOk l.stopSlot then complete s c stInvalid 0 0 0
    else openStream s c h l

/-- GENERATE. -/
def execGenerate (id : Nat) (s : State) : Out := sessionCmd s id 0x23 generateStart

/-- CANCEL (07 R274 to R279). -/
def cancelStart (s : State) (c : HCmd) (h : Nat) (l : Locket) : State :=
  if !(l.state == .opened || l.state == .bound) then stateRefuse s c l else
  match cancelOn s h (c.flag 4) with
  | (s, st, disc, barge) =>
    let s := if st = stAlready then { s with stm := { s.stm with evCancelAfter := true, cancelAfter := wrapInc 32 s.stm.cancelAfter } } else s
    let del := ((s.lockets.get? h).map (·.stm.delivered)).getD 0
    complete s { c with accept := s.now } st del (boolNat disc + 2 * boolNat barge) l.smp.stepIndex

/-- CANCEL. -/
def execCancel (id : Nat) (s : State) : Out := sessionCmd s id 0x24 cancelStart

/-! ## Parking (08 R298 to R303) -/

/-- A tier that a demotion may go to is fitted and, for T3, has a writable coffer (08 R302). -/
def tierOpen (s : State) (tier : Nat) : Bool := if tier = 2 then t2Fitted s else t3Fitted s

/-- The tiers that a time-to-live demotion may go to, nearest first (08 R302). -/
def nextTiers (s : State) (l : Locket) (cur : Nat) : List Nat :=
  [2, 3].filter (fun t => cur < t && (if t = 2 then l.ttl2 else l.ttl3) != 0 && tierOpen s t)

/-- A demotion starts: an extent enters WRITING and a descriptor is submitted; none when the tier lacks room (08 R298, R299, R310). -/
def startDemotion (s : State) (h tier bay : Nat) (cmd : Option Nat) : Option State :=
  match s.lockets.get? h with
  | none => none
  | some l =>
    let src := if l.state == .parkedT2 then 2 else 1
    let units := if src = 1 then extUnits l.thread.length (presentOwn l).length (!l.dropped) else l.units
    match openExtent s { tier := tier, bay := if tier = 3 then bay else 0xFF, kind := .locket, owner := h, tenant := l.tenant, units := units } with
    | none => none
    | some (s, ext) =>
      let key := (s.keys.getD l.tenant {}).current
      let s := lowater <| s.locketM h fun l => { l with state := .demoting, dst := tier, move := some { src := src, extent := ext, cmd := cmd, keySlot := key, home := l.home } }
      some (submit s { cookie := 0, op := 2, tenant := l.tenant, tier := tier, bay := if tier = 3 then bay else 0xFF, keySlot := key, digest := true
                       units := units, src := if src = 1 then l.page else 0, extent := ext, purpose := .demote h })

/-- The bay of a demotion to T3: the one asked for, or the writable bay with the most free space (08 R298). -/
def demoteBay (s : State) (bay : Nat) : Nat := if bay = 0xFF then (bestBay s).getD 0xFF else bay

/-- PARK (08 R298). -/
def parkStart (s : State) (c : HCmd) (h : Nat) (l : Locket) : State :=
  let tier := c.fld 16 1
  let bay := c.fld 17 1
  let ttl := fun (s : State) => if c.flag 4 then s.locketM h fun l => { l with ttl1 := c.fld 20 4, ttl2 := c.fld 24 4, ttl3 := c.fld 28 4, dirtyControl := true } else s
  let code := locketCode l.state
  if !(tier == 2 || tier == 3) || !(bay < 4 || bay == 0xFF) then complete s c stInvalid 0 0 0
  else if l.state == .bound || l.state == .demoting || l.state == .promoting ||
      (l.state == .opened && (l.stm.generating || !l.pins.isEmpty || l.recomputing)) then complete s c stBusy 0 code 0
  else if l.state == .expired then complete s c stExpired 0 0 0
  else if (l.state == .parkedT2 && tier == 2) || (l.state == .parkedT3 && tier == 3) then complete (ttl s) c stOk 0 0 0
  else if l.state == .parkedT3 then complete s c stInvalid 0 code 0
  else if tier == 3 && bay != 0xFF && 100 ≤ (s.bay bay).life then complete s c stWorn 0 0 0
  else if !tierOpen s tier || (tier == 3 && bay != 0xFF && !writable s bay) then complete s c stInvalid 0 0 0
  else match startDemotion (ttl s) h tier (demoteBay s bay) (some c.id) with
    | some s => s
    | none => complete s c stNoRoom 0 0 0

/-- PARK. -/
def execPark (id : Nat) (s : State) : Out := sessionCmd s id 0x25 parkStart

/-- The idle clock of a locket runs (08 R301; 13 R494). -/
def clockRuns (l : Locket) : Bool :=
  !l.unusable && l.closing.isNone &&
  match l.state with
  | .opened => !l.stm.generating && l.pins.isEmpty && !l.recomputing && l.move.isNone
  | .parkedT2 | .parkedT3 => true
  | _ => false

/-- The tier that a locket stands in and its time to live (08 R301). -/
def tierTtl (l : Locket) : Nat × Nat :=
  match l.state with
  | .parkedT2 => (2, l.ttl2)
  | .parkedT3 => (3, l.ttl3)
  | _ => (1, l.ttl1)

/-- A locket becomes EXPIRED: only its directory entry remains (08 Table 8-5). -/
def expireLocket (s : State) (h : Nat) : State :=
  match s.lockets.get? h with
  | none => s
  | some l =>
    let s := releaseFrames (vacateAll s h) l.home (l.reserve ++ l.area ++ l.recFrames)
    let s := if l.extent = 0 then s else freeExtent s l.extent
    releaseCharmRef (s.locketM h fun l => { coldLocket l with state := .expired, extent := 0, units := 0, bay := 0xFF }) l.charmDigest

/-- Tries the tiers in order; with no room in any, the demotion is blocked and retried (08 R303). -/
def tryTiers (s : State) (h : Nat) : List Nat → State
  | [] => s.locketM h fun l => { l with demoteBlocked := true, retryAt := s.now + 100000000 }
  | t :: ts =>
    match startDemotion s h t (if t = 3 then demoteBay s 0xFF else 0xFF) none with
    | some s => s.locketM h fun l => { l with demoteBlocked := false }
    | none => tryTiers s h ts

/-- A time to live has run out (08 R302). -/
def ttlOut (s : State) (h : Nat) (l : Locket) : State :=
  match nextTiers s l (tierTtl l).1 with
  | [] => expireLocket s h
  | ts => tryTiers s h ts

/-- The idle time of a locket has reached the time to live of its tier (08 R301). -/
def ttlReached (s : State) (l : Locket) : Bool := clockRuns l && (tierTtl l).2 != 0xFFFFFFFF && due s (l.lastTouch + (tierTtl l).2 * 100000000)

/-- TTL_EXPIRY (08 R301, R302). -/
def execTtlExpiry (handle : Nat) (s : State) : Out :=
  match s.lockets.get? handle with
  | none => .next s
  | some l =>
    when (serving s && s.integ.mode != .quarantined && !l.demoteBlocked && ttlReached s l) s (ttlOut s handle l)

/-- DEMOTE_RETRY (08 R303): a locket touched since it was blocked waits for its time to live again. -/
def execDemoteRetry (handle : Nat) (s : State) : Out :=
  match s.lockets.get? handle with
  | none => .next s
  | some l => when (serving s && s.integ.mode != .quarantined && l.demoteBlocked && ttlReached s l && due s l.retryAt) s (ttlOut s handle l)

/-- A demotion's target has run out of room or failed: PARK completes ST_NO_ROOM, a time-to-live demotion tries the tier after (08 Table 8-5, R303). -/
def failDemotion (s : State) (h : Nat) : State :=
  match s.lockets.get? h with
  | none => s
  | some l =>
    match l.move with
    | none => s
    | some m =>
      let tier := l.dst
      let s := abandonDemotion s h stNoRoom
      if m.cmd.isSome then s else tryTiers s h ((nextTiers s { l with state := if m.src = 1 then .opened else .parkedT2 } m.src).filter (tier < ·))

/-- DEMOTION_COMMIT (08 R299, 15 R589): the extent is sealed and every retained packet is written. -/
def execDemotionCommit (handle : Nat) (s : State) : Out :=
  clocked s (
  match s.lockets.get? handle with
  | none => .next s
  | some l =>
    match l.move, doneFor s (.demote handle) with
    | some m, some r =>
      if !(l.state == .demoting && l.pins.isEmpty && l.packets.all (·.written) && ((s.extents.get? m.extent).map (·.sealed)).getD false) then .next s else
      let s := takeDone s r
      let s := if m.src = 1 then releaseFrames (vacateAll s handle) l.home (l.reserve ++ l.area) else freeExtent s l.extent
      let s := s.locketM handle fun l =>
        { coldLocket l with state := if l.dst = 2 then .parkedT2 else .parkedT3, encrypted := m.keySlot.isSome, kvAbsent := if m.src = 1 then l.dropped else l.kvAbsent
                            extent := m.extent, units := ((s.extents.get? m.extent).map (·.units)).getD 0, lastTouch := s.now, demoteBlocked := false
                            bay := if l.dst = 3 then ((s.extents.get? m.extent).map (·.bay)).getD 0xFF else 0xFF }
      .next (match m.cmd with
        | some id => completeId s id stOk 0 0 0
        | none => s)
    | _, _ => .next s)

end Sys2Proof.Machine
end

