-- ==== Sys2Proof/Machine/Charms.lean ====
section
/-!
DEFINITION. Sys2Proof/Machine/Charms.lean: charms and their replicas (08 R313 to R319, 13 R495).
-/
namespace Sys2Proof.Machine

/-- Replica state of a charm in a stack. -/
def replicaState (m : Charm) (st : Nat) : ReplicaState := (m.replicas.getD st {}).state

/-- The charm digest (08 R316). -/
def charmDigestOf (parure facet : Nat) (syms : List Sym) : Nat := beNat (sha256 (natBe 32 parure ++ natBe 32 facet ++ natLe 4 syms.length ++ symBytes syms))

/-- Arena bytes of a charm's symbols and index (08 R315). -/
def charmArena (len : Nat) : Nat := 4096 * (ceilDiv (2 * len) 4096 + ceilDiv (8 * len) 4096)

/-- VPNs of a charm's region: ONE or GLOBAL pages, then LOCAL pages. -/
def charmVpns (img : List Byte) (len glen : Nat) : List Nat :=
  List.range (charmGeom img false len glen).pages ++ (List.range (charmGeom img true len glen).pages).map (· + 0x20000)

/-- Bytes of the ONE or GLOBAL entry of a source session at a layer and slot: from its own region, or from its own charm: the
replica in its home stack, the anchor replica or the master (08 R315). -/
def sourceEntry (s : State) (img : List Byte) (l : Locket) (loc : Bool) (layer q : Nat) : List Byte :=
  let g := geom img loc
  if loc then kvRead s l (entryAddr g true layer (q % max 1 (imgWindow img))) g.e
  else
    let cl := if imgTwoRate img then l.charmGlen else l.charmLen
    match (if q < cl then s.charms.vals.find? (fun m => m.tenant == l.tenant && m.digest == l.charmDigest) else none) with
    | some m =>
      let cg := charmGeom img false m.symbols.length m.glen
      charmBytes s img m (ringSource m l.home) false (layer * cg.stride + q * cg.e) cg.e
    | none => kvRead s l (entryAddr g false layer (q - cl)) g.e

/-- Writes bytes of a replica's region. -/
def replicaWrite (s : State) (img : List Byte) (ci st : Nat) (loc : Bool) (x : Nat) (data : List Byte) : State :=
  match s.charms.get? ci with
  | none => s
  | some m => (data.zipIdx).foldl (fun s b => match replicaPlace s img m st loc (x + b.2) with
    | some a => { s with t1 := s.t1.write a b.1 }
    | none => s) s

/-- The entries of a new charm laid into its anchor replica from its source (08 R315). -/
def fillFromSource (s : State) (img : List Byte) (ci : Nat) (l : Locket) : State :=
  match s.charms.get? ci with
  | none => s
  | some m =>
    let one := charmGeom img false m.symbols.length m.glen
    let loc := charmGeom img true m.symbols.length m.glen
    let s := (List.range one.n).foldl (fun s k => (List.range one.slots).foldl (fun s q =>
      replicaWrite s img ci m.anchor false (k * one.stride + q * one.e) (sourceEntry s img l false k q)) s) s
    (List.range loc.n).foldl (fun s k => ((charmLocalPos img m.symbols.length).zipIdx).foldl (fun s p =>
      replicaWrite s img ci m.anchor true (k * loc.stride + p.2 * loc.e) (sourceEntry s img l true k p.1)) s) s

/-- The pages of a charm: from its master, or from its anchor replica (08 Table 8-13). -/
def charmSource (s : State) (m : Charm) : List (List Byte) :=
  if m.master = 0 then (m.replicas.getD m.anchor {}).frames.map (fun f => s.t1.readN (frameAddr s m.anchor f) 65536) else (masterPages s m).map (·.2)

/-- Pin of a promotion on the replica that it copies from (08 R318). -/
def pinCopy (ci st : Nat) : Nat := 2 * (2 ^ 40 + 8 * ci + st)

/-- The transfer that fills a replica's frames: from the anchor replica's frames unit by unit, or from the master's extent, whose header, record, symbols and
bitmap have no place in the replica (08 R319; 09 R347, Table 9-6). -/
def replicaDesc (s : State) (ci st : Nat) (m : Charm) (fs : List Nat) : Desc :=
  let dst := frameUnits s st fs
  if m.master = 0 then
    { cookie := 0, op := 1, tenant := m.tenant, units := dst.length, srcList := fillList (max 1 dst.length) (frameUnits s m.anchor (m.replicas.getD m.anchor {}).frames)
      dstList := fillList (max 1 dst.length) dst, purpose := .replica ci st }
  else
    let e := s.extents.getD m.extent {}
    let hd := readHead true (e.data.take 4096)
    { cookie := 0, op := 3, tenant := m.tenant, tier := m.master, bay := if m.master = 3 then m.bay else 0xFF, keySlot := hd.bind (·.keySlot), digest := true
      units := e.units, extent := m.extent
      dstList := fillList (max 1 e.units) (List.replicate (8 + (hd.map (·.threadUnits)).getD 0) zeroUnit ++ dst), purpose := .replica ci st }

/-- A replica with its frames is filled from its source by a Courier copy, and pins the replica that it reads (08 R319). -/
def replicaWith (ci st pin : Nat) (m : Charm) (s : State) (fs : List Nat) : State :=
  let s := s.replicaM ci st fun r => { r with state := .promoting, frames := fs, pins := r.pins ++ [pin] }
  let s := if m.master = 0 then pinReplica s ci m.anchor (pinCopy ci st) else s
  submit s (replicaDesc s ci st m fs)

/-- A replica enters PROMOTING: its frames are taken and its copy is submitted; none where the stack lacks pages (08 Table 8-13, 05 R174, R203). -/
def startReplica (s : State) (ci st pin : Nat) : Option State :=
  match s.charms.get? ci with
  | none => none
  | some m =>
    let n := charmPages (((loadedHash s m.parureHash).map (·.2.image)).getD []) m.symbols.length m.glen
    let q := takeFrames s st n (.replica (replicaId ci st))
    q.2.map (replicaWith ci st pin m q.1)

/-- A charm's master: its header, the plaintext of its units from 1 on, and the tarnish among them (08 R308, Tables 8-9, 8-10, 8-12). -/
def masterPlain (s : State) (ci : Nat) (m : Charm) (key : Option Nat) : ExtHead × List Byte × List Nat :=
  let img := ((loadedHash s m.parureHash).map (·.2.image)).getD []
  let fs := (m.replicas.getD m.anchor {}).frames.map (frameAddr s m.anchor)
  let pages := (charmVpns img m.symbols.length m.glen).zip (fs.map (fun a => s.t1.readN a 65536))
  let syms := padUnits (symBytes m.symbols)
  ({ charm := true, keySlot := key, tenant := m.tenant, id := m.extent, threadUnits := ceilDiv (2 * m.symbols.length) 4096, pages := pages.length, session := ci },
   padTo 4096 (charmRecord m) ++ syms ++ kvUnits pages,
   ((fs.zipIdx).map (fun f => carryTarnish s f.1 65536 (8192 + syms.length + 24576 + 65536 * f.2))).flatten)

/-- A charm without a name and without references is freed (08 R317). -/
def settleCharm (s : State) (ci : Nat) : State :=
  match s.charms.get? ci with
  | none => s
  | some m => if m.names.isEmpty && charmRefs s m = 0 && m.cmd.isNone then freeCharm s ci else s

/-- CHARM_CREATE completes when the anchor replica is PRESENT and the master, if any, is sealed (08 R315). -/
def finishCharm (s : State) (ci : Nat) : State :=
  match s.charms.get? ci with
  | none => s
  | some m =>
    match m.cmd with
    | none => s
    | some id =>
      if (m.replicas.getD m.anchor {}).state == .present && (m.master = 0 || ((s.extents.get? m.extent).map (·.sealed)).getD false) then
        let s := s.charmM ci fun c => { c with cmd := none, zeroSince := s.now }
        settleCharm (completeId (s.ckptM fun k => { k with controlDirty := true }) id stOk ci 0 0) ci
      else s

/-- A charm's creation fails: everything it took is returned (08 Table 8-11, check 6). -/
def failCharm (s : State) (ci : Nat) : State :=
  match s.charms.get? ci with
  | none => s
  | some m =>
    match m.cmd with
    | none => s
    | some id => completeId (freeCharm s ci) id stNoRoom 0 0 0

/-- The charm of a CHARM_CREATE stands with the frames of its first replica, which a Courier copy fills from its source (08 R315, R316). -/
def placeCharm (c : HCmd) (l : Locket) (img : List Byte) (digest ci addr n : Nat) (s : State) (fs : List Nat) : State :=
  let len := c.fld 24 4
  let m : Charm := { tenant := c.tenant, names := [c.handle], digest := digest, parureHash := l.parureHash, facetHash := l.facetHash
                     symbols := l.thread.take len, glen := l.gbase, lastClose := l.lastClose, ttl := c.fld 32 4, t1Ttl := c.fld 36 4, anchor := l.home, arena := charmArena len
                     addr := addr, cmd := some c.id }
  let m := { m with replicas := m.replicas.modify l.home fun r => { r with state := .promoting, frames := fs } }
  let s := lowater (fillFromSource { s with charms := s.charms.set ci m } img ci l)
  submit s { cookie := 0, op := 1, tenant := c.tenant, units := 16 * max 1 n, dst := unitEntry addr, dstList := List.replicate (16 * max 1 n) zeroUnit
             purpose := .replica ci l.home }

/-- The master of a CHARM_CREATE goes to an extent of its tier, or stays in T1 (08 R315). -/
def placeMaster (c : HCmd) (ci n : Nat) (s : State) : Option State :=
  let tier := c.fld 28 1
  if tier = 0 then some s else
  let bay := if tier = 3 then demoteBay s 0xFF else 0xFF
  let units := extUnits (c.fld 24 4) n true
  (openExtent s { tier := tier, bay := bay, kind := .charm, owner := ci, tenant := c.tenant, units := units }).map fun r =>
    submit (r.1.charmM ci fun c => { c with master := tier, extent := r.2, bay := bay })
      { cookie := 0, op := 2, tenant := c.tenant, tier := tier, bay := bay, keySlot := (s.keys.getD c.tenant {}).current, digest := true, units := units
        extent := r.2, purpose := .charmMaster ci }

/-- The reservations and copies of a new charm, made without drops; none where any of them lacks room (05 R209; 08 Table 8-11 check 6, R315). -/
def buildCharm (s : State) (c : HCmd) (l : Locket) (digest : Nat) : Option State :=
  let img := locketImg s l
  let len := c.fld 24 4
  match s.charms.freshFrom (s.charms.length + 1) 0 with
  | none => none
  | some ci =>
    if s.lan.config.charmMax ≤ ci then none else
    match arenaFit s l.home (charmArena len) with
    | none => none
    | some addr =>
      let n := charmPages img len l.gbase
      let q := takeFree s l.home n (.replica (replicaId ci l.home))
      q.2.bind fun fs => placeMaster c ci n (placeCharm c l img digest ci addr n q.1 fs)

/-- Checks 3 to 6 of CHARM_CREATE on its source (08 Table 8-11). -/
def charmFrom (s : State) (c : HCmd) (l : Locket) : State :=
  let len := c.fld 24 4
  if l.unusable then complete s c stTarnished 0 0 0
  else if l.replay || opening l || l.closing.isSome then complete s c stBusy 0 0 0
  else if l.state != .opened || l.stm.generating || l.pins != [c.id] || l.dropped || l.recomputing then complete s c stBusy 0 (locketCode l.state) 0
  else if len = 0 || l.base != len then complete s c stInvalid 0 0 0
  else
    let d := charmDigestOf l.parureHash l.facetHash (l.thread.take len)
    match s.charms.find? (fun e => e.2.tenant == c.tenant && e.2.digest == d) with
    | some (ci, m) =>
      if 16 ≤ m.names.length then complete s c stNoRoom 0 0 0
      else complete ((s.charmM ci fun m => { m with names := m.names ++ [c.handle] }).ckptM fun k => { k with controlDirty := true }) c stOk ci 1 0
    | none =>
      match buildCharm s c l d with
      | some s => s
      | none => complete s c stNoRoom 0 0 0

/-- CHARM_CREATE (08 R313, R314). -/
def charmStart (s : State) (c : HCmd) : State :=
  let tier := c.fld 28 1
  if c.handle = 0 || (charmNamed s c.tenant c.handle).isSome || !(tier == 0 || ((tier == 2 || tier == 3) && tierOpen s tier)) then complete s c stInvalid 0 0 0 else
  match findSession s c.tenant (c.fld 16 8) with
  | none => complete s c stUnknown 0 0 0
  | some (h, _) =>
    let s := takePin (s.locketM h fun l => { l with lastTouch := max l.lastTouch c.accept, dirtyControl := true }) h c.id
    match s.lockets.get? h with
    | none => s
    | some l => charmFrom s c l

/-- CHARM_CREATE. -/
def execCharmCreate (id : Nat) (s : State) : Out := hostCmd s id 0x27 charmStart

/-- CHARM_DROP (08 R317). -/
def execCharmDrop (id : Nat) (s : State) : Out :=
  hostCmd s id 0x28 fun s c =>
    match charmNamed s c.tenant c.handle with
    | none => complete s c stUnknown 0 0 0
    | some (ci, _) =>
      let s := s.charmM ci fun m => { m with names := m.names.filter (· != c.handle) }
      complete (settleCharm (s.ckptM fun k => { k with controlDirty := true }) ci) c stOk 0 0 0

/-- CHARM_TTL_EXPIRY (08 R317). -/
def execCharmTtlExpiry (charm : Nat) (s : State) : Out :=
  match s.charms.get? charm with
  | none => .next s
  | some m =>
    when (serving s && charmRefs s m == 0 && m.cmd.isNone && m.ttl != 0xFFFFFFFF && due s (m.zeroSince + m.ttl * 100000000)) s
      (settleCharm (s.charmM charm fun m => { m with names := [] }) charm)

/-- A replica page is tarnished (13 R495). -/
def replicaTarnished (s : State) (m : Charm) (st : Nat) : Bool :=
  (m.replicas.getD st {}).frames.any (fun f => tarnishedRun s (frameAddr s st f) 65536)

/-- REPLICA_EVICT_START (08 Table 8-13, 13 R495). -/
def execReplicaEvictStart (charm stack : Nat) (s : State) : Out :=
  formed (decide (stack < 8)) (clocked s (
  match s.charms.get? charm with
  | none => .next s
  | some m =>
    let r := m.replicas.getD stack {}
    let kept := decide (m.master = 0) && stack == m.anchor
    let idle := m.t1Ttl != 0xFFFFFFFF && due s (r.idleSince + m.t1Ttl * 100000000)
    let bad := replicaTarnished s m stack
    when (r.state == .present && r.pins.isEmpty && ((idle && !kept) || bad)) s (
      let s := tlbDropId s (replicaId charm stack)
      let s := if bad && kept then s.charmM charm fun m => { m with orphaned := true } else s
      s.replicaM charm stack fun r => { r with state := .evicting, evictSince := s.now })))

/-- REPLICA_EVICT_COMMIT (08 R319). -/
def execReplicaEvictCommit (charm stack : Nat) (s : State) : Out :=
  formed (decide (stack < 8)) (clocked s (
  match s.charms.get? charm with
  | none => .next s
  | some m =>
    let r := m.replicas.getD stack {}
    when (r.state == .evicting && r.pins.isEmpty) s
      ((tlbDropId (releaseFrames s stack r.frames) (replicaId charm stack)).replicaM charm stack fun _ => {})))

end Sys2Proof.Machine
end

