-- ==== Sys2Proof/Machine/Revive.lean ====
section
/-!
DEFINITION. Sys2Proof/Machine/Revive.lean: revival of parked lockets (08 R304) and the start of a recompute (05 R207).
-/
namespace Sys2Proof.Machine

/-- Result words of REVIVE (08 R304). -/
def reviveWords (h : Nat) (page : Nat) (absent : Bool) : Nat × Nat := (h, page / 8192 * 2 + boolNat absent)

/-- Own-region pages that hold positions below BASE and are not the charm's (05 R207). -/
def recomputePages (img : List Byte) (base gbase charmLen charmGlen : Nat) : List Nat :=
  let g := geom img false
  let l := geom img true
  let lo := if imgTwoRate img then charmGlen else charmLen
  let hi := if imgTwoRate img then gbase else base
  let w := max 1 (imgWindow img)
  let one := ((List.range g.n).map (fun k => pagesOf (entryAddr g false k 0) ((hi - lo) * g.e))).flatten
  let loc := if imgTwoRate img then
      ((List.range l.n).map (fun k => ((List.range (min base w)).map (fun i => pagesOf (entryAddr l true k ((base - 1 - i) % w)) l.e)).flatten)).flatten
    else []
  sortBy (fun a b => a ≤ b) ((one ++ loc).eraseDups)

/-- The header and names of a parked extent under Table 8-7: a failure code and status, or the header and the locket as read. -/
def reviveCheck (s : State) (l : Locket) : (Nat × Nat) ⊕ (ExtHead × Locket × Nat) :=
  match s.extents.get? l.extent with
  | none => .inl (stTarnished, 0x15)
  | some e =>
    if e.tarnish.any (· < 512) then .inl (stTarnished, 0x15) else
    match readHead false (e.data.take 4096) with
    | none => .inl (stTarnished, 0x16)
    | some h =>
      if h.session != l.session || h.tenant != l.tenant || h.units != l.units || h.keySlot.isSome != l.encrypted then .inl (stTarnished, 0x16) else
      match plainOf s h (e.data.take 8192) with
      | none => .inl (stInvalid, 0x10)
      | some p =>
        let w := warmFrom l { h with threadUnits := 0 } p
        match loadedHash s w.parureHash with
        | none => .inl (stUnknown, 0x11)
        | some (slot, _) =>
          if w.facetHash != 0 && !s.facets.any (fun f => f.handle != 0 && f.tenant == l.tenant && f.hash == w.facetHash && f.slot == slot) then .inl (stUnknown, 0x12)
          else if w.charmDigest != 0 && !s.charms.vals.any (fun c => c.tenant == l.tenant && c.digest == w.charmDigest) then .inl (stUnknown, 0x13)
          else .inr (h, w, slot)

/-- A recompute's charm replica in a stack is pinned, and promoted first when it is absent (05 R207); none where its pages cannot be reserved. -/
def claimReplica (s : State) (h tenant digest home : Nat) : Option State :=
  if digest = 0 then some s else
  match s.charms.find? (fun e => e.2.tenant == tenant && e.2.digest == digest) with
  | none => some s
  | some (ci, m) =>
    if (m.replicas.getD home {}).state == .absent then startReplica s ci home (pinLocket h) else some (pinReplica s ci home (pinLocket h))

/-- The ring copy of a recompute is submitted once the charm's replica in the home stack is PRESENT (05 R207). -/
def ringIfReady (s : State) (h : Nat) : State :=
  match s.lockets.get? h with
  | none => s
  | some l =>
    match (if l.ringDue then s.charms.find? (fun e => e.2.tenant == l.tenant && e.2.digest == l.charmDigest) else none) with
    | none => s
    | some (_, m) =>
      if (m.replicas.getD l.home {}).state != .present then s else
      submit (s.locketM h fun l => { l with ringDue := false })
        { cookie := 0, op := 1, tenant := l.tenant, units := max 1 (ceilDiv (ringBytes (locketImg s l) m.symbols.length) 4096)
          dstList := List.replicate (max 1 (ceilDiv (ringBytes (locketImg s l) m.symbols.length) 4096)) zeroUnit, purpose := .ring h }

/-- A position in a patch: whether it closes it, with the run and the count of closed patches after it. A node whose symbol is not yet drafted
(`known` false) closes by length alone. -/
def patchNext (img : List Byte) (known model : Bool) (x : Sym) (r : Nat × Nat) : Bool × Nat × Nat :=
  let c := if known then closesPatch img x (r.1 + 1) model else !imgTwoRate img || sectFld img 7 2 2 ≤ r.1 + 1
  (c, if c then 0 else r.1 + 1, if c then r.2 + 1 else r.2)

/-- Symbols of the patch that is open at the end of a session's charm (04 R140); where the charm's last closing position is not held it is found from the
symbols (log 24). -/
def charmRun (s : State) (l : Locket) : Nat :=
  match (s.charms.vals.find? (fun m => m.tenant == l.tenant && m.digest == l.charmDigest)).bind (·.lastClose) with
  | some p => l.charmLen - p
  | none => ((l.thread.take l.charmLen).foldl (fun (r : Nat × Nat) x => (patchNext (locketImg s l) true false x r).2) (0, 0)).1

/-- A recompute starts: its pages are reserved, RECOMPUTING is set, and for a charm session the ring copy comes first (05 R207). -/
def beginRecompute (s : State) (h : Nat) (frames : List Nat) (since : Tick) (join : Bool) : State :=
  let s := s.locketM h fun l => { l with recomputing := true, recFrames := frames, recNext := l.charmLen, passDone := false, recSince := since, recJoin := join
                                         recRun := charmRun s l, recGpos := l.charmGlen
                                         ringDue := decide (l.charmLen != 0) && ringBytes (locketImg s l) l.charmLen != 0 }
  ringIfReady s h

/-- Where the units of a promoted locket go: header and bitmap nowhere, the control page, the thread and the pages to their places (08 R304, Table 8-10). -/
def promoteList (s : State) (hd : ExtHead) (img : List Byte) (home page : Nat) (fs : List Nat) (units : Nat) : List Nat :=
  fillList (max 1 units) (zeroUnit :: unitEntry page :: unitRun (threadPlace img page) hd.threadUnits ++
    (if hd.kv then List.replicate 6 zeroUnit ++ frameUnits s home fs else []))

/-- REVIVE of a parked locket: steps 1 to 4 of 08 R304, then the read. -/
def reviveParked (s : State) (c : HCmd) (h : Nat) (l : Locket) : State :=
  match reviveCheck s l with
  | .inl (st, code) => complete s c st 0 code 0
  | .inr (hd, w, slot) =>
    let img := ((loadedSlot s slot).map (·.image)).getD []
    let home := homeStack s
    let n := hd.pages + (if hd.kv then 0 else (recomputePages img w.base w.gbase w.charmLen w.charmGlen).length)
    match arenaFit s home (locketArena s l.tenant img) with
    | none => complete s c stNoRoom 0 0x14 0
    | some page =>
      match takeFrames s home n (.inUse h) with
      | (s, none) => complete s c stNoRoom 0 0x14 0
      | (s, some fs) =>
        let src := if l.state == .parkedT2 then 2 else 3
        match (if hd.kv then some s else claimReplica s h l.tenant w.charmDigest home) with
        | none => complete (releaseFrames s home fs) c stNoRoom 0 0x14 0
        | some s =>
        let s := s.locketM h fun l =>
          { l with state := .promoting, dst := 1, slot := slot, footprint := locketArena s l.tenant img
                   move := some { src := src, extent := l.extent, cmd := some c.id, home := home, frames := fs, page := page } }
        submit s { cookie := 0, op := 3, tenant := l.tenant, tier := src, bay := if src = 3 then l.bay else 0xFF, keySlot := hd.keySlot, digest := true, units := l.units
                   extent := l.extent, dstList := promoteList s hd img home page (fs.take hd.pages) l.units, purpose := .promote h }

/-- REVIVE (08 R292, R304). -/
def reviveStart (s : State) (c : HCmd) (h : Nat) (_l : Locket) : State :=
  let s := takePin s h c.id
  match s.lockets.get? h with
  | none => s
  | some l =>
    match l.state with
    | .opened | .bound => let w := reviveWords h l.page false; complete s c stOk w.1 w.2 0
    | .parkedT2 => reviveParked s c h l
    | .parkedT3 => if (s.bay l.bay).mode == .detaching then complete s c stBusy 0 5 0 else reviveParked s c h l
    | _ => stateRefuse s c l

/-- REVIVE. -/
def execRevive (id : Nat) (s : State) : Out := sessionCmd s id 0x26 reviveStart

/-- A promotion ends without a T1 copy: its reservation is freed and the locket is parked as before, and touched as it enters that state (08 Table 8-5,
R296). -/
def undoPromotion (s : State) (h : Nat) : State :=
  match s.lockets.get? h with
  | none => s
  | some l =>
    match (if l.state == .promoting then l.move else none) with
    | none => s
    | some m =>
      let s := unpinReplicas (releaseFrames s m.home m.frames) (pinLocket h)
      s.locketM h fun l => { l with state := if m.src = 2 then .parkedT2 else .parkedT3, dst := 0, move := none, footprint := 0, lastTouch := s.now
                                    dirtyControl := true }

/-- The promoted locket: control page, thread and page tables in T1; its pages have their bytes (08 R304 steps 5 and 6). -/
def buildPromoted (s : State) (h : Nat) (l : Locket) (m : TierMove) (hd : ExtHead) (plain : List Byte) : State :=
  let img := ((loadedSlot s l.slot).map (·.image)).getD []
  let w := warmFrom l hd plain
  let pages := pagesIn hd plain
  let ci := (s.charms.find? (fun e => e.2.tenant == l.tenant && e.2.digest == w.charmDigest)).map (·.1)
  let s := s.locketM h fun _ =>
    { w with state := .opened, dst := 0, move := none, home := m.home, page := m.page, threadAddr := threadPlace img m.page, extent := 0, units := 0, bay := 0xFF
             encrypted := false, kvAbsent := false, adopted := false, demoteBlocked := false, lastTouch := s.now, lastSeal := s.now, ptes := []
             charmTable := (ci.map (fun k => replicaId k m.home)).getD 0, dropped := !hd.kv, dirtyControl := true }
  presentPages s h m.home (pages.map (·.1)) m.frames

/-- The read of a promotion has ended with a status: the copy is verified and committed, or undone (08 R304, Table 8-7). -/
def endPromotion (s : State) (h : Nat) (l : Locket) (m : TierMove) (status : Nat) : State :=
  let fail := fun (s : State) => let s := undoPromotion s h
    match m.cmd with | some id => completeId s id stTarnished 0 0x15 0 | none => s
  if status != 0 then fail s else
  match sourcePlain s l with
  | none => fail s
  | some (hd, plain, tarn) =>
    if !tarn.isEmpty || bodyDigest tarn plain != hd.digest then fail s
    else
      let s := buildPromoted s h l m hd plain
      let s := if hd.kv then s else beginRecompute s h m.frames (((m.cmd.bind (findCmd s)).map (·.accept)).getD s.now) false
      let s := freeExtent s l.extent
      let w := reviveWords h m.page (!hd.kv)
      match m.cmd with | some id => completeId s id stOk w.1 w.2 0 | none => s

/-- PROMOTION_COMMIT (08 R304). -/
def execPromotionCommit (handle : Nat) (s : State) : Out :=
  match s.lockets.get? handle with
  | none => .next s
  | some l =>
    match l.move, consume s (.promote handle) with
    | some m, some (s1, st) => when (l.state == .promoting) s (endPromotion s1 handle l m st)
    | _, _ => .next s

/-- REPLICA_PROMOTE_DONE (08 Table 8-13): a copy that failed leaves the replica ABSENT. -/
def execReplicaPromoteDone (charm stack : Nat) (s : State) : Out :=
  formed (decide (stack < 8)) (
  match s.charms.get? charm, consume s (.replica charm stack) with
  | some m, some (s1, st) =>
    let r := m.replicas.getD stack {}
    if r.state != .promoting then .next s
    else
      let s1 := unpinReplicas s1 (pinCopy charm stack)
      if st == 0 || st == 4 then
        let s1 := finishCharm (s1.replicaM charm stack fun r => { r with state := .present, idleSince := s1.now }) charm
        .next ((s1.lockets.filter (fun e => e.2.ringDue && e.2.charmTable == replicaId charm stack)).foldl (fun s e => ringIfReady s e.1) s1)
      else if m.cmd.isSome then .next (failCharm s1 charm)
      else .next ((releaseFrames s1 stack r.frames).replicaM charm stack fun r => { r with state := .absent, frames := [] })
  | _, _ => .next s)

end Sys2Proof.Machine
end

