-- ==== Sys2Proof/Machine/Cuts.lean ====
section
/-!
DEFINITION. Sys2Proof/Machine/Cuts.lean: what a cut captures at a meridian, how its pieces, shard records, index units and manifest are formed and
sent, and how a cut ends or is abandoned (14 R519 to R542).
-/
namespace Sys2Proof.Machine

/-! ## Capture (14 R521 to R526) -/

/-- A cut in flight changed. -/
def cutM (s : State) (n : Nat) (f : Cut → Cut) : State :=
  s.ckptM fun k => { k with cuts := k.cuts.map fun c => if c.frame = n then f c else c }

/-- The cut in flight of a frame. -/
def findCut (s : State) (n : Nat) : Option Cut := s.ckpt.cuts.find? (fun c => c.frame == n)

/-- Key of the control state's record among the lockets' (14 R521). -/
def controlKey : Nat := 2 ^ 26

/-- Handle of a capture as a key. -/
def capKey (c : Capture) : Nat := c.handle.getD controlKey

/-- Depth and full frame of the newest capture of a handle's session: of a cut in flight, else of the store (14 R525). -/
def lastCap (s : State) (key session : Nat) : Option (Nat × Nat) :=
  match (s.ckpt.cuts.reverse.findSome? (fun c => c.captures.find? (fun p => capKey p == key && p.session == session))) with
  | some p => some (p.depth, p.fullCut)
  | none => (s.ckpt.last.get? key).bind (fun l => if l.session = session then some (l.depth, l.fullCut) else none)

/-- The capture must be full (14 R525). -/
def mustBeFull (s : State) (n : Nat) (last : Option (Nat × Nat)) (arrived : Bool) : Bool :=
  match last with
  | none => true
  | some (d, f) => arrived || 64 ≤ d + 1 || f + s.ckpt.refresh ≤ n

/-- Capture-buffer units that the cuts in flight hold in a stack (14 R524). -/
def bufferUsed (s : State) (st : Nat) : Nat :=
  s.ckpt.cuts.foldl (fun a c => (c.captures.filter (fun p => p.home == st)).foldl (fun a p => a + (p.pieces.filter (fun q => q.kind == 1 || q.kind == 2 || q.kind == 4)).length) a) 0

/-- Units of the capture buffer of a stack. -/
def bufferSize (s : State) : Nat := s.lan.config.captureBuf * 256

/-- Units of a byte list from a first one on, as pieces of a kind, with the tarnish of the T1 bytes they are copied from. -/
def unitPieces (s : State) (kind charm tenant first : Nat) (addr : Option Nat) (b : List Byte) : List Piece :=
  (((unitsOf b).zipIdx).drop first).map fun u =>
    { kind := kind, charm := charm, index := u.2, data := u.1, tarn := (addr.map (fun a => unitTarn s (a + 4096 * u.2))).getD [], tenant := some tenant }

/-- The retained packets of a session in 512-byte slots (14 R552, Table 14-2). -/
def keptPackets (l : Locket) : List Byte := ((l.packets.filter (fun p => l.acked ≤ p.seq)).map (fun p => padTo 512 p.bytes)).flatten

/-- A page of a stack is pinned: PIN is set and the TLB updated (05 Table 5-9). -/
def setPin (s : State) (h vpn : Nat) (b : Bool) : State :=
  let s := s.locketM h fun l => { l with ptes := l.ptes.upd vpn fun p => { p with pin := b } }
  s.astM fun a => { a with tlb := a.tlb.map (fun e => (e.1, e.2.map (fun t => if t.id = h && t.vpn = vpn then { t with pte := { t.pte with pin := b } } else t))) }

/-- The n lowest free spare slots of a stack (09 R331). -/
def freeSlots (s : State) (st n : Nat) : List Nat :=
  let used := (s.hbc.getD st {}).spare
  ((List.range (used.length + n)).filter (fun k => !(used.has k) && k < 65536)).take n

/-- T1 bytes of a spare slot of a stack, in the spare region above the usable one (09 R327, R331). -/
def spareAddr (st k : Nat) : Nat := t1Addr st (usable + 65536 * k)

/-- An in-stack copy of a frame into the lowest free spare slot is requested; the copy engine refuses one whose slot is occupied or whose frame lies outside the
usable region, and the cut that asked is told (09 R331, R333; 14 R534). -/
def requestCopy (n owner st vpn frame : Nat) (s : State) : State :=
  let k := (freeSlots s st 1).headD 0
  if (s.hbc.getD st {}).spare.has k || usable < frameAddr s st frame % 2 ^ 36 + 65536 then
    cutM { s with hbc := s.hbc.modify st fun b => { b with evCopyRefused := true } } n fun c => { c with refused := true }
  else { s with hbc := s.hbc.modify st fun b => { b with spare := b.spare.set k n, copyQ := b.copyQ ++ [{ frame := frame, slot := k, cut := n, owner := owner, vpn := vpn }] } }

/-- A locket in T1 has changed since its last capture in the current store (14 R521). -/
def changed (s : State) (h : Nat) (l : Locket) : Bool := l.dirtyControl || !l.dirty.isEmpty || l.arrived || (lastCap s h l.session).isNone

/-- The capture of one locket in the cut of frame n; where the capture buffer or the spare slots cannot hold it, nothing (14 R524). -/
def captureLocket (n : Nat) (s : State) (h : Nat) : State :=
  match s.lockets.get? h with
  | none => s
  | some l =>
    if !inT1 l || opening l || !changed s h l then s else
    let last := lastCap s h l.session
    let full := mustBeFull s n last l.arrived
    let absent := l.dropped || l.recomputing
    let own := if absent then [] else presentOwn l
    let units := if full then (own.map (fun e => (List.range 16).map (· + 16 * e.1))).flatten else l.dirty.filter (fun u => own.any (fun e => e.1 == u / 16))
    let pages := own.filter (fun e => units.any (fun u => u / 16 == e.1))
    let thr := unitPieces s 2 0 l.tenant (if full then 0 else 2 * l.captured / 4096) (some l.threadAddr) (symBytes l.thread)
    let bufs := unitPieces s 1 0 l.tenant 0 (some l.page) (controlPage h l) ++ thr ++ unitPieces s 4 0 l.tenant 0 none (keptPackets l)
    if bufferSize s < bufferUsed s l.home + bufs.length || 65536 < (s.hbc.getD l.home {}).spare.length + pages.length then s else
    let cap : Capture :=
      { handle := some h, session := l.session, tenant := l.tenant, home := l.home, full := full, kvAbsent := absent, ttls := [l.ttl1, l.ttl2, l.ttl3]
        state := locketCode l.state, context := if l.state == .bound then l.context else 0xFF, member := if l.state == .bound then l.member else 0xFFFF
        acked := l.acked, tick := s.now, depth := if full then 0 else (last.map (·.1)).getD 0 + 1, fullCut := if full then n else (last.map (·.2)).getD n
        pieces := bufs, cleared := units, prevLen := l.captured, prevArrived := l.arrived }
    let s := cutM s n fun c => { c with captures := c.captures ++ [cap] }
    let s := pages.foldl (fun s e => requestCopy n h e.2.stack e.1 e.2.frame (setPin s h e.1 true)) s
    s.locketM h fun l => { l with dirty := l.dirty.filter (fun u => !units.contains u), dirtyControl := false, captured := l.thread.length, arrived := false }

/-- Pin of a cut on an anchor replica (14 R526). -/
def pinOfCut (n : Nat) : Nat := 2 * (2 ^ 41 + n)

/-- A control-state record of a charm's name or of a facet (14 Table 14-6). -/
def charmRec (ci : Nat) (m : Charm) (name : Nat) : List Byte :=
  padTo 256 (natLe 1 1 ++ zeros 7 ++ natLe 8 name ++ natLe 4 m.ttl ++ natLe 4 m.t1Ttl ++ natLe 3 ci ++ zeros 1 ++ natLe 4 (ceilDiv (2 * m.symbols.length) 4096) ++
    charmRecord m)

/-- The facet record. -/
def facetRec (s : State) (f : Facet) : List Byte :=
  padTo 256 (natLe 1 2 ++ zeros 7 ++ natLe 8 f.handle ++ natLe 2 f.tenant ++ zeros 14 ++ natBe 32 f.hash ++ natBe 32 (((s.parures.get? f.slot).map (·.hash)).getD 0))

/-- Charms that the control state holds: those whose creation is complete. -/
def keptCharms (s : State) : Tab Charm := s.charms.filter (fun e => e.2.cmd.isNone)

/-- Every control-state record, charms by index and name, then facets. -/
def controlRecs (s : State) : List Byte :=
  ((keptCharms s).map (fun e => (e.2.names.map (charmRec e.1 e.2)).flatten)).flatten ++ ((s.facets.filter (·.handle != 0)).map (facetRec s)).flatten

/-- The symbols of a charm, and its pages where they are read from its master, as pieces. -/
def charmPieces (s : State) (ci : Nat) (m : Charm) : List Piece :=
  unitPieces s 0x11 ci m.tenant 0 (some m.addr) (symBytes m.symbols) ++
  (if replicaState m m.anchor == .present then [] else
    ((masterPages s m).map (fun p => (unitPieces s 0x12 ci m.tenant 0 none (padTo 65536 p.2)).map (fun q => { q with index := 16 * p.1 + q.index }))).flatten)

/-- The capture of the control state: its records, and the symbols and pages of the charms that its chain does not hold (14 R521, R525, R526). -/
def captureControl (n : Nat) (s : State) : State :=
  if !s.ckpt.controlDirty && (lastCap s controlKey 0).isSome then s else
  let last := lastCap s controlKey 0
  let full := mustBeFull s n last false
  let held := if full then [] else s.ckpt.heldCharms
  let new := (keptCharms s).filter (fun e => !held.contains e.2.digest)
  let room := fun (st : Nat) => 65536 - (s.hbc.getD st {}).spare.length
  let need := fun (st : Nat) => (new.filter (fun e => e.2.anchor == st && replicaState e.2 st == .present)).foldl (fun a e => a + (e.2.replicas.getD st {}).frames.length) 0
  if (List.range 8).any (fun st => room st < need st) then s else
  let b := controlRecs s
  let size := if full then b.length else max b.length (4096 * s.ckpt.heldRecs)
  let recs := (unitPieces s 0x10 0 0 0 none (padTo size b)).map (fun p => { p with tenant := none })
  let cap : Capture := { full := full, tick := s.now, depth := if full then 0 else (last.map (·.1)).getD 0 + 1, fullCut := if full then n else (last.map (·.2)).getD n
                         pieces := recs ++ (new.map (fun e => charmPieces s e.1 e.2)).flatten, prevCharms := s.ckpt.heldCharms, prevLen := s.ckpt.heldRecs }
  let s := cutM s n fun c => { c with captures := c.captures ++ [cap] }
  let s := new.foldl (fun s e =>
    let img := ((loadedHash s e.2.parureHash).map (·.2.image)).getD []
    if replicaState e.2 e.2.anchor == .present then
      ((charmVpns img e.2.symbols.length e.2.glen).zip (e.2.replicas.getD e.2.anchor {}).frames).foldl
        (fun s p => requestCopy n (replicaId e.1 e.2.anchor) e.2.anchor p.1 p.2 s) (pinReplica s e.1 e.2.anchor (pinOfCut n))
    else s) s
  s.ckptM fun k => { k with controlDirty := false, heldCharms := held ++ new.map (·.2.digest), heldRecs := recs.length }

/-- The DIGEST of an extent's header (08 Table 8-9). -/
def extDigest (s : State) (ext : Nat) : Nat := ((s.extents.get? ext).map (fun e => beNat (bytesAt e.data 64 32))).getD 0

/-- A locket's directory entry as a cut finds it (14 R540). -/
def dirEnt (s : State) (e : Nat × Locket) : Option DirEnt :=
  let l := e.2
  let d : DirEnt := { handle := e.1, kind := 1, state := locketCode l.state, tenant := l.tenant, session := l.session }
  let lower := fun (t ext bay : Nat) => some { d with kind := t, extent := ext, bay := bay, units := ((s.extents.get? ext).map (·.units)).getD 0, digest := extDigest s ext }
  let src := (l.move.map (·.src)).getD 1
  if inT1 l then (if opening l then none else some d)
  else match l.state with
    | .parkedT2 => lower 2 l.extent 0
    | .parkedT3 => lower 3 l.extent l.bay
    | .demoting => lower src l.extent l.bay
    | .promoting => lower src l.extent l.bay
    | _ => none

/-- Lockets whose commit copy is in progress: members of a sealed step that has not reached its boundary (14 R522). -/
def committing (s : State) : List Nat :=
  (s.eph.ctxs.vals.map (fun x => match x.step with
    | some st => if st.sealedAt.isSome then (st.rows.filter (fun r => r.active && !st.removed.contains r.member)).map (·.handle) else []
    | none => [])).flatten

/-- Handles in the order of capture: BOUND by context and member, then the others by handle (14 R524). -/
def captureOrder (s : State) : List Nat :=
  let bound := sortBy (fun (a b : Nat × Locket) => a.2.context * 1024 + a.2.member ≤ b.2.context * 1024 + b.2.member) (s.lockets.filter (fun e => e.2.state == .bound))
  bound.map (·.1) ++ (s.lockets.filter (fun e => e.2.state != .bound)).map (·.1)

/-- The store that the next cut adds to is absent or lags: its records are forgotten, so that every capture is full (14 R537). -/
def forgetStore (s : State) : State := s.ckptM fun k => { k with last := [], heldExt := [], heldCharms := [], heldRecs := 0 }

/-- A cut may be taken (14 R519). -/
def cutsOn (s : State) : Bool := s.ckpt.en = 1 && s.eph.active.isSome && s.std.buddy.isSome

/-- A meridian under 14 R519 to R524: the cut of frame n is taken, or counted as skipped. `newest` is the newest complete cut of the store, as the buddy
answers (14 R537). -/
def takeCut (s : State) (n : Nat) (newest : Option Nat) : State :=
  let stuck := s.ckpt.cuts.filter (fun c => c.frame + 2 ≤ n && !c.late)
  let s := s.ckptM fun k => { k with late := stuck.foldl (fun a _ => satInc a (2 ^ 32 - 1)) k.late
                                     cuts := k.cuts.map fun c => if c.frame + 2 ≤ n then { c with late := true } else c }
  if !cutsOn s then s else
  if 2 ≤ s.ckpt.cuts.length then s.ckptM fun k => { k with skipped := satInc k.skipped (2 ^ 32 - 1) } else
  let lag := match newest with | none => true | some m => decide (m < s.ckpt.lastCut)
  let s := if lag && s.ckpt.cuts.isEmpty then forgetStore s else s
  let wait := committing s
  let dir := s.lockets.filterMap (dirEnt s)
  let new := dir.filter (fun d => d.kind == 2 && !s.ckpt.heldExt.has d.extent && !s.ckpt.cuts.any (fun c => c.extents.any (fun x => x.extent == d.extent)))
  let carried := new.filterMap (fun d => (s.extents.get? d.extent).map (fun e => ({ extent := d.extent, tenant := d.tenant, data := e.data, tarn := e.tarnish } : CarriedExt)))
  let cut : Cut := { frame := n, tick := s.now, epoch := s.std.epoch, buddy := s.std.buddy.getD 0, deferred := wait, dir := dir, extents := carried, allFull := lag }
  let s := s.ckptM fun k => { k with cuts := k.cuts ++ [cut], snapshots := k.snapshots.map fun p => if p.cut.isNone then { p with cut := some n } else p }
  captureControl n ((captureOrder s).foldl (fun s h => if wait.contains h then s else captureLocket n s h) s)

/-- The commit copies of a step have ended: the captures that waited for them (14 R522). -/
def captureDeferred (s : State) (hs : List Nat) : State :=
  s.ckpt.cuts.foldl (fun s c =>
    let mine := c.deferred.filter hs.contains
    mine.foldl (captureLocket c.frame) (cutM s c.frame fun c => { c with deferred := c.deferred.filter (fun h => !hs.contains h) })) s

/-! ## Copies (09 R331, 14 R526) -/

/-- Another copy of a frame is still queued in its stack. -/
def copyQueued (s : State) (st frame : Nat) : Bool := (s.hbc.getD st {}).copyQ.any (fun q => q.frame == frame)

/-- A frame is no longer awaited by any copy: its PIN is cleared, or, passed to the cut, it is freed (05 Table 5-9). -/
def releaseCopied (s : State) (st : Nat) (q : CopyReq) : State :=
  if copyQueued s st q.frame then s else
  match s.ast.frames.get? (frameKey st q.frame) with
  | some (.cut _) => releaseFrames s st [q.frame]
  | _ =>
    match (s.lockets.get? q.owner).bind (fun l => l.ptes.get? q.vpn) with
    | some p => if p.stack = st && p.frame = q.frame && p.pin then setPin s q.owner q.vpn false else s
    | none => s

/-- The copy engine copies the codewords of a frame into the request's spare slot as they stand, tarnish included (09 R331). -/
def copyToSlot (s : State) (st : Nat) (q : CopyReq) : State :=
  let a := frameAddr s st q.frame
  let b := spareAddr st q.slot
  let old := s.integ.tarnishT1.filter (fun c => !(b ≤ 16 * c && 16 * c < b + 65536))
  let moved := (s.integ.tarnishT1.filter (fun c => a ≤ 16 * c && 16 * c < a + 65536)).map (fun c => c - a / 16 + b / 16)
  { s with t1 := s.t1.copyFrom s.t1 a b 65536, integ := { s.integ with tarnishT1 := addMarks old moved } }

/-- The pieces that a capture takes from a copied page: units of its spare slot. -/
def copiedPieces (s : State) (st : Nat) (q : CopyReq) (c : Capture) (charm : Option (Nat × Nat)) : List Piece :=
  let a := spareAddr st q.slot
  match charm with
  | some (ci, t) => (List.range 16).map fun u =>
      { kind := 0x12, charm := ci, index := 16 * q.vpn + u, tarn := unitTarn s (a + 4096 * u), tenant := some t, slot := some (st, q.slot) }
  | none => (c.cleared.filter (fun u => u / 16 == q.vpn)).map fun u =>
      { kind := 3, index := u, tarn := unitTarn s (a + 4096 * (u % 16)), tenant := some c.tenant, slot := some (st, q.slot) }

/-- The oldest copy of a stack is complete (14 R526). -/
def copyDone (s : State) (st : Nat) (q : CopyReq) : State :=
  let s := copyToSlot { s with hbc := s.hbc.modify st fun b => { b with copyQ := b.copyQ.drop 1 } } st q
  let ci := (q.owner - 2 ^ 26) / 8
  let charm := if q.owner < 2 ^ 26 then none else some (ci, ((s.charms.get? ci).map (·.tenant)).getD 0)
  let s := cutM s q.cut fun c => { c with captures := c.captures.map fun p =>
    if (if q.owner < 2 ^ 26 then p.handle == some q.owner else p.handle.isNone) then { p with pieces := p.pieces ++ copiedPieces s st q p charm } else p }
  if q.owner < 2 ^ 26 then releaseCopied s st q
  else if (s.hbc.getD st {}).copyQ.any (fun r => r.owner == q.owner && r.cut == q.cut) then s
  else s.charmM ci fun m => { m with replicas := m.replicas.modify st fun r => { r with pins := r.pins.filter (· != pinOfCut q.cut) } }

/-- Copies of a cut are still queued. -/
def copying (s : State) (n : Nat) : Bool := s.hbc.any (fun b => b.copyQ.any (fun q => q.cut == n))

/-! ## The cut extent and the manifest (14 R529 to R542) -/

/-- Current key slot and key of a tenant. -/
def currentKey (s : State) (t : Option Nat) : Option (Nat × List Byte) :=
  t.bind (fun t => let k := s.keys.getD t {}; k.current.bind (fun n => (k.slot n).map (fun b => (n, b))))

/-- The bytes of a piece: those it carries, or its unit of a spare slot (14 R529). -/
def pieceData (s : State) (p : Piece) : List Byte :=
  match p.slot with
  | some (st, k) => s.t1.readN (spareAddr st k + 4096 * (p.index % 16)) 4096
  | none => p.data

/-- Digest over the plaintext of a unit, tarnished codewords counted as zero (14 R531). -/
def pieceDigest (s : State) (p : Piece) : List Byte := sha256 (blankTarnish 0 p.tarn (pieceData s p))

/-- A piece as stored at a unit offset of the cut extent (14 R530). -/
def storedUnit (s : State) (ext : Nat) (p : Piece) (off : Nat) : List Byte :=
  let b := padTo 4096 (blankTarnish 0 p.tarn (pieceData s p))
  match currentKey s p.tenant with
  | some (_, k) => xtsUnit true k (ext * 2 ^ 64 + off) b
  | none => b

/-- A piece entry (14 Table 14-3). -/
def pieceEntry (s : State) (n : Nat) (p : Piece) (off : Nat) : List Byte :=
  natLe 1 p.kind ++ natLe 3 p.charm ++ natLe 4 p.index ++ natLe 8 n ++ natLe 4 off ++ natLe 1 (((currentKey s p.tenant).map (·.1)).getD 0xFF) ++ zeros 3 ++
  padTo 32 (pieceDigest s p) ++ zeros 8

/-- A shard record, padded to whole units (14 R539, Table 14-4). -/
def shardRecord (c : Capture) (prev : Option LastCapture) (entries : List (List Byte)) (keyFps : List Nat) : List Byte :=
  let pv := if c.full then none else prev
  padUnits (ascii "CL9SHARD" ++ natLe 2 1 ++ natLe 1 (if c.handle.isSome then 1 else 2) ++ natLe 1 (maskOf [c.full, c.kvAbsent]) ++ natLe 4 entries.length ++
    natLe 8 c.session ++ (((List.range 3).map (fun i => natLe 4 (c.ttls.getD i 0))).flatten) ++ natLe 1 c.state ++ natLe 1 c.context ++ natLe 2 c.member ++ natLe 8 c.acked ++
    natLe 8 ((pv.map (·.cut)).getD 0) ++ natLe 4 ((pv.map (·.offset)).getD 0) ++ natLe 2 c.depth ++ natLe 2 ((pv.map (·.units)).getD 0) ++
    natBe 32 ((pv.map (·.digest)).getD 0) ++ natLe 8 c.tick ++ natLe 2 c.tenant ++ natLe 4 (keyFps.headD 0) ++ zeros 18 ++ entries.flatten)

/-- The places of a list of pieces from a unit offset on. -/
def placed (off : Nat) (ps : List Piece) : List (Piece × Nat) := ps.zipIdx.map (fun e => (e.1, off + e.2))

/-- The parts of a cut extent as they are laid out: pieces with their unit offsets by capture, extents with theirs, and the offset after them. Unit 0 is the
extent's header; spare-slot units come first, then capture-buffer units, extents and control-state units (14 R529). -/
def layoutCut (c : Cut) : List (Capture × List (Piece × Nat)) × List (CarriedExt × Nat) × Nat :=
  let caps := c.captures.map (fun p => (p, if p.handle.isNone then (([] : List Piece), ([] : List Piece), p.pieces)
    else (p.pieces.filter (fun q => q.kind == 3), p.pieces.filter (fun q => q.kind != 3), [])))
  let spread := fun (sel : (List Piece × List Piece × List Piece) → List Piece) (off : Nat) =>
    caps.foldl (fun (acc : List (List (Piece × Nat)) × Nat) e => (acc.1 ++ [placed acc.2 (sel e.2)], acc.2 + (sel e.2).length)) ([], off)
  let kv := spread (·.1) 1
  let buf := spread (·.2.1) kv.2
  let exts := c.extents.foldl (fun (acc : List (CarriedExt × Nat) × Nat) x => (acc.1 ++ [(x, acc.2)], acc.2 + ceilDiv x.data.length 4096)) ([], buf.2)
  let ctl := spread (·.2.2) exts.2
  ((c.captures.zipIdx).map (fun e => (e.1, kv.1.getD e.2 [] ++ buf.1.getD e.2 [] ++ ctl.1.getD e.2 [])), exts.1, ctl.2)

/-- Index entry of a handle (14 Table 14-5). -/
def indexEntry (newLast : Tab LastCapture) (newExt : Tab (Nat × Nat)) (d : DirEnt) : Option (Nat × List Byte) :=
  let go := fun (kind units cut off digest : Nat) =>
    some (d.handle, natLe 1 kind ++ natLe 1 d.state ++ natLe 2 d.tenant ++ natLe 4 units ++ natLe 8 d.session ++ natLe 8 cut ++ natLe 4 off ++ zeros 4 ++ natBe 32 digest)
  match d.kind with
  | 1 => (newLast.get? d.handle).bind (fun l => if l.session = d.session then go 1 l.units l.cut l.offset l.digest else none)
  | 2 => (newExt.get? d.extent).bind (fun p => go 2 d.units p.1 p.2 d.digest)
  | _ => go 3 d.units d.extent d.bay d.digest

/-- The index units, as (u, 4 KiB) in ascending u (14 R540). -/
def indexUnits (es : List (Nat × List Byte)) : List (Nat × List Byte) :=
  ((es.map (fun e => e.1 / 64)).eraseDups).map fun u =>
    (u, ((List.range 64).map (fun i => padTo 64 (((es.find? (fun e => e.1 == 64 * u + i)).map (·.2)).getD []))).flatten)

/-- Unit 0 of a manifest with its HMAC (14 Table 14-7, R542). -/
def manifestHead (s : State) (c : Cut) (parures : List (List Byte)) (body : List Byte) (oldest : Nat) (ctl : LastCapture) : List Byte :=
  let key := s.ckpt.cutKey.getD []
  let a := ascii "CL9MANIF" ++ natLe 2 1 ++ natLe 1 (c.frame % 2) ++ natLe 1 parures.length ++ natLe 4 ((s.ckpt.cutKey.map keyFp).getD 0) ++ natLe 8 s.std.deviceId ++
    natLe 8 c.frame ++ natLe 2 c.epoch ++ natLe 3 s.lan.bootNonce ++ zeros 3 ++ natLe 4 (body.length / 4096) ++ zeros 4 ++ natLe 8 oldest ++ natLe 8 c.tick ++
    natBe 32 ctl.digest ++ natLe 8 ctl.cut ++ natLe 4 ctl.offset ++ natLe 4 ctl.units ++ padTo 32 (sha256 body) ++ zeros 80
  let z := fun (h : List Byte) => padTo 4096 (a ++ padTo 32 h ++ parures.flatten)
  z (hmac256 key (z []))

/-- The parures that a manifest lists: those LOADED, by load slot (14 Table 14-7). -/
def manifestParures (s : State) : List (List Byte) :=
  (s.parures.filter (fun p => p.2.state == .loaded)).map (fun p => padTo 48 (natBe 32 p.2.hash ++ natLe 1 p.2.widthCap))

/-- The cut extent and the manifest are formed (14 R529 to R542). -/
def formCut (s : State) (c : Cut) : State :=
  let (s, ext) := newExtentId s
  let (s, man) := newExtentId s
  let lay := layoutCut c
  let pieces := (lay.1.map (·.2)).flatten
  let recs := lay.1.foldl (fun (acc : List (List Byte) × Nat × Tab LastCapture) e =>
    let cap := e.1
    let prev := (acc.2.2.get? (capKey cap))
    let r := shardRecord cap prev (e.2.map (fun p => pieceEntry s c.frame p.1 p.2)) (e.2.filterMap (fun p => (currentKey s p.1.tenant).map (fun k => keyFp k.2)))
    let l : LastCapture := { cut := c.frame, offset := acc.2.1, units := r.length / 4096, depth := cap.depth, digest := beNat (sha256 r), fullCut := cap.fullCut
                             state := cap.state, session := cap.session }
    (acc.1 ++ [r], acc.2.1 + r.length / 4096, acc.2.2.set (capKey cap) l)) ([], lay.2.2, s.ckpt.last)
  let newExt := lay.2.1.foldl (fun (t : Tab (Nat × Nat)) x => t.set x.1.extent (c.frame, x.2)) s.ckpt.heldExt
  let newLast : Tab LastCapture := recs.2.2.filter (fun e => e.1 == controlKey || c.dir.any (fun d => d.handle == e.1 && d.kind == 1 && d.session == e.2.session))
  let newExt : Tab (Nat × Nat) := newExt.filter (fun e => c.dir.any (fun d => d.kind == 2 && d.extent == e.1))
  let idx := indexUnits (c.dir.filterMap (indexEntry newLast newExt))
  let units := sortBy (fun (a b : Nat × List Byte) => a.1 ≤ b.1) (pieces.map (fun p => (p.2, storedUnit s ext p.1 p.2)) ++ lay.2.1.map (fun x => (x.2, x.1.data)))
  let bytes := padTo 4096 (Config.cutHeader ext) ++ (units.map (·.2)).flatten ++ recs.1.flatten ++ (idx.map (·.2)).flatten
  let tarn := (pieces.map (fun p => p.1.tarn.map (· + 256 * p.2))).flatten ++ (lay.2.1.map (fun x => x.1.tarn.map (· + 256 * x.2))).flatten
  let body := padUnits (((idx.zipIdx).map (fun e => padTo 64 (natLe 4 e.1.1 ++ natLe 4 (recs.2.1 + e.2) ++ natLe 8 c.frame ++ padTo 32 (sha256 e.1.2)))).flatten)
  let oldest := (newLast.map (·.2.fullCut) ++ newExt.map (·.2.1)).foldl min c.frame
  let man_ := manifestHead s c (manifestParures s) body oldest (newLast.getD controlKey {}) ++ body
  cutM s c.frame fun c => { c with extentId := ext, manifestId := man, extentBytes := bytes, tarn := tarn, manifest := man_, recordsAt := lay.2.2, indexAt := recs.2.1
                                   newLast := newLast, newExt := newExt }

/-- A SEND of a drain: units of the cut extent or the manifest from a unit on (14 R529, R530). -/
def drainSend (s : State) (c : Cut) (ext off units tenant : Nat) (key : Option Nat) (slot : Option (Nat × Nat)) : State :=
  if units = 0 then s else
  submit s { cookie := 0, op := 5, tenant := tenant, keySlot := key, units := units, src := (slot.map (fun k => k.1 * 65536 + k.2)).getD off, dst := 4096 * off, extent := ext, peer := c.buddy, epoch := c.epoch
             reservedCh := true, purpose := .cut c.frame }

/-- The SENDs of a phase of the drain (14 R529). -/
def drainPhase (s : State) (c : Cut) : State :=
  if c.phase = 1 then
    let lay := layoutCut c
    let s := ((lay.1.map (·.2)).flatten).foldl (fun s p => drainSend s c c.extentId p.2 1 (p.1.tenant.getD 0) ((currentKey s p.1.tenant).map (·.1)) p.1.slot)
      (drainSend s c c.extentId 0 1 0 none none)
    lay.2.1.foldl (fun s x => drainSend s c c.extentId x.2 (ceilDiv x.1.data.length 4096) x.1.tenant none none) s
  else if c.phase = 2 then drainSend s c c.extentId c.recordsAt (c.indexAt - c.recordsAt) 0 none none
  else if c.phase = 3 then drainSend s c c.extentId c.indexAt (c.extentBytes.length / 4096 - c.indexAt) 0 none none
  else if c.phase = 4 then drainSend s c c.manifestId 0 (c.manifest.length / 4096) 0 none none
  else s

/-- SENDs of a cut that have not ended. -/
def draining (s : State) (n : Nat) : Bool := (allDescs s).any (fun d => d.purpose == Purpose.cut n)

/-- The drain goes on to its next phase when every SEND of the present one has ended (14 R529). -/
def drainOn (n : Nat) : Nat → State → State
  | 0, s => s
  | fuel + 1, s =>
    match findCut s n with
    | none => s
    | some c =>
      if c.phase = 0 || 5 ≤ c.phase || draining s n then s else
      let c := { c with phase := c.phase + 1 }
      drainOn n fuel (drainPhase (cutM s n fun d => { d with phase := d.phase + 1 }) c)

/-- The bytes that a SEND of a drain carries from a unit of its descriptor on. -/
def drainBytes (s : State) (n : Nat) (d : Desc) (unit : Nat) : List Byte × List Nat :=
  match findCut s n with
  | none => ([], [])
  | some c =>
    if d.extent = c.manifestId then (bytesAt c.manifest (d.dst + 4096 * unit) 4096, [])
    else (bytesAt c.extentBytes (d.dst + 4096 * unit) 4096, (c.tarn.filter (fun t => t / 256 == d.dst / 4096 + unit)).map (· % 256))

/-! ## The end of a cut (14 R533, R534) -/

/-- Spare slots, passed frames and replica pins that a cut holds are given back, and PINs that only it needs are cleared. -/
def freeCut (s : State) (n : Nat) : State :=
  let s := (List.range 8).foldl (fun s st =>
    let mine := (s.hbc.getD st {}).copyQ.filter (fun q => q.cut == n)
    let s := { s with hbc := s.hbc.modify st fun b => { b with copyQ := b.copyQ.filter (fun q => q.cut != n), spare := b.spare.filter (fun e => e.2 != n) } }
    mine.foldl (fun s q => if q.owner < 2 ^ 26 then releaseCopied s st q else s) s) s
  let s := s.astM fun a => { a with frames := a.frames.filter (fun e => e.2 != FrameUse.cut n || copyQueued s (e.1 / 2 ^ 20) (e.1 % 2 ^ 20)) }
  unpinReplicas s (pinOfCut n)

/-- One capture is taken back: what it cleared is dirty again (14 R534). -/
def undoCapture (s : State) (c : Capture) : State :=
  match c.handle with
  | none => s.ckptM fun k => { k with controlDirty := true, heldCharms := c.prevCharms, heldRecs := c.prevLen }
  | some h => s.locketM h fun l =>
      if l.session != c.session then l else { markDirty l c.cleared with dirtyControl := true, captured := min c.prevLen l.captured, arrived := l.arrived || c.prevArrived }

/-- One cut is abandoned (14 R534). -/
def abandonCut (s : State) (c : Cut) : State :=
  let s := abandonFor s (fun p => p == Purpose.cut c.frame)
  let s := c.captures.foldl undoCapture (freeCut s c.frame)
  s.ckptM fun k => { k with cuts := k.cuts.filter (fun d => d.frame != c.frame), abandoned := satInc k.abandoned (2 ^ 32 - 1)
                            snapshots := k.snapshots.map fun p => if p.cut = some c.frame then { p with cut := none } else p }

/-- A cut is abandoned, and with it every later cut in flight, whose records could refer to it (14 R534). -/
def abandonFrom (s : State) (n : Nat) : State := ((s.ckpt.cuts.filter (fun c => n ≤ c.frame)).reverse).foldl abandonCut s

/-- Every cut in flight is abandoned (14 R534, R559). -/
def abandonCuts (s : State) : State := s.ckpt.cuts.reverse.foldl abandonCut s

end Sys2Proof.Machine
end

