-- ==== Sys2Proof/Machine/Stores.lean ====
section
/-!
DEFINITION. Sys2Proof/Machine/Stores.lean: the checkpoint stores that this device holds for origins, in its T2 and on its coffers: what arrives from a
peer, when it is freed, and which manifest is valid (14 R528, R532, R535, R536, R543).
-/
namespace Sys2Proof.Machine

/-! ## Stores as the extents they consist of -/

/-- Boot nonce of an extent identifier (08 R312). -/
def bootOf (ext : Nat) : Nat := ext / 2 ^ 40 % 2 ^ 24

/-- Sealed checkpoint extents in T2. -/
def t2Store (s : State) : Tab Extent := s.extents.filter (fun e => e.2.ckpt && e.2.sealed && e.2.tier == 2)

/-- Sealed checkpoint extents on the coffer of a bay. -/
def bayStore (s : State) (n : Nat) : Tab Extent := (((s.bay n).coffer.map (·.extents)).getD []).filter (fun e => e.2.ckpt && e.2.sealed)

/-- ORIGIN, CUT and OLDEST_CUT of a manifest (14 Table 14-7). -/
def manOrigin (e : Extent) : Nat := fieldAt e.data 16 8
/-- CUT of a manifest. -/
def manCut (e : Extent) : Nat := fieldAt e.data 24 8
/-- BOOT of a manifest. -/
def manBoot (e : Extent) : Nat := fieldAt e.data 34 3
/-- OLDEST_CUT of a manifest. -/
def manOldest (e : Extent) : Nat := fieldAt e.data 48 8
/-- Slot that a manifest stands in: CUT mod 2, or on a coffer CUT / 64 mod 2 (14 R532, R536). -/
def manSlot (onCoffer : Bool) (e : Extent) : Nat := if onCoffer then manCut e / 64 % 2 else manCut e % 2

/-- The manifests of an origin. -/
def manifestsOf (x : Tab Extent) (origin : Nat) : Tab Extent := x.filter (fun e => e.2.kind == .manifest && manOrigin e.2 == origin)

/-- The manifests of one store. -/
def storeManifests (x : Tab Extent) (origin boot : Nat) : Tab Extent := (manifestsOf x origin).filter (fun e => manBoot e.2 == boot)

/-- Boot nonces of an origin's stores. -/
def bootsOf (x : Tab Extent) (origin : Nat) : List Nat := ((manifestsOf x origin).map (fun e => manBoot e.2)).eraseDups

/-- Newest cut of a store. -/
def storeNewest (x : Tab Extent) (origin boot : Nat) : Nat := (storeManifests x origin boot).foldl (fun a e => max a (manCut e.2)) 0

/-- The newer store of an origin: the one that holds the newer cut (log 39). -/
def newerBoot (x : Tab Extent) (origin : Nat) : Option Nat :=
  (bootsOf x origin).foldl (fun b k => match b with | none => some k | some j => if storeNewest x origin j < storeNewest x origin k then some k else some j) none

/-- The extents of one store. -/
def storeExts (x : Tab Extent) (origin boot : Nat) : Tab Extent :=
  x.filter (fun e => if e.2.kind == .manifest then manOrigin e.2 == origin && manBoot e.2 == boot else bootOf e.1 == boot)

/-- Extents of a store that no retained manifest needs: an older manifest of the slot, and cut extents below every OLDEST_CUT (14 R532, R535). -/
def staleExts (onCoffer : Bool) (x : Tab Extent) (origin boot newest : Nat) : List Nat :=
  let ms := storeManifests x origin boot
  let old := ms.filter (fun e => e.1 != newest && match x.get? newest with | some m => manSlot onCoffer e.2 == manSlot onCoffer m | none => false)
  let kept := ms.filter (fun e => !old.any (fun o => o.1 == e.1))
  let low := kept.foldl (fun a e => min a (manOldest e.2)) (2 ^ 64)
  let cuts := (storeExts x origin boot).filter (fun e => e.2.kind == .shard && e.2.owner < low)
  old.map (·.1) ++ cuts.map (·.1)

/-- Extents of stores beyond two per origin: those of the store with the oldest newest cut, the newly begun one excepted (14 R528). -/
def surplusExts (x : Tab Extent) (origin boot : Nat) : List Nat :=
  let others := (bootsOf x origin).filter (· != boot)
  if others.length < 2 then [] else
  match others.foldl (fun (b : Option Nat) k => match b with | none => some k | some j => if storeNewest x origin k < storeNewest x origin j then some k else some j) none with
  | some k => (storeExts x origin k).map (·.1)
  | none => []

/-- Frees a checkpoint extent on a coffer. -/
def dropCopy (n : Nat) (s : State) (id : Nat) : State :=
  cofferM (journal s n (.freeExt id)) n fun c => dropPieces { c with extents := c.extents.erase id } id

/-! ## Reading a store -/

/-- A store as a RESTORE reads it: its extents, and the boot nonce. -/
abbrev View := Tab Extent

/-- The extent that holds the units of a cut. -/
def cutExt (v : View) (n : Nat) : Option (Nat × Extent) := v.find? (fun e => e.2.kind == .shard && e.2.owner == n)

/-- Units of a cut extent; none where the store does not hold them. -/
def viewUnits (v : View) (n off units : Nat) : Option (List Byte) :=
  (cutExt v n).bind (fun e => if 4096 * (off + units) ≤ e.2.data.length then some (bytesAt e.2.data (4096 * off) (4096 * units)) else none)

/-- Entries of a shard record. -/
def shardEntries (r : List Byte) : List (List Byte) := (List.range (fieldAt r 12 4)).map (fun i => bytesAt r (128 + 64 * i) 64)

/-- A record is well-formed: magic, format, reserved fields (14 Table 14-4). -/
def shardOk (r : List Byte) : Bool :=
  r.take 8 == ascii "CL9SHARD" && fieldAt r 8 2 == 1 && (fieldAt r 10 1 == 1 || fieldAt r 10 1 == 2) && fieldAt r 11 1 < 4 && zeroAt r 110 18 && fieldAt r 104 2 < 1024 &&
  128 + 64 * fieldAt r 12 4 ≤ r.length

/-- The chain of shard records from a place on, newest first, each with its digest verified; none where one fails (14 R539, R543). -/
def shardChain (v : View) : Nat → Nat → Nat → Nat → Nat → Option (List (List Byte))
  | 0, _, _, _, _ => none
  | fuel + 1, cut, off, units, digest =>
    match viewUnits v cut off units with
    | none => none
    | some r =>
      if beNat (sha256 r) != digest || !shardOk r then none
      else if bitAt (fieldAt r 11 1) 0 then some [r]
      else (shardChain v fuel (fieldAt r 48 8) (fieldAt r 56 4) (fieldAt r 62 2) (beNat (bytesAt r 64 32))).map (r :: ·)

/-- One nonempty entry of an index (14 Table 14-5). -/
structure IndexEnt where
  handle : Nat
  kind : Nat
  state : Nat
  tenant : Nat
  units : Nat
  session : Nat
  cut : Nat
  off : Nat
  digest : Nat
deriving DecidableEq, Repr

/-- An index entry read from its bytes. -/
def readIndex (h : Nat) (b : List Byte) : IndexEnt :=
  { handle := h, kind := fieldAt b 0 1, state := fieldAt b 1 1, tenant := fieldAt b 2 2, units := fieldAt b 4 4, session := fieldAt b 8 8, cut := fieldAt b 16 8
    off := fieldAt b 24 4, digest := beNat (bytesAt b 32 32) }

/-- Body entries of a manifest as (u, offset, cut, digest) (14 R541). -/
def bodyEntries (m : List Byte) : List (Nat × Nat × Nat × Nat) :=
  ((List.range ((m.length - 4096) / 64)).map (fun i => bytesAt m (4096 + 64 * i) 64)).filterMap
    (fun b => if zeroAt b 0 64 then none else some (fieldAt b 0 4, fieldAt b 4 4, fieldAt b 8 8, beNat (bytesAt b 16 32)))

/-- Every index entry that a manifest reaches; none where an index unit is missing or its digest fails. -/
def manifestIndex (v : View) (m : List Byte) : Option (List IndexEnt) :=
  (bodyEntries m).foldl (fun acc b => acc.bind (fun l =>
    match viewUnits v b.2.2.1 b.2.1 1 with
    | none => none
    | some u =>
      if beNat (sha256 u) != b.2.2.2 then none
      else some (l ++ ((List.range 64).map (fun i => readIndex (64 * b.1 + i) (bytesAt u (64 * i) 64))).filter (fun e => e.kind != 0)))) (some [])

/-- The chain of the control state's record. -/
def controlChain (v : View) (m : List Byte) : Option (List (List Byte)) :=
  shardChain v 65 (fieldAt m 96 8) (fieldAt m 104 4) (fieldAt m 108 4) (beNat (bytesAt m 64 32))

/-- A manifest is valid (14 R543). -/
def manifestValid (s : State) (v : View) (m : List Byte) : Bool :=
  m.take 8 == ascii "CL9MANIF" && fieldAt m 8 2 == 1 && fieldAt m 10 1 < 2 && fieldAt m 11 1 ≤ 16 && zeroAt m 37 3 && zeroAt m 44 4 && zeroAt m 144 80 && zeroAt m 1024 3072 &&
  (List.range 16).all (fun i => zeroAt m (256 + 48 * i + 33) 15) &&
  (match s.ckpt.cutKey with
    | none => false
    | some k => keyFp k == fieldAt m 12 4 && hmac256 k ((m.take 224) ++ zeros 32 ++ (m.drop 256).take 3840) == bytesAt m 224 32) &&
  m.length == 4096 * (1 + fieldAt m 40 4) && sha256 (m.drop 4096) == bytesAt m 112 32 &&
  (controlChain v m).isSome &&
  (match manifestIndex v m with
    | none => false
    | some es => es.all (fun e => e.kind != 1 || (shardChain v 65 e.cut e.off e.units e.digest).isSome))

/-- Cut frames that a manifest reaches. -/
def reachedCuts (v : View) (m : List Byte) : List Nat :=
  let chain := fun (c : Option (List (List Byte))) (first : Nat) =>
    first :: ((c.getD []).filter (fun r => !bitAt (fieldAt r 11 1) 0)).map (fun r => fieldAt r 48 8)
  (((bodyEntries m).map (fun b => b.2.2.1)) ++ chain (controlChain v m) (fieldAt m 96 8) ++
    (((manifestIndex v m).getD []).map (fun e => if e.kind = 1 then chain (shardChain v 65 e.cut e.off e.units e.digest) e.cut else if e.kind = 2 then [e.cut] else [])).flatten).eraseDups

/-! ## Copies to a coffer (14 R536) -/

/-- The bay that receives the copies: COFFER_BAY, or the lowest-numbered writable bay. -/
def cofferBay (s : State) : Option Nat := if s.ckpt.cofferBay = 0xFF then (List.range 4).find? (writable s) else if writable s s.ckpt.cofferBay then some s.ckpt.cofferBay else none

/-- A WRITE_EXTENT of a checkpoint extent's copy, where the coffer has room for it (09 R339, R362). -/
def submitCopy (bay man : Nat) (s : State) (e : Nat × Extent) : State :=
  if !(writable s bay && e.2.units ≤ bayFree s bay && 2 ≤ (freeSbs s bay).length) then s else
  let x : Extent := { e.2 with tier := 3, bay := bay, sealed := false, runs := [], data := [], tarnish := [], readers := [], freeing := false, got := 0 }
  submit (cofferM s bay fun c => { c with extents := c.extents.set e.1 x }) { cookie := 0, op := 2, tier := 3, bay := bay, units := e.2.units, extent := e.1, reservedCh := true, purpose := .coffer man }

/-- A complete cut is copied to a coffer: the cut extents that its manifest reaches and the coffer lacks, then the manifest. -/
def startCopy (s : State) (man : Nat) : State :=
  match cofferBay s, s.extents.get? man with
  | some bay, some m =>
    let v := storeExts (t2Store s) (manOrigin m) (manBoot m)
    let need := (reachedCuts v m.data).filterMap (cutExt v)
    let miss := need.filter (fun e => !((bayStore s bay).has e.1))
    if miss.isEmpty then submitCopy bay man s (man, m) else miss.foldl (submitCopy bay man) s
  | _, _ => s

/-- A copy's descriptor has ended, its extent sealed on the coffer; after the last cut extent the manifest follows, and after it the coffer's store is trimmed. -/
def endCopy (s : State) (d : Desc) (man : Nat) : State :=
  match s.extents.get? d.extent with
  | none => s
  | some e =>
    if (allDescs s).any (fun x => x.purpose == Purpose.coffer man) then s
    else if d.extent != man then
      match s.extents.get? man with
      | some m => submitCopy d.bay man s (man, m)
      | none => s
    else
      let x := bayStore s d.bay
      let o := manOrigin e
      let b := manBoot e
      (staleExts true x o b man ++ surplusExts x o b).foldl (dropCopy d.bay) s

/-! ## What arrives from a peer (14 R528 to R535) -/

/-- An extent that a peer begins to send takes runs of the checkpoint partition; none where there is no room (09 R338, R340). -/
def beginReceived (s : State) (ext units : Nat) : Option State :=
  if s.extents.has ext then some s else
  (allocRuns s true units).map (fun r => { s with extents := s.extents.set ext { kind := .piece, ckpt := true, units := units, runs := r, data := zeros (4096 * units) } })

/-- A manifest has sealed here: it names the cut extent that preceded it, replaces the manifest of its slot, and what it no longer reaches is freed. -/
def manifestSealed (s : State) (man : Nat) : State :=
  match s.extents.get? man with
  | none => s
  | some m =>
    let o := manOrigin m
    let b := manBoot m
    let s := { s with extents := s.extents.set man { m with kind := .manifest, owner := manCut m } }
    let loose := (s.extents.filter (fun e => e.2.ckpt && e.2.tier == 2 && e.2.kind == .piece && bootOf e.1 == b && e.1 < man)).map (·.1)
    let s := match loose.getLast? with
      | some k => { s with extents := s.extents.upd k fun e => { e with kind := .shard, owner := manCut m } }
      | none => s
    let s := loose.dropLast.foldl freeExtent s
    let x := t2Store s
    let s := (staleExts false x o b man ++ surplusExts x o b).foldl freeExtent s
    if manCut m % 64 = 0 then startCopy s man else s

/-- A received extent of which every unit has been written is SEALED; a manifest then takes its slot (09 Table 9-3, 14 R529, R532). -/
def sealReceived (s : State) (ext : Nat) : State :=
  match s.extents.get? ext with
  | none => s
  | some e =>
    if e.sealed || e.got < e.units then s else
    let s := sealExtent s ext
    if e.data.take 8 == ascii "CL9MANIF" then manifestSealed s ext else s

/-- The units of a transfer that a peer sends to an extent of this device's T2, from one on: their bytes and the tarnish they carry; an LPC drops what is no
unit of an extent in WRITING (09 R337, R339; 14 R529). -/
def receiveUnits (s : State) (ext off : Nat) (data : List Byte) (tarn : List Nat) : State :=
  let n := min (ceilDiv data.length 4096) ((((s.extents.get? ext).map (·.units)).getD 0) - off)
  sealReceived ((List.range n).foldl (fun s i =>
    writeUnit s ext (off + i) (bytesAt data (4096 * i) 4096) ((tarn.filter (fun t => t / 256 == i)).map (· % 256))) s) ext

/-- The cuts that this device is receiving are abandoned: extents not yet sealed are undone (14 R559, 09 Table 9-3). -/
def dropReceiving (s : State) : State := ((s.extents.filter (fun e => e.2.ckpt && e.2.tier == 2 && !e.2.sealed)).map (·.1)).foldl dropExtent s

end Sys2Proof.Machine
end

