-- ==== Sys2Proof/Machine/Courier.lean ====
section
/-!
DEFINITION. Sys2Proof/Machine/Courier.lean: packet selection, what one packet moves, and seals of T3 extents (09 R339 to R357, 11 R418 to R425).
-/
namespace Sys2Proof.Machine

/-- The slot in progress is a COURIER slot (10 Table 10-1, R378). -/
def courierSlot (s : State) : Bool :=
  s.eph.running && ((s.eph.active.map (fun t => (t.slots.getD s.eph.slot {}).kind)).getD 0) == 3

/-- The descriptor fetches a parure from a peer (04 R153), or a store's extent for a RESTORE (09 Table 9-6). -/
def peerFetch (s : State) (d : Desc) : Bool :=
  d.op == 6 && match d.purpose with | .parure k => ((s.parures.get? k).bind (·.peer)).isSome | .restore _ => true | _ => false

/-- A descriptor's next packet can be accepted by its target at once (11 R421, 09 R346, 16 R604, R623, R358, R362, R371). The write buffer of a bay
holds 256 rows of 16 pages (log 65). -/
def descReady (s : State) (d : Desc) : Bool :=
  d.eligible && descOk d && d.sent < d.units &&
  (!(d.op == 2 && d.tier == 3) || (writable s d.bay && 2 ≤ (freeSbs s d.bay).length && (s.bay d.bay).programs.length < 256)) &&
  (!(d.op == 5 || peerFetch s d) || ((routePort s d.peer).isSome && bitAt s.std.members d.peer && (d.sent != 0 || (s.std.outXfers.filter (fun x => x.peer == d.peer)).length < 4096)))

/-- Channels whose descriptor can send, as (channel, flow). -/
def sendable (s : State) : List (Nat × Nat) := (s.cur.channels.filter (fun e => descReady s e.2)).map (fun e => (e.1, descFlow e.2))

/-- The channel of a flow that sends next: ascending, after the channel that sent the flow's last packet (11 R419). -/
def nextChannel (s : State) (flow : Nat) (chs : List Nat) : Option Nat :=
  match s.cur.lastCh.get? flow with
  | none => chs.head?
  | some k => (chs.find? (k < ·)).or chs.head?

/-- Total bytes of what a SEND writes to. -/
def sendTotal (s : State) (d : Desc) : Nat :=
  match d.purpose with
  | .cut n => ((findCut s n).map (fun c => if d.extent = c.manifestId then c.manifest.length else c.extentBytes.length)).getD 0
  | .peer _ => if d.dst = imageTarget then s.lan.image.length else min (4096 * d.units) (((parureHandle s d.src).map (fun p => p.2.image.length)).getD 0)
  | _ => 4096 * d.units

/-- The bytes of one unit of a SEND, and its tarnished blocks. -/
def sendBytes (s : State) (d : Desc) : List Byte × List Nat :=
  match d.purpose with
  | .cut n => drainBytes s n d d.sent
  | .peer _ =>
    if d.dst = imageTarget then (bytesAt s.lan.image (4096 * d.sent) 4096, [])
    else (bytesAt (((parureHandle s d.src).map (fun p => p.2.image)).getD []) (4096 * d.sent) 4096, [])
  | .peerExt _ ext => ((s.extents.get? ext).map (fun e => extentUnit s ext e d.sent)).getD ([], [])
  | _ => ([], [])

/-- A descriptor's transfer is announced (16 R604, R605). A SEND that answers a peer's FETCH names that descriptor's COOKIE. -/
def announceSend (s : State) (d : Desc) : State :=
  let k := freeXfer s d.peer
  let reply := match d.purpose with | .peer _ => d.dst != imageTarget | .peerExt _ _ => true | _ => false
  let ext := match d.purpose with | .peerExt _ _ => 0 | _ => d.extent
  let target := if d.op = 6 then d.src else if reply then 0 else d.dst
  let s := s.stdM fun x => { x with nextXfer := x.nextXfer.set d.peer ((k + 1) % 4096)
                                    outXfers := x.outXfers ++ [{ peer := d.peer, num := k, op := d.op, target := target, extent := ext, total := 4096 * d.units
                                                                 cookie := d.cookie, last := s.now }] }
  sendMsg s d.peer (xferSetup d.op d.units target ext (sendTotal s d) (if reply then d.dst else d.cookie) k)

/-- One packet of a SEND leaves: before the first, the transfer is announced; a unit is up to eight flits of one transfer (16 R602). A FETCH from a peer
is announced likewise, and its units come from the peer. -/
def sendPacket (s : State) (d : Desc) : State :=
  if d.op == 6 && !peerFetch s d then hostFetch s (d.src + 4096 * d.sent) 4096
  else if !(d.op == 5 || peerFetch s d) then s else
  let s := if d.sent != 0 then s else announceSend s d
  if d.op != 5 then s else
  match s.std.outXfers.find? (fun x => x.cookie == d.cookie && x.peer == d.peer) with
  | some x =>
    let u := sendBytes s d
    (((xferFlits d.peer (ownPos s) s.std.epoch d.tenant x.num u.1).zipIdx).map (fun f =>
      { f.1 with tarnish := maskOf ((List.range 32).map (fun i => u.2.contains (32 * f.2 + i))), reserve := d.reservedCh })).foldl sendFlit s
  | none => s

/-- The descriptor works for a tenant's command (10 Table 10-11). -/
def forCommand (s : State) (d : Desc) : Bool :=
  match d.purpose with
  | .put _ | .select _ | .facet _ | .promote _ | .charmMaster _ | .parure _ => true
  | .move _ _ => true
  | .demote h | .ring h => ((s.lockets.get? h).bind (fun l => l.move.bind (·.cmd))).isSome
  | _ => false

/-- The wait of a descriptor whose first packet leaves is counted (10 R412). -/
def countDesc (s : State) (d : Desc) : State := if d.sent = 0 && forCommand s d then countWait s d.tenant (s.now - d.since) else s

/-! ## What a packet moves (09 R339 to R348) -/

/-- The header and the plaintext that a WRITE_EXTENT sends, with the tarnish among them; copies of checkpoint extents go as stored (08 R299, R308, R315). -/
def writePlain (s : State) (d : Desc) : Option (ExtHead × List Byte × List Nat) :=
  match d.purpose with
  | .demote h => (s.lockets.get? h).bind (fun l => l.move.bind (demotionPlain s h l))
  | .charmMaster ci => (s.charms.get? ci).map (fun m => masterPlain s ci m d.keySlot)
  | _ => none

/-- The unit that a WRITE_EXTENT sends after n others: units 1 to UNITS − 1 in ascending order, and unit 0 last (09 R341). -/
def unitOrder (units n : Nat) : Nat := if n + 1 < units then n + 1 else 0

/-- One unit of a coffer's copy of a checkpoint extent, as stored in T2; on the coffer its tarnished codewords are zero bytes (09 R342, 14 R536). -/
def copyUnit (s : State) (d : Desc) (u : Nat) : State × Bool :=
  match s.extents.get? d.extent, (s.bay d.bay).coffer.bind (fun c => c.extents.get? d.extent) with
  | some e, some x =>
    let b := extentUnit s d.extent e u
    if x.sealed then (s, false) else (streamUnit s d.bay d.extent u (x.withUnit u (blankTarnish 0 b.2 b.1) b.2), !b.2.isEmpty)
  | _, _ => (s, false)

/-- One packet of a WRITE_EXTENT; on T2 the extent is SEALED when its last unit is written (09 Table 9-3, R341, R342). The second part tells whether the unit
carried tarnish. -/
def writePacket (s : State) (d : Desc) : State × Bool :=
  let u := unitOrder d.units d.sent
  match d.purpose, writePlain s d, s.extents.get? d.extent with
  | .coffer _, _, _ => copyUnit s d u
  | _, some (hd, plain, tarn), some e =>
    if u = 0 then
      let s := writeUnit s d.extent 0 (storedHead s hd e) []
      (if d.tier = 2 then sealExtent s d.extent else s, false)
    else
      let t := (tarn.filter (fun c => c / 256 == u)).map (· % 256)
      (writeUnit s d.extent u (storedBody s hd d.tier u (bytesAt plain (4096 * (u - 1)) 4096) t) t, !t.isEmpty)
  | _, _, _ => (s, false)

/-- A unit of an extent that is read, under the key of the descriptor from unit 1 on (08 R311). -/
def readPlain (s : State) (d : Desc) (e : Extent) (u : Nat) : List Byte × List Nat :=
  let x := extentUnit s d.extent e u
  match (if u = 0 then none else d.keySlot.bind (fun n => (s.keys.getD d.tenant {}).slot n)) with
  | some k => (xtsUnit false k (d.extent * 2 ^ 64 + u) x.1, x.2)
  | none => x

/-- A read of a unit on a coffer is counted by its superblock (09 R364). -/
def countRead (s : State) (d : Desc) (u : Nat) : State :=
  if d.tier != 3 then s else
  match (s.bay d.bay).coffer.bind (fun c => findUnit c d.extent u) with
  | some (k, _) => cofferM s d.bay fun c => { c with sbs := c.sbs.upd k fun b => { b with reads := b.reads + 1 } }
  | none => s

/-- One packet of a READ_EXTENT goes to its place of the destination list (09 R342, R347, R348). -/
def readPacket (s : State) (d : Desc) : State × Bool :=
  match ((if d.tier = 3 then (s.bay d.bay).coffer.bind (fun c => c.extents.get? d.extent) else none).or (s.extents.get? d.extent)) with
  | none => (s, true)
  | some e =>
    let b := readPlain s d e d.sent
    (unitPut (countRead s d d.sent) (d.dstList.getD d.sent zeroUnit) b.1 b.2, !b.2.isEmpty)

/-- One packet of a COPY: a unit of the source list, zeros where its entry has ZERO, goes to the place of the destination list (09 R347, R348). -/
def copyPacket (s : State) (d : Desc) : State × Bool :=
  let e := d.srcList.getD d.sent zeroUnit
  if bitAt e 63 then (unitPut s (d.dstList.getD d.sent zeroUnit) (zeros 4096) [], false) else
  let t := unitTarn s (unitEntry e)
  (unitPut s (d.dstList.getD d.sent zeroUnit) (t1Bytes s (unitEntry e) 4096) t, !t.isEmpty)

/-- What one packet of a descriptor moves: the state after it, and whether it carried tarnish. -/
def movePacket (s : State) (d : Desc) : State × Bool :=
  if d.op = 1 then copyPacket s d
  else if d.op = 2 then writePacket s d
  else if d.op = 3 then readPacket s d
  else if d.op = 7 then (match d.purpose with | .put id => (putPacket s d id, false) | _ => (s, false))
  else (sendPacket s d, false)

/-- The packet of a channel's descriptor is sent and counted. -/
def sendOn (s : State) (k f : Nat) (d : Desc) : State :=
  let r := movePacket (countDesc s d) d
  r.1.curM fun u =>
    { u with channels := u.channels.upd k (fun x => { x with sent := x.sent + 1, tarnished := x.tarnished || r.2 }), lastCh := u.lastCh.set f k
             units := (u.units + 1) % 2 ^ 64 }

/-- The unit of a T2 extent that the next packet of a descriptor reads. -/
def t2Source (s : State) (d : Desc) : Option (Nat × Nat) :=
  let src := match d.purpose with | .peerExt _ ext => ext | _ => d.extent
  let u := match d.purpose with | .coffer _ => unitOrder d.units d.sent | _ => d.sent
  let reads := (d.op == 3 && d.tier == 2) || match d.purpose with | .coffer _ | .peerExt _ _ => true | _ => false
  match s.extents.get? src with
  | some e => if reads && e.tier == 2 then some (src, u) else none
  | none => none

/-- A codeword of a T2 extent as its LPC leaves it: the data, or canonical tarnish (13 R482, R485). -/
def Extent.putWord (e : Extent) (c : Nat) : Option Nat → Extent
  | some w => { e with data := padTo (16 * c) (e.data.take (16 * c)) ++ natLe 16 (w % 2 ^ 128) ++ e.data.drop (16 * c + 16), tarnish := e.tarnish.filter (· != c) }
  | none => { e with data := padTo (16 * c) (e.data.take (16 * c)) ++ zeros 16 ++ e.data.drop (16 * c + 16), tarnish := addMarks e.tarnish [c] }

/-- An LPC reads codeword c of a unit with bits in error: it is corrected and counted, or becomes tarnish with its count, event and record
(13 R481, R485, R486; 09 Table 9-13). -/
def lpcReads (id u : Nat) (s : State) (e : Nat × Nat) : State :=
  match s.extents.get? id with
  | none => s
  | some x =>
    let c := 256 * u + e.1
    let a := runUnit x.runs u
    let n := lpcOf a
    let put := fun (s : State) (w : Option Nat) => { s with extents := s.extents.upd id fun y => y.putWord c w }
    let v := (if x.tarnish.contains c then tarnishWord else encode (leNat (padTo 16 (bytesAt x.data (16 * c) 16)))) ^^^ e.2
    match classify v with
    | .clean => put s (some v)
    | .corrected w => { put s (some w) with lpc := s.lpc.modify n fun l => { l with corr := wrapInc 32 l.corr } }
    | .tarnish => put s none
    | .uncorrectable =>
      let s := { put s none with lpc := s.lpc.modify n fun l => { l with uncorr := wrapInc 32 l.uncorr, evUncorr := true } }
      logFault (s.integM fun i => { i with tarnishMade := wrapInc 32 i.tarnishMade }) 0x02 (0xA8 + n) 0xFF 0 (4096 * a + 16 * e.1) 3

/-- The errors of the unit of T2 that a packet reads, as its LPC meets them. -/
def t2Errors (s : State) (d : Desc) (errors : List (Nat × Nat)) : State :=
  match t2Source s d with
  | some (id, u) => errors.foldl (lpcReads id u) s
  | none => s

/-- COURIER_PACKET_SELECT (09 R344, R348, 11 R418 to R425): the chosen channel sends one 4 KiB packet; the operand names the codewords of the T2 unit it
reads, where it reads one, that have bits in error (13 R485, R486). -/
def execCourierPacketSelect (s : State) (errors : List (Nat × Nat) := []) : Out :=
  formed (errors.all (fun e => decide (e.1 < 256) && decide (e.2 < 2 ^ 144))) (
  if !(s.cur.enable && serving s) then .next s else
  let c := sendable s
  match wfqSelect s 0 ((c.map (·.2)).eraseDups) (courierSlot s) with
  | (_, none) => .next s
  | (s1, some f) =>
    match (nextChannel s f ((c.filter (fun e => e.2 == f)).map (·.1))).bind (fun k => (s1.cur.channels.get? k).map (fun d => (k, d))) with
    | none => .next s
    | some (k, d) =>
      let s2 := sendOn (t2Errors s1 d errors) k f d
      .next (wfqCharge s2 0 f 1 ((sendable s2).any (fun e => e.2 == f)) (courierSlot s)))

/-- The extent that a WRITE_EXTENT writes is SEALED: on the coffer, for a copy of a checkpoint extent. -/
def writeSealed (s : State) (d : Desc) : Bool :=
  match d.purpose with
  | .coffer _ => (((s.bay d.bay).coffer.bind (fun c => c.extents.get? d.extent)).map (·.sealed)).getD false
  | _ => ((s.extents.get? d.extent).map (·.sealed)).getD false

/-- The extent of a T3 descriptor is sealed on its bay. -/
def sealWrite (s : State) (d : Desc) : State :=
  match d.purpose, (s.bay d.bay).coffer.bind (fun c => c.extents.get? d.extent) with
  | .coffer _, some x => sealOn s d.bay d.extent x
  | .coffer _, none => s
  | _, _ => sealExtent s d.extent

/-- EXTENT_SEAL (09 R355, R357): every unit of a T3 extent, with its closing row's parity, and its SEAL record are issued, and the coffer has acknowledged the
issue. -/
def execExtentSeal (bay ext : Nat) (s : State) : Out :=
  formed (decide (bay < 4)) (clocked s (
  match (allDescs s).find? (fun d => d.op == 2 && d.tier == 3 && d.bay == bay && d.extent == ext) with
  | some d => when (d.sent == d.units && !writeSealed s d && writable s bay) s (sealWrite s d)
  | none => .next s))

end Sys2Proof.Machine
end

