-- ==== Sys2Proof/Machine/Bays.lean ====
section
/-!
DEFINITION. Sys2Proof/Machine/Bays.lean: coffers and bays: identity memory and LIFE, power-on, mount and adoption, detach and removal, relocation, erase,
patrol and journal (09 R351 to R374, 08 R307), and the HBM scrub (09 R330).
-/
namespace Sys2Proof.Machine

/-! ## Identity memory (09 R367, Table 9-10) -/

/-- Replaces a field of a byte list. -/
def putField (b : List Byte) (off n v : Nat) : List Byte := b.take off ++ natLe n v ++ b.drop (off + n)

/-- Which copy of the identity memory is in use. -/
def identSecond (ident : List Byte) : Bool := identCopy ident == some (padTo 512 (ident.drop 512)) && identCopy ident != some (padTo 512 (ident.take 512))

/-- The copy in use with fields changed, SEQ + 1 and its CRC, written over the other copy (09 R367). -/
def identRewrite (ident : List Byte) (f : List Byte → List Byte) : List Byte :=
  match identCopy ident with
  | none => ident
  | some c =>
    let c := f c
    let c := putField c 10 2 (fieldAt c 10 2 + 1)
    let c := putField c 12 4 (crc32 ((c.drop 16).take 496))
    let a := padTo 512 (ident.take 512)
    let b := padTo 512 (ident.drop 512)
    if identSecond ident then c ++ b else a ++ c

/-- Lantern writes the identity memory of a bay's coffer. -/
def writeIdent (s : State) (n : Nat) (f : List Byte → List Byte) : State := cofferM s n fun c => { c with ident := identRewrite c.ident f }

/-- Live counters of a bay: SPARE_BLOCKS_USED, ERASES_TOTAL, ERASE_MAX, LIFE. -/
def counter (s : State) (n i : Nat) : Nat := (s.bay n).mirror.getD i 0

/-- FLAGS bits of an identity copy set and cleared. -/
def identFlags (on off : Nat) (c : List Byte) : List Byte := putField c 113 1 ((fieldAt c 113 1 ||| on) - ((fieldAt c 113 1 ||| on) &&& off))

/-- The counters and LIFE are written through Lantern (09 R368). -/
def writeCounters (s : State) (n : Nat) : State :=
  let s := writeIdent s n fun c =>
    putField (putField (putField (putField c 96 4 (counter s n 0)) 100 8 (counter s n 1)) 108 4 (counter s n 2)) 112 1 (counter s n 3)
  s.bayM n fun b => { b with lastCounters := s.now }

/-- LIFE from the counters (09 R368). -/
def lifeOf (s : State) (n : Nat) : Nat :=
  let good := max 1 (16 * identFld s n 33 1 * identFld s n 44 4 - counter s n 0)
  min 100 (max (100 * counter s n 1 / (good * max 1 (identFld s n 48 4))) (100 * counter s n 0 / max 1 (identFld s n 80 4)))

/-- A bay enters a state, which its Almanac entry reports (09 Table 9-11, 17 R641). -/
def setBay (s : State) (n : Nat) (m : BayMode) (f : Bay → Bay) : State :=
  if (s.bay n).mode = m then s.bayM n f
  else watch (s.bayM n fun b => { f b with mode := m, since := s.now }) (0x3100 + n) 1 (natLe 1 (bayCode m))

/-- LIFE is recomputed; a change is written, and 95 and 100 have their effects (09 R368, R369). -/
def lifeUpdate (s : State) (n : Nat) : State :=
  let v := lifeOf s n
  let old := counter s n 3
  let s := s.bayM n fun b => { b with mirror := b.mirror.set 3 v, life := v, eraseMax := b.mirror.getD 2 0 }
  if v = old then s else
  let s := writeCounters s n
  let s := if 95 ≤ v && old < 95 then cfcEvent (writeIdent s n (identFlags 1 0)) n 0 else s
  if 100 ≤ v && old < 100 then
    let s := cfcEvent (writeIdent s n (identFlags 2 0)) n 1
    if (s.bay n).mode == .mounted then setBay s n .readOnly id else s
  else s

/-! ## Power-on, identification and mount (09 R360, R371) -/

/-- Pieces of one extent laid into closed superblocks in row order (log 21). -/
def layExtent (rowsMax ext : Nat) (nums : List Nat) : Nat → Nat → Nat → Tab Superblock → Nat → Tab Superblock × Nat
  | 0, _, _, t, i => (t, i)
  | fuel + 1, first, count, t, i =>
    if count = 0 then (t, i) else
    match nums[i]? with
    | none => (t, i)
    | some k =>
      let b := t.getD k {}
      if rowsMax ≤ b.rows then layExtent rowsMax ext nums fuel first count t (i + 1)
      else
        let fit := min count ((rowsMax - b.rows) * 60)
        layExtent rowsMax ext nums fuel (first + fit) (count - fit)
          (t.set k { b with state := .closed, rows := b.rows + ceilDiv fit 60
                            pieces := b.pieces ++ (ext, first, fit) :: (if fit % 60 = 0 then [] else [(voidExt, 0, 60 - fit % 60)]) }) i

/-- An extent of a coffer as its bytes tell: a locket's, a charm master's, or a checkpoint store's (09 R339, 08 Table 8-9). -/
def extentOfBytes (n : Nat) (data : List Byte) (tarn : List Nat) : Extent :=
  let kind : ExtentKind := if data.take 8 == ascii "CL9LOCKT" then .locket else if data.take 8 == ascii "CL9CHARM" then .charm else .shard
  { tier := 3, bay := n, kind := kind, owner := if kind == .shard then 0 else fieldAt data 48 8, tenant := if kind == .shard then 0 else fieldAt data 12 2
    sealed := true, units := ceilDiv data.length 4096, data := data, tarnish := tarn }

/-- A coffer brought to a bay, with its identity memory and the sealed extents that it holds, their bytes and their tarnish maps (09 R356; log 21). -/
def cofferOf (s : State) (n : Nat) (ident : List Byte) (extents : List (Nat × List Byte × List Nat)) : State :=
  let s := s.bayM n fun b => { b with coffer := some { ident := padTo 1024 ident } }
  let rowsMax := max 1 (identFld s n 40 4)
  let nums := (sbNums s n).drop 4
  let r := extents.foldl (fun (acc : Tab Superblock × Nat) e =>
    layExtent rowsMax e.1 nums (2 * nums.length + e.2.1.length) 0 (ceilDiv e.2.1.length 4096) acc.1 acc.2) ([], 0)
  cofferM s n fun c => { c with sbs := r.1, extents := extents.foldl (fun t e => t.set e.1 (extentOfBytes n e.2.1 e.2.2)) [] }

/-- BAY_POWER_ON (09 Table 9-11): COFn_PRSNT_N has been asserted for 100 ms; with no identity operand the coffer has stayed in the bay. -/
def execBayPowerOn (bay : Nat) (ident : List Byte) (extents : List (Nat × List Byte × List Nat)) (s : State) : Out :=
  formed (decide (bay < 4)) (
  when ((s.bay bay).mode == .empty && s.lan.power != .boot && s.lan.power != .night && (s.bay bay).coffer.isSome == ident.isEmpty) s (
    let s1 := if ident.isEmpty then s else cofferOf s bay ident extents
    setBay s1 bay .powering fun b => { b with present := some (b.present.getD s.now), pwren := true }))

/-- The coffer meets R352 as its identity memory and the parameter pages of its channels tell: one geometry on all of them, 1 to 16 dies, pages of 16 KiB with
at least 2,048 spare bytes, and a pseudo-SLC mode with a program time of at most 60 µs. -/
def geometryOk (s : State) (n : Nat) (channels : List ChannelGeom) : Bool :=
  let d := identFld s n 33 1
  1 ≤ d && d ≤ 16 && identFld s n 32 1 ≤ 2 && 1 ≤ identFld s n 40 4 && 1 ≤ identFld s n 44 4 &&
  channels.all (fun g => some { g with bad := [] } == channels.head?.map (fun h => { h with bad := [] }) && 1 ≤ g.dies && g.dies ≤ 16 && g.pageBytes == 16384 && 2048 ≤ g.spareBytes && g.slcUs.any (· ≤ 60))

/-- Superblocks with a block that the factory marked bad are never used (09 R365; log 65). -/
def avoidBad (bpd : Nat) (channels : List ChannelGeom) (c : Coffer) : Coffer :=
  { c with sbs := ((channels.map (·.bad)).flatten).foldl (fun t b =>
      let k := b.1 * bpd + b.2
      if (t.get? k).isSome then t else t.set k { state := .retired }) c.sbs }

/-- Rates of a data interface (09 Table 9-8). -/
def bayRates (iface : Nat) : List Nat := if iface = 0 then [800, 1200, 1600] else if iface = 1 then [800, 1200, 1600, 2400, 3600] else [800, 1200, 1600, 2400, 3600]

/-- MTS_CODE of the highest rate that MAX_MTS and Table 9-8 permit (09 R351). -/
def mtsCodeOf (iface maxMts : Nat) : Nat :=
  match ((bayRates iface).filter (· ≤ maxMts)).getLast? with
  | some 800 => 1 | some 1200 => 2 | some 1600 => 3 | some 2400 => 4 | some 3600 => 5 | _ => 0

/-- BAY_IDENT (09 Table 9-11, R351, R352, R367): the identity memory and the parameter pages of the 16 channels are read 50 ms after power-on, and the channels
are trained. -/
def execBayIdent (bay : Nat) (trained : Bool) (s : State) (channels : List ChannelGeom := []) : Out :=
  formed (decide (bay < 4) && decide (channels.length = 16)) (
  when ((s.bay bay).mode == .powering && due s ((s.bay bay).since + 5000000)) s (
    let ident := (((s.bay bay).coffer.map (·.ident)).bind identCopy)
    if ident.isNone || !geometryOk s bay channels then
      cfcEvent (setBay s bay .failed fun b => { b with pwren := false }) bay 5
    else if !trained then setBay s bay .failed fun b => { b with pwren := false }
    else
      let s1 := writeIdent s bay fun c => putField (putField (identFlags 4 0 c) 116 4 (fieldAt c 116 4 + 1)) 120 32 (leNat (padTo 32 s.lan.traySerial))
      let s1 := cofferM s1 bay (avoidBad (identFld s1 bay 44 4) channels)
      setBay s1 bay .mounting fun b =>
        { b with iface := identFld s1 bay 32 1, mtsCode := mtsCodeOf (identFld s1 bay 32 1) (identFld s1 bay 36 4)
                 mirror := [identFld s1 bay 96 4, identFld s1 bay 100 8, identFld s1 bay 108 4, identFld s1 bay 112 1], life := identFld s1 bay 112 1
                 eraseMax := identFld s1 bay 108 4, reloc := 0, programs := [], erasing := none, lastCounters := s.now }))

/-- Journal replay and the closing of open rows: extents without a SEAL record are free, and no superblock stays open (09 R360). -/
def replayJournal (c : Coffer) : Coffer :=
  let gone := (c.extents.filter (fun e => !e.2.sealed)).map (·.1)
  let c := gone.foldl dropPieces { c with extents := c.extents.filter (fun e => e.2.sealed) }
  let pad := fun (b : Superblock) => (60 - placesUsed b % 60) % 60
  { c with sbs := c.sbs.map (fun e => (e.1, if e.2.state == .openWrite || e.2.state == .openReloc then
      { e.2 with state := .closed, rows := ceilDiv (placesUsed e.2) 60, pieces := e.2.pieces ++ (if pad e.2 = 0 then [] else [(voidExt, 0, pad e.2)]) } else e.2)) }

/-- One locket extent met at mount: adopted, or freed where its session handle is present (08 R307). The parts that its header does not give
come from its control page where that can be read. -/
def adopt (n : Nat) (s : State) (ext : Nat) (e : Extent) : State :=
  match readHead false (e.data.take 4096) with
  | none => s
  | some h =>
    if s.lockets.any (fun x => x.2.session == h.session) then freeExtent s ext
    else if s.lan.config.locketMax ≤ s.lockets.length then s
    else
      let k := (s.lockets.freshFrom (s.lockets.length + 1) 0).getD 0
      let l : Locket := { session := h.session, tenant := h.tenant, state := .parkedT3, encrypted := h.keySlot.isSome, adopted := true, kvAbsent := !h.kv
                          extent := ext, lastTouch := s.now, ttl3 := h.ttl3, bay := n, units := h.units }
      let l := match plainOf s h (e.data.take 8192) with
        | some p => let w := warmFrom l { h with threadUnits := 0 } p
                    { l with parureHash := w.parureHash, facetHash := w.facetHash, charmDigest := w.charmDigest }
        | none => l
      { s with lockets := s.lockets.set k l }

/-- One extent met at mount: a locket's is adopted; a charm master's that no charm names is freed; others stay (08 R307; 09 R374; 14 R536). -/
def meetExtent (n : Nat) (s : State) (x : Nat × Extent) : State :=
  match x.2.kind with
  | .locket => if s.lockets.any (fun l => l.2.extent == x.1) then s else adopt n s x.1 x.2
  | .charm => if s.charms.any (fun c => c.2.extent == x.1 && c.2.master == 3) then s else freeExtent s x.1
  | _ => s

/-- MOUNT_DONE (09 R360, R369, Table 9-11; 08 R307). At a coffer's first mount after a REJOIN every locket extent is freed and nothing is adopted (13 R509). -/
def execMountDone (bay : Nat) (s : State) : Out :=
  formed (decide (bay < 4)) (
  when ((s.bay bay).mode == .mounting && (s.bay bay).enable && serving s) s (
    let s1 := cofferM s bay replayJournal
    let ext := (((s1.bay bay).coffer.map (·.extents)).getD []).filter (fun e => !e.2.ckpt)
    let s1 := ext.foldl (fun s e => { s with extents := s.extents.set e.1 { e.2 with bay := bay } }) s1
    let s1 := setBay s1 bay (if bitAt (identFld s1 bay 113 1) 1 then .readOnly else .mounted) fun b => { b with lastPatrol := s.now }
    let serial := identFld s1 bay 16 16
    match s1.lan.remounted with
    | none => ext.foldl (meetExtent bay) s1
    | some seen =>
      if seen.contains serial then ext.foldl (meetExtent bay) s1
      else ((ext.filter (fun e => e.2.kind == .locket)).map (·.1)).foldl freeExtent (s1.lanM fun l => { l with remounted := some (seen ++ [serial]) })))

/-! ## Detach and removal (09 R372 to R374) -/

/-- Lockets whose demotion writes to a bay. -/
def demotingTo (s : State) (n : Nat) : List Nat :=
  (s.lockets.filter (fun e => e.2.state == .demoting && match e.2.move with
    | some m => (match s.extents.get? m.extent with | some x => x.tier == 3 && x.bay == n | none => false)
    | none => false)).map (·.1)

/-- Charms whose master is being written to, or stands on, a bay. -/
def mastersOn (s : State) (n : Nat) : List Nat := (s.charms.filter (fun e => e.2.master == 3 && e.2.bay == n)).map (·.1)

/-- Demotions and charm masters being written to a bay end as a target failure, and copies of checkpoints to it end (09 R372, R374; 14 R534). -/
def failWrites (s : State) (n : Nat) : State :=
  let s := (demotingTo s n).foldl failDemotion s
  let s := ((mastersOn s n).filter (fun ci => ((s.charms.get? ci).bind (·.cmd)).isSome)).foldl failCharm s
  ((allDescs s).filter (fun d => d.bay == n && match d.purpose with | .coffer _ => true | _ => false)).foldl abandonDesc s

/-- A charm gives up its master: its anchor replica is now its only source (09 R372 step 3). -/
def unmaster (s : State) (ci : Nat) : State :=
  s.charmM ci fun c => { c with master := 0, extent := 0, bay := 0xFF }

/-- Step 3 of a detach for one charm: an anchor replica that is PRESENT frees it of its master, an ABSENT one is promoted; the second part tells whether
the promotion could not reserve its pages. -/
def detachCharm (s : State) (ci : Nat) : State × Bool :=
  match s.charms.get? ci with
  | none => (s, false)
  | some m =>
    match replicaState m m.anchor with
    | .present => (unmaster s ci, false)
    | .evicting => (unmaster (s.replicaM ci m.anchor fun r => { r with state := .present }) ci, false)
    | .promoting => (s, false)
    | .absent =>
      match startReplica s ci m.anchor (pinCopy ci m.anchor) with
      | some s => (s, false)
      | none => (s, true)

/-- Step 3 of a detach; CFC_STATUS.BLOCKED tells that a promotion waits for pages (09 R372). -/
def detachCharms (s : State) (n : Nat) : State :=
  let r := (mastersOn s n).foldl (fun (a : State × Bool) ci => let x := detachCharm a.1 ci; (x.1, a.2 || x.2)) (s, false)
  r.1.bayM n fun b => { b with blocked := r.2, retryAt := if r.2 then s.now + 100000000 else b.retryAt }

/-- A cooperative detach starts (09 R372 steps 1 to 3). -/
def startDetach (s : State) (n : Nat) : State :=
  if !((s.bay n).mode == .mounted || (s.bay n).mode == .readOnly) then s else
  let s := setBay s n .detaching fun b => { b with led := 1 }
  detachCharms (failWrites s n) n

/-- This device forgets the extents of a bay. -/
def forgetExtents (s : State) (n : Nat) : State := { s with extents := s.extents.filter (fun e => !(e.2.tier == 3 && e.2.bay == n)) }

/-- Every PARKED_T3 locket of a bay becomes FREE (09 R372, R374). -/
def freeParked (s : State) (n : Nat) : State :=
  ((s.lockets.filter (fun e => e.2.state == .parkedT3 && e.2.bay == n)).map (·.1)).foldl dropLocket (forgetExtents s n)

/-- Promotions that read from a bay complete under Table 8-7, row 0x15 (09 R374). -/
def failReads (s : State) (n : Nat) : State :=
  (s.lockets.filter (fun e => e.2.state == .promoting && e.2.bay == n)).foldl (fun s e =>
    match e.2.move with
    | some m => endPromotion (abandonFor s (fun p => p == .promote e.1)) e.1 e.2 m 5
    | none => s) s

/-- A replica promotion that copies from a master that has left ends ABSENT (08 Table 8-13). -/
def failReplicas (s : State) (ci : Nat) : State :=
  (List.range 8).foldl (fun s st =>
    match s.charms.get? ci with
    | none => s
    | some m =>
      if replicaState m st == .promoting then
        let s := abandonFor s (fun p => p == .replica ci st)
        (releaseFrames s st (m.replicas.getD st {}).frames).replicaM ci st fun _ => {}
      else s) s

/-- A charm whose master has left takes its lowest PRESENT replica as its anchor, or is orphaned (09 R374). -/
def loseMaster (s : State) (ci : Nat) : State :=
  let s := failReplicas s ci
  match s.charms.get? ci with
  | none => s
  | some m =>
    let s := unmaster s ci
    match (List.range 8).find? (fun st => replicaState m st == .present || replicaState m st == .evicting) with
    | some st => (s.replicaM ci st fun r => { r with state := .present }).charmM ci fun c => { c with anchor := st }
    | none => s.charmM ci fun c => { c with orphaned := true }

/-- A bay has left without a cooperative detach (09 R374). -/
def bayLost (s : State) (n : Nat) : State :=
  let s := failReads (failWrites s n) n
  let s := (mastersOn s n).foldl loseMaster s
  cfcEvent (freeParked s n) n 7

/-- The bay's own state after its coffer has lost power. -/
def bayOff (b : Bay) : Bay := { b with pwren := false, blocked := false, programs := [], erasing := none, mtsCode := 0 }

/-- COFFER_REMOVAL (09 R374, Table 9-11). -/
def execCofferRemoval (bay : Nat) (s : State) : Out :=
  formed (decide (bay < 4)) (
  let b := s.bay bay
  when (b.mode != .empty) s (
    let s := if b.mode == .detached || b.mode == .failed then s
             else if b.mode == .powering || b.mode == .ident then s else bayLost s bay
    setBay s bay .empty fun b => { bayOff b with coffer := none, present := none, led := 0, life := 0, eraseMax := 0 }))

/-- DETACH_RETRY (09 R372). -/
def execDetachRetry (bay : Nat) (s : State) : Out :=
  formed (decide (bay < 4)) (
  when ((s.bay bay).mode == .detaching && (s.bay bay).blocked && due s (s.bay bay).retryAt) s (detachCharms s bay))

/-- The steps of a detach before its last two have ended: no master is left to move, every program has passed, and no read is in progress. -/
def detachReady (s : State) (n : Nat) : Bool :=
  (mastersOn s n).all (fun ci => match s.charms.get? ci with | some m => replicaState m m.anchor == .present | none => true) &&
  (s.bay n).programs.isEmpty && (s.bay n).erasing.isNone && s.extents.vals.all (fun e => !(e.tier == 3 && e.bay == n) || e.readers.isEmpty)

/-- DETACH_DONE (09 R372 steps 4 to 6). -/
def execDetachDone (bay : Nat) (s : State) : Out :=
  formed (decide (bay < 4)) (clocked s (
  when ((s.bay bay).mode == .detaching && detachReady s bay) s (
    let s1 := detachCharms s bay
    let s1 := mapImage s1 bay
    let s1 := freeParked s1 bay
    let s1 := writeIdent (writeCounters s1 bay) bay (identFlags 0 4)
    cfcEvent (setBay s1 bay .detached fun b => { bayOff b with led := 2 }) bay 6)))

/-- A forced detach: write protect, the class-W counters, and power released; DIRTY stays set (09 R373). -/
def forceDetach (s : State) (n : Nat) : State :=
  let s := cofferM s n fun c => { c with wp := true }
  let s := writeCounters s n
  let s := cfcEvent (setBay s n .detached bayOff) n 6
  bayLost s n

/-! ## Flash (09 R358 to R365) -/

/-- Units of a superblock that are still valid. -/
def validUnits (b : Superblock) : Nat := (b.pieces.filter (fun p => p.1 != voidExt)).foldl (fun a p => a + p.2.2) 0

/-- A block becomes bad: it is replaced from its die's spare blocks, or its superblock is retired (09 R365). -/
def badBlock (s : State) (n ch die block : Nat) : State :=
  let used := ((s.bay n).coffer.map (fun c => (c.bads.filter (fun r => r.1 == ch && r.2.1 == die && r.2.2.2 != 0xFFFFFFFF)).length)).getD 0
  let note := fun (s : State) (to_ : Nat) => cofferM (journal s n (.bad ch die block to_)) n fun c => { c with bads := c.bads ++ [(ch, die, block, to_)] }
  let bpd := identFld s n 44 4
  let s := cfcEvent s n 4
  if used < sparesPerDie s n then
    lifeUpdate ((note s (bpd - sparesPerDie s n + used)).bayM n fun b => { b with mirror := b.mirror.set 0 (b.mirror.getD 0 0 + 1) }) n
  else
    let k := die * bpd + block
    cofferM (note s 0xFFFFFFFF) n fun c => { c with sbs := c.sbs.set k { sbAt c k with state := .retired } }

/-- The first n places of a superblock's pieces, and the places after them. -/
def splitPlaces : List (Nat × Nat × Nat) → Nat → List (Nat × Nat × Nat) × List (Nat × Nat × Nat)
  | [], _ => ([], [])
  | (e, first, k) :: rest, n =>
    if n = 0 then ([], (e, first, k) :: rest)
    else if k ≤ n then
      let r := splitPlaces rest (n - k)
      ((e, first, k) :: r.1, r.2)
    else ([(e, first, n)], (e, first + n, k - n) :: rest)

/-- PROGRAM_FAIL (09 R358, R365): the row's contents are written again at the next row of the same stream, and the block becomes bad. -/
def execProgramFail (bay channel die block : Nat) (s : State) : Out :=
  formed (decide (bay < 4) && decide (channel < 16)) (clocked s (
  match (s.bay bay).programs, (s.bay bay).coffer with
  | (k, row) :: rest, some c =>
    when (k == die * identFld s bay 44 4 + block) s (
      let b := sbAt c k
      let before := splitPlaces b.pieces (60 * row)
      let here := splitPlaces before.2 60
      let s1 := s.bayM bay fun y => { y with programs := rest }
      let s1 := cofferM s1 bay fun c => { c with sbs := c.sbs.set k { b with pieces := before.1 ++ (voidExt, 0, 60) :: here.2 } }
      let s1 := here.1.foldl (fun s p => (putUnits s bay p.1 (b.state == .openReloc) 4 p.2.1 p.2.2).1) (closeRow s1 bay (b.state == .openReloc))
      badBlock s1 bay channel die block)
  | _, _ => .next s))

/-- PROGRAM_STATUS_PASS (09 R358): the oldest program's data leaves the write buffer. -/
def execProgramStatusPass (bay : Nat) (s : State) : Out :=
  formed (decide (bay < 4)) (clocked s (
  when (!(s.bay bay).programs.isEmpty) s (s.bayM bay fun b => { b with programs := b.programs.drop 1 })))

/-- The valid units of a superblock are relocated and its erase begins; none where the RELOC stream lacks room (09 R362). -/
def relocate (s : State) (n k : Nat) : Option State :=
  match (s.bay n).coffer with
  | none => none
  | some c =>
    let b := sbAt c k
    let r := (b.pieces.filter (fun p => p.1 != voidExt)).foldl (fun (a : State × Bool) p =>
      if a.2 then (let x := appendUnits a.1 n p.1 true (p.2.2 + 4) p.2.1 p.2.2; (x.1, x.2)) else a) (s, true)
    if r.2 then
      some ((cofferM r.1 n fun c => { c with sbs := c.sbs.upd k fun b => { b with pieces := [] } }).bayM n fun y =>
        { y with erasing := some k, reloc := (y.reloc + validUnits b) % 2 ^ 32 })
    else none

/-- The closed superblocks of a bay. -/
def closedSbs (s : State) (n : Nat) : List (Nat × Superblock) :=
  (((s.bay n).coffer.map (·.sbs)).getD []).filter (fun e => e.2.state == .closed)

/-- The entry that a measure makes least, ties to the earlier. -/
def leastBy (f : Superblock → Nat × Nat) : List (Nat × Superblock) → Option (Nat × Superblock)
  | [] => none
  | e :: rest =>
    match leastBy f rest with
    | none => some e
    | some d => if (f d.2).1 < (f e.2).1 || ((f d.2).1 == (f e.2).1 && (f d.2).2 < (f e.2).2) then some d else some e

/-- Relocation may run: the bay is MOUNTED and no erase is in progress (09 R362, R369). -/
def relocOk (s : State) (n : Nat) : Bool := (s.bay n).mode == .mounted && (s.bay n).erasing.isNone

/-- GARBAGE_COLLECTION (09 R362); a superblock marked for refresh is relocated as well (09 R364). -/
def execGarbageCollection (bay : Nat) (s : State) : Out :=
  formed (decide (bay < 4)) (clocked s (
  let marked := (closedSbs s bay).find? (fun e => e.2.marked || (identFld s bay 52 4 != 0 && identFld s bay 52 4 ≤ e.2.reads))
  let victim := if (freeSbs s bay).length < 8 then (leastBy (fun b => (validUnits b, b.erase)) (closedSbs s bay)).or marked else marked
  match victim with
  | none => .next s
  | some (k, _) => when (relocOk s bay) s ((relocate s bay k).getD s)))

/-- WEAR_LEVEL (09 R363): the erase counts of good superblocks differ by more than RATED_PE / 20. -/
def execWearLevel (bay : Nat) (s : State) : Out :=
  formed (decide (bay < 4)) (clocked s (
  match (s.bay bay).coffer with
  | none => .next s
  | some c =>
    let counts := (((sbNums s bay).drop 4).filter (fun k => (sbAt c k).state != .retired)).map (fun k => (sbAt c k).erase)
    let spread := counts.foldl max 0 - counts.foldl min (counts.foldl max 0)
    match leastBy (fun b => (b.erase, 0)) (closedSbs s bay) with
    | none => .next s
    | some (k, _) => when (relocOk s bay && decide (identFld s bay 48 4 / 20 < spread)) s ((relocate s bay k).getD s)))

/-- BLOCK_ERASE_DONE (09 R365, R368): an erase that fails makes the block of channel 0 bad (log 22). -/
def execBlockEraseDone (bay : Nat) (ok : Bool) (s : State) : Out :=
  formed (decide (bay < 4)) (clocked s (
  match (s.bay bay).erasing, (s.bay bay).coffer with
  | some k, some c =>
    let e := (sbAt c k).erase + 1
    let s := cofferM s bay fun c => { c with sbs := c.sbs.set k { erase := e } }
    let s := journal s bay (.erase k e)
    let s := s.bayM bay fun b => { b with erasing := none, mirror := [b.mirror.getD 0 0, b.mirror.getD 1 0 + 16, max e (b.mirror.getD 2 0), b.mirror.getD 3 0] }
    let bpd := max 1 (identFld s bay 44 4)
    .next (lifeUpdate (if ok then s else badBlock s bay 0 (k / bpd) (k % bpd)) bay)
  | _, _ => .next s))

/-- A unit that neither the code nor the row's other pages give back: every codeword of it is tarnish (09 R361). -/
def loseUnit (n : Nat) (s : State) (u : Nat × Nat) : State :=
  let mark := fun (e : Extent) => { e with tarnish := e.tarnish.filter (fun t => t / 256 != u.2) ++ (List.range 256).map (· + 256 * u.2) }
  if u.1 = voidExt then s else cofferM { s with extents := s.extents.upd u.1 mark } n fun c => { c with extents := c.extents.upd u.1 mark }

/-- The units that stand on a page of a superblock, pages counted row by row over the 16 channels; a parity page holds none (09 R353). -/
def pageUnits (c : Coffer) (sb page : Nat) : List (Nat × Nat) :=
  let row := page / 16
  let ch := page % 16
  if ch = row % 16 then [] else
  (List.range 4).map (fun j => placeUnit (sbAt c sb).pieces (60 * row + 4 * (if ch < row % 16 then ch else ch - 1) + j))

/-- PATROL_READ (09 R361, R364): `symbols` is the percentage of the code's capacity that the worst frame of a page read took; above 100 the page is rebuilt from
its row, or, where `rebuilt` is false, its units are lost (log 23). -/
def execPatrolRead (bay sb symbols : Nat) (s : State) (page : Nat := 0) (rebuilt : Bool := true) : Out :=
  formed (decide (bay < 4)) (clocked s (
  match (s.bay bay).coffer with
  | none => .next s
  | some c =>
  when (((s.bay bay).mode == .mounted || (s.bay bay).mode == .readOnly) && (s.bay bay).patrolEn && (closedSbs s bay).any (fun e => e.1 == sb)) s (
    let s1 := cofferM s bay fun c =>
      { c with sbs := c.sbs.upd sb fun b => { b with reads := b.reads + 1, marked := b.marked || decide (75 < symbols) } }
    let s1 := s1.bayM bay fun b => { b with lastPatrol := s.now }
    if symbols ≤ 100 then s1
    else if rebuilt then cfcEvent s1 bay 2
    else cfcEvent ((pageUnits c sb page).foldl (loseUnit bay) s1) bay 3)))

/-- JOURNAL_CHECKPOINT (09 R359). -/
def execJournalCheckpoint (bay : Nat) (s : State) : Out :=
  formed (decide (bay < 4)) (clocked s (
  when (decide (65536 ≤ (s.bay bay).sinceCkpt) && (s.bay bay).coffer.isSome) s (mapImage s bay)))

/-- COFFER_COUNTER_WRITE (09 R368). -/
def execCofferCounterWrite (bay : Nat) (s : State) : Out :=
  formed (decide (bay < 4)) (
  when (serving s && ((s.bay bay).mode == .mounted || (s.bay bay).mode == .readOnly || (s.bay bay).mode == .detaching)) s (writeCounters s bay))

/-! ## The HBM scrub (09 R326, R329, R330; 13 R478 to R485) -/

/-- Codewords of T1 become canonical tarnish, whose data bits are 0, with their count and record (09 R329; 13 R482, R485, R514). -/
def tarnishLines (s : State) (station detail : Nat) (lines : List Nat) : State :=
  lines.foldl (fun s c =>
    let s : State := { s with t1 := s.t1.clear (16 * c) (16 * c + 16) }
    let s := s.integM fun i => { i with tarnishT1 := addMarks i.tarnishT1 [c], tarnishMade := wrapInc 32 i.tarnishMade }
    logFault s 0x02 station 0xFF 0 (16 * c) detail) s

/-- The 144 bits that T1 stores of a codeword: the encoded data, or canonical tarnish where the codeword is tarnished (09 R326; 13 R478, R480, R482). -/
def storedWord (s : State) (c : Nat) : Nat := if s.integ.tarnishT1.contains c then tarnishWord else encode (leNat (s.t1.readN (16 * c) 16))

/-- What the controller of a stack makes of a stored codeword with bits in error: corrected and written back, or written back as tarnish
(09 R329, R330; 13 R481, R485). -/
def scrubWord (stack : Nat) (s : State) (e : Nat × Nat) : State :=
  let c := stack * 2 ^ 32 + e.1
  let v := storedWord s c ^^^ e.2
  let put := fun (s : State) (w : Nat) => { s with t1 := s.t1.writeN (16 * c) (natLe 16 (w % 2 ^ 128)), integ := { s.integ with tarnishT1 := s.integ.tarnishT1.filter (· != c) } }
  match classify v with
  | .clean => put s v
  | .corrected w => put { s with hbc := s.hbc.modify stack fun h => { h with corr := wrapInc 32 h.corr } } w
  | .tarnish => { s with t1 := s.t1.clear (16 * c) (16 * c + 16), integ := { s.integ with tarnishT1 := addMarks s.integ.tarnishT1 [c] } }
  | .uncorrectable =>
    tarnishLines { s with hbc := s.hbc.modify stack fun h => { h with uncorr := wrapInc 32 h.uncorr, evUncorr := true } } (0xA0 + stack) 2 [c]

/-- HBM_SCRUB (09 R330): the controller of a stack reads every line of its usable region; the operands name the codewords, as
numbers counted from codeword `first` of the stack, that it reads with bits in error, and those bits. -/
def execHbmScrub (stack first : Nat) (errors : List (Nat × Nat)) (s : State) : Out :=
  formed (decide (stack < 8) && errors.all (fun e => decide (first + e.1 < 4294967296) && decide (e.2 < 2 ^ 144))) (clocked s (
  when ((s.hbc.getD stack {}).mode == .ready) s (
    ((errors.map (fun e => (first + e.1, e.2))).filter (fun e => 16 * e.1 < usable)).foldl (scrubWord stack) { s with hbc := s.hbc.modify stack fun h => { h with lastScrub := s.now } })))

end Sys2Proof.Machine
end

