-- ==== Sys2Proof/Machine/Dot.lean ====
section
/-!
DEFINITION. Sys2Proof/Machine/Dot.lean: blocks of packed elements and the accumulation chains over them (02 R43 to R57, 04 R136).
-/
namespace Sys2Proof.Machine

/-- One block of 32 elements with its scale, as values. -/
structure Block where
  scale : FV
  elems : List FV
deriving DecidableEq, Repr

/-- The scale 1 of a format without block scales. -/
def unitScale : FV := .fin false 1 0

/-- Bytes of one 32-element block of a format with its scale byte first; a ternary group of 64 takes 15 bytes and is read apart. -/
def blockBytes (f : Fmt) : Nat := if f == .bf16 then 64 else if f == .fp32 then 128 else 1 + 4 * elemBits f

/-- Block i of a packed run: an E8M0 scale byte and the elements under R45; BF16 and FP32 have no scale; a ternary group's BF16 scale stands before
its 13 bytes and serves both its blocks (02 R44 to R47, 04 R136). -/
def readBlock (f : Fmt) (bs : List Byte) (i : Nat) : Block :=
  match f with
  | .ternary =>
    let g := (bs.drop (15 * (i / 2))).take 15
    { scale := decBf16 (fieldAt g 0 2), elems := (List.range 32).map (fun j => decElem .ternary (elemAt .ternary (g.drop 2) (32 * (i % 2) + j))) }
  | .bf16 => let g := (bs.drop (64 * i)).take 64; { scale := unitScale, elems := (List.range 32).map (fun j => decElem .bf16 (elemAt .bf16 g j)) }
  | .fp32 => let g := (bs.drop (128 * i)).take 128; { scale := unitScale, elems := (List.range 32).map (fun j => decElem .fp32 (elemAt .fp32 g j)) }
  | f =>
    let g := (bs.drop (blockBytes f * i)).take (blockBytes f)
    { scale := decScale (fieldAt g 0 1), elems := (List.range 32).map (fun j => decElem f (elemAt f (g.drop 1) j)) }

/-- The blocks of a run of n elements. -/
def readBlocks (f : Fmt) (bs : List Byte) (n : Nat) : List Block := (List.range (n / 32)).map (readBlock f bs)

/-- One block pair is added to an accumulator: its exact value with one rounding; each BF16 product is a block of its own (02 R51 to R53). -/
def addBlock (bf16 : Bool) (acc : W32) (w a : Block) : W32 :=
  if bf16 then (w.elems.zip a.elems).foldl (fun acc e => accAdd acc (blockValue [e.1] [e.2] w.scale a.scale)) acc
  else accAdd acc (blockValue w.elems a.elems w.scale a.scale)

/-- A chain over block pairs in ascending k (02 R57). -/
def chain (bf16 : Bool) (acc : W32) (ps : List (Block × Block)) : W32 := ps.foldl (fun acc p => addBlock bf16 acc p.1 p.2) acc

/-- The dot product of two packed vectors of n elements: one chain from +0, no segments (12 Table 12-8). -/
def dotPacked (f : Fmt) (a b : List Byte) (n : Nat) : W32 := chain (f == .bf16) 0#32 ((readBlocks f a n).zip (readBlocks f b n))

end Sys2Proof.Machine
end

