-- ==== Sys2Proof/Machine/Tiles.lean ====
section
/-!
DEFINITION. Sys2Proof/Machine/Tiles.lean: the order in which the issue unit takes the tiles of a program (03 R86, R87), the position lists of a step and
of a recompute pass (05 R185 to R188), and the operations that give the Orrery to a program and take it back.
-/
namespace Sys2Proof.Machine

/-! ## Position lists (05 R185, R187, R188; 04 R140) -/

/-- Symbols of the patch that is open at BASE (04 R140); where the last closing position is not held it is found from the thread (log 24). -/
def openRun (img : List Byte) (l : Locket) : Nat :=
  match l.lastClose with
  | some p => l.base - p
  | none => (l.thread.take l.base).foldl (fun run x => if closesPatch img x (run + 1) false then 0 else run + 1) 0

/-- The GPOS field of a position (05 Table 5-8). -/
def gposOf (gbase glob : Nat) (closes : Bool) : Nat := if closes then gbase + glob else 0xFFFFFFFF

/-- The input positions of a member from number i on, and the patch state after them. -/
def inputEntries (img : List Byte) (models : List Nat) (row : LenRow) (idx : Nat) : List Sym → Nat → Nat × Nat → List PosEntry × (Nat × Nat)
  | [], _, r => ([], r)
  | x :: xs, i, r =>
    let p := patchNext img true (models.contains (idx + i)) x r
    let t := inputEntries img models row idx xs (i + 1) p.2
    ({ member := row.member, node := false, closes := p.1, slot := i, nodeNum := 0xFF, pos := row.base + i, gpos := gposOf row.gbase r.2 p.1 } :: t.1, t.2)

/-- The node positions of a member's tree; a node's patch state follows its parent's. -/
def nodeEntries (img : List Byte) (models : List Nat) (row : LenRow) (t : Tree) (idx : Nat) (r0 : Nat × Nat) : List PosEntry :=
  ((List.range t.parents.length).foldl (fun (acc : List (PosEntry × (Nat × Nat))) n =>
    let r := if n = 0 then r0 else ((acc[t.parents.getD n 0]?).map (·.2)).getD r0
    let p := patchNext img (!t.open_.contains n) (models.contains (idx + n)) (t.symbols.getD n 0) r
    acc ++ [({ member := row.member, node := true, closes := p.1, slot := row.nIn + n, nodeNum := n, pos := row.base + row.nIn + nodeDepth t n
               gpos := gposOf row.gbase r.2 p.1 }, p.2)]) []).map (·.1)

/-- The positions of one row, the list standing at an index so far. -/
def memberEntries (s : State) (models : List Nat) (trees : Tab Tree) (idx : Nat) (row : LenRow) : List PosEntry :=
  match s.lockets.get? row.handle with
  | none => []
  | some l =>
    let img := locketImg s l
    let a := inputEntries img models row idx ((l.thread.drop row.base).take row.nIn) 0 (openRun img l, 0)
    a.1 ++ (if row.gen then nodeEntries img models row (trees.getD row.member {}) (idx + row.nIn) a.2 else [])

/-- The position list of a step (05 R187). -/
def positionsOf (s : State) (models : List Nat) (trees : Tab Tree) (rows : List LenRow) : List PosEntry :=
  rows.foldl (fun ps row => if row.active then ps ++ memberEntries s models trees ps.length row else ps) []

/-- Positions of one recompute pass (05 R207). -/
def passCount (l : Locket) : Nat := min 1024 (l.base - l.recNext)

/-- The position list of a recompute pass: every position an input (05 R207, 04 R131). -/
def passPositions (s : State) (l : Locket) (models : List Nat) : List PosEntry :=
  (inputEntries (locketImg s l) models { member := 0, active := true, gen := false, held := false, nIn := passCount l, width := 0, base := l.recNext
                                         gbase := l.recGpos, handle := 0 }
    0 ((l.thread.drop l.recNext).take (passCount l)) 0 (l.recRun, 0)).1

/-! ## Draft positions (06 R229, Table 6-2) -/

/-- Length of the context that a draft run covers of a member whose node 0 stands at a position: the last symbols up to node 0's (06 R229). -/
def draftContext (imgD : List Byte) (pos : Nat) : Nat := min (pos + 1) (imgMaxThread imgD - 16)

/-- Members of a step whose trees a draft parure extends. -/
def draftMembers (st : StepRec) : List (Nat × Tree) := st.trees.filter (fun e => !e.2.open_.isEmpty)

/-- The positions of one member in a draft run of depth level d: the context, node 0 at its end, and the nodes of depth at most d (06 R229). -/
def draftEntries (imgD : List Byte) (st : StepRec) (d : Nat) (e : Nat × Tree) : List PosEntry :=
  match st.rows.find? (fun r => r.member == e.1) with
  | none => []
  | some r =>
    let n := draftContext imgD (r.base + r.nIn)
    (List.range (n - 1)).map (fun i => { member := e.1, node := false, closes := false, slot := i, nodeNum := 0xFF, pos := i, gpos := 0xFFFFFFFF }) ++
    ((List.range e.2.parents.length).filter (fun v => nodeDepth e.2 v ≤ d && !e.2.gone.contains v)).map (fun v =>
      { member := e.1, node := true, closes := false, slot := n - 1 + v, nodeNum := v, pos := n - 1 + nodeDepth e.2 v, gpos := 0xFFFFFFFF })

/-- The position list of a draft run. -/
def draftPositions (imgD : List Byte) (st : StepRec) (d : Nat) : List PosEntry := ((draftMembers st).map (draftEntries imgD st d)).flatten

/-- The symbols of the path from node 0 to a node. -/
def pathSyms (t : Tree) (n : Nat) : List Sym := ((List.range t.parents.length).filter (fun k => bitAt (t.masks.getD n 0) k)).map (fun k => t.symbols.getD k 0)

/-! ## Tile order (03 R86, R87) -/

/-- Position-list indices that a sweep covers (03 R87). -/
def sweepList (ps : List PosEntry) (sw : Sweep) : List Nat :=
  ((ps.zipIdx).filter (fun e => !sw.patch || e.1.closes)).map (·.2)

/-- M of a sweep (03 R87). -/
def sweepM (ps : List PosEntry) (sw : Sweep) : Nat := if sw.ragged then (sweepList ps sw).length else sw.mFixed

/-- Position-list indices of a position chunk; a sweep that is not RAGGED counts its own positions (03 R87). -/
def tilePos (ps : List PosEntry) (sw : Sweep) (mc : Nat) : List Nat :=
  if sw.ragged then ((sweepList ps sw).drop (mc * sw.tileM)).take sw.tileM
  else (List.range (min sw.tileM (sw.mFixed - mc * sw.tileM))).map (· + mc * sw.tileM)

/-- Pieces of at most 768 positions that a combine level of a position chunk is cut into (03 R89). -/
def combinePieces (ps : List PosEntry) (sw : Sweep) (mc : Nat) : Nat := ceilDiv (tilePos ps sw mc).length 768

/-- First tile of an owned chunk of a position chunk. -/
def chunkTile (sw : Sweep) (i mc jj ord : Nat) : TileRef :=
  { sweep := i, mc := mc, jj := jj, kind := if tilesPerChunk sw = 0 then .epilogue else .compute 0, ord := ord }

/-- The first tile at or after sweep i among n sweeps; a sweep without positions has none (03 R87). -/
def sweepFrom (img : List Byte) (ps : List PosEntry) : Nat → Nat → Option TileRef
  | 0, _ => none
  | n + 1, i => let sw := sweepAt img i; if sweepM ps sw = 0 then sweepFrom img ps n (i + 1) else some (chunkTile sw i 0 0 0)

/-- The program of a kind on an image; a parure without RECOMPUTE uses STEP (04 R131). -/
def programOf (img : List Byte) (kind : Nat) : Prog := (progOf img kind).getD ((progOf img 1).getD { kind := 1, first := 0, count := 0 })

/-- The tile after the last one of a chunk: the next owned chunk, position chunk or sweep. -/
def afterChunk (img : List Byte) (ps : List PosEntry) (p : Prog) (t : TileRef) : Option TileRef :=
  let sw := sweepAt img t.sweep
  if t.jj + 1 < ownedChunks sw then some (chunkTile sw t.sweep t.mc (t.jj + 1) (t.ord + 1))
  else if t.mc + 1 < ceilDiv (sweepM ps sw) (max 1 sw.tileM) then some (chunkTile sw t.sweep (t.mc + 1) 0 (t.ord + 1))
  else sweepFrom img ps (p.first + p.count - (t.sweep + 1)) (t.sweep + 1)

/-- The tile that follows another in issue order: k-chunks, combine levels each in pieces, the epilogue (03 R86, R89). -/
def nextTile (img : List Byte) (ps : List PosEntry) (p : Prog) (t : TileRef) : Option TileRef :=
  let sw := sweepAt img t.sweep
  let epi := fun (_ : Unit) => if sw.epi = 0xFFFFFFFF then afterChunk img ps p t else some { t with kind := .epilogue }
  match t.kind with
  | .compute kc =>
    if kc + 1 < tilesPerChunk sw then some { t with kind := .compute (kc + 1), ord := t.ord + 1 }
    else if 1 ≤ combLevels sw then some { t with kind := .combine 1 0 } else epi ()
  | .combine level piece =>
    if piece + 1 < combinePieces ps sw t.mc then some { t with kind := .combine level (piece + 1) }
    else if level < combLevels sw then some { t with kind := .combine (level + 1) 0 } else epi ()
  | .epilogue => afterChunk img ps p t

/-! ## Programs on the issue unit -/

/-- The image of a load slot. -/
def slotImg (s : State) (slot : Nat) : List Byte := ((s.parures.get? slot).map (·.image)).getD []

/-- The frozen step of a context. -/
def ctxStep (s : State) (c : Nat) : Option StepRec := (s.eph.ctxs.get? c).bind (·.step)

/-- A job by its identifier. -/
def findJob (s : State) (id : Nat) : Option Job := s.eph.jobs.find? (fun j => j.id == id)

/-- The load slot of the draft parure that a context drafts from (04 R156, 06 R223). -/
def draftSlot (s : State) (c : Nat) : Option Nat :=
  ((s.eph.ctxs.get? c).bind (fun x => draftParure s (slotImg s x.slot))).map (·.1)

/-- The positions of a step's program: those of its draft run while draft levels remain, otherwise the step's own list. -/
def stepPositions (s : State) (c : Nat) (st : StepRec) : List PosEntry :=
  match st.draftLevel with
  | some d => draftPositions (((draftSlot s c).map (slotImg s)).getD []) st d
  | none => st.positions

/-- The positions of the work that holds the Orrery. -/
def heldPositions (s : State) : List PosEntry :=
  match s.eph.holder with
  | .step c => ((ctxStep s c).map (stepPositions s c)).getD []
  | .job id =>
    match findJob s id with
    | some j => if j.cls == .recompute then ((s.lockets.get? j.target).map (fun l => passPositions s l j.models)).getD [] else []
    | none => []
  | .none => []

/-- A program starts on the issue unit: the first tile of its first sweep with positions is next. No window half is filled but those that its rail fill
has filled already while the program before it spilled (03 R86, R92, R103). -/
def startProg (s : State) (slot kind : Nat) : State :=
  let img := slotImg s slot
  let p := programOf img kind
  let t := if kind = 4 then none else sweepFrom img (heldPositions s) p.count p.first
  let early := s.ory.prefill == some (slot, kind)
  s.oryM fun y =>
    { y with prog := some { slot := slot, kind := kind, next := t.getD { sweep := 0, mc := 0, jj := 0, kind := .compute 0, ord := 0 }, issuedAll := kind != 4 && t.isNone
                            fillSeq := if early then boolNat y.halfA.isSome + boolNat y.halfB.isSome else 0 }
             mode := .run, sums := [], taint := [], hold := false, halfA := if early then y.halfA else none, halfB := if early then y.halfB else none
             prefill := none, failing := none, tile := 0, sweep := (t.map (·.sweep - p.first)).getD 0 }

/-- The Orrery is free (10 R407). The accumulators, the scratch and the halves keep what they hold. -/
def freeOrrery (s : State) : State :=
  ((cutTest s).oryM fun y =>
    { y with
      prog := none, sums := [], taint := [], hold := false, preempt := false, ctx := 0, sweep := 0
      mode := if y.mode == .fault then .fault else if y.halt then .halted else .idle }).ephM fun e => { e with holder := .none, chargeFrom := none }

/-- The program on the issue unit has committed its last tile. -/
def progDone (p : Progress) : Bool := p.issuedAll && p.inFlight.isEmpty && p.discarded.isEmpty

/-- A step ends without a seal: no commit copy is made, its inputs stay pending, and the symbols that waited for its end enter the threads
(05 R195, 07 R276, 08 R289). -/
def discardStep (s : State) (c : Nat) : State :=
  let s := if s.eph.holder == .step c then freeOrrery s else s
  match s.eph.ctxs.get? c with
  | none => s
  | some x =>
    let s := x.members.vals.foldl (fun s h => s.locketM h fun l => { l with thread := l.thread ++ l.pending, pending := [] }) s
    sweepFacets (s.ctxM c fun x => { x with step := none, suspended := none, state := .idle })

/-- The wait of a command that ends now is counted (10 R412). -/
def countCmdWait (s : State) (id : Nat) : State :=
  match findCmd s id with
  | some c => countWait s c.tenant (s.now - c.accept)
  | none => s

end Sys2Proof.Machine
end

