-- ==== Sys2Proof/Machine/Sched.lean ====
section
/-!
DEFINITION. Sys2Proof/Machine/Sched.lean: the schedule table in force, jobs and their servers, pre-emption requests, and the order in which a free
Orrery takes work (10 R377 to R408).
-/
namespace Sys2Proof.Machine

/-! ## The table in force -/

/-- LEAD of a table (10 R381). -/
def leadOf (t : EphTable) : Nat := 603 + ceilDiv t.spillCap 64

/-- The slot in which the device stands; none while no frame runs. -/
def slotNow (s : State) : Option EphSlot := if s.eph.running && !s.eph.slotDue then s.eph.active.bind (fun t => t.slots[s.eph.slot]?) else none

/-- The tick at which the present slot ends: the last slot of a frame ends at the next meridian (10 R377, R410). -/
def slotEnd (s : State) : Tick :=
  match s.eph.active, slotNow s with
  | some t, some e => if s.eph.slot + 1 = t.slots.length then s.eph.nextMeridian else s.eph.meridian + e.start + e.length
  | _, _ => s.now

/-- The present slot is of a kind. -/
def inKind (s : State) (k : Nat) : Bool := ((slotNow s).map (·.kind == k)).getD false

/-- The context that the present BATCH slot names. -/
def slotCtx (s : State) : Option Nat := (slotNow s).bind (fun e => if e.kind = 1 then some e.target else none)

/-- C_pre of a parure (04 R158). -/
def preTicks (img : List Byte) : Nat := ceilDiv (imgSpillMax img) 32 + 1024

/-- A_u of a BATCH slot on a parure (10 R387). -/
def urgentRoom (e : EphSlot) (img : List Byte) : Nat := e.urgentTicks + (e.urgentMax - 1) * preTicks img

/-! ## Jobs (10 R404 to R408) -/

/-- One server of the active table. -/
def serverAt (s : State) (k : Nat) : EphServer := ((s.eph.active.bind (fun t => t.servers[k]?))).getD {}

/-- Spill size that a job may need: SPILL_MAX of its parure, or 65,536 for the jobs of chapter 12 (10 R408, 12 R469). -/
def jobSpill (s : State) (j : Job) : Nat := if j.cls == .recompute then imgSpillMax (slotImg s j.slot) else 65536

/-- A job is not held back by the spill cap (10 R408). -/
def spillFits (s : State) (j : Job) : Bool :=
  match s.eph.active with
  | some t => jobSpill s j ≤ t.spillCap
  | none => match s.eph.switch, s.eph.shadow with
    | some _, some t => jobSpill s j ≤ t.spillCap
    | _, _ => true

/-- The lowest Sieve unit that is free and may take work (12 R456, R462). -/
def freeUnit (s : State) : Option Nat := s.sieves.findIdx? (fun u => u.enable && u.use_.isNone)

/-- Some walk waits for a Sieve unit (12 R462). -/
def walksQueued (s : State) : Bool := s.searches.any (fun q => !q.queued.isEmpty)

/-- A job that may be dispatched: it does not run, it became ready before a tick, and a MERGE job that has not started finds a free Sieve unit and
no queued walk (10 R408, 11 R425, 12 R456). -/
def candidate (s : State) (lim : Tick) (j : Job) : Bool :=
  s.eph.holder != .job j.id && j.ready < lim && spillFits s j && (j.cls != .merge || j.suspended.isSome || ((freeUnit s).isSome && !walksQueued s))

/-- The job accepted first. -/
def firstJob (js : List Job) : Option Job :=
  js.foldl (fun b j => match b with | none => some j | some i => if j.seq < i.seq then some j else some i) none

/-- The job of a server that is taken next: a suspended one first, otherwise by weighted fair queueing (10 R406, R407). -/
def serverNext (s : State) (lim : Tick) (k : Nat) : State × Option Job :=
  let js := s.eph.jobs.filter (fun j => serverOf s j.cls == some k && candidate s lim j)
  match firstJob (js.filter (fun j => j.suspended.isSome)) with
  | some j => (s, some j)
  | none =>
    match wfqSelect s (10 + k) ((js.map (·.tenant)).eraseDups) false with
    | (s, none) => (s, none)
    | (s, some t) => (s, firstJob (js.filter (fun j => j.tenant == t)))

/-- The first server of a list that has work. -/
def firstServer (s : State) (lim : Tick) : List Nat → State × Option Job
  | [] => (s, none)
  | k :: ks =>
    match serverNext s lim k with
    | (s, some j) => (s, some j)
    | (s, none) => firstServer s lim ks

/-- Servers with URGENT or without it, by PRIORITY, then number (10 Table 10-8). -/
def serverList (s : State) (urgent : Bool) : List Nat :=
  let n := ((s.eph.active.map (·.servers.length)).getD 0)
  sortBy (fun a b => (serverAt s a).priority < (serverAt s b).priority || ((serverAt s a).priority == (serverAt s b).priority && a ≤ b))
    ((List.range n).filter (fun k => (serverAt s k).urgent == urgent))

/-- Jobs of no server, a suspended one first, then in order of acceptance (10 R404). -/
def strayJob (s : State) : Option Job :=
  let js := s.eph.jobs.filter (fun j => serverOf s j.cls == none && candidate s s.now j)
  (firstJob (js.filter (fun j => j.suspended.isSome))).or (firstJob js)

/-- Suspended steps of OVERRUN contexts, earliest deadline first (10 Table 10-8). -/
def overrunNext (s : State) : Option Nat :=
  ((s.eph.ctxs.filter (fun e => e.2.state == .overrun && e.2.suspended.isSome)).foldl (fun (b : Option (Nat × Tick)) e =>
    let d := (e.2.step.map (·.deadline)).getD 0
    match b with
    | none => some (e.1, d)
    | some c => if d < c.2 then some (e.1, d) else some c) none).map (·.1)

/-! ## Spill reservations (10 R379, R384; 04 Table 4-11) -/

/-- Bytes of one spill reservation of a parure. -/
def ctxSpill (img : List Byte) : Nat := ceilDiv (128 * imgSpillMax img) 65536 * 65536

/-- Bytes of a spill area under a cap (10 R384). -/
def areaBytes (cap : Nat) : Nat := ceilDiv (128 * cap) 65536 * 65536

/-- Offset of the spill areas in the control areas: after the firmware structures and the capture buffer (10 R384; log 25). -/
def areaBase (s : State) : Nat := (192 + s.lan.config.captureBuf) * 2 ^ 20

/-- T1 address of a server's spill area, or of the background's, which begins halfway through what remains of stack 0's control area (10 R384; log 25). -/
def areaAddr (s : State) (k : Option Nat) : Nat :=
  match k with
  | some k => t1Addr k (areaBase s)
  | none => t1Addr 0 (areaBase s + (2 ^ 30 - areaBase s) / 2)

/-- Bytes of the spill areas that a SPILL_CAP and the suspended jobs need (10 R384). -/
def areaNeed (s : State) (cap : Nat) : Nat := (s.eph.jobs.filter (fun j => j.suspended.isSome)).foldl (fun a j => max a (areaBytes (jobSpill s j))) (areaBytes cap)

/-- The spill areas shrink to what the tables held and the suspended jobs need (10 R384). -/
def trimArea (s : State) : State :=
  s.ephM fun e => { e with spillArea := min e.spillArea (areaNeed s (max ((e.active.map (·.spillCap)).getD 0) ((e.shadow.map (·.spillCap)).getD 0))) }

/-- Firmware loads the spill registers with the reservation of the work that takes the Orrery (10 R379). -/
def loadSpill (s : State) (base bytes : Nat) : State := s.oryM fun y => { y with spillBase := base, spillLimit := bytes / 4096 }

/-- The spill registers for a step of a context. -/
def loadCtxSpill (s : State) (c : Nat) : State :=
  match s.eph.ctxs.get? c with
  | none => s
  | some x => loadSpill s x.spillBase (ctxSpill (slotImg s x.slot))

/-- The spill registers for a job: the area of its server (10 R379). -/
def loadJobSpill (s : State) (j : Job) : State := loadSpill s (areaAddr s (serverOf s j.cls)) s.eph.spillArea

/-! ## Pre-emption (10 R398, R400 to R403, R413) -/

/-- Adds one pre-emption suffered to a tenant (10 Table 10-12). -/
def countPreempt (s : State) (t : Nat) : State :=
  s.ephM fun e => { e with accounts := e.accounts.set t (let a := e.accounts.getD t {}; { a with preempted := satInc a.preempted max32 }) }

/-- The tenants with an ACTIVE member in a step. -/
def stepTenants (s : State) (st : StepRec) : List Nat :=
  ((st.rows.filter (·.active)).filterMap (fun r => (s.lockets.get? r.handle).map (·.tenant))).eraseDups

/-- ORY_PREEMPT.REQ is set: the issue unit proceeds to its next cheap point (03 R102, Table 3-13). -/
def askPreempt (s : State) : State :=
  s.oryM fun y => { y with preempt := true, mode := if y.mode == .run || y.mode == .windowHold then .toCheapPoint else y.mode }

/-- A pre-emption of the holder is requested and charged once to each tenant concerned (10 R400, R413). -/
def requestPreempt (s : State) : State :=
  if s.ory.preempt then s else
  let s := (askPreempt s).ephM fun e => { e with preempts := wrapInc 32 e.preempts }
  match s.eph.holder with
  | .step c => ((ctxStep s c).map (stepTenants s)).getD [] |>.foldl countPreempt s
  | .job id => match findJob s id with | some j => countPreempt s j.tenant | none => s
  | .none => s

/-- Ticks charged and not yet returned to a server (10 R405). -/
def charged (s : State) (k : Nat) : Nat := (s.eph.charges.filter (fun c => c.server == k)).foldl (fun a c => a + c.ticks) 0

/-- The candidate of an urgent pre-emption, when the conditions of 10 R401 hold for it; a job cut at its allowance is not urgent again (10 R402). -/
def urgentCandidate (s : State) (e : EphSlot) : State × Option Job × Bool :=
  match firstServer s (s.now + 1) (serverList s true) with
  | (s, none) => (s, none, false)
  | (s, some j) =>
    let k := (serverOf s j.cls).getD 0
    (s, some j, j.suspended.isNone && decide (s.eph.urgentCount < e.urgentMax) && j.wJob ≤ e.urgentTicks - s.eph.urgentUsed &&
      j.wJob ≤ (serverAt s k).budget - charged s k)

/-- The step of the present BATCH slot that holds the Orrery and has not sealed. -/
def admittedHolder (s : State) : Option Nat :=
  match slotCtx s, s.eph.holder with
  | some c, .step d => if c = d && ((ctxStep s c).map (·.sealedAt.isNone)).getD false then some c else none
  | _, _ => none

/-- The urgent pre-emption of 10 R401 is tried. -/
def tryUrgent (s : State) : State :=
  match slotNow s, admittedHolder s with
  | some e, some _ =>
    if s.eph.leadPassed || s.ory.preempt then s else
    match urgentCandidate s e with
    | (s, none, _) => s
    | (s, some j, ok) =>
      if ok then requestPreempt (s.ephM fun p => { p with candidate := some j.id, urgentCount := p.urgentCount + 1, urgent := wrapInc 32 p.urgent })
      else ephEvent s 4
  | _, _ => s

/-- A job joins the ready jobs; where its server is URGENT the pre-emption of 10 R401 is tried at the next tick's state (11 R425). -/
def addJob (s : State) (j : Job) : State :=
  s.ephM fun e => { e with jobs := e.jobs ++ [{ j with id := e.nextJob }], nextJob := e.nextJob + 1 }

/-- The urgent charge of the job that holds the Orrery ends now: it counts against the slot, the server's budget and the tenant (10 R402, R405). -/
def endCharge (s : State) (j : Job) : State :=
  match s.eph.chargeFrom with
  | none => s
  | some t0 =>
    let w := s.now - t0
    let k := (serverOf s j.cls).getD 0
    s.ephM fun e =>
      { e with chargeFrom := none, urgentUsed := e.urgentUsed + w
               charges := e.charges ++ [{ server := k, ticks := w, due := s.now + (e.active.map (·.frameTicks)).getD 0 }]
               jobs := e.jobs.map (fun i => if i.id == j.id then { i with charge := i.charge + w, urgent := false } else i)
               accounts := e.accounts.set j.tenant (let a := e.accounts.getD j.tenant {}; { a with urgentCharge := (a.urgentCharge + w) % 2 ^ 64 }) }

/-! ## A free Orrery takes work (10 R399, R407) -/

/-- A suspended step takes the Orrery back; its context is STEPPING until the step ends (10 R399, Table 10-7). -/
def resumeStep (s : State) (c : Nat) : State :=
  match (s.eph.ctxs.get? c).bind (·.suspended) with
  | none => s
  | some u =>
    let s := (s.ctxM c fun x => { x with state := .stepping }).ephM fun e => { e with holder := .step c }
    (loadCtxSpill s c).oryM fun y => { y with prog := some u.prog, mode := .restore, ctx := c, preempt := false }

/-- A MERGE job takes a free Sieve unit and holds it to its end (12 R456). -/
def takeUnit (s : State) (ci : Nat) : State :=
  match freeUnit s with
  | none => s
  | some u =>
    { s with sieves := s.sieves.modify u fun v => { v with use_ := some (.merge ci), coll := ci, mode := 3 }
             colls := s.colls.upd ci fun k => { k with merge := k.merge.map (fun m => { m with unit := some u }) } }

/-- A job takes the Orrery: a suspended one is restored, another starts; its wait is counted and its cost is charged to its flow
(10 R406, R407, R412). -/
def startJob (s : State) (j : Job) (urgent : Bool) : State :=
  let s := loadJobSpill s j
  let s := s.ephM fun e => { e with holder := .job j.id, candidate := none, jobs := e.jobs.map (fun i => if i.id == j.id then { i with urgent := urgent } else i) }
  match j.suspended with
  | some u => s.oryM fun y => { y with prog := some u.prog, mode := .restore, preempt := false }
  | none =>
    let s := match serverOf s j.cls with
      | some k => wfqCharge s (10 + k) j.tenant j.wJob (s.eph.jobs.any (fun i => i.id != j.id && i.tenant == j.tenant && serverOf s i.cls == some k && i.suspended.isNone)) false
      | none => s
    let s := if j.counted then s else
      (countWait s j.tenant (s.now - j.ready)).ephM fun e => { e with jobs := e.jobs.map (fun i => if i.id == j.id then { i with counted := true } else i) }
    let s := if j.cls == .merge then takeUnit s j.target else s
    startProg s j.slot (if j.cls == .recompute then 3 else 4)

/-- Work in the order of the right-hand column of 10 Table 10-8. -/
def background (s : State) : State :=
  match overrunNext s with
  | some c => resumeStep s c
  | none =>
    match firstServer s s.now (serverList s true ++ serverList s false) with
    | (s, some j) => startJob s j false
    | (s, none) => match strayJob s with | some j => startJob s j false | none => s

/-- Work in a SPORADIC slot of server k (10 Table 10-8). -/
def sporadic (s : State) (k : Nat) : State :=
  match serverNext s s.now k with
  | (s, some j) => startJob s j false
  | (s, none) =>
    match overrunNext s with
    | some c => resumeStep s c
    | none =>
      let others := sortBy (fun a b => (serverAt s a).priority < (serverAt s b).priority || ((serverAt s a).priority == (serverAt s b).priority && a ≤ b))
        ((serverList s true ++ serverList s false).filter (· != k))
      match firstServer s s.now others with
      | (s, some j) => startJob s j false
      | (s, none) => match strayJob s with | some j => startJob s j false | none => s

/-- A free Orrery takes its next work: an urgent job whose pre-emption was made, then its victim, then the order of 10 Table 10-8. -/
def dispatch (s : State) : State :=
  match s.eph.active with
  | none => background s
  | some _ =>
    match slotNow s with
    | none => s
    | some e =>
      if s.eph.leadPassed || e.kind = 3 then s
      else if e.kind = 1 then
        match s.eph.candidate.bind (findJob s) with
        | some j => startJob s j true
        | none =>
          match s.eph.ctxs.get? e.target with
          | some x => if x.state == .stepping && x.suspended.isSome then resumeStep s e.target else if x.state == .stepping then s else background s
          | none => background s
      else if e.kind = 2 then sporadic s e.target
      else background s

end Sys2Proof.Machine
end

