-- ==== Sys2Proof/Machine/Steps.lean ====
section
/-!
DEFINITION. Sys2Proof/Machine/Steps.lean: steps of a batch context: the freeze (01 R40, 05 R183 to R188, 06 R218 to R230), the commit copy (05 R192 to R195),
the boundary with its leaves, refills and joins (05 R176, R201 to R207), and draft runs (06 R229, R230).
-/
namespace Sys2Proof.Machine

/-! ## Faults of parures and threads found by a step (13 R491 to R496) -/

/-- A tarnished line of a parure or facet image was read: the event and the record (13 R496). -/
def parureTarnish (s : State) (slot detail : Nat) : State := logFault (intEvent s 4) 0x02 0xB4 0xFF 0 slot detail

/-- The locket is unusable until it is closed or restored (13 R494). -/
def markUnusable (s : State) (h : Nat) : State := s.locketM h fun l => { l with unusable := true, dirtyControl := true }

/-- The control page or the thread symbols that a freeze reads are tarnished. -/
def threadTarnished (s : State) (l : Locket) : Bool :=
  tarnishedRun s l.page 4096 || (decide (l.base < l.thread.length) && tarnishedRun s (l.threadAddr + 2 * l.base) (2 * (l.thread.length - l.base)))

/-! ## Replay logs (14 R555, R556) -/

/-- The command that an entry of a replay log stands for; its completion was posted by the lost device. -/
def replayCmd (l : Locket) (e : ReplayEntry) : HCmd :=
  { id := 0, tenant := l.tenant, opcode := 0x23, desc := padTo 64 e.data, tag := fieldAt e.data 4 4, started := true, counted := false }

/-- One entry takes effect at the boundary before its step (14 R555). -/
def replayEntry (h : Nat) (log : List ReplayEntry) (s : State) (e : ReplayEntry) : State :=
  match s.lockets.get? h with
  | none => s
  | some l =>
    if e.kind = 1 then appendInput s h 0 (readSyms (e.data.length / 2) e.data)
    else if e.kind = 2 then
      let c := replayCmd l e
      if l.stm.generating then s.locketM h fun l => applyText (locketImg s l) (applySampler l c.desc) c.desc
      else
        let slot := ((log.filter (fun x => x.kind == 5 && x.atStep == e.atStep)).getLast?.map (fun x => padTo 256 x.data)).getD l.stopSlot
        (openStream s c h { l with stopSlot := slot }).locketM h fun m => { m with stopSlot := l.stopSlot }
    else if e.kind = 3 then (cancelOn s h (bitAt (fieldAt e.data 1 1) 4)).1
    else s

/-- The draft record that a member in REPLAY takes (14 R555). -/
def replayDraft (s : State) (h : Nat) (l : Locket) : List Byte :=
  (((s.ckpt.replay.getD h []).filter (fun e => e.kind == 4 && e.atStep == l.smp.stepIndex)).getLast?.map (fun e => padTo 64 e.data)).getD (zeros 64)

/-- The entries of a member's replay log for its next step take effect in log order; CANCELs that act before the seal wait for it (14 R555). -/
def replayBoundary (s : State) (h : Nat) : State :=
  match s.lockets.get? h with
  | none => s
  | some l =>
    if !l.replay then s else
    let log := s.ckpt.replay.getD h []
    (log.filter (fun e => e.atStep == l.smp.stepIndex && !(e.kind == 3 && e.beforeSeal))).foldl (replayEntry h log) s

/-! ## Inputs that a boundary takes up (06 R218, 07 R277, 15 R582) -/

/-- A GENERATE that waited for the boundary takes effect: its sampler fields, and for an open stream its text operands and its completion. -/
def applyWait (h : Nat) (s : State) (g : GenUpdate) : State :=
  match s.lockets.get? h with
  | none => s
  | some l =>
    if some g.cmd = l.genCmd then s.locketM h fun l => applySampler l g.desc
    else
      let s := countCmdWait s g.cmd
      completeId (s.locketM h fun l => applyText (locketImg s l) (applySampler l g.desc) g.desc) g.cmd stOk 0 0 l.smp.stepIndex

/-- Every GENERATE that waited takes effect in order of acceptance. -/
def applyWaits (s : State) (h : Nat) : State :=
  match s.lockets.get? h with
  | none => s
  | some l => (l.genWait.foldl (applyWait h) s).locketM h fun l => { l with genWait := [] }

/-- THREAD_LEN just after the symbols of each pending run were appended (15 R582). -/
def runLens : List (Nat × Nat) → Nat → List (Nat × Nat)
  | [], _ => []
  | (id, _) :: rest, len => (id, len - (rest.map (·.2)).foldl (· + ·) 0) :: runLens rest len

/-- The INGESTs of a member complete at the freeze (15 R582, 10 R412), and the opening GENERATE's wait is counted. -/
def ackInputs (s : State) (h : Nat) : State :=
  match s.lockets.get? h with
  | none => s
  | some l =>
    let s := (runLens l.pendingCmds l.thread.length).foldl
      (fun s e => if e.1 = 0 then s else completeId (countCmdWait s e.1) e.1 stOk e.2 0 l.smp.stepIndex) s
    let s := match l.genCmd, l.genStep with
      | some id, none => countCmdWait s id
      | _, _ => s
    s.locketM h fun l => { l with pendingCmds := [], genStep := if l.genCmd.isSome && l.genStep.isNone then some l.smp.stepIndex else l.genStep }

/-! ## The freeze (01 R40; 05 R183 to R188) -/

/-- Nodes beyond the session's limits go with their descendants, and the rest are renumbered (05 R186, 06 R726; log 26). -/
def limitTree (img : List Byte) (row : LenRow) (r0 : Nat × Nat) (t : Tree) : Tree :=
  let es := nodeEntries img [] row t 0 r0
  let bad := (es.filter (fun e => imgMaxThread img ≤ e.pos + 1 || (imgTwoRate img && e.closes && imgMaxGlobal img ≤ e.gpos + 1))).map (·.nodeNum)
  settleTree { t with gone := ((bad.map (withBelow t)).flatten).eraseDups }

/-- Filigree places the masks of the nodes whose symbols are known: their count, and the count in the DEAD state (07 R252, R253). -/
def countMasks (s : State) (t : Tree) (nodes : List Nat) : State :=
  { s with fil := { s.fil with masks := (s.fil.masks + nodes.length) % 2 ^ 64
                               dead := (s.fil.dead + (nodes.filter (fun n => (t.states.getD n none).isNone)).length) % 2 ^ 32 } }

/-- The session of a grammar line that a node uses being tarnished ends; the nodes are given by their states (13 Table 13-3). -/
def checkMasks (s : State) (h : Nat) (l : Locket) (states : List (Option Nat)) : State × Bool :=
  match loadedSlot s l.slot with
  | none => (s, false)
  | some p =>
    if states.any (gramTarnished s p l.stm.grammar) then
      (parureTarnish (tarnishSession { s with fil := { s.fil with evMaskTarnish := true } } h 0xB4 5) l.slot 0, true)
    else (s, false)

/-- The sampler's events of a choice of draft source (06 R223). -/
def countDraft (s : State) (ignored noDraft : Bool) : State :=
  { s with smp := { s.smp with evHostIgnored := s.smp.evHostIgnored || ignored, hostIgnored := if ignored then wrapInc 32 s.smp.hostIgnored else s.smp.hostIgnored
                               evNoDraft := s.smp.evNoDraft || noDraft } }

/-- The tree of a generating member whose last input stands before its root (06 R222 to R231, 05 R186): the state, and the tree where node 0 stays. -/
def freezeTree (s : State) (h : Nat) (l : Locket) (row : LenRow) (room : Nat) : State × Option Tree :=
  let img := locketImg s l
  let pos := row.base + row.nIn
  let draft := if l.replay then replayDraft s h l else l.draft
  match chooseTree s l img pos draft with
  | (t0, used, ignored, noDraft) =>
    let s := countDraft s ignored noDraft
    let s := if used && !l.replay then s.locketM h fun l => { l with draft := l.draft.set 9 0#8 } else s
    let r0 := (inputEntries img [] row 0 ((l.thread.drop row.base).take row.nIn) 0 (openRun img l, 0)).2
    let t := limitTree img row r0 (cutTree room t0)
    if t.parents.isEmpty then (s, none) else (s, some { t with states := treeStates img l t })

/-- A member is paused for lack of acknowledgements (15 R590). -/
def pausedNow (s : State) (l : Locket) : Bool := l.stm.generating && dlvDepth s l.tenant ≤ l.stm.nextSeq - l.acked

/-- The pause of a member at a freeze, counted when it begins (15 R590). -/
def notePause (s : State) (h : Nat) (l : Locket) : State :=
  let p := pausedNow s l
  let s := if p && !l.paused then hifEvent (s.hifM fun i => { i with paused := wrapInc 32 i.paused }) 7 else s
  s.locketM h fun l => { l with paused := p }

/-- A row that takes no positions. -/
def idleRow (m h : Nat) (l : Locket) : LenRow :=
  { member := m, active := false, gen := false, held := l.held, nIn := 0, width := 0, base := l.base, gbase := l.gbase, handle := h }

/-- The length-table row and the tree of one member (05 Table 5-7, R186; 13 R491). -/
def freezeRow (s : State) (m h : Nat) : State × LenRow × Option Tree :=
  match s.lockets.get? h with
  | none => (s, { member := m, active := false, gen := false, held := false, nIn := 0, width := 0, base := 0, gbase := 0, handle := h }, none)
  | some l =>
    let s := notePause s h l
    let idle := idleRow m h l
    let p := l.thread.length - l.base
    let c := ((loadedSlot s l.slot).map (·.widthCap)).getD 1
    let inputs := fun (n : Nat) => { idle with active := decide (n ≠ 0), nIn := n }
    if l.held || l.dropped || l.recomputing || l.unusable || pausedNow s l || p = 0 then (s, idle, none)
    else if threadTarnished s l then
      let s := if tarnishedRun s (l.page + 384) 384 then { s with stm := { s.stm with evStateTarnish := true } } else s
      (markUnusable (tarnishSession s h 0xC1 2) h, idle, none)
    else if !l.stm.generating then (s, inputs (min p c), none)
    else if c < p then (s, inputs c, none)
    else
      match freezeTree s h l { idle with nIn := p - 1, gen := true } (c - p + 1) with
      | (s, none) => (endStream s h stNoRoom, inputs (min p c), none)
      | (s, some t) =>
        let known := (List.range t.parents.length).filter (fun n => !t.open_.contains n)
        match checkMasks s h l (known.map (fun n => t.states.getD n none)) with
        | (s, true) => (s, idle, none)
        | (s, false) => (countMasks s t known, { idle with active := true, gen := true, nIn := p - 1, width := t.parents.length }, some t)

/-- The rows and trees of a context's members in ascending member index. -/
def freezeRows (s : State) (members : Tab Nat) : State × List LenRow × Tab Tree :=
  members.foldl (fun acc e =>
    match freezeRow acc.1 e.1 e.2 with
    | (s, row, none) => (s, acc.2.1 ++ [row], acc.2.2)
    | (s, row, some t) => (s, acc.2.1 ++ [row], acc.2.2.set e.1 t)) (s, [], [])

/-- Filigree, the sampler and the control complex serve freezes while they are enabled (06 Table 6-9, 07 Table 7-15). -/
def freezeOk (s : State) : Bool := s.fil.enable && s.smp.enable && s.ast.enable && issueOk s

/-- The inputs of a context's next step are frozen and the step starts; without a member that takes part the context is IDLE (01 R40; 10 R394, R395). -/
def startStep (s : State) (c : Nat) : State :=
  match s.eph.ctxs.get? c, slotNow s with
  | some x, some e =>
    let s := x.members.vals.foldl ackInputs s
    match freezeRows s x.members with
    | (s, rows, trees) =>
      if rows.all (fun r => !r.active) then s.ctxM c fun x => { x with state := .idle, step := none }
      else
        let p := s.parures.getD x.slot {}
        let drafting := trees.any (fun t => !t.2.open_.isEmpty)
        let st : StepRec :=
          { index := x.started, deadline := s.eph.slotStart + (x.started + 1) * p.tAdm + urgentRoom e p.image, start := s.now, rows := rows
            positions := positionsOf s [] trees rows, trees := trees, draftLevel := if drafting then some 0 else none }
        let s := s.ctxM c fun x => { x with state := .stepping, step := some st, started := x.started + 1 }
        let s := (loadCtxSpill s c).ephM fun e => { e with holder := .step c }
        let s := s.oryM fun y => { y with ctx := c }
        let s := { s with fil := { s.fil with ctx := c }, smp := { s.smp with ctx := c } }
        if drafting then (match draftSlot s c with | some d => startProg s d 2 | none => startProg s x.slot 1) else startProg s x.slot 1
  | _, _ => s

/-! ## Draft runs (06 R229, R230, R726) -/

/-- After the last draft run the trees are settled and limited, their states and masks placed, and the STEP program starts. -/
def endDrafts (s : State) (c : Nat) (st : StepRec) : State :=
  let trees : Tab Tree := st.trees.map (fun e =>
    match (st.rows.find? (fun r => r.member == e.1)).bind (fun r => (s.lockets.get? r.handle).map (fun l => (r, l))) with
    | none => e
    | some (r, l) =>
      let img := locketImg s l
      let r0 := (inputEntries img [] r 0 ((l.thread.drop r.base).take r.nIn) 0 (openRun img l, 0)).2
      let t := limitTree img r r0 (settleTree e.2)
      (e.1, { t with states := treeStates img l t }))
  let rows := rowWidths st trees
  let s := s.stepM c fun st => { st with trees := trees, rows := rows, draftLevel := none, positions := positionsOf s [] trees rows }
  startProg s (((s.eph.ctxs.get? c).map (·.slot)).getD 0) 1

/-- Greatest depth of the trees of a step whose nodes are still drafted. -/
def openDepth (st : StepRec) : Nat := (st.trees.map (fun e => (e.2.open_.map (nodeDepth e.2)).foldl max 0)).foldl max 0

/-- The draft row of a node: the logits that the draft run gave the node's position (06 R229 item 2). -/
def draftRow (ps : List PosEntry) (st : StepRec) (v : Nat × Nat) : List W32 :=
  ((firstIdx (fun e => e.member == v.1 && e.node && e.nodeNum == v.2) ps).bind (fun i => st.logits.get? i)).getD []

/-- A member whose grammar lines at these nodes are tarnished ends, where its step still includes it (13 Table 13-3, 07 R253). -/
def checkNodes (st : StepRec) (s : State) (m : Nat) (t : Tree) (nodes : List Nat) : State :=
  match (st.rows.find? (fun r => r.member == m)).bind (fun r => (s.lockets.get? r.handle).map (fun l => (r.handle, l))) with
  | none => s
  | some (h, l) => if (unsealedStep s h l).isNone then s else (checkMasks s h l (nodes.map (fun n => t.states.getD n none))).1

/-- The children of a level have their symbols: their masks are placed and read, the step holds the new trees, and the rows of the run are spent
(06 R229, 07 R253). -/
def fixRun (s : State) (c : Nat) (st : StepRec) (d : Nat) (rows : List ((Nat × Nat) × List W32)) : State :=
  let trees := fixLevel s st rows
  let n := levelShapes s st rows
  let s := { s with smp := { s.smp with rows := (s.smp.rows + n.1) % 2 ^ 64, evDegenerate := s.smp.evDegenerate || n.2 != 0, degenerate := (s.smp.degenerate + n.2) % 2 ^ 32 } }
  let s := trees.foldl (fun s e =>
    let fixed := (st.trees.getD e.1 {}).open_.filter (fun k => !e.2.open_.contains k && !e.2.gone.contains k)
    checkNodes st (countMasks s e.2 fixed) e.1 e.2 fixed) s
  s.stepM c fun x => { x with trees := trees, draftLevel := some (d + 1), logits := [], tarnRows := [] }

/-- The draft program of a context has run for a level. -/
def draftRan (s : State) (c : Nat) : Bool :=
  s.eph.holder == .step c && (match s.ory.prog with | some p => p.kind == 2 && progDone p | none => false)

/-- DRAFT_RUN_DONE (06 R229, R230): the draft program has committed its last tile, and the rows of the level's nodes that have children fix those children.
The operand names the context whose draft run ends. -/
def execDraftRunDone (context : Nat) (s : State) : Out :=
  match drafting s with
  | none => .next s
  | some (c, st, d) =>
    when (c == context && draftRan s c && s.smp.enable && issueOk s) s (
      let ps := stepPositions s c st
      let s1 := fixRun s c st d ((levelNodes st d).map (fun v => (v, draftRow ps st v)))
      match ctxStep s1 c with
      | none => s1
      | some st1 => if openDepth st1 ≤ d then endDrafts s1 c st1 else startProg s1 ((draftSlot s c).getD 0) 2)

/-! ## The commit copy (05 R194) -/

/-- The layers of one stack of one position are copied from the stage slot to the canonical slot, each page walked where the TLB does not hold it
(05 R165, R182, R194). -/
def commitStack (h : Nat) (img : List Byte) (loc : Bool) (slot q : Nat) (s : State) : State :=
  let g := geom img loc
  (List.range g.n).foldl (fun s layer =>
    match s.lockets.get? h with
    | none => s
    | some l =>
      let o := stageOff img loc layer slot
      let x := entryAddr g loc layer q
      let w := looks (ownLook img h l) s (pagesOf o g.e ++ pagesOf x g.e)
      let bad := w.2 || kvTarnished s l o g.e
      let s := kvWrite w.1 h false x (kvRead s l o g.e)
      if bad then s.locketM h fun l => { l with tarnished := true } else s) s

/-- The entries of one position are copied. -/
def commitEntry (h : Nat) (img : List Byte) (s : State) (e : PosEntry) : State :=
  let s := if e.closes then commitStack h img false e.slot (ownSlot img ((s.lockets.get? h).getD {}) e.gpos) s else s
  if imgTwoRate img then commitStack h img true e.slot (e.pos % max 1 (imgWindow img)) s else s

/-- The positions of a member that the seal commits: its inputs and the first committed nodes of its path (05 R194, 07 R256). -/
def committedEntries (st : StepRec) (m : Nat) : List PosEntry :=
  let path := (((st.paths.getD []).get? m).map (·.nodes)).getD []
  let keep := path.take (st.committed.getD m 0)
  st.positions.filter (fun e => e.member == m && (!e.node || keep.contains e.nodeNum))

/-- The commit copy of one member, and its BASE and GBASE (05 R194). -/
def commitMember (st : StepRec) (s : State) (row : LenRow) : State :=
  if !row.active || st.removed.contains row.member then s else
  match s.lockets.get? row.handle with
  | none => s
  | some l =>
    let img := locketImg s l
    let es := committedEntries st row.member
    let s := es.foldl (commitEntry row.handle img) s
    let s := s.locketM row.handle fun l =>
      { l with base := row.base + es.length, gbase := row.gbase + (es.filter (·.closes)).length, dirtyControl := true
               lastClose := match (es.filter (·.closes)).getLast? with
                 | some e => some (e.pos + 1)
                 | none => some (row.base - openRun img l) }
    if ((s.lockets.get? row.handle).map (·.tarnished)).getD false && !l.tarnished then tarnishSession s row.handle 0xB1 1 else s

/-- The symbols that waited for a step's end enter the threads (08 R289). -/
def takePending (s : State) (h : Nat) : State :=
  s.locketM h fun l => { l with thread := l.thread ++ l.pending, pending := [], dirtyControl := l.dirtyControl || !l.pending.isEmpty }

/-- Items 1 and 2 of 05 R202 at the end of a sealed step. -/
def commitStep (s : State) (c : Nat) (x : Ctx) (st : StepRec) : State :=
  let s := captureDeferred (st.rows.foldl (commitMember st) s) (st.rows.map (·.handle))
  let s := sweepFacets (s.ctxM c fun x => { x with step := none })
  x.members.vals.foldl takePending s

/-! ## Leaves and refills (05 R201 to R204, 13 R493) -/

/-- A member leaves its context: its step area and reserve are freed, and its locket is OPEN (05 R202 item 3, 08 Table 8-5). -/
def leaveMember (s : State) (c h : Nat) : State :=
  match s.lockets.get? h with
  | none => s
  | some l =>
    let s := unpinReplicas (releaseFrames s l.home (l.reserve ++ l.area)) (pinLocket h)
    let s := s.locketM h fun l => { l with state := .opened, context := 0xFF, member := 0, reserve := [], area := [], held := false, paused := false
                                           lastTouch := s.now, dirtyControl := true }
    s.ctxM c fun x => { x with members := x.members.filter (fun e => e.2 != h) }

/-- A member whose KV is tarnished leaves without a command and loses its own-region pages; its next join recomputes them (13 R493). -/
def expel (s : State) (c h : Nat) : State :=
  (dropSession (leaveMember s c h) h).locketM h fun l => { l with tarnished := false, dropped := true }

/-- The leaves that take effect at a boundary: members to expel first, then the commands in order of acceptance (05 R202 item 3). -/
def doLeaves (s : State) (c : Nat) : State :=
  match s.eph.ctxs.get? c with
  | none => s
  | some x =>
    let s := x.members.vals.foldl (fun s h => if ((s.lockets.get? h).map (·.tarnished)).getD false then expel s c h else s) s
    let s := x.leaves.foldl (fun s v => completeId (leaveMember s c v.id) v.cmd stOk 0 0 0) s
    s.ctxM c fun x => { x with leaves := [] }

/-- The frames of a refill join the reserve; where none could be taken the session is held and its stream ends (05 R203). -/
def refillWith (h : Nat) (l : Locket) (s : State) : Option (List Nat) → State
  | some fs => s.locketM h fun l => { l with reserve := l.reserve ++ fs, held := false }
  | none =>
    let s := if l.held then s else s.astM fun a => { a with evHeld := true }
    endStream (s.locketM h fun l => { l with held := true }) h stNoRoom

/-- One member's reserve is refilled, or the member becomes HELD (05 R202 item 4, R204). -/
def refill1 (s : State) (h : Nat) : State :=
  match s.lockets.get? h with
  | none => s
  | some l =>
    let q := takeFrames s l.home (reservePages (locketImg s l) - l.reserve.length) (.reserve h)
    refillWith h l q.1 q.2

/-- The reserves of a context's members are refilled in ascending member index. -/
def doRefills (s : State) (c : Nat) : State := (((s.eph.ctxs.get? c).map (·.members.vals)).getD []).foldl refill1 s

/-! ## Joins (05 R174, R176, R203, R207; 10 R392; 15 R583) -/

/-- Pages of a charm replica that a join must make in a stack (05 R174). -/
def missingReplica (s : State) (l : Locket) (st : Nat) : Nat :=
  match attachedCharm s l with
  | none => 0
  | some (_, m) =>
    if (m.replicas.getD st {}).state == .absent then charmPages (locketImg s l) m.symbols.length m.glen else 0

/-- Pages of the recompute that a DROPPED session needs and that none has started (05 R207). -/
def droppedPages (s : State) (l : Locket) : Nat :=
  if l.dropped && !l.recomputing then (recomputePages (locketImg s l) l.base l.gbase l.charmLen l.charmGlen).length else 0

/-- The charm replica of a stack is pinned for a locket, and promoted first where it is absent (05 R174). -/
def takeReplica (s : State) (h : Nat) (l : Locket) (st : Nat) : State :=
  match attachedCharm s l with
  | none => s
  | some (ci, m) =>
    if (m.replicas.getD st {}).state == .absent then (startReplica s ci st (pinLocket h)).getD s else pinReplica s ci st (pinLocket h)

/-- The frames of a join are given their uses: step area, reserve and recompute; the replica's pages are taken by its promotion. -/
def spreadFrames (s : State) (h st : Nat) (img : List Byte) (fs : List Nat) (recPages : Nat) : State × List Nat :=
  let a := areaPages img
  let n := imgStepPages img
  let recs := (fs.drop n).take recPages
  let s := releaseFrames s st (fs.drop (n + recPages))
  let s := useFrames (useFrames (useFrames s st ((fs.take n).drop a) (.reserve h)) st (fs.take a) (.step h)) st recs (.inUse h)
  (s.locketM h fun l => { l with area := fs.take a, reserve := (fs.take n).drop a }, recs)

/-- A join reserves its pages in the home stack, and the replica and recompute it needs begin (05 R203, R207); false where pages lack. -/
def reserveJoin (s : State) (h : Nat) (l : Locket) (since : Tick) : State × Bool :=
  let img := locketImg s l
  let recPages := droppedPages s l
  match takeFrames s l.home (imgStepPages img + missingReplica s l l.home + recPages) (.reserve h) with
  | (s, none) => (s, false)
  | (s, some fs) =>
    match spreadFrames s h l.home img fs recPages with
    | (s, recs) =>
      let s := takeReplica s h l l.home
      (if l.dropped && !l.recomputing then beginRecompute s h recs since true else s, true)

/-- Sessions of a context that a stack holds, started joins among them (05 R176). -/
def homeCount (s : State) (x : Ctx) (st : Nat) (but : Nat) : Nat :=
  ((x.members.vals ++ (x.joins.filter (·.started)).map (·.id)).filter (fun h =>
    h != but && ((s.lockets.get? h).map (fun l => ((s.ast.moves.get? h).getD l.home) == st)).getD false)).length

/-- Stacks to which a session may move: fewest members first, then ascending number (05 R176). -/
def moveTargets (s : State) (x : Ctx) (h home : Nat) : List Nat :=
  sortBy (fun a b => homeCount s x a h < homeCount s x b h || (homeCount s x a h == homeCount s x b h && a ≤ b))
    ((List.range 8).filter (fun t => t != home && homeCount s x t h < 32))

/-- The transfer of a move: the footprint and the own pages, unit by unit to their new places (05 R176; 09 R347, Table 9-6). -/
def moveDesc (s : State) (h : Nat) (l : Locket) (t page : Nat) (fs : List Nat) : Desc :=
  let n := ceilDiv l.footprint 4096
  let src := unitRun l.page n ++ ((presentOwn l).map (fun e => unitRun (frameAddr s e.2.stack e.2.frame) 16)).flatten
  { cookie := 0, op := 1, tenant := l.tenant, units := src.length, srcList := fillList (max 1 src.length) src
    dstList := fillList (max 1 src.length) (unitRun page n ++ frameUnits s t fs), purpose := .move h t }

/-- A move to one stack: its pages are reserved there and the T1-to-T1 transfer is submitted (05 R176). -/
def moveTo (s : State) (h : Nat) (l : Locket) (cmd t : Nat) : State × Bool :=
  let img := locketImg s l
  let own := (presentOwn l).length
  match arenaFit s t l.footprint with
  | none => (s, false)
  | some page =>
    match takeFrames s t (own + imgStepPages img + droppedPages s l + missingReplica s l t) (.inUse h) with
    | (s, none) => (s, false)
    | (s, some fs) =>
      let keep := own + imgStepPages img + droppedPages s l
      let s := useFrames s t ((fs.drop own).take (imgStepPages img)) (.reserve h)
      let s := unpinReplicas (releaseFrames s t (fs.drop keep)) (pinLocket h)
      let s := takeReplica s h l t
      let s := s.locketM h fun l => { l with move := some { src := 1, cmd := some cmd, home := t, frames := fs.take keep, page := page } }
      let s := s.astM fun a => { a with moves := a.moves.set h t }
      (submit s (moveDesc s h l t page (fs.take own)), true)

/-- The first stack of a list that can hold a move. -/
def moveFirst (h : Nat) (l : Locket) (cmd : Nat) : List Nat → State → State × Bool
  | [], s => (s, false)
  | t :: ts, s =>
    match moveTo s h l cmd t with
    | (s, true) => (s, true)
    | (s, false) => moveFirst h l cmd ts s

/-- A join that has started and needs nothing more. -/
def joinReady (s : State) (l : Locket) : Bool :=
  l.move.isNone && !l.recomputing && !l.dropped && (match attachedCharm s l with
    | none => true
    | some (_, m) => (m.replicas.getD l.home {}).state == .present)

/-- A pending join ends at a boundary: its wait is counted and it leaves the context's list (10 R412). -/
def endJoin (s : State) (c : Nat) (j : Join) (status r0 : Nat) : State :=
  let s := s.ctxM c fun x => { x with joins := x.joins.filter (fun i => i.cmd != j.cmd) }
  let s := s.locketM j.id fun l => { l with pins := l.pins.filter (· != j.cmd), joinWait := false }
  completeId (countCmdWait s j.cmd) j.cmd status r0 0 0

/-- The session becomes a member: its index is the one asked for when free, otherwise the lowest free one (15 R583, 08 Table 8-5). -/
def bindMember (s : State) (c : Nat) (j : Join) : State :=
  match s.eph.ctxs.get? c with
  | none => s
  | some x =>
    let want := ((findCmd s j.cmd).map (·.fld 17 1)).getD 0xFF
    let m := if want != 0xFF && !x.members.has want then want else (x.members.freshFrom 256 0).getD 0
    let s := s.ctxM c fun x => { x with members := x.members.set m j.id }
    let s := s.locketM j.id fun l => { l with state := .bound, context := c, member := m, held := false, lastTouch := s.now, dirtyControl := true
                                              charmTable := ((attachedCharm s l).map (fun e => replicaId e.1 l.home)).getD 0 }
    endJoin s c j stOk m

/-- One pending join at a boundary (05 R203, R207; 10 R392). -/
def doJoin (c : Nat) (s : State) (j : Join) : State :=
  match s.eph.ctxs.get? c, s.lockets.get? j.id with
  | some x, some l =>
    let started := s.ctxM c fun x => { x with joins := x.joins.map (fun i => if i.cmd == j.cmd then { i with started := true } else i) }
    let fail := fun (s : State) (st : Nat) => endJoin (returnJoin s j.id) c j st 0
    let goOn := fun (s : State) => match s.lockets.get? j.id with
      | some l => if joinReady s l then bindMember s c j else s.locketM j.id fun l => { l with joinWait := true }
      | none => s
    if j.started then goOn s
    else if 256 ≤ x.members.length + (x.joins.filter (·.started)).length then fail s stNoRoom
    else if l.charmDigest != 0 && ((attachedCharm s l).map (fun e => e.2.orphaned)).getD true then fail s stTarnished
    else if 32 ≤ homeCount s x l.home j.id then
      match moveFirst j.id l j.cmd (moveTargets s x j.id l.home) started with
      | (s, true) => s.locketM j.id fun l => { l with joinWait := true }
      | (s, false) => fail s stNoRoom
    else
      match reserveJoin started j.id l j.since with
      | (s, true) => goOn s
      | (s, false) => fail s stNoRoom
  | _, _ => s

/-- The joins of a boundary in order of acceptance (05 R202 item 5). -/
def doJoins (s : State) (c : Nat) : State := (((s.eph.ctxs.get? c).map (·.joins)).getD []).foldl (doJoin c) s

/-- Items 3 to 5 of 05 R202, and the inputs that take effect at every boundary (06 R218, 07 R277, 14 R555). -/
def boundary (s : State) (c : Nat) : State :=
  let s := doJoins (doRefills (doLeaves s c) c) c
  (((s.eph.ctxs.get? c).map (·.members.vals)).getD []).foldl (fun s h => applyWaits (replayBoundary s h) h) s

/-- The context starts another step at once where its slot still admits one (10 R395); otherwise it is IDLE. -/
def nextStep (s : State) (c : Nat) (sealedAt : Tick) : State :=
  match s.eph.ctxs.get? c, slotNow s with
  | some x, some e =>
    if slotCtx s == some c && x.started < e.steps && !s.eph.leadPassed && freezeOk s then
      let s := startStep s c
      if s.eph.holder == .step c && s.eph.jobs.any (fun j => sealedAt ≤ j.ready && (serverAt s ((serverOf s j.cls).getD 8)).urgent) then tryUrgent s else s
    else s.ctxM c fun x => { x with state := .idle }
  | _, _ => s.ctxM c fun x => { x with state := .idle }

/-- The step of the holder that has sealed and whose program has ended. -/
def boundaryReady (s : State) : Option (Nat × Ctx × StepRec) :=
  match s.eph.holder with
  | .step c => (s.eph.ctxs.get? c).bind (fun x => x.step.bind (fun st =>
      if st.sealedAt.isSome && ((s.ory.prog.map progDone).getD true) then some (c, x, st) else none))
  | _ => none

/-- STEP_BOUNDARY (05 R202, 10 R395). -/
def execStepBoundary (s : State) : Out :=
  clocked s (
  match boundaryReady s with
  | none => .next s
  | some (c, x, st) =>
    when (s.ast.enable && s.integ.mode != .isolated) s (
      let s := freeOrrery (commitStep s c x st)
      nextStep (boundary s c) c (st.sealedAt.getD s.now)))

/-! ## Recompute passes and stack moves (05 R176, R207) -/

/-- A recompute has ended: DROPPED and RECOMPUTING are clear, and its replica is held only by a join that still waits (05 R207). -/
def endRecompute (s : State) (h : Nat) : State :=
  match s.lockets.get? h with
  | none => s
  | some l =>
    let s := releaseFrames s l.home l.recFrames
    let s := s.locketM h fun l => { l with dropped := false, recomputing := false, recFrames := [], passDone := false, ringDue := false, dirtyControl := true
                                           recJoin := false, lastClose := some (l.base - l.recRun) }
    if joinPending s h then s else unpinReplicas s (pinLocket h)

/-- RECOMPUTE_PASS_DONE (05 R207). -/
def execRecomputePassDone (handle : Nat) (s : State) : Out :=
  clocked s (
  match s.lockets.get? handle with
  | none => .next s
  | some l =>
    when (l.recomputing && l.passDone) s (
      let s := s.locketM handle fun l => { l with passDone := false, recNext := l.recNext + passCount l, recSince := s.now }
      if l.base ≤ l.recNext + passCount l then endRecompute s handle else s))

/-- A session has moved: its pages stand in the target stack, its old ones are freed (05 R176). -/
def endMove (s : State) (h : Nat) (l : Locket) (m : TierMove) : State :=
  let img := locketImg s l
  let own := presentOwn l
  let s := vacateAll s h
  let vpns : List Nat := own.map (·.1)
  let s := s.locketM h fun l =>
    { l with home := m.home, page := m.page, threadAddr := threadPlace img m.page, move := none, dirtyControl := true
             ptes := (vpns.zip m.frames).foldl (fun t e => t.set e.1 { state := .present, stack := m.home, frame := e.2 }) l.ptes
             charmTable := ((attachedCharm s l).map (fun e => replicaId e.1 m.home)).getD 0 }
  let s := s.astM fun a => { a with moves := a.moves.erase h }
  match spreadFrames s h m.home img (m.frames.drop own.length) (m.frames.length - own.length - imgStepPages img) with
  | (s, recs) => if l.dropped then beginRecompute s h recs (((m.cmd.bind (findCmd s)).map (·.accept)).getD s.now) true else s

/-- STACK_MOVE_DONE (05 R176). -/
def execStackMoveDone (handle : Nat) (s : State) : Out :=
  match s.lockets.get? handle with
  | none => .next s
  | some l =>
    match l.move with
    | none => .next s
    | some m =>
      match consume s (.move handle m.home) with
      | none => .next s
      | some (s1, st) => .next (if st = 0 || st = 4 then endMove s1 handle l m else withdrawJoin s1 handle stNoRoom)

/-- TLB_INVALIDATE: a write of AST_INV (05 Table 5-12, R181). -/
def execTlbInvalidate (table : Option Nat) (s : State) : Out :=
  when (serving s) s (match table with
    | none => s.astM fun a => { a with tlb := [] }
    | some id => tlbDropId s id)

end Sys2Proof.Machine
end

