-- ==== Sys2Proof/Machine/Ephemeris.lean ====
section
/-!
DEFINITION. Sys2Proof/Machine/Ephemeris.lean: schedule tables, their checks and the cover rule (10 R380 to R388), batch contexts and their joins
(10 R389 to R393), slots, lead points and the dispatch of work (10 R394 to R408), and tenant accounting (10 R412 to R415).
-/
namespace Sys2Proof.Machine

/-! ## Schedule tables (10 R380 to R384) -/

/-- Slot entry i of a table image (10 Table 10-3). -/
def readSlot (b : List Byte) (i : Nat) : EphSlot :=
  let f := fun o n => fieldAt b (64 + 32 * i + o) n
  { kind := f 0 1, target := f 1 1, steps := f 2 1, urgentMax := f 3 1, start := f 4 4, length := f 8 4, urgentTicks := f 12 4 }

/-- Server entry k of a table image (10 Table 10-4). -/
def readServer (b : List Byte) (k : Nat) : EphServer :=
  let f := fun o n => fieldAt b (4160 + 32 * k + o) n
  { classes := f 0 1, urgent := bitAt (f 1 1) 0, priority := f 2 1, budget := f 4 4 }

/-- The table that an image holds (10 R380). -/
def readTable (b : List Byte) : EphTable :=
  { generation := fieldAt b 10 2, frameTicks := fieldAt b 12 4, spillCap := fieldAt b 20 4
    slots := (List.range (fieldAt b 16 1)).map (readSlot b), servers := (List.range (fieldAt b 17 1)).map (readServer b) }

/-- Check 3: the header, and zero in every reserved byte and unused entry (10 Tables 10-2 to 10-5). -/
def tableHeaderOk (b : List Byte) : Bool :=
  let n := fieldAt b 16 1
  let m := fieldAt b 17 1
  b.take 8 == ascii "CL9EPHEM" && fieldAt b 8 2 == 1 && 500000 ≤ fieldAt b 12 4 && fieldAt b 12 4 ≤ 4000000 && 1 ≤ n && n ≤ 128 && m ≤ 8 &&
  fieldAt b 20 4 % 4096 == 0 && fieldAt b 20 4 ≤ 2162688 && zeroAt b 18 2 && zeroAt b 24 40 &&
  (List.range n).all (fun i => zeroAt b (64 + 32 * i + 16) 16) && zeroAt b (64 + 32 * n) (4096 - 32 * n) &&
  (List.range m).all (fun k => fieldAt b (4160 + 32 * k) 1 < 16 && fieldAt b (4160 + 32 * k + 1) 1 < 2 && zeroAt b (4160 + 32 * k + 3) 1 &&
    zeroAt b (4160 + 32 * k + 8) 24) && zeroAt b (4160 + 32 * m) (4032 - 32 * m)

/-- Check 4 on one slot: its fields under 10 Table 10-3 and its length under R382. -/
def slotOk (t : EphTable) (i : Nat) (e : EphSlot) : Bool :=
  let floor := (if e.kind = 3 then 1000 else leadOf t + 1000) + (if i + 1 = t.slots.length then 512 else 0)
  e.kind ≤ 3 && floor ≤ e.length &&
  (if e.kind = 1 then e.target < 8 && 1 ≤ e.steps && e.steps ≤ 8 && e.urgentMax ≤ 4 && (e.urgentMax != 0 || e.urgentTicks == 0) &&
     (e.urgentMax == 0 || t.servers.any (·.urgent))
   else (if e.kind = 2 then e.target < t.servers.length else e.target == 0) && e.steps == 0 && e.urgentMax == 0 && e.urgentTicks == 0)

/-- Check 4: the slots partition the frame (10 R377). -/
def slotsOk (t : EphTable) : Bool :=
  (t.slots.zipIdx).all (fun e => slotOk t e.2 e.1) &&
  t.slots.foldl (fun (a : Bool × Nat) e => (a.1 && e.start == a.2, a.2 + e.length)) (true, 0) == (true, t.frameTicks)

/-- Check 5: the servers. -/
def serversOk (t : EphTable) : Bool :=
  (List.range 4).all (fun b => (t.servers.filter (fun v => bitAt v.classes b)).length ≤ 1) &&
  t.servers.all (fun v => v.priority ≤ 7 && (if v.urgent then v.budget != 0 else v.budget == 0))

/-- Check 6: two spill areas fit in the control area of stack 0, and so one in every other stack's (10 R384). -/
def areasOk (s : State) (cap : Nat) : Bool := 2 * areaBytes cap + 192 * 2 ^ 20 + s.lan.config.captureBuf * 2 ^ 20 ≤ 2 ^ 30

/-- The largest SPILL_CAP of a table and the active one. -/
def capWith (s : State) (t : EphTable) : Nat := max t.spillCap ((s.eph.active.map (·.spillCap)).getD 0)

/-- The checks of 10 Table 10-5: the status and number of the first that fails. -/
def tableCheck (s : State) (c : HCmd) (b : List Byte) : Option (Nat × Nat) :=
  let t := readTable b
  if c.tenant != 0 || c.fld 24 4 != 8192 || !addrOk (c.fld 16 8) then some (stInvalid, 1)
  else if s.eph.switch.isSome then some (stBusy, 2)
  else if !tableHeaderOk b then some (stInvalid, 3)
  else if !slotsOk t then some (stInvalid, 4)
  else if !serversOk t then some (stInvalid, 5)
  else if !areasOk s (capWith s t) then some (stNoRoom, 6)
  else none

/-- EPHEMERIS_LOAD (10 R383, R384). -/
def loadTable (image : List Byte) (s : State) (c : HCmd) : State :=
  let b := padTo 8192 image
  match tableCheck s c b with
  | some (st, n) => complete s c st 0 n 0
  | none =>
    let t := readTable b
    complete (s.ephM fun e => { e with shadow := some t, spillArea := max e.spillArea (areaBytes (capWith s t)) }) c stOk 0 0 0

/-- EPHEMERIS_LOAD. -/
def execEphemerisLoad (id : Nat) (image : List Byte) (s : State) : Out := hostCmd s id 0x38 (loadTable image)

/-- EPHEMERIS_SWITCH (10 R385, R417). -/
def execEphemerisSwitch (id : Nat) (s : State) : Out :=
  hostCmd s id 0x39 fun s c =>
    let at_ := c.fld 16 8
    if s.eph.shadow.isNone || (s.eph.active.isSome && at_ != 0 && at_ ≤ s.eph.frame) then complete s c stInvalid 0 0 0
    else if s.eph.switch.isSome then complete s c stBusy 0 0 0
    else s.ephM fun e => { e with switch := some { atFrame := at_, accepted := c.accept, cmd := some c.id } }

/-! ## The cover rule (10 R387) -/

/-- Item 3 of the cover rule for one slot. -/
def slotCovered (s : State) (t : EphTable) (i : Nat) (e : EphSlot) : Bool :=
  match (if e.kind = 1 then s.eph.ctxs.get? e.target else none) with
  | none => true
  | some x =>
    let p := s.parures.getD x.slot {}
    let room := if i + 1 = t.slots.length then e.length - 512 else e.length
    e.steps * p.tAdm + urgentRoom e p.image + leadOf t ≤ room

/-- What the cover rule fails on: a slot, 0xFFFF for the frame length or 0xFFFE for the spill cap (10 R386, R387). -/
def coverFail (s : State) (t : EphTable) : Option Nat :=
  if s.parures.any (fun e => e.2.state == .loaded && !imgDraft e.2.header && t.frameTicks < e.2.tAdm) then some 0xFFFF
  else if s.eph.ctxs.any (fun e => t.spillCap < imgSpillMax (s.parures.getD e.2.slot {}).header) then some 0xFFFE
  else t.slots.zipIdx.findSome? (fun e => if slotCovered s t e.2 e.1 then none else some e.2)

/-! ## Batch contexts (10 R389 to R392) -/

/-- The flag RELEASE of a BATCH_DEFINE. -/
def releaseFlag (s : State) (id : Nat) : Bool := ((findCmd s id).map (·.flag 4)).getD false

/-- The lowest spill reservation of a parure that no context holds (10 R389). -/
def freeSpill (s : State) (slot : Nat) (p : Parure) : Option Nat :=
  ((List.range p.contexts).map (fun i => p.controlBase + imgCtlBytes p.header + i * ctxSpill p.image)).find?
    (fun a => !s.eph.ctxs.any (fun e => e.2.slot == slot && e.2.spillBase == a))

/-- BATCH_DEFINE without RELEASE: the checks of 10 Table 10-6 (R389). -/
def defineStart (s : State) (c : HCmd) : State :=
  let n := c.fld 16 1
  if 8 ≤ n then complete s c stInvalid 0 0 0 else
  match parureHandle s c.handle with
  | none => complete s c stUnknown 0 0 0
  | some (slot, p) =>
    if p.state != .loaded then complete s c stUnknown 0 0 0
    else if imgDraft p.header then complete s c stInvalid 0 0 0
    else if s.eph.ctxs.has n then complete s c stBusy 0 0 0
    else match (if (s.eph.ctxs.filter (fun e => e.2.slot == slot)).length < p.contexts then freeSpill s slot p else none) with
      | none => complete s c stNoRoom 0 0 0
      | some a =>
        let s1 := s.ephM fun e => { e with ctxs := e.ctxs.set n { slot := slot, spillBase := a } }
        let tables := s.eph.active.toList ++ (if s.eph.switch.isSome then s.eph.shadow.toList else [])
        if tables.all (fun t => (coverFail s1 t).isNone) then complete s1 c stOk 0 0 0 else complete s c stNoTime 0 0 0

/-- BATCH_DEFINE (10 R389). -/
def execBatchDefine (id : Nat) (s : State) : Out := if releaseFlag s id then .next s else hostCmd s id 0x30 defineStart

/-- BATCH_DEFINE with RELEASE (10 R390). -/
def execBatchRelease (id : Nat) (s : State) : Out :=
  if !releaseFlag s id then .next s else
  hostCmd s id 0x30 fun s c =>
    match s.eph.ctxs.get? (c.fld 16 1) with
    | none => complete s c stInvalid 0 0 0
    | some x =>
      if x.state == .idle && x.suspended.isNone && x.members.isEmpty && x.joins.isEmpty then
        complete (s.ephM fun e => { e with ctxs := e.ctxs.erase (c.fld 16 1) }) c stOk 0 0 0
      else complete s c stBusy 0 0 0

/-- BATCH_JOIN at acceptance (10 R392, 08 R291): the session is pinned; the pin on its charm's replica stands since acceptance (08 R318). -/
def joinStart (s : State) (c : HCmd) (h : Nat) (l : Locket) : State :=
  let n := c.fld 16 1
  match s.eph.ctxs.get? n with
  | none => complete s c stInvalid 0 0 0
  | some x =>
    if l.state == .bound || joinPending s h then complete s c stBusy 0 (locketCode l.state) 0 else
    let s := takePin s h c.id
    match s.lockets.get? h with
    | none => s
    | some l =>
      if l.state != .opened then stateRefuse s c l
      else if l.slot != x.slot then complete s c stInvalid 0 0 0
      else
        lowater (s.ctxM n fun x => { x with joins := x.joins ++ [{ id := h, cmd := c.id, since := c.accept }] })

/-- BATCH_JOIN (10 R392). -/
def execBatchJoin (id : Nat) (s : State) : Out := sessionCmd s id 0x31 joinStart

/-- BATCH_LEAVE (10 R392; 08 R290, R291): a pending join is withdrawn; a member leaves at the next boundary. -/
def leaveStart (s : State) (c : HCmd) (h : Nat) (l : Locket) : State :=
  let n := c.fld 16 1
  match s.eph.ctxs.get? n with
  | none => complete s c stInvalid 0 0 0
  | some x =>
    if x.joins.any (fun j => j.id == h) then complete (withdrawJoin s h stCancelled) c stOk 0 0 0
    else if l.state == .bound && l.context == n then s.ctxM n fun x => { x with leaves := x.leaves ++ [{ id := h, cmd := c.id }] }
    else if l.state == .bound then complete s c stInvalid 0 (locketCode l.state) 0
    else stateRefuse s c l

/-- BATCH_LEAVE (10 R392). -/
def execBatchLeave (id : Nat) (s : State) : Out := sessionCmd s id 0x32 leaveStart

/-! ## Slots (10 R379, R391, R393, R398, R399) -/

/-- The Ephemeris runs frames. -/
def ephOk (s : State) : Bool := s.eph.enable && s.eph.running && serving s && !s.lan.stopped && s.lan.refclk

/-- The work that opens a BATCH slot: a suspended step of its context first, otherwise the start boundary and the first step (10 Table 10-7, R399). -/
def beginSlot (s : State) : State :=
  match slotCtx s with
  | none => s.ephM fun e => { e with begun := true }
  | some c =>
    let s := (s.ephM fun e => { e with begun := true }).ctxM c fun x => { x with started := 0 }
    match s.eph.ctxs.get? c with
    | none => s
    | some x =>
      if x.suspended.isSome then (resumeStep s c).ctxM c fun x => { x with started := 1 }
      else
        let s := boundary s c
        if freezeOk s then startStep s c else s

/-- A slot starts: the counts of its urgent pre-emptions are 0, and the work of a BATCH slot begins where the Orrery is free (10 R379). -/
def openSlot (s : State) (k : Nat) (start : Tick) : State :=
  let s := s.ephM fun e => { e with slot := k, slotStart := start, slotDue := false, begun := false, leadPassed := false, urgentCount := 0, urgentUsed := 0
                                    candidate := none }
  if s.eph.holder == .none then beginSlot s else s

/-- The pending switch is to be tried at the meridian that has passed (10 R385). -/
def switchAtMeridian (s : State) : Bool :=
  match s.eph.switch with
  | none => false
  | some w => s.eph.slotDue && s.eph.active.isSome &&
      (if w.atFrame = 0 then w.accepted + 10000 ≤ s.eph.meridian else w.atFrame ≤ s.eph.frame)

/-- The slot that starts next and its first tick, where it has come. -/
def slotStarting (s : State) : Option (Nat × Tick) :=
  match s.eph.active with
  | none => none
  | some t =>
    let k := if s.eph.slotDue then 0 else s.eph.slot + 1
    match t.slots[k]? with
    | none => none
    | some e => if due s (s.eph.meridian + e.start) && !switchAtMeridian s then some (k, s.eph.meridian + e.start) else none

/-- SLOT_START (10 R379). -/
def execSlotStart (s : State) : Out :=
  match (if ephOk s then slotStarting s else none) with
  | none => .next s
  | some (k, t) => .next (openSlot s k t)

/-- The admitted step of the present slot that has not sealed becomes OVERRUN at the lead point (10 R398). -/
def overrunStep (s : State) (c : Nat) : State :=
  (ephEvent (s.ctxM c fun x => { x with state := .overrun }) 1).ephM fun e => { e with overruns := wrapInc 32 e.overruns }

/-- A step of another context that holds the Orrery in background time is suspended again. -/
def strayOverrun (s : State) : State :=
  match s.eph.holder with
  | .step c => if slotCtx s != some c && ((ctxStep s c).map (·.sealedAt.isNone)).getD false then s.ctxM c fun x => { x with state := .overrun } else s
  | _ => s

/-- The holder still has a cheap point ahead: it is a job, or a step that has not sealed (10 R398, R401). -/
def holderUnsealed (s : State) : Bool :=
  match s.eph.holder with
  | .none => false
  | .job _ => true
  | .step c => ((ctxStep s c).map (·.sealedAt.isNone)).getD false

/-- LEAD_POINT (10 R398). -/
def execLeadPoint (s : State) : Out :=
  match s.eph.active, slotNow s with
  | some t, some _ =>
    when (ephOk s && !s.eph.leadPassed && due s (slotEnd s - leadOf t)) s (
      let s := s.ephM fun e => { e with leadPassed := true }
      let s := if holderUnsealed s then requestPreempt s else s
      let s := strayOverrun s
      match slotCtx s with
      | none => s
      | some c =>
        match s.eph.ctxs.get? c with
        | some x => if x.state == .stepping && x.started != 0 && (x.step.map (·.sealedAt.isNone)).getD false then overrunStep s c else s
        | none => s)
  | _, _ => .next s

/-! ## Work of the Orrery (10 R400 to R408) -/

/-- JOB_DISPATCH (10 R407): also the first work of a BATCH slot that found the Orrery taken. -/
def execJobDispatch (s : State) : Out :=
  when (s.eph.holder == .none && s.ory.prog.isNone && s.ory.mode == .idle && issueOk s && s.integ.mode == .normal) s (
    let s := trimArea s
    if !s.eph.begun && (slotCtx s).isSome && !s.eph.leadPassed && ephOk s then beginSlot s else dispatch s)

/-- URGENT_ALLOWANCE (10 R402). -/
def execUrgentAllowance (s : State) : Out :=
  match s.eph.holder, s.eph.active, s.eph.chargeFrom with
  | .job id, some t, some t0 =>
    match findJob s id with
    | none => .next s
    | some j => when (j.urgent && !s.ory.preempt && due s (t0 + (j.wJob - leadOf t))) s (requestPreempt s)
  | _, _, _ => .next s

/-- BUDGET_RETURN (10 R405): the charges whose tick has come are returned. -/
def execBudgetReturn (s : State) : Out :=
  when (s.eph.charges.any (fun c => due s c.due)) s (s.ephM fun e => { e with charges := e.charges.filter (fun c => !due s c.due) })

/-! ## Accounting (10 R414) -/

/-- ACCOUNT_READ (10 R414). -/
def execAccountRead (id : Nat) (s : State) : Out :=
  hostCmd s id 0x61 fun s c =>
    let first := c.fld 16 2
    let n := c.fld 18 2
    if n == 0 || 1024 < first + n || !addrOk (c.fld 24 8) || (c.tenant != 0 && (first != c.tenant || 1 < n || c.flag 4)) then complete s c stInvalid 0 0 0
    else
      let ts := (List.range n).map (· + first)
      let data := (ts.map (accountBytes s)).flatten
      let s := if c.flag 4 then s.ephM fun e => { e with accounts := ts.foldl (fun a t => a.set t { since := s.now }) e.accounts } else s
      submitPut s c (c.fld 24 8) data stOk n 0

end Sys2Proof.Machine
end

