-- ==== Sys2Proof/Machine/Search.lean ====
section
/-!
DEFINITION. Sys2Proof/Machine/Search.lean: collections, their items, generations and merges, SEARCH walks and scores, and SELECT (12 R441 to R476).
-/
namespace Sys2Proof.Machine

/-! ## Collections -/

/-- The state with one collection changed. -/
def State.collM (s : State) (ci : Nat) (f : Coll → Coll) : State := { s with colls := s.colls.upd ci f }

/-- The collection of a handle in a tenant's namespace (12 R441). -/
def findColl (s : State) (t h : Nat) : Option (Nat × Coll) := s.colls.find? (fun e => e.2.handle == h && e.2.tenant == t)

/-- A command still holds the generation its SEARCH was accepted on (12 R453). -/
def holding (s : State) (id : Nat) : Bool := (findCmd s id).isSome && !completed s id

/-- A generation that is not current is held by some SEARCH (12 R454). -/
def olderHeld (s : State) (k : Coll) : Bool := (k.gens.drop 1).any (fun g => g.holders.any (holding s))

/-- Generations that are no longer current and that no SEARCH holds are released with the indices of the items they omitted (12 R458). -/
def reapColl (s : State) (ci : Nat) : State :=
  s.collM ci fun k =>
    let gone := (k.gens.drop 1).filter (fun g => !g.holders.any (holding s))
    let free := (gone.map (·.omitted)).flatten
    { k with gens := (k.gens.take 1).map (fun g => { g with holders := g.holders.filter (holding s) }) ++
                       (k.gens.drop 1).filter (fun g => g.holders.any (holding s))
             items := k.items.filter (fun e => !free.contains e.1) }

/-- A reset of the Sieve units that a SEARCH or a merge holds. -/
def freeUnits (s : State) (p : SivUse → Bool) : State :=
  { s with sieves := s.sieves.map fun u => if (u.use_.map p).getD false then { u with use_ := none, mode := 0 } else u }

/-- A SEARCH ends: its walks leave the Sieve units and its scoring job is removed. -/
def dropSearch (s : State) (id : Nat) : State :=
  let s := dropJobs s (fun j => j.cls == .search && j.target == id)
  let s := freeUnits s (fun u => match u with | .walk c _ _ => c == id | _ => false)
  { s with searches := s.searches.filter (fun q => q.cmd != id) }

/-- A SELECT ends: its staging pages return, and its fetch and its job are removed. -/
def dropSelect (s : State) (id : Nat) : State :=
  let s := abandonFor (dropJobs s (fun j => j.cls == .select && j.target == id)) (fun p => p == .select id)
  match s.selects.find? (fun q => q.cmd == id) with
  | none => s
  | some q => { returnKeys s q.frames with selects := s.selects.filter (fun q => q.cmd != id) }

/-- The merge job of a collection is removed and its Sieve unit is free. -/
def dropMergeJob (s : State) (ci : Nat) : State :=
  freeUnits (dropJobs s (fun j => j.cls == .merge && j.target == ci)) (fun u => u == .merge ci)

/-- A merge is abandoned without publishing. -/
def abandonMerge (s : State) (ci : Nat) : State := (dropMergeJob s ci).collM ci fun k => { k with merge := none, state := if k.state == .broken then .broken else .ready }

/-- A merge in progress is abandoned and becomes pending again (12 R476). -/
def repend (s : State) (ci : Nat) : State :=
  (dropMergeJob s ci).collM ci fun k =>
    { k with merge := k.merge.map (fun m => { cmd := m.cmd, since := m.since }), state := if k.state == .merging then .ready else k.state }

/-- A command meets tarnish of this chapter: the consumer is counted and recorded under row 11 of 13 Table 13-3. -/
def consumeColl (s : State) (station object : Nat) : State :=
  logFault (s.integM fun i => { i with tarnishConsumed := wrapInc 32 i.tarnishConsumed }) 0x03 station 0xFF 0 object 11

/-- A Sieve event bit. -/
def sivEvent (s : State) (u b : Nat) : State := { s with sieves := s.sieves.modify u fun v => { v with event := v.event ||| 2 ^ b } }

/-- The structure of a collection is tarnished: it is BROKEN, its SEARCHes end and its merge is abandoned (12 Table 12-4, R475). -/
def breakColl (s : State) (ci u : Nat) : State :=
  let qs := s.searches.filter (fun q => q.coll == ci)
  let m := (s.colls.get? ci).bind (fun k => k.merge.bind (·.cmd))
  let s := qs.foldl (fun s q => completeId (consumeColl (dropSearch s q.cmd) 0xB8 0) q.cmd stTarnished 0 0 0) s
  let s := match m with | some id => completeId s id stTarnished 0 0 0 | none => s
  (sivEvent (abandonMerge s ci) u 3).collM ci fun k => { k with state := .broken }

/-- The descriptor, the current generation's lists or the side list of a collection is tarnished. -/
def structTarnished (s : State) (k : Coll) : Bool :=
  let g := curGen k
  collTarnished s k (descOff k) 65536 || g.lists.keys.any (fun n => collTarnished s k (adjOff k (genArea g) n) (4 * k.degree)) ||
  (List.range (k.side.length - g.sideStart)).any (fun p => collTarnished s k (sideOff k (g.sideStart + p)) 4)

/-- The frame of the commands on a collection other than DESTROY: the handle, the released generations, and BROKEN (12 Table 12-4). -/
def collCmd (s : State) (c : HCmd) (f : State → Nat → Coll → State) : State :=
  match findColl s c.tenant c.handle with
  | none => complete s c stUnknown 0 0 0
  | some (ci, k) =>
    let s := if k.state != .broken && structTarnished s k then breakColl s ci 0 else reapColl s ci
    match s.colls.get? ci with
    | none => s
    | some k => if k.state == .broken then complete (consumeColl s 0xC1 0) c stTarnished 0 0 0 else f s ci k

/-- Parameters of COLLECTION_CREATE (15 Table 15-8). -/
def createParams (c : HCmd) : Coll :=
  { tenant := c.tenant, handle := c.handle, metric := c.fld 16 1, vecFmt := c.fld 17 1, dim := c.fld 18 2, sketchBits := c.fld 20 2, degree := c.fld 22 1
    capacity := c.fld 24 4, sideMax := c.fld 28 4, mergeAt := c.fld 32 4, efBuild := c.fld 36 2 }

/-- Every parameter is within 12 Table 12-1. -/
def paramsOk (k : Coll) : Bool :=
  k.metric ≤ 3 && (if k.metric = 0 then k.vecFmt == 0 && k.dim == 0
    else (k.vecFmt == 1 || k.vecFmt == 5 || k.vecFmt == 6 || k.vecFmt == 8) && 32 ≤ k.dim && k.dim ≤ 8192 && k.dim % 32 == 0) &&
  256 ≤ k.sketchBits && k.sketchBits ≤ 4096 && k.sketchBits % 256 == 0 && 8 ≤ k.degree && k.degree ≤ 64 && k.degree % 8 == 0 &&
  1 ≤ k.capacity && k.capacity ≤ 2 ^ 28 && 64 ≤ k.sideMax && k.sideMax ≤ 2 ^ 20 && k.sideMax == 2 ^ k.sideMax.log2 && k.mergeAt ≤ k.sideMax &&
  k.degree ≤ k.efBuild && k.efBuild ≤ 1024

/-- The flag DESTROY of a COLLECTION_CREATE. -/
def destroyFlag (s : State) (id : Nat) : Bool := ((findCmd s id).map (·.flag 4)).getD false

/-- The end of COLLECTION_CREATE: with its pages the collection stands, without them there is no room (12 R444). -/
def createWith (c : HCmd) (k : Coll) (ci : Nat) (s : State) : Option (List Nat) → State
  | none => complete s c stNoRoom 0 0 0
  | some fs => complete { s with colls := s.colls.set ci { k with frames := fs } } c stOk (collPages k) 0 0

/-- COLLECTION_CREATE without DESTROY: the checks of 12 Table 12-2 (R444). -/
def createColl (s : State) (c : HCmd) : State :=
  let k := createParams c
  if c.handle = 0 || (findColl s c.tenant c.handle).isSome || !paramsOk k then complete s c stInvalid 0 0 0
  else match s.colls.freshFrom 256 0 with
    | none => complete s c stNoRoom 0 0 0
    | some ci =>
      let q := takeSpread s (collPages k) (.collection ci)
      createWith c k ci q.1 q.2

/-- COLLECTION_CREATE (12 R444). -/
def execCollectionCreate (id : Nat) (s : State) : Out := if destroyFlag s id then .next s else hostCmd s id 0x44 createColl

/-- COLLECTION_DESTROY (12 R446): the collection is freed unless a SEARCH holds a generation of it. -/
def execCollectionDestroy (id : Nat) (s : State) : Out :=
  if !destroyFlag s id then .next s else
  hostCmd s id 0x44 fun s c =>
    if !zeroAt c.desc 16 48 then complete s c stInvalid 0 0 0 else
    match findColl s c.tenant c.handle with
    | none => complete s c stUnknown 0 0 0
    | some (ci, k) =>
      if k.gens.any (fun g => g.holders.any (holding s)) then complete s c stBusy 0 0 0
      else
        let s := match k.merge.bind (·.cmd) with | some m => completeId s m stCancelled 0 0 0 | none => s
        let s := abandonMerge s ci
        complete { returnSpread s k.frames with colls := s.colls.erase ci } c stOk 0 0 0

/-! ## Scores (12 Table 12-8) -/

/-- The vector format of a collection (12 Table 12-1). -/
def collFmt (k : Coll) : Fmt := (fmtOf k.vecFmt).getD .bf16

/-- The Hamming distance of two sketches. -/
def hamming (a b : List Byte) : Nat := (a.zip b).foldl (fun n e => n + popCount 8 (e.1 ^^^ e.2).toNat) 0

/-- −dist as an FP32 number; a distance of 0 gives +0 (log 28). -/
def negDist (d : Nat) : W32 := if d = 0 then 0#32 else fneg (f32OfNat d)

/-- NORM of a vector (12 R450). -/
def normOf (k : Coll) (v : List Byte) : W32 :=
  if k.metric = 2 then frsqrt (dotPacked (collFmt k) v v k.dim) else if k.metric = 3 then dotPacked (collFmt k) v v k.dim else 0#32

/-- The score of an item against a query vector whose own product is qq (12 Table 12-8). -/
def vecScore (k : Coll) (query : List Byte) (qq : W32) (i : Item) : W32 :=
  let dot := dotPacked (collFmt k) query i.vector k.dim
  if k.metric = 1 then dot
  else if k.metric = 2 then fmul (fmul dot (frsqrt qq)) i.norm
  else fneg (fsub (fadd i.norm qq) (fmul 0x40000000#32 dot))

/-- The score of an item against a query block's sketch and vector. -/
def scoreOf (k : Coll) (sketch query : List Byte) (qq : W32) (i : Item) : W32 :=
  if k.metric = 0 then negDist (hamming sketch i.sketch) else vecScore k query qq i

/-- The dot product of a query with itself; +0 under HAMMING. -/
def selfDot (k : Coll) (query : List Byte) : W32 := if k.metric = 0 then 0#32 else dotPacked (collFmt k) query query k.dim

/-- One scored item ranks before another: higher score, ties to the lower index (12 R464). -/
def before (a b : Nat × W32) : Bool := rankLt b.2 a.2 || (!rankLt a.2 b.2 && a.1 ≤ b.1)

/-- The exact score of an item from an owner node, whose stored vector stands in the place of the query (12 R455). -/
def exactScore (k : Coll) (owner : Item) (i : Item) : W32 := scoreOf k owner.sketch owner.vector (selfDot k owner.vector) i

/-- The n best of a list of nodes by exact score from an owner. -/
def bestOf (k : Coll) (owner n : Nat) (xs : List Nat) : List Nat :=
  match k.items.get? owner with
  | none => []
  | some o => (((sortBy before (xs.filterMap (fun x => (k.items.get? x).map (fun i => (x, exactScore k o i))))).map (·.1)).take n)

/-! ## Walks (12 R461) -/

/-- What a walk reads: the distance of an item, whether it passes, the list of a node, and what of it is tarnished. -/
structure WalkEnv where
  dist : Nat → Nat
  pass : Nat → Bool
  nbrs : Nat → List Nat
  badItem : Nat → Bool
  badList : Nat → Bool

/-- The variables of a walk: its pools as (distance, item), the items seen, its expansions and compares, and the tarnish it met first. -/
structure WalkSt where
  c : List (Nat × Nat) := []
  res : List (Nat × Nat) := []
  seen : List Nat := []
  visits : Nat := 0
  compares : Nat := 0
  tarnItem : Option Nat := none
  broken : Bool := false
deriving DecidableEq, Repr

/-- The order of the pools: ascending distance, ties to the lower index. -/
def nearer (a b : Nat × Nat) : Bool := a.1 < b.1 || (a.1 == b.1 && a.2 ≤ b.2)

/-- An item enters a pool of at most n. -/
def poolAdd (n : Nat) (p : List (Nat × Nat)) (x : Nat × Nat) : List (Nat × Nat) := (insertBy nearer x p).take n

/-- push(x). -/
def walkPush (e : WalkEnv) (ef : Nat) (w : WalkSt) (x : Nat) : WalkSt :=
  if w.seen.contains x then w else
  let d := e.dist x
  { w with seen := x :: w.seen, compares := w.compares + 1, c := poolAdd ef w.c (d, x), res := if e.pass x then poolAdd ef w.res (d, x) else w.res
           tarnItem := if w.tarnItem.isNone && e.badItem x then some x else w.tarnItem }

/-- The loop over C, with the expansions that VISIT_MAX still allows. -/
def walkLoop (e : WalkEnv) (ef : Nat) : Nat → WalkSt → WalkSt
  | 0, w => w
  | fuel + 1, w =>
    match w.c with
    | [] => w
    | c :: rest =>
      if w.res.length = ef && ((w.res.getLast?.map (·.1)).getD 0) < c.1 then { w with c := rest }
      else
        let w := { w with c := rest, visits := w.visits + 1, broken := w.broken || e.badList c.2 }
        walkLoop e ef fuel ((e.nbrs c.2).foldl (walkPush e ef) w)

/-- One side-list item is scanned. -/
def walkScan (e : WalkEnv) (ef : Nat) (w : WalkSt) (x : Nat) : WalkSt :=
  { w with compares := w.compares + 1, res := if e.pass x then poolAdd ef w.res (e.dist x, x) else w.res
           tarnItem := if w.tarnItem.isNone && e.badItem x then some x else w.tarnItem }

/-- The walk from an entry node over the graph, then over its part of the side list. -/
def walkRun (e : WalkEnv) (ef visitMax entry : Nat) (side : List Nat) : WalkSt :=
  let w := walkLoop e ef visitMax (if entry = 0xFFFFFFFF then {} else walkPush e ef {} entry)
  side.foldl (walkScan e ef) w

/-- An item passes a SEARCH: it is visible at the horizon and passes the filter (12 R452, R461). -/
def searchPass (q : Search) (i : Item) : Bool :=
  i.insCsn ≤ q.horizon && q.horizon < i.delCsn && (!q.filter || (i.tags &&& fieldAt q.query 0 8) == fieldAt q.query 8 8)

/-- Sketch of a query block. -/
def querySketch (k : Coll) (b : List Byte) : List Byte := bytesAt b 64 (sketchBytes k)

/-- Vector of a query block (12 Table 12-5). -/
def queryVector (k : Coll) (b : List Byte) : List Byte := bytesAt b (64 + ceilDiv (sketchBytes k) 64 * 64) (vecBytes k)

/-- The generation that a SEARCH holds. -/
def searchGen (k : Coll) (q : Search) : Gen := (k.gens.find? (fun g => g.number == q.gen)).getD {}

/-- Walk p of a SEARCH. -/
def searchWalk (s : State) (k : Coll) (q : Search) (p : Nat) : WalkSt :=
  let g := searchGen k q
  let sk := querySketch k q.query
  let e : WalkEnv :=
    { dist := fun x => hamming sk ((k.items.get? x).map (·.sketch)).toList.flatten
      pass := fun x => ((k.items.get? x).map (searchPass q)).getD false
      nbrs := fun x => g.lists.getD x []
      badItem := fun x => itemTarnished s k x false
      badList := fun x => collTarnished s k (adjOff k (genArea g) x) (4 * k.degree) }
  let mine := (List.range (q.tail - g.sideStart)).filter (fun j => j % q.spread == p)
  let w := walkRun e q.ef q.visitMax (g.entry.getD p 0xFFFFFFFF) (mine.map (fun j => k.side.getD (g.sideStart + j) 0))
  { w with broken := w.broken || mine.any (fun j => collTarnished s k (sideOff k (g.sideStart + j)) 4) }

/-! ## Items (12 R447 to R452) -/

/-- Codewords of T1 that a run of a collection's pages covers. -/
def collWords (s : State) (k : Coll) (o n : Nat) : List Nat :=
  ((pagesOf o n).map (fun v =>
    match pageAddr s k.frames v with
    | some a =>
      let lo := a + (max o (v * 65536) - v * 65536)
      let hi := a + (min (o + n) (v * 65536 + 65536) - v * 65536)
      (List.range ((hi - 1) / 16 + 1 - lo / 16)).map (· + lo / 16)
    | none => [])).flatten

/-- Where the poisoned 16-byte blocks of an item block stand in the collection's arrays: KEY and TAGS, the sketch, the vector (13 R488). -/
def poisonRun (k : Coll) (i b : Nat) : Option (Nat × Nat) :=
  let v := 64 + ceilDiv (sketchBytes k) 64 * 64
  if b = 0 then some (recOff k i + 8, 16)
  else if 4 ≤ b && 16 * b < 64 + sketchBytes k then some (sketchOff k i + (16 * b - 64), 16)
  else if v ≤ 16 * b && 16 * b < v + vecBytes k then some (vecOff k i + (16 * b - v), 16)
  else none

/-- Poisoned blocks of 16 bytes count as zero bytes (13 R490). -/
def blankPoison (poison : List Nat) (b : List Byte) : List Byte := b.zipIdx.map (fun e => if poison.contains (e.2 / 16) then 0#8 else e.1)

/-- A merge becomes pending where the side list has reached MERGE_AT positions (12 R454). -/
def mergeDue (s : State) (k : Coll) : Coll :=
  if k.mergeAt != 0 && k.merge.isNone && k.mergeAt ≤ k.side.length - (curGen k).sideStart then { k with merge := some { since := s.now } } else k

/-- ITEM_INSERT commits (12 R449). -/
def insertItem (block : List Byte) (poison : List Nat) (s : State) (c : HCmd) (ci : Nat) (k : Coll) : State :=
  let b := blankPoison poison block
  if !addrOk (c.fld 16 8) || !zeroAt b 16 48 then complete s c stInvalid 0 0 0
  else match k.items.freshFrom k.capacity 0 with
    | none => complete s c stNoRoom 0 0 0
    | some i =>
      if k.sideMax ≤ k.side.length - (curGen k).sideStart then complete s c stBusy 0 0 0
      else
        let csn := k.lastCsn + 1
        let v := queryVector k b
        let item : Item := { insCsn := csn, key := fieldAt b 0 8, tags := fieldAt b 8 8, norm := normOf k v, sketch := querySketch k b, vector := padTo (vecPad k) v }
        let s := s.collM ci fun k => mergeDue s { k with lastCsn := csn, items := k.items.set i item, side := k.side ++ [i] }
        let fresh := collWords s k (recOff k i) 32 ++ collWords s k (sketchOff k i) (sketchBytes k) ++ collWords s k (vecOff k i) (vecPad k)
        let s := s.integM fun g => { g with tarnishT1 := g.tarnishT1.filter (fun w => !fresh.contains w) }
        let words := ((poison.filterMap (poisonRun k i)).map (fun r => collWords s k r.1 r.2)).flatten
        complete (tarnishLines s 0xC2 4 words) c stOk i csn 0

/-- ITEM_INSERT (12 R449). -/
def execItemInsert (id : Nat) (block : List Byte) (poison : List Nat) (s : State) : Out :=
  hostCmd s id 0x41 fun s c => collCmd s c (fun s ci k => insertItem block poison (hostFetch s (c.fld 16 8) (64 + ceilDiv (sketchBytes k) 64 * 64 + vecBytes k)) c ci k)

/-- ITEM_DELETE (12 R451). -/
def execItemDelete (id : Nat) (s : State) : Out :=
  hostCmd s id 0x42 fun s c => collCmd s c fun s ci k =>
    let i := c.fld 16 4
    match k.items.get? i with
    | none => complete s c stInvalid 0 0 0
    | some x =>
      if x.delCsn != 0xFFFFFFFFFFFFFFFF then complete s c stInvalid 0 0 0
      else
        let csn := k.lastCsn + 1
        complete (s.collM ci fun k => { k with lastCsn := csn, items := k.items.upd i (fun x => { x with delCsn := csn }) }) c stOk i csn 0

/-! ## Merges (12 R454 to R457) -/

/-- The items that a merge to horizon M omits, and the merged items that it adds, both in ascending index (12 R455 step 1). -/
def mergeSets (k : Coll) (m upTo : Nat) : List Nat × List Nat :=
  let g := curGen k
  let merged := (k.side.take upTo).drop g.sideStart
  let dead := fun i => ((k.items.get? i).map (fun x => decide (x.delCsn ≤ m))).getD false
  let all := sortBy (fun a b => a ≤ b) (g.lists.keys ++ merged)
  (all.filter dead, (sortBy (fun a b => a ≤ b) merged).filter (fun i => !dead i))

/-- A merge has nothing to merge and nothing to omit (12 R457). -/
def mergeIdle (k : Coll) : Bool :=
  (k.side.length = (curGen k).sideStart) && (mergeSets k k.lastCsn k.side.length).1.isEmpty

/-- The walk of one merged item over the graph built so far (12 R455 step 3). -/
def mergeWalk (k : Coll) (lists : Tab (List Nat)) (x : Item) : List Nat :=
  let e : WalkEnv :=
    { dist := fun y => hamming x.sketch ((k.items.get? y).map (·.sketch)).toList.flatten, pass := fun _ => true, nbrs := fun y => lists.getD y []
      badItem := fun _ => false, badList := fun _ => false }
  ((walkRun e k.efBuild k.efBuild ((lists.head?.map (·.1)).getD 0xFFFFFFFF) []).res.map (·.2))

/-- One merged item joins the graph: its own list, then the lists of its neighbours (12 R455 step 3). -/
def mergeAdd (k : Coll) (lists : Tab (List Nat)) (x : Nat) : Tab (List Nat) :=
  match k.items.get? x with
  | none => lists
  | some i =>
    let l := bestOf k x k.degree (mergeWalk k lists i)
    l.foldl (fun t y => t.upd y (fun ys => bestOf k y k.degree (x :: ys))) (lists.set x l)

/-- One node is refilled from the best of its neighbours' neighbours (12 R455 step 4). -/
def mergeRefill (k : Coll) (lists : Tab (List Nat)) (y : Nat) : Tab (List Nat) :=
  let l := lists.getD y []
  if k.degree ≤ 2 * l.length then lists else
  let nn := (((l.map (fun z => lists.getD z [])).flatten).eraseDups).filter (fun z => z != y && !l.contains z)
  lists.set y (bestOf k y k.degree (l ++ bestOf k y (k.degree - l.length) nn))

/-- Generation g + 1 (12 R455). -/
def buildGen (k : Coll) (m upTo : Nat) : Gen :=
  let g := curGen k
  let sets := mergeSets k m upTo
  let kept : Tab (List Nat) := (g.lists.filter (fun e => !sets.1.contains e.1)).map (fun e => (e.1, e.2.filter (fun x => !sets.1.contains x)))
  let lost := (g.lists.filter (fun e => !sets.1.contains e.1 && e.2.any sets.1.contains)).map (·.1)
  let lists := lost.foldl (mergeRefill k) (sets.2.foldl (mergeAdd k) kept)
  let nodes := lists.map (·.1)
  { number := g.number + 1, lists := lists, sideStart := upTo
    entry := (List.range 8).map (fun p => if nodes.isEmpty then 0xFFFFFFFF else nodes.getD (p * nodes.length / 8) 0xFFFFFFFF) }

/-- Merge steps of a merge: up to 64 nodes of one construction step each (12 R456; log 29). -/
def mergeSteps (k : Coll) (m upTo : Nat) : Nat :=
  let g := curGen k
  let sets := mergeSets k m upTo
  let lost := (g.lists.filter (fun e => !sets.1.contains e.1 && e.2.any sets.1.contains)).length
  ceilDiv (g.lists.filter (fun e => !sets.1.contains e.1)).length 64 + ceilDiv sets.2.length 64 + ceilDiv lost 64 + 1

/-- COLLECTION_MERGE (12 R454, R457). -/
def execCollectionMerge (id : Nat) (s : State) : Out :=
  hostCmd s id 0x43 fun s c => collCmd s c fun s ci k =>
    if k.merge.isSome then complete s c stBusy 0 0 0
    else if mergeIdle k then complete s c stOk (curGen k).number 0 0
    else s.collM ci fun k => { k with merge := some { cmd := some c.id, since := s.now } }

/-- MERGE_START (12 R454): M is fixed. -/
def execMergeStart (coll : Nat) (s : State) : Out :=
  match s.colls.get? coll with
  | none => .next s
  | some k =>
    match k.merge with
    | none => .next s
    | some m =>
      when (k.state == .ready && m.horizon.isNone && !olderHeld s k && serving s) s (
        let s := reapColl s coll
        if mergeIdle k then
          let s := s.collM coll fun k => { k with merge := none }
          match m.cmd with | some id => completeId s id stOk (curGen k).number 0 0 | none => s
        else s.collM coll fun k =>
          { k with state := .merging
                   merge := some { m with horizon := some k.lastCsn, upTo := k.side.length, stepsLeft := mergeSteps k k.lastCsn k.side.length } })

/-- MERGE_PUBLISH (12 R455 step 6, R457): generation g + 1 is current. -/
def execMergePublish (coll : Nat) (s : State) : Out :=
  match s.colls.get? coll with
  | none => .next s
  | some k =>
    match k.merge with
    | none => .next s
    | some m =>
      match m.horizon with
      | none => .next s
      | some h =>
        when (m.stepsLeft = 0 && serving s) s (
          let sets := mergeSets k h m.upTo
          let g := buildGen k h m.upTo
          let s := s.collM coll fun k =>
            mergeDue s { k with gens := g :: (k.gens.take 1).map (fun o => { o with omitted := sets.1 }) ++ k.gens.drop 1, state := .ready, merge := none }
          let s := reapColl s coll
          match m.cmd with | some id => completeId s id stOk g.number sets.2.length 0 | none => s)

/-- The first live item of a merge whose record, sketch or vector is tarnished (12 R475). -/
def mergeTarnish (s : State) (k : Coll) (m : Merge) : Option Nat :=
  let sets := mergeSets k (m.horizon.getD 0) m.upTo
  (((curGen k).lists.keys.filter (fun i => !sets.1.contains i)) ++ sets.2).find? (fun i => itemTarnished s k i true)

/-- One merge step has ended: its Sieve unit is free; a tarnished live item abandons the merge, tarnish in the structure breaks the collection. -/
def endMergeStep (s : State) (ci : Nat) : State :=
  match s.colls.get? ci with
  | none => s
  | some k =>
    match k.merge with
    | none => s
    | some m =>
      let u := m.unit.getD 0
      let s := freeUnits s (fun v => v == .merge ci)
      if structTarnished s k then breakColl s ci u
      else match mergeTarnish s k m with
        | some i =>
          let s := sivEvent (consumeColl (abandonMerge s ci) (0xB8 + u) 0) u 2
          match m.cmd with | some id => completeId s id stTarnished 0 i 0 | none => s
        | none => s.collM ci fun k => { k with merge := some { m with stepsLeft := m.stepsLeft - 1, unit := none } }

/-! ## SEARCH (12 R459 to R468) -/

/-- Checks 1 of 12 Table 12-7; RERANK is ignored under HAMMING. -/
def searchOk (s : State) (c : HCmd) : Bool :=
  let k := c.fld 16 2
  let ef := c.fld 18 2
  let rr := c.fld 20 2
  let ham := ((findColl s c.tenant c.handle).map (fun e => e.2.metric == 0)).getD false
  1 ≤ k && k ≤ 1024 && k ≤ ef && ef ≤ 1024 && (ham || (k ≤ rr && rr ≤ ef)) && 1 ≤ c.fld 22 1 && c.fld 22 1 ≤ 8 && c.fld 23 1 < 2 &&
  1 ≤ c.fld 24 4 && c.fld 24 4 ≤ 65536 && addrOk (c.fld 32 8) && addrOk (c.fld 40 8)

/-- A SEARCH is accepted: H, g and the side-list tail are fixed and the walks are queued (12 R452, R453, R460). -/
def startSearch (query : List Byte) (s : State) (c : HCmd) (ci : Nat) (k : Coll) : State :=
  let q : Search :=
    { cmd := c.id, coll := ci, tenant := c.tenant, k := c.fld 16 2, ef := c.fld 18 2, rerank := c.fld 20 2, spread := c.fld 22 1, visitMax := c.fld 24 4
      filter := bitAt (c.fld 23 1) 0, resultAddr := c.fld 40 8, horizon := k.lastCsn, gen := (curGen k).number, tail := k.side.length, query := query
      queued := List.range (c.fld 22 1), seq := c.id }
  { s.collM ci (fun k => { k with gens := (k.gens.take 1).map (fun g => { g with holders := g.holders ++ [c.id] }) ++ k.gens.drop 1 }) with searches := s.searches ++ [q] }

/-- SEARCH (12 R460). -/
def execSearch (id : Nat) (query : List Byte) (poison : List Nat) (s : State) : Out :=
  hostCmd s id 0x40 fun s c =>
    if !searchOk s c then complete s c stInvalid 0 0 0 else
    collCmd s c fun s ci k =>
      let b := padTo (64 + ceilDiv (sketchBytes k) 64 * 64 + vecBytes k) query
      let s := hostFetch s (c.fld 32 8) b.length
      if !poison.isEmpty then complete (consumeColl s 0xC2 0) c stTarnished 0 0 0
      else if !zeroAt b 16 48 then complete s c stInvalid 0 0 0
      else startSearch b s c ci k

/-- The first queued walk in order of acceptance (12 R462). -/
def nextWalk (s : State) : Option (Search × Nat) := s.searches.findSome? (fun q => q.queued.head?.map (fun p => (q, p)))

/-- WALK_START (12 R462): a free Sieve unit takes the first queued walk. -/
def execWalkStart (unit : Nat) (s : State) : Out :=
  formed (decide (unit < 8)) (
  match nextWalk s with
  | none => .next s
  | some (q, p) =>
    when ((s.sieves.getD unit {}).enable && (s.sieves.getD unit {}).use_.isNone && serving s) s
      { s with sieves := s.sieves.modify unit fun u => { u with use_ := some (.walk q.cmd p s.now), coll := q.coll, mode := 1 }
               searches := s.searches.map fun r => if r.cmd == q.cmd then { r with queued := r.queued.drop 1, unit0 := if p = 0 then unit else r.unit0 } else r })

/-- The survivors of a SEARCH's walks, every item once, ranked by score (12 R464). -/
def searchRank (k : Coll) (q : Search) : List (Nat × W32) :=
  let items := ((q.results.vals.map (·.survivors)).flatten).eraseDups
  let qv := queryVector k q.query
  let qq := selfDot k qv
  sortBy before (items.filterMap (fun i => (k.items.get? i).map (fun x => (i, scoreOf k (querySketch k q.query) qv qq x))))

/-- Items beyond entry K − 1 of a ranked list whose score equals that entry's; 0 where the list is shorter (12 Table 12-9). -/
def tieAt (k : Nat) (xs : List (Nat × W32)) : Nat :=
  match (if k = 0 then none else xs[k - 1]?) with
  | none => 0
  | some e => ((xs.drop k).filter (fun x => rankKey x.2 == rankKey e.2)).length

/-- The result block of a SEARCH (12 R466, R467). -/
def searchBlock (k : Coll) (q : Search) (xs : List (Nat × W32)) : List Byte :=
  let count := min q.k xs.length
  let header := natLe 4 count ++ natLe 4 (tieAt q.k xs) ++ natLe 8 q.horizon ++ natLe 4 q.gen ++
    natLe 4 (q.results.vals.foldl (fun a r => a + r.visits) 0) ++ natLe 4 xs.length ++ natLe 1 (if count < q.k then stPartial else stOk) ++
    natLe 1 (boolNat (q.results.vals.any (·.budget))) ++ zeros 34
  let entry := fun (e : Nat) => match xs[e]? with
    | some (i, sc) => natLe 4 i ++ natLe 4 sc.toNat ++ natLe 8 (((k.items.get? i).map (·.key)).getD 0)
    | none => natLe 4 0xFFFFFFFF ++ natLe 4 0xFF800000 ++ zeros 8
  header ++ ((List.range q.k).map entry).flatten

/-- A SEARCH ends with its result block, or with the first survivor that the scoring finds tarnished (12 R466, R467, R475). -/
def endSearch (s : State) (q : Search) : State :=
  match s.colls.get? q.coll, findCmd s q.cmd with
  | some k, some c =>
    let xs := searchRank k q
    match (if k.metric = 0 then none else xs.find? (fun e => itemTarnished s k e.1 true)) with
    | some e => complete (sivEvent (consumeColl (dropSearch s q.cmd) 0xC9 0) q.unit0 2) c stTarnished 0 e.1 0
    | none =>
      let count := min q.k xs.length
      let s := dropSearch s q.cmd
      let s := if count < q.k then { sivEvent s q.unit0 0 with sieves := (sivEvent s q.unit0 0).sieves.modify q.unit0 fun u => { u with partials := wrapInc 32 u.partials } } else s
      submitPut s c q.resultAddr (searchBlock k q xs) (if count < q.k then stPartial else stOk) count (tieAt q.k xs)
  | _, _ => dropSearch s q.cmd

/-- WALK_DONE (12 R461, R468, R475): the walk returns; the last one readies the scoring, which the control complex does at once under HAMMING. -/
def execWalkDone (unit : Nat) (s : State) : Out :=
  formed (decide (unit < 8)) (clocked s (
  match (s.sieves.getD unit {}).use_ with
  | some (.walk id p since) =>
    match s.searches.find? (fun q => q.cmd == id) with
    | none => .next s
    | some q =>
      match s.colls.get? q.coll with
      | none => .next s
      | some k =>
        let w := searchWalk s k q p
        let hit := w.visits = q.visitMax
        let s := { s with sieves := s.sieves.modify unit fun u =>
          { u with use_ := none, mode := 0, compares := (u.compares + w.compares) % 2 ^ 64, walks := wrapInc 32 u.walks
                   budgetHits := if hit then wrapInc 32 u.budgetHits else u.budgetHits, lastWalk := (s.now - since) % 2 ^ 32 } }
        let s := if hit then sivEvent s unit 1 else s
        if w.broken then .next (breakColl s q.coll unit)
        else match w.tarnItem with
          | some i => .next (completeId (sivEvent (consumeColl (dropSearch s id) (0xB8 + unit) 0) unit 2) id stTarnished 0 i 0)
          | none =>
            let r : WalkResult := { survivors := (w.res.take (if k.metric = 0 then q.k else q.rerank)).map (·.2), visits := w.visits, budget := hit }
            let q := { q with results := q.results.set p r, walkedAt := if q.results.length + 1 = q.spread then some s.now else none }
            let s := { s with searches := s.searches.map fun x => if x.cmd == id then q else x }
            .next (if q.walkedAt.isSome && k.metric = 0 then endSearch s q else s)
  | _ => .next s))

/-! ## SELECT (12 R470 to R475) -/

/-- Bytes of an element of a SELECT. -/
def selectEb (fmt : Nat) : Nat := if fmt = 8 then 2 else 4

/-- A SELECT with its staging pages fetches its rows; without them there is no room (12 R470). -/
def selectWith (c : HCmd) (s : State) : Option (List Nat) → State
  | none => complete s c stNoRoom 0 0 0
  | some fs =>
    let bytes := c.fld 28 2 * c.fld 24 4 * selectEb (c.fld 32 1)
    let q : Select := { cmd := c.id, tenant := c.tenant, rows := c.fld 28 2, n := c.fld 24 4, k := c.fld 30 2, fmt := c.fld 32 1, resultAddr := c.fld 40 8
                        frames := fs, seq := c.id }
    submit { s with selects := s.selects ++ [q] } { cookie := 0, op := 6, tenant := c.tenant, units := ceilDiv bytes 4096, src := c.fld 16 8, purpose := .select c.id }

/-- SELECT (12 R470): the operands, the staging pages and the fetch. -/
def selectStart (s : State) (c : HCmd) : State :=
  let n := c.fld 24 4
  let rows := c.fld 28 2
  let k := c.fld 30 2
  let fmt := c.fld 32 1
  if !(1 ≤ rows && rows ≤ 4096 && 1 ≤ n && n ≤ 2 ^ 24 && 1 ≤ k && k ≤ 1024 && (fmt == 8 || fmt == 9) && addrOk (c.fld 40 8) && rows * n ≤ 2 ^ 26) then
    complete s c stInvalid 0 0 0
  else
    let q := takeAny s (ceilDiv (rows * n * selectEb fmt) 65536) (.staging c.id)
    selectWith c q.1 q.2

/-- SELECT (12 R470). -/
def execSelect (id : Nat) (s : State) : Out := hostCmd s id 0x48 selectStart

/-- SELECT_FETCH_DONE (12 R470): the rows stand in staging; poisoned blocks of 16 bytes taint their rows. -/
def execSelectFetchDone (id : Nat) (data : List Byte) (poison : List Nat) (s : State) : Out :=
  match s.selects.find? (fun q => q.cmd == id), consume s (.select id) with
  | some q, some (s, st) =>
    if st != 0 && st != 4 then .next (completeId (dropSelect s id) id stFenced 0 0 0)
    else
      let row := q.n * selectEb q.fmt
      let tarn := (List.range q.rows).filter (fun r => poison.any (fun b => 16 * b < (r + 1) * row && r * row < 16 * b + 16))
      .next { s with selects := s.selects.map fun x =>
        if x.cmd == id then { x with data := padTo (q.rows * row) data, tarnRows := tarn, fetchedAt := some s.now } else x }
  | _, _ => .next s

/-- The value of element n of row r, widened exactly to FP32 (12 R471). -/
def selectElem (q : Select) (r n : Nat) : W32 :=
  let o := (r * q.n + n) * selectEb q.fmt
  if q.fmt = 8 then encFV (decBf16 (fieldAt q.data o 2)) else BitVec.ofNat 32 (fieldAt q.data o 4)

/-- The valid elements of a row ranked: highest first, ties to the lower index (12 R471). -/
def selectRank (vals : List W32) : List (Nat × W32) :=
  sortBy before ((vals.zipIdx.filter (fun e => isNumber e.1)).map (fun e => (e.2, e.1)))

/-- The result of one row (12 R472). -/
def selectRow (q : Select) (r : Nat) : List Byte :=
  let xs := selectRank ((List.range q.n).map (selectElem q r))
  natLe 4 (min q.k xs.length) ++ natLe 4 (tieAt q.k xs) ++ natLe 4 r ++ zeros 4 ++
  ((List.range q.k).map (fun e => match xs[e]? with
    | some (i, v) => natLe 4 i ++ natLe 4 v.toNat
    | none => natLe 4 0xFFFFFFFF ++ natLe 4 0xFF800000)).flatten

/-- Rows with COUNT below K (12 R472). -/
def shortRows (q : Select) : Nat :=
  ((List.range q.rows).filter (fun r => decide ((selectRank ((List.range q.n).map (selectElem q r))).length < q.k))).length

/-- A tarnished line of staging in a row (12 R475). -/
def stagedTarnish (s : State) (q : Select) (r : Nat) : Bool :=
  let row := q.n * selectEb q.fmt
  q.tarnRows.contains r || (pagesOf (r * row) row).any (fun v =>
    match keyAddr s q.frames v with
    | some a =>
      let lo := max (r * row) (v * 65536)
      tarnishedRun s (a + (lo - v * 65536)) (min ((r + 1) * row) (v * 65536 + 65536) - lo)
    | none => false)

/-- A SELECT ends: its rows are written, or those before the first tarnished row (12 R472, R475). -/
def endSelect (s : State) (q : Select) : State :=
  match findCmd s q.cmd with
  | none => dropSelect s q.cmd
  | some c =>
    match (List.range q.rows).find? (stagedTarnish s q) with
    | none => submitPut (dropSelect s q.cmd) c q.resultAddr (((List.range q.rows).map (selectRow q)).flatten) stOk q.rows (shortRows q)
    | some 0 => complete (consumeColl (dropSelect s q.cmd) 0xC9 0) c stTarnished 0 0 0
    | some r => submitPut (consumeColl (dropSelect s q.cmd) 0xC9 0) c q.resultAddr (((List.range r).map (selectRow q)).flatten) stTarnished 0 r

/-! ## Bounds of the jobs (12 Table 12-10) -/

/-- W_job of the scoring of a SEARCH. -/
def searchTicks (k : Coll) (q : Search) : Nat := 1500 + 2 * ceilDiv (q.rerank * vecPad k) 16384

/-- W_job of a SELECT. -/
def selectTicks (q : Select) : Nat :=
  400 + q.rows * (200 + ceilDiv (q.n * selectEb q.fmt) 98304 + ceilDiv (ceilDiv q.n 128 * (1 + ceilDiv q.k 128)) 16 + 8 * ceilDiv q.k 16)

/-- W_job of one merge step. -/
def mergeTicks (k : Coll) : Nat :=
  64 * (400 + k.efBuild * (64 + ceilDiv (k.degree * (sketchBytes k + 40)) 2048) + 2 * ceilDiv (k.efBuild * vecPad k) 16384)

end Sys2Proof.Machine
end

