-- ==== Sys2Proof/Machine/Cells.lean ====
section
/-!
DEFINITION. Sys2Proof/Machine/Cells.lean: the Loupe and the cell map (03 R113 to R122), tile faults, replay and the repeat test (03 R111, 13 R497 to R501),
the map-epoch fence (13 R503 to R505), and the loss of the Orrery (03 R121, 13 R499, R725). Scratch and accumulators are held by logical cell, so the
copy of a substitution (03 R118) leaves them as they are.
-/
namespace Sys2Proof.Machine

/-! ## Cells -/

/-- The state with the Loupe changed. -/
def State.lpeM (s : State) (f : Lpe → Lpe) : State := { s with lpe := f s.lpe }

/-- The state with one physical cell changed. -/
def State.cellM (s : State) (p : Nat) (f : Cell → Cell) : State := { s with cells := s.cells.modify p f }

/-- One physical cell. -/
def State.cell (s : State) (p : Nat) : Cell := s.cells.getD p {}

/-- The physical cell that holds a logical cell. -/
def physOf (s : State) (l : Nat) : Nat := s.lpe.map.getD l 0

/-- The logical cell that a physical cell holds. -/
def logicalOf (s : State) (p : Nat) : Option Nat := s.lpe.map.findIdx? (· == p)

/-- The lowest SPARE of a physical column. -/
def lowestSpare (s : State) (c : Nat) : Option Nat := ((List.range 18).map (18 * c + ·)).find? (fun p => (s.cell p).state == .spare)

/-- The state of a cell after its self test (03 R114): listed cells are RETIRED, failing ones FAILED, and the rest are usable. -/
def testedCell (retired : Nat) (p : Nat) (r : Bool × Bool × Bool) (c : Cell) : Cell :=
  let bad := r.1 || r.2.1 || r.2.2
  let st : CellState := if bitAt retired p then .retired else if bad then .failed else .spare
  { c with state := st, row := 0, bistSram := r.1, bistLattice := r.2.1, bistTwin := r.2.2, bistDone := true, gated := st != .spare }

/-- BIST_START: a write of LPE_CTL.BIST_START, ignored unless the Loupe is IDLE (03 R114, Table 3-20). -/
def execBistStart (s : State) : Out :=
  when (fwRuns s && s.lpe.mode == .idle) s (s.lpeM fun l => { l with mode := .bist, bistSince := s.now })

/-- The usable cells of a physical column in ascending row. -/
def usableCells (s : State) (c : Nat) : List Nat := ((List.range 18).map (18 * c + ·)).filter (fun p => (s.cell p).state == .spare)

/-- The map at epoch 1: the first 16 usable cells of each column are its logical rows (03 R114). -/
def buildMap (s : State) : State :=
  let rows := (List.range 8).map (fun c => (usableCells s c).take 16)
  let s := (rows.map (List.zipIdx)).flatten.foldl (fun s e => s.cellM e.1 fun x => { x with state := .active, row := e.2 }) s
  let s : State := { s with cells := s.cells.map fun x => if x.state == .active || x.state == .spare then { x with epoch := 1 } else x }
  s.lpeM fun l => { l with map := rows.flatten, epoch := 1, mode := .ready }

/-- BIST_DONE (03 R114, R115): the outcome of each cell's test as failures of its SRAM, its lattice and its twin. -/
def execBistDone (results : List (Bool × Bool × Bool)) (s : State) : Out :=
  formed (decide (results.length = 144)) (clocked s (
  when (s.lpe.mode == .bist) s (
    let s : State := { s with cells := s.cells.zipIdx.map (fun e => testedCell s.lpe.retired e.2 (results.getD e.2 (false, false, false)) e.1) }
    if (List.range 8).all (fun c => 16 ≤ (usableCells s c).length) then buildMap s else s.lpeM fun l => { l with mode := .exhausted })))

/-- SPARE_RETEST (03 R116): the outcome of the retest of each cell that is SPARE, while the Orrery runs: the device is ACTIVE and the issue unit enabled, so in
DUSK and TWILIGHT, whose clocks are gated, the retest waits (18 R681). CEL_BIST keeps the outcome of the self test: which of its bits a failed retest
would set is not stated (log 53). -/
def execSpareRetest (pass : List Bool) (s : State) : Out :=
  formed (decide (pass.length = 144)) (
  when (s.lpe.patrolEn && s.lpe.mode == .ready && s.lan.power == .active && s.ory.enable) s (
    let s : State := { s with cells := s.cells.zipIdx.map (fun e => if e.1.state == .spare && !pass.getD e.2 true then { e.1 with state := .failed, gated := true } else e.1) }
    s.lpeM fun l => { l with lastPatrol := s.now }))

/-- MESH_MESSAGE_RECEIVE (13 R504, 03 R120): a RETIRED or FAILED cell's router drops its traffic; a message under another map epoch is discarded. -/
def execMeshMessageReceive (cell epoch : Nat) (s : State) : Out :=
  formed (decide (cell < 144)) (clocked s (
  when ((s.cell cell).state != .retired && (s.cell cell).state != .failed && epoch != s.lpe.epoch) s (
    logFault (intEvent (s.integM fun i => { i with staleMap := wrapInc 32 i.staleMap }) 5) 0x09 cell 0xFF 0 0 epoch)))

/-! ## The loss of the Orrery (03 R121, 13 R499, R725) -/

/-- A pin of a command is released from every locket. -/
def unpinCmd (s : State) (id : Nat) : State := { s with lockets := s.lockets.map fun e => (e.1, { e.2 with pins := e.2.pins.filter (· != id) }) }

/-- A charm whose copy its command waits for is freed: the promoting replicas lose their frames (08 R317). -/
def dropCharm (s : State) (ci : Nat) : State := freeCharm (failReplicas s ci) ci

/-- A locket that SESSION_OPEN has not opened yet is freed (08 R298). -/
def dropOpening (s : State) (h id : Nat) : State := dropLocket (unpinReplicas (abandonFor s (fun p => p == .ring h)) (pinCmd id)) h

/-- What a started command holds is released: its transfers, pages, pins, jobs and Sieve units (18 R678, R680; 08 R297, R300, R318). -/
def releaseCmd (st : Nat) (s : State) (c : HCmd) : State :=
  match c.opcode with
  | 0x10 => (s.parures.filter (fun e => e.2.cmd == c.id && e.2.state == .loading)).foldl
      (fun s e => let s := abandonFor s (fun p => p == .parure e.1); { s with parures := s.parures.erase e.1 }) s
  | 0x20 => (s.lockets.filter (fun e => opening e.2 && (e.2.move.bind (·.cmd)) == some c.id)).foldl (fun s e => dropOpening s e.1 c.id) s
  | 0x25 => (s.lockets.filter (fun e => (e.2.move.bind (·.cmd)) == some c.id)).foldl (fun s e => abandonDemotion s e.1 st) s
  | 0x26 => (s.lockets.filter (fun e => e.2.pins.contains c.id)).foldl
      (fun s e => undoPromotion (abandonRecompute (abandonFor s (fun p => p == Purpose.promote e.1)) e.1) e.1) s
  | 0x27 => (s.charms.filter (fun e => e.2.cmd == some c.id)).foldl (fun s e => dropCharm s e.1) s
  | 0x31 => (((s.eph.ctxs.vals.map (·.joins)).flatten).filter (fun j => j.cmd == c.id)).foldl (fun s j => withdrawJoin s j.id st) s
  | 0x32 => s.ephM fun e => { e with ctxs := e.ctxs.map fun x => (x.1, { x.2 with leaves := x.2.leaves.filter (fun v => v.cmd != c.id) }) }
  | 0x40 => dropSearch s c.id
  | 0x48 => dropSelect s c.id
  | 0x43 => { s with colls := s.colls.map fun e => (e.1, { e.2 with merge := e.2.merge.map (fun m => if m.cmd == some c.id then { m with cmd := none } else m) }) }
  | 0x50 => s.ckptM fun k => { k with snapshots := k.snapshots.filter (fun p => p.cmd != c.id) }
  | _ =>
    let s := abandonFor s (fun p => p == .put c.id || p == .facet c.id || p == .restore c.id)
    let s := s.ckptM fun k => { k with restores := k.restores.filter (fun r => r.cmd != c.id) }
    s.curM fun u => { u with puts := u.puts.filter (fun p => p.cmd != c.id) }

/-- An outstanding command ends with a status, and what it holds is released (13 R725, 18 Table 18-8). An open stream keeps running without its
command; symbols that a command still has to acknowledge stay in their thread. -/
def endCmd (st : Nat) (s : State) (c : HCmd) : State :=
  let s := if c.started then releaseCmd st s c else s
  let s : State := { s with lockets := s.lockets.map fun e =>
    (e.1, { e.2 with genCmd := if e.2.genCmd == some c.id then none else e.2.genCmd, genWait := e.2.genWait.filter (fun g => g.cmd != c.id)
                     pendingCmds := e.2.pendingCmds.map (fun p => if p.1 == c.id then (0, p.2) else p) }) }
  let s := s.ephM fun e => { e with switch := e.switch.map (fun w => if w.cmd == some c.id then { w with cmd := none } else w) }
  completeId (unpinCmd s c.id) c.id st 0 0 0

/-- Every outstanding command ends ST_FENCED, with what it holds (13 R507, 18 R690). -/
def fenceAll (s : State) : State := (liveCmds s).foldl (endCmd stFenced) s

/-- Every outstanding command that needs the Orrery completes ST_FENCED (13 R725). -/
def fenceOrrery (s : State) : State := ((liveCmds s).filter (needsOrrery s)).foldl (endCmd stFenced) s

/-- The issue unit stops at once; no step in progress is sealed (03 R121, 13 R499). -/
def stopIssue (s : State) : State := s.oryM fun y => { y with mode := .fault, preempt := false }

/-- DEVICE_FAULT with its reason (13 R499, Table 13-8). -/
def deviceFault (s : State) (detail : Nat) : State :=
  let s := stopIssue (s.integM fun i => { i with mode := .deviceFault, faultDetail := detail, rep := .clean, change := none, trial := none })
  fenceOrrery (logFault (intEvent s 2) 0x08 0xC8 0xFF 0 0 detail)

/-- The Loupe is EXHAUSTED (03 R121). -/
def exhausted (s : State) : State :=
  let s := stopIssue ((s.lpeM fun l => { l with mode := .exhausted }).integM fun i => { i with mode := .normal, rep := .clean, cell := 0xFF, attempt := 0 })
  fenceOrrery (logFault s 0x08 0xC8 0xFF 0 0 1)

/-! ## Retirement and transients (13 R498, R501, R502) -/

/-- A cell is retired for good: it joins the retired-cell list in the Loupe, in Lantern and in board identity memory (13 R502, 03 R122). -/
def retire (s : State) (p detail : Nat) : State :=
  let s := s.cellM p fun c => { c with state := .retired, row := 0, gated := true }
  let s := (s.lpeM fun l => { l with retired := l.retired ||| 2 ^ p }).lanM fun l => { l with retired := l.retired ||| 2 ^ p }
  logFault (intEvent (s.integM fun i => { i with permanent := wrapInc 32 i.permanent }) 1) 0x06 0xC8 0xFF 0 p detail

/-- A physical cell has counted TRANSIENT_LIMIT transients in the window (13 R501). -/
def overLimit (s : State) (p : Nat) : Bool :=
  s.integ.limit != 0 && s.integ.plannedEn &&
  s.integ.limit ≤ ((s.cell p).transients.filter (fun t => s.now ≤ t + s.integ.window * 100000000)).length

/-- A transient is counted for a physical cell, and the condition of 13 R501 is tried. -/
def countTransient (s : State) (p ord : Nat) : State :=
  let s := s.cellM p fun c => { c with transients := s.now :: c.transients.filter (fun t => s.now ≤ t + s.integ.window * 100000000) }
  let s := logFault (intEvent (s.integM fun i => { i with transient := wrapInc 32 i.transient }) 0) 0x04 0xC8 0xFF 0 ord p
  if overLimit s p && 1 ≤ sparesIn s (p / 18) then
    intEvent (if 2 ≤ sparesIn s (p / 18) then s.integM fun i => { i with planned := some p } else s) 10
  else s

/-! ## The map-epoch fence (13 R503) -/

/-- A fence starts: the Loupe sends FENCE and prepares the change (13 Table 13-5 steps 1 to 4). -/
def startFence (s : State) (m : MapChange) : State :=
  (s.integM fun i => { i with change := some m, mode := .fence }).lpeM fun l => { l with mode := .substituting }

/-- A new map epoch is committed: every ACTIVE and SPARE cell takes it (03 R117, 13 R503). -/
def newEpoch (s : State) : State :=
  let n := s.lpe.epoch + 1
  let s : State := { s with cells := s.cells.map fun x => if x.state == .active || x.state == .spare then { x with epoch := n } else x }
  s.lpeM fun l => { l with epoch := n, mode := .ready }

/-- A spare takes a logical position; the outgoing cell is SUSPECT (03 R118). -/
def substituteCell (s : State) (l out spare : Nat) : State :=
  let s := s.cellM spare fun c => { c with state := .active, row := l % 16 }
  let s := s.cellM out fun c => { c with state := .suspect, row := 0 }
  let s := s.lpeM fun y => { y with map := y.map.set l spare, lastCol := l / 16 }
  logFault s 0x05 0xC8 l s.integ.attempt spare out

/-- The last SPARE of a column has been consumed (13 R512). -/
def noteSpares (s : State) (c : Nat) : State := if sparesIn s c = 0 then logFault (intEvent s 9) 0x0F 0xC8 0xFF 0 c 0 else s

/-- Both window halves are to be refetched (03 R96, R118). -/
def refetchBoth (s : State) : State :=
  s.oryM fun y => { y with halfA := none, halfB := none, prog := y.prog.map (fun p => { p with refetch := [0, 1] }) }

/-- The copy of a substitution: lines of 64 bytes of the outgoing cell's scratch that read uncorrectable are the tarnish pattern in the spare (03 R118, R119;
13 R482). -/
def copyLost (s : State) (l : Nat) (lost : List Nat) : State :=
  s.oryM fun y => lost.foldl (fun y n =>
    let a := l * 2 ^ 21 + 64 * n
    { y with scratch := y.scratch.clear a (a + 64), scrTarn := addMarks y.scrTarn (wordsOf a 64) }) y

/-- MAP_EPOCH_COMMIT (13 R503 step 5, Table 13-4, R501), with the lines that the copy of R118 read uncorrectable. A reversal makes no copy (13 R503). -/
def execMapEpochCommit (s : State) (lost : List Nat := []) : Out :=
  formed (lost.all (fun n => decide (n < 32768))) (clocked s (
  match (if s.integ.mode == .fence then s.integ.change else none) with
  | none => .next s
  | some (.substitute l) =>
    match lowestSpare s (l / 16) with
    | none => .next (exhausted s)
    | some p =>
      let out := physOf s l
      let s := copyLost (noteSpares (newEpoch (substituteCell s l out p)) (l / 16)) l lost
      .next (refetchBoth (if s.ory.failing.isNone then s.integM fun i => { i with change := none, mode := .normal }
        else s.integM fun i => { i with change := none, mode := .replay, rep := .spare l, trial := some (out, p) }))
  | some (.planned l) =>
    match lowestSpare s (l / 16) with
    | none => .next ((s.integM fun i => { i with change := none, mode := .normal }).lpeM fun y => { y with mode := .ready })
    | some p =>
      let out := physOf s l
      let s := copyLost (noteSpares (newEpoch (retire (substituteCell s l out p) out 1)) (l / 16)) l lost
      .next (refetchBoth (s.integM fun i => { i with change := none, mode := .normal }))
  | some (.reverse l) =>
    match s.integ.trial with
    | none => .next (deviceFault s 0)
    | some (out, p) =>
      let s := s.cellM p fun c => { c with state := .spare, row := 0 }
      let s := s.cellM out fun c => { c with state := .active, row := l % 16 }
      let s := newEpoch (s.lpeM fun y => { y with map := y.map.set l out })
      .next (deviceFault (logFault s 0x07 0xC8 l s.integ.attempt out 0) 0)))

/-- PLANNED_SUBSTITUTION (13 R501): at a tick at which the Orrery holds no job. -/
def execPlannedSubstitution (s : State) : Out :=
  clocked s (
  match s.integ.planned with
  | none => .next s
  | some p =>
    when (s.eph.holder == .none && s.ory.prog.isNone && s.integ.mode == .normal && s.lpe.mode == .ready) s (
      let s := s.integM fun i => { i with planned := none }
      match logicalOf s p with
      | some l => if 2 ≤ sparesIn s (l / 16) then startFence s (.planned l) else s
      | none => s))

/-! ## Tile faults and the repeat test (03 R111, 13 R497, R498) -/

/-- The integrity unit directs the replay on the same map, or on the map that a fence forms. -/
def directReplay (s : State) (n cell : Nat) (r : Repeat) : State :=
  s.integM fun i => { i with mode := .replay, rep := r, attempt := n + 1, cell := cell }

/-- A reversal on the way to DEVICE_FAULT in SPARE; at once a device fault in the other states (13 Table 13-4). -/
def faultOut (s : State) : State :=
  match s.integ.rep with
  | .spare l => startFence s (.reverse l)
  | _ => deviceFault s 0

/-- The repeat test on a failing attempt n, at these logical cells, the lowest of them m (13 Table 13-4). -/
def repeatTest (s : State) (n : Nat) (cells : List Nat) (m ord : Nat) : State :=
  match s.integ.rep with
  | .clean => directReplay s n m (.retry m)
  | .retry l =>
    if 6 ≤ n then faultOut s
    else if cells.contains l then
      if (lowestSpare s (l / 16)).isSome then startFence (directReplay s n l (.retry l)) (.substitute l) else exhausted s
    else directReplay (countTransient s (physOf s l) ord) n m (.retry m)
  | .spare l =>
    if 6 ≤ n then faultOut s
    else if cells.contains l then faultOut s
    else
      let s := match s.integ.trial with | some (out, _) => retire s out 0 | none => s
      directReplay (s.integM fun i => { i with trial := none }) n m (.retry m)

/-- ORY_FAULT and CEL_ABFT after a failing attempt (03 Tables 3-15, 3-18; 13 R497). -/
def noteFault (s : State) (cells : List Nat) (m : Nat) (row col twin : Bool) : State :=
  let s := s.oryM fun y =>
    { y with faultCell := m, faultEpoch := (s.cell (physOf s m)).epoch, faultTwin := y.faultTwin || twin, faultCol := y.faultCol || col
             faultRow := y.faultRow || row, mode := .replayWait }
  cells.foldl (fun s l => s.cellM (physOf s l) fun c =>
    { c with abftCnt := if row || col then satInc c.abftCnt 0xFFFF else c.abftCnt, twinCnt := if twin then satInc c.twinCnt 0xFFFF else c.twinCnt }) s

/-- Every tile in flight is discarded, to be replayed in order before those discarded already (18 R690, 13 R500). -/
def discardTiles (s : State) : State :=
  s.oryM fun y => { y with prog := y.prog.map (fun p => { p with discarded := p.inFlight ++ p.discarded, inFlight := [] }) }

/-- A failing tile and every tile issued after it are discarded, to be replayed in their order before those discarded already (03 R111, 13 R497). -/
def discardFrom (s : State) (t : TileRef) : State :=
  s.oryM fun y => { y with prog := y.prog.map (fun p =>
    { p with discarded := p.inFlight.dropWhile (· != t) ++ p.discarded, inFlight := p.inFlight.takeWhile (· != t) }) }

/-- A tile's checks fail at these logical cells, in ascending order (03 R111; 13 R497, R498). The integrity unit judges one failing tile at a time: a tile that
fails while another's test is open is recorded and discarded, and its test begins if its replay fails (log 54). -/
def tileFails (s : State) (t : TileRef) (cells : List Nat) (row col twin : Bool) : State :=
  let m := cells.foldl min 127
  let n := match s.integ.rep with | .clean => 1 | _ => s.integ.attempt
  let s := discardFrom (noteFault s cells m row col twin) t
  let s := logFault s 0x01 0xC8 m n t.ord (maskOf [s.ory.spillOver, row, col, twin])
  if (s.ory.failing.map (· != t)).getD false then s else
  let s := (s.oryM fun y => { y with failing := some t }).integM fun i => if i.rep == .clean then { i with firstFault := s.now } else i
  repeatTest s n cells m t.ord

/-- The failing tile's replay has passed and commits (13 Table 13-4, R511). -/
def testPassed (s : State) (ord : Nat) : State :=
  let done := fun (s : State) => s.integM fun i =>
    { i with rep := .clean, trial := none, mode := .normal, cell := 0xFF, attempt := 0, interruptMax := max i.interruptMax ((s.now - i.firstFault) % 2 ^ 32) }
  match s.integ.rep with
  | .clean => s
  | .retry l => done (countTransient s (physOf s l) ord)
  | .spare _ => done (match s.integ.trial with | some (out, _) => retire s out 0 | none => s)

/-- A tile commits: where it is the failing one its test ends. -/
def tilePassed (s : State) (t : TileRef) : State := if s.ory.failing == some t then testPassed (s.oryM fun y => { y with failing := none }) t.ord else s

end Sys2Proof.Machine
end

