-- ==== Sys2Proof/Machine/Domain.lean ====
section
/-!
DEFINITION. Sys2Proof/Machine/Domain.lean: a Strand domain: enumeration (16 R607 to R611), membership epochs (R620 to R625), timing beacons (R616 to R619),
and what follows from an epoch: stale senders, quarantine and isolation (13 R506 to R508).
-/
namespace Sys2Proof.Machine

/-! ## Messages taken -/

/-- TYPE of a message. -/
def Msg.ty (m : Msg) : Nat := fieldAt m.body 0 1

/-- A field of a message. -/
def Msg.fld (m : Msg) (off n : Nat) : Nat := fieldAt m.body off n

/-- The oldest message of a class is taken when it has a given TYPE (16 R603): within a class messages are taken in order of arrival. -/
def popMsg (s : State) (ty : Nat) : Option (State × Msg) :=
  match s.std.inbox.find? (fun m => m.ty / 16 == ty / 16) with
  | some m => if m.ty = ty then some (s.stdM fun d => { d with inbox := d.inbox.erase m }, m) else none
  | none => none

/-- A message of a class is taken and acted on; without one the command does nothing. -/
def onMsg (s : State) (ty : Nat) (k : State → Msg → State) : Out :=
  match (if s.lan.coreUp && s.lan.refclk then popMsg s ty else none) with
  | some (t, m) => .next (k t m)
  | none => .next s

/-- Station of a port (01 Table 1-1). -/
def portStation (p : Nat) : Nat := 0xC4 + p / 2

/-! ## Adopting an epoch (16 R622, R623, R625) -/

/-- The buddy of this device in a member set (16 R625). -/
def buddyOf (s : State) (members : Nat) : Option Nat :=
  let me := ownPos s
  let o := s.std.buddyOverride
  if o < 64 && o != me && bitAt members o then some o
  else ((List.range 63).map (fun i => (me + 1 + i) % 64)).find? (bitAt members)

/-- The buddy is recomputed; a change of buddy abandons the origin's cuts in flight (16 R623, R625; 14 R534). -/
def rebuddy (s : State) : State :=
  let b := if bitAt s.std.members (ownPos s) then buddyOf s s.std.members else none
  if s.std.buddy = b then s else abandonCuts (s.stdM fun d => { d with buddy := b })

/-- A port held in electrical idle, or down: what it held in flight is lost (16 R614, R627). -/
def stopPort (s : State) (n : Nat) (m : PortMode) : State :=
  let was := (s.port n).mode == .up
  let waiting := (s.port n).queue.filter (fun f => f.kind == 2 || 0x20 ≤ fieldAt f.payload 0 1)
  let s := s.portM n fun p => { p with mode := m, lanes := 0, partnerValid := false, replay := [], resend := 0, queue := [], unit := none, nak := false, delayReq := none
                                       lastDelay := none, lastBeacon := none, since := s.now }
  let s := if was then stdEvent s 2 else s
  waiting.foldl (fun s f => sendFlit s { f with hops := f.hops - 1 }) s

/-- A port that is released trains again (16 R627). -/
def freePort (s : State) (n : Nat) : State :=
  if (s.port n).mode == .fenced && (s.port n).fence = 0 then s.portM n fun p => { p with mode := .training, since := s.now } else s

/-- ISOLATED ends, and what the host interface held is posted (13 R508). -/
def leaveIsolated (s : State) : State :=
  if s.integ.mode == .isolated then releaseHeld (s.integM fun g => { g with mode := .normal }) else s

/-- Every locket, charm, facet and collection on the device is freed (13 R509). -/
def freeObjects (s : State) : State :=
  let s := s.lockets.keys.foldl (fun s h => dropLocket (returnJoin (undoPromotion (abandonFor (abandonDemotion s h stFenced) (fun p => p == .promote h)) h) h) h) s
  let s := s.charms.keys.foldl freeCharm s
  let s := (s.searches.map (·.cmd)).foldl dropSearch s
  let s := s.colls.keys.foldl dropMergeJob s
  let s := s.astM fun a => { a with frames := a.frames.filter (fun e => match e.2 with | .collection _ => false | _ => true) }
  let s := s.ephM fun e => { e with ctxs := e.ctxs.map fun x => (x.1, { x.2 with members := [], joins := [], leaves := [], step := none, suspended := none, state := .idle }) }
  { s with colls := [], facets := [], ckpt := { s.ckpt with controlDirty := true } }

/-- A device adopts an epoch and its set (16 R622, R623): a device that comes back has its quarantine mark cleared, and its fenced ports train (R626). -/
def adoptEpoch (s : State) (e set : Nat) : State :=
  let back := s.integ.mode == .quarantined || s.lan.quarantine
  let s := if back then freeObjects s else s
  let s := setStd (s.stdM fun d => { d with epoch := e, members := set, prepared := none, change := none, lastBeacon := s.now, seenSeq := none, passedOn := []
                                            inXfers := d.inXfers.filter (fun x => bitAt set x.peer)
                                            outXfers := d.outXfers.filter (fun x => bitAt set x.peer) }) .member
  let s := rebuddy (stdEvent s 5)
  let s := if isMaster s then s.stdM fun d => { d with offset := 0, timeFrom := none } else s
  if !back then s else
  let s := (s.integM fun g => { g with mode := if g.mode == .quarantined then .normal else g.mode }).lanM fun l => { l with quarantine := false, remounted := some (l.remounted.getD []) }
  (List.range 8).foldl freePort s

/-- The prepared epoch is adopted (16 Table 16-6). -/
def adoptPrepared (s : State) : State :=
  match s.std.prepared with
  | some p => adoptEpoch s p.epoch p.set
  | none => s

/-- The prepared epoch is discarded (16 Table 16-6). -/
def discardPrepared (s : State) : State :=
  match s.std.prepared with
  | some p => setStd (s.stdM fun d => { d with prepared := none }) (if p.wasMember then .member else .joining)
  | none => s

/-! ## Quarantine (13 R507) -/

/-- This device meets a sign of a newer epoch: it enters quarantine (13 R507, 16 Table 16-6). -/
def quarantine (s : State) (port src detail : Nat) : State :=
  if s.std.mode == .quarantined then s else
  let s := releaseHeld (s.integM fun g => { g with mode := .quarantined })
  let s := ((s.lockets.filter (fun e => e.2.state == .demoting)).map (·.1)).foldl (fun s h => abandonDemotion s h stFenced) s
  let s := fenceAll s
  let s := [2, 3, 4, 5, 6, 7].foldl (fun s n => stopPort s n .fenced) s
  let s := ((List.range 4).filter (fun n => (s.bay n).mode == .mounted || (s.bay n).mode == .readOnly)).foldl forceDetach s
  let s := if s.std.change.isSome then stdEvent (s.stdM fun d => { d with result := 3 }) 6 else s
  let s := setStd ((s.stdM fun d => { d with change := none, prepared := none }).lanM fun l => { l with quarantine := true }) .quarantined
  logFault (intEvent s 8) 0x0C (portStation port) 0xFF 0 src detail

/-- An epoch e is older than c (13 R506). -/
def older (c e : Nat) : Bool := let d := (c + 65536 - e) % 65536; 1 ≤ d && d ≤ 32767

/-- An epoch e is newer than c (13 R506). -/
def newer (c e : Nat) : Bool := e != c && !older c e

/-- Traffic of an older epoch is discarded; its sender hears of it at most once in 1,000 ticks (13 R506). -/
def staleSender (s : State) (port src e : Nat) : State :=
  let s := logFault (intEvent (s.integM fun g => { g with staleMember := wrapInc 32 g.staleMember }) 6) 0x0A (portStation port) 0xFF 0 src e
  let quiet := match s.std.staleAt.get? src with | some t => decide (s.now < t + 1000) | none => false
  if quiet then s else
  sendMsg (s.stdM fun d => { d with staleAt := d.staleAt.set src s.now, staleSent := wrapInc 32 d.staleSent }) src
    (mkMsg 0x24 [(8, 2, s.std.epoch), (16, 8, s.std.members)])

/-- A unit, a beacon or a routed message of epoch e is judged: the state after, and whether it is accepted (13 R506, 16 R606, Table 16-6). -/
def judge (s : State) (port src e : Nat) : State × Bool :=
  let cmp := fun (_ : Unit) =>
    if e = s.std.epoch then (s, true) else if older s.std.epoch e then (staleSender s port src e, false) else (quarantine s port src 0, false)
  match s.std.mode, s.std.prepared with
  | .member, _ => cmp ()
  | .prepared, some p => if e = p.epoch then (adoptPrepared s, true) else if p.wasMember then cmp () else (s, false)
  | _, _ => (s, false)

/-! ## Membership changes (16 R620 to R622) -/

/-- The epoch after e: 0 is skipped (16 R620). -/
def nextEpoch (e : Nat) : Nat := if (e + 1) % 65536 = 0 then 1 else (e + 1) % 65536

/-- Key under which a membership message counts as passed on. -/
def memberKey (ty epoch coord : Nat) : Nat := ty * 2 ^ 24 + epoch * 2 ^ 8 + coord

/-- The first copy of a membership message is passed on to every UP port but its own; an ABORT ends the memory of its PREPARE and the other way round
(16 R617, R621). -/
def passMember (s : State) (m : Msg) : State :=
  let e := m.fld 8 2
  let c := m.fld 10 1
  if s.std.passedOn.contains (memberKey m.ty e c) then s
  else flood (s.stdM fun d => { d with passedOn := (d.passedOn.filter (fun k => k % 2 ^ 24 != e * 2 ^ 8 + c)) ++ [memberKey m.ty e c] }) m.port m.body

/-- A membership message of this device goes to every UP port (16 R621). -/
def floodMember (s : State) (ty epoch coord set : Nat) : State :=
  flood (s.stdM fun d => { d with passedOn := (d.passedOn.filter (fun k => k % 2 ^ 24 != epoch * 2 ^ 8 + coord)) ++ [memberKey ty epoch coord] }) 8
    (mkMsg ty ([(8, 2, epoch), (10, 1, coord)] ++ if ty = 0x23 then [] else [(16, 8, set)]))

/-- The coordinator has every acknowledgement: COMMIT is flooded and the epoch adopted (16 R621). -/
def finishChange (s : State) (c : MemberChange) : State :=
  let s := floodMember s 0x22 c.epoch (ownPos s) c.set
  adoptEpoch (s.stdM fun d => { d with result := 2, missing := 0 }) c.epoch c.set

/-- Positions whose acknowledgement the coordinator lacks. -/
def lacking (s : State) (c : MemberChange) : Nat := maskOf ((List.range 64).map (fun p => bitAt c.set p && p != ownPos s && !bitAt c.acks p))

/-- A request for a membership change is refused (16 R620). -/
def refuseChange (s : State) : State := stdEvent (s.stdM fun d => { d with result := 4 }) 6

/-- A membership change starts with this device as coordinator (16 R620, R621), or is refused. -/
def startChange (s : State) (epoch set : Nat) : State :=
  let me := ownPos s
  if s.std.change.isSome || s.std.prepared.isSome || !bitAt set me || 2 ^ s.std.count ≤ set then refuseChange s else
  let c : MemberChange := { epoch := epoch, set := set, since := s.now }
  let was := s.std.mode == .member
  let s := setStd (s.stdM fun d => { d with change := some c, result := 1, missing := 0
                                            prepared := some { epoch := epoch, set := set, coord := me, wasMember := was, since := s.now } }) .prepared
  let s := floodMember s 0x20 epoch me set
  if lacking s c = 0 then finishChange s c else s

/-- This device prepares an epoch and acknowledges it (16 Table 16-6). -/
def prepareFor (s : State) (m : Msg) (was : Bool) : State :=
  let c := m.fld 10 1
  let s := setStd (s.stdM fun d => { d with prepared := some { epoch := m.fld 8 2, set := m.fld 16 8, coord := c, wasMember := was, since := s.now } }) .prepared
  sendMsg s c (mkMsg 0x21 [(8, 2, m.fld 8 2), (10, 1, c)])

/-- PREPARE of the epoch already prepared: a coordinator of lower position wins, and this device's own change is abandoned (16 R622). -/
def prepareAgain (s : State) (p : Prepared) (m : Msg) : State :=
  if m.fld 8 2 != p.epoch || p.coord ≤ m.fld 10 1 then s else
  let s := if s.std.change.isSome then refuseChange (s.stdM fun d => { d with change := none }) else s
  prepareFor s m p.wasMember

/-- PREPARE (16 Table 16-6). -/
def execPrepare (s : State) : Out :=
  onMsg s 0x20 fun s m =>
    if s.std.mode == .quarantined || s.std.mode == .enum then s else
    let s := passMember s m
    let named := bitAt (m.fld 16 8) (ownPos s)
    match s.std.mode, s.std.prepared with
    | .joining, _ => if named then prepareFor s m false else s
    | .member, _ => if named && m.fld 8 2 == nextEpoch s.std.epoch then prepareFor s m true else s
    | .prepared, some p => prepareAgain s p m
    | _, _ => s

/-- MEMBER_ACK (16 R621). -/
def execMemberAck (s : State) : Out :=
  onMsg s 0x21 fun s m =>
    match s.std.change with
    | none => s
    | some c =>
      if m.fld 8 2 != c.epoch || m.fld 10 1 != ownPos s then s else
      let c := { c with acks := c.acks ||| 2 ^ m.src }
      let s := s.stdM fun d => { d with change := some c }
      if lacking s c = 0 then finishChange s c else s

/-- COMMIT (16 Table 16-6). -/
def execCommit (s : State) : Out :=
  onMsg s 0x22 fun s m =>
    if s.std.mode == .quarantined || s.std.mode == .enum then s else
    let s := passMember s m
    let e := m.fld 8 2
    match s.std.mode, s.std.prepared with
    | .prepared, some p => if e = p.epoch then adoptPrepared s else s
    | .member, _ => if newer s.std.epoch e then quarantine s m.port m.src 0 else s
    | _, _ => s

/-- ABORT (16 Table 16-6). -/
def execAbort (s : State) : Out :=
  onMsg s 0x23 fun s m =>
    if s.std.mode == .quarantined || s.std.mode == .enum then s else
    let s := passMember s m
    match s.std.prepared with
    | some p => if m.fld 8 2 = p.epoch && s.std.change.isNone then discardPrepared s else s
    | none => s

/-- Courier descriptors whose peer has answered STALE complete STALE_EPOCH (13 R506). -/
def staleDescs (s : State) (peer : Nat) : State :=
  let mark := fun (d : Desc) => if d.peer == peer && (d.op == 5 || peerFetch s d) then { d with peerStatus := some (d.peerStatus.getD 6) } else d
  s.curM fun c => { c with channels := c.channels.map (fun e => (e.1, mark e.2)) }

/-- STALE (16 Table 16-6; 13 R506, R507). -/
def execStale (s : State) : Out :=
  onMsg s 0x24 fun s m =>
    if s.std.mode == .quarantined || s.std.mode == .enum || s.std.mode == .joining then s else
    let s := staleDescs s m.src
    let e := m.fld 8 2
    match s.std.mode, s.std.prepared with
    | .prepared, some p => if e = p.epoch then adoptPrepared s else if p.wasMember && newer s.std.epoch e then quarantine s m.port m.src 1 else s
    | .member, _ => if newer s.std.epoch e then quarantine s m.port m.src 1 else s
    | _, _ => s

/-- MEMBER_ACK_TIMEOUT (16 R621). -/
def execMemberAckTimeout (s : State) : Out :=
  match s.std.change with
  | none => .next s
  | some c =>
    when (due s (c.since + 100000)) s (
      let s1 := floodMember s 0x23 c.epoch (ownPos s) 0
      let s1 := stdEvent (s1.stdM fun d => { d with result := 3, missing := lacking s c, change := none }) 6
      discardPrepared s1)

/-- PREPARE_TIMEOUT (16 Table 16-6). -/
def execPrepareTimeout (s : State) : Out :=
  match s.std.prepared with
  | some p => when (s.std.change.isNone && due s (p.since + 200000)) s (discardPrepared s)
  | none => .next s

/-! ## Enumeration (16 R607 to R611) -/

/-- Both chain ports are UP, or the one that there is at the head and at the tail (16 Table 16-6). -/
def chainUp (s : State) : Bool :=
  match s.std.position with
  | none => false
  | some p => (p == 0 || portUp s 0) && (s.std.tail || portUp s 1)

/-- ENUM ends when the position is adopted and the chain ports are UP or the device is the tail (16 Table 16-6). -/
def settleEnum (s : State) : State := if s.std.mode == .enum && chainUp s then setStd s .joining else s

/-- An ENUM word is valid: SYNC, reserved bits and CRC (16 Table 16-5). -/
def enumOk (w : Nat) : Bool := w < 2 ^ 32 && bits w 31 24 == 0xA5 && bits w 22 14 == 0 && crc8 (w / 256) == bits w 7 0

/-- The ENUM word of a position (16 Table 16-5). -/
def enumWord (p : Nat) : Nat :=
  let h := 0xA5 * 2 ^ 16 + (if p = 63 then 2 ^ 15 else 0) + (p + 1) % 64
  h * 256 + crc8 h

/-- A position is adopted or replaced by two identical valid words (16 R608). -/
def adoptPosition (s : State) (p : Nat) : State :=
  if s.std.position == some p then s
  else if s.std.position.isNone || s.std.mode == .enum || s.std.mode == .joining then
    settleEnum (s.stdM fun d => { d with position := some p, adoptedAt := s.now, tail := false, countSent := false })
  else stdEvent s 0

/-- ENUM_WORD_RECEIVE (16 R608). -/
def execEnumWordReceive (word : Nat) (s : State) : Out :=
  formed (decide (word < 4294967296)) (
  when (s.lan.alwaysOn && s.lan.refclk && !s.std.enumLow) s (
    if !enumOk word then s.stdM fun d => { d with lastWord := none }
    else if bitAt word 23 then stdEvent (s.stdM fun d => { d with lastWord := some word }) 0
    else
      let again := s.std.lastWord == some word
      let s := s.stdM fun d => { d with lastWord := some word }
      if again then adoptPosition s (bits word 13 8) else s))

/-- ENUM_WORD_SEND (16 R607). -/
def execEnumWordSend (s : State) : Out :=
  match s.std.position with
  | some p => when (s.lan.alwaysOn && due s (s.std.lastEnum + 10000)) s (s.stdM fun d => { d with lastEnum := s.now, enumOut := d.enumOut ++ [enumWord p] })
  | none => .next s

/-- The device count is recorded, and passed on toward the head, which judges it (16 R610, R611). -/
def recordCount (s : State) (n : Nat) : State :=
  let s := s.stdM fun d => { d with count := n, countSent := true }
  if s.std.position == some 0 then (if 16 ≤ n && n ≤ 64 then s else stdEvent s 0)
  else if portUp s 0 then sendPort s 0 (mkMsg 0x02 [(8, 1, n)]) else s

/-- CHAIN_COUNT (16 R610). -/
def execChainCount (s : State) : Out := onMsg s 0x02 fun s m => if s.std.position.isSome then recordCount s (m.fld 8 1) else s

/-- TAIL_TIMEOUT (16 R610). -/
def execTailTimeout (s : State) : Out :=
  match s.std.position with
  | none => .next s
  | some p =>
    when (s.lan.coreUp && !s.std.tail && !portUp s 1 && s.std.mode == .enum && due s (s.std.adoptedAt + 5000000)) s
      (settleEnum (recordCount (s.stdM fun d => { d with tail := true }) (p + 1)))

/-! ## Timing (16 R616 to R619) -/

/-- Frame number and meridian that the master's beacon carries (16 R616). -/
def beaconFrames (s : State) : Nat × Nat := if s.eph.active.isSome && s.eph.running then (s.eph.frame, s.eph.meridian) else (0, 0)

/-- The body of a beacon. -/
def beaconBody (seq master tick corr frame meridian : Nat) : List Byte :=
  mkMsg 0x10 [(8, 4, seq), (12, 1, master), (16, 8, tick), (24, 8, corr), (32, 8, frame), (40, 8, meridian)]

/-- BEACON_SEND (16 R616). -/
def execBeaconSend (s : State) : Out :=
  when (s.lan.coreUp && isMaster s && due s (s.std.lastSent + 10000)) s (
    let f := beaconFrames s
    let q := s.std.nextSeq
    let any := (List.range 8).any (portUp s)
    let s1 := flood s 8 (beaconBody q (ownPos s) s.now 0 f.1 f.2)
    s1.stdM fun d => { d with nextSeq := wrapInc 32 q, lastSent := s.now, seenSeq := some q, lastBeacon := if any then s.now else d.lastBeacon })

/-- A beacon's SEQ has not been seen (16 R617). -/
def freshSeq (s : State) (q : Nat) : Bool :=
  match s.std.seenSeq with
  | none => true
  | some p => let d := (q + 2 ^ 32 - p) % 2 ^ 32; 1 ≤ d && d < 2 ^ 31

/-- The port that time is taken from (16 R618). -/
def timeSource (s : State) : Nat := s.std.timeFrom.getD s.std.timePort

/-- Time is taken from a beacon that arrived at local time `arrive`, in 1/65,536 tick (16 R618; 10 R409). -/
def takeTime (s : State) (m : Msg) (arrive : Nat) : State :=
  let off : Int := (m.fld 16 8 : Int) * 65536 + sNat 64 (m.fld 24 8) + (s.port m.port).delay - arrive
  s.stdM fun d =>
    if m.fld 32 8 = 0 then { d with offset := off }
    else { d with offset := off, beaconFrame := m.fld 32 8, beaconMeridian := m.fld 40 8, frameAt := some s.now }

/-- An accepted beacon (16 R617, R618; 13 R508). -/
def acceptBeacon (s : State) (m : Msg) (arrive residence : Nat) : State :=
  let s := leaveIsolated ((s.stdM fun d => { d with lastBeacon := s.now }).portM m.port fun p => { p with lastBeacon := some s.now })
  let q := m.fld 8 4
  let s :=
    if isMaster s || !freshSeq s q then s
    else
      let corr := sEnc 64 (sNat 64 (m.fld 24 8) + (s.port m.port).delay + residence)
      flood (s.stdM fun d => { d with seenSeq := some q }) m.port (beaconBody q (m.fld 12 1) (m.fld 16 8) corr (m.fld 32 8) (m.fld 40 8))
  let s := if m.port = s.std.timePort then s.stdM fun d => { d with timeFrom := none } else s
  if !isMaster s && m.port = timeSource s then takeTime s m arrive else s

/-- BEACON (16 R617, R618; 13 R506, R508). -/
def execBeacon (arrive residence : Nat) (s : State) : Out :=
  onMsg s 0x10 fun s m =>
    match judge s m.port m.src m.epoch with
    | (s, true) => acceptBeacon s m arrive residence
    | (s, false) => s

/-- A port has brought a beacon within 100,000 ticks. -/
def brings (s : State) (n : Nat) : Bool := match (s.port n).lastBeacon with | some t => decide (s.now < t + 100000) | none => false

/-- TIME_PORT_LOST (16 R618). -/
def execTimePortLost (s : State) : Out :=
  when (s.std.epoch != 0 && !isMaster s && !brings s (timeSource s) && due s (((s.port (timeSource s)).lastBeacon.getD 0) + 100000)) s
    (stdEvent (s.stdM fun d => { d with timeFrom := ((List.range 8).find? (brings s)).or d.timeFrom }) 4)

/-- DELAY_MEASURE (16 R619): `stamp` is T1. -/
def execDelayMeasure (port stamp : Nat) (s : State) : Out :=
  formed (decide (port < 8)) (
  let p := s.port port
  when (portUp s port && (match p.lastDelay with | some t => due s (t + 100000000) | none => true)) s
    (sendPort (s.portM port fun p => { p with lastDelay := some s.now, delayReq := some stamp }) port (mkMsg 0x03 [(8, 8, stamp)])))

/-- DELAY_REQ (16 R619): `arrive` is T2 and `leave` T3. -/
def execDelayReq (arrive leave : Nat) (s : State) : Out :=
  onMsg s 0x03 fun s m => sendPort s m.port (mkMsg 0x04 [(8, 8, m.fld 8 8), (16, 8, arrive), (24, 8, leave)])

/-- DELAY_RESP (16 R619): `arrive` is T4. -/
def execDelayResp (arrive : Nat) (s : State) : Out :=
  onMsg s 0x04 fun s m =>
    if (s.port m.port).delayReq != some (m.fld 8 8) then s else
    let d := (((arrive : Int) - m.fld 8 8) - ((m.fld 24 8 : Int) - m.fld 16 8)) / 2
    s.portM m.port fun p => { p with delay := sEnc 32 d, delayReq := none }

/-! ## Isolation (13 R508) -/

/-- ISOLATION_TIMEOUT (13 R508): a running step is to be suspended at its cheap point. -/
def execIsolationTimeout (s : State) : Out :=
  when (s.integ.isolateEn && s.std.epoch != 0 && (s.std.mode == .member || s.std.mode == .prepared) && s.integ.mode == .normal &&
    due s (s.std.lastBeacon + 500000)) s (
    let s1 := logFault (intEvent (s.integM fun g => { g with mode := .isolated }) 7) 0x0B 0xC4 0xFF 0 0 (s.now - s.std.lastBeacon)
    match s1.eph.holder with
    | .step _ => askPreempt s1
    | _ => s1)

end Sys2Proof.Machine
end

