-- ==== Sys2Proof/Machine/Links.lean ====
section
/-!
DEFINITION. Sys2Proof/Machine/Links.lean: Strand ports and flits (16 R596 to R602, R609, R613, R614), messages (R603), transfers (R604 to R606) and the host
windows of head mode (R615).
-/
namespace Sys2Proof.Machine

/-! ## Flits (16 R597 to R599) -/

/-- The HEADER of a flit (16 Table 16-3). -/
def flitHeader (f : Flit) : Nat :=
  ((((((((f.kind % 16 * 64 + f.dest % 64) * 64 + f.src % 64) * 65536 + f.epoch % 65536) * 1024 + f.tenant % 1024) * 8 + f.index % 8) * 2 + boolNat f.last) * 64 +
    f.hops % 64) * 4096) + f.xfer % 4096

/-- Bytes 0 to 531 of a flit (16 Table 16-2). -/
def flitBytes (f : Flit) (seq ack credit : Nat) : List Byte :=
  let b := padTo 512 f.payload ++ natLe 8 (flitHeader f) ++ natLe 4 f.tarnish ++ natLe 1 seq ++ natLe 1 ack ++ natLe 2 credit
  b ++ natLe 4 (crc32 b)

/-- The flit that bytes 0 to 523 give. -/
def readFlit (b : List Byte) : Flit :=
  let h := fieldAt b 512 8
  { kind := bits h 63 60, dest := bits h 59 54, src := bits h 53 48, epoch := bits h 47 32, tenant := bits h 31 22, index := bits h 21 19, last := bitAt h 18
    hops := bits h 17 12, xfer := bits h 11 0, payload := b.take 512, tarnish := fieldAt b 520 4 }

/-- The CRC of a flit's bytes is right. -/
def flitOk (b : List Byte) : Bool := fieldAt b 528 4 == crc32 (b.take 528)

/-- Flits that an ACK frees from a replay buffer whose oldest flit has sequence number `oldest` (16 R599). -/
def ackFrees (len oldest ack : Nat) : Nat := let n := (ack + 257 - oldest) % 256; if n ≤ len then n else 0

/-- ACK, NAK and CREDIT of an intact flit are applied to the port (16 R599, R600). -/
def applyLink (p : Port) (ack credit : Nat) : Port :=
  let oldest := (p.txSeq + 256 - p.replay.length % 256) % 256
  let p := { p with replay := p.replay.drop (ackFrees p.replay.length oldest ack) }
  let p := if bitAt credit 15 then { p with replays := wrapInc 32 p.replays, resend := p.replay.length } else { p with resend := min p.resend p.replay.length }
  if bitAt credit 14 then { p with credit1 := p.credit1 + bits credit 13 0 } else { p with credit0 := p.credit0 + bits credit 13 0 }

/-! ## Transfers (16 R604 to R606) -/

/-- XFER_DONE (16 Table 16-4). -/
def xferDone (num status units : Nat) (digest : List Byte) : List Byte := mkMsg 0x31 [(8, 2, num), (10, 1, status), (12, 4, units), (16, 32, leNat digest)]

/-- A transfer to this device no longer counts; the number of a HOST_READ is free with it. -/
def dropIn (s : State) (x : Xfer) : State :=
  let other := fun (y : Xfer) => !(y.peer == x.peer && y.num == x.num)
  s.stdM fun d => { d with inXfers := d.inXfers.filter other, outXfers := if x.op = 0x101 then d.outXfers.filter other else d.outXfers }

/-- A FETCH of this device ends as its transfer does, with the bytes that came (04 R153; 09 R350). -/
def endFetch (s : State) (x : Xfer) (status : Nat) : State :=
  let mark := fun (d : Desc) => if d.cookie == x.cookie && d.peer == x.peer && peerFetch s d then { d with peerStatus := some (d.peerStatus.getD status) } else d
  let slots := s.cur.channels.vals.filterMap (fun d => if d.cookie == x.cookie && d.peer == x.peer && peerFetch s d then (match d.purpose with | .parure k => some k | _ => none) else none)
  let s : State := { s with parures := slots.foldl (fun t k => t.upd k fun p => { p with received := if status = 0 then x.data else [] }) s.parures }
  s.curM fun c => { c with channels := c.channels.map (fun e => (e.1, mark e.2)) }

/-- A transfer received here fails: XFER_DONE with TARGET_FAILED, and an extent being written is undone (16 R605, 09 Table 9-3). -/
def failXfer (s : State) (x : Xfer) : State :=
  let s := dropIn s x
  let s := if x.op = 5 && x.extent = 0 then endFetch s x 5 else s
  let s := if x.op = 5 && x.extent != 0 && (match s.extents.get? x.extent with | some e => !e.sealed | none => false) then dropExtent s x.extent else s
  if x.op = 0x101 then s else sendMsg s x.peer (xferDone x.num 5 (x.data.length / 4096) (zeros 32))

/-- A transfer received here is complete: its bytes take effect and XFER_DONE answers (16 R605, R615; 14 R529). -/
def endXfer (s : State) (x : Xfer) : State :=
  let data := padTo x.total x.data
  if x.op = 5 && x.target = imageTarget then s
  else
    let s := dropIn s x
    let status := if x.tarnish.isEmpty then 0 else 4
    let s :=
      if x.op = 0x100 then { s with hostMem := s.hostMem.writeN x.target data }
      else if x.op = 5 && x.extent != 0 then receiveUnits s x.extent (x.target / 4096) data x.tarnish
      else if x.op = 5 then endFetch s x status
      else s
    if x.op = 0x101 then s else sendMsg s x.peer (xferDone x.num status (ceilDiv x.total 4096) (sha256 data))

/-- One flit of a transfer unit reaches its transfer (16 R602, R605). -/
def takeFlit (s : State) (x : Xfer) (f : Flit) : State :=
  if f.index != x.nextIndex then failXfer s x else
  let at0 := x.data.length / 16
  let tarn := ((List.range 32).filter (bitAt f.tarnish)).map (· + at0)
  let x' := { x with data := x.data ++ padTo 512 f.payload, tarnish := x.tarnish ++ tarn, nextIndex := if f.last then 0 else (f.index + 1) % 8, last := s.now }
  let s := s.stdM fun d => { d with inXfers := d.inXfers.map (fun y => if y.peer == x.peer && y.num == x.num then x' else y) }
  if ceilDiv x.total 512 * 512 ≤ x'.data.length then endXfer s x' else s

/-- The transfer that a unit flit names. -/
def xferOf (s : State) (peer num : Nat) : Option Xfer := s.std.inXfers.find? (fun x => x.peer == peer && x.num == num)

/-- A message that announces a transfer has arrived and is not yet taken. -/
def announced (s : State) (peer num : Nat) : Bool := s.std.inbox.any (fun m => (m.ty == 0x30 || m.ty == 0x44) && m.src == peer && m.fld 8 2 == num)

/-- A unit flit for this device (16 R605, R606): one that no transfer announces is discarded. -/
def unitArrives (s : State) (port : Nat) (f : Flit) : State :=
  match judge s port f.src f.epoch with
  | (s, false) => s
  | (s, true) =>
    match xferOf s f.src f.xfer with
    | some x => takeFlit s x f
    | none => if announced s f.src f.xfer then s.stdM fun d => { d with early := d.early ++ [f] } else s

/-- A transfer to this device begins: its unit flits that came before the message was taken follow (16 R605). -/
def beginXfer (s : State) (x : Xfer) : State :=
  let mine := fun (f : Flit) => f.src == x.peer && f.xfer == x.num
  let fs := s.std.early.filter mine
  let s := (dropIn s x).stdM fun d => { d with inXfers := d.inXfers ++ [{ x with last := s.now }], early := d.early.filter (fun f => !mine f) }
  let s := fs.foldl (fun s f => match xferOf s f.src f.xfer with | some y => takeFlit s y f | none => s) s
  if x.total = 0 then endXfer s x else s

/-- TRANSFER_TIMEOUT (16 R605). -/
def execTransferTimeout (peer num : Nat) (s : State) : Out :=
  match xferOf s peer num with
  | some x => when (s.lan.coreUp && due s (x.last + 100000) && !(x.op == 5 && x.target == imageTarget && x.total ≤ x.data.length)) s (failXfer s x)
  | none => .next s

/-- Routed traffic enters and leaves the mesh (16 Table 16-10); the boot ROM takes an image before firmware sets ROUTE_EN (18 R675, log 44). -/
def routed (s : State) : Bool := s.std.routeEn || s.lan.power == .boot

/-- A routed or forwarded message is taken and acted on where its epoch is accepted (16 R606). -/
def onRouted (s : State) (ty : Nat) (k : State → Msg → State) : Out :=
  if !routed s then .next s else
  onMsg s ty fun s m =>
    match judge s m.port m.src m.epoch with
    | (s, true) => k s m
    | (s, false) => s

/-- XFER_SETUP of a SEND: the extent that it writes, the staging area, or a FETCH of this device (14 R529; 18 R675; 04 R153). -/
def setupSend (s : State) (m : Msg) : State :=
  let num := m.fld 8 2
  let ext := m.fld 24 8
  let units := m.fld 12 4
  let image := m.fld 16 8 == imageTarget
  let x : Xfer := { peer := m.src, num := num, op := 5, target := m.fld 16 8, extent := ext, total := if image then m.fld 32 8 else 4096 * units, cookie := m.fld 40 8 }
  if image then (if s.lan.power == .boot then beginXfer s x else sendMsg s m.src (xferDone num 7 0 (zeros 32)))
  else if ext = 0 then beginXfer s x
  else match beginReceived s ext (ceilDiv (m.fld 32 8) 4096) with
    | none => sendMsg s m.src (xferDone num 2 0 (zeros 32))
    | some s => beginXfer s x

/-- XFER_SETUP of a FETCH: the parure or the T2 extent that the peer names is sent to it (04 R153; 09 Table 9-6). -/
def setupFetch (s : State) (m : Msg) : State :=
  if m.fld 24 8 != 0 then
    (match (s.extents.get? (m.fld 24 8)).bind (fun e => if e.sealed && e.tier == 2 && e.ckpt && serving s then some e else none) with
    | some e =>
      submit s { cookie := 0, op := 5, units := min (m.fld 12 4) e.units, src := m.fld 16 8, dst := m.fld 40 8, extent := m.fld 24 8, peer := m.src, epoch := s.std.epoch
                 purpose := .peerExt m.src (m.fld 24 8) }
    | none => sendMsg s m.src (xferDone (m.fld 8 2) 5 0 (zeros 32)))
  else
  match parureHandle s (m.fld 16 8) with
  | some (_, p) =>
    if p.state == .loaded && serving s then
      submit s { cookie := 0, op := 5, units := min (m.fld 12 4) (ceilDiv p.image.length 4096), src := m.fld 16 8, dst := m.fld 40 8, peer := m.src, epoch := s.std.epoch, purpose := .peer m.src }
    else sendMsg s m.src (xferDone (m.fld 8 2) 5 0 (zeros 32))
  | none => sendMsg s m.src (xferDone (m.fld 8 2) 5 0 (zeros 32))

/-- XFER_SETUP (16 R604, R605). -/
def execXferSetup (s : State) : Out :=
  onRouted s 0x30 fun s m =>
    if 4096 ≤ m.fld 8 2 then s
    else if m.fld 10 1 = 5 then setupSend s m
    else if m.fld 10 1 = 6 then setupFetch s m
    else sendMsg s m.src (xferDone (m.fld 8 2) 7 0 (zeros 32))

/-- XFER_DONE (16 R605): the transfer's number is free, and its descriptor has its status. -/
def execXferDone (s : State) : Out :=
  onRouted s 0x31 fun s m =>
    let num := m.fld 8 2
    match s.std.outXfers.find? (fun x => x.peer == m.src && x.num == num) with
    | none => s
    | some x =>
      let s := s.stdM fun d => { d with outXfers := d.outXfers.filter (fun y => !(y.peer == x.peer && y.num == x.num)) }
      let st := m.fld 10 1
      let mark := fun (d : Desc) =>
        if d.cookie == x.cookie && d.peer == x.peer && (d.op == 5 || (peerFetch s d && st != 0)) then { d with peerStatus := some (d.peerStatus.getD st) } else d
      s.curM fun c => { c with channels := c.channels.map (fun e => (e.1, mark e.2)) }

/-! ## Host windows in head mode (16 R615) -/

/-- This device is the head of a domain in head mode (15 R563). -/
def isHead (s : State) : Bool := s.std.modeInForce == 0 && s.std.position == some 0

/-- FWD_READ (16 R615). -/
def execFwdRead (s : State) : Out :=
  onRouted s 0x40 fun s m =>
    let r := bar0Read s (m.fld 16 4) (if m.fld 20 1 = 8 then 8 else 4)
    sendMsg r.1 m.src (mkMsg 0x42 [(8, 2, m.fld 8 2), (16, 8, leNat r.2.data), (24, 1, boolNat r.2.ur)])

/-- FWD_WRITE (16 R615): the device's own BAR0 is written. -/
def execFwdWrite (s : State) : Out :=
  onRouted s 0x41 fun s m => bar0Write s (m.fld 16 4) (bytesAt m.body 24 (if m.fld 20 1 = 8 then 8 else 4))

/-- FWD_CPL (16 R615): the head completes the host's read. -/
def execFwdCpl (s : State) : Out :=
  onRouted s 0x42 fun s m =>
    match s.std.fwdReads.find? (fun r => r.1 == m.fld 8 2 && r.2.1 == m.src) with
    | none => s
    | some r =>
      answer (s.stdM fun d => { d with fwdReads := d.fwdReads.filter (fun q => q.1 != r.1) },
              if m.fld 24 1 = 1 then { ur := true } else { data := bytesAt m.body 16 r.2.2 })

/-- HOST_READ (16 R615): `data` is what the head's link returned; its units go back under the transfer number of the message. -/
def execHostRead (data : List Byte) (s : State) : Out :=
  if !(isHead s && s.hif.linkUp) then .next s else
  onRouted s 0x43 fun s m =>
    if 4096 ≤ m.fld 8 2 then s
    else (xferFlits m.src (ownPos s) s.std.epoch 0 (m.fld 8 2) (padTo (m.fld 24 4) data)).foldl sendFlit s

/-- HOST_WRITE (16 R615): the head writes the units that follow to host memory. -/
def execHostWrite (s : State) : Out :=
  if !isHead s || s.integ.mode == .isolated then .next s else
  onRouted s 0x44 fun s m =>
    if 4096 ≤ m.fld 8 2 then s
    else beginXfer s { peer := m.src, num := m.fld 8 2, op := 0x100, target := m.fld 16 8, total := m.fld 24 4 }

/-- HOST_MSIX (16 R615): an MSI-X message is a write of its data to its address. -/
def execHostMsix (s : State) : Out :=
  if !isHead s || s.integ.mode == .isolated then .next s else
  onRouted s 0x45 fun s m => { s with hostMem := s.hostMem.writeN (m.fld 16 8) (bytesAt m.body 24 4) }

/-! ## Ports (16 R599 to R602, R609, R613, R614) -/

/-- The messages that a flit's payload holds; unused slots are zero (16 R603). -/
def flitMsgs (port : Nat) (f : Flit) : List Msg :=
  (((List.range 8).map (fun i => bytesAt f.payload (64 * i) 64)).filter (fun b => !zeroAt b 0 64)).map (fun b => { port := port, src := f.src, epoch := f.epoch, body := b })

/-- A message of this type is for the partner that it reaches, whatever its DEST: chain messages, beacons, and the membership messages that are flooded. -/
def linkMsg (ty : Nat) : Bool := ty < 0x21 || ty == 0x22 || ty == 0x23

/-- A flit in sequence reaches the station: it is for this device, or it goes on to its destination (16 R601, R613). A quarantined device takes chain
messages alone (13 R507). -/
def passFlit (s : State) (port : Nat) (f : Flit) : State :=
  let ty := fieldAt f.payload 0 1
  if f.kind = 1 && linkMsg ty then
    (if s.std.mode == .quarantined && 0x10 ≤ ty then s else s.stdM fun d => { d with inbox := d.inbox ++ flitMsgs port f })
  else if s.std.position.isNone || s.std.mode == .quarantined then s
  else if f.dest != ownPos s then sendFlit s f
  else if f.kind = 1 then s.stdM fun d => { d with inbox := d.inbox ++ flitMsgs port f }
  else if f.kind = 2 && routed s then unitArrives s port f
  else s

/-- FLIT_RECEIVE (16 R599, R600): bytes 0 to 531 after correction. -/
def execFlitReceive (port : Nat) (flit : List Byte) (s : State) : Out :=
  formed (decide (port < 8) && decide (flit.length = 532)) (
  when (s.lan.coreUp && portUp s port) s (
    if !flitOk flit then s.portM port fun p => { p with crc := wrapInc 32 p.crc, nak := true }
    else if fieldAt flit 524 1 != (s.port port).rxSeq then s.portM port fun p => { p with nak := true }
    else
      let f := readFlit flit
      let s := s.portM port fun p =>
        let p := applyLink { p with rxSeq := (p.rxSeq + 1) % 256 } (fieldAt flit 525 1) (fieldAt flit 526 2)
        if f.kind = 2 then { p with owed1 := p.owed1 + 1 } else { p with owed0 := p.owed0 + 1 }
      passFlit s port f))

/-- No earlier flit of the same source and destination waits for the port (16 R614). -/
def inOrder (q : List Flit) (f : Flit) : Bool := !((q.takeWhile (fun g => g != f)).any (fun g => g.src == f.src && g.dest == f.dest))

/-- The first flit of an XFER in a queue. -/
def nextOf (q : List Flit) (u : Nat × Nat) : Option Flit := q.find? (fun f => f.kind == 2 && f.src == u.1 && f.xfer == u.2)

/-- Units that may leave next: the first flit of each unit that waits, where order and credit let it (11 R418, R421). -/
def unitHeads (p : Port) : List Flit := if p.credit1 = 0 then [] else p.queue.filter (fun f => f.kind == 2 && inOrder p.queue f)

/-- A flit leaves the port: its SEQ, the ACK and the credits go with it, and it stays in the replay buffer (16 R599, R600). -/
def launch (s : State) (n : Nat) (f : Flit) : State :=
  s.portM n fun p =>
    let vc1 := p.owed0 = 0 && p.owed1 != 0
    let back := min (2 ^ 14 - 1) (if vc1 then p.owed1 else p.owed0)
    let credit := boolNat p.nak * 2 ^ 15 + boolNat vc1 * 2 ^ 14 + back
    { p with queue := p.queue.erase f, replay := p.replay ++ [f], txSeq := (p.txSeq + 1) % 256, nak := false
             sent := flitBytes f p.txSeq ((p.rxSeq + 255) % 256) credit
             owed0 := if vc1 then p.owed0 else p.owed0 - back, owed1 := if vc1 then p.owed1 - back else p.owed1
             credit0 := if f.kind = 2 then p.credit0 else p.credit0 - 1, credit1 := if f.kind = 2 then p.credit1 - 1 else p.credit1
             unit := if f.kind = 2 then (if f.last then none else some (f.src, f.xfer)) else p.unit
             altUse := p.altUse.set f.dest s.now }

/-- The oldest flit that a NAK asks for leaves again under its own SEQ; it takes no credit (16 R599). -/
def relaunch (s : State) (n : Nat) : State :=
  s.portM n fun p =>
    match p.replay[p.replay.length - p.resend]? with
    | none => p
    | some f => { p with resend := p.resend - 1, nak := false
                         sent := flitBytes f ((p.txSeq + 256 - p.resend % 256) % 256) ((p.rxSeq + 255) % 256) (boolNat p.nak * 2 ^ 15) }

/-- FLIT_FORWARD (16 R599 to R601; 11 R418 to R421): flits to be replayed leave first; messages leave ahead of units; the flits of a unit leave together; the
egress scheduler chooses the unit. -/
def execFlitForward (port : Nat) (s : State) : Out :=
  formed (decide (port < 8)) (
  let p := s.port port
  if !(s.lan.coreUp && portUp s port) then .next s else
  if p.resend != 0 then .next (relaunch s port) else
  if 128 ≤ p.replay.length then .next s else
  match (if p.credit0 = 0 then none else p.queue.find? (fun f => f.kind != 2 && inOrder p.queue f)) with
  | some f => .next (launch s port f)
  | none =>
    match p.unit.bind (nextOf p.queue) with
    | some f => when (p.credit1 != 0) s (launch s port f)
    | none =>
      let heads := unitHeads p
      match wfqSelect s (2 + port) ((heads.map flitFlow).eraseDups) false with
      | (_, none) => .next s
      | (s1, some k) =>
        match heads.find? (fun f => flitFlow f == k) with
        | none => .next s
        | some f =>
          let s2 := launch s1 port f
          .next (wfqCharge s2 (2 + port) k 1 ((unitHeads (s2.port port)).any (fun g => flitFlow g == k && (g.src, g.xfer) != (f.src, f.xfer))) false))

/-- What a port needs of its partner: port 0 of a position links only to port 1 of the one below (16 R609). -/
def wiredRight (own port partner partnerPort : Nat) : Bool :=
  if port = 0 then partner + 1 == own && partnerPort == 1
  else if port = 1 then partner == own + 1 && partnerPort == 0
  else true

/-- PORT_TRAINED (16 R596, R609): IDENT has been exchanged. -/
def execPortTrained (port lanes partner partnerPort : Nat) (s : State) : Out :=
  formed (decide (port < 8) && (lanes == 4 || lanes == 8) && decide (partner < 64) && decide (partnerPort < 8)) (
  let p := s.port port
  match s.std.position with
  | none => .next s
  | some own =>
    when (s.lan.coreUp && p.fence == 0 && (p.mode == .down || p.mode == .training)) s (
      let s1 := s.portM port fun p => { p with partner := partner, partnerPort := partnerPort, partnerValid := true }
      if !wiredRight own port partner partnerPort then stdEvent (s1.portM port fun p => { p with mode := .miswired, lanes := 0 }) 1
      else
        let s1 := s1.portM port fun p =>
          { p with mode := .up, lanes := lanes, txSeq := 0, rxSeq := 0, nak := false, replay := [], resend := 0, credit0 := 64, credit1 := 1024, owed0 := 0, owed1 := 0
                   unit := none, delayReq := none, lastDelay := none, lastBeacon := none }
        let s1 := settleEnum s1
        if port = 0 && s1.std.tail then recordCount s1 (own + 1) else s1))

/-- PORT_DOWN (16 R614): a port leaves UP; it trains again. -/
def execPortDown (port : Nat) (s : State) : Out :=
  formed (decide (port < 8)) (when (portUp s port) s (stopPort s port .training))

end Sys2Proof.Machine
end

