-- ==== Sys2Proof/Machine/Abft.lean ====
section
/-!
DEFINITION. Sys2Proof/Machine/Abft.lean: the residue checks of a compute tile (03 R106 to R108, R112).
-/
namespace Sys2Proof.Machine

/-- The modulus p = 2^61 − 1 (03 R106). -/
def abftP : Nat := 2 ^ 61 - 1

/-- The residue of an exact value a · 2^e: (a mod p) · 2^(e mod 61) mod p (03 R106). -/
def residue (d : Dyadic) : Nat := (d.m % (abftP : Int)).toNat * 2 ^ (d.e % 61).toNat % abftP

/-- The value of an element in the exact datapath that feeds the checks: a special element counts as zero (03 R108). -/
def exactOf : FV → Dyadic
  | .fin n m e => dyOf n m e
  | _ => { m := 0, e := 0 }

/-- The elements of a block times its scale; a block whose scale byte is 0xFF counts as zeros (03 R108). -/
def exactElems (b : Block) : List Dyadic :=
  match b.scale with
  | .fin n m e => b.elems.map (fun x => dyMul (exactOf x) (dyOf n m e))
  | _ => b.elems.map (fun _ => { m := 0, e := 0 })

/-- The block value of a block pair as the exact datapath forms it. -/
def exactBlock (w a : Block) : Dyadic := ((exactElems w).zip (exactElems a)).foldl (fun s e => dyAdd s (dyMul e.1 e.2)) { m := 0, e := 0 }

/-- Residues of the scaled elements of one operand column or row, in ascending k. -/
def elemResidues (bs : List Block) : List Nat := (bs.map (fun b => (exactElems b).map residue)).flatten

/-- Sums of residues, modulo p. -/
def sumMod (xs : List Nat) : Nat := xs.foldl (fun a x => (a + x) % abftP) 0

/-- Sums of several rows of residues, place by place, modulo p. -/
def sumRows (n : Nat) (rs : List (List Nat)) : List Nat := (List.range n).map (fun k => sumMod (rs.map (fun r => r.getD k 0)))

/-- Products of two rows of residues, summed modulo p. -/
def dotMod (xs ys : List Nat) : Nat := sumMod ((xs.zip ys).map (fun e => e.1 * e.2 % abftP))

/-- The error that faults add to the block value of one position and column, as residues (03 R112). -/
def errorAt (errs : List BlockError) (m n : Nat) : Nat :=
  sumMod ((errs.filter (fun x => x.pos == m && x.lane == n)).map (fun x => residue { m := x.diff, e := x.exp }))

/-- Σ_b r(BV(m, n, b)) as one cell observes it: the block values of a position and an output column, with the errors that faults make. -/
def observed (ws as : List (List Block)) (errs : List BlockError) (m n : Nat) : Nat :=
  (sumMod (((ws.getD n []).zip (as.getD m [])).map (fun e => residue (exactBlock e.1 e.2))) + errorAt errs m n) % abftP

/-- Length of the K range of a tile. -/
def kRange (as : List (List Block)) : Nat := ((as.headD []).map (fun b => b.elems.length)).foldl (· + ·) 0

/-- The row check of a position fails: O_m ≠ R_m with R_m = Σ_k r(a_mk × s_a) × cw_k (03 R107). -/
def rowFails (ws as : List (List Block)) (errs : List BlockError) (m : Nat) : Bool :=
  sumMod ((List.range ws.length).map (observed ws as errs m)) != dotMod (elemResidues (as.getD m [])) (sumRows (kRange as) (ws.map elemResidues))

/-- The column check of an output column fails: O_n ≠ R_n with R_n = Σ_k ca_k × r(w_kn × s_w) (03 R107). -/
def colFails (ws as : List (List Block)) (errs : List BlockError) (n : Nat) : Bool :=
  sumMod ((List.range as.length).map (fun m => observed ws as errs m n)) != dotMod (sumRows (kRange as) (as.map elemResidues)) (elemResidues (ws.getD n []))

/-- The outcome of a cell's checks of one tile: some row fails, some column fails (03 R107). -/
def abftFails (ws as : List (List Block)) (errs : List BlockError) : Bool × Bool :=
  ((List.range as.length).any (rowFails ws as errs), (List.range ws.length).any (colFails ws as errs))

end Sys2Proof.Machine
end

