-- ==== Sys2Proof/Machine/TileMath.lean ====
section
/-!
DEFINITION. Sys2Proof/Machine/TileMath.lean: what a tile reads and computes: scratch rows and window halves (03 R78, R79, R94), products into the
accumulators (02 R51 to R59), the combine (02 R58, 03 R84), attention over gathered and in-step entries (02 R61, R62; 05 R189, R190; 06 R215), REDUCE and
SELECT (03 Table 3-4), epilogue programs (04 R132, Table 4-6), their stores and deliveries (02 R69, 03 R85, 04 R133), and the taint of positions (13 R490).
The order of bytes inside SCR_IN, SCR_OUT and a KV entry, which the spec leaves to the compiler, is the model's choice of log 31.
-/
namespace Sys2Proof.Machine

/-! ## Positions of a tile -/

/-- A position-list entry for an index beyond the list. -/
def noEntry : PosEntry := { member := 0, node := false, closes := false, slot := 0, nodeNum := 0, pos := 0, gpos := 0xFFFFFFFF }

/-- The row of the length table and the locket of a member of the step or job that holds the Orrery. -/
def memberLocket (s : State) (member : Nat) : Option (Nat × Locket) :=
  match s.eph.holder with
  | .step c => ((ctxStep s c).bind (fun st => st.rows.find? (fun r => r.member == member))).bind (fun r => (s.lockets.get? r.handle).map (fun l => (r.handle, l)))
  | .job id => (findJob s id).bind (fun j => (s.lockets.get? j.target).map (fun l => (j.target, l)))
  | .none => none

/-- The locket whose position an index of the list names. -/
def posLocket (s : State) (ps : List PosEntry) (idx : Nat) : Option (Nat × Locket) := (ps[idx]?).bind (fun e => memberLocket s e.member)

/-- The home column of a position: the home stack of its session (05 R173). -/
def homeOf (s : State) (ps : List PosEntry) (idx : Nat) : Nat := ((posLocket s ps idx).map (·.2.home)).getD 0

/-- The session's symbols from its start up to a position, along the position's path (02 R56). -/
def posSyms (s : State) (ps : List PosEntry) (idx : Nat) : List Sym :=
  match ps[idx]?, posLocket s ps idx with
  | some e, some (_, l) =>
    match s.eph.holder with
    | .step c =>
      match ctxStep s c with
      | none => []
      | some st =>
        let r := st.rows.find? (fun r => r.member == e.member)
        let root := ((r.map (fun r => r.base + r.nIn)).getD 0)
        let t := st.trees.getD e.member {}
        let drafting := st.draftLevel.isSome
        let first := if drafting then root + 1 - draftContext (((draftSlot s c).map (slotImg s)).getD []) root else 0
        if e.node then (l.thread.take root).drop first ++ pathSyms t e.nodeNum else (l.thread.take (first + e.pos + 1)).drop first
    | _ => l.thread.take (e.pos + 1)
  | _, _ => []

/-! ## Scratch and window lines -/

/-- Bytes of a cell's scratch; beyond its 2 MiB nothing is read (03 R78, R79). -/
def scrRead (s : State) (cell off n : Nat) : List Byte :=
  let k := min n (2 ^ 21 - off)
  s.ory.scratch.readN (cell * 2 ^ 21 + off) k ++ zeros (n - k)

/-- A tarnished codeword lies in a run of a cell's scratch. -/
def scrBad (s : State) (cell off n : Nat) : Bool :=
  s.ory.scrTarn.any (fun c => cell * 2 ^ 21 + off < 16 * c + 16 && 16 * c < cell * 2 ^ 21 + min (off + n) (2 ^ 21))

/-- Bytes written to a cell's scratch, or canonical tarnish in their place; beyond its 2 MiB nothing is written (03 R79; 13 R482, R490). -/
def scrWrite (y : Ory) (cell off : Nat) (data : List Byte) (bad : Bool) : Ory :=
  let d := data.take (2 ^ 21 - off)
  let a := cell * 2 ^ 21 + off
  if bad then
    let ws := wordsOf a d.length
    { y with scratch := ws.foldl (fun m c => m.clear (16 * c) (16 * c + 16)) y.scratch, scrTarn := addMarks y.scrTarn ws }
  else { y with scratch := y.scratch.writeN a d, scrTarn := dropMarks y.scrTarn a d.length }

/-- Key of a byte of a logical cell's window slice. -/
def winKey (cell half off : Nat) : Nat := cell * 2 ^ 20 + half * 2 ^ 19 + off

/-! ## Rows of activations (03 Table 3-2; log 31) -/

/-- Query heads and KV heads of an ATTN sweep (03 R720). -/
def qHeads (sw : Sweep) : Nat := sw.n % 2 ^ 16

/-- KV heads of an ATTN sweep (03 R720). -/
def kvHeads (sw : Sweep) : Nat := sw.n / 2 ^ 16

/-- The format of a sweep's activations; a sweep whose AFMT is none reads FP32 (log 31). -/
def actFmt (sw : Sweep) : Fmt := if sw.afmt = 0 then .fp32 else (fmtOf sw.afmt).getD .fp32

/-- Elements of one position that one cell reads: its segment of K for a GEMM, otherwise the whole row. -/
def rowElems (sw : Sweep) : Nat := if sw.kind = 1 then sw.k / max 1 sw.nseg else if sw.kind = 2 then qHeads sw * sw.k else sw.n

/-- Bytes from one position's row to the next: whole scratch lines (log 31). -/
def rowStride (f : Fmt) (n : Nat) : Nat := ceilDiv (ceilDiv n 32 * blockBytes f) 64 * 64

/-- The input row of a position in a cell, as blocks, and whether it holds tarnish. The rows of a program's first sweep are the symbols' own
activations, an open value (log 51); the rows of every other sweep stand in scratch at SCR_IN. -/
def inputRow (s : State) (hash : Nat) (pr : Prog) (i : Nat) (ps : List PosEntry) (sw : Sweep) (cell seg idx : Nat) : List Block × Bool :=
  let f := actFmt sw
  let n := rowElems sw
  let bytes := ceilDiv n 32 * blockBytes f
  if i = pr.first then
    let facet := ((posLocket s ps idx).map (·.2.facetHash)).getD 0
    (readBlocks f ((List.range bytes).map (fun k => Config.inputByte hash i (posSyms s ps idx) facet (seg * bytes + k))) n, false)
  else
    let off := sw.scrIn + idx * rowStride f n
    (readBlocks f (scrRead s cell off bytes) n, scrBad s cell off bytes)

/-- The value of a storage format's element, widened exactly (04 Table 4-6). -/
def widen (b : Block) : List W32 := b.elems.map (fun e => encFV (fvMul b.scale e))

/-! ## Products (02 R51 to R59; 04 R134 to R138) -/

/-- Key of an accumulator or a sum: cell, position within the chunk, column within the chunk. -/
def accKey (cell m lane : Nat) : Nat := (cell * 4096 + m) * 128 + lane

/-- Key of a chunk in progress. -/
def chunkKey (t : TileRef) : Nat := t.mc * 2 ^ 20 + t.jj

/-- Chunks that a tile covers, as (logical column, chunk): column c owns chunk j when j mod 8 = c (03 R82). -/
def tileChunks (sw : Sweep) (jj : Nat) : List (Nat × Nat) := ((List.range 8).map (fun c => (c, 8 * jj + c))).filter (fun e => e.2 < sw.n / 128)

/-- Tile blocks that one fill of a half takes: U (04 R137). -/
def blocksPerFill (sw : Sweep) : Nat := max 1 (524288 / max 1 (tileBlock sw))

/-- Tile blocks of a per-cell image: one for each compute tile of a single position chunk (04 R136). -/
def imageBlocks (sw : Sweep) : Nat := max 1 (ownedChunks sw * tilesPerChunk sw)

/-- T1 address of a tile block of one cell's image (04 R134 to R136). -/
def weightAddr (p : Parure) (sw : Sweep) (block c i : Nat) : Nat :=
  p.weightBase.getD c 0 + sw.winSrc + i * sw.winBytes + block % imageBlocks sw * tileBlock sw

/-- Offset in its half of the block that a tile ordinal reads (04 R137). -/
def halfOff (sw : Sweep) (ord : Nat) : Nat := ord % blocksPerFill sw * tileBlock sw

/-- The weights of one output column of a tile, from the window half that the tile reads (03 R94). -/
def weightBlocks (s : State) (sw : Sweep) (half ord cell lane : Nat) : List Block :=
  let n := tileBlock sw / 128
  readBlocks ((fmtOf sw.wfmt).getD .bf16) (s.ory.window.readN (winKey cell half (halfOff sw ord + lane * n)) n) sw.tileK

/-- The activations of one position of a k-chunk: the blocks of the cell's row. -/
def chunkBlocks (row : List Block) (sw : Sweep) (kc : Nat) : List Block := (row.drop (kc * (sw.tileK / 32))).take (sw.tileK / 32)

/-- What a compute tile reads: the program's image facts, its sweep, its half and its positions. -/
structure TileIn where
  hash : Nat
  pr : Prog
  i : Nat
  sw : Sweep
  half : Nat
  t : TileRef
  ms : List Nat
deriving DecidableEq, Repr

/-- The rows of activations that one cell of a GEMM tile reads, position by position. -/
def cellRows (s : State) (ps : List PosEntry) (x : TileIn) (cell : Nat) : List (List Block × Bool) :=
  x.ms.map (inputRow s x.hash x.pr x.i ps x.sw cell (cell % 16))

/-- One compute tile of a GEMM: every cell of every owning column adds its block values to its accumulators, which start at +0 with the chunk's first
tile (02 R53, R57, R59; 03 R83). -/
def gemmTile (s : State) (ps : List PosEntry) (x : TileIn) (kc : Nat) : Tab W32 :=
  (tileChunks x.sw x.t.jj).foldl (fun acc e =>
    (List.range x.sw.nseg).foldl (fun acc i =>
      let cell := 16 * e.1 + i
      let rows := cellRows s ps x cell
      (List.range 128).foldl (fun acc lane =>
        let w := weightBlocks s x.sw x.half x.t.ord cell lane
        (rows.zipIdx).foldl (fun acc r =>
          let k := accKey cell r.2 lane
          acc.set k (chain (x.sw.wfmt == 8) (if kc = 0 then 0#32 else acc.getD k 0#32) (w.zip (chunkBlocks r.1.1 x.sw kc)))) acc) acc) acc) s.ory.acc

/-- The window holds a tarnished codeword of the block that a tile reads: the cell, and the offset in the block. -/
def badWeight (s : State) (x : TileIn) : Option (Nat × Nat) :=
  (tileChunks x.sw x.t.jj).findSome? (fun e => (List.range x.sw.nseg).findSome? (fun i =>
    let a := winKey (16 * e.1 + i) x.half (halfOff x.sw x.t.ord)
    (s.ory.winTarn.find? (fun c => a < 16 * c + 16 && 16 * c < a + tileBlock x.sw)).map (fun c => (16 * e.1 + i, 16 * c - a))))

/-- Positions of a compute tile that read tarnish: all of them where a weight is tarnished (13 R490). -/
def taintTile (s : State) (ps : List PosEntry) (x : TileIn) : List Nat :=
  if (badWeight s x).isSome then x.ms else
  x.ms.filter (fun idx => (tileChunks x.sw x.t.jj).any (fun e => (List.range x.sw.nseg).any (fun i => (inputRow s x.hash x.pr x.i ps x.sw (16 * e.1 + i) i idx).2)))

/-- Output columns of the chunk that a row still holds after a level: 128 / 2^level columns, the block whose number is the row's low bits reversed
(03 R84). -/
def bitrev : Nat → Nat → Nat
  | 0, _ => 0
  | n + 1, x => (x % 2) * 2 ^ n + bitrev n (x / 2)

/-- The columns that a row holds after a combine level. -/
def heldCols (level i : Nat) : List Nat :=
  let w := 128 / 2 ^ level
  (List.range w).map (· + bitrev level (i % 2 ^ level) * w)

/-- One piece of one combine level: rows i and i + 2^(level−1) exchange halves, and each adds the partner's partial to its own, with the lower row's value
first (02 R58; 03 R84, R89). -/
def combineTile (sums : Tab W32) (sw : Sweep) (t : TileRef) (level piece n : Nat) : Tab W32 :=
  (tileChunks sw t.jj).foldl (fun out e =>
    (List.range sw.nseg).foldl (fun out i =>
      let j := i ^^^ 2 ^ (level - 1)
      let lo := 16 * e.1 + min i j
      let hi := 16 * e.1 + max i j
      ((List.range (min 768 (n - 768 * piece))).map (· + 768 * piece)).foldl (fun out m =>
        (heldCols level i).foldl (fun out lane =>
          out.set (accKey (16 * e.1 + i) m lane) (fadd (sums.getD (accKey lo m lane) 0#32) (sums.getD (accKey hi m lane) 0#32))) out) out) out) sums

/-! ## Attention (02 R61, R62; 05 R189, R190; 06 R215) -/

/-- A running attention result: maximum, sum of weights and weighted values (02 R62). -/
structure Attn where
  m : W32
  l : W32
  o : List W32
deriving DecidableEq, Repr

/-- Two results are merged, one rounding per operation (02 R62, step 3). -/
def attnMerge (a b : Attn) : Attn :=
  let m := fmax a.m b.m
  let x := fexp2 (fsub a.m m)
  let y := fexp2 (fsub b.m m)
  { m := m, l := fadd (fmul a.l x) (fmul b.l y), o := (a.o.zip b.o).map (fun e => fadd (fmul e.1 x) (fmul e.2 y)) }

/-- The result of one key: its score as the maximum, weight 1 and its values. -/
def attnKey (score : W32) (vals : List W32) : Attn := { m := score, l := 0x3F800000#32, o := vals }

/-- Keys added one by one in ascending position (02 R62, step 2; log 32). -/
def attnFold : List Attn → Option Attn
  | [] => none
  | a :: as => some (as.foldl attnMerge a)

/-- Keys in runs that share a chunk of 1,024 positions aligned at position 0 (02 R61), in ascending chunk order. -/
def attnChunks (keys : List (Nat × Attn)) : List (List Attn) :=
  (((List.range ((keys.map (fun k => k.1 / 1024 + 1)).foldl max 0)).map (fun c => (keys.filter (fun k => k.1 / 1024 == c)).map (·.2)))).filter (fun x => !x.isEmpty)

/-- The output of one query head over its visible keys in ascending position: the chunks' results in ascending chunk order, then o × recip(l)
(02 R62). -/
def attnRow (hd : Nat) (keys : List (Nat × Attn)) : List W32 :=
  match attnFold ((attnChunks keys).filterMap attnFold) with
  | none => List.replicate hd 0#32
  | some a => a.o.map (fun v => fmul v (frecip a.l))

/-- The score of a query and a key: a product along the head dimension, each segment a chain, the segments combined by the pairwise tree (02 R51 to R58,
R62 step 1). -/
def attnScore (bf16 : Bool) (nseg : Nat) (q k : List Block) : W32 :=
  let n := q.length / max 1 nseg
  combine ((List.range nseg).map (fun i => chain bf16 0#32 (((k.drop (i * n)).take n).zip ((q.drop (i * n)).take n))))

/-- The stack and the layer of an ATTN sweep, as its epilogue's STACK op names them: LOCAL or not, and the layer index (04 Table 4-6). -/
def attnStack (img : List Byte) (sw : Sweep) : Bool × Nat := match (sweepOps img sw).head? with | some o => (o.mode == 1, o.arg) | none => (false, 0)

/-- Stored positions and global positions that a gather reads: all committed ones, or those that earlier passes of a recompute have written (05 R189, R207). -/
def storedUpTo (l : Locket) : Nat × Nat := if l.recomputing then (l.recNext, l.recGpos) else (l.base, l.gbase)

/-- Positions, or global indices, of the stored entries that the gather of one stack reads, in ascending order, the charm's first (05 R189). -/
def storedKeys (img : List Byte) (l : Locket) (loc : Bool) : List Nat :=
  let n := storedUpTo l
  if loc then let lo := n.1 + 1 - imgWindow img; (List.range (n.1 - lo)).map (· + lo)
  else List.range (if imgTwoRate img then n.2 else n.1)

/-- The place of an in-step entry in its stack: its position, or its global index where it closes a patch; none where the stack has no entry for it
(05 R188, R192). -/
def stepKey (img : List Byte) (loc : Bool) (e : PosEntry) : Option Nat :=
  if loc || !imgTwoRate img then some e.pos else if e.closes then some e.gpos else none

/-- Members whose stored entries a gather reads, in ascending member index: none in a draft run (06 R228). -/
def readers (s : State) : List (Nat × Locket) :=
  match s.eph.holder with
  | .step c => (((ctxStep s c).map (fun st => if st.draftLevel.isSome then st.rows.filter (fun r => ((st.trees.get? r.member).map (fun t => !t.open_.isEmpty)).getD false) else st.rows)).getD []).filterMap
      (fun r => if r.active then (s.lockets.get? r.handle).map (fun l => (r.handle, l)) else none)
  | .job id => match findJob s id with | some j => ((s.lockets.get? j.target).map (fun l => (j.target, l))).toList | none => []
  | .none => []

/-- A draft run holds the Orrery. -/
def draftRun (s : State) : Bool := match s.ory.prog with | some p => p.kind == 2 | none => false

/-- The stored entries that one cell of a column holds for a stack: (session, position) by ascending member and position, those whose chunk is the row's
modulo 16 (05 R190). -/
def rowStored (s : State) (img : List Byte) (loc : Bool) (c r : Nat) : List (Nat × Nat) :=
  if draftRun s then [] else
  (((readers s).filter (fun e => e.2.home == c)).map (fun e => ((storedKeys img e.2 loc).filter (fun k => k / 1024 % 16 == r)).map (fun k => (e.1, k)))).flatten

/-- The in-step entries that one cell of a column holds after the stored ones: position-list indices in order (05 R190; log 31). -/
def rowStep (s : State) (img : List Byte) (ps : List PosEntry) (loc : Bool) (c r : Nat) : List Nat :=
  ((ps.zipIdx).filter (fun e => homeOf s ps e.2 == c && ((stepKey img loc e.1).map (fun k => k / 1024 % 16 == r)).getD false)).map (·.2)

/-- Scratch offset of the k-th entry of a cell's gather buffer: SCR_AUX, e bytes each (05 R190). -/
def entryOff (img : List Byte) (sw : Sweep) (loc : Bool) (k : Nat) : Nat := sw.scrAux + k * (geom img loc).e

/-- The cell and the offset of a stored entry of a session. -/
def storedPlace (s : State) (img : List Byte) (sw : Sweep) (loc : Bool) (c h key : Nat) : Nat × Nat :=
  (16 * c + key / 1024 % 16, entryOff img sw loc ((firstIdx (fun e => e == (h, key)) (rowStored s img loc c (key / 1024 % 16))).getD 0))

/-- The cell and the offset of an in-step entry. -/
def stepPlace (s : State) (img : List Byte) (sw : Sweep) (ps : List PosEntry) (loc : Bool) (idx key : Nat) : Nat × Nat :=
  let c := homeOf s ps idx
  let r := key / 1024 % 16
  (16 * c + r, entryOff img sw loc ((rowStored s img loc c r).length + ((firstIdx (fun e => e == idx) (rowStep s img ps loc c r)).getD 0)))

/-- An in-step position is visible to a query: inputs see the inputs up to their own, nodes see every input and the nodes of their mask (06 R215). -/
def stepVisible (masks : List Nat) (q e : PosEntry) : Bool :=
  q.member == e.member && (if q.node then !e.node || bitAt (masks.getD q.nodeNum 0) e.nodeNum else !e.node && e.slot ≤ q.slot)

/-- The masks of a member's tree. -/
def treeMasks (s : State) (member : Nat) : List Nat :=
  match s.eph.holder with
  | .step c => (((ctxStep s c).bind (fun st => st.trees.get? member)).map (·.masks)).getD []
  | _ => []

/-- A key is inside the window of a local query (05 R166). -/
def inWindow (img : List Byte) (loc : Bool) (q : PosEntry) (key : Nat) : Bool := !loc || q.pos < key + imgWindow img

/-- The visible keys of a query in ascending position: each with the cell and offset of its entry (05 R166, R189, R190; 06 R215). -/
def visibleKeys (s : State) (img : List Byte) (sw : Sweep) (ps : List PosEntry) (idx : Nat) : List (Nat × Nat × Nat) :=
  let loc := (attnStack img sw).1
  let q := ps.getD idx noEntry
  let own := match posLocket s ps idx with
    | none => []
    | some (h, l) => if draftRun s then [] else
        ((storedKeys img l loc).filter (inWindow img loc q)).map (fun k => (k, storedPlace s img sw loc l.home h k))
  let now := ((ps.zipIdx).filterMap (fun e =>
    match stepKey img loc e.1 with
    | some k => if stepVisible (treeMasks s q.member) q e.1 && inWindow img loc q k then some (k, stepPlace s img sw ps loc e.2 k) else none
    | none => none))
  own ++ sortBy (fun a b => a.1 ≤ b.1) now

/-- The KV format of an ATTN sweep (03 R720). -/
def kvFmt (img : List Byte) (sw : Sweep) : Fmt := (fmtOf (attnFmt img sw)).getD .bf16

/-- The blocks of the entry of a visible key, and whether it holds tarnish. -/
def keyBlocks (s : State) (img : List Byte) (sw : Sweep) (p : Nat × Nat) : List Block × Bool :=
  let g := geom img (attnStack img sw).1
  (readBlocks (kvFmt img sw) (scrRead s p.1 p.2 g.e) (g.e / blockBytes (kvFmt img sw) * 32), scrBad s p.1 p.2 g.e)

/-- The attention results of one position, query heads in order, and whether tarnish was read. An entry holds the keys of the KV heads and then their
values, and consecutive query heads share a KV head (05 R162; log 31). -/
def attnResult (s : State) (hash : Nat) (img : List Byte) (pr : Prog) (i : Nat) (sw : Sweep) (ps : List PosEntry) (idx : Nat) : List W32 × Bool :=
  let keys := (visibleKeys s img sw ps idx).map (fun k => (k.1, keyBlocks s img sw k.2))
  let q := inputRow s hash pr i ps sw (16 * homeOf s ps idx) 0 idx
  let hb := sw.k / 32
  let row := (List.range (qHeads sw)).map (fun h =>
    let g := h * kvHeads sw / max 1 (qHeads sw)
    attnRow sw.k (keys.map (fun k =>
      (k.1, attnKey (attnScore (kvFmt img sw == .bf16) sw.nseg ((q.1.drop (h * hb)).take hb) ((k.2.1.drop (g * hb)).take hb))
        (((k.2.1.drop ((kvHeads sw + g) * hb)).take hb).map widen).flatten))))
  (row.flatten, q.2 || keys.any (fun k => k.2.2))

/-! ## REDUCE and SELECT (03 Table 3-4) -/

/-- The sorted list of a row: index and canonical value in the comparison order, a tie to the lower index (02 R63, R68, R70). -/
def selectTop (k : Nat) (row : List W32) : List (Nat × W32) :=
  (sortBy (fun (a b : Nat × W32) => rankLt b.2 a.2 || (!rankLt a.2 b.2 && a.1 ≤ b.1)) (row.zipIdx.map (fun e => (e.2, encFV (dec32 e.1))))).take k

/-- The experts that a mixture-of-experts router selects among the scores of a row, in ascending expert index (02 R63). -/
def routedExperts (k : Nat) (scores : List W32) : List Nat := sortBy (fun a b => a ≤ b) ((selectTop k scores).map (·.1))

/-- The weighted outputs of experts summed in ascending expert index, with one rounding per addition (02 R63). -/
def expertSum (outs : List (Nat × W32)) : W32 := (sortBy (fun (a b : Nat × W32) => a.1 ≤ b.1) outs).foldl (fun a e => fadd a e.2) 0#32

/-- The row of a position of a REDUCE or SELECT sweep as FP32 values, and whether it holds tarnish. -/
def plainRow (s : State) (hash : Nat) (pr : Prog) (i : Nat) (sw : Sweep) (ps : List PosEntry) (idx : Nat) : List W32 × Bool :=
  let r := inputRow s hash pr i ps sw (16 * homeOf s ps idx) 0 idx
  (((r.1.map widen).flatten).take sw.n, r.2)

/-- A position's results of a sweep that is no GEMM, and whether tarnish was read: heads in order; one sum formed in ascending element order; the values of
the sorted list (03 Table 3-4; log 31). -/
def rowResult (s : State) (hash : Nat) (img : List Byte) (pr : Prog) (i : Nat) (sw : Sweep) (ps : List PosEntry) (idx : Nat) : List W32 × Bool :=
  if sw.kind = 2 then attnResult s hash img pr i sw ps idx
  else
    let r := plainRow s hash pr i sw ps idx
    (if sw.kind = 3 then [r.1.foldl fadd 0#32] else (selectTop sw.k r.1).map (·.2), r.2)

/-- One run of 128 lanes that an epilogue works on: column, chunk, position within the tile, position-list index, the final sums and the position's taint. -/
structure Lanes where
  c : Nat
  j : Nat
  m : Nat
  idx : Nat
  v : List W32
  bad : Bool
deriving DecidableEq, Repr

/-- The row that holds the final sum of an output column of a chunk (03 R84). -/
def sumRow (sw : Sweep) (lane : Nat) : Nat := bitrev (combLevels sw) (lane / (128 / 2 ^ combLevels sw))

/-- Final sums of a chunk of a GEMM, each from the row that holds it (03 R84). -/
def gemmLanes (s : State) (sw : Sweep) (t : TileRef) (ms : List Nat) : List Lanes :=
  let sums := s.ory.sums.getD (chunkKey t) []
  let bad := s.ory.taint.getD (chunkKey t) []
  ((tileChunks sw t.jj).map (fun e => ms.zipIdx.map (fun x =>
    { c := e.1, j := e.2, m := x.2, idx := x.1, bad := bad.contains x.1
      v := (List.range 128).map (fun lane => sums.getD (accKey (16 * e.1 + sumRow sw lane) x.2 lane) 0#32) }))).flatten

/-- Results of the other sweeps in runs of 128 lanes, in the column of the position's home stack (05 R173). -/
def rowLanes (s : State) (hash : Nat) (img : List Byte) (pr : Prog) (ps : List PosEntry) (i : Nat) (sw : Sweep) (ms : List Nat) : List Lanes :=
  (ms.zipIdx.map (fun x =>
    let r := rowResult s hash img pr i sw ps x.1
    (List.range (ceilDiv r.1.length 128)).map (fun j =>
      let v := (r.1.drop (128 * j)).take 128
      ({ c := homeOf s ps x.1, j := j, m := x.2, idx := x.1, v := v ++ List.replicate (128 - v.length) 0#32, bad := r.2 } : Lanes)))).flatten

/-! ## Epilogue programs (04 R132, Table 4-6) -/

/-- The cells that hold 32 consecutive lanes of a run: the rows with the final sums of a GEMM's chunk, row 0 of the column otherwise (03 R84, 05 R190). -/
def blockCells (sw : Sweep) (x : Lanes) (b : Nat) : List Nat :=
  if sw.kind = 1 then (((List.range 32).map (fun k => 16 * x.c + sumRow sw (32 * b + k)))).eraseDups else [16 * x.c]

/-- The 128 elements of a vector in scratch. -/
def scratchLanes (s : State) (cell off : Nat) (f : Fmt) : List W32 :=
  ((readBlocks f (scrRead s cell off (4 * blockBytes f)) 128).map widen).flatten

/-- Scratch offset and format of an LDS operand for a run (04 Table 4-6). -/
def ldsPlace (sw : Sweep) (x : Lanes) (o : EpiOp) : Nat × Fmt :=
  let f := (fmtOf (o.mode % 16)).getD .bf16
  (sw.scrAux + 64 * o.arg + (if bitAt o.mode 4 then x.idx * (4 * blockBytes f) else 0), f)

/-- LDS: each cell that holds final sums reads the operand from its own scratch (03 R79, R84; log 33). -/
def loadLanes (s : State) (sw : Sweep) (x : Lanes) (o : EpiOp) : List W32 :=
  let p := ldsPlace sw x o
  ((List.range 4).map (fun b =>
    let cells := blockCells sw x b
    (List.range 32).map (fun k => (scratchLanes s (if sw.kind = 1 then 16 * x.c + sumRow sw (32 * b + k) else cells.headD 0) p.1 p.2).getD (32 * b + k) 0#32))).flatten

/-- An LDS operand that a run reads holds tarnish (13 R490). -/
def ldsBad (s : State) (sw : Sweep) (x : Lanes) (o : EpiOp) : Bool :=
  let p := ldsPlace sw x o
  o.op == 0x11 && ((List.range 4).any (fun b => (blockCells sw x b).any (fun c => scrBad s c p.1 (4 * blockBytes p.2))))

/-- The facet of a session: one that has not failed where there is one (13 R496). -/
def facetOf (s : State) (l : Locket) : Option Facet :=
  let fs := s.facets.filter (fun f => f.tenant == l.tenant && f.hash == l.facetHash && f.slot == l.slot)
  if l.facetHash = 0 then none else (fs.find? (fun f => !f.failed)).or fs.head?

/-- Layer of the ONE or GLOBAL stack that a sweep works in: the one that the last STACK op at or before it names (04 Table 4-10; log 34). -/
def layerOf (img : List Byte) (first i : Nat) : Nat :=
  (((List.range (i + 1 - first)).map (fun k => (sweepOps img (sweepAt img (first + k))).head?)).filterMap (fun o => match o with
    | some o => if o.op = 0x20 && o.mode != 1 then some o.arg else none
    | none => none)).getLast?.getD 0

/-- Offset in a facet image, and widths, of a layer's elements; none where the layout has no such layer. -/
def facetPlace (layer : Nat) : Nat → List (Nat × Nat × Nat) → Option (Nat × Nat × Nat)
  | _, [] => none
  | o, e :: es => if e.1 = layer then some (o, e.2.1, e.2.2) else facetPlace layer (o + layerBytes e) es

/-- FST (scales false) and FSC (scales true) for one run: BF16 elements, +0 or 1.0 beyond the width and where the sequence has no facet; a NaN is canonical (02 R68). -/
def facetLanes (s : State) (img : List Byte) (ps : List PosEntry) (first i : Nat) (x : Lanes) (scales : Bool) : List W32 :=
  let none_ : W32 := if scales then 0x3F800000#32 else 0#32
  match (posLocket s ps x.idx).bind (fun e => facetOf s e.2), facetPlace (layerOf img first i) 0 (facetLayers img) with
  | some f, some (o, sw, cw) =>
    (List.range 128).map (fun lane =>
      let n := 128 * x.j + lane
      if n < (if scales then cw else sw) then encFV (decBf16 (fieldAt f.image (o + 2 * ((if scales then sw else 0) + n)) 2)) else none_)
  | _, _ => List.replicate 128 none_

/-- Bytes of 32 values in an output format: BF16 and FP32 elements, or the scale byte and the packed elements of an MX block (02 R45, R69; 04 R136). -/
def packBlock (f : Fmt) (vs : List W32) : List Byte :=
  match f with
  | .bf16 => (vs.map (fun v => natLe 2 (toBf16 v))).flatten
  | .fp32 => (vs.map (fun v => natLe 4 (encFV (dec32 v)).toNat)).flatten
  | f => let b := toMx f vs; natLe 1 b.1 ++ natLe (4 * elemBits f) ((b.2.zipIdx).foldl (fun a e => a + e.1 * 2 ^ (elemBits f * e.2)) 0)

/-- The vector registers of a tile's run: none where no op has written. -/
structure EpiRegs where
  regs : List (Option (List W32)) := List.replicate 16 none
  /-- values stored, in order -/
  stored : List (List W32) := []
  /-- the register written last -/
  last : Option (List W32) := none
deriving DecidableEq, Repr

/-- A register's lanes; one that no op has written is an open value (log 30). -/
def regLanes (s : State) (hash i : Nat) (ps : List PosEntry) (x : Lanes) (r : EpiRegs) (k : Nat) : List W32 :=
  ((r.regs.getD k none)).getD ((List.range 128).map (fun lane =>
    Config.freeLane hash i (posSyms s ps x.idx) (((posLocket s ps x.idx).map (·.2.facetHash)).getD 0) ((x.j * 16 + k) * 128 + lane)))

/-- An arithmetic op on one lane: one vector-path operation (02 R64, 04 Table 4-6). -/
def laneOp (op : Nat) (a b c : W32) : W32 :=
  if op = 1 then fadd a b else if op = 2 then fsub a b else if op = 3 then fmul a b else if op = 4 then ffma a b c else if op = 5 then fmin a b
  else if op = 6 then fmax a b else if op = 7 then fexp2 a else if op = 8 then flog2 a else if op = 9 then frecip a else if op = 10 then frsqrt a else fsqrt a

/-- One epilogue op on one run (04 Table 4-6). DELIVER and STACK compute nothing; CONST gives a NaN in its canonical form (02 R68). -/
def epiOp (s : State) (hash : Nat) (img : List Byte) (ps : List PosEntry) (first i : Nat) (sw : Sweep) (x : Lanes) (r : EpiRegs) (o : EpiOp) : EpiRegs :=
  let put := fun (v : List W32) => { r with regs := r.regs.set o.dst (some v), last := some v }
  let g := regLanes s hash i ps x r
  if 1 ≤ o.op && o.op ≤ 0x0B then
    put ((List.range 128).map (fun n => laneOp o.op ((g o.a).getD n 0#32) ((g o.b).getD n 0#32) ((g o.c).getD n 0#32)))
  else if o.op = 0x10 then put x.v
  else if o.op = 0x11 then put (loadLanes s sw x o)
  else if o.op = 0x12 then put (facetLanes s img ps first i x false)
  else if o.op = 0x13 then put (facetLanes s img ps first i x true)
  else if o.op = 0x14 then put (List.replicate 128 (encFV (decBf16 o.arg)))
  else if o.op = 0x18 then { r with stored := r.stored ++ [g o.a] }
  else r

/-- The epilogue of a sweep on one run. -/
def epiRun (s : State) (hash : Nat) (img : List Byte) (ps : List PosEntry) (first i : Nat) (sw : Sweep) (x : Lanes) : EpiRegs :=
  (sweepOps img sw).foldl (epiOp s hash img ps first i sw x) {}

/-- The value that a run ends with: the register written last, or the final sums (log 35). -/
def runValue (x : Lanes) (r : EpiRegs) : List W32 := r.last.getD x.v

/-- Bytes from one position's stored row to the next, and of one chunk within it (log 31). -/
def outStride (sw : Sweep) (f : Fmt) (lanes : Nat) : Nat := rowStride f (if sw.kind = 1 then 128 * ownedChunks sw else ceilDiv lanes 128 * 128)

/-- Lanes of one position's result of a sweep that is no GEMM. -/
def resultLen (sw : Sweep) : Nat := if sw.kind = 2 then qHeads sw * sw.k else if sw.kind = 3 then 1 else sw.k

/-- ST: a run's 128 values converted to OFMT and written at SCR_OUT of the cells that hold them; a tainted position is written as canonical tarnish
(02 R69; 03 R85; 04 Table 4-6; 13 R490). The ops run in order, so a later ST of the same epilogue replaces an earlier one. -/
def storeRun (sw : Sweep) (y : Ory) (x : Lanes) (v : List W32) : Ory :=
  let f := (fmtOf sw.ofmt).getD .fp32
  let jj := if sw.kind = 1 then x.j / 8 else x.j
  (List.range 4).foldl (fun y b =>
    (blockCells sw x b).foldl (fun y cell =>
      scrWrite y cell (sw.scrOut + x.idx * outStride sw f (resultLen sw) + (4 * jj + b) * blockBytes f) (packBlock f ((v.drop (32 * b)).take 32)) x.bad) y) y

/-- The cells of a consumer sweep that read input index n of a position, and where: for a GEMM the row of its segment in every column, for the others every
row of the position's home column (04 R133; log 31). -/
def inputPlaces (s : State) (ps : List PosEntry) (cs : Sweep) (idx n : Nat) : List (Nat × Nat) :=
  let f := actFmt cs
  let len := rowElems cs
  let at_ := fun (k : Nat) => cs.scrIn + idx * rowStride f len + k / 32 * blockBytes f
  if cs.kind = 1 then (if n < cs.k then (List.range 8).map (fun c => (16 * c + n / max 1 len, at_ (n % max 1 len))) else [])
  else if n < len then (List.range 16).map (fun r => (16 * homeOf s ps idx + r, at_ n)) else []

/-- A sweep delivers KV entries to an ATTN sweep where it stores at the consumer's gather buffer, SCR_AUX (05 R190; log 31). -/
def deliversKv (sw cs : Sweep) : Bool := cs.kind == 2 && sw.scrOut == cs.scrAux

/-- DELIVER: a run's stored blocks go to the cells that read them as input of the consumer sweep; a KV entry goes to the row that owns its chunk
(03 R85; 04 R133; 05 R190). -/
def deliverRun (s : State) (img : List Byte) (ps : List PosEntry) (sw cs : Sweep) (y : Ory) (x : Lanes) (v : List W32) : Ory :=
  let f := (fmtOf sw.ofmt).getD .fp32
  (List.range 4).foldl (fun y b =>
    let data := packBlock f ((v.drop (32 * b)).take 32)
    let nb := 4 * x.j + b
    if deliversKv sw cs then
      let loc := (attnStack img cs).1
      match stepKey img loc (ps.getD x.idx noEntry) with
      | none => y
      | some key =>
        let p := stepPlace s img cs ps loc x.idx key
        if nb * blockBytes f + data.length ≤ (geom img loc).e then scrWrite y p.1 (p.2 + nb * blockBytes f) data x.bad else y
    else (inputPlaces s ps cs x.idx (32 * nb)).foldl (fun y p => scrWrite y p.1 p.2 data x.bad) y) y

/-- The value that the last ST at or before an op stored, if any: what DELIVER sends. -/
def storedBefore (hash : Nat) (s : State) (img : List Byte) (ps : List PosEntry) (first i : Nat) (sw : Sweep) (x : Lanes) (k : Nat) : Option (List W32) :=
  (((sweepOps img sw).take k).foldl (epiOp s hash img ps first i sw x) {}).stored.getLast?

/-- The stores and deliveries of one run, in op order. -/
def runStores (s : State) (hash : Nat) (img : List Byte) (ps : List PosEntry) (first i : Nat) (sw : Sweep) (y : Ory) (x : Lanes) : Ory :=
  ((sweepOps img sw).zipIdx).foldl (fun y o =>
    if o.1.op = 0x18 then (match storedBefore hash s img ps first i sw x (o.2 + 1) with | some v => storeRun sw y x v | none => y)
    else if o.1.op = 0x19 then
      (match storedBefore hash s img ps first i sw x o.2 with | some v => deliverRun s img ps sw (sweepAt img o.1.arg) y x v | none => y)
    else y) y

/-- The KV entries' blocks that a run delivers: stack, layer, offset in the entry and bytes. -/
def runEntries (s : State) (hash : Nat) (img : List Byte) (ps : List PosEntry) (first i : Nat) (sw : Sweep) (x : Lanes) : List (Bool × Nat × Nat × List Byte) :=
  let f := (fmtOf sw.ofmt).getD .fp32
  (((sweepOps img sw).zipIdx).map (fun o =>
    let cs := sweepAt img o.1.arg
    if o.1.op = 0x19 && deliversKv sw cs then
      match storedBefore hash s img ps first i sw x o.2 with
      | none => []
      | some v => (List.range 4).filterMap (fun b =>
          let off := (4 * x.j + b) * blockBytes f
          if off + blockBytes f ≤ (geom img (attnStack img cs).1).e then
            some ((attnStack img cs).1, (attnStack img cs).2, off, packBlock f ((v.drop (32 * b)).take 32)) else none)
    else [])).flatten

end Sys2Proof.Machine
end

