-- ==== Sys2Proof/Machine/Orrery.lean ====
section
/-!
DEFINITION. Sys2Proof/Machine/Orrery.lean: issue and commit of tiles (03 R86 to R96, R110), window fills (03 R92 to R96, 04 R137), KV gathers (05 R189 to
R191), cheap points, spills and restores (03 R97 to R105), and the jobs of the Orrery (10 R401 to R406).
-/
namespace Sys2Proof.Machine

/-! ## Window fills (03 R92 to R96; 04 R137, R138) -/

/-- Compute tiles of a whole sweep: one per block of its image for each position chunk (03 R86, 04 R136, R138). -/
def sweepTiles (ps : List PosEntry) (sw : Sweep) : Nat := ceilDiv (sweepM ps sw) (max 1 sw.tileM) * (ownedChunks sw * tilesPerChunk sw)

/-- Fills of a whole sweep: U consecutive tile blocks each, the last one the rest; none for a sweep without weights (04 R137, R138). -/
def sweepFills (ps : List PosEntry) (sw : Sweep) : Nat := if sw.wfmt = 0 then 0 else ceilDiv (sweepTiles ps sw) (blocksPerFill sw)

/-- Fills of the sweeps of a program before a sweep. -/
def fillsBefore (img : List Byte) (ps : List PosEntry) (p : Prog) (i : Nat) : Nat :=
  (List.range (i - p.first)).foldl (fun a k => a + sweepFills ps (sweepAt img (p.first + k))) 0

/-- Fill sequence number of the half that a tile reads; none for a tile that reads no weights (03 R94, 04 R137). -/
def tileFill (img : List Byte) (ps : List PosEntry) (p : Prog) (t : TileRef) : Option Nat :=
  let sw := sweepAt img t.sweep
  match t.kind with
  | .compute _ => if sw.wfmt = 0 then none else some (fillsBefore img ps p t.sweep + t.ord / blocksPerFill sw)
  | _ => none

/-- The first fill that a tile or any tile after it in issue order reads. -/
def fillFrom (img : List Byte) (ps : List PosEntry) (p : Prog) (t : TileRef) : Nat :=
  let sw := sweepAt img t.sweep
  let o := match t.kind with | .compute _ => t.ord | _ => t.ord + 1
  if sw.wfmt != 0 && o < sweepTiles ps sw then fillsBefore img ps p t.sweep + o / blocksPerFill sw else fillsBefore img ps p (t.sweep + 1)

/-- The sweep that a fill of a program belongs to; none past the last fill. -/
def fillSweep (img : List Byte) (ps : List PosEntry) (p : Prog) (f : Nat) : Option Nat :=
  ((List.range p.count).map (p.first + ·)).find? (fun i => fillsBefore img ps p i ≤ f && f < fillsBefore img ps p i + sweepFills ps (sweepAt img i))

/-- The tag of a fill of a program: the layer group of the sweep it belongs to (03 R92); none past the last fill. -/
def fillTag (img : List Byte) (ps : List PosEntry) (p : Prog) (f : Nat) : Option HalfTag :=
  (fillSweep img ps p f).map (fun i => { group := (sweepAt img i).group, seq := f % 2 ^ 16 })

/-- Marks of a destination for the tarnished codewords of a run of n bytes that is copied from a to b (13 R486). -/
def movedMarks (src : List Nat) (a b n : Nat) : List Nat :=
  ((src.filter (fun c => a < 16 * c + 16 && 16 * c < a + n)).map (fun c =>
    let lo := max a (16 * c)
    wordsOf (b + (lo - a)) (min (a + n) (16 * c + 16) - lo))).flatten

/-- One tile block of one cell's image crosses the rail: the data, and a tarnished codeword as tarnish (01 R26, R27; 13 R486). -/
def railBlock (s : State) (p : Parure) (sw : Sweep) (half block : Nat) (y : Ory) (cell : Nat) : Ory :=
  let a := weightAddr p sw block (cell / 16) (cell % 16)
  let b := winKey cell half (halfOff sw block)
  { y with window := y.window.copyFrom s.t1 a b (tileBlock sw), winTarn := addMarks y.winTarn (movedMarks s.integ.tarnishT1 a b (tileBlock sw)) }

/-- A fill of a half: the blocks that R137 gives it, in all 128 slices (01 R26, 04 R137, R138). -/
def railFill (s : State) (p : Parure) (img : List Byte) (ps : List PosEntry) (pr : Prog) (half f : Nat) (y : Ory) : Ory :=
  match fillSweep img ps pr f with
  | none => y
  | some i =>
    let sw := sweepAt img i
    let first := (f - fillsBefore img ps pr i) * blocksPerFill sw
    let y := { y with winTarn := y.winTarn.filter (fun c => !(16 * c % 2 ^ 20 / 2 ^ 19 == half)) }
    (List.range (min (blocksPerFill sw) (sweepTiles ps sw - first))).foldl (fun y k => (List.range 128).foldl (railBlock s p sw half (first + k)) y) y

/-- The 144 bits that a store of a cell holds of a codeword (13 R478, R480, R482). -/
def cellWord (m : Mem) (marks : List Nat) (c : Nat) : Nat := if marks.contains c then tarnishWord else encode (leNat (m.readN (16 * c) 16))

/-- A codeword of a cell's store with what its reader makes of it: the data, and the mark of tarnish (13 R481, R485). -/
def cellPut (m : Mem) (marks : List Nat) (c : Nat) : Option Nat → Mem × List Nat
  | some w => (m.writeN (16 * c) (natLe 16 (w % 2 ^ 128)), marks.filter (· != c))
  | none => (m.clear (16 * c) (16 * c + 16), addMarks marks [c])

/-- A codeword of the scratch or of the window slices as its reader leaves it. -/
def orySet (win : Bool) (c : Nat) (w : Option Nat) (y : Ory) : Ory :=
  if win then let r := cellPut y.window y.winTarn c w; { y with window := r.1, winTarn := r.2 }
  else let r := cellPut y.scratch y.scrTarn c w; { y with scratch := r.1, scrTarn := r.2 }

/-- The count of a correction: at a rail, or in a store of a cell (13 R486). -/
def countCorr (rail : Bool) (s : State) : State :=
  s.integM fun i => if rail then { i with meshCorr := wrapInc 32 i.meshCorr } else { i with sramCorr := wrapInc 32 i.sramCorr }

/-- A cell reads a codeword of its scratch or window slice, or takes one off its rail, with bits in error: it is corrected, or becomes tarnish with its count and
record (13 R481, R485, R486, Table 13-8). -/
def cellReads (rail : Bool) (s : State) (e : Bool × Nat × Nat) : State :=
  let y := s.ory
  let v := (if e.1 then cellWord y.window y.winTarn e.2.1 else cellWord y.scratch y.scrTarn e.2.1) ^^^ e.2.2
  let cell := if e.1 then e.2.1 / 2 ^ 16 else e.2.1 / 2 ^ 17
  let put := fun (s : State) (w : Option Nat) => s.oryM (orySet e.1 e.2.1 w)
  match classify v with
  | .clean => put s (some v)
  | .corrected w => countCorr rail (put s (some w))
  | .tarnish => put s none
  | .uncorrectable => logFault ((put s none).integM fun i => { i with tarnishMade := wrapInc 32 i.tarnishMade }) 0x02 (physOf s cell) cell 0 0 (boolNat rail)

/-- Codewords of a store of n codewords, each with its bits in error. -/
def wordsOk (n : Nat) (errors : List (Nat × Nat)) : Bool := errors.all (fun e => decide (e.1 < n) && decide (e.2 < 2 ^ 144))

/-- The tag that a half carries. -/
def halfTag (y : Ory) (h : Nat) : Option HalfTag := if h = 0 then y.halfA else y.halfB

/-- A half takes a tag. -/
def setHalf (y : Ory) (h : Nat) (t : Option HalfTag) : Ory := if h = 0 then { y with halfA := t } else { y with halfB := t }

/-! ## The tile that is next -/

/-- The program on the issue unit with its image and positions, where it has sweep descriptors of its own: a STEP, DRAFT or RECOMPUTE program (log 36). -/
def running (s : State) : Option (Progress × List Byte × Prog × List PosEntry) :=
  s.ory.prog.bind (fun p => if 1 ≤ p.kind && p.kind ≤ 3 then let img := slotImg s p.slot; some (p, img, programOf img p.kind, heldPositions s) else none)

/-- The tile that issues next: the oldest discarded one, otherwise the next of the program. -/
def upcoming (p : Progress) : Option TileRef := match p.discarded with | t :: _ => some t | [] => if p.issuedAll then none else some p.next

/-- Everything a tile waits for is resident: its half with the expected tag, no refetch owed, and an ATTN sweep's gather, which a draft run has none of
(03 R95, R96; 05 R191; 06 R228). -/
def tileReady (s : State) (p : Progress) (img : List Byte) (pr : Prog) (ps : List PosEntry) (t : TileRef) : Bool :=
  p.refetch.isEmpty && ((sweepAt img t.sweep).kind != 2 || p.kind == 2 || p.gathered.contains t.sweep) &&
  (match tileFill img ps pr t with
   | none => true
   | some f => (fillTag img ps pr f).isSome && halfTag s.ory (f % 2) == fillTag img ps pr f)

/-- The hold ends where the tile that waited is ready now. -/
def endHold (s : State) : State :=
  match running s with
  | some (p, img, pr, ps) =>
    match upcoming p with
    | some t => if s.ory.hold && tileReady s p img pr ps t then s.oryM fun y => { y with hold := false, mode := if y.mode == .windowHold then .run else y.mode } else s
    | none => s
  | none => s

/-! ## Cheap points (03 R97, R102) -/

/-- The compute tile of a sweep with an ordinal. -/
def tileOfOrd (sw : Sweep) (i ord : Nat) : TileRef :=
  let n := max 1 (tilesPerChunk sw)
  { sweep := i, mc := ord / n / max 1 (ownedChunks sw), jj := ord / n % max 1 (ownedChunks sw), kind := .compute (ord % n), ord := ord }

/-- A cheap point stands immediately before a tile. -/
def cheapBefore (img : List Byte) (ps : List PosEntry) (pr : Prog) (c : CheapPt) (t : TileRef) : Bool :=
  let sw := sweepAt img c.sweep
  if c.tile = 0xFFFFFFFF || tilesPerChunk sw = 0 then t == chunkTile sw c.sweep 0 0 0
  else decide (0 < sweepM ps sw) && nextTile img ps pr (tileOfOrd sw c.sweep c.tile) == some t

/-- The cheap point of a program that stands immediately before a tile. -/
def findCheap (img : List Byte) (ps : List PosEntry) (pr : Prog) (t : TileRef) : Option Nat :=
  ((List.range pr.count).map (fun k => let sw := sweepAt img (pr.first + k); (List.range sw.cpCount).map (· + sw.cpFirst))).flatten.find?
    (fun k => cheapBefore img ps pr (cheapAt img k) t)

/-- Issue is to stop at the next cheap point (03 R102, Table 3-9). -/
def stopAsked (s : State) : Bool := s.ory.preempt || s.ory.halt

/-- The cheap point at which the issue unit stands with everything before it committed: its index, or 0 for work without tiles of its own. -/
def standing (s : State) : Option Nat :=
  match s.ory.prog with
  | none => if s.eph.holder != .none then some 0 else none
  | some p =>
    match running s with
    | none => some 0
    | some (_, img, pr, ps) => if p.inFlight.isEmpty && p.discarded.isEmpty && !p.issuedAll then findCheap img ps pr p.next else none

/-- The work that holds the Orrery still runs: a step that has not sealed, or a job. -/
def spillable (s : State) : Bool :=
  holderUnsealed s && (s.ory.mode == .run || s.ory.mode == .windowHold || s.ory.mode == .toCheapPoint || s.ory.mode == .spill || s.ory.mode == .restore ||
    s.ory.mode == .replayWait)

/-- Spill size S of the cheap point at which the issue unit stands (03 R99); work without tiles of its own saves nothing (log 36). -/
def standingSize (s : State) (k : Nat) : Nat := match running s with | some (_, img, _, _) => spillSize img (cheapAt img k) | none => 0

/-- The spill image would pass the reservation (03 R105). -/
def spillOver (s : State) (k : Nat) : Bool := s.ory.spillLimit * 4096 < 128 * standingSize s k

/-- The image would pass: nothing is spilled, and the Orrery is in FAULT (03 R105, 13 R499). -/
def overflow (s : State) : State := deviceFault (s.oryM fun y => { y with spillOver := true, faultRow := y.faultRow }) 2

/-- At a cheap point with everything before it committed: a pre-emption starts its spill, and HALT stops issue (03 R102, R105, Table 3-9). -/
def reachCheap (s : State) : State :=
  match (if spillable s && stopAsked s && s.ory.mode != .restore then standing s else none) with
  | none => s
  | some k =>
    if !s.ory.preempt then s.oryM fun y => { y with mode := .halted, hold := false }
    else if spillOver s k then overflow s
    else s.oryM fun y => { y with mode := .spill, hold := false }

/-! ## TILE_ISSUE (03 R86, R95, R102, R111) -/

/-- The supply, the clock and the integrity unit permit issue, and the slot is not a COURIER slot (10 Table 10-3). -/
def powered (s : State) : Bool :=
  s.lan.power == .active && s.ory.enable && s.lan.lowSince.isNone && s.lan.refclk && !s.lan.stopped && !orreryLost s && s.integ.mode != .fence &&
  s.integ.mode != .quarantined && !inKind s 3

/-- The issue unit may issue a tile. -/
def mayIssue (s : State) : Bool :=
  powered s && (s.ory.mode == .run || s.ory.mode == .windowHold || s.ory.mode == .toCheapPoint || s.ory.mode == .replayWait)

/-- A tile leaves the issue unit: the program's next one is fixed (03 R86). -/
def issueTile (s : State) (img : List Byte) (ps : List PosEntry) (pr : Prog) (t : TileRef) : State :=
  s.oryM fun y =>
    { y with
      hold := false, sweep := t.sweep - pr.first, mode := if stopAsked s then .toCheapPoint else .run
      prog := y.prog.map (fun p =>
        match p.discarded with
        | _ :: rest => { p with discarded := rest, inFlight := p.inFlight ++ [t] }
        | [] =>
          let n := nextTile img ps pr t
          { p with inFlight := p.inFlight ++ [t], next := n.getD t, issuedAll := n.isNone }) }

/-- TILE_ISSUE (03 R86, R95, R102). -/
def execTileIssue (s : State) : Out :=
  match running s with
  | none => .next s
  | some (p, img, pr, ps) =>
    match upcoming p with
    | none => .next s
    | some t =>
      let stop := p.discarded.isEmpty && stopAsked s && (findCheap img ps pr t).isSome
      let ahead := p.inFlight.any (fun u => u.sweep != t.sweep)
      when (mayIssue s && !ahead) s (
        if stop then reachCheap s
        else if tileReady s p img pr ps t then issueTile s img ps pr t
        else s.oryM fun y => { y with hold := true, mode := if stopAsked s then .toCheapPoint else if y.mode == .replayWait then .replayWait else .windowHold })

/-! ## WINDOW_FILL_DONE and KV_GATHER_DONE -/

/-- The fill that may complete on a half: a refetch that is owed, contents that the next tile needs again, or the next fill in order, which the rails make
only once every tile that reads the half's present contents has committed (03 R93, R96). -/
def fillFor (s : State) (p : Progress) (img : List Byte) (pr : Prog) (ps : List PosEntry) (half : Nat) : Option Nat :=
  let out := (p.inFlight ++ p.discarded).filterMap (tileFill img ps pr)
  let need := out.foldl min (if p.issuedAll then p.fillSeq else min p.fillSeq (fillFrom img ps pr p.next))
  if p.refetch.contains half then some (if need % 2 = half then need else need + 1)
  else if need < p.fillSeq && need % 2 = half && halfTag s.ory half != fillTag img ps pr need then some need
  else if p.fillSeq % 2 = half && p.fillSeq ≤ need + 1 && (fillTag img ps pr p.fillSeq).isSome then some p.fillSeq
  else none

/-- The program whose rail fill may begin while the program before it spills: the pre-emptor's, where it has one (03 R103). -/
def preemptor (s : State) : Option (Nat × Nat) := (s.eph.candidate.bind (findJob s)).bind (fun j => if j.cls == .recompute && j.suspended.isNone then some (j.slot, 3) else none)

/-- The positions of the pre-emptor's program. -/
def preemptorPositions (s : State) : List PosEntry :=
  match s.eph.candidate.bind (findJob s) with
  | some j => ((s.lockets.get? j.target).map (fun l => passPositions s l j.models)).getD []
  | none => []

/-- A fill of the pre-emptor's program while the spill is under way: A first, then B (03 R93, R103). -/
def earlyFill (s : State) (half slot kind : Nat) : State :=
  let img := slotImg s slot
  let ps := preemptorPositions s
  let pr := programOf img kind
  let fresh := s.ory.prefill != some (slot, kind)
  let y := if fresh then { s.ory with halfA := none, halfB := none, prefill := some (slot, kind) } else s.ory
  if (if half = 0 then y.halfA.isNone else y.halfA.isSome && y.halfB.isNone) && (fillTag img ps pr half).isSome then
    s.oryM fun _ => railFill s (s.parures.getD slot {}) img ps pr half half (setHalf y half (fillTag img ps pr half))
  else s

/-- The running program's fill of a half completes (03 R93, R96; 04 R137). -/
def fillHalf (s : State) (half : Nat) : State :=
  match running s with
  | none => s
  | some (p, img, pr, ps) =>
    match fillFor s p img pr ps half with
    | none => s
    | some f =>
      let tag := fillTag img ps pr f
      endHold (s.oryM fun y =>
        { railFill s (s.parures.getD p.slot {}) img ps pr half f (setHalf y half tag) with
          prog := y.prog.map (fun p => { p with refetch := p.refetch.filter (· != half), fillSeq := max p.fillSeq (if tag.isSome then f + 1 else 0) }) })

/-- The cells take a fill off their rails; the codewords of the half that arrive with bits in error are corrected, or are tarnish (13 R486). -/
def railErrors (half : Nat) (errors : List (Nat × Nat)) (s : State) : State :=
  (errors.filter (fun e => 16 * e.1 % 2 ^ 20 / 2 ^ 19 == half)).foldl (fun s e => cellReads true s (true, e.1, e.2)) s

/-- WINDOW_FILL_DONE (03 R93, R96, R103; 04 R137), with the codewords of the half that the cells take off their rails with bits in error (13 R486). -/
def execWindowFillDone (half : Nat) (s : State) (errors : List (Nat × Nat) := []) : Out :=
  formed (decide (half < 2) && errors.all (fun e => decide (e.1 < 2 ^ 23) && decide (e.2 < 2 ^ 144))) (
  when (s.lan.refclk && orreryLost s == false && s.integ.mode != .fence) s (
    match (if s.ory.mode == .spill then preemptor s else none) with
    | some (slot, kind) => railErrors half errors (earlyFill s half slot kind)
    | none => if s.ory.mode == .spill then s else railErrors half errors (fillHalf s half)))

/-- The recompute of a session ends on tarnish: the session stays DROPPED, and the command that waits completes ST_TARNISHED (13 Table 13-3). -/
def failRecompute (s : State) (h : Nat) : State :=
  let waits := (liveCmds s).filter (fun c => c.opcode == 0x26 && ((s.lockets.get? h).map (fun l => l.pins.contains c.id)).getD false)
  let s := logFault (s.integM fun i => { i with tarnishConsumed := wrapInc 32 i.tarnishConsumed }) 0x03 0xC8 0xFF 0 (((s.lockets.get? h).map (·.session)).getD 0) 9
  let s := withdrawJoin (abandonRecompute s h) h stTarnished
  completeAll s (waits.map (·.id)) stTarnished

/-- A reader of tarnished data that its thread can rebuild ends (13 R492, R493). -/
def kvTarnish (s : State) (h row : Nat) : State :=
  match s.lockets.get? h with
  | none => s
  | some l => if l.recomputing then failRecompute s h else (tarnishSession s h 0xB1 row).locketM h fun l => { l with tarnished := true }

/-- T1 runs that hold a stored entry: in the charm's replica below the charm's length, otherwise in the session's own pages; each with its page of the
table that names it (05 R165, R170, R189). -/
def entryRuns (s : State) (img : List Byte) (l : Locket) (loc : Bool) (layer key : Nat) : List (Bool × Nat × Option Nat × Nat × Nat) :=
  let g := geom img loc
  let inCharm := !loc && decide (key < (if imgTwoRate img then l.charmGlen else l.charmLen))
  let x := if inCharm then layer * (charmGeom img false l.charmLen l.charmGlen).stride + key * g.e
    else entryAddr g loc layer (if loc then key % max 1 (imgWindow img) else ownSlot img l key)
  (pagesOf x g.e).map (fun v =>
    let lo := max x (v * 65536)
    let a := if inCharm then (attachedCharm s l).bind (fun c => replicaPlace s img c.2 l.home false lo) else kvPlace s l lo
    (inCharm, v, a, lo - x, min (x + g.e) (v * 65536 + 65536) - lo))

/-- A lookup of a page of a session or of its charm's replica (05 R179, R180). -/
def gatherLook (img : List Byte) (h : Nat) (l : Locket) (s : State) (p : Bool × Nat) : State × Bool :=
  if p.1 then
    match attachedCharm s l with
    | none => (s, false)
    | some (ci, m) => replicaLook ci l.home m s p.2
  else ownLook img h l s p.2

/-- One stored entry crosses the rail to the cell that owns its chunk: e bytes at its place of the gather buffer, tarnish as tarnish (05 R190; 01 R27;
13 R486). Bytes that no frame holds are undefined to the spec and read as unlisted memory. -/
def gatherEntry (s : State) (img : List Byte) (sw : Sweep) (loc : Bool) (layer h : Nat) (l : Locket) (y : Ory) (key : Nat) : Ory :=
  let p := storedPlace s img sw loc l.home h key
  (entryRuns s img l loc layer key).foldl (fun y r =>
    let b := p.1 * 2 ^ 21 + p.2 + r.2.2.2.1
    if 2 ^ 21 < p.2 + r.2.2.2.1 + r.2.2.2.2 then y else
    match r.2.2.1 with
    | none => { y with scratch := y.scratch.clear b (b + r.2.2.2.2), scrTarn := dropMarks y.scrTarn b r.2.2.2.2 }
    | some a => { y with scratch := y.scratch.copyFrom s.t1 a b r.2.2.2.2
                         scrTarn := addMarks (dropMarks y.scrTarn b r.2.2.2.2) (movedMarks s.integ.tarnishT1 a b r.2.2.2.2) }) y

/-- The gather of one session: its lookups in the TLB, its entries brought to the cells of its home column, the charm's first, and the tarnish that its walks
and entries meet (05 R179, R182, R189, R190; 13 Table 13-3). -/
def gatherMember (img : List Byte) (sw : Sweep) (s : State) (e : Nat × Locket) : State :=
  let l := e.2
  let st := attnStack img sw
  let keys := storedKeys img l st.1
  let runs := (keys.map (entryRuns s img l st.1 st.2)).flatten
  let pages := (runs.map (fun r => (r.1, r.2.1))).eraseDups
  let qc := looks (gatherLook img e.1 l) s (pages.filter (·.1))
  let q := looks (gatherLook img e.1 l) qc.1 (pages.filter (fun p => !p.1))
  let s1 := q.1.oryM fun y => keys.foldl (gatherEntry s img sw st.1 st.2 e.1 l) y
  let bad := fun (charm : Bool) => runs.any (fun r => r.1 == charm && (match r.2.2.1 with | some a => tarnishedRun s a r.2.2.2.2 | none => false))
  if q.2 || bad false then kvTarnish s1 e.1 1
  else if qc.2 || bad true then kvTarnish s1 e.1 4
  else s1

/-- KV_GATHER_DONE (05 R189 to R191): the gather of an ATTN sweep that is running or still ahead. -/
def execKvGatherDone (sweep : Nat) (s : State) : Out :=
  match running s with
  | none => .next s
  | some (p, img, pr, _) =>
    let sw := sweepAt img sweep
    when (s.ast.enable && s.lan.refclk && sw.kind == 2 && p.kind != 2 && pr.first ≤ sweep && sweep < pr.first + pr.count && p.next.sweep ≤ sweep &&
        !p.gathered.contains sweep) s (
      let s := (readers s).foldl (gatherMember img sw) s
      endHold (s.oryM fun y => { y with prog := y.prog.map (fun p => { p with gathered := p.gathered ++ [sweep] }) }))

/-! ## TILE_COMMIT (03 R110; 13 R491, R496) -/

/-- What a tile reads, from the program's facts. -/
def tileIn (p : Progress) (hash : Nat) (img : List Byte) (ps : List PosEntry) (pr : Prog) (t : TileRef) : TileIn :=
  let sw := sweepAt img t.sweep
  { hash := hash, pr := pr, i := t.sweep, sw := sw, half := ((tileFill img ps pr t).getD p.fillSeq) % 2, t := t, ms := tilePos ps sw t.mc }

/-- The first line of the parure that a tile reads and that is tarnished, as an offset in the image: its sweep descriptor, its weights as the window holds
them, its epilogue. -/
def parureLine (s : State) (p : Parure) (img : List Byte) (x : TileIn) : Option Nat :=
  let at_ := fun (base off n : Nat) => if tarnishedRun s (base + off) n then some off else none
  let sec := fun (ty off n : Nat) => (at_ (sectAddr p ty) off n).map (· + (sect img ty).off)
  (sec 2 (64 * x.i) 64).or (match x.t.kind with
    | .compute _ => if x.sw.wfmt = 0 then none else (badWeight s x).map (fun w =>
        (sect img 6).off + w.1 / 16 * imgColBytes img + x.sw.winSrc + w.1 % 16 * x.sw.winBytes + x.t.ord % imageBlocks x.sw * tileBlock x.sw + w.2)
    | .combine _ _ => none
    | .epilogue => if x.sw.epi = 0xFFFFFFFF then none else
        let e := epiAt img x.sw.epi
        (sec 3 (16 * x.sw.epi) 16).or (sec 3 e.1 (8 * e.2.1)))

/-- A tarnished line of the parure ends every consumer of the tile: every member of the step, or those that draft from it (13 Table 13-3, R496). -/
def consumeParure (s : State) (slot line : Nat) : State :=
  let draft := draftRun s
  let rs := readers s
  let s := parureTarnish s slot (line / 64)
  rs.foldl (fun s e => if e.2.recomputing then failRecompute s e.1 else tarnishSession s e.1 0xC8 (if draft then 8 else 7)) s

/-- The members at tainted positions end, once each (13 R490, Table 13-3). A tainted logit row ends its session only when the walk reads it (06 R244). -/
def consumeTaint (s : State) (ps : List PosEntry) (bad : List Nat) : State :=
  ((bad.filterMap (fun idx => (posLocket s ps idx).map (·.1))).eraseDups).foldl (fun s h =>
    match s.lockets.get? h with
    | none => s
    | some l => if l.recomputing then failRecompute s h else if (unsealedStep s h l).isSome then tarnishSession s h 0xC8 3 else s) s

/-- Sessions whose facet is read from tarnished lines end, and the facet is marked failed (13 Table 13-3, R496). -/
def consumeFacets (s : State) : State :=
  (readers s).foldl (fun s e =>
    match facetOf s e.2 with
    | none => s
    | some f =>
      if !tarnishedRun s f.addr f.image.length then s else
      let s : State := { s with facets := s.facets.map (fun g => if g.addr == f.addr then { g with failed := true } else g) }
      let s := parureTarnish s f.slot 0
      if e.2.recomputing then failRecompute s e.1 else tarnishSession s e.1 0xC8 6) s

/-- Bytes written to a step area. -/
def stageWrite (s : State) (h o : Nat) (data : List Byte) : State :=
  match s.lockets.get? h with
  | none => s
  | some l =>
    (pagesOf o data.length).foldl (fun s v =>
      let lo := max o (v * 65536)
      match kvPlace s l lo with
      | some a => t1Write s a ((data.drop (lo - o)).take (min (o + data.length) (v * 65536 + 65536) - lo))
      | none => s) s

/-- A run of canonical tarnish in T1 (13 R482, R485): the codewords that it touches. -/
def t1Tarnish (s : State) (a n : Nat) : State :=
  let ws := wordsOf a n
  { s with t1 := ws.foldl (fun m c => m.clear (16 * c) (16 * c + 16)) s.t1, integ := { s.integ with tarnishT1 := addMarks s.integ.tarnishT1 ws } }

/-- The run of a step area becomes canonical tarnish. -/
def stageTarnish (s : State) (h o n : Nat) : State :=
  match s.lockets.get? h with
  | none => s
  | some l => (pagesOf o n).foldl (fun s v =>
      let lo := max o (v * 65536)
      match kvPlace s l lo with
      | some a => t1Tarnish s a (min (o + n) (v * 65536 + 65536) - lo)
      | none => s) s

/-- A block of a KV entry that a position produces: to its stage slot in a step, to its canonical slot in a recompute; a draft run writes none (05 R192,
R207; 06 R228). -/
def storeEntry (img : List Byte) (ps : List PosEntry) (x : Lanes) (s : State) (k : Bool × Nat × Nat × List Byte) : State :=
  match ps[x.idx]?, posLocket s ps x.idx with
  | some e, some (h, l) =>
    match stepKey img k.1 e with
    | none => s
    | some key =>
      if draftRun s then s
      else if l.recomputing then
        kvWrite s h true (entryAddr (geom img k.1) k.1 k.2.1 (if k.1 then key % max 1 (imgWindow img) else ownSlot img l key) + k.2.2.1) k.2.2.2
      else
        let o := stageOff img k.1 k.2.1 e.slot + k.2.2.1
        if x.bad then stageTarnish s h o k.2.2.2.length else stageWrite s h o k.2.2.2
  | _, _ => s

/-- The runs of a tile give a step's logit rows their next 128 values; a row at a tainted position is a tarnished row (03 Table 3-2, LOGITS; 13 R490). -/
def addLogits (s : State) (vs : List (Lanes × List W32)) : State :=
  match s.eph.holder with
  | .step c => s.stepM c fun st =>
      { st with logits := vs.foldl (fun t e => t.set e.1.idx (t.getD e.1.idx [] ++ e.2)) st.logits
                tarnRows := vs.foldl (fun t e => if e.1.bad && !t.contains e.1.idx then t ++ [e.1.idx] else t) st.tarnRows }
  | _ => s

/-- LOGITS tiles are still to commit. -/
def logitsLeft (p : Progress) (img : List Byte) (pr : Prog) (ps : List PosEntry) : Bool :=
  (p.inFlight ++ p.discarded).any (fun t => (sweepAt img t.sweep).logits) ||
  (!p.issuedAll && (List.range pr.count).any (fun k => let sw := sweepAt img (pr.first + k); p.next.sweep ≤ pr.first + k && sw.logits && sweepM ps sw != 0))

/-- All final rows have arrived once no LOGITS tile is left (06 R234). -/
def noteRows (s : State) : State :=
  match running s, s.eph.holder with
  | some (p, img, pr, ps), .step c =>
    if p.kind != 1 || logitsLeft p img pr ps then s else s.stepM c fun st => { st with rowsAt := if st.rowsAt.isNone then some s.now else st.rowsAt }
  | _, _ => s

/-- A member's tree whose nodes beyond MAX_GLOBAL_POS, as BOUNDARY_SWEEP closes their patches, are removed with their descendants; the nodes keep their
numbers, as the freeze is past (05 R186; log 26). -/
def limitClosed (s : State) (rows : List LenRow) (ps : List PosEntry) (e : Nat × Tree) : Nat × Tree :=
  match (rows.find? (fun r => r.member == e.1)).bind (fun r => (s.lockets.get? r.handle).map (locketImg s)) with
  | none => e
  | some img =>
    let bad := (ps.filter (fun p => p.member == e.1 && p.node && p.closes && imgTwoRate img && imgMaxGlobal img ≤ p.gpos + 1)).map (·.nodeNum)
    (e.1, { e.2 with gone := ((e.2.gone ++ (bad.map (withBelow e.2)).flatten)).eraseDups })

/-- BOUNDARY_SWEEP has committed: the positions at which its value is greater than +0 close a patch, and the position list is formed anew (04 R140, 05 R188). -/
def noteModels (s : State) (idxs : List Nat) : State :=
  match s.eph.holder with
  | .step c => s.stepM c fun st =>
      let ms := st.models ++ idxs
      let ps := positionsOf s ms st.trees st.rows
      { st with models := ms, positions := ps, trees := st.trees.map (limitClosed s st.rows ps) }
  | .job id => s.ephM fun e => { e with jobs := e.jobs.map (fun j => if j.id == id then { j with models := j.models ++ idxs } else j) }
  | .none => s

/-- The tile after a BOUNDARY_SWEEP that has been issued whole is found on the new list. -/
def renext (s : State) (bs : Nat) : State :=
  match running s with
  | some (p, img, pr, ps) =>
    if p.inFlight.isEmpty && p.discarded.isEmpty && (p.issuedAll || p.next.sweep != bs) then
      let n := sweepFrom img ps (pr.first + pr.count - (bs + 1)) (bs + 1)
      s.oryM fun y => { y with prog := y.prog.map (fun p => { p with next := n.getD p.next, issuedAll := n.isNone }) }
    else s
  | none => s

/-- A tile is the last one of its chunk. -/
def endsChunk (img : List Byte) (ps : List PosEntry) (pr : Prog) (t : TileRef) : Bool :=
  match t.kind with
  | .epilogue => true
  | _ => match nextTile img ps pr t with
    | some n => n.sweep != t.sweep || n.mc != t.mc || n.jj != t.jj
    | none => true

/-- A combine piece leaves its partials as the compute lane formed them: the chunk's own bank is set aside when its last k-chunk commits (03 R86, R110). -/
def lastOfChunk (sw : Sweep) (t : TileRef) : Bool := match t.kind with | .compute kc => kc + 1 == tilesPerChunk sw | _ => false

/-- The arithmetic of a tile takes effect, and the positions that read tarnish are tainted: its accumulations, its combine piece (03 R110; 13 R490). -/
def commitSums (s : State) (ps : List PosEntry) (x : TileIn) : State :=
  match x.t.kind with
  | .compute kc =>
    let bad := if x.sw.kind = 1 then taintTile s ps x else []
    let acc := if x.sw.kind = 1 then gemmTile s ps x kc else s.ory.acc
    s.oryM fun y =>
      { y with
        acc := acc
        sums := if lastOfChunk x.sw x.t then y.sums.set (chunkKey x.t) acc else y.sums
        taint := if bad.isEmpty then y.taint else y.taint.set (chunkKey x.t) (addMarks (y.taint.getD (chunkKey x.t) []) bad) }
  | .combine level piece => if x.sw.kind != 1 then s else
      s.oryM fun y => { y with sums := y.sums.set (chunkKey x.t) (combineTile (y.sums.getD (chunkKey x.t) []) x.sw x.t level piece x.ms.length) }
  | .epilogue => s

/-- The runs of a chunk, each with its taint: an epilogue operand read for all positions taints every one of them (13 R490). -/
def chunkLanes (s : State) (img : List Byte) (ps : List PosEntry) (x : TileIn) : List Lanes :=
  let ls := if x.sw.kind = 1 then gemmLanes s x.sw x.t x.ms else rowLanes s x.hash img x.pr ps x.i x.sw x.ms
  let ops := sweepOps img x.sw
  ls.map (fun r => { r with bad := r.bad || ops.any (ldsBad s x.sw r) })

/-- The end of a chunk takes effect: its epilogue's stores and deliveries, KV entries, logits, the sorted lists of a SELECT, and the boundaries that it
decides (03 R110). -/
def commitChunk (s : State) (img : List Byte) (ps : List PosEntry) (x : TileIn) (ls : List Lanes) : State :=
  let rs := ls.map (fun r => (r, epiRun s x.hash img ps x.pr.first x.i x.sw r))
  let kv := (ls.map (fun r => (runEntries s x.hash img ps x.pr.first x.i x.sw r).map (fun k => (r, k)))).flatten
  let sel := if x.sw.kind = 4 then x.ms.map (fun idx => (idx, selectTop x.sw.k (plainRow s x.hash x.pr x.i x.sw ps idx).1)) else []
  let s1 := s.oryM fun y =>
    let y := ls.foldl (runStores s x.hash img ps x.pr.first x.i x.sw) y
    { y with sums := y.sums.erase (chunkKey x.t), taint := y.taint.erase (chunkKey x.t), selected := sel.foldl (fun t e => t.set e.1 e.2) y.selected }
  let s1 := kv.foldl (fun s k => storeEntry img ps k.1 s k.2) s1
  let s1 := if x.sw.logits then addLogits s1 (rs.map (fun e => (e.1, runValue e.1 e.2))) else s1
  let bs := sectFld img 7 18 2
  let s1 := if imgTwoRate img && sectFld img 7 1 1 == 3 && x.i == bs then
      noteModels s1 ((rs.filter (fun e => e.1.j == 0 && rankLt 0#32 ((runValue e.1 e.2).getD 0 0#32))).map (fun e => e.1.idx))
    else s1
  if x.sw.logits then s1 else consumeTaint s1 ps ((ls.filter (·.bad)).map (·.idx))

/-- The urgent charge ends with the commit of the job's last tile (10 R402). -/
def chargeLast (s : State) : State :=
  match s.ory.prog, s.eph.holder with
  | some p, .job id => if progDone p then match findJob s id with | some j => if j.urgent then endCharge s j else s | none => s else s
  | _, _ => s

/-- The lane of a tile: 0 compute, 1 combine (03 R86). -/
def laneOf (t : TileRef) : Nat := match t.kind with | .compute _ => 0 | _ => 1

/-- The oldest tile in flight in a lane that waits for none before it: a combine or epilogue tile follows the k-chunks of its own chunk (03 R86). -/
def oldestIn (p : Progress) (lane : Nat) : Option TileRef :=
  (p.inFlight.find? (fun t => laneOf t == lane)).bind (fun t =>
    if lane = 1 && p.inFlight.any (fun u => laneOf u == 0 && chunkKey u == chunkKey t && u.sweep == t.sweep) then none else some t)

/-- A tile in flight is committed: it leaves the flight, and the counters follow. -/
def retireTile (s : State) (t : TileRef) : State :=
  s.oryM fun y =>
    { y with
      tile := match t.kind with | .compute _ => t.ord | _ => y.tile
      prog := y.prog.map (fun p => { p with inFlight := p.inFlight.filter (· != t), lastDone := match t.kind with | .compute _ => some (t.sweep, t.ord) | _ => p.lastDone }) }

/-- A tile whose checks pass takes effect (03 R110, R102; 13 R491). -/
def commitTile (s : State) (par : Parure) (slot : Nat) (img : List Byte) (ps : List PosEntry) (pr : Prog) (p : Progress) (t : TileRef) : State :=
  let x := tileIn p par.hash img ps pr t
  let s1 := commitSums s ps x
  let ends := endsChunk img ps pr t
  let s2 := tilePassed (if ends then commitChunk s1 img ps x (chunkLanes s1 img ps x) else s1) t
  let s3 := retireTile s2 t
  let s3 := if imgTwoRate img && sectFld img 7 1 1 == 3 && t.sweep == sectFld img 7 18 2 then renext s3 (sectFld img 7 18 2) else s3
  let s3 := match parureLine s par img x with | some line => consumeParure s3 slot line | none => s3
  let s3 := if x.sw.facet && t.kind == .epilogue then consumeFacets s3 else s3
  let s3 := (readers s3).foldl (fun s e =>
    if e.2.recomputing && tarnishedRun s e.2.threadAddr (2 * e.2.base) then markUnusable (failRecompute s e.1) e.1 else s) s3
  reachCheap (chargeLast (noteRows s3))

/-- The codewords of the scratch and of the window slices that the cells read with bits in error. -/
def cellErrors (scratch window : List (Nat × Nat)) : List (Bool × Nat × Nat) := scratch.map (fun e => (false, e)) ++ window.map (fun e => (true, e))

/-- TILE_COMMIT (03 R110, R102; 13 R491): the oldest tile in flight of a lane, one of the sweep named, passes its checks; the operands name the codewords that
the cells read with bits in error while it runs (13 R485; log 69). -/
def execTileCommit (sweep lane : Nat) (scratch window : List (Nat × Nat)) (s : State) : Out :=
  formed (decide (lane < 2) && wordsOk (2 ^ 24) scratch && wordsOk (2 ^ 23) window) (
  match running s with
  | none => .next s
  | some (p, img, pr, ps) =>
    match oldestIn p lane with
    | none => .next s
    | some t =>
      when (t.sweep == sweep && s.lan.refclk && s.ory.mode != .fault && s.integ.mode != .fence) s
        (commitTile ((cellErrors scratch window).foldl (cellReads false) s) (s.parures.getD p.slot {}) p.slot img ps pr p t))

/-! ## TILE_FAULT (03 R107 to R111; 13 R487, R497, R498) -/

/-- The outcome of one cell's checks of a compute tile under errors in its exact datapath: (row fails, column fails) (03 R107). -/
def cellChecks (s : State) (ps : List PosEntry) (x : TileIn) (kc : Nat) (errs : List BlockError) (cell : Nat) : Bool × Bool :=
  abftFails ((List.range 128).map (weightBlocks s x.sw x.half x.t.ord cell)) ((cellRows s ps x cell).map (fun r => chunkBlocks r.1 x.sw kc))
    (errs.filter (fun e => e.cell == cell))

/-- The cells whose checks of a tile fail, in ascending order, and which checks failed: row, column, twin. The twin compares each rounding result with its
own; an accumulator parity error counts as a twin mismatch (03 R107, R109; 13 R487). -/
def failingCells (s : State) (ps : List PosEntry) (x : TileIn) (errs : List BlockError) (twins : List (Nat × W32 × W32)) (parity : List Nat) :
    List Nat × Bool × Bool × Bool :=
  let abft : List (Nat × Bool × Bool) := match x.t.kind with
    | .compute kc => if x.sw.kind = 1 then ((errs.map (·.cell)).eraseDups).map (fun c => (c, cellChecks s ps x kc errs c)) else []
    | _ => []
  let bad := abft.filter (fun e => e.2.1 || e.2.2)
  let tw := (twins.filter (fun e => e.2.1 != e.2.2)).map (·.1) ++ parity
  (sortBy (fun a b => a ≤ b) ((bad.map (·.1) ++ tw).eraseDups), bad.any (fun e => e.2.1), bad.any (fun e => e.2.2), !tw.isEmpty)

/-- TILE_FAULT (03 R107 to R111; 13 R487, R497, R498): errors in the exact datapath, pairs of results that the twin compares and accumulator parity errors
meet the oldest tile in flight of a lane, one of the sweep named. Where no check fails the tile is not faulty and nothing happens. -/
def execTileFault (sweep lane : Nat) (errs : List BlockError) (twins : List (Nat × W32 × W32)) (parity : List Nat) (s : State) : Out :=
  formed (decide (lane < 2) && errs.all (fun e => decide (e.cell < 128)) && twins.all (fun e => decide (e.1 < 128)) && parity.all (fun c => decide (c < 128))) (
  match running s with
  | none => .next s
  | some (p, img, pr, ps) =>
    match oldestIn p lane with
    | none => .next s
    | some t =>
      let x := tileIn p (s.parures.getD p.slot {}).hash img ps pr t
      match failingCells s ps x errs twins parity with
      | (cells, row, col, twin) =>
        when (t.sweep == sweep && s.ory.abftEn && s.lan.refclk && !cells.isEmpty && s.integ.mode != .fence && s.integ.mode != .deviceFault && s.ory.mode != .fault) s
          (tileFails s t cells row col twin))

/-! ## Pre-emption, spill and restore (03 R101 to R105) -/

/-- PREEMPT_REQUEST: the control complex writes ORY_PREEMPT.REQ (03 R102, Table 3-13). -/
def execPreemptRequest (s : State) : Out := when (fwRuns s && s.ory.enable && spillable s && !s.ory.preempt) s (reachCheap (askPreempt s))

/-- Accumulator bytes of one cell that a spill image holds: 65,536, position by position (03 R99; log 37). -/
def accBytes (acc : Tab W32) (cell : Nat) : List Byte := ((List.range 16384).map (fun k => natLe 4 (acc.getD (accKey cell (k / 128) (k % 128)) 0#32).toNat)).flatten

/-- The block of one logical cell (03 R101). -/
def spillBlock (s : State) (img : List Byte) (c : CheapPt) (cell : Nat) : List Byte :=
  ((liveOf img c).map (fun r => s.ory.scratch.readN (cell * 2 ^ 21 + r.1) r.2)).flatten ++ (if c.accLive then accBytes s.ory.acc cell else [])

/-- Offsets of the live ranges within a block: each range with where it stands (03 R101). -/
def liveOffs : Nat → List (Nat × Nat) → List (Nat × Nat × Nat)
  | _, [] => []
  | o, r :: rs => (o, r.1, r.2) :: liveOffs (o + r.2) rs

/-- The spill image of one cell is written, tarnish included (03 R101). -/
def writeBlock (img : List Byte) (c : CheapPt) (s : State) (cell : Nat) : State :=
  let base := s.ory.spillBase + cell * spillSize img c
  let s1 := t1Write s base (spillBlock s img c cell)
  let marks := ((liveOffs 0 (liveOf img c)).map (fun r => movedMarks s.ory.scrTarn (cell * 2 ^ 21 + r.2.1) (base + r.1) r.2.2)).flatten
  s1.integM fun i => { i with tarnishT1 := addMarks i.tarnishT1 marks }

/-- The spill image is written (03 R101). -/
def writeSpill (s : State) (img : List Byte) (c : CheapPt) : State := (List.range 128).foldl (writeBlock img c) s

/-- The holder is suspended: its progress, its accumulators and its image are kept, and the Orrery is released (03 R102, 10 R398, R402). -/
def suspend (s : State) (k : Nat) : State :=
  let p := s.ory.prog.getD { slot := 0, kind := 2 }
  let u : Suspended := { prog := { p with refetch := [] }, acc := s.ory.acc, cheap := k, base := s.ory.spillBase, size := standingSize s k }
  let free := fun (s : State) => (freeOrrery s).ephM fun e => { e with chargeFrom := if e.candidate.isSome then some s.now else none }
  match s.eph.holder with
  | .step c => free (s.ctxM c fun x => { x with suspended := some u })
  | .job id =>
    match findJob s id with
    | none => free s
    | some j =>
      let s := if j.urgent then endCharge s j else s
      free (s.ephM fun e => { e with jobs := e.jobs.map (fun i => if i.id == id then { i with suspended := some u } else i) })
  | .none => s

/-- SPILL_DONE (03 R101 to R103, R105). -/
def execSpillDone (s : State) : Out :=
  match (if s.ory.preempt && spillable s && powered { s with eph := { s.eph with running := false } } then if s.ory.mode == .restore then none else standing s else none) with
  | none => .next s
  | some k =>
    .next (if spillOver s k then overflow s else
      suspend (match running s with | some (_, img, _, _) => writeSpill s img (cheapAt img k) | none => s) k)

/-- The suspended record of the holder. -/
def heldSuspended (s : State) : Option Suspended :=
  match s.eph.holder with
  | .step c => (s.eph.ctxs.get? c).bind (·.suspended)
  | .job id => (findJob s id).bind (·.suspended)
  | .none => none

/-- The accumulators of one cell as 65,536 bytes of an image hold them, position by position; those beyond the image stay as they were kept (03 R104;
log 37). -/
def readAcc (s : State) (acc : Tab W32) (cell addr : Nat) : Tab W32 :=
  (List.range 16384).foldl (fun t k =>
    let v := BitVec.ofNat 32 (leNat (s.t1.readN (addr + 4 * k) 4))
    if t.getD (accKey cell (k / 128) (k % 128)) 0#32 = v then t else t.set (accKey cell (k / 128) (k % 128)) v) acc

/-- The live ranges of one cell return to the same scratch offsets, tarnish included, and its accumulators where ACC_LIVE is set (03 R104). -/
def readBlock1 (img : List Byte) (c : CheapPt) (u : Suspended) (s : State) (cell : Nat) : State :=
  let base := u.base + cell * u.size
  let offs := liveOffs 0 (liveOf img c)
  s.oryM fun y =>
    let y := offs.foldl (fun y r =>
      let b := cell * 2 ^ 21 + r.2.1
      { y with scratch := y.scratch.copyFrom s.t1 (base + r.1) b r.2.2
               scrTarn := addMarks (dropMarks y.scrTarn b r.2.2) (movedMarks s.integ.tarnishT1 (base + r.1) b r.2.2) }) y
    if c.accLive then { y with acc := readAcc s y.acc cell (base + offs.foldl (fun a r => a + r.2.2) 0) } else y

/-- The spill image is restored (03 R104). -/
def readSpill (s : State) (img : List Byte) (c : CheapPt) (u : Suspended) : State :=
  (List.range 128).foldl (readBlock1 img c u) (if c.accLive then s.oryM fun y => { y with acc := u.acc } else s)

/-- The halves that a cheap point names are refetched (03 Table 3-5, R104). -/
def refetchOf (c : CheapPt) : List Nat := (if bitAt c.flags 1 then [0] else []) ++ (if bitAt c.flags 2 then [1] else [])

/-- SPILL_RESTORE_DONE (03 R104): a tarnished image ends the sessions whose positions it holds (13 Table 13-3). -/
def execSpillRestoreDone (s : State) : Out :=
  match heldSuspended s with
  | none => .next s
  | some u =>
    when (s.ory.mode == .restore && powered { s with eph := { s.eph with running := false } }) s (
      let tiles := 1 ≤ u.prog.kind && u.prog.kind ≤ 3
      let img := slotImg s u.prog.slot
      let c := cheapAt img u.cheap
      let bad := tiles && tarnishedRun s u.base (128 * u.size)
      let s1 := if tiles then readSpill s img c u else s
      let s1 := s1.oryM fun y =>
        { y with prog := some { u.prog with refetch := if tiles then refetchOf c else [] }
                 halfA := none, halfB := none, mode := if stopAsked s then .toCheapPoint else .run }
      let s1 := match s.eph.holder with
        | .step n => s1.ctxM n fun x => { x with suspended := none }
        | .job id => s1.ephM fun e => { e with jobs := e.jobs.map (fun j => if j.id == id then { j with suspended := none } else j) }
        | .none => s1
      if bad then (readers s1).foldl (fun s e => if e.2.recomputing then failRecompute s e.1 else tarnishSession s e.1 0xC8 3) s1 else s1)

/-! ## Jobs (10 R401 to R406, Table 10-9) -/

/-- The class of a code: 0 RECOMPUTE, 1 SEARCH, 2 SELECT, 3 MERGE (10 Table 10-4). -/
def jobClass (n : Nat) : Option JobClass := if n = 0 then some .recompute else if n = 1 then some .search else if n = 2 then some .select else if n = 3 then some .merge else none

/-- Place of a command in the order of acceptance. -/
def acceptSeq (s : State) (id : Nat) : Nat := ((findCmd s id).map (·.accept)).getD 0 * 2 ^ 32 + id % 2 ^ 32

/-- The job of a class on a target whose conditions hold (05 R207; 12 R456, R463, R470). -/
def readyJob (s : State) (cls : JobClass) (target : Nat) : Option Job :=
  if s.eph.jobs.any (fun j => j.cls == cls && j.target == target) then none else
  match cls with
  | .recompute => (s.lockets.get? target).bind (fun l =>
      let copied := !l.ringDue && !(allDescs s).any (fun d => d.purpose == .ring target) && (doneFor s (.ring target)).isNone
      let there := match attachedCharm s l with | none => true | some (_, m) => replicaState m l.home == .present
      if l.recomputing && copied && !l.passDone && there && l.move.isNone then
        some { id := 0, cls := cls, tenant := l.tenant, target := target, slot := l.slot, wJob := imgRecTicks (locketImg s l), ready := l.recSince, seq := l.recSince * 2 ^ 32 }
      else none)
  | .search => (s.searches.find? (fun q => q.cmd == target)).bind (fun q =>
      match q.walkedAt, s.colls.get? q.coll with
      | some t, some k => if k.metric = 0 then none else
          some { id := 0, cls := cls, tenant := q.tenant, target := target, wJob := searchTicks k q, ready := t, seq := acceptSeq s target }
      | _, _ => none)
  | .select => (s.selects.find? (fun q => q.cmd == target)).bind (fun q =>
      q.fetchedAt.map (fun t => { id := 0, cls := cls, tenant := q.tenant, target := target, wJob := selectTicks q, ready := t, seq := acceptSeq s target }))
  | .merge => (s.colls.get? target).bind (fun k => k.merge.bind (fun m =>
      if m.horizon.isSome && m.stepsLeft != 0 && (freeUnit s).isSome && !walksQueued s then
        some { id := 0, cls := cls, tenant := k.tenant, target := target, wJob := mergeTicks k, ready := s.now
               seq := match m.cmd with | some id => acceptSeq s id | none => m.since * 2 ^ 32 }
      else none))

/-- JOB_READY (10 R404, R401). -/
def execJobReady (cls target : Nat) (s : State) : Out :=
  formed (decide (cls < 4)) (
  match (if serving s && !orreryLost s then (jobClass cls).bind (fun k => readyJob s k target) else none) with
  | none => .next s
  | some j =>
    let s := addJob s j
    .next (match serverOf s j.cls with
      | some k => if (serverAt s k).urgent then tryUrgent s else s
      | none => s))

/-- A recompute pass ends: it waits to be followed up, with the patch state after its positions (05 R207). -/
def endPass (s : State) (j : Job) : State :=
  match s.lockets.get? j.target with
  | none => s
  | some l =>
    let es := passPositions s l j.models
    s.locketM j.target fun l =>
      { l with passDone := true, recGpos := l.recGpos + (es.filter (·.closes)).length
               recRun := es.foldl (fun r e => if e.closes then 0 else r + 1) l.recRun }

/-- After an urgent job the next one that meets R401 runs before the victim resumes, and its charge starts at once (10 R403). -/
def chainUrgent (s : State) : State :=
  match slotNow s with
  | none => s
  | some e =>
    if e.kind != 1 || s.eph.leadPassed || s.eph.active.isNone then s else
    match urgentCandidate s e with
    | (s, some j, true) => s.ephM fun p => { p with candidate := some j.id, urgentCount := p.urgentCount + 1, urgent := wrapInc 32 p.urgent, chargeFrom := some s.now }
    | (s, _, _) => s

/-- A job leaves, and the Orrery is free (10 R406). -/
def leaveJob (s : State) (j : Job) : State :=
  let s := if j.urgent then endCharge s j else s
  let s := (freeOrrery s).ephM fun e => { e with jobs := e.jobs.filter (fun i => i.id != j.id) }
  if j.urgent then chainUrgent s else s

/-- JOB_END (10 R406): the job that holds the Orrery has committed its last tile. -/
def execJobEnd (s : State) : Out :=
  match s.eph.holder with
  | .job id =>
    match findJob s id, s.ory.prog with
    | some j, some p =>
      let done := if j.cls == .recompute then progDone p else s.ory.mode == .run || s.ory.mode == .toCheapPoint
      when (done && j.suspended.isNone && powered { s with eph := { s.eph with running := false } }) s (
        let s1 := leaveJob (if j.cls == .recompute then endPass s j else s) j
        match j.cls with
        | .recompute => s1
        | .search => match s1.searches.find? (fun q => q.cmd == j.target) with | some q => endSearch s1 q | none => s1
        | .select => match s1.selects.find? (fun q => q.cmd == j.target) with | some q => endSelect s1 q | none => s1
        | .merge => endMergeStep s1 j.target)
    | _, _ => .next s
  | _ => .next s

end Sys2Proof.Machine
end

