-- ==== Sys2Proof/Machine/Checkpoints.lean ====
section
/-!
DEFINITION. Sys2Proof/Machine/Checkpoints.lean: the rows of cuts and of SNAPSHOT, MANIFEST_READ and RESTORE (14 R526 to R557).
-/
namespace Sys2Proof.Machine

/-! ## Rows of a cut -/

/-- INSTACK_COPY_DONE (09 R331, 14 R526). -/
def execInstackCopyDone (stack : Nat) (s : State) : Out :=
  formed (decide (stack < 8)) (clocked s (
  let b := s.hbc.getD stack {}
  match b.copyQ with
  | [] => .next s
  | q :: _ => when (b.copyEn && b.mode == .ready) s (copyDone s stack q)))

/-- DRAIN_START (14 R529): the oldest cut in flight, when its captures and copies are complete. -/
def execDrainStart (s : State) : Out :=
  match s.ckpt.cuts with
  | [] => .next s
  | c :: _ =>
    when (serving s && c.phase == 0 && c.deferred.isEmpty && !copying s c.frame && s.std.buddy == some c.buddy) s (
      let s := formCut s c
      match findCut s c.frame with
      | some c => drainPhase (cutM s c.frame fun d => { d with phase := 1 }) { c with phase := 1 }
      | none => s)

/-- The SNAPSHOTs that a complete cut, or its copy on a coffer, ends (14 R545). -/
def endSnapshots (s : State) (n units : Nat) (copied : Bool) : State :=
  let mine := s.ckpt.snapshots.filter (fun p => p.cut == some n && (copied || !p.coffer))
  let s := s.ckptM fun k => { k with snapshots := k.snapshots.filter (fun p => !mine.contains p) }
  mine.foldl (fun s p => completeId s p.cmd stOk n units 0) s

/-- The oldest cut is complete (14 R533). -/
def completeCut (s : State) (c : Cut) : State :=
  let units := (c.extentBytes.length + c.manifest.length) / 4096
  let s := freeCut s c.frame
  let s := s.ckptM fun k => { k with cuts := k.cuts.drop 1, lastCut := c.frame, done := satInc k.done (2 ^ 32 - 1), lastUnits := units, last := c.newLast, heldExt := c.newExt }
  endSnapshots s c.frame units false

/-- CUT_COMPLETE (14 R533); `copied` tells that the buddy's coffer copy of the newest complete cut has sealed (14 R536, R545; log 40). -/
def execCutComplete (copied : Bool) (s : State) : Out :=
  clocked s (
  if copied then .next (endSnapshots s s.ckpt.lastCut s.ckpt.lastUnits true) else
  match s.ckpt.cuts with
  | [] => .next s
  | c :: _ => when (c.phase == 5) s (completeCut s c))

/-- A drain descriptor of a cut has failed (14 R534). -/
def drainFailed (s : State) (c : Cut) : Bool :=
  s.cur.done.any (fun r => r.purpose == Purpose.cut c.frame && (r.status == 2 || r.status == 5 || r.status == 6))

/-- CUT_ABANDON (14 R534): 0 a drain descriptor failed, 1 the buddy changed, 2 an in-stack copy was refused; a reset abandons cuts by its own row. -/
def execCutAbandon (reason : Nat) (s : State) : Out :=
  clocked s (
  let hit := s.ckpt.cuts.find? (fun c =>
    if reason = 0 then drainFailed s c
    else if reason = 1 then s.std.buddy != some c.buddy
    else reason == 2 && c.refused)
  match hit with
  | none => .next s
  | some c => .next (abandonFrom s c.frame))

/-! ## SNAPSHOT and MANIFEST_READ (14 R545, R546) -/

/-- SNAPSHOT. -/
def execSnapshot (id : Nat) (s : State) : Out :=
  hostCmd s id 0x50 fun s c =>
    if cutsOn s then s.ckptM fun k => { k with snapshots := k.snapshots ++ [{ cmd := c.id, coffer := c.flag 4 }] } else complete s c stInvalid 0 0 0

/-- The checkpoint extents at a source: a coffer bay, this device's T2, or what a peer answers (15 Table 15-9). -/
def sourceView (s : State) (source : Nat) (peer : View) : Option View :=
  if source < 4 then (if (s.bay source).mode == .mounted || (s.bay source).mode == .readOnly then some (bayStore s source) else some [])
  else if source = 0x10 then some (t2Store s)
  else if 0x40 ≤ source && source < 0x80 then some peer
  else none

/-- The store of an origin that BOOT names, 0 naming the newer one. -/
def pickBoot (x : View) (origin boot : Nat) : Option Nat := if boot = 0 then newerBoot x origin else if (bootsOf x origin).contains boot then some boot else none

/-- The manifest of a slot of a store. -/
def slotManifest (onCoffer : Bool) (x : View) (origin boot slot : Nat) : Option Extent := ((storeManifests x origin boot).find? (fun e => manSlot onCoffer e.2 == slot)).map (·.2)

/-- MANIFEST_READ. -/
def execManifestRead (id : Nat) (s : State) : Out :=
  hostCmd s id 0x52 fun s c =>
    let source := c.fld 16 1
    if !(source < 4 || source == 0x10) || 1 < c.fld 17 1 || !addrOk (c.fld 24 8) then complete s c stInvalid 0 0 0 else
    let x := (sourceView s source []).getD []
    match (pickBoot x c.handle (c.fld 18 3)).bind (fun b => (slotManifest (source < 4) x c.handle b (c.fld 17 1)).map (fun m => (b, m))) with
    | none => complete s c stUnknown 0 0 0
    | some (b, m) => submitPut s c (c.fld 24 8) (bytesAt m.data 0 4096) stOk (manCut m % 2 ^ 32) (boolNat (manifestValid s (storeExts x c.handle b) m.data))

/-! ## RESTORE (14 R547 to R557) -/

/-- A replay log as (session, entry), in log order (14 Table 14-10). -/
def readLog : Nat → List Byte → List (Nat × ReplayEntry)
  | 0, _ => []
  | fuel + 1, b =>
    if b.length < 64 then [] else
    let n := fieldAt b 2 2
    (fieldAt b 8 8, { kind := fieldAt b 0 1, beforeSeal := bitAt (fieldAt b 1 1) 0, atStep := fieldAt b 16 8, data := bytesAt b 64 n }) ::
      readLog fuel (b.drop (64 + ceilDiv n 64 * 64))

/-- Entries of 8 or 16 bytes. -/
def readSessions (n : Nat) (b : List Byte) : List Nat := (List.range n).map (fun i => fieldAt b (8 * i) 8)

/-- The resume list (14 R553). -/
def readResume (n : Nat) (b : List Byte) : List (Nat × Nat) := (List.range n).map (fun i => (fieldAt b (16 * i) 8, fieldAt b (16 * i + 8) 8))

/-- One piece read back: its key, its bytes and its digest (14 R530, R531, R543, R550). `fp` is the fingerprint that the record names. -/
def readPiece (s : State) (v : View) (tenant : Nat) (fp : Option Nat) (e : List Byte) : (Nat × Nat) ⊕ Piece :=
  let off := fieldAt e 16 4
  match cutExt v (fieldAt e 8 8), viewUnits v (fieldAt e 8 8) off 1 with
  | some x, some b =>
    let slot := fieldAt e 20 1
    let tarn := (x.2.tarnish.filter (fun t => t / 256 == off)).map (· % 256)
    let go := fun (plain : List Byte) =>
      if sha256 (blankTarnish 0 tarn plain) != bytesAt e 24 32 then .inl (stTarnished, 0x15)
      else .inr { kind := fieldAt e 0 1, charm := fieldAt e 1 3, index := fieldAt e 4 4, data := plain, tarn := tarn, tenant := some tenant }
    if slot = 0xFF then go b else
    match (s.keys.getD tenant {}).slot slot with
    | none => .inl (stInvalid, 0x10)
    | some k => if (fp.map (· != keyFp k)).getD false then .inl (stInvalid, 0x10) else go (xtsUnit false k (x.1 * 2 ^ 64 + off) b)
  | _, _ => .inl (stTarnished, 0x15)

/-- The entries that a chain of records gives, each with its record: control page and packets of the newest, every other piece of the newest record that holds
it (14 R539). -/
def chainEntries (chain : List (List Byte)) : List (List Byte × List Byte) :=
  let all := chain.zipIdx.map (fun r => ((shardEntries r.1).filter (fun e => r.2 == 0 || (fieldAt e 0 1 != 1 && fieldAt e 0 1 != 4))).map (fun e => (r.1, e)))
  (all.flatten).foldl (fun acc x => if acc.any (fun y => y.2.take 8 == x.2.take 8) then acc else acc ++ [x]) []

/-- Every piece of a chain, or the first failure. -/
def chainPieces (s : State) (v : View) (chain : List (List Byte)) (tenantOf : Nat → Nat) (checkFp : Bool) : (Nat × Nat) ⊕ List Piece :=
  let absent := bitAt (fieldAt (chain.headD []) 11 1) 1
  ((chainEntries chain).filter (fun x => !(absent && fieldAt x.2 0 1 == 3))).foldl (fun acc x => match acc with
    | .inl f => .inl f
    | .inr ps => match readPiece s v (tenantOf (fieldAt x.2 1 3)) (if checkFp then some (fieldAt x.1 106 4) else none) x.2 with
      | .inl f => .inl f
      | .inr p => .inr (ps ++ [p])) (.inr [])

/-- The unit of a kind and index among pieces, and its tarnish; a missing unit is zero. -/
def unitOf (ps : List Piece) (kind charm index : Nat) : Piece :=
  (ps.find? (fun p => p.kind == kind && p.charm == charm && p.index == index)).getD { kind := kind, data := zeros 4096 }

/-- A locket's pieces as the plaintext of a parked extent, with header and tarnish (14 R539, 08 Table 8-10). -/
def assemble (ps : List Piece) (absent : Bool) (tenant session : Nat) : ExtHead × List Byte × List Nat :=
  let page := unitOf ps 1 0 0
  let n := fieldAt page.data 112 4
  let thrUnits := ceilDiv (2 * n) 4096
  let thr := (List.range thrUnits).map (unitOf ps 2 0)
  let vpns := if absent then [] else sortBy (fun a b => a ≤ b) (((ps.filter (fun p => p.kind == 3)).map (fun p => p.index / 16)).eraseDups)
  let kv := (vpns.map (fun v => (List.range 16).map (fun u => unitOf ps 3 0 (16 * v + u)))).flatten
  let pages := vpns.map (fun v => (v, (((List.range 16).map (fun u => (unitOf ps 3 0 (16 * v + u)).data)).flatten)))
  let base := 512 + 256 * thrUnits + 1536
  let tarn := (((page :: thr).zipIdx).map (fun e => e.1.tarn.map (· + 256 + 256 * e.2))).flatten ++ (kv.zipIdx.map (fun e => e.1.tarn.map (· + base + 256 * e.2))).flatten
  ({ kv := !absent, tenant := tenant, threadUnits := thrUnits, pages := vpns.length, session := session },
   page.data ++ (thr.map (·.data)).flatten ++ (if absent then [] else kvUnits pages), tarn)

/-- The pages of an extent's plaintext are written to their frames, tarnish as tarnish (14 R539; 09 R342). -/
def fillPages (s : State) (home : Nat) (hd : ExtHead) (plain : List Byte) (tarn : List Nat) (fs : List Nat) : State :=
  let first := 8 + hd.threadUnits
  ((frameUnits s home (fs.take hd.pages)).zipIdx).foldl (fun s e =>
    unitPut s e.1 (bytesAt plain (4096 * (first - 1 + e.2)) 4096) ((tarn.filter (fun t => t / 256 == first + e.2)).map (· % 256))) s

/-- The control page and the thread of a locket built from pieces hold tarnish where its origin held it (14 R531). -/
def tarnishBody (s : State) (h : Nat) (hd : ExtHead) (tarn : List Nat) : State :=
  match s.lockets.get? h with
  | none => s
  | some l =>
    let marks := tarn.filterMap (fun t =>
      if t / 256 = 1 then some (l.page / 16 + t % 256) else if 2 ≤ t / 256 && t / 256 < 2 + hd.threadUnits then some (l.threadAddr / 16 + (t - 512)) else none)
    s.integM fun i => { i with tarnishT1 := addMarks i.tarnishT1 marks }

/-- A locket is built in T1 under a new handle; none where a directory entry, arena or pages are lacking (14 R549, 08 R304). -/
def install (s : State) (tenant session : Nat) (ttls : List Nat) (hd : ExtHead) (plain : List Byte) (tarn : List Nat) (revive : Bool) : Option (State × Nat) :=
  let w := warmFrom {} hd plain
  match loadedHash s w.parureHash, s.lockets.freshFrom (s.lockets.length + 1) 0 with
  | some (slot, p), some h =>
    if s.lan.config.locketMax ≤ h then none else
    let home := homeStack s
    let rec_ := revive && !hd.kv
    let n := hd.pages + (if rec_ then (recomputePages p.image w.base w.gbase w.charmLen w.charmGlen).length else 0)
    match arenaFit s home (locketArena s tenant p.image) with
    | none => none
    | some page =>
      match takeFrames s home n (.inUse h) with
      | (_, none) => none
      | (s, some fs) =>
        let l : Locket := { session := session, tenant := tenant, state := .promoting, slot := slot, footprint := locketArena s tenant p.image
                            ttl1 := ttls.getD 0 0, ttl2 := ttls.getD 1 0, ttl3 := ttls.getD 2 0 }
        let m : TierMove := { src := 2, home := home, frames := fs, page := page }
        let s := fillPages (buildPromoted { s with lockets := s.lockets.set h l } h l m hd plain) home hd plain tarn fs
        let s := tarnishBody s h hd tarn
        if !rec_ then some (s, h) else
        match claimReplica s h tenant w.charmDigest home with
        | some s => some (beginRecompute s h fs s.now false, h)
        | none => none
  | _, _ => none

/-- One report entry (14 Table 14-9). -/
def reportEntry (l : Option (Nat × Locket)) (session status context member tenant acked resume detail : Nat) (absent : Bool) : List Byte :=
  natLe 8 session ++ natLe 4 ((l.map (·.1)).getD 0xFFFFFFFF) ++ natLe 1 status ++ natLe 1 ((l.map (fun e => locketCode e.2.state)).getD 0) ++ natLe 1 context ++
  natLe 1 (maskOf [(l.map (·.2.replay)).getD false, absent, (l.map (·.2.stm.generating)).getD false]) ++ natLe 2 member ++ natLe 2 tenant ++
  natLe 4 ((l.map (·.2.thread.length)).getD 0) ++ natLe 8 ((l.map (·.2.smp.stepIndex)).getD 0) ++ natLe 8 ((l.map (·.2.stm.nextSeq)).getD 0) ++ natLe 8 acked ++
  natLe 8 resume ++ natLe 4 detail ++ zeros 4

/-- Facet and charm that a locket's identity block names are at hand (08 Table 8-7). -/
def namesOk (s : State) (tenant : Nat) (w : Locket) : Option (Nat × Nat) :=
  match loadedHash s w.parureHash with
  | none => some (stUnknown, 0x11)
  | some (slot, _) =>
    if w.facetHash != 0 && !s.facets.any (fun f => f.handle != 0 && f.tenant == tenant && f.hash == w.facetHash && f.slot == slot) then some (stUnknown, 0x12)
    else if w.charmDigest != 0 && !s.charms.vals.any (fun m => m.tenant == tenant && m.digest == w.charmDigest) then some (stUnknown, 0x13)
    else none

/-- WIDTH_CAP that a manifest records for a parure hash, with its index (14 Table 14-7). -/
def manifestParure (m : List Byte) (hash : Nat) : Option (Nat × Nat) :=
  ((List.range (fieldAt m 11 1)).find? (fun i => beNat (bytesAt m (256 + 48 * i) 32) == hash)).map (fun i => (i, fieldAt m (288 + 48 * i) 1))

/-- A replay of the locket's parure gives the lost device's packets (14 R557): its WIDTH_CAP, and its draft parure. -/
def replayable (s : State) (m : List Byte) (hash : Nat) : Bool :=
  match loadedHash s hash, manifestParure m hash with
  | some (_, p), some (_, cap) => p.widthCap == cap && (imgDraftHash p.image == 0 || (loadedHash s (imgDraftHash p.image)).isSome)
  | _, _ => false

/-- Delivery resumes at R, or the locket enters REPLAY (14 R553, R555). -/
def resumeAt (s : State) (q : RestoreReq) (h : Nat) (acked resume : Nat) (slots : List (List Byte)) : State :=
  match s.lockets.get? h with
  | none => s
  | some l =>
    let kept := (slots.zipIdx.map (fun e => (acked + e.2, e.1))).filter (fun e => resume ≤ e.1 && e.1 < l.stm.nextSeq)
    let pk := kept.map (fun e => ({ session := l.session, tenant := l.tenant, seq := e.1, bytes := e.2.take (64 + fieldAt e.2 16 2), since := s.now } : Packet))
    let s := s.locketM h fun l => { l with packets := pk, acked := min resume l.stm.nextSeq, replay := decide (l.stm.nextSeq < resume), resumeSeq := resume }
    if l.stm.nextSeq < resume then s.ckptM fun k => { k with replay := k.replay.set h ((q.log.filter (fun e => e.1 == l.session)).map (·.2)) } else s

/-- The outcome for one selected entry: the state after it and its report entry; none where T1 lacks room for a shard (14 Table 14-8 check 6). -/
def restoreOne (q : RestoreReq) (s : State) (e : IndexEnt) : Option (State × List Byte) :=
  let present := s.lockets.any (fun l => l.2.session == e.session)
  let resumeOf := fun (a : Nat) => ((q.resume.find? (fun r => r.1 == e.session)).map (·.2)).getD a
  let place := fun (ctx mem acked : Nat) (absent : Bool) (hd : ExtHead) (plain : List Byte) (tarn : List Nat) (ttls : List Nat) (slots : List (List Byte)) (revive : Bool) =>
    let w := warmFrom {} hd plain
    let stm := readStream (bytesAt plain 384 384)
    let r := resumeOf acked
    let fail := fun (x : Nat × Nat) => some (s, reportEntry none e.session x.1 ctx mem e.tenant acked r x.2 absent)
    match namesOk s e.tenant w with
    | some f => fail f
    | none =>
      if r < acked then fail (stInvalid, 0)
      else if stm.nextSeq < r && !replayable s q.man w.parureHash then fail (stInvalid, 0x20)
      else match install s e.tenant e.session ttls hd plain tarn revive with
        | none => if revive then fail (stNoRoom, 0x14) else none
        | some (t, h) =>
          let t := if revive then t else t.locketM h fun l => { l with stm := stm }
          let t := resumeAt t q h acked r slots
          some (t, reportEntry ((t.lockets.get? h).map (fun l => (h, l))) e.session stOk ctx mem e.tenant acked r 0 absent)
  let bad := fun (x : Nat × Nat) => some (s, reportEntry none e.session x.1 0xFF 0xFFFF e.tenant 0 (resumeOf 0) x.2 false)
  if e.kind = 3 then some (s, reportEntry none e.session stPending 0xFF 0xFFFF e.tenant 0 (resumeOf 0) 0 false)
  else if present then bad (stInvalid, 0)
  else if e.kind = 1 then
    match shardChain q.view 65 e.cut e.off e.units e.digest with
    | none => bad (stTarnished, 0x15)
    | some chain =>
      let hdr := chain.headD []
      let absent := bitAt (fieldAt hdr 11 1) 1
      match chainPieces s q.view chain (fun _ => e.tenant) true with
      | .inl f => bad f
      | .inr ps =>
        let a := assemble ps absent e.tenant e.session
        let slots := ((sortBy (fun (x y : Piece) => x.index ≤ y.index) (ps.filter (fun p => p.kind == 4))).map (fun p => (List.range 8).map (fun i => bytesAt p.data (512 * i) 512))).flatten
        place (fieldAt hdr 37 1) (fieldAt hdr 38 2) (fieldAt hdr 40 8) absent a.1 a.2.1 a.2.2 [fieldAt hdr 24 4, fieldAt hdr 28 4, fieldAt hdr 32 4] slots false
  else
    match viewUnits q.view e.cut e.off e.units, cutExt q.view e.cut with
    | some data, some x =>
      match readHead false (data.take 4096) with
      | none => bad (stTarnished, 0x16)
      | some hd =>
        match plainOf s hd data with
        | none => bad (stInvalid, 0x10)
        | some plain =>
          let tarn := x.2.tarnish.any (fun t => 256 * e.off ≤ t && t < 256 * (e.off + e.units))
          if tarn || bodyDigest [] plain != hd.digest then bad (stTarnished, 0x15) else
          let n := (readStream (bytesAt plain 384 384)).nextSeq
          place 0xFF 0xFFFF n (!hd.kv) hd plain [] [0xFFFFFFFF, 0xFFFFFFFF, hd.ttl3] [] true
    | _, _ => bad (stTarnished, 0x15)

/-- The selected entries in the order of 14 R550. -/
def restoreOrder (q : RestoreReq) (es : List IndexEnt) : List IndexEnt :=
  let mine := es.filter (fun e => (q.selectAll || q.select.contains e.session) && e.session % max 1 q.partN == q.partK)
  let hdr := fun (e : IndexEnt) => (viewUnits q.view e.cut e.off 1).getD []
  let bound := fun (e : IndexEnt) => e.kind == 1 && fieldAt (hdr e) 37 1 != 0xFF
  let key := fun (e : IndexEnt) => fieldAt (hdr e) 37 1 * 65536 + fieldAt (hdr e) 38 2
  sortBy (fun a b => key a ≤ key b) (mine.filter bound) ++ mine.filter (fun e => e.kind == 1 && !bound e) ++ mine.filter (fun e => e.kind == 2) ++ mine.filter (fun e => e.kind == 3)

/-- The names in the identity block of a selected entry, where its bytes can be read. -/
def namesOf (s : State) (q : RestoreReq) (e : IndexEnt) : Option Locket :=
  if e.kind = 1 then
    (shardChain q.view 65 e.cut e.off e.units e.digest).bind (fun chain =>
      ((chainEntries chain).find? (fun x => fieldAt x.2 0 1 == 1)).bind (fun x =>
        match readPiece s q.view e.tenant (some (fieldAt x.1 106 4)) x.2 with
        | .inr p => some (warmFrom {} { threadUnits := 0 } p.data)
        | .inl _ => none))
  else if e.kind = 2 then
    (viewUnits q.view e.cut e.off (min e.units 2)).bind (fun d => (readHead false (d.take 4096)).bind (fun hd => (plainOf s hd d).map (fun p => warmFrom {} { hd with threadUnits := 0 } p)))
  else none

/-- A restored charm stands with one replica, in the home stack, once its frames are taken (14 R548). -/
def restoreCharmWith (tenant digest ci home addr : Nat) (p : Parure) (mine : List (List Byte)) (r : List Byte) (ps : List Piece) (s : State) :
    Option (List Nat) → State
  | none => s
  | some fs =>
    let old := fieldAt r 24 3
    let len := fieldAt r 128 4
    let g := fieldAt r 132 4
    let vp := charmVpns p.image len g
    let names := (mine.map (fun r => fieldAt r 8 8)).filter (fun n => (charmNamed s tenant n).isNone)
    let syms := readSyms len (((List.range (ceilDiv (2 * len) 4096)).map (fun i => (unitOf ps 0x11 old i).data)).flatten)
    let rep : Replica := { state := .present, frames := fs, idleSince := s.now }
    let m : Charm := { tenant := tenant, names := names.eraseDups, digest := digest, parureHash := beNat (bytesAt r 64 32), facetHash := beNat (bytesAt r 96 32), symbols := syms
                       glen := g, ttl := fieldAt r 16 4, t1Ttl := fieldAt r 20 4, zeroSince := s.now, anchor := home, arena := charmArena len, addr := addr
                       replicas := (List.replicate 8 ({} : Replica)).set home rep }
    let s : State := { s with charms := s.charms.set ci m, ckpt := { s.ckpt with controlDirty := true } }
    (vp.zip fs).foldl (fun s e => (List.range 16).foldl (fun s u =>
      let p := unitOf ps 0x12 old (16 * e.1 + u)
      unitPut s (unitEntry (frameAddr s home e.2 + 4096 * u)) p.data p.tarn) s) s

/-- A charm is recreated from its control-state records and pieces (14 R548). -/
def restoreCharm (s : State) (tenant digest : Nat) (records : List (List Byte)) (ps : List Piece) : State :=
  if s.charms.vals.any (fun m => m.tenant == tenant && m.digest == digest) then s else
  let mine := records.filter (fun r => fieldAt r 0 1 == 1 && beNat (bytesAt r 32 32) == digest && fieldAt r 136 2 == tenant)
  match mine, s.charms.freshFrom (s.charms.length + 1) 0 with
  | r :: _, some ci =>
    match loadedHash s (beNat (bytesAt r 64 32)) with
    | none => s
    | some (_, p) =>
      let home := homeStack s
      let len := fieldAt r 128 4
      if s.lan.config.charmMax ≤ ci then s else
      match arenaFit s home (charmArena len) with
      | none => s
      | some addr =>
        let q := takeFrames s home (charmVpns p.image len (fieldAt r 132 4)).length (.replica (replicaId ci home))
        if q.2.isNone then s else restoreCharmWith tenant digest ci home addr p mine r ps q.1 q.2
  | _, _ => s

/-- The charms that the selected lockets name (14 R548). -/
def restoreCharms (s : State) (q : RestoreReq) (es : List IndexEnt) : State :=
  let want := ((es.filterMap (fun e => (namesOf s q e).bind (fun w => if w.charmDigest = 0 then none else some (e.tenant, w.charmDigest))))).eraseDups
  if want.isEmpty then s else
  match controlChain q.view q.man with
  | none => s
  | some chain =>
    let recEntries := (chainEntries chain).filter (fun x => fieldAt x.2 0 1 == 0x10)
    let units := sortBy (fun (a b : Piece) => a.index ≤ b.index) (recEntries.filterMap (fun x => match readPiece s q.view 0 none x.2 with | .inr p => some p | .inl _ => none))
    let records := (units.map (fun p => (List.range 16).map (fun i => bytesAt p.data (256 * i) 256))).flatten
    let tenantOf := fun (ci : Nat) => ((records.find? (fun r => fieldAt r 0 1 == 1 && fieldAt r 24 3 == ci)).map (fun r => fieldAt r 136 2)).getD 0
    match chainPieces s q.view chain tenantOf false with
    | .inl _ => s
    | .inr ps => want.foldl (fun s d => restoreCharm s d.1 d.2 records ps) s

/-- The store that a RESTORE read is freed (14 R551). -/
def releaseStore (s : State) (source : Nat) (v : View) : State :=
  if source < 4 then (v.map (·.1)).foldl (dropCopy source) s else if source = 0x10 then (v.map (·.1)).foldl freeExtent s else s

/-- Check 1 of RESTORE on its operands (14 Table 14-8, 15 R584). -/
def restoreOperands (c : HCmd) (p : List Byte) : Bool :=
  p.length == 128 && zeroAt p 7 1 && zeroAt p 44 4 && zeroAt p 56 72 && addrOk (c.fld 16 8) && addrOk (fieldAt p 48 8) &&
  (let src := fieldAt p 3 1; src < 4 || src == 0x10 || (0x40 ≤ src && src < 0x80)) && (fieldAt p 4 1 < 2 || fieldAt p 4 1 == 0xFF) &&
  fieldAt p 5 1 < fieldAt p 6 1 && fieldAt p 6 1 ≤ 64 && fieldAt p 40 4 ≤ 64 * 2 ^ 20

/-- Every selected locket is restored in order, or none where one has no room: the state, the report, and how many are OK (14 R549 to R551). -/
def restoreAll (q : RestoreReq) (s : State) (es : List IndexEnt) : Option (State × List Byte × Nat × Bool) :=
  es.foldl (fun acc e => acc.bind (fun a =>
    (restoreOne q a.1 e).map (fun r =>
      (r.1, a.2.1 ++ r.2, a.2.2.1 + (if fieldAt r.2 12 1 = stOk then 1 else 0), a.2.2.2 && (fieldAt r.2 12 1 == stOk || fieldAt r.2 12 1 == stPending)))))
    (some (s, [], 0, true))

/-- The end of a RESTORE: its report by PUT, its completion, and the release of the store it names (14 R551). -/
def restoreEnd (s : State) (c : HCmd) (q : RestoreReq) (source report : Nat) : Option (State × List Byte × Nat × Bool) → State
  | none => complete s c stNoRoom 0 0 0
  | some (t, rep, n, allOk) =>
    let st := if allOk then stOk else stPartial
    let cut := fieldAt q.man 24 8 % 2 ^ 32
    let t := if rep.isEmpty then complete t c st n cut 0 else submitPut t c report rep st n cut
    if c.flag 4 then releaseStore t source q.view else t

/-- The parure of a selected locket that is not loaded (14 R547). -/
def missingParure (s : State) (q : RestoreReq) (es : List IndexEnt) : Option Nat :=
  es.findSome? (fun e => (namesOf s q e).bind (fun w => if (loadedHash s w.parureHash).isNone then some w.parureHash else none))

/-- The lockets and charms of a valid manifest are restored and the report is written (14 R548 to R551). -/
def restoreRun (s : State) (c : HCmd) (q : RestoreReq) (source report : Nat) : State :=
  let es := restoreOrder q ((manifestIndex q.view q.man).getD [])
  restoreEnd s c q source report (restoreAll q (restoreCharms s q es) es)

/-- T1 place of the n-th unit that a RESTORE reads: a window of 8 MiB in the control area of stack 0 (09 Table 9-1; log 66). -/
def restorePlace (n : Nat) : Nat := unitEntry (2 ^ 27 + 2 ^ 25 + 4096 * (n % 2048))

/-- The transfer that moves one extent of a store to T1: a READ_EXTENT of this device's T2 or of a coffer, or a FETCH of a peer's (01 R31; 09 Table 9-6). -/
def restoreDesc (s : State) (c : HCmd) (source : Nat) (e : Nat × Extent) : Desc :=
  if 0x40 ≤ source then
    { cookie := 0, op := 6, tenant := c.tenant, units := e.2.units, dst := restorePlace 0, extent := e.1, peer := source - 0x40, epoch := s.std.epoch, purpose := .restore c.id }
  else
    { cookie := 0, op := 3, tenant := c.tenant, tier := if source < 4 then 3 else 2, bay := if source < 4 then source else 0xFF, units := e.2.units, extent := e.1
      dstList := (List.range (max 1 e.2.units)).map restorePlace, purpose := .restore c.id }

/-- The extents that a RESTORE reads: the cut extents that its manifest reaches. -/
def restoreExts (q : RestoreReq) : List (Nat × Extent) := (reachedCuts q.view q.man).filterMap (cutExt q.view)

/-- Check 5 of RESTORE, and the transfers of what it reads (14 R547, R548; 01 R31). -/
def restoreMove (s : State) (c : HCmd) (q : RestoreReq) (source report : Nat) : State :=
  match missingParure s q (restoreOrder q ((manifestIndex q.view q.man).getD [])) with
  | some hash => complete s c stUnknown 0 (((manifestParure q.man hash).map (·.1)).getD 0) 0
  | none =>
    if (restoreExts q).isEmpty then restoreRun s c q source report else
    (restoreExts q).foldl (fun s e => submit s (restoreDesc s c source e))
      (s.ckptM fun k => { k with restores := k.restores ++ [{ cmd := c.id, source := source, report := report, req := q }] })

/-- A RESTORE no longer waits for transfers. -/
def dropRestore (s : State) (id : Nat) : State := s.ckptM fun k => { k with restores := k.restores.filter (fun r => r.cmd != id) }

/-- The source of a RESTORE is still at hand. -/
def sourceHere (s : State) (source : Nat) : Bool := !(source < 4) || (s.bay source).mode == .mounted || (s.bay source).mode == .readOnly

/-- One transfer of a RESTORE has ended: after the last the lockets are restored; where one failed, the RESTORE ends ST_TARNISHED (14 R548, log 68). -/
def endRestore (s : State) (id status : Nat) : State :=
  match s.ckpt.restores.find? (fun r => r.cmd == id), findCmd s id with
  | some r, some c =>
    if !((status == 0 || status == 4) && sourceHere s r.source) then
      complete (dropRestore (abandonFor s (fun p => p == .restore id)) id) c stTarnished 0 0 0
    else if (allDescs s).any (fun d => d.purpose == .restore id) then s
    else restoreRun (dropRestore s id) c r.req r.source r.report
  | _, _ => s

/-- RESTORE (14 R547). -/
def restoreStart (params select resume replay : List Byte) (peer : List (Nat × Nat × List Byte × List Nat)) (s : State) (c : HCmd) : State :=
  if !restoreOperands c params then complete s c stInvalid 0 0 0
  else if c.fld 24 2 != s.std.epoch then complete s c stStale 0 0 0
  else
    let source := fieldAt params 3 1
    let ext := fun (x : Nat × Nat × List Byte × List Nat) =>
      (x.1, ({ ckpt := true, sealed := true, kind := if x.2.2.1.take 8 == ascii "CL9MANIF" then .manifest else .shard, owner := x.2.1, units := x.2.2.1.length / 4096
               data := x.2.2.1, tarnish := x.2.2.2 } : Extent))
    let x := (sourceView s source (peer.map ext)).getD []
    match pickBoot x c.handle (fieldAt params 0 3) with
    | none => complete s c stUnknown 0 0 0
    | some boot =>
      let v := storeExts x c.handle boot
      let ok := (storeManifests x c.handle boot).filter (fun e => manifestValid s v e.2.data && (fieldAt params 4 1 == 0xFF || manSlot (source < 4) e.2 == fieldAt params 4 1))
      match ok.foldl (fun (b : Option (Nat × Extent)) e => match b with | none => some e | some f => if manCut f.2 < manCut e.2 then some e else some f) none with
      | none => complete s c stTarnished 0 0 0
      | some m =>
        let q : RestoreReq :=
          { view := v, man := m.2.data, select := readSessions (fieldAt params 16 4) select, selectAll := fieldAt params 16 4 == 0, partK := fieldAt params 5 1
            partN := fieldAt params 6 1, resume := readResume (fieldAt params 20 4) resume, log := readLog (replay.length / 64 + 1) (replay.take (fieldAt params 40 4)) }
        restoreMove s c q source (fieldAt params 48 8)

/-- RESTORE. -/
def execRestore (id : Nat) (params select resume replay : List Byte) (peer : List (Nat × Nat × List Byte × List Nat)) (s : State) : Out :=
  hostCmd s id 0x51 (restoreStart params select resume replay peer)

end Sys2Proof.Machine
end

