-- ==== Sys2Proof/Machine/Meridian.lean ====
section
/-!
DEFINITION. Sys2Proof/Machine/Meridian.lean: the meridian: frame numbers and alignment across a domain (10 R409 to R411), the cut it takes (14 R519), and
the switch of tables (10 R385 to R387).
-/
namespace Sys2Proof.Machine

/-- Beacons with a nonzero FRAME arrive (10 R411, 16 R618). -/
def beaconFresh (s : State) : Bool :=
  s.std.mode == .member && s.std.beaconFrame != 0 && (match s.std.frameAt with | some t => decide (s.now < t + 100000) | none => false)

/-- The device follows the domain's frames: alignment is on, it is not the master, and beacons give frames (10 R409, R411). -/
def follows (s : State) : Bool := s.eph.alignEn && !isMaster s && beaconFresh s

/-- Frames between the beacon's meridian and a local tick, rounded to the nearest. -/
def framesSince (s : State) (m t : Nat) : Int := ((m : Int) * 65536 + s.std.offset - (s.std.beaconMeridian : Int) * 65536 + (t : Int) * 32768) / ((t : Int) * 65536)

/-- The number of the frame that begins at a local tick, with whether the device is unaligned and whether alignment is lost (10 R411). -/
def frameNumber (s : State) (m t : Nat) : Nat × Bool × Bool :=
  let own := if s.eph.frame = 0 then 1 else s.eph.frame + 1
  if !s.eph.alignEn || isMaster s then (own, false, false)
  else if !beaconFresh s then (own, true, false)
  else
    let f := ((s.std.beaconFrame : Int) + framesSince s m t).toNat
    if f ≤ s.eph.frame then (own, true, true) else (f, false, false)

/-- The correction of the frame that begins at a local tick: what is applied, and whether it was limited (10 R410). -/
def correction (s : State) (m t : Nat) : Int × Bool :=
  if !follows s then (0, false) else
  let target := ((s.std.beaconMeridian : Int) + (framesSince s m t + 1) * t) * 65536 - s.std.offset
  let need := (target + 32768) / 65536 - ((m : Int) + t)
  if 512 < need then (512, true) else if need < -512 then (-512, true) else (need, false)

/-- The end of the frame's last slot is set from the table in force (10 R410). -/
def setNext (s : State) (m : Nat) : State :=
  let t := (s.eph.active.map (·.frameTicks)).getD 0
  let c := correction s m t
  let s := s.ephM fun e => { e with adj := c.1, nextMeridian := ((m : Int) + t + c.1).toNat, unaligned := e.unaligned || c.2 }
  if c.2 then ephEvent s 5 else s

/-- A frame begins at a local tick (10 R377, R410, R411). -/
def beginFrame (s : State) (m : Nat) : State :=
  let t := (s.eph.active.map (·.frameTicks)).getD 0
  let f := frameNumber s m t
  let s := if f.2.2 then ephEvent s 5 else s
  setNext (s.ephM fun e => { e with frame := f.1 % 2 ^ 64, meridian := m, unaligned := f.2.1, slotDue := true, running := true, slot := 0, begun := false, leadPassed := false }) m

/-- The last slot of the frame is the present one, or no frame runs (10 R377). -/
def frameOver (s : State) : Bool :=
  match s.eph.active with
  | none => false
  | some t => !s.eph.running || (!s.eph.slotDue && s.eph.slot + 1 == t.slots.length)

/-- MERIDIAN (10 R410, 14 R519): `newest` is the buddy's answer under 14 R537. -/
def execMeridian (newest : Option Nat) (s : State) : Out :=
  when (s.eph.enable && serving s && !s.lan.stopped && s.lan.refclk && frameOver s && due s s.eph.nextMeridian) s (
    let s := beginFrame s s.eph.nextMeridian
    takeCut s s.eph.frame newest)

/-- Some job whose spill the shadow table cannot hold has the Orrery (10 R408). -/
def oversizedHolds (s : State) : Bool :=
  match s.eph.holder, s.eph.shadow with
  | .job id, some t => ((findJob s id).map (fun j => decide (t.spillCap < jobSpill s j))).getD false
  | _, _ => false

/-- A pending switch is to be tried now (10 R385, R408). -/
def switchDue (s : State) : Bool :=
  match s.eph.switch with
  | none => false
  | some w => if s.eph.active.isNone then due s (w.accepted + 10000) && !oversizedHolds s else switchAtMeridian s

/-- The shadow table becomes active (10 R386); a device that ran no table begins its first frame. -/
def switchTables (s : State) (t : EphTable) (newest : Option Nat) : State :=
  let first := s.eph.active.isNone
  let s := s.ephM fun e => { e with active := some t, shadow := none, charges := [], switch := none
                                    spillArea := areaNeed s t.spillCap }
  let s := ephEvent s 2
  if first then let s := beginFrame s s.now; takeCut s s.eph.frame newest else setNext s s.eph.meridian

/-- SWITCH_ATTEMPT (10 R386). -/
def execSwitchAttempt (newest : Option Nat) (s : State) : Out :=
  match s.eph.switch, s.eph.shadow with
  | some w, some t =>
    when (s.eph.enable && serving s && switchDue s) s (
      match coverFail s t with
      | none => let s := switchTables s t newest; match w.cmd with | some id => completeId s id stOk 0 0 0 | none => s
      | some n =>
        let s := ephEvent (s.ephM fun e => { e with switch := none }) 3
        match w.cmd with | some id => completeId s id stNoTime 0 n 0 | none => s)
  | _, _ => .next s

end Sys2Proof.Machine
end

