-- ==== Sys2Proof/Machine/Resets.lean ====
section
/-!
DEFINITION. Sys2Proof/Machine/Resets.lean: what resets and power states leave standing (18 R676 to R685, Tables 18-7 to 18-9; 17 Table 17-6), as shared
operations: the end of commands and of the work they started, the loss of the powered logic, the start of the core domain, and the DEVICE reset.
-/
namespace Sys2Proof.Machine

/-! ## Work given up (18 R678, R679, R683) -/

/-- The Orrery's work is given up: the steps in progress are discarded, the suspended programs are forgotten and the program that runs stops
(10 R417; 18 R678, R683). -/
def stopWork (s : State) : State :=
  let s := s.eph.ctxs.keys.foldl discardStep s
  let s := if s.eph.holder == .none then s else freeOrrery s
  s.ephM fun e => { e with jobs := e.jobs.map (fun j => { j with suspended := none, urgent := false }), charges := [], candidate := none, slotDue := false, begun := false
                           leadPassed := false, urgentCount := 0, urgentUsed := 0, running := false }

/-- The first meridian of a frame grid after a tick (10 R417). -/
def nextGrid (e : Eph) (now : Tick) : Tick :=
  match e.active with
  | some t => if now < e.nextMeridian || t.frameTicks = 0 then e.nextMeridian else e.nextMeridian + ceilDiv (now - e.nextMeridian + 1) t.frameTicks * t.frameTicks
  | none => e.nextMeridian

/-- Demotions and promotions are given up; their lockets return to the source state (08 R300, Table 8-14). -/
def abandonMoves (s : State) (st : Nat) (mine : Locket → Bool) : State :=
  ((s.lockets.filter (fun e => mine e.2)).map (·.1)).foldl (fun s h =>
    undoPromotion (abandonFor (abandonDemotion s h st) (fun p => p == .promote h)) h) s

/-- Every cut in flight on the origin and every one being received is abandoned (14 R559). -/
def endCuts (s : State) : State := dropReceiving (abandonCuts s)

/-- Merges in progress become pending again (12 R476). -/
def rependAll (s : State) (mine : Coll → Bool) : State := ((s.colls.filter (fun e => mine e.2)).map (·.1)).foldl repend s

/-- Commands that a power state ends with ST_CANCELLED (18 Table 18-8). -/
def cancelledOp (op : Nat) : Bool := op == 0x25 || op == 0x26 || op == 0x40 || op == 0x48 || op == 0x43

/-- Entry to TWILIGHT, steps 2 and 3: work stops, cuts, demotions and promotions are abandoned, and commands end (18 R683, Table 18-8). A RESTORE that has not
started has reached no entry and completes ST_PARTIAL (log 47). -/
def restCommands (s : State) : State :=
  let s := endCuts (stopWork s)
  let s := ((liveCmds s).filter (fun c => cancelledOp c.opcode)).foldl (endCmd stCancelled) s
  let s := abandonMoves s stCancelled (fun _ => true)
  let s := rependAll s (fun _ => true)
  ((liveCmds s).filter (fun c => c.opcode == 0x51 && !c.started)).foldl (endCmd stPartial) s

/-! ## The powered logic is lost (18 Table 18-7, 17 Table 17-6) -/

/-- A bay after a loss of the powered logic: the coffer, its arrival and the values of classes W and N stay (09 R376). -/
def lostBay (b : Bay) : Bay := { coffer := b.coffer, present := b.present, mirror := b.mirror, life := b.life, eraseMax := b.eraseMax }

/-- The Strand after a loss of the powered logic: the chain logic keeps its position, and PORT_FENCE stays (16 R608, R630). -/
def lostStd (d : Std) : Std :=
  { position := d.position, enumLow := d.enumLow, lastWord := d.lastWord, adoptedAt := d.adoptedAt, lastEnum := d.lastEnum, enumOut := d.enumOut
    deviceId := d.deviceId, hostMode := d.hostMode, modeInForce := d.modeInForce, ports := d.ports.map (fun p => { fence := p.fence }) }

/-- A request that the mailbox brought, which is lost with the mailbox (17 R661). -/
def fromMailbox (q : Requester) : Bool := q == .mailbox

/-- Lantern after a reset or power state that ends the core domain: classes W and N, the sideband and the pins stay; V and D take their defaults. -/
def lostLan (l : Lan) : Lan :=
  { alwaysOn := l.alwaysOn, refclk := l.refclk, pgAt := none, railEn := l.railEn, railsPg := l.railsPg, perst := l.perst, powerUpAt := l.powerUpAt
    power := l.power, powerReq := l.powerReq, lastReset := l.lastReset, resetCount := l.resetCount, wdtPeriod := l.wdtPeriod, wdtAction := l.wdtAction, wdtExpiries := l.wdtExpiries
    tempMax := l.tempMax, tempSensor := l.tempSensor, sensors := l.sensors, tripRun := l.tripRun, warnLimit := l.warnLimit, tripLimit := l.tripLimit
    tripped := l.tripped, tripCount := l.tripCount, warnCount := l.warnCount, thermtrip := l.thermtrip, lastTemp := l.lastTemp, vcoreSet := l.vcoreSet
    vcoreSent := l.vcoreSent, vcoreRead := l.vcoreRead, ioutRead := l.ioutRead, lastAvs := l.lastAvs, freezes := l.freezes, stops := l.stops
    dieRev := l.dieRev, traySerial := l.traySerial, traySlot := l.traySlot, fusedSvn := l.fusedSvn, fusedKeyHash := l.fusedKeyHash, nodeId := l.nodeId
    nodeInForce := l.nodeInForce, eventDest := l.eventDest, sbFrames := l.sbFrames, sbErrors := l.sbErrors, sbCollisions := l.sbCollisions, cxlEn := l.cxlEn
    eventSeq := l.eventSeq, events := l.events, queue := l.queue.filter (fun r => !fromMailbox r.from_), nodeDue := l.nodeDue
    snaps := l.snaps.filter (fun x => !fromMailbox x.from_), tx := l.tx, sent := l.sent, lastNonce := l.lastNonce, entropyUsed := l.entropyUsed
    crashLog := l.crashLog, crashCount := l.crashCount, retired := l.retired, quarantine := l.quarantine, remounted := l.remounted, boardT2 := l.boardT2
    pwrWarn := l.pwrWarn }

/-- The cells before a self test: those of the retired-cell list are RETIRED, and gated as such, in every case (03 R124, Table 3-6). -/
def untestedCells (retired : Nat) : List Cell := (List.range 144).map (fun p => if bitAt retired p then { state := .retired, gated := true } else {})

/-- Everything that the powered logic, T1 and T2 held is lost: classes V and D take their reset values; W and N stay (17 Table 17-6; 03 R124, 08 R324, 09 R376,
10 R417, 11 R440, 12 R476, 13 R518, 14 R559, 15 R595, 16 R630). -/
def coreLoss (s : State) : State :=
  { pending := s.pending, now := s.now, hostMem := s.hostMem, replies := s.replies
    cells := untestedCells s.lan.retired, lpe := { retired := s.lan.retired }, eph := { frame := s.eph.frame }, ckpt := { cutKey := s.ckpt.cutKey }
    traffic := { lastRefill := s.now }, bays := s.bays.map lostBay
    integ := { mode := if s.lan.quarantine then .quarantined else .normal }
    std := lostStd s.std, lan := lostLan s.lan, hif := { msix := s.hif.msix } }

/-- The loss of the core domain, with the EVENT frames of the entries that change by it (17 R641). -/
def loseCore (s : State) (p : Power) : State :=
  let t := s.bays.zipIdx.foldl (fun s e => if e.1.mode == .empty then s else watch s (0x3100 + e.2) 1 (natLe 1 0)) s
  setPower (coreLoss (setStd t .enum)) p

/-- State of a port whose core domain starts: fenced ports stay idle (13 R507, 16 R627). -/
def freshPort (s : State) (n : Nat) (p : Port) : Port :=
  { p with mode := if p.fence = 1 || (s.lan.quarantine && 2 ≤ n) then .fenced else .training, since := s.now }

/-- The core domain leaves reset: the boot ROM clears the staging area, and enumeration starts at the Strand stations (18 Table 18-3, R665; 15 R563). -/
def startCore (s : State) : State :=
  let s := s.lanM fun l => { l with coreUp := true, pgAt := none, imageOffset := 0, staging := [], phase := .none }
  s.stdM fun d => { d with modeInForce := d.hostMode, adoptedAt := s.now, ports := d.ports.zipIdx.map fun e => freshPort s e.2 e.1 }

/-- A reset of a cause is counted (17 Table 17-12). -/
def noteReset (s : State) (cause : Nat) : State := s.lanM fun l => { l with lastReset := cause, resetCount := wrapInc 32 l.resetCount, powerReq := 0, resetDue := none }

/-- A WARM reset: the core domain starts again at once, but for PERST_N, which holds it (18 Table 18-7). In NIGHT it has no effect (18 R677). -/
def warmReset (s : State) (cause : Nat) : State :=
  if s.lan.power == .night then s.lanM fun l => { l with resetDue := none } else
  let pg := s.lan.pgAt
  let s := noteReset (loseCore s .boot) cause
  if pg.isSome || !s.lan.railsPg then s.lanM fun l => { l with pgAt := pg }
  else if s.lan.perst && cause = 4 then s else startCore s

/-- A COLD reset with the always-on rails held: the core domain waits for RAILS_PG again (18 Table 18-7, 17 R647, 19 R703). -/
def coldReset (s : State) (cause : Nat) : State :=
  (noteReset (loseCore s .boot) cause).lanM fun l => { l with pgAt := some (s.now + 220000), railEn := true }

/-! ## The DEVICE reset (18 R677, R678) -/

/-- Pins of commands leave every charm replica (08 R318). -/
def dropCmdPins (s : State) : State :=
  { s with charms := s.charms.map fun e => (e.1, { e.2 with replicas := e.2.replicas.map fun r =>
      let left := r.pins.filter (fun p => p % 2 == 0)
      { r with pins := left, idleSince := if left.isEmpty && !r.pins.isEmpty then s.now else r.idleSince } }) }

/-- One locket in a DEVICE reset: what its commands had started is given up, and a stream that was GENERATING ends with a closing packet (18 R678). -/
def resetLocket (s : State) (h : Nat) : State :=
  match s.lockets.get? h with
  | none => s
  | some l =>
    if opening l then dropOpening s h ((l.move.bind (·.cmd)).getD 0) else
    let s := abandonRecompute (abandonMove (undoPromotion (abandonDemotion s h stCancelled) h) h) h
    (endStream s h stCancelled).locketM h fun l =>
      { l with closing := none, pins := [], pendingCmds := l.pendingCmds.map (fun p => (0, p.2)), genCmd := none, genStep := none, genWait := [] }

/-- The commands and the Courier's descriptors of a DEVICE reset are gone, with every cut in flight (15 R595, 18 R678). -/
def loseDescs (s : State) : State :=
  let s := endCuts (s.hifM fun h => { h with cmds := [], done := [] })
  let s := (allDescs s).foldl abandonDesc s
  let s := s.ckptM fun k => { k with restores := [] }
  stopWork (s.curM fun c => { c with done := [], puts := [], channels := [], waiting := [], records := [] })

/-- The jobs, joins and leaves of a DEVICE reset are gone, and a pending switch loses its command (10 R417). -/
def loseJobs (s : State) : State :=
  let s := dropJobs s (fun _ => true)
  let s := (((s.eph.ctxs.vals.map (·.joins)).flatten).map (·.id)).foldl returnJoin s
  s.ephM fun e => { e with ctxs := e.ctxs.map (fun x => (x.1, { x.2 with joins := [], leaves := [] })), switch := e.switch.map (fun w => { w with cmd := none }) }

/-- Lockets, charms, searches and selects lose what the commands had in progress (18 R678). -/
def loseMoves (s : State) : State :=
  let s := s.lockets.keys.foldl resetLocket s
  let s := ((s.charms.filter (fun e => e.2.cmd.isSome)).map (·.1)).foldl dropCharm s
  let s := dropCmdPins (s.charms.keys.foldl failReplicas s)
  let s := (s.selects.map (·.cmd)).foldl dropSelect ((s.searches.map (·.cmd)).foldl dropSearch s)
  rependAll s (fun _ => true)

/-- Every command is lost, and the work that commands had started ends with them (18 R678). -/
def loseCommands (s : State) : State :=
  let s := { s with stm := { s.stm with packets := 0 } }
  let s := loseMoves (loseJobs (loseDescs s))
  { s with colls := s.colls.map (fun e => (e.1, { e.2 with merge := e.2.merge.map (fun m => { m with cmd := none }) }))
           ckpt := { s.ckpt with snapshots := [] }, parures := s.parures.filter (fun e => e.2.state == .loaded) }

/-- Ring pairs after a DEVICE reset: the class-D configuration stays, and every ring starts at slot 0 (15 R595). -/
def resetRing (g : Ring) : Ring :=
  { sqBase := g.sqBase, sqLog2 := g.sqLog2, tenant := g.tenant, shadow := g.shadow, cqBase := g.cqBase, irqEn := g.irqEn, cqLog2 := g.cqLog2, vector := g.vector
    coalCount := g.coalCount, coalTime := g.coalTime }

/-- The host interface after a DEVICE reset; the live link keeps its fields (15 R595; log 46). -/
def resetHif (h : Hif) : Hif :=
  { mode := h.mode, linkWidth := h.linkWidth, linkSpeed := h.linkSpeed, linkCxl := h.linkCxl, linkFlit := h.linkFlit, linkUp := h.linkUp, dropped := h.dropped
    paused := h.paused, evEn := h.evEn, evVector := h.evVector, t2win := h.t2win, rings := h.rings.map (fun e => (e.1, resetRing e.2)), dlv := h.dlv
    nextId := h.nextId, msix := h.msix, msixTable := h.msixTable }

/-- The Orrery's units after a DEVICE reset, with what the firmware sets again (03 R124, 18 R678, R722). -/
def resetOrrery (s : State) : State :=
  { s with
    ory := { halt := false, enable := true, abftEn := s.ory.abftEn, checkOff := s.ory.checkOff, window := s.ory.window, winTarn := s.ory.winTarn
             acc := s.ory.acc, scratch := s.ory.scratch, scrTarn := s.ory.scrTarn }
    lpe := { s.lpe with mode := if s.lpe.mode == .substituting then .ready else s.lpe.mode }
    ast := { dropEn := s.ast.dropEn, enable := true, pool := s.ast.pool, frames := s.ast.frames, lowater := s.ast.lowater, drops := s.ast.drops
             redirects := s.ast.redirects }
    smp := { lookaheadEn := s.smp.lookaheadEn, hostDraftEn := s.smp.hostDraftEn, enable := true, rootOnly := s.smp.rootOnly, degenerate := s.smp.degenerate
             hostIgnored := s.smp.hostIgnored }
    fil := { enable := true, empty := s.fil.empty, dead := s.fil.dead }
    stm := { enable := true, packets := s.stm.packets, late := s.stm.late, stops := s.stm.stops, cancelBefore := s.stm.cancelBefore, cancelAfter := s.stm.cancelAfter }
    sieves := s.sieves.map fun u => { enable := true, walks := u.walks, budgetHits := u.budgetHits, partials := u.partials } }

/-- The memory and tier units after a DEVICE reset: HBM, LPDDR, the coffers and class D keep their contents (09 R376, 18 R678). -/
def resetTiers (s : State) : State :=
  let s : State := { s with
    cur := { enable := true, nextCookie := s.cur.nextCookie, t2Size := s.cur.t2Size, ckptSize := s.cur.ckptSize, abandoned := s.cur.abandoned
             digestFail := s.cur.digestFail }
    hbc := s.hbc.map fun b => { copyEn := b.copyEn, enable := true, mode := b.mode, corr := b.corr, uncorr := b.uncorr, spare := b.spare, lastScrub := b.lastScrub }
    lpc := s.lpc.map fun b => { b with evGuard := false, evUncorr := false, evTrainFail := false, channel := 0xFF } }
  (List.range 4).foldl (fun s n => setBay s n .empty fun b =>
    { lostBay b with patrolEn := b.patrolEn, enable := true }) s

/-- The schedule, traffic, integrity and Strand state after a DEVICE reset (10 R417, 11 R440, 13 R518, 16 R630). -/
def resetRest (s : State) : State :=
  let e := s.eph
  let i := s.integ
  { s with
    eph := { alignEn := e.alignEn, enable := true, active := e.active, shadow := e.shadow, switch := e.switch, frame := e.frame, lateSteps := e.lateSteps
             overruns := e.overruns, preempts := e.preempts, urgent := e.urgent, ctxs := e.ctxs, nextJob := e.nextJob, accounts := e.accounts, spillArea := e.spillArea
             nextMeridian := nextGrid e s.now }
    traffic := { s.traffic with wfq := List.replicate 18 {}, sent := [], tenants := s.traffic.tenants.map (fun t => (t.1, { t.2 with level := fullLevel t.2.depth }))
                                lastRefill := s.now }
    integ := { plannedEn := i.plannedEn, isolateEn := i.isolateEn, transient := i.transient, permanent := i.permanent, tarnishMade := i.tarnishMade
               tarnishConsumed := i.tarnishConsumed, sessionsEnded := i.sessionsEnded, sramCorr := i.sramCorr, meshCorr := i.meshCorr, staleMap := i.staleMap
               staleMember := i.staleMember, logBase := i.logBase, logCount := i.logCount, log := i.log, interruptMax := i.interruptMax, limit := i.limit
               window := i.window, tarnishT1 := i.tarnishT1, mode := if s.lan.quarantine then .quarantined else .normal }
    std := { s.std with routeEn := false, event := 0, membersLatch := 0, devidLatch := 0, offsetLatch := 0, result := 0, missing := 0, change := none, inbox := []
                        inXfers := [], outXfers := [], fwdReads := [], passedOn := [], early := [] } }

/-- Lantern's class-V state after a DEVICE reset; requests that came by the mailbox are lost with it (17 R661, R657). -/
def resetLan (l : Lan) : Lan :=
  { l with mbox := List.replicate 1048 0#8, mboxBusy := false, mboxDone := false, imageOffset := 0, configError := 0
           queue := l.queue.filter (fun r => !fromMailbox r.from_), snaps := l.snaps.filter (fun x => !fromMailbox x.from_), wdtKick := none, idleSince := none
           transition := none }

/-- Memory in self-refresh is READY again after a DEVICE reset (18 R678, R683). -/
def wakeMemory (s : State) : State :=
  let memOn := fun (m : MemMode) => if m == .selfRefresh then MemMode.ready else m
  { s with hbc := s.hbc.map (fun b => { b with mode := memOn b.mode }), lpc := s.lpc.map (fun b => { b with mode := memOn b.mode }) }

/-- A DEVICE reset (18 R678). In BOOT it acts as START; in NIGHT it has no effect (18 R677). -/
def deviceReset (s : State) (cause : Nat) : State :=
  if s.lan.power == .night then s.lanM fun l => { l with resetDue := none }
  else if s.lan.power == .boot then (noteReset s cause).lanM fun l => { l with staging := [], imageOffset := 0, phase := .none }
  else
    let s := (loseCommands s).hifM resetHif
    let s := wakeMemory (resetRest (resetTiers (resetOrrery s)))
    setPower (noteReset (s.lanM resetLan) cause) .active

/-! ## The CONTEXT reset (18 R680) -/

/-- A member becomes OPEN at once: a step in progress loses it, and its pending input joins the thread. Where its step has sealed, its symbols and entries are
committed first (08 Table 8-14; log 72). -/
def leaveNow (s : State) (c h : Nat) (l : Locket) : State :=
  match stepOf s l with
  | some st =>
      let s := match st.rows.find? (fun r => r.handle == h) with
        | some row => if st.sealedAt.isSome then commitMember st s row else s
        | none => s
      let s := leaveMember (s.stepM c fun st => { st with removed := st.removed ++ [l.member] }) c h
      s.locketM h fun l => { l with thread := l.thread ++ l.pending, pending := [] }
  | none => leaveMember s c h

/-- One locket of the tenant: a CANCEL without BARGE, and BOUND becomes OPEN (08 Table 8-14). -/
def contextLocket (s : State) (h : Nat) : State :=
  match s.lockets.get? h with
  | none => s
  | some l =>
    let s := if l.stm.generating then (cancelOn s h false).1 else s
    match (if l.state == .bound then s.lockets.get? h else none) with
    | some l => leaveNow s l.context h l
    | none => s

/-- A CONTEXT reset of one tenant (18 R680, Table 18-8; 08 Table 8-14; 12 R476). -/
def contextReset (s : State) (t : Nat) : State :=
  let s := ((s.lockets.filter (fun e => e.2.tenant == t)).map (·.1)).foldl contextLocket s
  let s := ((liveCmds s).filter (fun c => c.tenant == t)).foldl (endCmd stCancelled) s
  let s := abandonMoves s stCancelled (fun l => l.tenant == t)
  rependAll s (fun k => k.tenant == t)

end Sys2Proof.Machine
end

