-- ==== Sys2Proof/Machine/Power.lean ====
section
/-!
DEFINITION. Sys2Proof/Machine/Power.lean: power-up, resets as events, power states, supply supervision, thermal limits, the clock monitor and the watchdog
(18 R664, R676 to R694; 19 R702 to R709; 01 R39; 17 R657).
-/
namespace Sys2Proof.Machine

/-- Lantern runs: its rails are up and REFCLK is present (18 R695). -/
def lanternUp (s : State) : Bool := s.lan.alwaysOn && s.lan.refclk

/-! ## Power-up and the always-on rails (18 R664, 19 R702 to R705) -/

/-- What stands when the always-on rails are off: class N, the coffers, and the pins (17 Table 17-6, 19 R705). -/
def offState (s : State) : State :=
  let l := s.lan
  { pending := s.pending, hostMem := s.hostMem, replies := s.replies, cells := untestedCells l.retired, lpe := { retired := l.retired }
    bays := s.bays.map (fun b => { coffer := b.coffer, present := b.present.map (fun _ => 0), life := b.life, eraseMax := b.eraseMax })
    integ := { mode := if l.quarantine then .quarantined else .normal }
    std := { deviceId := s.std.deviceId, hostMode := s.std.hostMode, modeInForce := s.std.hostMode }
    hif := { msix := s.hif.msix }
    lan := { alwaysOn := false, pgAt := none, railEn := false, railsPg := false, perst := l.perst, refclk := l.refclk, dieRev := l.dieRev, traySerial := l.traySerial
             traySlot := l.traySlot, fusedSvn := l.fusedSvn, fusedKeyHash := l.fusedKeyHash, nodeId := l.nodeId, nodeInForce := l.nodeId, cxlEn := l.cxlEn
             retired := l.retired, quarantine := l.quarantine, remounted := l.remounted, boardT2 := l.boardT2, pwrWarn := l.pwrWarn, sent := l.sent
             entropyUsed := l.entropyUsed } }

/-- ALWAYS_ON_RAIL_FAILURE (19 R705): all on-die state is lost, and RAIL_EN falls. -/
def execAlwaysOnRailFailure (s : State) : Out := when s.lan.alwaysOn s (offState s)

/-- POWER_ON (18 R664, Table 18-3): every class takes its power-on value, ticks count from 0, and the core rails are enabled; a head has its ENUM_IN held at logic 0
(16 R607). -/
def execPowerOn (head : Bool) (s : State) : Out :=
  when (!s.lan.alwaysOn) s (
    let t := offState s
    let t := t.lanM fun l => { l with alwaysOn := true, refclk := true, railEn := true, railsPg := true, pgAt := some 220000 }
    t.stdM fun d => { d with enumLow := head, position := if head then some 0 else none })

/-- RAILS_PG_CHECK (19 R703): the core domain leaves reset when RAILS_PG is high, and is held in reset otherwise. -/
def execRailsPgCheck (level : Bool) (s : State) : Out :=
  match s.lan.pgAt with
  | none => .next s
  | some t =>
    when (lanternUp s && s.lan.power == .boot && due s t) s (
      if level then startCore (s.lanM fun l => { l with railsPg := true }) else s.lanM fun l => { l with railsPg := false, pgAt := none })

/-- RAILS_PG_FALL (19 R704): a COLD reset follows at once. -/
def execRailsPgFall (s : State) : Out := when (s.lan.coreUp && lanternUp s) s (coldReset (s.lanM fun l => { l with railsPg := false }) 2)

/-! ## The host link (15 R560 to R563; 18 Table 18-7) -/

/-- PERST_N_ASSERT (18 Table 18-7): PERST_N is asserted, or the host link goes down or is hot-reset. -/
def execPerstNAssert (down : Bool) (s : State) : Out :=
  if down then when (lanternUp s && s.hif.mode == .up) s (warmReset s 4)
  else when (lanternUp s && !s.lan.perst) s (warmReset (s.lanM fun l => { l with perst := true }) 4)

/-- The device trains its own host link: every device in flat mode, the head alone in head mode (15 R563). -/
def ownLink (s : State) : Bool := s.std.modeInForce == 1 || s.std.position == some 0

/-- LINK_TRAINING (15 R560, R562; 18 Table 18-3): PERST_N is deasserted, and a core domain that it held starts. The link trains to a width, a rate of
Table 15-1 and a CXL version, which CXL_EN must offer; with width 0 it is still training. -/
def execLinkTraining (width speed cxl : Nat) (flit : Bool) (s : State) : Out :=
  formed ((width == 0 || width == 4 || width == 8 || width == 16) && 1 ≤ speed && speed ≤ 6 && cxl ≤ 2 && flit == (speed == 6)) (
  when (lanternUp s && s.lan.power != .night && s.lan.pgAt.isNone && s.lan.railsPg && (cxl == 0 || s.lan.cxlEn == 1)) s (
    let s := s.lanM fun l => { l with perst := false }
    let s := if s.lan.coreUp then s else startCore s
    if !ownLink s then s
    else if width = 0 then s.hifM fun h => { h with mode := .training }
    else s.hifM fun h => { h with mode := .up, linkWidth := width, linkSpeed := speed, linkCxl := cxl, linkFlit := flit, linkUp := true }))

/-- D3HOT_TO_D0 (18 R676): a DEVICE reset by the host. -/
def execD3hotToD0 (s : State) : Out := when (s.hif.mode == .up) s (deviceReset s 7)

/-! ## Resets that RESET_REQ asked for (17 R656) -/

/-- The reset of a kind that RESET_REQ asked for begins: 1,000 ticks have passed since the response (17 R656). -/
def resetNow (s : State) (k : ResetKind) : Bool := lanternUp s && match s.lan.resetDue with | some (r, some t) => r == k && due s t | _ => false

/-- COLD_RESET (18 R676). -/
def execColdReset (s : State) : Out := when (resetNow s .cold) s (coldReset s 3)

/-- WARM_RESET (18 R676). -/
def execWarmReset (s : State) : Out := when (resetNow s .warm) s (warmReset s 5)

/-- DEVICE_RESET (18 R678). -/
def execDeviceReset (s : State) : Out := when (resetNow s .device) s (deviceReset s 8)

/-! ## The clock monitor (01 R39) -/

/-- REFCLK_LOSS (01 R39): issue stops, and the crash log has the event. -/
def execRefclkLoss (s : State) : Out :=
  when (lanternUp s) s (
    let s := crashDirect s 0x0E 0
    (if s.lan.coreUp then stopIssue s else s).lanM fun l => { l with refclk := false })

/-- REFCLK_RETURN (01 R39): a COLD reset with the always-on rails held; in NIGHT no powered logic remains to be reset (18 Table 18-9). -/
def execRefclkReturn (s : State) : Out :=
  when (s.lan.alwaysOn && !s.lan.refclk) s (
    let s := s.lanM fun l => { l with refclk := true }
    if s.lan.power == .night then s else coldReset s 1)

/-! ## Power states (18 R681 to R685, Table 18-9) -/

/-- DUSK_ENTRY (18 R681). -/
def execDuskEntry (s : State) : Out :=
  match s.lan.idleSince with
  | none => .next s
  | some t => when (lanternUp s && restful s && s.lan.transition.isNone && due s (t + 100000)) s (setPower s .dusk)

/-- DUSK_EXIT (18 R681): a job, a table that the Ephemeris runs, or a write of POWER_REQ. -/
def execDuskExit (s : State) : Out :=
  clocked s (
  when (s.lan.power == .dusk && (!s.eph.jobs.isEmpty || s.eph.switch.isSome || (s.eph.active.isSome && s.eph.enable) || s.lan.transition.isSome)) s
    (setPower (s.lanM fun l => { l with idleSince := none }) .active))

/-- A transition that POWER_REQ asked for is in progress (18 R682). -/
def asked (s : State) (req : Nat) : Bool := lanternUp s && s.lan.powerReq == req && s.lan.transition.isSome

/-- No bay has a program of which the status is not yet read (18 R683, R685). -/
def programsDone (s : State) : Bool := s.bays.all (fun b => b.programs.isEmpty)

/-- HBM and LPDDR enter or leave self-refresh (18 R683, R684). -/
def refreshMode (s : State) (to_ : Bool) : State :=
  let f := fun (m : MemMode) => if to_ && m == .ready then MemMode.selfRefresh else if !to_ && m == .selfRefresh then MemMode.ready else m
  { s with hbc := s.hbc.map (fun b => { b with mode := f b.mode }), lpc := s.lpc.map (fun b => { b with mode := f b.mode }) }

/-- TWILIGHT_ENTRY (18 R683, Table 18-8): the TLB empties (05 Table 5-5). -/
def execTwilightEntry (s : State) : Out :=
  when (asked s 2 && s.lan.power == .active && programsDone s) s (
    let s := (refreshMode (restCommands s) true).astM fun a => { a with tlb := [] }
    setPower (s.lanM fun l => { l with transition := none, wdtKick := none, idleSince := none }) .twilight)

/-- TWILIGHT_EXIT (18 R684): the Ephemeris resumes at the first meridian after the exit. -/
def execTwilightExit (s : State) : Out :=
  when (asked s 0 && s.lan.power == .twilight) s (
    let s := (refreshMode s false).ephM fun e => { e with nextMeridian := nextGrid e s.now }
    setPower (s.lanM fun l => { l with transition := none }) .active)

/-- Every stream that is GENERATING ends with a closing packet (18 Table 18-8). -/
def endStreams (s : State) : State := s.lockets.keys.foldl (fun s h => endStream s h stCancelled) s

/-- A mounted coffer's map image is written and its DIRTY cleared, for entry to NIGHT (18 R685). -/
def restBay (s : State) (n : Nat) : State :=
  if (s.bay n).mode == .mounted || (s.bay n).mode == .readOnly || (s.bay n).mode == .detaching then
    writeIdent (writeCounters (mapImage s n) n) n (identFlags 0 4)
  else s

/-- VCORE and the rails switched by RAIL_EN go off: NIGHT (18 R685, R693; 19 R702). -/
def railsOff (s : State) : State := (loseCore s .night).lanM fun l => { l with railEn := false, transition := none }

/-- NIGHT_ENTRY (18 R685, Table 18-8). Packets and completions are posted before the link goes down, as far as the rings allow. -/
def execNightEntry (s : State) : Out :=
  when (asked s 3 && (s.lan.power == .boot || s.lan.power == .active || s.lan.power == .twilight) && programsDone s) s (
    if s.lan.power == .boot then railsOff s
    else
      let s := endStreams (restCommands s)
      let s := (liveCmds s).foldl (endCmd stCancelled) s
      let s := flushHost 65536 s
      railsOff ((List.range 4).foldl restBay s))

/-- NIGHT_EXIT (18 Table 18-9): power-up from tick 20,000 of Table 18-3. -/
def execNightExit (s : State) : Out :=
  when (asked s 0 && s.lan.power == .night) s
    (setPower (s.lanM fun l => { l with transition := none, railEn := true, railsPg := true, vcoreSent := l.vcoreSet, pgAt := some (s.now + 200000) }) .boot)

/-! ## Supply supervision (18 R687 to R691) -/

/-- WARN_MV (18 Table 18-1). -/
def warnMv (s : State) : Nat := s.lan.vcoreSet * 94 / 100

/-- SUPPLY_LOW (18 R687, R688): no further tile issues, and the tiles in flight are discarded. After a controlled stop the wait of R690 starts over. -/
def execSupplyLow (vcore : Nat) (pwrWarn : Bool) (s : State) : Out :=
  when (lanternUp s && s.lan.coreUp && s.lan.lowSince.isNone && (pwrWarn || vcore < warnMv s)) s (
    let s := s.lanM fun l => { l with lowSince := some s.now, pwrWarn := pwrWarn, goodSince := none, freezes := if l.stopped then l.freezes else wrapInc 32 l.freezes }
    let s := discardTiles s
    s.oryM fun y => { y with mode := if y.prog.isSome && (y.mode == .run || y.mode == .windowHold || y.mode == .toCheapPoint) then .replayWait else y.mode })

/-- SUPPLY_RECOVER (18 R689): within 20,000 ticks the discarded tiles are replayed. After a controlled stop VCORE begins to hold (18 R690). -/
def execSupplyRecover (vcore : Nat) (s : State) : Out :=
  match s.lan.lowSince with
  | none => .next s
  | some t =>
    when (lanternUp s && warnMv s ≤ vcore && (s.lan.stopped || s.now ≤ t + 20000)) s (
      let n := s.now - t
      let stop := s.lan.stopped
      let s := s.lanM fun l => { l with lowSince := none, pwrWarn := false, goodSince := if stop then some s.now else none }
      if stop then s else crashDirect s 0x0D n)

/-- CONTROLLED_STOP (18 R690). -/
def execControlledStop (s : State) : Out :=
  match s.lan.lowSince with
  | none => .next s
  | some t =>
    when (lanternUp s && s.lan.coreUp && !s.lan.stopped && due s (t + 20000)) s (
      let n := s.now - t
      let s := fenceAll (s.lanM fun l => { l with stopped := true, stops := wrapInc 32 l.stops })
      let s := ((List.range 4).filter (fun n => (s.bay n).mode == .mounted || (s.bay n).mode == .detaching)).foldl mapImage s
      crashDirect s 0x0D n)

/-- STOP_RECOVERY (18 R690): a COLD reset follows. -/
def execStopRecovery (vcore : Nat) (s : State) : Out :=
  match s.lan.goodSince with
  | none => .next s
  | some t => when (lanternUp s && s.lan.stopped && warnMv s ≤ vcore && due s (t + 100000)) s (coldReset s 2)

/-- VCORE_RESET_LEVEL (18 R691). -/
def execVcoreResetLevel (vcore : Nat) (s : State) : Out :=
  when (lanternUp s && s.lan.coreUp && vcore ≤ s.lan.vcoreSet * 90 / 100) s (coldReset s 2)

/-- AVS_POLL (18 Table 18-1; 19 R706, R709): VCORE and its current, or 0xFFFF when the third attempt has failed. -/
def execAvsPoll (ok : Bool) (vcore amps : Nat) (s : State) : Out :=
  when (lanternUp s && due s (s.lan.lastAvs + 1000)) s
    (s.lanM fun l => { l with lastAvs := s.now, vcoreRead := if ok then vcore % 2 ^ 16 else 0xFFFF, ioutRead := if ok then amps % 2 ^ 16 else 0xFFFF })

/-! ## Thermal limits (18 R692 to R694) -/

/-- The sensor with the highest reading, the lowest such, with its reading. -/
def hottest (readings : List Int) : Int × Nat :=
  readings.zipIdx.tail.foldl (fun b e => if b.1 < e.1 then e else b) (readings.headD 0, 0)

/-- THERMAL_SAMPLE (18 R692): an upward crossing of WARN_LIMIT is counted and sends an EVENT frame. -/
def execThermalSample (readings : List Int) (s : State) : Out :=
  formed (decide (readings.length = 24)) (
  when (lanternUp s && due s (s.lan.lastTemp + 1000)) s (
    let m := hottest readings
    let cross := decide (s.lan.tempMax < (s.lan.warnLimit : Int)) && decide ((s.lan.warnLimit : Int) ≤ m.1)
    let run := (readings.zip s.lan.tripRun).map (fun e => if (s.lan.tripLimit : Int) ≤ e.1 then e.2 + 1 else 0)
    let s := s.lanM fun l => { l with sensors := readings, tempMax := m.1, tempSensor := m.2, tripRun := run, lastTemp := s.now
                                      warnCount := if cross then wrapInc 32 l.warnCount else l.warnCount }
    if cross then watch s 0x6300 7 (natLe 4 s.lan.warnCount) else s))

/-- THERMAL_TRIP (18 R693): three readings of one sensor in a row at or above TRIP_LIMIT. The device enters NIGHT without the steps of R685. -/
def execThermalTrip (s : State) : Out :=
  when (lanternUp s && !s.lan.tripped && s.lan.tripRun.any (fun n => 3 ≤ n)) s (
    let s := s.lanM fun l => { l with thermtrip := true, tripped := true, powerReq := 3, tripCount := wrapInc 32 l.tripCount }
    let s := watch s 0x6300 5 (natLe 1 1)
    let s := ((List.range 4).filter (fun n => (s.bay n).mode == .mounted || (s.bay n).mode == .readOnly || (s.bay n).mode == .detaching)).foldl forceDetach s
    railsOff s)

/-- ANALOG_THERMTRIP (18 R694): it needs neither Lantern nor REFCLK. -/
def execAnalogThermtrip (sensor : Nat) (s : State) : Out :=
  formed (decide (sensor < 24)) (when s.lan.alwaysOn s (s.lanM fun l => { l with thermtrip := true }))

/-! ## The watchdog (17 R657) -/

/-- The watchdog runs: a Setting image runs, and the device is ACTIVE or in DUSK (17 R657). -/
def wdtRuns (s : State) : Bool := s.lan.phase == .running && serving s

/-- WDT_EXPIRY (17 R657): WDT_PERIOD milliseconds have passed without a kick. -/
def execWdtExpiry (s : State) : Out :=
  match s.lan.wdtKick with
  | none => .next s
  | some t =>
    when (lanternUp s && wdtRuns s && s.lan.wdtPeriod != 0 && due s (t + s.lan.wdtPeriod * 100000)) s (
      let s := s.lanM fun l => { l with wdtExpiries := wrapInc 32 l.wdtExpiries, wdtKick := some s.now }
      if s.lan.wdtAction = 1 then deviceReset s 9 else if s.lan.wdtAction = 2 then warmReset s 6 else s)

end Sys2Proof.Machine
end

