-- ==== Sys2Proof/Machine/Almanac.lean ====
section
/-!
DEFINITION. Sys2Proof/Machine/Almanac.lean: the Almanac's requests and the writes that have rows of their own (17 R631 to R661; 18 R662, R663, Table 18-2), and the
sideband that brings and takes its frames.
-/
namespace Sys2Proof.Machine

/-! ## The order of requests (17 R634 to R637) -/

/-- OP of a request. -/
def Req.op (r : Req) : Nat := r.fld 1 1
/-- INDEX of a request. -/
def Req.index (r : Req) : Nat := r.fld 4 2
/-- SUBINDEX of a request. -/
def Req.sub (r : Req) : Nat := r.fld 6 1
/-- LENGTH of a request. -/
def Req.len (r : Req) : Nat := r.fld 10 2
/-- OFFSET of a request. -/
def Req.off (r : Req) : Nat := r.fld 12 4
/-- Data bytes of a request. -/
def Req.data (r : Req) : List Byte := (r.pdu.drop 24).take r.len
/-- Data of a request as a number. -/
def Req.val (r : Req) : Nat := leNat r.data

/-- The request that Lantern executes next: one at a time, in the order in which they reach it (17 R636). -/
def front (s : State) : Option Req := if lanternUp s then s.lan.queue.head? else none

/-- The front request is answered, so it leaves the order. -/
def pop (s : State) : State := s.lanM fun l => { l with queue := l.queue.tail }

/-- VERSION, OP or a reserved field is wrong (17 Tables 17-2, 17-4); the mailbox carries no DISCOVER (17 R659). -/
def malformed (r : Req) : Bool :=
  r.fld 0 1 != 1 || r.fld 8 1 != 0 || r.fld 9 1 != 0 || r.fld 16 4 != 0 || r.fld 20 4 != 0 ||
  (match r.op with
   | 1 => r.fld 7 1 != 0 || r.len = 0 || 1024 < r.len
   | 2 => r.off != 0 || 1024 < r.len || r.pdu.length < 24 + r.len
   | 3 => false
   | 4 => r.from_ == .mailbox
   | _ => true)

/-- The front request of one operation; READ's row also answers requests of no operation. -/
def frontOp (s : State) (op : Nat) : Option Req := (front s).filter (fun r => r.op == op || (op == 1 && !(2 ≤ r.op && r.op ≤ 4)))

/-- Frames answered MALFORMED are counted (17 Table 17-8). -/
def countBad (s : State) (r : Req) (result : Nat) : State :=
  match r.from_ with
  | .sideband _ => if result = 9 then s.lanM fun l => { l with sbErrors := wrapInc 32 l.sbErrors } else s
  | _ => s

/-- The front request is answered with a result and no data (17 R635). -/
def answerReq (s : State) (r : Req) (result : Nat) : State := respond (countBad (pop s) r result) r result

/-- The control complex serves home F: a Setting image runs, and the device is not in TWILIGHT, NIGHT or a reset (17 R637). -/
def servedF (s : State) : Bool := s.lan.phase == .running && serving s && s.lan.coreUp

/-- An entry of home F that the control complex cannot serve (17 R637). -/
def unavailable (s : State) (e : EntrySpec) : Bool := e.home == 1 && !servedF s

/-! ## READ, DESCRIBE and DISCOVER (17 R638 to R643) -/

/-- Result of a READ, 0 where it is served (17 Table 17-4). -/
def readCheck (s : State) (r : Req) : Nat :=
  if malformed r then 9 else
  match entrySpec r.index r.sub with
  | none => 1
  | some e =>
    if e.acc == 2 then 2 else if e.len ≤ r.off then 5 else if unavailable s e then 6
    else if r.off != 0 && !s.lan.snaps.any (fun x => x.from_ == r.from_ && x.entry == r.index * 256 + r.sub) then 8 else 0

/-- The whole value that a READ is served from: the value now at OFFSET 0, the requester's snapshot otherwise (17 R638). -/
def readSource (s : State) (r : Req) : List Byte :=
  match (if r.off = 0 then none else s.lan.snaps.find? (fun x => x.from_ == r.from_ && x.entry == r.index * 256 + r.sub)) with
  | some x => x.value
  | none => entryValue s r.index r.sub

/-- A READ is served: the snapshot is taken or used, and is discarded with the read that reaches LAST (17 R638). -/
def serveRead (s : State) (r : Req) : State :=
  let v := readSource s r
  let last := decide (v.length ≤ r.off + r.len)
  let ty := ((entrySpec r.index r.sub).map (·.ty)).getD 0
  let pdu := respPdu r 0 ty last v.length ((v.drop r.off).take r.len)
  let snap : Snap := { from_ := r.from_, entry := r.index * 256 + r.sub, value := v, tick := s.now }
  let kept := s.lan.snaps.filter (fun x => x.from_ != r.from_)
  let s := (pop s).lanM fun l =>
    { l with snaps := if last then (if r.off = 0 then kept else l.snaps.filter (fun x => !(x.from_ == r.from_ && x.entry == snap.entry)))
                      else if r.off = 0 then kept ++ [snap] else l.snaps }
  reply s r 0 pdu

/-- READ (17 R638). It also answers a request that names no operation, MALFORMED. -/
def execRead (s : State) : Out :=
  match frontOp s 1 with
  | none => .next s
  | some r => .next (if readCheck s r = 0 then serveRead s r else answerReq s r (readCheck s r))

/-- The 16 bytes that describe an entry (17 R643). -/
def descBytes (e : EntrySpec) : List Byte :=
  natLe 1 e.ty ++ natLe 1 e.acc ++ natLe 1 e.cls ++ natLe 1 e.home ++ natLe 2 e.len ++ natLe 2 0 ++ natLe 8 e.dflt

/-- DESCRIBE (17 R643). -/
def execDescribe (s : State) : Out :=
  match frontOp s 3 with
  | none => .next s
  | some r =>
    if malformed r then .next (answerReq s r 9) else
    match entrySpec r.index r.sub with
    | none => .next (answerReq s r 1)
    | some e => .next (reply (pop s) r 0 (respPdu r 0 e.ty true 16 (descBytes e)))

/-- The identity summary (17 R640). -/
def identityBytes (s : State) : List Byte :=
  natLe 8 s.std.deviceId ++ natLe 1 (s.std.position.getD 0xFF) ++ natLe 1 s.lan.nodeId ++ natLe 1 (stdCode s.std.mode) ++ natLe 1 (powerCode s.lan.power) ++
  natLe 1 (boolNat s.lan.quarantine) ++ zeros 3

/-- DISCOVER (17 R640). -/
def execDiscover (s : State) : Out :=
  match frontOp s 4 with
  | none => .next s
  | some r => .next (if malformed r then answerReq s r 9 else reply (pop s) r 0 (respPdu r 0 0 true 16 (identityBytes s)))

/-- READ_SNAPSHOT_EXPIRY (17 R638). -/
def execReadSnapshotExpiry (index : Nat) (s : State) : Out :=
  match s.lan.snaps[index]? with
  | none => .next s
  | some x => when (lanternUp s && due s (x.tick + 100000000)) s (s.lanM fun l => { l with snaps := l.snaps.eraseIdx index })

/-! ## WRITE (17 R639, R644; 18 R663, Table 18-2) -/

/-- POWER_REQ: BUSY in a transition, else a transition of Table 18-9, and no power while TRIPPED (18 R682, Table 18-2). -/
def powerReqCheck (s : State) (v : Nat) : Nat :=
  if s.lan.transition.isSome then 7 else
  let ok := match s.lan.power with
    | .boot => v == 3
    | .active => v == 2 || v == 3
    | .dusk => v == 2 || v == 3
    | .twilight => v == 0 || v == 3
    | .night => v == 0
  if ok && !(v == 0 && s.lan.tripped) then 0 else 2

/-- A Setting start is in progress (18 R671). -/
def starting (s : State) : Bool := match s.lan.phase with | .starting _ => true | _ => false

/-- Verification is in progress (18 R669). -/
def verifying (s : State) : Bool := match s.lan.phase with | .verifying _ _ => true | _ => false

/-- Refusals of the Setting download's entries (18 R673, Table 18-2). -/
def imageCheck (s : State) (j v : Nat) : Nat :=
  if j = 2 then (if s.lan.power != .boot || starting s then 2 else if 3145728 < s.lan.imageOffset + 1024 then 4 else 0)
  else if j = 3 then
    (if v = 1 then (if s.lan.power != .boot || starting s then 2 else 0)
     else if v = 2 then (if s.lan.power != .boot || starting s then 2 else if verifying s then 7 else 0)
     else if v = 3 then (if starting s then 7 else if s.lan.imageOffset != 0xFFFF0000 || s.lan.phase != .verified then 2 else 0)
     else if isHead s && s.lan.power == .active && s.std.epoch != 0 then 0 else 2)
  else 0

/-- DETACH on a bay: BUSY without a mounted coffer; 0x01 needs the firmware (17 R655). -/
def detachCheck (s : State) (n v : Nat) : Nat :=
  let m := (s.bay n).mode
  if !(m == .mounted || m == .readOnly || m == .detaching) then 7 else if v = 1 && !servedF s then 6 else 0

/-- Refusals of a write in the present state (17 R651, R655, R656; 18 Table 18-2; 16 Table 16-6; 13 Table 13-11). -/
def stateCheck (s : State) (i j v : Nat) : Nat :=
  if i == 0x1F00 then imageCheck s j v
  else if i == 0x6400 && j == 1 then (if s.lan.power == .boot || s.lan.power == .night then 0 else 2)
  else if i == 0x6400 && j == 8 then powerReqCheck s v
  else if i == 0x6300 && j == 5 then (if v != 0 || decide ((s.lan.warnLimit : Int) ≤ s.lan.tempMax) then 2 else 0)
  else if i == 0x6100 then
    (if s.lan.resetDue.isSome then 7 else if s.lan.power == .night then (if v == 0xC3 then powerReqCheck s 0 else 2) else 0)
  else if 0x3100 ≤ i && i ≤ 0x3103 then detachCheck s (i - 0x3100) v
  else if i == 0x2000 then (if s.lan.committed then 7 else 0)
  else if i == 0x1101 && j == 5 then (if s.std.mode == .quarantined then 0 else 2)
  else if i == 0x5000 && j == 3 then (if s.lpe.mode == .idle || s.lpe.mode == .exhausted then 0 else 2)
  else 0

/-- Result of a WRITE, 0 where it is acted on (17 Table 17-4, R660). -/
def writeCheck (s : State) (r : Req) : Nat :=
  if malformed r then 9
  else if r.from_ == .mailbox && s.lan.quarantine then 2
  else match entrySpec r.index r.sub with
  | none => 1
  | some e =>
    if e.acc == 0 then 2 else if r.fld 7 1 != e.ty || r.len != e.len then 5 else if !entryRange s r.index r.sub r.val then 4
    else if unavailable s e then 6 else if e.acc == 3 && s.lan.committed then 3 else stateCheck s r.index r.sub r.val

/-- The effect of a write without a row of its own: POWER_REQ starts a transition (18 R682), BUDDY_OVERRIDE changes the buddy (16 R625), and the rest take
their value (17 R639). -/
def plainWrite (s : State) (i j v : Nat) : State :=
  if i == 0x6400 && j == 8 then s.lanM fun l => { l with powerReq := v, transition := some s.now }
  else if i == 0x1101 && j == 6 then rebuddy (entryWrite s i j v)
  else entryWrite s i j v

/-- WRITE (17 R639): an entry without a row of its own, or a refused write of any entry. -/
def execWrite (s : State) : Out :=
  match frontOp s 2 with
  | none => .next s
  | some r =>
    let k := writeCheck s r
    if k != 0 then .next (answerReq s r k)
    else if ownRow r.index r.sub then .next s
    else .next (answerReq (plainWrite s r.index r.sub r.val) r 0)

/-- HOME_F_TIMEOUT (17 R637): the control complex has not answered a request of home F within 100,000 ticks. -/
def execHomeFTimeout (s : State) : Out :=
  match front s with
  | none => .next s
  | some r =>
    let f := ((entrySpec r.index r.sub).map (·.home)).getD 0
    when (!malformed r && f == 1 && (r.op == 1 || r.op == 2) && due s (r.since + 100000)) s (answerReq s r 6)

/-- A write that is acted on stands at the front and names entries of a row. -/
def written (s : State) (mine : Nat → Nat → Nat → Bool) : Option Req :=
  (frontOp s 2).filter (fun r => mine r.index r.sub r.val && writeCheck s r == 0)

/-- The row of one write: the effect, and the answer OK. -/
def onWrite (s : State) (mine : Nat → Nat → Nat → Bool) (k : State → Req → State) : Out :=
  match written s mine with
  | none => .next s
  | some r => .next (answerReq (k s r) r 0)

/-! ## Resets, power and supply (17 R656, R657; 18 Table 18-1) -/

/-- The answer to a RESET_REQ, after whose sending, or after DONE for the mailbox, 1,000 ticks are counted (17 R656). -/
def askReset (s : State) (r : Req) (k : ResetKind) : State :=
  let e := (entrySpec r.index r.sub).getD { ty := 0, len := 0, acc := 0, cls := 0, home := 0 }
  let s := reply (pop s) r 2 (respPdu r 0 e.ty false e.len [])
  s.lanM fun l => { l with resetDue := some (k, match r.from_ with | .sideband _ => none | _ => some (s.now + 1000)) }

/-- RESET_REQ with one value, in a state in which it asks for a reset. -/
def resetReq (s : State) (v : Nat) (k : ResetKind) : Out :=
  match written s (fun i j w => i == 0x6100 && j == 1 && w == v) with
  | none => .next s
  | some r => .next (askReset s r k)

/-- RESET_REQ_DEVICE (17 R656). -/
def execResetReqDevice (s : State) : Out := resetReq s 0x5A .device

/-- RESET_REQ_WARM (17 R656). -/
def execResetReqWarm (s : State) : Out := resetReq s 0xA5 .warm

/-- RESET_REQ_COLD (17 R656); in NIGHT it acts as a write of 0 to POWER_REQ (18 R677). -/
def execResetReqCold (s : State) : Out :=
  if s.lan.power == .night then
    onWrite s (fun i j w => i == 0x6100 && j == 1 && w == 0xC3) fun s _ => s.lanM fun l => { l with powerReq := 0, transition := some s.now }
  else resetReq s 0xC3 .cold

/-- CONTEXT_RESET (18 R680): the answer is sent when the reset is complete. -/
def execContextReset (s : State) : Out := onWrite s (fun i j _ => i == 0x6400 && j == 9) fun s r => contextReset s r.val

/-- VCORE_SET (18 Table 18-1, 19 R706): the setpoint goes to the regulator. Where no attempt on AVSBus has a valid response, the write is answered UNAVAILABLE
and the previous setpoint stays in force (19 R709). -/
def execVcoreSet (s : State) (sent : Bool := true) : Out :=
  if sent then onWrite s (fun i j _ => i == 0x6400 && j == 1) fun s r => s.lanM fun l => { l with vcoreSet := r.val, vcoreSent := r.val }
  else match written s (fun i j _ => i == 0x6400 && j == 1) with
    | none => .next s
    | some r => .next (answerReq s r 6)

/-- TRIPPED_CLEAR (18 R693): THERMTRIP_N is released. -/
def execTrippedClear (s : State) : Out :=
  onWrite s (fun i j _ => i == 0x6300 && j == 5) fun s _ =>
    let was := s.lan.tripped
    let s := s.lanM fun l => { l with tripped := false, thermtrip := false }
    if was then watch s 0x6300 5 (natLe 1 0) else s

/-- WDT_KICK (17 R657): by the firmware through the bridge, or by an operator's write. -/
def execWdtKick (fw : Bool) (s : State) : Out :=
  if fw then when (lanternUp s && wdtRuns s) s (s.lanM fun l => { l with wdtKick := some s.now })
  else onWrite s (fun i j _ => i == 0x6200 && j == 3) fun s _ => s.lanM fun l => { l with wdtKick := if wdtRuns s then some s.now else none }

/-- WDT_PERIOD (17 R657): a write restarts the period. -/
def execWdtPeriod (s : State) : Out :=
  onWrite s (fun i j _ => i == 0x6200 && j == 1) fun s r => s.lanM fun l => { l with wdtPeriod := r.val, wdtKick := l.wdtKick.map (fun _ => s.now) }

/-! ## The sideband (17 R631 to R636, R641, R654) -/

/-- The sideband address of the device (17 R633). -/
def ownMac (s : State) : Nat := 2 * 2 ^ 40 + s.std.deviceId % 2 ^ 40

/-- SIDEBAND_FRAME_RECEIVE (17 R633): frames of the Almanac's EtherType to the device's own address, or broadcast with DISCOVER, carry requests; a bad FCS is
counted, and every other frame is discarded. -/
def execSidebandFrameReceive (dst src etherType : Nat) (fcsOk : Bool) (pdu : List Byte) (s : State) : Out :=
  when (lanternUp s && sbCode s != 0) s (
    if !fcsOk then s.lanM fun l => { l with sbErrors := wrapInc 32 l.sbErrors }
    else
      let r : Req := { from_ := .sideband (src % 2 ^ 48), broadcast := dst == 2 ^ 48 - 1, pdu := pdu, since := s.now }
      if etherType == 0x88B5 && (dst == ownMac s || (r.broadcast && r.op == 4)) then
        enqueueReq (s.lanM fun l => { l with sbFrames := wrapInc 32 l.sbFrames }) r
      else s)

/-- The PDU of an EVENT frame (17 R641). -/
def eventPdu (s : State) (entry : Nat) (value : List Byte) : List Byte :=
  let ty := ((entrySpec (entry / 256) (entry % 256)).map (·.ty)).getD 0
  padTo 46 (natLe 1 1 ++ natLe 1 0x10 ++ natLe 2 s.lan.eventSeq ++ natLe 2 (entry / 256) ++ natLe 1 (entry % 256) ++ natLe 1 ty ++ natLe 1 0 ++ natLe 1 1 ++
    natLe 2 value.length ++ natLe 4 0 ++ natLe 4 value.length ++ natLe 4 0 ++ value)

/-- EVENT (17 R641): the oldest change of a watched entry becomes a frame. -/
def execEvent (s : State) : Out :=
  match s.lan.events with
  | [] => .next s
  | e :: rest =>
    when (lanternUp s) s (
      if s.lan.eventDest = 0 then s.lanM fun l => { l with events := rest }
      else s.lanM fun l =>
        { l with events := rest, eventSeq := wrapInc 16 l.eventSeq, tx := l.tx ++ [{ dest := l.eventDest, pdu := eventPdu s e.1 e.2 }] })

/-- A sent frame's consequence: a NODE_ID comes into force at the next PLCA cycle, and a reset begins 1,000 ticks later (17 R654, R656). -/
def frameSent (s : State) (f : TxFrame) : State :=
  s.lanM fun l =>
    { l with sent := l.sent ++ [f], nodeDue := if f.act = 1 then some true else l.nodeDue
             resetDue := if f.act = 2 then l.resetDue.map (fun k => (k.1, some (s.now + 1000))) else l.resetDue }

/-- TRANSMIT_OPPORTUNITY (17 R632): one frame leaves in the device's own opportunity; a collision there is counted and the frame waits. -/
def execTransmitOpportunity (collision : Bool) (s : State) : Out :=
  when (lanternUp s && sbCode s != 0) s (
    let s := if s.lan.nodeDue == some true then s.lanM fun l => { l with nodeInForce := l.nodeId, nodeDue := none } else s
    if collision then (if sbCode s = 1 then s.lanM fun l => { l with sbCollisions := wrapInc 32 l.sbCollisions } else s)
    else match s.lan.tx with
    | [] => s
    | f :: rest => frameSent (s.lanM fun l => { l with tx := rest }) f)

/-- NODE_ID (17 R654): the new ID takes effect after the response has been sent. -/
def execNodeId (s : State) : Out :=
  match written s (fun i j _ => i == 0x1010 && j == 1) with
  | none => .next s
  | some r =>
    let e := (entrySpec r.index r.sub).getD { ty := 0, len := 0, acc := 0, cls := 0, home := 0 }
    let s := (pop s).lanM fun l => { l with nodeId := r.val, nodeDue := some (match r.from_ with | .sideband _ => false | _ => true) }
    .next (reply s r 1 (respPdu r 0 e.ty false e.len []))

/-- GO (17 R659): the host submits the mailbox PDU. -/
def execGo (s : State) : Out := when (lanternUp s && hostReach s) s (mboxGo s)

/-! ## Configuration commit (17 R651, R652) -/

/-- Units of the checkpoint partition of a percentage (09 R338). -/
def ckptUnits (t2 percent : Nat) : Nat := percent * t2 / 100 / 8 * 8

/-- The entry named by the first check of the commit that fails, as index · 256 + subindex (17 R652). -/
def commitFail (s : State) : Option Nat :=
  let g := s.lan.staged
  let area := fun (st : Nat) => 2 ^ 30 + g.arenaMib.getD st 0 * 2 ^ 20 + g.poolPages.getD st 0 * 65536 + (if st = 0 then g.locketMax * 64 else 0)
  match (List.range 8).find? (fun st => 44 * 2 ^ 30 < area st) with
  | some st => some ((0x2200 + st) * 256 + 1)
  | none =>
    if 512 < g.captureBuf then some (0x3800 * 256 + 2)
    else if s.lan.t2Units != 0 && ckptUnits s.lan.t2Units g.ckptPercent < 8 then some (0x3000 * 256 + 1)
    else ((List.range 10).find? (fun k => 1 < g.switches.getD k 0)).map (fun k => 0x2100 * 256 + k + 1)

/-- BAR2 offset of the histogram table, in the control area of stack 0 (11 R436; log 46). -/
def histPlace : Nat := 0x100000

/-- BAR2 offset of the fault log, in the control area of stack 0 (13 R515; log 46). -/
def logPlace : Nat := 0x80000

/-- The staged values reach the registers, T1 and T2 are laid out, and the configuration is locked (17 R651). -/
def commitConfig (s : State) : State :=
  let g := s.lan.staged
  let on := fun (k : Nat) => g.switches.getD k 0 == 1
  let ck := ckptUnits s.lan.t2Units g.ckptPercent
  { s with
    ory := { s.ory with abftEn := on 0, checkOff := !on 0 }, lpe := { s.lpe with patrolEn := on 1 }, ast := { s.ast with dropEn := on 2, pool := g.poolPages }
    smp := { s.smp with lookaheadEn := on 3, hostDraftEn := on 4 }, hbc := s.hbc.map (fun b => { b with copyEn := on 5 })
    bays := s.bays.map (fun b => { b with patrolEn := on 6 }), eph := { s.eph with alignEn := on 7 }
    integ := { s.integ with plannedEn := on 8, isolateEn := on 9, logBase := logPlace }, traffic := { s.traffic with histOffset := histPlace }
    cur := { s.cur with ckptSize := ck, t2Size := s.lan.t2Units - ck }, ckpt := { s.ckpt with captureBuf := g.captureBuf }
    lan := { s.lan with config := g, committed := true, configError := 0 } }

/-- The end of a CONFIG_COMMIT: the entry that fails a check is named, or the configuration is in force (17 R651). -/
def commitWith (s : State) (r : Req) : Option Nat → State
  | some e => answerReq (s.lanM fun l => { l with configError := e }) r 4
  | none => answerReq (commitConfig s) r 0

/-- CONFIG_COMMIT (17 R651): the response is RANGE where a check fails, and nothing changes but CONFIG_ERROR. -/
def execConfigCommit (s : State) : Out :=
  match written s (fun i j _ => i == 0x2000 && j == 1) with
  | none => .next s
  | some r => .next (commitWith s r (commitFail s))

/-! ## Logs and counters (13 R515, R502; 11 R436; 10 R414) -/

/-- CRASH_CLEAR (17 Table 17-11): CRASH_COUNT is kept. -/
def execCrashClear (s : State) : Out := onWrite s (fun i j _ => i == 0x5300 && j == 3) fun s _ => s.lanM fun l => { l with crashLog := [] }

/-- RETIRED_CLEAR (13 R502): the list is empty in Lantern and in board identity memory, with effect from the next self test. -/
def execRetiredClear (s : State) : Out :=
  onWrite s (fun i j _ => i == 0x5000 && j == 3) fun s _ => { s with lpe := { s.lpe with retired := 0 }, lan := { s.lan with retired := 0 } }

/-- HIST_CLEAR (11 R436). -/
def execHistClear (s : State) : Out := onWrite s (fun i j _ => i == 0x4200 && j == 7) fun s _ => s.trafM fun a => { a with hist := [], samples := 0 }

/-- ACCOUNT_CLEAR (10 R414, 17 Table 17-13): SINCE is the tick of the clear. -/
def execAccountClear (s : State) : Out :=
  onWrite s (fun i j _ => 0x7000 ≤ i && i ≤ 0x73FF && j == 2) fun s r =>
    s.ephM fun e => { e with accounts := e.accounts.set (r.index - 0x7000) { since := s.now } }

/-! ## The Strand (16 R612, R620, R622, R627) -/

/-- REJOIN (16 Table 16-6, 13 R509): every locket, charm, facet and collection is freed, and the device returns to ENUM; it stays quarantined until admitted. -/
def execRejoin (s : State) : Out :=
  onWrite s (fun i j _ => i == 0x1101 && j == 5) fun s _ =>
    let s := (freeObjects s).lanM fun l => { l with remounted := some [] }
    settleEnum (setStd (s.stdM fun d => { d with epoch := 0, members := 0, buddy := none, prepared := none, change := none }) .enum)

/-- FORM_DOMAIN (16 R620, R611): on a head in JOINING with a count of 16 to 64. -/
def execFormDomain (s : State) : Out :=
  onWrite s (fun i j _ => i == 0x1101 && j == 2) fun s _ =>
    if s.std.mode == .joining && s.std.position == some 0 && 16 ≤ s.std.count && s.std.count ≤ 64 then startChange s 1 (2 ^ s.std.count - 1) else refuseChange s

/-- MEMBER_REQ (16 R620): on a device in MEMBER. -/
def execMemberReq (s : State) : Out :=
  onWrite s (fun i j _ => i == 0x1101 && j == 1) fun s r =>
    if s.std.mode == .member then startChange s (nextEpoch s.std.epoch) r.val else refuseChange s

/-- CHAIN_ONLY (16 R612): writing 0 commits the routing table as a whole. -/
def execChainOnly (s : State) : Out :=
  onWrite s (fun i j _ => i == 0x1101 && j == 8) fun s r =>
    s.stdM fun d => { d with chainOnly := r.val, routeActive := if r.val = 0 then d.route else d.routeActive }

/-- PORT_FENCE (16 R627): Lantern holds a port in electrical idle, or releases it to train again; a quarantined device's ports 2 to 7 stay fenced (13 R507). -/
def execPortFence (s : State) : Out :=
  onWrite s (fun i _ _ => i == 0x1102) fun s r =>
    let n := r.sub - 1
    let s := s.portM n fun p => { p with fence := r.val }
    if !s.lan.coreUp then s
    else if r.val = 1 then (if (s.port n).mode == .fenced then s else stopPort s n .fenced)
    else if s.lan.quarantine && 2 ≤ n then s else freePort s n

/-! ## Detach by request (17 R655; 09 R372, R373) -/

/-- COOPERATIVE_DETACH (09 R372): from the DETACH entry (source 0), from CFC_CTL (1) or from COFn_ATTN_N (2). -/
def execCooperativeDetach (bay source : Nat) (s : State) : Out :=
  formed (decide (bay < 4) && decide (source < 3)) (
  if source = 0 then onWrite s (fun i j w => i == 0x3100 + bay && j == 2 && w == 1) fun s _ => startDetach s bay
  else when (servedF s) s (startDetach s bay))

/-- FORCED_DETACH (09 R373, 17 R655): Lantern alone; OK once COFn_PWREN has been released. -/
def execForcedDetach (s : State) : Out :=
  onWrite s (fun i j w => 0x3100 ≤ i && i ≤ 0x3103 && j == 2 && w == 0xA5) fun s r => forceDetach s (r.index - 0x3100)

end Sys2Proof.Machine
end

