-- ==== Sys2Proof/Machine/Bringup.lean ====
section
/-!
DEFINITION. Sys2Proof/Machine/Bringup.lean: the Setting image: its download, its checks, its start and its replication over the Strand (18 R666 to R675, R722;
09 R325, R335; 08 R312).
-/
namespace Sys2Proof.Machine

/-! ## The image and its checks (18 R666 to R669) -/

/-- Staged image bytes. -/
def stagedBytes (s : State) (off n : Nat) : List Byte := s.lan.staging.readN off n

/-- IMAGE_BYTES of the staged image (18 Table 18-4). -/
def stagedLen (s : State) : Nat := leNat (stagedBytes s 20 4)

/-- The staged image as long as its header says. -/
def stagedImage (s : State) : List Byte := stagedBytes s 0 (stagedLen s)

/-- A key of the image: X and Y, big-endian (18 R666, R668). -/
def keyAt (b : List Byte) (off : Nat) : Nat × Nat := (beNat (bytesAt b off 48), beNat (bytesAt b (off + 48) 48))

/-- Check 0x01 of 18 Table 18-5. -/
def lengthOk (s : State) (offset : Nat) : Bool :=
  let n := stagedLen s
  decide (n ≤ offset) && decide (offset < n + 1024) && n % 64 == 0 && decide (4096 ≤ n) && decide (n ≤ 3145728)

/-- Check 0x02 of 18 Table 18-5. -/
def formatOk (img : List Byte) : Bool :=
  let n := img.length
  let k := fieldAt img 28 4
  img.take 8 == ascii "CL9SETNG" && fieldAt img 8 2 == 1 && fieldAt img 10 2 == 512 && decide (fieldAt img 12 4 ≤ 1) && zeroAt img 128 384 &&
  zeroAt img (n - 32) 32 && decide (k ≤ 8) && zeroAt img (512 + 96 * k) (96 * (8 - k)) && decide (1280 ≤ fieldAt img 24 4) && decide (fieldAt img 24 4 < n - 128)

/-- Check 0x04 of 18 Table 18-5: the signature over the image digest (18 R667). -/
def imageSigned (img : List Byte) : Bool :=
  let b := img.drop (img.length - 128)
  ecdsaVerify (keyAt img 32) (beNat (sha384 (img.take (img.length - 128)))) (beNat (bytesAt b 0 48)) (beNat (bytesAt b 48 48))

/-- The trust list of an image (18 R668). -/
def trustList (img : List Byte) : List (Nat × Nat) := (List.range (fieldAt img 28 4)).map (fun k => keyAt img (512 + 96 * k))

/-- The code of the first check that fails, 0 where all pass (18 Table 18-5). -/
def verifyCode (s : State) (offset : Nat) : Nat :=
  let img := stagedImage s
  if !lengthOk s offset then 1
  else if !formatOk img then 2
  else if beNat (sha384 (bytesAt img 32 96)) != s.lan.fusedKeyHash then 3
  else if !imageSigned img then 4
  else if fieldAt img 16 4 < s.lan.fusedSvn then 5
  else if !(trustList img).all (fun k => onCurve k.1 k.2) then 6
  else 0

/-! ## The download (18 R673) -/

/-- START: the staging area is cleared. -/
def clearStaging (s : State) : State := s.lanM fun l => { l with staging := [], imageOffset := 0, phase := .none }

/-- A piece enters the staging area at IMAGE_OFFSET. -/
def stagePiece (s : State) (data : List Byte) : State :=
  s.lanM fun l => { l with staging := l.staging.writeN l.imageOffset data, imageOffset := l.imageOffset + data.length, phase := .none }

/-- VERIFY: the checks begin; the image runs by itself afterwards where it came by REPLICATE. -/
def beginVerify (s : State) (run : Bool) : State := s.lanM fun l => { l with phase := .verifying l.imageOffset run, imageOffset := 0xFFFFFFFF }

/-- IMAGE_START (18 R673). -/
def execImageStart (s : State) : Out := onWrite s (fun i j v => i == 0x1F00 && j == 3 && v == 1) fun s _ => clearStaging s

/-- IMAGE_DATA (18 R673). -/
def execImageData (s : State) : Out := onWrite s (fun i j _ => i == 0x1F00 && j == 2) fun s r => stagePiece s r.data

/-- IMAGE_VERIFY (18 R669). -/
def execImageVerify (s : State) : Out := onWrite s (fun i j v => i == 0x1F00 && j == 3 && v == 2) fun s _ => beginVerify s false

/-! ## The start of an image (18 R670, R671, R722) -/

/-- RUN: the fuses take the image's SVN where it says so, and the start begins: the firmware enables the stack controllers and trains the memories
(18 R670, R671, R722; 09 R325, R335). -/
def runImage (s : State) : State :=
  let svn := leNat (stagedBytes s 16 4)
  let commit := leNat (stagedBytes s 12 4) % 2 == 1
  let s := s.lanM fun l => { l with fusedSvn := if commit then max l.fusedSvn svn else l.fusedSvn, phase := .starting s.now }
  { s with hbc := s.hbc.map (fun b => { b with enable := true, mode := .training })
           lpc := s.lpc.map (fun b => { b with mode := if s.lan.boardT2.2.1 = 0 then .reset else .training }) }

/-- VERIFY_DONE (18 R669). -/
def execVerifyDone (s : State) : Out :=
  match s.lan.phase with
  | .verifying offset run =>
    when (lanternUp s && s.lan.coreUp) s (
      let code := verifyCode s offset
      let s := s.lanM fun l => { l with imageOffset := 0xFFFF0000 + code, phase := if code = 0 then .verified else .none }
      if run && code = 0 then runImage s else s)
  | _ => .next s

/-- IMAGE_RUN (18 R670, R671). -/
def execImageRun (s : State) : Out := onWrite s (fun i j v => i == 0x1F00 && j == 3 && v == 3) fun s _ => runImage s

/-- A start fails: the control cores halt and IMAGE_OFFSET reads the code (18 R671). -/
def failStart (s : State) (code : Nat) : State := s.lanM fun l => { l with imageOffset := 0xFFFF0000 + code, phase := .none }

/-- The HBM stacks have trained, or failed (09 R325). -/
def trainHbm (s : State) (ok : List Bool) : State :=
  { s with hbc := s.hbc.zipIdx.map fun e =>
      { e.1 with mode := if ok.getD e.2 false then .ready else .failed, evTrainFail := e.1.evTrainFail || !ok.getD e.2 false } }

/-- A generation, density and rate of 09 Table 9-2. -/
def partsListed (b : Nat × Nat × Nat) : Bool :=
  decide (b.2.1 ≤ 16) && (if b.1 = 1 then [9600, 8533, 7500, 6400].contains b.2.2 else b.1 == 0 && [6400, 5500].contains b.2.2)

/-- T2 is trained, or recorded as not fitted (09 R335, R336): for each controller the first channel that failed training. -/
def trainT2 (s : State) (fail : List (Option Nat)) : State :=
  let b := s.lan.boardT2
  if b.2.1 = 0 then s else
  let ok := partsListed b && fail.all (·.isNone)
  { s with
    lpc := s.lpc.zipIdx.map fun e =>
      { e.1 with gen := b.1, gib := b.2.1, mts := b.2.2, mode := if ok then .ready else .failed, channel := (fail.getD e.2 none).getD 0xFF
                 evTrainFail := e.1.evTrainFail || (fail.getD e.2 none).isSome }
    lan := { s.lan with t2Units := if ok then b.2.1 * 2 ^ 24 else 0 } }

/-- The boot nonce of a start: a value of the entropy source other than the last one (08 R312; log 3). -/
def drawNonce (s : State) : Nat := (s.lan.lastNonce + 1 + (Config.entropy s.lan.entropyUsed).toNat % (2 ^ 24 - 1)) % 2 ^ 24

/-- The firmware sets the enables (18 R722). -/
def enableUnits (s : State) : State :=
  { s with
    ory := { s.ory with enable := true, halt := false, mode := .idle }, ast := { s.ast with enable := true }, smp := { s.smp with enable := true }
    fil := { s.fil with enable := true }, stm := { s.stm with enable := true }, cur := { s.cur with enable := true }
    sieves := s.sieves.map (fun u => { u with enable := true }), eph := { s.eph with enable := true }, bays := s.bays.map (fun b => { b with enable := true }) }

/-- A start completes: the device is ACTIVE and the image runs (18 R671; 08 R312). -/
def completeStart (s : State) : State :=
  let nonce := drawNonce s
  let img := stagedImage s
  let s := (enableUnits s).lanM fun l =>
    { l with phase := .running, settingSvn := fieldAt img 16 4, image := img, trust := trustList img, bootNonce := nonce, lastNonce := nonce, extentCount := 0
             entropyUsed := l.entropyUsed + 1, idleSince := none, wdtKick := none }
  setPower s .active

/-- The Loupe's self test has ended: it runs once after the reset that left the Loupe IDLE, and a later BIST_START is ignored (03 R114, Table 3-20). -/
def tested (s : State) : Bool := s.lpe.mode == .ready || s.lpe.mode == .exhausted

/-- SETTING_START_DONE (18 R671, Table 18-5): the outcome of training and of the control-SRAM self test; the Loupe's own is BIST_DONE's. -/
def execSettingStartDone (hbmOk : List Bool) (t2Fail : List (Option Nat)) (sramOk : Bool) (s : State) : Out :=
  formed (decide (hbmOk.length = 8) && decide (t2Fail.length = 4)) (
  match s.lan.phase with
  | .starting since =>
    let hbm := hbmOk.all id
    when (lanternUp s && s.lan.coreUp && decide (s.now ≤ since + 60000000) && (!hbm || !sramOk || tested s)) s (
      let s := trainHbm s hbmOk
      if !hbm then failStart s 0x10
      else
        let s := trainT2 s t2Fail
        if !sramOk then failStart s 0x12 else if s.lpe.mode == .exhausted then failStart s 0x11 else completeStart s)
  | _ => .next s)

/-- SETTING_START_TIMEOUT (18 Table 18-5). -/
def execSettingStartTimeout (s : State) : Out :=
  match s.lan.phase with
  | .starting since => when (lanternUp s && due s (since + 60000001)) s (failStart s 0x13)
  | _ => .next s

/-! ## Replication (18 R675) -/

/-- One copy of the running image is queued for a member. -/
def sendImage (s : State) (p : Nat) : State :=
  submit s { cookie := 0, op := 5, units := ceilDiv s.lan.image.length 4096, dst := imageTarget, peer := p, epoch := s.std.epoch, purpose := .peer p }

/-- IMAGE_REPLICATE (18 R675): to every member whose POWER_STATE is 4, given as a set of positions. -/
def execImageReplicate (booting : Nat) (s : State) : Out :=
  onWrite s (fun i j v => i == 0x1F00 && j == 3 && v == 0x10) fun s _ =>
    ((List.range 64).filter (fun p => bitAt s.std.members p && bitAt booting p && p != ownPos s)).foldl sendImage s

/-- IMAGE_TRANSFER_RECEIVE (18 R675): a device in BOOT whose transfer is complete acts as START, IMAGE_DATA and VERIFY, and as RUN when verification passes. -/
def execImageTransferReceive (peer num : Nat) (s : State) : Out :=
  match xferOf s peer num with
  | none => .next s
  | some x =>
    when (lanternUp s && s.lan.coreUp && x.op == 5 && x.target == imageTarget && decide (x.total ≤ x.data.length)) s (
      let ok := s.lan.power == .boot && !starting s && x.total ≤ 3145728
      let data := padTo (ceilDiv x.total 1024 * 1024) (x.data.take x.total)
      let t := dropIn s x
      let t := if ok then beginVerify (stagePiece (clearStaging t) data) true else t
      sendMsg t peer (xferDone num (if !ok then 5 else if x.tarnish.isEmpty then 0 else 4) (if ok then ceilDiv x.total 4096 else 0)
        (if ok then sha256 (padTo x.total x.data) else zeros 32)))

end Sys2Proof.Machine
end

