-- ==== Sys2Proof/Machine/Ends.lean ====
section
/-!
DEFINITION. Sys2Proof/Machine/Ends.lean: the ends of Courier descriptors (09 R348 to R350).
-/
namespace Sys2Proof.Machine

/-- The end of a SESSION_OPEN's or a recompute's ring copy (05 R171, R207; 08 R294). -/
def endRing (s : State) (h status : Nat) : State :=
  match s.lockets.get? h with
  | none => s
  | some l =>
    match (if opening l then l.move else none) with
    | some m =>
      let id := m.cmd.getD 0
      if status = 0 || status = 4 then opened (unpinReplicas (copyRing s h) (pinCmd id)) h id
      else completeId (dropLocket (unpinReplicas s (pinCmd id)) h) id stTarnished 0 0 0
    | none => if l.recomputing then copyRing s h else s

/-- What the end of a descriptor does at once; for the other purposes the control complex has its completion record to take (09 R350). -/
def endDesc (s : State) (d : Desc) (status : Nat) : State :=
  let ok := status == 0 || status == 4
  let note := fun (s : State) => s.curM fun u => { u with done := u.done ++ [doneRec s d status] }
  match d.purpose with
  | .demote h => if ok then note s else failDemotion s h
  | .charmMaster ci => if ok then finishCharm s ci else failCharm s ci
  | .put id => if ok then finishPut s id else s.curM fun u => { u with puts := u.puts.filter (fun p => p.cmd != id) }
  | .ring h => endRing s h status
  | .freeExt _ | .peer _ | .peerExt _ _ => s
  | .cut n => if ok then drainOn n 5 s else note s
  | .coffer m => if ok then endCopy s d m else s
  | .restore id => endRestore s id status
  | _ => note s

/-- The digest that a READ_EXTENT forms over the plaintext that it delivers is not its header's (08 R308; 09 Table 9-7). -/
def digestBad (s : State) (d : Desc) : Bool :=
  d.op == 3 && d.digest &&
  match s.extents.get? d.extent with
  | none => true
  | some e =>
    match readHead (e.kind == .charm) (e.data.take 4096) with
    | none => true
    | some h => match plainOf s h e.data with
      | some p => bodyDigest e.tarnish p != h.digest
      | none => true

/-- A status says what the packets have shown: INVALID of a broken layout alone, the digest of a read, the tarnish of a transfer, the peer's answer, or no path
to it (09 Table 9-7). -/
def statusFits (s : State) (d : Desc) (status : Nat) : Bool :=
  (status == 7) == !descOk d &&
  (if d.op == 5 || peerFetch s d then (match d.peerStatus with
      | some p => status == p
      | none => status == 7 || (status == 5 && ((routePort s d.peer).isNone || !bitAt s.std.members d.peer)))
    else if status = 3 then digestBad s d
    else if status = 0 || status = 4 then !digestBad s d && (d.op == 6 || d.tarnished == (status == 4))
    else true)

/-- The descriptor may end with a status: all its packets have left, or the status is a failure; one that is not abandoned (09 R339, R350). -/
def mayEnd (s : State) (d : Desc) (status : Nat) : Bool :=
  status ≤ 7 && status != 1 && statusFits s d status &&
  (if status = 0 || status = 4 || status = 3 then d.sent == d.units && (d.op != 2 || writeSealed s d) else true)

/-- COURIER_COMPLETE (09 R346, R348, R350): the descriptor's completion record is written. -/
def execCourierComplete (cookie status : Nat) (s : State) : Out :=
  clocked s (
  match channelOf s cookie with
  | none => .next s
  | some (_, d) =>
    when (mayEnd s d status) s (
      let s := removeDesc (writeRecord s d status) d
      let s := if status = 0 || status = 4 then s else undoWrite s d
      let s := s.curM fun u => { u with evTarnish := u.evTarnish || status == 4, evDigest := u.evDigest || status == 3
                                        digestFail := if status == 3 then wrapInc 32 u.digestFail else u.digestFail }
      endDesc s d status))

/-- COURIER_ABANDON (09 R349): the control complex abandons a descriptor with ABANDONABLE set; a demotion whose bay is being detached fails as its target. -/
def execCourierAbandon (cookie : Nat) (s : State) : Out :=
  clocked s (
  match (allDescs s).find? (fun d => d.cookie == cookie) with
  | none => .next s
  | some d =>
    when d.abandonable s (
      match d.purpose with
      | .demote h => if d.tier = 3 && (s.bay d.bay).mode != .mounted then failDemotion s h else abandonDemotion s h stCancelled
      | _ => endDesc (abandonDesc s d) d 1))

end Sys2Proof.Machine
end

