-- ==== Sys2Proof/Machine/Dispatch.lean ====
section
/-!
DEFINITION. Sys2Proof/Machine/Dispatch.lean: one arm per command of the opcode table.
-/
namespace Sys2Proof.Machine

/-- The effect of a command on everything but the queue. -/
def exec (i : Instr) (s : State) : Host.Outcome State Fault Refusal :=
  match i with
  | .nop id => Sys2Proof.Machine.execNop id s
  | .fence id => Sys2Proof.Machine.execFence id s
  | .fenceDone id => Sys2Proof.Machine.execFenceDone id s
  | .loadParure id header => Sys2Proof.Machine.execLoadParure id header s
  | .parureCopyDone slot image => Sys2Proof.Machine.execParureCopyDone slot image s
  | .unloadParure id => Sys2Proof.Machine.execUnloadParure id s
  | .facetLoad id image => Sys2Proof.Machine.execFacetLoad id image s
  | .facetDrop id => Sys2Proof.Machine.execFacetDrop id s
  | .sessionOpen id => Sys2Proof.Machine.execSessionOpen id s
  | .sessionClose id => Sys2Proof.Machine.execSessionClose id s
  | .ingest id data => Sys2Proof.Machine.execIngest id data s
  | .generate id => Sys2Proof.Machine.execGenerate id s
  | .cancel id => Sys2Proof.Machine.execCancel id s
  | .park id => Sys2Proof.Machine.execPark id s
  | .revive id => Sys2Proof.Machine.execRevive id s
  | .charmCreate id => Sys2Proof.Machine.execCharmCreate id s
  | .charmDrop id => Sys2Proof.Machine.execCharmDrop id s
  | .batchDefine id => Sys2Proof.Machine.execBatchDefine id s
  | .batchRelease id => Sys2Proof.Machine.execBatchRelease id s
  | .batchJoin id => Sys2Proof.Machine.execBatchJoin id s
  | .batchLeave id => Sys2Proof.Machine.execBatchLeave id s
  | .ephemerisLoad id image => Sys2Proof.Machine.execEphemerisLoad id image s
  | .ephemerisSwitch id => Sys2Proof.Machine.execEphemerisSwitch id s
  | .search id query poison => Sys2Proof.Machine.execSearch id query poison s
  | .itemInsert id block poison => Sys2Proof.Machine.execItemInsert id block poison s
  | .itemDelete id => Sys2Proof.Machine.execItemDelete id s
  | .collectionMerge id => Sys2Proof.Machine.execCollectionMerge id s
  | .collectionCreate id => Sys2Proof.Machine.execCollectionCreate id s
  | .collectionDestroy id => Sys2Proof.Machine.execCollectionDestroy id s
  | .select id => Sys2Proof.Machine.execSelect id s
  | .snapshot id => Sys2Proof.Machine.execSnapshot id s
  | .restore id params select resume replay peer => Sys2Proof.Machine.execRestore id params select resume replay peer s
  | .manifestRead id => Sys2Proof.Machine.execManifestRead id s
  | .query id => Sys2Proof.Machine.execQuery id s
  | .accountRead id => Sys2Proof.Machine.execAccountRead id s
  | .descriptorFetch ring desc => Sys2Proof.Machine.execDescriptorFetch ring desc s
  | .tokenRefill => Sys2Proof.Machine.execTokenRefill s
  | .sqTail ring value => Sys2Proof.Machine.execSqTail ring value s
  | .cqHead ring value => Sys2Proof.Machine.execCqHead ring value s
  | .ack ring data => Sys2Proof.Machine.execAck ring data s
  | .slotSel ring off data => Sys2Proof.Machine.execSlotSel ring off data s
  | .slotApertureWrite ring off data => Sys2Proof.Machine.execSlotApertureWrite ring off data s
  | .bar2Write addr data => Sys2Proof.Machine.execBar2Write addr data s
  | .bar2Read addr len => Sys2Proof.Machine.execBar2Read addr len s
  | .bar4Access addr len data => Sys2Proof.Machine.execBar4Access addr len data s
  | .completionPost ring => Sys2Proof.Machine.execCompletionPost ring s
  | .coalTimeExpiry ring => Sys2Proof.Machine.execCoalTimeExpiry ring s
  | .deliveryWrite => Sys2Proof.Machine.execDeliveryWrite s
  | .keyInstall slot tenant => Sys2Proof.Machine.execKeyInstall slot tenant s
  | .keySelect slot tenant => Sys2Proof.Machine.execKeySelect slot tenant s
  | .keyDeselect slot tenant => Sys2Proof.Machine.execKeyDeselect slot tenant s
  | .cutKey slot tenant => Sys2Proof.Machine.execCutKey slot tenant s
  | .registerWrite fw off data => Sys2Proof.Machine.execRegisterWrite fw off data s
  | .perstNAssert down => Sys2Proof.Machine.execPerstNAssert down s
  | .linkTraining width speed cxl flit => Sys2Proof.Machine.execLinkTraining width speed cxl flit s
  | .d3hotToD0 => Sys2Proof.Machine.execD3hotToD0 s
  | .coldReset => Sys2Proof.Machine.execColdReset s
  | .warmReset => Sys2Proof.Machine.execWarmReset s
  | .deviceReset => Sys2Proof.Machine.execDeviceReset s
  | .contextReset => Sys2Proof.Machine.execContextReset s
  | .resetReqDevice => Sys2Proof.Machine.execResetReqDevice s
  | .resetReqWarm => Sys2Proof.Machine.execResetReqWarm s
  | .resetReqCold => Sys2Proof.Machine.execResetReqCold s
  | .powerOn head => Sys2Proof.Machine.execPowerOn head s
  | .railsPgCheck level => Sys2Proof.Machine.execRailsPgCheck level s
  | .railsPgFall => Sys2Proof.Machine.execRailsPgFall s
  | .duskEntry => Sys2Proof.Machine.execDuskEntry s
  | .duskExit => Sys2Proof.Machine.execDuskExit s
  | .twilightEntry => Sys2Proof.Machine.execTwilightEntry s
  | .twilightExit => Sys2Proof.Machine.execTwilightExit s
  | .nightEntry => Sys2Proof.Machine.execNightEntry s
  | .nightExit => Sys2Proof.Machine.execNightExit s
  | .supplyLow vcore pwrWarn => Sys2Proof.Machine.execSupplyLow vcore pwrWarn s
  | .supplyRecover vcore => Sys2Proof.Machine.execSupplyRecover vcore s
  | .controlledStop => Sys2Proof.Machine.execControlledStop s
  | .stopRecovery vcore => Sys2Proof.Machine.execStopRecovery vcore s
  | .vcoreResetLevel vcore => Sys2Proof.Machine.execVcoreResetLevel vcore s
  | .thermalSample readings => Sys2Proof.Machine.execThermalSample readings s
  | .thermalTrip => Sys2Proof.Machine.execThermalTrip s
  | .analogThermtrip sensor => Sys2Proof.Machine.execAnalogThermtrip sensor s
  | .trippedClear => Sys2Proof.Machine.execTrippedClear s
  | .avsPoll ok vcore amps => Sys2Proof.Machine.execAvsPoll ok vcore amps s
  | .vcoreSet sent => Sys2Proof.Machine.execVcoreSet s sent
  | .refclkLoss => Sys2Proof.Machine.execRefclkLoss s
  | .refclkReturn => Sys2Proof.Machine.execRefclkReturn s
  | .wdtKick fw => Sys2Proof.Machine.execWdtKick fw s
  | .wdtPeriod => Sys2Proof.Machine.execWdtPeriod s
  | .wdtExpiry => Sys2Proof.Machine.execWdtExpiry s
  | .sidebandFrameReceive dst src etherType fcsOk pdu => Sys2Proof.Machine.execSidebandFrameReceive dst src etherType fcsOk pdu s
  | .read => Sys2Proof.Machine.execRead s
  | .write => Sys2Proof.Machine.execWrite s
  | .describe => Sys2Proof.Machine.execDescribe s
  | .discover => Sys2Proof.Machine.execDiscover s
  | .event => Sys2Proof.Machine.execEvent s
  | .readSnapshotExpiry index => Sys2Proof.Machine.execReadSnapshotExpiry index s
  | .homeFTimeout => Sys2Proof.Machine.execHomeFTimeout s
  | .go => Sys2Proof.Machine.execGo s
  | .nodeId => Sys2Proof.Machine.execNodeId s
  | .configCommit => Sys2Proof.Machine.execConfigCommit s
  | .crashClear => Sys2Proof.Machine.execCrashClear s
  | .retiredClear => Sys2Proof.Machine.execRetiredClear s
  | .histClear => Sys2Proof.Machine.execHistClear s
  | .accountClear => Sys2Proof.Machine.execAccountClear s
  | .rejoin => Sys2Proof.Machine.execRejoin s
  | .formDomain => Sys2Proof.Machine.execFormDomain s
  | .memberReq => Sys2Proof.Machine.execMemberReq s
  | .chainOnly => Sys2Proof.Machine.execChainOnly s
  | .portFence => Sys2Proof.Machine.execPortFence s
  | .imageStart => Sys2Proof.Machine.execImageStart s
  | .imageData => Sys2Proof.Machine.execImageData s
  | .imageVerify => Sys2Proof.Machine.execImageVerify s
  | .verifyDone => Sys2Proof.Machine.execVerifyDone s
  | .imageRun => Sys2Proof.Machine.execImageRun s
  | .settingStartDone hbmOk t2Fail sramOk => Sys2Proof.Machine.execSettingStartDone hbmOk t2Fail sramOk s
  | .settingStartTimeout => Sys2Proof.Machine.execSettingStartTimeout s
  | .imageReplicate booting => Sys2Proof.Machine.execImageReplicate booting s
  | .imageTransferReceive peer num => Sys2Proof.Machine.execImageTransferReceive peer num s
  | .portTrained port lanes partner partnerPort => Sys2Proof.Machine.execPortTrained port lanes partner partnerPort s
  | .portDown port => Sys2Proof.Machine.execPortDown port s
  | .flitReceive port flit => Sys2Proof.Machine.execFlitReceive port flit s
  | .flitForward port => Sys2Proof.Machine.execFlitForward port s
  | .transferTimeout peer num => Sys2Proof.Machine.execTransferTimeout peer num s
  | .xferSetup => Sys2Proof.Machine.execXferSetup s
  | .xferDone => Sys2Proof.Machine.execXferDone s
  | .fwdRead => Sys2Proof.Machine.execFwdRead s
  | .fwdWrite => Sys2Proof.Machine.execFwdWrite s
  | .fwdCpl => Sys2Proof.Machine.execFwdCpl s
  | .hostRead data => Sys2Proof.Machine.execHostRead data s
  | .hostWrite => Sys2Proof.Machine.execHostWrite s
  | .hostMsix => Sys2Proof.Machine.execHostMsix s
  | .chainCount => Sys2Proof.Machine.execChainCount s
  | .tailTimeout => Sys2Proof.Machine.execTailTimeout s
  | .delayMeasure port stamp => Sys2Proof.Machine.execDelayMeasure port stamp s
  | .delayReq arrive leave => Sys2Proof.Machine.execDelayReq arrive leave s
  | .delayResp arrive => Sys2Proof.Machine.execDelayResp arrive s
  | .beaconSend => Sys2Proof.Machine.execBeaconSend s
  | .beacon arrive residence => Sys2Proof.Machine.execBeacon arrive residence s
  | .timePortLost => Sys2Proof.Machine.execTimePortLost s
  | .isolationTimeout => Sys2Proof.Machine.execIsolationTimeout s
  | .prepare => Sys2Proof.Machine.execPrepare s
  | .memberAck => Sys2Proof.Machine.execMemberAck s
  | .commit => Sys2Proof.Machine.execCommit s
  | .abort => Sys2Proof.Machine.execAbort s
  | .stale => Sys2Proof.Machine.execStale s
  | .memberAckTimeout => Sys2Proof.Machine.execMemberAckTimeout s
  | .prepareTimeout => Sys2Proof.Machine.execPrepareTimeout s
  | .enumWordReceive word => Sys2Proof.Machine.execEnumWordReceive word s
  | .enumWordSend => Sys2Proof.Machine.execEnumWordSend s
  | .meridian newest => Sys2Proof.Machine.execMeridian newest s
  | .switchAttempt newest => Sys2Proof.Machine.execSwitchAttempt newest s
  | .slotStart => Sys2Proof.Machine.execSlotStart s
  | .leadPoint => Sys2Proof.Machine.execLeadPoint s
  | .jobReady cls target => Sys2Proof.Machine.execJobReady cls target s
  | .jobDispatch => Sys2Proof.Machine.execJobDispatch s
  | .jobEnd => Sys2Proof.Machine.execJobEnd s
  | .urgentAllowance => Sys2Proof.Machine.execUrgentAllowance s
  | .budgetReturn => Sys2Proof.Machine.execBudgetReturn s
  | .tileIssue => Sys2Proof.Machine.execTileIssue s
  | .tileCommit sweep lane scratch window => Sys2Proof.Machine.execTileCommit sweep lane scratch window s
  | .tileFault sweep lane errs twins parity => Sys2Proof.Machine.execTileFault sweep lane errs twins parity s
  | .mapEpochCommit lost => Sys2Proof.Machine.execMapEpochCommit s lost
  | .plannedSubstitution => Sys2Proof.Machine.execPlannedSubstitution s
  | .meshMessageReceive cell epoch => Sys2Proof.Machine.execMeshMessageReceive cell epoch s
  | .windowFillDone half errors => Sys2Proof.Machine.execWindowFillDone half s errors
  | .preemptRequest => Sys2Proof.Machine.execPreemptRequest s
  | .spillDone => Sys2Proof.Machine.execSpillDone s
  | .spillRestoreDone => Sys2Proof.Machine.execSpillRestoreDone s
  | .bistStart => Sys2Proof.Machine.execBistStart s
  | .bistDone results => Sys2Proof.Machine.execBistDone results s
  | .spareRetest pass => Sys2Proof.Machine.execSpareRetest pass s
  | .pathsFixed => Sys2Proof.Machine.execPathsFixed s
  | .draftRunDone context => Sys2Proof.Machine.execDraftRunDone context s
  | .stepSeal => Sys2Proof.Machine.execStepSeal s
  | .stepBoundary => Sys2Proof.Machine.execStepBoundary s
  | .tlbInvalidate table => Sys2Proof.Machine.execTlbInvalidate table s
  | .recomputePassDone handle => Sys2Proof.Machine.execRecomputePassDone handle s
  | .stackMoveDone handle => Sys2Proof.Machine.execStackMoveDone handle s
  | .replicaPromoteDone charm stack => Sys2Proof.Machine.execReplicaPromoteDone charm stack s
  | .replicaEvictStart charm stack => Sys2Proof.Machine.execReplicaEvictStart charm stack s
  | .replicaEvictCommit charm stack => Sys2Proof.Machine.execReplicaEvictCommit charm stack s
  | .ttlExpiry handle => Sys2Proof.Machine.execTtlExpiry handle s
  | .demoteRetry handle => Sys2Proof.Machine.execDemoteRetry handle s
  | .demotionCommit handle => Sys2Proof.Machine.execDemotionCommit handle s
  | .promotionCommit handle => Sys2Proof.Machine.execPromotionCommit handle s
  | .charmTtlExpiry charm => Sys2Proof.Machine.execCharmTtlExpiry charm s
  | .courierPacketSelect errors => Sys2Proof.Machine.execCourierPacketSelect s errors
  | .courierComplete cookie status => Sys2Proof.Machine.execCourierComplete cookie status s
  | .courierAbandon cookie => Sys2Proof.Machine.execCourierAbandon cookie s
  | .instackCopyDone stack => Sys2Proof.Machine.execInstackCopyDone stack s
  | .hbmScrub stack first errors => Sys2Proof.Machine.execHbmScrub stack first errors s
  | .bayPowerOn bay ident extents => Sys2Proof.Machine.execBayPowerOn bay ident extents s
  | .bayIdent bay trained channels => Sys2Proof.Machine.execBayIdent bay trained s channels
  | .mountDone bay => Sys2Proof.Machine.execMountDone bay s
  | .cofferRemoval bay => Sys2Proof.Machine.execCofferRemoval bay s
  | .cooperativeDetach bay source => Sys2Proof.Machine.execCooperativeDetach bay source s
  | .detachRetry bay => Sys2Proof.Machine.execDetachRetry bay s
  | .detachDone bay => Sys2Proof.Machine.execDetachDone bay s
  | .forcedDetach => Sys2Proof.Machine.execForcedDetach s
  | .extentSeal bay ext => Sys2Proof.Machine.execExtentSeal bay ext s
  | .programFail bay channel die block => Sys2Proof.Machine.execProgramFail bay channel die block s
  | .blockEraseDone bay ok => Sys2Proof.Machine.execBlockEraseDone bay ok s
  | .garbageCollection bay => Sys2Proof.Machine.execGarbageCollection bay s
  | .wearLevel bay => Sys2Proof.Machine.execWearLevel bay s
  | .patrolRead bay sb symbols page rebuilt => Sys2Proof.Machine.execPatrolRead bay sb symbols s page rebuilt
  | .journalCheckpoint bay => Sys2Proof.Machine.execJournalCheckpoint bay s
  | .cofferCounterWrite bay => Sys2Proof.Machine.execCofferCounterWrite bay s
  | .walkStart unit => Sys2Proof.Machine.execWalkStart unit s
  | .walkDone unit => Sys2Proof.Machine.execWalkDone unit s
  | .mergeStart coll => Sys2Proof.Machine.execMergeStart coll s
  | .mergePublish coll => Sys2Proof.Machine.execMergePublish coll s
  | .selectFetchDone id data poison => Sys2Proof.Machine.execSelectFetchDone id data poison s
  | .drainStart => Sys2Proof.Machine.execDrainStart s
  | .cutComplete copied => Sys2Proof.Machine.execCutComplete copied s
  | .cutAbandon reason => Sys2Proof.Machine.execCutAbandon reason s
  | .queueSample => Sys2Proof.Machine.execQueueSample s
  | .kvGatherDone sweep => Sys2Proof.Machine.execKvGatherDone sweep s
  | .programStatusPass bay => Sys2Proof.Machine.execProgramStatusPass bay s
  | .transmitOpportunity collision => Sys2Proof.Machine.execTransmitOpportunity collision s
  | .alwaysOnRailFailure => Sys2Proof.Machine.execAlwaysOnRailFailure s

end Sys2Proof.Machine
end

