-- ==== Sys2Proof/Safety.lean ====
section
/-!
DEFINITION. Sys2Proof/Safety.lean: the terms in which claims are stated: the parts of the block, and what it is for a command to leave every other
part alone.
-/
namespace Sys2Proof.Machine

/-- The parts of the block's state, one for each field of State. -/
inductive Part where
  | pending | now | ory | cells | lpe | parures | ast | smp | fil | stm | lockets | charms | facets | keys | t1 | extents | hbc | lpc | cur | bays
  | eph | traffic | colls | searches | selects | sieves | integ | ckpt | hif | std | lan | hostMem | replies
deriving DecidableEq, Repr

/-- Two states agree on a part. -/
def agree (p : Part) (s t : State) : Prop :=
  match p with
  | .pending => t.pending = s.pending
  | .now => t.now = s.now
  | .ory => t.ory = s.ory
  | .cells => t.cells = s.cells
  | .lpe => t.lpe = s.lpe
  | .parures => t.parures = s.parures
  | .ast => t.ast = s.ast
  | .smp => t.smp = s.smp
  | .fil => t.fil = s.fil
  | .stm => t.stm = s.stm
  | .lockets => t.lockets = s.lockets
  | .charms => t.charms = s.charms
  | .facets => t.facets = s.facets
  | .keys => t.keys = s.keys
  | .t1 => t.t1 = s.t1
  | .extents => t.extents = s.extents
  | .hbc => t.hbc = s.hbc
  | .lpc => t.lpc = s.lpc
  | .cur => t.cur = s.cur
  | .bays => t.bays = s.bays
  | .eph => t.eph = s.eph
  | .traffic => t.traffic = s.traffic
  | .colls => t.colls = s.colls
  | .searches => t.searches = s.searches
  | .selects => t.selects = s.selects
  | .sieves => t.sieves = s.sieves
  | .integ => t.integ = s.integ
  | .ckpt => t.ckpt = s.ckpt
  | .hif => t.hif = s.hif
  | .std => t.std = s.std
  | .lan => t.lan = s.lan
  | .hostMem => t.hostMem = s.hostMem
  | .replies => t.replies = s.replies

/-- The two states agree on every part outside the list. -/
def confined (l : List Part) (s t : State) : Prop := ∀ p, p ∉ l → agree p s t

/-- Both byte memories are in canonical form. -/
def memoriesWf (s : State) : Bool := s.t1.wf && s.hostMem.wf

/-- The block has its 144 cells, 8 HBM stacks, 4 LPDDR controllers, 4 coffer bays and 8 Sieve units (00 Table 0-1, 03 R76, 09 R325, 12 R456). -/
def shaped (s : State) : Bool :=
  s.cells.length == 144 && s.hbc.length == 8 && s.lpc.length == 4 && s.bays.length == 4 && s.sieves.length == 8

/-- The timebase is a 64-bit counter (00 R15). -/
def timed (s : State) : Bool := decide (s.now < 2 ^ 64)

/-- A sound state: every property that each step keeps. -/
def sound (s : State) : Bool := memoriesWf s && shaped s && timed s

/-! ## The terms of the statements about commands -/

/-- The parts that a command may change; every command leaves every other part alone. -/
def touched (c : Instr) : List Part :=
  match c with
  | .nop .. => [.hif, .std]
  | .fence .. => [.hif, .std]
  | .fenceDone .. => [.hif]
  | .loadParure .. => [.parures, .extents, .cur, .hif, .std]
  | .parureCopyDone .. => [.parures, .t1, .extents, .cur, .integ, .hif]
  | .unloadParure .. => [.parures, .extents, .cur, .bays, .hif, .std]
  | .facetLoad .. => [.facets, .t1, .integ, .ckpt, .hif, .std]
  | .facetDrop .. => [.facets, .ckpt, .hif, .std]
  | .sessionOpen .. => [.ast, .lockets, .charms, .t1, .extents, .cur, .hif, .std]
  | .sessionClose .. => [.ory, .ast, .stm, .lockets, .charms, .extents, .cur, .bays, .eph, .integ, .ckpt, .hif, .std]
  | .ingest .. => [.lockets, .extents, .cur, .bays, .hif, .std]
  | .generate .. => [.lockets, .extents, .cur, .bays, .hif, .std]
  | .cancel .. => [.stm, .lockets, .eph, .hif, .std]
  | .park .. => [.ast, .lockets, .extents, .cur, .bays, .hif, .std, .lan]
  | .revive .. => [.ast, .lockets, .charms, .extents, .cur, .bays, .hif, .std]
  | .charmCreate .. => [.ast, .lockets, .charms, .t1, .extents, .cur, .bays, .ckpt, .hif, .std, .lan]
  | .charmDrop .. => [.ast, .charms, .extents, .cur, .bays, .ckpt, .hif, .std]
  | .batchDefine .. => [.eph, .hif, .std]
  | .batchRelease .. => [.eph, .hif, .std]
  | .batchJoin .. => [.ast, .lockets, .extents, .cur, .bays, .eph, .hif, .std]
  | .batchLeave .. => [.ory, .ast, .lockets, .charms, .extents, .cur, .bays, .eph, .integ, .hif, .std]
  | .ephemerisLoad .. => [.eph, .hif, .std]
  | .ephemerisSwitch .. => [.eph, .hif, .std]
  | .search .. => [.ory, .eph, .colls, .searches, .sieves, .integ, .hif, .std, .lan]
  | .itemInsert .. => [.ory, .t1, .eph, .colls, .searches, .sieves, .integ, .hif, .std, .lan]
  | .itemDelete .. => [.ory, .eph, .colls, .searches, .sieves, .integ, .hif, .std, .lan]
  | .collectionMerge .. => [.ory, .eph, .colls, .searches, .sieves, .integ, .hif, .std, .lan]
  | .collectionCreate .. => [.ast, .lockets, .colls, .hif, .std]
  | .collectionDestroy .. => [.ory, .ast, .eph, .colls, .sieves, .integ, .hif, .std]
  | .select .. => [.ast, .lockets, .extents, .cur, .selects, .hif, .std]
  | .snapshot .. => [.ckpt, .hif, .std]
  | .restore .. => [.ast, .lockets, .charms, .t1, .extents, .cur, .bays, .integ, .ckpt, .hif, .std]
  | .manifestRead .. => [.extents, .cur, .hif, .std]
  | .query .. => [.extents, .cur, .hif, .std]
  | .accountRead .. => [.extents, .cur, .eph, .hif, .std]
  | .descriptorFetch .. => [.lockets, .charms, .traffic, .hif, .std, .hostMem]
  | .tokenRefill .. => [.traffic]
  | .sqTail .. => [.hif, .std]
  | .cqHead .. => [.hif, .std]
  | .ack .. => [.lockets, .hif, .std]
  | .slotSel .. => [.hif]
  | .slotApertureWrite .. => [.lockets, .hif, .std]
  | .bar2Write .. => [.lockets, .hif, .std]
  | .bar2Read .. => [.hif, .std, .replies]
  | .bar4Access .. => [.ory, .lpe, .ast, .smp, .fil, .stm, .lockets, .keys, .hbc, .lpc, .cur, .bays, .eph, .sieves, .integ, .ckpt, .hif, .std, .lan, .replies]
  | .completionPost .. => [.lockets, .charms, .hif, .std, .hostMem]
  | .coalTimeExpiry .. => [.hif, .std]
  | .deliveryWrite .. => [.ast, .lockets, .charms, .extents, .cur, .bays, .eph, .traffic, .ckpt, .hif, .std, .hostMem]
  | .keyInstall .. => [.keys, .hif, .std]
  | .keySelect .. => [.keys, .hif, .std]
  | .keyDeselect .. => [.keys, .hif, .std]
  | .cutKey .. => [.ckpt, .hif, .std]
  | .registerWrite .. => [.ory, .lpe, .ast, .smp, .fil, .stm, .lockets, .keys, .hbc, .lpc, .cur, .bays, .eph, .sieves, .integ, .ckpt, .hif, .std, .lan]
  | .perstNAssert .. => [.ory, .cells, .lpe, .parures, .ast, .smp, .fil, .stm, .lockets, .charms, .facets, .keys, .t1, .extents, .hbc, .lpc, .cur, .bays, .eph, .traffic, .colls, .searches, .selects, .sieves, .integ, .ckpt, .hif, .std, .lan]
  | .linkTraining .. => [.hif, .std, .lan]
  | .d3hotToD0 .. => [.ory, .lpe, .parures, .ast, .smp, .fil, .stm, .lockets, .charms, .facets, .extents, .hbc, .lpc, .cur, .bays, .eph, .traffic, .colls, .searches, .selects, .sieves, .integ, .ckpt, .hif, .std, .lan]
  | .coldReset .. => [.ory, .cells, .lpe, .parures, .ast, .smp, .fil, .stm, .lockets, .charms, .facets, .keys, .t1, .extents, .hbc, .lpc, .cur, .bays, .eph, .traffic, .colls, .searches, .selects, .sieves, .integ, .ckpt, .hif, .std, .lan]
  | .warmReset .. => [.ory, .cells, .lpe, .parures, .ast, .smp, .fil, .stm, .lockets, .charms, .facets, .keys, .t1, .extents, .hbc, .lpc, .cur, .bays, .eph, .traffic, .colls, .searches, .selects, .sieves, .integ, .ckpt, .hif, .std, .lan]
  | .deviceReset .. => [.ory, .lpe, .parures, .ast, .smp, .fil, .stm, .lockets, .charms, .facets, .extents, .hbc, .lpc, .cur, .bays, .eph, .traffic, .colls, .searches, .selects, .sieves, .integ, .ckpt, .hif, .std, .lan]
  | .contextReset .. => [.ory, .parures, .ast, .stm, .lockets, .charms, .t1, .extents, .cur, .bays, .eph, .colls, .searches, .selects, .sieves, .integ, .ckpt, .hif, .lan]
  | .resetReqDevice .. => [.lan]
  | .resetReqWarm .. => [.lan]
  | .resetReqCold .. => [.lan]
  | .powerOn .. => [.now, .ory, .cells, .lpe, .parures, .ast, .smp, .fil, .stm, .lockets, .charms, .facets, .keys, .t1, .extents, .hbc, .lpc, .cur, .bays, .eph, .traffic, .colls, .searches, .selects, .sieves, .integ, .ckpt, .hif, .std, .lan]
  | .railsPgCheck .. => [.std, .lan]
  | .railsPgFall .. => [.ory, .cells, .lpe, .parures, .ast, .smp, .fil, .stm, .lockets, .charms, .facets, .keys, .t1, .extents, .hbc, .lpc, .cur, .bays, .eph, .traffic, .colls, .searches, .selects, .sieves, .integ, .ckpt, .hif, .std, .lan]
  | .duskEntry .. => [.lan]
  | .duskExit .. => [.lan]
  | .twilightEntry .. => [.ory, .parures, .ast, .lockets, .charms, .facets, .extents, .hbc, .lpc, .cur, .bays, .eph, .colls, .searches, .selects, .sieves, .integ, .ckpt, .hif, .lan]
  | .twilightExit .. => [.hbc, .lpc, .eph, .lan]
  | .nightEntry .. => [.ory, .cells, .lpe, .parures, .ast, .smp, .fil, .stm, .lockets, .charms, .facets, .keys, .t1, .extents, .hbc, .lpc, .cur, .bays, .eph, .traffic, .colls, .searches, .selects, .sieves, .integ, .ckpt, .hif, .std, .lan, .hostMem]
  | .nightExit .. => [.lan]
  | .supplyLow .. => [.ory, .lan]
  | .supplyRecover .. => [.lan]
  | .controlledStop .. => [.ory, .parures, .ast, .lockets, .charms, .extents, .cur, .bays, .eph, .colls, .searches, .selects, .sieves, .integ, .ckpt, .hif, .lan]
  | .stopRecovery .. => [.ory, .cells, .lpe, .parures, .ast, .smp, .fil, .stm, .lockets, .charms, .facets, .keys, .t1, .extents, .hbc, .lpc, .cur, .bays, .eph, .traffic, .colls, .searches, .selects, .sieves, .integ, .ckpt, .hif, .std, .lan]
  | .vcoreResetLevel .. => [.ory, .cells, .lpe, .parures, .ast, .smp, .fil, .stm, .lockets, .charms, .facets, .keys, .t1, .extents, .hbc, .lpc, .cur, .bays, .eph, .traffic, .colls, .searches, .selects, .sieves, .integ, .ckpt, .hif, .std, .lan]
  | .thermalSample .. => [.lan]
  | .thermalTrip .. => [.ory, .cells, .lpe, .parures, .ast, .smp, .fil, .stm, .lockets, .charms, .facets, .keys, .t1, .extents, .hbc, .lpc, .cur, .bays, .eph, .traffic, .colls, .searches, .selects, .sieves, .integ, .ckpt, .hif, .std, .lan]
  | .analogThermtrip .. => [.lan]
  | .trippedClear .. => [.lan]
  | .avsPoll .. => [.lan]
  | .vcoreSet .. => [.lan]
  | .refclkLoss .. => [.ory, .lan]
  | .refclkReturn .. => [.ory, .cells, .lpe, .parures, .ast, .smp, .fil, .stm, .lockets, .charms, .facets, .keys, .t1, .extents, .hbc, .lpc, .cur, .bays, .eph, .traffic, .colls, .searches, .selects, .sieves, .integ, .ckpt, .hif, .std, .lan]
  | .wdtKick .. => [.lan]
  | .wdtPeriod .. => [.lan]
  | .wdtExpiry .. => [.ory, .cells, .lpe, .parures, .ast, .smp, .fil, .stm, .lockets, .charms, .facets, .keys, .t1, .extents, .hbc, .lpc, .cur, .bays, .eph, .traffic, .colls, .searches, .selects, .sieves, .integ, .ckpt, .hif, .std, .lan]
  | .sidebandFrameReceive .. => [.lan]
  | .read .. => [.lan]
  | .write .. => [.ast, .lockets, .charms, .extents, .hbc, .cur, .bays, .traffic, .integ, .ckpt, .std, .lan]
  | .describe .. => [.lan]
  | .discover .. => [.lan]
  | .event .. => [.lan]
  | .readSnapshotExpiry .. => [.lan]
  | .homeFTimeout .. => [.lan]
  | .go .. => [.lan]
  | .nodeId .. => [.lan]
  | .configCommit .. => [.ory, .lpe, .ast, .smp, .hbc, .cur, .bays, .eph, .traffic, .integ, .ckpt, .lan]
  | .crashClear .. => [.lan]
  | .retiredClear .. => [.lpe, .lan]
  | .histClear .. => [.traffic, .lan]
  | .accountClear .. => [.eph, .lan]
  | .rejoin .. => [.ory, .ast, .lockets, .charms, .facets, .extents, .cur, .bays, .eph, .colls, .searches, .sieves, .integ, .ckpt, .hif, .std, .lan]
  | .formDomain .. => [.ory, .ast, .lockets, .charms, .facets, .extents, .hbc, .cur, .bays, .eph, .colls, .searches, .sieves, .integ, .ckpt, .hif, .std, .lan]
  | .memberReq .. => [.ory, .ast, .lockets, .charms, .facets, .extents, .hbc, .cur, .bays, .eph, .colls, .searches, .sieves, .integ, .ckpt, .hif, .std, .lan]
  | .chainOnly .. => [.std, .lan]
  | .portFence .. => [.std, .lan]
  | .imageStart .. => [.lan]
  | .imageData .. => [.lan]
  | .imageVerify .. => [.lan]
  | .verifyDone .. => [.hbc, .lpc, .lan]
  | .imageRun .. => [.hbc, .lpc, .lan]
  | .settingStartDone .. => [.ory, .ast, .smp, .fil, .stm, .hbc, .lpc, .cur, .bays, .eph, .sieves, .lan]
  | .settingStartTimeout .. => [.lan]
  | .imageReplicate .. => [.extents, .cur, .lan]
  | .imageTransferReceive .. => [.std, .lan]
  | .portTrained .. => [.std, .lan]
  | .portDown .. => [.std]
  | .flitReceive .. => [.ory, .parures, .ast, .lockets, .charms, .facets, .t1, .extents, .hbc, .lpc, .cur, .bays, .eph, .colls, .searches, .selects, .sieves, .integ, .ckpt, .hif, .std, .lan, .hostMem]
  | .flitForward .. => [.traffic, .std]
  | .transferTimeout .. => [.parures, .extents, .cur, .bays, .std]
  | .xferSetup .. => [.ory, .parures, .ast, .lockets, .charms, .facets, .t1, .extents, .hbc, .lpc, .cur, .bays, .eph, .colls, .searches, .selects, .sieves, .integ, .ckpt, .hif, .std, .lan, .hostMem]
  | .xferDone .. => [.ory, .parures, .ast, .lockets, .charms, .facets, .t1, .extents, .hbc, .cur, .bays, .eph, .colls, .searches, .selects, .sieves, .integ, .ckpt, .hif, .std, .lan]
  | .fwdRead .. => [.ory, .parures, .ast, .smp, .fil, .stm, .lockets, .charms, .facets, .t1, .extents, .hbc, .cur, .bays, .eph, .colls, .searches, .selects, .sieves, .integ, .ckpt, .hif, .std, .lan]
  | .fwdWrite .. => [.ory, .lpe, .parures, .ast, .smp, .fil, .stm, .lockets, .charms, .facets, .keys, .t1, .extents, .hbc, .lpc, .cur, .bays, .eph, .colls, .searches, .selects, .sieves, .integ, .ckpt, .hif, .std, .lan]
  | .fwdCpl .. => [.ory, .parures, .ast, .lockets, .charms, .facets, .t1, .extents, .hbc, .cur, .bays, .eph, .colls, .searches, .selects, .sieves, .integ, .ckpt, .hif, .std, .lan, .replies]
  | .hostRead .. => [.ory, .parures, .ast, .lockets, .charms, .facets, .t1, .extents, .hbc, .cur, .bays, .eph, .colls, .searches, .selects, .sieves, .integ, .ckpt, .hif, .std, .lan]
  | .hostWrite .. => [.ory, .parures, .ast, .lockets, .charms, .facets, .t1, .extents, .hbc, .lpc, .cur, .bays, .eph, .colls, .searches, .selects, .sieves, .integ, .ckpt, .hif, .std, .lan, .hostMem]
  | .hostMsix .. => [.ory, .parures, .ast, .lockets, .charms, .facets, .t1, .extents, .hbc, .cur, .bays, .eph, .colls, .searches, .selects, .sieves, .integ, .ckpt, .hif, .std, .lan, .hostMem]
  | .chainCount .. => [.std]
  | .tailTimeout .. => [.std, .lan]
  | .delayMeasure .. => [.std]
  | .delayReq .. => [.std]
  | .delayResp .. => [.std]
  | .beaconSend .. => [.std]
  | .beacon .. => [.ory, .parures, .ast, .lockets, .charms, .facets, .t1, .extents, .hbc, .cur, .bays, .eph, .colls, .searches, .selects, .sieves, .integ, .ckpt, .hif, .std, .lan]
  | .timePortLost .. => [.std]
  | .isolationTimeout .. => [.ory, .integ, .lan]
  | .prepare .. => [.std, .lan]
  | .memberAck .. => [.ory, .ast, .lockets, .charms, .facets, .extents, .hbc, .cur, .bays, .eph, .colls, .searches, .sieves, .integ, .ckpt, .hif, .std, .lan]
  | .commit .. => [.ory, .parures, .ast, .lockets, .charms, .facets, .t1, .extents, .hbc, .cur, .bays, .eph, .colls, .searches, .selects, .sieves, .integ, .ckpt, .hif, .std, .lan]
  | .abort .. => [.std, .lan]
  | .stale .. => [.ory, .parures, .ast, .lockets, .charms, .facets, .t1, .extents, .hbc, .cur, .bays, .eph, .colls, .searches, .selects, .sieves, .integ, .ckpt, .hif, .std, .lan]
  | .memberAckTimeout .. => [.std, .lan]
  | .prepareTimeout .. => [.std, .lan]
  | .enumWordReceive .. => [.std, .lan]
  | .enumWordSend .. => [.std]
  | .meridian .. => [.ast, .lockets, .charms, .hbc, .eph, .ckpt]
  | .switchAttempt .. => [.ast, .lockets, .charms, .hbc, .eph, .ckpt, .hif]
  | .slotStart .. => [.ory, .ast, .smp, .fil, .stm, .lockets, .charms, .extents, .cur, .bays, .eph, .integ, .hif, .std, .lan]
  | .leadPoint .. => [.ory, .eph]
  | .jobReady .. => [.ory, .eph, .traffic]
  | .jobDispatch .. => [.ory, .ast, .smp, .fil, .stm, .lockets, .charms, .extents, .cur, .bays, .eph, .traffic, .colls, .sieves, .integ, .hif, .std, .lan]
  | .jobEnd .. => [.ory, .ast, .lockets, .extents, .cur, .bays, .eph, .traffic, .colls, .searches, .selects, .sieves, .integ, .hif, .lan]
  | .urgentAllowance .. => [.ory, .eph]
  | .budgetReturn .. => [.eph]
  | .tileIssue .. => [.ory, .parures, .ast, .lockets, .charms, .extents, .cur, .bays, .eph, .colls, .searches, .selects, .sieves, .integ, .ckpt, .hif, .lan]
  | .tileCommit .. => [.ory, .cells, .lpe, .parures, .ast, .stm, .lockets, .charms, .facets, .t1, .extents, .cur, .bays, .eph, .colls, .searches, .selects, .sieves, .integ, .ckpt, .hif, .lan]
  | .tileFault .. => [.ory, .cells, .lpe, .parures, .ast, .lockets, .charms, .extents, .cur, .bays, .eph, .colls, .searches, .selects, .sieves, .integ, .ckpt, .hif, .lan]
  | .mapEpochCommit .. => [.ory, .cells, .lpe, .parures, .ast, .lockets, .charms, .extents, .cur, .bays, .eph, .colls, .searches, .selects, .sieves, .integ, .ckpt, .hif, .lan]
  | .plannedSubstitution .. => [.lpe, .integ]
  | .meshMessageReceive .. => [.integ, .lan]
  | .windowFillDone .. => [.ory, .integ, .lan]
  | .preemptRequest .. => [.ory, .parures, .ast, .lockets, .charms, .extents, .cur, .bays, .eph, .colls, .searches, .selects, .sieves, .integ, .ckpt, .hif, .lan]
  | .spillDone .. => [.ory, .parures, .ast, .lockets, .charms, .t1, .extents, .cur, .bays, .eph, .colls, .searches, .selects, .sieves, .integ, .ckpt, .hif, .lan]
  | .spillRestoreDone .. => [.ory, .ast, .stm, .lockets, .charms, .extents, .cur, .bays, .eph, .integ, .hif, .lan]
  | .bistStart .. => [.lpe]
  | .bistDone .. => [.cells, .lpe]
  | .spareRetest .. => [.cells, .lpe]
  | .pathsFixed .. => [.smp, .stm, .lockets, .eph, .integ, .hif, .lan]
  | .draftRunDone .. => [.ory, .smp, .fil, .stm, .lockets, .eph, .integ, .hif, .lan]
  | .stepSeal .. => [.smp, .fil, .stm, .lockets, .eph, .ckpt, .hif]
  | .stepBoundary .. => [.ory, .ast, .smp, .fil, .stm, .lockets, .charms, .facets, .t1, .extents, .hbc, .cur, .bays, .eph, .traffic, .integ, .ckpt, .hif, .std, .lan]
  | .tlbInvalidate .. => [.ast]
  | .recomputePassDone .. => [.ast, .lockets, .charms]
  | .stackMoveDone .. => [.ory, .ast, .lockets, .charms, .extents, .cur, .bays, .eph, .integ, .hif]
  | .replicaPromoteDone .. => [.ast, .lockets, .charms, .extents, .cur, .bays, .ckpt, .hif]
  | .replicaEvictStart .. => [.ast, .charms]
  | .replicaEvictCommit .. => [.ast, .charms]
  | .ttlExpiry .. => [.ast, .lockets, .charms, .extents, .cur, .bays, .ckpt, .lan]
  | .demoteRetry .. => [.ast, .lockets, .charms, .extents, .cur, .bays, .ckpt, .lan]
  | .demotionCommit .. => [.ast, .lockets, .extents, .cur, .bays, .hif]
  | .promotionCommit .. => [.ast, .lockets, .charms, .t1, .extents, .cur, .bays, .hif]
  | .charmTtlExpiry .. => [.ast, .charms, .extents, .cur, .bays, .ckpt]
  | .courierPacketSelect .. => [.t1, .extents, .lpc, .cur, .bays, .eph, .traffic, .integ, .std, .lan, .hostMem]
  | .courierComplete .. => [.ast, .lockets, .charms, .t1, .extents, .cur, .bays, .eph, .integ, .ckpt, .hif, .lan]
  | .courierAbandon .. => [.ast, .lockets, .charms, .t1, .extents, .cur, .bays, .eph, .integ, .ckpt, .hif, .lan]
  | .instackCopyDone .. => [.ast, .lockets, .charms, .t1, .hbc, .integ, .ckpt]
  | .hbmScrub .. => [.t1, .hbc, .integ, .lan]
  | .bayPowerOn .. => [.bays, .lan]
  | .bayIdent .. => [.bays, .lan]
  | .mountDone .. => [.lockets, .extents, .bays, .lan]
  | .cofferRemoval .. => [.ast, .lockets, .charms, .t1, .extents, .cur, .bays, .eph, .ckpt, .hif, .lan]
  | .cooperativeDetach .. => [.ast, .lockets, .charms, .extents, .cur, .bays, .ckpt, .hif, .lan]
  | .detachRetry .. => [.ast, .lockets, .charms, .extents, .cur, .bays]
  | .detachDone .. => [.ast, .lockets, .charms, .extents, .cur, .bays, .eph, .ckpt, .lan]
  | .forcedDetach .. => [.ast, .lockets, .charms, .t1, .extents, .cur, .bays, .eph, .ckpt, .hif, .lan]
  | .extentSeal .. => [.extents, .bays]
  | .programFail .. => [.bays, .lan]
  | .blockEraseDone .. => [.bays, .lan]
  | .garbageCollection .. => [.bays]
  | .wearLevel .. => [.bays]
  | .patrolRead .. => [.extents, .bays]
  | .journalCheckpoint .. => [.bays]
  | .cofferCounterWrite .. => [.bays]
  | .walkStart .. => [.searches, .sieves]
  | .walkDone .. => [.ory, .extents, .cur, .eph, .colls, .searches, .sieves, .integ, .hif, .lan]
  | .mergeStart .. => [.colls, .hif]
  | .mergePublish .. => [.colls, .hif]
  | .selectFetchDone .. => [.ory, .ast, .extents, .cur, .bays, .eph, .selects, .integ, .hif]
  | .drainStart .. => [.extents, .cur, .ckpt, .lan]
  | .cutComplete .. => [.ast, .lockets, .charms, .hbc, .ckpt, .hif]
  | .cutAbandon .. => [.ast, .lockets, .charms, .extents, .hbc, .cur, .bays, .ckpt]
  | .queueSample .. => [.traffic, .std, .hostMem]
  | .kvGatherDone .. => [.ory, .ast, .stm, .lockets, .charms, .extents, .cur, .bays, .eph, .integ, .hif, .lan]
  | .programStatusPass .. => [.bays]
  | .transmitOpportunity .. => [.lan]
  | .alwaysOnRailFailure .. => [.now, .ory, .cells, .lpe, .parures, .ast, .smp, .fil, .stm, .lockets, .charms, .facets, .keys, .t1, .extents, .hbc, .lpc, .cur, .bays, .eph, .traffic, .colls, .searches, .selects, .sieves, .integ, .ckpt, .hif, .std, .lan]

/-- A host command that is outstanding; an empty one where its identifier names none. -/
def cmdOf (s : State) (id : Nat) : HCmd := (findCmd s id).getD { id := id }

/-- The state in which a host command has started (15 R575). -/
def marked (s : State) (id : Nat) : State :=
  s.hifM fun h => { h with cmds := h.cmds.map (fun d => if d.id == id then { d with started := true } else d) }

/-- The state in which a host command has started and its operands are fetched (15 R575, Table 15-8). -/
def begun (s : State) (id : Nat) : State := hostFetch (marked s id) (operandAt (cmdOf s id)).1 (operandAt (cmdOf s id)).2

/-- A host command of an opcode that is outstanding, may start in the order of its object, and that admission does not refuse
(15 R574, R575, R577; 18 R672; 13 R507). -/
def admitted (s : State) (id op : Nat) : Bool :=
  (findCmd s id).isSome && serving s && (cmdOf s id).opcode == op && !(cmdOf s id).started && !completed s id && !blockedBy s (cmdOf s id) &&
  (gate s (cmdOf s id)).isNone

/-- The completion of a command that ends now (15 R578, Table 15-7). -/
def ended (s : State) (c : HCmd) (status r0 r1 : Nat) : Cpl :=
  { id := c.id, ring := c.ring, tag := c.tag, status := status, step := 0, accept := c.accept, done := s.now
    r0 := r0 % 2 ^ 32, r1 := r1 % 2 ^ 32, noIrq := c.flag 0 }

/-- From one state to another exactly one command has completed, with this status and these result words. -/
def answers (s t : State) (c : HCmd) (status r0 r1 : Nat) : Prop := t.hif.done = s.hif.done ++ [ended s c status r0 r1]

/-- One command has completed with a status; other completions may stand beside it. -/
def hasEnded (t : State) (id status : Nat) : Prop := ∃ d ∈ t.hif.done, d.id = id ∧ d.status = status

/-- The same for a command with a command step (15 R586). -/
def answersStep (s t : State) (c : HCmd) (status r0 r1 n : Nat) : Prop :=
  t.hif.done = s.hif.done ++ [{ ended s c status r0 r1 with step := n % 2 ^ 16 }]

/-- A session command that is admitted, with the locket that its handle names: the session is open for it (08 R284, R294; 13 R494; 14 R555). -/
def entering (s : State) (id op h : Nat) (l : Locket) : Bool :=
  admitted s id op && decide (findSession s (cmdOf s id).tenant (cmdOf s id).handle = some (h, l)) && decide (s.lockets.get? h = some l) &&
  !opening l && (!l.unusable || op == 0x21) && (!l.replay || op == 0x31 || op == 0x32 || op == 0x21) && l.closing.isNone

/-- The locket as its session's command touches it (08 R296). -/
def meets (s : State) (id : Nat) (l : Locket) : Locket := { l with lastTouch := max l.lastTouch (cmdOf s id).accept, dirtyControl := true }

/-- The state in which a session command has started and touched its session (08 R296). -/
def entered (s : State) (id h : Nat) : State := (begun s id).locketM h (meets s id)

/-- What a loss of the powered logic leaves of T1, of the directories and of the commands: nothing; the timebase goes on (18 Table 18-7, 08 R324, 12 R476). -/
def wiped (s t : State) : Prop :=
  t.lockets = [] ∧ t.charms = [] ∧ t.parures = [] ∧ t.facets = [] ∧ t.extents = [] ∧ t.keys = [] ∧ t.colls = [] ∧ t.t1 = [] ∧ t.hif.cmds = [] ∧
  t.hif.done = [] ∧ t.ory.prog = none ∧ t.now = s.now

/-- A reset of a cause is counted, and POWER_REQ is ACTIVE again (17 Table 17-12, 18 R682). -/
def resetNoted (s t : State) (cause : Nat) : Prop :=
  t.lan.lastReset = cause ∧ t.lan.resetCount = (s.lan.resetCount + 1) % 2 ^ 32 ∧ t.lan.powerReq = 0 ∧ t.lan.resetDue = none

/-- A COLD reset with the always-on rails held: BOOT, and the core domain waits for RAILS_PG (18 Table 18-7, 19 R703). -/
def coldStarted (s t : State) (cause : Nat) : Prop :=
  wiped s t ∧ resetNoted s t cause ∧ t.lan.power = .boot ∧ t.lan.coreUp = false ∧ t.lan.pgAt = some (s.now + 220000) ∧ t.lan.railEn = true ∧
  t.lan.crashLog = s.lan.crashLog ∧ t.lan.sbFrames = s.lan.sbFrames

/-- A WARM reset: BOOT, and the core domain starts at once or is held (18 Table 18-7). -/
def warmStarted (s t : State) (cause : Nat) (held : Bool) : Prop :=
  wiped s t ∧ resetNoted s t cause ∧ t.lan.power = .boot ∧ t.lan.coreUp = !held ∧ t.lan.crashLog = s.lan.crashLog

/-- A DEVICE reset: ACTIVE again, with every command and its completion gone and no program on the Orrery; keys and bound facets stay (18 R678; 08 R323). -/
def deviceStarted (s t : State) (cause : Nat) : Prop :=
  t.lan.power = .active ∧ t.lan.lastReset = cause ∧ t.lan.powerReq = 0 ∧ t.lan.resetDue = none ∧ t.hif.cmds = [] ∧ t.hif.done = [] ∧ t.ory.prog = none ∧
  t.cur.channels = [] ∧ t.now = s.now ∧ t.keys = s.keys ∧ ∀ f, f.handle ≠ 0 → (f ∈ t.facets ↔ f ∈ s.facets)

/-- NIGHT: the powered logic and RAIL_EN are off (18 R685, R693; 19 R702). -/
def inNight (s t : State) : Prop := wiped s t ∧ t.lan.power = .night ∧ t.lan.railEn = false ∧ t.lan.coreUp = false

/-- The Almanac write at the front of the order of requests, of entry i:j with a value; it is acted on (17 R636, R639). -/
def asks (s : State) (r : Req) (i j v : Nat) : Prop := front s = some r ∧ r.op = 2 ∧ r.index = i ∧ r.sub = j ∧ r.val = v ∧ writeCheck s r = 0

/-- The request has left the order, and its requester has a response with this RESULT (17 R634, R635, R659, Table 17-2). -/
def replied (s t : State) (r : Req) (result : Nat) : Prop :=
  t.lan.queue = s.lan.queue.tail ∧ match r.from_ with
    | .sideband mac => ∃ f, t.lan.tx = s.lan.tx ++ [f] ∧ f.dest = mac ∧ fieldAt f.pdu 8 1 = result
    | .mailbox => t.lan.mboxBusy = false ∧ t.lan.mboxDone = true ∧ fieldAt t.lan.mbox 8 1 = result
    | .firmware => True

/-- The oldest message of its class has a TYPE, and the core domain, with its clock, takes it (01 R35; 16 R603, Table 16-4). -/
def takes (s : State) (m : Msg) (ty : Nat) : Prop := (s.lan.coreUp && s.lan.refclk) = true ∧ s.std.inbox.find? (fun x => x.ty / 16 == ty / 16) = some m ∧ m.ty = ty

/-- The device has adopted an epoch with its member set (16 R622, R623). -/
def adopted (t : State) (epoch set : Nat) : Prop := t.std.mode = .member ∧ t.std.epoch = epoch ∧ t.std.members = set ∧ t.std.prepared = none ∧ t.std.change = none

/-- The state in which a message has been taken. -/
def taken (s : State) (m : Msg) : State := s.stdM fun d => { d with inbox := d.inbox.erase m }

/-- The same for a routed message of the current epoch on a member (16 R606). -/
def heard (s : State) (m : Msg) (ty : Nat) : Prop := takes s m ty ∧ routed s = true ∧ s.std.mode = .member ∧ m.epoch = s.std.epoch

/-- A command on a collection that is admitted and meets the collection of its handle whole: k is that collection with its released generations freed
(12 R441, R458, Table 12-4). -/
def onColl (s : State) (id op ci : Nat) (k : Coll) : Prop :=
  admitted s id op = true ∧ (∃ k0, findColl (begun s id) (cmdOf s id).tenant (cmdOf s id).handle = some (ci, k0) ∧ k0.state ≠ .broken ∧ structTarnished (begun s id) k0 = false) ∧
  (reapColl (begun s id) ci).colls.get? ci = some k ∧ k.state ≠ .broken

/-- The checkpoint extents that a peer answers to a RESTORE (15 Table 15-9). -/
def peerView (peer : List (Nat × Nat × List Byte × List Nat)) : View :=
  peer.map fun x => (x.1, { ckpt := true, sealed := true, kind := if x.2.2.1.take 8 == ascii "CL9MANIF" then .manifest else .shard, owner := x.2.1
                            units := x.2.2.1.length / 4096, data := x.2.2.1, tarnish := x.2.2.2 })

/-- The manifest that a RESTORE takes: the newest valid one of the store, of the slot that it asks for (14 R547). -/
def bestManifest (s : State) (x : View) (origin boot source want : Nat) : Option (Nat × Extent) :=
  ((storeManifests x origin boot).filter (fun e => manifestValid s (storeExts x origin boot) e.2.data && (want == 0xFF || manSlot (source < 4) e.2 == want))).foldl
    (fun b e => match b with | none => some e | some f => if manCut f.2 < manCut e.2 then some e else some f) none

/-- What a RESTORE reads from its operands once its manifest is known (15 Table 15-9). -/
def restoreReq (params select resume replay : List Byte) (v : View) (m : Extent) : RestoreReq :=
  { view := v, man := m.data, select := readSessions (fieldAt params 16 4) select, selectAll := fieldAt params 16 4 == 0, partK := fieldAt params 5 1
    partN := fieldAt params 6 1, resume := readResume (fieldAt params 20 4) resume, log := readLog (replay.length / 64 + 1) (replay.take (fieldAt params 40 4)) }

/-- The value of an FP32 word times 2^149, with an infinity at the next step past the greatest finite value; none for a NaN (02 R70). -/
def scaled32 (w : W32) : Option Int :=
  match dec32 w with
  | .nan => none
  | .inf n => some (if n then -(2 ^ 128 * 2 ^ 149) else 2 ^ 128 * 2 ^ 149)
  | .fin n m e => some ((if n then -1 else 1) * (m : Int) * 2 ^ (e + 149).toNat)

/-- The host command that a row performs: its place in the order of acceptance and its opcode; none for every other row (15 Table 15-8). -/
def hostRow : Instr → Option (Nat × Nat)
  | .nop id => some (id, 0x01)
  | .fence id => some (id, 0x02)
  | .loadParure id _ => some (id, 0x10)
  | .unloadParure id => some (id, 0x11)
  | .facetLoad id _ => some (id, 0x12)
  | .facetDrop id => some (id, 0x13)
  | .sessionOpen id => some (id, 0x20)
  | .sessionClose id => some (id, 0x21)
  | .ingest id _ => some (id, 0x22)
  | .generate id => some (id, 0x23)
  | .cancel id => some (id, 0x24)
  | .park id => some (id, 0x25)
  | .revive id => some (id, 0x26)
  | .charmCreate id => some (id, 0x27)
  | .charmDrop id => some (id, 0x28)
  | .batchDefine id => some (id, 0x30)
  | .batchRelease id => some (id, 0x30)
  | .batchJoin id => some (id, 0x31)
  | .batchLeave id => some (id, 0x32)
  | .ephemerisLoad id _ => some (id, 0x38)
  | .ephemerisSwitch id => some (id, 0x39)
  | .search id _ _ => some (id, 0x40)
  | .itemInsert id _ _ => some (id, 0x41)
  | .itemDelete id => some (id, 0x42)
  | .collectionMerge id => some (id, 0x43)
  | .collectionCreate id => some (id, 0x44)
  | .collectionDestroy id => some (id, 0x44)
  | .select id => some (id, 0x48)
  | .snapshot id => some (id, 0x50)
  | .restore id _ _ _ _ _ => some (id, 0x51)
  | .manifestRead id => some (id, 0x52)
  | .query id => some (id, 0x60)
  | .accountRead id => some (id, 0x61)
  | _ => none

/-- The row is the one that the outstanding command asks for where two rows share an opcode (12 R446, 10 R390), and no session that it names is
still being opened (08 R293). -/
def rowMeant (c : Instr) (s : State) : Prop :=
  match c with
  | .collectionCreate id => destroyFlag s id = false
  | .collectionDestroy id => destroyFlag s id = true
  | .batchDefine id => releaseFlag s id = false
  | .batchRelease id => releaseFlag s id = true
  | _ => ∀ id op, hostRow c = some (id, op) → ∀ h l, findSession s (cmdOf s id).tenant (cmdOf s id).handle = some (h, l) → opening l = false

/-- A command is outstanding and may start in the order of its object (15 R574, R575). -/
def startable (s : State) (id op : Nat) : Bool :=
  (findCmd s id).isSome && serving s && (cmdOf s id).opcode == op && !(cmdOf s id).started && !completed s id && !blockedBy s (cmdOf s id)

end Sys2Proof.Machine
end

