-- ==== Sys2Proof/WellFormed.lean ====
section
/-!
DEFINITION. Sys2Proof/WellFormed.lean: which commands some sender can form. A command names only a ring, port, bay, stack, unit,
channel, tenant, job class, cell or sensor that the block has (00 R14, 15 R572, R592, 16 R596, 09 R325, R354, 10 R404, 12 R456, 03 R76, 18 R692), and a
fixed-length operand has that length.
-/
namespace Sys2Proof

/-- The command is one that a sender can form. -/
def wellFormed : Instr → Bool
  | .nop _ => true
  | .fence _ => true
  | .fenceDone _ => true
  | .loadParure _ header => (header.length == 256 || header.isEmpty)
  | .parureCopyDone slot _ => decide (slot < 16)
  | .unloadParure _ => true
  | .facetLoad _ _ => true
  | .facetDrop _ => true
  | .sessionOpen _ => true
  | .sessionClose _ => true
  | .ingest _ _ => true
  | .generate _ => true
  | .cancel _ => true
  | .park _ => true
  | .revive _ => true
  | .charmCreate _ => true
  | .charmDrop _ => true
  | .batchDefine _ => true
  | .batchRelease _ => true
  | .batchJoin _ => true
  | .batchLeave _ => true
  | .ephemerisLoad _ _ => true
  | .ephemerisSwitch _ => true
  | .search _ _ _ => true
  | .itemInsert _ _ _ => true
  | .itemDelete _ => true
  | .collectionMerge _ => true
  | .collectionCreate _ => true
  | .collectionDestroy _ => true
  | .select _ => true
  | .snapshot _ => true
  | .restore _ _ _ _ _ _ => true
  | .manifestRead _ => true
  | .query _ => true
  | .accountRead _ => true
  | .descriptorFetch ring desc => decide (ring < 1024) && decide (desc.length = 64)
  | .tokenRefill => true
  | .sqTail ring _ => decide (ring < 1024)
  | .cqHead ring _ => decide (ring < 1024)
  | .ack ring _ => decide (ring < 1024)
  | .slotSel ring _ _ => decide (ring < 1024)
  | .slotApertureWrite ring _ _ => decide (ring < 1024)
  | .bar2Write _ _ => true
  | .bar2Read _ _ => true
  | .bar4Access _ _ _ => true
  | .completionPost ring => decide (ring < 1024)
  | .coalTimeExpiry ring => decide (ring < 1024)
  | .deliveryWrite => true
  | .keyInstall slot tenant => decide (slot < 2) && decide (tenant < 1024)
  | .keySelect slot tenant => decide (slot < 2) && decide (tenant < 1024)
  | .keyDeselect _ tenant => decide (tenant < 1024)
  | .cutKey _ _ => true
  | .registerWrite _ _ _ => true
  | .perstNAssert _ => true
  | .linkTraining width speed cxl flit => (width == 0 || width == 4 || width == 8 || width == 16) && decide (1 ≤ speed) && decide (speed ≤ 6) && decide (cxl ≤ 2) && flit == (speed == 6)
  | .d3hotToD0 => true
  | .coldReset => true
  | .warmReset => true
  | .deviceReset => true
  | .contextReset => true
  | .resetReqDevice => true
  | .resetReqWarm => true
  | .resetReqCold => true
  | .powerOn _ => true
  | .railsPgCheck _ => true
  | .railsPgFall => true
  | .duskEntry => true
  | .duskExit => true
  | .twilightEntry => true
  | .twilightExit => true
  | .nightEntry => true
  | .nightExit => true
  | .supplyLow _ _ => true
  | .supplyRecover _ => true
  | .controlledStop => true
  | .stopRecovery _ => true
  | .vcoreResetLevel _ => true
  | .thermalSample readings => decide (readings.length = 24)
  | .thermalTrip => true
  | .analogThermtrip sensor => decide (sensor < 24)
  | .trippedClear => true
  | .avsPoll _ _ _ => true
  | .vcoreSet _ => true
  | .refclkLoss => true
  | .refclkReturn => true
  | .wdtKick _ => true
  | .wdtPeriod => true
  | .wdtExpiry => true
  | .sidebandFrameReceive _ _ _ _ _ => true
  | .read => true
  | .write => true
  | .describe => true
  | .discover => true
  | .event => true
  | .readSnapshotExpiry _ => true
  | .homeFTimeout => true
  | .go => true
  | .nodeId => true
  | .configCommit => true
  | .crashClear => true
  | .retiredClear => true
  | .histClear => true
  | .accountClear => true
  | .rejoin => true
  | .formDomain => true
  | .memberReq => true
  | .chainOnly => true
  | .portFence => true
  | .imageStart => true
  | .imageData => true
  | .imageVerify => true
  | .verifyDone => true
  | .imageRun => true
  | .settingStartDone hbmOk t2Fail _ => decide (hbmOk.length = 8) && decide (t2Fail.length = 4)
  | .settingStartTimeout => true
  | .imageReplicate _ => true
  | .imageTransferReceive _ _ => true
  | .portTrained port lanes partner partnerPort => decide (port < 8) && (lanes == 4 || lanes == 8) && decide (partner < 64) && decide (partnerPort < 8)
  | .portDown port => decide (port < 8)
  | .flitReceive port flit => decide (port < 8) && decide (flit.length = 532)
  | .flitForward port => decide (port < 8)
  | .transferTimeout _ _ => true
  | .xferSetup => true
  | .xferDone => true
  | .fwdRead => true
  | .fwdWrite => true
  | .fwdCpl => true
  | .hostRead _ => true
  | .hostWrite => true
  | .hostMsix => true
  | .chainCount => true
  | .tailTimeout => true
  | .delayMeasure port _ => decide (port < 8)
  | .delayReq _ _ => true
  | .delayResp _ => true
  | .beaconSend => true
  | .beacon _ _ => true
  | .timePortLost => true
  | .isolationTimeout => true
  | .prepare => true
  | .memberAck => true
  | .commit => true
  | .abort => true
  | .stale => true
  | .memberAckTimeout => true
  | .prepareTimeout => true
  | .enumWordReceive word => decide (word < 4294967296)
  | .enumWordSend => true
  | .meridian _ => true
  | .switchAttempt _ => true
  | .slotStart => true
  | .leadPoint => true
  | .jobReady cls _ => decide (cls < 4)
  | .jobDispatch => true
  | .jobEnd => true
  | .urgentAllowance => true
  | .budgetReturn => true
  | .tileIssue => true
  | .tileCommit _ lane scratch window => decide (lane < 2) && scratch.all (fun e => decide (e.1 < 2 ^ 24) && decide (e.2 < 2 ^ 144)) && window.all (fun e => decide (e.1 < 2 ^ 23) && decide (e.2 < 2 ^ 144))
  | .tileFault _ lane errs twins parity => decide (lane < 2) && errs.all (fun e => decide (e.cell < 128)) && twins.all (fun e => decide (e.1 < 128)) && parity.all (fun c => decide (c < 128))
  | .mapEpochCommit lost => lost.all (fun n => decide (n < 32768))
  | .plannedSubstitution => true
  | .meshMessageReceive cell _ => decide (cell < 144)
  | .windowFillDone half errors => decide (half < 2) && errors.all (fun e => decide (e.1 < 2 ^ 23) && decide (e.2 < 2 ^ 144))
  | .preemptRequest => true
  | .spillDone => true
  | .spillRestoreDone => true
  | .bistStart => true
  | .bistDone results => decide (results.length = 144)
  | .spareRetest pass => decide (pass.length = 144)
  | .pathsFixed => true
  | .draftRunDone _ => true
  | .stepSeal => true
  | .stepBoundary => true
  | .tlbInvalidate _ => true
  | .recomputePassDone _ => true
  | .stackMoveDone _ => true
  | .replicaPromoteDone _ stack => decide (stack < 8)
  | .replicaEvictStart _ stack => decide (stack < 8)
  | .replicaEvictCommit _ stack => decide (stack < 8)
  | .ttlExpiry _ => true
  | .demoteRetry _ => true
  | .demotionCommit _ => true
  | .promotionCommit _ => true
  | .charmTtlExpiry _ => true
  | .courierPacketSelect errors => errors.all (fun e => decide (e.1 < 256) && decide (e.2 < 2 ^ 144))
  | .courierComplete _ _ => true
  | .courierAbandon _ => true
  | .instackCopyDone stack => decide (stack < 8)
  | .hbmScrub stack first errors => decide (stack < 8) && errors.all (fun e => decide (first + e.1 < 4294967296) && decide (e.2 < 2 ^ 144))
  | .bayPowerOn bay _ _ => decide (bay < 4)
  | .bayIdent bay _ channels => decide (bay < 4) && decide (channels.length = 16)
  | .mountDone bay => decide (bay < 4)
  | .cofferRemoval bay => decide (bay < 4)
  | .cooperativeDetach bay source => decide (bay < 4) && decide (source < 3)
  | .detachRetry bay => decide (bay < 4)
  | .detachDone bay => decide (bay < 4)
  | .forcedDetach => true
  | .extentSeal bay _ => decide (bay < 4)
  | .programFail bay channel _ _ => decide (bay < 4) && decide (channel < 16)
  | .blockEraseDone bay _ => decide (bay < 4)
  | .garbageCollection bay => decide (bay < 4)
  | .wearLevel bay => decide (bay < 4)
  | .patrolRead bay _ _ _ _ => decide (bay < 4)
  | .journalCheckpoint bay => decide (bay < 4)
  | .cofferCounterWrite bay => decide (bay < 4)
  | .walkStart unit => decide (unit < 8)
  | .walkDone unit => decide (unit < 8)
  | .mergeStart _ => true
  | .mergePublish _ => true
  | .selectFetchDone _ _ _ => true
  | .drainStart => true
  | .cutComplete _ => true
  | .cutAbandon _ => true
  | .queueSample => true
  | .kvGatherDone _ => true
  | .programStatusPass bay => decide (bay < 4)
  | .transmitOpportunity _ => true
  | .alwaysOnRailFailure => true

end Sys2Proof
end

