-- ==== Sys2Proof/Certificates/Slice0/Obligations.lean ====
section
/-!
DEFINITION. Sys2Proof/Certificates/Slice0/Obligations.lean: the statements for the provers. Each docstring names the rules of spec/ that its statement
follows, or the log entry where it states a choice of the model.
-/

open Sys2Proof Sys2Proof.Machine

/-- The block model's step (log 1): the command at the front of the queue runs on the state with the queue's rest, whatever the command and the state. -/
def Obligations.StepRunsTheFrontCommand : Prop :=
  ∀ c s rest, step { (s : State) with pending := c :: rest } = exec c { (s : State) with pending := rest }

/-- The model's choice of log 1: with no command waiting, a step is one tick of the timebase; it counts while REFCLK runs and the always-on rails are up
(00 R15, R16), counts a waiting tile's wait (03 R95) and notes since when the block rests (18 R681), and changes nothing else. -/
def Obligations.EmptyQueueTicks : Prop :=
  (∀ s, s.pending = [] → ∃ t, step s = .next t ∧ confined [.now, .ory, .lan] s t) ∧
  (∀ s, s.pending = [] → s.lan.alwaysOn = true → s.lan.refclk = true → ∃ t, step s = .next t ∧ t.now = (s.now + 1) % 2 ^ 64 ∧
    t.ory.wait = (if s.ory.hold then (s.ory.wait + 1) % 2 ^ 64 else s.ory.wait)) ∧
  (∀ s, s.pending = [] → (s.lan.alwaysOn = false ∨ s.lan.refclk = false) → step s = .next s)

/-- No command changes the queue: a step that runs one leaves the rest of the queue, and one that ticks leaves it empty. -/
def Obligations.OnlyTheFrontLeavesTheQueue : Prop :=
  (∀ c s t, exec c s = .next t → t.pending = s.pending) ∧ (∀ s t, step s = .next t → t.pending = s.pending.tail)

/-- Every command that some sender can form answers a next state in every state; one that no sender can form stops the block as illFormed. -/
def Obligations.WellFormedCommandsRun : Prop :=
  (∀ c s, Sys2Proof.wellFormed c = true → ∃ t, exec c s = .next t) ∧ (∀ c s, Sys2Proof.wellFormed c = false → exec c s = .fault .illFormed)

/-- The frame of every command: the parts of the block outside its list are unchanged, and where neither memory is in the list every byte of both reads as before. -/
def Obligations.CommandsKeepTheirFrame : Prop :=
  ∀ c s t, exec c s = .next t → confined (touched c) s t ∧ (Part.t1 ∉ touched c → ∀ a, t.t1.read a = s.t1.read a) ∧
    (Part.hostMem ∉ touched c → ∀ a, t.hostMem.read a = s.hostMem.read a)

/-- Reset is sound (canonical memories, the counts of 00 Table 0-1, a 64-bit timebase). -/
def Obligations.ResetIsSound : Prop :=
  sound State.reset = true

/-- 15 R581, R576, R585: NOP and FENCE_DONE complete ST_OK with zero result words; a FENCE has then no other effect than that it has started. -/
def Obligations.ControlCommandsComplete : Prop :=
  (∀ s id, admitted s id 0x01 = true →
    ∃ t, exec (.nop id) s = .next t ∧ answers s t (cmdOf s id) stOk 0 0 ∧ confined [.hif] s t) ∧
  (∀ s id, admitted s id 0x02 = true →
    ∃ t, exec (.fence id) s = .next t ∧ t.hif.done = s.hif.done ∧ (∃ c, findCmd t id = some c ∧ c.started = true) ∧ confined [.hif] s t) ∧
  (∀ s id c, s.lan.refclk = true → findCmd s id = some c → c.opcode = 0x02 → c.started = true → completed s id = false →
    (∀ d ∈ s.hif.cmds.takeWhile (fun d => d.id != id), d.ring = c.ring → completed s d.id = true) →
    ∃ t, exec (.fenceDone id) s = .next t ∧ answers s t c stOk 0 0 ∧ confined [.hif] s t)

/-- 15 R572: a doorbell value below the ring size moves the ring's index; one at or above it is ignored and sets HIF_EVENT.DB_RANGE.
The completions that a CQ_HEAD consumes are those before it (log 70). -/
def Obligations.DoorbellsMoveIndices : Prop :=
  (∀ s ring v, ring < 1024 → serving s = true → v < 2 ^ (s.ring ring).sqLog2 →
    ∃ t, exec (.sqTail ring v) s = .next t ∧ t.ring ring = { s.ring ring with tail := v } ∧ (∀ r, r ≠ ring → t.ring r = s.ring r) ∧ confined [.hif] s t) ∧
  (∀ s ring v, ring < 1024 → serving s = true → 2 ^ (s.ring ring).sqLog2 ≤ v →
    ∃ t, exec (.sqTail ring v) s = .next t ∧ bitAt t.hif.event 0 = true ∧ (∀ r, t.ring r = s.ring r) ∧ confined [.hif, .std] s t) ∧
  (∀ s ring v, ring < 1024 → serving s = true → v < 2 ^ (s.ring ring).cqLog2 →
    ∃ t, exec (.cqHead ring v) s = .next t ∧ t.ring ring = { s.ring ring with cqHead := v, consumed := (cqConsume (s.ring ring) v).consumed } ∧ (∀ r, r ≠ ring → t.ring r = s.ring r) ∧ confined [.hif] s t) ∧
  (∀ s ring v, ring < 1024 → serving s = true → 2 ^ (s.ring ring).cqLog2 ≤ v →
    ∃ t, exec (.cqHead ring v) s = .next t ∧ bitAt t.hif.event 0 = true ∧ (∀ r, t.ring r = s.ring r) ∧ confined [.hif, .std] s t)

/-- 15 R591: an acknowledgement between ACKED_SEQ and the packets written moves ACKED_SEQ and frees the packets below it; one at or below ACKED_SEQ is
ignored; a value above, an unknown or foreign handle and any width but 16 bytes are ignored and set HIF_EVENT.ACK_RANGE. -/
def Obligations.AckFreesPackets : Prop :=
  (∀ s ring data h l, ring < 1024 → serving s = true → data.length = 16 →
    s.lockets.find? (fun e => e.2.session == fieldAt data 0 8 && e.2.tenant == ringTenant s ring) = some (h, l) →
    l.acked < fieldAt data 8 8 → fieldAt data 8 8 ≤ writtenCount l →
    exec (.ack ring data) s = .next { s with lockets := s.lockets.upd h fun l =>
      { l with acked := fieldAt data 8 8, packets := l.packets.filter (fun p => fieldAt data 8 8 ≤ p.seq), dirtyControl := true } }) ∧
  (∀ s ring data h l, ring < 1024 → serving s = true → data.length = 16 →
    s.lockets.find? (fun e => e.2.session == fieldAt data 0 8 && e.2.tenant == ringTenant s ring) = some (h, l) →
    fieldAt data 8 8 ≤ l.acked → exec (.ack ring data) s = .next s) ∧
  (∀ s ring data, ring < 1024 → serving s = true →
    (data.length ≠ 16 ∨
      match s.lockets.find? (fun e => e.2.session == fieldAt data 0 8 && e.2.tenant == ringTenant s ring) with
      | none => True
      | some e => e.2.acked < fieldAt data 8 8 ∧ writtenCount e.2 < fieldAt data 8 8) →
    ∃ t, exec (.ack ring data) s = .next t ∧ bitAt t.hif.event 3 = true ∧ confined [.hif, .std] s t)

/-- 15 R573, R568, R566: SLOT_SEL takes 4 or 8 bytes; the aperture and BAR2 write the host draft slot and the stop slot of a control page in T1, and every
other write is discarded, counted in HIF_DROPPED and reported by HIF_EVENT.WRITE_DROPPED. -/
def Obligations.HostSlotsWritten : Prop :=
  (∀ s ring data, ring < 1024 → serving s = true → data.length = 8 →
    exec (.slotSel ring 0x020 data) s = .next (s.ringM ring fun g => { g with slotSel := leNat data })) ∧
  (∀ s ring data, ring < 1024 → serving s = true → data.length = 4 →
    exec (.slotSel ring 0x020 data) s = .next (s.ringM ring fun g => { g with slotSel := leNat (data ++ (natLe 8 g.slotSel).drop 4) }) ∧
    exec (.slotSel ring 0x024 data) s = .next (s.ringM ring fun g => { g with slotSel := leNat ((natLe 8 g.slotSel).take 4 ++ data) })) ∧
  (∀ s ring off data h l k, ring < 1024 → serving s = true → (data.length = 4 ∨ data.length = 8) → off % data.length = 0 →
    apertureLocket s ring = some (h, l) →
    ((0x100 ≤ off ∧ off + data.length ≤ 0x140 ∧ k = 320 + (off - 0x100)) ∨ (0x200 ≤ off ∧ off + data.length ≤ 0x300 ∧ k = 768 + (off - 0x200))) →
    exec (.slotApertureWrite ring off data) s = .next (s.locketM h fun l => slotWrite l k data)) ∧
  (∀ s addr data h l, s.hif.linkUp = true → serving s = true →
    s.lockets.find? (fun e => inT1 e.2 && e.2.page ≤ addr && addr < e.2.page + 4096) = some (h, l) →
    ((320 ≤ addr - l.page ∧ addr - l.page + data.length ≤ 384) ∨ (768 ≤ addr - l.page ∧ addr - l.page + data.length ≤ 1024)) →
    exec (.bar2Write addr data) s = .next (s.locketM h fun l => slotWrite l (addr - l.page) data)) ∧
  (∀ s addr data, s.hif.linkUp = true → serving s = true →
    (match s.lockets.find? (fun e => inT1 e.2 && e.2.page ≤ addr && addr < e.2.page + 4096) with
      | none => True
      | some e => ¬((320 ≤ addr - e.2.page ∧ addr - e.2.page + data.length ≤ 384) ∨ (768 ≤ addr - e.2.page ∧ addr - e.2.page + data.length ≤ 1024))) →
    ∃ t, exec (.bar2Write addr data) s = .next t ∧ bitAt t.hif.event 1 = true ∧ t.hif.dropped = (s.hif.dropped + 1) % 2 ^ 32 ∧
      confined [.hif, .std] s t)

/-- 15 R565 to R567, R569, R570, R615: a BAR2 read answers the host with the bytes of the mapping or with Unsupported Request; BAR4 window 0 is the
head's own BAR0, another window forwards, and in flat mode a read answers Unsupported Request; a register write is performed 4 or 8 bytes wide. -/
def Obligations.HostAccessesAnswered : Prop :=
  (∀ s addr len, s.hif.linkUp = true → serving s = true →
    exec (.bar2Read addr len) s = .next { (bar2Read s addr len).1 with replies := (bar2Read s addr len).1.replies ++ [(bar2Read s addr len).2] }) ∧
  (∀ s addr len, s.hif.linkUp = true → serving s = true → 0xB00000000 ≤ bits addr 35 0 → bits addr 35 0 < 0xC00000000 →
    ∃ t, exec (.bar2Read addr len) s = .next t ∧ bitAt t.hif.event 2 = true ∧ t.replies = s.replies ++ [{ ur := true }]) ∧
  (∀ s off len, s.hif.linkUp = true → s.std.modeInForce ≠ 1 → 0 < s.std.count → off < 2 ^ 26 → (len = 4 ∨ len = 8) →
    exec (.bar4Access off len none) s = .next (answer (bar0Read s off len))) ∧
  (∀ s off data, s.hif.linkUp = true → s.std.modeInForce ≠ 1 → 0 < s.std.count → off < 2 ^ 26 → (data.length = 4 ∨ data.length = 8) →
    exec (.bar4Access off data.length (some data)) s = .next (bar0Write s off data)) ∧
  (∀ s k off len, s.hif.linkUp = true → s.std.modeInForce ≠ 1 → 0 < k → k < s.std.count → k < 64 → off < 2 ^ 26 → (len = 4 ∨ len = 8) →
    exec (.bar4Access (k * 2 ^ 26 + off) len none) s = .next (bar4Forward s k off len none)) ∧
  (∀ s addr len, s.hif.linkUp = true → s.std.modeInForce = 1 →
    ∃ t, exec (.bar4Access addr len none) s = .next t ∧ t.replies = s.replies ++ [{ ur := true }] ∧ confined [.replies] s t) ∧
  (∀ s off data, s.lan.coreUp = true → data.length = 4 → off % 4 = 0 → off < 0x1000000 →
    exec (.registerWrite false off data) s = .next (hostReg s off (leNat data))) ∧
  (∀ s off data, fwRuns s = true → data.length = 4 → off % 4 = 0 → exec (.registerWrite true off data) s = .next (fwWrite s off (leNat data)))

/-- 15 R574, R575, R577; 11 R428, R430: a fetched descriptor becomes an outstanding command of its ring's tenant, the ring's head moves on and is written to
SQ_SHADOW; the session that it names is touched and pinned (08 R296, R297); a bucket that policing finds short ends the command ST_QUOTA; TOKEN_REFILL adds the rate for every tick, up to the depth. -/
def Obligations.DescriptorsAccepted : Prop :=
  (∀ s ring desc, ring < 1024 → desc.length = 64 → serving s = true → s.hif.fetchEn = true → hostReach s = true → viaHead s = false →
    nextRing s = some ring → (police (refill s) (ringTenant s ring) (cmdCost (fieldAt desc 0 1))).2 = none →
    bits (fieldAt desc 2 2) 9 0 = ringTenant s ring → opcodes.contains (fieldAt desc 0 1) = true → fieldAt desc 0 1 ≠ 2 →
    (if cmdCost (fieldAt desc 0 1) != 0 then poolCount s true < 3840 ∧ tenantCount s (ringTenant s ring) < (s.dlv (ringTenant s ring)).outMax
      else poolCount s false < 256) → orreryLost s = false →
    ∃ t, exec (.descriptorFetch ring desc) s = .next t ∧
      t.hif.cmds = s.hif.cmds ++ [{ id := s.hif.nextId, ring := ring, tag := fieldAt desc 4 4, tenant := ringTenant s ring, opcode := fieldAt desc 0 1
                                    desc := desc, accept := s.now, general := cmdCost (fieldAt desc 0 1) != 0 }] ∧
      t.hif.done = s.hif.done ∧ t.hif.nextId = s.hif.nextId + 1 ∧
      t.ring ring = { s.ring ring with head := ((s.ring ring).head + 1) % 2 ^ (s.ring ring).sqLog2 } ∧
      t.hostMem = s.hostMem.writeN (s.ring ring).shadow (natLe 4 (((s.ring ring).head + 1) % 2 ^ (s.ring ring).sqLog2)) ∧
      confined [.lockets, .charms, .traffic, .hif, .std, .hostMem] s t) ∧
  (∀ s ring desc w, ring < 1024 → desc.length = 64 → serving s = true → s.hif.fetchEn = true → hostReach s = true → viaHead s = false →
    nextRing s = some ring → (police (refill s) (ringTenant s ring) (cmdCost (fieldAt desc 0 1))).2 = some w → completed s s.hif.nextId = false →
    ∃ t c, exec (.descriptorFetch ring desc) s = .next t ∧ c.id = s.hif.nextId ∧ c.tag = fieldAt desc 4 4 ∧ c.ring = ring ∧
      t.hif.done = s.hif.done ++ [ended s c stQuota w.1 w.2]) ∧
  (∀ s, ∃ t, exec .tokenRefill s = .next t ∧ confined [.traffic] s t ∧ t.traffic.lastRefill = s.now ∧
    ∀ k b, s.traffic.tenants.get? k = some b →
      t.traffic.tenants.get? k = some { b with level := min (b.level + (s.now - s.traffic.lastRefill) * b.rate) (b.depth * 10 ^ 8) })

/-- 15 R578 to R580, R579: a waiting completion is written to its slot with its phase and the command leaves; a full completion ring holds it and sets
HIF_EVENT.CQ_FULL; the coalescing time signals the ring's vector. -/
def Obligations.CompletionsPosted : Prop :=
  (∀ s ring d, ring < 1024 → s.lan.refclk = true → s.hif.done.find? (fun d => d.ring == ring) = some d → postable s ring = true → cqFull (s.ring ring) = false →
    ∃ t, exec (.completionPost ring) s = .next t ∧ findCmd t d.id = none ∧ (∀ e ∈ t.hif.done, e.id ≠ d.id ∧ e ∈ s.hif.done) ∧
      (t.ring ring).posted = (s.ring ring).posted + 1 ∧ (∀ r, r ≠ ring → t.ring r = s.ring r) ∧
      (viaHead s = false → t.hostMem = s.hostMem.writeN ((s.ring ring).cqBase + 32 * ((s.ring ring).posted % 2 ^ (s.ring ring).cqLog2))
        (cplBytes d ((s.ring ring).posted / 2 ^ (s.ring ring).cqLog2 % 2 == 0)))) ∧
  (∀ s ring d, ring < 1024 → s.lan.refclk = true → s.hif.done.find? (fun d => d.ring == ring) = some d → postable s ring = true → cqFull (s.ring ring) = true →
    ∃ t, exec (.completionPost ring) s = .next t ∧ t.hif.done = s.hif.done ∧ t.hif.cmds = s.hif.cmds ∧ bitAt t.hif.event 4 = true ∧
      t.hostMem = s.hostMem ∧ ∀ r, t.ring r = s.ring r) ∧
  (∀ s ring, ring < 1024 → s.lan.refclk = true → (s.ring ring).irqEn = true → (s.ring ring).unsignalled ≠ 0 →
    (s.ring ring).firstUnsignalled + 16 * (s.ring ring).coalTime ≤ s.now →
    ∃ t, exec (.coalTimeExpiry ring) s = .next t ∧ t.ring ring = { s.ring ring with unsignalled := 0 } ∧ (∀ r, r ≠ ring → t.ring r = s.ring r) ∧
      (s.integ.mode ≠ .isolated → viaHead s = false → t.hif.msix = s.hif.msix ++ [(s.ring ring).vector]) ∧
      (s.integ.mode = .isolated → t.hif.msixHeld = s.hif.msixHeld ++ [(s.ring ring).vector] ∧ t.hif.msix = s.hif.msix))

/-- 15 R587 to R589; 11 R418, R419: the packet that scheduler 1 selects is written to its slot, payload before header, and the tenant's count of written
packets grows; a SESSION_CLOSE that waited for it ends. -/
def Obligations.PacketsDelivered : Prop :=
  ∀ s s1 tn h l p, s.lan.refclk = true → wfqSelect s 1 (dlvBacklog s) false = (s1, some tn) → nextSession s1 tn = some (h, l) → nextPacket s1 l = some p →
    mayPost s = true → s.integ.mode ≠ .quarantined → s.lan.power ≠ .boot → viaHead s = false →
    ∃ u, exec .deliveryWrite s = .next (finishClose u h) ∧
      u.lockets = s.lockets.upd h (fun l => { l with packets := l.packets.map (fun q => if q.seq == p.seq then { q with written := true } else q) }) ∧
      (u.dlv tn).written = ((s.dlv tn).written + 1) % 2 ^ 64 ∧
      (let m := (s.hostMem.writeN (slotAddr s tn l.session p.seq + 64) (p.bytes.drop 64)).writeN (slotAddr s tn l.session p.seq) (p.bytes.take 64)
       u.hostMem = m ∨ u.hostMem = m.writeN (s.dlv tn).prod (natLe 8 (((s.dlv tn).written + 1) % 2 ^ 64))) ∧
      confined [.lockets, .traffic, .hif, .hostMem, .std] s u

/-- 15 R592, Table 15-13: a key operation does what the table gives, reports it in KEY_STATUS and clears the key data; a refused one changes no key and sets
HIF_EVENT.KEY_REFUSED. -/
def Obligations.KeyOperationsPerformed : Prop :=
  (∀ s slot tn, slot < 2 → tn < 1024 → serving s = true → (keyBytes s).take 32 ≠ (keyBytes s).drop 32 → (s.keys.getD tn {}).current ≠ some slot →
    ∃ t, exec (.keyInstall slot tn) s = .next t ∧ (t.keys.getD tn {}).slot slot = some (keyBytes s) ∧
      (t.keys.getD tn {}).slot (1 - slot) = (s.keys.getD tn {}).slot (1 - slot) ∧ (t.keys.getD tn {}).current = (s.keys.getD tn {}).current ∧
      (∀ k, k ≠ tn → t.keys.getD k {} = s.keys.getD k {}) ∧ t.hif.keyStatus = 1 ∧ t.hif.keyData = List.replicate 16 0 ∧ confined [.keys, .hif] s t) ∧
  (∀ s slot tn, slot < 2 → tn < 1024 → serving s = true → ((keyBytes s).take 32 = (keyBytes s).drop 32 ∨ (s.keys.getD tn {}).current = some slot) →
    ∃ t, exec (.keyInstall slot tn) s = .next t ∧ t.keys = s.keys ∧ t.hif.keyStatus = 2 ∧ t.hif.keyData = List.replicate 16 0 ∧
      bitAt t.hif.event 5 = true ∧ confined [.hif, .std] s t) ∧
  (∀ s slot tn, slot < 2 → tn < 1024 → serving s = true → (s.keys.getD tn {}).slot slot ≠ none →
    ∃ t, exec (.keySelect slot tn) s = .next t ∧ t.keys.getD tn {} = { s.keys.getD tn {} with current := some slot } ∧
      (∀ k, k ≠ tn → t.keys.getD k {} = s.keys.getD k {}) ∧ t.hif.keyStatus = 1 ∧ t.hif.keyData = List.replicate 16 0 ∧ confined [.keys, .hif] s t) ∧
  (∀ s slot tn, slot < 2 → tn < 1024 → serving s = true → (s.keys.getD tn {}).slot slot = none →
    ∃ t, exec (.keySelect slot tn) s = .next t ∧ t.keys = s.keys ∧ t.hif.keyStatus = 2 ∧ bitAt t.hif.event 5 = true ∧ confined [.hif, .std] s t) ∧
  (∀ s slot tn, tn < 1024 → serving s = true →
    ∃ t, exec (.keyDeselect slot tn) s = .next t ∧ t.keys.getD tn {} = { s.keys.getD tn {} with current := none } ∧
      (∀ k, k ≠ tn → t.keys.getD k {} = s.keys.getD k {}) ∧ t.hif.keyStatus = 1 ∧ t.hif.keyData = List.replicate 16 0 ∧ confined [.keys, .hif] s t) ∧
  (∀ s slot tn, serving s = true → (∃ b ∈ (keyBytes s).take 32, b ≠ 0#8) →
    ∃ t, exec (.cutKey slot tn) s = .next t ∧ t.ckpt = { s.ckpt with cutKey := some ((keyBytes s).take 32) } ∧ t.hif.keyStatus = 1 ∧
      t.hif.keyData = List.replicate 16 0 ∧ confined [.ckpt, .hif] s t) ∧
  (∀ s slot tn, serving s = true → (∀ b ∈ (keyBytes s).take 32, b = 0#8) →
    ∃ t, exec (.cutKey slot tn) s = .next t ∧ t.hif.keyStatus = 2 ∧ bitAt t.hif.event 5 = true ∧ confined [.hif, .std] s t)

/-- 13 R507; 18 R672, R690; 00 R20; 15 R577: a command that admission refuses completes at once with the status of the refusal and has no other effect:
quarantined, ST_FENCED; before the configuration is committed, every command but NOP, FENCE and QUERY of KIND 7, ST_INVALID; with a nonzero reserved
field, ST_INVALID; from a tenant that may not issue it, ST_INVALID. -/
def Obligations.AdmissionRefusesCommands : Prop :=
  (∀ c s id op st, hostRow c = some (id, op) → wellFormed c = true → startable s id op = true → rowMeant c s → gate s (cmdOf s id) = some st →
    ∃ t, exec c s = .next t ∧ answers s t (cmdOf s id) st 0 0 ∧ confined [.hif] s t) ∧
  (∀ s d, s.integ.mode = .quarantined → gate s d = some stFenced) ∧
  (∀ s d, s.integ.mode ≠ .quarantined → s.lan.stopped = false → orreryLost s = false → s.lan.committed = false →
    ¬(d.opcode = 0x01 ∨ d.opcode = 0x02 ∨ (d.opcode = 0x60 ∧ d.fld 16 1 = 7)) → gate s d = some stInvalid) ∧
  (∀ s d, s.integ.mode ≠ .quarantined → s.lan.stopped = false → orreryLost s = false →
    reservedOk d = false ∨ (tenant0Only d.opcode = true ∧ d.tenant ≠ 0) → gate s d = some stInvalid)

/-- 04 R148 to R154, R160: LOAD_PARURE reserves a slot and starts the copy, for a peer's parure that of its
header first, or completes with the status and the number of the check that failed; a header that has come is checked in its turn; the end of the copy loads the slot and returns T_adm, or frees it; UNLOAD_PARURE frees a slot without a user. -/
def Obligations.ParuresLoadedAndUnloaded : Prop :=
  (∀ s id header, (header.length = 256 ∨ header = []) → admitted s id 0x10 = true → ∃ t, exec (.loadParure id header) s = .next t ∧
    match loadCheck (begun s id) (cmdOf s id) header with
    | some (st, n) => answers s t (cmdOf s id) st 0 n ∧ t.parures = s.parures
    | none =>
      if (newLoad (cmdOf s id)).peer.isSome then
        t.hif.done = s.hif.done ∧ t.parures.get? (freeSlot s) = some { newLoad (cmdOf s id) with headerDue := true } ∧
          ∃ d ∈ allDescs t, d.purpose = .parure (freeSlot s) ∧ d.op = 6 ∧ d.units = 1
      else match reserveLoad { begun s id with parures := s.parures.set (freeSlot s) (newLoad (cmdOf s id)) } (freeSlot s) (newLoad (cmdOf s id)) header with
      | none => answers s t (cmdOf s id) stNoRoom 0 5 ∧ t.parures.get? (freeSlot s) = none
      | some _ => t.hif.done = s.hif.done ∧ ∃ p, t.parures.get? (freeSlot s) = some p ∧
          p.state = .loading ∧ p.handle = (cmdOf s id).handle ∧ p.cmd = id ∧ p.headerDue = false ∧ ∃ d ∈ allDescs t, d.purpose = .parure (freeSlot s) ∧ d.op = 6) ∧
  (∀ s slot image p s1 st c, slot < 16 → s.parures.get? slot = some p → p.state = .loading → p.headerDue = true → consume s (.parure slot) = some (s1, st) →
    findCmd s p.cmd = some c → completed s p.cmd = false → ∃ t, exec (.parureCopyDone slot image) s = .next t ∧
    if st ≠ 0 then t.parures.get? slot = none ∧ answers s t c stUnknown 0 4
    else match headerCheck p.length p.widthCap p.received with
      | some (e, n) => t.parures.get? slot = none ∧ answers s t c e 0 n
      | none => match reserveLoad s1 slot p p.received with
        | none => t.parures.get? slot = none ∧ answers s t c stNoRoom 0 5
        | some _ => t.hif.done = s.hif.done ∧ ∃ q, t.parures.get? slot = some q ∧ q.state = .loading ∧ q.headerDue = false ∧ q.cmd = p.cmd ∧
            ∃ d ∈ allDescs t, d.purpose = .parure slot ∧ d.op = 6) ∧
  (∀ s slot given image p s1 st c, slot < 16 → s.parures.get? slot = some p → p.state = .loading → p.headerDue = false → consume s (.parure slot) = some (s1, st) →
    image = (if p.peer.isSome then p.received else given) →
    findCmd s p.cmd = some c → completed s p.cmd = false → ∃ t, exec (.parureCopyDone slot given) s = .next t ∧
    match copyCheck s1 p st (padTo p.length image) with
    | none => ∃ q, t.parures.get? slot = some q ∧ q.state = .loaded ∧ q.image = padTo p.length image ∧
        q.hash = parureHash q.image ∧ q.tAdm = tAdmOf q.image p.widthCap ∧ answers s t c stOk q.tAdm 0
    | some (e, n) => t.parures.get? slot = none ∧ answers s t c e 0 n) ∧
  (∀ s id slot p, admitted s id 0x11 = true → parureHandle s (cmdOf s id).handle = some (slot, p) → p.state = .loaded → parureUsed s slot p = false →
    ∃ t, exec (.unloadParure id) s = .next t ∧ t.parures = s.parures.erase slot ∧ answers s t (cmdOf s id) stOk 0 0) ∧
  (∀ s id slot p, admitted s id 0x11 = true → parureHandle s (cmdOf s id).handle = some (slot, p) → p.state = .loaded → parureUsed s slot p = true →
    ∃ t, exec (.unloadParure id) s = .next t ∧ t.parures = s.parures ∧ answers s t (cmdOf s id) stBusy 0 0) ∧
  (∀ s id slot p, admitted s id 0x11 = true → parureHandle s (cmdOf s id).handle = some (slot, p) → p.state = .loading → p.cmd ≠ id →
    ∃ t, exec (.unloadParure id) s = .next t ∧ t.parures = s.parures.erase slot ∧ hasEnded t id stOk)

/-- 04 R159; 08 R320, R321, R323: FACET_LOAD adds the facet and completes; FACET_DROP takes the handle away, and the
facet's space is freed once no step in progress reads it. -/
def Obligations.FacetsLoadedAndDropped : Prop :=
  (∀ s id image slot p a, admitted s id 0x12 = true → (cmdOf s id).handle ≠ 0 → (cmdOf s id).fld 24 8 % 64 = 0 →
    (∀ f ∈ s.facets, ¬(f.handle = (cmdOf s id).handle ∧ f.tenant = (cmdOf s id).tenant)) →
    parureHandle s ((cmdOf s id).fld 16 8) = some (slot, p) → p.state = .loaded → hasSect p.image 10 = true →
    (cmdOf s id).fld 32 4 = facetBytes p.image → facetPadOk (padTo ((cmdOf s id).fld 32 4) image) 0 (facetLayers p.image) = true →
    s.facets.length < 65536 → parFitAny (begun s id) ((cmdOf s id).fld 32 4) = some a →
    ∃ t, exec (.facetLoad id image) s = .next t ∧ answers s t (cmdOf s id) stOk 0 0 ∧
      t.facets = s.facets ++ [{ tenant := (cmdOf s id).tenant, handle := (cmdOf s id).handle, slot := slot, image := padTo ((cmdOf s id).fld 32 4) image
                                hash := beNat (sha256 (padTo ((cmdOf s id).fld 32 4) image)), addr := a }]) ∧
  (∀ s id f, admitted s id 0x13 = true → s.facets.find? (fun f => f.handle != 0 && f.handle == (cmdOf s id).handle && f.tenant == (cmdOf s id).tenant) = some f →
    (∀ e ∈ s.lockets, e.2.tenant = (cmdOf s id).tenant → e.2.facetHash = f.hash →
      e.2.state = .parkedT2 ∨ e.2.state = .parkedT3 ∨ e.2.state = .expired) →
    ∃ t, exec (.facetDrop id) s = .next t ∧ answers s t (cmdOf s id) stOk 0 0 ∧
      t.facets = (s.facets.map (fun g => if g.handle != 0 && g.handle == (cmdOf s id).handle && g.tenant == (cmdOf s id).tenant then { g with handle := 0 } else g)).filter
        (fun g => g.handle != 0 || facetRead s g))

/-- 08 R289, R297; 15 R582, R586; 06 R217; 07 R266, R275, R277, R279: INGEST appends its symbols, and completes at once on an OPEN session; GENERATE opens
a stream on an idle one and waits for the next boundary on a generating one; CANCEL on an idle stream ends ST_ALREADY_DONE and on a stream without a
step in progress closes it. -/
def Obligations.SessionInputTaken : Prop :=
  (∀ s id data h l, entering s id 0x22 h l = true → l.state = .opened → ingestOk (cmdOf s id) = true →
    (∀ x ∈ ingestSyms (cmdOf s id) data, x < 0x2140) →
    l.thread.length + l.pending.length + (ingestSyms (cmdOf s id) data).length ≤ imgMaxThread (locketImg s l) →
    ∃ t q, exec (.ingest id data) s = .next t ∧ t.lockets.get? h = some q ∧ q.thread = l.thread ++ ingestSyms (cmdOf s id) data ∧ id ∈ q.pins ∧
      answersStep s t (cmdOf s id) stOk (l.thread.length + (ingestSyms (cmdOf s id) data).length) 0 l.smp.stepIndex) ∧
  (∀ s id data h l, entering s id 0x22 h l = true → l.state = .bound → ingestOk (cmdOf s id) = true →
    (∀ x ∈ ingestSyms (cmdOf s id) data, x < 0x2140) →
    l.thread.length + l.pending.length + rowWidth s h l + (ingestSyms (cmdOf s id) data).length ≤ imgMaxThread (locketImg s l) →
    ∃ t q, exec (.ingest id data) s = .next t ∧ t.lockets.get? h = some q ∧ id ∈ q.pins ∧
      q.pendingCmds = l.pendingCmds ++ [(id, (ingestSyms (cmdOf s id) data).length)] ∧
      q.thread ++ q.pending = (if (stepOf s l).isSome then l.thread else l.thread ++ ingestSyms (cmdOf s id) data) ++
        (if (stepOf s l).isSome then l.pending ++ ingestSyms (cmdOf s id) data else l.pending) ∧ t.hif.done = s.hif.done) ∧
  (∀ s id h l, entering s id 0x23 h l = true → (l.state = .opened ∨ l.state = .bound) →
    samplerOk (cmdOf s id) (((loadedSlot s l.slot).map (·.widthCap)).getD 1) = true → grammarOk (cmdOf s id) (locketImg s l) = true → l.thread ≠ [] →
    (cmdOf s id).flag 4 = false → l.stm.generating = false →
    ∃ t q, exec (.generate id) s = .next t ∧ t.lockets.get? h = some q ∧ q.stm.generating = true ∧ q.stm.genTag = (cmdOf s id).tag ∧
      q.stm.emitted = 0 ∧ q.stm.delivered = 0 ∧ q.stm.hold = [] ∧ q.genCmd = some id ∧ id ∈ q.pins ∧ q.thread = l.thread ∧ t.hif.done = s.hif.done) ∧
  (∀ s id h l, entering s id 0x23 h l = true → (l.state = .opened ∨ l.state = .bound) →
    samplerOk (cmdOf s id) (((loadedSlot s l.slot).map (·.widthCap)).getD 1) = true → grammarOk (cmdOf s id) (locketImg s l) = true → l.thread ≠ [] →
    (cmdOf s id).flag 4 = false → (cmdOf s id).flag 5 = false → (cmdOf s id).flag 6 = false → l.stm.generating = true →
    ∃ t q, exec (.generate id) s = .next t ∧ t.lockets.get? h = some q ∧ q.genWait = l.genWait ++ [{ cmd := id, desc := (cmdOf s id).desc }] ∧
      q.stm = l.stm ∧ id ∈ q.pins ∧ t.hif.done = s.hif.done) ∧
  (∀ s id h l, entering s id 0x24 h l = true → (l.state = .opened ∨ l.state = .bound) → l.stm.generating = false → (cmdOf s id).flag 4 = false →
    ∃ t, exec (.cancel id) s = .next t ∧ t.stm.evCancelAfter = true ∧ t.stm.cancelAfter = (s.stm.cancelAfter + 1) % 2 ^ 32 ∧
      answersStep s t { cmdOf s id with accept := s.now } stAlready l.stm.delivered 0 l.smp.stepIndex) ∧
  (∀ s id h l, entering s id 0x24 h l = true → l.state = .opened → l.stm.generating = true → (cmdOf s id).flag 4 = false → l.genCmd ≠ some id →
    (∀ g ∈ l.genWait, g.cmd ≠ id) →
    ∃ t q, exec (.cancel id) s = .next t ∧ t.lockets.get? h = some q ∧ q.stm.generating = false ∧ q.genCmd = none ∧ hasEnded t id stCancelled)

/-- 08 R293 to R295, Table 8-6; 15 R579: SESSION_OPEN makes an OPEN locket, and SESSION_CLOSE frees one. -/
def Obligations.SessionsOpenedAndClosed : Prop :=
  (∀ s id st, admitted s id 0x20 = true → openCheck (begun s id) (cmdOf s id) = .inl st →
    ∃ t, exec (.sessionOpen id) s = .next t ∧ answers s t (cmdOf s id) st 0 0 ∧ confined [.hif, .std] s t) ∧
  (∀ s id o page, admitted s id 0x20 = true → openCheck (begun s id) (cmdOf s id) = .inr o → o.charm = none →
    arenaFit (begun s id) (homeStack (begun s id)) (locketArena (begun s id) (cmdOf s id).tenant o.parure.image) = some page →
    ∃ t h l, exec (.sessionOpen id) s = .next t ∧ t.lockets.get? h = some l ∧ l.session = (cmdOf s id).handle ∧ l.tenant = (cmdOf s id).tenant ∧ l.state = .opened ∧
      l.thread = [] ∧ l.home = homeStack (begun s id) ∧ l.page = page ∧ l.slot = o.slot ∧ l.parureHash = o.parure.hash ∧ l.facetHash = o.facet ∧ l.key = (cmdOf s id).fld 24 8 ∧
      l.ttl1 = (cmdOf s id).fld 48 4 ∧ l.ttl2 = (cmdOf s id).fld 52 4 ∧ l.ttl3 = (cmdOf s id).fld 56 4 ∧ answers s t (cmdOf s id) stOk h (page / 4096)) ∧
  (∀ s id o ci m page u fs, admitted s id 0x20 = true → openCheck (begun s id) (cmdOf s id) = .inr o → o.charm = some (ci, m) →
    ringBytes o.parure.image m.symbols.length ≠ 0 → arenaFit (begun s id) (homeStack (begun s id)) (locketArena (begun s id) (cmdOf s id).tenant o.parure.image) = some page →
    takeFrames (begun s id) (homeStack (begun s id)) (ringPages o.parure.image m.symbols.length).length (.inUse (((begun s id).lockets.freshFrom ((begun s id).lockets.length + 1) 0).getD 0)) = (u, some fs) →
    ∃ t h l d, exec (.sessionOpen id) s = .next t ∧ t.lockets.get? h = some l ∧ l.state = .opened ∧ l.thread = m.symbols ∧ l.base = m.symbols.length ∧
      l.charmDigest = m.digest ∧ opening l = true ∧ d ∈ allDescs t ∧ d.op = 1 ∧ d.purpose = .ring h ∧ t.hif.done = s.hif.done) ∧
  (∀ s id h l, entering s id 0x21 h l = true → (l.state = .bound ∨ l.state = .promoting) →
    ∃ t, exec (.sessionClose id) s = .next t ∧ answers s t (cmdOf s id) stBusy 0 (locketCode l.state)) ∧
  (∀ s id h l, entering s id 0x21 h l = true → (l.state = .parkedT2 ∨ l.state = .parkedT3 ∨ l.state = .expired) → l.packets = [] →
    ∃ t, exec (.sessionClose id) s = .next t ∧ t.lockets.get? h = none ∧ answers s t (cmdOf s id) stOk 0 0) ∧
  (∀ s id h l, entering s id 0x21 h l = true → l.state = .opened → l.stm.generating = false → l.packets.all (·.written) = true →
    (∀ x ∈ s.eph.ctxs.vals, ∀ j ∈ x.joins, j.id ≠ h) → ∃ t, exec (.sessionClose id) s = .next t ∧ t.lockets.get? h = none ∧ answers s t (cmdOf s id) stOk 0 0)

/-- 08 R298 to R304, Table 8-5, Table 8-7: PARK and REVIVE start a move, and its end commits it. -/
def Obligations.SessionsParkedAndRevived : Prop :=
  (∀ s id h l, entering s id 0x25 h l = true → ((cmdOf s id).fld 16 1 = 2 ∨ (cmdOf s id).fld 16 1 = 3) → ((cmdOf s id).fld 17 1 < 4 ∨ (cmdOf s id).fld 17 1 = 0xFF) →
    (l.state = .bound ∨ l.state = .demoting ∨ l.state = .promoting ∨ (l.state = .opened ∧ (l.stm.generating = true ∨ l.pins ≠ [] ∨ l.recomputing = true))) →
    ∃ t, exec (.park id) s = .next t ∧ answers s t (cmdOf s id) stBusy 0 (locketCode l.state)) ∧
  (∀ s id h l u, entering s id 0x25 h l = true → ((cmdOf s id).fld 16 1 = 2 ∨ (cmdOf s id).fld 16 1 = 3) → (cmdOf s id).fld 17 1 = 0xFF → (cmdOf s id).flag 4 = false →
    ((l.state = .opened ∧ l.stm.generating = false ∧ l.pins = [] ∧ l.recomputing = false) ∨ (l.state = .parkedT2 ∧ (cmdOf s id).fld 16 1 = 3)) →
    tierOpen s ((cmdOf s id).fld 16 1) = true →
    startDemotion (entered s id h) h ((cmdOf s id).fld 16 1) (demoteBay (entered s id h) 0xFF) (some id) = some u →
    exec (.park id) s = .next u) ∧
  (∀ s h tier bay cmd u, startDemotion s h tier bay cmd = some u → ∃ l q d m, s.lockets.get? h = some l ∧ u.lockets.get? h = some q ∧ q.state = .demoting ∧
    q.dst = tier ∧ q.thread = l.thread ∧ q.ptes = l.ptes ∧ q.move = some m ∧ m.cmd = cmd ∧ d ∈ allDescs u ∧ d.op = 2 ∧ d.tier = tier ∧ d.purpose = .demote h ∧
    d.abandonable = true ∧ u.hif = s.hif) ∧
  (∀ s id h l, entering s id 0x26 h l = true → (l.state = .opened ∨ l.state = .bound) →
    ∃ t, exec (.revive id) s = .next t ∧ answers s t (cmdOf s id) stOk (reviveWords h l.page false).1 (reviveWords h l.page false).2) ∧
  (∀ s id h l st code, entering s id 0x26 h l = true → (l.state = .parkedT2 ∨ (l.state = .parkedT3 ∧ (s.bay l.bay).mode ≠ .detaching)) →
    reviveCheck (takePin (entered s id h) h id) { meets s id l with pins := if l.pins.contains id then l.pins else l.pins ++ [id] } = .inl (st, code) →
    ∃ t, exec (.revive id) s = .next t ∧ answers s t (cmdOf s id) st 0 code) ∧
  (∀ s id h l hd w slot page u fs, entering s id 0x26 h l = true → (l.state = .parkedT2 ∨ (l.state = .parkedT3 ∧ (s.bay l.bay).mode ≠ .detaching)) →
    (let p := takePin (entered s id h) h id
     let img := ((loadedSlot p slot).map (·.image)).getD []
     reviveCheck p { meets s id l with pins := if l.pins.contains id then l.pins else l.pins ++ [id] } = .inr (hd, w, slot) ∧
     arenaFit p (homeStack p) (locketArena p l.tenant img) = some page ∧ takeFrames p (homeStack p) hd.pages (.inUse h) = (u, some fs)) → hd.kv = true →
    (u.lockets.get? h).isSome → ∃ t q d, exec (.revive id) s = .next t ∧ t.lockets.get? h = some q ∧ q.state = .promoting ∧ d ∈ allDescs t ∧ d.op = 3 ∧
      d.purpose = .promote h ∧ d.extent = l.extent ∧ t.hif.done = s.hif.done) ∧
  (∀ s h l, s.lan.refclk = true → s.lockets.get? h = some l → serving s = true → s.integ.mode ≠ .quarantined → clockRuns l = true → l.demoteBlocked = false →
    (tierTtl l).2 ≠ 0xFFFFFFFF → l.lastTouch + (tierTtl l).2 * 100000000 ≤ s.now →
    ∃ t q, exec (.ttlExpiry h) s = .next t ∧ t.lockets.get? h = some q ∧
      (if nextTiers s l (tierTtl l).1 = [] then q.state = .expired else (q.state = .demoting ∧ q.demoteBlocked = false) ∨ (q.demoteBlocked = true ∧ q.retryAt = s.now + 100000000))) ∧
  (∀ s h l, s.lan.refclk = true → s.lockets.get? h = some l → serving s = true → s.integ.mode ≠ .quarantined → clockRuns l = true → l.demoteBlocked = true →
    (tierTtl l).2 ≠ 0xFFFFFFFF → l.lastTouch + (tierTtl l).2 * 100000000 ≤ s.now → l.retryAt ≤ s.now →
    ∃ t q, exec (.demoteRetry h) s = .next t ∧ t.lockets.get? h = some q ∧
      (if nextTiers s l (tierTtl l).1 = [] then q.state = .expired else (q.state = .demoting ∧ q.demoteBlocked = false) ∨ (q.demoteBlocked = true ∧ q.retryAt = s.now + 100000000))) ∧
  (∀ s h l m e r, s.lan.refclk = true → s.lockets.get? h = some l → l.state = .demoting → l.move = some m → doneFor s (.demote h) = some r → l.pins = [] → l.packets.all (·.written) = true →
    s.extents.get? m.extent = some e → e.sealed = true → l.extent ≠ m.extent → ∃ t q, exec (.demotionCommit h) s = .next t ∧ t.lockets.get? h = some q ∧
      q.state = (if l.dst = 2 then .parkedT2 else .parkedT3) ∧ q.extent = m.extent ∧ q.units = e.units ∧ q.lastTouch = s.now ∧ q.encrypted = m.keySlot.isSome ∧
      (∀ id c, m.cmd = some id → findCmd s id = some c → completed s id = false → hasEnded t id stOk)) ∧
  (∀ s h l m v st, s.lockets.get? h = some l → l.state = .promoting → l.move = some m → consume s (.promote h) = some (v, st) → st ≠ 0 →
    ∃ t q, exec (.promotionCommit h) s = .next t ∧ t.lockets.get? h = some q ∧ q.state = (if m.src = 2 then .parkedT2 else .parkedT3) ∧ q.extent = l.extent ∧
      (∀ id c, m.cmd = some id → findCmd s id = some c → completed s id = false → hasEnded t id stTarnished)) ∧
  (∀ s h l m v hd plain, s.lockets.get? h = some l → l.state = .promoting → l.move = some m → consume s (.promote h) = some (v, 0) →
    sourcePlain v l = some (hd, plain, []) → bodyDigest [] plain = hd.digest → hd.kv = true →
    ∃ t q, exec (.promotionCommit h) s = .next t ∧ t.lockets.get? h = some q ∧ q.state = .opened ∧ q.home = m.home ∧ q.page = m.page ∧ q.extent = 0 ∧
      q.lastTouch = s.now ∧ (∀ id c, m.cmd = some id → findCmd s id = some c → completed s id = false → hasEnded t id stOk))

/-- 08 R313 to R319, Tables 8-11, 8-13; 13 R495: charms are created, named, dropped and freed, and their replicas promoted and evicted. -/
def Obligations.CharmsAndReplicasKept : Prop :=
  (∀ s id h l ci m, admitted s id 0x27 = true → (cmdOf s id).handle ≠ 0 → charmNamed s (cmdOf s id).tenant (cmdOf s id).handle = none → (cmdOf s id).fld 28 1 = 0 →
    findSession s (cmdOf s id).tenant ((cmdOf s id).fld 16 8) = some (h, l) → s.lockets.get? h = some l → l.unusable = false → l.replay = false → opening l = false →
    l.closing = none → l.state = .opened → l.stm.generating = false → l.pins = [] → l.dropped = false → l.recomputing = false → (cmdOf s id).fld 24 4 ≠ 0 →
    l.base = (cmdOf s id).fld 24 4 →
    s.charms.find? (fun e => e.2.tenant == (cmdOf s id).tenant && e.2.digest == charmDigestOf l.parureHash l.facetHash (l.thread.take ((cmdOf s id).fld 24 4))) = some (ci, m) →
    s.charms.get? ci = some m → m.names.length < 16 →
    ∃ t, exec (.charmCreate id) s = .next t ∧ t.charms.get? ci = some { m with names := m.names ++ [(cmdOf s id).handle] } ∧ answers s t (cmdOf s id) stOk ci 1) ∧
  (∀ s id h l u, admitted s id 0x27 = true → (cmdOf s id).handle ≠ 0 → charmNamed s (cmdOf s id).tenant (cmdOf s id).handle = none →
    ((cmdOf s id).fld 28 1 = 0 ∨ (((cmdOf s id).fld 28 1 = 2 ∨ (cmdOf s id).fld 28 1 = 3) ∧ tierOpen s ((cmdOf s id).fld 28 1) = true)) →
    findSession s (cmdOf s id).tenant ((cmdOf s id).fld 16 8) = some (h, l) → s.lockets.get? h = some l → l.unusable = false → l.replay = false → opening l = false →
    l.closing = none → l.state = .opened → l.stm.generating = false → l.pins = [] → l.dropped = false → l.recomputing = false → (cmdOf s id).fld 24 4 ≠ 0 →
    l.base = (cmdOf s id).fld 24 4 →
    s.charms.find? (fun e => e.2.tenant == (cmdOf s id).tenant && e.2.digest == charmDigestOf l.parureHash l.facetHash (l.thread.take ((cmdOf s id).fld 24 4))) = none →
    buildCharm (takePin ((begun s id).locketM h fun l => { l with lastTouch := max l.lastTouch (cmdOf s id).accept, dirtyControl := true }) h id) (cmdOf s id)
      { l with lastTouch := max l.lastTouch (cmdOf s id).accept, dirtyControl := true, pins := [id] }
      (charmDigestOf l.parureHash l.facetHash (l.thread.take ((cmdOf s id).fld 24 4))) = some u →
    exec (.charmCreate id) s = .next u) ∧
  (∀ s c l dg u, buildCharm s c l dg = some u → ∃ ci m, u.charms.get? ci = some m ∧ m.names = [c.handle] ∧ m.tenant = c.tenant ∧ m.digest = dg ∧
    m.symbols = l.thread.take (c.fld 24 4) ∧ m.cmd = some c.id ∧ m.anchor = l.home ∧ m.parureHash = l.parureHash ∧ m.facetHash = l.facetHash) ∧
  (∀ s id ci m, admitted s id 0x28 = true → charmNamed s (cmdOf s id).tenant (cmdOf s id).handle = some (ci, m) → s.charms.get? ci = some m →
    ∃ t, exec (.charmDrop id) s = .next t ∧ answers s t (cmdOf s id) stOk 0 0 ∧
      (let left := { m with names := m.names.filter (· != (cmdOf s id).handle) }
       if left.names = [] ∧ charmRefs s m = 0 ∧ m.cmd = none then t.charms.get? ci = none else t.charms.get? ci = some left)) ∧
  (∀ s ci k m v, k < 8 → s.charms.get? ci = some m → m.names ≠ [] → consume s (.replica ci k) = some (v, 0) → replicaState m k = .promoting →
    ∃ t q, exec (.replicaPromoteDone ci k) s = .next t ∧ t.charms.get? ci = some q ∧ replicaState q k = .present) ∧
  (∀ s ci k m v st, k < 8 → s.charms.get? ci = some m → consume s (.replica ci k) = some (v, st) → st ≠ 0 → st ≠ 4 → m.cmd = none → replicaState m k = .promoting →
    ∃ t q, exec (.replicaPromoteDone ci k) s = .next t ∧ t.charms.get? ci = some q ∧ replicaState q k = .absent) ∧
  (∀ s ci k m, s.lan.refclk = true → k < 8 → s.charms.get? ci = some m → replicaState m k = .present → (m.replicas.getD k {}).pins = [] → m.t1Ttl ≠ 0xFFFFFFFF →
    (m.replicas.getD k {}).idleSince + m.t1Ttl * 100000000 ≤ s.now → (m.master ≠ 0 ∨ k ≠ m.anchor) →
    ∃ t q, exec (.replicaEvictStart ci k) s = .next t ∧ t.charms.get? ci = some q ∧ replicaState q k = .evicting ∧ (q.replicas.getD k {}).evictSince = s.now ∧
      confined [.ast, .charms] s t) ∧
  (∀ s ci k m, s.lan.refclk = true → k < 8 → s.charms.get? ci = some m → replicaState m k = .evicting → (m.replicas.getD k {}).pins = [] →
    ∃ t q, exec (.replicaEvictCommit ci k) s = .next t ∧ t.charms.get? ci = some q ∧ replicaState q k = .absent ∧ (q.replicas.getD k {}).frames = [] ∧
      confined [.ast, .charms] s t) ∧
  (∀ s ci m, s.lan.refclk = true → s.charms.get? ci = some m → serving s = true → charmRefs s m = 0 → m.cmd = none → m.ttl ≠ 0xFFFFFFFF → m.zeroSince + m.ttl * 100000000 ≤ s.now →
    ∃ t, exec (.charmTtlExpiry ci) s = .next t ∧ t.charms.get? ci = none)

/-- 10 R380 to R392, R414, Tables 10-5, 10-6: tables are loaded and switched, contexts defined, joined and left, and accounts read. -/
def Obligations.TablesAndContextsTaken : Prop :=
  (∀ s id img st n, admitted s id 0x38 = true → tableCheck (begun s id) (cmdOf s id) (padTo 8192 img) = some (st, n) →
    ∃ t, exec (.ephemerisLoad id img) s = .next t ∧ answers s t (cmdOf s id) st 0 n ∧ t.eph = s.eph) ∧
  (∀ s id img, admitted s id 0x38 = true → tableCheck (begun s id) (cmdOf s id) (padTo 8192 img) = none →
    ∃ t, exec (.ephemerisLoad id img) s = .next t ∧ answers s t (cmdOf s id) stOk 0 0 ∧ t.eph.shadow = some (readTable (padTo 8192 img)) ∧
      t.eph.active = s.eph.active ∧ t.eph.spillArea = max s.eph.spillArea (areaBytes (capWith s (readTable (padTo 8192 img)))) ∧ confined [.eph, .hif, .std] s t) ∧
  (∀ s id, admitted s id 0x39 = true → s.eph.switch = none → s.eph.shadow.isSome →
    (s.eph.active = none ∨ (cmdOf s id).fld 16 8 = 0 ∨ s.eph.frame < (cmdOf s id).fld 16 8) →
    ∃ t, exec (.ephemerisSwitch id) s = .next t ∧ t.eph.switch = some { atFrame := (cmdOf s id).fld 16 8, accepted := (cmdOf s id).accept, cmd := some id } ∧
      t.hif.done = s.hif.done ∧ confined [.eph, .hif, .std] s t) ∧
  (∀ s id, admitted s id 0x39 = true → s.eph.switch.isSome → s.eph.shadow.isSome →
    (s.eph.active = none ∨ (cmdOf s id).fld 16 8 = 0 ∨ s.eph.frame < (cmdOf s id).fld 16 8) → ∃ t, exec (.ephemerisSwitch id) s = .next t ∧ answers s t (cmdOf s id) stBusy 0 0 ∧ t.eph = s.eph) ∧
  (∀ s id k p a, admitted s id 0x30 = true → (cmdOf s id).flag 4 = false → (cmdOf s id).fld 16 1 < 8 → parureHandle s (cmdOf s id).handle = some (k, p) → p.state = .loaded →
    imgDraft p.header = false → s.eph.ctxs.has ((cmdOf s id).fld 16 1) = false → (s.eph.ctxs.filter (fun e => e.2.slot == k)).length < p.contexts → freeSpill s k p = some a →
    (let u := (begun s id).ephM fun e => { e with ctxs := e.ctxs.set ((cmdOf s id).fld 16 1) { slot := k, spillBase := a } }
     let tables := s.eph.active.toList ++ (if s.eph.switch.isSome then s.eph.shadow.toList else [])
     ∃ t, exec (.batchDefine id) s = .next t ∧
      if tables.all (fun x => (coverFail u x).isNone) then answers s t (cmdOf s id) stOk 0 0 ∧ t.eph.ctxs.get? ((cmdOf s id).fld 16 1) = some { slot := k, spillBase := a }
      else answers s t (cmdOf s id) stNoTime 0 0 ∧ t.eph = s.eph)) ∧
  (∀ s id x, admitted s id 0x30 = true → (cmdOf s id).flag 4 = true → s.eph.ctxs.get? ((cmdOf s id).fld 16 1) = some x → x.state = .idle → x.suspended = none →
    x.members = [] → x.joins = [] → ∃ t, exec (.batchRelease id) s = .next t ∧ answers s t (cmdOf s id) stOk 0 0 ∧ t.eph.ctxs = s.eph.ctxs.erase ((cmdOf s id).fld 16 1)) ∧
  (∀ s id h l x, entering s id 0x31 h l = true → s.eph.ctxs.get? ((cmdOf s id).fld 16 1) = some x → l.state = .opened → joinPending s h = false → l.slot = x.slot →
    ∃ t q, exec (.batchJoin id) s = .next t ∧ t.lockets.get? h = some q ∧ id ∈ q.pins ∧ t.hif.done = s.hif.done ∧
      t.eph.ctxs.get? ((cmdOf s id).fld 16 1) = some { x with joins := x.joins ++ [{ id := h, cmd := id, since := (cmdOf s id).accept }] }) ∧
  (∀ s id h l x, entering s id 0x32 h l = true → s.eph.ctxs.get? ((cmdOf s id).fld 16 1) = some x → (∃ j ∈ x.joins, j.id = h) →
    (∀ y ∈ s.eph.ctxs.vals, ∀ j ∈ y.joins, j.id = h → j.cmd ≠ id) → ∃ t, exec (.batchLeave id) s = .next t ∧ hasEnded t id stOk ∧
      (l.recomputing = false → t.eph.ctxs = s.eph.ctxs.map (fun y => (y.1, { y.2 with joins := y.2.joins.filter (fun j => j.id != h) })))) ∧
  (∀ s id h l x, entering s id 0x32 h l = true → s.eph.ctxs.get? ((cmdOf s id).fld 16 1) = some x → (∀ j ∈ x.joins, j.id ≠ h) → l.state = .bound →
    l.context = (cmdOf s id).fld 16 1 → ∃ t q, exec (.batchLeave id) s = .next t ∧ t.lockets.get? h = some q ∧ q.pins = l.pins ∧ q.state = .bound ∧ t.hif.done = s.hif.done ∧
      t.eph.ctxs.get? ((cmdOf s id).fld 16 1) = some { x with leaves := x.leaves ++ [{ id := h, cmd := id }] }) ∧
  (∀ s id, admitted s id 0x61 = true → (cmdOf s id).fld 18 2 ≠ 0 → (cmdOf s id).fld 16 2 + (cmdOf s id).fld 18 2 ≤ 1024 → addrOk ((cmdOf s id).fld 24 8) = true →
    ((cmdOf s id).tenant = 0 ∨ ((cmdOf s id).fld 16 2 = (cmdOf s id).tenant ∧ (cmdOf s id).fld 18 2 = 1 ∧ (cmdOf s id).flag 4 = false)) →
    (let ts := (List.range ((cmdOf s id).fld 18 2)).map (· + (cmdOf s id).fld 16 2)
     ∃ t d, exec (.accountRead id) s = .next t ∧ d ∈ allDescs t ∧ d.op = 7 ∧ d.purpose = .put id ∧
      t.cur.puts = s.cur.puts ++ [{ cmd := id, addr := (cmdOf s id).fld 24 8, data := (ts.map (accountBytes s)).flatten, status := stOk, r0 := (cmdOf s id).fld 18 2, r1 := 0 }] ∧
      t.eph.accounts = (if (cmdOf s id).flag 4 then ts.foldl (fun a t => a.set t { since := s.now }) s.eph.accounts else s.eph.accounts) ∧ t.hif.done = s.hif.done))

/-- 10 R377 to R411, Tables 10-7, 10-8: frames begin, slots open, lead points pass, the shadow table is switched in, and jobs become ready, take the Orrery,
end and return their charges. -/
def Obligations.FramesSlotsAndJobsRun : Prop :=
  (∀ s newest, s.eph.enable = true → serving s = true → s.lan.stopped = false → s.lan.refclk = true → frameOver s = true → due s s.eph.nextMeridian = true →
    (let m := s.eph.nextMeridian
     let n := (s.eph.active.map (·.frameTicks)).getD 0
     ∃ t, exec (.meridian newest) s = .next t ∧ t.eph.frame = (frameNumber s m n).1 % 2 ^ 64 ∧ (s.eph.alignEn = false → t.eph.frame = (s.eph.frame + 1) % 2 ^ 64) ∧
      t.eph.meridian = m ∧ t.eph.slotDue = true ∧ t.eph.running = true ∧ (follows s = false → t.eph.nextMeridian = m + n))) ∧
  (∀ s newest w x, s.eph.switch = some w → s.eph.shadow = some x → s.eph.enable = true → serving s = true → switchDue s = true → s.eph.active.isSome →
    coverFail s x = none → ∃ t, exec (.switchAttempt newest) s = .next t ∧ t.eph.active = some x ∧ t.eph.shadow = none ∧ t.eph.switch = none ∧ t.eph.frame = s.eph.frame ∧
      ∀ id c, w.cmd = some id → findCmd s id = some c → completed s id = false → answers s t c stOk 0 0) ∧
  (∀ s newest w x n, s.eph.switch = some w → s.eph.shadow = some x → s.eph.enable = true → serving s = true → switchDue s = true → coverFail s x = some n →
    ∃ t, exec (.switchAttempt newest) s = .next t ∧ t.eph.active = s.eph.active ∧ t.eph.switch = none ∧ t.eph.shadow = some x ∧ bitAt t.eph.event 3 = true ∧
      ∀ id c, w.cmd = some id → findCmd s id = some c → completed s id = false → answers s t c stNoTime 0 n) ∧
  (∀ s k a, ephOk s = true → slotStarting s = some (k, a) → ∃ t, exec .slotStart s = .next t ∧
    (s.eph.holder ≠ .none → t.eph.slot = k ∧ t.eph.slotStart = a ∧ t.eph.slotDue = false ∧ t.eph.leadPassed = false ∧ t.eph.begun = false ∧ t.eph.urgentCount = 0 ∧
      t.eph.urgentUsed = 0 ∧ t.eph.candidate = none ∧ t.eph.holder = s.eph.holder)) ∧
  (∀ s x e, s.eph.active = some x → slotNow s = some e → ephOk s = true → s.eph.leadPassed = false → due s (slotEnd s - leadOf x) = true →
    ∃ t, exec .leadPoint s = .next t ∧ t.eph.leadPassed = true ∧ (holderUnsealed s = true → t.ory.preempt = true)) ∧
  (∀ s cls target k j, jobClass cls = some k → serving s = true → orreryLost s = false → readyJob s k target = some j →
    (∀ v, serverOf s j.cls = some v → (serverAt s v).urgent = false) → ∃ t, exec (.jobReady cls target) s = .next t ∧
      t.eph.jobs = s.eph.jobs ++ [{ j with id := s.eph.nextJob }] ∧ t.eph.nextJob = s.eph.nextJob + 1) ∧
  (∀ s j, s.eph.holder = .none → s.ory.prog = none → s.ory.mode = .idle → issueOk s = true → s.integ.mode = .normal → s.eph.active = none → overrunNext s = none →
    strayJob s = some j → ∃ t p, exec .jobDispatch s = .next t ∧ t.eph.holder = .job j.id ∧ t.ory.prog = some p ∧
      (∀ u, j.suspended = some u → p = u.prog ∧ t.ory.mode = .restore) ∧ (j.suspended = none → p.slot = j.slot ∧ t.ory.mode = .run)) ∧
  (∀ s c x u, s.eph.holder = .none → s.ory.prog = none → s.ory.mode = .idle → issueOk s = true → s.integ.mode = .normal → s.eph.active = none →
    overrunNext s = some c → s.eph.ctxs.get? c = some x → x.suspended = some u → ∃ t y, exec .jobDispatch s = .next t ∧ t.eph.holder = .step c ∧ t.ory.prog = some u.prog ∧
      t.ory.mode = .restore ∧ t.eph.ctxs.get? c = some y ∧ y.state = .stepping) ∧
  (∀ s id j p l, s.eph.holder = .job id → findJob s id = some j → s.ory.prog = some p → j.cls = .recompute → progDone p = true → j.suspended = none → j.urgent = false →
    powered { s with eph := { s.eph with running := false } } = true → s.lockets.get? j.target = some l → ∃ t q, exec .jobEnd s = .next t ∧ t.eph.holder = .none ∧
      t.ory.prog = none ∧ t.eph.jobs = s.eph.jobs.filter (fun i => i.id != j.id) ∧ t.lockets.get? j.target = some q ∧ q.passDone = true) ∧
  (∀ s id x t0 j, s.eph.holder = .job id → s.eph.active = some x → s.eph.chargeFrom = some t0 → findJob s id = some j → j.urgent = true → s.ory.preempt = false →
    due s (t0 + (j.wJob - leadOf x)) = true → ∃ t, exec .urgentAllowance s = .next t ∧ t.ory.preempt = true ∧ t.eph.preempts = wrapInc 32 s.eph.preempts) ∧
  (∀ s, s.eph.charges.any (fun c => due s c.due) = true →
    exec .budgetReturn s = .next (s.ephM fun e => { e with charges := e.charges.filter (fun c => !due s c.due) }))

/-- 12 R441 to R458, Tables 12-1 to 12-6: collections are created, destroyed, filled, emptied and merged. -/
def Obligations.CollectionsAndItemsKept : Prop :=
  (∀ s id ci fs u, admitted s id 0x44 = true → (cmdOf s id).flag 4 = false → (cmdOf s id).handle ≠ 0 → findColl s (cmdOf s id).tenant (cmdOf s id).handle = none →
    paramsOk (createParams (cmdOf s id)) = true → s.colls.freshFrom 256 0 = some ci →
    takeSpread (begun s id) (collPages (createParams (cmdOf s id))) (.collection ci) = (u, some fs) →
    ∃ t, exec (.collectionCreate id) s = .next t ∧ answers s t (cmdOf s id) stOk (collPages (createParams (cmdOf s id))) 0 ∧
      t.colls = s.colls.set ci { createParams (cmdOf s id) with frames := fs }) ∧
  (∀ s id, admitted s id 0x44 = true → (cmdOf s id).flag 4 = false →
    ((cmdOf s id).handle = 0 ∨ (findColl s (cmdOf s id).tenant (cmdOf s id).handle).isSome ∨ paramsOk (createParams (cmdOf s id)) = false) →
    ∃ t, exec (.collectionCreate id) s = .next t ∧ answers s t (cmdOf s id) stInvalid 0 0 ∧ t.colls = s.colls) ∧
  (∀ s id ci k, admitted s id 0x44 = true → (cmdOf s id).flag 4 = true → zeroAt (cmdOf s id).desc 16 48 = true →
    findColl s (cmdOf s id).tenant (cmdOf s id).handle = some (ci, k) → k.gens.any (fun g => g.holders.any (holding (begun s id))) = false → k.merge.bind (·.cmd) = none →
    ∃ t, exec (.collectionDestroy id) s = .next t ∧ answers s t (cmdOf s id) stOk 0 0 ∧ t.colls.get? ci = none) ∧
  (∀ s id block poison ci k i, onColl s id 0x41 ci k → addrOk ((cmdOf s id).fld 16 8) = true → zeroAt (blankPoison poison block) 16 48 = true →
    k.items.freshFrom k.capacity 0 = some i → k.side.length - (curGen k).sideStart < k.sideMax →
    ∃ t q x, exec (.itemInsert id block poison) s = .next t ∧ answers s t (cmdOf s id) stOk i (k.lastCsn + 1) ∧ t.colls.get? ci = some q ∧ q.lastCsn = k.lastCsn + 1 ∧
      q.side = k.side ++ [i] ∧ q.items.get? i = some x ∧ x.insCsn = k.lastCsn + 1 ∧ x.delCsn = 0xFFFFFFFFFFFFFFFF ∧ x.key = fieldAt (blankPoison poison block) 0 8 ∧
      x.tags = fieldAt (blankPoison poison block) 8 8 ∧ x.sketch = querySketch k (blankPoison poison block)) ∧
  (∀ s id ci k x, onColl s id 0x42 ci k → k.items.get? ((cmdOf s id).fld 16 4) = some x → x.delCsn = 0xFFFFFFFFFFFFFFFF →
    ∃ t q, exec (.itemDelete id) s = .next t ∧ answers s t (cmdOf s id) stOk ((cmdOf s id).fld 16 4) (k.lastCsn + 1) ∧ t.colls.get? ci = some q ∧ q.lastCsn = k.lastCsn + 1 ∧
      q.items.get? ((cmdOf s id).fld 16 4) = some { x with delCsn := k.lastCsn + 1 } ∧ q.side = k.side ∧ q.gens = k.gens) ∧
  (∀ s id ci k, onColl s id 0x43 ci k → k.merge = none → mergeIdle k = false →
    ∃ t, exec (.collectionMerge id) s = .next t ∧ t.hif.done = s.hif.done ∧ t.colls.get? ci = some { k with merge := some { cmd := some id, since := s.now } }) ∧
  (∀ s id ci k, onColl s id 0x43 ci k → k.merge = none → mergeIdle k = true →
    ∃ t, exec (.collectionMerge id) s = .next t ∧ answers s t (cmdOf s id) stOk (curGen k).number 0 ∧ t.colls.get? ci = some k) ∧
  (∀ s ci k k1 m, s.colls.get? ci = some k → k.merge = some m → k.state = .ready → m.horizon = none → olderHeld s k = false → serving s = true → mergeIdle k = false →
    (reapColl s ci).colls.get? ci = some k1 → ∃ t n, exec (.mergeStart ci) s = .next t ∧
      t.colls.get? ci = some { k1 with state := .merging, merge := some { m with horizon := some k.lastCsn, upTo := k.side.length, stepsLeft := n } }) ∧
  (∀ s ci k m h, s.colls.get? ci = some k → k.merge = some m → m.horizon = some h → m.stepsLeft = 0 → serving s = true →
    ∃ t q, exec (.mergePublish ci) s = .next t ∧ t.colls.get? ci = some q ∧ q.state = .ready ∧ curGen q = buildGen k h m.upTo ∧ (curGen q).number = (curGen k).number + 1 ∧
      q.side = k.side ∧ q.lastCsn = k.lastCsn)

/-- 12 R459 to R475, Tables 12-7 to 12-9: a SEARCH is accepted, its walks take and leave Sieve units, and a SELECT fetches its rows. -/
def Obligations.SearchesAndSelectsRun : Prop :=
  (∀ s id query ci k, onColl s id 0x40 ci k → searchOk (begun s id) (cmdOf s id) = true →
    zeroAt (padTo (64 + ceilDiv (sketchBytes k) 64 * 64 + vecBytes k) query) 16 48 = true →
    ∃ t q, exec (.search id query []) s = .next t ∧ t.hif.done = s.hif.done ∧ t.searches = s.searches ++ [q] ∧ q.cmd = id ∧ q.coll = ci ∧ q.tenant = (cmdOf s id).tenant ∧
      q.k = (cmdOf s id).fld 16 2 ∧ q.ef = (cmdOf s id).fld 18 2 ∧ q.horizon = k.lastCsn ∧ q.gen = (curGen k).number ∧ q.tail = k.side.length ∧
      q.queued = List.range ((cmdOf s id).fld 22 1) ∧ t.colls.get? ci = some { k with gens := (k.gens.take 1).map (fun g => { g with holders := g.holders ++ [id] }) ++ k.gens.drop 1 }) ∧
  (∀ s id query p ps ci k, onColl s id 0x40 ci k → searchOk (begun s id) (cmdOf s id) = true →
    ∃ t, exec (.search id query (p :: ps)) s = .next t ∧ answers s t (cmdOf s id) stTarnished 0 0 ∧ t.searches = s.searches) ∧
  (∀ s unit q p, unit < 8 → nextWalk s = some (q, p) → (s.sieves.getD unit {}).enable = true → (s.sieves.getD unit {}).use_ = none → serving s = true →
    s.sieves.length = 8 → ∃ t, exec (.walkStart unit) s = .next t ∧ (t.sieves.getD unit {}).use_ = some (.walk q.cmd p s.now) ∧ (t.sieves.getD unit {}).mode = 1 ∧
      t.searches = s.searches.map (fun r => if r.cmd == q.cmd then { r with queued := r.queued.drop 1, unit0 := if p = 0 then unit else r.unit0 } else r) ∧
      confined [.sieves, .searches] s t) ∧
  (∀ s unit id p a q k, unit < 8 → (s.sieves.getD unit {}).use_ = some (.walk id p a) → s.searches.find? (fun q => q.cmd == id) = some q →
    s.colls.get? q.coll = some k → k.metric ≠ 0 → (searchWalk s k q p).broken = false → (searchWalk s k q p).tarnItem = none → s.sieves.length = 8 → s.lan.refclk = true →
    (let w := searchWalk s k q p
     let r : WalkResult := { survivors := (w.res.take q.rerank).map (·.2), visits := w.visits, budget := w.visits = q.visitMax }
     ∃ t, exec (.walkDone unit) s = .next t ∧ (t.sieves.getD unit {}).use_ = none ∧ t.searches = s.searches.map (fun x => if x.cmd == id then
        { q with results := q.results.set p r, walkedAt := if q.results.length + 1 = q.spread then some s.now else none } else x) ∧ t.hif.done = s.hif.done)) ∧
  (∀ s unit id p a q k i, unit < 8 → (s.sieves.getD unit {}).use_ = some (.walk id p a) → s.searches.find? (fun q => q.cmd == id) = some q →
    s.colls.get? q.coll = some k → (searchWalk s k q p).broken = false → (searchWalk s k q p).tarnItem = some i → (findCmd s id).isSome → completed s id = false → s.lan.refclk = true →
    ∃ t, exec (.walkDone unit) s = .next t ∧ answers s t (cmdOf s id) stTarnished 0 i ∧ t.searches = s.searches.filter (fun q => q.cmd != id)) ∧
  (∀ s id fs u, admitted s id 0x48 = true →
    (let rows := (cmdOf s id).fld 28 2
     let n := (cmdOf s id).fld 24 4
     let k := (cmdOf s id).fld 30 2
     let fmt := (cmdOf s id).fld 32 1
     1 ≤ rows → rows ≤ 4096 → 1 ≤ n → n ≤ 2 ^ 24 → 1 ≤ k → k ≤ 1024 → (fmt = 8 ∨ fmt = 9) → addrOk ((cmdOf s id).fld 40 8) = true → rows * n ≤ 2 ^ 26 →
     takeAny (begun s id) (ceilDiv (rows * n * selectEb fmt) 65536) (.staging id) = (u, some fs) →
     ∃ t d q, exec (.select id) s = .next t ∧ d ∈ allDescs t ∧ d.op = 6 ∧ d.src = (cmdOf s id).fld 16 8 ∧ d.purpose = .select id ∧ d.units = max 1 (ceilDiv (rows * n * selectEb fmt) 4096) ∧
      t.selects = s.selects ++ [q] ∧ q.cmd = id ∧ q.rows = rows ∧ q.n = n ∧ q.k = k ∧ q.fmt = fmt ∧ q.frames = fs ∧ t.hif.done = s.hif.done)) ∧
  (∀ s id, admitted s id 0x48 = true → ((cmdOf s id).fld 28 2 = 0 ∨ 4096 < (cmdOf s id).fld 28 2 ∨ (cmdOf s id).fld 24 4 = 0 ∨ 2 ^ 24 < (cmdOf s id).fld 24 4 ∨
      (cmdOf s id).fld 30 2 = 0 ∨ 1024 < (cmdOf s id).fld 30 2 ∨ ((cmdOf s id).fld 32 1 ≠ 8 ∧ (cmdOf s id).fld 32 1 ≠ 9)) →
    ∃ t, exec (.select id) s = .next t ∧ answers s t (cmdOf s id) stInvalid 0 0 ∧ t.selects = s.selects) ∧
  (∀ s id data poison q u, s.selects.find? (fun q => q.cmd == id) = some q → consume s (.select id) = some (u, 0) →
    ∃ t, exec (.selectFetchDone id data poison) s = .next t ∧ t.selects = s.selects.map (fun x => if x.cmd == id then
      { x with data := padTo (q.rows * (q.n * selectEb q.fmt)) data, fetchedAt := some s.now
               tarnRows := (List.range q.rows).filter (fun r => poison.any (fun b => 16 * b < (r + 1) * (q.n * selectEb q.fmt) && r * (q.n * selectEb q.fmt) < 16 * b + 16)) } else x) ∧
      t.hif = s.hif) ∧
  (∀ s id data poison q u st, s.selects.find? (fun q => q.cmd == id) = some q → consume s (.select id) = some (u, st) → st ≠ 0 → st ≠ 4 →
    (findCmd s id).isSome → completed s id = false → ∃ t, exec (.selectFetchDone id data poison) s = .next t ∧ answers s t (cmdOf s id) stFenced 0 0)

/-- 15 R585; 11 R435 to R437: QUERY puts its record of 256 bytes or answers why not, and the queues are sampled once at each multiple of 1,000 ticks. -/
def Obligations.QueriesAndSamplesTaken : Prop :=
  (∀ s id b, admitted s id 0x60 = true → addrOk ((cmdOf s id).fld 24 8) = true → queryRecord (begun s id) (cmdOf s id) = (0, b) →
    ∃ t d, exec (.query id) s = .next t ∧ d ∈ allDescs t ∧ d.op = 7 ∧ d.purpose = .put id ∧ t.hif.done = s.hif.done ∧
      t.cur.puts = s.cur.puts ++ [{ cmd := id, addr := (cmdOf s id).fld 24 8, data := padTo 256 b, status := stOk, r0 := 256, r1 := 0 }] ∧
      confined [.cur, .extents, .hif, .std] s t) ∧
  (∀ s id st b, admitted s id 0x60 = true → addrOk ((cmdOf s id).fld 24 8) = true → queryRecord (begun s id) (cmdOf s id) = (st + 1, b) →
    ∃ t, exec (.query id) s = .next t ∧ answers s t (cmdOf s id) (st + 1) 0 0 ∧ confined [.hif, .std] s t) ∧
  (∀ s id, admitted s id 0x60 = true → addrOk ((cmdOf s id).fld 24 8) = false →
    ∃ t, exec (.query id) s = .next t ∧ answers s t (cmdOf s id) stInvalid 0 0 ∧ confined [.hif, .std] s t) ∧
  (∀ s, serving s = true → s.now % 1000 = 0 → s.traffic.lastSample ≠ some s.now →
    ∃ t, exec .queueSample s = .next t ∧ t.traffic.samples = s.traffic.samples + 1 ∧ t.traffic.sent = [] ∧ t.traffic.lastSample = some s.now ∧
      confined [.traffic, .std, .hostMem] s t) ∧
  (∀ s, serving s = true → s.traffic.lastSample = some s.now → exec .queueSample s = .next s)

/-- 14 R519 to R557, Tables 14-8, 14-9; 09 R331: a cut drains, completes and is abandoned, in-stack copies end, and SNAPSHOT, MANIFEST_READ and RESTORE act. -/
def Obligations.CheckpointsActed : Prop :=
  (∀ s id, admitted s id 0x50 = true → cutsOn s = true →
    ∃ t, exec (.snapshot id) s = .next t ∧ t.ckpt.snapshots = s.ckpt.snapshots ++ [{ cmd := id, coffer := (cmdOf s id).flag 4 }] ∧ t.hif.done = s.hif.done) ∧
  (∀ s id, admitted s id 0x50 = true → cutsOn s = false → ∃ t, exec (.snapshot id) s = .next t ∧ answers s t (cmdOf s id) stInvalid 0 0 ∧ t.ckpt = s.ckpt) ∧
  (∀ s id x b m, admitted s id 0x52 = true → ((cmdOf s id).fld 16 1 < 4 ∨ (cmdOf s id).fld 16 1 = 0x10) → (cmdOf s id).fld 17 1 ≤ 1 → addrOk ((cmdOf s id).fld 24 8) = true →
    sourceView (begun s id) ((cmdOf s id).fld 16 1) [] = some x → pickBoot x (cmdOf s id).handle ((cmdOf s id).fld 18 3) = some b →
    slotManifest ((cmdOf s id).fld 16 1 < 4) x (cmdOf s id).handle b ((cmdOf s id).fld 17 1) = some m →
    ∃ t d, exec (.manifestRead id) s = .next t ∧ d ∈ allDescs t ∧ d.op = 7 ∧ d.purpose = .put id ∧ t.hif.done = s.hif.done ∧
      t.cur.puts = s.cur.puts ++ [{ cmd := id, addr := (cmdOf s id).fld 24 8, data := bytesAt m.data 0 4096, status := stOk, r0 := manCut m % 2 ^ 32
                                    r1 := boolNat (manifestValid (begun s id) (storeExts x (cmdOf s id).handle b) m.data) }]) ∧
  (∀ s id x, admitted s id 0x52 = true → ((cmdOf s id).fld 16 1 < 4 ∨ (cmdOf s id).fld 16 1 = 0x10) → (cmdOf s id).fld 17 1 ≤ 1 → addrOk ((cmdOf s id).fld 24 8) = true →
    sourceView (begun s id) ((cmdOf s id).fld 16 1) [] = some x → pickBoot x (cmdOf s id).handle ((cmdOf s id).fld 18 3) = none →
    ∃ t, exec (.manifestRead id) s = .next t ∧ answers s t (cmdOf s id) stUnknown 0 0) ∧
  (∀ s c cs, s.ckpt.cuts = c :: cs → serving s = true → c.phase = 0 → c.deferred = [] → copying s c.frame = false → s.std.buddy = some c.buddy →
    ∃ t d e, exec .drainStart s = .next t ∧ d ∈ allDescs t ∧ d.op = 5 ∧ d.peer = c.buddy ∧ d.purpose = .cut c.frame ∧ d.units = 1 ∧ findCut t c.frame = some e ∧ e.phase = 1 ∧
      d.extent = e.extentId) ∧
  (∀ s c cs, s.lan.refclk = true → s.ckpt.cuts = c :: cs → c.phase = 5 → ∃ t, exec (.cutComplete false) s = .next t ∧ t.ckpt.cuts = cs ∧ t.ckpt.lastCut = c.frame ∧
    t.ckpt.done = satInc s.ckpt.done (2 ^ 32 - 1) ∧ t.ckpt.last = c.newLast ∧
    ∀ p ∈ s.ckpt.snapshots, p.cut = some c.frame → p.coffer = false → (findCmd s p.cmd).isSome → completed s p.cmd = false → hasEnded t p.cmd stOk) ∧
  (∀ s, s.lan.refclk = true → ∃ t, exec (.cutComplete true) s = .next t ∧ t.ckpt.cuts = s.ckpt.cuts ∧
    ∀ p ∈ s.ckpt.snapshots, p.cut = some s.ckpt.lastCut → (findCmd s p.cmd).isSome → completed s p.cmd = false → hasEnded t p.cmd stOk ∧ p ∉ t.ckpt.snapshots) ∧
  (∀ s c reason, s.lan.refclk = true → s.ckpt.cuts.find? (fun c => if reason = 0 then drainFailed s c else if reason = 1 then s.std.buddy != some c.buddy
      else reason == 2 && c.refused) = some c →
    ∃ t, exec (.cutAbandon reason) s = .next t ∧ t.ckpt.cuts = s.ckpt.cuts.filter (fun d => d.frame < c.frame) ∧ t.ckpt.lastCut = s.ckpt.lastCut ∧ t.hif = s.hif) ∧
  (∀ s stack q qs, s.lan.refclk = true → stack < 8 → s.hbc.length = 8 → (s.hbc.getD stack {}).copyQ = q :: qs → (s.hbc.getD stack {}).copyEn = true → (s.hbc.getD stack {}).mode = .ready →
    ∃ t, exec (.instackCopyDone stack) s = .next t ∧ (t.hbc.getD stack {}).copyQ = qs ∧ t.t1 = s.t1.copyFrom s.t1 (frameAddr s stack q.frame) (spareAddr stack q.slot) 65536 ∧
      confined [.ast, .lockets, .charms, .t1, .hbc, .integ, .ckpt] s t) ∧
  (∀ s id params select resume replay peer, admitted s id 0x51 = true → (restoreOperands (cmdOf s id) params = false ∨ (cmdOf s id).fld 24 2 ≠ s.std.epoch) →
    ∃ t, exec (.restore id params select resume replay peer) s = .next t ∧
      answers s t (cmdOf s id) (if restoreOperands (cmdOf s id) params then stStale else stInvalid) 0 0 ∧ t.lockets = s.lockets) ∧
  (∀ s id params select resume replay peer x, admitted s id 0x51 = true → restoreOperands (cmdOf s id) params = true → (cmdOf s id).fld 24 2 = s.std.epoch →
    sourceView (begun s id) (fieldAt params 3 1) (peerView peer) = some x → pickBoot x (cmdOf s id).handle (fieldAt params 0 3) = none →
    ∃ t, exec (.restore id params select resume replay peer) s = .next t ∧ answers s t (cmdOf s id) stUnknown 0 0 ∧ t.lockets = s.lockets) ∧
  (∀ s id params select resume replay peer x boot, admitted s id 0x51 = true → restoreOperands (cmdOf s id) params = true → (cmdOf s id).fld 24 2 = s.std.epoch →
    sourceView (begun s id) (fieldAt params 3 1) (peerView peer) = some x → pickBoot x (cmdOf s id).handle (fieldAt params 0 3) = some boot →
    bestManifest (begun s id) x (cmdOf s id).handle boot (fieldAt params 3 1) (fieldAt params 4 1) = none →
    ∃ t, exec (.restore id params select resume replay peer) s = .next t ∧ answers s t (cmdOf s id) stTarnished 0 0 ∧ t.lockets = s.lockets) ∧
  (∀ s id params select resume replay peer x boot m, admitted s id 0x51 = true → restoreOperands (cmdOf s id) params = true → (cmdOf s id).fld 24 2 = s.std.epoch →
    sourceView (begun s id) (fieldAt params 3 1) (peerView peer) = some x → pickBoot x (cmdOf s id).handle (fieldAt params 0 3) = some boot →
    bestManifest (begun s id) x (cmdOf s id).handle boot (fieldAt params 3 1) (fieldAt params 4 1) = some m →
    (let q := restoreReq params select resume replay (storeExts x (cmdOf s id).handle boot) m.2
     let es := restoreOrder q ((manifestIndex q.view q.man).getD [])
     (∀ hash, missingParure (begun s id) q es = some hash → ∃ t, exec (.restore id params select resume replay peer) s = .next t ∧
       answers s t (cmdOf s id) stUnknown 0 (((manifestParure q.man hash).map (·.1)).getD 0) ∧ t.lockets = s.lockets) ∧
     (missingParure (begun s id) q es = none → restoreExts q ≠ [] → ∃ t, exec (.restore id params select resume replay peer) s = .next t ∧ t.lockets = s.lockets ∧ t.hif.done = s.hif.done ∧
       t.ckpt.restores = s.ckpt.restores ++ [{ cmd := id, source := fieldAt params 3 1, report := fieldAt params 48 8, req := q }] ∧
       ∀ e ∈ restoreExts q, ∃ d ∈ allDescs t, d.purpose = .restore id ∧ d.extent = e.1 ∧ d.op = (if 0x40 ≤ fieldAt params 3 1 then 6 else 3)))) ∧
  (∀ s r c u rep n ok st, (st = 0 ∨ st = 4) → s.ckpt.restores.find? (fun x => x.cmd == r.cmd) = some r → findCmd s r.cmd = some c → sourceHere s r.source = true →
    (allDescs s).any (fun d => d.purpose == .restore r.cmd) = false → c.flag 4 = false → rep ≠ [] →
    (let q := r.req
     let es := restoreOrder q ((manifestIndex q.view q.man).getD [])
     restoreAll q (restoreCharms (dropRestore s r.cmd) q es) es = some (u, rep, n, ok) →
     ∃ d ∈ allDescs (endRestore s r.cmd st), d.op = 7 ∧ d.purpose = .put r.cmd ∧ (endRestore s r.cmd st).lockets = u.lockets ∧
      (endRestore s r.cmd st).cur.puts = u.cur.puts ++ [{ cmd := r.cmd, addr := r.report, data := rep, status := if ok then stOk else stPartial, r0 := n, r1 := fieldAt q.man 24 8 % 2 ^ 32 }]))

/-- 09 R344 to R350, 11 R418 to R421: a Courier channel sends a packet, a descriptor ends with its completion record or its effect, and a demotion is abandoned. -/
def Obligations.CourierActed : Prop :=
  (∀ s u f k d errors, (∀ e ∈ errors, e.1 < 256 ∧ e.2 < 2 ^ 144) → s.cur.enable = true → serving s = true → wfqSelect s 0 (((sendable s).map (·.2)).eraseDups) (courierSlot s) = (u, some f) →
    nextChannel s f (((sendable s).filter (fun e => e.2 == f)).map (·.1)) = some k → s.cur.channels.get? k = some d →
    ∃ t, exec (.courierPacketSelect errors) s = .next t ∧
      t.cur.channels.get? k = some { d with sent := d.sent + 1, tarnished := d.tarnished || (movePacket (countDesc (t2Errors u d errors) d) d).2 } ∧ t.cur.lastCh.get? f = some k ∧
      t.cur.units = (s.cur.units + 1) % 2 ^ 64 ∧ (∀ j, j ≠ k → t.cur.channels.get? j = s.cur.channels.get? j) ∧ t.cur.waiting = s.cur.waiting ∧
      (∀ id p, d.op = 7 → d.purpose = .put id → s.cur.puts.find? (fun q => q.cmd == id) = some p → viaHead s = false →
        t.hostMem = s.hostMem.writeN (p.addr + 4096 * d.sent) ((p.data.drop (4096 * d.sent)).take 4096)) ∧
      confined [.t1, .extents, .lpc, .cur, .bays, .eph, .traffic, .integ, .std, .lan, .hostMem] s t) ∧
  (∀ s cookie status k d, s.lan.refclk = true → channelOf s cookie = some (k, d) → mayEnd s d status = true →
    ((∃ id, d.purpose = .select id) ∨ (∃ h, d.purpose = .promote h) ∨ (∃ h, d.purpose = .facet h) ∨ (∃ x, d.purpose = .parure x)) →
    ∃ t, exec (.courierComplete cookie status) s = .next t ∧
      t.cur.done = s.cur.done ++ [{ cookie := cookie, purpose := d.purpose, status := status, unitsDone := d.sent, tick := s.now }] ∧
      doneRec s d status ∈ t.cur.records ∧ (∀ e ∈ allDescs t, e.cookie ≠ cookie) ∧ t.hif = s.hif) ∧
  (∀ s cookie k d id p c, s.lan.refclk = true → channelOf s cookie = some (k, d) → mayEnd s d 0 = true → d.op = 7 → d.purpose = .put id →
    s.cur.puts.find? (fun q => q.cmd == id) = some p → findCmd s id = some c → completed s id = false →
    ∃ t, exec (.courierComplete cookie 0) s = .next t ∧ answers s t c p.status p.r0 p.r1 ∧ t.hostMem = s.hostMem ∧
      t.cur.puts = s.cur.puts.filter (fun q => q.cmd != id)) ∧
  (∀ s cookie d h l m, s.lan.refclk = true → (∀ e ∈ allDescs s, e.purpose = .demote h → e.abandonable = true) → (allDescs s).find? (fun d => d.cookie == cookie) = some d → d.purpose = .demote h → d.abandonable = true →
    (d.tier ≠ 3 ∨ (s.bay d.bay).mode = .mounted) → s.lockets.get? h = some l → l.state = .demoting → l.move = some m →
    ∃ t, exec (.courierAbandon cookie) s = .next t ∧ t.lockets.get? h = some { l with state := if m.src = 1 then .opened else .parkedT2, dst := 0, move := none, bay := 0xFF, lastTouch := s.now, dirtyControl := true } ∧
      (∀ e ∈ allDescs t, e.purpose ≠ .demote h) ∧
      ∀ id c, m.cmd = some id → findCmd s id = some c → completed s id = false → answers s t c stCancelled 0 0)

/-- 03 R113 to R121, 13 R497 to R504, Tables 13-4, 13-5: self tests, the cell map, its epochs and substitutions, retests, stale messages and tile faults. -/
def Obligations.CellsAndMapActed : Prop :=
  (∀ s, fwRuns s = true → s.lpe.mode = .idle → exec .bistStart s = .next { s with lpe := { s.lpe with mode := .bist, bistSince := s.now } }) ∧
  (∀ s results, s.lan.refclk = true → results.length = 144 → s.lpe.mode = .bist →
    (let v : State := { s with cells := s.cells.zipIdx.map (fun e => testedCell s.lpe.retired e.2 (results.getD e.2 (false, false, false)) e.1) }
     ∃ t, exec (.bistDone results) s = .next t ∧ confined [.cells, .lpe] s t ∧
      if (List.range 8).all (fun c => 16 ≤ (usableCells v c).length) then
        t.lpe = { s.lpe with map := ((List.range 8).map (fun c => (usableCells v c).take 16)).flatten, epoch := 1, mode := .ready }
      else t.lpe = { s.lpe with mode := .exhausted } ∧ t.cells = v.cells)) ∧
  (∀ s pass, pass.length = 144 → s.lpe.patrolEn = true → s.lpe.mode = .ready → s.lan.power = .active → s.ory.enable = true → ∃ t, exec (.spareRetest pass) s = .next t ∧
    t.cells = s.cells.zipIdx.map (fun e => if e.1.state == .spare && !pass.getD e.2 true then { e.1 with state := .failed, gated := true } else e.1) ∧
    t.lpe = { s.lpe with lastPatrol := s.now } ∧ confined [.cells, .lpe] s t) ∧
  (∀ s cell epoch, s.lan.refclk = true → cell < 144 → (s.cell cell).state ≠ .retired → (s.cell cell).state ≠ .failed → epoch ≠ s.lpe.epoch →
    ∃ t, exec (.meshMessageReceive cell epoch) s = .next t ∧ t.integ.staleMap = wrapInc 32 s.integ.staleMap ∧ bitAt t.integ.event 5 = true ∧
      confined [.integ, .lan] s t) ∧
  (∀ s cell epoch, s.lan.refclk = true → cell < 144 → epoch = s.lpe.epoch → exec (.meshMessageReceive cell epoch) s = .next s) ∧
  (∀ s l p lost, s.lan.refclk = true → (∀ n ∈ lost, n < 32768) → s.integ.mode = .fence → s.integ.change = some (.substitute l) → lowestSpare s (l / 16) = some p → l < s.lpe.map.length →
    ∃ t, exec (.mapEpochCommit lost) s = .next t ∧ t.lpe.epoch = s.lpe.epoch + 1 ∧ t.lpe.map = s.lpe.map.set l p ∧ t.lpe.mode = .ready ∧
      t.ory.scratch = (copyLost s l lost).ory.scratch ∧ t.ory.scrTarn = (copyLost s l lost).ory.scrTarn ∧
      (if s.ory.failing = none then t.integ.mode = .normal else t.integ.mode = .replay ∧ t.integ.rep = .spare l ∧ t.integ.trial = some (physOf s l, p)) ∧
      t.integ.change = none ∧ t.hif = s.hif) ∧
  (∀ s l p lost, s.lan.refclk = true → (∀ n ∈ lost, n < 32768) → s.integ.mode = .fence → s.integ.change = some (.planned l) → lowestSpare s (l / 16) = some p →
    ∃ t, exec (.mapEpochCommit lost) s = .next t ∧ t.lpe.epoch = s.lpe.epoch + 1 ∧ t.lpe.map = s.lpe.map.set l p ∧ t.lpe.mode = .ready ∧ t.integ.mode = .normal ∧
      t.ory.scratch = (copyLost s l lost).ory.scratch ∧ t.ory.scrTarn = (copyLost s l lost).ory.scrTarn ∧
      bitAt t.lpe.retired (physOf s l) = true ∧ bitAt t.lan.retired (physOf s l) = true ∧ t.hif = s.hif) ∧
  (∀ s p l, s.lan.refclk = true → s.integ.planned = some p → s.eph.holder = .none → s.ory.prog = none → s.integ.mode = .normal → s.lpe.mode = .ready → logicalOf s p = some l →
    2 ≤ sparesIn s (l / 16) → ∃ t, exec .plannedSubstitution s = .next t ∧ t.integ.change = some (.planned l) ∧ t.integ.mode = .fence ∧ t.lpe.mode = .substituting ∧
      t.integ.planned = none ∧ confined [.integ, .lpe] s t) ∧
  (∀ s lane errs twins parity p img pr ps t0 cells row col twin, lane < 2 → (∀ e ∈ errs, e.cell < 128) → (∀ e ∈ twins, e.1 < 128) → (∀ c ∈ parity, c < 128) →
    running s = some (p, img, pr, ps) → oldestIn p lane = some t0 → failingCells s ps (tileIn p (s.parures.getD p.slot {}).hash img ps pr t0) errs twins parity = (cells, row, col, twin) →
    cells ≠ [] → s.ory.abftEn = true → s.lan.refclk = true → s.integ.mode ≠ .fence → s.integ.mode ≠ .deviceFault → s.ory.mode ≠ .fault → s.ory.failing = none ∨ s.ory.failing = some t0 →
    s.integ.rep = .clean →
    (let m := cells.foldl min 127
     ∃ t, exec (.tileFault t0.sweep lane errs twins parity) s = .next t ∧ t.integ.mode = .replay ∧ t.integ.rep = .retry m ∧ t.integ.attempt = 2 ∧ t.integ.cell = m ∧
      t.ory.mode = .replayWait ∧ t.ory.faultCell = m ∧ t.ory.failing = some t0 ∧
      t.ory.prog = some { p with discarded := p.inFlight.dropWhile (· != t0) ++ p.discarded, inFlight := p.inFlight.takeWhile (· != t0) } ∧
      t.integ.firstFault = s.now)) ∧
  (∀ s lane errs twins parity p img pr ps t0 cells row col twin l q, lane < 2 → (∀ e ∈ errs, e.cell < 128) → (∀ e ∈ twins, e.1 < 128) → (∀ c ∈ parity, c < 128) →
    running s = some (p, img, pr, ps) → oldestIn p lane = some t0 → failingCells s ps (tileIn p (s.parures.getD p.slot {}).hash img ps pr t0) errs twins parity = (cells, row, col, twin) →
    s.ory.abftEn = true → s.lan.refclk = true → s.integ.mode ≠ .fence → s.integ.mode ≠ .deviceFault → s.ory.mode ≠ .fault → s.ory.failing = none ∨ s.ory.failing = some t0 →
    s.integ.rep = .retry l → s.integ.attempt < 6 → l ∈ cells → lowestSpare s (l / 16) = some q →
    ∃ t, exec (.tileFault t0.sweep lane errs twins parity) s = .next t ∧ t.integ.mode = .fence ∧ t.integ.change = some (.substitute l) ∧
      t.lpe.mode = .substituting ∧ t.integ.attempt = s.integ.attempt + 1)

/-- 03 R86 to R105, R110, 04 R137, 05 R189 to R191: tiles are issued and committed, halves and gathers become resident, work is pre-empted, spilled and restored. -/
def Obligations.TilesAndSpillsActed : Prop :=
  (∀ s p img pr ps u, running s = some (p, img, pr, ps) → upcoming p = some u → mayIssue s = true → (∀ v ∈ p.inFlight, v.sweep = u.sweep) →
    (p.discarded.isEmpty && stopAsked s && (findCheap img ps pr u).isSome) = false →
    ∃ t, exec .tileIssue s = .next t ∧ confined [.ory] s t ∧
      if tileReady s p img pr ps u then t.ory.hold = false ∧ t.ory.sweep = u.sweep - pr.first ∧
        (∃ q, t.ory.prog = some q ∧ q.inFlight = p.inFlight ++ [u] ∧ q.discarded = p.discarded.tail ∧
          (p.discarded = [] → q.issuedAll = (nextTile img ps pr u).isNone ∧ ∀ n, nextTile img ps pr u = some n → q.next = n))
      else t.ory = { s.ory with hold := true, mode := if stopAsked s then .toCheapPoint else if s.ory.mode == .replayWait then .replayWait else .windowHold }) ∧
  (∀ sweep lane scratch window s, lane < 2 → wordsOk (2 ^ 24) scratch = true → wordsOk (2 ^ 23) window = true → ∃ t, exec (.tileCommit sweep lane scratch window) s = .next t) ∧
  (∀ s lane p img pr ps u, lane < 2 → running s = some (p, img, pr, ps) → oldestIn p lane = some u → s.lan.refclk = true → s.ory.mode ≠ .fault → s.integ.mode ≠ .fence →
    imgTwoRate img = false →
    (let x := tileIn p (s.parures.getD p.slot {}).hash img ps pr u
     let a := commitSums s ps x
     let w := retireTile (tilePassed (if endsChunk img ps pr u then commitChunk a img ps x (chunkLanes a img ps x) else a) u) u
     (x.sw.facet && u.kind == .epilogue) = false → parureLine s (s.parures.getD p.slot {}) img x = none → stopAsked w = false →
     (∀ e ∈ readers w, (e.2.recomputing && tarnishedRun w e.2.threadAddr (2 * e.2.base)) = false) →
     ∃ t, exec (.tileCommit u.sweep lane [] []) s = .next t ∧ confined [.eph] w t ∧
       (∀ kc, u.kind = .compute kc → x.sw.kind = 1 → a.ory.acc = gemmTile s ps x kc) ∧
       (∀ level piece, u.kind = .combine level piece → x.sw.kind = 1 →
         a.ory.sums = s.ory.sums.set (chunkKey u) (combineTile (s.ory.sums.getD (chunkKey u) []) x.sw u level piece x.ms.length)) ∧
       (endsChunk img ps pr u = false → s.ory.failing ≠ some u → w = retireTile a u ∧ w.ory.prog.map (·.inFlight) = some (p.inFlight.filter (· != u))))) ∧
  (∀ s p img pr ps half f, half < 2 → running s = some (p, img, pr, ps) → fillFor s p img pr ps half = some f → s.lan.refclk = true → orreryLost s = false →
    s.integ.mode ≠ .fence → s.ory.mode ≠ .spill → ∃ t, exec (.windowFillDone half []) s = .next t ∧ confined [.ory] s t ∧ halfTag t.ory half = fillTag img ps pr f ∧
      halfTag t.ory (1 - half) = halfTag s.ory (1 - half) ∧
      t.ory.window = (railFill s (s.parures.getD p.slot {}) img ps pr half f s.ory).window ∧
      t.ory.prog = some { p with refetch := p.refetch.filter (· != half), fillSeq := max p.fillSeq (if (fillTag img ps pr f).isSome then f + 1 else 0) }) ∧
  (∀ s p img pr ps sw, running s = some (p, img, pr, ps) → s.ast.enable = true → s.lan.refclk = true → (sweepAt img sw).kind = 2 → p.kind ≠ 2 → pr.first ≤ sw → sw < pr.first + pr.count →
    p.next.sweep ≤ sw → sw ∉ p.gathered →
    (let g := (readers s).foldl (gatherMember img (sweepAt img sw)) s
     ∃ t, exec (.kvGatherDone sw) s = .next t ∧ confined [.ory] g t ∧ ∀ q, g.ory.prog = some q → t.ory.prog = some { q with gathered := q.gathered ++ [sw] })) ∧
  (∀ s, fwRuns s = true → s.ory.enable = true → spillable s = true → s.ory.preempt = false → ∃ t, exec .preemptRequest s = .next t ∧
    (standing s = none ∨ s.ory.mode = .restore → confined [.ory] s t ∧ t.ory = { s.ory with preempt := true, mode := if s.ory.mode == .run || s.ory.mode == .windowHold then .toCheapPoint else s.ory.mode }) ∧
    (∀ k, standing s = some k → s.ory.mode ≠ .restore → spillOver s k = false → confined [.ory] s t ∧ t.ory = { s.ory with preempt := true, mode := .spill, hold := false })) ∧
  (∀ s k, s.ory.preempt = true → spillable s = true → powered { s with eph := { s.eph with running := false } } = true → s.ory.mode ≠ .restore → standing s = some k → spillOver s k = false →
    ∃ t, exec .spillDone s = .next t ∧ confined [.ory, .eph, .t1, .integ] s t ∧ t.eph.holder = .none ∧ t.ory.prog = none ∧ t.ory.preempt = false ∧
      (∀ c x, s.eph.holder = .step c → s.eph.ctxs.get? c = some x → ∃ y v, t.eph.ctxs.get? c = some y ∧ y.suspended = some v ∧ v.cheap = k ∧ v.base = s.ory.spillBase ∧
        v.acc = s.ory.acc ∧ v.size = standingSize s k)) ∧
  (∀ s u, heldSuspended s = some u → s.ory.mode = .restore → powered { s with eph := { s.eph with running := false } } = true → u.prog.kind = 1 →
    tarnishedRun s u.base (128 * u.size) = false → ∃ t, exec .spillRestoreDone s = .next t ∧ confined [.ory, .eph] s t ∧
      t.ory.prog = some { u.prog with refetch := refetchOf (cheapAt (slotImg s u.prog.slot) u.cheap) } ∧ t.ory.acc = (readSpill s (slotImg s u.prog.slot) (cheapAt (slotImg s u.prog.slot) u.cheap) u).ory.acc ∧
      t.ory.scratch = (readSpill s (slotImg s u.prog.slot) (cheapAt (slotImg s u.prog.slot) u.cheap) u).ory.scratch ∧ t.ory.halfA = none ∧ t.ory.halfB = none ∧
      t.ory.mode = (if stopAsked s then .toCheapPoint else .run) ∧
      (∀ c x, s.eph.holder = .step c → s.eph.ctxs.get? c = some x → ∃ y, t.eph.ctxs.get? c = some y ∧ y.suspended = none))

/-- 05 R176, R181, R194, R202, R207, 06 R229 to R244, 07 R273, 10 R395: paths are fixed, draft levels end, steps seal and end, recompute passes and moves end, the TLB is invalidated. -/
def Obligations.StepsAndMovesActed : Prop :=
  (∀ s c st x, s.lan.refclk = true → walkable s = some (c, st) → s.smp.enable = true → s.eph.ctxs.get? c = some x → x.step = some st → ∃ t y v, exec .pathsFixed s = .next t ∧
    t.smp.lastFix = (s.now - st.rowsAt.getD s.now) % 2 ^ 16 ∧ t.eph.ctxs.get? c = some y ∧ y.seals = x.seals ∧ y.step = some v ∧ v.paths.isSome = true ∧
    v.rows = st.rows ∧ v.sealedAt = st.sealedAt ∧ confined [.smp, .stm, .lockets, .eph, .integ, .hif, .lan] s t) ∧
  (∀ s c st d st1, drafting s = some (c, st, d) → draftRan s c = true → s.smp.enable = true → issueOk s = true →
    (let s1 := fixRun s c st d ((levelNodes st d).map (fun v => (v, draftRow (stepPositions s c st) st v)))
     ctxStep s1 c = some st1 → d < openDepth st1 → ∃ t q, exec (.draftRunDone c) s = .next t ∧ confined [.ory] s1 t ∧ t.ory.mode = .run ∧ t.ory.prog = some q ∧ q.kind = 2 ∧
       q.inFlight = [] ∧ q.slot = (draftSlot s c).getD 0)) ∧
  (∀ s c st d st1, drafting s = some (c, st, d) → draftRan s c = true → s.smp.enable = true → issueOk s = true →
    (let s1 := fixRun s c st d ((levelNodes st d).map (fun v => (v, draftRow (stepPositions s c st) st v)))
     ctxStep s1 c = some st1 → openDepth st1 ≤ d → ∃ t q, exec (.draftRunDone c) s = .next t ∧ confined [.eph, .ory] s1 t ∧ t.ory.mode = .run ∧ t.ory.prog = some q ∧ q.kind = 1 ∧
       q.inFlight = [] ∧ ∃ y v, t.eph.ctxs.get? c = some y ∧ y.step = some v ∧ v.draftLevel = none)) ∧
  (∀ s c st d rows x, s.eph.ctxs.get? c = some x → x.step = some st →
    (let f := (fixLevel s st rows).foldl (fun s e =>
       let fixed := (st.trees.getD e.1 {}).open_.filter (fun k => !e.2.open_.contains k && !e.2.gone.contains k)
       checkNodes st (countMasks s e.2 fixed) e.1 e.2 fixed) { s with smp := { s.smp with
         rows := (s.smp.rows + (levelShapes s st rows).1) % 2 ^ 64, evDegenerate := s.smp.evDegenerate || (levelShapes s st rows).2 != 0
         degenerate := (s.smp.degenerate + (levelShapes s st rows).2) % 2 ^ 32 } }
     ∀ v, ctxStep f c = some v → ctxStep (fixRun s c st d rows) c = some { v with trees := fixLevel s st rows, draftLevel := some (d + 1), logits := [], tarnRows := [] })) ∧
  (∀ s c st x, sealable s = some (c, st) → s.stm.enable = true → serving s = true → s.lan.refclk = true → s.lan.stopped = false → orreryLost s = false →
    s.integ.mode ≠ .quarantined → s.eph.ctxs.get? c = some x → x.step = some st → ∃ t y v, exec .stepSeal s = .next t ∧ t.stm.sealTick = s.now ∧ t.stm.ctx = c ∧
      t.eph.slack = (st.deadline : Int) - s.now ∧ t.eph.ctxs.get? c = some y ∧ y.seals = (x.seals + 1) % 2 ^ 64 ∧ y.step = some v ∧ v.sealedAt = some s.now ∧
      (st.deadline < s.now → bitAt t.eph.event 0 = true ∧ t.eph.lateSteps = wrapInc 32 s.eph.lateSteps) ∧ (s.now ≤ st.deadline → t.eph.event = s.eph.event ∧ t.eph.lateSteps = s.eph.lateSteps) ∧
      confined [.smp, .fil, .stm, .lockets, .eph, .ckpt, .hif] s t) ∧
  (∀ s c x st, s.lan.refclk = true → boundaryReady s = some (c, x, st) → s.ast.enable = true → s.integ.mode ≠ .isolated →
    exec .stepBoundary s = .next (nextStep (boundary (freeOrrery (commitStep s c x st)) c) c (st.sealedAt.getD s.now))) ∧
  (∀ s, serving s = true → exec (.tlbInvalidate none) s = .next { s with ast := { s.ast with tlb := [] } }) ∧
  (∀ s id, serving s = true → ∃ t, exec (.tlbInvalidate (some id)) s = .next t ∧ confined [.ast] s t ∧ t.ast.frames = s.ast.frames ∧
    ∀ k ws, t.ast.tlb.get? k = some ws → ∀ w ∈ ws, w.id ≠ id) ∧
  (∀ s h l, s.lan.refclk = true → s.lockets.get? h = some l → l.recomputing = true → l.passDone = true → ∃ t q, exec (.recomputePassDone h) s = .next t ∧ t.lockets.get? h = some q ∧
    q.passDone = false ∧ q.recNext = l.recNext + passCount l ∧ q.recSince = s.now ∧
    (l.base ≤ l.recNext + passCount l → q.recomputing = false ∧ q.dropped = false ∧ q.recFrames = []) ∧
    (l.recNext + passCount l < l.base → q.recomputing = true ∧ confined [.lockets] s t)) ∧
  (∀ s h l m s1 st, s.lockets.get? h = some l → l.move = some m → consume s (.move h m.home) = some (s1, st) →
    if st = 0 ∨ st = 4 then ∃ t q, exec (.stackMoveDone h) s = .next t ∧ t.lockets.get? h = some q ∧ q.home = m.home ∧ q.page = m.page ∧ q.move = none ∧
        q.threadAddr = threadPlace (locketImg s1 l) m.page
    else exec (.stackMoveDone h) s = .next (withdrawJoin s1 h stNoRoom))

/-- 17 R654, R656, R657, Table 17-11; 18 R680, R693, Table 18-1; 13 R502; 11 R436; 10 R414; 19 R706: Almanac writes with rows of their own take effect and
are answered. -/
def Obligations.AlmanacWritesPerformed : Prop :=
  (∀ s r, asks s r 0x6100 1 0x5A → ∃ t, exec .resetReqDevice s = .next t ∧ replied s t r 0 ∧ (t.lan.resetDue.map (·.1)) = some .device) ∧
  (∀ s r, asks s r 0x6100 1 0xA5 → ∃ t, exec .resetReqWarm s = .next t ∧ replied s t r 0 ∧ (t.lan.resetDue.map (·.1)) = some .warm) ∧
  (∀ s r, asks s r 0x6100 1 0xC3 → ∃ t, exec .resetReqCold s = .next t ∧ replied s t r 0 ∧
    (if s.lan.power = .night then t.lan.powerReq = 0 ∧ t.lan.transition = some s.now else (t.lan.resetDue.map (·.1)) = some .cold)) ∧
  (∀ s r v, asks s r 0x6400 9 v → ∃ t, exec .contextReset s = .next t ∧ replied s t r 0 ∧ t.cells = s.cells ∧ t.hostMem = s.hostMem ∧ t.keys = s.keys ∧ t.facets = s.facets) ∧
  (∀ s r v, asks s r 0x6400 1 v → (∃ t, exec (.vcoreSet true) s = .next t ∧ replied s t r 0 ∧ t.lan.vcoreSet = v ∧ t.lan.vcoreSent = v ∧ confined [.lan] s t) ∧
    ∃ t, exec (.vcoreSet false) s = .next t ∧ replied s t r 6 ∧ t.lan.vcoreSet = s.lan.vcoreSet ∧ t.lan.vcoreSent = s.lan.vcoreSent ∧ confined [.lan] s t) ∧
  (∀ s r v, asks s r 0x6300 5 v → ∃ t, exec .trippedClear s = .next t ∧ replied s t r 0 ∧ t.lan.tripped = false ∧ t.lan.thermtrip = false ∧ confined [.lan] s t) ∧
  (∀ s r v, asks s r 0x6200 3 v → ∃ t, exec (.wdtKick false) s = .next t ∧ replied s t r 0 ∧ t.lan.wdtKick = (if wdtRuns s then some s.now else none) ∧
    confined [.lan] s t) ∧
  (∀ s, lanternUp s = true → wdtRuns s = true → exec (.wdtKick true) s = .next (s.lanM fun l => { l with wdtKick := some s.now })) ∧
  (∀ s r v, asks s r 0x6200 1 v → ∃ t, exec .wdtPeriod s = .next t ∧ replied s t r 0 ∧ t.lan.wdtPeriod = v ∧ t.lan.wdtKick = s.lan.wdtKick.map (fun _ => s.now) ∧
    confined [.lan] s t) ∧
  (∀ s r v, asks s r 0x1010 1 v → ∃ t, exec .nodeId s = .next t ∧ replied s t r 0 ∧ t.lan.nodeId = v ∧ t.lan.nodeInForce = s.lan.nodeInForce ∧
    t.lan.nodeDue.isSome ∧ confined [.lan] s t) ∧
  (∀ s r v, asks s r 0x5300 3 v → ∃ t, exec .crashClear s = .next t ∧ replied s t r 0 ∧ t.lan.crashLog = [] ∧ t.lan.crashCount = s.lan.crashCount ∧
    confined [.lan] s t) ∧
  (∀ s r v, asks s r 0x5000 3 v → ∃ t, exec .retiredClear s = .next t ∧ replied s t r 0 ∧ t.lan.retired = 0 ∧ t.lpe.retired = 0 ∧ t.cells = s.cells) ∧
  (∀ s r v, asks s r 0x4200 7 v → ∃ t, exec .histClear s = .next t ∧ replied s t r 0 ∧ t.traffic.hist = [] ∧ t.traffic.samples = 0 ∧
    confined [.lan, .traffic] s t) ∧
  (∀ s r v k, k < 1024 → asks s r (0x7000 + k) 2 v → ∃ t, exec .accountClear s = .next t ∧ replied s t r 0 ∧
    t.eph.accounts.getD k {} = { since := s.now } ∧ (∀ j, j ≠ k → t.eph.accounts.getD j {} = s.eph.accounts.getD j {}) ∧ confined [.lan, .eph] s t)

/-- 17 R632 to R643, R659: Almanac requests join the order, are answered, and leave on the sideband. -/
def Obligations.AlmanacRequestsAnswered : Prop :=
  (∀ s r, front s = some r → r.op = 1 → readCheck s r = 0 → r.off = 0 → ∃ t, exec .read s = .next t ∧ replied s t r 0 ∧ confined [.lan] s t ∧
    (∀ mac, r.from_ = .sideband mac → ∃ f, t.lan.tx = s.lan.tx ++ [f] ∧
      (f.pdu.drop 24).take (min r.len (entryValue s r.index r.sub).length) = (entryValue s r.index r.sub).take r.len) ∧
    t.lan.snaps = s.lan.snaps.filter (fun x => x.from_ != r.from_) ++ (if (entryValue s r.index r.sub).length ≤ r.len then [] else
      [{ from_ := r.from_, entry := r.index * 256 + r.sub, value := entryValue s r.index r.sub, tick := s.now }])) ∧
  (∀ s r v, asks s r 0x6200 2 v → ∃ t, exec .write s = .next t ∧ replied s t r 0 ∧ t.lan.wdtAction = v ∧ confined [.lan] s t) ∧
  (∀ s r v, asks s r 0x1010 3 v → ∃ t, exec .write s = .next t ∧ replied s t r 0 ∧ t.lan.eventDest = v ∧ confined [.lan] s t) ∧
  (∀ s r v, asks s r 0x6400 8 v → ∃ t, exec .write s = .next t ∧ replied s t r 0 ∧ t.lan.powerReq = v ∧ t.lan.transition = some s.now ∧ confined [.lan] s t) ∧
  (∀ s r k, front s = some r → r.op = 2 → writeCheck s r = k → k ≠ 0 → k < 256 → ∃ t, exec .write s = .next t ∧ replied s t r k ∧ confined [.lan] s t) ∧
  (∀ s r e, front s = some r → r.op = 3 → malformed r = false → entrySpec r.index r.sub = some e →
    ∃ t, exec .describe s = .next t ∧ replied s t r 0 ∧ confined [.lan] s t) ∧
  (∀ s r, front s = some r → r.op = 4 → malformed r = false → ∃ t, exec .discover s = .next t ∧ replied s t r 0 ∧ confined [.lan] s t) ∧
  (∀ s e rest, lanternUp s = true → s.lan.events = e :: rest → s.lan.eventDest ≠ 0 → ∃ t f, exec .event s = .next t ∧ t.lan.tx = s.lan.tx ++ [f] ∧
    f.dest = s.lan.eventDest ∧ t.lan.events = rest ∧ t.lan.eventSeq = (s.lan.eventSeq + 1) % 2 ^ 16 ∧ confined [.lan] s t) ∧
  (∀ s n x, lanternUp s = true → s.lan.snaps[n]? = some x → x.tick + 100000000 ≤ s.now →
    exec (.readSnapshotExpiry n) s = .next (s.lanM fun l => { l with snaps := l.snaps.eraseIdx n })) ∧
  (∀ s r e, s.lan.refclk = true → front s = some r → malformed r = false → entrySpec r.index r.sub = some e → e.home = 1 → (r.op = 1 ∨ r.op = 2) → r.since + 100000 ≤ s.now →
    ∃ t, exec .homeFTimeout s = .next t ∧ replied s t r 6 ∧ confined [.lan] s t)

/-- 17 R632, R633, R636, R651, R652, R659: frames and mailbox requests join the order, frames leave, and the configuration is committed. -/
def Obligations.LanternTraffic : Prop :=
  (∀ s, lanternUp s = true → s.hif.mode = .up → s.lan.mboxBusy = false → fieldAt s.lan.mbox 10 2 ≤ 1024 → s.lan.queue.length < 16 →
    exec .go s = .next (s.lanM fun l => { l with mboxBusy := true, queue := l.queue ++ [{ from_ := .mailbox, pdu := l.mbox, since := s.now }] })) ∧
  (∀ s src pdu, lanternUp s = true → sbCode s ≠ 0 → s.lan.queue.length < 16 → src < 2 ^ 48 →
    exec (.sidebandFrameReceive (ownMac s) src 0x88B5 true pdu) s = .next (s.lanM fun l => { l with sbFrames := (l.sbFrames + 1) % 2 ^ 32
                                                                                                    queue := l.queue ++ [{ from_ := .sideband src, broadcast := ownMac s == 2 ^ 48 - 1, pdu := pdu, since := s.now }] })) ∧
  (∀ s dst src ty pdu, lanternUp s = true → sbCode s ≠ 0 →
    exec (.sidebandFrameReceive dst src ty false pdu) s = .next (s.lanM fun l => { l with sbErrors := (l.sbErrors + 1) % 2 ^ 32 })) ∧
  (∀ s f rest, lanternUp s = true → sbCode s ≠ 0 → s.lan.tx = f :: rest → f.act = 0 → s.lan.nodeDue = none →
    exec (.transmitOpportunity false) s = .next (s.lanM fun l => { l with tx := rest, sent := l.sent ++ [f] })) ∧
  (∀ s, lanternUp s = true → sbCode s = 1 → s.lan.nodeDue = none →
    exec (.transmitOpportunity true) s = .next (s.lanM fun l => { l with sbCollisions := (l.sbCollisions + 1) % 2 ^ 32 })) ∧
  (∀ s r v, asks s r 0x2000 1 v → commitFail s = none → ∃ t, exec .configCommit s = .next t ∧ replied s t r 0 ∧ t.lan.committed = true ∧
    t.lan.config = s.lan.staged ∧ t.lan.configError = 0 ∧ t.ory.abftEn = (s.lan.staged.switches.getD 0 0 == 1) ∧ t.ast.pool = s.lan.staged.poolPages ∧
    t.cur.ckptSize + t.cur.t2Size = max s.lan.t2Units t.cur.ckptSize ∧ t.lockets = s.lockets) ∧
  (∀ s r v e, asks s r 0x2000 1 v → commitFail s = some e → ∃ t, exec .configCommit s = .next t ∧ replied s t r 4 ∧ t.lan.configError = e ∧
    t.lan.committed = s.lan.committed ∧ confined [.lan] s t)

/-- 16 R620 to R622, Table 16-6; 13 R506, R507, R509: a membership change is asked for, prepared, acknowledged, committed or given up. -/
def Obligations.MembershipChanged : Prop :=
  (∀ s r v, asks s r 0x1101 2 v → s.std.mode = .joining → s.std.position = some 0 → 16 ≤ s.std.count → s.std.count ≤ 64 → s.std.change = none → s.std.prepared = none →
    ∃ t, exec .formDomain s = .next t ∧ replied s t r 0 ∧ t.std.mode = .prepared ∧ t.std.result = 1 ∧
      t.std.prepared = some { epoch := 1, set := 2 ^ s.std.count - 1, coord := 0, wasMember := false, since := s.now } ∧
      t.std.change = some { epoch := 1, set := 2 ^ s.std.count - 1, since := s.now }) ∧
  (∀ s r v p, asks s r 0x1101 1 v → s.std.mode = .member → s.std.change = none → s.std.prepared = none → bitAt v (ownPos s) = true → v < 2 ^ s.std.count →
    p < 64 → p ≠ ownPos s → bitAt v p = true →
    ∃ t, exec .memberReq s = .next t ∧ replied s t r 0 ∧ t.std.mode = .prepared ∧ t.std.result = 1 ∧
      t.std.prepared = some { epoch := nextEpoch s.std.epoch, set := v, coord := ownPos s, wasMember := true, since := s.now } ∧
      t.std.change = some { epoch := nextEpoch s.std.epoch, set := v, since := s.now }) ∧
  (∀ s r v, asks s r 0x1101 1 v → s.std.mode = .member → bitAt v (ownPos s) = false →
    ∃ t, exec .memberReq s = .next t ∧ replied s t r 0 ∧ t.std.result = 4 ∧ t.std.mode = .member) ∧
  (∀ s r v, asks s r 0x1101 5 v → ∃ t, exec .rejoin s = .next t ∧ replied s t r 0 ∧ (t.std.mode = .enum ∨ t.std.mode = .joining) ∧ t.std.epoch = 0 ∧
    t.std.members = 0 ∧ t.facets = [] ∧ t.colls = [] ∧ t.lan.quarantine = s.lan.quarantine) ∧
  (∀ s m, takes s m 0x20 → (s.std.mode = .joining ∨ s.std.mode = .member ∧ m.fld 8 2 = nextEpoch s.std.epoch) → bitAt (m.fld 16 8) (ownPos s) = true →
    ∃ t, exec .prepare s = .next t ∧ t.std.mode = .prepared ∧
      t.std.prepared = some { epoch := m.fld 8 2, set := m.fld 16 8, coord := m.fld 10 1, wasMember := s.std.mode == .member, since := s.now } ∧
      confined [.std, .lan] s t) ∧
  (∀ s m c, takes s m 0x21 → s.std.change = some c → m.fld 8 2 = c.epoch → m.fld 10 1 = ownPos s →
    ∃ t, exec .memberAck s = .next t ∧
      (if lacking s { c with acks := c.acks ||| 2 ^ m.src } = 0 then adopted t c.epoch c.set ∧ t.std.result = 2
       else t.std.change = some { c with acks := c.acks ||| 2 ^ m.src } ∧ t.std.mode = s.std.mode)) ∧
  (∀ s m p, takes s m 0x22 → s.std.mode = .prepared → s.std.prepared = some p → m.fld 8 2 = p.epoch → ∃ t, exec .commit s = .next t ∧ adopted t p.epoch p.set) ∧
  (∀ s m p, takes s m 0x23 → s.std.mode = .prepared → s.std.prepared = some p → m.fld 8 2 = p.epoch → s.std.change = none →
    ∃ t, exec .abort s = .next t ∧ t.std.prepared = none ∧ t.std.mode = (if p.wasMember then .member else .joining) ∧ t.std.epoch = s.std.epoch) ∧
  (∀ s m, takes s m 0x24 → s.std.mode = .member → newer s.std.epoch (m.fld 8 2) = true →
    ∃ t, exec .stale s = .next t ∧ t.std.mode = .quarantined ∧ t.lan.quarantine = true ∧ t.std.prepared = none) ∧
  (∀ s c, s.lan.refclk = true → s.std.change = some c → c.since + 100000 ≤ s.now → ∃ t, exec .memberAckTimeout s = .next t ∧ t.std.result = 3 ∧ t.std.missing = lacking s c ∧
    t.std.change = none ∧ t.std.prepared = none ∧ confined [.std, .lan] s t) ∧
  (∀ s p, s.lan.refclk = true → s.std.prepared = some p → s.std.change = none → p.since + 200000 ≤ s.now → ∃ t, exec .prepareTimeout s = .next t ∧ t.std.prepared = none ∧
    t.std.mode = (if p.wasMember then .member else .joining) ∧ t.std.epoch = s.std.epoch ∧ confined [.std, .lan] s t)

/-- 16 R607 to R611, R616 to R619, Table 16-5; 13 R508: enumeration, beacons, measured delays and isolation. -/
def Obligations.ChainEnumeratedAndTimed : Prop :=
  (∀ s w, s.lan.refclk = true → s.lan.alwaysOn = true → s.std.enumLow = false → w < 2 ^ 32 → enumOk w = true → bitAt w 23 = false → s.std.lastWord = some w → s.std.position = none →
    ∃ t, exec (.enumWordReceive w) s = .next t ∧ t.std.position = some (bits w 13 8) ∧ t.std.adoptedAt = s.now ∧ confined [.std, .lan] s t) ∧
  (∀ s w, s.lan.refclk = true → s.lan.alwaysOn = true → s.std.enumLow = false → w < 2 ^ 32 → enumOk w = true → bitAt w 23 = false → s.std.lastWord ≠ some w →
    exec (.enumWordReceive w) s = .next (s.stdM fun d => { d with lastWord := some w })) ∧
  (∀ s p, s.lan.refclk = true → s.std.position = some p → s.lan.alwaysOn = true → s.std.lastEnum + 10000 ≤ s.now →
    exec .enumWordSend s = .next (s.stdM fun d => { d with lastEnum := s.now, enumOut := d.enumOut ++ [enumWord p] })) ∧
  (∀ s m p, takes s m 0x02 → s.std.position = some p → ∃ t, exec .chainCount s = .next t ∧ t.std.count = m.fld 8 1 ∧ t.std.countSent = true ∧ confined [.std] s t) ∧
  (∀ s p, s.lan.refclk = true → s.std.position = some p → s.lan.coreUp = true → s.std.tail = false → portUp s 1 = false → s.std.mode = .enum → s.std.adoptedAt + 5000000 ≤ s.now →
    ∃ t, exec .tailTimeout s = .next t ∧ t.std.tail = true ∧ t.std.count = p + 1 ∧ confined [.std, .lan] s t) ∧
  (∀ s, s.lan.refclk = true → s.lan.coreUp = true → isMaster s = true → s.std.lastSent + 10000 ≤ s.now →
    ∃ t, exec .beaconSend s = .next t ∧ t.std.nextSeq = (s.std.nextSeq + 1) % 2 ^ 32 ∧ t.std.lastSent = s.now ∧ t.std.seenSeq = some s.std.nextSeq ∧
      t.std.offset = s.std.offset ∧ confined [.std] s t) ∧
  (∀ s m a r, takes s m 0x10 → s.std.mode = .member → m.epoch = s.std.epoch → isMaster s = false → m.port = s.std.timePort →
    ∃ t, exec (.beacon a r) s = .next t ∧ t.std.lastBeacon = s.now ∧ t.std.timeFrom = none ∧
      t.std.offset = (m.fld 16 8 : Int) * 65536 + sNat 64 (m.fld 24 8) + (s.port m.port).delay - a ∧
      (m.fld 32 8 ≠ 0 → t.std.beaconFrame = m.fld 32 8 ∧ t.std.beaconMeridian = m.fld 40 8 ∧ t.std.frameAt = some s.now)) ∧
  (∀ s, s.lan.refclk = true → s.std.epoch ≠ 0 → isMaster s = false → brings s (timeSource s) = false → ((s.port (timeSource s)).lastBeacon.getD 0) + 100000 ≤ s.now →
    exec .timePortLost s = .next (stdEvent (s.stdM fun d => { d with timeFrom := ((List.range 8).find? (brings s)).or d.timeFrom }) 4)) ∧
  (∀ s p st, portUp s p = true → (s.port p).lastDelay = none → ∃ t, exec (.delayMeasure p st) s = .next t ∧ (t.port p).lastDelay = some s.now ∧
    (t.port p).delayReq = some st ∧ confined [.std] s t) ∧
  (∀ s m a l, takes s m 0x03 → m.port < s.std.ports.length → ∃ t f, exec (.delayReq a l) s = .next t ∧ (t.port m.port).queue = (s.port m.port).queue ++ [f] ∧
    f.kind = 1 ∧ f.payload = padTo 512 (mkMsg 0x04 [(8, 8, m.fld 8 8), (16, 8, a), (24, 8, l)]) ∧ confined [.std] s t) ∧
  (∀ s m a, takes s m 0x04 → m.port < s.std.ports.length → (s.port m.port).delayReq = some (m.fld 8 8) →
    ∃ t, exec (.delayResp a) s = .next t ∧ (t.port m.port).delay = sEnc 32 ((((a : Int) - m.fld 8 8) - ((m.fld 24 8 : Int) - m.fld 16 8)) / 2) ∧
      (t.port m.port).delayReq = none ∧ confined [.std] s t) ∧
  (∀ s, s.lan.refclk = true → s.integ.isolateEn = true → s.std.epoch ≠ 0 → s.std.mode = .member → s.integ.mode = .normal → s.std.lastBeacon + 500000 ≤ s.now →
    ∃ t, exec .isolationTimeout s = .next t ∧ t.integ.mode = .isolated ∧ bitAt t.integ.event 7 = true ∧ t.lockets = s.lockets ∧ t.std = s.std)

/-- 16 R599 to R601, R609, R612, R614, R627, Table 16-10: Strand ports train, pass flits, go down and are fenced. -/
def Obligations.PortsActed : Prop :=
  (∀ s r v, asks s r 0x1101 8 v → ∃ t, exec .chainOnly s = .next t ∧ replied s t r 0 ∧ t.std.chainOnly = v ∧
    t.std.routeActive = (if v = 0 then s.std.route else s.std.routeActive) ∧ confined [.std, .lan] s t) ∧
  (∀ s r n, n < 8 → n < s.std.ports.length → asks s r 0x1102 (n + 1) 1 → s.lan.coreUp = true → (s.port n).mode ≠ .fenced →
    ∃ t, exec .portFence s = .next t ∧ replied s t r 0 ∧ (t.port n).fence = 1 ∧ (t.port n).mode = .fenced ∧ (t.port n).replay = [] ∧ confined [.std, .lan] s t) ∧
  (∀ s r n, n < 8 → n < s.std.ports.length → asks s r 0x1102 (n + 1) 0 → s.lan.coreUp = true → (s.port n).mode = .fenced → s.lan.quarantine = false →
    ∃ t, exec .portFence s = .next t ∧ replied s t r 0 ∧ (t.port n).fence = 0 ∧ (t.port n).mode = .training ∧ confined [.std, .lan] s t) ∧
  (∀ s n w p q own, n < 8 → n < s.std.ports.length → (w = 4 ∨ w = 8) → p < 64 → q < 8 → s.std.position = some own → s.lan.coreUp = true → (s.port n).fence = 0 →
    ((s.port n).mode = .down ∨ (s.port n).mode = .training) →
    ∃ t, exec (.portTrained n w p q) s = .next t ∧ (t.port n).partner = p ∧ (t.port n).partnerPort = q ∧ (t.port n).partnerValid = true ∧
      (if wiredRight own n p q then (t.port n).mode = .up ∧ (t.port n).lanes = w ∧ (t.port n).credit0 = 64 ∧ (t.port n).credit1 = 1024 ∧ (t.port n).txSeq = 0 ∧ (t.port n).rxSeq = 0
       else (t.port n).mode = .miswired ∧ bitAt t.std.event 1 = true) ∧ confined [.std, .lan] s t) ∧
  (∀ s n, portUp s n = true → ∃ t, exec (.portDown n) s = .next t ∧ (t.port n).mode = .training ∧ (t.port n).replay = [] ∧ (t.port n).since = s.now ∧
    confined [.std] s t) ∧
  (∀ s n b, b.length = 532 → s.lan.coreUp = true → portUp s n = true → flitOk b = false →
    exec (.flitReceive n b) s = .next (s.portM n fun p => { p with crc := (p.crc + 1) % 2 ^ 32, nak := true })) ∧
  (∀ s n b, b.length = 532 → s.lan.coreUp = true → portUp s n = true → flitOk b = true → fieldAt b 524 1 = (s.port n).rxSeq → (readFlit b).kind = 1 →
    linkMsg (fieldAt (readFlit b).payload 0 1) = true → s.std.mode ≠ .quarantined →
    ∃ t, exec (.flitReceive n b) s = .next t ∧ t.std.inbox = s.std.inbox ++ flitMsgs n (readFlit b) ∧ (t.port n).rxSeq = ((s.port n).rxSeq + 1) % 256 ∧ confined [.std] s t) ∧
  (∀ s n f, s.lan.coreUp = true → portUp s n = true → (s.port n).resend = 0 → (s.port n).replay.length < 128 → (s.port n).credit0 ≠ 0 →
    (s.port n).queue.find? (fun g => g.kind != 2 && inOrder (s.port n).queue g) = some f →
    ∃ t, exec (.flitForward n) s = .next t ∧ (t.port n).queue = (s.port n).queue.erase f ∧ (t.port n).replay = (s.port n).replay ++ [f] ∧
      (t.port n).txSeq = ((s.port n).txSeq + 1) % 256 ∧ (t.port n).credit0 = (s.port n).credit0 - 1 ∧ (t.port n).credit1 = (s.port n).credit1 ∧ confined [.std] s t) ∧
  (∀ s n f u, s.lan.coreUp = true → portUp s n = true → (s.port n).resend = 0 → (s.port n).replay.length < 128 →
    (s.port n).queue.find? (fun g => g.kind != 2 && inOrder (s.port n).queue g) = none → (s.port n).unit = some u → nextOf (s.port n).queue u = some f →
    (s.port n).credit1 ≠ 0 →
    ∃ t, exec (.flitForward n) s = .next t ∧ (t.port n).queue = (s.port n).queue.erase f ∧ (t.port n).replay = (s.port n).replay ++ [f] ∧
      (t.port n).credit1 = (s.port n).credit1 - 1 ∧ confined [.std] s t) ∧
  (∀ s n f, s.lan.coreUp = true → portUp s n = true → (s.port n).resend ≠ 0 → (s.port n).replay[(s.port n).replay.length - (s.port n).resend]? = some f →
    ∃ t, exec (.flitForward n) s = .next t ∧ (t.port n).resend = (s.port n).resend - 1 ∧ (t.port n).replay = (s.port n).replay ∧ (t.port n).queue = (s.port n).queue ∧
      (t.port n).txSeq = (s.port n).txSeq ∧ (t.port n).credit0 = (s.port n).credit0 ∧ (t.port n).credit1 = (s.port n).credit1 ∧
      (t.port n).sent = (flitBytes f (((s.port n).txSeq + 256 - (s.port n).resend % 256) % 256) (((s.port n).rxSeq + 255) % 256) (boolNat (s.port n).nak * 2 ^ 15)) ∧
      confined [.std] s t)

/-- 16 R604, R605, R615; 04 R153: transfers begin and end, and the host windows of head mode. -/
def Obligations.TransfersAndWindowsServed : Prop :=
  (∀ s p k x, s.lan.refclk = true → s.lan.coreUp = true → xferOf s p k = some x → x.last + 100000 ≤ s.now → x.target ≠ imageTarget →
    ∃ t, exec (.transferTimeout p k) s = .next t ∧ t.std.inXfers = s.std.inXfers.filter (fun y => !(y.peer == x.peer && y.num == x.num)) ∧ t.t1 = s.t1 ∧
      t.lockets = s.lockets) ∧
  (∀ s m, heard s m 0x30 → m.fld 8 2 < 4096 → m.fld 10 1 = 5 → m.fld 16 8 ≠ imageTarget → m.fld 24 8 = 0 → m.fld 12 4 ≠ 0 → s.std.early = [] →
    ∃ t, exec .xferSetup s = .next t ∧ (∃ x ∈ t.std.inXfers, x.peer = m.src ∧ x.num = m.fld 8 2 ∧ x.total = 4096 * m.fld 12 4 ∧ x.cookie = m.fld 40 8 ∧ x.data = []) ∧
      confined [.std] s t) ∧
  (∀ s m k p, heard s m 0x30 → m.fld 8 2 < 4096 → m.fld 10 1 = 6 → m.fld 24 8 = 0 → parureHandle s (m.fld 16 8) = some (k, p) → p.state = .loaded → serving s = true →
    ∃ t d, exec .xferSetup s = .next t ∧ d ∈ allDescs t ∧ d.op = 5 ∧ d.peer = m.src ∧ d.src = m.fld 16 8 ∧ d.units = max 1 (min (m.fld 12 4) (ceilDiv p.image.length 4096)) ∧
      confined [.std, .cur, .extents] s t) ∧
  (∀ s m e, heard s m 0x30 → m.fld 8 2 < 4096 → m.fld 10 1 = 6 → m.fld 24 8 ≠ 0 → s.extents.get? (m.fld 24 8) = some e → e.sealed = true → e.tier = 2 → e.ckpt = true →
    serving s = true → ∃ t d, exec .xferSetup s = .next t ∧ d ∈ allDescs t ∧ d.op = 5 ∧ d.peer = m.src ∧ d.extent = m.fld 24 8 ∧ d.units = max 1 (min (m.fld 12 4) e.units) ∧
      confined [.std, .cur, .extents] s t) ∧
  (∀ s m x, heard s m 0x31 → s.std.outXfers.find? (fun x => x.peer == m.src && x.num == m.fld 8 2) = some x →
    ∃ t, exec .xferDone s = .next t ∧ t.std.outXfers = s.std.outXfers.filter (fun y => !(y.peer == x.peer && y.num == x.num)) ∧
      (∀ c d, (c, d) ∈ s.cur.channels → d.cookie = x.cookie → d.peer = x.peer → d.op = 5 → d.peerStatus = none → (c, { d with peerStatus := some (m.fld 10 1) }) ∈ t.cur.channels) ∧
      confined [.std, .cur] s t) ∧
  (∀ s m, heard s m 0x40 → exec .fwdRead s = .next (let r := bar0Read (taken s m) (m.fld 16 4) (if m.fld 20 1 = 8 then 8 else 4)
    sendMsg r.1 m.src (mkMsg 0x42 [(8, 2, m.fld 8 2), (16, 8, leNat r.2.data), (24, 1, boolNat r.2.ur)]))) ∧
  (∀ s m, heard s m 0x41 → exec .fwdWrite s = .next (bar0Write (taken s m) (m.fld 16 4) (bytesAt m.body 24 (if m.fld 20 1 = 8 then 8 else 4)))) ∧
  (∀ s m r, heard s m 0x42 → s.std.fwdReads.find? (fun r => r.1 == m.fld 8 2 && r.2.1 == m.src) = some r →
    ∃ t, exec .fwdCpl s = .next t ∧ t.replies = s.replies ++ [if m.fld 24 1 = 1 then { ur := true } else { data := bytesAt m.body 16 r.2.2 }] ∧
      t.std.fwdReads = s.std.fwdReads.filter (fun q => q.1 != r.1)) ∧
  (∀ s m d, isHead s = true → s.hif.linkUp = true → heard s m 0x43 → m.fld 8 2 < 4096 →
    exec (.hostRead d) s = .next ((xferFlits m.src 0 s.std.epoch 0 (m.fld 8 2) (padTo (m.fld 24 4) d)).foldl sendFlit (taken s m))) ∧
  (∀ s m, isHead s = true → s.integ.mode ≠ .isolated → heard s m 0x44 → m.fld 8 2 < 4096 → m.fld 24 4 ≠ 0 → s.std.early = [] →
    ∃ t, exec .hostWrite s = .next t ∧ (∃ x ∈ t.std.inXfers, x.peer = m.src ∧ x.num = m.fld 8 2 ∧ x.op = 0x100 ∧ x.target = m.fld 16 8 ∧ x.total = m.fld 24 4) ∧
      confined [.std] s t) ∧
  (∀ s m, isHead s = true → s.integ.mode ≠ .isolated → heard s m 0x45 →
    exec .hostMsix s = .next { taken s m with hostMem := s.hostMem.writeN (m.fld 16 8) (bytesAt m.body 24 4) })

/-- 19 R703, R704, R705; 18 R664; 01 R39; 18 R694: the always-on rails, RAILS_PG, the clock monitor and the analogue comparator. -/
def Obligations.RailsAndClockActed : Prop :=
  (∀ s, s.lan.alwaysOn = true → ∃ t, exec .alwaysOnRailFailure s = .next t ∧ t.lan.alwaysOn = false ∧ t.lan.railEn = false ∧ t.lan.coreUp = false ∧ t.lockets = [] ∧
    t.t1 = [] ∧ t.keys = [] ∧ t.lan.crashLog = [] ∧ t.lan.retired = s.lan.retired ∧ t.lan.nodeId = s.lan.nodeId) ∧
  (∀ s head, s.lan.alwaysOn = false → ∃ t, exec (.powerOn head) s = .next t ∧ t.now = 0 ∧ t.lan.alwaysOn = true ∧ t.lan.refclk = true ∧ t.lan.railEn = true ∧
    t.lan.power = .boot ∧ t.lan.coreUp = false ∧ t.lan.pgAt = some 220000 ∧ t.lan.resetCount = 0 ∧ t.lan.lastReset = 0 ∧ t.std.enumLow = head ∧ t.lockets = [] ∧ t.t1 = []) ∧
  (∀ s n, s.lan.pgAt = some n → s.lan.alwaysOn = true → s.lan.refclk = true → s.lan.power = .boot → n ≤ s.now →
    (∃ t, exec (.railsPgCheck true) s = .next t ∧ t.lan.railsPg = true ∧ t.lan.coreUp = true ∧ t.lan.pgAt = none ∧ t.lan.staging = [] ∧ t.lan.phase = .none ∧
      t.std.modeInForce = s.std.hostMode) ∧
    exec (.railsPgCheck false) s = .next (s.lanM fun l => { l with railsPg := false, pgAt := none })) ∧
  (∀ s, s.lan.coreUp = true → s.lan.alwaysOn = true → s.lan.refclk = true →
    ∃ t, exec .railsPgFall s = .next t ∧ coldStarted s t 2 ∧ t.lan.railsPg = false) ∧
  (∀ s, s.lan.alwaysOn = true → s.lan.refclk = true → ∃ t, exec .refclkLoss s = .next t ∧ t.lan.refclk = false ∧
    t.lan.crashLog = (s.lan.crashLog ++ [faultRec s 0x0E 0xC3 0xFF 0 0 0]).drop (s.lan.crashLog.length + 1 - 64) ∧
    t.lan.crashCount = (s.lan.crashCount + 1) % 2 ^ 32 ∧ (s.lan.coreUp = true → t.ory.mode = .fault)) ∧
  (∀ s, s.lan.alwaysOn = true → s.lan.refclk = false → s.lan.power ≠ .night →
    ∃ t, exec .refclkReturn s = .next t ∧ coldStarted s t 1 ∧ t.lan.refclk = true) ∧
  (∀ s sensor, sensor < 24 → s.lan.alwaysOn = true → exec (.analogThermtrip sensor) s = .next (s.lanM fun l => { l with thermtrip := true }))

/-- 18 R676 to R678, R690, R691, Table 18-7; 17 R656, R657; 15 R560, R562: resets, each with its cause, and the host link. -/
def Obligations.ResetsPerformed : Prop :=
  (∀ s down, s.lan.alwaysOn = true → s.lan.refclk = true → (if down then s.hif.mode = .up else s.lan.perst = false) → s.lan.power ≠ .night → s.lan.pgAt = none →
    s.lan.railsPg = true → ∃ t, exec (.perstNAssert down) s = .next t ∧ warmStarted s t 4 (!down || s.lan.perst)) ∧
  (∀ s w v c, w = 4 ∨ w = 8 ∨ w = 16 → 1 ≤ v → v ≤ 6 → c ≤ 2 → (c = 0 ∨ s.lan.cxlEn = 1) → s.lan.alwaysOn = true → s.lan.refclk = true → s.lan.power ≠ .night →
    s.lan.pgAt = none → s.lan.railsPg = true → s.lan.coreUp = true → s.std.modeInForce = 1 →
    exec (.linkTraining w v c (v == 6)) s = .next ((s.lanM fun l => { l with perst := false }).hifM fun h =>
      { h with mode := .up, linkWidth := w, linkSpeed := v, linkCxl := c, linkFlit := v == 6, linkUp := true })) ∧
  (∀ s, s.hif.mode = .up → s.lan.power ≠ .night → s.lan.power ≠ .boot → ∃ t, exec .d3hotToD0 s = .next t ∧ deviceStarted s t 7 ∧ t.t1 = s.t1) ∧
  (∀ s n, s.lan.alwaysOn = true → s.lan.refclk = true → s.lan.resetDue = some (.cold, some n) → n ≤ s.now → ∃ t, exec .coldReset s = .next t ∧ coldStarted s t 3) ∧
  (∀ s n, s.lan.alwaysOn = true → s.lan.refclk = true → s.lan.resetDue = some (.warm, some n) → n ≤ s.now → s.lan.power ≠ .night → s.lan.pgAt = none →
    s.lan.railsPg = true → ∃ t, exec .warmReset s = .next t ∧ warmStarted s t 5 false) ∧
  (∀ s n, s.lan.alwaysOn = true → s.lan.refclk = true → s.lan.resetDue = some (.device, some n) → n ≤ s.now → s.lan.power ≠ .night → s.lan.power ≠ .boot →
    ∃ t, exec .deviceReset s = .next t ∧ deviceStarted s t 8 ∧ t.t1 = s.t1) ∧
  (∀ s v, s.lan.alwaysOn = true → s.lan.refclk = true → s.lan.coreUp = true → v ≤ s.lan.vcoreSet * 90 / 100 →
    ∃ t, exec (.vcoreResetLevel v) s = .next t ∧ coldStarted s t 2) ∧
  (∀ s v n, s.lan.alwaysOn = true → s.lan.refclk = true → s.lan.stopped = true → s.lan.goodSince = some n → n + 100000 ≤ s.now → s.lan.vcoreSet * 94 / 100 ≤ v →
    ∃ t, exec (.stopRecovery v) s = .next t ∧ coldStarted s t 2) ∧
  (∀ s n, s.lan.alwaysOn = true → s.lan.refclk = true → s.lan.phase = .running → (s.lan.power = .active ∨ s.lan.power = .dusk) → s.lan.wdtPeriod ≠ 0 →
    s.lan.wdtKick = some n → n + s.lan.wdtPeriod * 100000 ≤ s.now → s.lan.wdtAction ≤ 2 →
    ∃ t, exec .wdtExpiry s = .next t ∧
      (if s.lan.wdtAction = 0 then t.lan.wdtExpiries = (s.lan.wdtExpiries + 1) % 2 ^ 32 ∧ t.lan.power = s.lan.power
       else if s.lan.wdtAction = 1 then deviceStarted s t 9
       else s.lan.pgAt = none → s.lan.railsPg = true → warmStarted s t 6 false))

/-- 18 R681 to R685, Table 18-8, Table 18-9; 19 R702: the power states are entered and left. -/
def Obligations.PowerStatesEntered : Prop :=
  (∀ s n, s.lan.alwaysOn = true → s.lan.refclk = true → s.lan.power = .active → s.eph.active = none → s.eph.jobs = [] → s.lan.transition = none →
    s.lan.idleSince = some n → n + 100000 ≤ s.now → ∃ t, exec .duskEntry s = .next t ∧ t.lan.power = .dusk ∧ confined [.lan] s t) ∧
  (∀ s, s.lan.refclk = true → s.lan.power = .dusk → (s.eph.jobs ≠ [] ∨ s.eph.switch.isSome ∨ (s.eph.active.isSome ∧ s.eph.enable = true) ∨ s.lan.transition.isSome) →
    ∃ t, exec .duskExit s = .next t ∧ t.lan.power = .active ∧ confined [.lan] s t) ∧
  (∀ s, s.lan.alwaysOn = true → s.lan.refclk = true → s.lan.powerReq = 2 → s.lan.transition.isSome → s.lan.power = .active →
    (∀ b ∈ s.bays, b.programs = []) →
    ∃ t, exec .twilightEntry s = .next t ∧ t.lan.power = .twilight ∧ t.lan.transition = none ∧ t.ast.tlb = [] ∧ (∀ b ∈ t.hbc, b.mode ≠ .ready) ∧ (∀ b ∈ t.lpc, b.mode ≠ .ready) ∧
      t.t1 = s.t1 ∧ t.now = s.now) ∧
  (∀ s, s.lan.alwaysOn = true → s.lan.refclk = true → s.lan.powerReq = 0 → s.lan.transition.isSome → s.lan.power = .twilight →
    ∃ t, exec .twilightExit s = .next t ∧ t.lan.power = .active ∧ t.lan.transition = none ∧ (∀ b ∈ t.hbc, b.mode ≠ .selfRefresh) ∧
      (∀ b ∈ t.lpc, b.mode ≠ .selfRefresh) ∧ t.lockets = s.lockets ∧ t.t1 = s.t1) ∧
  (∀ s, s.lan.alwaysOn = true → s.lan.refclk = true → s.lan.powerReq = 3 → s.lan.transition.isSome → (s.lan.power = .boot ∨ s.lan.power = .active ∨ s.lan.power = .twilight) →
    (∀ b ∈ s.bays, b.programs = []) → ∃ t, exec .nightEntry s = .next t ∧ inNight s t ∧ t.lan.transition = none) ∧
  (∀ s, s.lan.alwaysOn = true → s.lan.refclk = true → s.lan.powerReq = 0 → s.lan.transition.isSome → s.lan.power = .night →
    ∃ t, exec .nightExit s = .next t ∧ t.lan.power = .boot ∧ t.lan.railEn = true ∧ t.lan.pgAt = some (s.now + 200000) ∧ t.lan.transition = none ∧ confined [.lan] s t)

/-- 18 R687 to R693, Table 18-1; 19 R706, R709: supply supervision and thermal limits. -/
def Obligations.SupplyAndHeatSupervised : Prop :=
  (∀ s v w, s.lan.alwaysOn = true → s.lan.refclk = true → s.lan.coreUp = true → s.lan.lowSince = none → s.lan.stopped = false → (w = true ∨ v < s.lan.vcoreSet * 94 / 100) →
    ∃ t, exec (.supplyLow v w) s = .next t ∧ t.lan.lowSince = some s.now ∧ t.lan.freezes = (s.lan.freezes + 1) % 2 ^ 32 ∧
      (∀ p, t.ory.prog = some p → p.inFlight = []) ∧ confined [.ory, .lan] s t) ∧
  (∀ s v n, s.lan.alwaysOn = true → s.lan.refclk = true → s.lan.lowSince = some n → s.lan.stopped = false → s.now ≤ n + 20000 → s.lan.vcoreSet * 94 / 100 ≤ v →
    ∃ t, exec (.supplyRecover v) s = .next t ∧ t.lan.lowSince = none ∧ t.lan.pwrWarn = false ∧
      t.lan.crashLog = (s.lan.crashLog ++ [faultRec s 0x0D 0xC3 0xFF 0 0 (s.now - n)]).drop (s.lan.crashLog.length + 1 - 64)) ∧
  (∀ s n, s.lan.alwaysOn = true → s.lan.refclk = true → s.lan.coreUp = true → s.lan.stopped = false → s.lan.lowSince = some n → n + 20000 ≤ s.now →
    ∃ t, exec .controlledStop s = .next t ∧ t.lan.stopped = true ∧ t.lan.stops = (s.lan.stops + 1) % 2 ^ 32 ∧
      t.lan.crashLog = (s.lan.crashLog ++ [faultRec { s with integ := t.integ } 0x0D 0xC3 0xFF 0 0 (s.now - n)]).drop (s.lan.crashLog.length + 1 - 64) ∧ t.t1 = s.t1) ∧
  (∀ s readings, readings.length = 24 → s.lan.alwaysOn = true → s.lan.refclk = true → s.lan.lastTemp + 1000 ≤ s.now →
    ∃ t, exec (.thermalSample readings) s = .next t ∧ t.lan.sensors = readings ∧ t.lan.lastTemp = s.now ∧ t.lan.tempMax = (hottest readings).1 ∧
      t.lan.tempSensor = (hottest readings).2 ∧ t.lan.warnCount = (if s.lan.tempMax < s.lan.warnLimit ∧ s.lan.warnLimit ≤ (hottest readings).1 then
        (s.lan.warnCount + 1) % 2 ^ 32 else s.lan.warnCount) ∧ confined [.lan] s t) ∧
  (∀ s, s.lan.alwaysOn = true → s.lan.refclk = true → s.lan.tripped = false → (∃ n ∈ s.lan.tripRun, 3 ≤ n) →
    ∃ t, exec .thermalTrip s = .next t ∧ inNight s t ∧
      ((∀ n < 4, (s.bay n).mode = .empty) → t.lan.thermtrip = true ∧ t.lan.tripped = true ∧ t.lan.tripCount = (s.lan.tripCount + 1) % 2 ^ 32)) ∧
  (∀ s ok v i, s.lan.alwaysOn = true → s.lan.refclk = true → s.lan.lastAvs + 1000 ≤ s.now → v < 2 ^ 16 → i < 2 ^ 16 →
    exec (.avsPoll ok v i) s = .next (s.lanM fun l => { l with lastAvs := s.now, vcoreRead := if ok then v else 0xFFFF, ioutRead := if ok then i else 0xFFFF }))

/-- 18 R669 to R675, Table 18-5: the Setting image is staged, verified, started and replicated. -/
def Obligations.ImagesDownloadedAndStarted : Prop :=
  (∀ s r, asks s r 0x1F00 3 1 → ∃ t, exec .imageStart s = .next t ∧ replied s t r 0 ∧ t.lan.staging = [] ∧ t.lan.imageOffset = 0 ∧ confined [.lan] s t) ∧
  (∀ s r v, asks s r 0x1F00 2 v → ∃ t, exec .imageData s = .next t ∧ replied s t r 0 ∧ t.lan.staging = s.lan.staging.writeN s.lan.imageOffset r.data ∧
    t.lan.imageOffset = s.lan.imageOffset + r.data.length ∧ confined [.lan] s t) ∧
  (∀ s r, asks s r 0x1F00 3 2 → ∃ t, exec .imageVerify s = .next t ∧ replied s t r 0 ∧ t.lan.imageOffset = 0xFFFFFFFF ∧
    t.lan.phase = .verifying s.lan.imageOffset false ∧ confined [.lan] s t) ∧
  (∀ s off, lanternUp s = true → s.lan.coreUp = true → s.lan.phase = .verifying off false →
    ∃ t, exec .verifyDone s = .next t ∧ t.lan.imageOffset = 0xFFFF0000 + verifyCode s off ∧
      t.lan.phase = (if verifyCode s off = 0 then .verified else .none) ∧ t.lan.staging = s.lan.staging ∧ confined [.lan] s t) ∧
  (∀ s r, asks s r 0x1F00 3 3 → ∃ t, exec .imageRun s = .next t ∧ replied s t r 0 ∧ t.lan.phase = .starting s.now ∧
    t.lan.fusedSvn = (if leNat (stagedBytes s 12 4) % 2 = 1 then max s.lan.fusedSvn (leNat (stagedBytes s 16 4)) else s.lan.fusedSvn) ∧
    t.lan.power = s.lan.power ∧ confined [.hbc, .lpc, .lan] s t) ∧
  (∀ s t0 hbm t2 sram, hbm.length = 8 → t2.length = 4 → lanternUp s = true → s.lan.coreUp = true → s.lan.phase = .starting t0 → s.now ≤ t0 + 60000000 →
    (hbm.all id = false ∨ sram = false ∨ tested s = true) → ∃ t, exec (.settingStartDone hbm t2 sram) s = .next t ∧
      (if hbm.all id = false then t.lan.imageOffset = 0xFFFF0010 ∧ t.lan.phase = .none ∧ t.lan.power = s.lan.power
       else if sram = false then t.lan.imageOffset = 0xFFFF0012 ∧ t.lan.phase = .none ∧ t.lan.power = s.lan.power
       else if s.lpe.mode = .exhausted then t.lan.imageOffset = 0xFFFF0011 ∧ t.lan.phase = .none ∧ t.lan.power = s.lan.power
       else t.lan.power = .active ∧ t.lan.phase = .running ∧ t.lan.image = stagedImage s ∧ t.lan.settingSvn = fieldAt (stagedImage s) 16 4 ∧
         t.lan.extentCount = 0 ∧ t.ory.enable = true)) ∧
  (∀ s t0, lanternUp s = true → s.lan.phase = .starting t0 → t0 + 60000001 ≤ s.now →
    ∃ t, exec .settingStartTimeout s = .next t ∧ t.lan.imageOffset = 0xFFFF0013 ∧ t.lan.phase = .none ∧ t.lan.power = s.lan.power ∧ confined [.lan] s t) ∧
  (∀ s r b, asks s r 0x1F00 3 0x10 → ∃ t, exec (.imageReplicate b) s = .next t ∧ replied s t r 0 ∧
    (∀ p, p < 64 → bitAt s.std.members p = true → bitAt b p = true → p ≠ ownPos s → ∃ d ∈ allDescs t, d.op = 5 ∧ d.peer = p ∧ d.dst = imageTarget) ∧
    confined [.extents, .cur, .lan] s t) ∧
  (∀ s p k x, lanternUp s = true → s.lan.coreUp = true → xferOf s p k = some x → x.op = 5 → x.target = imageTarget → x.total ≤ x.data.length →
    s.lan.power = .boot → starting s = false → x.total ≤ 3145728 → ∃ t, exec (.imageTransferReceive p k) s = .next t ∧
      t.lan.phase = .verifying (ceilDiv x.total 1024 * 1024) true ∧ t.lan.staging = Mem.writeN [] 0 (padTo (ceilDiv x.total 1024 * 1024) (x.data.take x.total)) ∧
      t.std.inXfers = s.std.inXfers.filter (fun y => !(y.peer == x.peer && y.num == x.num)) ∧ confined [.std, .lan] s t)

/-- 09 R360, R371 to R374, Table 9-11: a bay takes its coffer in and lets it go. -/
def Obligations.BaysEnteredAndLeft : Prop :=
  (∀ s n id ext, shaped s = true → n < 4 → (s.bay n).mode = .empty → s.lan.power ≠ .boot → s.lan.power ≠ .night → (s.bay n).coffer.isSome = id.isEmpty →
    ∃ t, exec (.bayPowerOn n id ext) s = .next t ∧ (t.bay n).mode = .powering ∧ (t.bay n).pwren = true ∧ (t.bay n).since = s.now ∧
      ((t.bay n).coffer.map (·.ident)) = (if id = [] then (s.bay n).coffer.map (·.ident) else some (padTo 1024 id)) ∧ confined [.bays, .lan] s t) ∧
  (∀ s n tr ch, ch.length = 16 → s.lan.refclk = true → shaped s = true → n < 4 → (s.bay n).mode = .powering → (s.bay n).since + 5000000 ≤ s.now →
    ∃ t, exec (.bayIdent n tr ch) s = .next t ∧ confined [.bays, .lan] s t ∧
      (if (((s.bay n).coffer.map (·.ident)).bind identCopy).isSome ∧ geometryOk s n ch = true ∧ tr = true then (t.bay n).mode = .mounting ∧ (t.bay n).pwren = (s.bay n).pwren
       else (t.bay n).mode = .failed ∧ (t.bay n).pwren = false)) ∧
  (∀ s n, shaped s = true → n < 4 → (s.bay n).mode = .mounting → (s.bay n).enable = true → serving s = true →
    ∃ t, exec (.mountDone n) s = .next t ∧ (t.bay n).mode = (if bitAt (identFld s n 113 1) 1 then .readOnly else .mounted) ∧ (t.bay n).pwren = (s.bay n).pwren) ∧
  (∀ s n, shaped s = true → n < 4 → (s.bay n).mode ≠ .empty → ∃ t, exec (.cofferRemoval n) s = .next t ∧ (t.bay n).mode = .empty ∧ (t.bay n).coffer = none ∧
    (t.bay n).pwren = false ∧ (t.bay n).present = none) ∧
  (∀ s n k, shaped s = true → n < 4 → ((s.bay n).mode = .mounted ∨ (s.bay n).mode = .readOnly) →
    ((k = 0 ∧ ∃ r, asks s r (0x3100 + n) 2 1) ∨ ((k = 1 ∨ k = 2) ∧ servedF s = true)) →
    ∃ t, exec (.cooperativeDetach n k) s = .next t ∧ (t.bay n).mode = .detaching ∧ (t.bay n).led = 1) ∧
  (∀ s n, s.lan.refclk = true → shaped s = true → n < 4 → (s.bay n).mode = .detaching → (s.bay n).blocked = true → (s.bay n).retryAt ≤ s.now →
    ∃ t, exec (.detachRetry n) s = .next t ∧ (t.bay n).mode = .detaching ∧ ((t.bay n).blocked = true → (t.bay n).retryAt = s.now + 100000000)) ∧
  (∀ s n, s.lan.refclk = true → shaped s = true → n < 4 → (s.bay n).mode = .detaching → detachReady s n = true →
    ∃ t, exec (.detachDone n) s = .next t ∧ (t.bay n).mode = .detached ∧ (t.bay n).pwren = false ∧ (t.bay n).led = 2 ∧ bitAt (t.bay n).event 6 = true) ∧
  (∀ s n r, shaped s = true → n < 4 → asks s r (0x3100 + n) 2 0xA5 → ∃ t, exec .forcedDetach s = .next t ∧ (t.bay n).mode = .detached ∧ (t.bay n).pwren = false)

/-- 09 R330, R357 to R365, R368; 13 R485: extents are sealed, flash is programmed, relocated, erased and read on patrol, and the HBM is scrubbed. -/
def Obligations.FlashAndScrubActed : Prop :=
  (∀ s n x e d, shaped s = true → n < 4 → s.lan.refclk = true → (allDescs s).find? (fun d => d.op == 2 && d.tier == 3 && d.bay == n && d.extent == x) = some d →
    d.sent = d.units → writeSealed s d = false → writable s n = true → (∀ k, d.purpose ≠ .coffer k) → s.extents.get? x = some e →
    ∃ t, exec (.extentSeal n x) s = .next t ∧ t.extents.get? x = some { e with sealed := true } ∧ confined [.extents, .bays] s t) ∧
  (∀ s n x d k c y, shaped s = true → n < 4 → s.lan.refclk = true → (allDescs s).find? (fun d => d.op == 2 && d.tier == 3 && d.bay == n && d.extent == x) = some d →
    d.sent = d.units → writeSealed s d = false → writable s n = true → d.purpose = .coffer k → (s.bay n).coffer = some c → c.extents.get? x = some y →
    ∃ t c', exec (.extentSeal n x) s = .next t ∧ (t.bay n).coffer = some c' ∧ c'.extents.get? x = some { y with sealed := true } ∧ confined [.bays] s t) ∧
  (∀ s n ch die blk row rest c, s.lan.refclk = true → shaped s = true → n < 4 → ch < 16 → (s.bay n).programs = (die * identFld s n 44 4 + blk, row) :: rest → (s.bay n).coffer = some c →
    ∃ t, exec (.programFail n ch die blk) s = .next t ∧ bitAt (t.bay n).event 4 = true ∧ confined [.bays, .lan] s t) ∧
  (∀ s n, s.lan.refclk = true → shaped s = true → n < 4 → (s.bay n).programs ≠ [] → ∃ t, exec (.programStatusPass n) s = .next t ∧ (t.bay n).programs = (s.bay n).programs.drop 1 ∧
    confined [.bays] s t) ∧
  (∀ s n k b u, s.lan.refclk = true → n < 4 → relocOk s n = true → (freeSbs s n).length < 8 → leastBy (fun b => (validUnits b, b.erase)) (closedSbs s n) = some (k, b) →
    relocate s n k = some u → exec (.garbageCollection n) s = .next u) ∧
  (∀ s n k u, shaped s = true → relocate s n k = some u → n < 4 → (u.bay n).erasing = some k ∧ confined [.bays] s u) ∧
  (∀ s n c k b u, s.lan.refclk = true → n < 4 → relocOk s n = true → (s.bay n).coffer = some c → leastBy (fun b => (b.erase, 0)) (closedSbs s n) = some (k, b) →
    (let counts := (((sbNums s n).drop 4).filter (fun k => (sbAt c k).state != .retired)).map (fun k => (sbAt c k).erase)
     identFld s n 48 4 / 20 < counts.foldl max 0 - counts.foldl min (counts.foldl max 0)) →
    relocate s n k = some u → exec (.wearLevel n) s = .next u) ∧
  (∀ s n k c, s.lan.refclk = true → shaped s = true → n < 4 → (s.bay n).erasing = some k → (s.bay n).coffer = some c →
    ∃ t d, exec (.blockEraseDone n true) s = .next t ∧ (t.bay n).erasing = none ∧ (t.bay n).coffer = some d ∧ (k ∉ (List.range 4).map (fun i => (sbNums s n).getD i 0) → sbAt d k = { erase := (sbAt c k).erase + 1 }) ∧
      d.journal.getLast? = some (.erase k ((sbAt c k).erase + 1)) ∧ confined [.bays, .lan] s t) ∧
  (∀ s n k b pg p c, s.lan.refclk = true → shaped s = true → n < 4 → ((s.bay n).mode = .mounted ∨ (s.bay n).mode = .readOnly) → (s.bay n).patrolEn = true →
    (s.bay n).coffer = some c → c.sbs.get? k = some b → (k, b) ∈ c.sbs → b.state = .closed →
    (∃ t d, exec (.patrolRead n k p pg true) s = .next t ∧ (t.bay n).lastPatrol = s.now ∧ (t.bay n).coffer = some d ∧
      d.sbs.get? k = some { b with reads := b.reads + 1, marked := b.marked || decide (75 < p) } ∧ (100 < p → bitAt (t.bay n).event 2 = true) ∧ confined [.bays] s t) ∧
    (100 < p → ∃ t, exec (.patrolRead n k p pg false) s = .next t ∧ bitAt (t.bay n).event 3 = true ∧
      t.extents = ((pageUnits c k pg).foldl (loseUnit n) s).extents ∧ confined [.extents, .bays] s t)) ∧
  (∀ s n c, s.lan.refclk = true → shaped s = true → n < 4 → 65536 ≤ (s.bay n).sinceCkpt → (s.bay n).coffer = some c →
    ∃ t d, exec (.journalCheckpoint n) s = .next t ∧ (t.bay n).sinceCkpt = 0 ∧ (t.bay n).coffer = some d ∧ d.journal.getLast? = some .checkpoint ∧
      confined [.bays] s t) ∧
  (∀ s n, shaped s = true → n < 4 → serving s = true → ((s.bay n).mode = .mounted ∨ (s.bay n).mode = .readOnly ∨ (s.bay n).mode = .detaching) →
    ∃ t, exec (.cofferCounterWrite n) s = .next t ∧ (t.bay n).lastCounters = s.now ∧ confined [.bays] s t) ∧
  (∀ s k b i o e w, o = b + i → k < 8 → s.lan.refclk = true → (s.hbc.getD k {}).mode = .ready → o < 2 ^ 32 → 16 * o < usable → e < 2 ^ 144 →
    classify (storedWord s (k * 2 ^ 32 + o) ^^^ e) = .corrected w →
    exec (.hbmScrub k b [(i, e)]) s = .next { s with
      t1 := s.t1.writeN (16 * (k * 2 ^ 32 + o)) (natLe 16 (w % 2 ^ 128)), integ := { s.integ with tarnishT1 := s.integ.tarnishT1.filter (· != k * 2 ^ 32 + o) }
      hbc := (s.hbc.modify k fun h => { h with lastScrub := s.now }).modify k fun h => { h with corr := (h.corr + 1) % 2 ^ 32 } }) ∧
  (∀ s k b i o e, o = b + i → k < 8 → s.lan.refclk = true → (s.hbc.getD k {}).mode = .ready → o < 2 ^ 32 → 16 * o < usable → e < 2 ^ 144 →
    classify (storedWord s (k * 2 ^ 32 + o) ^^^ e) = .uncorrectable →
    ∃ t, exec (.hbmScrub k b [(i, e)]) s = .next t ∧ k * 2 ^ 32 + o ∈ t.integ.tarnishT1 ∧ t.t1 = s.t1.clear (16 * (k * 2 ^ 32 + o)) (16 * (k * 2 ^ 32 + o) + 16) ∧
      t.hbc = (s.hbc.modify k fun h => { h with lastScrub := s.now }).modify k (fun h => { h with uncorr := (h.uncorr + 1) % 2 ^ 32, evUncorr := true }) ∧
      t.integ.tarnishMade = (s.integ.tarnishMade + 1) % 2 ^ 32 ∧ confined [.t1, .hbc, .integ, .lan] s t)

/-- The reset values that the register tables and the Almanac tables of 03 to 18 state (Tables 3-9, 3-15, 3-20, 5-12, 6-9, 7-15, 7-16, 9-14, 10-14, 11-6,
13-10, 13-11, 14-11, 15-16, 16-8, 16-10, 17-8, 17-12, 17-15, 18-1), as they stand right after power-on. -/
def Obligations.RegistersResetToStatedValues : Prop :=
  State.reset.ory.halt = true ∧ State.reset.ory.abftEn = true ∧ State.reset.ory.enable = false ∧ State.reset.ory.checkOff = false ∧
  State.reset.ory.tile = 0 ∧ State.reset.ory.spillBase = 0 ∧ State.reset.ory.spillLimit = 0 ∧ State.reset.ory.preempt = false ∧
  State.reset.ory.wait = 0 ∧ State.reset.ory.faultCell = 255 ∧ State.reset.ory.faultEpoch = 0 ∧ State.reset.ory.spillOver = false ∧
  State.reset.lpe.patrolEn = true ∧ State.reset.lpe.lastCol = 0 ∧ State.reset.lpe.epoch = 0 ∧
  State.reset.ast.dropEn = true ∧ State.reset.ast.enable = false ∧ State.reset.ast.walks = 0 ∧ State.reset.ast.lowater = 0 ∧
  State.reset.ast.drops = 0 ∧ State.reset.ast.redirects = 0 ∧
  State.reset.smp.lookaheadEn = true ∧ State.reset.smp.hostDraftEn = true ∧ State.reset.smp.enable = false ∧
  State.reset.smp.rows = 0 ∧ State.reset.smp.rootOnly = 0 ∧ State.reset.smp.lastFix = 0 ∧
  State.reset.fil.enable = false ∧ State.reset.fil.masks = 0 ∧ State.reset.fil.empty = 0 ∧ State.reset.fil.dead = 0 ∧
  State.reset.stm.enable = false ∧ State.reset.stm.packets = 0 ∧ State.reset.stm.late = 0 ∧ State.reset.stm.stops = 0 ∧
  State.reset.stm.sealTick = 0 ∧
  State.reset.cur.enable = false ∧ State.reset.cur.t2Size = 0 ∧ State.reset.cur.units = 0 ∧ State.reset.cur.abandoned = 0 ∧
  State.reset.cur.digestFail = 0 ∧
  State.reset.eph.alignEn = true ∧ State.reset.eph.enable = false ∧ State.reset.eph.event = 0 ∧ State.reset.eph.frame = 0 ∧
  State.reset.eph.meridian = 0 ∧ State.reset.eph.lateSteps = 0 ∧ State.reset.eph.overruns = 0 ∧ State.reset.eph.preempts = 0 ∧
  State.reset.eph.urgent = 0 ∧
  State.reset.traffic.sampleEn = 0 ∧ State.reset.traffic.ringBase = 0 ∧ State.reset.traffic.ringLog2 = 10 ∧
  State.reset.traffic.producer = 0 ∧ State.reset.traffic.watchCount = 0 ∧
  State.reset.integ.plannedEn = true ∧ State.reset.integ.isolateEn = true ∧ State.reset.integ.cell = 255 ∧
  State.reset.integ.attempt = 0 ∧ State.reset.integ.event = 0 ∧ State.reset.integ.transient = 0 ∧ State.reset.integ.permanent = 0 ∧
  State.reset.integ.staleMap = 0 ∧ State.reset.integ.logCount = 0 ∧ State.reset.integ.limit = 8 ∧ State.reset.integ.window = 100 ∧
  State.reset.ckpt.en = 0 ∧ State.reset.ckpt.captureBuf = 256 ∧ State.reset.ckpt.cofferBay = 255 ∧ State.reset.ckpt.lastCut = 0 ∧
  State.reset.ckpt.done = 0 ∧ State.reset.ckpt.skipped = 0 ∧ State.reset.ckpt.late = 0 ∧ State.reset.ckpt.abandoned = 0 ∧
  State.reset.hif.fetchEn = false ∧ State.reset.hif.event = 0 ∧ State.reset.hif.linkWidth = 0 ∧ State.reset.hif.linkUp = false ∧
  State.reset.hif.dropped = 0 ∧ State.reset.hif.keyStatus = 0 ∧
  State.reset.std.routeEn = false ∧ State.reset.std.tail = false ∧ State.reset.std.event = 0 ∧ State.reset.std.count = 0 ∧
  State.reset.std.epoch = 0 ∧ State.reset.std.members = 0 ∧ State.reset.std.hostMode = 0 ∧ State.reset.std.unroutable = 0 ∧
  State.reset.std.result = 0 ∧ State.reset.std.buddyOverride = 255 ∧ State.reset.std.timePort = 0 ∧ State.reset.std.chainOnly = 1 ∧
  State.reset.lan.lastReset = 0 ∧ State.reset.lan.resetCount = 0 ∧ State.reset.lan.wdtPeriod = 0 ∧ State.reset.lan.wdtAction = 1 ∧
  State.reset.lan.tripped = false ∧ State.reset.lan.vcoreSet = 780 ∧ State.reset.lan.powerReq = 0 ∧ State.reset.lan.sbFrames = 0 ∧
  State.reset.lan.mboxBusy = false ∧ State.reset.lan.mboxDone = false ∧ State.reset.lan.crashCount = 0 ∧
  State.reset.lan.quarantine = false ∧ State.reset.lan.configError = 0

/-- 02 R46: a packed-ternary byte b = d0 + 3·d1 + 9·d2 + 27·d3 + 81·d4 holds five digits; digit d decodes to the value d − 1; and weight index j of a
group is digit j mod 5 of byte ⌊j / 5⌋. -/
def Obligations.TernaryDigitsDecode : Prop :=
  (∀ (g : List Byte) (j d0 d1 d2 d3 d4 : Nat), d0 < 3 → d1 < 3 → d2 < 3 → d3 < 3 → d4 < 3 →
    g[j / 5]? = some (BitVec.ofNat 8 (d0 + 3 * d1 + 9 * d2 + 27 * d3 + 81 * d4)) →
    some (elemAt .ternary g j) = [d0, d1, d2, d3, d4][j % 5]?) ∧
  decElem .ternary 0 = .fin true 1 0 ∧ decElem .ternary 1 = .fin false 0 0 ∧ decElem .ternary 2 = .fin false 1 0

/-- 13 R478 to R483: a writer's codeword carries its data and reads back CLEAN; an error in one symbol of a valid codeword is corrected, an error in two is UNCORRECTABLE,
and a tarnished word reads as TARNISH and, with one further symbol in error, as UNCORRECTABLE. -/
def Obligations.CodewordsCorrectAndDetect : Prop :=
  (∀ d, d < 2 ^ 128 → encode d < 2 ^ 144 ∧ encode d % 2 ^ 128 = d ∧ syndrome (encode d) = (0, 0, 0, 0) ∧ classify (encode d) = .clean) ∧
  (∀ v s e, v < 2 ^ 144 → syndrome v = (0, 0, 0, 0) → s < 36 → 1 ≤ e → e < 16 → classify (fixSymbol v s e) = .corrected v) ∧
  (∀ v s t e f, v < 2 ^ 144 → syndrome v = (0, 0, 0, 0) → s < t → t < 36 → 1 ≤ e → e < 16 → 1 ≤ f → f < 16 →
    classify (fixSymbol (fixSymbol v s e) t f) = .uncorrectable) ∧
  (∀ v k, v < 2 ^ 144 → 1 ≤ k → k < 16 → syndrome v = gf4Scale k (0x1, 0x0, 0x4, 0xB) →
    classify v = .tarnish ∧ ∀ s e, s < 36 → 1 ≤ e → e < 16 → classify (fixSymbol v s e) = .uncorrectable) ∧
  syndrome tarnishWord = (0x1, 0x0, 0x4, 0xB)

/-- 03 R106 to R108, R112: the residue is the same for every way of writing a value and follows exact sums and products; a tile without faults passes both checks,
and an error of one block value, of a nonzero residue, fails the row check of its position and the column check of its output column. -/
def Obligations.ResidueChecksCatchErrors : Prop :=
  (∀ (a e : Int), residue { m := a, e := e } = (a % ((2 ^ 61 - 1 : Nat) : Int)).toNat * 2 ^ (e % 61).toNat % (2 ^ 61 - 1)) ∧
  (∀ (m : Int) (e : Int) (k : Nat), residue { m := m * 2 ^ k, e := e - k } = residue { m := m, e := e }) ∧
  (∀ x y : Sys2Proof.Machine.Dyadic, residue (dyAdd x y) = (residue x + residue y) % abftP ∧ residue (dyMul x y) = residue x * residue y % abftP) ∧
  (∀ (ws as : List (List Block)) (shape : List Nat), (∀ w ∈ ws, w.map (fun b => b.elems.length) = shape) → (∀ a ∈ as, a.map (fun b => b.elems.length) = shape) →
    abftFails ws as [] = (false, false) ∧
    ∀ x : BlockError, x.pos < as.length → x.lane < ws.length → residue { m := x.diff, e := x.exp } ≠ 0 →
      rowFails ws as [x] x.pos = true ∧ colFails ws as [x] x.lane = true)

/-- 09 R353, R356, R361: every page of a row of a superblock is the XOR of the row's 15 other pages, spare bytes included, so that the row rebuilds any one of them; and the
frame of a place reads back from its page, its 4,096 data bytes first. -/
def Obligations.RowParityRebuildsPages : Prop :=
  (∀ c k row ch, ch < 16 → (pageAt c k row ch).length = 18432 ∧
    pageAt c k row ch = ((List.range 16).filter (· != ch)).foldl (fun a x => xorBytes a (pageAt c k row x)) (zeros 18432)) ∧
  (∀ c k i, readFrame c k i = frameAt c k i) ∧
  (∀ c k i x u e, placeUnit (sbAt c k).pieces i = (x, u) → c.extents.get? x = some e → (readFrame c k i).take 4096 = bytesAt e.data (4096 * u) 4096)

/-- Every step from a sound state leads to a sound state: both byte memories keep their canonical form, the block keeps its 144 cells, 8 stacks, 4 LPDDR
controllers, 4 bays and 8 Sieve units, and the timebase stays a 64-bit counter. -/
def Obligations.StepsKeepSoundness : Prop :=
  ∀ s t, sound s = true → step s = .next t → sound t = true

/-- 00 R16: the timebase is zero after power-on; no other command but a failure of the always-on rails changes it, so no reset sets it back; while REFCLK is absent it holds,
and a tick never sets it back short of the counter's end. -/
def Obligations.TimebaseNeverSetBack : Prop :=
  State.reset.now = 0 ∧ (∀ s head, s.lan.alwaysOn = false → ∃ t, exec (.powerOn head) s = .next t ∧ t.now = 0) ∧
  (∀ c s t, exec c s = .next t → (∀ head, c ≠ .powerOn head) → c ≠ .alwaysOnRailFailure → t.now = s.now) ∧
  (∀ s head t, s.lan.alwaysOn = true → exec (.powerOn head) s = .next t → t.now = s.now) ∧
  (∀ s, s.pending = [] → s.lan.refclk = false → step s = .next s) ∧
  (∀ s t, s.pending = [] → s.now + 1 < 2 ^ 64 → step s = .next t → s.now ≤ t.now)

/-- A write of a run of bytes to a memory in canonical form is read back byte for byte, and every other address reads as before. -/
def Obligations.WrittenBytesReadBack : Prop :=
  ∀ (m : Mem) (a : Nat) (bs : List Byte), m.wf = true → (m.writeN a bs).wf = true ∧
    ∀ x, (m.writeN a bs).read x = if a ≤ x ∧ x < a + bs.length then bs.getD (x - a) 0#8 else m.read x

/-- 02 R70: FP32 values rank in numeric order, −0 equals +0, every NaN equals every other NaN and ranks below −infinity; scaled32 is a value times 2^149. -/
def Obligations.RankingFollowsNumericOrder : Prop :=
  ∀ a b : W32, rankLt a b = (match scaled32 a, scaled32 b with
    | none, none => false
    | none, some _ => true
    | some _, none => false
    | some x, some y => decide (x < y))

/-- 02 R75: the variate of an output word x is exactly ⌊x / 256⌋ × 2^−24 and lies in [0, 1), and the variates of one (step, purpose, node) take x0 to x3 of call 0, then of call 1, and so on. -/
def Obligations.UniformVariatesAreExact : Prop :=
  (∀ x, x < 2 ^ 32 → scaled32 (uniformOf x) = some (((x / 256 : Nat) : Int) * 2 ^ 125) ∧ ((x / 256 : Nat) : Int) * 2 ^ 125 < 2 ^ 149) ∧
  (∀ key step purpose node call k, k < 4 → drawWord key step purpose node (4 * call + k) =
    (philox key (step % 2 ^ 32) (purpose * 2 ^ 24 + node % 16 * 2 ^ 16 + step / 2 ^ 32 % 2 ^ 16) call 0).getD k 0)

/-- 13 R504: a cell-originated message under another map epoch is discarded without reply: INT_STALE_MAP increases, INT_EVENT.STALE_MAP is set and a fault record names
the sending station; one under the current epoch is accepted. -/
def Obligations.StaleMapMessagesDiscarded : Prop :=
  (∀ s cell epoch, s.lan.refclk = true → cell < 144 → (s.cell cell).state ≠ .retired → (s.cell cell).state ≠ .failed → epoch ≠ s.lpe.epoch →
    ∃ t, exec (.meshMessageReceive cell epoch) s = .next t ∧ t.integ.staleMap = wrapInc 32 s.integ.staleMap ∧ bitAt t.integ.event 5 = true ∧
      t.integ.log = (s.integ.log ++ [faultRec s 0x09 cell 0xFF 0 0 epoch]).drop (s.integ.log.length + 1 - 1024) ∧ t.integ.logCount = (s.integ.logCount + 1) % 2 ^ 64 ∧
      confined [.integ, .lan] s t) ∧
  (∀ s cell epoch, s.lan.refclk = true → cell < 144 → epoch = s.lpe.epoch → exec (.meshMessageReceive cell epoch) s = .next s)

/-- 11 R428: at every tick each bucket's level becomes min(level + rate, depth × 10^8), in hundred-millionths of a token. -/
def Obligations.TokensRefillAtTheirRate : Prop :=
  (∀ s, s.now = s.traffic.lastRefill + 1 → ∃ t, exec .tokenRefill s = .next t ∧ confined [.traffic] s t ∧ t.traffic.lastRefill = s.now ∧
    ∀ k b, s.traffic.tenants.get? k = some b → t.traffic.tenants.get? k = some { b with level := min (b.level + b.rate) (b.depth * 10 ^ 8) }) ∧
  (∀ s t u k b n, exec .tokenRefill s = .next t → s.traffic.tenants.get? k = some b → b.level ≤ b.depth * 10 ^ 8 → s.traffic.lastRefill ≤ s.now →
    exec .tokenRefill { t with now := s.now + n } = .next u →
    u.traffic.tenants.get? k = some { b with level := min (b.level + (s.now + n - s.traffic.lastRefill) * b.rate) (b.depth * 10 ^ 8) })
end

