-- ==== Sys2Proof/Laws/Memory.lean ====
section
/-!
SUPPORT. Sys2Proof/Laws/Memory.lean: the byte memory: a read after a write, and every memory operation keeps the canonical form.
-/
namespace Sys2Proof.Machine

theorem wfFrom_mono {lo lo' : Nat} {m : Mem} (h : lo' ≤ lo) (w : Mem.wfFrom lo m = true) : Mem.wfFrom lo' m = true := by
  cases m with
  | nil => rfl
  | cons c m =>
    obtain ⟨k, b⟩ := c
    simp only [Mem.wfFrom, Bool.and_eq_true, decide_eq_true_eq] at w ⊢
    exact ⟨⟨by omega, w.1.2⟩, w.2⟩

/-- The unlisted bytes below the first entry read as the default. -/
theorem read_below {lo a : Nat} {m : Mem} (w : Mem.wfFrom lo m = true) (h : a < lo) : Mem.read m a = memDefault := by
  cases m with
  | nil => rfl
  | cons c m =>
    obtain ⟨k, b⟩ := c
    simp only [Mem.wfFrom, Bool.and_eq_true, decide_eq_true_eq] at w
    simp only [Mem.read]
    rw [if_neg (by omega), if_pos (by omega)]

theorem write_wfFrom {lo : Nat} (m : Mem) (a : Nat) (v : Byte) (h : lo ≤ a) (w : Mem.wfFrom lo m = true) :
    Mem.wfFrom lo (Mem.write m a v) = true := by
  induction m generalizing lo with
  | nil => by_cases hv : v = memDefault <;> simp [Mem.write, hv, Mem.wfFrom, h]
  | cons c m ih =>
    obtain ⟨k, b⟩ := c
    simp only [Mem.wfFrom, Bool.and_eq_true, decide_eq_true_eq] at w
    obtain ⟨⟨hk, hb⟩, hm⟩ := w
    simp only [Mem.write]
    split
    · split
      · simp [Mem.wfFrom, hk, hb, hm]
      · rename_i h1 h2
        simp only [Mem.wfFrom, Bool.and_eq_true, decide_eq_true_eq]
        exact ⟨⟨h, h2⟩, ⟨by omega, hb⟩, hm⟩
    · split
      · split
        · exact wfFrom_mono (by omega) hm
        · rename_i h1 h2
          simp only [Mem.wfFrom, Bool.and_eq_true, decide_eq_true_eq]
          exact ⟨⟨hk, h2⟩, hm⟩
      · simp only [Mem.wfFrom, Bool.and_eq_true, decide_eq_true_eq]
        exact ⟨⟨hk, hb⟩, ih (by omega) hm⟩

/-- A write keeps the canonical form. -/
theorem write_wf {m : Mem} (a : Nat) (v : Byte) (w : Mem.wf m = true) : Mem.wf (Mem.write m a v) = true :=
  write_wfFrom m a v (Nat.zero_le a) w

/-- A write of a run keeps the canonical form. -/
theorem writeN_wf {m : Mem} (a : Nat) (bs : List Byte) (w : Mem.wf m = true) : Mem.wf (Mem.writeN m a bs) = true := by
  induction bs generalizing m a with
  | nil => exact w
  | cons b bs ih => exact ih (a + 1) (write_wf a b w)

/-- Clearing keeps the canonical form above a bound. -/
theorem filter_wfFrom {lo : Nat} (m : Mem) (p : Host.Cell → Bool) (w : Mem.wfFrom lo m = true) : Mem.wfFrom lo (m.filter p) = true := by
  induction m generalizing lo with
  | nil => rfl
  | cons c m ih =>
    obtain ⟨k, b⟩ := c
    simp only [Mem.wfFrom, Bool.and_eq_true, decide_eq_true_eq] at w
    obtain ⟨⟨hk, hb⟩, hm⟩ := w
    rw [List.filter_cons]
    split
    · simp only [Mem.wfFrom, Bool.and_eq_true, decide_eq_true_eq]
      exact ⟨⟨hk, hb⟩, ih hm⟩
    · exact wfFrom_mono (by omega) (ih hm)

/-- Clearing a range keeps the canonical form. -/
theorem clear_wf {m : Mem} (lo hi : Nat) (w : Mem.wf m = true) : Mem.wf (Mem.clear m lo hi) = true := filter_wfFrom m _ w

/-- Copying keeps the canonical form. -/
theorem copy_wf {m : Mem} (src dst n : Nat) (w : Mem.wf m = true) : Mem.wf (Mem.copy m src dst n) = true := writeN_wf _ _ w

/-- Several writes keep the canonical form. -/
theorem writes_wf {α : Type} (xs : List α) (at_ : α → Nat) (v : α → Byte) {m : Mem} (w : Mem.wf m = true) :
    Mem.wf (xs.foldl (fun m x => Mem.write m (at_ x) (v x)) m) = true := by
  induction xs generalizing m with
  | nil => exact w
  | cons x xs ih => exact ih (write_wf _ _ w)

/-- Copying from another memory keeps the canonical form. -/
theorem copyFrom_wf {m : Mem} (src : Mem) (a b n : Nat) (w : Mem.wf m = true) : Mem.wf (Mem.copyFrom m src a b n) = true := by
  exact writes_wf _ _ _ (clear_wf _ _ w)

/-- Clearing several ranges keeps the canonical form. -/
theorem clearAll_wf {α : Type} (xs : List α) (lo hi : α → Nat) {m : Mem} (w : Mem.wf m = true) :
    Mem.wf (xs.foldl (fun m x => Mem.clear m (lo x) (hi x)) m) = true := by
  induction xs generalizing m with
  | nil => exact w
  | cons x xs ih => exact ih (clear_wf _ _ w)

/-- A byte reads as the last write to it, and a write leaves every other byte alone. -/
theorem read_write_from {lo : Nat} (m : Mem) (a b : Nat) (v : Byte) (w : Mem.wfFrom lo m = true) :
    Mem.read (Mem.write m a v) b = if b = a then v else Mem.read m b := by
  induction m generalizing lo with
  | nil =>
    simp only [Mem.write, Mem.read]
    by_cases hv : v = memDefault
    · simp [hv, Mem.read]
    · by_cases e : b = a
      · subst e; simp [hv, Mem.read]
      · have : ¬ a = b := fun h => e h.symm
        simp [hv, Mem.read, e, this]
  | cons c m ih =>
    obtain ⟨k, x⟩ := c
    have w' := w
    simp only [Mem.wfFrom, Bool.and_eq_true, decide_eq_true_eq] at w'
    obtain ⟨⟨hk, hx⟩, hm⟩ := w'
    have low := fun (h : b < k + 1) => read_below hm h
    by_cases h1 : a < k
    · by_cases hv : v = memDefault
      · by_cases e : b = a
        · subst e
          have h2 : ¬ k = b := by omega
          simp [Mem.write, Mem.read, hv, h1, h2]
        · simp [Mem.write, hv, h1, e]
      · by_cases e : b = a
        · subst e; simp [Mem.write, Mem.read, hv, h1]
        · have h2 : ¬ a = b := fun h => e h.symm
          have h3 : b < a → ¬ k = b ∧ b < k := fun h => ⟨by omega, by omega⟩
          simp only [Mem.write, Mem.read, hv, h1, e, h2, if_true, if_false]
          split
          · rename_i h4; rw [if_neg (h3 h4).1, if_pos (h3 h4).2]
          · rfl
    · by_cases h2 : a = k
      · subst h2
        by_cases hv : v = memDefault
        · by_cases e : b = a
          · subst e; rw [if_pos rfl]; simp only [Mem.write, h1, hv, if_true, if_false]; exact low (by omega)
          · have h3 : ¬ a = b := fun h => e h.symm
            simp only [Mem.write, Mem.read, h1, hv, e, h3, if_true, if_false]
            split
            · exact low (by omega)
            · rfl
        · by_cases e : b = a
          · subst e; simp [Mem.write, Mem.read, hv]
          · have h3 : ¬ a = b := fun h => e h.symm
            simp [Mem.write, Mem.read, hv, e, h3]
      · simp only [Mem.write, h1, h2, if_false, Mem.read, ih hm]
        by_cases e : b = a
        · subst e
          have h4 : ¬ k = b := fun h => h2 h.symm
          simp [h1, h4]
        · simp [e]

/-- A byte reads as the last write to it, and a write leaves every other byte alone. -/
theorem read_write (m : Mem) (a b : Nat) (v : Byte) (w : Mem.wf m = true) :
    Mem.read (Mem.write m a v) b = if b = a then v else Mem.read m b := read_write_from m a b v w

end Sys2Proof.Machine
end

