-- ==== Sys2Proof/Laws/Steady.lean ====
section
/-!
SUPPORT. Sys2Proof/Laws/Steady.lean: the relation that every operation's frame lemma states, and how it goes through updates, folds and choices.
-/
namespace Sys2Proof.Machine

/-- What an operation can do at most: it changes only the listed parts, keeps both byte memories in canonical form,
and keeps the number of cells, stacks, controllers, bays and units. -/
structure Steady (l : List Part) (s t : State) : Prop where
  only : confined l s t
  t1 : s.t1.wf = true → t.t1.wf = true
  host : s.hostMem.wf = true → t.hostMem.wf = true
  cells : s.cells.length = 144 → t.cells.length = 144
  hbc : s.hbc.length = 8 → t.hbc.length = 8
  lpc : s.lpc.length = 4 → t.lpc.length = 4
  bays : s.bays.length = 4 → t.bays.length = 4
  sieves : s.sieves.length = 8 → t.sieves.length = 8

theorem Steady.refl {l : List Part} {s : State} : Steady l s s :=
  ⟨fun p _ => by cases p <;> rfl, id, id, id, id, id, id, id⟩

theorem agree_trans {p : Part} {s t u : State} (h : agree p s t) (k : agree p t u) : agree p s u := by
  cases p <;> exact Eq.trans k h

theorem Steady.chain {l m : List Part} {s t u : State} (h : Steady l s t) (k : Steady m t u) (hm : ∀ p ∈ m, p ∈ l) : Steady l s u :=
  ⟨fun p hp => agree_trans (h.only p hp) (k.only p (fun q => hp (hm p q))), fun w => k.t1 (h.t1 w), fun w => k.host (h.host w),
    fun w => k.cells (h.cells w), fun w => k.hbc (h.hbc w), fun w => k.lpc (h.lpc w), fun w => k.bays (h.bays w), fun w => k.sieves (h.sieves w)⟩

theorem Steady.ite {l : List Part} {s a b : State} {c : Prop} [Decidable c] (ha : Steady l s a) (hb : Steady l s b) :
    Steady l s (if c then a else b) := by
  split <;> assumption

theorem Steady.fold {α : Type} {l : List Part} {s t : State} {f : State → α → State} {xs : List α} (h : Steady l s t)
    (k : ∀ u a, Steady l u (f u a)) : Steady l s (xs.foldl f t) := by
  induction xs generalizing t with
  | nil => exact h
  | cons x xs ih => exact ih (h.chain (k t x) (fun _ q => q))

theorem Steady.foldPair {α β : Type} {l : List Part} {s : State} {q : State × β} {f : State × β → α → State × β} {xs : List α} (h : Steady l s q.1)
    (k : ∀ r a, Steady l r.1 (f r a).1) : Steady l s (xs.foldl f q).1 := by
  induction xs generalizing q with
  | nil => exact h
  | cons x xs ih => exact ih (h.chain (k q x) (fun _ q => q))

theorem Steady.iteFirst {β : Type} {l : List Part} {s : State} {a b : State × β} {c : Prop} [Decidable c] (ha : Steady l s a.1)
    (hb : Steady l s b.1) : Steady l s (if c then a else b).1 := by
  split <;> assumption

theorem Steady.orElse {l : List Part} {s d : State} {o : Option State} (h : ∀ t, o = some t → Steady l s t) (k : Steady l s d) :
    Steady l s (o.getD d) := by
  cases o with
  | none => exact k
  | some t => exact h t rfl

theorem Steady.choose {l : List Part} {s t u : State} {o : Option State} {c : Prop} {_ : Decidable c} (e : (if c then some u else o) = some t)
    (h : Steady l s u) (k : ∀ v, o = some v → Steady l s v) : Steady l s t := by
  split at e
  · cases e; exact h
  · exact k t e

theorem Steady.first {α : Type} {l : List Part} {s t : State} {q : State × α} {y : α} (e : q = (t, y)) (h : Steady l s q.1) : Steady l s t := by
  subst e; exact h

/-- A record update changes only the fields it names. -/
theorem Steady.update {l : List Part} {s0 s : State} {a_pending : List Instr} {a_now : Tick} {a_ory : Ory} {a_cells : List Cell} {a_lpe : Lpe} {a_parures : Tab Parure} {a_ast : Ast} {a_smp : Smp} {a_fil : Fil} {a_stm : Stm} {a_lockets : Tab Locket} {a_charms : Tab Charm} {a_facets : List Facet} {a_keys : Tab TenantKeys} {a_t1 : Mem} {a_extents : Tab Extent} {a_hbc : List Hbc} {a_lpc : List Lpc} {a_cur : Cur} {a_bays : List Bay} {a_eph : Eph} {a_traffic : Traffic} {a_colls : Tab Coll} {a_searches : List Search} {a_selects : List Select} {a_sieves : List Siv} {a_integ : Integ} {a_ckpt : Ckpt} {a_hif : Hif} {a_std : Std} {a_lan : Lan} {a_hostMem : Mem} {a_replies : List Reply}
    (h_pending : a_pending = s.pending ∨ Part.pending ∈ l)
    (h_now : a_now = s.now ∨ Part.now ∈ l)
    (h_ory : a_ory = s.ory ∨ Part.ory ∈ l)
    (h_cells : a_cells = s.cells ∨ (Part.cells ∈ l ∧ (s.cells.length = 144 → a_cells.length = 144)))
    (h_lpe : a_lpe = s.lpe ∨ Part.lpe ∈ l)
    (h_parures : a_parures = s.parures ∨ Part.parures ∈ l)
    (h_ast : a_ast = s.ast ∨ Part.ast ∈ l)
    (h_smp : a_smp = s.smp ∨ Part.smp ∈ l)
    (h_fil : a_fil = s.fil ∨ Part.fil ∈ l)
    (h_stm : a_stm = s.stm ∨ Part.stm ∈ l)
    (h_lockets : a_lockets = s.lockets ∨ Part.lockets ∈ l)
    (h_charms : a_charms = s.charms ∨ Part.charms ∈ l)
    (h_facets : a_facets = s.facets ∨ Part.facets ∈ l)
    (h_keys : a_keys = s.keys ∨ Part.keys ∈ l)
    (h_t1 : a_t1 = s.t1 ∨ (Part.t1 ∈ l ∧ (s.t1.wf = true → a_t1.wf = true)))
    (h_extents : a_extents = s.extents ∨ Part.extents ∈ l)
    (h_hbc : a_hbc = s.hbc ∨ (Part.hbc ∈ l ∧ (s.hbc.length = 8 → a_hbc.length = 8)))
    (h_lpc : a_lpc = s.lpc ∨ (Part.lpc ∈ l ∧ (s.lpc.length = 4 → a_lpc.length = 4)))
    (h_cur : a_cur = s.cur ∨ Part.cur ∈ l)
    (h_bays : a_bays = s.bays ∨ (Part.bays ∈ l ∧ (s.bays.length = 4 → a_bays.length = 4)))
    (h_eph : a_eph = s.eph ∨ Part.eph ∈ l)
    (h_traffic : a_traffic = s.traffic ∨ Part.traffic ∈ l)
    (h_colls : a_colls = s.colls ∨ Part.colls ∈ l)
    (h_searches : a_searches = s.searches ∨ Part.searches ∈ l)
    (h_selects : a_selects = s.selects ∨ Part.selects ∈ l)
    (h_sieves : a_sieves = s.sieves ∨ (Part.sieves ∈ l ∧ (s.sieves.length = 8 → a_sieves.length = 8)))
    (h_integ : a_integ = s.integ ∨ Part.integ ∈ l)
    (h_ckpt : a_ckpt = s.ckpt ∨ Part.ckpt ∈ l)
    (h_hif : a_hif = s.hif ∨ Part.hif ∈ l)
    (h_std : a_std = s.std ∨ Part.std ∈ l)
    (h_lan : a_lan = s.lan ∨ Part.lan ∈ l)
    (h_hostMem : a_hostMem = s.hostMem ∨ (Part.hostMem ∈ l ∧ (s.hostMem.wf = true → a_hostMem.wf = true)))
    (h_replies : a_replies = s.replies ∨ Part.replies ∈ l)
    (h : Steady l s0 s) : Steady l s0 (State.mk a_pending a_now a_ory a_cells a_lpe a_parures a_ast a_smp a_fil a_stm a_lockets a_charms a_facets a_keys a_t1 a_extents a_hbc a_lpc a_cur a_bays a_eph a_traffic a_colls a_searches a_selects a_sieves a_integ a_ckpt a_hif a_std a_lan a_hostMem a_replies) := by
  refine ⟨fun p hp => agree_trans (h.only p hp) ?_, fun w => ?_, fun w => ?_, fun w => ?_, fun w => ?_, fun w => ?_, fun w => ?_, fun w => ?_⟩
  · cases p
    · exact h_pending.elim id (fun q => absurd q hp)
    · exact h_now.elim id (fun q => absurd q hp)
    · exact h_ory.elim id (fun q => absurd q hp)
    · exact h_cells.elim id (fun q => absurd q.1 hp)
    · exact h_lpe.elim id (fun q => absurd q hp)
    · exact h_parures.elim id (fun q => absurd q hp)
    · exact h_ast.elim id (fun q => absurd q hp)
    · exact h_smp.elim id (fun q => absurd q hp)
    · exact h_fil.elim id (fun q => absurd q hp)
    · exact h_stm.elim id (fun q => absurd q hp)
    · exact h_lockets.elim id (fun q => absurd q hp)
    · exact h_charms.elim id (fun q => absurd q hp)
    · exact h_facets.elim id (fun q => absurd q hp)
    · exact h_keys.elim id (fun q => absurd q hp)
    · exact h_t1.elim id (fun q => absurd q.1 hp)
    · exact h_extents.elim id (fun q => absurd q hp)
    · exact h_hbc.elim id (fun q => absurd q.1 hp)
    · exact h_lpc.elim id (fun q => absurd q.1 hp)
    · exact h_cur.elim id (fun q => absurd q hp)
    · exact h_bays.elim id (fun q => absurd q.1 hp)
    · exact h_eph.elim id (fun q => absurd q hp)
    · exact h_traffic.elim id (fun q => absurd q hp)
    · exact h_colls.elim id (fun q => absurd q hp)
    · exact h_searches.elim id (fun q => absurd q hp)
    · exact h_selects.elim id (fun q => absurd q hp)
    · exact h_sieves.elim id (fun q => absurd q.1 hp)
    · exact h_integ.elim id (fun q => absurd q hp)
    · exact h_ckpt.elim id (fun q => absurd q hp)
    · exact h_hif.elim id (fun q => absurd q hp)
    · exact h_std.elim id (fun q => absurd q hp)
    · exact h_lan.elim id (fun q => absurd q hp)
    · exact h_hostMem.elim id (fun q => absurd q.1 hp)
    · exact h_replies.elim id (fun q => absurd q hp)
  · exact h_t1.elim (fun e => e ▸ h.t1 w) (fun q => q.2 (h.t1 w))
  · exact h_hostMem.elim (fun e => e ▸ h.host w) (fun q => q.2 (h.host w))
  · exact h_cells.elim (fun e => e ▸ h.cells w) (fun q => q.2 (h.cells w))
  · exact h_hbc.elim (fun e => e ▸ h.hbc w) (fun q => q.2 (h.hbc w))
  · exact h_lpc.elim (fun e => e ▸ h.lpc w) (fun q => q.2 (h.lpc w))
  · exact h_bays.elim (fun e => e ▸ h.bays w) (fun q => q.2 (h.bays w))
  · exact h_sieves.elim (fun e => e ▸ h.sieves w) (fun q => q.2 (h.sieves w))

/-- A named intermediate state. -/
theorem Steady.bind {l : List Part} {s v : State} {b : State → State} (h : Steady l s v) (k : ∀ x, Steady l s x → Steady l s (b x)) :
    Steady l s (let x := v; b x) := k v h

/-- A named intermediate pair of a state and a value. -/
theorem Steady.bindPair {α : Type} {l : List Part} {s : State} {v : State × α} {b : State × α → State} (h : Steady l s v.1)
    (k : ∀ x : State × α, Steady l s x.1 → Steady l s (b x)) : Steady l s (let x := v; b x) := k v h

/-- A named value. -/
theorem Steady.skip {α : Type} {l : List Part} {s : State} {v : α} {b : α → State} (k : ∀ x, Steady l s (b x)) : Steady l s (let x := v; b x) := k v

/-- The frame of an operation that may refuse: a state that it answers differs only in the listed parts. -/
structure Yields (l : List Part) (s : State) (o : Option State) : Prop where
  frame : ∀ {t}, o = some t → Steady l s t

theorem Yields.none {l : List Part} {s : State} : Yields l s none := ⟨fun e => by cases e⟩

theorem Yields.some {l : List Part} {s t : State} (h : Steady l s t) : Yields l s (some t) := ⟨fun e => by cases e; exact h⟩

theorem Yields.ite {l : List Part} {s : State} {c : Prop} [Decidable c] {a b : Option State} (ha : Yields l s a) (hb : Yields l s b) :
    Yields l s (if c then a else b) := by
  split <;> assumption

theorem Yields.map {α : Type} {l : List Part} {s : State} {o : Option α} {f : α → State} (h : ∀ r, o = Option.some r → Steady l s (f r)) :
    Yields l s (o.map f) := by
  cases o with
  | none => exact .none
  | some r => exact .some (h r rfl)

theorem Yields.bind {α : Type} {l : List Part} {s : State} {o : Option α} {f : α → Option State} (h : ∀ r, o = Option.some r → Yields l s (f r)) :
    Yields l s (o.bind f) := by
  cases o with
  | none => exact .none
  | some r => exact h r rfl

theorem Yields.chain {l m : List Part} {s t : State} {o : Option State} (h : Steady l s t) (k : Yields m t o) (hm : ∀ p ∈ m, p ∈ l) : Yields l s o :=
  ⟨fun e => h.chain (k.frame e) hm⟩

/-- The same for an operation that answers a state with a value. -/
structure Gives {α : Type} (l : List Part) (s : State) (o : Option (State × α)) : Prop where
  frame : ∀ {t y}, o = some (t, y) → Steady l s t

theorem Gives.none {α : Type} {l : List Part} {s : State} : Gives (α := α) l s none := ⟨fun e => by cases e⟩

theorem Gives.some {α : Type} {l : List Part} {s : State} {q : State × α} (h : Steady l s q.1) : Gives l s (some q) := ⟨fun e => by cases e; exact h⟩

theorem Gives.ite {α : Type} {l : List Part} {s : State} {c : Prop} [Decidable c] {a b : Option (State × α)} (ha : Gives l s a) (hb : Gives l s b) :
    Gives l s (if c then a else b) := by
  split <;> assumption

theorem Gives.chain {α : Type} {l m : List Part} {s t : State} {o : Option (State × α)} (h : Steady l s t) (k : Gives m t o) (hm : ∀ p ∈ m, p ∈ l) :
    Gives l s o :=
  ⟨fun e => h.chain (k.frame e) hm⟩

theorem Gives.map {α β : Type} {l : List Part} {s : State} {o : Option β} {f : β → State × α} (h : ∀ r, o = Option.some r → Steady l s (f r).1) :
    Gives l s (o.map f) := by
  cases o with
  | none => exact .none
  | some r => exact .some (h r rfl)

/-- A fold that may refuse. -/
theorem Gives.fold {α β : Type} {l : List Part} {s : State} {f : State × β → α → Option (State × β)} (k : ∀ a x, Gives l a.1 (f a x)) {xs : List α}
    {acc : Option (State × β)} (h : Gives l s acc) : Gives l s (xs.foldl (fun acc e => acc.bind (fun a => f a e)) acc) := by
  induction xs generalizing acc with
  | nil => exact h
  | cons x xs ih =>
    refine ih ?_
    cases acc with
    | none => exact .none
    | some q => exact .chain (h.frame (t := q.1) (y := q.2) rfl) (k q x) (fun _ q => q)

/-- The frame of an outcome: a next state that it answers differs only in the listed parts. -/
structure Moves (l : List Part) (s : State) (o : Out) : Prop where
  frame : ∀ t, o = .next t → Steady l s t

theorem Moves.next {l : List Part} {s t : State} (h : Steady l s t) : Moves l s (.next t) := ⟨fun u e => by cases e; exact h⟩

theorem Moves.fault {l : List Part} {s : State} {f : Fault} : Moves l s (.fault f) := ⟨fun u e => by cases e⟩

theorem Moves.ite {l : List Part} {s : State} {c : Prop} [Decidable c] {a b : Out} (ha : Moves l s a) (hb : Moves l s b) :
    Moves l s (if c then a else b) := by
  split <;> assumption

theorem Moves.chain {l m : List Part} {s t : State} {o : Out} (h : Steady l s t) (k : Moves m t o) (hm : ∀ p ∈ m, p ∈ l) : Moves l s o :=
  ⟨fun u e => h.chain (k.frame u e) hm⟩

theorem when_moves {l : List Part} {s t : State} {ok : Bool} (h : Steady l s t) : Moves l s (when ok s t) := by
  unfold when; exact Moves.ite (.next h) (.next .refl)

theorem formed_moves {l : List Part} {s : State} {ok : Bool} {o : Out} (h : Moves l s o) : Moves l s (formed ok o) := by
  unfold formed; exact Moves.ite h .fault

theorem clocked_moves {l : List Part} {s : State} {o : Out} (h : Moves l s o) : Moves l s (clocked s o) := by
  unfold clocked; exact Moves.ite h (.next .refl)

end Sys2Proof.Machine
end

