-- ==== Sys2Proof/Laws/Frames/Net.lean ====
section
/-!
SUPPORT. Sys2Proof/Laws/Frames/Net.lean: what each operation of Machine/Net.lean can change at most.
-/
namespace Sys2Proof.Machine

theorem State.hifM_steady (s : State) (f : Hif → Hif) : Steady [.hif] s (State.hifM s f) := by
  unfold State.hifM
  try dsimp only
  repeat' first
    | with_reducible apply Steady.refl
    | (with_reducible apply Steady.update <;> first | with_reducible exact Or.inl rfl | (apply Or.inr; decide) | (exact Or.inr ⟨by decide, fun h => by simpa using h⟩) | skip)

theorem State.stdM_steady (s : State) (f : Std → Std) : Steady [.std] s (State.stdM s f) := by
  unfold State.stdM
  try dsimp only
  repeat' first
    | with_reducible apply Steady.refl
    | (with_reducible apply Steady.update <;> first | with_reducible exact Or.inl rfl | (apply Or.inr; decide) | (exact Or.inr ⟨by decide, fun h => by simpa using h⟩) | skip)

theorem State.lanM_steady (s : State) (f : Lan → Lan) : Steady [.lan] s (State.lanM s f) := by
  unfold State.lanM
  try dsimp only
  repeat' first
    | with_reducible apply Steady.refl
    | (with_reducible apply Steady.update <;> first | with_reducible exact Or.inl rfl | (apply Or.inr; decide) | (exact Or.inr ⟨by decide, fun h => by simpa using h⟩) | skip)

theorem State.integM_steady (s : State) (f : Integ → Integ) : Steady [.integ] s (State.integM s f) := by
  unfold State.integM
  try dsimp only
  repeat' first
    | with_reducible apply Steady.refl
    | (with_reducible apply Steady.update <;> first | with_reducible exact Or.inl rfl | (apply Or.inr; decide) | (exact Or.inr ⟨by decide, fun h => by simpa using h⟩) | skip)

theorem State.curM_steady (s : State) (f : Cur → Cur) : Steady [.cur] s (State.curM s f) := by
  unfold State.curM
  try dsimp only
  repeat' first
    | with_reducible apply Steady.refl
    | (with_reducible apply Steady.update <;> first | with_reducible exact Or.inl rfl | (apply Or.inr; decide) | (exact Or.inr ⟨by decide, fun h => by simpa using h⟩) | skip)

theorem State.ephM_steady (s : State) (f : Eph → Eph) : Steady [.eph] s (State.ephM s f) := by
  unfold State.ephM
  try dsimp only
  repeat' first
    | with_reducible apply Steady.refl
    | (with_reducible apply Steady.update <;> first | with_reducible exact Or.inl rfl | (apply Or.inr; decide) | (exact Or.inr ⟨by decide, fun h => by simpa using h⟩) | skip)

theorem State.oryM_steady (s : State) (f : Ory → Ory) : Steady [.ory] s (State.oryM s f) := by
  unfold State.oryM
  try dsimp only
  repeat' first
    | with_reducible apply Steady.refl
    | (with_reducible apply Steady.update <;> first | with_reducible exact Or.inl rfl | (apply Or.inr; decide) | (exact Or.inr ⟨by decide, fun h => by simpa using h⟩) | skip)

theorem State.astM_steady (s : State) (f : Ast → Ast) : Steady [.ast] s (State.astM s f) := by
  unfold State.astM
  try dsimp only
  repeat' first
    | with_reducible apply Steady.refl
    | (with_reducible apply Steady.update <;> first | with_reducible exact Or.inl rfl | (apply Or.inr; decide) | (exact Or.inr ⟨by decide, fun h => by simpa using h⟩) | skip)

theorem State.ckptM_steady (s : State) (f : Ckpt → Ckpt) : Steady [.ckpt] s (State.ckptM s f) := by
  unfold State.ckptM
  try dsimp only
  repeat' first
    | with_reducible apply Steady.refl
    | (with_reducible apply Steady.update <;> first | with_reducible exact Or.inl rfl | (apply Or.inr; decide) | (exact Or.inr ⟨by decide, fun h => by simpa using h⟩) | skip)

theorem State.trafM_steady (s : State) (f : Traffic → Traffic) : Steady [.traffic] s (State.trafM s f) := by
  unfold State.trafM
  try dsimp only
  repeat' first
    | with_reducible apply Steady.refl
    | (with_reducible apply Steady.update <;> first | with_reducible exact Or.inl rfl | (apply Or.inr; decide) | (exact Or.inr ⟨by decide, fun h => by simpa using h⟩) | skip)

theorem State.locketM_steady (s : State) (h : Nat) (f : Locket → Locket) : Steady [.lockets] s (State.locketM s h f) := by
  unfold State.locketM
  try dsimp only
  repeat' first
    | with_reducible apply Steady.refl
    | (with_reducible apply Steady.update <;> first | with_reducible exact Or.inl rfl | (apply Or.inr; decide) | (exact Or.inr ⟨by decide, fun h => by simpa using h⟩) | skip)

theorem State.charmM_steady (s : State) (ci : Nat) (f : Charm → Charm) : Steady [.charms] s (State.charmM s ci f) := by
  unfold State.charmM
  try dsimp only
  repeat' first
    | with_reducible apply Steady.refl
    | (with_reducible apply Steady.update <;> first | with_reducible exact Or.inl rfl | (apply Or.inr; decide) | (exact Or.inr ⟨by decide, fun h => by simpa using h⟩) | skip)

theorem State.bayM_steady (s : State) (n : Nat) (f : Bay → Bay) : Steady [.bays] s (State.bayM s n f) := by
  unfold State.bayM
  try dsimp only
  repeat' first
    | with_reducible apply Steady.refl
    | (with_reducible apply Steady.update <;> first | with_reducible exact Or.inl rfl | (apply Or.inr; decide) | (exact Or.inr ⟨by decide, fun h => by simpa using h⟩) | skip)

theorem State.ctxM_steady (s : State) (c : Nat) (f : Ctx → Ctx) : Steady [.eph] s (State.ctxM s c f) := by
  unfold State.ctxM
  try dsimp only
  repeat' first
    | with_reducible apply Steady.refl
    | (with_reducible apply Steady.chain ?_ (State.ephM_steady _ _) ?sub; (case sub => decide))

theorem State.portM_steady (s : State) (n : Nat) (f : Port → Port) : Steady [.std] s (State.portM s n f) := by
  unfold State.portM
  try dsimp only
  repeat' first
    | with_reducible apply Steady.refl
    | (with_reducible apply Steady.chain ?_ (State.stdM_steady _ _) ?sub; (case sub => decide))

theorem stdEvent_steady (s : State) (b : Nat) : Steady [.std] s (stdEvent s b) := by
  unfold stdEvent
  try dsimp only
  repeat' first
    | with_reducible apply Steady.refl
    | (with_reducible apply Steady.chain ?_ (State.stdM_steady _ _) ?sub; (case sub => decide))

theorem unroutable_steady (s : State) : Steady [.std] s (unroutable s) := by
  unfold unroutable
  try dsimp only
  repeat' first
    | with_reducible apply Steady.refl
    | (with_reducible apply Steady.chain ?_ (stdEvent_steady _ _) ?sub; (case sub => decide))
    | (with_reducible apply Steady.chain ?_ (State.stdM_steady _ _) ?sub; (case sub => decide))

theorem sendFlit_steady (s : State) (f : Flit) : Steady [.std] s (sendFlit s f) := by
  unfold sendFlit
  try dsimp only
  repeat' first
    | with_reducible apply Steady.refl
    | (with_reducible apply Steady.chain ?_ (unroutable_steady _) ?sub; (case sub => decide))
    | (with_reducible apply Steady.chain ?_ (State.portM_steady _ _ _) ?sub; (case sub => decide))
    | with_reducible apply Steady.ite
    | split

theorem sendMsg_steady (s : State) (dest : Nat) (body : List Byte) : Steady [.std] s (sendMsg s dest body) := by
  unfold sendMsg
  try dsimp only
  repeat' first
    | with_reducible apply Steady.refl
    | (with_reducible apply Steady.chain ?_ (sendFlit_steady _ _) ?sub; (case sub => decide))

theorem sendPort_steady (s : State) (p : Nat) (body : List Byte) : Steady [.std] s (sendPort s p body) := by
  unfold sendPort
  try dsimp only
  repeat' first
    | with_reducible apply Steady.refl
    | (with_reducible apply Steady.chain ?_ (State.portM_steady _ _ _) ?sub; (case sub => decide))

theorem flood_steady (s : State) (except : Nat) (body : List Byte) : Steady [.std] s (flood s except body) := by
  unfold flood
  try dsimp only
  repeat' first
    | with_reducible apply Steady.refl
    | (with_reducible apply Steady.chain ?_ (sendPort_steady _ _ _) ?sub; (case sub => decide))
    | with_reducible apply Steady.ite
    | (with_reducible apply Steady.fold ?_ (fun _ _ => ?_); all_goals try dsimp only)

theorem startXfer_steady (s : State) (dest : Nat) (op : Nat) (target : Nat) (extent : Nat) (cookie : Nat) (tenant : Nat) (announce : Nat → List Byte) (data : List Byte) : Steady [.std] s (startXfer s dest op target extent cookie tenant announce data) := by
  unfold startXfer
  try dsimp only
  repeat' first
    | with_reducible apply Steady.refl
    | (with_reducible apply Steady.chain ?_ (State.stdM_steady _ _) ?sub; (case sub => decide))
    | (with_reducible apply Steady.chain ?_ (sendMsg_steady _ _ _) ?sub; (case sub => decide))
    | (with_reducible apply Steady.chain ?_ (sendFlit_steady _ _) ?sub; (case sub => decide))
    | (with_reducible apply Steady.fold ?_ (fun _ _ => ?_); all_goals try dsimp only)

theorem hostWrite_steady (s : State) (addr : Nat) (data : List Byte) : Steady [.std, .hostMem] s (hostWrite s addr data) := by
  unfold hostWrite
  try dsimp only
  repeat' first
    | with_reducible apply Steady.refl
    | (with_reducible apply Steady.chain ?_ (startXfer_steady _ _ _ _ _ _ _ _ _) ?sub; (case sub => decide))
    | with_reducible apply Steady.ite
    | (with_reducible apply Steady.update <;> first | with_reducible exact Or.inl rfl | (apply Or.inr; decide) | (exact Or.inr ⟨by decide, fun h => by simpa using h⟩) | skip)
    | exact Or.inr ⟨by decide, writeN_wf _ _⟩
    | exact Or.inr ⟨by decide, write_wf _ _⟩
    | exact Or.inr ⟨by decide, clear_wf _ _⟩
    | exact Or.inr ⟨by decide, copyFrom_wf _ _ _ _⟩
    | exact Or.inr ⟨by decide, clearAll_wf _ _ _⟩
    | exact Or.inr ⟨by decide, fun _ => rfl⟩

theorem hostFetch_steady (s : State) (addr : Nat) (n : Nat) : Steady [.std] s (hostFetch s addr n) := by
  unfold hostFetch
  try dsimp only
  repeat' first
    | with_reducible apply Steady.refl
    | (with_reducible apply Steady.chain ?_ (sendMsg_steady _ _ _) ?sub; (case sub => decide))
    | (with_reducible apply Steady.chain ?_ (State.stdM_steady _ _) ?sub; (case sub => decide))
    | with_reducible apply Steady.ite

theorem signal_steady (s : State) (v : Nat) : Steady [.hif, .std] s (signal s v) := by
  unfold signal
  try dsimp only
  repeat' first
    | with_reducible apply Steady.refl
    | (with_reducible apply Steady.chain ?_ (State.hifM_steady _ _) ?sub; (case sub => decide))
    | (with_reducible apply Steady.chain ?_ (sendMsg_steady _ _ _) ?sub; (case sub => decide))
    | with_reducible apply Steady.ite

theorem hifEvent_steady (s : State) (b : Nat) : Steady [.hif, .std] s (hifEvent s b) := by
  unfold hifEvent
  try dsimp only
  repeat' first
    | with_reducible apply Steady.refl
    | (with_reducible apply Steady.chain ?_ (State.hifM_steady _ _) ?sub; (case sub => decide))
    | (with_reducible apply Steady.chain ?_ (signal_steady _ _) ?sub; (case sub => decide))
    | with_reducible apply Steady.ite

theorem releaseHeld_steady (s : State) : Steady [.hif, .std] s (releaseHeld s) := by
  unfold releaseHeld
  try dsimp only
  repeat' first
    | with_reducible apply Steady.refl
    | (with_reducible apply Steady.chain ?_ (signal_steady _ _) ?sub; (case sub => decide))
    | (with_reducible apply Steady.chain ?_ (State.hifM_steady _ _) ?sub; (case sub => decide))
    | (with_reducible apply Steady.fold ?_ (fun _ _ => ?_); all_goals try dsimp only)

end Sys2Proof.Machine
end

