-- ==== Sys2Proof/Laws/Frames/Ops.lean ====
section
/-!
SUPPORT. Sys2Proof/Laws/Frames/Ops.lean: what each operation of Machine/Ops.lean can change at most.
-/
namespace Sys2Proof.Machine

theorem watch_steady (s : State) (index : Nat) (sub : Nat) (value : List Byte) : Steady [.lan] s (watch s index sub value) := by
  unfold watch
  try dsimp only
  repeat' first
    | with_reducible apply Steady.refl
    | (with_reducible apply Steady.chain ?_ (State.lanM_steady _ _) ?sub; (case sub => decide))
    | with_reducible apply Steady.ite

theorem setPower_steady (s : State) (p : Power) : Steady [.lan] s (setPower s p) := by
  unfold setPower
  try dsimp only
  repeat' first
    | with_reducible apply Steady.refl
    | (with_reducible apply Steady.chain ?_ (watch_steady _ _ _ _) ?sub; (case sub => decide))
    | (with_reducible apply Steady.chain ?_ (State.lanM_steady _ _) ?sub; (case sub => decide))
    | with_reducible apply Steady.ite

theorem setStd_steady (s : State) (m : StdMode) : Steady [.std, .lan] s (setStd s m) := by
  unfold setStd
  try dsimp only
  repeat' first
    | with_reducible apply Steady.refl
    | (with_reducible apply Steady.chain ?_ (watch_steady _ _ _ _) ?sub; (case sub => decide))
    | (with_reducible apply Steady.chain ?_ (State.stdM_steady _ _) ?sub; (case sub => decide))
    | with_reducible apply Steady.ite

theorem crashRecord_steady (s : State) (r : FaultRec) : Steady [.lan] s (crashRecord s r) := by
  unfold crashRecord
  try dsimp only
  repeat' first
    | with_reducible apply Steady.refl
    | (with_reducible apply Steady.chain ?_ (watch_steady _ _ _ _) ?sub; (case sub => decide))
    | (with_reducible apply Steady.chain ?_ (State.lanM_steady _ _) ?sub; (case sub => decide))

theorem logFault_steady (s : State) (kind : Nat) (station : Nat) (cell : Nat) (attempt : Nat) (object : Nat) (detail : Nat) : Steady [.integ, .lan] s (logFault s kind station cell attempt object detail) := by
  unfold logFault
  try dsimp only
  repeat' first
    | with_reducible apply Steady.refl
    | (with_reducible apply Steady.chain ?_ (State.integM_steady _ _) ?sub; (case sub => decide))
    | (with_reducible apply Steady.chain ?_ (crashRecord_steady _ _) ?sub; (case sub => decide))
    | with_reducible apply Steady.ite

theorem crashDirect_steady (s : State) (kind : Nat) (detail : Nat) : Steady [.lan] s (crashDirect s kind detail) := by
  unfold crashDirect
  try dsimp only
  repeat' first
    | with_reducible apply Steady.refl
    | (with_reducible apply Steady.chain ?_ (crashRecord_steady _ _) ?sub; (case sub => decide))

theorem intEvent_steady (s : State) (b : Nat) : Steady [.integ] s (intEvent s b) := by
  unfold intEvent
  try dsimp only
  repeat' first
    | with_reducible apply Steady.refl
    | (with_reducible apply Steady.chain ?_ (State.integM_steady _ _) ?sub; (case sub => decide))

theorem ephEvent_steady (s : State) (b : Nat) : Steady [.eph] s (ephEvent s b) := by
  unfold ephEvent
  try dsimp only
  repeat' first
    | with_reducible apply Steady.refl
    | (with_reducible apply Steady.chain ?_ (State.ephM_steady _ _) ?sub; (case sub => decide))

theorem cfcEvent_steady (s : State) (n : Nat) (b : Nat) : Steady [.bays] s (cfcEvent s n b) := by
  unfold cfcEvent
  try dsimp only
  repeat' first
    | with_reducible apply Steady.refl
    | (with_reducible apply Steady.chain ?_ (State.bayM_steady _ _ _) ?sub; (case sub => decide))

theorem State.ringM_steady (s : State) (r : Nat) (f : Ring → Ring) : Steady [.hif] s (State.ringM s r f) := by
  unfold State.ringM
  try dsimp only
  repeat' first
    | with_reducible apply Steady.refl
    | (with_reducible apply Steady.chain ?_ (State.hifM_steady _ _) ?sub; (case sub => decide))

theorem State.dlvM_steady (s : State) (t : Nat) (f : DlvGroup → DlvGroup) : Steady [.hif] s (State.dlvM s t f) := by
  unfold State.dlvM
  try dsimp only
  repeat' first
    | with_reducible apply Steady.refl
    | (with_reducible apply Steady.chain ?_ (State.hifM_steady _ _) ?sub; (case sub => decide))

theorem State.tenantM_steady (s : State) (t : Nat) (f : TenantTraffic → TenantTraffic) : Steady [.traffic] s (State.tenantM s t f) := by
  unfold State.tenantM
  try dsimp only
  repeat' first
    | with_reducible apply Steady.refl
    | (with_reducible apply Steady.chain ?_ (State.trafM_steady _ _) ?sub; (case sub => decide))

theorem complete_steady (s : State) (c : HCmd) (status : Nat) (r0 : Nat) (r1 : Nat) (step : Nat) : Steady [.hif] s (complete s c status r0 r1 step) := by
  unfold complete
  try dsimp only
  repeat' first
    | with_reducible apply Steady.refl
    | (with_reducible apply Steady.chain ?_ (State.hifM_steady _ _) ?sub; (case sub => decide))
    | with_reducible apply Steady.ite

theorem completeId_steady (s : State) (id : Nat) (status : Nat) (r0 : Nat) (r1 : Nat) (step : Nat) : Steady [.hif] s (completeId s id status r0 r1 step) := by
  unfold completeId
  try dsimp only
  repeat' first
    | with_reducible apply Steady.refl
    | (with_reducible apply Steady.chain ?_ (complete_steady _ _ _ _ _ _) ?sub; (case sub => decide))
    | split

theorem completeAll_steady (s : State) (ids : List Nat) (status : Nat) : Steady [.hif] s (completeAll s ids status) := by
  unfold completeAll
  try dsimp only
  repeat' first
    | with_reducible apply Steady.refl
    | (with_reducible apply Steady.chain ?_ (completeId_steady _ _ _ _ _ _) ?sub; (case sub => decide))
    | (with_reducible apply Steady.fold ?_ (fun _ _ => ?_); all_goals try dsimp only)

theorem takeCmd_gives (s : State) (id : Nat) (op : Nat) : Gives [.hif] s (takeCmd s id op) := by
  unfold takeCmd
  try dsimp only
  repeat' first
    | with_reducible apply Steady.refl
    | (with_reducible apply Steady.chain ?_ (State.hifM_steady _ _) ?sub; (case sub => decide))
    | exact Gives.none
    | with_reducible apply Gives.some
    | with_reducible apply Gives.ite
    | with_reducible apply Steady.ite
    | split

theorem hostCmd_moves {l : List Part} {s : State} {id op : Nat} {k : State → HCmd → State} (hm : ∀ p ∈ [Part.hif, Part.std], p ∈ l)
    (hk : ∀ t c, Steady l t (k t c)) : Moves l s (hostCmd s id op k) := by
  unfold hostCmd
  split
  · exact .next .refl
  · rename_i t c e
    have h : Steady l s t := Steady.refl.chain ((takeCmd_gives _ _ _).frame e) (fun p q => hm p (by revert p; decide))
    refine .next ?_
    split
    · exact h.chain (complete_steady _ _ _ _ _ _) (fun p q => hm p (by revert p; decide))
    · exact (h.chain (hostFetch_steady _ _ _) (fun p q => hm p (by revert p; decide))).chain (hk _ _) (fun _ q => q)

theorem refill_steady (s : State) : Steady [.traffic] s (refill s) := by
  unfold refill
  try dsimp only
  repeat' first
    | with_reducible apply Steady.refl
    | (with_reducible apply Steady.chain ?_ (State.trafM_steady _ _) ?sub; (case sub => decide))

theorem police_steady (s : State) (t : Nat) (c : Nat) : Steady [.traffic] s (police s t c).1 := by
  unfold police
  try dsimp only
  repeat' first
    | with_reducible apply Steady.refl
    | (with_reducible apply Steady.chain ?_ (State.tenantM_steady _ _ _) ?sub; (case sub => decide))
    | with_reducible apply Steady.ite
    | with_reducible apply Steady.iteFirst

theorem countWait_steady (s : State) (t : Nat) (w : Nat) : Steady [.eph] s (countWait s t w) := by
  unfold countWait
  try dsimp only
  repeat' first
    | with_reducible apply Steady.refl
    | (with_reducible apply Steady.chain ?_ (State.ephM_steady _ _) ?sub; (case sub => decide))

end Sys2Proof.Machine
end

