-- ==== Sys2Proof/Laws/Frames/Wfq.lean ====
section
/-!
SUPPORT. Sys2Proof/Laws/Frames/Wfq.lean: what each operation of Machine/Wfq.lean can change at most.
-/
namespace Sys2Proof.Machine

theorem wfqSelect_steady (s : State) (sched : Nat) (backlog : List Nat) (rFirst : Bool) : Steady [.traffic] s (wfqSelect s sched backlog rFirst).1 := by
  unfold wfqSelect
  try dsimp only
  repeat' first
    | with_reducible apply Steady.refl
    | (with_reducible apply Steady.chain ?_ (State.trafM_steady _ _) ?sub; (case sub => decide))

theorem wfqCharge_steady (s : State) (sched : Nat) (f : Nat) (c : Nat) (still : Bool) (rFirst : Bool) : Steady [.traffic] s (wfqCharge s sched f c still rFirst) := by
  unfold wfqCharge
  try dsimp only
  repeat' first
    | with_reducible apply Steady.refl
    | (with_reducible apply Steady.chain ?_ (State.trafM_steady _ _) ?sub; (case sub => decide))

theorem wfqReset_steady (s : State) : Steady [.traffic] s (wfqReset s) := by
  unfold wfqReset
  try dsimp only
  repeat' first
    | with_reducible apply Steady.refl
    | (with_reducible apply Steady.chain ?_ (State.trafM_steady _ _) ?sub; (case sub => decide))

end Sys2Proof.Machine
end

