-- ==== Sys2Proof/Laws/Frames/Entries.lean ====
section
/-!
SUPPORT. Sys2Proof/Laws/Frames/Entries.lean: what each operation of Machine/Entries.lean can change at most.
-/
namespace Sys2Proof.Machine

theorem entryWrite_steady (s : State) (i : Nat) (j : Nat) (v : Nat) : Steady [.traffic, .integ, .ckpt, .std, .lan] s (entryWrite s i j v) := by
  unfold entryWrite
  try dsimp only
  repeat' first
    | with_reducible apply Steady.refl
    | (with_reducible apply Steady.chain ?_ (State.lanM_steady _ _) ?sub; (case sub => decide))
    | (with_reducible apply Steady.chain ?_ (State.stdM_steady _ _) ?sub; (case sub => decide))
    | (with_reducible apply Steady.chain ?_ (State.ckptM_steady _ _) ?sub; (case sub => decide))
    | (with_reducible apply Steady.chain ?_ (State.trafM_steady _ _) ?sub; (case sub => decide))
    | (with_reducible apply Steady.chain ?_ (refill_steady _) ?sub; (case sub => decide))
    | (with_reducible apply Steady.chain ?_ (State.tenantM_steady _ _ _) ?sub; (case sub => decide))
    | (with_reducible apply Steady.chain ?_ (State.integM_steady _ _) ?sub; (case sub => decide))
    | with_reducible apply Steady.ite
    | split

theorem reply_steady (s : State) (r : Req) (act : Nat) (pdu : List Byte) : Steady [.lan] s (reply s r act pdu) := by
  unfold reply
  try dsimp only
  repeat' first
    | with_reducible apply Steady.refl
    | (with_reducible apply Steady.chain ?_ (State.lanM_steady _ _) ?sub; (case sub => decide))
    | with_reducible apply Steady.ite
    | split

theorem respond_steady (s : State) (r : Req) (result : Nat) : Steady [.lan] s (respond s r result) := by
  unfold respond
  try dsimp only
  repeat' first
    | with_reducible apply Steady.refl
    | (with_reducible apply Steady.chain ?_ (reply_steady _ _ _ _) ?sub; (case sub => decide))
    | (intro _; try dsimp only)
    | with_reducible apply Steady.orElse (fun _ _ => ?_)

theorem enqueueReq_steady (s : State) (r : Req) : Steady [.lan] s (enqueueReq s r) := by
  unfold enqueueReq
  try dsimp only
  repeat' first
    | with_reducible apply Steady.refl
    | (with_reducible apply Steady.chain ?_ (respond_steady _ _ _) ?sub; (case sub => decide))
    | (with_reducible apply Steady.chain ?_ (State.lanM_steady _ _) ?sub; (case sub => decide))
    | with_reducible apply Steady.ite

theorem mboxGo_steady (s : State) : Steady [.lan] s (mboxGo s) := by
  unfold mboxGo
  try dsimp only
  repeat' first
    | with_reducible apply Steady.refl
    | (with_reducible apply Steady.chain ?_ (enqueueReq_steady _ _) ?sub; (case sub => decide))
    | (with_reducible apply Steady.chain ?_ (State.lanM_steady _ _) ?sub; (case sub => decide))
    | with_reducible apply Steady.ite

end Sys2Proof.Machine
end

