-- ==== Sys2Proof/Laws/Frames/Extents.lean ====
section
/-!
SUPPORT. Sys2Proof/Laws/Frames/Extents.lean: what each operation of Machine/Extents.lean can change at most.
-/
namespace Sys2Proof.Machine

theorem guardWrite_steady (s : State) (u : Nat) : Steady [.lpc] s (guardWrite s u) := by
  unfold guardWrite
  try dsimp only
  repeat' first
    | with_reducible apply Steady.refl
    | (with_reducible apply Steady.update <;> first | with_reducible exact Or.inl rfl | (apply Or.inr; decide) | (exact Or.inr ⟨by decide, fun h => by simpa using h⟩) | skip)

theorem cofferM_steady (s : State) (n : Nat) (f : Coffer → Coffer) : Steady [.bays] s (cofferM s n f) := by
  unfold cofferM
  try dsimp only
  repeat' first
    | with_reducible apply Steady.refl
    | (with_reducible apply Steady.chain ?_ (State.bayM_steady _ _ _) ?sub; (case sub => decide))
    | (intro _; try dsimp only)

theorem journal_steady (s : State) (n : Nat) (r : JRec) : Steady [.bays] s (journal s n r) := by
  unfold journal
  try dsimp only
  repeat' first
    | with_reducible apply Steady.refl
    | (with_reducible apply Steady.chain ?_ (State.bayM_steady _ _ _) ?sub; (case sub => decide))
    | (with_reducible apply Steady.chain ?_ (cofferM_steady _ _ _) ?sub; (case sub => decide))
    | (intro _; try dsimp only)
    | with_reducible apply Steady.ite
    | with_reducible apply Steady.orElse (fun _ _ => ?_)

theorem mapImage_steady (s : State) (n : Nat) : Steady [.bays] s (mapImage s n) := by
  unfold mapImage
  try dsimp only
  repeat' first
    | with_reducible apply Steady.refl
    | (with_reducible apply Steady.chain ?_ (State.bayM_steady _ _ _) ?sub; (case sub => decide))
    | (with_reducible apply Steady.chain ?_ (journal_steady _ _ _) ?sub; (case sub => decide))

theorem putUnits_steady (s : State) (n ext : Nat) (reloc : Bool) (fuel first count : Nat) :
    Steady [.bays] s (putUnits s n ext reloc fuel first count).1 := by
  induction fuel generalizing s first count with
  | zero => exact Steady.refl
  | succ fuel ih =>
    unfold putUnits
    split
    · exact .refl
    · split
      · exact .refl
      · rename_i c hc
        dsimp only
        split
        · rename_i k b hk
          refine Steady.chain (m := [.bays]) ?_ (ih _ _ _) (by decide)
          repeat' first
            | with_reducible apply Steady.refl
            | (with_reducible apply Steady.chain ?_ (journal_steady _ _ _) ?sub; (case sub => decide))
            | (with_reducible apply Steady.chain ?_ (cofferM_steady _ _ _) ?sub; (case sub => decide))
            | (with_reducible apply Steady.chain ?_ (State.bayM_steady _ _ _) ?sub; (case sub => decide))
            | with_reducible apply Steady.ite
        · split
          · exact .refl
          · refine Steady.chain (m := [.bays]) ?_ (ih _ _ _) (by decide)
            repeat' first
              | with_reducible apply Steady.refl
              | (with_reducible apply Steady.chain ?_ (journal_steady _ _ _) ?sub; (case sub => decide))
              | (with_reducible apply Steady.chain ?_ (cofferM_steady _ _ _) ?sub; (case sub => decide))

theorem closeRow_steady (s : State) (n : Nat) (reloc : Bool) : Steady [.bays] s (closeRow s n reloc) := by
  unfold closeRow
  try dsimp only
  repeat' first
    | with_reducible apply Steady.refl
    | (with_reducible apply Steady.chain ?_ (putUnits_steady _ _ _ _ _ _ _) ?sub; (case sub => decide))
    | (intro _; try dsimp only)
    | (with_reducible apply Steady.first ?ee; (case ee => assumption))
    | split

theorem appendUnits_steady (s : State) (n : Nat) (ext : Nat) (reloc : Bool) (fuel : Nat) (first : Nat) (count : Nat) : Steady [.bays] s (appendUnits s n ext reloc fuel first count).1 := by
  unfold appendUnits
  try dsimp only
  repeat' first
    | with_reducible apply Steady.refl
    | (with_reducible apply Steady.chain ?_ (putUnits_steady _ _ _ _ _ _ _) ?sub; (case sub => decide))
    | (with_reducible apply Steady.chain ?_ (closeRow_steady _ _ _) ?sub; (case sub => decide))

theorem newExtentId_steady (s : State) : Steady [.lan] s (newExtentId s).1 := by
  unfold newExtentId
  try dsimp only
  repeat' first
    | with_reducible apply Steady.refl
    | (with_reducible apply Steady.chain ?_ (State.lanM_steady _ _) ?sub; (case sub => decide))

theorem openExtent_gives (s : State) (e : Extent) : Gives [.extents, .bays, .lan] s (openExtent s e) := by
  unfold openExtent
  try dsimp only
  repeat' first
    | with_reducible apply Steady.refl
    | (with_reducible apply Steady.chain ?_ (newExtentId_steady _) ?sub; (case sub => decide))
    | (with_reducible apply Steady.chain ?_ (cofferM_steady _ _ _) ?sub; (case sub => decide))
    | exact Gives.none
    | with_reducible apply Gives.some
    | with_reducible apply Gives.ite
    | with_reducible apply Steady.ite
    | (with_reducible apply Steady.first ?ee; (case ee => assumption))
    | split
    | (with_reducible apply Steady.update <;> first | with_reducible exact Or.inl rfl | (apply Or.inr; decide) | (exact Or.inr ⟨by decide, fun h => by simpa using h⟩) | skip)

theorem streamUnit_steady (s : State) (n : Nat) (id : Nat) (u : Nat) (e : Extent) : Steady [.bays] s (streamUnit s n id u e) := by
  unfold streamUnit
  try dsimp only
  repeat' first
    | with_reducible apply Steady.refl
    | (with_reducible apply Steady.chain ?_ (cofferM_steady _ _ _) ?sub; (case sub => decide))
    | (with_reducible apply Steady.chain ?_ (putUnits_steady _ _ _ _ _ _ _) ?sub; (case sub => decide))
    | (with_reducible apply Steady.chain ?_ (closeRow_steady _ _ _) ?sub; (case sub => decide))
    | with_reducible apply Steady.ite
    | with_reducible apply Steady.iteFirst

theorem writeUnit_steady (s : State) (id : Nat) (u : Nat) (b : List Byte) (tarn : List Nat) : Steady [.extents, .lpc, .bays] s (writeUnit s id u b tarn) := by
  unfold writeUnit
  try dsimp only
  repeat' first
    | with_reducible apply Steady.refl
    | (with_reducible apply Steady.chain ?_ (guardWrite_steady _ _) ?sub; (case sub => decide))
    | (with_reducible apply Steady.chain ?_ (streamUnit_steady _ _ _ _ _) ?sub; (case sub => decide))
    | with_reducible apply Steady.ite
    | split
    | (with_reducible apply Steady.update <;> first | with_reducible exact Or.inl rfl | (apply Or.inr; decide) | (exact Or.inr ⟨by decide, fun h => by simpa using h⟩) | skip)

theorem dropExtent_steady (s : State) (id : Nat) : Steady [.extents, .bays] s (dropExtent s id) := by
  unfold dropExtent
  try dsimp only
  repeat' first
    | with_reducible apply Steady.refl
    | (with_reducible apply Steady.chain ?_ (journal_steady _ _ _) ?sub; (case sub => decide))
    | (with_reducible apply Steady.chain ?_ (cofferM_steady _ _ _) ?sub; (case sub => decide))
    | with_reducible apply Steady.ite
    | split
    | (with_reducible apply Steady.update <;> first | with_reducible exact Or.inl rfl | (apply Or.inr; decide) | (exact Or.inr ⟨by decide, fun h => by simpa using h⟩) | skip)

theorem freeExtent_steady (s : State) (id : Nat) : Steady [.extents, .bays] s (freeExtent s id) := by
  unfold freeExtent
  try dsimp only
  repeat' first
    | with_reducible apply Steady.refl
    | (with_reducible apply Steady.chain ?_ (dropExtent_steady _ _) ?sub; (case sub => decide))
    | with_reducible apply Steady.ite
    | split
    | (with_reducible apply Steady.update <;> first | with_reducible exact Or.inl rfl | (apply Or.inr; decide) | (exact Or.inr ⟨by decide, fun h => by simpa using h⟩) | skip)

theorem sealOn_steady (s : State) (n : Nat) (id : Nat) (e : Extent) : Steady [.bays] s (sealOn s n id e) := by
  unfold sealOn
  try dsimp only
  repeat' first
    | with_reducible apply Steady.refl
    | (with_reducible apply Steady.chain ?_ (cofferM_steady _ _ _) ?sub; (case sub => decide))
    | (with_reducible apply Steady.chain ?_ (journal_steady _ _ _) ?sub; (case sub => decide))
    | (with_reducible apply Steady.chain ?_ (closeRow_steady _ _ _) ?sub; (case sub => decide))

theorem sealExtent_steady (s : State) (id : Nat) : Steady [.extents, .bays] s (sealExtent s id) := by
  unfold sealExtent
  try dsimp only
  repeat' first
    | with_reducible apply Steady.refl
    | (with_reducible apply Steady.chain ?_ (sealOn_steady _ _ _ _) ?sub; (case sub => decide))
    | with_reducible apply Steady.ite
    | split
    | (with_reducible apply Steady.update <;> first | with_reducible exact Or.inl rfl | (apply Or.inr; decide) | (exact Or.inr ⟨by decide, fun h => by simpa using h⟩) | skip)

theorem submit_steady (s : State) (d : Desc) : Steady [.extents, .cur] s (submit s d) := by
  unfold submit
  try dsimp only
  repeat' first
    | with_reducible apply Steady.refl
    | (with_reducible apply Steady.chain ?_ (State.curM_steady _ _) ?sub; (case sub => decide))
    | with_reducible apply Steady.ite
    | (with_reducible apply Steady.update <;> first | with_reducible exact Or.inl rfl | (apply Or.inr; decide) | (exact Or.inr ⟨by decide, fun h => by simpa using h⟩) | skip)

theorem endRead_steady (s : State) (d : Desc) : Steady [.extents, .bays] s (endRead s d) := by
  unfold endRead
  try dsimp only
  repeat' first
    | with_reducible apply Steady.refl
    | (with_reducible apply Steady.chain ?_ (dropExtent_steady _ _) ?sub; (case sub => decide))
    | with_reducible apply Steady.ite
    | split
    | (with_reducible apply Steady.update <;> first | with_reducible exact Or.inl rfl | (apply Or.inr; decide) | (exact Or.inr ⟨by decide, fun h => by simpa using h⟩) | skip)

theorem removeDesc_steady (s : State) (d : Desc) : Steady [.extents, .cur, .bays] s (removeDesc s d) := by
  unfold removeDesc
  try dsimp only
  repeat' first
    | with_reducible apply Steady.refl
    | (with_reducible apply Steady.chain ?_ (endRead_steady _ _) ?sub; (case sub => decide))
    | (with_reducible apply Steady.chain ?_ (State.curM_steady _ _) ?sub; (case sub => decide))

theorem writeRecord_steady (s : State) (d : Desc) (status : Nat) : Steady [.cur] s (writeRecord s d status) := by
  unfold writeRecord
  try dsimp only
  repeat' first
    | with_reducible apply Steady.refl
    | (with_reducible apply Steady.chain ?_ (State.curM_steady _ _) ?sub; (case sub => decide))

theorem undoWrite_steady (s : State) (d : Desc) : Steady [.extents, .bays] s (undoWrite s d) := by
  unfold undoWrite
  try dsimp only
  repeat' first
    | with_reducible apply Steady.refl
    | (with_reducible apply Steady.chain ?_ (cofferM_steady _ _ _) ?sub; (case sub => decide))
    | (with_reducible apply Steady.chain ?_ (dropExtent_steady _ _) ?sub; (case sub => decide))
    | (intro _; try dsimp only)
    | with_reducible apply Steady.ite
    | with_reducible apply Steady.orElse (fun _ _ => ?_)
    | split

theorem abandonDesc_steady (s : State) (d : Desc) : Steady [.extents, .cur, .bays] s (abandonDesc s d) := by
  unfold abandonDesc
  try dsimp only
  repeat' first
    | with_reducible apply Steady.refl
    | (with_reducible apply Steady.chain ?_ (writeRecord_steady _ _ _) ?sub; (case sub => decide))
    | (with_reducible apply Steady.chain ?_ (removeDesc_steady _ _) ?sub; (case sub => decide))
    | (with_reducible apply Steady.chain ?_ (undoWrite_steady _ _) ?sub; (case sub => decide))
    | (with_reducible apply Steady.chain ?_ (State.curM_steady _ _) ?sub; (case sub => decide))
    | with_reducible apply Steady.ite

theorem abandonFor_steady (s : State) (p : Purpose → Bool) : Steady [.extents, .cur, .bays] s (abandonFor s p) := by
  unfold abandonFor
  try dsimp only
  repeat' first
    | with_reducible apply Steady.refl
    | (with_reducible apply Steady.chain ?_ (abandonDesc_steady _ _) ?sub; (case sub => decide))
    | (with_reducible apply Steady.chain ?_ (State.curM_steady _ _) ?sub; (case sub => decide))
    | (with_reducible apply Steady.fold ?_ (fun _ _ => ?_); all_goals try dsimp only)

theorem takeDone_steady (s : State) (r : DescDone) : Steady [.cur] s (takeDone s r) := by
  unfold takeDone
  try dsimp only
  repeat' first
    | with_reducible apply Steady.refl
    | (with_reducible apply Steady.chain ?_ (State.curM_steady _ _) ?sub; (case sub => decide))

theorem consume_gives (s : State) (p : Purpose) : Gives [.cur] s (consume s p) := by
  unfold consume
  try dsimp only
  repeat' first
    | with_reducible apply Steady.refl
    | (with_reducible apply Steady.chain ?_ (takeDone_steady _ _) ?sub; (case sub => decide))
    | exact Gives.none
    | with_reducible apply Gives.some
    | with_reducible apply Gives.ite
    | (with_reducible apply Gives.map; try dsimp only)
    | (intro _; try dsimp only)
    | with_reducible apply Steady.ite

end Sys2Proof.Machine
end

