-- ==== Sys2Proof/Laws/Frames/Nand.lean ====
section
/-!
SUPPORT. Sys2Proof/Laws/Frames/Nand.lean: what each operation of Machine/Nand.lean can change at most.
-/
namespace Sys2Proof.Machine



end Sys2Proof.Machine
end

