-- ==== Sys2Proof/Laws/Frames/Frames.lean ====
section
/-!
SUPPORT. Sys2Proof/Laws/Frames/Frames.lean: what each operation of Machine/Frames.lean can change at most.
-/
namespace Sys2Proof.Machine

theorem useFrames_steady (s : State) (st : Nat) (fs : List Nat) (u : FrameUse) : Steady [.ast] s (useFrames s st fs u) := by
  unfold useFrames
  try dsimp only
  repeat' first
    | with_reducible apply Steady.refl
    | (with_reducible apply Steady.chain ?_ (State.astM_steady _ _) ?sub; (case sub => decide))
    | (with_reducible apply Steady.fold ?_ (fun _ _ => ?_); all_goals try dsimp only)

theorem releaseFrames_steady (s : State) (st : Nat) (fs : List Nat) : Steady [.ast] s (releaseFrames s st fs) := by
  unfold releaseFrames
  try dsimp only
  repeat' first
    | with_reducible apply Steady.refl
    | (with_reducible apply Steady.chain ?_ (State.astM_steady _ _) ?sub; (case sub => decide))
    | (with_reducible apply Steady.fold ?_ (fun _ _ => ?_); all_goals try dsimp only)

theorem tlbDropId_steady (s : State) (id : Nat) : Steady [.ast] s (tlbDropId s id) := by
  unfold tlbDropId
  try dsimp only
  repeat' first
    | with_reducible apply Steady.refl
    | (with_reducible apply Steady.chain ?_ (State.astM_steady _ _) ?sub; (case sub => decide))

theorem tlbDropPage_steady (s : State) (id : Nat) (vpn : Nat) : Steady [.ast] s (tlbDropPage s id vpn) := by
  unfold tlbDropPage
  try dsimp only
  repeat' first
    | with_reducible apply Steady.refl
    | (with_reducible apply Steady.chain ?_ (State.astM_steady _ _) ?sub; (case sub => decide))

theorem vacate_steady (s : State) (p : Pte) : Steady [.ast] s (vacate s p) := by
  unfold vacate
  try dsimp only
  repeat' first
    | with_reducible apply Steady.refl
    | (with_reducible apply Steady.chain ?_ (useFrames_steady _ _ _ _) ?sub; (case sub => decide))
    | (with_reducible apply Steady.chain ?_ (releaseFrames_steady _ _ _) ?sub; (case sub => decide))
    | with_reducible apply Steady.ite

theorem vacateAll_steady (s : State) (id : Nat) : Steady [.ast, .lockets] s (vacateAll s id) := by
  unfold vacateAll
  try dsimp only
  repeat' first
    | with_reducible apply Steady.refl
    | (with_reducible apply Steady.chain ?_ (vacate_steady _ _) ?sub; (case sub => decide))
    | (with_reducible apply Steady.chain ?_ (tlbDropId_steady _ _) ?sub; (case sub => decide))
    | (with_reducible apply Steady.chain ?_ (State.locketM_steady _ _ _) ?sub; (case sub => decide))
    | (with_reducible apply Steady.fold ?_ (fun _ _ => ?_); all_goals try dsimp only)
    | split

theorem dropPages_steady (s : State) (id : Nat) : Steady [.ast, .lockets] s (dropPages s id) := by
  unfold dropPages
  try dsimp only
  repeat' first
    | with_reducible apply Steady.refl
    | (with_reducible apply Steady.chain ?_ (vacate_steady _ _) ?sub; (case sub => decide))
    | (with_reducible apply Steady.chain ?_ (tlbDropPage_steady _ _ _) ?sub; (case sub => decide))
    | (with_reducible apply Steady.chain ?_ (State.locketM_steady _ _ _) ?sub; (case sub => decide))
    | with_reducible apply Steady.ite
    | (with_reducible apply Steady.fold ?_ (fun _ _ => ?_); all_goals try dsimp only)
    | (with_reducible apply Steady.foldPair ?_ (fun _ _ => ?_); all_goals try dsimp only)
    | with_reducible apply Steady.iteFirst
    | split

theorem dropSession_steady (s : State) (id : Nat) : Steady [.ast, .lockets] s (dropSession s id) := by
  unfold dropSession
  try dsimp only
  repeat' first
    | with_reducible apply Steady.refl
    | (with_reducible apply Steady.chain ?_ (State.astM_steady _ _) ?sub; (case sub => decide))
    | (with_reducible apply Steady.chain ?_ (dropPages_steady _ _) ?sub; (case sub => decide))

theorem dropUntil_steady (st n fuel : Nat) (s : State) : Steady [.ast, .lockets] s (dropUntil st n fuel s) := by
  induction fuel generalizing s with
  | zero => exact Steady.refl
  | succ fuel ih =>
    unfold dropUntil
    refine Steady.ite .refl ?_
    split
    · exact .refl
    · exact (dropSession_steady _ _).chain (ih _) (by decide)

theorem lowater_steady (s : State) : Steady [.ast] s (lowater s) := by
  unfold lowater
  try dsimp only
  repeat' first
    | with_reducible apply Steady.refl
    | (with_reducible apply Steady.chain ?_ (State.astM_steady _ _) ?sub; (case sub => decide))

theorem takeFree_steady (s : State) (st : Nat) (n : Nat) (u : FrameUse) : Steady [.ast] s (takeFree s st n u).1 := by
  unfold takeFree
  try dsimp only
  repeat' first
    | with_reducible apply Steady.refl
    | (with_reducible apply Steady.chain ?_ (lowater_steady _) ?sub; (case sub => decide))
    | (with_reducible apply Steady.chain ?_ (useFrames_steady _ _ _ _) ?sub; (case sub => decide))
    | with_reducible apply Steady.ite
    | with_reducible apply Steady.iteFirst

theorem takeFrames_steady (s : State) (st : Nat) (n : Nat) (u : FrameUse) : Steady [.ast, .lockets] s (takeFrames s st n u).1 := by
  unfold takeFrames
  try dsimp only
  repeat' first
    | with_reducible apply Steady.refl
    | (with_reducible apply Steady.chain ?_ (takeFree_steady _ _ _ _) ?sub; (case sub => decide))
    | (with_reducible apply Steady.chain ?_ (dropUntil_steady _ _ _ _) ?sub; (case sub => decide))
    | (with_reducible apply Steady.chain ?_ (lowater_steady _) ?sub; (case sub => decide))
    | with_reducible apply Steady.ite
    | with_reducible apply Steady.iteFirst

theorem copyByte_steady (s : State) (src : Nat) (dst : Nat) : Steady [.t1, .integ] s (copyByte s src dst) := by
  unfold copyByte
  try dsimp only
  repeat' first
    | with_reducible apply Steady.refl
    | (with_reducible apply Steady.chain ?_ (State.integM_steady _ _) ?sub; (case sub => decide))
    | with_reducible apply Steady.ite
    | (with_reducible apply Steady.update <;> first | with_reducible exact Or.inl rfl | (apply Or.inr; decide) | (exact Or.inr ⟨by decide, fun h => by simpa using h⟩) | skip)
    | exact Or.inr ⟨by decide, writeN_wf _ _⟩
    | exact Or.inr ⟨by decide, write_wf _ _⟩
    | exact Or.inr ⟨by decide, clear_wf _ _⟩
    | exact Or.inr ⟨by decide, copyFrom_wf _ _ _ _⟩
    | exact Or.inr ⟨by decide, clearAll_wf _ _ _⟩
    | exact Or.inr ⟨by decide, fun _ => rfl⟩

theorem copyRun_steady (s : State) (src dst n : Nat) : Steady [.t1, .integ] s (copyRun s src dst n) := by
  induction n generalizing s src dst with
  | zero => exact Steady.refl
  | succ n ih => unfold copyRun; exact (copyByte_steady _ _ _).chain (ih _ _ _) (by decide)

theorem t1Write_steady (s : State) (a : Nat) (data : List Byte) : Steady [.t1, .integ] s (t1Write s a data) := by
  unfold t1Write
  try dsimp only
  repeat' first
    | with_reducible apply Steady.refl
    | (with_reducible apply Steady.chain ?_ (State.integM_steady _ _) ?sub; (case sub => decide))
    | (with_reducible apply Steady.update <;> first | with_reducible exact Or.inl rfl | (apply Or.inr; decide) | (exact Or.inr ⟨by decide, fun h => by simpa using h⟩) | skip)
    | exact Or.inr ⟨by decide, writeN_wf _ _⟩
    | exact Or.inr ⟨by decide, write_wf _ _⟩
    | exact Or.inr ⟨by decide, clear_wf _ _⟩
    | exact Or.inr ⟨by decide, copyFrom_wf _ _ _ _⟩
    | exact Or.inr ⟨by decide, clearAll_wf _ _ _⟩
    | exact Or.inr ⟨by decide, fun _ => rfl⟩

theorem unitPut_steady (s : State) (e : Nat) (b : List Byte) (tarn : List Nat) : Steady [.t1, .integ] s (unitPut s e b tarn) := by
  unfold unitPut
  try dsimp only
  repeat' first
    | with_reducible apply Steady.refl
    | (with_reducible apply Steady.chain ?_ (State.integM_steady _ _) ?sub; (case sub => decide))
    | (with_reducible apply Steady.chain ?_ (t1Write_steady _ _ _) ?sub; (case sub => decide))
    | with_reducible apply Steady.ite

theorem freshPage_steady (s : State) (id : Nat) (vpn : Nat) (rec' : Bool) : Steady [.ast, .lockets, .t1] s (freshPage s id vpn rec') := by
  unfold freshPage
  try dsimp only
  repeat' first
    | with_reducible apply Steady.refl
    | (with_reducible apply Steady.chain ?_ (useFrames_steady _ _ _ _) ?sub; (case sub => decide))
    | (with_reducible apply Steady.chain ?_ (tlbDropPage_steady _ _ _) ?sub; (case sub => decide))
    | (with_reducible apply Steady.chain ?_ (State.locketM_steady _ _ _) ?sub; (case sub => decide))
    | with_reducible apply Steady.ite
    | split
    | (with_reducible apply Steady.update <;> first | with_reducible exact Or.inl rfl | (apply Or.inr; decide) | (exact Or.inr ⟨by decide, fun h => by simpa using h⟩) | skip)
    | exact Or.inr ⟨by decide, writeN_wf _ _⟩
    | exact Or.inr ⟨by decide, write_wf _ _⟩
    | exact Or.inr ⟨by decide, clear_wf _ _⟩
    | exact Or.inr ⟨by decide, copyFrom_wf _ _ _ _⟩
    | exact Or.inr ⟨by decide, clearAll_wf _ _ _⟩
    | exact Or.inr ⟨by decide, fun _ => rfl⟩

theorem redirect_steady (s : State) (id : Nat) (vpn : Nat) (p : Pte) : Steady [.ast, .lockets, .t1, .integ] s (redirect s id vpn p) := by
  unfold redirect
  try dsimp only
  repeat' first
    | with_reducible apply Steady.refl
    | (with_reducible apply Steady.chain ?_ (useFrames_steady _ _ _ _) ?sub; (case sub => decide))
    | (with_reducible apply Steady.chain ?_ (freshPage_steady _ _ _ _) ?sub; (case sub => decide))
    | (with_reducible apply Steady.chain ?_ (State.astM_steady _ _) ?sub; (case sub => decide))
    | (with_reducible apply Steady.chain ?_ (copyRun_steady _ _ _ _) ?sub; (case sub => decide))
    | (intro _; try dsimp only)
    | split

theorem readyPage_steady (s : State) (id : Nat) (rec' : Bool) (vpn : Nat) : Steady [.ast, .lockets, .t1, .integ] s (readyPage s id rec' vpn) := by
  unfold readyPage
  try dsimp only
  repeat' first
    | with_reducible apply Steady.refl
    | (with_reducible apply Steady.chain ?_ (freshPage_steady _ _ _ _) ?sub; (case sub => decide))
    | (with_reducible apply Steady.chain ?_ (redirect_steady _ _ _ _) ?sub; (case sub => decide))
    | with_reducible apply Steady.ite
    | split

theorem kvWriteGo_steady (id x : Nat) (bs : List Byte) (s : State) : Steady [.t1] s (kvWriteGo id x bs s) := by
  induction bs generalizing x s with
  | nil => exact Steady.refl
  | cons b bs ih =>
    unfold kvWriteGo
    split
    · exact ih _ _
    · rename_i a e
      refine Steady.chain (m := [.t1]) (t := { s with t1 := s.t1.write a b }) ?_ (ih _ _) (by decide)
      with_reducible apply Steady.update <;> first | with_reducible exact Or.inl rfl | skip
      · exact Or.inr ⟨by decide, write_wf _ _⟩
      · exact .refl

theorem kvWrite_steady (s : State) (id : Nat) (rec' : Bool) (x : Nat) (data : List Byte) : Steady [.ast, .lockets, .t1, .integ] s (kvWrite s id rec' x data) := by
  unfold kvWrite
  try dsimp only
  repeat' first
    | with_reducible apply Steady.refl
    | (with_reducible apply Steady.chain ?_ (readyPage_steady _ _ _ _) ?sub; (case sub => decide))
    | (with_reducible apply Steady.chain ?_ (kvWriteGo_steady _ _ _ _) ?sub; (case sub => decide))
    | (with_reducible apply Steady.chain ?_ (State.locketM_steady _ _ _) ?sub; (case sub => decide))
    | with_reducible apply Steady.ite
    | (with_reducible apply Steady.fold ?_ (fun _ _ => ?_); all_goals try dsimp only)

theorem ownLook_steady (img : List Byte) (h : Nat) (l' : Locket) (s : State) (vpn : Nat) : Steady [.ast] s (ownLook img h l' s vpn).1 := by
  unfold ownLook
  try dsimp only
  repeat' first
    | with_reducible apply Steady.refl
    | (with_reducible apply Steady.chain ?_ (State.astM_steady _ _) ?sub; (case sub => decide))

theorem replicaLook_steady (ci : Nat) (st : Nat) (m : Charm) (s : State) (vpn : Nat) : Steady [.ast] s (replicaLook ci st m s vpn).1 := by
  unfold replicaLook
  try dsimp only
  repeat' first
    | with_reducible apply Steady.refl
    | (with_reducible apply Steady.chain ?_ (State.astM_steady _ _) ?sub; (case sub => decide))

theorem looks_steady {α : Type} {l : List Part} {s0 s : State} (f : State → α → State × Bool) (xs : List α) (h : Steady l s0 s)
    (k : ∀ t x, Steady l t (f t x).1) : Steady l s0 (looks f s xs).1 := by
  unfold looks
  exact Steady.foldPair h fun r a => k r.1 a

end Sys2Proof.Machine
end

