-- ==== Sys2Proof/Laws/Frames/Colls.lean ====
section
/-!
SUPPORT. Sys2Proof/Laws/Frames/Colls.lean: what each operation of Machine/Colls.lean can change at most.
-/
namespace Sys2Proof.Machine

theorem takeSpread_steady (s : State) (n : Nat) (u : FrameUse) : Steady [.ast, .lockets] s (takeSpread s n u).1 := by
  have go : ∀ (l : List Nat) (a : State × Bool × List (List Nat)), Steady [.ast, .lockets] s a.1 →
      Steady [.ast, .lockets] s (l.foldl (fun (a : State × Bool × List (List Nat)) st =>
        if a.2.1 then
          match takeFrames a.1 st ((n + 7 - st) / 8) u with
          | (s, some fs) => (s, true, a.2.2 ++ [fs])
          | (s, none) => (s, false, a.2.2)
        else a) a).1 := by
    intro l
    induction l with
    | nil => exact fun a h => h
    | cons st l ih =>
      intro a h
      refine ih _ ?_
      dsimp only
      split
      · have k := h.chain (takeFrames_steady a.1 st ((n + 7 - st) / 8) u) (by decide)
        split
        · rename_i e; exact Steady.first e k
        · rename_i e; exact Steady.first e k
      · exact h
  have h := go (List.range 8) (s, true, []) .refl
  unfold takeSpread
  dsimp only
  split
  · exact h
  · refine Steady.fold h fun t e => ?_
    exact Steady.refl.chain (releaseFrames_steady _ _ _) (by decide)

theorem dropAny_steady (n fuel : Nat) (s : State) : Steady [.ast, .lockets] s (dropAny n fuel s) := by
  induction fuel generalizing s with
  | zero => exact Steady.refl
  | succ fuel ih =>
    unfold dropAny
    refine Steady.ite .refl ?_
    split
    · exact .refl
    · exact (dropSession_steady _ _).chain (ih _) (by decide)

theorem takeAny_steady (s : State) (n : Nat) (u : FrameUse) : Steady [.ast, .lockets] s (takeAny s n u).1 := by
  have h1 : Steady [.ast, .lockets] s (dropAny n s.lockets.length s) := Steady.refl.chain (dropAny_steady _ _ _) (by decide)
  unfold takeAny
  dsimp only
  split
  · refine Steady.chain (m := [.ast, .lockets]) ?_ (Steady.refl.chain (lowater_steady _) (by decide)) (by decide)
    refine Steady.foldPair h1 fun q st => ?_
    exact Steady.refl.chain (useFrames_steady _ _ _ _) (by decide)
  · exact h1.chain (lowater_steady _) (by decide)

theorem returnKeys_steady (s : State) (keys : List Nat) : Steady [.ast] s (returnKeys s keys) := by
  unfold returnKeys
  try dsimp only
  repeat' first
    | with_reducible apply Steady.refl
    | (with_reducible apply Steady.chain ?_ (releaseFrames_steady _ _ _) ?sub; (case sub => decide))
    | (with_reducible apply Steady.fold ?_ (fun _ _ => ?_); all_goals try dsimp only)

theorem returnSpread_steady (s : State) (frames : List Nat) : Steady [.ast] s (returnSpread s frames) := by
  unfold returnSpread
  try dsimp only
  repeat' first
    | with_reducible apply Steady.refl
    | (with_reducible apply Steady.chain ?_ (releaseFrames_steady _ _ _) ?sub; (case sub => decide))
    | (with_reducible apply Steady.fold ?_ (fun _ _ => ?_); all_goals try dsimp only)
    | (with_reducible apply Steady.foldPair ?_ (fun _ _ => ?_); all_goals try dsimp only)

end Sys2Proof.Machine
end

