-- ==== Sys2Proof/Laws/Frames/Regs.lean ====
section
/-!
SUPPORT. Sys2Proof/Laws/Frames/Regs.lean: what each operation of Machine/Regs.lean can change at most.
-/
namespace Sys2Proof.Machine

theorem readOry_steady (s : State) (o : Nat) : Steady [.ory] s (readOry s o).1 := by
  unfold readOry
  try dsimp only
  repeat' first
    | with_reducible apply Steady.refl
    | (with_reducible apply Steady.chain ?_ (State.oryM_steady _ _) ?sub; (case sub => decide))
    | with_reducible apply Steady.ite
    | with_reducible apply Steady.iteFirst

theorem readAst_steady (s : State) (o : Nat) : Steady [.ast] s (readAst s o).1 := by
  unfold readAst
  try dsimp only
  repeat' first
    | with_reducible apply Steady.refl
    | (with_reducible apply Steady.chain ?_ (State.astM_steady _ _) ?sub; (case sub => decide))
    | with_reducible apply Steady.ite
    | with_reducible apply Steady.iteFirst

theorem readSmp_steady (s : State) (o : Nat) : Steady [.smp] s (readSmp s o).1 := by
  unfold readSmp
  try dsimp only
  repeat' first
    | with_reducible apply Steady.refl
    | with_reducible apply Steady.ite
    | with_reducible apply Steady.iteFirst
    | (with_reducible apply Steady.update <;> first | with_reducible exact Or.inl rfl | (apply Or.inr; decide) | (exact Or.inr ⟨by decide, fun h => by simpa using h⟩) | skip)

theorem readFil_steady (s : State) (o : Nat) : Steady [.fil] s (readFil s o).1 := by
  unfold readFil
  try dsimp only
  repeat' first
    | with_reducible apply Steady.refl
    | with_reducible apply Steady.ite
    | with_reducible apply Steady.iteFirst
    | (with_reducible apply Steady.update <;> first | with_reducible exact Or.inl rfl | (apply Or.inr; decide) | (exact Or.inr ⟨by decide, fun h => by simpa using h⟩) | skip)

theorem readStm_steady (s : State) (o : Nat) : Steady [.stm] s (readStm s o).1 := by
  unfold readStm
  try dsimp only
  repeat' first
    | with_reducible apply Steady.refl
    | with_reducible apply Steady.ite
    | with_reducible apply Steady.iteFirst
    | (with_reducible apply Steady.update <;> first | with_reducible exact Or.inl rfl | (apply Or.inr; decide) | (exact Or.inr ⟨by decide, fun h => by simpa using h⟩) | skip)

theorem readCur_steady (s : State) (o : Nat) : Steady [.cur] s (readCur s o).1 := by
  unfold readCur
  try dsimp only
  repeat' first
    | with_reducible apply Steady.refl
    | (with_reducible apply Steady.chain ?_ (State.curM_steady _ _) ?sub; (case sub => decide))
    | with_reducible apply Steady.ite
    | (with_reducible apply Steady.fold ?_ (fun _ _ => ?_); all_goals try dsimp only)
    | (with_reducible apply Steady.foldPair ?_ (fun _ _ => ?_); all_goals try dsimp only)
    | with_reducible apply Steady.iteFirst

theorem readCfc_steady (s : State) (o : Nat) : Steady [.bays] s (readCfc s o).1 := by
  unfold readCfc
  try dsimp only
  repeat' first
    | with_reducible apply Steady.refl
    | (with_reducible apply Steady.chain ?_ (State.bayM_steady _ _ _) ?sub; (case sub => decide))
    | with_reducible apply Steady.ite
    | with_reducible apply Steady.iteFirst

theorem readSiv_steady (s : State) (o : Nat) : Steady [.sieves] s (readSiv s o).1 := by
  unfold readSiv
  try dsimp only
  repeat' first
    | with_reducible apply Steady.refl
    | with_reducible apply Steady.ite
    | with_reducible apply Steady.iteFirst
    | (with_reducible apply Steady.update <;> first | with_reducible exact Or.inl rfl | (apply Or.inr; decide) | (exact Or.inr ⟨by decide, fun h => by simpa using h⟩) | skip)

theorem readEph_steady (s : State) (o : Nat) : Steady [.eph] s (readEph s o).1 := by
  unfold readEph
  try dsimp only
  repeat' first
    | with_reducible apply Steady.refl
    | (with_reducible apply Steady.chain ?_ (State.ephM_steady _ _) ?sub; (case sub => decide))
    | (intro _; try dsimp only)
    | with_reducible apply Steady.ite
    | with_reducible apply Steady.iteFirst
    | with_reducible apply Steady.orElse (fun _ _ => ?_)

theorem readInt_steady (s : State) (o : Nat) : Steady [.integ] s (readInt s o).1 := by
  unfold readInt
  try dsimp only
  repeat' first
    | with_reducible apply Steady.refl
    | (with_reducible apply Steady.chain ?_ (State.integM_steady _ _) ?sub; (case sub => decide))
    | with_reducible apply Steady.ite
    | with_reducible apply Steady.iteFirst

theorem readStd_steady (s : State) (o : Nat) : Steady [.std] s (readStd s o).1 := by
  unfold readStd
  try dsimp only
  repeat' first
    | with_reducible apply Steady.refl
    | (with_reducible apply Steady.chain ?_ (State.stdM_steady _ _) ?sub; (case sub => decide))
    | (intro _; try dsimp only)
    | with_reducible apply Steady.ite
    | with_reducible apply Steady.iteFirst
    | with_reducible apply Steady.orElse (fun _ _ => ?_)

theorem read32_steady (s : State) (off : Nat) : Steady [.ory, .ast, .smp, .fil, .stm, .cur, .bays, .eph, .sieves, .integ, .std] s (read32 s off).1 := by
  unfold read32
  dsimp only
  repeat' first
    | with_reducible exact Steady.refl
    | with_reducible apply Steady.ite
    | (rw [apply_ite Prod.fst])
    | exact Steady.refl.chain (readOry_steady _ _) (by decide)
    | exact Steady.refl.chain (readAst_steady _ _) (by decide)
    | exact Steady.refl.chain (readSmp_steady _ _) (by decide)
    | exact Steady.refl.chain (readFil_steady _ _) (by decide)
    | exact Steady.refl.chain (readStm_steady _ _) (by decide)
    | exact Steady.refl.chain (readCur_steady _ _) (by decide)
    | exact Steady.refl.chain (readCfc_steady _ _) (by decide)
    | exact Steady.refl.chain (readSiv_steady _ _) (by decide)
    | exact Steady.refl.chain (readEph_steady _ _) (by decide)
    | exact Steady.refl.chain (readInt_steady _ _) (by decide)
    | exact Steady.refl.chain (readStd_steady _ _) (by decide)

end Sys2Proof.Machine
end

