-- ==== Sys2Proof/Laws/Frames/Pages.lean ====
section
/-!
SUPPORT. Sys2Proof/Laws/Frames/Pages.lean: what each operation of Machine/Pages.lean can change at most.
-/
namespace Sys2Proof.Machine

theorem bar2Read_steady (s : State) (x : Nat) (n : Nat) : Steady [.hif, .std] s (bar2Read s x n).1 := by
  unfold bar2Read
  try dsimp only
  repeat' first
    | with_reducible apply Steady.refl
    | (with_reducible apply Steady.chain ?_ (hifEvent_steady _ _) ?sub; (case sub => decide))
    | with_reducible apply Steady.ite
    | with_reducible apply Steady.iteFirst

theorem dropWrite_steady (s : State) : Steady [.hif, .std] s (dropWrite s) := by
  unfold dropWrite
  try dsimp only
  repeat' first
    | with_reducible apply Steady.refl
    | (with_reducible apply Steady.chain ?_ (hifEvent_steady _ _) ?sub; (case sub => decide))
    | (with_reducible apply Steady.chain ?_ (State.hifM_steady _ _) ?sub; (case sub => decide))

theorem bar2Write_steady (s : State) (x : Nat) (data : List Byte) : Steady [.lockets, .hif, .std] s (bar2Write s x data) := by
  unfold bar2Write
  try dsimp only
  repeat' first
    | with_reducible apply Steady.refl
    | (with_reducible apply Steady.chain ?_ (State.locketM_steady _ _ _) ?sub; (case sub => decide))
    | (with_reducible apply Steady.chain ?_ (dropWrite_steady _) ?sub; (case sub => decide))
    | with_reducible apply Steady.ite
    | split

theorem apertureWrite_steady (s : State) (r : Nat) (off : Nat) (data : List Byte) : Steady [.lockets, .hif, .std] s (apertureWrite s r off data) := by
  unfold apertureWrite
  try dsimp only
  repeat' first
    | with_reducible apply Steady.refl
    | (with_reducible apply Steady.chain ?_ (State.locketM_steady _ _ _) ?sub; (case sub => decide))
    | (with_reducible apply Steady.chain ?_ (dropWrite_steady _) ?sub; (case sub => decide))
    | with_reducible apply Steady.ite
    | split

theorem bar0Read_steady (s : State) (off : Nat) (n : Nat) : Steady [.ory, .ast, .smp, .fil, .stm, .cur, .bays, .eph, .sieves, .integ, .std] s (bar0Read s off n).1 := by
  unfold bar0Read
  try dsimp only
  repeat' first
    | with_reducible apply Steady.refl
    | (with_reducible apply Steady.chain ?_ (read32_steady _ _) ?sub; (case sub => decide))
    | with_reducible apply Steady.ite
    | with_reducible apply Steady.iteFirst
    | (with_reducible apply Steady.first ?ee; (case ee => assumption))
    | split

theorem answer_steady {l : List Part} {s : State} {r : State × Reply} (hm : ∀ p ∈ [Part.replies], p ∈ l) (h : Steady l s r.1) :
    Steady l s (answer r) := by
  unfold answer
  refine h.chain (m := [.replies]) ?_ hm
  with_reducible apply Steady.update <;> first | with_reducible exact Or.inl rfl | (apply Or.inr; decide) | skip
  exact Steady.refl

end Sys2Proof.Machine
end

