-- ==== Sys2Proof/Laws/Frames/HostIf.lean ====
section
/-!
SUPPORT. Sys2Proof/Laws/Frames/HostIf.lean: what each operation of Machine/HostIf.lean can change at most.
-/
namespace Sys2Proof.Machine

theorem refuseCmd_steady (s : State) (c : HCmd) (status : Nat) (r0 : Nat) (r1 : Nat) : Steady [.hif] s (refuseCmd s c status r0 r1) := by
  unfold refuseCmd
  try dsimp only
  repeat' first
    | with_reducible apply Steady.refl
    | (with_reducible apply Steady.chain ?_ (complete_steady _ _ _ _ _ _) ?sub; (case sub => decide))
    | (with_reducible apply Steady.chain ?_ (State.hifM_steady _ _) ?sub; (case sub => decide))

theorem unpinReplicas_steady (s : State) (pin : Nat) : Steady [.charms] s (unpinReplicas s pin) := by
  unfold unpinReplicas
  try dsimp only
  repeat' first
    | with_reducible apply Steady.refl
    | with_reducible apply Steady.ite
    | with_reducible apply Steady.iteFirst
    | (with_reducible apply Steady.update <;> first | with_reducible exact Or.inl rfl | (apply Or.inr; decide) | (exact Or.inr ⟨by decide, fun h => by simpa using h⟩) | skip)

theorem State.replicaM_steady (s : State) (ci : Nat) (st : Nat) (f : Replica → Replica) : Steady [.charms] s (State.replicaM s ci st f) := by
  unfold State.replicaM
  try dsimp only
  repeat' first
    | with_reducible apply Steady.refl
    | (with_reducible apply Steady.chain ?_ (State.charmM_steady _ _ _) ?sub; (case sub => decide))

theorem pinReplica_steady (s : State) (ci : Nat) (st : Nat) (pin : Nat) : Steady [.charms] s (pinReplica s ci st pin) := by
  unfold pinReplica
  try dsimp only
  repeat' first
    | with_reducible apply Steady.refl
    | (with_reducible apply Steady.chain ?_ (State.replicaM_steady _ _ _ _) ?sub; (case sub => decide))
    | with_reducible apply Steady.ite

theorem noteAccept_steady (s : State) (c : HCmd) : Steady [.lockets, .charms] s (noteAccept s c) := by
  unfold noteAccept
  try dsimp only
  repeat' first
    | with_reducible apply Steady.refl
    | (with_reducible apply Steady.chain ?_ (State.locketM_steady _ _ _) ?sub; (case sub => decide))
    | (with_reducible apply Steady.chain ?_ (pinReplica_steady _ _ _ _) ?sub; (case sub => decide))
    | (intro _; try dsimp only)
    | with_reducible apply Steady.ite
    | split

theorem accept_steady (s : State) (r : Nat) (desc : List Byte) : Steady [.lockets, .charms, .traffic, .hif, .std] s (accept s r desc) := by
  unfold accept
  try dsimp only
  repeat' first
    | with_reducible apply Steady.refl
    | (with_reducible apply Steady.chain ?_ (State.hifM_steady _ _) ?sub; (case sub => decide))
    | (with_reducible apply Steady.chain ?_ (police_steady _ _ _) ?sub; (case sub => decide))
    | (with_reducible apply Steady.chain ?_ (refill_steady _) ?sub; (case sub => decide))
    | (with_reducible apply Steady.chain ?_ (refuseCmd_steady _ _ _ _ _) ?sub; (case sub => decide))
    | (with_reducible apply Steady.chain ?_ (hifEvent_steady _ _) ?sub; (case sub => decide))
    | (with_reducible apply Steady.chain ?_ (noteAccept_steady _ _) ?sub; (case sub => decide))
    | (with_reducible apply Steady.chain ?_ (complete_steady _ _ _ _ _ _) ?sub; (case sub => decide))
    | (with_reducible apply Steady.chain ?_ (State.ringM_steady _ _ _) ?sub; (case sub => decide))
    | with_reducible apply Steady.ite
    | (with_reducible apply Steady.first ?ee; (case ee => assumption))
    | split

theorem execDescriptorFetch_moves (ring : Nat) (desc : List Byte) (s : State) : Moves [.lockets, .charms, .traffic, .hif, .std, .hostMem] s (execDescriptorFetch ring desc s) := by
  unfold execDescriptorFetch
  try dsimp only
  repeat' first
    | with_reducible apply Steady.refl
    | (with_reducible apply Steady.chain ?_ (State.hifM_steady _ _) ?sub; (case sub => decide))
    | (with_reducible apply Steady.chain ?_ (hostFetch_steady _ _ _) ?sub; (case sub => decide))
    | (with_reducible apply Steady.chain ?_ (State.ringM_steady _ _ _) ?sub; (case sub => decide))
    | (with_reducible apply Steady.chain ?_ (hostWrite_steady _ _ _) ?sub; (case sub => decide))
    | (with_reducible apply Steady.chain ?_ (accept_steady _ _ _) ?sub; (case sub => decide))
    | with_reducible apply formed_moves
    | with_reducible apply when_moves
    | with_reducible apply Moves.ite
    | with_reducible apply Steady.ite

theorem execNop_moves (id : Nat) (s : State) : Moves [.hif, .std] s (execNop id s) := by
  unfold execNop
  try dsimp only
  repeat' first
    | with_reducible apply Steady.refl
    | (with_reducible apply hostCmd_moves ?sub ?_; (case sub => decide))
    | (with_reducible apply Steady.chain ?_ (complete_steady _ _ _ _ _ _) ?sub; (case sub => decide))
    | (intro _; try dsimp only)

theorem execFence_moves (id : Nat) (s : State) : Moves [.hif, .std] s (execFence id s) := by
  unfold execFence
  try dsimp only
  repeat' first
    | with_reducible apply Steady.refl
    | (with_reducible apply hostCmd_moves ?sub ?_; (case sub => decide))
    | (intro _; try dsimp only)

theorem execFenceDone_moves (id : Nat) (s : State) : Moves [.hif] s (execFenceDone id s) := by
  unfold execFenceDone
  try dsimp only
  repeat' first
    | with_reducible apply Steady.refl
    | (with_reducible apply Steady.chain ?_ (complete_steady _ _ _ _ _ _) ?sub; (case sub => decide))
    | with_reducible apply clocked_moves
    | with_reducible apply when_moves
    | with_reducible apply Moves.next
    | split

theorem sqTailWrite_steady (s : State) (ring : Nat) (value : Nat) : Steady [.hif, .std] s (sqTailWrite s ring value) := by
  unfold sqTailWrite
  try dsimp only
  repeat' first
    | with_reducible apply Steady.refl
    | (with_reducible apply Steady.chain ?_ (State.ringM_steady _ _ _) ?sub; (case sub => decide))
    | (with_reducible apply Steady.chain ?_ (hifEvent_steady _ _) ?sub; (case sub => decide))
    | with_reducible apply Steady.ite

theorem cqHeadWrite_steady (s : State) (ring : Nat) (value : Nat) : Steady [.hif, .std] s (cqHeadWrite s ring value) := by
  unfold cqHeadWrite
  try dsimp only
  repeat' first
    | with_reducible apply Steady.refl
    | (with_reducible apply Steady.chain ?_ (State.ringM_steady _ _ _) ?sub; (case sub => decide))
    | (with_reducible apply Steady.chain ?_ (hifEvent_steady _ _) ?sub; (case sub => decide))
    | with_reducible apply Steady.ite

theorem execSqTail_moves (ring : Nat) (value : Nat) (s : State) : Moves [.hif, .std] s (execSqTail ring value s) := by
  unfold execSqTail
  try dsimp only
  repeat' first
    | with_reducible apply Steady.refl
    | (with_reducible apply Steady.chain ?_ (sqTailWrite_steady _ _ _) ?sub; (case sub => decide))
    | with_reducible apply formed_moves
    | with_reducible apply when_moves

theorem execCqHead_moves (ring : Nat) (value : Nat) (s : State) : Moves [.hif, .std] s (execCqHead ring value s) := by
  unfold execCqHead
  try dsimp only
  repeat' first
    | with_reducible apply Steady.refl
    | (with_reducible apply Steady.chain ?_ (cqHeadWrite_steady _ _ _) ?sub; (case sub => decide))
    | with_reducible apply formed_moves
    | with_reducible apply when_moves

theorem ackWrite_steady (s : State) (ring : Nat) (data : List Byte) : Steady [.lockets, .hif, .std] s (ackWrite s ring data) := by
  unfold ackWrite
  try dsimp only
  repeat' first
    | with_reducible apply Steady.refl
    | (with_reducible apply Steady.chain ?_ (hifEvent_steady _ _) ?sub; (case sub => decide))
    | (with_reducible apply Steady.chain ?_ (State.locketM_steady _ _ _) ?sub; (case sub => decide))
    | with_reducible apply Steady.ite
    | split

theorem execAck_moves (ring : Nat) (data : List Byte) (s : State) : Moves [.lockets, .hif, .std] s (execAck ring data s) := by
  unfold execAck
  try dsimp only
  repeat' first
    | with_reducible apply Steady.refl
    | (with_reducible apply Steady.chain ?_ (ackWrite_steady _ _ _) ?sub; (case sub => decide))
    | with_reducible apply formed_moves
    | with_reducible apply when_moves

theorem slotSelWrite_steady (s : State) (ring : Nat) (off : Nat) (data : List Byte) : Steady [.hif] s (slotSelWrite s ring off data) := by
  unfold slotSelWrite
  try dsimp only
  repeat' first
    | with_reducible apply Steady.refl
    | (with_reducible apply Steady.chain ?_ (State.ringM_steady _ _ _) ?sub; (case sub => decide))
    | with_reducible apply Steady.ite

theorem execSlotSel_moves (ring : Nat) (off : Nat) (data : List Byte) (s : State) : Moves [.hif] s (execSlotSel ring off data s) := by
  unfold execSlotSel
  try dsimp only
  repeat' first
    | with_reducible apply Steady.refl
    | (with_reducible apply Steady.chain ?_ (slotSelWrite_steady _ _ _ _) ?sub; (case sub => decide))
    | with_reducible apply formed_moves
    | with_reducible apply when_moves

theorem execSlotApertureWrite_moves (ring : Nat) (off : Nat) (data : List Byte) (s : State) : Moves [.lockets, .hif, .std] s (execSlotApertureWrite ring off data s) := by
  unfold execSlotApertureWrite
  try dsimp only
  repeat' first
    | with_reducible apply Steady.refl
    | (with_reducible apply Steady.chain ?_ (apertureWrite_steady _ _ _ _) ?sub; (case sub => decide))
    | with_reducible apply formed_moves
    | with_reducible apply when_moves

theorem pageWrite_steady (s : State) (ring : Nat) (off : Nat) (data : List Byte) : Steady [.lockets, .hif, .std] s (pageWrite s ring off data) := by
  unfold pageWrite
  try dsimp only
  repeat' first
    | with_reducible apply Steady.refl
    | (with_reducible apply Steady.chain ?_ (sqTailWrite_steady _ _ _) ?sub; (case sub => decide))
    | (with_reducible apply Steady.chain ?_ (cqHeadWrite_steady _ _ _) ?sub; (case sub => decide))
    | (with_reducible apply Steady.chain ?_ (ackWrite_steady _ _ _) ?sub; (case sub => decide))
    | (with_reducible apply Steady.chain ?_ (slotSelWrite_steady _ _ _ _) ?sub; (case sub => decide))
    | (with_reducible apply Steady.chain ?_ (apertureWrite_steady _ _ _ _) ?sub; (case sub => decide))
    | with_reducible apply Steady.ite

theorem execBar2Write_moves (addr : Nat) (data : List Byte) (s : State) : Moves [.lockets, .hif, .std] s (execBar2Write addr data s) := by
  unfold execBar2Write
  try dsimp only
  repeat' first
    | with_reducible apply Steady.refl
    | (with_reducible apply Steady.chain ?_ (bar2Write_steady _ _ _) ?sub; (case sub => decide))
    | with_reducible apply when_moves

theorem execBar2Read_moves (addr : Nat) (len : Nat) (s : State) : Moves [.hif, .std, .replies] s (execBar2Read addr len s) := by
  unfold execBar2Read
  try dsimp only
  repeat' first
    | with_reducible apply Steady.refl
    | (with_reducible apply answer_steady ?sub ?_ ; (case sub => decide))
    | (with_reducible apply Steady.chain ?_ (bar2Read_steady _ _ _) ?sub; (case sub => decide))
    | with_reducible apply when_moves

theorem bar4Forward_steady (s : State) (k : Nat) (off : Nat) (len : Nat) (data : Option (List Byte)) : Steady [.std] s (bar4Forward s k off len data) := by
  unfold bar4Forward
  try dsimp only
  repeat' first
    | with_reducible apply Steady.refl
    | (with_reducible apply Steady.chain ?_ (State.stdM_steady _ _) ?sub; (case sub => decide))
    | (with_reducible apply Steady.chain ?_ (sendMsg_steady _ _ _) ?sub; (case sub => decide))
    | split

theorem keyDone_steady (s : State) (ok : Bool) : Steady [.hif, .std] s (keyDone s ok) := by
  unfold keyDone
  try dsimp only
  repeat' first
    | with_reducible apply Steady.refl
    | (with_reducible apply Steady.chain ?_ (State.hifM_steady _ _) ?sub; (case sub => decide))
    | (with_reducible apply Steady.chain ?_ (hifEvent_steady _ _) ?sub; (case sub => decide))
    | with_reducible apply Steady.ite

theorem keysM_steady (s : State) (t : Nat) (f : TenantKeys → TenantKeys) : Steady [.keys] s (keysM s t f) := by
  unfold keysM
  try dsimp only
  repeat' first
    | with_reducible apply Steady.refl
    | (with_reducible apply Steady.update <;> first | with_reducible exact Or.inl rfl | (apply Or.inr; decide) | (exact Or.inr ⟨by decide, fun h => by simpa using h⟩) | skip)

theorem installKey_steady (s : State) (slot : Nat) (tenant : Nat) : Steady [.keys, .hif, .std] s (installKey s slot tenant) := by
  unfold installKey
  try dsimp only
  repeat' first
    | with_reducible apply Steady.refl
    | (with_reducible apply Steady.chain ?_ (keyDone_steady _ _) ?sub; (case sub => decide))
    | (with_reducible apply Steady.chain ?_ (keysM_steady _ _ _) ?sub; (case sub => decide))
    | with_reducible apply Steady.ite

theorem selectKey_steady (s : State) (slot : Nat) (tenant : Nat) : Steady [.keys, .hif, .std] s (selectKey s slot tenant) := by
  unfold selectKey
  try dsimp only
  repeat' first
    | with_reducible apply Steady.refl
    | (with_reducible apply Steady.chain ?_ (keyDone_steady _ _) ?sub; (case sub => decide))
    | (with_reducible apply Steady.chain ?_ (keysM_steady _ _ _) ?sub; (case sub => decide))
    | with_reducible apply Steady.ite

theorem deselectKey_steady (s : State) (tenant : Nat) : Steady [.keys, .hif, .std] s (deselectKey s tenant) := by
  unfold deselectKey
  try dsimp only
  repeat' first
    | with_reducible apply Steady.refl
    | (with_reducible apply Steady.chain ?_ (keyDone_steady _ _) ?sub; (case sub => decide))
    | (with_reducible apply Steady.chain ?_ (keysM_steady _ _ _) ?sub; (case sub => decide))

theorem setCutKey_steady (s : State) : Steady [.ckpt, .hif, .std] s (setCutKey s) := by
  unfold setCutKey
  try dsimp only
  repeat' first
    | with_reducible apply Steady.refl
    | (with_reducible apply Steady.chain ?_ (keyDone_steady _ _) ?sub; (case sub => decide))
    | (with_reducible apply Steady.chain ?_ (State.ckptM_steady _ _) ?sub; (case sub => decide))
    | with_reducible apply Steady.ite

theorem keyCmd_steady (s : State) (v : Nat) : Steady [.keys, .ckpt, .hif, .std] s (keyCmd s v) := by
  unfold keyCmd
  try dsimp only
  repeat' first
    | with_reducible apply Steady.refl
    | (with_reducible apply Steady.chain ?_ (installKey_steady _ _ _) ?sub; (case sub => decide))
    | (with_reducible apply Steady.chain ?_ (selectKey_steady _ _ _) ?sub; (case sub => decide))
    | (with_reducible apply Steady.chain ?_ (deselectKey_steady _ _) ?sub; (case sub => decide))
    | (with_reducible apply Steady.chain ?_ (setCutKey_steady _) ?sub; (case sub => decide))
    | with_reducible apply Steady.ite

theorem execKeyInstall_moves (slot : Nat) (tenant : Nat) (s : State) : Moves [.keys, .hif, .std] s (execKeyInstall slot tenant s) := by
  unfold execKeyInstall
  try dsimp only
  repeat' first
    | with_reducible apply Steady.refl
    | (with_reducible apply Steady.chain ?_ (installKey_steady _ _ _) ?sub; (case sub => decide))
    | with_reducible apply formed_moves
    | with_reducible apply when_moves

theorem execKeySelect_moves (slot : Nat) (tenant : Nat) (s : State) : Moves [.keys, .hif, .std] s (execKeySelect slot tenant s) := by
  unfold execKeySelect
  try dsimp only
  repeat' first
    | with_reducible apply Steady.refl
    | (with_reducible apply Steady.chain ?_ (selectKey_steady _ _ _) ?sub; (case sub => decide))
    | with_reducible apply formed_moves
    | with_reducible apply when_moves

theorem execKeyDeselect_moves (x1 : Nat) (tenant : Nat) (s : State) : Moves [.keys, .hif, .std] s (execKeyDeselect x1 tenant s) := by
  unfold execKeyDeselect
  try dsimp only
  repeat' first
    | with_reducible apply Steady.refl
    | (with_reducible apply Steady.chain ?_ (deselectKey_steady _ _) ?sub; (case sub => decide))
    | with_reducible apply formed_moves
    | with_reducible apply when_moves

theorem execCutKey_moves (x1 : Nat) (x2 : Nat) (s : State) : Moves [.ckpt, .hif, .std] s (execCutKey x1 x2 s) := by
  unfold execCutKey
  try dsimp only
  repeat' first
    | with_reducible apply Steady.refl
    | (with_reducible apply Steady.chain ?_ (setCutKey_steady _) ?sub; (case sub => decide))
    | with_reducible apply when_moves

theorem cfgRefused_steady (s : State) : Steady [.hif, .std] s (cfgRefused s) := by
  unfold cfgRefused
  try dsimp only
  repeat' first
    | with_reducible apply Steady.refl
    | (with_reducible apply Steady.chain ?_ (hifEvent_steady _ _) ?sub; (case sub => decide))

theorem ringSet_steady (s : State) (r : Nat) (f : Ring → Ring) : Steady [.hif, .std] s (ringSet s r f) := by
  unfold ringSet
  try dsimp only
  repeat' first
    | with_reducible apply Steady.refl
    | (with_reducible apply Steady.chain ?_ (State.ringM_steady _ _ _) ?sub; (case sub => decide))
    | (with_reducible apply Steady.chain ?_ (cfgRefused_steady _) ?sub; (case sub => decide))
    | with_reducible apply Steady.ite

theorem writeRing_steady (s : State) (r : Nat) (o : Nat) (v : Nat) : Steady [.hif, .std] s (writeRing s r o v) := by
  unfold writeRing
  try dsimp only
  repeat' first
    | with_reducible apply Steady.refl
    | (with_reducible apply Steady.chain ?_ (ringSet_steady _ _ _) ?sub; (case sub => decide))
    | (with_reducible apply Steady.chain ?_ (State.ringM_steady _ _ _) ?sub; (case sub => decide))
    | (with_reducible apply Steady.chain ?_ (cfgRefused_steady _) ?sub; (case sub => decide))
    | with_reducible apply Steady.ite

theorem writeDlv_steady (s : State) (t : Nat) (o : Nat) (v : Nat) : Steady [.hif, .std] s (writeDlv s t o v) := by
  unfold writeDlv
  try dsimp only
  repeat' first
    | with_reducible apply Steady.refl
    | (with_reducible apply Steady.chain ?_ (cfgRefused_steady _) ?sub; (case sub => decide))
    | (with_reducible apply Steady.chain ?_ (State.dlvM_steady _ _ _) ?sub; (case sub => decide))
    | with_reducible apply Steady.ite

theorem writeHif_steady (s : State) (o : Nat) (v : Nat) : Steady [.keys, .ckpt, .hif, .std] s (writeHif s o v) := by
  unfold writeHif
  try dsimp only
  repeat' first
    | with_reducible apply Steady.refl
    | (with_reducible apply Steady.chain ?_ (writeDlv_steady _ _ _ _) ?sub; (case sub => decide))
    | (with_reducible apply Steady.chain ?_ (writeRing_steady _ _ _ _) ?sub; (case sub => decide))
    | (with_reducible apply Steady.chain ?_ (State.hifM_steady _ _) ?sub; (case sub => decide))
    | (with_reducible apply Steady.chain ?_ (keyCmd_steady _ _) ?sub; (case sub => decide))
    | with_reducible apply Steady.ite

theorem writeLan_steady (s : State) (o : Nat) (v : Nat) : Steady [.lan] s (writeLan s o v) := by
  unfold writeLan
  try dsimp only
  repeat' first
    | with_reducible apply Steady.refl
    | (with_reducible apply Steady.chain ?_ (State.lanM_steady _ _) ?sub; (case sub => decide))
    | (with_reducible apply Steady.chain ?_ (mboxGo_steady _) ?sub; (case sub => decide))
    | with_reducible apply Steady.ite

theorem fwCore_steady (s : State) (blk : Nat) (o : Nat) (v : Nat) : Steady [.ory, .lpe, .ast] s (fwCore s blk o v) := by
  unfold fwCore
  repeat' first
    | with_reducible exact Steady.refl
    | with_reducible apply Steady.ite
    | (with_reducible apply Steady.chain ?_ (lowater_steady _) ?sub; (case sub => decide))
    | (with_reducible apply Steady.chain ?_ (State.oryM_steady _ _) ?sub; (case sub => decide))
    | (with_reducible apply Steady.chain ?_ (State.astM_steady _ _) ?sub; (case sub => decide))
    | (with_reducible apply Steady.update <;> first | with_reducible exact Or.inl rfl | (apply Or.inr; decide) | skip)

theorem fwText_steady (s : State) (blk : Nat) (o : Nat) (v : Nat) : Steady [.smp, .fil, .stm, .cur] s (fwText s blk o v) := by
  unfold fwText
  try dsimp only
  repeat' first
    | with_reducible apply Steady.refl
    | (with_reducible apply Steady.chain ?_ (State.curM_steady _ _) ?sub; (case sub => decide))
    | with_reducible apply Steady.ite
    | (with_reducible apply Steady.update <;> first | with_reducible exact Or.inl rfl | (apply Or.inr; decide) | (exact Or.inr ⟨by decide, fun h => by simpa using h⟩) | skip)

theorem fwMem_steady (s : State) (blk : Nat) (o : Nat) (v : Nat) : Steady [.hbc, .lpc, .bays] s (fwMem s blk o v) := by
  unfold fwMem
  try dsimp only
  repeat' first
    | with_reducible apply Steady.refl
    | (with_reducible apply Steady.chain ?_ (State.bayM_steady _ _ _) ?sub; (case sub => decide))
    | with_reducible apply Steady.ite
    | (with_reducible apply Steady.update <;> first | with_reducible exact Or.inl rfl | (apply Or.inr; decide) | (exact Or.inr ⟨by decide, fun h => by simpa using h⟩) | skip)

theorem fwRest_steady (s : State) (blk : Nat) (o : Nat) (v : Nat) : Steady [.eph, .sieves, .integ, .std, .lan] s (fwRest s blk o v) := by
  unfold fwRest
  try dsimp only
  repeat' first
    | with_reducible apply Steady.refl
    | (with_reducible apply Steady.chain ?_ (State.ephM_steady _ _) ?sub; (case sub => decide))
    | (with_reducible apply Steady.chain ?_ (State.integM_steady _ _) ?sub; (case sub => decide))
    | (with_reducible apply Steady.chain ?_ (State.stdM_steady _ _) ?sub; (case sub => decide))
    | (with_reducible apply Steady.chain ?_ (writeLan_steady _ _ _) ?sub; (case sub => decide))
    | with_reducible apply Steady.ite
    | (with_reducible apply Steady.update <;> first | with_reducible exact Or.inl rfl | (apply Or.inr; decide) | (exact Or.inr ⟨by decide, fun h => by simpa using h⟩) | skip)

theorem fwWrite_steady (s : State) (off : Nat) (v : Nat) : Steady [.ory, .lpe, .ast, .smp, .fil, .stm, .hbc, .lpc, .cur, .bays, .eph, .sieves, .integ, .std, .lan] s (fwWrite s off v) := by
  unfold fwWrite
  try dsimp only
  repeat' first
    | with_reducible apply Steady.refl
    | (with_reducible apply Steady.chain ?_ (fwRest_steady _ _ _ _) ?sub; (case sub => decide))
    | (with_reducible apply Steady.chain ?_ (fwMem_steady _ _ _ _) ?sub; (case sub => decide))
    | (with_reducible apply Steady.chain ?_ (fwText_steady _ _ _ _) ?sub; (case sub => decide))
    | (with_reducible apply Steady.chain ?_ (fwCore_steady _ _ _ _) ?sub; (case sub => decide))

theorem hostReg_steady (s : State) (off : Nat) (v : Nat) : Steady [.keys, .ckpt, .hif, .std, .lan] s (hostReg s off v) := by
  unfold hostReg
  try dsimp only
  repeat' first
    | with_reducible apply Steady.refl
    | (with_reducible apply Steady.chain ?_ (writeLan_steady _ _ _) ?sub; (case sub => decide))
    | (with_reducible apply Steady.chain ?_ (writeHif_steady _ _ _) ?sub; (case sub => decide))
    | (with_reducible apply Steady.chain ?_ (State.hifM_steady _ _) ?sub; (case sub => decide))
    | with_reducible apply Steady.ite

theorem regWrite_steady (s : State) (fw : Bool) (off : Nat) (data : List Byte) : Steady [.ory, .lpe, .ast, .smp, .fil, .stm, .keys, .hbc, .lpc, .cur, .bays, .eph, .sieves, .integ, .ckpt, .hif, .std, .lan] s (regWrite s fw off data) := by
  unfold regWrite
  try dsimp only
  repeat' first
    | with_reducible apply Steady.refl
    | (with_reducible apply Steady.chain ?_ (fwWrite_steady _ _ _) ?sub; (case sub => decide))
    | (with_reducible apply Steady.chain ?_ (hostReg_steady _ _ _) ?sub; (case sub => decide))
    | with_reducible apply Steady.ite
    | split

theorem bar0Write_steady (s : State) (off : Nat) (data : List Byte) : Steady [.ory, .lpe, .ast, .smp, .fil, .stm, .lockets, .keys, .hbc, .lpc, .cur, .bays, .eph, .sieves, .integ, .ckpt, .hif, .std, .lan] s (bar0Write s off data) := by
  unfold bar0Write
  try dsimp only
  repeat' first
    | with_reducible apply Steady.refl
    | (with_reducible apply Steady.chain ?_ (pageWrite_steady _ _ _ _) ?sub; (case sub => decide))
    | (with_reducible apply Steady.chain ?_ (regWrite_steady _ _ _ _) ?sub; (case sub => decide))
    | with_reducible apply Steady.ite

theorem execRegisterWrite_moves (fw : Bool) (off : Nat) (data : List Byte) (s : State) : Moves [.ory, .lpe, .ast, .smp, .fil, .stm, .lockets, .keys, .hbc, .lpc, .cur, .bays, .eph, .sieves, .integ, .ckpt, .hif, .std, .lan] s (execRegisterWrite fw off data s) := by
  unfold execRegisterWrite
  try dsimp only
  repeat' first
    | with_reducible apply Steady.refl
    | (with_reducible apply Steady.chain ?_ (regWrite_steady _ _ _ _) ?sub; (case sub => decide))
    | (with_reducible apply Steady.chain ?_ (bar0Write_steady _ _ _) ?sub; (case sub => decide))
    | with_reducible apply when_moves
    | with_reducible apply Moves.ite
    | with_reducible apply Steady.ite

theorem execBar4Access_moves (addr : Nat) (len : Nat) (data : Option (List Byte)) (s : State) : Moves [.ory, .lpe, .ast, .smp, .fil, .stm, .lockets, .keys, .hbc, .lpc, .cur, .bays, .eph, .sieves, .integ, .ckpt, .hif, .std, .lan, .replies] s (execBar4Access addr len data s) := by
  unfold execBar4Access
  try dsimp only
  repeat' first
    | with_reducible apply Steady.refl
    | (with_reducible apply answer_steady ?sub ?_ ; (case sub => decide))
    | (with_reducible apply Steady.chain ?_ (dropWrite_steady _) ?sub; (case sub => decide))
    | (with_reducible apply Steady.chain ?_ (bar0Read_steady _ _ _) ?sub; (case sub => decide))
    | (with_reducible apply Steady.chain ?_ (bar0Write_steady _ _ _) ?sub; (case sub => decide))
    | (with_reducible apply Steady.chain ?_ (bar4Forward_steady _ _ _ _ _) ?sub; (case sub => decide))
    | with_reducible apply when_moves
    | with_reducible apply Moves.ite
    | with_reducible apply Steady.ite
    | (with_reducible apply Steady.first ?ee; (case ee => assumption))
    | split

theorem coalesce_steady (s : State) (r : Nat) (noIrq : Bool) : Steady [.hif, .std] s (coalesce s r noIrq) := by
  unfold coalesce
  try dsimp only
  repeat' first
    | with_reducible apply Steady.refl
    | (with_reducible apply Steady.chain ?_ (State.ringM_steady _ _ _) ?sub; (case sub => decide))
    | (with_reducible apply Steady.chain ?_ (signal_steady _ _) ?sub; (case sub => decide))
    | with_reducible apply Steady.ite

theorem leaveCmd_steady (s : State) (id : Nat) : Steady [.lockets, .charms, .hif] s (leaveCmd s id) := by
  unfold leaveCmd
  try dsimp only
  repeat' first
    | with_reducible apply Steady.refl
    | (with_reducible apply Steady.chain ?_ (State.hifM_steady _ _) ?sub; (case sub => decide))
    | (with_reducible apply Steady.chain ?_ (unpinReplicas_steady _ _) ?sub; (case sub => decide))
    | (with_reducible apply Steady.update <;> first | with_reducible exact Or.inl rfl | (apply Or.inr; decide) | (exact Or.inr ⟨by decide, fun h => by simpa using h⟩) | skip)

theorem postNext_yields (s : State) (ring : Nat) : Yields [.lockets, .charms, .hif, .std, .hostMem] s (postNext s ring) := by
  unfold postNext
  try dsimp only
  repeat' first
    | with_reducible apply Steady.refl
    | (with_reducible apply Steady.chain ?_ (hostWrite_steady _ _ _) ?sub; (case sub => decide))
    | (with_reducible apply Steady.chain ?_ (leaveCmd_steady _ _) ?sub; (case sub => decide))
    | (with_reducible apply Steady.chain ?_ (State.ringM_steady _ _ _) ?sub; (case sub => decide))
    | (with_reducible apply Steady.chain ?_ (coalesce_steady _ _ _) ?sub; (case sub => decide))
    | exact Yields.none
    | with_reducible apply Yields.some
    | with_reducible apply Yields.ite
    | with_reducible apply Steady.ite
    | split

theorem execCompletionPost_moves (ring : Nat) (s : State) : Moves [.lockets, .charms, .hif, .std, .hostMem] s (execCompletionPost ring s) := by
  unfold execCompletionPost
  try dsimp only
  repeat' first
    | with_reducible apply Steady.refl
    | (with_reducible apply Steady.chain ?_ ((postNext_yields _ _).frame (by assumption)) ?sub; (case sub => decide))
    | (with_reducible apply Steady.chain ?_ (hifEvent_steady _ _) ?sub; (case sub => decide))
    | with_reducible apply formed_moves
    | with_reducible apply clocked_moves
    | with_reducible apply Moves.next
    | with_reducible apply Moves.ite
    | (intro _; try dsimp only)
    | with_reducible apply Steady.ite
    | with_reducible apply Steady.orElse (fun _ _ => ?_)

theorem execCoalTimeExpiry_moves (ring : Nat) (s : State) : Moves [.hif, .std] s (execCoalTimeExpiry ring s) := by
  unfold execCoalTimeExpiry
  try dsimp only
  repeat' first
    | with_reducible apply Steady.refl
    | (with_reducible apply Steady.chain ?_ (signal_steady _ _) ?sub; (case sub => decide))
    | (with_reducible apply Steady.chain ?_ (State.ringM_steady _ _ _) ?sub; (case sub => decide))
    | with_reducible apply formed_moves
    | with_reducible apply when_moves

theorem freeCharm_steady (s : State) (ci : Nat) : Steady [.ast, .charms, .extents, .cur, .bays, .ckpt] s (freeCharm s ci) := by
  unfold freeCharm
  try dsimp only
  repeat' first
    | with_reducible apply Steady.refl
    | (with_reducible apply Steady.chain ?_ (abandonFor_steady _ _) ?sub; (case sub => decide))
    | (with_reducible apply Steady.chain ?_ (tlbDropId_steady _ _) ?sub; (case sub => decide))
    | (with_reducible apply Steady.chain ?_ (releaseFrames_steady _ _ _) ?sub; (case sub => decide))
    | (with_reducible apply Steady.chain ?_ (freeExtent_steady _ _) ?sub; (case sub => decide))
    | with_reducible apply Steady.ite
    | (with_reducible apply Steady.fold ?_ (fun _ _ => ?_); all_goals try dsimp only)
    | (with_reducible apply Steady.foldPair ?_ (fun _ _ => ?_); all_goals try dsimp only)
    | with_reducible apply Steady.iteFirst
    | split
    | (with_reducible apply Steady.update <;> first | with_reducible exact Or.inl rfl | (apply Or.inr; decide) | (exact Or.inr ⟨by decide, fun h => by simpa using h⟩) | skip)

theorem releaseCharmRef_steady (s : State) (digest : Nat) : Steady [.ast, .charms, .extents, .cur, .bays, .ckpt] s (releaseCharmRef s digest) := by
  unfold releaseCharmRef
  try dsimp only
  repeat' first
    | with_reducible apply Steady.refl
    | (with_reducible apply Steady.chain ?_ (freeCharm_steady _ _) ?sub; (case sub => decide))
    | (with_reducible apply Steady.chain ?_ (State.charmM_steady _ _ _) ?sub; (case sub => decide))
    | with_reducible apply Steady.ite
    | (with_reducible apply Steady.fold ?_ (fun _ _ => ?_); all_goals try dsimp only)
    | (with_reducible apply Steady.foldPair ?_ (fun _ _ => ?_); all_goals try dsimp only)
    | with_reducible apply Steady.iteFirst

theorem dropLocket_steady (s : State) (h : Nat) : Steady [.ast, .lockets, .charms, .extents, .cur, .bays, .eph, .ckpt] s (dropLocket s h) := by
  unfold dropLocket
  try dsimp only
  repeat' first
    | with_reducible apply Steady.refl
    | (with_reducible apply Steady.chain ?_ (abandonFor_steady _ _) ?sub; (case sub => decide))
    | (with_reducible apply Steady.chain ?_ (State.ephM_steady _ _) ?sub; (case sub => decide))
    | (with_reducible apply Steady.chain ?_ (vacateAll_steady _ _) ?sub; (case sub => decide))
    | (with_reducible apply Steady.chain ?_ (releaseFrames_steady _ _ _) ?sub; (case sub => decide))
    | (with_reducible apply Steady.chain ?_ (freeExtent_steady _ _) ?sub; (case sub => decide))
    | (with_reducible apply Steady.chain ?_ (unpinReplicas_steady _ _) ?sub; (case sub => decide))
    | (with_reducible apply Steady.chain ?_ (releaseCharmRef_steady _ _) ?sub; (case sub => decide))
    | with_reducible apply Steady.ite
    | split
    | (with_reducible apply Steady.update <;> first | with_reducible exact Or.inl rfl | (apply Or.inr; decide) | (exact Or.inr ⟨by decide, fun h => by simpa using h⟩) | skip)

theorem finishClose_steady (s : State) (h : Nat) : Steady [.ast, .lockets, .charms, .extents, .cur, .bays, .eph, .ckpt, .hif] s (finishClose s h) := by
  unfold finishClose
  try dsimp only
  repeat' first
    | with_reducible apply Steady.refl
    | (with_reducible apply Steady.chain ?_ (completeId_steady _ _ _ _ _ _) ?sub; (case sub => decide))
    | (with_reducible apply Steady.chain ?_ (dropLocket_steady _ _) ?sub; (case sub => decide))
    | with_reducible apply Steady.ite
    | split

theorem writeNext_yields (s : State) : Yields [.ast, .lockets, .charms, .extents, .cur, .bays, .eph, .traffic, .ckpt, .hif, .std, .hostMem] s (writeNext s) := by
  unfold writeNext
  try dsimp only
  repeat' first
    | with_reducible apply Steady.refl
    | (with_reducible apply Steady.chain ?_ (wfqSelect_steady _ _ _ _) ?sub; (case sub => decide))
    | (with_reducible apply Steady.chain ?_ (hostWrite_steady _ _ _) ?sub; (case sub => decide))
    | (with_reducible apply Steady.chain ?_ (State.locketM_steady _ _ _) ?sub; (case sub => decide))
    | (with_reducible apply Steady.chain ?_ (State.dlvM_steady _ _ _) ?sub; (case sub => decide))
    | (with_reducible apply Steady.chain ?_ (State.hifM_steady _ _) ?sub; (case sub => decide))
    | (with_reducible apply Steady.chain ?_ (wfqCharge_steady _ _ _ _ _ _) ?sub; (case sub => decide))
    | (with_reducible apply Steady.chain ?_ (signal_steady _ _) ?sub; (case sub => decide))
    | (with_reducible apply Steady.chain ?_ (finishClose_steady _ _) ?sub; (case sub => decide))
    | exact Yields.none
    | with_reducible apply Yields.some
    | with_reducible apply Yields.ite
    | with_reducible apply Steady.ite
    | (with_reducible apply Steady.first ?ee; (case ee => assumption))
    | split

theorem execDeliveryWrite_moves (s : State) : Moves [.ast, .lockets, .charms, .extents, .cur, .bays, .eph, .traffic, .ckpt, .hif, .std, .hostMem] s (execDeliveryWrite s) := by
  unfold execDeliveryWrite
  try dsimp only
  repeat' first
    | with_reducible apply Steady.refl
    | (with_reducible apply Steady.chain ?_ ((writeNext_yields _).frame (by assumption)) ?sub; (case sub => decide))
    | with_reducible apply clocked_moves
    | with_reducible apply Moves.next
    | (intro _; try dsimp only)
    | with_reducible apply Steady.orElse (fun _ _ => ?_)

theorem flushHost_steady (fuel : Nat) (s : State) : Steady [.ast, .lockets, .charms, .extents, .cur, .bays, .eph, .traffic, .ckpt, .hif, .std, .hostMem] s (flushHost fuel s) := by
  induction fuel generalizing s with
  | zero => exact Steady.refl
  | succ fuel ih =>
    unfold flushHost
    split
    · rename_i t e
      have h : Steady [.ast, .lockets, .charms, .extents, .cur, .bays, .eph, .traffic, .ckpt, .hif, .std, .hostMem] s t := by
        rcases h : writeNext s with _ | u
        · rw [h, Option.none_or] at e
          obtain ⟨r, -, hr⟩ := List.exists_of_findSome?_eq_some e
          exact Steady.refl.chain ((postNext_yields _ _).frame hr) (by decide)
        · rw [h, Option.some_or] at e
          cases e
          exact Steady.refl.chain ((writeNext_yields _).frame h) (by decide)
      exact h.chain (ih _) (by decide)
    · exact .refl

theorem submitPut_steady (s : State) (c : HCmd) (addr : Nat) (data : List Byte) (status : Nat) (r0 : Nat) (r1 : Nat) : Steady [.extents, .cur] s (submitPut s c addr data status r0 r1) := by
  unfold submitPut
  try dsimp only
  repeat' first
    | with_reducible apply Steady.refl
    | (with_reducible apply Steady.chain ?_ (State.curM_steady _ _) ?sub; (case sub => decide))
    | (with_reducible apply Steady.chain ?_ (submit_steady _ _) ?sub; (case sub => decide))

theorem putPacket_steady (s : State) (d : Desc) (id : Nat) : Steady [.std, .hostMem] s (putPacket s d id) := by
  unfold putPacket
  try dsimp only
  repeat' first
    | with_reducible apply Steady.refl
    | (with_reducible apply Steady.chain ?_ (hostWrite_steady _ _ _) ?sub; (case sub => decide))
    | split

theorem finishPut_steady (s : State) (id : Nat) : Steady [.cur, .hif] s (finishPut s id) := by
  unfold finishPut
  try dsimp only
  repeat' first
    | with_reducible apply Steady.refl
    | (with_reducible apply Steady.chain ?_ (State.curM_steady _ _) ?sub; (case sub => decide))
    | (with_reducible apply Steady.chain ?_ (completeId_steady _ _ _ _ _ _) ?sub; (case sub => decide))
    | split

theorem execQuery_moves (id : Nat) (s : State) : Moves [.extents, .cur, .hif, .std] s (execQuery id s) := by
  unfold execQuery
  try dsimp only
  repeat' first
    | with_reducible apply Steady.refl
    | (with_reducible apply hostCmd_moves ?sub ?_; (case sub => decide))
    | (with_reducible apply Steady.chain ?_ (complete_steady _ _ _ _ _ _) ?sub; (case sub => decide))
    | (with_reducible apply Steady.chain ?_ (submitPut_steady _ _ _ _ _ _ _) ?sub; (case sub => decide))
    | with_reducible apply Moves.ite
    | (intro _; try dsimp only)
    | with_reducible apply Steady.ite
    | split

theorem execTokenRefill_moves (s : State) : Moves [.traffic] s (execTokenRefill s) := by
  unfold execTokenRefill
  try dsimp only
  repeat' first
    | with_reducible apply Steady.refl
    | (with_reducible apply Steady.chain ?_ (refill_steady _) ?sub; (case sub => decide))
    | with_reducible apply Moves.next

theorem writeSamples_steady (s : State) (v : Tab (Nat × Tick)) : Steady [.traffic, .std, .hostMem] s (writeSamples s v) := by
  unfold writeSamples
  try dsimp only
  repeat' first
    | with_reducible apply Steady.refl
    | (with_reducible apply Steady.chain ?_ (hostWrite_steady _ _ _) ?sub; (case sub => decide))
    | (with_reducible apply Steady.chain ?_ (State.trafM_steady _ _) ?sub; (case sub => decide))
    | with_reducible apply Steady.ite
    | (with_reducible apply Steady.fold ?_ (fun _ _ => ?_); all_goals try dsimp only)
    | (with_reducible apply Steady.foldPair ?_ (fun _ _ => ?_); all_goals try dsimp only)
    | with_reducible apply Steady.iteFirst

theorem execQueueSample_moves (s : State) : Moves [.traffic, .std, .hostMem] s (execQueueSample s) := by
  unfold execQueueSample
  try dsimp only
  repeat' first
    | with_reducible apply Steady.refl
    | (with_reducible apply Steady.chain ?_ (writeSamples_steady _ _) ?sub; (case sub => decide))
    | (with_reducible apply Steady.chain ?_ (State.trafM_steady _ _) ?sub; (case sub => decide))
    | with_reducible apply when_moves
    | (with_reducible apply Steady.fold ?_ (fun _ _ => ?_); all_goals try dsimp only)
    | (with_reducible apply Steady.foldPair ?_ (fun _ _ => ?_); all_goals try dsimp only)

end Sys2Proof.Machine
end

