-- ==== Sys2Proof/Laws/Frames/Parure.lean ====
section
/-!
SUPPORT. Sys2Proof/Laws/Frames/Parure.lean: what each operation of Machine/Parure.lean can change at most.
-/
namespace Sys2Proof.Machine

theorem reserveLoad_yields (s : State) (slot : Nat) (p : Parure) (header : List Byte) : Yields [.parures] s (reserveLoad s slot p header) := by
  unfold reserveLoad
  try dsimp only
  repeat' first
    | with_reducible apply Steady.refl
    | exact Yields.none
    | with_reducible apply Yields.some
    | with_reducible apply Yields.ite
    | (with_reducible apply Yields.map; try dsimp only)
    | (intro _; try dsimp only)
    | with_reducible apply Steady.ite
    | with_reducible apply Steady.orElse (fun _ _ => ?_)
    | (with_reducible apply Steady.update <;> first | with_reducible exact Or.inl rfl | (apply Or.inr; decide) | (exact Or.inr ⟨by decide, fun h => by simpa using h⟩) | skip)

theorem fetchLoad_steady (s : State) (slot : Nat) (p : Parure) (units : Nat) : Steady [.extents, .cur] s (fetchLoad s slot p units) := by
  unfold fetchLoad
  try dsimp only
  repeat' first
    | with_reducible apply Steady.refl
    | (with_reducible apply Steady.chain ?_ (submit_steady _ _) ?sub; (case sub => decide))
    | (intro _; try dsimp only)
    | with_reducible apply Steady.ite
    | with_reducible apply Steady.orElse (fun _ _ => ?_)

theorem endBadLoad_steady (s : State) (slot : Nat) (p : Parure) (st : Nat) (n : Nat) : Steady [.parures, .hif] s (endBadLoad s slot p st n) := by
  unfold endBadLoad
  try dsimp only
  repeat' first
    | with_reducible apply Steady.refl
    | (with_reducible apply Steady.chain ?_ (completeId_steady _ _ _ _ _ _) ?sub; (case sub => decide))
    | (with_reducible apply Steady.update <;> first | with_reducible exact Or.inl rfl | (apply Or.inr; decide) | (exact Or.inr ⟨by decide, fun h => by simpa using h⟩) | skip)

theorem startLoadCopy_steady (s : State) (slot : Nat) (p : Parure) (header : List Byte) : Steady [.parures, .extents, .cur, .hif] s (startLoadCopy s slot p header) := by
  unfold startLoadCopy
  try dsimp only
  repeat' first
    | with_reducible apply Steady.refl
    | (with_reducible apply Steady.chain ?_ ((reserveLoad_yields _ _ _ _).frame (by assumption)) ?sub; (case sub => decide))
    | (with_reducible apply Steady.chain ?_ (endBadLoad_steady _ _ _ _ _) ?sub; (case sub => decide))
    | (with_reducible apply Steady.chain ?_ (fetchLoad_steady _ _ _ _) ?sub; (case sub => decide))
    | split

theorem loadStart_steady (header : List Byte) (s : State) (c : HCmd) : Steady [.parures, .extents, .cur, .hif] s (loadStart header s c) := by
  unfold loadStart
  try dsimp only
  repeat' first
    | with_reducible apply Steady.refl
    | (with_reducible apply Steady.chain ?_ (complete_steady _ _ _ _ _ _) ?sub; (case sub => decide))
    | (with_reducible apply Steady.chain ?_ (fetchLoad_steady _ _ _ _) ?sub; (case sub => decide))
    | (with_reducible apply Steady.chain ?_ (startLoadCopy_steady _ _ _ _) ?sub; (case sub => decide))
    | with_reducible apply Steady.ite
    | split
    | (with_reducible apply Steady.update <;> first | with_reducible exact Or.inl rfl | (apply Or.inr; decide) | (exact Or.inr ⟨by decide, fun h => by simpa using h⟩) | skip)

theorem execLoadParure_moves (id : Nat) (header : List Byte) (s : State) : Moves [.parures, .extents, .cur, .hif, .std] s (execLoadParure id header s) := by
  unfold execLoadParure
  try dsimp only
  repeat' first
    | with_reducible apply Steady.refl
    | (with_reducible apply hostCmd_moves ?sub ?_; (case sub => decide))
    | (with_reducible apply Steady.chain ?_ (loadStart_steady _ _ _) ?sub; (case sub => decide))
    | with_reducible apply formed_moves
    | (intro _; try dsimp only)

theorem placeControl_steady (img : List Byte) (a : Nat) (es : List Sect) (s : State) : Steady [.t1, .integ] s (placeControl img a es s) := by
  induction es generalizing a s with
  | nil => exact Steady.refl
  | cons e es ih =>
    unfold placeControl
    exact Steady.ite (ih _ _) ((t1Write_steady _ _ _).chain (ih _ _) (by decide))

theorem placeImage_steady (s : State) (p : Parure) (img : List Byte) : Steady [.t1, .integ] s (placeImage s p img) := by
  unfold placeImage
  try dsimp only
  repeat' first
    | with_reducible apply Steady.refl
    | (with_reducible apply Steady.chain ?_ (t1Write_steady _ _ _) ?sub; (case sub => decide))
    | (with_reducible apply Steady.chain ?_ (placeControl_steady _ _ _ _) ?sub; (case sub => decide))
    | (with_reducible apply Steady.fold ?_ (fun _ _ => ?_); all_goals try dsimp only)
    | (with_reducible apply Steady.foldPair ?_ (fun _ _ => ?_); all_goals try dsimp only)

theorem endLoad_steady (s : State) (slot : Nat) (p : Parure) (status : Nat) (img : List Byte) : Steady [.parures, .t1, .integ, .hif] s (endLoad s slot p status img) := by
  unfold endLoad
  try dsimp only
  repeat' first
    | with_reducible apply Steady.refl
    | (with_reducible apply Steady.chain ?_ (completeId_steady _ _ _ _ _ _) ?sub; (case sub => decide))
    | (with_reducible apply Steady.chain ?_ (placeImage_steady _ _ _) ?sub; (case sub => decide))
    | split
    | (with_reducible apply Steady.update <;> first | with_reducible exact Or.inl rfl | (apply Or.inr; decide) | (exact Or.inr ⟨by decide, fun h => by simpa using h⟩) | skip)

theorem endHeader_steady (s : State) (slot : Nat) (p : Parure) (status : Nat) : Steady [.parures, .extents, .cur, .hif] s (endHeader s slot p status) := by
  unfold endHeader
  try dsimp only
  repeat' first
    | with_reducible apply Steady.refl
    | (with_reducible apply Steady.chain ?_ (endBadLoad_steady _ _ _ _ _) ?sub; (case sub => decide))
    | (with_reducible apply Steady.chain ?_ (startLoadCopy_steady _ _ _ _) ?sub; (case sub => decide))
    | with_reducible apply Steady.ite
    | split

theorem execParureCopyDone_moves (slot : Nat) (image : List Byte) (s : State) : Moves [.parures, .t1, .extents, .cur, .integ, .hif] s (execParureCopyDone slot image s) := by
  unfold execParureCopyDone
  try dsimp only
  repeat' first
    | with_reducible apply Steady.refl
    | (with_reducible apply Steady.chain ?_ ((consume_gives _ _).frame (by assumption)) ?sub; (case sub => decide))
    | (with_reducible apply Steady.chain ?_ (endHeader_steady _ _ _ _) ?sub; (case sub => decide))
    | (with_reducible apply Steady.chain ?_ (endLoad_steady _ _ _ _ _) ?sub; (case sub => decide))
    | with_reducible apply formed_moves
    | with_reducible apply when_moves
    | with_reducible apply Moves.next
    | with_reducible apply Moves.ite
    | with_reducible apply Steady.ite
    | split

theorem execUnloadParure_moves (id : Nat) (s : State) : Moves [.parures, .extents, .cur, .bays, .hif, .std] s (execUnloadParure id s) := by
  unfold execUnloadParure
  try dsimp only
  repeat' first
    | with_reducible apply Steady.refl
    | (with_reducible apply hostCmd_moves ?sub ?_; (case sub => decide))
    | (with_reducible apply Steady.chain ?_ (complete_steady _ _ _ _ _ _) ?sub; (case sub => decide))
    | (with_reducible apply Steady.chain ?_ (abandonFor_steady _ _) ?sub; (case sub => decide))
    | (with_reducible apply Steady.chain ?_ (completeId_steady _ _ _ _ _ _) ?sub; (case sub => decide))
    | with_reducible apply Moves.ite
    | (intro _; try dsimp only)
    | with_reducible apply Steady.ite
    | split
    | (with_reducible apply Steady.update <;> first | with_reducible exact Or.inl rfl | (apply Or.inr; decide) | (exact Or.inr ⟨by decide, fun h => by simpa using h⟩) | skip)

theorem facetStart_steady (image : List Byte) (s : State) (c : HCmd) : Steady [.facets, .t1, .integ, .ckpt, .hif] s (facetStart image s c) := by
  unfold facetStart
  try dsimp only
  repeat' first
    | with_reducible apply Steady.refl
    | (with_reducible apply Steady.chain ?_ (complete_steady _ _ _ _ _ _) ?sub; (case sub => decide))
    | (with_reducible apply Steady.chain ?_ (t1Write_steady _ _ _) ?sub; (case sub => decide))
    | with_reducible apply Steady.ite
    | split
    | (with_reducible apply Steady.update <;> first | with_reducible exact Or.inl rfl | (apply Or.inr; decide) | (exact Or.inr ⟨by decide, fun h => by simpa using h⟩) | skip)

theorem execFacetLoad_moves (id : Nat) (image : List Byte) (s : State) : Moves [.facets, .t1, .integ, .ckpt, .hif, .std] s (execFacetLoad id image s) := by
  unfold execFacetLoad
  try dsimp only
  repeat' first
    | with_reducible apply Steady.refl
    | (with_reducible apply hostCmd_moves ?sub ?_; (case sub => decide))
    | (with_reducible apply Steady.chain ?_ (facetStart_steady _ _ _) ?sub; (case sub => decide))
    | (intro _; try dsimp only)

theorem sweepFacets_steady (s : State) : Steady [.facets] s (sweepFacets s) := by
  unfold sweepFacets
  try dsimp only
  repeat' first
    | with_reducible apply Steady.refl
    | (with_reducible apply Steady.update <;> first | with_reducible exact Or.inl rfl | (apply Or.inr; decide) | (exact Or.inr ⟨by decide, fun h => by simpa using h⟩) | skip)

theorem execFacetDrop_moves (id : Nat) (s : State) : Moves [.facets, .ckpt, .hif, .std] s (execFacetDrop id s) := by
  unfold execFacetDrop
  try dsimp only
  repeat' first
    | with_reducible apply Steady.refl
    | (with_reducible apply hostCmd_moves ?sub ?_; (case sub => decide))
    | (with_reducible apply Steady.chain ?_ (complete_steady _ _ _ _ _ _) ?sub; (case sub => decide))
    | (with_reducible apply Steady.chain ?_ (sweepFacets_steady _) ?sub; (case sub => decide))
    | with_reducible apply Moves.ite
    | (intro _; try dsimp only)
    | with_reducible apply Steady.ite
    | split
    | (with_reducible apply Steady.update <;> first | with_reducible exact Or.inl rfl | (apply Or.inr; decide) | (exact Or.inr ⟨by decide, fun h => by simpa using h⟩) | skip)

end Sys2Proof.Machine
end

