-- ==== Sys2Proof/Laws/Frames/Sampler.lean ====
section
/-!
SUPPORT. Sys2Proof/Laws/Frames/Sampler.lean: what each operation of Machine/Sampler.lean can change at most.
-/
namespace Sys2Proof.Machine



end Sys2Proof.Machine
end

