-- ==== Sys2Proof/Laws/Frames/Stream.lean ====
section
/-!
SUPPORT. Sys2Proof/Laws/Frames/Stream.lean: what each operation of Machine/Stream.lean can change at most.
-/
namespace Sys2Proof.Machine

theorem State.stepM_steady (s : State) (c : Nat) (f : StepRec → StepRec) : Steady [.eph] s (State.stepM s c f) := by
  unfold State.stepM
  try dsimp only
  repeat' first
    | with_reducible apply Steady.refl
    | (with_reducible apply Steady.chain ?_ (State.ctxM_steady _ _ _) ?sub; (case sub => decide))
    | (intro _; try dsimp only)

theorem removeFromSeal_steady (s : State) (h : Nat) : Steady [.eph] s (removeFromSeal s h) := by
  unfold removeFromSeal
  try dsimp only
  repeat' first
    | with_reducible apply Steady.refl
    | (with_reducible apply Steady.chain ?_ (State.stepM_steady _ _ _) ?sub; (case sub => decide))
    | with_reducible apply Steady.ite
    | split

theorem touch_steady (s : State) (h : Nat) : Steady [.lockets] s (touch s h) := by
  unfold touch
  try dsimp only
  repeat' first
    | with_reducible apply Steady.refl
    | (with_reducible apply Steady.chain ?_ (State.locketM_steady _ _ _) ?sub; (case sub => decide))

theorem handPacket_steady (s : State) (h : Nat) (bytes : List Byte) : Steady [.stm, .lockets] s (handPacket s h bytes) := by
  unfold handPacket
  try dsimp only
  repeat' first
    | with_reducible apply Steady.refl
    | (with_reducible apply Steady.chain ?_ (State.locketM_steady _ _ _) ?sub; (case sub => decide))
    | with_reducible apply Steady.ite
    | split
    | (with_reducible apply Steady.update <;> first | with_reducible exact Or.inl rfl | (apply Or.inr; decide) | (exact Or.inr ⟨by decide, fun h => by simpa using h⟩) | skip)

theorem closeStream_steady (s : State) (h : Nat) (status : Nat) : Steady [.lockets, .hif] s (closeStream s h status) := by
  unfold closeStream
  try dsimp only
  repeat' first
    | with_reducible apply Steady.refl
    | (with_reducible apply Steady.chain ?_ (completeId_steady _ _ _ _ _ _) ?sub; (case sub => decide))
    | (with_reducible apply Steady.chain ?_ (State.locketM_steady _ _ _) ?sub; (case sub => decide))
    | (with_reducible apply Steady.chain ?_ (touch_steady _ _) ?sub; (case sub => decide))
    | (intro _; try dsimp only)
    | (with_reducible apply Steady.fold ?_ (fun _ _ => ?_); all_goals try dsimp only)
    | with_reducible apply Steady.orElse (fun _ _ => ?_)
    | split

theorem endStream_steady (s : State) (h : Nat) (status : Nat) : Steady [.stm, .lockets, .hif] s (endStream s h status) := by
  unfold endStream
  try dsimp only
  repeat' first
    | with_reducible apply Steady.refl
    | (with_reducible apply Steady.chain ?_ (handPacket_steady _ _ _) ?sub; (case sub => decide))
    | (with_reducible apply Steady.chain ?_ (State.locketM_steady _ _ _) ?sub; (case sub => decide))
    | (with_reducible apply Steady.chain ?_ (closeStream_steady _ _ _) ?sub; (case sub => decide))
    | with_reducible apply Steady.ite
    | split

theorem tarnishSession_steady (s : State) (h : Nat) (station : Nat) (row : Nat) : Steady [.stm, .lockets, .eph, .integ, .hif, .lan] s (tarnishSession s h station row) := by
  unfold tarnishSession
  try dsimp only
  repeat' first
    | with_reducible apply Steady.refl
    | (with_reducible apply Steady.chain ?_ (endStream_steady _ _ _) ?sub; (case sub => decide))
    | (with_reducible apply Steady.chain ?_ (removeFromSeal_steady _ _) ?sub; (case sub => decide))
    | (with_reducible apply Steady.chain ?_ (State.integM_steady _ _) ?sub; (case sub => decide))
    | (with_reducible apply Steady.chain ?_ (logFault_steady _ _ _ _ _ _ _) ?sub; (case sub => decide))
    | (with_reducible apply Steady.chain ?_ (intEvent_steady _ _) ?sub; (case sub => decide))
    | split

theorem countSeal_steady (s : State) (width : Nat) (p : Path) : Steady [.smp] s (countSeal s width p) := by
  unfold countSeal
  try dsimp only
  repeat' first
    | with_reducible apply Steady.refl
    | with_reducible apply Steady.ite
    | (with_reducible apply Steady.update <;> first | with_reducible exact Or.inl rfl | (apply Or.inr; decide) | (exact Or.inr ⟨by decide, fun h => by simpa using h⟩) | skip)

theorem countLate_steady (s : State) (t : Nat) : Steady [.stm, .eph] s (countLate s t) := by
  unfold countLate
  try dsimp only
  repeat' first
    | with_reducible apply Steady.refl
    | (with_reducible apply Steady.chain ?_ (State.ephM_steady _ _) ?sub; (case sub => decide))
    | (with_reducible apply Steady.update <;> first | with_reducible exact Or.inl rfl | (apply Or.inr; decide) | (exact Or.inr ⟨by decide, fun h => by simpa using h⟩) | skip)

theorem sealMember_steady (s : State) (c : Nat) (st : StepRec) (row : LenRow) (p : Path) : Steady [.smp, .fil, .stm, .lockets, .eph, .hif] s (sealMember s c st row p) := by
  unfold sealMember
  split
  · exact .refl
  · extract_lets img stops r ended cut held pay late q src l1 status flags stop bytes s1 s2 s3 s4 s5 src2 s6 src3 s7
    have h1 : Steady [.smp, .fil, .stm, .lockets, .eph, .hif] s s1 := (Steady.refl.chain (State.locketM_steady _ _ _) (by decide)).chain (countSeal_steady _ _ _) (by decide)
    have h2 : Steady [.smp, .fil, .stm, .lockets, .eph, .hif] s s2 := h1.chain (handPacket_steady _ _ _) (by decide)
    have h3 : Steady [.smp, .fil, .stm, .lockets, .eph, .hif] s s3 := h2.chain (State.locketM_steady _ _ _) (by decide)
    have h4 : Steady [.smp, .fil, .stm, .lockets, .eph, .hif] s s4 := h3.chain (State.stepM_steady _ _ _) (by decide)
    have h5 : Steady [.smp, .fil, .stm, .lockets, .eph, .hif] s s5 := Steady.ite (h4.chain (countLate_steady _ _) (by decide)) h4
    clear_value s5
    have h6 : Steady [.smp, .fil, .stm, .lockets, .eph, .hif] s s6 := by
      refine Steady.ite ?_ h5
      with_reducible apply Steady.update <;> first | with_reducible exact Or.inl rfl | (apply Or.inr; decide) | skip
      exact h5
    clear_value s6
    have h7 : Steady [.smp, .fil, .stm, .lockets, .eph, .hif] s s7 := by
      refine Steady.ite ?_ h6
      with_reducible apply Steady.update <;> first | with_reducible exact Or.inl rfl | (apply Or.inr; decide) | skip
      exact h6
    exact Steady.ite (h7.chain (closeStream_steady _ _ _) (by decide)) h7

theorem sealListener_steady (s : State) (row : LenRow) : Steady [.lockets] s (sealListener s row) := by
  unfold sealListener
  try dsimp only
  repeat' first
    | with_reducible apply Steady.refl
    | (with_reducible apply Steady.chain ?_ (State.locketM_steady _ _ _) ?sub; (case sub => decide))

theorem sealRow_steady (c : Nat) (s : State) (row : LenRow) : Steady [.smp, .fil, .stm, .lockets, .eph, .hif] s (sealRow c s row) := by
  unfold sealRow
  try dsimp only
  repeat' first
    | with_reducible apply Steady.refl
    | (with_reducible apply Steady.chain ?_ (sealMember_steady _ _ _ _ _) ?sub; (case sub => decide))
    | (with_reducible apply Steady.chain ?_ (sealListener_steady _ _) ?sub; (case sub => decide))
    | (intro _; try dsimp only)
    | with_reducible apply Steady.ite
    | with_reducible apply Steady.orElse (fun _ _ => ?_)
    | split

theorem appendInput_steady (s : State) (h : Nat) (cmd : Nat) (syms : List Sym) : Steady [.lockets] s (appendInput s h cmd syms) := by
  unfold appendInput
  try dsimp only
  repeat' first
    | with_reducible apply Steady.refl
    | (with_reducible apply Steady.chain ?_ (State.locketM_steady _ _ _) ?sub; (case sub => decide))
    | with_reducible apply Steady.ite

theorem bargeIn_steady (s : State) (h : Nat) : Steady [.lockets] s (bargeIn s h).1 := by
  unfold bargeIn
  try dsimp only
  repeat' first
    | with_reducible apply Steady.refl
    | (with_reducible apply Steady.chain ?_ (appendInput_steady _ _ _ _) ?sub; (case sub => decide))
    | with_reducible apply Steady.ite
    | with_reducible apply Steady.iteFirst
    | split

theorem cancelOn_steady (s : State) (h : Nat) (barge : Bool) : Steady [.stm, .lockets, .eph, .hif] s (cancelOn s h barge).1 := by
  unfold cancelOn
  try dsimp only
  repeat' first
    | with_reducible apply Steady.refl
    | (with_reducible apply Steady.chain ?_ (removeFromSeal_steady _ _) ?sub; (case sub => decide))
    | (with_reducible apply Steady.chain ?_ (endStream_steady _ _ _) ?sub; (case sub => decide))
    | (with_reducible apply Steady.chain ?_ (bargeIn_steady _ _) ?sub; (case sub => decide))
    | with_reducible apply Steady.ite
    | with_reducible apply Steady.iteFirst
    | (with_reducible apply Steady.first ?ee; (case ee => assumption))
    | split
    | (with_reducible apply Steady.update <;> first | with_reducible exact Or.inl rfl | (apply Or.inr; decide) | (exact Or.inr ⟨by decide, fun h => by simpa using h⟩) | skip)

theorem replayCancels_steady (s : State) (h : Nat) : Steady [.stm, .lockets, .eph, .ckpt, .hif] s (replayCancels s h) := by
  unfold replayCancels
  try dsimp only
  repeat' first
    | with_reducible apply Steady.refl
    | (with_reducible apply Steady.chain ?_ (cancelOn_steady _ _ _) ?sub; (case sub => decide))
    | (with_reducible apply Steady.chain ?_ (State.ckptM_steady _ _) ?sub; (case sub => decide))
    | with_reducible apply Steady.ite
    | (with_reducible apply Steady.fold ?_ (fun _ _ => ?_); all_goals try dsimp only)
    | (with_reducible apply Steady.foldPair ?_ (fun _ _ => ?_); all_goals try dsimp only)
    | with_reducible apply Steady.iteFirst
    | (with_reducible apply Steady.first ?ee; (case ee => assumption))
    | split

theorem sealStep_steady (s : State) (c : Nat) (st : StepRec) : Steady [.smp, .fil, .stm, .lockets, .eph, .ckpt, .hif] s (sealStep s c st) := by
  unfold sealStep
  try dsimp only
  repeat' first
    | with_reducible apply Steady.refl
    | (with_reducible apply Steady.chain ?_ (replayCancels_steady _ _) ?sub; (case sub => decide))
    | (with_reducible apply Steady.chain ?_ (sealRow_steady _ _ _) ?sub; (case sub => decide))
    | (with_reducible apply Steady.chain ?_ (State.ephM_steady _ _) ?sub; (case sub => decide))
    | (with_reducible apply Steady.chain ?_ (State.stepM_steady _ _ _) ?sub; (case sub => decide))
    | (with_reducible apply Steady.chain ?_ (ephEvent_steady _ _) ?sub; (case sub => decide))
    | (with_reducible apply Steady.chain ?_ (State.ctxM_steady _ _ _) ?sub; (case sub => decide))
    | with_reducible apply Steady.ite
    | (with_reducible apply Steady.fold ?_ (fun _ _ => ?_); all_goals try dsimp only)
    | (with_reducible apply Steady.update <;> first | with_reducible exact Or.inl rfl | (apply Or.inr; decide) | (exact Or.inr ⟨by decide, fun h => by simpa using h⟩) | skip)

theorem execStepSeal_moves (s : State) : Moves [.smp, .fil, .stm, .lockets, .eph, .ckpt, .hif] s (execStepSeal s) := by
  unfold execStepSeal
  try dsimp only
  repeat' first
    | with_reducible apply Steady.refl
    | (with_reducible apply Steady.chain ?_ (sealStep_steady _ _ _) ?sub; (case sub => decide))
    | with_reducible apply when_moves
    | with_reducible apply Moves.next
    | split

theorem walkMember_steady (c : Nat) (st : StepRec) (s : State) (row : LenRow) : Steady [.smp, .stm, .lockets, .eph, .integ, .hif, .lan] s (walkMember c st s row) := by
  unfold walkMember
  try dsimp only
  repeat' first
    | with_reducible apply Steady.refl
    | (with_reducible apply Steady.chain ?_ (endStream_steady _ _ _) ?sub; (case sub => decide))
    | (with_reducible apply Steady.chain ?_ (tarnishSession_steady _ _ _ _) ?sub; (case sub => decide))
    | (with_reducible apply Steady.chain ?_ (State.stepM_steady _ _ _) ?sub; (case sub => decide))
    | (intro _; try dsimp only)
    | with_reducible apply Steady.ite
    | split
    | (with_reducible apply Steady.update <;> first | with_reducible exact Or.inl rfl | (apply Or.inr; decide) | (exact Or.inr ⟨by decide, fun h => by simpa using h⟩) | skip)

theorem execPathsFixed_moves (s : State) : Moves [.smp, .stm, .lockets, .eph, .integ, .hif, .lan] s (execPathsFixed s) := by
  unfold execPathsFixed
  try dsimp only
  repeat' first
    | with_reducible apply Steady.refl
    | (with_reducible apply Steady.chain ?_ (State.stepM_steady _ _ _) ?sub; (case sub => decide))
    | (with_reducible apply Steady.chain ?_ (walkMember_steady _ _ _ _) ?sub; (case sub => decide))
    | with_reducible apply clocked_moves
    | with_reducible apply when_moves
    | with_reducible apply Moves.next
    | (intro _; try dsimp only)
    | (with_reducible apply Steady.fold ?_ (fun _ _ => ?_); all_goals try dsimp only)
    | with_reducible apply Steady.orElse (fun _ _ => ?_)
    | split
    | (with_reducible apply Steady.update <;> first | with_reducible exact Or.inl rfl | (apply Or.inr; decide) | (exact Or.inr ⟨by decide, fun h => by simpa using h⟩) | skip)

end Sys2Proof.Machine
end

