-- ==== Sys2Proof/Laws/Frames/Parked.lean ====
section
/-!
SUPPORT. Sys2Proof/Laws/Frames/Parked.lean: what each operation of Machine/Parked.lean can change at most.
-/
namespace Sys2Proof.Machine



end Sys2Proof.Machine
end

