-- ==== Sys2Proof/Laws/Frames/Lockets.lean ====
section
/-!
SUPPORT. Sys2Proof/Laws/Frames/Lockets.lean: what each operation of Machine/Lockets.lean can change at most.
-/
namespace Sys2Proof.Machine

theorem stateRefuse_steady (s : State) (c : HCmd) (l' : Locket) : Steady [.hif] s (stateRefuse s c l') := by
  unfold stateRefuse
  try dsimp only
  repeat' first
    | with_reducible apply Steady.refl
    | (with_reducible apply Steady.chain ?_ (complete_steady _ _ _ _ _ _) ?sub; (case sub => decide))
    | split

theorem sessionCmd_moves {l : List Part} {s : State} {id op : Nat} {k : State → HCmd → Nat → Locket → State}
    (hm : ∀ p ∈ [Part.hif, Part.std, Part.lockets], p ∈ l) (hk : ∀ t c h x, Steady l t (k t c h x)) : Moves l s (sessionCmd s id op k) := by
  unfold sessionCmd
  split
  · exact .next .refl
  · refine Moves.ite (.next .refl) (hostCmd_moves (fun p q => hm p (by revert p; decide)) fun t c => ?_)
    split
    · exact Steady.refl.chain (complete_steady _ _ _ _ _ _) (fun p q => hm p (by revert p; decide))
    · rename_i h x e
      dsimp only
      have u : Steady l t (t.locketM h fun l => { l with lastTouch := max l.lastTouch c.accept, dirtyControl := true }) :=
        Steady.refl.chain (State.locketM_steady _ _ _) (fun p q => hm p (by revert p; decide))
      have v : ∀ st, Steady l t (complete (t.locketM h fun l => { l with lastTouch := max l.lastTouch c.accept, dirtyControl := true }) c st 0 0 0) :=
        fun st => u.chain (complete_steady _ _ _ _ _ _) (fun p q => hm p (by revert p; decide))
      exact Steady.ite (v _) (Steady.ite (v _) (u.chain (hk _ _ _ _) (fun _ q => q)))

theorem abandonDemotion_steady (s : State) (h : Nat) (status : Nat) : Steady [.lockets, .extents, .cur, .bays, .hif] s (abandonDemotion s h status) := by
  unfold abandonDemotion
  try dsimp only
  repeat' first
    | with_reducible apply Steady.refl
    | (with_reducible apply Steady.chain ?_ (abandonFor_steady _ _) ?sub; (case sub => decide))
    | (with_reducible apply Steady.chain ?_ (dropExtent_steady _ _) ?sub; (case sub => decide))
    | (with_reducible apply Steady.chain ?_ (State.locketM_steady _ _ _) ?sub; (case sub => decide))
    | (with_reducible apply Steady.chain ?_ (completeId_steady _ _ _ _ _ _) ?sub; (case sub => decide))
    | with_reducible apply Steady.ite
    | split

theorem takePin_steady (s : State) (h : Nat) (id : Nat) : Steady [.lockets, .extents, .cur, .bays, .hif] s (takePin s h id) := by
  unfold takePin
  try dsimp only
  repeat' first
    | with_reducible apply Steady.refl
    | (with_reducible apply Steady.chain ?_ (State.locketM_steady _ _ _) ?sub; (case sub => decide))
    | (with_reducible apply Steady.chain ?_ (abandonDemotion_steady _ _ _) ?sub; (case sub => decide))
    | with_reducible apply Steady.ite

theorem presentPages_steady (s : State) (h : Nat) (home : Nat) (vpns : List Nat) (fs : List Nat) : Steady [.lockets, .t1] s (presentPages s h home vpns fs) := by
  have go : ∀ (fs : List Nat) (m : Mem), m.wf = true → (fs.foldl (fun m f => Mem.clear m (frameAddr s home f) (frameAddr s home f + 65536)) m).wf = true := by
    intro fs
    induction fs with
    | nil => exact fun m h => h
    | cons f fs ih => exact fun m h => ih _ (clear_wf _ _ h)
  unfold presentPages
  dsimp only
  with_reducible apply Steady.chain ?_ (State.locketM_steady _ _ _) ?sub; (case sub => decide)
  with_reducible apply Steady.update <;> first | with_reducible exact Or.inl rfl | skip
  · exact Or.inr ⟨by decide, go fs _⟩
  · exact .refl

theorem opened_steady (s : State) (h : Nat) (id : Nat) : Steady [.lockets, .hif] s (opened s h id) := by
  unfold opened
  try dsimp only
  repeat' first
    | with_reducible apply Steady.refl
    | (with_reducible apply Steady.chain ?_ (State.locketM_steady _ _ _) ?sub; (case sub => decide))
    | (with_reducible apply Steady.chain ?_ (completeId_steady _ _ _ _ _ _) ?sub; (case sub => decide))
    | split

theorem openStart_steady (s : State) (c : HCmd) : Steady [.ast, .lockets, .charms, .t1, .extents, .cur, .hif] s (openStart s c) := by
  unfold openStart
  try dsimp only
  repeat' first
    | with_reducible apply Steady.refl
    | (with_reducible apply Steady.chain ?_ (complete_steady _ _ _ _ _ _) ?sub; (case sub => decide))
    | (with_reducible apply Steady.chain ?_ (takeFrames_steady _ _ _ _) ?sub; (case sub => decide))
    | (with_reducible apply Steady.chain ?_ (presentPages_steady _ _ _ _ _) ?sub; (case sub => decide))
    | (with_reducible apply Steady.chain ?_ (opened_steady _ _ _) ?sub; (case sub => decide))
    | (with_reducible apply Steady.chain ?_ (pinReplica_steady _ _ _ _) ?sub; (case sub => decide))
    | (with_reducible apply Steady.chain ?_ (State.locketM_steady _ _ _) ?sub; (case sub => decide))
    | (with_reducible apply Steady.chain ?_ (submit_steady _ _) ?sub; (case sub => decide))
    | (intro _; try dsimp only)
    | with_reducible apply Steady.ite
    | with_reducible apply Steady.orElse (fun _ _ => ?_)
    | (with_reducible apply Steady.first ?ee; (case ee => assumption))
    | split
    | (with_reducible apply Steady.update <;> first | with_reducible exact Or.inl rfl | (apply Or.inr; decide) | (exact Or.inr ⟨by decide, fun h => by simpa using h⟩) | skip)

theorem execSessionOpen_moves (id : Nat) (s : State) : Moves [.ast, .lockets, .charms, .t1, .extents, .cur, .hif, .std] s (execSessionOpen id s) := by
  unfold execSessionOpen
  try dsimp only
  repeat' first
    | with_reducible apply Steady.refl
    | (with_reducible apply hostCmd_moves ?sub ?_; (case sub => decide))
    | (with_reducible apply Steady.chain ?_ (openStart_steady _ _) ?sub; (case sub => decide))
    | (intro _; try dsimp only)

theorem copyRing_steady (s : State) (h : Nat) : Steady [.ast, .lockets, .t1, .integ] s (copyRing s h) := by
  unfold copyRing
  try dsimp only
  repeat' first
    | with_reducible apply Steady.refl
    | (with_reducible apply Steady.chain ?_ (kvWrite_steady _ _ _ _ _) ?sub; (case sub => decide))
    | (with_reducible apply Steady.fold ?_ (fun _ _ => ?_); all_goals try dsimp only)
    | (with_reducible apply Steady.foldPair ?_ (fun _ _ => ?_); all_goals try dsimp only)
    | split

theorem cutTest_steady (s : State) : Steady [.ory, .integ] s (cutTest s) := by
  unfold cutTest
  try dsimp only
  repeat' first
    | with_reducible apply Steady.refl
    | (with_reducible apply Steady.chain ?_ (State.integM_steady _ _) ?sub; (case sub => decide))
    | (with_reducible apply Steady.chain ?_ (State.oryM_steady _ _) ?sub; (case sub => decide))
    | with_reducible apply Steady.ite

theorem dropJobs_steady (s : State) (p : Job → Bool) : Steady [.ory, .eph, .integ] s (dropJobs s p) := by
  unfold dropJobs
  try dsimp only
  repeat' first
    | with_reducible apply Steady.refl
    | (with_reducible apply Steady.chain ?_ (State.ephM_steady _ _) ?sub; (case sub => decide))
    | (with_reducible apply Steady.chain ?_ (State.oryM_steady _ _) ?sub; (case sub => decide))
    | (with_reducible apply Steady.chain ?_ (cutTest_steady _) ?sub; (case sub => decide))
    | (intro _; try dsimp only)
    | with_reducible apply Steady.ite
    | split

theorem abandonRecompute_steady (s : State) (h : Nat) : Steady [.ory, .ast, .lockets, .extents, .cur, .bays, .eph, .integ] s (abandonRecompute s h) := by
  unfold abandonRecompute
  try dsimp only
  repeat' first
    | with_reducible apply Steady.refl
    | (with_reducible apply Steady.chain ?_ (dropJobs_steady _ _) ?sub; (case sub => decide))
    | (with_reducible apply Steady.chain ?_ (abandonFor_steady _ _) ?sub; (case sub => decide))
    | (with_reducible apply Steady.chain ?_ (releaseFrames_steady _ _ _) ?sub; (case sub => decide))
    | (with_reducible apply Steady.chain ?_ (dropPages_steady _ _) ?sub; (case sub => decide))
    | (with_reducible apply Steady.chain ?_ (State.locketM_steady _ _ _) ?sub; (case sub => decide))
    | with_reducible apply Steady.ite
    | split

theorem abandonMove_steady (s : State) (h : Nat) : Steady [.ast, .lockets, .extents, .cur, .bays] s (abandonMove s h) := by
  unfold abandonMove
  try dsimp only
  repeat' first
    | with_reducible apply Steady.refl
    | (with_reducible apply Steady.chain ?_ (abandonFor_steady _ _) ?sub; (case sub => decide))
    | (with_reducible apply Steady.chain ?_ (releaseFrames_steady _ _ _) ?sub; (case sub => decide))
    | (with_reducible apply Steady.chain ?_ (State.astM_steady _ _) ?sub; (case sub => decide))
    | (with_reducible apply Steady.chain ?_ (State.locketM_steady _ _ _) ?sub; (case sub => decide))
    | with_reducible apply Steady.ite
    | split

theorem returnJoin_steady (s : State) (h : Nat) : Steady [.ory, .ast, .lockets, .charms, .extents, .cur, .bays, .eph, .integ] s (returnJoin s h) := by
  unfold returnJoin
  try dsimp only
  repeat' first
    | with_reducible apply Steady.refl
    | (with_reducible apply Steady.chain ?_ (abandonMove_steady _ _) ?sub; (case sub => decide))
    | (with_reducible apply Steady.chain ?_ (abandonRecompute_steady _ _) ?sub; (case sub => decide))
    | (with_reducible apply Steady.chain ?_ (releaseFrames_steady _ _ _) ?sub; (case sub => decide))
    | (with_reducible apply Steady.chain ?_ (State.locketM_steady _ _ _) ?sub; (case sub => decide))
    | (with_reducible apply Steady.chain ?_ (unpinReplicas_steady _ _) ?sub; (case sub => decide))
    | (intro _; try dsimp only)
    | with_reducible apply Steady.ite
    | with_reducible apply Steady.orElse (fun _ _ => ?_)
    | split

theorem withdrawJoin_steady (s : State) (h : Nat) (status : Nat) : Steady [.ory, .ast, .lockets, .charms, .extents, .cur, .bays, .eph, .integ, .hif] s (withdrawJoin s h status) := by
  unfold withdrawJoin
  try dsimp only
  repeat' first
    | with_reducible apply Steady.refl
    | (with_reducible apply Steady.chain ?_ (State.ephM_steady _ _) ?sub; (case sub => decide))
    | (with_reducible apply Steady.chain ?_ (State.locketM_steady _ _ _) ?sub; (case sub => decide))
    | (with_reducible apply Steady.chain ?_ (returnJoin_steady _ _) ?sub; (case sub => decide))
    | (with_reducible apply Steady.chain ?_ (completeId_steady _ _ _ _ _ _) ?sub; (case sub => decide))
    | with_reducible apply Steady.ite
    | (with_reducible apply Steady.fold ?_ (fun _ _ => ?_); all_goals try dsimp only)
    | (with_reducible apply Steady.foldPair ?_ (fun _ _ => ?_); all_goals try dsimp only)
    | with_reducible apply Steady.iteFirst

theorem closeSession_steady (s : State) (c : HCmd) (h : Nat) (l' : Locket) : Steady [.ory, .ast, .stm, .lockets, .charms, .extents, .cur, .bays, .eph, .integ, .ckpt, .hif] s (closeSession s c h l') := by
  unfold closeSession
  try dsimp only
  repeat' first
    | with_reducible apply Steady.refl
    | (with_reducible apply Steady.chain ?_ (complete_steady _ _ _ _ _ _) ?sub; (case sub => decide))
    | (with_reducible apply Steady.chain ?_ (abandonDemotion_steady _ _ _) ?sub; (case sub => decide))
    | (with_reducible apply Steady.chain ?_ (abandonRecompute_steady _ _) ?sub; (case sub => decide))
    | (with_reducible apply Steady.chain ?_ (withdrawJoin_steady _ _ _) ?sub; (case sub => decide))
    | (with_reducible apply Steady.chain ?_ (endStream_steady _ _ _) ?sub; (case sub => decide))
    | (with_reducible apply Steady.chain ?_ (finishClose_steady _ _) ?sub; (case sub => decide))
    | (with_reducible apply Steady.chain ?_ (State.locketM_steady _ _ _) ?sub; (case sub => decide))
    | with_reducible apply Steady.ite
    | split

theorem execSessionClose_moves (id : Nat) (s : State) : Moves [.ory, .ast, .stm, .lockets, .charms, .extents, .cur, .bays, .eph, .integ, .ckpt, .hif, .std] s (execSessionClose id s) := by
  unfold execSessionClose
  try dsimp only
  repeat' first
    | with_reducible apply Steady.refl
    | (with_reducible apply sessionCmd_moves ?sub ?_; (case sub => decide))
    | (with_reducible apply Steady.chain ?_ (closeSession_steady _ _ _ _) ?sub; (case sub => decide))
    | (intro _; try dsimp only)

theorem ingestStart_steady (data : List Byte) (s : State) (c : HCmd) (h : Nat) (x1 : Locket) : Steady [.lockets, .extents, .cur, .bays, .hif] s (ingestStart data s c h x1) := by
  unfold ingestStart
  try dsimp only
  repeat' first
    | with_reducible apply Steady.refl
    | (with_reducible apply Steady.chain ?_ (takePin_steady _ _ _) ?sub; (case sub => decide))
    | (with_reducible apply Steady.chain ?_ (stateRefuse_steady _ _ _) ?sub; (case sub => decide))
    | (with_reducible apply Steady.chain ?_ (complete_steady _ _ _ _ _ _) ?sub; (case sub => decide))
    | (with_reducible apply Steady.chain ?_ (appendInput_steady _ _ _ _) ?sub; (case sub => decide))
    | with_reducible apply Steady.ite
    | split

theorem execIngest_moves (id : Nat) (data : List Byte) (s : State) : Moves [.lockets, .extents, .cur, .bays, .hif, .std] s (execIngest id data s) := by
  unfold execIngest
  try dsimp only
  repeat' first
    | with_reducible apply Steady.refl
    | (with_reducible apply sessionCmd_moves ?sub ?_; (case sub => decide))
    | (with_reducible apply Steady.chain ?_ (ingestStart_steady _ _ _ _ _) ?sub; (case sub => decide))
    | (intro _; try dsimp only)

theorem openStream_steady (s : State) (c : HCmd) (h : Nat) (l' : Locket) : Steady [.lockets] s (openStream s c h l') := by
  unfold openStream
  try dsimp only
  repeat' first
    | with_reducible apply Steady.refl
    | (with_reducible apply Steady.chain ?_ (State.locketM_steady _ _ _) ?sub; (case sub => decide))
    | with_reducible apply Steady.ite

theorem generateStart_steady (s : State) (c : HCmd) (h : Nat) (x1 : Locket) : Steady [.lockets, .extents, .cur, .bays, .hif] s (generateStart s c h x1) := by
  unfold generateStart
  try dsimp only
  repeat' first
    | with_reducible apply Steady.refl
    | (with_reducible apply Steady.chain ?_ (takePin_steady _ _ _) ?sub; (case sub => decide))
    | (with_reducible apply Steady.chain ?_ (stateRefuse_steady _ _ _) ?sub; (case sub => decide))
    | (with_reducible apply Steady.chain ?_ (complete_steady _ _ _ _ _ _) ?sub; (case sub => decide))
    | (with_reducible apply Steady.chain ?_ (State.locketM_steady _ _ _) ?sub; (case sub => decide))
    | (with_reducible apply Steady.chain ?_ (openStream_steady _ _ _ _) ?sub; (case sub => decide))
    | (intro _; try dsimp only)
    | with_reducible apply Steady.ite
    | with_reducible apply Steady.orElse (fun _ _ => ?_)
    | split

theorem execGenerate_moves (id : Nat) (s : State) : Moves [.lockets, .extents, .cur, .bays, .hif, .std] s (execGenerate id s) := by
  unfold execGenerate
  try dsimp only
  repeat' first
    | with_reducible apply Steady.refl
    | (with_reducible apply sessionCmd_moves ?sub ?_; (case sub => decide))
    | (with_reducible apply Steady.chain ?_ (generateStart_steady _ _ _ _) ?sub; (case sub => decide))
    | (intro _; try dsimp only)

theorem cancelStart_steady (s : State) (c : HCmd) (h : Nat) (l' : Locket) : Steady [.stm, .lockets, .eph, .hif] s (cancelStart s c h l') := by
  unfold cancelStart
  try dsimp only
  repeat' first
    | with_reducible apply Steady.refl
    | (with_reducible apply Steady.chain ?_ (stateRefuse_steady _ _ _) ?sub; (case sub => decide))
    | (with_reducible apply Steady.chain ?_ (cancelOn_steady _ _ _) ?sub; (case sub => decide))
    | (with_reducible apply Steady.chain ?_ (complete_steady _ _ _ _ _ _) ?sub; (case sub => decide))
    | (intro _; try dsimp only)
    | with_reducible apply Steady.ite
    | with_reducible apply Steady.orElse (fun _ _ => ?_)
    | (with_reducible apply Steady.first ?ee; (case ee => assumption))
    | split
    | (with_reducible apply Steady.update <;> first | with_reducible exact Or.inl rfl | (apply Or.inr; decide) | (exact Or.inr ⟨by decide, fun h => by simpa using h⟩) | skip)

theorem execCancel_moves (id : Nat) (s : State) : Moves [.stm, .lockets, .eph, .hif, .std] s (execCancel id s) := by
  unfold execCancel
  try dsimp only
  repeat' first
    | with_reducible apply Steady.refl
    | (with_reducible apply sessionCmd_moves ?sub ?_; (case sub => decide))
    | (with_reducible apply Steady.chain ?_ (cancelStart_steady _ _ _ _) ?sub; (case sub => decide))
    | (intro _; try dsimp only)

theorem startDemotion_yields (s : State) (h : Nat) (tier : Nat) (bay : Nat) (cmd : Option Nat) : Yields [.ast, .lockets, .extents, .cur, .bays, .lan] s (startDemotion s h tier bay cmd) := by
  unfold startDemotion
  try dsimp only
  repeat' first
    | with_reducible apply Steady.refl
    | (with_reducible apply Steady.chain ?_ ((openExtent_gives _ _).frame (by assumption)) ?sub; (case sub => decide))
    | (with_reducible apply Steady.chain ?_ (lowater_steady _) ?sub; (case sub => decide))
    | (with_reducible apply Steady.chain ?_ (State.locketM_steady _ _ _) ?sub; (case sub => decide))
    | (with_reducible apply Steady.chain ?_ (submit_steady _ _) ?sub; (case sub => decide))
    | exact Yields.none
    | with_reducible apply Yields.some
    | with_reducible apply Yields.ite
    | with_reducible apply Steady.ite
    | split

theorem parkStart_steady (s : State) (c : HCmd) (h : Nat) (l' : Locket) : Steady [.ast, .lockets, .extents, .cur, .bays, .hif, .lan] s (parkStart s c h l') := by
  unfold parkStart
  try dsimp only
  repeat' first
    | with_reducible apply Steady.refl
    | (with_reducible apply Steady.chain ?_ (State.locketM_steady _ _ _) ?sub; (case sub => decide))
    | (with_reducible apply Steady.chain ?_ (complete_steady _ _ _ _ _ _) ?sub; (case sub => decide))
    | (with_reducible apply Steady.chain ?_ ((startDemotion_yields _ _ _ _ _).frame (by assumption)) ?sub; (case sub => decide))
    | with_reducible apply Steady.ite
    | (with_reducible apply Steady.choose ?ee; (case ee => assumption))
    | split

theorem execPark_moves (id : Nat) (s : State) : Moves [.ast, .lockets, .extents, .cur, .bays, .hif, .std, .lan] s (execPark id s) := by
  unfold execPark
  try dsimp only
  repeat' first
    | with_reducible apply Steady.refl
    | (with_reducible apply sessionCmd_moves ?sub ?_; (case sub => decide))
    | (with_reducible apply Steady.chain ?_ (parkStart_steady _ _ _ _) ?sub; (case sub => decide))
    | (intro _; try dsimp only)

theorem expireLocket_steady (s : State) (h : Nat) : Steady [.ast, .lockets, .charms, .extents, .cur, .bays, .ckpt] s (expireLocket s h) := by
  unfold expireLocket
  try dsimp only
  repeat' first
    | with_reducible apply Steady.refl
    | (with_reducible apply Steady.chain ?_ (releaseFrames_steady _ _ _) ?sub; (case sub => decide))
    | (with_reducible apply Steady.chain ?_ (vacateAll_steady _ _) ?sub; (case sub => decide))
    | (with_reducible apply Steady.chain ?_ (freeExtent_steady _ _) ?sub; (case sub => decide))
    | (with_reducible apply Steady.chain ?_ (releaseCharmRef_steady _ _) ?sub; (case sub => decide))
    | (with_reducible apply Steady.chain ?_ (State.locketM_steady _ _ _) ?sub; (case sub => decide))
    | with_reducible apply Steady.ite
    | split

theorem tryTiers_steady (s : State) (h : Nat) (ts : List Nat) : Steady [.ast, .lockets, .extents, .cur, .bays, .lan] s (tryTiers s h ts) := by
  induction ts with
  | nil => exact Steady.refl.chain (State.locketM_steady _ _ _) (by decide)
  | cons t ts ih =>
    unfold tryTiers
    split
    · rename_i u e
      exact (Steady.refl.chain ((startDemotion_yields _ _ _ _ _).frame e) (by decide)).chain (State.locketM_steady _ _ _) (by decide)
    · exact ih

theorem ttlOut_steady (s : State) (h : Nat) (l' : Locket) : Steady [.ast, .lockets, .charms, .extents, .cur, .bays, .ckpt, .lan] s (ttlOut s h l') := by
  unfold ttlOut
  try dsimp only
  repeat' first
    | with_reducible apply Steady.refl
    | (with_reducible apply Steady.chain ?_ (expireLocket_steady _ _) ?sub; (case sub => decide))
    | (with_reducible apply Steady.chain ?_ (tryTiers_steady _ _ _) ?sub; (case sub => decide))
    | split

theorem execTtlExpiry_moves (handle : Nat) (s : State) : Moves [.ast, .lockets, .charms, .extents, .cur, .bays, .ckpt, .lan] s (execTtlExpiry handle s) := by
  unfold execTtlExpiry
  try dsimp only
  repeat' first
    | with_reducible apply Steady.refl
    | (with_reducible apply Steady.chain ?_ (ttlOut_steady _ _ _) ?sub; (case sub => decide))
    | with_reducible apply when_moves
    | with_reducible apply Moves.next
    | split

theorem execDemoteRetry_moves (handle : Nat) (s : State) : Moves [.ast, .lockets, .charms, .extents, .cur, .bays, .ckpt, .lan] s (execDemoteRetry handle s) := by
  unfold execDemoteRetry
  try dsimp only
  repeat' first
    | with_reducible apply Steady.refl
    | (with_reducible apply Steady.chain ?_ (ttlOut_steady _ _ _) ?sub; (case sub => decide))
    | with_reducible apply when_moves
    | with_reducible apply Moves.next
    | split

theorem failDemotion_steady (s : State) (h : Nat) : Steady [.ast, .lockets, .extents, .cur, .bays, .hif, .lan] s (failDemotion s h) := by
  unfold failDemotion
  try dsimp only
  repeat' first
    | with_reducible apply Steady.refl
    | (with_reducible apply Steady.chain ?_ (abandonDemotion_steady _ _ _) ?sub; (case sub => decide))
    | (with_reducible apply Steady.chain ?_ (tryTiers_steady _ _ _) ?sub; (case sub => decide))
    | with_reducible apply Steady.ite
    | split

theorem execDemotionCommit_moves (handle : Nat) (s : State) : Moves [.ast, .lockets, .extents, .cur, .bays, .hif] s (execDemotionCommit handle s) := by
  unfold execDemotionCommit
  try dsimp only
  repeat' first
    | with_reducible apply Steady.refl
    | (with_reducible apply Steady.chain ?_ (takeDone_steady _ _) ?sub; (case sub => decide))
    | (with_reducible apply Steady.chain ?_ (releaseFrames_steady _ _ _) ?sub; (case sub => decide))
    | (with_reducible apply Steady.chain ?_ (vacateAll_steady _ _) ?sub; (case sub => decide))
    | (with_reducible apply Steady.chain ?_ (freeExtent_steady _ _) ?sub; (case sub => decide))
    | (with_reducible apply Steady.chain ?_ (State.locketM_steady _ _ _) ?sub; (case sub => decide))
    | (with_reducible apply Steady.chain ?_ (completeId_steady _ _ _ _ _ _) ?sub; (case sub => decide))
    | with_reducible apply clocked_moves
    | with_reducible apply Moves.next
    | with_reducible apply Moves.ite
    | (intro _; try dsimp only)
    | with_reducible apply Steady.ite
    | with_reducible apply Steady.orElse (fun _ _ => ?_)
    | split

end Sys2Proof.Machine
end

