-- ==== Sys2Proof/Laws/Frames/Charms.lean ====
section
/-!
SUPPORT. Sys2Proof/Laws/Frames/Charms.lean: what each operation of Machine/Charms.lean can change at most.
-/
namespace Sys2Proof.Machine

theorem replicaWrite_steady (s : State) (img : List Byte) (ci : Nat) (st : Nat) (loc : Bool) (x : Nat) (data : List Byte) : Steady [.t1] s (replicaWrite s img ci st loc x data) := by
  unfold replicaWrite
  try dsimp only
  repeat' first
    | with_reducible apply Steady.refl
    | (with_reducible apply Steady.fold ?_ (fun _ _ => ?_); all_goals try dsimp only)
    | (with_reducible apply Steady.foldPair ?_ (fun _ _ => ?_); all_goals try dsimp only)
    | split
    | (with_reducible apply Steady.update <;> first | with_reducible exact Or.inl rfl | (apply Or.inr; decide) | (exact Or.inr ⟨by decide, fun h => by simpa using h⟩) | skip)
    | exact Or.inr ⟨by decide, writeN_wf _ _⟩
    | exact Or.inr ⟨by decide, write_wf _ _⟩
    | exact Or.inr ⟨by decide, clear_wf _ _⟩
    | exact Or.inr ⟨by decide, copyFrom_wf _ _ _ _⟩
    | exact Or.inr ⟨by decide, clearAll_wf _ _ _⟩
    | exact Or.inr ⟨by decide, fun _ => rfl⟩

theorem fillFromSource_steady (s : State) (img : List Byte) (ci : Nat) (l' : Locket) : Steady [.t1] s (fillFromSource s img ci l') := by
  unfold fillFromSource
  try dsimp only
  repeat' first
    | with_reducible apply Steady.refl
    | (with_reducible apply Steady.chain ?_ (replicaWrite_steady _ _ _ _ _ _ _) ?sub; (case sub => decide))
    | (with_reducible apply Steady.fold ?_ (fun _ _ => ?_); all_goals try dsimp only)
    | (with_reducible apply Steady.foldPair ?_ (fun _ _ => ?_); all_goals try dsimp only)
    | split

theorem replicaWith_steady (ci : Nat) (st : Nat) (pin : Nat) (m : Charm) (s : State) (fs : List Nat) : Steady [.charms, .extents, .cur] s (replicaWith ci st pin m s fs) := by
  unfold replicaWith
  try dsimp only
  repeat' first
    | with_reducible apply Steady.refl
    | (with_reducible apply Steady.chain ?_ (State.replicaM_steady _ _ _ _) ?sub; (case sub => decide))
    | (with_reducible apply Steady.chain ?_ (pinReplica_steady _ _ _ _) ?sub; (case sub => decide))
    | (with_reducible apply Steady.chain ?_ (submit_steady _ _) ?sub; (case sub => decide))
    | with_reducible apply Steady.ite

theorem startReplica_yields (s : State) (ci : Nat) (st : Nat) (pin : Nat) : Yields [.ast, .lockets, .charms, .extents, .cur] s (startReplica s ci st pin) := by
  unfold startReplica
  try dsimp only
  repeat' first
    | with_reducible apply Steady.refl
    | (with_reducible apply Steady.chain ?_ (takeFrames_steady _ _ _ _) ?sub; (case sub => decide))
    | (with_reducible apply Steady.chain ?_ (replicaWith_steady _ _ _ _ _ _) ?sub; (case sub => decide))
    | exact Yields.none
    | with_reducible apply Yields.some
    | (with_reducible apply Yields.map; try dsimp only)
    | (intro _; try dsimp only)
    | with_reducible apply Steady.orElse (fun _ _ => ?_)
    | (with_reducible apply Steady.first ?ee; (case ee => assumption))
    | split

theorem settleCharm_steady (s : State) (ci : Nat) : Steady [.ast, .charms, .extents, .cur, .bays, .ckpt] s (settleCharm s ci) := by
  unfold settleCharm
  try dsimp only
  repeat' first
    | with_reducible apply Steady.refl
    | (with_reducible apply Steady.chain ?_ (freeCharm_steady _ _) ?sub; (case sub => decide))
    | with_reducible apply Steady.ite
    | split

theorem finishCharm_steady (s : State) (ci : Nat) : Steady [.ast, .charms, .extents, .cur, .bays, .ckpt, .hif] s (finishCharm s ci) := by
  unfold finishCharm
  try dsimp only
  repeat' first
    | with_reducible apply Steady.refl
    | (with_reducible apply Steady.chain ?_ (State.charmM_steady _ _ _) ?sub; (case sub => decide))
    | (with_reducible apply Steady.chain ?_ (settleCharm_steady _ _) ?sub; (case sub => decide))
    | (with_reducible apply Steady.chain ?_ (completeId_steady _ _ _ _ _ _) ?sub; (case sub => decide))
    | (with_reducible apply Steady.chain ?_ (State.ckptM_steady _ _) ?sub; (case sub => decide))
    | (intro _; try dsimp only)
    | with_reducible apply Steady.ite
    | with_reducible apply Steady.orElse (fun _ _ => ?_)
    | split

theorem failCharm_steady (s : State) (ci : Nat) : Steady [.ast, .charms, .extents, .cur, .bays, .ckpt, .hif] s (failCharm s ci) := by
  unfold failCharm
  try dsimp only
  repeat' first
    | with_reducible apply Steady.refl
    | (with_reducible apply Steady.chain ?_ (completeId_steady _ _ _ _ _ _) ?sub; (case sub => decide))
    | (with_reducible apply Steady.chain ?_ (freeCharm_steady _ _) ?sub; (case sub => decide))
    | split

theorem placeCharm_steady (c : HCmd) (l' : Locket) (img : List Byte) (digest : Nat) (ci : Nat) (addr : Nat) (n : Nat) (s : State) (fs : List Nat) : Steady [.ast, .charms, .t1, .extents, .cur] s (placeCharm c l' img digest ci addr n s fs) := by
  unfold placeCharm
  try dsimp only
  repeat' first
    | with_reducible apply Steady.refl
    | (with_reducible apply Steady.chain ?_ (lowater_steady _) ?sub; (case sub => decide))
    | (with_reducible apply Steady.chain ?_ (fillFromSource_steady _ _ _ _) ?sub; (case sub => decide))
    | (with_reducible apply Steady.chain ?_ (submit_steady _ _) ?sub; (case sub => decide))
    | (with_reducible apply Steady.update <;> first | with_reducible exact Or.inl rfl | (apply Or.inr; decide) | (exact Or.inr ⟨by decide, fun h => by simpa using h⟩) | skip)

theorem placeMaster_yields (c : HCmd) (ci : Nat) (n : Nat) (s : State) : Yields [.charms, .extents, .cur, .bays, .lan] s (placeMaster c ci n s) := by
  unfold placeMaster
  try dsimp only
  repeat' first
    | with_reducible apply Steady.refl
    | (with_reducible apply Steady.chain ?_ (submit_steady _ _) ?sub; (case sub => decide))
    | (with_reducible apply Steady.chain ?_ (State.charmM_steady _ _ _) ?sub; (case sub => decide))
    | (with_reducible apply Steady.chain ?_ ((openExtent_gives _ _).frame (by assumption)) ?sub; (case sub => decide))
    | exact Yields.none
    | with_reducible apply Yields.some
    | with_reducible apply Yields.ite
    | (with_reducible apply Yields.map; try dsimp only)
    | (intro _; try dsimp only)
    | with_reducible apply Steady.ite
    | with_reducible apply Steady.iteFirst

theorem buildCharm_yields (s : State) (c : HCmd) (l' : Locket) (digest : Nat) : Yields [.ast, .charms, .t1, .extents, .cur, .bays, .lan] s (buildCharm s c l' digest) := by
  unfold buildCharm
  dsimp only
  split
  · exact .none
  · refine .ite .none ?_
    split
    · exact .none
    · rename_i ci _ _ addr _
      have h := Steady.refl.chain (takeFree_steady s l'.home (charmPages (locketImg s l') (c.fld 24 4) l'.gbase) (.replica (replicaId ci l'.home))) (l := [.ast, .charms, .t1, .extents, .cur, .bays, .lan]) (by decide)
      refine Yields.bind fun fs _ => ?_
      exact .chain (h.chain (placeCharm_steady _ _ _ _ _ _ _ _ _) (by decide)) (placeMaster_yields _ _ _ _) (by decide)

theorem charmFrom_steady (s : State) (c : HCmd) (l' : Locket) : Steady [.ast, .charms, .t1, .extents, .cur, .bays, .ckpt, .hif, .lan] s (charmFrom s c l') := by
  unfold charmFrom
  try dsimp only
  repeat' first
    | with_reducible apply Steady.refl
    | (with_reducible apply Steady.chain ?_ (complete_steady _ _ _ _ _ _) ?sub; (case sub => decide))
    | (with_reducible apply Steady.chain ?_ (State.ckptM_steady _ _) ?sub; (case sub => decide))
    | (with_reducible apply Steady.chain ?_ (State.charmM_steady _ _ _) ?sub; (case sub => decide))
    | (with_reducible apply Steady.chain ?_ ((buildCharm_yields _ _ _ _).frame (by assumption)) ?sub; (case sub => decide))
    | with_reducible apply Steady.ite
    | (with_reducible apply Steady.choose ?ee; (case ee => assumption))
    | split

theorem charmStart_steady (s : State) (c : HCmd) : Steady [.ast, .lockets, .charms, .t1, .extents, .cur, .bays, .ckpt, .hif, .lan] s (charmStart s c) := by
  unfold charmStart
  try dsimp only
  repeat' first
    | with_reducible apply Steady.refl
    | (with_reducible apply Steady.chain ?_ (complete_steady _ _ _ _ _ _) ?sub; (case sub => decide))
    | (with_reducible apply Steady.chain ?_ (takePin_steady _ _ _) ?sub; (case sub => decide))
    | (with_reducible apply Steady.chain ?_ (State.locketM_steady _ _ _) ?sub; (case sub => decide))
    | (with_reducible apply Steady.chain ?_ (charmFrom_steady _ _ _) ?sub; (case sub => decide))
    | with_reducible apply Steady.ite
    | split

theorem execCharmCreate_moves (id : Nat) (s : State) : Moves [.ast, .lockets, .charms, .t1, .extents, .cur, .bays, .ckpt, .hif, .std, .lan] s (execCharmCreate id s) := by
  unfold execCharmCreate
  try dsimp only
  repeat' first
    | with_reducible apply Steady.refl
    | (with_reducible apply hostCmd_moves ?sub ?_; (case sub => decide))
    | (with_reducible apply Steady.chain ?_ (charmStart_steady _ _) ?sub; (case sub => decide))
    | (intro _; try dsimp only)

theorem execCharmDrop_moves (id : Nat) (s : State) : Moves [.ast, .charms, .extents, .cur, .bays, .ckpt, .hif, .std] s (execCharmDrop id s) := by
  unfold execCharmDrop
  try dsimp only
  repeat' first
    | with_reducible apply Steady.refl
    | (with_reducible apply hostCmd_moves ?sub ?_; (case sub => decide))
    | (with_reducible apply Steady.chain ?_ (complete_steady _ _ _ _ _ _) ?sub; (case sub => decide))
    | (with_reducible apply Steady.chain ?_ (State.charmM_steady _ _ _) ?sub; (case sub => decide))
    | (with_reducible apply Steady.chain ?_ (settleCharm_steady _ _) ?sub; (case sub => decide))
    | (with_reducible apply Steady.chain ?_ (State.ckptM_steady _ _) ?sub; (case sub => decide))
    | (intro _; try dsimp only)
    | split

theorem execCharmTtlExpiry_moves (charm : Nat) (s : State) : Moves [.ast, .charms, .extents, .cur, .bays, .ckpt] s (execCharmTtlExpiry charm s) := by
  unfold execCharmTtlExpiry
  try dsimp only
  repeat' first
    | with_reducible apply Steady.refl
    | (with_reducible apply Steady.chain ?_ (settleCharm_steady _ _) ?sub; (case sub => decide))
    | (with_reducible apply Steady.chain ?_ (State.charmM_steady _ _ _) ?sub; (case sub => decide))
    | with_reducible apply when_moves
    | with_reducible apply Moves.next
    | split

theorem execReplicaEvictStart_moves (charm : Nat) (stack : Nat) (s : State) : Moves [.ast, .charms] s (execReplicaEvictStart charm stack s) := by
  unfold execReplicaEvictStart
  try dsimp only
  repeat' first
    | with_reducible apply Steady.refl
    | (with_reducible apply Steady.chain ?_ (tlbDropId_steady _ _) ?sub; (case sub => decide))
    | (with_reducible apply Steady.chain ?_ (State.charmM_steady _ _ _) ?sub; (case sub => decide))
    | (with_reducible apply Steady.chain ?_ (State.replicaM_steady _ _ _ _) ?sub; (case sub => decide))
    | with_reducible apply formed_moves
    | with_reducible apply clocked_moves
    | with_reducible apply when_moves
    | with_reducible apply Moves.next
    | with_reducible apply Moves.ite
    | with_reducible apply Steady.ite
    | split

theorem execReplicaEvictCommit_moves (charm : Nat) (stack : Nat) (s : State) : Moves [.ast, .charms] s (execReplicaEvictCommit charm stack s) := by
  unfold execReplicaEvictCommit
  try dsimp only
  repeat' first
    | with_reducible apply Steady.refl
    | (with_reducible apply Steady.chain ?_ (State.replicaM_steady _ _ _ _) ?sub; (case sub => decide))
    | (with_reducible apply Steady.chain ?_ (tlbDropId_steady _ _) ?sub; (case sub => decide))
    | (with_reducible apply Steady.chain ?_ (releaseFrames_steady _ _ _) ?sub; (case sub => decide))
    | with_reducible apply formed_moves
    | with_reducible apply clocked_moves
    | with_reducible apply when_moves
    | with_reducible apply Moves.next
    | split

end Sys2Proof.Machine
end

