-- ==== Sys2Proof/Laws/Frames/Revive.lean ====
section
/-!
SUPPORT. Sys2Proof/Laws/Frames/Revive.lean: what each operation of Machine/Revive.lean can change at most.
-/
namespace Sys2Proof.Machine

theorem claimReplica_yields (s : State) (h : Nat) (tenant : Nat) (digest : Nat) (home : Nat) : Yields [.ast, .lockets, .charms, .extents, .cur] s (claimReplica s h tenant digest home) := by
  unfold claimReplica
  try dsimp only
  repeat' first
    | with_reducible apply Steady.refl
    | (with_reducible apply Yields.chain ?_ (startReplica_yields _ _ _ _) ?sub; (case sub => decide))
    | (with_reducible apply Steady.chain ?_ ((startReplica_yields _ _ _ _).frame (by assumption)) ?sub; (case sub => decide))
    | (with_reducible apply Steady.chain ?_ (pinReplica_steady _ _ _ _) ?sub; (case sub => decide))
    | exact Yields.none
    | with_reducible apply Yields.some
    | with_reducible apply Yields.ite
    | with_reducible apply Steady.ite
    | (with_reducible apply Steady.choose ?ee; (case ee => assumption))
    | split

theorem ringIfReady_steady (s : State) (h : Nat) : Steady [.lockets, .extents, .cur] s (ringIfReady s h) := by
  unfold ringIfReady
  try dsimp only
  repeat' first
    | with_reducible apply Steady.refl
    | (with_reducible apply Steady.chain ?_ (submit_steady _ _) ?sub; (case sub => decide))
    | (with_reducible apply Steady.chain ?_ (State.locketM_steady _ _ _) ?sub; (case sub => decide))
    | with_reducible apply Steady.ite
    | split

theorem beginRecompute_steady (s : State) (h : Nat) (frames : List Nat) (since : Tick) (join : Bool) : Steady [.lockets, .extents, .cur] s (beginRecompute s h frames since join) := by
  unfold beginRecompute
  try dsimp only
  repeat' first
    | with_reducible apply Steady.refl
    | (with_reducible apply Steady.chain ?_ (State.locketM_steady _ _ _) ?sub; (case sub => decide))
    | (with_reducible apply Steady.chain ?_ (ringIfReady_steady _ _) ?sub; (case sub => decide))

theorem reviveParked_steady (s : State) (c : HCmd) (h : Nat) (l' : Locket) : Steady [.ast, .lockets, .charms, .extents, .cur, .hif] s (reviveParked s c h l') := by
  unfold reviveParked
  try dsimp only
  repeat' first
    | with_reducible apply Steady.refl
    | (with_reducible apply Steady.chain ?_ (complete_steady _ _ _ _ _ _) ?sub; (case sub => decide))
    | (with_reducible apply Steady.chain ?_ (takeFrames_steady _ _ _ _) ?sub; (case sub => decide))
    | (with_reducible apply Steady.chain ?_ ((claimReplica_yields _ _ _ _ _).frame (by assumption)) ?sub; (case sub => decide))
    | (with_reducible apply Steady.chain ?_ (releaseFrames_steady _ _ _) ?sub; (case sub => decide))
    | (with_reducible apply Steady.chain ?_ (State.locketM_steady _ _ _) ?sub; (case sub => decide))
    | (with_reducible apply Steady.chain ?_ (submit_steady _ _) ?sub; (case sub => decide))
    | (intro _; try dsimp only)
    | with_reducible apply Steady.ite
    | with_reducible apply Steady.orElse (fun _ _ => ?_)
    | (with_reducible apply Steady.first ?ee; (case ee => assumption))
    | (with_reducible apply Steady.choose ?ee; (case ee => assumption))
    | split

theorem reviveStart_steady (s : State) (c : HCmd) (h : Nat) (x1 : Locket) : Steady [.ast, .lockets, .charms, .extents, .cur, .bays, .hif] s (reviveStart s c h x1) := by
  unfold reviveStart
  try dsimp only
  repeat' first
    | with_reducible apply Steady.refl
    | (with_reducible apply Steady.chain ?_ (takePin_steady _ _ _) ?sub; (case sub => decide))
    | (with_reducible apply Steady.chain ?_ (complete_steady _ _ _ _ _ _) ?sub; (case sub => decide))
    | (with_reducible apply Steady.chain ?_ (reviveParked_steady _ _ _ _) ?sub; (case sub => decide))
    | (with_reducible apply Steady.chain ?_ (stateRefuse_steady _ _ _) ?sub; (case sub => decide))
    | with_reducible apply Steady.ite
    | with_reducible apply Steady.iteFirst
    | split

theorem execRevive_moves (id : Nat) (s : State) : Moves [.ast, .lockets, .charms, .extents, .cur, .bays, .hif, .std] s (execRevive id s) := by
  unfold execRevive
  try dsimp only
  repeat' first
    | with_reducible apply Steady.refl
    | (with_reducible apply sessionCmd_moves ?sub ?_; (case sub => decide))
    | (with_reducible apply Steady.chain ?_ (reviveStart_steady _ _ _ _) ?sub; (case sub => decide))
    | (intro _; try dsimp only)

theorem undoPromotion_steady (s : State) (h : Nat) : Steady [.ast, .lockets, .charms] s (undoPromotion s h) := by
  unfold undoPromotion
  try dsimp only
  repeat' first
    | with_reducible apply Steady.refl
    | (with_reducible apply Steady.chain ?_ (unpinReplicas_steady _ _) ?sub; (case sub => decide))
    | (with_reducible apply Steady.chain ?_ (releaseFrames_steady _ _ _) ?sub; (case sub => decide))
    | (with_reducible apply Steady.chain ?_ (State.locketM_steady _ _ _) ?sub; (case sub => decide))
    | with_reducible apply Steady.ite
    | split

theorem buildPromoted_steady (s : State) (h : Nat) (l' : Locket) (m : TierMove) (hd : ExtHead) (plain : List Byte) : Steady [.lockets, .t1] s (buildPromoted s h l' m hd plain) := by
  unfold buildPromoted
  try dsimp only
  repeat' first
    | with_reducible apply Steady.refl
    | (with_reducible apply Steady.chain ?_ (State.locketM_steady _ _ _) ?sub; (case sub => decide))
    | (with_reducible apply Steady.chain ?_ (presentPages_steady _ _ _ _ _) ?sub; (case sub => decide))
    | (intro _; try dsimp only)
    | with_reducible apply Steady.orElse (fun _ _ => ?_)

theorem endPromotion_steady (s : State) (h : Nat) (l' : Locket) (m : TierMove) (status : Nat) : Steady [.ast, .lockets, .charms, .t1, .extents, .cur, .bays, .hif] s (endPromotion s h l' m status) := by
  unfold endPromotion
  try dsimp only
  repeat' first
    | with_reducible apply Steady.refl
    | (with_reducible apply Steady.chain ?_ (undoPromotion_steady _ _) ?sub; (case sub => decide))
    | (with_reducible apply Steady.chain ?_ (completeId_steady _ _ _ _ _ _) ?sub; (case sub => decide))
    | (with_reducible apply Steady.chain ?_ (buildPromoted_steady _ _ _ _ _ _) ?sub; (case sub => decide))
    | (with_reducible apply Steady.chain ?_ (beginRecompute_steady _ _ _ _ _) ?sub; (case sub => decide))
    | (with_reducible apply Steady.chain ?_ (freeExtent_steady _ _) ?sub; (case sub => decide))
    | (intro _; try dsimp only)
    | with_reducible apply Steady.ite
    | with_reducible apply Steady.iteFirst
    | with_reducible apply Steady.orElse (fun _ _ => ?_)
    | split

theorem execPromotionCommit_moves (handle : Nat) (s : State) : Moves [.ast, .lockets, .charms, .t1, .extents, .cur, .bays, .hif] s (execPromotionCommit handle s) := by
  unfold execPromotionCommit
  try dsimp only
  repeat' first
    | with_reducible apply Steady.refl
    | (with_reducible apply Steady.chain ?_ ((consume_gives _ _).frame (by assumption)) ?sub; (case sub => decide))
    | (with_reducible apply Steady.chain ?_ (endPromotion_steady _ _ _ _ _) ?sub; (case sub => decide))
    | with_reducible apply when_moves
    | with_reducible apply Moves.next
    | split

theorem execReplicaPromoteDone_moves (charm : Nat) (stack : Nat) (s : State) : Moves [.ast, .lockets, .charms, .extents, .cur, .bays, .ckpt, .hif] s (execReplicaPromoteDone charm stack s) := by
  unfold execReplicaPromoteDone
  try dsimp only
  repeat' first
    | with_reducible apply Steady.refl
    | (with_reducible apply Steady.chain ?_ ((consume_gives _ _).frame (by assumption)) ?sub; (case sub => decide))
    | (with_reducible apply Steady.chain ?_ (unpinReplicas_steady _ _) ?sub; (case sub => decide))
    | (with_reducible apply Steady.chain ?_ (finishCharm_steady _ _) ?sub; (case sub => decide))
    | (with_reducible apply Steady.chain ?_ (State.replicaM_steady _ _ _ _) ?sub; (case sub => decide))
    | (with_reducible apply Steady.chain ?_ (ringIfReady_steady _ _) ?sub; (case sub => decide))
    | (with_reducible apply Steady.chain ?_ (failCharm_steady _ _) ?sub; (case sub => decide))
    | (with_reducible apply Steady.chain ?_ (releaseFrames_steady _ _ _) ?sub; (case sub => decide))
    | with_reducible apply formed_moves
    | with_reducible apply Moves.next
    | with_reducible apply Moves.ite
    | with_reducible apply Steady.ite
    | (with_reducible apply Steady.fold ?_ (fun _ _ => ?_); all_goals try dsimp only)
    | (with_reducible apply Steady.foldPair ?_ (fun _ _ => ?_); all_goals try dsimp only)
    | with_reducible apply Steady.iteFirst
    | split

end Sys2Proof.Machine
end

