-- ==== Sys2Proof/Laws/Frames/Cuts.lean ====
section
/-!
SUPPORT. Sys2Proof/Laws/Frames/Cuts.lean: what each operation of Machine/Cuts.lean can change at most.
-/
namespace Sys2Proof.Machine

theorem cutM_steady (s : State) (n : Nat) (f : Cut → Cut) : Steady [.ckpt] s (cutM s n f) := by
  unfold cutM
  try dsimp only
  repeat' first
    | with_reducible apply Steady.refl
    | (with_reducible apply Steady.chain ?_ (State.ckptM_steady _ _) ?sub; (case sub => decide))
    | with_reducible apply Steady.ite

theorem setPin_steady (s : State) (h : Nat) (vpn : Nat) (b : Bool) : Steady [.ast, .lockets] s (setPin s h vpn b) := by
  unfold setPin
  try dsimp only
  repeat' first
    | with_reducible apply Steady.refl
    | (with_reducible apply Steady.chain ?_ (State.locketM_steady _ _ _) ?sub; (case sub => decide))
    | (with_reducible apply Steady.chain ?_ (State.astM_steady _ _) ?sub; (case sub => decide))
    | with_reducible apply Steady.ite
    | with_reducible apply Steady.iteFirst

theorem requestCopy_steady (n : Nat) (owner : Nat) (st : Nat) (vpn : Nat) (frame : Nat) (s : State) : Steady [.hbc, .ckpt] s (requestCopy n owner st vpn frame s) := by
  unfold requestCopy
  try dsimp only
  repeat' first
    | with_reducible apply Steady.refl
    | (with_reducible apply Steady.chain ?_ (cutM_steady _ _ _) ?sub; (case sub => decide))
    | with_reducible apply Steady.ite
    | (with_reducible apply Steady.update <;> first | with_reducible exact Or.inl rfl | (apply Or.inr; decide) | (exact Or.inr ⟨by decide, fun h => by simpa using h⟩) | skip)

theorem captureLocket_steady (n : Nat) (s : State) (h : Nat) : Steady [.ast, .lockets, .hbc, .ckpt] s (captureLocket n s h) := by
  unfold captureLocket
  try dsimp only
  repeat' first
    | with_reducible apply Steady.refl
    | (with_reducible apply Steady.chain ?_ (cutM_steady _ _ _) ?sub; (case sub => decide))
    | (with_reducible apply Steady.chain ?_ (requestCopy_steady _ _ _ _ _ _) ?sub; (case sub => decide))
    | (with_reducible apply Steady.chain ?_ (setPin_steady _ _ _ _) ?sub; (case sub => decide))
    | (with_reducible apply Steady.chain ?_ (State.locketM_steady _ _ _) ?sub; (case sub => decide))
    | (intro _; try dsimp only)
    | with_reducible apply Steady.ite
    | (with_reducible apply Steady.fold ?_ (fun _ _ => ?_); all_goals try dsimp only)
    | (with_reducible apply Steady.foldPair ?_ (fun _ _ => ?_); all_goals try dsimp only)
    | with_reducible apply Steady.iteFirst
    | with_reducible apply Steady.orElse (fun _ _ => ?_)
    | split

theorem captureControl_steady (n : Nat) (s : State) : Steady [.charms, .hbc, .ckpt] s (captureControl n s) := by
  unfold captureControl
  try dsimp only
  repeat' first
    | with_reducible apply Steady.refl
    | (with_reducible apply Steady.chain ?_ (cutM_steady _ _ _) ?sub; (case sub => decide))
    | (with_reducible apply Steady.chain ?_ (requestCopy_steady _ _ _ _ _ _) ?sub; (case sub => decide))
    | (with_reducible apply Steady.chain ?_ (pinReplica_steady _ _ _ _) ?sub; (case sub => decide))
    | (with_reducible apply Steady.chain ?_ (State.ckptM_steady _ _) ?sub; (case sub => decide))
    | (intro _; try dsimp only)
    | with_reducible apply Steady.ite
    | (with_reducible apply Steady.fold ?_ (fun _ _ => ?_); all_goals try dsimp only)
    | (with_reducible apply Steady.foldPair ?_ (fun _ _ => ?_); all_goals try dsimp only)
    | with_reducible apply Steady.iteFirst
    | with_reducible apply Steady.orElse (fun _ _ => ?_)

theorem forgetStore_steady (s : State) : Steady [.ckpt] s (forgetStore s) := by
  unfold forgetStore
  try dsimp only
  repeat' first
    | with_reducible apply Steady.refl
    | (with_reducible apply Steady.chain ?_ (State.ckptM_steady _ _) ?sub; (case sub => decide))

theorem takeCut_steady (s : State) (n : Nat) (newest : Option Nat) : Steady [.ast, .lockets, .charms, .hbc, .ckpt] s (takeCut s n newest) := by
  unfold takeCut
  try dsimp only
  repeat' first
    | with_reducible apply Steady.refl
    | (with_reducible apply Steady.chain ?_ (State.ckptM_steady _ _) ?sub; (case sub => decide))
    | (with_reducible apply Steady.chain ?_ (forgetStore_steady _) ?sub; (case sub => decide))
    | (with_reducible apply Steady.chain ?_ (captureControl_steady _ _) ?sub; (case sub => decide))
    | (with_reducible apply Steady.chain ?_ (captureLocket_steady _ _ _) ?sub; (case sub => decide))
    | (intro _; try dsimp only)
    | with_reducible apply Steady.ite
    | (with_reducible apply Steady.fold ?_ (fun _ _ => ?_); all_goals try dsimp only)
    | with_reducible apply Steady.orElse (fun _ _ => ?_)
    | split

theorem captureDeferred_steady (s : State) (hs : List Nat) : Steady [.ast, .lockets, .hbc, .ckpt] s (captureDeferred s hs) := by
  unfold captureDeferred
  try dsimp only
  repeat' first
    | with_reducible apply Steady.refl
    | (with_reducible apply Steady.chain ?_ (captureLocket_steady _ _ _) ?sub; (case sub => decide))
    | (with_reducible apply Steady.chain ?_ (cutM_steady _ _ _) ?sub; (case sub => decide))
    | (with_reducible apply Steady.fold ?_ (fun _ _ => ?_); all_goals try dsimp only)

theorem releaseCopied_steady (s : State) (st : Nat) (q : CopyReq) : Steady [.ast, .lockets] s (releaseCopied s st q) := by
  unfold releaseCopied
  try dsimp only
  repeat' first
    | with_reducible apply Steady.refl
    | (with_reducible apply Steady.chain ?_ (releaseFrames_steady _ _ _) ?sub; (case sub => decide))
    | (with_reducible apply Steady.chain ?_ (setPin_steady _ _ _ _) ?sub; (case sub => decide))
    | (intro _; try dsimp only)
    | with_reducible apply Steady.ite
    | split

theorem copyToSlot_steady (s : State) (st : Nat) (q : CopyReq) : Steady [.t1, .integ] s (copyToSlot s st q) := by
  unfold copyToSlot
  try dsimp only
  repeat' first
    | with_reducible apply Steady.refl
    | (with_reducible apply Steady.update <;> first | with_reducible exact Or.inl rfl | (apply Or.inr; decide) | (exact Or.inr ⟨by decide, fun h => by simpa using h⟩) | skip)
    | exact Or.inr ⟨by decide, writeN_wf _ _⟩
    | exact Or.inr ⟨by decide, write_wf _ _⟩
    | exact Or.inr ⟨by decide, clear_wf _ _⟩
    | exact Or.inr ⟨by decide, copyFrom_wf _ _ _ _⟩
    | exact Or.inr ⟨by decide, clearAll_wf _ _ _⟩
    | exact Or.inr ⟨by decide, fun _ => rfl⟩

theorem copyDone_steady (s : State) (st : Nat) (q : CopyReq) : Steady [.ast, .lockets, .charms, .t1, .hbc, .integ, .ckpt] s (copyDone s st q) := by
  unfold copyDone
  try dsimp only
  repeat' first
    | with_reducible apply Steady.refl
    | (with_reducible apply Steady.chain ?_ (copyToSlot_steady _ _ _) ?sub; (case sub => decide))
    | (with_reducible apply Steady.chain ?_ (cutM_steady _ _ _) ?sub; (case sub => decide))
    | (with_reducible apply Steady.chain ?_ (releaseCopied_steady _ _ _) ?sub; (case sub => decide))
    | (with_reducible apply Steady.chain ?_ (State.charmM_steady _ _ _) ?sub; (case sub => decide))
    | (intro _; try dsimp only)
    | with_reducible apply Steady.ite
    | with_reducible apply Steady.orElse (fun _ _ => ?_)
    | (with_reducible apply Steady.update <;> first | with_reducible exact Or.inl rfl | (apply Or.inr; decide) | (exact Or.inr ⟨by decide, fun h => by simpa using h⟩) | skip)

theorem formCut_steady (s : State) (c : Cut) : Steady [.ckpt, .lan] s (formCut s c) := by
  unfold formCut
  try dsimp only
  repeat' first
    | with_reducible apply Steady.refl
    | (with_reducible apply Steady.chain ?_ (newExtentId_steady _) ?sub; (case sub => decide))
    | (with_reducible apply Steady.chain ?_ (cutM_steady _ _ _) ?sub; (case sub => decide))
    | (intro _; try dsimp only)
    | (with_reducible apply Steady.fold ?_ (fun _ _ => ?_); all_goals try dsimp only)
    | (with_reducible apply Steady.foldPair ?_ (fun _ _ => ?_); all_goals try dsimp only)
    | (with_reducible apply Steady.first ?ee; (case ee => assumption))
    | split

theorem drainSend_steady (s : State) (c : Cut) (ext : Nat) (off : Nat) (units : Nat) (tenant : Nat) (key : Option Nat) (slot : Option (Nat × Nat)) : Steady [.extents, .cur] s (drainSend s c ext off units tenant key slot) := by
  unfold drainSend
  try dsimp only
  repeat' first
    | with_reducible apply Steady.refl
    | (with_reducible apply Steady.chain ?_ (submit_steady _ _) ?sub; (case sub => decide))
    | (intro _; try dsimp only)
    | with_reducible apply Steady.ite
    | with_reducible apply Steady.iteFirst
    | with_reducible apply Steady.orElse (fun _ _ => ?_)

theorem drainPhase_steady (s : State) (c : Cut) : Steady [.extents, .cur] s (drainPhase s c) := by
  unfold drainPhase
  try dsimp only
  repeat' first
    | with_reducible apply Steady.refl
    | (with_reducible apply Steady.chain ?_ (drainSend_steady _ _ _ _ _ _ _ _) ?sub; (case sub => decide))
    | (intro _; try dsimp only)
    | with_reducible apply Steady.ite
    | (with_reducible apply Steady.fold ?_ (fun _ _ => ?_); all_goals try dsimp only)
    | (with_reducible apply Steady.foldPair ?_ (fun _ _ => ?_); all_goals try dsimp only)
    | with_reducible apply Steady.iteFirst
    | with_reducible apply Steady.orElse (fun _ _ => ?_)

theorem drainOn_steady (n fuel : Nat) (s : State) : Steady [.extents, .cur, .ckpt] s (drainOn n fuel s) := by
  induction fuel generalizing s with
  | zero => exact Steady.refl
  | succ fuel ih =>
    unfold drainOn
    split
    · exact .refl
    · refine Steady.ite .refl ?_
      dsimp only
      exact ((Steady.refl.chain (cutM_steady _ _ _) (by decide)).chain (drainPhase_steady _ _) (by decide)).chain (ih _) (by decide)

theorem freeCut_steady (s : State) (n : Nat) : Steady [.ast, .lockets, .charms, .hbc] s (freeCut s n) := by
  unfold freeCut
  try dsimp only
  repeat' first
    | with_reducible apply Steady.refl
    | (with_reducible apply Steady.chain ?_ (releaseCopied_steady _ _ _) ?sub; (case sub => decide))
    | (with_reducible apply Steady.chain ?_ (State.astM_steady _ _) ?sub; (case sub => decide))
    | (with_reducible apply Steady.chain ?_ (unpinReplicas_steady _ _) ?sub; (case sub => decide))
    | with_reducible apply Steady.ite
    | (with_reducible apply Steady.fold ?_ (fun _ _ => ?_); all_goals try dsimp only)
    | (with_reducible apply Steady.foldPair ?_ (fun _ _ => ?_); all_goals try dsimp only)
    | with_reducible apply Steady.iteFirst
    | (with_reducible apply Steady.update <;> first | with_reducible exact Or.inl rfl | (apply Or.inr; decide) | (exact Or.inr ⟨by decide, fun h => by simpa using h⟩) | skip)

theorem undoCapture_steady (s : State) (c : Capture) : Steady [.lockets, .ckpt] s (undoCapture s c) := by
  unfold undoCapture
  try dsimp only
  repeat' first
    | with_reducible apply Steady.refl
    | (with_reducible apply Steady.chain ?_ (State.ckptM_steady _ _) ?sub; (case sub => decide))
    | (with_reducible apply Steady.chain ?_ (State.locketM_steady _ _ _) ?sub; (case sub => decide))
    | with_reducible apply Steady.ite
    | split

theorem abandonCut_steady (s : State) (c : Cut) : Steady [.ast, .lockets, .charms, .extents, .hbc, .cur, .bays, .ckpt] s (abandonCut s c) := by
  unfold abandonCut
  try dsimp only
  repeat' first
    | with_reducible apply Steady.refl
    | (with_reducible apply Steady.chain ?_ (abandonFor_steady _ _) ?sub; (case sub => decide))
    | (with_reducible apply Steady.chain ?_ (undoCapture_steady _ _) ?sub; (case sub => decide))
    | (with_reducible apply Steady.chain ?_ (freeCut_steady _ _) ?sub; (case sub => decide))
    | (with_reducible apply Steady.chain ?_ (State.ckptM_steady _ _) ?sub; (case sub => decide))
    | with_reducible apply Steady.ite
    | (with_reducible apply Steady.fold ?_ (fun _ _ => ?_); all_goals try dsimp only)

theorem abandonFrom_steady (s : State) (n : Nat) : Steady [.ast, .lockets, .charms, .extents, .hbc, .cur, .bays, .ckpt] s (abandonFrom s n) := by
  unfold abandonFrom
  try dsimp only
  repeat' first
    | with_reducible apply Steady.refl
    | (with_reducible apply Steady.chain ?_ (abandonCut_steady _ _) ?sub; (case sub => decide))
    | (with_reducible apply Steady.fold ?_ (fun _ _ => ?_); all_goals try dsimp only)

theorem abandonCuts_steady (s : State) : Steady [.ast, .lockets, .charms, .extents, .hbc, .cur, .bays, .ckpt] s (abandonCuts s) := by
  unfold abandonCuts
  try dsimp only
  repeat' first
    | with_reducible apply Steady.refl
    | (with_reducible apply Steady.chain ?_ (abandonCut_steady _ _) ?sub; (case sub => decide))
    | (with_reducible apply Steady.fold ?_ (fun _ _ => ?_); all_goals try dsimp only)

end Sys2Proof.Machine
end

