-- ==== Sys2Proof/Laws/Frames/Stores.lean ====
section
/-!
SUPPORT. Sys2Proof/Laws/Frames/Stores.lean: what each operation of Machine/Stores.lean can change at most.
-/
namespace Sys2Proof.Machine

theorem dropCopy_steady (n : Nat) (s : State) (id : Nat) : Steady [.bays] s (dropCopy n s id) := by
  unfold dropCopy
  try dsimp only
  repeat' first
    | with_reducible apply Steady.refl
    | (with_reducible apply Steady.chain ?_ (cofferM_steady _ _ _) ?sub; (case sub => decide))
    | (with_reducible apply Steady.chain ?_ (journal_steady _ _ _) ?sub; (case sub => decide))

theorem submitCopy_steady (bay : Nat) (man : Nat) (s : State) (e : Nat × Extent) : Steady [.extents, .cur, .bays] s (submitCopy bay man s e) := by
  unfold submitCopy
  try dsimp only
  repeat' first
    | with_reducible apply Steady.refl
    | (with_reducible apply Steady.chain ?_ (submit_steady _ _) ?sub; (case sub => decide))
    | (with_reducible apply Steady.chain ?_ (cofferM_steady _ _ _) ?sub; (case sub => decide))
    | with_reducible apply Steady.ite
    | with_reducible apply Steady.iteFirst

theorem startCopy_steady (s : State) (man : Nat) : Steady [.extents, .cur, .bays] s (startCopy s man) := by
  unfold startCopy
  try dsimp only
  repeat' first
    | with_reducible apply Steady.refl
    | (with_reducible apply Steady.chain ?_ (submitCopy_steady _ _ _ _) ?sub; (case sub => decide))
    | with_reducible apply Steady.ite
    | (with_reducible apply Steady.fold ?_ (fun _ _ => ?_); all_goals try dsimp only)
    | (with_reducible apply Steady.foldPair ?_ (fun _ _ => ?_); all_goals try dsimp only)
    | with_reducible apply Steady.iteFirst
    | split

theorem endCopy_steady (s : State) (d : Desc) (man : Nat) : Steady [.extents, .cur, .bays] s (endCopy s d man) := by
  unfold endCopy
  try dsimp only
  repeat' first
    | with_reducible apply Steady.refl
    | (with_reducible apply Steady.chain ?_ (submitCopy_steady _ _ _ _) ?sub; (case sub => decide))
    | (with_reducible apply Steady.chain ?_ (dropCopy_steady _ _ _) ?sub; (case sub => decide))
    | with_reducible apply Steady.ite
    | (with_reducible apply Steady.fold ?_ (fun _ _ => ?_); all_goals try dsimp only)
    | split

theorem beginReceived_yields (s : State) (ext : Nat) (units : Nat) : Yields [.extents] s (beginReceived s ext units) := by
  unfold beginReceived
  try dsimp only
  repeat' first
    | with_reducible apply Steady.refl
    | exact Yields.none
    | with_reducible apply Yields.some
    | with_reducible apply Yields.ite
    | (with_reducible apply Yields.map; try dsimp only)
    | (intro _; try dsimp only)
    | with_reducible apply Steady.ite
    | (with_reducible apply Steady.update <;> first | with_reducible exact Or.inl rfl | (apply Or.inr; decide) | (exact Or.inr ⟨by decide, fun h => by simpa using h⟩) | skip)

theorem manifestSealed_steady (s : State) (man : Nat) : Steady [.extents, .cur, .bays] s (manifestSealed s man) := by
  unfold manifestSealed
  try dsimp only
  repeat' first
    | with_reducible apply Steady.refl
    | (with_reducible apply Steady.chain ?_ (freeExtent_steady _ _) ?sub; (case sub => decide))
    | (with_reducible apply Steady.chain ?_ (startCopy_steady _ _) ?sub; (case sub => decide))
    | with_reducible apply Steady.ite
    | (with_reducible apply Steady.fold ?_ (fun _ _ => ?_); all_goals try dsimp only)
    | (with_reducible apply Steady.foldPair ?_ (fun _ _ => ?_); all_goals try dsimp only)
    | with_reducible apply Steady.iteFirst
    | split
    | (with_reducible apply Steady.update <;> first | with_reducible exact Or.inl rfl | (apply Or.inr; decide) | (exact Or.inr ⟨by decide, fun h => by simpa using h⟩) | skip)

theorem sealReceived_steady (s : State) (ext : Nat) : Steady [.extents, .cur, .bays] s (sealReceived s ext) := by
  unfold sealReceived
  try dsimp only
  repeat' first
    | with_reducible apply Steady.refl
    | (with_reducible apply Steady.chain ?_ (sealExtent_steady _ _) ?sub; (case sub => decide))
    | (with_reducible apply Steady.chain ?_ (manifestSealed_steady _ _) ?sub; (case sub => decide))
    | with_reducible apply Steady.ite
    | split

theorem receiveUnits_steady (s : State) (ext : Nat) (off : Nat) (data : List Byte) (tarn : List Nat) : Steady [.extents, .lpc, .cur, .bays] s (receiveUnits s ext off data tarn) := by
  unfold receiveUnits
  try dsimp only
  repeat' first
    | with_reducible apply Steady.refl
    | (with_reducible apply Steady.chain ?_ (sealReceived_steady _ _) ?sub; (case sub => decide))
    | (with_reducible apply Steady.chain ?_ (writeUnit_steady _ _ _ _ _) ?sub; (case sub => decide))
    | (intro _; try dsimp only)
    | (with_reducible apply Steady.fold ?_ (fun _ _ => ?_); all_goals try dsimp only)
    | with_reducible apply Steady.orElse (fun _ _ => ?_)

theorem dropReceiving_steady (s : State) : Steady [.extents, .bays] s (dropReceiving s) := by
  unfold dropReceiving
  try dsimp only
  repeat' first
    | with_reducible apply Steady.refl
    | (with_reducible apply Steady.chain ?_ (dropExtent_steady _ _) ?sub; (case sub => decide))
    | (with_reducible apply Steady.fold ?_ (fun _ _ => ?_); all_goals try dsimp only)
    | (with_reducible apply Steady.foldPair ?_ (fun _ _ => ?_); all_goals try dsimp only)

end Sys2Proof.Machine
end

