-- ==== Sys2Proof/Laws/Frames/Courier.lean ====
section
/-!
SUPPORT. Sys2Proof/Laws/Frames/Courier.lean: what each operation of Machine/Courier.lean can change at most.
-/
namespace Sys2Proof.Machine

theorem announceSend_steady (s : State) (d : Desc) : Steady [.std] s (announceSend s d) := by
  unfold announceSend
  try dsimp only
  repeat' first
    | with_reducible apply Steady.refl
    | (with_reducible apply Steady.chain ?_ (State.stdM_steady _ _) ?sub; (case sub => decide))
    | (with_reducible apply Steady.chain ?_ (sendMsg_steady _ _ _) ?sub; (case sub => decide))
    | with_reducible apply Steady.ite
    | split

theorem sendPacket_steady (s : State) (d : Desc) : Steady [.std] s (sendPacket s d) := by
  unfold sendPacket
  try dsimp only
  repeat' first
    | with_reducible apply Steady.refl
    | (with_reducible apply Steady.chain ?_ (hostFetch_steady _ _ _) ?sub; (case sub => decide))
    | (with_reducible apply Steady.chain ?_ (announceSend_steady _ _) ?sub; (case sub => decide))
    | (with_reducible apply Steady.chain ?_ (sendFlit_steady _ _) ?sub; (case sub => decide))
    | with_reducible apply Steady.ite
    | (with_reducible apply Steady.fold ?_ (fun _ _ => ?_); all_goals try dsimp only)
    | (with_reducible apply Steady.foldPair ?_ (fun _ _ => ?_); all_goals try dsimp only)
    | with_reducible apply Steady.iteFirst
    | split

theorem countDesc_steady (s : State) (d : Desc) : Steady [.eph] s (countDesc s d) := by
  unfold countDesc
  try dsimp only
  repeat' first
    | with_reducible apply Steady.refl
    | (with_reducible apply Steady.chain ?_ (countWait_steady _ _ _) ?sub; (case sub => decide))
    | with_reducible apply Steady.ite

theorem copyUnit_steady (s : State) (d : Desc) (u : Nat) : Steady [.bays] s (copyUnit s d u).1 := by
  unfold copyUnit
  try dsimp only
  repeat' first
    | with_reducible apply Steady.refl
    | (with_reducible apply Steady.chain ?_ (streamUnit_steady _ _ _ _ _) ?sub; (case sub => decide))
    | (intro _; try dsimp only)
    | with_reducible apply Steady.ite
    | with_reducible apply Steady.iteFirst
    | split

theorem writePacket_steady (s : State) (d : Desc) : Steady [.extents, .lpc, .bays] s (writePacket s d).1 := by
  unfold writePacket
  try dsimp only
  repeat' first
    | with_reducible apply Steady.refl
    | (with_reducible apply Steady.chain ?_ (copyUnit_steady _ _ _) ?sub; (case sub => decide))
    | (with_reducible apply Steady.chain ?_ (writeUnit_steady _ _ _ _ _) ?sub; (case sub => decide))
    | (with_reducible apply Steady.chain ?_ (sealExtent_steady _ _) ?sub; (case sub => decide))
    | with_reducible apply Steady.ite
    | with_reducible apply Steady.iteFirst
    | (with_reducible apply Steady.first ?ee; (case ee => assumption))
    | split

theorem countRead_steady (s : State) (d : Desc) (u : Nat) : Steady [.bays] s (countRead s d u) := by
  unfold countRead
  try dsimp only
  repeat' first
    | with_reducible apply Steady.refl
    | (with_reducible apply Steady.chain ?_ (cofferM_steady _ _ _) ?sub; (case sub => decide))
    | (intro _; try dsimp only)
    | with_reducible apply Steady.ite
    | split

theorem readPacket_steady (s : State) (d : Desc) : Steady [.t1, .bays, .integ] s (readPacket s d).1 := by
  unfold readPacket
  try dsimp only
  repeat' first
    | with_reducible apply Steady.refl
    | (with_reducible apply Steady.chain ?_ (unitPut_steady _ _ _ _) ?sub; (case sub => decide))
    | (with_reducible apply Steady.chain ?_ (countRead_steady _ _ _) ?sub; (case sub => decide))
    | (intro _; try dsimp only)
    | with_reducible apply Steady.ite
    | with_reducible apply Steady.iteFirst
    | split

theorem copyPacket_steady (s : State) (d : Desc) : Steady [.t1, .integ] s (copyPacket s d).1 := by
  unfold copyPacket
  try dsimp only
  repeat' first
    | with_reducible apply Steady.refl
    | (with_reducible apply Steady.chain ?_ (unitPut_steady _ _ _ _) ?sub; (case sub => decide))
    | with_reducible apply Steady.ite
    | with_reducible apply Steady.iteFirst

theorem movePacket_steady (s : State) (d : Desc) : Steady [.t1, .extents, .lpc, .bays, .integ, .std, .hostMem] s (movePacket s d).1 := by
  unfold movePacket
  try dsimp only
  repeat' first
    | with_reducible apply Steady.refl
    | (with_reducible apply Steady.chain ?_ (copyPacket_steady _ _) ?sub; (case sub => decide))
    | (with_reducible apply Steady.chain ?_ (writePacket_steady _ _) ?sub; (case sub => decide))
    | (with_reducible apply Steady.chain ?_ (readPacket_steady _ _) ?sub; (case sub => decide))
    | (with_reducible apply Steady.chain ?_ (putPacket_steady _ _ _) ?sub; (case sub => decide))
    | (with_reducible apply Steady.chain ?_ (sendPacket_steady _ _) ?sub; (case sub => decide))
    | with_reducible apply Steady.ite
    | with_reducible apply Steady.iteFirst
    | (with_reducible apply Steady.first ?ee; (case ee => assumption))
    | split

theorem sendOn_steady (s : State) (k : Nat) (f : Nat) (d : Desc) : Steady [.t1, .extents, .lpc, .cur, .bays, .eph, .integ, .std, .hostMem] s (sendOn s k f d) := by
  unfold sendOn
  try dsimp only
  repeat' first
    | with_reducible apply Steady.refl
    | (with_reducible apply Steady.chain ?_ (movePacket_steady _ _) ?sub; (case sub => decide))
    | (with_reducible apply Steady.chain ?_ (countDesc_steady _ _) ?sub; (case sub => decide))
    | (with_reducible apply Steady.chain ?_ (State.curM_steady _ _) ?sub; (case sub => decide))

theorem lpcReads_steady (id : Nat) (u : Nat) (s : State) (e : Nat × Nat) : Steady [.extents, .lpc, .integ, .lan] s (lpcReads id u s e) := by
  unfold lpcReads
  try dsimp only
  repeat' first
    | with_reducible apply Steady.refl
    | (with_reducible apply Steady.chain ?_ (logFault_steady _ _ _ _ _ _ _) ?sub; (case sub => decide))
    | (with_reducible apply Steady.chain ?_ (State.integM_steady _ _) ?sub; (case sub => decide))
    | with_reducible apply Steady.ite
    | with_reducible apply Steady.iteFirst
    | split
    | (with_reducible apply Steady.update <;> first | with_reducible exact Or.inl rfl | (apply Or.inr; decide) | (exact Or.inr ⟨by decide, fun h => by simpa using h⟩) | skip)

theorem t2Errors_steady (s : State) (d : Desc) (errors : List (Nat × Nat)) : Steady [.extents, .lpc, .integ, .lan] s (t2Errors s d errors) := by
  unfold t2Errors
  try dsimp only
  repeat' first
    | with_reducible apply Steady.refl
    | (with_reducible apply Steady.chain ?_ (lpcReads_steady _ _ _ _) ?sub; (case sub => decide))
    | (with_reducible apply Steady.fold ?_ (fun _ _ => ?_); all_goals try dsimp only)
    | split

theorem execCourierPacketSelect_moves (s : State) (errors : List (Nat × Nat)) : Moves [.t1, .extents, .lpc, .cur, .bays, .eph, .traffic, .integ, .std, .lan, .hostMem] s (execCourierPacketSelect s errors) := by
  unfold execCourierPacketSelect
  try dsimp only
  repeat' first
    | with_reducible apply Steady.refl
    | (with_reducible apply Steady.chain ?_ (wfqSelect_steady _ _ _ _) ?sub; (case sub => decide))
    | (with_reducible apply Steady.chain ?_ (sendOn_steady _ _ _ _) ?sub; (case sub => decide))
    | (with_reducible apply Steady.chain ?_ (t2Errors_steady _ _ _) ?sub; (case sub => decide))
    | (with_reducible apply Steady.chain ?_ (wfqCharge_steady _ _ _ _ _ _) ?sub; (case sub => decide))
    | with_reducible apply formed_moves
    | with_reducible apply Moves.next
    | with_reducible apply Moves.ite
    | (intro _; try dsimp only)
    | with_reducible apply Steady.ite
    | with_reducible apply Steady.iteFirst
    | (with_reducible apply Steady.first ?ee; (case ee => assumption))
    | split

theorem sealWrite_steady (s : State) (d : Desc) : Steady [.extents, .bays] s (sealWrite s d) := by
  unfold sealWrite
  try dsimp only
  repeat' first
    | with_reducible apply Steady.refl
    | (with_reducible apply Steady.chain ?_ (sealOn_steady _ _ _ _) ?sub; (case sub => decide))
    | (with_reducible apply Steady.chain ?_ (sealExtent_steady _ _) ?sub; (case sub => decide))
    | (intro _; try dsimp only)
    | split

theorem execExtentSeal_moves (bay : Nat) (ext : Nat) (s : State) : Moves [.extents, .bays] s (execExtentSeal bay ext s) := by
  unfold execExtentSeal
  try dsimp only
  repeat' first
    | with_reducible apply Steady.refl
    | (with_reducible apply Steady.chain ?_ (sealWrite_steady _ _) ?sub; (case sub => decide))
    | with_reducible apply formed_moves
    | with_reducible apply clocked_moves
    | with_reducible apply when_moves
    | with_reducible apply Moves.next
    | split

end Sys2Proof.Machine
end

