-- ==== Sys2Proof/Laws/Frames/Bays.lean ====
section
/-!
SUPPORT. Sys2Proof/Laws/Frames/Bays.lean: what each operation of Machine/Bays.lean can change at most.
-/
namespace Sys2Proof.Machine

theorem writeIdent_steady (s : State) (n : Nat) (f : List Byte → List Byte) : Steady [.bays] s (writeIdent s n f) := by
  unfold writeIdent
  try dsimp only
  repeat' first
    | with_reducible apply Steady.refl
    | (with_reducible apply Steady.chain ?_ (cofferM_steady _ _ _) ?sub; (case sub => decide))

theorem writeCounters_steady (s : State) (n : Nat) : Steady [.bays] s (writeCounters s n) := by
  unfold writeCounters
  try dsimp only
  repeat' first
    | with_reducible apply Steady.refl
    | (with_reducible apply Steady.chain ?_ (writeIdent_steady _ _ _) ?sub; (case sub => decide))
    | (with_reducible apply Steady.chain ?_ (State.bayM_steady _ _ _) ?sub; (case sub => decide))

theorem setBay_steady (s : State) (n : Nat) (m : BayMode) (f : Bay → Bay) : Steady [.bays, .lan] s (setBay s n m f) := by
  unfold setBay
  try dsimp only
  repeat' first
    | with_reducible apply Steady.refl
    | (with_reducible apply Steady.chain ?_ (State.bayM_steady _ _ _) ?sub; (case sub => decide))
    | (with_reducible apply Steady.chain ?_ (watch_steady _ _ _ _) ?sub; (case sub => decide))
    | with_reducible apply Steady.ite

theorem lifeUpdate_steady (s : State) (n : Nat) : Steady [.bays, .lan] s (lifeUpdate s n) := by
  unfold lifeUpdate
  try dsimp only
  repeat' first
    | with_reducible apply Steady.refl
    | (with_reducible apply Steady.chain ?_ (State.bayM_steady _ _ _) ?sub; (case sub => decide))
    | (with_reducible apply Steady.chain ?_ (writeCounters_steady _ _) ?sub; (case sub => decide))
    | (with_reducible apply Steady.chain ?_ (cfcEvent_steady _ _ _) ?sub; (case sub => decide))
    | (with_reducible apply Steady.chain ?_ (writeIdent_steady _ _ _) ?sub; (case sub => decide))
    | (with_reducible apply Steady.chain ?_ (setBay_steady _ _ _ _) ?sub; (case sub => decide))
    | with_reducible apply Steady.ite

theorem cofferOf_steady (s : State) (n : Nat) (ident : List Byte) (extents : List (Nat × List Byte × List Nat)) : Steady [.bays] s (cofferOf s n ident extents) := by
  unfold cofferOf
  try dsimp only
  repeat' first
    | with_reducible apply Steady.refl
    | (with_reducible apply Steady.chain ?_ (State.bayM_steady _ _ _) ?sub; (case sub => decide))
    | (with_reducible apply Steady.chain ?_ (cofferM_steady _ _ _) ?sub; (case sub => decide))
    | (with_reducible apply Steady.fold ?_ (fun _ _ => ?_); all_goals try dsimp only)
    | (with_reducible apply Steady.foldPair ?_ (fun _ _ => ?_); all_goals try dsimp only)

theorem execBayPowerOn_moves (bay : Nat) (ident : List Byte) (extents : List (Nat × List Byte × List Nat)) (s : State) : Moves [.bays, .lan] s (execBayPowerOn bay ident extents s) := by
  unfold execBayPowerOn
  try dsimp only
  repeat' first
    | with_reducible apply Steady.refl
    | (with_reducible apply Steady.chain ?_ (cofferOf_steady _ _ _ _) ?sub; (case sub => decide))
    | (with_reducible apply Steady.chain ?_ (setBay_steady _ _ _ _) ?sub; (case sub => decide))
    | with_reducible apply formed_moves
    | with_reducible apply when_moves
    | with_reducible apply Moves.ite
    | (intro _; try dsimp only)
    | with_reducible apply Steady.ite
    | with_reducible apply Steady.orElse (fun _ _ => ?_)

theorem execBayIdent_moves (bay : Nat) (trained : Bool) (s : State) (channels : List ChannelGeom) : Moves [.bays, .lan] s (execBayIdent bay trained s channels) := by
  unfold execBayIdent
  try dsimp only
  repeat' first
    | with_reducible apply Steady.refl
    | (with_reducible apply Steady.chain ?_ (cfcEvent_steady _ _ _) ?sub; (case sub => decide))
    | (with_reducible apply Steady.chain ?_ (setBay_steady _ _ _ _) ?sub; (case sub => decide))
    | (with_reducible apply Steady.chain ?_ (writeIdent_steady _ _ _) ?sub; (case sub => decide))
    | (with_reducible apply Steady.chain ?_ (cofferM_steady _ _ _) ?sub; (case sub => decide))
    | with_reducible apply formed_moves
    | with_reducible apply when_moves
    | with_reducible apply Moves.ite
    | (intro _; try dsimp only)
    | with_reducible apply Steady.ite

theorem adopt_steady (n : Nat) (s : State) (ext : Nat) (e : Extent) : Steady [.lockets, .extents, .bays] s (adopt n s ext e) := by
  unfold adopt
  try dsimp only
  repeat' first
    | with_reducible apply Steady.refl
    | (with_reducible apply Steady.chain ?_ (freeExtent_steady _ _) ?sub; (case sub => decide))
    | (intro _; try dsimp only)
    | with_reducible apply Steady.ite
    | with_reducible apply Steady.orElse (fun _ _ => ?_)
    | split
    | (with_reducible apply Steady.update <;> first | with_reducible exact Or.inl rfl | (apply Or.inr; decide) | (exact Or.inr ⟨by decide, fun h => by simpa using h⟩) | skip)

theorem meetExtent_steady (n : Nat) (s : State) (x : Nat × Extent) : Steady [.lockets, .extents, .bays] s (meetExtent n s x) := by
  unfold meetExtent
  try dsimp only
  repeat' first
    | with_reducible apply Steady.refl
    | (with_reducible apply Steady.chain ?_ (adopt_steady _ _ _ _) ?sub; (case sub => decide))
    | (with_reducible apply Steady.chain ?_ (freeExtent_steady _ _) ?sub; (case sub => decide))
    | with_reducible apply Steady.ite
    | with_reducible apply Steady.iteFirst
    | split

theorem execMountDone_moves (bay : Nat) (s : State) : Moves [.lockets, .extents, .bays, .lan] s (execMountDone bay s) := by
  unfold execMountDone
  try dsimp only
  repeat' first
    | with_reducible apply Steady.refl
    | (with_reducible apply Steady.chain ?_ (cofferM_steady _ _ _) ?sub; (case sub => decide))
    | (with_reducible apply Steady.chain ?_ (setBay_steady _ _ _ _) ?sub; (case sub => decide))
    | (with_reducible apply Steady.chain ?_ (meetExtent_steady _ _ _) ?sub; (case sub => decide))
    | (with_reducible apply Steady.chain ?_ (freeExtent_steady _ _) ?sub; (case sub => decide))
    | (with_reducible apply Steady.chain ?_ (State.lanM_steady _ _) ?sub; (case sub => decide))
    | with_reducible apply formed_moves
    | with_reducible apply when_moves
    | with_reducible apply Moves.ite
    | (intro _; try dsimp only)
    | with_reducible apply Steady.ite
    | (with_reducible apply Steady.fold ?_ (fun _ _ => ?_); all_goals try dsimp only)
    | (with_reducible apply Steady.foldPair ?_ (fun _ _ => ?_); all_goals try dsimp only)
    | with_reducible apply Steady.iteFirst
    | with_reducible apply Steady.orElse (fun _ _ => ?_)
    | split
    | (with_reducible apply Steady.update <;> first | with_reducible exact Or.inl rfl | (apply Or.inr; decide) | (exact Or.inr ⟨by decide, fun h => by simpa using h⟩) | skip)

theorem failWrites_steady (s : State) (n : Nat) : Steady [.ast, .lockets, .charms, .extents, .cur, .bays, .ckpt, .hif, .lan] s (failWrites s n) := by
  unfold failWrites
  try dsimp only
  repeat' first
    | with_reducible apply Steady.refl
    | (with_reducible apply Steady.chain ?_ (failDemotion_steady _ _) ?sub; (case sub => decide))
    | (with_reducible apply Steady.chain ?_ (failCharm_steady _ _) ?sub; (case sub => decide))
    | (with_reducible apply Steady.chain ?_ (abandonDesc_steady _ _) ?sub; (case sub => decide))
    | (intro _; try dsimp only)
    | (with_reducible apply Steady.fold ?_ (fun _ _ => ?_); all_goals try dsimp only)
    | split

theorem unmaster_steady (s : State) (ci : Nat) : Steady [.charms] s (unmaster s ci) := by
  unfold unmaster
  try dsimp only
  repeat' first
    | with_reducible apply Steady.refl
    | (with_reducible apply Steady.chain ?_ (State.charmM_steady _ _ _) ?sub; (case sub => decide))

theorem detachCharm_steady (s : State) (ci : Nat) : Steady [.ast, .lockets, .charms, .extents, .cur] s (detachCharm s ci).1 := by
  unfold detachCharm
  try dsimp only
  repeat' first
    | with_reducible apply Steady.refl
    | (with_reducible apply Steady.chain ?_ (unmaster_steady _ _) ?sub; (case sub => decide))
    | (with_reducible apply Steady.chain ?_ (State.replicaM_steady _ _ _ _) ?sub; (case sub => decide))
    | (with_reducible apply Steady.chain ?_ ((startReplica_yields _ _ _ _).frame (by assumption)) ?sub; (case sub => decide))
    | split

theorem detachCharms_steady (s : State) (n : Nat) : Steady [.ast, .lockets, .charms, .extents, .cur, .bays] s (detachCharms s n) := by
  unfold detachCharms
  try dsimp only
  repeat' first
    | with_reducible apply Steady.refl
    | (with_reducible apply Steady.chain ?_ (detachCharm_steady _ _) ?sub; (case sub => decide))
    | (with_reducible apply Steady.chain ?_ (State.bayM_steady _ _ _) ?sub; (case sub => decide))
    | with_reducible apply Steady.ite
    | (with_reducible apply Steady.fold ?_ (fun _ _ => ?_); all_goals try dsimp only)
    | (with_reducible apply Steady.foldPair ?_ (fun _ _ => ?_); all_goals try dsimp only)
    | with_reducible apply Steady.iteFirst

theorem startDetach_steady (s : State) (n : Nat) : Steady [.ast, .lockets, .charms, .extents, .cur, .bays, .ckpt, .hif, .lan] s (startDetach s n) := by
  unfold startDetach
  try dsimp only
  repeat' first
    | with_reducible apply Steady.refl
    | (with_reducible apply Steady.chain ?_ (setBay_steady _ _ _ _) ?sub; (case sub => decide))
    | (with_reducible apply Steady.chain ?_ (detachCharms_steady _ _) ?sub; (case sub => decide))
    | (with_reducible apply Steady.chain ?_ (failWrites_steady _ _) ?sub; (case sub => decide))
    | with_reducible apply Steady.ite

theorem forgetExtents_steady (s : State) (n : Nat) : Steady [.extents] s (forgetExtents s n) := by
  unfold forgetExtents
  try dsimp only
  repeat' first
    | with_reducible apply Steady.refl
    | (with_reducible apply Steady.update <;> first | with_reducible exact Or.inl rfl | (apply Or.inr; decide) | (exact Or.inr ⟨by decide, fun h => by simpa using h⟩) | skip)

theorem freeParked_steady (s : State) (n : Nat) : Steady [.ast, .lockets, .charms, .extents, .cur, .bays, .eph, .ckpt] s (freeParked s n) := by
  unfold freeParked
  try dsimp only
  repeat' first
    | with_reducible apply Steady.refl
    | (with_reducible apply Steady.chain ?_ (dropLocket_steady _ _) ?sub; (case sub => decide))
    | (with_reducible apply Steady.chain ?_ (forgetExtents_steady _ _) ?sub; (case sub => decide))
    | (with_reducible apply Steady.fold ?_ (fun _ _ => ?_); all_goals try dsimp only)
    | (with_reducible apply Steady.foldPair ?_ (fun _ _ => ?_); all_goals try dsimp only)

theorem failReads_steady (s : State) (n : Nat) : Steady [.ast, .lockets, .charms, .t1, .extents, .cur, .bays, .hif] s (failReads s n) := by
  unfold failReads
  try dsimp only
  repeat' first
    | with_reducible apply Steady.refl
    | (with_reducible apply Steady.chain ?_ (endPromotion_steady _ _ _ _ _) ?sub; (case sub => decide))
    | (with_reducible apply Steady.chain ?_ (abandonFor_steady _ _) ?sub; (case sub => decide))
    | (with_reducible apply Steady.fold ?_ (fun _ _ => ?_); all_goals try dsimp only)
    | (with_reducible apply Steady.foldPair ?_ (fun _ _ => ?_); all_goals try dsimp only)
    | split

theorem failReplicas_steady (s : State) (ci : Nat) : Steady [.ast, .charms, .extents, .cur, .bays] s (failReplicas s ci) := by
  unfold failReplicas
  try dsimp only
  repeat' first
    | with_reducible apply Steady.refl
    | (with_reducible apply Steady.chain ?_ (abandonFor_steady _ _) ?sub; (case sub => decide))
    | (with_reducible apply Steady.chain ?_ (State.replicaM_steady _ _ _ _) ?sub; (case sub => decide))
    | (with_reducible apply Steady.chain ?_ (releaseFrames_steady _ _ _) ?sub; (case sub => decide))
    | with_reducible apply Steady.ite
    | (with_reducible apply Steady.fold ?_ (fun _ _ => ?_); all_goals try dsimp only)
    | split

theorem loseMaster_steady (s : State) (ci : Nat) : Steady [.ast, .charms, .extents, .cur, .bays] s (loseMaster s ci) := by
  unfold loseMaster
  try dsimp only
  repeat' first
    | with_reducible apply Steady.refl
    | (with_reducible apply Steady.chain ?_ (failReplicas_steady _ _) ?sub; (case sub => decide))
    | (with_reducible apply Steady.chain ?_ (unmaster_steady _ _) ?sub; (case sub => decide))
    | (with_reducible apply Steady.chain ?_ (State.charmM_steady _ _ _) ?sub; (case sub => decide))
    | (with_reducible apply Steady.chain ?_ (State.replicaM_steady _ _ _ _) ?sub; (case sub => decide))
    | split

theorem bayLost_steady (s : State) (n : Nat) : Steady [.ast, .lockets, .charms, .t1, .extents, .cur, .bays, .eph, .ckpt, .hif, .lan] s (bayLost s n) := by
  unfold bayLost
  try dsimp only
  repeat' first
    | with_reducible apply Steady.refl
    | (with_reducible apply Steady.chain ?_ (failReads_steady _ _) ?sub; (case sub => decide))
    | (with_reducible apply Steady.chain ?_ (failWrites_steady _ _) ?sub; (case sub => decide))
    | (with_reducible apply Steady.chain ?_ (loseMaster_steady _ _) ?sub; (case sub => decide))
    | (with_reducible apply Steady.chain ?_ (cfcEvent_steady _ _ _) ?sub; (case sub => decide))
    | (with_reducible apply Steady.chain ?_ (freeParked_steady _ _) ?sub; (case sub => decide))
    | (with_reducible apply Steady.fold ?_ (fun _ _ => ?_); all_goals try dsimp only)

theorem execCofferRemoval_moves (bay : Nat) (s : State) : Moves [.ast, .lockets, .charms, .t1, .extents, .cur, .bays, .eph, .ckpt, .hif, .lan] s (execCofferRemoval bay s) := by
  unfold execCofferRemoval
  try dsimp only
  repeat' first
    | with_reducible apply Steady.refl
    | (with_reducible apply Steady.chain ?_ (bayLost_steady _ _) ?sub; (case sub => decide))
    | (with_reducible apply Steady.chain ?_ (setBay_steady _ _ _ _) ?sub; (case sub => decide))
    | with_reducible apply formed_moves
    | with_reducible apply when_moves
    | with_reducible apply Moves.ite
    | with_reducible apply Steady.ite

theorem execDetachRetry_moves (bay : Nat) (s : State) : Moves [.ast, .lockets, .charms, .extents, .cur, .bays] s (execDetachRetry bay s) := by
  unfold execDetachRetry
  try dsimp only
  repeat' first
    | with_reducible apply Steady.refl
    | (with_reducible apply Steady.chain ?_ (detachCharms_steady _ _) ?sub; (case sub => decide))
    | with_reducible apply formed_moves
    | with_reducible apply when_moves

theorem execDetachDone_moves (bay : Nat) (s : State) : Moves [.ast, .lockets, .charms, .extents, .cur, .bays, .eph, .ckpt, .lan] s (execDetachDone bay s) := by
  unfold execDetachDone
  try dsimp only
  repeat' first
    | with_reducible apply Steady.refl
    | (with_reducible apply Steady.chain ?_ (detachCharms_steady _ _) ?sub; (case sub => decide))
    | (with_reducible apply Steady.chain ?_ (mapImage_steady _ _) ?sub; (case sub => decide))
    | (with_reducible apply Steady.chain ?_ (freeParked_steady _ _) ?sub; (case sub => decide))
    | (with_reducible apply Steady.chain ?_ (writeIdent_steady _ _ _) ?sub; (case sub => decide))
    | (with_reducible apply Steady.chain ?_ (writeCounters_steady _ _) ?sub; (case sub => decide))
    | (with_reducible apply Steady.chain ?_ (cfcEvent_steady _ _ _) ?sub; (case sub => decide))
    | (with_reducible apply Steady.chain ?_ (setBay_steady _ _ _ _) ?sub; (case sub => decide))
    | with_reducible apply formed_moves
    | with_reducible apply clocked_moves
    | with_reducible apply when_moves

theorem forceDetach_steady (s : State) (n : Nat) : Steady [.ast, .lockets, .charms, .t1, .extents, .cur, .bays, .eph, .ckpt, .hif, .lan] s (forceDetach s n) := by
  unfold forceDetach
  try dsimp only
  repeat' first
    | with_reducible apply Steady.refl
    | (with_reducible apply Steady.chain ?_ (cofferM_steady _ _ _) ?sub; (case sub => decide))
    | (with_reducible apply Steady.chain ?_ (writeCounters_steady _ _) ?sub; (case sub => decide))
    | (with_reducible apply Steady.chain ?_ (cfcEvent_steady _ _ _) ?sub; (case sub => decide))
    | (with_reducible apply Steady.chain ?_ (setBay_steady _ _ _ _) ?sub; (case sub => decide))
    | (with_reducible apply Steady.chain ?_ (bayLost_steady _ _) ?sub; (case sub => decide))

theorem badBlock_steady (s : State) (n : Nat) (ch : Nat) (die : Nat) (block : Nat) : Steady [.bays, .lan] s (badBlock s n ch die block) := by
  unfold badBlock
  try dsimp only
  repeat' first
    | with_reducible apply Steady.refl
    | (with_reducible apply Steady.chain ?_ (cofferM_steady _ _ _) ?sub; (case sub => decide))
    | (with_reducible apply Steady.chain ?_ (journal_steady _ _ _) ?sub; (case sub => decide))
    | (with_reducible apply Steady.chain ?_ (cfcEvent_steady _ _ _) ?sub; (case sub => decide))
    | (with_reducible apply Steady.chain ?_ (lifeUpdate_steady _ _) ?sub; (case sub => decide))
    | (with_reducible apply Steady.chain ?_ (State.bayM_steady _ _ _) ?sub; (case sub => decide))
    | (intro _; try dsimp only)
    | with_reducible apply Steady.ite
    | with_reducible apply Steady.iteFirst
    | with_reducible apply Steady.orElse (fun _ _ => ?_)

theorem execProgramFail_moves (bay : Nat) (channel : Nat) (die : Nat) (block : Nat) (s : State) : Moves [.bays, .lan] s (execProgramFail bay channel die block s) := by
  unfold execProgramFail
  try dsimp only
  repeat' first
    | with_reducible apply Steady.refl
    | (with_reducible apply Steady.chain ?_ (State.bayM_steady _ _ _) ?sub; (case sub => decide))
    | (with_reducible apply Steady.chain ?_ (cofferM_steady _ _ _) ?sub; (case sub => decide))
    | (with_reducible apply Steady.chain ?_ (putUnits_steady _ _ _ _ _ _ _) ?sub; (case sub => decide))
    | (with_reducible apply Steady.chain ?_ (closeRow_steady _ _ _) ?sub; (case sub => decide))
    | (with_reducible apply Steady.chain ?_ (badBlock_steady _ _ _ _ _) ?sub; (case sub => decide))
    | with_reducible apply formed_moves
    | with_reducible apply clocked_moves
    | with_reducible apply when_moves
    | with_reducible apply Moves.next
    | (with_reducible apply Steady.fold ?_ (fun _ _ => ?_); all_goals try dsimp only)
    | (with_reducible apply Steady.foldPair ?_ (fun _ _ => ?_); all_goals try dsimp only)
    | (with_reducible apply Steady.first ?ee; (case ee => assumption))
    | split

theorem execProgramStatusPass_moves (bay : Nat) (s : State) : Moves [.bays] s (execProgramStatusPass bay s) := by
  unfold execProgramStatusPass
  try dsimp only
  repeat' first
    | with_reducible apply Steady.refl
    | (with_reducible apply Steady.chain ?_ (State.bayM_steady _ _ _) ?sub; (case sub => decide))
    | with_reducible apply formed_moves
    | with_reducible apply clocked_moves
    | with_reducible apply when_moves

theorem relocate_yields (s : State) (n : Nat) (k : Nat) : Yields [.bays] s (relocate s n k) := by
  unfold relocate
  try dsimp only
  repeat' first
    | with_reducible apply Steady.refl
    | (with_reducible apply Steady.chain ?_ (appendUnits_steady _ _ _ _ _ _ _) ?sub; (case sub => decide))
    | (with_reducible apply Steady.chain ?_ (State.bayM_steady _ _ _) ?sub; (case sub => decide))
    | (with_reducible apply Steady.chain ?_ (cofferM_steady _ _ _) ?sub; (case sub => decide))
    | exact Yields.none
    | with_reducible apply Yields.some
    | with_reducible apply Yields.ite
    | with_reducible apply Steady.ite
    | (with_reducible apply Steady.fold ?_ (fun _ _ => ?_); all_goals try dsimp only)
    | (with_reducible apply Steady.foldPair ?_ (fun _ _ => ?_); all_goals try dsimp only)
    | with_reducible apply Steady.iteFirst
    | (with_reducible apply Steady.first ?ee; (case ee => assumption))
    | split

theorem execGarbageCollection_moves (bay : Nat) (s : State) : Moves [.bays] s (execGarbageCollection bay s) := by
  unfold execGarbageCollection
  try dsimp only
  repeat' first
    | with_reducible apply Steady.refl
    | (with_reducible apply Steady.chain ?_ ((relocate_yields _ _ _).frame (by assumption)) ?sub; (case sub => decide))
    | with_reducible apply formed_moves
    | with_reducible apply clocked_moves
    | with_reducible apply when_moves
    | with_reducible apply Moves.next
    | with_reducible apply Moves.ite
    | (intro _; try dsimp only)
    | with_reducible apply Steady.ite
    | with_reducible apply Steady.orElse (fun _ _ => ?_)
    | (with_reducible apply Steady.choose ?ee; (case ee => assumption))
    | split

theorem execWearLevel_moves (bay : Nat) (s : State) : Moves [.bays] s (execWearLevel bay s) := by
  unfold execWearLevel
  try dsimp only
  repeat' first
    | with_reducible apply Steady.refl
    | (with_reducible apply Steady.chain ?_ ((relocate_yields _ _ _).frame (by assumption)) ?sub; (case sub => decide))
    | with_reducible apply formed_moves
    | with_reducible apply clocked_moves
    | with_reducible apply when_moves
    | with_reducible apply Moves.next
    | (intro _; try dsimp only)
    | (with_reducible apply Steady.fold ?_ (fun _ _ => ?_); all_goals try dsimp only)
    | with_reducible apply Steady.orElse (fun _ _ => ?_)
    | split

theorem execBlockEraseDone_moves (bay : Nat) (ok : Bool) (s : State) : Moves [.bays, .lan] s (execBlockEraseDone bay ok s) := by
  unfold execBlockEraseDone
  try dsimp only
  repeat' first
    | with_reducible apply Steady.refl
    | (with_reducible apply Steady.chain ?_ (cofferM_steady _ _ _) ?sub; (case sub => decide))
    | (with_reducible apply Steady.chain ?_ (journal_steady _ _ _) ?sub; (case sub => decide))
    | (with_reducible apply Steady.chain ?_ (State.bayM_steady _ _ _) ?sub; (case sub => decide))
    | (with_reducible apply Steady.chain ?_ (lifeUpdate_steady _ _) ?sub; (case sub => decide))
    | (with_reducible apply Steady.chain ?_ (badBlock_steady _ _ _ _ _) ?sub; (case sub => decide))
    | with_reducible apply formed_moves
    | with_reducible apply clocked_moves
    | with_reducible apply Moves.next
    | with_reducible apply Moves.ite
    | with_reducible apply Steady.ite
    | split

theorem loseUnit_steady (n : Nat) (s : State) (u : Nat × Nat) : Steady [.extents, .bays] s (loseUnit n s u) := by
  unfold loseUnit
  try dsimp only
  repeat' first
    | with_reducible apply Steady.refl
    | (with_reducible apply Steady.chain ?_ (cofferM_steady _ _ _) ?sub; (case sub => decide))
    | with_reducible apply Steady.ite
    | with_reducible apply Steady.iteFirst
    | (with_reducible apply Steady.update <;> first | with_reducible exact Or.inl rfl | (apply Or.inr; decide) | (exact Or.inr ⟨by decide, fun h => by simpa using h⟩) | skip)

theorem execPatrolRead_moves (bay sb symbols : Nat) (s : State) (page : Nat) (rebuilt : Bool) : Moves [.extents, .bays] s (execPatrolRead bay sb symbols s page rebuilt) := by
  unfold execPatrolRead
  try dsimp only
  repeat' first
    | with_reducible apply Steady.refl
    | (with_reducible apply Steady.chain ?_ (cofferM_steady _ _ _) ?sub; (case sub => decide))
    | (with_reducible apply Steady.chain ?_ (State.bayM_steady _ _ _) ?sub; (case sub => decide))
    | (with_reducible apply Steady.chain ?_ (cfcEvent_steady _ _ _) ?sub; (case sub => decide))
    | (with_reducible apply Steady.chain ?_ (loseUnit_steady _ _ _) ?sub; (case sub => decide))
    | with_reducible apply formed_moves
    | with_reducible apply clocked_moves
    | with_reducible apply when_moves
    | with_reducible apply Moves.next
    | with_reducible apply Moves.ite
    | with_reducible apply Steady.ite
    | (with_reducible apply Steady.fold ?_ (fun _ _ => ?_); all_goals try dsimp only)
    | (with_reducible apply Steady.foldPair ?_ (fun _ _ => ?_); all_goals try dsimp only)
    | with_reducible apply Steady.iteFirst
    | split

theorem execJournalCheckpoint_moves (bay : Nat) (s : State) : Moves [.bays] s (execJournalCheckpoint bay s) := by
  unfold execJournalCheckpoint
  try dsimp only
  repeat' first
    | with_reducible apply Steady.refl
    | (with_reducible apply Steady.chain ?_ (mapImage_steady _ _) ?sub; (case sub => decide))
    | with_reducible apply formed_moves
    | with_reducible apply clocked_moves
    | with_reducible apply when_moves

theorem execCofferCounterWrite_moves (bay : Nat) (s : State) : Moves [.bays] s (execCofferCounterWrite bay s) := by
  unfold execCofferCounterWrite
  try dsimp only
  repeat' first
    | with_reducible apply Steady.refl
    | (with_reducible apply Steady.chain ?_ (writeCounters_steady _ _) ?sub; (case sub => decide))
    | with_reducible apply formed_moves
    | with_reducible apply when_moves

theorem tarnishLines_steady (s : State) (station : Nat) (detail : Nat) (lines : List Nat) : Steady [.t1, .integ, .lan] s (tarnishLines s station detail lines) := by
  unfold tarnishLines
  try dsimp only
  repeat' first
    | with_reducible apply Steady.refl
    | (with_reducible apply Steady.chain ?_ (State.integM_steady _ _) ?sub; (case sub => decide))
    | (with_reducible apply Steady.chain ?_ (logFault_steady _ _ _ _ _ _ _) ?sub; (case sub => decide))
    | (with_reducible apply Steady.fold ?_ (fun _ _ => ?_); all_goals try dsimp only)
    | (with_reducible apply Steady.update <;> first | with_reducible exact Or.inl rfl | (apply Or.inr; decide) | (exact Or.inr ⟨by decide, fun h => by simpa using h⟩) | skip)
    | exact Or.inr ⟨by decide, writeN_wf _ _⟩
    | exact Or.inr ⟨by decide, write_wf _ _⟩
    | exact Or.inr ⟨by decide, clear_wf _ _⟩
    | exact Or.inr ⟨by decide, copyFrom_wf _ _ _ _⟩
    | exact Or.inr ⟨by decide, clearAll_wf _ _ _⟩
    | exact Or.inr ⟨by decide, fun _ => rfl⟩

theorem scrubWord_steady (stack : Nat) (s : State) (e : Nat × Nat) : Steady [.t1, .hbc, .integ, .lan] s (scrubWord stack s e) := by
  have put : ∀ (t : State) (m : Mem) (i : Integ), (t.t1.wf = true → m.wf = true) → Steady [.t1, .hbc, .integ, .lan] s t → Steady [.t1, .hbc, .integ, .lan] s { t with t1 := m, integ := i } := by
    intro t m i hm h
    with_reducible apply Steady.update <;> first | with_reducible exact Or.inl rfl | skip
    · exact Or.inr ⟨by decide, hm⟩
    · exact Or.inr (by decide)
    · exact h
  have count : ∀ (f : Hbc → Hbc), Steady [.t1, .hbc, .integ, .lan] s { s with hbc := s.hbc.modify stack f } := by
    intro f
    with_reducible apply Steady.update <;> first | with_reducible exact Or.inl rfl | skip
    · exact Or.inr ⟨by decide, fun h => by simpa using h⟩
    · exact .refl
  unfold scrubWord
  dsimp only
  generalize classify _ = r
  cases r with
  | clean => exact put _ _ _ (writeN_wf _ _) .refl
  | corrected w => exact put _ _ _ (writeN_wf _ _) (count _)
  | tarnish => exact put _ _ _ (clear_wf _ _) .refl
  | uncorrectable => exact (count _).chain (tarnishLines_steady _ _ _ _) (by decide)

theorem execHbmScrub_moves (stack first : Nat) (errors : List (Nat × Nat)) (s : State) : Moves [.t1, .hbc, .integ, .lan] s (execHbmScrub stack first errors s) := by
  unfold execHbmScrub
  try dsimp only
  repeat' first
    | with_reducible apply Steady.refl
    | (with_reducible apply Steady.chain ?_ (scrubWord_steady _ _ _) ?sub; (case sub => decide))
    | with_reducible apply formed_moves
    | with_reducible apply clocked_moves
    | with_reducible apply when_moves
    | (with_reducible apply Steady.fold ?_ (fun _ _ => ?_); all_goals try dsimp only)
    | (with_reducible apply Steady.foldPair ?_ (fun _ _ => ?_); all_goals try dsimp only)
    | (with_reducible apply Steady.update <;> first | with_reducible exact Or.inl rfl | (apply Or.inr; decide) | (exact Or.inr ⟨by decide, fun h => by simpa using h⟩) | skip)

end Sys2Proof.Machine
end

