-- ==== Sys2Proof/Laws/Frames/Tiles.lean ====
section
/-!
SUPPORT. Sys2Proof/Laws/Frames/Tiles.lean: what each operation of Machine/Tiles.lean can change at most.
-/
namespace Sys2Proof.Machine

theorem startProg_steady (s : State) (slot : Nat) (kind : Nat) : Steady [.ory] s (startProg s slot kind) := by
  unfold startProg
  try dsimp only
  repeat' first
    | with_reducible apply Steady.refl
    | (with_reducible apply Steady.chain ?_ (State.oryM_steady _ _) ?sub; (case sub => decide))
    | (intro _; try dsimp only)
    | with_reducible apply Steady.ite
    | with_reducible apply Steady.orElse (fun _ _ => ?_)

theorem freeOrrery_steady (s : State) : Steady [.ory, .eph, .integ] s (freeOrrery s) := by
  unfold freeOrrery
  try dsimp only
  repeat' first
    | with_reducible apply Steady.refl
    | (with_reducible apply Steady.chain ?_ (State.ephM_steady _ _) ?sub; (case sub => decide))
    | (with_reducible apply Steady.chain ?_ (State.oryM_steady _ _) ?sub; (case sub => decide))
    | (with_reducible apply Steady.chain ?_ (cutTest_steady _) ?sub; (case sub => decide))
    | with_reducible apply Steady.ite

theorem discardStep_steady (s : State) (c : Nat) : Steady [.ory, .lockets, .facets, .eph, .integ] s (discardStep s c) := by
  unfold discardStep
  try dsimp only
  repeat' first
    | with_reducible apply Steady.refl
    | (with_reducible apply Steady.chain ?_ (freeOrrery_steady _) ?sub; (case sub => decide))
    | (with_reducible apply Steady.chain ?_ (State.locketM_steady _ _ _) ?sub; (case sub => decide))
    | (with_reducible apply Steady.chain ?_ (sweepFacets_steady _) ?sub; (case sub => decide))
    | (with_reducible apply Steady.chain ?_ (State.ctxM_steady _ _ _) ?sub; (case sub => decide))
    | with_reducible apply Steady.ite
    | (with_reducible apply Steady.fold ?_ (fun _ _ => ?_); all_goals try dsimp only)
    | split

theorem countCmdWait_steady (s : State) (id : Nat) : Steady [.eph] s (countCmdWait s id) := by
  unfold countCmdWait
  try dsimp only
  repeat' first
    | with_reducible apply Steady.refl
    | (with_reducible apply Steady.chain ?_ (countWait_steady _ _ _) ?sub; (case sub => decide))
    | split

end Sys2Proof.Machine
end

