-- ==== Sys2Proof/Laws/Frames/Sched.lean ====
section
/-!
SUPPORT. Sys2Proof/Laws/Frames/Sched.lean: what each operation of Machine/Sched.lean can change at most.
-/
namespace Sys2Proof.Machine

theorem serverNext_steady (s : State) (lim : Tick) (k : Nat) : Steady [.traffic] s (serverNext s lim k).1 := by
  unfold serverNext
  try dsimp only
  repeat' first
    | with_reducible apply Steady.refl
    | (with_reducible apply Steady.chain ?_ (wfqSelect_steady _ _ _ _) ?sub; (case sub => decide))
    | (with_reducible apply Steady.first ?ee; (case ee => assumption))
    | split

theorem firstServer_steady (s : State) (lim : Tick) (ks : List Nat) : Steady [.traffic] s (firstServer s lim ks).1 := by
  induction ks generalizing s with
  | nil => exact Steady.refl
  | cons k ks ih =>
    unfold firstServer
    have h := serverNext_steady s lim k
    split
    · rename_i e; exact Steady.first e h
    · rename_i e; exact (Steady.first e h).chain (ih _) (by decide)

theorem trimArea_steady (s : State) : Steady [.eph] s (trimArea s) := by
  unfold trimArea
  try dsimp only
  repeat' first
    | with_reducible apply Steady.refl
    | (with_reducible apply Steady.chain ?_ (State.ephM_steady _ _) ?sub; (case sub => decide))
    | (intro _; try dsimp only)
    | with_reducible apply Steady.orElse (fun _ _ => ?_)

theorem loadSpill_steady (s : State) (base : Nat) (bytes : Nat) : Steady [.ory] s (loadSpill s base bytes) := by
  unfold loadSpill
  try dsimp only
  repeat' first
    | with_reducible apply Steady.refl
    | (with_reducible apply Steady.chain ?_ (State.oryM_steady _ _) ?sub; (case sub => decide))

theorem loadCtxSpill_steady (s : State) (c : Nat) : Steady [.ory] s (loadCtxSpill s c) := by
  unfold loadCtxSpill
  try dsimp only
  repeat' first
    | with_reducible apply Steady.refl
    | (with_reducible apply Steady.chain ?_ (loadSpill_steady _ _ _) ?sub; (case sub => decide))
    | split

theorem loadJobSpill_steady (s : State) (j : Job) : Steady [.ory] s (loadJobSpill s j) := by
  unfold loadJobSpill
  try dsimp only
  repeat' first
    | with_reducible apply Steady.refl
    | (with_reducible apply Steady.chain ?_ (loadSpill_steady _ _ _) ?sub; (case sub => decide))

theorem countPreempt_steady (s : State) (t : Nat) : Steady [.eph] s (countPreempt s t) := by
  unfold countPreempt
  try dsimp only
  repeat' first
    | with_reducible apply Steady.refl
    | (with_reducible apply Steady.chain ?_ (State.ephM_steady _ _) ?sub; (case sub => decide))

theorem askPreempt_steady (s : State) : Steady [.ory] s (askPreempt s) := by
  unfold askPreempt
  try dsimp only
  repeat' first
    | with_reducible apply Steady.refl
    | (with_reducible apply Steady.chain ?_ (State.oryM_steady _ _) ?sub; (case sub => decide))
    | with_reducible apply Steady.ite

theorem requestPreempt_steady (s : State) : Steady [.ory, .eph] s (requestPreempt s) := by
  unfold requestPreempt
  try dsimp only
  repeat' first
    | with_reducible apply Steady.refl
    | (with_reducible apply Steady.chain ?_ (State.ephM_steady _ _) ?sub; (case sub => decide))
    | (with_reducible apply Steady.chain ?_ (askPreempt_steady _) ?sub; (case sub => decide))
    | (with_reducible apply Steady.chain ?_ (countPreempt_steady _ _) ?sub; (case sub => decide))
    | (intro _; try dsimp only)
    | with_reducible apply Steady.ite
    | (with_reducible apply Steady.fold ?_ (fun _ _ => ?_); all_goals try dsimp only)
    | with_reducible apply Steady.orElse (fun _ _ => ?_)
    | split

theorem urgentCandidate_steady (s : State) (e : EphSlot) : Steady [.traffic] s (urgentCandidate s e).1 := by
  unfold urgentCandidate
  try dsimp only
  repeat' first
    | with_reducible apply Steady.refl
    | (with_reducible apply Steady.chain ?_ (firstServer_steady _ _ _) ?sub; (case sub => decide))
    | (intro _; try dsimp only)
    | with_reducible apply Steady.orElse (fun _ _ => ?_)
    | (with_reducible apply Steady.first ?ee; (case ee => assumption))
    | split

theorem tryUrgent_steady (s : State) : Steady [.ory, .eph, .traffic] s (tryUrgent s) := by
  unfold tryUrgent
  try dsimp only
  repeat' first
    | with_reducible apply Steady.refl
    | (with_reducible apply Steady.chain ?_ (urgentCandidate_steady _ _) ?sub; (case sub => decide))
    | (with_reducible apply Steady.chain ?_ (requestPreempt_steady _) ?sub; (case sub => decide))
    | (with_reducible apply Steady.chain ?_ (State.ephM_steady _ _) ?sub; (case sub => decide))
    | (with_reducible apply Steady.chain ?_ (ephEvent_steady _ _) ?sub; (case sub => decide))
    | with_reducible apply Steady.ite
    | (with_reducible apply Steady.first ?ee; (case ee => assumption))
    | split

theorem addJob_steady (s : State) (j : Job) : Steady [.eph] s (addJob s j) := by
  unfold addJob
  try dsimp only
  repeat' first
    | with_reducible apply Steady.refl
    | (with_reducible apply Steady.chain ?_ (State.ephM_steady _ _) ?sub; (case sub => decide))

theorem endCharge_steady (s : State) (j : Job) : Steady [.eph] s (endCharge s j) := by
  unfold endCharge
  try dsimp only
  repeat' first
    | with_reducible apply Steady.refl
    | (with_reducible apply Steady.chain ?_ (State.ephM_steady _ _) ?sub; (case sub => decide))
    | (intro _; try dsimp only)
    | with_reducible apply Steady.ite
    | with_reducible apply Steady.orElse (fun _ _ => ?_)
    | split

theorem resumeStep_steady (s : State) (c : Nat) : Steady [.ory, .eph] s (resumeStep s c) := by
  unfold resumeStep
  try dsimp only
  repeat' first
    | with_reducible apply Steady.refl
    | (with_reducible apply Steady.chain ?_ (State.ephM_steady _ _) ?sub; (case sub => decide))
    | (with_reducible apply Steady.chain ?_ (State.ctxM_steady _ _ _) ?sub; (case sub => decide))
    | (with_reducible apply Steady.chain ?_ (State.oryM_steady _ _) ?sub; (case sub => decide))
    | (with_reducible apply Steady.chain ?_ (loadCtxSpill_steady _ _) ?sub; (case sub => decide))
    | (intro _; try dsimp only)
    | split

theorem takeUnit_steady (s : State) (ci : Nat) : Steady [.colls, .sieves] s (takeUnit s ci) := by
  unfold takeUnit
  try dsimp only
  repeat' first
    | with_reducible apply Steady.refl
    | (intro _; try dsimp only)
    | split
    | (with_reducible apply Steady.update <;> first | with_reducible exact Or.inl rfl | (apply Or.inr; decide) | (exact Or.inr ⟨by decide, fun h => by simpa using h⟩) | skip)

theorem startJob_steady (s : State) (j : Job) (urgent : Bool) : Steady [.ory, .eph, .traffic, .colls, .sieves] s (startJob s j urgent) := by
  unfold startJob
  try dsimp only
  repeat' first
    | with_reducible apply Steady.refl
    | (with_reducible apply Steady.chain ?_ (loadJobSpill_steady _ _) ?sub; (case sub => decide))
    | (with_reducible apply Steady.chain ?_ (State.ephM_steady _ _) ?sub; (case sub => decide))
    | (with_reducible apply Steady.chain ?_ (State.oryM_steady _ _) ?sub; (case sub => decide))
    | (with_reducible apply Steady.chain ?_ (wfqCharge_steady _ _ _ _ _ _) ?sub; (case sub => decide))
    | (with_reducible apply Steady.chain ?_ (countWait_steady _ _ _) ?sub; (case sub => decide))
    | (with_reducible apply Steady.chain ?_ (takeUnit_steady _ _) ?sub; (case sub => decide))
    | (with_reducible apply Steady.chain ?_ (startProg_steady _ _ _) ?sub; (case sub => decide))
    | with_reducible apply Steady.ite
    | split

theorem background_steady (s : State) : Steady [.ory, .eph, .traffic, .colls, .sieves] s (background s) := by
  unfold background
  try dsimp only
  repeat' first
    | with_reducible apply Steady.refl
    | (with_reducible apply Steady.chain ?_ (resumeStep_steady _ _) ?sub; (case sub => decide))
    | (with_reducible apply Steady.chain ?_ (firstServer_steady _ _ _) ?sub; (case sub => decide))
    | (with_reducible apply Steady.chain ?_ (startJob_steady _ _ _) ?sub; (case sub => decide))
    | (with_reducible apply Steady.first ?ee; (case ee => assumption))
    | split

theorem sporadic_steady (s : State) (k : Nat) : Steady [.ory, .eph, .traffic, .colls, .sieves] s (sporadic s k) := by
  unfold sporadic
  try dsimp only
  repeat' first
    | with_reducible apply Steady.refl
    | (with_reducible apply Steady.chain ?_ (serverNext_steady _ _ _) ?sub; (case sub => decide))
    | (with_reducible apply Steady.chain ?_ (startJob_steady _ _ _) ?sub; (case sub => decide))
    | (with_reducible apply Steady.chain ?_ (resumeStep_steady _ _) ?sub; (case sub => decide))
    | (with_reducible apply Steady.chain ?_ (firstServer_steady _ _ _) ?sub; (case sub => decide))
    | (with_reducible apply Steady.first ?ee; (case ee => assumption))
    | split

theorem dispatch_steady (s : State) : Steady [.ory, .eph, .traffic, .colls, .sieves] s (dispatch s) := by
  unfold dispatch
  try dsimp only
  repeat' first
    | with_reducible apply Steady.refl
    | (with_reducible apply Steady.chain ?_ (background_steady _) ?sub; (case sub => decide))
    | (with_reducible apply Steady.chain ?_ (startJob_steady _ _ _) ?sub; (case sub => decide))
    | (with_reducible apply Steady.chain ?_ (resumeStep_steady _ _) ?sub; (case sub => decide))
    | (with_reducible apply Steady.chain ?_ (sporadic_steady _ _) ?sub; (case sub => decide))
    | (intro _; try dsimp only)
    | with_reducible apply Steady.ite
    | split

end Sys2Proof.Machine
end

