-- ==== Sys2Proof/Laws/Frames/Steps.lean ====
section
/-!
SUPPORT. Sys2Proof/Laws/Frames/Steps.lean: what each operation of Machine/Steps.lean can change at most.
-/
namespace Sys2Proof.Machine

theorem parureTarnish_steady (s : State) (slot : Nat) (detail : Nat) : Steady [.integ, .lan] s (parureTarnish s slot detail) := by
  unfold parureTarnish
  try dsimp only
  repeat' first
    | with_reducible apply Steady.refl
    | (with_reducible apply Steady.chain ?_ (logFault_steady _ _ _ _ _ _ _) ?sub; (case sub => decide))
    | (with_reducible apply Steady.chain ?_ (intEvent_steady _ _) ?sub; (case sub => decide))

theorem markUnusable_steady (s : State) (h : Nat) : Steady [.lockets] s (markUnusable s h) := by
  unfold markUnusable
  try dsimp only
  repeat' first
    | with_reducible apply Steady.refl
    | (with_reducible apply Steady.chain ?_ (State.locketM_steady _ _ _) ?sub; (case sub => decide))

theorem replayEntry_steady (h : Nat) (log : List ReplayEntry) (s : State) (e : ReplayEntry) : Steady [.stm, .lockets, .eph, .hif] s (replayEntry h log s e) := by
  unfold replayEntry
  try dsimp only
  repeat' first
    | with_reducible apply Steady.refl
    | (with_reducible apply Steady.chain ?_ (appendInput_steady _ _ _ _) ?sub; (case sub => decide))
    | (with_reducible apply Steady.chain ?_ (State.locketM_steady _ _ _) ?sub; (case sub => decide))
    | (with_reducible apply Steady.chain ?_ (openStream_steady _ _ _ _) ?sub; (case sub => decide))
    | (with_reducible apply Steady.chain ?_ (cancelOn_steady _ _ _) ?sub; (case sub => decide))
    | (intro _; try dsimp only)
    | with_reducible apply Steady.ite
    | with_reducible apply Steady.iteFirst
    | with_reducible apply Steady.orElse (fun _ _ => ?_)
    | (with_reducible apply Steady.first ?ee; (case ee => assumption))
    | split

theorem replayBoundary_steady (s : State) (h : Nat) : Steady [.stm, .lockets, .eph, .hif] s (replayBoundary s h) := by
  unfold replayBoundary
  try dsimp only
  repeat' first
    | with_reducible apply Steady.refl
    | (with_reducible apply Steady.chain ?_ (replayEntry_steady _ _ _ _) ?sub; (case sub => decide))
    | with_reducible apply Steady.ite
    | (with_reducible apply Steady.fold ?_ (fun _ _ => ?_); all_goals try dsimp only)
    | split

theorem applyWait_steady (h : Nat) (s : State) (g : GenUpdate) : Steady [.lockets, .eph, .hif] s (applyWait h s g) := by
  unfold applyWait
  try dsimp only
  repeat' first
    | with_reducible apply Steady.refl
    | (with_reducible apply Steady.chain ?_ (State.locketM_steady _ _ _) ?sub; (case sub => decide))
    | (with_reducible apply Steady.chain ?_ (countCmdWait_steady _ _) ?sub; (case sub => decide))
    | (with_reducible apply Steady.chain ?_ (completeId_steady _ _ _ _ _ _) ?sub; (case sub => decide))
    | with_reducible apply Steady.ite
    | split

theorem applyWaits_steady (s : State) (h : Nat) : Steady [.lockets, .eph, .hif] s (applyWaits s h) := by
  unfold applyWaits
  try dsimp only
  repeat' first
    | with_reducible apply Steady.refl
    | (with_reducible apply Steady.chain ?_ (State.locketM_steady _ _ _) ?sub; (case sub => decide))
    | (with_reducible apply Steady.chain ?_ (applyWait_steady _ _ _) ?sub; (case sub => decide))
    | (with_reducible apply Steady.fold ?_ (fun _ _ => ?_); all_goals try dsimp only)
    | split

theorem ackInputs_steady (s : State) (h : Nat) : Steady [.lockets, .eph, .hif] s (ackInputs s h) := by
  unfold ackInputs
  try dsimp only
  repeat' first
    | with_reducible apply Steady.refl
    | (with_reducible apply Steady.chain ?_ (completeId_steady _ _ _ _ _ _) ?sub; (case sub => decide))
    | (with_reducible apply Steady.chain ?_ (countCmdWait_steady _ _) ?sub; (case sub => decide))
    | (with_reducible apply Steady.chain ?_ (State.locketM_steady _ _ _) ?sub; (case sub => decide))
    | with_reducible apply Steady.ite
    | (with_reducible apply Steady.fold ?_ (fun _ _ => ?_); all_goals try dsimp only)
    | (with_reducible apply Steady.foldPair ?_ (fun _ _ => ?_); all_goals try dsimp only)
    | with_reducible apply Steady.iteFirst
    | split

theorem countMasks_steady (s : State) (t : Tree) (nodes : List Nat) : Steady [.fil] s (countMasks s t nodes) := by
  unfold countMasks
  try dsimp only
  repeat' first
    | with_reducible apply Steady.refl
    | (with_reducible apply Steady.update <;> first | with_reducible exact Or.inl rfl | (apply Or.inr; decide) | (exact Or.inr ⟨by decide, fun h => by simpa using h⟩) | skip)

theorem checkMasks_steady (s : State) (h : Nat) (l' : Locket) (states : List (Option Nat)) : Steady [.fil, .stm, .lockets, .eph, .integ, .hif, .lan] s (checkMasks s h l' states).1 := by
  unfold checkMasks
  try dsimp only
  repeat' first
    | with_reducible apply Steady.refl
    | (with_reducible apply Steady.chain ?_ (parureTarnish_steady _ _ _) ?sub; (case sub => decide))
    | (with_reducible apply Steady.chain ?_ (tarnishSession_steady _ _ _ _) ?sub; (case sub => decide))
    | with_reducible apply Steady.ite
    | with_reducible apply Steady.iteFirst
    | split
    | (with_reducible apply Steady.update <;> first | with_reducible exact Or.inl rfl | (apply Or.inr; decide) | (exact Or.inr ⟨by decide, fun h => by simpa using h⟩) | skip)

theorem countDraft_steady (s : State) (ignored : Bool) (noDraft : Bool) : Steady [.smp] s (countDraft s ignored noDraft) := by
  unfold countDraft
  try dsimp only
  repeat' first
    | with_reducible apply Steady.refl
    | with_reducible apply Steady.ite
    | (with_reducible apply Steady.update <;> first | with_reducible exact Or.inl rfl | (apply Or.inr; decide) | (exact Or.inr ⟨by decide, fun h => by simpa using h⟩) | skip)

theorem freezeTree_steady (s : State) (h : Nat) (l' : Locket) (row : LenRow) (room : Nat) : Steady [.smp, .lockets] s (freezeTree s h l' row room).1 := by
  unfold freezeTree
  try dsimp only
  repeat' first
    | with_reducible apply Steady.refl
    | (with_reducible apply Steady.chain ?_ (countDraft_steady _ _ _) ?sub; (case sub => decide))
    | (with_reducible apply Steady.chain ?_ (State.locketM_steady _ _ _) ?sub; (case sub => decide))
    | with_reducible apply Steady.ite
    | with_reducible apply Steady.iteFirst
    | split

theorem notePause_steady (s : State) (h : Nat) (l' : Locket) : Steady [.lockets, .hif, .std] s (notePause s h l') := by
  unfold notePause
  try dsimp only
  repeat' first
    | with_reducible apply Steady.refl
    | (with_reducible apply Steady.chain ?_ (hifEvent_steady _ _) ?sub; (case sub => decide))
    | (with_reducible apply Steady.chain ?_ (State.hifM_steady _ _) ?sub; (case sub => decide))
    | (with_reducible apply Steady.chain ?_ (State.locketM_steady _ _ _) ?sub; (case sub => decide))
    | with_reducible apply Steady.ite

theorem freezeRow_steady (s : State) (m : Nat) (h : Nat) : Steady [.smp, .fil, .stm, .lockets, .eph, .integ, .hif, .std, .lan] s (freezeRow s m h).1 := by
  unfold freezeRow
  try dsimp only
  repeat' first
    | with_reducible apply Steady.refl
    | (with_reducible apply Steady.chain ?_ (notePause_steady _ _ _) ?sub; (case sub => decide))
    | (with_reducible apply Steady.chain ?_ (markUnusable_steady _ _) ?sub; (case sub => decide))
    | (with_reducible apply Steady.chain ?_ (tarnishSession_steady _ _ _ _) ?sub; (case sub => decide))
    | (with_reducible apply Steady.chain ?_ (freezeTree_steady _ _ _ _ _) ?sub; (case sub => decide))
    | (with_reducible apply Steady.chain ?_ (endStream_steady _ _ _) ?sub; (case sub => decide))
    | (with_reducible apply Steady.chain ?_ (checkMasks_steady _ _ _ _) ?sub; (case sub => decide))
    | (with_reducible apply Steady.chain ?_ (countMasks_steady _ _ _) ?sub; (case sub => decide))
    | (intro _; try dsimp only)
    | with_reducible apply Steady.ite
    | with_reducible apply Steady.iteFirst
    | with_reducible apply Steady.orElse (fun _ _ => ?_)
    | (with_reducible apply Steady.first ?ee; (case ee => assumption))
    | split
    | (with_reducible apply Steady.update <;> first | with_reducible exact Or.inl rfl | (apply Or.inr; decide) | (exact Or.inr ⟨by decide, fun h => by simpa using h⟩) | skip)

theorem freezeRows_steady (s : State) (members : Tab Nat) : Steady [.smp, .fil, .stm, .lockets, .eph, .integ, .hif, .std, .lan] s (freezeRows s members).1 := by
  unfold freezeRows
  try dsimp only
  repeat' first
    | with_reducible apply Steady.refl
    | (with_reducible apply Steady.chain ?_ (freezeRow_steady _ _ _) ?sub; (case sub => decide))
    | (with_reducible apply Steady.fold ?_ (fun _ _ => ?_); all_goals try dsimp only)
    | (with_reducible apply Steady.foldPair ?_ (fun _ _ => ?_); all_goals try dsimp only)
    | (with_reducible apply Steady.first ?ee; (case ee => assumption))
    | split

theorem startStep_steady (s : State) (c : Nat) : Steady [.ory, .smp, .fil, .stm, .lockets, .eph, .integ, .hif, .std, .lan] s (startStep s c) := by
  unfold startStep
  try dsimp only
  repeat' first
    | with_reducible apply Steady.refl
    | (with_reducible apply Steady.chain ?_ (ackInputs_steady _ _) ?sub; (case sub => decide))
    | (with_reducible apply Steady.chain ?_ (freezeRows_steady _ _) ?sub; (case sub => decide))
    | (with_reducible apply Steady.chain ?_ (State.ctxM_steady _ _ _) ?sub; (case sub => decide))
    | (with_reducible apply Steady.chain ?_ (State.ephM_steady _ _) ?sub; (case sub => decide))
    | (with_reducible apply Steady.chain ?_ (loadCtxSpill_steady _ _) ?sub; (case sub => decide))
    | (with_reducible apply Steady.chain ?_ (State.oryM_steady _ _) ?sub; (case sub => decide))
    | (with_reducible apply Steady.chain ?_ (startProg_steady _ _ _) ?sub; (case sub => decide))
    | with_reducible apply Steady.ite
    | (with_reducible apply Steady.fold ?_ (fun _ _ => ?_); all_goals try dsimp only)
    | (with_reducible apply Steady.first ?ee; (case ee => assumption))
    | split
    | (with_reducible apply Steady.update <;> first | with_reducible exact Or.inl rfl | (apply Or.inr; decide) | (exact Or.inr ⟨by decide, fun h => by simpa using h⟩) | skip)

theorem endDrafts_steady (s : State) (c : Nat) (st : StepRec) : Steady [.ory, .eph] s (endDrafts s c st) := by
  unfold endDrafts
  try dsimp only
  repeat' first
    | with_reducible apply Steady.refl
    | (with_reducible apply Steady.chain ?_ (State.stepM_steady _ _ _) ?sub; (case sub => decide))
    | (with_reducible apply Steady.chain ?_ (startProg_steady _ _ _) ?sub; (case sub => decide))
    | (intro _; try dsimp only)
    | with_reducible apply Steady.orElse (fun _ _ => ?_)
    | split

theorem checkNodes_steady (st : StepRec) (s : State) (m : Nat) (t : Tree) (nodes : List Nat) : Steady [.fil, .stm, .lockets, .eph, .integ, .hif, .lan] s (checkNodes st s m t nodes) := by
  unfold checkNodes
  try dsimp only
  repeat' first
    | with_reducible apply Steady.refl
    | (with_reducible apply Steady.chain ?_ (checkMasks_steady _ _ _ _) ?sub; (case sub => decide))
    | (intro _; try dsimp only)
    | with_reducible apply Steady.ite
    | with_reducible apply Steady.iteFirst
    | (with_reducible apply Steady.first ?ee; (case ee => assumption))
    | split

theorem fixRun_steady (s : State) (c : Nat) (st : StepRec) (d : Nat) (rows : List ((Nat × Nat) × List W32)) : Steady [.smp, .fil, .stm, .lockets, .eph, .integ, .hif, .lan] s (fixRun s c st d rows) := by
  unfold fixRun
  try dsimp only
  repeat' first
    | with_reducible apply Steady.refl
    | (with_reducible apply Steady.chain ?_ (checkNodes_steady _ _ _ _ _) ?sub; (case sub => decide))
    | (with_reducible apply Steady.chain ?_ (countMasks_steady _ _ _) ?sub; (case sub => decide))
    | (with_reducible apply Steady.chain ?_ (State.stepM_steady _ _ _) ?sub; (case sub => decide))
    | (with_reducible apply Steady.fold ?_ (fun _ _ => ?_); all_goals try dsimp only)
    | (with_reducible apply Steady.foldPair ?_ (fun _ _ => ?_); all_goals try dsimp only)
    | (with_reducible apply Steady.update <;> first | with_reducible exact Or.inl rfl | (apply Or.inr; decide) | (exact Or.inr ⟨by decide, fun h => by simpa using h⟩) | skip)

theorem execDraftRunDone_moves (context : Nat) (s : State) : Moves [.ory, .smp, .fil, .stm, .lockets, .eph, .integ, .hif, .lan] s (execDraftRunDone context s) := by
  unfold execDraftRunDone
  try dsimp only
  repeat' first
    | with_reducible apply Steady.refl
    | (with_reducible apply Steady.chain ?_ (fixRun_steady _ _ _ _ _) ?sub; (case sub => decide))
    | (with_reducible apply Steady.chain ?_ (endDrafts_steady _ _ _) ?sub; (case sub => decide))
    | (with_reducible apply Steady.chain ?_ (startProg_steady _ _ _) ?sub; (case sub => decide))
    | with_reducible apply when_moves
    | with_reducible apply Moves.next
    | with_reducible apply Moves.ite
    | (intro _; try dsimp only)
    | with_reducible apply Steady.ite
    | with_reducible apply Steady.orElse (fun _ _ => ?_)
    | split

theorem commitStack_steady (h : Nat) (img : List Byte) (loc : Bool) (slot : Nat) (q : Nat) (s : State) : Steady [.ast, .lockets, .t1, .integ] s (commitStack h img loc slot q s) := by
  unfold commitStack
  try dsimp only
  repeat' first
    | with_reducible apply Steady.refl
    | (with_reducible apply looks_steady _ _ ?_ (fun _ _ => ?_); all_goals try dsimp only)
    | (with_reducible apply Steady.chain ?_ (ownLook_steady _ _ _ _ _) ?sub; (case sub => decide))
    | (with_reducible apply Steady.chain ?_ (kvWrite_steady _ _ _ _ _) ?sub; (case sub => decide))
    | (with_reducible apply Steady.chain ?_ (State.locketM_steady _ _ _) ?sub; (case sub => decide))
    | with_reducible apply Steady.ite
    | (with_reducible apply Steady.fold ?_ (fun _ _ => ?_); all_goals try dsimp only)
    | (with_reducible apply Steady.foldPair ?_ (fun _ _ => ?_); all_goals try dsimp only)
    | with_reducible apply Steady.iteFirst
    | (with_reducible apply Steady.first ?ee; (case ee => assumption))
    | split

theorem commitEntry_steady (h : Nat) (img : List Byte) (s : State) (e : PosEntry) : Steady [.ast, .lockets, .t1, .integ] s (commitEntry h img s e) := by
  unfold commitEntry
  try dsimp only
  repeat' first
    | with_reducible apply Steady.refl
    | (with_reducible apply Steady.chain ?_ (commitStack_steady _ _ _ _ _ _) ?sub; (case sub => decide))
    | (intro _; try dsimp only)
    | with_reducible apply Steady.ite
    | with_reducible apply Steady.orElse (fun _ _ => ?_)

theorem commitMember_steady (st : StepRec) (s : State) (row : LenRow) : Steady [.ast, .stm, .lockets, .t1, .eph, .integ, .hif, .lan] s (commitMember st s row) := by
  unfold commitMember
  try dsimp only
  repeat' first
    | with_reducible apply Steady.refl
    | (with_reducible apply Steady.chain ?_ (commitEntry_steady _ _ _ _) ?sub; (case sub => decide))
    | (with_reducible apply Steady.chain ?_ (State.locketM_steady _ _ _) ?sub; (case sub => decide))
    | (with_reducible apply Steady.chain ?_ (tarnishSession_steady _ _ _ _) ?sub; (case sub => decide))
    | (intro _; try dsimp only)
    | with_reducible apply Steady.ite
    | (with_reducible apply Steady.fold ?_ (fun _ _ => ?_); all_goals try dsimp only)
    | with_reducible apply Steady.orElse (fun _ _ => ?_)
    | split

theorem takePending_steady (s : State) (h : Nat) : Steady [.lockets] s (takePending s h) := by
  unfold takePending
  try dsimp only
  repeat' first
    | with_reducible apply Steady.refl
    | (with_reducible apply Steady.chain ?_ (State.locketM_steady _ _ _) ?sub; (case sub => decide))

theorem commitStep_steady (s : State) (c : Nat) (x : Ctx) (st : StepRec) : Steady [.ast, .stm, .lockets, .facets, .t1, .hbc, .eph, .integ, .ckpt, .hif, .lan] s (commitStep s c x st) := by
  unfold commitStep
  try dsimp only
  repeat' first
    | with_reducible apply Steady.refl
    | (with_reducible apply Steady.chain ?_ (captureDeferred_steady _ _) ?sub; (case sub => decide))
    | (with_reducible apply Steady.chain ?_ (commitMember_steady _ _ _) ?sub; (case sub => decide))
    | (with_reducible apply Steady.chain ?_ (sweepFacets_steady _) ?sub; (case sub => decide))
    | (with_reducible apply Steady.chain ?_ (State.ctxM_steady _ _ _) ?sub; (case sub => decide))
    | (with_reducible apply Steady.chain ?_ (takePending_steady _ _) ?sub; (case sub => decide))
    | (with_reducible apply Steady.fold ?_ (fun _ _ => ?_); all_goals try dsimp only)

theorem leaveMember_steady (s : State) (c : Nat) (h : Nat) : Steady [.ast, .lockets, .charms, .eph] s (leaveMember s c h) := by
  unfold leaveMember
  try dsimp only
  repeat' first
    | with_reducible apply Steady.refl
    | (with_reducible apply Steady.chain ?_ (unpinReplicas_steady _ _) ?sub; (case sub => decide))
    | (with_reducible apply Steady.chain ?_ (releaseFrames_steady _ _ _) ?sub; (case sub => decide))
    | (with_reducible apply Steady.chain ?_ (State.locketM_steady _ _ _) ?sub; (case sub => decide))
    | (with_reducible apply Steady.chain ?_ (State.ctxM_steady _ _ _) ?sub; (case sub => decide))
    | split

theorem expel_steady (s : State) (c : Nat) (h : Nat) : Steady [.ast, .lockets, .charms, .eph] s (expel s c h) := by
  unfold expel
  try dsimp only
  repeat' first
    | with_reducible apply Steady.refl
    | (with_reducible apply Steady.chain ?_ (State.locketM_steady _ _ _) ?sub; (case sub => decide))
    | (with_reducible apply Steady.chain ?_ (dropSession_steady _ _) ?sub; (case sub => decide))
    | (with_reducible apply Steady.chain ?_ (leaveMember_steady _ _ _) ?sub; (case sub => decide))

theorem doLeaves_steady (s : State) (c : Nat) : Steady [.ast, .lockets, .charms, .eph, .hif] s (doLeaves s c) := by
  unfold doLeaves
  try dsimp only
  repeat' first
    | with_reducible apply Steady.refl
    | (with_reducible apply Steady.chain ?_ (expel_steady _ _ _) ?sub; (case sub => decide))
    | (with_reducible apply Steady.chain ?_ (completeId_steady _ _ _ _ _ _) ?sub; (case sub => decide))
    | (with_reducible apply Steady.chain ?_ (leaveMember_steady _ _ _) ?sub; (case sub => decide))
    | (with_reducible apply Steady.chain ?_ (State.ctxM_steady _ _ _) ?sub; (case sub => decide))
    | (intro _; try dsimp only)
    | with_reducible apply Steady.ite
    | (with_reducible apply Steady.fold ?_ (fun _ _ => ?_); all_goals try dsimp only)
    | with_reducible apply Steady.orElse (fun _ _ => ?_)
    | split

theorem refillWith_steady (h : Nat) (l' : Locket) (s : State) (x1 : Option (List Nat)) : Steady [.ast, .stm, .lockets, .hif] s (refillWith h l' s x1) := by
  unfold refillWith
  try dsimp only
  repeat' first
    | with_reducible apply Steady.refl
    | (with_reducible apply Steady.chain ?_ (State.locketM_steady _ _ _) ?sub; (case sub => decide))
    | (with_reducible apply Steady.chain ?_ (State.astM_steady _ _) ?sub; (case sub => decide))
    | (with_reducible apply Steady.chain ?_ (endStream_steady _ _ _) ?sub; (case sub => decide))
    | with_reducible apply Steady.ite
    | split

theorem refill1_steady (s : State) (h : Nat) : Steady [.ast, .stm, .lockets, .hif] s (refill1 s h) := by
  unfold refill1
  try dsimp only
  repeat' first
    | with_reducible apply Steady.refl
    | (with_reducible apply Steady.chain ?_ (takeFrames_steady _ _ _ _) ?sub; (case sub => decide))
    | (with_reducible apply Steady.chain ?_ (refillWith_steady _ _ _ _) ?sub; (case sub => decide))
    | (with_reducible apply Steady.first ?ee; (case ee => assumption))
    | split

theorem doRefills_steady (s : State) (c : Nat) : Steady [.ast, .stm, .lockets, .hif] s (doRefills s c) := by
  unfold doRefills
  try dsimp only
  repeat' first
    | with_reducible apply Steady.refl
    | (with_reducible apply Steady.chain ?_ (refill1_steady _ _) ?sub; (case sub => decide))
    | (intro _; try dsimp only)
    | (with_reducible apply Steady.fold ?_ (fun _ _ => ?_); all_goals try dsimp only)
    | with_reducible apply Steady.orElse (fun _ _ => ?_)

theorem takeReplica_steady (s : State) (h : Nat) (l' : Locket) (st : Nat) : Steady [.ast, .lockets, .charms, .extents, .cur] s (takeReplica s h l' st) := by
  unfold takeReplica
  try dsimp only
  repeat' first
    | with_reducible apply Steady.refl
    | (with_reducible apply Steady.chain ?_ ((startReplica_yields _ _ _ _).frame (by assumption)) ?sub; (case sub => decide))
    | (with_reducible apply Steady.chain ?_ (pinReplica_steady _ _ _ _) ?sub; (case sub => decide))
    | (intro _; try dsimp only)
    | with_reducible apply Steady.ite
    | with_reducible apply Steady.orElse (fun _ _ => ?_)
    | (with_reducible apply Steady.choose ?ee; (case ee => assumption))
    | split

theorem spreadFrames_steady (s : State) (h : Nat) (st : Nat) (img : List Byte) (fs : List Nat) (recPages : Nat) : Steady [.ast, .lockets] s (spreadFrames s h st img fs recPages).1 := by
  unfold spreadFrames
  try dsimp only
  repeat' first
    | with_reducible apply Steady.refl
    | (with_reducible apply Steady.chain ?_ (releaseFrames_steady _ _ _) ?sub; (case sub => decide))
    | (with_reducible apply Steady.chain ?_ (useFrames_steady _ _ _ _) ?sub; (case sub => decide))
    | (with_reducible apply Steady.chain ?_ (State.locketM_steady _ _ _) ?sub; (case sub => decide))

theorem reserveJoin_steady (s : State) (h : Nat) (l' : Locket) (since : Tick) : Steady [.ast, .lockets, .charms, .extents, .cur] s (reserveJoin s h l' since).1 := by
  unfold reserveJoin
  try dsimp only
  repeat' first
    | with_reducible apply Steady.refl
    | (with_reducible apply Steady.chain ?_ (takeFrames_steady _ _ _ _) ?sub; (case sub => decide))
    | (with_reducible apply Steady.chain ?_ (spreadFrames_steady _ _ _ _ _ _) ?sub; (case sub => decide))
    | (with_reducible apply Steady.chain ?_ (takeReplica_steady _ _ _ _) ?sub; (case sub => decide))
    | (with_reducible apply Steady.chain ?_ (beginRecompute_steady _ _ _ _ _) ?sub; (case sub => decide))
    | with_reducible apply Steady.ite
    | with_reducible apply Steady.iteFirst
    | (with_reducible apply Steady.first ?ee; (case ee => assumption))
    | split

theorem moveTo_steady (s : State) (h : Nat) (l' : Locket) (cmd : Nat) (t : Nat) : Steady [.ast, .lockets, .charms, .extents, .cur] s (moveTo s h l' cmd t).1 := by
  unfold moveTo
  try dsimp only
  repeat' first
    | with_reducible apply Steady.refl
    | (with_reducible apply Steady.chain ?_ (takeFrames_steady _ _ _ _) ?sub; (case sub => decide))
    | (with_reducible apply Steady.chain ?_ (useFrames_steady _ _ _ _) ?sub; (case sub => decide))
    | (with_reducible apply Steady.chain ?_ (unpinReplicas_steady _ _) ?sub; (case sub => decide))
    | (with_reducible apply Steady.chain ?_ (releaseFrames_steady _ _ _) ?sub; (case sub => decide))
    | (with_reducible apply Steady.chain ?_ (takeReplica_steady _ _ _ _) ?sub; (case sub => decide))
    | (with_reducible apply Steady.chain ?_ (State.locketM_steady _ _ _) ?sub; (case sub => decide))
    | (with_reducible apply Steady.chain ?_ (State.astM_steady _ _) ?sub; (case sub => decide))
    | (with_reducible apply Steady.chain ?_ (submit_steady _ _) ?sub; (case sub => decide))
    | (with_reducible apply Steady.first ?ee; (case ee => assumption))
    | split

theorem moveFirst_steady (h : Nat) (x : Locket) (cmd : Nat) (ts : List Nat) (s : State) : Steady [.ast, .lockets, .charms, .extents, .cur] s (moveFirst h x cmd ts s).1 := by
  induction ts generalizing s with
  | nil => exact Steady.refl
  | cons t ts ih =>
    unfold moveFirst
    have k := moveTo_steady s h x cmd t
    split
    · rename_i e; exact Steady.first e k
    · rename_i e; exact (Steady.first e k).chain (ih _) (by decide)

theorem endJoin_steady (s : State) (c : Nat) (j : Join) (status : Nat) (r0 : Nat) : Steady [.lockets, .eph, .hif] s (endJoin s c j status r0) := by
  unfold endJoin
  try dsimp only
  repeat' first
    | with_reducible apply Steady.refl
    | (with_reducible apply Steady.chain ?_ (State.ctxM_steady _ _ _) ?sub; (case sub => decide))
    | (with_reducible apply Steady.chain ?_ (State.locketM_steady _ _ _) ?sub; (case sub => decide))
    | (with_reducible apply Steady.chain ?_ (completeId_steady _ _ _ _ _ _) ?sub; (case sub => decide))
    | (with_reducible apply Steady.chain ?_ (countCmdWait_steady _ _) ?sub; (case sub => decide))

theorem bindMember_steady (s : State) (c : Nat) (j : Join) : Steady [.lockets, .eph, .hif] s (bindMember s c j) := by
  unfold bindMember
  try dsimp only
  repeat' first
    | with_reducible apply Steady.refl
    | (with_reducible apply Steady.chain ?_ (State.ctxM_steady _ _ _) ?sub; (case sub => decide))
    | (with_reducible apply Steady.chain ?_ (State.locketM_steady _ _ _) ?sub; (case sub => decide))
    | (with_reducible apply Steady.chain ?_ (endJoin_steady _ _ _ _ _) ?sub; (case sub => decide))
    | (intro _; try dsimp only)
    | with_reducible apply Steady.ite
    | with_reducible apply Steady.iteFirst
    | with_reducible apply Steady.orElse (fun _ _ => ?_)
    | split

theorem doJoin_steady (c : Nat) (s : State) (j : Join) : Steady [.ory, .ast, .lockets, .charms, .extents, .cur, .bays, .eph, .integ, .hif] s (doJoin c s j) := by
  unfold doJoin
  try dsimp only
  repeat' first
    | with_reducible apply Steady.refl
    | (with_reducible apply Steady.chain ?_ (State.ctxM_steady _ _ _) ?sub; (case sub => decide))
    | (with_reducible apply Steady.chain ?_ (endJoin_steady _ _ _ _ _) ?sub; (case sub => decide))
    | (with_reducible apply Steady.chain ?_ (returnJoin_steady _ _) ?sub; (case sub => decide))
    | (with_reducible apply Steady.chain ?_ (bindMember_steady _ _ _) ?sub; (case sub => decide))
    | (with_reducible apply Steady.chain ?_ (State.locketM_steady _ _ _) ?sub; (case sub => decide))
    | (with_reducible apply Steady.chain ?_ (moveFirst_steady _ _ _ _ _) ?sub; (case sub => decide))
    | (with_reducible apply Steady.chain ?_ (reserveJoin_steady _ _ _ _) ?sub; (case sub => decide))
    | (intro _; try dsimp only)
    | with_reducible apply Steady.ite
    | with_reducible apply Steady.orElse (fun _ _ => ?_)
    | (with_reducible apply Steady.first ?ee; (case ee => assumption))
    | split

theorem doJoins_steady (s : State) (c : Nat) : Steady [.ory, .ast, .lockets, .charms, .extents, .cur, .bays, .eph, .integ, .hif] s (doJoins s c) := by
  unfold doJoins
  try dsimp only
  repeat' first
    | with_reducible apply Steady.refl
    | (with_reducible apply Steady.chain ?_ (doJoin_steady _ _ _) ?sub; (case sub => decide))
    | (intro _; try dsimp only)
    | (with_reducible apply Steady.fold ?_ (fun _ _ => ?_); all_goals try dsimp only)
    | with_reducible apply Steady.orElse (fun _ _ => ?_)

theorem boundary_steady (s : State) (c : Nat) : Steady [.ory, .ast, .stm, .lockets, .charms, .extents, .cur, .bays, .eph, .integ, .hif] s (boundary s c) := by
  unfold boundary
  try dsimp only
  repeat' first
    | with_reducible apply Steady.refl
    | (with_reducible apply Steady.chain ?_ (doJoins_steady _ _) ?sub; (case sub => decide))
    | (with_reducible apply Steady.chain ?_ (doRefills_steady _ _) ?sub; (case sub => decide))
    | (with_reducible apply Steady.chain ?_ (doLeaves_steady _ _) ?sub; (case sub => decide))
    | (with_reducible apply Steady.chain ?_ (applyWaits_steady _ _) ?sub; (case sub => decide))
    | (with_reducible apply Steady.chain ?_ (replayBoundary_steady _ _) ?sub; (case sub => decide))
    | (intro _; try dsimp only)
    | (with_reducible apply Steady.fold ?_ (fun _ _ => ?_); all_goals try dsimp only)
    | with_reducible apply Steady.orElse (fun _ _ => ?_)

theorem nextStep_steady (s : State) (c : Nat) (sealedAt : Tick) : Steady [.ory, .smp, .fil, .stm, .lockets, .eph, .traffic, .integ, .hif, .std, .lan] s (nextStep s c sealedAt) := by
  unfold nextStep
  try dsimp only
  repeat' first
    | with_reducible apply Steady.refl
    | (with_reducible apply Steady.chain ?_ (startStep_steady _ _) ?sub; (case sub => decide))
    | (with_reducible apply Steady.chain ?_ (tryUrgent_steady _) ?sub; (case sub => decide))
    | (with_reducible apply Steady.chain ?_ (State.ctxM_steady _ _ _) ?sub; (case sub => decide))
    | (intro _; try dsimp only)
    | with_reducible apply Steady.ite
    | with_reducible apply Steady.orElse (fun _ _ => ?_)
    | split

theorem execStepBoundary_moves (s : State) : Moves [.ory, .ast, .smp, .fil, .stm, .lockets, .charms, .facets, .t1, .extents, .hbc, .cur, .bays, .eph, .traffic, .integ, .ckpt, .hif, .std, .lan] s (execStepBoundary s) := by
  unfold execStepBoundary
  try dsimp only
  repeat' first
    | with_reducible apply Steady.refl
    | (with_reducible apply Steady.chain ?_ (freeOrrery_steady _) ?sub; (case sub => decide))
    | (with_reducible apply Steady.chain ?_ (commitStep_steady _ _ _ _) ?sub; (case sub => decide))
    | (with_reducible apply Steady.chain ?_ (nextStep_steady _ _ _) ?sub; (case sub => decide))
    | (with_reducible apply Steady.chain ?_ (boundary_steady _ _) ?sub; (case sub => decide))
    | with_reducible apply clocked_moves
    | with_reducible apply when_moves
    | with_reducible apply Moves.next
    | (intro _; try dsimp only)
    | with_reducible apply Steady.orElse (fun _ _ => ?_)
    | split

theorem endRecompute_steady (s : State) (h : Nat) : Steady [.ast, .lockets, .charms] s (endRecompute s h) := by
  unfold endRecompute
  try dsimp only
  repeat' first
    | with_reducible apply Steady.refl
    | (with_reducible apply Steady.chain ?_ (releaseFrames_steady _ _ _) ?sub; (case sub => decide))
    | (with_reducible apply Steady.chain ?_ (State.locketM_steady _ _ _) ?sub; (case sub => decide))
    | (with_reducible apply Steady.chain ?_ (unpinReplicas_steady _ _) ?sub; (case sub => decide))
    | with_reducible apply Steady.ite
    | split

theorem execRecomputePassDone_moves (handle : Nat) (s : State) : Moves [.ast, .lockets, .charms] s (execRecomputePassDone handle s) := by
  unfold execRecomputePassDone
  try dsimp only
  repeat' first
    | with_reducible apply Steady.refl
    | (with_reducible apply Steady.chain ?_ (State.locketM_steady _ _ _) ?sub; (case sub => decide))
    | (with_reducible apply Steady.chain ?_ (endRecompute_steady _ _) ?sub; (case sub => decide))
    | with_reducible apply clocked_moves
    | with_reducible apply when_moves
    | with_reducible apply Moves.next
    | with_reducible apply Moves.ite
    | with_reducible apply Steady.ite
    | split

theorem endMove_steady (s : State) (h : Nat) (l' : Locket) (m : TierMove) : Steady [.ast, .lockets, .extents, .cur] s (endMove s h l' m) := by
  unfold endMove
  try dsimp only
  repeat' first
    | with_reducible apply Steady.refl
    | (with_reducible apply Steady.chain ?_ (vacateAll_steady _ _) ?sub; (case sub => decide))
    | (with_reducible apply Steady.chain ?_ (State.locketM_steady _ _ _) ?sub; (case sub => decide))
    | (with_reducible apply Steady.chain ?_ (State.astM_steady _ _) ?sub; (case sub => decide))
    | (with_reducible apply Steady.chain ?_ (spreadFrames_steady _ _ _ _ _ _) ?sub; (case sub => decide))
    | (with_reducible apply Steady.chain ?_ (beginRecompute_steady _ _ _ _ _) ?sub; (case sub => decide))
    | (intro _; try dsimp only)
    | with_reducible apply Steady.ite
    | (with_reducible apply Steady.fold ?_ (fun _ _ => ?_); all_goals try dsimp only)
    | (with_reducible apply Steady.foldPair ?_ (fun _ _ => ?_); all_goals try dsimp only)
    | with_reducible apply Steady.iteFirst
    | with_reducible apply Steady.orElse (fun _ _ => ?_)
    | (with_reducible apply Steady.first ?ee; (case ee => assumption))
    | split

theorem execStackMoveDone_moves (handle : Nat) (s : State) : Moves [.ory, .ast, .lockets, .charms, .extents, .cur, .bays, .eph, .integ, .hif] s (execStackMoveDone handle s) := by
  unfold execStackMoveDone
  try dsimp only
  repeat' first
    | with_reducible apply Steady.refl
    | (with_reducible apply Steady.chain ?_ ((consume_gives _ _).frame (by assumption)) ?sub; (case sub => decide))
    | (with_reducible apply Steady.chain ?_ (endMove_steady _ _ _ _) ?sub; (case sub => decide))
    | (with_reducible apply Steady.chain ?_ (withdrawJoin_steady _ _ _) ?sub; (case sub => decide))
    | with_reducible apply Moves.next
    | with_reducible apply Moves.ite
    | with_reducible apply Steady.ite
    | split

theorem execTlbInvalidate_moves (table : Option Nat) (s : State) : Moves [.ast] s (execTlbInvalidate table s) := by
  unfold execTlbInvalidate
  try dsimp only
  repeat' first
    | with_reducible apply Steady.refl
    | (with_reducible apply Steady.chain ?_ (State.astM_steady _ _) ?sub; (case sub => decide))
    | (with_reducible apply Steady.chain ?_ (tlbDropId_steady _ _) ?sub; (case sub => decide))
    | with_reducible apply when_moves
    | split

end Sys2Proof.Machine
end

