-- ==== Sys2Proof/Laws/Frames/Ephemeris.lean ====
section
/-!
SUPPORT. Sys2Proof/Laws/Frames/Ephemeris.lean: what each operation of Machine/Ephemeris.lean can change at most.
-/
namespace Sys2Proof.Machine

theorem loadTable_steady (image : List Byte) (s : State) (c : HCmd) : Steady [.eph, .hif] s (loadTable image s c) := by
  unfold loadTable
  try dsimp only
  repeat' first
    | with_reducible apply Steady.refl
    | (with_reducible apply Steady.chain ?_ (complete_steady _ _ _ _ _ _) ?sub; (case sub => decide))
    | (with_reducible apply Steady.chain ?_ (State.ephM_steady _ _) ?sub; (case sub => decide))
    | split

theorem execEphemerisLoad_moves (id : Nat) (image : List Byte) (s : State) : Moves [.eph, .hif, .std] s (execEphemerisLoad id image s) := by
  unfold execEphemerisLoad
  try dsimp only
  repeat' first
    | with_reducible apply Steady.refl
    | (with_reducible apply hostCmd_moves ?sub ?_; (case sub => decide))
    | (with_reducible apply Steady.chain ?_ (loadTable_steady _ _ _) ?sub; (case sub => decide))
    | (intro _; try dsimp only)

theorem execEphemerisSwitch_moves (id : Nat) (s : State) : Moves [.eph, .hif, .std] s (execEphemerisSwitch id s) := by
  unfold execEphemerisSwitch
  try dsimp only
  repeat' first
    | with_reducible apply Steady.refl
    | (with_reducible apply hostCmd_moves ?sub ?_; (case sub => decide))
    | (with_reducible apply Steady.chain ?_ (complete_steady _ _ _ _ _ _) ?sub; (case sub => decide))
    | (with_reducible apply Steady.chain ?_ (State.ephM_steady _ _) ?sub; (case sub => decide))
    | with_reducible apply Moves.ite
    | (intro _; try dsimp only)
    | with_reducible apply Steady.ite

theorem defineStart_steady (s : State) (c : HCmd) : Steady [.eph, .hif] s (defineStart s c) := by
  unfold defineStart
  try dsimp only
  repeat' first
    | with_reducible apply Steady.refl
    | (with_reducible apply Steady.chain ?_ (complete_steady _ _ _ _ _ _) ?sub; (case sub => decide))
    | (with_reducible apply Steady.chain ?_ (State.ephM_steady _ _) ?sub; (case sub => decide))
    | with_reducible apply Steady.ite
    | split

theorem execBatchDefine_moves (id : Nat) (s : State) : Moves [.eph, .hif, .std] s (execBatchDefine id s) := by
  unfold execBatchDefine
  try dsimp only
  repeat' first
    | with_reducible apply Steady.refl
    | (with_reducible apply hostCmd_moves ?sub ?_; (case sub => decide))
    | (with_reducible apply Steady.chain ?_ (defineStart_steady _ _) ?sub; (case sub => decide))
    | with_reducible apply Moves.next
    | with_reducible apply Moves.ite
    | (intro _; try dsimp only)
    | with_reducible apply Steady.ite

theorem execBatchRelease_moves (id : Nat) (s : State) : Moves [.eph, .hif, .std] s (execBatchRelease id s) := by
  unfold execBatchRelease
  try dsimp only
  repeat' first
    | with_reducible apply Steady.refl
    | (with_reducible apply hostCmd_moves ?sub ?_; (case sub => decide))
    | (with_reducible apply Steady.chain ?_ (complete_steady _ _ _ _ _ _) ?sub; (case sub => decide))
    | (with_reducible apply Steady.chain ?_ (State.ephM_steady _ _) ?sub; (case sub => decide))
    | with_reducible apply Moves.next
    | with_reducible apply Moves.ite
    | (intro _; try dsimp only)
    | with_reducible apply Steady.ite
    | split

theorem joinStart_steady (s : State) (c : HCmd) (h : Nat) (l' : Locket) : Steady [.ast, .lockets, .extents, .cur, .bays, .eph, .hif] s (joinStart s c h l') := by
  unfold joinStart
  try dsimp only
  repeat' first
    | with_reducible apply Steady.refl
    | (with_reducible apply Steady.chain ?_ (complete_steady _ _ _ _ _ _) ?sub; (case sub => decide))
    | (with_reducible apply Steady.chain ?_ (takePin_steady _ _ _) ?sub; (case sub => decide))
    | (with_reducible apply Steady.chain ?_ (stateRefuse_steady _ _ _) ?sub; (case sub => decide))
    | (with_reducible apply Steady.chain ?_ (lowater_steady _) ?sub; (case sub => decide))
    | (with_reducible apply Steady.chain ?_ (State.ctxM_steady _ _ _) ?sub; (case sub => decide))
    | with_reducible apply Steady.ite
    | split

theorem execBatchJoin_moves (id : Nat) (s : State) : Moves [.ast, .lockets, .extents, .cur, .bays, .eph, .hif, .std] s (execBatchJoin id s) := by
  unfold execBatchJoin
  try dsimp only
  repeat' first
    | with_reducible apply Steady.refl
    | (with_reducible apply sessionCmd_moves ?sub ?_; (case sub => decide))
    | (with_reducible apply Steady.chain ?_ (joinStart_steady _ _ _ _) ?sub; (case sub => decide))
    | (intro _; try dsimp only)

theorem leaveStart_steady (s : State) (c : HCmd) (h : Nat) (l' : Locket) : Steady [.ory, .ast, .lockets, .charms, .extents, .cur, .bays, .eph, .integ, .hif] s (leaveStart s c h l') := by
  unfold leaveStart
  try dsimp only
  repeat' first
    | with_reducible apply Steady.refl
    | (with_reducible apply Steady.chain ?_ (complete_steady _ _ _ _ _ _) ?sub; (case sub => decide))
    | (with_reducible apply Steady.chain ?_ (withdrawJoin_steady _ _ _) ?sub; (case sub => decide))
    | (with_reducible apply Steady.chain ?_ (State.ctxM_steady _ _ _) ?sub; (case sub => decide))
    | (with_reducible apply Steady.chain ?_ (stateRefuse_steady _ _ _) ?sub; (case sub => decide))
    | with_reducible apply Steady.ite
    | split

theorem execBatchLeave_moves (id : Nat) (s : State) : Moves [.ory, .ast, .lockets, .charms, .extents, .cur, .bays, .eph, .integ, .hif, .std] s (execBatchLeave id s) := by
  unfold execBatchLeave
  try dsimp only
  repeat' first
    | with_reducible apply Steady.refl
    | (with_reducible apply sessionCmd_moves ?sub ?_; (case sub => decide))
    | (with_reducible apply Steady.chain ?_ (leaveStart_steady _ _ _ _) ?sub; (case sub => decide))
    | (intro _; try dsimp only)

theorem beginSlot_steady (s : State) : Steady [.ory, .ast, .smp, .fil, .stm, .lockets, .charms, .extents, .cur, .bays, .eph, .integ, .hif, .std, .lan] s (beginSlot s) := by
  unfold beginSlot
  try dsimp only
  repeat' first
    | with_reducible apply Steady.refl
    | (with_reducible apply Steady.chain ?_ (State.ephM_steady _ _) ?sub; (case sub => decide))
    | (with_reducible apply Steady.chain ?_ (State.ctxM_steady _ _ _) ?sub; (case sub => decide))
    | (with_reducible apply Steady.chain ?_ (resumeStep_steady _ _) ?sub; (case sub => decide))
    | (with_reducible apply Steady.chain ?_ (boundary_steady _ _) ?sub; (case sub => decide))
    | (with_reducible apply Steady.chain ?_ (startStep_steady _ _) ?sub; (case sub => decide))
    | with_reducible apply Steady.ite
    | split

theorem openSlot_steady (s : State) (k : Nat) (start : Tick) : Steady [.ory, .ast, .smp, .fil, .stm, .lockets, .charms, .extents, .cur, .bays, .eph, .integ, .hif, .std, .lan] s (openSlot s k start) := by
  unfold openSlot
  try dsimp only
  repeat' first
    | with_reducible apply Steady.refl
    | (with_reducible apply Steady.chain ?_ (State.ephM_steady _ _) ?sub; (case sub => decide))
    | (with_reducible apply Steady.chain ?_ (beginSlot_steady _) ?sub; (case sub => decide))
    | with_reducible apply Steady.ite

theorem execSlotStart_moves (s : State) : Moves [.ory, .ast, .smp, .fil, .stm, .lockets, .charms, .extents, .cur, .bays, .eph, .integ, .hif, .std, .lan] s (execSlotStart s) := by
  unfold execSlotStart
  try dsimp only
  repeat' first
    | with_reducible apply Steady.refl
    | (with_reducible apply Steady.chain ?_ (openSlot_steady _ _ _) ?sub; (case sub => decide))
    | with_reducible apply Moves.next
    | with_reducible apply Moves.ite
    | with_reducible apply Steady.ite
    | split

theorem overrunStep_steady (s : State) (c : Nat) : Steady [.eph] s (overrunStep s c) := by
  unfold overrunStep
  try dsimp only
  repeat' first
    | with_reducible apply Steady.refl
    | (with_reducible apply Steady.chain ?_ (State.ephM_steady _ _) ?sub; (case sub => decide))
    | (with_reducible apply Steady.chain ?_ (ephEvent_steady _ _) ?sub; (case sub => decide))
    | (with_reducible apply Steady.chain ?_ (State.ctxM_steady _ _ _) ?sub; (case sub => decide))

theorem strayOverrun_steady (s : State) : Steady [.eph] s (strayOverrun s) := by
  unfold strayOverrun
  try dsimp only
  repeat' first
    | with_reducible apply Steady.refl
    | (with_reducible apply Steady.chain ?_ (State.ctxM_steady _ _ _) ?sub; (case sub => decide))
    | (intro _; try dsimp only)
    | with_reducible apply Steady.ite
    | with_reducible apply Steady.orElse (fun _ _ => ?_)
    | split

theorem execLeadPoint_moves (s : State) : Moves [.ory, .eph] s (execLeadPoint s) := by
  unfold execLeadPoint
  try dsimp only
  repeat' first
    | with_reducible apply Steady.refl
    | (with_reducible apply Steady.chain ?_ (State.ephM_steady _ _) ?sub; (case sub => decide))
    | (with_reducible apply Steady.chain ?_ (requestPreempt_steady _) ?sub; (case sub => decide))
    | (with_reducible apply Steady.chain ?_ (strayOverrun_steady _) ?sub; (case sub => decide))
    | (with_reducible apply Steady.chain ?_ (overrunStep_steady _ _) ?sub; (case sub => decide))
    | with_reducible apply when_moves
    | with_reducible apply Moves.next
    | with_reducible apply Moves.ite
    | (intro _; try dsimp only)
    | with_reducible apply Steady.ite
    | with_reducible apply Steady.orElse (fun _ _ => ?_)
    | split

theorem execJobDispatch_moves (s : State) : Moves [.ory, .ast, .smp, .fil, .stm, .lockets, .charms, .extents, .cur, .bays, .eph, .traffic, .colls, .sieves, .integ, .hif, .std, .lan] s (execJobDispatch s) := by
  unfold execJobDispatch
  try dsimp only
  repeat' first
    | with_reducible apply Steady.refl
    | (with_reducible apply Steady.chain ?_ (trimArea_steady _) ?sub; (case sub => decide))
    | (with_reducible apply Steady.chain ?_ (beginSlot_steady _) ?sub; (case sub => decide))
    | (with_reducible apply Steady.chain ?_ (dispatch_steady _) ?sub; (case sub => decide))
    | with_reducible apply when_moves
    | with_reducible apply Moves.ite
    | with_reducible apply Steady.ite

theorem execUrgentAllowance_moves (s : State) : Moves [.ory, .eph] s (execUrgentAllowance s) := by
  unfold execUrgentAllowance
  try dsimp only
  repeat' first
    | with_reducible apply Steady.refl
    | (with_reducible apply Steady.chain ?_ (requestPreempt_steady _) ?sub; (case sub => decide))
    | with_reducible apply when_moves
    | with_reducible apply Moves.next
    | split

theorem execBudgetReturn_moves (s : State) : Moves [.eph] s (execBudgetReturn s) := by
  unfold execBudgetReturn
  try dsimp only
  repeat' first
    | with_reducible apply Steady.refl
    | (with_reducible apply Steady.chain ?_ (State.ephM_steady _ _) ?sub; (case sub => decide))
    | with_reducible apply when_moves

theorem execAccountRead_moves (id : Nat) (s : State) : Moves [.extents, .cur, .eph, .hif, .std] s (execAccountRead id s) := by
  unfold execAccountRead
  try dsimp only
  repeat' first
    | with_reducible apply Steady.refl
    | (with_reducible apply hostCmd_moves ?sub ?_; (case sub => decide))
    | (with_reducible apply Steady.chain ?_ (complete_steady _ _ _ _ _ _) ?sub; (case sub => decide))
    | (with_reducible apply Steady.chain ?_ (State.ephM_steady _ _) ?sub; (case sub => decide))
    | (with_reducible apply Steady.chain ?_ (submitPut_steady _ _ _ _ _ _ _) ?sub; (case sub => decide))
    | with_reducible apply Moves.ite
    | (intro _; try dsimp only)
    | with_reducible apply Steady.ite
    | (with_reducible apply Steady.fold ?_ (fun _ _ => ?_); all_goals try dsimp only)

end Sys2Proof.Machine
end

