-- ==== Sys2Proof/Laws/Frames/Search.lean ====
section
/-!
SUPPORT. Sys2Proof/Laws/Frames/Search.lean: what each operation of Machine/Search.lean can change at most.
-/
namespace Sys2Proof.Machine

theorem State.collM_steady (s : State) (ci : Nat) (f : Coll → Coll) : Steady [.colls] s (State.collM s ci f) := by
  unfold State.collM
  try dsimp only
  repeat' first
    | with_reducible apply Steady.refl
    | (with_reducible apply Steady.update <;> first | with_reducible exact Or.inl rfl | (apply Or.inr; decide) | (exact Or.inr ⟨by decide, fun h => by simpa using h⟩) | skip)

theorem reapColl_steady (s : State) (ci : Nat) : Steady [.colls] s (reapColl s ci) := by
  unfold reapColl
  try dsimp only
  repeat' first
    | with_reducible apply Steady.refl
    | (with_reducible apply Steady.chain ?_ (State.collM_steady _ _ _) ?sub; (case sub => decide))

theorem freeUnits_steady (s : State) (p : SivUse → Bool) : Steady [.sieves] s (freeUnits s p) := by
  unfold freeUnits
  try dsimp only
  repeat' first
    | with_reducible apply Steady.refl
    | (intro _; try dsimp only)
    | with_reducible apply Steady.ite
    | with_reducible apply Steady.orElse (fun _ _ => ?_)
    | (with_reducible apply Steady.update <;> first | with_reducible exact Or.inl rfl | (apply Or.inr; decide) | (exact Or.inr ⟨by decide, fun h => by simpa using h⟩) | skip)

theorem dropSearch_steady (s : State) (id : Nat) : Steady [.ory, .eph, .searches, .sieves, .integ] s (dropSearch s id) := by
  unfold dropSearch
  try dsimp only
  repeat' first
    | with_reducible apply Steady.refl
    | (with_reducible apply Steady.chain ?_ (dropJobs_steady _ _) ?sub; (case sub => decide))
    | (with_reducible apply Steady.chain ?_ (freeUnits_steady _ _) ?sub; (case sub => decide))
    | split
    | (with_reducible apply Steady.update <;> first | with_reducible exact Or.inl rfl | (apply Or.inr; decide) | (exact Or.inr ⟨by decide, fun h => by simpa using h⟩) | skip)

theorem dropSelect_steady (s : State) (id : Nat) : Steady [.ory, .ast, .extents, .cur, .bays, .eph, .selects, .integ] s (dropSelect s id) := by
  unfold dropSelect
  try dsimp only
  repeat' first
    | with_reducible apply Steady.refl
    | (with_reducible apply Steady.chain ?_ (abandonFor_steady _ _) ?sub; (case sub => decide))
    | (with_reducible apply Steady.chain ?_ (dropJobs_steady _ _) ?sub; (case sub => decide))
    | (with_reducible apply Steady.chain ?_ (returnKeys_steady _ _) ?sub; (case sub => decide))
    | split
    | (with_reducible apply Steady.update <;> first | with_reducible exact Or.inl rfl | (apply Or.inr; decide) | (exact Or.inr ⟨by decide, fun h => by simpa using h⟩) | skip)

theorem dropMergeJob_steady (s : State) (ci : Nat) : Steady [.ory, .eph, .sieves, .integ] s (dropMergeJob s ci) := by
  unfold dropMergeJob
  try dsimp only
  repeat' first
    | with_reducible apply Steady.refl
    | (with_reducible apply Steady.chain ?_ (freeUnits_steady _ _) ?sub; (case sub => decide))
    | (with_reducible apply Steady.chain ?_ (dropJobs_steady _ _) ?sub; (case sub => decide))

theorem abandonMerge_steady (s : State) (ci : Nat) : Steady [.ory, .eph, .colls, .sieves, .integ] s (abandonMerge s ci) := by
  unfold abandonMerge
  try dsimp only
  repeat' first
    | with_reducible apply Steady.refl
    | (with_reducible apply Steady.chain ?_ (State.collM_steady _ _ _) ?sub; (case sub => decide))
    | (with_reducible apply Steady.chain ?_ (dropMergeJob_steady _ _) ?sub; (case sub => decide))
    | with_reducible apply Steady.ite

theorem repend_steady (s : State) (ci : Nat) : Steady [.ory, .eph, .colls, .sieves, .integ] s (repend s ci) := by
  unfold repend
  try dsimp only
  repeat' first
    | with_reducible apply Steady.refl
    | (with_reducible apply Steady.chain ?_ (State.collM_steady _ _ _) ?sub; (case sub => decide))
    | (with_reducible apply Steady.chain ?_ (dropMergeJob_steady _ _) ?sub; (case sub => decide))
    | (intro _; try dsimp only)
    | with_reducible apply Steady.ite

theorem consumeColl_steady (s : State) (station : Nat) (object : Nat) : Steady [.integ, .lan] s (consumeColl s station object) := by
  unfold consumeColl
  try dsimp only
  repeat' first
    | with_reducible apply Steady.refl
    | (with_reducible apply Steady.chain ?_ (logFault_steady _ _ _ _ _ _ _) ?sub; (case sub => decide))
    | (with_reducible apply Steady.chain ?_ (State.integM_steady _ _) ?sub; (case sub => decide))

theorem sivEvent_steady (s : State) (u : Nat) (b : Nat) : Steady [.sieves] s (sivEvent s u b) := by
  unfold sivEvent
  try dsimp only
  repeat' first
    | with_reducible apply Steady.refl
    | (with_reducible apply Steady.update <;> first | with_reducible exact Or.inl rfl | (apply Or.inr; decide) | (exact Or.inr ⟨by decide, fun h => by simpa using h⟩) | skip)

theorem breakColl_steady (s : State) (ci : Nat) (u : Nat) : Steady [.ory, .eph, .colls, .searches, .sieves, .integ, .hif, .lan] s (breakColl s ci u) := by
  unfold breakColl
  try dsimp only
  repeat' first
    | with_reducible apply Steady.refl
    | (with_reducible apply Steady.chain ?_ (completeId_steady _ _ _ _ _ _) ?sub; (case sub => decide))
    | (with_reducible apply Steady.chain ?_ (consumeColl_steady _ _ _) ?sub; (case sub => decide))
    | (with_reducible apply Steady.chain ?_ (dropSearch_steady _ _) ?sub; (case sub => decide))
    | (with_reducible apply Steady.chain ?_ (State.collM_steady _ _ _) ?sub; (case sub => decide))
    | (with_reducible apply Steady.chain ?_ (sivEvent_steady _ _ _) ?sub; (case sub => decide))
    | (with_reducible apply Steady.chain ?_ (abandonMerge_steady _ _) ?sub; (case sub => decide))
    | (intro _; try dsimp only)
    | (with_reducible apply Steady.fold ?_ (fun _ _ => ?_); all_goals try dsimp only)
    | split

theorem collCmd_steady {l : List Part} {s0 s : State} {c : HCmd} {f : State → Nat → Coll → State} (hm : ∀ p ∈ [Part.ory, Part.eph, Part.colls, Part.searches, Part.sieves, Part.integ, Part.hif, Part.lan], p ∈ l)
    (h0 : Steady l s0 s) (hk : ∀ t ci k, Steady l t (f t ci k)) : Steady l s0 (collCmd s c f) := by
  unfold collCmd
  have done : ∀ t st, Steady l t (complete t c st 0 0 0) := fun t st =>
    Steady.refl.chain (complete_steady _ _ _ _ _ _) (fun p q => hm p (by revert p; decide))
  refine h0.chain (m := l) ?_ (fun _ q => q)
  split
  · exact done _ _
  · rename_i ci k e
    dsimp only
    have u : Steady l s (if k.state != .broken && structTarnished s k then breakColl s ci 0 else reapColl s ci) :=
      Steady.ite (Steady.refl.chain (breakColl_steady _ _ _) (fun p q => hm p (by revert p; decide)))
        (Steady.refl.chain (reapColl_steady _ _) (fun p q => hm p (by revert p; decide)))
    split
    · exact u
    · refine Steady.ite ((u.chain (consumeColl_steady _ _ _) (fun p q => hm p (by revert p; decide))).chain (done _ _) (fun _ q => q)) (u.chain (hk _ _ _) (fun _ q => q))

theorem createWith_steady (c : HCmd) (k : Coll) (ci : Nat) (s : State) (x1 : Option (List Nat)) : Steady [.colls, .hif] s (createWith c k ci s x1) := by
  unfold createWith
  try dsimp only
  repeat' first
    | with_reducible apply Steady.refl
    | (with_reducible apply Steady.chain ?_ (complete_steady _ _ _ _ _ _) ?sub; (case sub => decide))
    | split
    | (with_reducible apply Steady.update <;> first | with_reducible exact Or.inl rfl | (apply Or.inr; decide) | (exact Or.inr ⟨by decide, fun h => by simpa using h⟩) | skip)

theorem createColl_steady (s : State) (c : HCmd) : Steady [.ast, .lockets, .colls, .hif] s (createColl s c) := by
  unfold createColl
  try dsimp only
  repeat' first
    | with_reducible apply Steady.refl
    | (with_reducible apply Steady.chain ?_ (complete_steady _ _ _ _ _ _) ?sub; (case sub => decide))
    | (with_reducible apply Steady.chain ?_ (takeSpread_steady _ _ _) ?sub; (case sub => decide))
    | (with_reducible apply Steady.chain ?_ (createWith_steady _ _ _ _ _) ?sub; (case sub => decide))
    | with_reducible apply Steady.ite
    | with_reducible apply Steady.iteFirst
    | (with_reducible apply Steady.first ?ee; (case ee => assumption))
    | split

theorem execCollectionCreate_moves (id : Nat) (s : State) : Moves [.ast, .lockets, .colls, .hif, .std] s (execCollectionCreate id s) := by
  unfold execCollectionCreate
  try dsimp only
  repeat' first
    | with_reducible apply Steady.refl
    | (with_reducible apply hostCmd_moves ?sub ?_; (case sub => decide))
    | (with_reducible apply Steady.chain ?_ (createColl_steady _ _) ?sub; (case sub => decide))
    | with_reducible apply Moves.next
    | with_reducible apply Moves.ite
    | (intro _; try dsimp only)
    | with_reducible apply Steady.ite

theorem execCollectionDestroy_moves (id : Nat) (s : State) : Moves [.ory, .ast, .eph, .colls, .sieves, .integ, .hif, .std] s (execCollectionDestroy id s) := by
  unfold execCollectionDestroy
  try dsimp only
  repeat' first
    | with_reducible apply Steady.refl
    | (with_reducible apply hostCmd_moves ?sub ?_; (case sub => decide))
    | (with_reducible apply Steady.chain ?_ (complete_steady _ _ _ _ _ _) ?sub; (case sub => decide))
    | (with_reducible apply Steady.chain ?_ (completeId_steady _ _ _ _ _ _) ?sub; (case sub => decide))
    | (with_reducible apply Steady.chain ?_ (abandonMerge_steady _ _) ?sub; (case sub => decide))
    | (with_reducible apply Steady.chain ?_ (returnSpread_steady _ _) ?sub; (case sub => decide))
    | with_reducible apply Moves.next
    | with_reducible apply Moves.ite
    | (intro _; try dsimp only)
    | with_reducible apply Steady.ite
    | split
    | (with_reducible apply Steady.update <;> first | with_reducible exact Or.inl rfl | (apply Or.inr; decide) | (exact Or.inr ⟨by decide, fun h => by simpa using h⟩) | skip)

theorem insertItem_steady (block : List Byte) (poison : List Nat) (s : State) (c : HCmd) (ci : Nat) (k : Coll) : Steady [.t1, .colls, .integ, .hif, .lan] s (insertItem block poison s c ci k) := by
  unfold insertItem
  try dsimp only
  repeat' first
    | with_reducible apply Steady.refl
    | (with_reducible apply Steady.chain ?_ (complete_steady _ _ _ _ _ _) ?sub; (case sub => decide))
    | (with_reducible apply Steady.chain ?_ (State.collM_steady _ _ _) ?sub; (case sub => decide))
    | (with_reducible apply Steady.chain ?_ (State.integM_steady _ _) ?sub; (case sub => decide))
    | (with_reducible apply Steady.chain ?_ (tarnishLines_steady _ _ _ _) ?sub; (case sub => decide))
    | with_reducible apply Steady.ite
    | with_reducible apply Steady.iteFirst
    | split

theorem execItemInsert_moves (id : Nat) (block : List Byte) (poison : List Nat) (s : State) : Moves [.ory, .t1, .eph, .colls, .searches, .sieves, .integ, .hif, .std, .lan] s (execItemInsert id block poison s) := by
  unfold execItemInsert
  try dsimp only
  repeat' first
    | with_reducible apply Steady.refl
    | (with_reducible apply hostCmd_moves ?sub ?_; (case sub => decide))
    | (with_reducible apply collCmd_steady ?sub ?_ ?_; (case sub => decide))
    | (with_reducible apply Steady.chain ?_ (insertItem_steady _ _ _ _ _ _) ?sub; (case sub => decide))
    | (with_reducible apply Steady.chain ?_ (hostFetch_steady _ _ _) ?sub; (case sub => decide))
    | (intro _; try dsimp only)

theorem execItemDelete_moves (id : Nat) (s : State) : Moves [.ory, .eph, .colls, .searches, .sieves, .integ, .hif, .std, .lan] s (execItemDelete id s) := by
  unfold execItemDelete
  try dsimp only
  repeat' first
    | with_reducible apply Steady.refl
    | (with_reducible apply hostCmd_moves ?sub ?_; (case sub => decide))
    | (with_reducible apply collCmd_steady ?sub ?_ ?_; (case sub => decide))
    | (with_reducible apply Steady.chain ?_ (complete_steady _ _ _ _ _ _) ?sub; (case sub => decide))
    | (with_reducible apply Steady.chain ?_ (State.collM_steady _ _ _) ?sub; (case sub => decide))
    | with_reducible apply Moves.ite
    | (intro _; try dsimp only)
    | with_reducible apply Steady.ite
    | split

theorem execCollectionMerge_moves (id : Nat) (s : State) : Moves [.ory, .eph, .colls, .searches, .sieves, .integ, .hif, .std, .lan] s (execCollectionMerge id s) := by
  unfold execCollectionMerge
  try dsimp only
  repeat' first
    | with_reducible apply Steady.refl
    | (with_reducible apply hostCmd_moves ?sub ?_; (case sub => decide))
    | (with_reducible apply collCmd_steady ?sub ?_ ?_; (case sub => decide))
    | (with_reducible apply Steady.chain ?_ (complete_steady _ _ _ _ _ _) ?sub; (case sub => decide))
    | (with_reducible apply Steady.chain ?_ (State.collM_steady _ _ _) ?sub; (case sub => decide))
    | with_reducible apply Moves.ite
    | (intro _; try dsimp only)
    | with_reducible apply Steady.ite

theorem execMergeStart_moves (coll : Nat) (s : State) : Moves [.colls, .hif] s (execMergeStart coll s) := by
  unfold execMergeStart
  try dsimp only
  repeat' first
    | with_reducible apply Steady.refl
    | (with_reducible apply Steady.chain ?_ (reapColl_steady _ _) ?sub; (case sub => decide))
    | (with_reducible apply Steady.chain ?_ (State.collM_steady _ _ _) ?sub; (case sub => decide))
    | (with_reducible apply Steady.chain ?_ (completeId_steady _ _ _ _ _ _) ?sub; (case sub => decide))
    | with_reducible apply when_moves
    | with_reducible apply Moves.next
    | with_reducible apply Moves.ite
    | with_reducible apply Steady.ite
    | split

theorem execMergePublish_moves (coll : Nat) (s : State) : Moves [.colls, .hif] s (execMergePublish coll s) := by
  unfold execMergePublish
  try dsimp only
  repeat' first
    | with_reducible apply Steady.refl
    | (with_reducible apply Steady.chain ?_ (State.collM_steady _ _ _) ?sub; (case sub => decide))
    | (with_reducible apply Steady.chain ?_ (reapColl_steady _ _) ?sub; (case sub => decide))
    | (with_reducible apply Steady.chain ?_ (completeId_steady _ _ _ _ _ _) ?sub; (case sub => decide))
    | with_reducible apply when_moves
    | with_reducible apply Moves.next
    | split

theorem endMergeStep_steady (s : State) (ci : Nat) : Steady [.ory, .eph, .colls, .searches, .sieves, .integ, .hif, .lan] s (endMergeStep s ci) := by
  unfold endMergeStep
  try dsimp only
  repeat' first
    | with_reducible apply Steady.refl
    | (with_reducible apply Steady.chain ?_ (freeUnits_steady _ _) ?sub; (case sub => decide))
    | (with_reducible apply Steady.chain ?_ (breakColl_steady _ _ _) ?sub; (case sub => decide))
    | (with_reducible apply Steady.chain ?_ (sivEvent_steady _ _ _) ?sub; (case sub => decide))
    | (with_reducible apply Steady.chain ?_ (consumeColl_steady _ _ _) ?sub; (case sub => decide))
    | (with_reducible apply Steady.chain ?_ (abandonMerge_steady _ _) ?sub; (case sub => decide))
    | (with_reducible apply Steady.chain ?_ (completeId_steady _ _ _ _ _ _) ?sub; (case sub => decide))
    | (with_reducible apply Steady.chain ?_ (State.collM_steady _ _ _) ?sub; (case sub => decide))
    | (intro _; try dsimp only)
    | with_reducible apply Steady.ite
    | with_reducible apply Steady.orElse (fun _ _ => ?_)
    | split

theorem startSearch_steady (query : List Byte) (s : State) (c : HCmd) (ci : Nat) (k : Coll) : Steady [.colls, .searches] s (startSearch query s c ci k) := by
  unfold startSearch
  try dsimp only
  repeat' first
    | with_reducible apply Steady.refl
    | (with_reducible apply Steady.chain ?_ (State.collM_steady _ _ _) ?sub; (case sub => decide))
    | (with_reducible apply Steady.update <;> first | with_reducible exact Or.inl rfl | (apply Or.inr; decide) | (exact Or.inr ⟨by decide, fun h => by simpa using h⟩) | skip)

theorem execSearch_moves (id : Nat) (query : List Byte) (poison : List Nat) (s : State) : Moves [.ory, .eph, .colls, .searches, .sieves, .integ, .hif, .std, .lan] s (execSearch id query poison s) := by
  unfold execSearch
  try dsimp only
  repeat' first
    | with_reducible apply Steady.refl
    | (with_reducible apply hostCmd_moves ?sub ?_; (case sub => decide))
    | (with_reducible apply Steady.chain ?_ (complete_steady _ _ _ _ _ _) ?sub; (case sub => decide))
    | (with_reducible apply collCmd_steady ?sub ?_ ?_; (case sub => decide))
    | (with_reducible apply Steady.chain ?_ (hostFetch_steady _ _ _) ?sub; (case sub => decide))
    | (with_reducible apply Steady.chain ?_ (consumeColl_steady _ _ _) ?sub; (case sub => decide))
    | (with_reducible apply Steady.chain ?_ (startSearch_steady _ _ _ _ _) ?sub; (case sub => decide))
    | with_reducible apply Moves.ite
    | (intro _; try dsimp only)
    | with_reducible apply Steady.ite

theorem execWalkStart_moves (unit : Nat) (s : State) : Moves [.searches, .sieves] s (execWalkStart unit s) := by
  unfold execWalkStart
  try dsimp only
  repeat' first
    | with_reducible apply Steady.refl
    | with_reducible apply formed_moves
    | with_reducible apply when_moves
    | with_reducible apply Moves.next
    | with_reducible apply Moves.ite
    | with_reducible apply Steady.ite
    | split
    | (with_reducible apply Steady.update <;> first | with_reducible exact Or.inl rfl | (apply Or.inr; decide) | (exact Or.inr ⟨by decide, fun h => by simpa using h⟩) | skip)

theorem endSearch_steady (s : State) (q : Search) : Steady [.ory, .extents, .cur, .eph, .searches, .sieves, .integ, .hif, .lan] s (endSearch s q) := by
  unfold endSearch
  try dsimp only
  repeat' first
    | with_reducible apply Steady.refl
    | (with_reducible apply Steady.chain ?_ (complete_steady _ _ _ _ _ _) ?sub; (case sub => decide))
    | (with_reducible apply Steady.chain ?_ (sivEvent_steady _ _ _) ?sub; (case sub => decide))
    | (with_reducible apply Steady.chain ?_ (consumeColl_steady _ _ _) ?sub; (case sub => decide))
    | (with_reducible apply Steady.chain ?_ (dropSearch_steady _ _) ?sub; (case sub => decide))
    | (with_reducible apply Steady.chain ?_ (submitPut_steady _ _ _ _ _ _ _) ?sub; (case sub => decide))
    | with_reducible apply Steady.ite
    | with_reducible apply Steady.iteFirst
    | split
    | (with_reducible apply Steady.update <;> first | with_reducible exact Or.inl rfl | (apply Or.inr; decide) | (exact Or.inr ⟨by decide, fun h => by simpa using h⟩) | skip)

theorem execWalkDone_moves (unit : Nat) (s : State) : Moves [.ory, .extents, .cur, .eph, .colls, .searches, .sieves, .integ, .hif, .lan] s (execWalkDone unit s) := by
  unfold execWalkDone
  try dsimp only
  repeat' first
    | with_reducible apply Steady.refl
    | (with_reducible apply Steady.chain ?_ (sivEvent_steady _ _ _) ?sub; (case sub => decide))
    | (with_reducible apply Steady.chain ?_ (breakColl_steady _ _ _) ?sub; (case sub => decide))
    | (with_reducible apply Steady.chain ?_ (completeId_steady _ _ _ _ _ _) ?sub; (case sub => decide))
    | (with_reducible apply Steady.chain ?_ (consumeColl_steady _ _ _) ?sub; (case sub => decide))
    | (with_reducible apply Steady.chain ?_ (dropSearch_steady _ _) ?sub; (case sub => decide))
    | (with_reducible apply Steady.chain ?_ (endSearch_steady _ _) ?sub; (case sub => decide))
    | with_reducible apply formed_moves
    | with_reducible apply clocked_moves
    | with_reducible apply Moves.next
    | with_reducible apply Moves.ite
    | with_reducible apply Steady.ite
    | split
    | (with_reducible apply Steady.update <;> first | with_reducible exact Or.inl rfl | (apply Or.inr; decide) | (exact Or.inr ⟨by decide, fun h => by simpa using h⟩) | skip)

theorem selectWith_steady (c : HCmd) (s : State) (x1 : Option (List Nat)) : Steady [.extents, .cur, .selects, .hif] s (selectWith c s x1) := by
  unfold selectWith
  try dsimp only
  repeat' first
    | with_reducible apply Steady.refl
    | (with_reducible apply Steady.chain ?_ (complete_steady _ _ _ _ _ _) ?sub; (case sub => decide))
    | (with_reducible apply Steady.chain ?_ (submit_steady _ _) ?sub; (case sub => decide))
    | split
    | (with_reducible apply Steady.update <;> first | with_reducible exact Or.inl rfl | (apply Or.inr; decide) | (exact Or.inr ⟨by decide, fun h => by simpa using h⟩) | skip)

theorem selectStart_steady (s : State) (c : HCmd) : Steady [.ast, .lockets, .extents, .cur, .selects, .hif] s (selectStart s c) := by
  unfold selectStart
  try dsimp only
  repeat' first
    | with_reducible apply Steady.refl
    | (with_reducible apply Steady.chain ?_ (complete_steady _ _ _ _ _ _) ?sub; (case sub => decide))
    | (with_reducible apply Steady.chain ?_ (takeAny_steady _ _ _) ?sub; (case sub => decide))
    | (with_reducible apply Steady.chain ?_ (selectWith_steady _ _ _) ?sub; (case sub => decide))
    | with_reducible apply Steady.ite
    | with_reducible apply Steady.iteFirst

theorem execSelect_moves (id : Nat) (s : State) : Moves [.ast, .lockets, .extents, .cur, .selects, .hif, .std] s (execSelect id s) := by
  unfold execSelect
  try dsimp only
  repeat' first
    | with_reducible apply Steady.refl
    | (with_reducible apply hostCmd_moves ?sub ?_; (case sub => decide))
    | (with_reducible apply Steady.chain ?_ (selectStart_steady _ _) ?sub; (case sub => decide))
    | (intro _; try dsimp only)

theorem execSelectFetchDone_moves (id : Nat) (data : List Byte) (poison : List Nat) (s : State) : Moves [.ory, .ast, .extents, .cur, .bays, .eph, .selects, .integ, .hif] s (execSelectFetchDone id data poison s) := by
  unfold execSelectFetchDone
  try dsimp only
  repeat' first
    | with_reducible apply Steady.refl
    | (with_reducible apply Steady.chain ?_ ((consume_gives _ _).frame (by assumption)) ?sub; (case sub => decide))
    | (with_reducible apply Steady.chain ?_ (completeId_steady _ _ _ _ _ _) ?sub; (case sub => decide))
    | (with_reducible apply Steady.chain ?_ (dropSelect_steady _ _) ?sub; (case sub => decide))
    | with_reducible apply Moves.next
    | with_reducible apply Moves.ite
    | with_reducible apply Steady.ite
    | split
    | (with_reducible apply Steady.update <;> first | with_reducible exact Or.inl rfl | (apply Or.inr; decide) | (exact Or.inr ⟨by decide, fun h => by simpa using h⟩) | skip)

theorem endSelect_steady (s : State) (q : Select) : Steady [.ory, .ast, .extents, .cur, .bays, .eph, .selects, .integ, .hif, .lan] s (endSelect s q) := by
  unfold endSelect
  try dsimp only
  repeat' first
    | with_reducible apply Steady.refl
    | (with_reducible apply Steady.chain ?_ (dropSelect_steady _ _) ?sub; (case sub => decide))
    | (with_reducible apply Steady.chain ?_ (submitPut_steady _ _ _ _ _ _ _) ?sub; (case sub => decide))
    | (with_reducible apply Steady.chain ?_ (complete_steady _ _ _ _ _ _) ?sub; (case sub => decide))
    | (with_reducible apply Steady.chain ?_ (consumeColl_steady _ _ _) ?sub; (case sub => decide))
    | split

end Sys2Proof.Machine
end

