-- ==== Sys2Proof/Laws/Frames/Cells.lean ====
section
/-!
SUPPORT. Sys2Proof/Laws/Frames/Cells.lean: what each operation of Machine/Cells.lean can change at most.
-/
namespace Sys2Proof.Machine

theorem State.lpeM_steady (s : State) (f : Lpe → Lpe) : Steady [.lpe] s (State.lpeM s f) := by
  unfold State.lpeM
  try dsimp only
  repeat' first
    | with_reducible apply Steady.refl
    | (with_reducible apply Steady.update <;> first | with_reducible exact Or.inl rfl | (apply Or.inr; decide) | (exact Or.inr ⟨by decide, fun h => by simpa using h⟩) | skip)

theorem State.cellM_steady (s : State) (p : Nat) (f : Cell → Cell) : Steady [.cells] s (State.cellM s p f) := by
  unfold State.cellM
  try dsimp only
  repeat' first
    | with_reducible apply Steady.refl
    | (with_reducible apply Steady.update <;> first | with_reducible exact Or.inl rfl | (apply Or.inr; decide) | (exact Or.inr ⟨by decide, fun h => by simpa using h⟩) | skip)

theorem execBistStart_moves (s : State) : Moves [.lpe] s (execBistStart s) := by
  unfold execBistStart
  try dsimp only
  repeat' first
    | with_reducible apply Steady.refl
    | (with_reducible apply Steady.chain ?_ (State.lpeM_steady _ _) ?sub; (case sub => decide))
    | with_reducible apply when_moves

theorem buildMap_steady (s : State) : Steady [.cells, .lpe] s (buildMap s) := by
  unfold buildMap
  try dsimp only
  repeat' first
    | with_reducible apply Steady.refl
    | (with_reducible apply Steady.chain ?_ (State.cellM_steady _ _ _) ?sub; (case sub => decide))
    | (with_reducible apply Steady.chain ?_ (State.lpeM_steady _ _) ?sub; (case sub => decide))
    | with_reducible apply Steady.ite
    | (with_reducible apply Steady.fold ?_ (fun _ _ => ?_); all_goals try dsimp only)
    | (with_reducible apply Steady.foldPair ?_ (fun _ _ => ?_); all_goals try dsimp only)
    | with_reducible apply Steady.iteFirst
    | (with_reducible apply Steady.update <;> first | with_reducible exact Or.inl rfl | (apply Or.inr; decide) | (exact Or.inr ⟨by decide, fun h => by simpa using h⟩) | skip)

theorem execBistDone_moves (results : List (Bool × Bool × Bool)) (s : State) : Moves [.cells, .lpe] s (execBistDone results s) := by
  unfold execBistDone
  try dsimp only
  repeat' first
    | with_reducible apply Steady.refl
    | (with_reducible apply Steady.chain ?_ (buildMap_steady _) ?sub; (case sub => decide))
    | (with_reducible apply Steady.chain ?_ (State.lpeM_steady _ _) ?sub; (case sub => decide))
    | with_reducible apply formed_moves
    | with_reducible apply clocked_moves
    | with_reducible apply when_moves
    | with_reducible apply Moves.ite
    | with_reducible apply Steady.ite
    | with_reducible apply Steady.iteFirst
    | (with_reducible apply Steady.update <;> first | with_reducible exact Or.inl rfl | (apply Or.inr; decide) | (exact Or.inr ⟨by decide, fun h => by simpa using h⟩) | skip)

theorem execSpareRetest_moves (pass : List Bool) (s : State) : Moves [.cells, .lpe] s (execSpareRetest pass s) := by
  unfold execSpareRetest
  try dsimp only
  repeat' first
    | with_reducible apply Steady.refl
    | (with_reducible apply Steady.chain ?_ (State.lpeM_steady _ _) ?sub; (case sub => decide))
    | with_reducible apply formed_moves
    | with_reducible apply when_moves
    | with_reducible apply Moves.ite
    | with_reducible apply Steady.ite
    | with_reducible apply Steady.iteFirst
    | (with_reducible apply Steady.update <;> first | with_reducible exact Or.inl rfl | (apply Or.inr; decide) | (exact Or.inr ⟨by decide, fun h => by simpa using h⟩) | skip)

theorem execMeshMessageReceive_moves (cell : Nat) (epoch : Nat) (s : State) : Moves [.integ, .lan] s (execMeshMessageReceive cell epoch s) := by
  unfold execMeshMessageReceive
  try dsimp only
  repeat' first
    | with_reducible apply Steady.refl
    | (with_reducible apply Steady.chain ?_ (logFault_steady _ _ _ _ _ _ _) ?sub; (case sub => decide))
    | (with_reducible apply Steady.chain ?_ (intEvent_steady _ _) ?sub; (case sub => decide))
    | (with_reducible apply Steady.chain ?_ (State.integM_steady _ _) ?sub; (case sub => decide))
    | with_reducible apply formed_moves
    | with_reducible apply clocked_moves
    | with_reducible apply when_moves

theorem unpinCmd_steady (s : State) (id : Nat) : Steady [.lockets] s (unpinCmd s id) := by
  unfold unpinCmd
  try dsimp only
  repeat' first
    | with_reducible apply Steady.refl
    | (with_reducible apply Steady.update <;> first | with_reducible exact Or.inl rfl | (apply Or.inr; decide) | (exact Or.inr ⟨by decide, fun h => by simpa using h⟩) | skip)

theorem dropCharm_steady (s : State) (ci : Nat) : Steady [.ast, .charms, .extents, .cur, .bays, .ckpt] s (dropCharm s ci) := by
  unfold dropCharm
  try dsimp only
  repeat' first
    | with_reducible apply Steady.refl
    | (with_reducible apply Steady.chain ?_ (freeCharm_steady _ _) ?sub; (case sub => decide))
    | (with_reducible apply Steady.chain ?_ (failReplicas_steady _ _) ?sub; (case sub => decide))

theorem dropOpening_steady (s : State) (h : Nat) (id : Nat) : Steady [.ast, .lockets, .charms, .extents, .cur, .bays, .eph, .ckpt] s (dropOpening s h id) := by
  unfold dropOpening
  try dsimp only
  repeat' first
    | with_reducible apply Steady.refl
    | (with_reducible apply Steady.chain ?_ (dropLocket_steady _ _) ?sub; (case sub => decide))
    | (with_reducible apply Steady.chain ?_ (unpinReplicas_steady _ _) ?sub; (case sub => decide))
    | (with_reducible apply Steady.chain ?_ (abandonFor_steady _ _) ?sub; (case sub => decide))

theorem releaseCmd_steady (st : Nat) (s : State) (c : HCmd) : Steady [.ory, .parures, .ast, .lockets, .charms, .extents, .cur, .bays, .eph, .colls, .searches, .selects, .sieves, .integ, .ckpt, .hif] s (releaseCmd st s c) := by
  unfold releaseCmd
  try dsimp only
  repeat' first
    | with_reducible apply Steady.refl
    | (with_reducible apply Steady.chain ?_ (abandonFor_steady _ _) ?sub; (case sub => decide))
    | (with_reducible apply Steady.chain ?_ (dropOpening_steady _ _ _) ?sub; (case sub => decide))
    | (with_reducible apply Steady.chain ?_ (abandonDemotion_steady _ _ _) ?sub; (case sub => decide))
    | (with_reducible apply Steady.chain ?_ (undoPromotion_steady _ _) ?sub; (case sub => decide))
    | (with_reducible apply Steady.chain ?_ (abandonRecompute_steady _ _) ?sub; (case sub => decide))
    | (with_reducible apply Steady.chain ?_ (dropCharm_steady _ _) ?sub; (case sub => decide))
    | (with_reducible apply Steady.chain ?_ (withdrawJoin_steady _ _ _) ?sub; (case sub => decide))
    | (with_reducible apply Steady.chain ?_ (State.ephM_steady _ _) ?sub; (case sub => decide))
    | (with_reducible apply Steady.chain ?_ (dropSearch_steady _ _) ?sub; (case sub => decide))
    | (with_reducible apply Steady.chain ?_ (dropSelect_steady _ _) ?sub; (case sub => decide))
    | (with_reducible apply Steady.chain ?_ (State.ckptM_steady _ _) ?sub; (case sub => decide))
    | (with_reducible apply Steady.chain ?_ (State.curM_steady _ _) ?sub; (case sub => decide))
    | (intro _; try dsimp only)
    | with_reducible apply Steady.ite
    | (with_reducible apply Steady.fold ?_ (fun _ _ => ?_); all_goals try dsimp only)
    | (with_reducible apply Steady.foldPair ?_ (fun _ _ => ?_); all_goals try dsimp only)
    | with_reducible apply Steady.iteFirst
    | split
    | (with_reducible apply Steady.update <;> first | with_reducible exact Or.inl rfl | (apply Or.inr; decide) | (exact Or.inr ⟨by decide, fun h => by simpa using h⟩) | skip)

theorem endCmd_steady (st : Nat) (s : State) (c : HCmd) : Steady [.ory, .parures, .ast, .lockets, .charms, .extents, .cur, .bays, .eph, .colls, .searches, .selects, .sieves, .integ, .ckpt, .hif] s (endCmd st s c) := by
  unfold endCmd
  try dsimp only
  repeat' first
    | with_reducible apply Steady.refl
    | (with_reducible apply Steady.chain ?_ (releaseCmd_steady _ _ _) ?sub; (case sub => decide))
    | (with_reducible apply Steady.chain ?_ (State.ephM_steady _ _) ?sub; (case sub => decide))
    | (with_reducible apply Steady.chain ?_ (completeId_steady _ _ _ _ _ _) ?sub; (case sub => decide))
    | (with_reducible apply Steady.chain ?_ (unpinCmd_steady _ _) ?sub; (case sub => decide))
    | (intro _; try dsimp only)
    | with_reducible apply Steady.ite
    | with_reducible apply Steady.iteFirst
    | (with_reducible apply Steady.update <;> first | with_reducible exact Or.inl rfl | (apply Or.inr; decide) | (exact Or.inr ⟨by decide, fun h => by simpa using h⟩) | skip)

theorem fenceAll_steady (s : State) : Steady [.ory, .parures, .ast, .lockets, .charms, .extents, .cur, .bays, .eph, .colls, .searches, .selects, .sieves, .integ, .ckpt, .hif] s (fenceAll s) := by
  unfold fenceAll
  try dsimp only
  repeat' first
    | with_reducible apply Steady.refl
    | (with_reducible apply Steady.chain ?_ (endCmd_steady _ _ _) ?sub; (case sub => decide))
    | (with_reducible apply Steady.fold ?_ (fun _ _ => ?_); all_goals try dsimp only)

theorem fenceOrrery_steady (s : State) : Steady [.ory, .parures, .ast, .lockets, .charms, .extents, .cur, .bays, .eph, .colls, .searches, .selects, .sieves, .integ, .ckpt, .hif] s (fenceOrrery s) := by
  unfold fenceOrrery
  try dsimp only
  repeat' first
    | with_reducible apply Steady.refl
    | (with_reducible apply Steady.chain ?_ (endCmd_steady _ _ _) ?sub; (case sub => decide))
    | (with_reducible apply Steady.fold ?_ (fun _ _ => ?_); all_goals try dsimp only)

theorem stopIssue_steady (s : State) : Steady [.ory] s (stopIssue s) := by
  unfold stopIssue
  try dsimp only
  repeat' first
    | with_reducible apply Steady.refl
    | (with_reducible apply Steady.chain ?_ (State.oryM_steady _ _) ?sub; (case sub => decide))

theorem deviceFault_steady (s : State) (detail : Nat) : Steady [.ory, .parures, .ast, .lockets, .charms, .extents, .cur, .bays, .eph, .colls, .searches, .selects, .sieves, .integ, .ckpt, .hif, .lan] s (deviceFault s detail) := by
  unfold deviceFault
  try dsimp only
  repeat' first
    | with_reducible apply Steady.refl
    | (with_reducible apply Steady.chain ?_ (stopIssue_steady _) ?sub; (case sub => decide))
    | (with_reducible apply Steady.chain ?_ (State.integM_steady _ _) ?sub; (case sub => decide))
    | (with_reducible apply Steady.chain ?_ (fenceOrrery_steady _) ?sub; (case sub => decide))
    | (with_reducible apply Steady.chain ?_ (logFault_steady _ _ _ _ _ _ _) ?sub; (case sub => decide))
    | (with_reducible apply Steady.chain ?_ (intEvent_steady _ _) ?sub; (case sub => decide))

theorem exhausted_steady (s : State) : Steady [.ory, .lpe, .parures, .ast, .lockets, .charms, .extents, .cur, .bays, .eph, .colls, .searches, .selects, .sieves, .integ, .ckpt, .hif, .lan] s (exhausted s) := by
  unfold exhausted
  try dsimp only
  repeat' first
    | with_reducible apply Steady.refl
    | (with_reducible apply Steady.chain ?_ (stopIssue_steady _) ?sub; (case sub => decide))
    | (with_reducible apply Steady.chain ?_ (State.integM_steady _ _) ?sub; (case sub => decide))
    | (with_reducible apply Steady.chain ?_ (State.lpeM_steady _ _) ?sub; (case sub => decide))
    | (with_reducible apply Steady.chain ?_ (fenceOrrery_steady _) ?sub; (case sub => decide))
    | (with_reducible apply Steady.chain ?_ (logFault_steady _ _ _ _ _ _ _) ?sub; (case sub => decide))

theorem retire_steady (s : State) (p : Nat) (detail : Nat) : Steady [.cells, .lpe, .integ, .lan] s (retire s p detail) := by
  unfold retire
  try dsimp only
  repeat' first
    | with_reducible apply Steady.refl
    | (with_reducible apply Steady.chain ?_ (State.cellM_steady _ _ _) ?sub; (case sub => decide))
    | (with_reducible apply Steady.chain ?_ (State.lanM_steady _ _) ?sub; (case sub => decide))
    | (with_reducible apply Steady.chain ?_ (State.lpeM_steady _ _) ?sub; (case sub => decide))
    | (with_reducible apply Steady.chain ?_ (logFault_steady _ _ _ _ _ _ _) ?sub; (case sub => decide))
    | (with_reducible apply Steady.chain ?_ (intEvent_steady _ _) ?sub; (case sub => decide))
    | (with_reducible apply Steady.chain ?_ (State.integM_steady _ _) ?sub; (case sub => decide))

theorem countTransient_steady (s : State) (p : Nat) (ord : Nat) : Steady [.cells, .integ, .lan] s (countTransient s p ord) := by
  unfold countTransient
  try dsimp only
  repeat' first
    | with_reducible apply Steady.refl
    | (with_reducible apply Steady.chain ?_ (State.cellM_steady _ _ _) ?sub; (case sub => decide))
    | (with_reducible apply Steady.chain ?_ (logFault_steady _ _ _ _ _ _ _) ?sub; (case sub => decide))
    | (with_reducible apply Steady.chain ?_ (intEvent_steady _ _) ?sub; (case sub => decide))
    | (with_reducible apply Steady.chain ?_ (State.integM_steady _ _) ?sub; (case sub => decide))
    | with_reducible apply Steady.ite

theorem startFence_steady (s : State) (m : MapChange) : Steady [.lpe, .integ] s (startFence s m) := by
  unfold startFence
  try dsimp only
  repeat' first
    | with_reducible apply Steady.refl
    | (with_reducible apply Steady.chain ?_ (State.lpeM_steady _ _) ?sub; (case sub => decide))
    | (with_reducible apply Steady.chain ?_ (State.integM_steady _ _) ?sub; (case sub => decide))

theorem newEpoch_steady (s : State) : Steady [.cells, .lpe] s (newEpoch s) := by
  unfold newEpoch
  try dsimp only
  repeat' first
    | with_reducible apply Steady.refl
    | (with_reducible apply Steady.chain ?_ (State.lpeM_steady _ _) ?sub; (case sub => decide))
    | with_reducible apply Steady.ite
    | (with_reducible apply Steady.update <;> first | with_reducible exact Or.inl rfl | (apply Or.inr; decide) | (exact Or.inr ⟨by decide, fun h => by simpa using h⟩) | skip)

theorem substituteCell_steady (s : State) (l' : Nat) (out : Nat) (spare : Nat) : Steady [.cells, .lpe, .integ, .lan] s (substituteCell s l' out spare) := by
  unfold substituteCell
  try dsimp only
  repeat' first
    | with_reducible apply Steady.refl
    | (with_reducible apply Steady.chain ?_ (State.cellM_steady _ _ _) ?sub; (case sub => decide))
    | (with_reducible apply Steady.chain ?_ (State.lpeM_steady _ _) ?sub; (case sub => decide))
    | (with_reducible apply Steady.chain ?_ (logFault_steady _ _ _ _ _ _ _) ?sub; (case sub => decide))

theorem noteSpares_steady (s : State) (c : Nat) : Steady [.integ, .lan] s (noteSpares s c) := by
  unfold noteSpares
  try dsimp only
  repeat' first
    | with_reducible apply Steady.refl
    | (with_reducible apply Steady.chain ?_ (logFault_steady _ _ _ _ _ _ _) ?sub; (case sub => decide))
    | (with_reducible apply Steady.chain ?_ (intEvent_steady _ _) ?sub; (case sub => decide))
    | with_reducible apply Steady.ite

theorem refetchBoth_steady (s : State) : Steady [.ory] s (refetchBoth s) := by
  unfold refetchBoth
  try dsimp only
  repeat' first
    | with_reducible apply Steady.refl
    | (with_reducible apply Steady.chain ?_ (State.oryM_steady _ _) ?sub; (case sub => decide))
    | (intro _; try dsimp only)

theorem copyLost_steady (s : State) (l' : Nat) (lost : List Nat) : Steady [.ory] s (copyLost s l' lost) := by
  unfold copyLost
  try dsimp only
  repeat' first
    | with_reducible apply Steady.refl
    | (with_reducible apply Steady.chain ?_ (State.oryM_steady _ _) ?sub; (case sub => decide))
    | (with_reducible apply Steady.fold ?_ (fun _ _ => ?_); all_goals try dsimp only)

theorem execMapEpochCommit_moves (s : State) (lost : List Nat) : Moves [.ory, .cells, .lpe, .parures, .ast, .lockets, .charms, .extents, .cur, .bays, .eph, .colls, .searches, .selects, .sieves, .integ, .ckpt, .hif, .lan] s (execMapEpochCommit s lost) := by
  unfold execMapEpochCommit
  try dsimp only
  repeat' first
    | with_reducible apply Steady.refl
    | (with_reducible apply Steady.chain ?_ (exhausted_steady _) ?sub; (case sub => decide))
    | (with_reducible apply Steady.chain ?_ (copyLost_steady _ _ _) ?sub; (case sub => decide))
    | (with_reducible apply Steady.chain ?_ (noteSpares_steady _ _) ?sub; (case sub => decide))
    | (with_reducible apply Steady.chain ?_ (newEpoch_steady _) ?sub; (case sub => decide))
    | (with_reducible apply Steady.chain ?_ (substituteCell_steady _ _ _ _) ?sub; (case sub => decide))
    | (with_reducible apply Steady.chain ?_ (refetchBoth_steady _) ?sub; (case sub => decide))
    | (with_reducible apply Steady.chain ?_ (State.integM_steady _ _) ?sub; (case sub => decide))
    | (with_reducible apply Steady.chain ?_ (State.lpeM_steady _ _) ?sub; (case sub => decide))
    | (with_reducible apply Steady.chain ?_ (retire_steady _ _ _) ?sub; (case sub => decide))
    | (with_reducible apply Steady.chain ?_ (deviceFault_steady _ _) ?sub; (case sub => decide))
    | (with_reducible apply Steady.chain ?_ (State.cellM_steady _ _ _) ?sub; (case sub => decide))
    | (with_reducible apply Steady.chain ?_ (logFault_steady _ _ _ _ _ _ _) ?sub; (case sub => decide))
    | with_reducible apply formed_moves
    | with_reducible apply clocked_moves
    | with_reducible apply Moves.next
    | with_reducible apply Moves.ite
    | with_reducible apply Steady.ite
    | split

theorem execPlannedSubstitution_moves (s : State) : Moves [.lpe, .integ] s (execPlannedSubstitution s) := by
  unfold execPlannedSubstitution
  try dsimp only
  repeat' first
    | with_reducible apply Steady.refl
    | (with_reducible apply Steady.chain ?_ (State.integM_steady _ _) ?sub; (case sub => decide))
    | (with_reducible apply Steady.chain ?_ (startFence_steady _ _) ?sub; (case sub => decide))
    | with_reducible apply clocked_moves
    | with_reducible apply when_moves
    | with_reducible apply Moves.next
    | with_reducible apply Moves.ite
    | with_reducible apply Steady.ite
    | split

theorem directReplay_steady (s : State) (n : Nat) (cell : Nat) (r : Repeat) : Steady [.integ] s (directReplay s n cell r) := by
  unfold directReplay
  try dsimp only
  repeat' first
    | with_reducible apply Steady.refl
    | (with_reducible apply Steady.chain ?_ (State.integM_steady _ _) ?sub; (case sub => decide))

theorem faultOut_steady (s : State) : Steady [.ory, .lpe, .parures, .ast, .lockets, .charms, .extents, .cur, .bays, .eph, .colls, .searches, .selects, .sieves, .integ, .ckpt, .hif, .lan] s (faultOut s) := by
  unfold faultOut
  try dsimp only
  repeat' first
    | with_reducible apply Steady.refl
    | (with_reducible apply Steady.chain ?_ (startFence_steady _ _) ?sub; (case sub => decide))
    | (with_reducible apply Steady.chain ?_ (deviceFault_steady _ _) ?sub; (case sub => decide))
    | split

theorem repeatTest_steady (s : State) (n : Nat) (cells : List Nat) (m : Nat) (ord : Nat) : Steady [.ory, .cells, .lpe, .parures, .ast, .lockets, .charms, .extents, .cur, .bays, .eph, .colls, .searches, .selects, .sieves, .integ, .ckpt, .hif, .lan] s (repeatTest s n cells m ord) := by
  unfold repeatTest
  try dsimp only
  repeat' first
    | with_reducible apply Steady.refl
    | (with_reducible apply Steady.chain ?_ (directReplay_steady _ _ _ _) ?sub; (case sub => decide))
    | (with_reducible apply Steady.chain ?_ (faultOut_steady _) ?sub; (case sub => decide))
    | (with_reducible apply Steady.chain ?_ (startFence_steady _ _) ?sub; (case sub => decide))
    | (with_reducible apply Steady.chain ?_ (exhausted_steady _) ?sub; (case sub => decide))
    | (with_reducible apply Steady.chain ?_ (countTransient_steady _ _ _) ?sub; (case sub => decide))
    | (with_reducible apply Steady.chain ?_ (retire_steady _ _ _) ?sub; (case sub => decide))
    | (with_reducible apply Steady.chain ?_ (State.integM_steady _ _) ?sub; (case sub => decide))
    | with_reducible apply Steady.ite
    | split

theorem noteFault_steady (s : State) (cells : List Nat) (m : Nat) (row : Bool) (col : Bool) (twin : Bool) : Steady [.ory, .cells] s (noteFault s cells m row col twin) := by
  unfold noteFault
  try dsimp only
  repeat' first
    | with_reducible apply Steady.refl
    | (with_reducible apply Steady.chain ?_ (State.oryM_steady _ _) ?sub; (case sub => decide))
    | (with_reducible apply Steady.chain ?_ (State.cellM_steady _ _ _) ?sub; (case sub => decide))
    | with_reducible apply Steady.ite
    | (with_reducible apply Steady.fold ?_ (fun _ _ => ?_); all_goals try dsimp only)

theorem discardTiles_steady (s : State) : Steady [.ory] s (discardTiles s) := by
  unfold discardTiles
  try dsimp only
  repeat' first
    | with_reducible apply Steady.refl
    | (with_reducible apply Steady.chain ?_ (State.oryM_steady _ _) ?sub; (case sub => decide))
    | (intro _; try dsimp only)

theorem discardFrom_steady (s : State) (t : TileRef) : Steady [.ory] s (discardFrom s t) := by
  unfold discardFrom
  try dsimp only
  repeat' first
    | with_reducible apply Steady.refl
    | (with_reducible apply Steady.chain ?_ (State.oryM_steady _ _) ?sub; (case sub => decide))
    | (intro _; try dsimp only)

theorem tileFails_steady (s : State) (t : TileRef) (cells : List Nat) (row : Bool) (col : Bool) (twin : Bool) : Steady [.ory, .cells, .lpe, .parures, .ast, .lockets, .charms, .extents, .cur, .bays, .eph, .colls, .searches, .selects, .sieves, .integ, .ckpt, .hif, .lan] s (tileFails s t cells row col twin) := by
  unfold tileFails
  try dsimp only
  repeat' first
    | with_reducible apply Steady.refl
    | (with_reducible apply Steady.chain ?_ (discardFrom_steady _ _) ?sub; (case sub => decide))
    | (with_reducible apply Steady.chain ?_ (noteFault_steady _ _ _ _ _ _) ?sub; (case sub => decide))
    | (with_reducible apply Steady.chain ?_ (logFault_steady _ _ _ _ _ _ _) ?sub; (case sub => decide))
    | (with_reducible apply Steady.chain ?_ (State.integM_steady _ _) ?sub; (case sub => decide))
    | (with_reducible apply Steady.chain ?_ (State.oryM_steady _ _) ?sub; (case sub => decide))
    | (with_reducible apply Steady.chain ?_ (repeatTest_steady _ _ _ _ _) ?sub; (case sub => decide))
    | (intro _; try dsimp only)
    | with_reducible apply Steady.ite
    | (with_reducible apply Steady.fold ?_ (fun _ _ => ?_); all_goals try dsimp only)
    | with_reducible apply Steady.orElse (fun _ _ => ?_)
    | split

theorem testPassed_steady (s : State) (ord : Nat) : Steady [.cells, .lpe, .integ, .lan] s (testPassed s ord) := by
  unfold testPassed
  try dsimp only
  repeat' first
    | with_reducible apply Steady.refl
    | (with_reducible apply Steady.chain ?_ (State.integM_steady _ _) ?sub; (case sub => decide))
    | (with_reducible apply Steady.chain ?_ (countTransient_steady _ _ _) ?sub; (case sub => decide))
    | (with_reducible apply Steady.chain ?_ (retire_steady _ _ _) ?sub; (case sub => decide))
    | split

theorem tilePassed_steady (s : State) (t : TileRef) : Steady [.ory, .cells, .lpe, .integ, .lan] s (tilePassed s t) := by
  unfold tilePassed
  try dsimp only
  repeat' first
    | with_reducible apply Steady.refl
    | (with_reducible apply Steady.chain ?_ (testPassed_steady _ _) ?sub; (case sub => decide))
    | (with_reducible apply Steady.chain ?_ (State.oryM_steady _ _) ?sub; (case sub => decide))
    | with_reducible apply Steady.ite

end Sys2Proof.Machine
end

