-- ==== Sys2Proof/Laws/Frames/TileMath.lean ====
section
/-!
SUPPORT. Sys2Proof/Laws/Frames/TileMath.lean: what each operation of Machine/TileMath.lean can change at most.
-/
namespace Sys2Proof.Machine



end Sys2Proof.Machine
end

