-- ==== Sys2Proof/Laws/Frames/Orrery.lean ====
section
/-!
SUPPORT. Sys2Proof/Laws/Frames/Orrery.lean: what each operation of Machine/Orrery.lean can change at most.
-/
namespace Sys2Proof.Machine

theorem countCorr_steady (rail : Bool) (s : State) : Steady [.integ] s (countCorr rail s) := by
  unfold countCorr
  try dsimp only
  repeat' first
    | with_reducible apply Steady.refl
    | (with_reducible apply Steady.chain ?_ (State.integM_steady _ _) ?sub; (case sub => decide))
    | with_reducible apply Steady.ite

theorem cellReads_steady (rail : Bool) (s : State) (e : Bool × Nat × Nat) : Steady [.ory, .integ, .lan] s (cellReads rail s e) := by
  unfold cellReads
  try dsimp only
  repeat' first
    | with_reducible apply Steady.refl
    | (with_reducible apply Steady.chain ?_ (State.oryM_steady _ _) ?sub; (case sub => decide))
    | (with_reducible apply Steady.chain ?_ (countCorr_steady _ _) ?sub; (case sub => decide))
    | (with_reducible apply Steady.chain ?_ (logFault_steady _ _ _ _ _ _ _) ?sub; (case sub => decide))
    | (with_reducible apply Steady.chain ?_ (State.integM_steady _ _) ?sub; (case sub => decide))
    | with_reducible apply Steady.ite
    | with_reducible apply Steady.iteFirst
    | split

theorem endHold_steady (s : State) : Steady [.ory] s (endHold s) := by
  unfold endHold
  try dsimp only
  repeat' first
    | with_reducible apply Steady.refl
    | (with_reducible apply Steady.chain ?_ (State.oryM_steady _ _) ?sub; (case sub => decide))
    | with_reducible apply Steady.ite
    | split

theorem overflow_steady (s : State) : Steady [.ory, .parures, .ast, .lockets, .charms, .extents, .cur, .bays, .eph, .colls, .searches, .selects, .sieves, .integ, .ckpt, .hif, .lan] s (overflow s) := by
  unfold overflow
  try dsimp only
  repeat' first
    | with_reducible apply Steady.refl
    | (with_reducible apply Steady.chain ?_ (deviceFault_steady _ _) ?sub; (case sub => decide))
    | (with_reducible apply Steady.chain ?_ (State.oryM_steady _ _) ?sub; (case sub => decide))

theorem reachCheap_steady (s : State) : Steady [.ory, .parures, .ast, .lockets, .charms, .extents, .cur, .bays, .eph, .colls, .searches, .selects, .sieves, .integ, .ckpt, .hif, .lan] s (reachCheap s) := by
  unfold reachCheap
  try dsimp only
  repeat' first
    | with_reducible apply Steady.refl
    | (with_reducible apply Steady.chain ?_ (State.oryM_steady _ _) ?sub; (case sub => decide))
    | (with_reducible apply Steady.chain ?_ (overflow_steady _) ?sub; (case sub => decide))
    | with_reducible apply Steady.ite
    | split

theorem issueTile_steady (s : State) (img : List Byte) (ps : List PosEntry) (pr : Prog) (t : TileRef) : Steady [.ory] s (issueTile s img ps pr t) := by
  unfold issueTile
  try dsimp only
  repeat' first
    | with_reducible apply Steady.refl
    | (with_reducible apply Steady.chain ?_ (State.oryM_steady _ _) ?sub; (case sub => decide))
    | (intro _; try dsimp only)
    | with_reducible apply Steady.ite
    | with_reducible apply Steady.orElse (fun _ _ => ?_)
    | split

theorem execTileIssue_moves (s : State) : Moves [.ory, .parures, .ast, .lockets, .charms, .extents, .cur, .bays, .eph, .colls, .searches, .selects, .sieves, .integ, .ckpt, .hif, .lan] s (execTileIssue s) := by
  unfold execTileIssue
  try dsimp only
  repeat' first
    | with_reducible apply Steady.refl
    | (with_reducible apply Steady.chain ?_ (reachCheap_steady _) ?sub; (case sub => decide))
    | (with_reducible apply Steady.chain ?_ (issueTile_steady _ _ _ _ _) ?sub; (case sub => decide))
    | (with_reducible apply Steady.chain ?_ (State.oryM_steady _ _) ?sub; (case sub => decide))
    | with_reducible apply when_moves
    | with_reducible apply Moves.next
    | with_reducible apply Moves.ite
    | with_reducible apply Steady.ite
    | split

theorem earlyFill_steady (s : State) (half : Nat) (slot : Nat) (kind : Nat) : Steady [.ory] s (earlyFill s half slot kind) := by
  unfold earlyFill
  try dsimp only
  repeat' first
    | with_reducible apply Steady.refl
    | (with_reducible apply Steady.chain ?_ (State.oryM_steady _ _) ?sub; (case sub => decide))
    | with_reducible apply Steady.ite

theorem fillHalf_steady (s : State) (half : Nat) : Steady [.ory] s (fillHalf s half) := by
  unfold fillHalf
  try dsimp only
  repeat' first
    | with_reducible apply Steady.refl
    | (with_reducible apply Steady.chain ?_ (endHold_steady _) ?sub; (case sub => decide))
    | (with_reducible apply Steady.chain ?_ (State.oryM_steady _ _) ?sub; (case sub => decide))
    | (intro _; try dsimp only)
    | with_reducible apply Steady.ite
    | split

theorem railErrors_steady (half : Nat) (errors : List (Nat × Nat)) (s : State) : Steady [.ory, .integ, .lan] s (railErrors half errors s) := by
  unfold railErrors
  try dsimp only
  repeat' first
    | with_reducible apply Steady.refl
    | (with_reducible apply Steady.chain ?_ (cellReads_steady _ _ _) ?sub; (case sub => decide))
    | (with_reducible apply Steady.fold ?_ (fun _ _ => ?_); all_goals try dsimp only)
    | (with_reducible apply Steady.foldPair ?_ (fun _ _ => ?_); all_goals try dsimp only)

theorem execWindowFillDone_moves (half : Nat) (s : State) (errors : List (Nat × Nat)) : Moves [.ory, .integ, .lan] s (execWindowFillDone half s errors) := by
  unfold execWindowFillDone
  try dsimp only
  repeat' first
    | with_reducible apply Steady.refl
    | (with_reducible apply Steady.chain ?_ (railErrors_steady _ _ _) ?sub; (case sub => decide))
    | (with_reducible apply Steady.chain ?_ (earlyFill_steady _ _ _ _) ?sub; (case sub => decide))
    | (with_reducible apply Steady.chain ?_ (fillHalf_steady _ _) ?sub; (case sub => decide))
    | with_reducible apply formed_moves
    | with_reducible apply when_moves
    | with_reducible apply Moves.ite
    | with_reducible apply Steady.ite
    | with_reducible apply Steady.iteFirst
    | split

theorem failRecompute_steady (s : State) (h : Nat) : Steady [.ory, .ast, .lockets, .charms, .extents, .cur, .bays, .eph, .integ, .hif, .lan] s (failRecompute s h) := by
  unfold failRecompute
  try dsimp only
  repeat' first
    | with_reducible apply Steady.refl
    | (with_reducible apply Steady.chain ?_ (logFault_steady _ _ _ _ _ _ _) ?sub; (case sub => decide))
    | (with_reducible apply Steady.chain ?_ (State.integM_steady _ _) ?sub; (case sub => decide))
    | (with_reducible apply Steady.chain ?_ (withdrawJoin_steady _ _ _) ?sub; (case sub => decide))
    | (with_reducible apply Steady.chain ?_ (abandonRecompute_steady _ _) ?sub; (case sub => decide))
    | (with_reducible apply Steady.chain ?_ (completeAll_steady _ _ _) ?sub; (case sub => decide))
    | (intro _; try dsimp only)
    | with_reducible apply Steady.orElse (fun _ _ => ?_)

theorem kvTarnish_steady (s : State) (h : Nat) (row : Nat) : Steady [.ory, .ast, .stm, .lockets, .charms, .extents, .cur, .bays, .eph, .integ, .hif, .lan] s (kvTarnish s h row) := by
  unfold kvTarnish
  try dsimp only
  repeat' first
    | with_reducible apply Steady.refl
    | (with_reducible apply Steady.chain ?_ (failRecompute_steady _ _) ?sub; (case sub => decide))
    | (with_reducible apply Steady.chain ?_ (State.locketM_steady _ _ _) ?sub; (case sub => decide))
    | (with_reducible apply Steady.chain ?_ (tarnishSession_steady _ _ _ _) ?sub; (case sub => decide))
    | with_reducible apply Steady.ite
    | split

theorem gatherLook_steady (img : List Byte) (h : Nat) (l' : Locket) (s : State) (p : Bool × Nat) : Steady [.ast] s (gatherLook img h l' s p).1 := by
  unfold gatherLook
  try dsimp only
  repeat' first
    | with_reducible apply Steady.refl
    | (with_reducible apply Steady.chain ?_ (replicaLook_steady _ _ _ _ _) ?sub; (case sub => decide))
    | (with_reducible apply Steady.chain ?_ (ownLook_steady _ _ _ _ _) ?sub; (case sub => decide))
    | with_reducible apply Steady.ite
    | with_reducible apply Steady.iteFirst
    | (with_reducible apply Steady.first ?ee; (case ee => assumption))
    | split

theorem gatherMember_steady (img : List Byte) (sw : Sweep) (s : State) (e : Nat × Locket) : Steady [.ory, .ast, .stm, .lockets, .charms, .extents, .cur, .bays, .eph, .integ, .hif, .lan] s (gatherMember img sw s e) := by
  unfold gatherMember
  try dsimp only
  repeat' first
    | with_reducible apply Steady.refl
    | (with_reducible apply looks_steady _ _ ?_ (fun _ _ => ?_); all_goals try dsimp only)
    | (with_reducible apply Steady.chain ?_ (gatherLook_steady _ _ _ _ _) ?sub; (case sub => decide))
    | (with_reducible apply Steady.chain ?_ (State.oryM_steady _ _) ?sub; (case sub => decide))
    | (with_reducible apply Steady.chain ?_ (kvTarnish_steady _ _ _) ?sub; (case sub => decide))
    | with_reducible apply Steady.ite
    | (with_reducible apply Steady.fold ?_ (fun _ _ => ?_); all_goals try dsimp only)
    | (with_reducible apply Steady.foldPair ?_ (fun _ _ => ?_); all_goals try dsimp only)
    | with_reducible apply Steady.iteFirst
    | (with_reducible apply Steady.first ?ee; (case ee => assumption))
    | split

theorem execKvGatherDone_moves (sweep : Nat) (s : State) : Moves [.ory, .ast, .stm, .lockets, .charms, .extents, .cur, .bays, .eph, .integ, .hif, .lan] s (execKvGatherDone sweep s) := by
  unfold execKvGatherDone
  try dsimp only
  repeat' first
    | with_reducible apply Steady.refl
    | (with_reducible apply Steady.chain ?_ (gatherMember_steady _ _ _ _) ?sub; (case sub => decide))
    | (with_reducible apply Steady.chain ?_ (endHold_steady _) ?sub; (case sub => decide))
    | (with_reducible apply Steady.chain ?_ (State.oryM_steady _ _) ?sub; (case sub => decide))
    | with_reducible apply when_moves
    | with_reducible apply Moves.next
    | (intro _; try dsimp only)
    | (with_reducible apply Steady.fold ?_ (fun _ _ => ?_); all_goals try dsimp only)
    | split

theorem consumeParure_steady (s : State) (slot : Nat) (line : Nat) : Steady [.ory, .ast, .stm, .lockets, .charms, .extents, .cur, .bays, .eph, .integ, .hif, .lan] s (consumeParure s slot line) := by
  unfold consumeParure
  try dsimp only
  repeat' first
    | with_reducible apply Steady.refl
    | (with_reducible apply Steady.chain ?_ (parureTarnish_steady _ _ _) ?sub; (case sub => decide))
    | (with_reducible apply Steady.chain ?_ (failRecompute_steady _ _) ?sub; (case sub => decide))
    | (with_reducible apply Steady.chain ?_ (tarnishSession_steady _ _ _ _) ?sub; (case sub => decide))
    | with_reducible apply Steady.ite
    | (with_reducible apply Steady.fold ?_ (fun _ _ => ?_); all_goals try dsimp only)
    | (with_reducible apply Steady.foldPair ?_ (fun _ _ => ?_); all_goals try dsimp only)
    | with_reducible apply Steady.iteFirst

theorem consumeTaint_steady (s : State) (ps : List PosEntry) (bad : List Nat) : Steady [.ory, .ast, .stm, .lockets, .charms, .extents, .cur, .bays, .eph, .integ, .hif, .lan] s (consumeTaint s ps bad) := by
  unfold consumeTaint
  try dsimp only
  repeat' first
    | with_reducible apply Steady.refl
    | (with_reducible apply Steady.chain ?_ (failRecompute_steady _ _) ?sub; (case sub => decide))
    | (with_reducible apply Steady.chain ?_ (tarnishSession_steady _ _ _ _) ?sub; (case sub => decide))
    | (intro _; try dsimp only)
    | with_reducible apply Steady.ite
    | (with_reducible apply Steady.fold ?_ (fun _ _ => ?_); all_goals try dsimp only)
    | (with_reducible apply Steady.foldPair ?_ (fun _ _ => ?_); all_goals try dsimp only)
    | with_reducible apply Steady.iteFirst
    | split

theorem consumeFacets_steady (s : State) : Steady [.ory, .ast, .stm, .lockets, .charms, .facets, .extents, .cur, .bays, .eph, .integ, .hif, .lan] s (consumeFacets s) := by
  unfold consumeFacets
  try dsimp only
  repeat' first
    | with_reducible apply Steady.refl
    | (with_reducible apply Steady.chain ?_ (parureTarnish_steady _ _ _) ?sub; (case sub => decide))
    | (with_reducible apply Steady.chain ?_ (failRecompute_steady _ _) ?sub; (case sub => decide))
    | (with_reducible apply Steady.chain ?_ (tarnishSession_steady _ _ _ _) ?sub; (case sub => decide))
    | with_reducible apply Steady.ite
    | (with_reducible apply Steady.fold ?_ (fun _ _ => ?_); all_goals try dsimp only)
    | (with_reducible apply Steady.foldPair ?_ (fun _ _ => ?_); all_goals try dsimp only)
    | with_reducible apply Steady.iteFirst
    | split
    | (with_reducible apply Steady.update <;> first | with_reducible exact Or.inl rfl | (apply Or.inr; decide) | (exact Or.inr ⟨by decide, fun h => by simpa using h⟩) | skip)

theorem stageWrite_steady (s : State) (h : Nat) (o : Nat) (data : List Byte) : Steady [.t1, .integ] s (stageWrite s h o data) := by
  unfold stageWrite
  try dsimp only
  repeat' first
    | with_reducible apply Steady.refl
    | (with_reducible apply Steady.chain ?_ (t1Write_steady _ _ _) ?sub; (case sub => decide))
    | (with_reducible apply Steady.fold ?_ (fun _ _ => ?_); all_goals try dsimp only)
    | split

theorem t1Tarnish_steady (s : State) (a : Nat) (n : Nat) : Steady [.t1, .integ] s (t1Tarnish s a n) := by
  unfold t1Tarnish
  try dsimp only
  repeat' first
    | with_reducible apply Steady.refl
    | (with_reducible apply Steady.fold ?_ (fun _ _ => ?_); all_goals try dsimp only)
    | (with_reducible apply Steady.update <;> first | with_reducible exact Or.inl rfl | (apply Or.inr; decide) | (exact Or.inr ⟨by decide, fun h => by simpa using h⟩) | skip)
    | exact Or.inr ⟨by decide, writeN_wf _ _⟩
    | exact Or.inr ⟨by decide, write_wf _ _⟩
    | exact Or.inr ⟨by decide, clear_wf _ _⟩
    | exact Or.inr ⟨by decide, copyFrom_wf _ _ _ _⟩
    | exact Or.inr ⟨by decide, clearAll_wf _ _ _⟩
    | exact Or.inr ⟨by decide, fun _ => rfl⟩

theorem stageTarnish_steady (s : State) (h : Nat) (o : Nat) (n : Nat) : Steady [.t1, .integ] s (stageTarnish s h o n) := by
  unfold stageTarnish
  try dsimp only
  repeat' first
    | with_reducible apply Steady.refl
    | (with_reducible apply Steady.chain ?_ (t1Tarnish_steady _ _ _) ?sub; (case sub => decide))
    | (with_reducible apply Steady.fold ?_ (fun _ _ => ?_); all_goals try dsimp only)
    | split

theorem storeEntry_steady (img : List Byte) (ps : List PosEntry) (x : Lanes) (s : State) (k : Bool × Nat × Nat × List Byte) : Steady [.ast, .lockets, .t1, .integ] s (storeEntry img ps x s k) := by
  unfold storeEntry
  try dsimp only
  repeat' first
    | with_reducible apply Steady.refl
    | (with_reducible apply Steady.chain ?_ (kvWrite_steady _ _ _ _ _) ?sub; (case sub => decide))
    | (with_reducible apply Steady.chain ?_ (stageTarnish_steady _ _ _ _) ?sub; (case sub => decide))
    | (with_reducible apply Steady.chain ?_ (stageWrite_steady _ _ _ _) ?sub; (case sub => decide))
    | with_reducible apply Steady.ite
    | with_reducible apply Steady.iteFirst
    | split

theorem addLogits_steady (s : State) (vs : List (Lanes × List W32)) : Steady [.eph] s (addLogits s vs) := by
  unfold addLogits
  try dsimp only
  repeat' first
    | with_reducible apply Steady.refl
    | (with_reducible apply Steady.chain ?_ (State.stepM_steady _ _ _) ?sub; (case sub => decide))
    | with_reducible apply Steady.ite
    | (with_reducible apply Steady.fold ?_ (fun _ _ => ?_); all_goals try dsimp only)
    | (with_reducible apply Steady.foldPair ?_ (fun _ _ => ?_); all_goals try dsimp only)
    | with_reducible apply Steady.iteFirst
    | split

theorem noteRows_steady (s : State) : Steady [.eph] s (noteRows s) := by
  unfold noteRows
  try dsimp only
  repeat' first
    | with_reducible apply Steady.refl
    | (with_reducible apply Steady.chain ?_ (State.stepM_steady _ _ _) ?sub; (case sub => decide))
    | with_reducible apply Steady.ite
    | split

theorem noteModels_steady (s : State) (idxs : List Nat) : Steady [.eph] s (noteModels s idxs) := by
  unfold noteModels
  try dsimp only
  repeat' first
    | with_reducible apply Steady.refl
    | (with_reducible apply Steady.chain ?_ (State.stepM_steady _ _ _) ?sub; (case sub => decide))
    | (with_reducible apply Steady.chain ?_ (State.ephM_steady _ _) ?sub; (case sub => decide))
    | with_reducible apply Steady.ite
    | split

theorem renext_steady (s : State) (bs : Nat) : Steady [.ory] s (renext s bs) := by
  unfold renext
  try dsimp only
  repeat' first
    | with_reducible apply Steady.refl
    | (with_reducible apply Steady.chain ?_ (State.oryM_steady _ _) ?sub; (case sub => decide))
    | (intro _; try dsimp only)
    | with_reducible apply Steady.ite
    | with_reducible apply Steady.orElse (fun _ _ => ?_)
    | split

theorem commitSums_steady (s : State) (ps : List PosEntry) (x : TileIn) : Steady [.ory] s (commitSums s ps x) := by
  unfold commitSums
  try dsimp only
  repeat' first
    | with_reducible apply Steady.refl
    | (with_reducible apply Steady.chain ?_ (State.oryM_steady _ _) ?sub; (case sub => decide))
    | with_reducible apply Steady.ite
    | split

theorem commitChunk_steady (s : State) (img : List Byte) (ps : List PosEntry) (x : TileIn) (ls : List Lanes) : Steady [.ory, .ast, .stm, .lockets, .charms, .t1, .extents, .cur, .bays, .eph, .integ, .hif, .lan] s (commitChunk s img ps x ls) := by
  unfold commitChunk
  try dsimp only
  repeat' first
    | with_reducible apply Steady.refl
    | (with_reducible apply Steady.chain ?_ (State.oryM_steady _ _) ?sub; (case sub => decide))
    | (with_reducible apply Steady.chain ?_ (storeEntry_steady _ _ _ _ _) ?sub; (case sub => decide))
    | (with_reducible apply Steady.chain ?_ (addLogits_steady _ _) ?sub; (case sub => decide))
    | (with_reducible apply Steady.chain ?_ (noteModels_steady _ _) ?sub; (case sub => decide))
    | (with_reducible apply Steady.chain ?_ (consumeTaint_steady _ _ _) ?sub; (case sub => decide))
    | with_reducible apply Steady.ite
    | (with_reducible apply Steady.fold ?_ (fun _ _ => ?_); all_goals try dsimp only)
    | (with_reducible apply Steady.foldPair ?_ (fun _ _ => ?_); all_goals try dsimp only)
    | with_reducible apply Steady.iteFirst

theorem chargeLast_steady (s : State) : Steady [.eph] s (chargeLast s) := by
  unfold chargeLast
  try dsimp only
  repeat' first
    | with_reducible apply Steady.refl
    | (with_reducible apply Steady.chain ?_ (endCharge_steady _ _) ?sub; (case sub => decide))
    | with_reducible apply Steady.ite
    | split

theorem retireTile_steady (s : State) (t : TileRef) : Steady [.ory] s (retireTile s t) := by
  unfold retireTile
  try dsimp only
  repeat' first
    | with_reducible apply Steady.refl
    | (with_reducible apply Steady.chain ?_ (State.oryM_steady _ _) ?sub; (case sub => decide))
    | (intro _; try dsimp only)
    | split

theorem commitTile_steady (s : State) (par : Parure) (slot : Nat) (img : List Byte) (ps : List PosEntry) (pr : Prog) (p : Progress) (t : TileRef) : Steady [.ory, .cells, .lpe, .parures, .ast, .stm, .lockets, .charms, .facets, .t1, .extents, .cur, .bays, .eph, .colls, .searches, .selects, .sieves, .integ, .ckpt, .hif, .lan] s (commitTile s par slot img ps pr p t) := by
  unfold commitTile
  try dsimp only
  repeat' first
    | with_reducible apply Steady.refl
    | (with_reducible apply Steady.chain ?_ (commitSums_steady _ _ _) ?sub; (case sub => decide))
    | (with_reducible apply Steady.chain ?_ (tilePassed_steady _ _) ?sub; (case sub => decide))
    | (with_reducible apply Steady.chain ?_ (commitChunk_steady _ _ _ _ _) ?sub; (case sub => decide))
    | (with_reducible apply Steady.chain ?_ (retireTile_steady _ _) ?sub; (case sub => decide))
    | (with_reducible apply Steady.chain ?_ (renext_steady _ _) ?sub; (case sub => decide))
    | (with_reducible apply Steady.chain ?_ (consumeParure_steady _ _ _) ?sub; (case sub => decide))
    | (with_reducible apply Steady.chain ?_ (consumeFacets_steady _) ?sub; (case sub => decide))
    | (with_reducible apply Steady.chain ?_ (markUnusable_steady _ _) ?sub; (case sub => decide))
    | (with_reducible apply Steady.chain ?_ (failRecompute_steady _ _) ?sub; (case sub => decide))
    | (with_reducible apply Steady.chain ?_ (reachCheap_steady _) ?sub; (case sub => decide))
    | (with_reducible apply Steady.chain ?_ (chargeLast_steady _) ?sub; (case sub => decide))
    | (with_reducible apply Steady.chain ?_ (noteRows_steady _) ?sub; (case sub => decide))
    | with_reducible apply Steady.ite
    | (with_reducible apply Steady.fold ?_ (fun _ _ => ?_); all_goals try dsimp only)
    | (with_reducible apply Steady.foldPair ?_ (fun _ _ => ?_); all_goals try dsimp only)
    | with_reducible apply Steady.iteFirst
    | split

theorem execTileCommit_moves (sweep lane : Nat) (scratch window : List (Nat × Nat)) (s : State) : Moves [.ory, .cells, .lpe, .parures, .ast, .stm, .lockets, .charms, .facets, .t1, .extents, .cur, .bays, .eph, .colls, .searches, .selects, .sieves, .integ, .ckpt, .hif, .lan] s (execTileCommit sweep lane scratch window s) := by
  unfold execTileCommit
  try dsimp only
  repeat' first
    | with_reducible apply Steady.refl
    | (with_reducible apply Steady.chain ?_ (commitTile_steady _ _ _ _ _ _ _ _) ?sub; (case sub => decide))
    | (with_reducible apply Steady.chain ?_ (cellReads_steady _ _ _) ?sub; (case sub => decide))
    | with_reducible apply formed_moves
    | with_reducible apply when_moves
    | with_reducible apply Moves.next
    | (with_reducible apply Steady.fold ?_ (fun _ _ => ?_); all_goals try dsimp only)
    | split

theorem execTileFault_moves (sweep lane : Nat) (errs : List BlockError) (twins : List (Nat × W32 × W32)) (parity : List Nat) (s : State) : Moves [.ory, .cells, .lpe, .parures, .ast, .lockets, .charms, .extents, .cur, .bays, .eph, .colls, .searches, .selects, .sieves, .integ, .ckpt, .hif, .lan] s (execTileFault sweep lane errs twins parity s) := by
  unfold execTileFault
  try dsimp only
  repeat' first
    | with_reducible apply Steady.refl
    | (with_reducible apply Steady.chain ?_ (tileFails_steady _ _ _ _ _ _) ?sub; (case sub => decide))
    | with_reducible apply formed_moves
    | with_reducible apply when_moves
    | with_reducible apply Moves.next
    | split

theorem execPreemptRequest_moves (s : State) : Moves [.ory, .parures, .ast, .lockets, .charms, .extents, .cur, .bays, .eph, .colls, .searches, .selects, .sieves, .integ, .ckpt, .hif, .lan] s (execPreemptRequest s) := by
  unfold execPreemptRequest
  try dsimp only
  repeat' first
    | with_reducible apply Steady.refl
    | (with_reducible apply Steady.chain ?_ (reachCheap_steady _) ?sub; (case sub => decide))
    | (with_reducible apply Steady.chain ?_ (askPreempt_steady _) ?sub; (case sub => decide))
    | with_reducible apply when_moves

theorem writeBlock_steady (img : List Byte) (c : CheapPt) (s : State) (cell : Nat) : Steady [.t1, .integ] s (writeBlock img c s cell) := by
  unfold writeBlock
  try dsimp only
  repeat' first
    | with_reducible apply Steady.refl
    | (with_reducible apply Steady.chain ?_ (t1Write_steady _ _ _) ?sub; (case sub => decide))
    | (with_reducible apply Steady.chain ?_ (State.integM_steady _ _) ?sub; (case sub => decide))

theorem writeSpill_steady (s : State) (img : List Byte) (c : CheapPt) : Steady [.t1, .integ] s (writeSpill s img c) := by
  unfold writeSpill
  try dsimp only
  repeat' first
    | with_reducible apply Steady.refl
    | (with_reducible apply Steady.chain ?_ (writeBlock_steady _ _ _ _) ?sub; (case sub => decide))
    | (with_reducible apply Steady.fold ?_ (fun _ _ => ?_); all_goals try dsimp only)

theorem suspend_steady (s : State) (k : Nat) : Steady [.ory, .eph, .integ] s (suspend s k) := by
  unfold suspend
  try dsimp only
  repeat' first
    | with_reducible apply Steady.refl
    | (with_reducible apply Steady.chain ?_ (State.ephM_steady _ _) ?sub; (case sub => decide))
    | (with_reducible apply Steady.chain ?_ (freeOrrery_steady _) ?sub; (case sub => decide))
    | (with_reducible apply Steady.chain ?_ (State.ctxM_steady _ _ _) ?sub; (case sub => decide))
    | (with_reducible apply Steady.chain ?_ (endCharge_steady _ _) ?sub; (case sub => decide))
    | (intro _; try dsimp only)
    | with_reducible apply Steady.ite
    | with_reducible apply Steady.orElse (fun _ _ => ?_)
    | split

theorem execSpillDone_moves (s : State) : Moves [.ory, .parures, .ast, .lockets, .charms, .t1, .extents, .cur, .bays, .eph, .colls, .searches, .selects, .sieves, .integ, .ckpt, .hif, .lan] s (execSpillDone s) := by
  unfold execSpillDone
  try dsimp only
  repeat' first
    | with_reducible apply Steady.refl
    | (with_reducible apply Steady.chain ?_ (overflow_steady _) ?sub; (case sub => decide))
    | (with_reducible apply Steady.chain ?_ (suspend_steady _ _) ?sub; (case sub => decide))
    | (with_reducible apply Steady.chain ?_ (writeSpill_steady _ _ _) ?sub; (case sub => decide))
    | with_reducible apply Moves.next
    | with_reducible apply Moves.ite
    | with_reducible apply Steady.ite
    | split
    | (with_reducible apply Steady.update <;> first | with_reducible exact Or.inl rfl | (apply Or.inr; decide) | (exact Or.inr ⟨by decide, fun h => by simpa using h⟩) | skip)

theorem readBlock1_steady (img : List Byte) (c : CheapPt) (u : Suspended) (s : State) (cell : Nat) : Steady [.ory] s (readBlock1 img c u s cell) := by
  unfold readBlock1
  try dsimp only
  repeat' first
    | with_reducible apply Steady.refl
    | (with_reducible apply Steady.chain ?_ (State.oryM_steady _ _) ?sub; (case sub => decide))
    | with_reducible apply Steady.ite
    | (with_reducible apply Steady.fold ?_ (fun _ _ => ?_); all_goals try dsimp only)
    | (with_reducible apply Steady.foldPair ?_ (fun _ _ => ?_); all_goals try dsimp only)
    | with_reducible apply Steady.iteFirst

theorem readSpill_steady (s : State) (img : List Byte) (c : CheapPt) (u : Suspended) : Steady [.ory] s (readSpill s img c u) := by
  unfold readSpill
  try dsimp only
  repeat' first
    | with_reducible apply Steady.refl
    | (with_reducible apply Steady.chain ?_ (readBlock1_steady _ _ _ _ _) ?sub; (case sub => decide))
    | (with_reducible apply Steady.chain ?_ (State.oryM_steady _ _) ?sub; (case sub => decide))
    | with_reducible apply Steady.ite
    | (with_reducible apply Steady.fold ?_ (fun _ _ => ?_); all_goals try dsimp only)

theorem execSpillRestoreDone_moves (s : State) : Moves [.ory, .ast, .stm, .lockets, .charms, .extents, .cur, .bays, .eph, .integ, .hif, .lan] s (execSpillRestoreDone s) := by
  unfold execSpillRestoreDone
  try dsimp only
  repeat' first
    | with_reducible apply Steady.refl
    | (with_reducible apply Steady.chain ?_ (readSpill_steady _ _ _ _) ?sub; (case sub => decide))
    | (with_reducible apply Steady.chain ?_ (State.oryM_steady _ _) ?sub; (case sub => decide))
    | (with_reducible apply Steady.chain ?_ (State.ctxM_steady _ _ _) ?sub; (case sub => decide))
    | (with_reducible apply Steady.chain ?_ (State.ephM_steady _ _) ?sub; (case sub => decide))
    | (with_reducible apply Steady.chain ?_ (failRecompute_steady _ _) ?sub; (case sub => decide))
    | (with_reducible apply Steady.chain ?_ (tarnishSession_steady _ _ _ _) ?sub; (case sub => decide))
    | with_reducible apply when_moves
    | with_reducible apply Moves.next
    | with_reducible apply Moves.ite
    | with_reducible apply Steady.ite
    | (with_reducible apply Steady.fold ?_ (fun _ _ => ?_); all_goals try dsimp only)
    | (with_reducible apply Steady.foldPair ?_ (fun _ _ => ?_); all_goals try dsimp only)
    | with_reducible apply Steady.iteFirst
    | split
    | (with_reducible apply Steady.update <;> first | with_reducible exact Or.inl rfl | (apply Or.inr; decide) | (exact Or.inr ⟨by decide, fun h => by simpa using h⟩) | skip)

theorem execJobReady_moves (cls : Nat) (target : Nat) (s : State) : Moves [.ory, .eph, .traffic] s (execJobReady cls target s) := by
  unfold execJobReady
  try dsimp only
  repeat' first
    | with_reducible apply Steady.refl
    | (with_reducible apply Steady.chain ?_ (addJob_steady _ _) ?sub; (case sub => decide))
    | (with_reducible apply Steady.chain ?_ (tryUrgent_steady _) ?sub; (case sub => decide))
    | with_reducible apply formed_moves
    | with_reducible apply Moves.next
    | with_reducible apply Moves.ite
    | (intro _; try dsimp only)
    | with_reducible apply Steady.ite
    | split

theorem endPass_steady (s : State) (j : Job) : Steady [.lockets] s (endPass s j) := by
  unfold endPass
  try dsimp only
  repeat' first
    | with_reducible apply Steady.refl
    | (with_reducible apply Steady.chain ?_ (State.locketM_steady _ _ _) ?sub; (case sub => decide))
    | with_reducible apply Steady.ite
    | (with_reducible apply Steady.fold ?_ (fun _ _ => ?_); all_goals try dsimp only)
    | split

theorem chainUrgent_steady (s : State) : Steady [.eph, .traffic] s (chainUrgent s) := by
  unfold chainUrgent
  try dsimp only
  repeat' first
    | with_reducible apply Steady.refl
    | (with_reducible apply Steady.chain ?_ (urgentCandidate_steady _ _) ?sub; (case sub => decide))
    | (with_reducible apply Steady.chain ?_ (State.ephM_steady _ _) ?sub; (case sub => decide))
    | with_reducible apply Steady.ite
    | (with_reducible apply Steady.first ?ee; (case ee => assumption))
    | split

theorem leaveJob_steady (s : State) (j : Job) : Steady [.ory, .eph, .traffic, .integ] s (leaveJob s j) := by
  unfold leaveJob
  try dsimp only
  repeat' first
    | with_reducible apply Steady.refl
    | (with_reducible apply Steady.chain ?_ (endCharge_steady _ _) ?sub; (case sub => decide))
    | (with_reducible apply Steady.chain ?_ (State.ephM_steady _ _) ?sub; (case sub => decide))
    | (with_reducible apply Steady.chain ?_ (freeOrrery_steady _) ?sub; (case sub => decide))
    | (with_reducible apply Steady.chain ?_ (chainUrgent_steady _) ?sub; (case sub => decide))
    | with_reducible apply Steady.ite

theorem execJobEnd_moves (s : State) : Moves [.ory, .ast, .lockets, .extents, .cur, .bays, .eph, .traffic, .colls, .searches, .selects, .sieves, .integ, .hif, .lan] s (execJobEnd s) := by
  unfold execJobEnd
  try dsimp only
  repeat' first
    | with_reducible apply Steady.refl
    | (with_reducible apply Steady.chain ?_ (leaveJob_steady _ _) ?sub; (case sub => decide))
    | (with_reducible apply Steady.chain ?_ (endPass_steady _ _) ?sub; (case sub => decide))
    | (with_reducible apply Steady.chain ?_ (endSearch_steady _ _) ?sub; (case sub => decide))
    | (with_reducible apply Steady.chain ?_ (endSelect_steady _ _) ?sub; (case sub => decide))
    | (with_reducible apply Steady.chain ?_ (endMergeStep_steady _ _) ?sub; (case sub => decide))
    | with_reducible apply when_moves
    | with_reducible apply Moves.next
    | with_reducible apply Moves.ite
    | with_reducible apply Steady.ite
    | split
    | (with_reducible apply Steady.update <;> first | with_reducible exact Or.inl rfl | (apply Or.inr; decide) | (exact Or.inr ⟨by decide, fun h => by simpa using h⟩) | skip)

end Sys2Proof.Machine
end

