-- ==== Sys2Proof/Laws/Frames/Checkpoints.lean ====
section
/-!
SUPPORT. Sys2Proof/Laws/Frames/Checkpoints.lean: what each operation of Machine/Checkpoints.lean can change at most.
-/
namespace Sys2Proof.Machine

theorem execInstackCopyDone_moves (stack : Nat) (s : State) : Moves [.ast, .lockets, .charms, .t1, .hbc, .integ, .ckpt] s (execInstackCopyDone stack s) := by
  unfold execInstackCopyDone
  try dsimp only
  repeat' first
    | with_reducible apply Steady.refl
    | (with_reducible apply Steady.chain ?_ (copyDone_steady _ _ _) ?sub; (case sub => decide))
    | with_reducible apply formed_moves
    | with_reducible apply clocked_moves
    | with_reducible apply when_moves
    | with_reducible apply Moves.next
    | split

theorem execDrainStart_moves (s : State) : Moves [.extents, .cur, .ckpt, .lan] s (execDrainStart s) := by
  unfold execDrainStart
  try dsimp only
  repeat' first
    | with_reducible apply Steady.refl
    | (with_reducible apply Steady.chain ?_ (formCut_steady _ _) ?sub; (case sub => decide))
    | (with_reducible apply Steady.chain ?_ (drainPhase_steady _ _) ?sub; (case sub => decide))
    | (with_reducible apply Steady.chain ?_ (cutM_steady _ _ _) ?sub; (case sub => decide))
    | with_reducible apply when_moves
    | with_reducible apply Moves.next
    | split

theorem endSnapshots_steady (s : State) (n : Nat) (units : Nat) (copied : Bool) : Steady [.ckpt, .hif] s (endSnapshots s n units copied) := by
  unfold endSnapshots
  try dsimp only
  repeat' first
    | with_reducible apply Steady.refl
    | (with_reducible apply Steady.chain ?_ (State.ckptM_steady _ _) ?sub; (case sub => decide))
    | (with_reducible apply Steady.chain ?_ (completeId_steady _ _ _ _ _ _) ?sub; (case sub => decide))
    | (with_reducible apply Steady.fold ?_ (fun _ _ => ?_); all_goals try dsimp only)

theorem completeCut_steady (s : State) (c : Cut) : Steady [.ast, .lockets, .charms, .hbc, .ckpt, .hif] s (completeCut s c) := by
  unfold completeCut
  try dsimp only
  repeat' first
    | with_reducible apply Steady.refl
    | (with_reducible apply Steady.chain ?_ (freeCut_steady _ _) ?sub; (case sub => decide))
    | (with_reducible apply Steady.chain ?_ (State.ckptM_steady _ _) ?sub; (case sub => decide))
    | (with_reducible apply Steady.chain ?_ (endSnapshots_steady _ _ _ _) ?sub; (case sub => decide))

theorem execCutComplete_moves (copied : Bool) (s : State) : Moves [.ast, .lockets, .charms, .hbc, .ckpt, .hif] s (execCutComplete copied s) := by
  unfold execCutComplete
  try dsimp only
  repeat' first
    | with_reducible apply Steady.refl
    | (with_reducible apply Steady.chain ?_ (endSnapshots_steady _ _ _ _) ?sub; (case sub => decide))
    | (with_reducible apply Steady.chain ?_ (completeCut_steady _ _) ?sub; (case sub => decide))
    | with_reducible apply clocked_moves
    | with_reducible apply when_moves
    | with_reducible apply Moves.next
    | with_reducible apply Moves.ite
    | with_reducible apply Steady.ite
    | split

theorem execCutAbandon_moves (reason : Nat) (s : State) : Moves [.ast, .lockets, .charms, .extents, .hbc, .cur, .bays, .ckpt] s (execCutAbandon reason s) := by
  unfold execCutAbandon
  try dsimp only
  repeat' first
    | with_reducible apply Steady.refl
    | (with_reducible apply Steady.chain ?_ (abandonFrom_steady _ _) ?sub; (case sub => decide))
    | with_reducible apply clocked_moves
    | with_reducible apply Moves.next
    | with_reducible apply Moves.ite
    | with_reducible apply Steady.ite
    | split

theorem execSnapshot_moves (id : Nat) (s : State) : Moves [.ckpt, .hif, .std] s (execSnapshot id s) := by
  unfold execSnapshot
  try dsimp only
  repeat' first
    | with_reducible apply Steady.refl
    | (with_reducible apply hostCmd_moves ?sub ?_; (case sub => decide))
    | (with_reducible apply Steady.chain ?_ (State.ckptM_steady _ _) ?sub; (case sub => decide))
    | (with_reducible apply Steady.chain ?_ (complete_steady _ _ _ _ _ _) ?sub; (case sub => decide))
    | with_reducible apply Moves.ite
    | (intro _; try dsimp only)
    | with_reducible apply Steady.ite

theorem execManifestRead_moves (id : Nat) (s : State) : Moves [.extents, .cur, .hif, .std] s (execManifestRead id s) := by
  unfold execManifestRead
  try dsimp only
  repeat' first
    | with_reducible apply Steady.refl
    | (with_reducible apply hostCmd_moves ?sub ?_; (case sub => decide))
    | (with_reducible apply Steady.chain ?_ (complete_steady _ _ _ _ _ _) ?sub; (case sub => decide))
    | (with_reducible apply Steady.chain ?_ (submitPut_steady _ _ _ _ _ _ _) ?sub; (case sub => decide))
    | with_reducible apply Moves.ite
    | (intro _; try dsimp only)
    | with_reducible apply Steady.ite
    | with_reducible apply Steady.orElse (fun _ _ => ?_)
    | split

theorem fillPages_steady (s : State) (home : Nat) (hd : ExtHead) (plain : List Byte) (tarn : List Nat) (fs : List Nat) : Steady [.t1, .integ] s (fillPages s home hd plain tarn fs) := by
  unfold fillPages
  try dsimp only
  repeat' first
    | with_reducible apply Steady.refl
    | (with_reducible apply Steady.chain ?_ (unitPut_steady _ _ _ _) ?sub; (case sub => decide))
    | (with_reducible apply Steady.fold ?_ (fun _ _ => ?_); all_goals try dsimp only)
    | (with_reducible apply Steady.foldPair ?_ (fun _ _ => ?_); all_goals try dsimp only)

theorem tarnishBody_steady (s : State) (h : Nat) (hd : ExtHead) (tarn : List Nat) : Steady [.integ] s (tarnishBody s h hd tarn) := by
  unfold tarnishBody
  try dsimp only
  repeat' first
    | with_reducible apply Steady.refl
    | (with_reducible apply Steady.chain ?_ (State.integM_steady _ _) ?sub; (case sub => decide))
    | with_reducible apply Steady.ite
    | split

theorem install_gives (s : State) (tenant : Nat) (session : Nat) (ttls : List Nat) (hd : ExtHead) (plain : List Byte) (tarn : List Nat) (revive : Bool) : Gives [.ast, .lockets, .charms, .t1, .extents, .cur, .integ] s (install s tenant session ttls hd plain tarn revive) := by
  unfold install
  try dsimp only
  repeat' first
    | with_reducible apply Steady.refl
    | (with_reducible apply Steady.chain ?_ (takeFrames_steady _ _ _ _) ?sub; (case sub => decide))
    | (with_reducible apply Steady.chain ?_ (fillPages_steady _ _ _ _ _ _) ?sub; (case sub => decide))
    | (with_reducible apply Steady.chain ?_ (buildPromoted_steady _ _ _ _ _ _) ?sub; (case sub => decide))
    | (with_reducible apply Steady.chain ?_ (tarnishBody_steady _ _ _ _) ?sub; (case sub => decide))
    | (with_reducible apply Steady.chain ?_ ((claimReplica_yields _ _ _ _ _).frame (by assumption)) ?sub; (case sub => decide))
    | (with_reducible apply Steady.chain ?_ (beginRecompute_steady _ _ _ _ _) ?sub; (case sub => decide))
    | exact Gives.none
    | with_reducible apply Gives.some
    | with_reducible apply Gives.ite
    | with_reducible apply Steady.ite
    | (with_reducible apply Steady.first ?ee; (case ee => assumption))
    | (with_reducible apply Steady.choose ?ee; (case ee => assumption))
    | split
    | (with_reducible apply Steady.update <;> first | with_reducible exact Or.inl rfl | (apply Or.inr; decide) | (exact Or.inr ⟨by decide, fun h => by simpa using h⟩) | skip)

theorem resumeAt_steady (s : State) (q : RestoreReq) (h : Nat) (acked : Nat) (resume : Nat) (slots : List (List Byte)) : Steady [.lockets, .ckpt] s (resumeAt s q h acked resume slots) := by
  unfold resumeAt
  try dsimp only
  repeat' first
    | with_reducible apply Steady.refl
    | (with_reducible apply Steady.chain ?_ (State.locketM_steady _ _ _) ?sub; (case sub => decide))
    | (with_reducible apply Steady.chain ?_ (State.ckptM_steady _ _) ?sub; (case sub => decide))
    | with_reducible apply Steady.ite
    | with_reducible apply Steady.iteFirst
    | split

theorem restoreOne_gives (q : RestoreReq) (s : State) (e : IndexEnt) : Gives [.ast, .lockets, .charms, .t1, .extents, .cur, .integ, .ckpt] s (restoreOne q s e) := by
  unfold restoreOne
  try dsimp only
  repeat' first
    | with_reducible apply Steady.refl
    | (with_reducible apply Gives.chain ?_ (install_gives _ _ _ _ _ _ _ _) ?sub; (case sub => decide))
    | (with_reducible apply Steady.chain ?_ ((install_gives _ _ _ _ _ _ _ _).frame (by assumption)) ?sub; (case sub => decide))
    | (with_reducible apply Steady.chain ?_ (State.locketM_steady _ _ _) ?sub; (case sub => decide))
    | (with_reducible apply Steady.chain ?_ (resumeAt_steady _ _ _ _ _ _) ?sub; (case sub => decide))
    | exact Gives.none
    | with_reducible apply Gives.some
    | with_reducible apply Gives.ite
    | (with_reducible apply Gives.map; try dsimp only)
    | (intro _; try dsimp only)
    | with_reducible apply Steady.ite
    | with_reducible apply Steady.iteFirst
    | with_reducible apply Steady.orElse (fun _ _ => ?_)
    | split

theorem restoreCharmWith_steady (tenant : Nat) (digest : Nat) (ci : Nat) (home : Nat) (addr : Nat) (p : Parure) (mine : List (List Byte)) (r : List Byte) (ps : List Piece) (s : State) (x1 : Option (List Nat)) : Steady [.charms, .t1, .integ, .ckpt] s (restoreCharmWith tenant digest ci home addr p mine r ps s x1) := by
  unfold restoreCharmWith
  try dsimp only
  repeat' first
    | with_reducible apply Steady.refl
    | (with_reducible apply Steady.chain ?_ (unitPut_steady _ _ _ _) ?sub; (case sub => decide))
    | (with_reducible apply Steady.fold ?_ (fun _ _ => ?_); all_goals try dsimp only)
    | (with_reducible apply Steady.foldPair ?_ (fun _ _ => ?_); all_goals try dsimp only)
    | split
    | (with_reducible apply Steady.update <;> first | with_reducible exact Or.inl rfl | (apply Or.inr; decide) | (exact Or.inr ⟨by decide, fun h => by simpa using h⟩) | skip)

theorem restoreCharm_steady (s : State) (tenant : Nat) (digest : Nat) (records : List (List Byte)) (ps : List Piece) : Steady [.ast, .lockets, .charms, .t1, .integ, .ckpt] s (restoreCharm s tenant digest records ps) := by
  unfold restoreCharm
  try dsimp only
  repeat' first
    | with_reducible apply Steady.refl
    | (with_reducible apply Steady.chain ?_ (takeFrames_steady _ _ _ _) ?sub; (case sub => decide))
    | (with_reducible apply Steady.chain ?_ (restoreCharmWith_steady _ _ _ _ _ _ _ _ _ _ _) ?sub; (case sub => decide))
    | with_reducible apply Steady.ite
    | with_reducible apply Steady.iteFirst
    | (with_reducible apply Steady.first ?ee; (case ee => assumption))
    | split

theorem restoreCharms_steady (s : State) (q : RestoreReq) (es : List IndexEnt) : Steady [.ast, .lockets, .charms, .t1, .integ, .ckpt] s (restoreCharms s q es) := by
  unfold restoreCharms
  try dsimp only
  repeat' first
    | with_reducible apply Steady.refl
    | (with_reducible apply Steady.chain ?_ (restoreCharm_steady _ _ _ _ _) ?sub; (case sub => decide))
    | (intro _; try dsimp only)
    | with_reducible apply Steady.ite
    | (with_reducible apply Steady.fold ?_ (fun _ _ => ?_); all_goals try dsimp only)
    | (with_reducible apply Steady.foldPair ?_ (fun _ _ => ?_); all_goals try dsimp only)
    | with_reducible apply Steady.iteFirst
    | with_reducible apply Steady.orElse (fun _ _ => ?_)
    | split

theorem releaseStore_steady (s : State) (source : Nat) (v : View) : Steady [.extents, .bays] s (releaseStore s source v) := by
  unfold releaseStore
  try dsimp only
  repeat' first
    | with_reducible apply Steady.refl
    | (with_reducible apply Steady.chain ?_ (dropCopy_steady _ _ _) ?sub; (case sub => decide))
    | (with_reducible apply Steady.chain ?_ (freeExtent_steady _ _) ?sub; (case sub => decide))
    | with_reducible apply Steady.ite
    | (with_reducible apply Steady.fold ?_ (fun _ _ => ?_); all_goals try dsimp only)
    | (with_reducible apply Steady.foldPair ?_ (fun _ _ => ?_); all_goals try dsimp only)
    | with_reducible apply Steady.iteFirst

theorem restoreAll_gives (q : RestoreReq) (s : State) (es : List IndexEnt) : Gives [.ast, .lockets, .charms, .t1, .extents, .cur, .integ, .ckpt] s (restoreAll q s es) := by
  unfold restoreAll
  refine Gives.fold ?_ (.some .refl)
  intro a x
  exact .map fun r e => Steady.refl.chain ((restoreOne_gives _ _ _).frame e) (by decide)

theorem restoreEnd_steady {l : List Part} {s0 s : State} (c : HCmd) (q : RestoreReq) (source report : Nat)
    {o : Option (State × List Byte × Nat × Bool)} (hm : ∀ p ∈ [Part.extents, Part.cur, Part.bays, Part.hif], p ∈ l) (h : Steady l s0 s) (k : Gives l s0 o) :
    Steady l s0 (restoreEnd s c q source report o) := by
  unfold restoreEnd
  cases o with
  | none => exact h.chain (complete_steady _ _ _ _ _ _) (fun p r => hm p (by revert p; decide))
  | some x =>
    obtain ⟨t, rep, n, ok⟩ := x
    have ht : Steady l s0 t := k.frame rfl
    have hu : ∀ st cut, Steady l s0 (if rep.isEmpty then complete t c st n cut 0 else submitPut t c report rep st n cut) := fun st cut =>
      Steady.ite (ht.chain (complete_steady _ _ _ _ _ _) (fun p r => hm p (by revert p; decide)))
        (ht.chain (submitPut_steady _ _ _ _ _ _ _) (fun p r => hm p (by revert p; decide)))
    exact Steady.ite ((hu _ _).chain (releaseStore_steady _ _ _) (fun p r => hm p (by revert p; decide))) (hu _ _)

theorem restoreRun_steady (s : State) (c : HCmd) (q : RestoreReq) (source : Nat) (report : Nat) : Steady [.ast, .lockets, .charms, .t1, .extents, .cur, .bays, .integ, .ckpt, .hif] s (restoreRun s c q source report) := by
  unfold restoreRun
  have h : Steady [.ast, .lockets, .charms, .t1, .extents, .cur, .bays, .integ, .ckpt, .hif] s (restoreCharms s q (restoreOrder q ((manifestIndex q.view q.man).getD []))) := Steady.refl.chain (restoreCharms_steady _ _ _) (by decide)
  exact restoreEnd_steady _ _ _ _ (by decide) .refl (.chain h (restoreAll_gives _ _ _) (by decide))

theorem restoreMove_steady (s : State) (c : HCmd) (q : RestoreReq) (source : Nat) (report : Nat) : Steady [.ast, .lockets, .charms, .t1, .extents, .cur, .bays, .integ, .ckpt, .hif] s (restoreMove s c q source report) := by
  rw [restoreMove]
  split
  · exact Steady.refl.chain (complete_steady _ _ _ _ _ _) (by decide)
  · split
    · exact Steady.refl.chain (restoreRun_steady _ _ _ _ _) (by decide)
    · refine Steady.fold ?_ fun t e => ?_
      · exact Steady.refl.chain (State.ckptM_steady _ _) (by decide)
      · generalize restoreDesc s c source e = d
        exact Steady.refl.chain (submit_steady _ _) (by decide)

theorem dropRestore_steady (s : State) (id : Nat) : Steady [.ckpt] s (dropRestore s id) := by
  unfold dropRestore
  try dsimp only
  repeat' first
    | with_reducible apply Steady.refl
    | (with_reducible apply Steady.chain ?_ (State.ckptM_steady _ _) ?sub; (case sub => decide))

theorem endRestore_steady (s : State) (id : Nat) (status : Nat) : Steady [.ast, .lockets, .charms, .t1, .extents, .cur, .bays, .integ, .ckpt, .hif] s (endRestore s id status) := by
  unfold endRestore
  try dsimp only
  repeat' first
    | with_reducible apply Steady.refl
    | (with_reducible apply Steady.chain ?_ (complete_steady _ _ _ _ _ _) ?sub; (case sub => decide))
    | (with_reducible apply Steady.chain ?_ (dropRestore_steady _ _) ?sub; (case sub => decide))
    | (with_reducible apply Steady.chain ?_ (abandonFor_steady _ _) ?sub; (case sub => decide))
    | (with_reducible apply Steady.chain ?_ (restoreRun_steady _ _ _ _ _) ?sub; (case sub => decide))
    | with_reducible apply Steady.ite
    | split

theorem restoreStart_steady (params : List Byte) (select : List Byte) (resume : List Byte) (replay : List Byte) (peer : List (Nat × Nat × List Byte × List Nat)) (s : State) (c : HCmd) : Steady [.ast, .lockets, .charms, .t1, .extents, .cur, .bays, .integ, .ckpt, .hif] s (restoreStart params select resume replay peer s c) := by
  unfold restoreStart
  try dsimp only
  repeat' first
    | with_reducible apply Steady.refl
    | (with_reducible apply Steady.chain ?_ (complete_steady _ _ _ _ _ _) ?sub; (case sub => decide))
    | (with_reducible apply Steady.chain ?_ (restoreMove_steady _ _ _ _ _) ?sub; (case sub => decide))
    | (intro _; try dsimp only)
    | with_reducible apply Steady.ite
    | (with_reducible apply Steady.fold ?_ (fun _ _ => ?_); all_goals try dsimp only)
    | (with_reducible apply Steady.foldPair ?_ (fun _ _ => ?_); all_goals try dsimp only)
    | with_reducible apply Steady.iteFirst
    | with_reducible apply Steady.orElse (fun _ _ => ?_)
    | split

theorem execRestore_moves (id : Nat) (params : List Byte) (select : List Byte) (resume : List Byte) (replay : List Byte) (peer : List (Nat × Nat × List Byte × List Nat)) (s : State) : Moves [.ast, .lockets, .charms, .t1, .extents, .cur, .bays, .integ, .ckpt, .hif, .std] s (execRestore id params select resume replay peer s) := by
  unfold execRestore
  try dsimp only
  repeat' first
    | with_reducible apply Steady.refl
    | (with_reducible apply hostCmd_moves ?sub ?_; (case sub => decide))
    | (with_reducible apply Steady.chain ?_ (restoreStart_steady _ _ _ _ _ _ _) ?sub; (case sub => decide))
    | (intro _; try dsimp only)

end Sys2Proof.Machine
end

