-- ==== Sys2Proof/Laws/Frames/Ends.lean ====
section
/-!
SUPPORT. Sys2Proof/Laws/Frames/Ends.lean: what each operation of Machine/Ends.lean can change at most.
-/
namespace Sys2Proof.Machine

theorem endRing_steady (s : State) (h : Nat) (status : Nat) : Steady [.ast, .lockets, .charms, .t1, .extents, .cur, .bays, .eph, .integ, .ckpt, .hif] s (endRing s h status) := by
  unfold endRing
  try dsimp only
  repeat' first
    | with_reducible apply Steady.refl
    | (with_reducible apply Steady.chain ?_ (opened_steady _ _ _) ?sub; (case sub => decide))
    | (with_reducible apply Steady.chain ?_ (unpinReplicas_steady _ _) ?sub; (case sub => decide))
    | (with_reducible apply Steady.chain ?_ (copyRing_steady _ _) ?sub; (case sub => decide))
    | (with_reducible apply Steady.chain ?_ (completeId_steady _ _ _ _ _ _) ?sub; (case sub => decide))
    | (with_reducible apply Steady.chain ?_ (dropLocket_steady _ _) ?sub; (case sub => decide))
    | (intro _; try dsimp only)
    | with_reducible apply Steady.ite
    | with_reducible apply Steady.orElse (fun _ _ => ?_)
    | split

theorem endDesc_steady (s : State) (d : Desc) (status : Nat) : Steady [.ast, .lockets, .charms, .t1, .extents, .cur, .bays, .eph, .integ, .ckpt, .hif, .lan] s (endDesc s d status) := by
  unfold endDesc
  try dsimp only
  repeat' first
    | with_reducible apply Steady.refl
    | (with_reducible apply Steady.chain ?_ (State.curM_steady _ _) ?sub; (case sub => decide))
    | (with_reducible apply Steady.chain ?_ (failDemotion_steady _ _) ?sub; (case sub => decide))
    | (with_reducible apply Steady.chain ?_ (finishCharm_steady _ _) ?sub; (case sub => decide))
    | (with_reducible apply Steady.chain ?_ (failCharm_steady _ _) ?sub; (case sub => decide))
    | (with_reducible apply Steady.chain ?_ (finishPut_steady _ _) ?sub; (case sub => decide))
    | (with_reducible apply Steady.chain ?_ (endRing_steady _ _ _) ?sub; (case sub => decide))
    | (with_reducible apply Steady.chain ?_ (drainOn_steady _ _ _) ?sub; (case sub => decide))
    | (with_reducible apply Steady.chain ?_ (endCopy_steady _ _ _) ?sub; (case sub => decide))
    | (with_reducible apply Steady.chain ?_ (endRestore_steady _ _ _) ?sub; (case sub => decide))
    | with_reducible apply Steady.ite
    | split

theorem execCourierComplete_moves (cookie : Nat) (status : Nat) (s : State) : Moves [.ast, .lockets, .charms, .t1, .extents, .cur, .bays, .eph, .integ, .ckpt, .hif, .lan] s (execCourierComplete cookie status s) := by
  unfold execCourierComplete
  try dsimp only
  repeat' first
    | with_reducible apply Steady.refl
    | (with_reducible apply Steady.chain ?_ (removeDesc_steady _ _) ?sub; (case sub => decide))
    | (with_reducible apply Steady.chain ?_ (writeRecord_steady _ _ _) ?sub; (case sub => decide))
    | (with_reducible apply Steady.chain ?_ (undoWrite_steady _ _) ?sub; (case sub => decide))
    | (with_reducible apply Steady.chain ?_ (State.curM_steady _ _) ?sub; (case sub => decide))
    | (with_reducible apply Steady.chain ?_ (endDesc_steady _ _ _) ?sub; (case sub => decide))
    | with_reducible apply clocked_moves
    | with_reducible apply when_moves
    | with_reducible apply Moves.next
    | with_reducible apply Moves.ite
    | with_reducible apply Steady.ite
    | split

theorem execCourierAbandon_moves (cookie : Nat) (s : State) : Moves [.ast, .lockets, .charms, .t1, .extents, .cur, .bays, .eph, .integ, .ckpt, .hif, .lan] s (execCourierAbandon cookie s) := by
  unfold execCourierAbandon
  try dsimp only
  repeat' first
    | with_reducible apply Steady.refl
    | (with_reducible apply Steady.chain ?_ (failDemotion_steady _ _) ?sub; (case sub => decide))
    | (with_reducible apply Steady.chain ?_ (abandonDemotion_steady _ _ _) ?sub; (case sub => decide))
    | (with_reducible apply Steady.chain ?_ (endDesc_steady _ _ _) ?sub; (case sub => decide))
    | (with_reducible apply Steady.chain ?_ (abandonDesc_steady _ _) ?sub; (case sub => decide))
    | with_reducible apply clocked_moves
    | with_reducible apply when_moves
    | with_reducible apply Moves.next
    | with_reducible apply Moves.ite
    | with_reducible apply Steady.ite
    | split

end Sys2Proof.Machine
end

