-- ==== Sys2Proof/Laws/Frames/Meridian.lean ====
section
/-!
SUPPORT. Sys2Proof/Laws/Frames/Meridian.lean: what each operation of Machine/Meridian.lean can change at most.
-/
namespace Sys2Proof.Machine

theorem setNext_steady (s : State) (m : Nat) : Steady [.eph] s (setNext s m) := by
  unfold setNext
  try dsimp only
  repeat' first
    | with_reducible apply Steady.refl
    | (with_reducible apply Steady.chain ?_ (State.ephM_steady _ _) ?sub; (case sub => decide))
    | (with_reducible apply Steady.chain ?_ (ephEvent_steady _ _) ?sub; (case sub => decide))
    | (intro _; try dsimp only)
    | with_reducible apply Steady.ite
    | with_reducible apply Steady.iteFirst
    | with_reducible apply Steady.orElse (fun _ _ => ?_)

theorem beginFrame_steady (s : State) (m : Nat) : Steady [.eph] s (beginFrame s m) := by
  unfold beginFrame
  try dsimp only
  repeat' first
    | with_reducible apply Steady.refl
    | (with_reducible apply Steady.chain ?_ (ephEvent_steady _ _) ?sub; (case sub => decide))
    | (with_reducible apply Steady.chain ?_ (setNext_steady _ _) ?sub; (case sub => decide))
    | (with_reducible apply Steady.chain ?_ (State.ephM_steady _ _) ?sub; (case sub => decide))
    | (intro _; try dsimp only)
    | with_reducible apply Steady.ite
    | with_reducible apply Steady.iteFirst
    | with_reducible apply Steady.orElse (fun _ _ => ?_)

theorem execMeridian_moves (newest : Option Nat) (s : State) : Moves [.ast, .lockets, .charms, .hbc, .eph, .ckpt] s (execMeridian newest s) := by
  unfold execMeridian
  try dsimp only
  repeat' first
    | with_reducible apply Steady.refl
    | (with_reducible apply Steady.chain ?_ (beginFrame_steady _ _) ?sub; (case sub => decide))
    | (with_reducible apply Steady.chain ?_ (takeCut_steady _ _ _) ?sub; (case sub => decide))
    | with_reducible apply when_moves

theorem switchTables_steady (s : State) (t : EphTable) (newest : Option Nat) : Steady [.ast, .lockets, .charms, .hbc, .eph, .ckpt] s (switchTables s t newest) := by
  unfold switchTables
  try dsimp only
  repeat' first
    | with_reducible apply Steady.refl
    | (with_reducible apply Steady.chain ?_ (State.ephM_steady _ _) ?sub; (case sub => decide))
    | (with_reducible apply Steady.chain ?_ (ephEvent_steady _ _) ?sub; (case sub => decide))
    | (with_reducible apply Steady.chain ?_ (beginFrame_steady _ _) ?sub; (case sub => decide))
    | (with_reducible apply Steady.chain ?_ (takeCut_steady _ _ _) ?sub; (case sub => decide))
    | (with_reducible apply Steady.chain ?_ (setNext_steady _ _) ?sub; (case sub => decide))
    | with_reducible apply Steady.ite

theorem execSwitchAttempt_moves (newest : Option Nat) (s : State) : Moves [.ast, .lockets, .charms, .hbc, .eph, .ckpt, .hif] s (execSwitchAttempt newest s) := by
  unfold execSwitchAttempt
  try dsimp only
  repeat' first
    | with_reducible apply Steady.refl
    | (with_reducible apply Steady.chain ?_ (switchTables_steady _ _ _) ?sub; (case sub => decide))
    | (with_reducible apply Steady.chain ?_ (completeId_steady _ _ _ _ _ _) ?sub; (case sub => decide))
    | (with_reducible apply Steady.chain ?_ (ephEvent_steady _ _) ?sub; (case sub => decide))
    | (with_reducible apply Steady.chain ?_ (State.ephM_steady _ _) ?sub; (case sub => decide))
    | with_reducible apply when_moves
    | with_reducible apply Moves.next
    | split

end Sys2Proof.Machine
end

