-- ==== Sys2Proof/Laws/Frames/Domain.lean ====
section
/-!
SUPPORT. Sys2Proof/Laws/Frames/Domain.lean: what each operation of Machine/Domain.lean can change at most.
-/
namespace Sys2Proof.Machine

theorem popMsg_gives (s : State) (ty : Nat) : Gives [.std] s (popMsg s ty) := by
  unfold popMsg
  try dsimp only
  repeat' first
    | with_reducible apply Steady.refl
    | (with_reducible apply Steady.chain ?_ (State.stdM_steady _ _) ?sub; (case sub => decide))
    | exact Gives.none
    | with_reducible apply Gives.some
    | with_reducible apply Gives.ite
    | with_reducible apply Steady.ite
    | split

theorem onMsg_moves {l : List Part} {s : State} {ty : Nat} {k : State → Msg → State} (hm : ∀ p ∈ [Part.std], p ∈ l)
    (hk : ∀ t m, Steady l t (k t m)) : Moves l s (onMsg s ty k) := by
  unfold onMsg
  split
  · rename_i t m e
    refine .next ?_
    split at e
    · exact (Steady.refl.chain ((popMsg_gives _ _).frame e) hm).chain (hk _ _) (fun _ q => q)
    · cases e
  · exact .next .refl

theorem rebuddy_steady (s : State) : Steady [.ast, .lockets, .charms, .extents, .hbc, .cur, .bays, .ckpt, .std] s (rebuddy s) := by
  unfold rebuddy
  try dsimp only
  repeat' first
    | with_reducible apply Steady.refl
    | (with_reducible apply Steady.chain ?_ (abandonCuts_steady _) ?sub; (case sub => decide))
    | (with_reducible apply Steady.chain ?_ (State.stdM_steady _ _) ?sub; (case sub => decide))
    | with_reducible apply Steady.ite

theorem stopPort_steady (s : State) (n : Nat) (m : PortMode) : Steady [.std] s (stopPort s n m) := by
  unfold stopPort
  try dsimp only
  repeat' first
    | with_reducible apply Steady.refl
    | (with_reducible apply Steady.chain ?_ (State.portM_steady _ _ _) ?sub; (case sub => decide))
    | (with_reducible apply Steady.chain ?_ (stdEvent_steady _ _) ?sub; (case sub => decide))
    | (with_reducible apply Steady.chain ?_ (sendFlit_steady _ _) ?sub; (case sub => decide))
    | with_reducible apply Steady.ite
    | (with_reducible apply Steady.fold ?_ (fun _ _ => ?_); all_goals try dsimp only)

theorem freePort_steady (s : State) (n : Nat) : Steady [.std] s (freePort s n) := by
  unfold freePort
  try dsimp only
  repeat' first
    | with_reducible apply Steady.refl
    | (with_reducible apply Steady.chain ?_ (State.portM_steady _ _ _) ?sub; (case sub => decide))
    | with_reducible apply Steady.ite

theorem leaveIsolated_steady (s : State) : Steady [.integ, .hif, .std] s (leaveIsolated s) := by
  unfold leaveIsolated
  try dsimp only
  repeat' first
    | with_reducible apply Steady.refl
    | (with_reducible apply Steady.chain ?_ (releaseHeld_steady _) ?sub; (case sub => decide))
    | (with_reducible apply Steady.chain ?_ (State.integM_steady _ _) ?sub; (case sub => decide))
    | with_reducible apply Steady.ite

theorem freeObjects_steady (s : State) : Steady [.ory, .ast, .lockets, .charms, .facets, .extents, .cur, .bays, .eph, .colls, .searches, .sieves, .integ, .ckpt, .hif] s (freeObjects s) := by
  unfold freeObjects
  try dsimp only
  repeat' first
    | with_reducible apply Steady.refl
    | (with_reducible apply Steady.chain ?_ (dropLocket_steady _ _) ?sub; (case sub => decide))
    | (with_reducible apply Steady.chain ?_ (returnJoin_steady _ _) ?sub; (case sub => decide))
    | (with_reducible apply Steady.chain ?_ (undoPromotion_steady _ _) ?sub; (case sub => decide))
    | (with_reducible apply Steady.chain ?_ (abandonFor_steady _ _) ?sub; (case sub => decide))
    | (with_reducible apply Steady.chain ?_ (abandonDemotion_steady _ _ _) ?sub; (case sub => decide))
    | (with_reducible apply Steady.chain ?_ (freeCharm_steady _ _) ?sub; (case sub => decide))
    | (with_reducible apply Steady.chain ?_ (dropSearch_steady _ _) ?sub; (case sub => decide))
    | (with_reducible apply Steady.chain ?_ (dropMergeJob_steady _ _) ?sub; (case sub => decide))
    | (with_reducible apply Steady.chain ?_ (State.astM_steady _ _) ?sub; (case sub => decide))
    | (with_reducible apply Steady.chain ?_ (State.ephM_steady _ _) ?sub; (case sub => decide))
    | (with_reducible apply Steady.fold ?_ (fun _ _ => ?_); all_goals try dsimp only)
    | (with_reducible apply Steady.foldPair ?_ (fun _ _ => ?_); all_goals try dsimp only)
    | split
    | (with_reducible apply Steady.update <;> first | with_reducible exact Or.inl rfl | (apply Or.inr; decide) | (exact Or.inr ⟨by decide, fun h => by simpa using h⟩) | skip)

theorem adoptEpoch_steady (s : State) (e : Nat) (set : Nat) : Steady [.ory, .ast, .lockets, .charms, .facets, .extents, .hbc, .cur, .bays, .eph, .colls, .searches, .sieves, .integ, .ckpt, .hif, .std, .lan] s (adoptEpoch s e set) := by
  unfold adoptEpoch
  try dsimp only
  repeat' first
    | with_reducible apply Steady.refl
    | (with_reducible apply Steady.chain ?_ (freeObjects_steady _) ?sub; (case sub => decide))
    | (with_reducible apply Steady.chain ?_ (setStd_steady _ _) ?sub; (case sub => decide))
    | (with_reducible apply Steady.chain ?_ (State.stdM_steady _ _) ?sub; (case sub => decide))
    | (with_reducible apply Steady.chain ?_ (rebuddy_steady _) ?sub; (case sub => decide))
    | (with_reducible apply Steady.chain ?_ (stdEvent_steady _ _) ?sub; (case sub => decide))
    | (with_reducible apply Steady.chain ?_ (State.lanM_steady _ _) ?sub; (case sub => decide))
    | (with_reducible apply Steady.chain ?_ (State.integM_steady _ _) ?sub; (case sub => decide))
    | (with_reducible apply Steady.chain ?_ (freePort_steady _ _) ?sub; (case sub => decide))
    | (intro _; try dsimp only)
    | with_reducible apply Steady.ite
    | (with_reducible apply Steady.fold ?_ (fun _ _ => ?_); all_goals try dsimp only)
    | with_reducible apply Steady.orElse (fun _ _ => ?_)

theorem adoptPrepared_steady (s : State) : Steady [.ory, .ast, .lockets, .charms, .facets, .extents, .hbc, .cur, .bays, .eph, .colls, .searches, .sieves, .integ, .ckpt, .hif, .std, .lan] s (adoptPrepared s) := by
  unfold adoptPrepared
  try dsimp only
  repeat' first
    | with_reducible apply Steady.refl
    | (with_reducible apply Steady.chain ?_ (adoptEpoch_steady _ _ _) ?sub; (case sub => decide))
    | split

theorem discardPrepared_steady (s : State) : Steady [.std, .lan] s (discardPrepared s) := by
  unfold discardPrepared
  try dsimp only
  repeat' first
    | with_reducible apply Steady.refl
    | (with_reducible apply Steady.chain ?_ (setStd_steady _ _) ?sub; (case sub => decide))
    | (with_reducible apply Steady.chain ?_ (State.stdM_steady _ _) ?sub; (case sub => decide))
    | with_reducible apply Steady.ite
    | split

theorem quarantine_steady (s : State) (port : Nat) (src : Nat) (detail : Nat) : Steady [.ory, .parures, .ast, .lockets, .charms, .t1, .extents, .cur, .bays, .eph, .colls, .searches, .selects, .sieves, .integ, .ckpt, .hif, .std, .lan] s (quarantine s port src detail) := by
  unfold quarantine
  try dsimp only
  repeat' first
    | with_reducible apply Steady.refl
    | (with_reducible apply Steady.chain ?_ (releaseHeld_steady _) ?sub; (case sub => decide))
    | (with_reducible apply Steady.chain ?_ (State.integM_steady _ _) ?sub; (case sub => decide))
    | (with_reducible apply Steady.chain ?_ (abandonDemotion_steady _ _ _) ?sub; (case sub => decide))
    | (with_reducible apply Steady.chain ?_ (fenceAll_steady _) ?sub; (case sub => decide))
    | (with_reducible apply Steady.chain ?_ (stopPort_steady _ _ _) ?sub; (case sub => decide))
    | (with_reducible apply Steady.chain ?_ (forceDetach_steady _ _) ?sub; (case sub => decide))
    | (with_reducible apply Steady.chain ?_ (stdEvent_steady _ _) ?sub; (case sub => decide))
    | (with_reducible apply Steady.chain ?_ (State.stdM_steady _ _) ?sub; (case sub => decide))
    | (with_reducible apply Steady.chain ?_ (setStd_steady _ _) ?sub; (case sub => decide))
    | (with_reducible apply Steady.chain ?_ (State.lanM_steady _ _) ?sub; (case sub => decide))
    | (with_reducible apply Steady.chain ?_ (logFault_steady _ _ _ _ _ _ _) ?sub; (case sub => decide))
    | (with_reducible apply Steady.chain ?_ (intEvent_steady _ _) ?sub; (case sub => decide))
    | with_reducible apply Steady.ite
    | (with_reducible apply Steady.fold ?_ (fun _ _ => ?_); all_goals try dsimp only)
    | (with_reducible apply Steady.foldPair ?_ (fun _ _ => ?_); all_goals try dsimp only)
    | with_reducible apply Steady.iteFirst

theorem staleSender_steady (s : State) (port : Nat) (src : Nat) (e : Nat) : Steady [.integ, .std, .lan] s (staleSender s port src e) := by
  unfold staleSender
  try dsimp only
  repeat' first
    | with_reducible apply Steady.refl
    | (with_reducible apply Steady.chain ?_ (logFault_steady _ _ _ _ _ _ _) ?sub; (case sub => decide))
    | (with_reducible apply Steady.chain ?_ (intEvent_steady _ _) ?sub; (case sub => decide))
    | (with_reducible apply Steady.chain ?_ (State.integM_steady _ _) ?sub; (case sub => decide))
    | (with_reducible apply Steady.chain ?_ (sendMsg_steady _ _ _) ?sub; (case sub => decide))
    | (with_reducible apply Steady.chain ?_ (State.stdM_steady _ _) ?sub; (case sub => decide))
    | with_reducible apply Steady.ite
    | split

theorem judge_steady (s : State) (port : Nat) (src : Nat) (e : Nat) : Steady [.ory, .parures, .ast, .lockets, .charms, .facets, .t1, .extents, .hbc, .cur, .bays, .eph, .colls, .searches, .selects, .sieves, .integ, .ckpt, .hif, .std, .lan] s (judge s port src e).1 := by
  unfold judge
  try dsimp only
  repeat' first
    | with_reducible apply Steady.refl
    | (with_reducible apply Steady.chain ?_ (staleSender_steady _ _ _ _) ?sub; (case sub => decide))
    | (with_reducible apply Steady.chain ?_ (quarantine_steady _ _ _ _) ?sub; (case sub => decide))
    | (with_reducible apply Steady.chain ?_ (adoptPrepared_steady _) ?sub; (case sub => decide))
    | with_reducible apply Steady.ite
    | with_reducible apply Steady.iteFirst
    | split

theorem passMember_steady (s : State) (m : Msg) : Steady [.std] s (passMember s m) := by
  unfold passMember
  try dsimp only
  repeat' first
    | with_reducible apply Steady.refl
    | (with_reducible apply Steady.chain ?_ (flood_steady _ _ _) ?sub; (case sub => decide))
    | (with_reducible apply Steady.chain ?_ (State.stdM_steady _ _) ?sub; (case sub => decide))
    | with_reducible apply Steady.ite

theorem floodMember_steady (s : State) (ty : Nat) (epoch : Nat) (coord : Nat) (set : Nat) : Steady [.std] s (floodMember s ty epoch coord set) := by
  unfold floodMember
  try dsimp only
  repeat' first
    | with_reducible apply Steady.refl
    | (with_reducible apply Steady.chain ?_ (flood_steady _ _ _) ?sub; (case sub => decide))
    | (with_reducible apply Steady.chain ?_ (State.stdM_steady _ _) ?sub; (case sub => decide))
    | with_reducible apply Steady.ite

theorem finishChange_steady (s : State) (c : MemberChange) : Steady [.ory, .ast, .lockets, .charms, .facets, .extents, .hbc, .cur, .bays, .eph, .colls, .searches, .sieves, .integ, .ckpt, .hif, .std, .lan] s (finishChange s c) := by
  unfold finishChange
  try dsimp only
  repeat' first
    | with_reducible apply Steady.refl
    | (with_reducible apply Steady.chain ?_ (floodMember_steady _ _ _ _ _) ?sub; (case sub => decide))
    | (with_reducible apply Steady.chain ?_ (adoptEpoch_steady _ _ _) ?sub; (case sub => decide))
    | (with_reducible apply Steady.chain ?_ (State.stdM_steady _ _) ?sub; (case sub => decide))

theorem refuseChange_steady (s : State) : Steady [.std] s (refuseChange s) := by
  unfold refuseChange
  try dsimp only
  repeat' first
    | with_reducible apply Steady.refl
    | (with_reducible apply Steady.chain ?_ (stdEvent_steady _ _) ?sub; (case sub => decide))
    | (with_reducible apply Steady.chain ?_ (State.stdM_steady _ _) ?sub; (case sub => decide))

theorem startChange_steady (s : State) (epoch : Nat) (set : Nat) : Steady [.ory, .ast, .lockets, .charms, .facets, .extents, .hbc, .cur, .bays, .eph, .colls, .searches, .sieves, .integ, .ckpt, .hif, .std, .lan] s (startChange s epoch set) := by
  unfold startChange
  try dsimp only
  repeat' first
    | with_reducible apply Steady.refl
    | (with_reducible apply Steady.chain ?_ (refuseChange_steady _) ?sub; (case sub => decide))
    | (with_reducible apply Steady.chain ?_ (setStd_steady _ _) ?sub; (case sub => decide))
    | (with_reducible apply Steady.chain ?_ (State.stdM_steady _ _) ?sub; (case sub => decide))
    | (with_reducible apply Steady.chain ?_ (floodMember_steady _ _ _ _ _) ?sub; (case sub => decide))
    | (with_reducible apply Steady.chain ?_ (finishChange_steady _ _) ?sub; (case sub => decide))
    | with_reducible apply Steady.ite

theorem prepareFor_steady (s : State) (m : Msg) (was : Bool) : Steady [.std, .lan] s (prepareFor s m was) := by
  unfold prepareFor
  try dsimp only
  repeat' first
    | with_reducible apply Steady.refl
    | (with_reducible apply Steady.chain ?_ (setStd_steady _ _) ?sub; (case sub => decide))
    | (with_reducible apply Steady.chain ?_ (State.stdM_steady _ _) ?sub; (case sub => decide))
    | (with_reducible apply Steady.chain ?_ (sendMsg_steady _ _ _) ?sub; (case sub => decide))

theorem prepareAgain_steady (s : State) (p : Prepared) (m : Msg) : Steady [.std, .lan] s (prepareAgain s p m) := by
  unfold prepareAgain
  try dsimp only
  repeat' first
    | with_reducible apply Steady.refl
    | (with_reducible apply Steady.chain ?_ (refuseChange_steady _) ?sub; (case sub => decide))
    | (with_reducible apply Steady.chain ?_ (State.stdM_steady _ _) ?sub; (case sub => decide))
    | (with_reducible apply Steady.chain ?_ (prepareFor_steady _ _ _) ?sub; (case sub => decide))
    | with_reducible apply Steady.ite

theorem execPrepare_moves (s : State) : Moves [.std, .lan] s (execPrepare s) := by
  unfold execPrepare
  try dsimp only
  repeat' first
    | with_reducible apply Steady.refl
    | (with_reducible apply onMsg_moves ?sub ?_; (case sub => decide))
    | (with_reducible apply Steady.chain ?_ (passMember_steady _ _) ?sub; (case sub => decide))
    | (with_reducible apply Steady.chain ?_ (prepareFor_steady _ _ _) ?sub; (case sub => decide))
    | (with_reducible apply Steady.chain ?_ (prepareAgain_steady _ _ _) ?sub; (case sub => decide))
    | with_reducible apply Moves.ite
    | (intro _; try dsimp only)
    | with_reducible apply Steady.ite
    | split

theorem execMemberAck_moves (s : State) : Moves [.ory, .ast, .lockets, .charms, .facets, .extents, .hbc, .cur, .bays, .eph, .colls, .searches, .sieves, .integ, .ckpt, .hif, .std, .lan] s (execMemberAck s) := by
  unfold execMemberAck
  try dsimp only
  repeat' first
    | with_reducible apply Steady.refl
    | (with_reducible apply onMsg_moves ?sub ?_; (case sub => decide))
    | (with_reducible apply Steady.chain ?_ (State.stdM_steady _ _) ?sub; (case sub => decide))
    | (with_reducible apply Steady.chain ?_ (finishChange_steady _ _) ?sub; (case sub => decide))
    | with_reducible apply Moves.ite
    | (intro _; try dsimp only)
    | with_reducible apply Steady.ite
    | split

theorem execCommit_moves (s : State) : Moves [.ory, .parures, .ast, .lockets, .charms, .facets, .t1, .extents, .hbc, .cur, .bays, .eph, .colls, .searches, .selects, .sieves, .integ, .ckpt, .hif, .std, .lan] s (execCommit s) := by
  unfold execCommit
  try dsimp only
  repeat' first
    | with_reducible apply Steady.refl
    | (with_reducible apply onMsg_moves ?sub ?_; (case sub => decide))
    | (with_reducible apply Steady.chain ?_ (passMember_steady _ _) ?sub; (case sub => decide))
    | (with_reducible apply Steady.chain ?_ (adoptPrepared_steady _) ?sub; (case sub => decide))
    | (with_reducible apply Steady.chain ?_ (quarantine_steady _ _ _ _) ?sub; (case sub => decide))
    | with_reducible apply Moves.ite
    | (intro _; try dsimp only)
    | with_reducible apply Steady.ite
    | split

theorem execAbort_moves (s : State) : Moves [.std, .lan] s (execAbort s) := by
  unfold execAbort
  try dsimp only
  repeat' first
    | with_reducible apply Steady.refl
    | (with_reducible apply onMsg_moves ?sub ?_; (case sub => decide))
    | (with_reducible apply Steady.chain ?_ (passMember_steady _ _) ?sub; (case sub => decide))
    | (with_reducible apply Steady.chain ?_ (discardPrepared_steady _) ?sub; (case sub => decide))
    | with_reducible apply Moves.ite
    | (intro _; try dsimp only)
    | with_reducible apply Steady.ite
    | split

theorem staleDescs_steady (s : State) (peer : Nat) : Steady [.cur] s (staleDescs s peer) := by
  unfold staleDescs
  try dsimp only
  repeat' first
    | with_reducible apply Steady.refl
    | (with_reducible apply Steady.chain ?_ (State.curM_steady _ _) ?sub; (case sub => decide))
    | (intro _; try dsimp only)
    | with_reducible apply Steady.ite
    | with_reducible apply Steady.iteFirst
    | with_reducible apply Steady.orElse (fun _ _ => ?_)

theorem execStale_moves (s : State) : Moves [.ory, .parures, .ast, .lockets, .charms, .facets, .t1, .extents, .hbc, .cur, .bays, .eph, .colls, .searches, .selects, .sieves, .integ, .ckpt, .hif, .std, .lan] s (execStale s) := by
  unfold execStale
  try dsimp only
  repeat' first
    | with_reducible apply Steady.refl
    | (with_reducible apply onMsg_moves ?sub ?_; (case sub => decide))
    | (with_reducible apply Steady.chain ?_ (staleDescs_steady _ _) ?sub; (case sub => decide))
    | (with_reducible apply Steady.chain ?_ (adoptPrepared_steady _) ?sub; (case sub => decide))
    | (with_reducible apply Steady.chain ?_ (quarantine_steady _ _ _ _) ?sub; (case sub => decide))
    | with_reducible apply Moves.ite
    | (intro _; try dsimp only)
    | with_reducible apply Steady.ite
    | split

theorem execMemberAckTimeout_moves (s : State) : Moves [.std, .lan] s (execMemberAckTimeout s) := by
  unfold execMemberAckTimeout
  try dsimp only
  repeat' first
    | with_reducible apply Steady.refl
    | (with_reducible apply Steady.chain ?_ (floodMember_steady _ _ _ _ _) ?sub; (case sub => decide))
    | (with_reducible apply Steady.chain ?_ (stdEvent_steady _ _) ?sub; (case sub => decide))
    | (with_reducible apply Steady.chain ?_ (State.stdM_steady _ _) ?sub; (case sub => decide))
    | (with_reducible apply Steady.chain ?_ (discardPrepared_steady _) ?sub; (case sub => decide))
    | with_reducible apply when_moves
    | with_reducible apply Moves.next
    | split

theorem execPrepareTimeout_moves (s : State) : Moves [.std, .lan] s (execPrepareTimeout s) := by
  unfold execPrepareTimeout
  try dsimp only
  repeat' first
    | with_reducible apply Steady.refl
    | (with_reducible apply Steady.chain ?_ (discardPrepared_steady _) ?sub; (case sub => decide))
    | with_reducible apply when_moves
    | with_reducible apply Moves.next
    | split

theorem settleEnum_steady (s : State) : Steady [.std, .lan] s (settleEnum s) := by
  unfold settleEnum
  try dsimp only
  repeat' first
    | with_reducible apply Steady.refl
    | (with_reducible apply Steady.chain ?_ (setStd_steady _ _) ?sub; (case sub => decide))
    | with_reducible apply Steady.ite

theorem adoptPosition_steady (s : State) (p : Nat) : Steady [.std, .lan] s (adoptPosition s p) := by
  unfold adoptPosition
  try dsimp only
  repeat' first
    | with_reducible apply Steady.refl
    | (with_reducible apply Steady.chain ?_ (settleEnum_steady _) ?sub; (case sub => decide))
    | (with_reducible apply Steady.chain ?_ (State.stdM_steady _ _) ?sub; (case sub => decide))
    | (with_reducible apply Steady.chain ?_ (stdEvent_steady _ _) ?sub; (case sub => decide))
    | with_reducible apply Steady.ite

theorem execEnumWordReceive_moves (word : Nat) (s : State) : Moves [.std, .lan] s (execEnumWordReceive word s) := by
  unfold execEnumWordReceive
  try dsimp only
  repeat' first
    | with_reducible apply Steady.refl
    | (with_reducible apply Steady.chain ?_ (State.stdM_steady _ _) ?sub; (case sub => decide))
    | (with_reducible apply Steady.chain ?_ (stdEvent_steady _ _) ?sub; (case sub => decide))
    | (with_reducible apply Steady.chain ?_ (adoptPosition_steady _ _) ?sub; (case sub => decide))
    | with_reducible apply formed_moves
    | with_reducible apply when_moves
    | with_reducible apply Moves.ite
    | with_reducible apply Steady.ite

theorem execEnumWordSend_moves (s : State) : Moves [.std] s (execEnumWordSend s) := by
  unfold execEnumWordSend
  try dsimp only
  repeat' first
    | with_reducible apply Steady.refl
    | (with_reducible apply Steady.chain ?_ (State.stdM_steady _ _) ?sub; (case sub => decide))
    | with_reducible apply when_moves
    | with_reducible apply Moves.next
    | split

theorem recordCount_steady (s : State) (n : Nat) : Steady [.std] s (recordCount s n) := by
  unfold recordCount
  try dsimp only
  repeat' first
    | with_reducible apply Steady.refl
    | (with_reducible apply Steady.chain ?_ (State.stdM_steady _ _) ?sub; (case sub => decide))
    | (with_reducible apply Steady.chain ?_ (stdEvent_steady _ _) ?sub; (case sub => decide))
    | (with_reducible apply Steady.chain ?_ (sendPort_steady _ _ _) ?sub; (case sub => decide))
    | with_reducible apply Steady.ite

theorem execChainCount_moves (s : State) : Moves [.std] s (execChainCount s) := by
  unfold execChainCount
  try dsimp only
  repeat' first
    | with_reducible apply Steady.refl
    | (with_reducible apply onMsg_moves ?sub ?_; (case sub => decide))
    | (with_reducible apply Steady.chain ?_ (recordCount_steady _ _) ?sub; (case sub => decide))
    | with_reducible apply Moves.ite
    | (intro _; try dsimp only)
    | with_reducible apply Steady.ite

theorem execTailTimeout_moves (s : State) : Moves [.std, .lan] s (execTailTimeout s) := by
  unfold execTailTimeout
  try dsimp only
  repeat' first
    | with_reducible apply Steady.refl
    | (with_reducible apply Steady.chain ?_ (settleEnum_steady _) ?sub; (case sub => decide))
    | (with_reducible apply Steady.chain ?_ (recordCount_steady _ _) ?sub; (case sub => decide))
    | (with_reducible apply Steady.chain ?_ (State.stdM_steady _ _) ?sub; (case sub => decide))
    | with_reducible apply when_moves
    | with_reducible apply Moves.next
    | split

theorem execBeaconSend_moves (s : State) : Moves [.std] s (execBeaconSend s) := by
  unfold execBeaconSend
  try dsimp only
  repeat' first
    | with_reducible apply Steady.refl
    | (with_reducible apply Steady.chain ?_ (flood_steady _ _ _) ?sub; (case sub => decide))
    | (with_reducible apply Steady.chain ?_ (State.stdM_steady _ _) ?sub; (case sub => decide))
    | with_reducible apply when_moves
    | with_reducible apply Moves.ite
    | with_reducible apply Steady.ite
    | with_reducible apply Steady.iteFirst

theorem takeTime_steady (s : State) (m : Msg) (arrive : Nat) : Steady [.std] s (takeTime s m arrive) := by
  unfold takeTime
  try dsimp only
  repeat' first
    | with_reducible apply Steady.refl
    | (with_reducible apply Steady.chain ?_ (State.stdM_steady _ _) ?sub; (case sub => decide))
    | with_reducible apply Steady.ite

theorem acceptBeacon_steady (s : State) (m : Msg) (arrive : Nat) (residence : Nat) : Steady [.integ, .hif, .std] s (acceptBeacon s m arrive residence) := by
  unfold acceptBeacon
  try dsimp only
  repeat' first
    | with_reducible apply Steady.refl
    | (with_reducible apply Steady.chain ?_ (leaveIsolated_steady _) ?sub; (case sub => decide))
    | (with_reducible apply Steady.chain ?_ (State.portM_steady _ _ _) ?sub; (case sub => decide))
    | (with_reducible apply Steady.chain ?_ (State.stdM_steady _ _) ?sub; (case sub => decide))
    | (with_reducible apply Steady.chain ?_ (flood_steady _ _ _) ?sub; (case sub => decide))
    | (with_reducible apply Steady.chain ?_ (takeTime_steady _ _ _) ?sub; (case sub => decide))
    | with_reducible apply Steady.ite

theorem execBeacon_moves (arrive : Nat) (residence : Nat) (s : State) : Moves [.ory, .parures, .ast, .lockets, .charms, .facets, .t1, .extents, .hbc, .cur, .bays, .eph, .colls, .searches, .selects, .sieves, .integ, .ckpt, .hif, .std, .lan] s (execBeacon arrive residence s) := by
  unfold execBeacon
  try dsimp only
  repeat' first
    | with_reducible apply Steady.refl
    | (with_reducible apply onMsg_moves ?sub ?_; (case sub => decide))
    | (with_reducible apply Steady.chain ?_ (judge_steady _ _ _ _) ?sub; (case sub => decide))
    | (with_reducible apply Steady.chain ?_ (acceptBeacon_steady _ _ _ _) ?sub; (case sub => decide))
    | (intro _; try dsimp only)
    | (with_reducible apply Steady.first ?ee; (case ee => assumption))
    | split

theorem execTimePortLost_moves (s : State) : Moves [.std] s (execTimePortLost s) := by
  unfold execTimePortLost
  try dsimp only
  repeat' first
    | with_reducible apply Steady.refl
    | (with_reducible apply Steady.chain ?_ (stdEvent_steady _ _) ?sub; (case sub => decide))
    | (with_reducible apply Steady.chain ?_ (State.stdM_steady _ _) ?sub; (case sub => decide))
    | with_reducible apply when_moves
    | (intro _; try dsimp only)
    | with_reducible apply Steady.orElse (fun _ _ => ?_)

theorem execDelayMeasure_moves (port : Nat) (stamp : Nat) (s : State) : Moves [.std] s (execDelayMeasure port stamp s) := by
  unfold execDelayMeasure
  try dsimp only
  repeat' first
    | with_reducible apply Steady.refl
    | (with_reducible apply Steady.chain ?_ (sendPort_steady _ _ _) ?sub; (case sub => decide))
    | (with_reducible apply Steady.chain ?_ (State.portM_steady _ _ _) ?sub; (case sub => decide))
    | with_reducible apply formed_moves
    | with_reducible apply when_moves
    | split

theorem execDelayReq_moves (arrive : Nat) (leave : Nat) (s : State) : Moves [.std] s (execDelayReq arrive leave s) := by
  unfold execDelayReq
  try dsimp only
  repeat' first
    | with_reducible apply Steady.refl
    | (with_reducible apply onMsg_moves ?sub ?_; (case sub => decide))
    | (with_reducible apply Steady.chain ?_ (sendPort_steady _ _ _) ?sub; (case sub => decide))
    | (intro _; try dsimp only)

theorem execDelayResp_moves (arrive : Nat) (s : State) : Moves [.std] s (execDelayResp arrive s) := by
  unfold execDelayResp
  try dsimp only
  repeat' first
    | with_reducible apply Steady.refl
    | (with_reducible apply onMsg_moves ?sub ?_; (case sub => decide))
    | (with_reducible apply Steady.chain ?_ (State.portM_steady _ _ _) ?sub; (case sub => decide))
    | with_reducible apply Moves.ite
    | (intro _; try dsimp only)
    | with_reducible apply Steady.ite

theorem execIsolationTimeout_moves (s : State) : Moves [.ory, .integ, .lan] s (execIsolationTimeout s) := by
  unfold execIsolationTimeout
  try dsimp only
  repeat' first
    | with_reducible apply Steady.refl
    | (with_reducible apply Steady.chain ?_ (logFault_steady _ _ _ _ _ _ _) ?sub; (case sub => decide))
    | (with_reducible apply Steady.chain ?_ (intEvent_steady _ _) ?sub; (case sub => decide))
    | (with_reducible apply Steady.chain ?_ (State.integM_steady _ _) ?sub; (case sub => decide))
    | (with_reducible apply Steady.chain ?_ (askPreempt_steady _) ?sub; (case sub => decide))
    | with_reducible apply when_moves
    | split

end Sys2Proof.Machine
end

