-- ==== Sys2Proof/Laws/Frames/Links.lean ====
section
/-!
SUPPORT. Sys2Proof/Laws/Frames/Links.lean: what each operation of Machine/Links.lean can change at most.
-/
namespace Sys2Proof.Machine

theorem dropIn_steady (s : State) (x : Xfer) : Steady [.std] s (dropIn s x) := by
  unfold dropIn
  try dsimp only
  repeat' first
    | with_reducible apply Steady.refl
    | (with_reducible apply Steady.chain ?_ (State.stdM_steady _ _) ?sub; (case sub => decide))
    | with_reducible apply Steady.ite

theorem endFetch_steady (s : State) (x : Xfer) (status : Nat) : Steady [.parures, .cur] s (endFetch s x status) := by
  unfold endFetch
  try dsimp only
  repeat' first
    | with_reducible apply Steady.refl
    | (with_reducible apply Steady.chain ?_ (State.curM_steady _ _) ?sub; (case sub => decide))
    | (intro _; try dsimp only)
    | with_reducible apply Steady.ite
    | (with_reducible apply Steady.fold ?_ (fun _ _ => ?_); all_goals try dsimp only)
    | (with_reducible apply Steady.foldPair ?_ (fun _ _ => ?_); all_goals try dsimp only)
    | with_reducible apply Steady.iteFirst
    | with_reducible apply Steady.orElse (fun _ _ => ?_)
    | split
    | (with_reducible apply Steady.update <;> first | with_reducible exact Or.inl rfl | (apply Or.inr; decide) | (exact Or.inr ⟨by decide, fun h => by simpa using h⟩) | skip)

theorem failXfer_steady (s : State) (x : Xfer) : Steady [.parures, .extents, .cur, .bays, .std] s (failXfer s x) := by
  unfold failXfer
  try dsimp only
  repeat' first
    | with_reducible apply Steady.refl
    | (with_reducible apply Steady.chain ?_ (dropIn_steady _ _) ?sub; (case sub => decide))
    | (with_reducible apply Steady.chain ?_ (endFetch_steady _ _ _) ?sub; (case sub => decide))
    | (with_reducible apply Steady.chain ?_ (dropExtent_steady _ _) ?sub; (case sub => decide))
    | (with_reducible apply Steady.chain ?_ (sendMsg_steady _ _ _) ?sub; (case sub => decide))
    | with_reducible apply Steady.ite
    | split

theorem endXfer_steady (s : State) (x : Xfer) : Steady [.parures, .extents, .lpc, .cur, .bays, .std, .hostMem] s (endXfer s x) := by
  unfold endXfer
  try dsimp only
  repeat' first
    | with_reducible apply Steady.refl
    | (with_reducible apply Steady.chain ?_ (dropIn_steady _ _) ?sub; (case sub => decide))
    | (with_reducible apply Steady.chain ?_ (receiveUnits_steady _ _ _ _ _) ?sub; (case sub => decide))
    | (with_reducible apply Steady.chain ?_ (endFetch_steady _ _ _) ?sub; (case sub => decide))
    | (with_reducible apply Steady.chain ?_ (sendMsg_steady _ _ _) ?sub; (case sub => decide))
    | with_reducible apply Steady.ite
    | (with_reducible apply Steady.update <;> first | with_reducible exact Or.inl rfl | (apply Or.inr; decide) | (exact Or.inr ⟨by decide, fun h => by simpa using h⟩) | skip)
    | exact Or.inr ⟨by decide, writeN_wf _ _⟩
    | exact Or.inr ⟨by decide, write_wf _ _⟩
    | exact Or.inr ⟨by decide, clear_wf _ _⟩
    | exact Or.inr ⟨by decide, copyFrom_wf _ _ _ _⟩
    | exact Or.inr ⟨by decide, clearAll_wf _ _ _⟩
    | exact Or.inr ⟨by decide, fun _ => rfl⟩

theorem takeFlit_steady (s : State) (x : Xfer) (f : Flit) : Steady [.parures, .extents, .lpc, .cur, .bays, .std, .hostMem] s (takeFlit s x f) := by
  unfold takeFlit
  try dsimp only
  repeat' first
    | with_reducible apply Steady.refl
    | (with_reducible apply Steady.chain ?_ (failXfer_steady _ _) ?sub; (case sub => decide))
    | (with_reducible apply Steady.chain ?_ (State.stdM_steady _ _) ?sub; (case sub => decide))
    | (with_reducible apply Steady.chain ?_ (endXfer_steady _ _) ?sub; (case sub => decide))
    | with_reducible apply Steady.ite

theorem unitArrives_steady (s : State) (port : Nat) (f : Flit) : Steady [.ory, .parures, .ast, .lockets, .charms, .facets, .t1, .extents, .hbc, .lpc, .cur, .bays, .eph, .colls, .searches, .selects, .sieves, .integ, .ckpt, .hif, .std, .lan, .hostMem] s (unitArrives s port f) := by
  unfold unitArrives
  try dsimp only
  repeat' first
    | with_reducible apply Steady.refl
    | (with_reducible apply Steady.chain ?_ (judge_steady _ _ _ _) ?sub; (case sub => decide))
    | (with_reducible apply Steady.chain ?_ (takeFlit_steady _ _ _) ?sub; (case sub => decide))
    | (with_reducible apply Steady.chain ?_ (State.stdM_steady _ _) ?sub; (case sub => decide))
    | with_reducible apply Steady.ite
    | (with_reducible apply Steady.first ?ee; (case ee => assumption))
    | split

theorem beginXfer_steady (s : State) (x : Xfer) : Steady [.parures, .extents, .lpc, .cur, .bays, .std, .hostMem] s (beginXfer s x) := by
  unfold beginXfer
  try dsimp only
  repeat' first
    | with_reducible apply Steady.refl
    | (with_reducible apply Steady.chain ?_ (State.stdM_steady _ _) ?sub; (case sub => decide))
    | (with_reducible apply Steady.chain ?_ (dropIn_steady _ _) ?sub; (case sub => decide))
    | (with_reducible apply Steady.chain ?_ (takeFlit_steady _ _ _) ?sub; (case sub => decide))
    | (with_reducible apply Steady.chain ?_ (endXfer_steady _ _) ?sub; (case sub => decide))
    | with_reducible apply Steady.ite
    | (with_reducible apply Steady.fold ?_ (fun _ _ => ?_); all_goals try dsimp only)
    | split

theorem execTransferTimeout_moves (peer : Nat) (num : Nat) (s : State) : Moves [.parures, .extents, .cur, .bays, .std] s (execTransferTimeout peer num s) := by
  unfold execTransferTimeout
  try dsimp only
  repeat' first
    | with_reducible apply Steady.refl
    | (with_reducible apply Steady.chain ?_ (failXfer_steady _ _) ?sub; (case sub => decide))
    | with_reducible apply when_moves
    | with_reducible apply Moves.next
    | split

theorem onRouted_moves {l : List Part} {s : State} {ty : Nat} {k : State → Msg → State} (hm : ∀ p ∈ [Part.ory, Part.parures, Part.ast, Part.lockets, Part.charms, Part.facets, Part.t1, Part.extents, Part.hbc, Part.cur, Part.bays, Part.eph, Part.colls, Part.searches, Part.selects, Part.sieves, Part.integ, Part.ckpt, Part.hif, Part.std, Part.lan], p ∈ l)
    (hk : ∀ t m, Steady l t (k t m)) : Moves l s (onRouted s ty k) := by
  unfold onRouted
  refine Moves.ite (.next .refl) (onMsg_moves (fun p q => hm p (by revert p; decide)) fun t m => ?_)
  have h := Steady.refl.chain (judge_steady t m.port m.src m.epoch) hm
  split
  · rename_i u e
    exact (Steady.first e h).chain (hk _ _) (fun _ q => q)
  · rename_i u e
    exact Steady.first e h

theorem setupSend_steady (s : State) (m : Msg) : Steady [.parures, .extents, .lpc, .cur, .bays, .std, .hostMem] s (setupSend s m) := by
  unfold setupSend
  try dsimp only
  repeat' first
    | with_reducible apply Steady.refl
    | (with_reducible apply Steady.chain ?_ (beginXfer_steady _ _) ?sub; (case sub => decide))
    | (with_reducible apply Steady.chain ?_ (sendMsg_steady _ _ _) ?sub; (case sub => decide))
    | (with_reducible apply Steady.chain ?_ ((beginReceived_yields _ _ _).frame (by assumption)) ?sub; (case sub => decide))
    | with_reducible apply Steady.ite
    | (with_reducible apply Steady.choose ?ee; (case ee => assumption))
    | split

theorem setupFetch_steady (s : State) (m : Msg) : Steady [.extents, .cur, .std] s (setupFetch s m) := by
  unfold setupFetch
  try dsimp only
  repeat' first
    | with_reducible apply Steady.refl
    | (with_reducible apply Steady.chain ?_ (submit_steady _ _) ?sub; (case sub => decide))
    | (with_reducible apply Steady.chain ?_ (sendMsg_steady _ _ _) ?sub; (case sub => decide))
    | (intro _; try dsimp only)
    | with_reducible apply Steady.ite
    | split

theorem execXferSetup_moves (s : State) : Moves [.ory, .parures, .ast, .lockets, .charms, .facets, .t1, .extents, .hbc, .lpc, .cur, .bays, .eph, .colls, .searches, .selects, .sieves, .integ, .ckpt, .hif, .std, .lan, .hostMem] s (execXferSetup s) := by
  unfold execXferSetup
  try dsimp only
  repeat' first
    | with_reducible apply Steady.refl
    | (with_reducible apply onRouted_moves ?sub ?_; (case sub => decide))
    | (with_reducible apply Steady.chain ?_ (setupSend_steady _ _) ?sub; (case sub => decide))
    | (with_reducible apply Steady.chain ?_ (setupFetch_steady _ _) ?sub; (case sub => decide))
    | (with_reducible apply Steady.chain ?_ (sendMsg_steady _ _ _) ?sub; (case sub => decide))
    | with_reducible apply Moves.ite
    | (intro _; try dsimp only)
    | with_reducible apply Steady.ite

theorem execXferDone_moves (s : State) : Moves [.ory, .parures, .ast, .lockets, .charms, .facets, .t1, .extents, .hbc, .cur, .bays, .eph, .colls, .searches, .selects, .sieves, .integ, .ckpt, .hif, .std, .lan] s (execXferDone s) := by
  unfold execXferDone
  try dsimp only
  repeat' first
    | with_reducible apply Steady.refl
    | (with_reducible apply onRouted_moves ?sub ?_; (case sub => decide))
    | (with_reducible apply Steady.chain ?_ (State.stdM_steady _ _) ?sub; (case sub => decide))
    | (with_reducible apply Steady.chain ?_ (State.curM_steady _ _) ?sub; (case sub => decide))
    | with_reducible apply Moves.ite
    | (intro _; try dsimp only)
    | with_reducible apply Steady.ite
    | with_reducible apply Steady.iteFirst
    | with_reducible apply Steady.orElse (fun _ _ => ?_)
    | split

theorem execFwdRead_moves (s : State) : Moves [.ory, .parures, .ast, .smp, .fil, .stm, .lockets, .charms, .facets, .t1, .extents, .hbc, .cur, .bays, .eph, .colls, .searches, .selects, .sieves, .integ, .ckpt, .hif, .std, .lan] s (execFwdRead s) := by
  unfold execFwdRead
  try dsimp only
  repeat' first
    | with_reducible apply Steady.refl
    | (with_reducible apply onRouted_moves ?sub ?_; (case sub => decide))
    | (with_reducible apply Steady.chain ?_ (bar0Read_steady _ _ _) ?sub; (case sub => decide))
    | (with_reducible apply Steady.chain ?_ (sendMsg_steady _ _ _) ?sub; (case sub => decide))
    | with_reducible apply Moves.ite
    | (intro _; try dsimp only)
    | with_reducible apply Steady.ite
    | with_reducible apply Steady.iteFirst

theorem execFwdWrite_moves (s : State) : Moves [.ory, .lpe, .parures, .ast, .smp, .fil, .stm, .lockets, .charms, .facets, .keys, .t1, .extents, .hbc, .lpc, .cur, .bays, .eph, .colls, .searches, .selects, .sieves, .integ, .ckpt, .hif, .std, .lan] s (execFwdWrite s) := by
  unfold execFwdWrite
  try dsimp only
  repeat' first
    | with_reducible apply Steady.refl
    | (with_reducible apply onRouted_moves ?sub ?_; (case sub => decide))
    | (with_reducible apply Steady.chain ?_ (bar0Write_steady _ _ _) ?sub; (case sub => decide))
    | with_reducible apply Moves.ite
    | (intro _; try dsimp only)
    | with_reducible apply Steady.ite

theorem execFwdCpl_moves (s : State) : Moves [.ory, .parures, .ast, .lockets, .charms, .facets, .t1, .extents, .hbc, .cur, .bays, .eph, .colls, .searches, .selects, .sieves, .integ, .ckpt, .hif, .std, .lan, .replies] s (execFwdCpl s) := by
  unfold execFwdCpl
  try dsimp only
  repeat' first
    | with_reducible apply Steady.refl
    | (with_reducible apply onRouted_moves ?sub ?_; (case sub => decide))
    | (with_reducible apply answer_steady ?sub ?_ ; (case sub => decide))
    | (with_reducible apply Steady.chain ?_ (State.stdM_steady _ _) ?sub; (case sub => decide))
    | with_reducible apply Moves.ite
    | (intro _; try dsimp only)
    | with_reducible apply Steady.ite
    | with_reducible apply Steady.iteFirst
    | split

theorem execHostRead_moves (data : List Byte) (s : State) : Moves [.ory, .parures, .ast, .lockets, .charms, .facets, .t1, .extents, .hbc, .cur, .bays, .eph, .colls, .searches, .selects, .sieves, .integ, .ckpt, .hif, .std, .lan] s (execHostRead data s) := by
  unfold execHostRead
  try dsimp only
  repeat' first
    | with_reducible apply Steady.refl
    | (with_reducible apply onRouted_moves ?sub ?_; (case sub => decide))
    | (with_reducible apply Steady.chain ?_ (sendFlit_steady _ _) ?sub; (case sub => decide))
    | with_reducible apply Moves.next
    | with_reducible apply Moves.ite
    | (intro _; try dsimp only)
    | with_reducible apply Steady.ite
    | (with_reducible apply Steady.fold ?_ (fun _ _ => ?_); all_goals try dsimp only)

theorem execHostWrite_moves (s : State) : Moves [.ory, .parures, .ast, .lockets, .charms, .facets, .t1, .extents, .hbc, .lpc, .cur, .bays, .eph, .colls, .searches, .selects, .sieves, .integ, .ckpt, .hif, .std, .lan, .hostMem] s (execHostWrite s) := by
  unfold execHostWrite
  try dsimp only
  repeat' first
    | with_reducible apply Steady.refl
    | (with_reducible apply onRouted_moves ?sub ?_; (case sub => decide))
    | (with_reducible apply Steady.chain ?_ (beginXfer_steady _ _) ?sub; (case sub => decide))
    | with_reducible apply Moves.next
    | with_reducible apply Moves.ite
    | (intro _; try dsimp only)
    | with_reducible apply Steady.ite

theorem execHostMsix_moves (s : State) : Moves [.ory, .parures, .ast, .lockets, .charms, .facets, .t1, .extents, .hbc, .cur, .bays, .eph, .colls, .searches, .selects, .sieves, .integ, .ckpt, .hif, .std, .lan, .hostMem] s (execHostMsix s) := by
  unfold execHostMsix
  try dsimp only
  repeat' first
    | with_reducible apply Steady.refl
    | (with_reducible apply onRouted_moves ?sub ?_; (case sub => decide))
    | with_reducible apply Moves.next
    | with_reducible apply Moves.ite
    | (intro _; try dsimp only)
    | with_reducible apply Steady.ite
    | (with_reducible apply Steady.update <;> first | with_reducible exact Or.inl rfl | (apply Or.inr; decide) | (exact Or.inr ⟨by decide, fun h => by simpa using h⟩) | skip)
    | exact Or.inr ⟨by decide, writeN_wf _ _⟩
    | exact Or.inr ⟨by decide, write_wf _ _⟩
    | exact Or.inr ⟨by decide, clear_wf _ _⟩
    | exact Or.inr ⟨by decide, copyFrom_wf _ _ _ _⟩
    | exact Or.inr ⟨by decide, clearAll_wf _ _ _⟩
    | exact Or.inr ⟨by decide, fun _ => rfl⟩

theorem passFlit_steady (s : State) (port : Nat) (f : Flit) : Steady [.ory, .parures, .ast, .lockets, .charms, .facets, .t1, .extents, .hbc, .lpc, .cur, .bays, .eph, .colls, .searches, .selects, .sieves, .integ, .ckpt, .hif, .std, .lan, .hostMem] s (passFlit s port f) := by
  unfold passFlit
  try dsimp only
  repeat' first
    | with_reducible apply Steady.refl
    | (with_reducible apply Steady.chain ?_ (State.stdM_steady _ _) ?sub; (case sub => decide))
    | (with_reducible apply Steady.chain ?_ (sendFlit_steady _ _) ?sub; (case sub => decide))
    | (with_reducible apply Steady.chain ?_ (unitArrives_steady _ _ _) ?sub; (case sub => decide))
    | with_reducible apply Steady.ite

theorem execFlitReceive_moves (port : Nat) (flit : List Byte) (s : State) : Moves [.ory, .parures, .ast, .lockets, .charms, .facets, .t1, .extents, .hbc, .lpc, .cur, .bays, .eph, .colls, .searches, .selects, .sieves, .integ, .ckpt, .hif, .std, .lan, .hostMem] s (execFlitReceive port flit s) := by
  unfold execFlitReceive
  try dsimp only
  repeat' first
    | with_reducible apply Steady.refl
    | (with_reducible apply Steady.chain ?_ (State.portM_steady _ _ _) ?sub; (case sub => decide))
    | (with_reducible apply Steady.chain ?_ (passFlit_steady _ _ _) ?sub; (case sub => decide))
    | with_reducible apply formed_moves
    | with_reducible apply when_moves
    | with_reducible apply Moves.ite
    | with_reducible apply Steady.ite

theorem launch_steady (s : State) (n : Nat) (f : Flit) : Steady [.std] s (launch s n f) := by
  unfold launch
  try dsimp only
  repeat' first
    | with_reducible apply Steady.refl
    | (with_reducible apply Steady.chain ?_ (State.portM_steady _ _ _) ?sub; (case sub => decide))
    | with_reducible apply Steady.ite

theorem relaunch_steady (s : State) (n : Nat) : Steady [.std] s (relaunch s n) := by
  unfold relaunch
  try dsimp only
  repeat' first
    | with_reducible apply Steady.refl
    | (with_reducible apply Steady.chain ?_ (State.portM_steady _ _ _) ?sub; (case sub => decide))
    | split

theorem execFlitForward_moves (port : Nat) (s : State) : Moves [.traffic, .std] s (execFlitForward port s) := by
  unfold execFlitForward
  try dsimp only
  repeat' first
    | with_reducible apply Steady.refl
    | (with_reducible apply Steady.chain ?_ (relaunch_steady _ _) ?sub; (case sub => decide))
    | (with_reducible apply Steady.chain ?_ (launch_steady _ _ _) ?sub; (case sub => decide))
    | (with_reducible apply Steady.chain ?_ (wfqSelect_steady _ _ _ _) ?sub; (case sub => decide))
    | (with_reducible apply Steady.chain ?_ (wfqCharge_steady _ _ _ _ _ _) ?sub; (case sub => decide))
    | with_reducible apply formed_moves
    | with_reducible apply when_moves
    | with_reducible apply Moves.next
    | with_reducible apply Moves.ite
    | (intro _; try dsimp only)
    | with_reducible apply Steady.ite
    | (with_reducible apply Steady.first ?ee; (case ee => assumption))
    | split

theorem execPortTrained_moves (port : Nat) (lanes : Nat) (partner : Nat) (partnerPort : Nat) (s : State) : Moves [.std, .lan] s (execPortTrained port lanes partner partnerPort s) := by
  unfold execPortTrained
  try dsimp only
  repeat' first
    | with_reducible apply Steady.refl
    | (with_reducible apply Steady.chain ?_ (State.portM_steady _ _ _) ?sub; (case sub => decide))
    | (with_reducible apply Steady.chain ?_ (stdEvent_steady _ _) ?sub; (case sub => decide))
    | (with_reducible apply Steady.chain ?_ (settleEnum_steady _) ?sub; (case sub => decide))
    | (with_reducible apply Steady.chain ?_ (recordCount_steady _ _) ?sub; (case sub => decide))
    | with_reducible apply formed_moves
    | with_reducible apply when_moves
    | with_reducible apply Moves.next
    | with_reducible apply Moves.ite
    | with_reducible apply Steady.ite
    | split

theorem execPortDown_moves (port : Nat) (s : State) : Moves [.std] s (execPortDown port s) := by
  unfold execPortDown
  try dsimp only
  repeat' first
    | with_reducible apply Steady.refl
    | (with_reducible apply Steady.chain ?_ (stopPort_steady _ _ _) ?sub; (case sub => decide))
    | with_reducible apply formed_moves
    | with_reducible apply when_moves

end Sys2Proof.Machine
end

