-- ==== Sys2Proof/Laws/State.lean ====
section
/-!
SUPPORT. Sys2Proof/Laws/State.lean: each update of one part of the state writes that part and leaves every other one alone.
-/
namespace Sys2Proof.Machine

@[simp] theorem State.hifM_pending (s : State) (f : Hif → Hif) : (s.hifM f).pending = s.pending := rfl
@[simp] theorem State.hifM_now (s : State) (f : Hif → Hif) : (s.hifM f).now = s.now := rfl
@[simp] theorem State.hifM_ory (s : State) (f : Hif → Hif) : (s.hifM f).ory = s.ory := rfl
@[simp] theorem State.hifM_cells (s : State) (f : Hif → Hif) : (s.hifM f).cells = s.cells := rfl
@[simp] theorem State.hifM_lpe (s : State) (f : Hif → Hif) : (s.hifM f).lpe = s.lpe := rfl
@[simp] theorem State.hifM_parures (s : State) (f : Hif → Hif) : (s.hifM f).parures = s.parures := rfl
@[simp] theorem State.hifM_ast (s : State) (f : Hif → Hif) : (s.hifM f).ast = s.ast := rfl
@[simp] theorem State.hifM_smp (s : State) (f : Hif → Hif) : (s.hifM f).smp = s.smp := rfl
@[simp] theorem State.hifM_fil (s : State) (f : Hif → Hif) : (s.hifM f).fil = s.fil := rfl
@[simp] theorem State.hifM_stm (s : State) (f : Hif → Hif) : (s.hifM f).stm = s.stm := rfl
@[simp] theorem State.hifM_lockets (s : State) (f : Hif → Hif) : (s.hifM f).lockets = s.lockets := rfl
@[simp] theorem State.hifM_charms (s : State) (f : Hif → Hif) : (s.hifM f).charms = s.charms := rfl
@[simp] theorem State.hifM_facets (s : State) (f : Hif → Hif) : (s.hifM f).facets = s.facets := rfl
@[simp] theorem State.hifM_keys (s : State) (f : Hif → Hif) : (s.hifM f).keys = s.keys := rfl
@[simp] theorem State.hifM_t1 (s : State) (f : Hif → Hif) : (s.hifM f).t1 = s.t1 := rfl
@[simp] theorem State.hifM_extents (s : State) (f : Hif → Hif) : (s.hifM f).extents = s.extents := rfl
@[simp] theorem State.hifM_hbc (s : State) (f : Hif → Hif) : (s.hifM f).hbc = s.hbc := rfl
@[simp] theorem State.hifM_lpc (s : State) (f : Hif → Hif) : (s.hifM f).lpc = s.lpc := rfl
@[simp] theorem State.hifM_cur (s : State) (f : Hif → Hif) : (s.hifM f).cur = s.cur := rfl
@[simp] theorem State.hifM_bays (s : State) (f : Hif → Hif) : (s.hifM f).bays = s.bays := rfl
@[simp] theorem State.hifM_eph (s : State) (f : Hif → Hif) : (s.hifM f).eph = s.eph := rfl
@[simp] theorem State.hifM_traffic (s : State) (f : Hif → Hif) : (s.hifM f).traffic = s.traffic := rfl
@[simp] theorem State.hifM_colls (s : State) (f : Hif → Hif) : (s.hifM f).colls = s.colls := rfl
@[simp] theorem State.hifM_searches (s : State) (f : Hif → Hif) : (s.hifM f).searches = s.searches := rfl
@[simp] theorem State.hifM_selects (s : State) (f : Hif → Hif) : (s.hifM f).selects = s.selects := rfl
@[simp] theorem State.hifM_sieves (s : State) (f : Hif → Hif) : (s.hifM f).sieves = s.sieves := rfl
@[simp] theorem State.hifM_integ (s : State) (f : Hif → Hif) : (s.hifM f).integ = s.integ := rfl
@[simp] theorem State.hifM_ckpt (s : State) (f : Hif → Hif) : (s.hifM f).ckpt = s.ckpt := rfl
@[simp] theorem State.hifM_hif (s : State) (f : Hif → Hif) : (s.hifM f).hif = f s.hif := rfl
@[simp] theorem State.hifM_std (s : State) (f : Hif → Hif) : (s.hifM f).std = s.std := rfl
@[simp] theorem State.hifM_lan (s : State) (f : Hif → Hif) : (s.hifM f).lan = s.lan := rfl
@[simp] theorem State.hifM_hostMem (s : State) (f : Hif → Hif) : (s.hifM f).hostMem = s.hostMem := rfl
@[simp] theorem State.hifM_replies (s : State) (f : Hif → Hif) : (s.hifM f).replies = s.replies := rfl

@[simp] theorem State.stdM_pending (s : State) (f : Std → Std) : (s.stdM f).pending = s.pending := rfl
@[simp] theorem State.stdM_now (s : State) (f : Std → Std) : (s.stdM f).now = s.now := rfl
@[simp] theorem State.stdM_ory (s : State) (f : Std → Std) : (s.stdM f).ory = s.ory := rfl
@[simp] theorem State.stdM_cells (s : State) (f : Std → Std) : (s.stdM f).cells = s.cells := rfl
@[simp] theorem State.stdM_lpe (s : State) (f : Std → Std) : (s.stdM f).lpe = s.lpe := rfl
@[simp] theorem State.stdM_parures (s : State) (f : Std → Std) : (s.stdM f).parures = s.parures := rfl
@[simp] theorem State.stdM_ast (s : State) (f : Std → Std) : (s.stdM f).ast = s.ast := rfl
@[simp] theorem State.stdM_smp (s : State) (f : Std → Std) : (s.stdM f).smp = s.smp := rfl
@[simp] theorem State.stdM_fil (s : State) (f : Std → Std) : (s.stdM f).fil = s.fil := rfl
@[simp] theorem State.stdM_stm (s : State) (f : Std → Std) : (s.stdM f).stm = s.stm := rfl
@[simp] theorem State.stdM_lockets (s : State) (f : Std → Std) : (s.stdM f).lockets = s.lockets := rfl
@[simp] theorem State.stdM_charms (s : State) (f : Std → Std) : (s.stdM f).charms = s.charms := rfl
@[simp] theorem State.stdM_facets (s : State) (f : Std → Std) : (s.stdM f).facets = s.facets := rfl
@[simp] theorem State.stdM_keys (s : State) (f : Std → Std) : (s.stdM f).keys = s.keys := rfl
@[simp] theorem State.stdM_t1 (s : State) (f : Std → Std) : (s.stdM f).t1 = s.t1 := rfl
@[simp] theorem State.stdM_extents (s : State) (f : Std → Std) : (s.stdM f).extents = s.extents := rfl
@[simp] theorem State.stdM_hbc (s : State) (f : Std → Std) : (s.stdM f).hbc = s.hbc := rfl
@[simp] theorem State.stdM_lpc (s : State) (f : Std → Std) : (s.stdM f).lpc = s.lpc := rfl
@[simp] theorem State.stdM_cur (s : State) (f : Std → Std) : (s.stdM f).cur = s.cur := rfl
@[simp] theorem State.stdM_bays (s : State) (f : Std → Std) : (s.stdM f).bays = s.bays := rfl
@[simp] theorem State.stdM_eph (s : State) (f : Std → Std) : (s.stdM f).eph = s.eph := rfl
@[simp] theorem State.stdM_traffic (s : State) (f : Std → Std) : (s.stdM f).traffic = s.traffic := rfl
@[simp] theorem State.stdM_colls (s : State) (f : Std → Std) : (s.stdM f).colls = s.colls := rfl
@[simp] theorem State.stdM_searches (s : State) (f : Std → Std) : (s.stdM f).searches = s.searches := rfl
@[simp] theorem State.stdM_selects (s : State) (f : Std → Std) : (s.stdM f).selects = s.selects := rfl
@[simp] theorem State.stdM_sieves (s : State) (f : Std → Std) : (s.stdM f).sieves = s.sieves := rfl
@[simp] theorem State.stdM_integ (s : State) (f : Std → Std) : (s.stdM f).integ = s.integ := rfl
@[simp] theorem State.stdM_ckpt (s : State) (f : Std → Std) : (s.stdM f).ckpt = s.ckpt := rfl
@[simp] theorem State.stdM_hif (s : State) (f : Std → Std) : (s.stdM f).hif = s.hif := rfl
@[simp] theorem State.stdM_std (s : State) (f : Std → Std) : (s.stdM f).std = f s.std := rfl
@[simp] theorem State.stdM_lan (s : State) (f : Std → Std) : (s.stdM f).lan = s.lan := rfl
@[simp] theorem State.stdM_hostMem (s : State) (f : Std → Std) : (s.stdM f).hostMem = s.hostMem := rfl
@[simp] theorem State.stdM_replies (s : State) (f : Std → Std) : (s.stdM f).replies = s.replies := rfl

@[simp] theorem State.lanM_pending (s : State) (f : Lan → Lan) : (s.lanM f).pending = s.pending := rfl
@[simp] theorem State.lanM_now (s : State) (f : Lan → Lan) : (s.lanM f).now = s.now := rfl
@[simp] theorem State.lanM_ory (s : State) (f : Lan → Lan) : (s.lanM f).ory = s.ory := rfl
@[simp] theorem State.lanM_cells (s : State) (f : Lan → Lan) : (s.lanM f).cells = s.cells := rfl
@[simp] theorem State.lanM_lpe (s : State) (f : Lan → Lan) : (s.lanM f).lpe = s.lpe := rfl
@[simp] theorem State.lanM_parures (s : State) (f : Lan → Lan) : (s.lanM f).parures = s.parures := rfl
@[simp] theorem State.lanM_ast (s : State) (f : Lan → Lan) : (s.lanM f).ast = s.ast := rfl
@[simp] theorem State.lanM_smp (s : State) (f : Lan → Lan) : (s.lanM f).smp = s.smp := rfl
@[simp] theorem State.lanM_fil (s : State) (f : Lan → Lan) : (s.lanM f).fil = s.fil := rfl
@[simp] theorem State.lanM_stm (s : State) (f : Lan → Lan) : (s.lanM f).stm = s.stm := rfl
@[simp] theorem State.lanM_lockets (s : State) (f : Lan → Lan) : (s.lanM f).lockets = s.lockets := rfl
@[simp] theorem State.lanM_charms (s : State) (f : Lan → Lan) : (s.lanM f).charms = s.charms := rfl
@[simp] theorem State.lanM_facets (s : State) (f : Lan → Lan) : (s.lanM f).facets = s.facets := rfl
@[simp] theorem State.lanM_keys (s : State) (f : Lan → Lan) : (s.lanM f).keys = s.keys := rfl
@[simp] theorem State.lanM_t1 (s : State) (f : Lan → Lan) : (s.lanM f).t1 = s.t1 := rfl
@[simp] theorem State.lanM_extents (s : State) (f : Lan → Lan) : (s.lanM f).extents = s.extents := rfl
@[simp] theorem State.lanM_hbc (s : State) (f : Lan → Lan) : (s.lanM f).hbc = s.hbc := rfl
@[simp] theorem State.lanM_lpc (s : State) (f : Lan → Lan) : (s.lanM f).lpc = s.lpc := rfl
@[simp] theorem State.lanM_cur (s : State) (f : Lan → Lan) : (s.lanM f).cur = s.cur := rfl
@[simp] theorem State.lanM_bays (s : State) (f : Lan → Lan) : (s.lanM f).bays = s.bays := rfl
@[simp] theorem State.lanM_eph (s : State) (f : Lan → Lan) : (s.lanM f).eph = s.eph := rfl
@[simp] theorem State.lanM_traffic (s : State) (f : Lan → Lan) : (s.lanM f).traffic = s.traffic := rfl
@[simp] theorem State.lanM_colls (s : State) (f : Lan → Lan) : (s.lanM f).colls = s.colls := rfl
@[simp] theorem State.lanM_searches (s : State) (f : Lan → Lan) : (s.lanM f).searches = s.searches := rfl
@[simp] theorem State.lanM_selects (s : State) (f : Lan → Lan) : (s.lanM f).selects = s.selects := rfl
@[simp] theorem State.lanM_sieves (s : State) (f : Lan → Lan) : (s.lanM f).sieves = s.sieves := rfl
@[simp] theorem State.lanM_integ (s : State) (f : Lan → Lan) : (s.lanM f).integ = s.integ := rfl
@[simp] theorem State.lanM_ckpt (s : State) (f : Lan → Lan) : (s.lanM f).ckpt = s.ckpt := rfl
@[simp] theorem State.lanM_hif (s : State) (f : Lan → Lan) : (s.lanM f).hif = s.hif := rfl
@[simp] theorem State.lanM_std (s : State) (f : Lan → Lan) : (s.lanM f).std = s.std := rfl
@[simp] theorem State.lanM_lan (s : State) (f : Lan → Lan) : (s.lanM f).lan = f s.lan := rfl
@[simp] theorem State.lanM_hostMem (s : State) (f : Lan → Lan) : (s.lanM f).hostMem = s.hostMem := rfl
@[simp] theorem State.lanM_replies (s : State) (f : Lan → Lan) : (s.lanM f).replies = s.replies := rfl

@[simp] theorem State.integM_pending (s : State) (f : Integ → Integ) : (s.integM f).pending = s.pending := rfl
@[simp] theorem State.integM_now (s : State) (f : Integ → Integ) : (s.integM f).now = s.now := rfl
@[simp] theorem State.integM_ory (s : State) (f : Integ → Integ) : (s.integM f).ory = s.ory := rfl
@[simp] theorem State.integM_cells (s : State) (f : Integ → Integ) : (s.integM f).cells = s.cells := rfl
@[simp] theorem State.integM_lpe (s : State) (f : Integ → Integ) : (s.integM f).lpe = s.lpe := rfl
@[simp] theorem State.integM_parures (s : State) (f : Integ → Integ) : (s.integM f).parures = s.parures := rfl
@[simp] theorem State.integM_ast (s : State) (f : Integ → Integ) : (s.integM f).ast = s.ast := rfl
@[simp] theorem State.integM_smp (s : State) (f : Integ → Integ) : (s.integM f).smp = s.smp := rfl
@[simp] theorem State.integM_fil (s : State) (f : Integ → Integ) : (s.integM f).fil = s.fil := rfl
@[simp] theorem State.integM_stm (s : State) (f : Integ → Integ) : (s.integM f).stm = s.stm := rfl
@[simp] theorem State.integM_lockets (s : State) (f : Integ → Integ) : (s.integM f).lockets = s.lockets := rfl
@[simp] theorem State.integM_charms (s : State) (f : Integ → Integ) : (s.integM f).charms = s.charms := rfl
@[simp] theorem State.integM_facets (s : State) (f : Integ → Integ) : (s.integM f).facets = s.facets := rfl
@[simp] theorem State.integM_keys (s : State) (f : Integ → Integ) : (s.integM f).keys = s.keys := rfl
@[simp] theorem State.integM_t1 (s : State) (f : Integ → Integ) : (s.integM f).t1 = s.t1 := rfl
@[simp] theorem State.integM_extents (s : State) (f : Integ → Integ) : (s.integM f).extents = s.extents := rfl
@[simp] theorem State.integM_hbc (s : State) (f : Integ → Integ) : (s.integM f).hbc = s.hbc := rfl
@[simp] theorem State.integM_lpc (s : State) (f : Integ → Integ) : (s.integM f).lpc = s.lpc := rfl
@[simp] theorem State.integM_cur (s : State) (f : Integ → Integ) : (s.integM f).cur = s.cur := rfl
@[simp] theorem State.integM_bays (s : State) (f : Integ → Integ) : (s.integM f).bays = s.bays := rfl
@[simp] theorem State.integM_eph (s : State) (f : Integ → Integ) : (s.integM f).eph = s.eph := rfl
@[simp] theorem State.integM_traffic (s : State) (f : Integ → Integ) : (s.integM f).traffic = s.traffic := rfl
@[simp] theorem State.integM_colls (s : State) (f : Integ → Integ) : (s.integM f).colls = s.colls := rfl
@[simp] theorem State.integM_searches (s : State) (f : Integ → Integ) : (s.integM f).searches = s.searches := rfl
@[simp] theorem State.integM_selects (s : State) (f : Integ → Integ) : (s.integM f).selects = s.selects := rfl
@[simp] theorem State.integM_sieves (s : State) (f : Integ → Integ) : (s.integM f).sieves = s.sieves := rfl
@[simp] theorem State.integM_integ (s : State) (f : Integ → Integ) : (s.integM f).integ = f s.integ := rfl
@[simp] theorem State.integM_ckpt (s : State) (f : Integ → Integ) : (s.integM f).ckpt = s.ckpt := rfl
@[simp] theorem State.integM_hif (s : State) (f : Integ → Integ) : (s.integM f).hif = s.hif := rfl
@[simp] theorem State.integM_std (s : State) (f : Integ → Integ) : (s.integM f).std = s.std := rfl
@[simp] theorem State.integM_lan (s : State) (f : Integ → Integ) : (s.integM f).lan = s.lan := rfl
@[simp] theorem State.integM_hostMem (s : State) (f : Integ → Integ) : (s.integM f).hostMem = s.hostMem := rfl
@[simp] theorem State.integM_replies (s : State) (f : Integ → Integ) : (s.integM f).replies = s.replies := rfl

@[simp] theorem State.curM_pending (s : State) (f : Cur → Cur) : (s.curM f).pending = s.pending := rfl
@[simp] theorem State.curM_now (s : State) (f : Cur → Cur) : (s.curM f).now = s.now := rfl
@[simp] theorem State.curM_ory (s : State) (f : Cur → Cur) : (s.curM f).ory = s.ory := rfl
@[simp] theorem State.curM_cells (s : State) (f : Cur → Cur) : (s.curM f).cells = s.cells := rfl
@[simp] theorem State.curM_lpe (s : State) (f : Cur → Cur) : (s.curM f).lpe = s.lpe := rfl
@[simp] theorem State.curM_parures (s : State) (f : Cur → Cur) : (s.curM f).parures = s.parures := rfl
@[simp] theorem State.curM_ast (s : State) (f : Cur → Cur) : (s.curM f).ast = s.ast := rfl
@[simp] theorem State.curM_smp (s : State) (f : Cur → Cur) : (s.curM f).smp = s.smp := rfl
@[simp] theorem State.curM_fil (s : State) (f : Cur → Cur) : (s.curM f).fil = s.fil := rfl
@[simp] theorem State.curM_stm (s : State) (f : Cur → Cur) : (s.curM f).stm = s.stm := rfl
@[simp] theorem State.curM_lockets (s : State) (f : Cur → Cur) : (s.curM f).lockets = s.lockets := rfl
@[simp] theorem State.curM_charms (s : State) (f : Cur → Cur) : (s.curM f).charms = s.charms := rfl
@[simp] theorem State.curM_facets (s : State) (f : Cur → Cur) : (s.curM f).facets = s.facets := rfl
@[simp] theorem State.curM_keys (s : State) (f : Cur → Cur) : (s.curM f).keys = s.keys := rfl
@[simp] theorem State.curM_t1 (s : State) (f : Cur → Cur) : (s.curM f).t1 = s.t1 := rfl
@[simp] theorem State.curM_extents (s : State) (f : Cur → Cur) : (s.curM f).extents = s.extents := rfl
@[simp] theorem State.curM_hbc (s : State) (f : Cur → Cur) : (s.curM f).hbc = s.hbc := rfl
@[simp] theorem State.curM_lpc (s : State) (f : Cur → Cur) : (s.curM f).lpc = s.lpc := rfl
@[simp] theorem State.curM_cur (s : State) (f : Cur → Cur) : (s.curM f).cur = f s.cur := rfl
@[simp] theorem State.curM_bays (s : State) (f : Cur → Cur) : (s.curM f).bays = s.bays := rfl
@[simp] theorem State.curM_eph (s : State) (f : Cur → Cur) : (s.curM f).eph = s.eph := rfl
@[simp] theorem State.curM_traffic (s : State) (f : Cur → Cur) : (s.curM f).traffic = s.traffic := rfl
@[simp] theorem State.curM_colls (s : State) (f : Cur → Cur) : (s.curM f).colls = s.colls := rfl
@[simp] theorem State.curM_searches (s : State) (f : Cur → Cur) : (s.curM f).searches = s.searches := rfl
@[simp] theorem State.curM_selects (s : State) (f : Cur → Cur) : (s.curM f).selects = s.selects := rfl
@[simp] theorem State.curM_sieves (s : State) (f : Cur → Cur) : (s.curM f).sieves = s.sieves := rfl
@[simp] theorem State.curM_integ (s : State) (f : Cur → Cur) : (s.curM f).integ = s.integ := rfl
@[simp] theorem State.curM_ckpt (s : State) (f : Cur → Cur) : (s.curM f).ckpt = s.ckpt := rfl
@[simp] theorem State.curM_hif (s : State) (f : Cur → Cur) : (s.curM f).hif = s.hif := rfl
@[simp] theorem State.curM_std (s : State) (f : Cur → Cur) : (s.curM f).std = s.std := rfl
@[simp] theorem State.curM_lan (s : State) (f : Cur → Cur) : (s.curM f).lan = s.lan := rfl
@[simp] theorem State.curM_hostMem (s : State) (f : Cur → Cur) : (s.curM f).hostMem = s.hostMem := rfl
@[simp] theorem State.curM_replies (s : State) (f : Cur → Cur) : (s.curM f).replies = s.replies := rfl

@[simp] theorem State.ephM_pending (s : State) (f : Eph → Eph) : (s.ephM f).pending = s.pending := rfl
@[simp] theorem State.ephM_now (s : State) (f : Eph → Eph) : (s.ephM f).now = s.now := rfl
@[simp] theorem State.ephM_ory (s : State) (f : Eph → Eph) : (s.ephM f).ory = s.ory := rfl
@[simp] theorem State.ephM_cells (s : State) (f : Eph → Eph) : (s.ephM f).cells = s.cells := rfl
@[simp] theorem State.ephM_lpe (s : State) (f : Eph → Eph) : (s.ephM f).lpe = s.lpe := rfl
@[simp] theorem State.ephM_parures (s : State) (f : Eph → Eph) : (s.ephM f).parures = s.parures := rfl
@[simp] theorem State.ephM_ast (s : State) (f : Eph → Eph) : (s.ephM f).ast = s.ast := rfl
@[simp] theorem State.ephM_smp (s : State) (f : Eph → Eph) : (s.ephM f).smp = s.smp := rfl
@[simp] theorem State.ephM_fil (s : State) (f : Eph → Eph) : (s.ephM f).fil = s.fil := rfl
@[simp] theorem State.ephM_stm (s : State) (f : Eph → Eph) : (s.ephM f).stm = s.stm := rfl
@[simp] theorem State.ephM_lockets (s : State) (f : Eph → Eph) : (s.ephM f).lockets = s.lockets := rfl
@[simp] theorem State.ephM_charms (s : State) (f : Eph → Eph) : (s.ephM f).charms = s.charms := rfl
@[simp] theorem State.ephM_facets (s : State) (f : Eph → Eph) : (s.ephM f).facets = s.facets := rfl
@[simp] theorem State.ephM_keys (s : State) (f : Eph → Eph) : (s.ephM f).keys = s.keys := rfl
@[simp] theorem State.ephM_t1 (s : State) (f : Eph → Eph) : (s.ephM f).t1 = s.t1 := rfl
@[simp] theorem State.ephM_extents (s : State) (f : Eph → Eph) : (s.ephM f).extents = s.extents := rfl
@[simp] theorem State.ephM_hbc (s : State) (f : Eph → Eph) : (s.ephM f).hbc = s.hbc := rfl
@[simp] theorem State.ephM_lpc (s : State) (f : Eph → Eph) : (s.ephM f).lpc = s.lpc := rfl
@[simp] theorem State.ephM_cur (s : State) (f : Eph → Eph) : (s.ephM f).cur = s.cur := rfl
@[simp] theorem State.ephM_bays (s : State) (f : Eph → Eph) : (s.ephM f).bays = s.bays := rfl
@[simp] theorem State.ephM_eph (s : State) (f : Eph → Eph) : (s.ephM f).eph = f s.eph := rfl
@[simp] theorem State.ephM_traffic (s : State) (f : Eph → Eph) : (s.ephM f).traffic = s.traffic := rfl
@[simp] theorem State.ephM_colls (s : State) (f : Eph → Eph) : (s.ephM f).colls = s.colls := rfl
@[simp] theorem State.ephM_searches (s : State) (f : Eph → Eph) : (s.ephM f).searches = s.searches := rfl
@[simp] theorem State.ephM_selects (s : State) (f : Eph → Eph) : (s.ephM f).selects = s.selects := rfl
@[simp] theorem State.ephM_sieves (s : State) (f : Eph → Eph) : (s.ephM f).sieves = s.sieves := rfl
@[simp] theorem State.ephM_integ (s : State) (f : Eph → Eph) : (s.ephM f).integ = s.integ := rfl
@[simp] theorem State.ephM_ckpt (s : State) (f : Eph → Eph) : (s.ephM f).ckpt = s.ckpt := rfl
@[simp] theorem State.ephM_hif (s : State) (f : Eph → Eph) : (s.ephM f).hif = s.hif := rfl
@[simp] theorem State.ephM_std (s : State) (f : Eph → Eph) : (s.ephM f).std = s.std := rfl
@[simp] theorem State.ephM_lan (s : State) (f : Eph → Eph) : (s.ephM f).lan = s.lan := rfl
@[simp] theorem State.ephM_hostMem (s : State) (f : Eph → Eph) : (s.ephM f).hostMem = s.hostMem := rfl
@[simp] theorem State.ephM_replies (s : State) (f : Eph → Eph) : (s.ephM f).replies = s.replies := rfl

@[simp] theorem State.oryM_pending (s : State) (f : Ory → Ory) : (s.oryM f).pending = s.pending := rfl
@[simp] theorem State.oryM_now (s : State) (f : Ory → Ory) : (s.oryM f).now = s.now := rfl
@[simp] theorem State.oryM_ory (s : State) (f : Ory → Ory) : (s.oryM f).ory = f s.ory := rfl
@[simp] theorem State.oryM_cells (s : State) (f : Ory → Ory) : (s.oryM f).cells = s.cells := rfl
@[simp] theorem State.oryM_lpe (s : State) (f : Ory → Ory) : (s.oryM f).lpe = s.lpe := rfl
@[simp] theorem State.oryM_parures (s : State) (f : Ory → Ory) : (s.oryM f).parures = s.parures := rfl
@[simp] theorem State.oryM_ast (s : State) (f : Ory → Ory) : (s.oryM f).ast = s.ast := rfl
@[simp] theorem State.oryM_smp (s : State) (f : Ory → Ory) : (s.oryM f).smp = s.smp := rfl
@[simp] theorem State.oryM_fil (s : State) (f : Ory → Ory) : (s.oryM f).fil = s.fil := rfl
@[simp] theorem State.oryM_stm (s : State) (f : Ory → Ory) : (s.oryM f).stm = s.stm := rfl
@[simp] theorem State.oryM_lockets (s : State) (f : Ory → Ory) : (s.oryM f).lockets = s.lockets := rfl
@[simp] theorem State.oryM_charms (s : State) (f : Ory → Ory) : (s.oryM f).charms = s.charms := rfl
@[simp] theorem State.oryM_facets (s : State) (f : Ory → Ory) : (s.oryM f).facets = s.facets := rfl
@[simp] theorem State.oryM_keys (s : State) (f : Ory → Ory) : (s.oryM f).keys = s.keys := rfl
@[simp] theorem State.oryM_t1 (s : State) (f : Ory → Ory) : (s.oryM f).t1 = s.t1 := rfl
@[simp] theorem State.oryM_extents (s : State) (f : Ory → Ory) : (s.oryM f).extents = s.extents := rfl
@[simp] theorem State.oryM_hbc (s : State) (f : Ory → Ory) : (s.oryM f).hbc = s.hbc := rfl
@[simp] theorem State.oryM_lpc (s : State) (f : Ory → Ory) : (s.oryM f).lpc = s.lpc := rfl
@[simp] theorem State.oryM_cur (s : State) (f : Ory → Ory) : (s.oryM f).cur = s.cur := rfl
@[simp] theorem State.oryM_bays (s : State) (f : Ory → Ory) : (s.oryM f).bays = s.bays := rfl
@[simp] theorem State.oryM_eph (s : State) (f : Ory → Ory) : (s.oryM f).eph = s.eph := rfl
@[simp] theorem State.oryM_traffic (s : State) (f : Ory → Ory) : (s.oryM f).traffic = s.traffic := rfl
@[simp] theorem State.oryM_colls (s : State) (f : Ory → Ory) : (s.oryM f).colls = s.colls := rfl
@[simp] theorem State.oryM_searches (s : State) (f : Ory → Ory) : (s.oryM f).searches = s.searches := rfl
@[simp] theorem State.oryM_selects (s : State) (f : Ory → Ory) : (s.oryM f).selects = s.selects := rfl
@[simp] theorem State.oryM_sieves (s : State) (f : Ory → Ory) : (s.oryM f).sieves = s.sieves := rfl
@[simp] theorem State.oryM_integ (s : State) (f : Ory → Ory) : (s.oryM f).integ = s.integ := rfl
@[simp] theorem State.oryM_ckpt (s : State) (f : Ory → Ory) : (s.oryM f).ckpt = s.ckpt := rfl
@[simp] theorem State.oryM_hif (s : State) (f : Ory → Ory) : (s.oryM f).hif = s.hif := rfl
@[simp] theorem State.oryM_std (s : State) (f : Ory → Ory) : (s.oryM f).std = s.std := rfl
@[simp] theorem State.oryM_lan (s : State) (f : Ory → Ory) : (s.oryM f).lan = s.lan := rfl
@[simp] theorem State.oryM_hostMem (s : State) (f : Ory → Ory) : (s.oryM f).hostMem = s.hostMem := rfl
@[simp] theorem State.oryM_replies (s : State) (f : Ory → Ory) : (s.oryM f).replies = s.replies := rfl

@[simp] theorem State.astM_pending (s : State) (f : Ast → Ast) : (s.astM f).pending = s.pending := rfl
@[simp] theorem State.astM_now (s : State) (f : Ast → Ast) : (s.astM f).now = s.now := rfl
@[simp] theorem State.astM_ory (s : State) (f : Ast → Ast) : (s.astM f).ory = s.ory := rfl
@[simp] theorem State.astM_cells (s : State) (f : Ast → Ast) : (s.astM f).cells = s.cells := rfl
@[simp] theorem State.astM_lpe (s : State) (f : Ast → Ast) : (s.astM f).lpe = s.lpe := rfl
@[simp] theorem State.astM_parures (s : State) (f : Ast → Ast) : (s.astM f).parures = s.parures := rfl
@[simp] theorem State.astM_ast (s : State) (f : Ast → Ast) : (s.astM f).ast = f s.ast := rfl
@[simp] theorem State.astM_smp (s : State) (f : Ast → Ast) : (s.astM f).smp = s.smp := rfl
@[simp] theorem State.astM_fil (s : State) (f : Ast → Ast) : (s.astM f).fil = s.fil := rfl
@[simp] theorem State.astM_stm (s : State) (f : Ast → Ast) : (s.astM f).stm = s.stm := rfl
@[simp] theorem State.astM_lockets (s : State) (f : Ast → Ast) : (s.astM f).lockets = s.lockets := rfl
@[simp] theorem State.astM_charms (s : State) (f : Ast → Ast) : (s.astM f).charms = s.charms := rfl
@[simp] theorem State.astM_facets (s : State) (f : Ast → Ast) : (s.astM f).facets = s.facets := rfl
@[simp] theorem State.astM_keys (s : State) (f : Ast → Ast) : (s.astM f).keys = s.keys := rfl
@[simp] theorem State.astM_t1 (s : State) (f : Ast → Ast) : (s.astM f).t1 = s.t1 := rfl
@[simp] theorem State.astM_extents (s : State) (f : Ast → Ast) : (s.astM f).extents = s.extents := rfl
@[simp] theorem State.astM_hbc (s : State) (f : Ast → Ast) : (s.astM f).hbc = s.hbc := rfl
@[simp] theorem State.astM_lpc (s : State) (f : Ast → Ast) : (s.astM f).lpc = s.lpc := rfl
@[simp] theorem State.astM_cur (s : State) (f : Ast → Ast) : (s.astM f).cur = s.cur := rfl
@[simp] theorem State.astM_bays (s : State) (f : Ast → Ast) : (s.astM f).bays = s.bays := rfl
@[simp] theorem State.astM_eph (s : State) (f : Ast → Ast) : (s.astM f).eph = s.eph := rfl
@[simp] theorem State.astM_traffic (s : State) (f : Ast → Ast) : (s.astM f).traffic = s.traffic := rfl
@[simp] theorem State.astM_colls (s : State) (f : Ast → Ast) : (s.astM f).colls = s.colls := rfl
@[simp] theorem State.astM_searches (s : State) (f : Ast → Ast) : (s.astM f).searches = s.searches := rfl
@[simp] theorem State.astM_selects (s : State) (f : Ast → Ast) : (s.astM f).selects = s.selects := rfl
@[simp] theorem State.astM_sieves (s : State) (f : Ast → Ast) : (s.astM f).sieves = s.sieves := rfl
@[simp] theorem State.astM_integ (s : State) (f : Ast → Ast) : (s.astM f).integ = s.integ := rfl
@[simp] theorem State.astM_ckpt (s : State) (f : Ast → Ast) : (s.astM f).ckpt = s.ckpt := rfl
@[simp] theorem State.astM_hif (s : State) (f : Ast → Ast) : (s.astM f).hif = s.hif := rfl
@[simp] theorem State.astM_std (s : State) (f : Ast → Ast) : (s.astM f).std = s.std := rfl
@[simp] theorem State.astM_lan (s : State) (f : Ast → Ast) : (s.astM f).lan = s.lan := rfl
@[simp] theorem State.astM_hostMem (s : State) (f : Ast → Ast) : (s.astM f).hostMem = s.hostMem := rfl
@[simp] theorem State.astM_replies (s : State) (f : Ast → Ast) : (s.astM f).replies = s.replies := rfl

@[simp] theorem State.ckptM_pending (s : State) (f : Ckpt → Ckpt) : (s.ckptM f).pending = s.pending := rfl
@[simp] theorem State.ckptM_now (s : State) (f : Ckpt → Ckpt) : (s.ckptM f).now = s.now := rfl
@[simp] theorem State.ckptM_ory (s : State) (f : Ckpt → Ckpt) : (s.ckptM f).ory = s.ory := rfl
@[simp] theorem State.ckptM_cells (s : State) (f : Ckpt → Ckpt) : (s.ckptM f).cells = s.cells := rfl
@[simp] theorem State.ckptM_lpe (s : State) (f : Ckpt → Ckpt) : (s.ckptM f).lpe = s.lpe := rfl
@[simp] theorem State.ckptM_parures (s : State) (f : Ckpt → Ckpt) : (s.ckptM f).parures = s.parures := rfl
@[simp] theorem State.ckptM_ast (s : State) (f : Ckpt → Ckpt) : (s.ckptM f).ast = s.ast := rfl
@[simp] theorem State.ckptM_smp (s : State) (f : Ckpt → Ckpt) : (s.ckptM f).smp = s.smp := rfl
@[simp] theorem State.ckptM_fil (s : State) (f : Ckpt → Ckpt) : (s.ckptM f).fil = s.fil := rfl
@[simp] theorem State.ckptM_stm (s : State) (f : Ckpt → Ckpt) : (s.ckptM f).stm = s.stm := rfl
@[simp] theorem State.ckptM_lockets (s : State) (f : Ckpt → Ckpt) : (s.ckptM f).lockets = s.lockets := rfl
@[simp] theorem State.ckptM_charms (s : State) (f : Ckpt → Ckpt) : (s.ckptM f).charms = s.charms := rfl
@[simp] theorem State.ckptM_facets (s : State) (f : Ckpt → Ckpt) : (s.ckptM f).facets = s.facets := rfl
@[simp] theorem State.ckptM_keys (s : State) (f : Ckpt → Ckpt) : (s.ckptM f).keys = s.keys := rfl
@[simp] theorem State.ckptM_t1 (s : State) (f : Ckpt → Ckpt) : (s.ckptM f).t1 = s.t1 := rfl
@[simp] theorem State.ckptM_extents (s : State) (f : Ckpt → Ckpt) : (s.ckptM f).extents = s.extents := rfl
@[simp] theorem State.ckptM_hbc (s : State) (f : Ckpt → Ckpt) : (s.ckptM f).hbc = s.hbc := rfl
@[simp] theorem State.ckptM_lpc (s : State) (f : Ckpt → Ckpt) : (s.ckptM f).lpc = s.lpc := rfl
@[simp] theorem State.ckptM_cur (s : State) (f : Ckpt → Ckpt) : (s.ckptM f).cur = s.cur := rfl
@[simp] theorem State.ckptM_bays (s : State) (f : Ckpt → Ckpt) : (s.ckptM f).bays = s.bays := rfl
@[simp] theorem State.ckptM_eph (s : State) (f : Ckpt → Ckpt) : (s.ckptM f).eph = s.eph := rfl
@[simp] theorem State.ckptM_traffic (s : State) (f : Ckpt → Ckpt) : (s.ckptM f).traffic = s.traffic := rfl
@[simp] theorem State.ckptM_colls (s : State) (f : Ckpt → Ckpt) : (s.ckptM f).colls = s.colls := rfl
@[simp] theorem State.ckptM_searches (s : State) (f : Ckpt → Ckpt) : (s.ckptM f).searches = s.searches := rfl
@[simp] theorem State.ckptM_selects (s : State) (f : Ckpt → Ckpt) : (s.ckptM f).selects = s.selects := rfl
@[simp] theorem State.ckptM_sieves (s : State) (f : Ckpt → Ckpt) : (s.ckptM f).sieves = s.sieves := rfl
@[simp] theorem State.ckptM_integ (s : State) (f : Ckpt → Ckpt) : (s.ckptM f).integ = s.integ := rfl
@[simp] theorem State.ckptM_ckpt (s : State) (f : Ckpt → Ckpt) : (s.ckptM f).ckpt = f s.ckpt := rfl
@[simp] theorem State.ckptM_hif (s : State) (f : Ckpt → Ckpt) : (s.ckptM f).hif = s.hif := rfl
@[simp] theorem State.ckptM_std (s : State) (f : Ckpt → Ckpt) : (s.ckptM f).std = s.std := rfl
@[simp] theorem State.ckptM_lan (s : State) (f : Ckpt → Ckpt) : (s.ckptM f).lan = s.lan := rfl
@[simp] theorem State.ckptM_hostMem (s : State) (f : Ckpt → Ckpt) : (s.ckptM f).hostMem = s.hostMem := rfl
@[simp] theorem State.ckptM_replies (s : State) (f : Ckpt → Ckpt) : (s.ckptM f).replies = s.replies := rfl

@[simp] theorem State.trafM_pending (s : State) (f : Traffic → Traffic) : (s.trafM f).pending = s.pending := rfl
@[simp] theorem State.trafM_now (s : State) (f : Traffic → Traffic) : (s.trafM f).now = s.now := rfl
@[simp] theorem State.trafM_ory (s : State) (f : Traffic → Traffic) : (s.trafM f).ory = s.ory := rfl
@[simp] theorem State.trafM_cells (s : State) (f : Traffic → Traffic) : (s.trafM f).cells = s.cells := rfl
@[simp] theorem State.trafM_lpe (s : State) (f : Traffic → Traffic) : (s.trafM f).lpe = s.lpe := rfl
@[simp] theorem State.trafM_parures (s : State) (f : Traffic → Traffic) : (s.trafM f).parures = s.parures := rfl
@[simp] theorem State.trafM_ast (s : State) (f : Traffic → Traffic) : (s.trafM f).ast = s.ast := rfl
@[simp] theorem State.trafM_smp (s : State) (f : Traffic → Traffic) : (s.trafM f).smp = s.smp := rfl
@[simp] theorem State.trafM_fil (s : State) (f : Traffic → Traffic) : (s.trafM f).fil = s.fil := rfl
@[simp] theorem State.trafM_stm (s : State) (f : Traffic → Traffic) : (s.trafM f).stm = s.stm := rfl
@[simp] theorem State.trafM_lockets (s : State) (f : Traffic → Traffic) : (s.trafM f).lockets = s.lockets := rfl
@[simp] theorem State.trafM_charms (s : State) (f : Traffic → Traffic) : (s.trafM f).charms = s.charms := rfl
@[simp] theorem State.trafM_facets (s : State) (f : Traffic → Traffic) : (s.trafM f).facets = s.facets := rfl
@[simp] theorem State.trafM_keys (s : State) (f : Traffic → Traffic) : (s.trafM f).keys = s.keys := rfl
@[simp] theorem State.trafM_t1 (s : State) (f : Traffic → Traffic) : (s.trafM f).t1 = s.t1 := rfl
@[simp] theorem State.trafM_extents (s : State) (f : Traffic → Traffic) : (s.trafM f).extents = s.extents := rfl
@[simp] theorem State.trafM_hbc (s : State) (f : Traffic → Traffic) : (s.trafM f).hbc = s.hbc := rfl
@[simp] theorem State.trafM_lpc (s : State) (f : Traffic → Traffic) : (s.trafM f).lpc = s.lpc := rfl
@[simp] theorem State.trafM_cur (s : State) (f : Traffic → Traffic) : (s.trafM f).cur = s.cur := rfl
@[simp] theorem State.trafM_bays (s : State) (f : Traffic → Traffic) : (s.trafM f).bays = s.bays := rfl
@[simp] theorem State.trafM_eph (s : State) (f : Traffic → Traffic) : (s.trafM f).eph = s.eph := rfl
@[simp] theorem State.trafM_traffic (s : State) (f : Traffic → Traffic) : (s.trafM f).traffic = f s.traffic := rfl
@[simp] theorem State.trafM_colls (s : State) (f : Traffic → Traffic) : (s.trafM f).colls = s.colls := rfl
@[simp] theorem State.trafM_searches (s : State) (f : Traffic → Traffic) : (s.trafM f).searches = s.searches := rfl
@[simp] theorem State.trafM_selects (s : State) (f : Traffic → Traffic) : (s.trafM f).selects = s.selects := rfl
@[simp] theorem State.trafM_sieves (s : State) (f : Traffic → Traffic) : (s.trafM f).sieves = s.sieves := rfl
@[simp] theorem State.trafM_integ (s : State) (f : Traffic → Traffic) : (s.trafM f).integ = s.integ := rfl
@[simp] theorem State.trafM_ckpt (s : State) (f : Traffic → Traffic) : (s.trafM f).ckpt = s.ckpt := rfl
@[simp] theorem State.trafM_hif (s : State) (f : Traffic → Traffic) : (s.trafM f).hif = s.hif := rfl
@[simp] theorem State.trafM_std (s : State) (f : Traffic → Traffic) : (s.trafM f).std = s.std := rfl
@[simp] theorem State.trafM_lan (s : State) (f : Traffic → Traffic) : (s.trafM f).lan = s.lan := rfl
@[simp] theorem State.trafM_hostMem (s : State) (f : Traffic → Traffic) : (s.trafM f).hostMem = s.hostMem := rfl
@[simp] theorem State.trafM_replies (s : State) (f : Traffic → Traffic) : (s.trafM f).replies = s.replies := rfl

@[simp] theorem State.lpeM_pending (s : State) (f : Lpe → Lpe) : (s.lpeM f).pending = s.pending := rfl
@[simp] theorem State.lpeM_now (s : State) (f : Lpe → Lpe) : (s.lpeM f).now = s.now := rfl
@[simp] theorem State.lpeM_ory (s : State) (f : Lpe → Lpe) : (s.lpeM f).ory = s.ory := rfl
@[simp] theorem State.lpeM_cells (s : State) (f : Lpe → Lpe) : (s.lpeM f).cells = s.cells := rfl
@[simp] theorem State.lpeM_lpe (s : State) (f : Lpe → Lpe) : (s.lpeM f).lpe = f s.lpe := rfl
@[simp] theorem State.lpeM_parures (s : State) (f : Lpe → Lpe) : (s.lpeM f).parures = s.parures := rfl
@[simp] theorem State.lpeM_ast (s : State) (f : Lpe → Lpe) : (s.lpeM f).ast = s.ast := rfl
@[simp] theorem State.lpeM_smp (s : State) (f : Lpe → Lpe) : (s.lpeM f).smp = s.smp := rfl
@[simp] theorem State.lpeM_fil (s : State) (f : Lpe → Lpe) : (s.lpeM f).fil = s.fil := rfl
@[simp] theorem State.lpeM_stm (s : State) (f : Lpe → Lpe) : (s.lpeM f).stm = s.stm := rfl
@[simp] theorem State.lpeM_lockets (s : State) (f : Lpe → Lpe) : (s.lpeM f).lockets = s.lockets := rfl
@[simp] theorem State.lpeM_charms (s : State) (f : Lpe → Lpe) : (s.lpeM f).charms = s.charms := rfl
@[simp] theorem State.lpeM_facets (s : State) (f : Lpe → Lpe) : (s.lpeM f).facets = s.facets := rfl
@[simp] theorem State.lpeM_keys (s : State) (f : Lpe → Lpe) : (s.lpeM f).keys = s.keys := rfl
@[simp] theorem State.lpeM_t1 (s : State) (f : Lpe → Lpe) : (s.lpeM f).t1 = s.t1 := rfl
@[simp] theorem State.lpeM_extents (s : State) (f : Lpe → Lpe) : (s.lpeM f).extents = s.extents := rfl
@[simp] theorem State.lpeM_hbc (s : State) (f : Lpe → Lpe) : (s.lpeM f).hbc = s.hbc := rfl
@[simp] theorem State.lpeM_lpc (s : State) (f : Lpe → Lpe) : (s.lpeM f).lpc = s.lpc := rfl
@[simp] theorem State.lpeM_cur (s : State) (f : Lpe → Lpe) : (s.lpeM f).cur = s.cur := rfl
@[simp] theorem State.lpeM_bays (s : State) (f : Lpe → Lpe) : (s.lpeM f).bays = s.bays := rfl
@[simp] theorem State.lpeM_eph (s : State) (f : Lpe → Lpe) : (s.lpeM f).eph = s.eph := rfl
@[simp] theorem State.lpeM_traffic (s : State) (f : Lpe → Lpe) : (s.lpeM f).traffic = s.traffic := rfl
@[simp] theorem State.lpeM_colls (s : State) (f : Lpe → Lpe) : (s.lpeM f).colls = s.colls := rfl
@[simp] theorem State.lpeM_searches (s : State) (f : Lpe → Lpe) : (s.lpeM f).searches = s.searches := rfl
@[simp] theorem State.lpeM_selects (s : State) (f : Lpe → Lpe) : (s.lpeM f).selects = s.selects := rfl
@[simp] theorem State.lpeM_sieves (s : State) (f : Lpe → Lpe) : (s.lpeM f).sieves = s.sieves := rfl
@[simp] theorem State.lpeM_integ (s : State) (f : Lpe → Lpe) : (s.lpeM f).integ = s.integ := rfl
@[simp] theorem State.lpeM_ckpt (s : State) (f : Lpe → Lpe) : (s.lpeM f).ckpt = s.ckpt := rfl
@[simp] theorem State.lpeM_hif (s : State) (f : Lpe → Lpe) : (s.lpeM f).hif = s.hif := rfl
@[simp] theorem State.lpeM_std (s : State) (f : Lpe → Lpe) : (s.lpeM f).std = s.std := rfl
@[simp] theorem State.lpeM_lan (s : State) (f : Lpe → Lpe) : (s.lpeM f).lan = s.lan := rfl
@[simp] theorem State.lpeM_hostMem (s : State) (f : Lpe → Lpe) : (s.lpeM f).hostMem = s.hostMem := rfl
@[simp] theorem State.lpeM_replies (s : State) (f : Lpe → Lpe) : (s.lpeM f).replies = s.replies := rfl

@[simp] theorem State.locketM_pending (s : State) (h : Nat) (f : Locket → Locket) : (s.locketM h f).pending = s.pending := rfl
@[simp] theorem State.locketM_now (s : State) (h : Nat) (f : Locket → Locket) : (s.locketM h f).now = s.now := rfl
@[simp] theorem State.locketM_ory (s : State) (h : Nat) (f : Locket → Locket) : (s.locketM h f).ory = s.ory := rfl
@[simp] theorem State.locketM_cells (s : State) (h : Nat) (f : Locket → Locket) : (s.locketM h f).cells = s.cells := rfl
@[simp] theorem State.locketM_lpe (s : State) (h : Nat) (f : Locket → Locket) : (s.locketM h f).lpe = s.lpe := rfl
@[simp] theorem State.locketM_parures (s : State) (h : Nat) (f : Locket → Locket) : (s.locketM h f).parures = s.parures := rfl
@[simp] theorem State.locketM_ast (s : State) (h : Nat) (f : Locket → Locket) : (s.locketM h f).ast = s.ast := rfl
@[simp] theorem State.locketM_smp (s : State) (h : Nat) (f : Locket → Locket) : (s.locketM h f).smp = s.smp := rfl
@[simp] theorem State.locketM_fil (s : State) (h : Nat) (f : Locket → Locket) : (s.locketM h f).fil = s.fil := rfl
@[simp] theorem State.locketM_stm (s : State) (h : Nat) (f : Locket → Locket) : (s.locketM h f).stm = s.stm := rfl
@[simp] theorem State.locketM_lockets (s : State) (h : Nat) (f : Locket → Locket) : (s.locketM h f).lockets = s.lockets.upd h f := rfl
@[simp] theorem State.locketM_charms (s : State) (h : Nat) (f : Locket → Locket) : (s.locketM h f).charms = s.charms := rfl
@[simp] theorem State.locketM_facets (s : State) (h : Nat) (f : Locket → Locket) : (s.locketM h f).facets = s.facets := rfl
@[simp] theorem State.locketM_keys (s : State) (h : Nat) (f : Locket → Locket) : (s.locketM h f).keys = s.keys := rfl
@[simp] theorem State.locketM_t1 (s : State) (h : Nat) (f : Locket → Locket) : (s.locketM h f).t1 = s.t1 := rfl
@[simp] theorem State.locketM_extents (s : State) (h : Nat) (f : Locket → Locket) : (s.locketM h f).extents = s.extents := rfl
@[simp] theorem State.locketM_hbc (s : State) (h : Nat) (f : Locket → Locket) : (s.locketM h f).hbc = s.hbc := rfl
@[simp] theorem State.locketM_lpc (s : State) (h : Nat) (f : Locket → Locket) : (s.locketM h f).lpc = s.lpc := rfl
@[simp] theorem State.locketM_cur (s : State) (h : Nat) (f : Locket → Locket) : (s.locketM h f).cur = s.cur := rfl
@[simp] theorem State.locketM_bays (s : State) (h : Nat) (f : Locket → Locket) : (s.locketM h f).bays = s.bays := rfl
@[simp] theorem State.locketM_eph (s : State) (h : Nat) (f : Locket → Locket) : (s.locketM h f).eph = s.eph := rfl
@[simp] theorem State.locketM_traffic (s : State) (h : Nat) (f : Locket → Locket) : (s.locketM h f).traffic = s.traffic := rfl
@[simp] theorem State.locketM_colls (s : State) (h : Nat) (f : Locket → Locket) : (s.locketM h f).colls = s.colls := rfl
@[simp] theorem State.locketM_searches (s : State) (h : Nat) (f : Locket → Locket) : (s.locketM h f).searches = s.searches := rfl
@[simp] theorem State.locketM_selects (s : State) (h : Nat) (f : Locket → Locket) : (s.locketM h f).selects = s.selects := rfl
@[simp] theorem State.locketM_sieves (s : State) (h : Nat) (f : Locket → Locket) : (s.locketM h f).sieves = s.sieves := rfl
@[simp] theorem State.locketM_integ (s : State) (h : Nat) (f : Locket → Locket) : (s.locketM h f).integ = s.integ := rfl
@[simp] theorem State.locketM_ckpt (s : State) (h : Nat) (f : Locket → Locket) : (s.locketM h f).ckpt = s.ckpt := rfl
@[simp] theorem State.locketM_hif (s : State) (h : Nat) (f : Locket → Locket) : (s.locketM h f).hif = s.hif := rfl
@[simp] theorem State.locketM_std (s : State) (h : Nat) (f : Locket → Locket) : (s.locketM h f).std = s.std := rfl
@[simp] theorem State.locketM_lan (s : State) (h : Nat) (f : Locket → Locket) : (s.locketM h f).lan = s.lan := rfl
@[simp] theorem State.locketM_hostMem (s : State) (h : Nat) (f : Locket → Locket) : (s.locketM h f).hostMem = s.hostMem := rfl
@[simp] theorem State.locketM_replies (s : State) (h : Nat) (f : Locket → Locket) : (s.locketM h f).replies = s.replies := rfl

@[simp] theorem State.charmM_pending (s : State) (ci : Nat) (f : Charm → Charm) : (s.charmM ci f).pending = s.pending := rfl
@[simp] theorem State.charmM_now (s : State) (ci : Nat) (f : Charm → Charm) : (s.charmM ci f).now = s.now := rfl
@[simp] theorem State.charmM_ory (s : State) (ci : Nat) (f : Charm → Charm) : (s.charmM ci f).ory = s.ory := rfl
@[simp] theorem State.charmM_cells (s : State) (ci : Nat) (f : Charm → Charm) : (s.charmM ci f).cells = s.cells := rfl
@[simp] theorem State.charmM_lpe (s : State) (ci : Nat) (f : Charm → Charm) : (s.charmM ci f).lpe = s.lpe := rfl
@[simp] theorem State.charmM_parures (s : State) (ci : Nat) (f : Charm → Charm) : (s.charmM ci f).parures = s.parures := rfl
@[simp] theorem State.charmM_ast (s : State) (ci : Nat) (f : Charm → Charm) : (s.charmM ci f).ast = s.ast := rfl
@[simp] theorem State.charmM_smp (s : State) (ci : Nat) (f : Charm → Charm) : (s.charmM ci f).smp = s.smp := rfl
@[simp] theorem State.charmM_fil (s : State) (ci : Nat) (f : Charm → Charm) : (s.charmM ci f).fil = s.fil := rfl
@[simp] theorem State.charmM_stm (s : State) (ci : Nat) (f : Charm → Charm) : (s.charmM ci f).stm = s.stm := rfl
@[simp] theorem State.charmM_lockets (s : State) (ci : Nat) (f : Charm → Charm) : (s.charmM ci f).lockets = s.lockets := rfl
@[simp] theorem State.charmM_charms (s : State) (ci : Nat) (f : Charm → Charm) : (s.charmM ci f).charms = s.charms.upd ci f := rfl
@[simp] theorem State.charmM_facets (s : State) (ci : Nat) (f : Charm → Charm) : (s.charmM ci f).facets = s.facets := rfl
@[simp] theorem State.charmM_keys (s : State) (ci : Nat) (f : Charm → Charm) : (s.charmM ci f).keys = s.keys := rfl
@[simp] theorem State.charmM_t1 (s : State) (ci : Nat) (f : Charm → Charm) : (s.charmM ci f).t1 = s.t1 := rfl
@[simp] theorem State.charmM_extents (s : State) (ci : Nat) (f : Charm → Charm) : (s.charmM ci f).extents = s.extents := rfl
@[simp] theorem State.charmM_hbc (s : State) (ci : Nat) (f : Charm → Charm) : (s.charmM ci f).hbc = s.hbc := rfl
@[simp] theorem State.charmM_lpc (s : State) (ci : Nat) (f : Charm → Charm) : (s.charmM ci f).lpc = s.lpc := rfl
@[simp] theorem State.charmM_cur (s : State) (ci : Nat) (f : Charm → Charm) : (s.charmM ci f).cur = s.cur := rfl
@[simp] theorem State.charmM_bays (s : State) (ci : Nat) (f : Charm → Charm) : (s.charmM ci f).bays = s.bays := rfl
@[simp] theorem State.charmM_eph (s : State) (ci : Nat) (f : Charm → Charm) : (s.charmM ci f).eph = s.eph := rfl
@[simp] theorem State.charmM_traffic (s : State) (ci : Nat) (f : Charm → Charm) : (s.charmM ci f).traffic = s.traffic := rfl
@[simp] theorem State.charmM_colls (s : State) (ci : Nat) (f : Charm → Charm) : (s.charmM ci f).colls = s.colls := rfl
@[simp] theorem State.charmM_searches (s : State) (ci : Nat) (f : Charm → Charm) : (s.charmM ci f).searches = s.searches := rfl
@[simp] theorem State.charmM_selects (s : State) (ci : Nat) (f : Charm → Charm) : (s.charmM ci f).selects = s.selects := rfl
@[simp] theorem State.charmM_sieves (s : State) (ci : Nat) (f : Charm → Charm) : (s.charmM ci f).sieves = s.sieves := rfl
@[simp] theorem State.charmM_integ (s : State) (ci : Nat) (f : Charm → Charm) : (s.charmM ci f).integ = s.integ := rfl
@[simp] theorem State.charmM_ckpt (s : State) (ci : Nat) (f : Charm → Charm) : (s.charmM ci f).ckpt = s.ckpt := rfl
@[simp] theorem State.charmM_hif (s : State) (ci : Nat) (f : Charm → Charm) : (s.charmM ci f).hif = s.hif := rfl
@[simp] theorem State.charmM_std (s : State) (ci : Nat) (f : Charm → Charm) : (s.charmM ci f).std = s.std := rfl
@[simp] theorem State.charmM_lan (s : State) (ci : Nat) (f : Charm → Charm) : (s.charmM ci f).lan = s.lan := rfl
@[simp] theorem State.charmM_hostMem (s : State) (ci : Nat) (f : Charm → Charm) : (s.charmM ci f).hostMem = s.hostMem := rfl
@[simp] theorem State.charmM_replies (s : State) (ci : Nat) (f : Charm → Charm) : (s.charmM ci f).replies = s.replies := rfl

@[simp] theorem State.replicaM_pending (s : State) (ci st : Nat) (f : Replica → Replica) : (s.replicaM ci st f).pending = s.pending := rfl
@[simp] theorem State.replicaM_now (s : State) (ci st : Nat) (f : Replica → Replica) : (s.replicaM ci st f).now = s.now := rfl
@[simp] theorem State.replicaM_ory (s : State) (ci st : Nat) (f : Replica → Replica) : (s.replicaM ci st f).ory = s.ory := rfl
@[simp] theorem State.replicaM_cells (s : State) (ci st : Nat) (f : Replica → Replica) : (s.replicaM ci st f).cells = s.cells := rfl
@[simp] theorem State.replicaM_lpe (s : State) (ci st : Nat) (f : Replica → Replica) : (s.replicaM ci st f).lpe = s.lpe := rfl
@[simp] theorem State.replicaM_parures (s : State) (ci st : Nat) (f : Replica → Replica) : (s.replicaM ci st f).parures = s.parures := rfl
@[simp] theorem State.replicaM_ast (s : State) (ci st : Nat) (f : Replica → Replica) : (s.replicaM ci st f).ast = s.ast := rfl
@[simp] theorem State.replicaM_smp (s : State) (ci st : Nat) (f : Replica → Replica) : (s.replicaM ci st f).smp = s.smp := rfl
@[simp] theorem State.replicaM_fil (s : State) (ci st : Nat) (f : Replica → Replica) : (s.replicaM ci st f).fil = s.fil := rfl
@[simp] theorem State.replicaM_stm (s : State) (ci st : Nat) (f : Replica → Replica) : (s.replicaM ci st f).stm = s.stm := rfl
@[simp] theorem State.replicaM_lockets (s : State) (ci st : Nat) (f : Replica → Replica) : (s.replicaM ci st f).lockets = s.lockets := rfl
@[simp] theorem State.replicaM_charms (s : State) (ci st : Nat) (f : Replica → Replica) : (s.replicaM ci st f).charms = s.charms.upd ci fun c => { c with replicas := c.replicas.modify st f } := rfl
@[simp] theorem State.replicaM_facets (s : State) (ci st : Nat) (f : Replica → Replica) : (s.replicaM ci st f).facets = s.facets := rfl
@[simp] theorem State.replicaM_keys (s : State) (ci st : Nat) (f : Replica → Replica) : (s.replicaM ci st f).keys = s.keys := rfl
@[simp] theorem State.replicaM_t1 (s : State) (ci st : Nat) (f : Replica → Replica) : (s.replicaM ci st f).t1 = s.t1 := rfl
@[simp] theorem State.replicaM_extents (s : State) (ci st : Nat) (f : Replica → Replica) : (s.replicaM ci st f).extents = s.extents := rfl
@[simp] theorem State.replicaM_hbc (s : State) (ci st : Nat) (f : Replica → Replica) : (s.replicaM ci st f).hbc = s.hbc := rfl
@[simp] theorem State.replicaM_lpc (s : State) (ci st : Nat) (f : Replica → Replica) : (s.replicaM ci st f).lpc = s.lpc := rfl
@[simp] theorem State.replicaM_cur (s : State) (ci st : Nat) (f : Replica → Replica) : (s.replicaM ci st f).cur = s.cur := rfl
@[simp] theorem State.replicaM_bays (s : State) (ci st : Nat) (f : Replica → Replica) : (s.replicaM ci st f).bays = s.bays := rfl
@[simp] theorem State.replicaM_eph (s : State) (ci st : Nat) (f : Replica → Replica) : (s.replicaM ci st f).eph = s.eph := rfl
@[simp] theorem State.replicaM_traffic (s : State) (ci st : Nat) (f : Replica → Replica) : (s.replicaM ci st f).traffic = s.traffic := rfl
@[simp] theorem State.replicaM_colls (s : State) (ci st : Nat) (f : Replica → Replica) : (s.replicaM ci st f).colls = s.colls := rfl
@[simp] theorem State.replicaM_searches (s : State) (ci st : Nat) (f : Replica → Replica) : (s.replicaM ci st f).searches = s.searches := rfl
@[simp] theorem State.replicaM_selects (s : State) (ci st : Nat) (f : Replica → Replica) : (s.replicaM ci st f).selects = s.selects := rfl
@[simp] theorem State.replicaM_sieves (s : State) (ci st : Nat) (f : Replica → Replica) : (s.replicaM ci st f).sieves = s.sieves := rfl
@[simp] theorem State.replicaM_integ (s : State) (ci st : Nat) (f : Replica → Replica) : (s.replicaM ci st f).integ = s.integ := rfl
@[simp] theorem State.replicaM_ckpt (s : State) (ci st : Nat) (f : Replica → Replica) : (s.replicaM ci st f).ckpt = s.ckpt := rfl
@[simp] theorem State.replicaM_hif (s : State) (ci st : Nat) (f : Replica → Replica) : (s.replicaM ci st f).hif = s.hif := rfl
@[simp] theorem State.replicaM_std (s : State) (ci st : Nat) (f : Replica → Replica) : (s.replicaM ci st f).std = s.std := rfl
@[simp] theorem State.replicaM_lan (s : State) (ci st : Nat) (f : Replica → Replica) : (s.replicaM ci st f).lan = s.lan := rfl
@[simp] theorem State.replicaM_hostMem (s : State) (ci st : Nat) (f : Replica → Replica) : (s.replicaM ci st f).hostMem = s.hostMem := rfl
@[simp] theorem State.replicaM_replies (s : State) (ci st : Nat) (f : Replica → Replica) : (s.replicaM ci st f).replies = s.replies := rfl

@[simp] theorem State.bayM_pending (s : State) (n : Nat) (f : Bay → Bay) : (s.bayM n f).pending = s.pending := rfl
@[simp] theorem State.bayM_now (s : State) (n : Nat) (f : Bay → Bay) : (s.bayM n f).now = s.now := rfl
@[simp] theorem State.bayM_ory (s : State) (n : Nat) (f : Bay → Bay) : (s.bayM n f).ory = s.ory := rfl
@[simp] theorem State.bayM_cells (s : State) (n : Nat) (f : Bay → Bay) : (s.bayM n f).cells = s.cells := rfl
@[simp] theorem State.bayM_lpe (s : State) (n : Nat) (f : Bay → Bay) : (s.bayM n f).lpe = s.lpe := rfl
@[simp] theorem State.bayM_parures (s : State) (n : Nat) (f : Bay → Bay) : (s.bayM n f).parures = s.parures := rfl
@[simp] theorem State.bayM_ast (s : State) (n : Nat) (f : Bay → Bay) : (s.bayM n f).ast = s.ast := rfl
@[simp] theorem State.bayM_smp (s : State) (n : Nat) (f : Bay → Bay) : (s.bayM n f).smp = s.smp := rfl
@[simp] theorem State.bayM_fil (s : State) (n : Nat) (f : Bay → Bay) : (s.bayM n f).fil = s.fil := rfl
@[simp] theorem State.bayM_stm (s : State) (n : Nat) (f : Bay → Bay) : (s.bayM n f).stm = s.stm := rfl
@[simp] theorem State.bayM_lockets (s : State) (n : Nat) (f : Bay → Bay) : (s.bayM n f).lockets = s.lockets := rfl
@[simp] theorem State.bayM_charms (s : State) (n : Nat) (f : Bay → Bay) : (s.bayM n f).charms = s.charms := rfl
@[simp] theorem State.bayM_facets (s : State) (n : Nat) (f : Bay → Bay) : (s.bayM n f).facets = s.facets := rfl
@[simp] theorem State.bayM_keys (s : State) (n : Nat) (f : Bay → Bay) : (s.bayM n f).keys = s.keys := rfl
@[simp] theorem State.bayM_t1 (s : State) (n : Nat) (f : Bay → Bay) : (s.bayM n f).t1 = s.t1 := rfl
@[simp] theorem State.bayM_extents (s : State) (n : Nat) (f : Bay → Bay) : (s.bayM n f).extents = s.extents := rfl
@[simp] theorem State.bayM_hbc (s : State) (n : Nat) (f : Bay → Bay) : (s.bayM n f).hbc = s.hbc := rfl
@[simp] theorem State.bayM_lpc (s : State) (n : Nat) (f : Bay → Bay) : (s.bayM n f).lpc = s.lpc := rfl
@[simp] theorem State.bayM_cur (s : State) (n : Nat) (f : Bay → Bay) : (s.bayM n f).cur = s.cur := rfl
@[simp] theorem State.bayM_bays (s : State) (n : Nat) (f : Bay → Bay) : (s.bayM n f).bays = s.bays.modify n f := rfl
@[simp] theorem State.bayM_eph (s : State) (n : Nat) (f : Bay → Bay) : (s.bayM n f).eph = s.eph := rfl
@[simp] theorem State.bayM_traffic (s : State) (n : Nat) (f : Bay → Bay) : (s.bayM n f).traffic = s.traffic := rfl
@[simp] theorem State.bayM_colls (s : State) (n : Nat) (f : Bay → Bay) : (s.bayM n f).colls = s.colls := rfl
@[simp] theorem State.bayM_searches (s : State) (n : Nat) (f : Bay → Bay) : (s.bayM n f).searches = s.searches := rfl
@[simp] theorem State.bayM_selects (s : State) (n : Nat) (f : Bay → Bay) : (s.bayM n f).selects = s.selects := rfl
@[simp] theorem State.bayM_sieves (s : State) (n : Nat) (f : Bay → Bay) : (s.bayM n f).sieves = s.sieves := rfl
@[simp] theorem State.bayM_integ (s : State) (n : Nat) (f : Bay → Bay) : (s.bayM n f).integ = s.integ := rfl
@[simp] theorem State.bayM_ckpt (s : State) (n : Nat) (f : Bay → Bay) : (s.bayM n f).ckpt = s.ckpt := rfl
@[simp] theorem State.bayM_hif (s : State) (n : Nat) (f : Bay → Bay) : (s.bayM n f).hif = s.hif := rfl
@[simp] theorem State.bayM_std (s : State) (n : Nat) (f : Bay → Bay) : (s.bayM n f).std = s.std := rfl
@[simp] theorem State.bayM_lan (s : State) (n : Nat) (f : Bay → Bay) : (s.bayM n f).lan = s.lan := rfl
@[simp] theorem State.bayM_hostMem (s : State) (n : Nat) (f : Bay → Bay) : (s.bayM n f).hostMem = s.hostMem := rfl
@[simp] theorem State.bayM_replies (s : State) (n : Nat) (f : Bay → Bay) : (s.bayM n f).replies = s.replies := rfl

@[simp] theorem State.ctxM_pending (s : State) (c : Nat) (f : Ctx → Ctx) : (s.ctxM c f).pending = s.pending := rfl
@[simp] theorem State.ctxM_now (s : State) (c : Nat) (f : Ctx → Ctx) : (s.ctxM c f).now = s.now := rfl
@[simp] theorem State.ctxM_ory (s : State) (c : Nat) (f : Ctx → Ctx) : (s.ctxM c f).ory = s.ory := rfl
@[simp] theorem State.ctxM_cells (s : State) (c : Nat) (f : Ctx → Ctx) : (s.ctxM c f).cells = s.cells := rfl
@[simp] theorem State.ctxM_lpe (s : State) (c : Nat) (f : Ctx → Ctx) : (s.ctxM c f).lpe = s.lpe := rfl
@[simp] theorem State.ctxM_parures (s : State) (c : Nat) (f : Ctx → Ctx) : (s.ctxM c f).parures = s.parures := rfl
@[simp] theorem State.ctxM_ast (s : State) (c : Nat) (f : Ctx → Ctx) : (s.ctxM c f).ast = s.ast := rfl
@[simp] theorem State.ctxM_smp (s : State) (c : Nat) (f : Ctx → Ctx) : (s.ctxM c f).smp = s.smp := rfl
@[simp] theorem State.ctxM_fil (s : State) (c : Nat) (f : Ctx → Ctx) : (s.ctxM c f).fil = s.fil := rfl
@[simp] theorem State.ctxM_stm (s : State) (c : Nat) (f : Ctx → Ctx) : (s.ctxM c f).stm = s.stm := rfl
@[simp] theorem State.ctxM_lockets (s : State) (c : Nat) (f : Ctx → Ctx) : (s.ctxM c f).lockets = s.lockets := rfl
@[simp] theorem State.ctxM_charms (s : State) (c : Nat) (f : Ctx → Ctx) : (s.ctxM c f).charms = s.charms := rfl
@[simp] theorem State.ctxM_facets (s : State) (c : Nat) (f : Ctx → Ctx) : (s.ctxM c f).facets = s.facets := rfl
@[simp] theorem State.ctxM_keys (s : State) (c : Nat) (f : Ctx → Ctx) : (s.ctxM c f).keys = s.keys := rfl
@[simp] theorem State.ctxM_t1 (s : State) (c : Nat) (f : Ctx → Ctx) : (s.ctxM c f).t1 = s.t1 := rfl
@[simp] theorem State.ctxM_extents (s : State) (c : Nat) (f : Ctx → Ctx) : (s.ctxM c f).extents = s.extents := rfl
@[simp] theorem State.ctxM_hbc (s : State) (c : Nat) (f : Ctx → Ctx) : (s.ctxM c f).hbc = s.hbc := rfl
@[simp] theorem State.ctxM_lpc (s : State) (c : Nat) (f : Ctx → Ctx) : (s.ctxM c f).lpc = s.lpc := rfl
@[simp] theorem State.ctxM_cur (s : State) (c : Nat) (f : Ctx → Ctx) : (s.ctxM c f).cur = s.cur := rfl
@[simp] theorem State.ctxM_bays (s : State) (c : Nat) (f : Ctx → Ctx) : (s.ctxM c f).bays = s.bays := rfl
@[simp] theorem State.ctxM_eph (s : State) (c : Nat) (f : Ctx → Ctx) : (s.ctxM c f).eph = { s.eph with ctxs := s.eph.ctxs.upd c f } := rfl
@[simp] theorem State.ctxM_traffic (s : State) (c : Nat) (f : Ctx → Ctx) : (s.ctxM c f).traffic = s.traffic := rfl
@[simp] theorem State.ctxM_colls (s : State) (c : Nat) (f : Ctx → Ctx) : (s.ctxM c f).colls = s.colls := rfl
@[simp] theorem State.ctxM_searches (s : State) (c : Nat) (f : Ctx → Ctx) : (s.ctxM c f).searches = s.searches := rfl
@[simp] theorem State.ctxM_selects (s : State) (c : Nat) (f : Ctx → Ctx) : (s.ctxM c f).selects = s.selects := rfl
@[simp] theorem State.ctxM_sieves (s : State) (c : Nat) (f : Ctx → Ctx) : (s.ctxM c f).sieves = s.sieves := rfl
@[simp] theorem State.ctxM_integ (s : State) (c : Nat) (f : Ctx → Ctx) : (s.ctxM c f).integ = s.integ := rfl
@[simp] theorem State.ctxM_ckpt (s : State) (c : Nat) (f : Ctx → Ctx) : (s.ctxM c f).ckpt = s.ckpt := rfl
@[simp] theorem State.ctxM_hif (s : State) (c : Nat) (f : Ctx → Ctx) : (s.ctxM c f).hif = s.hif := rfl
@[simp] theorem State.ctxM_std (s : State) (c : Nat) (f : Ctx → Ctx) : (s.ctxM c f).std = s.std := rfl
@[simp] theorem State.ctxM_lan (s : State) (c : Nat) (f : Ctx → Ctx) : (s.ctxM c f).lan = s.lan := rfl
@[simp] theorem State.ctxM_hostMem (s : State) (c : Nat) (f : Ctx → Ctx) : (s.ctxM c f).hostMem = s.hostMem := rfl
@[simp] theorem State.ctxM_replies (s : State) (c : Nat) (f : Ctx → Ctx) : (s.ctxM c f).replies = s.replies := rfl

@[simp] theorem State.stepM_pending (s : State) (c : Nat) (f : StepRec → StepRec) : (s.stepM c f).pending = s.pending := rfl
@[simp] theorem State.stepM_now (s : State) (c : Nat) (f : StepRec → StepRec) : (s.stepM c f).now = s.now := rfl
@[simp] theorem State.stepM_ory (s : State) (c : Nat) (f : StepRec → StepRec) : (s.stepM c f).ory = s.ory := rfl
@[simp] theorem State.stepM_cells (s : State) (c : Nat) (f : StepRec → StepRec) : (s.stepM c f).cells = s.cells := rfl
@[simp] theorem State.stepM_lpe (s : State) (c : Nat) (f : StepRec → StepRec) : (s.stepM c f).lpe = s.lpe := rfl
@[simp] theorem State.stepM_parures (s : State) (c : Nat) (f : StepRec → StepRec) : (s.stepM c f).parures = s.parures := rfl
@[simp] theorem State.stepM_ast (s : State) (c : Nat) (f : StepRec → StepRec) : (s.stepM c f).ast = s.ast := rfl
@[simp] theorem State.stepM_smp (s : State) (c : Nat) (f : StepRec → StepRec) : (s.stepM c f).smp = s.smp := rfl
@[simp] theorem State.stepM_fil (s : State) (c : Nat) (f : StepRec → StepRec) : (s.stepM c f).fil = s.fil := rfl
@[simp] theorem State.stepM_stm (s : State) (c : Nat) (f : StepRec → StepRec) : (s.stepM c f).stm = s.stm := rfl
@[simp] theorem State.stepM_lockets (s : State) (c : Nat) (f : StepRec → StepRec) : (s.stepM c f).lockets = s.lockets := rfl
@[simp] theorem State.stepM_charms (s : State) (c : Nat) (f : StepRec → StepRec) : (s.stepM c f).charms = s.charms := rfl
@[simp] theorem State.stepM_facets (s : State) (c : Nat) (f : StepRec → StepRec) : (s.stepM c f).facets = s.facets := rfl
@[simp] theorem State.stepM_keys (s : State) (c : Nat) (f : StepRec → StepRec) : (s.stepM c f).keys = s.keys := rfl
@[simp] theorem State.stepM_t1 (s : State) (c : Nat) (f : StepRec → StepRec) : (s.stepM c f).t1 = s.t1 := rfl
@[simp] theorem State.stepM_extents (s : State) (c : Nat) (f : StepRec → StepRec) : (s.stepM c f).extents = s.extents := rfl
@[simp] theorem State.stepM_hbc (s : State) (c : Nat) (f : StepRec → StepRec) : (s.stepM c f).hbc = s.hbc := rfl
@[simp] theorem State.stepM_lpc (s : State) (c : Nat) (f : StepRec → StepRec) : (s.stepM c f).lpc = s.lpc := rfl
@[simp] theorem State.stepM_cur (s : State) (c : Nat) (f : StepRec → StepRec) : (s.stepM c f).cur = s.cur := rfl
@[simp] theorem State.stepM_bays (s : State) (c : Nat) (f : StepRec → StepRec) : (s.stepM c f).bays = s.bays := rfl
@[simp] theorem State.stepM_eph (s : State) (c : Nat) (f : StepRec → StepRec) : (s.stepM c f).eph = { s.eph with ctxs := s.eph.ctxs.upd c fun x => { x with step := x.step.map f } } := rfl
@[simp] theorem State.stepM_traffic (s : State) (c : Nat) (f : StepRec → StepRec) : (s.stepM c f).traffic = s.traffic := rfl
@[simp] theorem State.stepM_colls (s : State) (c : Nat) (f : StepRec → StepRec) : (s.stepM c f).colls = s.colls := rfl
@[simp] theorem State.stepM_searches (s : State) (c : Nat) (f : StepRec → StepRec) : (s.stepM c f).searches = s.searches := rfl
@[simp] theorem State.stepM_selects (s : State) (c : Nat) (f : StepRec → StepRec) : (s.stepM c f).selects = s.selects := rfl
@[simp] theorem State.stepM_sieves (s : State) (c : Nat) (f : StepRec → StepRec) : (s.stepM c f).sieves = s.sieves := rfl
@[simp] theorem State.stepM_integ (s : State) (c : Nat) (f : StepRec → StepRec) : (s.stepM c f).integ = s.integ := rfl
@[simp] theorem State.stepM_ckpt (s : State) (c : Nat) (f : StepRec → StepRec) : (s.stepM c f).ckpt = s.ckpt := rfl
@[simp] theorem State.stepM_hif (s : State) (c : Nat) (f : StepRec → StepRec) : (s.stepM c f).hif = s.hif := rfl
@[simp] theorem State.stepM_std (s : State) (c : Nat) (f : StepRec → StepRec) : (s.stepM c f).std = s.std := rfl
@[simp] theorem State.stepM_lan (s : State) (c : Nat) (f : StepRec → StepRec) : (s.stepM c f).lan = s.lan := rfl
@[simp] theorem State.stepM_hostMem (s : State) (c : Nat) (f : StepRec → StepRec) : (s.stepM c f).hostMem = s.hostMem := rfl
@[simp] theorem State.stepM_replies (s : State) (c : Nat) (f : StepRec → StepRec) : (s.stepM c f).replies = s.replies := rfl

@[simp] theorem State.portM_pending (s : State) (n : Nat) (f : Port → Port) : (s.portM n f).pending = s.pending := rfl
@[simp] theorem State.portM_now (s : State) (n : Nat) (f : Port → Port) : (s.portM n f).now = s.now := rfl
@[simp] theorem State.portM_ory (s : State) (n : Nat) (f : Port → Port) : (s.portM n f).ory = s.ory := rfl
@[simp] theorem State.portM_cells (s : State) (n : Nat) (f : Port → Port) : (s.portM n f).cells = s.cells := rfl
@[simp] theorem State.portM_lpe (s : State) (n : Nat) (f : Port → Port) : (s.portM n f).lpe = s.lpe := rfl
@[simp] theorem State.portM_parures (s : State) (n : Nat) (f : Port → Port) : (s.portM n f).parures = s.parures := rfl
@[simp] theorem State.portM_ast (s : State) (n : Nat) (f : Port → Port) : (s.portM n f).ast = s.ast := rfl
@[simp] theorem State.portM_smp (s : State) (n : Nat) (f : Port → Port) : (s.portM n f).smp = s.smp := rfl
@[simp] theorem State.portM_fil (s : State) (n : Nat) (f : Port → Port) : (s.portM n f).fil = s.fil := rfl
@[simp] theorem State.portM_stm (s : State) (n : Nat) (f : Port → Port) : (s.portM n f).stm = s.stm := rfl
@[simp] theorem State.portM_lockets (s : State) (n : Nat) (f : Port → Port) : (s.portM n f).lockets = s.lockets := rfl
@[simp] theorem State.portM_charms (s : State) (n : Nat) (f : Port → Port) : (s.portM n f).charms = s.charms := rfl
@[simp] theorem State.portM_facets (s : State) (n : Nat) (f : Port → Port) : (s.portM n f).facets = s.facets := rfl
@[simp] theorem State.portM_keys (s : State) (n : Nat) (f : Port → Port) : (s.portM n f).keys = s.keys := rfl
@[simp] theorem State.portM_t1 (s : State) (n : Nat) (f : Port → Port) : (s.portM n f).t1 = s.t1 := rfl
@[simp] theorem State.portM_extents (s : State) (n : Nat) (f : Port → Port) : (s.portM n f).extents = s.extents := rfl
@[simp] theorem State.portM_hbc (s : State) (n : Nat) (f : Port → Port) : (s.portM n f).hbc = s.hbc := rfl
@[simp] theorem State.portM_lpc (s : State) (n : Nat) (f : Port → Port) : (s.portM n f).lpc = s.lpc := rfl
@[simp] theorem State.portM_cur (s : State) (n : Nat) (f : Port → Port) : (s.portM n f).cur = s.cur := rfl
@[simp] theorem State.portM_bays (s : State) (n : Nat) (f : Port → Port) : (s.portM n f).bays = s.bays := rfl
@[simp] theorem State.portM_eph (s : State) (n : Nat) (f : Port → Port) : (s.portM n f).eph = s.eph := rfl
@[simp] theorem State.portM_traffic (s : State) (n : Nat) (f : Port → Port) : (s.portM n f).traffic = s.traffic := rfl
@[simp] theorem State.portM_colls (s : State) (n : Nat) (f : Port → Port) : (s.portM n f).colls = s.colls := rfl
@[simp] theorem State.portM_searches (s : State) (n : Nat) (f : Port → Port) : (s.portM n f).searches = s.searches := rfl
@[simp] theorem State.portM_selects (s : State) (n : Nat) (f : Port → Port) : (s.portM n f).selects = s.selects := rfl
@[simp] theorem State.portM_sieves (s : State) (n : Nat) (f : Port → Port) : (s.portM n f).sieves = s.sieves := rfl
@[simp] theorem State.portM_integ (s : State) (n : Nat) (f : Port → Port) : (s.portM n f).integ = s.integ := rfl
@[simp] theorem State.portM_ckpt (s : State) (n : Nat) (f : Port → Port) : (s.portM n f).ckpt = s.ckpt := rfl
@[simp] theorem State.portM_hif (s : State) (n : Nat) (f : Port → Port) : (s.portM n f).hif = s.hif := rfl
@[simp] theorem State.portM_std (s : State) (n : Nat) (f : Port → Port) : (s.portM n f).std = { s.std with ports := s.std.ports.modify n f } := rfl
@[simp] theorem State.portM_lan (s : State) (n : Nat) (f : Port → Port) : (s.portM n f).lan = s.lan := rfl
@[simp] theorem State.portM_hostMem (s : State) (n : Nat) (f : Port → Port) : (s.portM n f).hostMem = s.hostMem := rfl
@[simp] theorem State.portM_replies (s : State) (n : Nat) (f : Port → Port) : (s.portM n f).replies = s.replies := rfl

@[simp] theorem State.cellM_pending (s : State) (p : Nat) (f : Cell → Cell) : (s.cellM p f).pending = s.pending := rfl
@[simp] theorem State.cellM_now (s : State) (p : Nat) (f : Cell → Cell) : (s.cellM p f).now = s.now := rfl
@[simp] theorem State.cellM_ory (s : State) (p : Nat) (f : Cell → Cell) : (s.cellM p f).ory = s.ory := rfl
@[simp] theorem State.cellM_cells (s : State) (p : Nat) (f : Cell → Cell) : (s.cellM p f).cells = s.cells.modify p f := rfl
@[simp] theorem State.cellM_lpe (s : State) (p : Nat) (f : Cell → Cell) : (s.cellM p f).lpe = s.lpe := rfl
@[simp] theorem State.cellM_parures (s : State) (p : Nat) (f : Cell → Cell) : (s.cellM p f).parures = s.parures := rfl
@[simp] theorem State.cellM_ast (s : State) (p : Nat) (f : Cell → Cell) : (s.cellM p f).ast = s.ast := rfl
@[simp] theorem State.cellM_smp (s : State) (p : Nat) (f : Cell → Cell) : (s.cellM p f).smp = s.smp := rfl
@[simp] theorem State.cellM_fil (s : State) (p : Nat) (f : Cell → Cell) : (s.cellM p f).fil = s.fil := rfl
@[simp] theorem State.cellM_stm (s : State) (p : Nat) (f : Cell → Cell) : (s.cellM p f).stm = s.stm := rfl
@[simp] theorem State.cellM_lockets (s : State) (p : Nat) (f : Cell → Cell) : (s.cellM p f).lockets = s.lockets := rfl
@[simp] theorem State.cellM_charms (s : State) (p : Nat) (f : Cell → Cell) : (s.cellM p f).charms = s.charms := rfl
@[simp] theorem State.cellM_facets (s : State) (p : Nat) (f : Cell → Cell) : (s.cellM p f).facets = s.facets := rfl
@[simp] theorem State.cellM_keys (s : State) (p : Nat) (f : Cell → Cell) : (s.cellM p f).keys = s.keys := rfl
@[simp] theorem State.cellM_t1 (s : State) (p : Nat) (f : Cell → Cell) : (s.cellM p f).t1 = s.t1 := rfl
@[simp] theorem State.cellM_extents (s : State) (p : Nat) (f : Cell → Cell) : (s.cellM p f).extents = s.extents := rfl
@[simp] theorem State.cellM_hbc (s : State) (p : Nat) (f : Cell → Cell) : (s.cellM p f).hbc = s.hbc := rfl
@[simp] theorem State.cellM_lpc (s : State) (p : Nat) (f : Cell → Cell) : (s.cellM p f).lpc = s.lpc := rfl
@[simp] theorem State.cellM_cur (s : State) (p : Nat) (f : Cell → Cell) : (s.cellM p f).cur = s.cur := rfl
@[simp] theorem State.cellM_bays (s : State) (p : Nat) (f : Cell → Cell) : (s.cellM p f).bays = s.bays := rfl
@[simp] theorem State.cellM_eph (s : State) (p : Nat) (f : Cell → Cell) : (s.cellM p f).eph = s.eph := rfl
@[simp] theorem State.cellM_traffic (s : State) (p : Nat) (f : Cell → Cell) : (s.cellM p f).traffic = s.traffic := rfl
@[simp] theorem State.cellM_colls (s : State) (p : Nat) (f : Cell → Cell) : (s.cellM p f).colls = s.colls := rfl
@[simp] theorem State.cellM_searches (s : State) (p : Nat) (f : Cell → Cell) : (s.cellM p f).searches = s.searches := rfl
@[simp] theorem State.cellM_selects (s : State) (p : Nat) (f : Cell → Cell) : (s.cellM p f).selects = s.selects := rfl
@[simp] theorem State.cellM_sieves (s : State) (p : Nat) (f : Cell → Cell) : (s.cellM p f).sieves = s.sieves := rfl
@[simp] theorem State.cellM_integ (s : State) (p : Nat) (f : Cell → Cell) : (s.cellM p f).integ = s.integ := rfl
@[simp] theorem State.cellM_ckpt (s : State) (p : Nat) (f : Cell → Cell) : (s.cellM p f).ckpt = s.ckpt := rfl
@[simp] theorem State.cellM_hif (s : State) (p : Nat) (f : Cell → Cell) : (s.cellM p f).hif = s.hif := rfl
@[simp] theorem State.cellM_std (s : State) (p : Nat) (f : Cell → Cell) : (s.cellM p f).std = s.std := rfl
@[simp] theorem State.cellM_lan (s : State) (p : Nat) (f : Cell → Cell) : (s.cellM p f).lan = s.lan := rfl
@[simp] theorem State.cellM_hostMem (s : State) (p : Nat) (f : Cell → Cell) : (s.cellM p f).hostMem = s.hostMem := rfl
@[simp] theorem State.cellM_replies (s : State) (p : Nat) (f : Cell → Cell) : (s.cellM p f).replies = s.replies := rfl

@[simp] theorem State.collM_pending (s : State) (ci : Nat) (f : Coll → Coll) : (s.collM ci f).pending = s.pending := rfl
@[simp] theorem State.collM_now (s : State) (ci : Nat) (f : Coll → Coll) : (s.collM ci f).now = s.now := rfl
@[simp] theorem State.collM_ory (s : State) (ci : Nat) (f : Coll → Coll) : (s.collM ci f).ory = s.ory := rfl
@[simp] theorem State.collM_cells (s : State) (ci : Nat) (f : Coll → Coll) : (s.collM ci f).cells = s.cells := rfl
@[simp] theorem State.collM_lpe (s : State) (ci : Nat) (f : Coll → Coll) : (s.collM ci f).lpe = s.lpe := rfl
@[simp] theorem State.collM_parures (s : State) (ci : Nat) (f : Coll → Coll) : (s.collM ci f).parures = s.parures := rfl
@[simp] theorem State.collM_ast (s : State) (ci : Nat) (f : Coll → Coll) : (s.collM ci f).ast = s.ast := rfl
@[simp] theorem State.collM_smp (s : State) (ci : Nat) (f : Coll → Coll) : (s.collM ci f).smp = s.smp := rfl
@[simp] theorem State.collM_fil (s : State) (ci : Nat) (f : Coll → Coll) : (s.collM ci f).fil = s.fil := rfl
@[simp] theorem State.collM_stm (s : State) (ci : Nat) (f : Coll → Coll) : (s.collM ci f).stm = s.stm := rfl
@[simp] theorem State.collM_lockets (s : State) (ci : Nat) (f : Coll → Coll) : (s.collM ci f).lockets = s.lockets := rfl
@[simp] theorem State.collM_charms (s : State) (ci : Nat) (f : Coll → Coll) : (s.collM ci f).charms = s.charms := rfl
@[simp] theorem State.collM_facets (s : State) (ci : Nat) (f : Coll → Coll) : (s.collM ci f).facets = s.facets := rfl
@[simp] theorem State.collM_keys (s : State) (ci : Nat) (f : Coll → Coll) : (s.collM ci f).keys = s.keys := rfl
@[simp] theorem State.collM_t1 (s : State) (ci : Nat) (f : Coll → Coll) : (s.collM ci f).t1 = s.t1 := rfl
@[simp] theorem State.collM_extents (s : State) (ci : Nat) (f : Coll → Coll) : (s.collM ci f).extents = s.extents := rfl
@[simp] theorem State.collM_hbc (s : State) (ci : Nat) (f : Coll → Coll) : (s.collM ci f).hbc = s.hbc := rfl
@[simp] theorem State.collM_lpc (s : State) (ci : Nat) (f : Coll → Coll) : (s.collM ci f).lpc = s.lpc := rfl
@[simp] theorem State.collM_cur (s : State) (ci : Nat) (f : Coll → Coll) : (s.collM ci f).cur = s.cur := rfl
@[simp] theorem State.collM_bays (s : State) (ci : Nat) (f : Coll → Coll) : (s.collM ci f).bays = s.bays := rfl
@[simp] theorem State.collM_eph (s : State) (ci : Nat) (f : Coll → Coll) : (s.collM ci f).eph = s.eph := rfl
@[simp] theorem State.collM_traffic (s : State) (ci : Nat) (f : Coll → Coll) : (s.collM ci f).traffic = s.traffic := rfl
@[simp] theorem State.collM_colls (s : State) (ci : Nat) (f : Coll → Coll) : (s.collM ci f).colls = s.colls.upd ci f := rfl
@[simp] theorem State.collM_searches (s : State) (ci : Nat) (f : Coll → Coll) : (s.collM ci f).searches = s.searches := rfl
@[simp] theorem State.collM_selects (s : State) (ci : Nat) (f : Coll → Coll) : (s.collM ci f).selects = s.selects := rfl
@[simp] theorem State.collM_sieves (s : State) (ci : Nat) (f : Coll → Coll) : (s.collM ci f).sieves = s.sieves := rfl
@[simp] theorem State.collM_integ (s : State) (ci : Nat) (f : Coll → Coll) : (s.collM ci f).integ = s.integ := rfl
@[simp] theorem State.collM_ckpt (s : State) (ci : Nat) (f : Coll → Coll) : (s.collM ci f).ckpt = s.ckpt := rfl
@[simp] theorem State.collM_hif (s : State) (ci : Nat) (f : Coll → Coll) : (s.collM ci f).hif = s.hif := rfl
@[simp] theorem State.collM_std (s : State) (ci : Nat) (f : Coll → Coll) : (s.collM ci f).std = s.std := rfl
@[simp] theorem State.collM_lan (s : State) (ci : Nat) (f : Coll → Coll) : (s.collM ci f).lan = s.lan := rfl
@[simp] theorem State.collM_hostMem (s : State) (ci : Nat) (f : Coll → Coll) : (s.collM ci f).hostMem = s.hostMem := rfl
@[simp] theorem State.collM_replies (s : State) (ci : Nat) (f : Coll → Coll) : (s.collM ci f).replies = s.replies := rfl

@[simp] theorem State.ringM_pending (s : State) (r : Nat) (f : Ring → Ring) : (s.ringM r f).pending = s.pending := rfl
@[simp] theorem State.ringM_now (s : State) (r : Nat) (f : Ring → Ring) : (s.ringM r f).now = s.now := rfl
@[simp] theorem State.ringM_ory (s : State) (r : Nat) (f : Ring → Ring) : (s.ringM r f).ory = s.ory := rfl
@[simp] theorem State.ringM_cells (s : State) (r : Nat) (f : Ring → Ring) : (s.ringM r f).cells = s.cells := rfl
@[simp] theorem State.ringM_lpe (s : State) (r : Nat) (f : Ring → Ring) : (s.ringM r f).lpe = s.lpe := rfl
@[simp] theorem State.ringM_parures (s : State) (r : Nat) (f : Ring → Ring) : (s.ringM r f).parures = s.parures := rfl
@[simp] theorem State.ringM_ast (s : State) (r : Nat) (f : Ring → Ring) : (s.ringM r f).ast = s.ast := rfl
@[simp] theorem State.ringM_smp (s : State) (r : Nat) (f : Ring → Ring) : (s.ringM r f).smp = s.smp := rfl
@[simp] theorem State.ringM_fil (s : State) (r : Nat) (f : Ring → Ring) : (s.ringM r f).fil = s.fil := rfl
@[simp] theorem State.ringM_stm (s : State) (r : Nat) (f : Ring → Ring) : (s.ringM r f).stm = s.stm := rfl
@[simp] theorem State.ringM_lockets (s : State) (r : Nat) (f : Ring → Ring) : (s.ringM r f).lockets = s.lockets := rfl
@[simp] theorem State.ringM_charms (s : State) (r : Nat) (f : Ring → Ring) : (s.ringM r f).charms = s.charms := rfl
@[simp] theorem State.ringM_facets (s : State) (r : Nat) (f : Ring → Ring) : (s.ringM r f).facets = s.facets := rfl
@[simp] theorem State.ringM_keys (s : State) (r : Nat) (f : Ring → Ring) : (s.ringM r f).keys = s.keys := rfl
@[simp] theorem State.ringM_t1 (s : State) (r : Nat) (f : Ring → Ring) : (s.ringM r f).t1 = s.t1 := rfl
@[simp] theorem State.ringM_extents (s : State) (r : Nat) (f : Ring → Ring) : (s.ringM r f).extents = s.extents := rfl
@[simp] theorem State.ringM_hbc (s : State) (r : Nat) (f : Ring → Ring) : (s.ringM r f).hbc = s.hbc := rfl
@[simp] theorem State.ringM_lpc (s : State) (r : Nat) (f : Ring → Ring) : (s.ringM r f).lpc = s.lpc := rfl
@[simp] theorem State.ringM_cur (s : State) (r : Nat) (f : Ring → Ring) : (s.ringM r f).cur = s.cur := rfl
@[simp] theorem State.ringM_bays (s : State) (r : Nat) (f : Ring → Ring) : (s.ringM r f).bays = s.bays := rfl
@[simp] theorem State.ringM_eph (s : State) (r : Nat) (f : Ring → Ring) : (s.ringM r f).eph = s.eph := rfl
@[simp] theorem State.ringM_traffic (s : State) (r : Nat) (f : Ring → Ring) : (s.ringM r f).traffic = s.traffic := rfl
@[simp] theorem State.ringM_colls (s : State) (r : Nat) (f : Ring → Ring) : (s.ringM r f).colls = s.colls := rfl
@[simp] theorem State.ringM_searches (s : State) (r : Nat) (f : Ring → Ring) : (s.ringM r f).searches = s.searches := rfl
@[simp] theorem State.ringM_selects (s : State) (r : Nat) (f : Ring → Ring) : (s.ringM r f).selects = s.selects := rfl
@[simp] theorem State.ringM_sieves (s : State) (r : Nat) (f : Ring → Ring) : (s.ringM r f).sieves = s.sieves := rfl
@[simp] theorem State.ringM_integ (s : State) (r : Nat) (f : Ring → Ring) : (s.ringM r f).integ = s.integ := rfl
@[simp] theorem State.ringM_ckpt (s : State) (r : Nat) (f : Ring → Ring) : (s.ringM r f).ckpt = s.ckpt := rfl
@[simp] theorem State.ringM_hif (s : State) (r : Nat) (f : Ring → Ring) : (s.ringM r f).hif = { s.hif with rings := s.hif.rings.set r (f (s.hif.rings.getD r {})) } := rfl
@[simp] theorem State.ringM_std (s : State) (r : Nat) (f : Ring → Ring) : (s.ringM r f).std = s.std := rfl
@[simp] theorem State.ringM_lan (s : State) (r : Nat) (f : Ring → Ring) : (s.ringM r f).lan = s.lan := rfl
@[simp] theorem State.ringM_hostMem (s : State) (r : Nat) (f : Ring → Ring) : (s.ringM r f).hostMem = s.hostMem := rfl
@[simp] theorem State.ringM_replies (s : State) (r : Nat) (f : Ring → Ring) : (s.ringM r f).replies = s.replies := rfl

@[simp] theorem State.dlvM_pending (s : State) (t : Nat) (f : DlvGroup → DlvGroup) : (s.dlvM t f).pending = s.pending := rfl
@[simp] theorem State.dlvM_now (s : State) (t : Nat) (f : DlvGroup → DlvGroup) : (s.dlvM t f).now = s.now := rfl
@[simp] theorem State.dlvM_ory (s : State) (t : Nat) (f : DlvGroup → DlvGroup) : (s.dlvM t f).ory = s.ory := rfl
@[simp] theorem State.dlvM_cells (s : State) (t : Nat) (f : DlvGroup → DlvGroup) : (s.dlvM t f).cells = s.cells := rfl
@[simp] theorem State.dlvM_lpe (s : State) (t : Nat) (f : DlvGroup → DlvGroup) : (s.dlvM t f).lpe = s.lpe := rfl
@[simp] theorem State.dlvM_parures (s : State) (t : Nat) (f : DlvGroup → DlvGroup) : (s.dlvM t f).parures = s.parures := rfl
@[simp] theorem State.dlvM_ast (s : State) (t : Nat) (f : DlvGroup → DlvGroup) : (s.dlvM t f).ast = s.ast := rfl
@[simp] theorem State.dlvM_smp (s : State) (t : Nat) (f : DlvGroup → DlvGroup) : (s.dlvM t f).smp = s.smp := rfl
@[simp] theorem State.dlvM_fil (s : State) (t : Nat) (f : DlvGroup → DlvGroup) : (s.dlvM t f).fil = s.fil := rfl
@[simp] theorem State.dlvM_stm (s : State) (t : Nat) (f : DlvGroup → DlvGroup) : (s.dlvM t f).stm = s.stm := rfl
@[simp] theorem State.dlvM_lockets (s : State) (t : Nat) (f : DlvGroup → DlvGroup) : (s.dlvM t f).lockets = s.lockets := rfl
@[simp] theorem State.dlvM_charms (s : State) (t : Nat) (f : DlvGroup → DlvGroup) : (s.dlvM t f).charms = s.charms := rfl
@[simp] theorem State.dlvM_facets (s : State) (t : Nat) (f : DlvGroup → DlvGroup) : (s.dlvM t f).facets = s.facets := rfl
@[simp] theorem State.dlvM_keys (s : State) (t : Nat) (f : DlvGroup → DlvGroup) : (s.dlvM t f).keys = s.keys := rfl
@[simp] theorem State.dlvM_t1 (s : State) (t : Nat) (f : DlvGroup → DlvGroup) : (s.dlvM t f).t1 = s.t1 := rfl
@[simp] theorem State.dlvM_extents (s : State) (t : Nat) (f : DlvGroup → DlvGroup) : (s.dlvM t f).extents = s.extents := rfl
@[simp] theorem State.dlvM_hbc (s : State) (t : Nat) (f : DlvGroup → DlvGroup) : (s.dlvM t f).hbc = s.hbc := rfl
@[simp] theorem State.dlvM_lpc (s : State) (t : Nat) (f : DlvGroup → DlvGroup) : (s.dlvM t f).lpc = s.lpc := rfl
@[simp] theorem State.dlvM_cur (s : State) (t : Nat) (f : DlvGroup → DlvGroup) : (s.dlvM t f).cur = s.cur := rfl
@[simp] theorem State.dlvM_bays (s : State) (t : Nat) (f : DlvGroup → DlvGroup) : (s.dlvM t f).bays = s.bays := rfl
@[simp] theorem State.dlvM_eph (s : State) (t : Nat) (f : DlvGroup → DlvGroup) : (s.dlvM t f).eph = s.eph := rfl
@[simp] theorem State.dlvM_traffic (s : State) (t : Nat) (f : DlvGroup → DlvGroup) : (s.dlvM t f).traffic = s.traffic := rfl
@[simp] theorem State.dlvM_colls (s : State) (t : Nat) (f : DlvGroup → DlvGroup) : (s.dlvM t f).colls = s.colls := rfl
@[simp] theorem State.dlvM_searches (s : State) (t : Nat) (f : DlvGroup → DlvGroup) : (s.dlvM t f).searches = s.searches := rfl
@[simp] theorem State.dlvM_selects (s : State) (t : Nat) (f : DlvGroup → DlvGroup) : (s.dlvM t f).selects = s.selects := rfl
@[simp] theorem State.dlvM_sieves (s : State) (t : Nat) (f : DlvGroup → DlvGroup) : (s.dlvM t f).sieves = s.sieves := rfl
@[simp] theorem State.dlvM_integ (s : State) (t : Nat) (f : DlvGroup → DlvGroup) : (s.dlvM t f).integ = s.integ := rfl
@[simp] theorem State.dlvM_ckpt (s : State) (t : Nat) (f : DlvGroup → DlvGroup) : (s.dlvM t f).ckpt = s.ckpt := rfl
@[simp] theorem State.dlvM_hif (s : State) (t : Nat) (f : DlvGroup → DlvGroup) : (s.dlvM t f).hif = { s.hif with dlv := s.hif.dlv.set t (f (s.hif.dlv.getD t {})) } := rfl
@[simp] theorem State.dlvM_std (s : State) (t : Nat) (f : DlvGroup → DlvGroup) : (s.dlvM t f).std = s.std := rfl
@[simp] theorem State.dlvM_lan (s : State) (t : Nat) (f : DlvGroup → DlvGroup) : (s.dlvM t f).lan = s.lan := rfl
@[simp] theorem State.dlvM_hostMem (s : State) (t : Nat) (f : DlvGroup → DlvGroup) : (s.dlvM t f).hostMem = s.hostMem := rfl
@[simp] theorem State.dlvM_replies (s : State) (t : Nat) (f : DlvGroup → DlvGroup) : (s.dlvM t f).replies = s.replies := rfl

@[simp] theorem State.tenantM_pending (s : State) (t : Nat) (f : TenantTraffic → TenantTraffic) : (s.tenantM t f).pending = s.pending := rfl
@[simp] theorem State.tenantM_now (s : State) (t : Nat) (f : TenantTraffic → TenantTraffic) : (s.tenantM t f).now = s.now := rfl
@[simp] theorem State.tenantM_ory (s : State) (t : Nat) (f : TenantTraffic → TenantTraffic) : (s.tenantM t f).ory = s.ory := rfl
@[simp] theorem State.tenantM_cells (s : State) (t : Nat) (f : TenantTraffic → TenantTraffic) : (s.tenantM t f).cells = s.cells := rfl
@[simp] theorem State.tenantM_lpe (s : State) (t : Nat) (f : TenantTraffic → TenantTraffic) : (s.tenantM t f).lpe = s.lpe := rfl
@[simp] theorem State.tenantM_parures (s : State) (t : Nat) (f : TenantTraffic → TenantTraffic) : (s.tenantM t f).parures = s.parures := rfl
@[simp] theorem State.tenantM_ast (s : State) (t : Nat) (f : TenantTraffic → TenantTraffic) : (s.tenantM t f).ast = s.ast := rfl
@[simp] theorem State.tenantM_smp (s : State) (t : Nat) (f : TenantTraffic → TenantTraffic) : (s.tenantM t f).smp = s.smp := rfl
@[simp] theorem State.tenantM_fil (s : State) (t : Nat) (f : TenantTraffic → TenantTraffic) : (s.tenantM t f).fil = s.fil := rfl
@[simp] theorem State.tenantM_stm (s : State) (t : Nat) (f : TenantTraffic → TenantTraffic) : (s.tenantM t f).stm = s.stm := rfl
@[simp] theorem State.tenantM_lockets (s : State) (t : Nat) (f : TenantTraffic → TenantTraffic) : (s.tenantM t f).lockets = s.lockets := rfl
@[simp] theorem State.tenantM_charms (s : State) (t : Nat) (f : TenantTraffic → TenantTraffic) : (s.tenantM t f).charms = s.charms := rfl
@[simp] theorem State.tenantM_facets (s : State) (t : Nat) (f : TenantTraffic → TenantTraffic) : (s.tenantM t f).facets = s.facets := rfl
@[simp] theorem State.tenantM_keys (s : State) (t : Nat) (f : TenantTraffic → TenantTraffic) : (s.tenantM t f).keys = s.keys := rfl
@[simp] theorem State.tenantM_t1 (s : State) (t : Nat) (f : TenantTraffic → TenantTraffic) : (s.tenantM t f).t1 = s.t1 := rfl
@[simp] theorem State.tenantM_extents (s : State) (t : Nat) (f : TenantTraffic → TenantTraffic) : (s.tenantM t f).extents = s.extents := rfl
@[simp] theorem State.tenantM_hbc (s : State) (t : Nat) (f : TenantTraffic → TenantTraffic) : (s.tenantM t f).hbc = s.hbc := rfl
@[simp] theorem State.tenantM_lpc (s : State) (t : Nat) (f : TenantTraffic → TenantTraffic) : (s.tenantM t f).lpc = s.lpc := rfl
@[simp] theorem State.tenantM_cur (s : State) (t : Nat) (f : TenantTraffic → TenantTraffic) : (s.tenantM t f).cur = s.cur := rfl
@[simp] theorem State.tenantM_bays (s : State) (t : Nat) (f : TenantTraffic → TenantTraffic) : (s.tenantM t f).bays = s.bays := rfl
@[simp] theorem State.tenantM_eph (s : State) (t : Nat) (f : TenantTraffic → TenantTraffic) : (s.tenantM t f).eph = s.eph := rfl
@[simp] theorem State.tenantM_traffic (s : State) (t : Nat) (f : TenantTraffic → TenantTraffic) : (s.tenantM t f).traffic = { s.traffic with tenants := s.traffic.tenants.set t (f (s.traffic.tenants.getD t {})) } := rfl
@[simp] theorem State.tenantM_colls (s : State) (t : Nat) (f : TenantTraffic → TenantTraffic) : (s.tenantM t f).colls = s.colls := rfl
@[simp] theorem State.tenantM_searches (s : State) (t : Nat) (f : TenantTraffic → TenantTraffic) : (s.tenantM t f).searches = s.searches := rfl
@[simp] theorem State.tenantM_selects (s : State) (t : Nat) (f : TenantTraffic → TenantTraffic) : (s.tenantM t f).selects = s.selects := rfl
@[simp] theorem State.tenantM_sieves (s : State) (t : Nat) (f : TenantTraffic → TenantTraffic) : (s.tenantM t f).sieves = s.sieves := rfl
@[simp] theorem State.tenantM_integ (s : State) (t : Nat) (f : TenantTraffic → TenantTraffic) : (s.tenantM t f).integ = s.integ := rfl
@[simp] theorem State.tenantM_ckpt (s : State) (t : Nat) (f : TenantTraffic → TenantTraffic) : (s.tenantM t f).ckpt = s.ckpt := rfl
@[simp] theorem State.tenantM_hif (s : State) (t : Nat) (f : TenantTraffic → TenantTraffic) : (s.tenantM t f).hif = s.hif := rfl
@[simp] theorem State.tenantM_std (s : State) (t : Nat) (f : TenantTraffic → TenantTraffic) : (s.tenantM t f).std = s.std := rfl
@[simp] theorem State.tenantM_lan (s : State) (t : Nat) (f : TenantTraffic → TenantTraffic) : (s.tenantM t f).lan = s.lan := rfl
@[simp] theorem State.tenantM_hostMem (s : State) (t : Nat) (f : TenantTraffic → TenantTraffic) : (s.tenantM t f).hostMem = s.hostMem := rfl
@[simp] theorem State.tenantM_replies (s : State) (t : Nat) (f : TenantTraffic → TenantTraffic) : (s.tenantM t f).replies = s.replies := rfl

@[simp] theorem keysM_pending (s : State) (t : Nat) (f : TenantKeys → TenantKeys) : (keysM s t f).pending = s.pending := rfl
@[simp] theorem keysM_now (s : State) (t : Nat) (f : TenantKeys → TenantKeys) : (keysM s t f).now = s.now := rfl
@[simp] theorem keysM_ory (s : State) (t : Nat) (f : TenantKeys → TenantKeys) : (keysM s t f).ory = s.ory := rfl
@[simp] theorem keysM_cells (s : State) (t : Nat) (f : TenantKeys → TenantKeys) : (keysM s t f).cells = s.cells := rfl
@[simp] theorem keysM_lpe (s : State) (t : Nat) (f : TenantKeys → TenantKeys) : (keysM s t f).lpe = s.lpe := rfl
@[simp] theorem keysM_parures (s : State) (t : Nat) (f : TenantKeys → TenantKeys) : (keysM s t f).parures = s.parures := rfl
@[simp] theorem keysM_ast (s : State) (t : Nat) (f : TenantKeys → TenantKeys) : (keysM s t f).ast = s.ast := rfl
@[simp] theorem keysM_smp (s : State) (t : Nat) (f : TenantKeys → TenantKeys) : (keysM s t f).smp = s.smp := rfl
@[simp] theorem keysM_fil (s : State) (t : Nat) (f : TenantKeys → TenantKeys) : (keysM s t f).fil = s.fil := rfl
@[simp] theorem keysM_stm (s : State) (t : Nat) (f : TenantKeys → TenantKeys) : (keysM s t f).stm = s.stm := rfl
@[simp] theorem keysM_lockets (s : State) (t : Nat) (f : TenantKeys → TenantKeys) : (keysM s t f).lockets = s.lockets := rfl
@[simp] theorem keysM_charms (s : State) (t : Nat) (f : TenantKeys → TenantKeys) : (keysM s t f).charms = s.charms := rfl
@[simp] theorem keysM_facets (s : State) (t : Nat) (f : TenantKeys → TenantKeys) : (keysM s t f).facets = s.facets := rfl
@[simp] theorem keysM_keys (s : State) (t : Nat) (f : TenantKeys → TenantKeys) : (keysM s t f).keys = s.keys.set t (f (s.keys.getD t {})) := rfl
@[simp] theorem keysM_t1 (s : State) (t : Nat) (f : TenantKeys → TenantKeys) : (keysM s t f).t1 = s.t1 := rfl
@[simp] theorem keysM_extents (s : State) (t : Nat) (f : TenantKeys → TenantKeys) : (keysM s t f).extents = s.extents := rfl
@[simp] theorem keysM_hbc (s : State) (t : Nat) (f : TenantKeys → TenantKeys) : (keysM s t f).hbc = s.hbc := rfl
@[simp] theorem keysM_lpc (s : State) (t : Nat) (f : TenantKeys → TenantKeys) : (keysM s t f).lpc = s.lpc := rfl
@[simp] theorem keysM_cur (s : State) (t : Nat) (f : TenantKeys → TenantKeys) : (keysM s t f).cur = s.cur := rfl
@[simp] theorem keysM_bays (s : State) (t : Nat) (f : TenantKeys → TenantKeys) : (keysM s t f).bays = s.bays := rfl
@[simp] theorem keysM_eph (s : State) (t : Nat) (f : TenantKeys → TenantKeys) : (keysM s t f).eph = s.eph := rfl
@[simp] theorem keysM_traffic (s : State) (t : Nat) (f : TenantKeys → TenantKeys) : (keysM s t f).traffic = s.traffic := rfl
@[simp] theorem keysM_colls (s : State) (t : Nat) (f : TenantKeys → TenantKeys) : (keysM s t f).colls = s.colls := rfl
@[simp] theorem keysM_searches (s : State) (t : Nat) (f : TenantKeys → TenantKeys) : (keysM s t f).searches = s.searches := rfl
@[simp] theorem keysM_selects (s : State) (t : Nat) (f : TenantKeys → TenantKeys) : (keysM s t f).selects = s.selects := rfl
@[simp] theorem keysM_sieves (s : State) (t : Nat) (f : TenantKeys → TenantKeys) : (keysM s t f).sieves = s.sieves := rfl
@[simp] theorem keysM_integ (s : State) (t : Nat) (f : TenantKeys → TenantKeys) : (keysM s t f).integ = s.integ := rfl
@[simp] theorem keysM_ckpt (s : State) (t : Nat) (f : TenantKeys → TenantKeys) : (keysM s t f).ckpt = s.ckpt := rfl
@[simp] theorem keysM_hif (s : State) (t : Nat) (f : TenantKeys → TenantKeys) : (keysM s t f).hif = s.hif := rfl
@[simp] theorem keysM_std (s : State) (t : Nat) (f : TenantKeys → TenantKeys) : (keysM s t f).std = s.std := rfl
@[simp] theorem keysM_lan (s : State) (t : Nat) (f : TenantKeys → TenantKeys) : (keysM s t f).lan = s.lan := rfl
@[simp] theorem keysM_hostMem (s : State) (t : Nat) (f : TenantKeys → TenantKeys) : (keysM s t f).hostMem = s.hostMem := rfl
@[simp] theorem keysM_replies (s : State) (t : Nat) (f : TenantKeys → TenantKeys) : (keysM s t f).replies = s.replies := rfl

@[simp] theorem cofferM_pending (s : State) (n : Nat) (f : Coffer → Coffer) : (cofferM s n f).pending = s.pending := rfl
@[simp] theorem cofferM_now (s : State) (n : Nat) (f : Coffer → Coffer) : (cofferM s n f).now = s.now := rfl
@[simp] theorem cofferM_ory (s : State) (n : Nat) (f : Coffer → Coffer) : (cofferM s n f).ory = s.ory := rfl
@[simp] theorem cofferM_cells (s : State) (n : Nat) (f : Coffer → Coffer) : (cofferM s n f).cells = s.cells := rfl
@[simp] theorem cofferM_lpe (s : State) (n : Nat) (f : Coffer → Coffer) : (cofferM s n f).lpe = s.lpe := rfl
@[simp] theorem cofferM_parures (s : State) (n : Nat) (f : Coffer → Coffer) : (cofferM s n f).parures = s.parures := rfl
@[simp] theorem cofferM_ast (s : State) (n : Nat) (f : Coffer → Coffer) : (cofferM s n f).ast = s.ast := rfl
@[simp] theorem cofferM_smp (s : State) (n : Nat) (f : Coffer → Coffer) : (cofferM s n f).smp = s.smp := rfl
@[simp] theorem cofferM_fil (s : State) (n : Nat) (f : Coffer → Coffer) : (cofferM s n f).fil = s.fil := rfl
@[simp] theorem cofferM_stm (s : State) (n : Nat) (f : Coffer → Coffer) : (cofferM s n f).stm = s.stm := rfl
@[simp] theorem cofferM_lockets (s : State) (n : Nat) (f : Coffer → Coffer) : (cofferM s n f).lockets = s.lockets := rfl
@[simp] theorem cofferM_charms (s : State) (n : Nat) (f : Coffer → Coffer) : (cofferM s n f).charms = s.charms := rfl
@[simp] theorem cofferM_facets (s : State) (n : Nat) (f : Coffer → Coffer) : (cofferM s n f).facets = s.facets := rfl
@[simp] theorem cofferM_keys (s : State) (n : Nat) (f : Coffer → Coffer) : (cofferM s n f).keys = s.keys := rfl
@[simp] theorem cofferM_t1 (s : State) (n : Nat) (f : Coffer → Coffer) : (cofferM s n f).t1 = s.t1 := rfl
@[simp] theorem cofferM_extents (s : State) (n : Nat) (f : Coffer → Coffer) : (cofferM s n f).extents = s.extents := rfl
@[simp] theorem cofferM_hbc (s : State) (n : Nat) (f : Coffer → Coffer) : (cofferM s n f).hbc = s.hbc := rfl
@[simp] theorem cofferM_lpc (s : State) (n : Nat) (f : Coffer → Coffer) : (cofferM s n f).lpc = s.lpc := rfl
@[simp] theorem cofferM_cur (s : State) (n : Nat) (f : Coffer → Coffer) : (cofferM s n f).cur = s.cur := rfl
@[simp] theorem cofferM_bays (s : State) (n : Nat) (f : Coffer → Coffer) : (cofferM s n f).bays = s.bays.modify n fun b => { b with coffer := b.coffer.map f } := rfl
@[simp] theorem cofferM_eph (s : State) (n : Nat) (f : Coffer → Coffer) : (cofferM s n f).eph = s.eph := rfl
@[simp] theorem cofferM_traffic (s : State) (n : Nat) (f : Coffer → Coffer) : (cofferM s n f).traffic = s.traffic := rfl
@[simp] theorem cofferM_colls (s : State) (n : Nat) (f : Coffer → Coffer) : (cofferM s n f).colls = s.colls := rfl
@[simp] theorem cofferM_searches (s : State) (n : Nat) (f : Coffer → Coffer) : (cofferM s n f).searches = s.searches := rfl
@[simp] theorem cofferM_selects (s : State) (n : Nat) (f : Coffer → Coffer) : (cofferM s n f).selects = s.selects := rfl
@[simp] theorem cofferM_sieves (s : State) (n : Nat) (f : Coffer → Coffer) : (cofferM s n f).sieves = s.sieves := rfl
@[simp] theorem cofferM_integ (s : State) (n : Nat) (f : Coffer → Coffer) : (cofferM s n f).integ = s.integ := rfl
@[simp] theorem cofferM_ckpt (s : State) (n : Nat) (f : Coffer → Coffer) : (cofferM s n f).ckpt = s.ckpt := rfl
@[simp] theorem cofferM_hif (s : State) (n : Nat) (f : Coffer → Coffer) : (cofferM s n f).hif = s.hif := rfl
@[simp] theorem cofferM_std (s : State) (n : Nat) (f : Coffer → Coffer) : (cofferM s n f).std = s.std := rfl
@[simp] theorem cofferM_lan (s : State) (n : Nat) (f : Coffer → Coffer) : (cofferM s n f).lan = s.lan := rfl
@[simp] theorem cofferM_hostMem (s : State) (n : Nat) (f : Coffer → Coffer) : (cofferM s n f).hostMem = s.hostMem := rfl
@[simp] theorem cofferM_replies (s : State) (n : Nat) (f : Coffer → Coffer) : (cofferM s n f).replies = s.replies := rfl

end Sys2Proof.Machine
end

