-- ==== Sys2Proof/Laws/Tables.lean ====
section
/-!
SUPPORT. Sys2Proof/Laws/Tables.lean: a sparse table read after a change of it.
-/
namespace Sys2Proof.Machine

theorem tab_get_set {α : Type} (t : Tab α) (i j : Nat) (v : α) : (t.set i v).get? j = if i = j then some v else t.get? j := by
  induction t with
  | nil => simp [Tab.set, Tab.get?]
  | cons e t ih =>
    obtain ⟨k, w⟩ := e
    simp only [Tab.set]
    split
    · simp [Tab.get?]
    · split
      · rename_i h1 h2
        subst h2
        simp only [Tab.get?]
        split <;> rfl
      · rename_i h1 h2
        simp only [Tab.get?, ih]
        split
        · rename_i h3
          subst h3
          rw [if_neg h2]
        · rfl

@[simp] theorem tab_getD_set_same {α : Type} (t : Tab α) (i : Nat) (v d : α) : (t.set i v).getD i d = v := by
  simp [Tab.getD, tab_get_set]

theorem tab_getD_set_other {α : Type} (t : Tab α) {i j : Nat} (v d : α) (h : i ≠ j) : (t.set i v).getD j d = t.getD j d := by
  simp [Tab.getD, tab_get_set, h]

@[simp] theorem tab_get_set_same {α : Type} (t : Tab α) (i : Nat) (v : α) : (t.set i v).get? i = some v := by
  simp [tab_get_set]

theorem tab_get_upd {α : Type} (t : Tab α) (i j : Nat) (f : α → α) : (t.upd i f).get? j = if i = j then (t.get? j).map f else t.get? j := by
  induction t with
  | nil => simp [Tab.upd, Tab.get?]
  | cons e t ih =>
    obtain ⟨k, w⟩ := e
    simp only [Tab.upd, List.map_cons] at ih ⊢
    by_cases hk : k = i
    · subst hk
      by_cases hj : k = j
      · subst hj; simp [Tab.get?]
      · simp only [↓reduceIte, Tab.get?, hj]
        rw [ih, if_neg hj]
    · simp only [hk, ↓reduceIte, Tab.get?]
      split
      · rename_i h
        subst h
        rw [if_neg (fun h => hk h.symm)]
      · exact ih

@[simp] theorem tab_get_upd_same {α : Type} (t : Tab α) (i : Nat) (f : α → α) : (t.upd i f).get? i = (t.get? i).map f := by
  simp [tab_get_upd]

theorem tab_get_upd_other {α : Type} (t : Tab α) {i j : Nat} (f : α → α) (h : i ≠ j) : (t.upd i f).get? j = t.get? j := by
  simp [tab_get_upd, h]

theorem tab_get_erase {α : Type} (t : Tab α) (i j : Nat) : (t.erase i).get? j = if i = j then none else t.get? j := by
  induction t with
  | nil => simp [Tab.erase, Tab.get?]
  | cons e t ih =>
    obtain ⟨k, w⟩ := e
    simp only [Tab.erase] at ih ⊢
    by_cases hk : k = i
    · subst hk
      simp only [List.filter_cons, bne_self_eq_false, Bool.false_eq_true, ↓reduceIte, Tab.get?, ih]
      split <;> simp_all
    · have hb : (k != i) = true := by simp [hk]
      simp only [List.filter_cons, hb, ↓reduceIte, Tab.get?, ih]
      split
      · rename_i h
        subst h
        rw [if_neg (fun h => hk h.symm)]
      · rfl

@[simp] theorem tab_get_erase_same {α : Type} (t : Tab α) (i : Nat) : (t.erase i).get? i = none := by
  simp [tab_get_erase]

theorem tab_mem_set {α : Type} (t : Tab α) (i : Nat) (v : α) : (∃ k, (k, v) ∈ t.set i v) := by
  induction t with
  | nil => exact ⟨i, by simp [Tab.set]⟩
  | cons e t ih =>
    obtain ⟨k, w⟩ := e
    simp only [Tab.set]
    split
    · exact ⟨i, by simp⟩
    · split
      · exact ⟨k, by simp⟩
      · obtain ⟨j, h⟩ := ih
        exact ⟨j, List.mem_cons_of_mem _ h⟩

theorem tab_vals_set {α : Type} (t : Tab α) (i : Nat) (v : α) : v ∈ Tab.vals (t.set i v) := by
  obtain ⟨k, h⟩ := tab_mem_set t i v
  exact List.mem_map.mpr ⟨(k, v), h, rfl⟩

theorem tab_get_map {α β : Type} (t : Tab α) (f : α → β) (i : Nat) : Tab.get? (t.map (fun e => (e.1, f e.2))) i = (t.get? i).map f := by
  induction t with
  | nil => rfl
  | cons e t ih =>
    obtain ⟨k, w⟩ := e
    simp only [List.map_cons, Tab.get?]
    split
    · rfl
    · exact ih

end Sys2Proof.Machine
end

