-- ==== Sys2Proof/Laws/Commands.lean ====
section
/-!
SUPPORT. Sys2Proof/Laws/Commands.lean: what the shared operations of a host command do: starting, admission and completion.
-/
namespace Sys2Proof.Machine

theorem gate_marked (s : State) (id : Nat) (c : HCmd) : gate (marked s id) c = gate s c := rfl

theorem completed_marked (s : State) (id k : Nat) : completed (marked s id) k = completed s k := rfl

theorem takeCmd_admitted {s : State} {id op : Nat} (h : admitted s id op = true) : takeCmd s id op = some (marked s id, cmdOf s id) := by
  unfold admitted at h
  simp only [Bool.and_eq_true, Bool.not_eq_true', Option.isSome_iff_exists] at h
  obtain ⟨⟨⟨⟨⟨⟨⟨c, hc⟩, h1⟩, h2⟩, h3⟩, h4⟩, h5⟩, -⟩ := h
  have e : cmdOf s id = c := by simp [cmdOf, hc]
  rw [e] at h2 h3 h5
  simp [takeCmd, hc, h1, h2, h3, h4, h5, e, marked]

/-- A host command that is admitted is performed on the state in which it has started. -/
theorem hostCmd_admitted {s : State} {id op : Nat} (k : State → HCmd → State) (h : admitted s id op = true) :
    hostCmd s id op k = .next (k (begun s id) (cmdOf s id)) := by
  have g : gate s (cmdOf s id) = none := by
    unfold admitted at h
    simp only [Bool.and_eq_true, Option.isNone_iff_eq_none] at h
    exact h.2
  simp [hostCmd, takeCmd_admitted h, gate_marked, g, begun]

theorem findCmd_id {s : State} {id : Nat} {c : HCmd} (h : findCmd s id = some c) : c.id = id := by
  unfold findCmd at h
  have := List.find?_some h
  simpa using this

theorem cmdOf_id (s : State) (id : Nat) : (cmdOf s id).id = id := by
  unfold cmdOf
  cases h : findCmd s id with
  | none => rfl
  | some c => exact findCmd_id h

theorem admitted_open {s : State} {id op : Nat} (h : admitted s id op = true) : completed s id = false := by
  unfold admitted at h
  simp only [Bool.and_eq_true, Bool.not_eq_true'] at h
  exact h.1.1.2

theorem admitted_found {s : State} {id op : Nat} (h : admitted s id op = true) : findCmd s id = some (cmdOf s id) := by
  unfold admitted at h
  simp only [Bool.and_eq_true, Option.isSome_iff_exists] at h
  obtain ⟨c, hc⟩ := h.1.1.1.1.1.1
  simp [cmdOf, hc]

theorem admitted_opcode {s : State} {id op : Nat} (h : admitted s id op = true) : (cmdOf s id).opcode = op := by
  unfold admitted at h
  simp only [Bool.and_eq_true, beq_iff_eq] at h
  exact h.1.1.1.1.2

/-- The completion of a command that has none is added at the end. -/
theorem complete_done {s : State} {c : HCmd} {st r0 r1 n : Nat} (h : completed s c.id = false) :
    (complete s c st r0 r1 n).hif.done = s.hif.done ++ [{ ended s c st r0 r1 with step := n % 2 ^ 16 }] := by
  simp [complete, h, ended]

theorem complete_other {s : State} {c : HCmd} {st r0 r1 n : Nat} :
    complete s c st r0 r1 n = s.hifM fun h => { h with done := (complete s c st r0 r1 n).hif.done } := by
  unfold complete
  split <;> simp [State.hifM]

theorem complete_open {s : State} {c : HCmd} {st r0 r1 n : Nat} (h : completed s c.id = false) (hn : n % 2 ^ 16 = 0) :
    answers s (complete s c st r0 r1 n) c st r0 r1 := by
  unfold answers
  rw [complete_done h, hn]
  rfl

theorem confined_trans {l : List Part} {s t u : State} (h : confined l s t) (k : confined l t u) : confined l s u := fun p hp => by
  have a := h p hp
  have b := k p hp
  cases p <;> exact Eq.trans b a

theorem confined_more {l m : List Part} {s t : State} (h : confined l s t) (k : ∀ p ∈ l, p ∈ m) : confined m s t :=
  fun p hp => h p (fun q => hp (k p q))

theorem marked_confined (s : State) (id : Nat) : confined [.hif] s (marked s id) := by
  intro p hp
  cases p <;> first | rfl | (exact absurd (by decide) hp)

theorem complete_confined (s : State) (c : HCmd) (st r0 r1 n : Nat) : confined [.hif] s (complete s c st r0 r1 n) := by
  rw [complete_other]
  intro p hp
  cases p <;> first | rfl | (exact absurd (by decide) hp)

theorem hostFetch_none (s : State) (a : Nat) : hostFetch s a 0 = s := by simp [hostFetch]

/-- A command without operands in host memory starts and fetches nothing. -/
theorem begun_marked {s : State} {id : Nat} (h : (operandAt (cmdOf s id)).2 = 0) : begun s id = marked s id := by
  unfold begun
  rw [h, hostFetch_none]

theorem begun_completed (s : State) (id k : Nat) (h : (begun s id).hif = (marked s id).hif) : completed (begun s id) k = completed s k := by
  unfold completed
  rw [h]
  rfl

/-! ## Events and signals -/

theorem bitAt_testBit (x i : Nat) : bitAt x i = x.testBit i := by
  unfold bitAt
  rw [Nat.testBit_eq_decide_div_mod_eq, Nat.shiftRight_eq_div_pow]
  by_cases h : x / 2 ^ i % 2 = 1 <;> simp [h]

theorem bitAt_or_same (x b : Nat) : bitAt (x ||| 2 ^ b) b = true := by
  simp [bitAt_testBit, Nat.testBit_or, Nat.testBit_two_pow_self]

theorem bitAt_or_kept (x y b : Nat) (h : bitAt x b = true) : bitAt (x ||| y) b = true := by
  rw [bitAt_testBit] at h ⊢
  simp [Nat.testBit_or, h]

/-- Sending a message changes the Strand block alone. -/
theorem sendMsg_keeps_hif (s : State) (d : Nat) (b : List Byte) : (sendMsg s d b).hif = s.hif :=
  (sendMsg_steady s d b).only .hif (by decide)

/-- What a signal leaves of the host interface. -/
theorem signal_hif (s : State) (v : Nat) : (signal s v).hif = { s.hif with msix := (signal s v).hif.msix, msixHeld := (signal s v).hif.msixHeld } := by
  unfold signal
  split
  · rfl
  · split
    · simp only [sendMsg_keeps_hif]
    · rfl

theorem hifEvent_hif (s : State) (b : Nat) :
    (hifEvent s b).hif = { s.hif with event := s.hif.event ||| 2 ^ b, msix := (hifEvent s b).hif.msix, msixHeld := (hifEvent s b).hif.msixHeld } := by
  unfold hifEvent
  dsimp only
  split
  · rw [signal_hif]
    rfl
  · rfl

theorem hifEvent_set (s : State) (b : Nat) : bitAt (hifEvent s b).hif.event b = true := by
  rw [hifEvent_hif]
  exact bitAt_or_same _ _

theorem hifEvent_ring (s : State) (b r : Nat) : (hifEvent s b).ring r = s.ring r := by
  unfold State.ring
  rw [hifEvent_hif]

theorem hifEvent_confined (s : State) (b : Nat) : confined [.hif, .std] s (hifEvent s b) := (hifEvent_steady s b).only

/-! ## Ring pairs -/

@[simp] theorem ringM_ring (s : State) (r : Nat) (f : Ring → Ring) : (s.ringM r f).ring r = f (s.ring r) := by
  simp [State.ring]

theorem ringM_ring_other (s : State) {r k : Nat} (f : Ring → Ring) (h : r ≠ k) : (s.ringM r f).ring k = s.ring k := by
  simp [State.ring, tab_getD_set_other _ _ _ h]

theorem ringM_confined (s : State) (r : Nat) (f : Ring → Ring) : confined [.hif] s (s.ringM r f) := by
  intro p hp
  cases p <;> first | rfl | (exact absurd (by decide) hp)

/-! ## Posting to host memory on the device's own link -/

@[simp] theorem viaHead_hifM (s : State) (f : Hif → Hif) : viaHead (s.hifM f) = viaHead s := rfl
@[simp] theorem viaHead_ringM (s : State) (r : Nat) (f : Ring → Ring) : viaHead (s.ringM r f) = viaHead s := rfl
@[simp] theorem viaHead_trafM (s : State) (f : Traffic → Traffic) : viaHead (s.trafM f) = viaHead s := rfl
@[simp] theorem viaHead_locketM (s : State) (h : Nat) (f : Locket → Locket) : viaHead (s.locketM h f) = viaHead s := rfl
@[simp] theorem viaHead_dlvM (s : State) (t : Nat) (f : DlvGroup → DlvGroup) : viaHead (s.dlvM t f) = viaHead s := rfl

theorem hostFetch_own {s : State} (a n : Nat) (h : viaHead s = false) : hostFetch s a n = s := by simp [hostFetch, h]

theorem hostWrite_own {s : State} (a : Nat) (b : List Byte) (h : viaHead s = false) :
    hostWrite s a b = { s with hostMem := s.hostMem.writeN a b } := by simp [hostWrite, h]

/-! ## Policing -/

/-- Policing depends on the buckets alone, and changes the buckets alone. -/
theorem police_traffic (s : State) (t c : Nat) : (police s t c).1 = { s with traffic := (police s t c).1.traffic } := by
  unfold police
  dsimp only
  split
  · rfl
  · split <;> rfl

theorem police_same {s u : State} (h : u.traffic = s.traffic) (t c : Nat) :
    (police u t c).2 = (police s t c).2 ∧ (police u t c).1.traffic = (police s t c).1.traffic := by
  have e : u.tenant t = s.tenant t := by simp [State.tenant, h]
  unfold police
  dsimp only
  rw [e]
  split
  · exact ⟨rfl, h⟩
  · split
    · exact ⟨rfl, by simp [h]⟩
    · exact ⟨rfl, by simp [h]⟩

theorem refill_same {s u : State} (h : u.traffic = s.traffic) (n : u.now = s.now) : (refill u).traffic = (refill s).traffic := by
  simp [refill, h, n]

/-! ## Starting and completing, as seen from the state before -/

theorem begun_hif (s : State) (id : Nat) : (begun s id).hif = (marked s id).hif := (hostFetch_steady _ _ _).only .hif (by decide)

/-- Starting a command changes the host interface and, where it fetches operands through the head, the Strand block. -/
theorem begun_confined (s : State) (id : Nat) : confined [.hif, .std] s (begun s id) :=
  confined_trans (confined_more (marked_confined s id) (by decide)) (confined_more (hostFetch_steady _ _ _).only (by decide))

theorem begun_done (s : State) (id : Nat) : (begun s id).hif.done = s.hif.done := by rw [begun_hif]; rfl

theorem begun_now (s : State) (id : Nat) : (begun s id).now = s.now := (begun_confined s id) .now (by decide)

/-- A completion added to a state whose completions are those of an earlier one at the same tick. -/
theorem complete_answers {s u : State} {c : HCmd} {st r0 r1 : Nat} (hd : u.hif.done = s.hif.done) (hn : u.now = s.now)
    (ho : completed s c.id = false) : answers s (complete u c st r0 r1 0) c st r0 r1 := by
  have ho' : completed u c.id = false := by
    unfold completed at ho ⊢
    rw [hd]
    exact ho
  have h := complete_open (s := u) (c := c) (st := st) (r0 := r0) (r1 := r1) (n := 0) ho' rfl
  unfold answers ended at h ⊢
  rw [h, hd, hn]

theorem completeId_answers {s u : State} {id : Nat} {c : HCmd} {st r0 r1 : Nat} (hf : findCmd u id = some c) (hd : u.hif.done = s.hif.done)
    (hn : u.now = s.now) (ho : completed s c.id = false) : answers s (completeId u id st r0 r1 0) c st r0 r1 := by
  unfold completeId
  rw [hf]
  exact complete_answers hd hn ho

/-- An admitted command that its meaning completes at once. -/
theorem begun_answers {s : State} {id op st r0 r1 : Nat} (h : admitted s id op = true) :
    answers s (complete (begun s id) (cmdOf s id) st r0 r1 0) (cmdOf s id) st r0 r1 :=
  complete_answers (begun_done s id) (begun_now s id) (by rw [cmdOf_id]; exact admitted_open h)

/-- The same for a state that differs from the begun one in nothing that a completion reads. -/
theorem later_answers {s u : State} {id op st r0 r1 : Nat} (h : admitted s id op = true) (hu : u.hif.done = (begun s id).hif.done)
    (hn : u.now = (begun s id).now) : answers s (complete u (cmdOf s id) st r0 r1 0) (cmdOf s id) st r0 r1 :=
  complete_answers (hu.trans (begun_done s id)) (hn.trans (begun_now s id)) (by rw [cmdOf_id]; exact admitted_open h)

theorem complete_completed_other {s : State} {c : HCmd} {st r0 r1 n k : Nat} (h : c.id ≠ k) : completed (complete s c st r0 r1 n) k = completed s k := by
  unfold complete
  split
  · rfl
  · simp [completed, h]

theorem completeId_completed_other {s : State} {id st r0 r1 n k : Nat} (h : id ≠ k) : completed (completeId s id st r0 r1 n) k = completed s k := by
  unfold completeId
  split
  · rename_i c hc
    exact complete_completed_other (by rw [findCmd_id hc]; exact h)
  · rfl

theorem complete_hasEnded {s : State} {c : HCmd} {st r0 r1 n : Nat} (h : completed s c.id = false) : hasEnded (complete s c st r0 r1 n) c.id st := by
  refine ⟨{ ended s c st r0 r1 with step := n % 2 ^ 16 }, ?_, rfl, rfl⟩
  rw [complete_done h]
  simp

/-! ## Session commands -/

theorem findSession_begun (s : State) (id t k : Nat) : findSession (begun s id) t k = findSession s t k := by
  unfold findSession
  rw [show (begun s id).lockets = s.lockets from (begun_confined s id) .lockets (by decide)]

/-- A session command that finds its session open is performed on the state in which it has touched it. -/
theorem sessionCmd_entering {s : State} {id op h : Nat} {l : Locket} (k : State → HCmd → Nat → Locket → State) (e : entering s id op h l = true) :
    sessionCmd s id op k = .next (k (entered s id h) (cmdOf s id) h (meets s id l)) := by
  unfold entering at e
  simp only [Bool.and_eq_true, decide_eq_true_eq, Bool.not_eq_true', Bool.or_eq_true, Option.isNone_iff_eq_none] at e
  obtain ⟨⟨⟨⟨⟨⟨ha, hf⟩, hg⟩, ho⟩, hu⟩, hr⟩, hc⟩ := e
  unfold sessionCmd
  rw [admitted_found ha]
  dsimp only
  rw [hf]
  simp only [Option.map_some, Option.getD_some, ho, Bool.false_eq_true, ↓reduceIte]
  rw [hostCmd_admitted _ ha]
  simp only [findSession_begun, hf]
  rw [if_neg (by rcases hu with hu | hu <;> simp_all), if_neg (by rcases hr with ((hr | hr) | hr) | hr <;> simp_all)]
  rfl

theorem entering_admitted {s : State} {id op h : Nat} {l : Locket} (e : entering s id op h l = true) : admitted s id op = true := by
  unfold entering at e
  simp only [Bool.and_eq_true] at e
  exact e.1.1.1.1.1.1

theorem entering_found {s : State} {id op h : Nat} {l : Locket} (e : entering s id op h l = true) : s.lockets.get? h = some l := by
  unfold entering at e
  simp only [Bool.and_eq_true, decide_eq_true_eq] at e
  exact e.1.1.1.1.2

theorem entered_locket {s : State} {id op h : Nat} {l : Locket} (e : entering s id op h l = true) :
    (entered s id h).lockets.get? h = some (meets s id l) := by
  unfold entered
  simp only [State.locketM_lockets, tab_get_upd_same]
  rw [show (begun s id).lockets = s.lockets from (begun_confined s id) .lockets (by decide), entering_found e]
  rfl

theorem entered_done (s : State) (id h : Nat) : (entered s id h).hif.done = s.hif.done := begun_done s id

theorem entered_now (s : State) (id h : Nat) : (entered s id h).now = s.now := begun_now s id

theorem entered_confined (s : State) (id h : Nat) : confined [.lockets, .hif, .std] s (entered s id h) :=
  confined_trans (confined_more (begun_confined s id) (by decide)) (by
    intro p hp
    cases p <;> first | rfl | (exact absurd (by decide) hp))

/-- A pin on a locket that is not being demoted. -/
theorem takePin_calm {s : State} {h id : Nat} {l : Locket} (hl : s.lockets.get? h = some l) (hd : l.state ≠ .demoting) :
    takePin s h id = s.locketM h fun l => { l with pins := if l.pins.contains id then l.pins else l.pins ++ [id] } := by
  have : abandonDemotion s h stCancelled = s := by
    unfold abandonDemotion
    rw [hl]
    have : (l.state == LocketState.demoting) = false := by simpa using hd
    simp [this]
  unfold takePin
  rw [this]

/-- A completion with a command step, added to a state whose completions are those of an earlier one at the same tick. -/
theorem complete_answersStep {s u : State} {c : HCmd} {st r0 r1 n : Nat} (hd : u.hif.done = s.hif.done) (hn : u.now = s.now)
    (ho : completed s c.id = false) : answersStep s (complete u c st r0 r1 n) c st r0 r1 n := by
  have ho' : completed u c.id = false := by
    unfold completed at ho ⊢
    rw [hd]
    exact ho
  have h := complete_done (s := u) (c := c) (st := st) (r0 := r0) (r1 := r1) (n := n) ho'
  unfold answersStep
  rw [h, hd]
  unfold ended
  rw [hn]

/-! ## The Courier -/

theorem place_held (c : Cur) (d : Desc) : d ∈ Tab.vals (place c d).channels ++ (place c d).waiting := by
  unfold place
  split
  · split
    · exact List.mem_append_left _ (tab_vals_set _ _ _)
    · simp
  · simp

/-- A submitted descriptor is held by the Courier, under a cookie of its own. -/
theorem submit_held (s : State) (d : Desc) :
    prepare s.cur.nextCookie s.now d ∈ allDescs (submit s d) := by
  unfold submit allDescs
  dsimp only
  split <;> exact place_held _ _

/-- Taking a completion record changes the Courier alone. -/
theorem consume_confined {s t : State} {p : Purpose} {st : Nat} (h : consume s p = some (t, st)) : confined [.cur] s t := by
  unfold consume at h
  cases hr : s.lan.refclk with
  | false => simp [hr] at h
  | true =>
  rw [hr, if_pos rfl] at h
  cases e : doneFor s p with
  | none => simp [e] at h
  | some r =>
    simp only [e, Option.map_some, Option.some.injEq, Prod.mk.injEq] at h
    rw [← h.1]
    intro q hq
    cases q <;> first | rfl | (exact absurd (by decide) hq)

end Sys2Proof.Machine
end

