-- ==== Sys2Proof/Laws/Frames/Resets.lean ====
section
/-!
SUPPORT. Sys2Proof/Laws/Frames/Resets.lean: what each operation of Machine/Resets.lean can change at most.
-/
namespace Sys2Proof.Machine

theorem stopWork_steady (s : State) : Steady [.ory, .lockets, .facets, .eph, .integ] s (stopWork s) := by
  unfold stopWork
  try dsimp only
  repeat' first
    | with_reducible apply Steady.refl
    | (with_reducible apply Steady.chain ?_ (discardStep_steady _ _) ?sub; (case sub => decide))
    | (with_reducible apply Steady.chain ?_ (freeOrrery_steady _) ?sub; (case sub => decide))
    | (with_reducible apply Steady.chain ?_ (State.ephM_steady _ _) ?sub; (case sub => decide))
    | with_reducible apply Steady.ite
    | (with_reducible apply Steady.fold ?_ (fun _ _ => ?_); all_goals try dsimp only)

theorem abandonMoves_steady (s : State) (st : Nat) (mine : Locket → Bool) : Steady [.ast, .lockets, .charms, .extents, .cur, .bays, .hif] s (abandonMoves s st mine) := by
  unfold abandonMoves
  try dsimp only
  repeat' first
    | with_reducible apply Steady.refl
    | (with_reducible apply Steady.chain ?_ (undoPromotion_steady _ _) ?sub; (case sub => decide))
    | (with_reducible apply Steady.chain ?_ (abandonFor_steady _ _) ?sub; (case sub => decide))
    | (with_reducible apply Steady.chain ?_ (abandonDemotion_steady _ _ _) ?sub; (case sub => decide))
    | (with_reducible apply Steady.fold ?_ (fun _ _ => ?_); all_goals try dsimp only)
    | (with_reducible apply Steady.foldPair ?_ (fun _ _ => ?_); all_goals try dsimp only)

theorem endCuts_steady (s : State) : Steady [.ast, .lockets, .charms, .extents, .hbc, .cur, .bays, .ckpt] s (endCuts s) := by
  unfold endCuts
  try dsimp only
  repeat' first
    | with_reducible apply Steady.refl
    | (with_reducible apply Steady.chain ?_ (dropReceiving_steady _) ?sub; (case sub => decide))
    | (with_reducible apply Steady.chain ?_ (abandonCuts_steady _) ?sub; (case sub => decide))

theorem rependAll_steady (s : State) (mine : Coll → Bool) : Steady [.ory, .eph, .colls, .sieves, .integ] s (rependAll s mine) := by
  unfold rependAll
  try dsimp only
  repeat' first
    | with_reducible apply Steady.refl
    | (with_reducible apply Steady.chain ?_ (repend_steady _ _) ?sub; (case sub => decide))
    | (with_reducible apply Steady.fold ?_ (fun _ _ => ?_); all_goals try dsimp only)
    | (with_reducible apply Steady.foldPair ?_ (fun _ _ => ?_); all_goals try dsimp only)

theorem restCommands_steady (s : State) : Steady [.ory, .parures, .ast, .lockets, .charms, .facets, .extents, .hbc, .cur, .bays, .eph, .colls, .searches, .selects, .sieves, .integ, .ckpt, .hif] s (restCommands s) := by
  unfold restCommands
  try dsimp only
  repeat' first
    | with_reducible apply Steady.refl
    | (with_reducible apply Steady.chain ?_ (endCuts_steady _) ?sub; (case sub => decide))
    | (with_reducible apply Steady.chain ?_ (stopWork_steady _) ?sub; (case sub => decide))
    | (with_reducible apply Steady.chain ?_ (endCmd_steady _ _ _) ?sub; (case sub => decide))
    | (with_reducible apply Steady.chain ?_ (abandonMoves_steady _ _ _) ?sub; (case sub => decide))
    | (with_reducible apply Steady.chain ?_ (rependAll_steady _ _) ?sub; (case sub => decide))
    | (with_reducible apply Steady.fold ?_ (fun _ _ => ?_); all_goals try dsimp only)

theorem coreLoss_steady (s : State) : Steady [.ory, .cells, .lpe, .parures, .ast, .smp, .fil, .stm, .lockets, .charms, .facets, .keys, .t1, .extents, .hbc, .lpc, .cur, .bays, .eph, .traffic, .colls, .searches, .selects, .sieves, .integ, .ckpt, .hif, .std, .lan] s (coreLoss s) := by
  unfold coreLoss
  try dsimp only
  repeat' first
    | with_reducible apply Steady.refl
    | with_reducible apply Steady.ite
    | (with_reducible apply Steady.update <;> first | with_reducible exact Or.inl rfl | (apply Or.inr; decide) | (exact Or.inr ⟨by decide, fun h => by simpa using h⟩) | skip)
    | exact Or.inr ⟨by decide, writeN_wf _ _⟩
    | exact Or.inr ⟨by decide, write_wf _ _⟩
    | exact Or.inr ⟨by decide, clear_wf _ _⟩
    | exact Or.inr ⟨by decide, copyFrom_wf _ _ _ _⟩
    | exact Or.inr ⟨by decide, clearAll_wf _ _ _⟩
    | exact Or.inr ⟨by decide, fun _ => rfl⟩

theorem loseCore_steady (s : State) (p : Power) : Steady [.ory, .cells, .lpe, .parures, .ast, .smp, .fil, .stm, .lockets, .charms, .facets, .keys, .t1, .extents, .hbc, .lpc, .cur, .bays, .eph, .traffic, .colls, .searches, .selects, .sieves, .integ, .ckpt, .hif, .std, .lan] s (loseCore s p) := by
  unfold loseCore
  try dsimp only
  repeat' first
    | with_reducible apply Steady.refl
    | (with_reducible apply Steady.chain ?_ (watch_steady _ _ _ _) ?sub; (case sub => decide))
    | (with_reducible apply Steady.chain ?_ (setPower_steady _ _) ?sub; (case sub => decide))
    | (with_reducible apply Steady.chain ?_ (coreLoss_steady _) ?sub; (case sub => decide))
    | (with_reducible apply Steady.chain ?_ (setStd_steady _ _) ?sub; (case sub => decide))
    | with_reducible apply Steady.ite
    | (with_reducible apply Steady.fold ?_ (fun _ _ => ?_); all_goals try dsimp only)
    | (with_reducible apply Steady.foldPair ?_ (fun _ _ => ?_); all_goals try dsimp only)
    | with_reducible apply Steady.iteFirst

theorem startCore_steady (s : State) : Steady [.std, .lan] s (startCore s) := by
  unfold startCore
  try dsimp only
  repeat' first
    | with_reducible apply Steady.refl
    | (with_reducible apply Steady.chain ?_ (State.lanM_steady _ _) ?sub; (case sub => decide))
    | (with_reducible apply Steady.chain ?_ (State.stdM_steady _ _) ?sub; (case sub => decide))

theorem noteReset_steady (s : State) (cause : Nat) : Steady [.lan] s (noteReset s cause) := by
  unfold noteReset
  try dsimp only
  repeat' first
    | with_reducible apply Steady.refl
    | (with_reducible apply Steady.chain ?_ (State.lanM_steady _ _) ?sub; (case sub => decide))

theorem warmReset_steady (s : State) (cause : Nat) : Steady [.ory, .cells, .lpe, .parures, .ast, .smp, .fil, .stm, .lockets, .charms, .facets, .keys, .t1, .extents, .hbc, .lpc, .cur, .bays, .eph, .traffic, .colls, .searches, .selects, .sieves, .integ, .ckpt, .hif, .std, .lan] s (warmReset s cause) := by
  unfold warmReset
  try dsimp only
  repeat' first
    | with_reducible apply Steady.refl
    | (with_reducible apply Steady.chain ?_ (State.lanM_steady _ _) ?sub; (case sub => decide))
    | (with_reducible apply Steady.chain ?_ (noteReset_steady _ _) ?sub; (case sub => decide))
    | (with_reducible apply Steady.chain ?_ (loseCore_steady _ _) ?sub; (case sub => decide))
    | (with_reducible apply Steady.chain ?_ (startCore_steady _) ?sub; (case sub => decide))
    | with_reducible apply Steady.ite

theorem coldReset_steady (s : State) (cause : Nat) : Steady [.ory, .cells, .lpe, .parures, .ast, .smp, .fil, .stm, .lockets, .charms, .facets, .keys, .t1, .extents, .hbc, .lpc, .cur, .bays, .eph, .traffic, .colls, .searches, .selects, .sieves, .integ, .ckpt, .hif, .std, .lan] s (coldReset s cause) := by
  unfold coldReset
  try dsimp only
  repeat' first
    | with_reducible apply Steady.refl
    | (with_reducible apply Steady.chain ?_ (State.lanM_steady _ _) ?sub; (case sub => decide))
    | (with_reducible apply Steady.chain ?_ (noteReset_steady _ _) ?sub; (case sub => decide))
    | (with_reducible apply Steady.chain ?_ (loseCore_steady _ _) ?sub; (case sub => decide))

theorem dropCmdPins_steady (s : State) : Steady [.charms] s (dropCmdPins s) := by
  unfold dropCmdPins
  try dsimp only
  repeat' first
    | with_reducible apply Steady.refl
    | with_reducible apply Steady.ite
    | with_reducible apply Steady.iteFirst
    | (with_reducible apply Steady.update <;> first | with_reducible exact Or.inl rfl | (apply Or.inr; decide) | (exact Or.inr ⟨by decide, fun h => by simpa using h⟩) | skip)

theorem resetLocket_steady (s : State) (h : Nat) : Steady [.ory, .ast, .stm, .lockets, .charms, .extents, .cur, .bays, .eph, .integ, .ckpt, .hif] s (resetLocket s h) := by
  unfold resetLocket
  try dsimp only
  repeat' first
    | with_reducible apply Steady.refl
    | (with_reducible apply Steady.chain ?_ (dropOpening_steady _ _ _) ?sub; (case sub => decide))
    | (with_reducible apply Steady.chain ?_ (abandonRecompute_steady _ _) ?sub; (case sub => decide))
    | (with_reducible apply Steady.chain ?_ (abandonMove_steady _ _) ?sub; (case sub => decide))
    | (with_reducible apply Steady.chain ?_ (undoPromotion_steady _ _) ?sub; (case sub => decide))
    | (with_reducible apply Steady.chain ?_ (abandonDemotion_steady _ _ _) ?sub; (case sub => decide))
    | (with_reducible apply Steady.chain ?_ (State.locketM_steady _ _ _) ?sub; (case sub => decide))
    | (with_reducible apply Steady.chain ?_ (endStream_steady _ _ _) ?sub; (case sub => decide))
    | (intro _; try dsimp only)
    | with_reducible apply Steady.ite
    | with_reducible apply Steady.orElse (fun _ _ => ?_)
    | split

theorem loseDescs_steady (s : State) : Steady [.ory, .ast, .lockets, .charms, .facets, .extents, .hbc, .cur, .bays, .eph, .integ, .ckpt, .hif] s (loseDescs s) := by
  unfold loseDescs
  try dsimp only
  repeat' first
    | with_reducible apply Steady.refl
    | (with_reducible apply Steady.chain ?_ (endCuts_steady _) ?sub; (case sub => decide))
    | (with_reducible apply Steady.chain ?_ (State.hifM_steady _ _) ?sub; (case sub => decide))
    | (with_reducible apply Steady.chain ?_ (abandonDesc_steady _ _) ?sub; (case sub => decide))
    | (with_reducible apply Steady.chain ?_ (State.ckptM_steady _ _) ?sub; (case sub => decide))
    | (with_reducible apply Steady.chain ?_ (stopWork_steady _) ?sub; (case sub => decide))
    | (with_reducible apply Steady.chain ?_ (State.curM_steady _ _) ?sub; (case sub => decide))
    | (with_reducible apply Steady.fold ?_ (fun _ _ => ?_); all_goals try dsimp only)

theorem loseJobs_steady (s : State) : Steady [.ory, .ast, .lockets, .charms, .extents, .cur, .bays, .eph, .integ] s (loseJobs s) := by
  unfold loseJobs
  try dsimp only
  repeat' first
    | with_reducible apply Steady.refl
    | (with_reducible apply Steady.chain ?_ (dropJobs_steady _ _) ?sub; (case sub => decide))
    | (with_reducible apply Steady.chain ?_ (returnJoin_steady _ _) ?sub; (case sub => decide))
    | (with_reducible apply Steady.chain ?_ (State.ephM_steady _ _) ?sub; (case sub => decide))
    | (intro _; try dsimp only)
    | (with_reducible apply Steady.fold ?_ (fun _ _ => ?_); all_goals try dsimp only)
    | (with_reducible apply Steady.foldPair ?_ (fun _ _ => ?_); all_goals try dsimp only)

theorem loseMoves_steady (s : State) : Steady [.ory, .ast, .stm, .lockets, .charms, .extents, .cur, .bays, .eph, .colls, .searches, .selects, .sieves, .integ, .ckpt, .hif] s (loseMoves s) := by
  unfold loseMoves
  try dsimp only
  repeat' first
    | with_reducible apply Steady.refl
    | (with_reducible apply Steady.chain ?_ (resetLocket_steady _ _) ?sub; (case sub => decide))
    | (with_reducible apply Steady.chain ?_ (dropCharm_steady _ _) ?sub; (case sub => decide))
    | (with_reducible apply Steady.chain ?_ (dropCmdPins_steady _) ?sub; (case sub => decide))
    | (with_reducible apply Steady.chain ?_ (failReplicas_steady _ _) ?sub; (case sub => decide))
    | (with_reducible apply Steady.chain ?_ (dropSelect_steady _ _) ?sub; (case sub => decide))
    | (with_reducible apply Steady.chain ?_ (dropSearch_steady _ _) ?sub; (case sub => decide))
    | (with_reducible apply Steady.chain ?_ (rependAll_steady _ _) ?sub; (case sub => decide))
    | (with_reducible apply Steady.fold ?_ (fun _ _ => ?_); all_goals try dsimp only)
    | (with_reducible apply Steady.foldPair ?_ (fun _ _ => ?_); all_goals try dsimp only)

theorem loseCommands_steady (s : State) : Steady [.ory, .parures, .ast, .stm, .lockets, .charms, .facets, .extents, .hbc, .cur, .bays, .eph, .colls, .searches, .selects, .sieves, .integ, .ckpt, .hif] s (loseCommands s) := by
  unfold loseCommands
  dsimp only
  have g : Steady [.ory, .parures, .ast, .stm, .lockets, .charms, .facets, .extents, .hbc, .cur, .bays, .eph, .colls, .searches, .selects, .sieves, .integ, .ckpt, .hif] s { s with stm := { s.stm with packets := 0 } } := by
    with_reducible apply Steady.update <;> first | with_reducible exact Or.inl rfl | (apply Or.inr; decide) | skip
    exact .refl
  generalize ({ s with stm := { s.stm with packets := 0 } } : State) = s1 at g ⊢
  have h : Steady [.ory, .parures, .ast, .stm, .lockets, .charms, .facets, .extents, .hbc, .cur, .bays, .eph, .colls, .searches, .selects, .sieves, .integ, .ckpt, .hif] s (loseMoves (loseJobs (loseDescs s1))) :=
    ((g.chain (loseDescs_steady _) (by decide)).chain (loseJobs_steady _) (by decide)).chain (loseMoves_steady _) (by decide)
  generalize loseMoves (loseJobs (loseDescs s1)) = u at h ⊢
  with_reducible apply Steady.update <;> first | with_reducible exact Or.inl rfl | (apply Or.inr; decide) | skip
  exact h

theorem resetOrrery_steady (s : State) : Steady [.ory, .lpe, .ast, .smp, .fil, .stm, .sieves] s (resetOrrery s) := by
  unfold resetOrrery
  try dsimp only
  repeat' first
    | with_reducible apply Steady.refl
    | with_reducible apply Steady.ite
    | (with_reducible apply Steady.update <;> first | with_reducible exact Or.inl rfl | (apply Or.inr; decide) | (exact Or.inr ⟨by decide, fun h => by simpa using h⟩) | skip)

theorem resetTiers_steady (s : State) : Steady [.hbc, .lpc, .cur, .bays, .lan] s (resetTiers s) := by
  unfold resetTiers
  try dsimp only
  repeat' first
    | with_reducible apply Steady.refl
    | (with_reducible apply Steady.chain ?_ (setBay_steady _ _ _ _) ?sub; (case sub => decide))
    | (with_reducible apply Steady.fold ?_ (fun _ _ => ?_); all_goals try dsimp only)
    | (with_reducible apply Steady.update <;> first | with_reducible exact Or.inl rfl | (apply Or.inr; decide) | (exact Or.inr ⟨by decide, fun h => by simpa using h⟩) | skip)

theorem resetRest_steady (s : State) : Steady [.eph, .traffic, .integ, .std] s (resetRest s) := by
  unfold resetRest
  try dsimp only
  repeat' first
    | with_reducible apply Steady.refl
    | with_reducible apply Steady.ite
    | with_reducible apply Steady.iteFirst
    | (with_reducible apply Steady.update <;> first | with_reducible exact Or.inl rfl | (apply Or.inr; decide) | (exact Or.inr ⟨by decide, fun h => by simpa using h⟩) | skip)

theorem wakeMemory_steady (s : State) : Steady [.hbc, .lpc] s (wakeMemory s) := by
  unfold wakeMemory
  try dsimp only
  repeat' first
    | with_reducible apply Steady.refl
    | with_reducible apply Steady.ite
    | (with_reducible apply Steady.update <;> first | with_reducible exact Or.inl rfl | (apply Or.inr; decide) | (exact Or.inr ⟨by decide, fun h => by simpa using h⟩) | skip)

theorem deviceReset_steady (s : State) (cause : Nat) : Steady [.ory, .lpe, .parures, .ast, .smp, .fil, .stm, .lockets, .charms, .facets, .extents, .hbc, .lpc, .cur, .bays, .eph, .traffic, .colls, .searches, .selects, .sieves, .integ, .ckpt, .hif, .std, .lan] s (deviceReset s cause) := by
  unfold deviceReset
  try dsimp only
  repeat' first
    | with_reducible apply Steady.refl
    | (with_reducible apply Steady.chain ?_ (State.lanM_steady _ _) ?sub; (case sub => decide))
    | (with_reducible apply Steady.chain ?_ (noteReset_steady _ _) ?sub; (case sub => decide))
    | (with_reducible apply Steady.chain ?_ (State.hifM_steady _ _) ?sub; (case sub => decide))
    | (with_reducible apply Steady.chain ?_ (loseCommands_steady _) ?sub; (case sub => decide))
    | (with_reducible apply Steady.chain ?_ (wakeMemory_steady _) ?sub; (case sub => decide))
    | (with_reducible apply Steady.chain ?_ (resetRest_steady _) ?sub; (case sub => decide))
    | (with_reducible apply Steady.chain ?_ (resetTiers_steady _) ?sub; (case sub => decide))
    | (with_reducible apply Steady.chain ?_ (resetOrrery_steady _) ?sub; (case sub => decide))
    | (with_reducible apply Steady.chain ?_ (setPower_steady _ _) ?sub; (case sub => decide))
    | with_reducible apply Steady.ite

theorem leaveNow_steady (s : State) (c : Nat) (h : Nat) (l' : Locket) : Steady [.ast, .stm, .lockets, .charms, .t1, .eph, .integ, .hif, .lan] s (leaveNow s c h l') := by
  unfold leaveNow
  try dsimp only
  repeat' first
    | with_reducible apply Steady.refl
    | (with_reducible apply Steady.chain ?_ (commitMember_steady _ _ _) ?sub; (case sub => decide))
    | (with_reducible apply Steady.chain ?_ (leaveMember_steady _ _ _) ?sub; (case sub => decide))
    | (with_reducible apply Steady.chain ?_ (State.stepM_steady _ _ _) ?sub; (case sub => decide))
    | (with_reducible apply Steady.chain ?_ (State.locketM_steady _ _ _) ?sub; (case sub => decide))
    | with_reducible apply Steady.ite
    | split

theorem contextLocket_steady (s : State) (h : Nat) : Steady [.ast, .stm, .lockets, .charms, .t1, .eph, .integ, .hif, .lan] s (contextLocket s h) := by
  unfold contextLocket
  try dsimp only
  repeat' first
    | with_reducible apply Steady.refl
    | (with_reducible apply Steady.chain ?_ (cancelOn_steady _ _ _) ?sub; (case sub => decide))
    | (with_reducible apply Steady.chain ?_ (leaveNow_steady _ _ _ _) ?sub; (case sub => decide))
    | with_reducible apply Steady.ite
    | with_reducible apply Steady.iteFirst
    | (with_reducible apply Steady.first ?ee; (case ee => assumption))
    | split

theorem contextReset_steady (s : State) (t : Nat) : Steady [.ory, .parures, .ast, .stm, .lockets, .charms, .t1, .extents, .cur, .bays, .eph, .colls, .searches, .selects, .sieves, .integ, .ckpt, .hif, .lan] s (contextReset s t) := by
  unfold contextReset
  try dsimp only
  repeat' first
    | with_reducible apply Steady.refl
    | (with_reducible apply Steady.chain ?_ (contextLocket_steady _ _) ?sub; (case sub => decide))
    | (with_reducible apply Steady.chain ?_ (endCmd_steady _ _ _) ?sub; (case sub => decide))
    | (with_reducible apply Steady.chain ?_ (abandonMoves_steady _ _ _) ?sub; (case sub => decide))
    | (with_reducible apply Steady.chain ?_ (rependAll_steady _ _) ?sub; (case sub => decide))
    | (with_reducible apply Steady.fold ?_ (fun _ _ => ?_); all_goals try dsimp only)
    | (with_reducible apply Steady.foldPair ?_ (fun _ _ => ?_); all_goals try dsimp only)

end Sys2Proof.Machine
end

