-- ==== Sys2Proof/Laws/Frames/Power.lean ====
section
/-!
SUPPORT. Sys2Proof/Laws/Frames/Power.lean: what each operation of Machine/Power.lean can change at most.
-/
namespace Sys2Proof.Machine

theorem offState_steady (s : State) : Steady [.now, .ory, .cells, .lpe, .parures, .ast, .smp, .fil, .stm, .lockets, .charms, .facets, .keys, .t1, .extents, .hbc, .lpc, .cur, .bays, .eph, .traffic, .colls, .searches, .selects, .sieves, .integ, .ckpt, .hif, .std, .lan] s (offState s) := by
  unfold offState
  try dsimp only
  repeat' first
    | with_reducible apply Steady.refl
    | (intro _; try dsimp only)
    | with_reducible apply Steady.ite
    | (with_reducible apply Steady.update <;> first | with_reducible exact Or.inl rfl | (apply Or.inr; decide) | (exact Or.inr ⟨by decide, fun h => by simpa using h⟩) | skip)
    | exact Or.inr ⟨by decide, writeN_wf _ _⟩
    | exact Or.inr ⟨by decide, write_wf _ _⟩
    | exact Or.inr ⟨by decide, clear_wf _ _⟩
    | exact Or.inr ⟨by decide, copyFrom_wf _ _ _ _⟩
    | exact Or.inr ⟨by decide, clearAll_wf _ _ _⟩
    | exact Or.inr ⟨by decide, fun _ => rfl⟩

theorem execAlwaysOnRailFailure_moves (s : State) : Moves [.now, .ory, .cells, .lpe, .parures, .ast, .smp, .fil, .stm, .lockets, .charms, .facets, .keys, .t1, .extents, .hbc, .lpc, .cur, .bays, .eph, .traffic, .colls, .searches, .selects, .sieves, .integ, .ckpt, .hif, .std, .lan] s (execAlwaysOnRailFailure s) := by
  unfold execAlwaysOnRailFailure
  try dsimp only
  repeat' first
    | with_reducible apply Steady.refl
    | (with_reducible apply Steady.chain ?_ (offState_steady _) ?sub; (case sub => decide))
    | with_reducible apply when_moves

theorem execPowerOn_moves (head : Bool) (s : State) : Moves [.now, .ory, .cells, .lpe, .parures, .ast, .smp, .fil, .stm, .lockets, .charms, .facets, .keys, .t1, .extents, .hbc, .lpc, .cur, .bays, .eph, .traffic, .colls, .searches, .selects, .sieves, .integ, .ckpt, .hif, .std, .lan] s (execPowerOn head s) := by
  unfold execPowerOn
  try dsimp only
  repeat' first
    | with_reducible apply Steady.refl
    | (with_reducible apply Steady.chain ?_ (offState_steady _) ?sub; (case sub => decide))
    | (with_reducible apply Steady.chain ?_ (State.lanM_steady _ _) ?sub; (case sub => decide))
    | (with_reducible apply Steady.chain ?_ (State.stdM_steady _ _) ?sub; (case sub => decide))
    | with_reducible apply when_moves
    | with_reducible apply Moves.ite
    | with_reducible apply Steady.ite

theorem execRailsPgCheck_moves (level : Bool) (s : State) : Moves [.std, .lan] s (execRailsPgCheck level s) := by
  unfold execRailsPgCheck
  try dsimp only
  repeat' first
    | with_reducible apply Steady.refl
    | (with_reducible apply Steady.chain ?_ (startCore_steady _) ?sub; (case sub => decide))
    | (with_reducible apply Steady.chain ?_ (State.lanM_steady _ _) ?sub; (case sub => decide))
    | with_reducible apply when_moves
    | with_reducible apply Moves.next
    | with_reducible apply Moves.ite
    | with_reducible apply Steady.ite
    | split

theorem execRailsPgFall_moves (s : State) : Moves [.ory, .cells, .lpe, .parures, .ast, .smp, .fil, .stm, .lockets, .charms, .facets, .keys, .t1, .extents, .hbc, .lpc, .cur, .bays, .eph, .traffic, .colls, .searches, .selects, .sieves, .integ, .ckpt, .hif, .std, .lan] s (execRailsPgFall s) := by
  unfold execRailsPgFall
  try dsimp only
  repeat' first
    | with_reducible apply Steady.refl
    | (with_reducible apply Steady.chain ?_ (coldReset_steady _ _) ?sub; (case sub => decide))
    | (with_reducible apply Steady.chain ?_ (State.lanM_steady _ _) ?sub; (case sub => decide))
    | with_reducible apply when_moves

theorem execPerstNAssert_moves (down : Bool) (s : State) : Moves [.ory, .cells, .lpe, .parures, .ast, .smp, .fil, .stm, .lockets, .charms, .facets, .keys, .t1, .extents, .hbc, .lpc, .cur, .bays, .eph, .traffic, .colls, .searches, .selects, .sieves, .integ, .ckpt, .hif, .std, .lan] s (execPerstNAssert down s) := by
  unfold execPerstNAssert
  try dsimp only
  repeat' first
    | with_reducible apply Steady.refl
    | (with_reducible apply Steady.chain ?_ (warmReset_steady _ _) ?sub; (case sub => decide))
    | (with_reducible apply Steady.chain ?_ (State.lanM_steady _ _) ?sub; (case sub => decide))
    | with_reducible apply when_moves
    | with_reducible apply Moves.ite
    | with_reducible apply Steady.ite

theorem execLinkTraining_moves (width : Nat) (speed : Nat) (cxl : Nat) (flit : Bool) (s : State) : Moves [.hif, .std, .lan] s (execLinkTraining width speed cxl flit s) := by
  unfold execLinkTraining
  try dsimp only
  repeat' first
    | with_reducible apply Steady.refl
    | (with_reducible apply Steady.chain ?_ (State.lanM_steady _ _) ?sub; (case sub => decide))
    | (with_reducible apply Steady.chain ?_ (startCore_steady _) ?sub; (case sub => decide))
    | (with_reducible apply Steady.chain ?_ (State.hifM_steady _ _) ?sub; (case sub => decide))
    | with_reducible apply formed_moves
    | with_reducible apply when_moves
    | with_reducible apply Moves.ite
    | with_reducible apply Steady.ite

theorem execD3hotToD0_moves (s : State) : Moves [.ory, .lpe, .parures, .ast, .smp, .fil, .stm, .lockets, .charms, .facets, .extents, .hbc, .lpc, .cur, .bays, .eph, .traffic, .colls, .searches, .selects, .sieves, .integ, .ckpt, .hif, .std, .lan] s (execD3hotToD0 s) := by
  unfold execD3hotToD0
  try dsimp only
  repeat' first
    | with_reducible apply Steady.refl
    | (with_reducible apply Steady.chain ?_ (deviceReset_steady _ _) ?sub; (case sub => decide))
    | with_reducible apply when_moves

theorem execColdReset_moves (s : State) : Moves [.ory, .cells, .lpe, .parures, .ast, .smp, .fil, .stm, .lockets, .charms, .facets, .keys, .t1, .extents, .hbc, .lpc, .cur, .bays, .eph, .traffic, .colls, .searches, .selects, .sieves, .integ, .ckpt, .hif, .std, .lan] s (execColdReset s) := by
  unfold execColdReset
  try dsimp only
  repeat' first
    | with_reducible apply Steady.refl
    | (with_reducible apply Steady.chain ?_ (coldReset_steady _ _) ?sub; (case sub => decide))
    | with_reducible apply when_moves

theorem execWarmReset_moves (s : State) : Moves [.ory, .cells, .lpe, .parures, .ast, .smp, .fil, .stm, .lockets, .charms, .facets, .keys, .t1, .extents, .hbc, .lpc, .cur, .bays, .eph, .traffic, .colls, .searches, .selects, .sieves, .integ, .ckpt, .hif, .std, .lan] s (execWarmReset s) := by
  unfold execWarmReset
  try dsimp only
  repeat' first
    | with_reducible apply Steady.refl
    | (with_reducible apply Steady.chain ?_ (warmReset_steady _ _) ?sub; (case sub => decide))
    | with_reducible apply when_moves

theorem execDeviceReset_moves (s : State) : Moves [.ory, .lpe, .parures, .ast, .smp, .fil, .stm, .lockets, .charms, .facets, .extents, .hbc, .lpc, .cur, .bays, .eph, .traffic, .colls, .searches, .selects, .sieves, .integ, .ckpt, .hif, .std, .lan] s (execDeviceReset s) := by
  unfold execDeviceReset
  try dsimp only
  repeat' first
    | with_reducible apply Steady.refl
    | (with_reducible apply Steady.chain ?_ (deviceReset_steady _ _) ?sub; (case sub => decide))
    | with_reducible apply when_moves

theorem execRefclkLoss_moves (s : State) : Moves [.ory, .lan] s (execRefclkLoss s) := by
  unfold execRefclkLoss
  try dsimp only
  repeat' first
    | with_reducible apply Steady.refl
    | (with_reducible apply Steady.chain ?_ (crashDirect_steady _ _ _) ?sub; (case sub => decide))
    | (with_reducible apply Steady.chain ?_ (State.lanM_steady _ _) ?sub; (case sub => decide))
    | (with_reducible apply Steady.chain ?_ (stopIssue_steady _) ?sub; (case sub => decide))
    | with_reducible apply when_moves
    | with_reducible apply Moves.ite
    | with_reducible apply Steady.ite

theorem execRefclkReturn_moves (s : State) : Moves [.ory, .cells, .lpe, .parures, .ast, .smp, .fil, .stm, .lockets, .charms, .facets, .keys, .t1, .extents, .hbc, .lpc, .cur, .bays, .eph, .traffic, .colls, .searches, .selects, .sieves, .integ, .ckpt, .hif, .std, .lan] s (execRefclkReturn s) := by
  unfold execRefclkReturn
  try dsimp only
  repeat' first
    | with_reducible apply Steady.refl
    | (with_reducible apply Steady.chain ?_ (State.lanM_steady _ _) ?sub; (case sub => decide))
    | (with_reducible apply Steady.chain ?_ (coldReset_steady _ _) ?sub; (case sub => decide))
    | with_reducible apply when_moves
    | with_reducible apply Moves.ite
    | with_reducible apply Steady.ite

theorem execDuskEntry_moves (s : State) : Moves [.lan] s (execDuskEntry s) := by
  unfold execDuskEntry
  try dsimp only
  repeat' first
    | with_reducible apply Steady.refl
    | (with_reducible apply Steady.chain ?_ (setPower_steady _ _) ?sub; (case sub => decide))
    | with_reducible apply when_moves
    | with_reducible apply Moves.next
    | split

theorem execDuskExit_moves (s : State) : Moves [.lan] s (execDuskExit s) := by
  unfold execDuskExit
  try dsimp only
  repeat' first
    | with_reducible apply Steady.refl
    | (with_reducible apply Steady.chain ?_ (setPower_steady _ _) ?sub; (case sub => decide))
    | (with_reducible apply Steady.chain ?_ (State.lanM_steady _ _) ?sub; (case sub => decide))
    | with_reducible apply clocked_moves
    | with_reducible apply when_moves

theorem refreshMode_steady (s : State) (to_ : Bool) : Steady [.hbc, .lpc] s (refreshMode s to_) := by
  unfold refreshMode
  try dsimp only
  repeat' first
    | with_reducible apply Steady.refl
    | with_reducible apply Steady.ite
    | (with_reducible apply Steady.update <;> first | with_reducible exact Or.inl rfl | (apply Or.inr; decide) | (exact Or.inr ⟨by decide, fun h => by simpa using h⟩) | skip)

theorem execTwilightEntry_moves (s : State) : Moves [.ory, .parures, .ast, .lockets, .charms, .facets, .extents, .hbc, .lpc, .cur, .bays, .eph, .colls, .searches, .selects, .sieves, .integ, .ckpt, .hif, .lan] s (execTwilightEntry s) := by
  unfold execTwilightEntry
  try dsimp only
  repeat' first
    | with_reducible apply Steady.refl
    | (with_reducible apply Steady.chain ?_ (State.astM_steady _ _) ?sub; (case sub => decide))
    | (with_reducible apply Steady.chain ?_ (refreshMode_steady _ _) ?sub; (case sub => decide))
    | (with_reducible apply Steady.chain ?_ (restCommands_steady _) ?sub; (case sub => decide))
    | (with_reducible apply Steady.chain ?_ (setPower_steady _ _) ?sub; (case sub => decide))
    | (with_reducible apply Steady.chain ?_ (State.lanM_steady _ _) ?sub; (case sub => decide))
    | with_reducible apply when_moves

theorem execTwilightExit_moves (s : State) : Moves [.hbc, .lpc, .eph, .lan] s (execTwilightExit s) := by
  unfold execTwilightExit
  try dsimp only
  repeat' first
    | with_reducible apply Steady.refl
    | (with_reducible apply Steady.chain ?_ (State.ephM_steady _ _) ?sub; (case sub => decide))
    | (with_reducible apply Steady.chain ?_ (refreshMode_steady _ _) ?sub; (case sub => decide))
    | (with_reducible apply Steady.chain ?_ (setPower_steady _ _) ?sub; (case sub => decide))
    | (with_reducible apply Steady.chain ?_ (State.lanM_steady _ _) ?sub; (case sub => decide))
    | with_reducible apply when_moves

theorem endStreams_steady (s : State) : Steady [.stm, .lockets, .hif] s (endStreams s) := by
  unfold endStreams
  try dsimp only
  repeat' first
    | with_reducible apply Steady.refl
    | (with_reducible apply Steady.chain ?_ (endStream_steady _ _ _) ?sub; (case sub => decide))
    | (with_reducible apply Steady.fold ?_ (fun _ _ => ?_); all_goals try dsimp only)

theorem restBay_steady (s : State) (n : Nat) : Steady [.bays] s (restBay s n) := by
  unfold restBay
  try dsimp only
  repeat' first
    | with_reducible apply Steady.refl
    | (with_reducible apply Steady.chain ?_ (writeIdent_steady _ _ _) ?sub; (case sub => decide))
    | (with_reducible apply Steady.chain ?_ (writeCounters_steady _ _) ?sub; (case sub => decide))
    | (with_reducible apply Steady.chain ?_ (mapImage_steady _ _) ?sub; (case sub => decide))
    | with_reducible apply Steady.ite

theorem railsOff_steady (s : State) : Steady [.ory, .cells, .lpe, .parures, .ast, .smp, .fil, .stm, .lockets, .charms, .facets, .keys, .t1, .extents, .hbc, .lpc, .cur, .bays, .eph, .traffic, .colls, .searches, .selects, .sieves, .integ, .ckpt, .hif, .std, .lan] s (railsOff s) := by
  unfold railsOff
  try dsimp only
  repeat' first
    | with_reducible apply Steady.refl
    | (with_reducible apply Steady.chain ?_ (State.lanM_steady _ _) ?sub; (case sub => decide))
    | (with_reducible apply Steady.chain ?_ (loseCore_steady _ _) ?sub; (case sub => decide))

theorem execNightEntry_moves (s : State) : Moves [.ory, .cells, .lpe, .parures, .ast, .smp, .fil, .stm, .lockets, .charms, .facets, .keys, .t1, .extents, .hbc, .lpc, .cur, .bays, .eph, .traffic, .colls, .searches, .selects, .sieves, .integ, .ckpt, .hif, .std, .lan, .hostMem] s (execNightEntry s) := by
  unfold execNightEntry
  try dsimp only
  repeat' first
    | with_reducible apply Steady.refl
    | (with_reducible apply Steady.chain ?_ (railsOff_steady _) ?sub; (case sub => decide))
    | (with_reducible apply Steady.chain ?_ (endStreams_steady _) ?sub; (case sub => decide))
    | (with_reducible apply Steady.chain ?_ (restCommands_steady _) ?sub; (case sub => decide))
    | (with_reducible apply Steady.chain ?_ (endCmd_steady _ _ _) ?sub; (case sub => decide))
    | (with_reducible apply Steady.chain ?_ (flushHost_steady _ _) ?sub; (case sub => decide))
    | (with_reducible apply Steady.chain ?_ (restBay_steady _ _) ?sub; (case sub => decide))
    | with_reducible apply when_moves
    | with_reducible apply Moves.ite
    | with_reducible apply Steady.ite
    | (with_reducible apply Steady.fold ?_ (fun _ _ => ?_); all_goals try dsimp only)

theorem execNightExit_moves (s : State) : Moves [.lan] s (execNightExit s) := by
  unfold execNightExit
  try dsimp only
  repeat' first
    | with_reducible apply Steady.refl
    | (with_reducible apply Steady.chain ?_ (setPower_steady _ _) ?sub; (case sub => decide))
    | (with_reducible apply Steady.chain ?_ (State.lanM_steady _ _) ?sub; (case sub => decide))
    | with_reducible apply when_moves

theorem execSupplyLow_moves (vcore : Nat) (pwrWarn : Bool) (s : State) : Moves [.ory, .lan] s (execSupplyLow vcore pwrWarn s) := by
  unfold execSupplyLow
  try dsimp only
  repeat' first
    | with_reducible apply Steady.refl
    | (with_reducible apply Steady.chain ?_ (State.lanM_steady _ _) ?sub; (case sub => decide))
    | (with_reducible apply Steady.chain ?_ (discardTiles_steady _) ?sub; (case sub => decide))
    | (with_reducible apply Steady.chain ?_ (State.oryM_steady _ _) ?sub; (case sub => decide))
    | with_reducible apply when_moves
    | with_reducible apply Moves.ite
    | with_reducible apply Steady.ite

theorem execSupplyRecover_moves (vcore : Nat) (s : State) : Moves [.lan] s (execSupplyRecover vcore s) := by
  unfold execSupplyRecover
  try dsimp only
  repeat' first
    | with_reducible apply Steady.refl
    | (with_reducible apply Steady.chain ?_ (State.lanM_steady _ _) ?sub; (case sub => decide))
    | (with_reducible apply Steady.chain ?_ (crashDirect_steady _ _ _) ?sub; (case sub => decide))
    | with_reducible apply when_moves
    | with_reducible apply Moves.next
    | with_reducible apply Moves.ite
    | with_reducible apply Steady.ite
    | split

theorem execControlledStop_moves (s : State) : Moves [.ory, .parures, .ast, .lockets, .charms, .extents, .cur, .bays, .eph, .colls, .searches, .selects, .sieves, .integ, .ckpt, .hif, .lan] s (execControlledStop s) := by
  unfold execControlledStop
  try dsimp only
  repeat' first
    | with_reducible apply Steady.refl
    | (with_reducible apply Steady.chain ?_ (fenceAll_steady _) ?sub; (case sub => decide))
    | (with_reducible apply Steady.chain ?_ (State.lanM_steady _ _) ?sub; (case sub => decide))
    | (with_reducible apply Steady.chain ?_ (mapImage_steady _ _) ?sub; (case sub => decide))
    | (with_reducible apply Steady.chain ?_ (crashDirect_steady _ _ _) ?sub; (case sub => decide))
    | with_reducible apply when_moves
    | with_reducible apply Moves.next
    | (with_reducible apply Steady.fold ?_ (fun _ _ => ?_); all_goals try dsimp only)
    | split

theorem execStopRecovery_moves (vcore : Nat) (s : State) : Moves [.ory, .cells, .lpe, .parures, .ast, .smp, .fil, .stm, .lockets, .charms, .facets, .keys, .t1, .extents, .hbc, .lpc, .cur, .bays, .eph, .traffic, .colls, .searches, .selects, .sieves, .integ, .ckpt, .hif, .std, .lan] s (execStopRecovery vcore s) := by
  unfold execStopRecovery
  try dsimp only
  repeat' first
    | with_reducible apply Steady.refl
    | (with_reducible apply Steady.chain ?_ (coldReset_steady _ _) ?sub; (case sub => decide))
    | with_reducible apply when_moves
    | with_reducible apply Moves.next
    | split

theorem execVcoreResetLevel_moves (vcore : Nat) (s : State) : Moves [.ory, .cells, .lpe, .parures, .ast, .smp, .fil, .stm, .lockets, .charms, .facets, .keys, .t1, .extents, .hbc, .lpc, .cur, .bays, .eph, .traffic, .colls, .searches, .selects, .sieves, .integ, .ckpt, .hif, .std, .lan] s (execVcoreResetLevel vcore s) := by
  unfold execVcoreResetLevel
  try dsimp only
  repeat' first
    | with_reducible apply Steady.refl
    | (with_reducible apply Steady.chain ?_ (coldReset_steady _ _) ?sub; (case sub => decide))
    | with_reducible apply when_moves

theorem execAvsPoll_moves (ok : Bool) (vcore : Nat) (amps : Nat) (s : State) : Moves [.lan] s (execAvsPoll ok vcore amps s) := by
  unfold execAvsPoll
  try dsimp only
  repeat' first
    | with_reducible apply Steady.refl
    | (with_reducible apply Steady.chain ?_ (State.lanM_steady _ _) ?sub; (case sub => decide))
    | with_reducible apply when_moves
    | with_reducible apply Moves.ite
    | with_reducible apply Steady.ite

theorem execThermalSample_moves (readings : List Int) (s : State) : Moves [.lan] s (execThermalSample readings s) := by
  unfold execThermalSample
  try dsimp only
  repeat' first
    | with_reducible apply Steady.refl
    | (with_reducible apply Steady.chain ?_ (State.lanM_steady _ _) ?sub; (case sub => decide))
    | (with_reducible apply Steady.chain ?_ (watch_steady _ _ _ _) ?sub; (case sub => decide))
    | with_reducible apply formed_moves
    | with_reducible apply when_moves
    | with_reducible apply Moves.ite
    | with_reducible apply Steady.ite
    | with_reducible apply Steady.iteFirst

theorem execThermalTrip_moves (s : State) : Moves [.ory, .cells, .lpe, .parures, .ast, .smp, .fil, .stm, .lockets, .charms, .facets, .keys, .t1, .extents, .hbc, .lpc, .cur, .bays, .eph, .traffic, .colls, .searches, .selects, .sieves, .integ, .ckpt, .hif, .std, .lan] s (execThermalTrip s) := by
  unfold execThermalTrip
  try dsimp only
  repeat' first
    | with_reducible apply Steady.refl
    | (with_reducible apply Steady.chain ?_ (State.lanM_steady _ _) ?sub; (case sub => decide))
    | (with_reducible apply Steady.chain ?_ (watch_steady _ _ _ _) ?sub; (case sub => decide))
    | (with_reducible apply Steady.chain ?_ (forceDetach_steady _ _) ?sub; (case sub => decide))
    | (with_reducible apply Steady.chain ?_ (railsOff_steady _) ?sub; (case sub => decide))
    | with_reducible apply when_moves
    | (with_reducible apply Steady.fold ?_ (fun _ _ => ?_); all_goals try dsimp only)

theorem execAnalogThermtrip_moves (sensor : Nat) (s : State) : Moves [.lan] s (execAnalogThermtrip sensor s) := by
  unfold execAnalogThermtrip
  try dsimp only
  repeat' first
    | with_reducible apply Steady.refl
    | (with_reducible apply Steady.chain ?_ (State.lanM_steady _ _) ?sub; (case sub => decide))
    | with_reducible apply formed_moves
    | with_reducible apply when_moves

theorem execWdtExpiry_moves (s : State) : Moves [.ory, .cells, .lpe, .parures, .ast, .smp, .fil, .stm, .lockets, .charms, .facets, .keys, .t1, .extents, .hbc, .lpc, .cur, .bays, .eph, .traffic, .colls, .searches, .selects, .sieves, .integ, .ckpt, .hif, .std, .lan] s (execWdtExpiry s) := by
  unfold execWdtExpiry
  try dsimp only
  repeat' first
    | with_reducible apply Steady.refl
    | (with_reducible apply Steady.chain ?_ (State.lanM_steady _ _) ?sub; (case sub => decide))
    | (with_reducible apply Steady.chain ?_ (deviceReset_steady _ _) ?sub; (case sub => decide))
    | (with_reducible apply Steady.chain ?_ (warmReset_steady _ _) ?sub; (case sub => decide))
    | with_reducible apply when_moves
    | with_reducible apply Moves.next
    | with_reducible apply Moves.ite
    | with_reducible apply Steady.ite
    | split

end Sys2Proof.Machine
end

