-- ==== Sys2Proof/Laws/Frames/Almanac.lean ====
section
/-!
SUPPORT. Sys2Proof/Laws/Frames/Almanac.lean: what each operation of Machine/Almanac.lean can change at most.
-/
namespace Sys2Proof.Machine

theorem pop_steady (s : State) : Steady [.lan] s (pop s) := by
  unfold pop
  try dsimp only
  repeat' first
    | with_reducible apply Steady.refl
    | (with_reducible apply Steady.chain ?_ (State.lanM_steady _ _) ?sub; (case sub => decide))

theorem countBad_steady (s : State) (r : Req) (result : Nat) : Steady [.lan] s (countBad s r result) := by
  unfold countBad
  try dsimp only
  repeat' first
    | with_reducible apply Steady.refl
    | (with_reducible apply Steady.chain ?_ (State.lanM_steady _ _) ?sub; (case sub => decide))
    | with_reducible apply Steady.ite
    | split

theorem answerReq_steady (s : State) (r : Req) (result : Nat) : Steady [.lan] s (answerReq s r result) := by
  unfold answerReq
  try dsimp only
  repeat' first
    | with_reducible apply Steady.refl
    | (with_reducible apply Steady.chain ?_ (respond_steady _ _ _) ?sub; (case sub => decide))
    | (with_reducible apply Steady.chain ?_ (countBad_steady _ _ _) ?sub; (case sub => decide))
    | (with_reducible apply Steady.chain ?_ (pop_steady _) ?sub; (case sub => decide))

theorem serveRead_steady (s : State) (r : Req) : Steady [.lan] s (serveRead s r) := by
  unfold serveRead
  try dsimp only
  repeat' first
    | with_reducible apply Steady.refl
    | (with_reducible apply Steady.chain ?_ (State.lanM_steady _ _) ?sub; (case sub => decide))
    | (with_reducible apply Steady.chain ?_ (pop_steady _) ?sub; (case sub => decide))
    | (with_reducible apply Steady.chain ?_ (reply_steady _ _ _ _) ?sub; (case sub => decide))
    | (intro _; try dsimp only)
    | with_reducible apply Steady.ite
    | with_reducible apply Steady.orElse (fun _ _ => ?_)

theorem execRead_moves (s : State) : Moves [.lan] s (execRead s) := by
  unfold execRead
  try dsimp only
  repeat' first
    | with_reducible apply Steady.refl
    | (with_reducible apply Steady.chain ?_ (serveRead_steady _ _) ?sub; (case sub => decide))
    | (with_reducible apply Steady.chain ?_ (answerReq_steady _ _ _) ?sub; (case sub => decide))
    | with_reducible apply Moves.next
    | with_reducible apply Moves.ite
    | with_reducible apply Steady.ite
    | split

theorem execDescribe_moves (s : State) : Moves [.lan] s (execDescribe s) := by
  unfold execDescribe
  try dsimp only
  repeat' first
    | with_reducible apply Steady.refl
    | (with_reducible apply Steady.chain ?_ (answerReq_steady _ _ _) ?sub; (case sub => decide))
    | (with_reducible apply Steady.chain ?_ (reply_steady _ _ _ _) ?sub; (case sub => decide))
    | (with_reducible apply Steady.chain ?_ (pop_steady _) ?sub; (case sub => decide))
    | with_reducible apply Moves.next
    | with_reducible apply Moves.ite
    | with_reducible apply Steady.ite
    | split

theorem execDiscover_moves (s : State) : Moves [.lan] s (execDiscover s) := by
  unfold execDiscover
  try dsimp only
  repeat' first
    | with_reducible apply Steady.refl
    | (with_reducible apply Steady.chain ?_ (answerReq_steady _ _ _) ?sub; (case sub => decide))
    | (with_reducible apply Steady.chain ?_ (reply_steady _ _ _ _) ?sub; (case sub => decide))
    | (with_reducible apply Steady.chain ?_ (pop_steady _) ?sub; (case sub => decide))
    | with_reducible apply Moves.next
    | with_reducible apply Moves.ite
    | with_reducible apply Steady.ite
    | split

theorem execReadSnapshotExpiry_moves (index : Nat) (s : State) : Moves [.lan] s (execReadSnapshotExpiry index s) := by
  unfold execReadSnapshotExpiry
  try dsimp only
  repeat' first
    | with_reducible apply Steady.refl
    | (with_reducible apply Steady.chain ?_ (State.lanM_steady _ _) ?sub; (case sub => decide))
    | with_reducible apply when_moves
    | with_reducible apply Moves.next
    | split

theorem plainWrite_steady (s : State) (i : Nat) (j : Nat) (v : Nat) : Steady [.ast, .lockets, .charms, .extents, .hbc, .cur, .bays, .traffic, .integ, .ckpt, .std, .lan] s (plainWrite s i j v) := by
  unfold plainWrite
  try dsimp only
  repeat' first
    | with_reducible apply Steady.refl
    | (with_reducible apply Steady.chain ?_ (State.lanM_steady _ _) ?sub; (case sub => decide))
    | (with_reducible apply Steady.chain ?_ (rebuddy_steady _) ?sub; (case sub => decide))
    | (with_reducible apply Steady.chain ?_ (entryWrite_steady _ _ _ _) ?sub; (case sub => decide))
    | with_reducible apply Steady.ite

theorem execWrite_moves (s : State) : Moves [.ast, .lockets, .charms, .extents, .hbc, .cur, .bays, .traffic, .integ, .ckpt, .std, .lan] s (execWrite s) := by
  unfold execWrite
  try dsimp only
  repeat' first
    | with_reducible apply Steady.refl
    | (with_reducible apply Steady.chain ?_ (answerReq_steady _ _ _) ?sub; (case sub => decide))
    | (with_reducible apply Steady.chain ?_ (plainWrite_steady _ _ _ _) ?sub; (case sub => decide))
    | with_reducible apply Moves.next
    | with_reducible apply Moves.ite
    | with_reducible apply Steady.ite
    | split

theorem execHomeFTimeout_moves (s : State) : Moves [.lan] s (execHomeFTimeout s) := by
  unfold execHomeFTimeout
  try dsimp only
  repeat' first
    | with_reducible apply Steady.refl
    | (with_reducible apply Steady.chain ?_ (answerReq_steady _ _ _) ?sub; (case sub => decide))
    | with_reducible apply when_moves
    | with_reducible apply Moves.next
    | (intro _; try dsimp only)
    | with_reducible apply Steady.orElse (fun _ _ => ?_)
    | split

theorem onWrite_moves {l : List Part} {s : State} {mine : Nat → Nat → Nat → Bool} {k : State → Req → State} (hm : ∀ p ∈ [Part.lan], p ∈ l)
    (hk : ∀ t r, Steady l t (k t r)) : Moves l s (onWrite s mine k) := by
  unfold onWrite
  split
  · exact .next .refl
  · exact .next ((hk _ _).chain (answerReq_steady _ _ _) hm)

theorem askReset_steady (s : State) (r : Req) (k : ResetKind) : Steady [.lan] s (askReset s r k) := by
  unfold askReset
  try dsimp only
  repeat' first
    | with_reducible apply Steady.refl
    | (with_reducible apply Steady.chain ?_ (reply_steady _ _ _ _) ?sub; (case sub => decide))
    | (with_reducible apply Steady.chain ?_ (pop_steady _) ?sub; (case sub => decide))
    | (with_reducible apply Steady.chain ?_ (State.lanM_steady _ _) ?sub; (case sub => decide))
    | (intro _; try dsimp only)
    | with_reducible apply Steady.orElse (fun _ _ => ?_)
    | split

theorem resetReq_moves (s : State) (v : Nat) (k : ResetKind) : Moves [.lan] s (resetReq s v k) := by
  unfold resetReq
  try dsimp only
  repeat' first
    | with_reducible apply Steady.refl
    | (with_reducible apply Steady.chain ?_ (askReset_steady _ _ _) ?sub; (case sub => decide))
    | with_reducible apply Moves.next
    | split

theorem execResetReqDevice_moves (s : State) : Moves [.lan] s (execResetReqDevice s) := by
  unfold execResetReqDevice
  try dsimp only
  repeat' first
    | with_reducible apply Steady.refl
    | (with_reducible apply Moves.chain ?_ (resetReq_moves _ _ _) ?sub; (case sub => decide))

theorem execResetReqWarm_moves (s : State) : Moves [.lan] s (execResetReqWarm s) := by
  unfold execResetReqWarm
  try dsimp only
  repeat' first
    | with_reducible apply Steady.refl
    | (with_reducible apply Moves.chain ?_ (resetReq_moves _ _ _) ?sub; (case sub => decide))

theorem execResetReqCold_moves (s : State) : Moves [.lan] s (execResetReqCold s) := by
  unfold execResetReqCold
  try dsimp only
  repeat' first
    | with_reducible apply Steady.refl
    | (with_reducible apply onWrite_moves ?sub ?_; (case sub => decide))
    | (with_reducible apply Steady.chain ?_ (State.lanM_steady _ _) ?sub; (case sub => decide))
    | (with_reducible apply Moves.chain ?_ (resetReq_moves _ _ _) ?sub; (case sub => decide))
    | with_reducible apply Moves.ite
    | (intro _; try dsimp only)
    | with_reducible apply Steady.ite

theorem execContextReset_moves (s : State) : Moves [.ory, .parures, .ast, .stm, .lockets, .charms, .t1, .extents, .cur, .bays, .eph, .colls, .searches, .selects, .sieves, .integ, .ckpt, .hif, .lan] s (execContextReset s) := by
  unfold execContextReset
  try dsimp only
  repeat' first
    | with_reducible apply Steady.refl
    | (with_reducible apply onWrite_moves ?sub ?_; (case sub => decide))
    | (with_reducible apply Steady.chain ?_ (contextReset_steady _ _) ?sub; (case sub => decide))
    | (intro _; try dsimp only)

theorem execVcoreSet_moves (s : State) (sent : Bool) : Moves [.lan] s (execVcoreSet s sent) := by
  unfold execVcoreSet
  try dsimp only
  repeat' first
    | with_reducible apply Steady.refl
    | (with_reducible apply onWrite_moves ?sub ?_; (case sub => decide))
    | (with_reducible apply Steady.chain ?_ (State.lanM_steady _ _) ?sub; (case sub => decide))
    | (with_reducible apply Steady.chain ?_ (answerReq_steady _ _ _) ?sub; (case sub => decide))
    | with_reducible apply Moves.next
    | with_reducible apply Moves.ite
    | (intro _; try dsimp only)
    | with_reducible apply Steady.ite
    | split

theorem execTrippedClear_moves (s : State) : Moves [.lan] s (execTrippedClear s) := by
  unfold execTrippedClear
  try dsimp only
  repeat' first
    | with_reducible apply Steady.refl
    | (with_reducible apply onWrite_moves ?sub ?_; (case sub => decide))
    | (with_reducible apply Steady.chain ?_ (State.lanM_steady _ _) ?sub; (case sub => decide))
    | (with_reducible apply Steady.chain ?_ (watch_steady _ _ _ _) ?sub; (case sub => decide))
    | with_reducible apply Moves.ite
    | (intro _; try dsimp only)
    | with_reducible apply Steady.ite

theorem execWdtKick_moves (fw : Bool) (s : State) : Moves [.lan] s (execWdtKick fw s) := by
  unfold execWdtKick
  try dsimp only
  repeat' first
    | with_reducible apply Steady.refl
    | (with_reducible apply Steady.chain ?_ (State.lanM_steady _ _) ?sub; (case sub => decide))
    | (with_reducible apply onWrite_moves ?sub ?_; (case sub => decide))
    | with_reducible apply when_moves
    | with_reducible apply Moves.ite
    | (intro _; try dsimp only)
    | with_reducible apply Steady.ite

theorem execWdtPeriod_moves (s : State) : Moves [.lan] s (execWdtPeriod s) := by
  unfold execWdtPeriod
  try dsimp only
  repeat' first
    | with_reducible apply Steady.refl
    | (with_reducible apply onWrite_moves ?sub ?_; (case sub => decide))
    | (with_reducible apply Steady.chain ?_ (State.lanM_steady _ _) ?sub; (case sub => decide))
    | (intro _; try dsimp only)

theorem execSidebandFrameReceive_moves (dst : Nat) (src : Nat) (etherType : Nat) (fcsOk : Bool) (pdu : List Byte) (s : State) : Moves [.lan] s (execSidebandFrameReceive dst src etherType fcsOk pdu s) := by
  unfold execSidebandFrameReceive
  try dsimp only
  repeat' first
    | with_reducible apply Steady.refl
    | (with_reducible apply Steady.chain ?_ (State.lanM_steady _ _) ?sub; (case sub => decide))
    | (with_reducible apply Steady.chain ?_ (enqueueReq_steady _ _) ?sub; (case sub => decide))
    | with_reducible apply when_moves
    | with_reducible apply Moves.ite
    | with_reducible apply Steady.ite

theorem execEvent_moves (s : State) : Moves [.lan] s (execEvent s) := by
  unfold execEvent
  try dsimp only
  repeat' first
    | with_reducible apply Steady.refl
    | (with_reducible apply Steady.chain ?_ (State.lanM_steady _ _) ?sub; (case sub => decide))
    | with_reducible apply when_moves
    | with_reducible apply Moves.next
    | with_reducible apply Moves.ite
    | with_reducible apply Steady.ite
    | with_reducible apply Steady.iteFirst
    | split

theorem frameSent_steady (s : State) (f : TxFrame) : Steady [.lan] s (frameSent s f) := by
  unfold frameSent
  try dsimp only
  repeat' first
    | with_reducible apply Steady.refl
    | (with_reducible apply Steady.chain ?_ (State.lanM_steady _ _) ?sub; (case sub => decide))
    | (intro _; try dsimp only)
    | with_reducible apply Steady.ite
    | with_reducible apply Steady.iteFirst

theorem execTransmitOpportunity_moves (collision : Bool) (s : State) : Moves [.lan] s (execTransmitOpportunity collision s) := by
  unfold execTransmitOpportunity
  try dsimp only
  repeat' first
    | with_reducible apply Steady.refl
    | (with_reducible apply Steady.chain ?_ (State.lanM_steady _ _) ?sub; (case sub => decide))
    | (with_reducible apply Steady.chain ?_ (frameSent_steady _ _) ?sub; (case sub => decide))
    | with_reducible apply when_moves
    | with_reducible apply Moves.ite
    | with_reducible apply Steady.ite
    | split

theorem execNodeId_moves (s : State) : Moves [.lan] s (execNodeId s) := by
  unfold execNodeId
  try dsimp only
  repeat' first
    | with_reducible apply Steady.refl
    | (with_reducible apply Steady.chain ?_ (State.lanM_steady _ _) ?sub; (case sub => decide))
    | (with_reducible apply Steady.chain ?_ (pop_steady _) ?sub; (case sub => decide))
    | (with_reducible apply Steady.chain ?_ (reply_steady _ _ _ _) ?sub; (case sub => decide))
    | with_reducible apply Moves.next
    | (intro _; try dsimp only)
    | with_reducible apply Steady.orElse (fun _ _ => ?_)
    | split

theorem execGo_moves (s : State) : Moves [.lan] s (execGo s) := by
  unfold execGo
  try dsimp only
  repeat' first
    | with_reducible apply Steady.refl
    | (with_reducible apply Steady.chain ?_ (mboxGo_steady _) ?sub; (case sub => decide))
    | with_reducible apply when_moves

theorem commitConfig_steady (s : State) : Steady [.ory, .lpe, .ast, .smp, .hbc, .cur, .bays, .eph, .traffic, .integ, .ckpt, .lan] s (commitConfig s) := by
  unfold commitConfig
  try dsimp only
  repeat' first
    | with_reducible apply Steady.refl
    | (with_reducible apply Steady.update <;> first | with_reducible exact Or.inl rfl | (apply Or.inr; decide) | (exact Or.inr ⟨by decide, fun h => by simpa using h⟩) | skip)

theorem commitWith_steady (s : State) (r : Req) (x1 : Option Nat) : Steady [.ory, .lpe, .ast, .smp, .hbc, .cur, .bays, .eph, .traffic, .integ, .ckpt, .lan] s (commitWith s r x1) := by
  unfold commitWith
  try dsimp only
  repeat' first
    | with_reducible apply Steady.refl
    | (with_reducible apply Steady.chain ?_ (answerReq_steady _ _ _) ?sub; (case sub => decide))
    | (with_reducible apply Steady.chain ?_ (State.lanM_steady _ _) ?sub; (case sub => decide))
    | (with_reducible apply Steady.chain ?_ (commitConfig_steady _) ?sub; (case sub => decide))
    | split

theorem execConfigCommit_moves (s : State) : Moves [.ory, .lpe, .ast, .smp, .hbc, .cur, .bays, .eph, .traffic, .integ, .ckpt, .lan] s (execConfigCommit s) := by
  unfold execConfigCommit
  try dsimp only
  repeat' first
    | with_reducible apply Steady.refl
    | (with_reducible apply Steady.chain ?_ (commitWith_steady _ _ _) ?sub; (case sub => decide))
    | with_reducible apply Moves.next
    | split

theorem execCrashClear_moves (s : State) : Moves [.lan] s (execCrashClear s) := by
  unfold execCrashClear
  try dsimp only
  repeat' first
    | with_reducible apply Steady.refl
    | (with_reducible apply onWrite_moves ?sub ?_; (case sub => decide))
    | (with_reducible apply Steady.chain ?_ (State.lanM_steady _ _) ?sub; (case sub => decide))
    | (intro _; try dsimp only)

theorem execRetiredClear_moves (s : State) : Moves [.lpe, .lan] s (execRetiredClear s) := by
  unfold execRetiredClear
  try dsimp only
  repeat' first
    | with_reducible apply Steady.refl
    | (with_reducible apply onWrite_moves ?sub ?_; (case sub => decide))
    | (intro _; try dsimp only)
    | (with_reducible apply Steady.update <;> first | with_reducible exact Or.inl rfl | (apply Or.inr; decide) | (exact Or.inr ⟨by decide, fun h => by simpa using h⟩) | skip)

theorem execHistClear_moves (s : State) : Moves [.traffic, .lan] s (execHistClear s) := by
  unfold execHistClear
  try dsimp only
  repeat' first
    | with_reducible apply Steady.refl
    | (with_reducible apply onWrite_moves ?sub ?_; (case sub => decide))
    | (with_reducible apply Steady.chain ?_ (State.trafM_steady _ _) ?sub; (case sub => decide))
    | (intro _; try dsimp only)

theorem execAccountClear_moves (s : State) : Moves [.eph, .lan] s (execAccountClear s) := by
  unfold execAccountClear
  try dsimp only
  repeat' first
    | with_reducible apply Steady.refl
    | (with_reducible apply onWrite_moves ?sub ?_; (case sub => decide))
    | (with_reducible apply Steady.chain ?_ (State.ephM_steady _ _) ?sub; (case sub => decide))
    | (intro _; try dsimp only)

theorem execRejoin_moves (s : State) : Moves [.ory, .ast, .lockets, .charms, .facets, .extents, .cur, .bays, .eph, .colls, .searches, .sieves, .integ, .ckpt, .hif, .std, .lan] s (execRejoin s) := by
  unfold execRejoin
  try dsimp only
  repeat' first
    | with_reducible apply Steady.refl
    | (with_reducible apply onWrite_moves ?sub ?_; (case sub => decide))
    | (with_reducible apply Steady.chain ?_ (State.lanM_steady _ _) ?sub; (case sub => decide))
    | (with_reducible apply Steady.chain ?_ (freeObjects_steady _) ?sub; (case sub => decide))
    | (with_reducible apply Steady.chain ?_ (settleEnum_steady _) ?sub; (case sub => decide))
    | (with_reducible apply Steady.chain ?_ (setStd_steady _ _) ?sub; (case sub => decide))
    | (with_reducible apply Steady.chain ?_ (State.stdM_steady _ _) ?sub; (case sub => decide))
    | (intro _; try dsimp only)

theorem execFormDomain_moves (s : State) : Moves [.ory, .ast, .lockets, .charms, .facets, .extents, .hbc, .cur, .bays, .eph, .colls, .searches, .sieves, .integ, .ckpt, .hif, .std, .lan] s (execFormDomain s) := by
  unfold execFormDomain
  try dsimp only
  repeat' first
    | with_reducible apply Steady.refl
    | (with_reducible apply onWrite_moves ?sub ?_; (case sub => decide))
    | (with_reducible apply Steady.chain ?_ (startChange_steady _ _ _) ?sub; (case sub => decide))
    | (with_reducible apply Steady.chain ?_ (refuseChange_steady _) ?sub; (case sub => decide))
    | with_reducible apply Moves.ite
    | (intro _; try dsimp only)
    | with_reducible apply Steady.ite

theorem execMemberReq_moves (s : State) : Moves [.ory, .ast, .lockets, .charms, .facets, .extents, .hbc, .cur, .bays, .eph, .colls, .searches, .sieves, .integ, .ckpt, .hif, .std, .lan] s (execMemberReq s) := by
  unfold execMemberReq
  try dsimp only
  repeat' first
    | with_reducible apply Steady.refl
    | (with_reducible apply onWrite_moves ?sub ?_; (case sub => decide))
    | (with_reducible apply Steady.chain ?_ (startChange_steady _ _ _) ?sub; (case sub => decide))
    | (with_reducible apply Steady.chain ?_ (refuseChange_steady _) ?sub; (case sub => decide))
    | with_reducible apply Moves.ite
    | (intro _; try dsimp only)
    | with_reducible apply Steady.ite

theorem execChainOnly_moves (s : State) : Moves [.std, .lan] s (execChainOnly s) := by
  unfold execChainOnly
  try dsimp only
  repeat' first
    | with_reducible apply Steady.refl
    | (with_reducible apply onWrite_moves ?sub ?_; (case sub => decide))
    | (with_reducible apply Steady.chain ?_ (State.stdM_steady _ _) ?sub; (case sub => decide))
    | with_reducible apply Moves.ite
    | (intro _; try dsimp only)
    | with_reducible apply Steady.ite

theorem execPortFence_moves (s : State) : Moves [.std, .lan] s (execPortFence s) := by
  unfold execPortFence
  try dsimp only
  repeat' first
    | with_reducible apply Steady.refl
    | (with_reducible apply onWrite_moves ?sub ?_; (case sub => decide))
    | (with_reducible apply Steady.chain ?_ (State.portM_steady _ _ _) ?sub; (case sub => decide))
    | (with_reducible apply Steady.chain ?_ (stopPort_steady _ _ _) ?sub; (case sub => decide))
    | (with_reducible apply Steady.chain ?_ (freePort_steady _ _) ?sub; (case sub => decide))
    | with_reducible apply Moves.ite
    | (intro _; try dsimp only)
    | with_reducible apply Steady.ite

theorem execCooperativeDetach_moves (bay : Nat) (source : Nat) (s : State) : Moves [.ast, .lockets, .charms, .extents, .cur, .bays, .ckpt, .hif, .lan] s (execCooperativeDetach bay source s) := by
  unfold execCooperativeDetach
  try dsimp only
  repeat' first
    | with_reducible apply Steady.refl
    | (with_reducible apply onWrite_moves ?sub ?_; (case sub => decide))
    | (with_reducible apply Steady.chain ?_ (startDetach_steady _ _) ?sub; (case sub => decide))
    | with_reducible apply formed_moves
    | with_reducible apply when_moves
    | with_reducible apply Moves.ite
    | (intro _; try dsimp only)
    | with_reducible apply Steady.ite

theorem execForcedDetach_moves (s : State) : Moves [.ast, .lockets, .charms, .t1, .extents, .cur, .bays, .eph, .ckpt, .hif, .lan] s (execForcedDetach s) := by
  unfold execForcedDetach
  try dsimp only
  repeat' first
    | with_reducible apply Steady.refl
    | (with_reducible apply onWrite_moves ?sub ?_; (case sub => decide))
    | (with_reducible apply Steady.chain ?_ (forceDetach_steady _ _) ?sub; (case sub => decide))
    | (intro _; try dsimp only)

end Sys2Proof.Machine
end

