-- ==== Sys2Proof/Laws/Frames/Bringup.lean ====
section
/-!
SUPPORT. Sys2Proof/Laws/Frames/Bringup.lean: what each operation of Machine/Bringup.lean can change at most.
-/
namespace Sys2Proof.Machine

theorem clearStaging_steady (s : State) : Steady [.lan] s (clearStaging s) := by
  unfold clearStaging
  try dsimp only
  repeat' first
    | with_reducible apply Steady.refl
    | (with_reducible apply Steady.chain ?_ (State.lanM_steady _ _) ?sub; (case sub => decide))

theorem stagePiece_steady (s : State) (data : List Byte) : Steady [.lan] s (stagePiece s data) := by
  unfold stagePiece
  try dsimp only
  repeat' first
    | with_reducible apply Steady.refl
    | (with_reducible apply Steady.chain ?_ (State.lanM_steady _ _) ?sub; (case sub => decide))

theorem beginVerify_steady (s : State) (run : Bool) : Steady [.lan] s (beginVerify s run) := by
  unfold beginVerify
  try dsimp only
  repeat' first
    | with_reducible apply Steady.refl
    | (with_reducible apply Steady.chain ?_ (State.lanM_steady _ _) ?sub; (case sub => decide))

theorem execImageStart_moves (s : State) : Moves [.lan] s (execImageStart s) := by
  unfold execImageStart
  try dsimp only
  repeat' first
    | with_reducible apply Steady.refl
    | (with_reducible apply onWrite_moves ?sub ?_; (case sub => decide))
    | (with_reducible apply Steady.chain ?_ (clearStaging_steady _) ?sub; (case sub => decide))
    | (intro _; try dsimp only)

theorem execImageData_moves (s : State) : Moves [.lan] s (execImageData s) := by
  unfold execImageData
  try dsimp only
  repeat' first
    | with_reducible apply Steady.refl
    | (with_reducible apply onWrite_moves ?sub ?_; (case sub => decide))
    | (with_reducible apply Steady.chain ?_ (stagePiece_steady _ _) ?sub; (case sub => decide))
    | (intro _; try dsimp only)

theorem execImageVerify_moves (s : State) : Moves [.lan] s (execImageVerify s) := by
  unfold execImageVerify
  try dsimp only
  repeat' first
    | with_reducible apply Steady.refl
    | (with_reducible apply onWrite_moves ?sub ?_; (case sub => decide))
    | (with_reducible apply Steady.chain ?_ (beginVerify_steady _ _) ?sub; (case sub => decide))
    | (intro _; try dsimp only)

theorem runImage_steady (s : State) : Steady [.hbc, .lpc, .lan] s (runImage s) := by
  unfold runImage
  try dsimp only
  repeat' first
    | with_reducible apply Steady.refl
    | (with_reducible apply Steady.chain ?_ (State.lanM_steady _ _) ?sub; (case sub => decide))
    | with_reducible apply Steady.ite
    | with_reducible apply Steady.iteFirst
    | (with_reducible apply Steady.update <;> first | with_reducible exact Or.inl rfl | (apply Or.inr; decide) | (exact Or.inr ⟨by decide, fun h => by simpa using h⟩) | skip)

theorem execVerifyDone_moves (s : State) : Moves [.hbc, .lpc, .lan] s (execVerifyDone s) := by
  unfold execVerifyDone
  try dsimp only
  repeat' first
    | with_reducible apply Steady.refl
    | (with_reducible apply Steady.chain ?_ (State.lanM_steady _ _) ?sub; (case sub => decide))
    | (with_reducible apply Steady.chain ?_ (runImage_steady _) ?sub; (case sub => decide))
    | with_reducible apply when_moves
    | with_reducible apply Moves.next
    | with_reducible apply Moves.ite
    | with_reducible apply Steady.ite
    | split

theorem execImageRun_moves (s : State) : Moves [.hbc, .lpc, .lan] s (execImageRun s) := by
  unfold execImageRun
  try dsimp only
  repeat' first
    | with_reducible apply Steady.refl
    | (with_reducible apply onWrite_moves ?sub ?_; (case sub => decide))
    | (with_reducible apply Steady.chain ?_ (runImage_steady _) ?sub; (case sub => decide))
    | (intro _; try dsimp only)

theorem failStart_steady (s : State) (code : Nat) : Steady [.lan] s (failStart s code) := by
  unfold failStart
  try dsimp only
  repeat' first
    | with_reducible apply Steady.refl
    | (with_reducible apply Steady.chain ?_ (State.lanM_steady _ _) ?sub; (case sub => decide))

theorem trainHbm_steady (s : State) (ok : List Bool) : Steady [.hbc] s (trainHbm s ok) := by
  unfold trainHbm
  try dsimp only
  repeat' first
    | with_reducible apply Steady.refl
    | with_reducible apply Steady.ite
    | with_reducible apply Steady.iteFirst
    | (with_reducible apply Steady.update <;> first | with_reducible exact Or.inl rfl | (apply Or.inr; decide) | (exact Or.inr ⟨by decide, fun h => by simpa using h⟩) | skip)

theorem trainT2_steady (s : State) (fail : List (Option Nat)) : Steady [.lpc, .lan] s (trainT2 s fail) := by
  unfold trainT2
  try dsimp only
  repeat' first
    | with_reducible apply Steady.refl
    | (intro _; try dsimp only)
    | with_reducible apply Steady.ite
    | with_reducible apply Steady.iteFirst
    | with_reducible apply Steady.orElse (fun _ _ => ?_)
    | (with_reducible apply Steady.update <;> first | with_reducible exact Or.inl rfl | (apply Or.inr; decide) | (exact Or.inr ⟨by decide, fun h => by simpa using h⟩) | skip)

theorem enableUnits_steady (s : State) : Steady [.ory, .ast, .smp, .fil, .stm, .cur, .bays, .eph, .sieves] s (enableUnits s) := by
  unfold enableUnits
  try dsimp only
  repeat' first
    | with_reducible apply Steady.refl
    | (with_reducible apply Steady.update <;> first | with_reducible exact Or.inl rfl | (apply Or.inr; decide) | (exact Or.inr ⟨by decide, fun h => by simpa using h⟩) | skip)

theorem completeStart_steady (s : State) : Steady [.ory, .ast, .smp, .fil, .stm, .cur, .bays, .eph, .sieves, .lan] s (completeStart s) := by
  unfold completeStart
  try dsimp only
  repeat' first
    | with_reducible apply Steady.refl
    | (with_reducible apply Steady.chain ?_ (State.lanM_steady _ _) ?sub; (case sub => decide))
    | (with_reducible apply Steady.chain ?_ (enableUnits_steady _) ?sub; (case sub => decide))
    | (with_reducible apply Steady.chain ?_ (setPower_steady _ _) ?sub; (case sub => decide))

theorem execSettingStartDone_moves (hbmOk : List Bool) (t2Fail : List (Option Nat)) (sramOk : Bool) (s : State) : Moves [.ory, .ast, .smp, .fil, .stm, .hbc, .lpc, .cur, .bays, .eph, .sieves, .lan] s (execSettingStartDone hbmOk t2Fail sramOk s) := by
  unfold execSettingStartDone
  try dsimp only
  repeat' first
    | with_reducible apply Steady.refl
    | (with_reducible apply Steady.chain ?_ (trainHbm_steady _ _) ?sub; (case sub => decide))
    | (with_reducible apply Steady.chain ?_ (failStart_steady _ _) ?sub; (case sub => decide))
    | (with_reducible apply Steady.chain ?_ (trainT2_steady _ _) ?sub; (case sub => decide))
    | (with_reducible apply Steady.chain ?_ (completeStart_steady _) ?sub; (case sub => decide))
    | with_reducible apply formed_moves
    | with_reducible apply when_moves
    | with_reducible apply Moves.next
    | with_reducible apply Moves.ite
    | with_reducible apply Steady.ite
    | split

theorem execSettingStartTimeout_moves (s : State) : Moves [.lan] s (execSettingStartTimeout s) := by
  unfold execSettingStartTimeout
  try dsimp only
  repeat' first
    | with_reducible apply Steady.refl
    | (with_reducible apply Steady.chain ?_ (failStart_steady _ _) ?sub; (case sub => decide))
    | with_reducible apply when_moves
    | with_reducible apply Moves.next
    | split

theorem sendImage_steady (s : State) (p : Nat) : Steady [.extents, .cur] s (sendImage s p) := by
  unfold sendImage
  try dsimp only
  repeat' first
    | with_reducible apply Steady.refl
    | (with_reducible apply Steady.chain ?_ (submit_steady _ _) ?sub; (case sub => decide))

theorem execImageReplicate_moves (booting : Nat) (s : State) : Moves [.extents, .cur, .lan] s (execImageReplicate booting s) := by
  unfold execImageReplicate
  try dsimp only
  repeat' first
    | with_reducible apply Steady.refl
    | (with_reducible apply onWrite_moves ?sub ?_; (case sub => decide))
    | (with_reducible apply Steady.chain ?_ (sendImage_steady _ _) ?sub; (case sub => decide))
    | (intro _; try dsimp only)
    | (with_reducible apply Steady.fold ?_ (fun _ _ => ?_); all_goals try dsimp only)

theorem execImageTransferReceive_moves (peer : Nat) (num : Nat) (s : State) : Moves [.std, .lan] s (execImageTransferReceive peer num s) := by
  unfold execImageTransferReceive
  try dsimp only
  repeat' first
    | with_reducible apply Steady.refl
    | (with_reducible apply Steady.chain ?_ (dropIn_steady _ _) ?sub; (case sub => decide))
    | (with_reducible apply Steady.chain ?_ (beginVerify_steady _ _) ?sub; (case sub => decide))
    | (with_reducible apply Steady.chain ?_ (stagePiece_steady _ _) ?sub; (case sub => decide))
    | (with_reducible apply Steady.chain ?_ (clearStaging_steady _) ?sub; (case sub => decide))
    | (with_reducible apply Steady.chain ?_ (sendMsg_steady _ _ _) ?sub; (case sub => decide))
    | with_reducible apply when_moves
    | with_reducible apply Moves.next
    | with_reducible apply Moves.ite
    | with_reducible apply Steady.ite
    | split

end Sys2Proof.Machine
end

