-- ==== Sys2Proof/Laws/SameBays.lean ====
section
/-!
SUPPORT. Sys2Proof/Laws/SameBays.lean: which operations leave the state, the power and the indicator of every bay as they were.
-/
namespace Sys2Proof.Machine

/-- The two states agree on the state, the power and the indicator of every bay. -/
structure SameBays (s t : State) : Prop where
  eq : ∀ k, (t.bay k).mode = (s.bay k).mode ∧ (t.bay k).pwren = (s.bay k).pwren ∧ (t.bay k).led = (s.bay k).led

theorem SameBays.refl {s : State} : SameBays s s := ⟨fun _ => ⟨rfl, rfl, rfl⟩⟩

theorem SameBays.trans {s t u : State} (h : SameBays s t) (k : SameBays t u) : SameBays s u :=
  ⟨fun n => ⟨(k.eq n).1.trans (h.eq n).1, (k.eq n).2.1.trans (h.eq n).2.1, (k.eq n).2.2.trans (h.eq n).2.2⟩⟩

theorem SameBays.calm {l : List Part} {s t u : State} (h : SameBays s t) (k : Steady l t u) (hl : .bays ∉ l) : SameBays s u := by
  have e : u.bays = t.bays := k.only .bays hl
  refine h.trans ⟨fun n => ?_⟩
  unfold State.bay
  rw [e]
  exact ⟨rfl, rfl, rfl⟩

theorem bayM_bay (s : State) (n k : Nat) (f : Bay → Bay) : (s.bayM n f).bay k = if n = k ∧ k < s.bays.length then f (s.bay k) else s.bay k := by
  unfold State.bay State.bayM
  simp only [List.getD_eq_getElem?_getD, List.getElem?_modify]
  by_cases hk : k < s.bays.length
  · by_cases hn : n = k <;> simp [hk, hn]
  · simp [hk]

theorem SameBays.bayM {s t : State} {n : Nat} {f : Bay → Bay} (h : SameBays s t) (k : ∀ b, (f b).mode = b.mode ∧ (f b).pwren = b.pwren ∧ (f b).led = b.led) :
    SameBays s (t.bayM n f) := by
  refine h.trans ⟨fun m => ?_⟩
  rw [bayM_bay]
  split
  · exact k _
  · exact ⟨rfl, rfl, rfl⟩

theorem SameBays.ite {s a b : State} {c : Prop} [Decidable c] (ha : SameBays s a) (hb : SameBays s b) : SameBays s (if c then a else b) := by
  split <;> assumption

theorem SameBays.iteFirst {β : Type} {s : State} {a b : State × β} {c : Prop} [Decidable c] (ha : SameBays s a.1) (hb : SameBays s b.1) :
    SameBays s (if c then a else b).1 := by
  split <;> assumption

theorem SameBays.fold {α : Type} {s t : State} {f : State → α → State} {xs : List α} (h : SameBays s t) (k : ∀ u a, SameBays u (f u a)) :
    SameBays s (xs.foldl f t) := by
  induction xs generalizing t with
  | nil => exact h
  | cons x xs ih => exact ih (h.trans (k t x))

theorem SameBays.foldPair {α β : Type} {s : State} {q : State × β} {f : State × β → α → State × β} {xs : List α} (h : SameBays s q.1)
    (k : ∀ r a, SameBays r.1 (f r a).1) : SameBays s (xs.foldl f q).1 := by
  induction xs generalizing q with
  | nil => exact h
  | cons x xs ih => exact ih (h.trans (k q x))

theorem SameBays.first {α : Type} {s t : State} {q : State × α} {y : α} (e : q = (t, y)) (h : SameBays s q.1) : SameBays s t := by
  subst e; exact h

theorem SameBays.orElse {s d : State} {o : Option State} (h : ∀ t, o = some t → SameBays s t) (k : SameBays s d) : SameBays s (o.getD d) := by
  cases o with
  | none => exact k
  | some t => exact h t rfl

theorem SameBays.choose {s t u : State} {o : Option State} {c : Prop} {_ : Decidable c} (e : (if c then some u else o) = some t)
    (h : SameBays s u) (k : ∀ v, o = some v → SameBays s v) : SameBays s t := by
  split at e
  · cases e; exact h
  · exact k t e

/-- A record update that leaves the bays. -/
theorem SameBays.update {s0 s : State} {a_pending : List Instr} {a_now : Tick} {a_ory : Ory} {a_cells : List Cell} {a_lpe : Lpe} {a_parures : Tab Parure} {a_ast : Ast} {a_smp : Smp} {a_fil : Fil} {a_stm : Stm} {a_lockets : Tab Locket} {a_charms : Tab Charm} {a_facets : List Facet} {a_keys : Tab TenantKeys} {a_t1 : Mem} {a_extents : Tab Extent} {a_hbc : List Hbc} {a_lpc : List Lpc} {a_cur : Cur} {a_eph : Eph} {a_traffic : Traffic} {a_colls : Tab Coll} {a_searches : List Search} {a_selects : List Select} {a_sieves : List Siv} {a_integ : Integ} {a_ckpt : Ckpt} {a_hif : Hif} {a_std : Std} {a_lan : Lan} {a_hostMem : Mem} {a_replies : List Reply} (h : SameBays s0 s) :
    SameBays s0 (State.mk a_pending a_now a_ory a_cells a_lpe a_parures a_ast a_smp a_fil a_stm a_lockets a_charms a_facets a_keys a_t1 a_extents a_hbc a_lpc a_cur s.bays a_eph a_traffic a_colls a_searches a_selects a_sieves a_integ a_ckpt a_hif a_std a_lan a_hostMem a_replies) := h.trans ⟨fun _ => ⟨rfl, rfl, rfl⟩⟩

theorem cfcEvent_sameBays (s : State) (n : Nat) (b : Nat) : SameBays s (cfcEvent s n b) := by
  unfold cfcEvent
  try dsimp only
  repeat' first
    | with_reducible apply SameBays.refl
    | (with_reducible apply SameBays.bayM ?_ ?same; (case same => intro b; exact ⟨rfl, rfl, rfl⟩))
    | with_reducible apply SameBays.ite
    | with_reducible apply SameBays.iteFirst
    | (with_reducible apply SameBays.fold ?_ (fun _ _ => ?_); all_goals try dsimp only)
    | (with_reducible apply SameBays.foldPair ?_ (fun _ _ => ?_); all_goals try dsimp only)
    | with_reducible apply SameBays.orElse (fun _ _ => ?_)
    | (with_reducible apply SameBays.first ?ee; (case ee => assumption))
    | (with_reducible apply SameBays.choose ?ee; (case ee => assumption))
    | (intro _; try dsimp only)
    | split

theorem cofferM_sameBays (s : State) (n : Nat) (f : Coffer → Coffer) : SameBays s (cofferM s n f) := by
  unfold cofferM
  try dsimp only
  repeat' first
    | with_reducible apply SameBays.refl
    | (with_reducible apply SameBays.bayM ?_ ?same; (case same => intro b; exact ⟨rfl, rfl, rfl⟩))
    | with_reducible apply SameBays.ite
    | with_reducible apply SameBays.iteFirst
    | (with_reducible apply SameBays.fold ?_ (fun _ _ => ?_); all_goals try dsimp only)
    | (with_reducible apply SameBays.foldPair ?_ (fun _ _ => ?_); all_goals try dsimp only)
    | with_reducible apply SameBays.orElse (fun _ _ => ?_)
    | (with_reducible apply SameBays.first ?ee; (case ee => assumption))
    | (with_reducible apply SameBays.choose ?ee; (case ee => assumption))
    | (intro _; try dsimp only)
    | split

theorem journal_sameBays (s : State) (n : Nat) (r : JRec) : SameBays s (journal s n r) := by
  unfold journal
  try dsimp only
  repeat' first
    | with_reducible apply SameBays.refl
    | (with_reducible apply SameBays.bayM ?_ ?same; (case same => intro b; exact ⟨rfl, rfl, rfl⟩))
    | with_reducible apply SameBays.trans ?_ (cofferM_sameBays _ _ _)
    | with_reducible apply SameBays.ite
    | with_reducible apply SameBays.iteFirst
    | (with_reducible apply SameBays.fold ?_ (fun _ _ => ?_); all_goals try dsimp only)
    | (with_reducible apply SameBays.foldPair ?_ (fun _ _ => ?_); all_goals try dsimp only)
    | with_reducible apply SameBays.orElse (fun _ _ => ?_)
    | (with_reducible apply SameBays.first ?ee; (case ee => assumption))
    | (with_reducible apply SameBays.choose ?ee; (case ee => assumption))
    | (intro _; try dsimp only)
    | split

theorem mapImage_sameBays (s : State) (n : Nat) : SameBays s (mapImage s n) := by
  unfold mapImage
  try dsimp only
  repeat' first
    | with_reducible apply SameBays.refl
    | (with_reducible apply SameBays.bayM ?_ ?same; (case same => intro b; exact ⟨rfl, rfl, rfl⟩))
    | with_reducible apply SameBays.trans ?_ (journal_sameBays _ _ _)
    | with_reducible apply SameBays.ite
    | with_reducible apply SameBays.iteFirst
    | (with_reducible apply SameBays.fold ?_ (fun _ _ => ?_); all_goals try dsimp only)
    | (with_reducible apply SameBays.foldPair ?_ (fun _ _ => ?_); all_goals try dsimp only)
    | with_reducible apply SameBays.orElse (fun _ _ => ?_)
    | (with_reducible apply SameBays.first ?ee; (case ee => assumption))
    | (with_reducible apply SameBays.choose ?ee; (case ee => assumption))
    | (intro _; try dsimp only)
    | split

theorem putUnits_sameBays (s : State) (n : Nat) (ext : Nat) (reloc : Bool) (x1 : Nat) (x2 : Nat) (x3 : Nat) : SameBays s (putUnits s n ext reloc x1 x2 x3).1 := by
  induction x1 generalizing s x2 x3 with
  | zero => exact .refl
  | succ fuel ih =>
  unfold putUnits
  dsimp only
  repeat' first
    | with_reducible apply SameBays.refl
    | with_reducible apply SameBays.trans ?_ (ih _ _ _)
    | with_reducible apply SameBays.trans ?_ (cofferM_sameBays _ _ _)
    | (with_reducible apply SameBays.bayM ?_ ?same; (case same => intro b; exact ⟨rfl, rfl, rfl⟩))
    | with_reducible apply SameBays.trans ?_ (journal_sameBays _ _ _)
    | with_reducible apply SameBays.ite
    | with_reducible apply SameBays.iteFirst
    | (with_reducible apply SameBays.fold ?_ (fun _ _ => ?_); all_goals try dsimp only)
    | (with_reducible apply SameBays.foldPair ?_ (fun _ _ => ?_); all_goals try dsimp only)
    | with_reducible apply SameBays.orElse (fun _ _ => ?_)
    | (with_reducible apply SameBays.first ?ee; (case ee => assumption))
    | (with_reducible apply SameBays.choose ?ee; (case ee => assumption))
    | (intro _; try dsimp only)
    | split

theorem closeRow_sameBays (s : State) (n : Nat) (reloc : Bool) : SameBays s (closeRow s n reloc) := by
  unfold closeRow
  try dsimp only
  repeat' first
    | with_reducible apply SameBays.refl
    | with_reducible apply SameBays.trans ?_ (putUnits_sameBays _ _ _ _ _ _ _)
    | with_reducible apply SameBays.ite
    | with_reducible apply SameBays.iteFirst
    | (with_reducible apply SameBays.fold ?_ (fun _ _ => ?_); all_goals try dsimp only)
    | (with_reducible apply SameBays.foldPair ?_ (fun _ _ => ?_); all_goals try dsimp only)
    | with_reducible apply SameBays.orElse (fun _ _ => ?_)
    | (with_reducible apply SameBays.first ?ee; (case ee => assumption))
    | (with_reducible apply SameBays.choose ?ee; (case ee => assumption))
    | (intro _; try dsimp only)
    | split

theorem appendUnits_sameBays (s : State) (n : Nat) (ext : Nat) (reloc : Bool) (fuel : Nat) (first : Nat) (count : Nat) : SameBays s (appendUnits s n ext reloc fuel first count).1 := by
  unfold appendUnits
  try dsimp only
  repeat' first
    | with_reducible apply SameBays.refl
    | with_reducible apply SameBays.trans ?_ (putUnits_sameBays _ _ _ _ _ _ _)
    | with_reducible apply SameBays.trans ?_ (closeRow_sameBays _ _ _)
    | with_reducible apply SameBays.ite
    | with_reducible apply SameBays.iteFirst
    | (with_reducible apply SameBays.fold ?_ (fun _ _ => ?_); all_goals try dsimp only)
    | (with_reducible apply SameBays.foldPair ?_ (fun _ _ => ?_); all_goals try dsimp only)
    | with_reducible apply SameBays.orElse (fun _ _ => ?_)
    | (with_reducible apply SameBays.first ?ee; (case ee => assumption))
    | (with_reducible apply SameBays.choose ?ee; (case ee => assumption))
    | (intro _; try dsimp only)
    | split

theorem openExtent_sameGives (s : State) (e : Extent) {t : State} {y : Nat} (e : (openExtent s e) = some (t, y)) : SameBays s t := by
  unfold openExtent at e
  try dsimp only at e
  repeat' first
    | (cases e; done)
    | (injection e with e; subst e)
    | (injection e with e; injection e with e _; subst e)
    | split at e
  all_goals
    repeat' first
      | with_reducible apply SameBays.refl
      | (with_reducible apply SameBays.calm ?_ (newExtentId_steady _) ?sub; (case sub => decide))
      | with_reducible apply SameBays.trans ?_ (cofferM_sameBays _ _ _)
      | with_reducible apply SameBays.ite
      | with_reducible apply SameBays.iteFirst
      | (with_reducible apply SameBays.fold ?_ (fun _ _ => ?_); all_goals try dsimp only)
      | (with_reducible apply SameBays.foldPair ?_ (fun _ _ => ?_); all_goals try dsimp only)
      | with_reducible apply SameBays.orElse (fun _ _ => ?_)
      | (with_reducible apply SameBays.first ?ee; (case ee => assumption))
      | (with_reducible apply SameBays.choose ?ee; (case ee => assumption))
      | (intro _; try dsimp only)
      | split
      | with_reducible apply SameBays.update

theorem dropExtent_sameBays (s : State) (id : Nat) : SameBays s (dropExtent s id) := by
  unfold dropExtent
  try dsimp only
  repeat' first
    | with_reducible apply SameBays.refl
    | with_reducible apply SameBays.trans ?_ (journal_sameBays _ _ _)
    | with_reducible apply SameBays.trans ?_ (cofferM_sameBays _ _ _)
    | with_reducible apply SameBays.ite
    | with_reducible apply SameBays.iteFirst
    | (with_reducible apply SameBays.fold ?_ (fun _ _ => ?_); all_goals try dsimp only)
    | (with_reducible apply SameBays.foldPair ?_ (fun _ _ => ?_); all_goals try dsimp only)
    | with_reducible apply SameBays.orElse (fun _ _ => ?_)
    | (with_reducible apply SameBays.first ?ee; (case ee => assumption))
    | (with_reducible apply SameBays.choose ?ee; (case ee => assumption))
    | (intro _; try dsimp only)
    | split
    | with_reducible apply SameBays.update

theorem freeExtent_sameBays (s : State) (id : Nat) : SameBays s (freeExtent s id) := by
  unfold freeExtent
  try dsimp only
  repeat' first
    | with_reducible apply SameBays.refl
    | with_reducible apply SameBays.trans ?_ (dropExtent_sameBays _ _)
    | with_reducible apply SameBays.ite
    | with_reducible apply SameBays.iteFirst
    | (with_reducible apply SameBays.fold ?_ (fun _ _ => ?_); all_goals try dsimp only)
    | (with_reducible apply SameBays.foldPair ?_ (fun _ _ => ?_); all_goals try dsimp only)
    | with_reducible apply SameBays.orElse (fun _ _ => ?_)
    | (with_reducible apply SameBays.first ?ee; (case ee => assumption))
    | (with_reducible apply SameBays.choose ?ee; (case ee => assumption))
    | (intro _; try dsimp only)
    | split
    | with_reducible apply SameBays.update

theorem endRead_sameBays (s : State) (d : Desc) : SameBays s (endRead s d) := by
  unfold endRead
  try dsimp only
  repeat' first
    | with_reducible apply SameBays.refl
    | with_reducible apply SameBays.trans ?_ (dropExtent_sameBays _ _)
    | with_reducible apply SameBays.ite
    | with_reducible apply SameBays.iteFirst
    | (with_reducible apply SameBays.fold ?_ (fun _ _ => ?_); all_goals try dsimp only)
    | (with_reducible apply SameBays.foldPair ?_ (fun _ _ => ?_); all_goals try dsimp only)
    | with_reducible apply SameBays.orElse (fun _ _ => ?_)
    | (with_reducible apply SameBays.first ?ee; (case ee => assumption))
    | (with_reducible apply SameBays.choose ?ee; (case ee => assumption))
    | (intro _; try dsimp only)
    | split
    | with_reducible apply SameBays.update

theorem removeDesc_sameBays (s : State) (d : Desc) : SameBays s (removeDesc s d) := by
  unfold removeDesc
  try dsimp only
  repeat' first
    | with_reducible apply SameBays.refl
    | with_reducible apply SameBays.trans ?_ (endRead_sameBays _ _)
    | (with_reducible apply SameBays.calm ?_ (State.curM_steady _ _) ?sub; (case sub => decide))
    | with_reducible apply SameBays.ite
    | with_reducible apply SameBays.iteFirst
    | (with_reducible apply SameBays.fold ?_ (fun _ _ => ?_); all_goals try dsimp only)
    | (with_reducible apply SameBays.foldPair ?_ (fun _ _ => ?_); all_goals try dsimp only)
    | with_reducible apply SameBays.orElse (fun _ _ => ?_)
    | (with_reducible apply SameBays.first ?ee; (case ee => assumption))
    | (with_reducible apply SameBays.choose ?ee; (case ee => assumption))
    | (intro _; try dsimp only)
    | split

theorem undoWrite_sameBays (s : State) (d : Desc) : SameBays s (undoWrite s d) := by
  unfold undoWrite
  try dsimp only
  repeat' first
    | with_reducible apply SameBays.refl
    | with_reducible apply SameBays.trans ?_ (cofferM_sameBays _ _ _)
    | with_reducible apply SameBays.trans ?_ (dropExtent_sameBays _ _)
    | with_reducible apply SameBays.ite
    | with_reducible apply SameBays.iteFirst
    | (with_reducible apply SameBays.fold ?_ (fun _ _ => ?_); all_goals try dsimp only)
    | (with_reducible apply SameBays.foldPair ?_ (fun _ _ => ?_); all_goals try dsimp only)
    | with_reducible apply SameBays.orElse (fun _ _ => ?_)
    | (with_reducible apply SameBays.first ?ee; (case ee => assumption))
    | (with_reducible apply SameBays.choose ?ee; (case ee => assumption))
    | (intro _; try dsimp only)
    | split

theorem abandonDesc_sameBays (s : State) (d : Desc) : SameBays s (abandonDesc s d) := by
  unfold abandonDesc
  try dsimp only
  repeat' first
    | with_reducible apply SameBays.refl
    | (with_reducible apply SameBays.calm ?_ (writeRecord_steady _ _ _) ?sub; (case sub => decide))
    | with_reducible apply SameBays.trans ?_ (removeDesc_sameBays _ _)
    | with_reducible apply SameBays.trans ?_ (undoWrite_sameBays _ _)
    | (with_reducible apply SameBays.calm ?_ (State.curM_steady _ _) ?sub; (case sub => decide))
    | with_reducible apply SameBays.ite
    | with_reducible apply SameBays.iteFirst
    | (with_reducible apply SameBays.fold ?_ (fun _ _ => ?_); all_goals try dsimp only)
    | (with_reducible apply SameBays.foldPair ?_ (fun _ _ => ?_); all_goals try dsimp only)
    | with_reducible apply SameBays.orElse (fun _ _ => ?_)
    | (with_reducible apply SameBays.first ?ee; (case ee => assumption))
    | (with_reducible apply SameBays.choose ?ee; (case ee => assumption))
    | (intro _; try dsimp only)
    | split

theorem abandonFor_sameBays (s : State) (p : Purpose → Bool) : SameBays s (abandonFor s p) := by
  unfold abandonFor
  try dsimp only
  repeat' first
    | with_reducible apply SameBays.refl
    | with_reducible apply SameBays.trans ?_ (abandonDesc_sameBays _ _)
    | (with_reducible apply SameBays.calm ?_ (State.curM_steady _ _) ?sub; (case sub => decide))
    | with_reducible apply SameBays.ite
    | with_reducible apply SameBays.iteFirst
    | (with_reducible apply SameBays.fold ?_ (fun _ _ => ?_); all_goals try dsimp only)
    | (with_reducible apply SameBays.foldPair ?_ (fun _ _ => ?_); all_goals try dsimp only)
    | with_reducible apply SameBays.orElse (fun _ _ => ?_)
    | (with_reducible apply SameBays.first ?ee; (case ee => assumption))
    | (with_reducible apply SameBays.choose ?ee; (case ee => assumption))
    | (intro _; try dsimp only)
    | split

theorem freeCharm_sameBays (s : State) (ci : Nat) : SameBays s (freeCharm s ci) := by
  unfold freeCharm
  try dsimp only
  repeat' first
    | with_reducible apply SameBays.refl
    | with_reducible apply SameBays.trans ?_ (abandonFor_sameBays _ _)
    | (with_reducible apply SameBays.calm ?_ (tlbDropId_steady _ _) ?sub; (case sub => decide))
    | (with_reducible apply SameBays.calm ?_ (releaseFrames_steady _ _ _) ?sub; (case sub => decide))
    | with_reducible apply SameBays.trans ?_ (freeExtent_sameBays _ _)
    | with_reducible apply SameBays.ite
    | with_reducible apply SameBays.iteFirst
    | (with_reducible apply SameBays.fold ?_ (fun _ _ => ?_); all_goals try dsimp only)
    | (with_reducible apply SameBays.foldPair ?_ (fun _ _ => ?_); all_goals try dsimp only)
    | with_reducible apply SameBays.orElse (fun _ _ => ?_)
    | (with_reducible apply SameBays.first ?ee; (case ee => assumption))
    | (with_reducible apply SameBays.choose ?ee; (case ee => assumption))
    | (intro _; try dsimp only)
    | split
    | with_reducible apply SameBays.update

theorem releaseCharmRef_sameBays (s : State) (digest : Nat) : SameBays s (releaseCharmRef s digest) := by
  unfold releaseCharmRef
  try dsimp only
  repeat' first
    | with_reducible apply SameBays.refl
    | with_reducible apply SameBays.trans ?_ (freeCharm_sameBays _ _)
    | (with_reducible apply SameBays.calm ?_ (State.charmM_steady _ _ _) ?sub; (case sub => decide))
    | with_reducible apply SameBays.ite
    | with_reducible apply SameBays.iteFirst
    | (with_reducible apply SameBays.fold ?_ (fun _ _ => ?_); all_goals try dsimp only)
    | (with_reducible apply SameBays.foldPair ?_ (fun _ _ => ?_); all_goals try dsimp only)
    | with_reducible apply SameBays.orElse (fun _ _ => ?_)
    | (with_reducible apply SameBays.first ?ee; (case ee => assumption))
    | (with_reducible apply SameBays.choose ?ee; (case ee => assumption))
    | (intro _; try dsimp only)
    | split

theorem dropLocket_sameBays (s : State) (h : Nat) : SameBays s (dropLocket s h) := by
  unfold dropLocket
  try dsimp only
  repeat' first
    | with_reducible apply SameBays.refl
    | with_reducible apply SameBays.trans ?_ (abandonFor_sameBays _ _)
    | (with_reducible apply SameBays.calm ?_ (State.ephM_steady _ _) ?sub; (case sub => decide))
    | (with_reducible apply SameBays.calm ?_ (vacateAll_steady _ _) ?sub; (case sub => decide))
    | (with_reducible apply SameBays.calm ?_ (releaseFrames_steady _ _ _) ?sub; (case sub => decide))
    | with_reducible apply SameBays.trans ?_ (freeExtent_sameBays _ _)
    | (with_reducible apply SameBays.calm ?_ (unpinReplicas_steady _ _) ?sub; (case sub => decide))
    | with_reducible apply SameBays.trans ?_ (releaseCharmRef_sameBays _ _)
    | with_reducible apply SameBays.ite
    | with_reducible apply SameBays.iteFirst
    | (with_reducible apply SameBays.fold ?_ (fun _ _ => ?_); all_goals try dsimp only)
    | (with_reducible apply SameBays.foldPair ?_ (fun _ _ => ?_); all_goals try dsimp only)
    | with_reducible apply SameBays.orElse (fun _ _ => ?_)
    | (with_reducible apply SameBays.first ?ee; (case ee => assumption))
    | (with_reducible apply SameBays.choose ?ee; (case ee => assumption))
    | (intro _; try dsimp only)
    | split
    | with_reducible apply SameBays.update

theorem abandonDemotion_sameBays (s : State) (h : Nat) (status : Nat) : SameBays s (abandonDemotion s h status) := by
  unfold abandonDemotion
  try dsimp only
  repeat' first
    | with_reducible apply SameBays.refl
    | with_reducible apply SameBays.trans ?_ (abandonFor_sameBays _ _)
    | with_reducible apply SameBays.trans ?_ (dropExtent_sameBays _ _)
    | (with_reducible apply SameBays.calm ?_ (State.locketM_steady _ _ _) ?sub; (case sub => decide))
    | (with_reducible apply SameBays.calm ?_ (completeId_steady _ _ _ _ _ _) ?sub; (case sub => decide))
    | with_reducible apply SameBays.ite
    | with_reducible apply SameBays.iteFirst
    | (with_reducible apply SameBays.fold ?_ (fun _ _ => ?_); all_goals try dsimp only)
    | (with_reducible apply SameBays.foldPair ?_ (fun _ _ => ?_); all_goals try dsimp only)
    | with_reducible apply SameBays.orElse (fun _ _ => ?_)
    | (with_reducible apply SameBays.first ?ee; (case ee => assumption))
    | (with_reducible apply SameBays.choose ?ee; (case ee => assumption))
    | (intro _; try dsimp only)
    | split

theorem startDemotion_sameYields (s : State) (h : Nat) (tier : Nat) (bay : Nat) (cmd : Option Nat) {t : State} (e : (startDemotion s h tier bay cmd) = some t) : SameBays s t := by
  unfold startDemotion at e
  try dsimp only at e
  repeat' first
    | (cases e; done)
    | (injection e with e; subst e)
    | (injection e with e; injection e with e _; subst e)
    | split at e
  all_goals
    repeat' first
      | with_reducible apply SameBays.refl
      | with_reducible apply SameBays.trans ?_ (openExtent_sameGives _ _ (by assumption))
      | (with_reducible apply SameBays.calm ?_ (lowater_steady _) ?sub; (case sub => decide))
      | (with_reducible apply SameBays.calm ?_ (State.locketM_steady _ _ _) ?sub; (case sub => decide))
      | (with_reducible apply SameBays.calm ?_ (submit_steady _ _) ?sub; (case sub => decide))
      | with_reducible apply SameBays.ite
      | with_reducible apply SameBays.iteFirst
      | (with_reducible apply SameBays.fold ?_ (fun _ _ => ?_); all_goals try dsimp only)
      | (with_reducible apply SameBays.foldPair ?_ (fun _ _ => ?_); all_goals try dsimp only)
      | with_reducible apply SameBays.orElse (fun _ _ => ?_)
      | (with_reducible apply SameBays.first ?ee; (case ee => assumption))
      | (with_reducible apply SameBays.choose ?ee; (case ee => assumption))
      | (intro _; try dsimp only)
      | split

theorem tryTiers_sameBays (s : State) (h : Nat) (ts : List Nat) : SameBays s (tryTiers s h ts) := by
  induction ts with
  | nil => exact SameBays.refl.calm (State.locketM_steady _ _ _) (by decide)
  | cons t ts ih =>
    unfold tryTiers
    split
    · rename_i u e
      exact (startDemotion_sameYields _ _ _ _ _ e).calm (State.locketM_steady _ _ _) (by decide)
    · exact ih

theorem failDemotion_sameBays (s : State) (h : Nat) : SameBays s (failDemotion s h) := by
  unfold failDemotion
  try dsimp only
  repeat' first
    | with_reducible apply SameBays.refl
    | with_reducible apply SameBays.trans ?_ (abandonDemotion_sameBays _ _ _)
    | with_reducible apply SameBays.trans ?_ (tryTiers_sameBays _ _ _)
    | with_reducible apply SameBays.ite
    | with_reducible apply SameBays.iteFirst
    | (with_reducible apply SameBays.fold ?_ (fun _ _ => ?_); all_goals try dsimp only)
    | (with_reducible apply SameBays.foldPair ?_ (fun _ _ => ?_); all_goals try dsimp only)
    | with_reducible apply SameBays.orElse (fun _ _ => ?_)
    | (with_reducible apply SameBays.first ?ee; (case ee => assumption))
    | (with_reducible apply SameBays.choose ?ee; (case ee => assumption))
    | (intro _; try dsimp only)
    | split

theorem failCharm_sameBays (s : State) (ci : Nat) : SameBays s (failCharm s ci) := by
  unfold failCharm
  try dsimp only
  repeat' first
    | with_reducible apply SameBays.refl
    | (with_reducible apply SameBays.calm ?_ (completeId_steady _ _ _ _ _ _) ?sub; (case sub => decide))
    | with_reducible apply SameBays.trans ?_ (freeCharm_sameBays _ _)
    | with_reducible apply SameBays.ite
    | with_reducible apply SameBays.iteFirst
    | (with_reducible apply SameBays.fold ?_ (fun _ _ => ?_); all_goals try dsimp only)
    | (with_reducible apply SameBays.foldPair ?_ (fun _ _ => ?_); all_goals try dsimp only)
    | with_reducible apply SameBays.orElse (fun _ _ => ?_)
    | (with_reducible apply SameBays.first ?ee; (case ee => assumption))
    | (with_reducible apply SameBays.choose ?ee; (case ee => assumption))
    | (intro _; try dsimp only)
    | split

theorem endPromotion_sameBays (s : State) (h : Nat) (l' : Locket) (m : TierMove) (status : Nat) : SameBays s (endPromotion s h l' m status) := by
  unfold endPromotion
  try dsimp only
  repeat' first
    | with_reducible apply SameBays.refl
    | (with_reducible apply SameBays.calm ?_ (undoPromotion_steady _ _) ?sub; (case sub => decide))
    | (with_reducible apply SameBays.calm ?_ (completeId_steady _ _ _ _ _ _) ?sub; (case sub => decide))
    | (with_reducible apply SameBays.calm ?_ (buildPromoted_steady _ _ _ _ _ _) ?sub; (case sub => decide))
    | (with_reducible apply SameBays.calm ?_ (beginRecompute_steady _ _ _ _ _) ?sub; (case sub => decide))
    | with_reducible apply SameBays.trans ?_ (freeExtent_sameBays _ _)
    | with_reducible apply SameBays.ite
    | with_reducible apply SameBays.iteFirst
    | (with_reducible apply SameBays.fold ?_ (fun _ _ => ?_); all_goals try dsimp only)
    | (with_reducible apply SameBays.foldPair ?_ (fun _ _ => ?_); all_goals try dsimp only)
    | with_reducible apply SameBays.orElse (fun _ _ => ?_)
    | (with_reducible apply SameBays.first ?ee; (case ee => assumption))
    | (with_reducible apply SameBays.choose ?ee; (case ee => assumption))
    | (intro _; try dsimp only)
    | split

theorem writeIdent_sameBays (s : State) (n : Nat) (f : List Byte → List Byte) : SameBays s (writeIdent s n f) := by
  unfold writeIdent
  try dsimp only
  repeat' first
    | with_reducible apply SameBays.refl
    | with_reducible apply SameBays.trans ?_ (cofferM_sameBays _ _ _)
    | with_reducible apply SameBays.ite
    | with_reducible apply SameBays.iteFirst
    | (with_reducible apply SameBays.fold ?_ (fun _ _ => ?_); all_goals try dsimp only)
    | (with_reducible apply SameBays.foldPair ?_ (fun _ _ => ?_); all_goals try dsimp only)
    | with_reducible apply SameBays.orElse (fun _ _ => ?_)
    | (with_reducible apply SameBays.first ?ee; (case ee => assumption))
    | (with_reducible apply SameBays.choose ?ee; (case ee => assumption))
    | (intro _; try dsimp only)
    | split

theorem writeCounters_sameBays (s : State) (n : Nat) : SameBays s (writeCounters s n) := by
  unfold writeCounters
  try dsimp only
  repeat' first
    | with_reducible apply SameBays.refl
    | with_reducible apply SameBays.trans ?_ (writeIdent_sameBays _ _ _)
    | (with_reducible apply SameBays.bayM ?_ ?same; (case same => intro b; exact ⟨rfl, rfl, rfl⟩))
    | with_reducible apply SameBays.ite
    | with_reducible apply SameBays.iteFirst
    | (with_reducible apply SameBays.fold ?_ (fun _ _ => ?_); all_goals try dsimp only)
    | (with_reducible apply SameBays.foldPair ?_ (fun _ _ => ?_); all_goals try dsimp only)
    | with_reducible apply SameBays.orElse (fun _ _ => ?_)
    | (with_reducible apply SameBays.first ?ee; (case ee => assumption))
    | (with_reducible apply SameBays.choose ?ee; (case ee => assumption))
    | (intro _; try dsimp only)
    | split

theorem adopt_sameBays (n : Nat) (s : State) (ext : Nat) (e : Extent) : SameBays s (adopt n s ext e) := by
  unfold adopt
  try dsimp only
  repeat' first
    | with_reducible apply SameBays.refl
    | with_reducible apply SameBays.trans ?_ (freeExtent_sameBays _ _)
    | with_reducible apply SameBays.ite
    | with_reducible apply SameBays.iteFirst
    | (with_reducible apply SameBays.fold ?_ (fun _ _ => ?_); all_goals try dsimp only)
    | (with_reducible apply SameBays.foldPair ?_ (fun _ _ => ?_); all_goals try dsimp only)
    | with_reducible apply SameBays.orElse (fun _ _ => ?_)
    | (with_reducible apply SameBays.first ?ee; (case ee => assumption))
    | (with_reducible apply SameBays.choose ?ee; (case ee => assumption))
    | (intro _; try dsimp only)
    | split
    | with_reducible apply SameBays.update

theorem meetExtent_sameBays (n : Nat) (s : State) (x : Nat × Extent) : SameBays s (meetExtent n s x) := by
  unfold meetExtent
  try dsimp only
  repeat' first
    | with_reducible apply SameBays.refl
    | with_reducible apply SameBays.trans ?_ (adopt_sameBays _ _ _ _)
    | with_reducible apply SameBays.trans ?_ (freeExtent_sameBays _ _)
    | with_reducible apply SameBays.ite
    | with_reducible apply SameBays.iteFirst
    | (with_reducible apply SameBays.fold ?_ (fun _ _ => ?_); all_goals try dsimp only)
    | (with_reducible apply SameBays.foldPair ?_ (fun _ _ => ?_); all_goals try dsimp only)
    | with_reducible apply SameBays.orElse (fun _ _ => ?_)
    | (with_reducible apply SameBays.first ?ee; (case ee => assumption))
    | (with_reducible apply SameBays.choose ?ee; (case ee => assumption))
    | (intro _; try dsimp only)
    | split

theorem failWrites_sameBays (s : State) (n : Nat) : SameBays s (failWrites s n) := by
  unfold failWrites
  try dsimp only
  repeat' first
    | with_reducible apply SameBays.refl
    | with_reducible apply SameBays.trans ?_ (failDemotion_sameBays _ _)
    | with_reducible apply SameBays.trans ?_ (failCharm_sameBays _ _)
    | with_reducible apply SameBays.trans ?_ (abandonDesc_sameBays _ _)
    | with_reducible apply SameBays.ite
    | with_reducible apply SameBays.iteFirst
    | (with_reducible apply SameBays.fold ?_ (fun _ _ => ?_); all_goals try dsimp only)
    | (with_reducible apply SameBays.foldPair ?_ (fun _ _ => ?_); all_goals try dsimp only)
    | with_reducible apply SameBays.orElse (fun _ _ => ?_)
    | (with_reducible apply SameBays.first ?ee; (case ee => assumption))
    | (with_reducible apply SameBays.choose ?ee; (case ee => assumption))
    | (intro _; try dsimp only)
    | split

theorem detachCharms_sameBays (s : State) (n : Nat) : SameBays s (detachCharms s n) := by
  unfold detachCharms
  try dsimp only
  repeat' first
    | with_reducible apply SameBays.refl
    | (with_reducible apply SameBays.calm ?_ (detachCharm_steady _ _) ?sub; (case sub => decide))
    | (with_reducible apply SameBays.bayM ?_ ?same; (case same => intro b; exact ⟨rfl, rfl, rfl⟩))
    | with_reducible apply SameBays.ite
    | with_reducible apply SameBays.iteFirst
    | (with_reducible apply SameBays.fold ?_ (fun _ _ => ?_); all_goals try dsimp only)
    | (with_reducible apply SameBays.foldPair ?_ (fun _ _ => ?_); all_goals try dsimp only)
    | with_reducible apply SameBays.orElse (fun _ _ => ?_)
    | (with_reducible apply SameBays.first ?ee; (case ee => assumption))
    | (with_reducible apply SameBays.choose ?ee; (case ee => assumption))
    | (intro _; try dsimp only)
    | split

theorem freeParked_sameBays (s : State) (n : Nat) : SameBays s (freeParked s n) := by
  unfold freeParked
  try dsimp only
  repeat' first
    | with_reducible apply SameBays.refl
    | with_reducible apply SameBays.trans ?_ (dropLocket_sameBays _ _)
    | (with_reducible apply SameBays.calm ?_ (forgetExtents_steady _ _) ?sub; (case sub => decide))
    | with_reducible apply SameBays.ite
    | with_reducible apply SameBays.iteFirst
    | (with_reducible apply SameBays.fold ?_ (fun _ _ => ?_); all_goals try dsimp only)
    | (with_reducible apply SameBays.foldPair ?_ (fun _ _ => ?_); all_goals try dsimp only)
    | with_reducible apply SameBays.orElse (fun _ _ => ?_)
    | (with_reducible apply SameBays.first ?ee; (case ee => assumption))
    | (with_reducible apply SameBays.choose ?ee; (case ee => assumption))
    | (intro _; try dsimp only)
    | split

theorem failReads_sameBays (s : State) (n : Nat) : SameBays s (failReads s n) := by
  unfold failReads
  try dsimp only
  repeat' first
    | with_reducible apply SameBays.refl
    | with_reducible apply SameBays.trans ?_ (endPromotion_sameBays _ _ _ _ _)
    | with_reducible apply SameBays.trans ?_ (abandonFor_sameBays _ _)
    | with_reducible apply SameBays.ite
    | with_reducible apply SameBays.iteFirst
    | (with_reducible apply SameBays.fold ?_ (fun _ _ => ?_); all_goals try dsimp only)
    | (with_reducible apply SameBays.foldPair ?_ (fun _ _ => ?_); all_goals try dsimp only)
    | with_reducible apply SameBays.orElse (fun _ _ => ?_)
    | (with_reducible apply SameBays.first ?ee; (case ee => assumption))
    | (with_reducible apply SameBays.choose ?ee; (case ee => assumption))
    | (intro _; try dsimp only)
    | split

theorem failReplicas_sameBays (s : State) (ci : Nat) : SameBays s (failReplicas s ci) := by
  unfold failReplicas
  try dsimp only
  repeat' first
    | with_reducible apply SameBays.refl
    | with_reducible apply SameBays.trans ?_ (abandonFor_sameBays _ _)
    | (with_reducible apply SameBays.calm ?_ (State.replicaM_steady _ _ _ _) ?sub; (case sub => decide))
    | (with_reducible apply SameBays.calm ?_ (releaseFrames_steady _ _ _) ?sub; (case sub => decide))
    | with_reducible apply SameBays.ite
    | with_reducible apply SameBays.iteFirst
    | (with_reducible apply SameBays.fold ?_ (fun _ _ => ?_); all_goals try dsimp only)
    | (with_reducible apply SameBays.foldPair ?_ (fun _ _ => ?_); all_goals try dsimp only)
    | with_reducible apply SameBays.orElse (fun _ _ => ?_)
    | (with_reducible apply SameBays.first ?ee; (case ee => assumption))
    | (with_reducible apply SameBays.choose ?ee; (case ee => assumption))
    | (intro _; try dsimp only)
    | split

theorem loseMaster_sameBays (s : State) (ci : Nat) : SameBays s (loseMaster s ci) := by
  unfold loseMaster
  try dsimp only
  repeat' first
    | with_reducible apply SameBays.refl
    | with_reducible apply SameBays.trans ?_ (failReplicas_sameBays _ _)
    | (with_reducible apply SameBays.calm ?_ (unmaster_steady _ _) ?sub; (case sub => decide))
    | (with_reducible apply SameBays.calm ?_ (State.charmM_steady _ _ _) ?sub; (case sub => decide))
    | (with_reducible apply SameBays.calm ?_ (State.replicaM_steady _ _ _ _) ?sub; (case sub => decide))
    | with_reducible apply SameBays.ite
    | with_reducible apply SameBays.iteFirst
    | (with_reducible apply SameBays.fold ?_ (fun _ _ => ?_); all_goals try dsimp only)
    | (with_reducible apply SameBays.foldPair ?_ (fun _ _ => ?_); all_goals try dsimp only)
    | with_reducible apply SameBays.orElse (fun _ _ => ?_)
    | (with_reducible apply SameBays.first ?ee; (case ee => assumption))
    | (with_reducible apply SameBays.choose ?ee; (case ee => assumption))
    | (intro _; try dsimp only)
    | split

theorem bayLost_sameBays (s : State) (n : Nat) : SameBays s (bayLost s n) := by
  unfold bayLost
  try dsimp only
  repeat' first
    | with_reducible apply SameBays.refl
    | with_reducible apply SameBays.trans ?_ (failReads_sameBays _ _)
    | with_reducible apply SameBays.trans ?_ (failWrites_sameBays _ _)
    | with_reducible apply SameBays.trans ?_ (loseMaster_sameBays _ _)
    | with_reducible apply SameBays.trans ?_ (cfcEvent_sameBays _ _ _)
    | with_reducible apply SameBays.trans ?_ (freeParked_sameBays _ _)
    | with_reducible apply SameBays.ite
    | with_reducible apply SameBays.iteFirst
    | (with_reducible apply SameBays.fold ?_ (fun _ _ => ?_); all_goals try dsimp only)
    | (with_reducible apply SameBays.foldPair ?_ (fun _ _ => ?_); all_goals try dsimp only)
    | with_reducible apply SameBays.orElse (fun _ _ => ?_)
    | (with_reducible apply SameBays.first ?ee; (case ee => assumption))
    | (with_reducible apply SameBays.choose ?ee; (case ee => assumption))
    | (intro _; try dsimp only)
    | split

end Sys2Proof.Machine
end

