-- ==== Sys2Proof/Laws/Watch.lean ====
section
/-!
SUPPORT. Sys2Proof/Laws/Watch.lean: what an EVENT frame, a change of POWER_STATE or STRAND_STATE and a fault record leave alone.
-/
namespace Sys2Proof.Machine

@[simp] theorem watch_pending (s : State) (i j : Nat) (v : List Byte) : (watch s i j v).pending = s.pending := by unfold watch; split <;> rfl
@[simp] theorem watch_now (s : State) (i j : Nat) (v : List Byte) : (watch s i j v).now = s.now := by unfold watch; split <;> rfl
@[simp] theorem watch_ory (s : State) (i j : Nat) (v : List Byte) : (watch s i j v).ory = s.ory := by unfold watch; split <;> rfl
@[simp] theorem watch_cells (s : State) (i j : Nat) (v : List Byte) : (watch s i j v).cells = s.cells := by unfold watch; split <;> rfl
@[simp] theorem watch_lpe (s : State) (i j : Nat) (v : List Byte) : (watch s i j v).lpe = s.lpe := by unfold watch; split <;> rfl
@[simp] theorem watch_parures (s : State) (i j : Nat) (v : List Byte) : (watch s i j v).parures = s.parures := by unfold watch; split <;> rfl
@[simp] theorem watch_ast (s : State) (i j : Nat) (v : List Byte) : (watch s i j v).ast = s.ast := by unfold watch; split <;> rfl
@[simp] theorem watch_smp (s : State) (i j : Nat) (v : List Byte) : (watch s i j v).smp = s.smp := by unfold watch; split <;> rfl
@[simp] theorem watch_fil (s : State) (i j : Nat) (v : List Byte) : (watch s i j v).fil = s.fil := by unfold watch; split <;> rfl
@[simp] theorem watch_stm (s : State) (i j : Nat) (v : List Byte) : (watch s i j v).stm = s.stm := by unfold watch; split <;> rfl
@[simp] theorem watch_lockets (s : State) (i j : Nat) (v : List Byte) : (watch s i j v).lockets = s.lockets := by unfold watch; split <;> rfl
@[simp] theorem watch_charms (s : State) (i j : Nat) (v : List Byte) : (watch s i j v).charms = s.charms := by unfold watch; split <;> rfl
@[simp] theorem watch_facets (s : State) (i j : Nat) (v : List Byte) : (watch s i j v).facets = s.facets := by unfold watch; split <;> rfl
@[simp] theorem watch_keys (s : State) (i j : Nat) (v : List Byte) : (watch s i j v).keys = s.keys := by unfold watch; split <;> rfl
@[simp] theorem watch_t1 (s : State) (i j : Nat) (v : List Byte) : (watch s i j v).t1 = s.t1 := by unfold watch; split <;> rfl
@[simp] theorem watch_extents (s : State) (i j : Nat) (v : List Byte) : (watch s i j v).extents = s.extents := by unfold watch; split <;> rfl
@[simp] theorem watch_hbc (s : State) (i j : Nat) (v : List Byte) : (watch s i j v).hbc = s.hbc := by unfold watch; split <;> rfl
@[simp] theorem watch_lpc (s : State) (i j : Nat) (v : List Byte) : (watch s i j v).lpc = s.lpc := by unfold watch; split <;> rfl
@[simp] theorem watch_cur (s : State) (i j : Nat) (v : List Byte) : (watch s i j v).cur = s.cur := by unfold watch; split <;> rfl
@[simp] theorem watch_bays (s : State) (i j : Nat) (v : List Byte) : (watch s i j v).bays = s.bays := by unfold watch; split <;> rfl
@[simp] theorem watch_eph (s : State) (i j : Nat) (v : List Byte) : (watch s i j v).eph = s.eph := by unfold watch; split <;> rfl
@[simp] theorem watch_traffic (s : State) (i j : Nat) (v : List Byte) : (watch s i j v).traffic = s.traffic := by unfold watch; split <;> rfl
@[simp] theorem watch_colls (s : State) (i j : Nat) (v : List Byte) : (watch s i j v).colls = s.colls := by unfold watch; split <;> rfl
@[simp] theorem watch_searches (s : State) (i j : Nat) (v : List Byte) : (watch s i j v).searches = s.searches := by unfold watch; split <;> rfl
@[simp] theorem watch_selects (s : State) (i j : Nat) (v : List Byte) : (watch s i j v).selects = s.selects := by unfold watch; split <;> rfl
@[simp] theorem watch_sieves (s : State) (i j : Nat) (v : List Byte) : (watch s i j v).sieves = s.sieves := by unfold watch; split <;> rfl
@[simp] theorem watch_integ (s : State) (i j : Nat) (v : List Byte) : (watch s i j v).integ = s.integ := by unfold watch; split <;> rfl
@[simp] theorem watch_ckpt (s : State) (i j : Nat) (v : List Byte) : (watch s i j v).ckpt = s.ckpt := by unfold watch; split <;> rfl
@[simp] theorem watch_hif (s : State) (i j : Nat) (v : List Byte) : (watch s i j v).hif = s.hif := by unfold watch; split <;> rfl
@[simp] theorem watch_std (s : State) (i j : Nat) (v : List Byte) : (watch s i j v).std = s.std := by unfold watch; split <;> rfl
@[simp] theorem watch_hostMem (s : State) (i j : Nat) (v : List Byte) : (watch s i j v).hostMem = s.hostMem := by unfold watch; split <;> rfl
@[simp] theorem watch_replies (s : State) (i j : Nat) (v : List Byte) : (watch s i j v).replies = s.replies := by unfold watch; split <;> rfl
@[simp] theorem watch_lan_alwaysOn (s : State) (i j : Nat) (v : List Byte) : (watch s i j v).lan.alwaysOn = s.lan.alwaysOn := by unfold watch; split <;> rfl
@[simp] theorem watch_lan_refclk (s : State) (i j : Nat) (v : List Byte) : (watch s i j v).lan.refclk = s.lan.refclk := by unfold watch; split <;> rfl
@[simp] theorem watch_lan_coreUp (s : State) (i j : Nat) (v : List Byte) : (watch s i j v).lan.coreUp = s.lan.coreUp := by unfold watch; split <;> rfl
@[simp] theorem watch_lan_pgAt (s : State) (i j : Nat) (v : List Byte) : (watch s i j v).lan.pgAt = s.lan.pgAt := by unfold watch; split <;> rfl
@[simp] theorem watch_lan_railEn (s : State) (i j : Nat) (v : List Byte) : (watch s i j v).lan.railEn = s.lan.railEn := by unfold watch; split <;> rfl
@[simp] theorem watch_lan_railsPg (s : State) (i j : Nat) (v : List Byte) : (watch s i j v).lan.railsPg = s.lan.railsPg := by unfold watch; split <;> rfl
@[simp] theorem watch_lan_perst (s : State) (i j : Nat) (v : List Byte) : (watch s i j v).lan.perst = s.lan.perst := by unfold watch; split <;> rfl
@[simp] theorem watch_lan_powerUpAt (s : State) (i j : Nat) (v : List Byte) : (watch s i j v).lan.powerUpAt = s.lan.powerUpAt := by unfold watch; split <;> rfl
@[simp] theorem watch_lan_power (s : State) (i j : Nat) (v : List Byte) : (watch s i j v).lan.power = s.lan.power := by unfold watch; split <;> rfl
@[simp] theorem watch_lan_lastReset (s : State) (i j : Nat) (v : List Byte) : (watch s i j v).lan.lastReset = s.lan.lastReset := by unfold watch; split <;> rfl
@[simp] theorem watch_lan_resetCount (s : State) (i j : Nat) (v : List Byte) : (watch s i j v).lan.resetCount = s.lan.resetCount := by unfold watch; split <;> rfl
@[simp] theorem watch_lan_resetDue (s : State) (i j : Nat) (v : List Byte) : (watch s i j v).lan.resetDue = s.lan.resetDue := by unfold watch; split <;> rfl
@[simp] theorem watch_lan_wdtPeriod (s : State) (i j : Nat) (v : List Byte) : (watch s i j v).lan.wdtPeriod = s.lan.wdtPeriod := by unfold watch; split <;> rfl
@[simp] theorem watch_lan_wdtAction (s : State) (i j : Nat) (v : List Byte) : (watch s i j v).lan.wdtAction = s.lan.wdtAction := by unfold watch; split <;> rfl
@[simp] theorem watch_lan_wdtExpiries (s : State) (i j : Nat) (v : List Byte) : (watch s i j v).lan.wdtExpiries = s.lan.wdtExpiries := by unfold watch; split <;> rfl
@[simp] theorem watch_lan_wdtKick (s : State) (i j : Nat) (v : List Byte) : (watch s i j v).lan.wdtKick = s.lan.wdtKick := by unfold watch; split <;> rfl
@[simp] theorem watch_lan_tempMax (s : State) (i j : Nat) (v : List Byte) : (watch s i j v).lan.tempMax = s.lan.tempMax := by unfold watch; split <;> rfl
@[simp] theorem watch_lan_tempSensor (s : State) (i j : Nat) (v : List Byte) : (watch s i j v).lan.tempSensor = s.lan.tempSensor := by unfold watch; split <;> rfl
@[simp] theorem watch_lan_sensors (s : State) (i j : Nat) (v : List Byte) : (watch s i j v).lan.sensors = s.lan.sensors := by unfold watch; split <;> rfl
@[simp] theorem watch_lan_tripRun (s : State) (i j : Nat) (v : List Byte) : (watch s i j v).lan.tripRun = s.lan.tripRun := by unfold watch; split <;> rfl
@[simp] theorem watch_lan_warnLimit (s : State) (i j : Nat) (v : List Byte) : (watch s i j v).lan.warnLimit = s.lan.warnLimit := by unfold watch; split <;> rfl
@[simp] theorem watch_lan_tripLimit (s : State) (i j : Nat) (v : List Byte) : (watch s i j v).lan.tripLimit = s.lan.tripLimit := by unfold watch; split <;> rfl
@[simp] theorem watch_lan_tripped (s : State) (i j : Nat) (v : List Byte) : (watch s i j v).lan.tripped = s.lan.tripped := by unfold watch; split <;> rfl
@[simp] theorem watch_lan_tripCount (s : State) (i j : Nat) (v : List Byte) : (watch s i j v).lan.tripCount = s.lan.tripCount := by unfold watch; split <;> rfl
@[simp] theorem watch_lan_warnCount (s : State) (i j : Nat) (v : List Byte) : (watch s i j v).lan.warnCount = s.lan.warnCount := by unfold watch; split <;> rfl
@[simp] theorem watch_lan_thermtrip (s : State) (i j : Nat) (v : List Byte) : (watch s i j v).lan.thermtrip = s.lan.thermtrip := by unfold watch; split <;> rfl
@[simp] theorem watch_lan_lastTemp (s : State) (i j : Nat) (v : List Byte) : (watch s i j v).lan.lastTemp = s.lan.lastTemp := by unfold watch; split <;> rfl
@[simp] theorem watch_lan_vcoreSet (s : State) (i j : Nat) (v : List Byte) : (watch s i j v).lan.vcoreSet = s.lan.vcoreSet := by unfold watch; split <;> rfl
@[simp] theorem watch_lan_vcoreSent (s : State) (i j : Nat) (v : List Byte) : (watch s i j v).lan.vcoreSent = s.lan.vcoreSent := by unfold watch; split <;> rfl
@[simp] theorem watch_lan_vcoreRead (s : State) (i j : Nat) (v : List Byte) : (watch s i j v).lan.vcoreRead = s.lan.vcoreRead := by unfold watch; split <;> rfl
@[simp] theorem watch_lan_ioutRead (s : State) (i j : Nat) (v : List Byte) : (watch s i j v).lan.ioutRead = s.lan.ioutRead := by unfold watch; split <;> rfl
@[simp] theorem watch_lan_lastAvs (s : State) (i j : Nat) (v : List Byte) : (watch s i j v).lan.lastAvs = s.lan.lastAvs := by unfold watch; split <;> rfl
@[simp] theorem watch_lan_lowSince (s : State) (i j : Nat) (v : List Byte) : (watch s i j v).lan.lowSince = s.lan.lowSince := by unfold watch; split <;> rfl
@[simp] theorem watch_lan_goodSince (s : State) (i j : Nat) (v : List Byte) : (watch s i j v).lan.goodSince = s.lan.goodSince := by unfold watch; split <;> rfl
@[simp] theorem watch_lan_stopped (s : State) (i j : Nat) (v : List Byte) : (watch s i j v).lan.stopped = s.lan.stopped := by unfold watch; split <;> rfl
@[simp] theorem watch_lan_freezes (s : State) (i j : Nat) (v : List Byte) : (watch s i j v).lan.freezes = s.lan.freezes := by unfold watch; split <;> rfl
@[simp] theorem watch_lan_stops (s : State) (i j : Nat) (v : List Byte) : (watch s i j v).lan.stops = s.lan.stops := by unfold watch; split <;> rfl
@[simp] theorem watch_lan_powerReq (s : State) (i j : Nat) (v : List Byte) : (watch s i j v).lan.powerReq = s.lan.powerReq := by unfold watch; split <;> rfl
@[simp] theorem watch_lan_idleSince (s : State) (i j : Nat) (v : List Byte) : (watch s i j v).lan.idleSince = s.lan.idleSince := by unfold watch; split <;> rfl
@[simp] theorem watch_lan_transition (s : State) (i j : Nat) (v : List Byte) : (watch s i j v).lan.transition = s.lan.transition := by unfold watch; split <;> rfl
@[simp] theorem watch_lan_dieRev (s : State) (i j : Nat) (v : List Byte) : (watch s i j v).lan.dieRev = s.lan.dieRev := by unfold watch; split <;> rfl
@[simp] theorem watch_lan_traySerial (s : State) (i j : Nat) (v : List Byte) : (watch s i j v).lan.traySerial = s.lan.traySerial := by unfold watch; split <;> rfl
@[simp] theorem watch_lan_traySlot (s : State) (i j : Nat) (v : List Byte) : (watch s i j v).lan.traySlot = s.lan.traySlot := by unfold watch; split <;> rfl
@[simp] theorem watch_lan_settingSvn (s : State) (i j : Nat) (v : List Byte) : (watch s i j v).lan.settingSvn = s.lan.settingSvn := by unfold watch; split <;> rfl
@[simp] theorem watch_lan_fusedSvn (s : State) (i j : Nat) (v : List Byte) : (watch s i j v).lan.fusedSvn = s.lan.fusedSvn := by unfold watch; split <;> rfl
@[simp] theorem watch_lan_fusedKeyHash (s : State) (i j : Nat) (v : List Byte) : (watch s i j v).lan.fusedKeyHash = s.lan.fusedKeyHash := by unfold watch; split <;> rfl
@[simp] theorem watch_lan_nodeId (s : State) (i j : Nat) (v : List Byte) : (watch s i j v).lan.nodeId = s.lan.nodeId := by unfold watch; split <;> rfl
@[simp] theorem watch_lan_nodeInForce (s : State) (i j : Nat) (v : List Byte) : (watch s i j v).lan.nodeInForce = s.lan.nodeInForce := by unfold watch; split <;> rfl
@[simp] theorem watch_lan_eventDest (s : State) (i j : Nat) (v : List Byte) : (watch s i j v).lan.eventDest = s.lan.eventDest := by unfold watch; split <;> rfl
@[simp] theorem watch_lan_sbFrames (s : State) (i j : Nat) (v : List Byte) : (watch s i j v).lan.sbFrames = s.lan.sbFrames := by unfold watch; split <;> rfl
@[simp] theorem watch_lan_sbErrors (s : State) (i j : Nat) (v : List Byte) : (watch s i j v).lan.sbErrors = s.lan.sbErrors := by unfold watch; split <;> rfl
@[simp] theorem watch_lan_sbCollisions (s : State) (i j : Nat) (v : List Byte) : (watch s i j v).lan.sbCollisions = s.lan.sbCollisions := by unfold watch; split <;> rfl
@[simp] theorem watch_lan_cxlEn (s : State) (i j : Nat) (v : List Byte) : (watch s i j v).lan.cxlEn = s.lan.cxlEn := by unfold watch; split <;> rfl
@[simp] theorem watch_lan_eventSeq (s : State) (i j : Nat) (v : List Byte) : (watch s i j v).lan.eventSeq = s.lan.eventSeq := by unfold watch; split <;> rfl
@[simp] theorem watch_lan_queue (s : State) (i j : Nat) (v : List Byte) : (watch s i j v).lan.queue = s.lan.queue := by unfold watch; split <;> rfl
@[simp] theorem watch_lan_nodeDue (s : State) (i j : Nat) (v : List Byte) : (watch s i j v).lan.nodeDue = s.lan.nodeDue := by unfold watch; split <;> rfl
@[simp] theorem watch_lan_snaps (s : State) (i j : Nat) (v : List Byte) : (watch s i j v).lan.snaps = s.lan.snaps := by unfold watch; split <;> rfl
@[simp] theorem watch_lan_tx (s : State) (i j : Nat) (v : List Byte) : (watch s i j v).lan.tx = s.lan.tx := by unfold watch; split <;> rfl
@[simp] theorem watch_lan_sent (s : State) (i j : Nat) (v : List Byte) : (watch s i j v).lan.sent = s.lan.sent := by unfold watch; split <;> rfl
@[simp] theorem watch_lan_mbox (s : State) (i j : Nat) (v : List Byte) : (watch s i j v).lan.mbox = s.lan.mbox := by unfold watch; split <;> rfl
@[simp] theorem watch_lan_mboxBusy (s : State) (i j : Nat) (v : List Byte) : (watch s i j v).lan.mboxBusy = s.lan.mboxBusy := by unfold watch; split <;> rfl
@[simp] theorem watch_lan_mboxDone (s : State) (i j : Nat) (v : List Byte) : (watch s i j v).lan.mboxDone = s.lan.mboxDone := by unfold watch; split <;> rfl
@[simp] theorem watch_lan_imageOffset (s : State) (i j : Nat) (v : List Byte) : (watch s i j v).lan.imageOffset = s.lan.imageOffset := by unfold watch; split <;> rfl
@[simp] theorem watch_lan_staging (s : State) (i j : Nat) (v : List Byte) : (watch s i j v).lan.staging = s.lan.staging := by unfold watch; split <;> rfl
@[simp] theorem watch_lan_phase (s : State) (i j : Nat) (v : List Byte) : (watch s i j v).lan.phase = s.lan.phase := by unfold watch; split <;> rfl
@[simp] theorem watch_lan_image (s : State) (i j : Nat) (v : List Byte) : (watch s i j v).lan.image = s.lan.image := by unfold watch; split <;> rfl
@[simp] theorem watch_lan_trust (s : State) (i j : Nat) (v : List Byte) : (watch s i j v).lan.trust = s.lan.trust := by unfold watch; split <;> rfl
@[simp] theorem watch_lan_bootNonce (s : State) (i j : Nat) (v : List Byte) : (watch s i j v).lan.bootNonce = s.lan.bootNonce := by unfold watch; split <;> rfl
@[simp] theorem watch_lan_lastNonce (s : State) (i j : Nat) (v : List Byte) : (watch s i j v).lan.lastNonce = s.lan.lastNonce := by unfold watch; split <;> rfl
@[simp] theorem watch_lan_extentCount (s : State) (i j : Nat) (v : List Byte) : (watch s i j v).lan.extentCount = s.lan.extentCount := by unfold watch; split <;> rfl
@[simp] theorem watch_lan_entropyUsed (s : State) (i j : Nat) (v : List Byte) : (watch s i j v).lan.entropyUsed = s.lan.entropyUsed := by unfold watch; split <;> rfl
@[simp] theorem watch_lan_crashLog (s : State) (i j : Nat) (v : List Byte) : (watch s i j v).lan.crashLog = s.lan.crashLog := by unfold watch; split <;> rfl
@[simp] theorem watch_lan_crashCount (s : State) (i j : Nat) (v : List Byte) : (watch s i j v).lan.crashCount = s.lan.crashCount := by unfold watch; split <;> rfl
@[simp] theorem watch_lan_retired (s : State) (i j : Nat) (v : List Byte) : (watch s i j v).lan.retired = s.lan.retired := by unfold watch; split <;> rfl
@[simp] theorem watch_lan_quarantine (s : State) (i j : Nat) (v : List Byte) : (watch s i j v).lan.quarantine = s.lan.quarantine := by unfold watch; split <;> rfl
@[simp] theorem watch_lan_remounted (s : State) (i j : Nat) (v : List Byte) : (watch s i j v).lan.remounted = s.lan.remounted := by unfold watch; split <;> rfl
@[simp] theorem watch_lan_committed (s : State) (i j : Nat) (v : List Byte) : (watch s i j v).lan.committed = s.lan.committed := by unfold watch; split <;> rfl
@[simp] theorem watch_lan_configError (s : State) (i j : Nat) (v : List Byte) : (watch s i j v).lan.configError = s.lan.configError := by unfold watch; split <;> rfl
@[simp] theorem watch_lan_staged (s : State) (i j : Nat) (v : List Byte) : (watch s i j v).lan.staged = s.lan.staged := by unfold watch; split <;> rfl
@[simp] theorem watch_lan_config (s : State) (i j : Nat) (v : List Byte) : (watch s i j v).lan.config = s.lan.config := by unfold watch; split <;> rfl
@[simp] theorem watch_lan_t2Units (s : State) (i j : Nat) (v : List Byte) : (watch s i j v).lan.t2Units = s.lan.t2Units := by unfold watch; split <;> rfl
@[simp] theorem watch_lan_boardT2 (s : State) (i j : Nat) (v : List Byte) : (watch s i j v).lan.boardT2 = s.lan.boardT2 := by unfold watch; split <;> rfl
@[simp] theorem watch_lan_pwrWarn (s : State) (i j : Nat) (v : List Byte) : (watch s i j v).lan.pwrWarn = s.lan.pwrWarn := by unfold watch; split <;> rfl

@[simp] theorem setPower_pending (s : State) (p : Power) : (setPower s p).pending = s.pending := by unfold setPower; split <;> simp
@[simp] theorem setPower_now (s : State) (p : Power) : (setPower s p).now = s.now := by unfold setPower; split <;> simp
@[simp] theorem setPower_ory (s : State) (p : Power) : (setPower s p).ory = s.ory := by unfold setPower; split <;> simp
@[simp] theorem setPower_cells (s : State) (p : Power) : (setPower s p).cells = s.cells := by unfold setPower; split <;> simp
@[simp] theorem setPower_lpe (s : State) (p : Power) : (setPower s p).lpe = s.lpe := by unfold setPower; split <;> simp
@[simp] theorem setPower_parures (s : State) (p : Power) : (setPower s p).parures = s.parures := by unfold setPower; split <;> simp
@[simp] theorem setPower_ast (s : State) (p : Power) : (setPower s p).ast = s.ast := by unfold setPower; split <;> simp
@[simp] theorem setPower_smp (s : State) (p : Power) : (setPower s p).smp = s.smp := by unfold setPower; split <;> simp
@[simp] theorem setPower_fil (s : State) (p : Power) : (setPower s p).fil = s.fil := by unfold setPower; split <;> simp
@[simp] theorem setPower_stm (s : State) (p : Power) : (setPower s p).stm = s.stm := by unfold setPower; split <;> simp
@[simp] theorem setPower_lockets (s : State) (p : Power) : (setPower s p).lockets = s.lockets := by unfold setPower; split <;> simp
@[simp] theorem setPower_charms (s : State) (p : Power) : (setPower s p).charms = s.charms := by unfold setPower; split <;> simp
@[simp] theorem setPower_facets (s : State) (p : Power) : (setPower s p).facets = s.facets := by unfold setPower; split <;> simp
@[simp] theorem setPower_keys (s : State) (p : Power) : (setPower s p).keys = s.keys := by unfold setPower; split <;> simp
@[simp] theorem setPower_t1 (s : State) (p : Power) : (setPower s p).t1 = s.t1 := by unfold setPower; split <;> simp
@[simp] theorem setPower_extents (s : State) (p : Power) : (setPower s p).extents = s.extents := by unfold setPower; split <;> simp
@[simp] theorem setPower_hbc (s : State) (p : Power) : (setPower s p).hbc = s.hbc := by unfold setPower; split <;> simp
@[simp] theorem setPower_lpc (s : State) (p : Power) : (setPower s p).lpc = s.lpc := by unfold setPower; split <;> simp
@[simp] theorem setPower_cur (s : State) (p : Power) : (setPower s p).cur = s.cur := by unfold setPower; split <;> simp
@[simp] theorem setPower_bays (s : State) (p : Power) : (setPower s p).bays = s.bays := by unfold setPower; split <;> simp
@[simp] theorem setPower_eph (s : State) (p : Power) : (setPower s p).eph = s.eph := by unfold setPower; split <;> simp
@[simp] theorem setPower_traffic (s : State) (p : Power) : (setPower s p).traffic = s.traffic := by unfold setPower; split <;> simp
@[simp] theorem setPower_colls (s : State) (p : Power) : (setPower s p).colls = s.colls := by unfold setPower; split <;> simp
@[simp] theorem setPower_searches (s : State) (p : Power) : (setPower s p).searches = s.searches := by unfold setPower; split <;> simp
@[simp] theorem setPower_selects (s : State) (p : Power) : (setPower s p).selects = s.selects := by unfold setPower; split <;> simp
@[simp] theorem setPower_sieves (s : State) (p : Power) : (setPower s p).sieves = s.sieves := by unfold setPower; split <;> simp
@[simp] theorem setPower_integ (s : State) (p : Power) : (setPower s p).integ = s.integ := by unfold setPower; split <;> simp
@[simp] theorem setPower_ckpt (s : State) (p : Power) : (setPower s p).ckpt = s.ckpt := by unfold setPower; split <;> simp
@[simp] theorem setPower_hif (s : State) (p : Power) : (setPower s p).hif = s.hif := by unfold setPower; split <;> simp
@[simp] theorem setPower_std (s : State) (p : Power) : (setPower s p).std = s.std := by unfold setPower; split <;> simp
@[simp] theorem setPower_hostMem (s : State) (p : Power) : (setPower s p).hostMem = s.hostMem := by unfold setPower; split <;> simp
@[simp] theorem setPower_replies (s : State) (p : Power) : (setPower s p).replies = s.replies := by unfold setPower; split <;> simp
@[simp] theorem setPower_lan_alwaysOn (s : State) (p : Power) : (setPower s p).lan.alwaysOn = s.lan.alwaysOn := by unfold setPower; split <;> simp
@[simp] theorem setPower_lan_refclk (s : State) (p : Power) : (setPower s p).lan.refclk = s.lan.refclk := by unfold setPower; split <;> simp
@[simp] theorem setPower_lan_coreUp (s : State) (p : Power) : (setPower s p).lan.coreUp = s.lan.coreUp := by unfold setPower; split <;> simp
@[simp] theorem setPower_lan_pgAt (s : State) (p : Power) : (setPower s p).lan.pgAt = s.lan.pgAt := by unfold setPower; split <;> simp
@[simp] theorem setPower_lan_railEn (s : State) (p : Power) : (setPower s p).lan.railEn = s.lan.railEn := by unfold setPower; split <;> simp
@[simp] theorem setPower_lan_railsPg (s : State) (p : Power) : (setPower s p).lan.railsPg = s.lan.railsPg := by unfold setPower; split <;> simp
@[simp] theorem setPower_lan_perst (s : State) (p : Power) : (setPower s p).lan.perst = s.lan.perst := by unfold setPower; split <;> simp
@[simp] theorem setPower_lan_powerUpAt (s : State) (p : Power) : (setPower s p).lan.powerUpAt = s.lan.powerUpAt := by unfold setPower; split <;> simp
@[simp] theorem setPower_lan_lastReset (s : State) (p : Power) : (setPower s p).lan.lastReset = s.lan.lastReset := by unfold setPower; split <;> simp
@[simp] theorem setPower_lan_resetCount (s : State) (p : Power) : (setPower s p).lan.resetCount = s.lan.resetCount := by unfold setPower; split <;> simp
@[simp] theorem setPower_lan_resetDue (s : State) (p : Power) : (setPower s p).lan.resetDue = s.lan.resetDue := by unfold setPower; split <;> simp
@[simp] theorem setPower_lan_wdtPeriod (s : State) (p : Power) : (setPower s p).lan.wdtPeriod = s.lan.wdtPeriod := by unfold setPower; split <;> simp
@[simp] theorem setPower_lan_wdtAction (s : State) (p : Power) : (setPower s p).lan.wdtAction = s.lan.wdtAction := by unfold setPower; split <;> simp
@[simp] theorem setPower_lan_wdtExpiries (s : State) (p : Power) : (setPower s p).lan.wdtExpiries = s.lan.wdtExpiries := by unfold setPower; split <;> simp
@[simp] theorem setPower_lan_wdtKick (s : State) (p : Power) : (setPower s p).lan.wdtKick = s.lan.wdtKick := by unfold setPower; split <;> simp
@[simp] theorem setPower_lan_tempMax (s : State) (p : Power) : (setPower s p).lan.tempMax = s.lan.tempMax := by unfold setPower; split <;> simp
@[simp] theorem setPower_lan_tempSensor (s : State) (p : Power) : (setPower s p).lan.tempSensor = s.lan.tempSensor := by unfold setPower; split <;> simp
@[simp] theorem setPower_lan_sensors (s : State) (p : Power) : (setPower s p).lan.sensors = s.lan.sensors := by unfold setPower; split <;> simp
@[simp] theorem setPower_lan_tripRun (s : State) (p : Power) : (setPower s p).lan.tripRun = s.lan.tripRun := by unfold setPower; split <;> simp
@[simp] theorem setPower_lan_warnLimit (s : State) (p : Power) : (setPower s p).lan.warnLimit = s.lan.warnLimit := by unfold setPower; split <;> simp
@[simp] theorem setPower_lan_tripLimit (s : State) (p : Power) : (setPower s p).lan.tripLimit = s.lan.tripLimit := by unfold setPower; split <;> simp
@[simp] theorem setPower_lan_tripped (s : State) (p : Power) : (setPower s p).lan.tripped = s.lan.tripped := by unfold setPower; split <;> simp
@[simp] theorem setPower_lan_tripCount (s : State) (p : Power) : (setPower s p).lan.tripCount = s.lan.tripCount := by unfold setPower; split <;> simp
@[simp] theorem setPower_lan_warnCount (s : State) (p : Power) : (setPower s p).lan.warnCount = s.lan.warnCount := by unfold setPower; split <;> simp
@[simp] theorem setPower_lan_thermtrip (s : State) (p : Power) : (setPower s p).lan.thermtrip = s.lan.thermtrip := by unfold setPower; split <;> simp
@[simp] theorem setPower_lan_lastTemp (s : State) (p : Power) : (setPower s p).lan.lastTemp = s.lan.lastTemp := by unfold setPower; split <;> simp
@[simp] theorem setPower_lan_vcoreSet (s : State) (p : Power) : (setPower s p).lan.vcoreSet = s.lan.vcoreSet := by unfold setPower; split <;> simp
@[simp] theorem setPower_lan_vcoreSent (s : State) (p : Power) : (setPower s p).lan.vcoreSent = s.lan.vcoreSent := by unfold setPower; split <;> simp
@[simp] theorem setPower_lan_vcoreRead (s : State) (p : Power) : (setPower s p).lan.vcoreRead = s.lan.vcoreRead := by unfold setPower; split <;> simp
@[simp] theorem setPower_lan_ioutRead (s : State) (p : Power) : (setPower s p).lan.ioutRead = s.lan.ioutRead := by unfold setPower; split <;> simp
@[simp] theorem setPower_lan_lastAvs (s : State) (p : Power) : (setPower s p).lan.lastAvs = s.lan.lastAvs := by unfold setPower; split <;> simp
@[simp] theorem setPower_lan_lowSince (s : State) (p : Power) : (setPower s p).lan.lowSince = s.lan.lowSince := by unfold setPower; split <;> simp
@[simp] theorem setPower_lan_goodSince (s : State) (p : Power) : (setPower s p).lan.goodSince = s.lan.goodSince := by unfold setPower; split <;> simp
@[simp] theorem setPower_lan_stopped (s : State) (p : Power) : (setPower s p).lan.stopped = s.lan.stopped := by unfold setPower; split <;> simp
@[simp] theorem setPower_lan_freezes (s : State) (p : Power) : (setPower s p).lan.freezes = s.lan.freezes := by unfold setPower; split <;> simp
@[simp] theorem setPower_lan_stops (s : State) (p : Power) : (setPower s p).lan.stops = s.lan.stops := by unfold setPower; split <;> simp
@[simp] theorem setPower_lan_powerReq (s : State) (p : Power) : (setPower s p).lan.powerReq = s.lan.powerReq := by unfold setPower; split <;> simp
@[simp] theorem setPower_lan_idleSince (s : State) (p : Power) : (setPower s p).lan.idleSince = s.lan.idleSince := by unfold setPower; split <;> simp
@[simp] theorem setPower_lan_transition (s : State) (p : Power) : (setPower s p).lan.transition = s.lan.transition := by unfold setPower; split <;> simp
@[simp] theorem setPower_lan_dieRev (s : State) (p : Power) : (setPower s p).lan.dieRev = s.lan.dieRev := by unfold setPower; split <;> simp
@[simp] theorem setPower_lan_traySerial (s : State) (p : Power) : (setPower s p).lan.traySerial = s.lan.traySerial := by unfold setPower; split <;> simp
@[simp] theorem setPower_lan_traySlot (s : State) (p : Power) : (setPower s p).lan.traySlot = s.lan.traySlot := by unfold setPower; split <;> simp
@[simp] theorem setPower_lan_settingSvn (s : State) (p : Power) : (setPower s p).lan.settingSvn = s.lan.settingSvn := by unfold setPower; split <;> simp
@[simp] theorem setPower_lan_fusedSvn (s : State) (p : Power) : (setPower s p).lan.fusedSvn = s.lan.fusedSvn := by unfold setPower; split <;> simp
@[simp] theorem setPower_lan_fusedKeyHash (s : State) (p : Power) : (setPower s p).lan.fusedKeyHash = s.lan.fusedKeyHash := by unfold setPower; split <;> simp
@[simp] theorem setPower_lan_nodeId (s : State) (p : Power) : (setPower s p).lan.nodeId = s.lan.nodeId := by unfold setPower; split <;> simp
@[simp] theorem setPower_lan_nodeInForce (s : State) (p : Power) : (setPower s p).lan.nodeInForce = s.lan.nodeInForce := by unfold setPower; split <;> simp
@[simp] theorem setPower_lan_eventDest (s : State) (p : Power) : (setPower s p).lan.eventDest = s.lan.eventDest := by unfold setPower; split <;> simp
@[simp] theorem setPower_lan_sbFrames (s : State) (p : Power) : (setPower s p).lan.sbFrames = s.lan.sbFrames := by unfold setPower; split <;> simp
@[simp] theorem setPower_lan_sbErrors (s : State) (p : Power) : (setPower s p).lan.sbErrors = s.lan.sbErrors := by unfold setPower; split <;> simp
@[simp] theorem setPower_lan_sbCollisions (s : State) (p : Power) : (setPower s p).lan.sbCollisions = s.lan.sbCollisions := by unfold setPower; split <;> simp
@[simp] theorem setPower_lan_cxlEn (s : State) (p : Power) : (setPower s p).lan.cxlEn = s.lan.cxlEn := by unfold setPower; split <;> simp
@[simp] theorem setPower_lan_eventSeq (s : State) (p : Power) : (setPower s p).lan.eventSeq = s.lan.eventSeq := by unfold setPower; split <;> simp
@[simp] theorem setPower_lan_queue (s : State) (p : Power) : (setPower s p).lan.queue = s.lan.queue := by unfold setPower; split <;> simp
@[simp] theorem setPower_lan_nodeDue (s : State) (p : Power) : (setPower s p).lan.nodeDue = s.lan.nodeDue := by unfold setPower; split <;> simp
@[simp] theorem setPower_lan_snaps (s : State) (p : Power) : (setPower s p).lan.snaps = s.lan.snaps := by unfold setPower; split <;> simp
@[simp] theorem setPower_lan_tx (s : State) (p : Power) : (setPower s p).lan.tx = s.lan.tx := by unfold setPower; split <;> simp
@[simp] theorem setPower_lan_sent (s : State) (p : Power) : (setPower s p).lan.sent = s.lan.sent := by unfold setPower; split <;> simp
@[simp] theorem setPower_lan_mbox (s : State) (p : Power) : (setPower s p).lan.mbox = s.lan.mbox := by unfold setPower; split <;> simp
@[simp] theorem setPower_lan_mboxBusy (s : State) (p : Power) : (setPower s p).lan.mboxBusy = s.lan.mboxBusy := by unfold setPower; split <;> simp
@[simp] theorem setPower_lan_mboxDone (s : State) (p : Power) : (setPower s p).lan.mboxDone = s.lan.mboxDone := by unfold setPower; split <;> simp
@[simp] theorem setPower_lan_imageOffset (s : State) (p : Power) : (setPower s p).lan.imageOffset = s.lan.imageOffset := by unfold setPower; split <;> simp
@[simp] theorem setPower_lan_staging (s : State) (p : Power) : (setPower s p).lan.staging = s.lan.staging := by unfold setPower; split <;> simp
@[simp] theorem setPower_lan_phase (s : State) (p : Power) : (setPower s p).lan.phase = s.lan.phase := by unfold setPower; split <;> simp
@[simp] theorem setPower_lan_image (s : State) (p : Power) : (setPower s p).lan.image = s.lan.image := by unfold setPower; split <;> simp
@[simp] theorem setPower_lan_trust (s : State) (p : Power) : (setPower s p).lan.trust = s.lan.trust := by unfold setPower; split <;> simp
@[simp] theorem setPower_lan_bootNonce (s : State) (p : Power) : (setPower s p).lan.bootNonce = s.lan.bootNonce := by unfold setPower; split <;> simp
@[simp] theorem setPower_lan_lastNonce (s : State) (p : Power) : (setPower s p).lan.lastNonce = s.lan.lastNonce := by unfold setPower; split <;> simp
@[simp] theorem setPower_lan_extentCount (s : State) (p : Power) : (setPower s p).lan.extentCount = s.lan.extentCount := by unfold setPower; split <;> simp
@[simp] theorem setPower_lan_entropyUsed (s : State) (p : Power) : (setPower s p).lan.entropyUsed = s.lan.entropyUsed := by unfold setPower; split <;> simp
@[simp] theorem setPower_lan_crashLog (s : State) (p : Power) : (setPower s p).lan.crashLog = s.lan.crashLog := by unfold setPower; split <;> simp
@[simp] theorem setPower_lan_crashCount (s : State) (p : Power) : (setPower s p).lan.crashCount = s.lan.crashCount := by unfold setPower; split <;> simp
@[simp] theorem setPower_lan_retired (s : State) (p : Power) : (setPower s p).lan.retired = s.lan.retired := by unfold setPower; split <;> simp
@[simp] theorem setPower_lan_quarantine (s : State) (p : Power) : (setPower s p).lan.quarantine = s.lan.quarantine := by unfold setPower; split <;> simp
@[simp] theorem setPower_lan_remounted (s : State) (p : Power) : (setPower s p).lan.remounted = s.lan.remounted := by unfold setPower; split <;> simp
@[simp] theorem setPower_lan_committed (s : State) (p : Power) : (setPower s p).lan.committed = s.lan.committed := by unfold setPower; split <;> simp
@[simp] theorem setPower_lan_configError (s : State) (p : Power) : (setPower s p).lan.configError = s.lan.configError := by unfold setPower; split <;> simp
@[simp] theorem setPower_lan_staged (s : State) (p : Power) : (setPower s p).lan.staged = s.lan.staged := by unfold setPower; split <;> simp
@[simp] theorem setPower_lan_config (s : State) (p : Power) : (setPower s p).lan.config = s.lan.config := by unfold setPower; split <;> simp
@[simp] theorem setPower_lan_t2Units (s : State) (p : Power) : (setPower s p).lan.t2Units = s.lan.t2Units := by unfold setPower; split <;> simp
@[simp] theorem setPower_lan_boardT2 (s : State) (p : Power) : (setPower s p).lan.boardT2 = s.lan.boardT2 := by unfold setPower; split <;> simp
@[simp] theorem setPower_lan_pwrWarn (s : State) (p : Power) : (setPower s p).lan.pwrWarn = s.lan.pwrWarn := by unfold setPower; split <;> simp
@[simp] theorem setPower_lan_power (s : State) (p : Power) : (setPower s p).lan.power = p := by unfold setPower; split <;> simp_all

@[simp] theorem setStd_pending (s : State) (m : StdMode) : (setStd s m).pending = s.pending := by unfold setStd; split <;> simp
@[simp] theorem setStd_now (s : State) (m : StdMode) : (setStd s m).now = s.now := by unfold setStd; split <;> simp
@[simp] theorem setStd_ory (s : State) (m : StdMode) : (setStd s m).ory = s.ory := by unfold setStd; split <;> simp
@[simp] theorem setStd_cells (s : State) (m : StdMode) : (setStd s m).cells = s.cells := by unfold setStd; split <;> simp
@[simp] theorem setStd_lpe (s : State) (m : StdMode) : (setStd s m).lpe = s.lpe := by unfold setStd; split <;> simp
@[simp] theorem setStd_parures (s : State) (m : StdMode) : (setStd s m).parures = s.parures := by unfold setStd; split <;> simp
@[simp] theorem setStd_ast (s : State) (m : StdMode) : (setStd s m).ast = s.ast := by unfold setStd; split <;> simp
@[simp] theorem setStd_smp (s : State) (m : StdMode) : (setStd s m).smp = s.smp := by unfold setStd; split <;> simp
@[simp] theorem setStd_fil (s : State) (m : StdMode) : (setStd s m).fil = s.fil := by unfold setStd; split <;> simp
@[simp] theorem setStd_stm (s : State) (m : StdMode) : (setStd s m).stm = s.stm := by unfold setStd; split <;> simp
@[simp] theorem setStd_lockets (s : State) (m : StdMode) : (setStd s m).lockets = s.lockets := by unfold setStd; split <;> simp
@[simp] theorem setStd_charms (s : State) (m : StdMode) : (setStd s m).charms = s.charms := by unfold setStd; split <;> simp
@[simp] theorem setStd_facets (s : State) (m : StdMode) : (setStd s m).facets = s.facets := by unfold setStd; split <;> simp
@[simp] theorem setStd_keys (s : State) (m : StdMode) : (setStd s m).keys = s.keys := by unfold setStd; split <;> simp
@[simp] theorem setStd_t1 (s : State) (m : StdMode) : (setStd s m).t1 = s.t1 := by unfold setStd; split <;> simp
@[simp] theorem setStd_extents (s : State) (m : StdMode) : (setStd s m).extents = s.extents := by unfold setStd; split <;> simp
@[simp] theorem setStd_hbc (s : State) (m : StdMode) : (setStd s m).hbc = s.hbc := by unfold setStd; split <;> simp
@[simp] theorem setStd_lpc (s : State) (m : StdMode) : (setStd s m).lpc = s.lpc := by unfold setStd; split <;> simp
@[simp] theorem setStd_cur (s : State) (m : StdMode) : (setStd s m).cur = s.cur := by unfold setStd; split <;> simp
@[simp] theorem setStd_bays (s : State) (m : StdMode) : (setStd s m).bays = s.bays := by unfold setStd; split <;> simp
@[simp] theorem setStd_eph (s : State) (m : StdMode) : (setStd s m).eph = s.eph := by unfold setStd; split <;> simp
@[simp] theorem setStd_traffic (s : State) (m : StdMode) : (setStd s m).traffic = s.traffic := by unfold setStd; split <;> simp
@[simp] theorem setStd_colls (s : State) (m : StdMode) : (setStd s m).colls = s.colls := by unfold setStd; split <;> simp
@[simp] theorem setStd_searches (s : State) (m : StdMode) : (setStd s m).searches = s.searches := by unfold setStd; split <;> simp
@[simp] theorem setStd_selects (s : State) (m : StdMode) : (setStd s m).selects = s.selects := by unfold setStd; split <;> simp
@[simp] theorem setStd_sieves (s : State) (m : StdMode) : (setStd s m).sieves = s.sieves := by unfold setStd; split <;> simp
@[simp] theorem setStd_integ (s : State) (m : StdMode) : (setStd s m).integ = s.integ := by unfold setStd; split <;> simp
@[simp] theorem setStd_ckpt (s : State) (m : StdMode) : (setStd s m).ckpt = s.ckpt := by unfold setStd; split <;> simp
@[simp] theorem setStd_hif (s : State) (m : StdMode) : (setStd s m).hif = s.hif := by unfold setStd; split <;> simp
@[simp] theorem setStd_hostMem (s : State) (m : StdMode) : (setStd s m).hostMem = s.hostMem := by unfold setStd; split <;> simp
@[simp] theorem setStd_replies (s : State) (m : StdMode) : (setStd s m).replies = s.replies := by unfold setStd; split <;> simp
@[simp] theorem setStd_lan_alwaysOn (s : State) (m : StdMode) : (setStd s m).lan.alwaysOn = s.lan.alwaysOn := by unfold setStd; split <;> simp
@[simp] theorem setStd_lan_refclk (s : State) (m : StdMode) : (setStd s m).lan.refclk = s.lan.refclk := by unfold setStd; split <;> simp
@[simp] theorem setStd_lan_coreUp (s : State) (m : StdMode) : (setStd s m).lan.coreUp = s.lan.coreUp := by unfold setStd; split <;> simp
@[simp] theorem setStd_lan_pgAt (s : State) (m : StdMode) : (setStd s m).lan.pgAt = s.lan.pgAt := by unfold setStd; split <;> simp
@[simp] theorem setStd_lan_railEn (s : State) (m : StdMode) : (setStd s m).lan.railEn = s.lan.railEn := by unfold setStd; split <;> simp
@[simp] theorem setStd_lan_railsPg (s : State) (m : StdMode) : (setStd s m).lan.railsPg = s.lan.railsPg := by unfold setStd; split <;> simp
@[simp] theorem setStd_lan_perst (s : State) (m : StdMode) : (setStd s m).lan.perst = s.lan.perst := by unfold setStd; split <;> simp
@[simp] theorem setStd_lan_powerUpAt (s : State) (m : StdMode) : (setStd s m).lan.powerUpAt = s.lan.powerUpAt := by unfold setStd; split <;> simp
@[simp] theorem setStd_lan_power (s : State) (m : StdMode) : (setStd s m).lan.power = s.lan.power := by unfold setStd; split <;> simp
@[simp] theorem setStd_lan_lastReset (s : State) (m : StdMode) : (setStd s m).lan.lastReset = s.lan.lastReset := by unfold setStd; split <;> simp
@[simp] theorem setStd_lan_resetCount (s : State) (m : StdMode) : (setStd s m).lan.resetCount = s.lan.resetCount := by unfold setStd; split <;> simp
@[simp] theorem setStd_lan_resetDue (s : State) (m : StdMode) : (setStd s m).lan.resetDue = s.lan.resetDue := by unfold setStd; split <;> simp
@[simp] theorem setStd_lan_wdtPeriod (s : State) (m : StdMode) : (setStd s m).lan.wdtPeriod = s.lan.wdtPeriod := by unfold setStd; split <;> simp
@[simp] theorem setStd_lan_wdtAction (s : State) (m : StdMode) : (setStd s m).lan.wdtAction = s.lan.wdtAction := by unfold setStd; split <;> simp
@[simp] theorem setStd_lan_wdtExpiries (s : State) (m : StdMode) : (setStd s m).lan.wdtExpiries = s.lan.wdtExpiries := by unfold setStd; split <;> simp
@[simp] theorem setStd_lan_wdtKick (s : State) (m : StdMode) : (setStd s m).lan.wdtKick = s.lan.wdtKick := by unfold setStd; split <;> simp
@[simp] theorem setStd_lan_tempMax (s : State) (m : StdMode) : (setStd s m).lan.tempMax = s.lan.tempMax := by unfold setStd; split <;> simp
@[simp] theorem setStd_lan_tempSensor (s : State) (m : StdMode) : (setStd s m).lan.tempSensor = s.lan.tempSensor := by unfold setStd; split <;> simp
@[simp] theorem setStd_lan_sensors (s : State) (m : StdMode) : (setStd s m).lan.sensors = s.lan.sensors := by unfold setStd; split <;> simp
@[simp] theorem setStd_lan_tripRun (s : State) (m : StdMode) : (setStd s m).lan.tripRun = s.lan.tripRun := by unfold setStd; split <;> simp
@[simp] theorem setStd_lan_warnLimit (s : State) (m : StdMode) : (setStd s m).lan.warnLimit = s.lan.warnLimit := by unfold setStd; split <;> simp
@[simp] theorem setStd_lan_tripLimit (s : State) (m : StdMode) : (setStd s m).lan.tripLimit = s.lan.tripLimit := by unfold setStd; split <;> simp
@[simp] theorem setStd_lan_tripped (s : State) (m : StdMode) : (setStd s m).lan.tripped = s.lan.tripped := by unfold setStd; split <;> simp
@[simp] theorem setStd_lan_tripCount (s : State) (m : StdMode) : (setStd s m).lan.tripCount = s.lan.tripCount := by unfold setStd; split <;> simp
@[simp] theorem setStd_lan_warnCount (s : State) (m : StdMode) : (setStd s m).lan.warnCount = s.lan.warnCount := by unfold setStd; split <;> simp
@[simp] theorem setStd_lan_thermtrip (s : State) (m : StdMode) : (setStd s m).lan.thermtrip = s.lan.thermtrip := by unfold setStd; split <;> simp
@[simp] theorem setStd_lan_lastTemp (s : State) (m : StdMode) : (setStd s m).lan.lastTemp = s.lan.lastTemp := by unfold setStd; split <;> simp
@[simp] theorem setStd_lan_vcoreSet (s : State) (m : StdMode) : (setStd s m).lan.vcoreSet = s.lan.vcoreSet := by unfold setStd; split <;> simp
@[simp] theorem setStd_lan_vcoreSent (s : State) (m : StdMode) : (setStd s m).lan.vcoreSent = s.lan.vcoreSent := by unfold setStd; split <;> simp
@[simp] theorem setStd_lan_vcoreRead (s : State) (m : StdMode) : (setStd s m).lan.vcoreRead = s.lan.vcoreRead := by unfold setStd; split <;> simp
@[simp] theorem setStd_lan_ioutRead (s : State) (m : StdMode) : (setStd s m).lan.ioutRead = s.lan.ioutRead := by unfold setStd; split <;> simp
@[simp] theorem setStd_lan_lastAvs (s : State) (m : StdMode) : (setStd s m).lan.lastAvs = s.lan.lastAvs := by unfold setStd; split <;> simp
@[simp] theorem setStd_lan_lowSince (s : State) (m : StdMode) : (setStd s m).lan.lowSince = s.lan.lowSince := by unfold setStd; split <;> simp
@[simp] theorem setStd_lan_goodSince (s : State) (m : StdMode) : (setStd s m).lan.goodSince = s.lan.goodSince := by unfold setStd; split <;> simp
@[simp] theorem setStd_lan_stopped (s : State) (m : StdMode) : (setStd s m).lan.stopped = s.lan.stopped := by unfold setStd; split <;> simp
@[simp] theorem setStd_lan_freezes (s : State) (m : StdMode) : (setStd s m).lan.freezes = s.lan.freezes := by unfold setStd; split <;> simp
@[simp] theorem setStd_lan_stops (s : State) (m : StdMode) : (setStd s m).lan.stops = s.lan.stops := by unfold setStd; split <;> simp
@[simp] theorem setStd_lan_powerReq (s : State) (m : StdMode) : (setStd s m).lan.powerReq = s.lan.powerReq := by unfold setStd; split <;> simp
@[simp] theorem setStd_lan_idleSince (s : State) (m : StdMode) : (setStd s m).lan.idleSince = s.lan.idleSince := by unfold setStd; split <;> simp
@[simp] theorem setStd_lan_transition (s : State) (m : StdMode) : (setStd s m).lan.transition = s.lan.transition := by unfold setStd; split <;> simp
@[simp] theorem setStd_lan_dieRev (s : State) (m : StdMode) : (setStd s m).lan.dieRev = s.lan.dieRev := by unfold setStd; split <;> simp
@[simp] theorem setStd_lan_traySerial (s : State) (m : StdMode) : (setStd s m).lan.traySerial = s.lan.traySerial := by unfold setStd; split <;> simp
@[simp] theorem setStd_lan_traySlot (s : State) (m : StdMode) : (setStd s m).lan.traySlot = s.lan.traySlot := by unfold setStd; split <;> simp
@[simp] theorem setStd_lan_settingSvn (s : State) (m : StdMode) : (setStd s m).lan.settingSvn = s.lan.settingSvn := by unfold setStd; split <;> simp
@[simp] theorem setStd_lan_fusedSvn (s : State) (m : StdMode) : (setStd s m).lan.fusedSvn = s.lan.fusedSvn := by unfold setStd; split <;> simp
@[simp] theorem setStd_lan_fusedKeyHash (s : State) (m : StdMode) : (setStd s m).lan.fusedKeyHash = s.lan.fusedKeyHash := by unfold setStd; split <;> simp
@[simp] theorem setStd_lan_nodeId (s : State) (m : StdMode) : (setStd s m).lan.nodeId = s.lan.nodeId := by unfold setStd; split <;> simp
@[simp] theorem setStd_lan_nodeInForce (s : State) (m : StdMode) : (setStd s m).lan.nodeInForce = s.lan.nodeInForce := by unfold setStd; split <;> simp
@[simp] theorem setStd_lan_eventDest (s : State) (m : StdMode) : (setStd s m).lan.eventDest = s.lan.eventDest := by unfold setStd; split <;> simp
@[simp] theorem setStd_lan_sbFrames (s : State) (m : StdMode) : (setStd s m).lan.sbFrames = s.lan.sbFrames := by unfold setStd; split <;> simp
@[simp] theorem setStd_lan_sbErrors (s : State) (m : StdMode) : (setStd s m).lan.sbErrors = s.lan.sbErrors := by unfold setStd; split <;> simp
@[simp] theorem setStd_lan_sbCollisions (s : State) (m : StdMode) : (setStd s m).lan.sbCollisions = s.lan.sbCollisions := by unfold setStd; split <;> simp
@[simp] theorem setStd_lan_cxlEn (s : State) (m : StdMode) : (setStd s m).lan.cxlEn = s.lan.cxlEn := by unfold setStd; split <;> simp
@[simp] theorem setStd_lan_eventSeq (s : State) (m : StdMode) : (setStd s m).lan.eventSeq = s.lan.eventSeq := by unfold setStd; split <;> simp
@[simp] theorem setStd_lan_queue (s : State) (m : StdMode) : (setStd s m).lan.queue = s.lan.queue := by unfold setStd; split <;> simp
@[simp] theorem setStd_lan_nodeDue (s : State) (m : StdMode) : (setStd s m).lan.nodeDue = s.lan.nodeDue := by unfold setStd; split <;> simp
@[simp] theorem setStd_lan_snaps (s : State) (m : StdMode) : (setStd s m).lan.snaps = s.lan.snaps := by unfold setStd; split <;> simp
@[simp] theorem setStd_lan_tx (s : State) (m : StdMode) : (setStd s m).lan.tx = s.lan.tx := by unfold setStd; split <;> simp
@[simp] theorem setStd_lan_sent (s : State) (m : StdMode) : (setStd s m).lan.sent = s.lan.sent := by unfold setStd; split <;> simp
@[simp] theorem setStd_lan_mbox (s : State) (m : StdMode) : (setStd s m).lan.mbox = s.lan.mbox := by unfold setStd; split <;> simp
@[simp] theorem setStd_lan_mboxBusy (s : State) (m : StdMode) : (setStd s m).lan.mboxBusy = s.lan.mboxBusy := by unfold setStd; split <;> simp
@[simp] theorem setStd_lan_mboxDone (s : State) (m : StdMode) : (setStd s m).lan.mboxDone = s.lan.mboxDone := by unfold setStd; split <;> simp
@[simp] theorem setStd_lan_imageOffset (s : State) (m : StdMode) : (setStd s m).lan.imageOffset = s.lan.imageOffset := by unfold setStd; split <;> simp
@[simp] theorem setStd_lan_staging (s : State) (m : StdMode) : (setStd s m).lan.staging = s.lan.staging := by unfold setStd; split <;> simp
@[simp] theorem setStd_lan_phase (s : State) (m : StdMode) : (setStd s m).lan.phase = s.lan.phase := by unfold setStd; split <;> simp
@[simp] theorem setStd_lan_image (s : State) (m : StdMode) : (setStd s m).lan.image = s.lan.image := by unfold setStd; split <;> simp
@[simp] theorem setStd_lan_trust (s : State) (m : StdMode) : (setStd s m).lan.trust = s.lan.trust := by unfold setStd; split <;> simp
@[simp] theorem setStd_lan_bootNonce (s : State) (m : StdMode) : (setStd s m).lan.bootNonce = s.lan.bootNonce := by unfold setStd; split <;> simp
@[simp] theorem setStd_lan_lastNonce (s : State) (m : StdMode) : (setStd s m).lan.lastNonce = s.lan.lastNonce := by unfold setStd; split <;> simp
@[simp] theorem setStd_lan_extentCount (s : State) (m : StdMode) : (setStd s m).lan.extentCount = s.lan.extentCount := by unfold setStd; split <;> simp
@[simp] theorem setStd_lan_entropyUsed (s : State) (m : StdMode) : (setStd s m).lan.entropyUsed = s.lan.entropyUsed := by unfold setStd; split <;> simp
@[simp] theorem setStd_lan_crashLog (s : State) (m : StdMode) : (setStd s m).lan.crashLog = s.lan.crashLog := by unfold setStd; split <;> simp
@[simp] theorem setStd_lan_crashCount (s : State) (m : StdMode) : (setStd s m).lan.crashCount = s.lan.crashCount := by unfold setStd; split <;> simp
@[simp] theorem setStd_lan_retired (s : State) (m : StdMode) : (setStd s m).lan.retired = s.lan.retired := by unfold setStd; split <;> simp
@[simp] theorem setStd_lan_quarantine (s : State) (m : StdMode) : (setStd s m).lan.quarantine = s.lan.quarantine := by unfold setStd; split <;> simp
@[simp] theorem setStd_lan_remounted (s : State) (m : StdMode) : (setStd s m).lan.remounted = s.lan.remounted := by unfold setStd; split <;> simp
@[simp] theorem setStd_lan_committed (s : State) (m : StdMode) : (setStd s m).lan.committed = s.lan.committed := by unfold setStd; split <;> simp
@[simp] theorem setStd_lan_configError (s : State) (m : StdMode) : (setStd s m).lan.configError = s.lan.configError := by unfold setStd; split <;> simp
@[simp] theorem setStd_lan_staged (s : State) (m : StdMode) : (setStd s m).lan.staged = s.lan.staged := by unfold setStd; split <;> simp
@[simp] theorem setStd_lan_config (s : State) (m : StdMode) : (setStd s m).lan.config = s.lan.config := by unfold setStd; split <;> simp
@[simp] theorem setStd_lan_t2Units (s : State) (m : StdMode) : (setStd s m).lan.t2Units = s.lan.t2Units := by unfold setStd; split <;> simp
@[simp] theorem setStd_lan_boardT2 (s : State) (m : StdMode) : (setStd s m).lan.boardT2 = s.lan.boardT2 := by unfold setStd; split <;> simp
@[simp] theorem setStd_lan_pwrWarn (s : State) (m : StdMode) : (setStd s m).lan.pwrWarn = s.lan.pwrWarn := by unfold setStd; split <;> simp
@[simp] theorem setStd_std_routeEn (s : State) (m : StdMode) : (setStd s m).std.routeEn = s.std.routeEn := by unfold setStd; split <;> simp
@[simp] theorem setStd_std_tail (s : State) (m : StdMode) : (setStd s m).std.tail = s.std.tail := by unfold setStd; split <;> simp
@[simp] theorem setStd_std_event (s : State) (m : StdMode) : (setStd s m).std.event = s.std.event := by unfold setStd; split <;> simp
@[simp] theorem setStd_std_count (s : State) (m : StdMode) : (setStd s m).std.count = s.std.count := by unfold setStd; split <;> simp
@[simp] theorem setStd_std_position (s : State) (m : StdMode) : (setStd s m).std.position = s.std.position := by unfold setStd; split <;> simp
@[simp] theorem setStd_std_enumLow (s : State) (m : StdMode) : (setStd s m).std.enumLow = s.std.enumLow := by unfold setStd; split <;> simp
@[simp] theorem setStd_std_lastWord (s : State) (m : StdMode) : (setStd s m).std.lastWord = s.std.lastWord := by unfold setStd; split <;> simp
@[simp] theorem setStd_std_adoptedAt (s : State) (m : StdMode) : (setStd s m).std.adoptedAt = s.std.adoptedAt := by unfold setStd; split <;> simp
@[simp] theorem setStd_std_lastEnum (s : State) (m : StdMode) : (setStd s m).std.lastEnum = s.std.lastEnum := by unfold setStd; split <;> simp
@[simp] theorem setStd_std_enumOut (s : State) (m : StdMode) : (setStd s m).std.enumOut = s.std.enumOut := by unfold setStd; split <;> simp
@[simp] theorem setStd_std_countSent (s : State) (m : StdMode) : (setStd s m).std.countSent = s.std.countSent := by unfold setStd; split <;> simp
@[simp] theorem setStd_std_epoch (s : State) (m : StdMode) : (setStd s m).std.epoch = s.std.epoch := by unfold setStd; split <;> simp
@[simp] theorem setStd_std_prepared (s : State) (m : StdMode) : (setStd s m).std.prepared = s.std.prepared := by unfold setStd; split <;> simp
@[simp] theorem setStd_std_members (s : State) (m : StdMode) : (setStd s m).std.members = s.std.members := by unfold setStd; split <;> simp
@[simp] theorem setStd_std_membersLatch (s : State) (m : StdMode) : (setStd s m).std.membersLatch = s.std.membersLatch := by unfold setStd; split <;> simp
@[simp] theorem setStd_std_buddy (s : State) (m : StdMode) : (setStd s m).std.buddy = s.std.buddy := by unfold setStd; split <;> simp
@[simp] theorem setStd_std_deviceId (s : State) (m : StdMode) : (setStd s m).std.deviceId = s.std.deviceId := by unfold setStd; split <;> simp
@[simp] theorem setStd_std_devidLatch (s : State) (m : StdMode) : (setStd s m).std.devidLatch = s.std.devidLatch := by unfold setStd; split <;> simp
@[simp] theorem setStd_std_hostMode (s : State) (m : StdMode) : (setStd s m).std.hostMode = s.std.hostMode := by unfold setStd; split <;> simp
@[simp] theorem setStd_std_modeInForce (s : State) (m : StdMode) : (setStd s m).std.modeInForce = s.std.modeInForce := by unfold setStd; split <;> simp
@[simp] theorem setStd_std_offset (s : State) (m : StdMode) : (setStd s m).std.offset = s.std.offset := by unfold setStd; split <;> simp
@[simp] theorem setStd_std_offsetLatch (s : State) (m : StdMode) : (setStd s m).std.offsetLatch = s.std.offsetLatch := by unfold setStd; split <;> simp
@[simp] theorem setStd_std_lastBeacon (s : State) (m : StdMode) : (setStd s m).std.lastBeacon = s.std.lastBeacon := by unfold setStd; split <;> simp
@[simp] theorem setStd_std_seenSeq (s : State) (m : StdMode) : (setStd s m).std.seenSeq = s.std.seenSeq := by unfold setStd; split <;> simp
@[simp] theorem setStd_std_nextSeq (s : State) (m : StdMode) : (setStd s m).std.nextSeq = s.std.nextSeq := by unfold setStd; split <;> simp
@[simp] theorem setStd_std_lastSent (s : State) (m : StdMode) : (setStd s m).std.lastSent = s.std.lastSent := by unfold setStd; split <;> simp
@[simp] theorem setStd_std_beaconFrame (s : State) (m : StdMode) : (setStd s m).std.beaconFrame = s.std.beaconFrame := by unfold setStd; split <;> simp
@[simp] theorem setStd_std_beaconMeridian (s : State) (m : StdMode) : (setStd s m).std.beaconMeridian = s.std.beaconMeridian := by unfold setStd; split <;> simp
@[simp] theorem setStd_std_frameAt (s : State) (m : StdMode) : (setStd s m).std.frameAt = s.std.frameAt := by unfold setStd; split <;> simp
@[simp] theorem setStd_std_timeFrom (s : State) (m : StdMode) : (setStd s m).std.timeFrom = s.std.timeFrom := by unfold setStd; split <;> simp
@[simp] theorem setStd_std_unroutable (s : State) (m : StdMode) : (setStd s m).std.unroutable = s.std.unroutable := by unfold setStd; split <;> simp
@[simp] theorem setStd_std_staleSent (s : State) (m : StdMode) : (setStd s m).std.staleSent = s.std.staleSent := by unfold setStd; split <;> simp
@[simp] theorem setStd_std_staleAt (s : State) (m : StdMode) : (setStd s m).std.staleAt = s.std.staleAt := by unfold setStd; split <;> simp
@[simp] theorem setStd_std_result (s : State) (m : StdMode) : (setStd s m).std.result = s.std.result := by unfold setStd; split <;> simp
@[simp] theorem setStd_std_missing (s : State) (m : StdMode) : (setStd s m).std.missing = s.std.missing := by unfold setStd; split <;> simp
@[simp] theorem setStd_std_change (s : State) (m : StdMode) : (setStd s m).std.change = s.std.change := by unfold setStd; split <;> simp
@[simp] theorem setStd_std_passedOn (s : State) (m : StdMode) : (setStd s m).std.passedOn = s.std.passedOn := by unfold setStd; split <;> simp
@[simp] theorem setStd_std_buddyOverride (s : State) (m : StdMode) : (setStd s m).std.buddyOverride = s.std.buddyOverride := by unfold setStd; split <;> simp
@[simp] theorem setStd_std_timePort (s : State) (m : StdMode) : (setStd s m).std.timePort = s.std.timePort := by unfold setStd; split <;> simp
@[simp] theorem setStd_std_chainOnly (s : State) (m : StdMode) : (setStd s m).std.chainOnly = s.std.chainOnly := by unfold setStd; split <;> simp
@[simp] theorem setStd_std_route (s : State) (m : StdMode) : (setStd s m).std.route = s.std.route := by unfold setStd; split <;> simp
@[simp] theorem setStd_std_routeActive (s : State) (m : StdMode) : (setStd s m).std.routeActive = s.std.routeActive := by unfold setStd; split <;> simp
@[simp] theorem setStd_std_ports (s : State) (m : StdMode) : (setStd s m).std.ports = s.std.ports := by unfold setStd; split <;> simp
@[simp] theorem setStd_std_inbox (s : State) (m : StdMode) : (setStd s m).std.inbox = s.std.inbox := by unfold setStd; split <;> simp
@[simp] theorem setStd_std_inXfers (s : State) (m : StdMode) : (setStd s m).std.inXfers = s.std.inXfers := by unfold setStd; split <;> simp
@[simp] theorem setStd_std_outXfers (s : State) (m : StdMode) : (setStd s m).std.outXfers = s.std.outXfers := by unfold setStd; split <;> simp
@[simp] theorem setStd_std_nextXfer (s : State) (m : StdMode) : (setStd s m).std.nextXfer = s.std.nextXfer := by unfold setStd; split <;> simp
@[simp] theorem setStd_std_fwdReads (s : State) (m : StdMode) : (setStd s m).std.fwdReads = s.std.fwdReads := by unfold setStd; split <;> simp
@[simp] theorem setStd_std_nextTag (s : State) (m : StdMode) : (setStd s m).std.nextTag = s.std.nextTag := by unfold setStd; split <;> simp
@[simp] theorem setStd_std_early (s : State) (m : StdMode) : (setStd s m).std.early = s.std.early := by unfold setStd; split <;> simp
@[simp] theorem setStd_std_mode (s : State) (p : StdMode) : (setStd s p).std.mode = p := by unfold setStd; split <;> simp_all

@[simp] theorem crashRecord_pending (s : State) (r : FaultRec) : (crashRecord s r).pending = s.pending := by simp [crashRecord]
@[simp] theorem crashRecord_now (s : State) (r : FaultRec) : (crashRecord s r).now = s.now := by simp [crashRecord]
@[simp] theorem crashRecord_ory (s : State) (r : FaultRec) : (crashRecord s r).ory = s.ory := by simp [crashRecord]
@[simp] theorem crashRecord_cells (s : State) (r : FaultRec) : (crashRecord s r).cells = s.cells := by simp [crashRecord]
@[simp] theorem crashRecord_lpe (s : State) (r : FaultRec) : (crashRecord s r).lpe = s.lpe := by simp [crashRecord]
@[simp] theorem crashRecord_parures (s : State) (r : FaultRec) : (crashRecord s r).parures = s.parures := by simp [crashRecord]
@[simp] theorem crashRecord_ast (s : State) (r : FaultRec) : (crashRecord s r).ast = s.ast := by simp [crashRecord]
@[simp] theorem crashRecord_smp (s : State) (r : FaultRec) : (crashRecord s r).smp = s.smp := by simp [crashRecord]
@[simp] theorem crashRecord_fil (s : State) (r : FaultRec) : (crashRecord s r).fil = s.fil := by simp [crashRecord]
@[simp] theorem crashRecord_stm (s : State) (r : FaultRec) : (crashRecord s r).stm = s.stm := by simp [crashRecord]
@[simp] theorem crashRecord_lockets (s : State) (r : FaultRec) : (crashRecord s r).lockets = s.lockets := by simp [crashRecord]
@[simp] theorem crashRecord_charms (s : State) (r : FaultRec) : (crashRecord s r).charms = s.charms := by simp [crashRecord]
@[simp] theorem crashRecord_facets (s : State) (r : FaultRec) : (crashRecord s r).facets = s.facets := by simp [crashRecord]
@[simp] theorem crashRecord_keys (s : State) (r : FaultRec) : (crashRecord s r).keys = s.keys := by simp [crashRecord]
@[simp] theorem crashRecord_t1 (s : State) (r : FaultRec) : (crashRecord s r).t1 = s.t1 := by simp [crashRecord]
@[simp] theorem crashRecord_extents (s : State) (r : FaultRec) : (crashRecord s r).extents = s.extents := by simp [crashRecord]
@[simp] theorem crashRecord_hbc (s : State) (r : FaultRec) : (crashRecord s r).hbc = s.hbc := by simp [crashRecord]
@[simp] theorem crashRecord_lpc (s : State) (r : FaultRec) : (crashRecord s r).lpc = s.lpc := by simp [crashRecord]
@[simp] theorem crashRecord_cur (s : State) (r : FaultRec) : (crashRecord s r).cur = s.cur := by simp [crashRecord]
@[simp] theorem crashRecord_bays (s : State) (r : FaultRec) : (crashRecord s r).bays = s.bays := by simp [crashRecord]
@[simp] theorem crashRecord_eph (s : State) (r : FaultRec) : (crashRecord s r).eph = s.eph := by simp [crashRecord]
@[simp] theorem crashRecord_traffic (s : State) (r : FaultRec) : (crashRecord s r).traffic = s.traffic := by simp [crashRecord]
@[simp] theorem crashRecord_colls (s : State) (r : FaultRec) : (crashRecord s r).colls = s.colls := by simp [crashRecord]
@[simp] theorem crashRecord_searches (s : State) (r : FaultRec) : (crashRecord s r).searches = s.searches := by simp [crashRecord]
@[simp] theorem crashRecord_selects (s : State) (r : FaultRec) : (crashRecord s r).selects = s.selects := by simp [crashRecord]
@[simp] theorem crashRecord_sieves (s : State) (r : FaultRec) : (crashRecord s r).sieves = s.sieves := by simp [crashRecord]
@[simp] theorem crashRecord_integ (s : State) (r : FaultRec) : (crashRecord s r).integ = s.integ := by simp [crashRecord]
@[simp] theorem crashRecord_ckpt (s : State) (r : FaultRec) : (crashRecord s r).ckpt = s.ckpt := by simp [crashRecord]
@[simp] theorem crashRecord_hif (s : State) (r : FaultRec) : (crashRecord s r).hif = s.hif := by simp [crashRecord]
@[simp] theorem crashRecord_std (s : State) (r : FaultRec) : (crashRecord s r).std = s.std := by simp [crashRecord]
@[simp] theorem crashRecord_hostMem (s : State) (r : FaultRec) : (crashRecord s r).hostMem = s.hostMem := by simp [crashRecord]
@[simp] theorem crashRecord_replies (s : State) (r : FaultRec) : (crashRecord s r).replies = s.replies := by simp [crashRecord]
@[simp] theorem crashRecord_lan_alwaysOn (s : State) (r : FaultRec) : (crashRecord s r).lan.alwaysOn = s.lan.alwaysOn := by simp [crashRecord]
@[simp] theorem crashRecord_lan_refclk (s : State) (r : FaultRec) : (crashRecord s r).lan.refclk = s.lan.refclk := by simp [crashRecord]
@[simp] theorem crashRecord_lan_coreUp (s : State) (r : FaultRec) : (crashRecord s r).lan.coreUp = s.lan.coreUp := by simp [crashRecord]
@[simp] theorem crashRecord_lan_pgAt (s : State) (r : FaultRec) : (crashRecord s r).lan.pgAt = s.lan.pgAt := by simp [crashRecord]
@[simp] theorem crashRecord_lan_railEn (s : State) (r : FaultRec) : (crashRecord s r).lan.railEn = s.lan.railEn := by simp [crashRecord]
@[simp] theorem crashRecord_lan_railsPg (s : State) (r : FaultRec) : (crashRecord s r).lan.railsPg = s.lan.railsPg := by simp [crashRecord]
@[simp] theorem crashRecord_lan_perst (s : State) (r : FaultRec) : (crashRecord s r).lan.perst = s.lan.perst := by simp [crashRecord]
@[simp] theorem crashRecord_lan_powerUpAt (s : State) (r : FaultRec) : (crashRecord s r).lan.powerUpAt = s.lan.powerUpAt := by simp [crashRecord]
@[simp] theorem crashRecord_lan_power (s : State) (r : FaultRec) : (crashRecord s r).lan.power = s.lan.power := by simp [crashRecord]
@[simp] theorem crashRecord_lan_lastReset (s : State) (r : FaultRec) : (crashRecord s r).lan.lastReset = s.lan.lastReset := by simp [crashRecord]
@[simp] theorem crashRecord_lan_resetCount (s : State) (r : FaultRec) : (crashRecord s r).lan.resetCount = s.lan.resetCount := by simp [crashRecord]
@[simp] theorem crashRecord_lan_resetDue (s : State) (r : FaultRec) : (crashRecord s r).lan.resetDue = s.lan.resetDue := by simp [crashRecord]
@[simp] theorem crashRecord_lan_wdtPeriod (s : State) (r : FaultRec) : (crashRecord s r).lan.wdtPeriod = s.lan.wdtPeriod := by simp [crashRecord]
@[simp] theorem crashRecord_lan_wdtAction (s : State) (r : FaultRec) : (crashRecord s r).lan.wdtAction = s.lan.wdtAction := by simp [crashRecord]
@[simp] theorem crashRecord_lan_wdtExpiries (s : State) (r : FaultRec) : (crashRecord s r).lan.wdtExpiries = s.lan.wdtExpiries := by simp [crashRecord]
@[simp] theorem crashRecord_lan_wdtKick (s : State) (r : FaultRec) : (crashRecord s r).lan.wdtKick = s.lan.wdtKick := by simp [crashRecord]
@[simp] theorem crashRecord_lan_tempMax (s : State) (r : FaultRec) : (crashRecord s r).lan.tempMax = s.lan.tempMax := by simp [crashRecord]
@[simp] theorem crashRecord_lan_tempSensor (s : State) (r : FaultRec) : (crashRecord s r).lan.tempSensor = s.lan.tempSensor := by simp [crashRecord]
@[simp] theorem crashRecord_lan_sensors (s : State) (r : FaultRec) : (crashRecord s r).lan.sensors = s.lan.sensors := by simp [crashRecord]
@[simp] theorem crashRecord_lan_tripRun (s : State) (r : FaultRec) : (crashRecord s r).lan.tripRun = s.lan.tripRun := by simp [crashRecord]
@[simp] theorem crashRecord_lan_warnLimit (s : State) (r : FaultRec) : (crashRecord s r).lan.warnLimit = s.lan.warnLimit := by simp [crashRecord]
@[simp] theorem crashRecord_lan_tripLimit (s : State) (r : FaultRec) : (crashRecord s r).lan.tripLimit = s.lan.tripLimit := by simp [crashRecord]
@[simp] theorem crashRecord_lan_tripped (s : State) (r : FaultRec) : (crashRecord s r).lan.tripped = s.lan.tripped := by simp [crashRecord]
@[simp] theorem crashRecord_lan_tripCount (s : State) (r : FaultRec) : (crashRecord s r).lan.tripCount = s.lan.tripCount := by simp [crashRecord]
@[simp] theorem crashRecord_lan_warnCount (s : State) (r : FaultRec) : (crashRecord s r).lan.warnCount = s.lan.warnCount := by simp [crashRecord]
@[simp] theorem crashRecord_lan_thermtrip (s : State) (r : FaultRec) : (crashRecord s r).lan.thermtrip = s.lan.thermtrip := by simp [crashRecord]
@[simp] theorem crashRecord_lan_lastTemp (s : State) (r : FaultRec) : (crashRecord s r).lan.lastTemp = s.lan.lastTemp := by simp [crashRecord]
@[simp] theorem crashRecord_lan_vcoreSet (s : State) (r : FaultRec) : (crashRecord s r).lan.vcoreSet = s.lan.vcoreSet := by simp [crashRecord]
@[simp] theorem crashRecord_lan_vcoreSent (s : State) (r : FaultRec) : (crashRecord s r).lan.vcoreSent = s.lan.vcoreSent := by simp [crashRecord]
@[simp] theorem crashRecord_lan_vcoreRead (s : State) (r : FaultRec) : (crashRecord s r).lan.vcoreRead = s.lan.vcoreRead := by simp [crashRecord]
@[simp] theorem crashRecord_lan_ioutRead (s : State) (r : FaultRec) : (crashRecord s r).lan.ioutRead = s.lan.ioutRead := by simp [crashRecord]
@[simp] theorem crashRecord_lan_lastAvs (s : State) (r : FaultRec) : (crashRecord s r).lan.lastAvs = s.lan.lastAvs := by simp [crashRecord]
@[simp] theorem crashRecord_lan_lowSince (s : State) (r : FaultRec) : (crashRecord s r).lan.lowSince = s.lan.lowSince := by simp [crashRecord]
@[simp] theorem crashRecord_lan_goodSince (s : State) (r : FaultRec) : (crashRecord s r).lan.goodSince = s.lan.goodSince := by simp [crashRecord]
@[simp] theorem crashRecord_lan_stopped (s : State) (r : FaultRec) : (crashRecord s r).lan.stopped = s.lan.stopped := by simp [crashRecord]
@[simp] theorem crashRecord_lan_freezes (s : State) (r : FaultRec) : (crashRecord s r).lan.freezes = s.lan.freezes := by simp [crashRecord]
@[simp] theorem crashRecord_lan_stops (s : State) (r : FaultRec) : (crashRecord s r).lan.stops = s.lan.stops := by simp [crashRecord]
@[simp] theorem crashRecord_lan_powerReq (s : State) (r : FaultRec) : (crashRecord s r).lan.powerReq = s.lan.powerReq := by simp [crashRecord]
@[simp] theorem crashRecord_lan_idleSince (s : State) (r : FaultRec) : (crashRecord s r).lan.idleSince = s.lan.idleSince := by simp [crashRecord]
@[simp] theorem crashRecord_lan_transition (s : State) (r : FaultRec) : (crashRecord s r).lan.transition = s.lan.transition := by simp [crashRecord]
@[simp] theorem crashRecord_lan_dieRev (s : State) (r : FaultRec) : (crashRecord s r).lan.dieRev = s.lan.dieRev := by simp [crashRecord]
@[simp] theorem crashRecord_lan_traySerial (s : State) (r : FaultRec) : (crashRecord s r).lan.traySerial = s.lan.traySerial := by simp [crashRecord]
@[simp] theorem crashRecord_lan_traySlot (s : State) (r : FaultRec) : (crashRecord s r).lan.traySlot = s.lan.traySlot := by simp [crashRecord]
@[simp] theorem crashRecord_lan_settingSvn (s : State) (r : FaultRec) : (crashRecord s r).lan.settingSvn = s.lan.settingSvn := by simp [crashRecord]
@[simp] theorem crashRecord_lan_fusedSvn (s : State) (r : FaultRec) : (crashRecord s r).lan.fusedSvn = s.lan.fusedSvn := by simp [crashRecord]
@[simp] theorem crashRecord_lan_fusedKeyHash (s : State) (r : FaultRec) : (crashRecord s r).lan.fusedKeyHash = s.lan.fusedKeyHash := by simp [crashRecord]
@[simp] theorem crashRecord_lan_nodeId (s : State) (r : FaultRec) : (crashRecord s r).lan.nodeId = s.lan.nodeId := by simp [crashRecord]
@[simp] theorem crashRecord_lan_nodeInForce (s : State) (r : FaultRec) : (crashRecord s r).lan.nodeInForce = s.lan.nodeInForce := by simp [crashRecord]
@[simp] theorem crashRecord_lan_eventDest (s : State) (r : FaultRec) : (crashRecord s r).lan.eventDest = s.lan.eventDest := by simp [crashRecord]
@[simp] theorem crashRecord_lan_sbFrames (s : State) (r : FaultRec) : (crashRecord s r).lan.sbFrames = s.lan.sbFrames := by simp [crashRecord]
@[simp] theorem crashRecord_lan_sbErrors (s : State) (r : FaultRec) : (crashRecord s r).lan.sbErrors = s.lan.sbErrors := by simp [crashRecord]
@[simp] theorem crashRecord_lan_sbCollisions (s : State) (r : FaultRec) : (crashRecord s r).lan.sbCollisions = s.lan.sbCollisions := by simp [crashRecord]
@[simp] theorem crashRecord_lan_cxlEn (s : State) (r : FaultRec) : (crashRecord s r).lan.cxlEn = s.lan.cxlEn := by simp [crashRecord]
@[simp] theorem crashRecord_lan_eventSeq (s : State) (r : FaultRec) : (crashRecord s r).lan.eventSeq = s.lan.eventSeq := by simp [crashRecord]
@[simp] theorem crashRecord_lan_queue (s : State) (r : FaultRec) : (crashRecord s r).lan.queue = s.lan.queue := by simp [crashRecord]
@[simp] theorem crashRecord_lan_nodeDue (s : State) (r : FaultRec) : (crashRecord s r).lan.nodeDue = s.lan.nodeDue := by simp [crashRecord]
@[simp] theorem crashRecord_lan_snaps (s : State) (r : FaultRec) : (crashRecord s r).lan.snaps = s.lan.snaps := by simp [crashRecord]
@[simp] theorem crashRecord_lan_tx (s : State) (r : FaultRec) : (crashRecord s r).lan.tx = s.lan.tx := by simp [crashRecord]
@[simp] theorem crashRecord_lan_sent (s : State) (r : FaultRec) : (crashRecord s r).lan.sent = s.lan.sent := by simp [crashRecord]
@[simp] theorem crashRecord_lan_mbox (s : State) (r : FaultRec) : (crashRecord s r).lan.mbox = s.lan.mbox := by simp [crashRecord]
@[simp] theorem crashRecord_lan_mboxBusy (s : State) (r : FaultRec) : (crashRecord s r).lan.mboxBusy = s.lan.mboxBusy := by simp [crashRecord]
@[simp] theorem crashRecord_lan_mboxDone (s : State) (r : FaultRec) : (crashRecord s r).lan.mboxDone = s.lan.mboxDone := by simp [crashRecord]
@[simp] theorem crashRecord_lan_imageOffset (s : State) (r : FaultRec) : (crashRecord s r).lan.imageOffset = s.lan.imageOffset := by simp [crashRecord]
@[simp] theorem crashRecord_lan_staging (s : State) (r : FaultRec) : (crashRecord s r).lan.staging = s.lan.staging := by simp [crashRecord]
@[simp] theorem crashRecord_lan_phase (s : State) (r : FaultRec) : (crashRecord s r).lan.phase = s.lan.phase := by simp [crashRecord]
@[simp] theorem crashRecord_lan_image (s : State) (r : FaultRec) : (crashRecord s r).lan.image = s.lan.image := by simp [crashRecord]
@[simp] theorem crashRecord_lan_trust (s : State) (r : FaultRec) : (crashRecord s r).lan.trust = s.lan.trust := by simp [crashRecord]
@[simp] theorem crashRecord_lan_bootNonce (s : State) (r : FaultRec) : (crashRecord s r).lan.bootNonce = s.lan.bootNonce := by simp [crashRecord]
@[simp] theorem crashRecord_lan_lastNonce (s : State) (r : FaultRec) : (crashRecord s r).lan.lastNonce = s.lan.lastNonce := by simp [crashRecord]
@[simp] theorem crashRecord_lan_extentCount (s : State) (r : FaultRec) : (crashRecord s r).lan.extentCount = s.lan.extentCount := by simp [crashRecord]
@[simp] theorem crashRecord_lan_entropyUsed (s : State) (r : FaultRec) : (crashRecord s r).lan.entropyUsed = s.lan.entropyUsed := by simp [crashRecord]
@[simp] theorem crashRecord_lan_retired (s : State) (r : FaultRec) : (crashRecord s r).lan.retired = s.lan.retired := by simp [crashRecord]
@[simp] theorem crashRecord_lan_quarantine (s : State) (r : FaultRec) : (crashRecord s r).lan.quarantine = s.lan.quarantine := by simp [crashRecord]
@[simp] theorem crashRecord_lan_remounted (s : State) (r : FaultRec) : (crashRecord s r).lan.remounted = s.lan.remounted := by simp [crashRecord]
@[simp] theorem crashRecord_lan_committed (s : State) (r : FaultRec) : (crashRecord s r).lan.committed = s.lan.committed := by simp [crashRecord]
@[simp] theorem crashRecord_lan_configError (s : State) (r : FaultRec) : (crashRecord s r).lan.configError = s.lan.configError := by simp [crashRecord]
@[simp] theorem crashRecord_lan_staged (s : State) (r : FaultRec) : (crashRecord s r).lan.staged = s.lan.staged := by simp [crashRecord]
@[simp] theorem crashRecord_lan_config (s : State) (r : FaultRec) : (crashRecord s r).lan.config = s.lan.config := by simp [crashRecord]
@[simp] theorem crashRecord_lan_t2Units (s : State) (r : FaultRec) : (crashRecord s r).lan.t2Units = s.lan.t2Units := by simp [crashRecord]
@[simp] theorem crashRecord_lan_boardT2 (s : State) (r : FaultRec) : (crashRecord s r).lan.boardT2 = s.lan.boardT2 := by simp [crashRecord]
@[simp] theorem crashRecord_lan_pwrWarn (s : State) (r : FaultRec) : (crashRecord s r).lan.pwrWarn = s.lan.pwrWarn := by simp [crashRecord]

@[simp] theorem crashDirect_pending (s : State) (k d : Nat) : (crashDirect s k d).pending = s.pending := by simp [crashDirect]
@[simp] theorem crashDirect_now (s : State) (k d : Nat) : (crashDirect s k d).now = s.now := by simp [crashDirect]
@[simp] theorem crashDirect_ory (s : State) (k d : Nat) : (crashDirect s k d).ory = s.ory := by simp [crashDirect]
@[simp] theorem crashDirect_cells (s : State) (k d : Nat) : (crashDirect s k d).cells = s.cells := by simp [crashDirect]
@[simp] theorem crashDirect_lpe (s : State) (k d : Nat) : (crashDirect s k d).lpe = s.lpe := by simp [crashDirect]
@[simp] theorem crashDirect_parures (s : State) (k d : Nat) : (crashDirect s k d).parures = s.parures := by simp [crashDirect]
@[simp] theorem crashDirect_ast (s : State) (k d : Nat) : (crashDirect s k d).ast = s.ast := by simp [crashDirect]
@[simp] theorem crashDirect_smp (s : State) (k d : Nat) : (crashDirect s k d).smp = s.smp := by simp [crashDirect]
@[simp] theorem crashDirect_fil (s : State) (k d : Nat) : (crashDirect s k d).fil = s.fil := by simp [crashDirect]
@[simp] theorem crashDirect_stm (s : State) (k d : Nat) : (crashDirect s k d).stm = s.stm := by simp [crashDirect]
@[simp] theorem crashDirect_lockets (s : State) (k d : Nat) : (crashDirect s k d).lockets = s.lockets := by simp [crashDirect]
@[simp] theorem crashDirect_charms (s : State) (k d : Nat) : (crashDirect s k d).charms = s.charms := by simp [crashDirect]
@[simp] theorem crashDirect_facets (s : State) (k d : Nat) : (crashDirect s k d).facets = s.facets := by simp [crashDirect]
@[simp] theorem crashDirect_keys (s : State) (k d : Nat) : (crashDirect s k d).keys = s.keys := by simp [crashDirect]
@[simp] theorem crashDirect_t1 (s : State) (k d : Nat) : (crashDirect s k d).t1 = s.t1 := by simp [crashDirect]
@[simp] theorem crashDirect_extents (s : State) (k d : Nat) : (crashDirect s k d).extents = s.extents := by simp [crashDirect]
@[simp] theorem crashDirect_hbc (s : State) (k d : Nat) : (crashDirect s k d).hbc = s.hbc := by simp [crashDirect]
@[simp] theorem crashDirect_lpc (s : State) (k d : Nat) : (crashDirect s k d).lpc = s.lpc := by simp [crashDirect]
@[simp] theorem crashDirect_cur (s : State) (k d : Nat) : (crashDirect s k d).cur = s.cur := by simp [crashDirect]
@[simp] theorem crashDirect_bays (s : State) (k d : Nat) : (crashDirect s k d).bays = s.bays := by simp [crashDirect]
@[simp] theorem crashDirect_eph (s : State) (k d : Nat) : (crashDirect s k d).eph = s.eph := by simp [crashDirect]
@[simp] theorem crashDirect_traffic (s : State) (k d : Nat) : (crashDirect s k d).traffic = s.traffic := by simp [crashDirect]
@[simp] theorem crashDirect_colls (s : State) (k d : Nat) : (crashDirect s k d).colls = s.colls := by simp [crashDirect]
@[simp] theorem crashDirect_searches (s : State) (k d : Nat) : (crashDirect s k d).searches = s.searches := by simp [crashDirect]
@[simp] theorem crashDirect_selects (s : State) (k d : Nat) : (crashDirect s k d).selects = s.selects := by simp [crashDirect]
@[simp] theorem crashDirect_sieves (s : State) (k d : Nat) : (crashDirect s k d).sieves = s.sieves := by simp [crashDirect]
@[simp] theorem crashDirect_integ (s : State) (k d : Nat) : (crashDirect s k d).integ = s.integ := by simp [crashDirect]
@[simp] theorem crashDirect_ckpt (s : State) (k d : Nat) : (crashDirect s k d).ckpt = s.ckpt := by simp [crashDirect]
@[simp] theorem crashDirect_hif (s : State) (k d : Nat) : (crashDirect s k d).hif = s.hif := by simp [crashDirect]
@[simp] theorem crashDirect_std (s : State) (k d : Nat) : (crashDirect s k d).std = s.std := by simp [crashDirect]
@[simp] theorem crashDirect_hostMem (s : State) (k d : Nat) : (crashDirect s k d).hostMem = s.hostMem := by simp [crashDirect]
@[simp] theorem crashDirect_replies (s : State) (k d : Nat) : (crashDirect s k d).replies = s.replies := by simp [crashDirect]
@[simp] theorem crashDirect_lan_alwaysOn (s : State) (k d : Nat) : (crashDirect s k d).lan.alwaysOn = s.lan.alwaysOn := by simp [crashDirect]
@[simp] theorem crashDirect_lan_refclk (s : State) (k d : Nat) : (crashDirect s k d).lan.refclk = s.lan.refclk := by simp [crashDirect]
@[simp] theorem crashDirect_lan_coreUp (s : State) (k d : Nat) : (crashDirect s k d).lan.coreUp = s.lan.coreUp := by simp [crashDirect]
@[simp] theorem crashDirect_lan_pgAt (s : State) (k d : Nat) : (crashDirect s k d).lan.pgAt = s.lan.pgAt := by simp [crashDirect]
@[simp] theorem crashDirect_lan_railEn (s : State) (k d : Nat) : (crashDirect s k d).lan.railEn = s.lan.railEn := by simp [crashDirect]
@[simp] theorem crashDirect_lan_railsPg (s : State) (k d : Nat) : (crashDirect s k d).lan.railsPg = s.lan.railsPg := by simp [crashDirect]
@[simp] theorem crashDirect_lan_perst (s : State) (k d : Nat) : (crashDirect s k d).lan.perst = s.lan.perst := by simp [crashDirect]
@[simp] theorem crashDirect_lan_powerUpAt (s : State) (k d : Nat) : (crashDirect s k d).lan.powerUpAt = s.lan.powerUpAt := by simp [crashDirect]
@[simp] theorem crashDirect_lan_power (s : State) (k d : Nat) : (crashDirect s k d).lan.power = s.lan.power := by simp [crashDirect]
@[simp] theorem crashDirect_lan_lastReset (s : State) (k d : Nat) : (crashDirect s k d).lan.lastReset = s.lan.lastReset := by simp [crashDirect]
@[simp] theorem crashDirect_lan_resetCount (s : State) (k d : Nat) : (crashDirect s k d).lan.resetCount = s.lan.resetCount := by simp [crashDirect]
@[simp] theorem crashDirect_lan_resetDue (s : State) (k d : Nat) : (crashDirect s k d).lan.resetDue = s.lan.resetDue := by simp [crashDirect]
@[simp] theorem crashDirect_lan_wdtPeriod (s : State) (k d : Nat) : (crashDirect s k d).lan.wdtPeriod = s.lan.wdtPeriod := by simp [crashDirect]
@[simp] theorem crashDirect_lan_wdtAction (s : State) (k d : Nat) : (crashDirect s k d).lan.wdtAction = s.lan.wdtAction := by simp [crashDirect]
@[simp] theorem crashDirect_lan_wdtExpiries (s : State) (k d : Nat) : (crashDirect s k d).lan.wdtExpiries = s.lan.wdtExpiries := by simp [crashDirect]
@[simp] theorem crashDirect_lan_wdtKick (s : State) (k d : Nat) : (crashDirect s k d).lan.wdtKick = s.lan.wdtKick := by simp [crashDirect]
@[simp] theorem crashDirect_lan_tempMax (s : State) (k d : Nat) : (crashDirect s k d).lan.tempMax = s.lan.tempMax := by simp [crashDirect]
@[simp] theorem crashDirect_lan_tempSensor (s : State) (k d : Nat) : (crashDirect s k d).lan.tempSensor = s.lan.tempSensor := by simp [crashDirect]
@[simp] theorem crashDirect_lan_sensors (s : State) (k d : Nat) : (crashDirect s k d).lan.sensors = s.lan.sensors := by simp [crashDirect]
@[simp] theorem crashDirect_lan_tripRun (s : State) (k d : Nat) : (crashDirect s k d).lan.tripRun = s.lan.tripRun := by simp [crashDirect]
@[simp] theorem crashDirect_lan_warnLimit (s : State) (k d : Nat) : (crashDirect s k d).lan.warnLimit = s.lan.warnLimit := by simp [crashDirect]
@[simp] theorem crashDirect_lan_tripLimit (s : State) (k d : Nat) : (crashDirect s k d).lan.tripLimit = s.lan.tripLimit := by simp [crashDirect]
@[simp] theorem crashDirect_lan_tripped (s : State) (k d : Nat) : (crashDirect s k d).lan.tripped = s.lan.tripped := by simp [crashDirect]
@[simp] theorem crashDirect_lan_tripCount (s : State) (k d : Nat) : (crashDirect s k d).lan.tripCount = s.lan.tripCount := by simp [crashDirect]
@[simp] theorem crashDirect_lan_warnCount (s : State) (k d : Nat) : (crashDirect s k d).lan.warnCount = s.lan.warnCount := by simp [crashDirect]
@[simp] theorem crashDirect_lan_thermtrip (s : State) (k d : Nat) : (crashDirect s k d).lan.thermtrip = s.lan.thermtrip := by simp [crashDirect]
@[simp] theorem crashDirect_lan_lastTemp (s : State) (k d : Nat) : (crashDirect s k d).lan.lastTemp = s.lan.lastTemp := by simp [crashDirect]
@[simp] theorem crashDirect_lan_vcoreSet (s : State) (k d : Nat) : (crashDirect s k d).lan.vcoreSet = s.lan.vcoreSet := by simp [crashDirect]
@[simp] theorem crashDirect_lan_vcoreSent (s : State) (k d : Nat) : (crashDirect s k d).lan.vcoreSent = s.lan.vcoreSent := by simp [crashDirect]
@[simp] theorem crashDirect_lan_vcoreRead (s : State) (k d : Nat) : (crashDirect s k d).lan.vcoreRead = s.lan.vcoreRead := by simp [crashDirect]
@[simp] theorem crashDirect_lan_ioutRead (s : State) (k d : Nat) : (crashDirect s k d).lan.ioutRead = s.lan.ioutRead := by simp [crashDirect]
@[simp] theorem crashDirect_lan_lastAvs (s : State) (k d : Nat) : (crashDirect s k d).lan.lastAvs = s.lan.lastAvs := by simp [crashDirect]
@[simp] theorem crashDirect_lan_lowSince (s : State) (k d : Nat) : (crashDirect s k d).lan.lowSince = s.lan.lowSince := by simp [crashDirect]
@[simp] theorem crashDirect_lan_goodSince (s : State) (k d : Nat) : (crashDirect s k d).lan.goodSince = s.lan.goodSince := by simp [crashDirect]
@[simp] theorem crashDirect_lan_stopped (s : State) (k d : Nat) : (crashDirect s k d).lan.stopped = s.lan.stopped := by simp [crashDirect]
@[simp] theorem crashDirect_lan_freezes (s : State) (k d : Nat) : (crashDirect s k d).lan.freezes = s.lan.freezes := by simp [crashDirect]
@[simp] theorem crashDirect_lan_stops (s : State) (k d : Nat) : (crashDirect s k d).lan.stops = s.lan.stops := by simp [crashDirect]
@[simp] theorem crashDirect_lan_powerReq (s : State) (k d : Nat) : (crashDirect s k d).lan.powerReq = s.lan.powerReq := by simp [crashDirect]
@[simp] theorem crashDirect_lan_idleSince (s : State) (k d : Nat) : (crashDirect s k d).lan.idleSince = s.lan.idleSince := by simp [crashDirect]
@[simp] theorem crashDirect_lan_transition (s : State) (k d : Nat) : (crashDirect s k d).lan.transition = s.lan.transition := by simp [crashDirect]
@[simp] theorem crashDirect_lan_dieRev (s : State) (k d : Nat) : (crashDirect s k d).lan.dieRev = s.lan.dieRev := by simp [crashDirect]
@[simp] theorem crashDirect_lan_traySerial (s : State) (k d : Nat) : (crashDirect s k d).lan.traySerial = s.lan.traySerial := by simp [crashDirect]
@[simp] theorem crashDirect_lan_traySlot (s : State) (k d : Nat) : (crashDirect s k d).lan.traySlot = s.lan.traySlot := by simp [crashDirect]
@[simp] theorem crashDirect_lan_settingSvn (s : State) (k d : Nat) : (crashDirect s k d).lan.settingSvn = s.lan.settingSvn := by simp [crashDirect]
@[simp] theorem crashDirect_lan_fusedSvn (s : State) (k d : Nat) : (crashDirect s k d).lan.fusedSvn = s.lan.fusedSvn := by simp [crashDirect]
@[simp] theorem crashDirect_lan_fusedKeyHash (s : State) (k d : Nat) : (crashDirect s k d).lan.fusedKeyHash = s.lan.fusedKeyHash := by simp [crashDirect]
@[simp] theorem crashDirect_lan_nodeId (s : State) (k d : Nat) : (crashDirect s k d).lan.nodeId = s.lan.nodeId := by simp [crashDirect]
@[simp] theorem crashDirect_lan_nodeInForce (s : State) (k d : Nat) : (crashDirect s k d).lan.nodeInForce = s.lan.nodeInForce := by simp [crashDirect]
@[simp] theorem crashDirect_lan_eventDest (s : State) (k d : Nat) : (crashDirect s k d).lan.eventDest = s.lan.eventDest := by simp [crashDirect]
@[simp] theorem crashDirect_lan_sbFrames (s : State) (k d : Nat) : (crashDirect s k d).lan.sbFrames = s.lan.sbFrames := by simp [crashDirect]
@[simp] theorem crashDirect_lan_sbErrors (s : State) (k d : Nat) : (crashDirect s k d).lan.sbErrors = s.lan.sbErrors := by simp [crashDirect]
@[simp] theorem crashDirect_lan_sbCollisions (s : State) (k d : Nat) : (crashDirect s k d).lan.sbCollisions = s.lan.sbCollisions := by simp [crashDirect]
@[simp] theorem crashDirect_lan_cxlEn (s : State) (k d : Nat) : (crashDirect s k d).lan.cxlEn = s.lan.cxlEn := by simp [crashDirect]
@[simp] theorem crashDirect_lan_eventSeq (s : State) (k d : Nat) : (crashDirect s k d).lan.eventSeq = s.lan.eventSeq := by simp [crashDirect]
@[simp] theorem crashDirect_lan_queue (s : State) (k d : Nat) : (crashDirect s k d).lan.queue = s.lan.queue := by simp [crashDirect]
@[simp] theorem crashDirect_lan_nodeDue (s : State) (k d : Nat) : (crashDirect s k d).lan.nodeDue = s.lan.nodeDue := by simp [crashDirect]
@[simp] theorem crashDirect_lan_snaps (s : State) (k d : Nat) : (crashDirect s k d).lan.snaps = s.lan.snaps := by simp [crashDirect]
@[simp] theorem crashDirect_lan_tx (s : State) (k d : Nat) : (crashDirect s k d).lan.tx = s.lan.tx := by simp [crashDirect]
@[simp] theorem crashDirect_lan_sent (s : State) (k d : Nat) : (crashDirect s k d).lan.sent = s.lan.sent := by simp [crashDirect]
@[simp] theorem crashDirect_lan_mbox (s : State) (k d : Nat) : (crashDirect s k d).lan.mbox = s.lan.mbox := by simp [crashDirect]
@[simp] theorem crashDirect_lan_mboxBusy (s : State) (k d : Nat) : (crashDirect s k d).lan.mboxBusy = s.lan.mboxBusy := by simp [crashDirect]
@[simp] theorem crashDirect_lan_mboxDone (s : State) (k d : Nat) : (crashDirect s k d).lan.mboxDone = s.lan.mboxDone := by simp [crashDirect]
@[simp] theorem crashDirect_lan_imageOffset (s : State) (k d : Nat) : (crashDirect s k d).lan.imageOffset = s.lan.imageOffset := by simp [crashDirect]
@[simp] theorem crashDirect_lan_staging (s : State) (k d : Nat) : (crashDirect s k d).lan.staging = s.lan.staging := by simp [crashDirect]
@[simp] theorem crashDirect_lan_phase (s : State) (k d : Nat) : (crashDirect s k d).lan.phase = s.lan.phase := by simp [crashDirect]
@[simp] theorem crashDirect_lan_image (s : State) (k d : Nat) : (crashDirect s k d).lan.image = s.lan.image := by simp [crashDirect]
@[simp] theorem crashDirect_lan_trust (s : State) (k d : Nat) : (crashDirect s k d).lan.trust = s.lan.trust := by simp [crashDirect]
@[simp] theorem crashDirect_lan_bootNonce (s : State) (k d : Nat) : (crashDirect s k d).lan.bootNonce = s.lan.bootNonce := by simp [crashDirect]
@[simp] theorem crashDirect_lan_lastNonce (s : State) (k d : Nat) : (crashDirect s k d).lan.lastNonce = s.lan.lastNonce := by simp [crashDirect]
@[simp] theorem crashDirect_lan_extentCount (s : State) (k d : Nat) : (crashDirect s k d).lan.extentCount = s.lan.extentCount := by simp [crashDirect]
@[simp] theorem crashDirect_lan_entropyUsed (s : State) (k d : Nat) : (crashDirect s k d).lan.entropyUsed = s.lan.entropyUsed := by simp [crashDirect]
@[simp] theorem crashDirect_lan_retired (s : State) (k d : Nat) : (crashDirect s k d).lan.retired = s.lan.retired := by simp [crashDirect]
@[simp] theorem crashDirect_lan_quarantine (s : State) (k d : Nat) : (crashDirect s k d).lan.quarantine = s.lan.quarantine := by simp [crashDirect]
@[simp] theorem crashDirect_lan_remounted (s : State) (k d : Nat) : (crashDirect s k d).lan.remounted = s.lan.remounted := by simp [crashDirect]
@[simp] theorem crashDirect_lan_committed (s : State) (k d : Nat) : (crashDirect s k d).lan.committed = s.lan.committed := by simp [crashDirect]
@[simp] theorem crashDirect_lan_configError (s : State) (k d : Nat) : (crashDirect s k d).lan.configError = s.lan.configError := by simp [crashDirect]
@[simp] theorem crashDirect_lan_staged (s : State) (k d : Nat) : (crashDirect s k d).lan.staged = s.lan.staged := by simp [crashDirect]
@[simp] theorem crashDirect_lan_config (s : State) (k d : Nat) : (crashDirect s k d).lan.config = s.lan.config := by simp [crashDirect]
@[simp] theorem crashDirect_lan_t2Units (s : State) (k d : Nat) : (crashDirect s k d).lan.t2Units = s.lan.t2Units := by simp [crashDirect]
@[simp] theorem crashDirect_lan_boardT2 (s : State) (k d : Nat) : (crashDirect s k d).lan.boardT2 = s.lan.boardT2 := by simp [crashDirect]
@[simp] theorem crashDirect_lan_pwrWarn (s : State) (k d : Nat) : (crashDirect s k d).lan.pwrWarn = s.lan.pwrWarn := by simp [crashDirect]

@[simp] theorem logFault_pending (s : State) (k st ce at_ ob de : Nat) : (logFault s k st ce at_ ob de).pending = s.pending := by unfold logFault; dsimp only; split <;> simp
@[simp] theorem logFault_now (s : State) (k st ce at_ ob de : Nat) : (logFault s k st ce at_ ob de).now = s.now := by unfold logFault; dsimp only; split <;> simp
@[simp] theorem logFault_ory (s : State) (k st ce at_ ob de : Nat) : (logFault s k st ce at_ ob de).ory = s.ory := by unfold logFault; dsimp only; split <;> simp
@[simp] theorem logFault_cells (s : State) (k st ce at_ ob de : Nat) : (logFault s k st ce at_ ob de).cells = s.cells := by unfold logFault; dsimp only; split <;> simp
@[simp] theorem logFault_lpe (s : State) (k st ce at_ ob de : Nat) : (logFault s k st ce at_ ob de).lpe = s.lpe := by unfold logFault; dsimp only; split <;> simp
@[simp] theorem logFault_parures (s : State) (k st ce at_ ob de : Nat) : (logFault s k st ce at_ ob de).parures = s.parures := by unfold logFault; dsimp only; split <;> simp
@[simp] theorem logFault_ast (s : State) (k st ce at_ ob de : Nat) : (logFault s k st ce at_ ob de).ast = s.ast := by unfold logFault; dsimp only; split <;> simp
@[simp] theorem logFault_smp (s : State) (k st ce at_ ob de : Nat) : (logFault s k st ce at_ ob de).smp = s.smp := by unfold logFault; dsimp only; split <;> simp
@[simp] theorem logFault_fil (s : State) (k st ce at_ ob de : Nat) : (logFault s k st ce at_ ob de).fil = s.fil := by unfold logFault; dsimp only; split <;> simp
@[simp] theorem logFault_stm (s : State) (k st ce at_ ob de : Nat) : (logFault s k st ce at_ ob de).stm = s.stm := by unfold logFault; dsimp only; split <;> simp
@[simp] theorem logFault_lockets (s : State) (k st ce at_ ob de : Nat) : (logFault s k st ce at_ ob de).lockets = s.lockets := by unfold logFault; dsimp only; split <;> simp
@[simp] theorem logFault_charms (s : State) (k st ce at_ ob de : Nat) : (logFault s k st ce at_ ob de).charms = s.charms := by unfold logFault; dsimp only; split <;> simp
@[simp] theorem logFault_facets (s : State) (k st ce at_ ob de : Nat) : (logFault s k st ce at_ ob de).facets = s.facets := by unfold logFault; dsimp only; split <;> simp
@[simp] theorem logFault_keys (s : State) (k st ce at_ ob de : Nat) : (logFault s k st ce at_ ob de).keys = s.keys := by unfold logFault; dsimp only; split <;> simp
@[simp] theorem logFault_t1 (s : State) (k st ce at_ ob de : Nat) : (logFault s k st ce at_ ob de).t1 = s.t1 := by unfold logFault; dsimp only; split <;> simp
@[simp] theorem logFault_extents (s : State) (k st ce at_ ob de : Nat) : (logFault s k st ce at_ ob de).extents = s.extents := by unfold logFault; dsimp only; split <;> simp
@[simp] theorem logFault_hbc (s : State) (k st ce at_ ob de : Nat) : (logFault s k st ce at_ ob de).hbc = s.hbc := by unfold logFault; dsimp only; split <;> simp
@[simp] theorem logFault_lpc (s : State) (k st ce at_ ob de : Nat) : (logFault s k st ce at_ ob de).lpc = s.lpc := by unfold logFault; dsimp only; split <;> simp
@[simp] theorem logFault_cur (s : State) (k st ce at_ ob de : Nat) : (logFault s k st ce at_ ob de).cur = s.cur := by unfold logFault; dsimp only; split <;> simp
@[simp] theorem logFault_bays (s : State) (k st ce at_ ob de : Nat) : (logFault s k st ce at_ ob de).bays = s.bays := by unfold logFault; dsimp only; split <;> simp
@[simp] theorem logFault_eph (s : State) (k st ce at_ ob de : Nat) : (logFault s k st ce at_ ob de).eph = s.eph := by unfold logFault; dsimp only; split <;> simp
@[simp] theorem logFault_traffic (s : State) (k st ce at_ ob de : Nat) : (logFault s k st ce at_ ob de).traffic = s.traffic := by unfold logFault; dsimp only; split <;> simp
@[simp] theorem logFault_colls (s : State) (k st ce at_ ob de : Nat) : (logFault s k st ce at_ ob de).colls = s.colls := by unfold logFault; dsimp only; split <;> simp
@[simp] theorem logFault_searches (s : State) (k st ce at_ ob de : Nat) : (logFault s k st ce at_ ob de).searches = s.searches := by unfold logFault; dsimp only; split <;> simp
@[simp] theorem logFault_selects (s : State) (k st ce at_ ob de : Nat) : (logFault s k st ce at_ ob de).selects = s.selects := by unfold logFault; dsimp only; split <;> simp
@[simp] theorem logFault_sieves (s : State) (k st ce at_ ob de : Nat) : (logFault s k st ce at_ ob de).sieves = s.sieves := by unfold logFault; dsimp only; split <;> simp
@[simp] theorem logFault_ckpt (s : State) (k st ce at_ ob de : Nat) : (logFault s k st ce at_ ob de).ckpt = s.ckpt := by unfold logFault; dsimp only; split <;> simp
@[simp] theorem logFault_hif (s : State) (k st ce at_ ob de : Nat) : (logFault s k st ce at_ ob de).hif = s.hif := by unfold logFault; dsimp only; split <;> simp
@[simp] theorem logFault_std (s : State) (k st ce at_ ob de : Nat) : (logFault s k st ce at_ ob de).std = s.std := by unfold logFault; dsimp only; split <;> simp
@[simp] theorem logFault_hostMem (s : State) (k st ce at_ ob de : Nat) : (logFault s k st ce at_ ob de).hostMem = s.hostMem := by unfold logFault; dsimp only; split <;> simp
@[simp] theorem logFault_replies (s : State) (k st ce at_ ob de : Nat) : (logFault s k st ce at_ ob de).replies = s.replies := by unfold logFault; dsimp only; split <;> simp
@[simp] theorem logFault_lan_alwaysOn (s : State) (k st ce at_ ob de : Nat) : (logFault s k st ce at_ ob de).lan.alwaysOn = s.lan.alwaysOn := by unfold logFault; dsimp only; split <;> simp
@[simp] theorem logFault_lan_refclk (s : State) (k st ce at_ ob de : Nat) : (logFault s k st ce at_ ob de).lan.refclk = s.lan.refclk := by unfold logFault; dsimp only; split <;> simp
@[simp] theorem logFault_lan_coreUp (s : State) (k st ce at_ ob de : Nat) : (logFault s k st ce at_ ob de).lan.coreUp = s.lan.coreUp := by unfold logFault; dsimp only; split <;> simp
@[simp] theorem logFault_lan_pgAt (s : State) (k st ce at_ ob de : Nat) : (logFault s k st ce at_ ob de).lan.pgAt = s.lan.pgAt := by unfold logFault; dsimp only; split <;> simp
@[simp] theorem logFault_lan_railEn (s : State) (k st ce at_ ob de : Nat) : (logFault s k st ce at_ ob de).lan.railEn = s.lan.railEn := by unfold logFault; dsimp only; split <;> simp
@[simp] theorem logFault_lan_railsPg (s : State) (k st ce at_ ob de : Nat) : (logFault s k st ce at_ ob de).lan.railsPg = s.lan.railsPg := by unfold logFault; dsimp only; split <;> simp
@[simp] theorem logFault_lan_perst (s : State) (k st ce at_ ob de : Nat) : (logFault s k st ce at_ ob de).lan.perst = s.lan.perst := by unfold logFault; dsimp only; split <;> simp
@[simp] theorem logFault_lan_powerUpAt (s : State) (k st ce at_ ob de : Nat) : (logFault s k st ce at_ ob de).lan.powerUpAt = s.lan.powerUpAt := by unfold logFault; dsimp only; split <;> simp
@[simp] theorem logFault_lan_power (s : State) (k st ce at_ ob de : Nat) : (logFault s k st ce at_ ob de).lan.power = s.lan.power := by unfold logFault; dsimp only; split <;> simp
@[simp] theorem logFault_lan_lastReset (s : State) (k st ce at_ ob de : Nat) : (logFault s k st ce at_ ob de).lan.lastReset = s.lan.lastReset := by unfold logFault; dsimp only; split <;> simp
@[simp] theorem logFault_lan_resetCount (s : State) (k st ce at_ ob de : Nat) : (logFault s k st ce at_ ob de).lan.resetCount = s.lan.resetCount := by unfold logFault; dsimp only; split <;> simp
@[simp] theorem logFault_lan_resetDue (s : State) (k st ce at_ ob de : Nat) : (logFault s k st ce at_ ob de).lan.resetDue = s.lan.resetDue := by unfold logFault; dsimp only; split <;> simp
@[simp] theorem logFault_lan_wdtPeriod (s : State) (k st ce at_ ob de : Nat) : (logFault s k st ce at_ ob de).lan.wdtPeriod = s.lan.wdtPeriod := by unfold logFault; dsimp only; split <;> simp
@[simp] theorem logFault_lan_wdtAction (s : State) (k st ce at_ ob de : Nat) : (logFault s k st ce at_ ob de).lan.wdtAction = s.lan.wdtAction := by unfold logFault; dsimp only; split <;> simp
@[simp] theorem logFault_lan_wdtExpiries (s : State) (k st ce at_ ob de : Nat) : (logFault s k st ce at_ ob de).lan.wdtExpiries = s.lan.wdtExpiries := by unfold logFault; dsimp only; split <;> simp
@[simp] theorem logFault_lan_wdtKick (s : State) (k st ce at_ ob de : Nat) : (logFault s k st ce at_ ob de).lan.wdtKick = s.lan.wdtKick := by unfold logFault; dsimp only; split <;> simp
@[simp] theorem logFault_lan_tempMax (s : State) (k st ce at_ ob de : Nat) : (logFault s k st ce at_ ob de).lan.tempMax = s.lan.tempMax := by unfold logFault; dsimp only; split <;> simp
@[simp] theorem logFault_lan_tempSensor (s : State) (k st ce at_ ob de : Nat) : (logFault s k st ce at_ ob de).lan.tempSensor = s.lan.tempSensor := by unfold logFault; dsimp only; split <;> simp
@[simp] theorem logFault_lan_sensors (s : State) (k st ce at_ ob de : Nat) : (logFault s k st ce at_ ob de).lan.sensors = s.lan.sensors := by unfold logFault; dsimp only; split <;> simp
@[simp] theorem logFault_lan_tripRun (s : State) (k st ce at_ ob de : Nat) : (logFault s k st ce at_ ob de).lan.tripRun = s.lan.tripRun := by unfold logFault; dsimp only; split <;> simp
@[simp] theorem logFault_lan_warnLimit (s : State) (k st ce at_ ob de : Nat) : (logFault s k st ce at_ ob de).lan.warnLimit = s.lan.warnLimit := by unfold logFault; dsimp only; split <;> simp
@[simp] theorem logFault_lan_tripLimit (s : State) (k st ce at_ ob de : Nat) : (logFault s k st ce at_ ob de).lan.tripLimit = s.lan.tripLimit := by unfold logFault; dsimp only; split <;> simp
@[simp] theorem logFault_lan_tripped (s : State) (k st ce at_ ob de : Nat) : (logFault s k st ce at_ ob de).lan.tripped = s.lan.tripped := by unfold logFault; dsimp only; split <;> simp
@[simp] theorem logFault_lan_tripCount (s : State) (k st ce at_ ob de : Nat) : (logFault s k st ce at_ ob de).lan.tripCount = s.lan.tripCount := by unfold logFault; dsimp only; split <;> simp
@[simp] theorem logFault_lan_warnCount (s : State) (k st ce at_ ob de : Nat) : (logFault s k st ce at_ ob de).lan.warnCount = s.lan.warnCount := by unfold logFault; dsimp only; split <;> simp
@[simp] theorem logFault_lan_thermtrip (s : State) (k st ce at_ ob de : Nat) : (logFault s k st ce at_ ob de).lan.thermtrip = s.lan.thermtrip := by unfold logFault; dsimp only; split <;> simp
@[simp] theorem logFault_lan_lastTemp (s : State) (k st ce at_ ob de : Nat) : (logFault s k st ce at_ ob de).lan.lastTemp = s.lan.lastTemp := by unfold logFault; dsimp only; split <;> simp
@[simp] theorem logFault_lan_vcoreSet (s : State) (k st ce at_ ob de : Nat) : (logFault s k st ce at_ ob de).lan.vcoreSet = s.lan.vcoreSet := by unfold logFault; dsimp only; split <;> simp
@[simp] theorem logFault_lan_vcoreSent (s : State) (k st ce at_ ob de : Nat) : (logFault s k st ce at_ ob de).lan.vcoreSent = s.lan.vcoreSent := by unfold logFault; dsimp only; split <;> simp
@[simp] theorem logFault_lan_vcoreRead (s : State) (k st ce at_ ob de : Nat) : (logFault s k st ce at_ ob de).lan.vcoreRead = s.lan.vcoreRead := by unfold logFault; dsimp only; split <;> simp
@[simp] theorem logFault_lan_ioutRead (s : State) (k st ce at_ ob de : Nat) : (logFault s k st ce at_ ob de).lan.ioutRead = s.lan.ioutRead := by unfold logFault; dsimp only; split <;> simp
@[simp] theorem logFault_lan_lastAvs (s : State) (k st ce at_ ob de : Nat) : (logFault s k st ce at_ ob de).lan.lastAvs = s.lan.lastAvs := by unfold logFault; dsimp only; split <;> simp
@[simp] theorem logFault_lan_lowSince (s : State) (k st ce at_ ob de : Nat) : (logFault s k st ce at_ ob de).lan.lowSince = s.lan.lowSince := by unfold logFault; dsimp only; split <;> simp
@[simp] theorem logFault_lan_goodSince (s : State) (k st ce at_ ob de : Nat) : (logFault s k st ce at_ ob de).lan.goodSince = s.lan.goodSince := by unfold logFault; dsimp only; split <;> simp
@[simp] theorem logFault_lan_stopped (s : State) (k st ce at_ ob de : Nat) : (logFault s k st ce at_ ob de).lan.stopped = s.lan.stopped := by unfold logFault; dsimp only; split <;> simp
@[simp] theorem logFault_lan_freezes (s : State) (k st ce at_ ob de : Nat) : (logFault s k st ce at_ ob de).lan.freezes = s.lan.freezes := by unfold logFault; dsimp only; split <;> simp
@[simp] theorem logFault_lan_stops (s : State) (k st ce at_ ob de : Nat) : (logFault s k st ce at_ ob de).lan.stops = s.lan.stops := by unfold logFault; dsimp only; split <;> simp
@[simp] theorem logFault_lan_powerReq (s : State) (k st ce at_ ob de : Nat) : (logFault s k st ce at_ ob de).lan.powerReq = s.lan.powerReq := by unfold logFault; dsimp only; split <;> simp
@[simp] theorem logFault_lan_idleSince (s : State) (k st ce at_ ob de : Nat) : (logFault s k st ce at_ ob de).lan.idleSince = s.lan.idleSince := by unfold logFault; dsimp only; split <;> simp
@[simp] theorem logFault_lan_transition (s : State) (k st ce at_ ob de : Nat) : (logFault s k st ce at_ ob de).lan.transition = s.lan.transition := by unfold logFault; dsimp only; split <;> simp
@[simp] theorem logFault_lan_dieRev (s : State) (k st ce at_ ob de : Nat) : (logFault s k st ce at_ ob de).lan.dieRev = s.lan.dieRev := by unfold logFault; dsimp only; split <;> simp
@[simp] theorem logFault_lan_traySerial (s : State) (k st ce at_ ob de : Nat) : (logFault s k st ce at_ ob de).lan.traySerial = s.lan.traySerial := by unfold logFault; dsimp only; split <;> simp
@[simp] theorem logFault_lan_traySlot (s : State) (k st ce at_ ob de : Nat) : (logFault s k st ce at_ ob de).lan.traySlot = s.lan.traySlot := by unfold logFault; dsimp only; split <;> simp
@[simp] theorem logFault_lan_settingSvn (s : State) (k st ce at_ ob de : Nat) : (logFault s k st ce at_ ob de).lan.settingSvn = s.lan.settingSvn := by unfold logFault; dsimp only; split <;> simp
@[simp] theorem logFault_lan_fusedSvn (s : State) (k st ce at_ ob de : Nat) : (logFault s k st ce at_ ob de).lan.fusedSvn = s.lan.fusedSvn := by unfold logFault; dsimp only; split <;> simp
@[simp] theorem logFault_lan_fusedKeyHash (s : State) (k st ce at_ ob de : Nat) : (logFault s k st ce at_ ob de).lan.fusedKeyHash = s.lan.fusedKeyHash := by unfold logFault; dsimp only; split <;> simp
@[simp] theorem logFault_lan_nodeId (s : State) (k st ce at_ ob de : Nat) : (logFault s k st ce at_ ob de).lan.nodeId = s.lan.nodeId := by unfold logFault; dsimp only; split <;> simp
@[simp] theorem logFault_lan_nodeInForce (s : State) (k st ce at_ ob de : Nat) : (logFault s k st ce at_ ob de).lan.nodeInForce = s.lan.nodeInForce := by unfold logFault; dsimp only; split <;> simp
@[simp] theorem logFault_lan_eventDest (s : State) (k st ce at_ ob de : Nat) : (logFault s k st ce at_ ob de).lan.eventDest = s.lan.eventDest := by unfold logFault; dsimp only; split <;> simp
@[simp] theorem logFault_lan_sbFrames (s : State) (k st ce at_ ob de : Nat) : (logFault s k st ce at_ ob de).lan.sbFrames = s.lan.sbFrames := by unfold logFault; dsimp only; split <;> simp
@[simp] theorem logFault_lan_sbErrors (s : State) (k st ce at_ ob de : Nat) : (logFault s k st ce at_ ob de).lan.sbErrors = s.lan.sbErrors := by unfold logFault; dsimp only; split <;> simp
@[simp] theorem logFault_lan_sbCollisions (s : State) (k st ce at_ ob de : Nat) : (logFault s k st ce at_ ob de).lan.sbCollisions = s.lan.sbCollisions := by unfold logFault; dsimp only; split <;> simp
@[simp] theorem logFault_lan_cxlEn (s : State) (k st ce at_ ob de : Nat) : (logFault s k st ce at_ ob de).lan.cxlEn = s.lan.cxlEn := by unfold logFault; dsimp only; split <;> simp
@[simp] theorem logFault_lan_eventSeq (s : State) (k st ce at_ ob de : Nat) : (logFault s k st ce at_ ob de).lan.eventSeq = s.lan.eventSeq := by unfold logFault; dsimp only; split <;> simp
@[simp] theorem logFault_lan_queue (s : State) (k st ce at_ ob de : Nat) : (logFault s k st ce at_ ob de).lan.queue = s.lan.queue := by unfold logFault; dsimp only; split <;> simp
@[simp] theorem logFault_lan_nodeDue (s : State) (k st ce at_ ob de : Nat) : (logFault s k st ce at_ ob de).lan.nodeDue = s.lan.nodeDue := by unfold logFault; dsimp only; split <;> simp
@[simp] theorem logFault_lan_snaps (s : State) (k st ce at_ ob de : Nat) : (logFault s k st ce at_ ob de).lan.snaps = s.lan.snaps := by unfold logFault; dsimp only; split <;> simp
@[simp] theorem logFault_lan_tx (s : State) (k st ce at_ ob de : Nat) : (logFault s k st ce at_ ob de).lan.tx = s.lan.tx := by unfold logFault; dsimp only; split <;> simp
@[simp] theorem logFault_lan_sent (s : State) (k st ce at_ ob de : Nat) : (logFault s k st ce at_ ob de).lan.sent = s.lan.sent := by unfold logFault; dsimp only; split <;> simp
@[simp] theorem logFault_lan_mbox (s : State) (k st ce at_ ob de : Nat) : (logFault s k st ce at_ ob de).lan.mbox = s.lan.mbox := by unfold logFault; dsimp only; split <;> simp
@[simp] theorem logFault_lan_mboxBusy (s : State) (k st ce at_ ob de : Nat) : (logFault s k st ce at_ ob de).lan.mboxBusy = s.lan.mboxBusy := by unfold logFault; dsimp only; split <;> simp
@[simp] theorem logFault_lan_mboxDone (s : State) (k st ce at_ ob de : Nat) : (logFault s k st ce at_ ob de).lan.mboxDone = s.lan.mboxDone := by unfold logFault; dsimp only; split <;> simp
@[simp] theorem logFault_lan_imageOffset (s : State) (k st ce at_ ob de : Nat) : (logFault s k st ce at_ ob de).lan.imageOffset = s.lan.imageOffset := by unfold logFault; dsimp only; split <;> simp
@[simp] theorem logFault_lan_staging (s : State) (k st ce at_ ob de : Nat) : (logFault s k st ce at_ ob de).lan.staging = s.lan.staging := by unfold logFault; dsimp only; split <;> simp
@[simp] theorem logFault_lan_phase (s : State) (k st ce at_ ob de : Nat) : (logFault s k st ce at_ ob de).lan.phase = s.lan.phase := by unfold logFault; dsimp only; split <;> simp
@[simp] theorem logFault_lan_image (s : State) (k st ce at_ ob de : Nat) : (logFault s k st ce at_ ob de).lan.image = s.lan.image := by unfold logFault; dsimp only; split <;> simp
@[simp] theorem logFault_lan_trust (s : State) (k st ce at_ ob de : Nat) : (logFault s k st ce at_ ob de).lan.trust = s.lan.trust := by unfold logFault; dsimp only; split <;> simp
@[simp] theorem logFault_lan_bootNonce (s : State) (k st ce at_ ob de : Nat) : (logFault s k st ce at_ ob de).lan.bootNonce = s.lan.bootNonce := by unfold logFault; dsimp only; split <;> simp
@[simp] theorem logFault_lan_lastNonce (s : State) (k st ce at_ ob de : Nat) : (logFault s k st ce at_ ob de).lan.lastNonce = s.lan.lastNonce := by unfold logFault; dsimp only; split <;> simp
@[simp] theorem logFault_lan_extentCount (s : State) (k st ce at_ ob de : Nat) : (logFault s k st ce at_ ob de).lan.extentCount = s.lan.extentCount := by unfold logFault; dsimp only; split <;> simp
@[simp] theorem logFault_lan_entropyUsed (s : State) (k st ce at_ ob de : Nat) : (logFault s k st ce at_ ob de).lan.entropyUsed = s.lan.entropyUsed := by unfold logFault; dsimp only; split <;> simp
@[simp] theorem logFault_lan_retired (s : State) (k st ce at_ ob de : Nat) : (logFault s k st ce at_ ob de).lan.retired = s.lan.retired := by unfold logFault; dsimp only; split <;> simp
@[simp] theorem logFault_lan_quarantine (s : State) (k st ce at_ ob de : Nat) : (logFault s k st ce at_ ob de).lan.quarantine = s.lan.quarantine := by unfold logFault; dsimp only; split <;> simp
@[simp] theorem logFault_lan_remounted (s : State) (k st ce at_ ob de : Nat) : (logFault s k st ce at_ ob de).lan.remounted = s.lan.remounted := by unfold logFault; dsimp only; split <;> simp
@[simp] theorem logFault_lan_committed (s : State) (k st ce at_ ob de : Nat) : (logFault s k st ce at_ ob de).lan.committed = s.lan.committed := by unfold logFault; dsimp only; split <;> simp
@[simp] theorem logFault_lan_configError (s : State) (k st ce at_ ob de : Nat) : (logFault s k st ce at_ ob de).lan.configError = s.lan.configError := by unfold logFault; dsimp only; split <;> simp
@[simp] theorem logFault_lan_staged (s : State) (k st ce at_ ob de : Nat) : (logFault s k st ce at_ ob de).lan.staged = s.lan.staged := by unfold logFault; dsimp only; split <;> simp
@[simp] theorem logFault_lan_config (s : State) (k st ce at_ ob de : Nat) : (logFault s k st ce at_ ob de).lan.config = s.lan.config := by unfold logFault; dsimp only; split <;> simp
@[simp] theorem logFault_lan_t2Units (s : State) (k st ce at_ ob de : Nat) : (logFault s k st ce at_ ob de).lan.t2Units = s.lan.t2Units := by unfold logFault; dsimp only; split <;> simp
@[simp] theorem logFault_lan_boardT2 (s : State) (k st ce at_ ob de : Nat) : (logFault s k st ce at_ ob de).lan.boardT2 = s.lan.boardT2 := by unfold logFault; dsimp only; split <;> simp
@[simp] theorem logFault_lan_pwrWarn (s : State) (k st ce at_ ob de : Nat) : (logFault s k st ce at_ ob de).lan.pwrWarn = s.lan.pwrWarn := by unfold logFault; dsimp only; split <;> simp
@[simp] theorem logFault_integ_plannedEn (s : State) (k st ce at_ ob de : Nat) : (logFault s k st ce at_ ob de).integ.plannedEn = s.integ.plannedEn := by unfold logFault; dsimp only; split <;> simp
@[simp] theorem logFault_integ_isolateEn (s : State) (k st ce at_ ob de : Nat) : (logFault s k st ce at_ ob de).integ.isolateEn = s.integ.isolateEn := by unfold logFault; dsimp only; split <;> simp
@[simp] theorem logFault_integ_cell (s : State) (k st ce at_ ob de : Nat) : (logFault s k st ce at_ ob de).integ.cell = s.integ.cell := by unfold logFault; dsimp only; split <;> simp
@[simp] theorem logFault_integ_attempt (s : State) (k st ce at_ ob de : Nat) : (logFault s k st ce at_ ob de).integ.attempt = s.integ.attempt := by unfold logFault; dsimp only; split <;> simp
@[simp] theorem logFault_integ_mode (s : State) (k st ce at_ ob de : Nat) : (logFault s k st ce at_ ob de).integ.mode = s.integ.mode := by unfold logFault; dsimp only; split <;> simp
@[simp] theorem logFault_integ_event (s : State) (k st ce at_ ob de : Nat) : (logFault s k st ce at_ ob de).integ.event = s.integ.event := by unfold logFault; dsimp only; split <;> simp
@[simp] theorem logFault_integ_transient (s : State) (k st ce at_ ob de : Nat) : (logFault s k st ce at_ ob de).integ.transient = s.integ.transient := by unfold logFault; dsimp only; split <;> simp
@[simp] theorem logFault_integ_permanent (s : State) (k st ce at_ ob de : Nat) : (logFault s k st ce at_ ob de).integ.permanent = s.integ.permanent := by unfold logFault; dsimp only; split <;> simp
@[simp] theorem logFault_integ_tarnishMade (s : State) (k st ce at_ ob de : Nat) : (logFault s k st ce at_ ob de).integ.tarnishMade = s.integ.tarnishMade := by unfold logFault; dsimp only; split <;> simp
@[simp] theorem logFault_integ_tarnishConsumed (s : State) (k st ce at_ ob de : Nat) : (logFault s k st ce at_ ob de).integ.tarnishConsumed = s.integ.tarnishConsumed := by unfold logFault; dsimp only; split <;> simp
@[simp] theorem logFault_integ_sessionsEnded (s : State) (k st ce at_ ob de : Nat) : (logFault s k st ce at_ ob de).integ.sessionsEnded = s.integ.sessionsEnded := by unfold logFault; dsimp only; split <;> simp
@[simp] theorem logFault_integ_sramCorr (s : State) (k st ce at_ ob de : Nat) : (logFault s k st ce at_ ob de).integ.sramCorr = s.integ.sramCorr := by unfold logFault; dsimp only; split <;> simp
@[simp] theorem logFault_integ_meshCorr (s : State) (k st ce at_ ob de : Nat) : (logFault s k st ce at_ ob de).integ.meshCorr = s.integ.meshCorr := by unfold logFault; dsimp only; split <;> simp
@[simp] theorem logFault_integ_staleMap (s : State) (k st ce at_ ob de : Nat) : (logFault s k st ce at_ ob de).integ.staleMap = s.integ.staleMap := by unfold logFault; dsimp only; split <;> simp
@[simp] theorem logFault_integ_staleMember (s : State) (k st ce at_ ob de : Nat) : (logFault s k st ce at_ ob de).integ.staleMember = s.integ.staleMember := by unfold logFault; dsimp only; split <;> simp
@[simp] theorem logFault_integ_logBase (s : State) (k st ce at_ ob de : Nat) : (logFault s k st ce at_ ob de).integ.logBase = s.integ.logBase := by unfold logFault; dsimp only; split <;> simp
@[simp] theorem logFault_integ_logBaseLatch (s : State) (k st ce at_ ob de : Nat) : (logFault s k st ce at_ ob de).integ.logBaseLatch = s.integ.logBaseLatch := by unfold logFault; dsimp only; split <;> simp
@[simp] theorem logFault_integ_logCountLatch (s : State) (k st ce at_ ob de : Nat) : (logFault s k st ce at_ ob de).integ.logCountLatch = s.integ.logCountLatch := by unfold logFault; dsimp only; split <;> simp
@[simp] theorem logFault_integ_interruptMax (s : State) (k st ce at_ ob de : Nat) : (logFault s k st ce at_ ob de).integ.interruptMax = s.integ.interruptMax := by unfold logFault; dsimp only; split <;> simp
@[simp] theorem logFault_integ_rep (s : State) (k st ce at_ ob de : Nat) : (logFault s k st ce at_ ob de).integ.rep = s.integ.rep := by unfold logFault; dsimp only; split <;> simp
@[simp] theorem logFault_integ_firstFault (s : State) (k st ce at_ ob de : Nat) : (logFault s k st ce at_ ob de).integ.firstFault = s.integ.firstFault := by unfold logFault; dsimp only; split <;> simp
@[simp] theorem logFault_integ_change (s : State) (k st ce at_ ob de : Nat) : (logFault s k st ce at_ ob de).integ.change = s.integ.change := by unfold logFault; dsimp only; split <;> simp
@[simp] theorem logFault_integ_trial (s : State) (k st ce at_ ob de : Nat) : (logFault s k st ce at_ ob de).integ.trial = s.integ.trial := by unfold logFault; dsimp only; split <;> simp
@[simp] theorem logFault_integ_limit (s : State) (k st ce at_ ob de : Nat) : (logFault s k st ce at_ ob de).integ.limit = s.integ.limit := by unfold logFault; dsimp only; split <;> simp
@[simp] theorem logFault_integ_window (s : State) (k st ce at_ ob de : Nat) : (logFault s k st ce at_ ob de).integ.window = s.integ.window := by unfold logFault; dsimp only; split <;> simp
@[simp] theorem logFault_integ_planned (s : State) (k st ce at_ ob de : Nat) : (logFault s k st ce at_ ob de).integ.planned = s.integ.planned := by unfold logFault; dsimp only; split <;> simp
@[simp] theorem logFault_integ_faultDetail (s : State) (k st ce at_ ob de : Nat) : (logFault s k st ce at_ ob de).integ.faultDetail = s.integ.faultDetail := by unfold logFault; dsimp only; split <;> simp
@[simp] theorem logFault_integ_tarnishT1 (s : State) (k st ce at_ ob de : Nat) : (logFault s k st ce at_ ob de).integ.tarnishT1 = s.integ.tarnishT1 := by unfold logFault; dsimp only; split <;> simp

@[simp] theorem reply_pending (s : State) (r : Req) (a : Nat) (b : List Byte) : (reply s r a b).pending = s.pending := by unfold reply; split <;> rfl
@[simp] theorem reply_now (s : State) (r : Req) (a : Nat) (b : List Byte) : (reply s r a b).now = s.now := by unfold reply; split <;> rfl
@[simp] theorem reply_ory (s : State) (r : Req) (a : Nat) (b : List Byte) : (reply s r a b).ory = s.ory := by unfold reply; split <;> rfl
@[simp] theorem reply_cells (s : State) (r : Req) (a : Nat) (b : List Byte) : (reply s r a b).cells = s.cells := by unfold reply; split <;> rfl
@[simp] theorem reply_lpe (s : State) (r : Req) (a : Nat) (b : List Byte) : (reply s r a b).lpe = s.lpe := by unfold reply; split <;> rfl
@[simp] theorem reply_parures (s : State) (r : Req) (a : Nat) (b : List Byte) : (reply s r a b).parures = s.parures := by unfold reply; split <;> rfl
@[simp] theorem reply_ast (s : State) (r : Req) (a : Nat) (b : List Byte) : (reply s r a b).ast = s.ast := by unfold reply; split <;> rfl
@[simp] theorem reply_smp (s : State) (r : Req) (a : Nat) (b : List Byte) : (reply s r a b).smp = s.smp := by unfold reply; split <;> rfl
@[simp] theorem reply_fil (s : State) (r : Req) (a : Nat) (b : List Byte) : (reply s r a b).fil = s.fil := by unfold reply; split <;> rfl
@[simp] theorem reply_stm (s : State) (r : Req) (a : Nat) (b : List Byte) : (reply s r a b).stm = s.stm := by unfold reply; split <;> rfl
@[simp] theorem reply_lockets (s : State) (r : Req) (a : Nat) (b : List Byte) : (reply s r a b).lockets = s.lockets := by unfold reply; split <;> rfl
@[simp] theorem reply_charms (s : State) (r : Req) (a : Nat) (b : List Byte) : (reply s r a b).charms = s.charms := by unfold reply; split <;> rfl
@[simp] theorem reply_facets (s : State) (r : Req) (a : Nat) (b : List Byte) : (reply s r a b).facets = s.facets := by unfold reply; split <;> rfl
@[simp] theorem reply_keys (s : State) (r : Req) (a : Nat) (b : List Byte) : (reply s r a b).keys = s.keys := by unfold reply; split <;> rfl
@[simp] theorem reply_t1 (s : State) (r : Req) (a : Nat) (b : List Byte) : (reply s r a b).t1 = s.t1 := by unfold reply; split <;> rfl
@[simp] theorem reply_extents (s : State) (r : Req) (a : Nat) (b : List Byte) : (reply s r a b).extents = s.extents := by unfold reply; split <;> rfl
@[simp] theorem reply_hbc (s : State) (r : Req) (a : Nat) (b : List Byte) : (reply s r a b).hbc = s.hbc := by unfold reply; split <;> rfl
@[simp] theorem reply_lpc (s : State) (r : Req) (a : Nat) (b : List Byte) : (reply s r a b).lpc = s.lpc := by unfold reply; split <;> rfl
@[simp] theorem reply_cur (s : State) (r : Req) (a : Nat) (b : List Byte) : (reply s r a b).cur = s.cur := by unfold reply; split <;> rfl
@[simp] theorem reply_bays (s : State) (r : Req) (a : Nat) (b : List Byte) : (reply s r a b).bays = s.bays := by unfold reply; split <;> rfl
@[simp] theorem reply_eph (s : State) (r : Req) (a : Nat) (b : List Byte) : (reply s r a b).eph = s.eph := by unfold reply; split <;> rfl
@[simp] theorem reply_traffic (s : State) (r : Req) (a : Nat) (b : List Byte) : (reply s r a b).traffic = s.traffic := by unfold reply; split <;> rfl
@[simp] theorem reply_colls (s : State) (r : Req) (a : Nat) (b : List Byte) : (reply s r a b).colls = s.colls := by unfold reply; split <;> rfl
@[simp] theorem reply_searches (s : State) (r : Req) (a : Nat) (b : List Byte) : (reply s r a b).searches = s.searches := by unfold reply; split <;> rfl
@[simp] theorem reply_selects (s : State) (r : Req) (a : Nat) (b : List Byte) : (reply s r a b).selects = s.selects := by unfold reply; split <;> rfl
@[simp] theorem reply_sieves (s : State) (r : Req) (a : Nat) (b : List Byte) : (reply s r a b).sieves = s.sieves := by unfold reply; split <;> rfl
@[simp] theorem reply_integ (s : State) (r : Req) (a : Nat) (b : List Byte) : (reply s r a b).integ = s.integ := by unfold reply; split <;> rfl
@[simp] theorem reply_ckpt (s : State) (r : Req) (a : Nat) (b : List Byte) : (reply s r a b).ckpt = s.ckpt := by unfold reply; split <;> rfl
@[simp] theorem reply_hif (s : State) (r : Req) (a : Nat) (b : List Byte) : (reply s r a b).hif = s.hif := by unfold reply; split <;> rfl
@[simp] theorem reply_std (s : State) (r : Req) (a : Nat) (b : List Byte) : (reply s r a b).std = s.std := by unfold reply; split <;> rfl
@[simp] theorem reply_hostMem (s : State) (r : Req) (a : Nat) (b : List Byte) : (reply s r a b).hostMem = s.hostMem := by unfold reply; split <;> rfl
@[simp] theorem reply_replies (s : State) (r : Req) (a : Nat) (b : List Byte) : (reply s r a b).replies = s.replies := by unfold reply; split <;> rfl
@[simp] theorem reply_lan_alwaysOn (s : State) (r : Req) (a : Nat) (b : List Byte) : (reply s r a b).lan.alwaysOn = s.lan.alwaysOn := by unfold reply; split <;> rfl
@[simp] theorem reply_lan_refclk (s : State) (r : Req) (a : Nat) (b : List Byte) : (reply s r a b).lan.refclk = s.lan.refclk := by unfold reply; split <;> rfl
@[simp] theorem reply_lan_coreUp (s : State) (r : Req) (a : Nat) (b : List Byte) : (reply s r a b).lan.coreUp = s.lan.coreUp := by unfold reply; split <;> rfl
@[simp] theorem reply_lan_pgAt (s : State) (r : Req) (a : Nat) (b : List Byte) : (reply s r a b).lan.pgAt = s.lan.pgAt := by unfold reply; split <;> rfl
@[simp] theorem reply_lan_railEn (s : State) (r : Req) (a : Nat) (b : List Byte) : (reply s r a b).lan.railEn = s.lan.railEn := by unfold reply; split <;> rfl
@[simp] theorem reply_lan_railsPg (s : State) (r : Req) (a : Nat) (b : List Byte) : (reply s r a b).lan.railsPg = s.lan.railsPg := by unfold reply; split <;> rfl
@[simp] theorem reply_lan_perst (s : State) (r : Req) (a : Nat) (b : List Byte) : (reply s r a b).lan.perst = s.lan.perst := by unfold reply; split <;> rfl
@[simp] theorem reply_lan_powerUpAt (s : State) (r : Req) (a : Nat) (b : List Byte) : (reply s r a b).lan.powerUpAt = s.lan.powerUpAt := by unfold reply; split <;> rfl
@[simp] theorem reply_lan_power (s : State) (r : Req) (a : Nat) (b : List Byte) : (reply s r a b).lan.power = s.lan.power := by unfold reply; split <;> rfl
@[simp] theorem reply_lan_lastReset (s : State) (r : Req) (a : Nat) (b : List Byte) : (reply s r a b).lan.lastReset = s.lan.lastReset := by unfold reply; split <;> rfl
@[simp] theorem reply_lan_resetCount (s : State) (r : Req) (a : Nat) (b : List Byte) : (reply s r a b).lan.resetCount = s.lan.resetCount := by unfold reply; split <;> rfl
@[simp] theorem reply_lan_resetDue (s : State) (r : Req) (a : Nat) (b : List Byte) : (reply s r a b).lan.resetDue = s.lan.resetDue := by unfold reply; split <;> rfl
@[simp] theorem reply_lan_wdtPeriod (s : State) (r : Req) (a : Nat) (b : List Byte) : (reply s r a b).lan.wdtPeriod = s.lan.wdtPeriod := by unfold reply; split <;> rfl
@[simp] theorem reply_lan_wdtAction (s : State) (r : Req) (a : Nat) (b : List Byte) : (reply s r a b).lan.wdtAction = s.lan.wdtAction := by unfold reply; split <;> rfl
@[simp] theorem reply_lan_wdtExpiries (s : State) (r : Req) (a : Nat) (b : List Byte) : (reply s r a b).lan.wdtExpiries = s.lan.wdtExpiries := by unfold reply; split <;> rfl
@[simp] theorem reply_lan_wdtKick (s : State) (r : Req) (a : Nat) (b : List Byte) : (reply s r a b).lan.wdtKick = s.lan.wdtKick := by unfold reply; split <;> rfl
@[simp] theorem reply_lan_tempMax (s : State) (r : Req) (a : Nat) (b : List Byte) : (reply s r a b).lan.tempMax = s.lan.tempMax := by unfold reply; split <;> rfl
@[simp] theorem reply_lan_tempSensor (s : State) (r : Req) (a : Nat) (b : List Byte) : (reply s r a b).lan.tempSensor = s.lan.tempSensor := by unfold reply; split <;> rfl
@[simp] theorem reply_lan_sensors (s : State) (r : Req) (a : Nat) (b : List Byte) : (reply s r a b).lan.sensors = s.lan.sensors := by unfold reply; split <;> rfl
@[simp] theorem reply_lan_tripRun (s : State) (r : Req) (a : Nat) (b : List Byte) : (reply s r a b).lan.tripRun = s.lan.tripRun := by unfold reply; split <;> rfl
@[simp] theorem reply_lan_warnLimit (s : State) (r : Req) (a : Nat) (b : List Byte) : (reply s r a b).lan.warnLimit = s.lan.warnLimit := by unfold reply; split <;> rfl
@[simp] theorem reply_lan_tripLimit (s : State) (r : Req) (a : Nat) (b : List Byte) : (reply s r a b).lan.tripLimit = s.lan.tripLimit := by unfold reply; split <;> rfl
@[simp] theorem reply_lan_tripped (s : State) (r : Req) (a : Nat) (b : List Byte) : (reply s r a b).lan.tripped = s.lan.tripped := by unfold reply; split <;> rfl
@[simp] theorem reply_lan_tripCount (s : State) (r : Req) (a : Nat) (b : List Byte) : (reply s r a b).lan.tripCount = s.lan.tripCount := by unfold reply; split <;> rfl
@[simp] theorem reply_lan_warnCount (s : State) (r : Req) (a : Nat) (b : List Byte) : (reply s r a b).lan.warnCount = s.lan.warnCount := by unfold reply; split <;> rfl
@[simp] theorem reply_lan_thermtrip (s : State) (r : Req) (a : Nat) (b : List Byte) : (reply s r a b).lan.thermtrip = s.lan.thermtrip := by unfold reply; split <;> rfl
@[simp] theorem reply_lan_lastTemp (s : State) (r : Req) (a : Nat) (b : List Byte) : (reply s r a b).lan.lastTemp = s.lan.lastTemp := by unfold reply; split <;> rfl
@[simp] theorem reply_lan_vcoreSet (s : State) (r : Req) (a : Nat) (b : List Byte) : (reply s r a b).lan.vcoreSet = s.lan.vcoreSet := by unfold reply; split <;> rfl
@[simp] theorem reply_lan_vcoreSent (s : State) (r : Req) (a : Nat) (b : List Byte) : (reply s r a b).lan.vcoreSent = s.lan.vcoreSent := by unfold reply; split <;> rfl
@[simp] theorem reply_lan_vcoreRead (s : State) (r : Req) (a : Nat) (b : List Byte) : (reply s r a b).lan.vcoreRead = s.lan.vcoreRead := by unfold reply; split <;> rfl
@[simp] theorem reply_lan_ioutRead (s : State) (r : Req) (a : Nat) (b : List Byte) : (reply s r a b).lan.ioutRead = s.lan.ioutRead := by unfold reply; split <;> rfl
@[simp] theorem reply_lan_lastAvs (s : State) (r : Req) (a : Nat) (b : List Byte) : (reply s r a b).lan.lastAvs = s.lan.lastAvs := by unfold reply; split <;> rfl
@[simp] theorem reply_lan_lowSince (s : State) (r : Req) (a : Nat) (b : List Byte) : (reply s r a b).lan.lowSince = s.lan.lowSince := by unfold reply; split <;> rfl
@[simp] theorem reply_lan_goodSince (s : State) (r : Req) (a : Nat) (b : List Byte) : (reply s r a b).lan.goodSince = s.lan.goodSince := by unfold reply; split <;> rfl
@[simp] theorem reply_lan_stopped (s : State) (r : Req) (a : Nat) (b : List Byte) : (reply s r a b).lan.stopped = s.lan.stopped := by unfold reply; split <;> rfl
@[simp] theorem reply_lan_freezes (s : State) (r : Req) (a : Nat) (b : List Byte) : (reply s r a b).lan.freezes = s.lan.freezes := by unfold reply; split <;> rfl
@[simp] theorem reply_lan_stops (s : State) (r : Req) (a : Nat) (b : List Byte) : (reply s r a b).lan.stops = s.lan.stops := by unfold reply; split <;> rfl
@[simp] theorem reply_lan_powerReq (s : State) (r : Req) (a : Nat) (b : List Byte) : (reply s r a b).lan.powerReq = s.lan.powerReq := by unfold reply; split <;> rfl
@[simp] theorem reply_lan_idleSince (s : State) (r : Req) (a : Nat) (b : List Byte) : (reply s r a b).lan.idleSince = s.lan.idleSince := by unfold reply; split <;> rfl
@[simp] theorem reply_lan_transition (s : State) (r : Req) (a : Nat) (b : List Byte) : (reply s r a b).lan.transition = s.lan.transition := by unfold reply; split <;> rfl
@[simp] theorem reply_lan_dieRev (s : State) (r : Req) (a : Nat) (b : List Byte) : (reply s r a b).lan.dieRev = s.lan.dieRev := by unfold reply; split <;> rfl
@[simp] theorem reply_lan_traySerial (s : State) (r : Req) (a : Nat) (b : List Byte) : (reply s r a b).lan.traySerial = s.lan.traySerial := by unfold reply; split <;> rfl
@[simp] theorem reply_lan_traySlot (s : State) (r : Req) (a : Nat) (b : List Byte) : (reply s r a b).lan.traySlot = s.lan.traySlot := by unfold reply; split <;> rfl
@[simp] theorem reply_lan_settingSvn (s : State) (r : Req) (a : Nat) (b : List Byte) : (reply s r a b).lan.settingSvn = s.lan.settingSvn := by unfold reply; split <;> rfl
@[simp] theorem reply_lan_fusedSvn (s : State) (r : Req) (a : Nat) (b : List Byte) : (reply s r a b).lan.fusedSvn = s.lan.fusedSvn := by unfold reply; split <;> rfl
@[simp] theorem reply_lan_fusedKeyHash (s : State) (r : Req) (a : Nat) (b : List Byte) : (reply s r a b).lan.fusedKeyHash = s.lan.fusedKeyHash := by unfold reply; split <;> rfl
@[simp] theorem reply_lan_nodeId (s : State) (r : Req) (a : Nat) (b : List Byte) : (reply s r a b).lan.nodeId = s.lan.nodeId := by unfold reply; split <;> rfl
@[simp] theorem reply_lan_nodeInForce (s : State) (r : Req) (a : Nat) (b : List Byte) : (reply s r a b).lan.nodeInForce = s.lan.nodeInForce := by unfold reply; split <;> rfl
@[simp] theorem reply_lan_eventDest (s : State) (r : Req) (a : Nat) (b : List Byte) : (reply s r a b).lan.eventDest = s.lan.eventDest := by unfold reply; split <;> rfl
@[simp] theorem reply_lan_sbFrames (s : State) (r : Req) (a : Nat) (b : List Byte) : (reply s r a b).lan.sbFrames = s.lan.sbFrames := by unfold reply; split <;> rfl
@[simp] theorem reply_lan_sbErrors (s : State) (r : Req) (a : Nat) (b : List Byte) : (reply s r a b).lan.sbErrors = s.lan.sbErrors := by unfold reply; split <;> rfl
@[simp] theorem reply_lan_sbCollisions (s : State) (r : Req) (a : Nat) (b : List Byte) : (reply s r a b).lan.sbCollisions = s.lan.sbCollisions := by unfold reply; split <;> rfl
@[simp] theorem reply_lan_cxlEn (s : State) (r : Req) (a : Nat) (b : List Byte) : (reply s r a b).lan.cxlEn = s.lan.cxlEn := by unfold reply; split <;> rfl
@[simp] theorem reply_lan_eventSeq (s : State) (r : Req) (a : Nat) (b : List Byte) : (reply s r a b).lan.eventSeq = s.lan.eventSeq := by unfold reply; split <;> rfl
@[simp] theorem reply_lan_events (s : State) (r : Req) (a : Nat) (b : List Byte) : (reply s r a b).lan.events = s.lan.events := by unfold reply; split <;> rfl
@[simp] theorem reply_lan_queue (s : State) (r : Req) (a : Nat) (b : List Byte) : (reply s r a b).lan.queue = s.lan.queue := by unfold reply; split <;> rfl
@[simp] theorem reply_lan_nodeDue (s : State) (r : Req) (a : Nat) (b : List Byte) : (reply s r a b).lan.nodeDue = s.lan.nodeDue := by unfold reply; split <;> rfl
@[simp] theorem reply_lan_snaps (s : State) (r : Req) (a : Nat) (b : List Byte) : (reply s r a b).lan.snaps = s.lan.snaps := by unfold reply; split <;> rfl
@[simp] theorem reply_lan_sent (s : State) (r : Req) (a : Nat) (b : List Byte) : (reply s r a b).lan.sent = s.lan.sent := by unfold reply; split <;> rfl
@[simp] theorem reply_lan_imageOffset (s : State) (r : Req) (a : Nat) (b : List Byte) : (reply s r a b).lan.imageOffset = s.lan.imageOffset := by unfold reply; split <;> rfl
@[simp] theorem reply_lan_staging (s : State) (r : Req) (a : Nat) (b : List Byte) : (reply s r a b).lan.staging = s.lan.staging := by unfold reply; split <;> rfl
@[simp] theorem reply_lan_phase (s : State) (r : Req) (a : Nat) (b : List Byte) : (reply s r a b).lan.phase = s.lan.phase := by unfold reply; split <;> rfl
@[simp] theorem reply_lan_image (s : State) (r : Req) (a : Nat) (b : List Byte) : (reply s r a b).lan.image = s.lan.image := by unfold reply; split <;> rfl
@[simp] theorem reply_lan_trust (s : State) (r : Req) (a : Nat) (b : List Byte) : (reply s r a b).lan.trust = s.lan.trust := by unfold reply; split <;> rfl
@[simp] theorem reply_lan_bootNonce (s : State) (r : Req) (a : Nat) (b : List Byte) : (reply s r a b).lan.bootNonce = s.lan.bootNonce := by unfold reply; split <;> rfl
@[simp] theorem reply_lan_lastNonce (s : State) (r : Req) (a : Nat) (b : List Byte) : (reply s r a b).lan.lastNonce = s.lan.lastNonce := by unfold reply; split <;> rfl
@[simp] theorem reply_lan_extentCount (s : State) (r : Req) (a : Nat) (b : List Byte) : (reply s r a b).lan.extentCount = s.lan.extentCount := by unfold reply; split <;> rfl
@[simp] theorem reply_lan_entropyUsed (s : State) (r : Req) (a : Nat) (b : List Byte) : (reply s r a b).lan.entropyUsed = s.lan.entropyUsed := by unfold reply; split <;> rfl
@[simp] theorem reply_lan_crashLog (s : State) (r : Req) (a : Nat) (b : List Byte) : (reply s r a b).lan.crashLog = s.lan.crashLog := by unfold reply; split <;> rfl
@[simp] theorem reply_lan_crashCount (s : State) (r : Req) (a : Nat) (b : List Byte) : (reply s r a b).lan.crashCount = s.lan.crashCount := by unfold reply; split <;> rfl
@[simp] theorem reply_lan_retired (s : State) (r : Req) (a : Nat) (b : List Byte) : (reply s r a b).lan.retired = s.lan.retired := by unfold reply; split <;> rfl
@[simp] theorem reply_lan_quarantine (s : State) (r : Req) (a : Nat) (b : List Byte) : (reply s r a b).lan.quarantine = s.lan.quarantine := by unfold reply; split <;> rfl
@[simp] theorem reply_lan_remounted (s : State) (r : Req) (a : Nat) (b : List Byte) : (reply s r a b).lan.remounted = s.lan.remounted := by unfold reply; split <;> rfl
@[simp] theorem reply_lan_committed (s : State) (r : Req) (a : Nat) (b : List Byte) : (reply s r a b).lan.committed = s.lan.committed := by unfold reply; split <;> rfl
@[simp] theorem reply_lan_configError (s : State) (r : Req) (a : Nat) (b : List Byte) : (reply s r a b).lan.configError = s.lan.configError := by unfold reply; split <;> rfl
@[simp] theorem reply_lan_staged (s : State) (r : Req) (a : Nat) (b : List Byte) : (reply s r a b).lan.staged = s.lan.staged := by unfold reply; split <;> rfl
@[simp] theorem reply_lan_config (s : State) (r : Req) (a : Nat) (b : List Byte) : (reply s r a b).lan.config = s.lan.config := by unfold reply; split <;> rfl
@[simp] theorem reply_lan_t2Units (s : State) (r : Req) (a : Nat) (b : List Byte) : (reply s r a b).lan.t2Units = s.lan.t2Units := by unfold reply; split <;> rfl
@[simp] theorem reply_lan_boardT2 (s : State) (r : Req) (a : Nat) (b : List Byte) : (reply s r a b).lan.boardT2 = s.lan.boardT2 := by unfold reply; split <;> rfl
@[simp] theorem reply_lan_pwrWarn (s : State) (r : Req) (a : Nat) (b : List Byte) : (reply s r a b).lan.pwrWarn = s.lan.pwrWarn := by unfold reply; split <;> rfl

@[simp] theorem countBad_pending (s : State) (r : Req) (a : Nat) : (countBad s r a).pending = s.pending := by unfold countBad; split <;> first | rfl | (split <;> rfl)
@[simp] theorem countBad_now (s : State) (r : Req) (a : Nat) : (countBad s r a).now = s.now := by unfold countBad; split <;> first | rfl | (split <;> rfl)
@[simp] theorem countBad_ory (s : State) (r : Req) (a : Nat) : (countBad s r a).ory = s.ory := by unfold countBad; split <;> first | rfl | (split <;> rfl)
@[simp] theorem countBad_cells (s : State) (r : Req) (a : Nat) : (countBad s r a).cells = s.cells := by unfold countBad; split <;> first | rfl | (split <;> rfl)
@[simp] theorem countBad_lpe (s : State) (r : Req) (a : Nat) : (countBad s r a).lpe = s.lpe := by unfold countBad; split <;> first | rfl | (split <;> rfl)
@[simp] theorem countBad_parures (s : State) (r : Req) (a : Nat) : (countBad s r a).parures = s.parures := by unfold countBad; split <;> first | rfl | (split <;> rfl)
@[simp] theorem countBad_ast (s : State) (r : Req) (a : Nat) : (countBad s r a).ast = s.ast := by unfold countBad; split <;> first | rfl | (split <;> rfl)
@[simp] theorem countBad_smp (s : State) (r : Req) (a : Nat) : (countBad s r a).smp = s.smp := by unfold countBad; split <;> first | rfl | (split <;> rfl)
@[simp] theorem countBad_fil (s : State) (r : Req) (a : Nat) : (countBad s r a).fil = s.fil := by unfold countBad; split <;> first | rfl | (split <;> rfl)
@[simp] theorem countBad_stm (s : State) (r : Req) (a : Nat) : (countBad s r a).stm = s.stm := by unfold countBad; split <;> first | rfl | (split <;> rfl)
@[simp] theorem countBad_lockets (s : State) (r : Req) (a : Nat) : (countBad s r a).lockets = s.lockets := by unfold countBad; split <;> first | rfl | (split <;> rfl)
@[simp] theorem countBad_charms (s : State) (r : Req) (a : Nat) : (countBad s r a).charms = s.charms := by unfold countBad; split <;> first | rfl | (split <;> rfl)
@[simp] theorem countBad_facets (s : State) (r : Req) (a : Nat) : (countBad s r a).facets = s.facets := by unfold countBad; split <;> first | rfl | (split <;> rfl)
@[simp] theorem countBad_keys (s : State) (r : Req) (a : Nat) : (countBad s r a).keys = s.keys := by unfold countBad; split <;> first | rfl | (split <;> rfl)
@[simp] theorem countBad_t1 (s : State) (r : Req) (a : Nat) : (countBad s r a).t1 = s.t1 := by unfold countBad; split <;> first | rfl | (split <;> rfl)
@[simp] theorem countBad_extents (s : State) (r : Req) (a : Nat) : (countBad s r a).extents = s.extents := by unfold countBad; split <;> first | rfl | (split <;> rfl)
@[simp] theorem countBad_hbc (s : State) (r : Req) (a : Nat) : (countBad s r a).hbc = s.hbc := by unfold countBad; split <;> first | rfl | (split <;> rfl)
@[simp] theorem countBad_lpc (s : State) (r : Req) (a : Nat) : (countBad s r a).lpc = s.lpc := by unfold countBad; split <;> first | rfl | (split <;> rfl)
@[simp] theorem countBad_cur (s : State) (r : Req) (a : Nat) : (countBad s r a).cur = s.cur := by unfold countBad; split <;> first | rfl | (split <;> rfl)
@[simp] theorem countBad_bays (s : State) (r : Req) (a : Nat) : (countBad s r a).bays = s.bays := by unfold countBad; split <;> first | rfl | (split <;> rfl)
@[simp] theorem countBad_eph (s : State) (r : Req) (a : Nat) : (countBad s r a).eph = s.eph := by unfold countBad; split <;> first | rfl | (split <;> rfl)
@[simp] theorem countBad_traffic (s : State) (r : Req) (a : Nat) : (countBad s r a).traffic = s.traffic := by unfold countBad; split <;> first | rfl | (split <;> rfl)
@[simp] theorem countBad_colls (s : State) (r : Req) (a : Nat) : (countBad s r a).colls = s.colls := by unfold countBad; split <;> first | rfl | (split <;> rfl)
@[simp] theorem countBad_searches (s : State) (r : Req) (a : Nat) : (countBad s r a).searches = s.searches := by unfold countBad; split <;> first | rfl | (split <;> rfl)
@[simp] theorem countBad_selects (s : State) (r : Req) (a : Nat) : (countBad s r a).selects = s.selects := by unfold countBad; split <;> first | rfl | (split <;> rfl)
@[simp] theorem countBad_sieves (s : State) (r : Req) (a : Nat) : (countBad s r a).sieves = s.sieves := by unfold countBad; split <;> first | rfl | (split <;> rfl)
@[simp] theorem countBad_integ (s : State) (r : Req) (a : Nat) : (countBad s r a).integ = s.integ := by unfold countBad; split <;> first | rfl | (split <;> rfl)
@[simp] theorem countBad_ckpt (s : State) (r : Req) (a : Nat) : (countBad s r a).ckpt = s.ckpt := by unfold countBad; split <;> first | rfl | (split <;> rfl)
@[simp] theorem countBad_hif (s : State) (r : Req) (a : Nat) : (countBad s r a).hif = s.hif := by unfold countBad; split <;> first | rfl | (split <;> rfl)
@[simp] theorem countBad_std (s : State) (r : Req) (a : Nat) : (countBad s r a).std = s.std := by unfold countBad; split <;> first | rfl | (split <;> rfl)
@[simp] theorem countBad_hostMem (s : State) (r : Req) (a : Nat) : (countBad s r a).hostMem = s.hostMem := by unfold countBad; split <;> first | rfl | (split <;> rfl)
@[simp] theorem countBad_replies (s : State) (r : Req) (a : Nat) : (countBad s r a).replies = s.replies := by unfold countBad; split <;> first | rfl | (split <;> rfl)
@[simp] theorem countBad_lan_alwaysOn (s : State) (r : Req) (a : Nat) : (countBad s r a).lan.alwaysOn = s.lan.alwaysOn := by unfold countBad; split <;> first | rfl | (split <;> rfl)
@[simp] theorem countBad_lan_refclk (s : State) (r : Req) (a : Nat) : (countBad s r a).lan.refclk = s.lan.refclk := by unfold countBad; split <;> first | rfl | (split <;> rfl)
@[simp] theorem countBad_lan_coreUp (s : State) (r : Req) (a : Nat) : (countBad s r a).lan.coreUp = s.lan.coreUp := by unfold countBad; split <;> first | rfl | (split <;> rfl)
@[simp] theorem countBad_lan_pgAt (s : State) (r : Req) (a : Nat) : (countBad s r a).lan.pgAt = s.lan.pgAt := by unfold countBad; split <;> first | rfl | (split <;> rfl)
@[simp] theorem countBad_lan_railEn (s : State) (r : Req) (a : Nat) : (countBad s r a).lan.railEn = s.lan.railEn := by unfold countBad; split <;> first | rfl | (split <;> rfl)
@[simp] theorem countBad_lan_railsPg (s : State) (r : Req) (a : Nat) : (countBad s r a).lan.railsPg = s.lan.railsPg := by unfold countBad; split <;> first | rfl | (split <;> rfl)
@[simp] theorem countBad_lan_perst (s : State) (r : Req) (a : Nat) : (countBad s r a).lan.perst = s.lan.perst := by unfold countBad; split <;> first | rfl | (split <;> rfl)
@[simp] theorem countBad_lan_powerUpAt (s : State) (r : Req) (a : Nat) : (countBad s r a).lan.powerUpAt = s.lan.powerUpAt := by unfold countBad; split <;> first | rfl | (split <;> rfl)
@[simp] theorem countBad_lan_power (s : State) (r : Req) (a : Nat) : (countBad s r a).lan.power = s.lan.power := by unfold countBad; split <;> first | rfl | (split <;> rfl)
@[simp] theorem countBad_lan_lastReset (s : State) (r : Req) (a : Nat) : (countBad s r a).lan.lastReset = s.lan.lastReset := by unfold countBad; split <;> first | rfl | (split <;> rfl)
@[simp] theorem countBad_lan_resetCount (s : State) (r : Req) (a : Nat) : (countBad s r a).lan.resetCount = s.lan.resetCount := by unfold countBad; split <;> first | rfl | (split <;> rfl)
@[simp] theorem countBad_lan_resetDue (s : State) (r : Req) (a : Nat) : (countBad s r a).lan.resetDue = s.lan.resetDue := by unfold countBad; split <;> first | rfl | (split <;> rfl)
@[simp] theorem countBad_lan_wdtPeriod (s : State) (r : Req) (a : Nat) : (countBad s r a).lan.wdtPeriod = s.lan.wdtPeriod := by unfold countBad; split <;> first | rfl | (split <;> rfl)
@[simp] theorem countBad_lan_wdtAction (s : State) (r : Req) (a : Nat) : (countBad s r a).lan.wdtAction = s.lan.wdtAction := by unfold countBad; split <;> first | rfl | (split <;> rfl)
@[simp] theorem countBad_lan_wdtExpiries (s : State) (r : Req) (a : Nat) : (countBad s r a).lan.wdtExpiries = s.lan.wdtExpiries := by unfold countBad; split <;> first | rfl | (split <;> rfl)
@[simp] theorem countBad_lan_wdtKick (s : State) (r : Req) (a : Nat) : (countBad s r a).lan.wdtKick = s.lan.wdtKick := by unfold countBad; split <;> first | rfl | (split <;> rfl)
@[simp] theorem countBad_lan_tempMax (s : State) (r : Req) (a : Nat) : (countBad s r a).lan.tempMax = s.lan.tempMax := by unfold countBad; split <;> first | rfl | (split <;> rfl)
@[simp] theorem countBad_lan_tempSensor (s : State) (r : Req) (a : Nat) : (countBad s r a).lan.tempSensor = s.lan.tempSensor := by unfold countBad; split <;> first | rfl | (split <;> rfl)
@[simp] theorem countBad_lan_sensors (s : State) (r : Req) (a : Nat) : (countBad s r a).lan.sensors = s.lan.sensors := by unfold countBad; split <;> first | rfl | (split <;> rfl)
@[simp] theorem countBad_lan_tripRun (s : State) (r : Req) (a : Nat) : (countBad s r a).lan.tripRun = s.lan.tripRun := by unfold countBad; split <;> first | rfl | (split <;> rfl)
@[simp] theorem countBad_lan_warnLimit (s : State) (r : Req) (a : Nat) : (countBad s r a).lan.warnLimit = s.lan.warnLimit := by unfold countBad; split <;> first | rfl | (split <;> rfl)
@[simp] theorem countBad_lan_tripLimit (s : State) (r : Req) (a : Nat) : (countBad s r a).lan.tripLimit = s.lan.tripLimit := by unfold countBad; split <;> first | rfl | (split <;> rfl)
@[simp] theorem countBad_lan_tripped (s : State) (r : Req) (a : Nat) : (countBad s r a).lan.tripped = s.lan.tripped := by unfold countBad; split <;> first | rfl | (split <;> rfl)
@[simp] theorem countBad_lan_tripCount (s : State) (r : Req) (a : Nat) : (countBad s r a).lan.tripCount = s.lan.tripCount := by unfold countBad; split <;> first | rfl | (split <;> rfl)
@[simp] theorem countBad_lan_warnCount (s : State) (r : Req) (a : Nat) : (countBad s r a).lan.warnCount = s.lan.warnCount := by unfold countBad; split <;> first | rfl | (split <;> rfl)
@[simp] theorem countBad_lan_thermtrip (s : State) (r : Req) (a : Nat) : (countBad s r a).lan.thermtrip = s.lan.thermtrip := by unfold countBad; split <;> first | rfl | (split <;> rfl)
@[simp] theorem countBad_lan_lastTemp (s : State) (r : Req) (a : Nat) : (countBad s r a).lan.lastTemp = s.lan.lastTemp := by unfold countBad; split <;> first | rfl | (split <;> rfl)
@[simp] theorem countBad_lan_vcoreSet (s : State) (r : Req) (a : Nat) : (countBad s r a).lan.vcoreSet = s.lan.vcoreSet := by unfold countBad; split <;> first | rfl | (split <;> rfl)
@[simp] theorem countBad_lan_vcoreSent (s : State) (r : Req) (a : Nat) : (countBad s r a).lan.vcoreSent = s.lan.vcoreSent := by unfold countBad; split <;> first | rfl | (split <;> rfl)
@[simp] theorem countBad_lan_vcoreRead (s : State) (r : Req) (a : Nat) : (countBad s r a).lan.vcoreRead = s.lan.vcoreRead := by unfold countBad; split <;> first | rfl | (split <;> rfl)
@[simp] theorem countBad_lan_ioutRead (s : State) (r : Req) (a : Nat) : (countBad s r a).lan.ioutRead = s.lan.ioutRead := by unfold countBad; split <;> first | rfl | (split <;> rfl)
@[simp] theorem countBad_lan_lastAvs (s : State) (r : Req) (a : Nat) : (countBad s r a).lan.lastAvs = s.lan.lastAvs := by unfold countBad; split <;> first | rfl | (split <;> rfl)
@[simp] theorem countBad_lan_lowSince (s : State) (r : Req) (a : Nat) : (countBad s r a).lan.lowSince = s.lan.lowSince := by unfold countBad; split <;> first | rfl | (split <;> rfl)
@[simp] theorem countBad_lan_goodSince (s : State) (r : Req) (a : Nat) : (countBad s r a).lan.goodSince = s.lan.goodSince := by unfold countBad; split <;> first | rfl | (split <;> rfl)
@[simp] theorem countBad_lan_stopped (s : State) (r : Req) (a : Nat) : (countBad s r a).lan.stopped = s.lan.stopped := by unfold countBad; split <;> first | rfl | (split <;> rfl)
@[simp] theorem countBad_lan_freezes (s : State) (r : Req) (a : Nat) : (countBad s r a).lan.freezes = s.lan.freezes := by unfold countBad; split <;> first | rfl | (split <;> rfl)
@[simp] theorem countBad_lan_stops (s : State) (r : Req) (a : Nat) : (countBad s r a).lan.stops = s.lan.stops := by unfold countBad; split <;> first | rfl | (split <;> rfl)
@[simp] theorem countBad_lan_powerReq (s : State) (r : Req) (a : Nat) : (countBad s r a).lan.powerReq = s.lan.powerReq := by unfold countBad; split <;> first | rfl | (split <;> rfl)
@[simp] theorem countBad_lan_idleSince (s : State) (r : Req) (a : Nat) : (countBad s r a).lan.idleSince = s.lan.idleSince := by unfold countBad; split <;> first | rfl | (split <;> rfl)
@[simp] theorem countBad_lan_transition (s : State) (r : Req) (a : Nat) : (countBad s r a).lan.transition = s.lan.transition := by unfold countBad; split <;> first | rfl | (split <;> rfl)
@[simp] theorem countBad_lan_dieRev (s : State) (r : Req) (a : Nat) : (countBad s r a).lan.dieRev = s.lan.dieRev := by unfold countBad; split <;> first | rfl | (split <;> rfl)
@[simp] theorem countBad_lan_traySerial (s : State) (r : Req) (a : Nat) : (countBad s r a).lan.traySerial = s.lan.traySerial := by unfold countBad; split <;> first | rfl | (split <;> rfl)
@[simp] theorem countBad_lan_traySlot (s : State) (r : Req) (a : Nat) : (countBad s r a).lan.traySlot = s.lan.traySlot := by unfold countBad; split <;> first | rfl | (split <;> rfl)
@[simp] theorem countBad_lan_settingSvn (s : State) (r : Req) (a : Nat) : (countBad s r a).lan.settingSvn = s.lan.settingSvn := by unfold countBad; split <;> first | rfl | (split <;> rfl)
@[simp] theorem countBad_lan_fusedSvn (s : State) (r : Req) (a : Nat) : (countBad s r a).lan.fusedSvn = s.lan.fusedSvn := by unfold countBad; split <;> first | rfl | (split <;> rfl)
@[simp] theorem countBad_lan_fusedKeyHash (s : State) (r : Req) (a : Nat) : (countBad s r a).lan.fusedKeyHash = s.lan.fusedKeyHash := by unfold countBad; split <;> first | rfl | (split <;> rfl)
@[simp] theorem countBad_lan_nodeId (s : State) (r : Req) (a : Nat) : (countBad s r a).lan.nodeId = s.lan.nodeId := by unfold countBad; split <;> first | rfl | (split <;> rfl)
@[simp] theorem countBad_lan_nodeInForce (s : State) (r : Req) (a : Nat) : (countBad s r a).lan.nodeInForce = s.lan.nodeInForce := by unfold countBad; split <;> first | rfl | (split <;> rfl)
@[simp] theorem countBad_lan_eventDest (s : State) (r : Req) (a : Nat) : (countBad s r a).lan.eventDest = s.lan.eventDest := by unfold countBad; split <;> first | rfl | (split <;> rfl)
@[simp] theorem countBad_lan_sbFrames (s : State) (r : Req) (a : Nat) : (countBad s r a).lan.sbFrames = s.lan.sbFrames := by unfold countBad; split <;> first | rfl | (split <;> rfl)
@[simp] theorem countBad_lan_sbCollisions (s : State) (r : Req) (a : Nat) : (countBad s r a).lan.sbCollisions = s.lan.sbCollisions := by unfold countBad; split <;> first | rfl | (split <;> rfl)
@[simp] theorem countBad_lan_cxlEn (s : State) (r : Req) (a : Nat) : (countBad s r a).lan.cxlEn = s.lan.cxlEn := by unfold countBad; split <;> first | rfl | (split <;> rfl)
@[simp] theorem countBad_lan_eventSeq (s : State) (r : Req) (a : Nat) : (countBad s r a).lan.eventSeq = s.lan.eventSeq := by unfold countBad; split <;> first | rfl | (split <;> rfl)
@[simp] theorem countBad_lan_events (s : State) (r : Req) (a : Nat) : (countBad s r a).lan.events = s.lan.events := by unfold countBad; split <;> first | rfl | (split <;> rfl)
@[simp] theorem countBad_lan_queue (s : State) (r : Req) (a : Nat) : (countBad s r a).lan.queue = s.lan.queue := by unfold countBad; split <;> first | rfl | (split <;> rfl)
@[simp] theorem countBad_lan_nodeDue (s : State) (r : Req) (a : Nat) : (countBad s r a).lan.nodeDue = s.lan.nodeDue := by unfold countBad; split <;> first | rfl | (split <;> rfl)
@[simp] theorem countBad_lan_snaps (s : State) (r : Req) (a : Nat) : (countBad s r a).lan.snaps = s.lan.snaps := by unfold countBad; split <;> first | rfl | (split <;> rfl)
@[simp] theorem countBad_lan_tx (s : State) (r : Req) (a : Nat) : (countBad s r a).lan.tx = s.lan.tx := by unfold countBad; split <;> first | rfl | (split <;> rfl)
@[simp] theorem countBad_lan_sent (s : State) (r : Req) (a : Nat) : (countBad s r a).lan.sent = s.lan.sent := by unfold countBad; split <;> first | rfl | (split <;> rfl)
@[simp] theorem countBad_lan_mbox (s : State) (r : Req) (a : Nat) : (countBad s r a).lan.mbox = s.lan.mbox := by unfold countBad; split <;> first | rfl | (split <;> rfl)
@[simp] theorem countBad_lan_mboxBusy (s : State) (r : Req) (a : Nat) : (countBad s r a).lan.mboxBusy = s.lan.mboxBusy := by unfold countBad; split <;> first | rfl | (split <;> rfl)
@[simp] theorem countBad_lan_mboxDone (s : State) (r : Req) (a : Nat) : (countBad s r a).lan.mboxDone = s.lan.mboxDone := by unfold countBad; split <;> first | rfl | (split <;> rfl)
@[simp] theorem countBad_lan_imageOffset (s : State) (r : Req) (a : Nat) : (countBad s r a).lan.imageOffset = s.lan.imageOffset := by unfold countBad; split <;> first | rfl | (split <;> rfl)
@[simp] theorem countBad_lan_staging (s : State) (r : Req) (a : Nat) : (countBad s r a).lan.staging = s.lan.staging := by unfold countBad; split <;> first | rfl | (split <;> rfl)
@[simp] theorem countBad_lan_phase (s : State) (r : Req) (a : Nat) : (countBad s r a).lan.phase = s.lan.phase := by unfold countBad; split <;> first | rfl | (split <;> rfl)
@[simp] theorem countBad_lan_image (s : State) (r : Req) (a : Nat) : (countBad s r a).lan.image = s.lan.image := by unfold countBad; split <;> first | rfl | (split <;> rfl)
@[simp] theorem countBad_lan_trust (s : State) (r : Req) (a : Nat) : (countBad s r a).lan.trust = s.lan.trust := by unfold countBad; split <;> first | rfl | (split <;> rfl)
@[simp] theorem countBad_lan_bootNonce (s : State) (r : Req) (a : Nat) : (countBad s r a).lan.bootNonce = s.lan.bootNonce := by unfold countBad; split <;> first | rfl | (split <;> rfl)
@[simp] theorem countBad_lan_lastNonce (s : State) (r : Req) (a : Nat) : (countBad s r a).lan.lastNonce = s.lan.lastNonce := by unfold countBad; split <;> first | rfl | (split <;> rfl)
@[simp] theorem countBad_lan_extentCount (s : State) (r : Req) (a : Nat) : (countBad s r a).lan.extentCount = s.lan.extentCount := by unfold countBad; split <;> first | rfl | (split <;> rfl)
@[simp] theorem countBad_lan_entropyUsed (s : State) (r : Req) (a : Nat) : (countBad s r a).lan.entropyUsed = s.lan.entropyUsed := by unfold countBad; split <;> first | rfl | (split <;> rfl)
@[simp] theorem countBad_lan_crashLog (s : State) (r : Req) (a : Nat) : (countBad s r a).lan.crashLog = s.lan.crashLog := by unfold countBad; split <;> first | rfl | (split <;> rfl)
@[simp] theorem countBad_lan_crashCount (s : State) (r : Req) (a : Nat) : (countBad s r a).lan.crashCount = s.lan.crashCount := by unfold countBad; split <;> first | rfl | (split <;> rfl)
@[simp] theorem countBad_lan_retired (s : State) (r : Req) (a : Nat) : (countBad s r a).lan.retired = s.lan.retired := by unfold countBad; split <;> first | rfl | (split <;> rfl)
@[simp] theorem countBad_lan_quarantine (s : State) (r : Req) (a : Nat) : (countBad s r a).lan.quarantine = s.lan.quarantine := by unfold countBad; split <;> first | rfl | (split <;> rfl)
@[simp] theorem countBad_lan_remounted (s : State) (r : Req) (a : Nat) : (countBad s r a).lan.remounted = s.lan.remounted := by unfold countBad; split <;> first | rfl | (split <;> rfl)
@[simp] theorem countBad_lan_committed (s : State) (r : Req) (a : Nat) : (countBad s r a).lan.committed = s.lan.committed := by unfold countBad; split <;> first | rfl | (split <;> rfl)
@[simp] theorem countBad_lan_configError (s : State) (r : Req) (a : Nat) : (countBad s r a).lan.configError = s.lan.configError := by unfold countBad; split <;> first | rfl | (split <;> rfl)
@[simp] theorem countBad_lan_staged (s : State) (r : Req) (a : Nat) : (countBad s r a).lan.staged = s.lan.staged := by unfold countBad; split <;> first | rfl | (split <;> rfl)
@[simp] theorem countBad_lan_config (s : State) (r : Req) (a : Nat) : (countBad s r a).lan.config = s.lan.config := by unfold countBad; split <;> first | rfl | (split <;> rfl)
@[simp] theorem countBad_lan_t2Units (s : State) (r : Req) (a : Nat) : (countBad s r a).lan.t2Units = s.lan.t2Units := by unfold countBad; split <;> first | rfl | (split <;> rfl)
@[simp] theorem countBad_lan_boardT2 (s : State) (r : Req) (a : Nat) : (countBad s r a).lan.boardT2 = s.lan.boardT2 := by unfold countBad; split <;> first | rfl | (split <;> rfl)
@[simp] theorem countBad_lan_pwrWarn (s : State) (r : Req) (a : Nat) : (countBad s r a).lan.pwrWarn = s.lan.pwrWarn := by unfold countBad; split <;> first | rfl | (split <;> rfl)

@[simp] theorem answerReq_pending (s : State) (r : Req) (a : Nat) : (answerReq s r a).pending = s.pending := by unfold answerReq respond pop; simp
@[simp] theorem answerReq_now (s : State) (r : Req) (a : Nat) : (answerReq s r a).now = s.now := by unfold answerReq respond pop; simp
@[simp] theorem answerReq_ory (s : State) (r : Req) (a : Nat) : (answerReq s r a).ory = s.ory := by unfold answerReq respond pop; simp
@[simp] theorem answerReq_cells (s : State) (r : Req) (a : Nat) : (answerReq s r a).cells = s.cells := by unfold answerReq respond pop; simp
@[simp] theorem answerReq_lpe (s : State) (r : Req) (a : Nat) : (answerReq s r a).lpe = s.lpe := by unfold answerReq respond pop; simp
@[simp] theorem answerReq_parures (s : State) (r : Req) (a : Nat) : (answerReq s r a).parures = s.parures := by unfold answerReq respond pop; simp
@[simp] theorem answerReq_ast (s : State) (r : Req) (a : Nat) : (answerReq s r a).ast = s.ast := by unfold answerReq respond pop; simp
@[simp] theorem answerReq_smp (s : State) (r : Req) (a : Nat) : (answerReq s r a).smp = s.smp := by unfold answerReq respond pop; simp
@[simp] theorem answerReq_fil (s : State) (r : Req) (a : Nat) : (answerReq s r a).fil = s.fil := by unfold answerReq respond pop; simp
@[simp] theorem answerReq_stm (s : State) (r : Req) (a : Nat) : (answerReq s r a).stm = s.stm := by unfold answerReq respond pop; simp
@[simp] theorem answerReq_lockets (s : State) (r : Req) (a : Nat) : (answerReq s r a).lockets = s.lockets := by unfold answerReq respond pop; simp
@[simp] theorem answerReq_charms (s : State) (r : Req) (a : Nat) : (answerReq s r a).charms = s.charms := by unfold answerReq respond pop; simp
@[simp] theorem answerReq_facets (s : State) (r : Req) (a : Nat) : (answerReq s r a).facets = s.facets := by unfold answerReq respond pop; simp
@[simp] theorem answerReq_keys (s : State) (r : Req) (a : Nat) : (answerReq s r a).keys = s.keys := by unfold answerReq respond pop; simp
@[simp] theorem answerReq_t1 (s : State) (r : Req) (a : Nat) : (answerReq s r a).t1 = s.t1 := by unfold answerReq respond pop; simp
@[simp] theorem answerReq_extents (s : State) (r : Req) (a : Nat) : (answerReq s r a).extents = s.extents := by unfold answerReq respond pop; simp
@[simp] theorem answerReq_hbc (s : State) (r : Req) (a : Nat) : (answerReq s r a).hbc = s.hbc := by unfold answerReq respond pop; simp
@[simp] theorem answerReq_lpc (s : State) (r : Req) (a : Nat) : (answerReq s r a).lpc = s.lpc := by unfold answerReq respond pop; simp
@[simp] theorem answerReq_cur (s : State) (r : Req) (a : Nat) : (answerReq s r a).cur = s.cur := by unfold answerReq respond pop; simp
@[simp] theorem answerReq_bays (s : State) (r : Req) (a : Nat) : (answerReq s r a).bays = s.bays := by unfold answerReq respond pop; simp
@[simp] theorem answerReq_eph (s : State) (r : Req) (a : Nat) : (answerReq s r a).eph = s.eph := by unfold answerReq respond pop; simp
@[simp] theorem answerReq_traffic (s : State) (r : Req) (a : Nat) : (answerReq s r a).traffic = s.traffic := by unfold answerReq respond pop; simp
@[simp] theorem answerReq_colls (s : State) (r : Req) (a : Nat) : (answerReq s r a).colls = s.colls := by unfold answerReq respond pop; simp
@[simp] theorem answerReq_searches (s : State) (r : Req) (a : Nat) : (answerReq s r a).searches = s.searches := by unfold answerReq respond pop; simp
@[simp] theorem answerReq_selects (s : State) (r : Req) (a : Nat) : (answerReq s r a).selects = s.selects := by unfold answerReq respond pop; simp
@[simp] theorem answerReq_sieves (s : State) (r : Req) (a : Nat) : (answerReq s r a).sieves = s.sieves := by unfold answerReq respond pop; simp
@[simp] theorem answerReq_integ (s : State) (r : Req) (a : Nat) : (answerReq s r a).integ = s.integ := by unfold answerReq respond pop; simp
@[simp] theorem answerReq_ckpt (s : State) (r : Req) (a : Nat) : (answerReq s r a).ckpt = s.ckpt := by unfold answerReq respond pop; simp
@[simp] theorem answerReq_hif (s : State) (r : Req) (a : Nat) : (answerReq s r a).hif = s.hif := by unfold answerReq respond pop; simp
@[simp] theorem answerReq_std (s : State) (r : Req) (a : Nat) : (answerReq s r a).std = s.std := by unfold answerReq respond pop; simp
@[simp] theorem answerReq_hostMem (s : State) (r : Req) (a : Nat) : (answerReq s r a).hostMem = s.hostMem := by unfold answerReq respond pop; simp
@[simp] theorem answerReq_replies (s : State) (r : Req) (a : Nat) : (answerReq s r a).replies = s.replies := by unfold answerReq respond pop; simp
@[simp] theorem answerReq_lan_alwaysOn (s : State) (r : Req) (a : Nat) : (answerReq s r a).lan.alwaysOn = s.lan.alwaysOn := by unfold answerReq respond pop; simp
@[simp] theorem answerReq_lan_refclk (s : State) (r : Req) (a : Nat) : (answerReq s r a).lan.refclk = s.lan.refclk := by unfold answerReq respond pop; simp
@[simp] theorem answerReq_lan_coreUp (s : State) (r : Req) (a : Nat) : (answerReq s r a).lan.coreUp = s.lan.coreUp := by unfold answerReq respond pop; simp
@[simp] theorem answerReq_lan_pgAt (s : State) (r : Req) (a : Nat) : (answerReq s r a).lan.pgAt = s.lan.pgAt := by unfold answerReq respond pop; simp
@[simp] theorem answerReq_lan_railEn (s : State) (r : Req) (a : Nat) : (answerReq s r a).lan.railEn = s.lan.railEn := by unfold answerReq respond pop; simp
@[simp] theorem answerReq_lan_railsPg (s : State) (r : Req) (a : Nat) : (answerReq s r a).lan.railsPg = s.lan.railsPg := by unfold answerReq respond pop; simp
@[simp] theorem answerReq_lan_perst (s : State) (r : Req) (a : Nat) : (answerReq s r a).lan.perst = s.lan.perst := by unfold answerReq respond pop; simp
@[simp] theorem answerReq_lan_powerUpAt (s : State) (r : Req) (a : Nat) : (answerReq s r a).lan.powerUpAt = s.lan.powerUpAt := by unfold answerReq respond pop; simp
@[simp] theorem answerReq_lan_power (s : State) (r : Req) (a : Nat) : (answerReq s r a).lan.power = s.lan.power := by unfold answerReq respond pop; simp
@[simp] theorem answerReq_lan_lastReset (s : State) (r : Req) (a : Nat) : (answerReq s r a).lan.lastReset = s.lan.lastReset := by unfold answerReq respond pop; simp
@[simp] theorem answerReq_lan_resetCount (s : State) (r : Req) (a : Nat) : (answerReq s r a).lan.resetCount = s.lan.resetCount := by unfold answerReq respond pop; simp
@[simp] theorem answerReq_lan_resetDue (s : State) (r : Req) (a : Nat) : (answerReq s r a).lan.resetDue = s.lan.resetDue := by unfold answerReq respond pop; simp
@[simp] theorem answerReq_lan_wdtPeriod (s : State) (r : Req) (a : Nat) : (answerReq s r a).lan.wdtPeriod = s.lan.wdtPeriod := by unfold answerReq respond pop; simp
@[simp] theorem answerReq_lan_wdtAction (s : State) (r : Req) (a : Nat) : (answerReq s r a).lan.wdtAction = s.lan.wdtAction := by unfold answerReq respond pop; simp
@[simp] theorem answerReq_lan_wdtExpiries (s : State) (r : Req) (a : Nat) : (answerReq s r a).lan.wdtExpiries = s.lan.wdtExpiries := by unfold answerReq respond pop; simp
@[simp] theorem answerReq_lan_wdtKick (s : State) (r : Req) (a : Nat) : (answerReq s r a).lan.wdtKick = s.lan.wdtKick := by unfold answerReq respond pop; simp
@[simp] theorem answerReq_lan_tempMax (s : State) (r : Req) (a : Nat) : (answerReq s r a).lan.tempMax = s.lan.tempMax := by unfold answerReq respond pop; simp
@[simp] theorem answerReq_lan_tempSensor (s : State) (r : Req) (a : Nat) : (answerReq s r a).lan.tempSensor = s.lan.tempSensor := by unfold answerReq respond pop; simp
@[simp] theorem answerReq_lan_sensors (s : State) (r : Req) (a : Nat) : (answerReq s r a).lan.sensors = s.lan.sensors := by unfold answerReq respond pop; simp
@[simp] theorem answerReq_lan_tripRun (s : State) (r : Req) (a : Nat) : (answerReq s r a).lan.tripRun = s.lan.tripRun := by unfold answerReq respond pop; simp
@[simp] theorem answerReq_lan_warnLimit (s : State) (r : Req) (a : Nat) : (answerReq s r a).lan.warnLimit = s.lan.warnLimit := by unfold answerReq respond pop; simp
@[simp] theorem answerReq_lan_tripLimit (s : State) (r : Req) (a : Nat) : (answerReq s r a).lan.tripLimit = s.lan.tripLimit := by unfold answerReq respond pop; simp
@[simp] theorem answerReq_lan_tripped (s : State) (r : Req) (a : Nat) : (answerReq s r a).lan.tripped = s.lan.tripped := by unfold answerReq respond pop; simp
@[simp] theorem answerReq_lan_tripCount (s : State) (r : Req) (a : Nat) : (answerReq s r a).lan.tripCount = s.lan.tripCount := by unfold answerReq respond pop; simp
@[simp] theorem answerReq_lan_warnCount (s : State) (r : Req) (a : Nat) : (answerReq s r a).lan.warnCount = s.lan.warnCount := by unfold answerReq respond pop; simp
@[simp] theorem answerReq_lan_thermtrip (s : State) (r : Req) (a : Nat) : (answerReq s r a).lan.thermtrip = s.lan.thermtrip := by unfold answerReq respond pop; simp
@[simp] theorem answerReq_lan_lastTemp (s : State) (r : Req) (a : Nat) : (answerReq s r a).lan.lastTemp = s.lan.lastTemp := by unfold answerReq respond pop; simp
@[simp] theorem answerReq_lan_vcoreSet (s : State) (r : Req) (a : Nat) : (answerReq s r a).lan.vcoreSet = s.lan.vcoreSet := by unfold answerReq respond pop; simp
@[simp] theorem answerReq_lan_vcoreSent (s : State) (r : Req) (a : Nat) : (answerReq s r a).lan.vcoreSent = s.lan.vcoreSent := by unfold answerReq respond pop; simp
@[simp] theorem answerReq_lan_vcoreRead (s : State) (r : Req) (a : Nat) : (answerReq s r a).lan.vcoreRead = s.lan.vcoreRead := by unfold answerReq respond pop; simp
@[simp] theorem answerReq_lan_ioutRead (s : State) (r : Req) (a : Nat) : (answerReq s r a).lan.ioutRead = s.lan.ioutRead := by unfold answerReq respond pop; simp
@[simp] theorem answerReq_lan_lastAvs (s : State) (r : Req) (a : Nat) : (answerReq s r a).lan.lastAvs = s.lan.lastAvs := by unfold answerReq respond pop; simp
@[simp] theorem answerReq_lan_lowSince (s : State) (r : Req) (a : Nat) : (answerReq s r a).lan.lowSince = s.lan.lowSince := by unfold answerReq respond pop; simp
@[simp] theorem answerReq_lan_goodSince (s : State) (r : Req) (a : Nat) : (answerReq s r a).lan.goodSince = s.lan.goodSince := by unfold answerReq respond pop; simp
@[simp] theorem answerReq_lan_stopped (s : State) (r : Req) (a : Nat) : (answerReq s r a).lan.stopped = s.lan.stopped := by unfold answerReq respond pop; simp
@[simp] theorem answerReq_lan_freezes (s : State) (r : Req) (a : Nat) : (answerReq s r a).lan.freezes = s.lan.freezes := by unfold answerReq respond pop; simp
@[simp] theorem answerReq_lan_stops (s : State) (r : Req) (a : Nat) : (answerReq s r a).lan.stops = s.lan.stops := by unfold answerReq respond pop; simp
@[simp] theorem answerReq_lan_powerReq (s : State) (r : Req) (a : Nat) : (answerReq s r a).lan.powerReq = s.lan.powerReq := by unfold answerReq respond pop; simp
@[simp] theorem answerReq_lan_idleSince (s : State) (r : Req) (a : Nat) : (answerReq s r a).lan.idleSince = s.lan.idleSince := by unfold answerReq respond pop; simp
@[simp] theorem answerReq_lan_transition (s : State) (r : Req) (a : Nat) : (answerReq s r a).lan.transition = s.lan.transition := by unfold answerReq respond pop; simp
@[simp] theorem answerReq_lan_dieRev (s : State) (r : Req) (a : Nat) : (answerReq s r a).lan.dieRev = s.lan.dieRev := by unfold answerReq respond pop; simp
@[simp] theorem answerReq_lan_traySerial (s : State) (r : Req) (a : Nat) : (answerReq s r a).lan.traySerial = s.lan.traySerial := by unfold answerReq respond pop; simp
@[simp] theorem answerReq_lan_traySlot (s : State) (r : Req) (a : Nat) : (answerReq s r a).lan.traySlot = s.lan.traySlot := by unfold answerReq respond pop; simp
@[simp] theorem answerReq_lan_settingSvn (s : State) (r : Req) (a : Nat) : (answerReq s r a).lan.settingSvn = s.lan.settingSvn := by unfold answerReq respond pop; simp
@[simp] theorem answerReq_lan_fusedSvn (s : State) (r : Req) (a : Nat) : (answerReq s r a).lan.fusedSvn = s.lan.fusedSvn := by unfold answerReq respond pop; simp
@[simp] theorem answerReq_lan_fusedKeyHash (s : State) (r : Req) (a : Nat) : (answerReq s r a).lan.fusedKeyHash = s.lan.fusedKeyHash := by unfold answerReq respond pop; simp
@[simp] theorem answerReq_lan_nodeId (s : State) (r : Req) (a : Nat) : (answerReq s r a).lan.nodeId = s.lan.nodeId := by unfold answerReq respond pop; simp
@[simp] theorem answerReq_lan_nodeInForce (s : State) (r : Req) (a : Nat) : (answerReq s r a).lan.nodeInForce = s.lan.nodeInForce := by unfold answerReq respond pop; simp
@[simp] theorem answerReq_lan_eventDest (s : State) (r : Req) (a : Nat) : (answerReq s r a).lan.eventDest = s.lan.eventDest := by unfold answerReq respond pop; simp
@[simp] theorem answerReq_lan_sbFrames (s : State) (r : Req) (a : Nat) : (answerReq s r a).lan.sbFrames = s.lan.sbFrames := by unfold answerReq respond pop; simp
@[simp] theorem answerReq_lan_sbCollisions (s : State) (r : Req) (a : Nat) : (answerReq s r a).lan.sbCollisions = s.lan.sbCollisions := by unfold answerReq respond pop; simp
@[simp] theorem answerReq_lan_cxlEn (s : State) (r : Req) (a : Nat) : (answerReq s r a).lan.cxlEn = s.lan.cxlEn := by unfold answerReq respond pop; simp
@[simp] theorem answerReq_lan_eventSeq (s : State) (r : Req) (a : Nat) : (answerReq s r a).lan.eventSeq = s.lan.eventSeq := by unfold answerReq respond pop; simp
@[simp] theorem answerReq_lan_events (s : State) (r : Req) (a : Nat) : (answerReq s r a).lan.events = s.lan.events := by unfold answerReq respond pop; simp
@[simp] theorem answerReq_lan_nodeDue (s : State) (r : Req) (a : Nat) : (answerReq s r a).lan.nodeDue = s.lan.nodeDue := by unfold answerReq respond pop; simp
@[simp] theorem answerReq_lan_snaps (s : State) (r : Req) (a : Nat) : (answerReq s r a).lan.snaps = s.lan.snaps := by unfold answerReq respond pop; simp
@[simp] theorem answerReq_lan_sent (s : State) (r : Req) (a : Nat) : (answerReq s r a).lan.sent = s.lan.sent := by unfold answerReq respond pop; simp
@[simp] theorem answerReq_lan_imageOffset (s : State) (r : Req) (a : Nat) : (answerReq s r a).lan.imageOffset = s.lan.imageOffset := by unfold answerReq respond pop; simp
@[simp] theorem answerReq_lan_staging (s : State) (r : Req) (a : Nat) : (answerReq s r a).lan.staging = s.lan.staging := by unfold answerReq respond pop; simp
@[simp] theorem answerReq_lan_phase (s : State) (r : Req) (a : Nat) : (answerReq s r a).lan.phase = s.lan.phase := by unfold answerReq respond pop; simp
@[simp] theorem answerReq_lan_image (s : State) (r : Req) (a : Nat) : (answerReq s r a).lan.image = s.lan.image := by unfold answerReq respond pop; simp
@[simp] theorem answerReq_lan_trust (s : State) (r : Req) (a : Nat) : (answerReq s r a).lan.trust = s.lan.trust := by unfold answerReq respond pop; simp
@[simp] theorem answerReq_lan_bootNonce (s : State) (r : Req) (a : Nat) : (answerReq s r a).lan.bootNonce = s.lan.bootNonce := by unfold answerReq respond pop; simp
@[simp] theorem answerReq_lan_lastNonce (s : State) (r : Req) (a : Nat) : (answerReq s r a).lan.lastNonce = s.lan.lastNonce := by unfold answerReq respond pop; simp
@[simp] theorem answerReq_lan_extentCount (s : State) (r : Req) (a : Nat) : (answerReq s r a).lan.extentCount = s.lan.extentCount := by unfold answerReq respond pop; simp
@[simp] theorem answerReq_lan_entropyUsed (s : State) (r : Req) (a : Nat) : (answerReq s r a).lan.entropyUsed = s.lan.entropyUsed := by unfold answerReq respond pop; simp
@[simp] theorem answerReq_lan_crashLog (s : State) (r : Req) (a : Nat) : (answerReq s r a).lan.crashLog = s.lan.crashLog := by unfold answerReq respond pop; simp
@[simp] theorem answerReq_lan_crashCount (s : State) (r : Req) (a : Nat) : (answerReq s r a).lan.crashCount = s.lan.crashCount := by unfold answerReq respond pop; simp
@[simp] theorem answerReq_lan_retired (s : State) (r : Req) (a : Nat) : (answerReq s r a).lan.retired = s.lan.retired := by unfold answerReq respond pop; simp
@[simp] theorem answerReq_lan_quarantine (s : State) (r : Req) (a : Nat) : (answerReq s r a).lan.quarantine = s.lan.quarantine := by unfold answerReq respond pop; simp
@[simp] theorem answerReq_lan_remounted (s : State) (r : Req) (a : Nat) : (answerReq s r a).lan.remounted = s.lan.remounted := by unfold answerReq respond pop; simp
@[simp] theorem answerReq_lan_committed (s : State) (r : Req) (a : Nat) : (answerReq s r a).lan.committed = s.lan.committed := by unfold answerReq respond pop; simp
@[simp] theorem answerReq_lan_configError (s : State) (r : Req) (a : Nat) : (answerReq s r a).lan.configError = s.lan.configError := by unfold answerReq respond pop; simp
@[simp] theorem answerReq_lan_staged (s : State) (r : Req) (a : Nat) : (answerReq s r a).lan.staged = s.lan.staged := by unfold answerReq respond pop; simp
@[simp] theorem answerReq_lan_config (s : State) (r : Req) (a : Nat) : (answerReq s r a).lan.config = s.lan.config := by unfold answerReq respond pop; simp
@[simp] theorem answerReq_lan_t2Units (s : State) (r : Req) (a : Nat) : (answerReq s r a).lan.t2Units = s.lan.t2Units := by unfold answerReq respond pop; simp
@[simp] theorem answerReq_lan_boardT2 (s : State) (r : Req) (a : Nat) : (answerReq s r a).lan.boardT2 = s.lan.boardT2 := by unfold answerReq respond pop; simp
@[simp] theorem answerReq_lan_pwrWarn (s : State) (r : Req) (a : Nat) : (answerReq s r a).lan.pwrWarn = s.lan.pwrWarn := by unfold answerReq respond pop; simp

@[simp] theorem stdEvent_pending (s : State) (b : Nat) : (stdEvent s b).pending = s.pending := rfl
@[simp] theorem stdEvent_now (s : State) (b : Nat) : (stdEvent s b).now = s.now := rfl
@[simp] theorem stdEvent_ory (s : State) (b : Nat) : (stdEvent s b).ory = s.ory := rfl
@[simp] theorem stdEvent_cells (s : State) (b : Nat) : (stdEvent s b).cells = s.cells := rfl
@[simp] theorem stdEvent_lpe (s : State) (b : Nat) : (stdEvent s b).lpe = s.lpe := rfl
@[simp] theorem stdEvent_parures (s : State) (b : Nat) : (stdEvent s b).parures = s.parures := rfl
@[simp] theorem stdEvent_ast (s : State) (b : Nat) : (stdEvent s b).ast = s.ast := rfl
@[simp] theorem stdEvent_smp (s : State) (b : Nat) : (stdEvent s b).smp = s.smp := rfl
@[simp] theorem stdEvent_fil (s : State) (b : Nat) : (stdEvent s b).fil = s.fil := rfl
@[simp] theorem stdEvent_stm (s : State) (b : Nat) : (stdEvent s b).stm = s.stm := rfl
@[simp] theorem stdEvent_lockets (s : State) (b : Nat) : (stdEvent s b).lockets = s.lockets := rfl
@[simp] theorem stdEvent_charms (s : State) (b : Nat) : (stdEvent s b).charms = s.charms := rfl
@[simp] theorem stdEvent_facets (s : State) (b : Nat) : (stdEvent s b).facets = s.facets := rfl
@[simp] theorem stdEvent_keys (s : State) (b : Nat) : (stdEvent s b).keys = s.keys := rfl
@[simp] theorem stdEvent_t1 (s : State) (b : Nat) : (stdEvent s b).t1 = s.t1 := rfl
@[simp] theorem stdEvent_extents (s : State) (b : Nat) : (stdEvent s b).extents = s.extents := rfl
@[simp] theorem stdEvent_hbc (s : State) (b : Nat) : (stdEvent s b).hbc = s.hbc := rfl
@[simp] theorem stdEvent_lpc (s : State) (b : Nat) : (stdEvent s b).lpc = s.lpc := rfl
@[simp] theorem stdEvent_cur (s : State) (b : Nat) : (stdEvent s b).cur = s.cur := rfl
@[simp] theorem stdEvent_bays (s : State) (b : Nat) : (stdEvent s b).bays = s.bays := rfl
@[simp] theorem stdEvent_eph (s : State) (b : Nat) : (stdEvent s b).eph = s.eph := rfl
@[simp] theorem stdEvent_traffic (s : State) (b : Nat) : (stdEvent s b).traffic = s.traffic := rfl
@[simp] theorem stdEvent_colls (s : State) (b : Nat) : (stdEvent s b).colls = s.colls := rfl
@[simp] theorem stdEvent_searches (s : State) (b : Nat) : (stdEvent s b).searches = s.searches := rfl
@[simp] theorem stdEvent_selects (s : State) (b : Nat) : (stdEvent s b).selects = s.selects := rfl
@[simp] theorem stdEvent_sieves (s : State) (b : Nat) : (stdEvent s b).sieves = s.sieves := rfl
@[simp] theorem stdEvent_integ (s : State) (b : Nat) : (stdEvent s b).integ = s.integ := rfl
@[simp] theorem stdEvent_ckpt (s : State) (b : Nat) : (stdEvent s b).ckpt = s.ckpt := rfl
@[simp] theorem stdEvent_hif (s : State) (b : Nat) : (stdEvent s b).hif = s.hif := rfl
@[simp] theorem stdEvent_lan (s : State) (b : Nat) : (stdEvent s b).lan = s.lan := rfl
@[simp] theorem stdEvent_hostMem (s : State) (b : Nat) : (stdEvent s b).hostMem = s.hostMem := rfl
@[simp] theorem stdEvent_replies (s : State) (b : Nat) : (stdEvent s b).replies = s.replies := rfl
@[simp] theorem stdEvent_std_routeEn (s : State) (b : Nat) : (stdEvent s b).std.routeEn = s.std.routeEn := rfl
@[simp] theorem stdEvent_std_tail (s : State) (b : Nat) : (stdEvent s b).std.tail = s.std.tail := rfl
@[simp] theorem stdEvent_std_mode (s : State) (b : Nat) : (stdEvent s b).std.mode = s.std.mode := rfl
@[simp] theorem stdEvent_std_count (s : State) (b : Nat) : (stdEvent s b).std.count = s.std.count := rfl
@[simp] theorem stdEvent_std_position (s : State) (b : Nat) : (stdEvent s b).std.position = s.std.position := rfl
@[simp] theorem stdEvent_std_enumLow (s : State) (b : Nat) : (stdEvent s b).std.enumLow = s.std.enumLow := rfl
@[simp] theorem stdEvent_std_lastWord (s : State) (b : Nat) : (stdEvent s b).std.lastWord = s.std.lastWord := rfl
@[simp] theorem stdEvent_std_adoptedAt (s : State) (b : Nat) : (stdEvent s b).std.adoptedAt = s.std.adoptedAt := rfl
@[simp] theorem stdEvent_std_lastEnum (s : State) (b : Nat) : (stdEvent s b).std.lastEnum = s.std.lastEnum := rfl
@[simp] theorem stdEvent_std_enumOut (s : State) (b : Nat) : (stdEvent s b).std.enumOut = s.std.enumOut := rfl
@[simp] theorem stdEvent_std_countSent (s : State) (b : Nat) : (stdEvent s b).std.countSent = s.std.countSent := rfl
@[simp] theorem stdEvent_std_epoch (s : State) (b : Nat) : (stdEvent s b).std.epoch = s.std.epoch := rfl
@[simp] theorem stdEvent_std_prepared (s : State) (b : Nat) : (stdEvent s b).std.prepared = s.std.prepared := rfl
@[simp] theorem stdEvent_std_members (s : State) (b : Nat) : (stdEvent s b).std.members = s.std.members := rfl
@[simp] theorem stdEvent_std_membersLatch (s : State) (b : Nat) : (stdEvent s b).std.membersLatch = s.std.membersLatch := rfl
@[simp] theorem stdEvent_std_buddy (s : State) (b : Nat) : (stdEvent s b).std.buddy = s.std.buddy := rfl
@[simp] theorem stdEvent_std_deviceId (s : State) (b : Nat) : (stdEvent s b).std.deviceId = s.std.deviceId := rfl
@[simp] theorem stdEvent_std_devidLatch (s : State) (b : Nat) : (stdEvent s b).std.devidLatch = s.std.devidLatch := rfl
@[simp] theorem stdEvent_std_hostMode (s : State) (b : Nat) : (stdEvent s b).std.hostMode = s.std.hostMode := rfl
@[simp] theorem stdEvent_std_modeInForce (s : State) (b : Nat) : (stdEvent s b).std.modeInForce = s.std.modeInForce := rfl
@[simp] theorem stdEvent_std_offset (s : State) (b : Nat) : (stdEvent s b).std.offset = s.std.offset := rfl
@[simp] theorem stdEvent_std_offsetLatch (s : State) (b : Nat) : (stdEvent s b).std.offsetLatch = s.std.offsetLatch := rfl
@[simp] theorem stdEvent_std_lastBeacon (s : State) (b : Nat) : (stdEvent s b).std.lastBeacon = s.std.lastBeacon := rfl
@[simp] theorem stdEvent_std_seenSeq (s : State) (b : Nat) : (stdEvent s b).std.seenSeq = s.std.seenSeq := rfl
@[simp] theorem stdEvent_std_nextSeq (s : State) (b : Nat) : (stdEvent s b).std.nextSeq = s.std.nextSeq := rfl
@[simp] theorem stdEvent_std_lastSent (s : State) (b : Nat) : (stdEvent s b).std.lastSent = s.std.lastSent := rfl
@[simp] theorem stdEvent_std_beaconFrame (s : State) (b : Nat) : (stdEvent s b).std.beaconFrame = s.std.beaconFrame := rfl
@[simp] theorem stdEvent_std_beaconMeridian (s : State) (b : Nat) : (stdEvent s b).std.beaconMeridian = s.std.beaconMeridian := rfl
@[simp] theorem stdEvent_std_frameAt (s : State) (b : Nat) : (stdEvent s b).std.frameAt = s.std.frameAt := rfl
@[simp] theorem stdEvent_std_timeFrom (s : State) (b : Nat) : (stdEvent s b).std.timeFrom = s.std.timeFrom := rfl
@[simp] theorem stdEvent_std_unroutable (s : State) (b : Nat) : (stdEvent s b).std.unroutable = s.std.unroutable := rfl
@[simp] theorem stdEvent_std_staleSent (s : State) (b : Nat) : (stdEvent s b).std.staleSent = s.std.staleSent := rfl
@[simp] theorem stdEvent_std_staleAt (s : State) (b : Nat) : (stdEvent s b).std.staleAt = s.std.staleAt := rfl
@[simp] theorem stdEvent_std_result (s : State) (b : Nat) : (stdEvent s b).std.result = s.std.result := rfl
@[simp] theorem stdEvent_std_missing (s : State) (b : Nat) : (stdEvent s b).std.missing = s.std.missing := rfl
@[simp] theorem stdEvent_std_change (s : State) (b : Nat) : (stdEvent s b).std.change = s.std.change := rfl
@[simp] theorem stdEvent_std_passedOn (s : State) (b : Nat) : (stdEvent s b).std.passedOn = s.std.passedOn := rfl
@[simp] theorem stdEvent_std_buddyOverride (s : State) (b : Nat) : (stdEvent s b).std.buddyOverride = s.std.buddyOverride := rfl
@[simp] theorem stdEvent_std_timePort (s : State) (b : Nat) : (stdEvent s b).std.timePort = s.std.timePort := rfl
@[simp] theorem stdEvent_std_chainOnly (s : State) (b : Nat) : (stdEvent s b).std.chainOnly = s.std.chainOnly := rfl
@[simp] theorem stdEvent_std_route (s : State) (b : Nat) : (stdEvent s b).std.route = s.std.route := rfl
@[simp] theorem stdEvent_std_routeActive (s : State) (b : Nat) : (stdEvent s b).std.routeActive = s.std.routeActive := rfl
@[simp] theorem stdEvent_std_ports (s : State) (b : Nat) : (stdEvent s b).std.ports = s.std.ports := rfl
@[simp] theorem stdEvent_std_inbox (s : State) (b : Nat) : (stdEvent s b).std.inbox = s.std.inbox := rfl
@[simp] theorem stdEvent_std_inXfers (s : State) (b : Nat) : (stdEvent s b).std.inXfers = s.std.inXfers := rfl
@[simp] theorem stdEvent_std_outXfers (s : State) (b : Nat) : (stdEvent s b).std.outXfers = s.std.outXfers := rfl
@[simp] theorem stdEvent_std_nextXfer (s : State) (b : Nat) : (stdEvent s b).std.nextXfer = s.std.nextXfer := rfl
@[simp] theorem stdEvent_std_fwdReads (s : State) (b : Nat) : (stdEvent s b).std.fwdReads = s.std.fwdReads := rfl
@[simp] theorem stdEvent_std_nextTag (s : State) (b : Nat) : (stdEvent s b).std.nextTag = s.std.nextTag := rfl
@[simp] theorem stdEvent_std_early (s : State) (b : Nat) : (stdEvent s b).std.early = s.std.early := rfl

@[simp] theorem sendPort_pending (s : State) (p : Nat) (b : List Byte) : (sendPort s p b).pending = s.pending := rfl
@[simp] theorem sendPort_now (s : State) (p : Nat) (b : List Byte) : (sendPort s p b).now = s.now := rfl
@[simp] theorem sendPort_ory (s : State) (p : Nat) (b : List Byte) : (sendPort s p b).ory = s.ory := rfl
@[simp] theorem sendPort_cells (s : State) (p : Nat) (b : List Byte) : (sendPort s p b).cells = s.cells := rfl
@[simp] theorem sendPort_lpe (s : State) (p : Nat) (b : List Byte) : (sendPort s p b).lpe = s.lpe := rfl
@[simp] theorem sendPort_parures (s : State) (p : Nat) (b : List Byte) : (sendPort s p b).parures = s.parures := rfl
@[simp] theorem sendPort_ast (s : State) (p : Nat) (b : List Byte) : (sendPort s p b).ast = s.ast := rfl
@[simp] theorem sendPort_smp (s : State) (p : Nat) (b : List Byte) : (sendPort s p b).smp = s.smp := rfl
@[simp] theorem sendPort_fil (s : State) (p : Nat) (b : List Byte) : (sendPort s p b).fil = s.fil := rfl
@[simp] theorem sendPort_stm (s : State) (p : Nat) (b : List Byte) : (sendPort s p b).stm = s.stm := rfl
@[simp] theorem sendPort_lockets (s : State) (p : Nat) (b : List Byte) : (sendPort s p b).lockets = s.lockets := rfl
@[simp] theorem sendPort_charms (s : State) (p : Nat) (b : List Byte) : (sendPort s p b).charms = s.charms := rfl
@[simp] theorem sendPort_facets (s : State) (p : Nat) (b : List Byte) : (sendPort s p b).facets = s.facets := rfl
@[simp] theorem sendPort_keys (s : State) (p : Nat) (b : List Byte) : (sendPort s p b).keys = s.keys := rfl
@[simp] theorem sendPort_t1 (s : State) (p : Nat) (b : List Byte) : (sendPort s p b).t1 = s.t1 := rfl
@[simp] theorem sendPort_extents (s : State) (p : Nat) (b : List Byte) : (sendPort s p b).extents = s.extents := rfl
@[simp] theorem sendPort_hbc (s : State) (p : Nat) (b : List Byte) : (sendPort s p b).hbc = s.hbc := rfl
@[simp] theorem sendPort_lpc (s : State) (p : Nat) (b : List Byte) : (sendPort s p b).lpc = s.lpc := rfl
@[simp] theorem sendPort_cur (s : State) (p : Nat) (b : List Byte) : (sendPort s p b).cur = s.cur := rfl
@[simp] theorem sendPort_bays (s : State) (p : Nat) (b : List Byte) : (sendPort s p b).bays = s.bays := rfl
@[simp] theorem sendPort_eph (s : State) (p : Nat) (b : List Byte) : (sendPort s p b).eph = s.eph := rfl
@[simp] theorem sendPort_traffic (s : State) (p : Nat) (b : List Byte) : (sendPort s p b).traffic = s.traffic := rfl
@[simp] theorem sendPort_colls (s : State) (p : Nat) (b : List Byte) : (sendPort s p b).colls = s.colls := rfl
@[simp] theorem sendPort_searches (s : State) (p : Nat) (b : List Byte) : (sendPort s p b).searches = s.searches := rfl
@[simp] theorem sendPort_selects (s : State) (p : Nat) (b : List Byte) : (sendPort s p b).selects = s.selects := rfl
@[simp] theorem sendPort_sieves (s : State) (p : Nat) (b : List Byte) : (sendPort s p b).sieves = s.sieves := rfl
@[simp] theorem sendPort_integ (s : State) (p : Nat) (b : List Byte) : (sendPort s p b).integ = s.integ := rfl
@[simp] theorem sendPort_ckpt (s : State) (p : Nat) (b : List Byte) : (sendPort s p b).ckpt = s.ckpt := rfl
@[simp] theorem sendPort_hif (s : State) (p : Nat) (b : List Byte) : (sendPort s p b).hif = s.hif := rfl
@[simp] theorem sendPort_lan (s : State) (p : Nat) (b : List Byte) : (sendPort s p b).lan = s.lan := rfl
@[simp] theorem sendPort_hostMem (s : State) (p : Nat) (b : List Byte) : (sendPort s p b).hostMem = s.hostMem := rfl
@[simp] theorem sendPort_replies (s : State) (p : Nat) (b : List Byte) : (sendPort s p b).replies = s.replies := rfl
@[simp] theorem sendPort_std_routeEn (s : State) (p : Nat) (b : List Byte) : (sendPort s p b).std.routeEn = s.std.routeEn := rfl
@[simp] theorem sendPort_std_tail (s : State) (p : Nat) (b : List Byte) : (sendPort s p b).std.tail = s.std.tail := rfl
@[simp] theorem sendPort_std_mode (s : State) (p : Nat) (b : List Byte) : (sendPort s p b).std.mode = s.std.mode := rfl
@[simp] theorem sendPort_std_event (s : State) (p : Nat) (b : List Byte) : (sendPort s p b).std.event = s.std.event := rfl
@[simp] theorem sendPort_std_count (s : State) (p : Nat) (b : List Byte) : (sendPort s p b).std.count = s.std.count := rfl
@[simp] theorem sendPort_std_position (s : State) (p : Nat) (b : List Byte) : (sendPort s p b).std.position = s.std.position := rfl
@[simp] theorem sendPort_std_enumLow (s : State) (p : Nat) (b : List Byte) : (sendPort s p b).std.enumLow = s.std.enumLow := rfl
@[simp] theorem sendPort_std_lastWord (s : State) (p : Nat) (b : List Byte) : (sendPort s p b).std.lastWord = s.std.lastWord := rfl
@[simp] theorem sendPort_std_adoptedAt (s : State) (p : Nat) (b : List Byte) : (sendPort s p b).std.adoptedAt = s.std.adoptedAt := rfl
@[simp] theorem sendPort_std_lastEnum (s : State) (p : Nat) (b : List Byte) : (sendPort s p b).std.lastEnum = s.std.lastEnum := rfl
@[simp] theorem sendPort_std_enumOut (s : State) (p : Nat) (b : List Byte) : (sendPort s p b).std.enumOut = s.std.enumOut := rfl
@[simp] theorem sendPort_std_countSent (s : State) (p : Nat) (b : List Byte) : (sendPort s p b).std.countSent = s.std.countSent := rfl
@[simp] theorem sendPort_std_epoch (s : State) (p : Nat) (b : List Byte) : (sendPort s p b).std.epoch = s.std.epoch := rfl
@[simp] theorem sendPort_std_prepared (s : State) (p : Nat) (b : List Byte) : (sendPort s p b).std.prepared = s.std.prepared := rfl
@[simp] theorem sendPort_std_members (s : State) (p : Nat) (b : List Byte) : (sendPort s p b).std.members = s.std.members := rfl
@[simp] theorem sendPort_std_membersLatch (s : State) (p : Nat) (b : List Byte) : (sendPort s p b).std.membersLatch = s.std.membersLatch := rfl
@[simp] theorem sendPort_std_buddy (s : State) (p : Nat) (b : List Byte) : (sendPort s p b).std.buddy = s.std.buddy := rfl
@[simp] theorem sendPort_std_deviceId (s : State) (p : Nat) (b : List Byte) : (sendPort s p b).std.deviceId = s.std.deviceId := rfl
@[simp] theorem sendPort_std_devidLatch (s : State) (p : Nat) (b : List Byte) : (sendPort s p b).std.devidLatch = s.std.devidLatch := rfl
@[simp] theorem sendPort_std_hostMode (s : State) (p : Nat) (b : List Byte) : (sendPort s p b).std.hostMode = s.std.hostMode := rfl
@[simp] theorem sendPort_std_modeInForce (s : State) (p : Nat) (b : List Byte) : (sendPort s p b).std.modeInForce = s.std.modeInForce := rfl
@[simp] theorem sendPort_std_offset (s : State) (p : Nat) (b : List Byte) : (sendPort s p b).std.offset = s.std.offset := rfl
@[simp] theorem sendPort_std_offsetLatch (s : State) (p : Nat) (b : List Byte) : (sendPort s p b).std.offsetLatch = s.std.offsetLatch := rfl
@[simp] theorem sendPort_std_lastBeacon (s : State) (p : Nat) (b : List Byte) : (sendPort s p b).std.lastBeacon = s.std.lastBeacon := rfl
@[simp] theorem sendPort_std_seenSeq (s : State) (p : Nat) (b : List Byte) : (sendPort s p b).std.seenSeq = s.std.seenSeq := rfl
@[simp] theorem sendPort_std_nextSeq (s : State) (p : Nat) (b : List Byte) : (sendPort s p b).std.nextSeq = s.std.nextSeq := rfl
@[simp] theorem sendPort_std_lastSent (s : State) (p : Nat) (b : List Byte) : (sendPort s p b).std.lastSent = s.std.lastSent := rfl
@[simp] theorem sendPort_std_beaconFrame (s : State) (p : Nat) (b : List Byte) : (sendPort s p b).std.beaconFrame = s.std.beaconFrame := rfl
@[simp] theorem sendPort_std_beaconMeridian (s : State) (p : Nat) (b : List Byte) : (sendPort s p b).std.beaconMeridian = s.std.beaconMeridian := rfl
@[simp] theorem sendPort_std_frameAt (s : State) (p : Nat) (b : List Byte) : (sendPort s p b).std.frameAt = s.std.frameAt := rfl
@[simp] theorem sendPort_std_timeFrom (s : State) (p : Nat) (b : List Byte) : (sendPort s p b).std.timeFrom = s.std.timeFrom := rfl
@[simp] theorem sendPort_std_unroutable (s : State) (p : Nat) (b : List Byte) : (sendPort s p b).std.unroutable = s.std.unroutable := rfl
@[simp] theorem sendPort_std_staleSent (s : State) (p : Nat) (b : List Byte) : (sendPort s p b).std.staleSent = s.std.staleSent := rfl
@[simp] theorem sendPort_std_staleAt (s : State) (p : Nat) (b : List Byte) : (sendPort s p b).std.staleAt = s.std.staleAt := rfl
@[simp] theorem sendPort_std_result (s : State) (p : Nat) (b : List Byte) : (sendPort s p b).std.result = s.std.result := rfl
@[simp] theorem sendPort_std_missing (s : State) (p : Nat) (b : List Byte) : (sendPort s p b).std.missing = s.std.missing := rfl
@[simp] theorem sendPort_std_change (s : State) (p : Nat) (b : List Byte) : (sendPort s p b).std.change = s.std.change := rfl
@[simp] theorem sendPort_std_passedOn (s : State) (p : Nat) (b : List Byte) : (sendPort s p b).std.passedOn = s.std.passedOn := rfl
@[simp] theorem sendPort_std_buddyOverride (s : State) (p : Nat) (b : List Byte) : (sendPort s p b).std.buddyOverride = s.std.buddyOverride := rfl
@[simp] theorem sendPort_std_timePort (s : State) (p : Nat) (b : List Byte) : (sendPort s p b).std.timePort = s.std.timePort := rfl
@[simp] theorem sendPort_std_chainOnly (s : State) (p : Nat) (b : List Byte) : (sendPort s p b).std.chainOnly = s.std.chainOnly := rfl
@[simp] theorem sendPort_std_route (s : State) (p : Nat) (b : List Byte) : (sendPort s p b).std.route = s.std.route := rfl
@[simp] theorem sendPort_std_routeActive (s : State) (p : Nat) (b : List Byte) : (sendPort s p b).std.routeActive = s.std.routeActive := rfl
@[simp] theorem sendPort_std_inbox (s : State) (p : Nat) (b : List Byte) : (sendPort s p b).std.inbox = s.std.inbox := rfl
@[simp] theorem sendPort_std_inXfers (s : State) (p : Nat) (b : List Byte) : (sendPort s p b).std.inXfers = s.std.inXfers := rfl
@[simp] theorem sendPort_std_outXfers (s : State) (p : Nat) (b : List Byte) : (sendPort s p b).std.outXfers = s.std.outXfers := rfl
@[simp] theorem sendPort_std_nextXfer (s : State) (p : Nat) (b : List Byte) : (sendPort s p b).std.nextXfer = s.std.nextXfer := rfl
@[simp] theorem sendPort_std_fwdReads (s : State) (p : Nat) (b : List Byte) : (sendPort s p b).std.fwdReads = s.std.fwdReads := rfl
@[simp] theorem sendPort_std_nextTag (s : State) (p : Nat) (b : List Byte) : (sendPort s p b).std.nextTag = s.std.nextTag := rfl
@[simp] theorem sendPort_std_early (s : State) (p : Nat) (b : List Byte) : (sendPort s p b).std.early = s.std.early := rfl

@[simp] theorem sendFlit_pending (s : State) (f : Flit) : (sendFlit s f).pending = s.pending := by unfold sendFlit; split; rfl; split <;> rfl
@[simp] theorem sendFlit_now (s : State) (f : Flit) : (sendFlit s f).now = s.now := by unfold sendFlit; split; rfl; split <;> rfl
@[simp] theorem sendFlit_ory (s : State) (f : Flit) : (sendFlit s f).ory = s.ory := by unfold sendFlit; split; rfl; split <;> rfl
@[simp] theorem sendFlit_cells (s : State) (f : Flit) : (sendFlit s f).cells = s.cells := by unfold sendFlit; split; rfl; split <;> rfl
@[simp] theorem sendFlit_lpe (s : State) (f : Flit) : (sendFlit s f).lpe = s.lpe := by unfold sendFlit; split; rfl; split <;> rfl
@[simp] theorem sendFlit_parures (s : State) (f : Flit) : (sendFlit s f).parures = s.parures := by unfold sendFlit; split; rfl; split <;> rfl
@[simp] theorem sendFlit_ast (s : State) (f : Flit) : (sendFlit s f).ast = s.ast := by unfold sendFlit; split; rfl; split <;> rfl
@[simp] theorem sendFlit_smp (s : State) (f : Flit) : (sendFlit s f).smp = s.smp := by unfold sendFlit; split; rfl; split <;> rfl
@[simp] theorem sendFlit_fil (s : State) (f : Flit) : (sendFlit s f).fil = s.fil := by unfold sendFlit; split; rfl; split <;> rfl
@[simp] theorem sendFlit_stm (s : State) (f : Flit) : (sendFlit s f).stm = s.stm := by unfold sendFlit; split; rfl; split <;> rfl
@[simp] theorem sendFlit_lockets (s : State) (f : Flit) : (sendFlit s f).lockets = s.lockets := by unfold sendFlit; split; rfl; split <;> rfl
@[simp] theorem sendFlit_charms (s : State) (f : Flit) : (sendFlit s f).charms = s.charms := by unfold sendFlit; split; rfl; split <;> rfl
@[simp] theorem sendFlit_facets (s : State) (f : Flit) : (sendFlit s f).facets = s.facets := by unfold sendFlit; split; rfl; split <;> rfl
@[simp] theorem sendFlit_keys (s : State) (f : Flit) : (sendFlit s f).keys = s.keys := by unfold sendFlit; split; rfl; split <;> rfl
@[simp] theorem sendFlit_t1 (s : State) (f : Flit) : (sendFlit s f).t1 = s.t1 := by unfold sendFlit; split; rfl; split <;> rfl
@[simp] theorem sendFlit_extents (s : State) (f : Flit) : (sendFlit s f).extents = s.extents := by unfold sendFlit; split; rfl; split <;> rfl
@[simp] theorem sendFlit_hbc (s : State) (f : Flit) : (sendFlit s f).hbc = s.hbc := by unfold sendFlit; split; rfl; split <;> rfl
@[simp] theorem sendFlit_lpc (s : State) (f : Flit) : (sendFlit s f).lpc = s.lpc := by unfold sendFlit; split; rfl; split <;> rfl
@[simp] theorem sendFlit_cur (s : State) (f : Flit) : (sendFlit s f).cur = s.cur := by unfold sendFlit; split; rfl; split <;> rfl
@[simp] theorem sendFlit_bays (s : State) (f : Flit) : (sendFlit s f).bays = s.bays := by unfold sendFlit; split; rfl; split <;> rfl
@[simp] theorem sendFlit_eph (s : State) (f : Flit) : (sendFlit s f).eph = s.eph := by unfold sendFlit; split; rfl; split <;> rfl
@[simp] theorem sendFlit_traffic (s : State) (f : Flit) : (sendFlit s f).traffic = s.traffic := by unfold sendFlit; split; rfl; split <;> rfl
@[simp] theorem sendFlit_colls (s : State) (f : Flit) : (sendFlit s f).colls = s.colls := by unfold sendFlit; split; rfl; split <;> rfl
@[simp] theorem sendFlit_searches (s : State) (f : Flit) : (sendFlit s f).searches = s.searches := by unfold sendFlit; split; rfl; split <;> rfl
@[simp] theorem sendFlit_selects (s : State) (f : Flit) : (sendFlit s f).selects = s.selects := by unfold sendFlit; split; rfl; split <;> rfl
@[simp] theorem sendFlit_sieves (s : State) (f : Flit) : (sendFlit s f).sieves = s.sieves := by unfold sendFlit; split; rfl; split <;> rfl
@[simp] theorem sendFlit_integ (s : State) (f : Flit) : (sendFlit s f).integ = s.integ := by unfold sendFlit; split; rfl; split <;> rfl
@[simp] theorem sendFlit_ckpt (s : State) (f : Flit) : (sendFlit s f).ckpt = s.ckpt := by unfold sendFlit; split; rfl; split <;> rfl
@[simp] theorem sendFlit_hif (s : State) (f : Flit) : (sendFlit s f).hif = s.hif := by unfold sendFlit; split; rfl; split <;> rfl
@[simp] theorem sendFlit_lan (s : State) (f : Flit) : (sendFlit s f).lan = s.lan := by unfold sendFlit; split; rfl; split <;> rfl
@[simp] theorem sendFlit_hostMem (s : State) (f : Flit) : (sendFlit s f).hostMem = s.hostMem := by unfold sendFlit; split; rfl; split <;> rfl
@[simp] theorem sendFlit_replies (s : State) (f : Flit) : (sendFlit s f).replies = s.replies := by unfold sendFlit; split; rfl; split <;> rfl
@[simp] theorem sendFlit_std_routeEn (s : State) (f : Flit) : (sendFlit s f).std.routeEn = s.std.routeEn := by unfold sendFlit; split; rfl; split <;> rfl
@[simp] theorem sendFlit_std_tail (s : State) (f : Flit) : (sendFlit s f).std.tail = s.std.tail := by unfold sendFlit; split; rfl; split <;> rfl
@[simp] theorem sendFlit_std_mode (s : State) (f : Flit) : (sendFlit s f).std.mode = s.std.mode := by unfold sendFlit; split; rfl; split <;> rfl
@[simp] theorem sendFlit_std_count (s : State) (f : Flit) : (sendFlit s f).std.count = s.std.count := by unfold sendFlit; split; rfl; split <;> rfl
@[simp] theorem sendFlit_std_position (s : State) (f : Flit) : (sendFlit s f).std.position = s.std.position := by unfold sendFlit; split; rfl; split <;> rfl
@[simp] theorem sendFlit_std_enumLow (s : State) (f : Flit) : (sendFlit s f).std.enumLow = s.std.enumLow := by unfold sendFlit; split; rfl; split <;> rfl
@[simp] theorem sendFlit_std_lastWord (s : State) (f : Flit) : (sendFlit s f).std.lastWord = s.std.lastWord := by unfold sendFlit; split; rfl; split <;> rfl
@[simp] theorem sendFlit_std_adoptedAt (s : State) (f : Flit) : (sendFlit s f).std.adoptedAt = s.std.adoptedAt := by unfold sendFlit; split; rfl; split <;> rfl
@[simp] theorem sendFlit_std_lastEnum (s : State) (f : Flit) : (sendFlit s f).std.lastEnum = s.std.lastEnum := by unfold sendFlit; split; rfl; split <;> rfl
@[simp] theorem sendFlit_std_enumOut (s : State) (f : Flit) : (sendFlit s f).std.enumOut = s.std.enumOut := by unfold sendFlit; split; rfl; split <;> rfl
@[simp] theorem sendFlit_std_countSent (s : State) (f : Flit) : (sendFlit s f).std.countSent = s.std.countSent := by unfold sendFlit; split; rfl; split <;> rfl
@[simp] theorem sendFlit_std_epoch (s : State) (f : Flit) : (sendFlit s f).std.epoch = s.std.epoch := by unfold sendFlit; split; rfl; split <;> rfl
@[simp] theorem sendFlit_std_prepared (s : State) (f : Flit) : (sendFlit s f).std.prepared = s.std.prepared := by unfold sendFlit; split; rfl; split <;> rfl
@[simp] theorem sendFlit_std_members (s : State) (f : Flit) : (sendFlit s f).std.members = s.std.members := by unfold sendFlit; split; rfl; split <;> rfl
@[simp] theorem sendFlit_std_membersLatch (s : State) (f : Flit) : (sendFlit s f).std.membersLatch = s.std.membersLatch := by unfold sendFlit; split; rfl; split <;> rfl
@[simp] theorem sendFlit_std_buddy (s : State) (f : Flit) : (sendFlit s f).std.buddy = s.std.buddy := by unfold sendFlit; split; rfl; split <;> rfl
@[simp] theorem sendFlit_std_deviceId (s : State) (f : Flit) : (sendFlit s f).std.deviceId = s.std.deviceId := by unfold sendFlit; split; rfl; split <;> rfl
@[simp] theorem sendFlit_std_devidLatch (s : State) (f : Flit) : (sendFlit s f).std.devidLatch = s.std.devidLatch := by unfold sendFlit; split; rfl; split <;> rfl
@[simp] theorem sendFlit_std_hostMode (s : State) (f : Flit) : (sendFlit s f).std.hostMode = s.std.hostMode := by unfold sendFlit; split; rfl; split <;> rfl
@[simp] theorem sendFlit_std_modeInForce (s : State) (f : Flit) : (sendFlit s f).std.modeInForce = s.std.modeInForce := by unfold sendFlit; split; rfl; split <;> rfl
@[simp] theorem sendFlit_std_offset (s : State) (f : Flit) : (sendFlit s f).std.offset = s.std.offset := by unfold sendFlit; split; rfl; split <;> rfl
@[simp] theorem sendFlit_std_offsetLatch (s : State) (f : Flit) : (sendFlit s f).std.offsetLatch = s.std.offsetLatch := by unfold sendFlit; split; rfl; split <;> rfl
@[simp] theorem sendFlit_std_lastBeacon (s : State) (f : Flit) : (sendFlit s f).std.lastBeacon = s.std.lastBeacon := by unfold sendFlit; split; rfl; split <;> rfl
@[simp] theorem sendFlit_std_seenSeq (s : State) (f : Flit) : (sendFlit s f).std.seenSeq = s.std.seenSeq := by unfold sendFlit; split; rfl; split <;> rfl
@[simp] theorem sendFlit_std_nextSeq (s : State) (f : Flit) : (sendFlit s f).std.nextSeq = s.std.nextSeq := by unfold sendFlit; split; rfl; split <;> rfl
@[simp] theorem sendFlit_std_lastSent (s : State) (f : Flit) : (sendFlit s f).std.lastSent = s.std.lastSent := by unfold sendFlit; split; rfl; split <;> rfl
@[simp] theorem sendFlit_std_beaconFrame (s : State) (f : Flit) : (sendFlit s f).std.beaconFrame = s.std.beaconFrame := by unfold sendFlit; split; rfl; split <;> rfl
@[simp] theorem sendFlit_std_beaconMeridian (s : State) (f : Flit) : (sendFlit s f).std.beaconMeridian = s.std.beaconMeridian := by unfold sendFlit; split; rfl; split <;> rfl
@[simp] theorem sendFlit_std_frameAt (s : State) (f : Flit) : (sendFlit s f).std.frameAt = s.std.frameAt := by unfold sendFlit; split; rfl; split <;> rfl
@[simp] theorem sendFlit_std_timeFrom (s : State) (f : Flit) : (sendFlit s f).std.timeFrom = s.std.timeFrom := by unfold sendFlit; split; rfl; split <;> rfl
@[simp] theorem sendFlit_std_staleSent (s : State) (f : Flit) : (sendFlit s f).std.staleSent = s.std.staleSent := by unfold sendFlit; split; rfl; split <;> rfl
@[simp] theorem sendFlit_std_staleAt (s : State) (f : Flit) : (sendFlit s f).std.staleAt = s.std.staleAt := by unfold sendFlit; split; rfl; split <;> rfl
@[simp] theorem sendFlit_std_result (s : State) (f : Flit) : (sendFlit s f).std.result = s.std.result := by unfold sendFlit; split; rfl; split <;> rfl
@[simp] theorem sendFlit_std_missing (s : State) (f : Flit) : (sendFlit s f).std.missing = s.std.missing := by unfold sendFlit; split; rfl; split <;> rfl
@[simp] theorem sendFlit_std_change (s : State) (f : Flit) : (sendFlit s f).std.change = s.std.change := by unfold sendFlit; split; rfl; split <;> rfl
@[simp] theorem sendFlit_std_passedOn (s : State) (f : Flit) : (sendFlit s f).std.passedOn = s.std.passedOn := by unfold sendFlit; split; rfl; split <;> rfl
@[simp] theorem sendFlit_std_buddyOverride (s : State) (f : Flit) : (sendFlit s f).std.buddyOverride = s.std.buddyOverride := by unfold sendFlit; split; rfl; split <;> rfl
@[simp] theorem sendFlit_std_timePort (s : State) (f : Flit) : (sendFlit s f).std.timePort = s.std.timePort := by unfold sendFlit; split; rfl; split <;> rfl
@[simp] theorem sendFlit_std_chainOnly (s : State) (f : Flit) : (sendFlit s f).std.chainOnly = s.std.chainOnly := by unfold sendFlit; split; rfl; split <;> rfl
@[simp] theorem sendFlit_std_route (s : State) (f : Flit) : (sendFlit s f).std.route = s.std.route := by unfold sendFlit; split; rfl; split <;> rfl
@[simp] theorem sendFlit_std_routeActive (s : State) (f : Flit) : (sendFlit s f).std.routeActive = s.std.routeActive := by unfold sendFlit; split; rfl; split <;> rfl
@[simp] theorem sendFlit_std_inbox (s : State) (f : Flit) : (sendFlit s f).std.inbox = s.std.inbox := by unfold sendFlit; split; rfl; split <;> rfl
@[simp] theorem sendFlit_std_inXfers (s : State) (f : Flit) : (sendFlit s f).std.inXfers = s.std.inXfers := by unfold sendFlit; split; rfl; split <;> rfl
@[simp] theorem sendFlit_std_outXfers (s : State) (f : Flit) : (sendFlit s f).std.outXfers = s.std.outXfers := by unfold sendFlit; split; rfl; split <;> rfl
@[simp] theorem sendFlit_std_nextXfer (s : State) (f : Flit) : (sendFlit s f).std.nextXfer = s.std.nextXfer := by unfold sendFlit; split; rfl; split <;> rfl
@[simp] theorem sendFlit_std_fwdReads (s : State) (f : Flit) : (sendFlit s f).std.fwdReads = s.std.fwdReads := by unfold sendFlit; split; rfl; split <;> rfl
@[simp] theorem sendFlit_std_nextTag (s : State) (f : Flit) : (sendFlit s f).std.nextTag = s.std.nextTag := by unfold sendFlit; split; rfl; split <;> rfl
@[simp] theorem sendFlit_std_early (s : State) (f : Flit) : (sendFlit s f).std.early = s.std.early := by unfold sendFlit; split; rfl; split <;> rfl

@[simp] theorem sendMsg_pending (s : State) (d : Nat) (b : List Byte) : (sendMsg s d b).pending = s.pending := by simp [sendMsg]
@[simp] theorem sendMsg_now (s : State) (d : Nat) (b : List Byte) : (sendMsg s d b).now = s.now := by simp [sendMsg]
@[simp] theorem sendMsg_ory (s : State) (d : Nat) (b : List Byte) : (sendMsg s d b).ory = s.ory := by simp [sendMsg]
@[simp] theorem sendMsg_cells (s : State) (d : Nat) (b : List Byte) : (sendMsg s d b).cells = s.cells := by simp [sendMsg]
@[simp] theorem sendMsg_lpe (s : State) (d : Nat) (b : List Byte) : (sendMsg s d b).lpe = s.lpe := by simp [sendMsg]
@[simp] theorem sendMsg_parures (s : State) (d : Nat) (b : List Byte) : (sendMsg s d b).parures = s.parures := by simp [sendMsg]
@[simp] theorem sendMsg_ast (s : State) (d : Nat) (b : List Byte) : (sendMsg s d b).ast = s.ast := by simp [sendMsg]
@[simp] theorem sendMsg_smp (s : State) (d : Nat) (b : List Byte) : (sendMsg s d b).smp = s.smp := by simp [sendMsg]
@[simp] theorem sendMsg_fil (s : State) (d : Nat) (b : List Byte) : (sendMsg s d b).fil = s.fil := by simp [sendMsg]
@[simp] theorem sendMsg_stm (s : State) (d : Nat) (b : List Byte) : (sendMsg s d b).stm = s.stm := by simp [sendMsg]
@[simp] theorem sendMsg_lockets (s : State) (d : Nat) (b : List Byte) : (sendMsg s d b).lockets = s.lockets := by simp [sendMsg]
@[simp] theorem sendMsg_charms (s : State) (d : Nat) (b : List Byte) : (sendMsg s d b).charms = s.charms := by simp [sendMsg]
@[simp] theorem sendMsg_facets (s : State) (d : Nat) (b : List Byte) : (sendMsg s d b).facets = s.facets := by simp [sendMsg]
@[simp] theorem sendMsg_keys (s : State) (d : Nat) (b : List Byte) : (sendMsg s d b).keys = s.keys := by simp [sendMsg]
@[simp] theorem sendMsg_t1 (s : State) (d : Nat) (b : List Byte) : (sendMsg s d b).t1 = s.t1 := by simp [sendMsg]
@[simp] theorem sendMsg_extents (s : State) (d : Nat) (b : List Byte) : (sendMsg s d b).extents = s.extents := by simp [sendMsg]
@[simp] theorem sendMsg_hbc (s : State) (d : Nat) (b : List Byte) : (sendMsg s d b).hbc = s.hbc := by simp [sendMsg]
@[simp] theorem sendMsg_lpc (s : State) (d : Nat) (b : List Byte) : (sendMsg s d b).lpc = s.lpc := by simp [sendMsg]
@[simp] theorem sendMsg_cur (s : State) (d : Nat) (b : List Byte) : (sendMsg s d b).cur = s.cur := by simp [sendMsg]
@[simp] theorem sendMsg_bays (s : State) (d : Nat) (b : List Byte) : (sendMsg s d b).bays = s.bays := by simp [sendMsg]
@[simp] theorem sendMsg_eph (s : State) (d : Nat) (b : List Byte) : (sendMsg s d b).eph = s.eph := by simp [sendMsg]
@[simp] theorem sendMsg_traffic (s : State) (d : Nat) (b : List Byte) : (sendMsg s d b).traffic = s.traffic := by simp [sendMsg]
@[simp] theorem sendMsg_colls (s : State) (d : Nat) (b : List Byte) : (sendMsg s d b).colls = s.colls := by simp [sendMsg]
@[simp] theorem sendMsg_searches (s : State) (d : Nat) (b : List Byte) : (sendMsg s d b).searches = s.searches := by simp [sendMsg]
@[simp] theorem sendMsg_selects (s : State) (d : Nat) (b : List Byte) : (sendMsg s d b).selects = s.selects := by simp [sendMsg]
@[simp] theorem sendMsg_sieves (s : State) (d : Nat) (b : List Byte) : (sendMsg s d b).sieves = s.sieves := by simp [sendMsg]
@[simp] theorem sendMsg_integ (s : State) (d : Nat) (b : List Byte) : (sendMsg s d b).integ = s.integ := by simp [sendMsg]
@[simp] theorem sendMsg_ckpt (s : State) (d : Nat) (b : List Byte) : (sendMsg s d b).ckpt = s.ckpt := by simp [sendMsg]
@[simp] theorem sendMsg_hif (s : State) (d : Nat) (b : List Byte) : (sendMsg s d b).hif = s.hif := by simp [sendMsg]
@[simp] theorem sendMsg_lan (s : State) (d : Nat) (b : List Byte) : (sendMsg s d b).lan = s.lan := by simp [sendMsg]
@[simp] theorem sendMsg_hostMem (s : State) (d : Nat) (b : List Byte) : (sendMsg s d b).hostMem = s.hostMem := by simp [sendMsg]
@[simp] theorem sendMsg_replies (s : State) (d : Nat) (b : List Byte) : (sendMsg s d b).replies = s.replies := by simp [sendMsg]
@[simp] theorem sendMsg_std_routeEn (s : State) (d : Nat) (b : List Byte) : (sendMsg s d b).std.routeEn = s.std.routeEn := by simp [sendMsg]
@[simp] theorem sendMsg_std_tail (s : State) (d : Nat) (b : List Byte) : (sendMsg s d b).std.tail = s.std.tail := by simp [sendMsg]
@[simp] theorem sendMsg_std_mode (s : State) (d : Nat) (b : List Byte) : (sendMsg s d b).std.mode = s.std.mode := by simp [sendMsg]
@[simp] theorem sendMsg_std_count (s : State) (d : Nat) (b : List Byte) : (sendMsg s d b).std.count = s.std.count := by simp [sendMsg]
@[simp] theorem sendMsg_std_position (s : State) (d : Nat) (b : List Byte) : (sendMsg s d b).std.position = s.std.position := by simp [sendMsg]
@[simp] theorem sendMsg_std_enumLow (s : State) (d : Nat) (b : List Byte) : (sendMsg s d b).std.enumLow = s.std.enumLow := by simp [sendMsg]
@[simp] theorem sendMsg_std_lastWord (s : State) (d : Nat) (b : List Byte) : (sendMsg s d b).std.lastWord = s.std.lastWord := by simp [sendMsg]
@[simp] theorem sendMsg_std_adoptedAt (s : State) (d : Nat) (b : List Byte) : (sendMsg s d b).std.adoptedAt = s.std.adoptedAt := by simp [sendMsg]
@[simp] theorem sendMsg_std_lastEnum (s : State) (d : Nat) (b : List Byte) : (sendMsg s d b).std.lastEnum = s.std.lastEnum := by simp [sendMsg]
@[simp] theorem sendMsg_std_enumOut (s : State) (d : Nat) (b : List Byte) : (sendMsg s d b).std.enumOut = s.std.enumOut := by simp [sendMsg]
@[simp] theorem sendMsg_std_countSent (s : State) (d : Nat) (b : List Byte) : (sendMsg s d b).std.countSent = s.std.countSent := by simp [sendMsg]
@[simp] theorem sendMsg_std_epoch (s : State) (d : Nat) (b : List Byte) : (sendMsg s d b).std.epoch = s.std.epoch := by simp [sendMsg]
@[simp] theorem sendMsg_std_prepared (s : State) (d : Nat) (b : List Byte) : (sendMsg s d b).std.prepared = s.std.prepared := by simp [sendMsg]
@[simp] theorem sendMsg_std_members (s : State) (d : Nat) (b : List Byte) : (sendMsg s d b).std.members = s.std.members := by simp [sendMsg]
@[simp] theorem sendMsg_std_membersLatch (s : State) (d : Nat) (b : List Byte) : (sendMsg s d b).std.membersLatch = s.std.membersLatch := by simp [sendMsg]
@[simp] theorem sendMsg_std_buddy (s : State) (d : Nat) (b : List Byte) : (sendMsg s d b).std.buddy = s.std.buddy := by simp [sendMsg]
@[simp] theorem sendMsg_std_deviceId (s : State) (d : Nat) (b : List Byte) : (sendMsg s d b).std.deviceId = s.std.deviceId := by simp [sendMsg]
@[simp] theorem sendMsg_std_devidLatch (s : State) (d : Nat) (b : List Byte) : (sendMsg s d b).std.devidLatch = s.std.devidLatch := by simp [sendMsg]
@[simp] theorem sendMsg_std_hostMode (s : State) (d : Nat) (b : List Byte) : (sendMsg s d b).std.hostMode = s.std.hostMode := by simp [sendMsg]
@[simp] theorem sendMsg_std_modeInForce (s : State) (d : Nat) (b : List Byte) : (sendMsg s d b).std.modeInForce = s.std.modeInForce := by simp [sendMsg]
@[simp] theorem sendMsg_std_offset (s : State) (d : Nat) (b : List Byte) : (sendMsg s d b).std.offset = s.std.offset := by simp [sendMsg]
@[simp] theorem sendMsg_std_offsetLatch (s : State) (d : Nat) (b : List Byte) : (sendMsg s d b).std.offsetLatch = s.std.offsetLatch := by simp [sendMsg]
@[simp] theorem sendMsg_std_lastBeacon (s : State) (d : Nat) (b : List Byte) : (sendMsg s d b).std.lastBeacon = s.std.lastBeacon := by simp [sendMsg]
@[simp] theorem sendMsg_std_seenSeq (s : State) (d : Nat) (b : List Byte) : (sendMsg s d b).std.seenSeq = s.std.seenSeq := by simp [sendMsg]
@[simp] theorem sendMsg_std_nextSeq (s : State) (d : Nat) (b : List Byte) : (sendMsg s d b).std.nextSeq = s.std.nextSeq := by simp [sendMsg]
@[simp] theorem sendMsg_std_lastSent (s : State) (d : Nat) (b : List Byte) : (sendMsg s d b).std.lastSent = s.std.lastSent := by simp [sendMsg]
@[simp] theorem sendMsg_std_beaconFrame (s : State) (d : Nat) (b : List Byte) : (sendMsg s d b).std.beaconFrame = s.std.beaconFrame := by simp [sendMsg]
@[simp] theorem sendMsg_std_beaconMeridian (s : State) (d : Nat) (b : List Byte) : (sendMsg s d b).std.beaconMeridian = s.std.beaconMeridian := by simp [sendMsg]
@[simp] theorem sendMsg_std_frameAt (s : State) (d : Nat) (b : List Byte) : (sendMsg s d b).std.frameAt = s.std.frameAt := by simp [sendMsg]
@[simp] theorem sendMsg_std_timeFrom (s : State) (d : Nat) (b : List Byte) : (sendMsg s d b).std.timeFrom = s.std.timeFrom := by simp [sendMsg]
@[simp] theorem sendMsg_std_staleSent (s : State) (d : Nat) (b : List Byte) : (sendMsg s d b).std.staleSent = s.std.staleSent := by simp [sendMsg]
@[simp] theorem sendMsg_std_staleAt (s : State) (d : Nat) (b : List Byte) : (sendMsg s d b).std.staleAt = s.std.staleAt := by simp [sendMsg]
@[simp] theorem sendMsg_std_result (s : State) (d : Nat) (b : List Byte) : (sendMsg s d b).std.result = s.std.result := by simp [sendMsg]
@[simp] theorem sendMsg_std_missing (s : State) (d : Nat) (b : List Byte) : (sendMsg s d b).std.missing = s.std.missing := by simp [sendMsg]
@[simp] theorem sendMsg_std_change (s : State) (d : Nat) (b : List Byte) : (sendMsg s d b).std.change = s.std.change := by simp [sendMsg]
@[simp] theorem sendMsg_std_passedOn (s : State) (d : Nat) (b : List Byte) : (sendMsg s d b).std.passedOn = s.std.passedOn := by simp [sendMsg]
@[simp] theorem sendMsg_std_buddyOverride (s : State) (d : Nat) (b : List Byte) : (sendMsg s d b).std.buddyOverride = s.std.buddyOverride := by simp [sendMsg]
@[simp] theorem sendMsg_std_timePort (s : State) (d : Nat) (b : List Byte) : (sendMsg s d b).std.timePort = s.std.timePort := by simp [sendMsg]
@[simp] theorem sendMsg_std_chainOnly (s : State) (d : Nat) (b : List Byte) : (sendMsg s d b).std.chainOnly = s.std.chainOnly := by simp [sendMsg]
@[simp] theorem sendMsg_std_route (s : State) (d : Nat) (b : List Byte) : (sendMsg s d b).std.route = s.std.route := by simp [sendMsg]
@[simp] theorem sendMsg_std_routeActive (s : State) (d : Nat) (b : List Byte) : (sendMsg s d b).std.routeActive = s.std.routeActive := by simp [sendMsg]
@[simp] theorem sendMsg_std_inbox (s : State) (d : Nat) (b : List Byte) : (sendMsg s d b).std.inbox = s.std.inbox := by simp [sendMsg]
@[simp] theorem sendMsg_std_inXfers (s : State) (d : Nat) (b : List Byte) : (sendMsg s d b).std.inXfers = s.std.inXfers := by simp [sendMsg]
@[simp] theorem sendMsg_std_outXfers (s : State) (d : Nat) (b : List Byte) : (sendMsg s d b).std.outXfers = s.std.outXfers := by simp [sendMsg]
@[simp] theorem sendMsg_std_nextXfer (s : State) (d : Nat) (b : List Byte) : (sendMsg s d b).std.nextXfer = s.std.nextXfer := by simp [sendMsg]
@[simp] theorem sendMsg_std_fwdReads (s : State) (d : Nat) (b : List Byte) : (sendMsg s d b).std.fwdReads = s.std.fwdReads := by simp [sendMsg]
@[simp] theorem sendMsg_std_nextTag (s : State) (d : Nat) (b : List Byte) : (sendMsg s d b).std.nextTag = s.std.nextTag := by simp [sendMsg]
@[simp] theorem sendMsg_std_early (s : State) (d : Nat) (b : List Byte) : (sendMsg s d b).std.early = s.std.early := by simp [sendMsg]

theorem flood_ports (s : State) (e : Nat) (b : List Byte) : ∃ ps, flood s e b = s.stdM fun d => { d with ports := ps } := by
  unfold flood
  generalize List.range 8 = l
  induction l generalizing s with
  | nil => exact ⟨s.std.ports, rfl⟩
  | cons p l ih =>
    simp only [List.foldl_cons]
    split
    · obtain ⟨ps, h⟩ := ih (sendPort s p b)
      exact ⟨ps, h⟩
    · exact ih s

@[simp] theorem flood_pending (s : State) (e : Nat) (b : List Byte) : (flood s e b).pending = s.pending := by obtain ⟨ps, h⟩ := flood_ports s e b; rw [h]; rfl
@[simp] theorem flood_now (s : State) (e : Nat) (b : List Byte) : (flood s e b).now = s.now := by obtain ⟨ps, h⟩ := flood_ports s e b; rw [h]; rfl
@[simp] theorem flood_ory (s : State) (e : Nat) (b : List Byte) : (flood s e b).ory = s.ory := by obtain ⟨ps, h⟩ := flood_ports s e b; rw [h]; rfl
@[simp] theorem flood_cells (s : State) (e : Nat) (b : List Byte) : (flood s e b).cells = s.cells := by obtain ⟨ps, h⟩ := flood_ports s e b; rw [h]; rfl
@[simp] theorem flood_lpe (s : State) (e : Nat) (b : List Byte) : (flood s e b).lpe = s.lpe := by obtain ⟨ps, h⟩ := flood_ports s e b; rw [h]; rfl
@[simp] theorem flood_parures (s : State) (e : Nat) (b : List Byte) : (flood s e b).parures = s.parures := by obtain ⟨ps, h⟩ := flood_ports s e b; rw [h]; rfl
@[simp] theorem flood_ast (s : State) (e : Nat) (b : List Byte) : (flood s e b).ast = s.ast := by obtain ⟨ps, h⟩ := flood_ports s e b; rw [h]; rfl
@[simp] theorem flood_smp (s : State) (e : Nat) (b : List Byte) : (flood s e b).smp = s.smp := by obtain ⟨ps, h⟩ := flood_ports s e b; rw [h]; rfl
@[simp] theorem flood_fil (s : State) (e : Nat) (b : List Byte) : (flood s e b).fil = s.fil := by obtain ⟨ps, h⟩ := flood_ports s e b; rw [h]; rfl
@[simp] theorem flood_stm (s : State) (e : Nat) (b : List Byte) : (flood s e b).stm = s.stm := by obtain ⟨ps, h⟩ := flood_ports s e b; rw [h]; rfl
@[simp] theorem flood_lockets (s : State) (e : Nat) (b : List Byte) : (flood s e b).lockets = s.lockets := by obtain ⟨ps, h⟩ := flood_ports s e b; rw [h]; rfl
@[simp] theorem flood_charms (s : State) (e : Nat) (b : List Byte) : (flood s e b).charms = s.charms := by obtain ⟨ps, h⟩ := flood_ports s e b; rw [h]; rfl
@[simp] theorem flood_facets (s : State) (e : Nat) (b : List Byte) : (flood s e b).facets = s.facets := by obtain ⟨ps, h⟩ := flood_ports s e b; rw [h]; rfl
@[simp] theorem flood_keys (s : State) (e : Nat) (b : List Byte) : (flood s e b).keys = s.keys := by obtain ⟨ps, h⟩ := flood_ports s e b; rw [h]; rfl
@[simp] theorem flood_t1 (s : State) (e : Nat) (b : List Byte) : (flood s e b).t1 = s.t1 := by obtain ⟨ps, h⟩ := flood_ports s e b; rw [h]; rfl
@[simp] theorem flood_extents (s : State) (e : Nat) (b : List Byte) : (flood s e b).extents = s.extents := by obtain ⟨ps, h⟩ := flood_ports s e b; rw [h]; rfl
@[simp] theorem flood_hbc (s : State) (e : Nat) (b : List Byte) : (flood s e b).hbc = s.hbc := by obtain ⟨ps, h⟩ := flood_ports s e b; rw [h]; rfl
@[simp] theorem flood_lpc (s : State) (e : Nat) (b : List Byte) : (flood s e b).lpc = s.lpc := by obtain ⟨ps, h⟩ := flood_ports s e b; rw [h]; rfl
@[simp] theorem flood_cur (s : State) (e : Nat) (b : List Byte) : (flood s e b).cur = s.cur := by obtain ⟨ps, h⟩ := flood_ports s e b; rw [h]; rfl
@[simp] theorem flood_bays (s : State) (e : Nat) (b : List Byte) : (flood s e b).bays = s.bays := by obtain ⟨ps, h⟩ := flood_ports s e b; rw [h]; rfl
@[simp] theorem flood_eph (s : State) (e : Nat) (b : List Byte) : (flood s e b).eph = s.eph := by obtain ⟨ps, h⟩ := flood_ports s e b; rw [h]; rfl
@[simp] theorem flood_traffic (s : State) (e : Nat) (b : List Byte) : (flood s e b).traffic = s.traffic := by obtain ⟨ps, h⟩ := flood_ports s e b; rw [h]; rfl
@[simp] theorem flood_colls (s : State) (e : Nat) (b : List Byte) : (flood s e b).colls = s.colls := by obtain ⟨ps, h⟩ := flood_ports s e b; rw [h]; rfl
@[simp] theorem flood_searches (s : State) (e : Nat) (b : List Byte) : (flood s e b).searches = s.searches := by obtain ⟨ps, h⟩ := flood_ports s e b; rw [h]; rfl
@[simp] theorem flood_selects (s : State) (e : Nat) (b : List Byte) : (flood s e b).selects = s.selects := by obtain ⟨ps, h⟩ := flood_ports s e b; rw [h]; rfl
@[simp] theorem flood_sieves (s : State) (e : Nat) (b : List Byte) : (flood s e b).sieves = s.sieves := by obtain ⟨ps, h⟩ := flood_ports s e b; rw [h]; rfl
@[simp] theorem flood_integ (s : State) (e : Nat) (b : List Byte) : (flood s e b).integ = s.integ := by obtain ⟨ps, h⟩ := flood_ports s e b; rw [h]; rfl
@[simp] theorem flood_ckpt (s : State) (e : Nat) (b : List Byte) : (flood s e b).ckpt = s.ckpt := by obtain ⟨ps, h⟩ := flood_ports s e b; rw [h]; rfl
@[simp] theorem flood_hif (s : State) (e : Nat) (b : List Byte) : (flood s e b).hif = s.hif := by obtain ⟨ps, h⟩ := flood_ports s e b; rw [h]; rfl
@[simp] theorem flood_lan (s : State) (e : Nat) (b : List Byte) : (flood s e b).lan = s.lan := by obtain ⟨ps, h⟩ := flood_ports s e b; rw [h]; rfl
@[simp] theorem flood_hostMem (s : State) (e : Nat) (b : List Byte) : (flood s e b).hostMem = s.hostMem := by obtain ⟨ps, h⟩ := flood_ports s e b; rw [h]; rfl
@[simp] theorem flood_replies (s : State) (e : Nat) (b : List Byte) : (flood s e b).replies = s.replies := by obtain ⟨ps, h⟩ := flood_ports s e b; rw [h]; rfl
@[simp] theorem flood_std_routeEn (s : State) (e : Nat) (b : List Byte) : (flood s e b).std.routeEn = s.std.routeEn := by obtain ⟨ps, h⟩ := flood_ports s e b; rw [h]; rfl
@[simp] theorem flood_std_tail (s : State) (e : Nat) (b : List Byte) : (flood s e b).std.tail = s.std.tail := by obtain ⟨ps, h⟩ := flood_ports s e b; rw [h]; rfl
@[simp] theorem flood_std_mode (s : State) (e : Nat) (b : List Byte) : (flood s e b).std.mode = s.std.mode := by obtain ⟨ps, h⟩ := flood_ports s e b; rw [h]; rfl
@[simp] theorem flood_std_event (s : State) (e : Nat) (b : List Byte) : (flood s e b).std.event = s.std.event := by obtain ⟨ps, h⟩ := flood_ports s e b; rw [h]; rfl
@[simp] theorem flood_std_count (s : State) (e : Nat) (b : List Byte) : (flood s e b).std.count = s.std.count := by obtain ⟨ps, h⟩ := flood_ports s e b; rw [h]; rfl
@[simp] theorem flood_std_position (s : State) (e : Nat) (b : List Byte) : (flood s e b).std.position = s.std.position := by obtain ⟨ps, h⟩ := flood_ports s e b; rw [h]; rfl
@[simp] theorem flood_std_enumLow (s : State) (e : Nat) (b : List Byte) : (flood s e b).std.enumLow = s.std.enumLow := by obtain ⟨ps, h⟩ := flood_ports s e b; rw [h]; rfl
@[simp] theorem flood_std_lastWord (s : State) (e : Nat) (b : List Byte) : (flood s e b).std.lastWord = s.std.lastWord := by obtain ⟨ps, h⟩ := flood_ports s e b; rw [h]; rfl
@[simp] theorem flood_std_adoptedAt (s : State) (e : Nat) (b : List Byte) : (flood s e b).std.adoptedAt = s.std.adoptedAt := by obtain ⟨ps, h⟩ := flood_ports s e b; rw [h]; rfl
@[simp] theorem flood_std_lastEnum (s : State) (e : Nat) (b : List Byte) : (flood s e b).std.lastEnum = s.std.lastEnum := by obtain ⟨ps, h⟩ := flood_ports s e b; rw [h]; rfl
@[simp] theorem flood_std_enumOut (s : State) (e : Nat) (b : List Byte) : (flood s e b).std.enumOut = s.std.enumOut := by obtain ⟨ps, h⟩ := flood_ports s e b; rw [h]; rfl
@[simp] theorem flood_std_countSent (s : State) (e : Nat) (b : List Byte) : (flood s e b).std.countSent = s.std.countSent := by obtain ⟨ps, h⟩ := flood_ports s e b; rw [h]; rfl
@[simp] theorem flood_std_epoch (s : State) (e : Nat) (b : List Byte) : (flood s e b).std.epoch = s.std.epoch := by obtain ⟨ps, h⟩ := flood_ports s e b; rw [h]; rfl
@[simp] theorem flood_std_prepared (s : State) (e : Nat) (b : List Byte) : (flood s e b).std.prepared = s.std.prepared := by obtain ⟨ps, h⟩ := flood_ports s e b; rw [h]; rfl
@[simp] theorem flood_std_members (s : State) (e : Nat) (b : List Byte) : (flood s e b).std.members = s.std.members := by obtain ⟨ps, h⟩ := flood_ports s e b; rw [h]; rfl
@[simp] theorem flood_std_membersLatch (s : State) (e : Nat) (b : List Byte) : (flood s e b).std.membersLatch = s.std.membersLatch := by obtain ⟨ps, h⟩ := flood_ports s e b; rw [h]; rfl
@[simp] theorem flood_std_buddy (s : State) (e : Nat) (b : List Byte) : (flood s e b).std.buddy = s.std.buddy := by obtain ⟨ps, h⟩ := flood_ports s e b; rw [h]; rfl
@[simp] theorem flood_std_deviceId (s : State) (e : Nat) (b : List Byte) : (flood s e b).std.deviceId = s.std.deviceId := by obtain ⟨ps, h⟩ := flood_ports s e b; rw [h]; rfl
@[simp] theorem flood_std_devidLatch (s : State) (e : Nat) (b : List Byte) : (flood s e b).std.devidLatch = s.std.devidLatch := by obtain ⟨ps, h⟩ := flood_ports s e b; rw [h]; rfl
@[simp] theorem flood_std_hostMode (s : State) (e : Nat) (b : List Byte) : (flood s e b).std.hostMode = s.std.hostMode := by obtain ⟨ps, h⟩ := flood_ports s e b; rw [h]; rfl
@[simp] theorem flood_std_modeInForce (s : State) (e : Nat) (b : List Byte) : (flood s e b).std.modeInForce = s.std.modeInForce := by obtain ⟨ps, h⟩ := flood_ports s e b; rw [h]; rfl
@[simp] theorem flood_std_offset (s : State) (e : Nat) (b : List Byte) : (flood s e b).std.offset = s.std.offset := by obtain ⟨ps, h⟩ := flood_ports s e b; rw [h]; rfl
@[simp] theorem flood_std_offsetLatch (s : State) (e : Nat) (b : List Byte) : (flood s e b).std.offsetLatch = s.std.offsetLatch := by obtain ⟨ps, h⟩ := flood_ports s e b; rw [h]; rfl
@[simp] theorem flood_std_lastBeacon (s : State) (e : Nat) (b : List Byte) : (flood s e b).std.lastBeacon = s.std.lastBeacon := by obtain ⟨ps, h⟩ := flood_ports s e b; rw [h]; rfl
@[simp] theorem flood_std_seenSeq (s : State) (e : Nat) (b : List Byte) : (flood s e b).std.seenSeq = s.std.seenSeq := by obtain ⟨ps, h⟩ := flood_ports s e b; rw [h]; rfl
@[simp] theorem flood_std_nextSeq (s : State) (e : Nat) (b : List Byte) : (flood s e b).std.nextSeq = s.std.nextSeq := by obtain ⟨ps, h⟩ := flood_ports s e b; rw [h]; rfl
@[simp] theorem flood_std_lastSent (s : State) (e : Nat) (b : List Byte) : (flood s e b).std.lastSent = s.std.lastSent := by obtain ⟨ps, h⟩ := flood_ports s e b; rw [h]; rfl
@[simp] theorem flood_std_beaconFrame (s : State) (e : Nat) (b : List Byte) : (flood s e b).std.beaconFrame = s.std.beaconFrame := by obtain ⟨ps, h⟩ := flood_ports s e b; rw [h]; rfl
@[simp] theorem flood_std_beaconMeridian (s : State) (e : Nat) (b : List Byte) : (flood s e b).std.beaconMeridian = s.std.beaconMeridian := by obtain ⟨ps, h⟩ := flood_ports s e b; rw [h]; rfl
@[simp] theorem flood_std_frameAt (s : State) (e : Nat) (b : List Byte) : (flood s e b).std.frameAt = s.std.frameAt := by obtain ⟨ps, h⟩ := flood_ports s e b; rw [h]; rfl
@[simp] theorem flood_std_timeFrom (s : State) (e : Nat) (b : List Byte) : (flood s e b).std.timeFrom = s.std.timeFrom := by obtain ⟨ps, h⟩ := flood_ports s e b; rw [h]; rfl
@[simp] theorem flood_std_unroutable (s : State) (e : Nat) (b : List Byte) : (flood s e b).std.unroutable = s.std.unroutable := by obtain ⟨ps, h⟩ := flood_ports s e b; rw [h]; rfl
@[simp] theorem flood_std_staleSent (s : State) (e : Nat) (b : List Byte) : (flood s e b).std.staleSent = s.std.staleSent := by obtain ⟨ps, h⟩ := flood_ports s e b; rw [h]; rfl
@[simp] theorem flood_std_staleAt (s : State) (e : Nat) (b : List Byte) : (flood s e b).std.staleAt = s.std.staleAt := by obtain ⟨ps, h⟩ := flood_ports s e b; rw [h]; rfl
@[simp] theorem flood_std_result (s : State) (e : Nat) (b : List Byte) : (flood s e b).std.result = s.std.result := by obtain ⟨ps, h⟩ := flood_ports s e b; rw [h]; rfl
@[simp] theorem flood_std_missing (s : State) (e : Nat) (b : List Byte) : (flood s e b).std.missing = s.std.missing := by obtain ⟨ps, h⟩ := flood_ports s e b; rw [h]; rfl
@[simp] theorem flood_std_change (s : State) (e : Nat) (b : List Byte) : (flood s e b).std.change = s.std.change := by obtain ⟨ps, h⟩ := flood_ports s e b; rw [h]; rfl
@[simp] theorem flood_std_passedOn (s : State) (e : Nat) (b : List Byte) : (flood s e b).std.passedOn = s.std.passedOn := by obtain ⟨ps, h⟩ := flood_ports s e b; rw [h]; rfl
@[simp] theorem flood_std_buddyOverride (s : State) (e : Nat) (b : List Byte) : (flood s e b).std.buddyOverride = s.std.buddyOverride := by obtain ⟨ps, h⟩ := flood_ports s e b; rw [h]; rfl
@[simp] theorem flood_std_timePort (s : State) (e : Nat) (b : List Byte) : (flood s e b).std.timePort = s.std.timePort := by obtain ⟨ps, h⟩ := flood_ports s e b; rw [h]; rfl
@[simp] theorem flood_std_chainOnly (s : State) (e : Nat) (b : List Byte) : (flood s e b).std.chainOnly = s.std.chainOnly := by obtain ⟨ps, h⟩ := flood_ports s e b; rw [h]; rfl
@[simp] theorem flood_std_route (s : State) (e : Nat) (b : List Byte) : (flood s e b).std.route = s.std.route := by obtain ⟨ps, h⟩ := flood_ports s e b; rw [h]; rfl
@[simp] theorem flood_std_routeActive (s : State) (e : Nat) (b : List Byte) : (flood s e b).std.routeActive = s.std.routeActive := by obtain ⟨ps, h⟩ := flood_ports s e b; rw [h]; rfl
@[simp] theorem flood_std_inbox (s : State) (e : Nat) (b : List Byte) : (flood s e b).std.inbox = s.std.inbox := by obtain ⟨ps, h⟩ := flood_ports s e b; rw [h]; rfl
@[simp] theorem flood_std_inXfers (s : State) (e : Nat) (b : List Byte) : (flood s e b).std.inXfers = s.std.inXfers := by obtain ⟨ps, h⟩ := flood_ports s e b; rw [h]; rfl
@[simp] theorem flood_std_outXfers (s : State) (e : Nat) (b : List Byte) : (flood s e b).std.outXfers = s.std.outXfers := by obtain ⟨ps, h⟩ := flood_ports s e b; rw [h]; rfl
@[simp] theorem flood_std_nextXfer (s : State) (e : Nat) (b : List Byte) : (flood s e b).std.nextXfer = s.std.nextXfer := by obtain ⟨ps, h⟩ := flood_ports s e b; rw [h]; rfl
@[simp] theorem flood_std_fwdReads (s : State) (e : Nat) (b : List Byte) : (flood s e b).std.fwdReads = s.std.fwdReads := by obtain ⟨ps, h⟩ := flood_ports s e b; rw [h]; rfl
@[simp] theorem flood_std_nextTag (s : State) (e : Nat) (b : List Byte) : (flood s e b).std.nextTag = s.std.nextTag := by obtain ⟨ps, h⟩ := flood_ports s e b; rw [h]; rfl
@[simp] theorem flood_std_early (s : State) (e : Nat) (b : List Byte) : (flood s e b).std.early = s.std.early := by obtain ⟨ps, h⟩ := flood_ports s e b; rw [h]; rfl

@[simp] theorem passMember_pending (s : State) (m : Msg) : (passMember s m).pending = s.pending := by unfold passMember; dsimp only; split <;> simp
@[simp] theorem passMember_now (s : State) (m : Msg) : (passMember s m).now = s.now := by unfold passMember; dsimp only; split <;> simp
@[simp] theorem passMember_ory (s : State) (m : Msg) : (passMember s m).ory = s.ory := by unfold passMember; dsimp only; split <;> simp
@[simp] theorem passMember_cells (s : State) (m : Msg) : (passMember s m).cells = s.cells := by unfold passMember; dsimp only; split <;> simp
@[simp] theorem passMember_lpe (s : State) (m : Msg) : (passMember s m).lpe = s.lpe := by unfold passMember; dsimp only; split <;> simp
@[simp] theorem passMember_parures (s : State) (m : Msg) : (passMember s m).parures = s.parures := by unfold passMember; dsimp only; split <;> simp
@[simp] theorem passMember_ast (s : State) (m : Msg) : (passMember s m).ast = s.ast := by unfold passMember; dsimp only; split <;> simp
@[simp] theorem passMember_smp (s : State) (m : Msg) : (passMember s m).smp = s.smp := by unfold passMember; dsimp only; split <;> simp
@[simp] theorem passMember_fil (s : State) (m : Msg) : (passMember s m).fil = s.fil := by unfold passMember; dsimp only; split <;> simp
@[simp] theorem passMember_stm (s : State) (m : Msg) : (passMember s m).stm = s.stm := by unfold passMember; dsimp only; split <;> simp
@[simp] theorem passMember_lockets (s : State) (m : Msg) : (passMember s m).lockets = s.lockets := by unfold passMember; dsimp only; split <;> simp
@[simp] theorem passMember_charms (s : State) (m : Msg) : (passMember s m).charms = s.charms := by unfold passMember; dsimp only; split <;> simp
@[simp] theorem passMember_facets (s : State) (m : Msg) : (passMember s m).facets = s.facets := by unfold passMember; dsimp only; split <;> simp
@[simp] theorem passMember_keys (s : State) (m : Msg) : (passMember s m).keys = s.keys := by unfold passMember; dsimp only; split <;> simp
@[simp] theorem passMember_t1 (s : State) (m : Msg) : (passMember s m).t1 = s.t1 := by unfold passMember; dsimp only; split <;> simp
@[simp] theorem passMember_extents (s : State) (m : Msg) : (passMember s m).extents = s.extents := by unfold passMember; dsimp only; split <;> simp
@[simp] theorem passMember_hbc (s : State) (m : Msg) : (passMember s m).hbc = s.hbc := by unfold passMember; dsimp only; split <;> simp
@[simp] theorem passMember_lpc (s : State) (m : Msg) : (passMember s m).lpc = s.lpc := by unfold passMember; dsimp only; split <;> simp
@[simp] theorem passMember_cur (s : State) (m : Msg) : (passMember s m).cur = s.cur := by unfold passMember; dsimp only; split <;> simp
@[simp] theorem passMember_bays (s : State) (m : Msg) : (passMember s m).bays = s.bays := by unfold passMember; dsimp only; split <;> simp
@[simp] theorem passMember_eph (s : State) (m : Msg) : (passMember s m).eph = s.eph := by unfold passMember; dsimp only; split <;> simp
@[simp] theorem passMember_traffic (s : State) (m : Msg) : (passMember s m).traffic = s.traffic := by unfold passMember; dsimp only; split <;> simp
@[simp] theorem passMember_colls (s : State) (m : Msg) : (passMember s m).colls = s.colls := by unfold passMember; dsimp only; split <;> simp
@[simp] theorem passMember_searches (s : State) (m : Msg) : (passMember s m).searches = s.searches := by unfold passMember; dsimp only; split <;> simp
@[simp] theorem passMember_selects (s : State) (m : Msg) : (passMember s m).selects = s.selects := by unfold passMember; dsimp only; split <;> simp
@[simp] theorem passMember_sieves (s : State) (m : Msg) : (passMember s m).sieves = s.sieves := by unfold passMember; dsimp only; split <;> simp
@[simp] theorem passMember_integ (s : State) (m : Msg) : (passMember s m).integ = s.integ := by unfold passMember; dsimp only; split <;> simp
@[simp] theorem passMember_ckpt (s : State) (m : Msg) : (passMember s m).ckpt = s.ckpt := by unfold passMember; dsimp only; split <;> simp
@[simp] theorem passMember_hif (s : State) (m : Msg) : (passMember s m).hif = s.hif := by unfold passMember; dsimp only; split <;> simp
@[simp] theorem passMember_lan (s : State) (m : Msg) : (passMember s m).lan = s.lan := by unfold passMember; dsimp only; split <;> simp
@[simp] theorem passMember_hostMem (s : State) (m : Msg) : (passMember s m).hostMem = s.hostMem := by unfold passMember; dsimp only; split <;> simp
@[simp] theorem passMember_replies (s : State) (m : Msg) : (passMember s m).replies = s.replies := by unfold passMember; dsimp only; split <;> simp
@[simp] theorem passMember_std_routeEn (s : State) (m : Msg) : (passMember s m).std.routeEn = s.std.routeEn := by unfold passMember; dsimp only; split <;> simp
@[simp] theorem passMember_std_tail (s : State) (m : Msg) : (passMember s m).std.tail = s.std.tail := by unfold passMember; dsimp only; split <;> simp
@[simp] theorem passMember_std_mode (s : State) (m : Msg) : (passMember s m).std.mode = s.std.mode := by unfold passMember; dsimp only; split <;> simp
@[simp] theorem passMember_std_event (s : State) (m : Msg) : (passMember s m).std.event = s.std.event := by unfold passMember; dsimp only; split <;> simp
@[simp] theorem passMember_std_count (s : State) (m : Msg) : (passMember s m).std.count = s.std.count := by unfold passMember; dsimp only; split <;> simp
@[simp] theorem passMember_std_position (s : State) (m : Msg) : (passMember s m).std.position = s.std.position := by unfold passMember; dsimp only; split <;> simp
@[simp] theorem passMember_std_enumLow (s : State) (m : Msg) : (passMember s m).std.enumLow = s.std.enumLow := by unfold passMember; dsimp only; split <;> simp
@[simp] theorem passMember_std_lastWord (s : State) (m : Msg) : (passMember s m).std.lastWord = s.std.lastWord := by unfold passMember; dsimp only; split <;> simp
@[simp] theorem passMember_std_adoptedAt (s : State) (m : Msg) : (passMember s m).std.adoptedAt = s.std.adoptedAt := by unfold passMember; dsimp only; split <;> simp
@[simp] theorem passMember_std_lastEnum (s : State) (m : Msg) : (passMember s m).std.lastEnum = s.std.lastEnum := by unfold passMember; dsimp only; split <;> simp
@[simp] theorem passMember_std_enumOut (s : State) (m : Msg) : (passMember s m).std.enumOut = s.std.enumOut := by unfold passMember; dsimp only; split <;> simp
@[simp] theorem passMember_std_countSent (s : State) (m : Msg) : (passMember s m).std.countSent = s.std.countSent := by unfold passMember; dsimp only; split <;> simp
@[simp] theorem passMember_std_epoch (s : State) (m : Msg) : (passMember s m).std.epoch = s.std.epoch := by unfold passMember; dsimp only; split <;> simp
@[simp] theorem passMember_std_prepared (s : State) (m : Msg) : (passMember s m).std.prepared = s.std.prepared := by unfold passMember; dsimp only; split <;> simp
@[simp] theorem passMember_std_members (s : State) (m : Msg) : (passMember s m).std.members = s.std.members := by unfold passMember; dsimp only; split <;> simp
@[simp] theorem passMember_std_membersLatch (s : State) (m : Msg) : (passMember s m).std.membersLatch = s.std.membersLatch := by unfold passMember; dsimp only; split <;> simp
@[simp] theorem passMember_std_buddy (s : State) (m : Msg) : (passMember s m).std.buddy = s.std.buddy := by unfold passMember; dsimp only; split <;> simp
@[simp] theorem passMember_std_deviceId (s : State) (m : Msg) : (passMember s m).std.deviceId = s.std.deviceId := by unfold passMember; dsimp only; split <;> simp
@[simp] theorem passMember_std_devidLatch (s : State) (m : Msg) : (passMember s m).std.devidLatch = s.std.devidLatch := by unfold passMember; dsimp only; split <;> simp
@[simp] theorem passMember_std_hostMode (s : State) (m : Msg) : (passMember s m).std.hostMode = s.std.hostMode := by unfold passMember; dsimp only; split <;> simp
@[simp] theorem passMember_std_modeInForce (s : State) (m : Msg) : (passMember s m).std.modeInForce = s.std.modeInForce := by unfold passMember; dsimp only; split <;> simp
@[simp] theorem passMember_std_offset (s : State) (m : Msg) : (passMember s m).std.offset = s.std.offset := by unfold passMember; dsimp only; split <;> simp
@[simp] theorem passMember_std_offsetLatch (s : State) (m : Msg) : (passMember s m).std.offsetLatch = s.std.offsetLatch := by unfold passMember; dsimp only; split <;> simp
@[simp] theorem passMember_std_lastBeacon (s : State) (m : Msg) : (passMember s m).std.lastBeacon = s.std.lastBeacon := by unfold passMember; dsimp only; split <;> simp
@[simp] theorem passMember_std_seenSeq (s : State) (m : Msg) : (passMember s m).std.seenSeq = s.std.seenSeq := by unfold passMember; dsimp only; split <;> simp
@[simp] theorem passMember_std_nextSeq (s : State) (m : Msg) : (passMember s m).std.nextSeq = s.std.nextSeq := by unfold passMember; dsimp only; split <;> simp
@[simp] theorem passMember_std_lastSent (s : State) (m : Msg) : (passMember s m).std.lastSent = s.std.lastSent := by unfold passMember; dsimp only; split <;> simp
@[simp] theorem passMember_std_beaconFrame (s : State) (m : Msg) : (passMember s m).std.beaconFrame = s.std.beaconFrame := by unfold passMember; dsimp only; split <;> simp
@[simp] theorem passMember_std_beaconMeridian (s : State) (m : Msg) : (passMember s m).std.beaconMeridian = s.std.beaconMeridian := by unfold passMember; dsimp only; split <;> simp
@[simp] theorem passMember_std_frameAt (s : State) (m : Msg) : (passMember s m).std.frameAt = s.std.frameAt := by unfold passMember; dsimp only; split <;> simp
@[simp] theorem passMember_std_timeFrom (s : State) (m : Msg) : (passMember s m).std.timeFrom = s.std.timeFrom := by unfold passMember; dsimp only; split <;> simp
@[simp] theorem passMember_std_unroutable (s : State) (m : Msg) : (passMember s m).std.unroutable = s.std.unroutable := by unfold passMember; dsimp only; split <;> simp
@[simp] theorem passMember_std_staleSent (s : State) (m : Msg) : (passMember s m).std.staleSent = s.std.staleSent := by unfold passMember; dsimp only; split <;> simp
@[simp] theorem passMember_std_staleAt (s : State) (m : Msg) : (passMember s m).std.staleAt = s.std.staleAt := by unfold passMember; dsimp only; split <;> simp
@[simp] theorem passMember_std_result (s : State) (m : Msg) : (passMember s m).std.result = s.std.result := by unfold passMember; dsimp only; split <;> simp
@[simp] theorem passMember_std_missing (s : State) (m : Msg) : (passMember s m).std.missing = s.std.missing := by unfold passMember; dsimp only; split <;> simp
@[simp] theorem passMember_std_change (s : State) (m : Msg) : (passMember s m).std.change = s.std.change := by unfold passMember; dsimp only; split <;> simp
@[simp] theorem passMember_std_buddyOverride (s : State) (m : Msg) : (passMember s m).std.buddyOverride = s.std.buddyOverride := by unfold passMember; dsimp only; split <;> simp
@[simp] theorem passMember_std_timePort (s : State) (m : Msg) : (passMember s m).std.timePort = s.std.timePort := by unfold passMember; dsimp only; split <;> simp
@[simp] theorem passMember_std_chainOnly (s : State) (m : Msg) : (passMember s m).std.chainOnly = s.std.chainOnly := by unfold passMember; dsimp only; split <;> simp
@[simp] theorem passMember_std_route (s : State) (m : Msg) : (passMember s m).std.route = s.std.route := by unfold passMember; dsimp only; split <;> simp
@[simp] theorem passMember_std_routeActive (s : State) (m : Msg) : (passMember s m).std.routeActive = s.std.routeActive := by unfold passMember; dsimp only; split <;> simp
@[simp] theorem passMember_std_inbox (s : State) (m : Msg) : (passMember s m).std.inbox = s.std.inbox := by unfold passMember; dsimp only; split <;> simp
@[simp] theorem passMember_std_inXfers (s : State) (m : Msg) : (passMember s m).std.inXfers = s.std.inXfers := by unfold passMember; dsimp only; split <;> simp
@[simp] theorem passMember_std_outXfers (s : State) (m : Msg) : (passMember s m).std.outXfers = s.std.outXfers := by unfold passMember; dsimp only; split <;> simp
@[simp] theorem passMember_std_nextXfer (s : State) (m : Msg) : (passMember s m).std.nextXfer = s.std.nextXfer := by unfold passMember; dsimp only; split <;> simp
@[simp] theorem passMember_std_fwdReads (s : State) (m : Msg) : (passMember s m).std.fwdReads = s.std.fwdReads := by unfold passMember; dsimp only; split <;> simp
@[simp] theorem passMember_std_nextTag (s : State) (m : Msg) : (passMember s m).std.nextTag = s.std.nextTag := by unfold passMember; dsimp only; split <;> simp
@[simp] theorem passMember_std_early (s : State) (m : Msg) : (passMember s m).std.early = s.std.early := by unfold passMember; dsimp only; split <;> simp

@[simp] theorem floodMember_pending (s : State) (y e c m : Nat) : (floodMember s y e c m).pending = s.pending := by simp [floodMember]
@[simp] theorem floodMember_now (s : State) (y e c m : Nat) : (floodMember s y e c m).now = s.now := by simp [floodMember]
@[simp] theorem floodMember_ory (s : State) (y e c m : Nat) : (floodMember s y e c m).ory = s.ory := by simp [floodMember]
@[simp] theorem floodMember_cells (s : State) (y e c m : Nat) : (floodMember s y e c m).cells = s.cells := by simp [floodMember]
@[simp] theorem floodMember_lpe (s : State) (y e c m : Nat) : (floodMember s y e c m).lpe = s.lpe := by simp [floodMember]
@[simp] theorem floodMember_parures (s : State) (y e c m : Nat) : (floodMember s y e c m).parures = s.parures := by simp [floodMember]
@[simp] theorem floodMember_ast (s : State) (y e c m : Nat) : (floodMember s y e c m).ast = s.ast := by simp [floodMember]
@[simp] theorem floodMember_smp (s : State) (y e c m : Nat) : (floodMember s y e c m).smp = s.smp := by simp [floodMember]
@[simp] theorem floodMember_fil (s : State) (y e c m : Nat) : (floodMember s y e c m).fil = s.fil := by simp [floodMember]
@[simp] theorem floodMember_stm (s : State) (y e c m : Nat) : (floodMember s y e c m).stm = s.stm := by simp [floodMember]
@[simp] theorem floodMember_lockets (s : State) (y e c m : Nat) : (floodMember s y e c m).lockets = s.lockets := by simp [floodMember]
@[simp] theorem floodMember_charms (s : State) (y e c m : Nat) : (floodMember s y e c m).charms = s.charms := by simp [floodMember]
@[simp] theorem floodMember_facets (s : State) (y e c m : Nat) : (floodMember s y e c m).facets = s.facets := by simp [floodMember]
@[simp] theorem floodMember_keys (s : State) (y e c m : Nat) : (floodMember s y e c m).keys = s.keys := by simp [floodMember]
@[simp] theorem floodMember_t1 (s : State) (y e c m : Nat) : (floodMember s y e c m).t1 = s.t1 := by simp [floodMember]
@[simp] theorem floodMember_extents (s : State) (y e c m : Nat) : (floodMember s y e c m).extents = s.extents := by simp [floodMember]
@[simp] theorem floodMember_hbc (s : State) (y e c m : Nat) : (floodMember s y e c m).hbc = s.hbc := by simp [floodMember]
@[simp] theorem floodMember_lpc (s : State) (y e c m : Nat) : (floodMember s y e c m).lpc = s.lpc := by simp [floodMember]
@[simp] theorem floodMember_cur (s : State) (y e c m : Nat) : (floodMember s y e c m).cur = s.cur := by simp [floodMember]
@[simp] theorem floodMember_bays (s : State) (y e c m : Nat) : (floodMember s y e c m).bays = s.bays := by simp [floodMember]
@[simp] theorem floodMember_eph (s : State) (y e c m : Nat) : (floodMember s y e c m).eph = s.eph := by simp [floodMember]
@[simp] theorem floodMember_traffic (s : State) (y e c m : Nat) : (floodMember s y e c m).traffic = s.traffic := by simp [floodMember]
@[simp] theorem floodMember_colls (s : State) (y e c m : Nat) : (floodMember s y e c m).colls = s.colls := by simp [floodMember]
@[simp] theorem floodMember_searches (s : State) (y e c m : Nat) : (floodMember s y e c m).searches = s.searches := by simp [floodMember]
@[simp] theorem floodMember_selects (s : State) (y e c m : Nat) : (floodMember s y e c m).selects = s.selects := by simp [floodMember]
@[simp] theorem floodMember_sieves (s : State) (y e c m : Nat) : (floodMember s y e c m).sieves = s.sieves := by simp [floodMember]
@[simp] theorem floodMember_integ (s : State) (y e c m : Nat) : (floodMember s y e c m).integ = s.integ := by simp [floodMember]
@[simp] theorem floodMember_ckpt (s : State) (y e c m : Nat) : (floodMember s y e c m).ckpt = s.ckpt := by simp [floodMember]
@[simp] theorem floodMember_hif (s : State) (y e c m : Nat) : (floodMember s y e c m).hif = s.hif := by simp [floodMember]
@[simp] theorem floodMember_lan (s : State) (y e c m : Nat) : (floodMember s y e c m).lan = s.lan := by simp [floodMember]
@[simp] theorem floodMember_hostMem (s : State) (y e c m : Nat) : (floodMember s y e c m).hostMem = s.hostMem := by simp [floodMember]
@[simp] theorem floodMember_replies (s : State) (y e c m : Nat) : (floodMember s y e c m).replies = s.replies := by simp [floodMember]
@[simp] theorem floodMember_std_routeEn (s : State) (y e c m : Nat) : (floodMember s y e c m).std.routeEn = s.std.routeEn := by simp [floodMember]
@[simp] theorem floodMember_std_tail (s : State) (y e c m : Nat) : (floodMember s y e c m).std.tail = s.std.tail := by simp [floodMember]
@[simp] theorem floodMember_std_mode (s : State) (y e c m : Nat) : (floodMember s y e c m).std.mode = s.std.mode := by simp [floodMember]
@[simp] theorem floodMember_std_event (s : State) (y e c m : Nat) : (floodMember s y e c m).std.event = s.std.event := by simp [floodMember]
@[simp] theorem floodMember_std_count (s : State) (y e c m : Nat) : (floodMember s y e c m).std.count = s.std.count := by simp [floodMember]
@[simp] theorem floodMember_std_position (s : State) (y e c m : Nat) : (floodMember s y e c m).std.position = s.std.position := by simp [floodMember]
@[simp] theorem floodMember_std_enumLow (s : State) (y e c m : Nat) : (floodMember s y e c m).std.enumLow = s.std.enumLow := by simp [floodMember]
@[simp] theorem floodMember_std_lastWord (s : State) (y e c m : Nat) : (floodMember s y e c m).std.lastWord = s.std.lastWord := by simp [floodMember]
@[simp] theorem floodMember_std_adoptedAt (s : State) (y e c m : Nat) : (floodMember s y e c m).std.adoptedAt = s.std.adoptedAt := by simp [floodMember]
@[simp] theorem floodMember_std_lastEnum (s : State) (y e c m : Nat) : (floodMember s y e c m).std.lastEnum = s.std.lastEnum := by simp [floodMember]
@[simp] theorem floodMember_std_enumOut (s : State) (y e c m : Nat) : (floodMember s y e c m).std.enumOut = s.std.enumOut := by simp [floodMember]
@[simp] theorem floodMember_std_countSent (s : State) (y e c m : Nat) : (floodMember s y e c m).std.countSent = s.std.countSent := by simp [floodMember]
@[simp] theorem floodMember_std_epoch (s : State) (y e c m : Nat) : (floodMember s y e c m).std.epoch = s.std.epoch := by simp [floodMember]
@[simp] theorem floodMember_std_prepared (s : State) (y e c m : Nat) : (floodMember s y e c m).std.prepared = s.std.prepared := by simp [floodMember]
@[simp] theorem floodMember_std_members (s : State) (y e c m : Nat) : (floodMember s y e c m).std.members = s.std.members := by simp [floodMember]
@[simp] theorem floodMember_std_membersLatch (s : State) (y e c m : Nat) : (floodMember s y e c m).std.membersLatch = s.std.membersLatch := by simp [floodMember]
@[simp] theorem floodMember_std_buddy (s : State) (y e c m : Nat) : (floodMember s y e c m).std.buddy = s.std.buddy := by simp [floodMember]
@[simp] theorem floodMember_std_deviceId (s : State) (y e c m : Nat) : (floodMember s y e c m).std.deviceId = s.std.deviceId := by simp [floodMember]
@[simp] theorem floodMember_std_devidLatch (s : State) (y e c m : Nat) : (floodMember s y e c m).std.devidLatch = s.std.devidLatch := by simp [floodMember]
@[simp] theorem floodMember_std_hostMode (s : State) (y e c m : Nat) : (floodMember s y e c m).std.hostMode = s.std.hostMode := by simp [floodMember]
@[simp] theorem floodMember_std_modeInForce (s : State) (y e c m : Nat) : (floodMember s y e c m).std.modeInForce = s.std.modeInForce := by simp [floodMember]
@[simp] theorem floodMember_std_offset (s : State) (y e c m : Nat) : (floodMember s y e c m).std.offset = s.std.offset := by simp [floodMember]
@[simp] theorem floodMember_std_offsetLatch (s : State) (y e c m : Nat) : (floodMember s y e c m).std.offsetLatch = s.std.offsetLatch := by simp [floodMember]
@[simp] theorem floodMember_std_lastBeacon (s : State) (y e c m : Nat) : (floodMember s y e c m).std.lastBeacon = s.std.lastBeacon := by simp [floodMember]
@[simp] theorem floodMember_std_seenSeq (s : State) (y e c m : Nat) : (floodMember s y e c m).std.seenSeq = s.std.seenSeq := by simp [floodMember]
@[simp] theorem floodMember_std_nextSeq (s : State) (y e c m : Nat) : (floodMember s y e c m).std.nextSeq = s.std.nextSeq := by simp [floodMember]
@[simp] theorem floodMember_std_lastSent (s : State) (y e c m : Nat) : (floodMember s y e c m).std.lastSent = s.std.lastSent := by simp [floodMember]
@[simp] theorem floodMember_std_beaconFrame (s : State) (y e c m : Nat) : (floodMember s y e c m).std.beaconFrame = s.std.beaconFrame := by simp [floodMember]
@[simp] theorem floodMember_std_beaconMeridian (s : State) (y e c m : Nat) : (floodMember s y e c m).std.beaconMeridian = s.std.beaconMeridian := by simp [floodMember]
@[simp] theorem floodMember_std_frameAt (s : State) (y e c m : Nat) : (floodMember s y e c m).std.frameAt = s.std.frameAt := by simp [floodMember]
@[simp] theorem floodMember_std_timeFrom (s : State) (y e c m : Nat) : (floodMember s y e c m).std.timeFrom = s.std.timeFrom := by simp [floodMember]
@[simp] theorem floodMember_std_unroutable (s : State) (y e c m : Nat) : (floodMember s y e c m).std.unroutable = s.std.unroutable := by simp [floodMember]
@[simp] theorem floodMember_std_staleSent (s : State) (y e c m : Nat) : (floodMember s y e c m).std.staleSent = s.std.staleSent := by simp [floodMember]
@[simp] theorem floodMember_std_staleAt (s : State) (y e c m : Nat) : (floodMember s y e c m).std.staleAt = s.std.staleAt := by simp [floodMember]
@[simp] theorem floodMember_std_result (s : State) (y e c m : Nat) : (floodMember s y e c m).std.result = s.std.result := by simp [floodMember]
@[simp] theorem floodMember_std_missing (s : State) (y e c m : Nat) : (floodMember s y e c m).std.missing = s.std.missing := by simp [floodMember]
@[simp] theorem floodMember_std_change (s : State) (y e c m : Nat) : (floodMember s y e c m).std.change = s.std.change := by simp [floodMember]
@[simp] theorem floodMember_std_buddyOverride (s : State) (y e c m : Nat) : (floodMember s y e c m).std.buddyOverride = s.std.buddyOverride := by simp [floodMember]
@[simp] theorem floodMember_std_timePort (s : State) (y e c m : Nat) : (floodMember s y e c m).std.timePort = s.std.timePort := by simp [floodMember]
@[simp] theorem floodMember_std_chainOnly (s : State) (y e c m : Nat) : (floodMember s y e c m).std.chainOnly = s.std.chainOnly := by simp [floodMember]
@[simp] theorem floodMember_std_route (s : State) (y e c m : Nat) : (floodMember s y e c m).std.route = s.std.route := by simp [floodMember]
@[simp] theorem floodMember_std_routeActive (s : State) (y e c m : Nat) : (floodMember s y e c m).std.routeActive = s.std.routeActive := by simp [floodMember]
@[simp] theorem floodMember_std_inbox (s : State) (y e c m : Nat) : (floodMember s y e c m).std.inbox = s.std.inbox := by simp [floodMember]
@[simp] theorem floodMember_std_inXfers (s : State) (y e c m : Nat) : (floodMember s y e c m).std.inXfers = s.std.inXfers := by simp [floodMember]
@[simp] theorem floodMember_std_outXfers (s : State) (y e c m : Nat) : (floodMember s y e c m).std.outXfers = s.std.outXfers := by simp [floodMember]
@[simp] theorem floodMember_std_nextXfer (s : State) (y e c m : Nat) : (floodMember s y e c m).std.nextXfer = s.std.nextXfer := by simp [floodMember]
@[simp] theorem floodMember_std_fwdReads (s : State) (y e c m : Nat) : (floodMember s y e c m).std.fwdReads = s.std.fwdReads := by simp [floodMember]
@[simp] theorem floodMember_std_nextTag (s : State) (y e c m : Nat) : (floodMember s y e c m).std.nextTag = s.std.nextTag := by simp [floodMember]
@[simp] theorem floodMember_std_early (s : State) (y e c m : Nat) : (floodMember s y e c m).std.early = s.std.early := by simp [floodMember]

@[simp] theorem refuseChange_pending (s : State)  : (refuseChange s ).pending = s.pending := rfl
@[simp] theorem refuseChange_now (s : State)  : (refuseChange s ).now = s.now := rfl
@[simp] theorem refuseChange_ory (s : State)  : (refuseChange s ).ory = s.ory := rfl
@[simp] theorem refuseChange_cells (s : State)  : (refuseChange s ).cells = s.cells := rfl
@[simp] theorem refuseChange_lpe (s : State)  : (refuseChange s ).lpe = s.lpe := rfl
@[simp] theorem refuseChange_parures (s : State)  : (refuseChange s ).parures = s.parures := rfl
@[simp] theorem refuseChange_ast (s : State)  : (refuseChange s ).ast = s.ast := rfl
@[simp] theorem refuseChange_smp (s : State)  : (refuseChange s ).smp = s.smp := rfl
@[simp] theorem refuseChange_fil (s : State)  : (refuseChange s ).fil = s.fil := rfl
@[simp] theorem refuseChange_stm (s : State)  : (refuseChange s ).stm = s.stm := rfl
@[simp] theorem refuseChange_lockets (s : State)  : (refuseChange s ).lockets = s.lockets := rfl
@[simp] theorem refuseChange_charms (s : State)  : (refuseChange s ).charms = s.charms := rfl
@[simp] theorem refuseChange_facets (s : State)  : (refuseChange s ).facets = s.facets := rfl
@[simp] theorem refuseChange_keys (s : State)  : (refuseChange s ).keys = s.keys := rfl
@[simp] theorem refuseChange_t1 (s : State)  : (refuseChange s ).t1 = s.t1 := rfl
@[simp] theorem refuseChange_extents (s : State)  : (refuseChange s ).extents = s.extents := rfl
@[simp] theorem refuseChange_hbc (s : State)  : (refuseChange s ).hbc = s.hbc := rfl
@[simp] theorem refuseChange_lpc (s : State)  : (refuseChange s ).lpc = s.lpc := rfl
@[simp] theorem refuseChange_cur (s : State)  : (refuseChange s ).cur = s.cur := rfl
@[simp] theorem refuseChange_bays (s : State)  : (refuseChange s ).bays = s.bays := rfl
@[simp] theorem refuseChange_eph (s : State)  : (refuseChange s ).eph = s.eph := rfl
@[simp] theorem refuseChange_traffic (s : State)  : (refuseChange s ).traffic = s.traffic := rfl
@[simp] theorem refuseChange_colls (s : State)  : (refuseChange s ).colls = s.colls := rfl
@[simp] theorem refuseChange_searches (s : State)  : (refuseChange s ).searches = s.searches := rfl
@[simp] theorem refuseChange_selects (s : State)  : (refuseChange s ).selects = s.selects := rfl
@[simp] theorem refuseChange_sieves (s : State)  : (refuseChange s ).sieves = s.sieves := rfl
@[simp] theorem refuseChange_integ (s : State)  : (refuseChange s ).integ = s.integ := rfl
@[simp] theorem refuseChange_ckpt (s : State)  : (refuseChange s ).ckpt = s.ckpt := rfl
@[simp] theorem refuseChange_hif (s : State)  : (refuseChange s ).hif = s.hif := rfl
@[simp] theorem refuseChange_lan (s : State)  : (refuseChange s ).lan = s.lan := rfl
@[simp] theorem refuseChange_hostMem (s : State)  : (refuseChange s ).hostMem = s.hostMem := rfl
@[simp] theorem refuseChange_replies (s : State)  : (refuseChange s ).replies = s.replies := rfl
@[simp] theorem refuseChange_std_routeEn (s : State)  : (refuseChange s ).std.routeEn = s.std.routeEn := rfl
@[simp] theorem refuseChange_std_tail (s : State)  : (refuseChange s ).std.tail = s.std.tail := rfl
@[simp] theorem refuseChange_std_mode (s : State)  : (refuseChange s ).std.mode = s.std.mode := rfl
@[simp] theorem refuseChange_std_count (s : State)  : (refuseChange s ).std.count = s.std.count := rfl
@[simp] theorem refuseChange_std_position (s : State)  : (refuseChange s ).std.position = s.std.position := rfl
@[simp] theorem refuseChange_std_enumLow (s : State)  : (refuseChange s ).std.enumLow = s.std.enumLow := rfl
@[simp] theorem refuseChange_std_lastWord (s : State)  : (refuseChange s ).std.lastWord = s.std.lastWord := rfl
@[simp] theorem refuseChange_std_adoptedAt (s : State)  : (refuseChange s ).std.adoptedAt = s.std.adoptedAt := rfl
@[simp] theorem refuseChange_std_lastEnum (s : State)  : (refuseChange s ).std.lastEnum = s.std.lastEnum := rfl
@[simp] theorem refuseChange_std_enumOut (s : State)  : (refuseChange s ).std.enumOut = s.std.enumOut := rfl
@[simp] theorem refuseChange_std_countSent (s : State)  : (refuseChange s ).std.countSent = s.std.countSent := rfl
@[simp] theorem refuseChange_std_epoch (s : State)  : (refuseChange s ).std.epoch = s.std.epoch := rfl
@[simp] theorem refuseChange_std_prepared (s : State)  : (refuseChange s ).std.prepared = s.std.prepared := rfl
@[simp] theorem refuseChange_std_members (s : State)  : (refuseChange s ).std.members = s.std.members := rfl
@[simp] theorem refuseChange_std_membersLatch (s : State)  : (refuseChange s ).std.membersLatch = s.std.membersLatch := rfl
@[simp] theorem refuseChange_std_buddy (s : State)  : (refuseChange s ).std.buddy = s.std.buddy := rfl
@[simp] theorem refuseChange_std_deviceId (s : State)  : (refuseChange s ).std.deviceId = s.std.deviceId := rfl
@[simp] theorem refuseChange_std_devidLatch (s : State)  : (refuseChange s ).std.devidLatch = s.std.devidLatch := rfl
@[simp] theorem refuseChange_std_hostMode (s : State)  : (refuseChange s ).std.hostMode = s.std.hostMode := rfl
@[simp] theorem refuseChange_std_modeInForce (s : State)  : (refuseChange s ).std.modeInForce = s.std.modeInForce := rfl
@[simp] theorem refuseChange_std_offset (s : State)  : (refuseChange s ).std.offset = s.std.offset := rfl
@[simp] theorem refuseChange_std_offsetLatch (s : State)  : (refuseChange s ).std.offsetLatch = s.std.offsetLatch := rfl
@[simp] theorem refuseChange_std_lastBeacon (s : State)  : (refuseChange s ).std.lastBeacon = s.std.lastBeacon := rfl
@[simp] theorem refuseChange_std_seenSeq (s : State)  : (refuseChange s ).std.seenSeq = s.std.seenSeq := rfl
@[simp] theorem refuseChange_std_nextSeq (s : State)  : (refuseChange s ).std.nextSeq = s.std.nextSeq := rfl
@[simp] theorem refuseChange_std_lastSent (s : State)  : (refuseChange s ).std.lastSent = s.std.lastSent := rfl
@[simp] theorem refuseChange_std_beaconFrame (s : State)  : (refuseChange s ).std.beaconFrame = s.std.beaconFrame := rfl
@[simp] theorem refuseChange_std_beaconMeridian (s : State)  : (refuseChange s ).std.beaconMeridian = s.std.beaconMeridian := rfl
@[simp] theorem refuseChange_std_frameAt (s : State)  : (refuseChange s ).std.frameAt = s.std.frameAt := rfl
@[simp] theorem refuseChange_std_timeFrom (s : State)  : (refuseChange s ).std.timeFrom = s.std.timeFrom := rfl
@[simp] theorem refuseChange_std_unroutable (s : State)  : (refuseChange s ).std.unroutable = s.std.unroutable := rfl
@[simp] theorem refuseChange_std_staleSent (s : State)  : (refuseChange s ).std.staleSent = s.std.staleSent := rfl
@[simp] theorem refuseChange_std_staleAt (s : State)  : (refuseChange s ).std.staleAt = s.std.staleAt := rfl
@[simp] theorem refuseChange_std_missing (s : State)  : (refuseChange s ).std.missing = s.std.missing := rfl
@[simp] theorem refuseChange_std_change (s : State)  : (refuseChange s ).std.change = s.std.change := rfl
@[simp] theorem refuseChange_std_passedOn (s : State)  : (refuseChange s ).std.passedOn = s.std.passedOn := rfl
@[simp] theorem refuseChange_std_buddyOverride (s : State)  : (refuseChange s ).std.buddyOverride = s.std.buddyOverride := rfl
@[simp] theorem refuseChange_std_timePort (s : State)  : (refuseChange s ).std.timePort = s.std.timePort := rfl
@[simp] theorem refuseChange_std_chainOnly (s : State)  : (refuseChange s ).std.chainOnly = s.std.chainOnly := rfl
@[simp] theorem refuseChange_std_route (s : State)  : (refuseChange s ).std.route = s.std.route := rfl
@[simp] theorem refuseChange_std_routeActive (s : State)  : (refuseChange s ).std.routeActive = s.std.routeActive := rfl
@[simp] theorem refuseChange_std_ports (s : State)  : (refuseChange s ).std.ports = s.std.ports := rfl
@[simp] theorem refuseChange_std_inbox (s : State)  : (refuseChange s ).std.inbox = s.std.inbox := rfl
@[simp] theorem refuseChange_std_inXfers (s : State)  : (refuseChange s ).std.inXfers = s.std.inXfers := rfl
@[simp] theorem refuseChange_std_outXfers (s : State)  : (refuseChange s ).std.outXfers = s.std.outXfers := rfl
@[simp] theorem refuseChange_std_nextXfer (s : State)  : (refuseChange s ).std.nextXfer = s.std.nextXfer := rfl
@[simp] theorem refuseChange_std_fwdReads (s : State)  : (refuseChange s ).std.fwdReads = s.std.fwdReads := rfl
@[simp] theorem refuseChange_std_nextTag (s : State)  : (refuseChange s ).std.nextTag = s.std.nextTag := rfl
@[simp] theorem refuseChange_std_early (s : State)  : (refuseChange s ).std.early = s.std.early := rfl

@[simp] theorem settleEnum_pending (s : State)  : (settleEnum s ).pending = s.pending := by unfold settleEnum; split <;> simp
@[simp] theorem settleEnum_now (s : State)  : (settleEnum s ).now = s.now := by unfold settleEnum; split <;> simp
@[simp] theorem settleEnum_ory (s : State)  : (settleEnum s ).ory = s.ory := by unfold settleEnum; split <;> simp
@[simp] theorem settleEnum_cells (s : State)  : (settleEnum s ).cells = s.cells := by unfold settleEnum; split <;> simp
@[simp] theorem settleEnum_lpe (s : State)  : (settleEnum s ).lpe = s.lpe := by unfold settleEnum; split <;> simp
@[simp] theorem settleEnum_parures (s : State)  : (settleEnum s ).parures = s.parures := by unfold settleEnum; split <;> simp
@[simp] theorem settleEnum_ast (s : State)  : (settleEnum s ).ast = s.ast := by unfold settleEnum; split <;> simp
@[simp] theorem settleEnum_smp (s : State)  : (settleEnum s ).smp = s.smp := by unfold settleEnum; split <;> simp
@[simp] theorem settleEnum_fil (s : State)  : (settleEnum s ).fil = s.fil := by unfold settleEnum; split <;> simp
@[simp] theorem settleEnum_stm (s : State)  : (settleEnum s ).stm = s.stm := by unfold settleEnum; split <;> simp
@[simp] theorem settleEnum_lockets (s : State)  : (settleEnum s ).lockets = s.lockets := by unfold settleEnum; split <;> simp
@[simp] theorem settleEnum_charms (s : State)  : (settleEnum s ).charms = s.charms := by unfold settleEnum; split <;> simp
@[simp] theorem settleEnum_facets (s : State)  : (settleEnum s ).facets = s.facets := by unfold settleEnum; split <;> simp
@[simp] theorem settleEnum_keys (s : State)  : (settleEnum s ).keys = s.keys := by unfold settleEnum; split <;> simp
@[simp] theorem settleEnum_t1 (s : State)  : (settleEnum s ).t1 = s.t1 := by unfold settleEnum; split <;> simp
@[simp] theorem settleEnum_extents (s : State)  : (settleEnum s ).extents = s.extents := by unfold settleEnum; split <;> simp
@[simp] theorem settleEnum_hbc (s : State)  : (settleEnum s ).hbc = s.hbc := by unfold settleEnum; split <;> simp
@[simp] theorem settleEnum_lpc (s : State)  : (settleEnum s ).lpc = s.lpc := by unfold settleEnum; split <;> simp
@[simp] theorem settleEnum_cur (s : State)  : (settleEnum s ).cur = s.cur := by unfold settleEnum; split <;> simp
@[simp] theorem settleEnum_bays (s : State)  : (settleEnum s ).bays = s.bays := by unfold settleEnum; split <;> simp
@[simp] theorem settleEnum_eph (s : State)  : (settleEnum s ).eph = s.eph := by unfold settleEnum; split <;> simp
@[simp] theorem settleEnum_traffic (s : State)  : (settleEnum s ).traffic = s.traffic := by unfold settleEnum; split <;> simp
@[simp] theorem settleEnum_colls (s : State)  : (settleEnum s ).colls = s.colls := by unfold settleEnum; split <;> simp
@[simp] theorem settleEnum_searches (s : State)  : (settleEnum s ).searches = s.searches := by unfold settleEnum; split <;> simp
@[simp] theorem settleEnum_selects (s : State)  : (settleEnum s ).selects = s.selects := by unfold settleEnum; split <;> simp
@[simp] theorem settleEnum_sieves (s : State)  : (settleEnum s ).sieves = s.sieves := by unfold settleEnum; split <;> simp
@[simp] theorem settleEnum_integ (s : State)  : (settleEnum s ).integ = s.integ := by unfold settleEnum; split <;> simp
@[simp] theorem settleEnum_ckpt (s : State)  : (settleEnum s ).ckpt = s.ckpt := by unfold settleEnum; split <;> simp
@[simp] theorem settleEnum_hif (s : State)  : (settleEnum s ).hif = s.hif := by unfold settleEnum; split <;> simp
@[simp] theorem settleEnum_hostMem (s : State)  : (settleEnum s ).hostMem = s.hostMem := by unfold settleEnum; split <;> simp
@[simp] theorem settleEnum_replies (s : State)  : (settleEnum s ).replies = s.replies := by unfold settleEnum; split <;> simp
@[simp] theorem settleEnum_std_routeEn (s : State)  : (settleEnum s ).std.routeEn = s.std.routeEn := by unfold settleEnum; split <;> simp
@[simp] theorem settleEnum_std_tail (s : State)  : (settleEnum s ).std.tail = s.std.tail := by unfold settleEnum; split <;> simp
@[simp] theorem settleEnum_std_event (s : State)  : (settleEnum s ).std.event = s.std.event := by unfold settleEnum; split <;> simp
@[simp] theorem settleEnum_std_count (s : State)  : (settleEnum s ).std.count = s.std.count := by unfold settleEnum; split <;> simp
@[simp] theorem settleEnum_std_position (s : State)  : (settleEnum s ).std.position = s.std.position := by unfold settleEnum; split <;> simp
@[simp] theorem settleEnum_std_enumLow (s : State)  : (settleEnum s ).std.enumLow = s.std.enumLow := by unfold settleEnum; split <;> simp
@[simp] theorem settleEnum_std_lastWord (s : State)  : (settleEnum s ).std.lastWord = s.std.lastWord := by unfold settleEnum; split <;> simp
@[simp] theorem settleEnum_std_adoptedAt (s : State)  : (settleEnum s ).std.adoptedAt = s.std.adoptedAt := by unfold settleEnum; split <;> simp
@[simp] theorem settleEnum_std_lastEnum (s : State)  : (settleEnum s ).std.lastEnum = s.std.lastEnum := by unfold settleEnum; split <;> simp
@[simp] theorem settleEnum_std_enumOut (s : State)  : (settleEnum s ).std.enumOut = s.std.enumOut := by unfold settleEnum; split <;> simp
@[simp] theorem settleEnum_std_countSent (s : State)  : (settleEnum s ).std.countSent = s.std.countSent := by unfold settleEnum; split <;> simp
@[simp] theorem settleEnum_std_epoch (s : State)  : (settleEnum s ).std.epoch = s.std.epoch := by unfold settleEnum; split <;> simp
@[simp] theorem settleEnum_std_prepared (s : State)  : (settleEnum s ).std.prepared = s.std.prepared := by unfold settleEnum; split <;> simp
@[simp] theorem settleEnum_std_members (s : State)  : (settleEnum s ).std.members = s.std.members := by unfold settleEnum; split <;> simp
@[simp] theorem settleEnum_std_membersLatch (s : State)  : (settleEnum s ).std.membersLatch = s.std.membersLatch := by unfold settleEnum; split <;> simp
@[simp] theorem settleEnum_std_buddy (s : State)  : (settleEnum s ).std.buddy = s.std.buddy := by unfold settleEnum; split <;> simp
@[simp] theorem settleEnum_std_deviceId (s : State)  : (settleEnum s ).std.deviceId = s.std.deviceId := by unfold settleEnum; split <;> simp
@[simp] theorem settleEnum_std_devidLatch (s : State)  : (settleEnum s ).std.devidLatch = s.std.devidLatch := by unfold settleEnum; split <;> simp
@[simp] theorem settleEnum_std_hostMode (s : State)  : (settleEnum s ).std.hostMode = s.std.hostMode := by unfold settleEnum; split <;> simp
@[simp] theorem settleEnum_std_modeInForce (s : State)  : (settleEnum s ).std.modeInForce = s.std.modeInForce := by unfold settleEnum; split <;> simp
@[simp] theorem settleEnum_std_offset (s : State)  : (settleEnum s ).std.offset = s.std.offset := by unfold settleEnum; split <;> simp
@[simp] theorem settleEnum_std_offsetLatch (s : State)  : (settleEnum s ).std.offsetLatch = s.std.offsetLatch := by unfold settleEnum; split <;> simp
@[simp] theorem settleEnum_std_lastBeacon (s : State)  : (settleEnum s ).std.lastBeacon = s.std.lastBeacon := by unfold settleEnum; split <;> simp
@[simp] theorem settleEnum_std_seenSeq (s : State)  : (settleEnum s ).std.seenSeq = s.std.seenSeq := by unfold settleEnum; split <;> simp
@[simp] theorem settleEnum_std_nextSeq (s : State)  : (settleEnum s ).std.nextSeq = s.std.nextSeq := by unfold settleEnum; split <;> simp
@[simp] theorem settleEnum_std_lastSent (s : State)  : (settleEnum s ).std.lastSent = s.std.lastSent := by unfold settleEnum; split <;> simp
@[simp] theorem settleEnum_std_beaconFrame (s : State)  : (settleEnum s ).std.beaconFrame = s.std.beaconFrame := by unfold settleEnum; split <;> simp
@[simp] theorem settleEnum_std_beaconMeridian (s : State)  : (settleEnum s ).std.beaconMeridian = s.std.beaconMeridian := by unfold settleEnum; split <;> simp
@[simp] theorem settleEnum_std_frameAt (s : State)  : (settleEnum s ).std.frameAt = s.std.frameAt := by unfold settleEnum; split <;> simp
@[simp] theorem settleEnum_std_timeFrom (s : State)  : (settleEnum s ).std.timeFrom = s.std.timeFrom := by unfold settleEnum; split <;> simp
@[simp] theorem settleEnum_std_unroutable (s : State)  : (settleEnum s ).std.unroutable = s.std.unroutable := by unfold settleEnum; split <;> simp
@[simp] theorem settleEnum_std_staleSent (s : State)  : (settleEnum s ).std.staleSent = s.std.staleSent := by unfold settleEnum; split <;> simp
@[simp] theorem settleEnum_std_staleAt (s : State)  : (settleEnum s ).std.staleAt = s.std.staleAt := by unfold settleEnum; split <;> simp
@[simp] theorem settleEnum_std_result (s : State)  : (settleEnum s ).std.result = s.std.result := by unfold settleEnum; split <;> simp
@[simp] theorem settleEnum_std_missing (s : State)  : (settleEnum s ).std.missing = s.std.missing := by unfold settleEnum; split <;> simp
@[simp] theorem settleEnum_std_change (s : State)  : (settleEnum s ).std.change = s.std.change := by unfold settleEnum; split <;> simp
@[simp] theorem settleEnum_std_passedOn (s : State)  : (settleEnum s ).std.passedOn = s.std.passedOn := by unfold settleEnum; split <;> simp
@[simp] theorem settleEnum_std_buddyOverride (s : State)  : (settleEnum s ).std.buddyOverride = s.std.buddyOverride := by unfold settleEnum; split <;> simp
@[simp] theorem settleEnum_std_timePort (s : State)  : (settleEnum s ).std.timePort = s.std.timePort := by unfold settleEnum; split <;> simp
@[simp] theorem settleEnum_std_chainOnly (s : State)  : (settleEnum s ).std.chainOnly = s.std.chainOnly := by unfold settleEnum; split <;> simp
@[simp] theorem settleEnum_std_route (s : State)  : (settleEnum s ).std.route = s.std.route := by unfold settleEnum; split <;> simp
@[simp] theorem settleEnum_std_routeActive (s : State)  : (settleEnum s ).std.routeActive = s.std.routeActive := by unfold settleEnum; split <;> simp
@[simp] theorem settleEnum_std_ports (s : State)  : (settleEnum s ).std.ports = s.std.ports := by unfold settleEnum; split <;> simp
@[simp] theorem settleEnum_std_inbox (s : State)  : (settleEnum s ).std.inbox = s.std.inbox := by unfold settleEnum; split <;> simp
@[simp] theorem settleEnum_std_inXfers (s : State)  : (settleEnum s ).std.inXfers = s.std.inXfers := by unfold settleEnum; split <;> simp
@[simp] theorem settleEnum_std_outXfers (s : State)  : (settleEnum s ).std.outXfers = s.std.outXfers := by unfold settleEnum; split <;> simp
@[simp] theorem settleEnum_std_nextXfer (s : State)  : (settleEnum s ).std.nextXfer = s.std.nextXfer := by unfold settleEnum; split <;> simp
@[simp] theorem settleEnum_std_fwdReads (s : State)  : (settleEnum s ).std.fwdReads = s.std.fwdReads := by unfold settleEnum; split <;> simp
@[simp] theorem settleEnum_std_nextTag (s : State)  : (settleEnum s ).std.nextTag = s.std.nextTag := by unfold settleEnum; split <;> simp
@[simp] theorem settleEnum_std_early (s : State)  : (settleEnum s ).std.early = s.std.early := by unfold settleEnum; split <;> simp
@[simp] theorem settleEnum_lan_alwaysOn (s : State)  : (settleEnum s ).lan.alwaysOn = s.lan.alwaysOn := by unfold settleEnum; split <;> simp
@[simp] theorem settleEnum_lan_refclk (s : State)  : (settleEnum s ).lan.refclk = s.lan.refclk := by unfold settleEnum; split <;> simp
@[simp] theorem settleEnum_lan_coreUp (s : State)  : (settleEnum s ).lan.coreUp = s.lan.coreUp := by unfold settleEnum; split <;> simp
@[simp] theorem settleEnum_lan_pgAt (s : State)  : (settleEnum s ).lan.pgAt = s.lan.pgAt := by unfold settleEnum; split <;> simp
@[simp] theorem settleEnum_lan_railEn (s : State)  : (settleEnum s ).lan.railEn = s.lan.railEn := by unfold settleEnum; split <;> simp
@[simp] theorem settleEnum_lan_railsPg (s : State)  : (settleEnum s ).lan.railsPg = s.lan.railsPg := by unfold settleEnum; split <;> simp
@[simp] theorem settleEnum_lan_perst (s : State)  : (settleEnum s ).lan.perst = s.lan.perst := by unfold settleEnum; split <;> simp
@[simp] theorem settleEnum_lan_powerUpAt (s : State)  : (settleEnum s ).lan.powerUpAt = s.lan.powerUpAt := by unfold settleEnum; split <;> simp
@[simp] theorem settleEnum_lan_power (s : State)  : (settleEnum s ).lan.power = s.lan.power := by unfold settleEnum; split <;> simp
@[simp] theorem settleEnum_lan_lastReset (s : State)  : (settleEnum s ).lan.lastReset = s.lan.lastReset := by unfold settleEnum; split <;> simp
@[simp] theorem settleEnum_lan_resetCount (s : State)  : (settleEnum s ).lan.resetCount = s.lan.resetCount := by unfold settleEnum; split <;> simp
@[simp] theorem settleEnum_lan_resetDue (s : State)  : (settleEnum s ).lan.resetDue = s.lan.resetDue := by unfold settleEnum; split <;> simp
@[simp] theorem settleEnum_lan_wdtPeriod (s : State)  : (settleEnum s ).lan.wdtPeriod = s.lan.wdtPeriod := by unfold settleEnum; split <;> simp
@[simp] theorem settleEnum_lan_wdtAction (s : State)  : (settleEnum s ).lan.wdtAction = s.lan.wdtAction := by unfold settleEnum; split <;> simp
@[simp] theorem settleEnum_lan_wdtExpiries (s : State)  : (settleEnum s ).lan.wdtExpiries = s.lan.wdtExpiries := by unfold settleEnum; split <;> simp
@[simp] theorem settleEnum_lan_wdtKick (s : State)  : (settleEnum s ).lan.wdtKick = s.lan.wdtKick := by unfold settleEnum; split <;> simp
@[simp] theorem settleEnum_lan_tempMax (s : State)  : (settleEnum s ).lan.tempMax = s.lan.tempMax := by unfold settleEnum; split <;> simp
@[simp] theorem settleEnum_lan_tempSensor (s : State)  : (settleEnum s ).lan.tempSensor = s.lan.tempSensor := by unfold settleEnum; split <;> simp
@[simp] theorem settleEnum_lan_sensors (s : State)  : (settleEnum s ).lan.sensors = s.lan.sensors := by unfold settleEnum; split <;> simp
@[simp] theorem settleEnum_lan_tripRun (s : State)  : (settleEnum s ).lan.tripRun = s.lan.tripRun := by unfold settleEnum; split <;> simp
@[simp] theorem settleEnum_lan_warnLimit (s : State)  : (settleEnum s ).lan.warnLimit = s.lan.warnLimit := by unfold settleEnum; split <;> simp
@[simp] theorem settleEnum_lan_tripLimit (s : State)  : (settleEnum s ).lan.tripLimit = s.lan.tripLimit := by unfold settleEnum; split <;> simp
@[simp] theorem settleEnum_lan_tripped (s : State)  : (settleEnum s ).lan.tripped = s.lan.tripped := by unfold settleEnum; split <;> simp
@[simp] theorem settleEnum_lan_tripCount (s : State)  : (settleEnum s ).lan.tripCount = s.lan.tripCount := by unfold settleEnum; split <;> simp
@[simp] theorem settleEnum_lan_warnCount (s : State)  : (settleEnum s ).lan.warnCount = s.lan.warnCount := by unfold settleEnum; split <;> simp
@[simp] theorem settleEnum_lan_thermtrip (s : State)  : (settleEnum s ).lan.thermtrip = s.lan.thermtrip := by unfold settleEnum; split <;> simp
@[simp] theorem settleEnum_lan_lastTemp (s : State)  : (settleEnum s ).lan.lastTemp = s.lan.lastTemp := by unfold settleEnum; split <;> simp
@[simp] theorem settleEnum_lan_vcoreSet (s : State)  : (settleEnum s ).lan.vcoreSet = s.lan.vcoreSet := by unfold settleEnum; split <;> simp
@[simp] theorem settleEnum_lan_vcoreSent (s : State)  : (settleEnum s ).lan.vcoreSent = s.lan.vcoreSent := by unfold settleEnum; split <;> simp
@[simp] theorem settleEnum_lan_vcoreRead (s : State)  : (settleEnum s ).lan.vcoreRead = s.lan.vcoreRead := by unfold settleEnum; split <;> simp
@[simp] theorem settleEnum_lan_ioutRead (s : State)  : (settleEnum s ).lan.ioutRead = s.lan.ioutRead := by unfold settleEnum; split <;> simp
@[simp] theorem settleEnum_lan_lastAvs (s : State)  : (settleEnum s ).lan.lastAvs = s.lan.lastAvs := by unfold settleEnum; split <;> simp
@[simp] theorem settleEnum_lan_lowSince (s : State)  : (settleEnum s ).lan.lowSince = s.lan.lowSince := by unfold settleEnum; split <;> simp
@[simp] theorem settleEnum_lan_goodSince (s : State)  : (settleEnum s ).lan.goodSince = s.lan.goodSince := by unfold settleEnum; split <;> simp
@[simp] theorem settleEnum_lan_stopped (s : State)  : (settleEnum s ).lan.stopped = s.lan.stopped := by unfold settleEnum; split <;> simp
@[simp] theorem settleEnum_lan_freezes (s : State)  : (settleEnum s ).lan.freezes = s.lan.freezes := by unfold settleEnum; split <;> simp
@[simp] theorem settleEnum_lan_stops (s : State)  : (settleEnum s ).lan.stops = s.lan.stops := by unfold settleEnum; split <;> simp
@[simp] theorem settleEnum_lan_powerReq (s : State)  : (settleEnum s ).lan.powerReq = s.lan.powerReq := by unfold settleEnum; split <;> simp
@[simp] theorem settleEnum_lan_idleSince (s : State)  : (settleEnum s ).lan.idleSince = s.lan.idleSince := by unfold settleEnum; split <;> simp
@[simp] theorem settleEnum_lan_transition (s : State)  : (settleEnum s ).lan.transition = s.lan.transition := by unfold settleEnum; split <;> simp
@[simp] theorem settleEnum_lan_dieRev (s : State)  : (settleEnum s ).lan.dieRev = s.lan.dieRev := by unfold settleEnum; split <;> simp
@[simp] theorem settleEnum_lan_traySerial (s : State)  : (settleEnum s ).lan.traySerial = s.lan.traySerial := by unfold settleEnum; split <;> simp
@[simp] theorem settleEnum_lan_traySlot (s : State)  : (settleEnum s ).lan.traySlot = s.lan.traySlot := by unfold settleEnum; split <;> simp
@[simp] theorem settleEnum_lan_settingSvn (s : State)  : (settleEnum s ).lan.settingSvn = s.lan.settingSvn := by unfold settleEnum; split <;> simp
@[simp] theorem settleEnum_lan_fusedSvn (s : State)  : (settleEnum s ).lan.fusedSvn = s.lan.fusedSvn := by unfold settleEnum; split <;> simp
@[simp] theorem settleEnum_lan_fusedKeyHash (s : State)  : (settleEnum s ).lan.fusedKeyHash = s.lan.fusedKeyHash := by unfold settleEnum; split <;> simp
@[simp] theorem settleEnum_lan_nodeId (s : State)  : (settleEnum s ).lan.nodeId = s.lan.nodeId := by unfold settleEnum; split <;> simp
@[simp] theorem settleEnum_lan_nodeInForce (s : State)  : (settleEnum s ).lan.nodeInForce = s.lan.nodeInForce := by unfold settleEnum; split <;> simp
@[simp] theorem settleEnum_lan_eventDest (s : State)  : (settleEnum s ).lan.eventDest = s.lan.eventDest := by unfold settleEnum; split <;> simp
@[simp] theorem settleEnum_lan_sbFrames (s : State)  : (settleEnum s ).lan.sbFrames = s.lan.sbFrames := by unfold settleEnum; split <;> simp
@[simp] theorem settleEnum_lan_sbErrors (s : State)  : (settleEnum s ).lan.sbErrors = s.lan.sbErrors := by unfold settleEnum; split <;> simp
@[simp] theorem settleEnum_lan_sbCollisions (s : State)  : (settleEnum s ).lan.sbCollisions = s.lan.sbCollisions := by unfold settleEnum; split <;> simp
@[simp] theorem settleEnum_lan_cxlEn (s : State)  : (settleEnum s ).lan.cxlEn = s.lan.cxlEn := by unfold settleEnum; split <;> simp
@[simp] theorem settleEnum_lan_eventSeq (s : State)  : (settleEnum s ).lan.eventSeq = s.lan.eventSeq := by unfold settleEnum; split <;> simp
@[simp] theorem settleEnum_lan_queue (s : State)  : (settleEnum s ).lan.queue = s.lan.queue := by unfold settleEnum; split <;> simp
@[simp] theorem settleEnum_lan_nodeDue (s : State)  : (settleEnum s ).lan.nodeDue = s.lan.nodeDue := by unfold settleEnum; split <;> simp
@[simp] theorem settleEnum_lan_snaps (s : State)  : (settleEnum s ).lan.snaps = s.lan.snaps := by unfold settleEnum; split <;> simp
@[simp] theorem settleEnum_lan_tx (s : State)  : (settleEnum s ).lan.tx = s.lan.tx := by unfold settleEnum; split <;> simp
@[simp] theorem settleEnum_lan_sent (s : State)  : (settleEnum s ).lan.sent = s.lan.sent := by unfold settleEnum; split <;> simp
@[simp] theorem settleEnum_lan_mbox (s : State)  : (settleEnum s ).lan.mbox = s.lan.mbox := by unfold settleEnum; split <;> simp
@[simp] theorem settleEnum_lan_mboxBusy (s : State)  : (settleEnum s ).lan.mboxBusy = s.lan.mboxBusy := by unfold settleEnum; split <;> simp
@[simp] theorem settleEnum_lan_mboxDone (s : State)  : (settleEnum s ).lan.mboxDone = s.lan.mboxDone := by unfold settleEnum; split <;> simp
@[simp] theorem settleEnum_lan_imageOffset (s : State)  : (settleEnum s ).lan.imageOffset = s.lan.imageOffset := by unfold settleEnum; split <;> simp
@[simp] theorem settleEnum_lan_staging (s : State)  : (settleEnum s ).lan.staging = s.lan.staging := by unfold settleEnum; split <;> simp
@[simp] theorem settleEnum_lan_phase (s : State)  : (settleEnum s ).lan.phase = s.lan.phase := by unfold settleEnum; split <;> simp
@[simp] theorem settleEnum_lan_image (s : State)  : (settleEnum s ).lan.image = s.lan.image := by unfold settleEnum; split <;> simp
@[simp] theorem settleEnum_lan_trust (s : State)  : (settleEnum s ).lan.trust = s.lan.trust := by unfold settleEnum; split <;> simp
@[simp] theorem settleEnum_lan_bootNonce (s : State)  : (settleEnum s ).lan.bootNonce = s.lan.bootNonce := by unfold settleEnum; split <;> simp
@[simp] theorem settleEnum_lan_lastNonce (s : State)  : (settleEnum s ).lan.lastNonce = s.lan.lastNonce := by unfold settleEnum; split <;> simp
@[simp] theorem settleEnum_lan_extentCount (s : State)  : (settleEnum s ).lan.extentCount = s.lan.extentCount := by unfold settleEnum; split <;> simp
@[simp] theorem settleEnum_lan_entropyUsed (s : State)  : (settleEnum s ).lan.entropyUsed = s.lan.entropyUsed := by unfold settleEnum; split <;> simp
@[simp] theorem settleEnum_lan_crashLog (s : State)  : (settleEnum s ).lan.crashLog = s.lan.crashLog := by unfold settleEnum; split <;> simp
@[simp] theorem settleEnum_lan_crashCount (s : State)  : (settleEnum s ).lan.crashCount = s.lan.crashCount := by unfold settleEnum; split <;> simp
@[simp] theorem settleEnum_lan_retired (s : State)  : (settleEnum s ).lan.retired = s.lan.retired := by unfold settleEnum; split <;> simp
@[simp] theorem settleEnum_lan_quarantine (s : State)  : (settleEnum s ).lan.quarantine = s.lan.quarantine := by unfold settleEnum; split <;> simp
@[simp] theorem settleEnum_lan_remounted (s : State)  : (settleEnum s ).lan.remounted = s.lan.remounted := by unfold settleEnum; split <;> simp
@[simp] theorem settleEnum_lan_committed (s : State)  : (settleEnum s ).lan.committed = s.lan.committed := by unfold settleEnum; split <;> simp
@[simp] theorem settleEnum_lan_configError (s : State)  : (settleEnum s ).lan.configError = s.lan.configError := by unfold settleEnum; split <;> simp
@[simp] theorem settleEnum_lan_staged (s : State)  : (settleEnum s ).lan.staged = s.lan.staged := by unfold settleEnum; split <;> simp
@[simp] theorem settleEnum_lan_config (s : State)  : (settleEnum s ).lan.config = s.lan.config := by unfold settleEnum; split <;> simp
@[simp] theorem settleEnum_lan_t2Units (s : State)  : (settleEnum s ).lan.t2Units = s.lan.t2Units := by unfold settleEnum; split <;> simp
@[simp] theorem settleEnum_lan_boardT2 (s : State)  : (settleEnum s ).lan.boardT2 = s.lan.boardT2 := by unfold settleEnum; split <;> simp
@[simp] theorem settleEnum_lan_pwrWarn (s : State)  : (settleEnum s ).lan.pwrWarn = s.lan.pwrWarn := by unfold settleEnum; split <;> simp

@[simp] theorem intEvent_pending (s : State) (b : Nat) : (intEvent s b).pending = s.pending := rfl
@[simp] theorem intEvent_now (s : State) (b : Nat) : (intEvent s b).now = s.now := rfl
@[simp] theorem intEvent_ory (s : State) (b : Nat) : (intEvent s b).ory = s.ory := rfl
@[simp] theorem intEvent_cells (s : State) (b : Nat) : (intEvent s b).cells = s.cells := rfl
@[simp] theorem intEvent_lpe (s : State) (b : Nat) : (intEvent s b).lpe = s.lpe := rfl
@[simp] theorem intEvent_parures (s : State) (b : Nat) : (intEvent s b).parures = s.parures := rfl
@[simp] theorem intEvent_ast (s : State) (b : Nat) : (intEvent s b).ast = s.ast := rfl
@[simp] theorem intEvent_smp (s : State) (b : Nat) : (intEvent s b).smp = s.smp := rfl
@[simp] theorem intEvent_fil (s : State) (b : Nat) : (intEvent s b).fil = s.fil := rfl
@[simp] theorem intEvent_stm (s : State) (b : Nat) : (intEvent s b).stm = s.stm := rfl
@[simp] theorem intEvent_lockets (s : State) (b : Nat) : (intEvent s b).lockets = s.lockets := rfl
@[simp] theorem intEvent_charms (s : State) (b : Nat) : (intEvent s b).charms = s.charms := rfl
@[simp] theorem intEvent_facets (s : State) (b : Nat) : (intEvent s b).facets = s.facets := rfl
@[simp] theorem intEvent_keys (s : State) (b : Nat) : (intEvent s b).keys = s.keys := rfl
@[simp] theorem intEvent_t1 (s : State) (b : Nat) : (intEvent s b).t1 = s.t1 := rfl
@[simp] theorem intEvent_extents (s : State) (b : Nat) : (intEvent s b).extents = s.extents := rfl
@[simp] theorem intEvent_hbc (s : State) (b : Nat) : (intEvent s b).hbc = s.hbc := rfl
@[simp] theorem intEvent_lpc (s : State) (b : Nat) : (intEvent s b).lpc = s.lpc := rfl
@[simp] theorem intEvent_cur (s : State) (b : Nat) : (intEvent s b).cur = s.cur := rfl
@[simp] theorem intEvent_bays (s : State) (b : Nat) : (intEvent s b).bays = s.bays := rfl
@[simp] theorem intEvent_eph (s : State) (b : Nat) : (intEvent s b).eph = s.eph := rfl
@[simp] theorem intEvent_traffic (s : State) (b : Nat) : (intEvent s b).traffic = s.traffic := rfl
@[simp] theorem intEvent_colls (s : State) (b : Nat) : (intEvent s b).colls = s.colls := rfl
@[simp] theorem intEvent_searches (s : State) (b : Nat) : (intEvent s b).searches = s.searches := rfl
@[simp] theorem intEvent_selects (s : State) (b : Nat) : (intEvent s b).selects = s.selects := rfl
@[simp] theorem intEvent_sieves (s : State) (b : Nat) : (intEvent s b).sieves = s.sieves := rfl
@[simp] theorem intEvent_ckpt (s : State) (b : Nat) : (intEvent s b).ckpt = s.ckpt := rfl
@[simp] theorem intEvent_hif (s : State) (b : Nat) : (intEvent s b).hif = s.hif := rfl
@[simp] theorem intEvent_std (s : State) (b : Nat) : (intEvent s b).std = s.std := rfl
@[simp] theorem intEvent_lan (s : State) (b : Nat) : (intEvent s b).lan = s.lan := rfl
@[simp] theorem intEvent_hostMem (s : State) (b : Nat) : (intEvent s b).hostMem = s.hostMem := rfl
@[simp] theorem intEvent_replies (s : State) (b : Nat) : (intEvent s b).replies = s.replies := rfl
@[simp] theorem intEvent_integ_plannedEn (s : State) (b : Nat) : (intEvent s b).integ.plannedEn = s.integ.plannedEn := rfl
@[simp] theorem intEvent_integ_isolateEn (s : State) (b : Nat) : (intEvent s b).integ.isolateEn = s.integ.isolateEn := rfl
@[simp] theorem intEvent_integ_cell (s : State) (b : Nat) : (intEvent s b).integ.cell = s.integ.cell := rfl
@[simp] theorem intEvent_integ_attempt (s : State) (b : Nat) : (intEvent s b).integ.attempt = s.integ.attempt := rfl
@[simp] theorem intEvent_integ_mode (s : State) (b : Nat) : (intEvent s b).integ.mode = s.integ.mode := rfl
@[simp] theorem intEvent_integ_transient (s : State) (b : Nat) : (intEvent s b).integ.transient = s.integ.transient := rfl
@[simp] theorem intEvent_integ_permanent (s : State) (b : Nat) : (intEvent s b).integ.permanent = s.integ.permanent := rfl
@[simp] theorem intEvent_integ_tarnishMade (s : State) (b : Nat) : (intEvent s b).integ.tarnishMade = s.integ.tarnishMade := rfl
@[simp] theorem intEvent_integ_tarnishConsumed (s : State) (b : Nat) : (intEvent s b).integ.tarnishConsumed = s.integ.tarnishConsumed := rfl
@[simp] theorem intEvent_integ_sessionsEnded (s : State) (b : Nat) : (intEvent s b).integ.sessionsEnded = s.integ.sessionsEnded := rfl
@[simp] theorem intEvent_integ_sramCorr (s : State) (b : Nat) : (intEvent s b).integ.sramCorr = s.integ.sramCorr := rfl
@[simp] theorem intEvent_integ_meshCorr (s : State) (b : Nat) : (intEvent s b).integ.meshCorr = s.integ.meshCorr := rfl
@[simp] theorem intEvent_integ_staleMap (s : State) (b : Nat) : (intEvent s b).integ.staleMap = s.integ.staleMap := rfl
@[simp] theorem intEvent_integ_staleMember (s : State) (b : Nat) : (intEvent s b).integ.staleMember = s.integ.staleMember := rfl
@[simp] theorem intEvent_integ_logBase (s : State) (b : Nat) : (intEvent s b).integ.logBase = s.integ.logBase := rfl
@[simp] theorem intEvent_integ_logBaseLatch (s : State) (b : Nat) : (intEvent s b).integ.logBaseLatch = s.integ.logBaseLatch := rfl
@[simp] theorem intEvent_integ_logCount (s : State) (b : Nat) : (intEvent s b).integ.logCount = s.integ.logCount := rfl
@[simp] theorem intEvent_integ_logCountLatch (s : State) (b : Nat) : (intEvent s b).integ.logCountLatch = s.integ.logCountLatch := rfl
@[simp] theorem intEvent_integ_log (s : State) (b : Nat) : (intEvent s b).integ.log = s.integ.log := rfl
@[simp] theorem intEvent_integ_interruptMax (s : State) (b : Nat) : (intEvent s b).integ.interruptMax = s.integ.interruptMax := rfl
@[simp] theorem intEvent_integ_rep (s : State) (b : Nat) : (intEvent s b).integ.rep = s.integ.rep := rfl
@[simp] theorem intEvent_integ_firstFault (s : State) (b : Nat) : (intEvent s b).integ.firstFault = s.integ.firstFault := rfl
@[simp] theorem intEvent_integ_change (s : State) (b : Nat) : (intEvent s b).integ.change = s.integ.change := rfl
@[simp] theorem intEvent_integ_trial (s : State) (b : Nat) : (intEvent s b).integ.trial = s.integ.trial := rfl
@[simp] theorem intEvent_integ_limit (s : State) (b : Nat) : (intEvent s b).integ.limit = s.integ.limit := rfl
@[simp] theorem intEvent_integ_window (s : State) (b : Nat) : (intEvent s b).integ.window = s.integ.window := rfl
@[simp] theorem intEvent_integ_planned (s : State) (b : Nat) : (intEvent s b).integ.planned = s.integ.planned := rfl
@[simp] theorem intEvent_integ_faultDetail (s : State) (b : Nat) : (intEvent s b).integ.faultDetail = s.integ.faultDetail := rfl
@[simp] theorem intEvent_integ_tarnishT1 (s : State) (b : Nat) : (intEvent s b).integ.tarnishT1 = s.integ.tarnishT1 := rfl

/-- The crash log after a record, which keeps the last 64 (13 R515). -/
theorem crashRecord_log (s : State) (r : FaultRec) : (crashRecord s r).lan.crashLog = (s.lan.crashLog ++ [r]).drop (s.lan.crashLog.length + 1 - 64) := by
  unfold crashRecord watch
  dsimp only
  split <;> simp

theorem crashRecord_count (s : State) (r : FaultRec) : (crashRecord s r).lan.crashCount = (s.lan.crashCount + 1) % 2 ^ 32 := by
  unfold crashRecord watch
  dsimp only
  split <;> rfl

end Sys2Proof.Machine
end

