-- ==== Sys2Proof/Laws/Answers.lean ====
section
/-! SUPPORT. Sys2Proof/Laws/Answers.lean: what the shared operations answer (completions, admissions, messages, tables), as the statements about commands cite them. -/

set_option linter.unusedSimpArgs false
set_option linter.unnecessarySimpa false
set_option linter.unusedVariables false

namespace Sys2Proof.Machine
open Sys2Proof

theorem completeId_confined (s : State) (id st r0 r1 n : Nat) : confined [.hif] s (completeId s id st r0 r1 n) := by
  unfold completeId
  split
  · exact complete_confined _ _ _ _ _ _
  · intro p hp
    cases p <;> rfl

@[simp] theorem completeId_lockets (s : State) (id st r0 r1 n : Nat) : (completeId s id st r0 r1 n).lockets = s.lockets :=
  (completeId_confined s id st r0 r1 n) .lockets (by decide)

@[simp] theorem complete_lockets (s : State) (c : HCmd) (st r0 r1 n : Nat) : (complete s c st r0 r1 n).lockets = s.lockets :=
  (complete_confined s c st r0 r1 n) .lockets (by decide)

theorem completeLate_lockets (s : State) (gs : List GenUpdate) (f : GenUpdate → Nat) (st n : Nat) :
    (gs.foldl (fun s g => completeId s (f g) st 0 0 n) s).lockets = s.lockets := by
  induction gs generalizing s with
  | nil => rfl
  | cons g gs ih => simp only [List.foldl_cons]; rw [ih]; simp

theorem completeLate_open (s : State) (gs : List GenUpdate) (st n k : Nat) (h : ∀ g ∈ gs, g.cmd ≠ k) :
    completed (gs.foldl (fun s g => completeId s g.cmd st 0 0 n) s) k = completed s k := by
  induction gs generalizing s with
  | nil => rfl
  | cons g gs ih =>
    simp only [List.foldl_cons]
    rw [ih _ (fun x hx => h x (List.mem_cons_of_mem _ hx)), completeId_completed_other (h g (List.mem_cons_self ..))]

def shutL (l : Locket) (now status : Nat) : Locket :=
  let l := { l with lastTouch := now, dirtyControl := true }
  { l with stm := { l.stm with generating := false, lastStatus := status, hold := [] }, genWait := []
           genCmd := none, genStep := none, dirtyControl := true }

theorem closeStream_facts {s : State} {h status id : Nat} {l : Locket} (hl : s.lockets.get? h = some l) (hg : l.genCmd ≠ some id)
    (hw : ∀ g ∈ l.genWait, g.cmd ≠ id) :
    (∃ now, (closeStream s h status).lockets.get? h = some (shutL l now status)) ∧ completed (closeStream s h status) id = completed s id := by
  unfold closeStream
  rw [hl]
  dsimp only
  constructor
  · simp only [touch, State.locketM_lockets, tab_get_upd_same]
    rw [completeLate_lockets]
    cases hc : l.genCmd with
    | none => simp only [hl, Option.map_some]; exact ⟨_, rfl⟩
    | some k => simp only [completeId_lockets, hl, Option.map_some]; exact ⟨_, rfl⟩
  · rw [show ∀ (u : State) f, completed ((touch u h).locketM h f) id = completed u id from fun _ _ => rfl]
    rw [completeLate_open _ _ _ _ _ (fun g hg => hw g ((List.mem_filter.1 hg).1))]
    cases hc : l.genCmd with
    | none => rfl
    | some k => exact completeId_completed_other (by rintro rfl; exact hg hc)

theorem handPacket_lockets {s : State} {h : Nat} {l : Locket} (b : List Byte) (hl : s.lockets.get? h = some l) :
    ∃ q, (handPacket s h b).lockets.get? h = some q ∧ q.genCmd = l.genCmd ∧ q.genWait = l.genWait ∧ q.stm.generating = l.stm.generating := by
  unfold handPacket
  rw [hl]
  simp only [State.locketM_lockets, tab_get_upd_same, hl, Option.map_some]
  exact ⟨_, rfl, rfl, rfl, rfl⟩

theorem handPacket_completed (s : State) (h id : Nat) (b : List Byte) : completed (handPacket s h b) id = completed s id := by
  unfold completed
  rw [show (handPacket s h b).hif = s.hif from (handPacket_steady s h b).only .hif (by decide)]

theorem endStream_facts {s : State} {h status id : Nat} {l : Locket} (hl : s.lockets.get? h = some l) (hgen : l.stm.generating = true)
    (hg : l.genCmd ≠ some id) (hw : ∀ g ∈ l.genWait, g.cmd ≠ id) :
    (∃ q, (endStream s h status).lockets.get? h = some q ∧ q.stm.generating = false ∧ q.genCmd = none ∧ q.stm.lastStatus = status) ∧
      completed (endStream s h status) id = completed s id := by
  unfold endStream
  rw [hl]
  simp only [hgen, Bool.not_true, Bool.false_eq_true, if_false]
  generalize hb : packetBytes l _ _ _ _ _ _ _ _ = b
  obtain ⟨q, hq, q1, q2, q3⟩ := handPacket_lockets b hl
  generalize hp : (if (status == stTarnished) = true then [] else l.stm.hold) = pay
  have hq' : ((handPacket s h b).locketM h fun l => { l with stm := { l.stm with delivered := l.stm.delivered + pay.length, hold := [] } }).lockets.get? h =
      some { q with stm := { q.stm with delivered := q.stm.delivered + pay.length, hold := [] } } := by
    simp only [State.locketM_lockets, tab_get_upd_same, hq, Option.map_some]
  obtain ⟨⟨n, c1⟩, c2⟩ := closeStream_facts (status := status) (id := id) hq' (by simpa [q1] using hg) (by simpa [q2] using hw)
  refine ⟨⟨_, c1, rfl, rfl, rfl⟩, c2.trans ?_⟩
  exact handPacket_completed s h id b

theorem watched_facts {bs : List (Bay × Nat)} {s : State} : ∃ ev,
    (bs.foldl (fun s e => if e.1.mode == .empty then s else watch s (0x3100 + e.2) 1 (natLe 1 0)) s) = s.lanM fun l => { l with events := ev } := by
  induction bs generalizing s with
  | nil => exact ⟨s.lan.events, rfl⟩
  | cons b bs ih =>
    simp only [List.foldl_cons]
    split
    · exact ih
    · obtain ⟨ev, h⟩ := ih (s := watch s (0x3100 + b.2) 1 (natLe 1 0))
      refine ⟨ev, h.trans ?_⟩
      unfold watch
      split <;> rfl

theorem coreLoss_facts (s : State) : (coreLoss s).lockets = [] ∧ (coreLoss s).charms = [] ∧ (coreLoss s).parures = [] ∧ (coreLoss s).facets = [] ∧
    (coreLoss s).extents = [] ∧ (coreLoss s).keys = [] ∧ (coreLoss s).colls = [] ∧ (coreLoss s).t1 = [] ∧ (coreLoss s).hif.cmds = [] ∧
    (coreLoss s).hif.done = [] ∧ (coreLoss s).ory.prog = none ∧ (coreLoss s).now = s.now ∧ (coreLoss s).lan.coreUp = false ∧ (coreLoss s).lan = lostLan s.lan :=
  ⟨rfl, rfl, rfl, rfl, rfl, rfl, rfl, rfl, rfl, rfl, rfl, rfl, rfl, rfl⟩

theorem loseCore_facts (s : State) (p : Power) : wiped s (loseCore s p) ∧ (loseCore s p).lan.power = p ∧ (loseCore s p).lan.coreUp = false ∧
    (loseCore s p).lan.crashLog = s.lan.crashLog ∧ (loseCore s p).lan.crashCount = s.lan.crashCount ∧ (loseCore s p).lan.resetCount = s.lan.resetCount ∧
    (loseCore s p).lan.railsPg = s.lan.railsPg ∧ (loseCore s p).lan.refclk = s.lan.refclk ∧ (loseCore s p).lan.perst = s.lan.perst ∧ (loseCore s p).now = s.now ∧
    (loseCore s p).lan.sbFrames = s.lan.sbFrames ∧ (loseCore s p).lan.thermtrip = s.lan.thermtrip ∧ (loseCore s p).lan.tripped = s.lan.tripped ∧
    (loseCore s p).lan.tripCount = s.lan.tripCount := by
  unfold loseCore
  obtain ⟨ev, h⟩ := watched_facts (bs := s.bays.zipIdx) (s := s)
  dsimp only
  rw [h]
  obtain ⟨c1, c2, c3, c4, c5, c6, c7, c8, c9, c10, c11, c12, c13, c14⟩ := coreLoss_facts (setStd (s.lanM fun l => { l with events := ev }) .enum)
  refine ⟨⟨?_, ?_, ?_, ?_, ?_, ?_, ?_, ?_, ?_, ?_, ?_, ?_⟩, setPower_lan_power _ _, ?_, ?_, ?_, ?_, ?_, ?_, ?_, ?_, ?_, ?_, ?_, ?_⟩ <;>
    simp only [setPower_lockets, setPower_charms, setPower_parures, setPower_facets, setPower_extents, setPower_keys, setPower_colls, setPower_t1, setPower_hif,
      setPower_ory, setPower_now, c1, c2, c3, c4, c5, c6, c7, c8, c9, c10, c11, c12, c13, setPower_lan_coreUp, setPower_lan_crashLog, setPower_lan_crashCount, setPower_lan_resetCount,
      setPower_lan_railsPg, setPower_lan_refclk, setPower_lan_perst, setPower_lan_sbFrames, setPower_lan_thermtrip, setPower_lan_tripped, setPower_lan_tripCount] <;>
    first | rfl | (rw [c14]; simp only [lostLan, setStd_lan_crashLog, setStd_lan_crashCount, setStd_lan_resetCount, setStd_lan_railsPg, setStd_lan_refclk, setStd_lan_perst, setStd_lan_sbFrames, setStd_lan_thermtrip, setStd_lan_tripped, setStd_lan_tripCount, State.lanM_lan]) | simp

theorem wiped_more {s t u : State} (h : wiped s t) (k : confined [.std, .lan] t u) : wiped s u := by
  obtain ⟨a1, a2, a3, a4, a5, a6, a7, a8, a9, a10, a11, a12⟩ := h
  have e1 : u.hif = t.hif := k .hif (by decide)
  have e2 : u.ory = t.ory := k .ory (by decide)
  exact ⟨(k .lockets (by decide)).trans a1, (k .charms (by decide)).trans a2, (k .parures (by decide)).trans a3, (k .facets (by decide)).trans a4,
    (k .extents (by decide)).trans a5, (k .keys (by decide)).trans a6, (k .colls (by decide)).trans a7, (k .t1 (by decide)).trans a8, by rw [e1]; exact a9,
    by rw [e1]; exact a10, by rw [e2]; exact a11, (k .now (by decide)).trans a12⟩

theorem lanM_confined (s : State) (f : Lan → Lan) : confined [.std, .lan] s (s.lanM f) := by
  intro p hp
  cases p <;> first | rfl | (exact absurd (by decide) hp)

theorem coldReset_started (s : State) (c : Nat) : coldStarted s (coldReset s c) c ∧ (coldReset s c).lan.railsPg = s.lan.railsPg ∧
    (coldReset s c).lan.refclk = s.lan.refclk := by
  obtain ⟨h1, h2, h3, h4, h5, h6, h7, h8, h9, h10, h11, h12, h13, h14⟩ := loseCore_facts s .boot
  generalize hu : loseCore s .boot = u at *
  unfold coldReset noteReset coldStarted resetNoted
  rw [hu]
  simp only [State.lanM_lan]
  exact ⟨⟨wiped_more h1 (confined_trans (lanM_confined _ _) (lanM_confined _ _)), ⟨trivial, by simp [h6, wrapInc], trivial, trivial⟩, h2, h3, trivial, trivial, h4, h11⟩, h7, h8⟩

theorem startCore_facts (s : State) : (startCore s).lan = { s.lan with coreUp := true, pgAt := none, imageOffset := 0, staging := [], phase := .none } ∧
    confined [.std, .lan] s (startCore s) := by
  refine ⟨rfl, ?_⟩
  intro p hp
  cases p <;> first | rfl | (exact absurd (by decide) hp)

theorem warmReset_started (s : State) (c : Nat) (hn : s.lan.power ≠ .night) (hg : s.lan.pgAt = none) (hr : s.lan.railsPg = true) :
    warmStarted s (warmReset s c) c (s.lan.perst && c == 4) := by
  obtain ⟨h1, h2, h3, h4, h5, h6, h7, h8, h9, h10, h11, h12, h13, h14⟩ := loseCore_facts s .boot
  have e : (s.lan.power == Power.night) = false := by simpa using hn
  unfold warmReset
  rw [e, hg]
  simp only [Bool.false_eq_true, if_false, Option.isSome_none, Bool.false_or, noteReset, State.lanM_lan, h7, hr, h9, Bool.not_true, Bool.and_eq_true, decide_eq_true_eq]
  by_cases hp : s.lan.perst = true ∧ c = 4
  · rw [if_pos hp]
    refine ⟨wiped_more h1 (lanM_confined _ _), ⟨rfl, by simp [h6, wrapInc], rfl, rfl⟩, h2, ?_, h4⟩
    simp [hp, h3]
  · rw [if_neg hp]
    refine ⟨wiped_more (wiped_more h1 (lanM_confined _ _)) (startCore_facts _).2, ⟨rfl, by simp [startCore, h6, wrapInc], rfl, rfl⟩, h2, ?_, h4⟩
    simp only [startCore, State.stdM_lan, State.lanM_lan]
    cases h : s.lan.perst <;> simp_all

theorem resetTiers_channels (u : State) : (resetTiers u).cur.channels = [] := by
  unfold resetTiers
  dsimp only
  generalize hv : ({ u with cur := _, hbc := _, lpc := _ } : State) = v
  have : v.cur.channels = [] := by rw [← hv]
  rw [← this]
  have k : ∀ (w : State) (ns : List Nat), (ns.foldl (fun s n => setBay s n .empty fun b => { lostBay b with patrolEn := b.patrolEn, enable := true }) w).cur = w.cur := by
    intro w ns
    induction ns generalizing w with
    | nil => rfl
    | cons n ns ih => simp only [List.foldl_cons]; rw [ih]; exact (setBay_steady _ _ _ _).only .cur (by decide)
  rw [k]

def afresh (u : State) : State := wakeMemory (resetRest (resetTiers (resetOrrery u)))

theorem afresh_facts (u : State) : (afresh u).hif = u.hif ∧ (afresh u).ory.prog = none ∧ (afresh u).cur.channels = [] := by
  unfold afresh
  refine ⟨?_, ?_, ?_⟩
  · exact ((((wakeMemory_steady _).only .hif (by decide)).trans ((resetRest_steady _).only .hif (by decide))).trans
      ((resetTiers_steady _).only .hif (by decide))).trans ((resetOrrery_steady _).only .hif (by decide))
  · have e : (wakeMemory (resetRest (resetTiers (resetOrrery u)))).ory = (resetOrrery u).ory :=
      (((wakeMemory_steady _).only .ory (by decide)).trans ((resetRest_steady _).only .ory (by decide))).trans ((resetTiers_steady _).only .ory (by decide))
    rw [e]
    rfl
  · have e : (wakeMemory (resetRest (resetTiers (resetOrrery u)))).cur = (resetTiers (resetOrrery u)).cur :=
      ((wakeMemory_steady _).only .cur (by decide)).trans ((resetRest_steady _).only .cur (by decide))
    rw [e, resetTiers_channels]

/-- Facets that are bound stay, and no other is added. -/
def facetsStay (s t : State) : Prop := ∀ f, f.handle ≠ 0 → (f ∈ t.facets ↔ f ∈ s.facets)

theorem facetsStay_trans {s t u : State} (h : facetsStay s t) (k : facetsStay t u) : facetsStay s u := fun f hf => (k f hf).trans (h f hf)

theorem facetsStay_of {l : List Part} {s t : State} (h : Steady l s t) (hl : .facets ∉ l) : facetsStay s t := fun f _ => by rw [show t.facets = s.facets from h.only .facets hl]

theorem sweepFacets_stay (s : State) : facetsStay s (sweepFacets s) := by
  intro f hf
  unfold sweepFacets
  simp [List.mem_filter, hf]

theorem discardStep_stay (s : State) (c : Nat) : facetsStay s (discardStep s c) := by
  unfold discardStep
  dsimp only
  have h0 : facetsStay s (if s.eph.holder == .step c then freeOrrery s else s) := by
    split
    · exact facetsStay_of (freeOrrery_steady _) (by decide)
    · exact fun _ _ => Iff.rfl
  generalize (if s.eph.holder == .step c then freeOrrery s else s) = u at *
  split
  · exact h0
  · rename_i x _
    refine facetsStay_trans h0 (facetsStay_trans ?_ (sweepFacets_stay _))
    have hm : ∀ (ms : List Nat) (v : State), facetsStay v (ms.foldl (fun s h => s.locketM h fun l => { l with thread := l.thread ++ l.pending, pending := [] }) v) := by
      intro ms
      induction ms with
      | nil => exact fun _ _ _ => Iff.rfl
      | cons m ms ih => exact fun v => facetsStay_trans (fun _ _ => Iff.rfl) (ih _)
    exact facetsStay_trans (hm _ _) (fun _ _ => Iff.rfl)

theorem stopWork_stay (s : State) : facetsStay s (stopWork s) := by
  unfold stopWork
  dsimp only
  have hd : ∀ (cs : List Nat) (v : State), facetsStay v (cs.foldl discardStep v) := by
    intro cs
    induction cs with
    | nil => exact fun _ _ _ => Iff.rfl
    | cons c cs ih => exact fun v => facetsStay_trans (discardStep_stay v c) (ih _)
  have h1 := hd s.eph.ctxs.keys s
  generalize s.eph.ctxs.keys.foldl discardStep s = u at *
  refine facetsStay_trans h1 ?_
  refine facetsStay_trans (t := if u.eph.holder == .none then u else freeOrrery u) ?_ (facetsStay_of (State.ephM_steady _ _) (by decide))
  split
  · exact fun _ _ => Iff.rfl
  · exact facetsStay_of (freeOrrery_steady _) (by decide)

theorem loseDescs_stay (s : State) : facetsStay s (loseDescs s) := by
  unfold loseDescs
  dsimp only
  refine facetsStay_trans ?_ (stopWork_stay _)
  have h0 : facetsStay s (s.hifM fun h => { h with cmds := [], done := [] }) := fun _ _ => Iff.rfl
  have h1 := facetsStay_trans h0 (facetsStay_of (endCuts_steady _) (by decide))
  generalize endCuts (s.hifM fun h => { h with cmds := [], done := [] }) = u at *
  have h2 : facetsStay u ((allDescs u).foldl abandonDesc u) := facetsStay_of (Steady.fold .refl fun v d => abandonDesc_steady v d) (by decide)
  generalize (allDescs u).foldl abandonDesc u = w at *
  exact facetsStay_trans (facetsStay_trans h1 h2) (fun _ _ => Iff.rfl)

theorem loseWork_stay {s u : State} (h : facetsStay s u) : facetsStay s (loseMoves (loseJobs (loseDescs u))) :=
  facetsStay_trans (facetsStay_trans (facetsStay_trans h (loseDescs_stay u)) (facetsStay_of (loseJobs_steady _) (by decide)))
    (facetsStay_of (loseMoves_steady _) (by decide))

theorem loseCommands_facets (s : State) : facetsStay s (loseCommands s) := by
  have h := loseWork_stay (s := s) (u := { s with stm := { s.stm with packets := 0 } }) (fun _ _ => Iff.rfl)
  have e : (loseCommands s).facets = (loseMoves (loseJobs (loseDescs { s with stm := { s.stm with packets := 0 } }))).facets := by
    unfold loseCommands
    dsimp only
  intro f hf
  rw [e]
  exact h f hf

theorem deviceReset_started (s : State) (c : Nat) (hn : s.lan.power ≠ .night) (hb : s.lan.power ≠ .boot) : deviceStarted s (deviceReset s c) c ∧
    (deviceReset s c).t1 = s.t1 := by
  have f := (deviceReset_steady s c).only
  have e1 : (s.lan.power == Power.night) = false := by simpa using hn
  have e2 : (s.lan.power == Power.boot) = false := by simpa using hb
  have hd : deviceReset s c = setPower (noteReset ((afresh ((loseCommands s).hifM resetHif)).lanM resetLan) c) .active := by
    unfold deviceReset
    simp only [e1, e2, Bool.false_eq_true, if_false, afresh]
  obtain ⟨a1, a2, a3⟩ := afresh_facts ((loseCommands s).hifM resetHif)
  have a4 : (afresh ((loseCommands s).hifM resetHif)).facets = ((loseCommands s).hifM resetHif).facets :=
    (((wakeMemory_steady _).only .facets (by decide)).trans ((resetRest_steady _).only .facets (by decide))).trans
      (((resetTiers_steady _).only .facets (by decide)).trans ((resetOrrery_steady _).only .facets (by decide)))
  generalize afresh ((loseCommands s).hifM resetHif) = v at *
  have hc : v.hif.cmds = [] ∧ v.hif.done = [] := by rw [a1]; exact ⟨rfl, rfl⟩
  refine ⟨⟨by rw [hd, setPower_lan_power], ?_, ?_, ?_, ?_, ?_, ?_, ?_, f .now (by decide), f .keys (by decide), ?_⟩, f .t1 (by decide)⟩
  · rw [hd, setPower_lan_lastReset]; rfl
  · rw [hd, setPower_lan_powerReq]; rfl
  · rw [hd, setPower_lan_resetDue]; rfl
  · rw [hd, setPower_hif]; exact hc.1
  · rw [hd, setPower_hif]; exact hc.2
  · rw [hd, setPower_ory]; exact a2
  · rw [hd, setPower_cur]; exact a3
  · rw [hd, setPower_facets]
    have e : (noteReset (v.lanM resetLan) c).facets = v.facets := by unfold noteReset; rw [State.lanM_facets, State.lanM_facets]
    rw [e, a4, State.hifM_facets]
    exact loseCommands_facets s

theorem respPdu_result (r : Req) (k ty total : Nat) (last : Bool) (d rest : List Byte) (hk : k < 256) : fieldAt (respPdu r k ty last total d ++ rest) 8 1 = k := by
  simp [respPdu, natLe, fieldAt, leNat]
  omega

theorem padTo_append (n : Nat) (b : List Byte) (h : b.length < n) : padTo n b = b ++ List.replicate (n - b.length) 0#8 := by
  simp [padTo, bytesAt, List.take_of_length_le (Nat.le_of_lt h)]

theorem reply_result (u : State) (r : Req) (act k ty total : Nat) (last : Bool) (d : List Byte) (hk : k < 256) :
    match r.from_ with
    | .sideband mac => ∃ f, (reply u r act (respPdu r k ty last total d)).lan.tx = u.lan.tx ++ [f] ∧ f.dest = mac ∧ fieldAt f.pdu 8 1 = k
    | .mailbox => (reply u r act (respPdu r k ty last total d)).lan.mboxBusy = false ∧ (reply u r act (respPdu r k ty last total d)).lan.mboxDone = true ∧
        fieldAt (reply u r act (respPdu r k ty last total d)).lan.mbox 8 1 = k
    | .firmware => True := by
  unfold reply
  generalize hf : r.from_ = q
  have e0 : fieldAt (respPdu r k ty last total d) 8 1 = k := by simpa using respPdu_result r k ty total last d [] hk
  cases q with
  | sideband mac =>
    refine ⟨_, rfl, rfl, ?_⟩
    dsimp only
    split
    · rename_i h
      rw [padTo_append _ _ h]
      exact respPdu_result r k ty total last d _ hk
    · exact e0
  | mailbox => exact ⟨rfl, rfl, respPdu_result r k ty total last d _ hk⟩
  | firmware => trivial

theorem reply_replied {s u : State} (r : Req) (act k ty total : Nat) (last : Bool) (d : List Byte) (hk : k < 256) (hq : u.lan.queue = s.lan.queue.tail)
    (ht : u.lan.tx = s.lan.tx) : replied s (reply u r act (respPdu r k ty last total d)) r k := by
  refine ⟨by simp [hq], ?_⟩
  have := reply_result u r act k ty total last d hk
  rw [ht] at this
  exact this

theorem countBad_tx (s : State) (r : Req) (k : Nat) : (countBad s r k).lan.tx = s.lan.tx := by simp

theorem answerReq_replied {s u : State} (r : Req) (k : Nat) (hk : k < 256) (hq : u.lan.queue = s.lan.queue) (ht : u.lan.tx = s.lan.tx) :
    replied s (answerReq u r k) r k := by
  unfold answerReq respond
  apply reply_replied _ _ _ _ _ _ _ hk
  · simp [pop, hq]
  · simp [pop, ht]

theorem asks_written {s : State} {r : Req} {i j v : Nat} (h : asks s r i j v) (mine : Nat → Nat → Nat → Bool) (hm : mine i j v = true) : written s mine = some r := by
  obtain ⟨h1, h2, h3, h4, h5, h6⟩ := h
  unfold written frontOp
  rw [h1]
  simp [h2, h3, h4, h5, h6, hm, Option.filter]

theorem asks_onWrite {s : State} {r : Req} {i j v : Nat} (h : asks s r i j v) (mine : Nat → Nat → Nat → Bool) (k : State → Req → State) (hm : mine i j v = true) :
    onWrite s mine k = .next (answerReq (k s r) r 0) := by
  unfold onWrite
  rw [asks_written h mine hm]

theorem viaWrite {c : Instr} {s : State} {r : Req} {i j v : Nat} {mine : Nat → Nat → Nat → Bool} {k : State → Req → State} {P : State → Prop} (h : asks s r i j v)
    (hx : exec c s = onWrite s mine k) (hm : mine i j v = true) (hq : (k s r).lan.queue = s.lan.queue) (ht : (k s r).lan.tx = s.lan.tx)
    (hp : P (answerReq (k s r) r 0)) : ∃ t, exec c s = .next t ∧ replied s t r 0 ∧ P t :=
  ⟨_, hx.trans (asks_onWrite h mine k hm), answerReq_replied r 0 (by decide) hq ht, hp⟩

theorem answerReq_confined (u : State) (r : Req) (k : Nat) : confined [.lan] u (answerReq u r k) := by
  intro p hp
  cases p <;> first | (simp [agree]; done) | (exact absurd (by decide) hp)

theorem lan_confined (s : State) (f : Lan → Lan) : confined [.lan] s (s.lanM f) := by
  intro p hp
  cases p <;> first | rfl | (exact absurd (by decide) hp)

theorem lanAns_confined (s : State) (f : Lan → Lan) (r : Req) (k : Nat) : confined [.lan] s (answerReq (s.lanM f) r k) :=
  confined_trans (lan_confined s f) (answerReq_confined _ _ _)

theorem reply_confined (u : State) (r : Req) (a : Nat) (b : List Byte) : confined [.lan] u (reply u r a b) := by
  intro p hp
  cases p <;> first | (simp [agree]; done) | (exact absurd (by decide) hp)

theorem onMsg_takes {s : State} {m : Msg} {ty : Nat} (h : takes s m ty) (k : State → Msg → State) : onMsg s ty k = .next (k (taken s m) m) := by
  obtain ⟨h1, h2, h3⟩ := h
  unfold onMsg popMsg
  rw [if_pos h1, h2]
  simp [h3, taken]

theorem viaMsg {c : Instr} {s : State} {m : Msg} {ty : Nat} {k : State → Msg → State} {P : State → Prop} (h : takes s m ty) (hx : exec c s = onMsg s ty k)
    (hp : P (k (taken s m) m)) : ∃ t, exec c s = .next t ∧ P t := ⟨_, hx.trans (onMsg_takes h k), hp⟩

theorem rebuddy_std (s : State) : ∃ b, (rebuddy s).std = { s.std with buddy := b } := by
  unfold rebuddy
  dsimp only
  generalize (if bitAt s.std.members (ownPos s) = true then buddyOf s s.std.members else none) = b
  split
  · exact ⟨s.std.buddy, rfl⟩
  · exact ⟨b, (abandonCuts_steady _).only .std (by decide)⟩

theorem freePort_std (s : State) (n : Nat) : ∃ ps, (freePort s n).std = { s.std with ports := ps } := by
  unfold freePort
  split
  · exact ⟨_, rfl⟩
  · exact ⟨s.std.ports, rfl⟩

theorem freePorts_std (ns : List Nat) (s : State) : ∃ ps, (ns.foldl freePort s).std = { s.std with ports := ps } := by
  induction ns generalizing s with
  | nil => exact ⟨s.std.ports, rfl⟩
  | cons n ns ih =>
    simp only [List.foldl_cons]
    obtain ⟨p1, h1⟩ := freePort_std s n
    obtain ⟨p2, h2⟩ := ih (freePort s n)
    exact ⟨p2, by rw [h2, h1]⟩

def epochStd (u : State) (s : State) (e set : Nat) : State :=
  setStd (u.stdM fun d => { d with epoch := e, members := set, prepared := none, change := none, lastBeacon := s.now, seenSeq := none, passedOn := []
                                   inXfers := d.inXfers.filter (fun x => bitAt set x.peer), outXfers := d.outXfers.filter (fun x => bitAt set x.peer) }) .member

theorem epochStd_facts (u s : State) (e set : Nat) : (epochStd u s e set).std.mode = .member ∧ (epochStd u s e set).std.epoch = e ∧
    (epochStd u s e set).std.members = set ∧ (epochStd u s e set).std.prepared = none ∧ (epochStd u s e set).std.change = none ∧
    (epochStd u s e set).std.result = u.std.result := by
  unfold epochStd
  refine ⟨setStd_std_mode _ _, ?_, ?_, ?_, ?_, ?_⟩
  · rw [setStd_std_epoch]; rfl
  · rw [setStd_std_members]; rfl
  · rw [setStd_std_prepared]; rfl
  · rw [setStd_std_change]; rfl
  · rw [setStd_std_result]; rfl

theorem masterTime_std (s : State) : ∃ o f, (if isMaster s then s.stdM fun d => { d with offset := 0, timeFrom := none } else s).std = { s.std with offset := o, timeFrom := f } := by
  split
  · exact ⟨_, _, rfl⟩
  · exact ⟨s.std.offset, s.std.timeFrom, rfl⟩

def masterTime (s : State) : State := if isMaster s then s.stdM fun d => { d with offset := 0, timeFrom := none } else s

def backFree (s : State) : State := if (s.integ.mode == .quarantined || s.lan.quarantine) then freeObjects s else s

def comeBack (s : State) : State :=
  (List.range 8).foldl freePort
    ((s.integM fun g => { g with mode := if g.mode == .quarantined then .normal else g.mode }).lanM fun l => { l with quarantine := false, remounted := some (l.remounted.getD []) })

theorem adoptEpoch_eq (s : State) (e set : Nat) : adoptEpoch s e set =
    (if !(s.integ.mode == .quarantined || s.lan.quarantine) then masterTime (rebuddy (stdEvent (epochStd (backFree s) (backFree s) e set) 5))
     else comeBack (masterTime (rebuddy (stdEvent (epochStd (backFree s) (backFree s) e set) 5)))) := rfl

theorem comeBack_std (s : State) : ∃ ps, (comeBack s).std = { s.std with ports := ps } := freePorts_std _ _

theorem adoptEpoch_facts (s : State) (e set : Nat) : adopted (adoptEpoch s e set) e set ∧ (adoptEpoch s e set).std.result = s.std.result := by
  rw [adoptEpoch_eq]
  have hb : (backFree s).std = s.std := by
    unfold backFree
    split
    · exact (freeObjects_steady s).only .std (by decide)
    · rfl
  obtain ⟨f1, f2, f3, f4, f5, f6⟩ := epochStd_facts (backFree s) (backFree s) e set
  generalize epochStd (backFree s) (backFree s) e set = u at *
  obtain ⟨b, hr⟩ := rebuddy_std (stdEvent u 5)
  obtain ⟨o, f, hm⟩ := masterTime_std (rebuddy (stdEvent u 5))
  have hm' : (masterTime (rebuddy (stdEvent u 5))).std = { (rebuddy (stdEvent u 5)).std with offset := o, timeFrom := f } := hm
  generalize masterTime (rebuddy (stdEvent u 5)) = v at *
  have k : v.std.mode = .member ∧ v.std.epoch = e ∧ v.std.members = set ∧ v.std.prepared = none ∧ v.std.change = none ∧ v.std.result = s.std.result := by
    rw [hm', hr]
    exact ⟨f1, f2, f3, f4, f5, f6.trans (by rw [hb])⟩
  split
  · exact ⟨⟨k.1, k.2.1, k.2.2.1, k.2.2.2.1, k.2.2.2.2.1⟩, k.2.2.2.2.2⟩
  · obtain ⟨ps, hc⟩ := comeBack_std v
    unfold adopted
    rw [hc]
    exact ⟨⟨k.1, k.2.1, k.2.2.1, k.2.2.2.1, k.2.2.2.2.1⟩, k.2.2.2.2.2⟩

theorem std_confined (s : State) (f : Std → Std) : confined [.std] s (s.stdM f) := by
  intro p hp
  cases p <;> first | rfl | (exact absurd (by decide) hp)

theorem stdEvent_confined (s : State) (b : Nat) : confined [.std] s (stdEvent s b) := std_confined _ _

theorem getD_modify {α : Type} (l : List α) (i j : Nat) (f : α → α) (d : α) : (l.modify i f).getD j d = if i = j ∧ j < l.length then f (l.getD j d) else l.getD j d := by
  induction l generalizing i j with
  | nil => simp
  | cons a l ih =>
    cases i with
    | zero =>
      cases j with
      | zero => simp
      | succ j => simp
    | succ i =>
      cases j with
      | zero => simp
      | succ j =>
        have := ih i j
        simp only [List.modify_succ_cons, List.getD_cons_succ, List.length_cons, Nat.add_lt_add_iff_right, Nat.succ.injEq]
        exact this

theorem portM_port (s : State) (p n : Nat) (f : Port → Port) : (s.portM p f).port n = if p = n ∧ n < s.std.ports.length then f (s.port n) else s.port n := by
  unfold State.port State.portM State.stdM
  exact getD_modify _ _ _ _ _

theorem portUp_lt {s : State} {n : Nat} (h : portUp s n = true) : n < s.std.ports.length := by
  by_cases hn : n < s.std.ports.length
  · exact hn
  · have : s.port n = {} := by
      unfold State.port
      rw [List.getD_eq_getElem?_getD, List.getElem?_eq_none (by omega)]
      rfl
    simp [portUp, this] at h

theorem sendPort_port (s : State) (p n : Nat) (b : List Byte) : ((sendPort s p b).port n) = { s.port n with queue := ((sendPort s p b).port n).queue } := by
  unfold sendPort
  rw [portM_port]
  split <;> rfl

theorem flood_port (s : State) (e n : Nat) (b : List Byte) : ((flood s e b).port n) = { s.port n with queue := ((flood s e b).port n).queue } := by
  unfold flood
  generalize List.range 8 = l
  induction l generalizing s with
  | nil => rfl
  | cons p l ih =>
    simp only [List.foldl_cons]
    split
    · have h1 := ih (sendPort s p b)
      have h2 := sendPort_port s p n b
      rw [h1, h2]
    · exact ih s

theorem taken_confined (s : State) (m : Msg) : confined [.std] s (taken s m) := std_confined _ _

theorem viaRouted {c : Instr} {s : State} {m : Msg} {ty : Nat} {k : State → Msg → State} {P : State → Prop} (h : heard s m ty) (hx : exec c s = onRouted s ty k)
    (hp : P (k (taken s m) m)) : ∃ t, exec c s = .next t ∧ P t := by
  obtain ⟨h1, h2, h3, h4⟩ := h
  refine ⟨_, hx.trans ?_, hp⟩
  unfold onRouted
  rw [if_neg (by simp [h2]), onMsg_takes h1]
  have hj : judge (taken s m) m.port m.src m.epoch = (taken s m, true) := by
    unfold judge
    rw [show (taken s m).std.mode = .member from h3]
    dsimp only
    rw [if_pos (show m.epoch = (taken s m).std.epoch from h4)]
  rw [hj]

theorem sendFlit_port (s : State) (f : Flit) (n : Nat) : (sendFlit s f).port n = { s.port n with queue := ((sendFlit s f).port n).queue } := by
  unfold sendFlit
  split
  · rfl
  · split
    · rfl
    · rw [portM_port]
      split <;> rfl

theorem sendFlits_port {α : Type} (fs : List α) (g : α → Flit) (s : State) (n : Nat) :
    (fs.foldl (fun s f => sendFlit s (g f)) s).port n = { s.port n with queue := ((fs.foldl (fun s f => sendFlit s (g f)) s).port n).queue } := by
  induction fs generalizing s with
  | nil => rfl
  | cons f fs ih =>
    simp only [List.foldl_cons]
    rw [ih, sendFlit_port]

theorem sendFlits_len {α : Type} (fs : List α) (g : α → Flit) (s : State) : (fs.foldl (fun s f => sendFlit s (g f)) s).std.ports.length = s.std.ports.length := by
  induction fs generalizing s with
  | nil => rfl
  | cons f fs ih =>
    simp only [List.foldl_cons]
    rw [ih]
    unfold sendFlit
    split
    · rfl
    · split
      · rfl
      · simp

theorem stopPort_facts (s : State) (n : Nat) (m : PortMode) (h : n < s.std.ports.length) : ((stopPort s n m).port n).mode = m ∧ ((stopPort s n m).port n).replay = [] ∧
    ((stopPort s n m).port n).fence = (s.port n).fence ∧ ((stopPort s n m).port n).since = s.now := by
  unfold stopPort
  dsimp only
  rw [sendFlits_port]
  have e : ∀ u : State, (if (s.port n).mode == PortMode.up then stdEvent u 2 else u).port n = u.port n := by intro u; split <;> rfl
  rw [e, portM_port, if_pos ⟨rfl, h⟩]
  exact ⟨rfl, rfl, rfl, rfl⟩

theorem tab_mem_keep {α : Type} (t : Tab α) (i : Nat) (v : α) (e : Nat × α) (h : e ∈ t) (hn : e.1 ≠ i) : e ∈ t.set i v := by
  induction t with
  | nil => simp at h
  | cons a t ih =>
    obtain ⟨k, w⟩ := a
    unfold Tab.set
    rcases List.mem_cons.1 h with rfl | h
    · split
      · exact List.mem_cons_of_mem _ (List.mem_cons_self ..)
      · rw [if_neg (fun e => hn e.symm)]; exact List.mem_cons_self ..
    · split
      · exact List.mem_cons_of_mem _ (List.mem_cons_of_mem _ h)
      · split
        · exact List.mem_cons_of_mem _ h
        · exact List.mem_cons_of_mem _ (ih h)

theorem tab_get_mem {α : Type} (t : Tab α) (e : Nat × α) (h : e ∈ t) : (t.get? e.1).isSome := by
  induction t with
  | nil => simp at h
  | cons a t ih =>
    obtain ⟨k, w⟩ := a
    unfold Tab.get?
    split
    · rfl
    · rename_i hk
      rcases List.mem_cons.1 h with rfl | h
      · exact absurd rfl hk
      · exact ih h

theorem place_keeps (c : Cur) (d e : Desc) (h : e ∈ Tab.vals c.channels ++ c.waiting) : e ∈ Tab.vals (place c d).channels ++ (place c d).waiting := by
  unfold place
  split
  · rename_i k hk
    split
    · have hf : c.channels.has k = false := by simpa using List.find?_some hk
      rcases List.mem_append.1 h with h | h
      · obtain ⟨p, hp, rfl⟩ := List.mem_map.1 h
        refine List.mem_append_left _ (List.mem_map.2 ⟨p, tab_mem_keep _ _ _ p hp ?_, rfl⟩)
        intro e
        have := tab_get_mem c.channels p hp
        rw [e] at this
        simp [Tab.has, this] at hf
      · exact List.mem_append_right _ h
    · rcases List.mem_append.1 h with h | h
      · exact List.mem_append_left _ h
      · exact List.mem_append_right _ (List.mem_append_left _ h)
  · rcases List.mem_append.1 h with h | h
    · exact List.mem_append_left _ h
    · exact List.mem_append_right _ (List.mem_append_left _ h)

theorem submit_keeps (s : State) (d e : Desc) (h : e ∈ allDescs s) : e ∈ allDescs (submit s d) := by
  have := place_keeps { s.cur with nextCookie := s.cur.nextCookie + 1 } (prepare s.cur.nextCookie s.now d) e h
  unfold submit
  dsimp only
  split
  · exact this
  · exact this

theorem shaped_bays {s : State} (h : shaped s = true) : s.bays.length = 4 := by simp [shaped] at h; exact h.1.2

theorem setBay_mode {u : State} {n : Nat} (m : BayMode) {f : Bay → Bay} (hl : n < u.bays.length) (hf : ∀ b, (f b).mode = b.mode) : ((setBay u n m f).bay n).mode = m := by
  unfold setBay
  split
  · rename_i e
    rw [bayM_bay, if_pos ⟨rfl, hl⟩, hf, e]
  · show ((watch _ _ _ _).bay n).mode = m
    have : ∀ v : State, ∀ i j b, (watch v i j b).bay n = v.bay n := fun v i j b => by unfold watch; split <;> rfl
    rw [this, bayM_bay, if_pos ⟨rfl, hl⟩]

theorem setBay_get {α : Type} {u : State} {n : Nat} {m : BayMode} {f : Bay → Bay} (g : Bay → α) (hl : n < u.bays.length) (hg : ∀ b x y, g { b with mode := x, since := y } = g b) :
    g ((setBay u n m f).bay n) = g (f (u.bay n)) := by
  unfold setBay
  split
  · rw [bayM_bay, if_pos ⟨rfl, hl⟩]
  · have : ∀ v : State, ∀ i j b, (watch v i j b).bay n = v.bay n := fun v i j b => by unfold watch; split <;> rfl
    rw [this, bayM_bay, if_pos ⟨rfl, hl⟩, hg]

theorem setBay_since {u : State} {n : Nat} {m : BayMode} {f : Bay → Bay} (hl : n < u.bays.length) (hm : (u.bay n).mode ≠ m) : ((setBay u n m f).bay n).since = u.now := by
  unfold setBay
  rw [if_neg hm]
  have : ∀ v : State, ∀ i j b, (watch v i j b).bay n = v.bay n := fun v i j b => by unfold watch; split <;> rfl
  rw [this, bayM_bay, if_pos ⟨rfl, hl⟩]

theorem cfcEvent_get {α : Type} {u : State} {n b : Nat} (g : Bay → α) (hg : ∀ b x, g { b with event := x } = g b) (k : Nat) : g ((cfcEvent u n b).bay k) = g (u.bay k) := by
  unfold cfcEvent
  rw [bayM_bay]
  split
  · exact hg _ _
  · rfl

theorem cfcEvent_set {u : State} {n b : Nat} (hl : n < u.bays.length) : bitAt ((cfcEvent u n b).bay n).event b = true := by
  unfold cfcEvent
  rw [bayM_bay, if_pos ⟨rfl, hl⟩]
  exact bitAt_or_same _ _

theorem bays_lt {l : List Part} {s t : State} {n : Nat} (hs : shaped s = true) (h : Steady l s t) (hn : n < 4) : n < t.bays.length := by
  rw [h.bays (shaped_bays hs)]; exact hn

theorem cofferM_bay (u : State) (n : Nat) (f : Coffer → Coffer) (k : Nat) : ∃ c, (cofferM u n f).bay k = { u.bay k with coffer := c } := by
  unfold cofferM
  rw [bayM_bay]
  split
  · exact ⟨_, rfl⟩
  · exact ⟨_, rfl⟩

theorem cofferM_own (u : State) {n : Nat} (f : Coffer → Coffer) (hl : n < u.bays.length) : ((cofferM u n f).bay n) = { u.bay n with coffer := (u.bay n).coffer.map f } := by
  unfold cofferM
  rw [bayM_bay, if_pos ⟨rfl, hl⟩]

/-- What LIFE's update leaves of a bay. -/
def lifeKeeps (b c : Bay) : Prop := c.erasing = b.erasing ∧ c.coffer.map (fun x => (x.sbs, x.journal)) = b.coffer.map (fun x => (x.sbs, x.journal)) ∧
  ∀ k, bitAt b.event k = true → bitAt c.event k = true

theorem lifeKeeps_trans {a b c : Bay} (h : lifeKeeps a b) (k : lifeKeeps b c) : lifeKeeps a c := ⟨k.1.trans h.1, k.2.1.trans h.2.1, fun n e => k.2.2 n (h.2.2 n e)⟩

theorem lifeKeeps_refl (a : Bay) : lifeKeeps a a := ⟨rfl, rfl, fun _ e => e⟩

theorem writeIdent_keeps (u : State) (n : Nat) (f : List Byte → List Byte) (k : Nat) : lifeKeeps (u.bay k) ((writeIdent u n f).bay k) := by
  unfold writeIdent cofferM
  rw [bayM_bay]
  split
  · refine ⟨rfl, ?_, fun _ e => e⟩
    show ((u.bay k).coffer.map _).map _ = _
    rw [Option.map_map]
    rfl
  · exact lifeKeeps_refl _

theorem bayM_keeps (u : State) (n : Nat) (f : Bay → Bay) (k : Nat) (h : ∀ b, lifeKeeps b (f b)) : lifeKeeps (u.bay k) ((u.bayM n f).bay k) := by
  rw [bayM_bay]
  split
  · exact h _
  · exact lifeKeeps_refl _

theorem cfcEvent_keeps (u : State) (n b k : Nat) : lifeKeeps (u.bay k) ((cfcEvent u n b).bay k) := by
  unfold cfcEvent
  exact bayM_keeps _ _ _ _ (fun _ => ⟨rfl, rfl, fun _ e => bitAt_or_kept _ _ _ e⟩)

theorem watch_bay (v : State) (i j : Nat) (b : List Byte) (n : Nat) : (watch v i j b).bay n = v.bay n := by unfold watch; split <;> rfl

theorem setBay_keeps (u : State) (n : Nat) (m : BayMode) (k : Nat) : lifeKeeps (u.bay k) ((setBay u n m id).bay k) := by
  unfold setBay
  split
  · exact bayM_keeps _ _ _ _ (fun _ => lifeKeeps_refl _)
  · rw [watch_bay]
    exact bayM_keeps _ _ _ _ (fun _ => ⟨rfl, rfl, fun _ e => e⟩)

theorem writeCounters_keeps (u : State) (n k : Nat) : lifeKeeps (u.bay k) ((writeCounters u n).bay k) := by
  unfold writeCounters
  exact lifeKeeps_trans (writeIdent_keeps _ _ _ _) (bayM_keeps _ _ _ _ (fun _ => ⟨rfl, rfl, fun _ e => e⟩))

theorem lifeUpdate_keeps (u : State) (n k : Nat) : lifeKeeps (u.bay k) ((lifeUpdate u n).bay k) := by
  unfold lifeUpdate
  dsimp only
  have h0 := bayM_keeps u n (fun b => { b with mirror := b.mirror.set 3 (lifeOf u n), life := lifeOf u n, eraseMax := b.mirror.getD 2 0 }) k (fun _ => ⟨rfl, rfl, fun _ e => e⟩)
  generalize u.bayM n (fun b => { b with mirror := b.mirror.set 3 (lifeOf u n), life := lifeOf u n, eraseMax := b.mirror.getD 2 0 }) = v at *
  have h1 := lifeKeeps_trans h0 (writeCounters_keeps v n k)
  generalize writeCounters v n = w at *
  have h2 : lifeKeeps (u.bay k) ((if 95 ≤ lifeOf u n && counter u n 3 < 95 then cfcEvent (writeIdent w n (identFlags 1 0)) n 0 else w).bay k) := by
    split
    · exact lifeKeeps_trans h1 (lifeKeeps_trans (writeIdent_keeps _ _ _ _) (cfcEvent_keeps _ _ _ _))
    · exact h1
  generalize (if 95 ≤ lifeOf u n && counter u n 3 < 95 then cfcEvent (writeIdent w n (identFlags 1 0)) n 0 else w) = x at *
  split
  · exact h0
  · split
    · have h3 := lifeKeeps_trans h2 (lifeKeeps_trans (writeIdent_keeps x n (identFlags 2 0) k) (cfcEvent_keeps _ n 1 k))
      split
      · exact lifeKeeps_trans h3 (setBay_keeps _ _ _ _)
      · exact h3
    · exact h2

theorem journal_event (u : State) (n : Nat) (r : JRec) (k : Nat) : ((journal u n r).bay k).event = (u.bay k).event := by
  unfold journal
  rw [bayM_bay]
  dsimp only
  obtain ⟨c, hc⟩ := cofferM_bay u n (fun c => ringAdd (ringCap u n) ((sbNums u n).getD ((c.jAt + 1) % 4) 0) r c) k
  split <;> rw [hc]

theorem cofferM_event (u : State) (n : Nat) (f : Coffer → Coffer) (k : Nat) : ((cofferM u n f).bay k).event = (u.bay k).event := by
  obtain ⟨c, hc⟩ := cofferM_bay u n f k
  rw [hc]

theorem badBlock_event (u : State) (n ch die blk : Nat) (hl : n < u.bays.length) : bitAt ((badBlock u n ch die blk).bay n).event 4 = true := by
  have h0 := cfcEvent_set (u := u) (n := n) (b := 4) hl
  unfold badBlock
  dsimp only
  split
  · refine (lifeUpdate_keeps _ n n).2.2 4 ?_
    rw [bayM_bay]
    split
    · show bitAt ((cofferM _ _ _).bay n).event 4 = true
      rw [cofferM_event, journal_event]; exact h0
    · rw [cofferM_event, journal_event]; exact h0
  · rw [cofferM_event, cofferM_event, journal_event]; exact h0

/-- A coffer after a journal record (09 R354). -/
def recordIn (u : State) (n : Nat) (r : JRec) (c : Coffer) : Coffer := ringAdd (ringCap u n) ((sbNums u n).getD ((c.jAt + 1) % 4) 0) r c

theorem recordIn_last (u : State) (n : Nat) (r : JRec) (c : Coffer) : (recordIn u n r c).journal.getLast? = some r := by
  unfold recordIn ringAdd
  split <;> simp

theorem journal_own (u : State) {n : Nat} (r : JRec) (hl : n < u.bays.length) : (journal u n r).bay n =
    { u.bay n with coffer := (u.bay n).coffer.map (recordIn u n r), sinceCkpt := (u.bay n).sinceCkpt + 1, mirror := ((journal u n r).bay n).mirror } := by
  unfold journal
  dsimp only
  rw [bayM_bay, if_pos ⟨rfl, by simpa [cofferM, State.bayM] using hl⟩, cofferM_own _ _ hl]
  rfl

theorem findCmd_marked {s : State} {id op : Nat} (h : admitted s id op = true) : findCmd (marked s id) id = some { cmdOf s id with started := true } := by
  have hf := admitted_found h
  unfold findCmd marked at *
  simp only [State.hifM]
  generalize s.hif.cmds = l at *
  induction l with
  | nil => cases hf
  | cons c l ih =>
    simp only [List.map_cons, List.find?_cons] at *
    by_cases e : c.id = id
    · simp only [e, beq_self_eq_true, if_true] at *
      injection hf with hf
      rw [hf]
      simp [cmdOf_id]
    · have e' : (c.id == id) = false := by simpa using e
      simp only [e', Bool.false_eq_true, if_false] at *
      exact ih hf

/-- A command that its meaning completes by its identifier. -/
theorem late_answers {s u : State} {id op st r0 r1 : Nat} (h : admitted s id op = true) (hu : u.hif = (begun s id).hif) (hn : u.now = s.now) :
    answers s (completeId u id st r0 r1 0) (cmdOf s id) st r0 r1 := by
  have hf : findCmd u id = some { cmdOf s id with started := true } := by
    have := findCmd_marked h
    unfold findCmd at this ⊢
    rw [hu, begun_hif]
    exact this
  have hd : u.hif.done = s.hif.done := by rw [hu]; exact begun_done s id
  exact completeId_answers (c := { cmdOf s id with started := true }) hf hd hn (by rw [show ({ cmdOf s id with started := true } : HCmd).id = id from cmdOf_id s id]; exact admitted_open h)

theorem tab_get_vals {α : Type} (t : Tab α) (i : Nat) (v : α) (h : t.get? i = some v) : v ∈ t.vals := by
  induction t with
  | nil => cases h
  | cons a t ih =>
    obtain ⟨k, w⟩ := a
    unfold Tab.get? at h
    split at h
    · injection h with h
      subst h
      exact List.mem_cons_self ..
    · exact List.mem_cons_of_mem _ (ih h)

theorem place_puts (c : Cur) (d : Desc) : (place c d).puts = c.puts := by unfold place; split <;> (try split) <;> rfl

theorem submit_puts (s : State) (d : Desc) : (submit s d).cur.puts = s.cur.puts := by
  unfold submit
  dsimp only
  split <;> exact place_puts _ _

theorem put_desc (s : State) (c : HCmd) (a : Nat) (b : List Byte) (st r0 r1 : Nat) : ∃ d ∈ allDescs (submitPut s c a b st r0 r1), d.op = 7 ∧ d.purpose = .put c.id ∧
    (submitPut s c a b st r0 r1).cur.puts = s.cur.puts ++ [{ cmd := c.id, addr := a, data := b, status := st, r0 := r0, r1 := r1 }] := by
  unfold submitPut
  dsimp only
  exact ⟨_, submit_held _ _, rfl, rfl, submit_puts _ _⟩

theorem begun_eph (s : State) (id : Nat) : (begun s id).eph = s.eph := (begun_confined s id) .eph (by decide)

theorem ephM_confined (s : State) (f : Eph → Eph) : confined [.eph] s (s.ephM f) := by
  intro p hp
  cases p <;> first | rfl | exact absurd (by decide) hp

theorem after_answers {s u : State} {id op st r0 r1 : Nat} (h : admitted s id op = true) (hu : u.hif = (begun s id).hif) (hn : u.now = s.now) :
    answers s (complete u (cmdOf s id) st r0 r1 0) (cmdOf s id) st r0 r1 :=
  complete_answers (by rw [hu]; exact begun_done s id) hn (by rw [cmdOf_id]; exact admitted_open h)

/-- With its clock present a unit acts (01 R35). -/
theorem clocked_on {s : State} {o : Out} (h : s.lan.refclk = true) : clocked s o = o := by unfold clocked; rw [if_pos h]

theorem leaveCmd_hif (s : State) (id : Nat) :
    (leaveCmd s id).hif = { s.hif with cmds := s.hif.cmds.filter (fun c => c.id != id), done := s.hif.done.filter (fun d => d.id != id) } := rfl

theorem leaveCmd_hostMem (s : State) (id : Nat) : (leaveCmd s id).hostMem = s.hostMem := rfl

end Sys2Proof.Machine
end

