-- ==== Sys2Proof/Laws/Effects/Admission.lean ====
section
/-! SUPPORT. Sys2Proof/Laws/Effects/Admission.lean: lemmas on what the commands of the statements on admission leave. -/

set_option linter.unusedSimpArgs false
set_option linter.unnecessarySimpa false
set_option linter.unusedVariables false

namespace Sys2Proof.Machine
open Sys2Proof

theorem hostCmd_refused {s : State} {id op st : Nat} (k : State → HCmd → State) (h : startable s id op = true) (g : gate s (cmdOf s id) = some st) :
    hostCmd s id op k = .next (complete (marked s id) (cmdOf s id) st 0 0 0) := by
  unfold startable at h
  simp only [Bool.and_eq_true, beq_iff_eq, Bool.not_eq_true', Option.isSome_iff_exists] at h
  obtain ⟨⟨⟨⟨⟨⟨c, hc⟩, h2⟩, h3⟩, h4⟩, h5⟩, h6⟩ := h
  have e : cmdOf s id = c := by unfold cmdOf; rw [hc]; rfl
  have tk : takeCmd s id op = some (marked s id, cmdOf s id) := by
    unfold takeCmd
    rw [hc]
    rw [e] at h3 h4 h6
    simp [h2, h3, h4, h5, h6, marked, e]
  simp [hostCmd, tk, gate_marked, g]

theorem marked_answers {s : State} {id op st : Nat} (h : startable s id op = true) :
    answers s (complete (marked s id) (cmdOf s id) st 0 0 0) (cmdOf s id) st 0 0 := by
  have hq : completed s id = false := by
    unfold startable at h
    simp only [Bool.and_eq_true, Bool.not_eq_true'] at h
    exact h.1.2
  have ho : completed (marked s id) (cmdOf s id).id = false := by
    rw [cmdOf_id]; exact (completed_marked s id id).trans hq
  unfold answers complete
  rw [ho]
  rfl

theorem marked_hif (s : State) (id st : Nat) : confined [.hif] s (complete (marked s id) (cmdOf s id) st 0 0 0) := by
  refine confined_trans ?_ (complete_confined _ _ _ _ _ _)
  intro p hp
  cases p <;> first | rfl | exact absurd (by decide) hp

theorem sessionCmd_refused {s : State} {id op st : Nat} (k : State → HCmd → Nat → Locket → State) (h : startable s id op = true)
    (ho : ∀ h l, findSession s (cmdOf s id).tenant (cmdOf s id).handle = some (h, l) → opening l = false) (g : gate s (cmdOf s id) = some st) :
    sessionCmd s id op k = .next (complete (marked s id) (cmdOf s id) st 0 0 0) := by
  have h0 := h
  unfold startable at h0
  simp only [Bool.and_eq_true, beq_iff_eq, Bool.not_eq_true', Option.isSome_iff_exists] at h0
  obtain ⟨⟨⟨⟨⟨⟨c, hc⟩, -⟩, -⟩, -⟩, -⟩, -⟩ := h0
  have e : cmdOf s id = c := by unfold cmdOf; rw [hc]; rfl
  unfold sessionCmd
  rw [hc]
  dsimp only
  rw [if_neg]
  · exact hostCmd_refused _ h g
  · rw [← e]
    cases hf : findSession s (cmdOf s id).tenant (cmdOf s id).handle with
    | none => simp
    | some x => simp [ho x.1 x.2 hf]

end Sys2Proof.Machine
end

