-- ==== Sys2Proof/Laws/Effects/Almanac.lean ====
section
/-! SUPPORT. Sys2Proof/Laws/Effects/Almanac.lean: lemmas on what the commands of the statements on almanac leave. -/

set_option linter.unusedSimpArgs false
set_option linter.unnecessarySimpa false
set_option linter.unusedVariables false

namespace Sys2Proof.Machine
open Sys2Proof

theorem front_op {s : State} {r : Req} (h : front s = some r) (op : Nat) (ho : r.op = op) : frontOp s op = some r := by
  unfold frontOp
  rw [h]
  simp [ho, Option.filter]

theorem replyPop_replied (s : State) (r : Req) (a k ty total : Nat) (last : Bool) (d : List Byte) (hk : k < 256) (f : Lan → Lan)
    (hq : ∀ l, (f l).queue = l.queue) (ht : ∀ l, (f l).tx = l.tx) : replied s (reply ((pop s).lanM f) r a (respPdu r k ty last total d)) r k :=
  reply_replied _ _ _ _ _ _ _ hk (by simp [hq, pop]) (by simp [ht, pop])

theorem data_at (r : Req) (ty total : Nat) (last : Bool) (d rest : List Byte) (n : Nat) (hn : n = d.length) : ((respPdu r 0 ty last total d ++ rest).drop 24).take n = d := by
  subst hn
  simp [respPdu, natLe]

theorem writeThrough {s : State} {r : Req} {i j v : Nat} (h : asks s r i j v) (ho : ownRow i j = false) : exec .write s = .next (answerReq (plainWrite s i j v) r 0) := by
  obtain ⟨h1, h2, h3, h4, h5, h6⟩ := h
  show execWrite s = _
  unfold execWrite
  rw [front_op h1 2 h2]
  simp only [h6, h3, h4, ho, h5]
  rfl

end Sys2Proof.Machine
end

