-- ==== Sys2Proof/Laws/Effects/Bays.lean ====
section
/-! SUPPORT. Sys2Proof/Laws/Effects/Bays.lean: lemmas on what the commands of the statements on bays leave. -/

set_option linter.unusedSimpArgs false
set_option linter.unnecessarySimpa false
set_option linter.unusedVariables false

namespace Sys2Proof.Machine
open Sys2Proof

theorem replayJournal_ident (c : Coffer) : (replayJournal c).ident = c.ident := by
  have : ∀ (l : List Nat) (d : Coffer), (l.foldl dropPieces d).ident = d.ident := by
    intro l
    induction l with
    | nil => intro d; rfl
    | cons a l ih => intro d; exact ih _
  unfold replayJournal
  dsimp only
  exact this _ _

end Sys2Proof.Machine
end

