-- ==== Sys2Proof/Laws/Effects/Chain.lean ====
section
/-! SUPPORT. Sys2Proof/Laws/Effects/Chain.lean: lemmas on what the commands of the statements on chain leave. -/

set_option linter.unusedSimpArgs false
set_option linter.unnecessarySimpa false
set_option linter.unusedVariables false

namespace Sys2Proof.Machine
open Sys2Proof

theorem adoptPosition_facts (s : State) (p : Nat) (h : s.std.position = none) : (adoptPosition s p).std.position = some p ∧ (adoptPosition s p).std.adoptedAt = s.now := by
  unfold adoptPosition
  rw [if_neg (by simp [h]), if_pos (by simp [h])]
  simp

theorem recordCount_facts (s : State) (n : Nat) : (recordCount s n).std.count = n ∧ (recordCount s n).std.countSent = true ∧ (recordCount s n).std.tail = s.std.tail := by
  unfold recordCount
  dsimp only
  split
  · split <;> simp
  · split <;> simp

def passedBeacon (s : State) (m : Msg) (residence : Nat) : State :=
  if isMaster s || !freshSeq s (m.fld 8 4) then s
  else flood (s.stdM fun d => { d with seenSeq := some (m.fld 8 4) }) m.port
    (beaconBody (m.fld 8 4) (m.fld 12 1) (m.fld 16 8) (sEnc 64 (sNat 64 (m.fld 24 8) + (s.port m.port).delay + residence)) (m.fld 32 8) (m.fld 40 8))

theorem passedBeacon_facts (s : State) (m : Msg) (r : Nat) : (passedBeacon s m r).std.lastBeacon = s.std.lastBeacon ∧ (passedBeacon s m r).std.timePort = s.std.timePort ∧
    ((passedBeacon s m r).port m.port).delay = (s.port m.port).delay ∧ (passedBeacon s m r).std.mode = s.std.mode ∧ (passedBeacon s m r).std.epoch = s.std.epoch ∧
    (passedBeacon s m r).std.position = s.std.position ∧ (passedBeacon s m r).std.members = s.std.members ∧ (passedBeacon s m r).now = s.now := by
  unfold passedBeacon
  split
  · simp
  · refine ⟨by simp, by simp, ?_, by simp, by simp, by simp, by simp, by simp⟩
    rw [flood_port]
    rfl

def SameLinks (s u : State) : Prop := u.std.lastBeacon = s.std.lastBeacon ∧ u.std.timePort = s.std.timePort ∧ u.std.mode = s.std.mode ∧ u.std.epoch = s.std.epoch ∧
  u.std.position = s.std.position ∧ u.std.members = s.std.members ∧ ∀ n, (u.port n).delay = (s.port n).delay

theorem sameLinks_trans {s u v : State} (h : SameLinks s u) (k : SameLinks u v) : SameLinks s v :=
  ⟨k.1.trans h.1, k.2.1.trans h.2.1, k.2.2.1.trans h.2.2.1, k.2.2.2.1.trans h.2.2.2.1, k.2.2.2.2.1.trans h.2.2.2.2.1, k.2.2.2.2.2.1.trans h.2.2.2.2.2.1,
    fun n => (k.2.2.2.2.2.2 n).trans (h.2.2.2.2.2.2 n)⟩

theorem sendFlit_links (s : State) (f : Flit) : SameLinks s (sendFlit s f) := by
  refine ⟨by simp, by simp, by simp, by simp, by simp, by simp, fun n => ?_⟩
  unfold sendFlit
  split
  · rfl
  · split
    · rfl
    · rw [portM_port]
      split <;> rfl

theorem signal_links (s : State) (v : Nat) : SameLinks s (signal s v) := by
  unfold signal
  split
  · exact ⟨rfl, rfl, rfl, rfl, rfl, rfl, fun _ => rfl⟩
  · split
    · exact sendFlit_links _ _
    · exact ⟨rfl, rfl, rfl, rfl, rfl, rfl, fun _ => rfl⟩

theorem signals_links (vs : List Nat) (s : State) : SameLinks s (vs.foldl signal s) := by
  induction vs generalizing s with
  | nil => exact ⟨rfl, rfl, rfl, rfl, rfl, rfl, fun _ => rfl⟩
  | cons v vs ih => simp only [List.foldl_cons]; exact sameLinks_trans (signal_links s v) (ih _)

theorem leaveIsolated_keeps (s : State) : SameLinks s (leaveIsolated s) := by
  unfold leaveIsolated
  split
  · unfold releaseHeld
    exact sameLinks_trans (u := (s.integM fun g => { g with mode := .normal }).hifM fun h => { h with msixHeld := [] })
      ⟨rfl, rfl, rfl, rfl, rfl, rfl, fun _ => rfl⟩ (signals_links _ _)
  · exact ⟨rfl, rfl, rfl, rfl, rfl, rfl, fun _ => rfl⟩

theorem isMaster_same {s u : State} (h1 : u.std.mode = s.std.mode) (h2 : u.std.epoch = s.std.epoch) (h3 : u.std.position = s.std.position) (h4 : u.std.members = s.std.members) :
    isMaster u = isMaster s := by
  simp [isMaster, lowestMember, h1, h2, h3, h4]

end Sys2Proof.Machine
end

