-- ==== Sys2Proof/Laws/Effects/Charms.lean ====
section
/-! SUPPORT. Sys2Proof/Laws/Effects/Charms.lean: lemmas on what the commands of the statements on charms leave. -/

set_option linter.unusedSimpArgs false
set_option linter.unnecessarySimpa false
set_option linter.unusedVariables false

namespace Sys2Proof.Machine
open Sys2Proof

theorem freeCharm_gone {s : State} {ci : Nat} {m : Charm} (h : s.charms.get? ci = some m) : (freeCharm s ci).charms.get? ci = none := by
  unfold freeCharm
  rw [h]
  show (Tab.erase _ ci).get? ci = none
  rw [tab_get_erase, if_pos rfl]

theorem unpin_get {s : State} {ci pin : Nat} {m : Charm} (h : s.charms.get? ci = some m) : ∃ q, (unpinReplicas s pin).charms.get? ci = some q ∧ (q.cmd = m.cmd ∧ q.names = m.names) ∧
    q.replicas.length = m.replicas.length ∧ ∀ k, (q.replicas.getD k {}).state = (m.replicas.getD k {}).state := by
  unfold unpinReplicas
  dsimp only
  have := tab_get_map s.charms (fun c : Charm => { c with replicas := c.replicas.map (fun r : Replica =>
      if r.pins.contains pin then
        let left := r.pins.filter (· != pin)
        { r with pins := left, idleSince := if left.isEmpty then s.now else r.idleSince }
      else r) }) ci
  rw [h] at this
  refine ⟨_, this, ⟨rfl, rfl⟩, by simp, fun k => ?_⟩
  simp only [List.getD_eq_getElem?_getD, List.getElem?_map]
  cases m.replicas[k]? with
  | none => rfl
  | some r => simp only [Option.map_some, Option.getD_some]; split <;> rfl

theorem replicaM_get {s : State} {ci k : Nat} {m : Charm} {f : Replica → Replica} (h : s.charms.get? ci = some m) (hk : k < m.replicas.length) :
    ∃ q, (s.replicaM ci k f).charms.get? ci = some q ∧ (q.cmd = m.cmd ∧ q.names = m.names) ∧ q.replicas.getD k {} = f (m.replicas.getD k {}) := by
  unfold State.replicaM State.charmM
  dsimp only
  rw [tab_get_upd, if_pos rfl, h]
  refine ⟨_, rfl, ⟨rfl, rfl⟩, ?_⟩
  dsimp only
  rw [getD_modify, if_pos ⟨rfl, hk⟩]

theorem replica_lt {m : Charm} {k : Nat} (h : replicaState m k ≠ .absent) : k < m.replicas.length := by
  apply Classical.byContradiction
  intro hn
  refine h ?_
  unfold replicaState
  rw [List.getD_eq_getElem?_getD, List.getElem?_eq_none (by omega)]
  rfl

theorem settle_facts {s u : State} {ci : Nat} {m : Charm} (h : u.charms.get? ci = some m) (hl : u.lockets = s.lockets) :
    if m.names = [] ∧ charmRefs s m = 0 ∧ m.cmd = none then (settleCharm u ci).charms.get? ci = none else (settleCharm u ci).charms.get? ci = some m := by
  have hr : charmRefs u m = charmRefs s m := by unfold charmRefs; rw [hl]
  unfold settleCharm
  rw [h]
  dsimp only
  rw [hr]
  by_cases e : m.names = [] ∧ charmRefs s m = 0 ∧ m.cmd = none
  · rw [if_pos e, if_pos (by simp [e])]
    exact freeCharm_gone h
  · rw [if_neg e, if_neg (by simpa [and_assoc] using e)]
    exact h

theorem create_enters {s : State} {id h : Nat} {l : Locket} (ha : admitted s id 0x27 = true) (h1 : (cmdOf s id).handle ≠ 0) (h2 : charmNamed s (cmdOf s id).tenant (cmdOf s id).handle = none)
    (h3 : (cmdOf s id).fld 28 1 = 0 ∨ (((cmdOf s id).fld 28 1 = 2 ∨ (cmdOf s id).fld 28 1 = 3) ∧ tierOpen s ((cmdOf s id).fld 28 1) = true))
    (h4 : findSession s (cmdOf s id).tenant ((cmdOf s id).fld 16 8) = some (h, l)) (h5 : s.lockets.get? h = some l) (h6 : l.state = .opened) (h7 : l.pins = []) :
    exec (.charmCreate id) s = .next (charmFrom (takePin ((begun s id).locketM h fun l => { l with lastTouch := max l.lastTouch (cmdOf s id).accept, dirtyControl := true }) h id)
      (cmdOf s id) { l with lastTouch := max l.lastTouch (cmdOf s id).accept, dirtyControl := true, pins := [id] }) ∧
    takePin ((begun s id).locketM h fun l => { l with lastTouch := max l.lastTouch (cmdOf s id).accept, dirtyControl := true }) h id =
      ((begun s id).locketM h fun l => { l with lastTouch := max l.lastTouch (cmdOf s id).accept, dirtyControl := true }).locketM h fun l => { l with pins := if l.pins.contains id then l.pins else l.pins ++ [id] } := by
  have c := begun_confined s id
  let v := (begun s id).locketM h fun l => { l with lastTouch := max l.lastTouch (cmdOf s id).accept, dirtyControl := true }
  have hv : v.lockets.get? h = some { l with lastTouch := max l.lastTouch (cmdOf s id).accept, dirtyControl := true } := by
    simp only [v, State.locketM_lockets, tab_get_upd_same]
    rw [c .lockets (by decide), h5]
    rfl
  have hp : takePin v h id = v.locketM h fun l => { l with pins := if l.pins.contains id then l.pins else l.pins ++ [id] } := takePin_calm hv (by simp [h6])
  refine ⟨?_, hp⟩
  show execCharmCreate id s = _
  unfold execCharmCreate
  rw [hostCmd_admitted _ ha]
  unfold charmStart
  dsimp only
  have hn : charmNamed (begun s id) (cmdOf s id).tenant (cmdOf s id).handle = none := by
    unfold charmNamed at h2 ⊢
    rw [c .charms (by decide)]; exact h2
  have ht : tierOpen (begun s id) ((cmdOf s id).fld 28 1) = tierOpen s ((cmdOf s id).fld 28 1) := by
    have a1 : (begun s id).lan = s.lan := c .lan (by decide)
    have a2 : (begun s id).lpc = s.lpc := c .lpc (by decide)
    have aw : writable (begun s id) = writable s := by funext n; unfold writable State.bay; rw [c .bays (by decide)]
    simp only [tierOpen, t2Fitted, t3Fitted, a1, a2, aw]
  rw [if_neg (by rw [hn, ht]; rcases h3 with h3 | ⟨h3 | h3, h3'⟩ <;> simp_all), findSession_begun, h4]
  dsimp only
  rw [cmdOf_id]
  have hq : (takePin v h id).lockets.get? h = some { l with lastTouch := max l.lastTouch (cmdOf s id).accept, dirtyControl := true, pins := [id] } := by
    rw [hp]
    simp only [State.locketM_lockets, tab_get_upd_same]
    rw [show v.lockets.get? h = _ from hv]
    simp [h7]
  rw [show (takePin _ h id).lockets.get? h = _ from hq]

theorem charmFrom_checks {u : State} {c : HCmd} {l : Locket} (h1 : l.unusable = false) (h2 : l.replay = false) (h3 : opening l = false) (h4 : l.closing = none)
    (h5 : l.state = .opened) (h6 : l.stm.generating = false) (h7 : l.pins = [c.id]) (h8 : l.dropped = false) (h9 : l.recomputing = false) (h10 : c.fld 24 4 ≠ 0)
    (h11 : l.base = c.fld 24 4) : charmFrom u c l =
      match u.charms.find? (fun e => e.2.tenant == c.tenant && e.2.digest == charmDigestOf l.parureHash l.facetHash (l.thread.take (c.fld 24 4))) with
      | some (ci, m) =>
        if 16 ≤ m.names.length then complete u c stNoRoom 0 0 0
        else complete ((u.charmM ci fun m => { m with names := m.names ++ [c.handle] }).ckptM fun k => { k with controlDirty := true }) c stOk ci 1 0
      | none =>
        match buildCharm u c l (charmDigestOf l.parureHash l.facetHash (l.thread.take (c.fld 24 4))) with
        | some s => s
        | none => complete u c stNoRoom 0 0 0 := by
  unfold charmFrom
  dsimp only
  rw [if_neg (by simp [h1]), if_neg (by simp [h2, h3, h4]), if_neg (by simp [h5, h6, h7, h8, h9]), if_neg (by simp [h10, h11])]
  all_goals rfl

theorem replicaWrite_charms (s : State) (img : List Byte) (ci st : Nat) (loc : Bool) (x : Nat) (d : List Byte) : (replicaWrite s img ci st loc x d).charms = s.charms :=
  (replicaWrite_steady s img ci st loc x d).only .charms (by decide)

theorem settle_named {s : State} {ci : Nat} {m : Charm} (h : s.charms.get? ci = some m) (hn : m.names ≠ []) : settleCharm s ci = s := by
  unfold settleCharm
  rw [h]
  dsimp only
  rw [if_neg (by simp [hn])]

theorem finishCharm_facts {s : State} {ci : Nat} {m : Charm} (h : s.charms.get? ci = some m) (hn : m.names ≠ []) : ∃ q, (finishCharm s ci).charms.get? ci = some q ∧ q.replicas = m.replicas := by
  unfold finishCharm
  rw [h]
  dsimp only
  split
  · exact ⟨m, h, rfl⟩
  · split
    · have e : ∀ id, (completeId ((s.charmM ci fun c => { c with cmd := none, zeroSince := s.now }).ckptM fun k => { k with controlDirty := true }) id stOk ci 0 0).charms.get? ci =
          some { m with cmd := none, zeroSince := s.now } := by
        intro id
        rw [(completeId_confined _ _ _ _ _ _) .charms (by decide)]
        unfold State.ckptM State.charmM
        dsimp only
        rw [tab_get_upd, if_pos rfl, h]
        rfl
      rw [settle_named (e _) hn]
      exact ⟨_, e _, rfl⟩
    · exact ⟨m, h, rfl⟩

theorem placeCharm_facts (c : HCmd) (l : Locket) (img : List Byte) (dg ci addr n : Nat) (s : State) (fs : List Nat) :
    ∃ m, (placeCharm c l img dg ci addr n s fs).charms.get? ci = some m ∧ m.names = [c.handle] ∧ m.tenant = c.tenant ∧ m.digest = dg ∧
      m.symbols = l.thread.take (c.fld 24 4) ∧ m.cmd = some c.id ∧ m.anchor = l.home ∧ m.parureHash = l.parureHash ∧ m.facetHash = l.facetHash := by
  unfold placeCharm
  dsimp only
  rw [(submit_steady _ _).only .charms (by decide), (lowater_steady _).only .charms (by decide), (fillFromSource_steady _ _ _ _).only .charms (by decide)]
  dsimp only
  rw [tab_get_set, if_pos rfl]
  exact ⟨_, rfl, rfl, rfl, rfl, rfl, rfl, rfl, rfl, rfl⟩

theorem placeMaster_facts {c : HCmd} {ci n : Nat} {s u : State} {m : Charm} (h : placeMaster c ci n s = some u) (hm : s.charms.get? ci = some m) :
    ∃ q, u.charms.get? ci = some q ∧ q.names = m.names ∧ q.tenant = m.tenant ∧ q.digest = m.digest ∧ q.symbols = m.symbols ∧ q.cmd = m.cmd ∧ q.anchor = m.anchor ∧
      q.parureHash = m.parureHash ∧ q.facetHash = m.facetHash := by
  unfold placeMaster at h
  dsimp only at h
  split at h
  · injection h with h
    subst h
    exact ⟨m, hm, rfl, rfl, rfl, rfl, rfl, rfl, rfl, rfl⟩
  · generalize hq : openExtent s _ = o at h
    cases o with
    | none => cases h
    | some r =>
      obtain ⟨v, x⟩ := r
      have f := ((openExtent_gives _ _).frame hq).only
      injection h with h
      subst h
      rw [(submit_steady _ _).only .charms (by decide)]
      unfold State.charmM
      dsimp only
      rw [f .charms (by decide), tab_get_upd, if_pos rfl, hm]
      exact ⟨_, rfl, rfl, rfl, rfl, rfl, rfl, rfl, rfl, rfl⟩

end Sys2Proof.Machine
end

