-- ==== Sys2Proof/Laws/Effects/Checkpoints.lean ====
section
/-! SUPPORT. Sys2Proof/Laws/Effects/Checkpoints.lean: lemmas on what the commands of the statements on checkpoints leave. -/

set_option linter.unusedSimpArgs false
set_option linter.unnecessarySimpa false
set_option linter.unusedVariables false

namespace Sys2Proof.Machine
open Sys2Proof

theorem ckptM_confined (s : State) (f : Ckpt → Ckpt) : confined [.ckpt] s (s.ckptM f) := by
  intro p hp
  cases p <;> first | rfl | exact absurd (by decide) hp

theorem sendFlit_buddy (s : State) (f : Flit) : (sendFlit s f).std.buddy = s.std.buddy ∧ (sendFlit s f).std.epoch = s.std.epoch := by
  unfold sendFlit
  split
  · exact ⟨rfl, rfl⟩
  · split <;> exact ⟨rfl, rfl⟩

theorem begun_std (s : State) (id : Nat) : (begun s id).std.buddy = s.std.buddy ∧ (begun s id).std.epoch = s.std.epoch := by
  unfold begun hostFetch
  split
  · exact ⟨rfl, rfl⟩
  · dsimp only
    unfold sendMsg
    rw [(sendFlit_buddy _ _).1, (sendFlit_buddy _ _).2]
    exact ⟨rfl, rfl⟩

theorem begun_buddy (s : State) (id : Nat) : (begun s id).std.buddy = s.std.buddy := (begun_std s id).1

theorem undoCapture_ckpt (s : State) (c : Capture) : (undoCapture s c).ckpt.cuts = s.ckpt.cuts ∧ (undoCapture s c).ckpt.lastCut = s.ckpt.lastCut := by
  unfold undoCapture
  split <;> exact ⟨rfl, rfl⟩

theorem undoFold_ckpt (cs : List Capture) (s : State) : (cs.foldl undoCapture s).ckpt.cuts = s.ckpt.cuts ∧ (cs.foldl undoCapture s).ckpt.lastCut = s.ckpt.lastCut := by
  induction cs generalizing s with
  | nil => exact ⟨rfl, rfl⟩
  | cons c cs ih => rw [List.foldl_cons, (ih _).1, (ih _).2]; exact undoCapture_ckpt s c

theorem abandonCut_ckpt (s : State) (c : Cut) : (abandonCut s c).ckpt.cuts = s.ckpt.cuts.filter (fun d => d.frame != c.frame) ∧ (abandonCut s c).ckpt.lastCut = s.ckpt.lastCut := by
  unfold abandonCut
  dsimp only
  have h := undoFold_ckpt c.captures (freeCut (abandonFor s (fun p => p == Purpose.cut c.frame)) c.frame)
  rw [(freeCut_steady _ _).only .ckpt (by decide), (abandonFor_steady _ _).only .ckpt (by decide)] at h
  refine ⟨?_, h.2⟩
  show (List.foldl undoCapture _ _).ckpt.cuts.filter _ = _
  rw [h.1]

theorem abandonFold_ckpt (cs : List Cut) (s : State) : (cs.foldl abandonCut s).ckpt.cuts = s.ckpt.cuts.filter (fun d => cs.all (fun c => d.frame != c.frame)) ∧
    (cs.foldl abandonCut s).ckpt.lastCut = s.ckpt.lastCut ∧ (cs.foldl abandonCut s).hif = s.hif := by
  induction cs generalizing s with
  | nil => exact ⟨(List.filter_eq_self.2 (by simp)).symm, rfl, rfl⟩
  | cons c cs ih =>
    rw [List.foldl_cons, (ih _).1, (ih _).2.1, (ih _).2.2, (abandonCut_ckpt s c).1, (abandonCut_ckpt s c).2, (abandonCut_steady s c).only .hif (by decide)]
    refine ⟨?_, rfl, rfl⟩
    rw [List.filter_filter]
    congr 1
    funext d
    simp [Bool.and_comm]

theorem abandonFrom_ckpt (s : State) (n : Nat) : (abandonFrom s n).ckpt.cuts = s.ckpt.cuts.filter (fun d => d.frame < n) ∧ (abandonFrom s n).ckpt.lastCut = s.ckpt.lastCut ∧
    (abandonFrom s n).hif = s.hif := by
  unfold abandonFrom
  have h := abandonFold_ckpt (s.ckpt.cuts.filter (fun c => n ≤ c.frame)).reverse s
  refine ⟨?_, h.2⟩
  rw [h.1]
  apply List.filter_congr
  intro d hd
  by_cases hn : n ≤ d.frame
  · have : ¬ d.frame < n := by omega
    rw [decide_eq_false this, List.all_reverse]
    apply Bool.eq_false_iff.2
    intro hc
    rw [List.all_eq_true] at hc
    have := hc d (List.mem_filter.2 ⟨hd, by simpa using hn⟩)
    simp at this
  · have : d.frame < n := by omega
    rw [decide_eq_true this, List.all_reverse, List.all_eq_true]
    intro c hc
    have := (List.mem_filter.1 hc).2
    simp at this
    simp
    omega

theorem cutsOn_begun (s : State) (id : Nat) : cutsOn (begun s id) = cutsOn s := by
  unfold cutsOn
  rw [(begun_confined s id) .ckpt (by decide), begun_eph, begun_buddy]

theorem hasEnded_keeps {s : State} {i st r0 r1 n k st' : Nat} (h : hasEnded s k st') : hasEnded (completeId s i st r0 r1 n) k st' := by
  obtain ⟨d, hd, h1, h2⟩ := h
  refine ⟨d, ?_, h1, h2⟩
  unfold completeId
  split
  · unfold complete
    split
    · exact hd
    · exact List.mem_append_left _ hd
  · exact hd

theorem findCmd_complete {s : State} {i st r0 r1 n k : Nat} : findCmd (completeId s i st r0 r1 n) k = findCmd s k := by
  unfold completeId
  split
  · unfold complete
    split <;> rfl
  · rfl

theorem foldEnded {α : Type} (ps : List α) (f : α → Nat) (st r0 r1 n k : Nat) (c : HCmd) (u : State) (hf : findCmd u k = some c)
    (h : hasEnded u k st ∨ (completed u k = false ∧ ∃ p ∈ ps, f p = k)) : hasEnded (ps.foldl (fun s p => completeId s (f p) st r0 r1 n) u) k st := by
  induction ps generalizing u with
  | nil =>
    rcases h with h | ⟨_, p, hp, _⟩
    · exact h
    · cases hp
  | cons q ps ih =>
    rw [List.foldl_cons]
    refine ih _ (by rw [findCmd_complete]; exact hf) ?_
    rcases h with h | ⟨h, p, hp, hk⟩
    · exact .inl (hasEnded_keeps h)
    · by_cases hq : f q = k
      · refine .inl ?_
        unfold completeId
        rw [hq, hf]
        have := complete_hasEnded (s := u) (c := c) (st := st) (r0 := r0) (r1 := r1) (n := n) (by rw [findCmd_id hf]; exact h)
        rw [findCmd_id hf] at this
        exact this
      · refine .inr ⟨by rw [completeId_completed_other hq]; exact h, p, ?_, hk⟩
        rcases List.mem_cons.1 hp with rfl | hp
        · exact absurd hk hq
        · exact hp

theorem foldCompleteId_ckpt {α : Type} (ps : List α) (f : α → Nat) (st r0 r1 n : Nat) (u : State) : (ps.foldl (fun s p => completeId s (f p) st r0 r1 n) u).ckpt = u.ckpt := by
  induction ps generalizing u with
  | nil => rfl
  | cons p ps ih => rw [List.foldl_cons, ih]; exact (completeId_confined _ _ _ _ _ _) .ckpt (by decide)

theorem endSnapshots_ckpt (s : State) (n u : Nat) (b : Bool) : (endSnapshots s n u b).ckpt =
    { s.ckpt with snapshots := s.ckpt.snapshots.filter (fun p => !(s.ckpt.snapshots.filter (fun p => p.cut == some n && (b || !p.coffer))).contains p) } := by
  unfold endSnapshots
  dsimp only
  rw [foldCompleteId_ckpt]
  rfl

theorem endSnapshots_ended {s : State} {n u : Nat} {b : Bool} {p : Snapshot} (hp : p ∈ s.ckpt.snapshots) (hc : p.cut = some n) (hb : b = true ∨ p.coffer = false)
    (hf : (findCmd s p.cmd).isSome) (ho : completed s p.cmd = false) : hasEnded (endSnapshots s n u b) p.cmd stOk := by
  obtain ⟨c, hf⟩ := Option.isSome_iff_exists.1 hf
  unfold endSnapshots
  dsimp only
  exact foldEnded _ _ _ _ _ _ _ c _ hf (.inr ⟨ho, p, by
    rw [List.mem_filter]
    exact ⟨hp, by rcases hb with hb | hb <;> simp [hc, hb]⟩, rfl⟩)

theorem drainSend_ckpt (s : State) (c : Cut) (a b d e : Nat) (k : Option Nat) (z : Option (Nat × Nat)) : (drainSend s c a b d e k z).ckpt = s.ckpt := (drainSend_steady _ _ _ _ _ _ _ _).only .ckpt (by decide)

theorem drainSend_keeps (s : State) (c : Cut) (a b n t : Nat) (k : Option Nat) (z : Option (Nat × Nat)) (e : Desc) (h : e ∈ allDescs s) : e ∈ allDescs (drainSend s c a b n t k z) := by
  unfold drainSend
  split
  · exact h
  · exact submit_keeps _ _ _ h

theorem drainFold_keeps {α : Type} (xs : List α) (c : Cut) (a : α → Nat) (b : α → Nat) (n : α → Nat) (t : α → Nat) (k : State → α → Option Nat) (z : α → Option (Nat × Nat)) (s : State) (e : Desc) (h : e ∈ allDescs s) :
    e ∈ allDescs (xs.foldl (fun s x => drainSend s c (a x) (b x) (n x) (t x) (k s x) (z x)) s) := by
  induction xs generalizing s with
  | nil => exact h
  | cons x xs ih => rw [List.foldl_cons]; exact ih _ (drainSend_keeps _ _ _ _ _ _ _ _ _ h)

theorem drainOne {s : State} {c : Cut} (h : c.phase = 1) : ∃ d ∈ allDescs (drainPhase s c), d.op = 5 ∧ d.peer = c.buddy ∧ d.purpose = .cut c.frame ∧ d.units = 1 ∧ d.extent = c.extentId := by
  have h0 : ∃ d ∈ allDescs (drainSend s c c.extentId 0 1 0 none none), d.op = 5 ∧ d.peer = c.buddy ∧ d.purpose = .cut c.frame ∧ d.units = 1 ∧ d.extent = c.extentId := by
    unfold drainSend
    rw [if_neg (by decide)]
    exact ⟨_, submit_held _ _, rfl, rfl, rfl, rfl, rfl⟩
  obtain ⟨d, d1, d2⟩ := h0
  unfold drainPhase
  rw [if_pos h]
  dsimp only
  exact ⟨d, drainFold_keeps _ c _ _ _ _ _ _ _ _ (drainFold_keeps _ c _ _ _ _ _ _ _ _ d1), d2⟩

theorem cutM_find (s : State) (n : Nat) (f : Cut → Cut) (hf : ∀ c, (f c).frame = c.frame) : findCut (cutM s n f) n = (findCut s n).map f := by
  unfold findCut cutM State.ckptM
  dsimp only
  induction s.ckpt.cuts with
  | nil => rfl
  | cons c cs ih =>
    rw [List.map_cons, List.find?_cons, List.find?_cons]
    by_cases h : c.frame = n
    · simp [h, hf]
    · rw [if_neg h, show (c.frame == n) = false by simpa using h]
      exact ih

theorem copyDone_after (s : State) (st : Nat) (q : CopyReq) :
    Steady [.ast, .lockets, .charms, .ckpt] (copyToSlot { s with hbc := s.hbc.modify st fun b => { b with copyQ := b.copyQ.drop 1 } } st q) (copyDone s st q) := by
  have hc := fun (u : State) (n : Nat) (f : Cut → Cut) => cutM_steady u n f
  unfold copyDone
  dsimp only
  split
  · exact (Steady.refl.chain (cutM_steady _ _ _) (by decide)).chain (releaseCopied_steady _ _ _) (by decide)
  · split
    · exact Steady.refl.chain (cutM_steady _ _ _) (by decide)
    · exact (Steady.refl.chain (cutM_steady _ _ _) (by decide)).chain (State.charmM_steady _ _ _) (by decide)

theorem restoreDescs_keep (c : HCmd) (n : Nat) (xs : List (Nat × Extent)) (s : State) (d : Desc) (h : d ∈ allDescs s) :
    d ∈ allDescs (xs.foldl (fun s e => submit s (restoreDesc s c n e)) s) := by
  induction xs generalizing s with
  | nil => exact h
  | cons x xs ih => rw [List.foldl_cons]; exact ih _ (submit_keeps _ _ _ h)

theorem restoreDesc_of (s : State) (c : HCmd) (n : Nat) (e : Nat × Extent) :
    (restoreDesc s c n e).purpose = .restore c.id ∧ (restoreDesc s c n e).extent = e.1 ∧ (restoreDesc s c n e).op = (if 0x40 ≤ n then 6 else 3) := by
  unfold restoreDesc
  split <;> exact ⟨rfl, rfl, rfl⟩

theorem restoreDescs_held (c : HCmd) (n : Nat) (xs : List (Nat × Extent)) (s : State) : ∀ e ∈ xs, ∃ d ∈ allDescs (xs.foldl (fun s e => submit s (restoreDesc s c n e)) s),
    d.purpose = .restore c.id ∧ d.extent = e.1 ∧ d.op = (if 0x40 ≤ n then 6 else 3) := by
  induction xs generalizing s with
  | nil => intro e he; cases he
  | cons x xs ih =>
    intro e he
    rw [List.foldl_cons]
    rcases List.mem_cons.1 he with rfl | he
    · refine ⟨_, restoreDescs_keep c n xs _ _ (submit_held s (restoreDesc s c n e)), ?_⟩
      exact restoreDesc_of s c n e
    · exact ih _ e he

theorem restoreDescs_confined (c : HCmd) (n : Nat) (xs : List (Nat × Extent)) (s : State) : Steady [.extents, .cur] s (xs.foldl (fun s e => submit s (restoreDesc s c n e)) s) := by
  induction xs generalizing s with
  | nil => exact Steady.refl
  | cons x xs ih => rw [List.foldl_cons]; exact (Steady.refl.chain (submit_steady _ _) (by decide)).chain (ih _) (by decide)

end Sys2Proof.Machine
end

