-- ==== Sys2Proof/Laws/Effects/Collections.lean ====
section
/-! SUPPORT. Sys2Proof/Laws/Effects/Collections.lean: lemmas on what the commands of the statements on collections leave. -/

set_option linter.unusedSimpArgs false
set_option linter.unnecessarySimpa false
set_option linter.unusedVariables false

namespace Sys2Proof.Machine
open Sys2Proof

theorem onColl_runs {s : State} {id op ci : Nat} {k : Coll} (h : onColl s id op ci k) (f : State → Nat → Coll → State) :
    collCmd (begun s id) (cmdOf s id) f = f (reapColl (begun s id) ci) ci k := by
  obtain ⟨_, ⟨k0, h1, h2, h3⟩, h4, h5⟩ := h
  unfold collCmd
  rw [h1]
  dsimp only
  rw [if_neg (by simp [h3]), h4]
  dsimp only
  rw [if_neg (by simpa using h5)]

theorem reapColl_hif (s : State) (ci : Nat) : (reapColl s ci).hif = s.hif := (reapColl_steady s ci).only .hif (by decide)

theorem reapColl_now (s : State) (ci : Nat) : (reapColl s ci).now = s.now := (reapColl_steady s ci).only .now (by decide)

theorem reap_get {s : State} {ci : Nat} {k : Coll} (h : s.colls.get? ci = some k) : (reapColl s ci).colls.get? ci = some
    { k with gens := (k.gens.take 1).map (fun g => { g with holders := g.holders.filter (holding s) }) ++ (k.gens.drop 1).filter (fun g => g.holders.any (holding s))
             items := k.items.filter (fun e => !((((k.gens.drop 1).filter (fun g => !g.holders.any (holding s))).map (·.omitted)).flatten).contains e.1) } := by
  unfold reapColl State.collM
  dsimp only
  rw [tab_get_upd_same, h]
  rfl

theorem collM_get (s : State) (ci : Nat) (f : Coll → Coll) : (s.collM ci f).colls.get? ci = (s.colls.get? ci).map f := tab_get_upd_same _ _ _

theorem findColl_begun (s : State) (id t h : Nat) : findColl (begun s id) t h = findColl s t h := by
  unfold findColl
  rw [(begun_confined s id) .colls (by decide)]

theorem begun_colls (s : State) (id : Nat) : (begun s id).colls = s.colls := (begun_confined s id) .colls (by decide)

theorem complete_colls (s : State) (c : HCmd) (st r0 r1 n : Nat) : (complete s c st r0 r1 n).colls = s.colls := (complete_confined s c st r0 r1 n) .colls (by decide)

end Sys2Proof.Machine
end

