-- ==== Sys2Proof/Laws/Effects/Contexts.lean ====
section
/-! SUPPORT. Sys2Proof/Laws/Effects/Contexts.lean: lemmas on what the commands of the statements on contexts leave. -/

set_option linter.unusedSimpArgs false
set_option linter.unnecessarySimpa false
set_option linter.unusedVariables false

namespace Sys2Proof.Machine
open Sys2Proof

theorem parureHandle_begun (s : State) (id x : Nat) : parureHandle (begun s id) x = parureHandle s x := by
  unfold parureHandle
  rw [(begun_confined s id) .parures (by decide)]

theorem abandonMove_eph (s : State) (h : Nat) : (abandonMove s h).eph = s.eph := (abandonMove_steady s h).only .eph (by decide)

theorem returnJoin_eph {s : State} {h : Nat} {l : Locket} (hl : s.lockets.get? h = some l) (hr : l.recomputing = false) : (returnJoin s h).eph = s.eph := by
  have hm : ∃ q, (abandonMove s h).lockets.get? h = some q ∧ q.recomputing = false := by
    unfold abandonMove
    rw [hl]
    dsimp only
    split
    · exact ⟨l, hl, hr⟩
    · rw [show ∀ (u : State) f, (u.astM f).lockets = u.lockets from fun _ _ => rfl, State.locketM_lockets, tab_get_upd_same]
      rw [(releaseFrames_steady _ _ _).only .lockets (by decide), (abandonFor_steady _ _).only .lockets (by decide), hl]
      exact ⟨_, rfl, hr⟩
  obtain ⟨q, hq, hr'⟩ := hm
  have ha : abandonRecompute (abandonMove s h) h = abandonMove s h := by
    unfold abandonRecompute
    rw [hq]
    dsimp only
    rw [if_pos (by simp [hr'])]
  unfold returnJoin
  dsimp only
  rw [ha, ite_self, hq]
  dsimp only
  rw [hr']
  simp only [Bool.false_eq_true, if_false]
  rw [(unpinReplicas_steady _ _).only .eph (by decide)]
  rw [show ∀ (u : State) a f, (u.locketM a f).eph = u.eph from fun _ _ _ => rfl, (releaseFrames_steady _ _ _).only .eph (by decide), abandonMove_eph]

theorem pinsFold_hif (js : List Join) (h : Nat) (u : State) : (js.foldl (fun s j => s.locketM h fun l => { l with pins := l.pins.filter (· != j.cmd) }) u).hif = u.hif ∧
    (js.foldl (fun s j => s.locketM h fun l => { l with pins := l.pins.filter (· != j.cmd) }) u).eph = u.eph := by
  induction js generalizing u with
  | nil => exact ⟨rfl, rfl⟩
  | cons j js ih => rw [List.foldl_cons]; exact ih _

theorem completeFold_open (js : List Join) (st id : Nat) (hn : ∀ j ∈ js, j.cmd ≠ id) (u : State) (hu : completed u id = false) :
    completed (js.foldl (fun s j => completeId s j.cmd st 0 0 0) u) id = false ∧ (js.foldl (fun s j => completeId s j.cmd st 0 0 0) u).eph = u.eph := by
  induction js generalizing u with
  | nil => exact ⟨hu, rfl⟩
  | cons j js ih =>
    rw [List.foldl_cons]
    have := ih (fun k hk => hn k (List.mem_cons_of_mem _ hk)) (completeId u j.cmd st 0 0 0) (by
      rw [completeId_completed_other (hn j (List.mem_cons_self ..))]; exact hu)
    exact ⟨this.1, this.2.trans ((completeId_confined _ _ _ _ _ _) .eph (by decide))⟩

theorem withdrawJoin_facts {s : State} {h st id : Nat} {l : Locket} (hl : s.lockets.get? h = some l) (hj : ∃ j ∈ (s.eph.ctxs.vals.map (·.joins)).flatten, j.id = h)
    (ho : completed s id = false) (hn : ∀ y ∈ s.eph.ctxs.vals, ∀ j ∈ y.joins, j.id = h → j.cmd ≠ id) : completed (withdrawJoin s h st) id = false ∧
    (l.recomputing = false → (withdrawJoin s h st).eph.ctxs = s.eph.ctxs.map (fun y => (y.1, { y.2 with joins := y.2.joins.filter (fun j => j.id != h) }))) := by
  unfold withdrawJoin
  dsimp only
  obtain ⟨j, hj1, hj2⟩ := hj
  rw [if_neg]
  rotate_left
  · intro hc
    rw [List.isEmpty_iff] at hc
    have : j ∈ List.filter (fun j => j.id == h) ((s.eph.ctxs.vals.map (·.joins)).flatten) := List.mem_filter.2 ⟨hj1, by simp [hj2]⟩
    rw [hc] at this
    cases this
  let v := s.ephM fun e => { e with ctxs := e.ctxs.map (fun x => (x.1, { x.2 with joins := x.2.joins.filter (fun j => j.id != h) })) }
  let js := List.filter (fun j => j.id == h) ((s.eph.ctxs.vals.map (·.joins)).flatten)
  have p1 := pinsFold_hif js h (returnJoin v h)
  have p2 := completeFold_open js st id (by
    intro j hj
    simp only [js, List.mem_filter, List.mem_flatten, List.mem_map] at hj
    obtain ⟨⟨x, ⟨y, hy, rfl⟩, hjy⟩, he⟩ := hj
    exact hn y hy j hjy (by simpa using he)) (js.foldl (fun s j => s.locketM h fun l => { l with pins := l.pins.filter (· != j.cmd) }) (returnJoin v h)) (by
    unfold completed at ho ⊢
    rw [p1.1, (returnJoin_steady _ _).only .hif (by decide)]
    exact ho)
  refine ⟨p2.1, fun hr => ?_⟩
  show (js.foldl (fun s j => completeId s j.cmd st 0 0 0) (js.foldl (fun s j => s.locketM h fun l => { l with pins := l.pins.filter (· != j.cmd) }) (returnJoin v h))).eph.ctxs = _
  rw [p2.2, p1.2, returnJoin_eph (s := v) (l := l) hl hr]
  rfl

theorem switch_room {e : Eph} {a : Nat} (h2 : e.shadow.isSome = true) (h3 : e.active = none ∨ a = 0 ∨ e.frame < a) :
    ¬ (e.shadow.isNone || (e.active.isSome && a != 0 && decide (a ≤ e.frame))) = true := by
  obtain ⟨w, hw⟩ := Option.isSome_iff_exists.1 h2
  rw [hw]
  rcases h3 with h3 | h3 | h3
  · simp [h3]
  · simp [h3]
  · simp only [Option.isNone_some, Bool.false_or, Bool.and_eq_true, decide_eq_true_eq, not_and, bne_iff_ne]
    intro _ h; omega

end Sys2Proof.Machine
end

