-- ==== Sys2Proof/Laws/Effects/Courier.lean ====
section
/-! SUPPORT. Sys2Proof/Laws/Effects/Courier.lean: lemmas on what the commands of the statements on courier leave. -/

set_option linter.unusedSimpArgs false
set_option linter.unnecessarySimpa false
set_option linter.unusedVariables false

namespace Sys2Proof.Machine
open Sys2Proof

theorem tab_vals_set_mem {α : Type} (t : Tab α) (i : Nat) (v e : α) (h : e ∈ Tab.vals (t.set i v)) : e ∈ Tab.vals t ∨ e = v := by
  induction t with
  | nil =>
    have : e = v := by simpa [Tab.set, Tab.vals] using h
    exact .inr this
  | cons a t ih =>
    obtain ⟨k, w⟩ := a
    unfold Tab.set at h
    split at h
    · rcases List.mem_cons.1 h with h | h
      · exact .inr h
      · exact .inl h
    · split at h
      · rcases List.mem_cons.1 h with h | h
        · exact .inr h
        · exact .inl (List.mem_cons_of_mem _ h)
      · rcases List.mem_cons.1 h with h | h
        · exact .inl (by rw [h]; exact List.mem_cons_self ..)
        · rcases ih h with h | h
          · exact .inl (List.mem_cons_of_mem _ h)
          · exact .inr h

theorem place_mem (c : Cur) (d e : Desc) (h : e ∈ Tab.vals (place c d).channels ++ (place c d).waiting) : e ∈ Tab.vals c.channels ++ c.waiting ∨ e = d := by
  unfold place at h
  have w : e ∈ Tab.vals c.channels ++ (c.waiting ++ [d]) → e ∈ Tab.vals c.channels ++ c.waiting ∨ e = d := by
    intro h
    simp only [List.mem_append, List.mem_singleton] at h ⊢
    rcases h with h | h | h
    · exact .inl (.inl h)
    · exact .inl (.inr h)
    · exact .inr h
  split at h
  · split at h
    · rcases List.mem_append.1 h with h | h
      · rcases tab_vals_set_mem _ _ _ _ h with h | h
        · exact .inl (List.mem_append_left _ h)
        · exact .inr h
      · exact .inl (List.mem_append_right _ h)
    · exact w h
  · exact w h

theorem settle_mem (c : Cur) (e : Desc) (h : e ∈ Tab.vals (settle c).channels ++ (settle c).waiting) : e ∈ Tab.vals c.channels ++ c.waiting := by
  unfold settle at h
  have key : ∀ (ws : List Desc) (c : Cur), e ∈ Tab.vals (ws.foldl place c).channels ++ (ws.foldl place c).waiting → e ∈ Tab.vals c.channels ++ c.waiting ∨ e ∈ ws := by
    intro ws
    induction ws with
    | nil => intro c h; exact .inl h
    | cons w ws ih =>
      intro c h
      rw [List.foldl_cons] at h
      rcases ih _ h with h | h
      · rcases place_mem _ _ _ h with h | h
        · exact .inl h
        · exact .inr (by rw [h]; exact List.mem_cons_self ..)
      · exact .inr (List.mem_cons_of_mem _ h)
  rcases key _ _ h with h | h
  · rw [List.append_nil] at h
    exact List.mem_append_left _ h
  · exact List.mem_append_right _ h

theorem settle_records (c : Cur) : (settle c).records = c.records := by
  unfold settle
  have key : ∀ (ws : List Desc) (c : Cur), (ws.foldl place c).records = c.records := by
    intro ws
    induction ws with
    | nil => intro c; rfl
    | cons w ws ih =>
      intro c
      rw [List.foldl_cons, ih _]
      unfold place; split <;> (try split) <;> rfl
  exact key _ _

theorem removeDesc_records (s : State) (d : Desc) : (removeDesc s d).cur.records = s.cur.records := by
  unfold removeDesc
  rw [(endRead_steady _ d).only .cur (by decide)]
  exact settle_records _

theorem settle_done (c : Cur) : (settle c).done = c.done ∧ (settle c).puts = c.puts := by
  unfold settle
  have key : ∀ (ws : List Desc) (c : Cur), (ws.foldl place c).done = c.done ∧ (ws.foldl place c).puts = c.puts := by
    intro ws
    induction ws with
    | nil => intro c; exact ⟨rfl, rfl⟩
    | cons w ws ih =>
      intro c
      rw [List.foldl_cons, (ih _).1, (ih _).2, place_puts]
      refine ⟨?_, rfl⟩
      unfold place; split <;> (try split) <;> rfl
  exact key _ _

theorem removeDesc_facts (s : State) (d : Desc) : (removeDesc s d).cur.done = s.cur.done ∧ (removeDesc s d).cur.puts = s.cur.puts ∧ (∀ e ∈ allDescs (removeDesc s d), e.cookie ≠ d.cookie) ∧
    ∀ e ∈ allDescs (removeDesc s d), e ∈ allDescs s := by
  unfold removeDesc
  have e1 : ∀ u : State, (endRead u d).cur = u.cur := fun u => (endRead_steady u d).only .cur (by decide)
  refine ⟨?_, ?_, ?_, ?_⟩
  · rw [e1]; exact (settle_done _).1
  · rw [e1]; exact (settle_done _).2
  all_goals
    intro e he
    unfold allDescs at he
    rw [e1] at he
    have := settle_mem _ _ he
    rcases List.mem_append.1 this with h | h
  · obtain ⟨p, hp, rfl⟩ := List.mem_map.1 h
    simpa using (List.mem_filter.1 hp).2
  · simpa using (List.mem_filter.1 h).2
  · obtain ⟨p, hp, rfl⟩ := List.mem_map.1 h
    exact List.mem_append_left _ (List.mem_map.2 ⟨p, (List.mem_filter.1 hp).1, rfl⟩)
  · exact List.mem_append_right _ (List.mem_filter.1 h).1

theorem curM_descs (s : State) (f : Cur → Cur) (h : ∀ c, (f c).channels = c.channels ∧ (f c).waiting = c.waiting) : allDescs (s.curM f) = allDescs s := by
  unfold allDescs
  rw [State.curM_cur, (h s.cur).1, (h s.cur).2]

theorem abandonDesc_descs (s : State) (d : Desc) (ha : d.abandonable = true) : allDescs (abandonDesc s d) = allDescs (removeDesc s d) := by
  unfold abandonDesc
  dsimp only
  rw [if_neg (by rw [ha]; decide)]
  have e : ∀ u : State, allDescs (undoWrite u d) = allDescs u := fun u => by unfold allDescs; rw [(undoWrite_steady u d).only .cur (by decide)]
  have e2 : ∀ u : State, allDescs (u.curM fun c => { c with evAbandon := true, abandoned := wrapInc 32 c.abandoned }) = allDescs u := fun u => by
    unfold State.curM allDescs; rfl
  have e3 : ∀ u : State, allDescs (writeRecord u d 1) = allDescs u := fun u => by
    unfold writeRecord State.curM allDescs; rfl
  rw [e, e2, e3]

theorem writeRecord_facts (s : State) (d : Desc) (st : Nat) : (writeRecord s d st).cur.done = s.cur.done ∧ (writeRecord s d st).cur.puts = s.cur.puts ∧
    (writeRecord s d st).cur.records = (s.cur.records ++ [doneRec s d st]).drop (s.cur.records.length - 1023) := by
  unfold writeRecord
  rw [State.curM_cur]
  dsimp only
  exact ⟨rfl, rfl, rfl⟩

theorem abandonDesc_keeps (s : State) (d : Desc) : ∀ e ∈ allDescs (abandonDesc s d), e ∈ allDescs s := by
  intro e he
  by_cases ha : d.abandonable = true
  · rw [abandonDesc_descs s d ha] at he
    exact (removeDesc_facts s d).2.2.2 e he
  · unfold abandonDesc at he
    rw [if_pos (by simpa using ha)] at he
    exact he

theorem abandonFor_gone (s : State) (p : Purpose → Bool) (ha : ∀ e ∈ allDescs s, p e.purpose = true → e.abandonable = true) :
    ∀ e ∈ allDescs (abandonFor s p), p e.purpose = false := by
  intro e he
  have key : ∀ (ds : List Desc) (u : State), (∀ d ∈ ds, d.abandonable = true) → (∀ e ∈ allDescs (ds.foldl abandonDesc u), e ∈ allDescs u ∧ ∀ d ∈ ds, e.cookie ≠ d.cookie) := by
    intro ds
    induction ds with
    | nil => intro u _ e he; exact ⟨he, fun d hd => by cases hd⟩
    | cons d ds ih =>
      intro u hb e he
      rw [List.foldl_cons] at he
      obtain ⟨h1, h2⟩ := ih _ (fun x hx => hb x (List.mem_cons_of_mem _ hx)) e he
      rw [abandonDesc_descs _ _ (hb d (List.mem_cons_self ..))] at h1
      have r := removeDesc_facts u d
      refine ⟨r.2.2.2 e h1, fun x hx => ?_⟩
      rcases List.mem_cons.1 hx with rfl | hx
      · exact r.2.2.1 e h1
      · exact h2 x hx
  have he' : e ∈ allDescs (((allDescs s).filter (fun d => p d.purpose)).foldl abandonDesc s) := he
  obtain ⟨h1, h2⟩ := key _ s (fun d hd => ha d (List.mem_filter.1 hd).1 (List.mem_filter.1 hd).2) e he'
  cases hp : p e.purpose with
  | false => rfl
  | true => exact absurd rfl (h2 e (List.mem_filter.2 ⟨h1, hp⟩))

theorem channelOf_cookie {s : State} {k cookie : Nat} {d : Desc} (h : channelOf s cookie = some (k, d)) : d.cookie = cookie := by
  have := List.find?_some h
  simpa using this

theorem curM_confined (s : State) (f : Cur → Cur) : confined [.cur] s (s.curM f) := by
  intro p hp
  cases p <;> first | rfl | exact absurd (by decide) hp

theorem mem_last_drop {α : Type} (xs : List α) (x : α) (n : Nat) : x ∈ (xs ++ [x]).drop (xs.length - n) := by
  rw [List.drop_append_of_le_length (by omega)]
  exact List.mem_append_right _ (List.mem_singleton.2 rfl)

end Sys2Proof.Machine
end

