-- ==== Sys2Proof/Laws/Effects/Fetch.lean ====
section
/-! SUPPORT. Sys2Proof/Laws/Effects/Fetch.lean: lemmas on what the commands of the statements on fetch leave. -/

set_option linter.unusedSimpArgs false
set_option linter.unnecessarySimpa false
set_option linter.unusedVariables false

namespace Sys2Proof.Machine
open Sys2Proof

def pipe (s : State) (ring : Nat) : State :=
    let s := s.hifM fun h => { h with taken := if h.turn == ring && h.taken < 8 then h.taken + 1 else 1, turn := ring }
    let s := hostFetch s ((s.ring ring).sqBase + 64 * (s.ring ring).head) 64
    let s := s.ringM ring fun g => { g with head := (g.head + 1) % 2 ^ g.sqLog2 }
    hostWrite s (s.ring ring).shadow (natLe 4 (s.ring ring).head)

theorem fetched_head (s : State) (ring : Nat) (desc : List Byte) (hr : ring < 1024) (hd : desc.length = 64) (hs : serving s = true)
    (hf : s.hif.fetchEn = true) (hh : hostReach s = true) (hv : viaHead s = false) (hn : nextRing s = some ring) :
    ∃ u, exec (.descriptorFetch ring desc) s = .next (accept u ring desc) ∧
      u = { s with hif := u.hif, hostMem := u.hostMem } ∧
      u.ring ring = { s.ring ring with head := ((s.ring ring).head + 1) % 2 ^ (s.ring ring).sqLog2 } ∧
      u.hostMem = s.hostMem.writeN (s.ring ring).shadow (natLe 4 (((s.ring ring).head + 1) % 2 ^ (s.ring ring).sqLog2)) ∧
      u.hif.cmds = s.hif.cmds ∧ u.hif.done = s.hif.done ∧ u.hif.nextId = s.hif.nextId ∧ u.hif.dlv = s.hif.dlv := by
  refine ⟨pipe s ring, ?_, ?_⟩
  · simp only [exec, execDescriptorFetch, formed, when, hr, hd, hs, hf, hh, hn, beq_self_eq_true, decide_true, Bool.and_self, ↓reduceIte]
    rfl
  · unfold pipe
    dsimp only
    rw [hostFetch_own _ _ (by rw [viaHead_hifM]; exact hv), hostWrite_own _ _ (by rw [viaHead_ringM, viaHead_hifM]; exact hv)]
    refine ⟨rfl, ?_, ?_, rfl, rfl, rfl, rfl⟩
    · simp [State.ring]
    · simp [State.ring]

theorem ringTenant_same {s u : State} {r : Nat} (h : (u.ring r).tenant = (s.ring r).tenant) : ringTenant u r = ringTenant s r := by
  simp [ringTenant, h]

end Sys2Proof.Machine
end

