-- ==== Sys2Proof/Laws/Effects/Flash.lean ====
section
/-! SUPPORT. Sys2Proof/Laws/Effects/Flash.lean: lemmas on what the commands of the statements on flash leave. -/

set_option linter.unusedSimpArgs false
set_option linter.unnecessarySimpa false
set_option linter.unusedVariables false

namespace Sys2Proof.Machine
open Sys2Proof

theorem relocate_facts {s u : State} {n k : Nat} (hs : s.bays.length = 4) (hn : n < 4) (h : relocate s n k = some u) : (u.bay n).erasing = some k := by
  have st : Steady [.bays] s u := (relocate_yields s n k).frame h
  unfold relocate at h
  split at h
  · cases h
  · dsimp only at h
    split at h
    · injection h with h
      subst h
      rename_i c hc hr
      rw [bayM_bay]
      have hl : n < 4 := hn
      have := st.bays hs
      rw [if_pos ⟨rfl, by simp only [State.bayM, cofferM, List.length_modify] at this ⊢; omega⟩]
    · cases h

theorem addMarks_one (ts : List Nat) (c : Nat) : c ∈ addMarks ts [c] := by
  have hm : ∀ (y : Nat) (l : List Nat), y ∈ insertBy (fun a b => a ≤ b) y l := by
    intro y l
    induction l with
    | nil => simp [insertBy]
    | cons b l ih => unfold insertBy; split <;> simp [ih]
  unfold addMarks
  simp only [List.foldl_cons, List.foldl_nil]
  split
  · rename_i h; simpa using h
  · exact hm _ _

theorem sbNums_kept {s u : State} {n : Nat} (h : (u.bay n).coffer.map (·.ident) = (s.bay n).coffer.map (·.ident)) : sbNums u n = sbNums s n := by
  have hi : ∀ a b, identFld u n a b = identFld s n a b := by
    intro a b
    unfold identFld
    rw [h]
  unfold sbNums sparesPerDie
  simp only [hi]

theorem recordIn_sbs (u : State) (n : Nat) (r : JRec) (c : Coffer) (k : Nat) (h : k ∉ (List.range 4).map (fun i => (sbNums u n).getD i 0)) :
    sbAt (recordIn u n r c) k = sbAt c k := by
  unfold recordIn ringAdd
  split
  · rfl
  · unfold sbAt Tab.getD
    dsimp only
    rw [tab_get_set, if_neg]
    intro e
    exact h (List.mem_map.2 ⟨(c.jAt + 1) % 4, List.mem_range.2 (Nat.mod_lt _ (by decide)), e⟩)

theorem loses_extents (n : Nat) (l : List (Nat × Nat)) (s u : State) (h : u.extents = s.extents) : (l.foldl (loseUnit n) u).extents = (l.foldl (loseUnit n) s).extents := by
  induction l generalizing s u with
  | nil => exact h
  | cons a l ih =>
    refine ih _ _ ?_
    unfold loseUnit
    dsimp only
    split
    · exact h
    · rw [(cofferM_steady _ _ _).only .extents (by decide), (cofferM_steady _ _ _).only .extents (by decide), h]

theorem bayM_coffer (s : State) (n k : Nat) (f : Bay → Bay) (hf : ∀ y, (f y).coffer.isSome = y.coffer.isSome) : ((s.bayM n f).bay k).coffer.isSome = (s.bay k).coffer.isSome := by
  show ((s.bays.modify n f).getD k {}).coffer.isSome = (s.bays.getD k {}).coffer.isSome
  rw [getD_modify]
  split
  · exact hf _
  · rfl

theorem cofferM_coffer (s : State) (n k : Nat) (f : Coffer → Coffer) : ((cofferM s n f).bay k).coffer.isSome = (s.bay k).coffer.isSome :=
  bayM_coffer _ _ _ _ (fun y => by dsimp only; rw [Option.isSome_map])

theorem journal_coffer (s : State) (n k : Nat) (r : JRec) : ((journal s n r).bay k).coffer.isSome = (s.bay k).coffer.isSome := by
  unfold journal
  dsimp only
  refine (bayM_coffer _ _ _ _ ?_).trans (cofferM_coffer _ _ _ _)
  exact fun y => rfl

theorem putUnits_coffer (fuel : Nat) : ∀ (s : State) (n x : Nat) (reloc : Bool) (first count : Nat), (s.bay n).coffer.isSome = true → ((putUnits s n x reloc fuel first count).1.bay n).coffer.isSome = true := by
  induction fuel with
  | zero => intro s n x reloc first count h; exact h
  | succ fuel ih =>
    intro s n x reloc first count h
    unfold putUnits
    split
    · exact h
    · split
      · exact h
      · dsimp only
        split
        · apply ih
          split
          · rw [journal_coffer]
            refine (bayM_coffer _ _ _ _ ?_).trans ((cofferM_coffer _ _ _ _).trans h)
            exact fun y => rfl
          · refine (bayM_coffer _ _ _ _ ?_).trans ((cofferM_coffer _ _ _ _).trans h)
            exact fun y => rfl
        · split
          · exact h
          · apply ih
            rw [journal_coffer, cofferM_coffer]; exact h

end Sys2Proof.Machine
end

