-- ==== Sys2Proof/Laws/Effects/Frames.lean ====
section
/-! SUPPORT. Sys2Proof/Laws/Effects/Frames.lean: lemmas on what the commands of the statements on frames leave. -/

set_option linter.unusedSimpArgs false
set_option linter.unnecessarySimpa false
set_option linter.unusedVariables false

namespace Sys2Proof.Machine
open Sys2Proof

theorem setNext_facts (u : State) (m : Nat) : (setNext u m).eph.frame = u.eph.frame ∧ (setNext u m).eph.meridian = u.eph.meridian ∧ (setNext u m).eph.slotDue = u.eph.slotDue ∧
    (setNext u m).eph.running = u.eph.running ∧ (setNext u m).eph.active = u.eph.active ∧ (setNext u m).eph.shadow = u.eph.shadow ∧ (setNext u m).eph.switch = u.eph.switch ∧
    (setNext u m).eph.nextMeridian = ((m : Int) + ((u.eph.active.map (·.frameTicks)).getD 0 : Nat) + (correction u m ((u.eph.active.map (·.frameTicks)).getD 0)).1).toNat := by
  unfold setNext
  dsimp only
  split <;> exact ⟨rfl, rfl, rfl, rfl, rfl, rfl, rfl, rfl⟩

theorem correction_own {u : State} (m t : Nat) (h : follows u = false) : correction u m t = (0, false) := by unfold correction; rw [h]; rfl

theorem countPreempts_facts (ts : List Nat) (s : State) : (ts.foldl countPreempt s).eph.leadPassed = s.eph.leadPassed ∧ (ts.foldl countPreempt s).ory = s.ory ∧
    (ts.foldl countPreempt s).eph.preempts = s.eph.preempts := by
  induction ts generalizing s with
  | nil => exact ⟨rfl, rfl, rfl⟩
  | cons t ts ih => rw [List.foldl_cons]; exact ih _

theorem requestPreempt_facts (s : State) : (requestPreempt s).ory.preempt = true ∧ (requestPreempt s).eph.leadPassed = s.eph.leadPassed ∧
    (s.ory.preempt = false → (requestPreempt s).eph.preempts = wrapInc 32 s.eph.preempts) := by
  unfold requestPreempt
  split
  · rename_i h
    exact ⟨h, rfl, fun k => by rw [h] at k; cases k⟩
  · dsimp only
    split
    · have := countPreempts_facts (((ctxStep ((askPreempt s).ephM fun e => { e with preempts := wrapInc 32 e.preempts }) ‹_›).map (stepTenants ((askPreempt s).ephM fun e => { e with preempts := wrapInc 32 e.preempts }))).getD []) ((askPreempt s).ephM fun e => { e with preempts := wrapInc 32 e.preempts })
      exact ⟨by rw [this.2.1]; rfl, this.1, fun _ => this.2.2⟩
    · split <;> exact ⟨rfl, rfl, fun _ => rfl⟩
    · exact ⟨rfl, rfl, fun _ => rfl⟩

theorem servers_none {s : State} (h : s.eph.active = none) (u : Bool) : serverList s u = [] := by
  unfold serverList
  rw [h]
  rfl

theorem startJob_facts (s : State) (j : Job) (b : Bool) : (startJob s j b).eph.holder = .job j.id ∧ ∃ p, (startJob s j b).ory.prog = some p ∧
      (∀ u, j.suspended = some u → p = u.prog ∧ (startJob s j b).ory.mode = .restore) ∧ (j.suspended = none → p.slot = j.slot ∧ (startJob s j b).ory.mode = .run) := by
  unfold startJob
  dsimp only
  split
  · rename_i u hu
    exact ⟨rfl, _, rfl, fun v hv => by rw [hu] at hv; injection hv with hv; subst hv; exact ⟨rfl, rfl⟩, fun hn => by rw [hu] at hn; cases hn⟩
  · rename_i hu
    refine ⟨?_, ?_⟩
    · rw [(startProg_steady _ _ _).only .eph (by decide)]
      have e1 : ∀ v : State, (if j.cls == .merge then takeUnit v j.target else v).eph = v.eph := by
        intro v; split
        · exact (takeUnit_steady _ _).only .eph (by decide)
        · rfl
      rw [e1]
      have e2 : ∀ v : State, (if j.counted = true then v else (countWait v j.tenant (v.now - j.ready)).ephM fun e => { e with jobs := e.jobs.map (fun i => if i.id == j.id then { i with counted := true } else i) }).eph.holder = v.eph.holder := by
        intro v; split <;> rfl
      rw [e2]
      split
      · rw [(wfqCharge_steady _ _ _ _ _ _).only .eph (by decide)]; rfl
      · rfl
    · unfold startProg
      dsimp only
      exact ⟨_, rfl, fun u (k : j.suspended = some u) => by (rw [hu] at k; cases k), fun _ => ⟨rfl, rfl⟩⟩

end Sys2Proof.Machine
end

