-- ==== Sys2Proof/Laws/Effects/Input.lean ====
section
/-! SUPPORT. Sys2Proof/Laws/Effects/Input.lean: lemmas on what the commands of the statements on input leave. -/

set_option linter.unusedSimpArgs false
set_option linter.unnecessarySimpa false
set_option linter.unusedVariables false

namespace Sys2Proof.Machine
open Sys2Proof

theorem stepOf_opened {s : State} {l : Locket} (h : l.state = .opened) : stepOf s l = none := by simp [stepOf, h]

def pinnedL (s : State) (id : Nat) (l : Locket) : Locket := { meets s id l with pins := if l.pins.contains id then l.pins else l.pins ++ [id] }

def pinnedS (s : State) (id h : Nat) : State := (entered s id h).locketM h fun l => { l with pins := if l.pins.contains id then l.pins else l.pins ++ [id] }

theorem pinned_facts {s : State} {id op h : Nat} {l : Locket} (e : entering s id op h l = true) (hs : l.state = .opened ∨ l.state = .bound) :
    takePin (entered s id h) h id = pinnedS s id h ∧ (pinnedS s id h).lockets.get? h = some (pinnedL s id l) := by
  have hl := entered_locket e
  refine ⟨takePin_calm hl (by rcases hs with hs | hs <;> simp [meets, hs]), ?_⟩
  simp only [pinnedS, State.locketM_lockets, tab_get_upd_same, hl]
  rfl

theorem pinned_confined (s : State) (id h : Nat) : confined [.lockets, .hif, .std] s (pinnedS s id h) :=
  confined_trans (entered_confined s id h) (by
    intro p hp
    cases p <;> first | rfl | (exact absurd (by decide) hp))

theorem pinned_img' (s : State) (id h : Nat) (l : Locket) : locketImg (pinnedS s id h) (pinnedL s id l) = locketImg s l := by
  have hpar : (pinnedS s id h).parures = s.parures := (pinned_confined s id h) .parures (by decide)
  simp [locketImg, loadedSlot, hpar, pinnedL, meets]

theorem pinned_img (s : State) (id h : Nat) (l : Locket) : imgMaxThread (locketImg (pinnedS s id h) (pinnedL s id l)) = imgMaxThread (locketImg s l) := by
  rw [pinned_img']

theorem pinned_step (s : State) (id h : Nat) (l : Locket) : stepOf (pinnedS s id h) (pinnedL s id l) = stepOf s l := by
  have he : (pinnedS s id h).eph = s.eph := (pinned_confined s id h) .eph (by decide)
  simp only [stepOf, he]
  rfl

theorem pinned_mem (s : State) (id : Nat) (l : Locket) : id ∈ (pinnedL s id l).pins := by
  simp only [pinnedL]
  split
  · rename_i hc
    simpa using hc
  · simp

def streamL (s : State) (c : HCmd) (l : Locket) : Locket :=
  let img := locketImg s l
  let l1 := applyStops (applyText img { l with stm := { l.stm with emitted := 0, delivered := 0, hold := [], generating := true, genTag := c.tag } } c.desc)
    (c.flag 4) (c.flag 5) (c.flag 6)
  let now := (stepOf s l).isNone
  let l2 := if now then applySampler l1 c.desc else { l1 with genWait := l1.genWait ++ [{ cmd := c.id, desc := c.desc }] }
  { l2 with genCmd := some c.id, genStep := if l.state == .opened then some l.smp.stepIndex else none, dirtyControl := true }

theorem openStream_eq (s : State) (c : HCmd) (h : Nat) (l : Locket) : openStream s c h l = s.locketM h fun _ => streamL s c l := rfl

theorem streamL_facts (s : State) (c : HCmd) (l : Locket) :
    (streamL s c l).stm.generating = true ∧ (streamL s c l).stm.genTag = c.tag ∧ (streamL s c l).stm.emitted = 0 ∧ (streamL s c l).stm.delivered = 0 ∧
    (streamL s c l).stm.hold = [] ∧ (streamL s c l).genCmd = some c.id ∧ (streamL s c l).pins = l.pins ∧ (streamL s c l).thread = l.thread := by
  unfold streamL applyStops applyText applySampler
  dsimp only
  (repeat' split) <;> simp_all

end Sys2Proof.Machine
end

