-- ==== Sys2Proof/Laws/Effects/Keys.lean ====
section
/-! SUPPORT. Sys2Proof/Laws/Effects/Keys.lean: lemmas on what the commands of the statements on keys leave. -/

set_option linter.unusedSimpArgs false
set_option linter.unnecessarySimpa false
set_option linter.unusedVariables false

namespace Sys2Proof.Machine
open Sys2Proof

theorem refuse_facts (s : State) : (keyDone s false).keys = s.keys ∧ (keyDone s false).hif.keyStatus = 2 ∧ (keyDone s false).hif.keyData = List.replicate 16 0 ∧
    bitAt (keyDone s false).hif.event 5 = true ∧ confined [.hif, .std] s (keyDone s false) := by
  refine ⟨(keyDone_steady s false).only .keys (by decide), ?_, ?_, ?_, (keyDone_steady s false).only⟩
  · simp only [keyDone, Bool.false_eq_true, ↓reduceIte]
    rw [hifEvent_hif]; rfl
  · simp only [keyDone, Bool.false_eq_true, ↓reduceIte]
    rw [hifEvent_hif]; rfl
  · simp only [keyDone, Bool.false_eq_true, ↓reduceIte]
    exact hifEvent_set _ _

end Sys2Proof.Machine
end

