-- ==== Sys2Proof/Laws/Effects/Map.lean ====
section
/-! SUPPORT. Sys2Proof/Laws/Effects/Map.lean: lemmas on what the commands of the statements on map leave. -/

set_option linter.unusedSimpArgs false
set_option linter.unnecessarySimpa false
set_option linter.unusedVariables false

namespace Sys2Proof.Machine
open Sys2Proof

theorem cellM_lpe (s : State) (p : Nat) (f : Cell → Cell) : (s.cellM p f).lpe = s.lpe := rfl

theorem newEpoch_lpe (s : State) : (newEpoch s).lpe = { s.lpe with epoch := s.lpe.epoch + 1, mode := .ready } := rfl

theorem substituteCell_lpe (s : State) (l a b : Nat) : (substituteCell s l a b).lpe = { s.lpe with map := s.lpe.map.set l b, lastCol := l / 16 } := by
  unfold substituteCell
  dsimp only
  rw [(logFault_steady _ _ _ _ _ _ _).only .lpe (by decide)]
  rfl

theorem noteSpares_lpe (s : State) (c : Nat) : (noteSpares s c).lpe = s.lpe := (noteSpares_steady s c).only .lpe (by decide)

theorem retire_lpe (s : State) (p d : Nat) : (retire s p d).lpe = { s.lpe with retired := s.lpe.retired ||| 2 ^ p } ∧ (retire s p d).lan.retired = s.lan.retired ||| 2 ^ p := by
  unfold retire
  dsimp only
  exact ⟨by rw [(logFault_steady _ _ _ _ _ _ _).only .lpe (by decide)]; rfl, by rw [logFault_lan_retired]; rfl⟩

theorem refetchBoth_other (s : State) : confined [.ory] s (refetchBoth s) := (refetchBoth_steady s).only

theorem noteFault_ory (s : State) (cs : List Nat) (m : Nat) (r c t : Bool) : (noteFault s cs m r c t).ory = { s.ory with
    faultCell := m, faultEpoch := (s.cell (physOf s m)).epoch, faultTwin := s.ory.faultTwin || t, faultCol := s.ory.faultCol || c, faultRow := s.ory.faultRow || r, mode := .replayWait } ∧
    (noteFault s cs m r c t).integ = s.integ ∧ (noteFault s cs m r c t).lpe = s.lpe := by
  unfold noteFault
  dsimp only
  have key : ∀ (cs : List Nat) (f : State → Nat → Nat) (g : Nat → Cell → Cell) (u : State), (cs.foldl (fun s l => s.cellM (f s l) (g l)) u).ory = u.ory ∧
      (cs.foldl (fun s l => s.cellM (f s l) (g l)) u).integ = u.integ ∧ (cs.foldl (fun s l => s.cellM (f s l) (g l)) u).lpe = u.lpe := by
    intro cs f g
    induction cs with
    | nil => intro u; exact ⟨rfl, rfl, rfl⟩
    | cons c cs ih => intro u; rw [List.foldl_cons]; exact ih _
  have := key cs physOf (fun _ x => { x with abftCnt := if r || c then satInc x.abftCnt 0xFFFF else x.abftCnt, twinCnt := if t then satInc x.twinCnt 0xFFFF else x.twinCnt })
    (s.oryM fun y => { y with faultCell := m, faultEpoch := (s.cell (physOf s m)).epoch, faultTwin := y.faultTwin || t, faultCol := y.faultCol || c, faultRow := y.faultRow || r, mode := .replayWait })
  exact ⟨this.1, this.2.1, this.2.2⟩

theorem cellM_state (s : State) (p q : Nat) (f : Cell → Cell) (hf : ∀ c, (f c).state = c.state) : ((s.cellM p f).cell q).state = (s.cell q).state := by
  show ((s.cells.modify p f).getD q {}).state = (s.cells.getD q {}).state
  rw [getD_modify]
  split
  · exact hf _
  · rfl

theorem noteFault_cell (s : State) (cs : List Nat) (m : Nat) (r c t : Bool) (q : Nat) : ((noteFault s cs m r c t).cell q).state = (s.cell q).state := by
  unfold noteFault
  dsimp only
  have key : ∀ (cs : List Nat) (g : Cell → Cell) (u : State), (∀ c, (g c).state = c.state) →
      ((cs.foldl (fun s l => s.cellM (physOf s l) g) u).cell q).state = (u.cell q).state := by
    intro cs g
    induction cs with
    | nil => intro u _; rfl
    | cons c cs ih => intro u hg; rw [List.foldl_cons, ih _ hg, cellM_state _ _ _ _ hg]
  exact key cs _ _ (fun _ => rfl)

theorem copyLost_ory (s : State) (l : Nat) (lost : List Nat) : (copyLost s l lost).ory = (fun y : Ory => lost.foldl (fun y n =>
    let a := l * 2 ^ 21 + 64 * n
    { y with scratch := y.scratch.clear a (a + 64), scrTarn := addMarks y.scrTarn (wordsOf a 64) }) y) s.ory := rfl

theorem copyLost_same (u s : State) (l : Nat) (lost : List Nat) (h : u.ory = s.ory) : (copyLost u l lost).ory = (copyLost s l lost).ory := by
  rw [copyLost_ory, copyLost_ory, h]

theorem copyLost_failing (s : State) (l : Nat) (lost : List Nat) : (copyLost s l lost).ory.failing = s.ory.failing := by
  rw [copyLost_ory]
  dsimp only
  generalize s.ory = y
  induction lost generalizing y with
  | nil => rfl
  | cons n ns ih => rw [List.foldl_cons, ih]

theorem running_names {s : State} {p : Progress} {img : List Byte} {pr : Prog} {ps : List PosEntry} (h : running s = some (p, img, pr, ps)) : s.ory.prog = some p := by
  unfold running at h
  obtain ⟨x, hx, h⟩ := Option.bind_eq_some_iff.1 h
  dsimp only at h
  split at h
  · cases h; exact hx
  · cases h

theorem tileFault_runs {s : State} {lane : Nat} {errs : List BlockError} {twins : List (Nat × W32 × W32)} {parity : List Nat} {p : Progress} {img : List Byte} {pr : Prog}
    {ps : List PosEntry} {t0 : TileRef} {cells : List Nat} {row col twin : Bool} (b1 : lane < 2) (b2 : ∀ e ∈ errs, e.cell < 128) (b3 : ∀ e ∈ twins, e.1 < 128) (b4 : ∀ c ∈ parity, c < 128)
    (h1 : running s = some (p, img, pr, ps)) (h2 : oldestIn p lane = some t0)
    (h3 : failingCells s ps (tileIn p (s.parures.getD p.slot {}).hash img ps pr t0) errs twins parity = (cells, row, col, twin)) (h4 : cells ≠ []) (h5 : s.ory.abftEn = true)
    (h6 : s.lan.refclk = true) (h7 : s.integ.mode ≠ .fence) (h8 : s.integ.mode ≠ .deviceFault) (h9 : s.ory.mode ≠ .fault) :
    exec (.tileFault t0.sweep lane errs twins parity) s = .next (tileFails s t0 cells row col twin) := by
  show execTileFault t0.sweep lane errs twins parity s = _
  unfold execTileFault formed when
  rw [if_pos (by
    simp only [Bool.and_eq_true, List.all_eq_true, decide_eq_true_eq]
    exact ⟨⟨⟨b1, b2⟩, b3⟩, b4⟩), h1]
  dsimp only
  rw [h2]
  dsimp only
  rw [h3]
  dsimp only
  rw [if_pos (by cases cells <;> simp_all)]

end Sys2Proof.Machine
end

