-- ==== Sys2Proof/Laws/Effects/Membership.lean ====
section
/-! SUPPORT. Sys2Proof/Laws/Effects/Membership.lean: lemmas on what the commands of the statements on membership leave. -/

set_option linter.unusedSimpArgs false
set_option linter.unnecessarySimpa false
set_option linter.unusedVariables false

namespace Sys2Proof.Machine
open Sys2Proof

theorem maskOf_zero (bs : List Bool) : maskOf bs = 0 ↔ ∀ b ∈ bs, b = false := by
  induction bs with
  | nil => simp [maskOf]
  | cons b bs ih =>
    cases b with
    | true => simp [maskOf, boolNat]
    | false =>
      simp only [maskOf, boolNat, List.mem_cons, forall_eq_or_imp]
      rw [← ih]
      simp
      all_goals omega

theorem lacking_ne (s : State) (c : MemberChange) (p : Nat) (hp : p < 64) (h1 : bitAt c.set p = true) (h2 : p ≠ ownPos s) (h3 : bitAt c.acks p = false) : lacking s c ≠ 0 := by
  unfold lacking
  intro h
  rw [maskOf_zero] at h
  have := h (bitAt c.set p && p != ownPos s && !bitAt c.acks p) (List.mem_map.2 ⟨p, List.mem_range.2 hp, rfl⟩)
  simp [h1, h3, h2] at this

theorem own_same {s u : State} (h : u.std.position = s.std.position) : ownPos u = ownPos s := by simp [ownPos, h]

theorem lacking_same {s u : State} (h : u.std.position = s.std.position) (c : MemberChange) : lacking u c = lacking s c := by simp [lacking, own_same h]

def begunS (s : State) (epoch set : Nat) : State :=
  setStd (s.stdM fun d => { d with change := some { epoch := epoch, set := set, since := s.now }, result := 1, missing := 0
                                   prepared := some { epoch := epoch, set := set, coord := ownPos s, wasMember := s.std.mode == .member, since := s.now } }) .prepared

theorem startChange_facts (s : State) (e set p : Nat) (h1 : s.std.change = none) (h2 : s.std.prepared = none) (h3 : bitAt set (ownPos s) = true) (h4 : set < 2 ^ s.std.count)
    (hp : p < 64) (hq : p ≠ ownPos s) (hb : bitAt set p = true) :
    startChange s e set = floodMember (begunS s e set) 0x20 e (ownPos s) set := by
  unfold startChange
  dsimp only
  rw [if_neg (by simp [h1, h2, h3]; omega)]
  have hl : lacking (floodMember (begunS s e set) 0x20 e (ownPos s) set) { epoch := e, set := set, since := s.now } ≠ 0 := by
    rw [lacking_same (s := s) (by simp [begunS])]
    exact lacking_ne s _ p hp hb hq (by simp [bitAt])
  exact if_neg hl

theorem flooded_facts (s : State) (e set : Nat) : (floodMember (begunS s e set) 0x20 e (ownPos s) set).std.mode = .prepared ∧
    (floodMember (begunS s e set) 0x20 e (ownPos s) set).std.result = 1 ∧
    (floodMember (begunS s e set) 0x20 e (ownPos s) set).std.prepared = some { epoch := e, set := set, coord := ownPos s, wasMember := s.std.mode == .member, since := s.now } ∧
    (floodMember (begunS s e set) 0x20 e (ownPos s) set).std.change = some { epoch := e, set := set, since := s.now } ∧
    (floodMember (begunS s e set) 0x20 e (ownPos s) set).lan.queue = s.lan.queue ∧ (floodMember (begunS s e set) 0x20 e (ownPos s) set).lan.tx = s.lan.tx := by
  unfold begunS
  simp

theorem prepareFor_facts (s : State) (m : Msg) (w : Bool) : (prepareFor s m w).std.mode = .prepared ∧
    (prepareFor s m w).std.prepared = some { epoch := m.fld 8 2, set := m.fld 16 8, coord := m.fld 10 1, wasMember := w, since := s.now } := by
  unfold prepareFor
  simp

theorem discard_facts (s : State) (p : Prepared) (h : s.std.prepared = some p) : (discardPrepared s).std.prepared = none ∧
    (discardPrepared s).std.mode = (if p.wasMember then .member else .joining) ∧ (discardPrepared s).std.epoch = s.std.epoch ∧
    (discardPrepared s).std.result = s.std.result ∧ (discardPrepared s).std.missing = s.std.missing ∧ (discardPrepared s).std.change = s.std.change := by
  unfold discardPrepared
  rw [h]
  simp

theorem discard_keeps (u : State) : (discardPrepared u).std.result = u.std.result ∧ (discardPrepared u).std.missing = u.std.missing ∧
    (discardPrepared u).std.change = u.std.change ∧ (discardPrepared u).std.prepared = none := by
  cases hp : u.std.prepared with
  | none =>
    have hd : discardPrepared u = u := by unfold discardPrepared; rw [hp]
    rw [hd]
    exact ⟨rfl, rfl, rfl, hp⟩
  | some p =>
    obtain ⟨f1, f2, f3, f4, f5, f6⟩ := discard_facts u p hp
    exact ⟨f4, f5, f6, f1⟩

theorem quarantine_facts (s : State) (p src d : Nat) (h : s.std.mode ≠ .quarantined) : (quarantine s p src d).std.mode = .quarantined ∧
    (quarantine s p src d).lan.quarantine = true ∧ (quarantine s p src d).std.prepared = none := by
  have e : (s.std.mode == StdMode.quarantined) = false := by simpa using h
  unfold quarantine
  simp only [e, Bool.false_eq_true, if_false]
  refine ⟨?_, ?_, ?_⟩
  · rw [logFault_std, intEvent_std, setStd_std_mode]
  · rw [logFault_lan_quarantine, intEvent_lan, setStd_lan_quarantine]; rfl
  · rw [logFault_std, intEvent_std, setStd_std_prepared]; rfl

theorem freeObjects_lan (s : State) : (freeObjects s).lan = s.lan := (freeObjects_steady s).only .lan (by decide)

theorem freeObjects_gone (s : State) : (freeObjects s).facets = [] ∧ (freeObjects s).colls = [] := ⟨rfl, rfl⟩

def enumAgain (u : State) : State := setStd (u.stdM fun d => { d with epoch := 0, members := 0, buddy := none, prepared := none, change := none }) .enum

theorem enumAgain_facts (u : State) : ((settleEnum (enumAgain u)).std.mode = .enum ∨ (settleEnum (enumAgain u)).std.mode = .joining) ∧
    (settleEnum (enumAgain u)).std.epoch = 0 ∧ (settleEnum (enumAgain u)).std.members = 0 ∧ (settleEnum (enumAgain u)).lan.queue = u.lan.queue ∧
    (settleEnum (enumAgain u)).lan.tx = u.lan.tx ∧ (settleEnum (enumAgain u)).facets = u.facets ∧ (settleEnum (enumAgain u)).colls = u.colls ∧
    (settleEnum (enumAgain u)).lan.quarantine = u.lan.quarantine := by
  refine ⟨?_, ?_, ?_, ?_, ?_, ?_, ?_, ?_⟩
  · have hm : (enumAgain u).std.mode = .enum := setStd_std_mode _ _
    unfold settleEnum
    split
    · right; exact setStd_std_mode _ _
    · left; exact hm
  all_goals simp [enumAgain]

theorem finishChange_facts (u : State) (c : MemberChange) : adopted (finishChange u c) c.epoch c.set ∧ (finishChange u c).std.result = 2 := by
  unfold finishChange
  dsimp only
  exact adoptEpoch_facts ((floodMember u 0x22 c.epoch (ownPos u) c.set).stdM fun d => { d with result := 2, missing := 0 }) c.epoch c.set

end Sys2Proof.Machine
end

