-- ==== Sys2Proof/Laws/Effects/Numbers.lean ====
section
/-! SUPPORT. Sys2Proof/Laws/Effects/Numbers.lean: lemmas on what the commands of the statements on numbers leave. -/

set_option linter.unusedSimpArgs false
set_option linter.unnecessarySimpa false
set_option linter.unusedVariables false

namespace Sys2Proof.Machine
open Sys2Proof

def mag (u : Nat) : Nat := if u / 2 ^ 23 = 0 then u % 2 ^ 23 else (u % 2 ^ 23 + 2 ^ 23) * 2 ^ (u / 2 ^ 23 - 1)

theorem mag_upper (u : Nat) : mag u < 2 ^ 23 * 2 ^ (u / 2 ^ 23) := by
  unfold mag
  have hf : u % 2 ^ 23 < 2 ^ 23 := Nat.mod_lt _ (by decide)
  split
  · rename_i h
    rw [h]
    omega
  · rename_i h
    obtain ⟨k, hk⟩ : ∃ k, u / 2 ^ 23 = k + 1 := ⟨u / 2 ^ 23 - 1, by omega⟩
    rw [hk, Nat.add_sub_cancel, show 2 ^ (k + 1) = 2 ^ k * 2 from rfl]
    have : 0 < 2 ^ k := Nat.pow_pos (by decide)
    generalize 2 ^ k = p at *
    have h2 : (u % 2 ^ 23 + 2 ^ 23) * p < (2 ^ 23 * 2) * p := (Nat.mul_lt_mul_right this).mpr (by omega)
    rw [show 2 ^ 23 * (p * 2) = 2 ^ 23 * 2 * p by rw [Nat.mul_comm p 2, Nat.mul_assoc]]
    exact h2

theorem mag_lower (v : Nat) (h : v / 2 ^ 23 ≠ 0) : 2 ^ 23 * 2 ^ (v / 2 ^ 23 - 1) ≤ mag v := by
  unfold mag
  rw [if_neg h]
  exact Nat.mul_le_mul_right _ (by omega)

theorem mag_mono {u v : Nat} (h : u < v) : mag u < mag v := by
  have hu := Nat.div_add_mod u (2 ^ 23)
  have hv := Nat.div_add_mod v (2 ^ 23)
  have hd : u / 2 ^ 23 ≤ v / 2 ^ 23 := Nat.div_le_div_right (by omega)
  by_cases he : u / 2 ^ 23 = v / 2 ^ 23
  · unfold mag
    rw [he]
    have : u % 2 ^ 23 < v % 2 ^ 23 := by omega
    split
    · exact this
    · exact (Nat.mul_lt_mul_right (Nat.pow_pos (by decide))).mpr (by omega)
  · refine Nat.lt_of_lt_of_le (mag_upper u) (Nat.le_trans (Nat.mul_le_mul_left _ (Nat.pow_le_pow_right (by decide) (by omega : u / 2 ^ 23 ≤ v / 2 ^ 23 - 1))) (mag_lower v (by omega)))

theorem mag_lt_iff {u v : Nat} : mag u < mag v ↔ u < v := by
  refine ⟨fun h => ?_, mag_mono⟩
  rcases Nat.lt_or_ge u v with k | k
  · exact k
  · rcases Nat.lt_or_eq_of_le k with k | k
    · exact absurd (mag_mono k) (by omega)
    · subst k; omega

theorem mag_inf : mag (255 * 2 ^ 23) = 2 ^ 128 * 2 ^ 149 := by decide +kernel

theorem dec32_fin (w : W32) : (dec32 w = .nan ∧ 255 * 2 ^ 23 < w.toNat % 2 ^ 31) ∨ (∃ n, dec32 w = .inf n ∧ n = bitAt w.toNat 31 ∧ w.toNat % 2 ^ 31 = 255 * 2 ^ 23) ∨
    (∃ n m e, dec32 w = .fin n m e ∧ n = bitAt w.toNat 31 ∧ w.toNat % 2 ^ 31 < 255 * 2 ^ 23 ∧ m * 2 ^ (e + 149).toNat = mag (w.toNat % 2 ^ 31)) := by
  have hl : w.toNat < 2 ^ 32 := w.isLt
  have he : bits w.toNat 30 23 = w.toNat % 2 ^ 31 / 2 ^ 23 := by
    unfold bits
    omega
  have hf : bits w.toNat 22 0 = w.toNat % 2 ^ 31 % 2 ^ 23 := by
    unfold bits
    omega
  unfold dec32
  dsimp only
  rw [he, hf]
  generalize hu : w.toNat % 2 ^ 31 = u
  have hul : u < 2 ^ 31 := by omega
  by_cases h1 : u / 2 ^ 23 = 255
  · rw [if_pos h1]
    by_cases h2 : u % 2 ^ 23 = 0
    · rw [if_pos h2]
      exact .inr (.inl ⟨_, rfl, rfl, by omega⟩)
    · rw [if_neg h2]
      exact .inl ⟨rfl, by omega⟩
  · rw [if_neg h1]
    by_cases h2 : u / 2 ^ 23 = 0
    · rw [if_pos h2]
      refine .inr (.inr ⟨_, _, _, rfl, rfl, by omega, ?_⟩)
      unfold mag
      rw [if_pos h2]
      simp
    · rw [if_neg h2]
      refine .inr (.inr ⟨_, _, _, rfl, rfl, by omega, ?_⟩)
      unfold mag
      rw [if_neg h2]
      have : ((u / 2 ^ 23 : Nat) - 150 + 149 : Int).toNat = u / 2 ^ 23 - 1 := by omega
      rw [this]

theorem rank_view (w : W32) : (scaled32 w = none ∧ rankKey w = -(2 ^ 33)) ∨
    (∃ u : Nat, u ≤ 255 * 2 ^ 23 ∧ ((scaled32 w = some (mag u : Int) ∧ (rankKey w = u ∧ u < 255 * 2 ^ 23 ∨ rankKey w = 2 ^ 32 ∧ u = 255 * 2 ^ 23)) ∨
      (scaled32 w = some (-(mag u : Int)) ∧ (rankKey w = -(u : Int) ∧ u < 255 * 2 ^ 23 ∨ rankKey w = -(2 ^ 32) ∧ u = 255 * 2 ^ 23)))) := by
  rcases dec32_fin w with ⟨h, _⟩ | ⟨n, h, _, hu⟩ | ⟨n, m, e, h, _, hu, hm⟩
  · left
    unfold scaled32 rankKey
    rw [h]
    exact ⟨rfl, rfl⟩
  · right
    refine ⟨255 * 2 ^ 23, Nat.le_refl _, ?_⟩
    unfold scaled32 rankKey
    rw [h, mag_inf]
    cases n
    · exact .inl ⟨rfl, .inr ⟨rfl, rfl⟩⟩
    · exact .inr ⟨rfl, .inr ⟨rfl, rfl⟩⟩
  · right
    refine ⟨w.toNat % 2 ^ 31, Nat.le_of_lt hu, ?_⟩
    unfold scaled32 rankKey
    rw [h, ← hm]
    cases n
    · refine .inl ⟨?_, .inl ⟨rfl, hu⟩⟩
      simp
    · refine .inr ⟨?_, .inl ⟨rfl, hu⟩⟩
      simp [Int.neg_mul]

theorem scaled_pos (w : W32) (h : w.toNat < 255 * 2 ^ 23) : scaled32 w = some (mag w.toNat : Int) := by
  have hb : bitAt w.toNat 31 = false := by
    unfold bitAt
    have : w.toNat >>> 31 % 2 = 0 := by omega
    rw [this]; rfl
  have hm : w.toNat % 2 ^ 31 = w.toNat := by omega
  rcases dec32_fin w with ⟨_, hu⟩ | ⟨n, _, _, hu⟩ | ⟨n, m, e, h1, h2, _, h3⟩
  · omega
  · omega
  · unfold scaled32
    rw [h1]
    rw [hb] at h2
    subst h2
    rw [hm] at h3
    rw [← h3]
    simp

theorem ofNat32 {n : Nat} (h : n < 2 ^ 32) : (BitVec.ofNat 32 n).toNat = n := by
  rw [BitVec.toNat_ofNat]
  exact Nat.mod_eq_of_lt h

end Sys2Proof.Machine
end

