-- ==== Sys2Proof/Laws/Effects/Parking.lean ====
section
/-! SUPPORT. Sys2Proof/Laws/Effects/Parking.lean: lemmas on what the commands of the statements on parking leave. -/

set_option linter.unusedSimpArgs false
set_option linter.unnecessarySimpa false
set_option linter.unusedVariables false

namespace Sys2Proof.Machine
open Sys2Proof

theorem openExtent_same {s v : State} {e : Extent} {x : Nat} (h : openExtent s e = some (v, x)) : v.lockets = s.lockets ∧ v.cur = s.cur ∧ v.hif = s.hif := by
  have f := ((openExtent_gives s e).frame h).only
  exact ⟨f .lockets (by decide), f .cur (by decide), f .hif (by decide)⟩

theorem startDemotion_facts {s u : State} {h tier bay : Nat} {cmd : Option Nat} (e : startDemotion s h tier bay cmd = some u) :
    ∃ l q d m, s.lockets.get? h = some l ∧ u.lockets.get? h = some q ∧ q.state = .demoting ∧
    q.dst = tier ∧ q.thread = l.thread ∧ q.ptes = l.ptes ∧ q.move = some m ∧ m.cmd = cmd ∧ d ∈ allDescs u ∧ d.op = 2 ∧ d.tier = tier ∧ d.purpose = .demote h ∧
    d.abandonable = true ∧ u.hif = s.hif := by
  unfold startDemotion at e
  split at e
  · cases e
  · rename_i l hl
    dsimp only at e
    split at e
    · cases e
    · rename_i v x hx
      injection e with e
      obtain ⟨o1, o2, o3⟩ := openExtent_same hx
      subst e
      refine ⟨l, { l with state := .demoting, dst := tier, move := some { src := if l.state == .parkedT2 then 2 else 1, extent := x, cmd := cmd, keySlot := (v.keys.getD l.tenant {}).current, home := l.home } }, _, { src := if l.state == .parkedT2 then 2 else 1, extent := x, cmd := cmd, keySlot := (v.keys.getD l.tenant {}).current, home := l.home }, hl, ?_, rfl, rfl, rfl, rfl, rfl, rfl, submit_held _ _, rfl, rfl, rfl, rfl, ?_⟩
      · rw [(submit_steady _ _).only .lockets (by decide), (lowater_steady _).only .lockets (by decide)]
        rw [State.locketM_lockets, tab_get_upd_same, o1, hl]
        rfl
      · rw [(submit_steady _ _).only .hif (by decide), (lowater_steady _).only .hif (by decide)]
        exact o3

theorem tryTiers_facts (s : State) (h : Nat) (ts : List Nat) (hl : (s.lockets.get? h).isSome) : ∃ q, (tryTiers s h ts).lockets.get? h = some q ∧
    ((q.state = .demoting ∧ q.demoteBlocked = false) ∨ (q.demoteBlocked = true ∧ q.retryAt = s.now + 100000000)) := by
  induction ts with
  | nil =>
    obtain ⟨l, hl⟩ := Option.isSome_iff_exists.1 hl
    unfold tryTiers
    rw [State.locketM_lockets, tab_get_upd_same, hl]
    exact ⟨_, rfl, .inr ⟨rfl, rfl⟩⟩
  | cons t ts ih =>
    unfold tryTiers
    split
    · rename_i u e
      obtain ⟨l, q, d, m, f0, f1, f2, f3⟩ := startDemotion_facts e
      rw [State.locketM_lockets, tab_get_upd_same, f1]
      exact ⟨_, rfl, .inl ⟨f2, rfl⟩⟩
    · exact ih

theorem vacate_lockets (s : State) (e : Pte) : (vacate s e).lockets = s.lockets := (vacate_steady s e).only .lockets (by decide)

theorem vacateAll_get {s : State} {h : Nat} {l : Locket} (hl : s.lockets.get? h = some l) : (vacateAll s h).lockets.get? h = some { l with ptes := [] } := by
  unfold vacateAll
  rw [hl]
  dsimp only
  rw [State.locketM_lockets, tab_get_upd_same]
  have : ∀ (xs : List (Nat × Pte)) (u : State), (xs.foldl (fun s e => vacate s e.2) u).lockets = u.lockets := by
    intro xs
    induction xs with
    | nil => intro u; rfl
    | cons x xs ih => intro u; rw [List.foldl_cons, ih, vacate_lockets]
  rw [this, (tlbDropId_steady _ _).only .lockets (by decide), hl]
  rfl

theorem expireLocket_facts {s : State} {h : Nat} {l : Locket} (hl : s.lockets.get? h = some l) : ∃ q, (expireLocket s h).lockets.get? h = some q ∧ q.state = .expired := by
  unfold expireLocket
  rw [hl]
  dsimp only
  rw [(releaseCharmRef_steady _ _).only .lockets (by decide), State.locketM_lockets, tab_get_upd_same]
  have e1 : ∀ u : State, (if l.extent = 0 then u else freeExtent u l.extent).lockets = u.lockets := by
    intro u
    split
    · rfl
    · exact (freeExtent_steady _ _).only .lockets (by decide)
  rw [e1, (releaseFrames_steady _ _ _).only .lockets (by decide), vacateAll_get hl]
  exact ⟨_, rfl, rfl⟩

theorem completeId_hasEnded {s u : State} {id st r0 r1 n : Nat} {c : HCmd} (hf : findCmd s id = some c) (ho : completed s id = false) (hu : u.hif = s.hif) :
    hasEnded (completeId u id st r0 r1 n) id st := by
  unfold completeId
  have hf' : findCmd u id = some c := by unfold findCmd at hf ⊢; rw [hu]; exact hf
  rw [hf']
  have hi := findCmd_id hf
  have := complete_hasEnded (s := u) (c := c) (st := st) (r0 := r0) (r1 := r1) (n := n) (by unfold completed at ho ⊢; rw [hu, hi]; exact ho)
  rw [hi] at this
  exact this

theorem dropExtent_other {s : State} {a b : Nat} (hne : a ≠ b) : (dropExtent s a).extents.get? b = s.extents.get? b := by
  unfold dropExtent
  split
  · rfl
  · dsimp only
    split
    · show (s.extents.erase a).get? b = _
      rw [tab_get_erase, if_neg hne]
    · rw [(cofferM_steady _ _ _).only .extents (by decide)]
      split
      · rw [(journal_steady _ _ _).only .extents (by decide)]
        show (s.extents.erase a).get? b = _
        rw [tab_get_erase, if_neg hne]
      · show (s.extents.erase a).get? b = _
        rw [tab_get_erase, if_neg hne]

theorem freeExtent_other {s : State} {a b : Nat} {e : Extent} (hne : a ≠ b) (h : s.extents.get? b = some e) : (freeExtent s a).extents.get? b = some e := by
  unfold freeExtent
  split
  · exact h
  · split
    · rw [dropExtent_other hne]; exact h
    · dsimp only
      rw [tab_get_upd_other _ _ hne]; exact h

theorem buildPromoted_facts {s : State} {h : Nat} {l : Locket} {m : TierMove} {hd : ExtHead} {plain : List Byte} (hl : s.lockets.get? h = some l) :
    ∃ q, (buildPromoted s h l m hd plain).lockets.get? h = some q ∧ q.state = .opened ∧ q.home = m.home ∧ q.page = m.page ∧ q.extent = 0 ∧ q.lastTouch = s.now := by
  unfold buildPromoted presentPages
  dsimp only
  rw [State.locketM_lockets, tab_get_upd_same]
  dsimp only
  rw [State.locketM_lockets, tab_get_upd_same, hl]
  exact ⟨_, rfl, rfl, rfl, rfl, rfl, rfl⟩

theorem revive_pin {s : State} {id h : Nat} {l : Locket} (e : entering s id 0x26 h l = true) (hs : l.state ≠ .demoting) :
    takePin (entered s id h) h id = ((entered s id h).locketM h fun l => { l with pins := if l.pins.contains id then l.pins else l.pins ++ [id] }) ∧
    (takePin (entered s id h) h id).lockets.get? h = some { meets s id l with pins := if l.pins.contains id then l.pins else l.pins ++ [id] } := by
  have hl := entered_locket e
  have hp : takePin (entered s id h) h id = _ := takePin_calm hl hs
  refine ⟨hp, ?_⟩
  rw [hp, State.locketM_lockets, tab_get_upd_same, hl]
  rfl

theorem revive_parked {s : State} {id h : Nat} {l : Locket} (e : entering s id 0x26 h l = true) (hs : l.state = .parkedT2 ∨ (l.state = .parkedT3 ∧ (s.bay l.bay).mode ≠ .detaching)) :
    exec (.revive id) s = .next (reviveParked (takePin (entered s id h) h id) (cmdOf s id) h { meets s id l with pins := if l.pins.contains id then l.pins else l.pins ++ [id] }) := by
  obtain ⟨hp, hv⟩ := revive_pin e (by rcases hs with h1 | ⟨h1, _⟩ <;> simp [h1])
  show execRevive id s = _
  unfold execRevive
  rw [sessionCmd_entering _ e]
  unfold reviveStart
  dsimp only
  rw [cmdOf_id, hv]
  dsimp only
  rcases hs with hs | ⟨hs, hb⟩
  · rw [show (meets s id l).state = .parkedT2 from hs]
  · rw [show (meets s id l).state = .parkedT3 from hs]
    dsimp only
    have c := entered_confined s id h
    have hbay : (takePin (entered s id h) h id).bays = s.bays := by rw [hp]; exact c .bays (by decide)
    rw [if_neg]
    have : (takePin (entered s id h) h id).bay (meets s id l).bay = s.bay l.bay := by unfold State.bay; rw [hbay]; rfl
    rw [this]
    simpa using hb

theorem ttl_both : (∀ s h l, s.lan.refclk = true → s.lockets.get? h = some l → serving s = true → s.integ.mode ≠ .quarantined → clockRuns l = true →
    (tierTtl l).2 ≠ 0xFFFFFFFF → l.lastTouch + (tierTtl l).2 * 100000000 ≤ s.now → (l.demoteBlocked = false ∨ (l.demoteBlocked = true ∧ l.retryAt ≤ s.now)) →
    ∃ t q, exec (if l.demoteBlocked then .demoteRetry h else .ttlExpiry h) s = .next t ∧ t.lockets.get? h = some q ∧
      (if nextTiers s l (tierTtl l).1 = [] then q.state = .expired else (q.state = .demoting ∧ q.demoteBlocked = false) ∨ (q.demoteBlocked = true ∧ q.retryAt = s.now + 100000000))) := by
    intro s h l hk hl h1 h2 h3 h5 h6 h4
    have hr : ttlReached s l = true := by simp [ttlReached, h3, h5, h6, due, hk]
    have hx : exec (if l.demoteBlocked then .demoteRetry h else .ttlExpiry h) s = .next (ttlOut s h l) := by
      rcases h4 with a | ⟨a, b⟩
      · rw [a]
        show execTtlExpiry h s = _
        unfold execTtlExpiry
        rw [hl]
        simp [when, h1, h2, a, hr]
      · rw [a]
        show execDemoteRetry h s = _
        unfold execDemoteRetry
        rw [hl]
        simp [when, h1, h2, a, b, due, hr, hk]
    unfold ttlOut at hx
    by_cases hn : nextTiers s l (tierTtl l).1 = []
    · rw [hn] at hx
      obtain ⟨q, q1, q2⟩ := expireLocket_facts hl
      refine ⟨_, q, hx, q1, ?_⟩
      rw [if_pos hn]; exact q2
    · obtain ⟨q, q1, q2⟩ := tryTiers_facts s h (nextTiers s l (tierTtl l).1) (by rw [hl]; rfl)
      refine ⟨tryTiers s h (nextTiers s l (tierTtl l).1), q, ?_, q1, ?_⟩
      · rw [hx]
        generalize nextTiers s l (tierTtl l).1 = ts at *
        cases ts with
        | nil => exact absurd rfl hn
        | cons => rfl
      · rw [if_neg hn]; exact q2

end Sys2Proof.Machine
end

