-- ==== Sys2Proof/Laws/Effects/Parures.lean ====
section
/-! SUPPORT. Sys2Proof/Laws/Effects/Parures.lean: lemmas on what the commands of the statements on parures leave. -/

set_option linter.unusedSimpArgs false
set_option linter.unnecessarySimpa false
set_option linter.unusedVariables false

namespace Sys2Proof.Machine
open Sys2Proof

theorem reserveLoad_slot {u s1 : State} {k : Nat} {p : Parure} {header : List Byte} (h : reserveLoad u k p header = some s1) :
    ∃ q : Parure, s1 = { u with parures := u.parures.set k q } ∧ q.state = p.state ∧ q.handle = p.handle ∧ q.cmd = p.cmd ∧ q.headerDue = false := by
  unfold reserveLoad at h
  dsimp only at h
  split at h
  · exact absurd h (by simp)
  · rw [Option.map_eq_some_iff] at h
    obtain ⟨a, -, h⟩ := h
    exact ⟨_, h.symm, rfl, rfl, rfl, rfl⟩

theorem fetchLoad_facts (u : State) (k : Nat) (p : Parure) (n : Nat) : (fetchLoad u k p n).hif = u.hif ∧ (fetchLoad u k p n).parures = u.parures ∧
    ∃ d ∈ allDescs (fetchLoad u k p n), d.purpose = .parure k ∧ d.op = 6 ∧ d.units = max 1 n :=
  ⟨(fetchLoad_steady _ _ _ _).only .hif (by decide), (fetchLoad_steady _ _ _ _).only .parures (by decide), _, submit_held u _, rfl, rfl, rfl⟩

theorem endBadLoad_facts {s u : State} {k : Nat} {p : Parure} {st n : Nat} {c : HCmd} (hh : u.hif = s.hif) (hn : u.now = s.now) (hf : findCmd s p.cmd = some c)
    (ho : completed s p.cmd = false) : (endBadLoad u k p st n).parures.get? k = none ∧ answers s (endBadLoad u k p st n) c st 0 n := by
  unfold endBadLoad
  refine ⟨?_, ?_⟩
  · have : (completeId { u with parures := u.parures.erase k } p.cmd st 0 n 0).parures = u.parures.erase k := (completeId_steady _ _ _ _ _ _).only .parures (by decide)
    rw [this, tab_get_erase_same]
  · exact completeId_answers (by unfold findCmd at hf ⊢; rw [show ({ u with parures := u.parures.erase k } : State).hif = s.hif from hh]; exact hf)
      (by rw [show ({ u with parures := u.parures.erase k } : State).hif = s.hif from hh]) hn (by rw [findCmd_id hf]; exact ho)

end Sys2Proof.Machine
end

