-- ==== Sys2Proof/Laws/Effects/Ports.lean ====
section
/-! SUPPORT. Sys2Proof/Laws/Effects/Ports.lean: lemmas on what the commands of the statements on ports leave. -/

set_option linter.unusedSimpArgs false
set_option linter.unnecessarySimpa false
set_option linter.unusedVariables false

namespace Sys2Proof.Machine
open Sys2Proof

theorem portM_confined (s : State) (n : Nat) (f : Port → Port) : confined [.std] s (s.portM n f) := std_confined _ _

theorem port_answer (u : State) (r : Req) (k n : Nat) : (answerReq u r k).port n = u.port n := by simp [State.port]

theorem launch_facts (s : State) (n : Nat) (f : Flit) (h : n < s.std.ports.length) : ((launch s n f).port n).queue = (s.port n).queue.erase f ∧
    ((launch s n f).port n).replay = (s.port n).replay ++ [f] ∧ ((launch s n f).port n).txSeq = ((s.port n).txSeq + 1) % 256 ∧
    ((launch s n f).port n).credit0 = (if f.kind = 2 then (s.port n).credit0 else (s.port n).credit0 - 1) ∧
    ((launch s n f).port n).credit1 = (if f.kind = 2 then (s.port n).credit1 - 1 else (s.port n).credit1) ∧ confined [.std] s (launch s n f) := by
  unfold launch
  rw [portM_port, if_pos ⟨rfl, h⟩]
  exact ⟨rfl, rfl, rfl, rfl, rfl, portM_confined _ _ _⟩

theorem beginXfer_new (u : State) (x : Xfer) (he : u.std.early = []) (ht : x.total ≠ 0) : { x with last := u.now } ∈ (beginXfer u x).std.inXfers ∧ confined [.std] u (beginXfer u x) := by
  have hb : beginXfer u x = (dropIn u x).stdM fun d => { d with inXfers := d.inXfers ++ [{ x with last := u.now }], early := d.early.filter (fun f => !(f.src == x.peer && f.xfer == x.num)) } := by
    unfold beginXfer
    simp only [he, List.filter_nil, List.foldl_nil]
    rw [if_neg ht]
  rw [hb]
  exact ⟨by simp, confined_trans (std_confined _ _) (std_confined _ _)⟩

theorem ite_std {c : Prop} [Decidable c] {a b u : State} (h : a.std = u.std) (k : b.std = u.std) : (if c then a else b).std = u.std := by split <;> assumption

theorem failXfer_in (s : State) (x : Xfer) : (failXfer s x).std.inXfers = s.std.inXfers.filter (fun y => !(y.peer == x.peer && y.num == x.num)) := by
  have h0 : (dropIn s x).std.inXfers = s.std.inXfers.filter (fun y => !(y.peer == x.peer && y.num == x.num)) := rfl
  unfold failXfer
  dsimp only
  generalize dropIn s x = u0 at *
  have hD : ∀ v : State, (dropExtent v x.extent).std = v.std := fun v => (dropExtent_steady v x.extent).only .std (by decide)
  have hE : ∀ v : State, (endFetch v x 5).std = v.std := fun v => rfl
  split
  · refine (congrArg Std.inXfers (ite_std (u := u0) ((hD _).trans (ite_std (hE _) rfl)) (ite_std (hE _) rfl))).trans h0
  · rw [sendMsg_std_inXfers]
    refine (congrArg Std.inXfers (ite_std (u := u0) ((hD _).trans (ite_std (hE _) rfl)) (ite_std (hE _) rfl))).trans h0

end Sys2Proof.Machine
end

