-- ==== Sys2Proof/Laws/Effects/Posting.lean ====
section
/-! SUPPORT. Sys2Proof/Laws/Effects/Posting.lean: lemmas on what the commands of the statements on posting leave. -/

set_option linter.unusedSimpArgs false
set_option linter.unnecessarySimpa false
set_option linter.unusedVariables false

namespace Sys2Proof.Machine
open Sys2Proof

theorem coalesce_facts (s : State) (r : Nat) (b : Bool) :
    (coalesce s r b).hif.cmds = s.hif.cmds ∧ (coalesce s r b).hif.done = s.hif.done ∧ ((coalesce s r b).ring r).posted = (s.ring r).posted ∧
      (∀ k, k ≠ r → (coalesce s r b).ring k = s.ring k) ∧ (coalesce s r b).hostMem = s.hostMem := by
  unfold coalesce
  dsimp only
  split
  · exact ⟨rfl, rfl, rfl, fun _ _ => rfl, rfl⟩
  · split
    · refine ⟨by rw [signal_hif]; rfl, by rw [signal_hif]; rfl, ?_, ?_, ?_⟩
      · unfold State.ring
        rw [signal_hif]
        simp [State.ring]
      · intro k hk
        unfold State.ring
        rw [signal_hif]
        simp [State.ring, tab_getD_set_other _ _ _ (Ne.symm hk)]
      · exact (signal_steady _ _).only .hostMem (by decide)
    · refine ⟨rfl, rfl, ?_, ?_, rfl⟩
      · simp
      · intro k hk
        exact ringM_ring_other _ _ (Ne.symm hk)

def deliveredA (s1 : State) (tn h : Nat) (l : Locket) (p : Packet) : State :=
  let a := slotAddr s1 tn l.session p.seq
  let w1 := hostWrite s1 (a + 64) (p.bytes.drop 64)
  let w2 := hostWrite w1 a (p.bytes.take 64)
  let w3 := w2.locketM h fun l => { l with packets := l.packets.map (fun q => if q.seq == p.seq then { q with written := true } else q) }
  let w4 := w3.dlvM tn fun g => { g with written := (g.written + 1) % 2 ^ 64 }
  let w5 := w4.hifM fun i => { i with lastServed := i.lastServed.set tn h }
  wfqCharge w5 1 tn 1 ((dlvBacklog w5).contains tn) false

def deliveredP (s2 : State) (tn : Nat) (p : Packet) : State :=
  let s3 := hostWrite s2 (s2.dlv tn).prod (natLe 8 (s2.dlv tn).written)
  if sameSeal s2 tn p.since then s2 else if (s3.dlv tn).irqEn then signal s3 (s3.dlv tn).vector else s3

theorem deliver_eq {s s1 tn h l p} (hk : s.lan.refclk = true) (hw : wfqSelect s 1 (dlvBacklog s) false = (s1, some tn)) (hn : nextSession s1 tn = some (h, l)) (hp : nextPacket s1 l = some p)
    (hm : mayPost s = true) (hq' : (s.integ.mode == IntMode.quarantined) = false) (hb' : (s.lan.power == Power.boot) = false) :
    exec .deliveryWrite s = .next (finishClose (deliveredP (deliveredA s1 tn h l p) tn p) h) := by
  have : writeNext s = some (finishClose (deliveredP (deliveredA s1 tn h l p) tn p) h) := by
    unfold writeNext
    rw [hw]
    dsimp only
    rw [hn]
    dsimp only
    rw [hp]
    dsimp only
    rw [if_neg (by rw [hm, hq', hb']; decide)]
    rfl
  show clocked s (Host.Outcome.next ((writeNext s).getD s)) = _
  rw [clocked_on hk, this]
  rfl

end Sys2Proof.Machine
end

