-- ==== Sys2Proof/Laws/Effects/PowerStates.lean ====
section
/-! SUPPORT. Sys2Proof/Laws/Effects/PowerStates.lean: lemmas on what the commands of the statements on powerstates leave. -/

set_option linter.unusedSimpArgs false
set_option linter.unnecessarySimpa false
set_option linter.unusedVariables false

namespace Sys2Proof.Machine
open Sys2Proof

theorem setPower_confined (s : State) (p : Power) : confined [.lan] s (setPower s p) := (setPower_steady s p).only

theorem railsOff_night {s u : State} (hn : u.now = s.now) : inNight s (railsOff u) ∧ (railsOff u).lan.transition = none := by
  obtain ⟨h1, h2, h3, h⟩ := loseCore_facts u .night
  unfold railsOff
  generalize loseCore u .night = v at *
  have : wiped s v := by
    obtain ⟨a1, a2, a3, a4, a5, a6, a7, a8, a9, a10, a11, a12⟩ := h1
    exact ⟨a1, a2, a3, a4, a5, a6, a7, a8, a9, a10, a11, a12.trans hn⟩
  exact ⟨⟨wiped_more this (lanM_confined _ _), h2, rfl, h3⟩, rfl⟩

theorem refresh_hbc (w : State) (x : Bool) : ∀ b ∈ (refreshMode w x).hbc, b.mode ≠ (if x then MemMode.ready else MemMode.selfRefresh) := by
  intro b hb
  obtain ⟨a, ha, rfl⟩ := List.mem_map.1 (show b ∈ w.hbc.map _ from hb)
  dsimp only
  cases x <;> cases hm : a.mode <;> decide

theorem refresh_lpc (w : State) (x : Bool) : ∀ b ∈ (refreshMode w x).lpc, b.mode ≠ (if x then MemMode.ready else MemMode.selfRefresh) := by
  intro b hb
  obtain ⟨a, ha, rfl⟩ := List.mem_map.1 (show b ∈ w.lpc.map _ from hb)
  dsimp only
  cases x <;> cases hm : a.mode <;> decide

def dozed (w : State) : State := setPower ((w.astM fun a => { a with tlb := [] }).lanM fun l => { l with transition := none, wdtKick := none, idleSince := none }) .twilight

theorem dozed_facts (w : State) : (dozed w).lan.power = .twilight ∧ (dozed w).lan.transition = none ∧ (dozed w).ast.tlb = [] ∧ (dozed w).hbc = w.hbc ∧ (dozed w).lpc = w.lpc ∧ (dozed w).t1 = w.t1 ∧
    (dozed w).now = w.now := by
  unfold dozed
  simp

theorem refresh_t1 (w : State) (x : Bool) : (refreshMode w x).t1 = w.t1 := rfl

theorem refresh_now (w : State) (x : Bool) : (refreshMode w x).now = w.now := rfl

theorem endAll_now (cs : List HCmd) (w : State) : (cs.foldl (endCmd stCancelled) w).now = w.now := by
  induction cs generalizing w with
  | nil => rfl
  | cons c cs ih => simp only [List.foldl_cons]; rw [ih]; exact (endCmd_steady _ _ _).only .now (by decide)

theorem restBays_now (cs : List Nat) (w : State) : (cs.foldl restBay w).now = w.now := by
  induction cs generalizing w with
  | nil => rfl
  | cons c cs ih => simp only [List.foldl_cons]; rw [ih]; exact (restBay_steady _ _).only .now (by decide)

def restedAll (w : State) : State := (List.range 4).foldl restBay (flushHost 65536 ((liveCmds w).foldl (endCmd stCancelled) w))

theorem restedAll_now (w : State) : (restedAll w).now = w.now :=
  (restBays_now _ _).trans (((flushHost_steady 65536 ((liveCmds w).foldl (endCmd stCancelled) w)).only .now (by decide)).trans (endAll_now _ _))

theorem nightOk : ∀ s, s.lan.alwaysOn = true → s.lan.refclk = true → s.lan.powerReq = 3 → s.lan.transition.isSome → (s.lan.power = .boot ∨ s.lan.power = .active ∨ s.lan.power = .twilight) →
    (∀ b ∈ s.bays, b.programs = []) → ∃ t, exec .nightEntry s = .next t ∧ inNight s t ∧ t.lan.transition = none := by
  intro s h1 h2 h3 h4 h5 h6
  have hp : programsDone s = true := by simpa [programsDone] using h6
  have hc : (asked s 3 && (s.lan.power == .boot || s.lan.power == .active || s.lan.power == .twilight) && programsDone s) = true := by
    rcases h5 with h | h | h <;> simp [asked, lanternUp, h1, h2, h3, h4, h, hp]
  have hx : exec .nightEntry s = .next (if (s.lan.power == .boot) = true then railsOff s else railsOff (restedAll (endStreams (restCommands s)))) := by
    show execNightEntry s = _
    unfold execNightEntry when
    rw [if_pos hc, restedAll]
  by_cases hb : (s.lan.power == .boot) = true
  · rw [if_pos hb] at hx
    exact ⟨_, hx, railsOff_night rfl⟩
  · rw [if_neg hb] at hx
    refine ⟨_, hx, railsOff_night ?_⟩
    rw [restedAll_now, show (endStreams (restCommands s)).now = _ from (endStreams_steady _).only .now (by decide)]
    exact (restCommands_steady s).only .now (by decide)

end Sys2Proof.Machine
end

