-- ==== Sys2Proof/Laws/Effects/Searches.lean ====
section
/-! SUPPORT. Sys2Proof/Laws/Effects/Searches.lean: lemmas on what the commands of the statements on searches leave. -/

set_option linter.unusedSimpArgs false
set_option linter.unnecessarySimpa false
set_option linter.unusedVariables false

namespace Sys2Proof.Machine
open Sys2Proof

theorem cmdOf_found {s : State} {id : Nat} (h : (findCmd s id).isSome) : findCmd s id = some (cmdOf s id) := by
  unfold cmdOf
  cases e : findCmd s id with
  | none => rw [e] at h; cases h
  | some c => rfl

theorem sieve_own (xs : List Siv) (f : Siv → Siv) (unit : Nat) (h : unit < xs.length) : (xs.modify unit f).getD unit {} = f (xs.getD unit {}) := by
  rw [getD_modify, if_pos ⟨rfl, h⟩]

theorem writeSamples_samples (s : State) (v : Tab (Nat × Tick)) : (writeSamples s v).traffic.samples = s.traffic.samples := by
  have hw : ∀ (u : State) a b, (hostWrite u a b).traffic = u.traffic := fun u a b => (hostWrite_steady u a b).only .traffic (by decide)
  have hf : ∀ (xs : List (Nat × Nat)) (f : Nat × Nat → Nat) (g : State → Nat × Nat → List Byte) (u : State), (xs.foldl (fun s e => hostWrite s (f e) (g s e)) u).traffic = u.traffic := by
    intro xs f g
    induction xs with
    | nil => intro u; rfl
    | cons x xs ih => intro u; rw [List.foldl_cons, ih, hw]
  unfold writeSamples
  split
  · rfl
  · dsimp only
    rw [hw]
    show (List.foldl _ s _).traffic.samples = _
    have : ∀ (b : Nat) (l : Nat), (((s.traffic.watch.take s.traffic.watchCount).zipIdx).foldl
      (fun s e => hostWrite s (s.traffic.ringBase + 32 * ((b + e.2) % 2 ^ s.traffic.ringLog2)) (sampleRecord s v e.1 (b + e.2))) s).traffic = s.traffic := by
      intro b _
      generalize (s.traffic.watch.take s.traffic.watchCount).zipIdx = xs
      suffices h : ∀ u : State, (xs.foldl (fun s e => hostWrite s (s.traffic.ringBase + 32 * ((b + e.2) % 2 ^ s.traffic.ringLog2)) (sampleRecord s v e.1 (b + e.2))) u).traffic = u.traffic from h s
      induction xs with
      | nil => intro u; rfl
      | cons x xs ih => intro u; rw [List.foldl_cons, ih, hw]
    rw [this s.traffic.ringCount 0]

end Sys2Proof.Machine
end

