-- ==== Sys2Proof/Laws/Effects/Sessions.lean ====
section
/-! SUPPORT. Sys2Proof/Laws/Effects/Sessions.lean: lemmas on what the commands of the statements on sessions leave. -/

set_option linter.unusedSimpArgs false
set_option linter.unnecessarySimpa false
set_option linter.unusedVariables false

namespace Sys2Proof.Machine
open Sys2Proof

theorem takeFrames_zero (s : State) (st : Nat) (u : FrameUse) : takeFrames s st 0 u = (lowater s, some []) := by
  have hd : dropUntil st 0 s.lockets.length s = s := by
    cases s.lockets.length with
    | zero => rfl
    | succ n => unfold dropUntil; rw [if_pos (by simp)]
  have hr : ∀ l, (takeRuns 0 l).1 = [] := fun l => by cases l <;> simp [takeRuns]
  have hf : freeFrames s st 0 = [] := by simp only [freeFrames, hr, List.map_nil, List.flatten_nil]
  have hu : useFrames s st [] u = s := rfl
  have ht : takeFree s st 0 u = (lowater s, some []) := by
    unfold takeFree
    dsimp only
    rw [if_pos (Nat.zero_le _), hf, hu]
  unfold takeFrames
  dsimp only
  rw [hd, ht]
  rfl

theorem freeCharm_lockets (s : State) (ci : Nat) : (freeCharm s ci).lockets = s.lockets := (freeCharm_steady s ci).only .lockets (by decide)

theorem dropLocket_gone {s : State} {h : Nat} {l : Locket} (hl : s.lockets.get? h = some l) : (dropLocket s h).lockets.get? h = none := by
  unfold dropLocket
  rw [hl]
  dsimp only
  rw [(releaseCharmRef_steady _ _).only .lockets (by decide)]
  rw [tab_get_erase, if_pos rfl]

theorem finishClose_done {u : State} {h id : Nat} {l : Locket} (hl : u.lockets.get? h = some l) (hc : l.closing = some id) (hp : l.packets.all (·.written) = true) :
    finishClose u h = completeId (dropLocket u h) id stOk 0 0 0 := by
  unfold finishClose
  rw [hl]
  dsimp only
  rw [hc]
  dsimp only
  rw [if_pos hp]

theorem dropPages_packets {u : State} {h : Nat} {l : Locket} (hl : u.lockets.get? h = some l) : ∃ q, (dropPages u h).lockets.get? h = some q ∧ q.packets = l.packets := by
  unfold dropPages
  rw [hl]
  dsimp only
  have hv : ((presentOwn l).foldl (fun s e => vacate (tlbDropPage s h e.1) e.2) u).lockets = u.lockets := by
    have : Steady [.ast] u ((presentOwn l).foldl (fun s e => vacate (tlbDropPage s h e.1) e.2) u) :=
      Steady.fold .refl (fun v a => (Steady.refl.chain (tlbDropPage_steady _ _ _) (by decide)).chain (vacate_steady _ _) (by decide))
    exact this.only .lockets (by decide)
  rw [State.locketM_lockets, hv, tab_get_upd_same, hl]
  exact ⟨_, rfl, rfl⟩

theorem abandonRecompute_packets {u : State} {h : Nat} {l : Locket} (hl : u.lockets.get? h = some l) :
    ∃ q, (abandonRecompute u h).lockets.get? h = some q ∧ q.packets = l.packets := by
  unfold abandonRecompute
  rw [hl]
  dsimp only
  split
  · exact ⟨l, hl, rfl⟩
  · have hv : (dropJobs (abandonFor u (fun p => p == .ring h)) (fun j => j.cls == .recompute && j.target == h)).lockets = u.lockets :=
      ((dropJobs_steady _ _).only .lockets (by decide)).trans ((abandonFor_steady _ _).only .lockets (by decide))
    obtain ⟨q, q1, q2⟩ := dropPages_packets (u := dropJobs (abandonFor u (fun p => p == .ring h)) (fun j => j.cls == .recompute && j.target == h)) (by rw [hv]; exact hl)
    rw [State.locketM_lockets, (releaseFrames_steady _ _ _).only .lockets (by decide), tab_get_upd_same, q1]
    exact ⟨_, rfl, q2⟩

theorem closed_facts {s w : State} {id h : Nat} {l : Locket} (e : entering s id 0x21 h l = true) (hp : l.packets.all (·.written) = true)
    (hw : ∃ q, w.lockets.get? h = some q ∧ q.packets = l.packets) (w1 : w.hif = (entered s id h).hif) (w2 : w.now = (entered s id h).now) :
    (finishClose (w.locketM h fun l => { l with closing := some id }) h).lockets.get? h = none ∧
    answers s (finishClose (w.locketM h fun l => { l with closing := some id }) h) (cmdOf s id) stOk 0 0 := by
  obtain ⟨q, q1, q2⟩ := hw
  let u := w.locketM h fun l => { l with closing := some id }
  have hu : u.lockets.get? h = some { q with closing := some id } := by
    simp only [u, State.locketM_lockets, tab_get_upd_same, q1, Option.map_some]
  rw [finishClose_done hu rfl (by rw [show ({ q with closing := some id } : Locket).packets = l.packets from q2]; exact hp)]
  constructor
  · rw [completeId_lockets]
    exact dropLocket_gone hu
  · have c := (dropLocket_steady u h).only
    have hh : (dropLocket u h).hif = (entered s id h).hif := (c .hif (by decide)).trans w1
    have hn : (dropLocket u h).now = (entered s id h).now := (c .now (by decide)).trans w2
    exact late_answers (entering_admitted e) hh (hn.trans (entered_now s id h))

end Sys2Proof.Machine
end

