-- ==== Sys2Proof/Laws/Effects/Slots.lean ====
section
/-! SUPPORT. Sys2Proof/Laws/Effects/Slots.lean: lemmas on what the commands of the statements on slots leave. -/

set_option linter.unusedSimpArgs false
set_option linter.unnecessarySimpa false
set_option linter.unusedVariables false

namespace Sys2Proof.Machine
open Sys2Proof

theorem natLe_length (n x : Nat) : (natLe n x).length = n := by
  induction n generalizing x with
  | zero => rfl
  | succ n ih => simp [natLe, ih]

end Sys2Proof.Machine
end

