-- ==== Sys2Proof/Laws/Effects/Steps.lean ====
section
/-! SUPPORT. Sys2Proof/Laws/Effects/Steps.lean: lemmas on what the commands of the statements on steps leave. -/

set_option linter.unusedSimpArgs false
set_option linter.unnecessarySimpa false
set_option linter.unusedVariables false

namespace Sys2Proof.Machine
open Sys2Proof

def stepKept (c : Nat) (s t : State) : Prop := (t.eph.event = s.eph.event ∧ t.eph.lateSteps = s.eph.lateSteps) ∧
  ∀ x v, s.eph.ctxs.get? c = some x → x.step = some v → ∃ y w, t.eph.ctxs.get? c = some y ∧ y.seals = x.seals ∧ y.step = some w ∧
    w.rows = v.rows ∧ w.sealedAt = v.sealedAt ∧ w.paths.isSome = v.paths.isSome

theorem stepKept_refl {c : Nat} {s t : State} (h : t.eph = s.eph) : stepKept c s t :=
  ⟨by rw [h]; exact ⟨rfl, rfl⟩, fun x v hx hv => ⟨x, v, by rw [h]; exact hx, rfl, hv, rfl, rfl, rfl⟩⟩

theorem stepKept_trans {c : Nat} {s t u : State} (h : stepKept c s t) (k : stepKept c t u) : stepKept c s u := by
  refine ⟨⟨k.1.1.trans h.1.1, k.1.2.trans h.1.2⟩, ?_⟩
  intro x v hx hv
  obtain ⟨y, w, a1, a2, a3, a4, a5, a6⟩ := h.2 x v hx hv
  obtain ⟨z, q, b1, b2, b3, b4, b5, b6⟩ := k.2 y w a1 a3
  exact ⟨z, q, b1, b2.trans a2, b3, b4.trans a4, b5.trans a5, b6.trans a6⟩

theorem stepM_ctxs (s : State) (d : Nat) (f : StepRec → StepRec) : (s.stepM d f).eph.ctxs = s.eph.ctxs.upd d (fun x => { x with step := x.step.map f }) := rfl

theorem stepM_kept (c d : Nat) (s : State) (f : StepRec → StepRec) (hf : ∀ v, (f v).rows = v.rows ∧ (f v).sealedAt = v.sealedAt ∧ (f v).paths.isSome = v.paths.isSome) :
    stepKept c s (s.stepM d f) := by
  refine ⟨⟨rfl, rfl⟩, ?_⟩
  intro x v hx hv
  rw [stepM_ctxs, tab_get_upd]
  by_cases h : d = c
  · rw [if_pos h, hx]
    exact ⟨_, f v, rfl, rfl, by show x.step.map f = _; rw [hv]; rfl, (hf v).1, (hf v).2.1, (hf v).2.2⟩
  · rw [if_neg h, hx]
    exact ⟨x, v, rfl, rfl, hv, rfl, rfl, rfl⟩

theorem foldl_kept {α : Type} (c : Nat) (f : State → α → State) (hf : ∀ s e, stepKept c s (f s e)) (l : List α) (s : State) : stepKept c s (l.foldl f s) := by
  induction l generalizing s with
  | nil => exact stepKept_refl rfl
  | cons e l ih => rw [List.foldl_cons]; exact stepKept_trans (hf s e) (ih _)

theorem removeFromSeal_kept (c : Nat) (s : State) (h : Nat) : stepKept c s (removeFromSeal s h) := by
  unfold removeFromSeal
  split
  · exact stepKept_refl rfl
  · split
    · exact stepM_kept _ _ _ _ fun v => ⟨rfl, rfl, rfl⟩
    · exact stepKept_refl rfl

theorem tarnishSession_kept (c : Nat) (s : State) (h k n : Nat) : stepKept c s (tarnishSession s h k n) := by
  unfold tarnishSession
  split
  · exact stepKept_refl rfl
  · refine stepKept_trans (removeFromSeal_kept c s h) (stepKept_refl ?_)
    dsimp only
    rw [(logFault_steady _ _ _ _ _ _ _).only .eph (by decide)]
    exact (endStream_steady _ _ _).only .eph (by decide)

theorem cancelOn_kept (c : Nat) (s : State) (h : Nat) (b : Bool) : stepKept c s (cancelOn s h b).1 := by
  unfold cancelOn
  split
  · exact stepKept_refl rfl
  · rename_i l _
    dsimp only
    have key : ∀ u : State, stepKept c s u → stepKept c s (if b then bargeIn u h else (u, false)).1 := by
      intro u hu
      split
      · exact stepKept_trans hu (stepKept_refl ((bargeIn_steady u h).only .eph (by decide)))
      · exact hu
    apply key
    refine stepKept_trans (t := if l.stm.generating && (unsealedStep s h l).isSome then removeFromSeal s h else s) ?_ (stepKept_refl ?_)
    · split
      · exact removeFromSeal_kept _ _ _
      · exact stepKept_refl rfl
    · dsimp only
      split
      · exact (endStream_steady _ _ _).only .eph (by decide)
      · rfl

theorem replayCancels_kept (c : Nat) (s : State) (h : Nat) : stepKept c s (replayCancels s h) := by
  unfold replayCancels
  split
  · exact stepKept_refl rfl
  · split
    · exact stepKept_refl rfl
    · dsimp only
      exact stepKept_trans (foldl_kept c _ (fun s e => cancelOn_kept c s h _) _ _) (stepKept_refl rfl)

theorem sealMember_kept (c d : Nat) (s : State) (st : StepRec) (row : LenRow) (p : Path) : stepKept c s (sealMember s d st row p) := by
  unfold sealMember
  split
  · exact stepKept_refl rfl
  · dsimp only
    have fin : ∀ (u : State) (o : Bool) k, stepKept c s u → stepKept c s (if o then closeStream u row.handle k else u) := by
      intro u o k hu
      split
      · exact stepKept_trans hu (stepKept_refl ((closeStream_steady u row.handle k).only .eph (by decide)))
      · exact hu
    have eq : ∀ (g : State → State), (∀ u, (g u).eph = u.eph) → ∀ (o : Bool) (u : State), stepKept c s u → stepKept c s (if o then g u else u) := by
      intro g e o u hu
      split
      · exact stepKept_trans hu (stepKept_refl (e u))
      · exact hu
    apply fin
    refine eq (fun s => { s with stm := { s.stm with stops := wrapInc 32 s.stm.stops } }) (fun _ => rfl) _ _ ?_
    refine eq (fun s => { s with fil := { s.fil with evEmpty := true, empty := wrapInc 32 s.fil.empty } }) (fun _ => rfl) _ _ ?_
    have late : ∀ (o : Bool) (u : State) k, stepKept c s u → stepKept c s (if o then countLate u k else u) := by
      intro o u k hu
      split
      · exact stepKept_trans hu ⟨⟨rfl, rfl⟩, fun x v hx hv => ⟨x, v, hx, rfl, hv, rfl, rfl, rfl⟩⟩
      · exact hu
    apply late
    refine stepKept_trans (stepKept_refl ?_) (stepM_kept _ _ _ _ fun v => ⟨rfl, rfl, rfl⟩)
    exact (handPacket_steady _ _ _).only .eph (by decide)

theorem sealRow_kept (c d : Nat) (s : State) (row : LenRow) : stepKept c s (sealRow d s row) := by
  unfold sealRow
  split
  · exact stepKept_refl rfl
  · split
    · exact stepKept_refl rfl
    · split
      · exact sealMember_kept _ _ _ _ _ _
      · exact stepKept_refl rfl

theorem walkMember_kept (c d : Nat) (st : StepRec) (s : State) (row : LenRow) : stepKept c s (walkMember d st s row) := by
  unfold walkMember
  split
  · exact stepKept_refl rfl
  · split
    · exact stepKept_refl rfl
    · dsimp only
      split
      · refine stepKept_refl ?_
        exact (endStream_steady _ _ _).only .eph (by decide)
      · split
        · refine stepKept_trans ?_ (tarnishSession_kept _ _ _ _ _)
          exact stepKept_refl rfl
        · refine stepKept_trans ?_ (stepM_kept _ _ _ _ fun v => ⟨rfl, rfl, by cases v.paths <;> rfl⟩)
          exact stepKept_refl rfl

theorem vacateAll_locket (s : State) (h : Nat) (l : Locket) (hl : s.lockets.get? h = some l) : (vacateAll s h).lockets.get? h = some { l with ptes := [] } := by
  unfold vacateAll
  rw [hl]
  dsimp only
  have key : Steady [.ast] s ((presentOwn l).foldl (fun s e => vacate s e.2) (tlbDropId s h)) := (tlbDropId_steady s h).fold fun u e => vacate_steady u _
  rw [State.locketM_lockets, tab_get_upd_same, key.only .lockets (by decide), hl]
  rfl

theorem useFrames_lockets (s : State) (st : Nat) (fs : List Nat) (u : FrameUse) : (useFrames s st fs u).lockets = s.lockets := rfl

theorem ringIfReady_locket (s : State) (h : Nat) (l : Locket) (hl : s.lockets.get? h = some l) : ∃ q, (ringIfReady s h).lockets.get? h = some q ∧ q.home = l.home ∧ q.page = l.page ∧
    q.move = l.move ∧ q.threadAddr = l.threadAddr := by
  unfold ringIfReady
  rw [hl]
  dsimp only
  split
  · exact ⟨l, hl, rfl, rfl, rfl, rfl⟩
  · split
    · exact ⟨l, hl, rfl, rfl, rfl, rfl⟩
    · rw [(submit_steady _ _).only .lockets (by decide)]
      refine ⟨{ l with ringDue := false }, ?_, rfl, rfl, rfl, rfl⟩
      rw [State.locketM_lockets, tab_get_upd_same, hl]
      rfl

theorem endMove_facts (s : State) (h : Nat) (l : Locket) (m : TierMove) (hl : s.lockets.get? h = some l) : ∃ q, (endMove s h l m).lockets.get? h = some q ∧ q.home = m.home ∧ q.page = m.page ∧
    q.move = none ∧ q.threadAddr = threadPlace (locketImg s l) m.page := by
  let own := presentOwn l
  have bl := vacateAll_locket s h l hl
  let f : Locket → Locket := fun x =>
    { x with home := m.home, page := m.page, threadAddr := threadPlace (locketImg s l) m.page, move := none, dirtyControl := true
             ptes := ((own.map (·.1)).zip m.frames).foldl (fun t e => t.set e.1 { state := .present, stack := m.home, frame := e.2 }) x.ptes
             charmTable := ((attachedCharm (vacateAll s h) x).map (fun e => replicaId e.1 m.home)).getD 0 }
  let c := ((vacateAll s h).locketM h f).astM fun y => { y with moves := y.moves.erase h }
  have cl : c.lockets.get? h = some (f { l with ptes := [] }) := by
    show ((vacateAll s h).locketM h f).lockets.get? h = _
    rw [State.locketM_lockets, tab_get_upd_same, bl]
    rfl
  let r := spreadFrames c h m.home (locketImg s l) (m.frames.drop own.length) (m.frames.length - own.length - imgStepPages (locketImg s l))
  have rl : ∃ q, r.1.lockets.get? h = some q ∧ q.home = m.home ∧ q.page = m.page ∧ q.move = none ∧ q.threadAddr = threadPlace (locketImg s l) m.page := by
    have : ∃ x y, r.1.lockets = c.lockets.upd h (fun l => { l with area := x, reserve := y }) := by
      simp only [r, spreadFrames]
      refine ⟨(m.frames.drop own.length).take (areaPages (locketImg s l)), ((m.frames.drop own.length).take (imgStepPages (locketImg s l))).drop (areaPages (locketImg s l)), ?_⟩
      rw [State.locketM_lockets, useFrames_lockets, useFrames_lockets, useFrames_lockets, (releaseFrames_steady _ _ _).only .lockets (by decide)]
    obtain ⟨x, y, e⟩ := this
    refine ⟨{ f { l with ptes := [] } with area := x, reserve := y }, ?_, rfl, rfl, rfl, rfl⟩
    rw [e, tab_get_upd_same, cl]
    rfl
  obtain ⟨q, q1, q2, q3, q4, q5⟩ := rl
  have key : endMove s h l m = if l.dropped then beginRecompute r.1 h r.2 (((m.cmd.bind (findCmd r.1)).map (·.accept)).getD r.1.now) true else r.1 := by
    unfold endMove
    rfl
  rw [key]
  split
  · unfold beginRecompute
    have key2 : ∀ g : Locket → Locket, (g q).home = q.home ∧ (g q).page = q.page ∧ (g q).move = q.move ∧ (g q).threadAddr = q.threadAddr →
        ∃ z, (ringIfReady (r.1.locketM h g) h).lockets.get? h = some z ∧ z.home = q.home ∧ z.page = q.page ∧ z.move = q.move ∧ z.threadAddr = q.threadAddr := by
      intro g hg
      obtain ⟨z, z1, z2⟩ := ringIfReady_locket (r.1.locketM h g) h (g q) (by
        rw [State.locketM_lockets, tab_get_upd_same, q1]
        rfl)
      exact ⟨z, z1, z2.1.trans hg.1, z2.2.1.trans hg.2.1, z2.2.2.1.trans hg.2.2.1, z2.2.2.2.trans hg.2.2.2⟩
    have key3 : ∀ g : Locket → Locket, ((g q).home = q.home ∧ (g q).page = q.page ∧ (g q).move = q.move ∧ (g q).threadAddr = q.threadAddr) →
        ∃ z, (ringIfReady (r.1.locketM h g) h).lockets.get? h = some z ∧ z.home = m.home ∧ z.page = m.page ∧ z.move = none ∧ z.threadAddr = threadPlace (locketImg s l) m.page := by
      intro g hg
      obtain ⟨z, z1, z2⟩ := key2 g hg
      exact ⟨z, z1, z2.1.trans q2, z2.2.1.trans q3, z2.2.2.1.trans q4, z2.2.2.2.trans q5⟩
    dsimp only
    apply key3
    exact ⟨rfl, rfl, rfl, rfl⟩
  · exact ⟨q, q1, q2, q3, q4, q5⟩

end Sys2Proof.Machine
end

