-- ==== Sys2Proof/Laws/Effects/Supply.lean ====
section
/-! SUPPORT. Sys2Proof/Laws/Effects/Supply.lean: lemmas on what the commands of the statements on supply leave. -/

set_option linter.unusedSimpArgs false
set_option linter.unnecessarySimpa false
set_option linter.unusedVariables false

namespace Sys2Proof.Machine
open Sys2Proof

theorem crashDirect_log (s : State) (k d : Nat) : (crashDirect s k d).lan.crashLog = (s.lan.crashLog ++ [faultRec s k 0xC3 0xFF 0 0 d]).drop (s.lan.crashLog.length + 1 - 64) :=
  crashRecord_log _ _

theorem faultRec_same {s u : State} (h1 : u.now = s.now) (h2 : u.lpe = s.lpe) (h3 : u.std = s.std) (h4 : u.integ = s.integ) (k a b c d e : Nat) :
    faultRec u k a b c d e = faultRec s k a b c d e := by
  simp [faultRec, h1, h2, h3, h4]

theorem faultRec_held {s u : State} (h1 : u.now = s.now) (h2 : u.lpe = s.lpe) (h3 : u.std = s.std) (k a b c d e : Nat) :
    faultRec u k a b c d e = faultRec { s with integ := u.integ } k a b c d e := by
  simp [faultRec, h1, h2, h3]

theorem foldMap_confined (ns : List Nat) (w : State) : confined [.bays] w (ns.foldl mapImage w) := by
  induction ns generalizing w with
  | nil => intro p hp; cases p <;> rfl
  | cons n ns ih => simp only [List.foldl_cons]; exact confined_trans (mapImage_steady _ _).only (ih _)

def stoppedBays (w s : State) : State :=
  ((List.range 4).filter (fun n => (w.bay n).mode == .mounted || (w.bay n).mode == .detaching)).foldl mapImage s

theorem foldDetach_now (ns : List Nat) (w : State) : (ns.foldl forceDetach w).now = w.now := by
  induction ns generalizing w with
  | nil => rfl
  | cons n ns ih => simp only [List.foldl_cons]; rw [ih]; exact (forceDetach_steady _ _).only .now (by decide)

theorem railsOff_atNight {s u : State} (hn : u.now = s.now) : inNight s (railsOff u) ∧ (railsOff u).lan.thermtrip = u.lan.thermtrip ∧
    (railsOff u).lan.tripped = u.lan.tripped ∧ (railsOff u).lan.tripCount = u.lan.tripCount := by
  obtain ⟨h1, h2, h3, h4, h5, h6, h7, h8, h9, h10, h11, h12, h13, h14⟩ := loseCore_facts u .night
  unfold railsOff
  generalize loseCore u .night = v at *
  have : wiped s v := by
    obtain ⟨a1, a2, a3, a4, a5, a6, a7, a8, a9, a10, a11, a12⟩ := h1
    exact ⟨a1, a2, a3, a4, a5, a6, a7, a8, a9, a10, a11, a12.trans hn⟩
  exact ⟨⟨wiped_more this (lanM_confined _ _), h2, rfl, h3⟩, h12, h13, h14⟩

end Sys2Proof.Machine
end

