-- ==== Sys2Proof/Laws/Effects/Tiles.lean ====
section
/-! SUPPORT. Sys2Proof/Laws/Effects/Tiles.lean: lemmas on what the commands of the statements on tiles leave. -/

set_option linter.unusedSimpArgs false
set_option linter.unnecessarySimpa false
set_option linter.unusedVariables false

namespace Sys2Proof.Machine
open Sys2Proof

theorem running_prog {s : State} {p : Progress} {img : List Byte} {pr : Prog} {ps : List PosEntry} (h : running s = some (p, img, pr, ps)) : s.ory.prog = some p := by
  unfold running at h
  cases hq : s.ory.prog with
  | none => rw [hq] at h; cases h
  | some q =>
    rw [hq] at h
    simp only [Option.bind_some] at h
    split at h
    · simp at h; rw [h.1]
    · cases h

theorem oryM_confined (s : State) (f : Ory → Ory) : confined [.ory] s (s.oryM f) := by
  intro p hp
  cases p <;> first | rfl | exact absurd (by decide) hp

theorem endHold_prog (s : State) : (endHold s).ory.prog = s.ory.prog ∧ (endHold s).ory.halfA = s.ory.halfA ∧ (endHold s).ory.halfB = s.ory.halfB ∧ (endHold s).ory.window = s.ory.window := by
  unfold endHold
  split
  · split
    · split <;> exact ⟨rfl, rfl, rfl, rfl⟩
    · exact ⟨rfl, rfl, rfl, rfl⟩
  · exact ⟨rfl, rfl, rfl, rfl⟩

theorem reachCheap_idle (s : State) (h : stopAsked s = false) : reachCheap s = s := by
  unfold reachCheap
  rw [h]
  simp

theorem foldl_id {α β : Type} (l : List α) (s : β) (f : β → α → β) (h : ∀ e ∈ l, f s e = s) : l.foldl f s = s := by
  induction l with
  | nil => rfl
  | cons a l ih => rw [List.foldl_cons, h a (by simp)]; exact ih fun e he => h e (by simp [he])

theorem only_t1 {s w : State} (h : confined [.t1, .integ] s w) : w = { s with t1 := w.t1, integ := w.integ } := by
  have a := fun p hp => h p hp
  cases s; cases w
  simp only [State.mk.injEq]
  exact ⟨a .pending (by decide), a .now (by decide), a .ory (by decide), a .cells (by decide), a .lpe (by decide), a .parures (by decide), a .ast (by decide), a .smp (by decide),
    a .fil (by decide), a .stm (by decide), a .lockets (by decide), a .charms (by decide), a .facets (by decide), a .keys (by decide), trivial, a .extents (by decide),
    a .hbc (by decide), a .lpc (by decide), a .cur (by decide), a .bays (by decide), a .eph (by decide), a .traffic (by decide), a .colls (by decide),
    a .searches (by decide), a .selects (by decide), a .sieves (by decide), trivial, a .ckpt (by decide), a .hif (by decide), a .std (by decide), a .lan (by decide),
    a .hostMem (by decide), a .replies (by decide)⟩

theorem foldl_keep {α β γ : Type} (g : β → γ) (xs : List α) (f : β → α → β) (h : ∀ y x, g (f y x) = g y) (y : β) : g (xs.foldl f y) = g y := by
  induction xs generalizing y with
  | nil => rfl
  | cons x xs ih => rw [List.foldl_cons, ih, h]

theorem foldl_pair {α β γ : Type} (g : β → γ) (xs : List α) (f : β → α → β) (h : ∀ y z x, g y = g z → g (f y x) = g (f z x)) (y z : β) (hg : g y = g z) : g (xs.foldl f y) = g (xs.foldl f z) := by
  induction xs generalizing y z with
  | nil => exact hg
  | cons x xs ih => rw [List.foldl_cons, List.foldl_cons]; exact ih _ _ (h _ _ _ hg)

theorem railFill_keeps (s : State) (p : Parure) (img : List Byte) (ps : List PosEntry) (pr : Prog) (half f : Nat) (y : Ory) :
    (railFill s p img ps pr half f y).halfA = y.halfA ∧ (railFill s p img ps pr half f y).halfB = y.halfB := by
  unfold railFill
  cases fillSweep img ps pr f with
  | none => exact ⟨rfl, rfl⟩
  | some i =>
    dsimp only
    refine ⟨?_, ?_⟩
    · refine (foldl_keep (fun y : Ory => y.halfA) _ _ ?_ _).trans rfl
      exact fun y k => foldl_keep (fun y : Ory => y.halfA) _ _ (fun y c => by unfold railBlock; rfl) y
    · refine (foldl_keep (fun y : Ory => y.halfB) _ _ ?_ _).trans rfl
      exact fun y k => foldl_keep (fun y : Ory => y.halfB) _ _ (fun y c => by unfold railBlock; rfl) y

theorem railFill_window (s : State) (p : Parure) (img : List Byte) (ps : List PosEntry) (pr : Prog) (half f : Nat) (y z : Ory) (h : y.window = z.window) :
    (railFill s p img ps pr half f y).window = (railFill s p img ps pr half f z).window := by
  unfold railFill
  cases fillSweep img ps pr f with
  | none => exact h
  | some i =>
    dsimp only
    refine foldl_pair (fun y : Ory => y.window) _ _ ?_ _ _ h
    intro y z k hk
    refine foldl_pair (fun y : Ory => y.window) _ _ ?_ _ _ hk
    intro y z c hc
    unfold railBlock
    show y.window.copyFrom _ _ _ _ = z.window.copyFrom _ _ _ _
    rw [show y.window = z.window from hc]

end Sys2Proof.Machine
end

