-- ==== Sys2Proof/Laws/Effects/Writes.lean ====
section
/-! SUPPORT. Sys2Proof/Laws/Effects/Writes.lean: lemmas on what the commands of the statements on writes leave. -/

set_option linter.unusedSimpArgs false
set_option linter.unnecessarySimpa false
set_option linter.unusedVariables false

namespace Sys2Proof.Machine
open Sys2Proof

theorem askReset_facts (s : State) (r : Req) (k : ResetKind) : replied s (askReset s r k) r 0 ∧ ((askReset s r k).lan.resetDue.map (·.1)) = some k := by
  refine ⟨?_, rfl⟩
  unfold askReset
  have : replied s (reply (pop s) r 2 (respPdu r 0 ((entrySpec r.index r.sub).getD { ty := 0, len := 0, acc := 0, cls := 0, home := 0 }).ty false
      ((entrySpec r.index r.sub).getD { ty := 0, len := 0, acc := 0, cls := 0, home := 0 }).len [])) r 0 :=
    reply_replied _ _ _ _ _ _ _ (by decide) rfl rfl
  exact this

def quiet (s t : State) : Prop := t.lan.queue = s.lan.queue ∧ t.lan.tx = s.lan.tx

theorem quiet_lan {s t : State} (h : t.lan = s.lan) : quiet s t := by rw [quiet, h]; exact ⟨rfl, rfl⟩

theorem quiet_trans {s t u : State} (h : quiet s t) (k : quiet t u) : quiet s u := ⟨k.1.trans h.1, k.2.trans h.2⟩

theorem quiet_fold {α : Type} {f : State → α → State} (hf : ∀ s a, quiet s (f s a)) (l : List α) (s : State) : quiet s (l.foldl f s) := by
  induction l generalizing s with
  | nil => exact quiet_lan rfl
  | cons a l ih => exact quiet_trans (hf s a) (ih _)

theorem tarnishSession_quiet (s : State) (h a b : Nat) : quiet s (tarnishSession s h a b) := by
  unfold tarnishSession
  split
  · exact quiet_lan rfl
  · have he : (endStream (removeFromSeal s h) h stTarnished).lan = s.lan :=
      ((endStream_steady _ _ _).only .lan (by decide)).trans ((removeFromSeal_steady _ _).only .lan (by decide))
    generalize endStream (removeFromSeal s h) h stTarnished = u at *
    exact ⟨by simp [he], by simp [he]⟩

theorem quiet_ite {s t : State} (b : Bool) (h : quiet s t) : quiet s (if b then t else s) := by
  cases b
  · exact quiet_lan rfl
  · exact h

theorem commitMember_quiet (st : StepRec) (s : State) (row : LenRow) : quiet s (commitMember st s row) := by
  unfold commitMember
  split
  · exact quiet_lan rfl
  · split
    · exact quiet_lan rfl
    · dsimp only
      rename_i l _
      refine quiet_trans (t := (committedEntries st row.member).foldl (commitEntry row.handle (locketImg s l)) s)
        (quiet_fold (fun s e => quiet_lan ((commitEntry_steady _ _ s e).only .lan (by decide))) _ s) ?_
      exact quiet_trans (quiet_lan (State.locketM_lan _ _ _)) (quiet_ite _ (tarnishSession_quiet _ _ _ _))

theorem leaveNow_quiet (s : State) (c h : Nat) (l : Locket) : quiet s (leaveNow s c h l) := by
  unfold leaveNow
  split
  · dsimp only
    refine quiet_trans (quiet_trans ?_ (quiet_lan ((leaveMember_steady _ c h).only .lan (by decide)))) (quiet_lan rfl)
    split
    · split
      · exact quiet_trans (commitMember_quiet _ _ _) (quiet_lan rfl)
      · exact quiet_lan rfl
    · exact quiet_lan rfl
  · exact quiet_lan ((leaveMember_steady s c h).only .lan (by decide))

theorem contextLocket_quiet (s : State) (h : Nat) : quiet s (contextLocket s h) := by
  unfold contextLocket
  split
  · exact quiet_lan rfl
  · rename_i l _
    dsimp only
    have hc : quiet s (if l.stm.generating then (cancelOn s h false).1 else s) := by
      split
      · exact quiet_lan ((cancelOn_steady _ _ _).only .lan (by decide))
      · exact quiet_lan rfl
    split
    · exact quiet_trans hc (leaveNow_quiet _ _ _ _)
    · exact hc

theorem contextReset_quiet (s : State) (v : Nat) : quiet s (contextReset s v) := by
  unfold contextReset
  dsimp only
  refine quiet_trans ?_ (quiet_lan ((rependAll_steady _ _).only .lan (by decide)))
  refine quiet_trans ?_ (quiet_lan ((abandonMoves_steady _ _ _).only .lan (by decide)))
  exact quiet_trans (quiet_fold contextLocket_quiet _ s) (quiet_fold (fun s c => quiet_lan ((endCmd_steady _ s c).only .lan (by decide))) _ _)

end Sys2Proof.Machine
end

