-- ==== Sys2Proof/Laws/Runs.lean ====
section
/-! SUPPORT. Sys2Proof/Laws/Runs.lean: each command, well formed, answers a next state; one lemma per command. -/

set_option linter.unusedSimpArgs false
set_option linter.unusedVariables false

namespace Sys2Proof.Machine
open Sys2Proof

/-- The outcome is a next state. -/
def Goes (o : Out) : Prop := ∃ t, o = .next t
theorem Goes.next {t : State} : Goes (.next t) := ⟨t, rfl⟩
theorem goes_when {ok : Bool} {s t : State} : Goes (when ok s t) := by
  unfold when
  split <;> exact .next
theorem goes_formed {ok : Bool} {o : Out} (h : ok = true) (k : Goes o) : Goes (formed ok o) := by
  unfold formed
  rw [if_pos h]
  exact k
theorem goes_clocked {s : State} {o : Out} (k : Goes o) : Goes (clocked s o) := by
  unfold clocked
  split
  · exact k
  · exact .next
theorem goes_hostCmd {s : State} {id op : Nat} {k : State → HCmd → State} : Goes (hostCmd s id op k) := by
  unfold hostCmd
  split <;> exact .next
theorem goes_sessionCmd {s : State} {id op : Nat} {k : State → HCmd → Nat → Locket → State} : Goes (sessionCmd s id op k) := by
  unfold sessionCmd
  repeat' (first | exact goes_hostCmd | exact .next | split)
theorem goes_onWrite {s : State} {m : Nat → Nat → Nat → Bool} {k : State → Req → State} : Goes (onWrite s m k) := by
  unfold onWrite
  repeat' (first | exact .next | split)
theorem goes_onMsg {s : State} {ty : Nat} {k : State → Msg → State} : Goes (onMsg s ty k) := by
  unfold onMsg
  repeat' (first | exact .next | exact goes_when | split)
theorem goes_onRouted {s : State} {ty : Nat} {k : State → Msg → State} : Goes (onRouted s ty k) := by
  unfold onRouted
  repeat' (first | exact .next | exact goes_when | exact goes_onMsg | split)
theorem goes_resetReq {s : State} {v : Nat} {k : ResetKind} : Goes (resetReq s v k) := by
  unfold resetReq
  repeat' (first | exact .next | exact goes_when | exact goes_onWrite | split)

theorem execNop_goes (s : State) : ∀ id, wellFormed (.nop id) = true → Goes (execNop id s) := by
  intro id h
  unfold execNop
  skip
  repeat' (first | exact .next | exact goes_when | refine goes_clocked ?_ | exact goes_hostCmd | exact goes_sessionCmd | exact goes_onWrite | exact goes_onMsg | exact goes_onRouted | exact goes_resetReq | split | (dsimp only; split))

theorem execFence_goes (s : State) : ∀ id, wellFormed (.fence id) = true → Goes (execFence id s) := by
  intro id h
  unfold execFence
  skip
  repeat' (first | exact .next | exact goes_when | refine goes_clocked ?_ | exact goes_hostCmd | exact goes_sessionCmd | exact goes_onWrite | exact goes_onMsg | exact goes_onRouted | exact goes_resetReq | split | (dsimp only; split))

theorem execFenceDone_goes (s : State) : ∀ id, wellFormed (.fenceDone id) = true → Goes (execFenceDone id s) := by
  intro id h
  unfold execFenceDone
  skip
  repeat' (first | exact .next | exact goes_when | refine goes_clocked ?_ | exact goes_hostCmd | exact goes_sessionCmd | exact goes_onWrite | exact goes_onMsg | exact goes_onRouted | exact goes_resetReq | split | (dsimp only; split))

theorem execLoadParure_goes (s : State) : ∀ id header, wellFormed (.loadParure id header) = true → Goes (execLoadParure id header s) := by
  intro id header h
  unfold execLoadParure
  refine goes_formed h ?_
  repeat' (first | exact .next | exact goes_when | refine goes_clocked ?_ | exact goes_hostCmd | exact goes_sessionCmd | exact goes_onWrite | exact goes_onMsg | exact goes_onRouted | exact goes_resetReq | split | (dsimp only; split))

theorem execParureCopyDone_goes (s : State) : ∀ slot image, wellFormed (.parureCopyDone slot image) = true → Goes (execParureCopyDone slot image s) := by
  intro slot image h
  unfold execParureCopyDone
  refine goes_formed h ?_
  repeat' (first | exact .next | exact goes_when | refine goes_clocked ?_ | exact goes_hostCmd | exact goes_sessionCmd | exact goes_onWrite | exact goes_onMsg | exact goes_onRouted | exact goes_resetReq | split | (dsimp only; split))

theorem execUnloadParure_goes (s : State) : ∀ id, wellFormed (.unloadParure id) = true → Goes (execUnloadParure id s) := by
  intro id h
  unfold execUnloadParure
  skip
  repeat' (first | exact .next | exact goes_when | refine goes_clocked ?_ | exact goes_hostCmd | exact goes_sessionCmd | exact goes_onWrite | exact goes_onMsg | exact goes_onRouted | exact goes_resetReq | split | (dsimp only; split))

theorem execFacetLoad_goes (s : State) : ∀ id image, wellFormed (.facetLoad id image) = true → Goes (execFacetLoad id image s) := by
  intro id image h
  unfold execFacetLoad
  skip
  repeat' (first | exact .next | exact goes_when | refine goes_clocked ?_ | exact goes_hostCmd | exact goes_sessionCmd | exact goes_onWrite | exact goes_onMsg | exact goes_onRouted | exact goes_resetReq | split | (dsimp only; split))

theorem execFacetDrop_goes (s : State) : ∀ id, wellFormed (.facetDrop id) = true → Goes (execFacetDrop id s) := by
  intro id h
  unfold execFacetDrop
  skip
  repeat' (first | exact .next | exact goes_when | refine goes_clocked ?_ | exact goes_hostCmd | exact goes_sessionCmd | exact goes_onWrite | exact goes_onMsg | exact goes_onRouted | exact goes_resetReq | split | (dsimp only; split))

theorem execSessionOpen_goes (s : State) : ∀ id, wellFormed (.sessionOpen id) = true → Goes (execSessionOpen id s) := by
  intro id h
  unfold execSessionOpen
  skip
  repeat' (first | exact .next | exact goes_when | refine goes_clocked ?_ | exact goes_hostCmd | exact goes_sessionCmd | exact goes_onWrite | exact goes_onMsg | exact goes_onRouted | exact goes_resetReq | split | (dsimp only; split))

theorem execSessionClose_goes (s : State) : ∀ id, wellFormed (.sessionClose id) = true → Goes (execSessionClose id s) := by
  intro id h
  unfold execSessionClose
  skip
  repeat' (first | exact .next | exact goes_when | refine goes_clocked ?_ | exact goes_hostCmd | exact goes_sessionCmd | exact goes_onWrite | exact goes_onMsg | exact goes_onRouted | exact goes_resetReq | split | (dsimp only; split))

theorem execIngest_goes (s : State) : ∀ id data, wellFormed (.ingest id data) = true → Goes (execIngest id data s) := by
  intro id data h
  unfold execIngest
  skip
  repeat' (first | exact .next | exact goes_when | refine goes_clocked ?_ | exact goes_hostCmd | exact goes_sessionCmd | exact goes_onWrite | exact goes_onMsg | exact goes_onRouted | exact goes_resetReq | split | (dsimp only; split))

theorem execGenerate_goes (s : State) : ∀ id, wellFormed (.generate id) = true → Goes (execGenerate id s) := by
  intro id h
  unfold execGenerate
  skip
  repeat' (first | exact .next | exact goes_when | refine goes_clocked ?_ | exact goes_hostCmd | exact goes_sessionCmd | exact goes_onWrite | exact goes_onMsg | exact goes_onRouted | exact goes_resetReq | split | (dsimp only; split))

theorem execCancel_goes (s : State) : ∀ id, wellFormed (.cancel id) = true → Goes (execCancel id s) := by
  intro id h
  unfold execCancel
  skip
  repeat' (first | exact .next | exact goes_when | refine goes_clocked ?_ | exact goes_hostCmd | exact goes_sessionCmd | exact goes_onWrite | exact goes_onMsg | exact goes_onRouted | exact goes_resetReq | split | (dsimp only; split))

theorem execPark_goes (s : State) : ∀ id, wellFormed (.park id) = true → Goes (execPark id s) := by
  intro id h
  unfold execPark
  skip
  repeat' (first | exact .next | exact goes_when | refine goes_clocked ?_ | exact goes_hostCmd | exact goes_sessionCmd | exact goes_onWrite | exact goes_onMsg | exact goes_onRouted | exact goes_resetReq | split | (dsimp only; split))

theorem execRevive_goes (s : State) : ∀ id, wellFormed (.revive id) = true → Goes (execRevive id s) := by
  intro id h
  unfold execRevive
  skip
  repeat' (first | exact .next | exact goes_when | refine goes_clocked ?_ | exact goes_hostCmd | exact goes_sessionCmd | exact goes_onWrite | exact goes_onMsg | exact goes_onRouted | exact goes_resetReq | split | (dsimp only; split))

theorem execCharmCreate_goes (s : State) : ∀ id, wellFormed (.charmCreate id) = true → Goes (execCharmCreate id s) := by
  intro id h
  unfold execCharmCreate
  skip
  repeat' (first | exact .next | exact goes_when | refine goes_clocked ?_ | exact goes_hostCmd | exact goes_sessionCmd | exact goes_onWrite | exact goes_onMsg | exact goes_onRouted | exact goes_resetReq | split | (dsimp only; split))

theorem execCharmDrop_goes (s : State) : ∀ id, wellFormed (.charmDrop id) = true → Goes (execCharmDrop id s) := by
  intro id h
  unfold execCharmDrop
  skip
  repeat' (first | exact .next | exact goes_when | refine goes_clocked ?_ | exact goes_hostCmd | exact goes_sessionCmd | exact goes_onWrite | exact goes_onMsg | exact goes_onRouted | exact goes_resetReq | split | (dsimp only; split))

theorem execBatchDefine_goes (s : State) : ∀ id, wellFormed (.batchDefine id) = true → Goes (execBatchDefine id s) := by
  intro id h
  unfold execBatchDefine
  skip
  repeat' (first | exact .next | exact goes_when | refine goes_clocked ?_ | exact goes_hostCmd | exact goes_sessionCmd | exact goes_onWrite | exact goes_onMsg | exact goes_onRouted | exact goes_resetReq | split | (dsimp only; split))

theorem execBatchRelease_goes (s : State) : ∀ id, wellFormed (.batchRelease id) = true → Goes (execBatchRelease id s) := by
  intro id h
  unfold execBatchRelease
  skip
  repeat' (first | exact .next | exact goes_when | refine goes_clocked ?_ | exact goes_hostCmd | exact goes_sessionCmd | exact goes_onWrite | exact goes_onMsg | exact goes_onRouted | exact goes_resetReq | split | (dsimp only; split))

theorem execBatchJoin_goes (s : State) : ∀ id, wellFormed (.batchJoin id) = true → Goes (execBatchJoin id s) := by
  intro id h
  unfold execBatchJoin
  skip
  repeat' (first | exact .next | exact goes_when | refine goes_clocked ?_ | exact goes_hostCmd | exact goes_sessionCmd | exact goes_onWrite | exact goes_onMsg | exact goes_onRouted | exact goes_resetReq | split | (dsimp only; split))

theorem execBatchLeave_goes (s : State) : ∀ id, wellFormed (.batchLeave id) = true → Goes (execBatchLeave id s) := by
  intro id h
  unfold execBatchLeave
  skip
  repeat' (first | exact .next | exact goes_when | refine goes_clocked ?_ | exact goes_hostCmd | exact goes_sessionCmd | exact goes_onWrite | exact goes_onMsg | exact goes_onRouted | exact goes_resetReq | split | (dsimp only; split))

theorem execEphemerisLoad_goes (s : State) : ∀ id image, wellFormed (.ephemerisLoad id image) = true → Goes (execEphemerisLoad id image s) := by
  intro id image h
  unfold execEphemerisLoad
  skip
  repeat' (first | exact .next | exact goes_when | refine goes_clocked ?_ | exact goes_hostCmd | exact goes_sessionCmd | exact goes_onWrite | exact goes_onMsg | exact goes_onRouted | exact goes_resetReq | split | (dsimp only; split))

theorem execEphemerisSwitch_goes (s : State) : ∀ id, wellFormed (.ephemerisSwitch id) = true → Goes (execEphemerisSwitch id s) := by
  intro id h
  unfold execEphemerisSwitch
  skip
  repeat' (first | exact .next | exact goes_when | refine goes_clocked ?_ | exact goes_hostCmd | exact goes_sessionCmd | exact goes_onWrite | exact goes_onMsg | exact goes_onRouted | exact goes_resetReq | split | (dsimp only; split))

theorem execSearch_goes (s : State) : ∀ id query poison, wellFormed (.search id query poison) = true → Goes (execSearch id query poison s) := by
  intro id query poison h
  unfold execSearch
  skip
  repeat' (first | exact .next | exact goes_when | refine goes_clocked ?_ | exact goes_hostCmd | exact goes_sessionCmd | exact goes_onWrite | exact goes_onMsg | exact goes_onRouted | exact goes_resetReq | split | (dsimp only; split))

theorem execItemInsert_goes (s : State) : ∀ id block poison, wellFormed (.itemInsert id block poison) = true → Goes (execItemInsert id block poison s) := by
  intro id block poison h
  unfold execItemInsert
  skip
  repeat' (first | exact .next | exact goes_when | refine goes_clocked ?_ | exact goes_hostCmd | exact goes_sessionCmd | exact goes_onWrite | exact goes_onMsg | exact goes_onRouted | exact goes_resetReq | split | (dsimp only; split))

theorem execItemDelete_goes (s : State) : ∀ id, wellFormed (.itemDelete id) = true → Goes (execItemDelete id s) := by
  intro id h
  unfold execItemDelete
  skip
  repeat' (first | exact .next | exact goes_when | refine goes_clocked ?_ | exact goes_hostCmd | exact goes_sessionCmd | exact goes_onWrite | exact goes_onMsg | exact goes_onRouted | exact goes_resetReq | split | (dsimp only; split))

theorem execCollectionMerge_goes (s : State) : ∀ id, wellFormed (.collectionMerge id) = true → Goes (execCollectionMerge id s) := by
  intro id h
  unfold execCollectionMerge
  skip
  repeat' (first | exact .next | exact goes_when | refine goes_clocked ?_ | exact goes_hostCmd | exact goes_sessionCmd | exact goes_onWrite | exact goes_onMsg | exact goes_onRouted | exact goes_resetReq | split | (dsimp only; split))

theorem execCollectionCreate_goes (s : State) : ∀ id, wellFormed (.collectionCreate id) = true → Goes (execCollectionCreate id s) := by
  intro id h
  unfold execCollectionCreate
  skip
  repeat' (first | exact .next | exact goes_when | refine goes_clocked ?_ | exact goes_hostCmd | exact goes_sessionCmd | exact goes_onWrite | exact goes_onMsg | exact goes_onRouted | exact goes_resetReq | split | (dsimp only; split))

theorem execCollectionDestroy_goes (s : State) : ∀ id, wellFormed (.collectionDestroy id) = true → Goes (execCollectionDestroy id s) := by
  intro id h
  unfold execCollectionDestroy
  skip
  repeat' (first | exact .next | exact goes_when | refine goes_clocked ?_ | exact goes_hostCmd | exact goes_sessionCmd | exact goes_onWrite | exact goes_onMsg | exact goes_onRouted | exact goes_resetReq | split | (dsimp only; split))

theorem execSelect_goes (s : State) : ∀ id, wellFormed (.select id) = true → Goes (execSelect id s) := by
  intro id h
  unfold execSelect
  skip
  repeat' (first | exact .next | exact goes_when | refine goes_clocked ?_ | exact goes_hostCmd | exact goes_sessionCmd | exact goes_onWrite | exact goes_onMsg | exact goes_onRouted | exact goes_resetReq | split | (dsimp only; split))

theorem execSnapshot_goes (s : State) : ∀ id, wellFormed (.snapshot id) = true → Goes (execSnapshot id s) := by
  intro id h
  unfold execSnapshot
  skip
  repeat' (first | exact .next | exact goes_when | refine goes_clocked ?_ | exact goes_hostCmd | exact goes_sessionCmd | exact goes_onWrite | exact goes_onMsg | exact goes_onRouted | exact goes_resetReq | split | (dsimp only; split))

theorem execRestore_goes (s : State) : ∀ id params select resume replay peer, wellFormed (.restore id params select resume replay peer) = true → Goes (execRestore id params select resume replay peer s) := by
  intro id params select resume replay peer h
  unfold execRestore
  skip
  repeat' (first | exact .next | exact goes_when | refine goes_clocked ?_ | exact goes_hostCmd | exact goes_sessionCmd | exact goes_onWrite | exact goes_onMsg | exact goes_onRouted | exact goes_resetReq | split | (dsimp only; split))

theorem execManifestRead_goes (s : State) : ∀ id, wellFormed (.manifestRead id) = true → Goes (execManifestRead id s) := by
  intro id h
  unfold execManifestRead
  skip
  repeat' (first | exact .next | exact goes_when | refine goes_clocked ?_ | exact goes_hostCmd | exact goes_sessionCmd | exact goes_onWrite | exact goes_onMsg | exact goes_onRouted | exact goes_resetReq | split | (dsimp only; split))

theorem execQuery_goes (s : State) : ∀ id, wellFormed (.query id) = true → Goes (execQuery id s) := by
  intro id h
  unfold execQuery
  skip
  repeat' (first | exact .next | exact goes_when | refine goes_clocked ?_ | exact goes_hostCmd | exact goes_sessionCmd | exact goes_onWrite | exact goes_onMsg | exact goes_onRouted | exact goes_resetReq | split | (dsimp only; split))

theorem execAccountRead_goes (s : State) : ∀ id, wellFormed (.accountRead id) = true → Goes (execAccountRead id s) := by
  intro id h
  unfold execAccountRead
  skip
  repeat' (first | exact .next | exact goes_when | refine goes_clocked ?_ | exact goes_hostCmd | exact goes_sessionCmd | exact goes_onWrite | exact goes_onMsg | exact goes_onRouted | exact goes_resetReq | split | (dsimp only; split))

theorem execDescriptorFetch_goes (s : State) : ∀ ring desc, wellFormed (.descriptorFetch ring desc) = true → Goes (execDescriptorFetch ring desc s) := by
  intro ring desc h
  unfold execDescriptorFetch
  refine goes_formed h ?_
  repeat' (first | exact .next | exact goes_when | refine goes_clocked ?_ | exact goes_hostCmd | exact goes_sessionCmd | exact goes_onWrite | exact goes_onMsg | exact goes_onRouted | exact goes_resetReq | split | (dsimp only; split))

theorem execTokenRefill_goes (s : State) : ∀ (_ : Unit), wellFormed (.tokenRefill ) = true → Goes (execTokenRefill  s) := by
  intro _ h
  unfold execTokenRefill
  skip
  repeat' (first | exact .next | exact goes_when | refine goes_clocked ?_ | exact goes_hostCmd | exact goes_sessionCmd | exact goes_onWrite | exact goes_onMsg | exact goes_onRouted | exact goes_resetReq | split | (dsimp only; split))

theorem execSqTail_goes (s : State) : ∀ ring value, wellFormed (.sqTail ring value) = true → Goes (execSqTail ring value s) := by
  intro ring value h
  unfold execSqTail
  refine goes_formed h ?_
  repeat' (first | exact .next | exact goes_when | refine goes_clocked ?_ | exact goes_hostCmd | exact goes_sessionCmd | exact goes_onWrite | exact goes_onMsg | exact goes_onRouted | exact goes_resetReq | split | (dsimp only; split))

theorem execCqHead_goes (s : State) : ∀ ring value, wellFormed (.cqHead ring value) = true → Goes (execCqHead ring value s) := by
  intro ring value h
  unfold execCqHead
  refine goes_formed h ?_
  repeat' (first | exact .next | exact goes_when | refine goes_clocked ?_ | exact goes_hostCmd | exact goes_sessionCmd | exact goes_onWrite | exact goes_onMsg | exact goes_onRouted | exact goes_resetReq | split | (dsimp only; split))

theorem execAck_goes (s : State) : ∀ ring data, wellFormed (.ack ring data) = true → Goes (execAck ring data s) := by
  intro ring data h
  unfold execAck
  refine goes_formed h ?_
  repeat' (first | exact .next | exact goes_when | refine goes_clocked ?_ | exact goes_hostCmd | exact goes_sessionCmd | exact goes_onWrite | exact goes_onMsg | exact goes_onRouted | exact goes_resetReq | split | (dsimp only; split))

theorem execSlotSel_goes (s : State) : ∀ ring off data, wellFormed (.slotSel ring off data) = true → Goes (execSlotSel ring off data s) := by
  intro ring off data h
  unfold execSlotSel
  refine goes_formed h ?_
  repeat' (first | exact .next | exact goes_when | refine goes_clocked ?_ | exact goes_hostCmd | exact goes_sessionCmd | exact goes_onWrite | exact goes_onMsg | exact goes_onRouted | exact goes_resetReq | split | (dsimp only; split))

theorem execSlotApertureWrite_goes (s : State) : ∀ ring off data, wellFormed (.slotApertureWrite ring off data) = true → Goes (execSlotApertureWrite ring off data s) := by
  intro ring off data h
  unfold execSlotApertureWrite
  refine goes_formed h ?_
  repeat' (first | exact .next | exact goes_when | refine goes_clocked ?_ | exact goes_hostCmd | exact goes_sessionCmd | exact goes_onWrite | exact goes_onMsg | exact goes_onRouted | exact goes_resetReq | split | (dsimp only; split))

theorem execBar2Write_goes (s : State) : ∀ addr data, wellFormed (.bar2Write addr data) = true → Goes (execBar2Write addr data s) := by
  intro addr data h
  unfold execBar2Write
  skip
  repeat' (first | exact .next | exact goes_when | refine goes_clocked ?_ | exact goes_hostCmd | exact goes_sessionCmd | exact goes_onWrite | exact goes_onMsg | exact goes_onRouted | exact goes_resetReq | split | (dsimp only; split))

theorem execBar2Read_goes (s : State) : ∀ addr len, wellFormed (.bar2Read addr len) = true → Goes (execBar2Read addr len s) := by
  intro addr len h
  unfold execBar2Read
  skip
  repeat' (first | exact .next | exact goes_when | refine goes_clocked ?_ | exact goes_hostCmd | exact goes_sessionCmd | exact goes_onWrite | exact goes_onMsg | exact goes_onRouted | exact goes_resetReq | split | (dsimp only; split))

theorem execBar4Access_goes (s : State) : ∀ addr len data, wellFormed (.bar4Access addr len data) = true → Goes (execBar4Access addr len data s) := by
  intro addr len data h
  unfold execBar4Access
  skip
  repeat' (first | exact .next | exact goes_when | refine goes_clocked ?_ | exact goes_hostCmd | exact goes_sessionCmd | exact goes_onWrite | exact goes_onMsg | exact goes_onRouted | exact goes_resetReq | split | (dsimp only; split))

theorem execCompletionPost_goes (s : State) : ∀ ring, wellFormed (.completionPost ring) = true → Goes (execCompletionPost ring s) := by
  intro ring h
  unfold execCompletionPost
  refine goes_formed h ?_
  repeat' (first | exact .next | exact goes_when | refine goes_clocked ?_ | exact goes_hostCmd | exact goes_sessionCmd | exact goes_onWrite | exact goes_onMsg | exact goes_onRouted | exact goes_resetReq | split | (dsimp only; split))

theorem execCoalTimeExpiry_goes (s : State) : ∀ ring, wellFormed (.coalTimeExpiry ring) = true → Goes (execCoalTimeExpiry ring s) := by
  intro ring h
  unfold execCoalTimeExpiry
  refine goes_formed h ?_
  repeat' (first | exact .next | exact goes_when | refine goes_clocked ?_ | exact goes_hostCmd | exact goes_sessionCmd | exact goes_onWrite | exact goes_onMsg | exact goes_onRouted | exact goes_resetReq | split | (dsimp only; split))

theorem execDeliveryWrite_goes (s : State) : ∀ (_ : Unit), wellFormed (.deliveryWrite ) = true → Goes (execDeliveryWrite  s) := by
  intro _ h
  unfold execDeliveryWrite
  skip
  repeat' (first | exact .next | exact goes_when | refine goes_clocked ?_ | exact goes_hostCmd | exact goes_sessionCmd | exact goes_onWrite | exact goes_onMsg | exact goes_onRouted | exact goes_resetReq | split | (dsimp only; split))

theorem execKeyInstall_goes (s : State) : ∀ slot tenant, wellFormed (.keyInstall slot tenant) = true → Goes (execKeyInstall slot tenant s) := by
  intro slot tenant h
  unfold execKeyInstall
  refine goes_formed h ?_
  repeat' (first | exact .next | exact goes_when | refine goes_clocked ?_ | exact goes_hostCmd | exact goes_sessionCmd | exact goes_onWrite | exact goes_onMsg | exact goes_onRouted | exact goes_resetReq | split | (dsimp only; split))

theorem execKeySelect_goes (s : State) : ∀ slot tenant, wellFormed (.keySelect slot tenant) = true → Goes (execKeySelect slot tenant s) := by
  intro slot tenant h
  unfold execKeySelect
  refine goes_formed h ?_
  repeat' (first | exact .next | exact goes_when | refine goes_clocked ?_ | exact goes_hostCmd | exact goes_sessionCmd | exact goes_onWrite | exact goes_onMsg | exact goes_onRouted | exact goes_resetReq | split | (dsimp only; split))

theorem execKeyDeselect_goes (s : State) : ∀ slot tenant, wellFormed (.keyDeselect slot tenant) = true → Goes (execKeyDeselect slot tenant s) := by
  intro slot tenant h
  unfold execKeyDeselect
  refine goes_formed h ?_
  repeat' (first | exact .next | exact goes_when | refine goes_clocked ?_ | exact goes_hostCmd | exact goes_sessionCmd | exact goes_onWrite | exact goes_onMsg | exact goes_onRouted | exact goes_resetReq | split | (dsimp only; split))

theorem execCutKey_goes (s : State) : ∀ slot tenant, wellFormed (.cutKey slot tenant) = true → Goes (execCutKey slot tenant s) := by
  intro slot tenant h
  unfold execCutKey
  skip
  repeat' (first | exact .next | exact goes_when | refine goes_clocked ?_ | exact goes_hostCmd | exact goes_sessionCmd | exact goes_onWrite | exact goes_onMsg | exact goes_onRouted | exact goes_resetReq | split | (dsimp only; split))

theorem execRegisterWrite_goes (s : State) : ∀ fw off data, wellFormed (.registerWrite fw off data) = true → Goes (execRegisterWrite fw off data s) := by
  intro fw off data h
  unfold execRegisterWrite
  skip
  repeat' (first | exact .next | exact goes_when | refine goes_clocked ?_ | exact goes_hostCmd | exact goes_sessionCmd | exact goes_onWrite | exact goes_onMsg | exact goes_onRouted | exact goes_resetReq | split | (dsimp only; split))

theorem execPerstNAssert_goes (s : State) : ∀ down, wellFormed (.perstNAssert down) = true → Goes (execPerstNAssert down s) := by
  intro down h
  unfold execPerstNAssert
  skip
  repeat' (first | exact .next | exact goes_when | refine goes_clocked ?_ | exact goes_hostCmd | exact goes_sessionCmd | exact goes_onWrite | exact goes_onMsg | exact goes_onRouted | exact goes_resetReq | split | (dsimp only; split))

theorem execLinkTraining_goes (s : State) : ∀ width speed cxl flit, wellFormed (.linkTraining width speed cxl flit) = true → Goes (execLinkTraining width speed cxl flit s) := by
  intro width speed cxl flit h
  unfold execLinkTraining
  refine goes_formed h ?_
  repeat' (first | exact .next | exact goes_when | refine goes_clocked ?_ | exact goes_hostCmd | exact goes_sessionCmd | exact goes_onWrite | exact goes_onMsg | exact goes_onRouted | exact goes_resetReq | split | (dsimp only; split))

theorem execD3hotToD0_goes (s : State) : ∀ (_ : Unit), wellFormed (.d3hotToD0 ) = true → Goes (execD3hotToD0  s) := by
  intro _ h
  unfold execD3hotToD0
  skip
  repeat' (first | exact .next | exact goes_when | refine goes_clocked ?_ | exact goes_hostCmd | exact goes_sessionCmd | exact goes_onWrite | exact goes_onMsg | exact goes_onRouted | exact goes_resetReq | split | (dsimp only; split))

theorem execColdReset_goes (s : State) : ∀ (_ : Unit), wellFormed (.coldReset ) = true → Goes (execColdReset  s) := by
  intro _ h
  unfold execColdReset
  skip
  repeat' (first | exact .next | exact goes_when | refine goes_clocked ?_ | exact goes_hostCmd | exact goes_sessionCmd | exact goes_onWrite | exact goes_onMsg | exact goes_onRouted | exact goes_resetReq | split | (dsimp only; split))

theorem execWarmReset_goes (s : State) : ∀ (_ : Unit), wellFormed (.warmReset ) = true → Goes (execWarmReset  s) := by
  intro _ h
  unfold execWarmReset
  skip
  repeat' (first | exact .next | exact goes_when | refine goes_clocked ?_ | exact goes_hostCmd | exact goes_sessionCmd | exact goes_onWrite | exact goes_onMsg | exact goes_onRouted | exact goes_resetReq | split | (dsimp only; split))

theorem execDeviceReset_goes (s : State) : ∀ (_ : Unit), wellFormed (.deviceReset ) = true → Goes (execDeviceReset  s) := by
  intro _ h
  unfold execDeviceReset
  skip
  repeat' (first | exact .next | exact goes_when | refine goes_clocked ?_ | exact goes_hostCmd | exact goes_sessionCmd | exact goes_onWrite | exact goes_onMsg | exact goes_onRouted | exact goes_resetReq | split | (dsimp only; split))

theorem execContextReset_goes (s : State) : ∀ (_ : Unit), wellFormed (.contextReset ) = true → Goes (execContextReset  s) := by
  intro _ h
  unfold execContextReset
  skip
  repeat' (first | exact .next | exact goes_when | refine goes_clocked ?_ | exact goes_hostCmd | exact goes_sessionCmd | exact goes_onWrite | exact goes_onMsg | exact goes_onRouted | exact goes_resetReq | split | (dsimp only; split))

theorem execResetReqDevice_goes (s : State) : ∀ (_ : Unit), wellFormed (.resetReqDevice ) = true → Goes (execResetReqDevice  s) := by
  intro _ h
  unfold execResetReqDevice
  skip
  repeat' (first | exact .next | exact goes_when | refine goes_clocked ?_ | exact goes_hostCmd | exact goes_sessionCmd | exact goes_onWrite | exact goes_onMsg | exact goes_onRouted | exact goes_resetReq | split | (dsimp only; split))

theorem execResetReqWarm_goes (s : State) : ∀ (_ : Unit), wellFormed (.resetReqWarm ) = true → Goes (execResetReqWarm  s) := by
  intro _ h
  unfold execResetReqWarm
  skip
  repeat' (first | exact .next | exact goes_when | refine goes_clocked ?_ | exact goes_hostCmd | exact goes_sessionCmd | exact goes_onWrite | exact goes_onMsg | exact goes_onRouted | exact goes_resetReq | split | (dsimp only; split))

theorem execResetReqCold_goes (s : State) : ∀ (_ : Unit), wellFormed (.resetReqCold ) = true → Goes (execResetReqCold  s) := by
  intro _ h
  unfold execResetReqCold
  skip
  repeat' (first | exact .next | exact goes_when | refine goes_clocked ?_ | exact goes_hostCmd | exact goes_sessionCmd | exact goes_onWrite | exact goes_onMsg | exact goes_onRouted | exact goes_resetReq | split | (dsimp only; split))

theorem execPowerOn_goes (s : State) : ∀ head, wellFormed (.powerOn head) = true → Goes (execPowerOn head s) := by
  intro head h
  unfold execPowerOn
  skip
  repeat' (first | exact .next | exact goes_when | refine goes_clocked ?_ | exact goes_hostCmd | exact goes_sessionCmd | exact goes_onWrite | exact goes_onMsg | exact goes_onRouted | exact goes_resetReq | split | (dsimp only; split))

theorem execRailsPgCheck_goes (s : State) : ∀ level, wellFormed (.railsPgCheck level) = true → Goes (execRailsPgCheck level s) := by
  intro level h
  unfold execRailsPgCheck
  skip
  repeat' (first | exact .next | exact goes_when | refine goes_clocked ?_ | exact goes_hostCmd | exact goes_sessionCmd | exact goes_onWrite | exact goes_onMsg | exact goes_onRouted | exact goes_resetReq | split | (dsimp only; split))

theorem execRailsPgFall_goes (s : State) : ∀ (_ : Unit), wellFormed (.railsPgFall ) = true → Goes (execRailsPgFall  s) := by
  intro _ h
  unfold execRailsPgFall
  skip
  repeat' (first | exact .next | exact goes_when | refine goes_clocked ?_ | exact goes_hostCmd | exact goes_sessionCmd | exact goes_onWrite | exact goes_onMsg | exact goes_onRouted | exact goes_resetReq | split | (dsimp only; split))

theorem execDuskEntry_goes (s : State) : ∀ (_ : Unit), wellFormed (.duskEntry ) = true → Goes (execDuskEntry  s) := by
  intro _ h
  unfold execDuskEntry
  skip
  repeat' (first | exact .next | exact goes_when | refine goes_clocked ?_ | exact goes_hostCmd | exact goes_sessionCmd | exact goes_onWrite | exact goes_onMsg | exact goes_onRouted | exact goes_resetReq | split | (dsimp only; split))

theorem execDuskExit_goes (s : State) : ∀ (_ : Unit), wellFormed (.duskExit ) = true → Goes (execDuskExit  s) := by
  intro _ h
  unfold execDuskExit
  skip
  repeat' (first | exact .next | exact goes_when | refine goes_clocked ?_ | exact goes_hostCmd | exact goes_sessionCmd | exact goes_onWrite | exact goes_onMsg | exact goes_onRouted | exact goes_resetReq | split | (dsimp only; split))

theorem execTwilightEntry_goes (s : State) : ∀ (_ : Unit), wellFormed (.twilightEntry ) = true → Goes (execTwilightEntry  s) := by
  intro _ h
  unfold execTwilightEntry
  skip
  repeat' (first | exact .next | exact goes_when | refine goes_clocked ?_ | exact goes_hostCmd | exact goes_sessionCmd | exact goes_onWrite | exact goes_onMsg | exact goes_onRouted | exact goes_resetReq | split | (dsimp only; split))

theorem execTwilightExit_goes (s : State) : ∀ (_ : Unit), wellFormed (.twilightExit ) = true → Goes (execTwilightExit  s) := by
  intro _ h
  unfold execTwilightExit
  skip
  repeat' (first | exact .next | exact goes_when | refine goes_clocked ?_ | exact goes_hostCmd | exact goes_sessionCmd | exact goes_onWrite | exact goes_onMsg | exact goes_onRouted | exact goes_resetReq | split | (dsimp only; split))

theorem execNightEntry_goes (s : State) : ∀ (_ : Unit), wellFormed (.nightEntry ) = true → Goes (execNightEntry  s) := by
  intro _ h
  unfold execNightEntry
  skip
  repeat' (first | exact .next | exact goes_when | refine goes_clocked ?_ | exact goes_hostCmd | exact goes_sessionCmd | exact goes_onWrite | exact goes_onMsg | exact goes_onRouted | exact goes_resetReq | split | (dsimp only; split))

theorem execNightExit_goes (s : State) : ∀ (_ : Unit), wellFormed (.nightExit ) = true → Goes (execNightExit  s) := by
  intro _ h
  unfold execNightExit
  skip
  repeat' (first | exact .next | exact goes_when | refine goes_clocked ?_ | exact goes_hostCmd | exact goes_sessionCmd | exact goes_onWrite | exact goes_onMsg | exact goes_onRouted | exact goes_resetReq | split | (dsimp only; split))

theorem execSupplyLow_goes (s : State) : ∀ vcore pwrWarn, wellFormed (.supplyLow vcore pwrWarn) = true → Goes (execSupplyLow vcore pwrWarn s) := by
  intro vcore pwrWarn h
  unfold execSupplyLow
  skip
  repeat' (first | exact .next | exact goes_when | refine goes_clocked ?_ | exact goes_hostCmd | exact goes_sessionCmd | exact goes_onWrite | exact goes_onMsg | exact goes_onRouted | exact goes_resetReq | split | (dsimp only; split))

theorem execSupplyRecover_goes (s : State) : ∀ vcore, wellFormed (.supplyRecover vcore) = true → Goes (execSupplyRecover vcore s) := by
  intro vcore h
  unfold execSupplyRecover
  skip
  repeat' (first | exact .next | exact goes_when | refine goes_clocked ?_ | exact goes_hostCmd | exact goes_sessionCmd | exact goes_onWrite | exact goes_onMsg | exact goes_onRouted | exact goes_resetReq | split | (dsimp only; split))

theorem execControlledStop_goes (s : State) : ∀ (_ : Unit), wellFormed (.controlledStop ) = true → Goes (execControlledStop  s) := by
  intro _ h
  unfold execControlledStop
  skip
  repeat' (first | exact .next | exact goes_when | refine goes_clocked ?_ | exact goes_hostCmd | exact goes_sessionCmd | exact goes_onWrite | exact goes_onMsg | exact goes_onRouted | exact goes_resetReq | split | (dsimp only; split))

theorem execStopRecovery_goes (s : State) : ∀ vcore, wellFormed (.stopRecovery vcore) = true → Goes (execStopRecovery vcore s) := by
  intro vcore h
  unfold execStopRecovery
  skip
  repeat' (first | exact .next | exact goes_when | refine goes_clocked ?_ | exact goes_hostCmd | exact goes_sessionCmd | exact goes_onWrite | exact goes_onMsg | exact goes_onRouted | exact goes_resetReq | split | (dsimp only; split))

theorem execVcoreResetLevel_goes (s : State) : ∀ vcore, wellFormed (.vcoreResetLevel vcore) = true → Goes (execVcoreResetLevel vcore s) := by
  intro vcore h
  unfold execVcoreResetLevel
  skip
  repeat' (first | exact .next | exact goes_when | refine goes_clocked ?_ | exact goes_hostCmd | exact goes_sessionCmd | exact goes_onWrite | exact goes_onMsg | exact goes_onRouted | exact goes_resetReq | split | (dsimp only; split))

theorem execThermalSample_goes (s : State) : ∀ readings, wellFormed (.thermalSample readings) = true → Goes (execThermalSample readings s) := by
  intro readings h
  unfold execThermalSample
  refine goes_formed h ?_
  repeat' (first | exact .next | exact goes_when | refine goes_clocked ?_ | exact goes_hostCmd | exact goes_sessionCmd | exact goes_onWrite | exact goes_onMsg | exact goes_onRouted | exact goes_resetReq | split | (dsimp only; split))

theorem execThermalTrip_goes (s : State) : ∀ (_ : Unit), wellFormed (.thermalTrip ) = true → Goes (execThermalTrip  s) := by
  intro _ h
  unfold execThermalTrip
  skip
  repeat' (first | exact .next | exact goes_when | refine goes_clocked ?_ | exact goes_hostCmd | exact goes_sessionCmd | exact goes_onWrite | exact goes_onMsg | exact goes_onRouted | exact goes_resetReq | split | (dsimp only; split))

theorem execAnalogThermtrip_goes (s : State) : ∀ sensor, wellFormed (.analogThermtrip sensor) = true → Goes (execAnalogThermtrip sensor s) := by
  intro sensor h
  unfold execAnalogThermtrip
  refine goes_formed h ?_
  repeat' (first | exact .next | exact goes_when | refine goes_clocked ?_ | exact goes_hostCmd | exact goes_sessionCmd | exact goes_onWrite | exact goes_onMsg | exact goes_onRouted | exact goes_resetReq | split | (dsimp only; split))

theorem execTrippedClear_goes (s : State) : ∀ (_ : Unit), wellFormed (.trippedClear ) = true → Goes (execTrippedClear  s) := by
  intro _ h
  unfold execTrippedClear
  skip
  repeat' (first | exact .next | exact goes_when | refine goes_clocked ?_ | exact goes_hostCmd | exact goes_sessionCmd | exact goes_onWrite | exact goes_onMsg | exact goes_onRouted | exact goes_resetReq | split | (dsimp only; split))

theorem execAvsPoll_goes (s : State) : ∀ ok vcore amps, wellFormed (.avsPoll ok vcore amps) = true → Goes (execAvsPoll ok vcore amps s) := by
  intro ok vcore amps h
  unfold execAvsPoll
  skip
  repeat' (first | exact .next | exact goes_when | refine goes_clocked ?_ | exact goes_hostCmd | exact goes_sessionCmd | exact goes_onWrite | exact goes_onMsg | exact goes_onRouted | exact goes_resetReq | split | (dsimp only; split))

theorem execVcoreSet_goes (s : State) : ∀ sent, wellFormed (.vcoreSet sent) = true → Goes (execVcoreSet s sent) := by
  intro sent h
  unfold execVcoreSet
  skip
  repeat' (first | exact .next | exact goes_when | refine goes_clocked ?_ | exact goes_hostCmd | exact goes_sessionCmd | exact goes_onWrite | exact goes_onMsg | exact goes_onRouted | exact goes_resetReq | split | (dsimp only; split))

theorem execRefclkLoss_goes (s : State) : ∀ (_ : Unit), wellFormed (.refclkLoss ) = true → Goes (execRefclkLoss  s) := by
  intro _ h
  unfold execRefclkLoss
  skip
  repeat' (first | exact .next | exact goes_when | refine goes_clocked ?_ | exact goes_hostCmd | exact goes_sessionCmd | exact goes_onWrite | exact goes_onMsg | exact goes_onRouted | exact goes_resetReq | split | (dsimp only; split))

theorem execRefclkReturn_goes (s : State) : ∀ (_ : Unit), wellFormed (.refclkReturn ) = true → Goes (execRefclkReturn  s) := by
  intro _ h
  unfold execRefclkReturn
  skip
  repeat' (first | exact .next | exact goes_when | refine goes_clocked ?_ | exact goes_hostCmd | exact goes_sessionCmd | exact goes_onWrite | exact goes_onMsg | exact goes_onRouted | exact goes_resetReq | split | (dsimp only; split))

theorem execWdtKick_goes (s : State) : ∀ fw, wellFormed (.wdtKick fw) = true → Goes (execWdtKick fw s) := by
  intro fw h
  unfold execWdtKick
  skip
  repeat' (first | exact .next | exact goes_when | refine goes_clocked ?_ | exact goes_hostCmd | exact goes_sessionCmd | exact goes_onWrite | exact goes_onMsg | exact goes_onRouted | exact goes_resetReq | split | (dsimp only; split))

theorem execWdtPeriod_goes (s : State) : ∀ (_ : Unit), wellFormed (.wdtPeriod ) = true → Goes (execWdtPeriod  s) := by
  intro _ h
  unfold execWdtPeriod
  skip
  repeat' (first | exact .next | exact goes_when | refine goes_clocked ?_ | exact goes_hostCmd | exact goes_sessionCmd | exact goes_onWrite | exact goes_onMsg | exact goes_onRouted | exact goes_resetReq | split | (dsimp only; split))

theorem execWdtExpiry_goes (s : State) : ∀ (_ : Unit), wellFormed (.wdtExpiry ) = true → Goes (execWdtExpiry  s) := by
  intro _ h
  unfold execWdtExpiry
  skip
  repeat' (first | exact .next | exact goes_when | refine goes_clocked ?_ | exact goes_hostCmd | exact goes_sessionCmd | exact goes_onWrite | exact goes_onMsg | exact goes_onRouted | exact goes_resetReq | split | (dsimp only; split))

theorem execSidebandFrameReceive_goes (s : State) : ∀ dst src etherType fcsOk pdu, wellFormed (.sidebandFrameReceive dst src etherType fcsOk pdu) = true → Goes (execSidebandFrameReceive dst src etherType fcsOk pdu s) := by
  intro dst src etherType fcsOk pdu h
  unfold execSidebandFrameReceive
  skip
  repeat' (first | exact .next | exact goes_when | refine goes_clocked ?_ | exact goes_hostCmd | exact goes_sessionCmd | exact goes_onWrite | exact goes_onMsg | exact goes_onRouted | exact goes_resetReq | split | (dsimp only; split))

theorem execRead_goes (s : State) : ∀ (_ : Unit), wellFormed (.read ) = true → Goes (execRead  s) := by
  intro _ h
  unfold execRead
  skip
  repeat' (first | exact .next | exact goes_when | refine goes_clocked ?_ | exact goes_hostCmd | exact goes_sessionCmd | exact goes_onWrite | exact goes_onMsg | exact goes_onRouted | exact goes_resetReq | split | (dsimp only; split))

theorem execWrite_goes (s : State) : ∀ (_ : Unit), wellFormed (.write ) = true → Goes (execWrite  s) := by
  intro _ h
  unfold execWrite
  skip
  repeat' (first | exact .next | exact goes_when | refine goes_clocked ?_ | exact goes_hostCmd | exact goes_sessionCmd | exact goes_onWrite | exact goes_onMsg | exact goes_onRouted | exact goes_resetReq | split | (dsimp only; split))

theorem execDescribe_goes (s : State) : ∀ (_ : Unit), wellFormed (.describe ) = true → Goes (execDescribe  s) := by
  intro _ h
  unfold execDescribe
  skip
  repeat' (first | exact .next | exact goes_when | refine goes_clocked ?_ | exact goes_hostCmd | exact goes_sessionCmd | exact goes_onWrite | exact goes_onMsg | exact goes_onRouted | exact goes_resetReq | split | (dsimp only; split))

theorem execDiscover_goes (s : State) : ∀ (_ : Unit), wellFormed (.discover ) = true → Goes (execDiscover  s) := by
  intro _ h
  unfold execDiscover
  skip
  repeat' (first | exact .next | exact goes_when | refine goes_clocked ?_ | exact goes_hostCmd | exact goes_sessionCmd | exact goes_onWrite | exact goes_onMsg | exact goes_onRouted | exact goes_resetReq | split | (dsimp only; split))

theorem execEvent_goes (s : State) : ∀ (_ : Unit), wellFormed (.event ) = true → Goes (execEvent  s) := by
  intro _ h
  unfold execEvent
  skip
  repeat' (first | exact .next | exact goes_when | refine goes_clocked ?_ | exact goes_hostCmd | exact goes_sessionCmd | exact goes_onWrite | exact goes_onMsg | exact goes_onRouted | exact goes_resetReq | split | (dsimp only; split))

theorem execReadSnapshotExpiry_goes (s : State) : ∀ index, wellFormed (.readSnapshotExpiry index) = true → Goes (execReadSnapshotExpiry index s) := by
  intro index h
  unfold execReadSnapshotExpiry
  skip
  repeat' (first | exact .next | exact goes_when | refine goes_clocked ?_ | exact goes_hostCmd | exact goes_sessionCmd | exact goes_onWrite | exact goes_onMsg | exact goes_onRouted | exact goes_resetReq | split | (dsimp only; split))

theorem execHomeFTimeout_goes (s : State) : ∀ (_ : Unit), wellFormed (.homeFTimeout ) = true → Goes (execHomeFTimeout  s) := by
  intro _ h
  unfold execHomeFTimeout
  skip
  repeat' (first | exact .next | exact goes_when | refine goes_clocked ?_ | exact goes_hostCmd | exact goes_sessionCmd | exact goes_onWrite | exact goes_onMsg | exact goes_onRouted | exact goes_resetReq | split | (dsimp only; split))

theorem execGo_goes (s : State) : ∀ (_ : Unit), wellFormed (.go ) = true → Goes (execGo  s) := by
  intro _ h
  unfold execGo
  skip
  repeat' (first | exact .next | exact goes_when | refine goes_clocked ?_ | exact goes_hostCmd | exact goes_sessionCmd | exact goes_onWrite | exact goes_onMsg | exact goes_onRouted | exact goes_resetReq | split | (dsimp only; split))

theorem execNodeId_goes (s : State) : ∀ (_ : Unit), wellFormed (.nodeId ) = true → Goes (execNodeId  s) := by
  intro _ h
  unfold execNodeId
  skip
  repeat' (first | exact .next | exact goes_when | refine goes_clocked ?_ | exact goes_hostCmd | exact goes_sessionCmd | exact goes_onWrite | exact goes_onMsg | exact goes_onRouted | exact goes_resetReq | split | (dsimp only; split))

theorem execConfigCommit_goes (s : State) : ∀ (_ : Unit), wellFormed (.configCommit ) = true → Goes (execConfigCommit  s) := by
  intro _ h
  unfold execConfigCommit
  skip
  repeat' (first | exact .next | exact goes_when | refine goes_clocked ?_ | exact goes_hostCmd | exact goes_sessionCmd | exact goes_onWrite | exact goes_onMsg | exact goes_onRouted | exact goes_resetReq | split | (dsimp only; split))

theorem execCrashClear_goes (s : State) : ∀ (_ : Unit), wellFormed (.crashClear ) = true → Goes (execCrashClear  s) := by
  intro _ h
  unfold execCrashClear
  skip
  repeat' (first | exact .next | exact goes_when | refine goes_clocked ?_ | exact goes_hostCmd | exact goes_sessionCmd | exact goes_onWrite | exact goes_onMsg | exact goes_onRouted | exact goes_resetReq | split | (dsimp only; split))

theorem execRetiredClear_goes (s : State) : ∀ (_ : Unit), wellFormed (.retiredClear ) = true → Goes (execRetiredClear  s) := by
  intro _ h
  unfold execRetiredClear
  skip
  repeat' (first | exact .next | exact goes_when | refine goes_clocked ?_ | exact goes_hostCmd | exact goes_sessionCmd | exact goes_onWrite | exact goes_onMsg | exact goes_onRouted | exact goes_resetReq | split | (dsimp only; split))

theorem execHistClear_goes (s : State) : ∀ (_ : Unit), wellFormed (.histClear ) = true → Goes (execHistClear  s) := by
  intro _ h
  unfold execHistClear
  skip
  repeat' (first | exact .next | exact goes_when | refine goes_clocked ?_ | exact goes_hostCmd | exact goes_sessionCmd | exact goes_onWrite | exact goes_onMsg | exact goes_onRouted | exact goes_resetReq | split | (dsimp only; split))

theorem execAccountClear_goes (s : State) : ∀ (_ : Unit), wellFormed (.accountClear ) = true → Goes (execAccountClear  s) := by
  intro _ h
  unfold execAccountClear
  skip
  repeat' (first | exact .next | exact goes_when | refine goes_clocked ?_ | exact goes_hostCmd | exact goes_sessionCmd | exact goes_onWrite | exact goes_onMsg | exact goes_onRouted | exact goes_resetReq | split | (dsimp only; split))

theorem execRejoin_goes (s : State) : ∀ (_ : Unit), wellFormed (.rejoin ) = true → Goes (execRejoin  s) := by
  intro _ h
  unfold execRejoin
  skip
  repeat' (first | exact .next | exact goes_when | refine goes_clocked ?_ | exact goes_hostCmd | exact goes_sessionCmd | exact goes_onWrite | exact goes_onMsg | exact goes_onRouted | exact goes_resetReq | split | (dsimp only; split))

theorem execFormDomain_goes (s : State) : ∀ (_ : Unit), wellFormed (.formDomain ) = true → Goes (execFormDomain  s) := by
  intro _ h
  unfold execFormDomain
  skip
  repeat' (first | exact .next | exact goes_when | refine goes_clocked ?_ | exact goes_hostCmd | exact goes_sessionCmd | exact goes_onWrite | exact goes_onMsg | exact goes_onRouted | exact goes_resetReq | split | (dsimp only; split))

theorem execMemberReq_goes (s : State) : ∀ (_ : Unit), wellFormed (.memberReq ) = true → Goes (execMemberReq  s) := by
  intro _ h
  unfold execMemberReq
  skip
  repeat' (first | exact .next | exact goes_when | refine goes_clocked ?_ | exact goes_hostCmd | exact goes_sessionCmd | exact goes_onWrite | exact goes_onMsg | exact goes_onRouted | exact goes_resetReq | split | (dsimp only; split))

theorem execChainOnly_goes (s : State) : ∀ (_ : Unit), wellFormed (.chainOnly ) = true → Goes (execChainOnly  s) := by
  intro _ h
  unfold execChainOnly
  skip
  repeat' (first | exact .next | exact goes_when | refine goes_clocked ?_ | exact goes_hostCmd | exact goes_sessionCmd | exact goes_onWrite | exact goes_onMsg | exact goes_onRouted | exact goes_resetReq | split | (dsimp only; split))

theorem execPortFence_goes (s : State) : ∀ (_ : Unit), wellFormed (.portFence ) = true → Goes (execPortFence  s) := by
  intro _ h
  unfold execPortFence
  skip
  repeat' (first | exact .next | exact goes_when | refine goes_clocked ?_ | exact goes_hostCmd | exact goes_sessionCmd | exact goes_onWrite | exact goes_onMsg | exact goes_onRouted | exact goes_resetReq | split | (dsimp only; split))

theorem execImageStart_goes (s : State) : ∀ (_ : Unit), wellFormed (.imageStart ) = true → Goes (execImageStart  s) := by
  intro _ h
  unfold execImageStart
  skip
  repeat' (first | exact .next | exact goes_when | refine goes_clocked ?_ | exact goes_hostCmd | exact goes_sessionCmd | exact goes_onWrite | exact goes_onMsg | exact goes_onRouted | exact goes_resetReq | split | (dsimp only; split))

theorem execImageData_goes (s : State) : ∀ (_ : Unit), wellFormed (.imageData ) = true → Goes (execImageData  s) := by
  intro _ h
  unfold execImageData
  skip
  repeat' (first | exact .next | exact goes_when | refine goes_clocked ?_ | exact goes_hostCmd | exact goes_sessionCmd | exact goes_onWrite | exact goes_onMsg | exact goes_onRouted | exact goes_resetReq | split | (dsimp only; split))

theorem execImageVerify_goes (s : State) : ∀ (_ : Unit), wellFormed (.imageVerify ) = true → Goes (execImageVerify  s) := by
  intro _ h
  unfold execImageVerify
  skip
  repeat' (first | exact .next | exact goes_when | refine goes_clocked ?_ | exact goes_hostCmd | exact goes_sessionCmd | exact goes_onWrite | exact goes_onMsg | exact goes_onRouted | exact goes_resetReq | split | (dsimp only; split))

theorem execVerifyDone_goes (s : State) : ∀ (_ : Unit), wellFormed (.verifyDone ) = true → Goes (execVerifyDone  s) := by
  intro _ h
  unfold execVerifyDone
  skip
  repeat' (first | exact .next | exact goes_when | refine goes_clocked ?_ | exact goes_hostCmd | exact goes_sessionCmd | exact goes_onWrite | exact goes_onMsg | exact goes_onRouted | exact goes_resetReq | split | (dsimp only; split))

theorem execImageRun_goes (s : State) : ∀ (_ : Unit), wellFormed (.imageRun ) = true → Goes (execImageRun  s) := by
  intro _ h
  unfold execImageRun
  skip
  repeat' (first | exact .next | exact goes_when | refine goes_clocked ?_ | exact goes_hostCmd | exact goes_sessionCmd | exact goes_onWrite | exact goes_onMsg | exact goes_onRouted | exact goes_resetReq | split | (dsimp only; split))

theorem execSettingStartDone_goes (s : State) : ∀ hbmOk t2Fail sramOk, wellFormed (.settingStartDone hbmOk t2Fail sramOk) = true → Goes (execSettingStartDone hbmOk t2Fail sramOk s) := by
  intro hbmOk t2Fail sramOk h
  unfold execSettingStartDone
  refine goes_formed h ?_
  repeat' (first | exact .next | exact goes_when | refine goes_clocked ?_ | exact goes_hostCmd | exact goes_sessionCmd | exact goes_onWrite | exact goes_onMsg | exact goes_onRouted | exact goes_resetReq | split | (dsimp only; split))

theorem execSettingStartTimeout_goes (s : State) : ∀ (_ : Unit), wellFormed (.settingStartTimeout ) = true → Goes (execSettingStartTimeout  s) := by
  intro _ h
  unfold execSettingStartTimeout
  skip
  repeat' (first | exact .next | exact goes_when | refine goes_clocked ?_ | exact goes_hostCmd | exact goes_sessionCmd | exact goes_onWrite | exact goes_onMsg | exact goes_onRouted | exact goes_resetReq | split | (dsimp only; split))

theorem execImageReplicate_goes (s : State) : ∀ booting, wellFormed (.imageReplicate booting) = true → Goes (execImageReplicate booting s) := by
  intro booting h
  unfold execImageReplicate
  skip
  repeat' (first | exact .next | exact goes_when | refine goes_clocked ?_ | exact goes_hostCmd | exact goes_sessionCmd | exact goes_onWrite | exact goes_onMsg | exact goes_onRouted | exact goes_resetReq | split | (dsimp only; split))

theorem execImageTransferReceive_goes (s : State) : ∀ peer num, wellFormed (.imageTransferReceive peer num) = true → Goes (execImageTransferReceive peer num s) := by
  intro peer num h
  unfold execImageTransferReceive
  skip
  repeat' (first | exact .next | exact goes_when | refine goes_clocked ?_ | exact goes_hostCmd | exact goes_sessionCmd | exact goes_onWrite | exact goes_onMsg | exact goes_onRouted | exact goes_resetReq | split | (dsimp only; split))

theorem execPortTrained_goes (s : State) : ∀ port lanes partner partnerPort, wellFormed (.portTrained port lanes partner partnerPort) = true → Goes (execPortTrained port lanes partner partnerPort s) := by
  intro port lanes partner partnerPort h
  unfold execPortTrained
  refine goes_formed h ?_
  repeat' (first | exact .next | exact goes_when | refine goes_clocked ?_ | exact goes_hostCmd | exact goes_sessionCmd | exact goes_onWrite | exact goes_onMsg | exact goes_onRouted | exact goes_resetReq | split | (dsimp only; split))

theorem execPortDown_goes (s : State) : ∀ port, wellFormed (.portDown port) = true → Goes (execPortDown port s) := by
  intro port h
  unfold execPortDown
  refine goes_formed h ?_
  repeat' (first | exact .next | exact goes_when | refine goes_clocked ?_ | exact goes_hostCmd | exact goes_sessionCmd | exact goes_onWrite | exact goes_onMsg | exact goes_onRouted | exact goes_resetReq | split | (dsimp only; split))

theorem execFlitReceive_goes (s : State) : ∀ port flit, wellFormed (.flitReceive port flit) = true → Goes (execFlitReceive port flit s) := by
  intro port flit h
  unfold execFlitReceive
  refine goes_formed h ?_
  repeat' (first | exact .next | exact goes_when | refine goes_clocked ?_ | exact goes_hostCmd | exact goes_sessionCmd | exact goes_onWrite | exact goes_onMsg | exact goes_onRouted | exact goes_resetReq | split | (dsimp only; split))

theorem execFlitForward_goes (s : State) : ∀ port, wellFormed (.flitForward port) = true → Goes (execFlitForward port s) := by
  intro port h
  unfold execFlitForward
  refine goes_formed h ?_
  repeat' (first | exact .next | exact goes_when | refine goes_clocked ?_ | exact goes_hostCmd | exact goes_sessionCmd | exact goes_onWrite | exact goes_onMsg | exact goes_onRouted | exact goes_resetReq | split | (dsimp only; split))

theorem execTransferTimeout_goes (s : State) : ∀ peer num, wellFormed (.transferTimeout peer num) = true → Goes (execTransferTimeout peer num s) := by
  intro peer num h
  unfold execTransferTimeout
  skip
  repeat' (first | exact .next | exact goes_when | refine goes_clocked ?_ | exact goes_hostCmd | exact goes_sessionCmd | exact goes_onWrite | exact goes_onMsg | exact goes_onRouted | exact goes_resetReq | split | (dsimp only; split))

theorem execXferSetup_goes (s : State) : ∀ (_ : Unit), wellFormed (.xferSetup ) = true → Goes (execXferSetup  s) := by
  intro _ h
  unfold execXferSetup
  skip
  repeat' (first | exact .next | exact goes_when | refine goes_clocked ?_ | exact goes_hostCmd | exact goes_sessionCmd | exact goes_onWrite | exact goes_onMsg | exact goes_onRouted | exact goes_resetReq | split | (dsimp only; split))

theorem execXferDone_goes (s : State) : ∀ (_ : Unit), wellFormed (.xferDone ) = true → Goes (execXferDone  s) := by
  intro _ h
  unfold execXferDone
  skip
  repeat' (first | exact .next | exact goes_when | refine goes_clocked ?_ | exact goes_hostCmd | exact goes_sessionCmd | exact goes_onWrite | exact goes_onMsg | exact goes_onRouted | exact goes_resetReq | split | (dsimp only; split))

theorem execFwdRead_goes (s : State) : ∀ (_ : Unit), wellFormed (.fwdRead ) = true → Goes (execFwdRead  s) := by
  intro _ h
  unfold execFwdRead
  skip
  repeat' (first | exact .next | exact goes_when | refine goes_clocked ?_ | exact goes_hostCmd | exact goes_sessionCmd | exact goes_onWrite | exact goes_onMsg | exact goes_onRouted | exact goes_resetReq | split | (dsimp only; split))

theorem execFwdWrite_goes (s : State) : ∀ (_ : Unit), wellFormed (.fwdWrite ) = true → Goes (execFwdWrite  s) := by
  intro _ h
  unfold execFwdWrite
  skip
  repeat' (first | exact .next | exact goes_when | refine goes_clocked ?_ | exact goes_hostCmd | exact goes_sessionCmd | exact goes_onWrite | exact goes_onMsg | exact goes_onRouted | exact goes_resetReq | split | (dsimp only; split))

theorem execFwdCpl_goes (s : State) : ∀ (_ : Unit), wellFormed (.fwdCpl ) = true → Goes (execFwdCpl  s) := by
  intro _ h
  unfold execFwdCpl
  skip
  repeat' (first | exact .next | exact goes_when | refine goes_clocked ?_ | exact goes_hostCmd | exact goes_sessionCmd | exact goes_onWrite | exact goes_onMsg | exact goes_onRouted | exact goes_resetReq | split | (dsimp only; split))

theorem execHostRead_goes (s : State) : ∀ data, wellFormed (.hostRead data) = true → Goes (execHostRead data s) := by
  intro data h
  unfold execHostRead
  skip
  repeat' (first | exact .next | exact goes_when | refine goes_clocked ?_ | exact goes_hostCmd | exact goes_sessionCmd | exact goes_onWrite | exact goes_onMsg | exact goes_onRouted | exact goes_resetReq | split | (dsimp only; split))

theorem execHostWrite_goes (s : State) : ∀ (_ : Unit), wellFormed (.hostWrite ) = true → Goes (execHostWrite  s) := by
  intro _ h
  unfold execHostWrite
  skip
  repeat' (first | exact .next | exact goes_when | refine goes_clocked ?_ | exact goes_hostCmd | exact goes_sessionCmd | exact goes_onWrite | exact goes_onMsg | exact goes_onRouted | exact goes_resetReq | split | (dsimp only; split))

theorem execHostMsix_goes (s : State) : ∀ (_ : Unit), wellFormed (.hostMsix ) = true → Goes (execHostMsix  s) := by
  intro _ h
  unfold execHostMsix
  skip
  repeat' (first | exact .next | exact goes_when | refine goes_clocked ?_ | exact goes_hostCmd | exact goes_sessionCmd | exact goes_onWrite | exact goes_onMsg | exact goes_onRouted | exact goes_resetReq | split | (dsimp only; split))

theorem execChainCount_goes (s : State) : ∀ (_ : Unit), wellFormed (.chainCount ) = true → Goes (execChainCount  s) := by
  intro _ h
  unfold execChainCount
  skip
  repeat' (first | exact .next | exact goes_when | refine goes_clocked ?_ | exact goes_hostCmd | exact goes_sessionCmd | exact goes_onWrite | exact goes_onMsg | exact goes_onRouted | exact goes_resetReq | split | (dsimp only; split))

theorem execTailTimeout_goes (s : State) : ∀ (_ : Unit), wellFormed (.tailTimeout ) = true → Goes (execTailTimeout  s) := by
  intro _ h
  unfold execTailTimeout
  skip
  repeat' (first | exact .next | exact goes_when | refine goes_clocked ?_ | exact goes_hostCmd | exact goes_sessionCmd | exact goes_onWrite | exact goes_onMsg | exact goes_onRouted | exact goes_resetReq | split | (dsimp only; split))

theorem execDelayMeasure_goes (s : State) : ∀ port stamp, wellFormed (.delayMeasure port stamp) = true → Goes (execDelayMeasure port stamp s) := by
  intro port stamp h
  unfold execDelayMeasure
  refine goes_formed h ?_
  repeat' (first | exact .next | exact goes_when | refine goes_clocked ?_ | exact goes_hostCmd | exact goes_sessionCmd | exact goes_onWrite | exact goes_onMsg | exact goes_onRouted | exact goes_resetReq | split | (dsimp only; split))

theorem execDelayReq_goes (s : State) : ∀ arrive leave, wellFormed (.delayReq arrive leave) = true → Goes (execDelayReq arrive leave s) := by
  intro arrive leave h
  unfold execDelayReq
  skip
  repeat' (first | exact .next | exact goes_when | refine goes_clocked ?_ | exact goes_hostCmd | exact goes_sessionCmd | exact goes_onWrite | exact goes_onMsg | exact goes_onRouted | exact goes_resetReq | split | (dsimp only; split))

theorem execDelayResp_goes (s : State) : ∀ arrive, wellFormed (.delayResp arrive) = true → Goes (execDelayResp arrive s) := by
  intro arrive h
  unfold execDelayResp
  skip
  repeat' (first | exact .next | exact goes_when | refine goes_clocked ?_ | exact goes_hostCmd | exact goes_sessionCmd | exact goes_onWrite | exact goes_onMsg | exact goes_onRouted | exact goes_resetReq | split | (dsimp only; split))

theorem execBeaconSend_goes (s : State) : ∀ (_ : Unit), wellFormed (.beaconSend ) = true → Goes (execBeaconSend  s) := by
  intro _ h
  unfold execBeaconSend
  skip
  repeat' (first | exact .next | exact goes_when | refine goes_clocked ?_ | exact goes_hostCmd | exact goes_sessionCmd | exact goes_onWrite | exact goes_onMsg | exact goes_onRouted | exact goes_resetReq | split | (dsimp only; split))

theorem execBeacon_goes (s : State) : ∀ arrive residence, wellFormed (.beacon arrive residence) = true → Goes (execBeacon arrive residence s) := by
  intro arrive residence h
  unfold execBeacon
  skip
  repeat' (first | exact .next | exact goes_when | refine goes_clocked ?_ | exact goes_hostCmd | exact goes_sessionCmd | exact goes_onWrite | exact goes_onMsg | exact goes_onRouted | exact goes_resetReq | split | (dsimp only; split))

theorem execTimePortLost_goes (s : State) : ∀ (_ : Unit), wellFormed (.timePortLost ) = true → Goes (execTimePortLost  s) := by
  intro _ h
  unfold execTimePortLost
  skip
  repeat' (first | exact .next | exact goes_when | refine goes_clocked ?_ | exact goes_hostCmd | exact goes_sessionCmd | exact goes_onWrite | exact goes_onMsg | exact goes_onRouted | exact goes_resetReq | split | (dsimp only; split))

theorem execIsolationTimeout_goes (s : State) : ∀ (_ : Unit), wellFormed (.isolationTimeout ) = true → Goes (execIsolationTimeout  s) := by
  intro _ h
  unfold execIsolationTimeout
  skip
  repeat' (first | exact .next | exact goes_when | refine goes_clocked ?_ | exact goes_hostCmd | exact goes_sessionCmd | exact goes_onWrite | exact goes_onMsg | exact goes_onRouted | exact goes_resetReq | split | (dsimp only; split))

theorem execPrepare_goes (s : State) : ∀ (_ : Unit), wellFormed (.prepare ) = true → Goes (execPrepare  s) := by
  intro _ h
  unfold execPrepare
  skip
  repeat' (first | exact .next | exact goes_when | refine goes_clocked ?_ | exact goes_hostCmd | exact goes_sessionCmd | exact goes_onWrite | exact goes_onMsg | exact goes_onRouted | exact goes_resetReq | split | (dsimp only; split))

theorem execMemberAck_goes (s : State) : ∀ (_ : Unit), wellFormed (.memberAck ) = true → Goes (execMemberAck  s) := by
  intro _ h
  unfold execMemberAck
  skip
  repeat' (first | exact .next | exact goes_when | refine goes_clocked ?_ | exact goes_hostCmd | exact goes_sessionCmd | exact goes_onWrite | exact goes_onMsg | exact goes_onRouted | exact goes_resetReq | split | (dsimp only; split))

theorem execCommit_goes (s : State) : ∀ (_ : Unit), wellFormed (.commit ) = true → Goes (execCommit  s) := by
  intro _ h
  unfold execCommit
  skip
  repeat' (first | exact .next | exact goes_when | refine goes_clocked ?_ | exact goes_hostCmd | exact goes_sessionCmd | exact goes_onWrite | exact goes_onMsg | exact goes_onRouted | exact goes_resetReq | split | (dsimp only; split))

theorem execAbort_goes (s : State) : ∀ (_ : Unit), wellFormed (.abort ) = true → Goes (execAbort  s) := by
  intro _ h
  unfold execAbort
  skip
  repeat' (first | exact .next | exact goes_when | refine goes_clocked ?_ | exact goes_hostCmd | exact goes_sessionCmd | exact goes_onWrite | exact goes_onMsg | exact goes_onRouted | exact goes_resetReq | split | (dsimp only; split))

theorem execStale_goes (s : State) : ∀ (_ : Unit), wellFormed (.stale ) = true → Goes (execStale  s) := by
  intro _ h
  unfold execStale
  skip
  repeat' (first | exact .next | exact goes_when | refine goes_clocked ?_ | exact goes_hostCmd | exact goes_sessionCmd | exact goes_onWrite | exact goes_onMsg | exact goes_onRouted | exact goes_resetReq | split | (dsimp only; split))

theorem execMemberAckTimeout_goes (s : State) : ∀ (_ : Unit), wellFormed (.memberAckTimeout ) = true → Goes (execMemberAckTimeout  s) := by
  intro _ h
  unfold execMemberAckTimeout
  skip
  repeat' (first | exact .next | exact goes_when | refine goes_clocked ?_ | exact goes_hostCmd | exact goes_sessionCmd | exact goes_onWrite | exact goes_onMsg | exact goes_onRouted | exact goes_resetReq | split | (dsimp only; split))

theorem execPrepareTimeout_goes (s : State) : ∀ (_ : Unit), wellFormed (.prepareTimeout ) = true → Goes (execPrepareTimeout  s) := by
  intro _ h
  unfold execPrepareTimeout
  skip
  repeat' (first | exact .next | exact goes_when | refine goes_clocked ?_ | exact goes_hostCmd | exact goes_sessionCmd | exact goes_onWrite | exact goes_onMsg | exact goes_onRouted | exact goes_resetReq | split | (dsimp only; split))

theorem execEnumWordReceive_goes (s : State) : ∀ word, wellFormed (.enumWordReceive word) = true → Goes (execEnumWordReceive word s) := by
  intro word h
  unfold execEnumWordReceive
  refine goes_formed h ?_
  repeat' (first | exact .next | exact goes_when | refine goes_clocked ?_ | exact goes_hostCmd | exact goes_sessionCmd | exact goes_onWrite | exact goes_onMsg | exact goes_onRouted | exact goes_resetReq | split | (dsimp only; split))

theorem execEnumWordSend_goes (s : State) : ∀ (_ : Unit), wellFormed (.enumWordSend ) = true → Goes (execEnumWordSend  s) := by
  intro _ h
  unfold execEnumWordSend
  skip
  repeat' (first | exact .next | exact goes_when | refine goes_clocked ?_ | exact goes_hostCmd | exact goes_sessionCmd | exact goes_onWrite | exact goes_onMsg | exact goes_onRouted | exact goes_resetReq | split | (dsimp only; split))

theorem execMeridian_goes (s : State) : ∀ newest, wellFormed (.meridian newest) = true → Goes (execMeridian newest s) := by
  intro newest h
  unfold execMeridian
  skip
  repeat' (first | exact .next | exact goes_when | refine goes_clocked ?_ | exact goes_hostCmd | exact goes_sessionCmd | exact goes_onWrite | exact goes_onMsg | exact goes_onRouted | exact goes_resetReq | split | (dsimp only; split))

theorem execSwitchAttempt_goes (s : State) : ∀ newest, wellFormed (.switchAttempt newest) = true → Goes (execSwitchAttempt newest s) := by
  intro newest h
  unfold execSwitchAttempt
  skip
  repeat' (first | exact .next | exact goes_when | refine goes_clocked ?_ | exact goes_hostCmd | exact goes_sessionCmd | exact goes_onWrite | exact goes_onMsg | exact goes_onRouted | exact goes_resetReq | split | (dsimp only; split))

theorem execSlotStart_goes (s : State) : ∀ (_ : Unit), wellFormed (.slotStart ) = true → Goes (execSlotStart  s) := by
  intro _ h
  unfold execSlotStart
  skip
  repeat' (first | exact .next | exact goes_when | refine goes_clocked ?_ | exact goes_hostCmd | exact goes_sessionCmd | exact goes_onWrite | exact goes_onMsg | exact goes_onRouted | exact goes_resetReq | split | (dsimp only; split))

theorem execLeadPoint_goes (s : State) : ∀ (_ : Unit), wellFormed (.leadPoint ) = true → Goes (execLeadPoint  s) := by
  intro _ h
  unfold execLeadPoint
  skip
  repeat' (first | exact .next | exact goes_when | refine goes_clocked ?_ | exact goes_hostCmd | exact goes_sessionCmd | exact goes_onWrite | exact goes_onMsg | exact goes_onRouted | exact goes_resetReq | split | (dsimp only; split))

theorem execJobReady_goes (s : State) : ∀ cls target, wellFormed (.jobReady cls target) = true → Goes (execJobReady cls target s) := by
  intro cls target h
  unfold execJobReady
  refine goes_formed h ?_
  repeat' (first | exact .next | exact goes_when | refine goes_clocked ?_ | exact goes_hostCmd | exact goes_sessionCmd | exact goes_onWrite | exact goes_onMsg | exact goes_onRouted | exact goes_resetReq | split | (dsimp only; split))

theorem execJobDispatch_goes (s : State) : ∀ (_ : Unit), wellFormed (.jobDispatch ) = true → Goes (execJobDispatch  s) := by
  intro _ h
  unfold execJobDispatch
  skip
  repeat' (first | exact .next | exact goes_when | refine goes_clocked ?_ | exact goes_hostCmd | exact goes_sessionCmd | exact goes_onWrite | exact goes_onMsg | exact goes_onRouted | exact goes_resetReq | split | (dsimp only; split))

theorem execJobEnd_goes (s : State) : ∀ (_ : Unit), wellFormed (.jobEnd ) = true → Goes (execJobEnd  s) := by
  intro _ h
  unfold execJobEnd
  skip
  repeat' (first | exact .next | exact goes_when | refine goes_clocked ?_ | exact goes_hostCmd | exact goes_sessionCmd | exact goes_onWrite | exact goes_onMsg | exact goes_onRouted | exact goes_resetReq | split | (dsimp only; split))

theorem execUrgentAllowance_goes (s : State) : ∀ (_ : Unit), wellFormed (.urgentAllowance ) = true → Goes (execUrgentAllowance  s) := by
  intro _ h
  unfold execUrgentAllowance
  skip
  repeat' (first | exact .next | exact goes_when | refine goes_clocked ?_ | exact goes_hostCmd | exact goes_sessionCmd | exact goes_onWrite | exact goes_onMsg | exact goes_onRouted | exact goes_resetReq | split | (dsimp only; split))

theorem execBudgetReturn_goes (s : State) : ∀ (_ : Unit), wellFormed (.budgetReturn ) = true → Goes (execBudgetReturn  s) := by
  intro _ h
  unfold execBudgetReturn
  skip
  repeat' (first | exact .next | exact goes_when | refine goes_clocked ?_ | exact goes_hostCmd | exact goes_sessionCmd | exact goes_onWrite | exact goes_onMsg | exact goes_onRouted | exact goes_resetReq | split | (dsimp only; split))

theorem execTileIssue_goes (s : State) : ∀ (_ : Unit), wellFormed (.tileIssue ) = true → Goes (execTileIssue  s) := by
  intro _ h
  unfold execTileIssue
  skip
  repeat' (first | exact .next | exact goes_when | refine goes_clocked ?_ | exact goes_hostCmd | exact goes_sessionCmd | exact goes_onWrite | exact goes_onMsg | exact goes_onRouted | exact goes_resetReq | split | (dsimp only; split))

theorem execTileCommit_goes (s : State) : ∀ sweep lane scratch window, wellFormed (.tileCommit sweep lane scratch window) = true → Goes (execTileCommit sweep lane scratch window s) := by
  intro sweep lane scratch window h
  unfold execTileCommit
  refine goes_formed h ?_
  repeat' (first | exact .next | exact goes_when | refine goes_clocked ?_ | exact goes_hostCmd | exact goes_sessionCmd | exact goes_onWrite | exact goes_onMsg | exact goes_onRouted | exact goes_resetReq | split | (dsimp only; split))

theorem execTileFault_goes (s : State) : ∀ sweep lane errs twins parity, wellFormed (.tileFault sweep lane errs twins parity) = true → Goes (execTileFault sweep lane errs twins parity s) := by
  intro sweep lane errs twins parity h
  unfold execTileFault
  refine goes_formed h ?_
  repeat' (first | exact .next | exact goes_when | refine goes_clocked ?_ | exact goes_hostCmd | exact goes_sessionCmd | exact goes_onWrite | exact goes_onMsg | exact goes_onRouted | exact goes_resetReq | split | (dsimp only; split))

theorem execMapEpochCommit_goes (s : State) : ∀ lost, wellFormed (.mapEpochCommit lost) = true → Goes (execMapEpochCommit s lost) := by
  intro lost h
  unfold execMapEpochCommit
  refine goes_formed h ?_
  repeat' (first | exact .next | exact goes_when | refine goes_clocked ?_ | exact goes_hostCmd | exact goes_sessionCmd | exact goes_onWrite | exact goes_onMsg | exact goes_onRouted | exact goes_resetReq | split | (dsimp only; split))

theorem execPlannedSubstitution_goes (s : State) : ∀ (_ : Unit), wellFormed (.plannedSubstitution ) = true → Goes (execPlannedSubstitution  s) := by
  intro _ h
  unfold execPlannedSubstitution
  skip
  repeat' (first | exact .next | exact goes_when | refine goes_clocked ?_ | exact goes_hostCmd | exact goes_sessionCmd | exact goes_onWrite | exact goes_onMsg | exact goes_onRouted | exact goes_resetReq | split | (dsimp only; split))

theorem execMeshMessageReceive_goes (s : State) : ∀ cell epoch, wellFormed (.meshMessageReceive cell epoch) = true → Goes (execMeshMessageReceive cell epoch s) := by
  intro cell epoch h
  unfold execMeshMessageReceive
  refine goes_formed h ?_
  repeat' (first | exact .next | exact goes_when | refine goes_clocked ?_ | exact goes_hostCmd | exact goes_sessionCmd | exact goes_onWrite | exact goes_onMsg | exact goes_onRouted | exact goes_resetReq | split | (dsimp only; split))

theorem execWindowFillDone_goes (s : State) : ∀ half errors, wellFormed (.windowFillDone half errors) = true → Goes (execWindowFillDone half s errors) := by
  intro half errors h
  unfold execWindowFillDone
  refine goes_formed h ?_
  repeat' (first | exact .next | exact goes_when | refine goes_clocked ?_ | exact goes_hostCmd | exact goes_sessionCmd | exact goes_onWrite | exact goes_onMsg | exact goes_onRouted | exact goes_resetReq | split | (dsimp only; split))

theorem execPreemptRequest_goes (s : State) : ∀ (_ : Unit), wellFormed (.preemptRequest ) = true → Goes (execPreemptRequest  s) := by
  intro _ h
  unfold execPreemptRequest
  skip
  repeat' (first | exact .next | exact goes_when | refine goes_clocked ?_ | exact goes_hostCmd | exact goes_sessionCmd | exact goes_onWrite | exact goes_onMsg | exact goes_onRouted | exact goes_resetReq | split | (dsimp only; split))

theorem execSpillDone_goes (s : State) : ∀ (_ : Unit), wellFormed (.spillDone ) = true → Goes (execSpillDone  s) := by
  intro _ h
  unfold execSpillDone
  skip
  repeat' (first | exact .next | exact goes_when | refine goes_clocked ?_ | exact goes_hostCmd | exact goes_sessionCmd | exact goes_onWrite | exact goes_onMsg | exact goes_onRouted | exact goes_resetReq | split | (dsimp only; split))

theorem execSpillRestoreDone_goes (s : State) : ∀ (_ : Unit), wellFormed (.spillRestoreDone ) = true → Goes (execSpillRestoreDone  s) := by
  intro _ h
  unfold execSpillRestoreDone
  skip
  repeat' (first | exact .next | exact goes_when | refine goes_clocked ?_ | exact goes_hostCmd | exact goes_sessionCmd | exact goes_onWrite | exact goes_onMsg | exact goes_onRouted | exact goes_resetReq | split | (dsimp only; split))

theorem execBistStart_goes (s : State) : ∀ (_ : Unit), wellFormed (.bistStart ) = true → Goes (execBistStart  s) := by
  intro _ h
  unfold execBistStart
  skip
  repeat' (first | exact .next | exact goes_when | refine goes_clocked ?_ | exact goes_hostCmd | exact goes_sessionCmd | exact goes_onWrite | exact goes_onMsg | exact goes_onRouted | exact goes_resetReq | split | (dsimp only; split))

theorem execBistDone_goes (s : State) : ∀ results, wellFormed (.bistDone results) = true → Goes (execBistDone results s) := by
  intro results h
  unfold execBistDone
  refine goes_formed h ?_
  repeat' (first | exact .next | exact goes_when | refine goes_clocked ?_ | exact goes_hostCmd | exact goes_sessionCmd | exact goes_onWrite | exact goes_onMsg | exact goes_onRouted | exact goes_resetReq | split | (dsimp only; split))

theorem execSpareRetest_goes (s : State) : ∀ pass, wellFormed (.spareRetest pass) = true → Goes (execSpareRetest pass s) := by
  intro pass h
  unfold execSpareRetest
  refine goes_formed h ?_
  repeat' (first | exact .next | exact goes_when | refine goes_clocked ?_ | exact goes_hostCmd | exact goes_sessionCmd | exact goes_onWrite | exact goes_onMsg | exact goes_onRouted | exact goes_resetReq | split | (dsimp only; split))

theorem execPathsFixed_goes (s : State) : ∀ (_ : Unit), wellFormed (.pathsFixed ) = true → Goes (execPathsFixed  s) := by
  intro _ h
  unfold execPathsFixed
  skip
  repeat' (first | exact .next | exact goes_when | refine goes_clocked ?_ | exact goes_hostCmd | exact goes_sessionCmd | exact goes_onWrite | exact goes_onMsg | exact goes_onRouted | exact goes_resetReq | split | (dsimp only; split))

theorem execDraftRunDone_goes (s : State) : ∀ context, wellFormed (.draftRunDone context) = true → Goes (execDraftRunDone context s) := by
  intro context h
  unfold execDraftRunDone
  skip
  repeat' (first | exact .next | exact goes_when | refine goes_clocked ?_ | exact goes_hostCmd | exact goes_sessionCmd | exact goes_onWrite | exact goes_onMsg | exact goes_onRouted | exact goes_resetReq | split | (dsimp only; split))

theorem execStepSeal_goes (s : State) : ∀ (_ : Unit), wellFormed (.stepSeal ) = true → Goes (execStepSeal  s) := by
  intro _ h
  unfold execStepSeal
  skip
  repeat' (first | exact .next | exact goes_when | refine goes_clocked ?_ | exact goes_hostCmd | exact goes_sessionCmd | exact goes_onWrite | exact goes_onMsg | exact goes_onRouted | exact goes_resetReq | split | (dsimp only; split))

theorem execStepBoundary_goes (s : State) : ∀ (_ : Unit), wellFormed (.stepBoundary ) = true → Goes (execStepBoundary  s) := by
  intro _ h
  unfold execStepBoundary
  skip
  repeat' (first | exact .next | exact goes_when | refine goes_clocked ?_ | exact goes_hostCmd | exact goes_sessionCmd | exact goes_onWrite | exact goes_onMsg | exact goes_onRouted | exact goes_resetReq | split | (dsimp only; split))

theorem execTlbInvalidate_goes (s : State) : ∀ table, wellFormed (.tlbInvalidate table) = true → Goes (execTlbInvalidate table s) := by
  intro table h
  unfold execTlbInvalidate
  skip
  repeat' (first | exact .next | exact goes_when | refine goes_clocked ?_ | exact goes_hostCmd | exact goes_sessionCmd | exact goes_onWrite | exact goes_onMsg | exact goes_onRouted | exact goes_resetReq | split | (dsimp only; split))

theorem execRecomputePassDone_goes (s : State) : ∀ handle, wellFormed (.recomputePassDone handle) = true → Goes (execRecomputePassDone handle s) := by
  intro handle h
  unfold execRecomputePassDone
  skip
  repeat' (first | exact .next | exact goes_when | refine goes_clocked ?_ | exact goes_hostCmd | exact goes_sessionCmd | exact goes_onWrite | exact goes_onMsg | exact goes_onRouted | exact goes_resetReq | split | (dsimp only; split))

theorem execStackMoveDone_goes (s : State) : ∀ handle, wellFormed (.stackMoveDone handle) = true → Goes (execStackMoveDone handle s) := by
  intro handle h
  unfold execStackMoveDone
  skip
  repeat' (first | exact .next | exact goes_when | refine goes_clocked ?_ | exact goes_hostCmd | exact goes_sessionCmd | exact goes_onWrite | exact goes_onMsg | exact goes_onRouted | exact goes_resetReq | split | (dsimp only; split))

theorem execReplicaPromoteDone_goes (s : State) : ∀ charm stack, wellFormed (.replicaPromoteDone charm stack) = true → Goes (execReplicaPromoteDone charm stack s) := by
  intro charm stack h
  unfold execReplicaPromoteDone
  refine goes_formed h ?_
  repeat' (first | exact .next | exact goes_when | refine goes_clocked ?_ | exact goes_hostCmd | exact goes_sessionCmd | exact goes_onWrite | exact goes_onMsg | exact goes_onRouted | exact goes_resetReq | split | (dsimp only; split))

theorem execReplicaEvictStart_goes (s : State) : ∀ charm stack, wellFormed (.replicaEvictStart charm stack) = true → Goes (execReplicaEvictStart charm stack s) := by
  intro charm stack h
  unfold execReplicaEvictStart
  refine goes_formed h ?_
  repeat' (first | exact .next | exact goes_when | refine goes_clocked ?_ | exact goes_hostCmd | exact goes_sessionCmd | exact goes_onWrite | exact goes_onMsg | exact goes_onRouted | exact goes_resetReq | split | (dsimp only; split))

theorem execReplicaEvictCommit_goes (s : State) : ∀ charm stack, wellFormed (.replicaEvictCommit charm stack) = true → Goes (execReplicaEvictCommit charm stack s) := by
  intro charm stack h
  unfold execReplicaEvictCommit
  refine goes_formed h ?_
  repeat' (first | exact .next | exact goes_when | refine goes_clocked ?_ | exact goes_hostCmd | exact goes_sessionCmd | exact goes_onWrite | exact goes_onMsg | exact goes_onRouted | exact goes_resetReq | split | (dsimp only; split))

theorem execTtlExpiry_goes (s : State) : ∀ handle, wellFormed (.ttlExpiry handle) = true → Goes (execTtlExpiry handle s) := by
  intro handle h
  unfold execTtlExpiry
  skip
  repeat' (first | exact .next | exact goes_when | refine goes_clocked ?_ | exact goes_hostCmd | exact goes_sessionCmd | exact goes_onWrite | exact goes_onMsg | exact goes_onRouted | exact goes_resetReq | split | (dsimp only; split))

theorem execDemoteRetry_goes (s : State) : ∀ handle, wellFormed (.demoteRetry handle) = true → Goes (execDemoteRetry handle s) := by
  intro handle h
  unfold execDemoteRetry
  skip
  repeat' (first | exact .next | exact goes_when | refine goes_clocked ?_ | exact goes_hostCmd | exact goes_sessionCmd | exact goes_onWrite | exact goes_onMsg | exact goes_onRouted | exact goes_resetReq | split | (dsimp only; split))

theorem execDemotionCommit_goes (s : State) : ∀ handle, wellFormed (.demotionCommit handle) = true → Goes (execDemotionCommit handle s) := by
  intro handle h
  unfold execDemotionCommit
  skip
  repeat' (first | exact .next | exact goes_when | refine goes_clocked ?_ | exact goes_hostCmd | exact goes_sessionCmd | exact goes_onWrite | exact goes_onMsg | exact goes_onRouted | exact goes_resetReq | split | (dsimp only; split))

theorem execPromotionCommit_goes (s : State) : ∀ handle, wellFormed (.promotionCommit handle) = true → Goes (execPromotionCommit handle s) := by
  intro handle h
  unfold execPromotionCommit
  skip
  repeat' (first | exact .next | exact goes_when | refine goes_clocked ?_ | exact goes_hostCmd | exact goes_sessionCmd | exact goes_onWrite | exact goes_onMsg | exact goes_onRouted | exact goes_resetReq | split | (dsimp only; split))

theorem execCharmTtlExpiry_goes (s : State) : ∀ charm, wellFormed (.charmTtlExpiry charm) = true → Goes (execCharmTtlExpiry charm s) := by
  intro charm h
  unfold execCharmTtlExpiry
  skip
  repeat' (first | exact .next | exact goes_when | refine goes_clocked ?_ | exact goes_hostCmd | exact goes_sessionCmd | exact goes_onWrite | exact goes_onMsg | exact goes_onRouted | exact goes_resetReq | split | (dsimp only; split))

theorem execCourierPacketSelect_goes (s : State) : ∀ errors, wellFormed (.courierPacketSelect errors) = true → Goes (execCourierPacketSelect s errors) := by
  intro errors h
  unfold execCourierPacketSelect
  refine goes_formed h ?_
  repeat' (first | exact .next | exact goes_when | refine goes_clocked ?_ | exact goes_hostCmd | exact goes_sessionCmd | exact goes_onWrite | exact goes_onMsg | exact goes_onRouted | exact goes_resetReq | split | (dsimp only; split))

theorem execCourierComplete_goes (s : State) : ∀ cookie status, wellFormed (.courierComplete cookie status) = true → Goes (execCourierComplete cookie status s) := by
  intro cookie status h
  unfold execCourierComplete
  skip
  repeat' (first | exact .next | exact goes_when | refine goes_clocked ?_ | exact goes_hostCmd | exact goes_sessionCmd | exact goes_onWrite | exact goes_onMsg | exact goes_onRouted | exact goes_resetReq | split | (dsimp only; split))

theorem execCourierAbandon_goes (s : State) : ∀ cookie, wellFormed (.courierAbandon cookie) = true → Goes (execCourierAbandon cookie s) := by
  intro cookie h
  unfold execCourierAbandon
  skip
  repeat' (first | exact .next | exact goes_when | refine goes_clocked ?_ | exact goes_hostCmd | exact goes_sessionCmd | exact goes_onWrite | exact goes_onMsg | exact goes_onRouted | exact goes_resetReq | split | (dsimp only; split))

theorem execInstackCopyDone_goes (s : State) : ∀ stack, wellFormed (.instackCopyDone stack) = true → Goes (execInstackCopyDone stack s) := by
  intro stack h
  unfold execInstackCopyDone
  refine goes_formed h ?_
  repeat' (first | exact .next | exact goes_when | refine goes_clocked ?_ | exact goes_hostCmd | exact goes_sessionCmd | exact goes_onWrite | exact goes_onMsg | exact goes_onRouted | exact goes_resetReq | split | (dsimp only; split))

theorem execHbmScrub_goes (s : State) : ∀ stack first errors, wellFormed (.hbmScrub stack first errors) = true → Goes (execHbmScrub stack first errors s) := by
  intro stack first errors h
  unfold execHbmScrub
  refine goes_formed h ?_
  repeat' (first | exact .next | exact goes_when | refine goes_clocked ?_ | exact goes_hostCmd | exact goes_sessionCmd | exact goes_onWrite | exact goes_onMsg | exact goes_onRouted | exact goes_resetReq | split | (dsimp only; split))

theorem execBayPowerOn_goes (s : State) : ∀ bay ident extents, wellFormed (.bayPowerOn bay ident extents) = true → Goes (execBayPowerOn bay ident extents s) := by
  intro bay ident extents h
  unfold execBayPowerOn
  refine goes_formed h ?_
  repeat' (first | exact .next | exact goes_when | refine goes_clocked ?_ | exact goes_hostCmd | exact goes_sessionCmd | exact goes_onWrite | exact goes_onMsg | exact goes_onRouted | exact goes_resetReq | split | (dsimp only; split))

theorem execBayIdent_goes (s : State) : ∀ bay trained channels, wellFormed (.bayIdent bay trained channels) = true → Goes (execBayIdent bay trained s channels) := by
  intro bay trained channels h
  unfold execBayIdent
  refine goes_formed h ?_
  repeat' (first | exact .next | exact goes_when | refine goes_clocked ?_ | exact goes_hostCmd | exact goes_sessionCmd | exact goes_onWrite | exact goes_onMsg | exact goes_onRouted | exact goes_resetReq | split | (dsimp only; split))

theorem execMountDone_goes (s : State) : ∀ bay, wellFormed (.mountDone bay) = true → Goes (execMountDone bay s) := by
  intro bay h
  unfold execMountDone
  refine goes_formed h ?_
  repeat' (first | exact .next | exact goes_when | refine goes_clocked ?_ | exact goes_hostCmd | exact goes_sessionCmd | exact goes_onWrite | exact goes_onMsg | exact goes_onRouted | exact goes_resetReq | split | (dsimp only; split))

theorem execCofferRemoval_goes (s : State) : ∀ bay, wellFormed (.cofferRemoval bay) = true → Goes (execCofferRemoval bay s) := by
  intro bay h
  unfold execCofferRemoval
  refine goes_formed h ?_
  repeat' (first | exact .next | exact goes_when | refine goes_clocked ?_ | exact goes_hostCmd | exact goes_sessionCmd | exact goes_onWrite | exact goes_onMsg | exact goes_onRouted | exact goes_resetReq | split | (dsimp only; split))

theorem execCooperativeDetach_goes (s : State) : ∀ bay source, wellFormed (.cooperativeDetach bay source) = true → Goes (execCooperativeDetach bay source s) := by
  intro bay source h
  unfold execCooperativeDetach
  refine goes_formed h ?_
  repeat' (first | exact .next | exact goes_when | refine goes_clocked ?_ | exact goes_hostCmd | exact goes_sessionCmd | exact goes_onWrite | exact goes_onMsg | exact goes_onRouted | exact goes_resetReq | split | (dsimp only; split))

theorem execDetachRetry_goes (s : State) : ∀ bay, wellFormed (.detachRetry bay) = true → Goes (execDetachRetry bay s) := by
  intro bay h
  unfold execDetachRetry
  refine goes_formed h ?_
  repeat' (first | exact .next | exact goes_when | refine goes_clocked ?_ | exact goes_hostCmd | exact goes_sessionCmd | exact goes_onWrite | exact goes_onMsg | exact goes_onRouted | exact goes_resetReq | split | (dsimp only; split))

theorem execDetachDone_goes (s : State) : ∀ bay, wellFormed (.detachDone bay) = true → Goes (execDetachDone bay s) := by
  intro bay h
  unfold execDetachDone
  refine goes_formed h ?_
  repeat' (first | exact .next | exact goes_when | refine goes_clocked ?_ | exact goes_hostCmd | exact goes_sessionCmd | exact goes_onWrite | exact goes_onMsg | exact goes_onRouted | exact goes_resetReq | split | (dsimp only; split))

theorem execForcedDetach_goes (s : State) : ∀ (_ : Unit), wellFormed (.forcedDetach ) = true → Goes (execForcedDetach  s) := by
  intro _ h
  unfold execForcedDetach
  skip
  repeat' (first | exact .next | exact goes_when | refine goes_clocked ?_ | exact goes_hostCmd | exact goes_sessionCmd | exact goes_onWrite | exact goes_onMsg | exact goes_onRouted | exact goes_resetReq | split | (dsimp only; split))

theorem execExtentSeal_goes (s : State) : ∀ bay ext, wellFormed (.extentSeal bay ext) = true → Goes (execExtentSeal bay ext s) := by
  intro bay ext h
  unfold execExtentSeal
  refine goes_formed h ?_
  repeat' (first | exact .next | exact goes_when | refine goes_clocked ?_ | exact goes_hostCmd | exact goes_sessionCmd | exact goes_onWrite | exact goes_onMsg | exact goes_onRouted | exact goes_resetReq | split | (dsimp only; split))

theorem execProgramFail_goes (s : State) : ∀ bay channel die block, wellFormed (.programFail bay channel die block) = true → Goes (execProgramFail bay channel die block s) := by
  intro bay channel die block h
  unfold execProgramFail
  refine goes_formed h ?_
  repeat' (first | exact .next | exact goes_when | refine goes_clocked ?_ | exact goes_hostCmd | exact goes_sessionCmd | exact goes_onWrite | exact goes_onMsg | exact goes_onRouted | exact goes_resetReq | split | (dsimp only; split))

theorem execBlockEraseDone_goes (s : State) : ∀ bay ok, wellFormed (.blockEraseDone bay ok) = true → Goes (execBlockEraseDone bay ok s) := by
  intro bay ok h
  unfold execBlockEraseDone
  refine goes_formed h ?_
  repeat' (first | exact .next | exact goes_when | refine goes_clocked ?_ | exact goes_hostCmd | exact goes_sessionCmd | exact goes_onWrite | exact goes_onMsg | exact goes_onRouted | exact goes_resetReq | split | (dsimp only; split))

theorem execGarbageCollection_goes (s : State) : ∀ bay, wellFormed (.garbageCollection bay) = true → Goes (execGarbageCollection bay s) := by
  intro bay h
  unfold execGarbageCollection
  refine goes_formed h ?_
  repeat' (first | exact .next | exact goes_when | refine goes_clocked ?_ | exact goes_hostCmd | exact goes_sessionCmd | exact goes_onWrite | exact goes_onMsg | exact goes_onRouted | exact goes_resetReq | split | (dsimp only; split))

theorem execWearLevel_goes (s : State) : ∀ bay, wellFormed (.wearLevel bay) = true → Goes (execWearLevel bay s) := by
  intro bay h
  unfold execWearLevel
  refine goes_formed h ?_
  repeat' (first | exact .next | exact goes_when | refine goes_clocked ?_ | exact goes_hostCmd | exact goes_sessionCmd | exact goes_onWrite | exact goes_onMsg | exact goes_onRouted | exact goes_resetReq | split | (dsimp only; split))

theorem execPatrolRead_goes (s : State) : ∀ bay sb symbols page rebuilt, wellFormed (.patrolRead bay sb symbols page rebuilt) = true → Goes (execPatrolRead bay sb symbols s page rebuilt) := by
  intro bay sb symbols page rebuilt h
  unfold execPatrolRead
  refine goes_formed h ?_
  repeat' (first | exact .next | exact goes_when | refine goes_clocked ?_ | exact goes_hostCmd | exact goes_sessionCmd | exact goes_onWrite | exact goes_onMsg | exact goes_onRouted | exact goes_resetReq | split | (dsimp only; split))

theorem execJournalCheckpoint_goes (s : State) : ∀ bay, wellFormed (.journalCheckpoint bay) = true → Goes (execJournalCheckpoint bay s) := by
  intro bay h
  unfold execJournalCheckpoint
  refine goes_formed h ?_
  repeat' (first | exact .next | exact goes_when | refine goes_clocked ?_ | exact goes_hostCmd | exact goes_sessionCmd | exact goes_onWrite | exact goes_onMsg | exact goes_onRouted | exact goes_resetReq | split | (dsimp only; split))

theorem execCofferCounterWrite_goes (s : State) : ∀ bay, wellFormed (.cofferCounterWrite bay) = true → Goes (execCofferCounterWrite bay s) := by
  intro bay h
  unfold execCofferCounterWrite
  refine goes_formed h ?_
  repeat' (first | exact .next | exact goes_when | refine goes_clocked ?_ | exact goes_hostCmd | exact goes_sessionCmd | exact goes_onWrite | exact goes_onMsg | exact goes_onRouted | exact goes_resetReq | split | (dsimp only; split))

theorem execWalkStart_goes (s : State) : ∀ unit, wellFormed (.walkStart unit) = true → Goes (execWalkStart unit s) := by
  intro unit h
  unfold execWalkStart
  refine goes_formed h ?_
  repeat' (first | exact .next | exact goes_when | refine goes_clocked ?_ | exact goes_hostCmd | exact goes_sessionCmd | exact goes_onWrite | exact goes_onMsg | exact goes_onRouted | exact goes_resetReq | split | (dsimp only; split))

theorem execWalkDone_goes (s : State) : ∀ unit, wellFormed (.walkDone unit) = true → Goes (execWalkDone unit s) := by
  intro unit h
  unfold execWalkDone
  refine goes_formed h ?_
  repeat' (first | exact .next | exact goes_when | refine goes_clocked ?_ | exact goes_hostCmd | exact goes_sessionCmd | exact goes_onWrite | exact goes_onMsg | exact goes_onRouted | exact goes_resetReq | split | (dsimp only; split))

theorem execMergeStart_goes (s : State) : ∀ coll, wellFormed (.mergeStart coll) = true → Goes (execMergeStart coll s) := by
  intro coll h
  unfold execMergeStart
  skip
  repeat' (first | exact .next | exact goes_when | refine goes_clocked ?_ | exact goes_hostCmd | exact goes_sessionCmd | exact goes_onWrite | exact goes_onMsg | exact goes_onRouted | exact goes_resetReq | split | (dsimp only; split))

theorem execMergePublish_goes (s : State) : ∀ coll, wellFormed (.mergePublish coll) = true → Goes (execMergePublish coll s) := by
  intro coll h
  unfold execMergePublish
  skip
  repeat' (first | exact .next | exact goes_when | refine goes_clocked ?_ | exact goes_hostCmd | exact goes_sessionCmd | exact goes_onWrite | exact goes_onMsg | exact goes_onRouted | exact goes_resetReq | split | (dsimp only; split))

theorem execSelectFetchDone_goes (s : State) : ∀ id data poison, wellFormed (.selectFetchDone id data poison) = true → Goes (execSelectFetchDone id data poison s) := by
  intro id data poison h
  unfold execSelectFetchDone
  skip
  repeat' (first | exact .next | exact goes_when | refine goes_clocked ?_ | exact goes_hostCmd | exact goes_sessionCmd | exact goes_onWrite | exact goes_onMsg | exact goes_onRouted | exact goes_resetReq | split | (dsimp only; split))

theorem execDrainStart_goes (s : State) : ∀ (_ : Unit), wellFormed (.drainStart ) = true → Goes (execDrainStart  s) := by
  intro _ h
  unfold execDrainStart
  skip
  repeat' (first | exact .next | exact goes_when | refine goes_clocked ?_ | exact goes_hostCmd | exact goes_sessionCmd | exact goes_onWrite | exact goes_onMsg | exact goes_onRouted | exact goes_resetReq | split | (dsimp only; split))

theorem execCutComplete_goes (s : State) : ∀ copied, wellFormed (.cutComplete copied) = true → Goes (execCutComplete copied s) := by
  intro copied h
  unfold execCutComplete
  skip
  repeat' (first | exact .next | exact goes_when | refine goes_clocked ?_ | exact goes_hostCmd | exact goes_sessionCmd | exact goes_onWrite | exact goes_onMsg | exact goes_onRouted | exact goes_resetReq | split | (dsimp only; split))

theorem execCutAbandon_goes (s : State) : ∀ reason, wellFormed (.cutAbandon reason) = true → Goes (execCutAbandon reason s) := by
  intro reason h
  unfold execCutAbandon
  skip
  repeat' (first | exact .next | exact goes_when | refine goes_clocked ?_ | exact goes_hostCmd | exact goes_sessionCmd | exact goes_onWrite | exact goes_onMsg | exact goes_onRouted | exact goes_resetReq | split | (dsimp only; split))

theorem execQueueSample_goes (s : State) : ∀ (_ : Unit), wellFormed (.queueSample ) = true → Goes (execQueueSample  s) := by
  intro _ h
  unfold execQueueSample
  skip
  repeat' (first | exact .next | exact goes_when | refine goes_clocked ?_ | exact goes_hostCmd | exact goes_sessionCmd | exact goes_onWrite | exact goes_onMsg | exact goes_onRouted | exact goes_resetReq | split | (dsimp only; split))

theorem execKvGatherDone_goes (s : State) : ∀ sweep, wellFormed (.kvGatherDone sweep) = true → Goes (execKvGatherDone sweep s) := by
  intro sweep h
  unfold execKvGatherDone
  skip
  repeat' (first | exact .next | exact goes_when | refine goes_clocked ?_ | exact goes_hostCmd | exact goes_sessionCmd | exact goes_onWrite | exact goes_onMsg | exact goes_onRouted | exact goes_resetReq | split | (dsimp only; split))

theorem execProgramStatusPass_goes (s : State) : ∀ bay, wellFormed (.programStatusPass bay) = true → Goes (execProgramStatusPass bay s) := by
  intro bay h
  unfold execProgramStatusPass
  refine goes_formed h ?_
  repeat' (first | exact .next | exact goes_when | refine goes_clocked ?_ | exact goes_hostCmd | exact goes_sessionCmd | exact goes_onWrite | exact goes_onMsg | exact goes_onRouted | exact goes_resetReq | split | (dsimp only; split))

theorem execTransmitOpportunity_goes (s : State) : ∀ collision, wellFormed (.transmitOpportunity collision) = true → Goes (execTransmitOpportunity collision s) := by
  intro collision h
  unfold execTransmitOpportunity
  skip
  repeat' (first | exact .next | exact goes_when | refine goes_clocked ?_ | exact goes_hostCmd | exact goes_sessionCmd | exact goes_onWrite | exact goes_onMsg | exact goes_onRouted | exact goes_resetReq | split | (dsimp only; split))

theorem execAlwaysOnRailFailure_goes (s : State) : ∀ (_ : Unit), wellFormed (.alwaysOnRailFailure ) = true → Goes (execAlwaysOnRailFailure  s) := by
  intro _ h
  unfold execAlwaysOnRailFailure
  skip
  repeat' (first | exact .next | exact goes_when | refine goes_clocked ?_ | exact goes_hostCmd | exact goes_sessionCmd | exact goes_onWrite | exact goes_onMsg | exact goes_onRouted | exact goes_resetReq | split | (dsimp only; split))

end Sys2Proof.Machine
end

