-- ==== Sys2Proof/Tests/Slice0.lean ====
section
/-!
SUPPORT. Sys2Proof/Tests/Slice0.lean: tests of the model: for each check of WellFormed a command that it refuses, worked examples of the spec, and for each clause of
an obligation that has hypotheses a named theorem (test_meets_<obligation>_<clause>) that shows a state and operands meeting all of them together.
-/

namespace Sys2Proof.Tests
open Sys2Proof Sys2Proof.Machine
set_option Elab.async false

theorem test_wellFormed_refuses_header : wellFormed (.loadParure 0 [0#8]) = false := by decide

/-- A DESCRIBE header is 256 bytes or absent, a parure slot is below 16, a ring below 1,024, a descriptor 64 bytes. -/
theorem test_wellFormed_refuses_rings : [Instr.loadParure 0 [0#8], .parureCopyDone 16 [], .sqTail 1024 0, .cqHead 1024 0, .ack 1024 [], .slotSel 1024 0 [],
    .slotApertureWrite 1024 0 [], .completionPost 1024, .coalTimeExpiry 1024, .descriptorFetch 1024 (List.replicate 64 0#8), .descriptorFetch 0 []].all
    (fun c => !wellFormed c) = true := by decide
/-- Key slots and tenants, link widths and generations, sensors, set-up results. -/
theorem test_wellFormed_refuses_platform : [Instr.keyInstall 2 0, .keyInstall 0 1024, .keySelect 2 0, .keyDeselect 0 1024, .linkTraining 5 1 0 false,
    .linkTraining 4 0 0 false, .linkTraining 4 7 0 false, .linkTraining 4 1 3 false, .linkTraining 4 6 0 false, .linkTraining 4 5 0 true, .thermalSample [25],
    .analogThermtrip 24, .settingStartDone [true] [none, none, none, none] true, .settingStartDone (List.replicate 8 true) [] true].all
    (fun c => !wellFormed c) = true := by decide
/-- Ports, flits and enumeration words. -/
theorem test_wellFormed_refuses_links : [Instr.portTrained 8 4 0 0, .portTrained 0 5 0 0, .portTrained 0 4 64 0, .portTrained 0 4 0 8, .portDown 8, .flitReceive 0 [],
    .flitReceive 8 (List.replicate 532 0#8), .flitForward 8, .delayMeasure 8 0, .enumWordReceive 4294967296].all (fun c => !wellFormed c) = true := by decide +kernel
/-- Job classes, lanes, words with bits in error, cells, window halves, test results. -/
theorem test_wellFormed_refuses_tiles : [Instr.jobReady 4 0, .tileCommit 0 2 [] [], .tileCommit 0 0 [] [(2 ^ 23, 1)], .tileCommit 0 0 [(2 ^ 24, 1)] [],
    .tileCommit 0 0 [] [(0, 2 ^ 144)], .tileCommit 0 0 [(0, 2 ^ 144)] [], .tileFault 0 2 [] [] [], .tileFault 0 0 [{ cell := 128, pos := 0, lane := 0, diff := 1, exp := 0 }] [] [],
    .tileFault 0 0 [] [(128, 0#32, 0#32)] [], .tileFault 0 0 [] [] [128], .mapEpochCommit [32768], .meshMessageReceive 144 0, .windowFillDone 2 [],
    .windowFillDone 0 [(2 ^ 23, 1)], .windowFillDone 0 [(0, 2 ^ 144)], .bistDone [], .spareRetest []].all (fun c => !wellFormed c) = true := by decide +kernel
/-- Stacks, Courier words, search units. -/
theorem test_wellFormed_refuses_stores : [Instr.replicaPromoteDone 0 8, .replicaEvictStart 0 8, .replicaEvictCommit 0 8, .courierPacketSelect [(256, 1)],
    .courierPacketSelect [(0, 2 ^ 144)], .instackCopyDone 8, .hbmScrub 8 0 [], .hbmScrub 0 1 [(4294967295, 1)], .hbmScrub 0 0 [(0, 2 ^ 144)], .walkStart 8, .walkDone 8].all
    (fun c => !wellFormed c) = true := by decide +kernel
/-- Bays, the channels of a coffer, the sources of a cooperative detach. -/
theorem test_wellFormed_refuses_bays : [Instr.bayPowerOn 4 [] [], .bayIdent 4 true (List.replicate 16 { dies := 1, pageBytes := 16384, spareBytes := 2048, pages := 1, blocks := 1, slcUs := none }),
    .bayIdent 0 true [], .mountDone 4, .cofferRemoval 4, .cooperativeDetach 4 0, .cooperativeDetach 0 3, .detachRetry 4, .detachDone 4, .extentSeal 4 0,
    .programFail 4 0 0 0, .programFail 0 16 0 0, .blockEraseDone 4 true, .garbageCollection 4, .wearLevel 4, .patrolRead 4 0 0 0 false, .journalCheckpoint 4,
    .cofferCounterWrite 4, .programStatusPass 4].all (fun c => !wellFormed c) = true := by decide
/-- The worked example of 02 R46: byte 181 holds the digits of 0, −1, +1, −1, +1. -/
theorem test_ternary_byte_example : (List.range 5).map (elemAt .ternary [0xB5#8]) = [1, 0, 2, 0, 2] := by decide
/-- The worked example of 02 R51 and R53: one rounding of 16,777,217.5 gives 16,777,218. -/
theorem test_one_rounding_example : addBlock false 0x4B800000#32
    { scale := .fin false 1 0, elems := [.fin false 1 0, .fin false 1 0, .fin true 1 0] } { scale := .fin false 1 0, elems := [.fin false 1 0, .fin false 1 0, .fin false 1 (-1)] }
    = 0x4B800001#32 := by decide +kernel
/-- The worked example of 02 R69: 5.0, 0.3 and −2.6 go to 4, 0.5 and −3 under scale byte 0x7F. -/
theorem test_mxfp4_block_example : toMx .e2m1 ([0x40A00000#32, 0x3E99999A#32, 0xC0266666#32] ++ List.replicate 29 0#32) = (0x7F, [6, 1, 13] ++ List.replicate 29 0) := by
  decide +kernel
/-- The worked example of 02 R72: the counter words of a draw at node 5. -/
theorem test_counter_words_example : drawWord 0x0123456789ABCDEF 0x000000010000002A 2 5 0 = (philox 0x0123456789ABCDEF 0x2A 0x02050001 0 0).getD 0 0 := by decide +kernel
/-- The worked example of 13 R480: the check symbols of a word whose symbol 17 is 1; with bit 68 read as 0 the reader restores it. -/
theorem test_codeword_example : encode (2 ^ 68) = 2 ^ 68 + 0x6313 * 2 ^ 128 ∧ classify (0x6313 * 2 ^ 128) = .corrected (encode (2 ^ 68)) := by decide +kernel
/-- The worked example of 19 R716: the enumeration word that position 5 sends. -/
theorem test_enumeration_word_example : enumWord 5 = 0xA500069A := by decide +kernel
/-- The worked example of 06 R221: target widths as ACC_AVG falls. -/
theorem test_width_example : [448, 392, 343, 301, 264, 233].map (fun a => targetWidth { wMin := 2, wMax := 8, accAvg := a }) = [7, 6, 6, 5, 5, 4] := by decide

/-- A descriptor of 64 bytes from (offset, length, value) fields. -/
def dsc (fields : List (Nat × Nat × Nat)) : List Byte := mkMsg 0 fields

/-- A device that serves commands. -/
def up : State :=
  { lan := { power := .active, coreUp := true, pgAt := none, perst := false, committed := true, phase := .running }
    hif := { mode := .up, linkUp := true, fetchEn := true }
    lpe := { mode := .ready, epoch := 1 }
    ory := { halt := false, enable := true }
    ast := { enable := true }
    smp := { enable := true }
    fil := { enable := true }
    stm := { enable := true }
    cur := { enable := true }
    eph := { enable := true }
    now := 1000000 }

/-- The state with one outstanding command, of acceptance number 5. -/
def asked (s : State) (op : Nat) (fields : List (Nat × Nat × Nat)) (tenant : Nat := 0) : State :=
  s.hifM fun h => { h with cmds := h.cmds ++ [{ id := 5, opcode := op, desc := dsc ((0, 1, op) :: fields), tenant := tenant }] }

/-- The state with a locket at handle 1 of session 7. -/
def sess (l : Locket) : State := { up with lockets := [(1, { l with session := 7 })] }

/-- A run of n bytes that holds (offset, length, value) fields. -/
def blank (n : Nat) (fields : List (Nat × Nat × Nat)) : List Byte :=
  fields.foldl (fun m f => m.take f.1 ++ natLe f.2.1 f.2.2 ++ m.drop (f.1 + f.2.1)) (zeros n)

/-- A parure image of one KiB with a geometry, limits, step times and a facet layout. -/
def img : List Byte :=
  blank 1024 [(16, 8, 1024), (28, 2, 4), (31, 1, 4),
    (256, 2, 7), (264, 8, 512), (272, 8, 64), (288, 2, 8), (296, 8, 576), (304, 8, 64), (320, 2, 9), (328, 8, 640), (336, 8, 128),
    (352, 2, 10), (360, 8, 768), (368, 8, 64), (592, 4, 1000), (596, 4, 1000), (600, 4, 1), (604, 4, 1), (768, 2, 1), (772, 4, 64), (786, 2, 16), (788, 2, 16)]

/-- That parure, loaded in slot 0 under handle 9 with four contexts. -/
def par : Parure := { handle := 9, state := .loaded, widthCap := 4, contexts := 4, length := 1024, image := img, header := img.take 256, hash := 77 }

/-- A device with the parure loaded. -/
def upPar : State := { up with parures := [(0, par)] }

/-- A device with the parure loaded and a session of it. -/
def upSess (l : Locket) : State := { upPar with lockets := [(1, { l with session := 7, parureHash := 77 })] }

/-- A descriptor of a purpose has ended with a status. -/
def ended (s : State) (p : Purpose) (st : Nat) : State := s.curM fun c => { c with done := [{ cookie := 3, purpose := p, status := st, unitsDone := 0, tick := 0 }] }

/-- A WRITE of an Almanac entry from the mailbox, with the entry's type and length. -/
def wr (i j v : Nat) : Req :=
  let n := ((entrySpec i j).map (·.len)).getD 0
  { from_ := .mailbox
    pdu := blank (24 + n) [(0, 1, 1), (1, 1, 2), (4, 2, i), (6, 1, j), (7, 1, ((entrySpec i j).map (·.ty)).getD 0), (10, 2, n), (24, n, v)] }

/-- A request of another operation from the mailbox. -/
def rq (op i j n : Nat) : Req := { from_ := .sideband 5, pdu := blank 46 [(0, 1, 1), (1, 1, op), (4, 2, i), (6, 1, j), (10, 2, n)] }

/-- The state with one request in Lantern's order. -/
def queued (s : State) (r : Req) : State := s.lanM fun l => { l with queue := [r] }

/-- A member at position 1 of a chain of 16, in epoch 1. -/
def dom : State :=
  up.stdM fun d => { d with mode := .member, position := some 1, count := 16, epoch := 1, members := 0xFFFF, routeEn := true, lastBeacon := 500000 }

/-- A message on port 0 with a type and fields, of an epoch. -/
def mg (ty : Nat) (fields : List (Nat × Nat × Nat)) (epoch : Nat := 1) : Msg := { port := 0, src := 2, epoch := epoch, body := mkMsg ty fields }

/-- The state with one message to be taken. -/
def got (s : State) (m : Msg) : State := s.stdM fun d => { d with inbox := [m] }

theorem leNat_natLe (n : Nat) : ∀ x, leNat (natLe n x) = x % 256 ^ n := by
  induction n with
  | zero => intro x; simp [natLe, leNat, Nat.mod_one]
  | succ n ih =>
    intro x
    show (BitVec.ofNat 8 x).toNat + 256 * leNat (natLe n (x / 256)) = _
    rw [ih, Nat.pow_succ, Nat.mul_comm, Nat.mul_comm (256 ^ n), Nat.mod_mul]
    simp [BitVec.toNat_ofNat, Nat.mul_comm]
theorem leNat_natLe_four (x : Nat) (h : x < 2 ^ 32) : leNat (natLe 4 x) = x := by rw [leNat_natLe]; exact Nat.mod_eq_of_lt h
theorem crcBit_lt (c : Nat) (h : c < 2 ^ 32) : (if c % 2 = 1 then (c / 2) ^^^ 0xEDB88320 else c / 2) < 2 ^ 32 := by
  split
  · exact Nat.xor_lt_two_pow (by omega) (by decide)
  · omega
theorem crcFold_lt (l : List Nat) : ∀ c, c < 2 ^ 32 → l.foldl (fun c _ => if c % 2 = 1 then (c / 2) ^^^ 0xEDB88320 else c / 2) c < 2 ^ 32 := by
  induction l with
  | nil => exact fun c h => h
  | cons a l ih => exact fun c h => ih _ (crcBit_lt c h)
theorem crc32_lt (bs : List Byte) : crc32 bs < 2 ^ 32 := by
  have key : ∀ (bs : List Byte) c, c < 2 ^ 32 → bs.foldl crc32Byte c < 2 ^ 32 := by
    intro bs
    induction bs with
    | nil => exact fun c h => h
    | cons b bs ih =>
      intro c h
      refine ih _ ?_
      unfold crc32Byte
      exact crcFold_lt _ _ (Nat.xor_lt_two_pow h (Nat.lt_trans b.isLt (by decide)))
  exact Nat.xor_lt_two_pow (key bs _ (by decide)) (by decide)
theorem flitOk_append (p : List Byte) (h : p.length = 528) (x : Nat) : flitOk (p ++ natLe 4 x) = (x % 2 ^ 32 == crc32 p) := by
  unfold flitOk fieldAt
  have h4 : (natLe 4 x).length = 4 := rfl
  rw [List.drop_append_of_le_length (by omega), List.drop_of_length_le (by omega), List.nil_append, List.take_of_length_le (by omega), leNat_natLe,
    show (256 : Nat) ^ 4 = 2 ^ 32 from by decide, List.take_append_of_le_length (by omega), List.take_of_length_le (by omega)]

/-- A flit of 532 bytes with a number added to its right CRC. -/
def flitBytes (x : Nat) : List Byte :=
  let b := blank 528 [(0, 1, 0x10), (519, 1, 0x10)]
  b ++ natLe 4 (crc32 b + x)

theorem flitBytes_ok : flitOk (flitBytes 0) = true := by
  unfold flitBytes
  dsimp only
  rw [flitOk_append _ (by decide +kernel), Nat.add_zero, Nat.mod_eq_of_lt (crc32_lt _), beq_self_eq_true]

theorem flitBytes_bad : flitOk (flitBytes 1) = false := by
  unfold flitBytes
  dsimp only
  rw [flitOk_append _ (by decide +kernel), beq_eq_false_iff_ne]
  have := crc32_lt (blank 528 [(0, 1, 0x10), (519, 1, 0x10)])
  omega

/-- A device with one port up. -/
def linked (p : Port) : State := up.stdM fun d => { d with position := some 1, ports := { p with mode := .up } :: List.replicate 7 {} }

/-- A device that waits for its Setting image. -/
def bt : State := up.lanM fun l => { l with power := .boot, phase := .none }

/-- A device whose bay 0 stands as changed. -/
def inBay (f : Bay → Bay) : State := { up.bayM 0 f with now := 6000000 }

/-- A T3 write of extent 5 on bay 0 that has sent its one unit. -/
def cofferDesc (p : Purpose) : Desc := { cookie := 3, op := 2, tier := 3, bay := 0, extent := 5, sent := 1, purpose := p }

/-- A device whose MOUNTED bay 0 holds a coffer. -/
def coffered (c : Coffer) : State := inBay fun b => { b with mode := .mounted, enable := true, coffer := some c }

/-- The parure with a second rate, whose local stack has one layer and a window of 64. -/
def img2 : List Byte :=
  blank 1024 [(12, 4, 1), (16, 8, 1024), (28, 2, 4), (31, 1, 4),
    (256, 2, 7), (264, 8, 512), (272, 8, 64), (288, 2, 8), (296, 8, 576), (304, 8, 64), (320, 2, 9), (328, 8, 640), (336, 8, 128),
    (516, 2, 1), (518, 2, 1), (520, 4, 64), (524, 2, 32), (526, 2, 0x0101), (528, 2, 32), (592, 4, 1000), (596, 4, 1000), (600, 4, 1), (604, 4, 1)]
def par2 : Parure := { par with image := img2, header := img2.take 256 }

/-- A device with a parure loaded and 64 pages in every pool. -/
def roomy (p : Parure) : State := { up with parures := [(0, p)], ast := { enable := true, pool := List.replicate 8 64 } }

/-- A charm of one symbol, present in stack 0. -/
def charm1 : Charm := { names := [4], parureHash := 77, symbols := [65], glen := 1, digest := 6, replicas := { state := .present, frames := [0] } :: List.replicate 7 {} }

/-- A device with a parure, pages in every pool, T2 of 1,000 units and one session. -/
def tiered : State :=
  ((roomy par).lanM fun x => { x with t2Units := 1000 }).curM fun c => { c with t2Size := 1000 }
/-- That device with a session at handle 1. -/
def parked (l : Locket) : State := { tiered with lockets := [(1, { l with session := 7 })] }

/-- The header bytes of a locket extent of two units, with identifier 5, of session 7. -/
def lockHead : List Byte := blank 96 [(0, 8, leNat (ascii "CL9LOCKT")), (8, 2, 1), (10, 2, 0xFF02), (24, 8, 5), (32, 8, 2), (48, 8, 7)]

/-- A collection of four items with room for 64 in its side list, and one of its items. -/
def coll1 : Coll := { handle := 3, capacity := 4, frames := [0, 1] }
def item1 : Item := { insCsn := 1, key := 5, tags := 0, norm := 0, sketch := zeros 32, vector := [] }

/-- A device with a collection at number 0. -/
def coll (k : Coll) : State := { up with colls := [(0, k)] }

/-- The first compute tile of sweep 0. -/
def firstTile : TileRef := { sweep := 0, mc := 0, jj := 0, kind := .compute 0, ord := 0 }

theorem test_meets_ControlCommandsComplete_1 : ∃ (s : State) (id : _),
    admitted s id 0x01 = true := by
  refine ⟨asked up 0x01 [], 5, ?_⟩
  decide +kernel

theorem test_meets_ControlCommandsComplete_2 : ∃ (s : State) (id : _),
    admitted s id 0x02 = true := by
  refine ⟨asked up 0x02 [], 5, ?_⟩
  decide +kernel

theorem test_meets_ControlCommandsComplete_3 : ∃ (s : State) (id : _) (c : _),
    s.lan.refclk = true ∧
    findCmd s id = some c ∧
    c.opcode = 0x02 ∧
    c.started = true ∧
    completed s id = false ∧
    (∀ d ∈ s.hif.cmds.takeWhile (fun d => d.id != id), d.ring = c.ring → completed s d.id = true) := by
  refine ⟨up.hifM fun h => { h with cmds := [{ id := 5, opcode := 2, started := true }] }, 5, { id := 5, opcode := 2, started := true }, ?_⟩
  decide +kernel

theorem test_meets_DoorbellsMoveIndices_1 : ∃ (s : State) (ring : _) (v : _),
    ring < 1024 ∧
    serving s = true ∧
    v < 2 ^ (s.ring ring).sqLog2 := by
  refine ⟨up, 1023, 63, ?_⟩
  decide +kernel

theorem test_meets_DoorbellsMoveIndices_2 : ∃ (s : State) (ring : _) (v : _),
    ring < 1024 ∧
    serving s = true ∧
    2 ^ (s.ring ring).sqLog2 ≤ v := by
  refine ⟨up, 0, 64, ?_⟩
  decide +kernel

theorem test_meets_DoorbellsMoveIndices_3 : ∃ (s : State) (ring : _) (v : _),
    ring < 1024 ∧
    serving s = true ∧
    v < 2 ^ (s.ring ring).cqLog2 := by
  refine ⟨up, 1023, 63, ?_⟩
  decide +kernel

theorem test_meets_DoorbellsMoveIndices_4 : ∃ (s : State) (ring : _) (v : _),
    ring < 1024 ∧
    serving s = true ∧
    2 ^ (s.ring ring).cqLog2 ≤ v := by
  refine ⟨up, 0, 64, ?_⟩
  decide +kernel

theorem test_meets_AckFreesPackets_1 : ∃ (s : State) (ring : _) (data : List Byte) (h : _) (l : _),
    ring < 1024 ∧
    serving s = true ∧
    data.length = 16 ∧
    s.lockets.find? (fun e => e.2.session == fieldAt data 0 8 && e.2.tenant == ringTenant s ring) = some (h, l) ∧
    l.acked < fieldAt data 8 8 ∧
    fieldAt data 8 8 ≤ writtenCount l := by
  refine ⟨sess { packets := [{ session := 7, tenant := 0, seq := 0, bytes := [], written := true }] }, 0, natLe 8 7 ++ natLe 8 1, 1, { session := 7, packets := [{ session := 7, tenant := 0, seq := 0, bytes := [], written := true }] }, ?_⟩
  decide +kernel

theorem test_meets_AckFreesPackets_2 : ∃ (s : State) (ring : _) (data : List Byte) (h : _) (l : _),
    ring < 1024 ∧
    serving s = true ∧
    data.length = 16 ∧
    s.lockets.find? (fun e => e.2.session == fieldAt data 0 8 && e.2.tenant == ringTenant s ring) = some (h, l) ∧
    fieldAt data 8 8 ≤ l.acked := by
  refine ⟨sess {}, 0, natLe 8 7 ++ natLe 8 0, 1, { session := 7 }, ?_⟩
  decide +kernel

theorem test_meets_AckFreesPackets_3 : ∃ (s : State) (ring : _) (data : List Byte),
    ring < 1024 ∧
    serving s = true ∧
    (data.length ≠ 16 ∨ match s.lockets.find? (fun e => e.2.session == fieldAt data 0 8 && e.2.tenant == ringTenant s ring) with | none => True | some e => e.2.acked < fieldAt data 8 8 ∧ writtenCount e.2 < fieldAt data 8 8) := by
  refine ⟨sess {}, 0, natLe 8 7 ++ natLe 8 1, by decide, by decide +kernel, .inr ?_⟩
  show 0 < 1 ∧ 0 < 1
  decide

theorem test_meets_HostSlotsWritten_1 : ∃ (s : State) (ring : _) (data : List Byte),
    ring < 1024 ∧
    serving s = true ∧
    data.length = 8 := by
  refine ⟨up, 1023, zeros 8, ?_⟩
  decide +kernel

theorem test_meets_HostSlotsWritten_2 : ∃ (s : State) (ring : _) (data : List Byte),
    ring < 1024 ∧
    serving s = true ∧
    data.length = 4 := by
  refine ⟨up, 0, zeros 4, ?_⟩
  decide +kernel

theorem test_meets_HostSlotsWritten_3 : ∃ (s : State) (ring : _) (off : _) (data : List Byte) (h : _) (l : _) (k : _),
    ring < 1024 ∧
    serving s = true ∧
    (data.length = 4 ∨ data.length = 8) ∧
    off % data.length = 0 ∧
    apertureLocket s ring = some (h, l) ∧
    ((0x100 ≤ off ∧ off + data.length ≤ 0x140 ∧ k = 320 + (off - 0x100)) ∨ (0x200 ≤ off ∧ off + data.length ≤ 0x300 ∧ k = 768 + (off - 0x200))) := by
  refine ⟨(sess {}).ringM 0 fun g => { g with slotSel := 7 }, 0, 0x13C, zeros 4, 1, { session := 7 }, 380, ?_⟩
  decide +kernel

theorem test_meets_HostSlotsWritten_4 : ∃ (s : State) (addr : _) (data : List Byte) (h : _) (l : _),
    s.hif.linkUp = true ∧
    serving s = true ∧
    s.lockets.find? (fun e => inT1 e.2 && e.2.page ≤ addr && addr < e.2.page + 4096) = some (h, l) ∧
    ((320 ≤ addr - l.page ∧ addr - l.page + data.length ≤ 384) ∨ (768 ≤ addr - l.page ∧ addr - l.page + data.length ≤ 1024)) := by
  refine ⟨sess { page := 8192 }, 8192 + 320, zeros 64, 1, { session := 7, page := 8192 }, ?_⟩
  decide +kernel

theorem test_meets_HostSlotsWritten_5 : ∃ (s : State) (addr : _) (data : List Byte),
    s.hif.linkUp = true ∧
    serving s = true ∧
    (match s.lockets.find? (fun e => inT1 e.2 && e.2.page ≤ addr && addr < e.2.page + 4096) with | none => True | some e => ¬((320 ≤ addr - e.2.page ∧ addr - e.2.page + data.length ≤ 384) ∨ (768 ≤ addr - e.2.page ∧ addr - e.2.page + data.length ≤ 1024))) := by
  refine ⟨sess { page := 8192 }, 8192 + 319, zeros 4, by decide +kernel, by decide +kernel, ?_⟩
  show ¬((320 ≤ 319 ∧ 319 + 4 ≤ 384) ∨ (768 ≤ 319 ∧ 319 + 4 ≤ 1024))
  decide

theorem test_meets_HostAccessesAnswered_1 : ∃ (s : State) (addr : Nat) (len : Nat),
    s.hif.linkUp = true ∧
    serving s = true := by
  refine ⟨up, 0, 64, ?_⟩
  decide +kernel

theorem test_meets_HostAccessesAnswered_2 : ∃ (s : State) (addr : Nat) (len : Nat),
    s.hif.linkUp = true ∧
    serving s = true ∧
    0xB00000000 ≤ bits addr 35 0 ∧
    bits addr 35 0 < 0xC00000000 := by
  refine ⟨up, 0xBFFFFFFFF, 4, ?_⟩
  decide +kernel

theorem test_meets_HostAccessesAnswered_3 : ∃ (s : State) (off : Nat) (len : Nat),
    s.hif.linkUp = true ∧
    s.std.modeInForce ≠ 1 ∧
    0 < s.std.count ∧
    off < 2 ^ 26 ∧
    (len = 4 ∨ len = 8) := by
  refine ⟨up.stdM fun d => { d with count := 16 }, 0, 8, ?_⟩
  decide +kernel

theorem test_meets_HostAccessesAnswered_4 : ∃ (s : State) (off : Nat) (data : List Byte),
    s.hif.linkUp = true ∧
    s.std.modeInForce ≠ 1 ∧
    0 < s.std.count ∧
    off < 2 ^ 26 ∧
    (data.length = 4 ∨ data.length = 8) := by
  refine ⟨up.stdM fun d => { d with count := 16 }, 2 ^ 26 - 4, zeros 4, ?_⟩
  decide +kernel

theorem test_meets_HostAccessesAnswered_5 : ∃ (s : State) (k : Nat) (off : Nat) (len : Nat),
    s.hif.linkUp = true ∧
    s.std.modeInForce ≠ 1 ∧
    0 < k ∧
    k < s.std.count ∧
    k < 64 ∧
    off < 2 ^ 26 ∧
    (len = 4 ∨ len = 8) := by
  refine ⟨up.stdM fun d => { d with count := 64 }, 63, 2 ^ 26 - 4, 4, ?_⟩
  decide +kernel

theorem test_meets_HostAccessesAnswered_6 : ∃ (s : State) (addr : Nat) (len : Nat),
    s.hif.linkUp = true ∧
    s.std.modeInForce = 1 := by
  refine ⟨up.stdM fun d => { d with modeInForce := 1 }, 0, 4, ?_⟩
  decide +kernel

theorem test_meets_HostAccessesAnswered_7 : ∃ (s : State) (off : Nat) (data : List Byte),
    s.lan.coreUp = true ∧
    data.length = 4 ∧
    off % 4 = 0 ∧
    off < 0x1000000 := by
  refine ⟨up, 0xFFFFFC, zeros 4, ?_⟩
  decide +kernel

theorem test_meets_HostAccessesAnswered_8 : ∃ (s : State) (off : Nat) (data : List Byte),
    fwRuns s = true ∧
    data.length = 4 ∧
    off % 4 = 0 := by
  refine ⟨up, 0, zeros 4, ?_⟩
  decide +kernel

theorem test_meets_DescriptorsAccepted_1 : ∃ (s : State) (ring : _) (desc : List Byte),
    ring < 1024 ∧
    desc.length = 64 ∧
    serving s = true ∧
    s.hif.fetchEn = true ∧
    hostReach s = true ∧
    viaHead s = false ∧
    nextRing s = some ring ∧
    (police (refill s) (ringTenant s ring) (cmdCost (fieldAt desc 0 1))).2 = none ∧
    bits (fieldAt desc 2 2) 9 0 = ringTenant s ring ∧
    opcodes.contains (fieldAt desc 0 1) = true ∧
    fieldAt desc 0 1 ≠ 2 ∧
    (if cmdCost (fieldAt desc 0 1) != 0 then poolCount s true < 3840 ∧ tenantCount s (ringTenant s ring) < (s.dlv (ringTenant s ring)).outMax else poolCount s false < 256) ∧
    orreryLost s = false := by
  refine ⟨up.ringM 0 fun g => { g with sqEn := true, tail := 1 }, 0, dsc [(0, 1, 1)], ?_⟩
  decide +kernel

theorem test_meets_DescriptorsAccepted_2 : ∃ (s : State) (ring : _) (desc : List Byte) (w : _),
    ring < 1024 ∧
    desc.length = 64 ∧
    serving s = true ∧
    s.hif.fetchEn = true ∧
    hostReach s = true ∧
    viaHead s = false ∧
    nextRing s = some ring ∧
    (police (refill s) (ringTenant s ring) (cmdCost (fieldAt desc 0 1))).2 = some w ∧
    completed s s.hif.nextId = false := by
  refine ⟨(up.ringM 3 fun g => { g with sqEn := true, tail := 1, tenant := 17 }).tenantM 17 fun b => { b with rate := 1, level := 0 }, 3, dsc [(0, 1, 1), (2, 2, 17)], (99000000, 1), ?_⟩
  decide +kernel

theorem test_meets_CompletionsPosted_1 : ∃ (s : State) (ring : _) (d : _),
    ring < 1024 ∧
    s.lan.refclk = true ∧
    s.hif.done.find? (fun d => d.ring == ring) = some d ∧
    postable s ring = true ∧
    cqFull (s.ring ring) = false := by
  refine ⟨(up.ringM 0 fun g => { g with cqEn := true }).hifM fun h => { h with done := [{ id := 5 }] }, 0, { id := 5 }, ?_⟩
  decide +kernel

theorem test_meets_CompletionsPosted_2 : ∃ (s : State) (ring : _) (d : _),
    ring < 1024 ∧
    s.lan.refclk = true ∧
    s.hif.done.find? (fun d => d.ring == ring) = some d ∧
    postable s ring = true ∧
    cqFull (s.ring ring) = true := by
  refine ⟨(up.ringM 0 fun g => { g with cqEn := true, posted := 64 }).hifM fun h => { h with done := [{ id := 5 }] }, 0, { id := 5 }, ?_⟩
  decide +kernel

theorem test_meets_CompletionsPosted_3 : ∃ (s : State) (ring : _),
    ring < 1024 ∧
    s.lan.refclk = true ∧
    (s.ring ring).irqEn = true ∧
    (s.ring ring).unsignalled ≠ 0 ∧
    (s.ring ring).firstUnsignalled + 16 * (s.ring ring).coalTime ≤ s.now := by
  refine ⟨up.ringM 1023 fun g => { g with irqEn := true, unsignalled := 1 }, 1023, ?_⟩
  decide +kernel

/-- A session of tenant 17 with a packet to be written. -/
def withPacket : State := sess { tenant := 17, packets := [{ session := 7, tenant := 17, seq := 0, bytes := zeros 512 }] }

theorem test_meets_PacketsDelivered_1 : ∃ (s : State) (s1 : _) (tn : _) (h : _) (l : _) (p : _),
    s.lan.refclk = true ∧
    wfqSelect s 1 (dlvBacklog s) false = (s1, some tn) ∧
    nextSession s1 tn = some (h, l) ∧
    nextPacket s1 l = some p ∧
    mayPost s = true ∧
    s.integ.mode ≠ .quarantined ∧
    s.lan.power ≠ .boot ∧
    viaHead s = false := by
  refine ⟨withPacket, (wfqSelect withPacket 1 (dlvBacklog withPacket) false).1, 17, 1,
    { session := 7, tenant := 17, packets := [{ session := 7, tenant := 17, seq := 0, bytes := zeros 512 }] },
    { session := 7, tenant := 17, seq := 0, bytes := zeros 512 }, ?_⟩
  decide +kernel

theorem test_meets_KeyOperationsPerformed_1 : ∃ (s : State) (slot : Nat) (tn : Nat),
    slot < 2 ∧
    tn < 1024 ∧
    serving s = true ∧
    (keyBytes s).take 32 ≠ (keyBytes s).drop 32 ∧
    (s.keys.getD tn {}).current ≠ some slot := by
  refine ⟨up.hifM fun h => { h with keyData := 1 :: List.replicate 15 0 }, 1, 1023, ?_⟩
  decide +kernel

theorem test_meets_KeyOperationsPerformed_2 : ∃ (s : State) (slot : Nat) (tn : Nat),
    slot < 2 ∧
    tn < 1024 ∧
    serving s = true ∧
    ((keyBytes s).take 32 = (keyBytes s).drop 32 ∨ (s.keys.getD tn {}).current = some slot) := by
  refine ⟨up, 0, 0, ?_⟩
  decide +kernel

theorem test_meets_KeyOperationsPerformed_3 : ∃ (s : State) (slot : Nat) (tn : Nat),
    slot < 2 ∧
    tn < 1024 ∧
    serving s = true ∧
    (s.keys.getD tn {}).slot slot ≠ none := by
  refine ⟨{ up with keys := [(17, { key1 := some (zeros 64) })] }, 1, 17, ?_⟩
  decide +kernel

theorem test_meets_KeyOperationsPerformed_4 : ∃ (s : State) (slot : Nat) (tn : Nat),
    slot < 2 ∧
    tn < 1024 ∧
    serving s = true ∧
    (s.keys.getD tn {}).slot slot = none := by
  refine ⟨up, 1, 17, ?_⟩
  decide +kernel

theorem test_meets_KeyOperationsPerformed_5 : ∃ (s : State) (slot : Nat) (tn : Nat),
    tn < 1024 ∧
    serving s = true := by
  refine ⟨up, 0, 1023, ?_⟩
  decide +kernel

theorem test_meets_KeyOperationsPerformed_6 : ∃ (s : State) (slot : Nat) (tn : Nat),
    serving s = true ∧
    (∃ b ∈ (keyBytes s).take 32, b ≠ 0#8) := by
  refine ⟨up.hifM fun h => { h with keyData := 1 :: List.replicate 15 0 }, 0, 0, ?_⟩
  decide +kernel

theorem test_meets_KeyOperationsPerformed_7 : ∃ (s : State) (slot : Nat) (tn : Nat),
    serving s = true ∧
    (∀ b ∈ (keyBytes s).take 32, b = 0#8) := by
  refine ⟨up, 0, 0, ?_⟩
  decide +kernel

theorem test_meets_ParuresLoadedAndUnloaded_1 : ∃ (s : State) (id : _) (header : List Byte),
    (header.length = 256 ∨ header = []) ∧
    admitted s id 0x10 = true := by
  refine ⟨asked up 0x10 [(8, 8, 9), (24, 8, 1024), (32, 1, 4), (33, 1, 1)], 5, img.take 256, ?_⟩
  decide +kernel

theorem test_meets_ParuresLoadedAndUnloaded_2 : ∃ (s : State) (slot : Nat) (p : Parure) (s1 : State) (st : Nat) (c : HCmd),
    slot < 16 ∧
    s.parures.get? slot = some p ∧
    p.state = .loading ∧
    p.headerDue = true ∧
    consume s (.parure slot) = some (s1, st) ∧
    findCmd s p.cmd = some c ∧
    completed s p.cmd = false := by
  refine ⟨ended (asked { up with parures := [(15, { par with state := .loading, cmd := 5, headerDue := true })] } 0x10 []) (.parure 15) 0, 15, { par with state := .loading, cmd := 5, headerDue := true },
    _, 0, cmdOf (asked up 0x10 []) 5, by decide, by decide +kernel, rfl, rfl, rfl, by decide +kernel, by decide +kernel⟩

theorem test_meets_ParuresLoadedAndUnloaded_3 : ∃ (s : State) (slot : Nat) (given image : List Byte) (p : Parure) (s1 : State) (st : Nat) (c : HCmd),
    slot < 16 ∧
    s.parures.get? slot = some p ∧
    p.state = .loading ∧
    p.headerDue = false ∧
    consume s (.parure slot) = some (s1, st) ∧
    image = (if p.peer.isSome then p.received else given) ∧
    findCmd s p.cmd = some c ∧
    completed s p.cmd = false := by
  refine ⟨ended (asked { up with parures := [(15, { par with state := .loading, cmd := 5 })] } 0x10 []) (.parure 15) 0, 15, img, img, { par with state := .loading, cmd := 5 },
    _, 0, cmdOf (asked up 0x10 []) 5, by decide, by decide +kernel, rfl, rfl, rfl, rfl, by decide +kernel, by decide +kernel⟩

theorem test_meets_ParuresLoadedAndUnloaded_4 : ∃ (s : State) (id : _) (slot : _) (p : _),
    admitted s id 0x11 = true ∧
    parureHandle s (cmdOf s id).handle = some (slot, p) ∧
    p.state = .loaded ∧
    parureUsed s slot p = false := by
  refine ⟨asked upPar 0x11 [(8, 8, 9)], 5, 0, par, ?_⟩
  decide +kernel

theorem test_meets_ParuresLoadedAndUnloaded_5 : ∃ (s : State) (id : _) (slot : _) (p : _),
    admitted s id 0x11 = true ∧
    parureHandle s (cmdOf s id).handle = some (slot, p) ∧
    p.state = .loaded ∧
    parureUsed s slot p = true := by
  refine ⟨{ asked upPar 0x11 [(8, 8, 9)] with facets := [{ slot := 0 }] }, 5, 0, par, ?_⟩
  decide +kernel

theorem test_meets_ParuresLoadedAndUnloaded_6 : ∃ (s : State) (id : _) (slot : _) (p : _),
    admitted s id 0x11 = true ∧
    parureHandle s (cmdOf s id).handle = some (slot, p) ∧
    p.state = .loading ∧
    p.cmd ≠ id := by
  refine ⟨asked { up with parures := [(0, { par with state := .loading, cmd := 4 })] } 0x11 [(8, 8, 9)], 5, 0, { par with state := .loading, cmd := 4 }, ?_⟩
  decide +kernel

theorem test_meets_FacetsLoadedAndDropped_1 : ∃ (s : State) (id : _) (image : List Byte) (slot : _) (p : _) (a : _),
    admitted s id 0x12 = true ∧
    (cmdOf s id).handle ≠ 0 ∧
    (cmdOf s id).fld 24 8 % 64 = 0 ∧
    (∀ f ∈ s.facets, ¬(f.handle = (cmdOf s id).handle ∧ f.tenant = (cmdOf s id).tenant)) ∧
    parureHandle s ((cmdOf s id).fld 16 8) = some (slot, p) ∧
    p.state = .loaded ∧
    hasSect p.image 10 = true ∧
    (cmdOf s id).fld 32 4 = facetBytes p.image ∧
    facetPadOk (padTo ((cmdOf s id).fld 32 4) image) 0 (facetLayers p.image) = true ∧
    s.facets.length < 65536 ∧
    parFitAny (begun s id) ((cmdOf s id).fld 32 4) = some a := by
  refine ⟨asked upPar 0x12 [(8, 8, 3), (16, 8, 9), (32, 4, 64)], 5, zeros 64, 0, par, (parFitAny upPar 64).getD 0, ?_⟩
  decide +kernel

theorem test_meets_FacetsLoadedAndDropped_2 : ∃ (s : State) (id : _) (f : _),
    admitted s id 0x13 = true ∧
    s.facets.find? (fun f => f.handle != 0 && f.handle == (cmdOf s id).handle && f.tenant == (cmdOf s id).tenant) = some f ∧
    (∀ e ∈ s.lockets, e.2.tenant = (cmdOf s id).tenant → e.2.facetHash = f.hash → e.2.state = .parkedT2 ∨ e.2.state = .parkedT3 ∨ e.2.state = .expired) := by
  refine ⟨{ asked up 0x13 [(8, 8, 3)] with facets := [{ handle := 3, hash := 4 }], lockets := [(1, { facetHash := 4, state := .parkedT2 })] }, 5, { handle := 3, hash := 4 }, ?_⟩
  decide +kernel

theorem test_meets_SessionInputTaken_1 : ∃ (s : State) (id : _) (data : List Byte) (h : _) (l : _),
    entering s id 0x22 h l = true ∧
    l.state = .opened ∧
    ingestOk (cmdOf s id) = true ∧
    (∀ x ∈ ingestSyms (cmdOf s id) data, x < 0x2140) ∧
    l.thread.length + l.pending.length + (ingestSyms (cmdOf s id) data).length ≤ imgMaxThread (locketImg s l) := by
  refine ⟨asked (upSess {}) 0x22 [(1, 1, 16), (8, 8, 7), (16, 2, 20), (24, 2, 0x213F)], 5, [], 1, { session := 7, parureHash := 77 }, ?_⟩
  decide +kernel

theorem test_meets_SessionInputTaken_2 : ∃ (s : State) (id : _) (data : List Byte) (h : _) (l : _),
    entering s id 0x22 h l = true ∧
    l.state = .bound ∧
    ingestOk (cmdOf s id) = true ∧
    (∀ x ∈ ingestSyms (cmdOf s id) data, x < 0x2140) ∧
    l.thread.length + l.pending.length + rowWidth s h l + (ingestSyms (cmdOf s id) data).length ≤ imgMaxThread (locketImg s l) := by
  refine ⟨asked (upSess { state := .bound }) 0x22 [(8, 8, 7), (16, 2, 4)], 5, natLe 8 5, 1, { session := 7, parureHash := 77, state := .bound }, ?_⟩
  decide +kernel

theorem test_meets_SessionInputTaken_3 : ∃ (s : State) (id : _) (h : _) (l : _),
    entering s id 0x23 h l = true ∧
    (l.state = .opened ∨ l.state = .bound) ∧
    samplerOk (cmdOf s id) (((loadedSlot s l.slot).map (·.widthCap)).getD 1) = true ∧
    grammarOk (cmdOf s id) (locketImg s l) = true ∧
    l.thread ≠ [] ∧
    (cmdOf s id).flag 4 = false ∧
    l.stm.generating = false := by
  refine ⟨asked (upSess { thread := [5] }) 0x23 [(8, 8, 7), (16, 1, 1), (17, 1, 4), (28, 4, 0x3F800000)], 5, 1, { session := 7, parureHash := 77, thread := [5] }, ?_⟩
  decide +kernel

theorem test_meets_SessionInputTaken_4 : ∃ (s : State) (id : _) (h : _) (l : _),
    entering s id 0x23 h l = true ∧
    (l.state = .opened ∨ l.state = .bound) ∧
    samplerOk (cmdOf s id) (((loadedSlot s l.slot).map (·.widthCap)).getD 1) = true ∧
    grammarOk (cmdOf s id) (locketImg s l) = true ∧
    l.thread ≠ [] ∧
    (cmdOf s id).flag 4 = false ∧
    (cmdOf s id).flag 5 = false ∧
    (cmdOf s id).flag 6 = false ∧
    l.stm.generating = true := by
  refine ⟨asked (upSess { thread := [5], stm := { generating := true } }) 0x23 [(8, 8, 7), (16, 1, 1), (17, 1, 4), (28, 4, 0x3F800000)], 5, 1, { session := 7, parureHash := 77, thread := [5], stm := { generating := true } }, ?_⟩
  decide +kernel

theorem test_meets_SessionInputTaken_5 : ∃ (s : State) (id : _) (h : _) (l : _),
    entering s id 0x24 h l = true ∧
    (l.state = .opened ∨ l.state = .bound) ∧
    l.stm.generating = false ∧
    (cmdOf s id).flag 4 = false := by
  refine ⟨asked (upSess {}) 0x24 [(8, 8, 7)], 5, 1, { session := 7, parureHash := 77 }, ?_⟩
  decide +kernel

theorem test_meets_SessionInputTaken_6 : ∃ (s : State) (id : _) (h : _) (l : _),
    entering s id 0x24 h l = true ∧
    l.state = .opened ∧
    l.stm.generating = true ∧
    (cmdOf s id).flag 4 = false ∧
    l.genCmd ≠ some id ∧
    (∀ g ∈ l.genWait, g.cmd ≠ id) := by
  refine ⟨asked (upSess { stm := { generating := true }, genCmd := some 4 }) 0x24 [(8, 8, 7)], 5, 1, { session := 7, parureHash := 77, stm := { generating := true }, genCmd := some 4 }, ?_⟩
  decide +kernel

theorem test_meets_RailsAndClockActed_1 : ∃ (s : State),
    s.lan.alwaysOn = true := by
  refine ⟨up, ?_⟩
  decide +kernel

theorem test_meets_RailsAndClockActed_2 : ∃ (s : State) (head : Bool),
    s.lan.alwaysOn = false := by
  refine ⟨up.lanM fun l => { l with alwaysOn := false }, true, ?_⟩
  decide +kernel

theorem test_meets_RailsAndClockActed_3 : ∃ (s : State) (n : _),
    s.lan.pgAt = some n ∧
    s.lan.alwaysOn = true ∧
    s.lan.refclk = true ∧
    s.lan.power = .boot ∧
    n ≤ s.now := by
  refine ⟨{ State.reset with now := 220000 }, 220000, ?_⟩
  decide +kernel

theorem test_meets_RailsAndClockActed_4 : ∃ (s : State),
    s.lan.coreUp = true ∧
    s.lan.alwaysOn = true ∧
    s.lan.refclk = true := by
  refine ⟨up, ?_⟩
  decide +kernel

theorem test_meets_RailsAndClockActed_5 : ∃ (s : State),
    s.lan.alwaysOn = true ∧
    s.lan.refclk = true := by
  refine ⟨up, ?_⟩
  decide +kernel

theorem test_meets_RailsAndClockActed_6 : ∃ (s : State),
    s.lan.alwaysOn = true ∧
    s.lan.refclk = false ∧
    s.lan.power ≠ .night := by
  refine ⟨up.lanM fun l => { l with refclk := false }, ?_⟩
  decide +kernel

theorem test_meets_RailsAndClockActed_7 : ∃ (s : State) (sensor : _),
    sensor < 24 ∧
    s.lan.alwaysOn = true := by
  refine ⟨up, 23, ?_⟩
  decide +kernel

theorem test_meets_ResetsPerformed_1 : ∃ (s : State) (down : Bool),
    s.lan.alwaysOn = true ∧
    s.lan.refclk = true ∧
    (if down then s.hif.mode = .up else s.lan.perst = false) ∧
    s.lan.power ≠ .night ∧
    s.lan.pgAt = none ∧
    s.lan.railsPg = true := by
  refine ⟨up, true, ?_⟩
  decide +kernel

theorem test_meets_ResetsPerformed_2 : ∃ (s : State) (w : _) (v : _) (c : _),
    (w = 4 ∨ w = 8 ∨ w = 16) ∧
    1 ≤ v ∧
    v ≤ 6 ∧
    c ≤ 2 ∧
    (c = 0 ∨ s.lan.cxlEn = 1) ∧
    s.lan.alwaysOn = true ∧
    s.lan.refclk = true ∧
    s.lan.power ≠ .night ∧
    s.lan.pgAt = none ∧
    s.lan.railsPg = true ∧
    s.lan.coreUp = true ∧
    s.std.modeInForce = 1 := by
  refine ⟨(up.stdM fun d => { d with modeInForce := 1 }).lanM fun l => { l with cxlEn := 1 }, 16, 6, 2, ?_⟩
  decide +kernel

theorem test_meets_ResetsPerformed_3 : ∃ (s : State),
    s.hif.mode = .up ∧
    s.lan.power ≠ .night ∧
    s.lan.power ≠ .boot := by
  refine ⟨up, ?_⟩
  decide +kernel

theorem test_meets_ResetsPerformed_4 : ∃ (s : State) (n : _),
    s.lan.alwaysOn = true ∧
    s.lan.refclk = true ∧
    s.lan.resetDue = some (.cold, some n) ∧
    n ≤ s.now := by
  refine ⟨up.lanM fun l => { l with resetDue := some (.cold, some 5) }, 5, ?_⟩
  decide +kernel

theorem test_meets_ResetsPerformed_5 : ∃ (s : State) (n : _),
    s.lan.alwaysOn = true ∧
    s.lan.refclk = true ∧
    s.lan.resetDue = some (.warm, some n) ∧
    n ≤ s.now ∧
    s.lan.power ≠ .night ∧
    s.lan.pgAt = none ∧
    s.lan.railsPg = true := by
  refine ⟨up.lanM fun l => { l with resetDue := some (.warm, some 5) }, 5, ?_⟩
  decide +kernel

theorem test_meets_ResetsPerformed_6 : ∃ (s : State) (n : _),
    s.lan.alwaysOn = true ∧
    s.lan.refclk = true ∧
    s.lan.resetDue = some (.device, some n) ∧
    n ≤ s.now ∧
    s.lan.power ≠ .night ∧
    s.lan.power ≠ .boot := by
  refine ⟨up.lanM fun l => { l with resetDue := some (.device, some 5) }, 5, ?_⟩
  decide +kernel

theorem test_meets_ResetsPerformed_7 : ∃ (s : State) (v : _),
    s.lan.alwaysOn = true ∧
    s.lan.refclk = true ∧
    s.lan.coreUp = true ∧
    v ≤ s.lan.vcoreSet * 90 / 100 := by
  refine ⟨up, 702, ?_⟩
  decide +kernel

theorem test_meets_ResetsPerformed_8 : ∃ (s : State) (v : _) (n : _),
    s.lan.alwaysOn = true ∧
    s.lan.refclk = true ∧
    s.lan.stopped = true ∧
    s.lan.goodSince = some n ∧
    n + 100000 ≤ s.now ∧
    s.lan.vcoreSet * 94 / 100 ≤ v := by
  refine ⟨up.lanM fun l => { l with stopped := true, goodSince := some 5 }, 734, 5, ?_⟩
  decide +kernel

theorem test_meets_ResetsPerformed_9 : ∃ (s : State) (n : _),
    s.lan.alwaysOn = true ∧
    s.lan.refclk = true ∧
    s.lan.phase = .running ∧
    (s.lan.power = .active ∨ s.lan.power = .dusk) ∧
    s.lan.wdtPeriod ≠ 0 ∧
    s.lan.wdtKick = some n ∧
    n + s.lan.wdtPeriod * 100000 ≤ s.now ∧
    s.lan.wdtAction ≤ 2 := by
  refine ⟨up.lanM fun l => { l with wdtPeriod := 9, wdtKick := some 5 }, 5, ?_⟩
  decide +kernel

theorem test_meets_PowerStatesEntered_1 : ∃ (s : State) (n : _),
    s.lan.alwaysOn = true ∧
    s.lan.refclk = true ∧
    s.lan.power = .active ∧
    s.eph.active = none ∧
    s.eph.jobs = [] ∧
    s.lan.transition = none ∧
    s.lan.idleSince = some n ∧
    n + 100000 ≤ s.now := by
  refine ⟨up.lanM fun l => { l with idleSince := some 5 }, 5, ?_⟩
  decide +kernel

theorem test_meets_PowerStatesEntered_2 : ∃ (s : State),
    s.lan.refclk = true ∧
    s.lan.power = .dusk ∧
    (s.eph.jobs ≠ [] ∨ s.eph.switch.isSome ∨ (s.eph.active.isSome ∧ s.eph.enable = true) ∨ s.lan.transition.isSome) := by
  refine ⟨up.lanM fun l => { l with power := .dusk, transition := some 5 }, ?_⟩
  decide +kernel

theorem test_meets_PowerStatesEntered_3 : ∃ (s : State),
    s.lan.alwaysOn = true ∧
    s.lan.refclk = true ∧
    s.lan.powerReq = 2 ∧
    s.lan.transition.isSome ∧
    s.lan.power = .active ∧
    (∀ b ∈ s.bays, b.programs = []) := by
  refine ⟨up.lanM fun l => { l with powerReq := 2, transition := some 5 }, ?_⟩
  decide +kernel

theorem test_meets_PowerStatesEntered_4 : ∃ (s : State),
    s.lan.alwaysOn = true ∧
    s.lan.refclk = true ∧
    s.lan.powerReq = 0 ∧
    s.lan.transition.isSome ∧
    s.lan.power = .twilight := by
  refine ⟨up.lanM fun l => { l with power := .twilight, transition := some 5 }, ?_⟩
  decide +kernel

theorem test_meets_PowerStatesEntered_5 : ∃ (s : State),
    s.lan.alwaysOn = true ∧
    s.lan.refclk = true ∧
    s.lan.powerReq = 3 ∧
    s.lan.transition.isSome ∧
    (s.lan.power = .boot ∨ s.lan.power = .active ∨ s.lan.power = .twilight) ∧
    (∀ b ∈ s.bays, b.programs = []) := by
  refine ⟨up.lanM fun l => { l with powerReq := 3, transition := some 5, power := .twilight }, ?_⟩
  decide +kernel

theorem test_meets_PowerStatesEntered_6 : ∃ (s : State),
    s.lan.alwaysOn = true ∧
    s.lan.refclk = true ∧
    s.lan.powerReq = 0 ∧
    s.lan.transition.isSome ∧
    s.lan.power = .night := by
  refine ⟨up.lanM fun l => { l with power := .night, transition := some 5 }, ?_⟩
  decide +kernel

theorem test_meets_SupplyAndHeatSupervised_1 : ∃ (s : State) (v : Nat) (w : Bool),
    s.lan.alwaysOn = true ∧
    s.lan.refclk = true ∧
    s.lan.coreUp = true ∧
    s.lan.lowSince = none ∧
    s.lan.stopped = false ∧
    (w = true ∨ v < s.lan.vcoreSet * 94 / 100) := by
  refine ⟨up, 732, false, ?_⟩
  decide +kernel

theorem test_meets_SupplyAndHeatSupervised_2 : ∃ (s : State) (v : _) (n : _),
    s.lan.alwaysOn = true ∧
    s.lan.refclk = true ∧
    s.lan.lowSince = some n ∧
    s.lan.stopped = false ∧
    s.now ≤ n + 20000 ∧
    s.lan.vcoreSet * 94 / 100 ≤ v := by
  refine ⟨up.lanM fun l => { l with lowSince := some 990000 }, 733, 990000, ?_⟩
  decide +kernel

theorem test_meets_SupplyAndHeatSupervised_3 : ∃ (s : State) (n : _),
    s.lan.alwaysOn = true ∧
    s.lan.refclk = true ∧
    s.lan.coreUp = true ∧
    s.lan.stopped = false ∧
    s.lan.lowSince = some n ∧
    n + 20000 ≤ s.now := by
  refine ⟨up.lanM fun l => { l with lowSince := some 980000 }, 980000, ?_⟩
  decide +kernel

theorem test_meets_SupplyAndHeatSupervised_4 : ∃ (s : State) (readings : List Int),
    readings.length = 24 ∧
    s.lan.alwaysOn = true ∧
    s.lan.refclk = true ∧
    s.lan.lastTemp + 1000 ≤ s.now := by
  refine ⟨up, List.replicate 24 400, ?_⟩
  decide +kernel

theorem test_meets_SupplyAndHeatSupervised_5 : ∃ (s : State),
    s.lan.alwaysOn = true ∧
    s.lan.refclk = true ∧
    s.lan.tripped = false ∧
    (∃ n ∈ s.lan.tripRun, 3 ≤ n) := by
  refine ⟨up.lanM fun l => { l with tripRun := [3] }, ?_⟩
  decide +kernel

theorem test_meets_SupplyAndHeatSupervised_6 : ∃ (s : State) (ok : Bool) (v : Nat) (i : Nat),
    s.lan.alwaysOn = true ∧
    s.lan.refclk = true ∧
    s.lan.lastAvs + 1000 ≤ s.now ∧
    v < 2 ^ 16 ∧
    i < 2 ^ 16 := by
  refine ⟨up, true, 65535, 0, ?_⟩
  decide +kernel

theorem test_meets_AlmanacWritesPerformed_1 : ∃ (s : State) (r : _),
    asks s r 0x6100 1 0x5A := by
  refine ⟨queued up (wr 0x6100 1 0x5A), wr 0x6100 1 0x5A, ?_⟩
  unfold asks
  decide +kernel

theorem test_meets_AlmanacWritesPerformed_2 : ∃ (s : State) (r : _),
    asks s r 0x6100 1 0xA5 := by
  refine ⟨queued up (wr 0x6100 1 0xA5), wr 0x6100 1 0xA5, ?_⟩
  unfold asks
  decide +kernel

theorem test_meets_AlmanacWritesPerformed_3 : ∃ (s : State) (r : _),
    asks s r 0x6100 1 0xC3 := by
  refine ⟨queued up (wr 0x6100 1 0xC3), wr 0x6100 1 0xC3, ?_⟩
  unfold asks
  decide +kernel

theorem test_meets_AlmanacWritesPerformed_4 : ∃ (s : State) (r : _) (v : _),
    asks s r 0x6400 9 v := by
  refine ⟨queued up (wr 0x6400 9 0xA5), wr 0x6400 9 0xA5, 0xA5, ?_⟩
  unfold asks
  decide +kernel

theorem test_meets_AlmanacWritesPerformed_5 : ∃ (s : State) (r : _) (v : _),
    asks s r 0x6400 1 v := by
  refine ⟨queued State.reset (wr 0x6400 1 780), wr 0x6400 1 780, 780, ?_⟩
  unfold asks
  decide +kernel

theorem test_meets_AlmanacWritesPerformed_6 : ∃ (s : State) (r : _) (v : _),
    asks s r 0x6300 5 v := by
  refine ⟨queued up (wr 0x6300 5 0), wr 0x6300 5 0, 0, ?_⟩
  unfold asks
  decide +kernel

theorem test_meets_AlmanacWritesPerformed_7 : ∃ (s : State) (r : _) (v : _),
    asks s r 0x6200 3 v := by
  refine ⟨queued up (wr 0x6200 3 1), wr 0x6200 3 1, 1, ?_⟩
  unfold asks
  decide +kernel

theorem test_meets_AlmanacWritesPerformed_8 : ∃ (s : State),
    lanternUp s = true ∧
    wdtRuns s = true := by
  refine ⟨up, ?_⟩
  decide +kernel

theorem test_meets_AlmanacWritesPerformed_9 : ∃ (s : State) (r : _) (v : _),
    asks s r 0x6200 1 v := by
  refine ⟨queued up (wr 0x6200 1 9), wr 0x6200 1 9, 9, ?_⟩
  unfold asks
  decide +kernel

theorem test_meets_AlmanacWritesPerformed_10 : ∃ (s : State) (r : _) (v : _),
    asks s r 0x1010 1 v := by
  refine ⟨queued up (wr 0x1010 1 3), wr 0x1010 1 3, 3, ?_⟩
  unfold asks
  decide +kernel

theorem test_meets_AlmanacWritesPerformed_11 : ∃ (s : State) (r : _) (v : _),
    asks s r 0x5300 3 v := by
  refine ⟨queued up (wr 0x5300 3 0xA5), wr 0x5300 3 0xA5, 0xA5, ?_⟩
  unfold asks
  decide +kernel

theorem test_meets_AlmanacWritesPerformed_12 : ∃ (s : State) (r : _) (v : _),
    asks s r 0x5000 3 v := by
  refine ⟨queued { up with lpe := {} } (wr 0x5000 3 0xA5), wr 0x5000 3 0xA5, 0xA5, ?_⟩
  unfold asks
  decide +kernel

theorem test_meets_AlmanacWritesPerformed_13 : ∃ (s : State) (r : _) (v : _),
    asks s r 0x4200 7 v := by
  refine ⟨queued up (wr 0x4200 7 1), wr 0x4200 7 1, 1, ?_⟩
  unfold asks
  decide +kernel

theorem test_meets_AlmanacWritesPerformed_14 : ∃ (s : State) (r : Req) (v : Nat) (k : Nat),
    k < 1024 ∧
    asks s r (0x7000 + k) 2 v := by
  refine ⟨queued up (wr (0x7000 + 1023) 2 0xA5), wr (0x7000 + 1023) 2 0xA5, 0xA5, 1023, ?_⟩
  unfold asks
  decide +kernel

theorem test_meets_AlmanacRequestsAnswered_1 : ∃ (s : State) (r : _),
    front s = some r ∧
    r.op = 1 ∧
    readCheck s r = 0 ∧
    r.off = 0 := by
  refine ⟨queued up (rq 1 0x1000 1 16), rq 1 0x1000 1 16, ?_⟩
  decide +kernel

theorem test_meets_AlmanacRequestsAnswered_2 : ∃ (s : State) (r : _) (v : _),
    asks s r 0x6200 2 v := by
  refine ⟨queued up (wr 0x6200 2 1), wr 0x6200 2 1, 1, ?_⟩
  unfold asks
  decide +kernel

theorem test_meets_AlmanacRequestsAnswered_3 : ∃ (s : State) (r : _) (v : _),
    asks s r 0x1010 3 v := by
  refine ⟨queued up (wr 0x1010 3 7), wr 0x1010 3 7, 7, ?_⟩
  unfold asks
  decide +kernel

theorem test_meets_AlmanacRequestsAnswered_4 : ∃ (s : State) (r : _) (v : _),
    asks s r 0x6400 8 v := by
  refine ⟨queued up (wr 0x6400 8 2), wr 0x6400 8 2, 2, ?_⟩
  unfold asks
  decide +kernel

theorem test_meets_AlmanacRequestsAnswered_5 : ∃ (s : State) (r : _) (k : _),
    front s = some r ∧
    r.op = 2 ∧
    writeCheck s r = k ∧
    k ≠ 0 ∧
    k < 256 := by
  refine ⟨queued up (wr 0x1000 1 0), wr 0x1000 1 0, 2, ?_⟩
  decide +kernel

theorem test_meets_AlmanacRequestsAnswered_6 : ∃ (s : State) (r : _) (e : _),
    front s = some r ∧
    r.op = 3 ∧
    malformed r = false ∧
    entrySpec r.index r.sub = some e := by
  refine ⟨queued up (rq 3 0x1010 3 0), rq 3 0x1010 3 0, (entrySpec 0x1010 3).getD { ty := 1, len := 1, acc := 0, cls := 0, home := 0 }, ?_⟩
  decide +kernel

theorem test_meets_AlmanacRequestsAnswered_7 : ∃ (s : State) (r : _),
    front s = some r ∧
    r.op = 4 ∧
    malformed r = false := by
  refine ⟨queued up (rq 4 0 0 0), rq 4 0 0 0, ?_⟩
  decide +kernel

theorem test_meets_AlmanacRequestsAnswered_8 : ∃ (s : State) (e : _) (rest : _),
    lanternUp s = true ∧
    s.lan.events = e :: rest ∧
    s.lan.eventDest ≠ 0 := by
  refine ⟨up.lanM fun l => { l with events := [(7, [])], eventDest := 9 }, (7, []), [], ?_⟩
  decide +kernel

theorem test_meets_AlmanacRequestsAnswered_9 : ∃ (s : State) (n : Nat) (x : Snap),
    lanternUp s = true ∧
    s.lan.snaps[n]? = some x ∧
    x.tick + 100000000 ≤ s.now := by
  refine ⟨({ up with now := 100000000 } : State).lanM fun l => { l with snaps := [{ from_ := .mailbox, entry := 1, value := [], tick := 0 }] }, 0, { from_ := .mailbox, entry := 1, value := [], tick := 0 }, ?_⟩
  decide +kernel

theorem test_meets_AlmanacRequestsAnswered_10 : ∃ (s : State) (r : _) (e : _),
    s.lan.refclk = true ∧
    front s = some r ∧
    malformed r = false ∧
    entrySpec r.index r.sub = some e ∧
    e.home = 1 ∧
    (r.op = 1 ∨ r.op = 2) ∧
    r.since + 100000 ≤ s.now := by
  refine ⟨queued up (rq 1 0x6400 9 1), rq 1 0x6400 9 1, (entrySpec 0x6400 9).getD { ty := 1, len := 1, acc := 0, cls := 0, home := 0 }, ?_⟩
  decide +kernel

theorem test_meets_LanternTraffic_1 : ∃ (s : State),
    lanternUp s = true ∧
    s.hif.mode = .up ∧
    s.lan.mboxBusy = false ∧
    fieldAt s.lan.mbox 10 2 ≤ 1024 ∧
    s.lan.queue.length < 16 := by
  refine ⟨up, ?_⟩
  decide +kernel

theorem test_meets_LanternTraffic_2 : ∃ (s : State) (src : Nat) (pdu : List Byte),
    lanternUp s = true ∧
    sbCode s ≠ 0 ∧
    s.lan.queue.length < 16 ∧
    src < 2 ^ 48 := by
  refine ⟨up.lanM fun l => { l with nodeInForce := 3 }, 2 ^ 48 - 1, [], ?_⟩
  decide +kernel

theorem test_meets_LanternTraffic_3 : ∃ (s : State) (dst src ty : Nat) (pdu : List Byte),
    lanternUp s = true ∧
    sbCode s ≠ 0 := by
  refine ⟨up, 0, 0, 0, [], ?_⟩
  decide +kernel

theorem test_meets_LanternTraffic_4 : ∃ (s : State) (f : _) (rest : _),
    lanternUp s = true ∧
    sbCode s ≠ 0 ∧
    s.lan.tx = f :: rest ∧
    f.act = 0 ∧
    s.lan.nodeDue = none := by
  refine ⟨up.lanM fun l => { l with tx := [{ dest := 5, pdu := [] }] }, { dest := 5, pdu := [] }, [], ?_⟩
  decide +kernel

theorem test_meets_LanternTraffic_5 : ∃ (s : State),
    lanternUp s = true ∧
    sbCode s = 1 ∧
    s.lan.nodeDue = none := by
  refine ⟨up.lanM fun l => { l with nodeInForce := 3 }, ?_⟩
  decide +kernel

theorem test_meets_LanternTraffic_6 : ∃ (s : State) (r : _) (v : _),
    asks s r 0x2000 1 v ∧
    commitFail s = none := by
  refine ⟨queued (up.lanM fun l => { l with committed := false }) (wr 0x2000 1 0xA5), wr 0x2000 1 0xA5, 0xA5, ?_⟩
  unfold asks
  decide +kernel

theorem test_meets_LanternTraffic_7 : ∃ (s : State) (r : _) (v : _) (e : _),
    asks s r 0x2000 1 v ∧
    commitFail s = some e := by
  refine ⟨queued (up.lanM fun l => { l with committed := false, staged := { captureBuf := 513 } }) (wr 0x2000 1 0xA5), wr 0x2000 1 0xA5, 0xA5, 0x3800 * 256 + 2, ?_⟩
  unfold asks
  decide +kernel

theorem test_meets_MembershipChanged_1 : ∃ (s : State) (r : _) (v : _),
    asks s r 0x1101 2 v ∧
    s.std.mode = .joining ∧
    s.std.position = some 0 ∧
    16 ≤ s.std.count ∧
    s.std.count ≤ 64 ∧
    s.std.change = none ∧
    s.std.prepared = none := by
  refine ⟨queued (up.stdM fun d => { d with mode := .joining, position := some 0, count := 64 }) (wr 0x1101 2 0xA5), wr 0x1101 2 0xA5, 0xA5, ?_⟩
  unfold asks
  decide +kernel

theorem test_meets_MembershipChanged_2 : ∃ (s : State) (r : _) (v : _) (p : _),
    asks s r 0x1101 1 v ∧
    s.std.mode = .member ∧
    s.std.change = none ∧
    s.std.prepared = none ∧
    bitAt v (ownPos s) = true ∧
    v < 2 ^ s.std.count ∧
    p < 64 ∧
    p ≠ ownPos s ∧
    bitAt v p = true := by
  refine ⟨queued dom (wr 0x1101 1 0x8002), wr 0x1101 1 0x8002, 0x8002, 15, ?_⟩
  unfold asks
  decide +kernel

theorem test_meets_MembershipChanged_3 : ∃ (s : State) (r : _) (v : _),
    asks s r 0x1101 1 v ∧
    s.std.mode = .member ∧
    bitAt v (ownPos s) = false := by
  refine ⟨queued dom (wr 0x1101 1 0x8001), wr 0x1101 1 0x8001, 0x8001, ?_⟩
  unfold asks
  decide +kernel

theorem test_meets_MembershipChanged_4 : ∃ (s : State) (r : _) (v : _),
    asks s r 0x1101 5 v := by
  refine ⟨queued (dom.stdM fun d => { d with mode := .quarantined }) (wr 0x1101 5 0xA5), wr 0x1101 5 0xA5, 0xA5, ?_⟩
  unfold asks
  decide +kernel

theorem test_meets_MembershipChanged_5 : ∃ (s : State) (m : _),
    takes s m 0x20 ∧
    (s.std.mode = .joining ∨ s.std.mode = .member ∧ m.fld 8 2 = nextEpoch s.std.epoch) ∧
    bitAt (m.fld 16 8) (ownPos s) = true := by
  refine ⟨got dom (mg 0x20 [(8, 2, 2), (10, 1, 0), (16, 8, 0xFFFF)]), mg 0x20 [(8, 2, 2), (10, 1, 0), (16, 8, 0xFFFF)], ?_⟩
  unfold takes
  decide +kernel

theorem test_meets_MembershipChanged_6 : ∃ (s : State) (m : _) (c : _),
    takes s m 0x21 ∧
    s.std.change = some c ∧
    m.fld 8 2 = c.epoch ∧
    m.fld 10 1 = ownPos s := by
  refine ⟨got (dom.stdM fun d => { d with mode := .prepared, change := some { epoch := 2, set := 0xFFFF, since := 0 } }) (mg 0x21 [(8, 2, 2), (10, 1, 1)]), mg 0x21 [(8, 2, 2), (10, 1, 1)], { epoch := 2, set := 0xFFFF, since := 0 }, ?_⟩
  unfold takes
  decide +kernel

theorem test_meets_MembershipChanged_7 : ∃ (s : State) (m : _) (p : _),
    takes s m 0x22 ∧
    s.std.mode = .prepared ∧
    s.std.prepared = some p ∧
    m.fld 8 2 = p.epoch := by
  refine ⟨got (dom.stdM fun d => { d with mode := .prepared, prepared := some { epoch := 2, set := 0xFFFF, coord := 0, wasMember := true, since := 0 } }) (mg 0x22 [(8, 2, 2)]), mg 0x22 [(8, 2, 2)], { epoch := 2, set := 0xFFFF, coord := 0, wasMember := true, since := 0 }, ?_⟩
  unfold takes
  decide +kernel

theorem test_meets_MembershipChanged_8 : ∃ (s : State) (m : _) (p : _),
    takes s m 0x23 ∧
    s.std.mode = .prepared ∧
    s.std.prepared = some p ∧
    m.fld 8 2 = p.epoch ∧
    s.std.change = none := by
  refine ⟨got (dom.stdM fun d => { d with mode := .prepared, prepared := some { epoch := 2, set := 0xFFFF, coord := 0, wasMember := true, since := 0 } }) (mg 0x23 [(8, 2, 2)]), mg 0x23 [(8, 2, 2)], { epoch := 2, set := 0xFFFF, coord := 0, wasMember := true, since := 0 }, ?_⟩
  unfold takes
  decide +kernel

theorem test_meets_MembershipChanged_9 : ∃ (s : State) (m : _),
    takes s m 0x24 ∧
    s.std.mode = .member ∧
    newer s.std.epoch (m.fld 8 2) = true := by
  refine ⟨got dom (mg 0x24 [(8, 2, 2)]), mg 0x24 [(8, 2, 2)], ?_⟩
  unfold takes
  decide +kernel

theorem test_meets_MembershipChanged_10 : ∃ (s : State) (c : _),
    s.lan.refclk = true ∧
    s.std.change = some c ∧
    c.since + 100000 ≤ s.now := by
  refine ⟨(dom.stdM fun d => { d with mode := .prepared, change := some { epoch := 2, set := 0xFFFF, since := 0 } }), { epoch := 2, set := 0xFFFF, since := 0 }, ?_⟩
  decide +kernel

theorem test_meets_MembershipChanged_11 : ∃ (s : State) (p : _),
    s.lan.refclk = true ∧
    s.std.prepared = some p ∧
    s.std.change = none ∧
    p.since + 200000 ≤ s.now := by
  refine ⟨(dom.stdM fun d => { d with mode := .prepared, prepared := some { epoch := 2, set := 0xFFFF, coord := 0, wasMember := true, since := 0 } }), { epoch := 2, set := 0xFFFF, coord := 0, wasMember := true, since := 0 }, ?_⟩
  decide +kernel

theorem test_meets_ChainEnumeratedAndTimed_1 : ∃ (s : State) (w : _),
    s.lan.refclk = true ∧
    s.lan.alwaysOn = true ∧
    s.std.enumLow = false ∧
    w < 2 ^ 32 ∧
    enumOk w = true ∧
    bitAt w 23 = false ∧
    s.std.lastWord = some w ∧
    s.std.position = none := by
  refine ⟨up.stdM fun d => { d with lastWord := some (enumWord 0) }, enumWord 0, ?_⟩
  decide +kernel

theorem test_meets_ChainEnumeratedAndTimed_2 : ∃ (s : State) (w : _),
    s.lan.refclk = true ∧
    s.lan.alwaysOn = true ∧
    s.std.enumLow = false ∧
    w < 2 ^ 32 ∧
    enumOk w = true ∧
    bitAt w 23 = false ∧
    s.std.lastWord ≠ some w := by
  refine ⟨up, enumWord 62, ?_⟩
  decide +kernel

theorem test_meets_ChainEnumeratedAndTimed_3 : ∃ (s : State) (p : _),
    s.lan.refclk = true ∧
    s.std.position = some p ∧
    s.lan.alwaysOn = true ∧
    s.std.lastEnum + 10000 ≤ s.now := by
  refine ⟨up.stdM fun d => { d with position := some 63 }, 63, ?_⟩
  decide +kernel

theorem test_meets_ChainEnumeratedAndTimed_4 : ∃ (s : State) (m : _) (p : _),
    takes s m 0x02 ∧
    s.std.position = some p := by
  refine ⟨got dom (mg 0x02 [(8, 1, 16)]), mg 0x02 [(8, 1, 16)], 1, ?_⟩
  unfold takes
  decide +kernel

theorem test_meets_ChainEnumeratedAndTimed_5 : ∃ (s : State) (p : Nat),
    s.lan.refclk = true ∧
    s.std.position = some p ∧
    s.lan.coreUp = true ∧
    s.std.tail = false ∧
    portUp s 1 = false ∧
    s.std.mode = .enum ∧
    s.std.adoptedAt + 5000000 ≤ s.now := by
  refine ⟨({ up with now := 5000000 } : State).stdM fun d => { d with position := some 15 }, 15, ?_⟩
  decide +kernel

theorem test_meets_ChainEnumeratedAndTimed_6 : ∃ (s : State),
    s.lan.refclk = true ∧
    s.lan.coreUp = true ∧
    isMaster s = true ∧
    s.std.lastSent + 10000 ≤ s.now := by
  refine ⟨dom.stdM fun d => { d with position := some 0 }, ?_⟩
  decide +kernel

theorem test_meets_ChainEnumeratedAndTimed_7 : ∃ (s : State) (m : Msg) (a r : Nat),
    takes s m 0x10 ∧
    s.std.mode = .member ∧
    m.epoch = s.std.epoch ∧
    isMaster s = false ∧
    m.port = s.std.timePort := by
  refine ⟨got dom (mg 0x10 [(16, 8, 1000)]), mg 0x10 [(16, 8, 1000)], 65536, 0, ?_⟩
  unfold takes
  decide +kernel

theorem test_meets_ChainEnumeratedAndTimed_8 : ∃ (s : State),
    s.lan.refclk = true ∧
    s.std.epoch ≠ 0 ∧
    isMaster s = false ∧
    brings s (timeSource s) = false ∧
    ((s.port (timeSource s)).lastBeacon.getD 0) + 100000 ≤ s.now := by
  refine ⟨dom, ?_⟩
  decide +kernel

theorem test_meets_ChainEnumeratedAndTimed_9 : ∃ (s : State) (p st : Nat),
    portUp s p = true ∧
    (s.port p).lastDelay = none := by
  refine ⟨linked {}, 0, 7, ?_⟩
  decide +kernel

theorem test_meets_ChainEnumeratedAndTimed_10 : ∃ (s : State) (m : Msg) (a l : Nat),
    takes s m 0x03 ∧
    m.port < s.std.ports.length := by
  refine ⟨got dom (mg 0x03 [(8, 8, 5)]), mg 0x03 [(8, 8, 5)], 0, 0, ?_⟩
  unfold takes
  decide +kernel

theorem test_meets_ChainEnumeratedAndTimed_11 : ∃ (s : State) (m : Msg) (a : Nat),
    takes s m 0x04 ∧
    m.port < s.std.ports.length ∧
    (s.port m.port).delayReq = some (m.fld 8 8) := by
  refine ⟨got (dom.portM 0 fun p => { p with delayReq := some 5 }) (mg 0x04 [(8, 8, 5)]), mg 0x04 [(8, 8, 5)], 0, ?_⟩
  unfold takes
  decide +kernel

theorem test_meets_ChainEnumeratedAndTimed_12 : ∃ (s : State),
    s.lan.refclk = true ∧
    s.integ.isolateEn = true ∧
    s.std.epoch ≠ 0 ∧
    s.std.mode = .member ∧
    s.integ.mode = .normal ∧
    s.std.lastBeacon + 500000 ≤ s.now := by
  refine ⟨dom, ?_⟩
  decide +kernel

theorem test_meets_PortsActed_1 : ∃ (s : State) (r : _) (v : _),
    asks s r 0x1101 8 v := by
  refine ⟨queued up (wr 0x1101 8 1), wr 0x1101 8 1, 1, ?_⟩
  unfold asks
  decide +kernel

theorem test_meets_PortsActed_2 : ∃ (s : State) (r : _) (n : _),
    n < 8 ∧
    n < s.std.ports.length ∧
    asks s r 0x1102 (n + 1) 1 ∧
    s.lan.coreUp = true ∧
    (s.port n).mode ≠ .fenced := by
  refine ⟨queued up (wr 0x1102 8 1), wr 0x1102 8 1, 7, ?_⟩
  unfold asks
  decide +kernel

theorem test_meets_PortsActed_3 : ∃ (s : State) (r : _) (n : _),
    n < 8 ∧
    n < s.std.ports.length ∧
    asks s r 0x1102 (n + 1) 0 ∧
    s.lan.coreUp = true ∧
    (s.port n).mode = .fenced ∧
    s.lan.quarantine = false := by
  refine ⟨queued (up.portM 7 fun p => { p with mode := .fenced, fence := 1 }) (wr 0x1102 8 0), wr 0x1102 8 0, 7, ?_⟩
  unfold asks
  decide +kernel

theorem test_meets_PortsActed_4 : ∃ (s : State) (n : _) (w : _) (p : _) (q : _) (own : _),
    n < 8 ∧
    n < s.std.ports.length ∧
    (w = 4 ∨ w = 8) ∧
    p < 64 ∧
    q < 8 ∧
    s.std.position = some own ∧
    s.lan.coreUp = true ∧
    (s.port n).fence = 0 ∧
    ((s.port n).mode = .down ∨ (s.port n).mode = .training) := by
  refine ⟨up.stdM fun d => { d with position := some 0 }, 7, 8, 63, 7, 0, ?_⟩
  decide +kernel

theorem test_meets_PortsActed_5 : ∃ (s : State) (n : _),
    portUp s n = true := by
  refine ⟨linked {}, 0, ?_⟩
  decide +kernel

theorem test_meets_PortsActed_6 : ∃ (s : State) (n : Nat) (b : List Byte),
    b.length = 532 ∧
    s.lan.coreUp = true ∧
    portUp s n = true ∧
    flitOk b = false := by
  exact ⟨linked {}, 7 - 7, flitBytes 1, by decide +kernel, by decide +kernel, by decide +kernel, flitBytes_bad⟩

theorem test_meets_PortsActed_7 : ∃ (s : State) (n : Nat) (b : List Byte),
    b.length = 532 ∧
    s.lan.coreUp = true ∧
    portUp s n = true ∧
    flitOk b = true ∧
    fieldAt b 524 1 = (s.port n).rxSeq ∧
    (readFlit b).kind = 1 ∧
    linkMsg (fieldAt (readFlit b).payload 0 1) = true ∧
    s.std.mode ≠ .quarantined := by
  exact ⟨linked {}, 0, flitBytes 0, by decide +kernel, by decide +kernel, by decide +kernel, flitBytes_ok, by decide +kernel, by decide +kernel, by decide +kernel, by decide +kernel⟩

theorem test_meets_PortsActed_8 : ∃ (s : State) (n : _) (f : _),
    s.lan.coreUp = true ∧
    portUp s n = true ∧
    (s.port n).resend = 0 ∧
    (s.port n).replay.length < 128 ∧
    (s.port n).credit0 ≠ 0 ∧
    (s.port n).queue.find? (fun g => g.kind != 2 && inOrder (s.port n).queue g) = some f := by
  refine ⟨linked { queue := [{ dest := 5 }] }, 0, { dest := 5 }, ?_⟩
  decide +kernel

theorem test_meets_PortsActed_9 : ∃ (s : State) (n : _) (f : _) (u : _),
    s.lan.coreUp = true ∧
    portUp s n = true ∧
    (s.port n).resend = 0 ∧
    (s.port n).replay.length < 128 ∧
    (s.port n).queue.find? (fun g => g.kind != 2 && inOrder (s.port n).queue g) = none ∧
    (s.port n).unit = some u ∧
    nextOf (s.port n).queue u = some f ∧
    (s.port n).credit1 ≠ 0 := by
  refine ⟨linked { queue := [{ kind := 2, dest := 5, src := 1, xfer := 3 }], unit := some (1, 3) }, 0, { kind := 2, dest := 5, src := 1, xfer := 3 }, (1, 3), ?_⟩
  decide +kernel

theorem test_meets_PortsActed_10 : ∃ (s : State) (n : _) (f : _),
    s.lan.coreUp = true ∧
    portUp s n = true ∧
    (s.port n).resend ≠ 0 ∧
    (s.port n).replay[(s.port n).replay.length - (s.port n).resend]? = some f := by
  refine ⟨linked { replay := [{ dest := 5 }, { dest := 6 }], resend := 2 }, 0, { dest := 5 }, ?_⟩
  decide +kernel

theorem test_meets_TransfersAndWindowsServed_1 : ∃ (s : State) (p : _) (k : _) (x : _),
    s.lan.refclk = true ∧
    s.lan.coreUp = true ∧
    xferOf s p k = some x ∧
    x.last + 100000 ≤ s.now ∧
    x.target ≠ imageTarget := by
  refine ⟨dom.stdM fun d => { d with inXfers := [{ peer := 2, num := 9 }] }, 2, 9, { peer := 2, num := 9 }, ?_⟩
  decide +kernel

theorem test_meets_TransfersAndWindowsServed_2 : ∃ (s : State) (m : _),
    heard s m 0x30 ∧
    m.fld 8 2 < 4096 ∧
    m.fld 10 1 = 5 ∧
    m.fld 16 8 ≠ imageTarget ∧
    m.fld 24 8 = 0 ∧
    m.fld 12 4 ≠ 0 ∧
    s.std.early = [] := by
  refine ⟨got dom (mg 0x30 [(8, 2, 4095), (10, 1, 5), (12, 4, 1), (16, 8, 8)]), mg 0x30 [(8, 2, 4095), (10, 1, 5), (12, 4, 1), (16, 8, 8)], ?_⟩
  unfold heard takes
  decide +kernel

theorem test_meets_TransfersAndWindowsServed_3 : ∃ (s : State) (m : _) (k : _) (p : _),
    heard s m 0x30 ∧
    m.fld 8 2 < 4096 ∧
    m.fld 10 1 = 6 ∧
    m.fld 24 8 = 0 ∧
    parureHandle s (m.fld 16 8) = some (k, p) ∧
    p.state = .loaded ∧
    serving s = true := by
  refine ⟨got { dom with parures := [(0, par)] } (mg 0x30 [(8, 2, 3), (10, 1, 6), (16, 8, 9)]), mg 0x30 [(8, 2, 3), (10, 1, 6), (16, 8, 9)], 0, par, ?_⟩
  unfold heard takes
  decide +kernel

theorem test_meets_TransfersAndWindowsServed_4 : ∃ (s : State) (m : _) (e : _),
    heard s m 0x30 ∧
    m.fld 8 2 < 4096 ∧
    m.fld 10 1 = 6 ∧
    m.fld 24 8 ≠ 0 ∧
    s.extents.get? (m.fld 24 8) = some e ∧
    e.sealed = true ∧
    e.tier = 2 ∧
    e.ckpt = true ∧
    serving s = true := by
  refine ⟨got ({ dom with extents := [(77, { ckpt := true, sealed := true, tier := 2, units := 1, data := [] })] } : State) (mg 0x30 [(8, 2, 3), (10, 1, 6), (24, 8, 77)]), mg 0x30 [(8, 2, 3), (10, 1, 6), (24, 8, 77)], { ckpt := true, sealed := true, tier := 2, units := 1, data := [] }, ?_⟩
  unfold heard takes
  decide +kernel

theorem test_meets_TransfersAndWindowsServed_5 : ∃ (s : State) (m : _) (x : _),
    heard s m 0x31 ∧
    s.std.outXfers.find? (fun x => x.peer == m.src && x.num == m.fld 8 2) = some x := by
  refine ⟨got (dom.stdM fun d => { d with outXfers := [{ peer := 2, num := 9 }] }) (mg 0x31 [(8, 2, 9)]), mg 0x31 [(8, 2, 9)], { peer := 2, num := 9 }, ?_⟩
  unfold heard takes
  decide +kernel

theorem test_meets_TransfersAndWindowsServed_6 : ∃ (s : State) (m : _),
    heard s m 0x40 := by
  refine ⟨got dom (mg 0x40 [(8, 2, 3)]), mg 0x40 [(8, 2, 3)], ?_⟩
  unfold heard takes
  decide +kernel

theorem test_meets_TransfersAndWindowsServed_7 : ∃ (s : State) (m : _),
    heard s m 0x41 := by
  refine ⟨got dom (mg 0x41 [(8, 2, 3)]), mg 0x41 [(8, 2, 3)], ?_⟩
  unfold heard takes
  decide +kernel

theorem test_meets_TransfersAndWindowsServed_8 : ∃ (s : State) (m : _) (r : _),
    heard s m 0x42 ∧
    s.std.fwdReads.find? (fun r => r.1 == m.fld 8 2 && r.2.1 == m.src) = some r := by
  refine ⟨got (dom.stdM fun d => { d with fwdReads := [(3, 2, 8)] }) (mg 0x42 [(8, 2, 3)]), mg 0x42 [(8, 2, 3)], (3, 2, 8), ?_⟩
  unfold heard takes
  decide +kernel

theorem test_meets_TransfersAndWindowsServed_9 : ∃ (s : State) (m : Msg) (d : List Byte),
    isHead s = true ∧
    s.hif.linkUp = true ∧
    heard s m 0x43 ∧
    m.fld 8 2 < 4096 := by
  refine ⟨got (dom.stdM fun d => { d with position := some 0 }) (mg 0x43 [(8, 2, 4095), (24, 4, 64)]), mg 0x43 [(8, 2, 4095), (24, 4, 64)], zeros 64, ?_⟩
  unfold heard takes
  decide +kernel

theorem test_meets_TransfersAndWindowsServed_10 : ∃ (s : State) (m : _),
    isHead s = true ∧
    s.integ.mode ≠ .isolated ∧
    heard s m 0x44 ∧
    m.fld 8 2 < 4096 ∧
    m.fld 24 4 ≠ 0 ∧
    s.std.early = [] := by
  refine ⟨got (dom.stdM fun d => { d with position := some 0 }) (mg 0x44 [(8, 2, 3), (24, 4, 64)]), mg 0x44 [(8, 2, 3), (24, 4, 64)], ?_⟩
  unfold heard takes
  decide +kernel

theorem test_meets_TransfersAndWindowsServed_11 : ∃ (s : State) (m : _),
    isHead s = true ∧
    s.integ.mode ≠ .isolated ∧
    heard s m 0x45 := by
  refine ⟨got (dom.stdM fun d => { d with position := some 0 }) (mg 0x45 [(8, 2, 3)]), mg 0x45 [(8, 2, 3)], ?_⟩
  unfold heard takes
  decide +kernel

theorem test_meets_ImagesDownloadedAndStarted_1 : ∃ (s : State) (r : _),
    asks s r 0x1F00 3 1 := by
  refine ⟨queued bt (wr 0x1F00 3 1), wr 0x1F00 3 1, ?_⟩
  unfold asks
  decide +kernel

theorem test_meets_ImagesDownloadedAndStarted_2 : ∃ (s : State) (r : _) (v : _),
    asks s r 0x1F00 2 v := by
  refine ⟨queued bt { wr 0x1F00 2 7 with pdu := blank 1048 [(0, 1, 1), (1, 1, 2), (4, 2, 0x1F00), (6, 1, 2), (7, 1, 8), (10, 2, 1024)] }, { wr 0x1F00 2 7 with pdu := blank 1048 [(0, 1, 1), (1, 1, 2), (4, 2, 0x1F00), (6, 1, 2), (7, 1, 8), (10, 2, 1024)] }, 0, ?_⟩
  unfold asks
  decide +kernel

theorem test_meets_ImagesDownloadedAndStarted_3 : ∃ (s : State) (r : _),
    asks s r 0x1F00 3 2 := by
  refine ⟨queued bt (wr 0x1F00 3 2), wr 0x1F00 3 2, ?_⟩
  unfold asks
  decide +kernel

theorem test_meets_ImagesDownloadedAndStarted_4 : ∃ (s : State) (off : _),
    lanternUp s = true ∧
    s.lan.coreUp = true ∧
    s.lan.phase = .verifying off false := by
  refine ⟨up.lanM fun l => { l with phase := .verifying 0 false }, 0, ?_⟩
  decide +kernel

theorem test_meets_ImagesDownloadedAndStarted_5 : ∃ (s : State) (r : _),
    asks s r 0x1F00 3 3 := by
  refine ⟨queued (bt.lanM fun l => { l with imageOffset := 0xFFFF0000, phase := .verified }) (wr 0x1F00 3 3), wr 0x1F00 3 3, ?_⟩
  unfold asks
  decide +kernel

theorem test_meets_ImagesDownloadedAndStarted_6 : ∃ (s : State) (t0 : Nat) (hbm t2 : List Bool) (sram : Bool),
    hbm.length = 8 ∧
    t2.length = 4 ∧
    lanternUp s = true ∧
    s.lan.coreUp = true ∧
    s.lan.phase = .starting t0 ∧
    s.now ≤ t0 + 60000000 ∧
    (hbm.all id = false ∨ sram = false ∨ tested s = true) := by
  refine ⟨up.lanM fun l => { l with phase := .starting 0 }, 0, List.replicate 7 true ++ [false], List.replicate 4 true, true, ?_⟩
  decide +kernel

theorem test_meets_ImagesDownloadedAndStarted_7 : ∃ (s : State) (t0 : _),
    lanternUp s = true ∧
    s.lan.phase = .starting t0 ∧
    t0 + 60000001 ≤ s.now := by
  refine ⟨{ (up.lanM fun l => { l with phase := .starting 0 }) with now := 60000001 }, 0, ?_⟩
  decide +kernel

theorem test_meets_ImagesDownloadedAndStarted_8 : ∃ (s : State) (r : Req) (b : Bool),
    asks s r 0x1F00 3 0x10 := by
  refine ⟨queued (dom.stdM fun d => { d with position := some 0 }) (wr 0x1F00 3 0x10), wr 0x1F00 3 0x10, true, ?_⟩
  unfold asks
  decide +kernel

theorem test_meets_ImagesDownloadedAndStarted_9 : ∃ (s : State) (p : _) (k : _) (x : _),
    lanternUp s = true ∧
    s.lan.coreUp = true ∧
    xferOf s p k = some x ∧
    x.op = 5 ∧
    x.target = imageTarget ∧
    x.total ≤ x.data.length ∧
    s.lan.power = .boot ∧
    starting s = false ∧
    x.total ≤ 3145728 := by
  refine ⟨bt.stdM fun d => { d with inXfers := [{ peer := 2, num := 4095, op := 5, target := imageTarget, total := 0, data := [] }] }, 2, 4095, { peer := 2, num := 4095, op := 5, target := imageTarget, total := 0, data := [] }, ?_⟩
  decide +kernel

theorem test_meets_BaysEnteredAndLeft_1 : ∃ (s : State) (n : Nat) (id : List Byte) (ext : List (Nat × List Byte × List Nat)),
    shaped s = true ∧
    n < 4 ∧
    (s.bay n).mode = .empty ∧
    s.lan.power ≠ .boot ∧
    s.lan.power ≠ .night ∧
    (s.bay n).coffer.isSome = id.isEmpty := by
  refine ⟨up, 0, [1#8], [], ?_⟩
  decide +kernel

theorem test_meets_BaysEnteredAndLeft_2 : ∃ (s : State) (n : Nat) (tr : Bool) (ch : List ChannelGeom),
    ch.length = 16 ∧
    s.lan.refclk = true ∧
    shaped s = true ∧
    n < 4 ∧
    (s.bay n).mode = .powering ∧
    (s.bay n).since + 5000000 ≤ s.now := by
  refine ⟨inBay fun b => { b with mode := .powering, since := 1000000 }, 0, true, List.replicate 16 { dies := 1, pageBytes := 16384, spareBytes := 2048, pages := 1, blocks := 1, slcUs := none }, ?_⟩
  decide +kernel

theorem test_meets_BaysEnteredAndLeft_3 : ∃ (s : State) (n : _),
    shaped s = true ∧
    n < 4 ∧
    (s.bay n).mode = .mounting ∧
    (s.bay n).enable = true ∧
    serving s = true := by
  refine ⟨inBay fun b => { b with mode := .mounting, enable := true }, 0, ?_⟩
  decide +kernel

theorem test_meets_BaysEnteredAndLeft_4 : ∃ (s : State) (n : _),
    shaped s = true ∧
    n < 4 ∧
    (s.bay n).mode ≠ .empty := by
  refine ⟨inBay fun b => { b with mode := .failed }, 0, ?_⟩
  decide +kernel

theorem test_meets_BaysEnteredAndLeft_5 : ∃ (s : State) (n k : Nat),
    shaped s = true ∧
    n < 4 ∧
    ((s.bay n).mode = .mounted ∨ (s.bay n).mode = .readOnly) ∧
    ((k = 0 ∧ ∃ r, asks s r (0x3100 + n) 2 1) ∨ ((k = 1 ∨ k = 2) ∧ servedF s = true)) := by
  exact ⟨inBay fun b => { b with mode := .readOnly }, 0, 1, by decide +kernel, by decide, by decide +kernel, .inr ⟨.inl rfl, by decide +kernel⟩⟩

theorem test_meets_BaysEnteredAndLeft_6 : ∃ (s : State) (n : _),
    s.lan.refclk = true ∧
    shaped s = true ∧
    n < 4 ∧
    (s.bay n).mode = .detaching ∧
    (s.bay n).blocked = true ∧
    (s.bay n).retryAt ≤ s.now := by
  refine ⟨inBay fun b => { b with mode := .detaching, blocked := true, retryAt := 6000000 }, 0, ?_⟩
  decide +kernel

theorem test_meets_BaysEnteredAndLeft_7 : ∃ (s : State) (n : _),
    s.lan.refclk = true ∧
    shaped s = true ∧
    n < 4 ∧
    (s.bay n).mode = .detaching ∧
    detachReady s n = true := by
  refine ⟨inBay fun b => { b with mode := .detaching }, 0, ?_⟩
  decide +kernel

theorem test_meets_BaysEnteredAndLeft_8 : ∃ (s : State) (n : _) (r : _),
    shaped s = true ∧
    n < 4 ∧
    asks s r (0x3100 + n) 2 0xA5 := by
  refine ⟨queued (inBay fun b => { b with mode := .mounted }) (wr 0x3100 2 0xA5), 0, wr 0x3100 2 0xA5, ?_⟩
  unfold asks
  decide +kernel

theorem test_meets_FlashAndScrubActed_1 : ∃ (s : State) (n x : Nat) (e : Extent) (d : Desc),
    shaped s = true ∧
    n < 4 ∧
    s.lan.refclk = true ∧
    (allDescs s).find? (fun d => d.op == 2 && d.tier == 3 && d.bay == n && d.extent == x) = some d ∧
    d.sent = d.units ∧
    writeSealed s d = false ∧
    writable s n = true ∧
    (∀ k, d.purpose ≠ .coffer k) ∧
    s.extents.get? x = some e := by
  exact ⟨{ (coffered {}).curM fun c => { c with channels := [(8, cofferDesc (.demote 1))] } with extents := [(5, { tier := 3, bay := 0 })] }, 0, 5, { tier := 3, bay := 0 },
    cofferDesc (.demote 1), by decide +kernel, by decide, by decide +kernel, by decide +kernel, by decide +kernel, by decide +kernel, by decide +kernel,
    fun _ h => Purpose.noConfusion h, by decide +kernel⟩

theorem test_meets_FlashAndScrubActed_2 : ∃ (s : State) (n x : Nat) (d : Desc) (k : Nat) (c : Coffer) (y : Extent),
    shaped s = true ∧
    n < 4 ∧
    s.lan.refclk = true ∧
    (allDescs s).find? (fun d => d.op == 2 && d.tier == 3 && d.bay == n && d.extent == x) = some d ∧
    d.sent = d.units ∧
    writeSealed s d = false ∧
    writable s n = true ∧
    d.purpose = .coffer k ∧
    (s.bay n).coffer = some c ∧
    c.extents.get? x = some y := by
  refine ⟨(coffered { extents := [(5, { tier := 3, bay := 0 })] }).curM fun c => { c with channels := [(8, cofferDesc (.coffer 5))] }, 0, 5, cofferDesc (.coffer 5), 5, { extents := [(5, { tier := 3, bay := 0 })] }, { tier := 3, bay := 0 }, ?_⟩
  decide +kernel

theorem test_meets_FlashAndScrubActed_3 : ∃ (s : State) (n ch die blk row : Nat) (rest : List (Nat × Nat)) (c : Coffer),
    s.lan.refclk = true ∧
    shaped s = true ∧
    n < 4 ∧
    ch < 16 ∧
    (s.bay n).programs = (die * identFld s n 44 4 + blk, row) :: rest ∧
    (s.bay n).coffer = some c := by
  refine ⟨(coffered {}).bayM 0 fun b => { b with programs := [(3, 1)] }, 0, 15, 0, 3, 1, [], {}, ?_⟩
  decide +kernel

theorem test_meets_FlashAndScrubActed_4 : ∃ (s : State) (n : _),
    s.lan.refclk = true ∧
    shaped s = true ∧
    n < 4 ∧
    (s.bay n).programs ≠ [] := by
  refine ⟨(coffered {}).bayM 0 fun b => { b with programs := [(3, 1)] }, 0, ?_⟩
  decide +kernel

theorem test_meets_FlashAndScrubActed_5 : ∃ (s : State) (n k : Nat) (b : Superblock) (u : State),
    s.lan.refclk = true ∧
    n < 4 ∧
    relocOk s n = true ∧
    (freeSbs s n).length < 8 ∧
    leastBy (fun b => (validUnits b, b.erase)) (closedSbs s n) = some (k, b) ∧
    relocate s n k = some u := by
  refine ⟨coffered { sbs := [(7, { state := .closed })] }, 0, 7, { state := .closed }, (relocate (coffered { sbs := [(7, { state := .closed })] }) 0 7).getD up, ?_⟩
  decide +kernel

theorem test_meets_FlashAndScrubActed_6 : ∃ (s : State) (n k : Nat) (u : State),
    shaped s = true ∧
    relocate s n k = some u ∧
    n < 4 := by
  refine ⟨coffered { sbs := [(7, { state := .closed })] }, 0, 7, (relocate (coffered { sbs := [(7, { state := .closed })] }) 0 7).getD up, ?_⟩
  decide +kernel

/-- Identity memory of one die with eight blocks, rated for 20 erases: the bytes from 16 on, and the whole copy. -/
def identBody : List Byte := blank 496 [(17, 1, 1), (28, 4, 8), (32, 4, 20)]
def identHead : List Byte := blank 12 [(0, 8, leNat (ascii "CL9COFER")), (8, 2, 1)]
def identBytes : List Byte := identHead ++ (natLe 4 (crc32 identBody) ++ identBody)
/-- A coffer with an identity memory and a superblock of two erases. -/
def worn (i : List Byte) : Coffer := { ident := i, sbs := [(5, { erase := 2 }), (7, { state := .closed })] }
theorem identBytes_length : identBytes.length = 512 := by
  unfold identBytes
  rw [List.length_append, List.length_append, show (natLe 4 (crc32 identBody)).length = 4 from rfl]
  decide +kernel
theorem ident_body (i : Nat) : identBytes.drop (16 + i) = identBody.drop i := by
  unfold identBytes
  rw [← List.drop_drop, ← List.append_assoc, List.drop_left' (by rw [List.length_append]; decide +kernel)]
theorem ident_field (i n : Nat) : fieldAt identBytes (16 + i) n = fieldAt identBody i n := by unfold fieldAt; rw [ident_body]
theorem identOk_identBytes : identOk identBytes = true := by
  have h16 : identBytes.drop 16 = identBody := ident_body 0
  have h12 : fieldAt identBytes 12 4 = leNat (natLe 4 (crc32 identBody)) := by
    unfold fieldAt identBytes
    rw [List.drop_append_of_le_length (by decide +kernel), List.drop_of_length_le (by decide +kernel), List.nil_append,
      List.take_append_of_le_length (by exact Nat.le_refl 4), List.take_of_length_le (by exact Nat.le_refl 4)]
  have h0 : identBytes.take 8 = ascii "CL9COFER" := by
    unfold identBytes; rw [List.take_append_of_le_length (by decide +kernel)]; decide +kernel
  have h8 : fieldAt identBytes 8 2 = 1 := by
    unfold fieldAt identBytes
    rw [List.drop_append_of_le_length (by decide +kernel), List.take_append_of_le_length (by decide +kernel)]; decide +kernel
  have hb : identBody.take 496 = identBody := List.take_of_length_le (by decide +kernel)
  unfold identOk
  rw [h0, h8, h16, h12, hb, leNat_natLe_four _ (crc32_lt _), beq_self_eq_true, beq_self_eq_true, beq_self_eq_true]
  rfl
theorem identCopy_identBytes : identCopy identBytes = some identBytes := by
  have ha : padTo 512 (identBytes.take 512) = identBytes := by
    rw [List.take_of_length_le (Nat.le_of_eq identBytes_length)]
    unfold padTo bytesAt
    simp [identBytes_length, List.take_of_length_le (Nat.le_of_eq identBytes_length)]
  have hb : identOk (padTo 512 (identBytes.drop 512)) = false := by
    rw [List.drop_of_length_le (Nat.le_of_eq identBytes_length)]
    decide +kernel
  unfold identCopy
  dsimp only
  rw [ha, identOk_identBytes, hb]
  rfl
theorem identFld_worn (s : State) (i : List Byte) (h : (s.bay 0).coffer = some (worn i)) (hi : identCopy i = some i) (off len : Nat) :
    identFld s 0 off len = fieldAt i off len := by
  unfold identFld
  rw [h, Option.map_some, Option.bind_some, show (worn i).ident = i from rfl, hi, Option.getD_some]
theorem relocate_worn (i : List Byte) : ∃ u, relocate (coffered (worn i)) 0 7 = some u := ⟨_, rfl⟩
theorem coffered_worn (i : List Byte) : ((coffered (worn i)).bay 0).coffer = some (worn i) := rfl
theorem leastBy_worn (i : List Byte) : leastBy (fun b => (b.erase, 0)) (closedSbs (coffered (worn i)) 0) = some (7, { state := .closed }) := rfl
theorem identFld_coffered (off len : Nat) : identFld (coffered (worn identBytes)) 0 (16 + off) len = fieldAt identBody off len := by
  rw [identFld_worn _ _ (coffered_worn identBytes) identCopy_identBytes, ident_field]
theorem rated_worn : identFld (coffered (worn identBytes)) 0 48 4 = 20 := by
  refine (identFld_coffered 32 4).trans ?_; decide +kernel
theorem sbNums_of (s : State) (h1 : identFld s 0 33 1 = 1) (h2 : identFld s 0 44 4 = 8) (h3 : identFld s 0 80 4 = 0) : sbNums s 0 = List.range 8 := by
  unfold sbNums sparesPerDie
  rw [h1, h2, h3]
  decide
theorem sbNums_worn : sbNums (coffered (worn identBytes)) 0 = List.range 8 := by
  have h1 : identFld (coffered (worn identBytes)) 0 33 1 = 1 := by refine (identFld_coffered 17 1).trans ?_; decide +kernel
  have h2 : identFld (coffered (worn identBytes)) 0 44 4 = 8 := by refine (identFld_coffered 28 4).trans ?_; decide +kernel
  have h3 : identFld (coffered (worn identBytes)) 0 80 4 = 0 := by refine (identFld_coffered 64 4).trans ?_; decide +kernel
  exact sbNums_of _ h1 h2 h3
theorem spread_worn (i : List Byte) :
    let counts := (((List.range 8).drop 4).filter (fun k => (sbAt (worn i) k).state != .retired)).map (fun k => (sbAt (worn i) k).erase)
    20 / 20 < counts.foldl max 0 - counts.foldl min (counts.foldl max 0) := by
  have h : (((List.range 8).drop 4).filter (fun k => (sbAt (worn i) k).state != .retired)).map (fun k => (sbAt (worn i) k).erase) = [0, 2, 0, 0] := rfl
  dsimp only
  rw [h]
  decide

theorem test_meets_FlashAndScrubActed_7 : ∃ (s : State) (n : Nat) (c : Coffer) (k : Nat) (b : Superblock) (u : State),
    s.lan.refclk = true ∧
    n < 4 ∧
    relocOk s n = true ∧
    (s.bay n).coffer = some c ∧
    leastBy (fun b => (b.erase, 0)) (closedSbs s n) = some (k, b) ∧
    (let counts := (((sbNums s n).drop 4).filter (fun k => (sbAt c k).state != .retired)).map (fun k => (sbAt c k).erase)
     identFld s n 48 4 / 20 < counts.foldl max 0 - counts.foldl min (counts.foldl max 0)) ∧
    relocate s n k = some u := by
  obtain ⟨u, hu⟩ := relocate_worn identBytes
  refine ⟨coffered (worn identBytes), 0, worn identBytes, 7, { state := .closed }, u, rfl, by decide, rfl, coffered_worn _, leastBy_worn _, ?_, hu⟩
  rw [rated_worn, sbNums_worn]
  exact spread_worn identBytes

theorem test_meets_FlashAndScrubActed_8 : ∃ (s : State) (n k : Nat) (c : Coffer),
    s.lan.refclk = true ∧
    shaped s = true ∧
    n < 4 ∧
    (s.bay n).erasing = some k ∧
    (s.bay n).coffer = some c := by
  refine ⟨(coffered {}).bayM 0 fun b => { b with erasing := some 7 }, 0, 7, {}, ?_⟩
  decide +kernel

theorem test_meets_FlashAndScrubActed_9 : ∃ (s : State) (n k : Nat) (b : Superblock) (pg p : Nat) (c : Coffer),
    s.lan.refclk = true ∧
    shaped s = true ∧
    n < 4 ∧
    ((s.bay n).mode = .mounted ∨ (s.bay n).mode = .readOnly) ∧
    (s.bay n).patrolEn = true ∧
    (s.bay n).coffer = some c ∧
    c.sbs.get? k = some b ∧
    (k, b) ∈ c.sbs ∧
    b.state = .closed := by
  refine ⟨coffered { sbs := [(7, { state := .closed })] }, 0, 7, { state := .closed }, 0, 101, { sbs := [(7, { state := .closed })] }, ?_⟩
  decide +kernel

theorem test_meets_FlashAndScrubActed_10 : ∃ (s : State) (n : Nat) (c : Coffer),
    s.lan.refclk = true ∧
    shaped s = true ∧
    n < 4 ∧
    65536 ≤ (s.bay n).sinceCkpt ∧
    (s.bay n).coffer = some c := by
  refine ⟨(coffered {}).bayM 0 fun b => { b with sinceCkpt := 65536 }, 0, {}, ?_⟩
  decide +kernel

theorem test_meets_FlashAndScrubActed_11 : ∃ (s : State) (n : _),
    shaped s = true ∧
    n < 4 ∧
    serving s = true ∧
    ((s.bay n).mode = .mounted ∨ (s.bay n).mode = .readOnly ∨ (s.bay n).mode = .detaching) := by
  refine ⟨coffered {}, 0, ?_⟩
  decide +kernel

theorem test_meets_FlashAndScrubActed_12 : ∃ (s : State) (k b i o e w : Nat),
    o = b + i ∧
    k < 8 ∧
    s.lan.refclk = true ∧
    (s.hbc.getD k {}).mode = .ready ∧
    o < 2 ^ 32 ∧
    16 * o < usable ∧
    e < 2 ^ 144 ∧
    classify (storedWord s (k * 2 ^ 32 + o) ^^^ e) = .corrected w := by
  refine ⟨{ up with hbc := List.replicate 8 { mode := .ready } }, 7, 0, 0, 0, 1, 0, ?_⟩
  decide +kernel

theorem test_meets_FlashAndScrubActed_13 : ∃ (s : State) (k b i o e : Nat),
    o = b + i ∧
    k < 8 ∧
    s.lan.refclk = true ∧
    (s.hbc.getD k {}).mode = .ready ∧
    o < 2 ^ 32 ∧
    16 * o < usable ∧
    e < 2 ^ 144 ∧
    classify (storedWord s (k * 2 ^ 32 + o) ^^^ e) = .uncorrectable := by
  refine ⟨{ up with hbc := List.replicate 8 { mode := .ready } }, 7, 2952790000, 15, 2952790015, 0x11, ?_⟩
  decide +kernel

theorem test_meets_SessionsOpenedAndClosed_1 : ∃ (s : State) (id : _) (st : _),
    admitted s id 0x20 = true ∧
    openCheck (begun s id) (cmdOf s id) = .inl st := by
  refine ⟨asked up 0x20 [(8, 8, 3), (16, 8, 9)], 5, stUnknown, ?_⟩
  decide +kernel

def openCmd : State := asked (roomy par) 0x20 [(8, 8, 3), (16, 8, 9)]

theorem test_meets_SessionsOpenedAndClosed_2 : ∃ (s : State) (id : Nat) (o : OpenPlan) (page : Nat),
    admitted s id 0x20 = true ∧
    openCheck (begun s id) (cmdOf s id) = .inr o ∧
    o.charm = none ∧
    arenaFit (begun s id) (homeStack (begun s id)) (locketArena (begun s id) (cmdOf s id).tenant o.parure.image) = some page := by
  refine ⟨openCmd, 5, { slot := 0, parure := par }, (arenaFit (begun openCmd 5) 0 (locketArena (begun openCmd 5) 0 img)).getD 0, ?_⟩
  decide +kernel

def openCharm : State := asked { roomy par2 with charms := [(2, charm1)] } 0x20 [(8, 8, 3), (16, 8, 9), (40, 8, 4)]

theorem test_meets_SessionsOpenedAndClosed_3 : ∃ (s : State) (id : Nat) (o : OpenPlan) (ci : Nat) (m : Charm) (page : Nat) (u : State) (fs : List Nat),
    admitted s id 0x20 = true ∧
    openCheck (begun s id) (cmdOf s id) = .inr o ∧
    o.charm = some (ci, m) ∧
    ringBytes o.parure.image m.symbols.length ≠ 0 ∧
    arenaFit (begun s id) (homeStack (begun s id)) (locketArena (begun s id) (cmdOf s id).tenant o.parure.image) = some page ∧
    takeFrames (begun s id) (homeStack (begun s id)) (ringPages o.parure.image m.symbols.length).length (.inUse (((begun s id).lockets.freshFrom ((begun s id).lockets.length + 1) 0).getD 0)) = (u, some fs) := by
  refine ⟨openCharm, 5, { slot := 0, parure := par2, charm := some (2, charm1) }, 2, charm1, (arenaFit (begun openCharm 5) 0 (locketArena (begun openCharm 5) 0 img2)).getD 0, (takeFrames (begun openCharm 5) 0 1 (.inUse 0)).1, [0], ?_⟩
  decide +kernel

theorem test_meets_SessionsOpenedAndClosed_4 : ∃ (s : State) (id h : Nat) (l : Locket),
    entering s id 0x21 h l = true ∧
    (l.state = .bound ∨ l.state = .promoting) := by
  refine ⟨asked (sess { state := .promoting }) 0x21 [(8, 8, 7)], 5, 1, { state := .promoting, session := 7 }, ?_⟩
  decide +kernel

theorem test_meets_SessionsOpenedAndClosed_5 : ∃ (s : State) (id h : Nat) (l : Locket),
    entering s id 0x21 h l = true ∧
    (l.state = .parkedT2 ∨ l.state = .parkedT3 ∨ l.state = .expired) ∧
    l.packets = [] := by
  refine ⟨asked (sess { state := .expired }) 0x21 [(8, 8, 7)], 5, 1, { state := .expired, session := 7 }, ?_⟩
  decide +kernel

theorem test_meets_SessionsOpenedAndClosed_6 : ∃ (s : State) (id h : Nat) (l : Locket),
    entering s id 0x21 h l = true ∧
    l.state = .opened ∧
    l.stm.generating = false ∧
    l.packets.all (·.written) = true ∧
    (∀ x ∈ s.eph.ctxs.vals, ∀ j ∈ x.joins, j.id ≠ h) := by
  refine ⟨asked (sess {}) 0x21 [(8, 8, 7)], 5, 1, { session := 7 }, ?_⟩
  decide +kernel

theorem test_meets_SessionsParkedAndRevived_1 : ∃ (s : State) (id : _) (h : _) (l : _),
    entering s id 0x25 h l = true ∧
    ((cmdOf s id).fld 16 1 = 2 ∨ (cmdOf s id).fld 16 1 = 3) ∧
    ((cmdOf s id).fld 17 1 < 4 ∨ (cmdOf s id).fld 17 1 = 0xFF) ∧
    (l.state = .bound ∨ l.state = .demoting ∨ l.state = .promoting ∨ (l.state = .opened ∧ (l.stm.generating = true ∨ l.pins ≠ [] ∨ l.recomputing = true))) := by
  refine ⟨asked (parked { state := .bound }) 0x25 [(8, 8, 7), (16, 1, 2), (17, 1, 0xFF)], 5, 1, { state := .bound, session := 7 }, ?_⟩
  decide +kernel

/-- A device that has taken a PARK to T2. -/
def parkCmd : State := asked (parked {}) 0x25 [(8, 8, 7), (16, 1, 2), (17, 1, 0xFF)]

theorem test_meets_SessionsParkedAndRevived_2 : ∃ (s : State) (id h : Nat) (l : Locket) (u : State),
    entering s id 0x25 h l = true ∧
    ((cmdOf s id).fld 16 1 = 2 ∨ (cmdOf s id).fld 16 1 = 3) ∧
    (cmdOf s id).fld 17 1 = 0xFF ∧
    (cmdOf s id).flag 4 = false ∧
    ((l.state = .opened ∧ l.stm.generating = false ∧ l.pins = [] ∧ l.recomputing = false) ∨ (l.state = .parkedT2 ∧ (cmdOf s id).fld 16 1 = 3)) ∧
    tierOpen s ((cmdOf s id).fld 16 1) = true ∧
    startDemotion (entered s id h) h ((cmdOf s id).fld 16 1) (demoteBay (entered s id h) 0xFF) (some id) = some u := by
  refine ⟨parkCmd, 5, 1, { session := 7 }, (startDemotion (entered parkCmd 5 1) 1 2 (demoteBay (entered parkCmd 5 1) 0xFF) (some 5)).getD up, ?_⟩
  decide +kernel

theorem test_meets_SessionsParkedAndRevived_3 : ∃ (s : State) (h tier bay : Nat) (cmd : Option Nat) (u : State),
    startDemotion s h tier bay cmd = some u := by
  refine ⟨parked {}, 1, 2, 0xFF, none, (startDemotion (parked {}) 1 2 0xFF none).getD up, ?_⟩
  decide +kernel

theorem test_meets_SessionsParkedAndRevived_4 : ∃ (s : State) (id : _) (h : _) (l : _),
    entering s id 0x26 h l = true ∧
    (l.state = .opened ∨ l.state = .bound) := by
  refine ⟨asked (parked {}) 0x26 [(8, 8, 7)], 5, 1, { session := 7 }, ?_⟩
  decide +kernel

theorem test_meets_SessionsParkedAndRevived_5 : ∃ (s : State) (id : _) (h : _) (l : _) (st : _) (code : _),
    entering s id 0x26 h l = true ∧
    (l.state = .parkedT2 ∨ (l.state = .parkedT3 ∧ (s.bay l.bay).mode ≠ .detaching)) ∧
    reviveCheck (takePin (entered s id h) h id) { meets s id l with pins := if l.pins.contains id then l.pins else l.pins ++ [id] } = .inl (st, code) := by
  refine ⟨asked (parked { state := .parkedT2, extent := 5 }) 0x26 [(8, 8, 7)], 5, 1, { state := .parkedT2, extent := 5, session := 7 }, stTarnished, 0x15, ?_⟩
  decide +kernel

/-- The locket of a parked session, and its extent of two units: the header and a control page that names the parure. -/
def parkedLocket : Locket := { session := 7, state := .parkedT2, extent := 5, units := 2 }
def parkedExtent : Extent := { kind := .locket, owner := 1, sealed := true, units := 2, runs := [(0, 2)], data := lockHead ++ zeros 4000 ++ blank 64 [(47, 1, 77)] }
def reviveCmd : State := asked { parked parkedLocket with extents := [(5, parkedExtent)] } 0x26 [(8, 8, 7)]
def pinnedRevive : State := takePin (entered reviveCmd 5 1) 1 5
def revivePlan : ExtHead × Locket × Nat := match reviveCheck pinnedRevive { meets reviveCmd 5 parkedLocket with pins := [5] } with | .inr r => r | .inl _ => ({}, {}, 9)

theorem test_meets_SessionsParkedAndRevived_6 : ∃ (s : State) (id h : Nat) (l : Locket) (hd : ExtHead) (w : Locket) (slot page : Nat) (u : State) (fs : List Nat),
    entering s id 0x26 h l = true ∧
    (l.state = .parkedT2 ∨ (l.state = .parkedT3 ∧ (s.bay l.bay).mode ≠ .detaching)) ∧
    (let p := takePin (entered s id h) h id
     let img := ((loadedSlot p slot).map (·.image)).getD []
     reviveCheck p { meets s id l with pins := if l.pins.contains id then l.pins else l.pins ++ [id] } = .inr (hd, w, slot) ∧
     arenaFit p (homeStack p) (locketArena p l.tenant img) = some page ∧ takeFrames p (homeStack p) hd.pages (.inUse h) = (u, some fs)) ∧
    hd.kv = true ∧
    (u.lockets.get? h).isSome := by
  have h2 : (takeFrames pinnedRevive 0 0 (.inUse 1)).2 = some [] := by decide +kernel
  have h0 : homeStack pinnedRevive = 0 := by decide +kernel
  refine ⟨reviveCmd, 5, 1, parkedLocket, revivePlan.1, revivePlan.2.1, 0, (arenaFit pinnedRevive 0 (locketArena pinnedRevive 0 img)).getD 0,
    (takeFrames pinnedRevive 0 0 (.inUse 1)).1, [], by decide +kernel, by decide +kernel, ⟨by decide +kernel, by decide +kernel, ?_⟩, by decide +kernel, by decide +kernel⟩
  rw [show takePin (entered reviveCmd 5 1) 1 5 = pinnedRevive from rfl, h0, show revivePlan.1.pages = 0 by decide +kernel]
  exact Prod.ext rfl h2

theorem test_meets_SessionsParkedAndRevived_7 : ∃ (s : State) (h : _) (l : _),
    s.lan.refclk = true ∧
    s.lockets.get? h = some l ∧
    serving s = true ∧
    s.integ.mode ≠ .quarantined ∧
    clockRuns l = true ∧
    l.demoteBlocked = false ∧
    (tierTtl l).2 ≠ 0xFFFFFFFF ∧
    l.lastTouch + (tierTtl l).2 * 100000000 ≤ s.now := by
  refine ⟨parked { ttl1 := 0 }, 1, { ttl1 := 0, session := 7 }, ?_⟩
  decide +kernel

theorem test_meets_SessionsParkedAndRevived_8 : ∃ (s : State) (h : _) (l : _),
    s.lan.refclk = true ∧
    s.lockets.get? h = some l ∧
    serving s = true ∧
    s.integ.mode ≠ .quarantined ∧
    clockRuns l = true ∧
    l.demoteBlocked = true ∧
    (tierTtl l).2 ≠ 0xFFFFFFFF ∧
    l.lastTouch + (tierTtl l).2 * 100000000 ≤ s.now ∧
    l.retryAt ≤ s.now := by
  refine ⟨parked { ttl1 := 0, demoteBlocked := true, retryAt := 1000000 }, 1, { ttl1 := 0, demoteBlocked := true, retryAt := 1000000, session := 7 }, ?_⟩
  decide +kernel

theorem test_meets_SessionsParkedAndRevived_9 : ∃ (s : State) (h : Nat) (l : Locket) (m : TierMove) (e : Extent) (r : DescDone),
    s.lan.refclk = true ∧
    s.lockets.get? h = some l ∧
    l.state = .demoting ∧
    l.move = some m ∧
    doneFor s (.demote h) = some r ∧
    l.pins = [] ∧
    l.packets.all (·.written) = true ∧
    s.extents.get? m.extent = some e ∧
    e.sealed = true ∧
    l.extent ≠ m.extent := by
  refine ⟨{ (ended (parked { state := .demoting, dst := 2, move := some { extent := 5 } }) (.demote 1) 0) with extents := [(5, { sealed := true, units := 2 })] }, 1, { state := .demoting, dst := 2, move := some { extent := 5 }, session := 7 }, { extent := 5 }, { sealed := true, units := 2 }, { cookie := 3, purpose := .demote 1, status := 0, unitsDone := 0, tick := 0 }, ?_⟩
  decide +kernel

theorem test_meets_SessionsParkedAndRevived_10 : ∃ (s : State) (h : Nat) (l : Locket) (m : TierMove) (v : State) (st : Nat),
    s.lockets.get? h = some l ∧
    l.state = .promoting ∧
    l.move = some m ∧
    consume s (.promote h) = some (v, st) ∧
    st ≠ 0 := by
  refine ⟨ended (parked { state := .promoting, move := some { src := 2 } }) (.promote 1) 2, 1, { state := .promoting, move := some { src := 2 }, session := 7 }, { src := 2 }, ((consume (ended (parked { state := .promoting, move := some { src := 2 } }) (.promote 1) 2) (.promote 1)).getD (up, 0)).1, 2, ?_⟩
  decide +kernel

/-- A promotion whose transfer has ended, of an extent that holds its header alone. -/
def promotedHead : ExtHead := { id := 5, units := 2, session := 7, digest := sha256 [] }
def promoted : State :=
  { ended (parked { state := .promoting, extent := 5, move := some { src := 2 } }) (.promote 1) 0 with extents := [(5, { sealed := true, units := 2, data := lockHead.take 64 ++ sha256 [] })] }

theorem test_meets_SessionsParkedAndRevived_11 : ∃ (s : State) (h : Nat) (l : Locket) (m : TierMove) (v : State) (hd : ExtHead) (plain : List Byte),
    s.lockets.get? h = some l ∧
    l.state = .promoting ∧
    l.move = some m ∧
    consume s (.promote h) = some (v, 0) ∧
    sourcePlain v l = some (hd, plain, []) ∧
    bodyDigest [] plain = hd.digest ∧
    hd.kv = true := by
  refine ⟨promoted, 1, { state := .promoting, extent := 5, move := some { src := 2 }, session := 7 }, { src := 2 }, ((consume promoted (.promote 1)).getD (up, 0)).1, promotedHead, [], ?_⟩
  decide +kernel

/-- The session's first symbol as a charm, and a device that has taken a CHARM_CREATE of it. -/
def sameCharm : Charm := { charm1 with digest := charmDigestOf 0 0 [65] }
def createCmd : State := asked (parked { base := 1, thread := [65] }) 0x27 [(8, 8, 8), (16, 8, 7), (24, 4, 1)]

theorem test_meets_CharmsAndReplicasKept_1 : ∃ (s : State) (id h : Nat) (l : Locket) (ci : Nat) (m : Charm),
    admitted s id 0x27 = true ∧
    (cmdOf s id).handle ≠ 0 ∧
    charmNamed s (cmdOf s id).tenant (cmdOf s id).handle = none ∧
    (cmdOf s id).fld 28 1 = 0 ∧
    findSession s (cmdOf s id).tenant ((cmdOf s id).fld 16 8) = some (h, l) ∧
    s.lockets.get? h = some l ∧
    l.unusable = false ∧
    l.replay = false ∧
    opening l = false ∧
    l.closing = none ∧
    l.state = .opened ∧
    l.stm.generating = false ∧
    l.pins = [] ∧
    l.dropped = false ∧
    l.recomputing = false ∧
    (cmdOf s id).fld 24 4 ≠ 0 ∧
    l.base = (cmdOf s id).fld 24 4 ∧
    s.charms.find? (fun e => e.2.tenant == (cmdOf s id).tenant && e.2.digest == charmDigestOf l.parureHash l.facetHash (l.thread.take ((cmdOf s id).fld 24 4))) = some (ci, m) ∧
    s.charms.get? ci = some m ∧
    m.names.length < 16 := by
  refine ⟨{ createCmd with charms := [(2, sameCharm)] }, 5, 1, { base := 1, thread := [65], session := 7 }, 2, sameCharm, ?_⟩
  decide +kernel

theorem test_meets_CharmsAndReplicasKept_2 : ∃ (s : State) (id h : Nat) (l : Locket) (u : State),
    admitted s id 0x27 = true ∧
    (cmdOf s id).handle ≠ 0 ∧
    charmNamed s (cmdOf s id).tenant (cmdOf s id).handle = none ∧
    ((cmdOf s id).fld 28 1 = 0 ∨ (((cmdOf s id).fld 28 1 = 2 ∨ (cmdOf s id).fld 28 1 = 3) ∧ tierOpen s ((cmdOf s id).fld 28 1) = true)) ∧
    findSession s (cmdOf s id).tenant ((cmdOf s id).fld 16 8) = some (h, l) ∧
    s.lockets.get? h = some l ∧
    l.unusable = false ∧
    l.replay = false ∧
    opening l = false ∧
    l.closing = none ∧
    l.state = .opened ∧
    l.stm.generating = false ∧
    l.pins = [] ∧
    l.dropped = false ∧
    l.recomputing = false ∧
    (cmdOf s id).fld 24 4 ≠ 0 ∧
    l.base = (cmdOf s id).fld 24 4 ∧
    s.charms.find? (fun e => e.2.tenant == (cmdOf s id).tenant && e.2.digest == charmDigestOf l.parureHash l.facetHash (l.thread.take ((cmdOf s id).fld 24 4))) = none ∧
    buildCharm (takePin ((begun s id).locketM h fun l => { l with lastTouch := max l.lastTouch (cmdOf s id).accept, dirtyControl := true }) h id) (cmdOf s id) { l with lastTouch := max l.lastTouch (cmdOf s id).accept, dirtyControl := true, pins := [id] } (charmDigestOf l.parureHash l.facetHash (l.thread.take ((cmdOf s id).fld 24 4))) = some u := by
  have hb : (buildCharm (takePin ((begun createCmd 5).locketM 1 fun l => { l with lastTouch := max l.lastTouch (cmdOf createCmd 5).accept, dirtyControl := true }) 1 5)
      (cmdOf createCmd 5) { session := 7, base := 1, thread := [65], pins := [5] } (charmDigestOf 0 0 [65])).isSome = true := by decide +kernel
  obtain ⟨u, hu⟩ := Option.isSome_iff_exists.mp hb
  exact ⟨createCmd, 5, 1, { base := 1, thread := [65], session := 7 }, u, by decide +kernel, by decide +kernel, by decide +kernel, by decide +kernel, by decide +kernel,
    by decide +kernel, rfl, rfl, rfl, rfl, rfl, rfl, rfl, rfl, rfl, by decide +kernel, by decide +kernel, rfl, hu⟩

theorem test_meets_CharmsAndReplicasKept_3 : ∃ (s : State) (c : HCmd) (l : Locket) (dg : Nat) (u : State),
    buildCharm s c l dg = some u := by
  have hb : (buildCharm createCmd (cmdOf createCmd 5) { session := 7, base := 1, thread := [65] } 6).isSome = true := by decide +kernel
  obtain ⟨u, hu⟩ := Option.isSome_iff_exists.mp hb
  exact ⟨_, _, _, _, u, hu⟩

theorem test_meets_CharmsAndReplicasKept_4 : ∃ (s : State) (id : _) (ci : _) (m : _),
    admitted s id 0x28 = true ∧
    charmNamed s (cmdOf s id).tenant (cmdOf s id).handle = some (ci, m) ∧
    s.charms.get? ci = some m := by
  refine ⟨asked { tiered with charms := [(2, charm1)] } 0x28 [(8, 8, 4)], 5, 2, charm1, ?_⟩
  decide +kernel

theorem test_meets_CharmsAndReplicasKept_5 : ∃ (s : State) (ci k : Nat) (m : Charm) (v : State),
    k < 8 ∧
    s.charms.get? ci = some m ∧
    m.names ≠ [] ∧
    consume s (.replica ci k) = some (v, 0) ∧
    replicaState m k = .promoting := by
  refine ⟨ended { tiered with charms := [(2, { charm1 with replicas := { state := .promoting } :: List.replicate 7 {} })] } (.replica 2 0) 0, 2, 0, { charm1 with replicas := { state := .promoting } :: List.replicate 7 {} }, ((consume (ended { tiered with charms := [(2, { charm1 with replicas := { state := .promoting } :: List.replicate 7 {} })] } (.replica 2 0) 0) (.replica 2 0)).getD (up, 0)).1, ?_⟩
  decide +kernel

theorem test_meets_CharmsAndReplicasKept_6 : ∃ (s : State) (ci k : Nat) (m : Charm) (v : State) (st : Nat),
    k < 8 ∧
    s.charms.get? ci = some m ∧
    consume s (.replica ci k) = some (v, st) ∧
    st ≠ 0 ∧
    st ≠ 4 ∧
    m.cmd = none ∧
    replicaState m k = .promoting := by
  refine ⟨ended { tiered with charms := [(2, { charm1 with replicas := { state := .promoting } :: List.replicate 7 {} })] } (.replica 2 0) 2, 2, 0, { charm1 with replicas := { state := .promoting } :: List.replicate 7 {} }, ((consume (ended { tiered with charms := [(2, { charm1 with replicas := { state := .promoting } :: List.replicate 7 {} })] } (.replica 2 0) 2) (.replica 2 0)).getD (up, 0)).1, 2, ?_⟩
  decide +kernel

theorem test_meets_CharmsAndReplicasKept_7 : ∃ (s : State) (ci k : Nat) (m : Charm),
    s.lan.refclk = true ∧
    k < 8 ∧
    s.charms.get? ci = some m ∧
    replicaState m k = .present ∧
    (m.replicas.getD k {}).pins = [] ∧
    m.t1Ttl ≠ 0xFFFFFFFF ∧
    (m.replicas.getD k {}).idleSince + m.t1Ttl * 100000000 ≤ s.now ∧
    (m.master ≠ 0 ∨ k ≠ m.anchor) := by
  refine ⟨{ tiered with charms := [(2, { charm1 with master := 2, t1Ttl := 0 })] }, 2, 0, { charm1 with master := 2, t1Ttl := 0 }, ?_⟩
  decide +kernel

theorem test_meets_CharmsAndReplicasKept_8 : ∃ (s : State) (ci k : Nat) (m : Charm),
    s.lan.refclk = true ∧
    k < 8 ∧
    s.charms.get? ci = some m ∧
    replicaState m k = .evicting ∧
    (m.replicas.getD k {}).pins = [] := by
  refine ⟨{ tiered with charms := [(2, { charm1 with replicas := List.replicate 7 {} ++ [{ state := .evicting, frames := [0] }] })] }, 2, 7, { charm1 with replicas := List.replicate 7 {} ++ [{ state := .evicting, frames := [0] }] }, ?_⟩
  decide +kernel

theorem test_meets_CharmsAndReplicasKept_9 : ∃ (s : State) (ci : _) (m : _),
    s.lan.refclk = true ∧
    s.charms.get? ci = some m ∧
    serving s = true ∧
    charmRefs s m = 0 ∧
    m.cmd = none ∧
    m.ttl ≠ 0xFFFFFFFF ∧
    m.zeroSince + m.ttl * 100000000 ≤ s.now := by
  refine ⟨{ tiered with charms := [(2, { charm1 with ttl := 0 })] }, 2, { charm1 with ttl := 0 }, ?_⟩
  decide +kernel

theorem test_meets_TablesAndContextsTaken_1 : ∃ (s : State) (id : Nat) (img : List Byte) (st n : Nat),
    admitted s id 0x38 = true ∧
    tableCheck (begun s id) (cmdOf s id) (padTo 8192 img) = some (st, n) := by
  refine ⟨asked up 0x38 [(16, 8, 0), (24, 4, 4096)], 5, [], stInvalid, 1, ?_⟩
  decide +kernel

theorem test_meets_TablesAndContextsTaken_2 : ∃ (s : State) (id : Nat) (img : List Byte),
    admitted s id 0x38 = true ∧
    tableCheck (begun s id) (cmdOf s id) (padTo 8192 img) = none := by
  refine ⟨asked up 0x38 [(16, 8, 4096), (24, 4, 8192)], 5, blank 96 [(0, 8, leNat (ascii "CL9EPHEM")), (8, 2, 1), (12, 4, 500000), (16, 1, 1), (64, 1, 3), (72, 4, 500000)], ?_⟩
  decide +kernel

theorem test_meets_TablesAndContextsTaken_3 : ∃ (s : State) (id : _),
    admitted s id 0x39 = true ∧
    s.eph.switch = none ∧
    s.eph.shadow.isSome ∧
    (s.eph.active = none ∨ (cmdOf s id).fld 16 8 = 0 ∨ s.eph.frame < (cmdOf s id).fld 16 8) := by
  refine ⟨(asked up 0x39 []).ephM fun e => { e with shadow := some {} }, 5, ?_⟩
  decide +kernel

theorem test_meets_TablesAndContextsTaken_4 : ∃ (s : State) (id : _),
    admitted s id 0x39 = true ∧
    s.eph.switch.isSome ∧
    s.eph.shadow.isSome ∧
    (s.eph.active = none ∨ (cmdOf s id).fld 16 8 = 0 ∨ s.eph.frame < (cmdOf s id).fld 16 8) := by
  refine ⟨(asked up 0x39 []).ephM fun e => { e with shadow := some {}, switch := some { atFrame := 0, accepted := 0, cmd := none } }, 5, ?_⟩
  decide +kernel

theorem test_meets_TablesAndContextsTaken_5 : ∃ (s : State) (id k : Nat) (p : Parure) (a : Nat),
    admitted s id 0x30 = true ∧
    (cmdOf s id).flag 4 = false ∧
    (cmdOf s id).fld 16 1 < 8 ∧
    parureHandle s (cmdOf s id).handle = some (k, p) ∧
    p.state = .loaded ∧
    imgDraft p.header = false ∧
    s.eph.ctxs.has ((cmdOf s id).fld 16 1) = false ∧
    (s.eph.ctxs.filter (fun e => e.2.slot == k)).length < p.contexts ∧
    freeSpill s k p = some a := by
  refine ⟨asked upPar 0x30 [(8, 8, 9), (16, 1, 7)], 5, 0, par, 0, ?_⟩
  decide +kernel

theorem test_meets_TablesAndContextsTaken_6 : ∃ (s : State) (id : Nat) (x : Ctx),
    admitted s id 0x30 = true ∧
    (cmdOf s id).flag 4 = true ∧
    s.eph.ctxs.get? ((cmdOf s id).fld 16 1) = some x ∧
    x.state = .idle ∧
    x.suspended = none ∧
    x.members = [] ∧
    x.joins = [] := by
  refine ⟨(asked upPar 0x30 [(1, 1, 16), (16, 1, 7)]).ephM fun e => { e with ctxs := [(7, {})] }, 5, {}, ?_⟩
  decide +kernel

theorem test_meets_TablesAndContextsTaken_7 : ∃ (s : State) (id h : Nat) (l : Locket) (x : Ctx),
    entering s id 0x31 h l = true ∧
    s.eph.ctxs.get? ((cmdOf s id).fld 16 1) = some x ∧
    l.state = .opened ∧
    joinPending s h = false ∧
    l.slot = x.slot := by
  refine ⟨(asked (parked {}) 0x31 [(8, 8, 7), (16, 1, 7)]).ephM fun e => { e with ctxs := [(7, {})] }, 5, 1, { session := 7 }, {}, ?_⟩
  decide +kernel

theorem test_meets_TablesAndContextsTaken_8 : ∃ (s : State) (id h : Nat) (l : Locket) (x : Ctx),
    entering s id 0x32 h l = true ∧
    s.eph.ctxs.get? ((cmdOf s id).fld 16 1) = some x ∧
    (∃ j ∈ x.joins, j.id = h) ∧
    (∀ y ∈ s.eph.ctxs.vals, ∀ j ∈ y.joins, j.id = h → j.cmd ≠ id) := by
  refine ⟨(asked (parked {}) 0x32 [(8, 8, 7), (16, 1, 7)]).ephM fun e => { e with ctxs := [(7, { joins := [{ id := 1, cmd := 4, since := 0 }] })] }, 5, 1, { session := 7 }, { joins := [{ id := 1, cmd := 4, since := 0 }] }, ?_⟩
  decide +kernel

theorem test_meets_TablesAndContextsTaken_9 : ∃ (s : State) (id h : Nat) (l : Locket) (x : Ctx),
    entering s id 0x32 h l = true ∧
    s.eph.ctxs.get? ((cmdOf s id).fld 16 1) = some x ∧
    (∀ j ∈ x.joins, j.id ≠ h) ∧
    l.state = .bound ∧
    l.context = (cmdOf s id).fld 16 1 := by
  refine ⟨(asked (parked { state := .bound, context := 7 }) 0x32 [(8, 8, 7), (16, 1, 7)]).ephM fun e => { e with ctxs := [(7, { members := [(0, 1)] })] }, 5, 1, { state := .bound, context := 7, session := 7 }, { members := [(0, 1)] }, ?_⟩
  decide +kernel

theorem test_meets_TablesAndContextsTaken_10 : ∃ (s : State) (id : _),
    admitted s id 0x61 = true ∧
    (cmdOf s id).fld 18 2 ≠ 0 ∧
    (cmdOf s id).fld 16 2 + (cmdOf s id).fld 18 2 ≤ 1024 ∧
    addrOk ((cmdOf s id).fld 24 8) = true ∧
    ((cmdOf s id).tenant = 0 ∨ ((cmdOf s id).fld 16 2 = (cmdOf s id).tenant ∧ (cmdOf s id).fld 18 2 = 1 ∧ (cmdOf s id).flag 4 = false)) := by
  refine ⟨asked up 0x61 [(16, 2, 1023), (18, 2, 1), (24, 8, 4096)], 5, ?_⟩
  decide +kernel

/-- A table of one idle slot, and a device whose frames it divides. -/
def oneSlot : EphTable := { frameTicks := 500000, slots := [{ kind := 3, length := 500000 }] }
def framed (f : Eph → Eph) : State := up.ephM fun e => f { e with active := some oneSlot, enable := true }

theorem test_meets_FramesSlotsAndJobsRun_1 : ∃ (s : State) (newest : Option (Nat × Nat)),
    s.eph.enable = true ∧
    serving s = true ∧
    s.lan.stopped = false ∧
    s.lan.refclk = true ∧
    frameOver s = true ∧
    due s s.eph.nextMeridian = true := by
  refine ⟨framed id, none, ?_⟩
  decide +kernel

theorem test_meets_FramesSlotsAndJobsRun_2 : ∃ (s : State) (newest : Option (Nat × Nat)) (w : Switch) (x : EphTable),
    s.eph.switch = some w ∧
    s.eph.shadow = some x ∧
    s.eph.enable = true ∧
    serving s = true ∧
    switchDue s = true ∧
    s.eph.active.isSome ∧
    coverFail s x = none := by
  refine ⟨framed fun e => { e with switch := some { atFrame := 0, accepted := 0, cmd := none }, shadow := some oneSlot, running := true, slotDue := true, meridian := 10000 }, none, { atFrame := 0, accepted := 0, cmd := none }, oneSlot, ?_⟩
  decide +kernel

theorem test_meets_FramesSlotsAndJobsRun_3 : ∃ (s : State) (newest : Option (Nat × Nat)) (w : Switch) (x : EphTable) (n : Nat),
    s.eph.switch = some w ∧
    s.eph.shadow = some x ∧
    s.eph.enable = true ∧
    serving s = true ∧
    switchDue s = true ∧
    coverFail s x = some n := by
  refine ⟨{ (up.ephM fun e => { e with switch := some { atFrame := 0, accepted := 0, cmd := none }, shadow := some oneSlot }) with parures := [(0, { par with tAdm := 500001 })] }, none, { atFrame := 0, accepted := 0, cmd := none }, oneSlot, 0xFFFF, ?_⟩
  decide +kernel

theorem test_meets_FramesSlotsAndJobsRun_4 : ∃ (s : State) (k : Nat) (a : Tick),
    ephOk s = true ∧
    slotStarting s = some (k, a) := by
  refine ⟨framed fun e => { e with running := true, slotDue := true, meridian := 1000000 }, 0, 1000000, ?_⟩
  decide +kernel

theorem test_meets_FramesSlotsAndJobsRun_5 : ∃ (s : State) (x : EphTable) (e : EphSlot),
    s.eph.active = some x ∧
    slotNow s = some e ∧
    ephOk s = true ∧
    s.eph.leadPassed = false ∧
    due s (slotEnd s - leadOf x) = true := by
  refine ⟨framed fun e => { e with running := true, nextMeridian := 1000603 }, oneSlot, { kind := 3, length := 500000 }, ?_⟩
  decide +kernel

theorem test_meets_FramesSlotsAndJobsRun_6 : ∃ (s : State) (cls target : Nat) (k : JobClass) (j : Job),
    jobClass cls = some k ∧
    serving s = true ∧
    orreryLost s = false ∧
    readyJob s k target = some j ∧
    (∀ v, serverOf s j.cls = some v → (serverAt s v).urgent = false) := by
  refine ⟨parked { recomputing := true }, 0, 1, .recompute, { id := 0, cls := .recompute, target := 1, wJob := 0, ready := 0, seq := 0 }, ?_⟩
  decide +kernel

theorem test_meets_FramesSlotsAndJobsRun_7 : ∃ (s : State) (j : _),
    s.eph.holder = .none ∧
    s.ory.prog = none ∧
    s.ory.mode = .idle ∧
    issueOk s = true ∧
    s.integ.mode = .normal ∧
    s.eph.active = none ∧
    overrunNext s = none ∧
    strayJob s = some j := by
  refine ⟨up.ephM fun e => { e with jobs := [{ id := 1, cls := .recompute }] }, { id := 1, cls := .recompute }, ?_⟩
  decide +kernel

theorem test_meets_FramesSlotsAndJobsRun_8 : ∃ (s : State) (c : Nat) (x : Ctx) (u : Suspended),
    s.eph.holder = .none ∧
    s.ory.prog = none ∧
    s.ory.mode = .idle ∧
    issueOk s = true ∧
    s.integ.mode = .normal ∧
    s.eph.active = none ∧
    overrunNext s = some c ∧
    s.eph.ctxs.get? c = some x ∧
    x.suspended = some u := by
  refine ⟨up.ephM fun e => { e with ctxs := [(7, { state := .overrun, suspended := some { prog := {} } })] }, 7, { state := .overrun, suspended := some { prog := {} } }, { prog := {} }, ?_⟩
  decide +kernel

theorem test_meets_FramesSlotsAndJobsRun_9 : ∃ (s : State) (id : Nat) (j : Job) (p : Progress) (l : Locket),
    s.eph.holder = .job id ∧
    findJob s id = some j ∧
    s.ory.prog = some p ∧
    j.cls = .recompute ∧
    progDone p = true ∧
    j.suspended = none ∧
    j.urgent = false ∧
    powered { s with eph := { s.eph with running := false } } = true ∧
    s.lockets.get? j.target = some l := by
  refine ⟨((sess {}).ephM fun e => { e with holder := .job 1, jobs := [{ id := 1, cls := .recompute, target := 1 }] }).oryM fun y => { y with prog := some { kind := 1, issuedAll := true } }, 1, { id := 1, cls := .recompute, target := 1 }, { kind := 1, issuedAll := true }, { session := 7 }, ?_⟩
  decide +kernel

theorem test_meets_FramesSlotsAndJobsRun_10 : ∃ (s : State) (id : Nat) (x : EphTable) (t0 : Tick) (j : Job),
    s.eph.holder = .job id ∧
    s.eph.active = some x ∧
    s.eph.chargeFrom = some t0 ∧
    findJob s id = some j ∧
    j.urgent = true ∧
    s.ory.preempt = false ∧
    due s (t0 + (j.wJob - leadOf x)) = true := by
  refine ⟨framed fun e => { e with holder := .job 1, chargeFrom := some 999397, jobs := [{ id := 1, cls := .recompute, urgent := true, wJob := 1206 }] }, 1, oneSlot, 999397, { id := 1, cls := .recompute, urgent := true, wJob := 1206 }, ?_⟩
  decide +kernel

theorem test_meets_FramesSlotsAndJobsRun_11 : ∃ (s : State),
    s.eph.charges.any (fun c => due s c.due) = true := by
  refine ⟨up.ephM fun e => { e with charges := [{ server := 0, ticks := 5, due := 1000000 }] }, ?_⟩
  decide +kernel

/-- A device that has taken a COLLECTION_CREATE. -/
def collCreate : State := asked (roomy par) 0x44 [(8, 8, 3), (20, 2, 256), (22, 1, 8), (24, 4, 4), (28, 4, 64), (36, 2, 8)]

theorem test_meets_CollectionsAndItemsKept_1 : ∃ (s : State) (id ci : Nat) (fs : List Nat) (u : State),
    admitted s id 0x44 = true ∧
    (cmdOf s id).flag 4 = false ∧
    (cmdOf s id).handle ≠ 0 ∧
    findColl s (cmdOf s id).tenant (cmdOf s id).handle = none ∧
    paramsOk (createParams (cmdOf s id)) = true ∧
    s.colls.freshFrom 256 0 = some ci ∧
    takeSpread (begun s id) (collPages (createParams (cmdOf s id))) (.collection ci) = (u, some fs) := by
  have h : (takeSpread (begun collCreate 5) (collPages (createParams (cmdOf collCreate 5))) (.collection 0)).2.isSome = true := by decide +kernel
  obtain ⟨fs, hf⟩ := Option.isSome_iff_exists.mp h
  exact ⟨collCreate, 5, 0, fs, _, by decide +kernel, by decide +kernel, by decide +kernel, by decide +kernel, by decide +kernel, by decide +kernel, Prod.ext rfl hf⟩

theorem test_meets_CollectionsAndItemsKept_2 : ∃ (s : State) (id : _),
    admitted s id 0x44 = true ∧
    (cmdOf s id).flag 4 = false ∧
    ((cmdOf s id).handle = 0 ∨ (findColl s (cmdOf s id).tenant (cmdOf s id).handle).isSome ∨ paramsOk (createParams (cmdOf s id)) = false) := by
  refine ⟨asked (roomy par) 0x44 [(8, 8, 3), (20, 2, 255)], 5, ?_⟩
  decide +kernel

theorem test_meets_CollectionsAndItemsKept_3 : ∃ (s : State) (id ci : Nat) (k : Coll),
    admitted s id 0x44 = true ∧
    (cmdOf s id).flag 4 = true ∧
    zeroAt (cmdOf s id).desc 16 48 = true ∧
    findColl s (cmdOf s id).tenant (cmdOf s id).handle = some (ci, k) ∧
    k.gens.any (fun g => g.holders.any (holding (begun s id))) = false ∧
    k.merge.bind (·.cmd) = none := by
  refine ⟨asked (coll coll1) 0x44 [(1, 1, 16), (8, 8, 3)], 5, 0, coll1, ?_⟩
  decide +kernel

theorem test_meets_CollectionsAndItemsKept_4 : ∃ (s : State) (id : Nat) (block : List Byte) (poison : List Nat) (ci : Nat) (k : Coll) (i : Nat),
    onColl s id 0x41 ci k ∧
    addrOk ((cmdOf s id).fld 16 8) = true ∧
    zeroAt (blankPoison poison block) 16 48 = true ∧
    k.items.freshFrom k.capacity 0 = some i ∧
    k.side.length - (curGen k).sideStart < k.sideMax := by
  exact ⟨asked (coll coll1) 0x41 [(8, 8, 3), (16, 8, 4096)], 5, zeros 96, [], 0, coll1, 0, ⟨by decide +kernel, ⟨coll1, by decide +kernel, by decide +kernel, by decide +kernel⟩, by decide +kernel, by decide +kernel⟩, by decide +kernel, by decide +kernel, by decide +kernel,
    by decide +kernel⟩

theorem test_meets_CollectionsAndItemsKept_5 : ∃ (s : State) (id ci : Nat) (k : Coll) (x : Item),
    onColl s id 0x42 ci k ∧
    k.items.get? ((cmdOf s id).fld 16 4) = some x ∧
    x.delCsn = 0xFFFFFFFFFFFFFFFF := by
  exact ⟨asked (coll { coll1 with lastCsn := 1, items := [(0, item1)], side := [0] }) 0x42 [(8, 8, 3)], 5, 0, { coll1 with lastCsn := 1, items := [(0, item1)], side := [0] }, item1,
    ⟨by decide +kernel, ⟨{ coll1 with lastCsn := 1, items := [(0, item1)], side := [0] }, by decide +kernel, by decide +kernel, by decide +kernel⟩, by decide +kernel, by decide +kernel⟩, by decide +kernel, by decide +kernel⟩

theorem test_meets_CollectionsAndItemsKept_6 : ∃ (s : State) (id ci : Nat) (k : Coll),
    onColl s id 0x43 ci k ∧
    k.merge = none ∧
    mergeIdle k = false := by
  exact ⟨asked (coll { coll1 with lastCsn := 1, items := [(0, item1)], side := [0] }) 0x43 [(8, 8, 3)], 5, 0, { coll1 with lastCsn := 1, items := [(0, item1)], side := [0] },
    ⟨by decide +kernel, ⟨{ coll1 with lastCsn := 1, items := [(0, item1)], side := [0] }, by decide +kernel, by decide +kernel, by decide +kernel⟩, by decide +kernel, by decide +kernel⟩, by decide +kernel, by decide +kernel⟩

theorem test_meets_CollectionsAndItemsKept_7 : ∃ (s : State) (id ci : Nat) (k : Coll),
    onColl s id 0x43 ci k ∧
    k.merge = none ∧
    mergeIdle k = true := by
  exact ⟨asked (coll coll1) 0x43 [(8, 8, 3)], 5, 0, coll1, ⟨by decide +kernel, ⟨coll1, by decide +kernel, by decide +kernel, by decide +kernel⟩, by decide +kernel, by decide +kernel⟩, by decide +kernel, by decide +kernel⟩

theorem test_meets_CollectionsAndItemsKept_8 : ∃ (s : State) (ci : Nat) (k k1 : Coll) (m : Merge),
    s.colls.get? ci = some k ∧
    k.merge = some m ∧
    k.state = .ready ∧
    m.horizon = none ∧
    olderHeld s k = false ∧
    serving s = true ∧
    mergeIdle k = false ∧
    (reapColl s ci).colls.get? ci = some k1 := by
  refine ⟨coll {  coll1 with lastCsn := 1, items := [(0, item1)], side := [0] , merge := some {} }, 0, {  coll1 with lastCsn := 1, items := [(0, item1)], side := [0] , merge := some {} }, {  coll1 with lastCsn := 1, items := [(0, item1)], side := [0] , merge := some {} }, {}, ?_⟩
  decide +kernel

theorem test_meets_CollectionsAndItemsKept_9 : ∃ (s : State) (ci : Nat) (k : Coll) (m : Merge) (h : Nat),
    s.colls.get? ci = some k ∧
    k.merge = some m ∧
    m.horizon = some h ∧
    m.stepsLeft = 0 ∧
    serving s = true := by
  refine ⟨coll { coll1 with merge := some { horizon := some 0 } }, 0, { coll1 with merge := some { horizon := some 0 } }, { horizon := some 0 }, 0, ?_⟩
  decide +kernel

theorem test_meets_SearchesAndSelectsRun_1 : ∃ (s : State) (id : Nat) (query : List Byte) (ci : Nat) (k : Coll),
    onColl s id 0x40 ci k ∧
    searchOk (begun s id) (cmdOf s id) = true ∧
    zeroAt (padTo (64 + ceilDiv (sketchBytes k) 64 * 64 + vecBytes k) query) 16 48 = true := by
  exact ⟨asked (coll coll1) 0x40 [(8, 8, 3), (16, 2, 1), (18, 2, 1), (20, 2, 1), (22, 1, 1), (24, 4, 65536)], 5, [], 0, coll1, ⟨by decide +kernel, ⟨coll1, by decide +kernel, by decide +kernel, by decide +kernel⟩, by decide +kernel, by decide +kernel⟩, by decide +kernel, by decide +kernel⟩

theorem test_meets_SearchesAndSelectsRun_2 : ∃ (s : State) (id : Nat) (query : List Byte) (p : Nat) (ps : List Nat) (ci : Nat) (k : Coll),
    onColl s id 0x40 ci k ∧
    searchOk (begun s id) (cmdOf s id) = true := by
  exact ⟨asked (coll coll1) 0x40 [(8, 8, 3), (16, 2, 1), (18, 2, 1), (20, 2, 1), (22, 1, 1), (24, 4, 65536)], 5, [], 0, [], 0, coll1, ⟨by decide +kernel, ⟨coll1, by decide +kernel, by decide +kernel, by decide +kernel⟩, by decide +kernel, by decide +kernel⟩, by decide +kernel⟩

theorem test_meets_SearchesAndSelectsRun_3 : ∃ (s : State) (unit : Nat) (q : Search) (p : Nat),
    unit < 8 ∧
    nextWalk s = some (q, p) ∧
    (s.sieves.getD unit {}).enable = true ∧
    (s.sieves.getD unit {}).use_ = none ∧
    serving s = true ∧
    s.sieves.length = 8 := by
  refine ⟨{ coll coll1 with searches := [{ cmd := 5, coll := 0, queued := [0] }], sieves := up.sieves.set 7 { enable := true } }, 7, { cmd := 5, coll := 0, queued := [0] }, 0, ?_⟩
  decide +kernel

theorem test_meets_SearchesAndSelectsRun_4 : ∃ (s : State) (unit id p : Nat) (a : Tick) (q : Search) (k : Coll),
    unit < 8 ∧
    (s.sieves.getD unit {}).use_ = some (.walk id p a) ∧
    s.searches.find? (fun q => q.cmd == id) = some q ∧
    s.colls.get? q.coll = some k ∧
    k.metric ≠ 0 ∧
    (searchWalk s k q p).broken = false ∧
    (searchWalk s k q p).tarnItem = none ∧
    s.sieves.length = 8 ∧
    s.lan.refclk = true := by
  refine ⟨{ coll { coll1 with metric := 1, vecFmt := 1, dim := 32 } with searches := [{ cmd := 5, coll := 0 }], sieves := up.sieves.set 7 { enable := true, use_ := some (.walk 5 0 0) } }, 7, 5, 0, 0, { cmd := 5, coll := 0 }, { coll1 with metric := 1, vecFmt := 1, dim := 32 }, ?_⟩
  decide +kernel

theorem test_meets_SearchesAndSelectsRun_5 : ∃ (s : State) (unit id p : Nat) (a : Tick) (q : Search) (k : Coll) (i : Nat),
    unit < 8 ∧
    (s.sieves.getD unit {}).use_ = some (.walk id p a) ∧
    s.searches.find? (fun q => q.cmd == id) = some q ∧
    s.colls.get? q.coll = some k ∧
    (searchWalk s k q p).broken = false ∧
    (searchWalk s k q p).tarnItem = some i ∧
    (findCmd s id).isSome ∧
    completed s id = false ∧
    s.lan.refclk = true := by
  refine ⟨{ asked (coll { coll1 with lastCsn := 1, items := [(0, item1)], side := [0] }) 0x40 [(8, 8, 3)] with searches := [{ cmd := 5, coll := 0, tail := 1, horizon := 1 }], sieves := up.sieves.set 7 { enable := true, use_ := some (.walk 5 0 0) }, integ := { tarnishT1 := [2415919104 / 16] } }, 7, 5, 0, 0, { cmd := 5, coll := 0, tail := 1, horizon := 1 }, { coll1 with lastCsn := 1, items := [(0, item1)], side := [0] }, 0, ?_⟩
  decide +kernel

/-- A device that has taken a SELECT of one row of one value. -/
def selectCmd : State := asked (roomy par) 0x48 [(24, 4, 1), (28, 2, 1), (30, 2, 1), (32, 1, 9), (40, 8, 4096)]

theorem test_meets_SearchesAndSelectsRun_6 : ∃ (s : State) (id : Nat) (fs : List Nat) (u : State),
    admitted s id 0x48 = true ∧
    let rows := (cmdOf s id).fld 28 2
    let n := (cmdOf s id).fld 24 4
    let k := (cmdOf s id).fld 30 2
    let fmt := (cmdOf s id).fld 32 1
    1 ≤ rows ∧
    rows ≤ 4096 ∧
    1 ≤ n ∧
    n ≤ 2 ^ 24 ∧
    1 ≤ k ∧
    k ≤ 1024 ∧
    (fmt = 8 ∨ fmt = 9) ∧
    addrOk ((cmdOf s id).fld 40 8) = true ∧
    rows * n ≤ 2 ^ 26 ∧
    takeAny (begun s id) (ceilDiv (rows * n * selectEb fmt) 65536) (.staging id) = (u, some fs) := by
  refine ⟨selectCmd, 5, [0], (takeAny (begun selectCmd 5) 1 (.staging 5)).1, ?_⟩
  decide +kernel

theorem test_meets_SearchesAndSelectsRun_7 : ∃ (s : State) (id : _),
    admitted s id 0x48 = true ∧
    ((cmdOf s id).fld 28 2 = 0 ∨ 4096 < (cmdOf s id).fld 28 2 ∨ (cmdOf s id).fld 24 4 = 0 ∨ 2 ^ 24 < (cmdOf s id).fld 24 4 ∨ (cmdOf s id).fld 30 2 = 0 ∨ 1024 < (cmdOf s id).fld 30 2 ∨ ((cmdOf s id).fld 32 1 ≠ 8 ∧ (cmdOf s id).fld 32 1 ≠ 9)) := by
  refine ⟨asked up 0x48 [(24, 4, 1), (28, 2, 4097), (30, 2, 1), (32, 1, 9)], 5, ?_⟩
  decide +kernel

theorem test_meets_SearchesAndSelectsRun_8 : ∃ (s : State) (id : Nat) (data : List Byte) (poison : List Nat) (q : Select) (u : State),
    s.selects.find? (fun q => q.cmd == id) = some q ∧
    consume s (.select id) = some (u, 0) := by
  refine ⟨ended { up with selects := [{ cmd := 5 }] } (.select 5) 0, 5, zeros 4, [], { cmd := 5 }, ((consume (ended { up with selects := [{ cmd := 5 }] } (.select 5) 0) (.select 5)).getD (up, 0)).1, ?_⟩
  decide +kernel

theorem test_meets_SearchesAndSelectsRun_9 : ∃ (s : State) (id : Nat) (data : List Byte) (poison : List Nat) (q : Select) (u : State) (st : Nat),
    s.selects.find? (fun q => q.cmd == id) = some q ∧
    consume s (.select id) = some (u, st) ∧
    st ≠ 0 ∧
    st ≠ 4 ∧
    (findCmd s id).isSome ∧
    completed s id = false := by
  refine ⟨ended { asked up 0x48 [] with selects := [{ cmd := 5 }] } (.select 5) 2, 5, [], [], { cmd := 5 }, ((consume (ended { asked up 0x48 [] with selects := [{ cmd := 5 }] } (.select 5) 2) (.select 5)).getD (up, 0)).1, 2, ?_⟩
  decide +kernel

theorem test_meets_QueriesAndSamplesTaken_1 : ∃ (s : State) (id : Nat) (b : List Byte),
    admitted s id 0x60 = true ∧
    addrOk ((cmdOf s id).fld 24 8) = true ∧
    queryRecord (begun s id) (cmdOf s id) = (0, b) := by
  refine ⟨asked (parked {}) 0x60 [(8, 8, 7), (16, 1, 1), (24, 8, 4096)], 5, (queryRecord (begun (asked (parked {}) 0x60 [(8, 8, 7), (16, 1, 1), (24, 8, 4096)]) 5) (cmdOf (asked (parked {}) 0x60 [(8, 8, 7), (16, 1, 1), (24, 8, 4096)]) 5)).2, ?_⟩
  decide +kernel

theorem test_meets_QueriesAndSamplesTaken_2 : ∃ (s : State) (id st : Nat) (b : List Byte),
    admitted s id 0x60 = true ∧
    addrOk ((cmdOf s id).fld 24 8) = true ∧
    queryRecord (begun s id) (cmdOf s id) = (st + 1, b) := by
  refine ⟨asked up 0x60 [(8, 8, 7), (16, 1, 1), (24, 8, 4096)], 5, stUnknown - 1, [], ?_⟩
  decide +kernel

theorem test_meets_QueriesAndSamplesTaken_3 : ∃ (s : State) (id : _),
    admitted s id 0x60 = true ∧
    addrOk ((cmdOf s id).fld 24 8) = false := by
  refine ⟨asked up 0x60 [(16, 1, 7), (24, 8, 32)], 5, ?_⟩
  decide +kernel

theorem test_meets_QueriesAndSamplesTaken_4 : ∃ (s : State),
    serving s = true ∧
    s.now % 1000 = 0 ∧
    s.traffic.lastSample ≠ some s.now := by
  refine ⟨up, ?_⟩
  decide +kernel

theorem test_meets_QueriesAndSamplesTaken_5 : ∃ (s : State),
    serving s = true ∧
    s.traffic.lastSample = some s.now := by
  refine ⟨{ up with traffic := { lastSample := some 1000000 } }, ?_⟩
  decide +kernel

/-- The state with a buddy. -/
def withBuddy (s : State) : State := s.stdM fun d => { d with buddy := some 2 }

theorem test_meets_CheckpointsActed_1 : ∃ (s : State) (id : _),
    admitted s id 0x50 = true ∧
    cutsOn s = true := by
  refine ⟨withBuddy <| ((asked up 0x50 []).ephM fun e => { e with active := some {} }).ckptM fun k => { k with en := 1 }, 5, ?_⟩
  decide +kernel

theorem test_meets_CheckpointsActed_2 : ∃ (s : State) (id : _),
    admitted s id 0x50 = true ∧
    cutsOn s = false := by
  refine ⟨asked up 0x50 [], 5, ?_⟩
  decide +kernel

/-- A manifest of cut 1 of origin 3 with boot nonce 9, and a device whose T2 holds it. -/
def man1 : Extent := { kind := .manifest, ckpt := true, sealed := true, data := blank 64 [(16, 8, 3), (24, 8, 1), (34, 3, 9)] }
def stored (s : State) : State := { s with extents := [(7, man1)] }

theorem test_meets_CheckpointsActed_3 : ∃ (s : State) (id : Nat) (x : View) (b : Nat) (m : Extent),
    admitted s id 0x52 = true ∧
    ((cmdOf s id).fld 16 1 < 4 ∨ (cmdOf s id).fld 16 1 = 0x10) ∧
    (cmdOf s id).fld 17 1 ≤ 1 ∧
    addrOk ((cmdOf s id).fld 24 8) = true ∧
    sourceView (begun s id) ((cmdOf s id).fld 16 1) [] = some x ∧
    pickBoot x (cmdOf s id).handle ((cmdOf s id).fld 18 3) = some b ∧
    slotManifest ((cmdOf s id).fld 16 1 < 4) x (cmdOf s id).handle b ((cmdOf s id).fld 17 1) = some m := by
  refine ⟨stored (asked up 0x52 [(8, 8, 3), (16, 1, 0x10), (17, 1, 1), (24, 8, 64)]), 5, [(7, man1)], 9, man1, ?_⟩
  decide +kernel

theorem test_meets_CheckpointsActed_4 : ∃ (s : State) (id : Nat) (x : View),
    admitted s id 0x52 = true ∧
    ((cmdOf s id).fld 16 1 < 4 ∨ (cmdOf s id).fld 16 1 = 0x10) ∧
    (cmdOf s id).fld 17 1 ≤ 1 ∧
    addrOk ((cmdOf s id).fld 24 8) = true ∧
    sourceView (begun s id) ((cmdOf s id).fld 16 1) [] = some x ∧
    pickBoot x (cmdOf s id).handle ((cmdOf s id).fld 18 3) = none := by
  refine ⟨asked up 0x52 [(8, 8, 3), (16, 1, 0x10), (17, 1, 1), (24, 8, 64)], 5, [], ?_⟩
  decide +kernel

theorem test_meets_CheckpointsActed_5 : ∃ (s : State) (c : Cut) (cs : List Cut),
    s.ckpt.cuts = c :: cs ∧
    serving s = true ∧
    c.phase = 0 ∧
    c.deferred = [] ∧
    copying s c.frame = false ∧
    s.std.buddy = some c.buddy := by
  refine ⟨withBuddy (up.ckptM fun k => { k with cuts := [{ frame := 1, tick := 0, buddy := 2 }] }), { frame := 1, tick := 0, buddy := 2 }, [], ?_⟩
  decide +kernel

theorem test_meets_CheckpointsActed_6 : ∃ (s : State) (c : Cut) (cs : List Cut),
    s.lan.refclk = true ∧
    s.ckpt.cuts = c :: cs ∧
    c.phase = 5 := by
  refine ⟨up.ckptM fun k => { k with cuts := [{ frame := 1, tick := 0, phase := 5 }] }, { frame := 1, tick := 0, phase := 5 }, [], ?_⟩
  decide +kernel

theorem test_meets_CheckpointsActed_7 : ∃ (s : State),
    s.lan.refclk = true := by
  refine ⟨up, ?_⟩
  decide +kernel

theorem test_meets_CheckpointsActed_8 : ∃ (s : State) (c : Cut) (reason : Nat),
    s.lan.refclk = true ∧
    s.ckpt.cuts.find? (fun c => if reason = 0 then drainFailed s c else if reason = 1 then s.std.buddy != some c.buddy else reason == 2 && c.refused) = some c := by
  refine ⟨up.ckptM fun k => { k with cuts := [{ frame := 1, tick := 0, refused := true }] }, { frame := 1, tick := 0, refused := true }, 2, ?_⟩
  decide +kernel

theorem test_meets_CheckpointsActed_9 : ∃ (s : State) (stack : Nat) (q : CopyReq) (qs : List CopyReq),
    s.lan.refclk = true ∧
    stack < 8 ∧
    s.hbc.length = 8 ∧
    (s.hbc.getD stack {}).copyQ = q :: qs ∧
    (s.hbc.getD stack {}).copyEn = true ∧
    (s.hbc.getD stack {}).mode = .ready := by
  refine ⟨{ up with hbc := (up.hbc.set 7 { mode := .ready, copyQ := [{ frame := 1, slot := 0, cut := 1, owner := 1, vpn := 0 }] }) }, 7, { frame := 1, slot := 0, cut := 1, owner := 1, vpn := 0 }, [], ?_⟩
  decide +kernel

theorem test_meets_CheckpointsActed_10 : ∃ (s : State) (id : Nat) (params select resume replay : List Byte) (peer : List (Nat × Nat × List Byte × List Nat)),
    admitted s id 0x51 = true ∧
    (restoreOperands (cmdOf s id) params = false ∨ (cmdOf s id).fld 24 2 ≠ s.std.epoch) := by
  refine ⟨asked up 0x51 [(8, 8, 3)], 5, [], [], [], [], [], ?_⟩
  decide +kernel

/-- The operands of a RESTORE from this device's T2. -/
def fromT2 : List Byte := blank 128 [(3, 1, 0x10), (4, 1, 0xFF), (6, 1, 1)]

theorem test_meets_CheckpointsActed_11 : ∃ (s : State) (id : Nat) (params select resume replay : List Byte) (peer : List (Nat × Nat × List Byte × List Nat)) (x : View),
    admitted s id 0x51 = true ∧
    restoreOperands (cmdOf s id) params = true ∧
    (cmdOf s id).fld 24 2 = s.std.epoch ∧
    sourceView (begun s id) (fieldAt params 3 1) (peerView peer) = some x ∧
    pickBoot x (cmdOf s id).handle (fieldAt params 0 3) = none := by
  refine ⟨asked up 0x51 [(8, 8, 3)], 5, fromT2, [], [], [], [], [], ?_⟩
  decide +kernel

theorem test_meets_CheckpointsActed_12 : ∃ (s : State) (id : Nat) (params select resume replay : List Byte) (peer : List (Nat × Nat × List Byte × List Nat)) (x : View) (boot : Nat),
    admitted s id 0x51 = true ∧
    restoreOperands (cmdOf s id) params = true ∧
    (cmdOf s id).fld 24 2 = s.std.epoch ∧
    sourceView (begun s id) (fieldAt params 3 1) (peerView peer) = some x ∧
    pickBoot x (cmdOf s id).handle (fieldAt params 0 3) = some boot ∧
    bestManifest (begun s id) x (cmdOf s id).handle boot (fieldAt params 3 1) (fieldAt params 4 1) = none := by
  refine ⟨stored (asked up 0x51 [(8, 8, 3)]), 5, fromT2, [], [], [], [], [(7, man1)], 9, ?_⟩
  decide +kernel

theorem shaBlocks_length (n : Nat) : ∀ hs bs, hs.length = 8 → (shaBlocks sha256Kind n hs bs).length = 8 := by
  induction n with
  | zero => exact fun hs bs h => h
  | succ n ih =>
    intro hs bs h
    refine ih _ _ ?_
    unfold shaBlock
    simp [h]
theorem sha256_length (m : List Byte) : (sha256 m).length = 32 := by
  have h : ∀ l : List Nat, ((l.map (natBe 4)).flatten).length = 4 * l.length := by
    intro l
    induction l with
    | nil => rfl
    | cons a l ih =>
      have ha : (natBe 4 a).length = 4 := rfl
      rw [List.map_cons, List.flatten_cons, List.length_append, ih, ha, List.length_cons]; omega
  unfold sha256 shaDigest
  rw [h, shaBlocks_length _ _ _ rfl]
theorem bytesAt_of (b x : List Byte) (o n : Nat) (h : ∃ r, b.drop o = x ++ r) (hn : x.length = n) : bytesAt b o n = x := by
  obtain ⟨r, h⟩ := h
  unfold bytesAt
  simp [h, ← hn]
theorem fieldAt_of (b x : List Byte) (o i n : Nat) (h : ∃ r, b.drop o = x ++ r) (hn : i + n ≤ x.length) : fieldAt b (o + i) n = fieldAt x i n := by
  obtain ⟨r, h⟩ := h
  unfold fieldAt
  rw [← List.drop_drop, h, List.drop_append_of_le_length (by omega), List.take_append_of_le_length (by rw [List.length_drop]; omega)]
theorem zeroAt_of (b x : List Byte) (o i n : Nat) (h : ∃ r, b.drop o = x ++ r) (hn : i + n ≤ x.length) : zeroAt b (o + i) n = zeroAt x i n := by
  obtain ⟨r, h⟩ := h
  unfold zeroAt
  rw [← List.drop_drop, h, List.drop_append_of_le_length (by omega), List.take_append_of_le_length (by rw [List.length_drop]; omega)]
theorem drop_next (b x r : List Byte) (o n : Nat) (h : b.drop o = x ++ r) (hn : x.length = n) : b.drop (o + n) = r := by
  rw [← List.drop_drop, h, List.drop_left' hn]
theorem zeros_length (n : Nat) : (zeros n).length = n := List.length_replicate
theorem zeroAt_zeros (n i k : Nat) : zeroAt (zeros n) i k = true := by
  unfold zeroAt zeros
  simp
/-- An index unit whose entry 0 is a locket in T3 (kind 3), the body entry that names it, and the manifest of that one entry. -/
def indexUnit : List Byte := blank 64 [(0, 1, 3), (8, 8, 7)] ++ zeros 4032
def bodyHead : List Byte := zeros 8 ++ natLe 8 1
def bodyEntry : List Byte := bodyHead ++ (sha256 indexUnit ++ zeros 16)
def manifest1 : List Byte := zeros 4096 ++ bodyEntry
/-- The index entry, the store, and the request. -/
def entry3 : IndexEnt := { handle := 0, kind := 3, state := 0, tenant := 0, units := 0, session := 7, cut := 0, off := 0, digest := 0 }
def view1 : View := [(7, { kind := .shard, owner := 1, data := indexUnit })]
def request1 : RestoreReq := { view := view1, man := manifest1, select := [], selectAll := true, partK := 0, partN := 1, resume := [], log := [] }
def restore1 : RestoreRun := { cmd := 5, source := 0x10, report := 64, req := request1 }
def restoring : State := (asked up 0x51 [(8, 8, 3)]).ckptM fun k => { k with restores := [restore1] }
theorem indexUnit_length : indexUnit.length = 4096 := by
  unfold indexUnit; rw [List.length_append, zeros_length]; decide +kernel
theorem bodyEntry_length : bodyEntry.length = 64 := by
  unfold bodyEntry; rw [List.length_append, List.length_append, sha256_length, zeros_length]; decide +kernel
theorem bodyEntry_zero : zeroAt bodyEntry 0 64 = false := by
  unfold zeroAt
  rw [List.drop_zero, List.take_of_length_le (Nat.le_of_eq bodyEntry_length)]
  unfold bodyEntry
  rw [List.all_append]
  rfl
theorem bodyEntries_manifest1 : bodyEntries manifest1 = [(0, 0, 1, beNat (sha256 indexUnit))] := by
  have hd : manifest1.drop 4096 = bodyEntry ++ [] := by
    rw [List.append_nil]; exact List.drop_left' (zeros_length 4096)
  have hl : (manifest1.length - 4096) / 64 = 1 := by
    unfold manifest1; rw [List.length_append, zeros_length, bodyEntry_length]
  have hb : bytesAt manifest1 (4096 + 64 * 0) 64 = bodyEntry := bytesAt_of _ _ 4096 64 ⟨_, hd⟩ bodyEntry_length
  have h0 : bodyEntry.drop 0 = bodyHead ++ (sha256 indexUnit ++ zeros 16) := rfl
  have f0 : fieldAt bodyEntry 0 4 = 0 := (fieldAt_of _ _ 0 0 4 ⟨_, h0⟩ (by decide +kernel)).trans (by decide +kernel)
  have f4 : fieldAt bodyEntry 4 4 = 0 := (fieldAt_of _ _ 0 4 4 ⟨_, h0⟩ (by decide +kernel)).trans (by decide +kernel)
  have f8 : fieldAt bodyEntry 8 8 = 1 := (fieldAt_of _ _ 0 8 8 ⟨_, h0⟩ (by decide +kernel)).trans (by decide +kernel)
  have h16 : bodyEntry.drop (0 + 16) = sha256 indexUnit ++ zeros 16 := drop_next _ _ _ 0 16 h0 (by decide +kernel)
  have f16 : bytesAt bodyEntry 16 32 = sha256 indexUnit := bytesAt_of _ _ 16 32 ⟨_, h16⟩ (sha256_length _)
  unfold bodyEntries
  rw [hl]
  show List.filterMap _ [bytesAt manifest1 (4096 + 64 * 0) 64] = _
  rw [hb]
  simp only [List.filterMap_cons, List.filterMap_nil, bodyEntry_zero, f0, f4, f8, f16, Bool.false_eq_true, if_false]
theorem indexUnit_entries : ((List.range 64).map (fun i => readIndex (64 * 0 + i) (bytesAt indexUnit (64 * i) 64))).filter (fun e => e.kind != 0) = [entry3] := by
  decide +kernel
theorem cutExt_view1 : cutExt view1 1 = some (7, { kind := .shard, owner := 1, data := indexUnit }) := rfl
theorem viewUnits_view1 : viewUnits view1 1 0 1 = some indexUnit := by
  unfold viewUnits
  rw [cutExt_view1, Option.bind_some]
  dsimp only
  rw [indexUnit_length, if_pos (by decide)]
  exact congrArg some (bytesAt_of _ _ 0 4096 ⟨[], by rw [List.append_nil]; rfl⟩ indexUnit_length)
theorem manifestIndex_of (v : View) (m u : List Byte) (es : List IndexEnt) (hb : bodyEntries m = [(0, 0, 1, beNat (sha256 u))]) (hu : viewUnits v 1 0 1 = some u)
    (he : ((List.range 64).map (fun i => readIndex (64 * 0 + i) (bytesAt u (64 * i) 64))).filter (fun e => e.kind != 0) = es) : manifestIndex v m = some es := by
  unfold manifestIndex
  rw [hb]
  simp only [List.foldl_cons, List.foldl_nil, Option.bind_some, hu, bne_self_eq_false, Bool.false_eq_true, if_false, List.nil_append, he]
theorem manifestIndex_request1 : manifestIndex view1 manifest1 = some [entry3] := manifestIndex_of _ _ _ _ bodyEntries_manifest1 viewUnits_view1 indexUnit_entries
theorem restoreOrder_request1 : restoreOrder request1 [entry3] = [entry3] := rfl
theorem restoreCharms_request1 (s : State) : restoreCharms s request1 [entry3] = s := rfl
theorem restoreAll_request1 (s : State) : ∃ u rep n ok, rep ≠ [] ∧ restoreAll request1 s [entry3] = some (u, rep, n, ok) :=
  ⟨_, reportEntry none 7 stPending 0xFF 0xFFFF 0 0 0 0 false, _, _, by decide +kernel, rfl⟩
/-- The control record of cut 1: a full record without entries. -/
def controlRec : List Byte := blank 128 [(0, 8, leNat (ascii "CL9SHARD")), (8, 2, 1), (10, 2, 0x0102)] ++ zeros 3968
/-- The cut key and the parts of a manifest of cut 1 of origin 3 with boot nonce 9, whose index is empty. -/
def cutKey1 : List Byte := zeros 32
def manA : List Byte := blank 12 [(0, 8, leNat (ascii "CL9MANIF")), (8, 2, 1)]
def manB : List Byte := blank 48 [(0, 8, 3), (8, 8, 1), (18, 3, 9)]
def manC : List Byte := blank 16 [(0, 8, 1), (12, 4, 1)]
def manP : List Byte := manA ++ (natLe 4 (keyFp cutKey1) ++ (manB ++ (sha256 controlRec ++ (manC ++ (sha256 [] ++ zeros 80)))))
def manifest2 : List Byte := manP ++ (hmac256 cutKey1 (manP ++ zeros 32 ++ zeros 3840) ++ zeros 3840)
def man2 : Extent := { kind := .manifest, ckpt := true, sealed := true, data := manifest2 }
def view2 : View := [(7, man2), (9 * 2 ^ 40, { kind := .shard, ckpt := true, sealed := true, owner := 1, data := controlRec })]
/-- A device that has taken a RESTORE, with the cut key and the manifest in T2. -/
def restoreCmd : State := { (asked up 0x51 [(8, 8, 3)]).ckptM fun k => { k with cutKey := some cutKey1 } with extents := view2 }
theorem controlRec_length : controlRec.length = 4096 := by
  unfold controlRec; rw [List.length_append, zeros_length]; decide +kernel
theorem manP_length : manP.length = 224 := by
  unfold manP; simp only [List.length_append, sha256_length, zeros_length]; decide +kernel
theorem hmac256_length (k m : List Byte) : (hmac256 k m).length = 32 := sha256_length _
theorem manifest2_length : manifest2.length = 4096 := by
  unfold manifest2; simp only [List.length_append, manP_length, hmac256_length, zeros_length]
theorem dseg (x r : List Byte) (o : Nat) (h : manP.drop o = x ++ r) (ho : o ≤ 224) :
    manifest2.drop o = x ++ (r ++ (hmac256 cutKey1 (manP ++ zeros 32 ++ zeros 3840) ++ zeros 3840)) := by
  unfold manifest2
  rw [List.drop_append_of_le_length (by rw [manP_length]; exact ho), h, List.append_assoc]
theorem p0 : manP.drop 0 = manA ++ (natLe 4 (keyFp cutKey1) ++ (manB ++ (sha256 controlRec ++ (manC ++ (sha256 [] ++ zeros 80))))) := rfl
theorem p12 : manP.drop (0 + 12) = natLe 4 (keyFp cutKey1) ++ (manB ++ (sha256 controlRec ++ (manC ++ (sha256 [] ++ zeros 80)))) := drop_next _ _ _ 0 12 p0 (by decide +kernel)
theorem p16 : manP.drop (12 + 4) = manB ++ (sha256 controlRec ++ (manC ++ (sha256 [] ++ zeros 80))) := drop_next _ _ _ 12 4 p12 rfl
theorem p64 : manP.drop (16 + 48) = sha256 controlRec ++ (manC ++ (sha256 [] ++ zeros 80)) := drop_next _ _ _ 16 48 p16 (by decide +kernel)
theorem p96 : manP.drop (64 + 32) = manC ++ (sha256 [] ++ zeros 80) := drop_next _ _ _ 64 32 p64 (sha256_length _)
theorem p112 : manP.drop (96 + 16) = sha256 [] ++ zeros 80 := drop_next _ _ _ 96 16 p96 (by decide +kernel)
theorem p144 : manP.drop (112 + 32) = zeros 80 ++ [] := by rw [List.append_nil]; exact drop_next _ _ _ 112 32 p112 (sha256_length _)
theorem m0 : ∃ r, manifest2.drop 0 = manA ++ r := ⟨_, dseg _ _ 0 p0 (by decide)⟩
theorem m12 : ∃ r, manifest2.drop 12 = natLe 4 (keyFp cutKey1) ++ r := ⟨_, dseg _ _ 12 p12 (by decide)⟩
theorem m16 : ∃ r, manifest2.drop 16 = manB ++ r := ⟨_, dseg _ _ 16 p16 (by decide)⟩
theorem m64 : ∃ r, manifest2.drop 64 = sha256 controlRec ++ r := ⟨_, dseg _ _ 64 p64 (by decide)⟩
theorem m96 : ∃ r, manifest2.drop 96 = manC ++ r := ⟨_, dseg _ _ 96 p96 (by decide)⟩
theorem m112 : ∃ r, manifest2.drop 112 = sha256 [] ++ r := ⟨_, dseg _ _ 112 p112 (by decide)⟩
theorem m144 : ∃ r, manifest2.drop 144 = zeros 80 ++ r := ⟨_, dseg _ _ 144 p144 (by decide)⟩
theorem m224 : manifest2.drop 224 = hmac256 cutKey1 (manP ++ zeros 32 ++ zeros 3840) ++ zeros 3840 := List.drop_left' manP_length
theorem m256 : manifest2.drop (224 + 32) = zeros 3840 ++ [] := by rw [List.append_nil]; exact drop_next _ _ _ 224 32 m224 (hmac256_length _ _)
theorem m4096 : manifest2.drop 4096 = [] := List.drop_of_length_le (Nat.le_of_eq manifest2_length)
theorem keyFp_lt (k : List Byte) : keyFp k < 2 ^ 32 := by
  unfold keyFp
  have h : ∀ l : List Byte, leNat l < 256 ^ l.length := by
    intro l
    induction l with
    | nil => decide
    | cons b l ih =>
      have hb := b.isLt
      show b.toNat + 256 * leNat l < 256 ^ (l.length + 1)
      rw [Nat.pow_succ]; omega
  have := h ((sha256 k).take 4)
  rw [List.length_take, sha256_length] at this
  exact this
theorem cutExt_view2 : cutExt view2 1 = some (9 * 2 ^ 40, { kind := .shard, ckpt := true, sealed := true, owner := 1, data := controlRec }) := rfl
theorem viewUnits_view2 : viewUnits view2 1 0 1 = some controlRec := by
  unfold viewUnits
  rw [cutExt_view2, Option.bind_some]
  dsimp only
  rw [controlRec_length, if_pos (by decide)]
  exact congrArg some (bytesAt_of _ _ 0 4096 ⟨[], by rw [List.append_nil]; rfl⟩ controlRec_length)
theorem shardOk_controlRec : shardOk controlRec = true := by
  unfold shardOk
  rw [controlRec_length]
  decide +kernel
theorem controlChain_manifest2 : controlChain view2 manifest2 = some [controlRec] := by
  have f96 : fieldAt manifest2 96 8 = 1 := (fieldAt_of _ _ 96 0 8 m96 (by decide +kernel)).trans (by decide +kernel)
  have f104 : fieldAt manifest2 104 4 = 0 := (fieldAt_of _ _ 96 8 4 m96 (by decide +kernel)).trans (by decide +kernel)
  have f108 : fieldAt manifest2 108 4 = 1 := (fieldAt_of _ _ 96 12 4 m96 (by decide +kernel)).trans (by decide +kernel)
  have f64 : bytesAt manifest2 64 32 = sha256 controlRec := bytesAt_of _ _ 64 32 m64 (sha256_length _)
  unfold controlChain
  rw [f96, f104, f108, f64]
  unfold shardChain
  rw [viewUnits_view2]
  simp only [bne_self_eq_false, shardOk_controlRec, Bool.not_true, Bool.or_self, Bool.false_eq_true, if_false]
  exact if_pos (by decide +kernel)
theorem bodyEntries_manifest2 : bodyEntries manifest2 = [] := by
  unfold bodyEntries
  rw [manifest2_length]
  rfl
theorem manifestIndex_manifest2 : manifestIndex view2 manifest2 = some [] := by
  unfold manifestIndex
  rw [bodyEntries_manifest2]
  rfl
theorem manifestValid_manifest2 (s : State) (h : s.ckpt.cutKey = some cutKey1) : manifestValid s view2 manifest2 = true := by
  have a0 : manifest2.take 8 = ascii "CL9MANIF" := by
    obtain ⟨r, hr⟩ := m0
    rw [List.drop_zero] at hr
    rw [hr, List.take_append_of_le_length (by decide +kernel)]; decide +kernel
  have a8 : fieldAt manifest2 8 2 = 1 := (fieldAt_of _ _ 0 8 2 m0 (by decide +kernel)).trans (by decide +kernel)
  have a10 : fieldAt manifest2 10 1 = 0 := (fieldAt_of _ _ 0 10 1 m0 (by decide +kernel)).trans (by decide +kernel)
  have a11 : fieldAt manifest2 11 1 = 0 := (fieldAt_of _ _ 0 11 1 m0 (by decide +kernel)).trans (by decide +kernel)
  have a12 : fieldAt manifest2 12 4 = keyFp cutKey1 := (fieldAt_of _ _ 12 0 4 m12 (Nat.le_refl 4)).trans (by
    show leNat (natLe 4 (keyFp cutKey1)) = _
    exact leNat_natLe_four _ (keyFp_lt _))
  have a37 : zeroAt manifest2 37 3 = true := (zeroAt_of _ _ 16 21 3 m16 (by decide +kernel)).trans (by decide +kernel)
  have a40 : fieldAt manifest2 40 4 = 0 := (fieldAt_of _ _ 16 24 4 m16 (by decide +kernel)).trans (by decide +kernel)
  have a44 : zeroAt manifest2 44 4 = true := (zeroAt_of _ _ 16 28 4 m16 (by decide +kernel)).trans (by decide +kernel)
  have a112 : bytesAt manifest2 112 32 = sha256 [] := bytesAt_of _ _ 112 32 m112 (sha256_length _)
  have a144 : zeroAt manifest2 144 80 = true := (zeroAt_of _ _ 144 0 80 m144 (by decide +kernel)).trans (zeroAt_zeros _ _ _)
  have a1024 : zeroAt manifest2 1024 3072 = true := (zeroAt_of _ _ 256 768 3072 ⟨_, m256⟩ (Nat.le_trans (by decide : 768 + 3072 ≤ 3840) (Nat.le_of_eq (zeros_length _).symm))).trans (zeroAt_zeros _ _ _)
  have a256 : (List.range 16).all (fun i => zeroAt manifest2 (256 + 48 * i + 33) 15) = true := by
    rw [List.all_eq_true]
    intro i hi
    have hi := List.mem_range.mp hi
    rw [Nat.add_assoc]
    exact (zeroAt_of _ _ 256 (48 * i + 33) 15 ⟨_, m256⟩ (by rw [zeros_length]; omega)).trans (zeroAt_zeros _ _ _)
  have a224 : bytesAt manifest2 224 32 = hmac256 cutKey1 (manP ++ zeros 32 ++ zeros 3840) := bytesAt_of _ _ 224 32 ⟨_, m224⟩ (hmac256_length _ _)
  have at224 : manifest2.take 224 = manP := List.take_left' manP_length
  have at256 : (manifest2.drop 256).take 3840 = zeros 3840 := by
    rw [show (256 : Nat) = 224 + 32 from rfl, m256, List.append_nil, List.take_of_length_le (Nat.le_of_eq (zeros_length _))]
  unfold manifestValid
  rw [a0, a8, a10, a11, a12, a37, a40, a44, a112, a144, a1024, a256, a224, at224, at256, h, manifest2_length, m4096, controlChain_manifest2, manifestIndex_manifest2]
  simp
theorem manOrigin_man2 : manOrigin man2 = 3 := (fieldAt_of _ _ 16 0 8 m16 (by decide +kernel)).trans (by decide +kernel)
theorem manBoot_man2 : manBoot man2 = 9 := (fieldAt_of _ _ 16 18 3 m16 (by decide +kernel)).trans (by decide +kernel)
theorem manifestsOf_view2 : manifestsOf view2 3 = [(7, man2)] := by
  unfold manifestsOf view2
  have h : (man2.kind == .manifest && manOrigin man2 == 3) = true := by rw [manOrigin_man2]; rfl
  rw [List.filter_cons, if_pos h]
  rfl
theorem bootsOf_view2 : bootsOf view2 3 = [9] := by
  unfold bootsOf
  rw [manifestsOf_view2, List.map_cons, manBoot_man2]; rfl
theorem storeManifests_view2 : storeManifests view2 3 9 = [(7, man2)] := by
  unfold storeManifests
  rw [manifestsOf_view2, List.filter_cons, if_pos (by rw [manBoot_man2]; rfl)]; rfl
theorem storeExts_view2 : storeExts view2 3 9 = view2 := by
  unfold storeExts view2
  have h : (if man2.kind == .manifest then manOrigin man2 == 3 && manBoot man2 == 9 else bootOf 7 == 9) = true := by
    rw [manOrigin_man2, manBoot_man2]; rfl
  rw [List.filter_cons, if_pos h]
  rfl

theorem test_meets_CheckpointsActed_13 : ∃ (s : State) (id : Nat) (params select resume replay : List Byte) (peer : List (Nat × Nat × List Byte × List Nat)) (x : View) (boot : Nat) (m : Nat × Extent),
    admitted s id 0x51 = true ∧
    restoreOperands (cmdOf s id) params = true ∧
    (cmdOf s id).fld 24 2 = s.std.epoch ∧
    sourceView (begun s id) (fieldAt params 3 1) (peerView peer) = some x ∧
    pickBoot x (cmdOf s id).handle (fieldAt params 0 3) = some boot ∧
    bestManifest (begun s id) x (cmdOf s id).handle boot (fieldAt params 3 1) (fieldAt params 4 1) = some m := by
  have f0 : fieldAt fromT2 0 3 = 0 := by decide +kernel
  have f3 : fieldAt fromT2 3 1 = 16 := by decide +kernel
  have f4 : fieldAt fromT2 4 1 = 255 := by decide +kernel
  have hh : (cmdOf restoreCmd 5).handle = 3 := by decide +kernel
  have hk : (begun restoreCmd 5).ckpt.cutKey = some cutKey1 := rfl
  refine ⟨restoreCmd, 5, fromT2, [], [], [], [], view2, 9, (7, man2), by decide +kernel, by decide +kernel, by decide +kernel, ?_, ?_, ?_⟩
  · rw [f3]; rfl
  · rw [f0, hh]
    unfold pickBoot newerBoot
    rw [bootsOf_view2]; rfl
  · unfold bestManifest
    rw [f3, f4, hh, storeManifests_view2, storeExts_view2, List.filter_cons, if_pos (by
      rw [show (7, man2).2.data = manifest2 from rfl, manifestValid_manifest2 _ hk]; rfl)]
    rfl

theorem test_meets_CheckpointsActed_14 : ∃ (s : State) (r : RestoreRun) (c : HCmd) (u : State) (rep : List Byte) (n : Nat) (ok : Bool) (st : Nat),
    (st = 0 ∨ st = 4) ∧
    s.ckpt.restores.find? (fun x => x.cmd == r.cmd) = some r ∧
    findCmd s r.cmd = some c ∧
    sourceHere s r.source = true ∧
    (allDescs s).any (fun d => d.purpose == .restore r.cmd) = false ∧
    c.flag 4 = false ∧
    rep ≠ [] ∧
    let q := r.req
    let es := restoreOrder q ((manifestIndex q.view q.man).getD [])
    restoreAll q (restoreCharms (dropRestore s r.cmd) q es) es = some (u, rep, n, ok) := by
  obtain ⟨u, rep, n, ok, hr, h⟩ := restoreAll_request1 (dropRestore restoring 5)
  refine ⟨restoring, restore1, cmdOf restoring 5, u, rep, n, ok, 4, .inr rfl, rfl, rfl, rfl, rfl, rfl, hr, ?_⟩
  show restoreAll request1 (restoreCharms (dropRestore restoring 5) request1 (restoreOrder request1 ((manifestIndex view1 manifest1).getD []))) (restoreOrder request1 ((manifestIndex view1 manifest1).getD [])) = _
  rw [manifestIndex_request1, Option.getD_some, restoreOrder_request1, restoreCharms_request1, h]

/-- A device whose Courier holds one descriptor, on channel 8. -/
def moving (d : Desc) : State := up.curM fun c => { c with channels := [(8, d)] }
def selectDesc : Desc := { cookie := 3, purpose := .select 5 }

theorem test_meets_CourierActed_1 : ∃ (s u : State) (f k : Nat) (d : Desc) (errors : List (Nat × Nat)),
    (∀ e ∈ errors, e.1 < 256 ∧ e.2 < 2 ^ 144) ∧
    s.cur.enable = true ∧
    serving s = true ∧
    wfqSelect s 0 (((sendable s).map (·.2)).eraseDups) (courierSlot s) = (u, some f) ∧
    nextChannel s f (((sendable s).filter (fun e => e.2 == f)).map (·.1)) = some k ∧
    s.cur.channels.get? k = some d := by
  refine ⟨moving selectDesc, (wfqSelect (moving selectDesc) 0 [0] false).1, 0, 8, selectDesc, [(255, 2 ^ 144 - 1)], ?_⟩
  decide +kernel

theorem test_meets_CourierActed_2 : ∃ (s : State) (cookie status k : Nat) (d : Desc),
    s.lan.refclk = true ∧
    channelOf s cookie = some (k, d) ∧
    mayEnd s d status = true ∧
    ((∃ id, d.purpose = .select id) ∨ (∃ h, d.purpose = .promote h) ∨ (∃ h, d.purpose = .facet h) ∨ (∃ x, d.purpose = .parure x)) := by
  exact ⟨moving { selectDesc with sent := 1 }, 3, 0, 8, { selectDesc with sent := 1 }, by decide +kernel, by decide +kernel, by decide +kernel, .inl ⟨5, rfl⟩⟩

def putDesc : Desc := { cookie := 3, op := 7, sent := 1, purpose := .put 5 }

theorem test_meets_CourierActed_3 : ∃ (s : State) (cookie k : Nat) (d : Desc) (id : Nat) (p : PutBuf) (c : HCmd),
    s.lan.refclk = true ∧
    channelOf s cookie = some (k, d) ∧
    mayEnd s d 0 = true ∧
    d.op = 7 ∧
    d.purpose = .put id ∧
    s.cur.puts.find? (fun q => q.cmd == id) = some p ∧
    findCmd s id = some c ∧
    completed s id = false := by
  refine ⟨(asked (moving putDesc) 0x60 []).curM fun c => { c with puts := [{ cmd := 5, addr := 64, data := [] }] }, 3, 8, putDesc, 5, { cmd := 5, addr := 64, data := [] }, cmdOf (asked (moving putDesc) 0x60 []) 5, ?_⟩
  decide +kernel

def demoteDesc : Desc := { cookie := 3, op := 2, tier := 2, abandonable := true, purpose := .demote 1 }

theorem test_meets_CourierActed_4 : ∃ (s : State) (cookie : Nat) (d : Desc) (h : Nat) (l : Locket) (m : TierMove),
    s.lan.refclk = true ∧
    (∀ e ∈ allDescs s, e.purpose = .demote h → e.abandonable = true) ∧
    (allDescs s).find? (fun d => d.cookie == cookie) = some d ∧
    d.purpose = .demote h ∧
    d.abandonable = true ∧
    (d.tier ≠ 3 ∨ (s.bay d.bay).mode = .mounted) ∧
    s.lockets.get? h = some l ∧
    l.state = .demoting ∧
    l.move = some m := by
  refine ⟨{ moving demoteDesc with lockets := [(1, { state := .demoting, move := some {} })] }, 3, demoteDesc, 1, { state := .demoting, move := some {} }, {}, ?_⟩
  decide +kernel

theorem test_meets_CellsAndMapActed_1 : ∃ (s : State),
    fwRuns s = true ∧
    s.lpe.mode = .idle := by
  refine ⟨up.lpeM fun l => { l with mode := .idle }, ?_⟩
  decide +kernel

theorem test_meets_CellsAndMapActed_2 : ∃ (s : State) (results : List (Bool × Bool × Bool)),
    s.lan.refclk = true ∧
    results.length = 144 ∧
    s.lpe.mode = .bist := by
  refine ⟨up.lpeM fun l => { l with mode := .bist }, List.replicate 144 (true, true, true), ?_⟩
  decide +kernel

theorem test_meets_CellsAndMapActed_3 : ∃ (s : State) (pass : List Bool),
    pass.length = 144 ∧
    s.lpe.patrolEn = true ∧
    s.lpe.mode = .ready ∧
    s.lan.power = .active ∧
    s.ory.enable = true := by
  refine ⟨up, List.replicate 144 true, ?_⟩
  decide +kernel

theorem test_meets_CellsAndMapActed_4 : ∃ (s : State) (cell : _) (epoch : _),
    s.lan.refclk = true ∧
    cell < 144 ∧
    (s.cell cell).state ≠ .retired ∧
    (s.cell cell).state ≠ .failed ∧
    epoch ≠ s.lpe.epoch := by
  refine ⟨up, 143, 0, ?_⟩
  decide +kernel

theorem test_meets_CellsAndMapActed_5 : ∃ (s : State) (cell : _) (epoch : _),
    s.lan.refclk = true ∧
    cell < 144 ∧
    epoch = s.lpe.epoch := by
  refine ⟨up, 143, 1, ?_⟩
  decide +kernel

/-- A device whose cells are fenced for a change of their map. -/
def fencedFor (m : MapChange) : State := up.integM fun i => { i with mode := .fence, change := some m }

theorem test_meets_CellsAndMapActed_6 : ∃ (s : State) (l p : Nat) (lost : List Nat),
    s.lan.refclk = true ∧
    (∀ n ∈ lost, n < 32768) ∧
    s.integ.mode = .fence ∧
    s.integ.change = some (.substitute l) ∧
    lowestSpare s (l / 16) = some p ∧
    l < s.lpe.map.length := by
  refine ⟨fencedFor (.substitute 127), 127, 126, [0, 32767], ?_⟩
  decide +kernel

theorem test_meets_CellsAndMapActed_7 : ∃ (s : State) (l p : Nat) (lost : List Nat),
    s.lan.refclk = true ∧
    (∀ n ∈ lost, n < 32768) ∧
    s.integ.mode = .fence ∧
    s.integ.change = some (.planned l) ∧
    lowestSpare s (l / 16) = some p := by
  refine ⟨fencedFor (.planned 127), 127, 126, [32767], ?_⟩
  decide +kernel

theorem test_meets_CellsAndMapActed_8 : ∃ (s : State) (p : _) (l : _),
    s.lan.refclk = true ∧
    s.integ.planned = some p ∧
    s.eph.holder = .none ∧
    s.ory.prog = none ∧
    s.integ.mode = .normal ∧
    s.lpe.mode = .ready ∧
    logicalOf s p = some l ∧
    2 ≤ sparesIn s (l / 16) := by
  refine ⟨up.integM fun i => { i with planned := some 0 }, 0, 0, ?_⟩
  decide +kernel

/-- A device whose oldest tile is a compute tile, with a cell under repeat. -/
def tiling (r : Repeat) : State := (upPar.oryM fun y => { y with mode := .run, prog := some { inFlight := [firstTile] } }).integM fun i => { i with rep := r, attempt := 2 }

theorem test_meets_CellsAndMapActed_9 : ∃ (s : State) (lane : Nat) (errs : List BlockError) (twins : List (Nat × W32 × W32)) (parity : List Nat) (p : Progress) (img : List Byte) (pr : Prog) (ps : List PosEntry) (t0 : TileRef) (cells : List Nat) (row col twin : Bool),
    lane < 2 ∧
    (∀ e ∈ errs, e.cell < 128) ∧
    (∀ e ∈ twins, e.1 < 128) ∧
    (∀ c ∈ parity, c < 128) ∧
    running s = some (p, img, pr, ps) ∧
    oldestIn p lane = some t0 ∧
    failingCells s ps (tileIn p (s.parures.getD p.slot {}).hash img ps pr t0) errs twins parity = (cells, row, col, twin) ∧
    cells ≠ [] ∧
    s.ory.abftEn = true ∧
    s.lan.refclk = true ∧
    s.integ.mode ≠ .fence ∧
    s.integ.mode ≠ .deviceFault ∧
    s.ory.mode ≠ .fault ∧
    (s.ory.failing = none ∨ s.ory.failing = some t0) ∧
    s.integ.rep = .clean := by
  refine ⟨tiling .clean, 0, [], [(3, 1, 2)], [127], { inFlight := [firstTile] }, img, programOf img 1, [], firstTile, [3, 127], false, false, true, ?_⟩
  decide +kernel

theorem test_meets_CellsAndMapActed_10 : ∃ (s : State) (lane : Nat) (errs : List BlockError) (twins : List (Nat × W32 × W32)) (parity : List Nat) (p : Progress) (img : List Byte) (pr : Prog) (ps : List PosEntry) (t0 : TileRef) (cells : List Nat) (row col twin : Bool) (l q : Nat),
    lane < 2 ∧
    (∀ e ∈ errs, e.cell < 128) ∧
    (∀ e ∈ twins, e.1 < 128) ∧
    (∀ c ∈ parity, c < 128) ∧
    running s = some (p, img, pr, ps) ∧
    oldestIn p lane = some t0 ∧
    failingCells s ps (tileIn p (s.parures.getD p.slot {}).hash img ps pr t0) errs twins parity = (cells, row, col, twin) ∧
    s.ory.abftEn = true ∧
    s.lan.refclk = true ∧
    s.integ.mode ≠ .fence ∧
    s.integ.mode ≠ .deviceFault ∧
    s.ory.mode ≠ .fault ∧
    (s.ory.failing = none ∨ s.ory.failing = some t0) ∧
    s.integ.rep = .retry l ∧
    s.integ.attempt < 6 ∧
    l ∈ cells ∧
    lowestSpare s (l / 16) = some q := by
  refine ⟨tiling (.retry 3), 0, [], [], [3], { inFlight := [firstTile] }, img, programOf img 1, [], firstTile, [3], false, false, true, 3, 0, ?_⟩
  decide +kernel

/-- A device with a program on its Orrery. -/
def run (p : Progress) : State := upPar.oryM fun y => { y with mode := .run, prog := some p }

theorem test_meets_TilesAndSpillsActed_1 : ∃ (s : State) (p : Progress) (img : List Byte) (pr : Prog) (ps : List PosEntry) (u : TileRef),
    running s = some (p, img, pr, ps) ∧
    upcoming p = some u ∧
    mayIssue s = true ∧
    (∀ v ∈ p.inFlight, v.sweep = u.sweep) ∧
    (p.discarded.isEmpty && stopAsked s && (findCheap img ps pr u).isSome) = false := by
  refine ⟨run {}, {}, img, programOf img 1, [], firstTile, ?_⟩
  decide +kernel

theorem test_meets_TilesAndSpillsActed_2 : ∃ (sweep lane : Nat) (scratch window : List (Nat × Nat)) (s : State),
    lane < 2 ∧
    wordsOk (2 ^ 24) scratch = true ∧
    wordsOk (2 ^ 23) window = true := by
  refine ⟨0, 1, [(2 ^ 24 - 1, 1)], [(2 ^ 23 - 1, 2 ^ 144 - 1)], up, ?_⟩
  decide +kernel

theorem test_meets_TilesAndSpillsActed_3 : ∃ (s : State) (lane : Nat) (p : Progress) (img : List Byte) (pr : Prog) (ps : List PosEntry) (u : TileRef),
    lane < 2 ∧
    running s = some (p, img, pr, ps) ∧
    oldestIn p lane = some u ∧
    s.lan.refclk = true ∧
    s.ory.mode ≠ .fault ∧
    s.integ.mode ≠ .fence ∧
    imgTwoRate img = false ∧
    let x := tileIn p (s.parures.getD p.slot {}).hash img ps pr u
    let a := commitSums s ps x
    let w := retireTile (tilePassed (if endsChunk img ps pr u then commitChunk a img ps x (chunkLanes a img ps x) else a) u) u
    (x.sw.facet && u.kind == .epilogue) = false ∧
    parureLine s (s.parures.getD p.slot {}) img x = none ∧
    stopAsked w = false ∧
    (∀ e ∈ readers w, (e.2.recomputing && tarnishedRun w e.2.threadAddr (2 * e.2.base)) = false) := by
  refine ⟨run { inFlight := [firstTile] }, 0, { inFlight := [firstTile] }, img, programOf img 1, [], firstTile, ?_⟩
  decide +kernel

theorem test_meets_TilesAndSpillsActed_4 : ∃ (s : State) (p : Progress) (img : List Byte) (pr : Prog) (ps : List PosEntry) (half f : Nat),
    half < 2 ∧
    running s = some (p, img, pr, ps) ∧
    fillFor s p img pr ps half = some f ∧
    s.lan.refclk = true ∧
    orreryLost s = false ∧
    s.integ.mode ≠ .fence ∧
    s.ory.mode ≠ .spill := by
  refine ⟨run { refetch := [1] }, { refetch := [1] }, img, programOf img 1, [], 1, 1, ?_⟩
  decide +kernel

/-- An image whose STEP program is one ATTN sweep. -/
def attnImg : List Byte := blank 640 [(28, 2, 2), (256, 2, 1), (260, 4, 1), (264, 8, 512), (272, 8, 16), (288, 2, 2), (292, 4, 1), (296, 8, 576), (304, 8, 64), (512, 1, 1), (520, 4, 1), (576, 1, 2)]

theorem test_meets_TilesAndSpillsActed_5 : ∃ (s : State) (p : Progress) (img : List Byte) (pr : Prog) (ps : List PosEntry) (sw : Nat),
    running s = some (p, img, pr, ps) ∧
    s.ast.enable = true ∧
    s.lan.refclk = true ∧
    (sweepAt img sw).kind = 2 ∧
    p.kind ≠ 2 ∧
    pr.first ≤ sw ∧
    sw < pr.first + pr.count ∧
    p.next.sweep ≤ sw ∧
    sw ∉ p.gathered := by
  refine ⟨{ run {} with parures := [(0, { par with image := attnImg, header := attnImg.take 256 })] }, {}, attnImg, { kind := 1, first := 0, count := 1 }, [], 0, ?_⟩
  decide +kernel

theorem test_meets_TilesAndSpillsActed_6 : ∃ (s : State),
    fwRuns s = true ∧
    s.ory.enable = true ∧
    spillable s = true ∧
    s.ory.preempt = false := by
  refine ⟨(run {}).ephM fun e => { e with holder := .job 1 }, ?_⟩
  decide +kernel

theorem test_meets_TilesAndSpillsActed_7 : ∃ (s : State) (k : _),
    s.ory.preempt = true ∧
    spillable s = true ∧
    powered { s with eph := { s.eph with running := false } } = true ∧
    s.ory.mode ≠ .restore ∧
    standing s = some k ∧
    spillOver s k = false := by
  refine ⟨((run {}).oryM fun y => { y with prog := none, preempt := true }).ephM fun e => { e with holder := .job 1 }, 0, ?_⟩
  decide +kernel

theorem test_meets_TilesAndSpillsActed_8 : ∃ (s : State) (u : Suspended),
    heldSuspended s = some u ∧
    s.ory.mode = .restore ∧
    powered { s with eph := { s.eph with running := false } } = true ∧
    u.prog.kind = 1 ∧
    tarnishedRun s u.base (128 * u.size) = false := by
  refine ⟨((run {}).oryM fun y => { y with mode := .restore }).ephM fun e => { e with holder := .step 7, ctxs := [(7, { suspended := some { prog := {}, base := 4096, size := 1 } })] }, { prog := {}, base := 4096, size := 1 }, ?_⟩
  decide +kernel

/-- A device with a step record in context 7. -/
def stepping (st : StepRec) : State := upSess { state := .bound, context := 7 } |>.ephM fun e => { e with holder := .step 7, ctxs := [(7, { step := some st })] }
/-- The record of a context whose step is as given. -/
def inStep (st : StepRec) : Ctx := { step := some st }

theorem test_meets_StepsAndMovesActed_1 : ∃ (s : State) (c : Nat) (st : StepRec) (x : Ctx),
    s.lan.refclk = true ∧
    walkable s = some (c, st) ∧
    s.smp.enable = true ∧
    s.eph.ctxs.get? c = some x ∧
    x.step = some st := by
  refine ⟨stepping { rowsAt := some 0 }, 7, { rowsAt := some 0 }, inStep { rowsAt := some 0 }, ?_⟩
  decide +kernel

/-- A step with a draft tree of three nodes, and a device whose draft program has run. -/
def draftStep (d : Nat) : StepRec :=
  { draftLevel := some d, rows := [{ member := 0, active := true, gen := true, held := false, nIn := 1, width := 3, base := 0, gbase := 0, handle := 1 }]
    trees := [(0, { masks := [1, 3, 7], parents := [0, 0, 1], symbols := [65, 66, 67], states := [none, none, none], open_ := [1, 2] })] }
def draftState (d : Nat) : State := (stepping (draftStep d)).oryM fun y => { y with prog := some { kind := 2, issuedAll := true } }
/-- The step record after a level's children are fixed. -/
def fixedStep (d : Nat) : StepRec :=
  (ctxStep (fixRun (draftState d) 7 (draftStep d) d ((levelNodes (draftStep d) d).map (fun v => (v, draftRow (stepPositions (draftState d) 7 (draftStep d)) (draftStep d) v)))) 7).getD {}

theorem test_meets_StepsAndMovesActed_2 : ∃ (s : State) (c : Nat) (st : StepRec) (d : Nat) (st1 : StepRec),
    drafting s = some (c, st, d) ∧
    draftRan s c = true ∧
    s.smp.enable = true ∧
    issueOk s = true ∧
    let s1 := fixRun s c st d ((levelNodes st d).map (fun v => (v, draftRow (stepPositions s c st) st v)))
    ctxStep s1 c = some st1 ∧
    d < openDepth st1 := by
  refine ⟨draftState 0, 7, draftStep 0, 0, fixedStep 0, ?_⟩
  decide +kernel

theorem test_meets_StepsAndMovesActed_3 : ∃ (s : State) (c : Nat) (st : StepRec) (d : Nat) (st1 : StepRec),
    drafting s = some (c, st, d) ∧
    draftRan s c = true ∧
    s.smp.enable = true ∧
    issueOk s = true ∧
    let s1 := fixRun s c st d ((levelNodes st d).map (fun v => (v, draftRow (stepPositions s c st) st v)))
    ctxStep s1 c = some st1 ∧
    openDepth st1 ≤ d := by
  refine ⟨draftState 2, 7, draftStep 2, 2, fixedStep 2, ?_⟩
  decide +kernel

theorem test_meets_StepsAndMovesActed_4 : ∃ (s : State) (c : Nat) (st : StepRec) (d : Nat) (rows : List ((Nat × Nat) × List W32)) (x : Ctx) (v : StepRec),
    s.eph.ctxs.get? c = some x ∧
    x.step = some st ∧
    let f := (fixLevel s st rows).foldl (fun s e =>
       let fixed := (st.trees.getD e.1 {}).open_.filter (fun k => !e.2.open_.contains k && !e.2.gone.contains k)
       checkNodes st (countMasks s e.2 fixed) e.1 e.2 fixed) { s with smp := { s.smp with
         rows := (s.smp.rows + (levelShapes s st rows).1) % 2 ^ 64, evDegenerate := s.smp.evDegenerate || (levelShapes s st rows).2 != 0
         degenerate := (s.smp.degenerate + (levelShapes s st rows).2) % 2 ^ 32 } }
    ctxStep f c = some v := by
  refine ⟨stepping {}, 7, {}, 0, [], inStep {}, {}, ?_⟩
  decide +kernel

theorem test_meets_StepsAndMovesActed_5 : ∃ (s : State) (c : Nat) (st : StepRec) (x : Ctx),
    sealable s = some (c, st) ∧
    s.stm.enable = true ∧
    serving s = true ∧
    s.lan.refclk = true ∧
    s.lan.stopped = false ∧
    orreryLost s = false ∧
    s.integ.mode ≠ .quarantined ∧
    s.eph.ctxs.get? c = some x ∧
    x.step = some st := by
  refine ⟨stepping { paths := some [] }, 7, { paths := some [] }, inStep { paths := some [] }, ?_⟩
  decide +kernel

theorem test_meets_StepsAndMovesActed_6 : ∃ (s : State) (c : Nat) (x : Ctx) (st : StepRec),
    s.lan.refclk = true ∧
    boundaryReady s = some (c, x, st) ∧
    s.ast.enable = true ∧
    s.integ.mode ≠ .isolated := by
  refine ⟨stepping { sealedAt := some 5 }, 7, inStep { sealedAt := some 5 }, { sealedAt := some 5 }, ?_⟩
  decide +kernel

theorem test_meets_StepsAndMovesActed_7 : ∃ (s : State),
    serving s = true := by
  refine ⟨up, ?_⟩
  decide +kernel

theorem test_meets_StepsAndMovesActed_8 : ∃ (s : State) (id : Nat),
    serving s = true := by
  refine ⟨up, 5, ?_⟩
  decide +kernel

theorem test_meets_StepsAndMovesActed_9 : ∃ (s : State) (h : Nat) (l : Locket),
    s.lan.refclk = true ∧
    s.lockets.get? h = some l ∧
    l.recomputing = true ∧
    l.passDone = true := by
  refine ⟨parked { recomputing := true, passDone := true }, 1, { recomputing := true, passDone := true, session := 7 }, ?_⟩
  decide +kernel

theorem test_meets_StepsAndMovesActed_10 : ∃ (s : State) (h : Nat) (l : Locket) (m : TierMove) (s1 : State) (st : Nat),
    s.lockets.get? h = some l ∧
    l.move = some m ∧
    consume s (.move h m.home) = some (s1, st) := by
  refine ⟨ended (parked { move := some { home := 7 } }) (.move 1 7) 0, 1, { move := some { home := 7 }, session := 7 }, { home := 7 }, ((consume (ended (parked { move := some { home := 7 } }) (.move 1 7) 0) (.move 1 7)).getD (up, 0)).1, 0, ?_⟩
  decide +kernel

theorem test_meets_OnlyTheFrontLeavesTheQueue : ∃ (c : Instr) (s t : State), exec c s = .next t ∧ ∃ u, step { s with pending := [c] } = .next u :=
  ⟨.meshMessageReceive 143 1, up, up, rfl, _, rfl⟩
theorem test_meets_WellFormedCommandsRun : Sys2Proof.wellFormed (.meshMessageReceive 143 1) = true ∧ Sys2Proof.wellFormed (.meshMessageReceive 144 1) = false := by decide
theorem test_meets_EmptyQueueTicks_2 : up.pending = [] ∧ up.lan.alwaysOn = true ∧ up.lan.refclk = true := by decide +kernel
theorem test_meets_EmptyQueueTicks_3 : (up.lanM fun l => { l with refclk := false }).pending = [] ∧ (up.lanM fun l => { l with refclk := false }).lan.refclk = false := by
  decide +kernel
theorem test_meets_CommandsKeepTheirFrame : ∃ (c : Instr) (s t : State), exec c s = .next t ∧ Part.t1 ∉ touched c ∧ Part.hostMem ∉ touched c :=
  ⟨.meshMessageReceive 143 1, up, up, rfl, by decide, by decide⟩
theorem test_meets_StepsKeepSoundness : ∃ s t : State, sound s = true ∧ step s = .next t :=
  ⟨{ up with pending := [.meshMessageReceive 143 1] }, up, by decide +kernel, rfl⟩
theorem test_meets_TimebaseNeverSetBack_3 : ∃ (c : Instr) (s t : State), exec c s = .next t ∧ (∀ head, c ≠ .powerOn head) ∧ c ≠ .alwaysOnRailFailure :=
  ⟨.meshMessageReceive 143 1, up, up, rfl, fun _ h => Instr.noConfusion h, fun h => Instr.noConfusion h⟩
theorem test_meets_TimebaseNeverSetBack_4 : ∃ (s : State) (head : Bool) (t : State), s.lan.alwaysOn = true ∧ exec (.powerOn head) s = .next t := ⟨up, true, _, rfl, rfl⟩
theorem test_meets_TimebaseNeverSetBack_6 : ∃ s t : State, s.pending = [] ∧ s.now + 1 < 2 ^ 64 ∧ step s = .next t := ⟨up, _, rfl, by decide, rfl⟩
theorem test_meets_WrittenBytesReadBack : Mem.wf [] = true := rfl
theorem test_meets_UniformVariatesAreExact_1 : (2 ^ 32 - 1 : Nat) < 2 ^ 32 := by decide
theorem test_meets_UniformVariatesAreExact_2 : (3 : Nat) < 4 := by decide
theorem test_meets_StaleMapMessagesDiscarded_1 : ∃ (s : State) (cell epoch : Nat), s.lan.refclk = true ∧ cell < 144 ∧ (s.cell cell).state ≠ .retired ∧
    (s.cell cell).state ≠ .failed ∧ epoch ≠ s.lpe.epoch := ⟨up, 143, 0, by decide +kernel⟩
theorem test_meets_StaleMapMessagesDiscarded_2 : ∃ (s : State) (cell epoch : Nat), s.lan.refclk = true ∧ cell < 144 ∧ epoch = s.lpe.epoch := ⟨up, 143, 1, by decide +kernel⟩
theorem test_meets_TokensRefillAtTheirRate_1 : ∃ s : State, s.now = s.traffic.lastRefill + 1 := ⟨{ up with now := 1 }, by decide +kernel⟩
theorem test_meets_TokensRefillAtTheirRate_2 : ∃ (s t u : State) (k : Nat) (b : TenantTraffic) (n : Nat), exec .tokenRefill s = .next t ∧ s.traffic.tenants.get? k = some b ∧
    b.level ≤ b.depth * 10 ^ 8 ∧ s.traffic.lastRefill ≤ s.now ∧ exec .tokenRefill { t with now := s.now + n } = .next u :=
  ⟨up.trafM fun a => { a with tenants := [(17, { level := 0 })] }, _, _, 17, { level := 0 }, 1, rfl, by decide +kernel, by decide +kernel, by decide +kernel, rfl⟩
theorem test_meets_AdmissionRefusesCommands_1 : ∃ (c : Instr) (s : State) (id op st : Nat), hostRow c = some (id, op) ∧ Sys2Proof.wellFormed c = true ∧ startable s id op = true ∧
    rowMeant c s ∧ gate s (cmdOf s id) = some st :=
  by
  refine ⟨.nop 5, (asked up 0x01 []).integM fun i => { i with mode := .quarantined }, 5, 1, stFenced, by decide +kernel, by decide +kernel, by decide +kernel, ?_,
    by decide +kernel⟩
  intro id op _ h l hf
  exact nomatch (show (none : Option (Nat × Locket)) = some _ from hf)
theorem test_meets_AdmissionRefusesCommands_2 : (up.integM fun i => { i with mode := .quarantined }).integ.mode = .quarantined := rfl
theorem test_meets_AdmissionRefusesCommands_3 : ∃ (s : State) (d : HCmd), s.integ.mode ≠ .quarantined ∧ s.lan.stopped = false ∧ orreryLost s = false ∧ s.lan.committed = false ∧
    ¬(d.opcode = 0x01 ∨ d.opcode = 0x02 ∨ (d.opcode = 0x60 ∧ d.fld 16 1 = 7)) := ⟨bt.lanM fun l => { l with committed := false }, { id := 5, opcode := 0x20 }, by decide +kernel⟩
theorem test_meets_AdmissionRefusesCommands_4 : ∃ (s : State) (d : HCmd), s.integ.mode ≠ .quarantined ∧ s.lan.stopped = false ∧ orreryLost s = false ∧
    (reservedOk d = false ∨ (tenant0Only d.opcode = true ∧ d.tenant ≠ 0)) := ⟨up, { id := 5, opcode := 0x39, tenant := 1 }, by decide +kernel⟩
theorem test_meets_TernaryDigitsDecode : ∃ (g : List Byte) (j : Nat), g[j / 5]? = some (BitVec.ofNat 8 (2 + 3 * 2 + 9 * 2 + 27 * 2 + 81 * 2)) := ⟨[242], 4, by decide⟩
theorem test_meets_CodewordsCorrectAndDetect_1 : (2 ^ 128 - 1 : Nat) < 2 ^ 128 := by decide
theorem test_meets_CodewordsCorrectAndDetect_2 : encode (2 ^ 128 - 1) < 2 ^ 144 ∧ syndrome (encode (2 ^ 128 - 1)) = (0, 0, 0, 0) := by decide +kernel
theorem test_meets_CodewordsCorrectAndDetect_4 : tarnishWord < 2 ^ 144 ∧ syndrome tarnishWord = gf4Scale 1 (0x1, 0x0, 0x4, 0xB) := by decide +kernel
theorem test_meets_ResidueChecksCatchErrors_4 : ∃ (ws as : List (List Block)) (shape : List Nat) (x : BlockError), (∀ w ∈ ws, w.map (fun b => b.elems.length) = shape) ∧
    (∀ a ∈ as, a.map (fun b => b.elems.length) = shape) ∧ x.pos < as.length ∧ x.lane < ws.length ∧ residue { m := x.diff, e := x.exp } ≠ 0 :=
  ⟨[[]], [[]], [], { cell := 0, lane := 0, pos := 0, diff := 1, exp := 0 }, by decide, by decide, by decide, by decide, by decide +kernel⟩
theorem test_meets_RowParityRebuildsPages_3 : ∃ (c : Coffer) (k i x u : Nat) (e : Extent), placeUnit (sbAt c k).pieces i = (x, u) ∧ c.extents.get? x = some e :=
  ⟨{ sbs := [(7, { pieces := [(5, 0, 60)] })], extents := [(5, {})] }, 7, 59, 5, 59, {}, by decide +kernel, by decide +kernel⟩

end Sys2Proof.Tests
end

/-! The frame of every command, and the timebase (00 R16). -/

namespace Sys2Proof.Machine

/-- The frame of every command, collected from the frames of its arms: it changes only the parts that `touched` lists. -/
theorem exec_moves (c : Instr) (s : State) : Moves (touched c) s (exec c s) :=
  match c with
  | .nop .. => execNop_moves ..
  | .fence .. => execFence_moves ..
  | .fenceDone .. => execFenceDone_moves ..
  | .loadParure .. => execLoadParure_moves ..
  | .parureCopyDone .. => execParureCopyDone_moves ..
  | .unloadParure .. => execUnloadParure_moves ..
  | .facetLoad .. => execFacetLoad_moves ..
  | .facetDrop .. => execFacetDrop_moves ..
  | .sessionOpen .. => execSessionOpen_moves ..
  | .sessionClose .. => execSessionClose_moves ..
  | .ingest .. => execIngest_moves ..
  | .generate .. => execGenerate_moves ..
  | .cancel .. => execCancel_moves ..
  | .park .. => execPark_moves ..
  | .revive .. => execRevive_moves ..
  | .charmCreate .. => execCharmCreate_moves ..
  | .charmDrop .. => execCharmDrop_moves ..
  | .batchDefine .. => execBatchDefine_moves ..
  | .batchRelease .. => execBatchRelease_moves ..
  | .batchJoin .. => execBatchJoin_moves ..
  | .batchLeave .. => execBatchLeave_moves ..
  | .ephemerisLoad .. => execEphemerisLoad_moves ..
  | .ephemerisSwitch .. => execEphemerisSwitch_moves ..
  | .search .. => execSearch_moves ..
  | .itemInsert .. => execItemInsert_moves ..
  | .itemDelete .. => execItemDelete_moves ..
  | .collectionMerge .. => execCollectionMerge_moves ..
  | .collectionCreate .. => execCollectionCreate_moves ..
  | .collectionDestroy .. => execCollectionDestroy_moves ..
  | .select .. => execSelect_moves ..
  | .snapshot .. => execSnapshot_moves ..
  | .restore .. => execRestore_moves ..
  | .manifestRead .. => execManifestRead_moves ..
  | .query .. => execQuery_moves ..
  | .accountRead .. => execAccountRead_moves ..
  | .descriptorFetch .. => execDescriptorFetch_moves ..
  | .tokenRefill .. => execTokenRefill_moves ..
  | .sqTail .. => execSqTail_moves ..
  | .cqHead .. => execCqHead_moves ..
  | .ack .. => execAck_moves ..
  | .slotSel .. => execSlotSel_moves ..
  | .slotApertureWrite .. => execSlotApertureWrite_moves ..
  | .bar2Write .. => execBar2Write_moves ..
  | .bar2Read .. => execBar2Read_moves ..
  | .bar4Access .. => execBar4Access_moves ..
  | .completionPost .. => execCompletionPost_moves ..
  | .coalTimeExpiry .. => execCoalTimeExpiry_moves ..
  | .deliveryWrite .. => execDeliveryWrite_moves ..
  | .keyInstall .. => execKeyInstall_moves ..
  | .keySelect .. => execKeySelect_moves ..
  | .keyDeselect slot tenant => execKeyDeselect_moves slot tenant s
  | .cutKey slot tenant => execCutKey_moves slot tenant s
  | .registerWrite .. => execRegisterWrite_moves ..
  | .perstNAssert .. => execPerstNAssert_moves ..
  | .linkTraining .. => execLinkTraining_moves ..
  | .d3hotToD0 .. => execD3hotToD0_moves ..
  | .coldReset .. => execColdReset_moves ..
  | .warmReset .. => execWarmReset_moves ..
  | .deviceReset .. => execDeviceReset_moves ..
  | .contextReset .. => execContextReset_moves ..
  | .resetReqDevice .. => execResetReqDevice_moves ..
  | .resetReqWarm .. => execResetReqWarm_moves ..
  | .resetReqCold .. => execResetReqCold_moves ..
  | .powerOn .. => execPowerOn_moves ..
  | .railsPgCheck .. => execRailsPgCheck_moves ..
  | .railsPgFall .. => execRailsPgFall_moves ..
  | .duskEntry .. => execDuskEntry_moves ..
  | .duskExit .. => execDuskExit_moves ..
  | .twilightEntry .. => execTwilightEntry_moves ..
  | .twilightExit .. => execTwilightExit_moves ..
  | .nightEntry .. => execNightEntry_moves ..
  | .nightExit .. => execNightExit_moves ..
  | .supplyLow .. => execSupplyLow_moves ..
  | .supplyRecover .. => execSupplyRecover_moves ..
  | .controlledStop .. => execControlledStop_moves ..
  | .stopRecovery .. => execStopRecovery_moves ..
  | .vcoreResetLevel .. => execVcoreResetLevel_moves ..
  | .thermalSample .. => execThermalSample_moves ..
  | .thermalTrip .. => execThermalTrip_moves ..
  | .analogThermtrip .. => execAnalogThermtrip_moves ..
  | .trippedClear .. => execTrippedClear_moves ..
  | .avsPoll .. => execAvsPoll_moves ..
  | .vcoreSet .. => execVcoreSet_moves ..
  | .refclkLoss .. => execRefclkLoss_moves ..
  | .refclkReturn .. => execRefclkReturn_moves ..
  | .wdtKick .. => execWdtKick_moves ..
  | .wdtPeriod .. => execWdtPeriod_moves ..
  | .wdtExpiry .. => execWdtExpiry_moves ..
  | .sidebandFrameReceive .. => execSidebandFrameReceive_moves ..
  | .read .. => execRead_moves ..
  | .write .. => execWrite_moves ..
  | .describe .. => execDescribe_moves ..
  | .discover .. => execDiscover_moves ..
  | .event .. => execEvent_moves ..
  | .readSnapshotExpiry .. => execReadSnapshotExpiry_moves ..
  | .homeFTimeout .. => execHomeFTimeout_moves ..
  | .go .. => execGo_moves ..
  | .nodeId .. => execNodeId_moves ..
  | .configCommit .. => execConfigCommit_moves ..
  | .crashClear .. => execCrashClear_moves ..
  | .retiredClear .. => execRetiredClear_moves ..
  | .histClear .. => execHistClear_moves ..
  | .accountClear .. => execAccountClear_moves ..
  | .rejoin .. => execRejoin_moves ..
  | .formDomain .. => execFormDomain_moves ..
  | .memberReq .. => execMemberReq_moves ..
  | .chainOnly .. => execChainOnly_moves ..
  | .portFence .. => execPortFence_moves ..
  | .imageStart .. => execImageStart_moves ..
  | .imageData .. => execImageData_moves ..
  | .imageVerify .. => execImageVerify_moves ..
  | .verifyDone .. => execVerifyDone_moves ..
  | .imageRun .. => execImageRun_moves ..
  | .settingStartDone .. => execSettingStartDone_moves ..
  | .settingStartTimeout .. => execSettingStartTimeout_moves ..
  | .imageReplicate .. => execImageReplicate_moves ..
  | .imageTransferReceive .. => execImageTransferReceive_moves ..
  | .portTrained .. => execPortTrained_moves ..
  | .portDown .. => execPortDown_moves ..
  | .flitReceive .. => execFlitReceive_moves ..
  | .flitForward .. => execFlitForward_moves ..
  | .transferTimeout .. => execTransferTimeout_moves ..
  | .xferSetup .. => execXferSetup_moves ..
  | .xferDone .. => execXferDone_moves ..
  | .fwdRead .. => execFwdRead_moves ..
  | .fwdWrite .. => execFwdWrite_moves ..
  | .fwdCpl .. => execFwdCpl_moves ..
  | .hostRead .. => execHostRead_moves ..
  | .hostWrite .. => execHostWrite_moves ..
  | .hostMsix .. => execHostMsix_moves ..
  | .chainCount .. => execChainCount_moves ..
  | .tailTimeout .. => execTailTimeout_moves ..
  | .delayMeasure .. => execDelayMeasure_moves ..
  | .delayReq .. => execDelayReq_moves ..
  | .delayResp .. => execDelayResp_moves ..
  | .beaconSend .. => execBeaconSend_moves ..
  | .beacon .. => execBeacon_moves ..
  | .timePortLost .. => execTimePortLost_moves ..
  | .isolationTimeout .. => execIsolationTimeout_moves ..
  | .prepare .. => execPrepare_moves ..
  | .memberAck .. => execMemberAck_moves ..
  | .commit .. => execCommit_moves ..
  | .abort .. => execAbort_moves ..
  | .stale .. => execStale_moves ..
  | .memberAckTimeout .. => execMemberAckTimeout_moves ..
  | .prepareTimeout .. => execPrepareTimeout_moves ..
  | .enumWordReceive .. => execEnumWordReceive_moves ..
  | .enumWordSend .. => execEnumWordSend_moves ..
  | .meridian .. => execMeridian_moves ..
  | .switchAttempt .. => execSwitchAttempt_moves ..
  | .slotStart .. => execSlotStart_moves ..
  | .leadPoint .. => execLeadPoint_moves ..
  | .jobReady .. => execJobReady_moves ..
  | .jobDispatch .. => execJobDispatch_moves ..
  | .jobEnd .. => execJobEnd_moves ..
  | .urgentAllowance .. => execUrgentAllowance_moves ..
  | .budgetReturn .. => execBudgetReturn_moves ..
  | .tileIssue .. => execTileIssue_moves ..
  | .tileCommit .. => execTileCommit_moves ..
  | .tileFault .. => execTileFault_moves ..
  | .mapEpochCommit .. => execMapEpochCommit_moves ..
  | .plannedSubstitution .. => execPlannedSubstitution_moves ..
  | .meshMessageReceive .. => execMeshMessageReceive_moves ..
  | .windowFillDone .. => execWindowFillDone_moves ..
  | .preemptRequest .. => execPreemptRequest_moves ..
  | .spillDone .. => execSpillDone_moves ..
  | .spillRestoreDone .. => execSpillRestoreDone_moves ..
  | .bistStart .. => execBistStart_moves ..
  | .bistDone .. => execBistDone_moves ..
  | .spareRetest .. => execSpareRetest_moves ..
  | .pathsFixed .. => execPathsFixed_moves ..
  | .draftRunDone .. => execDraftRunDone_moves ..
  | .stepSeal .. => execStepSeal_moves ..
  | .stepBoundary .. => execStepBoundary_moves ..
  | .tlbInvalidate .. => execTlbInvalidate_moves ..
  | .recomputePassDone .. => execRecomputePassDone_moves ..
  | .stackMoveDone .. => execStackMoveDone_moves ..
  | .replicaPromoteDone .. => execReplicaPromoteDone_moves ..
  | .replicaEvictStart .. => execReplicaEvictStart_moves ..
  | .replicaEvictCommit .. => execReplicaEvictCommit_moves ..
  | .ttlExpiry .. => execTtlExpiry_moves ..
  | .demoteRetry .. => execDemoteRetry_moves ..
  | .demotionCommit .. => execDemotionCommit_moves ..
  | .promotionCommit .. => execPromotionCommit_moves ..
  | .charmTtlExpiry .. => execCharmTtlExpiry_moves ..
  | .courierPacketSelect .. => execCourierPacketSelect_moves ..
  | .courierComplete .. => execCourierComplete_moves ..
  | .courierAbandon .. => execCourierAbandon_moves ..
  | .instackCopyDone .. => execInstackCopyDone_moves ..
  | .hbmScrub .. => execHbmScrub_moves ..
  | .bayPowerOn .. => execBayPowerOn_moves ..
  | .bayIdent .. => execBayIdent_moves ..
  | .mountDone .. => execMountDone_moves ..
  | .cofferRemoval .. => execCofferRemoval_moves ..
  | .cooperativeDetach .. => execCooperativeDetach_moves ..
  | .detachRetry .. => execDetachRetry_moves ..
  | .detachDone .. => execDetachDone_moves ..
  | .forcedDetach .. => execForcedDetach_moves ..
  | .extentSeal .. => execExtentSeal_moves ..
  | .programFail .. => execProgramFail_moves ..
  | .blockEraseDone .. => execBlockEraseDone_moves ..
  | .garbageCollection .. => execGarbageCollection_moves ..
  | .wearLevel .. => execWearLevel_moves ..
  | .patrolRead .. => execPatrolRead_moves ..
  | .journalCheckpoint .. => execJournalCheckpoint_moves ..
  | .cofferCounterWrite .. => execCofferCounterWrite_moves ..
  | .walkStart .. => execWalkStart_moves ..
  | .walkDone .. => execWalkDone_moves ..
  | .mergeStart .. => execMergeStart_moves ..
  | .mergePublish .. => execMergePublish_moves ..
  | .selectFetchDone .. => execSelectFetchDone_moves ..
  | .drainStart .. => execDrainStart_moves ..
  | .cutComplete .. => execCutComplete_moves ..
  | .cutAbandon .. => execCutAbandon_moves ..
  | .queueSample .. => execQueueSample_moves ..
  | .kvGatherDone .. => execKvGatherDone_moves ..
  | .programStatusPass .. => execProgramStatusPass_moves ..
  | .transmitOpportunity .. => execTransmitOpportunity_moves ..
  | .alwaysOnRailFailure .. => execAlwaysOnRailFailure_moves ..

theorem exec_confined {c : Instr} {s t : State} (h : exec c s = .next t) : confined (touched c) s t :=
  ((exec_moves c s).frame t h).only

/-- Only the two commands by which the always-on rails rise and fall list the timebase. -/
theorem now_mem_touched {c : Instr} (h : Part.now ∈ touched c) : (∃ head, c = .powerOn head) ∨ c = .alwaysOnRailFailure := by
  cases c
  case powerOn head => exact .inl ⟨head, rfl⟩
  case alwaysOnRailFailure => exact .inr rfl
  all_goals simp only [touched, List.mem_cons, reduceCtorEq, List.not_mem_nil, or_self] at h

theorem exec_keeps_now {c : Instr} {s t : State} (h : exec c s = .next t) (hon : ∀ head, c ≠ .powerOn head) (hoff : c ≠ .alwaysOnRailFailure) :
    t.now = s.now := by
  have hc : Part.now ∉ touched c := fun hm => (now_mem_touched hm).elim (fun ⟨head, e⟩ => hon head e) hoff
  exact exec_confined h .now hc

/-- Every class takes its power-on value at the rise of the always-on rails (18 R664): the timebase counts from 0. -/
theorem exec_powerOn_of_off {s : State} (head : Bool) (h : s.lan.alwaysOn = false) :
    ∃ t, exec (.powerOn head) s = .next t ∧ t.now = 0 := by
  have hoff : (!s.lan.alwaysOn) = true := by rw [h]; rfl
  exact ⟨_, if_pos hoff, rfl⟩

theorem exec_powerOn_of_on {s : State} (head : Bool) (h : s.lan.alwaysOn = true) : exec (.powerOn head) s = .next s := by
  have hon : ¬(!s.lan.alwaysOn) = true := by rw [h]; exact Bool.false_ne_true
  exact if_neg hon

theorem step_of_pending_nil {s : State} (h : s.pending = []) : step s = .next (tick s) := by
  simp only [step, h]

theorem tick_of_refclk_absent {s : State} (h : s.lan.refclk = false) : tick s = s := by
  simp only [tick, h, Bool.and_false, Bool.false_eq_true, if_false]

theorem now_le_tick_now {s : State} (h : s.now + 1 < 2 ^ 64) : s.now ≤ (tick s).now := by
  unfold tick
  split
  · rw [Nat.mod_eq_of_lt h]; exact Nat.le_succ _
  · exact Nat.le_refl _

/-- Settles O53: the timebase is part of the frame of every command but the rise and the fall of the always-on rails, and a tick either leaves it or adds 1. -/
theorem timebaseNeverSetBack : Obligations.TimebaseNeverSetBack := by
  refine ⟨rfl, fun _ head hoff => exec_powerOn_of_off head hoff, fun _ _ _ h hon hoff => exec_keeps_now h hon hoff, ?_, ?_, ?_⟩
  · intro s head t hon h
    rw [exec_powerOn_of_on head hon] at h
    cases h; rfl
  · intro s hp hc
    rw [step_of_pending_nil hp, tick_of_refclk_absent hc]
  · intro s t hp hn h
    rw [step_of_pending_nil hp] at h
    cases h; exact now_le_tick_now hn

end Sys2Proof.Machine

/-! Packed ternary (02 R46) and uniform variates (02 R75). -/

namespace Sys2Proof.Machine

/-- A field of one byte is the byte that stands at its offset. -/
theorem fieldAt_one {bs : List Byte} {i : Nat} {b : Byte} (h : bs[i]? = some b) : fieldAt bs i 1 = b.toNat := by
  obtain ⟨hi, rfl⟩ := List.getElem?_eq_some_iff.mp h
  rw [fieldAt, List.drop_eq_getElem_cons hi]
  rfl

/-- Digit i of a number of five base-3 digits: the digits before it leave by the division, the ones after it by the remainder. -/
theorem ternary_digit {d0 d1 d2 d3 d4 i : Nat} (h0 : d0 < 3) (h1 : d1 < 3) (h2 : d2 < 3) (h3 : d3 < 3) (h4 : d4 < 3) (hi : i < 5) :
    some ((d0 + 3 * d1 + 9 * d2 + 27 * d3 + 81 * d4) / 3 ^ i % 3) = [d0, d1, d2, d3, d4][i]? :=
  match i, hi with
  | 0, _ => congrArg some (show (d0 + 3 * d1 + 9 * d2 + 27 * d3 + 81 * d4) / 1 % 3 = d0 by omega)
  | 1, _ => congrArg some (show (d0 + 3 * d1 + 9 * d2 + 27 * d3 + 81 * d4) / 3 % 3 = d1 by omega)
  | 2, _ => congrArg some (show (d0 + 3 * d1 + 9 * d2 + 27 * d3 + 81 * d4) / 9 % 3 = d2 by omega)
  | 3, _ => congrArg some (show (d0 + 3 * d1 + 9 * d2 + 27 * d3 + 81 * d4) / 27 % 3 = d3 by omega)
  | 4, _ => congrArg some (show (d0 + 3 * d1 + 9 * d2 + 27 * d3 + 81 * d4) / 81 % 3 = d4 by omega)

/-- Settles O48: five digits below 3 make a number that fits a byte, so the byte keeps it and its digits are read back one by one. -/
theorem ternaryDigitsDecode : Obligations.TernaryDigitsDecode := by
  refine ⟨fun g j d0 d1 d2 d3 d4 h0 h1 h2 h3 h4 hg => ?_, by decide, by decide, by decide⟩
  have hbyte : d0 + 3 * d1 + 9 * d2 + 27 * d3 + 81 * d4 < 2 ^ 8 := by omega
  have hj : j % 5 < 5 := Nat.mod_lt j (by decide)
  rw [elemAt, fieldAt_one hg, BitVec.toNat_ofNat, Nat.mod_eq_of_lt hbyte, ternary_digit h0 h1 h2 h3 h4 hj]

/-- What a packed FP32 body is worth: a significand below 2^23 stands alone (a subnormal), a greater one adds its leading bit to the exponent field. -/
theorem mag_of_packed {k f : Nat} (hf : f < 2 ^ 24) (hsub : f < 2 ^ 23 → k = 0) :
    mag (if f < 2 ^ 23 then f else k * 2 ^ 23 + f) = f * 2 ^ k := by
  split
  case isTrue h =>
    have hexp : f / 2 ^ 23 = 0 := Nat.div_eq_of_lt h
    rw [hsub h, mag, if_pos hexp, Nat.mod_eq_of_lt h, Nat.pow_zero, Nat.mul_one]
  case isFalse h =>
    have hexp : (k * 2 ^ 23 + f) / 2 ^ 23 = k + 1 := by omega
    have hfrac : (k * 2 ^ 23 + f) % 2 ^ 23 + 2 ^ 23 = f := by omega
    rw [mag, hexp, if_neg (Nat.succ_ne_zero k), hfrac, Nat.add_sub_cancel]

/-- A magnitude of at most p bits whose exponent is not below the least one is kept as it is: rounding only shifts it up to p bits. -/
theorem rneMag_exact {p m : Nat} {qmin e : Int} (sticky : Bool) (hm0 : m ≠ 0) (hm : m < 2 ^ p) (he : qmin ≤ e) :
    ∃ k : Nat, rneMag p qmin m e sticky = (m * 2 ^ k, e - k) ∧ m * 2 ^ k < 2 ^ p ∧ qmin ≤ e - k ∧
      (m * 2 ^ k < 2 ^ (p - 1) → e - k = qmin) := by
  have hlog : m.log2 < p := (Nat.log2_lt hm0).mpr hm
  have hq : max (e + (m.log2 : Int) + 1 - p) qmin ≤ e := by omega
  obtain ⟨k, hk⟩ : ∃ k : Nat, max (e + (m.log2 : Int) + 1 - p) qmin = e - k := (Int.le.dest hq).imp fun _ h => by omega
  have hkLog : m.log2 + 1 + k ≤ p := by omega
  refine ⟨k, ?_, ?_, by omega, fun hlow => ?_⟩
  · have hshift : (e - (e - (k : Int))).toNat = k := by omega
    rw [rneMag, hk]
    simp only [pow2, hshift]
    exact if_pos (by omega)
  · calc m * 2 ^ k < 2 ^ (m.log2 + 1) * 2 ^ k := (Nat.mul_lt_mul_right (Nat.two_pow_pos k)).mpr Nat.lt_log2_self
      _ = 2 ^ (m.log2 + 1 + k) := (Nat.pow_add ..).symm
      _ ≤ 2 ^ p := Nat.pow_le_pow_right (by decide) hkLog
  · have hlarge : 2 ^ (m.log2 + k) ≤ m * 2 ^ k :=
      calc 2 ^ (m.log2 + k) = 2 ^ m.log2 * 2 ^ k := Nat.pow_add ..
        _ ≤ m * 2 ^ k := Nat.mul_le_mul_right _ (Nat.log2_self_le hm0)
    have hlogLow : m.log2 + k < p - 1 := (Nat.pow_lt_pow_iff_right (by decide)).mp (Nat.lt_of_le_of_lt hlarge hlow)
    omega

/-- Every value m · 2^e of at most 24 bits within the range of FP32 is encoded exactly (02 R53). -/
theorem scaled32_enc32_exact {m : Nat} {e : Int} (sticky : Bool) (hm : m < 2 ^ 24) (hlo : -149 ≤ e) (hhi : e ≤ 104) :
    scaled32 (enc32 false m e sticky) = some ((m * 2 ^ (e + 149).toNat : Nat) : Int) := by
  by_cases hm0 : m = 0
  · rw [enc32, if_pos hm0, hm0, Nat.zero_mul]
    decide
  obtain ⟨k, hr, hf, hqmin, hsub⟩ := rneMag_exact sticky hm0 hm hlo
  obtain ⟨x, hx⟩ : ∃ x : Nat, e - k + 149 = x := ⟨(e - k + 149).toNat, by omega⟩
  have hpacked : enc32 false m e sticky = BitVec.ofNat 32 (if m * 2 ^ k < 2 ^ 23 then m * 2 ^ k else x * 2 ^ 23 + m * 2 ^ k) := by
    have hbig : ¬ m * 2 ^ k ≥ 2 ^ 24 := by omega
    have hinf : ¬ e - (k : Int) + 23 > 127 := by omega
    have hxn : (e - (k : Int) + 149).toNat = x := by omega
    simp only [enc32, if_neg hm0, hr, if_neg hbig, if_neg hinf, hxn, boolNat, Bool.false_eq_true, if_false, Nat.zero_mul, Nat.add_zero]
  have hexp : (e + 149).toNat = k + x := by omega
  have hvalue : m * 2 ^ (e + 149).toNat = m * 2 ^ k * 2 ^ x := by
    rw [Nat.mul_assoc, ← Nat.pow_add, hexp]
  have hbody : (if m * 2 ^ k < 2 ^ 23 then m * 2 ^ k else x * 2 ^ 23 + m * 2 ^ k) < 255 * 2 ^ 23 := by
    split <;> omega
  have hword := ofNat32 (Nat.lt_trans hbody (by decide))
  rw [hpacked, scaled_pos _ (by rw [hword]; exact hbody), hword, mag_of_packed hf (fun h => by have := hsub h; omega), hvalue]

theorem drawWord_call (key step purpose node call : Nat) {k : Nat} (hk : k < 4) :
    drawWord key step purpose node (4 * call + k) =
      (philox key (step % 2 ^ 32) (purpose * 2 ^ 24 + node % 16 * 2 ^ 16 + step / 2 ^ 32 % 2 ^ 16) call 0).getD k 0 := by
  have hcall : (4 * call + k) / 4 = call := by omega
  have hword : (4 * call + k) % 4 = k := by omega
  rw [drawWord, hcall, hword]

/-- Settles O56: ⌊x / 256⌋ has at most 24 bits, so FP32 holds it exactly under the exponent −24. -/
theorem uniformVariatesAreExact : Obligations.UniformVariatesAreExact := by
  refine ⟨fun x hx => ?_, fun key step purpose node call k hk => drawWord_call key step purpose node call hk⟩
  have hbits : x / 256 < 2 ^ 24 := by omega
  have hscale : ((-24 : Int) + 149).toNat = 125 := rfl
  refine ⟨?_, by omega⟩
  rw [uniformOf, scaled32_enc32_exact false hbits (by decide) (by decide), hscale]
  exact congrArg some (Int.natCast_mul ..)

end Sys2Proof.Machine

/-! The residue checks of a compute tile (03 R106 to R108, R112): numbers are compared modulo p = 2^61 − 1. -/

namespace Sys2Proof.Machine

/-! Sums of natural numbers over lists. -/

theorem sum_map_mod_congr {α : Type} {l : List α} {f g : α → Nat} (h : ∀ x ∈ l, f x % abftP = g x % abftP) :
    (l.map f).sum % abftP = (l.map g).sum % abftP := by
  induction l with
  | nil => rfl
  | cons x l ih =>
    rw [List.map_cons, List.map_cons, List.sum_cons, List.sum_cons, Nat.add_mod, h x List.mem_cons_self,
      ih fun y hy => h y (List.mem_cons_of_mem x hy), ← Nat.add_mod]

theorem sum_map_add_nat {α : Type} (f g : α → Nat) (l : List α) : (l.map fun x => f x + g x).sum = (l.map f).sum + (l.map g).sum := by
  induction l with
  | nil => rfl
  | cons x l ih => rw [List.map_cons, List.map_cons, List.map_cons, List.sum_cons, List.sum_cons, List.sum_cons, ih, Nat.add_add_add_comm]

theorem sum_map_zero {α : Type} {f : α → Nat} {l : List α} (h : ∀ x ∈ l, f x = 0) : (l.map f).sum = 0 := by
  refine List.sum_eq_zero_iff_forall_eq_nat.mpr fun y hy => ?_
  obtain ⟨x, hx, rfl⟩ := List.mem_map.mp hy
  exact h x hx

theorem sum_map_range_succ (n : Nat) (f : Nat → Nat) :
    ((List.range (n + 1)).map f).sum = f 0 + ((List.range n).map fun k => f (k + 1)).sum := by
  rw [List.range_succ_eq_map, List.map_cons, List.sum_cons, List.map_map]
  rfl

/-- A list by its places. -/
theorem map_range_getD {α : Type} (d : α) (l : List α) : ((List.range l.length).map fun i => l.getD i d) = l := by
  induction l with
  | nil => rfl
  | cons x l ih =>
    rw [List.length_cons, List.range_succ_eq_map, List.map_cons, List.map_map]
    exact congrArg (x :: ·) ih

/-- A sum of which one place alone is not 0. -/
theorem sum_map_range_ite {n j : Nat} (r : Nat) (hj : j < n) : ((List.range n).map fun i => if j = i then r else 0).sum = r := by
  induction n generalizing j with
  | zero => exact absurd hj (Nat.not_lt_zero j)
  | succ n ih =>
    rw [sum_map_range_succ]
    cases j with
    | zero => rw [if_pos rfl, sum_map_zero fun i _ => if_neg (Nat.succ_ne_zero i).symm, Nat.add_zero]
    | succ j => simpa only [Nat.succ_ne_zero, if_false, Nat.zero_add, Nat.add_right_cancel_iff] using ih (Nat.lt_of_succ_lt_succ hj)

/-! Residues of exact values (03 R106). -/

theorem mod_abftP_lt (x : Nat) : x % abftP < abftP := Nat.mod_lt x (by decide)

theorem residue_lt (d : Dyadic) : residue d < abftP := mod_abftP_lt _

theorem residue_mod (d : Dyadic) : residue d % abftP = residue d := Nat.mod_eq_of_lt (residue_lt d)

theorem residue_zero : residue { m := 0, e := 0 } = 0 := by decide

/-- 2^61 ≡ 1 modulo p, so that a power of two depends on its exponent modulo 61 only (03 R106). -/
theorem two_pow_mod_abftP (n : Nat) : 2 ^ n % abftP = 2 ^ (n % 61) % abftP := by
  have hone : (2 ^ 61) ^ (n / 61) % abftP = 1 := by
    rw [Nat.pow_mod, show 2 ^ 61 % abftP = 1 by decide, Nat.one_pow]
    decide
  calc 2 ^ n % abftP = 2 ^ (61 * (n / 61) + n % 61) % abftP := by rw [Nat.div_add_mod]
    _ = (2 ^ 61) ^ (n / 61) % abftP * (2 ^ (n % 61) % abftP) % abftP := by rw [Nat.pow_add, Nat.pow_mul, Nat.mul_mod]
    _ = 2 ^ (n % 61) % abftP := by rw [hone, Nat.one_mul, Nat.mod_mod]

/-- The residue of m · 2^e by any power of two whose exponent is that of the value modulo 61. -/
theorem residue_eq_emod {m e : Int} {n : Nat} (h : (n : Int) % 61 = e % 61) :
    (residue { m := m, e := e } : Int) = m * (2 ^ n : Nat) % abftP := by
  have hexp : (e % 61).toNat = n % 61 := by omega
  have hpow : ((2 ^ (n % 61) : Nat) : Int) % abftP = (2 ^ n : Nat) % abftP := by
    rw [← Int.natCast_emod, ← two_pow_mod_abftP, Int.natCast_emod]
  calc (residue { m := m, e := e } : Int) = m % abftP * (2 ^ (n % 61) : Nat) % abftP := by
        rw [residue, hexp, Int.natCast_emod, Int.natCast_mul, Int.toNat_of_nonneg (Int.emod_nonneg m (by decide))]
    _ = m * (2 ^ n : Nat) % abftP := by rw [Int.mul_emod, Int.emod_emod, hpow, ← Int.mul_emod]

/-- The same residue, for the exponent that the value itself gives. -/
theorem residue_eq_emod_self (m e : Int) : (residue { m := m, e := e } : Int) = m * (2 ^ (e % 61).toNat : Nat) % abftP :=
  residue_eq_emod (by omega)

/-- A factor 2^k may stand in the integer or in the power. -/
theorem residue_mul_two_pow (m e : Int) (k : Nat) : residue { m := m * (2 ^ k : Nat), e := e } = residue { m := m, e := e + k } := by
  refine Int.ofNat_inj.mp ?_
  rw [residue_eq_emod_self, residue_eq_emod (n := k + (e % 61).toNat) (by omega), Nat.pow_add, Int.natCast_mul, Int.mul_assoc]

theorem residue_shift (m e : Int) (k : Nat) : residue { m := m * 2 ^ k, e := e - k } = residue { m := m, e := e } := by
  have hpow : ((2 ^ k : Nat) : Int) = 2 ^ k := Int.natCast_pow 2 k
  rw [← hpow, residue_mul_two_pow, Int.sub_add_cancel]

/-- A value rewritten under an exponent that is not greater. -/
theorem residue_rescale {d : Dyadic} {e : Int} (h : e ≤ d.e) : residue { m := d.m * pow2 (d.e - e), e := e } = residue d := by
  have he : e + ((d.e - e).toNat : Int) = d.e := by omega
  rw [pow2, residue_mul_two_pow, he]

theorem residue_add (m n e : Int) : residue { m := m + n, e := e } = (residue { m := m, e := e } + residue { m := n, e := e }) % abftP := by
  refine Int.ofNat_inj.mp ?_
  rw [Int.natCast_emod, Int.natCast_add, residue_eq_emod_self, residue_eq_emod_self, residue_eq_emod_self, Int.add_mul, Int.add_emod]

theorem residue_dyAdd (x y : Dyadic) : residue (dyAdd x y) = (residue x + residue y) % abftP := by
  rw [← residue_rescale (Int.min_le_left x.e y.e), ← residue_rescale (Int.min_le_right x.e y.e)]
  exact residue_add ..

theorem residue_dyMul (x y : Dyadic) : residue (dyMul x y) = residue x * residue y % abftP := by
  have hexp : (((x.e % 61).toNat + (y.e % 61).toNat : Nat) : Int) % 61 = (x.e + y.e) % 61 := by omega
  refine Int.ofNat_inj.mp ?_
  rw [dyMul, residue_eq_emod hexp, Int.natCast_emod, Int.natCast_mul, residue_eq_emod_self, residue_eq_emod_self, ← Int.mul_emod, Nat.pow_add,
    Int.natCast_mul, Int.mul_assoc x.m y.m, Int.mul_left_comm y.m, ← Int.mul_assoc x.m]

/-! Sums and products of residues (03 R107). -/

theorem sumMod_eq (xs : List Nat) : sumMod xs = xs.sum % abftP := by
  have hfold : ∀ s, xs.foldl (fun a x => (a + x) % abftP) (s % abftP) = (s + xs.sum) % abftP := by
    induction xs with
    | nil => exact fun s => rfl
    | cons x xs ih => intro s; rw [List.foldl_cons, Nat.mod_add_mod, ih, List.sum_cons, Nat.add_assoc]
  exact (hfold 0).trans (by rw [Nat.zero_add])

/-- The product of two rows of numbers, before any remainder is taken. -/
def rowProduct (xs ys : List Nat) : Nat := (List.zipWith (· * ·) xs ys).sum

theorem dotMod_eq (xs ys : List Nat) : dotMod xs ys = rowProduct xs ys % abftP := by
  rw [dotMod, sumMod_eq, sum_map_mod_congr fun _ _ => Nat.mod_mod .., List.map_zip_eq_zipWith]
  rfl

theorem rowProduct_comm (xs ys : List Nat) : rowProduct xs ys = rowProduct ys xs :=
  congrArg List.sum (List.zipWith_comm_of_comm Nat.mul_comm)

theorem rowProduct_cons (x y : Nat) (xs ys : List Nat) : rowProduct (x :: xs) (y :: ys) = x * y + rowProduct xs ys := List.sum_cons

/-- The product of two rows goes by parts of one length. -/
theorem rowProduct_append {xs ys : List Nat} (xs' ys' : List Nat) (h : xs.length = ys.length) :
    rowProduct (xs ++ xs') (ys ++ ys') = rowProduct xs ys + rowProduct xs' ys' := by
  rw [rowProduct, List.zipWith_append h, List.sum_append_nat]
  rfl

/-- The product of two rows, by the places of the first; a place that the second does not have counts as zero. -/
theorem rowProduct_eq_sum_getD (xs ys : List Nat) :
    rowProduct xs ys = ((List.range xs.length).map fun k => xs.getD k 0 * ys.getD k 0).sum := by
  induction xs generalizing ys with
  | nil => rfl
  | cons x xs ih =>
    cases ys with
    | nil => exact (sum_map_zero fun _ _ => Nat.mul_zero _).symm
    | cons y ys =>
      rw [rowProduct_cons, ih, List.length_cons, sum_map_range_succ]
      rfl

/-- A place of the sum of rows none of which is longer than the range summed. -/
theorem sumRows_getD {n : Nat} {rs : List (List Nat)} (h : ∀ r ∈ rs, r.length ≤ n) (k : Nat) :
    (sumRows n rs).getD k 0 = (rs.map fun r => r.getD k 0).sum % abftP := by
  by_cases hk : k < n
  case pos =>
    rw [sumRows, List.getD_eq_getElem?_getD, List.getElem?_map, List.getElem?_range hk, Option.map_some, Option.getD_some, sumMod_eq]
  case neg =>
    have hzero : ∀ r ∈ rs, r.getD k 0 = 0 := fun r hr => by
      rw [List.getD_eq_getElem?_getD, List.getElem?_eq_none (Nat.le_trans (h r hr) (Nat.le_of_not_lt hk)), Option.getD_none]
    have hlen : (sumRows n rs).length ≤ k := by rw [sumRows, List.length_map, List.length_range]; exact Nat.le_of_not_lt hk
    rw [sum_map_zero hzero, List.getD_eq_getElem?_getD, List.getElem?_eq_none hlen, Option.getD_none, Nat.zero_mod]

/-- The product of a row with a sum of rows, place by place, is the sum of the products. -/
theorem sum_mul_sum_getD (xs : List Nat) (rs : List (List Nat)) :
    ((List.range xs.length).map fun k => xs.getD k 0 * (rs.map fun r => r.getD k 0).sum).sum = (rs.map (rowProduct xs)).sum := by
  induction rs with
  | nil => exact sum_map_zero fun _ _ => Nat.mul_zero _
  | cons r rs ih =>
    simp only [List.map_cons, List.sum_cons, Nat.mul_add]
    rw [sum_map_add_nat, ih, rowProduct_eq_sum_getD]

/-- What a reference of one row or column is worth (03 R107). -/
theorem dotMod_sumRows (xs : List Nat) {n : Nat} {rs : List (List Nat)} (h : ∀ r ∈ rs, r.length ≤ n) :
    dotMod xs (sumRows n rs) = (rs.map (rowProduct xs)).sum % abftP := by
  have hplace : ∀ k ∈ List.range xs.length, xs.getD k 0 * (sumRows n rs).getD k 0 % abftP =
      xs.getD k 0 * (rs.map fun r => r.getD k 0).sum % abftP := fun k _ => by rw [sumRows_getD h, Nat.mul_mod_mod]
  rw [dotMod_eq, rowProduct_eq_sum_getD, sum_map_mod_congr hplace, sum_mul_sum_getD]

/-! Blocks and operand rows. -/

/-- The shape of an operand row: the numbers of elements of its blocks. -/
def rowShape (bs : List Block) : List Nat := bs.map fun b => b.elems.length

theorem exactElems_length (b : Block) : (exactElems b).length = b.elems.length := by
  unfold exactElems
  split <;> exact List.length_map _

theorem elemResidues_cons (b : Block) (bs : List Block) : elemResidues (b :: bs) = (exactElems b).map residue ++ elemResidues bs := rfl

theorem elemResidues_length (bs : List Block) : (elemResidues bs).length = (rowShape bs).sum := by
  induction bs with
  | nil => rfl
  | cons b bs ih =>
    rw [elemResidues_cons, List.length_append, List.length_map, exactElems_length, ih]
    exact List.sum_cons.symm

/-- The residue of a sum of products follows the residues of its terms. -/
theorem residue_foldl_dyAdd (ws as : List Dyadic) (s : Dyadic) :
    residue ((ws.zip as).foldl (fun s e => dyAdd s (dyMul e.1 e.2)) s) =
      (residue s + rowProduct (ws.map residue) (as.map residue)) % abftP := by
  induction ws generalizing as s with
  | nil => exact (residue_mod s).symm
  | cons w ws ih =>
    cases as with
    | nil => exact (residue_mod s).symm
    | cons a as =>
      rw [List.zip_cons_cons, List.foldl_cons, ih, residue_dyAdd, residue_dyMul, List.map_cons, List.map_cons, rowProduct_cons, Nat.mod_add_mod,
        Nat.add_right_comm, Nat.add_mod_mod, Nat.add_right_comm, Nat.add_assoc]

theorem residue_exactBlock (w a : Block) :
    residue (exactBlock w a) = rowProduct ((exactElems w).map residue) ((exactElems a).map residue) % abftP := by
  rw [exactBlock, residue_foldl_dyAdd, residue_zero, Nat.zero_add]

/-- The block values of two operand rows of one shape sum to the product of the rows' residues. -/
theorem sumMod_exactBlock {ws as : List Block} (h : rowShape ws = rowShape as) :
    sumMod ((ws.zip as).map fun e => residue (exactBlock e.1 e.2)) = rowProduct (elemResidues ws) (elemResidues as) % abftP := by
  rw [sumMod_eq]
  induction ws generalizing as with
  | nil => rfl
  | cons w ws ih =>
    cases as with
    | nil => cases h
    | cons a as =>
      obtain ⟨hhead, hrest⟩ := List.cons.inj h
      have hlen : ((exactElems w).map residue).length = ((exactElems a).map residue).length := by
        rw [List.length_map, List.length_map, exactElems_length, exactElems_length]
        exact hhead
      rw [elemResidues_cons, elemResidues_cons, rowProduct_append _ _ hlen, List.zip_cons_cons, List.map_cons, List.sum_cons, residue_exactBlock,
        Nat.mod_add_mod, Nat.add_mod, ih hrest, ← Nat.add_mod]

/-! What errors of block values add (03 R112). -/

/-- One error adds its residue to the block value that it hits and nothing to the others. -/
theorem errorAt_singleton (x : BlockError) (m n : Nat) :
    errorAt [x] m n = if x.pos = m ∧ x.lane = n then residue { m := x.diff, e := x.exp } else 0 := by
  have hfilter : (x.pos == m && x.lane == n) = decide (x.pos = m ∧ x.lane = n) := by rw [Bool.decide_and]; rfl
  rw [errorAt, List.filter_cons, hfilter, List.filter_nil]
  by_cases h : x.pos = m ∧ x.lane = n
  case pos =>
    rw [if_pos (decide_eq_true h), if_pos h, sumMod_eq, List.map_cons, List.sum_cons]
    exact residue_mod _
  case neg =>
    rw [if_neg (fun hd => h (of_decide_eq_true hd)), if_neg h]
    rfl

/-! The checks of a tile whose operand rows have one shape. -/

/-- An error that is added shows unless it is 0 modulo p. -/
theorem add_bne_iff (a e : Nat) : ((a + e) % abftP != a % abftP) = true ↔ e % abftP ≠ 0 := by
  rw [bne_iff_ne, abftP]
  omega

/-- A check compares observations of a line of block values with the line's reference; when each observation is its product of residues and an error,
it fails just when the errors do not cancel. -/
theorem check_fails_iff {K : Nat} {xs : List Nat} {rs : List (List Block)} {obs err : Nat → Nat} (hlen : ∀ r ∈ rs.map elemResidues, r.length ≤ K)
    (hobs : ∀ i < rs.length, obs i = (rowProduct xs (elemResidues (rs.getD i [])) + err i) % abftP) :
    (sumMod ((List.range rs.length).map obs) != dotMod xs (sumRows K (rs.map elemResidues))) = true ↔
      ((List.range rs.length).map err).sum % abftP ≠ 0 := by
  have hplaces : ((List.range rs.length).map fun i => rowProduct xs (elemResidues (rs.getD i []))) = (rs.map elemResidues).map (rowProduct xs) := by
    conv => rhs; rw [← map_range_getD [] rs, List.map_map, List.map_map]
    rfl
  have hobserved : sumMod ((List.range rs.length).map obs) =
      (((rs.map elemResidues).map (rowProduct xs)).sum + ((List.range rs.length).map err).sum) % abftP := by
    rw [sumMod_eq, ← hplaces, ← sum_map_add_nat]
    exact sum_map_mod_congr fun i hi => by rw [hobs i (List.mem_range.mp hi), Nat.mod_mod]
  rw [hobserved, dotMod_sumRows xs hlen, add_bne_iff]

section
variable {ws as : List (List Block)} {shape : List Nat} (hw : ∀ w ∈ ws, rowShape w = shape) (ha : ∀ a ∈ as, rowShape a = shape)

theorem rowShape_getD {rs : List (List Block)} (h : ∀ r ∈ rs, rowShape r = shape) {i : Nat} (hi : i < rs.length) : rowShape (rs.getD i []) = shape := by
  rw [List.getD_eq_getElem?_getD, List.getElem?_eq_getElem hi]
  exact h _ (List.getElem_mem hi)

include ha in
theorem kRange_eq_shape_sum (hne : as ≠ []) : kRange as = shape.sum := by
  cases as with
  | nil => exact absurd rfl hne
  | cons a as =>
    rw [← ha a List.mem_cons_self, List.sum_eq_foldl_nat]
    rfl

include ha in
/-- No operand row of the tile's shape passes the K range. -/
theorem elemResidues_length_le {rs : List (List Block)} (hr : ∀ r ∈ rs, rowShape r = shape) (hne : as ≠ []) :
    ∀ x ∈ rs.map elemResidues, x.length ≤ kRange as := by
  intro x hx
  obtain ⟨r, hmem, rfl⟩ := List.mem_map.mp hx
  exact Nat.le_of_eq (by rw [elemResidues_length, hr r hmem, kRange_eq_shape_sum ha hne])

include hw ha in
theorem observed_eq (errs : List BlockError) {m n : Nat} (hm : m < as.length) (hn : n < ws.length) :
    observed ws as errs m n = (rowProduct (elemResidues (as.getD m [])) (elemResidues (ws.getD n [])) + errorAt errs m n) % abftP := by
  rw [observed, sumMod_exactBlock ((rowShape_getD hw hn).trans (rowShape_getD ha hm).symm), Nat.mod_add_mod, rowProduct_comm]

include hw ha in
/-- A row check fails just when the errors of its position do not cancel. -/
theorem rowFails_iff (errs : List BlockError) {m : Nat} (hm : m < as.length) :
    rowFails ws as errs m = true ↔ ((List.range ws.length).map (errorAt errs m)).sum % abftP ≠ 0 :=
  check_fails_iff (elemResidues_length_le ha hw (List.ne_nil_of_length_pos (Nat.zero_lt_of_lt hm))) fun _ hn => observed_eq hw ha errs hm hn

include hw ha in
/-- A column check fails just when the errors of its output column do not cancel. -/
theorem colFails_iff (errs : List BlockError) {n : Nat} (hn : n < ws.length) :
    colFails ws as errs n = true ↔ ((List.range as.length).map fun m => errorAt errs m n).sum % abftP ≠ 0 := by
  have hlen : ∀ r ∈ as.map elemResidues, r.length ≤ kRange as := fun r hr =>
    elemResidues_length_le ha ha (fun hnil => List.ne_nil_of_mem hr (congrArg (List.map elemResidues) hnil)) r hr
  rw [colFails, dotMod_eq, rowProduct_comm, ← dotMod_eq]
  exact check_fails_iff hlen fun m hm => (observed_eq hw ha errs hm hn).trans (by rw [rowProduct_comm])

include hw ha in
/-- Without faults every check passes. -/
theorem abftFails_nil : abftFails ws as [] = (false, false) := by
  have hrow : (List.range as.length).any (rowFails ws as []) = false := List.any_eq_false.mpr fun m hm hfails =>
    (rowFails_iff hw ha [] (List.mem_range.mp hm)).mp hfails (congrArg (· % abftP) (sum_map_zero fun _ _ => rfl))
  have hcol : (List.range ws.length).any (colFails ws as []) = false := List.any_eq_false.mpr fun n hn hfails =>
    (colFails_iff hw ha [] (List.mem_range.mp hn)).mp hfails (congrArg (· % abftP) (sum_map_zero fun _ _ => rfl))
  rw [abftFails, hrow, hcol]

include hw ha in
/-- One error of a residue other than 0 fails the row check of its position and the column check of its output column (03 R112). -/
theorem checks_fail_of_singleton {x : BlockError} (hpos : x.pos < as.length) (hlane : x.lane < ws.length)
    (hx : residue { m := x.diff, e := x.exp } ≠ 0) : rowFails ws as [x] x.pos = true ∧ colFails ws as [x] x.lane = true := by
  have hrow : errorAt [x] x.pos = fun n => if x.lane = n then residue { m := x.diff, e := x.exp } else 0 :=
    funext fun n => by simp only [errorAt_singleton, true_and]
  have hcol : (fun m => errorAt [x] m x.lane) = fun m => if x.pos = m then residue { m := x.diff, e := x.exp } else 0 :=
    funext fun m => by simp only [errorAt_singleton, and_true]
  rw [rowFails_iff hw ha [x] hpos, colFails_iff hw ha [x] hlane, hrow, hcol, sum_map_range_ite _ hlane, sum_map_range_ite _ hpos, residue_mod]
  exact ⟨hx, hx⟩

end

/-- Settles O50: both sides of a check are one double sum of products of residues modulo p, so that a check compares the errors of its row or
column with zero. -/
theorem residueChecksCatchErrors : Obligations.ResidueChecksCatchErrors := by
  refine ⟨fun _ _ => rfl, residue_shift, fun x y => ⟨residue_dyAdd x y, residue_dyMul x y⟩, fun ws as shape hw ha => ⟨abftFails_nil hw ha, ?_⟩⟩
  exact fun x hpos hlane hx => checks_fail_of_singleton hw ha hpos hlane hx

end Sys2Proof.Machine

/-! Token buckets: what a refill does to one bucket, and refills in succession (11 R428). -/

namespace Sys2Proof.Machine

/-- The level stays cut off at the depth, so the ticks of refills in succession add up. -/
theorem refillBucket_refillBucket (m n : Nat) (b : TenantTraffic) : refillBucket n (refillBucket m b) = refillBucket (m + n) b := by
  have hlevel : min (min (b.level + m * b.rate) (fullLevel b.depth) + n * b.rate) (fullLevel b.depth)
      = min (b.level + (m + n) * b.rate) (fullLevel b.depth) := by
    rw [Nat.add_mul]
    omega
  simp only [refillBucket, hlevel]

theorem exec_tokenRefill (s : State) : exec .tokenRefill s = .next (refill s) := rfl

@[simp] theorem refill_lastRefill (s : State) : (refill s).traffic.lastRefill = s.now := rfl

theorem refill_tenants_get (s : State) (k : Nat) : (refill s).traffic.tenants.get? k =
    (s.traffic.tenants.get? k).map (refillBucket (s.now - s.traffic.lastRefill)) := tab_get_map _ _ _

/-- A refill n ticks after another leaves each bucket as one refill over all the ticks since the last refill before them. -/
theorem refill_refill_tenants_get {s : State} (h : s.traffic.lastRefill ≤ s.now) (n k : Nat) :
    (refill { refill s with now := s.now + n }).traffic.tenants.get? k =
      (s.traffic.tenants.get? k).map (refillBucket (s.now + n - s.traffic.lastRefill)) := by
  have hticks : s.now - s.traffic.lastRefill + n = s.now + n - s.traffic.lastRefill := (Nat.sub_add_comm h).symm
  have hcomp : refillBucket n ∘ refillBucket (s.now - s.traffic.lastRefill) = refillBucket (s.now + n - s.traffic.lastRefill) :=
    funext fun b => (refillBucket_refillBucket _ _ b).trans (by rw [hticks])
  rw [refill_tenants_get, refill_lastRefill, refill_tenants_get, Nat.add_sub_cancel_left, Option.map_map, hcomp]

/-- Settles O58: a refill maps every bucket by the ticks since the last refill, and the cut at the depth commutes with adding up those ticks. -/
theorem tokensRefillAtTheirRate : Obligations.TokensRefillAtTheirRate := by
  refine ⟨fun s hnow => ⟨refill s, exec_tokenRefill s, (refill_steady s).only, refill_lastRefill s, fun k b hb => ?_⟩,
    fun s t u k b n ht hb _ hle hu => ?_⟩
  · have hone : s.now - s.traffic.lastRefill = 1 := hnow ▸ Nat.add_sub_cancel_left _ _
    rw [refill_tenants_get, hb, hone, Option.map_some, refillBucket, Nat.one_mul, fullLevel]
  · cases ht
    cases hu
    rw [refill_refill_tenants_get hle, hb]
    rfl

end Sys2Proof.Machine

/-! Messages of cells under the map epoch (13 R504). -/

namespace Sys2Proof.Machine

theorem exec_meshMessageReceive (cell epoch : Nat) (s : State) :
    exec (.meshMessageReceive cell epoch) s = execMeshMessageReceive cell epoch s := rfl

theorem logFault_integ_log (s : State) (kind station cell attempt object detail : Nat) :
    (logFault s kind station cell attempt object detail).integ.log =
      (s.integ.log ++ [faultRec s kind station cell attempt object detail]).drop (s.integ.log.length + 1 - 1024) := by
  unfold logFault
  dsimp only
  split <;> simp

theorem logFault_integ_logCount (s : State) (kind station cell attempt object detail : Nat) :
    (logFault s kind station cell attempt object detail).integ.logCount = (s.integ.logCount + 1) % 2 ^ 64 := by
  unfold logFault
  dsimp only
  split <;> simp

/-- A message that R504 discards: it is counted, INT_EVENT.STALE_MAP is set and a record of kind 0x09 enters the fault log. -/
def staleMapDiscard (s : State) (cell epoch : Nat) : State :=
  logFault (intEvent (s.integM fun i => { i with staleMap := wrapInc 32 i.staleMap }) 5) 0x09 cell 0xFF 0 0 epoch

section
variable {s : State} {cell epoch : Nat} (hclock : s.lan.refclk = true) (hcell : cell < 144)
include hclock hcell

/-- With its clock running, the mesh discards what a cell sends under another epoch, unless the cell's own router drops it (03 R120). -/
theorem exec_meshMessageReceive_eq : exec (.meshMessageReceive cell epoch) s =
    when ((s.cell cell).state != .retired && (s.cell cell).state != .failed && epoch != s.lpe.epoch) s (staleMapDiscard s cell epoch) := by
  rw [exec_meshMessageReceive, execMeshMessageReceive, formed, decide_eq_true hcell, if_pos rfl, clocked_on hclock]
  rfl

theorem exec_meshMessageReceive_current (hepoch : epoch = s.lpe.epoch) : exec (.meshMessageReceive cell epoch) s = .next s := by
  rw [exec_meshMessageReceive_eq hclock hcell, bne_eq_false_iff_eq.mpr hepoch, Bool.and_false]
  rfl

theorem exec_meshMessageReceive_stale (hretired : (s.cell cell).state ≠ .retired) (hfailed : (s.cell cell).state ≠ .failed)
    (hepoch : epoch ≠ s.lpe.epoch) : exec (.meshMessageReceive cell epoch) s = .next (staleMapDiscard s cell epoch) := by
  rw [exec_meshMessageReceive_eq hclock hcell, bne_iff_ne.mpr hretired, bne_iff_ne.mpr hfailed, bne_iff_ne.mpr hepoch]
  rfl

end

theorem staleMapDiscard_staleMap (s : State) (cell epoch : Nat) :
    (staleMapDiscard s cell epoch).integ.staleMap = wrapInc 32 s.integ.staleMap := by
  rw [staleMapDiscard, logFault_integ_staleMap]
  rfl

theorem staleMapDiscard_event (s : State) (cell epoch : Nat) : bitAt (staleMapDiscard s cell epoch).integ.event 5 = true := by
  rw [staleMapDiscard, logFault_integ_event]
  exact bitAt_or_same _ _

/-- The record holds the tick, the epochs and the number that the log had when the message came. -/
theorem staleMapDiscard_log (s : State) (cell epoch : Nat) : (staleMapDiscard s cell epoch).integ.log =
    (s.integ.log ++ [faultRec s 0x09 cell 0xFF 0 0 epoch]).drop (s.integ.log.length + 1 - 1024) := by
  rw [staleMapDiscard, logFault_integ_log]
  rfl

theorem staleMapDiscard_logCount (s : State) (cell epoch : Nat) :
    (staleMapDiscard s cell epoch).integ.logCount = (s.integ.logCount + 1) % 2 ^ 64 := by
  rw [staleMapDiscard, logFault_integ_logCount]
  rfl

/-- Settles O57: the message either changes nothing or runs `staleMapDiscard`, by the epoch that it carries. -/
theorem staleMapMessagesDiscarded : Obligations.StaleMapMessagesDiscarded := by
  refine ⟨fun s cell epoch hclock hcell hretired hfailed hepoch => ?_, fun s cell epoch => exec_meshMessageReceive_current⟩
  have hexec := exec_meshMessageReceive_stale hclock hcell hretired hfailed hepoch
  exact ⟨staleMapDiscard s cell epoch, hexec, staleMapDiscard_staleMap s cell epoch, staleMapDiscard_event s cell epoch,
    staleMapDiscard_log s cell epoch, staleMapDiscard_logCount s cell epoch, exec_confined hexec⟩

end Sys2Proof.Machine

/-! GF(16) (13 R479): the laws of its multiplication, for all natural numbers, of which it reads the low four bits. -/

namespace Sys2Proof.Machine

theorem xor_cancel_left (x y : Nat) : x ^^^ (x ^^^ y) = y := by rw [← Nat.xor_assoc, Nat.xor_self, Nat.zero_xor]

theorem xor_cancel_right (x y : Nat) : (x ^^^ y) ^^^ y = x := by rw [Nat.xor_assoc, Nat.xor_self, Nat.xor_zero]

theorem xor_swap_left (x y z : Nat) : x ^^^ (y ^^^ z) = y ^^^ (x ^^^ z) := by rw [← Nat.xor_assoc, Nat.xor_comm x y, Nat.xor_assoc]

theorem xor_eq_zero_iff_eq {x y : Nat} : x ^^^ y = 0 ↔ x = y := by
  constructor
  · intro h
    rw [← xor_cancel_right x y, h, Nat.zero_xor]
  · rintro rfl
    exact Nat.xor_self x

theorem xor_lt_16 {a b : Nat} (ha : a < 16) (hb : b < 16) : a ^^^ b < 16 := Nat.xor_lt_two_pow (n := 4) ha hb

theorem xor_mod_16 (a b : Nat) : (a ^^^ b) % 16 = a % 16 ^^^ b % 16 := Nat.xor_mod_two_pow (n := 4)

/-- A choice against zero goes by the terms of a sum. -/
theorem ite_xor_zero (c : Bool) (x y : Nat) : (if c then x ^^^ y else 0) = (if c then x else 0) ^^^ (if c then y else 0) := by
  cases c
  · exact (Nat.xor_self 0).symm
  · rfl

theorem gf16Double_mod (a : Nat) : gf16Double (a % 16) = gf16Double a := by
  rw [gf16Double, gf16Double, Nat.mod_mod, Nat.mul_mod_mod]

theorem gf16Double_lt (a : Nat) : gf16Double a < 16 := by
  have hlow : 2 * a % 16 < 16 := Nat.mod_lt _ (by decide)
  unfold gf16Double
  split
  · exact xor_lt_16 hlow (by decide)
  · exact hlow

theorem gf16Double_xor (a b : Nat) : gf16Double (a ^^^ b) = gf16Double a ^^^ gf16Double b := by
  have hsymbols : ∀ x < 16, ∀ y < 16, gf16Double (x ^^^ y) = gf16Double x ^^^ gf16Double y := by decide +kernel
  rw [← gf16Double_mod (a ^^^ b), xor_mod_16, hsymbols _ (Nat.mod_lt a (by decide)) _ (Nat.mod_lt b (by decide)), gf16Double_mod, gf16Double_mod]

theorem gf16Double_ite (c : Bool) (x : Nat) : gf16Double (if c then x else 0) = if c then gf16Double x else 0 := by
  cases c <;> rfl

theorem gf16Mul_lt (a b : Nat) : gf16Mul a b < 16 := by
  have hite : ∀ (c : Bool) {x : Nat}, x < 16 → (if c then x else 0) < 16 := fun c x hx => by
    cases c
    · exact Nat.zero_lt_succ 15
    · exact hx
  exact xor_lt_16 (xor_lt_16 (xor_lt_16 (hite _ (Nat.mod_lt a (by decide))) (hite _ (gf16Double_lt _))) (hite _ (gf16Double_lt _)))
    (hite _ (gf16Double_lt _))

theorem bitAt_mod_16 {i : Nat} (hi : i < 4) (b : Nat) : bitAt (b % 16) i = bitAt b i := by
  rw [bitAt_testBit, bitAt_testBit, Nat.testBit_mod_two_pow (j := 4), decide_eq_true hi, Bool.true_and]

theorem gf16Mul_mod (a b : Nat) : gf16Mul (a % 16) (b % 16) = gf16Mul a b := by
  simp only [gf16Mul, gf16Double_mod, Nat.mod_mod, bitAt_mod_16, Nat.reduceLT]

theorem gf16Mul_comm (a b : Nat) : gf16Mul a b = gf16Mul b a := by
  have hsymbols : ∀ x < 16, ∀ y < 16, gf16Mul x y = gf16Mul y x := by decide +kernel
  rw [← gf16Mul_mod a b, hsymbols _ (Nat.mod_lt a (by decide)) _ (Nat.mod_lt b (by decide)), gf16Mul_mod]

@[simp] theorem gf16Mul_zero (a : Nat) : gf16Mul a 0 = 0 := by simp [gf16Mul, bitAt]

@[simp] theorem zero_gf16Mul (a : Nat) : gf16Mul 0 a = 0 := (gf16Mul_comm 0 a).trans (gf16Mul_zero a)

theorem gf16Mul_one {a : Nat} (ha : a < 16) : gf16Mul a 1 = a := by simp [gf16Mul, bitAt, Nat.mod_eq_of_lt ha]

theorem one_gf16Mul {a : Nat} (ha : a < 16) : gf16Mul 1 a = a := (gf16Mul_comm 1 a).trans (gf16Mul_one ha)

theorem xor_gf16Mul (a b c : Nat) : gf16Mul (a ^^^ b) c = gf16Mul a c ^^^ gf16Mul b c := by
  simp only [gf16Mul, xor_mod_16, gf16Double_xor, ite_xor_zero]
  ac_rfl

theorem gf16Mul_xor (a b c : Nat) : gf16Mul a (b ^^^ c) = gf16Mul a b ^^^ gf16Mul a c := by
  rw [gf16Mul_comm, xor_gf16Mul, gf16Mul_comm b, gf16Mul_comm c]

/-- Multiplication by x passes out of a product. -/
theorem gf16Double_gf16Mul (a b : Nat) : gf16Mul (gf16Double a) b = gf16Double (gf16Mul a b) := by
  simp only [gf16Mul, gf16Double_xor, gf16Double_ite, gf16Double_mod, Nat.mod_eq_of_lt (gf16Double_lt a)]

/-- A product is a sum of doublings of its first factor, chosen by the bits of the second, and doublings pass out of products. -/
theorem gf16Mul_right_comm (a b c : Nat) : gf16Mul (gf16Mul a b) c = gf16Mul (gf16Mul a c) b := by
  have hite : ∀ (k : Bool) (x : Nat), gf16Mul (if k then x else 0) c = if k then gf16Mul x c else 0 := fun k x => by
    cases k
    · exact zero_gf16Mul c
    · rfl
  have hlow : gf16Mul (a % 16) c = gf16Mul a c := by rw [← gf16Mul_mod, Nat.mod_mod, gf16Mul_mod]
  conv => lhs; rw [gf16Mul.eq_def a b]
  conv => rhs; rw [gf16Mul.eq_def _ b]
  simp only [xor_gf16Mul, hite, gf16Double_gf16Mul, hlow, Nat.mod_eq_of_lt (gf16Mul_lt a c)]

theorem gf16Mul_assoc (a b c : Nat) : gf16Mul (gf16Mul a b) c = gf16Mul a (gf16Mul b c) := by
  rw [gf16Mul_comm a b, gf16Mul_right_comm, gf16Mul_comm]

theorem gf16Mul_left_comm (a b c : Nat) : gf16Mul a (gf16Mul b c) = gf16Mul b (gf16Mul a c) := by
  rw [← gf16Mul_assoc, gf16Mul_comm a b, gf16Mul_assoc]

theorem gf16Mul_gf16Inv {a : Nat} (h0 : a ≠ 0) (ha : a < 16) : gf16Mul a (gf16Inv a) = 1 := by
  have hsymbols : ∀ x < 16, x ≠ 0 → gf16Mul x (gf16Inv x) = 1 := by decide +kernel
  exact hsymbols a ha h0

theorem gf16Div_lt (a b : Nat) : gf16Div a b < 16 := gf16Mul_lt _ _

/-- Division undoes multiplication. -/
theorem gf16Div_gf16Mul {x a : Nat} (h0 : x ≠ 0) (hx : x < 16) (ha : a < 16) : gf16Div (gf16Mul x a) x = a := by
  rw [gf16Div, gf16Mul_right_comm, gf16Mul_gf16Inv h0 hx, one_gf16Mul ha]

/-- Multiplication undoes division. -/
theorem gf16Mul_gf16Div {x a : Nat} (h0 : x ≠ 0) (hx : x < 16) (ha : a < 16) : gf16Mul x (gf16Div a x) = a := by
  rw [gf16Div, gf16Mul_left_comm, gf16Mul_gf16Inv h0 hx, gf16Mul_one ha]

theorem gf16Mul_ne_zero {a b : Nat} (ha0 : a ≠ 0) (ha : a < 16) (hb0 : b ≠ 0) (hb : b < 16) : gf16Mul a b ≠ 0 := by
  intro hzero
  have hdiv := gf16Div_gf16Mul ha0 ha hb
  rw [hzero] at hdiv
  exact hb0 (hdiv.symm.trans (zero_gf16Mul _))

end Sys2Proof.Machine

/-! The quadric of the code columns (13 Table 13-1): its form takes the value 0 at the pair (0, 0) alone, so that no line meets it in a third point. -/

namespace Sys2Proof.Machine

theorem quadric_ne_zero {a b : Nat} (ha : a < 16) (hb : b < 16) (h : (a, b) ≠ (0, 0)) : quadric a b ≠ 0 := by
  have hsymbols : ∀ x < 16, ∀ y < 16, (x, y) ≠ (0, 0) → quadric x y ≠ 0 := by decide +kernel
  exact hsymbols a ha b hb h

theorem quadric_lt (a b : Nat) : quadric a b < 16 :=
  xor_lt_16 (xor_lt_16 (gf16Mul_lt _ _) (gf16Mul_lt _ _)) (gf16Mul_lt _ _)

/-- The form at a sum of two pairs adds a mixed term. -/
theorem quadric_xor (a b c d : Nat) :
    quadric (a ^^^ c) (b ^^^ d) = quadric a b ^^^ (gf16Mul a d ^^^ gf16Mul c b) ^^^ quadric c d := by
  simp only [quadric, gf16Mul_xor, gf16Mul_comm, Nat.xor_assoc, xor_swap_left, Nat.xor_comm, xor_cancel_left]

theorem quadric_scale (u a b : Nat) : quadric (gf16Mul u a) (gf16Mul u b) = gf16Mul u (gf16Mul u (quadric a b)) := by
  simp only [quadric, gf16Mul_xor, gf16Mul_left_comm, gf16Mul_comm]

/-- A point of the line through two points of the quadric, other than these two, is not on the quadric: there the form differs from the value on the
line by u · (1 + u) times the form at the direction of the line. -/
theorem quadric_ne_on_line {u a b c d : Nat} (hu0 : u ≠ 0) (hu1 : u ≠ 1) (hu : u < 16) (hc : c < 16) (hd : d < 16) (hcd : (c, d) ≠ (0, 0)) :
    quadric a b ^^^ gf16Mul u (quadric a b ^^^ quadric (a ^^^ c) (b ^^^ d)) ≠ quadric (a ^^^ gf16Mul u c) (b ^^^ gf16Mul u d) := by
  have hdiff : quadric a b ^^^ gf16Mul u (quadric a b ^^^ quadric (a ^^^ c) (b ^^^ d)) ^^^ quadric (a ^^^ gf16Mul u c) (b ^^^ gf16Mul u d) =
      gf16Mul u (gf16Mul (1 ^^^ u) (quadric c d)) := by
    have hone : gf16Mul (1 ^^^ u) (quadric c d) = quadric c d ^^^ gf16Mul u (quadric c d) := by
      rw [xor_gf16Mul, one_gf16Mul (quadric_lt c d)]
    rw [hone, quadric_xor a b c d, quadric_xor a b (gf16Mul u c) (gf16Mul u d), quadric_scale]
    simp only [gf16Mul_xor, gf16Mul_assoc, gf16Mul_left_comm, Nat.xor_assoc, xor_swap_left, Nat.xor_comm, xor_cancel_left]
  have hrest : gf16Mul (1 ^^^ u) (quadric c d) ≠ 0 :=
    gf16Mul_ne_zero (mt xor_eq_zero_iff_eq.mp hu1.symm) (xor_lt_16 (by decide) hu) (quadric_ne_zero hc hd hcd) (quadric_lt c d)
  refine mt xor_eq_zero_iff_eq.mpr ?_
  rw [hdiff]
  exact gf16Mul_ne_zero hu0 hu hrest (gf16Mul_lt _ _)

end Sys2Proof.Machine

/-! Vectors over GF(16), symbols of a word, and the syndrome as a linear map (13 R478, R479). -/

namespace Sys2Proof.Machine

theorem gf4Add_assoc (t u v : Gf4) : gf4Add (gf4Add t u) v = gf4Add t (gf4Add u v) := by
  simp only [gf4Add, Nat.xor_assoc]

theorem gf4Add_left_comm (t u v : Gf4) : gf4Add t (gf4Add u v) = gf4Add u (gf4Add t v) := by
  simp only [gf4Add, xor_swap_left]

@[simp] theorem gf4Add_zero (t : Gf4) : gf4Add t (0, 0, 0, 0) = t := by simp only [gf4Add, Nat.xor_zero]

@[simp] theorem zero_gf4Add (t : Gf4) : gf4Add (0, 0, 0, 0) t = t := by simp only [gf4Add, Nat.zero_xor]

@[simp] theorem zero_gf4Scale (t : Gf4) : gf4Scale 0 t = (0, 0, 0, 0) := by simp only [gf4Scale, zero_gf16Mul]

theorem xor_gf4Scale (j k : Nat) (t : Gf4) : gf4Scale (j ^^^ k) t = gf4Add (gf4Scale j t) (gf4Scale k t) := by
  simp only [gf4Scale, gf4Add, xor_gf16Mul]

theorem symbolOf_xor (v w s : Nat) : symbolOf (v ^^^ w) s = symbolOf v s ^^^ symbolOf w s := by
  have hpow : 16 ^ s = 2 ^ (4 * s) := by rw [Nat.pow_mul]
  rw [symbolOf, hpow, Nat.xor_div_two_pow, xor_mod_16, ← hpow]
  rfl

/-- Symbols below the place of a multiple of 16^n do not see it. -/
theorem symbolOf_add_mul_of_lt {i n : Nat} (h : i < n) (v w : Nat) : symbolOf (v + w * 16 ^ n) i = symbolOf v i := by
  obtain ⟨k, rfl⟩ := Nat.exists_eq_add_of_lt h
  have hplace : v + w * 16 ^ (i + k + 1) = v + 16 ^ i * (16 * (w * 16 ^ k)) := by
    rw [Nat.pow_succ, Nat.pow_add]
    ac_rfl
  rw [symbolOf, hplace, Nat.add_mul_div_left _ _ (Nat.pow_pos (by decide)), Nat.add_mul_mod_self_left]
  rfl

/-- Symbols from the place of a multiple of 16^n on are its symbols, over a word that is shorter. -/
theorem symbolOf_add_mul_of_le {n v : Nat} (hv : v < 16 ^ n) (w i : Nat) : symbolOf (v + w * 16 ^ n) (n + i) = symbolOf w i := by
  rw [symbolOf, Nat.pow_add, ← Nat.div_div_eq_div_mul, Nat.add_mul_div_right _ _ (Nat.pow_pos (by decide)), Nat.div_eq_of_lt hv, Nat.zero_add]
  rfl

theorem symbolOf_of_lt {e : Nat} (he : e < 16) (i : Nat) : symbolOf e i = if i = 0 then e else 0 := by
  cases i with
  | zero => rw [symbolOf, Nat.pow_zero, Nat.div_one, Nat.mod_eq_of_lt he, if_pos rfl]
  | succ i =>
    have hlt : e < 16 ^ (i + 1) := Nat.lt_of_lt_of_le he (Nat.le_self_pow (Nat.succ_ne_zero i) 16)
    rw [symbolOf, Nat.div_eq_of_lt hlt, if_neg (Nat.succ_ne_zero i)]

/-- The word of one symbol. -/
theorem symbolOf_mul_pow {e : Nat} (he : e < 16) (s i : Nat) : symbolOf (e * 16 ^ s) i = if i = s then e else 0 := by
  rw [← Nat.zero_add (e * 16 ^ s)]
  by_cases hi : i < s
  case pos =>
    rw [symbolOf_add_mul_of_lt hi, symbolOf_of_lt (by decide), if_neg (Nat.ne_of_lt hi), ite_self]
  case neg =>
    obtain ⟨k, rfl⟩ := Nat.exists_eq_add_of_le (Nat.le_of_not_lt hi)
    rw [symbolOf_add_mul_of_le (Nat.pow_pos (by decide)), symbolOf_of_lt he]
    simp only [Nat.add_eq_left]

theorem columnSum_succ (v n : Nat) : columnSum v (n + 1) = gf4Add (columnSum v n) (gf4Scale (symbolOf v n) (column n)) := rfl

theorem columnSum_congr {v w n : Nat} (h : ∀ i < n, symbolOf v i = symbolOf w i) : columnSum v n = columnSum w n := by
  induction n with
  | zero => rfl
  | succ n ih => rw [columnSum_succ, columnSum_succ, ih fun i hi => h i (Nat.lt_succ_of_lt hi), h n (Nat.lt_succ_self n)]

theorem columnSum_xor (v w n : Nat) : columnSum (v ^^^ w) n = gf4Add (columnSum v n) (columnSum w n) := by
  induction n with
  | zero => exact (zero_gf4Add _).symm
  | succ n ih => simp only [columnSum_succ, ih, symbolOf_xor, xor_gf4Scale, gf4Add_assoc, gf4Add_left_comm]

theorem columnSum_mul_pow {e : Nat} (he : e < 16) (s n : Nat) :
    columnSum (e * 16 ^ s) n = if s < n then gf4Scale e (column s) else (0, 0, 0, 0) := by
  induction n with
  | zero => rfl
  | succ n ih =>
    rw [columnSum_succ, ih, symbolOf_mul_pow he]
    obtain hlt | rfl | hgt := Nat.lt_trichotomy s n
    · rw [if_pos hlt, if_neg (Nat.ne_of_gt hlt), zero_gf4Scale, gf4Add_zero, if_pos (Nat.lt_succ_of_lt hlt)]
    · rw [if_neg (Nat.lt_irrefl s), if_pos rfl, zero_gf4Add, if_pos (Nat.lt_succ_self s)]
    · rw [if_neg (Nat.lt_asymm hgt), if_neg (Nat.ne_of_lt hgt), zero_gf4Scale, gf4Add_zero, if_neg (by omega)]

/-- A symbol error adds its multiple of the symbol's column to the syndrome. -/
theorem syndrome_fixSymbol {s e : Nat} (hs : s < 36) (he : e < 16) (v : Nat) :
    syndrome (fixSymbol v s e) = gf4Add (syndrome v) (gf4Scale e (column s)) := by
  rw [fixSymbol, syndrome, columnSum_xor, columnSum_mul_pow he, if_pos hs]
  rfl

theorem fixSymbol_fixSymbol (v s e : Nat) : fixSymbol (fixSymbol v s e) s e = v := xor_cancel_right v _

end Sys2Proof.Machine

/-! What a reader makes of a syndrome (13 R481). -/

namespace Sys2Proof.Machine

theorem columnPair_lt {s a b : Nat} (h : columnPair s = some (a, b)) : s < 35 ∧ a < 16 ∧ b < 4 := by
  unfold columnPair at h
  repeat' split at h
  all_goals cases h <;> omega

theorem columnPair_eq_none {s : Nat} (hs : s < 36) (h : columnPair s = none) : s = 35 := by
  unfold columnPair at h
  repeat' split at h
  all_goals cases h
  omega

/-- No two symbols have one pair. -/
theorem columnPair_inj {r s : Nat} {p : Nat × Nat} (hr : columnPair r = some p) (hs : columnPair s = some p) : r = s := by
  have hsymbols : ∀ i < 35, ∀ j < 35, columnPair i = columnPair j → i = j := by decide +kernel
  exact hsymbols r (columnPair_lt hr).1 s (columnPair_lt hs).1 (hr.trans hs.symm)

theorem find_columnPair {s a b : Nat} (h : columnPair s = some (a, b)) :
    (List.range 35).find? (fun r => columnPair r == some (a, b)) = some s := by
  refine List.find?_range_eq_some.mpr ⟨beq_iff_eq.mpr h, List.mem_range.mpr (columnPair_lt h).1, fun r hr => ?_⟩
  rw [Bool.not_eq_true', beq_eq_false_iff_ne]
  exact fun hpair => Nat.ne_of_lt hr (columnPair_inj hpair h)

/-- The point of the quadric over a pair (13 Table 13-1). -/
def quadricPoint (a b : Nat) : Gf4 := (1, a, b, quadric a b)

theorem column_of_pair {s a b : Nat} (h : columnPair s = some (a, b)) : column s = quadricPoint a b := by
  rw [column, h]
  rfl

theorem gf4Scale_quadricPoint {e : Nat} (he : e < 16) (a b : Nat) :
    gf4Scale e (quadricPoint a b) = (e, gf16Mul e a, gf16Mul e b, gf16Mul e (quadric a b)) := by
  rw [quadricPoint, gf4Scale, gf16Mul_one he]

theorem gf4Scale_column_35 {e : Nat} (he : e < 16) : gf4Scale e (column 35) = (0, 0, 0, e) := by
  rw [show column 35 = (0, 0, 0, 1) from rfl, gf4Scale, gf16Mul_one he, gf16Mul_zero]

theorem classify_clean {v : Nat} (h : syndrome v = (0, 0, 0, 0)) : classify v = .clean := by
  simp only [classify, h, if_true]

theorem classify_check35 {v e : Nat} (h : syndrome v = (0, 0, 0, e)) (he : e ≠ 0) : classify v = .corrected (fixSymbol v 35 e) := by
  simp [classify, h, he]

theorem classify_direction {v a b c : Nat} (h : syndrome v = (0, a, b, c)) (hab : (a, b) ≠ (0, 0)) : classify v = .uncorrectable := by
  have ha : a = 0 → b ≠ 0 := fun ha hb => hab (by rw [ha, hb])
  by_cases h0 : a = 0
  · simp [classify, h, h0, ha h0]
  · simp [classify, h, h0]

/-- A syndrome whose first element is not 0 is read by its ratios to that element. -/
theorem classify_off_quadric {v x a b c : Nat} (h : syndrome v = (x, gf16Mul x a, gf16Mul x b, gf16Mul x c)) (hx0 : x ≠ 0) (hx : x < 16)
    (ha : a < 16) (hb : b < 16) (hc : c < 16) (hoff : c ≠ quadric a b) : classify v = .uncorrectable := by
  simp [classify, h, hx0, gf16Div_gf16Mul hx0 hx, ha, hb, hc, hoff]

theorem classify_tarnish {v x : Nat} (h : syndrome v = gf4Scale x (quadricPoint 0 4)) (hx0 : x ≠ 0) (hx : x < 16) : classify v = .tarnish := by
  have hfst : gf16Div (gf16Mul x 0) x = 0 := gf16Div_gf16Mul hx0 hx (by decide)
  have hsnd : gf16Div (gf16Mul x 4) x = 4 := gf16Div_gf16Mul hx0 hx (by decide)
  rw [gf4Scale_quadricPoint hx] at h
  simp [classify, h, hx0, gf16Div_gf16Mul hx0 hx (quadric_lt 0 4), hfst, hsnd, -gf16Mul_zero]

theorem classify_corrected {v x a b s : Nat} (h : syndrome v = gf4Scale x (quadricPoint a b)) (hx0 : x ≠ 0) (hx : x < 16)
    (hs : columnPair s = some (a, b)) : classify v = .corrected (fixSymbol v s x) := by
  obtain ⟨_, ha, hb⟩ := columnPair_lt hs
  have hb16 : b < 16 := by omega
  have hb4 : b ≠ 4 := by omega
  rw [gf4Scale_quadricPoint hx] at h
  simp [classify, h, hx0, gf16Div_gf16Mul hx0 hx, quadric_lt, ha, hb16, hb4, find_columnPair hs]

/-! Two points of the quadric: no symbol accounts for the sum of a multiple of each (13 R483). -/

/-- Check symbol 35 lies in the direction of the last element, which moves a point off the quadric. -/
theorem classify_point_and_check35 {v a b e f : Nat} (he0 : e ≠ 0) (he : e < 16) (hf0 : f ≠ 0) (hf : f < 16) (ha : a < 16) (hb : b < 16)
    (h : syndrome v = gf4Add (gf4Scale e (quadricPoint a b)) (gf4Scale f (column 35))) : classify v = .uncorrectable := by
  have hlast : gf16Mul e (quadric a b ^^^ gf16Div f e) = gf16Mul e (quadric a b) ^^^ f := by rw [gf16Mul_xor, gf16Mul_gf16Div he0 he hf]
  have hsyndrome : syndrome v = (e, gf16Mul e a, gf16Mul e b, gf16Mul e (quadric a b ^^^ gf16Div f e)) := by
    rw [h, gf4Scale_quadricPoint he, gf4Scale_column_35 hf, hlast]
    simp only [gf4Add, Nat.xor_zero]
  refine classify_off_quadric hsyndrome he0 he ha hb (xor_lt_16 (quadric_lt a b) (gf16Div_lt f e)) fun heq => ?_
  have hzero : gf16Div f e = 0 := by rw [← xor_cancel_left (quadric a b) (gf16Div f e), heq, Nat.xor_self]
  exact hf0 (by rw [← gf16Mul_gf16Div he0 he hf, hzero, gf16Mul_zero])

/-- Two finite points: equal multiples leave a direction, and others a third point of the line through the two. -/
theorem classify_two_points {v a b c d e f : Nat} (he0 : e ≠ 0) (he : e < 16) (hf0 : f ≠ 0) (hf : f < 16) (ha : a < 16) (hb : b < 16)
    (hc : c < 16) (hd : d < 16) (hne : (a, b) ≠ (c, d))
    (h : syndrome v = gf4Add (gf4Scale e (quadricPoint a b)) (gf4Scale f (quadricPoint c d))) : classify v = .uncorrectable := by
  rw [gf4Scale_quadricPoint he, gf4Scale_quadricPoint hf] at h
  simp only [gf4Add] at h
  have hdir : (a ^^^ c, b ^^^ d) ≠ (0, 0) := by
    simpa only [ne_eq, Prod.mk.injEq, xor_eq_zero_iff_eq] using hne
  by_cases hef : e = f
  case pos =>
    subst hef
    rw [Nat.xor_self, ← gf16Mul_xor, ← gf16Mul_xor] at h
    have hmul : ∀ x < 16, gf16Mul e x = 0 → x = 0 := fun x hx hzero =>
      Decidable.byContradiction fun hx0 => gf16Mul_ne_zero he0 he hx0 hx hzero
    refine classify_direction h fun hzero => hdir ?_
    obtain ⟨hfst, hsnd⟩ := Prod.mk.inj hzero
    rw [hmul _ (xor_lt_16 ha hc) hfst, hmul _ (xor_lt_16 hb hd) hsnd]
  case neg =>
    have hx0 : e ^^^ f ≠ 0 := mt xor_eq_zero_iff_eq.mp hef
    have hx : e ^^^ f < 16 := xor_lt_16 he hf
    have hu : gf16Mul (e ^^^ f) (gf16Div f (e ^^^ f)) = f := gf16Mul_gf16Div hx0 hx hf
    have hu0 : gf16Div f (e ^^^ f) ≠ 0 := fun hzero => hf0 (by rw [← hu, hzero, gf16Mul_zero])
    have hu1 : gf16Div f (e ^^^ f) ≠ 1 := fun hone => by
      rw [hone, gf16Mul_one hx] at hu
      exact he0 (by rw [← xor_cancel_right e f, hu, Nat.xor_self])
    have hline : ∀ y z, gf16Mul e y ^^^ gf16Mul f z = gf16Mul (e ^^^ f) (y ^^^ gf16Mul (gf16Div f (e ^^^ f)) (y ^^^ z)) := fun y z => by
      rw [gf16Mul_xor, ← gf16Mul_assoc, hu, xor_gf16Mul, gf16Mul_xor, Nat.xor_assoc, xor_cancel_left]
    rw [hline, hline, hline] at h
    have hoff := quadric_ne_on_line (a := a) (b := b) hu0 hu1 (gf16Div_lt _ _) (xor_lt_16 ha hc) (xor_lt_16 hb hd) hdir
    rw [xor_cancel_left, xor_cancel_left] at hoff
    exact classify_off_quadric h hx0 hx (xor_lt_16 ha (gf16Mul_lt _ _)) (xor_lt_16 hb (gf16Mul_lt _ _))
      (xor_lt_16 (quadric_lt a b) (gf16Mul_lt _ _)) hoff

/-- A point and the column of a symbol that is another point. -/
theorem classify_point_and_column {v a b e f s : Nat} (he0 : e ≠ 0) (he : e < 16) (hf0 : f ≠ 0) (hf : f < 16) (ha : a < 16) (hb : b < 16)
    (hs : s < 36) (hne : columnPair s ≠ some (a, b))
    (h : syndrome v = gf4Add (gf4Scale e (quadricPoint a b)) (gf4Scale f (column s))) : classify v = .uncorrectable := by
  cases hpair : columnPair s with
  | none =>
    rw [columnPair_eq_none hs hpair] at h
    exact classify_point_and_check35 he0 he hf0 hf ha hb h
  | some p =>
    obtain ⟨c, d⟩ := p
    obtain ⟨_, hc, hd⟩ := columnPair_lt hpair
    rw [column_of_pair hpair] at h
    exact classify_two_points he0 he hf0 hf ha hb hc (by omega) (fun heq => hne (hpair.trans (congrArg some heq.symm))) h

/-! Symbols in error (13 R483). -/

theorem classify_one_symbol {v s e : Nat} (hv : syndrome v = (0, 0, 0, 0)) (hs : s < 36) (he0 : e ≠ 0) (he : e < 16) :
    classify (fixSymbol v s e) = .corrected v := by
  have hsyndrome := syndrome_fixSymbol hs he v
  rw [hv, zero_gf4Add] at hsyndrome
  conv => rhs; rw [← fixSymbol_fixSymbol v s e]
  cases hpair : columnPair s with
  | none =>
    obtain rfl := columnPair_eq_none hs hpair
    exact classify_check35 (hsyndrome.trans (gf4Scale_column_35 he)) he0
  | some p =>
    obtain ⟨a, b⟩ := p
    rw [column_of_pair hpair] at hsyndrome
    exact classify_corrected hsyndrome he0 he hpair

theorem classify_two_symbols {v s t e f : Nat} (hv : syndrome v = (0, 0, 0, 0)) (hst : s < t) (ht : t < 36) (he0 : e ≠ 0) (he : e < 16)
    (hf0 : f ≠ 0) (hf : f < 16) : classify (fixSymbol (fixSymbol v s e) t f) = .uncorrectable := by
  have hs : s < 36 := Nat.lt_trans hst ht
  have hsyndrome := syndrome_fixSymbol ht hf (fixSymbol v s e)
  rw [syndrome_fixSymbol hs he, hv, zero_gf4Add] at hsyndrome
  cases hpair : columnPair s with
  | none =>
    have := columnPair_eq_none hs hpair
    omega
  | some p =>
    obtain ⟨a, b⟩ := p
    obtain ⟨_, ha, hb⟩ := columnPair_lt hpair
    rw [column_of_pair hpair] at hsyndrome
    exact classify_point_and_column he0 he hf0 hf ha (by omega) ht (fun ht' => Nat.ne_of_lt hst (columnPair_inj hpair ht')) hsyndrome

/-- The tarnish syndrome is a point of the quadric (13 R482). -/
theorem quadricPoint_tarnish : quadricPoint 0 4 = (0x1, 0x0, 0x4, 0xB) := by decide +kernel

/-- The tarnish point is none of the columns, so that a symbol error of a tarnished word adds another point. -/
theorem classify_tarnished_symbol {v k s e : Nat} (hv : syndrome v = gf4Scale k (quadricPoint 0 4)) (hk0 : k ≠ 0) (hk : k < 16) (hs : s < 36)
    (he0 : e ≠ 0) (he : e < 16) : classify (fixSymbol v s e) = .uncorrectable := by
  have hne : columnPair s ≠ some (0, 4) := fun hpair => absurd (columnPair_lt hpair).2.2 (by decide)
  exact classify_point_and_column hk0 hk he0 he (by decide) (by decide) hs hne (hv ▸ syndrome_fixSymbol hs he v)

/-! The writer (13 R480). -/

/-- Four elements of GF(16), each in its four bits. -/
def FourSymbols (t : Gf4) : Prop := t.1 < 16 ∧ t.2.1 < 16 ∧ t.2.2.1 < 16 ∧ t.2.2.2 < 16

theorem fourSymbols_columnSum (v n : Nat) : FourSymbols (columnSum v n) := by
  induction n with
  | zero => exact ⟨Nat.zero_lt_succ 15, Nat.zero_lt_succ 15, Nat.zero_lt_succ 15, Nat.zero_lt_succ 15⟩
  | succ n ih =>
    obtain ⟨h0, h1, h2, h3⟩ := ih
    exact ⟨xor_lt_16 h0 (gf16Mul_lt _ _), xor_lt_16 h1 (gf16Mul_lt _ _), xor_lt_16 h2 (gf16Mul_lt _ _), xor_lt_16 h3 (gf16Mul_lt _ _)⟩

/-- Four symbols as a number. -/
def packSymbols (t : Gf4) : Nat := t.1 + 16 * t.2.1 + 256 * t.2.2.1 + 4096 * t.2.2.2

/-- The check symbols that a writer forms from the sum over the data symbols. -/
def checkSymbols (t : Gf4) : Gf4 := (t.1 ^^^ t.2.1 ^^^ t.2.2.1, t.2.1, t.2.2.1, t.2.2.2 ^^^ t.2.1 ^^^ gf16Mul 8 t.2.2.1)

theorem encode_eq {d : Nat} (hd : d < 2 ^ 128) : encode d = d + packSymbols (checkSymbols (columnSum d 32)) * 2 ^ 128 := by
  rw [encode, Nat.mod_eq_of_lt hd]
  rfl

theorem packSymbols_lt {t : Gf4} (ht : FourSymbols t) : packSymbols t < 2 ^ 16 := by
  obtain ⟨h0, h1, h2, h3⟩ := ht
  unfold packSymbols
  omega

theorem symbolOf_packSymbols {t : Gf4} (ht : FourSymbols t) : symbolOf (packSymbols t) 0 = t.1 ∧ symbolOf (packSymbols t) 1 = t.2.1 ∧
    symbolOf (packSymbols t) 2 = t.2.2.1 ∧ symbolOf (packSymbols t) 3 = t.2.2.2 := by
  obtain ⟨h0, h1, h2, h3⟩ := ht
  simp only [symbolOf, packSymbols, Nat.reducePow]
  omega

theorem fourSymbols_checkSymbols {t : Gf4} (ht : FourSymbols t) : FourSymbols (checkSymbols t) := by
  obtain ⟨h0, h1, h2, h3⟩ := ht
  exact ⟨xor_lt_16 (xor_lt_16 h0 h1) h2, h1, h2, xor_lt_16 (xor_lt_16 h3 h1) (gf16Mul_lt _ _)⟩

/-- The columns of the check symbols (13 Table 13-1). -/
theorem column_check : column 32 = (1, 0, 0, 0) ∧ column 33 = (1, 1, 0, 1) ∧ column 34 = (1, 0, 1, 8) ∧ column 35 = (0, 0, 0, 1) := by
  decide +kernel

/-- What four check symbols add to a syndrome. -/
theorem checkColumns_sum {t c : Gf4} (hc : FourSymbols c) :
    gf4Add (gf4Add (gf4Add (gf4Add t (gf4Scale c.1 (column 32))) (gf4Scale c.2.1 (column 33))) (gf4Scale c.2.2.1 (column 34)))
      (gf4Scale c.2.2.2 (column 35)) =
    gf4Add t (c.1 ^^^ c.2.1 ^^^ c.2.2.1, c.2.1, c.2.2.1, c.2.1 ^^^ gf16Mul 8 c.2.2.1 ^^^ c.2.2.2) := by
  obtain ⟨h0, h1, h2, h3⟩ := hc
  obtain ⟨h32, h33, h34, h35⟩ := column_check
  simp only [h32, h33, h34, h35, gf4Scale, gf4Add, gf16Mul_one h0, gf16Mul_one h1, gf16Mul_one h2, gf16Mul_one h3, gf16Mul_zero,
    gf16Mul_comm _ 8, Nat.xor_zero, Nat.xor_assoc]

/-- The writer's check symbols bring the sum over the data symbols back to zero. -/
theorem gf4Add_checkSymbols (t : Gf4) : gf4Add t ((checkSymbols t).1 ^^^ (checkSymbols t).2.1 ^^^ (checkSymbols t).2.2.1, (checkSymbols t).2.1,
    (checkSymbols t).2.2.1, (checkSymbols t).2.1 ^^^ gf16Mul 8 (checkSymbols t).2.2.1 ^^^ (checkSymbols t).2.2.2) = (0, 0, 0, 0) := by
  simp only [gf4Add, checkSymbols, Nat.xor_assoc, xor_swap_left, Nat.xor_comm, xor_cancel_left, Nat.xor_self, Nat.xor_zero]

theorem syndrome_eq (v : Nat) : syndrome v = gf4Add (gf4Add (gf4Add (gf4Add (columnSum v 32) (gf4Scale (symbolOf v 32) (column 32)))
    (gf4Scale (symbolOf v 33) (column 33))) (gf4Scale (symbolOf v 34) (column 34))) (gf4Scale (symbolOf v 35) (column 35)) := rfl

/-- The syndrome of data symbols with four check symbols above them. -/
theorem syndrome_add_packSymbols {d : Nat} (hd : d < 2 ^ 128) {c : Gf4} (hc : FourSymbols c) : syndrome (d + packSymbols c * 2 ^ 128) =
    gf4Add (columnSum d 32) (c.1 ^^^ c.2.1 ^^^ c.2.2.1, c.2.1, c.2.2.1, c.2.1 ^^^ gf16Mul 8 c.2.2.1 ^^^ c.2.2.2) := by
  have hpow : (2 : Nat) ^ 128 = 16 ^ 32 := Nat.pow_mul 2 4 32
  rw [hpow] at hd ⊢
  have hdata : columnSum (d + packSymbols c * 16 ^ 32) 32 = columnSum d 32 := columnSum_congr fun i hi => symbolOf_add_mul_of_lt hi d _
  have hcheck := symbolOf_add_mul_of_le hd (packSymbols c)
  obtain ⟨h0, h1, h2, h3⟩ := symbolOf_packSymbols hc
  rw [syndrome_eq, hdata, ← checkColumns_sum hc, (hcheck 0).trans h0, (hcheck 1).trans h1, (hcheck 2).trans h2, (hcheck 3).trans h3]

theorem syndrome_encode {d : Nat} (hd : d < 2 ^ 128) : syndrome (encode d) = (0, 0, 0, 0) := by
  rw [encode_eq hd, syndrome_add_packSymbols hd (fourSymbols_checkSymbols (fourSymbols_columnSum d 32)), gf4Add_checkSymbols]

theorem encode_lt {d : Nat} (hd : d < 2 ^ 128) : encode d < 2 ^ 144 := by
  have hcheck := packSymbols_lt (fourSymbols_checkSymbols (fourSymbols_columnSum d 32))
  rw [encode_eq hd]
  omega

theorem encode_data {d : Nat} (hd : d < 2 ^ 128) : encode d % 2 ^ 128 = d := by
  rw [encode_eq hd, Nat.add_mul_mod_self_right, Nat.mod_eq_of_lt hd]

/-- Settles O49: the syndrome is linear, each symbol's column and the tarnish point are points of one quadric, and no line meets that quadric in three
points, so that a sum of two of them is never the multiple of a third. -/
theorem codewordsCorrectAndDetect : Obligations.CodewordsCorrectAndDetect := by
  refine ⟨fun d hd => ⟨encode_lt hd, encode_data hd, syndrome_encode hd, classify_clean (syndrome_encode hd)⟩, ?_, ?_, ?_, by decide +kernel⟩
  · intro v s e _ hv hs he0 he
    exact classify_one_symbol hv hs (Nat.ne_of_gt he0) he
  · intro v s t e f _ hv hst ht he0 he hf0 hf
    exact classify_two_symbols hv hst ht (Nat.ne_of_gt he0) he (Nat.ne_of_gt hf0) hf
  · intro v k _ hk0 hk hv
    rw [← quadricPoint_tarnish] at hv
    exact ⟨classify_tarnish hv (Nat.ne_of_gt hk0) hk, fun s e hs he0 he => classify_tarnished_symbol hv (Nat.ne_of_gt hk0) hk hs (Nat.ne_of_gt he0) he⟩

end Sys2Proof.Machine

/-! The ACK doorbell (15 R591). -/

namespace Sys2Proof.Machine

/-- The locket that an ACK write names: the session of its first eight bytes, when the tenant of the ring owns it (15 Table 15-12). -/
def ackedSession (s : State) (ring : Nat) (data : List Byte) : Option (Nat × Locket) :=
  s.lockets.find? (fun e => e.2.session == fieldAt data 0 8 && e.2.tenant == ringTenant s ring)

section
variable {s : State} {ring : Nat} {data : List Byte}

theorem exec_ack_of_serving (hring : ring < 1024) (hserving : serving s = true) : exec (.ack ring data) s = .next (ackWrite s ring data) := by
  show execAck ring data s = _
  rw [execAck, formed, if_pos (decide_eq_true hring), when, if_pos (show doorbells s = true from hserving)]

theorem ackWrite_of_absent (hfind : ackedSession s ring data = none) :
    ackWrite s ring data = hifEvent s 3 := by
  rw [ackedSession] at hfind
  rw [ackWrite, hfind]

/-- A write of any width but 16 bytes is refused, whether its bytes name a session or not. -/
theorem ackWrite_of_width (hlen : data.length ≠ 16) : ackWrite s ring data = hifEvent s 3 := by
  unfold ackWrite
  split
  case h_1 => rfl
  case h_2 => exact if_pos (bne_iff_ne.mpr hlen)

section
variable {h : Nat} {l : Locket} (hlen : data.length = 16)
  (hfind : ackedSession s ring data = some (h, l))
include hlen hfind

/-- A 16-byte write that names a session of the ring's tenant falls under one of three cases, by ACKED_SEQ and the packets written. -/
theorem ackWrite_of_found : ackWrite s ring data =
    if fieldAt data 8 8 ≤ l.acked then s
    else if fieldAt data 8 8 ≤ writtenCount l then s.locketM h fun l => ackTo l (fieldAt data 8 8)
    else hifEvent s 3 := by
  rw [ackedSession] at hfind
  rw [ackWrite, hfind]
  exact if_neg fun hne => bne_iff_ne.mp hne hlen

theorem ackWrite_of_le_acked (hold : fieldAt data 8 8 ≤ l.acked) : ackWrite s ring data = s := by
  rw [ackWrite_of_found hlen hfind, if_pos hold]

theorem ackWrite_of_le_written (hnew : l.acked < fieldAt data 8 8) (hwritten : fieldAt data 8 8 ≤ writtenCount l) :
    ackWrite s ring data = s.locketM h fun l => ackTo l (fieldAt data 8 8) := by
  rw [ackWrite_of_found hlen hfind, if_neg (Nat.not_le.mpr hnew), if_pos hwritten]

theorem ackWrite_of_written_lt (hnew : l.acked < fieldAt data 8 8) (hbeyond : writtenCount l < fieldAt data 8 8) :
    ackWrite s ring data = hifEvent s 3 := by
  rw [ackWrite_of_found hlen hfind, if_neg (Nat.not_le.mpr hnew), if_neg (Nat.not_le.mpr hbeyond)]

end

end

/-- Settles O9: a served write runs `ackWrite`, whose cases are parted by the width, the session named and the value's place against ACKED_SEQ and the
packets written; a refused one only raises HIF_EVENT.ACK_RANGE. -/
theorem ackFreesPackets : Obligations.AckFreesPackets := by
  refine ⟨fun s ring data h l hring hserving hlen hfind hnew hwritten => ?_, fun s ring data h l hring hserving hlen hfind hold => ?_,
    fun s ring data hring hserving hbad => ?_⟩
  · rw [exec_ack_of_serving hring hserving, ackWrite_of_le_written hlen hfind hnew hwritten]
    rfl
  · rw [exec_ack_of_serving hring hserving, ackWrite_of_le_acked hlen hfind hold]
  · suffices hrefused : ackWrite s ring data = hifEvent s 3 from
      ⟨hifEvent s 3, hrefused ▸ exec_ack_of_serving hring hserving, hifEvent_set s 3, hifEvent_confined s 3⟩
    by_cases hlen : data.length = 16
    case neg => exact ackWrite_of_width hlen
    case pos =>
      have hvalue := hbad.resolve_left (not_not_intro hlen)
      cases hfind : ackedSession s ring data with
      | none => exact ackWrite_of_absent hfind
      | some e =>
        rw [ackedSession] at hfind
        rw [hfind] at hvalue
        obtain ⟨hnew, hbeyond⟩ := hvalue
        exact ackWrite_of_written_lt hlen hfind hnew hbeyond

end Sys2Proof.Machine

/-! The block's step and its invariant (O1, O3 to O6, O52), and its byte memory (O54). -/

namespace Sys2Proof.Machine
open Sys2Proof

/-- Settles O1: both sides are the arm of `step` for a queue that is not empty. -/
theorem stepRunsTheFrontCommand : Obligations.StepRunsTheFrontCommand := fun _ _ _ => rfl

theorem step_of_pending_cons {s : State} {c : Instr} {rest : List Instr} (h : s.pending = c :: rest) : step s = exec c { s with pending := rest } := by
  simp only [step, h]

theorem tick_pending (s : State) : (tick s).pending = s.pending := by
  unfold tick
  split <;> rfl

theorem pending_notMem_touched (c : Instr) : Part.pending ∉ touched c := by
  cases c <;> simp only [touched, List.mem_cons, reduceCtorEq, List.not_mem_nil, or_self, not_false_eq_true]

theorem exec_keeps_pending {c : Instr} {s t : State} (h : exec c s = .next t) : t.pending = s.pending :=
  exec_confined h .pending (pending_notMem_touched c)

/-- Settles O3: no command lists the queue among the parts that it may change, and a step hands the command the queue's tail. -/
theorem onlyTheFrontLeavesTheQueue : Obligations.OnlyTheFrontLeavesTheQueue := by
  refine ⟨fun c s t h => exec_keeps_pending h, fun s t h => ?_⟩
  cases hp : s.pending with
  | nil =>
    rw [step_of_pending_nil hp] at h
    cases h
    rw [tick_pending, hp]; rfl
  | cons c rest =>
    rw [step_of_pending_cons hp] at h
    exact exec_keeps_pending h

/-- A well-formed command answers a next state, collected from its arms. -/
theorem exec_goes (s : State) : ∀ c, wellFormed c = true → Goes (exec c s)
  | .nop .., h => execNop_goes s _ h
  | .fence .., h => execFence_goes s _ h
  | .fenceDone .., h => execFenceDone_goes s _ h
  | .loadParure .., h => execLoadParure_goes s _ _ h
  | .parureCopyDone .., h => execParureCopyDone_goes s _ _ h
  | .unloadParure .., h => execUnloadParure_goes s _ h
  | .facetLoad .., h => execFacetLoad_goes s _ _ h
  | .facetDrop .., h => execFacetDrop_goes s _ h
  | .sessionOpen .., h => execSessionOpen_goes s _ h
  | .sessionClose .., h => execSessionClose_goes s _ h
  | .ingest .., h => execIngest_goes s _ _ h
  | .generate .., h => execGenerate_goes s _ h
  | .cancel .., h => execCancel_goes s _ h
  | .park .., h => execPark_goes s _ h
  | .revive .., h => execRevive_goes s _ h
  | .charmCreate .., h => execCharmCreate_goes s _ h
  | .charmDrop .., h => execCharmDrop_goes s _ h
  | .batchDefine .., h => execBatchDefine_goes s _ h
  | .batchRelease .., h => execBatchRelease_goes s _ h
  | .batchJoin .., h => execBatchJoin_goes s _ h
  | .batchLeave .., h => execBatchLeave_goes s _ h
  | .ephemerisLoad .., h => execEphemerisLoad_goes s _ _ h
  | .ephemerisSwitch .., h => execEphemerisSwitch_goes s _ h
  | .search .., h => execSearch_goes s _ _ _ h
  | .itemInsert .., h => execItemInsert_goes s _ _ _ h
  | .itemDelete .., h => execItemDelete_goes s _ h
  | .collectionMerge .., h => execCollectionMerge_goes s _ h
  | .collectionCreate .., h => execCollectionCreate_goes s _ h
  | .collectionDestroy .., h => execCollectionDestroy_goes s _ h
  | .select .., h => execSelect_goes s _ h
  | .snapshot .., h => execSnapshot_goes s _ h
  | .restore .., h => execRestore_goes s _ _ _ _ _ _ h
  | .manifestRead .., h => execManifestRead_goes s _ h
  | .query .., h => execQuery_goes s _ h
  | .accountRead .., h => execAccountRead_goes s _ h
  | .descriptorFetch .., h => execDescriptorFetch_goes s _ _ h
  | .tokenRefill, h => execTokenRefill_goes s () h
  | .sqTail .., h => execSqTail_goes s _ _ h
  | .cqHead .., h => execCqHead_goes s _ _ h
  | .ack .., h => execAck_goes s _ _ h
  | .slotSel .., h => execSlotSel_goes s _ _ _ h
  | .slotApertureWrite .., h => execSlotApertureWrite_goes s _ _ _ h
  | .bar2Write .., h => execBar2Write_goes s _ _ h
  | .bar2Read .., h => execBar2Read_goes s _ _ h
  | .bar4Access .., h => execBar4Access_goes s _ _ _ h
  | .completionPost .., h => execCompletionPost_goes s _ h
  | .coalTimeExpiry .., h => execCoalTimeExpiry_goes s _ h
  | .deliveryWrite, h => execDeliveryWrite_goes s () h
  | .keyInstall .., h => execKeyInstall_goes s _ _ h
  | .keySelect .., h => execKeySelect_goes s _ _ h
  | .keyDeselect .., h => execKeyDeselect_goes s _ _ h
  | .cutKey .., h => execCutKey_goes s _ _ h
  | .registerWrite .., h => execRegisterWrite_goes s _ _ _ h
  | .perstNAssert .., h => execPerstNAssert_goes s _ h
  | .linkTraining .., h => execLinkTraining_goes s _ _ _ _ h
  | .d3hotToD0, h => execD3hotToD0_goes s () h
  | .coldReset, h => execColdReset_goes s () h
  | .warmReset, h => execWarmReset_goes s () h
  | .deviceReset, h => execDeviceReset_goes s () h
  | .contextReset, h => execContextReset_goes s () h
  | .resetReqDevice, h => execResetReqDevice_goes s () h
  | .resetReqWarm, h => execResetReqWarm_goes s () h
  | .resetReqCold, h => execResetReqCold_goes s () h
  | .powerOn .., h => execPowerOn_goes s _ h
  | .railsPgCheck .., h => execRailsPgCheck_goes s _ h
  | .railsPgFall, h => execRailsPgFall_goes s () h
  | .duskEntry, h => execDuskEntry_goes s () h
  | .duskExit, h => execDuskExit_goes s () h
  | .twilightEntry, h => execTwilightEntry_goes s () h
  | .twilightExit, h => execTwilightExit_goes s () h
  | .nightEntry, h => execNightEntry_goes s () h
  | .nightExit, h => execNightExit_goes s () h
  | .supplyLow .., h => execSupplyLow_goes s _ _ h
  | .supplyRecover .., h => execSupplyRecover_goes s _ h
  | .controlledStop, h => execControlledStop_goes s () h
  | .stopRecovery .., h => execStopRecovery_goes s _ h
  | .vcoreResetLevel .., h => execVcoreResetLevel_goes s _ h
  | .thermalSample .., h => execThermalSample_goes s _ h
  | .thermalTrip, h => execThermalTrip_goes s () h
  | .analogThermtrip .., h => execAnalogThermtrip_goes s _ h
  | .trippedClear, h => execTrippedClear_goes s () h
  | .avsPoll .., h => execAvsPoll_goes s _ _ _ h
  | .vcoreSet .., h => execVcoreSet_goes s _ h
  | .refclkLoss, h => execRefclkLoss_goes s () h
  | .refclkReturn, h => execRefclkReturn_goes s () h
  | .wdtKick .., h => execWdtKick_goes s _ h
  | .wdtPeriod, h => execWdtPeriod_goes s () h
  | .wdtExpiry, h => execWdtExpiry_goes s () h
  | .sidebandFrameReceive .., h => execSidebandFrameReceive_goes s _ _ _ _ _ h
  | .read, h => execRead_goes s () h
  | .write, h => execWrite_goes s () h
  | .describe, h => execDescribe_goes s () h
  | .discover, h => execDiscover_goes s () h
  | .event, h => execEvent_goes s () h
  | .readSnapshotExpiry .., h => execReadSnapshotExpiry_goes s _ h
  | .homeFTimeout, h => execHomeFTimeout_goes s () h
  | .go, h => execGo_goes s () h
  | .nodeId, h => execNodeId_goes s () h
  | .configCommit, h => execConfigCommit_goes s () h
  | .crashClear, h => execCrashClear_goes s () h
  | .retiredClear, h => execRetiredClear_goes s () h
  | .histClear, h => execHistClear_goes s () h
  | .accountClear, h => execAccountClear_goes s () h
  | .rejoin, h => execRejoin_goes s () h
  | .formDomain, h => execFormDomain_goes s () h
  | .memberReq, h => execMemberReq_goes s () h
  | .chainOnly, h => execChainOnly_goes s () h
  | .portFence, h => execPortFence_goes s () h
  | .imageStart, h => execImageStart_goes s () h
  | .imageData, h => execImageData_goes s () h
  | .imageVerify, h => execImageVerify_goes s () h
  | .verifyDone, h => execVerifyDone_goes s () h
  | .imageRun, h => execImageRun_goes s () h
  | .settingStartDone .., h => execSettingStartDone_goes s _ _ _ h
  | .settingStartTimeout, h => execSettingStartTimeout_goes s () h
  | .imageReplicate .., h => execImageReplicate_goes s _ h
  | .imageTransferReceive .., h => execImageTransferReceive_goes s _ _ h
  | .portTrained .., h => execPortTrained_goes s _ _ _ _ h
  | .portDown .., h => execPortDown_goes s _ h
  | .flitReceive .., h => execFlitReceive_goes s _ _ h
  | .flitForward .., h => execFlitForward_goes s _ h
  | .transferTimeout .., h => execTransferTimeout_goes s _ _ h
  | .xferSetup, h => execXferSetup_goes s () h
  | .xferDone, h => execXferDone_goes s () h
  | .fwdRead, h => execFwdRead_goes s () h
  | .fwdWrite, h => execFwdWrite_goes s () h
  | .fwdCpl, h => execFwdCpl_goes s () h
  | .hostRead .., h => execHostRead_goes s _ h
  | .hostWrite, h => execHostWrite_goes s () h
  | .hostMsix, h => execHostMsix_goes s () h
  | .chainCount, h => execChainCount_goes s () h
  | .tailTimeout, h => execTailTimeout_goes s () h
  | .delayMeasure .., h => execDelayMeasure_goes s _ _ h
  | .delayReq .., h => execDelayReq_goes s _ _ h
  | .delayResp .., h => execDelayResp_goes s _ h
  | .beaconSend, h => execBeaconSend_goes s () h
  | .beacon .., h => execBeacon_goes s _ _ h
  | .timePortLost, h => execTimePortLost_goes s () h
  | .isolationTimeout, h => execIsolationTimeout_goes s () h
  | .prepare, h => execPrepare_goes s () h
  | .memberAck, h => execMemberAck_goes s () h
  | .commit, h => execCommit_goes s () h
  | .abort, h => execAbort_goes s () h
  | .stale, h => execStale_goes s () h
  | .memberAckTimeout, h => execMemberAckTimeout_goes s () h
  | .prepareTimeout, h => execPrepareTimeout_goes s () h
  | .enumWordReceive .., h => execEnumWordReceive_goes s _ h
  | .enumWordSend, h => execEnumWordSend_goes s () h
  | .meridian .., h => execMeridian_goes s _ h
  | .switchAttempt .., h => execSwitchAttempt_goes s _ h
  | .slotStart, h => execSlotStart_goes s () h
  | .leadPoint, h => execLeadPoint_goes s () h
  | .jobReady .., h => execJobReady_goes s _ _ h
  | .jobDispatch, h => execJobDispatch_goes s () h
  | .jobEnd, h => execJobEnd_goes s () h
  | .urgentAllowance, h => execUrgentAllowance_goes s () h
  | .budgetReturn, h => execBudgetReturn_goes s () h
  | .tileIssue, h => execTileIssue_goes s () h
  | .tileCommit .., h => execTileCommit_goes s _ _ _ _ h
  | .tileFault .., h => execTileFault_goes s _ _ _ _ _ h
  | .mapEpochCommit .., h => execMapEpochCommit_goes s _ h
  | .plannedSubstitution, h => execPlannedSubstitution_goes s () h
  | .meshMessageReceive .., h => execMeshMessageReceive_goes s _ _ h
  | .windowFillDone .., h => execWindowFillDone_goes s _ _ h
  | .preemptRequest, h => execPreemptRequest_goes s () h
  | .spillDone, h => execSpillDone_goes s () h
  | .spillRestoreDone, h => execSpillRestoreDone_goes s () h
  | .bistStart, h => execBistStart_goes s () h
  | .bistDone .., h => execBistDone_goes s _ h
  | .spareRetest .., h => execSpareRetest_goes s _ h
  | .pathsFixed, h => execPathsFixed_goes s () h
  | .draftRunDone .., h => execDraftRunDone_goes s _ h
  | .stepSeal, h => execStepSeal_goes s () h
  | .stepBoundary, h => execStepBoundary_goes s () h
  | .tlbInvalidate .., h => execTlbInvalidate_goes s _ h
  | .recomputePassDone .., h => execRecomputePassDone_goes s _ h
  | .stackMoveDone .., h => execStackMoveDone_goes s _ h
  | .replicaPromoteDone .., h => execReplicaPromoteDone_goes s _ _ h
  | .replicaEvictStart .., h => execReplicaEvictStart_goes s _ _ h
  | .replicaEvictCommit .., h => execReplicaEvictCommit_goes s _ _ h
  | .ttlExpiry .., h => execTtlExpiry_goes s _ h
  | .demoteRetry .., h => execDemoteRetry_goes s _ h
  | .demotionCommit .., h => execDemotionCommit_goes s _ h
  | .promotionCommit .., h => execPromotionCommit_goes s _ h
  | .charmTtlExpiry .., h => execCharmTtlExpiry_goes s _ h
  | .courierPacketSelect .., h => execCourierPacketSelect_goes s _ h
  | .courierComplete .., h => execCourierComplete_goes s _ _ h
  | .courierAbandon .., h => execCourierAbandon_goes s _ h
  | .instackCopyDone .., h => execInstackCopyDone_goes s _ h
  | .hbmScrub .., h => execHbmScrub_goes s _ _ _ h
  | .bayPowerOn .., h => execBayPowerOn_goes s _ _ _ h
  | .bayIdent .., h => execBayIdent_goes s _ _ _ h
  | .mountDone .., h => execMountDone_goes s _ h
  | .cofferRemoval .., h => execCofferRemoval_goes s _ h
  | .cooperativeDetach .., h => execCooperativeDetach_goes s _ _ h
  | .detachRetry .., h => execDetachRetry_goes s _ h
  | .detachDone .., h => execDetachDone_goes s _ h
  | .forcedDetach, h => execForcedDetach_goes s () h
  | .extentSeal .., h => execExtentSeal_goes s _ _ h
  | .programFail .., h => execProgramFail_goes s _ _ _ _ h
  | .blockEraseDone .., h => execBlockEraseDone_goes s _ _ h
  | .garbageCollection .., h => execGarbageCollection_goes s _ h
  | .wearLevel .., h => execWearLevel_goes s _ h
  | .patrolRead .., h => execPatrolRead_goes s _ _ _ _ _ h
  | .journalCheckpoint .., h => execJournalCheckpoint_goes s _ h
  | .cofferCounterWrite .., h => execCofferCounterWrite_goes s _ h
  | .walkStart .., h => execWalkStart_goes s _ h
  | .walkDone .., h => execWalkDone_goes s _ h
  | .mergeStart .., h => execMergeStart_goes s _ h
  | .mergePublish .., h => execMergePublish_goes s _ h
  | .selectFetchDone .., h => execSelectFetchDone_goes s _ _ _ h
  | .drainStart, h => execDrainStart_goes s () h
  | .cutComplete .., h => execCutComplete_goes s _ h
  | .cutAbandon .., h => execCutAbandon_goes s _ h
  | .queueSample, h => execQueueSample_goes s () h
  | .kvGatherDone .., h => execKvGatherDone_goes s _ h
  | .programStatusPass .., h => execProgramStatusPass_goes s _ h
  | .transmitOpportunity .., h => execTransmitOpportunity_goes s _ h
  | .alwaysOnRailFailure, h => execAlwaysOnRailFailure_goes s () h

/-- Every arm stands behind the check of its operands; an arm without one has operands that any sender can form. -/
theorem exec_formed (c : Instr) (s : State) : ∃ o, exec c s = formed (wellFormed c) o := by
  cases c <;> exact ⟨_, rfl⟩

/-- Settles O4: a well-formed command runs by the lemma of its arm, and the check of an ill-formed one's operands answers the fault. -/
theorem wellFormedCommandsRun : Obligations.WellFormedCommandsRun := by
  refine ⟨fun c s h => exec_goes s c h, fun c s h => ?_⟩
  obtain ⟨o, ho⟩ := exec_formed c s
  rw [ho, h]; rfl

/-- Settles O5: the collected frame of the arms leaves every part outside `touched` as it is, the two memories among them. -/
theorem commandsKeepTheirFrame : Obligations.CommandsKeepTheirFrame := fun _ _ _ h =>
  have hframe := exec_confined h
  ⟨hframe, fun ht1 a => congrArg (Mem.read · a) (hframe .t1 ht1), fun hhost a => congrArg (Mem.read · a) (hframe .hostMem hhost)⟩

theorem sound_iff (s : State) : sound s = true ↔ (s.t1.wf = true ∧ s.hostMem.wf = true) ∧
    (s.cells.length = 144 ∧ s.hbc.length = 8 ∧ s.lpc.length = 4 ∧ s.bays.length = 4 ∧ s.sieves.length = 8) ∧ s.now < 2 ^ 64 := by
  simp only [sound, memoriesWf, shaped, timed, Bool.and_eq_true, beq_iff_eq, decide_eq_true_eq, and_assoc]

/-- Settles O6: every component of `State.reset` is its default. -/
theorem resetIsSound : Obligations.ResetIsSound :=
  (sound_iff State.reset).mpr ⟨⟨rfl, rfl⟩, ⟨List.length_replicate, List.length_replicate, List.length_replicate, List.length_replicate, List.length_replicate⟩,
    Nat.two_pow_pos 64⟩

theorem Steady.sound {l : List Part} {s t : State} (h : Steady l s t) (hs : sound s = true) (hnow : t.now < 2 ^ 64) : sound t = true := by
  obtain ⟨⟨ht1, hhost⟩, ⟨hcells, hhbc, hlpc, hbays, hsieves⟩, -⟩ := (sound_iff s).mp hs
  exact (sound_iff t).mpr ⟨⟨h.t1 ht1, h.host hhost⟩, ⟨h.cells hcells, h.hbc hhbc, h.lpc hlpc, h.bays hbays, h.sieves hsieves⟩, hnow⟩

theorem tick_steady (s : State) : Steady [.now, .ory, .lan] s (tick s) := by
  unfold tick
  split
  · refine ⟨fun p hp => ?_, id, id, id, id, id, id, id⟩
    cases p
    case now | ory | lan => exact absurd (by decide) hp
    all_goals rfl
  · exact .refl

theorem tick_now_lt {s : State} (h : s.now < 2 ^ 64) : (tick s).now < 2 ^ 64 := by
  unfold tick
  split
  · exact Nat.mod_lt _ (by decide)
  · exact h

/-- A command leaves the timebase or, at the rise or fall of the always-on rails, sets it to 0. -/
theorem exec_now {c : Instr} {s t : State} (h : exec c s = .next t) : t.now = s.now ∨ t.now = 0 := by
  by_cases hc : Part.now ∈ touched c
  · rcases now_mem_touched hc with ⟨head, rfl⟩ | rfl
    · cases hon : s.lan.alwaysOn with
      | true => rw [exec_powerOn_of_on head hon] at h; cases h; exact .inl rfl
      | false =>
        obtain ⟨u, hu, hu0⟩ := exec_powerOn_of_off head hon
        rw [hu] at h; cases h; exact .inr hu0
    · change when s.lan.alwaysOn s (offState s) = .next t at h
      unfold when at h
      split at h
      · cases h; exact .inr rfl
      · cases h; exact .inl rfl
  · exact .inl (exec_confined h .now hc)

/-- Settles O52: a tick and every command keep both memories canonical and every count, and set the timebase within 64 bits. -/
theorem stepsKeepSoundness : Obligations.StepsKeepSoundness := by
  intro s t hs h
  have hnow : s.now < 2 ^ 64 := ((sound_iff s).mp hs).2.2
  cases hp : s.pending with
  | nil =>
    rw [step_of_pending_nil hp] at h
    cases h
    exact (tick_steady s).sound hs (tick_now_lt hnow)
  | cons c rest =>
    rw [step_of_pending_cons hp] at h
    have hbound : t.now < 2 ^ 64 := by
      rcases exec_now h with e | e
      · rw [e]; exact hnow
      · rw [e]; decide
    exact ((exec_moves c { s with pending := rest }).frame t h).sound (s := { s with pending := rest }) hs hbound

/-- The run of bytes reads back, and every other address reads as before. -/
theorem read_writeN (bs : List Byte) {m : Mem} (a : Nat) (w : m.wf = true) (x : Nat) :
    (m.writeN a bs).read x = if a ≤ x ∧ x < a + bs.length then bs.getD (x - a) 0#8 else m.read x := by
  induction bs generalizing m a with
  | nil =>
    rw [if_neg (by rw [List.length_nil]; omega)]; rfl
  | cons b bs ih =>
    rw [Mem.writeN, ih (a + 1) (write_wf a b w), read_write m a x b w, List.length_cons]
    rcases Nat.lt_trichotomy x a with hx | rfl | hx
    · rw [if_neg (by omega), if_neg (by omega), if_neg (by omega)]
    · rw [if_neg (by omega), if_pos rfl, if_pos (by omega), Nat.sub_self]; rfl
    · by_cases hin : x < a + 1 + bs.length
      · rw [if_pos (by omega), if_pos (by omega), show x - a = (x - (a + 1)) + 1 by omega, List.getD_cons_succ]
      · rw [if_neg (by omega), if_neg (by omega), if_neg (by omega)]

/-- Settles O54, by induction on the run of bytes. -/
theorem writtenBytesReadBack : Obligations.WrittenBytesReadBack := fun _ a bs w =>
  ⟨writeN_wf a bs w, read_writeN bs a w⟩

end Sys2Proof.Machine

/-! Reset values (O47), the ranking of FP32 values (O55) and the parity of coffer rows (O51). -/

namespace Sys2Proof.Machine
open Sys2Proof

/-- Settles O47: every field of `State.reset` is its default, and the defaults are the stated values. -/
theorem registersResetToStatedValues : Obligations.RegistersResetToStatedValues := by
  unfold Obligations.RegistersResetToStatedValues
  repeat' constructor

/-- Below and at infinity the rank is a strictly rising function of the value times 2^149. -/
theorem rankKey_lt_iff {a b : W32} {x y : Int} (ha : scaled32 a = some x) (hb : scaled32 b = some y) : rankKey a < rankKey b ↔ x < y := by
  rcases rank_view a with ⟨hn, _⟩ | ⟨u, hu, hau⟩
  · rw [ha] at hn; cases hn
  rcases rank_view b with ⟨hn, _⟩ | ⟨v, hv, hbv⟩
  · rw [hb] at hn; cases hn
  have huv := @mag_lt_iff u v
  have hvu := @mag_lt_iff v u
  have hu0 := @mag_lt_iff 0 u
  have hv0 := @mag_lt_iff 0 v
  have h0 : mag 0 = 0 := rfl
  rw [ha, hb] at *
  rcases hau with ⟨hx, hka⟩ | ⟨hx, hka⟩ <;> rcases hbv with ⟨hy, hkb⟩ | ⟨hy, hkb⟩ <;> cases hx <;> cases hy <;> omega

theorem rankKey_nan {w : W32} (h : scaled32 w = none) : rankKey w = -(2 ^ 33) := by
  rcases rank_view w with ⟨-, hk⟩ | ⟨u, -, ⟨hs, -⟩ | ⟨hs, -⟩⟩
  · exact hk
  · rw [h] at hs; cases hs
  · rw [h] at hs; cases hs

theorem rankKey_number {w : W32} {x : Int} (h : scaled32 w = some x) : -(2 ^ 33) < rankKey w := by
  rcases rank_view w with ⟨hn, -⟩ | ⟨u, hu, ⟨-, hk⟩ | ⟨-, hk⟩⟩
  · rw [h] at hn; cases hn
  · omega
  · omega

/-- Settles O55, by the four cases of which word is a NaN. -/
theorem rankingFollowsNumericOrder : Obligations.RankingFollowsNumericOrder := by
  intro a b
  unfold rankLt
  cases ha : scaled32 a with
  | none =>
    cases hb : scaled32 b with
    | none => rw [rankKey_nan ha, rankKey_nan hb]; rfl
    | some y => rw [rankKey_nan ha]; exact decide_eq_true (rankKey_number hb)
  | some x =>
    cases hb : scaled32 b with
    | none => rw [rankKey_nan hb]; exact decide_eq_false (Int.not_lt.mpr (Int.le_of_lt (rankKey_number ha)))
    | some y => exact decide_eq_decide.mpr (rankKey_lt_iff ha hb)

end Sys2Proof.Machine

namespace Sys2Proof.Machine
open Sys2Proof

theorem length_zeros (n : Nat) : (zeros n).length = n := List.length_replicate

theorem length_bytesAt (bs : List Byte) (off n : Nat) : (bytesAt bs off n).length = n := by
  simp only [bytesAt, List.length_append, List.length_replicate, List.length_take, List.length_drop]
  omega

theorem length_padTo (n : Nat) (bs : List Byte) : (padTo n bs).length = n := length_bytesAt bs 0 n

/-- A run that stands whole in the list is read as it is. -/
theorem bytesAt_of_le {bs : List Byte} {off n : Nat} (h : off + n ≤ bs.length) : bytesAt bs off n = (bs.drop off).take n := by
  have hlen : ((bs.drop off).take n).length = n := by
    rw [List.length_take, List.length_drop]; omega
  simp only [bytesAt, hlen, Nat.sub_self, List.replicate_zero, List.append_nil]

theorem padTo_of_length {bs : List Byte} {n : Nat} (h : bs.length = n) : padTo n bs = bs := by
  rw [padTo, bytesAt_of_le (by omega), List.drop_zero, List.take_of_length_le (by omega)]

/-! ### Frames and pages -/

theorem length_frameBytes (ext u : Nat) (data : List Byte) (tarn : List Nat) : (frameBytes ext u data tarn).length = 4608 := by
  simp only [frameBytes, List.length_append, length_padTo, natLe_length, length_zeros]

theorem take_frameBytes (ext u : Nat) {data : List Byte} (tarn : List Nat) (h : data.length = 4096) : (frameBytes ext u data tarn).take 4096 = data := by
  simp only [frameBytes, padTo_of_length h, List.append_assoc]
  exact List.take_left' h

theorem length_frameAt (c : Coffer) (k i : Nat) : (frameAt c k i).length = 4608 := by
  unfold frameAt
  dsimp only
  split
  · exact length_frameBytes _ _ _ _
  · exact length_frameBytes _ _ _ _

theorem dataPage_eq (c : Coffer) (k row i : Nat) : dataPage c k row i =
    frameAt c k (60 * row + 4 * i) ++ (frameAt c k (60 * row + 4 * i + 1) ++ (frameAt c k (60 * row + 4 * i + 2) ++ frameAt c k (60 * row + 4 * i + 3))) := by
  simp only [dataPage, List.range_succ, List.range_zero, List.nil_append, List.cons_append, List.map_cons, List.map_nil, List.flatten_cons, List.flatten_nil,
    List.append_nil, Nat.add_zero]

theorem length_dataPage (c : Coffer) (k row i : Nat) : (dataPage c k row i).length = 18432 := by
  simp only [dataPage_eq, List.length_append, length_frameAt]

/-- Frame j of a data page stands at byte 4,608 j (09 R356). -/
theorem bytesAt_dataPage (c : Coffer) (k row i j : Nat) (hj : j < 4) : bytesAt (dataPage c k row i) (4608 * j) 4608 = frameAt c k (60 * row + 4 * i + j) := by
  rw [bytesAt_of_le (by rw [length_dataPage]; omega), dataPage_eq]
  match j, hj with
  | 0, _ | 1, _ | 2, _ | 3, _ => simp [List.drop_append, length_frameAt, List.drop_of_length_le, List.take_of_length_le]

/-! ### The XOR of byte lists -/

theorem xorBytes_eq (a b : List Byte) : xorBytes a b = List.zipWith (· ^^^ ·) a b := by
  simp only [xorBytes, List.zip, List.map_zipWith]

theorem length_xorBytes {a b : List Byte} (h : a.length = b.length) : (xorBytes a b).length = a.length := by
  rw [xorBytes_eq, List.length_zipWith, h, Nat.min_self]

theorem xorBytes_comm (a b : List Byte) : xorBytes a b = xorBytes b a := by
  simp only [xorBytes_eq]
  exact List.zipWith_comm_of_comm (fun x y => BitVec.xor_comm x y)

theorem xorBytes_assoc (a b c : List Byte) : xorBytes (xorBytes a b) c = xorBytes a (xorBytes b c) := by
  simp only [xorBytes_eq]
  induction a generalizing b c with
  | nil => rfl
  | cons x a ih =>
    cases b with
    | nil => rfl
    | cons y b =>
      cases c with
      | nil => rfl
      | cons z c => simp only [List.zipWith_cons_cons, ih, BitVec.xor_assoc]

theorem xorBytes_self (a : List Byte) : xorBytes a a = zeros a.length := by
  rw [xorBytes_eq]
  induction a with
  | nil => rfl
  | cons x a ih => rw [List.zipWith_cons_cons, ih, BitVec.xor_self]; rfl

theorem xorBytes_zeros (a : List Byte) : xorBytes a (zeros a.length) = a := by
  rw [xorBytes_eq]
  induction a with
  | nil => rfl
  | cons x a ih =>
    change (x ^^^ 0#8) :: List.zipWith (· ^^^ ·) a (zeros a.length) = x :: a
    rw [ih, BitVec.xor_zero]

/-- Two lists of one length whose XOR is zero are equal. -/
theorem eq_of_xorBytes_eq_zeros {a b : List Byte} (hlen : a.length = b.length) (h : xorBytes a b = zeros a.length) : a = b :=
  calc a = xorBytes a (xorBytes b b) := by rw [xorBytes_self, ← hlen, xorBytes_zeros]
    _ = xorBytes b (zeros b.length) := by rw [← xorBytes_assoc, h, xorBytes_comm, hlen]
    _ = b := xorBytes_zeros b

/-- The XOR of the pages that a list of channels names. -/
def xorPages (f : Nat → List Byte) (chs : List Nat) : List Byte := chs.foldl (fun a x => xorBytes a (f x)) (zeros 18432)

theorem foldl_xorBytes_start (f : Nat → List Byte) (chs : List Nat) (a b : List Byte) :
    chs.foldl (fun a x => xorBytes a (f x)) (xorBytes a b) = xorBytes a (chs.foldl (fun a x => xorBytes a (f x)) b) := by
  induction chs generalizing b with
  | nil => rfl
  | cons x chs ih => rw [List.foldl_cons, List.foldl_cons, xorBytes_assoc, ih]

theorem length_xorPages {f : Nat → List Byte} (hf : ∀ x, (f x).length = 18432) (chs : List Nat) : (xorPages f chs).length = 18432 := by
  unfold xorPages
  suffices h : ∀ a : List Byte, a.length = 18432 → (chs.foldl (fun a x => xorBytes a (f x)) a).length = 18432 from h _ (length_zeros _)
  induction chs with
  | nil => exact fun _ h => h
  | cons x chs ih => exact fun a h => ih _ (by rw [length_xorBytes (by rw [h, hf]), h])

theorem xorPages_cons (f : Nat → List Byte) (x : Nat) (chs : List Nat) : xorPages f (x :: chs) = xorBytes (f x) (xorPages f chs) := by
  have hx : xorBytes (zeros 18432) (f x) = xorBytes (f x) (zeros 18432) := xorBytes_comm _ _
  simp only [xorPages, List.foldl_cons, hx]
  exact foldl_xorBytes_start f chs (f x) _

theorem xorPages_perm {f : Nat → List Byte} {xs ys : List Nat} (h : xs.Perm ys) : xorPages f xs = xorPages f ys :=
  h.foldl_eq' (fun x _ y _ a => by rw [xorBytes_assoc, xorBytes_comm (f x), ← xorBytes_assoc]) _

/-! ### Rows -/

/-- The channels of a row without its parity channel are the channels of the data pages (09 R353). -/
theorem filter_ne_eq_dataChannels (row : Nat) : (List.range 16).filter (· != row % 16) = (List.range 15).map (dataChannel row) := by
  have hall : ∀ p < 16, (List.range 16).filter (· != p) = (List.range 15).map (fun i => if i < p then i else i + 1) := by decide
  exact hall (row % 16) (Nat.mod_lt _ (by decide))

theorem pageAt_dataChannel (c : Coffer) (k row i : Nat) : pageAt c k row (dataChannel row i) = dataPage c k row i := by
  unfold pageAt dataChannel
  by_cases h : i < row % 16
  · rw [if_pos h, if_neg (by omega), if_pos h]
  · rw [if_neg h, if_neg (by omega), if_neg (by omega), Nat.add_sub_cancel]

theorem pageAt_parity (c : Coffer) (k row : Nat) : pageAt c k row (row % 16) = xorPages (pageAt c k row) ((List.range 16).filter (· != row % 16)) := by
  rw [filter_ne_eq_dataChannels, xorPages, List.foldl_map]
  simp only [pageAt_dataChannel]
  rw [pageAt, if_pos rfl]

theorem length_pageAt (c : Coffer) (k row ch : Nat) : (pageAt c k row ch).length = 18432 := by
  unfold pageAt
  split
  · exact length_xorPages (f := dataPage c k row) (fun _ => length_dataPage _ _ _ _) _
  · exact length_dataPage _ _ _ _

theorem cons_filter_ne_perm {ch : Nat} (h : ch < 16) : (ch :: (List.range 16).filter (· != ch)).Perm (List.range 16) := by
  rw [← List.nodup_range.erase_eq_filter]
  exact (List.perm_cons_erase (List.mem_range.mpr h)).symm

/-- The XOR of all pages of a row, parity included, is zero. -/
theorem xorPages_row (c : Coffer) (k row : Nat) : xorPages (pageAt c k row) (List.range 16) = zeros 18432 := by
  rw [← xorPages_perm (cons_filter_ne_perm (Nat.mod_lt row (by decide))), xorPages_cons, ← pageAt_parity, xorBytes_self, length_pageAt]

/-- Every page of a row is the XOR of the others, because the XOR of all of them is zero. -/
theorem pageAt_eq_xorPages (c : Coffer) (k row : Nat) {ch : Nat} (h : ch < 16) :
    pageAt c k row ch = xorPages (pageAt c k row) ((List.range 16).filter (· != ch)) := by
  have hlen := length_pageAt c k row
  refine eq_of_xorBytes_eq_zeros (by rw [hlen, length_xorPages hlen]) ?_
  rw [← xorPages_cons, xorPages_perm (cons_filter_ne_perm h), xorPages_row, hlen]

theorem readFrame_eq (c : Coffer) (k i : Nat) : readFrame c k i = frameAt c k i := by
  unfold readFrame
  dsimp only
  rw [pageAt_dataChannel, bytesAt_dataPage _ _ _ _ _ (Nat.mod_lt _ (by decide))]
  congr 1
  omega

theorem take_frameAt {c : Coffer} {k i x u : Nat} {e : Extent} (hplace : placeUnit (sbAt c k).pieces i = (x, u)) (hext : c.extents.get? x = some e) :
    (frameAt c k i).take 4096 = bytesAt e.data (4096 * u) 4096 := by
  unfold frameAt
  rw [hplace]
  dsimp only
  rw [hext]
  exact take_frameBytes _ _ _ (length_bytesAt _ _ _)

/-- Settles O51: the parity page makes the XOR of a row's pages zero, and a frame is a quarter of its data page. -/
theorem rowParityRebuildsPages : Obligations.RowParityRebuildsPages :=
  ⟨fun c k row _ h => ⟨length_pageAt c k row _, pageAt_eq_xorPages c k row h⟩, readFrame_eq, fun c k i x u e hplace hext => by
    rw [readFrame_eq]; exact take_frameAt hplace hext⟩

end Sys2Proof.Machine

/-! The host interface: control commands (O7), doorbells (O8), slots (O10), fetching (O12), completions (O13) and delivery (O14). -/

namespace Sys2Proof.Machine
open Sys2Proof

/-! ### The frames of an arm -/

theorem formed_of {ok : Bool} {o : Out} (h : ok = true) : formed ok o = o := by rw [formed, if_pos h]

theorem when_of {ok : Bool} {s t : State} (h : ok = true) : when ok s t = .next t := by rw [when, if_pos h]

theorem when_of_not {ok : Bool} {s t : State} (h : ok = false) : when ok s t = .next s := by rw [when, h]; rfl

theorem hifM_confined (s : State) (f : Hif → Hif) : confined [.hif] s (s.hifM f) := by
  intro p hp
  cases p <;> first | rfl | exact absurd (by decide) hp

/-! ### Control commands -/

/-- A command of an opcode that lists no operands in host memory changes only the host interface when it starts. -/
theorem begun_confined_hif {s : State} {id op : Nat} (h : admitted s id op = true) (hop : op = 0x01 ∨ op = 0x02) : begun s id = marked s id := by
  refine begun_marked ?_
  rw [operandAt, admitted_opcode h]
  rcases hop with rfl | rfl <;> rfl

theorem nop_completes {s : State} {id : Nat} (h : admitted s id 0x01 = true) :
    ∃ t, exec (.nop id) s = .next t ∧ answers s t (cmdOf s id) stOk 0 0 ∧ confined [.hif] s t := by
  refine ⟨_, (hostCmd_admitted _ h : execNop id s = _), ?_, ?_⟩
  · exact begun_answers h
  · rw [begun_confined_hif h (.inl rfl)]
    exact confined_trans (marked_confined s id) (complete_confined _ _ _ _ _ _)

theorem fence_starts {s : State} {id : Nat} (h : admitted s id 0x02 = true) :
    ∃ t, exec (.fence id) s = .next t ∧ t.hif.done = s.hif.done ∧ (∃ c, findCmd t id = some c ∧ c.started = true) ∧ confined [.hif] s t := by
  refine ⟨_, (hostCmd_admitted _ h : execFence id s = _), ?_⟩
  rw [begun_confined_hif h (.inr rfl)]
  exact ⟨rfl, ⟨_, findCmd_marked h, rfl⟩, marked_confined s id⟩

theorem fenceDone_completes {s : State} {id : Nat} {c : HCmd} (hclk : s.lan.refclk = true) (hfind : findCmd s id = some c) (hop : c.opcode = 0x02)
    (hstarted : c.started = true) (hopen : completed s id = false)
    (hearlier : ∀ d ∈ s.hif.cmds.takeWhile (fun d => d.id != id), d.ring = c.ring → completed s d.id = true) :
    ∃ t, exec (.fenceDone id) s = .next t ∧ answers s t c stOk 0 0 ∧ confined [.hif] s t := by
  have hall : (s.hif.cmds.takeWhile (fun d => d.id != id)).all (fun d => d.ring != c.ring || completed s d.id) = true := by
    rw [List.all_eq_true]
    intro d hd
    by_cases hr : d.ring = c.ring
    · rw [hearlier d hd hr, Bool.or_true]
    · rw [bne_iff_ne.mpr hr, Bool.true_or]
  refine ⟨complete s c stOk 0 0 0, ?_, complete_answers rfl rfl ((findCmd_id hfind).symm ▸ hopen), complete_confined _ _ _ _ _ _⟩
  show execFenceDone id s = _
  rw [execFenceDone, clocked_on hclk, hfind]
  exact when_of (by rw [hop, hstarted, hopen, hall]; rfl)

/-- Settles O7. -/
theorem controlCommandsComplete : Obligations.ControlCommandsComplete :=
  ⟨fun _ _ => nop_completes, fun _ _ => fence_starts, fun _ _ _ => fenceDone_completes⟩

/-! ### Doorbells -/

section
variable {s : State} {ring v : Nat} (hring : ring < 1024) (hserving : serving s = true)
include hring hserving

theorem exec_sqTail_of_serving : exec (.sqTail ring v) s = .next (sqTailWrite s ring v) :=
  (formed_of (decide_eq_true hring)).trans (when_of hserving)

theorem exec_cqHead_of_serving : exec (.cqHead ring v) s = .next (cqHeadWrite s ring v) :=
  (formed_of (decide_eq_true hring)).trans (when_of hserving)

end

/-- A doorbell value out of range sets DB_RANGE and moves no index (15 R572). -/
theorem hifEvent_of_range (s : State) (b : Nat) : bitAt (hifEvent s b).hif.event b = true ∧ (∀ r, (hifEvent s b).ring r = s.ring r) ∧
    confined [.hif, .std] s (hifEvent s b) :=
  ⟨hifEvent_set s b, fun r => hifEvent_ring s b r, hifEvent_confined s b⟩

/-- A change of one ring moves no other ring and nothing outside the host interface. -/
theorem ringM_moves (s : State) (ring : Nat) (f : Ring → Ring) : (∀ r, r ≠ ring → (s.ringM ring f).ring r = s.ring r) ∧ confined [.hif] s (s.ringM ring f) :=
  ⟨fun _ hr => ringM_ring_other s f hr.symm, ringM_confined s ring f⟩

/-- Settles O8: a doorbell in range is one change of its ring, and one out of range is one event. -/
theorem doorbellsMoveIndices : Obligations.DoorbellsMoveIndices := by
  refine ⟨fun s ring v hring hs hv => ⟨_, exec_sqTail_of_serving hring hs, ?_⟩, fun s ring v hring hs hv => ⟨_, exec_sqTail_of_serving hring hs, ?_⟩,
    fun s ring v hring hs hv => ⟨_, exec_cqHead_of_serving hring hs, ?_⟩, fun s ring v hring hs hv => ⟨_, exec_cqHead_of_serving hring hs, ?_⟩⟩
  · rw [sqTailWrite, if_pos hv]
    exact ⟨ringM_ring _ _ _, ringM_moves _ _ _⟩
  · rw [sqTailWrite, if_neg (Nat.not_lt.mpr hv)]
    exact hifEvent_of_range s 0
  · rw [cqHeadWrite, if_pos hv]
    exact ⟨ringM_ring _ _ _, ringM_moves _ _ _⟩
  · rw [cqHeadWrite, if_neg (Nat.not_lt.mpr hv)]
    exact hifEvent_of_range s 0

/-! ### Slots -/

theorem exec_slotSel_of_serving {s : State} {ring : Nat} (off : Nat) (data : List Byte) (hring : ring < 1024) (hserving : serving s = true) :
    exec (.slotSel ring off data) s = .next (slotSelWrite s ring off data) :=
  (formed_of (decide_eq_true hring)).trans (when_of hserving)

theorem slotSelWrite_of_eight (s : State) (ring : Nat) {data : List Byte} (h : data.length = 8) :
    slotSelWrite s ring 0x020 data = s.ringM ring fun g => { g with slotSel := leNat data } := by
  have hdrop (x : Nat) : (natLe 8 x).drop 8 = [] := List.drop_of_length_le (Nat.le_of_eq (natLe_length 8 x))
  simp [slotSelWrite, h, hdrop]

theorem slotSelWrite_of_low (s : State) (ring : Nat) {data : List Byte} (h : data.length = 4) :
    slotSelWrite s ring 0x020 data = s.ringM ring fun g => { g with slotSel := leNat (data ++ (natLe 8 g.slotSel).drop 4) } := by
  simp [slotSelWrite, h]

theorem slotSelWrite_of_high (s : State) (ring : Nat) {data : List Byte} (h : data.length = 4) :
    slotSelWrite s ring 0x024 data = s.ringM ring fun g => { g with slotSel := leNat ((natLe 8 g.slotSel).take 4 ++ data) } := by
  have hdrop (x : Nat) : (natLe 8 x).drop 8 = [] := List.drop_of_length_le (Nat.le_of_eq (natLe_length 8 x))
  simp [slotSelWrite, h, hdrop]

/-- An aperture write within a slot writes the bytes that the offset maps (15 R573). -/
theorem apertureWrite_of_slot {s : State} {ring off h k : Nat} {data : List Byte} {l : Locket} (hdata : data.length = 4 ∨ data.length = 8)
    (hl : apertureLocket s ring = some (h, l))
    (hoff : (0x100 ≤ off ∧ off + data.length ≤ 0x140 ∧ k = 320 + (off - 0x100)) ∨ (0x200 ≤ off ∧ off + data.length ≤ 0x300 ∧ k = 768 + (off - 0x200))) :
    apertureWrite s ring off data = s.locketM h fun l => slotWrite l k data := by
  have hbyte : apertureByte off = some k := by
    unfold apertureByte
    rcases hoff with ⟨hlo, hhi, hk⟩ | ⟨hlo, hhi, hk⟩
    · rw [if_pos (by simp only [Bool.and_eq_true, decide_eq_true_eq]; omega)]
      exact congrArg some (by omega)
    · rw [if_neg (by simp only [Bool.and_eq_true, decide_eq_true_eq]; omega), if_pos (by simp only [Bool.and_eq_true, decide_eq_true_eq]; omega)]
      exact congrArg some (by omega)
  have hrange : slotRange k data.length = true := by
    simp only [slotRange, Bool.or_eq_true, Bool.and_eq_true, decide_eq_true_eq]
    omega
  rw [apertureWrite, hl, hbyte]
  exact if_pos hrange

theorem exec_slotApertureWrite_of_serving {s : State} {ring off : Nat} {data : List Byte} (hring : ring < 1024) (hserving : serving s = true)
    (hdata : data.length = 4 ∨ data.length = 8) (halign : off % data.length = 0) :
    exec (.slotApertureWrite ring off data) s = .next (apertureWrite s ring off data) :=
  (formed_of (decide_eq_true hring)).trans (when_of (by
    rw [show doorbells s = true from hserving, halign]
    rcases hdata with h | h <;> rw [h] <;> rfl))

theorem exec_bar2Write_of_serving {s : State} (addr : Nat) (data : List Byte) (hlink : s.hif.linkUp = true) (hserving : serving s = true) :
    exec (.bar2Write addr data) s = .next (bar2Write s addr data) :=
  when_of (by rw [hlink, hserving]; rfl)

theorem slotRange_iff (o n : Nat) : slotRange o n = true ↔ (320 ≤ o ∧ o + n ≤ 384) ∨ (768 ≤ o ∧ o + n ≤ 1024) := by
  simp only [slotRange, Bool.or_eq_true, Bool.and_eq_true, decide_eq_true_eq]

/-- A discarded host write is counted and reported (15 R568). -/
theorem dropWrite_facts (s : State) : bitAt (dropWrite s).hif.event 1 = true ∧ (dropWrite s).hif.dropped = (s.hif.dropped + 1) % 2 ^ 32 ∧
    confined [.hif, .std] s (dropWrite s) := by
  refine ⟨hifEvent_set _ _, ?_, confined_trans (confined_more (hifM_confined _ _) (by decide)) (hifEvent_confined _ _)⟩
  rw [dropWrite, hifEvent_hif]
  rfl

/-- Settles O10: SLOT_SEL by the three forms of its write, the aperture and BAR2 by whether the bytes lie in a slot. -/
theorem hostSlotsWritten : Obligations.HostSlotsWritten := by
  refine ⟨fun s ring data hring hs hlen => ?_, fun s ring data hring hs hlen => ⟨?_, ?_⟩, fun s ring off data h l k hring hs hdata halign hl hoff => ?_,
    fun s addr data h l hlink hs hfind hin => ?_, fun s addr data hlink hs hout => ?_⟩
  · rw [exec_slotSel_of_serving _ _ hring hs, slotSelWrite_of_eight s ring hlen]
  · rw [exec_slotSel_of_serving _ _ hring hs, slotSelWrite_of_low s ring hlen]
  · rw [exec_slotSel_of_serving _ _ hring hs, slotSelWrite_of_high s ring hlen]
  · rw [exec_slotApertureWrite_of_serving hring hs hdata halign, apertureWrite_of_slot hdata hl hoff]
  · rw [exec_bar2Write_of_serving _ _ hlink hs, bar2Write, hfind]
    exact congrArg _ (if_pos ((slotRange_iff _ _).mpr hin))
  · suffices hdrop : bar2Write s addr data = dropWrite s by
      rw [exec_bar2Write_of_serving _ _ hlink hs, hdrop]
      exact ⟨_, rfl, dropWrite_facts s⟩
    unfold bar2Write
    split
    next h l hfind =>
      rw [hfind] at hout
      exact if_neg (fun hr => hout ((slotRange_iff _ _).mp hr))
    next => rfl

/-! ### Fetching -/

/-- The command that a descriptor of a ring asks for (15 R574, R575). -/
def fetchedCmd (s : State) (ring : Nat) (desc : List Byte) : HCmd :=
  { id := s.hif.nextId, ring := ring, tag := fieldAt desc 4 4, tenant := ringTenant s ring, opcode := fieldAt desc 0 1, desc := desc, accept := s.now
    general := cmdCost (fieldAt desc 0 1) != 0 }

/-- The state in which policing has met a fetched descriptor (11 R428 to R431). -/
def policedState (s : State) (ring : Nat) (desc : List Byte) : State :=
  (police (refill (s.hifM fun h => { h with nextId := h.nextId + 1 })) (ringTenant s ring) (cmdCost (fieldAt desc 0 1))).1

/-- Policing looks at the buckets alone. -/
theorem police_refill_same {s u : State} (htraffic : u.traffic = s.traffic) (hnow : u.now = s.now) (t c : Nat) :
    (police (refill u) t c).2 = (police (refill s) t c).2 :=
  (police_same (refill_same htraffic hnow) t c).1

theorem policedState_confined (s : State) (ring : Nat) (desc : List Byte) :
    confined [.traffic] (s.hifM fun h => { h with nextId := h.nextId + 1 }) (policedState s ring desc) :=
  confined_trans (refill_steady _).only (police_steady _ _ _).only

theorem policedState_hif (s : State) (ring : Nat) (desc : List Byte) : (policedState s ring desc).hif = { s.hif with nextId := s.hif.nextId + 1 } :=
  policedState_confined s ring desc .hif (by decide)

theorem accept_of_quota {s : State} {ring : Nat} {desc : List Byte} {w : Nat × Nat}
    (hpolice : (police (refill s) (ringTenant s ring) (cmdCost (fieldAt desc 0 1))).2 = some w) :
    accept s ring desc = refuseCmd (policedState s ring desc) (fetchedCmd s ring desc) stQuota w.1 w.2 := by
  rw [← police_refill_same (s := s) (u := s.hifM fun h => { h with nextId := h.nextId + 1 }) rfl rfl] at hpolice
  have hpair : police _ _ _ = (policedState s ring desc, some w) := Prod.ext rfl hpolice
  unfold accept
  dsimp only
  rw [hpair]
  rfl

/-- A descriptor that policing, the tenant check and the pools let pass is accepted (15 R575). -/
theorem accept_of_room {s : State} {ring : Nat} {desc : List Byte}
    (hpolice : (police (refill s) (ringTenant s ring) (cmdCost (fieldAt desc 0 1))).2 = none)
    (htenant : bits (fieldAt desc 2 2) 9 0 = ringTenant s ring) (hknown : opcodes.contains (fieldAt desc 0 1) = true) (hfence : fieldAt desc 0 1 ≠ 2)
    (hroom : if cmdCost (fieldAt desc 0 1) != 0 then poolCount s true < 3840 ∧ tenantCount s (ringTenant s ring) < (s.dlv (ringTenant s ring)).outMax
      else poolCount s false < 256) (hlost : orreryLost s = false) :
    accept s ring desc = noteAccept ((policedState s ring desc).hifM fun h => { h with cmds := h.cmds ++ [fetchedCmd s ring desc] }) (fetchedCmd s ring desc) := by
  have hhif := policedState_hif s ring desc
  have hpool (b : Bool) : poolCount (policedState s ring desc) b = poolCount s b := by simp only [poolCount, hhif]
  have hcount (t : Nat) : tenantCount (policedState s ring desc) t = tenantCount s t := by simp only [tenantCount, hhif]
  have hdlv (t : Nat) : (policedState s ring desc).dlv t = s.dlv t := by simp only [State.dlv, hhif]
  have hnote (v : State) (c : HCmd) (hory : v.ory = s.ory) (hinteg : v.integ = s.integ) : orreryLost (noteAccept v c) = false := by
    have hory' : (noteAccept v c).ory = v.ory := (noteAccept_steady v c).only .ory (by decide)
    have hinteg' : (noteAccept v c).integ = v.integ := (noteAccept_steady v c).only .integ (by decide)
    rw [← hlost, orreryLost, hory', hinteg', hory, hinteg, orreryLost]
  have hlost' := hnote ((policedState s ring desc).hifM fun h => { h with cmds := h.cmds ++ [fetchedCmd s ring desc] }) (fetchedCmd s ring desc)
    (policedState_confined s ring desc .ory (by decide)) (policedState_confined s ring desc .integ (by decide))
  rw [← police_refill_same (s := s) (u := s.hifM fun h => { h with nextId := h.nextId + 1 }) rfl rfl] at hpolice
  have hpair : police _ _ _ = (policedState s ring desc, none) := Prod.ext rfl hpolice
  unfold accept
  dsimp only
  rw [hpair]
  dsimp only
  rw [if_neg (by simpa [HCmd.fld] using htenant), if_neg (by simpa using hknown), hpool, hpool, hcount, hdlv,
    if_neg (by cases hg : cmdCost (fieldAt desc 0 1) != 0 <;> rw [hg] at hroom <;> simpa using hroom)]
  change (if orreryLost (noteAccept ((policedState s ring desc).hifM fun h => { h with cmds := h.cmds ++ [fetchedCmd s ring desc] }) (fetchedCmd s ring desc)) &&
    needsOrrery _ _ then _ else _) = _
  rw [hlost', Bool.false_and, if_neg Bool.false_ne_true, if_neg hfence]
  rfl

theorem refill_bucket {s : State} {k : Nat} {b : TenantTraffic} (h : s.traffic.tenants.get? k = some b) :
    (refill s).traffic.tenants.get? k = some { b with level := min (b.level + (s.now - s.traffic.lastRefill) * b.rate) (b.depth * 10 ^ 8) } := by
  rw [refill_tenants_get, h]
  rfl

/-- Settles O12: the fetch leaves a state whose buckets, pools and Orrery are those before it, and `accept` goes by policing's answer on it. -/
theorem descriptorsAccepted : Obligations.DescriptorsAccepted := by
  refine ⟨fun s ring desc hring hdesc hs hen hreach hvia hnext hpolice htenant hknown hfence hroom hlost => ?_,
    fun s ring desc w hring hdesc hs hen hreach hvia hnext hpolice hopen => ?_,
    fun s => ⟨refill s, exec_tokenRefill s, (refill_steady s).only, refill_lastRefill s, fun k b => refill_bucket⟩⟩
  · obtain ⟨u, hexec, hu, huring, huhost, hucmds, hudone, hunext, hudlv⟩ := fetched_head s ring desc hring hdesc hs hen hreach hvia hnext
    have htn : ringTenant u ring = ringTenant s ring := ringTenant_same (by rw [huring])
    have htraffic : u.traffic = s.traffic := by rw [hu]
    have hnow : u.now = s.now := by rw [hu]
    rw [accept_of_room (by rw [htn, police_refill_same htraffic hnow]; exact hpolice) (by rw [htn]; exact htenant) hknown hfence
      (by simp only [poolCount, tenantCount, State.dlv, hucmds, hudlv, htn] at hroom ⊢; exact hroom) (by rw [hu]; exact hlost)] at hexec
    have hn := noteAccept_steady ((policedState u ring desc).hifM fun h => { h with cmds := h.cmds ++ [fetchedCmd u ring desc] }) (fetchedCmd u ring desc)
    have hhif : (noteAccept _ _).hif = _ := hn.only .hif (by decide)
    have hhost : (noteAccept _ _).hostMem = _ := hn.only .hostMem (by decide)
    rw [State.hifM_hif, policedState_hif] at hhif
    refine ⟨_, hexec, ?_, ?_, ?_, ?_, ?_, ?_⟩
    · rw [hhif]
      simp only [hucmds, fetchedCmd, hunext, htn, hnow]
    · rw [hhif]; exact hudone
    · rw [hhif]; exact congrArg (· + 1) hunext
    · rw [State.ring, hhif]; exact huring
    · rw [hhost, ← huhost]
      exact policedState_confined u ring desc .hostMem (by decide)
    · exact exec_confined (c := .descriptorFetch ring desc) hexec
  · obtain ⟨u, hexec, hu, huring, huhost, hucmds, hudone, hunext, hudlv⟩ := fetched_head s ring desc hring hdesc hs hen hreach hvia hnext
    have htn : ringTenant u ring = ringTenant s ring := ringTenant_same (by rw [huring])
    have htraffic : u.traffic = s.traffic := by rw [hu]
    have hnow : u.now = s.now := by rw [hu]
    rw [accept_of_quota (by rw [htn, police_refill_same htraffic hnow]; exact hpolice)] at hexec
    refine ⟨_, fetchedCmd u ring desc, hexec, hunext, rfl, rfl, ?_⟩
    refine complete_answers ?_ ?_ ?_
    · rw [State.hifM_hif, policedState_hif]; exact hudone
    · exact (policedState_confined u ring desc .now (by decide)).trans hnow
    · rw [← hopen]; exact congrArg (completed s) hunext

/-! ### Posting completions -/

/-- A completion is in its slot and its command has left (15 R578, 08 R297). -/
def leftCpl (s : State) (ring : Nat) (d : Cpl) : State :=
  leaveCmd (hostWrite s ((s.ring ring).cqBase + 32 * cqSlot (s.ring ring)) (cplBytes d ((s.ring ring).posted / 2 ^ (s.ring ring).cqLog2 % 2 == 0))) d.id

theorem postNext_of_room {s : State} {ring : Nat} {d : Cpl} (hfind : s.hif.done.find? (fun d => d.ring == ring) = some d) (hpost : postable s ring = true)
    (hfull : cqFull (s.ring ring) = false) :
    postNext s ring = some (coalesce ((leftCpl s ring d).ringM ring fun g => { g with posted := g.posted + 1 }) ring d.noIrq) := by
  unfold postNext
  rw [hfind]
  exact if_neg (by rw [hpost, hfull]; decide)

theorem exec_completionPost {s : State} {ring : Nat} (hring : ring < 1024) (hclk : s.lan.refclk = true) :
    exec (.completionPost ring) s = .next ((postNext s ring).getD (if postable s ring && cqFull (s.ring ring) then hifEvent s 4 else s)) :=
  (formed_of (decide_eq_true hring)).trans (clocked_on hclk)

theorem exec_completionPost_of_some {s t : State} {ring : Nat} (hring : ring < 1024) (hclk : s.lan.refclk = true) (h : postNext s ring = some t) :
    exec (.completionPost ring) s = .next t := by
  rw [exec_completionPost hring hclk, h]
  rfl

theorem exec_completionPost_of_full {s : State} {ring : Nat} (hring : ring < 1024) (hclk : s.lan.refclk = true) (h : postNext s ring = none)
    (hpost : postable s ring = true) (hfull : cqFull (s.ring ring) = true) : exec (.completionPost ring) s = .next (hifEvent s 4) := by
  rw [exec_completionPost hring hclk, h, hpost, hfull]
  rfl

theorem hostWrite_hif (s : State) (a : Nat) (b : List Byte) : (hostWrite s a b).hif = s.hif := (hostWrite_steady s a b).only .hif (by decide)

theorem leftCpl_hif (s : State) (ring : Nat) (d : Cpl) :
    (leftCpl s ring d).hif = { s.hif with cmds := s.hif.cmds.filter (fun c => c.id != d.id), done := s.hif.done.filter (fun e => e.id != d.id) } := by
  rw [leftCpl, leaveCmd_hif, hostWrite_hif]

theorem leftCpl_ring (s : State) (ring : Nat) (d : Cpl) (r : Nat) : (leftCpl s ring d).ring r = s.ring r := by
  rw [State.ring, leftCpl_hif]
  rfl

theorem findCmd_of_filtered {s : State} {cmds : List HCmd} {id : Nat} (h : s.hif.cmds = cmds.filter (fun c => c.id != id)) : findCmd s id = none := by
  rw [findCmd, h, List.find?_eq_none]
  intro c hc
  have := (List.mem_filter.1 hc).2
  simpa using this

theorem exec_coalTimeExpiry {s : State} {ring : Nat} (hring : ring < 1024) (hclk : s.lan.refclk = true) (hen : (s.ring ring).irqEn = true)
    (hwait : (s.ring ring).unsignalled ≠ 0) (hdue : (s.ring ring).firstUnsignalled + 16 * (s.ring ring).coalTime ≤ s.now) :
    exec (.coalTimeExpiry ring) s = .next (signal (s.ringM ring fun g => { g with unsignalled := 0 }) (s.ring ring).vector) :=
  (formed_of (decide_eq_true hring)).trans (when_of (by
    rw [hen, due, hclk, decide_eq_true hdue, bne_iff_ne.mpr hwait]
    rfl))

theorem signal_ring (s : State) (v r : Nat) : (signal s v).ring r = s.ring r := by
  rw [State.ring, signal_hif]
  rfl

theorem signal_of_isolated {s : State} (v : Nat) (h : s.integ.mode = .isolated) : signal s v = s.hifM fun i => { i with msixHeld := i.msixHeld ++ [v] } := by
  rw [signal, h]
  rfl

theorem signal_of_own {s : State} (v : Nat) (h : s.integ.mode ≠ .isolated) (hvia : viaHead s = false) :
    signal s v = s.hifM fun i => { i with msix := i.msix ++ [v] } := by
  rw [signal, if_neg (by simpa using h), hvia]
  rfl

/-- Settles O13: a completion is posted by `postNext`, held by CQ_FULL, and signalled when its time has passed. -/
theorem completionsPosted : Obligations.CompletionsPosted := by
  refine ⟨fun s ring d hring hclk hfind hpost hfull => ?_, fun s ring d hring hclk hfind hpost hfull => ?_,
    fun s ring hring hclk hen hwait hdue => ?_⟩
  · refine ⟨_, exec_completionPost_of_some hring hclk (postNext_of_room hfind hpost hfull), ?_⟩
    obtain ⟨hcmds, hdone, hposted, hother, hhost⟩ := coalesce_facts ((leftCpl s ring d).ringM ring fun g => { g with posted := g.posted + 1 }) ring d.noIrq
    rw [State.ringM_hif, leftCpl_hif] at hcmds hdone
    refine ⟨findCmd_of_filtered hcmds, fun e he => ?_, ?_, fun r hr => ?_, fun hvia => ?_⟩
    · rw [hdone] at he
      obtain ⟨hmem, hid⟩ := List.mem_filter.1 he
      exact ⟨by simpa using hid, hmem⟩
    · rw [hposted, ringM_ring, leftCpl_ring]
    · rw [hother r hr, ringM_ring_other _ _ hr.symm, leftCpl_ring]
    · rw [hhost]
      change (leftCpl s ring d).hostMem = _
      rw [leftCpl, leaveCmd_hostMem, hostWrite_own _ _ hvia, cqSlot]
  · have hnone : postNext s ring = none := by
      rw [postNext, hfind]
      exact if_pos (by rw [hfull, Bool.or_true])
    refine ⟨_, exec_completionPost_of_full hring hclk hnone hpost hfull, ?_⟩
    exact ⟨by rw [hifEvent_hif], by rw [hifEvent_hif], hifEvent_set s 4, hifEvent_confined s 4 .hostMem (by decide), hifEvent_ring s 4⟩
  · refine ⟨_, exec_coalTimeExpiry hring hclk hen hwait hdue, ?_, fun r hr => ?_, fun hmode hvia => ?_, fun hmode => ?_⟩
    · rw [signal_ring, ringM_ring]
    · rw [signal_ring, ringM_ring_other _ _ hr.symm]
    · rw [signal_of_own _ (by exact hmode) (by exact hvia)]
      rfl
    · rw [signal_of_isolated _ (by exact hmode)]
      exact ⟨rfl, rfl⟩

/-! ### Delivery -/

theorem viaHead_of_std {s t : State} (h : t.std = s.std) : viaHead t = viaHead s := by simp only [viaHead, h]

/-- Writing the packet count, and its signal, leaves the host interface its delivery groups and changes at most one run of host memory (15 R588). -/
theorem deliveredP_facts (s : State) (tn : Nat) (p : Packet) (hvia : viaHead s = false) :
    (deliveredP s tn p).hif.dlv = s.hif.dlv ∧
      ((deliveredP s tn p).hostMem = s.hostMem ∨ (deliveredP s tn p).hostMem = s.hostMem.writeN (s.dlv tn).prod (natLe 8 (s.dlv tn).written)) ∧
      confined [.hif, .hostMem, .std] s (deliveredP s tn p) := by
  unfold deliveredP
  rw [hostWrite_own _ _ hvia]
  dsimp only
  have hwrite : confined [.hif, .hostMem, .std] s { s with hostMem := s.hostMem.writeN (s.dlv tn).prod (natLe 8 (s.dlv tn).written) } := by
    intro q hq
    cases q <;> first | rfl | exact absurd (by decide) hq
  split
  · exact ⟨rfl, .inl rfl, fun q _ => by cases q <;> rfl⟩
  · split
    · exact ⟨by rw [signal_hif], .inr ((signal_steady _ _).only .hostMem (by decide)),
        confined_trans hwrite (confined_more (signal_steady _ _).only (by decide))⟩
    · exact ⟨rfl, .inr rfl, hwrite⟩

/-- The packet's state before the scheduler is charged: payload written before header, marked and counted (15 R588). -/
def deliveredW (s : State) (tn h : Nat) (l : Locket) (p : Packet) : State :=
  ((({ s with hostMem := (s.hostMem.writeN (slotAddr s tn l.session p.seq + 64) (p.bytes.drop 64)).writeN (slotAddr s tn l.session p.seq) (p.bytes.take 64) }
      : State).locketM h fun l => { l with packets := l.packets.map (fun q => if q.seq == p.seq then { q with written := true } else q) }).dlvM tn
      fun g => { g with written := (g.written + 1) % 2 ^ 64 }).hifM fun i => { i with lastServed := i.lastServed.set tn h }

theorem deliveredA_of_own {s : State} {tn h : Nat} {l : Locket} {p : Packet} (hvia : viaHead s = false) :
    deliveredA s tn h l p = wfqCharge (deliveredW s tn h l p) 1 tn 1 ((dlvBacklog (deliveredW s tn h l p)).contains tn) false := by
  unfold deliveredA
  dsimp only
  rw [hostWrite_own _ _ hvia, hostWrite_own _ _ (by exact hvia)]
  rfl

theorem deliveredW_dlv (s : State) (tn h : Nat) (l : Locket) (p : Packet) :
    (deliveredW s tn h l p).dlv tn = { s.dlv tn with written := ((s.dlv tn).written + 1) % 2 ^ 64 } := by
  simp only [deliveredW, State.dlv, State.hifM_hif, State.dlvM, tab_getD_set_same]
  rfl

theorem deliveredW_confined (s : State) (tn h : Nat) (l : Locket) (p : Packet) : confined [.lockets, .hif, .hostMem] s (deliveredW s tn h l p) := by
  intro q hq
  cases q <;> first | rfl | exact absurd (by decide) hq

/-- Settles O14: the packet's two writes, its mark and its count are `deliveredA`, and what follows is `deliveredP`. -/
theorem packetsDelivered : Obligations.PacketsDelivered := by
  intro s s1 tn h l p hclk hsel hsess hpkt hpost hmode hpower hvia
  refine ⟨deliveredP (deliveredA s1 tn h l p) tn p, deliver_eq hclk hsel hsess hpkt hpost (by simpa using hmode) (by simpa using hpower), ?_⟩
  have hs1 : confined [.traffic] s s1 := by
    have := (wfqSelect_steady s 1 (dlvBacklog s) false).only
    rwa [hsel] at this
  have hvia1 : viaHead s1 = false := (viaHead_of_std (hs1 .std (by decide))).trans hvia
  have hhif1 : s1.hif = s.hif := hs1 .hif (by decide)
  have hhost1 : s1.hostMem = s.hostMem := hs1 .hostMem (by decide)
  have hlock1 : s1.lockets = s.lockets := hs1 .lockets (by decide)
  have hcharge := (wfqCharge_steady (deliveredW s1 tn h l p) 1 tn 1 ((dlvBacklog (deliveredW s1 tn h l p)).contains tn) false).only
  rw [← deliveredA_of_own hvia1] at hcharge
  have hA : confined [.lockets, .hif, .hostMem, .traffic] s1 (deliveredA s1 tn h l p) :=
    confined_trans (confined_more (deliveredW_confined s1 tn h l p) (by decide)) (confined_more hcharge (by decide))
  have hdlvA : (deliveredA s1 tn h l p).dlv tn = { s.dlv tn with written := ((s.dlv tn).written + 1) % 2 ^ 64 } := by
    have hhif : (deliveredA s1 tn h l p).hif = _ := hcharge .hif (by decide)
    rw [State.dlv, hhif, ← State.dlv, deliveredW_dlv, State.dlv, hhif1, ← State.dlv]
  have hhostA : (deliveredA s1 tn h l p).hostMem =
      (s.hostMem.writeN (slotAddr s tn l.session p.seq + 64) (p.bytes.drop 64)).writeN (slotAddr s tn l.session p.seq) (p.bytes.take 64) := by
    have hhost : (deliveredA s1 tn h l p).hostMem = _ := hcharge .hostMem (by decide)
    have haddr : slotAddr s1 tn l.session p.seq = slotAddr s tn l.session p.seq := by simp only [slotAddr, State.dlv, hhif1]
    rw [hhost, ← haddr, ← hhost1]
    rfl
  have hviaA : viaHead (deliveredA s1 tn h l p) = false := (viaHead_of_std (hA .std (by decide))).trans hvia1
  obtain ⟨hdlvP, hhostP, hP⟩ := deliveredP_facts (deliveredA s1 tn h l p) tn p hviaA
  refine ⟨?_, ?_, ?_, ?_⟩
  · have hlP : (deliveredP (deliveredA s1 tn h l p) tn p).lockets = _ := hP .lockets (by decide)
    have hlA : (deliveredA s1 tn h l p).lockets = _ := hcharge .lockets (by decide)
    rw [hlP, hlA, ← hlock1]
    rfl
  · rw [State.dlv, hdlvP, ← State.dlv, hdlvA]
  · rw [hhostA, hdlvA] at hhostP
    exact hhostP
  · exact confined_trans (confined_more hs1 (by decide)) (confined_trans (confined_more hA (by decide)) (confined_more hP (by decide)))

end Sys2Proof.Machine

/-! Admission (O16), parures (O17) and facets (O18). -/

namespace Sys2Proof.Machine
open Sys2Proof

/-! ### Admission -/

/-- The session that a command names, where it names one, is open for commands (08 R293). -/
def sessionOpen (s : State) (id : Nat) : Prop := ∀ h l, findSession s (cmdOf s id).tenant (cmdOf s id).handle = some (h, l) → opening l = false

/-- A row of host commands runs its meaning behind `hostCmd` or, for a command of a session that is open, behind `sessionCmd` (15 R575, 08 R284). -/
def runsAs (c : Instr) (s : State) (id op : Nat) : Prop :=
  (∃ k, exec c s = hostCmd s id op k) ∨ ((∃ k, exec c s = sessionCmd s id op k) ∧ sessionOpen s id)

theorem runsAs_host {c : Instr} {s : State} {id op : Nat} {k : State → HCmd → State} (h : exec c s = hostCmd s id op k) : runsAs c s id op := .inl ⟨k, h⟩

theorem runsAs_session {c : Instr} {s : State} {id op : Nat} {k : State → HCmd → Nat → Locket → State} (h : exec c s = sessionCmd s id op k)
    (hopen : sessionOpen s id) : runsAs c s id op := .inr ⟨⟨k, h⟩, hopen⟩

theorem hostRow_runs {c : Instr} {s : State} {id op : Nat} (hrow : hostRow c = some (id, op)) (hform : wellFormed c = true) (hmeant : rowMeant c s) :
    runsAs c s id op := by
  unfold hostRow at hrow
  split at hrow <;> cases hrow
  case h_1 => exact runsAs_host (rfl : execNop id s = _)
  case h_2 => exact runsAs_host (rfl : execFence id s = _)
  case h_3 header => exact runsAs_host (formed_of hform : execLoadParure id header s = _)
  case h_4 => exact runsAs_host (rfl : execUnloadParure id s = _)
  case h_5 image => exact runsAs_host (rfl : execFacetLoad id image s = _)
  case h_6 => exact runsAs_host (rfl : execFacetDrop id s = _)
  case h_7 => exact runsAs_host (rfl : execSessionOpen id s = _)
  case h_8 => exact runsAs_session (rfl : execSessionClose id s = _) (hmeant id _ rfl)
  case h_9 data => exact runsAs_session (rfl : execIngest id data s = _) (hmeant id _ rfl)
  case h_10 => exact runsAs_session (rfl : execGenerate id s = _) (hmeant id _ rfl)
  case h_11 => exact runsAs_session (rfl : execCancel id s = _) (hmeant id _ rfl)
  case h_12 => exact runsAs_session (rfl : execPark id s = _) (hmeant id _ rfl)
  case h_13 => exact runsAs_session (rfl : execRevive id s = _) (hmeant id _ rfl)
  case h_14 => exact runsAs_host (rfl : execCharmCreate id s = _)
  case h_15 => exact runsAs_host (rfl : execCharmDrop id s = _)
  case h_16 => exact runsAs_host ((if_neg (by rw [show releaseFlag s id = false from hmeant]; decide)) : execBatchDefine id s = _)
  case h_17 => exact runsAs_host ((if_neg (by rw [show releaseFlag s id = true from hmeant]; decide)) : execBatchRelease id s = _)
  case h_18 => exact runsAs_session (rfl : execBatchJoin id s = _) (hmeant id _ rfl)
  case h_19 => exact runsAs_session (rfl : execBatchLeave id s = _) (hmeant id _ rfl)
  case h_20 image => exact runsAs_host (rfl : execEphemerisLoad id image s = _)
  case h_21 => exact runsAs_host (rfl : execEphemerisSwitch id s = _)
  case h_22 query poison => exact runsAs_host (rfl : execSearch id query poison s = _)
  case h_23 block poison => exact runsAs_host (rfl : execItemInsert id block poison s = _)
  case h_24 => exact runsAs_host (rfl : execItemDelete id s = _)
  case h_25 => exact runsAs_host (rfl : execCollectionMerge id s = _)
  case h_26 => exact runsAs_host ((if_neg (by rw [show destroyFlag s id = false from hmeant]; decide)) : execCollectionCreate id s = _)
  case h_27 => exact runsAs_host ((if_neg (by rw [show destroyFlag s id = true from hmeant]; decide)) : execCollectionDestroy id s = _)
  case h_28 => exact runsAs_host (rfl : execSelect id s = _)
  case h_29 => exact runsAs_host (rfl : execSnapshot id s = _)
  case h_30 params select resume replay peer => exact runsAs_host (rfl : execRestore id params select resume replay peer s = _)
  case h_31 => exact runsAs_host (rfl : execManifestRead id s = _)
  case h_32 => exact runsAs_host (rfl : execQuery id s = _)
  case h_33 => exact runsAs_host (rfl : execAccountRead id s = _)

theorem runsAs_refused {c : Instr} {s : State} {id op st : Nat} (hrun : runsAs c s id op) (hstart : startable s id op = true)
    (hgate : gate s (cmdOf s id) = some st) : exec c s = .next (complete (marked s id) (cmdOf s id) st 0 0 0) := by
  obtain ⟨k, hk⟩ | ⟨⟨k, hk⟩, hopen⟩ := hrun
  · exact hk.trans (hostCmd_refused k hstart hgate)
  · exact hk.trans (sessionCmd_refused k hstart hopen hgate)

section
variable {s : State} {d : HCmd} (hmode : s.integ.mode ≠ .quarantined)
include hmode

/-- On a device that is neither quarantined nor stopped and whose Orrery stands, the configuration and the command's own fields decide (18 R672). -/
theorem gate_of_serving (hstop : s.lan.stopped = false) (hlost : orreryLost s = false) : gate s d =
    if !s.lan.committed && !(d.opcode == 0x01 || d.opcode == 0x02 || (d.opcode == 0x60 && d.fld 16 1 == 7)) then some stInvalid
    else if !reservedOk d then some stInvalid else if tenant0Only d.opcode && d.tenant != 0 then some stInvalid else none := by
  rw [gate, if_neg (by simpa using hmode), if_neg (by rw [hstop, hlost]; simp)]

end

/-- Settles O16: each row runs behind the admission check, and that check's branches are the refusals of 13 R507, 18 R672, 00 R20 and 15 R577. -/
theorem admissionRefusesCommands : Obligations.AdmissionRefusesCommands := by
  refine ⟨fun c s id op st hrow hform hstart hmeant hgate => ?_, fun s d hmode => ?_, fun s d hmode hstop hlost hcommit hop => ?_,
    fun s d hmode hstop hlost hbad => ?_⟩
  · exact ⟨_, runsAs_refused (hostRow_runs hrow hform hmeant) hstart hgate, marked_answers hstart, marked_hif s id st⟩
  · rw [gate, hmode]
    rfl
  · rw [gate_of_serving hmode hstop hlost, if_pos]
    rw [hcommit, Bool.not_false, Bool.true_and, Bool.not_eq_true', ← Bool.not_eq_true, Bool.or_eq_true, Bool.or_eq_true, Bool.and_eq_true, beq_iff_eq, beq_iff_eq, beq_iff_eq,
      beq_iff_eq, or_assoc]
    exact hop
  · rw [gate_of_serving hmode hstop hlost]
    split
    · rfl
    · obtain hres | ⟨hzero, htenant⟩ := hbad
      · rw [hres]
        rfl
      · rw [hzero, bne_iff_ne.mpr htenant]
        split <;> rfl

/-! ### Parures -/

theorem begun_parures (s : State) (id : Nat) : (begun s id).parures = s.parures := (begun_confined s id) .parures (by decide)
theorem begun_facets (s : State) (id : Nat) : (begun s id).facets = s.facets := (begun_confined s id) .facets (by decide)
theorem begun_lockets (s : State) (id : Nat) : (begun s id).lockets = s.lockets := (begun_confined s id) .lockets (by decide)

theorem parureUsed_begun (s : State) (id slot : Nat) (p : Parure) : parureUsed (begun s id) slot p = parureUsed s slot p := by
  simp only [parureUsed, begun_parures, begun_facets, begun_lockets, begun_eph]

theorem complete_parures (s : State) (c : HCmd) (st r0 r1 n : Nat) : (complete s c st r0 r1 n).parures = s.parures :=
  (complete_confined s c st r0 r1 n) .parures (by decide)

theorem completeId_parures (s : State) (id st r0 r1 n : Nat) : (completeId s id st r0 r1 n).parures = s.parures :=
  (completeId_confined s id st r0 r1 n) .parures (by decide)

/-- A load that finds its room leaves its slot LOADING and its copy in flight (04 R150, R154). -/
theorem startLoadCopy_of_room {u s1 : State} {slot : Nat} {p : Parure} {header : List Byte} (h : reserveLoad u slot p header = some s1) :
    (startLoadCopy u slot p header).hif = u.hif ∧ ∃ q, (startLoadCopy u slot p header).parures.get? slot = some q ∧ q.state = p.state ∧ q.handle = p.handle ∧
      q.cmd = p.cmd ∧ q.headerDue = false ∧ ∃ d ∈ allDescs (startLoadCopy u slot p header), d.purpose = .parure slot ∧ d.op = 6 := by
  obtain ⟨q, rfl, hstate, hhandle, hcmd, hdue⟩ := reserveLoad_slot h
  have hcopy : startLoadCopy u slot p header = fetchLoad { u with parures := u.parures.set slot q } slot
      (({ u with parures := u.parures.set slot q } : State).parures.getD slot p) (ceilDiv p.length 4096) := by rw [startLoadCopy, h]
  rw [hcopy]
  obtain ⟨hhif, hpar, d, hd, hpurpose, hop, -⟩ := fetchLoad_facts { u with parures := u.parures.set slot q } slot
    (({ u with parures := u.parures.set slot q } : State).parures.getD slot p) (ceilDiv p.length 4096)
  refine ⟨hhif, q, ?_, hstate, hhandle, hcmd, hdue, d, hd, hpurpose, hop⟩
  rw [hpar]
  exact tab_get_set_same _ _ _

theorem startLoadCopy_of_none {u : State} {slot : Nat} {p : Parure} {header : List Byte} (h : reserveLoad u slot p header = none) :
    startLoadCopy u slot p header = endBadLoad u slot p stNoRoom 5 := by rw [startLoadCopy, h]

theorem exec_loadParure_of_admitted {s : State} {id : Nat} {header : List Byte} (hform : header.length = 256 ∨ header = []) (h : admitted s id 0x10 = true) :
    exec (.loadParure id header) s = .next (loadStart header (begun s id) (cmdOf s id)) :=
  (formed_of (by rcases hform with h | h <;> simp [h]) : execLoadParure id header s = _).trans (hostCmd_admitted _ h)

theorem freeSlot_begun (s : State) (id : Nat) : freeSlot (begun s id) = freeSlot s := by rw [freeSlot, begun_parures, ← freeSlot]

section
variable {s s1 : State} {slot st : Nat} {p : Parure} {c : HCmd} (hslot : slot < 16) (hget : s.parures.get? slot = some p) (hstate : p.state = .loading)
  (htake : consume s (.parure slot) = some (s1, st))
include hslot hget hstate htake

theorem exec_parureCopyDone_of_header (image : List Byte) (hdue : p.headerDue = true) : exec (.parureCopyDone slot image) s = .next (endHeader s1 slot p st) := by
  refine (formed_of (decide_eq_true hslot) : execParureCopyDone slot image s = _).trans ?_
  rw [hget, htake]
  exact (when_of (by rw [hstate]; rfl)).trans (by rw [hdue]; rfl)

theorem exec_parureCopyDone_of_image (image : List Byte) (hdue : p.headerDue = false) : exec (.parureCopyDone slot image) s =
    .next (endLoad s1 slot p st (padTo p.length (if p.peer.isSome then p.received else image))) := by
  refine (formed_of (decide_eq_true hslot) : execParureCopyDone slot image s = _).trans ?_
  rw [hget, htake]
  exact (when_of (by rw [hstate]; rfl)).trans (by rw [hdue]; rfl)

end

theorem loadParure_acts {s : State} {id : Nat} {header : List Byte} (h : admitted s id 0x10 = true) : let t := loadStart header (begun s id) (cmdOf s id)
    match loadCheck (begun s id) (cmdOf s id) header with
    | some (st, n) => answers s t (cmdOf s id) st 0 n ∧ t.parures = s.parures
    | none =>
      if (newLoad (cmdOf s id)).peer.isSome then
        t.hif.done = s.hif.done ∧ t.parures.get? (freeSlot s) = some { newLoad (cmdOf s id) with headerDue := true } ∧
          ∃ d ∈ allDescs t, d.purpose = .parure (freeSlot s) ∧ d.op = 6 ∧ d.units = 1
      else match reserveLoad { begun s id with parures := s.parures.set (freeSlot s) (newLoad (cmdOf s id)) } (freeSlot s) (newLoad (cmdOf s id)) header with
      | none => answers s t (cmdOf s id) stNoRoom 0 5 ∧ t.parures.get? (freeSlot s) = none
      | some _ => t.hif.done = s.hif.done ∧ ∃ p, t.parures.get? (freeSlot s) = some p ∧
          p.state = .loading ∧ p.handle = (cmdOf s id).handle ∧ p.cmd = id ∧ p.headerDue = false ∧ ∃ d ∈ allDescs t, d.purpose = .parure (freeSlot s) ∧ d.op = 6 := by
  intro t
  have ht : t = loadStart header (begun s id) (cmdOf s id) := rfl
  clear_value t
  unfold loadStart at ht
  split
  next st n hcheck =>
    rw [hcheck] at ht
    subst ht
    exact ⟨begun_answers h, (complete_parures _ _ _ _ _ _).trans (begun_parures s id)⟩
  next hcheck =>
    rw [hcheck] at ht
    dsimp only at ht
    rw [freeSlot_begun, begun_parures] at ht
    split
    next hpeer =>
      rw [if_pos hpeer] at ht
      subst ht
      obtain ⟨hhif, hpar, d, hd, hpurpose, hop, hunits⟩ := fetchLoad_facts
        { begun s id with parures := s.parures.set (freeSlot s) { newLoad (cmdOf s id) with headerDue := true } } (freeSlot s) (newLoad (cmdOf s id)) 1
      exact ⟨by rw [hhif]; exact begun_done s id, by rw [hpar]; exact tab_get_set_same _ _ _, d, hd, hpurpose, hop, hunits⟩
    next hpeer =>
      rw [if_neg hpeer] at ht
      subst ht
      split
      next hroom =>
        rw [startLoadCopy_of_none hroom, endBadLoad, show (newLoad (cmdOf s id)).cmd = id from cmdOf_id s id]
        exact ⟨late_answers h rfl (begun_now s id), by rw [completeId_parures]; exact tab_get_erase_same _ _⟩
      next s1 hroom =>
        obtain ⟨hhif, q, hq, hstate, hhandle, hcmd, hdue, hdesc⟩ := startLoadCopy_of_room hroom
        exact ⟨by rw [hhif]; exact begun_done s id, q, hq, hstate, hhandle, hcmd.trans (cmdOf_id s id), hdue, hdesc⟩

/-- What the end of a peer's header leaves of a load (04 R153). -/
theorem endHeader_acts {s s1 : State} {slot st : Nat} {p : Parure} {c : HCmd} (hhif : s1.hif = s.hif) (hnow : s1.now = s.now)
    (hstate : p.state = .loading) (hcmd : findCmd s p.cmd = some c) (hopen : completed s p.cmd = false) : let t := endHeader s1 slot p st
    if st ≠ 0 then t.parures.get? slot = none ∧ answers s t c stUnknown 0 4
    else match headerCheck p.length p.widthCap p.received with
      | some (e, n) => t.parures.get? slot = none ∧ answers s t c e 0 n
      | none => match reserveLoad s1 slot p p.received with
        | none => t.parures.get? slot = none ∧ answers s t c stNoRoom 0 5
        | some _ => t.hif.done = s.hif.done ∧ ∃ q, t.parures.get? slot = some q ∧ q.state = .loading ∧ q.headerDue = false ∧ q.cmd = p.cmd ∧
            ∃ d ∈ allDescs t, d.purpose = .parure slot ∧ d.op = 6 := by
  intro t
  have ht : t = endHeader s1 slot p st := rfl
  clear_value t
  unfold endHeader at ht
  split
  next hst =>
    rw [if_pos (bne_iff_ne.mpr hst)] at ht
    subst ht
    exact endBadLoad_facts hhif hnow hcmd hopen
  next hst =>
    rw [if_neg (by simpa using hst)] at ht
    split
    next e n hcheck =>
      rw [hcheck] at ht
      subst ht
      exact endBadLoad_facts hhif hnow hcmd hopen
    next hcheck =>
      rw [hcheck] at ht
      subst ht
      split
      next hroom =>
        rw [startLoadCopy_of_none hroom]
        exact endBadLoad_facts hhif hnow hcmd hopen
      next hroom =>
        obtain ⟨hthif, q, hq, hqstate, -, hqcmd, hdue, hdesc⟩ := startLoadCopy_of_room hroom
        exact ⟨by rw [hthif, hhif], q, hq, hqstate.trans hstate, hdue, hqcmd, hdesc⟩

/-- What the end of a copy leaves of a load (04 R150, R152). -/
theorem endLoad_acts {s s1 : State} {slot st : Nat} {p : Parure} {c : HCmd} {img : List Byte} (hhif : s1.hif = s.hif) (hnow : s1.now = s.now)
    (hcmd : findCmd s p.cmd = some c) (hopen : completed s p.cmd = false) : let t := endLoad s1 slot p st img
    match copyCheck s1 p st img with
    | none => ∃ q, t.parures.get? slot = some q ∧ q.state = .loaded ∧ q.image = img ∧
        q.hash = parureHash q.image ∧ q.tAdm = tAdmOf q.image p.widthCap ∧ answers s t c stOk q.tAdm 0
    | some (e, n) => t.parures.get? slot = none ∧ answers s t c e 0 n := by
  intro t
  have ht : t = endLoad s1 slot p st img := rfl
  clear_value t
  unfold endLoad at ht
  split
  next hcheck =>
    rw [hcheck] at ht
    subst ht
    dsimp only
    refine ⟨{ p with state := .loaded, image := img, header := img.take 256, hash := parureHash img, tAdm := tAdmOf img p.widthCap }, ?_, rfl, rfl, rfl, rfl, ?_⟩
    · rw [completeId_parures, (placeImage_steady _ _ _).only .parures (by decide)]
      exact tab_get_set_same _ _ _
    · have hplace := placeImage_steady { s1 with parures := s1.parures.set slot { p with state := .loaded, image := img, header := img.take 256
                                                                                         hash := parureHash img, tAdm := tAdmOf img p.widthCap } }
        { p with state := .loaded, image := img, header := img.take 256, hash := parureHash img, tAdm := tAdmOf img p.widthCap } img
      have hphif := (hplace.only .hif (by decide) : (placeImage _ _ _).hif = _).trans hhif
      have hpnow := (hplace.only .now (by decide) : (placeImage _ _ _).now = _).trans hnow
      refine completeId_answers ?_ (by rw [hphif]) hpnow (by rw [findCmd_id hcmd]; exact hopen)
      rw [findCmd, hphif]
      exact hcmd
  next e n hcheck =>
    rw [hcheck] at ht
    subst ht
    exact endBadLoad_facts hhif hnow hcmd hopen

/-! ### Unloading -/

section
variable {s : State} {id slot : Nat} {p : Parure} (hadm : admitted s id 0x11 = true) (hp : parureHandle s (cmdOf s id).handle = some (slot, p))
include hadm hp

theorem exec_unloadParure_of_unused (hstate : p.state = .loaded) (hused : parureUsed s slot p = false) : exec (.unloadParure id) s =
    .next (complete { begun s id with parures := (begun s id).parures.erase slot } (cmdOf s id) stOk 0 0 0) := by
  refine (hostCmd_admitted _ hadm : execUnloadParure id s = _).trans ?_
  rw [parureHandle_begun, hp]
  dsimp only
  rw [hstate, parureUsed_begun, hused]
  rfl

theorem exec_unloadParure_of_used (hstate : p.state = .loaded) (hused : parureUsed s slot p = true) : exec (.unloadParure id) s =
    .next (complete (begun s id) (cmdOf s id) stBusy 0 0 0) := by
  refine (hostCmd_admitted _ hadm : execUnloadParure id s = _).trans ?_
  rw [parureHandle_begun, hp]
  dsimp only
  rw [hstate, parureUsed_begun, hused]
  rfl

theorem exec_unloadParure_of_loading (hstate : p.state = .loading) : exec (.unloadParure id) s =
    .next (complete (completeId { abandonFor (begun s id) (fun q => q == .parure slot) with
      parures := (abandonFor (begun s id) (fun q => q == .parure slot)).parures.erase slot } p.cmd stCancelled 0 0 0) (cmdOf s id) stOk 0 0 0) := by
  refine (hostCmd_admitted _ hadm : execUnloadParure id s = _).trans ?_
  rw [parureHandle_begun, hp]
  dsimp only
  rw [hstate]
  rfl

end

/-- Settles O17: a load ends, or goes on to its copy, at each of the three places that judge it; an unload frees the slot unless it is in use. -/
theorem paruresLoadedAndUnloaded : Obligations.ParuresLoadedAndUnloaded := by
  refine ⟨fun s id header hform hadm => ⟨_, exec_loadParure_of_admitted hform hadm, loadParure_acts hadm⟩,
    fun s slot image p s1 st c hslot hget hstate hdue htake hcmd hopen => ?_, fun s slot given image p s1 st c hslot hget hstate hdue htake himg hcmd hopen => ?_,
    fun s id slot p hadm hp hstate hused => ?_, fun s id slot p hadm hp hstate hused => ?_, fun s id slot p hadm hp hstate hother => ?_⟩
  · have htaken := consume_confined htake
    exact ⟨_, exec_parureCopyDone_of_header hslot hget hstate htake image hdue,
      endHeader_acts (htaken .hif (by decide)) (htaken .now (by decide)) hstate hcmd hopen⟩
  · have htaken := consume_confined htake
    subst himg
    exact ⟨_, exec_parureCopyDone_of_image hslot hget hstate htake given hdue, endLoad_acts (htaken .hif (by decide)) (htaken .now (by decide)) hcmd hopen⟩
  · refine ⟨_, exec_unloadParure_of_unused hadm hp hstate hused, ?_, after_answers hadm rfl (begun_now s id)⟩
    rw [complete_parures, begun_parures]
  · refine ⟨_, exec_unloadParure_of_used hadm hp hstate hused, ?_, begun_answers hadm⟩
    rw [complete_parures, begun_parures]
  · refine ⟨_, exec_unloadParure_of_loading hadm hp hstate, ?_, ?_⟩
    · rw [complete_parures, completeId_parures, ← begun_parures s id]
      exact congrArg (·.erase slot) ((abandonFor_steady _ _).only .parures (by decide))
    · have hhif : (abandonFor (begun s id) (fun q => q == .parure slot)).hif = (begun s id).hif := (abandonFor_steady _ _).only .hif (by decide)
      generalize abandonFor (begun s id) (fun q => q == .parure slot) = u at hhif
      have hopen : completed (completeId { u with parures := u.parures.erase slot } p.cmd stCancelled 0 0 0) (cmdOf s id).id = false := by
        rw [cmdOf_id, completeId_completed_other hother, completed, hhif, ← completed, begun_completed s id id (begun_hif s id)]
        exact admitted_open hadm
      have hend := complete_hasEnded (st := stOk) (r0 := 0) (r1 := 0) (n := 0) hopen
      rwa [cmdOf_id] at hend

/-! ### Facets -/

theorem complete_facets (s : State) (c : HCmd) (st r0 r1 n : Nat) : (complete s c st r0 r1 n).facets = s.facets :=
  (complete_confined s c st r0 r1 n) .facets (by decide)

/-- The facet that an admitted FACET_LOAD leaves (08 R320, R321). -/
def newFacet (c : HCmd) (slot a : Nat) (image : List Byte) : Facet :=
  { tenant := c.tenant, handle := c.handle, slot := slot, image := padTo (c.fld 32 4) image, hash := beNat (sha256 (padTo (c.fld 32 4) image)), addr := a }

/-- A session names a facet while its locket has a T1 page and holds the facet's hash (08 R323). -/
theorem facet_unnamed {s : State} {tn : Nat} {f : Facet} (h : ∀ e ∈ s.lockets, e.2.tenant = tn → e.2.facetHash = f.hash →
      e.2.state = .parkedT2 ∨ e.2.state = .parkedT3 ∨ e.2.state = .expired) :
    s.lockets.any (fun e => e.2.tenant == tn && e.2.facetHash == f.hash &&
      (e.2.state == .opened || e.2.state == .bound || e.2.state == .demoting || e.2.state == .promoting)) = false := by
  rw [List.any_eq_false]
  intro e he hnamed
  simp only [Bool.and_eq_true, beq_iff_eq] at hnamed
  obtain ⟨⟨htenant, hhash⟩, hin⟩ := hnamed
  rcases h e he htenant hhash with hs | hs | hs <;> rw [hs] at hin <;> cases hin

theorem exec_facetDrop_of_unnamed {s : State} {id : Nat} {f : Facet} (hadm : admitted s id 0x13 = true)
    (hfind : s.facets.find? (fun f => f.handle != 0 && f.handle == (cmdOf s id).handle && f.tenant == (cmdOf s id).tenant) = some f)
    (hunnamed : ∀ e ∈ s.lockets, e.2.tenant = (cmdOf s id).tenant → e.2.facetHash = f.hash →
      e.2.state = .parkedT2 ∨ e.2.state = .parkedT3 ∨ e.2.state = .expired) :
    exec (.facetDrop id) s = .next (complete (sweepFacets { begun s id with
      facets := (begun s id).facets.map fun g => if g.handle != 0 && g.handle == (cmdOf s id).handle && g.tenant == (cmdOf s id).tenant then { g with handle := 0 } else g
      ckpt := { (begun s id).ckpt with controlDirty := true } }) (cmdOf s id) stOk 0 0 0) := by
  refine (hostCmd_admitted _ hadm : execFacetDrop id s = _).trans ?_
  dsimp only
  rw [begun_facets, hfind]
  dsimp only
  rw [begun_lockets, facet_unnamed hunnamed]
  rfl

/-- Settles O18: FACET_LOAD by its checks in turn, FACET_DROP by its sweep of the facets that no step reads. -/
theorem facetsLoadedAndDropped : Obligations.FacetsLoadedAndDropped := by
  refine ⟨fun s id image slot p a hadm hhandle haddr hfresh hp hstate hsect hlen hpad hroom hfit => ?_, fun s id f hadm hfind hunnamed => ?_⟩
  · have hchecks : ((cmdOf s id).handle == 0 || !addrOk ((cmdOf s id).fld 24 8) ||
        (begun s id).facets.any (fun f => f.handle == (cmdOf s id).handle && f.tenant == (cmdOf s id).tenant)) = false := by
      rw [begun_facets]
      simp only [Bool.or_eq_false_iff, List.any_eq_false]
      exact ⟨⟨by simpa using hhandle, by simp [addrOk, haddr]⟩, fun f hf hboth => hfresh f hf (by simpa using hboth)⟩
    have hstart : exec (.facetLoad id image) s = .next (facetStart image (begun s id) (cmdOf s id)) := (hostCmd_admitted _ hadm : execFacetLoad id image s = _)
    unfold facetStart at hstart
    dsimp only at hstart
    rw [hchecks, parureHandle_begun, hp, if_neg Bool.false_ne_true] at hstart
    dsimp only at hstart
    rw [hstate, if_neg (by decide), hsect, ← hlen, hpad, if_neg (by simp), if_neg (by rw [begun_facets]; omega), hfit] at hstart
    have hwrite := (t1Write_steady { begun s id with facets := (begun s id).facets ++ [newFacet (cmdOf s id) slot a image]
                                                     ckpt := { (begun s id).ckpt with controlDirty := true } } a (padTo ((cmdOf s id).fld 32 4) image)).only
    refine ⟨_, hstart, after_answers hadm (hwrite .hif (by decide)) ((hwrite .now (by decide) : (t1Write _ _ _).now = _).trans (begun_now s id)), ?_⟩
    rw [complete_facets]
    refine (hwrite .facets (by decide) : (t1Write _ _ _).facets = _).trans ?_
    rw [begun_facets]
    rfl
  · refine ⟨_, exec_facetDrop_of_unnamed hadm hfind hunnamed, after_answers hadm rfl (begun_now s id), ?_⟩
    rw [complete_facets, sweepFacets, begun_facets]
    refine List.filter_congr fun g _ => ?_
    simp only [facetRead, begun_eph, begun_lockets]

end Sys2Proof.Machine

/-! Sessions: input (O19), opening and closing (O20), parking and reviving (O21). -/

namespace Sys2Proof.Machine
open Sys2Proof

/-! ### Input -/

theorem pinned_done (s : State) (id h : Nat) : (pinnedS s id h).hif.done = s.hif.done := begun_done s id

theorem pinned_now (s : State) (id h : Nat) : (pinnedS s id h).now = s.now := begun_now s id

theorem pinned_row (s : State) (id h : Nat) (l : Locket) : rowWidth (pinnedS s id h) h (pinnedL s id l) = rowWidth s h l := by
  rw [rowWidth, pinned_step, ← rowWidth]

theorem pinned_slot (s : State) (id h k : Nat) : loadedSlot (pinnedS s id h) k = loadedSlot s k := by
  have hpar : (pinnedS s id h).parures = s.parures := (pinned_confined s id h) .parures (by decide)
  rw [loadedSlot, hpar, ← loadedSlot]

theorem any_out_of_range {syms : List Sym} (h : ∀ x ∈ syms, x < 0x2140) : syms.any (0x2140 ≤ ·) = false := by
  rw [List.any_eq_false]
  intro x hx hle
  exact absurd (h x hx) (Nat.not_lt.mpr (of_decide_eq_true hle))

/-- The locket of a session after INGEST's symbols (08 R289). -/
def ingestedL (s : State) (id : Nat) (l : Locket) (syms : List Sym) : Locket :=
  { pinnedL s id l with
    thread := if (stepOf s l).isSome then l.thread else l.thread ++ syms
    pending := if (stepOf s l).isSome then l.pending ++ syms else l.pending
    pendingCmds := if l.state == .bound then l.pendingCmds ++ [(id, syms.length)] else l.pendingCmds
    dirtyControl := true }

section
variable {s : State} {id h : Nat} {l : Locket}

theorem appendInput_locket {op : Nat} (e : entering s id op h l = true) (hs : l.state = .opened ∨ l.state = .bound) (syms : List Sym) :
    (appendInput (pinnedS s id h) h id syms).lockets.get? h = some (ingestedL s id l syms) := by
  rw [appendInput, State.locketM_lockets, tab_get_upd_same, (pinned_facts e hs).2, Option.map_some, pinned_step]
  rfl

theorem ingestStart_of_room (e : entering s id 0x22 h l = true) (hs : l.state = .opened ∨ l.state = .bound) (hok : ingestOk (cmdOf s id) = true) (data : List Byte)
    (hsyms : ∀ x ∈ ingestSyms (cmdOf s id) data, x < 0x2140)
    (hroom : l.thread.length + l.pending.length + rowWidth s h l + (ingestSyms (cmdOf s id) data).length ≤ imgMaxThread (locketImg s l)) :
    exec (.ingest id data) s = .next (
      let t := appendInput (pinnedS s id h) h id (ingestSyms (cmdOf s id) data)
      if l.state == .opened then complete t (cmdOf s id) stOk (l.thread.length + (ingestSyms (cmdOf s id) data).length) 0 l.smp.stepIndex else t) := by
  refine (sessionCmd_entering _ e : execIngest id data s = _).trans (congrArg _ ?_)
  obtain ⟨hpin, hget⟩ := pinned_facts e hs
  unfold ingestStart
  rw [cmdOf_id, hpin]
  dsimp only
  rw [hget]
  dsimp only
  rw [pinned_img, pinned_row, any_out_of_range hsyms, hok, if_neg (by rcases hs with h | h <;> simp [pinnedL, meets, h]), if_neg (by decide)]
  exact if_neg (Nat.not_lt.mpr hroom)


theorem generateStart_checks (hs : l.state = .opened ∨ l.state = .bound) (e : entering s id 0x23 h l = true)
    (hsmp : samplerOk (cmdOf s id) (((loadedSlot s l.slot).map (·.widthCap)).getD 1) = true) (hgram : grammarOk (cmdOf s id) (locketImg s l) = true)
    (hthread : l.thread ≠ []) (hload : (cmdOf s id).flag 4 = false) : exec (.generate id) s = .next (
      if l.stm.generating then
        if (cmdOf s id).flag 4 || (cmdOf s id).flag 5 || (cmdOf s id).flag 6 then complete (pinnedS s id h) (cmdOf s id) stInvalid 0 0 0
        else (pinnedS s id h).locketM h fun l => { l with genWait := l.genWait ++ [{ cmd := id, desc := (cmdOf s id).desc }] }
      else openStream (pinnedS s id h) (cmdOf s id) h (pinnedL s id l)) := by
  refine (sessionCmd_entering _ e : execGenerate id s = _).trans (congrArg _ ?_)
  obtain ⟨hpin, hget⟩ := pinned_facts e hs
  unfold generateStart
  rw [cmdOf_id, hpin]
  dsimp only
  rw [hget]
  dsimp only
  rw [pinned_img', pinned_slot, if_neg (by rcases hs with h | h <;> simp [pinnedL, meets, h]), hload]
  have hempty : (pinnedL s id l).thread.isEmpty = false := by simpa [pinnedL, meets] using hthread
  rw [show samplerOk (cmdOf s id) (((loadedSlot s (pinnedL s id l).slot).map (·.widthCap)).getD 1) = true from hsmp, hgram, hempty, if_neg (by rw [Bool.false_and]; decide)]
  rfl

end

/-! ### CANCEL -/

/-- The counts of a CANCEL that met its stream (07 R279). -/
def cancelNoted (s : State) (disc : Bool) : State :=
  { s with stm := { s.stm with evCancelBefore := s.stm.evCancelBefore || disc, cancelBefore := if disc then wrapInc 32 s.stm.cancelBefore else s.stm.cancelBefore } }

theorem cancelOn_of_idle {s : State} {h : Nat} {l : Locket} (hl : s.lockets.get? h = some l) (hgen : l.stm.generating = false) :
    cancelOn s h false = (cancelNoted s false, stAlready, false, false) := by
  unfold cancelOn
  rw [hl]
  dsimp only
  rw [hgen]
  rfl

/-- A stream of an OPEN session has no step in progress, so nothing is discarded. -/
theorem cancelOn_of_opened {s : State} {h : Nat} {l : Locket} (hl : s.lockets.get? h = some l) (hs : l.state = .opened) (hgen : l.stm.generating = true) :
    cancelOn s h false = (cancelNoted (endStream s h stCancelled) false, stCancelled, false, false) := by
  have hstep : (unsealedStep s h l).isSome = false := by rw [unsealedStep, stepOf_opened hs]; rfl
  unfold cancelOn
  rw [hl]
  dsimp only
  rw [hgen, hstep]
  rfl

/-- A CANCEL that comes after its stream's end is counted (07 R279). -/
def cancelLate (s : State) (st : Nat) : State :=
  if st = stAlready then { s with stm := { s.stm with evCancelAfter := true, cancelAfter := wrapInc 32 s.stm.cancelAfter } } else s

theorem cancelLate_confined (s : State) (st : Nat) : confined [.stm] s (cancelLate s st) := by
  unfold cancelLate
  split
  · intro p hp
    cases p <;> first | rfl | exact absurd (by decide) hp
  · intro p _
    cases p <;> rfl

theorem cancelLate_stm (s : State) : (cancelLate s stAlready).stm = { s.stm with evCancelAfter := true, cancelAfter := wrapInc 32 s.stm.cancelAfter } := by
  rw [cancelLate, if_pos rfl]

theorem complete_stm (s : State) (c : HCmd) (st r0 r1 n : Nat) : (complete s c st r0 r1 n).stm = s.stm := (complete_confined s c st r0 r1 n) .stm (by decide)

theorem exec_cancel_of_stream {s u : State} {id h st d : Nat} {l : Locket} (e : entering s id 0x24 h l = true) (hs : l.state = .opened ∨ l.state = .bound)
    (hbarge : (cmdOf s id).flag 4 = false) (hcancel : cancelOn (entered s id h) h false = (u, st, false, false)) (hnow : u.now = s.now)
    (hdel : ((u.lockets.get? h).map (·.stm.delivered)).getD 0 = d) :
    exec (.cancel id) s = .next (complete (cancelLate u st) { cmdOf s id with accept := s.now } st d 0 l.smp.stepIndex) := by
  have hlnow : (cancelLate u st).now = s.now := ((cancelLate_confined u st) .now (by decide)).trans hnow
  have hldel : (((cancelLate u st).lockets.get? h).map (·.stm.delivered)).getD 0 = d := by
    rw [← hdel, show (cancelLate u st).lockets = u.lockets from (cancelLate_confined u st) .lockets (by decide)]
  refine (sessionCmd_entering _ e : execCancel id s = _).trans (congrArg _ ?_)
  unfold cancelStart
  rw [if_neg (by rcases hs with h | h <;> simp [meets, h]), hbarge, hcancel]
  change complete (cancelLate u st) { cmdOf s id with accept := (cancelLate u st).now } st ((((cancelLate u st).lockets.get? h).map (·.stm.delivered)).getD 0) 0 l.smp.stepIndex = _
  rw [hlnow, hldel]

/-- Settles O19: each command pins the session it enters, and does one change of its locket. -/
theorem sessionInputTaken : Obligations.SessionInputTaken := by
  refine ⟨fun s id data h l e hs hok hsyms hroom => ?_, fun s id data h l e hs hok hsyms hroom => ?_,
    fun s id h l e hs hsmp hgram hthread hload hgen => ?_, fun s id h l e hs hsmp hgram hthread hload hclear hhold hgen => ?_,
    fun s id h l e hs hgen hbarge => ?_, fun s id h l e hs hgen hbarge hcmd hwait => ?_⟩
  · have hrow : rowWidth s h l = 0 := by rw [rowWidth, stepOf_opened hs]; rfl
    refine ⟨_, ingestedL s id l (ingestSyms (cmdOf s id) data), (ingestStart_of_room e (.inl hs) hok data hsyms (by rw [hrow]; exact hroom)).trans (congrArg _ (if_pos (by rw [hs]; rfl))), ?_, ?_, pinned_mem s id l, ?_⟩
    · rw [complete_lockets]
      exact appendInput_locket e (.inl hs) _
    · simp only [ingestedL, stepOf_opened hs]
      rfl
    · exact complete_answersStep (pinned_done s id h) (pinned_now s id h) (by rw [cmdOf_id]; exact admitted_open (entering_admitted e))
  · refine ⟨_, ingestedL s id l (ingestSyms (cmdOf s id) data), (ingestStart_of_room e (.inr hs) hok data hsyms hroom).trans (congrArg _ (if_neg (by rw [hs]; decide))), appendInput_locket e (.inr hs) _, pinned_mem s id l, ?_, rfl,
      pinned_done s id h⟩
    simp only [ingestedL, hs]
    rfl
  · refine ⟨_, streamL (pinnedS s id h) (cmdOf s id) (pinnedL s id l), (generateStart_checks hs e hsmp hgram hthread hload).trans (congrArg _ (if_neg (by rw [hgen]; decide))), ?_⟩
    obtain ⟨hon, htag, hemitted, hdelivered, hheld, hcmd, hpins, hthr⟩ := streamL_facts (pinnedS s id h) (cmdOf s id) (pinnedL s id l)
    refine ⟨?_, hon, htag, hemitted, hdelivered, hheld, hcmd.trans (congrArg some (cmdOf_id s id)), by rw [hpins]; exact pinned_mem s id l, hthr, pinned_done s id h⟩
    rw [openStream_eq, State.locketM_lockets, tab_get_upd_same, (pinned_facts e hs).2]
    rfl
  · refine ⟨_, { pinnedL s id l with genWait := l.genWait ++ [{ cmd := id, desc := (cmdOf s id).desc }] },
      (generateStart_checks hs e hsmp hgram hthread hload).trans (congrArg _ ((if_pos hgen).trans (if_neg (by rw [hload, hclear, hhold]; decide)))), ?_, rfl, rfl, pinned_mem s id l, pinned_done s id h⟩
    rw [State.locketM_lockets, tab_get_upd_same, (pinned_facts e hs).2]
    rfl
  · have hmet := entered_locket e
    have hkept : (entered s id h).stm = s.stm := (entered_confined s id h) .stm (by decide)
    refine ⟨_, exec_cancel_of_stream e hs hbarge (cancelOn_of_idle hmet hgen) (entered_now s id h) (d := l.stm.delivered) ?_, ?_, ?_, ?_⟩
    · rw [show (cancelNoted (entered s id h) false).lockets.get? h = _ from hmet]
      rfl
    · rw [complete_stm, cancelLate_stm]
    · rw [complete_stm, cancelLate_stm, ← hkept]
      rfl
    · exact complete_answersStep (entered_done s id h) (entered_now s id h) (by rw [show ({ cmdOf s id with accept := s.now } : HCmd).id = id from cmdOf_id s id]; exact admitted_open (entering_admitted e))
  · obtain ⟨⟨q, hq, hqgen, hqcmd, -⟩, hopen⟩ := endStream_facts (status := stCancelled) (entered_locket e) hgen hcmd hwait
    have hend := (endStream_steady (entered s id h) h stCancelled).only
    refine ⟨_, q, exec_cancel_of_stream e (.inl hs) hbarge (cancelOn_of_opened (entered_locket e) hs hgen) ?_ (d := q.stm.delivered) ?_, ?_, hqgen, hqcmd, ?_⟩
    · exact (hend .now (by decide) : (endStream _ _ _).now = _).trans (entered_now s id h)
    · rw [show (cancelNoted (endStream (entered s id h) h stCancelled) false).lockets.get? h = _ from hq]
      rfl
    · rw [complete_lockets]
      exact hq
    · have hdone := complete_hasEnded (s := cancelLate (cancelNoted (endStream (entered s id h) h stCancelled) false) stCancelled)
        (c := { cmdOf s id with accept := s.now }) (st := stCancelled) (r0 := q.stm.delivered) (r1 := 0) (n := l.smp.stepIndex) ?_
      · rwa [show ({ cmdOf s id with accept := s.now } : HCmd).id = id from cmdOf_id s id] at hdone
      · rw [show ({ cmdOf s id with accept := s.now } : HCmd).id = id from cmdOf_id s id]
        exact hopen.trans ((begun_completed s id id (begun_hif s id)).trans (admitted_open (entering_admitted e)))

theorem locket_of_confined {l : List Part} {s t : State} (h : confined l s t) (hl : .lockets ∉ l) (k : Nat) : t.lockets.get? k = s.lockets.get? k := by
  have hkept : t.lockets = s.lockets := h .lockets hl
  rw [hkept]

/-! ### Opening a session -/

/-- The handle that a SESSION_OPEN takes (08 R293). -/
def nextHandle (s : State) : Nat := (s.lockets.freshFrom (s.lockets.length + 1) 0).getD 0

/-- The pages of a charm's ring that an open takes in the home stack (08 R294). -/
def planPages (o : OpenPlan) : List Nat := match o.charm with | some (_, m) => ringPages o.parure.image m.symbols.length | none => []

/-- The new locket stands in the directory with its pages (08 R294). -/
def placedOpen (s u : State) (c : HCmd) (o : OpenPlan) (page : Nat) (fs : List Nat) : State :=
  presentPages { u with lockets := u.lockets.set (nextHandle s) (freshLocket u c o (homeStack s) page) } (nextHandle s) (homeStack s) (planPages o) fs

/-- The locket that an open places. -/
def placedLocket (s u : State) (c : HCmd) (o : OpenPlan) (page : Nat) (fs : List Nat) : Locket :=
  { freshLocket u c o (homeStack s) page with
    ptes := ((planPages o).zip fs).foldl (fun t e => t.set e.1 { state := .present, stack := homeStack s, frame := e.2 }) (freshLocket u c o (homeStack s) page).ptes }

theorem placedOpen_locket (s u : State) (c : HCmd) (o : OpenPlan) (page : Nat) (fs : List Nat) :
    (placedOpen s u c o page fs).lockets.get? (nextHandle s) = some (placedLocket s u c o page fs) := by
  simp only [placedOpen, presentPages, State.locketM_lockets, tab_get_upd_same, tab_get_set_same, Option.map_some]
  rfl

theorem placedOpen_confined (s u : State) (c : HCmd) (o : OpenPlan) (page : Nat) (fs : List Nat) : confined [.lockets, .t1] u (placedOpen s u c o page fs) :=
  confined_trans (fun p hp => by cases p <;> first | rfl | exact absurd (by decide) hp) (presentPages_steady _ _ _ _ _).only

theorem openStart_of_plain {s u : State} {c : HCmd} {o : OpenPlan} {page : Nat} {fs : List Nat} (hcheck : openCheck s c = .inr o) (hcharm : o.charm = none)
    (hfit : arenaFit s (homeStack s) (locketArena s c.tenant o.parure.image) = some page)
    (htake : takeFrames s (homeStack s) 0 (.inUse (nextHandle s)) = (u, some fs)) :
    openStart s c = opened (placedOpen s u c o page fs) (nextHandle s) c.id := by
  unfold openStart
  rw [hcheck]
  dsimp only
  rw [hcharm, hfit]
  dsimp only [List.length_nil]
  unfold nextHandle at htake
  rw [htake]
  unfold placedOpen planPages nextHandle
  rw [hcharm]

/-- An open that copies its charm's ring: it holds the replica that the copy reads, and waits (08 R294). -/
def ringOpening (s u : State) (c : HCmd) (o : OpenPlan) (ci : Nat) (m : Charm) (page : Nat) (fs : List Nat) : State :=
  let p := placedOpen s u c o page fs
  (match ringSource m (homeStack s) with | some st => pinReplica p ci st (pinCmd c.id) | none => p).locketM (nextHandle s)
    fun l => { l with move := some { src := 0, cmd := some c.id } }

theorem ringOpening_confined (s u : State) (c : HCmd) (o : OpenPlan) (ci : Nat) (m : Charm) (page : Nat) (fs : List Nat) :
    confined [.charms, .lockets] (placedOpen s u c o page fs) (ringOpening s u c o ci m page fs) := by
  have hmove (v : State) : confined [.charms, .lockets] v (v.locketM (nextHandle s) fun l => { l with move := some { src := 0, cmd := some c.id } }) := by
    intro p hp
    cases p <;> first | rfl | exact absurd (by decide) hp
  unfold ringOpening
  dsimp only
  split
  · exact confined_trans (confined_more (pinReplica_steady _ _ _ _).only (by decide)) (hmove _)
  · exact hmove _

theorem ringOpening_locket (s u : State) (c : HCmd) (o : OpenPlan) (ci : Nat) (m : Charm) (page : Nat) (fs : List Nat) :
    (ringOpening s u c o ci m page fs).lockets.get? (nextHandle s) = some { placedLocket s u c o page fs with move := some { src := 0, cmd := some c.id } } := by
  have hpin : (match ringSource m (homeStack s) with
      | some st => pinReplica (placedOpen s u c o page fs) ci st (pinCmd c.id)
      | none => placedOpen s u c o page fs).lockets = (placedOpen s u c o page fs).lockets := by
    split
    · exact (pinReplica_steady _ _ _ _).only .lockets (by decide)
    · rfl
  rw [ringOpening, State.locketM_lockets, hpin, tab_get_upd_same, placedOpen_locket]
  rfl

/-- The copy of a charm's ring into the pages of a new session (08 R294). -/
def ringCopy (c : HCmd) (o : OpenPlan) (m : Charm) (h : Nat) : Desc :=
  { cookie := 0, op := 1, tenant := c.tenant, units := ceilDiv (ringBytes o.parure.image m.symbols.length) 4096
    dstList := List.replicate (max 1 (ceilDiv (ringBytes o.parure.image m.symbols.length) 4096)) zeroUnit, purpose := .ring h }

theorem openStart_of_charm {s u : State} {c : HCmd} {o : OpenPlan} {ci : Nat} {m : Charm} {page : Nat} {fs : List Nat} (hcheck : openCheck s c = .inr o)
    (hcharm : o.charm = some (ci, m)) (hring : ringBytes o.parure.image m.symbols.length ≠ 0)
    (hfit : arenaFit s (homeStack s) (locketArena s c.tenant o.parure.image) = some page)
    (htake : takeFrames s (homeStack s) (ringPages o.parure.image m.symbols.length).length (.inUse (nextHandle s)) = (u, some fs)) :
    openStart s c = submit (ringOpening s u c o ci m page fs) (ringCopy c o m (nextHandle s)) := by
  unfold openStart
  rw [hcheck]
  dsimp only
  rw [hcharm, hfit]
  dsimp only
  unfold nextHandle at htake
  rw [htake]
  dsimp only
  rw [if_neg hring]
  unfold ringOpening placedOpen planPages nextHandle
  rw [hcharm]
  rfl

/-- A locket whose SESSION_OPEN completes at a tick (08 R294). -/
def openedLocket (now : Tick) (l : Locket) : Locket := { l with move := none, lastTouch := now, lastSeal := now, dirtyControl := true }

theorem opened_of_locket {s : State} {h id : Nat} {l : Locket} (hl : s.lockets.get? h = some l) :
    opened s h id = completeId (s.locketM h (openedLocket s.now)) id stOk h (l.page / 4096) 0 := by
  rw [opened, hl]
  rfl

/-! ### Closing a session -/

/-- A close that has to end nothing but itself goes on to the packets of its session (08 R295). -/
theorem closeSession_of_parked {s : State} {c : HCmd} {h : Nat} {l l' : Locket} (hl : s.lockets.get? h = some l)
    (hs : l.state = .parkedT2 ∨ l.state = .parkedT3 ∨ l.state = .expired) (hl' : l'.state = l.state) :
    closeSession s c h l' = finishClose (s.locketM h fun l => { l with closing := some c.id }) h := by
  have hdemote : abandonDemotion s h stCancelled = s := by
    unfold abandonDemotion
    rw [hl]
    dsimp only
    rw [if_neg (by rcases hs with h | h | h <;> rw [h] <;> decide)]
  unfold closeSession
  rw [hl']
  rcases hs with h | h | h <;> rw [h] <;> dsimp only <;> rw [hdemote] <;> rfl

theorem endStream_of_idle {s : State} {h st : Nat} {l : Locket} (hl : s.lockets.get? h = some l) (hgen : l.stm.generating = false) : endStream s h st = s := by
  rw [endStream, hl]
  dsimp only
  rw [hgen]
  rfl

theorem withdrawJoin_of_none {s : State} {h st : Nat} (hj : ∀ x ∈ s.eph.ctxs.vals, ∀ j ∈ x.joins, j.id ≠ h) : withdrawJoin s h st = s := by
  have hempty : (((s.eph.ctxs.vals.map (·.joins)).flatten).filter (fun j => j.id == h)) = [] := by
    rw [List.filter_eq_nil_iff]
    intro j hjs hid
    obtain ⟨js, hjs, hmem⟩ := List.mem_flatten.1 hjs
    obtain ⟨x, hx, rfl⟩ := List.mem_map.1 hjs
    exact hj x hx j hmem (by simpa using hid)
  unfold withdrawJoin
  dsimp only
  rw [hempty]
  rfl

theorem closeSession_of_opened {s : State} {c : HCmd} {h : Nat} {l l' : Locket} (hl : s.lockets.get? h = some l) (hs : l.state = .opened)
    (hgen : l.stm.generating = false) (hj : ∀ x ∈ s.eph.ctxs.vals, ∀ j ∈ x.joins, j.id ≠ h) (hl' : l'.state = l.state) :
    closeSession s c h l' = finishClose ((abandonRecompute s h).locketM h fun l => { l with closing := some c.id }) h := by
  have hdemote : abandonDemotion s h stCancelled = s := by
    unfold abandonDemotion
    rw [hl]
    dsimp only
    rw [if_neg (by rw [hs]; decide)]
  unfold closeSession
  rw [hl', hs]
  dsimp only
  rw [hdemote, endStream_of_idle hl hgen, withdrawJoin_of_none hj]
  rfl

/-- Settles O20: an open takes its plan's place, or is refused by its check; a close frees what is left once the session's packets are written. -/
theorem sessionsOpenedAndClosed : Obligations.SessionsOpenedAndClosed := by
  refine ⟨fun s id st hadm hcheck => ?_, fun s id o page hadm hcheck hcharm hfit => ?_, fun s id o ci m page u fs hadm hcheck hcharm hring hfit htake => ?_,
    fun s id h l e hs => ?_, fun s id h l e hs hpkt => ?_, fun s id h l e hs hgen hpkt hjoin => ?_⟩
  · refine ⟨complete (begun s id) (cmdOf s id) st 0 0 0, (hostCmd_admitted _ hadm : execSessionOpen id s = _).trans ?_, begun_answers hadm,
      confined_trans (begun_confined s id) (confined_more (complete_confined _ _ _ _ _ _) (by decide))⟩
    rw [openStart, hcheck]
  · have htake := takeFrames_zero (begun s id) (homeStack (begun s id)) (.inUse (nextHandle (begun s id)))
    have hplace := placedOpen_confined (begun s id) (lowater (begun s id)) (cmdOf s id) o page []
    have hlow := (lowater_steady (begun s id)).only
    have hget := placedOpen_locket (begun s id) (lowater (begun s id)) (cmdOf s id) o page []
    have hexec : exec (.sessionOpen id) s = _ := (hostCmd_admitted _ hadm : execSessionOpen id s = _)
    rw [openStart_of_plain hcheck hcharm hfit htake, opened_of_locket hget, cmdOf_id] at hexec
    have hhif : (placedOpen (begun s id) (lowater (begun s id)) (cmdOf s id) o page []).hif = (begun s id).hif :=
      (hplace .hif (by decide) : _ = _).trans (hlow .hif (by decide))
    have hnow : (placedOpen (begun s id) (lowater (begun s id)) (cmdOf s id) o page []).now = s.now :=
      (hplace .now (by decide) : _ = _).trans ((hlow .now (by decide) : _ = _).trans (begun_now s id))
    generalize placedOpen (begun s id) (lowater (begun s id)) (cmdOf s id) o page [] = p at *
    refine ⟨_, nextHandle (begun s id), openedLocket p.now (placedLocket (begun s id) (lowater (begun s id)) (cmdOf s id) o page []), hexec, ?_, ?_⟩
    · rw [completeId_lockets, State.locketM_lockets, tab_get_upd_same, hget, Option.map_some]
    · have hanswer := late_answers (st := stOk) (r0 := nextHandle (begun s id)) (r1 := page / 4096)
        (u := p.locketM (nextHandle (begun s id)) (openedLocket p.now)) hadm hhif hnow
      have hthread : (placedLocket (begun s id) (lowater (begun s id)) (cmdOf s id) o page []).thread = [] := by
        show (o.charm.map _).getD [] = []
        rw [hcharm]
        rfl
      exact ⟨rfl, rfl, rfl, hthread, rfl, rfl, rfl, rfl, rfl, rfl, rfl, rfl, rfl, hanswer⟩
  · have htaken : confined [.ast, .lockets] (begun s id) u := by
      have hframes := (takeFrames_steady (begun s id) (homeStack (begun s id)) (ringPages o.parure.image m.symbols.length).length (.inUse (nextHandle (begun s id)))).only
      rwa [nextHandle, htake] at hframes
    have hplace := placedOpen_confined (begun s id) u (cmdOf s id) o page fs
    have hring' := ringOpening_confined (begun s id) u (cmdOf s id) o ci m page fs
    have hget := ringOpening_locket (begun s id) u (cmdOf s id) o ci m page fs
    have hsub := (submit_steady (ringOpening (begun s id) u (cmdOf s id) o ci m page fs) (ringCopy (cmdOf s id) o m (nextHandle (begun s id)))).only
    have hdone : (ringOpening (begun s id) u (cmdOf s id) o ci m page fs).hif = (begun s id).hif := by
      exact (hring' .hif (by decide) : _ = _).trans ((hplace .hif (by decide) : _ = _).trans (htaken .hif (by decide)))
    refine ⟨_, nextHandle (begun s id), { placedLocket (begun s id) u (cmdOf s id) o page fs with move := some { src := 0, cmd := some (cmdOf s id).id } },
      prepare _ _ (ringCopy (cmdOf s id) o m (nextHandle (begun s id))), (hostCmd_admitted _ hadm : execSessionOpen id s = _).trans (congrArg _ (openStart_of_charm hcheck hcharm hring hfit htake)),
      (locket_of_confined hsub (by decide) _).trans hget, rfl, ?_, ?_, ?_, rfl, submit_held _ _, rfl, rfl, ?_⟩
    · show (o.charm.map _).getD [] = _
      rw [hcharm]
      rfl
    · show (match o.charm with | some (_, m) => m.symbols.length | none => 0) = _
      rw [hcharm]
    · show (o.charm.map _).getD 0 = _
      rw [hcharm]
      rfl
    · rw [show (submit _ _).hif = _ from hsub .hif (by decide), hdone]
      exact begun_done s id
  · refine ⟨complete (entered s id h) (cmdOf s id) stBusy 0 (locketCode l.state) 0, (sessionCmd_entering _ e : execSessionClose id s = _).trans (congrArg _ ?_),
      complete_answers (entered_done s id h) (entered_now s id h) (by rw [cmdOf_id]; exact admitted_open (entering_admitted e))⟩
    unfold closeSession
    rw [show (meets s id l).state = l.state from rfl]
    rcases hs with h | h <;> rw [h]
  · have hmet := entered_locket e
    refine ⟨_, (sessionCmd_entering _ e : execSessionClose id s = _).trans (congrArg _ (closeSession_of_parked hmet hs rfl)), ?_⟩
    rw [cmdOf_id]
    exact closed_facts e (by rw [hpkt]; rfl) ⟨_, hmet, rfl⟩ rfl rfl
  · have hmet := entered_locket e
    have heph : (entered s id h).eph = s.eph := (entered_confined s id h) .eph (by decide)
    have hkept := (abandonRecompute_steady (entered s id h) h).only
    refine ⟨_, (sessionCmd_entering _ e : execSessionClose id s = _).trans (congrArg _ (closeSession_of_opened hmet hs hgen (by rw [heph]; exact hjoin) rfl)), ?_⟩
    rw [cmdOf_id]
    obtain ⟨q, hq, hqpkt⟩ := abandonRecompute_packets hmet
    exact closed_facts e hpkt ⟨q, hq, hqpkt⟩ (hkept .hif (by decide)) (hkept .now (by decide))

end Sys2Proof.Machine

/-! Sessions: parking and reviving (O21). -/

namespace Sys2Proof.Machine
open Sys2Proof

/-! ### PARK -/

theorem tierOpen_entered (s : State) (id h tier : Nat) : tierOpen (entered s id h) tier = tierOpen s tier := by
  have hlan : (entered s id h).lan = s.lan := (entered_confined s id h) .lan (by decide)
  have hlpc : (entered s id h).lpc = s.lpc := (entered_confined s id h) .lpc (by decide)
  have hbays : (entered s id h).bays = s.bays := (entered_confined s id h) .bays (by decide)
  have hwritable : writable (entered s id h) = writable s := funext fun n => by simp only [writable, State.bay, hbays]
  simp only [tierOpen, t2Fitted, t3Fitted, hwritable, hlan, hlpc]

section
variable {s : State} {id h : Nat} {l : Locket} (e : entering s id 0x25 h l = true) (htier : (cmdOf s id).fld 16 1 = 2 ∨ (cmdOf s id).fld 16 1 = 3)
include e htier

theorem exec_park_of_busy (hbay : (cmdOf s id).fld 17 1 < 4 ∨ (cmdOf s id).fld 17 1 = 0xFF)
    (hs : l.state = .bound ∨ l.state = .demoting ∨ l.state = .promoting ∨ (l.state = .opened ∧ (l.stm.generating = true ∨ l.pins ≠ [] ∨ l.recomputing = true))) :
    exec (.park id) s = .next (complete (entered s id h) (cmdOf s id) stBusy 0 (locketCode l.state) 0) := by
  refine (sessionCmd_entering _ e : execPark id s = _).trans (congrArg _ ?_)
  unfold parkStart
  dsimp only
  rw [if_neg (by rcases htier with ht | ht <;> rcases hbay with hb | hb <;> simp [ht, hb]), if_pos]
  · rfl
  · rcases hs with hs | hs | hs | ⟨hs, hwhy⟩
    · simp [meets, hs]
    · simp [meets, hs]
    · simp [meets, hs]
    · rcases hwhy with hw | hw | hw <;> simp [meets, hs, hw]

theorem exec_park_of_started {u : State} (hbay : (cmdOf s id).fld 17 1 = 0xFF) (hplain : (cmdOf s id).flag 4 = false)
    (hs : (l.state = .opened ∧ l.stm.generating = false ∧ l.pins = [] ∧ l.recomputing = false) ∨ (l.state = .parkedT2 ∧ (cmdOf s id).fld 16 1 = 3))
    (hopen : tierOpen s ((cmdOf s id).fld 16 1) = true)
    (hstart : startDemotion (entered s id h) h ((cmdOf s id).fld 16 1) (demoteBay (entered s id h) 0xFF) (some id) = some u) : exec (.park id) s = .next u := by
  refine (sessionCmd_entering _ e : execPark id s = _).trans (congrArg _ ?_)
  unfold parkStart
  dsimp only
  rw [hbay, hplain, cmdOf_id, tierOpen_entered, hopen, if_neg Bool.false_ne_true, hstart]
  obtain ⟨hstate, hgen, hpins, hrec⟩ | ⟨hstate, ht3⟩ := hs
  · simp only [show (meets s id l).state = .opened from hstate, show (meets s id l).stm.generating = false from hgen,
      show (meets s id l).pins = [] from hpins, show (meets s id l).recomputing = false from hrec]
    rcases htier with ht | ht <;> simp [ht]
  · simp only [show (meets s id l).state = .parkedT2 from hstate, ht3]
    rfl

end

/-! ### REVIVE -/

/-- The locket that a REVIVE meets: touched, and pinned by it (08 R296, R297). -/
def revivedLocket (s : State) (id : Nat) (l : Locket) : Locket := { meets s id l with pins := if l.pins.contains id then l.pins else l.pins ++ [id] }

theorem revive_pin_hif {s : State} {id h : Nat} {l : Locket} (e : entering s id 0x26 h l = true) (hs : l.state ≠ .demoting) :
    (takePin (entered s id h) h id).hif = (begun s id).hif ∧ (takePin (entered s id h) h id).now = s.now := by
  rw [(revive_pin e hs).1]
  exact ⟨rfl, begun_now s id⟩

theorem exec_revive_of_there {s : State} {id h : Nat} {l : Locket} (e : entering s id 0x26 h l = true) (hs : l.state = .opened ∨ l.state = .bound) :
    exec (.revive id) s = .next (complete (takePin (entered s id h) h id) (cmdOf s id) stOk (reviveWords h l.page false).1 (reviveWords h l.page false).2 0) := by
  refine (sessionCmd_entering _ e : execRevive id s = _).trans (congrArg _ ?_)
  unfold reviveStart
  dsimp only
  rw [cmdOf_id, (revive_pin e (by rcases hs with h | h <;> rw [h] <;> decide)).2]
  dsimp only
  rcases hs with h | h <;> rw [show (meets s id l).state = _ from h] <;> rfl

/-- The locket of a session whose extent is being read (08 R304). -/
def promotingLocket (p u : State) (l : Locket) (id slot page : Nat) (fs : List Nat) (q : Locket) : Locket :=
  { q with state := .promoting, dst := 1, slot := slot, footprint := locketArena u q.tenant (((loadedSlot p slot).map (·.image)).getD [])
           move := some { src := if l.state == .parkedT2 then 2 else 3, extent := q.extent, cmd := some id, home := homeStack p, frames := fs, page := page } }

theorem reviveParked_of_room {p u : State} {c : HCmd} {h : Nat} {l w : Locket} {hd : ExtHead} {slot page : Nat} {fs : List Nat}
    (hcheck : reviveCheck p l = .inr (hd, w, slot)) (hfit : arenaFit p (homeStack p) (locketArena p l.tenant (((loadedSlot p slot).map (·.image)).getD [])) = some page)
    (htake : takeFrames p (homeStack p) hd.pages (.inUse h) = (u, some fs)) (hkv : hd.kv = true) :
    ∃ d, reviveParked p c h l = submit (u.locketM h (promotingLocket p u l c.id slot page fs)) d ∧ d.op = 3 ∧ d.purpose = .promote h ∧ d.extent = l.extent := by
  unfold reviveParked
  rw [hcheck]
  dsimp only
  rw [hfit]
  dsimp only
  rw [hkv, if_pos rfl, Nat.add_zero, htake]
  refine ⟨_, rfl, ?_, ?_, ?_⟩ <;> rfl

/-! ### The end of a demotion -/

/-- The place that a demotion leaves behind is free: the pages in T1, or the T2 extent (08 R299). -/
def demotionFreed (s : State) (h : Nat) (l : Locket) (m : TierMove) : State :=
  if m.src = 1 then releaseFrames (vacateAll s h) l.home (l.reserve ++ l.area) else freeExtent s l.extent

theorem demotionFreed_facts {s : State} {h : Nat} {l : Locket} {m : TierMove} {e : Extent} (hl : s.lockets.get? h = some l)
    (he : s.extents.get? m.extent = some e) (hne : l.extent ≠ m.extent) :
    (∃ q, (demotionFreed s h l m).lockets.get? h = some q ∧ q.dst = l.dst) ∧ (demotionFreed s h l m).extents.get? m.extent = some e ∧
      (demotionFreed s h l m).hif = s.hif ∧ (demotionFreed s h l m).now = s.now := by
  unfold demotionFreed
  split
  · have hvac := (vacateAll_steady s h).only
    have hrel := (releaseFrames_steady (vacateAll s h) l.home (l.reserve ++ l.area)).only
    refine ⟨⟨{ l with ptes := [] }, (locket_of_confined hrel (by decide) h).trans (vacateAll_get hl), rfl⟩, ?_, ?_, ?_⟩
    · rw [show (releaseFrames _ _ _).extents = _ from hrel .extents (by decide), show (vacateAll s h).extents = _ from hvac .extents (by decide)]
      exact he
    · exact (hrel .hif (by decide) : _ = _).trans (hvac .hif (by decide))
    · exact (hrel .now (by decide) : _ = _).trans (hvac .now (by decide))
  · have hfree := (freeExtent_steady s l.extent).only
    exact ⟨⟨l, (locket_of_confined hfree (by decide) h).trans hl, rfl⟩, freeExtent_other hne he, hfree .hif (by decide), hfree .now (by decide)⟩

/-- The locket that a committed demotion leaves (08 R299). -/
def demotedLocket (s : State) (m : TierMove) (q : Locket) : Locket :=
  { coldLocket q with state := if q.dst = 2 then .parkedT2 else .parkedT3, encrypted := m.keySlot.isSome, kvAbsent := if m.src = 1 then q.dropped else q.kvAbsent
                      extent := m.extent, units := ((s.extents.get? m.extent).map (·.units)).getD 0, lastTouch := s.now, demoteBlocked := false
                      bay := if q.dst = 3 then ((s.extents.get? m.extent).map (·.bay)).getD 0xFF else 0xFF }

/-- The command that a move performs completes, where it has one (08 R299, R304). -/
def moveEnds (s : State) (m : TierMove) (st r0 r1 : Nat) : State := match m.cmd with | some id => completeId s id st r0 r1 0 | none => s

theorem moveEnds_lockets (s : State) (m : TierMove) (st r0 r1 : Nat) : (moveEnds s m st r0 r1).lockets = s.lockets := by
  unfold moveEnds
  split
  · exact completeId_lockets _ _ _ _ _ _
  · rfl

theorem moveEnds_hasEnded {s u : State} {m : TierMove} {st r0 r1 id : Nat} {c : HCmd} (hcmd : m.cmd = some id) (hfind : findCmd s id = some c)
    (hopen : completed s id = false) (hhif : u.hif = s.hif) : hasEnded (moveEnds u m st r0 r1) id st := by
  rw [moveEnds, hcmd]
  exact completeId_hasEnded hfind hopen hhif

theorem exec_demotionCommit_of_sealed {s : State} {h : Nat} {l : Locket} {m : TierMove} {e : Extent} {r : DescDone} (hclk : s.lan.refclk = true)
    (hl : s.lockets.get? h = some l) (hs : l.state = .demoting) (hm : l.move = some m) (hr : doneFor s (.demote h) = some r) (hpins : l.pins = [])
    (hpkt : l.packets.all (·.written) = true) (he : s.extents.get? m.extent = some e) (hsealed : e.sealed = true) :
    exec (.demotionCommit h) s = .next (
      let u := demotionFreed (takeDone s r) h l m
      moveEnds (u.locketM h (demotedLocket u m)) m stOk 0 0) := by
  show execDemotionCommit h s = _
  rw [execDemotionCommit, clocked_on hclk, hl]
  dsimp only
  rw [hm, hr]
  dsimp only
  rw [if_neg (by simp [hs, hpins, hpkt, he, hsealed])]
  rfl

/-! ### The end of a promotion -/

theorem undoPromotion_locket {s : State} {h : Nat} {l : Locket} {m : TierMove} (hl : s.lockets.get? h = some l) (hs : l.state = .promoting) (hm : l.move = some m) :
    ∃ q, (undoPromotion s h).lockets.get? h = some q ∧ q.state = (if m.src = 2 then .parkedT2 else .parkedT3) ∧ q.extent = l.extent := by
  unfold undoPromotion
  rw [hl]
  dsimp only
  rw [hs, hm, if_pos (by decide)]
  dsimp only
  rw [State.locketM_lockets, tab_get_upd_same, (unpinReplicas_steady _ _).only .lockets (by decide), (releaseFrames_steady _ _ _).only .lockets (by decide), hl]
  exact ⟨_, rfl, rfl, rfl⟩

theorem exec_promotionCommit_of_read {s v : State} {h st : Nat} {l : Locket} {m : TierMove} (hl : s.lockets.get? h = some l) (hs : l.state = .promoting)
    (hm : l.move = some m) (htake : consume s (.promote h) = some (v, st)) : exec (.promotionCommit h) s = .next (endPromotion v h l m st) := by
  show execPromotionCommit h s = _
  rw [execPromotionCommit, hl]
  dsimp only
  rw [hm, htake]
  exact when_of (by rw [hs]; rfl)

theorem endPromotion_of_bad {v : State} {h st : Nat} {l : Locket} {m : TierMove} (hst : st ≠ 0) :
    endPromotion v h l m st = moveEnds (undoPromotion v h) m stTarnished 0 0x15 := by
  unfold endPromotion
  exact if_pos (bne_iff_ne.mpr hst)

theorem endPromotion_of_good {v : State} {h : Nat} {l : Locket} {m : TierMove} {hd : ExtHead} {plain : List Byte} (hplain : sourcePlain v l = some (hd, plain, []))
    (hdigest : bodyDigest [] plain = hd.digest) (hkv : hd.kv = true) : endPromotion v h l m 0 =
    moveEnds (freeExtent (buildPromoted v h l m hd plain) l.extent) m stOk (reviveWords h m.page false).1 (reviveWords h m.page false).2 := by
  unfold endPromotion
  rw [hplain]
  dsimp only
  rw [hdigest, hkv, if_neg (by decide), if_neg (by simp)]
  rfl

/-- Settles O21: PARK and REVIVE by the state they meet, the idle clock by its two events, and a move's end by what its read or its seal gave. -/
theorem sessionsParkedAndRevived : Obligations.SessionsParkedAndRevived := by
  refine ⟨fun s id h l e htier hbay hs => ?_, fun s id h l u e htier hbay hplain hs hopen hstart => exec_park_of_started e htier hbay hplain hs hopen hstart,
    fun s h tier bay cmd u hstart => startDemotion_facts hstart, fun s id h l e hs => ?_, fun s id h l st code e hs hcheck => ?_,
    fun s id h l hd w slot page u fs e hs hplan hkv hu => ?_, fun s h l hclk hl hserve hmode hrun hblock httl hdue => ?_,
    fun s h l hclk hl hserve hmode hrun hblock httl hdue hretry => ?_, fun s h l m e r hclk hl hs hm hr hpins hpkt he hsealed hne => ?_,
    fun s h l m v st hl hs hm htake hst => ?_, fun s h l m v hd plain hl hs hm htake hplain hdigest hkv => ?_⟩
  · exact ⟨_, exec_park_of_busy e htier hbay hs,
      complete_answers (entered_done s id h) (entered_now s id h) (by rw [cmdOf_id]; exact admitted_open (entering_admitted e))⟩
  · obtain ⟨hhif, hnow⟩ := revive_pin_hif e (by rcases hs with h | h <;> rw [h] <;> decide)
    exact ⟨_, exec_revive_of_there e hs, after_answers (entering_admitted e) hhif hnow⟩
  · obtain ⟨hhif, hnow⟩ := revive_pin_hif e (by rcases hs with h | ⟨h, -⟩ <;> rw [h] <;> decide)
    refine ⟨complete (takePin (entered s id h) h id) (cmdOf s id) st 0 code 0, (revive_parked e hs).trans (congrArg _ ?_), after_answers (entering_admitted e) hhif hnow⟩
    rw [reviveParked, hcheck]
  · obtain ⟨hhif, -⟩ := revive_pin_hif e (by rcases hs with h | ⟨h, -⟩ <;> rw [h] <;> decide)
    obtain ⟨hcheck, hfit, htaken⟩ := hplan
    obtain ⟨d, hd', hop, hpurpose, hext⟩ := reviveParked_of_room (c := cmdOf s id) hcheck hfit htaken hkv
    obtain ⟨q, hq⟩ := Option.isSome_iff_exists.1 hu
    have hsub := (submit_steady (u.locketM h (promotingLocket (takePin (entered s id h) h id) u (revivedLocket s id l) (cmdOf s id).id slot page fs)) d).only
    have hframes : u.hif = (takePin (entered s id h) h id).hif := by
      have hkept := (takeFrames_steady (takePin (entered s id h) h id) (homeStack (takePin (entered s id h) h id)) hd.pages (.inUse h)).only .hif (by decide)
      rwa [htaken] at hkept
    refine ⟨_, promotingLocket (takePin (entered s id h) h id) u (revivedLocket s id l) (cmdOf s id).id slot page fs q, prepare _ _ d,
      (revive_parked e hs).trans (congrArg _ hd'), ?_, rfl, submit_held _ _, hop, hpurpose, hext, ?_⟩
    · refine (locket_of_confined hsub (by decide) h).trans ?_
      rw [State.locketM_lockets, tab_get_upd_same, hq]
      rfl
    · refine (congrArg Hif.done (hsub .hif (by decide) : (submit _ _).hif = _)).trans ?_
      rw [State.locketM_hif, hframes, hhif]
      exact begun_done s id
  · obtain ⟨t, q, hexec, hrest⟩ := ttl_both s h l hclk hl hserve hmode hrun httl hdue (.inl hblock)
    rw [hblock] at hexec
    exact ⟨t, q, hexec, hrest⟩
  · obtain ⟨t, q, hexec, hrest⟩ := ttl_both s h l hclk hl hserve hmode hrun httl hdue (.inr ⟨hblock, hretry⟩)
    rw [hblock] at hexec
    exact ⟨t, q, hexec, hrest⟩
  · obtain ⟨⟨q, hq, hdst⟩, hext, hhif, hnow⟩ := demotionFreed_facts (s := takeDone s r) hl he hne
    refine ⟨_, demotedLocket (demotionFreed (takeDone s r) h l m) m q, exec_demotionCommit_of_sealed hclk hl hs hm hr hpins hpkt he hsealed, ?_, ?_, rfl, ?_, hnow, rfl,
      fun id c hcmd hfind hopen => moveEnds_hasEnded hcmd hfind hopen hhif⟩
    · rw [moveEnds_lockets, State.locketM_lockets, tab_get_upd_same, hq]
      rfl
    · rw [← hdst]
      rfl
    · show ((_ : Option Extent).map (·.units)).getD 0 = _
      rw [hext]
      rfl
  · have htaken := consume_confined htake
    obtain ⟨q, hq, hstate, hext⟩ := undoPromotion_locket ((locket_of_confined htaken (by decide) h).trans hl) hs hm
    have hundo := (undoPromotion_steady v h).only
    refine ⟨_, q, (exec_promotionCommit_of_read hl hs hm htake).trans (congrArg _ (endPromotion_of_bad hst)), by rw [moveEnds_lockets]; exact hq, hstate, hext,
      fun id c hcmd hfind hopen => moveEnds_hasEnded hcmd hfind hopen ((hundo .hif (by decide) : _ = _).trans (htaken .hif (by decide)))⟩
  · have htaken := consume_confined htake
    obtain ⟨q, hq, hstate, hhome, hpage, hext, htouch⟩ := buildPromoted_facts (m := m) (hd := hd) (plain := plain) ((locket_of_confined htaken (by decide) h).trans hl)
    have hbuild := (buildPromoted_steady v h l m hd plain).only
    have hfree := (freeExtent_steady (buildPromoted v h l m hd plain) l.extent).only
    refine ⟨_, q, (exec_promotionCommit_of_read hl hs hm htake).trans (congrArg _ (endPromotion_of_good hplain hdigest hkv)), ?_, hstate, hhome, hpage, hext,
      htouch.trans (htaken .now (by decide)), fun id c hcmd hfind hopen => moveEnds_hasEnded hcmd hfind hopen ?_⟩
    · rw [moveEnds_lockets, show (freeExtent _ _).lockets = _ from hfree .lockets (by decide)]
      exact hq
    · exact (hfree .hif (by decide) : _ = _).trans ((hbuild .hif (by decide) : _ = _).trans (htaken .hif (by decide)))

end Sys2Proof.Machine

/-! Charms and their replicas (O22). -/

namespace Sys2Proof.Machine
open Sys2Proof

theorem charm_of_confined {l : List Part} {s t : State} (h : confined l s t) (hl : .charms ∉ l) (k : Nat) : t.charms.get? k = s.charms.get? k := by
  have hkept : t.charms = s.charms := h .charms hl
  rw [hkept]

theorem charmM_get {s : State} {ci : Nat} {m : Charm} (f : Charm → Charm) (h : s.charms.get? ci = some m) : (s.charmM ci f).charms.get? ci = some (f m) := by
  show (s.charms.upd ci f).get? ci = _
  rw [tab_get_upd_same, h]
  rfl

/-! ### Creating and dropping -/

/-- The state in which a CHARM_CREATE has touched and pinned its source (08 R296, R297). -/
def charmEntered (s : State) (id h : Nat) : State :=
  takePin ((begun s id).locketM h fun l => { l with lastTouch := max l.lastTouch (cmdOf s id).accept, dirtyControl := true }) h id

/-- The source of a CHARM_CREATE, touched and pinned by it. -/
def charmSourceLocket (s : State) (id : Nat) (l : Locket) : Locket :=
  { l with lastTouch := max l.lastTouch (cmdOf s id).accept, dirtyControl := true, pins := [id] }

/-- What a CHARM_CREATE requires of its source (08 Table 8-11, checks 3 to 5). -/
structure CharmReady (s : State) (id h : Nat) (l : Locket) : Prop where
  found : findSession s (cmdOf s id).tenant ((cmdOf s id).fld 16 8) = some (h, l)
  there : s.lockets.get? h = some l
  usable : l.unusable = false
  live : l.replay = false
  stands : opening l = false
  stays : l.closing = none
  opened : l.state = .opened
  idle : l.stm.generating = false
  free : l.pins = []
  whole : l.dropped = false
  settled : l.recomputing = false
  length : (cmdOf s id).fld 24 4 ≠ 0
  base : l.base = (cmdOf s id).fld 24 4

section
variable {s : State} {id h : Nat} {l : Locket} (hadm : admitted s id 0x27 = true) (hhandle : (cmdOf s id).handle ≠ 0)
  (hname : charmNamed s (cmdOf s id).tenant (cmdOf s id).handle = none)
  (htier : (cmdOf s id).fld 28 1 = 0 ∨ (((cmdOf s id).fld 28 1 = 2 ∨ (cmdOf s id).fld 28 1 = 3) ∧ tierOpen s ((cmdOf s id).fld 28 1) = true))
  (hready : CharmReady s id h l)
include hadm hhandle hname htier hready

theorem charmEntered_eq : charmEntered s id h =
    ((begun s id).locketM h fun l => { l with lastTouch := max l.lastTouch (cmdOf s id).accept, dirtyControl := true }).locketM h
      fun l => { l with pins := if l.pins.contains id then l.pins else l.pins ++ [id] } :=
  (create_enters hadm hhandle hname htier hready.found hready.there hready.opened hready.free).2

theorem charmEntered_charms : (charmEntered s id h).charms = s.charms := by
  rw [charmEntered_eq hadm hhandle hname htier hready]
  exact (begun_confined s id) .charms (by decide)

theorem charmEntered_hif : (charmEntered s id h).hif = (begun s id).hif := by
  rw [charmEntered_eq hadm hhandle hname htier hready]
  rfl

theorem charmEntered_now : (charmEntered s id h).now = s.now := by
  rw [charmEntered_eq hadm hhandle hname htier hready]
  exact begun_now s id

/-- A CHARM_CREATE whose checks pass names the charm of its digest or builds it (08 Table 8-11). -/
theorem exec_charmCreate_of_ready : exec (.charmCreate id) s = .next (
    match s.charms.find? (fun e => e.2.tenant == (cmdOf s id).tenant && e.2.digest == charmDigestOf l.parureHash l.facetHash (l.thread.take ((cmdOf s id).fld 24 4))) with
    | some (ci, m) =>
      if 16 ≤ m.names.length then complete (charmEntered s id h) (cmdOf s id) stNoRoom 0 0 0
      else complete (((charmEntered s id h).charmM ci fun m => { m with names := m.names ++ [(cmdOf s id).handle] }).ckptM fun k => { k with controlDirty := true })
        (cmdOf s id) stOk ci 1 0
    | none =>
      match buildCharm (charmEntered s id h) (cmdOf s id) (charmSourceLocket s id l)
        (charmDigestOf l.parureHash l.facetHash (l.thread.take ((cmdOf s id).fld 24 4))) with
      | some s => s
      | none => complete (charmEntered s id h) (cmdOf s id) stNoRoom 0 0 0) := by
  rw [← charmEntered_charms hadm hhandle hname htier hready]
  refine (create_enters hadm hhandle hname htier hready.found hready.there hready.opened hready.free).1.trans (congrArg _ ?_)
  exact charmFrom_checks (l := charmSourceLocket s id l) hready.usable hready.live hready.stands hready.stays hready.opened hready.idle
    (congrArg (fun x => [x]) (cmdOf_id s id).symm) hready.whole hready.settled hready.length hready.base

end

theorem buildCharm_facts {s u : State} {c : HCmd} {l : Locket} {dg : Nat} (hbuild : buildCharm s c l dg = some u) :
    ∃ ci m, u.charms.get? ci = some m ∧ m.names = [c.handle] ∧ m.tenant = c.tenant ∧ m.digest = dg ∧
    m.symbols = l.thread.take (c.fld 24 4) ∧ m.cmd = some c.id ∧ m.anchor = l.home ∧ m.parureHash = l.parureHash ∧ m.facetHash = l.facetHash := by
  unfold buildCharm at hbuild
  dsimp only at hbuild
  split at hbuild
  · cases hbuild
  next ci _ =>
    split at hbuild
    · cases hbuild
    · split at hbuild
      · cases hbuild
      next addr _ =>
        obtain ⟨fs, -, hmaster⟩ := Option.bind_eq_some_iff.1 hbuild
        obtain ⟨m, hm, h1, h2, h3, h4, h5, h6, h7, h8⟩ := placeCharm_facts c l (locketImg s l) dg ci addr (charmPages (locketImg s l) (c.fld 24 4) l.gbase)
          (takeFree s l.home (charmPages (locketImg s l) (c.fld 24 4) l.gbase) (.replica (replicaId ci l.home))).1 fs
        obtain ⟨q, hq, k1, k2, k3, k4, k5, k6, k7, k8⟩ := placeMaster_facts hmaster hm
        exact ⟨ci, q, hq, k1.trans h1, k2.trans h2, k3.trans h3, k4.trans h4, k5.trans h5, k6.trans h6, k7.trans h7, k8.trans h8⟩

/-- The charm that a CHARM_DROP leaves: without the name that the command gives (08 R317). -/
def unnamed (m : Charm) (name : Nat) : Charm := { m with names := m.names.filter (· != name) }

theorem charmNamed_begun (s : State) (id t name : Nat) : charmNamed (begun s id) t name = charmNamed s t name := by
  have hkept : (begun s id).charms = s.charms := (begun_confined s id) .charms (by decide)
  rw [charmNamed, hkept, ← charmNamed]

/-- The state in which a CHARM_DROP has taken its name away. -/
def nameDropped (s : State) (id ci : Nat) : State :=
  ((begun s id).charmM ci fun m => unnamed m (cmdOf s id).handle).ckptM fun k => { k with controlDirty := true }

theorem exec_charmDrop_of_named {s : State} {id ci : Nat} {m : Charm} (hadm : admitted s id 0x28 = true)
    (hname : charmNamed s (cmdOf s id).tenant (cmdOf s id).handle = some (ci, m)) :
    exec (.charmDrop id) s = .next (complete (settleCharm (nameDropped s id ci) ci) (cmdOf s id) stOk 0 0 0) := by
  refine (hostCmd_admitted _ hadm : execCharmDrop id s = _).trans ?_
  rw [charmNamed_begun, hname]
  rfl

theorem complete_charms (s : State) (c : HCmd) (st r0 r1 n : Nat) : (complete s c st r0 r1 n).charms = s.charms :=
  (complete_confined s c st r0 r1 n) .charms (by decide)

theorem exec_charmTtlExpiry_of_due {s : State} {ci : Nat} {m : Charm} (hclk : s.lan.refclk = true) (hm : s.charms.get? ci = some m) (hserve : serving s = true)
    (hrefs : charmRefs s m = 0) (hcmd : m.cmd = none) (httl : m.ttl ≠ 0xFFFFFFFF) (hdue : m.zeroSince + m.ttl * 100000000 ≤ s.now) :
    exec (.charmTtlExpiry ci) s = .next (settleCharm (s.charmM ci fun m => { m with names := [] }) ci) := by
  show execCharmTtlExpiry ci s = _
  rw [execCharmTtlExpiry, hm]
  exact when_of (by simp [hserve, hrefs, hcmd, httl, due, hclk, hdue])

/-! ### Replicas -/

section
variable {s v : State} {ci k st : Nat} {m : Charm} (hk : k < 8) (hm : s.charms.get? ci = some m) (hs : replicaState m k = .promoting)
  (htake : consume s (.replica ci k) = some (v, st))
include hk hm hs htake

theorem exec_replicaPromoteDone_of_good (hst : st = 0) : exec (.replicaPromoteDone ci k) s = .next (
    let s1 := finishCharm ((unpinReplicas v (pinCopy ci k)).replicaM ci k fun r => { r with state := .present, idleSince := (unpinReplicas v (pinCopy ci k)).now }) ci
    (s1.lockets.filter (fun e => e.2.ringDue && e.2.charmTable == replicaId ci k)).foldl (fun s e => ringIfReady s e.1) s1) := by
  refine (formed_of (decide_eq_true hk) : execReplicaPromoteDone ci k s = _).trans ?_
  rw [hm, htake]
  dsimp only
  rw [if_neg (by rw [show (m.replicas.getD k {}).state = _ from hs]; decide), hst]
  rfl

theorem exec_replicaPromoteDone_of_bad (h0 : st ≠ 0) (h4 : st ≠ 4) (hcmd : m.cmd = none) : exec (.replicaPromoteDone ci k) s = .next (
    (releaseFrames (unpinReplicas v (pinCopy ci k)) k (m.replicas.getD k {}).frames).replicaM ci k fun r => { r with state := .absent, frames := [] }) := by
  refine (formed_of (decide_eq_true hk) : execReplicaPromoteDone ci k s = _).trans ?_
  rw [hm, htake]
  dsimp only
  rw [if_neg (by rw [show (m.replicas.getD k {}).state = _ from hs]; decide), if_neg (by simp [h0, h4]), hcmd]
  rfl

end

theorem ringIfReady_charms (xs : List (Nat × Locket)) (s : State) : (xs.foldl (fun s e => ringIfReady s e.1) s).charms = s.charms := by
  induction xs generalizing s with
  | nil => rfl
  | cons x xs ih => rw [List.foldl_cons, ih, (ringIfReady_steady s x.1).only .charms (by decide)]

/-- A replica whose copy has ended well is PRESENT (08 Table 8-13). -/
theorem replica_present {s v : State} {ci k : Nat} {m : Charm} (hm : s.charms.get? ci = some m) (hnames : m.names ≠ []) (hs : replicaState m k = .promoting)
    (htake : consume s (.replica ci k) = some (v, 0)) : ∃ q,
    (finishCharm ((unpinReplicas v (pinCopy ci k)).replicaM ci k fun r => { r with state := .present, idleSince := (unpinReplicas v (pinCopy ci k)).now })
      ci).charms.get? ci = some q ∧ replicaState q k = .present := by
  have hlt := replica_lt (m := m) (k := k) (by rw [hs]; decide)
  obtain ⟨q1, hq1, ⟨-, hnames1⟩, hlen1, -⟩ := unpin_get (pin := pinCopy ci k) ((charm_of_confined (consume_confined htake) (by decide) ci).trans hm)
  obtain ⟨q2, hq2, ⟨-, hnames2⟩, hrep2⟩ := replicaM_get (f := fun r => { r with state := .present, idleSince := (unpinReplicas v (pinCopy ci k)).now }) hq1 (hlen1 ▸ hlt)
  obtain ⟨q, hq, hrep⟩ := finishCharm_facts hq2 (by rw [hnames2, hnames1]; exact hnames)
  exact ⟨q, hq, by rw [replicaState, hrep, hrep2]⟩

theorem replica_absent {s v : State} {ci k st : Nat} {m : Charm} (hm : s.charms.get? ci = some m) (hs : replicaState m k = .promoting)
    (htake : consume s (.replica ci k) = some (v, st)) (fs : List Nat) : ∃ q,
    ((releaseFrames (unpinReplicas v (pinCopy ci k)) k fs).replicaM ci k fun r => { r with state := .absent, frames := [] }).charms.get? ci = some q ∧
      replicaState q k = .absent := by
  have hlt := replica_lt (m := m) (k := k) (by rw [hs]; decide)
  obtain ⟨q1, hq1, -, hlen1, -⟩ := unpin_get (pin := pinCopy ci k) ((charm_of_confined (consume_confined htake) (by decide) ci).trans hm)
  obtain ⟨q, hq, -, hrep⟩ := replicaM_get (f := fun r => { r with state := .absent, frames := [] })
    ((charm_of_confined (releaseFrames_steady (unpinReplicas v (pinCopy ci k)) k fs).only (by decide) ci).trans hq1) (hlen1 ▸ hlt)
  exact ⟨q, hq, by rw [replicaState, hrep]⟩

theorem replicaM_confined (s : State) (ci k : Nat) (f : Replica → Replica) : confined [.charms] s (s.replicaM ci k f) := by
  intro p hp
  cases p <;> first | rfl | exact absurd (by decide) hp

section
variable {s : State} {ci k : Nat} {m : Charm} (hclk : s.lan.refclk = true) (hk : k < 8) (hm : s.charms.get? ci = some m)
  (hpins : (m.replicas.getD k {}).pins = [])
include hclk hk hm hpins

theorem exec_replicaEvictStart_of_idle (hs : replicaState m k = .present) (httl : m.t1Ttl ≠ 0xFFFFFFFF)
    (hdue : (m.replicas.getD k {}).idleSince + m.t1Ttl * 100000000 ≤ s.now) (hfree : m.master ≠ 0 ∨ k ≠ m.anchor) : exec (.replicaEvictStart ci k) s = .next (
    (tlbDropId s (replicaId ci k)).replicaM ci k fun r => { r with state := .evicting, evictSince := (tlbDropId s (replicaId ci k)).now }) := by
  have hkept : (decide (m.master = 0) && k == m.anchor) = false := by
    rcases hfree with h | h <;> simp [h]
  have hidle : (m.t1Ttl != 0xFFFFFFFF && due s ((m.replicas.getD k {}).idleSince + m.t1Ttl * 100000000)) = true := by
    rw [due, hclk, decide_eq_true hdue, bne_iff_ne.mpr httl]
    rfl
  refine ((formed_of (decide_eq_true hk)).trans (clocked_on hclk) : execReplicaEvictStart ci k s = _).trans ?_
  rw [hm]
  dsimp only
  rw [hkept, hidle, show (m.replicas.getD k {}).state = _ from hs, hpins]
  refine (when_of rfl).trans ?_
  rw [Bool.and_false]
  rfl

theorem exec_replicaEvictCommit_of_evicting (hs : replicaState m k = .evicting) : exec (.replicaEvictCommit ci k) s = .next (
    (tlbDropId (releaseFrames s k (m.replicas.getD k {}).frames) (replicaId ci k)).replicaM ci k fun _ => {}) := by
  refine ((formed_of (decide_eq_true hk)).trans (clocked_on hclk) : execReplicaEvictCommit ci k s = _).trans ?_
  rw [hm]
  dsimp only
  rw [show (m.replicas.getD k {}).state = _ from hs, hpins]
  exact when_of rfl

end

/-- Settles O22: the charm that a command names is found, changed and looked up again, and a replica is followed through each change of its state. -/
theorem charmsAndReplicasKept : Obligations.CharmsAndReplicasKept := by
  refine ⟨fun s id h l ci m hadm hhandle hname htier h1 h2 h3 h4 h5 h6 h7 h8 h9 h10 h11 h12 h13 hfind hm hroom => ?_,
    fun s id h l u hadm hhandle hname htier h1 h2 h3 h4 h5 h6 h7 h8 h9 h10 h11 h12 h13 hfind hbuild => ?_,
    fun s c l dg u hbuild => buildCharm_facts hbuild, fun s id ci m hadm hname hm => ?_, fun s ci k m v hk hm hnames htake hs => ?_,
    fun s ci k m v st hk hm htake h0 h4 hcmd hs => ?_, fun s ci k m hclk hk hm hs hpins httl hdue hfree => ?_,
    fun s ci k m hclk hk hm hs hpins => ?_, fun s ci m hclk hm hserve hrefs hcmd httl hdue => ?_⟩
  · have hready : CharmReady s id h l := ⟨h1, h2, h3, h4, h5, h6, h7, h8, h9, h10, h11, h12, h13⟩
    have hexec := exec_charmCreate_of_ready hadm hhandle hname (.inl htier) hready
    rw [hfind] at hexec
    dsimp only at hexec
    rw [if_neg (Nat.not_le.mpr hroom)] at hexec
    refine ⟨_, hexec, ?_, after_answers hadm (charmEntered_hif hadm hhandle hname (.inl htier) hready) (charmEntered_now hadm hhandle hname (.inl htier) hready)⟩
    rw [complete_charms]
    exact charmM_get (fun m => { m with names := m.names ++ [(cmdOf s id).handle] }) (by rw [charmEntered_charms hadm hhandle hname (.inl htier) hready]; exact hm)
  · have hready : CharmReady s id h l := ⟨h1, h2, h3, h4, h5, h6, h7, h8, h9, h10, h11, h12, h13⟩
    have hexec := exec_charmCreate_of_ready hadm hhandle hname htier hready
    rw [hfind] at hexec
    dsimp only at hexec
    rwa [show buildCharm (charmEntered s id h) (cmdOf s id) (charmSourceLocket s id l) _ = some u from hbuild] at hexec
  · have hbegun : (begun s id).charms.get? ci = some m := (charm_of_confined (begun_confined s id) (by decide) ci).trans hm
    have hsettle := settle_facts (u := nameDropped s id ci) (s := s) (charmM_get (fun m => unnamed m (cmdOf s id).handle) hbegun) (begun_lockets s id)
    have hkept := (settleCharm_steady (nameDropped s id ci) ci).only
    refine ⟨_, exec_charmDrop_of_named hadm hname, after_answers hadm (hkept .hif (by decide)) ((hkept .now (by decide) : _ = _).trans (begun_now s id)), ?_⟩
    rw [complete_charms]
    exact hsettle
  · obtain ⟨q, hq, hpresent⟩ := replica_present hm hnames hs htake
    exact ⟨_, q, exec_replicaPromoteDone_of_good hk hm hs htake rfl, by rw [ringIfReady_charms]; exact hq, hpresent⟩
  · obtain ⟨q, hq, habsent⟩ := replica_absent hm hs htake (m.replicas.getD k {}).frames
    exact ⟨_, q, exec_replicaPromoteDone_of_bad hk hm hs htake h0 h4 hcmd, hq, habsent⟩
  · have hdrop := (tlbDropId_steady s (replicaId ci k)).only
    obtain ⟨q, hq, -, hrep⟩ := replicaM_get (f := fun r => { r with state := .evicting, evictSince := (tlbDropId s (replicaId ci k)).now })
      ((charm_of_confined hdrop (by decide) ci).trans hm) (replica_lt (by rw [hs]; decide))
    refine ⟨_, q, exec_replicaEvictStart_of_idle hclk hk hm hpins hs httl hdue hfree, hq, by rw [replicaState, hrep], ?_,
      confined_trans (confined_more hdrop (by decide)) (confined_more (replicaM_confined _ _ _ _) (by decide))⟩
    rw [hrep]
    exact hdrop .now (by decide)
  · have hrel := (releaseFrames_steady s k (m.replicas.getD k {}).frames).only
    have hdrop := (tlbDropId_steady (releaseFrames s k (m.replicas.getD k {}).frames) (replicaId ci k)).only
    obtain ⟨q, hq, -, hrep⟩ := replicaM_get (f := fun _ => {}) ((charm_of_confined hdrop (by decide) ci).trans ((charm_of_confined hrel (by decide) ci).trans hm))
      (replica_lt (by rw [hs]; decide))
    exact ⟨_, q, exec_replicaEvictCommit_of_evicting hclk hk hm hpins hs, hq, by rw [replicaState, hrep], by rw [hrep],
      confined_trans (confined_more hrel (by decide)) (confined_trans (confined_more hdrop (by decide)) (confined_more (replicaM_confined _ _ _ _) (by decide)))⟩
  · refine ⟨_, exec_charmTtlExpiry_of_due hclk hm hserve hrefs hcmd httl hdue, ?_⟩
    have hsettle := settle_facts (u := s.charmM ci fun m => { m with names := [] }) (s := s) (charmM_get _ hm) rfl
    rwa [if_pos ⟨rfl, hrefs, hcmd⟩] at hsettle

end Sys2Proof.Machine

/-! Tables, contexts and accounts (O23). -/

namespace Sys2Proof.Machine
open Sys2Proof

theorem complete_eph (s : State) (c : HCmd) (st r0 r1 n : Nat) : (complete s c st r0 r1 n).eph = s.eph := (complete_confined s c st r0 r1 n) .eph (by decide)

/-! ### Tables -/

theorem exec_ephemerisLoad_of_bad {s : State} {id st n : Nat} {img : List Byte} (hadm : admitted s id 0x38 = true)
    (hcheck : tableCheck (begun s id) (cmdOf s id) (padTo 8192 img) = some (st, n)) :
    exec (.ephemerisLoad id img) s = .next (complete (begun s id) (cmdOf s id) st 0 n 0) := by
  refine (hostCmd_admitted _ hadm : execEphemerisLoad id img s = _).trans ?_
  rw [loadTable, hcheck]

/-- The state in which a loaded table is the shadow (10 R383, R384). -/
def shadowed (s : State) (t : EphTable) : State := s.ephM fun e => { e with shadow := some t, spillArea := max e.spillArea (areaBytes (capWith s t)) }

theorem exec_ephemerisLoad_of_good {s : State} {id : Nat} {img : List Byte} (hadm : admitted s id 0x38 = true)
    (hcheck : tableCheck (begun s id) (cmdOf s id) (padTo 8192 img) = none) :
    exec (.ephemerisLoad id img) s = .next (complete (shadowed (begun s id) (readTable (padTo 8192 img))) (cmdOf s id) stOk 0 0 0) := by
  refine (hostCmd_admitted _ hadm : execEphemerisLoad id img s = _).trans ?_
  rw [loadTable, hcheck]
  rfl

theorem exec_ephemerisSwitch_of_room {s : State} {id : Nat} (hadm : admitted s id 0x39 = true) (hshadow : s.eph.shadow.isSome = true)
    (hat : s.eph.active = none ∨ (cmdOf s id).fld 16 8 = 0 ∨ s.eph.frame < (cmdOf s id).fld 16 8) : exec (.ephemerisSwitch id) s = .next (
    if s.eph.switch.isSome then complete (begun s id) (cmdOf s id) stBusy 0 0 0
    else (begun s id).ephM fun e => { e with switch := some { atFrame := (cmdOf s id).fld 16 8, accepted := (cmdOf s id).accept, cmd := some id } }) := by
  refine (hostCmd_admitted _ hadm : execEphemerisSwitch id s = _).trans (congrArg _ ?_)
  dsimp only
  rw [begun_eph, if_neg (switch_room hshadow hat), cmdOf_id]

/-! ### Contexts -/

theorem freeSpill_begun (s : State) (id slot : Nat) (p : Parure) : freeSpill (begun s id) slot p = freeSpill s slot p := by
  simp only [freeSpill, begun_eph]

theorem flag_found {s : State} {id op : Nat} (hadm : admitted s id op = true) : releaseFlag s id = (cmdOf s id).flag 4 := by
  rw [releaseFlag, admitted_found hadm]
  rfl

/-- The tables that a new context must keep covered: the active one, and the shadow one while a switch is noted (10 R389). -/
def tablesInForce (s : State) : List EphTable := s.eph.active.toList ++ (if s.eph.switch.isSome then s.eph.shadow.toList else [])

theorem exec_batchDefine_of_room {s : State} {id k a : Nat} {p : Parure} (hadm : admitted s id 0x30 = true) (hflag : (cmdOf s id).flag 4 = false)
    (hn : (cmdOf s id).fld 16 1 < 8) (hp : parureHandle s (cmdOf s id).handle = some (k, p)) (hs : p.state = .loaded) (hdraft : imgDraft p.header = false)
    (hfree : s.eph.ctxs.has ((cmdOf s id).fld 16 1) = false) (hroom : (s.eph.ctxs.filter (fun e => e.2.slot == k)).length < p.contexts)
    (hspill : freeSpill s k p = some a) : exec (.batchDefine id) s = .next (
    let u := (begun s id).ephM fun e => { e with ctxs := e.ctxs.set ((cmdOf s id).fld 16 1) { slot := k, spillBase := a } }
    if (tablesInForce s).all (fun x => (coverFail u x).isNone) then complete u (cmdOf s id) stOk 0 0 0 else complete (begun s id) (cmdOf s id) stNoTime 0 0 0) := by
  refine ((if_neg (by rw [flag_found hadm, hflag]; decide)).trans (hostCmd_admitted _ hadm) : execBatchDefine id s = _).trans (congrArg _ ?_)
  unfold defineStart
  dsimp only
  rw [if_neg (Nat.not_le.mpr hn), parureHandle_begun, hp]
  dsimp only
  rw [hs, hdraft, if_neg (by decide), if_neg Bool.false_ne_true, begun_eph, hfree, if_neg Bool.false_ne_true, if_pos hroom, freeSpill_begun, hspill]
  rfl

theorem exec_batchRelease_of_idle {s : State} {id : Nat} {x : Ctx} (hadm : admitted s id 0x30 = true) (hflag : (cmdOf s id).flag 4 = true)
    (hx : s.eph.ctxs.get? ((cmdOf s id).fld 16 1) = some x) (hs : x.state = .idle) (hsus : x.suspended = none) (hmem : x.members = []) (hjoin : x.joins = []) :
    exec (.batchRelease id) s = .next (complete ((begun s id).ephM fun e => { e with ctxs := e.ctxs.erase ((cmdOf s id).fld 16 1) }) (cmdOf s id) stOk 0 0 0) := by
  refine ((if_neg (by rw [flag_found hadm, hflag]; decide)).trans (hostCmd_admitted _ hadm) : execBatchRelease id s = _).trans (congrArg _ ?_)
  rw [begun_eph, hx]
  dsimp only
  rw [hs, hsus, hmem, hjoin]
  rfl

theorem entered_eph (s : State) (id h : Nat) : (entered s id h).eph = s.eph := (entered_confined s id h) .eph (by decide)

theorem pinned_eph (s : State) (id h : Nat) : (pinnedS s id h).eph = s.eph := (pinned_confined s id h) .eph (by decide)

theorem ctxM_get {s : State} {n : Nat} {x : Ctx} (f : Ctx → Ctx) (h : s.eph.ctxs.get? n = some x) : (s.ctxM n f).eph.ctxs.get? n = some (f x) := by
  show (s.eph.ctxs.upd n f).get? n = _
  rw [tab_get_upd_same, h]
  rfl

/-- A context with one more pending join (10 R392). -/
def withJoin (c : HCmd) (h : Nat) (x : Ctx) : Ctx := { x with joins := x.joins ++ [{ id := h, cmd := c.id, since := c.accept }] }

/-- A context with one more leave noted (10 R392). -/
def withLeave (c : HCmd) (h : Nat) (x : Ctx) : Ctx := { x with leaves := x.leaves ++ [{ id := h, cmd := c.id }] }

section
variable {s : State} {id h : Nat} {l : Locket} {x : Ctx} (hx : s.eph.ctxs.get? ((cmdOf s id).fld 16 1) = some x)
include hx

theorem exec_batchJoin_of_open (e : entering s id 0x31 h l = true) (hs : l.state = .opened) (hfree : joinPending s h = false) (hslot : l.slot = x.slot) :
    exec (.batchJoin id) s = .next (lowater ((pinnedS s id h).ctxM ((cmdOf s id).fld 16 1) (withJoin (cmdOf s id) h))) := by
  refine (sessionCmd_entering _ e : execBatchJoin id s = _).trans (congrArg _ ?_)
  have hpending : joinPending (entered s id h) h = false := by rw [joinPending, entered_eph, ← joinPending]; exact hfree
  obtain ⟨hpin, hget⟩ := pinned_facts e (.inl hs)
  unfold joinStart
  dsimp only
  rw [entered_eph, hx]
  dsimp only
  rw [hpending, if_neg (by simp [meets, hs]), cmdOf_id, hpin, hget]
  dsimp only
  rw [if_neg (by simp [pinnedL, meets, hs]), if_neg (by simp [pinnedL, meets, hslot])]
  unfold withJoin
  rw [cmdOf_id]

theorem exec_batchLeave_of_pending (e : entering s id 0x32 h l = true) (hjoin : ∃ j ∈ x.joins, j.id = h) :
    exec (.batchLeave id) s = .next (complete (withdrawJoin (entered s id h) h stCancelled) (cmdOf s id) stOk 0 0 0) := by
  refine (sessionCmd_entering _ e : execBatchLeave id s = _).trans (congrArg _ ?_)
  unfold leaveStart
  dsimp only
  rw [entered_eph, hx]
  exact if_pos (by simpa using hjoin)

theorem exec_batchLeave_of_member (e : entering s id 0x32 h l = true) (hjoin : ∀ j ∈ x.joins, j.id ≠ h) (hs : l.state = .bound)
    (hctx : l.context = (cmdOf s id).fld 16 1) : exec (.batchLeave id) s = .next ((entered s id h).ctxM ((cmdOf s id).fld 16 1) (withLeave (cmdOf s id) h)) := by
  refine (sessionCmd_entering _ e : execBatchLeave id s = _).trans (congrArg _ ?_)
  unfold leaveStart
  dsimp only
  rw [entered_eph, hx]
  dsimp only
  rw [if_neg (by simpa using hjoin), if_pos (by simp [meets, hs, hctx])]
  rfl

end

/-! ### Accounts -/

theorem accountBytes_begun (s : State) (id : Nat) : accountBytes (begun s id) = accountBytes s := by
  funext t
  simp only [accountBytes, begun_eph]

/-- The accounts of tenants after an ACCOUNT_READ: cleared where it asks for that (10 R414). -/
def accountsRead (s : State) (c : HCmd) (ts : List Nat) : State :=
  if c.flag 4 then s.ephM fun e => { e with accounts := ts.foldl (fun a t => a.set t { since := s.now }) e.accounts } else s

theorem accountsRead_confined (s : State) (c : HCmd) (ts : List Nat) : confined [.eph] s (accountsRead s c ts) := by
  unfold accountsRead
  split
  · exact ephM_confined _ _
  · intro p _
    cases p <;> rfl

theorem accountsRead_accounts (s : State) (c : HCmd) (ts : List Nat) : (accountsRead s c ts).eph.accounts =
    if c.flag 4 then ts.foldl (fun a t => a.set t { since := s.now }) s.eph.accounts else s.eph.accounts := by
  unfold accountsRead
  split <;> rfl

theorem exec_accountRead_of_room {s : State} {id : Nat} (hadm : admitted s id 0x61 = true) (hn : (cmdOf s id).fld 18 2 ≠ 0)
    (hlast : (cmdOf s id).fld 16 2 + (cmdOf s id).fld 18 2 ≤ 1024) (haddr : addrOk ((cmdOf s id).fld 24 8) = true)
    (htn : (cmdOf s id).tenant = 0 ∨ ((cmdOf s id).fld 16 2 = (cmdOf s id).tenant ∧ (cmdOf s id).fld 18 2 = 1 ∧ (cmdOf s id).flag 4 = false)) :
    exec (.accountRead id) s = .next (
      let ts := (List.range ((cmdOf s id).fld 18 2)).map (· + (cmdOf s id).fld 16 2)
      submitPut (accountsRead (begun s id) (cmdOf s id) ts) (cmdOf s id) ((cmdOf s id).fld 24 8) (ts.map (accountBytes s)).flatten stOk ((cmdOf s id).fld 18 2) 0) := by
  refine (hostCmd_admitted _ hadm : execAccountRead id s = _).trans (congrArg _ ?_)
  dsimp only
  rw [if_neg, accountBytes_begun]
  · rfl
  · rw [haddr]
    simp only [Bool.not_true, Bool.or_false, Bool.or_eq_true, beq_iff_eq, decide_eq_true_eq, Bool.and_eq_true, bne_iff_ne, not_or, not_and]
    refine ⟨⟨hn, by omega⟩, fun h0 => ?_⟩
    obtain htn | ⟨hfirst, hone, hflag⟩ := htn
    · exact absurd htn h0
    · exact ⟨⟨fun hne => hne hfirst, by omega⟩, by rw [hflag]; decide⟩

/-- Settles O23: each command checks what it meets and changes one table, one context or the accounts. -/
theorem tablesAndContextsTaken : Obligations.TablesAndContextsTaken := by
  refine ⟨fun s id img st n hadm hcheck => ?_, fun s id img hadm hcheck => ?_, fun s id hadm hnone hshadow hat => ?_, fun s id hadm hsome hshadow hat => ?_,
    fun s id k p a hadm hflag hn hp hs hdraft hfree hroom hspill => ?_, fun s id x hadm hflag hx hs hsus hmem hjoin => ?_,
    fun s id h l x e hx hs hfree hslot => ?_, fun s id h l x e hx hjoin hcmd => ?_, fun s id h l x e hx hjoin hs hctx => ?_,
    fun s id hadm hn hlast haddr htn => ?_⟩
  · exact ⟨_, exec_ephemerisLoad_of_bad hadm hcheck, begun_answers hadm, (complete_eph _ _ _ _ _ _).trans (begun_eph s id)⟩
  · have hcap (t : EphTable) : capWith (begun s id) t = capWith s t := by rw [capWith, begun_eph, ← capWith]
    refine ⟨_, exec_ephemerisLoad_of_good hadm hcheck, after_answers hadm rfl (begun_now s id), ?_, ?_, ?_, ?_⟩
    · rw [complete_eph]
      rfl
    · rw [complete_eph, ← begun_eph s id]
      rfl
    · rw [complete_eph, ← hcap, ← begun_eph s id]
      rfl
    · exact confined_trans (confined_more (begun_confined s id) (by decide)) (confined_trans (confined_more (ephM_confined _ _) (by decide))
        (confined_more (complete_confined _ _ _ _ _ _) (by decide)))
  · refine ⟨_, (exec_ephemerisSwitch_of_room hadm hshadow hat).trans (congrArg _ (if_neg (by rw [hnone]; decide))), rfl, begun_done s id, ?_⟩
    exact confined_trans (confined_more (begun_confined s id) (by decide)) (confined_more (ephM_confined _ _) (by decide))
  · exact ⟨_, (exec_ephemerisSwitch_of_room hadm hshadow hat).trans (congrArg _ (if_pos hsome)), begun_answers hadm,
      (complete_eph _ _ _ _ _ _).trans (begun_eph s id)⟩
  · refine ⟨_, exec_batchDefine_of_room hadm hflag hn hp hs hdraft hfree hroom hspill, ?_⟩
    change if (tablesInForce s).all _ = true then _ else _
    dsimp only
    split
    · refine ⟨after_answers hadm rfl (begun_now s id), ?_⟩
      rw [complete_eph]
      exact tab_get_set_same _ _ _
    · exact ⟨begun_answers hadm, (complete_eph _ _ _ _ _ _).trans (begun_eph s id)⟩
  · refine ⟨_, exec_batchRelease_of_idle hadm hflag hx hs hsus hmem hjoin, after_answers hadm rfl (begun_now s id), ?_⟩
    rw [complete_eph, ← begun_eph s id]
    rfl
  · have hlow := (lowater_steady ((pinnedS s id h).ctxM ((cmdOf s id).fld 16 1) (withJoin (cmdOf s id) h))).only
    refine ⟨_, pinnedL s id l, exec_batchJoin_of_open hx e hs hfree hslot, ?_, pinned_mem s id l, ?_, ?_⟩
    · exact (locket_of_confined hlow (by decide) h).trans (pinned_facts e (.inl hs)).2
    · exact (congrArg Hif.done (hlow .hif (by decide) : (lowater _).hif = _)).trans (pinned_done s id h)
    · rw [show (lowater _).eph = _ from hlow .eph (by decide), ctxM_get (withJoin (cmdOf s id) h) (by rw [pinned_eph]; exact hx), withJoin, cmdOf_id]
  · obtain ⟨j, hj, hjh⟩ := hjoin
    have hopen : completed (entered s id h) id = false := (begun_completed s id id (begun_hif s id)).trans (admitted_open (entering_admitted e))
    have hmem : ∃ j ∈ ((entered s id h).eph.ctxs.vals.map (·.joins)).flatten, j.id = h := by
      rw [entered_eph]
      exact ⟨j, List.mem_flatten.2 ⟨x.joins, List.mem_map.2 ⟨x, tab_get_vals _ _ _ hx, rfl⟩, hj⟩, hjh⟩
    obtain ⟨hleft, hctxs⟩ := withdrawJoin_facts (st := stCancelled) (entered_locket e) hmem hopen (by rw [entered_eph]; exact hcmd)
    refine ⟨_, exec_batchLeave_of_pending hx e ⟨j, hj, hjh⟩, ?_, fun hrec => ?_⟩
    · have hdone := complete_hasEnded (st := stOk) (r0 := 0) (r1 := 0) (n := 0) (c := cmdOf s id) (by rw [cmdOf_id]; exact hleft)
      rwa [cmdOf_id] at hdone
    · rw [complete_eph, hctxs hrec, entered_eph]
  · refine ⟨_, meets s id l, exec_batchLeave_of_member hx e hjoin hs hctx, entered_locket e, rfl, hs, entered_done s id h, ?_⟩
    rw [ctxM_get (withLeave (cmdOf s id) h) (by rw [entered_eph]; exact hx), withLeave, cmdOf_id]
  · have hread := accountsRead_confined (begun s id) (cmdOf s id) ((List.range ((cmdOf s id).fld 18 2)).map (· + (cmdOf s id).fld 16 2))
    have hacc := accountsRead_accounts (begun s id) (cmdOf s id) ((List.range ((cmdOf s id).fld 18 2)).map (· + (cmdOf s id).fld 16 2))
    generalize hv : accountsRead (begun s id) (cmdOf s id) ((List.range ((cmdOf s id).fld 18 2)).map (· + (cmdOf s id).fld 16 2)) = v at hread hacc
    have hput := (submitPut_steady v (cmdOf s id) ((cmdOf s id).fld 24 8)
      ((((List.range ((cmdOf s id).fld 18 2)).map (· + (cmdOf s id).fld 16 2)).map (accountBytes s)).flatten) stOk ((cmdOf s id).fld 18 2) 0).only
    obtain ⟨d, hd, hop, hpurpose, hputs⟩ := put_desc v (cmdOf s id) ((cmdOf s id).fld 24 8)
      ((((List.range ((cmdOf s id).fld 18 2)).map (· + (cmdOf s id).fld 16 2)).map (accountBytes s)).flatten) stOk ((cmdOf s id).fld 18 2) 0
    refine ⟨_, d, (exec_accountRead_of_room hadm hn hlast haddr htn).trans (by dsimp only; rw [hv]), hd, hop, hpurpose.trans (congrArg _ (cmdOf_id s id)), ?_, ?_, ?_⟩
    · have hcur : v.cur = s.cur := (hread .cur (by decide) : _ = _).trans ((begun_confined s id) .cur (by decide))
      rw [hputs, hcur, cmdOf_id]
    · rw [show (submitPut _ _ _ _ _ _ _).eph = _ from hput .eph (by decide), hacc, begun_eph, begun_now]
    · rw [show (submitPut _ _ _ _ _ _ _).hif = _ from hput .hif (by decide), show v.hif = _ from hread .hif (by decide)]
      exact begun_done s id

end Sys2Proof.Machine

/-! Collections and their items (O25). -/

namespace Sys2Proof.Machine
open Sys2Proof

theorem completeId_colls (s : State) (id st r0 r1 n : Nat) : (completeId s id st r0 r1 n).colls = s.colls := (completeId_confined s id st r0 r1 n) .colls (by decide)

theorem destroyFlag_found {s : State} {id op : Nat} (hadm : admitted s id op = true) : destroyFlag s id = (cmdOf s id).flag 4 := by
  rw [destroyFlag, admitted_found hadm]
  rfl

/-! ### Creating and destroying -/

theorem exec_collectionCreate_of_create {s : State} {id : Nat} (hadm : admitted s id 0x44 = true) (hflag : (cmdOf s id).flag 4 = false) :
    exec (.collectionCreate id) s = .next (createColl (begun s id) (cmdOf s id)) :=
  ((if_neg (by rw [destroyFlag_found hadm, hflag]; decide)).trans (hostCmd_admitted _ hadm) : execCollectionCreate id s = _)

theorem createColl_of_room {s u : State} {c : HCmd} {ci : Nat} {fs : List Nat} (hhandle : c.handle ≠ 0) (hnew : findColl s c.tenant c.handle = none)
    (hok : paramsOk (createParams c) = true) (hci : s.colls.freshFrom 256 0 = some ci)
    (htake : takeSpread s (collPages (createParams c)) (.collection ci) = (u, some fs)) :
    createColl s c = complete { u with colls := u.colls.set ci { createParams c with frames := fs } } c stOk (collPages (createParams c)) 0 0 := by
  unfold createColl
  dsimp only
  rw [if_neg (by simp [hhandle, hnew, hok]), hci]
  dsimp only
  rw [htake, createWith]

theorem createColl_of_bad {s : State} {c : HCmd} (h : c.handle = 0 ∨ (findColl s c.tenant c.handle).isSome ∨ paramsOk (createParams c) = false) :
    createColl s c = complete s c stInvalid 0 0 0 := by
  unfold createColl
  exact if_pos (by rcases h with h | h | h <;> simp [h])

/-- The merge of a collection that is destroyed is gone (12 R446). -/
theorem exec_collectionDestroy_of_free {s : State} {id ci : Nat} {k : Coll} (hadm : admitted s id 0x44 = true) (hflag : (cmdOf s id).flag 4 = true)
    (hzero : zeroAt (cmdOf s id).desc 16 48 = true) (hk : findColl s (cmdOf s id).tenant (cmdOf s id).handle = some (ci, k))
    (hfree : k.gens.any (fun g => g.holders.any (holding (begun s id))) = false) (hmerge : k.merge.bind (·.cmd) = none) :
    exec (.collectionDestroy id) s = .next (complete { returnSpread (abandonMerge (begun s id) ci) k.frames with colls := (abandonMerge (begun s id) ci).colls.erase ci }
      (cmdOf s id) stOk 0 0 0) := by
  refine ((if_neg (by rw [destroyFlag_found hadm, hflag]; decide)).trans (hostCmd_admitted _ hadm) : execCollectionDestroy id s = _).trans (congrArg _ ?_)
  dsimp only
  rw [hzero, if_neg (by decide), findColl_begun, hk]
  dsimp only
  rw [hfree, if_neg Bool.false_ne_true, hmerge]

/-! ### Items -/

section
variable {s : State} {id op ci : Nat} {k : Coll}

theorem onColl_admitted (h : onColl s id op ci k) : admitted s id op = true := h.1

theorem onColl_get (h : onColl s id op ci k) : (reapColl (begun s id) ci).colls.get? ci = some k := h.2.2.1

theorem reaped_hif (s : State) (id ci : Nat) : (reapColl (begun s id) ci).hif = (begun s id).hif := reapColl_hif _ _

theorem reaped_now (s : State) (id ci : Nat) : (reapColl (begun s id) ci).now = s.now := (reapColl_now _ _).trans (begun_now s id)

/-- A command that changes the collection it meets completes with the answer of its change. -/
theorem collected_answers {u : State} {st r0 r1 : Nat} (h : onColl s id op ci k) (hhif : u.hif = (reapColl (begun s id) ci).hif)
    (hnow : u.now = (reapColl (begun s id) ci).now) : answers s (complete u (cmdOf s id) st r0 r1 0) (cmdOf s id) st r0 r1 :=
  after_answers (onColl_admitted h) (hhif.trans (reaped_hif s id ci)) (hnow.trans (reaped_now s id ci))

end

/-- The item that an ITEM_INSERT writes (12 R449, R450). -/
def insertedItem (k : Coll) (b : List Byte) : Item :=
  { insCsn := k.lastCsn + 1, key := fieldAt b 0 8, tags := fieldAt b 8 8, norm := normOf k (queryVector k b), sketch := querySketch k b
    vector := padTo (vecPad k) (queryVector k b) }

/-- The collection after an insertion (12 R449). -/
def insertedColl (s : State) (k : Coll) (i : Nat) (b : List Byte) (c : Coll) : Coll :=
  mergeDue s { c with lastCsn := k.lastCsn + 1, items := c.items.set i (insertedItem k b), side := c.side ++ [i] }

theorem mergeDue_eq (s : State) (k : Coll) : mergeDue s k = { k with merge := (mergeDue s k).merge } := by
  unfold mergeDue
  split <;> rfl

/-- An insertion completes on a state that differs from the collection's change in the tarnish and the words of T1 alone (12 R449, 13 R488). -/
theorem insertItem_of_room {block : List Byte} {poison : List Nat} {s : State} {c : HCmd} {ci i : Nat} {k : Coll} (haddr : addrOk (c.fld 16 8) = true)
    (hzero : zeroAt (blankPoison poison block) 16 48 = true) (hi : k.items.freshFrom k.capacity 0 = some i) (hroom : k.side.length - (curGen k).sideStart < k.sideMax) :
    ∃ u, insertItem block poison s c ci k = complete u c stOk i (k.lastCsn + 1) 0 ∧
      confined [.t1, .integ, .lan] (s.collM ci (insertedColl s k i (blankPoison poison block))) u := by
  unfold insertItem
  dsimp only
  rw [haddr, hzero, if_neg (by decide), hi]
  dsimp only
  rw [if_neg (Nat.not_le.mpr hroom)]
  exact ⟨_, rfl, confined_trans (fun p hp => by cases p <;> first | rfl | exact absurd (by decide) hp) (tarnishLines_steady _ _ _ _).only⟩

/-- The collection after a deletion (12 R451). -/
def deletedColl (k : Coll) (i : Nat) (c : Coll) : Coll :=
  { c with lastCsn := k.lastCsn + 1, items := c.items.upd i (fun x => { x with delCsn := k.lastCsn + 1 }) }

theorem exec_itemDelete_of_live {s : State} {id ci : Nat} {k : Coll} {x : Item} (h : onColl s id 0x42 ci k) (hx : k.items.get? ((cmdOf s id).fld 16 4) = some x)
    (hlive : x.delCsn = 0xFFFFFFFFFFFFFFFF) : exec (.itemDelete id) s = .next (
      complete ((reapColl (begun s id) ci).collM ci (deletedColl k ((cmdOf s id).fld 16 4))) (cmdOf s id) stOk ((cmdOf s id).fld 16 4) (k.lastCsn + 1) 0) := by
  refine (hostCmd_admitted _ (onColl_admitted h) : execItemDelete id s = _).trans (congrArg _ ((onColl_runs h _).trans ?_))
  dsimp only
  rw [hx]
  dsimp only
  rw [hlive]
  rfl

/-! ### Merges -/

theorem exec_collectionMerge_of_none {s : State} {id ci : Nat} {k : Coll} (h : onColl s id 0x43 ci k) (hnone : k.merge = none) :
    exec (.collectionMerge id) s = .next (
      if mergeIdle k then complete (reapColl (begun s id) ci) (cmdOf s id) stOk (curGen k).number 0 0
      else (reapColl (begun s id) ci).collM ci fun k => { k with merge := some { cmd := some id, since := (reapColl (begun s id) ci).now } }) := by
  refine (hostCmd_admitted _ (onColl_admitted h) : execCollectionMerge id s = _).trans (congrArg _ ((onColl_runs h _).trans ?_))
  rw [hnone, cmdOf_id]
  rfl

/-- The command that a merge performs completes, where it has one (12 R457). -/
def mergeEnds (s : State) (m : Merge) (st r0 r1 : Nat) : State := match m.cmd with | some id => completeId s id st r0 r1 0 | none => s

theorem mergeEnds_colls (s : State) (m : Merge) (st r0 r1 : Nat) : (mergeEnds s m st r0 r1).colls = s.colls := by
  unfold mergeEnds
  split
  · exact completeId_colls _ _ _ _ _ _
  · rfl

section
variable {s : State} {ci : Nat} {k : Coll} {m : Merge} (hk : s.colls.get? ci = some k) (hm : k.merge = some m)
include hk hm

theorem exec_mergeStart_of_work (hs : k.state = .ready) (hfresh : m.horizon = none) (hheld : olderHeld s k = false) (hserve : serving s = true)
    (hwork : mergeIdle k = false) : exec (.mergeStart ci) s = .next ((reapColl s ci).collM ci fun k =>
      { k with state := .merging, merge := some { m with horizon := some k.lastCsn, upTo := k.side.length, stepsLeft := mergeSteps k k.lastCsn k.side.length } }) := by
  show execMergeStart ci s = _
  rw [execMergeStart, hk]
  dsimp only
  rw [hm]
  dsimp only
  rw [hwork]
  exact when_of (by simp [hs, hfresh, hheld, hserve])

/-- The collection whose next generation is current (12 R455). -/
def publishedColl (s : State) (k : Coll) (h : Nat) (m : Merge) (c : Coll) : Coll :=
  mergeDue s { c with gens := buildGen k h m.upTo :: (c.gens.take 1).map (fun o => { o with omitted := (mergeSets k h m.upTo).1 }) ++ c.gens.drop 1
                      state := .ready, merge := none }

theorem exec_mergePublish_of_built {h : Nat} (hhor : m.horizon = some h) (hleft : m.stepsLeft = 0) (hserve : serving s = true) : exec (.mergePublish ci) s = .next (
    mergeEnds (reapColl (s.collM ci (publishedColl s k h m)) ci) m stOk (buildGen k h m.upTo).number (mergeSets k h m.upTo).2.length) := by
  show execMergePublish ci s = _
  rw [execMergePublish, hk]
  dsimp only
  rw [hm]
  dsimp only
  rw [hhor]
  exact when_of (by simp [hleft, hserve])

end

/-- Settles O25: a command meets its collection with the released generations freed, and makes one change of it. -/
theorem collectionsAndItemsKept : Obligations.CollectionsAndItemsKept := by
  refine ⟨fun s id ci fs u hadm hflag hhandle hnew hok hci htake => ?_, fun s id hadm hflag hbad => ?_, fun s id ci k hadm hflag hzero hk hfree hmerge => ?_,
    fun s id block poison ci k i h haddr hzero hi hroom => ?_, fun s id ci k x h hx hlive => ?_, fun s id ci k h hnone hwork => ?_, fun s id ci k h hnone hidle => ?_,
    fun s ci k k1 m hk hm hs hfresh hheld hserve hwork hreap => ?_, fun s ci k m h hk hm hhor hleft hserve => ?_⟩
  · have htaken : confined [.ast, .lockets] (begun s id) u := by
      have hspread := (takeSpread_steady (begun s id) (collPages (createParams (cmdOf s id))) (.collection ci)).only
      rwa [htake] at hspread
    refine ⟨_, (exec_collectionCreate_of_create hadm hflag).trans (congrArg _
      (createColl_of_room hhandle (by rw [findColl_begun]; exact hnew) hok (by rw [begun_colls]; exact hci) htake)),
      after_answers hadm (htaken .hif (by decide)) ((htaken .now (by decide) : _ = _).trans (begun_now s id)), ?_⟩
    rw [complete_colls, ← begun_colls s id, ← show u.colls = (begun s id).colls from htaken .colls (by decide)]
  · refine ⟨_, (exec_collectionCreate_of_create hadm hflag).trans (congrArg _ (createColl_of_bad (by rw [findColl_begun]; exact hbad))), begun_answers hadm, ?_⟩
    rw [complete_colls, begun_colls]
  · have hab := (abandonMerge_steady (begun s id) ci).only
    have hret := (returnSpread_steady (abandonMerge (begun s id) ci) k.frames).only
    refine ⟨_, exec_collectionDestroy_of_free hadm hflag hzero hk hfree hmerge, after_answers hadm ((hret .hif (by decide) : _ = _).trans (hab .hif (by decide)))
      ((hret .now (by decide) : _ = _).trans ((hab .now (by decide) : _ = _).trans (begun_now s id))), ?_⟩
    rw [complete_colls]
    exact tab_get_erase_same _ _
  · let v := hostFetch (reapColl (begun s id) ci) ((cmdOf s id).fld 16 8) (64 + ceilDiv (sketchBytes k) 64 * 64 + vecBytes k)
    have hfetch := (hostFetch_steady (reapColl (begun s id) ci) ((cmdOf s id).fld 16 8) (64 + ceilDiv (sketchBytes k) 64 * 64 + vecBytes k)).only
    obtain ⟨u, hins, hu⟩ := insertItem_of_room (s := v) (c := cmdOf s id) (ci := ci) haddr hzero hi hroom
    refine ⟨_, insertedColl v k i (blankPoison poison block) k, insertedItem k (blankPoison poison block),
      (hostCmd_admitted _ (onColl_admitted h) : execItemInsert id block poison s = _).trans (congrArg _ ((onColl_runs h _).trans hins)),
      collected_answers h ((hu .hif (by decide) : u.hif = _).trans (hfetch .hif (by decide))) ((hu .now (by decide) : u.now = _).trans (hfetch .now (by decide))), ?_, ?_, ?_, ?_,
      rfl, rfl, rfl, rfl, rfl⟩
    · rw [complete_colls, show u.colls = _ from hu .colls (by decide), collM_get, show v.colls = _ from hfetch .colls (by decide), onColl_get h]
      rfl
    · rw [insertedColl, mergeDue_eq]
    · rw [insertedColl, mergeDue_eq]
    · rw [insertedColl, mergeDue_eq]
      exact tab_get_set_same _ _ _
  · refine ⟨_, deletedColl k ((cmdOf s id).fld 16 4) k, exec_itemDelete_of_live h hx hlive, collected_answers h rfl rfl, ?_, rfl, ?_, rfl, rfl⟩
    · rw [complete_colls, collM_get, onColl_get h]
      rfl
    · rw [deletedColl, tab_get_upd_same, hx]
      rfl
  · refine ⟨_, (exec_collectionMerge_of_none h hnone).trans (congrArg _ (if_neg (by rw [hwork]; decide))), ?_, ?_⟩
    · exact (congrArg Hif.done (reaped_hif s id ci)).trans (begun_done s id)
    · rw [collM_get, onColl_get h, reaped_now]
      rfl
  · refine ⟨_, (exec_collectionMerge_of_none h hnone).trans (congrArg _ (if_pos hidle)), collected_answers h rfl rfl, ?_⟩
    rw [complete_colls, onColl_get h]
  · have hreaped := reap_get hk
    rw [hreap] at hreaped
    refine ⟨_, mergeSteps k1 k1.lastCsn k1.side.length, exec_mergeStart_of_work hk hm hs hfresh hheld hserve hwork, ?_⟩
    rw [collM_get, hreap, Option.map_some, show k.lastCsn = k1.lastCsn from (congrArg Coll.lastCsn (Option.some.inj hreaped)).symm,
      show k.side = k1.side from (congrArg Coll.side (Option.some.inj hreaped)).symm]
  · have hpub : (s.collM ci (publishedColl s k h m)).colls.get? ci = some (publishedColl s k h m k) := by rw [collM_get, hk]; rfl
    refine ⟨_, _, exec_mergePublish_of_built hk hm hhor hleft hserve, (congrArg (·.get? ci) (mergeEnds_colls _ _ _ _ _)).trans (reap_get hpub), ?_, ?_, ?_, ?_, ?_⟩
    · rw [publishedColl, mergeDue_eq]
    · rw [publishedColl, mergeDue_eq]
      rfl
    · rw [publishedColl, mergeDue_eq]
      rfl
    · rw [publishedColl, mergeDue_eq]
    · rw [publishedColl, mergeDue_eq]

end Sys2Proof.Machine

/-! Searches and selects (O26), queries and samples (O27). -/

namespace Sys2Proof.Machine
open Sys2Proof

theorem complete_searches (s : State) (c : HCmd) (st r0 r1 n : Nat) : (complete s c st r0 r1 n).searches = s.searches :=
  (complete_confined s c st r0 r1 n) .searches (by decide)

theorem complete_selects (s : State) (c : HCmd) (st r0 r1 n : Nat) : (complete s c st r0 r1 n).selects = s.selects :=
  (complete_confined s c st r0 r1 n) .selects (by decide)

theorem completeId_searches (s : State) (id st r0 r1 n : Nat) : (completeId s id st r0 r1 n).searches = s.searches :=
  (completeId_confined s id st r0 r1 n) .searches (by decide)

/-! ### SEARCH -/

/-- The query block of a SEARCH as it is fetched: cut or filled to its length (12 Table 12-5). -/
def queryBlock (k : Coll) (query : List Byte) : List Byte := padTo (64 + ceilDiv (sketchBytes k) 64 * 64 + vecBytes k) query

/-- The state in which a SEARCH has met its collection and fetched its query block. -/
def searchFetched (s : State) (id ci : Nat) (k : Coll) (query : List Byte) : State :=
  hostFetch (reapColl (begun s id) ci) ((cmdOf s id).fld 32 8) (queryBlock k query).length

theorem searchFetched_confined (s : State) (id ci : Nat) (k : Coll) (query : List Byte) :
    confined [.std] (reapColl (begun s id) ci) (searchFetched s id ci k query) := (hostFetch_steady _ _ _).only

theorem searchFetched_searches (s : State) (id ci : Nat) (k : Coll) (query : List Byte) : (searchFetched s id ci k query).searches = s.searches :=
  ((searchFetched_confined s id ci k query) .searches (by decide) : _ = _).trans
    (((reapColl_steady _ _).only .searches (by decide) : _ = _).trans ((begun_confined s id) .searches (by decide)))

section
variable {s : State} {id ci : Nat} {k : Coll} {query : List Byte} (h : onColl s id 0x40 ci k) (hok : searchOk (begun s id) (cmdOf s id) = true)
include h hok

theorem exec_search_of_clean (hzero : zeroAt (queryBlock k query) 16 48 = true) :
    exec (.search id query []) s = .next (startSearch (queryBlock k query) (searchFetched s id ci k query) (cmdOf s id) ci k) := by
  refine (hostCmd_admitted _ (onColl_admitted h) : execSearch id query [] s = _).trans (congrArg _ ?_)
  rw [hok, if_neg (by decide)]
  refine (onColl_runs h _).trans ?_
  exact (if_neg (by decide)).trans (if_neg (by rw [show zeroAt (padTo _ query) 16 48 = true from hzero]; decide))

theorem exec_search_of_poison (p : Nat) (ps : List Nat) :
    exec (.search id query (p :: ps)) s = .next (complete (consumeColl (searchFetched s id ci k query) 0xC2 0) (cmdOf s id) stTarnished 0 0 0) := by
  refine (hostCmd_admitted _ (onColl_admitted h) : execSearch id query (p :: ps) s = _).trans (congrArg _ ?_)
  rw [hok, if_neg (by decide)]
  exact (onColl_runs h _).trans (if_pos rfl)

end

/-- The SEARCH that is accepted on a collection (12 R452, R453, R460). -/
def acceptedSearch (c : HCmd) (ci : Nat) (k : Coll) (b : List Byte) : Search :=
  { cmd := c.id, coll := ci, tenant := c.tenant, k := c.fld 16 2, ef := c.fld 18 2, rerank := c.fld 20 2, spread := c.fld 22 1, visitMax := c.fld 24 4
    filter := bitAt (c.fld 23 1) 0, resultAddr := c.fld 40 8, horizon := k.lastCsn, gen := (curGen k).number, tail := k.side.length, query := b
    queued := List.range (c.fld 22 1), seq := c.id }

/-- A collection whose current generation a SEARCH holds too (12 R458). -/
def heldBy (id : Nat) (k : Coll) : Coll := { k with gens := (k.gens.take 1).map (fun g => { g with holders := g.holders ++ [id] }) ++ k.gens.drop 1 }

theorem exec_walkStart_of_queued {s : State} {unit p : Nat} {q : Search} (hunit : unit < 8) (hq : nextWalk s = some (q, p))
    (hen : (s.sieves.getD unit {}).enable = true) (hfree : (s.sieves.getD unit {}).use_ = none) (hserve : serving s = true) : exec (.walkStart unit) s = .next
      { s with sieves := s.sieves.modify unit fun u => { u with use_ := some (.walk q.cmd p s.now), coll := q.coll, mode := 1 }
               searches := s.searches.map fun r => if r.cmd == q.cmd then { r with queued := r.queued.drop 1, unit0 := if p = 0 then unit else r.unit0 } else r } := by
  refine (formed_of (decide_eq_true hunit) : execWalkStart unit s = _).trans ?_
  rw [hq]
  exact when_of (by rw [hen, hfree, hserve]; rfl)

/-! ### The end of a walk -/

/-- A Sieve unit whose walk has returned (12 R461). -/
def walkedUnit (now since : Tick) (q : Search) (w : WalkSt) (u : Siv) : Siv :=
  { u with use_ := none, mode := 0, compares := (u.compares + w.compares) % 2 ^ 64, walks := wrapInc 32 u.walks
           budgetHits := if w.visits = q.visitMax then wrapInc 32 u.budgetHits else u.budgetHits, lastWalk := (now - since) % 2 ^ 32 }

/-- The state in which a walk has left its Sieve unit (12 R461). -/
def unitFreed (s : State) (unit since : Nat) (q : Search) (w : WalkSt) : State :=
  let t := { s with sieves := s.sieves.modify unit (walkedUnit s.now since q w) }
  if w.visits = q.visitMax then sivEvent t unit 1 else t

theorem unitFreed_confined (s : State) (unit since : Nat) (q : Search) (w : WalkSt) : confined [.sieves] s (unitFreed s unit since q w) := by
  unfold unitFreed
  dsimp only
  split <;> intro p hp <;> cases p <;> first | rfl | exact absurd (by decide) hp

theorem unitFreed_use (s : State) {unit : Nat} (since : Nat) (q : Search) (w : WalkSt) (hunit : unit < s.sieves.length) :
    ((unitFreed s unit since q w).sieves.getD unit {}).use_ = none := by
  unfold unitFreed
  dsimp only
  split
  · rw [sivEvent, sieve_own _ _ _ (by simpa using hunit), sieve_own _ _ _ hunit]
    rfl
  · rw [sieve_own _ _ _ hunit]
    rfl

theorem unitFreed_hif (s : State) (unit since : Nat) (q : Search) (w : WalkSt) : (unitFreed s unit since q w).hif = s.hif :=
  (unitFreed_confined s unit since q w) .hif (by decide)

theorem unitFreed_now (s : State) (unit since : Nat) (q : Search) (w : WalkSt) : (unitFreed s unit since q w).now = s.now :=
  (unitFreed_confined s unit since q w) .now (by decide)

theorem unitFreed_searches (s : State) (unit since : Nat) (q : Search) (w : WalkSt) : (unitFreed s unit since q w).searches = s.searches :=
  (unitFreed_confined s unit since q w) .searches (by decide)

/-- A SEARCH with the result of one more walk (12 R461). -/
def walkedSearch (now : Tick) (q : Search) (p : Nat) (r : WalkResult) : Search :=
  { q with results := q.results.set p r, walkedAt := if q.results.length + 1 = q.spread then some now else none }

/-- The result of a walk whose survivors are reranked (12 R464). -/
def walkResult (q : Search) (w : WalkSt) : WalkResult := { survivors := (w.res.take q.rerank).map (·.2), visits := w.visits, budget := w.visits = q.visitMax }

/-- The state in which a SEARCH has the result of its walk (12 R461). -/
def walkNoted (s : State) (id : Nat) (q : Search) (p : Nat) (r : WalkResult) : State :=
  { s with searches := s.searches.map fun x => if x.cmd == id then walkedSearch s.now q p r else x }

theorem walkNoted_unitFreed (s : State) (unit since id : Nat) (q : Search) (p : Nat) (w : WalkSt) :
    (walkNoted (unitFreed s unit since q w) id q p (walkResult q w)).searches =
      s.searches.map fun x => if x.cmd == id then walkedSearch s.now q p (walkResult q w) else x := by
  rw [walkNoted, unitFreed_now, unitFreed_searches]

/-- The state in which a walk on a tarnished item has ended its SEARCH (12 R475). -/
def walkAbandoned (s : State) (unit id : Nat) : State := sivEvent (consumeColl (dropSearch s id) (0xB8 + unit) 0) unit 2

section
variable {s : State} {unit id p a : Nat} {q : Search} {k : Coll} (hunit : unit < 8) (hclk : s.lan.refclk = true)
  (huse : (s.sieves.getD unit {}).use_ = some (.walk id p a)) (hq : s.searches.find? (fun q => q.cmd == id) = some q) (hk : s.colls.get? q.coll = some k)
  (hwhole : (searchWalk s k q p).broken = false)
include hunit hclk huse hq hk hwhole

theorem exec_walkDone_of_good (hmetric : k.metric ≠ 0) (htarn : (searchWalk s k q p).tarnItem = none) : exec (.walkDone unit) s = .next
    (walkNoted (unitFreed s unit a q (searchWalk s k q p)) id q p (walkResult q (searchWalk s k q p))) := by
  refine ((formed_of (decide_eq_true hunit)).trans (clocked_on hclk) : execWalkDone unit s = _).trans ?_
  rw [huse]
  dsimp only
  rw [hq]
  dsimp only
  rw [hk]
  dsimp only
  rw [hwhole, if_neg Bool.false_ne_true, htarn]
  dsimp only
  rw [if_neg hmetric, if_neg (by simp [hmetric])]
  rfl

theorem exec_walkDone_of_tarnish {i : Nat} (htarn : (searchWalk s k q p).tarnItem = some i) : exec (.walkDone unit) s = .next (
    completeId (walkAbandoned (unitFreed s unit a q (searchWalk s k q p)) unit id) id stTarnished 0 i 0) := by
  refine ((formed_of (decide_eq_true hunit)).trans (clocked_on hclk) : execWalkDone unit s = _).trans ?_
  rw [huse]
  dsimp only
  rw [hq]
  dsimp only
  rw [hk]
  dsimp only
  rw [hwhole, if_neg Bool.false_ne_true, htarn]
  rfl

end

theorem dropSearch_searches (s : State) (id : Nat) : (dropSearch s id).searches = s.searches.filter (fun q => q.cmd != id) := by
  have hjobs : (freeUnits (dropJobs s (fun j => j.cls == .search && j.target == id)) (fun u => match u with | .walk c _ _ => c == id | _ => false)).searches = s.searches :=
    ((freeUnits_steady _ _).only .searches (by decide) : _ = _).trans ((dropJobs_steady _ _).only .searches (by decide))
  exact congrArg (List.filter fun q => q.cmd != id) hjobs

theorem walkAbandoned_hif (s : State) (unit id : Nat) : (walkAbandoned s unit id).hif = s.hif :=
  ((consumeColl_steady (dropSearch s id) (0xB8 + unit) 0).only .hif (by decide) : _ = _).trans ((dropSearch_steady s id).only .hif (by decide))

theorem walkAbandoned_now (s : State) (unit id : Nat) : (walkAbandoned s unit id).now = s.now :=
  ((consumeColl_steady (dropSearch s id) (0xB8 + unit) 0).only .now (by decide) : _ = _).trans ((dropSearch_steady s id).only .now (by decide))

theorem walkAbandoned_searches (s : State) (unit id : Nat) : (walkAbandoned s unit id).searches = s.searches.filter (fun q => q.cmd != id) :=
  ((consumeColl_steady (dropSearch s id) (0xB8 + unit) 0).only .searches (by decide) : _ = _).trans (dropSearch_searches s id)

/-! ### SELECT -/

/-- The operands of a SELECT that Table 15-8 allows (12 R470). -/
def selectOk (c : HCmd) : Bool :=
  1 ≤ c.fld 28 2 && c.fld 28 2 ≤ 4096 && 1 ≤ c.fld 24 4 && c.fld 24 4 ≤ 2 ^ 24 && 1 ≤ c.fld 30 2 && c.fld 30 2 ≤ 1024 && (c.fld 32 1 == 8 || c.fld 32 1 == 9) &&
    addrOk (c.fld 40 8) && c.fld 28 2 * c.fld 24 4 ≤ 2 ^ 26

/-- The SELECT that is accepted with its staging pages (12 R470). -/
def selectRecord (c : HCmd) (fs : List Nat) : Select :=
  { cmd := c.id, tenant := c.tenant, rows := c.fld 28 2, n := c.fld 24 4, k := c.fld 30 2, fmt := c.fld 32 1, resultAddr := c.fld 40 8, frames := fs, seq := c.id }

/-- The fetch of a SELECT's rows (12 R470). -/
def selectFetch (c : HCmd) : Desc :=
  { cookie := 0, op := 6, tenant := c.tenant, units := ceilDiv (c.fld 28 2 * c.fld 24 4 * selectEb (c.fld 32 1)) 4096, src := c.fld 16 8, purpose := .select c.id }

theorem selectWith_held (c : HCmd) (u : State) (fs : List Nat) :
    prepare u.cur.nextCookie u.now (selectFetch c) ∈ allDescs (selectWith c u (some fs)) := submit_held { u with selects := u.selects ++ [selectRecord c fs] } (selectFetch c)

theorem selectWith_selects (c : HCmd) (u : State) (fs : List Nat) : (selectWith c u (some fs)).selects = u.selects ++ [selectRecord c fs] :=
  (submit_steady { u with selects := u.selects ++ [selectRecord c fs] } (selectFetch c)).only .selects (by decide)

theorem selectWith_done (c : HCmd) (u : State) (fs : List Nat) : (selectWith c u (some fs)).hif.done = u.hif.done :=
  congrArg Hif.done ((submit_steady { u with selects := u.selects ++ [selectRecord c fs] } (selectFetch c)).only .hif (by decide))

theorem exec_select_of_bad {s : State} {id : Nat} (hadm : admitted s id 0x48 = true) (hbad : selectOk (cmdOf s id) = false) :
    exec (.select id) s = .next (complete (begun s id) (cmdOf s id) stInvalid 0 0 0) :=
  (hostCmd_admitted _ hadm : execSelect id s = _).trans (congrArg _ (if_pos (by rw [show (_ && _) = false from hbad]; rfl)))

theorem exec_select_of_good {s u : State} {id : Nat} {fs : List Nat} (hadm : admitted s id 0x48 = true) (hok : selectOk (cmdOf s id) = true)
    (htake : takeAny (begun s id) (ceilDiv ((cmdOf s id).fld 28 2 * (cmdOf s id).fld 24 4 * selectEb ((cmdOf s id).fld 32 1)) 65536) (.staging id) = (u, some fs)) :
    exec (.select id) s = .next (selectWith (cmdOf s id) u (some fs)) := by
  refine (hostCmd_admitted _ hadm : execSelect id s = _).trans (congrArg _ ((if_neg (by rw [show (_ && _) = true from hok]; decide)).trans ?_))
  rw [cmdOf_id, htake]

section
variable {s u : State} {id st : Nat} {q : Select} (data : List Byte) (poison : List Nat) (hq : s.selects.find? (fun q => q.cmd == id) = some q)
  (htake : consume s (.select id) = some (u, st))
include hq htake

theorem exec_selectFetchDone_of_good (hst : st = 0) : exec (.selectFetchDone id data poison) s = .next { u with
    selects := u.selects.map fun x => if x.cmd == id then
      { x with data := padTo (q.rows * (q.n * selectEb q.fmt)) data, fetchedAt := some u.now
               tarnRows := (List.range q.rows).filter (fun r => poison.any (fun b => 16 * b < (r + 1) * (q.n * selectEb q.fmt) && r * (q.n * selectEb q.fmt) < 16 * b + 16)) } else x } := by
  show execSelectFetchDone id data poison s = _
  rw [execSelectFetchDone, hq, htake]
  exact if_neg (by rw [hst]; decide)

theorem exec_selectFetchDone_of_bad (h0 : st ≠ 0) (h4 : st ≠ 4) : exec (.selectFetchDone id data poison) s = .next (completeId (dropSelect u id) id stFenced 0 0 0) := by
  show execSelectFetchDone id data poison s = _
  rw [execSelectFetchDone, hq, htake]
  exact if_pos (by simp [h0, h4])

end

/-- Settles O26: acceptance fixes the generation that a SEARCH holds, each walk takes and leaves one unit, and a SELECT follows its fetch. -/
theorem searchesAndSelectsRun : Obligations.SearchesAndSelectsRun := by
  refine ⟨fun s id query ci k h hok hzero => ?_, fun s id query p ps ci k h hok => ?_, fun s unit q p hunit hq hen hfree hserve hlen => ?_,
    fun s unit id p a q k hunit huse hq hk hmetric hwhole htarn hlen hclk => ?_, fun s unit id p a q k i hunit huse hq hk hwhole htarn hcmd hopen hclk => ?_,
    fun s id fs u hadm hr1 hr2 hn1 hn2 hk1 hk2 hfmt haddr hsize htake => ?_, fun s id hadm hbad => ?_, fun s id data poison q u hq htake => ?_,
    fun s id data poison q u st hq htake h0 h4 hcmd hopen => ?_⟩
  · have hfetch := searchFetched_confined s id ci k query
    refine ⟨_, acceptedSearch (cmdOf s id) ci k (queryBlock k query), exec_search_of_clean h hok hzero, ?_, ?_, cmdOf_id s id, rfl, rfl, rfl, rfl, rfl, rfl, rfl, rfl, ?_⟩
    · exact (congrArg Hif.done ((hfetch .hif (by decide) : _ = _).trans (reaped_hif s id ci))).trans (begun_done s id)
    · rw [← searchFetched_searches s id ci k query]
      rfl
    · refine (collM_get (searchFetched s id ci k query) ci (heldBy (cmdOf s id).id)).trans ?_
      rw [show (searchFetched s id ci k query).colls = _ from hfetch .colls (by decide), onColl_get h, cmdOf_id]
      rfl
  · have hfetch := searchFetched_confined s id ci k query
    have hcons := (consumeColl_steady (searchFetched s id ci k query) 0xC2 0).only
    refine ⟨_, exec_search_of_poison h hok p ps, collected_answers h ((hcons .hif (by decide) : _ = _).trans (hfetch .hif (by decide)))
      ((hcons .now (by decide) : _ = _).trans (hfetch .now (by decide))), ?_⟩
    rw [complete_searches, show (consumeColl _ _ _).searches = _ from hcons .searches (by decide), searchFetched_searches]
  · refine ⟨_, exec_walkStart_of_queued hunit hq hen hfree hserve, ?_, ?_, rfl, fun r hr => by cases r <;> first | rfl | exact absurd (by decide) hr⟩
    · rw [sieve_own _ _ _ (by rw [hlen]; exact hunit)]
    · rw [sieve_own _ _ _ (by rw [hlen]; exact hunit)]
  · refine ⟨_, exec_walkDone_of_good hunit hclk huse hq hk hwhole hmetric htarn, unitFreed_use s a q _ (by rw [hlen]; exact hunit), ?_, ?_⟩
    · exact walkNoted_unitFreed s unit a id q p (searchWalk s k q p)
    · exact congrArg Hif.done (unitFreed_hif s unit a q (searchWalk s k q p))
  · have hexec := exec_walkDone_of_tarnish hunit hclk huse hq hk hwhole htarn
    generalize searchWalk s k q p = w at hexec
    have hhif := (walkAbandoned_hif (unitFreed s unit a q w) unit id).trans (unitFreed_hif s unit a q w)
    have hnow := (walkAbandoned_now (unitFreed s unit a q w) unit id).trans (unitFreed_now s unit a q w)
    refine ⟨_, hexec, completeId_answers ?_ (congrArg Hif.done hhif) hnow (by rw [cmdOf_id]; exact hopen), ?_⟩
    · rw [findCmd, hhif]
      exact cmdOf_found hcmd
    · rw [completeId_searches, walkAbandoned_searches, unitFreed_searches]
  · have htaken : confined [.ast, .lockets] (begun s id) u := by
      have hany := (takeAny_steady (begun s id) (ceilDiv ((cmdOf s id).fld 28 2 * (cmdOf s id).fld 24 4 * selectEb ((cmdOf s id).fld 32 1)) 65536) (.staging id)).only
      rwa [htake] at hany
    have hok : selectOk (cmdOf s id) = true := by
      simp only [selectOk, Bool.and_eq_true, Bool.or_eq_true, decide_eq_true_eq, beq_iff_eq]
      exact ⟨⟨⟨⟨⟨⟨⟨⟨hr1, hr2⟩, hn1⟩, hn2⟩, hk1⟩, hk2⟩, hfmt⟩, haddr⟩, hsize⟩
    have hhif : u.hif.done = s.hif.done := (congrArg Hif.done (htaken .hif (by decide))).trans (begun_done s id)
    have hsel : u.selects = s.selects := (htaken .selects (by decide) : _ = _).trans ((begun_confined s id) .selects (by decide))
    refine ⟨_, _, selectRecord (cmdOf s id) fs, exec_select_of_good hadm hok htake, selectWith_held (cmdOf s id) u fs, rfl, rfl, congrArg Purpose.select (cmdOf_id s id), rfl,
      ?_, cmdOf_id s id, rfl, rfl, rfl, rfl, rfl, ?_⟩
    · rw [selectWith_selects, hsel]
    · rw [selectWith_done, hhif]
  · refine ⟨_, exec_select_of_bad hadm ?_, begun_answers hadm, (complete_selects _ _ _ _ _ _).trans ((begun_confined s id) .selects (by decide))⟩
    simp only [selectOk, Bool.and_eq_false_iff, Bool.or_eq_false_iff, decide_eq_false_iff_not, beq_eq_false_iff_ne]
    omega
  · have htaken := consume_confined htake
    refine ⟨_, exec_selectFetchDone_of_good data poison hq htake rfl, ?_, htaken .hif (by decide)⟩
    dsimp only
    rw [show u.selects = _ from htaken .selects (by decide), show u.now = _ from htaken .now (by decide)]
  · have htaken := consume_confined htake
    have hdrop := (dropSelect_steady u id).only
    have hhif : (dropSelect u id).hif = s.hif := (hdrop .hif (by decide) : _ = _).trans (htaken .hif (by decide))
    refine ⟨_, exec_selectFetchDone_of_bad data poison hq htake h0 h4, completeId_answers ?_ (congrArg Hif.done hhif)
      ((hdrop .now (by decide) : _ = _).trans (htaken .now (by decide))) (by rw [cmdOf_id]; exact hopen)⟩
    rw [findCmd, hhif]
    exact cmdOf_found hcmd

/-! ### QUERY and the samples of the queues -/

theorem exec_query_of_unaligned {s : State} {id : Nat} (hadm : admitted s id 0x60 = true) (haddr : addrOk ((cmdOf s id).fld 24 8) = false) :
    exec (.query id) s = .next (complete (begun s id) (cmdOf s id) stInvalid 0 0 0) :=
  (hostCmd_admitted _ hadm : execQuery id s = _).trans (congrArg _ (if_pos (by rw [haddr]; rfl)))

section
variable {s : State} {id : Nat} {b : List Byte} (hadm : admitted s id 0x60 = true) (haddr : addrOk ((cmdOf s id).fld 24 8) = true)
include hadm haddr

theorem exec_query_of_record (hrec : queryRecord (begun s id) (cmdOf s id) = (0, b)) :
    exec (.query id) s = .next (submitPut (begun s id) (cmdOf s id) ((cmdOf s id).fld 24 8) (padTo 256 b) stOk 256 0) := by
  refine (hostCmd_admitted _ hadm : execQuery id s = _).trans (congrArg _ ((if_neg (by rw [haddr]; decide)).trans ?_))
  rw [hrec]
  rfl

theorem exec_query_of_refusal {st : Nat} (hrec : queryRecord (begun s id) (cmdOf s id) = (st + 1, b)) :
    exec (.query id) s = .next (complete (begun s id) (cmdOf s id) (st + 1) 0 0 0) := by
  refine (hostCmd_admitted _ hadm : execQuery id s = _).trans (congrArg _ ((if_neg (by rw [haddr]; decide)).trans ?_))
  rw [hrec]
  rfl

end

theorem begun_complete_confined (s : State) (id st r0 r1 : Nat) : confined [.hif, .std] s (complete (begun s id) (cmdOf s id) st r0 r1 0) :=
  confined_trans (begun_confined s id) (confined_more (complete_confined _ _ _ _ _ _) (by decide))

/-- The histograms after one sample of every queue (11 R436). -/
def sampledHist (s : State) (v : Tab (Nat × Tick)) (a : Traffic) : Tab QHist :=
  ((v.keys ++ s.traffic.sent.keys).eraseDups).foldl
    (fun t q => let n := queueNow s v q; t.set q (sampleHist (t.getD q {}) n.1 n.2 (a.sent.getD q 0))) a.hist

/-- The state after one sample of the queues (11 R435 to R437). -/
def queuesSampled (s : State) : State :=
  (writeSamples s (queueViews s)).trafM fun a =>
    { a with hist := sampledHist s (queueViews s) a, samples := a.samples + 1, sent := [], lastSample := some s.now }

theorem exec_queueSample_of_due {s : State} (hserve : serving s = true) (hdue : s.now % 1000 = 0) (hnew : s.traffic.lastSample ≠ some s.now) :
    exec .queueSample s = .next (queuesSampled s) :=
  (when_of (by rw [hserve, hdue, bne_iff_ne.mpr hnew]; rfl) : execQueueSample s = _)

theorem exec_queueSample_of_taken {s : State} (hlast : s.traffic.lastSample = some s.now) : exec .queueSample s = .next s :=
  (when_of_not (by rw [hlast, bne_self_eq_false, Bool.and_false]) : execQueueSample s = _)

theorem queuesSampled_samples (s : State) : (queuesSampled s).traffic.samples = s.traffic.samples + 1 :=
  congrArg (· + 1) (writeSamples_samples s (queueViews s))

theorem trafM_confined (s : State) (f : Traffic → Traffic) : confined [.traffic] s (s.trafM f) := by
  intro p hp
  cases p <;> first | rfl | exact absurd (by decide) hp

/-- Settles O27: a QUERY ends in its PUT or its status, and the tick of the last sample keeps a second one away. -/
theorem queriesAndSamplesTaken : Obligations.QueriesAndSamplesTaken := by
  refine ⟨fun s id b hadm haddr hrec => ?_, fun s id st b hadm haddr hrec => ⟨_, exec_query_of_refusal hadm haddr hrec, begun_answers hadm, begun_complete_confined s id _ _ _⟩,
    fun s id hadm haddr => ⟨_, exec_query_of_unaligned hadm haddr, begun_answers hadm, begun_complete_confined s id _ _ _⟩, fun s hserve hdue hnew => ?_,
    fun s _ hlast => exec_queueSample_of_taken hlast⟩
  · have hput := (submitPut_steady (begun s id) (cmdOf s id) ((cmdOf s id).fld 24 8) (padTo 256 b) stOk 256 0).only
    obtain ⟨d, hheld, hop, hpurpose, hputs⟩ := put_desc (begun s id) (cmdOf s id) ((cmdOf s id).fld 24 8) (padTo 256 b) stOk 256 0
    refine ⟨_, d, exec_query_of_record hadm haddr hrec, hheld, hop, hpurpose.trans (congrArg Purpose.put (cmdOf_id s id)),
      (congrArg Hif.done (hput .hif (by decide))).trans (begun_done s id), ?_, confined_trans (confined_more (begun_confined s id) (by decide)) (confined_more hput (by decide))⟩
    rw [hputs, show (begun s id).cur = s.cur from begun_confined s id .cur (by decide), cmdOf_id]
  · exact ⟨_, exec_queueSample_of_due hserve hdue hnew, queuesSampled_samples s, rfl, rfl,
      confined_trans (writeSamples_steady s (queueViews s)).only (confined_more (trafM_confined _ _) (by decide))⟩

end Sys2Proof.Machine

/-! Cuts, SNAPSHOT, MANIFEST_READ and RESTORE (O28). -/

namespace Sys2Proof.Machine
open Sys2Proof

/-! ### SNAPSHOT and MANIFEST_READ -/

theorem begun_ckpt (s : State) (id : Nat) : (begun s id).ckpt = s.ckpt := (begun_confined s id) .ckpt (by decide)

theorem begun_cur (s : State) (id : Nat) : (begun s id).cur = s.cur := (begun_confined s id) .cur (by decide)

theorem complete_ckpt (s : State) (c : HCmd) (st r0 r1 n : Nat) : (complete s c st r0 r1 n).ckpt = s.ckpt :=
  (complete_confined s c st r0 r1 n) .ckpt (by decide)

theorem exec_snapshot_of_on {s : State} {id : Nat} (hadm : admitted s id 0x50 = true) (hon : cutsOn s = true) : exec (.snapshot id) s =
    .next ((begun s id).ckptM fun k => { k with snapshots := k.snapshots ++ [{ cmd := (cmdOf s id).id, coffer := (cmdOf s id).flag 4 }] }) :=
  (hostCmd_admitted _ hadm : execSnapshot id s = _).trans (congrArg _ (if_pos ((cutsOn_begun s id).trans hon)))

theorem exec_snapshot_of_off {s : State} {id : Nat} (hadm : admitted s id 0x50 = true) (hoff : cutsOn s = false) : exec (.snapshot id) s =
    .next (complete (begun s id) (cmdOf s id) stInvalid 0 0 0) :=
  (hostCmd_admitted _ hadm : execSnapshot id s = _).trans (congrArg _ (if_neg (by rw [cutsOn_begun, hoff]; decide)))

section
variable {s : State} {id : Nat} {x : View} (hadm : admitted s id 0x52 = true) (hsource : (cmdOf s id).fld 16 1 < 4 ∨ (cmdOf s id).fld 16 1 = 0x10)
  (hslot : (cmdOf s id).fld 17 1 ≤ 1) (haddr : addrOk ((cmdOf s id).fld 24 8) = true) (hview : sourceView (begun s id) ((cmdOf s id).fld 16 1) [] = some x)
include hsource hslot haddr

theorem manifestRead_allowed : ¬ (!((cmdOf s id).fld 16 1 < 4 || (cmdOf s id).fld 16 1 == 0x10) || 1 < (cmdOf s id).fld 17 1 || !addrOk ((cmdOf s id).fld 24 8)) = true := by
  intro h
  simp only [haddr, Bool.or_eq_true, Bool.not_eq_true', Bool.or_eq_false_iff, decide_eq_false_iff_not, beq_eq_false_iff_ne, decide_eq_true_eq, Bool.true_eq_false, or_false] at h
  omega

include hadm hview

theorem exec_manifestRead_of_found {b : Nat} {m : Extent} (hboot : pickBoot x (cmdOf s id).handle ((cmdOf s id).fld 18 3) = some b)
    (hman : slotManifest ((cmdOf s id).fld 16 1 < 4) x (cmdOf s id).handle b ((cmdOf s id).fld 17 1) = some m) : exec (.manifestRead id) s =
    .next (submitPut (begun s id) (cmdOf s id) ((cmdOf s id).fld 24 8) (bytesAt m.data 0 4096) stOk (manCut m % 2 ^ 32)
      (boolNat (manifestValid (begun s id) (storeExts x (cmdOf s id).handle b) m.data))) := by
  refine (hostCmd_admitted _ hadm : execManifestRead id s = _).trans (congrArg _ ((if_neg (manifestRead_allowed hsource hslot haddr)).trans ?_))
  rw [hview, Option.getD_some]
  dsimp only
  rw [hboot, Option.bind_some, hman]
  rfl

theorem exec_manifestRead_of_unknown (hboot : pickBoot x (cmdOf s id).handle ((cmdOf s id).fld 18 3) = none) :
    exec (.manifestRead id) s = .next (complete (begun s id) (cmdOf s id) stUnknown 0 0 0) := by
  refine (hostCmd_admitted _ hadm : execManifestRead id s = _).trans (congrArg _ ((if_neg (manifestRead_allowed hsource hslot haddr)).trans ?_))
  rw [hview, Option.getD_some]
  dsimp only
  rw [hboot]
  rfl

end

/-! ### The life of a cut -/

/-- Forming a cut's extents fills them in and keeps its frame and buddy (14 R529). -/
theorem formCut_edits (s : State) (c : Cut) :
    ∃ u f, formCut s c = cutM u c.frame f ∧ u.ckpt = s.ckpt ∧ ∀ d : Cut, (f d).frame = d.frame ∧ (f d).buddy = d.buddy :=
  ⟨_, _, rfl, rfl, fun _ => ⟨rfl, rfl⟩⟩

theorem formCut_find {s : State} {c : Cut} (hc : findCut s c.frame = some c) :
    ∃ e, findCut (formCut s c) c.frame = some e ∧ e.frame = c.frame ∧ e.buddy = c.buddy := by
  obtain ⟨u, f, hform, hckpt, hkeep⟩ := formCut_edits s c
  have hfound : findCut u c.frame = some c := by rwa [findCut, hckpt]
  refine ⟨f c, ?_, hkeep c⟩
  rw [hform, cutM_find u c.frame f fun d => (hkeep d).1, hfound, Option.map_some]

/-- The drain of a formed cut begins with its first phase (14 R529). -/
def drainBegun (s : State) (e : Cut) : State := drainPhase (cutM s e.frame fun d => { d with phase := 1 }) { e with phase := 1 }

theorem drainBegun_find {s : State} {e : Cut} (he : findCut s e.frame = some e) : findCut (drainBegun s e) e.frame = some { e with phase := 1 } := by
  have hckpt : (drainBegun s e).ckpt = (cutM s e.frame fun d => { d with phase := 1 }).ckpt := (drainPhase_steady _ _).only .ckpt (by decide)
  rw [findCut, hckpt]
  exact (cutM_find s e.frame (fun d => { d with phase := 1 }) (fun _ => rfl)).trans (by rw [he]; rfl)

theorem exec_drainStart_of_ready {s : State} {c e : Cut} {cs : List Cut} (hcuts : s.ckpt.cuts = c :: cs) (hserve : serving s = true) (hphase : c.phase = 0)
    (hdefer : c.deferred = []) (hcopy : copying s c.frame = false) (hbuddy : s.std.buddy = some c.buddy)
    (he : findCut (formCut s c) c.frame = some e) : exec .drainStart s = .next (drainBegun (formCut s c) e) := by
  show execDrainStart s = _
  rw [execDrainStart, hcuts]
  refine (when_of (by rw [hserve, hphase, hdefer, hcopy, hbuddy]; simp)).trans ?_
  dsimp only
  rw [he]
  rfl

/-- The state in which the oldest cut has left and governs (14 R533). -/
def cutKept (s : State) (c : Cut) : State :=
  (freeCut s c.frame).ckptM fun k => { k with
    cuts := k.cuts.drop 1, lastCut := c.frame, done := satInc k.done (2 ^ 32 - 1), lastUnits := (c.extentBytes.length + c.manifest.length) / 4096, last := c.newLast
    heldExt := c.newExt }

theorem completeCut_eq (s : State) (c : Cut) :
    completeCut s c = endSnapshots (cutKept s c) c.frame ((c.extentBytes.length + c.manifest.length) / 4096) false := rfl

theorem exec_cutComplete_of_sealed {s : State} {c : Cut} {cs : List Cut} (hclk : s.lan.refclk = true) (hcuts : s.ckpt.cuts = c :: cs) (hphase : c.phase = 5) :
    exec (.cutComplete false) s = .next (completeCut s c) := by
  refine (clocked_on hclk : execCutComplete false s = _).trans ((if_neg Bool.false_ne_true).trans ?_)
  rw [hcuts]
  exact when_of (beq_iff_eq.mpr hphase)

theorem exec_cutComplete_of_copied {s : State} (hclk : s.lan.refclk = true) :
    exec (.cutComplete true) s = .next (endSnapshots s s.ckpt.lastCut s.ckpt.lastUnits true) :=
  (clocked_on hclk : execCutComplete true s = _)

theorem cutKept_ckpt (s : State) (c : Cut) : (cutKept s c).ckpt = { s.ckpt with
    cuts := s.ckpt.cuts.drop 1, lastCut := c.frame, done := satInc s.ckpt.done (2 ^ 32 - 1), lastUnits := (c.extentBytes.length + c.manifest.length) / 4096
    last := c.newLast, heldExt := c.newExt } := by
  have hfree : (freeCut s c.frame).ckpt = s.ckpt := (freeCut_steady s c.frame).only .ckpt (by decide)
  rw [cutKept, State.ckptM, hfree]

theorem cutKept_hif (s : State) (c : Cut) : (cutKept s c).hif = s.hif := by
  have hfree : (freeCut s c.frame).hif = s.hif := (freeCut_steady s c.frame).only .hif (by decide)
  exact (State.ckptM_hif (freeCut s c.frame) _).trans hfree

/-- A cut that meets one of the three causes (14 R534). -/
def cutMeets (s : State) (reason : Nat) (c : Cut) : Bool :=
  if reason = 0 then drainFailed s c else if reason = 1 then s.std.buddy != some c.buddy else reason == 2 && c.refused

theorem exec_cutAbandon_of_met {s : State} {c : Cut} {reason : Nat} (hclk : s.lan.refclk = true) (hmet : s.ckpt.cuts.find? (cutMeets s reason) = some c) :
    exec (.cutAbandon reason) s = .next (abandonFrom s c.frame) := by
  refine (clocked_on hclk : execCutAbandon reason s = _).trans ?_
  unfold cutMeets at hmet
  dsimp only
  rw [hmet]

/-! ### In-stack copies -/

/-- The stack's copy at the front of its queue has been taken (09 R331). -/
def copyTaken (s : State) (stack : Nat) : State := { s with hbc := s.hbc.modify stack fun b => { b with copyQ := b.copyQ.drop 1 } }

theorem exec_instackCopyDone_of_ready {s : State} {stack : Nat} {q : CopyReq} {qs : List CopyReq} (hclk : s.lan.refclk = true) (hstack : stack < 8)
    (hqueue : (s.hbc.getD stack {}).copyQ = q :: qs) (hen : (s.hbc.getD stack {}).copyEn = true) (hmode : (s.hbc.getD stack {}).mode = .ready) :
    exec (.instackCopyDone stack) s = .next (copyDone s stack q) := by
  refine ((formed_of (decide_eq_true hstack)).trans (clocked_on hclk) : execInstackCopyDone stack s = _).trans ?_
  dsimp only
  rw [hqueue]
  exact when_of (by rw [hen, hmode]; rfl)

theorem copyDone_queue {s : State} {stack : Nat} {q : CopyReq} {qs : List CopyReq} (hstack : stack < s.hbc.length) (hqueue : (s.hbc.getD stack {}).copyQ = q :: qs) :
    ((copyDone s stack q).hbc.getD stack {}).copyQ = qs := by
  have hhbc : (copyDone s stack q).hbc = (copyTaken s stack).hbc :=
    ((copyDone_after s stack q).only .hbc (by decide) : _ = _).trans ((copyToSlot_steady (copyTaken s stack) stack q).only .hbc (by decide))
  rw [hhbc, copyTaken, getD_modify, if_pos ⟨rfl, hstack⟩]
  exact congrArg (List.drop 1) hqueue

theorem copyDone_bytes (s : State) (stack : Nat) (q : CopyReq) :
    (copyDone s stack q).t1 = s.t1.copyFrom s.t1 (frameAddr s stack q.frame) (spareAddr stack q.slot) 65536 :=
  (copyDone_after s stack q).only .t1 (by decide)

/-! ### RESTORE -/

/-- A RESTORE whose operands are good, on the extents of its source: the newest valid manifest there is restored (14 R547). -/
def restoreFrom (s : State) (c : HCmd) (params select resume replay : List Byte) (x : View) : State :=
  match pickBoot x c.handle (fieldAt params 0 3) with
  | none => complete s c stUnknown 0 0 0
  | some boot =>
    match bestManifest s x c.handle boot (fieldAt params 3 1) (fieldAt params 4 1) with
    | none => complete s c stTarnished 0 0 0
    | some m => restoreMove s c (restoreReq params select resume replay (storeExts x c.handle boot) m.2) (fieldAt params 3 1) (fieldAt params 48 8)

section
variable {s : State} {id : Nat} {params select resume replay : List Byte} {peer : List (Nat × Nat × List Byte × List Nat)} (hadm : admitted s id 0x51 = true)

theorem begun_epoch (s : State) (id : Nat) : (begun s id).std.epoch = s.std.epoch := (begun_std s id).2

include hadm

theorem exec_restore_of_bad (hbad : restoreOperands (cmdOf s id) params = false ∨ (cmdOf s id).fld 24 2 ≠ s.std.epoch) :
    exec (.restore id params select resume replay peer) s =
      .next (complete (begun s id) (cmdOf s id) (if restoreOperands (cmdOf s id) params then stStale else stInvalid) 0 0 0) := by
  refine (hostCmd_admitted _ hadm : execRestore id params select resume replay peer s = _).trans (congrArg _ ?_)
  unfold restoreStart
  cases hok : restoreOperands (cmdOf s id) params with
  | false => rfl
  | true =>
    have hstale : (cmdOf s id).fld 24 2 ≠ s.std.epoch := hbad.resolve_left (by rw [hok]; decide)
    exact (if_neg (by decide)).trans (if_pos (by rw [begun_epoch]; exact bne_iff_ne.mpr hstale))

variable (hok : restoreOperands (cmdOf s id) params = true) (hepoch : (cmdOf s id).fld 24 2 = s.std.epoch) {x : View}
  (hview : sourceView (begun s id) (fieldAt params 3 1) (peerView peer) = some x)
include hok hepoch hview

theorem exec_restore_of_view : exec (.restore id params select resume replay peer) s = .next (restoreFrom (begun s id) (cmdOf s id) params select resume replay x) := by
  refine (hostCmd_admitted _ hadm : execRestore id params select resume replay peer s = _).trans (congrArg _ ?_)
  refine (if_neg (by rw [hok]; decide)).trans ((if_neg (by rw [begun_epoch, hepoch, bne_self_eq_false]; decide)).trans ?_)
  show restoreFrom (begun s id) (cmdOf s id) params select resume replay ((sourceView (begun s id) (fieldAt params 3 1) (peerView peer)).getD []) = _
  rw [hview, Option.getD_some]

theorem exec_restore_of_unknown (hboot : pickBoot x (cmdOf s id).handle (fieldAt params 0 3) = none) :
    exec (.restore id params select resume replay peer) s = .next (complete (begun s id) (cmdOf s id) stUnknown 0 0 0) := by
  rw [exec_restore_of_view hadm hok hepoch hview, restoreFrom, hboot]

variable {boot : Nat} (hboot : pickBoot x (cmdOf s id).handle (fieldAt params 0 3) = some boot)
include hboot

theorem exec_restore_of_tarnished (hbest : bestManifest (begun s id) x (cmdOf s id).handle boot (fieldAt params 3 1) (fieldAt params 4 1) = none) :
    exec (.restore id params select resume replay peer) s = .next (complete (begun s id) (cmdOf s id) stTarnished 0 0 0) := by
  rw [exec_restore_of_view hadm hok hepoch hview, restoreFrom, hboot]
  dsimp only
  rw [hbest]

theorem exec_restore_of_manifest {m : Nat × Extent} (hbest : bestManifest (begun s id) x (cmdOf s id).handle boot (fieldAt params 3 1) (fieldAt params 4 1) = some m) :
    exec (.restore id params select resume replay peer) s = .next (restoreMove (begun s id) (cmdOf s id)
      (restoreReq params select resume replay (storeExts x (cmdOf s id).handle boot) m.2) (fieldAt params 3 1) (fieldAt params 48 8)) := by
  rw [exec_restore_of_view hadm hok hepoch hview, restoreFrom, hboot]
  dsimp only
  rw [hbest]

end

/-- A RESTORE that asks for its extents waits with its request (14 R548). -/
def restoreWaiting (s : State) (c : HCmd) (q : RestoreReq) (source report : Nat) : State :=
  s.ckptM fun k => { k with restores := k.restores ++ [{ cmd := c.id, source := source, report := report, req := q }] }

theorem restoreMove_of_missing {s : State} {c : HCmd} {q : RestoreReq} {source report hash : Nat}
    (hmiss : missingParure s q (restoreOrder q ((manifestIndex q.view q.man).getD [])) = some hash) :
    restoreMove s c q source report = complete s c stUnknown 0 (((manifestParure q.man hash).map (·.1)).getD 0) 0 := by
  rw [restoreMove, hmiss]

theorem restoreMove_of_extents {s : State} {c : HCmd} {q : RestoreReq} {source report : Nat}
    (hmiss : missingParure s q (restoreOrder q ((manifestIndex q.view q.man).getD [])) = none) (hext : restoreExts q ≠ []) :
    restoreMove s c q source report = (restoreExts q).foldl (fun s e => submit s (restoreDesc s c source e)) (restoreWaiting s c q source report) := by
  rw [restoreMove, hmiss]
  exact if_neg (by rw [List.isEmpty_iff]; exact hext)

theorem restoreRun_of_report {s u : State} {c : HCmd} {q : RestoreReq} {source report n : Nat} {rep : List Byte} {ok : Bool} (hkeep : c.flag 4 = false) (hrep : rep ≠ [])
    (hall : restoreAll q (restoreCharms s q (restoreOrder q ((manifestIndex q.view q.man).getD []))) (restoreOrder q ((manifestIndex q.view q.man).getD [])) = some (u, rep, n, ok)) :
    restoreRun s c q source report = submitPut u c report rep (if ok then stOk else stPartial) n (fieldAt q.man 24 8 % 2 ^ 32) := by
  rw [restoreRun, hall]
  refine (if_neg (by rw [hkeep]; decide)).trans (if_neg ?_)
  rw [List.isEmpty_iff]
  exact hrep

theorem endRestore_of_last {s : State} {r : RestoreRun} {c : HCmd} {st : Nat} (hst : st = 0 ∨ st = 4) (hr : s.ckpt.restores.find? (fun x => x.cmd == r.cmd) = some r)
    (hc : findCmd s r.cmd = some c) (hhere : sourceHere s r.source = true) (hlast : (allDescs s).any (fun d => d.purpose == .restore r.cmd) = false) :
    endRestore s r.cmd st = restoreRun (dropRestore s r.cmd) c r.req r.source r.report := by
  rw [endRestore, hr, hc]
  refine (if_neg ?_).trans (if_neg (by rw [hlast]; decide))
  rw [hhere]
  rcases hst with rfl | rfl <;> decide

/-- Settles O28: a cut leaves its queue only complete or abandoned, and a RESTORE passes its checks in order before it asks for an extent. -/
theorem checkpointsActed : Obligations.CheckpointsActed := by
  refine ⟨fun s id hadm hon => ?_, fun s id hadm hoff => ?_, fun s id x b m hadm hsource hslot haddr hview hboot hman => ?_,
    fun s id x hadm hsource hslot haddr hview hboot => ⟨_, exec_manifestRead_of_unknown hadm hsource hslot haddr hview hboot, begun_answers hadm⟩,
    fun s c cs hcuts hserve hphase hdefer hcopy hbuddy => ?_, fun s c cs hclk hcuts hphase => ?_, fun s hclk => ?_, fun s c reason hclk hmet => ?_,
    fun s stack q qs hclk hstack hlen hqueue hen hmode => ?_, fun s id params select resume replay peer hadm hbad => ?_,
    fun s id params select resume replay peer x hadm hok hepoch hview hboot => ?_, fun s id params select resume replay peer x boot hadm hok hepoch hview hboot hbest => ?_,
    fun s id params select resume replay peer x boot m hadm hok hepoch hview hboot hbest => ⟨fun hash hmiss => ?_, fun hmiss hext => ?_⟩,
    fun s r c u rep n ok st hst hr hc hhere hlast hkeep hrep hall => ?_⟩
  · refine ⟨_, exec_snapshot_of_on hadm hon, ?_, begun_done s id⟩
    rw [State.ckptM, begun_ckpt, cmdOf_id]
  · exact ⟨_, exec_snapshot_of_off hadm hoff, begun_answers hadm, (complete_ckpt _ _ _ _ _ _).trans (begun_ckpt s id)⟩
  · obtain ⟨d, hheld, hop, hpurpose, hputs⟩ := put_desc (begun s id) (cmdOf s id) ((cmdOf s id).fld 24 8) (bytesAt m.data 0 4096) stOk (manCut m % 2 ^ 32)
      (boolNat (manifestValid (begun s id) (storeExts x (cmdOf s id).handle b) m.data))
    refine ⟨_, d, exec_manifestRead_of_found hadm hsource hslot haddr hview hboot hman, hheld, hop, hpurpose.trans (congrArg Purpose.put (cmdOf_id s id)),
      (congrArg Hif.done ((submitPut_steady _ _ _ _ _ _ _).only .hif (by decide))).trans (begun_done s id), ?_⟩
    rw [hputs, begun_cur, cmdOf_id]
  · have hfind : findCut s c.frame = some c := by rw [findCut, hcuts]; exact List.find?_cons_of_pos (beq_self_eq_true c.frame)
    obtain ⟨e, he, hframe, hpeer⟩ := formCut_find hfind
    obtain ⟨d, hheld, hop, hdpeer, hpurpose, hunits, hext⟩ := drainOne (s := cutM (formCut s c) e.frame fun d => { d with phase := 1 }) (c := { e with phase := 1 }) rfl
    refine ⟨_, d, { e with phase := 1 }, exec_drainStart_of_ready hcuts hserve hphase hdefer hcopy hbuddy he, hheld, hop, hdpeer.trans hpeer, hpurpose.trans (congrArg _ hframe),
      hunits, ?_, rfl, hext⟩
    rw [← hframe] at he ⊢
    exact drainBegun_find he
  · have hkept := cutKept_ckpt s c
    have hckpt := endSnapshots_ckpt (cutKept s c) c.frame ((c.extentBytes.length + c.manifest.length) / 4096) false
    rw [← completeCut_eq, hkept] at hckpt
    refine ⟨_, exec_cutComplete_of_sealed hclk hcuts hphase, ?_, ?_, ?_, ?_, fun p hp hcut hcoffer hfound hopen => ?_⟩
    · rw [hckpt, hcuts]
      rfl
    · rw [hckpt]
    · rw [hckpt]
    · rw [hckpt]
    · rw [completeCut_eq]
      refine endSnapshots_ended (by rw [hkept]; exact hp) hcut (.inr hcoffer) ?_ ?_
      · rw [findCmd, cutKept_hif]
        exact hfound
      · rw [completed, cutKept_hif]
        exact hopen
  · have hckpt := endSnapshots_ckpt s s.ckpt.lastCut s.ckpt.lastUnits true
    refine ⟨_, exec_cutComplete_of_copied hclk, by rw [hckpt], fun p hp hcut hfound hopen => ⟨endSnapshots_ended hp hcut (.inl rfl) hfound hopen, ?_⟩⟩
    rw [hckpt]
    simp [hp, hcut]
  · have hgone := abandonFrom_ckpt s c.frame
    exact ⟨_, exec_cutAbandon_of_met hclk hmet, hgone⟩
  · exact ⟨_, exec_instackCopyDone_of_ready hclk hstack hqueue hen hmode, copyDone_queue (by rw [hlen]; exact hstack) hqueue, copyDone_bytes s stack q,
      (copyDone_steady s stack q).only⟩
  · exact ⟨_, exec_restore_of_bad hadm hbad, begun_answers hadm, (complete_lockets _ _ _ _ _ _).trans (begun_lockets s id)⟩
  · exact ⟨_, exec_restore_of_unknown hadm hok hepoch hview hboot, begun_answers hadm, (complete_lockets _ _ _ _ _ _).trans (begun_lockets s id)⟩
  · exact ⟨_, exec_restore_of_tarnished hadm hok hepoch hview hboot hbest, begun_answers hadm, (complete_lockets _ _ _ _ _ _).trans (begun_lockets s id)⟩
  · refine ⟨_, (exec_restore_of_manifest hadm hok hepoch hview hboot hbest).trans (congrArg _ (restoreMove_of_missing hmiss)), begun_answers hadm,
      (complete_lockets _ _ _ _ _ _).trans (begun_lockets s id)⟩
  · have hfold := (restoreDescs_confined (cmdOf s id) (fieldAt params 3 1) (restoreExts (restoreReq params select resume replay (storeExts x (cmdOf s id).handle boot) m.2))
      (restoreWaiting (begun s id) (cmdOf s id) (restoreReq params select resume replay (storeExts x (cmdOf s id).handle boot) m.2) (fieldAt params 3 1) (fieldAt params 48 8))).only
    refine ⟨_, (exec_restore_of_manifest hadm hok hepoch hview hboot hbest).trans (congrArg _ (restoreMove_of_extents hmiss hext)), ?_, ?_, ?_, ?_⟩
    · exact (hfold .lockets (by decide) : _ = _).trans (begun_lockets s id)
    · exact (congrArg Hif.done (hfold .hif (by decide))).trans (begun_done s id)
    · rw [show State.ckpt _ = _ from hfold .ckpt (by decide), restoreWaiting, State.ckptM, begun_ckpt, cmdOf_id]
    · intro e he
      obtain ⟨d, hheld, hpurpose, hrest⟩ := restoreDescs_held (cmdOf s id) (fieldAt params 3 1) _ (restoreWaiting (begun s id) (cmdOf s id) _ (fieldAt params 3 1) (fieldAt params 48 8)) e he
      exact ⟨d, hheld, hpurpose.trans (congrArg Purpose.restore (cmdOf_id s id)), hrest⟩
  · obtain ⟨d, hheld, hop, hpurpose, hputs⟩ := put_desc u c r.report rep (if ok then stOk else stPartial) n (fieldAt r.req.man 24 8 % 2 ^ 32)
    rw [endRestore_of_last hst hr hc hhere hlast, restoreRun_of_report hkeep hrep hall]
    refine ⟨d, hheld, hop, hpurpose.trans (congrArg Purpose.put (findCmd_id hc)), (submitPut_steady _ _ _ _ _ _ _).only .lockets (by decide), ?_⟩
    rw [hputs, findCmd_id hc]

end Sys2Proof.Machine

/-! The Courier's packets and the ends of its descriptors (O29). -/

namespace Sys2Proof.Machine
open Sys2Proof

/-! ### One packet of a channel -/

theorem movePacket_cur (s : State) (d : Desc) : (movePacket (countDesc s d) d).1.cur = s.cur :=
  ((movePacket_steady (countDesc s d) d).only .cur (by decide) : _ = _).trans ((countDesc_steady s d).only .cur (by decide))

theorem sendOn_cur (s : State) (k f : Nat) (d : Desc) : (sendOn s k f d).cur = { s.cur with
    channels := s.cur.channels.upd k fun x => { x with sent := x.sent + 1, tarnished := x.tarnished || (movePacket (countDesc s d) d).2 }
    lastCh := s.cur.lastCh.set f k, units := (s.cur.units + 1) % 2 ^ 64 } := by
  rw [← movePacket_cur s d]
  rfl

theorem movePacket_put {s : State} {d : Desc} {id : Nat} (hop : d.op = 7) (hput : d.purpose = .put id) : movePacket s d = (putPacket s d id, false) := by
  rw [movePacket, hop, hput]
  rfl

/-- A unit of a PUT goes to its place in host memory (09 Table 9-6). -/
theorem sendOn_hostMem {s : State} {k f id : Nat} {d : Desc} {p : PutBuf} (hop : d.op = 7) (hput : d.purpose = .put id)
    (hp : s.cur.puts.find? (fun q => q.cmd == id) = some p) (hvia : viaHead s = false) :
    (sendOn s k f d).hostMem = s.hostMem.writeN (p.addr + 4096 * d.sent) ((p.data.drop (4096 * d.sent)).take 4096) := by
  have hcount := (countDesc_steady s d).only
  have hhost : (countDesc s d).hostMem = s.hostMem := hcount .hostMem (by decide)
  show (movePacket (countDesc s d) d).1.hostMem = _
  rw [movePacket_put hop hput, putPacket, show (countDesc s d).cur = s.cur from hcount .cur (by decide), hp]
  dsimp only
  rw [hostWrite_own _ _ ((viaHead_of_std (hcount .std (by decide))).trans hvia), hhost]

/-- The state in which the chosen channel has sent its packet (09 R344, R348; 11 R418). -/
def packetSent (s u : State) (errors : List (Nat × Nat)) (k f : Nat) (d : Desc) : State :=
  wfqCharge (sendOn (t2Errors u d errors) k f d) 0 f 1 ((sendable (sendOn (t2Errors u d errors) k f d)).any (fun e => e.2 == f)) (courierSlot s)

theorem exec_courierPacketSelect_of_chosen {s u : State} {f k : Nat} {d : Desc} {errors : List (Nat × Nat)} (herr : ∀ e ∈ errors, e.1 < 256 ∧ e.2 < 2 ^ 144)
    (hen : s.cur.enable = true) (hserve : serving s = true) (hsel : wfqSelect s 0 (((sendable s).map (·.2)).eraseDups) (courierSlot s) = (u, some f))
    (hnext : nextChannel s f (((sendable s).filter (fun e => e.2 == f)).map (·.1)) = some k) (hk : u.cur.channels.get? k = some d) :
    exec (.courierPacketSelect errors) s = .next (packetSent s u errors k f d) := by
  have hformed : errors.all (fun e => decide (e.1 < 256) && decide (e.2 < 2 ^ 144)) = true := List.all_eq_true.mpr fun e he => by
    rw [decide_eq_true (herr e he).1, decide_eq_true (herr e he).2]
    rfl
  refine ((formed_of hformed).trans (if_neg (by rw [hen, hserve]; decide)) : execCourierPacketSelect s errors = _).trans ?_
  dsimp only
  rw [hsel]
  dsimp only
  rw [hnext, Option.bind_some, hk]
  rfl

theorem packetSent_confined {s u : State} {errors : List (Nat × Nat)} {k f : Nat} {d : Desc} (hu : confined [.traffic] s u) :
    confined [.t1, .extents, .lpc, .cur, .bays, .eph, .traffic, .integ, .std, .lan, .hostMem] s (packetSent s u errors k f d) :=
  confined_trans (confined_more hu (by decide)) (confined_trans (confined_more (t2Errors_steady u d errors).only (by decide))
    (confined_trans (confined_more (sendOn_steady _ k f d).only (by decide)) (confined_more (wfqCharge_steady _ 0 f 1 _ _).only (by decide))))

theorem packetSent_cur (s u : State) (errors : List (Nat × Nat)) (k f : Nat) (d : Desc) : (packetSent s u errors k f d).cur = { u.cur with
    channels := u.cur.channels.upd k fun x => { x with sent := x.sent + 1, tarnished := x.tarnished || (movePacket (countDesc (t2Errors u d errors) d) d).2 }
    lastCh := u.cur.lastCh.set f k, units := (u.cur.units + 1) % 2 ^ 64 } := by
  have hcharge : (packetSent s u errors k f d).cur = (sendOn (t2Errors u d errors) k f d).cur := (wfqCharge_steady _ 0 f 1 _ _).only .cur (by decide)
  have hlpc : (t2Errors u d errors).cur = u.cur := (t2Errors_steady u d errors).only .cur (by decide)
  rw [hcharge, sendOn_cur, hlpc]

theorem packetSent_hostMem {s u : State} {errors : List (Nat × Nat)} {k f id : Nat} {d : Desc} {p : PutBuf} (hop : d.op = 7) (hput : d.purpose = .put id)
    (hp : u.cur.puts.find? (fun q => q.cmd == id) = some p) (hvia : viaHead u = false) :
    (packetSent s u errors k f d).hostMem = u.hostMem.writeN (p.addr + 4096 * d.sent) ((p.data.drop (4096 * d.sent)).take 4096) := by
  have hlpc := (t2Errors_steady u d errors).only
  have hcharge : (packetSent s u errors k f d).hostMem = (sendOn (t2Errors u d errors) k f d).hostMem := (wfqCharge_steady _ 0 f 1 _ _).only .hostMem (by decide)
  have hhost : (t2Errors u d errors).hostMem = u.hostMem := hlpc .hostMem (by decide)
  rw [hcharge, sendOn_hostMem hop hput (by rw [show (t2Errors u d errors).cur = u.cur from hlpc .cur (by decide)]; exact hp)
    ((viaHead_of_std (hlpc .std (by decide))).trans hvia), hhost]

/-! ### The end of a descriptor -/

/-- A descriptor that has left the Courier with its completion record, its partial effects undone where it failed (09 R348, R350). -/
def descLeft (s : State) (d : Desc) (status : Nat) : State :=
  if status = 0 || status = 4 then removeDesc (writeRecord s d status) d else undoWrite (removeDesc (writeRecord s d status) d) d

/-- The state before a descriptor's end has its effect: the events of its status are noted (09 Table 9-14). -/
def descEnded (s : State) (d : Desc) (status : Nat) : State :=
  (descLeft s d status).curM fun u =>
    { u with evTarnish := u.evTarnish || status == 4, evDigest := u.evDigest || status == 3
             digestFail := if status == 3 then wrapInc 32 u.digestFail else u.digestFail }

theorem exec_courierComplete_of_end {s : State} {cookie status k : Nat} {d : Desc} (hclk : s.lan.refclk = true) (hd : channelOf s cookie = some (k, d))
    (hend : mayEnd s d status = true) : exec (.courierComplete cookie status) s = .next (endDesc (descEnded s d status) d status) := by
  refine (clocked_on hclk : execCourierComplete cookie status s = _).trans ?_
  rw [hd]
  exact when_of hend

theorem descLeft_steady (s : State) (d : Desc) (status : Nat) : confined [.extents, .cur, .bays] s (descLeft s d status) := by
  have hremove : confined [.extents, .cur, .bays] s (removeDesc (writeRecord s d status) d) :=
    confined_trans (confined_more (curM_confined _ _) (by decide)) (removeDesc_steady _ d).only
  unfold descLeft
  split
  · exact hremove
  · exact confined_trans hremove (confined_more (undoWrite_steady _ d).only (by decide))

theorem descLeft_cur (s : State) (d : Desc) (status : Nat) : (descLeft s d status).cur = (removeDesc (writeRecord s d status) d).cur := by
  unfold descLeft
  split
  · rfl
  · exact (undoWrite_steady _ d).only .cur (by decide)

theorem descEnded_confined (s : State) (d : Desc) (status : Nat) : confined [.extents, .cur, .bays] s (descEnded s d status) :=
  confined_trans (descLeft_steady s d status) (confined_more (curM_confined _ _) (by decide))

theorem descEnded_done (s : State) (d : Desc) (status : Nat) : (descEnded s d status).cur.done = s.cur.done := by
  obtain ⟨hdone, -⟩ := removeDesc_facts (writeRecord s d status) d
  show (descLeft s d status).cur.done = _
  rw [descLeft_cur, hdone]
  exact (writeRecord_facts s d status).1

theorem descEnded_puts (s : State) (d : Desc) (status : Nat) : (descEnded s d status).cur.puts = s.cur.puts := by
  obtain ⟨-, hputs, -⟩ := removeDesc_facts (writeRecord s d status) d
  show (descLeft s d status).cur.puts = _
  rw [descLeft_cur, hputs]
  exact (writeRecord_facts s d status).2.1

theorem descEnded_recorded (s : State) (d : Desc) (status : Nat) : doneRec s d status ∈ (descEnded s d status).cur.records := by
  show _ ∈ (descLeft s d status).cur.records
  rw [descLeft_cur, removeDesc_records, (writeRecord_facts s d status).2.2]
  exact mem_last_drop _ _ _

theorem descEnded_gone (s : State) (d : Desc) (status : Nat) : ∀ e ∈ allDescs (descEnded s d status), e.cookie ≠ d.cookie := by
  intro e he
  have hheld : allDescs (descEnded s d status) = allDescs (removeDesc (writeRecord s d status) d) := by
    refine (curM_descs (descLeft s d status) _ fun _ => ⟨rfl, rfl⟩).trans ?_
    rw [allDescs, descLeft_cur]
    rfl
  rw [hheld] at he
  exact (removeDesc_facts _ d).2.2.1 e he

/-- The purposes whose completion record the control complex takes (09 R350). -/
theorem endDesc_of_noted {s : State} {d : Desc} {status : Nat}
    (hpurpose : (∃ id, d.purpose = .select id) ∨ (∃ h, d.purpose = .promote h) ∨ (∃ h, d.purpose = .facet h) ∨ (∃ x, d.purpose = .parure x)) :
    endDesc s d status = s.curM fun u => { u with done := u.done ++ [doneRec s d status] } := by
  unfold endDesc
  rcases hpurpose with ⟨x, h⟩ | ⟨x, h⟩ | ⟨x, h⟩ | ⟨x, h⟩ <;> rw [h]

theorem endDesc_of_put {s : State} {d : Desc} {id : Nat} {p : PutBuf} (hput : d.purpose = .put id) (hp : s.cur.puts.find? (fun q => q.cmd == id) = some p) :
    endDesc s d 0 = completeId (s.curM fun u => { u with puts := u.puts.filter (fun q => q.cmd != id) }) id p.status p.r0 p.r1 0 := by
  unfold endDesc
  rw [hput]
  show finishPut s id = _
  rw [finishPut, hp]

/-! ### An abandoned demotion -/

/-- The locket of a demotion that has been abandoned: it stays where it was (08 R300). -/
def stayed (now : Tick) (m : TierMove) (l : Locket) : Locket :=
  { l with state := if m.src = 1 then .opened else .parkedT2, dst := 0, move := none, bay := 0xFF, lastTouch := now, dirtyControl := true }

/-- The state in which a demotion's descriptors and its extent are gone and its locket stays (08 R300). -/
def demotionUndone (s : State) (h : Nat) (m : TierMove) : State :=
  (dropExtent (abandonFor s (fun p => p == .demote h)) m.extent).locketM h (stayed s.now m)

theorem abandonDemotion_eq {s : State} {h status : Nat} {l : Locket} {m : TierMove} (hl : s.lockets.get? h = some l) (hstate : l.state = .demoting) (hmove : l.move = some m) :
    abandonDemotion s h status = match m.cmd with | some id => completeId (demotionUndone s h m) id status 0 0 0 | none => demotionUndone s h m := by
  have hnow : (dropExtent (abandonFor s (fun p => p == .demote h)) m.extent).now = s.now :=
    ((dropExtent_steady _ m.extent).only .now (by decide) : _ = _).trans ((abandonFor_steady s _).only .now (by decide))
  unfold abandonDemotion demotionUndone stayed
  rw [hl]
  dsimp only
  rw [hstate, hmove, ← hnow]
  rfl

theorem demotionUndone_lockets {s : State} {h : Nat} {m : TierMove} {l : Locket} (hl : s.lockets.get? h = some l) : (demotionUndone s h m).lockets.get? h = some (stayed s.now m l) := by
  have hsame : (dropExtent (abandonFor s (fun p => p == .demote h)) m.extent).lockets = s.lockets :=
    ((dropExtent_steady _ m.extent).only .lockets (by decide) : _ = _).trans ((abandonFor_steady s _).only .lockets (by decide))
  rw [demotionUndone, State.locketM_lockets, tab_get_upd_same, hsame, hl]
  rfl

theorem demotionUndone_gone {s : State} {h : Nat} {m : TierMove} (habandon : ∀ e ∈ allDescs s, e.purpose = .demote h → e.abandonable = true) :
    ∀ e ∈ allDescs (demotionUndone s h m), e.purpose ≠ .demote h := by
  intro e he
  have hcur : (demotionUndone s h m).cur = (abandonFor s (fun p => p == .demote h)).cur := (dropExtent_steady _ m.extent).only .cur (by decide)
  rw [allDescs, hcur] at he
  exact bne_iff_ne.mp (congrArg not (abandonFor_gone s _ (fun x hx hp => habandon x hx (beq_iff_eq.mp hp)) e he))

theorem demotionUndone_hif (s : State) (h : Nat) (m : TierMove) : (demotionUndone s h m).hif = s.hif :=
  ((dropExtent_steady _ m.extent).only .hif (by decide) : _ = _).trans ((abandonFor_steady s _).only .hif (by decide))

theorem demotionUndone_now (s : State) (h : Nat) (m : TierMove) : (demotionUndone s h m).now = s.now :=
  ((dropExtent_steady _ m.extent).only .now (by decide) : _ = _).trans ((abandonFor_steady s _).only .now (by decide))

theorem completeId_descs (s : State) (id st r0 r1 n : Nat) : allDescs (completeId s id st r0 r1 n) = allDescs s := by
  rw [allDescs, show (completeId s id st r0 r1 n).cur = s.cur from (completeId_confined s id st r0 r1 n) .cur (by decide)]
  rfl

theorem exec_courierAbandon_of_demotion {s : State} {cookie h : Nat} {d : Desc} (hclk : s.lan.refclk = true)
    (hd : (allDescs s).find? (fun d => d.cookie == cookie) = some d) (hpurpose : d.purpose = .demote h) (hab : d.abandonable = true)
    (hbay : d.tier ≠ 3 ∨ (s.bay d.bay).mode = .mounted) : exec (.courierAbandon cookie) s = .next (abandonDemotion s h stCancelled) := by
  refine (clocked_on hclk : execCourierAbandon cookie s = _).trans ?_
  rw [hd]
  refine (when_of hab).trans (congrArg _ ?_)
  rw [hpurpose]
  refine if_neg ?_
  rcases hbay with htier | hmode
  · rw [decide_eq_false htier, Bool.false_and]
    decide
  · rw [hmode, show (BayMode.mounted != BayMode.mounted) = false from rfl, Bool.and_false]
    decide

/-- Settles O29: a packet changes only its channel and what it moves, an ended descriptor leaves its record, and an abandoned demotion leaves its session. -/
theorem courierActed : Obligations.CourierActed := by
  refine ⟨fun s u f k d errors herr hen hserve hsel hnext hk => ?_, fun s cookie status k d hclk hd hend hpurpose => ?_,
    fun s cookie k d id p c hclk hd hend hop hput hp hc hopen => ?_, fun s cookie d h l m hclk habandon hd hpurpose hab hbay hl hstate hmove => ?_⟩
  · have hu : confined [.traffic] s u := by
      have hselect := (wfqSelect_steady s 0 (((sendable s).map (·.2)).eraseDups) (courierSlot s)).only
      rwa [hsel] at hselect
    have hcur : u.cur = s.cur := hu .cur (by decide)
    have hsent := packetSent_cur s u errors k f d
    rw [hcur] at hsent
    refine ⟨_, exec_courierPacketSelect_of_chosen herr hen hserve hsel hnext (by rw [hcur]; exact hk), ?_, ?_, ?_, fun j hj => ?_, ?_, fun id p hop hput hp hvia => ?_,
      packetSent_confined hu⟩
    · rw [hsent, tab_get_upd_same, hk]
      rfl
    · rw [hsent, tab_get_set_same]
    · rw [hsent]
    · rw [hsent, tab_get_upd_other _ _ hj.symm]
    · rw [hsent]
    · rw [packetSent_hostMem hop hput (by rw [hcur]; exact hp) ((viaHead_of_std (hu .std (by decide))).trans hvia),
        show u.hostMem = s.hostMem from hu .hostMem (by decide)]
  · have hleft := descEnded_confined s d status
    refine ⟨_, (exec_courierComplete_of_end hclk hd hend).trans (congrArg _ (endDesc_of_noted hpurpose)), ?_, descEnded_recorded s d status, fun e he => ?_, hleft .hif (by decide)⟩
    · show (descEnded s d status).cur.done ++ [doneRec (descEnded s d status) d status] = _
      rw [descEnded_done, doneRec, show (descEnded s d status).now = s.now from hleft .now (by decide), channelOf_cookie hd]
    · rw [← channelOf_cookie hd]
      exact descEnded_gone s d status e ((curM_descs (descEnded s d status) _ fun _ => ⟨rfl, rfl⟩) ▸ he)
  · have hleft := descEnded_confined s d 0
    have hp' : (descEnded s d 0).cur.puts.find? (fun q => q.cmd == id) = some p := by rw [descEnded_puts]; exact hp
    have hhif : (descEnded s d 0).hif = s.hif := hleft .hif (by decide)
    refine ⟨_, (exec_courierComplete_of_end hclk hd hend).trans (congrArg _ (endDesc_of_put hput hp')), completeId_answers ?_ (congrArg Hif.done hhif) (hleft .now (by decide)) ?_, ?_, ?_⟩
    · show findCmd (descEnded s d 0) id = some c
      rw [findCmd, hhif]
      exact hc
    · rw [findCmd_id hc]
      exact hopen
    · exact ((completeId_confined _ _ _ _ _ _) .hostMem (by decide) : _ = _).trans (hleft .hostMem (by decide))
    · rw [show State.cur _ = _ from (completeId_confined _ _ _ _ _ _) .cur (by decide)]
      show (descEnded s d 0).cur.puts.filter _ = _
      rw [descEnded_puts]
  · have hexec := (exec_courierAbandon_of_demotion hclk hd hpurpose hab hbay).trans (congrArg _ (abandonDemotion_eq hl hstate hmove))
    refine ⟨_, hexec, ?_, ?_, fun id c hcmd hc hopen => ?_⟩
    · cases m.cmd with
      | none => exact demotionUndone_lockets hl
      | some id => exact (completeId_lockets _ _ _ _ _ _).symm ▸ demotionUndone_lockets hl
    · cases m.cmd with
      | none => exact demotionUndone_gone habandon
      | some id => exact (completeId_descs _ _ _ _ _ _).symm ▸ demotionUndone_gone habandon
    · rw [hcmd]
      refine completeId_answers ?_ (congrArg Hif.done (demotionUndone_hif s h m)) (demotionUndone_now s h m) (by rw [findCmd_id hc]; exact hopen)
      rw [findCmd, demotionUndone_hif]
      exact hc

end Sys2Proof.Machine

/-! Tiles, window halves, gathers, pre-emption, spill and restore (O31). -/

namespace Sys2Proof.Machine
open Sys2Proof

/-! ### TILE_ISSUE -/

section
variable {s : State} {p : Progress} {img : List Byte} {pr : Prog} {ps : List PosEntry} {u : TileRef} (hrun : running s = some (p, img, pr, ps))
include hrun

/-- What TILE_ISSUE does with the next tile while no cheap point stops it: it leaves, or it waits for its inputs (03 R86, R95). -/
def tileLeaves (s : State) (p : Progress) (img : List Byte) (pr : Prog) (ps : List PosEntry) (u : TileRef) : State :=
  if tileReady s p img pr ps u then issueTile s img ps pr u
  else s.oryM fun y => { y with hold := true, mode := if stopAsked s then .toCheapPoint else if y.mode == .replayWait then .replayWait else .windowHold }

theorem exec_tileIssue_of_next (hup : upcoming p = some u) (hmay : mayIssue s = true) (hflight : ∀ v ∈ p.inFlight, v.sweep = u.sweep)
    (hgo : (p.discarded.isEmpty && stopAsked s && (findCheap img ps pr u).isSome) = false) : exec .tileIssue s = .next (tileLeaves s p img pr ps u) := by
  have hahead : p.inFlight.any (fun v => v.sweep != u.sweep) = false := List.any_eq_false.mpr fun v hv => by simp [hflight v hv]
  show execTileIssue s = _
  rw [execTileIssue, hrun]
  dsimp only
  rw [hup]
  dsimp only
  rw [hmay, hahead, hgo]
  rfl

theorem issueTile_prog : ∃ q, (issueTile s img ps pr u).ory.prog = some q ∧ q.inFlight = p.inFlight ++ [u] ∧ q.discarded = p.discarded.tail ∧
    (p.discarded = [] → q.issuedAll = (nextTile img ps pr u).isNone ∧ ∀ n, nextTile img ps pr u = some n → q.next = n) := by
  have hprog := running_prog hrun
  unfold issueTile
  rw [State.oryM_ory, hprog]
  refine ⟨_, rfl, ?_⟩
  dsimp only
  cases hdis : p.discarded with
  | nil => exact ⟨rfl, rfl, fun _ => ⟨rfl, fun n hn => by rw [hn]; rfl⟩⟩
  | cons t ts => exact ⟨rfl, rfl, fun h => nomatch h⟩

end

theorem tileLeaves_confined (s : State) (p : Progress) (img : List Byte) (pr : Prog) (ps : List PosEntry) (u : TileRef) : confined [.ory] s (tileLeaves s p img pr ps u) := by
  unfold tileLeaves
  split
  · exact oryM_confined _ _
  · exact oryM_confined _ _

/-! ### TILE_COMMIT -/

/-- The state in which a tile's arithmetic, its chunk's end and its retirement have taken effect (03 R110). -/
def tileRetired (s : State) (hash : Nat) (img : List Byte) (ps : List PosEntry) (pr : Prog) (p : Progress) (u : TileRef) : State :=
  let x := tileIn p hash img ps pr u
  let a := commitSums s ps x
  retireTile (tilePassed (if endsChunk img ps pr u then commitChunk a img ps x (chunkLanes a img ps x) else a) u) u

theorem commitSums_keeps (s : State) (ps : List PosEntry) (x : TileIn) :
    (commitSums s ps x).ory.prog = s.ory.prog ∧ (commitSums s ps x).ory.failing = s.ory.failing := by
  unfold commitSums
  split
  · exact ⟨rfl, rfl⟩
  · split <;> exact ⟨rfl, rfl⟩
  · exact ⟨rfl, rfl⟩

theorem commitSums_compute {s : State} {ps : List PosEntry} {x : TileIn} {kc : Nat} (hkind : x.t.kind = .compute kc) (hgemm : x.sw.kind = 1) :
    (commitSums s ps x).ory.acc = gemmTile s ps x kc := by
  unfold commitSums
  rw [hkind]
  exact if_pos hgemm

theorem commitSums_combine {s : State} {ps : List PosEntry} {x : TileIn} {level piece : Nat} (hkind : x.t.kind = .combine level piece) (hgemm : x.sw.kind = 1) :
    (commitSums s ps x).ory.sums = s.ory.sums.set (chunkKey x.t) (combineTile (s.ory.sums.getD (chunkKey x.t) []) x.sw x.t level piece x.ms.length) := by
  unfold commitSums
  rw [hkind]
  dsimp only
  rw [if_neg (by rw [hgemm]; decide)]
  rfl

theorem tilePassed_of_other {s : State} {u : TileRef} (hfail : s.ory.failing ≠ some u) : tilePassed s u = s :=
  if_neg fun h => hfail (beq_iff_eq.mp h)

theorem commitTile_of_plain {s : State} {par : Parure} {slot : Nat} {img : List Byte} {ps : List PosEntry} {pr : Prog} {p : Progress} {u : TileRef}
    (htwo : imgTwoRate img = false) (hfacet : ((tileIn p par.hash img ps pr u).sw.facet && u.kind == .epilogue) = false)
    (hline : parureLine s par img (tileIn p par.hash img ps pr u) = none)
    (hread : ∀ e ∈ readers (tileRetired s par.hash img ps pr p u), (e.2.recomputing && tarnishedRun (tileRetired s par.hash img ps pr p u) e.2.threadAddr (2 * e.2.base)) = false) :
    commitTile s par slot img ps pr p u = reachCheap (chargeLast (noteRows (tileRetired s par.hash img ps pr p u))) := by
  unfold commitTile
  dsimp only
  rw [htwo, Bool.false_and, Bool.false_and, if_neg Bool.false_ne_true, hline, hfacet, if_neg Bool.false_ne_true]
  refine congrArg (fun w => reachCheap (chargeLast (noteRows w))) (foldl_id _ _ _ fun e he => if_neg fun h => Bool.false_ne_true ((hread e he).symm.trans h))

theorem stopAsked_noted (w : State) : stopAsked (chargeLast (noteRows w)) = stopAsked w := by
  have hory : (chargeLast (noteRows w)).ory = w.ory := ((chargeLast_steady (noteRows w)).only .ory (by decide) : _ = _).trans ((noteRows_steady w).only .ory (by decide))
  rw [stopAsked, hory]
  rfl

theorem noted_confined (w : State) : confined [.eph] w (chargeLast (noteRows w)) := confined_trans (noteRows_steady w).only (chargeLast_steady _).only

theorem exec_tileCommit_of_oldest {s : State} {lane : Nat} {p : Progress} {img : List Byte} {pr : Prog} {ps : List PosEntry} {u : TileRef} (hlane : lane < 2)
    (hrun : running s = some (p, img, pr, ps)) (hold : oldestIn p lane = some u) (hclk : s.lan.refclk = true) (hmode : s.ory.mode ≠ .fault) (hint : s.integ.mode ≠ .fence) :
    exec (.tileCommit u.sweep lane [] []) s = .next (commitTile s (s.parures.getD p.slot {}) p.slot img ps pr p u) := by
  refine (formed_of (by rw [decide_eq_true hlane]; rfl) : execTileCommit u.sweep lane [] [] s = _).trans ?_
  rw [hrun]
  dsimp only
  rw [hold]
  exact when_of (by rw [beq_self_eq_true, hclk, bne_iff_ne.mpr hmode, bne_iff_ne.mpr hint]; rfl)

/-- A tile commit of a lane that the block has always answers a next state. -/
theorem exec_tileCommit_answers {s : State} {sweep lane : Nat} {scratch window : List (Nat × Nat)} (hlane : lane < 2) (hscratch : wordsOk (2 ^ 24) scratch = true)
    (hwindow : wordsOk (2 ^ 23) window = true) : ∃ t, exec (.tileCommit sweep lane scratch window) s = .next t := by
  show ∃ t, execTileCommit sweep lane scratch window s = .next t
  rw [execTileCommit, formed_of (by rw [decide_eq_true hlane, hscratch, hwindow]; rfl)]
  split
  · exact ⟨s, rfl⟩
  · split
    · exact ⟨s, rfl⟩
    · unfold when
      split <;> exact ⟨_, rfl⟩

/-! ### Window halves and gathers -/

/-- The state in which the fill of a half of a program has arrived (03 R93, R96; 04 R137). -/
def halfFilled (s : State) (p : Progress) (img : List Byte) (pr : Prog) (ps : List PosEntry) (half f : Nat) : State :=
  s.oryM fun y =>
    { railFill s (s.parures.getD p.slot {}) img ps pr half f (setHalf y half (fillTag img ps pr f)) with
      prog := y.prog.map (fun p => { p with refetch := p.refetch.filter (· != half), fillSeq := max p.fillSeq (if (fillTag img ps pr f).isSome then f + 1 else 0) }) }

theorem exec_windowFillDone_of_fill {s : State} {p : Progress} {img : List Byte} {pr : Prog} {ps : List PosEntry} {half f : Nat} (hhalf : half < 2)
    (hrun : running s = some (p, img, pr, ps)) (hfill : fillFor s p img pr ps half = some f) (hclk : s.lan.refclk = true) (hlost : orreryLost s = false)
    (hint : s.integ.mode ≠ .fence) (hmode : s.ory.mode ≠ .spill) : exec (.windowFillDone half []) s = .next (endHold (halfFilled s p img pr ps half f)) := by
  have hspill : (s.ory.mode == .spill) = false := beq_eq_false_iff_ne.mpr hmode
  refine ((formed_of (by rw [decide_eq_true hhalf]; rfl)).trans (when_of (by rw [hclk, hlost, bne_iff_ne.mpr hint]; rfl)) : execWindowFillDone half s [] = _).trans (congrArg _ ?_)
  rw [hspill]
  show fillHalf s half = _
  rw [fillHalf, hrun]
  dsimp only
  rw [hfill]
  rfl

theorem halfTag_setHalf_same (y : Ory) {half : Nat} (tag : Option HalfTag) : halfTag (setHalf y half tag) half = tag := by
  unfold halfTag setHalf
  split <;> rfl

theorem halfTag_setHalf_other (y : Ory) {half : Nat} (hhalf : half < 2) (tag : Option HalfTag) : halfTag (setHalf y half tag) (1 - half) = halfTag y (1 - half) := by
  unfold halfTag setHalf
  rcases (by omega : half = 0 ∨ half = 1) with rfl | rfl <;> rfl

theorem halfTag_congr {y z : Ory} (hA : y.halfA = z.halfA) (hB : y.halfB = z.halfB) (half : Nat) : halfTag y half = halfTag z half := by
  unfold halfTag
  rw [hA, hB]

theorem setHalf_window (y : Ory) (half : Nat) (tag : Option HalfTag) : (setHalf y half tag).window = y.window := by
  unfold setHalf
  split <;> rfl

theorem exec_kvGatherDone_of_ahead {s : State} {p : Progress} {img : List Byte} {pr : Prog} {ps : List PosEntry} {sw : Nat} (hrun : running s = some (p, img, pr, ps))
    (hen : s.ast.enable = true) (hclk : s.lan.refclk = true) (hattn : (sweepAt img sw).kind = 2) (hkind : p.kind ≠ 2) (hfirst : pr.first ≤ sw) (hlast : sw < pr.first + pr.count)
    (hnext : p.next.sweep ≤ sw) (hnew : sw ∉ p.gathered) : exec (.kvGatherDone sw) s = .next (endHold (((readers s).foldl (gatherMember img (sweepAt img sw)) s).oryM fun y =>
      { y with prog := y.prog.map (fun p => { p with gathered := p.gathered ++ [sw] }) })) := by
  show execKvGatherDone sw s = _
  rw [execKvGatherDone, hrun]
  have hmiss : p.gathered.contains sw = false := by simpa using hnew
  exact when_of (by rw [hen, hclk, hattn, bne_iff_ne.mpr hkind, decide_eq_true hfirst, decide_eq_true hlast, decide_eq_true hnext, hmiss]; rfl)

/-! ### Pre-emption, spill and restore -/

theorem exec_preemptRequest_of_run {s : State} (hfw : fwRuns s = true) (hen : s.ory.enable = true) (hspill : spillable s = true) (hnew : s.ory.preempt = false) :
    exec .preemptRequest s = .next (reachCheap (askPreempt s)) :=
  (when_of (by rw [hfw, hen, hspill, hnew]; rfl) : execPreemptRequest s = _)

/-- Asking for a pre-emption leaves the mode, or moves it towards the next cheap point (03 R102). -/
theorem askPreempt_mode (s : State) : (askPreempt s).ory.mode = if s.ory.mode == .run || s.ory.mode == .windowHold then .toCheapPoint else s.ory.mode := rfl

theorem spillable_askPreempt {s : State} (hspill : spillable s = true) : spillable (askPreempt s) = true := by
  unfold spillable at hspill ⊢
  rw [Bool.and_eq_true] at hspill ⊢
  obtain ⟨hheld, hmode⟩ := hspill
  refine ⟨hheld, ?_⟩
  rw [askPreempt_mode]
  split
  · rfl
  · exact hmode

theorem restore_askPreempt (s : State) : (askPreempt s).ory.mode = .restore ↔ s.ory.mode = .restore := by
  rw [askPreempt_mode]
  cases s.ory.mode <;> simp

theorem reachCheap_of_none {s : State} (h : standing s = none ∨ s.ory.mode = .restore) : reachCheap s = s := by
  unfold reachCheap
  rcases h with hstand | hmode
  · rw [hstand, ite_self]
  · rw [hmode, show (OryMode.restore != OryMode.restore) = false from rfl, Bool.and_false]
    rfl

theorem reachCheap_of_preempt {s : State} {k : Nat} (hspill : spillable s = true) (hpre : s.ory.preempt = true) (hmode : s.ory.mode ≠ .restore) (hstand : standing s = some k)
    (hover : spillOver s k = false) : reachCheap s = s.oryM fun y => { y with mode := .spill, hold := false } := by
  unfold reachCheap stopAsked
  rw [hspill, hpre, bne_iff_ne.mpr hmode, hstand]
  exact if_neg (c := spillOver s k = true) (by rw [hover]; decide)

/-- The spill image of the cheap point at which the program stands is written; work without tiles of its own saves nothing (03 R99, R101). -/
def spillWritten (s : State) (k : Nat) : State := match running s with | some (_, img, _, _) => writeSpill s img (cheapAt img k) | none => s

theorem exec_spillDone_of_standing {s : State} {k : Nat} (hpre : s.ory.preempt = true) (hspill : spillable s = true)
    (hpower : powered { s with eph := { s.eph with running := false } } = true) (hmode : s.ory.mode ≠ .restore) (hstand : standing s = some k)
    (hover : spillOver s k = false) : exec .spillDone s = .next (suspend (spillWritten s k) k) := by
  have hrest : (s.ory.mode == .restore) = false := beq_eq_false_iff_ne.mpr hmode
  show execSpillDone s = _
  rw [execSpillDone, hpre, hspill, hpower, hrest, hstand]
  exact congrArg _ (if_neg (by rw [hover]; decide))

theorem spillWritten_confined (s : State) (k : Nat) : confined [.t1, .integ] s (spillWritten s k) := by
  unfold spillWritten
  split
  · exact (writeSpill_steady _ _ _).only
  · exact Steady.refl.only

/-- The Orrery released by the work that it suspends (03 R102, 10 R402). -/
def orreryReleased (s : State) : State := (freeOrrery s).ephM fun e => { e with chargeFrom := if e.candidate.isSome then some s.now else none }

theorem orreryReleased_facts (s : State) : (orreryReleased s).eph.holder = .none ∧ (orreryReleased s).ory.prog = none ∧ (orreryReleased s).ory.preempt = false ∧
    (orreryReleased s).eph.ctxs = s.eph.ctxs := by
  have heph : (cutTest s).eph = s.eph := (cutTest_steady s).only .eph (by decide)
  refine ⟨rfl, rfl, rfl, ?_⟩
  show (cutTest s).eph.ctxs = _
  rw [heph]

/-- What a suspended piece of work keeps (03 R102). -/
def suspendedWork (s : State) (k : Nat) : Suspended :=
  { prog := { s.ory.prog.getD { slot := 0, kind := 2 } with refetch := [] }, acc := s.ory.acc, cheap := k, base := s.ory.spillBase, size := standingSize s k }

theorem suspend_of_step {s : State} {c k : Nat} (hheld : s.eph.holder = .step c) :
    suspend s k = orreryReleased (s.ctxM c fun x => { x with suspended := some (suspendedWork s k) }) := by
  unfold suspend
  rw [hheld]
  rfl

/-- Work that holds the Orrery leaves it free when it is suspended (03 R102). -/
theorem suspend_released {s : State} (k : Nat) (hheld : s.eph.holder ≠ .none) : ∃ u, suspend s k = orreryReleased u := by
  unfold suspend
  dsimp only
  split
  · exact ⟨_, rfl⟩
  · split
    · exact ⟨_, rfl⟩
    · exact ⟨_, rfl⟩
  · next h => exact absurd h hheld

theorem holder_of_spillable {s : State} (hspill : spillable s = true) : s.eph.holder ≠ .none := by
  intro h
  rw [spillable, holderUnsealed, h] at hspill
  exact absurd hspill (by simp)

/-- The size of a spill image does not depend on T1 and on the integrity unit. -/
theorem standingSize_written (s : State) (k j : Nat) : standingSize (spillWritten s k) j = standingSize s j := by
  rw [only_t1 (spillWritten_confined s k)]
  rfl

/-- The state in which a suspended program is back on the issue unit, still held as suspended (03 R104). -/
def imageRestored (s : State) (u : Suspended) : State :=
  (readSpill s (slotImg s u.prog.slot) (cheapAt (slotImg s u.prog.slot) u.cheap) u).oryM fun y =>
    { y with prog := some { u.prog with refetch := refetchOf (cheapAt (slotImg s u.prog.slot) u.cheap) }
             halfA := none, halfB := none, mode := if stopAsked s then .toCheapPoint else .run }

/-- The holder is no longer suspended (03 R104). -/
def holderResumed (s u : State) : State :=
  match s.eph.holder with
  | .step n => u.ctxM n fun x => { x with suspended := none }
  | .job id => u.ephM fun e => { e with jobs := e.jobs.map (fun j => if j.id == id then { j with suspended := none } else j) }
  | .none => u

theorem exec_spillRestoreDone_of_clean {s : State} {u : Suspended} (hheld : heldSuspended s = some u) (hmode : s.ory.mode = .restore)
    (hpower : powered { s with eph := { s.eph with running := false } } = true) (hkind : u.prog.kind = 1) (hclean : tarnishedRun s u.base (128 * u.size) = false) :
    exec .spillRestoreDone s = .next (holderResumed s (imageRestored s u)) := by
  have htiles : (decide (1 ≤ u.prog.kind) && decide (u.prog.kind ≤ 3)) = true := by
    rw [hkind]
    rfl
  show execSpillRestoreDone s = _
  rw [execSpillRestoreDone, hheld]
  refine (when_of (by rw [hmode, hpower]; rfl)).trans (congrArg _ ?_)
  dsimp only
  rw [hclean, Bool.and_false, if_neg Bool.false_ne_true]
  simp only [htiles, if_true]
  rfl

theorem holderResumed_ory (s u : State) : (holderResumed s u).ory = u.ory := by
  unfold holderResumed
  split <;> rfl

theorem holderResumed_confined (s u : State) : confined [.eph] u (holderResumed s u) := by
  unfold holderResumed
  split
  · exact (State.ctxM_steady _ _ _).only
  · exact ephM_confined _ _
  · exact Steady.refl.only

theorem imageRestored_confined (s : State) (u : Suspended) : confined [.ory] s (imageRestored s u) :=
  confined_trans (readSpill_steady _ _ _ _).only (oryM_confined _ _)

/-- Settles O31: a tile leaves or waits, commits with its sums and its chunk's end, and suspended work keeps what its restore puts back. -/
theorem tilesAndSpillsActed : Obligations.TilesAndSpillsActed := by
  refine ⟨fun s p img pr ps u hrun hup hmay hflight hgo => ?_, fun sweep lane scratch window s hlane hscratch hwindow => exec_tileCommit_answers hlane hscratch hwindow,
    fun s lane p img pr ps u hlane hrun hold hclk hmode hint htwo => ?_, fun s p img pr ps half f hhalf hrun hfill hclk hlost hint hmode => ?_,
    fun s p img pr ps sw hrun hen hclk hattn hkind hfirst hlast hnext hnew => ?_, fun s hfw hen hspill hnew => ?_,
    fun s k hpre hspill hpower hmode hstand hover => ?_, fun s u hheld hmode hpower hkind hclean => ?_⟩
  · refine ⟨_, exec_tileIssue_of_next hrun hup hmay hflight hgo, tileLeaves_confined s p img pr ps u, ?_⟩
    unfold tileLeaves
    split
    · exact ⟨rfl, rfl, issueTile_prog hrun⟩
    · rfl
  · intro x a w hfacet hline hstop hread
    refine ⟨_, (exec_tileCommit_of_oldest hlane hrun hold hclk hmode hint).trans (congrArg _ ((commitTile_of_plain htwo hfacet hline hread).trans
      (reachCheap_idle _ ((stopAsked_noted _).trans hstop)))), noted_confined w, fun kc hkc hgemm => commitSums_compute hkc hgemm,
      fun level piece hpiece hgemm => commitSums_combine hpiece hgemm, fun hends hfail => ?_⟩
    obtain ⟨hprog, hfailing⟩ := commitSums_keeps s ps x
    have hw : w = retireTile a u := by
      show retireTile (tilePassed (if endsChunk img ps pr u then _ else a) u) u = _
      rw [hends, if_neg Bool.false_ne_true, tilePassed_of_other (by rw [show a.ory.failing = _ from hfailing]; exact hfail)]
    refine ⟨hw, ?_⟩
    rw [hw, retireTile, State.oryM_ory, show a.ory.prog = _ from hprog, running_prog hrun]
    rfl
  · obtain ⟨hprog, hA, hB, hwindow⟩ := endHold_prog (halfFilled s p img pr ps half f)
    obtain ⟨hfA, hfB⟩ := railFill_keeps s (s.parures.getD p.slot {}) img ps pr half f (setHalf s.ory half (fillTag img ps pr f))
    refine ⟨_, exec_windowFillDone_of_fill hhalf hrun hfill hclk hlost hint hmode, confined_trans (oryM_confined _ _) (endHold_steady _).only, ?_, ?_, ?_, ?_⟩
    · exact (halfTag_congr (hA.trans hfA) (hB.trans hfB) half).trans (halfTag_setHalf_same _ _)
    · exact (halfTag_congr (hA.trans hfA) (hB.trans hfB) (1 - half)).trans (halfTag_setHalf_other _ hhalf _)
    · exact hwindow.trans (railFill_window s _ img ps pr half f _ _ (setHalf_window _ _ _))
    · refine hprog.trans ?_
      rw [halfFilled, State.oryM_ory, running_prog hrun]
      rfl
  · intro g
    refine ⟨_, exec_kvGatherDone_of_ahead hrun hen hclk hattn hkind hfirst hlast hnext hnew, confined_trans (oryM_confined _ _) (endHold_steady _).only, fun q hq => ?_⟩
    refine (endHold_prog _).1.trans ?_
    rw [State.oryM_ory, show ((readers s).foldl (gatherMember img (sweepAt img sw)) s).ory.prog = some q from hq]
    rfl
  · refine ⟨_, exec_preemptRequest_of_run hfw hen hspill hnew, fun hnone => ?_, fun k hstand hmode hover => ?_⟩
    · rw [reachCheap_of_none (hnone.imp id (restore_askPreempt s).mpr)]
      exact ⟨oryM_confined _ _, rfl⟩
    · rw [reachCheap_of_preempt (spillable_askPreempt hspill) rfl (fun h => hmode ((restore_askPreempt s).mp h)) hstand hover]
      exact ⟨confined_trans (oryM_confined _ _) (oryM_confined _ _), rfl⟩
  · have hwritten := spillWritten_confined s k
    have heph : (spillWritten s k).eph = s.eph := hwritten .eph (by decide)
    have hory : (spillWritten s k).ory = s.ory := hwritten .ory (by decide)
    obtain ⟨v, hv⟩ := suspend_released k (s := spillWritten s k) (by rw [heph]; exact holder_of_spillable hspill)
    obtain ⟨hholder, hprog, hfree, -⟩ := orreryReleased_facts v
    refine ⟨_, exec_spillDone_of_standing hpre hspill hpower hmode hstand hover,
      confined_trans (confined_more hwritten (by decide)) (confined_more (suspend_steady _ k).only (by decide)), by rw [hv, hholder], by rw [hv, hprog], by rw [hv, hfree],
      fun c x hstep hx => ?_⟩
    rw [suspend_of_step (by rw [heph]; exact hstep), (orreryReleased_facts _).2.2.2]
    refine ⟨_, suspendedWork (spillWritten s k) k, ctxM_get _ (by rw [heph]; exact hx), rfl, rfl, ?_, ?_, standingSize_written s k k⟩
    · rw [suspendedWork, hory]
    · rw [suspendedWork, hory]
  · refine ⟨_, exec_spillRestoreDone_of_clean hheld hmode hpower hkind hclean,
      confined_trans (confined_more (imageRestored_confined s u) (by decide)) (confined_more (holderResumed_confined s _) (by decide)), ?_, ?_, ?_, ?_, ?_, ?_, fun c x hstep hx => ?_⟩
    · rw [holderResumed_ory]
      rfl
    · rw [holderResumed_ory]
      rfl
    · rw [holderResumed_ory]
      rfl
    · rw [holderResumed_ory]
      rfl
    · rw [holderResumed_ory]
      rfl
    · rw [holderResumed_ory]
      rfl
    · have hx' : (imageRestored s u).eph.ctxs.get? c = some x := by
        rw [show (imageRestored s u).eph = s.eph from imageRestored_confined s u .eph (by decide)]
        exact hx
      rw [holderResumed, hstep]
      exact ⟨_, ctxM_get _ hx', rfl⟩

end Sys2Proof.Machine

/-! Frames, the mailbox and the configuration (O35); membership changes (O36). -/

namespace Sys2Proof.Machine
open Sys2Proof

/-! ### Requests and frames -/

theorem enqueueReq_of_room {s : State} {r : Req} (hroom : s.lan.queue.length < 16) : enqueueReq s r = s.lanM fun l => { l with queue := l.queue ++ [r] } :=
  if_neg (Nat.not_le.mpr hroom)

theorem exec_go_of_idle {s : State} (hup : lanternUp s = true) (hmode : s.hif.mode = .up) (hidle : s.lan.mboxBusy = false) (hlen : fieldAt s.lan.mbox 10 2 ≤ 1024)
    (hroom : s.lan.queue.length < 16) :
    exec .go s = .next (s.lanM fun l => { l with mboxBusy := true, queue := l.queue ++ [{ from_ := .mailbox, pdu := l.mbox, since := s.now }] }) := by
  have hreach : hostReach s = true := by rw [hostReach, hmode]; rfl
  refine (when_of (by rw [hup, hreach]; rfl) : execGo s = _).trans (congrArg _ ?_)
  have hgo : mboxGo s = enqueueReq (s.lanM fun l => { l with mboxBusy := true }) { from_ := .mailbox, pdu := s.lan.mbox, since := s.now } :=
    if_neg (by rw [hidle, decide_eq_false (Nat.not_lt.mpr hlen)]; decide)
  rw [hgo, enqueueReq_of_room (by exact hroom)]
  rfl

section
variable {s : State} (hup : lanternUp s = true)
include hup

theorem sideband_serves (hsb : sbCode s ≠ 0) : (lanternUp s && sbCode s != 0) = true := by rw [hup, bne_iff_ne.mpr hsb]; rfl

theorem exec_sidebandFrame_of_request {src : Nat} {pdu : List Byte} (hsb : sbCode s ≠ 0) (hroom : s.lan.queue.length < 16) (hsrc : src < 2 ^ 48) :
    exec (.sidebandFrameReceive (ownMac s) src 0x88B5 true pdu) s = .next (s.lanM fun l =>
      { l with sbFrames := (l.sbFrames + 1) % 2 ^ 32, queue := l.queue ++ [{ from_ := .sideband src, broadcast := ownMac s == 2 ^ 48 - 1, pdu := pdu, since := s.now }] }) := by
  refine (when_of (sideband_serves hup hsb) : execSidebandFrameReceive (ownMac s) src 0x88B5 true pdu s = _).trans (congrArg _ ?_)
  refine (if_neg (by decide)).trans ((if_pos (by rw [beq_self_eq_true, beq_self_eq_true]; rfl)).trans ?_)
  rw [enqueueReq_of_room (by exact hroom), Nat.mod_eq_of_lt hsrc]
  rfl

theorem exec_sidebandFrame_of_damage {dst src ty : Nat} {pdu : List Byte} (hsb : sbCode s ≠ 0) :
    exec (.sidebandFrameReceive dst src ty false pdu) s = .next (s.lanM fun l => { l with sbErrors := (l.sbErrors + 1) % 2 ^ 32 }) :=
  (when_of (sideband_serves hup hsb) : execSidebandFrameReceive dst src ty false pdu s = _)

theorem exec_transmitOpportunity_of_frame {f : TxFrame} {rest : List TxFrame} (hsb : sbCode s ≠ 0) (htx : s.lan.tx = f :: rest) (hact : f.act = 0) (hnode : s.lan.nodeDue = none) :
    exec (.transmitOpportunity false) s = .next (s.lanM fun l => { l with tx := rest, sent := l.sent ++ [f] }) := by
  refine (when_of (sideband_serves hup hsb) : execTransmitOpportunity false s = _).trans (congrArg _ ?_)
  rw [hnode]
  show (match s.lan.tx with | [] => s | f :: rest => frameSent (s.lanM fun l => { l with tx := rest }) f) = _
  rw [htx]
  show frameSent (s.lanM fun l => { l with tx := rest }) f = _
  rw [frameSent, hact]
  rfl

theorem exec_transmitOpportunity_of_collision (hsb : sbCode s = 1) (hnode : s.lan.nodeDue = none) :
    exec (.transmitOpportunity true) s = .next (s.lanM fun l => { l with sbCollisions := (l.sbCollisions + 1) % 2 ^ 32 }) := by
  refine (when_of (sideband_serves hup (by rw [hsb]; decide)) : execTransmitOpportunity true s = _).trans (congrArg _ ?_)
  rw [hnode]
  exact if_pos hsb

end

/-! ### CONFIG_COMMIT -/

theorem exec_configCommit_of_asked {s : State} {r : Req} {v : Nat} (hask : asks s r 0x2000 1 v) : exec .configCommit s = .next (commitWith s r (commitFail s)) := by
  show execConfigCommit s = _
  rw [execConfigCommit, asks_written hask _ rfl]

/-- T2 is laid out as the checkpoint partition and the rest, where the rest exists (09 R338). -/
theorem commitConfig_t2 (s : State) : (commitConfig s).cur.ckptSize + (commitConfig s).cur.t2Size = max s.lan.t2Units (commitConfig s).cur.ckptSize := by
  show ckptUnits s.lan.t2Units s.lan.staged.ckptPercent + (s.lan.t2Units - ckptUnits s.lan.t2Units s.lan.staged.ckptPercent) =
    max s.lan.t2Units (ckptUnits s.lan.t2Units s.lan.staged.ckptPercent)
  omega

/-- Settles O35: each frame and request meets one guard, and CONFIG_COMMIT takes the staged values as a whole or names the entry that fails. -/
theorem lanternTraffic : Obligations.LanternTraffic := by
  refine ⟨fun s hup hmode hidle hlen hroom => exec_go_of_idle hup hmode hidle hlen hroom, fun s src pdu hup hsb hroom hsrc => exec_sidebandFrame_of_request hup hsb hroom hsrc,
    fun s dst src ty pdu hup hsb => exec_sidebandFrame_of_damage hup hsb, fun s f rest hup hsb htx hact hnode => exec_transmitOpportunity_of_frame hup hsb htx hact hnode,
    fun s hup hsb hnode => exec_transmitOpportunity_of_collision hup hsb hnode, fun s r v hask hfail => ?_, fun s r v e hask hfail => ?_⟩
  · have hexec := exec_configCommit_of_asked hask
    rw [hfail] at hexec
    refine ⟨_, hexec, answerReq_replied r 0 (by decide) rfl rfl, ?_, ?_, ?_, ?_, ?_, ?_, ?_⟩
    · exact answerReq_lan_committed _ _ _
    · exact answerReq_lan_config _ _ _
    · exact answerReq_lan_configError _ _ _
    · exact congrArg Ory.abftEn (answerReq_ory _ _ _)
    · exact congrArg Ast.pool (answerReq_ast _ _ _)
    · rw [commitWith, answerReq_cur]
      exact commitConfig_t2 s
    · exact answerReq_lockets _ _ _
  · have hexec := exec_configCommit_of_asked hask
    rw [hfail] at hexec
    exact ⟨_, hexec, answerReq_replied r 4 (by decide) rfl rfl, answerReq_lan_configError _ _ _, answerReq_lan_committed _ _ _, lanAns_confined _ _ _ _⟩

/-! ### Membership: requests -/

theorem ownPos_head {s : State} (hhead : s.std.position = some 0) : ownPos s = 0 := by rw [ownPos, hhead]; rfl

/-- The set of all members of a chain names every position below its count. -/
theorem bitAt_allMembers {n p : Nat} (hp : p < n) : bitAt (2 ^ n - 1) p = true := by
  rw [bitAt_testBit, Nat.testBit_two_pow_sub_one, decide_eq_true hp]

/-- A change that begins is answered 0 and stands as PREPARED with this device as coordinator (16 R620, R621). -/
theorem changeBegun_answered (s : State) (r : Req) (epoch set : Nat) :
    let t := answerReq (floodMember (begunS s epoch set) 0x20 epoch (ownPos s) set) r 0
    replied s t r 0 ∧ t.std.mode = .prepared ∧ t.std.result = 1 ∧
      t.std.prepared = some { epoch := epoch, set := set, coord := ownPos s, wasMember := s.std.mode == .member, since := s.now } ∧
      t.std.change = some { epoch := epoch, set := set, since := s.now } := by
  obtain ⟨hmode, hresult, hprep, hchange, hqueue, htx⟩ := flooded_facts s epoch set
  intro t
  rw [show t.std = _ from answerReq_std _ _ _]
  exact ⟨answerReq_replied r 0 (by decide) hqueue htx, hmode, hresult, hprep, hchange⟩

theorem exec_formDomain_of_head {s : State} {r : Req} {v : Nat} (hask : asks s r 0x1101 2 v) (hmode : s.std.mode = .joining) (hhead : s.std.position = some 0)
    (hmin : 16 ≤ s.std.count) (hmax : s.std.count ≤ 64) (hchange : s.std.change = none) (hprep : s.std.prepared = none) : exec .formDomain s =
    .next (answerReq (floodMember (begunS s 1 (2 ^ s.std.count - 1)) 0x20 1 (ownPos s) (2 ^ s.std.count - 1)) r 0) := by
  have hown := ownPos_head hhead
  have hpow : 2 ^ s.std.count - 1 < 2 ^ s.std.count := Nat.sub_lt (Nat.two_pow_pos _) Nat.one_pos
  refine (asks_onWrite hask _ _ rfl : execFormDomain s = _).trans (congrArg (fun u => Host.Outcome.next (answerReq u r 0)) ?_)
  refine (if_pos (by rw [hmode, hhead, decide_eq_true hmin, decide_eq_true hmax]; rfl)).trans ?_
  exact startChange_facts s 1 _ 1 hchange hprep (bitAt_allMembers (by omega)) hpow (by decide) (by omega) (bitAt_allMembers (by omega))

section
variable {s : State} {r : Req} {v : Nat} (hask : asks s r 0x1101 1 v) (hmode : s.std.mode = .member)
include hask hmode

theorem exec_memberReq_of_member : exec .memberReq s = .next (answerReq (startChange s (nextEpoch s.std.epoch) v) r 0) := by
  refine (asks_onWrite hask _ _ rfl : execMemberReq s = _).trans (congrArg (fun u => Host.Outcome.next (answerReq u r 0)) ?_)
  obtain ⟨-, -, -, -, hval, -⟩ := hask
  rw [hval]
  exact if_pos (beq_iff_eq.mpr hmode)

theorem exec_memberReq_of_set {p : Nat} (hchange : s.std.change = none) (hprep : s.std.prepared = none) (hown : bitAt v (ownPos s) = true) (hv : v < 2 ^ s.std.count) (hp : p < 64)
    (hne : p ≠ ownPos s) (hbit : bitAt v p = true) : exec .memberReq s =
    .next (answerReq (floodMember (begunS s (nextEpoch s.std.epoch) v) 0x20 (nextEpoch s.std.epoch) (ownPos s) v) r 0) := by
  rw [exec_memberReq_of_member hask hmode, startChange_facts s _ v p hchange hprep hown hv hp hne hbit]

theorem exec_memberReq_of_left_out (hown : bitAt v (ownPos s) = false) : exec .memberReq s = .next (answerReq (refuseChange s) r 0) := by
  rw [exec_memberReq_of_member hask hmode]
  refine congrArg (fun u => Host.Outcome.next (answerReq u r 0)) (if_pos ?_)
  rw [hown, Bool.not_false, Bool.or_true, Bool.true_or]

end

/-- A device that rejoins has freed its objects, and mounts every coffer anew (13 R509). -/
def objectsFreed (s : State) : State := (freeObjects s).lanM fun l => { l with remounted := some [] }

theorem objectsFreed_lan (s : State) : (objectsFreed s).lan = { s.lan with remounted := some [] } := by
  rw [objectsFreed, State.lanM_lan, freeObjects_lan]

theorem objectsFreed_facets (s : State) : (objectsFreed s).facets = [] := (freeObjects_gone s).1

theorem objectsFreed_colls (s : State) : (objectsFreed s).colls = [] := (freeObjects_gone s).2

/-- A device that rejoins: its objects are freed and it is enumerated again (16 Table 16-6; 13 R509). -/
def rejoined (s : State) : State := settleEnum (enumAgain (objectsFreed s))

theorem exec_rejoin_of_asked {s : State} {r : Req} {v : Nat} (hask : asks s r 0x1101 5 v) : exec .rejoin s = .next (answerReq (rejoined s) r 0) :=
  (asks_onWrite hask _ _ rfl : execRejoin s = _)

theorem rejoined_facts (s : State) : ((rejoined s).std.mode = .enum ∨ (rejoined s).std.mode = .joining) ∧ (rejoined s).std.epoch = 0 ∧ (rejoined s).std.members = 0 ∧
    (rejoined s).lan.queue = s.lan.queue ∧ (rejoined s).lan.tx = s.lan.tx ∧ (rejoined s).facets = [] ∧ (rejoined s).colls = [] ∧
    (rejoined s).lan.quarantine = s.lan.quarantine := by
  have hlan := objectsFreed_lan s
  obtain ⟨hmode, hepoch, hmembers, hqueue, htx, hfacets, hcolls, hquar⟩ := enumAgain_facts (objectsFreed s)
  rw [hlan] at hqueue htx hquar
  rw [rejoined]
  exact ⟨hmode, hepoch, hmembers, hqueue, htx, hfacets.trans (objectsFreed_facets s), hcolls.trans (objectsFreed_colls s), hquar⟩

/-! ### Membership: messages -/

theorem exec_prepare_of_named {s : State} {m : Msg} (htake : takes s m 0x20)
    (hmode : s.std.mode = .joining ∨ s.std.mode = .member ∧ m.fld 8 2 = nextEpoch s.std.epoch) (hnamed : bitAt (m.fld 16 8) (ownPos s) = true) :
    exec .prepare s = .next (prepareFor (passMember (taken s m) m) m (s.std.mode == .member)) := by
  have hpass : (passMember (taken s m) m).std.mode = s.std.mode := passMember_std_mode _ _
  have hepoch : (passMember (taken s m) m).std.epoch = s.std.epoch := passMember_std_epoch _ _
  have hown : ownPos (passMember (taken s m) m) = ownPos s := own_same (passMember_std_position _ _)
  refine (onMsg_takes htake _ : execPrepare s = _).trans (congrArg _ ?_)
  refine (if_neg ?_).trans ?_
  · show ¬ (s.std.mode == .quarantined || s.std.mode == .enum) = true
    rcases hmode with h | ⟨h, -⟩ <;> rw [h] <;> decide
  · dsimp only
    rw [hpass, hepoch, hown, hnamed]
    rcases hmode with h | ⟨h, he⟩
    · rw [h]
      rfl
    · rw [h, he, beq_self_eq_true]
      rfl

/-- A coordinator that has another acknowledgement (16 R621). -/
def ackNoted (s : State) (m : Msg) (c : MemberChange) : State := (taken s m).stdM fun d => { d with change := some { c with acks := c.acks ||| 2 ^ m.src } }

theorem exec_memberAck_of_own {s : State} {m : Msg} {c : MemberChange} (htake : takes s m 0x21) (hchange : s.std.change = some c) (hepoch : m.fld 8 2 = c.epoch)
    (hcoord : m.fld 10 1 = ownPos s) : exec .memberAck s = .next (if lacking s { c with acks := c.acks ||| 2 ^ m.src } = 0 then
      finishChange (ackNoted s m c) { c with acks := c.acks ||| 2 ^ m.src } else ackNoted s m c) := by
  refine (onMsg_takes htake _ : execMemberAck s = _).trans (congrArg _ ?_)
  show (match s.std.change with | none => taken s m | some c => _) = _
  rw [hchange]
  refine if_neg ?_
  rw [hepoch, hcoord, bne_self_eq_false, Bool.false_or, show ownPos (taken s m) = ownPos s from rfl, bne_self_eq_false]
  decide

theorem exec_commit_of_prepared {s : State} {m : Msg} {p : Prepared} (htake : takes s m 0x22) (hmode : s.std.mode = .prepared) (hprep : s.std.prepared = some p)
    (hepoch : m.fld 8 2 = p.epoch) : exec .commit s = .next (adoptEpoch (passMember (taken s m) m) p.epoch p.set) := by
  have hpass : (passMember (taken s m) m).std.mode = s.std.mode := passMember_std_mode _ _
  have hpass' : (passMember (taken s m) m).std.prepared = s.std.prepared := passMember_std_prepared _ _
  refine (onMsg_takes htake _ : execCommit s = _).trans (congrArg _ ((if_neg ?_).trans ?_))
  · show ¬ (s.std.mode == .quarantined || s.std.mode == .enum) = true
    rw [hmode]
    decide
  · dsimp only
    rw [hpass, hpass', hmode, hprep]
    refine (if_pos hepoch).trans ?_
    rw [adoptPrepared, hpass', hprep]

theorem exec_abort_of_prepared {s : State} {m : Msg} {p : Prepared} (htake : takes s m 0x23) (hmode : s.std.mode = .prepared) (hprep : s.std.prepared = some p)
    (hepoch : m.fld 8 2 = p.epoch) (hchange : s.std.change = none) : exec .abort s = .next (discardPrepared (passMember (taken s m) m)) := by
  have hpass : (passMember (taken s m) m).std.change = s.std.change := passMember_std_change _ _
  have hpass' : (passMember (taken s m) m).std.prepared = s.std.prepared := passMember_std_prepared _ _
  refine (onMsg_takes htake _ : execAbort s = _).trans (congrArg _ ((if_neg ?_).trans ?_))
  · show ¬ (s.std.mode == .quarantined || s.std.mode == .enum) = true
    rw [hmode]
    decide
  · dsimp only
    rw [hpass', hprep]
    exact if_pos (by rw [hpass, hchange, decide_eq_true hepoch]; rfl)

theorem exec_stale_of_newer {s : State} {m : Msg} (htake : takes s m 0x24) (hmode : s.std.mode = .member) (hnew : newer s.std.epoch (m.fld 8 2) = true) :
    exec .stale s = .next (quarantine (staleDescs (taken s m) m.src) m.port m.src 1) := by
  refine (onMsg_takes htake _ : execStale s = _).trans (congrArg _ ((if_neg ?_).trans ?_))
  · show ¬ (s.std.mode == .quarantined || s.std.mode == .enum || s.std.mode == .joining) = true
    rw [hmode]
    decide
  · show (match s.std.mode, s.std.prepared with | .prepared, some p => _ | .member, _ => if newer s.std.epoch (m.fld 8 2) then _ else _ | _, _ => _) = _
    rw [hmode]
    exact if_pos hnew

/-! ### Membership: time limits -/

/-- A change whose acknowledgements have not come in time is given up and its missing positions are reported (16 R621). -/
def changeGivenUp (s : State) (c : MemberChange) : State :=
  stdEvent ((floodMember s 0x23 c.epoch (ownPos s) 0).stdM fun d =>
    { d with result := 3, missing := lacking s c, change := none }) 6

theorem exec_memberAckTimeout_of_due {s : State} {c : MemberChange} (hclk : s.lan.refclk = true) (hchange : s.std.change = some c) (hdue : c.since + 100000 ≤ s.now) :
    exec .memberAckTimeout s = .next (discardPrepared (changeGivenUp s c)) := by
  show execMemberAckTimeout s = _
  rw [execMemberAckTimeout, hchange]
  exact when_of (by rw [due, hclk, decide_eq_true hdue]; rfl)

theorem exec_prepareTimeout_of_due {s : State} {p : Prepared} (hclk : s.lan.refclk = true) (hprep : s.std.prepared = some p) (hchange : s.std.change = none)
    (hdue : p.since + 200000 ≤ s.now) : exec .prepareTimeout s = .next (discardPrepared s) := by
  show execPrepareTimeout s = _
  rw [execPrepareTimeout, hprep]
  exact when_of (by rw [due, hchange, hclk, decide_eq_true hdue]; rfl)

/-- Settles O36: a station that takes a message of the epoch it prepared commits or discards that epoch, and a coordinator counts what it lacks. -/
theorem membershipChanged : Obligations.MembershipChanged := by
  refine ⟨fun s r v hask hmode hhead hmin hmax hchange hprep => ?_, fun s r v p hask hmode hchange hprep hown hv hp hne hbit => ?_, fun s r v hask hmode hown => ?_,
    fun s r v hask => ?_, fun s m htake hmode hnamed => ?_, fun s m c htake hchange hepoch hcoord => ?_, fun s m p htake hmode hprep hepoch => ?_,
    fun s m p htake hmode hprep hepoch hchange => ?_, fun s m htake hmode hnew => ?_, fun s c hclk hchange hdue => ?_, fun s p hclk hprep hchange hdue => ?_⟩
  · obtain ⟨hreply, hstate, hresult, hprep', hchange'⟩ := changeBegun_answered s r 1 (2 ^ s.std.count - 1)
    rw [ownPos_head hhead, hmode] at hprep'
    refine ⟨_, exec_formDomain_of_head hask hmode hhead hmin hmax hchange hprep, hreply, hstate, hresult, ?_, hchange'⟩
    rw [ownPos_head hhead]
    exact hprep'
  · obtain ⟨hreply, hstate, hresult, hprep', hchange'⟩ := changeBegun_answered s r (nextEpoch s.std.epoch) v
    rw [hmode] at hprep'
    exact ⟨_, exec_memberReq_of_set hask hmode hchange hprep hown hv hp hne hbit, hreply, hstate, hresult, hprep', hchange'⟩
  · refine ⟨_, exec_memberReq_of_left_out hask hmode hown, answerReq_replied r 0 (by decide) rfl rfl, ?_, ?_⟩
    · rw [answerReq_std]
      rfl
    · rw [answerReq_std]
      exact hmode
  · obtain ⟨hmode, hepoch, hmembers, hqueue, htx, hfacets, hcolls, hquar⟩ := rejoined_facts s
    refine ⟨_, exec_rejoin_of_asked hask, answerReq_replied r 0 (by decide) hqueue htx, ?_, ?_, ?_, ?_, ?_, ?_⟩
    · rw [answerReq_std]
      exact hmode
    · rw [answerReq_std, hepoch]
    · rw [answerReq_std, hmembers]
    · rw [answerReq_facets, hfacets]
    · rw [answerReq_colls, hcolls]
    · rw [answerReq_lan_quarantine, hquar]
  · obtain ⟨hstate, hprep⟩ := prepareFor_facts (passMember (taken s m) m) m (s.std.mode == .member)
    rw [passMember_now] at hprep
    exact ⟨_, exec_prepare_of_named htake hmode hnamed, hstate, hprep, confined_trans (confined_more (taken_confined s m) (by decide))
      (confined_trans (confined_more (passMember_steady _ m).only (by decide)) (prepareFor_steady _ m _).only)⟩
  · have hexec := exec_memberAck_of_own htake hchange hepoch hcoord
    by_cases hall : lacking s { c with acks := c.acks ||| 2 ^ m.src } = 0
    · refine ⟨_, hexec.trans (congrArg _ (if_pos hall)), ?_⟩
      rw [if_pos hall]
      exact finishChange_facts (ackNoted s m c) { c with acks := c.acks ||| 2 ^ m.src }
    · refine ⟨_, hexec.trans (congrArg _ (if_neg hall)), ?_⟩
      rw [if_neg hall]
      exact ⟨rfl, rfl⟩
  · obtain ⟨hadopted, -⟩ := adoptEpoch_facts (passMember (taken s m) m) p.epoch p.set
    exact ⟨_, exec_commit_of_prepared htake hmode hprep hepoch, hadopted⟩
  · obtain ⟨hnone, hstate, hsame, -⟩ := discard_facts (passMember (taken s m) m) p ((passMember_std_prepared _ _).trans hprep)
    exact ⟨_, exec_abort_of_prepared htake hmode hprep hepoch hchange, hnone, hstate, hsame.trans (passMember_std_epoch _ _)⟩
  · exact ⟨_, exec_stale_of_newer htake hmode hnew, quarantine_facts (staleDescs (taken s m) m.src) m.port m.src 1 (by
      show s.std.mode ≠ .quarantined
      rw [hmode]
      decide)⟩
  · obtain ⟨hresult, hmissing, hnochange, hnoprep⟩ := discard_keeps (changeGivenUp s c)
    refine ⟨_, exec_memberAckTimeout_of_due hclk hchange hdue, hresult, hmissing, hnochange, hnoprep, confined_trans ?_ (discardPrepared_steady _).only⟩
    exact confined_trans (confined_more (floodMember_steady _ _ _ _ _).only (by decide))
      (confined_trans (confined_more (std_confined _ _) (by decide)) (confined_more (stdEvent_confined _ _) (by decide)))
  · obtain ⟨hnone, hstate, hsame, -⟩ := discard_facts s p hprep
    exact ⟨_, exec_prepareTimeout_of_due hclk hprep hchange hdue, hnone, hstate, hsame, (discardPrepared_steady s).only⟩

end Sys2Proof.Machine

/-! Enumeration, beacons, measured delays and isolation (O37). -/

namespace Sys2Proof.Machine
open Sys2Proof

/-! ### Enumeration -/

/-- The state in which an ENUM word has been noted (16 R608). -/
def wordNoted (s : State) (w : Nat) : State := s.stdM fun d => { d with lastWord := some w }

section
variable {s : State} {w : Nat} (hclk : s.lan.refclk = true) (hon : s.lan.alwaysOn = true) (hlow : s.std.enumLow = false) (hw : w < 2 ^ 32) (hok : enumOk w = true)
  (hres : bitAt w 23 = false)
include hclk hon hlow hw hok hres

theorem exec_enumWordReceive_of_ok :
    exec (.enumWordReceive w) s = .next (if s.std.lastWord == some w then adoptPosition (wordNoted s w) (bits w 13 8) else wordNoted s w) := by
  refine ((formed_of (decide_eq_true hw)).trans (when_of (by rw [hon, hclk, hlow]; rfl)) : execEnumWordReceive w s = _).trans (congrArg _ ?_)
  refine (if_neg ?_).trans ((if_neg ?_).trans rfl)
  · rw [hok]
    decide
  · rw [hres]
    decide

theorem exec_enumWordReceive_of_again (hlast : s.std.lastWord = some w) :
    exec (.enumWordReceive w) s = .next (adoptPosition (wordNoted s w) (bits w 13 8)) := by
  rw [exec_enumWordReceive_of_ok hclk hon hlow hw hok hres, if_pos (beq_iff_eq.mpr hlast)]

theorem exec_enumWordReceive_of_first (hlast : s.std.lastWord ≠ some w) : exec (.enumWordReceive w) s = .next (wordNoted s w) := by
  rw [exec_enumWordReceive_of_ok hclk hon hlow hw hok hres, if_neg (fun h => hlast (beq_iff_eq.mp h))]

end

section
variable {s : State} {p : Nat} (hclk : s.lan.refclk = true) (hpos : s.std.position = some p)
include hclk hpos

theorem exec_enumWordSend_of_due (hon : s.lan.alwaysOn = true) (hdue : s.std.lastEnum + 10000 ≤ s.now) :
    exec .enumWordSend s = .next (s.stdM fun d => { d with lastEnum := s.now, enumOut := d.enumOut ++ [enumWord p] }) := by
  show execEnumWordSend s = _
  rw [execEnumWordSend, hpos]
  exact when_of (by rw [due, hon, hclk, decide_eq_true hdue]; rfl)

/-- A chain end that nobody follows records the count that its position gives (16 R610). -/
def tailFound (s : State) (p : Nat) : State := recordCount (s.stdM fun d => { d with tail := true }) (p + 1)

theorem exec_tailTimeout_of_due (hup : s.lan.coreUp = true) (htail : s.std.tail = false) (hport : portUp s 1 = false) (hmode : s.std.mode = .enum)
    (hdue : s.std.adoptedAt + 5000000 ≤ s.now) : exec .tailTimeout s = .next (settleEnum (tailFound s p)) := by
  show execTailTimeout s = _
  rw [execTailTimeout, hpos]
  exact when_of (by rw [due, hup, htail, hport, hmode, hclk, decide_eq_true hdue]; rfl)

end

theorem exec_chainCount_of_position {s : State} {m : Msg} {p : Nat} (htake : takes s m 0x02) (hpos : s.std.position = some p) :
    exec .chainCount s = .next (recordCount (taken s m) (m.fld 8 1)) :=
  (onMsg_takes htake _ : execChainCount s = _).trans (congrArg _ (if_pos (Option.isSome_iff_exists.mpr ⟨p, hpos⟩)))

/-! ### Beacons -/

/-- The master's beacon has gone out on every port that is up (16 R616). -/
def beaconFlooded (s : State) : State := flood s 8 (beaconBody s.std.nextSeq (ownPos s) s.now 0 (beaconFrames s).1 (beaconFrames s).2)

theorem exec_beaconSend_of_due {s : State} (hclk : s.lan.refclk = true) (hup : s.lan.coreUp = true) (hmaster : isMaster s = true) (hdue : s.std.lastSent + 10000 ≤ s.now) :
    exec .beaconSend s = .next ((beaconFlooded s).stdM fun d => { d with
      nextSeq := wrapInc 32 s.std.nextSeq, lastSent := s.now, seenSeq := some s.std.nextSeq
      lastBeacon := if (List.range 8).any (portUp s) then s.now else d.lastBeacon }) :=
  (when_of (by rw [due, hup, hmaster, hclk, decide_eq_true hdue]; rfl) : execBeaconSend s = _)

/-- A member takes a message of its own epoch (16 R606). -/
theorem judge_of_member {s : State} {port src e : Nat} (hmode : s.std.mode = .member) (hepoch : e = s.std.epoch) : judge s port src e = (s, true) := by
  rw [judge, hmode]
  exact if_pos hepoch

/-- The state in which the arrival of a beacon has been noted (16 R618; 13 R508). -/
def beaconNoted (s : State) (m : Msg) : State :=
  leaveIsolated ((s.stdM fun d => { d with lastBeacon := s.now }).portM m.port fun p => { p with lastBeacon := some s.now })

theorem beaconNoted_lastBeacon (s : State) (m : Msg) : (beaconNoted s m).std.lastBeacon = s.now := (leaveIsolated_keeps _).1

theorem beaconNoted_timePort (s : State) (m : Msg) : (beaconNoted s m).std.timePort = s.std.timePort := (leaveIsolated_keeps _).2.1

theorem beaconNoted_now (s : State) (m : Msg) : (beaconNoted s m).now = s.now := (leaveIsolated_steady _).only .now (by decide)

theorem beaconNoted_isMaster (s : State) (m : Msg) : isMaster (beaconNoted s m) = isMaster s := by
  obtain ⟨-, -, hmode, hepoch, hpos, hmembers, -⟩ :=
    leaveIsolated_keeps ((s.stdM fun d => { d with lastBeacon := s.now }).portM m.port fun p => { p with lastBeacon := some s.now })
  exact isMaster_same hmode hepoch hpos hmembers

theorem beaconNoted_delay (s : State) (m : Msg) (n : Nat) : ((beaconNoted s m).port n).delay = (s.port n).delay := by
  obtain ⟨-, -, -, -, -, -, hdelay⟩ :=
    leaveIsolated_keeps ((s.stdM fun d => { d with lastBeacon := s.now }).portM m.port fun p => { p with lastBeacon := some s.now })
  refine (hdelay n).trans ?_
  rw [portM_port]
  split <;> rfl

theorem acceptBeacon_eq (s : State) (m : Msg) (arrive residence : Nat) : acceptBeacon s m arrive residence =
    let u := passedBeacon (beaconNoted s m) m residence
    let v := if m.port = u.std.timePort then u.stdM fun d => { d with timeFrom := none } else u
    if !isMaster v && m.port = timeSource v then takeTime v m arrive else v := rfl

/-- The state in which a beacon of the chosen time port has been passed on and time is taken from that port again (16 R617, R618). -/
def beaconPassed (s : State) (m : Msg) (residence : Nat) : State :=
  (passedBeacon (beaconNoted s m) m residence).stdM fun d => { d with timeFrom := none }

theorem beaconPassed_facts (s : State) (m : Msg) (residence : Nat) : (beaconPassed s m residence).std.lastBeacon = s.now ∧
    (beaconPassed s m residence).std.timePort = s.std.timePort ∧ ((beaconPassed s m residence).port m.port).delay = (s.port m.port).delay ∧
    isMaster (beaconPassed s m residence) = isMaster s ∧ (beaconPassed s m residence).now = s.now := by
  obtain ⟨hlast, hport, hdelay, hmode, hepoch, hpos, hmembers, hnow⟩ := passedBeacon_facts (beaconNoted s m) m residence
  exact ⟨hlast.trans (beaconNoted_lastBeacon s m), hport.trans (beaconNoted_timePort s m), hdelay.trans (beaconNoted_delay s m m.port),
    (isMaster_same hmode hepoch hpos hmembers).trans (beaconNoted_isMaster s m), hnow.trans (beaconNoted_now s m)⟩

theorem acceptBeacon_of_timePort {s : State} {m : Msg} (arrive residence : Nat) (hmaster : isMaster s = false) (hport : m.port = s.std.timePort) :
    acceptBeacon s m arrive residence = takeTime (beaconPassed s m residence) m arrive := by
  obtain ⟨-, htime, -, hsame, -⟩ := beaconPassed_facts s m residence
  rw [acceptBeacon_eq]
  dsimp only
  rw [if_pos (show m.port = (passedBeacon (beaconNoted s m) m residence).std.timePort from hport.trans htime.symm)]
  refine if_pos ?_
  have hsource : timeSource (beaconPassed s m residence) = m.port := htime.trans hport.symm
  show (!isMaster (beaconPassed s m residence) && decide (m.port = timeSource (beaconPassed s m residence))) = true
  rw [hsame, hmaster, hsource, decide_eq_true rfl]
  rfl

/-- Time taken from a beacon: its offset, and its frame and meridian where it carries them (16 R618). -/
theorem takeTime_facts (s : State) (m : Msg) (arrive : Nat) : (takeTime s m arrive).std.lastBeacon = s.std.lastBeacon ∧ (takeTime s m arrive).std.timeFrom = s.std.timeFrom ∧
    (takeTime s m arrive).std.offset = (m.fld 16 8 : Int) * 65536 + sNat 64 (m.fld 24 8) + (s.port m.port).delay - arrive ∧
    (m.fld 32 8 ≠ 0 → (takeTime s m arrive).std.beaconFrame = m.fld 32 8 ∧ (takeTime s m arrive).std.beaconMeridian = m.fld 40 8 ∧
      (takeTime s m arrive).std.frameAt = some s.now) := by
  unfold takeTime State.stdM
  dsimp only
  by_cases hframe : m.fld 32 8 = 0
  · rw [if_pos hframe]
    exact ⟨rfl, rfl, rfl, fun h => absurd hframe h⟩
  · rw [if_neg hframe]
    exact ⟨rfl, rfl, rfl, fun _ => ⟨rfl, rfl, rfl⟩⟩

theorem exec_beacon_of_timePort {s : State} {m : Msg} (a r : Nat) (htake : takes s m 0x10) (hmode : s.std.mode = .member) (hepoch : m.epoch = s.std.epoch)
    (hmaster : isMaster s = false) (hport : m.port = s.std.timePort) : exec (.beacon a r) s = .next (takeTime (beaconPassed (taken s m) m r) m a) := by
  refine (onMsg_takes htake _ : execBeacon a r s = _).trans (congrArg _ ?_)
  rw [judge_of_member (s := taken s m) hmode hepoch]
  exact acceptBeacon_of_timePort a r hmaster hport

theorem exec_timePortLost_of_due {s : State} (hclk : s.lan.refclk = true) (hepoch : s.std.epoch ≠ 0) (hmaster : isMaster s = false) (hbrings : brings s (timeSource s) = false)
    (hdue : ((s.port (timeSource s)).lastBeacon.getD 0) + 100000 ≤ s.now) :
    exec .timePortLost s = .next (stdEvent (s.stdM fun d => { d with timeFrom := ((List.range 8).find? (brings s)).or d.timeFrom }) 4) :=
  (when_of (by rw [due, bne_iff_ne.mpr hepoch, hmaster, hbrings, hclk, decide_eq_true hdue]; rfl) : execTimePortLost s = _)

/-! ### Delays -/

theorem portUp_lt_eight {s : State} {n : Nat} (hup : portUp s n = true) : n < 8 := by
  rw [portUp, Bool.and_eq_true, Bool.and_eq_true, decide_eq_true_eq] at hup
  exact hup.1.2

/-- The state in which a delay request of a port stands (16 R619). -/
def delayAsked (s : State) (p st : Nat) : State := s.portM p fun q => { q with lastDelay := some s.now, delayReq := some st }

theorem exec_delayMeasure_of_new {s : State} {p : Nat} (st : Nat) (hup : portUp s p = true) (hnew : (s.port p).lastDelay = none) :
    exec (.delayMeasure p st) s = .next (sendPort (delayAsked s p st) p (mkMsg 0x03 [(8, 8, st)])) := by
  refine ((formed_of (decide_eq_true (portUp_lt_eight hup))).trans (when_of ?_) : execDelayMeasure p st s = _)
  rw [hup, hnew]
  rfl

theorem delayAsked_port {s : State} {p : Nat} (st : Nat) (hlt : p < s.std.ports.length) :
    (delayAsked s p st).port p = { s.port p with lastDelay := some s.now, delayReq := some st } := by
  rw [delayAsked, portM_port, if_pos ⟨rfl, hlt⟩]

theorem exec_delayReq_of_taken {s : State} {m : Msg} (a l : Nat) (htake : takes s m 0x03) :
    exec (.delayReq a l) s = .next (sendPort (taken s m) m.port (mkMsg 0x04 [(8, 8, m.fld 8 8), (16, 8, a), (24, 8, l)])) :=
  (onMsg_takes htake _ : execDelayReq a l s = _)

theorem sendPort_queue {s : State} {p : Nat} (b : List Byte) (hlt : p < s.std.ports.length) :
    ((sendPort s p b).port p).queue = (s.port p).queue ++ [{ msgFlit s (s.port p).partner b with hops := 1, queued := s.now }] := by
  rw [sendPort, portM_port, if_pos ⟨rfl, hlt⟩]

theorem exec_delayResp_of_asked {s : State} {m : Msg} (a : Nat) (htake : takes s m 0x04) (hask : (s.port m.port).delayReq = some (m.fld 8 8)) :
    exec (.delayResp a) s = .next ((taken s m).portM m.port fun p => { p with
      delay := sEnc 32 ((((a : Int) - m.fld 8 8) - ((m.fld 24 8 : Int) - m.fld 16 8)) / 2), delayReq := none }) := by
  refine (onMsg_takes htake _ : execDelayResp a s = _).trans (congrArg _ (if_neg ?_))
  show ¬ ((s.port m.port).delayReq != some (m.fld 8 8)) = true
  rw [hask, bne_self_eq_false]
  decide

/-! ### Isolation -/

/-- The device is isolated, with the event and the fault record of it (13 R508). -/
def isolated (s : State) : State :=
  logFault (intEvent (s.integM fun g => { g with mode := .isolated }) 7) 0x0B 0xC4 0xFF 0 0 (s.now - s.std.lastBeacon)

/-- The running step of an isolated device is to be suspended at its cheap point (13 R508). -/
def stepHalted (s : State) : State :=
  match s.eph.holder with
  | .step _ => askPreempt s
  | _ => s

theorem exec_isolationTimeout_of_due {s : State} (hclk : s.lan.refclk = true) (hen : s.integ.isolateEn = true) (hepoch : s.std.epoch ≠ 0) (hmode : s.std.mode = .member)
    (hinteg : s.integ.mode = .normal) (hdue : s.std.lastBeacon + 500000 ≤ s.now) : exec .isolationTimeout s = .next (stepHalted (isolated s)) :=
  (when_of (by rw [due, hen, bne_iff_ne.mpr hepoch, hmode, hinteg, hclk, decide_eq_true hdue]; rfl) : execIsolationTimeout s = _)

theorem stepHalted_confined (s : State) : confined [.ory] s (stepHalted s) := by
  unfold stepHalted
  split
  · exact (askPreempt_steady s).only
  · exact Steady.refl.only

theorem isolated_facts (s : State) : (isolated s).integ.mode = .isolated ∧ bitAt (isolated s).integ.event 7 = true ∧ (isolated s).lockets = s.lockets ∧
    (isolated s).std = s.std := by
  refine ⟨logFault_integ_mode _ _ _ _ _ _ _, ?_, logFault_lockets _ _ _ _ _ _ _, logFault_std _ _ _ _ _ _ _⟩
  rw [isolated, logFault_integ_event]
  exact bitAt_or_same _ _

/-- Settles O37: a station adopts a position that comes twice, takes time from the port that the routes choose, and is isolated without beacons. -/
theorem chainEnumeratedAndTimed : Obligations.ChainEnumeratedAndTimed := by
  refine ⟨fun s w hclk hon hlow hw hok hres hlast hpos => ?_, fun s w hclk hon hlow hw hok hres hlast => exec_enumWordReceive_of_first hclk hon hlow hw hok hres hlast,
    fun s p hclk hpos hon hdue => exec_enumWordSend_of_due hclk hpos hon hdue, fun s m p htake hpos => ?_, fun s p hclk hpos hup htail hport hmode hdue => ?_,
    fun s hclk hup hmaster hdue => ?_, fun s m a r htake hmode hepoch hmaster hport => ?_,
    fun s hclk hepoch hmaster hbrings hdue => exec_timePortLost_of_due hclk hepoch hmaster hbrings hdue, fun s p st hup hnew => ?_, fun s m a l htake hlt => ?_,
    fun s m a htake hlt hask => ?_, fun s hclk hen hepoch hmode hinteg hdue => ?_⟩
  · obtain ⟨hposition, hat⟩ := adoptPosition_facts (wordNoted s w) (bits w 13 8) hpos
    exact ⟨_, exec_enumWordReceive_of_again hclk hon hlow hw hok hres hlast, hposition, hat,
      confined_trans (confined_more (std_confined _ _) (by decide)) (adoptPosition_steady _ _).only⟩
  · obtain ⟨hcount, hsent, -⟩ := recordCount_facts (taken s m) (m.fld 8 1)
    exact ⟨_, exec_chainCount_of_position htake hpos, hcount, hsent, confined_trans (taken_confined s m) (recordCount_steady _ _).only⟩
  · obtain ⟨hcount, -, htail'⟩ := recordCount_facts (s.stdM fun d => { d with tail := true }) (p + 1)
    exact ⟨_, exec_tailTimeout_of_due hclk hpos hup htail hport hmode hdue, (settleEnum_std_tail _).trans htail', (settleEnum_std_count _).trans hcount,
      confined_trans (confined_more (confined_trans (std_confined _ _) (recordCount_steady _ _).only) (by decide)) (settleEnum_steady _).only⟩
  · exact ⟨_, exec_beaconSend_of_due hclk hup hmaster hdue, rfl, rfl, rfl, flood_std_offset _ _ _, confined_trans (flood_steady _ _ _).only (std_confined _ _)⟩
  · obtain ⟨hlast, -, hdelay, -, hnow⟩ := beaconPassed_facts (taken s m) m r
    obtain ⟨hsame, hfrom, hoffset, hframe⟩ := takeTime_facts (beaconPassed (taken s m) m r) m a
    rw [hdelay] at hoffset
    rw [hnow] at hframe
    exact ⟨_, exec_beacon_of_timePort a r htake hmode hepoch hmaster hport, hsame.trans hlast, hfrom, hoffset, hframe⟩
  · have hport := delayAsked_port st (portUp_lt hup)
    refine ⟨_, exec_delayMeasure_of_new st hup hnew, ?_, ?_, confined_trans (portM_confined _ _ _) (sendPort_steady _ _ _).only⟩
    · rw [sendPort_port, hport]
    · rw [sendPort_port, hport]
  · exact ⟨_, _, exec_delayReq_of_taken a l htake, sendPort_queue (s := taken s m) _ hlt, rfl, rfl, confined_trans (taken_confined s m) (sendPort_steady _ _ _).only⟩
  · have hport := portM_port (taken s m) m.port m.port fun p => { p with
      delay := sEnc 32 ((((a : Int) - m.fld 8 8) - ((m.fld 24 8 : Int) - m.fld 16 8)) / 2), delayReq := none }
    rw [if_pos ⟨rfl, hlt⟩] at hport
    exact ⟨_, exec_delayResp_of_asked a htake hask, congrArg Port.delay hport, congrArg Port.delayReq hport, confined_trans (taken_confined s m) (portM_confined _ _ _)⟩
  · obtain ⟨hmode', hevent, hlockets, hstd⟩ := isolated_facts s
    have hkept := stepHalted_confined (isolated s)
    have hinteg' : (stepHalted (isolated s)).integ = (isolated s).integ := hkept .integ (by decide)
    refine ⟨_, exec_isolationTimeout_of_due hclk hen hepoch hmode hinteg hdue, ?_, ?_, (hkept .lockets (by decide)).trans hlockets,
      (hkept .std (by decide)).trans hstd⟩
    · rw [hinteg', hmode']
    · rw [hinteg', hevent]

end Sys2Proof.Machine

/-! Strand ports (O38). -/

namespace Sys2Proof.Machine
open Sys2Proof

/-! ### Requests for ports -/

theorem exec_chainOnly_of_asked {s : State} {r : Req} {v : Nat} (hask : asks s r 0x1101 8 v) : exec .chainOnly s = .next (answerReq
    (s.stdM fun d => { d with chainOnly := v, routeActive := if v = 0 then d.route else d.routeActive }) r 0) := by
  refine (asks_onWrite hask _ _ rfl : execChainOnly s = _).trans ?_
  obtain ⟨-, -, -, -, hval, -⟩ := hask
  rw [hval]

/-- The state in which a port's fence has been written (16 R627). -/
def fenceNoted (s : State) (n v : Nat) : State := s.portM n fun p => { p with fence := v }

theorem fenceNoted_port {s : State} {n : Nat} (v : Nat) (hlt : n < s.std.ports.length) : (fenceNoted s n v).port n = { s.port n with fence := v } := by
  rw [fenceNoted, portM_port, if_pos ⟨rfl, hlt⟩]

theorem fenceNoted_length (s : State) (n v : Nat) : (fenceNoted s n v).std.ports.length = s.std.ports.length := List.length_modify _ _ _

section
variable {s : State} {r : Req} {n : Nat} (hlt : n < s.std.ports.length) (hup : s.lan.coreUp = true)
include hlt hup

theorem exec_portFence_of_fence (hask : asks s r 0x1102 (n + 1) 1) (hmode : (s.port n).mode ≠ .fenced) :
    exec .portFence s = .next (answerReq (stopPort (fenceNoted s n 1) n .fenced) r 0) := by
  refine (asks_onWrite hask _ _ rfl : execPortFence s = _).trans (congrArg (fun u => Host.Outcome.next (answerReq u r 0)) ?_)
  obtain ⟨-, -, -, hsub, hval, -⟩ := hask
  rw [hsub, hval]
  refine (if_neg ?_).trans ((if_pos rfl).trans (if_neg ?_))
  · show ¬ (!s.lan.coreUp) = true
    rw [hup]
    decide
  · show ¬ ((fenceNoted s n 1).port n).mode == .fenced
    rw [fenceNoted_port 1 hlt]
    exact fun h => hmode (beq_iff_eq.mp h)

theorem exec_portFence_of_release (hask : asks s r 0x1102 (n + 1) 0) (hmode : (s.port n).mode = .fenced) (hquar : s.lan.quarantine = false) :
    exec .portFence s = .next (answerReq ((fenceNoted s n 0).portM n fun p => { p with mode := .training, since := s.now }) r 0) := by
  refine (asks_onWrite hask _ _ rfl : execPortFence s = _).trans (congrArg (fun u => Host.Outcome.next (answerReq u r 0)) ?_)
  obtain ⟨-, -, -, hsub, hval, -⟩ := hask
  rw [hsub, hval]
  refine (if_neg ?_).trans ((if_neg (by decide)).trans ((if_neg ?_).trans (if_pos ?_)))
  · show ¬ (!s.lan.coreUp) = true
    rw [hup]
    decide
  · show ¬ (s.lan.quarantine && decide (2 ≤ n + 1 - 1)) = true
    rw [hquar, Bool.false_and]
    exact Bool.false_ne_true
  · show (((fenceNoted s n 0).port n).mode == .fenced && decide (((fenceNoted s n 0).port n).fence = 0)) = true
    rw [fenceNoted_port 0 hlt, hmode]
    rfl

end

/-! ### Training and loss of a port -/

/-- The state in which a port knows its neighbour (16 R609). -/
def partnerNoted (s : State) (n p q : Nat) : State := s.portM n fun x => { x with partner := p, partnerPort := q, partnerValid := true }

/-- A trained port as it comes up: full credit, nothing to replay, and sequence numbers from 0 (16 R598 to R600). -/
def raisedPort (w : Nat) (p : Port) : Port :=
  { p with mode := .up, lanes := w, txSeq := 0, rxSeq := 0, nak := false, replay := [], resend := 0, credit0 := 64, credit1 := 1024, owed0 := 0, owed1 := 0
           unit := none, delayReq := none, lastDelay := none, lastBeacon := none }

/-- A port that its neighbour's identity fits comes up, and enumeration settles (16 R609, R610). -/
def portRaised (s : State) (n w p q : Nat) : State := settleEnum ((partnerNoted s n p q).portM n (raisedPort w))

/-- The count that a tail owes goes out on a new port 0 (16 R610). -/
def countOwed (s : State) (n own : Nat) : State := if n = 0 && s.std.tail then recordCount s (own + 1) else s

/-- A port whose neighbour does not fit its place stays down with an event (16 R609). -/
def portMiswired (s : State) (n p q : Nat) : State := stdEvent ((partnerNoted s n p q).portM n fun x => { x with mode := .miswired, lanes := 0 }) 1

section
variable {s : State} {n w p q own : Nat} (hn : n < 8) (hw : w = 4 ∨ w = 8) (hp : p < 64) (hq : q < 8) (hpos : s.std.position = some own) (hup : s.lan.coreUp = true)
  (hfence : (s.port n).fence = 0) (hmode : (s.port n).mode = .down ∨ (s.port n).mode = .training)
include hn hw hp hq hpos hup hfence hmode

theorem exec_portTrained_of_ready : exec (.portTrained n w p q) s = .next (if wiredRight own n p q then countOwed (portRaised s n w p q) n own else portMiswired s n p q) := by
  refine ((formed_of ?_).trans ?_ : execPortTrained n w p q s = _)
  · rw [decide_eq_true hn, decide_eq_true hp, decide_eq_true hq]
    rcases hw with rfl | rfl <;> rfl
  dsimp only
  rw [hpos]
  refine (when_of ?_).trans (congrArg _ ?_)
  · rw [hup, hfence]
    rcases hmode with h | h <;> rw [h] <;> rfl
  · by_cases hwired : wiredRight own n p q = true
    · rw [if_pos hwired]
      exact if_neg (show ¬ (!wiredRight own n p q) = true by rw [hwired]; decide)
    · rw [if_neg hwired]
      exact if_pos (show (!wiredRight own n p q) = true by rw [Bool.eq_false_iff.mpr hwired]; rfl)

end

theorem partnerNoted_port {s : State} {n : Nat} (p q : Nat) (hlt : n < s.std.ports.length) :
    (partnerNoted s n p q).port n = { s.port n with partner := p, partnerPort := q, partnerValid := true } := by
  rw [partnerNoted, portM_port, if_pos ⟨rfl, hlt⟩]

theorem partnerNoted_length (s : State) (n p q : Nat) : (partnerNoted s n p q).std.ports.length = s.std.ports.length := List.length_modify _ _ _

theorem portRaised_port {s : State} {n : Nat} (w p q : Nat) (hlt : n < s.std.ports.length) :
    (portRaised s n w p q).port n = raisedPort w { s.port n with partner := p, partnerPort := q, partnerValid := true } := by
  have hports : ∀ u : State, (settleEnum u).port n = u.port n := fun u => by rw [State.port, settleEnum_std_ports]; rfl
  rw [portRaised, hports, portM_port, partnerNoted_length, if_pos ⟨rfl, hlt⟩, partnerNoted_port p q hlt]

/-- A recorded count changes nothing of a port but its queue (16 R610). -/
theorem recordCount_port (s : State) (c n : Nat) : (recordCount s c).port n = { s.port n with queue := ((recordCount s c).port n).queue } := by
  unfold recordCount
  dsimp only
  split
  · split <;> rfl
  · split
    · exact sendPort_port _ _ _ _
    · rfl

theorem countOwed_port (s : State) (n own k : Nat) : (countOwed s n own).port k = { s.port k with queue := ((countOwed s n own).port k).queue } := by
  unfold countOwed
  split
  · exact recordCount_port _ _ _
  · rfl

theorem countOwed_confined (s : State) (n own : Nat) : confined [.std] s (countOwed s n own) := by
  unfold countOwed
  split
  · exact (recordCount_steady _ _).only
  · exact Steady.refl.only

theorem portRaised_confined (s : State) (n w p q : Nat) : confined [.std, .lan] s (portRaised s n w p q) :=
  confined_trans (confined_more (confined_trans (portM_confined _ _ _) (portM_confined _ _ _)) (by decide)) (settleEnum_steady _).only

theorem portMiswired_port {s : State} {n : Nat} (p q : Nat) (hlt : n < s.std.ports.length) :
    (portMiswired s n p q).port n = { s.port n with partner := p, partnerPort := q, partnerValid := true, mode := .miswired, lanes := 0 } := by
  show ((partnerNoted s n p q).portM n _).port n = _
  rw [portM_port, partnerNoted_length, if_pos ⟨rfl, hlt⟩, partnerNoted_port p q hlt]

theorem portMiswired_confined (s : State) (n p q : Nat) : confined [.std] s (portMiswired s n p q) :=
  confined_trans (confined_trans (portM_confined _ _ _) (portM_confined _ _ _)) (stdEvent_confined _ _)

theorem exec_portDown_of_up {s : State} {n : Nat} (hport : portUp s n = true) : exec (.portDown n) s = .next (stopPort s n .training) :=
  ((formed_of (decide_eq_true (portUp_lt_eight hport))).trans (when_of hport) : execPortDown n s = _)

/-! ### Flits received -/

/-- The port of a flit in sequence, with the acknowledgement and the credits that it brings applied (16 R599, R600). -/
def flitTaken (s : State) (n : Nat) (b : List Byte) : State := s.portM n fun p =>
  let p := applyLink { p with rxSeq := (p.rxSeq + 1) % 256 } (fieldAt b 525 1) (fieldAt b 526 2)
  if (readFlit b).kind = 2 then { p with owed1 := p.owed1 + 1 } else { p with owed0 := p.owed0 + 1 }

theorem applyLink_rxSeq (p : Port) (ack credit : Nat) : (applyLink p ack credit).rxSeq = p.rxSeq := by
  unfold applyLink
  dsimp only
  split <;> split <;> rfl

theorem flitTaken_rxSeq {s : State} {n : Nat} (b : List Byte) (hlt : n < s.std.ports.length) : ((flitTaken s n b).port n).rxSeq = ((s.port n).rxSeq + 1) % 256 := by
  rw [flitTaken, portM_port, if_pos ⟨rfl, hlt⟩]
  dsimp only
  split <;> exact applyLink_rxSeq _ _ _

section
variable {s : State} {n : Nat} {b : List Byte} (hlen : b.length = 532) (hup : s.lan.coreUp = true) (hport : portUp s n = true)
include hlen hup hport

theorem exec_flitReceive_of_damage (hbad : flitOk b = false) :
    exec (.flitReceive n b) s = .next (s.portM n fun p => { p with crc := (p.crc + 1) % 2 ^ 32, nak := true }) := by
  refine ((formed_of ?_).trans (when_of ?_) : execFlitReceive n b s = _).trans (congrArg _ (if_pos ?_))
  · rw [decide_eq_true (portUp_lt_eight hport), decide_eq_true hlen]
    rfl
  · rw [hup, hport]
    rfl
  · rw [hbad]
    rfl

theorem exec_flitReceive_of_next (hgood : flitOk b = true) (hseq : fieldAt b 524 1 = (s.port n).rxSeq) :
    exec (.flitReceive n b) s = .next (passFlit (flitTaken s n b) n (readFlit b)) := by
  refine ((formed_of ?_).trans (when_of ?_) : execFlitReceive n b s = _).trans (congrArg _ ((if_neg ?_).trans (if_neg ?_)))
  · rw [decide_eq_true (portUp_lt_eight hport), decide_eq_true hlen]
    rfl
  · rw [hup, hport]
    rfl
  · rw [hgood]
    decide
  · rw [hseq, bne_self_eq_false]
    decide

end

/-- A link message that arrives joins the messages that wait (16 R603). -/
theorem passFlit_of_link {s : State} {n : Nat} {f : Flit} (hkind : f.kind = 1) (hlink : linkMsg (fieldAt f.payload 0 1) = true) (hmode : s.std.mode ≠ .quarantined) :
    passFlit s n f = s.stdM fun d => { d with inbox := d.inbox ++ flitMsgs n f } := by
  refine (if_pos ?_).trans (if_neg ?_)
  · rw [hlink, decide_eq_true hkind]
    rfl
  · rw [beq_eq_false_iff_ne.mpr hmode, Bool.false_and]
    exact Bool.false_ne_true

/-! ### Flits sent -/

section
variable {s : State} {n : Nat} (hup : s.lan.coreUp = true) (hport : portUp s n = true)
include hup hport

theorem exec_flitForward_of_resend (hresend : (s.port n).resend ≠ 0) : exec (.flitForward n) s = .next (relaunch s n) := by
  refine ((formed_of (decide_eq_true (portUp_lt_eight hport))).trans ((if_neg ?_).trans (if_pos (bne_iff_ne.mpr hresend))) : execFlitForward n s = _)
  rw [hup, hport]
  decide

variable (hresend : (s.port n).resend = 0) (hroom : (s.port n).replay.length < 128)
include hresend hroom

theorem exec_flitForward_of_message {f : Flit} (hcredit : (s.port n).credit0 ≠ 0)
    (hnext : (s.port n).queue.find? (fun g => g.kind != 2 && inOrder (s.port n).queue g) = some f) : exec (.flitForward n) s = .next (launch s n f) := by
  refine ((formed_of (decide_eq_true (portUp_lt_eight hport))).trans ((if_neg ?_).trans ((if_neg ?_).trans ((if_neg (Nat.not_le.mpr hroom)).trans ?_))) :
    execFlitForward n s = _)
  · rw [hup, hport]
    decide
  · rw [hresend]
    decide
  · rw [if_neg hcredit, hnext]

theorem exec_flitForward_of_unit {f : Flit} {u : Nat × Nat} (hnone : (s.port n).queue.find? (fun g => g.kind != 2 && inOrder (s.port n).queue g) = none)
    (hunit : (s.port n).unit = some u) (hnext : nextOf (s.port n).queue u = some f) (hcredit : (s.port n).credit1 ≠ 0) :
    exec (.flitForward n) s = .next (launch s n f) := by
  refine ((formed_of (decide_eq_true (portUp_lt_eight hport))).trans ((if_neg ?_).trans ((if_neg ?_).trans ((if_neg (Nat.not_le.mpr hroom)).trans ?_))) :
    execFlitForward n s = _)
  · rw [hup, hport]
    decide
  · rw [hresend]
    decide
  · rw [hnone, ite_self, hunit, Option.bind_some, hnext]
    exact when_of (bne_iff_ne.mpr hcredit)

end

theorem kind_of_message {q : List Flit} {f : Flit} (h : q.find? (fun g => g.kind != 2 && inOrder q g) = some f) : f.kind ≠ 2 := by
  have hf := List.find?_some h
  rw [Bool.and_eq_true, bne_iff_ne] at hf
  exact hf.1

theorem kind_of_nextOf {q : List Flit} {u : Nat × Nat} {f : Flit} (h : nextOf q u = some f) : f.kind = 2 := by
  have hf := List.find?_some h
  rw [Bool.and_eq_true, Bool.and_eq_true, beq_iff_eq] at hf
  exact hf.1.1

theorem relaunch_port {s : State} {n : Nat} {f : Flit} (hlt : n < s.std.ports.length) (hnext : (s.port n).replay[(s.port n).replay.length - (s.port n).resend]? = some f) :
    (relaunch s n).port n = { s.port n with
      resend := (s.port n).resend - 1, nak := false
      sent := flitBytes f (((s.port n).txSeq + 256 - (s.port n).resend % 256) % 256) (((s.port n).rxSeq + 255) % 256) (boolNat (s.port n).nak * 2 ^ 15) } := by
  rw [relaunch, portM_port, if_pos ⟨rfl, hlt⟩, hnext]

/-- Settles O38: a port takes and sends flits in sequence, keeps what it has sent for replay, and loses it when it stops. -/
theorem portsActed : Obligations.PortsActed := by
  refine ⟨fun s r v hask => ?_, fun s r n hn hlt hask hup hmode => ?_, fun s r n hn hlt hask hup hmode hquar => ?_,
    fun s n w p q own hn hlt hw hp hq hpos hup hfence hmode => ?_, fun s n hport => ?_, fun s n b hlen hup hport hbad => exec_flitReceive_of_damage hlen hup hport hbad,
    fun s n b hlen hup hport hgood hseq hkind hlink hmode => ?_, fun s n f hup hport hresend hroom hcredit hnext => ?_,
    fun s n f u hup hport hresend hroom hnone hunit hnext hcredit => ?_, fun s n f hup hport hresend hnext => ?_⟩
  · refine ⟨_, exec_chainOnly_of_asked hask, answerReq_replied r 0 (by decide) rfl rfl, ?_, ?_,
      confined_trans (confined_more (std_confined _ _) (by decide)) (confined_more (answerReq_confined _ _ _) (by decide))⟩
    · rw [answerReq_std]
      rfl
    · rw [answerReq_std]
      rfl
  · obtain ⟨hstate, hreplay, hfence, -⟩ := stopPort_facts (fenceNoted s n 1) n .fenced (by rw [fenceNoted_length]; exact hlt)
    rw [fenceNoted_port 1 hlt] at hfence
    have hlan : (stopPort (fenceNoted s n 1) n .fenced).lan = s.lan := (stopPort_steady _ _ _).only .lan (by decide)
    refine ⟨_, exec_portFence_of_fence hlt hup hask hmode, answerReq_replied r 0 (by decide) (congrArg Lan.queue hlan) (congrArg Lan.tx hlan), ?_, ?_, ?_,
      confined_trans (confined_more (confined_trans (portM_confined _ _ _) (stopPort_steady _ _ _).only) (by decide)) (confined_more (answerReq_confined _ _ _) (by decide))⟩
    · rw [port_answer, hfence]
    · rw [port_answer, hstate]
    · rw [port_answer, hreplay]
  · have hport := portM_port (fenceNoted s n 0) n n fun p => { p with mode := .training, since := s.now }
    rw [fenceNoted_length, if_pos ⟨rfl, hlt⟩, fenceNoted_port 0 hlt] at hport
    refine ⟨_, exec_portFence_of_release hlt hup hask hmode hquar, answerReq_replied r 0 (by decide) rfl rfl, ?_, ?_,
      confined_trans (confined_more (confined_trans (portM_confined _ _ _) (portM_confined _ _ _)) (by decide)) (confined_more (answerReq_confined _ _ _) (by decide))⟩
    · rw [port_answer, hport]
    · rw [port_answer, hport]
  · have hexec := exec_portTrained_of_ready hn hw hp hq hpos hup hfence hmode
    by_cases hwired : wiredRight own n p q = true
    · rw [if_pos hwired] at hexec
      have hport := countOwed_port (portRaised s n w p q) n own n
      rw [portRaised_port w p q hlt] at hport
      refine ⟨_, hexec, ?_, ?_, ?_, ?_, confined_trans (portRaised_confined s n w p q) (confined_more (countOwed_confined _ _ _) (by decide))⟩
      · rw [hport]
        rfl
      · rw [hport]
        rfl
      · rw [hport]
        rfl
      · rw [if_pos hwired, hport]
        exact ⟨rfl, rfl, rfl, rfl, rfl, rfl⟩
    · rw [if_neg hwired] at hexec
      have hport := portMiswired_port p q hlt
      refine ⟨_, hexec, ?_, ?_, ?_, ?_, confined_more (portMiswired_confined s n p q) (by decide)⟩
      · rw [hport]
      · rw [hport]
      · rw [hport]
      · rw [if_neg hwired, hport]
        exact ⟨rfl, bitAt_or_same _ _⟩
  · obtain ⟨hstate, hreplay, -, hsince⟩ := stopPort_facts s n .training (portUp_lt hport)
    exact ⟨_, exec_portDown_of_up hport, hstate, hreplay, hsince, (stopPort_steady _ _ _).only⟩
  · refine ⟨_, (exec_flitReceive_of_next hlen hup hport hgood hseq).trans (congrArg _ (passFlit_of_link hkind hlink hmode)), rfl, ?_,
      confined_trans (portM_confined _ _ _) (std_confined _ _)⟩
    exact flitTaken_rxSeq b (portUp_lt hport)
  · obtain ⟨hqueue, hreplay, hseq, hcredit0, hcredit1, hkept⟩ := launch_facts s n f (portUp_lt hport)
    rw [if_neg (kind_of_message hnext)] at hcredit0 hcredit1
    exact ⟨_, exec_flitForward_of_message hup hport hresend hroom hcredit hnext, hqueue, hreplay, hseq, hcredit0, hcredit1, hkept⟩
  · obtain ⟨hqueue, hreplay, -, -, hcredit1, hkept⟩ := launch_facts s n f (portUp_lt hport)
    rw [if_pos (kind_of_nextOf hnext)] at hcredit1
    exact ⟨_, exec_flitForward_of_unit hup hport hresend hroom hnone hunit hnext hcredit, hqueue, hreplay, hcredit1, hkept⟩
  · have hnew := relaunch_port (portUp_lt hport) hnext
    refine ⟨_, exec_flitForward_of_resend hup hport hresend, ?_, ?_, ?_, ?_, ?_, ?_, ?_, portM_confined _ _ _⟩ <;> rw [hnew]

end Sys2Proof.Machine

/-! Transfers and the host windows of head mode (O39). -/

namespace Sys2Proof.Machine
open Sys2Proof

/-! ### Routed messages -/

/-- A member acts on a routed message of its own epoch (16 R606). -/
theorem onRouted_of_heard {s : State} {m : Msg} {ty : Nat} (hheard : heard s m ty) (k : State → Msg → State) : onRouted s ty k = .next (k (taken s m) m) := by
  obtain ⟨htake, hroute, hmode, hepoch⟩ := hheard
  refine (if_neg ?_).trans ((onMsg_takes htake _).trans ?_)
  · rw [hroute]
    decide
  · rw [judge_of_member (s := taken s m) hmode hepoch]

/-! ### Transfers -/

theorem exec_transferTimeout_of_due {s : State} {p k : Nat} {x : Xfer} (hclk : s.lan.refclk = true) (hup : s.lan.coreUp = true) (hx : xferOf s p k = some x)
    (hdue : x.last + 100000 ≤ s.now) (htarget : x.target ≠ imageTarget) : exec (.transferTimeout p k) s = .next (failXfer s x) := by
  show execTransferTimeout p k s = _
  rw [execTransferTimeout, hx]
  exact when_of (by rw [due, hup, hclk, decide_eq_true hdue, beq_eq_false_iff_ne.mpr htarget, Bool.and_false, Bool.false_and]; rfl)

/-- The transfer to this device that a SEND's setup announces (16 R604; 04 R153). -/
def sendXfer (m : Msg) : Xfer :=
  { peer := m.src, num := m.fld 8 2, op := 5, target := m.fld 16 8, extent := m.fld 24 8, total := 4096 * m.fld 12 4, cookie := m.fld 40 8 }

/-- The transfer of a member's write to host memory (16 R615). -/
def hostXfer (m : Msg) : Xfer := { peer := m.src, num := m.fld 8 2, op := 0x100, target := m.fld 16 8, total := m.fld 24 4 }

section
variable {s : State} {m : Msg} (hheard : heard s m 0x30) (hnum : m.fld 8 2 < 4096)
include hheard hnum

theorem exec_xferSetup_of_send (hop : m.fld 10 1 = 5) (hti : m.fld 16 8 ≠ imageTarget) (hext : m.fld 24 8 = 0) :
    exec .xferSetup s = .next (beginXfer (taken s m) (sendXfer m)) := by
  have himage : (m.fld 16 8 == imageTarget) = false := beq_eq_false_iff_ne.mpr hti
  refine (onRouted_of_heard hheard _ : execXferSetup s = _).trans (congrArg _ ((if_neg (Nat.not_le.mpr hnum)).trans ((if_pos hop).trans ?_)))
  refine (if_neg (by rw [himage]; decide)).trans ((if_pos hext).trans (congrArg (beginXfer _) ?_))
  rw [himage]
  rfl

theorem exec_xferSetup_of_fetch (hop : m.fld 10 1 = 6) : exec .xferSetup s = .next (setupFetch (taken s m) m) :=
  (onRouted_of_heard hheard _ : execXferSetup s = _).trans
    (congrArg _ ((if_neg (Nat.not_le.mpr hnum)).trans ((if_neg (by rw [hop]; decide)).trans (if_pos hop))))

end

/-- The descriptor that sends a loaded parure to a peer (04 R153). -/
def peerParure (s : State) (m : Msg) (p : Parure) : Desc :=
  { cookie := 0, op := 5, units := min (m.fld 12 4) (ceilDiv p.image.length 4096), src := m.fld 16 8, dst := m.fld 40 8, peer := m.src, epoch := s.std.epoch, purpose := .peer m.src }

/-- The descriptor that sends a checkpoint extent to a peer (09 Table 9-6). -/
def peerExtent (s : State) (m : Msg) (e : Extent) : Desc :=
  { cookie := 0, op := 5, units := min (m.fld 12 4) e.units, src := m.fld 16 8, dst := m.fld 40 8, extent := m.fld 24 8, peer := m.src, epoch := s.std.epoch
    purpose := .peerExt m.src (m.fld 24 8) }

theorem setupFetch_of_parure {s : State} {m : Msg} {k : Nat} {p : Parure} (hext : m.fld 24 8 = 0) (hp : parureHandle s (m.fld 16 8) = some (k, p)) (hstate : p.state = .loaded)
    (hserve : serving s = true) : setupFetch s m = submit s (peerParure s m p) := by
  refine (if_neg (by rw [hext]; decide)).trans ?_
  rw [hp]
  exact if_pos (by rw [hstate, hserve]; rfl)

theorem setupFetch_of_extent {s : State} {m : Msg} {e : Extent} (hext : m.fld 24 8 ≠ 0) (he : s.extents.get? (m.fld 24 8) = some e) (hsealed : e.sealed = true)
    (htier : e.tier = 2) (hckpt : e.ckpt = true) (hserve : serving s = true) : setupFetch s m = submit s (peerExtent s m e) := by
  refine (if_pos (bne_iff_ne.mpr hext)).trans ?_
  rw [he, Option.bind_some, if_pos (by rw [hsealed, htier, hckpt, hserve]; rfl)]
  rfl

/-- The channels' descriptors of an ended transfer, with its status (16 R605). -/
def doneMark (s : State) (x : Xfer) (st : Nat) (d : Desc) : Desc :=
  if d.cookie == x.cookie && d.peer == x.peer && (d.op == 5 || (peerFetch s d && st != 0)) then { d with peerStatus := some (d.peerStatus.getD st) } else d

/-- The number of a transfer that its peer has ended is free (16 R605). -/
def outFreed (s : State) (x : Xfer) : State :=
  s.stdM fun d => { d with outXfers := d.outXfers.filter (fun y => !(y.peer == x.peer && y.num == x.num)) }

theorem exec_xferDone_of_found {s : State} {m : Msg} {x : Xfer} (hheard : heard s m 0x31)
    (hx : s.std.outXfers.find? (fun x => x.peer == m.src && x.num == m.fld 8 2) = some x) : exec .xferDone s = .next ((outFreed (taken s m) x).curM fun c =>
      { c with channels := c.channels.map (fun e => (e.1, doneMark (outFreed (taken s m) x) x (m.fld 10 1) e.2)) }) := by
  refine (onRouted_of_heard hheard _ : execXferDone s = _).trans (congrArg _ ?_)
  show (match s.std.outXfers.find? (fun x => x.peer == m.src && x.num == m.fld 8 2) with | none => taken s m | some x => _) = _
  rw [hx]
  rfl

theorem doneMark_of_own {s : State} {x : Xfer} {d : Desc} (st : Nat) (hcookie : d.cookie = x.cookie) (hpeer : d.peer = x.peer) (hop : d.op = 5) (hnone : d.peerStatus = none) :
    doneMark s x st d = { d with peerStatus := some st } := by
  refine (if_pos ?_).trans ?_
  · rw [hcookie, hpeer, hop, beq_self_eq_true, beq_self_eq_true]
    rfl
  · rw [hnone]
    rfl

/-! ### Host windows -/

theorem position_of_isHead {s : State} (hhead : isHead s = true) : s.std.position = some 0 := by
  rw [isHead, Bool.and_eq_true, beq_iff_eq, beq_iff_eq] at hhead
  exact hhead.2

theorem exec_fwdCpl_of_found {s : State} {m : Msg} {r : Nat × Nat × Nat} (hheard : heard s m 0x42)
    (hr : s.std.fwdReads.find? (fun r => r.1 == m.fld 8 2 && r.2.1 == m.src) = some r) :
    exec .fwdCpl s = .next (answer ((taken s m).stdM fun d => { d with fwdReads := d.fwdReads.filter (fun q => q.1 != r.1) },
      if m.fld 24 1 = 1 then { ur := true } else { data := bytesAt m.body 16 r.2.2 })) := by
  refine (onRouted_of_heard hheard _ : execFwdCpl s = _).trans (congrArg _ ?_)
  show (match s.std.fwdReads.find? (fun r => r.1 == m.fld 8 2 && r.2.1 == m.src) with | none => taken s m | some r => _) = _
  rw [hr]

theorem exec_hostRead_of_heard {s : State} {m : Msg} (d : List Byte) (hhead : isHead s = true) (hlink : s.hif.linkUp = true) (hheard : heard s m 0x43)
    (hnum : m.fld 8 2 < 4096) :
    exec (.hostRead d) s = .next ((xferFlits m.src 0 s.std.epoch 0 (m.fld 8 2) (padTo (m.fld 24 4) d)).foldl sendFlit (taken s m)) := by
  refine ((if_neg ?_).trans (onRouted_of_heard hheard _) : execHostRead d s = _).trans (congrArg _ ((if_neg (Nat.not_le.mpr hnum)).trans ?_))
  · rw [hhead, hlink]
    decide
  · rw [ownPos_head (s := taken s m) (position_of_isHead hhead)]
    rfl

section
variable {s : State} {m : Msg} (hhead : isHead s = true) (hinteg : s.integ.mode ≠ .isolated)
include hhead hinteg

theorem head_serves : ¬ (!isHead s || s.integ.mode == .isolated) = true := by
  rw [hhead, beq_eq_false_iff_ne.mpr hinteg]
  decide

theorem exec_hostWrite_of_heard (hheard : heard s m 0x44) (hnum : m.fld 8 2 < 4096) : exec .hostWrite s = .next (beginXfer (taken s m) (hostXfer m)) :=
  ((if_neg (head_serves hhead hinteg)).trans (onRouted_of_heard hheard _) : execHostWrite s = _).trans (congrArg _ (if_neg (Nat.not_le.mpr hnum)))

theorem exec_hostMsix_of_heard (hheard : heard s m 0x45) :
    exec .hostMsix s = .next { taken s m with hostMem := s.hostMem.writeN (m.fld 16 8) (bytesAt m.body 24 4) } :=
  ((if_neg (head_serves hhead hinteg)).trans (onRouted_of_heard hheard _) : execHostMsix s = _)

end

/-- Settles O39: a transfer's setup begins it or submits what the peer asks for, its end frees its number, and the head serves the host's windows. -/
theorem transfersAndWindowsServed : Obligations.TransfersAndWindowsServed := by
  refine ⟨fun s p k x hclk hup hx hdue htarget => ?_, fun s m hheard hnum hop hti hext hunits hearly => ?_, fun s m k p hheard hnum hop hext hp hstate hserve => ?_,
    fun s m e hheard hnum hop hext he hsealed htier hckpt hserve => ?_, fun s m x hheard hx => ?_, fun s m hheard => onRouted_of_heard hheard _,
    fun s m hheard => onRouted_of_heard hheard _, fun s m r hheard hr => ⟨_, exec_fwdCpl_of_found hheard hr, rfl, rfl⟩,
    fun s m d hhead hlink hheard hnum => exec_hostRead_of_heard d hhead hlink hheard hnum, fun s m hhead hinteg hheard hnum htotal hearly => ?_,
    fun s m hhead hinteg hheard => exec_hostMsix_of_heard hhead hinteg hheard⟩
  · have hkept := (failXfer_steady s x).only
    exact ⟨_, exec_transferTimeout_of_due hclk hup hx hdue htarget, failXfer_in s x, hkept .t1 (by decide), hkept .lockets (by decide)⟩
  · obtain ⟨hnew, hkept⟩ := beginXfer_new (taken s m) (sendXfer m) hearly (Nat.mul_ne_zero (by decide) hunits)
    exact ⟨_, exec_xferSetup_of_send hheard hnum hop hti hext, ⟨_, hnew, rfl, rfl, rfl, rfl, rfl⟩, confined_trans (taken_confined s m) hkept⟩
  · refine ⟨_, _, (exec_xferSetup_of_fetch hheard hnum hop).trans (congrArg _ (setupFetch_of_parure (s := taken s m) hext hp hstate hserve)), submit_held _ _, rfl, rfl, rfl,
      rfl, confined_trans (confined_more (taken_confined s m) (by decide)) (confined_more (submit_steady _ _).only (by decide))⟩
  · refine ⟨_, _, (exec_xferSetup_of_fetch hheard hnum hop).trans (congrArg _ (setupFetch_of_extent (s := taken s m) hext he hsealed htier hckpt hserve)), submit_held _ _, rfl,
      rfl, rfl, rfl, confined_trans (confined_more (taken_confined s m) (by decide)) (confined_more (submit_steady _ _).only (by decide))⟩
  · refine ⟨_, exec_xferDone_of_found hheard hx, rfl, fun c d hd hcookie hpeer hop hnone => ?_,
      confined_trans (confined_more (confined_trans (taken_confined s m) (std_confined _ _)) (by decide)) (confined_more (curM_confined _ _) (by decide))⟩
    refine List.mem_map.mpr ⟨(c, d), hd, ?_⟩
    rw [doneMark_of_own _ hcookie hpeer hop hnone]
  · obtain ⟨hnew, hkept⟩ := beginXfer_new (taken s m) (hostXfer m) hearly htotal
    exact ⟨_, exec_hostWrite_of_heard hhead hinteg hheard hnum, ⟨_, hnew, rfl, rfl, rfl, rfl, rfl⟩, confined_trans (taken_confined s m) hkept⟩

end Sys2Proof.Machine

/-! The rails and the clock (O40), the power states (O42), supply and heat (O43). -/

namespace Sys2Proof.Machine
open Sys2Proof

theorem lanternUp_of {s : State} (hon : s.lan.alwaysOn = true) (hclk : s.lan.refclk = true) : lanternUp s = true := by rw [lanternUp, hon, hclk]; rfl

theorem due_of {s : State} {n : Nat} (hclk : s.lan.refclk = true) (hdue : n ≤ s.now) : due s n = true := by rw [due, hclk, decide_eq_true hdue]; rfl

/-! ### Rails and clock -/

theorem exec_railsPgCheck_of_due {s : State} {n : Nat} (level : Bool) (hpg : s.lan.pgAt = some n) (hon : s.lan.alwaysOn = true) (hclk : s.lan.refclk = true)
    (hpower : s.lan.power = .boot) (hdue : n ≤ s.now) : exec (.railsPgCheck level) s =
    .next (if level then startCore (s.lanM fun l => { l with railsPg := true }) else s.lanM fun l => { l with railsPg := false, pgAt := none }) := by
  show execRailsPgCheck level s = _
  rw [execRailsPgCheck, hpg]
  exact when_of (by rw [lanternUp_of hon hclk, hpower, due_of hclk hdue]; rfl)

theorem exec_railsPgFall_of_up {s : State} (hup : s.lan.coreUp = true) (hon : s.lan.alwaysOn = true) (hclk : s.lan.refclk = true) :
    exec .railsPgFall s = .next (coldReset (s.lanM fun l => { l with railsPg := false }) 2) :=
  (when_of (by rw [hup, lanternUp_of hon hclk]; rfl) : execRailsPgFall s = _)

/-- The crash log's record of a clock that stops (01 R39; 13 R515). -/
def clockLossNoted (s : State) : State := crashDirect s 0x0E 0

theorem exec_refclkLoss_of_up {s : State} (hon : s.lan.alwaysOn = true) (hclk : s.lan.refclk = true) : exec .refclkLoss s =
    .next ((if s.lan.coreUp then stopIssue (clockLossNoted s) else clockLossNoted s).lanM fun l => { l with refclk := false }) := by
  refine (when_of (lanternUp_of hon hclk) : execRefclkLoss s = _).trans ?_
  dsimp only
  rw [crashDirect, crashRecord_lan_coreUp]
  rfl

theorem exec_refclkReturn_of_lost {s : State} (hon : s.lan.alwaysOn = true) (hclk : s.lan.refclk = false) (hpower : s.lan.power ≠ .night) :
    exec .refclkReturn s = .next (coldReset (s.lanM fun l => { l with refclk := true }) 1) := by
  refine (when_of (by rw [hon, hclk]; rfl) : execRefclkReturn s = _).trans (congrArg _ (if_neg ?_))
  show ¬ (s.lan.power == .night) = true
  exact fun h => hpower (beq_iff_eq.mp h)

theorem clockLossNoted_log (s : State) :
    (clockLossNoted s).lan.crashLog = (s.lan.crashLog ++ [faultRec s 0x0E 0xC3 0xFF 0 0 0]).drop (s.lan.crashLog.length + 1 - 64) := crashDirect_log _ _ _

theorem clockLossNoted_count (s : State) : (clockLossNoted s).lan.crashCount = (s.lan.crashCount + 1) % 2 ^ 32 := crashRecord_count _ _

/-- Settles O40: the rails and the clock clear, start, hold and reset the device as power-up and power-down ask. -/
theorem railsAndClockActed : Obligations.RailsAndClockActed := by
  refine ⟨fun s hon => ⟨_, (when_of hon : execAlwaysOnRailFailure s = _), rfl, rfl, rfl, rfl, rfl, rfl, rfl, rfl, rfl⟩,
    fun s head hoff => ⟨_, (when_of (by rw [hoff]; rfl) : execPowerOn head s = _), rfl, rfl, rfl, rfl, rfl, rfl, rfl, rfl, rfl, rfl, rfl, rfl⟩,
    fun s n hpg hon hclk hpower hdue => ⟨⟨_, exec_railsPgCheck_of_due true hpg hon hclk hpower hdue, rfl, rfl, rfl, rfl, rfl, rfl⟩,
      exec_railsPgCheck_of_due false hpg hon hclk hpower hdue⟩,
    fun s hup hon hclk => ?_, fun s hon hclk => ?_, fun s hon hclk hpower => ?_,
    fun s sensor hsensor hon => ((formed_of (decide_eq_true hsensor)).trans (when_of hon) : execAnalogThermtrip sensor s = _)⟩
  · obtain ⟨hcold, hpg, -⟩ := coldReset_started (s.lanM fun l => { l with railsPg := false }) 2
    exact ⟨_, exec_railsPgFall_of_up hup hon hclk, hcold, hpg⟩
  · refine ⟨_, exec_refclkLoss_of_up hon hclk, rfl, ?_, ?_, fun hup => ?_⟩
    · by_cases hup : s.lan.coreUp = true
      · rw [if_pos hup]
        exact clockLossNoted_log s
      · rw [if_neg hup]
        exact clockLossNoted_log s
    · by_cases hup : s.lan.coreUp = true
      · rw [if_pos hup]
        exact clockLossNoted_count s
      · rw [if_neg hup]
        exact clockLossNoted_count s
    · rw [if_pos hup]
      rfl
  · obtain ⟨hcold, -, hclk'⟩ := coldReset_started (s.lanM fun l => { l with refclk := true }) 1
    exact ⟨_, exec_refclkReturn_of_lost hon hclk hpower, hcold, hclk'⟩

/-! ### Power states -/

theorem exec_duskEntry_of_idle {s : State} {n : Nat} (hon : s.lan.alwaysOn = true) (hclk : s.lan.refclk = true) (hpower : s.lan.power = .active) (hactive : s.eph.active = none)
    (hjobs : s.eph.jobs = []) (htrans : s.lan.transition = none) (hidle : s.lan.idleSince = some n) (hdue : n + 100000 ≤ s.now) :
    exec .duskEntry s = .next (setPower s .dusk) := by
  have hrest : restful s = true := by rw [restful, hpower, hactive, hjobs]; rfl
  show execDuskEntry s = _
  rw [execDuskEntry, hidle]
  exact when_of (by rw [lanternUp_of hon hclk, hrest, htrans, due_of hclk hdue]; rfl)

/-- Something that takes the device out of DUSK (18 R681). -/
def wakes (s : State) : Bool := !s.eph.jobs.isEmpty || s.eph.switch.isSome || (s.eph.active.isSome && s.eph.enable) || s.lan.transition.isSome

theorem wakes_of {s : State} (h : s.eph.jobs ≠ [] ∨ s.eph.switch.isSome ∨ (s.eph.active.isSome ∧ s.eph.enable = true) ∨ s.lan.transition.isSome) : wakes s = true := by
  rw [wakes, Bool.or_eq_true, Bool.or_eq_true, Bool.or_eq_true, Bool.and_eq_true, Bool.not_eq_true', List.isEmpty_eq_false_iff, or_assoc, or_assoc]
  exact h

theorem exec_duskExit_of_work {s : State} (hclk : s.lan.refclk = true) (hpower : s.lan.power = .dusk) (hwork : wakes s = true) :
    exec .duskExit s = .next (setPower (s.lanM fun l => { l with idleSince := none }) .active) := by
  refine ((clocked_on hclk).trans (when_of ?_) : execDuskExit s = _)
  show (s.lan.power == .dusk && wakes s) = true
  rw [hpower, hwork]
  rfl

section
variable {s : State} (hon : s.lan.alwaysOn = true) (hclk : s.lan.refclk = true) {req : Nat} (hreq : s.lan.powerReq = req) (htrans : s.lan.transition.isSome)
include hon hclk hreq htrans

theorem asked_of : asked s req = true := by
  rw [asked, lanternUp_of hon hclk, hreq, htrans, beq_self_eq_true]
  rfl

end

theorem exec_twilightEntry_of_asked {s : State} (hask : asked s 2 = true) (hpower : s.lan.power = .active) (hdone : ∀ b ∈ s.bays, b.programs = []) :
    exec .twilightEntry s = .next (dozed (refreshMode (restCommands s) true)) := by
  have hprog : programsDone s = true := List.all_eq_true.mpr fun b hb => List.isEmpty_iff.mpr (hdone b hb)
  exact (when_of (by rw [hask, hpower, hprog]; rfl) : execTwilightEntry s = _)

/-- Every meridian resumes with the first one after TWILIGHT (18 R684). -/
def wokenMemory (s : State) : State :=
  ((refreshMode s false).ephM fun e => { e with nextMeridian := nextGrid e s.now }).lanM fun l => { l with transition := none }

theorem exec_twilightExit_of_asked {s : State} (hask : asked s 0 = true) (hpower : s.lan.power = .twilight) :
    exec .twilightExit s = .next (setPower (wokenMemory s) .active) :=
  (when_of (by rw [hask, hpower]; rfl) : execTwilightExit s = _)

/-- The rails come up again at the end of NIGHT (18 Table 18-3). -/
def railsRaised (s : State) : State :=
  s.lanM fun l => { l with transition := none, railEn := true, railsPg := true, vcoreSent := l.vcoreSet, pgAt := some (s.now + 200000) }

theorem exec_nightExit_of_asked {s : State} (hask : asked s 0 = true) (hpower : s.lan.power = .night) : exec .nightExit s = .next (setPower (railsRaised s) .boot) :=
  (when_of (by rw [hask, hpower]; rfl) : execNightExit s = _)

/-- Settles O42: each power state is entered and left on its request, with the memories refreshed, the commands ended or the rails switched. -/
theorem powerStatesEntered : Obligations.PowerStatesEntered := by
  refine ⟨fun s n hon hclk hpower hactive hjobs htrans hidle hdue => ?_, fun s hclk hpower hwork => ?_, fun s hon hclk hreq htrans hpower hdone => ?_,
    fun s hon hclk hreq htrans hpower => ?_, nightOk, fun s hon hclk hreq htrans hpower => ?_⟩
  · exact ⟨_, exec_duskEntry_of_idle hon hclk hpower hactive hjobs htrans hidle hdue, setPower_lan_power _ _, setPower_confined _ _⟩
  · exact ⟨_, exec_duskExit_of_work hclk hpower (wakes_of hwork), setPower_lan_power _ _, confined_trans (lan_confined _ _) (setPower_confined _ _)⟩
  · obtain ⟨hdoze, hended, htlb, hhbc, hlpc, ht1, hnow⟩ := dozed_facts (refreshMode (restCommands s) true)
    have hrest : (restCommands s).t1 = s.t1 := (restCommands_steady s).only .t1 (by decide)
    have hrest' : (restCommands s).now = s.now := (restCommands_steady s).only .now (by decide)
    rw [refresh_t1, hrest] at ht1
    rw [refresh_now, hrest'] at hnow
    refine ⟨_, exec_twilightEntry_of_asked (asked_of hon hclk hreq htrans) hpower hdone, hdoze, hended, htlb, ?_, ?_, ht1, hnow⟩
    · rw [hhbc]
      exact refresh_hbc _ true
    · rw [hlpc]
      exact refresh_lpc _ true
  · have hkept := setPower_confined (wokenMemory s) .active
    refine ⟨_, exec_twilightExit_of_asked (asked_of hon hclk hreq htrans) hpower, setPower_lan_power _ _, setPower_lan_transition _ _, ?_, ?_, hkept .lockets (by decide),
      hkept .t1 (by decide)⟩
    · rw [show (setPower (wokenMemory s) .active).hbc = (refreshMode s false).hbc from hkept .hbc (by decide)]
      exact refresh_hbc s false
    · rw [show (setPower (wokenMemory s) .active).lpc = (refreshMode s false).lpc from hkept .lpc (by decide)]
      exact refresh_lpc s false
  · exact ⟨_, exec_nightExit_of_asked (asked_of hon hclk hreq htrans) hpower, setPower_lan_power _ _, setPower_lan_railEn _ _, setPower_lan_pgAt _ _,
      setPower_lan_transition _ _, confined_trans (lan_confined _ _) (setPower_confined _ _)⟩

/-! ### Supply -/

/-- The state in which a low supply has been noted (18 R687). -/
def lowNoted (s : State) (w : Bool) : State :=
  s.lanM fun l => { l with lowSince := some s.now, pwrWarn := w, goodSince := none, freezes := if l.stopped then l.freezes else wrapInc 32 l.freezes }

/-- A frozen issue unit waits to replay what it had in flight (18 R688). -/
def issueFrozen (s : State) : State :=
  (discardTiles s).oryM fun y => { y with mode := if y.prog.isSome && (y.mode == .run || y.mode == .windowHold || y.mode == .toCheapPoint) then .replayWait else y.mode }

theorem exec_supplyLow_of_low {s : State} {v : Nat} {w : Bool} (hon : s.lan.alwaysOn = true) (hclk : s.lan.refclk = true) (hup : s.lan.coreUp = true)
    (hlow : s.lan.lowSince = none) (hcause : w = true ∨ v < s.lan.vcoreSet * 94 / 100) : exec (.supplyLow v w) s = .next (issueFrozen (lowNoted s w)) := by
  have hwarn : (w || decide (v < warnMv s)) = true := by
    rw [Bool.or_eq_true, decide_eq_true_eq]
    exact hcause
  exact (when_of (by rw [lanternUp_of hon hclk, hup, hlow, hwarn]; rfl) : execSupplyLow v w s = _)

theorem inFlight_of_frozen {s : State} {p : Progress} (hp : (issueFrozen s).ory.prog = some p) : p.inFlight = [] := by
  obtain ⟨q, -, rfl⟩ := Option.map_eq_some_iff.mp (show s.ory.prog.map (fun p => { p with discarded := p.inFlight ++ p.discarded, inFlight := [] }) = some p from hp)
  rfl

theorem issueFrozen_confined (s : State) : confined [.ory] s (issueFrozen s) := confined_trans (discardTiles_steady s).only (oryM_confined _ _)

/-- The state in which the supply has recovered (18 R689). -/
def supplyGood (s : State) : State := s.lanM fun l => { l with lowSince := none, pwrWarn := false, goodSince := none }

theorem exec_supplyRecover_of_good {s : State} {v n : Nat} (hon : s.lan.alwaysOn = true) (hclk : s.lan.refclk = true) (hlow : s.lan.lowSince = some n)
    (hstop : s.lan.stopped = false) (htime : s.now ≤ n + 20000) (hv : s.lan.vcoreSet * 94 / 100 ≤ v) :
    exec (.supplyRecover v) s = .next (crashDirect (supplyGood s) 0x0D (s.now - n)) := by
  have hgood : decide (warnMv s ≤ v) = true := decide_eq_true hv
  show execSupplyRecover v s = _
  rw [execSupplyRecover, hlow]
  refine (when_of (by rw [lanternUp_of hon hclk, hgood, hstop, decide_eq_true htime]; rfl)).trans ?_
  dsimp only
  rw [hstop]
  rfl

/-- A controlled stop up to its crash record: the commands have ended and the mounted coffers have their map images (18 R690). -/
def stoppedState (s : State) : State :=
  let u := fenceAll (s.lanM fun l => { l with stopped := true, stops := wrapInc 32 l.stops })
  stoppedBays u u

theorem exec_controlledStop_of_due {s : State} {n : Nat} (hon : s.lan.alwaysOn = true) (hclk : s.lan.refclk = true) (hup : s.lan.coreUp = true)
    (hstop : s.lan.stopped = false) (hlow : s.lan.lowSince = some n) (hdue : n + 20000 ≤ s.now) :
    exec .controlledStop s = .next (crashDirect (stoppedState s) 0x0D (s.now - n)) := by
  show execControlledStop s = _
  rw [execControlledStop, hlow]
  exact when_of (by rw [lanternUp_of hon hclk, hup, hstop, due_of hclk hdue]; rfl)

theorem stoppedState_keeps (s : State) (p : Part) (hfence : p ∉ [Part.ory, .parures, .ast, .lockets, .charms, .extents, .cur, .bays, .eph, .colls, .searches, .selects,
    .sieves, .integ, .ckpt, .hif]) : agree p (s.lanM fun l => { l with stopped := true, stops := wrapInc 32 l.stops }) (stoppedState s) :=
  confined_trans (fenceAll_steady _).only (confined_more (foldMap_confined _ _) (by decide)) p hfence

/-! ### Heat -/

/-- An upward crossing of the warning limit (18 R692). -/
def warmCross (s : State) (readings : List Int) : Bool :=
  decide (s.lan.tempMax < (s.lan.warnLimit : Int)) && decide ((s.lan.warnLimit : Int) ≤ (hottest readings).1)

theorem warmCross_iff {s : State} {readings : List Int} : warmCross s readings = true ↔ s.lan.tempMax < s.lan.warnLimit ∧ s.lan.warnLimit ≤ (hottest readings).1 := by
  rw [warmCross, Bool.and_eq_true, decide_eq_true_eq, decide_eq_true_eq]

/-- The state in which a sample of the sensors has been taken (18 R692, R693). -/
def sampled (s : State) (readings : List Int) : State :=
  s.lanM fun l => { l with
    sensors := readings, tempMax := (hottest readings).1, tempSensor := (hottest readings).2
    tripRun := (readings.zip s.lan.tripRun).map (fun e => if (s.lan.tripLimit : Int) ≤ e.1 then e.2 + 1 else 0), lastTemp := s.now
    warnCount := if warmCross s readings then wrapInc 32 l.warnCount else l.warnCount }

/-- A crossing is reported in an EVENT frame (18 R692). -/
def crossReported (s u : State) (readings : List Int) : State := if warmCross s readings then watch u 0x6300 7 (natLe 4 u.lan.warnCount) else u

theorem exec_thermalSample_of_due {s : State} {readings : List Int} (hlen : readings.length = 24) (hon : s.lan.alwaysOn = true) (hclk : s.lan.refclk = true)
    (hdue : s.lan.lastTemp + 1000 ≤ s.now) : exec (.thermalSample readings) s = .next (crossReported s (sampled s readings) readings) :=
  ((formed_of (decide_eq_true hlen)).trans (when_of (by rw [lanternUp_of hon hclk, due_of hclk hdue]; rfl)) : execThermalSample readings s = _)

theorem crossReported_facts (s u : State) (readings : List Int) : (crossReported s u readings).lan.sensors = u.lan.sensors ∧
    (crossReported s u readings).lan.lastTemp = u.lan.lastTemp ∧ (crossReported s u readings).lan.tempMax = u.lan.tempMax ∧
    (crossReported s u readings).lan.tempSensor = u.lan.tempSensor ∧ (crossReported s u readings).lan.warnCount = u.lan.warnCount ∧
    confined [.lan] u (crossReported s u readings) := by
  unfold crossReported
  by_cases hcross : warmCross s readings = true
  · rw [if_pos hcross]
    exact ⟨by simp, by simp, by simp, by simp, by simp, (watch_steady _ _ _ _).only⟩
  · rw [if_neg hcross]
    exact ⟨rfl, rfl, rfl, rfl, rfl, Steady.refl.only⟩

/-- The state in which a thermal trip has been noted (18 R693). -/
def tripNoted (s : State) : State :=
  watch (s.lanM fun l => { l with thermtrip := true, tripped := true, powerReq := 3, tripCount := wrapInc 32 l.tripCount }) 0x6300 5 (natLe 1 1)

/-- A thermal trip lets its coffers go before the rails fall (18 R693). -/
def tripDetached (u : State) : State :=
  ((List.range 4).filter (fun n => (u.bay n).mode == .mounted || (u.bay n).mode == .readOnly || (u.bay n).mode == .detaching)).foldl forceDetach u

theorem exec_thermalTrip_of_run {s : State} (hon : s.lan.alwaysOn = true) (hclk : s.lan.refclk = true) (htrip : s.lan.tripped = false) (hrun : ∃ n ∈ s.lan.tripRun, 3 ≤ n) :
    exec .thermalTrip s = .next (railsOff (tripDetached (tripNoted s))) := by
  have hany : s.lan.tripRun.any (fun n => 3 ≤ n) = true := by
    obtain ⟨n, hn, hle⟩ := hrun
    exact List.any_eq_true.mpr ⟨n, hn, decide_eq_true hle⟩
  exact (when_of (by rw [lanternUp_of hon hclk, htrip, hany]; rfl) : execThermalTrip s = _)

theorem tripNoted_facts (s : State) : (tripNoted s).now = s.now ∧ (tripNoted s).bays = s.bays ∧ (tripNoted s).lan.thermtrip = true ∧ (tripNoted s).lan.tripped = true ∧
    (tripNoted s).lan.tripCount = (s.lan.tripCount + 1) % 2 ^ 32 := by
  have hkept := (watch_steady (s.lanM fun l => { l with thermtrip := true, tripped := true, powerReq := 3, tripCount := wrapInc 32 l.tripCount }) 0x6300 5 (natLe 1 1)).only
  exact ⟨hkept .now (by decide), hkept .bays (by decide), watch_lan_thermtrip _ _ _ _, watch_lan_tripped _ _ _ _, watch_lan_tripCount _ _ _ _⟩

theorem tripDetached_of_empty {u : State} (hempty : ∀ n < 4, (u.bay n).mode = .empty) : tripDetached u = u := by
  have hnone : (List.range 4).filter (fun n => (u.bay n).mode == .mounted || (u.bay n).mode == .readOnly || (u.bay n).mode == .detaching) = [] := by
    refine List.filter_eq_nil_iff.mpr fun n hn => ?_
    rw [hempty n (List.mem_range.mp hn)]
    decide
  rw [tripDetached, hnone]
  rfl

theorem exec_avsPoll_of_due {s : State} {ok : Bool} {v i : Nat} (hon : s.lan.alwaysOn = true) (hclk : s.lan.refclk = true) (hdue : s.lan.lastAvs + 1000 ≤ s.now)
    (hv : v < 2 ^ 16) (hi : i < 2 ^ 16) : exec (.avsPoll ok v i) s =
    .next (s.lanM fun l => { l with lastAvs := s.now, vcoreRead := if ok then v else 0xFFFF, ioutRead := if ok then i else 0xFFFF }) := by
  refine (when_of (by rw [lanternUp_of hon hclk, due_of hclk hdue]; rfl) : execAvsPoll ok v i s = _).trans ?_
  rw [Nat.mod_eq_of_lt hv, Nat.mod_eq_of_lt hi]

/-- Settles O43: a low supply freezes, thaws or stops the device, and its temperatures warn or trip it. -/
theorem supplyAndHeatSupervised : Obligations.SupplyAndHeatSupervised := by
  refine ⟨fun s v w hon hclk hup hlow hstop hcause => ?_, fun s v n hon hclk hlow hstop htime hv => ?_, fun s n hon hclk hup hstop hlow hdue => ?_,
    fun s readings hlen hon hclk hdue => ?_, fun s hon hclk htrip hrun => ?_, fun s ok v i hon hclk hdue hv hi => exec_avsPoll_of_due hon hclk hdue hv hi⟩
  · refine ⟨_, exec_supplyLow_of_low hon hclk hup hlow hcause, rfl, ?_, fun p hp => inFlight_of_frozen hp,
      confined_trans (confined_more (lan_confined _ _) (by decide)) (confined_more (issueFrozen_confined _) (by decide))⟩
    show (if s.lan.stopped then s.lan.freezes else wrapInc 32 s.lan.freezes) = _
    rw [hstop]
    rfl
  · exact ⟨_, exec_supplyRecover_of_good hon hclk hlow hstop htime hv, crashRecord_lan_lowSince _ _, crashRecord_lan_pwrWarn _ _, crashDirect_log _ _ _⟩
  · have hlan : (stoppedState s).lan = { s.lan with stopped := true, stops := wrapInc 32 s.lan.stops } := stoppedState_keeps s .lan (by decide)
    have hinteg : (crashDirect (stoppedState s) 0x0D (s.now - n)).integ = (stoppedState s).integ := (crashDirect_steady _ _ _).only .integ (by decide)
    refine ⟨_, exec_controlledStop_of_due hon hclk hup hstop hlow hdue, ?_, ?_, ?_, ?_⟩
    · rw [crashDirect, crashRecord_lan_stopped, hlan]
    · rw [crashDirect, crashRecord_lan_stops, hlan]
      rfl
    · rw [hinteg, crashDirect_log, hlan, faultRec_held (s := s) (stoppedState_keeps s .now (by decide)) (stoppedState_keeps s .lpe (by decide))
        (stoppedState_keeps s .std (by decide))]
    · exact ((crashDirect_steady _ _ _).only .t1 (by decide)).trans (stoppedState_keeps s .t1 (by decide))
  · obtain ⟨hsensors, hlast, hmax, hsensor, hcount, hkept⟩ := crossReported_facts s (sampled s readings) readings
    refine ⟨_, exec_thermalSample_of_due hlen hon hclk hdue, hsensors, hlast, hmax, hsensor, hcount.trans ?_, confined_trans (lan_confined _ _) hkept⟩
    by_cases hcross : warmCross s readings = true
    · exact (if_pos hcross).trans (if_pos (warmCross_iff.mp hcross)).symm
    · exact (if_neg hcross).trans (if_neg fun h => hcross (warmCross_iff.mpr h)).symm
  · obtain ⟨hnow, hbays, hpin, htripped, hcount⟩ := tripNoted_facts s
    obtain ⟨hnight, hpin', htripped', hcount'⟩ := railsOff_atNight (s := s) (u := tripDetached (tripNoted s)) ((foldDetach_now _ _).trans hnow)
    refine ⟨_, exec_thermalTrip_of_run hon hclk htrip hrun, hnight, fun hempty => ?_⟩
    rw [tripDetached_of_empty (u := tripNoted s) fun n hn => by rw [State.bay, hbays]; exact hempty n hn] at hpin' htripped' hcount' ⊢
    exact ⟨hpin'.trans hpin, htripped'.trans htripped, hcount'.trans hcount⟩

end Sys2Proof.Machine

/-! The Setting image: its download, its start and its replication (O44). -/

namespace Sys2Proof.Machine
open Sys2Proof

/-! ### The download -/

theorem exec_imageStart_of_asked {s : State} {r : Req} (hask : asks s r 0x1F00 3 1) : exec .imageStart s = .next (answerReq (clearStaging s) r 0) :=
  (asks_onWrite hask _ _ rfl : execImageStart s = _)

theorem exec_imageData_of_asked {s : State} {r : Req} {v : Nat} (hask : asks s r 0x1F00 2 v) : exec .imageData s = .next (answerReq (stagePiece s r.data) r 0) :=
  (asks_onWrite hask _ _ rfl : execImageData s = _)

theorem exec_imageVerify_of_asked {s : State} {r : Req} (hask : asks s r 0x1F00 3 2) : exec .imageVerify s = .next (answerReq (beginVerify s false) r 0) :=
  (asks_onWrite hask _ _ rfl : execImageVerify s = _)

theorem exec_imageRun_of_asked {s : State} {r : Req} (hask : asks s r 0x1F00 3 3) : exec .imageRun s = .next (answerReq (runImage s) r 0) :=
  (asks_onWrite hask _ _ rfl : execImageRun s = _)

theorem exec_verifyDone_of_download {s : State} {off : Nat} (hlantern : lanternUp s = true) (hup : s.lan.coreUp = true) (hphase : s.lan.phase = .verifying off false) :
    exec .verifyDone s = .next (s.lanM fun l =>
      { l with imageOffset := 0xFFFF0000 + verifyCode s off, phase := if verifyCode s off = 0 then .verified else .none }) := by
  show execVerifyDone s = _
  rw [execVerifyDone, hphase]
  exact when_of (by rw [hlantern, hup]; rfl)

/-! ### The start -/

/-- How the start of an image ends with these outcomes of training and of the control-SRAM self test (18 R671, Table 18-5). -/
def startEnded (s : State) (hbm : List Bool) (t2 : List (Option Nat)) (sram : Bool) : State :=
  if !hbm.all id then failStart (trainHbm s hbm) 0x10
  else if !sram then failStart (trainT2 (trainHbm s hbm) t2) 0x12
  else if (trainT2 (trainHbm s hbm) t2).lpe.mode == .exhausted then failStart (trainT2 (trainHbm s hbm) t2) 0x11
  else completeStart (trainT2 (trainHbm s hbm) t2)

theorem exec_settingStartDone_of_starting {s : State} {t0 : Nat} {hbm : List Bool} {t2 : List (Option Nat)} {sram : Bool} (hlen : hbm.length = 8) (hlen' : t2.length = 4)
    (hlantern : lanternUp s = true) (hup : s.lan.coreUp = true) (hphase : s.lan.phase = .starting t0) (htime : s.now ≤ t0 + 60000000)
    (htest : hbm.all id = false ∨ sram = false ∨ tested s = true) : exec (.settingStartDone hbm t2 sram) s = .next (startEnded s hbm t2 sram) := by
  have hready : (!hbm.all id || !sram || tested s) = true := by
    rcases htest with h | h | h
    · rw [h]
      rfl
    · rw [h, Bool.not_false, Bool.or_true, Bool.true_or]
    · rw [h, Bool.or_true]
  refine (formed_of (by rw [decide_eq_true hlen, decide_eq_true hlen']; rfl) : execSettingStartDone hbm t2 sram s = _).trans ?_
  rw [hphase]
  exact when_of (by rw [hlantern, hup, decide_eq_true htime, hready]; rfl)

/-- What training leaves of the state of the image (18 R671). -/
theorem trained_keeps (s : State) (hbm : List Bool) (t2 : List (Option Nat)) : (trainT2 (trainHbm s hbm) t2).lpe = s.lpe ∧
    (trainT2 (trainHbm s hbm) t2).lan.power = s.lan.power ∧ stagedImage (trainT2 (trainHbm s hbm) t2) = stagedImage s := by
  unfold trainT2
  dsimp only
  split <;> exact ⟨rfl, rfl, rfl⟩

theorem startEnded_of_hbm {s : State} {hbm : List Bool} (t2 : List (Option Nat)) (sram : Bool) (hfail : hbm.all id = false) :
    startEnded s hbm t2 sram = failStart (trainHbm s hbm) 0x10 := if_pos (by rw [hfail]; rfl)

theorem startEnded_of_sram {s : State} {hbm : List Bool} (t2 : List (Option Nat)) (hok : hbm.all id = true) :
    startEnded s hbm t2 false = failStart (trainT2 (trainHbm s hbm) t2) 0x12 := (if_neg (by rw [hok]; decide)).trans (if_pos rfl)

theorem startEnded_of_exhausted {s : State} {hbm : List Bool} (t2 : List (Option Nat)) (hok : hbm.all id = true) (hmode : s.lpe.mode = .exhausted) :
    startEnded s hbm t2 true = failStart (trainT2 (trainHbm s hbm) t2) 0x11 :=
  (if_neg (by rw [hok]; decide)).trans ((if_neg (by decide)).trans (if_pos (by rw [(trained_keeps s hbm t2).1, hmode]; rfl)))

theorem startEnded_of_ok {s : State} {hbm : List Bool} (t2 : List (Option Nat)) (hok : hbm.all id = true) (hmode : s.lpe.mode ≠ .exhausted) :
    startEnded s hbm t2 true = completeStart (trainT2 (trainHbm s hbm) t2) :=
  (if_neg (by rw [hok]; decide)).trans ((if_neg (by decide)).trans (if_neg (by rw [(trained_keeps s hbm t2).1, beq_iff_eq]; exact hmode)))

theorem completeStart_facts (s : State) : (completeStart s).lan.power = .active ∧ (completeStart s).lan.phase = .running ∧ (completeStart s).lan.image = stagedImage s ∧
    (completeStart s).lan.settingSvn = fieldAt (stagedImage s) 16 4 ∧ (completeStart s).lan.extentCount = 0 ∧ (completeStart s).ory.enable = true := by
  unfold completeStart
  dsimp only
  refine ⟨setPower_lan_power _ _, ?_, ?_, ?_, ?_, ?_⟩
  · rw [setPower_lan_phase, State.lanM_lan]
  · rw [setPower_lan_image, State.lanM_lan]
  · rw [setPower_lan_settingSvn, State.lanM_lan]
  · rw [setPower_lan_extentCount, State.lanM_lan]
  · exact congrArg Ory.enable ((setPower_confined _ _) .ory (by decide))

theorem exec_settingStartTimeout_of_late {s : State} {t0 : Nat} (hlantern : lanternUp s = true) (hphase : s.lan.phase = .starting t0) (htime : t0 + 60000001 ≤ s.now) :
    exec .settingStartTimeout s = .next (failStart s 0x13) := by
  have hclk : s.lan.refclk = true := by
    rw [lanternUp, Bool.and_eq_true] at hlantern
    exact hlantern.2
  show execSettingStartTimeout s = _
  rw [execSettingStartTimeout, hphase]
  exact when_of (by rw [hlantern, due_of hclk htime]; rfl)

/-! ### Replication -/

/-- Members that a copy of the running image goes to (18 R675). -/
def copyTargets (s : State) (b : Nat) : List Nat := (List.range 64).filter (fun p => bitAt s.std.members p && bitAt b p && p != ownPos s)

theorem exec_imageReplicate_of_asked {s : State} {r : Req} (b : Nat) (hask : asks s r 0x1F00 3 0x10) :
    exec (.imageReplicate b) s = .next (answerReq ((copyTargets s b).foldl sendImage s) r 0) :=
  (asks_onWrite hask _ _ rfl : execImageReplicate b s = _)

theorem sendImages_keep (ps : List Nat) (s : State) {d : Desc} (hd : d ∈ allDescs s) : d ∈ allDescs (ps.foldl sendImage s) := by
  induction ps generalizing s with
  | nil => exact hd
  | cons p ps ih => exact ih _ (submit_keeps _ _ _ hd)

/-- A copy of the image is queued for every member of the list (18 R675). -/
theorem sendImages_held (ps : List Nat) (s : State) {p : Nat} (hp : p ∈ ps) : ∃ d ∈ allDescs (ps.foldl sendImage s), d.op = 5 ∧ d.peer = p ∧ d.dst = imageTarget := by
  induction ps generalizing s with
  | nil => cases hp
  | cons q ps ih =>
    rw [List.foldl_cons]
    rcases List.mem_cons.mp hp with rfl | hp
    · exact ⟨_, sendImages_keep ps (sendImage s p) (submit_held _ _), rfl, rfl, rfl⟩
    · exact ih _ hp

theorem sendImages_steady (ps : List Nat) (s : State) : Steady [.extents, .cur] s (ps.foldl sendImage s) := by
  induction ps generalizing s with
  | nil => exact Steady.refl
  | cons p ps ih => exact (Steady.refl.chain (sendImage_steady s p) (by decide)).chain (ih _) (by decide)

/-- The bytes that a transfer of an image stages (18 R675). -/
def copiedImage (x : Xfer) : List Byte := padTo (ceilDiv x.total 1024 * 1024) (x.data.take x.total)

/-- A device in BOOT stages the copy that came, and verifies it to run it (18 R675). -/
def imageTaken (s : State) (x : Xfer) : State := beginVerify (stagePiece (clearStaging (dropIn s x)) (copiedImage x)) true

theorem imageTaken_confined (s : State) (x : Xfer) : confined [.std, .lan] s (imageTaken s x) := by
  have hdrop := (dropIn_steady s x).only
  have hclear := (clearStaging_steady (dropIn s x)).only
  have hstage := (stagePiece_steady (clearStaging (dropIn s x)) (copiedImage x)).only
  have hverify := (beginVerify_steady (stagePiece (clearStaging (dropIn s x)) (copiedImage x)) true).only
  exact confined_trans (confined_more hdrop (by decide)) (confined_more (confined_trans hclear (confined_trans hstage hverify)) (by decide))

theorem exec_imageTransferReceive_of_boot {s : State} {p k : Nat} {x : Xfer} (hlantern : lanternUp s = true) (hup : s.lan.coreUp = true) (hx : xferOf s p k = some x)
    (hop : x.op = 5) (htarget : x.target = imageTarget) (hall : x.total ≤ x.data.length) (hpower : s.lan.power = .boot) (hstart : starting s = false)
    (hsize : x.total ≤ 3145728) : exec (.imageTransferReceive p k) s =
    .next (sendMsg (imageTaken s x) p (xferDone k (if x.tarnish.isEmpty then 0 else 4) (ceilDiv x.total 4096) (sha256 (padTo x.total x.data)))) := by
  have hok : (s.lan.power == .boot && !starting s && decide (x.total ≤ 3145728)) = true := by rw [hpower, hstart, decide_eq_true hsize]; rfl
  show execImageTransferReceive p k s = _
  rw [execImageTransferReceive, hx]
  refine (when_of (by rw [hlantern, hup, hop, htarget, decide_eq_true hall]; rfl)).trans ?_
  dsimp only
  rw [hok]
  rfl

/-- Settles O44: an image is staged, verified and started, or its start fails with its code, and its copy goes to the members that wait for it. -/
theorem imagesDownloadedAndStarted : Obligations.ImagesDownloadedAndStarted := by
  refine ⟨fun s r hask => ?_, fun s r v hask => ?_, fun s r hask => ?_,
    fun s off hlantern hup hphase => ⟨_, exec_verifyDone_of_download hlantern hup hphase, rfl, rfl, rfl, lan_confined _ _⟩, fun s r hask => ?_,
    fun s t0 hbm t2 sram hlen hlen' hlantern hup hphase htime htest => ?_,
    fun s t0 hlantern hphase htime => ⟨_, exec_settingStartTimeout_of_late hlantern hphase htime, rfl, rfl, rfl, lan_confined _ _⟩, fun s r b hask => ?_,
    fun s p k x hlantern hup hx hop htarget hall hpower hstart hsize => ?_⟩
  · exact ⟨_, exec_imageStart_of_asked hask, answerReq_replied r 0 (by decide) rfl rfl, answerReq_lan_staging _ _ _, answerReq_lan_imageOffset _ _ _, lanAns_confined _ _ _ _⟩
  · exact ⟨_, exec_imageData_of_asked hask, answerReq_replied r 0 (by decide) rfl rfl, answerReq_lan_staging _ _ _, answerReq_lan_imageOffset _ _ _, lanAns_confined _ _ _ _⟩
  · exact ⟨_, exec_imageVerify_of_asked hask, answerReq_replied r 0 (by decide) rfl rfl, answerReq_lan_imageOffset _ _ _, answerReq_lan_phase _ _ _, lanAns_confined _ _ _ _⟩
  · refine ⟨_, exec_imageRun_of_asked hask, answerReq_replied r 0 (by decide) rfl rfl, answerReq_lan_phase _ _ _, (answerReq_lan_fusedSvn _ _ _).trans ?_,
      answerReq_lan_power _ _ _, confined_trans (runImage_steady s).only (confined_more (answerReq_confined _ _ _) (by decide))⟩
    show (if (leNat (stagedBytes s 12 4) % 2 == 1) = true then _ else _) = _
    simp only [beq_iff_eq]
  · have hexec := exec_settingStartDone_of_starting hlen hlen' hlantern hup hphase htime htest
    obtain ⟨-, hpower, himage⟩ := trained_keeps s hbm t2
    refine ⟨_, hexec, ?_⟩
    by_cases hhbm : hbm.all id = false
    · rw [if_pos hhbm, startEnded_of_hbm t2 sram hhbm]
      exact ⟨rfl, rfl, rfl⟩
    have hok : hbm.all id = true := eq_true_of_ne_false hhbm
    rw [if_neg hhbm]
    cases sram with
    | false =>
      rw [if_pos rfl, startEnded_of_sram t2 hok]
      exact ⟨rfl, rfl, hpower⟩
    | true =>
      rw [if_neg (by decide)]
      by_cases hmode : s.lpe.mode = .exhausted
      · rw [if_pos hmode, startEnded_of_exhausted t2 hok hmode]
        exact ⟨rfl, rfl, hpower⟩
      · rw [if_neg hmode, startEnded_of_ok t2 hok hmode, ← himage]
        exact completeStart_facts _
  · have hkept := (sendImages_steady (copyTargets s b) s).only
    have hlan : ((copyTargets s b).foldl sendImage s).lan = s.lan := hkept .lan (by decide)
    refine ⟨_, exec_imageReplicate_of_asked b hask, answerReq_replied r 0 (by decide) (congrArg Lan.queue hlan) (congrArg Lan.tx hlan), fun p hp hmember hboot hother => ?_,
      confined_trans (confined_more hkept (by decide)) (confined_more (answerReq_confined _ _ _) (by decide))⟩
    rw [allDescs, answerReq_cur]
    refine sendImages_held (copyTargets s b) s (List.mem_filter.mpr ⟨List.mem_range.mpr hp, ?_⟩)
    rw [hmember, hboot, bne_iff_ne.mpr hother]
    rfl
  · refine ⟨_, exec_imageTransferReceive_of_boot hlantern hup hx hop htarget hall hpower hstart hsize, ?_, ?_, ?_, ?_⟩
    · rw [sendMsg_lan]
      show ImagePhase.verifying (0 + (copiedImage x).length) true = _
      rw [Nat.zero_add, copiedImage, length_padTo]
    · rw [sendMsg_lan]
      rfl
    · rw [sendMsg_std_inXfers]
      rfl
    · exact confined_trans (imageTaken_confined s x) (confined_more (sendMsg_steady _ _ _).only (by decide))

end Sys2Proof.Machine

/-! Bays that take their coffers in and let them go (O45). -/

namespace Sys2Proof.Machine
open Sys2Proof

/-! ### Power-on -/

theorem cofferOf_sameBays (s : State) (n : Nat) (id : List Byte) (ext : List (Nat × List Byte × List Nat)) : SameBays s (cofferOf s n id ext) := by
  have hbrought : SameBays s (s.bayM n fun b => { b with coffer := some { ident := padTo 1024 id } }) := SameBays.refl.bayM fun _ => ⟨rfl, rfl, rfl⟩
  exact hbrought.trans (cofferM_sameBays _ _ _)

theorem cofferOf_ident {s : State} {n : Nat} (id : List Byte) (ext : List (Nat × List Byte × List Nat)) (hlt : n < s.bays.length) :
    ((cofferOf s n id ext).bay n).coffer.map (·.ident) = some (padTo 1024 id) := by
  unfold cofferOf
  dsimp only
  rw [cofferM_own _ _ (by rw [State.bayM, List.length_modify]; exact hlt), bayM_bay, if_pos ⟨rfl, hlt⟩]
  rfl

/-- The state with the coffer that stands in the bay: the one brought, or the one that has stayed (09 R356). -/
def cofferIn (s : State) (n : Nat) (id : List Byte) (ext : List (Nat × List Byte × List Nat)) : State := if id.isEmpty then s else cofferOf s n id ext

theorem cofferIn_sameBays (s : State) (n : Nat) (id : List Byte) (ext : List (Nat × List Byte × List Nat)) : SameBays s (cofferIn s n id ext) :=
  SameBays.ite SameBays.refl (cofferOf_sameBays s n id ext)

theorem cofferIn_steady (s : State) (n : Nat) (id : List Byte) (ext : List (Nat × List Byte × List Nat)) : Steady [.bays] s (cofferIn s n id ext) :=
  Steady.ite Steady.refl (cofferOf_steady s n id ext)

theorem cofferIn_ident {s : State} {n : Nat} (id : List Byte) (ext : List (Nat × List Byte × List Nat)) (hlt : n < s.bays.length) :
    ((cofferIn s n id ext).bay n).coffer.map (·.ident) = if id = [] then (s.bay n).coffer.map (·.ident) else some (padTo 1024 id) := by
  cases id with
  | nil => rfl
  | cons b id => exact cofferOf_ident (b :: id) ext hlt

/-- What power-on makes of a bay (09 Table 9-11). -/
def powerBay (now : Nat) (b : Bay) : Bay := { b with present := some (b.present.getD now), pwren := true }

theorem exec_bayPowerOn_of_empty {s : State} {n : Nat} {id : List Byte} (ext : List (Nat × List Byte × List Nat)) (hn : n < 4) (hmode : (s.bay n).mode = .empty)
    (hboot : s.lan.power ≠ .boot) (hnight : s.lan.power ≠ .night) (hcoffer : (s.bay n).coffer.isSome = id.isEmpty) :
    exec (.bayPowerOn n id ext) s = .next (setBay (cofferIn s n id ext) n .powering (powerBay s.now)) := by
  have hsame : ((s.bay n).coffer.isSome == id.isEmpty) = true := beq_iff_eq.mpr hcoffer
  exact ((formed_of (decide_eq_true hn)).trans (when_of (by rw [hmode, bne_iff_ne.mpr hboot, bne_iff_ne.mpr hnight, hsame]; rfl)) : execBayPowerOn n id ext s = _)

/-! ### Identification -/

/-- The identity memory in use and the geometry of a bay's coffer fit, and its channels trained (09 R351, R352, R367). -/
def identified (s : State) (n : Nat) (tr : Bool) (ch : List ChannelGeom) : Prop :=
  (((s.bay n).coffer.map (·.ident)).bind identCopy).isSome ∧ geometryOk s n ch = true ∧ tr = true

/-- A bay whose coffer is refused loses its power (09 Table 9-11). -/
def bayFailed (s : State) (n : Nat) : State := setBay s n .failed fun b => { b with pwren := false }

/-- The mount is noted in the identity memory, and the superblocks that the factory marked bad are set aside (09 R365, R367). -/
def mountNoted (s : State) (n : Nat) (ch : List ChannelGeom) : State :=
  let u := writeIdent s n fun c => putField (putField (identFlags 4 0 c) 116 4 (fieldAt c 116 4 + 1)) 120 32 (leNat (padTo 32 s.lan.traySerial))
  cofferM u n (avoidBad (identFld u n 44 4) ch)

/-- What identification makes of a bay (09 R351, R368). -/
def identBay (u : State) (n now : Nat) (b : Bay) : Bay :=
  { b with iface := identFld u n 32 1, mtsCode := mtsCodeOf (identFld u n 32 1) (identFld u n 36 4)
           mirror := [identFld u n 96 4, identFld u n 100 8, identFld u n 108 4, identFld u n 112 1], life := identFld u n 112 1
           eraseMax := identFld u n 108 4, reloc := 0, programs := [], erasing := none, lastCounters := now }

theorem mountNoted_sameBays (s : State) (n : Nat) (ch : List ChannelGeom) : SameBays s (mountNoted s n ch) :=
  (writeIdent_sameBays _ _ _).trans (cofferM_sameBays _ _ _)

theorem mountNoted_steady (s : State) (n : Nat) (ch : List ChannelGeom) : Steady [.bays] s (mountNoted s n ch) :=
  (writeIdent_steady _ _ _).chain (cofferM_steady _ _ _) (by decide)

section
variable {s : State} {n : Nat} {tr : Bool} {ch : List ChannelGeom} (hlen : ch.length = 16) (hclk : s.lan.refclk = true) (hn : n < 4)
  (hmode : (s.bay n).mode = .powering) (hdue : (s.bay n).since + 5000000 ≤ s.now)
include hlen hclk hn hmode hdue

theorem exec_bayIdent_of_powering : exec (.bayIdent n tr ch) s = .next (
    if (((s.bay n).coffer.map (·.ident)).bind identCopy).isNone || !geometryOk s n ch then cfcEvent (bayFailed s n) n 5
    else if !tr then bayFailed s n
    else setBay (mountNoted s n ch) n .mounting (identBay (mountNoted s n ch) n s.now)) := by
  refine ((formed_of ?_).trans (when_of ?_) : execBayIdent n tr s ch = _)
  · rw [decide_eq_true hn, decide_eq_true hlen]
    rfl
  · rw [hmode, due_of hclk hdue]
    rfl

theorem exec_bayIdent_of_identified (hok : identified s n tr ch) :
    exec (.bayIdent n tr ch) s = .next (setBay (mountNoted s n ch) n .mounting (identBay (mountNoted s n ch) n s.now)) := by
  obtain ⟨hident, hgeom, htrain⟩ := hok
  rw [exec_bayIdent_of_powering hlen hclk hn hmode hdue, if_neg, if_neg]
  · rw [htrain]
    decide
  · rw [hgeom, Bool.not_true, Bool.or_false, Option.isNone_iff_eq_none]
    exact fun h => by rw [h] at hident; cases hident

/-- A coffer that is not identified is refused, with or without the event of its identity memory (09 Table 9-11). -/
theorem exec_bayIdent_of_refused (hbad : ¬ identified s n tr ch) :
    exec (.bayIdent n tr ch) s = .next (cfcEvent (bayFailed s n) n 5) ∨ exec (.bayIdent n tr ch) s = .next (bayFailed s n) := by
  rw [exec_bayIdent_of_powering hlen hclk hn hmode hdue]
  by_cases hident : ((((s.bay n).coffer.map (·.ident)).bind identCopy).isNone || !geometryOk s n ch) = true
  · exact .inl (congrArg _ (if_pos hident))
  · refine .inr (congrArg _ ((if_neg hident).trans (if_pos ?_)))
    rw [Bool.not_eq_true, Bool.or_eq_false_iff, Bool.not_eq_false', Option.isNone_eq_false_iff] at hident
    rw [Bool.not_eq_true', ← Bool.not_eq_true]
    exact fun htrain => hbad ⟨hident.1, hident.2, htrain⟩

end

theorem bayFailed_facts {s : State} {n : Nat} (hlt : n < s.bays.length) : ((bayFailed s n).bay n).mode = .failed ∧ ((bayFailed s n).bay n).pwren = false :=
  ⟨setBay_mode _ hlt fun _ => rfl, setBay_get (·.pwren) hlt fun _ _ _ => rfl⟩

/-! ### The mount -/

/-- The coffer's journal has been replayed (09 R360). -/
def journalReplayed (s : State) (n : Nat) : State := cofferM s n replayJournal

/-- The extents of a coffer that sessions and charms can use (09 R339). -/
def mountedExtents (s : State) (n : Nat) : Tab Extent := (((s.bay n).coffer.map (·.extents)).getD []).filter (fun e => !e.2.ckpt)

/-- The device knows one extent of a mounted coffer (09 R360). -/
def knowExtent (n : Nat) (s : State) (e : Nat × Extent) : State := { s with extents := s.extents.set e.1 { e.2 with bay := n } }

/-- The device knows the extents of a mounted coffer (09 R360). -/
def extentsKnown (s : State) (n : Nat) : State := (mountedExtents (journalReplayed s n) n).foldl (knowExtent n) (journalReplayed s n)

/-- The bay of a mounted coffer, which is read-only where its identity memory says so (09 R369, Table 9-11). -/
def bayMounted (s : State) (n : Nat) : State :=
  setBay (extentsKnown s n) n (if bitAt (identFld (extentsKnown s n) n 113 1) 1 then .readOnly else .mounted) fun b => { b with lastPatrol := s.now }

/-- The extents of a mounted coffer are met, or freed at its first mount after a REJOIN (08 R307; 13 R509). -/
def extentsMet (u : State) (n : Nat) (ext : Tab Extent) : State :=
  match u.lan.remounted with
  | none => ext.foldl (meetExtent n) u
  | some seen =>
    if seen.contains (identFld u n 16 16) then ext.foldl (meetExtent n) u
    else ((ext.filter (fun e => e.2.kind == .locket)).map (·.1)).foldl freeExtent (u.lanM fun l => { l with remounted := some (seen ++ [identFld u n 16 16]) })

theorem exec_mountDone_of_mounting {s : State} {n : Nat} (hn : n < 4) (hmode : (s.bay n).mode = .mounting) (henable : (s.bay n).enable = true) (hserve : serving s = true) :
    exec (.mountDone n) s = .next (extentsMet (bayMounted s n) n (mountedExtents (journalReplayed s n) n)) :=
  ((formed_of (decide_eq_true hn)).trans (when_of (by rw [hmode, henable, hserve]; rfl)) : execMountDone n s = _)

theorem extentsMet_sameBays (u : State) (n : Nat) (ext : Tab Extent) : SameBays u (extentsMet u n ext) := by
  have hmeet : SameBays u (ext.foldl (meetExtent n) u) := SameBays.fold SameBays.refl (meetExtent_sameBays n)
  unfold extentsMet
  split
  · exact hmeet
  · exact SameBays.ite hmeet (SameBays.fold (SameBays.refl.calm (State.lanM_steady _ _) (by decide)) freeExtent_sameBays)

/-- The extents that a mount makes known leave the bays alone (09 R360). -/
theorem extentsKnown_bays (s : State) (n : Nat) : (extentsKnown s n).bays = (journalReplayed s n).bays :=
  foldl_keep (fun u : State => u.bays) _ (knowExtent n) (fun _ _ => rfl) _

theorem extentsKnown_bay (s : State) (n k : Nat) : (extentsKnown s n).bay k = (journalReplayed s n).bay k := by rw [State.bay, extentsKnown_bays]; rfl

theorem extentsKnown_identFld {s : State} {n : Nat} (off len : Nat) (hlt : n < s.bays.length) : identFld (extentsKnown s n) n off len = identFld s n off len := by
  have hident : ((extentsKnown s n).bay n).coffer.map (·.ident) = (s.bay n).coffer.map (·.ident) := by
    rw [extentsKnown_bay, journalReplayed, cofferM_own _ _ hlt, Option.map_map]
    exact congrArg (fun f => (s.bay n).coffer.map f) (funext replayJournal_ident)
  rw [identFld, hident]
  rfl

theorem extentsKnown_length (s : State) (n : Nat) : (extentsKnown s n).bays.length = s.bays.length := by
  rw [extentsKnown_bays]
  exact List.length_modify _ _ _

/-! ### Removal and detach -/

/-- The state in which the coffer of a bay has left: a bay that served it has lost it (09 R374). -/
def bayLeft (s : State) (n : Nat) : State :=
  if (s.bay n).mode == .detached || (s.bay n).mode == .failed then s
  else if (s.bay n).mode == .powering || (s.bay n).mode == .ident then s else bayLost s n

/-- An empty bay (09 Table 9-11). -/
def emptyBay (b : Bay) : Bay := { bayOff b with coffer := none, present := none, led := 0, life := 0, eraseMax := 0 }

theorem exec_cofferRemoval_of_present {s : State} {n : Nat} (hn : n < 4) (hmode : (s.bay n).mode ≠ .empty) :
    exec (.cofferRemoval n) s = .next (setBay (bayLeft s n) n .empty emptyBay) :=
  ((formed_of (decide_eq_true hn)).trans (when_of (bne_iff_ne.mpr hmode)) : execCofferRemoval n s = _)

theorem bayLeft_steady (s : State) (n : Nat) : Steady [.ast, .lockets, .charms, .t1, .extents, .cur, .bays, .eph, .ckpt, .hif, .lan] s (bayLeft s n) :=
  Steady.ite Steady.refl (Steady.ite Steady.refl (bayLost_steady s n))

/-- A detach begins: its indicator is lit (09 R372). -/
def detachLit (s : State) (n : Nat) : State := setBay s n .detaching fun b => { b with led := 1 }

theorem startDetach_of_mounted {s : State} {n : Nat} (hmode : (s.bay n).mode = .mounted ∨ (s.bay n).mode = .readOnly) :
    startDetach s n = detachCharms (failWrites (detachLit s n) n) n := by
  refine if_neg ?_
  rcases hmode with h | h <;> rw [h] <;> decide

theorem startDetach_facts {s : State} {n : Nat} (hlt : n < s.bays.length) (hmode : (s.bay n).mode = .mounted ∨ (s.bay n).mode = .readOnly) :
    ((startDetach s n).bay n).mode = .detaching ∧ ((startDetach s n).bay n).led = 1 := by
  rw [startDetach_of_mounted hmode]
  obtain ⟨hsame, -, hled⟩ := ((failWrites_sameBays (detachLit s n) n).trans (detachCharms_sameBays _ n)).eq n
  exact ⟨hsame.trans (setBay_mode _ hlt fun _ => rfl), hled.trans (setBay_get (·.led) hlt fun _ _ _ => rfl)⟩

theorem exec_cooperativeDetach_of_entry {s : State} {n : Nat} {r : Req} (hn : n < 4) (hask : asks s r (0x3100 + n) 2 1) :
    exec (.cooperativeDetach n 0) s = .next (answerReq (startDetach s n) r 0) :=
  ((formed_of (by rw [decide_eq_true hn]; rfl)).trans ((if_pos rfl).trans (asks_onWrite hask _ _ (by rw [beq_self_eq_true]; rfl))) : execCooperativeDetach n 0 s = _)

theorem exec_cooperativeDetach_of_pin {s : State} {n k : Nat} (hn : n < 4) (hk : k = 1 ∨ k = 2) (hserve : servedF s = true) :
    exec (.cooperativeDetach n k) s = .next (startDetach s n) := by
  have hsource : k < 3 ∧ k ≠ 0 := by omega
  exact ((formed_of (by rw [decide_eq_true hn, decide_eq_true hsource.1]; rfl)).trans ((if_neg hsource.2).trans (when_of hserve)) : execCooperativeDetach n k s = _)

theorem exec_detachRetry_of_due {s : State} {n : Nat} (hclk : s.lan.refclk = true) (hn : n < 4) (hmode : (s.bay n).mode = .detaching) (hblock : (s.bay n).blocked = true)
    (hdue : (s.bay n).retryAt ≤ s.now) : exec (.detachRetry n) s = .next (detachCharms s n) :=
  ((formed_of (decide_eq_true hn)).trans (when_of (by rw [hmode, hblock, due_of hclk hdue]; rfl)) : execDetachRetry n s = _)

/-- A detach that waits for pages tries again after 100,000,000 ticks (09 R372). -/
theorem detachCharms_retryAt {s : State} {n : Nat} (hlt : n < (detachCharms s n).bays.length) (hblock : ((detachCharms s n).bay n).blocked = true) :
    ((detachCharms s n).bay n).retryAt = s.now + 100000000 := by
  unfold detachCharms at hlt hblock ⊢
  dsimp only at hlt hblock ⊢
  rw [State.bayM, List.length_modify] at hlt
  rw [bayM_bay, if_pos ⟨rfl, hlt⟩] at hblock ⊢
  exact if_pos hblock

/-- The coffer of a detach that ends: its map image and counters are written and its sessions are free (09 R372 steps 4 and 5). -/
def detachWritten (s : State) (n : Nat) : State :=
  writeIdent (writeCounters (freeParked (mapImage (detachCharms s n) n) n) n) n (identFlags 0 4)

/-- A detached bay (09 R372 step 6). -/
def detachedBay (b : Bay) : Bay := { bayOff b with led := 2 }

theorem exec_detachDone_of_ready {s : State} {n : Nat} (hclk : s.lan.refclk = true) (hn : n < 4) (hmode : (s.bay n).mode = .detaching) (hready : detachReady s n = true) :
    exec (.detachDone n) s = .next (cfcEvent (setBay (detachWritten s n) n .detached detachedBay) n 6) :=
  ((formed_of (decide_eq_true hn)).trans ((clocked_on hclk).trans (when_of (by rw [hmode, hready]; rfl))) : execDetachDone n s = _)

theorem detachWritten_steady (s : State) (n : Nat) : Steady [.ast, .lockets, .charms, .extents, .cur, .bays, .eph, .ckpt] s (detachWritten s n) := by
  have hcharms : Steady [.ast, .lockets, .charms, .extents, .cur, .bays, .eph, .ckpt] s (detachCharms s n) := Steady.refl.chain (detachCharms_steady s n) (by decide)
  have hparked := (hcharms.chain (mapImage_steady _ n) (by decide)).chain (freeParked_steady _ n) (by decide)
  exact (hparked.chain (writeCounters_steady _ n) (by decide)).chain (writeIdent_steady _ n _) (by decide)

/-- The coffer of a forced detach: protected, with its counters written (09 R373). -/
def forceWritten (s : State) (n : Nat) : State := writeCounters (cofferM s n fun c => { c with wp := true }) n

theorem forceWritten_steady (s : State) (n : Nat) : Steady [.bays] s (forceWritten s n) := (cofferM_steady _ _ _).chain (writeCounters_steady _ n) (by decide)

theorem forceDetach_facts {s : State} {n : Nat} (hlt : n < (forceWritten s n).bays.length) :
    ((forceDetach s n).bay n).mode = .detached ∧ ((forceDetach s n).bay n).pwren = false := by
  obtain ⟨hmode, hpower, -⟩ := (bayLost_sameBays (cfcEvent (setBay (forceWritten s n) n .detached bayOff) n 6) n).eq n
  refine ⟨hmode.trans ?_, hpower.trans ?_⟩
  · rw [cfcEvent_get (·.mode) (fun _ _ => rfl)]
    exact setBay_mode _ hlt fun _ => rfl
  · rw [cfcEvent_get (·.pwren) (fun _ _ => rfl)]
    exact setBay_get (·.pwren) hlt fun _ _ _ => rfl

theorem exec_forcedDetach_of_asked {s : State} {n : Nat} {r : Req} (hn : n < 4) (hask : asks s r (0x3100 + n) 2 0xA5) :
    exec .forcedDetach s = .next (answerReq (forceDetach s n) r 0) := by
  have hbay : (decide (0x3100 ≤ 0x3100 + n) && decide (0x3100 + n ≤ 0x3103)) = true := by
    rw [Bool.and_eq_true, decide_eq_true_eq, decide_eq_true_eq]
    omega
  refine (asks_onWrite hask _ _ (by rw [hbay]; rfl) : execForcedDetach s = _).trans (congrArg (fun u => Host.Outcome.next (answerReq u r 0)) ?_)
  obtain ⟨-, -, hindex, -⟩ := hask
  rw [hindex, Nat.add_sub_cancel_left]

/-! ### The statement -/

theorem answered_bay (u : State) (r : Req) (k n : Nat) : (answerReq u r k).bay n = u.bay n := by rw [State.bay, answerReq_bays]; rfl

/-- Settles O45: a bay powers, identifies and mounts its coffer or refuses it, and its detach, forced detach or removal ends without power. -/
theorem baysEnteredAndLeft : Obligations.BaysEnteredAndLeft := by
  refine ⟨fun s n id ext hshape hn hmode hboot hnight hcoffer => ?_, fun s n tr ch hlen hclk hshape hn hmode hdue => ?_, fun s n hshape hn hmode henable hserve => ?_,
    fun s n hshape hn hmode => ?_, fun s n k hshape hn hmode hsource => ?_, fun s n hclk hshape hn hmode hblock hdue => ?_, fun s n hclk hshape hn hmode hready => ?_,
    fun s n r hshape hn hask => ?_⟩
  · have hlt := bays_lt hshape (cofferIn_steady s n id ext) hn
    have hother : ((cofferIn s n id ext).bay n).mode ≠ .powering := by
      rw [((cofferIn_sameBays s n id ext).eq n).1, hmode]
      decide
    have hnow : (cofferIn s n id ext).now = s.now := (cofferIn_steady s n id ext).only .now (by decide)
    refine ⟨_, exec_bayPowerOn_of_empty ext hn hmode hboot hnight hcoffer, setBay_mode _ hlt fun _ => rfl, setBay_get (·.pwren) hlt fun _ _ _ => rfl,
      (setBay_since hlt hother).trans hnow, ?_, confined_trans (confined_more (cofferIn_steady s n id ext).only (by decide)) (setBay_steady _ _ _ _).only⟩
    have hident := setBay_get (m := .powering) (f := powerBay s.now) (fun b => b.coffer.map (·.ident)) hlt fun _ _ _ => rfl
    exact hident.trans (cofferIn_ident id ext (bays_lt hshape (Steady.refl (l := [])) hn))
  · by_cases hok : identified s n tr ch
    · have hlt := bays_lt hshape (mountNoted_steady s n ch) hn
      refine ⟨_, exec_bayIdent_of_identified hlen hclk hn hmode hdue hok,
        confined_trans (confined_more (mountNoted_steady s n ch).only (by decide)) (setBay_steady _ _ _ _).only, ?_⟩
      exact (if_pos hok).mpr ⟨setBay_mode _ hlt fun _ => rfl, (setBay_get (·.pwren) hlt fun _ _ _ => rfl).trans ((mountNoted_sameBays s n ch).eq n).2.1⟩
    · obtain ⟨hfailed, hpower⟩ := bayFailed_facts (bays_lt hshape (Steady.refl (l := [])) hn)
      rcases exec_bayIdent_of_refused hlen hclk hn hmode hdue hok with hexec | hexec
      · refine ⟨_, hexec, confined_trans (setBay_steady _ _ _ _).only (confined_more (cfcEvent_steady _ _ _).only (by decide)), ?_⟩
        refine (if_neg hok).mpr ⟨?_, ?_⟩
        · rw [cfcEvent_get (·.mode) (fun _ _ => rfl), hfailed]
        · rw [cfcEvent_get (·.pwren) (fun _ _ => rfl), hpower]
      · exact ⟨_, hexec, (setBay_steady _ _ _ _).only, (if_neg hok).mpr ⟨hfailed, hpower⟩⟩
  · have hbays : n < s.bays.length := bays_lt hshape (Steady.refl (l := [])) hn
    have hlt : n < (extentsKnown s n).bays.length := by rw [extentsKnown_length]; exact hbays
    obtain ⟨hstate, hpower, -⟩ := (extentsMet_sameBays (bayMounted s n) n (mountedExtents (journalReplayed s n) n)).eq n
    refine ⟨_, exec_mountDone_of_mounting hn hmode henable hserve, hstate.trans ?_, hpower.trans ?_⟩
    · rw [← extentsKnown_identFld 113 1 hbays]
      exact setBay_mode _ hlt fun _ => rfl
    · refine (setBay_get (·.pwren) hlt fun _ _ _ => rfl).trans ?_
      show ((extentsKnown s n).bay n).pwren = _
      rw [extentsKnown_bay]
      exact ((cofferM_sameBays s n replayJournal).eq n).2.1
  · have hlt := bays_lt hshape (bayLeft_steady s n) hn
    exact ⟨_, exec_cofferRemoval_of_present hn hmode, setBay_mode _ hlt fun _ => rfl, setBay_get (·.coffer) hlt fun _ _ _ => rfl, setBay_get (·.pwren) hlt fun _ _ _ => rfl,
      setBay_get (·.present) hlt fun _ _ _ => rfl⟩
  · obtain ⟨hstate, hled⟩ := startDetach_facts (bays_lt hshape (Steady.refl (l := [])) hn) hmode
    rcases hsource with ⟨rfl, r, hask⟩ | ⟨hk, hserve⟩
    · refine ⟨_, exec_cooperativeDetach_of_entry hn hask, ?_, ?_⟩
      · rw [answered_bay, hstate]
      · rw [answered_bay, hled]
    · exact ⟨_, exec_cooperativeDetach_of_pin hn hk hserve, hstate, hled⟩
  · exact ⟨_, exec_detachRetry_of_due hclk hn hmode hblock hdue, ((detachCharms_sameBays s n).eq n).1.trans hmode,
      detachCharms_retryAt (bays_lt hshape (detachCharms_steady s n) hn)⟩
  · have hlt := bays_lt hshape (detachWritten_steady s n) hn
    have hlt' : n < (setBay (detachWritten s n) n .detached detachedBay).bays.length := by
      rw [(setBay_steady _ _ _ _).bays ((detachWritten_steady s n).bays (shaped_bays hshape))]
      exact hn
    refine ⟨_, exec_detachDone_of_ready hclk hn hmode hready, ?_, ?_, ?_, cfcEvent_set hlt'⟩
    · rw [cfcEvent_get (·.mode) (fun _ _ => rfl)]
      exact setBay_mode _ hlt fun _ => rfl
    · rw [cfcEvent_get (·.pwren) (fun _ _ => rfl)]
      exact setBay_get (·.pwren) hlt fun _ _ _ => rfl
    · rw [cfcEvent_get (·.led) (fun _ _ => rfl)]
      exact setBay_get (·.led) hlt fun _ _ _ => rfl
  · obtain ⟨hstate, hpower⟩ := forceDetach_facts (bays_lt hshape (forceWritten_steady s n) hn)
    refine ⟨_, exec_forcedDetach_of_asked hn hask, ?_, ?_⟩
    · rw [answered_bay, hstate]
    · rw [answered_bay, hpower]

end Sys2Proof.Machine
